-- ==== Sys2Proof/Word.lean ====
section
/-! DEFINITION. The word types of the fabric and their plainest arithmetic: control words of 32 bits (R10), bank words
of 256 bits (R18), 16-bit symbols (R176), 48-bit counter values (R263), 64-bit item words (R202). -/
namespace Sys2Proof

/-- A byte (R8). -/
abbrev Byte := BitVec 8
/-- A register or control word (R10). -/
abbrev W32 := BitVec 32
/-- A 64-bit word: a control-matrix transfer (R413) or a handoff item word (R202). -/
abbrev W64 := BitVec 64
/-- A bank word of 32 bytes (R18). -/
abbrev W256 := BitVec 256
/-- A symbol of the stored codeword (R176). -/
abbrev Sym := BitVec 16
/-- A sync counter's value (R263). -/
abbrev W48 := BitVec 48

end Sys2Proof
end

