-- ==== Sys2Proof/Syntax.lean ====
section
/-! DEFINITION. The commands the block takes: one constructor of `Instr` for each row of the spec's table of operations and
events, with the row's operands, and the types of those operands. Indices that a wire or a field bounds carry the bound in
their type; what else a command needs to be well formed is checked in WellFormed.lean. -/
namespace Sys2Proof

/-- A physical cabinet, 0 to 127 (R21). -/
abbrev Cab := Fin 128
/-- A context (R384). -/
abbrev Ctx := Fin 16
/-- A bank of a cabinet (R28). -/
abbrev Bank := Fin 32
/-- A window (R388). -/
abbrev Win := Fin 64
/-- A Pastan core by its master index m of R411. -/
abbrev Core := Fin 11
/-- An edge gateway (R546). -/
abbrev Gw := Fin 4
/-- A partner entry (R552). -/
abbrev Partner := Fin 64

/-- The masters of the control matrix (R411). -/
inductive Master where
  | sec | pwc | sch | cc (k : Fin 8) | dbg | hrp
  deriving DecidableEq, Repr

/-- The targets of the control matrix (R411). -/
inductive Target where
  | rom | msram | nvmc | rgs
  deriving DecidableEq, Repr

/-- The four links of a cabinet (R20). -/
inductive Dir where
  | n | e | s | w
  deriving DecidableEq, Repr

/-- The freeze sources of R76. -/
inductive FrzSrc where
  | bridge | clamp | debug | firmware | licensee | package
  deriving DecidableEq, Repr

/-- What a staging buffer of a port holds, and whether it shows a parity error as it leaves the buffer (R139). -/
structure Staged (α : Type) where
  held : α
  perr : Bool
  deriving DecidableEq, Repr

/-- The set-class ports whose accesses a range entry can hold (R99): the two wide ports and the landing stage. -/
inductive SetPort where
  | wrp | wwp | land
  deriving DecidableEq, Repr

/-- The presence inputs: six for each cabinet (R140), the host DMA port (R597) and the host register port (R424). -/
inductive PresPort where
  | wrp (c : Cab) | wwp (c : Cab) | np0 (c : Cab) | np1 (c : Cab) | hfp (c : Cab) | seq (c : Cab) | hdp | hrp
  deriving DecidableEq, Repr

/-- A counter named for binding: a cabinet counter, or a die-global one reached through the window of a cabinet (R309). -/
inductive CtrSel where
  | cab (c : Cab) (n : Fin 64)
  | glob (via : Cab) (g : Fin 256)
  deriving DecidableEq, Repr

/-- Causes of a core restart, as the RESTART event numbers them (R451): 1 watchdog, 2 activation, 3 recovery or role
split, 4 command, 5 revert. -/
inductive RestartCause where
  | watchdog | activation | recovery | command | revert
  deriving DecidableEq, Repr

/-- Responses (R110). -/
inductive Resp where
  | ok | zero | asleep | fault
  deriving DecidableEq, Repr

/-- Requester classes of an access to the tensor store (R392). -/
inductive Cls where
  | set | loose | host | edge | mgmt | free
  deriving DecidableEq, Repr

/-- Who waits for the answer of a loose access; `gone` for one that is answered already. -/
inductive Origin where
  | np (cab port tag : Nat)
  | hdp (tag : Nat)
  | seg (cab r n : Nat)
  | fetch (cab r idx : Nat)
  | mgt (m : Nat)
  | edgeIn (k n : Nat)
  | edgeOut (k n : Nat)
  | asy (cab word : Nat)
  | rep (cab word : Nat)
  | rmp (cab : Nat)
  | swp (cab : Nat)
  | gone
  deriving DecidableEq, Repr

/-- What a loose burst does at its bank (R148). -/
inductive BankOp where
  | acc
  | sweep (bank row0 rows : Nat)
  | move (bank row : Nat)
  | repair (bank row : Nat)
  deriving DecidableEq, Repr

/-- One loose access (R124, R315, R413, R598): identifier of R248, requester index of R151, the cabinet and die it came
from, class and context of R392,
64-byte block address, direction, byte enables over the block, write data as two words. -/
structure LReq where
  id : Nat
  req : Nat
  home : Nat
  homeDie : Nat
  org : Origin
  cls : Cls
  ctx : Option Nat
  fa : Nat
  we : Bool
  be : Nat
  dat : List W256
  op : BankOp
  deriving DecidableEq, Repr

/-- The answer of a loose access: response, data of the two words and their zero flags. -/
structure Ans where
  resp : Resp
  dat : List W256
  zero : List Bool
  deriving DecidableEq, Repr

/-- A loose flit (R165): the access, its answer when it travels back, where it began on this die, where it leaves or is
delivered, the cabinet it stands in, the input it waits at (4 is the local queue), the output it is routed to (4 delivery, 5
none yet), hops taken on this die (R612), its column detour row (R249),
its level (0 to 3, 4 urgent, 5 emergency), the fc from which it may be sent on (R167), one more than the unfrozen fc from which it
has been at its output's head, 0 while it is not, the fc it has waited there before, whether that has made it urgent (R166). -/
structure LFlit where
  acc : LReq
  ans : Option Ans
  src : Nat
  dst : Nat
  dstDie : Nat
  cur : Nat
  port : Nat
  out : Nat
  hops : Nat
  det : Option Nat
  lvl : Nat
  ready : Nat
  since : Nat
  waited : Nat := 0
  hot : Bool := false
  deriving DecidableEq, Repr

/-- Set-class flits: a read request, read data on its way back, or a write (R116, R122). -/
inductive SKind where
  | rdReq | rdData | wr
  deriving DecidableEq, Repr

/-- A set-class flit: its context with the fence mask recorded at bind (R252), fabric address, payload, due fc in schedule
time (R59), route end points, the cabinet it stands in and the schedule fc on which it entered it (R58), hops and column
detour (R249, R612), the issue it belongs to, and the return latency a read request carries (R116). -/
structure SFlit where
  id : Nat
  kind : SKind
  ctx : Option Nat
  fmask : Nat
  fa : Nat
  dat : List W256
  zero : List Bool
  resp : Resp
  due : Nat
  src : Nat
  srcDie : Nat
  from' : Nat
  dst : Nat
  dstDie : Nat
  cur : Nat
  enter : Nat
  hops : Nat
  det : Option Nat
  issue : Nat
  lret : Nat
  rpl : Bool
  deriving DecidableEq, Repr

/-- Sources of signals (R270). -/
inductive SigSrc where
  | engine (cab : Nat)
  | runner (cab r : Nat)
  | fifo (cab f : Nat)
  | reg (cab : Nat) (req : Nat)
  | edge (k : Nat)
  deriving DecidableEq, Repr

/-- Where a signal is: held for its step (R84), waiting at its port to leave (R276), on the sync network, in a counter
unit, held at a bridge receiver (R277), or at another die, its outcome not known to its source. -/
inductive SigPlace where
  | held | port | net | bridge | away
  deriving DecidableEq, Repr

/-- A signal: source and its die, context, counter name (R260), increment, the writes of its drain set, where it is, and
since when: while it is held the schedule fc of its issue, or that on which its list's step opened (R313), the unfrozen fc of its arrival on the network. -/
structure Sig where
  id : Nat
  src : SigSrc
  die : Nat
  ctx : Option Nat
  cn : Nat
  inc : Nat
  drain : List Nat
  place : SigPlace
  since : Nat
  deriving DecidableEq, Repr

/-- A message of the sideband channel (R539): a control read and its answer (R415), an operating-point target (R496) and a
die's report of its change, a power estimate with how it stands to
its die's limits, 2 above LIMIT, 0 below LIMIT − HYST, 1 between (R502), a Hallmark round message (R588), the old point returned (R497). -/
inductive Sideband where
  | ctlRead (die m : Nat) (ca : W32)
  | ctlAns (die m : Nat) (v : W32) (resp : Resp)
  | opTarget (point : Nat)
  | opReport (die result : Nat)
  | opBack (point : Nat)
  | estimate (die watts mark : Nat)
  | round (die : Nat) (mark : Option (List W32))
  deriving DecidableEq, Repr

/-- What a wire slot's header or payload can carry (R528): `nak` is one of the three voted copies of a NAK (R532), `share` a share of the
sideband with an earlier part of the message that `side` completes. -/
inductive SlotItem where
  | setFlit (f : SFlit)
  | looseFlit (f : LFlit)
  | beginMark (origin seq : Nat)
  | endMark (origin seq : Nat)
  | replay (ctx attempt r : Nat)
  | laneDown (origin seq : Nat)
  | beacon (value : Nat) (h : Nat)
  | stretch (count : Nat)
  | startMark (s : Nat) (h : Nat)
  | signal (g : Sig)
  | side (dst : Nat) (msg : Sideband)
  | credit (n : Nat)
  | ack (seq : Nat)
  | nak (seq : Nat)
  | share
  deriving DecidableEq, Repr

/-- A wire slot: its sequence number, the sender's schedule fc of its set-class flit, and its contents (R528). -/
structure WireSlot where
  seq : Nat
  stime : Nat
  items : List SlotItem
  deriving DecidableEq, Repr

/-- A gateway packet (R549): header fields, payload, the bytes counted in its beats, and whether the AES-GCM tag verifies
(R551: the cipher is not part of the model). -/
structure Packet where
  typ : Byte
  status : Byte
  len : BitVec 16
  seq : W64
  serial : W64
  die : BitVec 3
  gw : BitVec 2
  epoch : Byte
  reqId : BitVec 16
  addr : W32
  arg : W32
  payload : List Byte
  beatBytes : Nat
  tagOk : Bool
  deriving DecidableEq, Repr

/-- What a BIST stage found in one cabinet (R580): a row with two or more failing valid-bit cells, a spare word failing in
two or more symbols, and the failing cells as (bank, row, macro). -/
structure BistCab where
  cab : Cab
  validBad : Bool
  spareBad : Bool
  fails : List (Bank × Fin 4096 × Fin 18)
  deriving DecidableEq, Repr

/-- The commands of the block: one constructor for each row of the table of operations and events. -/
inductive Instr where
  /-- REGISTER_WRITE (R11). A control write to a register that has no row of its own, applied field by field under its access code. -/
  | registerWrite (m : Master) (ca : W32) (v : W32)
  /-- RC_READ (R11). A read of a read-clear register returns its value and clears it. -/
  | rcRead (m : Master) (ca : W32)
  /-- LO_READ_LATCH (R14). A read of the _LO half of a 64-bit pair latches the _HI half for that master. -/
  | loReadLatch (m : Master) (ca : W32)
  /-- PAIR_LO_WRITE (R15). A write to the _LO half of a writable pair is held per master until the _HI write. -/
  | pairLoWrite (m : Master) (ca : W32) (v : W32)
  /-- PAIR_HI_WRITE (R15). A write to the _HI half applies the pair as one 64-bit value, using the held _LO write or the current lower half. -/
  | pairHiWrite (m : Master) (ca : W32) (v : W32)
  /-- CMAP_CTL_WRITE (R37). A write by SEC to IDV.CMAP_CTL updates the count fields and then checks and may select a new current generation. -/
  | cmapCtlWrite (m : Master) (v : W32)
  /-- CMAP_ENTRY_WRITE (R36). A write by SEC to a map entry, ignored and logged while its generation is in use. -/
  | cmapEntryWrite (m : Master) (g : Fin 2) (n : Fin 128) (v : W32)
  /-- SET_FLIT_HOP (R58). A set-class flit crosses one link in its planned slot, checked for slot collision. -/
  | setFlitHop (id : Nat)
  /-- FLIT_ARRIVAL (R60). A set-class flit arrives at a landing stage and is held, released, dropped because the stage is full, or flagged late. -/
  | flitArrival (id : Nat)
  /-- LANDING_RELEASE (R59). At its due fc the landing stage releases a flit as a bank issue, rechecking map, window and power. -/
  | landingRelease (cab : Cab) (id : Nat)
  /-- FREEZE_START (R73). The first frozen fc of a freeze begins, 3 fc after FRZ rises, and every set-class pipeline holds. -/
  | freezeStart (src : FrzSrc)
  /-- FREEZE_FINISH (R73). The first unfrozen fc after a freeze, 3 fc after FRZ falls; work resumes. -/
  | freezeFinish (src : FrzSrc)
  /-- FRZ_REQ_CHANGE (R76). A change of the licensee FRZ_REQ input starts or ends a licensee freeze 4 fc later. -/
  | frzReqChange (level : Bool)
  /-- FRZ_CTL_WRITE (R81). A write to LCT.FRZ_CTL sets REQ_EN, FW_FRZ or SEC_FRZ per master and requests or ends a firmware freeze. -/
  | frzCtlWrite (m : Master) (v : W32)
  /-- FREEZE_BEGIN_MARK (R77). A freeze begin mark arrives over a bridge; the die raises FRZ and forwards the mark. -/
  | freezeBeginMark (lane : Fin 8) (origin : Fin 8) (seq : Nat)
  /-- FREEZE_END_MARK (R78). A freeze end mark arrives and the package freeze ends 3 fc later. -/
  | freezeEndMark (lane : Fin 8) (origin : Fin 8) (seq : Nat)
  /-- STEP_MARK (R83). STEP_MARK opens a step of a context on frame cycle 0 and closes its previous step. -/
  | stepMark (ctx : Ctx) (rpl : Bool)
  /-- STEP_RELEASE (R84). A closed step of a multi-die context is released 256 fc after closing, releasing its held signals. -/
  | stepRelease (ctx : Ctx)
  /-- REPLAY_NOTICE (R86). A replay notice from another die raises STEP_REPLAY for the context and adopts the greatest R. -/
  | replayNotice (lane : Fin 8) (ctx : Ctx) (attempt : Fin 4) (r : Nat)
  /-- REPLAY_RESTART (R87). At restart fc R, STEP_REPLAY has fallen and the replayed step must be marked with STEP_MARK_RPL. -/
  | replayRestart (ctx : Ctx)
  /-- SBC_OPEN_WRITE (R96). A scoreboard command opens a pending-write range entry. -/
  | sbcOpenWrite (cab : Cab) (entry : Fin 32) (base limit : BitVec 17) (count : BitVec 18)
  /-- SBC_OPEN_READ (R96). A scoreboard command opens a pending-read range entry. -/
  | sbcOpenRead (cab : Cab) (entry : Fin 32) (base limit : BitVec 17) (count : BitVec 18)
  /-- SBC_CLOSE (R96). A scoreboard command closes and empties a range entry. -/
  | sbcClose (cab : Cab) (entry : Fin 32)
  /-- RANGE_HOLD_END (R98). A range entry whose count reached zero stops holding 3 fc (write) or 2 fc (read) later. -/
  | rangeHoldEnd (cab : Cab) (entry : Fin 32)
  /-- HELD_ACCESS_RELEASE (R99). A held set-class access issues on the first fc no entry holds it, adding to slip. -/
  | heldAccessRelease (cab : Cab) (port : Staged SetPort)
  /-- SBD_MODE_WRITE (R92). A write to SBD.MODE selects schedule-trust or range-scoreboard mode, subject to LOCKED and open entries. -/
  | sbdModeWrite (m : Master) (cab : Cab) (v : W32)
  /-- WRP_LOOKAHEAD (R113). A WRP look-ahead claims a bank group for the issue 3 fc later. -/
  | wrpLookahead (cab : Cab) (grp : Fin 4)
  /-- WRP_ISSUE (R112). A wide read issue on WRP, checked and performed locally or sent as a remote request. -/
  | wrpIssue (cab : Cab) (addr : BitVec 24) (dly : BitVec 4)
  /-- WRP_DELIVERY (R117). WRP delivers read data and response at issue fc plus nominal latency. -/
  | wrpDelivery (cab : Cab) (perr : Bool)
  /-- REMOTE_READ_INJECT (R116). A remote read request is injected at a + d − s or misses its slot as a slip overrun. -/
  | remoteReadInject (cab : Cab) (id : Nat)
  /-- WWP_LOOKAHEAD (R120). A WWP look-ahead claims a bank group for the issue 3 fc later. -/
  | wwpLookahead (cab : Cab) (grp : Fin 4)
  /-- WWP_ISSUE (R120). A wide write issue on WWP, checked and performed locally or sent remotely. -/
  | wwpIssue (cab : Cab) (addr : BitVec 24) (data : List W256) (dly : BitVec 4) (perr : Bool)
  /-- WWP_RESPONSE (R121). WWP_RESP reports the write's response at issue fc + 3. -/
  | wwpResponse (cab : Cab)
  /-- REMOTE_WRITE_INJECT (R122). A remote write's data is injected at a + d − s or misses its slot. -/
  | remoteWriteInject (cab : Cab) (id : Nat)
  /-- LANDING_LOOKAHEAD (R123). A landing look-ahead claims a bank group for a landing-stage release 3 fc later, delayed by slip. -/
  | landingLookahead (cab : Cab) (grp : Fin 4)
  /-- NP_REQUEST (R125). A narrow-port request is accepted when NPx_REQ and NPx_ACK are both high. -/
  | npRequest (cab : Cab) (port : Fin 2) (we : Bool) (addr : BitVec 26) (be : W64) (data : Staged (List W256)) (tag : Fin 32)
  /-- NP_COMPLETION (R128). A narrow access completes and its completion is presented with tag, data and response. -/
  | npCompletion (cab : Cab) (port : Fin 2) (perr : Bool)
  /-- HFP_PUSH (R133). An HFP push of an item into a handoff FIFO completes when HFP_PUSH_READY is high. -/
  | hfpPush (cab : Cab) (f : Fin 8) (data : List W64) (first last : Bool) (perr : Bool)
  /-- HFP_POP (R133). An HFP pop delivers the oldest item, the idle item, or a FAULT on the next fc. -/
  | hfpPop (cab : Cab) (f : Fin 8) (perr : Bool)
  /-- HFP_DROP (R369). An HFP drop discards the current packet of a FIFO. -/
  | hfpDrop (cab : Cab) (f : Fin 8)
  /-- PRESENT_CHANGE (R140). A change of a PRESENT input takes effect on the third fc, masking or unmasking the port. -/
  | presentChange (port : PresPort) (level : Bool)
  /-- PAIR_ARBITRATION (R150). A bank pair arbiter decides on one fc which loose and DBG bursts start on the next fc. -/
  | pairArbitration (cab : Cab) (pair : Fin 16)
  /-- LOOSE_BURST_DONE (R149). A granted loose burst finishes its bank operation and commits. -/
  | looseBurstDone (cab : Cab) (pair : Fin 16)
  /-- REQUEST_URGENT (R155). A waiting loose request reaches AGE_LIMIT and becomes urgent. -/
  | requestUrgent (cab : Cab) (pair : Fin 16)
  /-- ARB_PRIO_WRITE (R159). A write to ARB.PRIO changes requester priorities from the next decision outside a held grant. -/
  | arbPrioWrite (m : Master) (cab : Cab) (v : W32)
  /-- ARB_AGE_WRITE (R158). A write to ARB.AGE changes AGE_LIMIT from the next fc. -/
  | arbAgeWrite (m : Master) (cab : Cab) (v : W32)
  /-- ARB_CNT_CLR (R169). A write to ARB.CNT_CLR clears arbitration counters of the selected requesters. -/
  | arbCntClr (m : Master) (cab : Cab) (v : W32)
  /-- LINK_OUTPUT_GRANT (R166). A link output sends the highest-level loose flit on a free fc, under credits. -/
  | linkOutputGrant (cab : Cab) (out : Dir)
  /-- LOOSE_FLIT_HOP (R167). A loose flit arrives at a router and is routed, refused or discarded. -/
  | looseFlitHop (id : Nat)
  /-- AUTO_RETIRE (R187). A macro counter reaching RET_LIMIT retires the macro automatically on the next fc. -/
  | autoRetire (cab : Cab) (bank : Bank) (mac : Fin 18)
  /-- RETIRE_WRITE (R222). A write to BNK.RETIRE_b records first and/or second macro retirement. -/
  | retireWrite (m : Master) (cab : Cab) (bank : Bank) (v : W32)
  /-- BUCKET_DRIP (R197). At each drip instant every nonempty bucket of the cabinet loses 1. -/
  | bucketDrip (cab : Cab)
  /-- BKT_CFG_WRITE (R199). A write to BNK.BKT_CFG changes THRESH or DRIP_PERIOD. -/
  | bktCfgWrite (m : Master) (cab : Cab) (v : W32)
  /-- INJ_CTL_WRITE (R201). A write to BNK.INJ_CTL arms fault injection or is ignored when out of range. -/
  | injCtlWrite (m : Master) (cab : Cab) (v : W32)
  /-- BNK_CNT_CLR (R218). A write to BNK.CNT_CLR clears the selected error counters or buckets. -/
  | bnkCntClr (m : Master) (cab : Cab) (v : W32)
  /-- SWP_GO (R221). A write of GO to BNK.SWP_CTL queues a sweep range or sets REJ. -/
  | swpGo (m : Master) (cab : Cab) (v : W32)
  /-- SWEEP_RANGE_DONE (R194). The sweep engine completes a range and takes the next queued range. -/
  | sweepRangeDone (cab : Cab)
  /-- LOG_ACK (R209). A write of ACK moves NEXT into FIRST or empties FIRST. -/
  | logAck (m : Master) (k : Fin 4) (v : W32)
  /-- LOG_CLR_ALL (R209). A write of CLR_ALL empties both records and clears OVF. -/
  | logClrAll (m : Master) (k : Fin 4) (v : W32)
  /-- ASSAY_GO (R230). An accepted GO to ASY.CTL requests leave for an assay pass. -/
  | assayGo (m : Master) (cab : Cab) (v : W32)
  /-- ASSAY_BURST (R231). The assay engine presents its next read burst after its GAP. -/
  | assayBurst (cab : Cab)
  /-- ASSAY_REPAIR (R233). A corrected assay read triggers a repair burst that re-reads, writes back, verifies and may remap. -/
  | assayRepair (cab : Cab)
  /-- ASSAY_ABORT (R234). A write of ABORT stops further assay presentations. -/
  | assayAbort (m : Master) (cab : Cab) (v : W32)
  /-- ASSAY_DONE (R234). After the pass's last bank operation, DONE and END are set. -/
  | assayDone (cab : Cab)
  /-- REMAP_ADD (R241). A write of RMP.ADD with GO queues a remap move or refuses it. -/
  | remapAdd (m : Master) (cab : Cab) (v : W32)
  /-- REMAP_MOVE (R239). The remap move reads the word, writes the lowest free spare and validates the entry. -/
  | remapMove (cab : Cab)
  /-- FENCE_CMD (R257). A write of IDV.FENCE_CMD with GO orders the fence of a cabinet. -/
  | fenceCmd (m : Master) (v : W32)
  /-- FENCE_PEND_CLEAR (R245). A write of 1 to a FENCE_PEND bit clears it and PEND_CAUSE. -/
  | fencePendClear (m : Master) (k : Fin 4) (v : W32)
  /-- FENCE_TAKE_EFFECT (R247). On the 4th fc after its cause, a fence unmaps the cabinet, stops its units, faults contexts, answers outstanding accesses and downs attached lanes. -/
  | fenceTakeEffect (cab : Cab)
  /-- FENCE_QUENCH (R247). Within 10 µs of a fence the cabinet moves to Quench. -/
  | fenceQuench (cab : Cab)
  /-- STATION_POLL (R244). The station monitor polls every mapped cabinet in Run or Doze each poll period. -/
  | stationPoll (cab : Cab) (answered : Bool)
  /-- POLL_MISSED (R244). A poll unanswered for 1024 fc is missed; three in a row are the SILENT fence cause. -/
  | pollMissed (cab : Cab)
  /-- CONTROL_ACCESS_TIMEOUT (R244). A control access unanswered by its station for 1024 fc is answered zero with FAULT. -/
  | controlAccessTimeout (m : Master)
  /-- DET_WRITE (R250). A write by SEC to IDV.DET_n sets detour sides, ignored for a fenced cabinet. -/
  | detWrite (m : Master) (n : Cab) (v : W32)
  /-- ENGINE_SIGNAL (R272). An SGP signal is accepted into the signal queue or refused. -/
  | engineSignal (cab : Cab) (cn : BitVec 19) (inc : BitVec 16) (drain : BitVec 3)
  /-- WAIT_REGISTER (R283). An SYW registration replaces a waiter's registration and is compared on the next fc. -/
  | waitRegister (cab : Cab) (id : Fin 16) (ctr : BitVec 9) (exp : W48)
  /-- WAIT_CANCEL (R283). An SYW cancel clears a waiter and lowers its wake wire. -/
  | waitCancel (cab : Cab) (id : Fin 16)
  /-- SIGNAL_LEAVE (R276). A released signal leaves its cabinet once its drain set is drained and it is oldest of its port. -/
  | signalLeave (id : Nat)
  /-- SIGNAL_BRIDGE_RELEASE (R277). A bridge receiver lets a held signal go once its preceding drain-set writes have committed or moved on. -/
  | signalBridgeRelease (id : Nat)
  /-- SIGNAL_APPLY (R264). A counter unit applies a signal's increment to the counter value. -/
  | signalApply (id : Nat)
  /-- WAITER_FIRE (R283). A satisfied waiter fires and its wake wire rises. -/
  | waiterFire (cab : Cab) (k : Fin 16)
  /-- SHADOW_UPDATE (R292). On the 4th fc after a die-global application, every cabinet shadow takes the new value. -/
  | shadowUpdate (g : Fin 256)
  /-- COUNTER_BIND (R267). A write setting BOUND binds a counter, sets it to 0 and clears waiter flags. -/
  | counterBind (m : Master) (sel : CtrSel) (v : W32)
  /-- COUNTER_UNBIND (R268). A write clearing BOUND cancels waiters, discards queued signals and starts the quiet span. -/
  | counterUnbind (m : Master) (sel : CtrSel) (v : W32)
  /-- QUIET_END (R269). 4096 unfrozen fc after unbind the counter may be bound again. -/
  | quietEnd (sel : CtrSel)
  /-- WAKE_EN_WRITE (R285). Setting WAKE_EN fires every pending waiter of the counter on the next fc. -/
  | wakeEnWrite (m : Master) (sel : CtrSel) (v : W32)
  /-- SYN_SIGNAL_WRITE (R302). A write to SYN.SIGNAL sends a loose signal from that cabinet. -/
  | synSignalWrite (m : Master) (cab : Cab) (v : W32)
  /-- SET_KEY_WRITE (R296). A write to SYN.SET_KEY opens the set path with the right key or closes it. -/
  | setKeyWrite (m : Master) (cab : Cab) (v : W32)
  /-- SET_PATH_TIMEOUT (R296). The set path closes 1 µs after it opened. -/
  | setPathTimeout (cab : Cab)
  /-- COUNTER_SET (R297). A write to SYN.SET_HI with the path open sets a counter value by hand. -/
  | counterSet (m : Master) (cab : Cab) (v : W32)
  /-- DUMP_GO (R298). A GO to SYN.DUMP_CTL on a frozen die starts the state dump, or sets REJ. -/
  | dumpGo (m : Master) (v : W32)
  /-- RUNNER_LIST_GO (R312). A write of RNr_LIST_CTL with GO queues a runner list or refuses it. -/
  | runnerListGo (m : Master) (cab : Cab) (r : Fin 4) (v : W32)
  /-- DESCRIPTOR_FETCH (R314). A descriptor fetch read is answered and the descriptor is buffered, or the list ends. -/
  | descriptorFetch (cab : Cab) (r : Fin 4)
  /-- DESCRIPTOR_START (R320). A fetched descriptor is validated and started, requesting leave if large. -/
  | descriptorStart (cab : Cab) (r : Fin 4)
  /-- COPY (R322). A COPY descriptor moves strided rows of bytes. -/
  | copy (cab : Cab) (r : Fin 4)
  /-- FILL (R322). A FILL descriptor writes a 64-bit pattern over strided rows. -/
  | fill (cab : Cab) (r : Fin 4)
  /-- GATHER (R324). A GATHER descriptor copies indexed elements into a dense destination. -/
  | gather (cab : Cab) (r : Fin 4)
  /-- SCATTER (R324). A SCATTER descriptor copies dense elements to indexed destinations. -/
  | scatter (cab : Cab) (r : Fin 4)
  /-- MCAST (R347). An MCAST descriptor reads each segment once and sends it to every receiver. -/
  | mcast (cab : Cab) (r : Fin 4)
  /-- FUSE (R343). A FUSE descriptor reserves hand-overs and runs its chained stages, ending with an optional barrier. -/
  | fuse (cab : Cab) (r : Fin 4)
  /-- ENGINE (R342). An ENGINE stage of a FUSE chain is presented to the licensee engine on ESG. -/
  | engine (cab : Cab) (r : Fin 4)
  /-- WAIT (R329). A WAIT descriptor registers a runner waiter on a counter. -/
  | wait (cab : Cab) (r : Fin 4)
  /-- SIGNAL (R330). A SIGNAL descriptor sends a loose signal. -/
  | signal (cab : Cab) (r : Fin 4)
  /-- SWEEP (R331). A SWEEP descriptor checks permissions and queues per-cabinet sweep parts. -/
  | sweep (cab : Cab) (r : Fin 4)
  /-- NOP (R319). A NOP descriptor does nothing, acting as an anchor when ORDERED. -/
  | nop (cab : Cab) (r : Fin 4)
  /-- SEGMENT_PRESENT (R315). A runner presents one segment per unfrozen fc as a loose burst. -/
  | segmentPresent (cab : Cab) (r : Fin 4)
  /-- SEGMENT_ANSWER (R316). A runner segment is answered, possibly failing its descriptor. -/
  | segmentAnswer (cab : Cab) (r : Fin 4)
  /-- DESCRIPTOR_COMPLETE (R333). A descriptor completes once its segments are answered and writes drained. -/
  | descriptorComplete (cab : Cab) (r : Fin 4)
  /-- LIST_COMPLETE (R334). A list completes and its completion record joins the runner's completion queue. -/
  | listComplete (cab : Cab) (r : Fin 4)
  /-- CMPL_POP (R359). A write of RNr_CMPL_POP removes the head completion record. -/
  | cmplPop (m : Master) (cab : Cab) (r : Fin 4) (v : W32)
  /-- RUNNER_ABORT (R353). A write of RNr_ABORT aborts the running list, withdrawing unstarted work. -/
  | runnerAbort (m : Master) (cab : Cab) (r : Fin 4) (v : W32)
  /-- ABORT_COMPLETE (R353). After every granted segment is answered, the aborted list completes with its status. -/
  | abortComplete (cab : Cab) (r : Fin 4)
  /-- WAIT_TIMEOUT (R329). A WAIT reaching TIMEOUT cancels its waiter and ends the list with TIMEOUT. -/
  | waitTimeout (cab : Cab) (r : Fin 4)
  /-- HANDOVER_GRANT (R344). The allocator grants a FUSE its hand-over FIFOs from the pool. -/
  | handoverGrant (cab : Cab)
  /-- RESERVATION_AGED (R345). A reservation request that waited 4096 unfrozen fc becomes aged. -/
  | reservationAged (cab : Cab) (r : Fin 4)
  /-- RUNNER_WATCHDOG (R346). A runner without progress for 1048576 fc ends its list with WATCHDOG. -/
  | runnerWatchdog (cab : Cab) (r : Fin 4)
  /-- ESG_ACK (R342). The engine accepts a presented ENGINE stage start. -/
  | esgAck (cab : Cab)
  /-- ESG_DONE (R342). The engine reports the end of an ENGINE stage. -/
  | esgDone (cab : Cab) (r : Fin 4)
  /-- STAGE_PUSH (R339). A runner stage pushes an item into its output hand-over within the window W. -/
  | stagePush (cab : Cab) (r : Fin 4)
  /-- STAGE_POP (R340). A runner stage pops an item from its input hand-over. -/
  | stagePop (cab : Cab) (r : Fin 4)
  /-- MCAST_ACK (R347). A receiver acknowledges an MCAST item, freeing a skid place. -/
  | mcastAck (cab : Cab) (r : Fin 4) (rx : Fin 16)
  /-- MCAST_LAPSE (R348). A receiver's lapse timer reaches LAPSE and the receiver lapses. -/
  | mcastLapse (cab : Cab) (r : Fin 4) (rx : Fin 16)
  /-- STEAL_LOOK (R350). Every 16 fc an idle thief looks for a victim in its cluster. -/
  | stealLook (cab : Cab) (r : Fin 4)
  /-- STEAL_ARRIVE (R350). A stolen descriptor reaches the thief 16 fc after the look. -/
  | stealArrive (cab : Cab) (r : Fin 4)
  /-- FIFO_ITEM_FALL (R361). On each unfrozen fc items fall forward along the FIFO chain. -/
  | fifoItemFall (cab : Cab) (f : Fin 8)
  /-- FIFO_NOTICE_SEND (R371). A FIFO's pending sync notices are sent as one loose signal. -/
  | fifoNoticeSend (cab : Cab) (f : Fin 8)
  /-- HFF_FLUSH (R376). A write of HFF.FLUSH flushes the selected FIFOs. -/
  | hffFlush (m : Master) (cab : Cab) (v : W32)
  /-- HFF_CFG_WRITE (R374). A write to HFF.CFG_f binds, unbinds or configures a FIFO. -/
  | hffCfgWrite (m : Master) (cab : Cab) (f : Fin 8) (v : W32)
  /-- CTX_ACTIVATE (R385). ACTIVATE sets a free context's owner tag and makes it ACTIVE. -/
  | ctxActivate (m : Master) (c : Ctx)
  /-- CTX_DEACTIVATE (R385). DEACTIVATE frees an active context. -/
  | ctxDeactivate (m : Master) (c : Ctx)
  /-- CTX_BIND (R385). BIND records the current generation and fence mask for a context. -/
  | ctxBind (m : Master) (c : Ctx)
  /-- CTX_KILL (R398). KILL starts the kill sequence, closing windows and aborting the context's work. -/
  | ctxKill (m : Master) (c : Ctx)
  /-- KILL_QUIESCE_END (R398). The quiesce phase ends and the kill's sweep phase begins. -/
  | killQuiesceEnd (c : Ctx)
  /-- KILL_UNBIND (R398). After the last sweep, the kill unbinds the context and sets DONE. -/
  | killUnbind (c : Ctx)
  /-- EAG_WRITE (R387). A write to CTX.EAG_p binds or unbinds a cabinet's engine attachment group. -/
  | eagWrite (m : Master) (p : Cab) (v : W32)
  /-- WINDOW_BIND (R391). A WIN.BIND command binds a free or matching kept window to a context. -/
  | windowBind (m : Master) (w : Win) (c : Ctx)
  /-- WINDOW_UNBIND (R391). A WIN.BIND UNBIND command closes a bound window. -/
  | windowUnbind (m : Master) (w : Win) (c : Ctx)
  /-- WINDOW_RELEASE (R391). A WIN.BIND RELEASE command sweeps a kept window and frees it. -/
  | windowRelease (m : Master) (w : Win) (c : Ctx)
  /-- WINDOW_CLOSE_SETTLE (R396). 16 unfrozen fc after closing, a window becomes KEPT or SWEEPING. -/
  | windowCloseSettle (w : Win)
  /-- WINDOW_SWEEP_DONE (R396). A sweeping window becomes FREE after its last sweep part completes. -/
  | windowSweepDone (w : Win)
  /-- CMX_REQUEST (R413). A master presents a control-matrix transfer to a target. -/
  | cmxRequest (m : Master) (write : Bool) (laddr : W32) (strobes : Byte) (data : W64)
  /-- TARGET_ARBITRATION (R418). A target grants one released request per cycle, DBG first then round-robin. -/
  | targetArbitration (t : Target)
  /-- CMX_RESPONSE (R420). A granted control-matrix access completes and returns its response. -/
  | cmxResponse (m : Master)
  /-- LOCKED_READ (R422). A locked read starts a locked sequence holding the target for the master. -/
  | lockedRead (m : Master) (laddr : W32) (strobes : Byte)
  /-- MGT_REMAP_WRITE (R432). A write to MGT.REMAP_m while core m is masked sets its ROM/MSRAM swap. -/
  | mgtRemapWrite (m : Master) (core : Core) (v : W32)
  /-- DOORBELL (R440). A write of MGT.DOORBELL.SQ tells SCH that SQ_TAIL advanced and is a die wake source. -/
  | doorbell (m : Master) (v : W32)
  /-- SQ_NOP (R446). The NOP submission completes at once. -/
  | sqNop (i : W32)
  /-- SQ_ACTIVATE (R446). The ACTIVATE submission activates a context with an owner tag. -/
  | sqActivate (i : W32)
  /-- SQ_DEACTIVATE (R446). The DEACTIVATE submission frees a context. -/
  | sqDeactivate (i : W32)
  /-- SQ_BIND (R446). The BIND submission binds a context, its windows and its engine attachment groups. -/
  | sqBind (i : W32)
  /-- SQ_KILL (R446). The KILL submission kills a context and completes at phase 4. -/
  | sqKill (i : W32)
  /-- SQ_WINDOW (R446). The WINDOW submission unbinds or releases a window. -/
  | sqWindow (i : W32)
  /-- SQ_RUN (R446). The RUN submission dispatches a runner list. -/
  | sqRun (i : W32)
  /-- SQ_SYNC (R446). The SYNC submission binds or unbinds counters. -/
  | sqSync (i : W32)
  /-- SQ_FIFO (R446). The FIFO submission binds or unbinds handoff FIFOs. -/
  | sqFifo (i : W32)
  /-- SQ_ASSAY (R236). The ASSAY submission runs one pass per cabinet over a fabric address range. -/
  | sqAssay (i : W32)
  /-- SQ_FENCE (R446). The FENCE submission fences a physical cabinet. -/
  | sqFence (i : W32)
  /-- SQ_REMAP (R446). The REMAP submission issues an RMP.ADD move. -/
  | sqRemap (i : W32)
  /-- SQ_RETIRE (R446). The RETIRE submission retires a macro. -/
  | sqRetire (i : W32)
  /-- SQ_OPPOINT (R498). The OPPOINT submission changes the package operating point. -/
  | sqOppoint (i : W32)
  /-- SQ_PSTATE (R498). The PSTATE submission moves cabinets between power states or requests die sleep. -/
  | sqPstate (i : W32)
  /-- SQ_STAGE (R462). The STAGE submission verifies a staged firmware image and copies it to the standby slot. -/
  | sqStage (i : W32) (sigOk : Bool)
  /-- SQ_FWACT (R464). The FWACT submission activates a verified firmware image. -/
  | sqFwact (i : W32)
  /-- SQ_LOGOWN (R446). The LOGOWN submission sets an error log's owner. -/
  | sqLogown (i : W32)
  /-- SQ_DUMP (R446). The DUMP submission freezes the die and takes a state dump. -/
  | sqDump (i : W32)
  /-- COMPLETION_POST (R441). A core reserves, writes and publishes a completion entry when the ring has space. -/
  | completionPost (core : Core)
  /-- EVENT_POST (R441). A core posts an event entry, or counts it lost when the ring is full. -/
  | eventPost (core : Core)
  /-- HINT_SET (R470). A core write to MGT.HINT_SET sets completion or event pending bits. -/
  | hintSet (m : Master) (v : W32)
  /-- HINT_STAT_CLEAR (R452). A write clearing MGT.HINT_STAT bits lowers the HINT lines they drove. -/
  | hintStatClear (m : Master) (v : W32)
  /-- WDT_KICK (R454). Core m writes the key to its watchdog and restarts its count. -/
  | wdtKick (m : Master) (core : Core) (v : W32)
  /-- WATCHDOG_EXPIRY (R454). A watchdog reaching TIMEOUT logs MGT_WDOG and restarts its core. -/
  | watchdogExpiry (core : Core)
  /-- CORE_RESTART (R455). A restart masks a core, remaps it and hashes its slot. -/
  | coreRestart (core : Core) (cause : RestartCause)
  /-- CORE_RELEASE (R455). After its slot hash matches, the core is released or the start fails. -/
  | coreRelease (core : Core)
  /-- RESTART_KICK_TIMEOUT (R455). A released core that has not kicked within 2 ms fails its start. -/
  | restartKickTimeout (core : Core)
  /-- MGT_RESTART_WRITE (R471). A write to MGT.RESTART restarts the selected cores with cause 4. -/
  | mgtRestartWrite (m : Master) (v : W32)
  /-- MGT_ACT_WRITE (R464). A write to MGT.ACT requests activation of a role, deferred during an emergency. -/
  | mgtActWrite (m : Master) (v : W32)
  /-- PROBATION_END (R465). After 10 ms of probation the role is RUNNING and FWACT completes. -/
  | probationEnd (role : Fin 4)
  /-- RECOVERY (R466). A write of the key to MGT.RECOVER reloads every role from flash through the bring-up kernel. -/
  | recovery (m : Master) (v : W32)
  /-- SELF_HALT (R487). A core writes MGT.SELF_HALT and halts once its accesses are answered. -/
  | selfHalt (m : Master) (v : W32)
  /-- RESUME (R487). A write to MGT.RESUME resumes halted cores. -/
  | resume (m : Master) (v : W32)
  /-- CAB_CMD_RUN (R477). A PWR.CAB_CMD naming Run wakes a cabinet from Doze, Hold or Quench. -/
  | cabCmdRun (m : Master) (cab : Cab)
  /-- CAB_CMD_DOZE (R479). A PWR.CAB_CMD naming Doze checks refusers and drains the cabinet into Doze. -/
  | cabCmdDoze (m : Master) (cab : Cab)
  /-- CAB_CMD_HOLD (R479). A PWR.CAB_CMD naming Hold checks refusers, drains and commits into Hold. -/
  | cabCmdHold (m : Master) (cab : Cab)
  /-- CAB_CMD_QUENCH (R479). A PWR.CAB_CMD naming Quench checks refusers, drains and commits into Quench. -/
  | cabCmdQuench (m : Master) (cab : Cab)
  /-- ENTRY_DRAIN_END (R479). A power-state entry's drain ends when no bank operation or access is outstanding. -/
  | entryDrainEnd (cab : Cab)
  /-- DRAIN_TIMEOUT (R479). A drain not ended within 256 fc aborts the entry with reason 8. -/
  | drainTimeout (cab : Cab)
  /-- ENTRY_COMMIT_END (R479). After 6 AO cycles of commit the cabinet is in Hold or Quench. -/
  | entryCommitEnd (cab : Cab)
  /-- DOZE_WAKE_DONE (R482). A Doze cabinet reaches Run 8 fc after its wake request. -/
  | dozeWakeDone (cab : Cab)
  /-- WAKE_POWER_DONE (R483). A Hold or Quench wake reaches Run after its duration and sweep, returning its leave. -/
  | wakePowerDone (cab : Cab)
  /-- DIE_SLEEP (R486). A write of PWR.DIE_SLEEP.GO checks conditions and runs the die-sleep entry. -/
  | dieSleep (m : Master) (v : W32)
  /-- OP_CHANGE (R496). A GO to PWR.OP_CTL on frozen die 0 starts a package operating-point change. -/
  | opChange (m : Master) (v : W32)
  /-- DIE_OP_CHANGE (R496). Each die performs its frequency and voltage change inside its package freeze. -/
  | dieOpChange (target : Fin 6)
  /-- OP_CHANGE_DONE (R496). Every die has reported and OP_STAT.DONE rises on die 0. -/
  | opChangeDone (die : Fin 8) (result : Fin 3)
  /-- EMERG_SET (R504). A write of EMERG_CTL.SET flags a software power emergency. -/
  | emergSet (m : Master) (v : W32)
  /-- EMERG_CLR (R504). A write of EMERG_CTL.CLR clears the software power emergency. -/
  | emergClr (m : Master) (v : W32)
  /-- DROOP_STRETCH (R506). A droop request stretches every region's period 2 fc later. -/
  | droopStretch (regions : BitVec 16) (skew : Option (Fin 16 × Fin 16))
  /-- TIM_SET (R524). A write of TIM.SET_HI loads the pair into TIM.NOW. -/
  | timSet (m : Master) (v : W32)
  /-- BEACON_RECEIVE (R509). A received beacon steps or slows the die's fabric time and is forwarded. -/
  | beaconReceive (lane : Fin 8) (value : W64) (h : Fin 8)
  /-- WIRE_SLOT_RECEIVE (R531). A lane receiver checks a wire slot's CRC and sends a NAK on failure. -/
  | wireSlotReceive (lane : Fin 8) (slot : WireSlot) (crcOk : Bool)
  /-- NAK_RECEIVE (R532). A NAK reaches the sender, which resends the slot on the next free odd cycle. -/
  | nakReceive (lane : Fin 8) (seq : Nat)
  /-- SLOT_DELIVERY (R530). A received slot's contents are delivered 44 fc after send in sequence order. -/
  | slotDelivery (lane : Fin 8)
  /-- BRIDGE_LATE (R534). A set-class flit or mark not received 3 fc before delivery starts a bridge freeze and logs BRG_LATE. -/
  | bridgeLate (lane : Fin 8)
  /-- LANE_SILENT (R534). No slot passing its check for 256 fc takes the lane down with cause SILENT. -/
  | laneSilent (lane : Fin 8)
  /-- LANE_DOWN_NOTICE (R543). A received lane-down notice faults the die's multi-die contexts and is forwarded once. -/
  | laneDownNotice (lane : Fin 8) (origin : Fin 8) (seq : Nat)
  /-- LANE_TRAIN (R544). A TRAIN command requests leave and trains both ends of a lane. -/
  | laneTrain (m : Master) (lane : Fin 8)
  /-- LANE_OFF (R544). An OFF command takes both ends of a lane to OFF. -/
  | laneOff (m : Master) (lane : Fin 8)
  /-- TRAIN_DONE (R544). Lane training ends, UP or DOWN, and returns its leave. -/
  | trainDone (lane : Fin 8) (modules : Fin 5)
  /-- DROUTE_WRITE (R537). A write to BRG.DROUTE changes die routes, ignored while multi-die contexts are bound. -/
  | drouteWrite (m : Master) (v : W32)
  /-- EDGE_HELLO (R556). An inbound HELLO is checked and compares Hallmarks to admit the partner. -/
  | edgeHello (k : Gw) (pkt : Packet)
  /-- EDGE_KEEPALIVE (R557). An inbound KEEPALIVE refreshes the partner's liveness. -/
  | edgeKeepalive (k : Gw) (pkt : Packet)
  /-- EDGE_WRITE (R554). An inbound WRITE is checked and performed as loose bursts, answered by ACK. -/
  | edgeWrite (k : Gw) (pkt : Packet)
  /-- EDGE_INC (R554). An inbound INC is checked and sent as a loose signal, answered by ACK. -/
  | edgeInc (k : Gw) (pkt : Packet)
  /-- EDGE_READ (R554). An inbound READ is checked and performed as loose reads, answered by READ_RSP. -/
  | edgeRead (k : Gw) (pkt : Packet)
  /-- EDGE_ACK (R558). An inbound ACK answers an outstanding WRITE or INC of a command. -/
  | edgeAck (k : Gw) (pkt : Packet)
  /-- EDGE_READ_RSP (R558). An inbound READ_RSP delivers data for an outstanding GET. -/
  | edgeReadRsp (k : Gw) (pkt : Packet)
  /-- QUARANTINE_WINDOW (R555). The quarantine count returns to 0 at each QWIN multiple. -/
  | quarantineWindow (p : Partner)
  /-- EDGE_LINK_UP (R556). A rising EGk_LINK_UP sends HELLO to every DOWN partner. -/
  | edgeLinkUp (k : Gw)
  /-- EDGE_LINK_DOWN (R552). The link going down takes the gateway's active partners DOWN. -/
  | edgeLinkDown (k : Gw)
  /-- HELLO_REPEAT (R556). Every 100 µs HELLO is repeated to partners not yet ACTIVE. -/
  | helloRepeat (k : Gw)
  /-- KEEPALIVE_SEND (R557). After TIMEOUT/4 µs of silence a KEEPALIVE is sent to an ACTIVE partner. -/
  | keepaliveSend (p : Partner)
  /-- PARTNER_TIMEOUT (R557). An ACTIVE partner silent for TIMEOUT µs goes DOWN. -/
  | partnerTimeout (p : Partner)
  /-- EDGE_PUT (R558). A PUT command reads local data and sends WRITE packets. -/
  | edgePut (k : Gw)
  /-- EDGE_GET (R558). A GET command sends READ packets and writes returned data locally. -/
  | edgeGet (k : Gw)
  /-- EDGE_INC_CMD (R558). An INC command sends one INC packet to a partner counter. -/
  | edgeIncCmd (k : Gw)
  /-- EDGE_PACKET_TIMEOUT (R558). A packet with no response after TIMEOUT ends its command with TIMEOUT. -/
  | edgePacketTimeout (k : Gw)
  /-- TX_RSP_TIMEOUT (R559). A READ_RSP not taken by the link within TIMEOUT is discarded. -/
  | txRspTimeout (k : Gw)
  /-- PARTNER_KEY_GO (R552). KEY_GO loads the key, advances EPOCH and resets sequence numbers, making the partner DOWN. -/
  | partnerKeyGo (m : Master) (p : Partner) (v : W32)
  /-- PARTNER_CLEAR (R552). CLEAR returns a partner entry to EMPTY. -/
  | partnerClear (m : Master) (p : Partner) (v : W32)
  /-- EDGE_EN_WRITE (R560). A write of EDG.CTL_k.EN puts a gateway in or out of service. -/
  | edgeEnWrite (m : Master) (k : Gw) (v : W32)
  /-- EDGE_WAKE (R548). EGk_WAKE high latches a die wake source when WAKE_EN is set. -/
  | edgeWake (k : Gw)
  /-- POWER_ON_RESET (R570). PORST_N rising starts the die's start-up sequence. -/
  | powerOnReset (sfdpOk sigOk : Bool)
  /-- BIST_STAGE_END (R580). A BIST stage's analysis ends with remaps, retirements or fences and returns its leave. -/
  | bistStageEnd (found : List BistCab)
  /-- BOOT_LOCK (R585). SEC sets BOOT_LOCK at step 7, locking RWL fields until reset. -/
  | bootLock (m : Master) (v : W32)
  /-- STIME_SYNC (R582). A write of STIME_SYNC on die 0 sends a schedule-time start mark. -/
  | stimeSync (m : Master) (v : W32)
  /-- START_MARK_RECEIVE (R582). A received start mark loads schedule time, is forwarded once and sets SYNCED. -/
  | startMarkReceive (lane : Fin 8) (s : W64) (h : Fin 8)
  /-- ROUND_MESSAGE (R588). A received round message is compared and forwarded, updating MISMATCH and MISSING. -/
  | roundMessage (lane : Fin 8) (die : Fin 8) (mark : Option (List W32))
  /-- HDP_REQUEST (R598). A host DMA port request is accepted and sent as a loose host-class access. -/
  | hdpRequest (we : Bool) (addr : BitVec 26) (be : W64) (data : List W256) (ctx : Ctx) (tag : Fin 64)
  /-- DBG_ACC_UPDATE (R604). An update of DBG_ACC with GO starts one DBG transfer. -/
  | dbgAccUpdate (write go : Bool) (strobes : Byte) (laddr : W32) (data : W64)
  /-- DEBUG_HALT (R605). A write of DBG.HALT requests or ends a debug halt freeze. -/
  | debugHalt (m : Master) (v : W32)
  /-- EDGE_MALFORMED_PACKET (R553). An inbound gateway packet with an unknown TYPE, an out-of-range LEN or ARG, or a length that disagrees with its beats is dropped and counted in EDG.MALFORMED_k. -/
  | edgeMalformedPacket (k : Gw) (pkt : Packet)
  /-- MAP_REBUILD (R38). After a fence, SEC waits for a generation that is not in use, rebuilds it from the surviving cabinets, makes it current and posts a map-change event. -/
  | mapRebuild
  /-- UE_WINDOW_RESET (R243). UE_CNT returns to 0 at each UE_WINDOW multiple of fabric time. -/
  | ueWindowReset
  /-- DUMP_DONE (R298). The dump engine writes its last record and sets DONE. -/
  | dumpDone
  /-- SUBMISSION_TAKE (R440). SCH copies the next submission entry and forwards it to its executor. -/
  | submissionTake
  /-- ACTIVATION_START (R464). A deferred activation starts once EMERG.ANY has been 0 for 100 µs. -/
  | activationStart
  /-- DIE_SLEEP_COMMIT_END (R491). The die-sleep commit ends and any held or high wake source wakes the die. -/
  | dieSleepCommitEnd
  /-- RTC_ALARM_RISE (R490). A rising RTC_ALARM wakes the die and sets WAKE_ACK[0]. -/
  | rtcAlarmRise
  /-- RTC_ALARM_FALL (R492). RTC_ALARM sampled low lowers WAKE_ACK[0]. -/
  | rtcAlarmFall
  /-- THERM_TRIP (R503). THERM_TRIP_N falling applies the trip clamp, stops leave grants and logs PWR_THERM_TRIP. -/
  | thermTrip
  /-- THERM_TRIP_RELEASE (R490). THERM_TRIP_N rising ends the trip clamp, wakes the die and sets WAKE_ACK[1]. -/
  | thermTripRelease
  /-- DIE_WAKE_DONE (R493). A die wake completes, cores resume and PWC posts DIE_WAKE. -/
  | dieWakeDone
  /-- VID_ACK_TOGGLE (R495). A VID_ACK toggle reports the rail within tolerance of the new code. -/
  | vidAckToggle
  /-- VID_TIMEOUT (R497). No VID_ACK within TIMEOUT logs PWR_VID_TIMEOUT and sets HW_VID. -/
  | vidTimeout
  /-- LEAVE_GRANT (R500). The leave arbiter grants the head request 12 fc after its conditions hold. -/
  | leaveGrant
  /-- CLAMP_FREEZE (R501). The clamp's phase counter reaches a frozen phase and requests a clamp freeze. -/
  | clampFreeze
  /-- POWER_ESTIMATE (R502). Each µs a die computes its power estimate and die 0 engages or disengages the clamp. -/
  | powerEstimate
  /-- CLAMP_EMERGENCY (R504). The automatic clamp engaged for EMERG_US µs sets HW_CLAMP. -/
  | clampEmergency
  /-- COMPENSATING_STRETCH (R540). While its stretch count is below the package maximum, a die stretches every 2 fc. -/
  | compensatingStretch
  /-- BEACON_SEND (R509). Die 0 sends its TIM.NOW beacon on every bridge at each 1000 ns multiple. -/
  | beaconSend
  /-- BEACON_LOSS (R510). No beacon for 16 µs logs TIM_BEACON_LOSS. -/
  | beaconLoss
  /-- PORST_FALL (R589). PORST_N falling resets the die, clearing repair and all state. -/
  | porstFall
  /-- HALLMARK_ROUND (R588). At each 1 ms instant a die sends its Hallmark round message. -/
  | hallmarkRound
  /-- HDP_COMPLETION (R598). A host DMA access completes and its completion is presented. -/
  | hdpCompletion
  /-- TAP_IDCODE (R601). The IDCODE instruction selects the 32-bit IDCODE register. -/
  | tapIdcode
  /-- TAP_IJTAG (R602). The IJTAG instruction selects the IEEE 1687 network. -/
  | tapIjtag
  /-- TAP_BYPASS (R600). The BYPASS instruction selects the 1-bit bypass register. -/
  | tapBypass
  /-- DEBUG_SESSION_OPEN (R603). Loading DBG_ACC with TRST_N high opens a debug session, making DBG present. -/
  | debugSessionOpen
  /-- DEBUG_SESSION_CLOSE (R603). Loading another instruction, Test-Logic-Reset or TRST_N low closes the session and ends any halt. -/
  | debugSessionClose
  /-- DBG_ACC_CAPTURE (R604). A capture of DBG_ACC returns the outcome once and clears DONE. -/
  | dbgAccCapture
  /-- HALLMARK_COMPUTATION_END (R587). A Hallmark computation finishes within 10 µs: HASH_j takes the result, CHANGING clears and VALID becomes 1. -/
  | hallmarkComputationEnd
  /-- RECOVERY_START (R466). A recovery request that waited while MGT.EMERG.ANY was 1 starts by itself once ANY has been 0 for 100 µs. -/
  | recoveryStart
  deriving DecidableEq, Repr

end Sys2Proof
end

