-- ==== Sys2Proof/Machine/Code.lean ====
section
/-! DEFINITION. The Reed–Solomon code of a stored word: length 18, dimension 16, over GF(2^16) with
p(x) = x^16 + x^12 + x^3 + x + 1 (R176 to R180). -/
namespace Sys2Proof.Machine

/-- Multiplication by α = x (R177). -/
def gfX (a : Sym) : Sym := (a <<< 1) ^^^ (if a.getLsbD 15 then 0x100B else 0)

/-- `a · x^i` times each of the first `n` bits of `b` from bit `i`, summed. -/
def gfMulFrom : Nat → Nat → Sym → Sym → Sym
  | 0, _, _, _ => 0
  | n + 1, i, a, b => (if b.getLsbD i then a else 0) ^^^ gfMulFrom n (i + 1) (gfX a) b

/-- Field multiplication (R177). -/
def gfMul (a b : Sym) : Sym := gfMulFrom 16 0 a b

/-- `α^k` (R177). -/
def gfAlpha : Nat → Sym
  | 0 => 1
  | k + 1 => gfX (gfAlpha k)

/-- The product of `a^2`, `a^4`, … : `n` squarings. -/
def gfInvFrom : Nat → Sym → Sym
  | 0, _ => 1
  | n + 1, a => let q := gfMul a a; gfMul q (gfInvFrom n q)

/-- Inverse of a nonzero element: its power 2^16 − 2. -/
def gfInv (a : Sym) : Sym := gfInvFrom 15 a

/-- Sum of symbols. -/
def gfSum (l : List Sym) : Sym := l.foldl (· ^^^ ·) 0

/-- Sum of `r_i · α^i`, from position `k` on. -/
def gfWeighted : Nat → List Sym → Sym
  | _, [] => 0
  | k, r :: l => gfMul (gfAlpha k) r ^^^ gfWeighted (k + 1) l

/-- The sixteen data symbols of a word (R18). -/
def wordSyms (w : W256) : List Sym := (List.range 16).map (fun m => w.extractLsb' (16 * m) 16)

/-- The word of sixteen symbols. -/
def symsWord (l : List Sym) : W256 := BitVec.ofNat 256 ((l.take 16).foldr (fun x n => x.toNat + 65536 * n) 0)

/-- The inverse of α^16 + α^17 = 0x301D. -/
def gfC16Inv : Sym := 0x81E0

/-- The codeword of a word: data symbols and the two check symbols of R178. -/
def encodeWord (w : W256) : List Sym :=
  let d := wordSyms w
  let a := gfSum d
  let c16 := gfMul (gfWeighted 0 d ^^^ gfMul a 0x2016) gfC16Inv
  d ++ [c16, a ^^^ c16]

/-- Outcome of a decode: uncorrectable, or the word and the position corrected; the syndromes in either case. -/
structure Decoded where
  ok : Bool
  word : W256
  pos : Option Nat
  s0 : Sym
  s1 : Sym
  deriving DecidableEq, Repr

/-- Add an error value to a symbol. -/
def symAdd (l : List Sym) (k : Nat) (e : Sym) : List Sym := l.set k (l.getD k 0 ^^^ e)

/-- The decoder of R180: received symbols, STRICT, retired macros in order of retirement. -/
def decodeSyms (strict : Bool) (retired : List Nat) (r : List Sym) : Decoded :=
  let s0 := gfSum r
  let s1 := gfWeighted 0 r
  let bad : Decoded := { ok := false, word := 0, pos := none, s0 := s0, s1 := s1 }
  let good (l : List Sym) (p : Option Nat) : Decoded := { ok := true, word := symsWord l, pos := p, s0 := s0, s1 := s1 }
  match retired with
  | [] =>
    if s0 = 0 ∧ s1 = 0 then good r none
    else if strict then bad
    else if s0 ≠ 0 ∧ s1 ≠ 0 then
      match (List.range 18).find? (fun k => decide (s1 = gfMul (gfAlpha k) s0)) with
      | some k => good (symAdd r k s0) (some k)
      | none => bad
    else bad
  | [m] => if s1 = gfMul (gfAlpha m) s0 then good (symAdd r m s0) none else bad
  | m1 :: m2 :: _ =>
    let e2 := gfMul (s1 ^^^ gfMul (gfAlpha m1) s0) (gfInv (gfAlpha m1 ^^^ gfAlpha m2))
    good (symAdd (symAdd r m1 (s0 ^^^ e2)) m2 e2) none

end Sys2Proof.Machine
end

