-- ==== Sys2Proof/Config.lean ====
section
/-! DEFINITION. What the spec leaves open or gives to another standard: free values and functions with no body, so that
nothing about them can be proved. Each is named in the assumption log. -/
namespace Sys2Proof.Config

/-- The free value drawn with index `n`: nothing constrains it. `State.freeCtr` is the next index. -/
opaque freeValue (n : Nat) : Nat

/-- SHA-384 (FIPS 180-4, named by R455, R462, R575, R586) of a byte string given as numbers, as a number below 2^384. -/
opaque sha384 (bytes : List Nat) : Nat

/-- Hops and bridge crossings, in fc, that a route of the loader takes beyond this die toward logical cabinet `cab` of
die `die` (R63, R278): the maps of other dies are not this die's. -/
opaque farLatency (die cab : Nat) : Nat

/-- What the loader's return route of a read takes beyond the crossing, from logical cabinet `cab` of die `die` to physical cabinet `home` of
this die (R63, R116). -/
opaque farReturn (die cab home : Nat) : Nat

/-- Fc that a set-class signal takes on the sync network from a cabinet to a unit of its die (R288, R291): the manual bounds it. -/
opaque flight (cab unit : Nat) : Nat

/-- The bytes of the boot ROM (R411): vendor code that the spec does not print. -/
opaque romByte (addr : Nat) : Nat

/-- Does an ECDSA P-384 signature verify (FIPS 186-5, named by R462)? Over the bytes of a staged image, key and signature among them. -/
opaque ecdsaOk (bytes : List Nat) : Bool

/-- ROOT_KEY_HASH, a synthesis parameter of the boot ROM (R575), as a number below 2^384. -/
opaque rootKeyHash : Nat

end Sys2Proof.Config
end

