-- ==== Sys2Proof/Machine/Regs.lean ====
section
/-! DEFINITION. The register map: every register the spec places (R39 to R610), each under its own name, with the
bits and the access code (R11) of every field. A register is named by a number, its key: for a register of cabinet
`c`, block `blk`, offset `off` the key is `(c * 64 + blk) * 65536 + off`; a die-global register takes `c = 128`. -/
namespace Sys2Proof.Machine

/-- Key of the register at offset `off` of block `blk` of cabinet `c` (R46, R47). -/
def cabReg (c blk off : Nat) : Nat := (c * 64 + blk) * 65536 + off

/-- Key of a die-global register (R51). -/
def dieReg (blk off : Nat) : Nat := cabReg 128 blk off

/-- One field: a register's key and its bit range, high to low, both included (R7). -/
structure Fld where
  key : Nat
  hi : Nat
  lo : Nat
  deriving DecidableEq, Repr

/-- The access codes of R11. -/
inductive Acc where
  | ro | rw | w1c | w1s | rwl | rc | wo
  deriving DecidableEq, Repr

/-- One row of the register map: the offset of the first register, up to two index ranges with their strides, and
the fields that are not reserved as (high bit, low bit, access). -/
structure RegSpec where
  off : Nat
  n1 : Nat := 1
  s1 : Nat := 4
  n2 : Nat := 1
  s2 : Nat := 4
  flds : List (Nat × Nat × Acc)
  deriving Repr

namespace R
/-- IDV.VERSION, R610. -/
def IDV_VERSION : Nat := dieReg 0 (0)
def IDV_VERSION_PATCH : Fld := ⟨IDV_VERSION, 7, 0⟩
def IDV_VERSION_MINOR : Fld := ⟨IDV_VERSION, 15, 8⟩
def IDV_VERSION_MAJOR : Fld := ⟨IDV_VERSION, 23, 16⟩
/-- IDV.INSTANCE, R610. -/
def IDV_INSTANCE : Nat := dieReg 0 (4)
def IDV_INSTANCE_ID : Fld := ⟨IDV_INSTANCE, 15, 0⟩
/-- IDV.SERIAL_LO, R610. -/
def IDV_SERIAL_LO : Nat := dieReg 0 (8)
def IDV_SERIAL_LO_SERIAL : Fld := ⟨IDV_SERIAL_LO, 31, 0⟩
/-- IDV.SERIAL_HI, R610. -/
def IDV_SERIAL_HI : Nat := dieReg 0 (12)
def IDV_SERIAL_HI_SERIAL : Fld := ⟨IDV_SERIAL_HI, 31, 0⟩
/-- IDV.SYNTH, R610. -/
def IDV_SYNTH : Nat := dieReg 0 (16)
def IDV_SYNTH_EDGES : Fld := ⟨IDV_SYNTH, 2, 0⟩
def IDV_SYNTH_HDP : Fld := ⟨IDV_SYNTH, 3, 3⟩
def IDV_SYNTH_HDP_HOME : Fld := ⟨IDV_SYNTH, 10, 4⟩
/-- IDV.IDCODE, R610. -/
def IDV_IDCODE : Nat := dieReg 0 (20)
def IDV_IDCODE_IDCODE : Fld := ⟨IDV_IDCODE, 31, 0⟩
/-- IDV.GEOM, R39. -/
def IDV_GEOM : Nat := dieReg 0 (64)
def IDV_GEOM_COLS : Fld := ⟨IDV_GEOM, 4, 0⟩
def IDV_GEOM_ROWS : Fld := ⟨IDV_GEOM, 11, 8⟩
def IDV_GEOM_DIE : Fld := ⟨IDV_GEOM, 18, 16⟩
/-- IDV.CONF, R40. -/
def IDV_CONF : Nat := dieReg 0 (68)
def IDV_CONF_CAB_PER_DIE : Fld := ⟨IDV_CONF, 7, 0⟩
def IDV_CONF_DIES : Fld := ⟨IDV_CONF, 11, 8⟩
def IDV_CONF_NUM_CAB : Fld := ⟨IDV_CONF, 26, 16⟩
/-- IDV.CMAP_CTL, R41. -/
def IDV_CMAP_CTL : Nat := dieReg 0 (72)
def IDV_CMAP_CTL_CUR : Fld := ⟨IDV_CMAP_CTL, 0, 0⟩
def IDV_CMAP_CTL_G0_USE : Fld := ⟨IDV_CMAP_CTL, 1, 1⟩
def IDV_CMAP_CTL_G1_USE : Fld := ⟨IDV_CMAP_CTL, 2, 2⟩
def IDV_CMAP_CTL_G0_LOG : Fld := ⟨IDV_CMAP_CTL, 15, 8⟩
def IDV_CMAP_CTL_G1_LOG : Fld := ⟨IDV_CMAP_CTL, 23, 16⟩
/-- IDV.CMAP_CTXGEN, R42. -/
def IDV_CMAP_CTXGEN : Nat := dieReg 0 (76)
def IDV_CMAP_CTXGEN_GEN : Fld := ⟨IDV_CMAP_CTXGEN, 15, 0⟩
/-- IDV.CMAP_G0, R43. -/
def IDV_CMAP_G0 (i : Nat) : Nat := dieReg 0 (256 + 4 * i)
def IDV_CMAP_G0_PHYS (i : Nat) : Fld := ⟨IDV_CMAP_G0 i, 6, 0⟩
def IDV_CMAP_G0_VALID (i : Nat) : Fld := ⟨IDV_CMAP_G0 i, 15, 15⟩
def IDV_CMAP_G0_FENCED (i : Nat) : Fld := ⟨IDV_CMAP_G0 i, 16, 16⟩
/-- IDV.CMAP_G1, R43. -/
def IDV_CMAP_G1 (i : Nat) : Nat := dieReg 0 (768 + 4 * i)
def IDV_CMAP_G1_PHYS (i : Nat) : Fld := ⟨IDV_CMAP_G1 i, 6, 0⟩
def IDV_CMAP_G1_VALID (i : Nat) : Fld := ⟨IDV_CMAP_G1 i, 15, 15⟩
def IDV_CMAP_G1_FENCED (i : Nat) : Fld := ⟨IDV_CMAP_G1 i, 16, 16⟩
/-- IDV.FENCE_CFG, R257. -/
def IDV_FENCE_CFG : Nat := dieReg 0 (1280)
def IDV_FENCE_CFG_AUTO_UE : Fld := ⟨IDV_FENCE_CFG, 0, 0⟩
def IDV_FENCE_CFG_AUTO_SILENT : Fld := ⟨IDV_FENCE_CFG, 1, 1⟩
def IDV_FENCE_CFG_UE_LIMIT : Fld := ⟨IDV_FENCE_CFG, 15, 8⟩
def IDV_FENCE_CFG_UE_WINDOW : Fld := ⟨IDV_FENCE_CFG, 31, 16⟩
/-- IDV.FENCE_CMD, R257. -/
def IDV_FENCE_CMD : Nat := dieReg 0 (1284)
def IDV_FENCE_CMD_CAB : Fld := ⟨IDV_FENCE_CMD, 6, 0⟩
def IDV_FENCE_CMD_GO : Fld := ⟨IDV_FENCE_CMD, 31, 31⟩
/-- IDV.STN_POLL, R257. -/
def IDV_STN_POLL : Nat := dieReg 0 (1288)
def IDV_STN_POLL_PERIOD : Fld := ⟨IDV_STN_POLL, 7, 0⟩
/-- IDV.ROUTE_REFUSE, R257. -/
def IDV_ROUTE_REFUSE : Nat := dieReg 0 (1292)
def IDV_ROUTE_REFUSE_COUNT : Fld := ⟨IDV_ROUTE_REFUSE, 31, 0⟩
/-- IDV.FENCE_MASK, R257. -/
def IDV_FENCE_MASK (i : Nat) : Nat := dieReg 0 (1296 + 4 * i)
def IDV_FENCE_MASK_MASK (i : Nat) : Fld := ⟨IDV_FENCE_MASK i, 31, 0⟩
/-- IDV.FENCE_PEND, R257. -/
def IDV_FENCE_PEND (i : Nat) : Nat := dieReg 0 (1312 + 4 * i)
def IDV_FENCE_PEND_PEND (i : Nat) : Fld := ⟨IDV_FENCE_PEND i, 31, 0⟩
/-- IDV.FENCE_CAUSE, R258. -/
def IDV_FENCE_CAUSE (i : Nat) : Nat := dieReg 0 (1536 + 4 * i)
def IDV_FENCE_CAUSE_CAUSE (i : Nat) : Fld := ⟨IDV_FENCE_CAUSE i, 2, 0⟩
def IDV_FENCE_CAUSE_PEND_CAUSE (i : Nat) : Fld := ⟨IDV_FENCE_CAUSE i, 5, 3⟩
def IDV_FENCE_CAUSE_UE_CNT (i : Nat) : Fld := ⟨IDV_FENCE_CAUSE i, 31, 16⟩
/-- IDV.DET, R259. -/
def IDV_DET (i : Nat) : Nat := dieReg 0 (2048 + 4 * i)
def IDV_DET_ROWSIDE (i : Nat) : Fld := ⟨IDV_DET i, 0, 0⟩
def IDV_DET_COLSIDE (i : Nat) : Fld := ⟨IDV_DET i, 1, 1⟩
/-- LCT.SUPPORTED, R64. -/
def LCT_SUPPORTED : Nat := dieReg 7 (0)
def LCT_SUPPORTED_LEVELS : Fld := ⟨LCT_SUPPORTED, 7, 0⟩
/-- LCT.LEVEL, R65. -/
def LCT_LEVEL : Nat := dieReg 7 (4)
def LCT_LEVEL_LEVEL : Fld := ⟨LCT_LEVEL, 7, 0⟩
/-- LCT.VAL_A, R66. -/
def LCT_VAL_A : Nat := dieReg 7 (8)
def LCT_VAL_A_RD_LOCAL : Fld := ⟨LCT_VAL_A, 7, 0⟩
def LCT_VAL_A_HOP : Fld := ⟨LCT_VAL_A, 11, 8⟩
def LCT_VAL_A_TURN : Fld := ⟨LCT_VAL_A, 15, 12⟩
def LCT_VAL_A_BRIDGE : Fld := ⟨LCT_VAL_A, 23, 16⟩
def LCT_VAL_A_SYNC_DIE : Fld := ⟨LCT_VAL_A, 31, 24⟩
/-- LCT.VAL_B, R67. -/
def LCT_VAL_B : Nat := dieReg 7 (12)
def LCT_VAL_B_SYNC_BRIDGE : Fld := ⟨LCT_VAL_B, 7, 0⟩
def LCT_VAL_B_SLIP_WIN : Fld := ⟨LCT_VAL_B, 15, 8⟩
def LCT_VAL_B_FRAME : Fld := ⟨LCT_VAL_B, 23, 16⟩
def LCT_VAL_B_FRZ_LEAD : Fld := ⟨LCT_VAL_B, 31, 24⟩
/-- LCT.NATIVE_A, R66. -/
def LCT_NATIVE_A : Nat := dieReg 7 (16)
def LCT_NATIVE_A_RD_LOCAL : Fld := ⟨LCT_NATIVE_A, 7, 0⟩
def LCT_NATIVE_A_HOP : Fld := ⟨LCT_NATIVE_A, 11, 8⟩
def LCT_NATIVE_A_TURN : Fld := ⟨LCT_NATIVE_A, 15, 12⟩
def LCT_NATIVE_A_BRIDGE : Fld := ⟨LCT_NATIVE_A, 23, 16⟩
def LCT_NATIVE_A_SYNC_DIE : Fld := ⟨LCT_NATIVE_A, 31, 24⟩
/-- LCT.NATIVE_B, R67. -/
def LCT_NATIVE_B : Nat := dieReg 7 (20)
def LCT_NATIVE_B_SYNC_BRIDGE : Fld := ⟨LCT_NATIVE_B, 7, 0⟩
def LCT_NATIVE_B_SLIP_WIN : Fld := ⟨LCT_NATIVE_B, 15, 8⟩
def LCT_NATIVE_B_FRAME : Fld := ⟨LCT_NATIVE_B, 23, 16⟩
def LCT_NATIVE_B_FRZ_LEAD : Fld := ⟨LCT_NATIVE_B, 31, 24⟩
/-- LCT.STIME_LO, R68. -/
def LCT_STIME_LO : Nat := dieReg 7 (24)
def LCT_STIME_LO_V : Fld := ⟨LCT_STIME_LO, 31, 0⟩
/-- LCT.STIME_HI, R68. -/
def LCT_STIME_HI : Nat := dieReg 7 (28)
def LCT_STIME_HI_V : Fld := ⟨LCT_STIME_HI, 31, 0⟩
/-- LCT.FRZ_STAT, R80. -/
def LCT_FRZ_STAT : Nat := dieReg 7 (32)
def LCT_FRZ_STAT_FROZEN : Fld := ⟨LCT_FRZ_STAT, 0, 0⟩
def LCT_FRZ_STAT_BRIDGE : Fld := ⟨LCT_FRZ_STAT, 1, 1⟩
def LCT_FRZ_STAT_CLAMP : Fld := ⟨LCT_FRZ_STAT, 2, 2⟩
def LCT_FRZ_STAT_DEBUG : Fld := ⟨LCT_FRZ_STAT, 3, 3⟩
def LCT_FRZ_STAT_FIRMWARE : Fld := ⟨LCT_FRZ_STAT, 4, 4⟩
def LCT_FRZ_STAT_LICENSEE : Fld := ⟨LCT_FRZ_STAT, 5, 5⟩
def LCT_FRZ_STAT_PACKAGE : Fld := ⟨LCT_FRZ_STAT, 6, 6⟩
/-- LCT.FRZ_CTL, R81. -/
def LCT_FRZ_CTL : Nat := dieReg 7 (36)
def LCT_FRZ_CTL_REQ_EN : Fld := ⟨LCT_FRZ_CTL, 0, 0⟩
def LCT_FRZ_CTL_FW_FRZ : Fld := ⟨LCT_FRZ_CTL, 1, 1⟩
def LCT_FRZ_CTL_SEC_FRZ : Fld := ⟨LCT_FRZ_CTL, 2, 2⟩
/-- LCT.FRZ_TOTAL_LO, R82. -/
def LCT_FRZ_TOTAL_LO : Nat := dieReg 7 (40)
def LCT_FRZ_TOTAL_LO_V : Fld := ⟨LCT_FRZ_TOTAL_LO, 31, 0⟩
/-- LCT.FRZ_TOTAL_HI, R82. -/
def LCT_FRZ_TOTAL_HI : Nat := dieReg 7 (44)
def LCT_FRZ_TOTAL_HI_V : Fld := ⟨LCT_FRZ_TOTAL_HI, 31, 0⟩
/-- LCT.FRZ_LAST, R82. -/
def LCT_FRZ_LAST : Nat := dieReg 7 (48)
def LCT_FRZ_LAST_V : Fld := ⟨LCT_FRZ_LAST, 31, 0⟩
/-- LCT.STEP, R91. -/
def LCT_STEP (i : Nat) : Nat := dieReg 7 (256 + 4 * i)
def LCT_STEP_STATE (i : Nat) : Fld := ⟨LCT_STEP i, 1, 0⟩
def LCT_STEP_ATTEMPT (i : Nat) : Fld := ⟨LCT_STEP i, 3, 2⟩
def LCT_STEP_UNRELEASED (i : Nat) : Fld := ⟨LCT_STEP i, 4, 4⟩
def LCT_STEP_MULTI (i : Nat) : Fld := ⟨LCT_STEP i, 5, 5⟩
def LCT_STEP_CAUSE (i : Nat) : Fld := ⟨LCT_STEP i, 10, 8⟩
def LCT_STEP_RELEASED (i : Nat) : Fld := ⟨LCT_STEP i, 31, 16⟩
/-- SBD.MODE, R102. -/
def SBD_MODE (c : Nat) : Nat := cabReg c 6 (0)
def SBD_MODE_MODE (c : Nat) : Fld := ⟨SBD_MODE c, 0, 0⟩
def SBD_MODE_LOCKED (c : Nat) : Fld := ⟨SBD_MODE c, 1, 1⟩
def SBD_MODE_SENTINEL_EN (c : Nat) : Fld := ⟨SBD_MODE c, 2, 2⟩
/-- SBD.STAT, R103. -/
def SBD_STAT (c : Nat) : Nat := cabReg c 6 (4)
def SBD_STAT_OPEN (c : Nat) : Fld := ⟨SBD_STAT c, 5, 0⟩
def SBD_STAT_SLIP_WRP (c : Nat) : Fld := ⟨SBD_STAT c, 11, 8⟩
def SBD_STAT_SLIP_WWP (c : Nat) : Fld := ⟨SBD_STAT c, 15, 12⟩
def SBD_STAT_SLIP_LAND (c : Nat) : Fld := ⟨SBD_STAT c, 19, 16⟩
/-- SBD.ERR, R104. -/
def SBD_ERR (c : Nat) : Nat := cabReg c 6 (8)
def SBD_ERR_OVERRUN (c : Nat) : Fld := ⟨SBD_ERR c, 0, 0⟩
def SBD_ERR_FULL (c : Nat) : Fld := ⟨SBD_ERR c, 1, 1⟩
def SBD_ERR_SENTINEL (c : Nat) : Fld := ⟨SBD_ERR c, 2, 2⟩
def SBD_ERR_LEFT (c : Nat) : Fld := ⟨SBD_ERR c, 3, 3⟩
/-- SBD.SENT_FA, R105. -/
def SBD_SENT_FA (c : Nat) : Nat := cabReg c 6 (12)
def SBD_SENT_FA_V (c : Nat) : Fld := ⟨SBD_SENT_FA c, 31, 0⟩
/-- SBD.SENT_CNT, R105. -/
def SBD_SENT_CNT (c : Nat) : Nat := cabReg c 6 (16)
def SBD_SENT_CNT_V (c : Nat) : Fld := ⟨SBD_SENT_CNT c, 31, 0⟩
/-- SBD.ENT_A, R106. -/
def SBD_ENT_A (c i : Nat) : Nat := cabReg c 6 (256 + 16 * i)
def SBD_ENT_A_BASE (c i : Nat) : Fld := ⟨SBD_ENT_A c i, 16, 0⟩
def SBD_ENT_A_KIND (c i : Nat) : Fld := ⟨SBD_ENT_A c i, 17, 17⟩
def SBD_ENT_A_OPEN (c i : Nat) : Fld := ⟨SBD_ENT_A c i, 18, 18⟩
/-- SBD.ENT_B, R106. -/
def SBD_ENT_B (c i : Nat) : Nat := cabReg c 6 (260 + 16 * i)
def SBD_ENT_B_LIMIT (c i : Nat) : Fld := ⟨SBD_ENT_B c i, 16, 0⟩
/-- SBD.ENT_C, R106. -/
def SBD_ENT_C (c i : Nat) : Nat := cabReg c 6 (264 + 16 * i)
def SBD_ENT_C_COUNT (c i : Nat) : Fld := ⟨SBD_ENT_C c i, 17, 0⟩
/-- CAB.PWR_STAT, R514. -/
def CAB_PWR_STAT (c : Nat) : Nat := cabReg c 0 (0)
def CAB_PWR_STAT_DOZE (c : Nat) : Fld := ⟨CAB_PWR_STAT c, 0, 0⟩
def CAB_PWR_STAT_WAKE_SRC (c : Nat) : Fld := ⟨CAB_PWR_STAT c, 3, 1⟩
/-- CAB.DOZE_WAKES, R514. -/
def CAB_DOZE_WAKES (c : Nat) : Nat := cabReg c 0 (4)
def CAB_DOZE_WAKES_COUNT (c : Nat) : Fld := ⟨CAB_DOZE_WAKES c, 31, 0⟩
/-- CAB.PORT_STAT, R143. -/
def CAB_PORT_STAT (c : Nat) : Nat := cabReg c 0 (256)
def CAB_PORT_STAT_P_WRP (c : Nat) : Fld := ⟨CAB_PORT_STAT c, 0, 0⟩
def CAB_PORT_STAT_P_WWP (c : Nat) : Fld := ⟨CAB_PORT_STAT c, 1, 1⟩
def CAB_PORT_STAT_P_NP0 (c : Nat) : Fld := ⟨CAB_PORT_STAT c, 2, 2⟩
def CAB_PORT_STAT_P_NP1 (c : Nat) : Fld := ⟨CAB_PORT_STAT c, 3, 3⟩
def CAB_PORT_STAT_P_HFP (c : Nat) : Fld := ⟨CAB_PORT_STAT c, 4, 4⟩
def CAB_PORT_STAT_P_SEQ (c : Nat) : Fld := ⟨CAB_PORT_STAT c, 5, 5⟩
def CAB_PORT_STAT_WRP_HELD (c : Nat) : Fld := ⟨CAB_PORT_STAT c, 8, 8⟩
def CAB_PORT_STAT_WWP_HELD (c : Nat) : Fld := ⟨CAB_PORT_STAT c, 9, 9⟩
def CAB_PORT_STAT_NP0_OUT (c : Nat) : Fld := ⟨CAB_PORT_STAT c, 21, 16⟩
def CAB_PORT_STAT_NP1_OUT (c : Nat) : Fld := ⟨CAB_PORT_STAT c, 29, 24⟩
/-- CAB.PORT_PAR, R144. -/
def CAB_PORT_PAR (c : Nat) : Nat := cabReg c 0 (260)
def CAB_PORT_PAR_WRP (c : Nat) : Fld := ⟨CAB_PORT_PAR c, 7, 0⟩
def CAB_PORT_PAR_WWP (c : Nat) : Fld := ⟨CAB_PORT_PAR c, 15, 8⟩
def CAB_PORT_PAR_NP (c : Nat) : Fld := ⟨CAB_PORT_PAR c, 23, 16⟩
def CAB_PORT_PAR_HFP (c : Nat) : Fld := ⟨CAB_PORT_PAR c, 31, 24⟩
/-- CAB.PORT_FAULT, R145. -/
def CAB_PORT_FAULT (c : Nat) : Nat := cabReg c 0 (264)
def CAB_PORT_FAULT_WRP (c : Nat) : Fld := ⟨CAB_PORT_FAULT c, 7, 0⟩
def CAB_PORT_FAULT_WWP (c : Nat) : Fld := ⟨CAB_PORT_FAULT c, 15, 8⟩
def CAB_PORT_FAULT_NP0 (c : Nat) : Fld := ⟨CAB_PORT_FAULT c, 23, 16⟩
def CAB_PORT_FAULT_NP1 (c : Nat) : Fld := ⟨CAB_PORT_FAULT c, 31, 24⟩
/-- CAB.PORT_ASLEEP, R145. -/
def CAB_PORT_ASLEEP (c : Nat) : Nat := cabReg c 0 (268)
def CAB_PORT_ASLEEP_WRP (c : Nat) : Fld := ⟨CAB_PORT_ASLEEP c, 7, 0⟩
def CAB_PORT_ASLEEP_WWP (c : Nat) : Fld := ⟨CAB_PORT_ASLEEP c, 15, 8⟩
def CAB_PORT_ASLEEP_NP0 (c : Nat) : Fld := ⟨CAB_PORT_ASLEEP c, 23, 16⟩
def CAB_PORT_ASLEEP_NP1 (c : Nat) : Fld := ⟨CAB_PORT_ASLEEP c, 31, 24⟩
/-- CAB.PORT_ERRFLAG, R147. -/
def CAB_PORT_ERRFLAG (c : Nat) : Nat := cabReg c 0 (272)
def CAB_PORT_ERRFLAG_HOLD_ISSUE (c : Nat) : Fld := ⟨CAB_PORT_ERRFLAG c, 0, 0⟩
def CAB_PORT_ERRFLAG_UNCLAIMED (c : Nat) : Fld := ⟨CAB_PORT_ERRFLAG c, 1, 1⟩
def CAB_PORT_ERRFLAG_DELIV_COLL (c : Nat) : Fld := ⟨CAB_PORT_ERRFLAG c, 2, 2⟩
def CAB_PORT_ERRFLAG_DROPPED_RET (c : Nat) : Fld := ⟨CAB_PORT_ERRFLAG c, 3, 3⟩
/-- ARB.PRIO, R170. -/
def ARB_PRIO (c : Nat) : Nat := cabReg c 7 (0)
def ARB_PRIO_NP0 (c : Nat) : Fld := ⟨ARB_PRIO c, 1, 0⟩
def ARB_PRIO_NP1 (c : Nat) : Fld := ⟨ARB_PRIO c, 3, 2⟩
def ARB_PRIO_RN0 (c : Nat) : Fld := ⟨ARB_PRIO c, 5, 4⟩
def ARB_PRIO_RN1 (c : Nat) : Fld := ⟨ARB_PRIO c, 7, 6⟩
def ARB_PRIO_RN2 (c : Nat) : Fld := ⟨ARB_PRIO c, 9, 8⟩
def ARB_PRIO_RN3 (c : Nat) : Fld := ⟨ARB_PRIO c, 11, 10⟩
def ARB_PRIO_ASY (c : Nat) : Fld := ⟨ARB_PRIO c, 13, 12⟩
def ARB_PRIO_SWP (c : Nat) : Fld := ⟨ARB_PRIO c, 15, 14⟩
def ARB_PRIO_MGT (c : Nat) : Fld := ⟨ARB_PRIO c, 17, 16⟩
def ARB_PRIO_INB (c : Nat) : Fld := ⟨ARB_PRIO c, 19, 18⟩
/-- ARB.AGE, R171. -/
def ARB_AGE (c : Nat) : Nat := cabReg c 7 (4)
def ARB_AGE_AGE_LIMIT (c : Nat) : Fld := ⟨ARB_AGE c, 15, 0⟩
/-- ARB.STAT, R172. -/
def ARB_STAT (c : Nat) : Nat := cabReg c 7 (8)
def ARB_STAT_URGENT (c : Nat) : Fld := ⟨ARB_STAT c, 9, 0⟩
def ARB_STAT_EMERG (c : Nat) : Fld := ⟨ARB_STAT c, 16, 16⟩
def ARB_STAT_MASKED (c : Nat) : Fld := ⟨ARB_STAT c, 29, 20⟩
/-- ARB.CNT_CLR, R173. -/
def ARB_CNT_CLR (c : Nat) : Nat := cabReg c 7 (12)
def ARB_CNT_CLR_CLR (c : Nat) : Fld := ⟨ARB_CNT_CLR c, 10, 0⟩
def ARB_CNT_CLR_CLR_PRE (c : Nat) : Fld := ⟨ARB_CNT_CLR c, 11, 11⟩
/-- ARB.PREEMPT, R174. -/
def ARB_PREEMPT (c : Nat) : Nat := cabReg c 7 (16)
def ARB_PREEMPT_COUNT (c : Nat) : Fld := ⟨ARB_PREEMPT c, 31, 0⟩
/-- ARB.GRANTS, R175. -/
def ARB_GRANTS (c i : Nat) : Nat := cabReg c 7 (256 + 16 * i)
def ARB_GRANTS_COUNT (c i : Nat) : Fld := ⟨ARB_GRANTS c i, 31, 0⟩
/-- ARB.WAIT, R175. -/
def ARB_WAIT (c i : Nat) : Nat := cabReg c 7 (260 + 16 * i)
def ARB_WAIT_COUNT (c i : Nat) : Fld := ⟨ARB_WAIT c i, 31, 0⟩
/-- ARB.LONGEST, R175. -/
def ARB_LONGEST (c i : Nat) : Nat := cabReg c 7 (264 + 16 * i)
def ARB_LONGEST_COUNT (c i : Nat) : Fld := ⟨ARB_LONGEST c i, 31, 0⟩
/-- BNK.ECC_CTL, R213. -/
def BNK_ECC_CTL (c : Nat) : Nat := cabReg c 1 (0)
def BNK_ECC_CTL_STRICT (c : Nat) : Fld := ⟨BNK_ECC_CTL c, 0, 0⟩
def BNK_ECC_CTL_AUTO_RET (c : Nat) : Fld := ⟨BNK_ECC_CTL c, 1, 1⟩
/-- BNK.RET_LIMIT, R214. -/
def BNK_RET_LIMIT (c : Nat) : Nat := cabReg c 1 (4)
def BNK_RET_LIMIT_LIMIT (c : Nat) : Fld := ⟨BNK_RET_LIMIT c, 15, 0⟩
/-- BNK.BKT_CFG, R215. -/
def BNK_BKT_CFG (c : Nat) : Nat := cabReg c 1 (8)
def BNK_BKT_CFG_THRESH (c : Nat) : Fld := ⟨BNK_BKT_CFG c, 15, 0⟩
def BNK_BKT_CFG_DRIP_PERIOD (c : Nat) : Fld := ⟨BNK_BKT_CFG c, 31, 16⟩
/-- BNK.BKT_OVF, R216. -/
def BNK_BKT_OVF (c : Nat) : Nat := cabReg c 1 (12)
def BNK_BKT_OVF_OVF (c : Nat) : Fld := ⟨BNK_BKT_OVF c, 31, 0⟩
/-- BNK.STAT, R217. -/
def BNK_STAT (c : Nat) : Nat := cabReg c 1 (16)
def BNK_STAT_UE (c : Nat) : Fld := ⟨BNK_STAT c, 15, 0⟩
def BNK_STAT_VB (c : Nat) : Fld := ⟨BNK_STAT c, 31, 16⟩
/-- BNK.CNT_CLR, R218. -/
def BNK_CNT_CLR (c : Nat) : Nat := cabReg c 1 (20)
def BNK_CNT_CLR_UE (c : Nat) : Fld := ⟨BNK_CNT_CLR c, 0, 0⟩
def BNK_CNT_CLR_MCNT (c : Nat) : Fld := ⟨BNK_CNT_CLR c, 1, 1⟩
def BNK_CNT_CLR_VB (c : Nat) : Fld := ⟨BNK_CNT_CLR c, 2, 2⟩
def BNK_CNT_CLR_CE (c : Nat) : Fld := ⟨BNK_CNT_CLR c, 3, 3⟩
def BNK_CNT_CLR_BKT (c : Nat) : Fld := ⟨BNK_CNT_CLR c, 4, 4⟩
/-- BNK.CE_TOTAL, R219. -/
def BNK_CE_TOTAL (c : Nat) : Nat := cabReg c 1 (24)
def BNK_CE_TOTAL_COUNT (c : Nat) : Fld := ⟨BNK_CE_TOTAL c, 31, 0⟩
/-- BNK.INJ_CTL, R220. -/
def BNK_INJ_CTL (c : Nat) : Nat := cabReg c 1 (32)
def BNK_INJ_CTL_MASK (c : Nat) : Fld := ⟨BNK_INJ_CTL c, 15, 0⟩
def BNK_INJ_CTL_SYM (c : Nat) : Fld := ⟨BNK_INJ_CTL c, 20, 16⟩
def BNK_INJ_CTL_BANK (c : Nat) : Fld := ⟨BNK_INJ_CTL c, 25, 21⟩
def BNK_INJ_CTL_COUNT (c : Nat) : Fld := ⟨BNK_INJ_CTL c, 29, 26⟩
/-- BNK.SWP_BASE, R221. -/
def BNK_SWP_BASE (c : Nat) : Nat := cabReg c 1 (48)
def BNK_SWP_BASE_BASE (c : Nat) : Fld := ⟨BNK_SWP_BASE c, 16, 0⟩
/-- BNK.SWP_LIMIT, R221. -/
def BNK_SWP_LIMIT (c : Nat) : Nat := cabReg c 1 (52)
def BNK_SWP_LIMIT_LIMIT (c : Nat) : Fld := ⟨BNK_SWP_LIMIT c, 16, 0⟩
/-- BNK.SWP_CTL, R221. -/
def BNK_SWP_CTL (c : Nat) : Nat := cabReg c 1 (56)
def BNK_SWP_CTL_GO (c : Nat) : Fld := ⟨BNK_SWP_CTL c, 0, 0⟩
def BNK_SWP_CTL_DONE (c : Nat) : Fld := ⟨BNK_SWP_CTL c, 1, 1⟩
def BNK_SWP_CTL_REJ (c : Nat) : Fld := ⟨BNK_SWP_CTL c, 2, 2⟩
/-- BNK.RETIRE, R222. -/
def BNK_RETIRE (c i : Nat) : Nat := cabReg c 1 (256 + 4 * i)
def BNK_RETIRE_MAC1 (c i : Nat) : Fld := ⟨BNK_RETIRE c i, 4, 0⟩
def BNK_RETIRE_V1 (c i : Nat) : Fld := ⟨BNK_RETIRE c i, 5, 5⟩
def BNK_RETIRE_AUTO1 (c i : Nat) : Fld := ⟨BNK_RETIRE c i, 6, 6⟩
def BNK_RETIRE_MAC2 (c i : Nat) : Fld := ⟨BNK_RETIRE c i, 12, 8⟩
def BNK_RETIRE_V2 (c i : Nat) : Fld := ⟨BNK_RETIRE c i, 13, 13⟩
/-- BNK.BKT, R223. -/
def BNK_BKT (c i : Nat) : Nat := cabReg c 1 (512 + 4 * i)
def BNK_BKT_LEVEL (c i : Nat) : Fld := ⟨BNK_BKT c i, 15, 0⟩
/-- BNK.MCNT, R224. -/
def BNK_MCNT (c i j : Nat) : Nat := cabReg c 1 (4096 + 64 * i + 4 * j)
def BNK_MCNT_EVEN (c i j : Nat) : Fld := ⟨BNK_MCNT c i j, 15, 0⟩
def BNK_MCNT_ODD (c i j : Nat) : Fld := ⟨BNK_MCNT c i j, 31, 16⟩
/-- ERR.SUMMARY, R225. -/
def ERR_SUMMARY : Nat := dieReg 1 (0)
def ERR_SUMMARY_FIRST_V : Fld := ⟨ERR_SUMMARY, 3, 0⟩
def ERR_SUMMARY_NEXT_V : Fld := ⟨ERR_SUMMARY, 7, 4⟩
def ERR_SUMMARY_OVF : Fld := ⟨ERR_SUMMARY, 11, 8⟩
/-- ERR.LOG_STAT, R226. -/
def ERR_LOG_STAT (i : Nat) : Nat := dieReg 1 (256 + 64 * i)
def ERR_LOG_STAT_FIRST_V (i : Nat) : Fld := ⟨ERR_LOG_STAT i, 0, 0⟩
def ERR_LOG_STAT_NEXT_V (i : Nat) : Fld := ⟨ERR_LOG_STAT i, 1, 1⟩
def ERR_LOG_STAT_SEQ (i : Nat) : Fld := ⟨ERR_LOG_STAT i, 31, 16⟩
/-- ERR.LOG_CTL, R226. -/
def ERR_LOG_CTL (i : Nat) : Nat := dieReg 1 (260 + 64 * i)
def ERR_LOG_CTL_ACK (i : Nat) : Fld := ⟨ERR_LOG_CTL i, 0, 0⟩
def ERR_LOG_CTL_CLR_ALL (i : Nat) : Fld := ⟨ERR_LOG_CTL i, 1, 1⟩
def ERR_LOG_CTL_INT_EN (i : Nat) : Fld := ⟨ERR_LOG_CTL i, 2, 2⟩
def ERR_LOG_CTL_OWNER (i : Nat) : Fld := ⟨ERR_LOG_CTL i, 3, 3⟩
/-- ERR.LOG_OVF, R226. -/
def ERR_LOG_OVF (i : Nat) : Nat := dieReg 1 (264 + 64 * i)
def ERR_LOG_OVF_COUNT (i : Nat) : Fld := ⟨ERR_LOG_OVF i, 31, 0⟩
/-- ERR.FIRST_A, R227. -/
def ERR_FIRST_A (i : Nat) : Nat := dieReg 1 (272 + 64 * i)
def ERR_FIRST_A_KIND (i : Nat) : Fld := ⟨ERR_FIRST_A i, 7, 0⟩
def ERR_FIRST_A_REQ (i : Nat) : Fld := ⟨ERR_FIRST_A i, 12, 8⟩
def ERR_FIRST_A_CAB (i : Nat) : Fld := ⟨ERR_FIRST_A i, 19, 13⟩
def ERR_FIRST_A_BANK (i : Nat) : Fld := ⟨ERR_FIRST_A i, 24, 20⟩
def ERR_FIRST_A_SYM (i : Nat) : Fld := ⟨ERR_FIRST_A i, 29, 25⟩
/-- ERR.FIRST_B, R227. -/
def ERR_FIRST_B (i : Nat) : Nat := dieReg 1 (276 + 64 * i)
def ERR_FIRST_B_SEQ (i : Nat) : Fld := ⟨ERR_FIRST_B i, 15, 0⟩
def ERR_FIRST_B_CTX (i : Nat) : Fld := ⟨ERR_FIRST_B i, 19, 16⟩
def ERR_FIRST_B_CTX_V (i : Nat) : Fld := ⟨ERR_FIRST_B i, 20, 20⟩
def ERR_FIRST_B_GLOBAL (i : Nat) : Fld := ⟨ERR_FIRST_B i, 21, 21⟩
/-- ERR.FIRST_ADDR, R227. -/
def ERR_FIRST_ADDR (i : Nat) : Nat := dieReg 1 (280 + 64 * i)
def ERR_FIRST_ADDR_ADDR (i : Nat) : Fld := ⟨ERR_FIRST_ADDR i, 31, 0⟩
/-- ERR.FIRST_DATA, R227. -/
def ERR_FIRST_DATA (i : Nat) : Nat := dieReg 1 (284 + 64 * i)
def ERR_FIRST_DATA_DATA (i : Nat) : Fld := ⟨ERR_FIRST_DATA i, 31, 0⟩
/-- ERR.FIRST_TIME_LO, R227. -/
def ERR_FIRST_TIME_LO (i : Nat) : Nat := dieReg 1 (288 + 64 * i)
def ERR_FIRST_TIME_LO_TIME (i : Nat) : Fld := ⟨ERR_FIRST_TIME_LO i, 31, 0⟩
/-- ERR.FIRST_TIME_HI, R227. -/
def ERR_FIRST_TIME_HI (i : Nat) : Nat := dieReg 1 (292 + 64 * i)
def ERR_FIRST_TIME_HI_TIME (i : Nat) : Fld := ⟨ERR_FIRST_TIME_HI i, 31, 0⟩
/-- ERR.NEXT_A, R227. -/
def ERR_NEXT_A (i : Nat) : Nat := dieReg 1 (296 + 64 * i)
def ERR_NEXT_A_KIND (i : Nat) : Fld := ⟨ERR_NEXT_A i, 7, 0⟩
def ERR_NEXT_A_REQ (i : Nat) : Fld := ⟨ERR_NEXT_A i, 12, 8⟩
def ERR_NEXT_A_CAB (i : Nat) : Fld := ⟨ERR_NEXT_A i, 19, 13⟩
def ERR_NEXT_A_BANK (i : Nat) : Fld := ⟨ERR_NEXT_A i, 24, 20⟩
def ERR_NEXT_A_SYM (i : Nat) : Fld := ⟨ERR_NEXT_A i, 29, 25⟩
/-- ERR.NEXT_B, R227. -/
def ERR_NEXT_B (i : Nat) : Nat := dieReg 1 (300 + 64 * i)
def ERR_NEXT_B_SEQ (i : Nat) : Fld := ⟨ERR_NEXT_B i, 15, 0⟩
def ERR_NEXT_B_CTX (i : Nat) : Fld := ⟨ERR_NEXT_B i, 19, 16⟩
def ERR_NEXT_B_CTX_V (i : Nat) : Fld := ⟨ERR_NEXT_B i, 20, 20⟩
def ERR_NEXT_B_GLOBAL (i : Nat) : Fld := ⟨ERR_NEXT_B i, 21, 21⟩
/-- ERR.NEXT_ADDR, R227. -/
def ERR_NEXT_ADDR (i : Nat) : Nat := dieReg 1 (304 + 64 * i)
def ERR_NEXT_ADDR_ADDR (i : Nat) : Fld := ⟨ERR_NEXT_ADDR i, 31, 0⟩
/-- ERR.NEXT_DATA, R227. -/
def ERR_NEXT_DATA (i : Nat) : Nat := dieReg 1 (308 + 64 * i)
def ERR_NEXT_DATA_DATA (i : Nat) : Fld := ⟨ERR_NEXT_DATA i, 31, 0⟩
/-- ERR.NEXT_TIME_LO, R227. -/
def ERR_NEXT_TIME_LO (i : Nat) : Nat := dieReg 1 (312 + 64 * i)
def ERR_NEXT_TIME_LO_TIME (i : Nat) : Fld := ⟨ERR_NEXT_TIME_LO i, 31, 0⟩
/-- ERR.NEXT_TIME_HI, R227. -/
def ERR_NEXT_TIME_HI (i : Nat) : Nat := dieReg 1 (316 + 64 * i)
def ERR_NEXT_TIME_HI_TIME (i : Nat) : Fld := ⟨ERR_NEXT_TIME_HI i, 31, 0⟩
/-- ASY.BASE, R253. -/
def ASY_BASE (c : Nat) : Nat := cabReg c 8 (0)
def ASY_BASE_BASE (c : Nat) : Fld := ⟨ASY_BASE c, 16, 0⟩
/-- ASY.LIMIT, R253. -/
def ASY_LIMIT (c : Nat) : Nat := cabReg c 8 (4)
def ASY_LIMIT_LIMIT (c : Nat) : Fld := ⟨ASY_LIMIT c, 16, 0⟩
/-- ASY.CTL, R253. -/
def ASY_CTL (c : Nat) : Nat := cabReg c 8 (8)
def ASY_CTL_GO (c : Nat) : Fld := ⟨ASY_CTL c, 0, 0⟩
def ASY_CTL_DONE (c : Nat) : Fld := ⟨ASY_CTL c, 1, 1⟩
def ASY_CTL_REJ (c : Nat) : Fld := ⟨ASY_CTL c, 2, 2⟩
def ASY_CTL_ABORT (c : Nat) : Fld := ⟨ASY_CTL c, 3, 3⟩
def ASY_CTL_REPAIR (c : Nat) : Fld := ⟨ASY_CTL c, 4, 4⟩
def ASY_CTL_REMAP_EN (c : Nat) : Fld := ⟨ASY_CTL c, 5, 5⟩
def ASY_CTL_END (c : Nat) : Fld := ⟨ASY_CTL c, 7, 6⟩
def ASY_CTL_GAP (c : Nat) : Fld := ⟨ASY_CTL c, 15, 8⟩
/-- ASY.SUM_WORDS, R254. -/
def ASY_SUM_WORDS (c : Nat) : Nat := cabReg c 8 (16)
def ASY_SUM_WORDS_COUNT (c : Nat) : Fld := ⟨ASY_SUM_WORDS c, 17, 0⟩
/-- ASY.SUM_INVALID, R254. -/
def ASY_SUM_INVALID (c : Nat) : Nat := cabReg c 8 (20)
def ASY_SUM_INVALID_COUNT (c : Nat) : Fld := ⟨ASY_SUM_INVALID c, 17, 0⟩
/-- ASY.SUM_CE, R254. -/
def ASY_SUM_CE (c : Nat) : Nat := cabReg c 8 (24)
def ASY_SUM_CE_COUNT (c : Nat) : Fld := ⟨ASY_SUM_CE c, 17, 0⟩
/-- ASY.SUM_UE, R254. -/
def ASY_SUM_UE (c : Nat) : Nat := cabReg c 8 (28)
def ASY_SUM_UE_COUNT (c : Nat) : Fld := ⟨ASY_SUM_UE c, 17, 0⟩
/-- ASY.SUM_UE_ADDR, R254. -/
def ASY_SUM_UE_ADDR (c : Nat) : Nat := cabReg c 8 (32)
def ASY_SUM_UE_ADDR_OFFSET (c : Nat) : Fld := ⟨ASY_SUM_UE_ADDR c, 21, 0⟩
def ASY_SUM_UE_ADDR_V (c : Nat) : Fld := ⟨ASY_SUM_UE_ADDR c, 31, 31⟩
/-- ASY.SUM_REMAP, R254. -/
def ASY_SUM_REMAP (c : Nat) : Nat := cabReg c 8 (36)
def ASY_SUM_REMAP_MADE (c : Nat) : Fld := ⟨ASY_SUM_REMAP c, 8, 0⟩
def ASY_SUM_REMAP_REJ (c : Nat) : Fld := ⟨ASY_SUM_REMAP c, 24, 16⟩
/-- ASY.SUM_DUR, R254. -/
def ASY_SUM_DUR (c : Nat) : Nat := cabReg c 8 (40)
def ASY_SUM_DUR_FC (c : Nat) : Fld := ⟨ASY_SUM_DUR c, 31, 0⟩
/-- RMP.ADD, R255. -/
def RMP_ADD (c : Nat) : Nat := cabReg c 2 (0)
def RMP_ADD_ROW (c : Nat) : Fld := ⟨RMP_ADD c, 11, 0⟩
def RMP_ADD_BANK (c : Nat) : Fld := ⟨RMP_ADD c, 16, 12⟩
def RMP_ADD_GO (c : Nat) : Fld := ⟨RMP_ADD c, 31, 31⟩
/-- RMP.ADD_STAT, R255. -/
def RMP_ADD_STAT (c : Nat) : Nat := cabReg c 2 (4)
def RMP_ADD_STAT_DONE (c : Nat) : Fld := ⟨RMP_ADD_STAT c, 0, 0⟩
def RMP_ADD_STAT_REJ (c : Nat) : Fld := ⟨RMP_ADD_STAT c, 1, 1⟩
def RMP_ADD_STAT_REJ_CAUSE (c : Nat) : Fld := ⟨RMP_ADD_STAT c, 3, 2⟩
def RMP_ADD_STAT_POISONED (c : Nat) : Fld := ⟨RMP_ADD_STAT c, 4, 4⟩
/-- RMP.FULL, R255. -/
def RMP_FULL (c : Nat) : Nat := cabReg c 2 (8)
def RMP_FULL_FULL (c : Nat) : Fld := ⟨RMP_FULL c, 31, 0⟩
/-- RMP.ENT, R256. -/
def RMP_ENT (c i j : Nat) : Nat := cabReg c 2 (256 + 32 * i + 4 * j)
def RMP_ENT_ROW (c i j : Nat) : Fld := ⟨RMP_ENT c i j, 11, 0⟩
def RMP_ENT_VALID (c i j : Nat) : Fld := ⟨RMP_ENT c i j, 12, 12⟩
def RMP_ENT_POISON (c i j : Nat) : Fld := ⟨RMP_ENT c i j, 13, 13⟩
def RMP_ENT_SRC (c i j : Nat) : Fld := ⟨RMP_ENT c i j, 15, 14⟩
/-- SYN.STAT, R301. -/
def SYN_STAT (c : Nat) : Nat := cabReg c 3 (0)
def SYN_STAT_SGQ (c : Nat) : Fld := ⟨SYN_STAT c, 6, 0⟩
def SYN_STAT_RNH (c : Nat) : Fld := ⟨SYN_STAT c, 12, 8⟩
def SYN_STAT_WREG (c : Nat) : Fld := ⟨SYN_STAT c, 20, 16⟩
/-- SYN.SIGNAL, R302. -/
def SYN_SIGNAL (c : Nat) : Nat := cabReg c 3 (4)
def SYN_SIGNAL_CTR (c : Nat) : Fld := ⟨SYN_SIGNAL c, 8, 0⟩
def SYN_SIGNAL_INC (c : Nat) : Fld := ⟨SYN_SIGNAL c, 31, 16⟩
/-- SYN.SET_KEY, R303. -/
def SYN_SET_KEY (c : Nat) : Nat := cabReg c 3 (8)
def SYN_SET_KEY_KEY (c : Nat) : Fld := ⟨SYN_SET_KEY c, 15, 0⟩
def SYN_SET_KEY_OPEN (c : Nat) : Fld := ⟨SYN_SET_KEY c, 16, 16⟩
/-- SYN.SET_LO, R304. -/
def SYN_SET_LO (c : Nat) : Nat := cabReg c 3 (16)
def SYN_SET_LO_VALUE (c : Nat) : Fld := ⟨SYN_SET_LO c, 31, 0⟩
/-- SYN.SET_HI, R304. -/
def SYN_SET_HI (c : Nat) : Nat := cabReg c 3 (20)
def SYN_SET_HI_VALUE (c : Nat) : Fld := ⟨SYN_SET_HI c, 15, 0⟩
def SYN_SET_HI_CTR (c : Nat) : Fld := ⟨SYN_SET_HI c, 24, 16⟩
/-- SYN.DBG_SETS, R305. -/
def SYN_DBG_SETS (c : Nat) : Nat := cabReg c 3 (24)
def SYN_DBG_SETS_COUNT (c : Nat) : Fld := ⟨SYN_DBG_SETS c, 31, 0⟩
/-- SYN.ERRFLAG, R306. -/
def SYN_ERRFLAG (c : Nat) : Nat := cabReg c 3 (28)
def SYN_ERRFLAG_QFULL (c : Nat) : Fld := ⟨SYN_ERRFLAG c, 0, 0⟩
def SYN_ERRFLAG_REFUSED (c : Nat) : Fld := ⟨SYN_ERRFLAG c, 1, 1⟩
def SYN_ERRFLAG_FOREIGN (c : Nat) : Fld := ⟨SYN_ERRFLAG c, 2, 2⟩
def SYN_ERRFLAG_KEY_BAD (c : Nat) : Fld := ⟨SYN_ERRFLAG c, 3, 3⟩
def SYN_ERRFLAG_SEL_BAD (c : Nat) : Fld := ⟨SYN_ERRFLAG c, 4, 4⟩
/-- SYN.WTR_A, R307. -/
def SYN_WTR_A (c i : Nat) : Nat := cabReg c 3 (256 + 16 * i)
def SYN_WTR_A_CTR (c i : Nat) : Fld := ⟨SYN_WTR_A c i, 8, 0⟩
def SYN_WTR_A_REG (c i : Nat) : Fld := ⟨SYN_WTR_A c i, 9, 9⟩
def SYN_WTR_A_FIRED (c i : Nat) : Fld := ⟨SYN_WTR_A c i, 10, 10⟩
def SYN_WTR_A_PENDING (c i : Nat) : Fld := ⟨SYN_WTR_A c i, 11, 11⟩
def SYN_WTR_A_CTX (c i : Nat) : Fld := ⟨SYN_WTR_A c i, 15, 12⟩
/-- SYN.WTR_EXP_LO, R307. -/
def SYN_WTR_EXP_LO (c i : Nat) : Nat := cabReg c 3 (260 + 16 * i)
def SYN_WTR_EXP_LO_EXP (c i : Nat) : Fld := ⟨SYN_WTR_EXP_LO c i, 31, 0⟩
/-- SYN.WTR_EXP_HI, R307. -/
def SYN_WTR_EXP_HI (c i : Nat) : Nat := cabReg c 3 (264 + 16 * i)
def SYN_WTR_EXP_HI_EXP (c i : Nat) : Fld := ⟨SYN_WTR_EXP_HI c i, 15, 0⟩
/-- SYN.CTR_CFG, R308. -/
def SYN_CTR_CFG (c i : Nat) : Nat := cabReg c 3 (1024 + 16 * i)
def SYN_CTR_CFG_CTX (c i : Nat) : Fld := ⟨SYN_CTR_CFG c i, 3, 0⟩
def SYN_CTR_CFG_BOUND (c i : Nat) : Fld := ⟨SYN_CTR_CFG c i, 4, 4⟩
def SYN_CTR_CFG_WAKE_EN (c i : Nat) : Fld := ⟨SYN_CTR_CFG c i, 5, 5⟩
def SYN_CTR_CFG_EDGE_EN (c i : Nat) : Fld := ⟨SYN_CTR_CFG c i, 6, 6⟩
def SYN_CTR_CFG_QUIET (c i : Nat) : Fld := ⟨SYN_CTR_CFG c i, 7, 7⟩
/-- SYN.CTR_VAL_LO, R308. -/
def SYN_CTR_VAL_LO (c i : Nat) : Nat := cabReg c 3 (1028 + 16 * i)
def SYN_CTR_VAL_LO_VALUE (c i : Nat) : Fld := ⟨SYN_CTR_VAL_LO c i, 31, 0⟩
/-- SYN.CTR_VAL_HI, R308. -/
def SYN_CTR_VAL_HI (c i : Nat) : Nat := cabReg c 3 (1032 + 16 * i)
def SYN_CTR_VAL_HI_VALUE (c i : Nat) : Fld := ⟨SYN_CTR_VAL_HI c i, 15, 0⟩
/-- SYN.G_CFG, R308. -/
def SYN_G_CFG (c i : Nat) : Nat := cabReg c 3 (16384 + 16 * i)
def SYN_G_CFG_CTX (c i : Nat) : Fld := ⟨SYN_G_CFG c i, 3, 0⟩
def SYN_G_CFG_BOUND (c i : Nat) : Fld := ⟨SYN_G_CFG c i, 4, 4⟩
def SYN_G_CFG_WAKE_EN (c i : Nat) : Fld := ⟨SYN_G_CFG c i, 5, 5⟩
def SYN_G_CFG_EDGE_EN (c i : Nat) : Fld := ⟨SYN_G_CFG c i, 6, 6⟩
def SYN_G_CFG_QUIET (c i : Nat) : Fld := ⟨SYN_G_CFG c i, 7, 7⟩
/-- SYN.G_VAL_LO, R308. -/
def SYN_G_VAL_LO (c i : Nat) : Nat := cabReg c 3 (16388 + 16 * i)
def SYN_G_VAL_LO_VALUE (c i : Nat) : Fld := ⟨SYN_G_VAL_LO c i, 31, 0⟩
/-- SYN.G_VAL_HI, R308. -/
def SYN_G_VAL_HI (c i : Nat) : Nat := cabReg c 3 (16392 + 16 * i)
def SYN_G_VAL_HI_VALUE (c i : Nat) : Fld := ⟨SYN_G_VAL_HI c i, 15, 0⟩
/-- SYN.DUMP_BASE, R310. -/
def SYN_DUMP_BASE (c : Nat) : Nat := cabReg c 3 (20480)
def SYN_DUMP_BASE_BASE (c : Nat) : Fld := ⟨SYN_DUMP_BASE c, 19, 6⟩
/-- SYN.DUMP_CTL, R310. -/
def SYN_DUMP_CTL (c : Nat) : Nat := cabReg c 3 (20484)
def SYN_DUMP_CTL_GO (c : Nat) : Fld := ⟨SYN_DUMP_CTL c, 0, 0⟩
def SYN_DUMP_CTL_DONE (c : Nat) : Fld := ⟨SYN_DUMP_CTL c, 1, 1⟩
def SYN_DUMP_CTL_REJ (c : Nat) : Fld := ⟨SYN_DUMP_CTL c, 2, 2⟩
def SYN_DUMP_CTL_TORN (c : Nat) : Fld := ⟨SYN_DUMP_CTL c, 3, 3⟩
def SYN_DUMP_CTL_AUTO (c : Nat) : Fld := ⟨SYN_DUMP_CTL c, 4, 4⟩
/-- RUN.CFG, R355. -/
def RUN_CFG (c : Nat) : Nat := cabReg c 4 (0)
def RUN_CFG_STEAL_EN (c : Nat) : Fld := ⟨RUN_CFG c, 0, 0⟩
def RUN_CFG_THIEF_EN (c : Nat) : Fld := ⟨RUN_CFG c, 1, 1⟩
/-- RUN.POOL, R356. -/
def RUN_POOL (c : Nat) : Nat := cabReg c 4 (4)
def RUN_POOL_POOL (c : Nat) : Fld := ⟨RUN_POOL c, 7, 0⟩
/-- RUN.MC_CFG, R357. -/
def RUN_MC_CFG (c : Nat) : Nat := cabReg c 4 (8)
def RUN_MC_CFG_LAPSE (c : Nat) : Fld := ⟨RUN_MC_CFG c, 15, 0⟩
/-- RUN.RSV_STAT, R358. -/
def RUN_RSV_STAT (c : Nat) : Nat := cabReg c 4 (12)
def RUN_RSV_STAT_HELD (c : Nat) : Fld := ⟨RUN_RSV_STAT c, 7, 0⟩
def RUN_RSV_STAT_WAITING (c : Nat) : Fld := ⟨RUN_RSV_STAT c, 11, 8⟩
def RUN_RSV_STAT_AGED (c : Nat) : Fld := ⟨RUN_RSV_STAT c, 15, 12⟩
/-- RUN.RN_LIST_FA, R359. -/
def RUN_RN_LIST_FA (c i : Nat) : Nat := cabReg c 4 (256 + 64 * i)
def RUN_RN_LIST_FA_FA (c i : Nat) : Fld := ⟨RUN_RN_LIST_FA c i, 31, 0⟩
/-- RUN.RN_LIST_CTL, R359. -/
def RUN_RN_LIST_CTL (c i : Nat) : Nat := cabReg c 4 (260 + 64 * i)
def RUN_RN_LIST_CTL_COUNT (c i : Nat) : Fld := ⟨RUN_RN_LIST_CTL c i, 15, 0⟩
def RUN_RN_LIST_CTL_CTX (c i : Nat) : Fld := ⟨RUN_RN_LIST_CTL c i, 19, 16⟩
def RUN_RN_LIST_CTL_STEP (c i : Nat) : Fld := ⟨RUN_RN_LIST_CTL c i, 20, 20⟩
def RUN_RN_LIST_CTL_TAG (c i : Nat) : Fld := ⟨RUN_RN_LIST_CTL c i, 28, 21⟩
def RUN_RN_LIST_CTL_REJ (c i : Nat) : Fld := ⟨RUN_RN_LIST_CTL c i, 29, 29⟩
def RUN_RN_LIST_CTL_GO (c i : Nat) : Fld := ⟨RUN_RN_LIST_CTL c i, 31, 31⟩
/-- RUN.RN_STAT, R359. -/
def RUN_RN_STAT (c i : Nat) : Nat := cabReg c 4 (264 + 64 * i)
def RUN_RN_STAT_STATE (c i : Nat) : Fld := ⟨RUN_RN_STAT c i, 3, 0⟩
def RUN_RN_STAT_QUEUED (c i : Nat) : Fld := ⟨RUN_RN_STAT c i, 6, 4⟩
def RUN_RN_STAT_INDEX (c i : Nat) : Fld := ⟨RUN_RN_STAT c i, 23, 8⟩
def RUN_RN_STAT_CTX (c i : Nat) : Fld := ⟨RUN_RN_STAT c i, 27, 24⟩
/-- RUN.RN_ABORT, R359. -/
def RUN_RN_ABORT (c i : Nat) : Nat := cabReg c 4 (268 + 64 * i)
def RUN_RN_ABORT_ABORT (c i : Nat) : Fld := ⟨RUN_RN_ABORT c i, 0, 0⟩
/-- RUN.RN_CMPL_A, R359. -/
def RUN_RN_CMPL_A (c i : Nat) : Nat := cabReg c 4 (272 + 64 * i)
def RUN_RN_CMPL_A_TAG (c i : Nat) : Fld := ⟨RUN_RN_CMPL_A c i, 7, 0⟩
def RUN_RN_CMPL_A_CTX (c i : Nat) : Fld := ⟨RUN_RN_CMPL_A c i, 11, 8⟩
def RUN_RN_CMPL_A_STATUS (c i : Nat) : Fld := ⟨RUN_RN_CMPL_A c i, 15, 12⟩
def RUN_RN_CMPL_A_DONE (c i : Nat) : Fld := ⟨RUN_RN_CMPL_A c i, 31, 16⟩
/-- RUN.RN_CMPL_B, R359. -/
def RUN_RN_CMPL_B (c i : Nat) : Nat := cabReg c 4 (276 + 64 * i)
def RUN_RN_CMPL_B_FAIL_INDEX (c i : Nat) : Fld := ⟨RUN_RN_CMPL_B c i, 15, 0⟩
def RUN_RN_CMPL_B_FAIL_RESP (c i : Nat) : Fld := ⟨RUN_RN_CMPL_B c i, 17, 16⟩
def RUN_RN_CMPL_B_SIGREF (c i : Nat) : Fld := ⟨RUN_RN_CMPL_B c i, 18, 18⟩
def RUN_RN_CMPL_B_V (c i : Nat) : Fld := ⟨RUN_RN_CMPL_B c i, 20, 20⟩
def RUN_RN_CMPL_B_DEPTH (c i : Nat) : Fld := ⟨RUN_RN_CMPL_B c i, 23, 21⟩
/-- RUN.RN_CMPL_C, R359. -/
def RUN_RN_CMPL_C (c i : Nat) : Nat := cabReg c 4 (280 + 64 * i)
def RUN_RN_CMPL_C_LAPSED (c i : Nat) : Fld := ⟨RUN_RN_CMPL_C c i, 15, 0⟩
def RUN_RN_CMPL_C_LAPSE_INDEX (c i : Nat) : Fld := ⟨RUN_RN_CMPL_C c i, 31, 16⟩
/-- RUN.RN_CMPL_D, R359. -/
def RUN_RN_CMPL_D (c i : Nat) : Nat := cabReg c 4 (284 + 64 * i)
def RUN_RN_CMPL_D_FAIL_ADDR (c i : Nat) : Fld := ⟨RUN_RN_CMPL_D c i, 31, 0⟩
/-- RUN.RN_CMPL_POP, R359. -/
def RUN_RN_CMPL_POP (c i : Nat) : Nat := cabReg c 4 (288 + 64 * i)
def RUN_RN_CMPL_POP_POP (c i : Nat) : Fld := ⟨RUN_RN_CMPL_POP c i, 0, 0⟩
/-- RUN.RN_CNT, R359. -/
def RUN_RN_CNT (c i : Nat) : Nat := cabReg c 4 (292 + 64 * i)
def RUN_RN_CNT_STOLEN_FROM (c i : Nat) : Fld := ⟨RUN_RN_CNT c i, 15, 0⟩
def RUN_RN_CNT_STOLEN_BY (c i : Nat) : Fld := ⟨RUN_RN_CNT c i, 31, 16⟩
/-- HFF.FLUSH, R380. -/
def HFF_FLUSH (c : Nat) : Nat := cabReg c 5 (0)
def HFF_FLUSH_FLUSH (c : Nat) : Fld := ⟨HFF_FLUSH c, 7, 0⟩
/-- HFF.EVT, R381. -/
def HFF_EVT (c : Nat) : Nat := cabReg c 5 (4)
def HFF_EVT_EVT (c : Nat) : Fld := ⟨HFF_EVT c, 7, 0⟩
def HFF_EVT_EVT_EN (c : Nat) : Fld := ⟨HFF_EVT c, 15, 8⟩
/-- HFF.ERRFLAG, R382. -/
def HFF_ERRFLAG (c : Nat) : Nat := cabReg c 5 (8)
def HFF_ERRFLAG_NOTICE_REF (c : Nat) : Fld := ⟨HFF_ERRFLAG c, 7, 0⟩
def HFF_ERRFLAG_PEND_MAX (c : Nat) : Fld := ⟨HFF_ERRFLAG c, 15, 8⟩
/-- HFF.CFG, R383. -/
def HFF_CFG (c i : Nat) : Nat := cabReg c 5 (256 + 32 * i)
def HFF_CFG_LIMIT (c i : Nat) : Fld := ⟨HFF_CFG c i, 4, 0⟩
def HFF_CFG_CUT_THROUGH (c i : Nat) : Fld := ⟨HFF_CFG c i, 9, 5⟩
def HFF_CFG_NOTICE (c i : Nat) : Fld := ⟨HFF_CFG c i, 11, 10⟩
def HFF_CFG_NOTICE_AT (c i : Nat) : Fld := ⟨HFF_CFG c i, 12, 12⟩
def HFF_CFG_CTX (c i : Nat) : Fld := ⟨HFF_CFG c i, 19, 16⟩
def HFF_CFG_BOUND (c i : Nat) : Fld := ⟨HFF_CFG c i, 20, 20⟩
def HFF_CFG_HANDOVER (c i : Nat) : Fld := ⟨HFF_CFG c i, 21, 21⟩
/-- HFF.NCN, R383. -/
def HFF_NCN (c i : Nat) : Nat := cabReg c 5 (260 + 32 * i)
def HFF_NCN_CN (c i : Nat) : Fld := ⟨HFF_NCN c i, 18, 0⟩
/-- HFF.STAT, R383. -/
def HFF_STAT (c i : Nat) : Nat := cabReg c 5 (264 + 32 * i)
def HFF_STAT_LEVEL (c i : Nat) : Fld := ⟨HFF_STAT c i, 4, 0⟩
def HFF_STAT_HEAD (c i : Nat) : Fld := ⟨HFF_STAT c i, 5, 5⟩
def HFF_STAT_PUSH_OPEN (c i : Nat) : Fld := ⟨HFF_STAT c i, 6, 6⟩
def HFF_STAT_IN_PKT (c i : Nat) : Fld := ⟨HFF_STAT c i, 7, 7⟩
def HFF_STAT_DROPPING (c i : Nat) : Fld := ⟨HFF_STAT c i, 8, 8⟩
def HFF_STAT_PEND (c i : Nat) : Fld := ⟨HFF_STAT c i, 31, 16⟩
/-- HFF.CNT, R383. -/
def HFF_CNT (c i : Nat) : Nat := cabReg c 5 (268 + 32 * i)
def HFF_CNT_CE (c i : Nat) : Fld := ⟨HFF_CNT c i, 15, 0⟩
def HFF_CNT_PKTS (c i : Nat) : Fld := ⟨HFF_CNT c i, 31, 16⟩
/-- HFF.DCNT, R383. -/
def HFF_DCNT (c i : Nat) : Nat := cabReg c 5 (272 + 32 * i)
def HFF_DCNT_UE (c i : Nat) : Fld := ⟨HFF_DCNT c i, 15, 0⟩
def HFF_DCNT_DROPPED (c i : Nat) : Fld := ⟨HFF_DCNT c i, 31, 16⟩
/-- CTX.CMD, R405. -/
def CTX_CMD : Nat := dieReg 6 (0)
def CTX_CMD_CTX : Fld := ⟨CTX_CMD, 3, 0⟩
def CTX_CMD_OP : Fld := ⟨CTX_CMD, 6, 4⟩
/-- CTX.OWNER_IN, R405. -/
def CTX_OWNER_IN : Nat := dieReg 6 (4)
def CTX_OWNER_IN_OWNER : Fld := ⟨CTX_OWNER_IN, 15, 0⟩
/-- CTX.CMD_STAT, R405. -/
def CTX_CMD_STAT : Nat := dieReg 6 (8)
def CTX_CMD_STAT_DONE : Fld := ⟨CTX_CMD_STAT, 0, 0⟩
def CTX_CMD_STAT_REJ : Fld := ⟨CTX_CMD_STAT, 1, 1⟩
def CTX_CMD_STAT_CAUSE : Fld := ⟨CTX_CMD_STAT, 5, 2⟩
/-- CTX.STAT, R406. -/
def CTX_STAT (i : Nat) : Nat := dieReg 6 (256 + 4 * i)
def CTX_STAT_STATE (i : Nat) : Fld := ⟨CTX_STAT i, 2, 0⟩
def CTX_STAT_KPHASE (i : Nat) : Fld := ⟨CTX_STAT i, 5, 3⟩
def CTX_STAT_GEN (i : Nat) : Fld := ⟨CTX_STAT i, 6, 6⟩
def CTX_STAT_OWNER (i : Nat) : Fld := ⟨CTX_STAT i, 31, 16⟩
/-- CTX.FMASK, R407. -/
def CTX_FMASK (i j : Nat) : Nat := dieReg 6 (512 + 16 * i + 4 * j)
def CTX_FMASK_MASK (i j : Nat) : Fld := ⟨CTX_FMASK i j, 31, 0⟩
/-- CTX.EAG, R408. -/
def CTX_EAG (i : Nat) : Nat := dieReg 6 (1024 + 4 * i)
def CTX_EAG_CTX (i : Nat) : Fld := ⟨CTX_EAG i, 3, 0⟩
def CTX_EAG_V (i : Nat) : Fld := ⟨CTX_EAG i, 4, 4⟩
/-- WIN.BIND, R409. -/
def WIN_BIND : Nat := dieReg 5 (0)
def WIN_BIND_WIN : Fld := ⟨WIN_BIND, 5, 0⟩
def WIN_BIND_CTX : Fld := ⟨WIN_BIND, 11, 8⟩
def WIN_BIND_OP : Fld := ⟨WIN_BIND, 13, 12⟩
/-- WIN.BIND_STAT, R409. -/
def WIN_BIND_STAT : Nat := dieReg 5 (4)
def WIN_BIND_STAT_DONE : Fld := ⟨WIN_BIND_STAT, 0, 0⟩
def WIN_BIND_STAT_REJ : Fld := ⟨WIN_BIND_STAT, 1, 1⟩
def WIN_BIND_STAT_CAUSE : Fld := ⟨WIN_BIND_STAT, 5, 2⟩
def WIN_BIND_STAT_BUSY : Fld := ⟨WIN_BIND_STAT, 6, 6⟩
/-- WIN.VIOL_CNT, R409. -/
def WIN_VIOL_CNT : Nat := dieReg 5 (8)
def WIN_VIOL_CNT_COUNT : Fld := ⟨WIN_VIOL_CNT, 31, 0⟩
/-- WIN.PART_A, R410. -/
def WIN_PART_A (i : Nat) : Nat := dieReg 5 (256 + 16 * i)
def WIN_PART_A_BASE (i : Nat) : Fld := ⟨WIN_PART_A i, 16, 0⟩
/-- WIN.PART_B, R410. -/
def WIN_PART_B (i : Nat) : Nat := dieReg 5 (260 + 16 * i)
def WIN_PART_B_LIMIT (i : Nat) : Fld := ⟨WIN_PART_B i, 16, 0⟩
def WIN_PART_B_VALID (i : Nat) : Fld := ⟨WIN_PART_B i, 17, 17⟩
/-- WIN.PART_C, R410. -/
def WIN_PART_C (i : Nat) : Nat := dieReg 5 (264 + 16 * i)
def WIN_PART_C_PERM (i : Nat) : Fld := ⟨WIN_PART_C i, 7, 0⟩
def WIN_PART_C_RESIDENT (i : Nat) : Fld := ⟨WIN_PART_C i, 8, 8⟩
def WIN_PART_C_KEEP_ON_KILL (i : Nat) : Fld := ⟨WIN_PART_C i, 9, 9⟩
def WIN_PART_C_BIND_MASK (i : Nat) : Fld := ⟨WIN_PART_C i, 31, 16⟩
/-- WIN.STATE, R410. -/
def WIN_STATE (i : Nat) : Nat := dieReg 5 (268 + 16 * i)
def WIN_STATE_STATE (i : Nat) : Fld := ⟨WIN_STATE i, 2, 0⟩
def WIN_STATE_CTX (i : Nat) : Fld := ⟨WIN_STATE i, 7, 4⟩
def WIN_STATE_KGEN (i : Nat) : Fld := ⟨WIN_STATE i, 8, 8⟩
def WIN_STATE_KOWNER (i : Nat) : Fld := ⟨WIN_STATE i, 31, 16⟩
/-- CMX.HRP_APER, R427. -/
def CMX_HRP_APER : Nat := dieReg 10 (0)
def CMX_HRP_APER_BASE : Fld := ⟨CMX_HRP_APER, 7, 0⟩
def CMX_HRP_APER_SIZE : Fld := ⟨CMX_HRP_APER, 16, 8⟩
/-- CMX.CNT_CLR, R428. -/
def CMX_CNT_CLR : Nat := dieReg 10 (4)
def CMX_CNT_CLR_CLR : Fld := ⟨CMX_CNT_CLR, 3, 0⟩
def CMX_CNT_CLR_CLR_DEC : Fld := ⟨CMX_CNT_CLR, 4, 4⟩
/-- CMX.STAT, R428. -/
def CMX_STAT : Nat := dieReg 10 (8)
def CMX_STAT_LOCKED : Fld := ⟨CMX_STAT, 3, 0⟩
def CMX_STAT_MASKED : Fld := ⟨CMX_STAT, 16, 4⟩
/-- CMX.PARK, R428. -/
def CMX_PARK : Nat := dieReg 10 (12)
def CMX_PARK_ROM : Fld := ⟨CMX_PARK, 3, 0⟩
def CMX_PARK_MSRAM : Fld := ⟨CMX_PARK, 7, 4⟩
def CMX_PARK_NVMC : Fld := ⟨CMX_PARK, 11, 8⟩
def CMX_PARK_RGS : Fld := ⟨CMX_PARK, 15, 12⟩
/-- CMX.RDIE, R429. -/
def CMX_RDIE (i : Nat) : Nat := dieReg 10 (16 + 4 * i)
def CMX_RDIE_DIE (i : Nat) : Fld := ⟨CMX_RDIE i, 2, 0⟩
/-- CMX.DECODE_CNT, R430. -/
def CMX_DECODE_CNT : Nat := dieReg 10 (80)
def CMX_DECODE_CNT_COUNT : Fld := ⟨CMX_DECODE_CNT, 31, 0⟩
/-- CMX.T_GRANTS, R431. -/
def CMX_T_GRANTS (i : Nat) : Nat := dieReg 10 (256 + 16 * i)
def CMX_T_GRANTS_COUNT (i : Nat) : Fld := ⟨CMX_T_GRANTS i, 31, 0⟩
/-- CMX.T_WAIT, R431. -/
def CMX_T_WAIT (i : Nat) : Nat := dieReg 10 (260 + 16 * i)
def CMX_T_WAIT_COUNT (i : Nat) : Fld := ⟨CMX_T_WAIT i, 31, 0⟩
/-- CMX.T_LONGEST, R431. -/
def CMX_T_LONGEST (i : Nat) : Nat := dieReg 10 (264 + 16 * i)
def CMX_T_LONGEST_COUNT (i : Nat) : Fld := ⟨CMX_T_LONGEST i, 31, 0⟩
/-- MGT.MODE, R469. -/
def MGT_MODE : Nat := dieReg 11 (0)
def MGT_MODE_MODE : Fld := ⟨MGT_MODE, 0, 0⟩
def MGT_MODE_RECOVERING : Fld := ⟨MGT_MODE, 1, 1⟩
/-- MGT.DOORBELL, R469. -/
def MGT_DOORBELL : Nat := dieReg 11 (4)
def MGT_DOORBELL_SQ : Fld := ⟨MGT_DOORBELL, 0, 0⟩
/-- MGT.EMERG, R469. -/
def MGT_EMERG : Nat := dieReg 11 (20)
def MGT_EMERG_THERM : Fld := ⟨MGT_EMERG, 0, 0⟩
def MGT_EMERG_PWR : Fld := ⟨MGT_EMERG, 1, 1⟩
def MGT_EMERG_ANY : Fld := ⟨MGT_EMERG, 2, 2⟩
/-- MGT.HINT_STAT, R470. -/
def MGT_HINT_STAT : Nat := dieReg 11 (8)
def MGT_HINT_STAT_CMPL : Fld := ⟨MGT_HINT_STAT, 0, 0⟩
def MGT_HINT_STAT_EVT : Fld := ⟨MGT_HINT_STAT, 1, 1⟩
def MGT_HINT_STAT_RESTART : Fld := ⟨MGT_HINT_STAT, 2, 2⟩
def MGT_HINT_STAT_LOG_CE : Fld := ⟨MGT_HINT_STAT, 7, 4⟩
def MGT_HINT_STAT_LOG_UE : Fld := ⟨MGT_HINT_STAT, 11, 8⟩
def MGT_HINT_STAT_LOG_MGT : Fld := ⟨MGT_HINT_STAT, 15, 12⟩
/-- MGT.HINT_EN, R470. -/
def MGT_HINT_EN : Nat := dieReg 11 (12)
def MGT_HINT_EN_EN : Fld := ⟨MGT_HINT_EN, 3, 0⟩
/-- MGT.HINT_SET, R470. -/
def MGT_HINT_SET : Nat := dieReg 11 (16)
def MGT_HINT_SET_CMPL : Fld := ⟨MGT_HINT_SET, 0, 0⟩
def MGT_HINT_SET_EVT : Fld := ⟨MGT_HINT_SET, 1, 1⟩
/-- MGT.ACT, R471. -/
def MGT_ACT : Nat := dieReg 11 (24)
def MGT_ACT_ROLE : Fld := ⟨MGT_ACT, 1, 0⟩
def MGT_ACT_GO : Fld := ⟨MGT_ACT, 31, 31⟩
/-- MGT.ACT_STAT, R471. -/
def MGT_ACT_STAT : Nat := dieReg 11 (28)
def MGT_ACT_STAT_DONE : Fld := ⟨MGT_ACT_STAT, 0, 0⟩
def MGT_ACT_STAT_REJ : Fld := ⟨MGT_ACT_STAT, 1, 1⟩
/-- MGT.RESTART, R471. -/
def MGT_RESTART : Nat := dieReg 11 (32)
def MGT_RESTART_CORES : Fld := ⟨MGT_RESTART, 10, 0⟩
/-- MGT.RECOVER, R471. -/
def MGT_RECOVER : Nat := dieReg 11 (36)
def MGT_RECOVER_KEY : Fld := ⟨MGT_RECOVER, 15, 0⟩
/-- MGT.CORE_STAT, R471. -/
def MGT_CORE_STAT : Nat := dieReg 11 (40)
def MGT_CORE_STAT_IN_SERVICE : Fld := ⟨MGT_CORE_STAT, 10, 0⟩
def MGT_CORE_STAT_SLOT_B : Fld := ⟨MGT_CORE_STAT, 21, 11⟩
/-- MGT.SELF_HALT, R488. -/
def MGT_SELF_HALT : Nat := dieReg 11 (44)
def MGT_SELF_HALT_KEY : Fld := ⟨MGT_SELF_HALT, 15, 0⟩
/-- MGT.HALT_STAT, R488. -/
def MGT_HALT_STAT : Nat := dieReg 11 (48)
def MGT_HALT_STAT_HALTED : Fld := ⟨MGT_HALT_STAT, 10, 0⟩
/-- MGT.RESUME, R488. -/
def MGT_RESUME : Nat := dieReg 11 (52)
def MGT_RESUME_CORES : Fld := ⟨MGT_RESUME, 10, 0⟩
/-- MGT.REMAP, R432. -/
def MGT_REMAP (i : Nat) : Nat := dieReg 11 (256 + 4 * i)
def MGT_REMAP_REMAP (i : Nat) : Fld := ⟨MGT_REMAP i, 0, 0⟩
def MGT_REMAP_BASE (i : Nat) : Fld := ⟨MGT_REMAP i, 19, 12⟩
/-- MGT.WDT_CFG, R472. -/
def MGT_WDT_CFG (i : Nat) : Nat := dieReg 11 (512 + 16 * i)
def MGT_WDT_CFG_TIMEOUT (i : Nat) : Fld := ⟨MGT_WDT_CFG i, 15, 0⟩
def MGT_WDT_CFG_EN (i : Nat) : Fld := ⟨MGT_WDT_CFG i, 16, 16⟩
def MGT_WDT_CFG_DBG_PAUSE (i : Nat) : Fld := ⟨MGT_WDT_CFG i, 17, 17⟩
/-- MGT.WDT_KICK, R472. -/
def MGT_WDT_KICK (i : Nat) : Nat := dieReg 11 (516 + 16 * i)
def MGT_WDT_KICK_KEY (i : Nat) : Fld := ⟨MGT_WDT_KICK i, 15, 0⟩
/-- MGT.WDT_STAT, R472. -/
def MGT_WDT_STAT (i : Nat) : Nat := dieReg 11 (520 + 16 * i)
def MGT_WDT_STAT_RESTARTS (i : Nat) : Fld := ⟨MGT_WDT_STAT i, 15, 0⟩
def MGT_WDT_STAT_LAST (i : Nat) : Fld := ⟨MGT_WDT_STAT i, 18, 16⟩
def MGT_WDT_STAT_DOWN (i : Nat) : Fld := ⟨MGT_WDT_STAT i, 19, 19⟩
def MGT_WDT_STAT_FAILS (i : Nat) : Fld := ⟨MGT_WDT_STAT i, 21, 20⟩
/-- MGT.IMG_VER, R473. -/
def MGT_IMG_VER (i : Nat) : Nat := dieReg 11 (768 + 64 * i)
def MGT_IMG_VER_VERSION (i : Nat) : Fld := ⟨MGT_IMG_VER i, 31, 0⟩
/-- MGT.IMG_STAT, R473. -/
def MGT_IMG_STAT (i : Nat) : Nat := dieReg 11 (772 + 64 * i)
def MGT_IMG_STAT_STATE (i : Nat) : Fld := ⟨MGT_IMG_STAT i, 2, 0⟩
def MGT_IMG_STAT_SLOT (i : Nat) : Fld := ⟨MGT_IMG_STAT i, 3, 3⟩
def MGT_IMG_STAT_LAST_REJ (i : Nat) : Fld := ⟨MGT_IMG_STAT i, 11, 8⟩
/-- MGT.IMG_LEN, R473. -/
def MGT_IMG_LEN (i : Nat) : Nat := dieReg 11 (776 + 64 * i)
def MGT_IMG_LEN_LENGTH (i : Nat) : Fld := ⟨MGT_IMG_LEN i, 31, 0⟩
/-- MGT.IMG_STBY, R473. -/
def MGT_IMG_STBY (i : Nat) : Nat := dieReg 11 (780 + 64 * i)
def MGT_IMG_STBY_VERSION (i : Nat) : Fld := ⟨MGT_IMG_STBY i, 31, 0⟩
/-- MGT.IMG_DIG, R473. -/
def MGT_IMG_DIG (i j : Nat) : Nat := dieReg 11 (784 + 64 * i + 4 * j)
def MGT_IMG_DIG_DIGEST (i j : Nat) : Fld := ⟨MGT_IMG_DIG i j, 31, 0⟩
/-- PWR.CAB_CMD, R515. -/
def PWR_CAB_CMD : Nat := dieReg 2 (0)
def PWR_CAB_CMD_CAB : Fld := ⟨PWR_CAB_CMD, 6, 0⟩
def PWR_CAB_CMD_TARGET : Fld := ⟨PWR_CAB_CMD, 9, 8⟩
def PWR_CAB_CMD_GO : Fld := ⟨PWR_CAB_CMD, 31, 31⟩
/-- PWR.DIE_SLEEP, R515. -/
def PWR_DIE_SLEEP : Nat := dieReg 2 (4)
def PWR_DIE_SLEEP_GO : Fld := ⟨PWR_DIE_SLEEP, 0, 0⟩
/-- PWR.DIE_STAT, R515. -/
def PWR_DIE_STAT : Nat := dieReg 2 (8)
def PWR_DIE_STAT_WAKE_SRC : Fld := ⟨PWR_DIE_STAT, 3, 0⟩
def PWR_DIE_STAT_LAST_ABORT : Fld := ⟨PWR_DIE_STAT, 4, 4⟩
def PWR_DIE_STAT_SLEEPS : Fld := ⟨PWR_DIE_STAT, 31, 16⟩
/-- PWR.WAKE_ACK, R515. -/
def PWR_WAKE_ACK : Nat := dieReg 2 (12)
def PWR_WAKE_ACK_RTC : Fld := ⟨PWR_WAKE_ACK, 0, 0⟩
def PWR_WAKE_ACK_THERM_REL : Fld := ⟨PWR_WAKE_ACK, 1, 1⟩
/-- PWR.OP_CTL, R516. -/
def PWR_OP_CTL : Nat := dieReg 2 (16)
def PWR_OP_CTL_TGT : Fld := ⟨PWR_OP_CTL, 2, 0⟩
def PWR_OP_CTL_GO : Fld := ⟨PWR_OP_CTL, 31, 31⟩
/-- PWR.OP_STAT, R516. -/
def PWR_OP_STAT : Nat := dieReg 2 (20)
def PWR_OP_STAT_CUR : Fld := ⟨PWR_OP_STAT, 2, 0⟩
def PWR_OP_STAT_TGT : Fld := ⟨PWR_OP_STAT, 5, 3⟩
def PWR_OP_STAT_BUSY : Fld := ⟨PWR_OP_STAT, 6, 6⟩
def PWR_OP_STAT_DONE : Fld := ⟨PWR_OP_STAT, 7, 7⟩
def PWR_OP_STAT_RESULT : Fld := ⟨PWR_OP_STAT, 9, 8⟩
def PWR_OP_STAT_REJ : Fld := ⟨PWR_OP_STAT, 10, 10⟩
/-- PWR.VID_CFG, R516. -/
def PWR_VID_CFG : Nat := dieReg 2 (24)
def PWR_VID_CFG_TIMEOUT : Fld := ⟨PWR_VID_CFG, 15, 0⟩
def PWR_VID_CFG_VID : Fld := ⟨PWR_VID_CFG, 23, 16⟩
def PWR_VID_CFG_ACK : Fld := ⟨PWR_VID_CFG, 24, 24⟩
/-- PWR.OP, R517. -/
def PWR_OP (i : Nat) : Nat := dieReg 2 (32 + 4 * i)
def PWR_OP_VID (i : Nat) : Fld := ⟨PWR_OP i, 7, 0⟩
def PWR_OP_MULT (i : Nat) : Fld := ⟨PWR_OP i, 15, 8⟩
/-- PWR.LEAVE_BUDGET, R518. -/
def PWR_LEAVE_BUDGET : Nat := dieReg 2 (64)
def PWR_LEAVE_BUDGET_UNITS : Fld := ⟨PWR_LEAVE_BUDGET, 15, 0⟩
/-- PWR.LEAVE_STAT, R518. -/
def PWR_LEAVE_STAT : Nat := dieReg 2 (68)
def PWR_LEAVE_STAT_USED : Fld := ⟨PWR_LEAVE_STAT, 15, 0⟩
def PWR_LEAVE_STAT_WAITING : Fld := ⟨PWR_LEAVE_STAT, 25, 16⟩
/-- PWR.LEAVE_GRANTS, R518. -/
def PWR_LEAVE_GRANTS : Nat := dieReg 2 (72)
def PWR_LEAVE_GRANTS_COUNT : Fld := ⟨PWR_LEAVE_GRANTS, 31, 0⟩
/-- PWR.LEAVE_LONGEST, R518. -/
def PWR_LEAVE_LONGEST : Nat := dieReg 2 (76)
def PWR_LEAVE_LONGEST_NS : Fld := ⟨PWR_LEAVE_LONGEST, 31, 0⟩
/-- PWR.CLAMP_CFG, R519. -/
def PWR_CLAMP_CFG : Nat := dieReg 2 (80)
def PWR_CLAMP_CFG_N : Fld := ⟨PWR_CLAMP_CFG, 5, 0⟩
def PWR_CLAMP_CFG_M : Fld := ⟨PWR_CLAMP_CFG, 12, 6⟩
def PWR_CLAMP_CFG_MODE : Fld := ⟨PWR_CLAMP_CFG, 14, 13⟩
def PWR_CLAMP_CFG_EMERG_US : Fld := ⟨PWR_CLAMP_CFG, 31, 16⟩
/-- PWR.CLAMP_STAT, R519. -/
def PWR_CLAMP_STAT : Nat := dieReg 2 (84)
def PWR_CLAMP_STAT_ENGAGED : Fld := ⟨PWR_CLAMP_STAT, 0, 0⟩
def PWR_CLAMP_STAT_TRIP : Fld := ⟨PWR_CLAMP_STAT, 1, 1⟩
def PWR_CLAMP_STAT_LEADER : Fld := ⟨PWR_CLAMP_STAT, 2, 2⟩
/-- PWR.EST_CFG, R519. -/
def PWR_EST_CFG : Nat := dieReg 2 (88)
def PWR_EST_CFG_LIMIT : Fld := ⟨PWR_EST_CFG, 15, 0⟩
def PWR_EST_CFG_HYST : Fld := ⟨PWR_EST_CFG, 31, 16⟩
/-- PWR.EST_W, R519. -/
def PWR_EST_W : Nat := dieReg 2 (92)
def PWR_EST_W_E_BANK : Fld := ⟨PWR_EST_W, 15, 0⟩
def PWR_EST_W_E_FLIT : Fld := ⟨PWR_EST_W, 31, 16⟩
/-- PWR.EST_NOW, R519. -/
def PWR_EST_NOW : Nat := dieReg 2 (96)
def PWR_EST_NOW_W : Fld := ⟨PWR_EST_NOW, 15, 0⟩
/-- PWR.EMERG_CTL, R519. -/
def PWR_EMERG_CTL : Nat := dieReg 2 (100)
def PWR_EMERG_CTL_SET : Fld := ⟨PWR_EMERG_CTL, 0, 0⟩
def PWR_EMERG_CTL_CLR : Fld := ⟨PWR_EMERG_CTL, 1, 1⟩
/-- PWR.EMERG_STAT, R519. -/
def PWR_EMERG_STAT : Nat := dieReg 2 (104)
def PWR_EMERG_STAT_SW : Fld := ⟨PWR_EMERG_STAT, 0, 0⟩
def PWR_EMERG_STAT_HW_CLAMP : Fld := ⟨PWR_EMERG_STAT, 1, 1⟩
def PWR_EMERG_STAT_HW_VID : Fld := ⟨PWR_EMERG_STAT, 2, 2⟩
def PWR_EMERG_STAT_THERM : Fld := ⟨PWR_EMERG_STAT, 3, 3⟩
/-- PWR.REF_LAST, R520. -/
def PWR_REF_LAST : Nat := dieReg 2 (128)
def PWR_REF_LAST_CAB : Fld := ⟨PWR_REF_LAST, 6, 0⟩
def PWR_REF_LAST_TARGET : Fld := ⟨PWR_REF_LAST, 10, 8⟩
def PWR_REF_LAST_REASON : Fld := ⟨PWR_REF_LAST, 15, 12⟩
def PWR_REF_LAST_UNIT : Fld := ⟨PWR_REF_LAST, 19, 16⟩
def PWR_REF_LAST_ABORT : Fld := ⟨PWR_REF_LAST, 20, 20⟩
/-- PWR.REF_CNT, R520. -/
def PWR_REF_CNT (i : Nat) : Nat := dieReg 2 (388 + 4 * i)
def PWR_REF_CNT_COUNT (i : Nat) : Fld := ⟨PWR_REF_CNT i, 31, 0⟩
/-- PWR.ABT_CNT, R520. -/
def PWR_ABT_CNT (i : Nat) : Nat := dieReg 2 (452 + 4 * i)
def PWR_ABT_CNT_COUNT (i : Nat) : Fld := ⟨PWR_ABT_CNT i, 31, 0⟩
/-- PWR.CAB_STAT, R521. -/
def PWR_CAB_STAT (i : Nat) : Nat := dieReg 2 (256 + 4 * i)
def PWR_CAB_STAT_STATE0 (i : Nat) : Fld := ⟨PWR_CAB_STAT i, 1, 0⟩
def PWR_CAB_STAT_BUSY0 (i : Nat) : Fld := ⟨PWR_CAB_STAT i, 2, 2⟩
def PWR_CAB_STAT_LEAVE_WAIT0 (i : Nat) : Fld := ⟨PWR_CAB_STAT i, 3, 3⟩
def PWR_CAB_STAT_STATE1 (i : Nat) : Fld := ⟨PWR_CAB_STAT i, 5, 4⟩
def PWR_CAB_STAT_BUSY1 (i : Nat) : Fld := ⟨PWR_CAB_STAT i, 6, 6⟩
def PWR_CAB_STAT_LEAVE_WAIT1 (i : Nat) : Fld := ⟨PWR_CAB_STAT i, 7, 7⟩
def PWR_CAB_STAT_STATE2 (i : Nat) : Fld := ⟨PWR_CAB_STAT i, 9, 8⟩
def PWR_CAB_STAT_BUSY2 (i : Nat) : Fld := ⟨PWR_CAB_STAT i, 10, 10⟩
def PWR_CAB_STAT_LEAVE_WAIT2 (i : Nat) : Fld := ⟨PWR_CAB_STAT i, 11, 11⟩
def PWR_CAB_STAT_STATE3 (i : Nat) : Fld := ⟨PWR_CAB_STAT i, 13, 12⟩
def PWR_CAB_STAT_BUSY3 (i : Nat) : Fld := ⟨PWR_CAB_STAT i, 14, 14⟩
def PWR_CAB_STAT_LEAVE_WAIT3 (i : Nat) : Fld := ⟨PWR_CAB_STAT i, 15, 15⟩
def PWR_CAB_STAT_STATE4 (i : Nat) : Fld := ⟨PWR_CAB_STAT i, 17, 16⟩
def PWR_CAB_STAT_BUSY4 (i : Nat) : Fld := ⟨PWR_CAB_STAT i, 18, 18⟩
def PWR_CAB_STAT_LEAVE_WAIT4 (i : Nat) : Fld := ⟨PWR_CAB_STAT i, 19, 19⟩
def PWR_CAB_STAT_STATE5 (i : Nat) : Fld := ⟨PWR_CAB_STAT i, 21, 20⟩
def PWR_CAB_STAT_BUSY5 (i : Nat) : Fld := ⟨PWR_CAB_STAT i, 22, 22⟩
def PWR_CAB_STAT_LEAVE_WAIT5 (i : Nat) : Fld := ⟨PWR_CAB_STAT i, 23, 23⟩
def PWR_CAB_STAT_STATE6 (i : Nat) : Fld := ⟨PWR_CAB_STAT i, 25, 24⟩
def PWR_CAB_STAT_BUSY6 (i : Nat) : Fld := ⟨PWR_CAB_STAT i, 26, 26⟩
def PWR_CAB_STAT_LEAVE_WAIT6 (i : Nat) : Fld := ⟨PWR_CAB_STAT i, 27, 27⟩
def PWR_CAB_STAT_STATE7 (i : Nat) : Fld := ⟨PWR_CAB_STAT i, 29, 28⟩
def PWR_CAB_STAT_BUSY7 (i : Nat) : Fld := ⟨PWR_CAB_STAT i, 30, 30⟩
def PWR_CAB_STAT_LEAVE_WAIT7 (i : Nat) : Fld := ⟨PWR_CAB_STAT i, 31, 31⟩
/-- CLK.CFG, R522. -/
def CLK_CFG : Nat := dieReg 3 (0)
def CLK_CFG_DROOP_EN : Fld := ⟨CLK_CFG, 0, 0⟩
def CLK_CFG_DROOP_THR : Fld := ⟨CLK_CFG, 15, 8⟩
/-- CLK.SKEW_LAST, R522. -/
def CLK_SKEW_LAST : Nat := dieReg 3 (4)
def CLK_SKEW_LAST_REG_A : Fld := ⟨CLK_SKEW_LAST, 3, 0⟩
def CLK_SKEW_LAST_REG_B : Fld := ⟨CLK_SKEW_LAST, 7, 4⟩
/-- CLK.SKEW_CNT, R522. -/
def CLK_SKEW_CNT : Nat := dieReg 3 (8)
def CLK_SKEW_CNT_COUNT : Fld := ⟨CLK_SKEW_CNT, 31, 0⟩
/-- CLK.REG_STAT, R523. -/
def CLK_REG_STAT (i : Nat) : Nat := dieReg 3 (256 + 4 * i)
def CLK_REG_STAT_RUN (i : Nat) : Fld := ⟨CLK_REG_STAT i, 0, 0⟩
def CLK_REG_STAT_LOCKED (i : Nat) : Fld := ⟨CLK_REG_STAT i, 1, 1⟩
def CLK_REG_STAT_PLL_SEL (i : Nat) : Fld := ⟨CLK_REG_STAT i, 2, 2⟩
/-- CLK.STR_CNT, R523. -/
def CLK_STR_CNT (i : Nat) : Nat := dieReg 3 (320 + 4 * i)
def CLK_STR_CNT_COUNT (i : Nat) : Fld := ⟨CLK_STR_CNT i, 31, 0⟩
/-- TIM.NOW_LO, R524. -/
def TIM_NOW_LO : Nat := dieReg 4 (0)
def TIM_NOW_LO_NS : Fld := ⟨TIM_NOW_LO, 31, 0⟩
/-- TIM.NOW_HI, R524. -/
def TIM_NOW_HI : Nat := dieReg 4 (4)
def TIM_NOW_HI_NS : Fld := ⟨TIM_NOW_HI, 31, 0⟩
/-- TIM.SET_LO, R524. -/
def TIM_SET_LO : Nat := dieReg 4 (8)
def TIM_SET_LO_NS : Fld := ⟨TIM_SET_LO, 31, 0⟩
/-- TIM.SET_HI, R524. -/
def TIM_SET_HI : Nat := dieReg 4 (12)
def TIM_SET_HI_NS : Fld := ⟨TIM_SET_HI, 31, 0⟩
/-- TIM.BCN_STAT, R524. -/
def TIM_BCN_STAT : Nat := dieReg 4 (16)
def TIM_BCN_STAT_LAST_DIFF : Fld := ⟨TIM_BCN_STAT, 15, 0⟩
def TIM_BCN_STAT_STEPS : Fld := ⟨TIM_BCN_STAT, 31, 16⟩
/-- TIM.BCN_LOSS, R524. -/
def TIM_BCN_LOSS : Nat := dieReg 4 (20)
def TIM_BCN_LOSS_COUNT : Fld := ⟨TIM_BCN_LOSS, 31, 0⟩
/-- BRG.DROUTE, R564. -/
def BRG_DROUTE : Nat := dieReg 8 (0)
def BRG_DROUTE_BR_0 : Fld := ⟨BRG_DROUTE, 1, 0⟩
def BRG_DROUTE_V_0 : Fld := ⟨BRG_DROUTE, 2, 2⟩
def BRG_DROUTE_BR_1 : Fld := ⟨BRG_DROUTE, 4, 3⟩
def BRG_DROUTE_V_1 : Fld := ⟨BRG_DROUTE, 5, 5⟩
def BRG_DROUTE_BR_2 : Fld := ⟨BRG_DROUTE, 7, 6⟩
def BRG_DROUTE_V_2 : Fld := ⟨BRG_DROUTE, 8, 8⟩
def BRG_DROUTE_BR_3 : Fld := ⟨BRG_DROUTE, 10, 9⟩
def BRG_DROUTE_V_3 : Fld := ⟨BRG_DROUTE, 11, 11⟩
def BRG_DROUTE_BR_4 : Fld := ⟨BRG_DROUTE, 13, 12⟩
def BRG_DROUTE_V_4 : Fld := ⟨BRG_DROUTE, 14, 14⟩
def BRG_DROUTE_BR_5 : Fld := ⟨BRG_DROUTE, 16, 15⟩
def BRG_DROUTE_V_5 : Fld := ⟨BRG_DROUTE, 17, 17⟩
def BRG_DROUTE_BR_6 : Fld := ⟨BRG_DROUTE, 19, 18⟩
def BRG_DROUTE_V_6 : Fld := ⟨BRG_DROUTE, 20, 20⟩
def BRG_DROUTE_BR_7 : Fld := ⟨BRG_DROUTE, 22, 21⟩
def BRG_DROUTE_V_7 : Fld := ⟨BRG_DROUTE, 23, 23⟩
/-- BRG.STR, R564. -/
def BRG_STR : Nat := dieReg 8 (4)
def BRG_STR_S : Fld := ⟨BRG_STR, 15, 0⟩
def BRG_STR_T : Fld := ⟨BRG_STR, 31, 16⟩
/-- BRG.ATT, R565. -/
def BRG_ATT (i : Nat) : Nat := dieReg 8 (256 + 64 * i)
def BRG_ATT_CAB (i : Nat) : Fld := ⟨BRG_ATT i, 6, 0⟩
def BRG_ATT_V (i : Nat) : Fld := ⟨BRG_ATT i, 7, 7⟩
/-- BRG.CTL, R565. -/
def BRG_CTL (i : Nat) : Nat := dieReg 8 (260 + 64 * i)
def BRG_CTL_CMD (i : Nat) : Fld := ⟨BRG_CTL i, 1, 0⟩
def BRG_CTL_REJ (i : Nat) : Fld := ⟨BRG_CTL i, 2, 2⟩
/-- BRG.STAT, R565. -/
def BRG_STAT (i : Nat) : Nat := dieReg 8 (264 + 64 * i)
def BRG_STAT_STATE (i : Nat) : Fld := ⟨BRG_STAT i, 1, 0⟩
def BRG_STAT_CAUSE (i : Nat) : Fld := ⟨BRG_STAT i, 4, 2⟩
def BRG_STAT_LEAVE_WAIT (i : Nat) : Fld := ⟨BRG_STAT i, 5, 5⟩
def BRG_STAT_MODULES (i : Nat) : Fld := ⟨BRG_STAT i, 8, 6⟩
/-- BRG.CRC_CNT, R565. -/
def BRG_CRC_CNT (i : Nat) : Nat := dieReg 8 (268 + 64 * i)
def BRG_CRC_CNT_COUNT (i : Nat) : Fld := ⟨BRG_CRC_CNT i, 31, 0⟩
/-- BRG.RETRY_CNT, R565. -/
def BRG_RETRY_CNT (i : Nat) : Nat := dieReg 8 (272 + 64 * i)
def BRG_RETRY_CNT_COUNT (i : Nat) : Fld := ⟨BRG_RETRY_CNT i, 31, 0⟩
/-- BRG.LATE_CNT, R565. -/
def BRG_LATE_CNT (i : Nat) : Nat := dieReg 8 (276 + 64 * i)
def BRG_LATE_CNT_COUNT (i : Nat) : Fld := ⟨BRG_LATE_CNT i, 31, 0⟩
/-- BRG.MARGIN, R565. -/
def BRG_MARGIN (i : Nat) : Nat := dieReg 8 (280 + 64 * i)
def BRG_MARGIN_DIFF (i : Nat) : Fld := ⟨BRG_MARGIN i, 7, 0⟩
/-- EDG.CTL, R567. -/
def EDG_CTL (i : Nat) : Nat := dieReg 9 (0 + 64 * i)
def EDG_CTL_EN (i : Nat) : Fld := ⟨EDG_CTL i, 0, 0⟩
def EDG_CTL_WAKE_EN (i : Nat) : Fld := ⟨EDG_CTL i, 1, 1⟩
def EDG_CTL_HOME (i : Nat) : Fld := ⟨EDG_CTL i, 14, 8⟩
/-- EDG.STAT, R567. -/
def EDG_STAT (i : Nat) : Nat := dieReg 9 (4 + 64 * i)
def EDG_STAT_LINK_UP (i : Nat) : Fld := ⟨EDG_STAT i, 0, 0⟩
def EDG_STAT_IN_SERVICE (i : Nat) : Fld := ⟨EDG_STAT i, 1, 1⟩
def EDG_STAT_RXQ (i : Nat) : Fld := ⟨EDG_STAT i, 8, 2⟩
/-- EDG.UNKNOWN, R567. -/
def EDG_UNKNOWN (i : Nat) : Nat := dieReg 9 (8 + 64 * i)
def EDG_UNKNOWN_COUNT (i : Nat) : Fld := ⟨EDG_UNKNOWN i, 31, 0⟩
/-- EDG.MALFORMED, R567. -/
def EDG_MALFORMED (i : Nat) : Nat := dieReg 9 (12 + 64 * i)
def EDG_MALFORMED_COUNT (i : Nat) : Fld := ⟨EDG_MALFORMED i, 31, 0⟩
/-- EDG.CMD_A, R567. -/
def EDG_CMD_A (i : Nat) : Nat := dieReg 9 (16 + 64 * i)
def EDG_CMD_A_LOCAL (i : Nat) : Fld := ⟨EDG_CMD_A i, 31, 0⟩
/-- EDG.CMD_B, R567. -/
def EDG_CMD_B (i : Nat) : Nat := dieReg 9 (20 + 64 * i)
def EDG_CMD_B_REMOTE (i : Nat) : Fld := ⟨EDG_CMD_B i, 31, 0⟩
/-- EDG.CMD_C, R567. -/
def EDG_CMD_C (i : Nat) : Nat := dieReg 9 (24 + 64 * i)
def EDG_CMD_C_LEN_M1 (i : Nat) : Fld := ⟨EDG_CMD_C i, 15, 0⟩
def EDG_CMD_C_OP (i : Nat) : Fld := ⟨EDG_CMD_C i, 17, 16⟩
def EDG_CMD_C_PARTNER (i : Nat) : Fld := ⟨EDG_CMD_C i, 23, 18⟩
def EDG_CMD_C_CTX (i : Nat) : Fld := ⟨EDG_CMD_C i, 27, 24⟩
def EDG_CMD_C_GO (i : Nat) : Fld := ⟨EDG_CMD_C i, 31, 31⟩
/-- EDG.CMD_STAT, R567. -/
def EDG_CMD_STAT (i : Nat) : Nat := dieReg 9 (28 + 64 * i)
def EDG_CMD_STAT_QUEUED (i : Nat) : Fld := ⟨EDG_CMD_STAT i, 4, 0⟩
def EDG_CMD_STAT_REJ (i : Nat) : Fld := ⟨EDG_CMD_STAT i, 5, 5⟩
def EDG_CMD_STAT_LAST (i : Nat) : Fld := ⟨EDG_CMD_STAT i, 10, 8⟩
def EDG_CMD_STAT_DONE (i : Nat) : Fld := ⟨EDG_CMD_STAT i, 31, 16⟩
/-- EDG.PT_CFG, R568. -/
def EDG_PT_CFG (i : Nat) : Nat := dieReg 9 (4096 + 128 * i)
def EDG_PT_CFG_GW (i : Nat) : Fld := ⟨EDG_PT_CFG i, 1, 0⟩
def EDG_PT_CFG_VALID (i : Nat) : Fld := ⟨EDG_PT_CFG i, 2, 2⟩
def EDG_PT_CFG_CONF (i : Nat) : Fld := ⟨EDG_PT_CFG i, 3, 3⟩
def EDG_PT_CFG_HLM_REQ (i : Nat) : Fld := ⟨EDG_PT_CFG i, 4, 4⟩
def EDG_PT_CFG_PCTX (i : Nat) : Fld := ⟨EDG_PT_CFG i, 8, 5⟩
def EDG_PT_CFG_QLIMIT (i : Nat) : Fld := ⟨EDG_PT_CFG i, 23, 16⟩
def EDG_PT_CFG_RD_MAX (i : Nat) : Fld := ⟨EDG_PT_CFG i, 31, 24⟩
/-- EDG.PT_ID_LO, R568. -/
def EDG_PT_ID_LO (i : Nat) : Nat := dieReg 9 (4100 + 128 * i)
def EDG_PT_ID_LO_SERIAL (i : Nat) : Fld := ⟨EDG_PT_ID_LO i, 31, 0⟩
/-- EDG.PT_ID_HI, R568. -/
def EDG_PT_ID_HI (i : Nat) : Nat := dieReg 9 (4104 + 128 * i)
def EDG_PT_ID_HI_SERIAL (i : Nat) : Fld := ⟨EDG_PT_ID_HI i, 31, 0⟩
/-- EDG.PT_DIE, R568. -/
def EDG_PT_DIE (i : Nat) : Nat := dieReg 9 (4108 + 128 * i)
def EDG_PT_DIE_DIE (i : Nat) : Fld := ⟨EDG_PT_DIE i, 2, 0⟩
/-- EDG.PT_RATE, R568. -/
def EDG_PT_RATE (i : Nat) : Nat := dieReg 9 (4112 + 128 * i)
def EDG_PT_RATE_RATE (i : Nat) : Fld := ⟨EDG_PT_RATE i, 15, 0⟩
def EDG_PT_RATE_BURST (i : Nat) : Fld := ⟨EDG_PT_RATE i, 31, 16⟩
/-- EDG.PT_TIME, R568. -/
def EDG_PT_TIME (i : Nat) : Nat := dieReg 9 (4116 + 128 * i)
def EDG_PT_TIME_TIMEOUT (i : Nat) : Fld := ⟨EDG_PT_TIME i, 15, 0⟩
def EDG_PT_TIME_QWIN (i : Nat) : Fld := ⟨EDG_PT_TIME i, 31, 16⟩
/-- EDG.PT_WMASK_LO, R568. -/
def EDG_PT_WMASK_LO (i : Nat) : Nat := dieReg 9 (4120 + 128 * i)
def EDG_PT_WMASK_LO_WIN (i : Nat) : Fld := ⟨EDG_PT_WMASK_LO i, 31, 0⟩
/-- EDG.PT_WMASK_HI, R568. -/
def EDG_PT_WMASK_HI (i : Nat) : Nat := dieReg 9 (4124 + 128 * i)
def EDG_PT_WMASK_HI_WIN (i : Nat) : Fld := ⟨EDG_PT_WMASK_HI i, 31, 0⟩
/-- EDG.PT_KEY, R568. -/
def EDG_PT_KEY (i j : Nat) : Nat := dieReg 9 (4128 + 128 * i + 4 * j)
def EDG_PT_KEY_KEY (i j : Nat) : Fld := ⟨EDG_PT_KEY i j, 31, 0⟩
/-- EDG.PT_CTL, R568. -/
def EDG_PT_CTL (i : Nat) : Nat := dieReg 9 (4160 + 128 * i)
def EDG_PT_CTL_KEY_GO (i : Nat) : Fld := ⟨EDG_PT_CTL i, 0, 0⟩
def EDG_PT_CTL_CLEAR (i : Nat) : Fld := ⟨EDG_PT_CTL i, 1, 1⟩
/-- EDG.PT_STAT, R568. -/
def EDG_PT_STAT (i : Nat) : Nat := dieReg 9 (4164 + 128 * i)
def EDG_PT_STAT_STATE (i : Nat) : Fld := ⟨EDG_PT_STAT i, 1, 0⟩
def EDG_PT_STAT_QCAUSE (i : Nat) : Fld := ⟨EDG_PT_STAT i, 4, 2⟩
def EDG_PT_STAT_EPOCH (i : Nat) : Fld := ⟨EDG_PT_STAT i, 15, 8⟩
def EDG_PT_STAT_OUT (i : Nat) : Fld := ⟨EDG_PT_STAT i, 31, 16⟩
/-- EDG.PT_DROP, R568. -/
def EDG_PT_DROP (i : Nat) : Nat := dieReg 9 (4168 + 128 * i)
def EDG_PT_DROP_TAG (i : Nat) : Fld := ⟨EDG_PT_DROP i, 7, 0⟩
def EDG_PT_DROP_REPLAY (i : Nat) : Fld := ⟨EDG_PT_DROP i, 15, 8⟩
def EDG_PT_DROP_RATE (i : Nat) : Fld := ⟨EDG_PT_DROP i, 23, 16⟩
def EDG_PT_DROP_VIOL (i : Nat) : Fld := ⟨EDG_PT_DROP i, 31, 24⟩
/-- EDG.PT_RX_LO, R568. -/
def EDG_PT_RX_LO (i : Nat) : Nat := dieReg 9 (4172 + 128 * i)
def EDG_PT_RX_LO_RX_LAST (i : Nat) : Fld := ⟨EDG_PT_RX_LO i, 31, 0⟩
/-- EDG.PT_RX_HI, R568. -/
def EDG_PT_RX_HI (i : Nat) : Nat := dieReg 9 (4176 + 128 * i)
def EDG_PT_RX_HI_RX_LAST (i : Nat) : Fld := ⟨EDG_PT_RX_HI i, 31, 0⟩
/-- EDG.PT_TX_LO, R568. -/
def EDG_PT_TX_LO (i : Nat) : Nat := dieReg 9 (4180 + 128 * i)
def EDG_PT_TX_LO_TX_SEQ (i : Nat) : Fld := ⟨EDG_PT_TX_LO i, 31, 0⟩
/-- EDG.PT_TX_HI, R568. -/
def EDG_PT_TX_HI (i : Nat) : Nat := dieReg 9 (4184 + 128 * i)
def EDG_PT_TX_HI_TX_SEQ (i : Nat) : Fld := ⟨EDG_PT_TX_HI i, 31, 0⟩
/-- EDG.PT_PKTS, R568. -/
def EDG_PT_PKTS (i : Nat) : Nat := dieReg 9 (4188 + 128 * i)
def EDG_PT_PKTS_DOWN (i : Nat) : Fld := ⟨EDG_PT_PKTS i, 15, 0⟩
def EDG_PT_PKTS_LATE (i : Nat) : Fld := ⟨EDG_PT_PKTS i, 31, 16⟩
/-- HLM.BOOT_CTL, R592. -/
def HLM_BOOT_CTL : Nat := dieReg 12 (0)
def HLM_BOOT_CTL_BOOT_LOCK : Fld := ⟨HLM_BOOT_CTL, 0, 0⟩
def HLM_BOOT_CTL_STIME_SYNC : Fld := ⟨HLM_BOOT_CTL, 1, 1⟩
/-- HLM.BOOT_STAT, R592. -/
def HLM_BOOT_STAT : Nat := dieReg 12 (4)
def HLM_BOOT_STAT_STEP : Fld := ⟨HLM_BOOT_STAT, 3, 0⟩
def HLM_BOOT_STAT_STOPPED : Fld := ⟨HLM_BOOT_STAT, 4, 4⟩
def HLM_BOOT_STAT_CAUSE : Fld := ⟨HLM_BOOT_STAT, 15, 8⟩
def HLM_BOOT_STAT_DETAIL : Fld := ⟨HLM_BOOT_STAT, 31, 16⟩
/-- HLM.BIST_STAT, R592. -/
def HLM_BIST_STAT : Nat := dieReg 12 (8)
def HLM_BIST_STAT_REMAPS : Fld := ⟨HLM_BIST_STAT, 15, 0⟩
def HLM_BIST_STAT_RETIRED : Fld := ⟨HLM_BIST_STAT, 23, 16⟩
def HLM_BIST_STAT_FENCED : Fld := ⟨HLM_BIST_STAT, 31, 24⟩
/-- HLM.HLM_STAT, R593. -/
def HLM_HLM_STAT : Nat := dieReg 12 (12)
def HLM_HLM_STAT_VALID : Fld := ⟨HLM_HLM_STAT, 0, 0⟩
def HLM_HLM_STAT_CHANGING : Fld := ⟨HLM_HLM_STAT, 1, 1⟩
def HLM_HLM_STAT_SYNCED : Fld := ⟨HLM_HLM_STAT, 2, 2⟩
def HLM_HLM_STAT_MISMATCH : Fld := ⟨HLM_HLM_STAT, 15, 8⟩
def HLM_HLM_STAT_MISSING : Fld := ⟨HLM_HLM_STAT, 23, 16⟩
/-- HLM.CFG, R593. -/
def HLM_CFG : Nat := dieReg 12 (16)
def HLM_CFG_ROUND_EN : Fld := ⟨HLM_CFG, 0, 0⟩
/-- HLM.ROUNDS, R593. -/
def HLM_ROUNDS : Nat := dieReg 12 (20)
def HLM_ROUNDS_COUNT : Fld := ⟨HLM_ROUNDS, 31, 0⟩
/-- HLM.REC_LEN, R593. -/
def HLM_REC_LEN : Nat := dieReg 12 (24)
def HLM_REC_LEN_LEN : Fld := ⟨HLM_REC_LEN, 15, 0⟩
/-- HLM.HASH, R594. -/
def HLM_HASH (i : Nat) : Nat := dieReg 12 (256 + 4 * i)
def HLM_HASH_DIGEST (i : Nat) : Fld := ⟨HLM_HASH i, 31, 0⟩
/-- HLM.PEER, R594. -/
def HLM_PEER (i j : Nat) : Nat := dieReg 12 (512 + 64 * i + 4 * j)
def HLM_PEER_DIGEST (i j : Nat) : Fld := ⟨HLM_PEER i j, 31, 0⟩
/-- DBG.HALT, R605. -/
def DBG_HALT : Nat := dieReg 13 (0)
def DBG_HALT_HALT : Fld := ⟨DBG_HALT, 0, 0⟩
def DBG_HALT_HALTED : Fld := ⟨DBG_HALT, 1, 1⟩
/-- DBG.SESSION, R605. -/
def DBG_SESSION : Nat := dieReg 13 (4)
def DBG_SESSION_OPEN : Fld := ⟨DBG_SESSION, 0, 0⟩
def DBG_SESSION_COUNT : Fld := ⟨DBG_SESSION, 31, 16⟩
end R

/-- Block IDV, part 0. -/
def specIDV0 : List RegSpec := [
  { off := 0, flds := [(7, 0, .ro), (15, 8, .ro), (23, 16, .ro)] },
  { off := 4, flds := [(15, 0, .ro)] },
  { off := 8, flds := [(31, 0, .ro)] },
  { off := 12, flds := [(31, 0, .ro)] },
  { off := 16, flds := [(2, 0, .ro), (3, 3, .ro), (10, 4, .ro)] },
  { off := 20, flds := [(31, 0, .ro)] },
  { off := 64, flds := [(4, 0, .ro), (11, 8, .ro), (18, 16, .ro)] },
  { off := 68, flds := [(7, 0, .ro), (11, 8, .ro), (26, 16, .ro)] },
  { off := 72, flds := [(0, 0, .rw), (1, 1, .ro), (2, 2, .ro), (15, 8, .rw), (23, 16, .rw)] },
  { off := 76, flds := [(15, 0, .ro)] },
  { off := 256, n1 := 128, s1 := 4, flds := [(6, 0, .rw), (15, 15, .rw), (16, 16, .ro)] },
  { off := 768, n1 := 128, s1 := 4, flds := [(6, 0, .rw), (15, 15, .rw), (16, 16, .ro)] }]

/-- Block IDV, part 1. -/
def specIDV1 : List RegSpec := [
  { off := 1280, flds := [(0, 0, .rwl), (1, 1, .rwl), (15, 8, .rwl), (31, 16, .rwl)] },
  { off := 1284, flds := [(6, 0, .wo), (31, 31, .wo)] },
  { off := 1288, flds := [(7, 0, .rwl)] },
  { off := 1292, flds := [(31, 0, .rc)] },
  { off := 1296, n1 := 4, s1 := 4, flds := [(31, 0, .ro)] },
  { off := 1312, n1 := 4, s1 := 4, flds := [(31, 0, .w1c)] },
  { off := 1536, n1 := 128, s1 := 4, flds := [(2, 0, .ro), (5, 3, .ro), (31, 16, .ro)] },
  { off := 2048, n1 := 128, s1 := 4, flds := [(0, 0, .rw), (1, 1, .rw)] }]

/-- The registers of block IDV. -/
def specIDV : List RegSpec := specIDV0 ++ specIDV1

/-- Block LCT, part 0. -/
def specLCT0 : List RegSpec := [
  { off := 0, flds := [(7, 0, .ro)] },
  { off := 4, flds := [(7, 0, .rwl)] },
  { off := 8, flds := [(7, 0, .ro), (11, 8, .ro), (15, 12, .ro), (23, 16, .ro), (31, 24, .ro)] },
  { off := 12, flds := [(7, 0, .ro), (15, 8, .ro), (23, 16, .ro), (31, 24, .ro)] },
  { off := 16, flds := [(7, 0, .ro), (11, 8, .ro), (15, 12, .ro), (23, 16, .ro), (31, 24, .ro)] },
  { off := 20, flds := [(7, 0, .ro), (15, 8, .ro), (23, 16, .ro), (31, 24, .ro)] },
  { off := 24, flds := [(31, 0, .ro)] },
  { off := 28, flds := [(31, 0, .ro)] },
  { off := 32, flds := [(0, 0, .ro), (1, 1, .ro), (2, 2, .ro), (3, 3, .ro), (4, 4, .ro), (5, 5, .ro), (6, 6, .ro)] },
  { off := 36, flds := [(0, 0, .rw), (1, 1, .rw), (2, 2, .rw)] },
  { off := 40, flds := [(31, 0, .ro)] },
  { off := 44, flds := [(31, 0, .ro)] }]

/-- Block LCT, part 1. -/
def specLCT1 : List RegSpec := [
  { off := 48, flds := [(31, 0, .ro)] },
  { off := 256, n1 := 16, s1 := 4, flds := [(1, 0, .ro), (3, 2, .ro), (4, 4, .ro), (5, 5, .rw), (10, 8, .ro), (31, 16, .ro)] }]

/-- The registers of block LCT. -/
def specLCT : List RegSpec := specLCT0 ++ specLCT1

/-- Block SBD, part 0. -/
def specSBD0 : List RegSpec := [
  { off := 0, flds := [(0, 0, .rw), (1, 1, .ro), (2, 2, .rw)] },
  { off := 4, flds := [(5, 0, .ro), (11, 8, .ro), (15, 12, .ro), (19, 16, .ro)] },
  { off := 8, flds := [(0, 0, .w1c), (1, 1, .w1c), (2, 2, .w1c), (3, 3, .w1c)] },
  { off := 12, flds := [(31, 0, .ro)] },
  { off := 16, flds := [(31, 0, .rc)] },
  { off := 256, n1 := 32, s1 := 16, flds := [(16, 0, .ro), (17, 17, .ro), (18, 18, .ro)] },
  { off := 260, n1 := 32, s1 := 16, flds := [(16, 0, .ro)] },
  { off := 264, n1 := 32, s1 := 16, flds := [(17, 0, .ro)] }]

/-- The registers of block SBD. -/
def specSBD : List RegSpec := specSBD0

/-- Block CAB, part 0. -/
def specCAB0 : List RegSpec := [
  { off := 0, flds := [(0, 0, .ro), (3, 1, .ro)] },
  { off := 4, flds := [(31, 0, .rc)] },
  { off := 256, flds := [(0, 0, .ro), (1, 1, .ro), (2, 2, .ro), (3, 3, .ro), (4, 4, .ro), (5, 5, .ro), (8, 8, .ro), (9, 9, .ro), (21, 16, .ro), (29, 24, .ro)] },
  { off := 260, flds := [(7, 0, .rc), (15, 8, .rc), (23, 16, .rc), (31, 24, .rc)] },
  { off := 264, flds := [(7, 0, .rc), (15, 8, .rc), (23, 16, .rc), (31, 24, .rc)] },
  { off := 268, flds := [(7, 0, .rc), (15, 8, .rc), (23, 16, .rc), (31, 24, .rc)] },
  { off := 272, flds := [(0, 0, .w1c), (1, 1, .w1c), (2, 2, .w1c), (3, 3, .w1c)] }]

/-- The registers of block CAB. -/
def specCAB : List RegSpec := specCAB0

/-- Block ARB, part 0. -/
def specARB0 : List RegSpec := [
  { off := 0, flds := [(1, 0, .rw), (3, 2, .rw), (5, 4, .rw), (7, 6, .rw), (9, 8, .rw), (11, 10, .rw), (13, 12, .rw), (15, 14, .rw), (17, 16, .rw), (19, 18, .rw)] },
  { off := 4, flds := [(15, 0, .rw)] },
  { off := 8, flds := [(9, 0, .ro), (16, 16, .ro), (29, 20, .ro)] },
  { off := 12, flds := [(10, 0, .wo), (11, 11, .wo)] },
  { off := 16, flds := [(31, 0, .ro)] },
  { off := 256, n1 := 11, s1 := 16, flds := [(31, 0, .ro)] },
  { off := 260, n1 := 11, s1 := 16, flds := [(31, 0, .ro)] },
  { off := 264, n1 := 11, s1 := 16, flds := [(31, 0, .ro)] }]

/-- The registers of block ARB. -/
def specARB : List RegSpec := specARB0

/-- Block BNK, part 0. -/
def specBNK0 : List RegSpec := [
  { off := 0, flds := [(0, 0, .rw), (1, 1, .rw)] },
  { off := 4, flds := [(15, 0, .rw)] },
  { off := 8, flds := [(15, 0, .rw), (31, 16, .rw)] },
  { off := 12, flds := [(31, 0, .w1c)] },
  { off := 16, flds := [(15, 0, .ro), (31, 16, .ro)] },
  { off := 20, flds := [(0, 0, .wo), (1, 1, .wo), (2, 2, .wo), (3, 3, .wo), (4, 4, .wo)] },
  { off := 24, flds := [(31, 0, .ro)] },
  { off := 32, flds := [(15, 0, .rw), (20, 16, .rw), (25, 21, .rw), (29, 26, .rw)] },
  { off := 48, flds := [(16, 0, .rw)] },
  { off := 52, flds := [(16, 0, .rw)] },
  { off := 56, flds := [(0, 0, .w1s), (1, 1, .w1c), (2, 2, .w1c)] },
  { off := 256, n1 := 32, s1 := 4, flds := [(4, 0, .rw), (5, 5, .w1s), (6, 6, .ro), (12, 8, .rw), (13, 13, .w1s)] }]

/-- Block BNK, part 1. -/
def specBNK1 : List RegSpec := [
  { off := 512, n1 := 32, s1 := 4, flds := [(15, 0, .ro)] },
  { off := 4096, n1 := 32, s1 := 64, n2 := 9, s2 := 4, flds := [(15, 0, .ro), (31, 16, .ro)] }]

/-- The registers of block BNK. -/
def specBNK : List RegSpec := specBNK0 ++ specBNK1

/-- Block ERR, part 0. -/
def specERR0 : List RegSpec := [
  { off := 0, flds := [(3, 0, .ro), (7, 4, .ro), (11, 8, .ro)] },
  { off := 256, n1 := 4, s1 := 64, flds := [(0, 0, .ro), (1, 1, .ro), (31, 16, .ro)] },
  { off := 260, n1 := 4, s1 := 64, flds := [(0, 0, .wo), (1, 1, .wo), (2, 2, .rw), (3, 3, .rw)] },
  { off := 264, n1 := 4, s1 := 64, flds := [(31, 0, .rc)] },
  { off := 272, n1 := 4, s1 := 64, flds := [(7, 0, .ro), (12, 8, .ro), (19, 13, .ro), (24, 20, .ro), (29, 25, .ro)] },
  { off := 276, n1 := 4, s1 := 64, flds := [(15, 0, .ro), (19, 16, .ro), (20, 20, .ro), (21, 21, .ro)] },
  { off := 280, n1 := 4, s1 := 64, flds := [(31, 0, .ro)] },
  { off := 284, n1 := 4, s1 := 64, flds := [(31, 0, .ro)] },
  { off := 288, n1 := 4, s1 := 64, flds := [(31, 0, .ro)] },
  { off := 292, n1 := 4, s1 := 64, flds := [(31, 0, .ro)] },
  { off := 296, n1 := 4, s1 := 64, flds := [(7, 0, .ro), (12, 8, .ro), (19, 13, .ro), (24, 20, .ro), (29, 25, .ro)] },
  { off := 300, n1 := 4, s1 := 64, flds := [(15, 0, .ro), (19, 16, .ro), (20, 20, .ro), (21, 21, .ro)] }]

/-- Block ERR, part 1. -/
def specERR1 : List RegSpec := [
  { off := 304, n1 := 4, s1 := 64, flds := [(31, 0, .ro)] },
  { off := 308, n1 := 4, s1 := 64, flds := [(31, 0, .ro)] },
  { off := 312, n1 := 4, s1 := 64, flds := [(31, 0, .ro)] },
  { off := 316, n1 := 4, s1 := 64, flds := [(31, 0, .ro)] }]

/-- The registers of block ERR. -/
def specERR : List RegSpec := specERR0 ++ specERR1

/-- Block ASY, part 0. -/
def specASY0 : List RegSpec := [
  { off := 0, flds := [(16, 0, .rw)] },
  { off := 4, flds := [(16, 0, .rw)] },
  { off := 8, flds := [(0, 0, .w1s), (1, 1, .w1c), (2, 2, .w1c), (3, 3, .wo), (4, 4, .rw), (5, 5, .rw), (7, 6, .ro), (15, 8, .rw)] },
  { off := 16, flds := [(17, 0, .ro)] },
  { off := 20, flds := [(17, 0, .ro)] },
  { off := 24, flds := [(17, 0, .ro)] },
  { off := 28, flds := [(17, 0, .ro)] },
  { off := 32, flds := [(21, 0, .ro), (31, 31, .ro)] },
  { off := 36, flds := [(8, 0, .ro), (24, 16, .ro)] },
  { off := 40, flds := [(31, 0, .ro)] }]

/-- The registers of block ASY. -/
def specASY : List RegSpec := specASY0

/-- Block RMP, part 0. -/
def specRMP0 : List RegSpec := [
  { off := 0, flds := [(11, 0, .rw), (16, 12, .rw), (31, 31, .w1s)] },
  { off := 4, flds := [(0, 0, .w1c), (1, 1, .w1c), (3, 2, .ro), (4, 4, .ro)] },
  { off := 8, flds := [(31, 0, .ro)] },
  { off := 256, n1 := 32, s1 := 32, n2 := 8, s2 := 4, flds := [(11, 0, .ro), (12, 12, .ro), (13, 13, .ro), (15, 14, .ro)] }]

/-- The registers of block RMP. -/
def specRMP : List RegSpec := specRMP0

/-- Block SYN, part 0. -/
def specSYN0 : List RegSpec := [
  { off := 0, flds := [(6, 0, .ro), (12, 8, .ro), (20, 16, .ro)] },
  { off := 4, flds := [(8, 0, .wo), (31, 16, .wo)] },
  { off := 8, flds := [(15, 0, .wo), (16, 16, .ro)] },
  { off := 16, flds := [(31, 0, .wo)] },
  { off := 20, flds := [(15, 0, .wo), (24, 16, .wo)] },
  { off := 24, flds := [(31, 0, .rc)] },
  { off := 28, flds := [(0, 0, .w1c), (1, 1, .w1c), (2, 2, .w1c), (3, 3, .w1c), (4, 4, .w1c)] },
  { off := 256, n1 := 16, s1 := 16, flds := [(8, 0, .ro), (9, 9, .ro), (10, 10, .ro), (11, 11, .ro), (15, 12, .ro)] },
  { off := 260, n1 := 16, s1 := 16, flds := [(31, 0, .ro)] },
  { off := 264, n1 := 16, s1 := 16, flds := [(15, 0, .ro)] },
  { off := 1024, n1 := 64, s1 := 16, flds := [(3, 0, .rw), (4, 4, .rw), (5, 5, .rw), (6, 6, .rw), (7, 7, .ro)] },
  { off := 1028, n1 := 64, s1 := 16, flds := [(31, 0, .ro)] }]

/-- Block SYN, part 1. -/
def specSYN1 : List RegSpec := [
  { off := 1032, n1 := 64, s1 := 16, flds := [(15, 0, .ro)] },
  { off := 16384, n1 := 256, s1 := 16, flds := [(3, 0, .rw), (4, 4, .rw), (5, 5, .rw), (6, 6, .rw), (7, 7, .ro)] },
  { off := 16388, n1 := 256, s1 := 16, flds := [(31, 0, .ro)] },
  { off := 16392, n1 := 256, s1 := 16, flds := [(15, 0, .ro)] },
  { off := 20480, flds := [(19, 6, .rw)] },
  { off := 20484, flds := [(0, 0, .w1s), (1, 1, .w1c), (2, 2, .w1c), (3, 3, .ro), (4, 4, .rw)] }]

/-- The registers of block SYN. -/
def specSYN : List RegSpec := specSYN0 ++ specSYN1

/-- Block RUN, part 0. -/
def specRUN0 : List RegSpec := [
  { off := 0, flds := [(0, 0, .rw), (1, 1, .rw)] },
  { off := 4, flds := [(7, 0, .rw)] },
  { off := 8, flds := [(15, 0, .rw)] },
  { off := 12, flds := [(7, 0, .ro), (11, 8, .ro), (15, 12, .ro)] },
  { off := 256, n1 := 4, s1 := 64, flds := [(31, 0, .rw)] },
  { off := 260, n1 := 4, s1 := 64, flds := [(15, 0, .rw), (19, 16, .rw), (20, 20, .rw), (28, 21, .rw), (29, 29, .w1c), (31, 31, .wo)] },
  { off := 264, n1 := 4, s1 := 64, flds := [(3, 0, .ro), (6, 4, .ro), (23, 8, .ro), (27, 24, .ro)] },
  { off := 268, n1 := 4, s1 := 64, flds := [(0, 0, .wo)] },
  { off := 272, n1 := 4, s1 := 64, flds := [(7, 0, .ro), (11, 8, .ro), (15, 12, .ro), (31, 16, .ro)] },
  { off := 276, n1 := 4, s1 := 64, flds := [(15, 0, .ro), (17, 16, .ro), (18, 18, .ro), (20, 20, .ro), (23, 21, .ro)] },
  { off := 280, n1 := 4, s1 := 64, flds := [(15, 0, .ro), (31, 16, .ro)] },
  { off := 284, n1 := 4, s1 := 64, flds := [(31, 0, .ro)] }]

/-- Block RUN, part 1. -/
def specRUN1 : List RegSpec := [
  { off := 288, n1 := 4, s1 := 64, flds := [(0, 0, .wo)] },
  { off := 292, n1 := 4, s1 := 64, flds := [(15, 0, .rc), (31, 16, .rc)] }]

/-- The registers of block RUN. -/
def specRUN : List RegSpec := specRUN0 ++ specRUN1

/-- Block HFF, part 0. -/
def specHFF0 : List RegSpec := [
  { off := 0, flds := [(7, 0, .wo)] },
  { off := 4, flds := [(7, 0, .w1c), (15, 8, .rw)] },
  { off := 8, flds := [(7, 0, .w1c), (15, 8, .w1c)] },
  { off := 256, n1 := 8, s1 := 32, flds := [(4, 0, .rw), (9, 5, .rw), (11, 10, .rw), (12, 12, .rw), (19, 16, .rw), (20, 20, .rw), (21, 21, .ro)] },
  { off := 260, n1 := 8, s1 := 32, flds := [(18, 0, .rw)] },
  { off := 264, n1 := 8, s1 := 32, flds := [(4, 0, .ro), (5, 5, .ro), (6, 6, .ro), (7, 7, .ro), (8, 8, .ro), (31, 16, .ro)] },
  { off := 268, n1 := 8, s1 := 32, flds := [(15, 0, .rc), (31, 16, .rc)] },
  { off := 272, n1 := 8, s1 := 32, flds := [(15, 0, .rc), (31, 16, .rc)] }]

/-- The registers of block HFF. -/
def specHFF : List RegSpec := specHFF0

/-- Block CTX, part 0. -/
def specCTX0 : List RegSpec := [
  { off := 0, flds := [(3, 0, .wo), (6, 4, .wo)] },
  { off := 4, flds := [(15, 0, .rw)] },
  { off := 8, flds := [(0, 0, .w1c), (1, 1, .w1c), (5, 2, .ro)] },
  { off := 256, n1 := 16, s1 := 4, flds := [(2, 0, .ro), (5, 3, .ro), (6, 6, .ro), (31, 16, .ro)] },
  { off := 512, n1 := 16, s1 := 16, n2 := 4, s2 := 4, flds := [(31, 0, .ro)] },
  { off := 1024, n1 := 128, s1 := 4, flds := [(3, 0, .rw), (4, 4, .rw)] }]

/-- The registers of block CTX. -/
def specCTX : List RegSpec := specCTX0

/-- Block WIN, part 0. -/
def specWIN0 : List RegSpec := [
  { off := 0, flds := [(5, 0, .wo), (11, 8, .wo), (13, 12, .wo)] },
  { off := 4, flds := [(0, 0, .w1c), (1, 1, .w1c), (5, 2, .ro), (6, 6, .ro)] },
  { off := 8, flds := [(31, 0, .rc)] },
  { off := 256, n1 := 64, s1 := 16, flds := [(16, 0, .rwl)] },
  { off := 260, n1 := 64, s1 := 16, flds := [(16, 0, .rwl), (17, 17, .rwl)] },
  { off := 264, n1 := 64, s1 := 16, flds := [(7, 0, .rwl), (8, 8, .rwl), (9, 9, .rwl), (31, 16, .rwl)] },
  { off := 268, n1 := 64, s1 := 16, flds := [(2, 0, .ro), (7, 4, .ro), (8, 8, .ro), (31, 16, .ro)] }]

/-- The registers of block WIN. -/
def specWIN : List RegSpec := specWIN0

/-- Block CMX, part 0. -/
def specCMX0 : List RegSpec := [
  { off := 0, flds := [(7, 0, .rwl), (16, 8, .rwl)] },
  { off := 4, flds := [(3, 0, .wo), (4, 4, .wo)] },
  { off := 8, flds := [(3, 0, .ro), (16, 4, .ro)] },
  { off := 12, flds := [(3, 0, .ro), (7, 4, .ro), (11, 8, .ro), (15, 12, .ro)] },
  { off := 16, n1 := 13, s1 := 4, flds := [(2, 0, .rw)] },
  { off := 80, flds := [(31, 0, .rc)] },
  { off := 256, n1 := 4, s1 := 16, flds := [(31, 0, .ro)] },
  { off := 260, n1 := 4, s1 := 16, flds := [(31, 0, .ro)] },
  { off := 264, n1 := 4, s1 := 16, flds := [(31, 0, .ro)] }]

/-- The registers of block CMX. -/
def specCMX : List RegSpec := specCMX0

/-- Block MGT, part 0. -/
def specMGT0 : List RegSpec := [
  { off := 0, flds := [(0, 0, .ro), (1, 1, .ro)] },
  { off := 4, flds := [(0, 0, .wo)] },
  { off := 20, flds := [(0, 0, .ro), (1, 1, .ro), (2, 2, .ro)] },
  { off := 8, flds := [(0, 0, .w1c), (1, 1, .w1c), (2, 2, .w1c), (7, 4, .ro), (11, 8, .ro), (15, 12, .ro)] },
  { off := 12, flds := [(3, 0, .rw)] },
  { off := 16, flds := [(0, 0, .wo), (1, 1, .wo)] },
  { off := 24, flds := [(1, 0, .wo), (31, 31, .wo)] },
  { off := 28, flds := [(0, 0, .w1c), (1, 1, .w1c)] },
  { off := 32, flds := [(10, 0, .wo)] },
  { off := 36, flds := [(15, 0, .wo)] },
  { off := 40, flds := [(10, 0, .ro), (21, 11, .ro)] },
  { off := 44, flds := [(15, 0, .wo)] }]

/-- Block MGT, part 1. -/
def specMGT1 : List RegSpec := [
  { off := 48, flds := [(10, 0, .ro)] },
  { off := 52, flds := [(10, 0, .wo)] },
  { off := 256, n1 := 11, s1 := 4, flds := [(0, 0, .rw), (19, 12, .rw)] },
  { off := 512, n1 := 11, s1 := 16, flds := [(15, 0, .rw), (16, 16, .rw), (17, 17, .rw)] },
  { off := 516, n1 := 11, s1 := 16, flds := [(15, 0, .wo)] },
  { off := 520, n1 := 11, s1 := 16, flds := [(15, 0, .ro), (18, 16, .ro), (19, 19, .ro), (21, 20, .ro)] },
  { off := 768, n1 := 4, s1 := 64, flds := [(31, 0, .ro)] },
  { off := 772, n1 := 4, s1 := 64, flds := [(2, 0, .ro), (3, 3, .ro), (11, 8, .ro)] },
  { off := 776, n1 := 4, s1 := 64, flds := [(31, 0, .ro)] },
  { off := 780, n1 := 4, s1 := 64, flds := [(31, 0, .ro)] },
  { off := 784, n1 := 4, s1 := 64, n2 := 12, s2 := 4, flds := [(31, 0, .ro)] }]

/-- The registers of block MGT. -/
def specMGT : List RegSpec := specMGT0 ++ specMGT1

/-- Block PWR, part 0. -/
def specPWR0 : List RegSpec := [
  { off := 0, flds := [(6, 0, .wo), (9, 8, .wo), (31, 31, .wo)] },
  { off := 4, flds := [(0, 0, .wo)] },
  { off := 8, flds := [(3, 0, .ro), (4, 4, .ro), (31, 16, .ro)] },
  { off := 12, flds := [(0, 0, .ro), (1, 1, .ro)] },
  { off := 16, flds := [(2, 0, .wo), (31, 31, .wo)] },
  { off := 20, flds := [(2, 0, .ro), (5, 3, .ro), (6, 6, .ro), (7, 7, .w1c), (9, 8, .ro), (10, 10, .w1c)] },
  { off := 24, flds := [(15, 0, .rwl), (23, 16, .ro), (24, 24, .ro)] },
  { off := 32, n1 := 6, s1 := 4, flds := [(7, 0, .rwl), (15, 8, .ro)] },
  { off := 64, flds := [(15, 0, .rw)] },
  { off := 68, flds := [(15, 0, .ro), (25, 16, .ro)] },
  { off := 72, flds := [(31, 0, .rc)] },
  { off := 76, flds := [(31, 0, .rc)] }]

/-- Block PWR, part 1. -/
def specPWR1 : List RegSpec := [
  { off := 80, flds := [(5, 0, .rw), (12, 6, .rw), (14, 13, .rw), (31, 16, .rw)] },
  { off := 84, flds := [(0, 0, .ro), (1, 1, .ro), (2, 2, .ro)] },
  { off := 88, flds := [(15, 0, .rwl), (31, 16, .rwl)] },
  { off := 92, flds := [(15, 0, .rwl), (31, 16, .rwl)] },
  { off := 96, flds := [(15, 0, .ro)] },
  { off := 100, flds := [(0, 0, .wo), (1, 1, .wo)] },
  { off := 104, flds := [(0, 0, .ro), (1, 1, .ro), (2, 2, .ro), (3, 3, .ro)] },
  { off := 128, flds := [(6, 0, .ro), (10, 8, .ro), (15, 12, .ro), (19, 16, .ro), (20, 20, .ro)] },
  { off := 388, n1 := 12, s1 := 4, flds := [(31, 0, .rc)] },
  { off := 452, n1 := 12, s1 := 4, flds := [(31, 0, .rc)] },
  { off := 256, n1 := 16, s1 := 4, flds := [(1, 0, .ro), (2, 2, .ro), (3, 3, .ro), (5, 4, .ro), (6, 6, .ro), (7, 7, .ro), (9, 8, .ro), (10, 10, .ro), (11, 11, .ro), (13, 12, .ro), (14, 14, .ro), (15, 15, .ro), (17, 16, .ro), (18, 18, .ro), (19, 19, .ro), (21, 20, .ro), (22, 22, .ro), (23, 23, .ro), (25, 24, .ro), (26, 26, .ro), (27, 27, .ro), (29, 28, .ro), (30, 30, .ro), (31, 31, .ro)] }]

/-- The registers of block PWR. -/
def specPWR : List RegSpec := specPWR0 ++ specPWR1

/-- Block CLK, part 0. -/
def specCLK0 : List RegSpec := [
  { off := 0, flds := [(0, 0, .rw), (15, 8, .rwl)] },
  { off := 4, flds := [(3, 0, .ro), (7, 4, .ro)] },
  { off := 8, flds := [(31, 0, .rc)] },
  { off := 256, n1 := 16, s1 := 4, flds := [(0, 0, .ro), (1, 1, .ro), (2, 2, .ro)] },
  { off := 320, n1 := 16, s1 := 4, flds := [(31, 0, .rc)] }]

/-- The registers of block CLK. -/
def specCLK : List RegSpec := specCLK0

/-- Block TIM, part 0. -/
def specTIM0 : List RegSpec := [
  { off := 0, flds := [(31, 0, .ro)] },
  { off := 4, flds := [(31, 0, .ro)] },
  { off := 8, flds := [(31, 0, .rwl)] },
  { off := 12, flds := [(31, 0, .rwl)] },
  { off := 16, flds := [(15, 0, .ro), (31, 16, .ro)] },
  { off := 20, flds := [(31, 0, .rc)] }]

/-- The registers of block TIM. -/
def specTIM : List RegSpec := specTIM0

/-- Block BRG, part 0. -/
def specBRG0 : List RegSpec := [
  { off := 0, flds := [(1, 0, .rw), (2, 2, .rw), (4, 3, .rw), (5, 5, .rw), (7, 6, .rw), (8, 8, .rw), (10, 9, .rw), (11, 11, .rw), (13, 12, .rw), (14, 14, .rw), (16, 15, .rw), (17, 17, .rw), (19, 18, .rw), (20, 20, .rw), (22, 21, .rw), (23, 23, .rw)] },
  { off := 4, flds := [(15, 0, .ro), (31, 16, .ro)] },
  { off := 256, n1 := 8, s1 := 64, flds := [(6, 0, .rwl), (7, 7, .rwl)] },
  { off := 260, n1 := 8, s1 := 64, flds := [(1, 0, .wo), (2, 2, .w1c)] },
  { off := 264, n1 := 8, s1 := 64, flds := [(1, 0, .ro), (4, 2, .ro), (5, 5, .ro), (8, 6, .ro)] },
  { off := 268, n1 := 8, s1 := 64, flds := [(31, 0, .rc)] },
  { off := 272, n1 := 8, s1 := 64, flds := [(31, 0, .rc)] },
  { off := 276, n1 := 8, s1 := 64, flds := [(31, 0, .rc)] },
  { off := 280, n1 := 8, s1 := 64, flds := [(7, 0, .rc)] }]

/-- The registers of block BRG. -/
def specBRG : List RegSpec := specBRG0

/-- Block EDG, part 0. -/
def specEDG0 : List RegSpec := [
  { off := 0, n1 := 4, s1 := 64, flds := [(0, 0, .rw), (1, 1, .rw), (14, 8, .rwl)] },
  { off := 4, n1 := 4, s1 := 64, flds := [(0, 0, .ro), (1, 1, .ro), (8, 2, .ro)] },
  { off := 8, n1 := 4, s1 := 64, flds := [(31, 0, .rc)] },
  { off := 12, n1 := 4, s1 := 64, flds := [(31, 0, .rc)] },
  { off := 16, n1 := 4, s1 := 64, flds := [(31, 0, .rw)] },
  { off := 20, n1 := 4, s1 := 64, flds := [(31, 0, .rw)] },
  { off := 24, n1 := 4, s1 := 64, flds := [(15, 0, .wo), (17, 16, .wo), (23, 18, .wo), (27, 24, .wo), (31, 31, .wo)] },
  { off := 28, n1 := 4, s1 := 64, flds := [(4, 0, .ro), (5, 5, .w1c), (10, 8, .ro), (31, 16, .rc)] },
  { off := 4096, n1 := 64, s1 := 128, flds := [(1, 0, .rw), (2, 2, .rw), (3, 3, .rw), (4, 4, .rw), (8, 5, .rw), (23, 16, .rw), (31, 24, .rw)] },
  { off := 4100, n1 := 64, s1 := 128, flds := [(31, 0, .rw)] },
  { off := 4104, n1 := 64, s1 := 128, flds := [(31, 0, .rw)] },
  { off := 4108, n1 := 64, s1 := 128, flds := [(2, 0, .rw)] }]

/-- Block EDG, part 1. -/
def specEDG1 : List RegSpec := [
  { off := 4112, n1 := 64, s1 := 128, flds := [(15, 0, .rw), (31, 16, .rw)] },
  { off := 4116, n1 := 64, s1 := 128, flds := [(15, 0, .rw), (31, 16, .rw)] },
  { off := 4120, n1 := 64, s1 := 128, flds := [(31, 0, .rw)] },
  { off := 4124, n1 := 64, s1 := 128, flds := [(31, 0, .rw)] },
  { off := 4128, n1 := 64, s1 := 128, n2 := 8, s2 := 4, flds := [(31, 0, .wo)] },
  { off := 4160, n1 := 64, s1 := 128, flds := [(0, 0, .wo), (1, 1, .wo)] },
  { off := 4164, n1 := 64, s1 := 128, flds := [(1, 0, .ro), (4, 2, .ro), (15, 8, .ro), (31, 16, .ro)] },
  { off := 4168, n1 := 64, s1 := 128, flds := [(7, 0, .rc), (15, 8, .rc), (23, 16, .rc), (31, 24, .rc)] },
  { off := 4172, n1 := 64, s1 := 128, flds := [(31, 0, .ro)] },
  { off := 4176, n1 := 64, s1 := 128, flds := [(31, 0, .ro)] },
  { off := 4180, n1 := 64, s1 := 128, flds := [(31, 0, .ro)] },
  { off := 4184, n1 := 64, s1 := 128, flds := [(31, 0, .ro)] }]

/-- Block EDG, part 2. -/
def specEDG2 : List RegSpec := [
  { off := 4188, n1 := 64, s1 := 128, flds := [(15, 0, .rc), (31, 16, .rc)] }]

/-- The registers of block EDG. -/
def specEDG : List RegSpec := specEDG0 ++ specEDG1 ++ specEDG2

/-- Block HLM, part 0. -/
def specHLM0 : List RegSpec := [
  { off := 0, flds := [(0, 0, .w1s), (1, 1, .wo)] },
  { off := 4, flds := [(3, 0, .ro), (4, 4, .ro), (15, 8, .ro), (31, 16, .ro)] },
  { off := 8, flds := [(15, 0, .ro), (23, 16, .ro), (31, 24, .ro)] },
  { off := 12, flds := [(0, 0, .ro), (1, 1, .ro), (2, 2, .ro), (15, 8, .ro), (23, 16, .ro)] },
  { off := 16, flds := [(0, 0, .rw)] },
  { off := 20, flds := [(31, 0, .ro)] },
  { off := 24, flds := [(15, 0, .ro)] },
  { off := 256, n1 := 12, s1 := 4, flds := [(31, 0, .ro)] },
  { off := 512, n1 := 8, s1 := 64, n2 := 12, s2 := 4, flds := [(31, 0, .ro)] }]

/-- The registers of block HLM. -/
def specHLM : List RegSpec := specHLM0

/-- Block DBG, part 0. -/
def specDBG0 : List RegSpec := [
  { off := 0, flds := [(0, 0, .rw), (1, 1, .ro)] },
  { off := 4, flds := [(0, 0, .ro), (31, 16, .ro)] }]

/-- The registers of block DBG. -/
def specDBG : List RegSpec := specDBG0

/-- The registers of a block: R50 for a cabinet's local blocks, R51 for the die-global ones. A block number that is
not assigned has none (R48). -/
def blockSpecs (glob : Bool) (blk : Nat) : List RegSpec :=
  if glob then
    match blk with
    | 0 => specIDV
    | 1 => specERR
    | 2 => specPWR
    | 3 => specCLK
    | 4 => specTIM
    | 5 => specWIN
    | 6 => specCTX
    | 7 => specLCT
    | 8 => specBRG
    | 9 => specEDG
    | 10 => specCMX
    | 11 => specMGT
    | 12 => specHLM
    | 13 => specDBG
    | _ => []
  else
    match blk with
    | 0 => specCAB
    | 1 => specBNK
    | 2 => specRMP
    | 3 => specSYN
    | 4 => specRUN
    | 5 => specHFF
    | 6 => specSBD
    | 7 => specARB
    | 8 => specASY
    | _ => []

/-- Does the row place a register at offset `o`? (R48) -/
def RegSpec.covers (r : RegSpec) (o : Nat) : Bool :=
  let d := o - r.off
  decide (r.off ≤ o) && decide (d / r.s1 < r.n1) &&
    decide (d % r.s1 % r.s2 = 0) && decide (d % r.s1 / r.s2 < r.n2)

/-- The row that places a register at an offset of a block; none where the spec places none (R48). -/
def regSpec (glob : Bool) (blk o : Nat) : Option RegSpec :=
  (blockSpecs glob blk).find? (fun r => r.covers o)

/-- Reset values that are not zero (R9), as (die-global, block, offset of the first register, index ranges, value).
An "img" field reads zero before loading and a "tie" field is read from the ties. -/
def resetRows : List (Bool × Nat × RegSpec × Nat) := [
  (true, 0, { off := 0, flds := [] }, 0x30200),
  (true, 0, { off := 72, flds := [] }, 0x2),
  (true, 7, { off := 0, flds := [] }, 0x4),
  (true, 7, { off := 8, flds := [] }, 0x242C3204),
  (true, 7, { off := 12, flds := [] }, 0x3400850),
  (true, 7, { off := 16, flds := [] }, 0x1E1C3204),
  (true, 7, { off := 20, flds := [] }, 0x0340083E),
  (true, 7, { off := 36, flds := [] }, 0x1),
  (false, 6, { off := 0, flds := [] }, 0x1),
  (false, 7, { off := 0, flds := [] }, 0xB455A),
  (false, 7, { off := 4, flds := [] }, 0x100),
  (false, 1, { off := 0, flds := [] }, 0x2),
  (false, 1, { off := 4, flds := [] }, 0x400),
  (false, 1, { off := 8, flds := [] }, 0x640040),
  (true, 1, { off := 260, n1 := 4, s1 := 64, flds := [] }, 0x4),
  (false, 8, { off := 8, flds := [] }, 0x30),
  (false, 3, { off := 1024, n1 := 64, s1 := 16, flds := [] }, 0x20),
  (false, 3, { off := 16384, n1 := 256, s1 := 16, flds := [] }, 0x20),
  (false, 4, { off := 0, flds := [] }, 0x3),
  (false, 4, { off := 4, flds := [] }, 0xF),
  (false, 4, { off := 8, flds := [] }, 0x1000),
  (false, 5, { off := 256, n1 := 8, s1 := 32, flds := [] }, 0x30),
  (true, 11, { off := 12, flds := [] }, 0xF),
  (true, 11, { off := 512, n1 := 11, s1 := 16, flds := [] }, 0x203E8),
  (true, 2, { off := 80, flds := [] }, 0x1000),
  (true, 2, { off := 256, n1 := 16, s1 := 4, flds := [] }, 0x33333333),
  (true, 3, { off := 0, flds := [] }, 0x1),
  (true, 12, { off := 16, flds := [] }, 0x1)]

/-- The value of a register after PORST_N deasserts (R9). PWR.OP_n holds its REFCLK multiple in bits [15:8] (R517). -/
def resetVal (key : Nat) : BitVec 32 :=
  let off := key % 65536
  let blk := key / 65536 % 64
  let glob := decide (128 ≤ key / 65536 / 64)
  if glob && decide (blk = 2) && decide (32 ≤ off) && decide (off ≤ 52) then
    BitVec.ofNat 32 (256 * ([6, 10, 15, 20, 25, 30].getD ((off - 32) / 4) 0))
  else
    match resetRows.find? (fun r => r.1 == glob && r.2.1 == blk && r.2.2.1.covers off) with
    | some r => BitVec.ofNat 32 r.2.2.2
    | none => 0

end Sys2Proof.Machine
end

