-- ==== Sys2Proof/Machine/SMap.lean ====
section
/-! DEFINITION. Sparse tables in one canonical form: pairs of a key and a value, keys strictly rising, no entry equal to
what an unlisted key reads as. Equal tables are equal data. -/
namespace Sys2Proof.Machine

/-- A sparse table from numbers to `α`. -/
abbrev SMap (α : Type) := List (Nat × α)

/-- The value at `k`; `d` where nothing is listed. -/
def SMap.get {α : Type} (d : α) : SMap α → Nat → α
  | [], _ => d
  | (k', v) :: m, k => if k = k' then v else SMap.get d m k

/-- Remove every entry at `k`. -/
def SMap.erase {α : Type} : SMap α → Nat → SMap α
  | [], _ => []
  | (k', v) :: m, k => if k = k' then SMap.erase m k else (k', v) :: SMap.erase m k

/-- List `v` at `k`, keeping the keys rising. -/
def SMap.insert {α : Type} : SMap α → Nat → α → SMap α
  | [], k, v => [(k, v)]
  | (k', v') :: m, k, v =>
    if k = k' then (k, v) :: m
    else if k < k' then (k, v) :: (k', v') :: m
    else (k', v') :: SMap.insert m k v

/-- Write `v` at `k`: the entry goes when `v` is what an unlisted key reads as. -/
def SMap.set {α : Type} [DecidableEq α] (d : α) (m : SMap α) (k : Nat) (v : α) : SMap α :=
  if v = d then SMap.erase m k else SMap.insert m k v

/-- The canonical form: every key above `lo`, keys strictly rising, no entry equal to what its key reads as unlisted. -/
def SMap.wfFrom {α : Type} [DecidableEq α] (d : Nat → α) : Option Nat → SMap α → Bool
  | _, [] => true
  | lo, (k, v) :: m =>
    (match lo with
      | none => true
      | some l => decide (l < k)) && decide (v ≠ d k) && SMap.wfFrom d (some k) m

/-- The canonical form of a whole table. -/
def SMap.wf {α : Type} [DecidableEq α] (d : Nat → α) (m : SMap α) : Bool := SMap.wfFrom d none m

end Sys2Proof.Machine
end

