-- ==== Sys2Proof/Machine/State.lean ====
section
/-! DEFINITION. The state of one die of the fabric: plain data, every register, buffer, queue, counter, mode and pin the
spec names, the queue of waiting commands, and the agenda of the effects that fall due at a later fc. -/
namespace Sys2Proof.Machine

/-- Reasons for which the machine could stop with a fault. No command of this part stops that way: every breach the
fabric detects is logged and answered, so the type has no use beyond the interface. -/
inductive Fault where
  /-- Raised by no command; safe. -/
  | none
  deriving DecidableEq, Repr

/-- Reasons for which a command has no meaning. -/
inductive Refusal where
  /-- The command of that mnemonic is not modelled; safe. -/
  | notModelled (mnemonic : String)
  deriving DecidableEq, Repr

/-- What the integrator ties: grid (R25), INSTANCE_ID (R27), edge gateways and host DMA port (R546, R596, R598, R610), the JEP106
code of the IDCODE (R601), TMF_BOOT_VID (R569). Never written. -/
structure Ties where
  cols : Nat
  rows : Nat
  inst : Nat
  edges : Nat
  hdp : Bool
  hdpHome : Nat
  jep106 : Nat
  bootVid : Nat
  deriving DecidableEq, Repr

/-- Clocks an effect can fall due on: wall fc, unfrozen fc since reset, schedule time (R68), wall time in units, and
fabric time in units (R508). -/
inductive Clock where
  | wall | unfz | sched | real | fab
  deriving DecidableEq, Repr

/-- An effect due: when the clock reads at least `due`, the command joins the queue. -/
structure Due where
  clk : Clock
  due : Nat
  cmd : Instr
  deriving DecidableEq, Repr

/-- Time. `stime` is the schedule fc that this wall fc carries, or on a frozen fc the next one (R68). Wall time and
fabric time are counted in units of 1/300000 ns, in which the period of every operating point is whole. `left` is what
remains of the present fc, 0 when a new period is to begin; `stretch` lists the wall fc whose period is stretched (R506);
`slow` is how far fabric time is ahead of the beacons (R509). `ao` is fabric time at the last AO cycle and `part` the fast-clock periods elapsed
since then at their nominal length: what a read of TIM.NOW adds up (R508). -/
structure TimeSt where
  fc : Nat
  ufc : Nat
  stime : Nat
  real : Nat
  now : Nat
  left : Nat
  stretch : List Nat
  slow : Nat
  ao : Nat := 0
  part : Nat := 0
  deriving DecidableEq, Repr

/-- A freeze mark held (R77): origin, sequence number, still in force. -/
structure Mark where
  origin : Nat
  seq : Nat
  open' : Bool
  deriving DecidableEq, Repr

/-- The freeze unit (R72 to R79): sources whose line is high (FRZ is high while one is), freezes to begin and to end
with their wall fc, marks of other dies, this die's sequence number, frozen fc of the freeze in progress,
the level of FRZ_REQ and the fc of its last change, sources that fall on the fc after they rose (R73, R78). -/
structure FrzSt where
  lines : List FrzSrc
  starts : List (FrzSrc × Nat)
  ends : List (FrzSrc × Nat)
  marks : List Mark
  mySeq : Nat
  run : Nat
  reqPin : Bool
  reqNew : List (Nat × Bool)
  falls : List FrzSrc
  deriving DecidableEq, Repr

/-- Level of FRZ_REQ. -/
def FrzSt.pin (f : FrzSt) : Bool := (f.reqNew.getLast?.map (fun e => e.2)).getD f.reqPin

/-- A step not yet released (R83, R84): context, opening schedule fc, closing schedule fc once closed. -/
structure Step where
  ctx : Nat
  openAt : Nat
  closeAt : Option Nat
  deriving DecidableEq, Repr

/-- A runner list dispatched for a step (R87, R313): its dispatch data, when its step opened, whether SCH is to dispatch it again. -/
structure StepList where
  ctx : Nat
  cab : Nat
  run : Nat
  fa : Nat
  count : Nat
  tag : Nat
  openAt : Nat
  again : Bool
  deriving DecidableEq, Repr

/-- Steps and the pins STEP_REPLAY and STEP_FAULT (R72), as pairs of a context and, for a
replay, 0 once its bit is high and 1 before, for a fault the wall fc from which its bit is high; restart fc of each replay, with its attempt (R86); runner lists of
the steps that are not released; replay notices that this die has sent or forwarded as (context, attempt, restart fc) (R86); contexts that a stretch-skew error of a
frozen fc is to replay on the next unfrozen fc (R107). -/
structure StepSt where
  steps : List Step
  replayPin : List (Nat × Nat)
  faultPin : List (Nat × Nat)
  restart : List (Nat × Nat × Nat)
  lists : List StepList
  heard : List (Nat × Nat × Nat)
  skewed : List Nat
  deriving DecidableEq, Repr

/-- A look-ahead applied (R113, R123): port, cabinet, group, schedule fc of the issue it claims for. -/
structure Claim where
  port : SetPort
  cab : Nat
  grp : Nat
  at' : Nat
  deriving DecidableEq, Repr

/-- A presented wide access in a hold register (R114, R120); `id` names a write to drain sets from its presentation on; `upto` is the
schedule fc up to which its hold is counted in the slip (R100). -/
structure HoldReg where
  id : Nat
  port : SetPort
  cab : Nat
  addr : Nat
  dat : List W256
  dly : Nat
  since : Nat
  upto : Nat
  rel : Option Nat
  deriving DecidableEq, Repr

/-- Where the result of a set-class bank access goes: to a delivery of WRP, back to a requester as a flit; a write
carries the identifier that drain sets name. -/
inductive SetDest where
  | deliver (id : Nat)
  | flit (f : SFlit)
  | done (id : Nat)
  deriving DecidableEq, Repr

/-- A set-class access in bank occupancy (R54): it issued at schedule fc `at'` and holds its group for the two next; `dead` once a bank
collision has dropped it (R52). -/
structure SetOp where
  port : SetPort
  cab : Nat
  grp : Nat
  row : Nat
  at' : Nat
  wr : Option (List W256)
  ctx : Option Nat
  fa : Nat
  dest : SetDest
  dead : Bool := false
  deriving DecidableEq, Repr

/-- A word written by a set-class access: cabinet, bank, row, its issue fc, and what it held before (R55). -/
structure OldWord where
  cab : Nat
  bank : Nat
  row : Nat
  at' : Nat
  dat : W256
  zero : Bool
  deriving DecidableEq, Repr

/-- A WRP delivery to come (R117). -/
structure Deliv where
  id : Nat
  cab : Nat
  due : Nat
  ctx : Option Nat
  fa : Nat
  remote : Bool
  got : Bool
  dat : List W256
  zero : List Bool
  resp : Resp
  discard : Bool
  deriving DecidableEq, Repr

/-- Outputs presented by a port, with the wall fc on which they stand: WRP_*, WWP_RESP, NPx_C*, HFP_POP_*. -/
structure PortOut where
  at' : Nat
  tag : Nat
  dat : List W256
  zero : List Bool
  sb : Nat
  resp : Resp
  deriving DecidableEq, Repr

/-- A flit in a landing stage (R60); `hold`, while its release is held, is the schedule fc up to which the hold is counted in the slip
(R100). -/
structure Landed where
  cab : Nat
  f : SFlit
  hold : Option Nat
  arrived : Nat
  deriving DecidableEq, Repr

/-- The set class: claims, hold registers, accesses in occupancy, words just overwritten, deliveries, write responses
(cabinet, due, response), flits in transit, link slots used (cabinet, output, schedule fc, flit), landing stages, range
entries at count zero that still hold (cabinet, entry, end), slips keyed `cab * 3 + port` (R100), who
opened a range entry, keyed `cab * 32 + entry`: context + 1 and the schedule fc from which accesses are checked (R96), entries closed by a
command as (cabinet, base, limit, kind, schedule fc), which accesses of that fc are still checked against (R96). -/
structure SetSt where
  claims : List Claim
  holds : List HoldReg
  ops : List SetOp
  olds : List OldWord
  delivs : List Deliv
  wresps : List (Nat × Nat × Resp × Option Nat)
  flits : List SFlit
  slots : List (Nat × Nat × Nat × Nat)
  land : List Landed
  ending : List (Nat × Nat × Nat)
  slips : SMap Nat
  opener : SMap (Nat × Nat)
  closed : List (Nat × Nat × Nat × Nat × Nat)
  deriving DecidableEq, Repr

/-- An outstanding narrow or host DMA request (R125, R598). -/
structure PortReq where
  cab : Nat
  port : Nat
  tag : Nat
  id : Nat
  we : Bool
  fa : Nat
  gate : Nat
  ans : Option Ans
  deriving DecidableEq, Repr

/-- A loose request at a pair arbiter: its access, the unfrozen fc since which its wait grows while it is presented, the
wait gathered before, urgency (R154, R155); `shown` is one more than the unfrozen fc on which an abandoned burst took its place at the
head (R161). -/
structure PReq where
  acc : LReq
  presented : Bool
  since : Nat
  base : Nat
  urgent : Bool
  shown : Nat := 0
  deriving DecidableEq, Repr

/-- A loose burst in occupancy: requester, banks of the pair it covers, duration, last fc on the unfrozen clock, or on
the wall clock for DBG, the wait it had at its grant and the priority it was granted at (R159), whether it was urgent then (R165), the
unfrozen count of its first fc (R186), whether the whole word of a mixed write has committed (R128). -/
structure Burst where
  req : PReq
  b0 : Bool
  b1 : Bool
  dur : Nat
  from' : Nat
  last : Nat
  dbg : Bool
  wait : Nat
  prio : Nat
  urg : Bool
  u : Nat
  half : Bool := false
  deriving DecidableEq, Repr

/-- One bank pair (R148 to R164): requests waiting in order of arrival, bursts, the five round-robin pointers from
priority 0 to urgent, whether a decision is already on the agenda. -/
structure PairSt where
  queue : List PReq
  bursts : List Burst
  rr : List Nat
  armed : Bool
  deriving DecidableEq, Repr

/-- A pair at reset. -/
def PairSt.idle : PairSt := { queue := [], bursts := [], rr := [0, 0, 0, 0, 0], armed := false }

/-- The loose class: pairs keyed `cab * 16 + pair`, flits on the mesh, round-robin pointers of the link outputs keyed
`(cab * 4 + output) * 5 + level`, of the local injection queues likewise, the values of ARB.PRIO and ARB.AGE before a write
of this fc as (fc, value) by cabinet (R158, R159), next identifier (R248), outstanding requests of the narrow ports and
the host DMA port, answers that wait for the unit that asked, with their unfrozen fc, accesses that have gone or go toward
another die over a lane and are not answered yet, requests on the mesh that were withdrawn, or that a fence has answered, and that
are not performed (R164, R248), cabinets in which DBG has abandoned a burst on this fc (R161). -/
structure LooseSt where
  pairs : SMap PairSt
  flits : List LFlit
  outRr : SMap Nat
  injRr : SMap Nat
  prioWas : SMap (Nat × Nat)
  ageWas : SMap (Nat × Nat)
  nextId : Nat
  ports : List PortReq
  acked : List (LReq × Ans × Nat)
  far : List (LReq × Nat)
  recalled : List Nat
  cut : List Nat
  deriving DecidableEq, Repr

/-- Where a sweep range comes from (R194). -/
inductive SwpOrg where
  | reg | desc (cab r : Nat) | window (w : Nat) | wake
  deriving DecidableEq, Repr

/-- A sweep range of one cabinet: word indices, origin, and the slots still to do as (bank, first row, rows). -/
structure SwpRange where
  base : Nat
  limit : Nat
  org : SwpOrg
  todo : List (Nat × Nat × Nat)
  busy : Nat
  deriving DecidableEq, Repr

/-- A sweep engine (R193, R194): the running range and up to four pending ones. -/
structure SwpSt where
  run : Option SwpRange
  queue : List SwpRange
  deriving DecidableEq, Repr

/-- An assay pass (R230 to R235): leave granted, next word index, unfrozen fc of its start and of its next presentation,
reads outstanding as (pair, word) and
repairs outstanding as (bank, row). -/
structure AsyPass where
  started : Bool
  next : Nat
  t0 : Nat
  nextAt : Nat
  taken : Nat := 0
  out : List (Nat × Nat)
  repOut : List (Nat × Nat)
  aborted : Bool
  deriving DecidableEq, Repr

/-- Polling of a station (R244): misses in a row, the polls whose outcome is not counted yet in their order, by wall fc or none for one that was
answered, whether the station has fallen silent. -/
structure PollSt where
  miss : Nat
  open' : List (Option Nat)
  silent : Bool
  deriving DecidableEq, Repr

/-- Polling of a station that answers. -/
def PollSt.idle : PollSt := { miss := 0, open' := [], silent := false }

/-- Repair engines and fences: sweep engines, sweep ranges waiting at their origin (R194), assay passes, fences to take effect (cabinet, cause, wall fc), cabinets to quench, polls, the place in the order of all fc (R68) from which the retirement
`(cab * 32 + bank) * 2 + k` is in force (R186), automatic retirements to record on the next fc as (cabinet, bank, macro) (R187), the start-up set latched at BOOT_LOCK (R37), a map rebuild due (R38), the windows released for it as a mask (R403), fabric times of each cabinet's last leave grant and last DONE of a pass (R236). -/
structure RepairSt where
  swp : SMap SwpSt
  swpWait : List (Nat × SwpRange)
  asy : SMap (Option AsyPass)
  fences : List (Nat × Nat × Nat)
  quench : List Nat
  polls : SMap PollSt
  retFrom : SMap Nat
  retDue : List (Nat × Nat × Nat)
  startSet : List Nat
  rebuild : Bool
  lost : Nat
  asyAt : SMap (Nat × Nat)
  deriving DecidableEq, Repr

/-- A detected error on its way into its log (R205, R208). -/
structure ErrRec where
  kind : Nat
  req : Nat
  cab : Option Nat
  bank : Nat := 0
  sym : Nat := 31
  ctx : Option Nat := none
  addr : Nat := 0
  data : Nat := 0
  time : Nat := 0
  deriving DecidableEq, Repr

/-- What waits to leave on the bridges: a content, the lane to leave on, none for all attached lanes, and the lane it
must not use. -/
structure TxItem where
  item : SlotItem
  lane : Option Nat
  skip : Option Nat
  deriving DecidableEq, Repr

/-- The sync unit (R260 to R310): signals between issue and application in order of issue, writes not yet drained as
(identifier, cabinet, port), next signal identifier, the shadows of die-global counters keyed `cab * 256 + counter` and
their updates to come as (counter, unfrozen fc, value), wake wires that have been raised as (`cab * 16 + waiter`, the wall
fc from which they are high), capacity used as (unit, unfrozen fc, count), the fabric time at which an open set path closes
by cabinet, comparisons that a set by hand asked for as (`cab * 16 + waiter`, wall fc), the next record of a running dump, whether the freeze has
ended since the dump started (R300), outcomes of the
signals of edge gateways as (signal, status of R549), increments of the present fc as (counter, unfrozen fc, increment), writes of this die's
ports that have entered a lane, for the drain sets that a receiver completes (R277). -/
structure SynSt where
  signals : List Sig
  undrained : List (Nat × Nat × Nat)
  crossed : List (Nat × Nat × Nat)
  nextSig : Nat
  shadows : SMap Nat
  shadowQ : List (Nat × Nat × Nat)
  wires : List (Nat × Nat)
  used : List (Nat × Nat × Nat)
  setUntil : SMap Nat
  byHand : List (Nat × Nat)
  dump : Option Nat
  thawed : Bool
  edgeDone : List (Nat × Nat)
  applied : List (Nat × Nat × Nat)
  deriving DecidableEq, Repr

/-- An item of a handoff FIFO (R202, R360): eight words, the number of cells of each word's codeword that have flipped, the three
cells of each of the flags FIRST, LAST and IDLE. -/
structure Item where
  dat : List W64
  flips : List Nat
  firstCells : BitVec 3
  lastCells : BitVec 3
  idleCells : BitVec 3
  deriving DecidableEq, Repr

/-- A handoff FIFO (R361 to R379): its 16 stages from the head, the item pushed on the present fc, PUSH_OPEN, IN_PKT,
DROPPING, whether the dropped packet is still open on the push side (R369), PEND, whether the gate of R368 is open, the unfrozen fc of the last operation with the level at its start, and
whether that fc had a push, and a pop or drop. -/
structure Fifo where
  stages : List (Option Item)
  entering : Option Item
  pushOpen : Bool
  inPkt : Bool
  dropping : Bool
  dropOpen : Bool
  pend : Nat
  gate : Bool
  stamp : Nat
  level0 : Nat
  didPush : Bool
  didPop : Bool
  deriving DecidableEq, Repr

/-- An empty FIFO. -/
def Fifo.idle : Fifo :=
  { stages := List.replicate 16 none, entering := none, pushOpen := false, inPkt := false, dropping := false, dropOpen := false, pend := 0, gate := false, stamp := 0, level0 := 0, didPush := false, didPop := false }

/-- Inputs of a port HFP (R133, R137, R363): one more than the unfrozen fc of the last ones, the push of that fc as (FIFO, item) and
whether it has been taken, its pop or drop as (FIFO, parity error, drop) and whether it has been taken, the pops and drops held
while the cabinet wakes and the one of this fc among them; runners whose ESG_ABORT is still to be shown, one fc for each ENGINE stage (R341, R353). -/
structure HfpIn where
  stamp : Nat
  push : Option (Nat × Item)
  donePush : Bool
  pop : Option (Nat × Bool × Bool)
  donePop : Bool
  held : List (Nat × Bool × Bool)
  asked : Option (Nat × Bool × Bool)
  aborts : List Nat
  deriving DecidableEq, Repr

/-- A port HFP with no input. -/
def HfpIn.idle : HfpIn := { stamp := 0, push := none, donePush := false, pop := none, donePop := false, held := [], asked := none, aborts := [] }

/-- A piece of a descriptor's stream: position in it, length, source and destination address, the identifier of its access
in progress, whether its data has arrived and whether its write is presented (R315). -/
structure Piece where
  pos : Nat
  len : Nat
  src : Nat
  dst : Nat
  id : Nat
  ready : Bool
  writing : Bool
  dat : List Byte
  deriving DecidableEq, Repr

/-- A receiver of a multicast (R347, R348): its number, its logical cabinet, its unacknowledged items as (item, accesses
outstanding), whether it has lapsed, the unfrozen fc since which its lapse timer counts. -/
structure Rx where
  num : Nat
  cab : Nat
  unacked : List (Nat × List Nat)
  lapsed : Bool
  since : Option Nat
  deriving DecidableEq, Repr

/-- A descriptor in progress (R321 to R340): its index and words, context, the list it belongs to as (cabinet, runner), its
stage in a fused command with the hand-overs it pops and pushes, the next stream position to present, pieces in
flight in stream order, the block of indices read last as (block address, bytes) and the access reading one, bytes taken or
collected between items, items popped and pushed, the multicast's receivers, whether the first segments of its next item have been sent
and the second ones have not, writes not known to be drained, whether it has been abandoned. -/
structure Work where
  idx : Nat
  desc : Nat
  ctx : Nat
  list : Nat × Nat
  stage : Option Nat
  inF : Option Nat
  outF : Option Nat
  pos : Nat
  pieces : List Piece
  idxBlk : Option (Nat × List Byte)
  idxId : Nat
  buf : List Byte
  popped : Nat
  pushed : Nat
  rx : List Rx
  half : Bool
  writes : List Nat
  halted : Bool
  deriving DecidableEq, Repr

/-- Phases of a fused command (R342 to R344). -/
inductive FusePhase where
  | reserve | engines | running | barrier | waiting
  deriving DecidableEq, Repr

/-- A fused command (R338 to R346): index and words of its header, the words of its stages, hand-overs, phase, what is still
to do in the phase (ENGINE stages to present, dies to signal), whether a start is presented on ESG, ENGINE stages accepted
and not done, the unfrozen fc of its request, whether the request is aged, how many hand-overs return to the pool later. -/
structure Fuse where
  idx : Nat
  desc : Nat
  chain : List Nat
  hand : List Nat
  phase : FusePhase
  todo : List Nat
  esg : Bool
  running : List Nat
  since : Nat
  aged : Bool
  esgFrom : Nat := 0
  deriving DecidableEq, Repr

/-- A completion record (R334, R335, R359). -/
structure Cmpl where
  tag : Nat
  ctx : Nat
  status : Nat
  done : Nat
  failIndex : Nat
  failResp : Nat
  sigref : Bool
  lapsed : Nat
  lapseIndex : Nat
  failAddr : Nat
  deriving DecidableEq, Repr

/-- A runner list (R312 to R314): dispatch data, whether its signals are held for a step, next descriptor to fetch,
fetches outstanding as (access, index), descriptors fetched and not started as (index, words), the next index to start,
indices beyond it that were stolen, started and not complete, how many are complete, the anchor in progress, whether it has
ended before its end, the record it will give, the schedule fc on which its step opened. -/
structure RunList where
  fa : Nat
  count : Nat
  ctx : Nat
  step : Bool
  held : Bool
  tag : Nat
  next : Nat
  fetching : List (Nat × Nat)
  buf : List (Nat × Nat)
  started : Nat
  gone : List Nat
  live : List Nat
  done : Nat
  anchor : Option Nat
  ended : Bool
  rec' : Cmpl
  openAt : Nat := 0
  deriving DecidableEq, Repr

/-- A descriptor validated and about to start: index, words, its list, whether it waits for leave. -/
structure Start where
  idx : Nat
  desc : Nat
  list : Nat × Nat
  leave : Bool
  deriving DecidableEq, Repr

/-- A stolen descriptor on its way (R350): victim, index and words. -/
structure Theft where
  list : Nat × Nat
  idx : Nat
  desc : Nat
  deriving DecidableEq, Repr

/-- A waiter registered by a runner: descriptor index, the unfrozen fc of its limit (R329, R343). -/
structure RunWait where
  idx : Nat
  limit : Option Nat
  deriving DecidableEq, Repr

/-- A runner (R311, R336): queued lists, the running list, descriptors in progress, its fused command, the descriptor
about to start, its wait, the index of a sweep in progress, the status of an abort in progress, completion records, the
unfrozen fc of the last progress (R346), whose turn it is among stages, a stolen descriptor on its way, the unfrozen fc of the
last steal from it, hand-overs that return to the pool later as (FIFO, wall fc), accesses of lapsed receivers of a multicast that is
complete, which the list still waits for (R334), the status and the wall fc of an abort that a fault or a replay of the list's context brings
about (R353). -/
structure RunSt where
  queue : List RunList
  run : Option RunList
  works : List Work
  fuse : Option Fuse
  start : Option Start
  wait : Option RunWait
  sweep : Option Nat
  abort : Option Nat
  cmpl : List Cmpl
  moved : Nat
  turn : Nat
  theft : Option Theft
  robbed : Option Nat
  returning : List (Nat × Nat)
  stray : List Nat
  doomed : Option (Nat × Nat) := none
  deriving DecidableEq, Repr

/-- A runner with nothing to do. -/
def RunSt.idle : RunSt :=
  { queue := [], run := none, works := [], fuse := none, start := none, wait := none, sweep := none, abort := none, cmpl := [], moved := 0, turn := 0, theft := none, robbed := none, returning := [], stray := [] }

/-- Phases of a cabinet's transition (R479, R483). -/
inductive PwrPhase where
  | check | drain | commit | leave | refuse
  deriving DecidableEq, Repr

/-- A transition of a cabinet: target and former state, its phase, when the phase began: a wall fc, for the commit into Hold or
Quench a wall time. `refuse` is a command that found another one BUSY; `job` marks a command of a PSTATE submission (R498). -/
structure PwrCmd where
  cab : Nat
  target : Nat
  from' : Nat
  phase : PwrPhase
  at' : Nat
  job : Bool := false
  deriving DecidableEq, Repr

/-- Who holds or awaits leave (R499). -/
inductive LeaveFor where
  | desc (cab r : Nat)
  | assay (cab : Nat)
  | sweepDesc (cab r : Nat)
  | window (w : Nat)
  | wake (cab : Nat)
  | train (lane : Nat)
  | bist (stage : Nat)
  deriving DecidableEq, Repr

/-- A leave request: who, units, wall time of the request (R500). -/
structure LeaveReq where
  who : LeaveFor
  units : Nat
  since : Nat
  deriving DecidableEq, Repr

/-- Leave (R499, R500): requests waiting in order of arrival, the wall fc since which the head's conditions hold, units
held and by whom. -/
structure LeaveSt where
  queue : List LeaveReq
  ready : Option Nat
  held : List (LeaveFor × Nat)
  deriving DecidableEq, Repr

/-- Phases of the die's sleep (R486, R493); `asked` is from the request to its check. -/
inductive SleepPhase where
  | awake | asked | check | drain | commit | asleep | waking
  deriving DecidableEq, Repr

/-- A privileged wake input and its acknowledgement (R491, R492): whether the level is high, the wall time at which the
acknowledgement follows it, a rise that a commit has hidden. -/
structure PinSt where
  high : Bool
  ackAt : Option Nat
  hidden : Bool
  deriving DecidableEq, Repr

/-- This die's part of an operating-point change (R496): old and new point, whether it waits for the toggle of VID_ACK, the wall
time at which the idle PLL is locked, whether the toggle has come. -/
structure OpSt where
  old : Nat
  new : Nat
  vid : Bool
  lockAt : Nat
  acked : Bool
  deriving DecidableEq, Repr

/-- A change as die 0 follows it (R496, R497): target and old point, the reports received, whether every die is being returned. -/
structure OpPkg where
  target : Nat
  old : Nat
  reports : List (Nat × Nat)
  back : Bool
  deriving DecidableEq, Repr

/-- Power (R474 to R510): transitions of cabinets in progress, aborts of the present fc with their reason and wall fc (R481), the reason of each
cabinet's last refusal or abort of a command of PSTATE, wakes under way
as wall time due and whether the wake sweep runs, the die's sleep with the wall time at which its phase ends, latched wake
sources, the source of the last wake, wall time of falling asleep and the time asleep in ns, RTC_ALARM and THERM_TRIP_N, the
operating-point change here and as die 0 follows it, bank accesses and link flits of this µs, the number of the µs last
estimated, how the estimate of each die stands to its limits (R502), quiet periods of the clamp, the fabric time from which it has been engaged, beacons: wall
time and value of the last one, the wall time from which no emergency is flagged (R464). -/
structure PwrSt where
  cmds : List PwrCmd
  abt : List (PwrCmd × Nat × Nat) := []
  res : SMap Nat
  wakes : SMap (Nat × Bool)
  sleep : SleepPhase
  sleepDue : Nat
  latched : List Nat
  src : Nat
  sleptAt : Nat
  slept : Nat
  rtc : PinSt
  therm : PinSt
  op : Option OpSt
  pkg : Option OpPkg
  accs : Nat
  flits : Nat
  estAt : Nat
  ests : SMap Nat
  calm : Nat
  engagedAt : Option Nat
  bcnAt : Nat
  bcnVal : Option Nat
  anyAt : Nat
  deriving DecidableEq, Repr

/-- A kill in progress (R398): context, stage (0 written, 1 closing and quiescing, 2 quiesced, 3 sweeping), the unfrozen fc on
which its next phase can begin. -/
structure Kill where
  ctx : Nat
  stage : Nat
  due : Nat
  deriving DecidableEq, Repr

/-- A BIND of this fc (R404): window, context, wall fc, what WIN.STATE of the window and WIN.BIND_STAT held before it. -/
structure Bound where
  win : Nat
  ctx : Nat
  fc : Nat
  state : W32
  stat : W32
  deriving DecidableEq, Repr

/-- Contexts and windows (R384 to R404): kills in progress, the UNBIND or RELEASE in progress as (window, OP), the binds of the present
fc. -/
structure CtxSt where
  kills : List Kill
  busy : Option (Nat × Nat)
  binds : List Bound
  deriving DecidableEq, Repr

/-- A wire slot at a lane's receiver (R531 to R534): its number, the wall fc of its first check, the wall fc on which it is
ready once it passed, failed checks, whether a bridge freeze waits for it, its contents. -/
structure RxSlot where
  seq : Nat
  first : Nat
  ready : Option Nat
  fails : Nat
  late : Bool
  slot : WireSlot
  deriving DecidableEq, Repr

/-- One end of a lane: next number to send, slots of the replay buffer as (slot, wall fc of its last sending, NAKs), numbers to
resend, next number to deliver, slots received, NAKs given as (number, wall fc), wall fc of the last slot that passed, credits
left, credits to return (R528 to R535). -/
structure Lane where
  next : Nat
  replay : List (WireSlot × Nat × Nat)
  resend : List Nat
  want : Nat
  rx : List RxSlot
  naks : List (Nat × Nat)
  good : Nat
  credits : Nat
  back : Nat
  deriving DecidableEq, Repr

/-- A lane end that has just come up. -/
def Lane.idle : Lane := { next := 0, replay := [], resend := [], want := 0, rx := [], naks := [], good := 0, credits := 64, back := 0 }

/-- The bridges: lanes by number `2b + l`, this die's lane-down sequence number and the notices it holds (R543), sideband
messages that have arrived for this die. -/
structure BrgSt where
  lanes : SMap Lane
  downSeq : Nat
  notices : List (Nat × Nat)
  inbox : List Sideband
  deriving DecidableEq, Repr

/-- An inbound access of a gateway (R554): partner, TYPE, REQ_ID, address and length, bursts outstanding as (access, position in
the data), worst response so far, data read, its signal. -/
structure InAcc where
  part : Nat
  typ : Nat
  reqId : Nat
  fa : Nat
  len : Nat
  ids : List (Nat × Nat)
  resp : Resp
  dat : List Byte
  sig : Option Nat
  deriving DecidableEq, Repr

/-- An outbound packet that waits for the link (R547, R559): its partner, the wall time from which it waits, the wall time at
which the link takes it once it is presented. -/
structure TxPkt where
  pkt : Packet
  part : Nat
  since : Nat
  take : Option Nat
  deriving DecidableEq, Repr

/-- A packet of a command that awaits its response: REQ_ID, position in the data, length, wall time at which it was sent. -/
structure OutPkt where
  reqId : Nat
  off : Nat
  len : Nat
  sent : Nat
  deriving DecidableEq, Repr

/-- A command of a gateway (R558): OP, length, partner, context, local and remote side; once started, the position of the next
packet, the local accesses outstanding as (access, position), the data read for the packet in preparation, packets awaiting
responses. -/
structure EdgeCmd where
  op : Nat
  len : Nat
  part : Nat
  ctx : Nat
  loc : Nat
  remote : Nat
  started : Bool
  off : Nat
  ids : List (Nat × Nat)
  prep : Option (List Byte)
  out : List OutPkt
  deriving DecidableEq, Repr

/-- An edge gateway: commands in order, inbound accesses, packets to send, the packet sent last, next REQ_ID, partners answered
with HELLO since the link came up (R547 to R560). -/
structure Gateway where
  cmds : List EdgeCmd
  ins : List InAcc
  tx : List TxPkt
  shown : Option Packet
  nextReq : Nat
  helloed : List Nat
  deriving DecidableEq, Repr

/-- A gateway with nothing to do. -/
def Gateway.idle : Gateway := { cmds := [], ins := [], tx := [], shown := none, nextReq := 0, helloed := [] }

/-- A partner beside its registers: the key in force, bucket units with the fabric µs they stand for, quarantine count, wall
times of the last packet that passed step 4 of R553 and of the last packet sent to it. -/
structure PartSt where
  key : List W32
  bucket : Nat
  stamp : Nat
  quar : Nat
  heard : Nat
  spoke : Nat
  deriving DecidableEq, Repr

/-- A partner entry at reset. -/
def PartSt.idle : PartSt := { key := [], bucket := 0, stamp := 0, quar := 0, heard := 0, spoke := 0 }

/-- The edge gateways and partners. -/
structure EdgeSt where
  gws : SMap Gateway
  parts : SMap PartSt
  deriving DecidableEq, Repr

/-- A submission taken from the ring and not completed yet (R445): its index, OP, TAG, context byte, whether it waits for all
earlier ones, its executor as core index, the 64 bytes of its entry, how far it has come (0 not started), what it still waits for,
a number it keeps, the fabric time of its start. -/
structure Job where
  idx : Nat
  op : Nat
  tag : Nat
  ctx : Nat
  after : Bool
  core : Nat
  ent : List Byte
  stage : Nat
  todo : List Nat
  acc : Nat
  t0 : Nat
  deriving DecidableEq, Repr

/-- A restart in progress (R455): core, cause code, slot 0 or 1, wall time of the masking, whether it has been released, whether
it is the second attempt. -/
structure Restart where
  core : Nat
  cause : Nat
  slot : Nat
  at' : Nat
  live : Bool
  retried : Bool
  deriving DecidableEq, Repr

/-- What restarts several cores one after the other: an activation of a role or its revert (R465), the role split (R584). -/
inductive SeqKind where
  | act | revert | split
  deriving DecidableEq, Repr

/-- Such a sequence: its role, cores still to do, the core that restarts now. -/
structure CoreSeq where
  kind : SeqKind
  role : Nat
  todo : List Nat
  cur : Option Nat
  deriving DecidableEq, Repr

/-- What is recorded of a firmware slot: version, body length, digest (R462, R473). -/
structure Slot where
  version : Nat
  len : Nat
  digest : Nat
  deriving DecidableEq, Repr

/-- A slot that holds nothing. -/
def Slot.empty : Slot := { version := 0, len := 0, digest := 0 }

/-- The management complex beside its registers and MSRAM (R433 to R473): submissions in progress, completions to post as
(core, bytes 0 to 47), event sequence number, rings found bad, a doorbell not served yet, fabric time of each core's last kick and
since when watchdogs are paused for a debug halt, fabric time at which cores halted, cores that will halt, restarts, sequences of
restarts, slots keyed `role * 2 + slot`, end of a probation by role, outcome of a role's activation (1 done, 2 reverted, 3
abandoned, 4 down), a recovery (0 none, 1 waiting, 2 loading, 3 splitting) and the wall time at which it has loaded, the cycle on which each
bit of HINT_STAT last rose, the entry that each core's journal keeps as (ring, index, bytes), cores that come back and have not yet looked at
their OPEN words (R458). -/
structure MgtSt where
  jobs : List Job
  posts : List (Nat × List Byte)
  evSeq : Nat
  bad : List Nat
  bell : Bool
  kicks : SMap Nat
  hold : Option Nat
  haltAt : SMap Nat
  halting : List Nat
  restarts : List Restart
  seqs : List CoreSeq
  slots : SMap Slot
  prob : SMap Nat
  outcome : SMap Nat
  recover : Nat
  recoverAt : Nat
  hints : SMap Nat
  journal : SMap (Nat × Nat × List Byte) := []
  reopen : List Nat := []
  deriving DecidableEq, Repr

/-- A transfer that a master has presented (R413): the master's index, plus 16 for each die above a remote one (R415), target 0 to 3
or 4 for a decode miss, direction, locked sequence, local address, strobes, data, the cycle on which the rules of R420 released it;
once granted, none when its response is to be discarded (R424). -/
structure CmxReq where
  m : Nat
  tgt : Nat
  write : Bool
  lock : Bool
  la : Nat
  str : Nat
  dat : Nat
  rel : Option Nat
  deriving DecidableEq, Repr

/-- A transfer that has been granted and not answered (R420): the transfer, the identifier of its loose access, or one more than the die a control read has gone to, its answer and the
cycle of it, the wall fc of a control access that its station leaves unanswered. -/
structure CmxOut where
  req : CmxReq
  id : Nat
  ans : Option (Nat × Resp)
  due : Nat
  lost : Option Nat
  deriving DecidableEq, Repr

/-- The control matrix beside its registers (R418 to R424): transfers presented, outstanding ones in order, locks as (target, master,
local address; 2^32 plus the cycle of its end for one that has ended on this cycle), for each target its pointer, the grant that starts on the next cycle as (transfer, cycle), the cycle of the next
decision, the cycle after the last one counted as a wait, the cycle after that on which masking moved its park to SEC (R425). -/
structure CmxSt where
  waiting : List CmxReq
  out : List CmxOut
  locks : List (Nat × Nat × Nat)
  ptr : SMap Nat
  starting : List (CmxReq × Nat)
  next : SMap Nat
  waitFrom : SMap Nat
  moved : SMap Nat
  deriving DecidableEq, Repr

/-- Start-up and Hallmark beside their registers (R569 to R588): the action due next (0 while PORST_N is low) and the wall time from
which it may run, the outcomes of the flash's SFDP and of the signatures, whether the toggle of VID_ACK has come, cabinets under
BIST and its stage, fences by BIST, cabinets to wake, minimum versions of the roles, the flash area each role booted from, the end
of a Hallmark computation, dies heard since the last round instant, the last round instant, consecutive differing rounds by die,
whether a start mark has been forwarded, the PACKAGE, DIE and PARTNERS sections of the verified image, the words read from die 0 so
far and the wall time until which a path to it is awaited (R581). -/
structure BootSt where
  stage : Nat
  due : Nat
  sfdp : Bool
  sig : Bool
  vid : Bool
  cabs : List Nat
  bist : Nat
  fences : List Nat
  wake : List Nat
  minVer : List Nat
  areas : SMap Nat
  hallAt : Option Nat
  hallRec : List Byte
  heard : List Nat
  roundAt : Nat
  differ : SMap Nat
  mark : Option Nat
  img : List (List Byte)
  got : List W32
  limit : Nat
  deriving DecidableEq, Repr

/-- The test access port and the debug port (R599 to R604): the instruction register's code, whether a transfer of DBG_ACC is
outstanding, its outcome not yet captured, the 106 bits captured last. -/
structure TestSt where
  ir : Nat
  busy : Bool
  done : Option (Nat × Resp)
  captured : Nat
  deriving DecidableEq, Repr

/-- The state of one die. `counted` holds the events that counters which a write clears have counted on the present fc, or cycle, as (one
more than it, events), keyed by field (R169, R218, R431). -/
structure State where
  pending : List Instr
  agenda : List Due
  time : TimeSt
  ties : Ties
  regs : SMap W32
  mem : List Host.Cell
  valid : SMap (BitVec 3)
  freeCtr : Nat
  detected : List ErrRec
  events : List (Nat × Nat × Nat)
  hiLatch : List (Nat × Nat × W32)
  loHeld : List (Nat × Nat × W32)
  counted : SMap (Nat × Nat)
  present : List PresPort
  presWait : List (PresPort × Bool × Nat)
  outs : SMap PortOut
  frz : FrzSt
  stp : StepSt
  set : SetSt
  loose : LooseSt
  rep : RepairSt
  syn : SynSt
  fifos : SMap Fifo
  hfp : SMap HfpIn
  runners : SMap RunSt
  pwr : PwrSt
  ctx : CtxSt
  brg : BrgSt
  edg : EdgeSt
  leave : LeaveSt
  masked : List Nat
  tx : List TxItem
  mgt : MgtSt
  cmx : CmxSt
  boot : BootSt
  test : TestSt
  deriving DecidableEq, Repr

/-- The queues and engines that start empty: gathered so that `State.reset` stays readable. -/
def State.blank (t : Ties) : State :=
  { pending := []
    agenda := []
    time := { fc := 0, ufc := 0, stime := 0, real := 0, now := 0, left := 0, stretch := [], slow := 0 }
    ties := t
    regs := []
    mem := []
    valid := []
    freeCtr := 0
    detected := []
    events := []
    hiLatch := []
    loHeld := []
    counted := []
    present := []
    presWait := []
    outs := []
    frz := { lines := [], starts := [], ends := [], marks := [], mySeq := 0, run := 0, reqPin := false, reqNew := [], falls := [] }
    stp := { steps := [], replayPin := [], faultPin := [], restart := [], lists := [], heard := [], skewed := [] }
    set := { claims := [], holds := [], ops := [], olds := [], delivs := [], wresps := [], flits := [], slots := [], land := [], ending := [], slips := [], opener := [], closed := [] }
    loose := { pairs := [], flits := [], outRr := [], injRr := [], prioWas := [], ageWas := [], nextId := t.inst % 8 + 8, ports := [], acked := [], far := [], recalled := [], cut := [] }
    rep := { swp := [], swpWait := [], asy := [], fences := [], quench := [], polls := [], retFrom := [], retDue := [], startSet := [], rebuild := false, lost := 0, asyAt := [] }
    syn := { signals := [], undrained := [], crossed := [], nextSig := t.inst % 8 + 8, shadows := [], shadowQ := [], wires := [], used := [], setUntil := [], byHand := [], dump := none, thawed := false, edgeDone := [], applied := [] }
    fifos := []
    hfp := []
    runners := []
    pwr := { cmds := [], res := [], wakes := [], sleep := .awake, sleepDue := 0, latched := [], src := 0, sleptAt := 0, slept := 0, rtc := { high := false, ackAt := none, hidden := false }, therm := { high := true, ackAt := none, hidden := false }, op := none, pkg := none, accs := 0, flits := 0, estAt := 0, ests := [], calm := 0, engagedAt := none, bcnAt := 0, bcnVal := none, anyAt := 0 }
    ctx := { kills := [], busy := none, binds := [] }
    brg := { lanes := [], downSeq := 0, notices := [], inbox := [] }
    edg := { gws := [], parts := [] }
    leave := { queue := [], ready := none, held := [] }
    masked := [0, 1, 2, 3, 4, 5, 6, 7, 8, 9, 10]
    tx := []
    mgt := { jobs := [], posts := [], evSeq := 0, bad := [], bell := false, kicks := [], hold := none, haltAt := [], halting := [], restarts := [], seqs := [], slots := [], prob := [], outcome := [], recover := 0, recoverAt := 0, hints := [] }
    cmx := { waiting := [], out := [], locks := [], ptr := [], starting := [], next := [], waitFrom := [], moved := [] }
    boot := { stage := 0, due := 0, sfdp := false, sig := false, vid := false, cabs := [], bist := 0, fences := [], wake := [], minVer := [], areas := [], hallAt := none, hallRec := [], heard := [], roundAt := 0, differ := [], mark := none, img := [], got := [], limit := 0 }
    test := { ir := 1, busy := false, done := none, captured := 0 } }

/-- The ties of `State.reset`: a full grid of 16 by 8 cabinets, die 0, no gateways, no host DMA port (DESIGN CHOICE: the integrator
chooses them). -/
def Ties.default : Ties := { cols := 16, rows := 8, inst := 0, edges := 0, hdp := false, hdpHome := 0, jep106 := 0, bootVid := 0 }

/-- PORST_N is low (R9, R569): every register at its reset value, VID carrying TMF_BOOT_VID, the memories listing nothing. The first
command of a start-up is POWER_ON_RESET. -/
def State.resetWith (t : Ties) : State :=
  { State.blank t with regs := if t.bootVid % 256 = 0 then [] else [(R.PWR_VID_CFG, BitVec.ofNat 32 (t.bootVid % 256 * 65536))] }

/-- The machine after reset. -/
def State.reset : State := State.resetWith Ties.default

end Sys2Proof.Machine
end

