-- ==== Sys2Proof/Machine/Ops.lean ====
section
/-! DEFINITION. The operations every command goes through: registers and their fields, time and the agenda, free values,
error records, context faults and replays, notices to the bridges, cells of the memories. -/
namespace Sys2Proof.Machine

/-! Registers -/

/-- Number of bits of a field. -/
def Fld.width (f : Fld) : Nat := f.hi + 1 - f.lo

/-- The field's value in a word (R7). -/
def Fld.of (f : Fld) (v : W32) : Nat := v.toNat / 2 ^ f.lo % 2 ^ f.width

/-- The word with the field replaced by `n`, cut to the field's width. -/
def Fld.into (f : Fld) (v : W32) (n : Nat) : W32 :=
  BitVec.ofNat 32 (v.toNat - f.of v * 2 ^ f.lo + n % 2 ^ f.width * 2 ^ f.lo)

/-- Value of a register (R10). -/
def State.reg (s : State) (k : Nat) : W32 := SMap.get (resetVal k) s.regs k

/-- Write a register whole. -/
def State.setReg (s : State) (k : Nat) (v : W32) : State := { s with regs := SMap.set (resetVal k) s.regs k v }

/-- Value of a field. -/
def State.f (s : State) (f : Fld) : Nat := f.of (s.reg f.key)

/-- A field of one bit. -/
def State.bit (s : State) (f : Fld) : Bool := s.f f != 0

/-- Write a field. -/
def State.put (s : State) (f : Fld) (n : Nat) : State := s.setReg f.key (f.into (s.reg f.key) n)

/-- Write several fields, in order. -/
def State.puts (s : State) (l : List (Fld × Nat)) : State := l.foldl (fun s p => s.put p.1 p.2) s

/-- Set or clear a field of one bit. -/
def State.putb (s : State) (f : Fld) (b : Bool) : State := s.put f (if b then 1 else 0)

/-- Add to a counting field, saturating at all ones. -/
def State.incBy (s : State) (f : Fld) (n : Nat) : State := s.put f (min (s.f f + n) (2 ^ f.width - 1))

/-- Count one more, saturating. -/
def State.inc (s : State) (f : Fld) : State := s.incBy f 1

/-- Count one less, not below zero. -/
def State.dec (s : State) (f : Fld) : State := s.put f (s.f f - 1)

/-- Events that a counter has counted on fc, or cycle, `t`. -/
def State.eventsOn (s : State) (f : Fld) (t : Nat) : Nat :=
  let e := SMap.get (0, 0) s.counted (f.key * 32 + f.lo)
  if e.1 = t + 1 then e.2 else 0

/-- Count an event of `t` in a counter that a write can clear. -/
def State.incOn (s : State) (f : Fld) (t : Nat) : State :=
  { s with counted := SMap.set (0, 0) s.counted (f.key * 32 + f.lo) (t + 1, s.eventsOn f t + 1) }.inc f

/-- Note a value of `t` in a register that keeps the greatest and that a write can clear. -/
def State.maxOn (s : State) (f : Fld) (t n : Nat) : State :=
  let s := { s with counted := SMap.set (0, 0) s.counted (f.key * 32 + f.lo) (t + 1, max (s.eventsOn f t) n) }
  if s.f f < n then s.put f (min n (2 ^ f.width - 1)) else s

/-- Clear such a register: events of its own fc, or cycle, are counted after the clear (R169, R218, R431). -/
def State.clearOn (s : State) (f : Fld) (t : Nat) : State := s.put f (min (s.eventsOn f t) (2 ^ f.width - 1))

/-- A bit of a register, by number. -/
def bitFld (key i : Nat) : Fld := { key := key, hi := i, lo := i }

/-- A 64-bit pair of registers (R14). -/
def State.pair (s : State) (lo hi : Nat) : Nat := (s.reg lo).toNat + (s.reg hi).toNat * 2 ^ 32

/-- Write a 64-bit pair. -/
def State.setPair (s : State) (lo hi n : Nat) : State :=
  (s.setReg lo (BitVec.ofNat 32 n)).setReg hi (BitVec.ofNat 32 (n / 2 ^ 32))

/-! Identity and geometry -/

/-- This die's number (R27). -/
def State.die (s : State) : Nat := s.ties.inst % 8

/-- Is the physical cabinet synthesized? (R25) -/
def State.synth (s : State) (p : Nat) : Bool := p < 128 && p % 16 < s.ties.cols && p / 16 < s.ties.rows

/-- Bit of a cabinet in a row of four 32-bit registers. -/
def cabBit (row : Nat → Nat) (p : Nat) : Fld := bitFld (row (p / 32)) (p % 32)

/-- Is the physical cabinet fenced? (R246) -/
def State.fenced (s : State) (p : Nat) : Bool := s.bit (cabBit R.IDV_FENCE_MASK p)

/-- Power state of a cabinet: 0 Run, 1 Doze, 2 Hold, 3 Quench (R521). -/
def cabState (p : Nat) : Fld := { key := R.PWR_CAB_STAT (p / 8), hi := p % 8 * 4 + 1, lo := p % 8 * 4 }

/-- BUSY of a cabinet (R521). -/
def cabBusy (p : Nat) : Fld := bitFld (R.PWR_CAB_STAT (p / 8)) (p % 8 * 4 + 2)

/-- LEAVE_WAIT of a cabinet (R521). -/
def cabLeaveWait (p : Nat) : Fld := bitFld (R.PWR_CAB_STAT (p / 8)) (p % 8 * 4 + 3)

/-- Power state of a cabinet. -/
def State.pow (s : State) (p : Nat) : Nat := s.f (cabState p)

/-- Cluster of a cabinet (R22). -/
def cluster (p : Nat) : Nat := p / 16 / 4 * 4 + p % 16 / 4

/-- Clock region of a cabinet (R23). -/
def clkRegion (p : Nat) : Nat := p / 16 / 2 * 4 + p % 16 / 4

/-- The physical cabinets in ascending number. -/
def State.cabs (s : State) : List Nat := (List.range 128).filter s.synth

/-- The clock regions that exist: those with a synthesized cabinet (R25). -/
def State.clkRegions (s : State) : List Nat := (List.range 16).filter (fun k => s.cabs.any (fun p => decide (clkRegion p = k)))

/-! Time and the agenda -/

/-- One fc is frozen (R74). -/
def State.frozen (s : State) : Bool := s.bit R.LCT_FRZ_STAT_FROZEN

/-- Nominal length of one fc in units of wall time: the multiple of 100 MHz of the current operating point (R495); 1 ns while
no point is set. -/
def State.fcUnits (s : State) : Nat :=
  let m := s.f (R.PWR_OP_MULT (s.f R.PWR_OP_STAT_CUR))
  if m = 0 then 300000 else 3000000 / m

/-- TIM.NOW as it reads, in ns (R508): its value at the last AO cycle and the fast-clock periods since, capped at 39. -/
def State.now (s : State) : Nat := s.time.ao / 300000 + min (s.time.part / 300000) 39

/-- Units of wall time in `n` ns. -/
def ns (n : Nat) : Nat := n * 300000

/-- Reading of a clock. -/
def State.clock (s : State) : Clock → Nat
  | .wall => s.time.fc
  | .unfz => s.time.ufc
  | .sched => s.time.stime
  | .real => s.time.real
  | .fab => s.time.now

/-- Put a command on the agenda at a reading of a clock. -/
def State.at' (s : State) (c : Clock) (due : Nat) (i : Instr) : State := { s with agenda := s.agenda ++ [{ clk := c, due := due, cmd := i }] }

/-- Put a command on the agenda `n` after the present reading. -/
def State.later (s : State) (c : Clock) (n : Nat) (i : Instr) : State := s.at' c (s.clock c + n) i

/-- Is the command on the agenda? -/
def State.armed (s : State) (i : Instr) : Bool := s.agenda.any (fun d => decide (d.cmd = i))

/-- Put a command on the agenda unless it is there. -/
def State.arm (s : State) (c : Clock) (n : Nat) (i : Instr) : State := if s.armed i then s else s.later c n i

/-- Take a command off the agenda. -/
def State.disarm (s : State) (i : Instr) : State := { s with agenda := s.agenda.filter (fun d => !decide (d.cmd = i)) }

/-! Free values -/

/-- The next free value: nothing constrains it. -/
def State.free (s : State) : Nat := Config.freeValue s.freeCtr

/-- The same state with that value used up. -/
def State.useFree (s : State) : State := { s with freeCtr := s.freeCtr + 1 }

/-! Error records -/

/-- The log of a kind (R204). -/
def logOf (kind : Nat) : Nat := kind / 32

/-- A detected error: it is entered in its log, in source order, when this fc ends (R207, R208). -/
def State.err (s : State) (e : ErrRec) : State := { s with detected := s.detected ++ [{ e with time := s.now }] }

/-- Control address of a register (R46, R47): a cabinet's in the form with bit 21 set, which reaches every cabinet. -/
def State.ca (s : State) (key : Nat) : Nat :=
  s.die * 2 ^ 29 + (if 128 ≤ key / 2 ^ 22 then 0x7F * 2 ^ 22 + key % 2 ^ 22 else key / 2 ^ 22 * 2 ^ 22 + 0x20 * 65536 + key % 2 ^ 22)

/-- A locked-register write, naming its requester (R12, R204). -/
def State.locked (s : State) (req ca : Nat) : State :=
  s.err { kind := 0x41, req := req, cab := if 0x20 ≤ ca / 2 ^ 16 % 64 then some (ca / 2 ^ 22 % 128) else none, addr := ca }

/-- An event for a core to put on the event ring (R450): core, type, DETAIL from byte 4 on as a number; the core posts it on
the next fc. -/
def State.event (s : State) (core typ detail : Nat) : State :=
  ({ s with events := s.events ++ [(core, typ, detail)] }).arm .wall 1 (.eventPost (Fin.ofNat 11 core))

/-- Send an item over the bridges (R528). -/
def State.send (s : State) (item : SlotItem) (lane skip : Option Nat := none) : State :=
  { s with tx := s.tx ++ [{ item := item, lane := lane, skip := skip }] }

/-! Contexts -/

/-- The context bound to the engine attachment group of a cabinet (R387). -/
def State.eag (s : State) (p : Nat) : Option Nat :=
  if s.bit (R.CTX_EAG_V p) then some (s.f (R.CTX_EAG_CTX p)) else none

/-- State of a context: 0 FREE, 1 ACTIVE, 2 BOUND, 3 KILLING (R384). -/
def State.ctxState (s : State) (c : Nat) : Nat := s.f (R.CTX_STAT_STATE c)

/-- Cabinets whose engine attachment group is bound to a context. -/
def State.ctxCabs (s : State) (c : Nat) : List Nat := s.cabs.filter (fun p => decide (s.eag p = some c))

/-- Are set-class issues of the context discarded on this fc? From the fc after STEP_FAULT rose (R53). -/
def State.discards (s : State) (c : Option Nat) : Bool :=
  match c with
  | some c => s.stp.faultPin.any (fun p => decide (p.1 = c) && decide (p.2 < s.time.fc))
  | none => false

/-- Is STEP_REPLAY of the context high? (R86) -/
def State.replaying (s : State) (c : Option Nat) : Bool :=
  match c with
  | some c => s.stp.replayPin.any (fun p => decide (p.1 = c) && decide (p.2 = 0))
  | none => false

/-- Has the context faulted, with STEP_FAULT raised? -/
def State.faulted (s : State) (c : Nat) : Bool := s.stp.faultPin.any (fun p => decide (p.1 = c))

/-- Drop the held signals of a context (R53, R87). -/
def State.dropHeld (s : State) (c : Nat) : State :=
  { s with syn := { s.syn with signals := s.syn.signals.filter (fun g => !(decide (g.ctx = some c) && decide (g.place = .held))) } }

/-- End a replay of a context (R90). -/
def State.endReplay (s : State) (c : Nat) : State :=
  { s with stp := { s.stp with replayPin := s.stp.replayPin.filter (fun p => decide (p.1 ≠ c)), restart := s.stp.restart.filter (fun p => decide (p.1 ≠ c)) } }

/-- Bring the held signals of a faulted context to an end on the fc after STEP_FAULT rises (R53). -/
def State.dropLater (s : State) (c : Nat) : State := s.later .wall 2 (.stepRelease (Fin.ofNat 16 c))

/-- Abort the running lists that a test picks, `n` fc from now, with a status (R335, R353, R354). -/
def State.abortLists (s : State) (status n : Nat) (f : RunList → Bool) : State :=
  let hit (x : RunSt) : Bool := x.run.any f
  (s.runners.filter (fun e => hit e.2)).foldl (fun s e => s.later .wall n (.runnerAbort .sch (Fin.ofNat 128 (e.1 / 4)) (Fin.ofNat 4 e.1) 1))
    { s with runners := s.runners.map (fun e => if hit e.2 then (e.1, { e.2 with doomed := some (status, s.time.fc + n) }) else e) }

/-- A context fault: STEP_FAULT rises on the next fc, a replay ends, held signals are dropped on the fc after that, running lists are
aborted (R53, R90, R353). -/
def State.ctxFault (s : State) (c : Nat) : State :=
  if s.faulted c then s
  else
    let s := ((s.endReplay c).dropLater c).abortLists 8 1 (fun l => decide (l.ctx = c))
    { s with stp := { s.stp with faultPin := s.stp.faultPin ++ [(c, s.time.fc + 1)], lists := s.stp.lists.filter (fun e => decide (e.ctx ≠ c)) } }.put (R.LCT_STEP_STATE c) 3

/-- A context fault where the access has a context. -/
def State.ctxFault? (s : State) (c : Option Nat) : State :=
  match c with
  | some c => s.ctxFault c
  | none => s

/-- Clear a range entry (R96). The manual does not say what BASE, KIND and LIMIT read once an entry is empty: they read 0 (DESIGN CHOICE, log
entry 82). -/
def State.sbdEmpty (s : State) (cab n : Nat) : State :=
  let s := ((s.setReg (R.SBD_ENT_A cab n) 0).setReg (R.SBD_ENT_B cab n) 0).setReg (R.SBD_ENT_C cab n) 0
  { s with set := { s.set with ending := s.set.ending.filter (fun e => !(decide (e.1 = cab) && decide (e.2.1 = n))) } }

/-- Range entries open in a cabinet (R103). -/
def State.sbdOpen (s : State) (cab : Nat) : List Nat := (List.range 32).filter (fun n => s.bit (R.SBD_ENT_A_OPEN cab n))

/-- Keep SBD.STAT.OPEN equal to the number of open entries. -/
def State.sbdCount (s : State) (cab : Nat) : State := s.put (R.SBD_STAT_OPEN cab) (s.sbdOpen cab).length

/-- Empty every range entry open in a cabinet. -/
def State.sbdClear (s : State) (cab : Nat) : State := ((s.sbdOpen cab).foldl (fun s n => s.sbdEmpty cab n) s).sbdCount cab

/-- Number of a set-class port: 0 WRP, 1 WWP, 2 landing stage. -/
def setIdx : SetPort → Nat
  | .wrp => 0
  | .wwp => 1
  | .land => 2

/-- Slip of a port in fc (R100). -/
def State.slip (s : State) (cab : Nat) (p : SetPort) : Nat := SMap.get 0 s.set.slips (cab * 3 + setIdx p)

/-- How late a landing stage releases: its slip, and the hold under way (R100). -/
def State.landLag (s : State) (cab : Nat) : Nat :=
  s.slip cab .land + (s.set.land.foldl (fun n l => match l.hold with
    | some a => if l.cab = cab then max n (s.time.stime - a) else n
    | none => n) 0)

/-- Schedule fc of the issue that a look-ahead claims for; one of a landing stage is applied after the stage's slip (R113, R123). The
manual moves the claims of a landing stage only: those of WRP and WWP given before a hold stay on their fc (DESIGN CHOICE, log entry 84). -/
def State.claimAt (s : State) (c : Claim) : Nat := if c.port = .land then c.at' + s.landLag c.cab else c.at'

/-- The register field that shows a slip, saturating at 15 (R103). -/
def slipFld (cab : Nat) : SetPort → Fld
  | .wrp => R.SBD_STAT_SLIP_WRP cab
  | .wwp => R.SBD_STAT_SLIP_WWP cab
  | .land => R.SBD_STAT_SLIP_LAND cab

/-- Set a slip. -/
def State.setSlip (s : State) (cab : Nat) (p : SetPort) (n : Nat) : State :=
  ({ s with set := { s.set with slips := SMap.set 0 s.set.slips (cab * 3 + setIdx p) n } }).put (slipFld cab p) (min n 15)

/-- The fc of holds up to the present one are counted: those of a port, or of all ports of the cabinet (R100). -/
def State.holdUpto (s : State) (cab : Nat) (p : SetPort → Bool) : State :=
  { s with set := { s.set with
    holds := s.set.holds.map (fun (h : HoldReg) => if decide (h.cab = cab) && p h.port then { h with upto := s.time.stime } else h)
    land := s.set.land.map (fun (l : Landed) => if decide (l.cab = cab) && p .land && l.hold.isSome then { l with hold := some s.time.stime } else l) } }

/-- Clear the slips of a cabinet. Of a hold under way only later fc count from now on (R100). -/
def State.clearSlips (s : State) (cab : Nat) : State :=
  (((s.setSlip cab .wrp 0).setSlip cab .wwp 0).setSlip cab .land 0).holdUpto cab (fun _ => true)

/-- Does a step of the context stand open, or closed and not yet released? (R85) -/
def State.stepLive (s : State) (c : Nat) : Bool := s.stp.steps.any (fun t => decide (t.ctx = c))

/-- Queued lists of the steps that are not released end with ABORTED when their turn comes (R87, R354). -/
def State.abortQueued (s : State) (c : Nat) : State :=
  { s with runners := s.runners.map (fun e => (e.1, { e.2 with queue := e.2.queue.map (fun l => if decide (l.ctx = c) && l.held then { l with ended := true, rec' := { l.rec' with status := 6 } } else l) })) }

/-- SCH flushes the bound FIFOs of a replayed context that are no hand-overs, after STEP_REPLAY rises and before the restart fc, at
a moment of its own (R377). -/
def State.replayFlush (s : State) (c : Nat) : State :=
  let left := match s.stp.restart.find? (fun x => decide (x.1 = c)) with
    | some x => x.2.1 - s.time.stime
    | none => 500
  (s.cabs).foldl (fun s p =>
    let mask := ((List.range 8).filter (fun f => s.bit (R.HFF_CFG_BOUND p f) && decide (s.f (R.HFF_CFG_CTX p f) = c) && !s.bit (R.HFF_CFG_HANDOVER p f))).foldl (fun n f => n + 2 ^ f) 0
    if mask = 0 then s else (s.useFree).later .unfz (1 + s.free % max 1 (min 500 (left - 2))) (.hffFlush .sch (Fin.ofNat 128 p) (BitVec.ofNat 32 mask))) s

/-- STEP_REPLAY of a context rises: entries, slips, held signals and lists of the context (R87). -/
def State.replayRise (s : State) (c : Nat) : State :=
  let s := { s with stp := { s.stp with replayPin := s.stp.replayPin.map (fun (p : Nat × Nat) => if p.1 = c then (c, 0) else p) } }
  let s := (s.abortLists 6 0 (fun l => decide (l.ctx = c) && l.held)).abortQueued c
  let s := (s.ctxCabs c).foldl (fun s p => (s.sbdClear p).clearSlips p) (s.dropHeld c)
  s.replayFlush c

/-- The wait for a replay begins: pin, which rises on the next unfrozen fc, restart fc, state and cause (R86, R87). -/
def State.startReplay (s : State) (c cause attempt r : Nat) : State :=
  let s := { s with stp := { s.stp with replayPin := s.stp.replayPin ++ [(c, 1)], restart := s.stp.restart ++ [(c, r, attempt)] } }
  let s := s.later .unfz (if s.frozen then 0 else 1) (.replayRestart (Fin.ofNat 16 c))
  (s.puts [(R.LCT_STEP_STATE c, 2), (R.LCT_STEP_CAUSE c, cause)]).at' .sched (r - 1) (.replayRestart (Fin.ofNat 16 c))

/-- A replay that SCH cannot serve because it is masked: the context faults, MGT_NO_SCH (R459, R460). -/
def State.noSch (s : State) (c : Nat) : State :=
  (s.err { kind := 0x64, req := 18, cab := none, ctx := some c, data := 0x50000 + c * 256 + 2 }).ctxFault c

/-- This die has sent or forwarded a replay notice (R86); those whose restart fc has passed are forgotten. -/
def State.hear (s : State) (c a r : Nat) : State :=
  { s with stp := { s.stp with heard := s.stp.heard.filter (fun x => decide (s.time.stime ≤ x.2.2)) ++ [(c, a, r)] } }

/-- A replay cause of a context detected on this fc (R85 to R90): R is ten frames after the frame of detection; a cause in
attempt 3 faults the context; a further cause of the attempt being abandoned is not counted. -/
def State.replayCause (s : State) (c cause : Nat) : State :=
  if s.faulted c || !s.stepLive c || s.stp.restart.any (fun p => decide (p.1 = c)) then s
  else if s.masked.contains 2 then s.noSch c
  else
    let a := s.f (R.LCT_STEP_ATTEMPT c)
    if a = 3 then s.ctxFault c
    else
      let r := ((s.time.stime - if s.frozen then 1 else 0) / 64 + 10) * 64
      let s := s.startReplay c cause a r
      if s.bit (R.LCT_STEP_MULTI c) then (s.hear c a r).send (.replay c a r) else s

/-- A replay cause of the context that owns a cabinet, if one is bound (R139). -/
def State.replayCab (s : State) (cab cause : Nat) : State :=
  match s.eag cab with
  | some c => s.replayCause c cause
  | none => s

/-! Cells -/

/-- Read a byte of the memories; an unlisted cell reads 0. -/
def State.cell (s : State) (a : Nat) : Byte := SMap.get 0 s.mem a

/-- Write a byte of the memories. -/
def State.setCell (s : State) (a : Nat) (b : Byte) : State := { s with mem := SMap.set 0 s.mem a b }

/-- Write successive bytes. -/
def State.setCells (s : State) : Nat → List Byte → State
  | _, [] => s
  | a, b :: bs => (s.setCell a b).setCells (a + 1) bs

/-- Read successive bytes. -/
def State.cells (s : State) (a n : Nat) : List Byte := (List.range n).map (fun i => s.cell (a + i))

/-- A little-endian number from bytes (R8). -/
def leNat : List Byte → Nat
  | [] => 0
  | b :: bs => b.toNat + 256 * leNat bs

/-- The little-endian bytes of a number (R8). -/
def leBytes : Nat → Nat → List Byte
  | 0, _ => []
  | n + 1, v => BitVec.ofNat 8 v :: leBytes n (v / 256)

/-- Management SRAM at a byte offset (R411). -/
def msram (off : Nat) : Nat := 0x80000000 + off

/-- Flash at a byte offset (R571). -/
def flash (off : Nat) : Nat := 0x90000000 + off

/-- Read a 32-bit word of management SRAM. -/
def State.ms32 (s : State) (off : Nat) : Nat := leNat (s.cells (msram off) 4)

/-- Write a 32-bit word of management SRAM. -/
def State.setMs32 (s : State) (off v : Nat) : State := s.setCells (msram off) (leBytes 4 v)

/-! Energy -/

/-- Bank accesses of this µs (R502). -/
def State.usedBank (s : State) (n : Nat) : State := { s with pwr := { s.pwr with accs := s.pwr.accs + n } }

/-- A flit on a link (R502). -/
def State.usedLink (s : State) : State := { s with pwr := { s.pwr with flits := s.pwr.flits + 1 } }

/-! Outputs and identifiers -/

/-- Record what a port presents. -/
def State.present! (s : State) (k : Nat) (o : PortOut) : State := { s with outs := SMap.insert s.outs k o }

/-- The same for a port with a presence input: its outputs stay zero while it is absent (R141). -/
def State.presentIf (s : State) (p : Fld) (k : Nat) (o : PortOut) : State := if s.bit p then s.present! k o else s

/-- What a port presented last. -/
def State.outNow (s : State) (k : Nat) : PortOut := SMap.get { at' := 0, tag := 0, dat := [], zero := [], sb := 0, resp := .ok } s.outs k

/-- The outputs of a port become zero (R141). -/
def State.outLow (s : State) (k : Nat) : State := { s with outs := SMap.erase s.outs k }

/-- An identifier no other access has had (R248); the identifiers of a die are its number modulo 8. -/
def State.fresh (s : State) : State := { s with loose := { s.loose with nextId := s.loose.nextId + 8 } }

/-- A write begins that a drain set can name (R278). -/
def State.undrain (s : State) (id cab port : Nat) : State := { s with syn := { s.syn with undrained := s.syn.undrained ++ [(id, cab, port)] } }

/-- A write has committed, or will never be performed: no drain set waits for it any longer. -/
def State.drained (s : State) (id : Nat) : State := { s with syn := { s.syn with undrained := s.syn.undrained.filter (fun u => decide (u.1 ≠ id)) } }

/-- The state that a command of firmware leaves: every command of this machine answers a next state. -/
def ran (s : State) (o : Host.Outcome State Fault Refusal) : State :=
  match o with
  | .next t => t
  | .fault _ => s
  | .refused _ => s

end Sys2Proof.Machine
end

