-- ==== Sys2Proof/Machine/Operands.lean ====
section
/-! DEFINITION. The forms of an address and of a block of data: the fabric address and its translation (R28 to R33),
window admission (R392 to R395), routes (R58, R249, R612), the requester codes and the block, word and item layouts. -/
namespace Sys2Proof.Machine

/-! The fabric address (R28) -/

/-- Bank of an address. -/
def faBank (fa : Nat) : Nat := fa / 32 % 32
/-- Word row of an address. -/
def faRow (fa : Nat) : Nat := fa / 1024 % 4096
/-- Logical cabinet of an address. -/
def faCab (fa : Nat) : Nat := fa / 2 ^ 22 % 128
/-- Die of an address. -/
def faDie (fa : Nat) : Nat := fa / 2 ^ 29 % 8
/-- Bank group of a 256-byte block (R112). -/
def faGroup (fa : Nat) : Nat := fa / 256 % 4
/-- Bank pair of a 64-byte block (R126). -/
def faPair (fa : Nat) : Nat := fa / 64 % 16
/-- Word index within the cabinet, FA[21:5] (R30). -/
def faWord (fa : Nat) : Nat := fa / 32 % 131072
/-- Granule of an address, FA[28:12] (R388). -/
def faGran (fa : Nat) : Nat := fa / 4096 % 131072

/-! The cabinet map -/

/-- Logical count of a generation (R41). -/
def State.genLog (s : State) (g : Nat) : Nat := if g = 0 then s.f R.IDV_CMAP_CTL_G0_LOG else s.f R.IDV_CMAP_CTL_G1_LOG

/-- Register of an entry (R43). -/
def mapReg (g n : Nat) : Nat := if g = 0 then R.IDV_CMAP_G0 n else R.IDV_CMAP_G1 n

/-- PHYS of an entry. -/
def mapPhys (g n : Nat) : Fld := { key := mapReg g n, hi := 6, lo := 0 }

/-- VALID of an entry. -/
def mapValid (g n : Nat) : Fld := bitFld (mapReg g n) 15

/-- The physical cabinet of a logical one under a generation; none when the entry is unmapped (R32). -/
def State.mapped (s : State) (g n : Nat) : Option Nat :=
  let p := s.f (mapPhys g n)
  if n < s.genLog g ∧ s.bit (mapValid g n) = true ∧ s.synth p = true ∧ s.fenced p = false then some p else none

/-- The current generation (R41). -/
def State.cur (s : State) : Nat := s.f R.IDV_CMAP_CTL_CUR

/-- Generation recorded for a context (R42). -/
def State.ctxGen (s : State) (c : Nat) : Nat := s.f (bitFld R.IDV_CMAP_CTXGEN c)

/-- Is BOOT_LOCK set? (R12, R585) -/
def State.bootLocked (s : State) : Bool := s.bit R.HLM_BOOT_CTL_BOOT_LOCK

/-- Cabinets that the VALID entries of a generation below its logical count name. -/
def State.genSet (s : State) (g : Nat) : List Nat :=
  ((List.range 128).filter (fun n => decide (n < s.genLog g) && s.bit (mapValid g n))).map (fun n => s.f (mapPhys g n))

/-- The start-up set (R37): latched with BOOT_LOCK, before it that of G0 as it stands. -/
def State.startCabs (s : State) : List Nat := if s.bootLocked then s.rep.startSet else s.genSet 0

/-- Cabinets that are not synthesized or that no generation has mapped are absent to a router (R249): only cabinets of the
start-up set are ever mapped (R37). -/
def State.absent (s : State) (p : Nat) : Bool := !s.synth p || !s.startCabs.contains p

/-- Dies of the image (R40). -/
def State.dies (s : State) : Nat := s.f R.IDV_CONF_DIES

/-- The fabric address of a word of a physical cabinet under the current generation. -/
def State.faOf (s : State) (p word : Nat) : Nat :=
  s.die * 2 ^ 29 + ((List.range 128).find? (fun n => decide (s.mapped s.cur n = some p))).getD 127 * 2 ^ 22 + word * 32

/-! Windows -/

/-- Does the window contain the granule? (R388) -/
def State.winHas (s : State) (w g : Nat) : Bool :=
  s.bit (R.WIN_PART_B_VALID w) && decide (s.f (R.WIN_PART_A_BASE w) ≤ g) && decide (g ≤ s.f (R.WIN_PART_B_LIMIT w))

/-- The window that contains a granule (R389: at most one). -/
def State.winOf (s : State) (g : Nat) : Option Nat := (List.range 64).find? (fun w => s.winHas w g)

/-- Bit of PERM for a class and direction (R410). -/
def permBit (c : Cls) (we : Bool) : Option Nat :=
  match c with
  | .set => some (if we then 1 else 0)
  | .loose => some (if we then 3 else 2)
  | .host => some (if we then 5 else 4)
  | .edge => some (if we then 7 else 6)
  | .mgmt => none
  | .free => none

/-- Is the window CLOSED, SWEEPING or KEPT? (R390) -/
def State.winShut (s : State) (w : Nat) : Bool := 2 ≤ s.f (R.WIN_STATE_STATE w)

/-- Outcome of the window check: the window and its generation, or the window number and the cause (R393 to R395). -/
inductive Admit where
  | ok (gen : Nat)
  | no (win cause : Nat)
  deriving DecidableEq, Repr

/-- The window check of an access (R393, R394 in the order 0x01, 0x04, 0x02, 0x03; R395 for the management path). -/
def State.allow (s : State) (c : Cls) (we : Bool) (ctx : Option Nat) (fa : Nat) : Admit :=
  match permBit c we, s.winOf (faGran fa) with
  | none, some w => if c = .mgmt ∧ s.winShut w = true then .no w 4 else .ok s.cur
  | none, none => .ok s.cur
  | some _, none => .no 255 1
  | some b, some w =>
    if s.winShut w then .no w 4
    else if s.f (R.WIN_STATE_STATE w) ≠ 1 then .no w 2
    else if c ≠ .edge ∧ ctx ≠ some (s.f (R.WIN_STATE_CTX w)) then .no w 2
    else if s.bit (bitFld (R.WIN_PART_C w) b) = false then .no w 3
    else .ok (s.ctxGen (s.f (R.WIN_STATE_CTX w)))

/-- Generation that translates an access when no window admits it: its context's, or the current one (R33). -/
def State.genFor (s : State) (ctx : Option Nat) : Nat :=
  match ctx with
  | some c => if s.ctxState c = 2 ∨ s.ctxState c = 3 then s.ctxGen c else s.cur
  | none => s.cur

/-- What the checks that precede a bank access decide, in the order of R135: die field and cabinet map, window, power. -/
inductive Target? where
  | refused
  | violation (win cause : Nat)
  | far (die : Nat)
  | at' (cab : Nat)
  deriving DecidableEq, Repr

/-- The generation that translates an access: the one of its window's context when a window admits it, else the current one (R33). -/
def State.genOf (s : State) (c : Cls) (we : Bool) (ctx : Option Nat) (fa : Nat) : Nat :=
  match s.allow c we ctx fa with
  | .ok g => g
  | .no _ _ => s.cur

/-- The checks of R31 and R393 on an access, on the die it has reached. -/
def State.target (s : State) (c : Cls) (we : Bool) (ctx : Option Nat) (fa : Nat) : Target? :=
  if s.dies ≤ faDie fa then .refused
  else if faDie fa ≠ s.die then .far (faDie fa)
  else
    match s.mapped (s.genOf c we ctx fa) (faCab fa) with
    | none => .refused
    | some p =>
      match s.allow c we ctx fa with
      | .no w k => .violation w k
      | .ok _ => .at' p

/-- A window violation: VIOL_CNT and an ACC_WINDOW record (R394). -/
def State.violate (s : State) (req : Nat) (cab : Option Nat) (ctx : Option Nat) (fa win cause : Nat) : State :=
  (s.inc R.WIN_VIOL_CNT_COUNT).err
    { kind := 0x43, req := req, cab := cab, ctx := ctx, addr := fa, data := 0x30000 + win * 256 + cause }

/-- The address of a loose access: of its first byte where it names single bytes, of its block otherwise (R315, R394). -/
def accAddr (q : LReq) : Nat :=
  match q.org with
  | .seg _ _ _ | .fetch _ _ _ | .mgt _ => q.fa + ((List.range 64).find? (fun i => decide (q.be / 2 ^ i % 2 = 1))).getD 0
  | .np _ _ _ | .hdp _ | .edgeIn _ _ | .edgeOut _ _ | .asy _ _ | .rep _ _ | .rmp _ | .swp _ | .gone => q.fa

/-- A refused access (R31, R204). -/
def State.refuse (s : State) (req : Nat) (cab : Option Nat) (ctx : Option Nat) (fa : Nat) (data : Nat := 0) : State :=
  s.err { kind := 0x40, req := req, cab := cab, ctx := ctx, addr := fa, data := data }

/-! Routes -/

/-- The cabinet one hop away; none off the grid. 0 N, 1 E, 2 S, 3 W (R20, R21). -/
def hop (p d : Nat) : Option Nat :=
  match d with
  | 0 => if 16 ≤ p then some (p - 16) else none
  | 1 => if p % 16 < 15 then some (p + 1) else none
  | 2 => if p < 112 then some (p + 16) else none
  | _ => if 0 < p % 16 then some (p - 1) else none

/-- Number of an output. -/
def dirIdx : Dir → Nat
  | .n => 0
  | .e => 1
  | .s => 2
  | .w => 3

/-- Hop distance (R45). -/
def hopDist (a b : Nat) : Nat :=
  (max (a % 16) (b % 16) - min (a % 16) (b % 16)) + (max (a / 16) (b / 16) - min (a / 16) (b / 16))

/-- A router's choice: take an output, with the column detour the flit then carries; or refuse at a fenced or absent
cabinet (R249), for a set-class flit whether that cabinet is a fenced one outside its mask (R252). -/
inductive Hop where
  | take (d : Nat) (nxt : Nat) (det : Option Nat)
  | refuse
  deriving DecidableEq, Repr

/-- The routing rule of R249 at cabinet `p` for destination `q`, around cabinets for which `fen` holds, refusing where
`bad` holds. -/
def State.route (s : State) (fen bad : Nat → Bool) (p q : Nat) (det : Option Nat) : Hop :=
  let r := p / 16
  let rd := q / 16
  let vert := if rd < r then 0 else 2
  let step (d : Nat) (det : Option Nat) : Hop :=
    match hop p d with
    | some n => if bad n || fen n then .refuse else .take d n det
    | none => .refuse
  let det := match det with
    | some rf => if r = rd ∨ (rd < rf ∧ r < rf) ∨ (rf < rd ∧ rf < r) then none else some rf
    | none => none
  match det with
  | some rf => step vert (some rf)
  | none =>
    let d := if p % 16 ≠ q % 16 then (if p % 16 < q % 16 then 1 else 3) else vert
    match hop p d with
    | none => .refuse
    | some n =>
      if fen n then
        if d = 1 ∨ d = 3 then
          let clear := match hop p vert with
            | some v => !(fen v) && !(bad v)
            | none => false
          if rd ≠ r ∧ clear = true then step vert none
          else step (if s.f (R.IDV_DET_ROWSIDE n) = 0 then 0 else 2) none
        else step (if s.f (R.IDV_DET_COLSIDE n) = 0 then 1 else 3) (some (n / 16))
      else step d none

/-- Loose routing: detours around every fenced cabinet, refusal at fenced and absent ones. -/
def State.looseHop (s : State) (p q : Nat) (det : Option Nat) : Hop := s.route s.fenced s.absent p q det

/-- Is the cabinet in a fence mask of 128 bits? -/
def inMask (m p : Nat) : Bool := m / 2 ^ p % 2 = 1

/-- Set-class routing: detours only around the cabinets of the recorded mask; any other fenced cabinet refuses (R252). -/
def State.setHop (s : State) (fmask p q : Nat) (det : Option Nat) : Hop :=
  s.route (fun n => s.fenced n && inMask fmask n) (fun n => s.fenced n || s.absent n) p q det

/-- The cabinets of a loose route on this die from `p` to `q`, by the present fences; none where the route is refused. -/
def State.walk (s : State) (q : Nat) : Nat → Nat → Option Nat → Option (List Nat)
  | 0, _, _ => none
  | fuel + 1, p, det =>
    if p = q then some [p]
    else
      match s.looseHop p q det with
      | .refuse => none
      | .take _ n det' => (s.walk q fuel n det').map (p :: ·)

/-- The fence mask recorded for a context (R407). -/
def State.fmask (s : State) (c : Option Nat) : Nat :=
  match c with
  | some c => (List.range 4).foldl (fun m k => m + (s.reg (R.CTX_FMASK c k)).toNat * 2 ^ (32 * k)) 0
  | none => (List.range 4).foldl (fun m k => m + (s.reg (R.IDV_FENCE_MASK k)).toNat * 2 ^ (32 * k)) 0

/-- Hops of the set-class route on this die by R249; the hop distance where no fence is met (R45). -/
def State.setHops (s : State) (fmask q : Nat) : Nat → Nat → Option Nat → Nat
  | 0, p, _ => hopDist p q
  | fuel + 1, p, det =>
    if p = q then 0
    else
      match s.setHop fmask p q det with
      | .refuse => hopDist p q
      | .take _ n det' => s.setHops fmask q fuel n det' + 1

/-- Bridge that BRG.DROUTE names toward a die; none where no route is set (R536, R564). -/
def State.bridgeTo (s : State) (die : Nat) : Option Nat :=
  if s.bit (bitFld R.BRG_DROUTE (3 * die + 2)) then some (s.f { key := R.BRG_DROUTE, hi := 3 * die + 1, lo := 3 * die }) else none

/-- The die beyond bridge `b` of die `d`: N, E, S, W; none at the edge of the package (R525). -/
def dieBeyond (d b : Nat) : Option Nat :=
  match b with
  | 0 => if 4 ≤ d then some (d - 4) else none
  | 1 => if d % 4 < 3 then some (d + 1) else none
  | 2 => if d < 4 then some (d + 4) else none
  | _ => if 0 < d % 4 then some (d - 1) else none

/-- Does the bridge exist: is there a die beyond it? (R525) -/
def bridgeThere (dies d b : Nat) : Bool := (dieBeyond d b).any (fun n => decide (n < dies))

/-- Is a lane built? Only those of a bridge that exists are (R525, R526). -/
def State.laneBuilt (s : State) (lane : Nat) : Bool := s.bit (R.BRG_ATT_V lane) && bridgeThere s.dies s.die (lane / 2)

/-- State of a lane: 0 OFF, 1 TRAINING, 2 UP, 3 DOWN (R542). -/
def State.laneState (s : State) (lane : Nat) : Nat := s.f (R.BRG_STAT_STATE lane)

/-- Lane `2b + l` of bridge `b` for a flit that stands in cabinet `p` (R536): bridges 1 and 3 face E and W. -/
def State.laneOf (s : State) (b p : Nat) : Nat :=
  let l := if b % 2 = 1 then (if p / 16 < 4 then 0 else 1) else (if p % 16 < 8 then 0 else 1)
  if s.laneBuilt (2 * b + l) then 2 * b + l else 2 * b + (1 - l)

/-- Lane by which a flit in cabinet `p` leaves for a die; none without a route. -/
def State.laneTo (s : State) (die p : Nat) : Option Nat := (s.bridgeTo die).map (fun b => s.laneOf b p)

/-- Cabinet a lane attaches to (R529). -/
def State.laneCab (s : State) (lane : Nat) : Nat := s.f (R.BRG_ATT_CAB lane)

/-- One-way latency of a set-class route in schedule fc (R63): two for each hop, 44 for the crossing, and what the loader's
route takes beyond. -/
def State.latency (s : State) (fmask p die q logical : Nat) : Nat :=
  if die = s.die then 2 * s.setHops fmask q 144 p none
  else
    match s.laneTo die p with
    | some l => 2 * s.setHops fmask (s.laneCab l) 144 p none + 44 + Config.farLatency die logical
    | none => 44 + Config.farLatency die logical

/-- One-way latency of the return route of a read of cabinet `p` from cabinet `q` that reads it (R63, R116): on this die by R249 from `q`
back to `p`, from another die the crossing and what the loader's return route takes beyond. -/
def State.retLatency (s : State) (fmask p die q logical : Nat) : Nat :=
  if die = s.die then 2 * s.setHops fmask p 144 q none else 44 + Config.farReturn die logical p

/-! Requesters -/

/-- Requester code of a control-matrix master (R206). -/
def masterReq : Master → Nat
  | .sec => 16
  | .pwc => 17
  | .sch => 18
  | .cc k => 19 + k.val
  | .dbg => 10
  | .hrp => 27

/-- Master index m of R411. -/
def masterIdx : Master → Nat
  | .sec => 0
  | .pwc => 1
  | .sch => 2
  | .cc k => 3 + k.val
  | .dbg => 11
  | .hrp => 12

/-- Master of an index. -/
def masterOf (m : Nat) : Master :=
  match m with
  | 0 => .sec
  | 1 => .pwc
  | 2 => .sch
  | 11 => .dbg
  | 12 => .hrp
  | n => .cc (Fin.ofNat 8 (n - 3))

/-- Requester code of a set-class port (R206). -/
def setReq : SetPort → Nat
  | .wrp => 11
  | .wwp => 12
  | .land => 13

/-! Blocks -/

/-- Word `w` of a block. -/
def wordAt (l : List W256) (w : Nat) : W256 := l.getD w 0

/-- Byte `n` of a list of words. -/
def byteAt (l : List W256) (n : Nat) : Byte := (wordAt l (n / 32)).extractLsb' (n % 32 * 8) 8

/-- The bytes of a list of words. -/
def blockBytes (l : List W256) (n : Nat) : List Byte := (List.range n).map (byteAt l)

/-- A word from 32 bytes. -/
def wordOfBytes (l : List Byte) : W256 := BitVec.ofNat 256 (leNat (l.take 32))

/-- Words of 32 bytes each. -/
def wordsOfBytes (l : List Byte) (n : Nat) : List W256 := (List.range n).map (fun i => wordOfBytes (l.drop (32 * i)))

/-- Byte enables of word `w` of a 64-byte block. -/
def beWord (be w : Nat) : Nat := be / 2 ^ (32 * w) % 2 ^ 32

/-- Merge bytes under enables (R126). -/
def mergeWord (be : Nat) (new old : W256) : W256 :=
  wordOfBytes ((List.range 32).map (fun i => if be / 2 ^ i % 2 = 1 then new.extractLsb' (i * 8) 8 else old.extractLsb' (i * 8) 8))

end Sys2Proof.Machine
end

