-- ==== Sys2Proof/Machine/Flags.lean ====
section
/-! DEFINITION. The flag and status computations: responses (R110, R134), zero flags, the levels of arbitration (R152),
urgency (R155), HINT requests of the logs (R211), power states that serve an access (R137). -/
namespace Sys2Proof.Machine

/-- The code of a response on its two wires (R110). -/
def respCode : Resp → Nat
  | .ok => 0
  | .zero => 1
  | .asleep => 2
  | .fault => 3

/-- Response and data of a block read: FAULT with zero data when a word was uncorrectable (R184), ZERO when every word had
its valid bit clear, else OK (R134). -/
def blockAns (words : List (W256 × Bool × Bool)) : Ans :=
  if words.any (fun w => w.2.2) then { resp := .fault, dat := words.map (fun _ => 0), zero := words.map (fun _ => false) }
  else { resp := if words.all (fun w => w.2.1) && !words.isEmpty then .zero else .ok,
         dat := words.map (fun w => w.1), zero := words.map (fun w => w.2.1) }

/-- The answer of a refused or failed access: zero data. -/
def noAns (r : Resp) (n : Nat) : Ans := { resp := r, dat := List.replicate n 0, zero := List.replicate n false }

/-- Wait of a request (R155). -/
def State.waitOf (s : State) (q : PReq) : Nat := q.base + (if q.presented then s.time.ufc - q.since else 0)

/-- AGE_LIMIT of a cabinet, as comparisons of this fc see it (R158, R171). -/
def State.ageLimit (s : State) (cab : Nat) : Nat :=
  let was := SMap.get (0, 0) s.loose.ageWas cab
  if was.1 = s.time.fc + 1 then was.2 else s.f (R.ARB_AGE_AGE_LIMIT cab)

/-- Is a presented request urgent? (R155) -/
def State.urgentReq (s : State) (cab : Nat) (q : PReq) : Bool :=
  q.urgent || (q.presented && decide (s.ageLimit cab ≤ s.waitOf q))

/-- Priority field of a requester (R170). -/
def prioFld (cab i : Nat) : Fld := { key := R.ARB_PRIO cab, hi := 2 * i + 1, lo := 2 * i }

/-- Priority of a requester, as decisions of this fc see it (R159, R170). -/
def State.prio (s : State) (cab i : Nat) : Nat :=
  let was := SMap.get (0, 0) s.loose.prioWas cab
  if was.1 = s.time.fc + 1 then (prioFld cab i).of (BitVec.ofNat 32 was.2) else s.f (prioFld cab i)

/-- Level of a request: 0 to 3 a priority, 4 urgent, 5 emergency (R152). -/
def State.level (s : State) (cab : Nat) (q : PReq) : Nat :=
  if q.acc.req = 10 then 5 else if s.urgentReq cab q then 4 else s.prio cab q.acc.req

/-- HINT class of a kind below 0x60: 1 CE, 2 UE, 3 MGT, 0 none (R204). -/
def hintClassLow (kind : Nat) : Nat :=
  if kind = 0x41 ∨ kind = 0x42 then 3
  else if kind = 0x44 then 0
  else if [0x02, 0x03, 0x23, 0x24, 0x28, 0x29, 0x2C].contains kind then 1
  else 2

/-- Does an access of a class to a cabinet in this power state get served? Set class only in Run, loose in Run and Doze
(R137). -/
def servedIn (set : Bool) (pow : Nat) : Bool := if set then pow = 0 else pow ≤ 1

/-- Counting fields of CAB.PORT_FAULT and CAB.PORT_ASLEEP, by port 0 WRP, 1 WWP, 2 NP0, 3 NP1 (R145, R146). -/
def portCnt (reg : Nat → Nat) (cab port : Nat) : Fld := { key := reg cab, hi := 8 * port + 7, lo := 8 * port }

/-- Count a FAULT or ASLEEP response of a port. -/
def State.countResp (s : State) (cab port : Nat) (r : Resp) : State :=
  match r with
  | .fault => s.inc (portCnt R.CAB_PORT_FAULT cab port)
  | .asleep => s.inc (portCnt R.CAB_PORT_ASLEEP cab port)
  | .ok => s
  | .zero => s

/-- Does the cabinet drain for an entry? (R479) -/
def State.draining (s : State) (cab : Nat) : Bool := s.pwr.cmds.any (fun c => decide (c.cab = cab) && decide (c.phase = PwrPhase.drain))

/-- Code of the unit that a reason names (R480). -/
def reasonUnit (reason : Nat) : Nat := if reason = 12 then 0 else reason - 1

/-- PWR.REF_LAST and the counts of a refusal or an abort (R481, R520); that of a PSTATE command is noted for its result (R498). -/
def State.refused (s : State) (cab target reason : Nat) (abort job : Bool) : State :=
  ({ s with pwr := { s.pwr with res := if job then SMap.set 0 s.pwr.res cab reason else s.pwr.res } }.puts [(R.PWR_REF_LAST_CAB, cab), (R.PWR_REF_LAST_TARGET, target), (R.PWR_REF_LAST_REASON, reason), (R.PWR_REF_LAST_UNIT, reasonUnit reason),
    (R.PWR_REF_LAST_ABORT, if abort then 1 else 0)]).inc (if abort then R.PWR_ABT_CNT_COUNT (reason - 1) else R.PWR_REF_CNT_COUNT (reason - 1))

/-- The command that checks a transition, on the fc after its write (R479). -/
def checkCmd (p target : Nat) : Instr :=
  match target with
  | 0 => .cabCmdRun .hrp (Fin.ofNat 128 p)
  | 1 => .cabCmdDoze .hrp (Fin.ofNat 128 p)
  | 2 => .cabCmdHold .hrp (Fin.ofNat 128 p)
  | _ => .cabCmdQuench .hrp (Fin.ofNat 128 p)

/-- The agenda without the checks of a cabinet's transitions that end before them. -/
def State.checksGone (s : State) (cab : Nat) : List Due :=
  (s.pwr.cmds.filter (fun c => decide (c.cab = cab) && decide (c.phase = PwrPhase.check))).foldl (fun l c => l.eraseP (fun d => decide (d.cmd = checkCmd cab c.target))) s.agenda

/-- Take a transition off the list and lower BUSY; commands that found it BUSY are still to be refused. -/
def State.endCmd (s : State) (cab : Nat) : State :=
  ({ s with agenda := s.checksGone cab, pwr := { s.pwr with cmds := s.pwr.cmds.filter (fun c => decide (c.cab ≠ cab) || decide (c.phase = PwrPhase.refuse)), wakes := SMap.erase s.pwr.wakes cab } }).puts [(cabBusy cab, 0), (cabLeaveWait cab, 0)]

/-- The runners of a cabinet look at their queues on the next fc. -/
def State.kickCab (s : State) (cab : Nat) : State :=
  (List.range 4).foldl (fun s r => s.arm .unfz 1 (.descriptorComplete (Fin.ofNat 128 cab) (Fin.ofNat 4 r))) s

/-- A runner of this die. -/
def State.runner (s : State) (cab r : Nat) : RunSt := SMap.get RunSt.idle s.runners (cab * 4 + r)

/-- Replace a runner. -/
def State.setRunner (s : State) (cab r : Nat) (x : RunSt) : State := { s with runners := SMap.set RunSt.idle s.runners (cab * 4 + r) x }

/-- A completion record with nothing to tell. -/
def blankCmpl (tag ctx : Nat) : Cmpl :=
  { tag := tag, ctx := ctx, status := 0, done := 0, failIndex := 0xFFFF, failResp := 0, sigref := false, lapsed := 0, lapseIndex := 0xFFFF, failAddr := 0 }

/-- A list as it is dispatched (R312, R313). -/
def newList (fa count ctx tag : Nat) (step held : Bool) : RunList :=
  { fa := fa, count := count, ctx := ctx, step := step, held := held, tag := tag, next := 0, fetching := [], buf := [], started := 0, gone := [], live := [], done := 0, anchor := none, ended := false, rec' := blankCmpl tag ctx }

/-- Schedule fc on which the open step of a context opened. -/
def State.openAt (s : State) (c : Nat) : Nat := ((s.stp.steps.filter (fun t => decide (t.ctx = c))).getLast?.map (fun t => t.openAt)).getD 0

/-- Remember a list of the open step (R87). -/
def State.stepListed (s : State) (l : RunList) (cab r : Nat) : State :=
  { s with stp := { s.stp with lists := s.stp.lists ++ [{ ctx := l.ctx, cab := cab, run := r, fa := l.fa, count := l.count, tag := l.tag, openAt := l.openAt, again := false }] } }

/-- SCH dispatches the lists of a replayed step again, each as its runner has a place (R87). -/
def State.redispatch (s : State) (c : Nat) : State :=
  let s := (s.stp.lists.filter (fun e => decide (e.ctx = c) && e.again)).foldl (fun s e =>
    let x := s.runner e.cab e.run
    if 4 ≤ x.queue.length then s
    else
      let s := { s with stp := { s.stp with lists := s.stp.lists.map (fun (y : StepList) => if y = e then { y with again := false } else y) } }
      (s.setRunner e.cab e.run { x with queue := x.queue ++ [{ newList e.fa e.count c e.tag true true with openAt := e.openAt }] }).kickCab e.cab) s
  if s.stp.lists.any (fun e => decide (e.ctx = c) && e.again) then s.later .unfz 1 (.replayRestart (Fin.ofNat 16 c)) else s

/-- An abort of this fc for a higher-numbered reason is recorded and counted for this one (R481). -/
def State.abortLower (s : State) (cab reason : Nat) : State :=
  match s.pwr.abt.find? (fun (e : PwrCmd × Nat × Nat) => decide (e.1.cab = cab) && decide (e.2.2 = s.time.fc) && decide (reason < e.2.1)) with
  | none => s
  | some e =>
    (({ s with pwr := { s.pwr with abt := s.pwr.abt.map (fun (x : PwrCmd × Nat × Nat) => if x = e then (e.1, reason, e.2.2) else x) } }).dec (R.PWR_ABT_CNT_COUNT (e.2.1 - 1))).refused cab e.1.target reason true e.1.job

/-- An event that aborts an entry in its drain: the cabinet stays in its former state (R479, R481). -/
def State.entryAbort (s : State) (cab reason : Nat) : State :=
  match s.pwr.cmds.find? (fun c => decide (c.cab = cab) && decide (c.phase = PwrPhase.drain)) with
  | none => s.abortLower cab reason
  | some c =>
    let s := { s with pwr := { s.pwr with abt := s.pwr.abt.filter (fun (e : PwrCmd × Nat × Nat) => decide (e.2.2 = s.time.fc)) ++ [(c, reason, s.time.fc)] } }
    ((s.endCmd cab).refused cab c.target reason true c.job).kickCab cab

/-- Is a core's watchdog held: by a halt of the core, or in a debug halt freeze by DBG_PAUSE? (R454, R487) -/
def State.wdtHeld (s : State) (m : Nat) : Bool := s.bit (bitFld R.MGT_HALT_STAT m) || (s.mgt.hold.isSome && s.bit (R.MGT_WDT_CFG_DBG_PAUSE m))

/-- What `t`, which follows `s`, does to the watchdogs: one that comes to be held notes when; one that is held no more goes on from the count it
had, of which a kick while it was held left nothing (R454, R487). -/
def State.wdtChange (s t : State) : State :=
  (List.range 11).foldl (fun (t : State) m =>
    if !s.wdtHeld m && t.wdtHeld m then { t with mgt := { t.mgt with haltAt := SMap.insert t.mgt.haltAt m t.time.now } }
    else if s.wdtHeld m && !t.wdtHeld m then
      let k := SMap.get 0 t.mgt.kicks m
      ({ t with mgt := { t.mgt with kicks := SMap.insert t.mgt.kicks m (k + (t.time.now - max k (SMap.get 0 t.mgt.haltAt m))) } }).later .wall 0 (.watchdogExpiry (Fin.ofNat 11 m))
    else t) t

/-- A wake request to a cabinet in Doze (R482): WAKE_SRC takes the source and the cabinet is in Run 8 fc later. -/
def State.wakeDoze (s : State) (cab src : Nat) : State :=
  if s.pow cab = 1 ∧ s.bit (cabBusy cab) = false then
    ((s.put (R.CAB_PWR_STAT_WAKE_SRC cab) src).put (cabBusy cab) 1).later .wall 8 (.dozeWakeDone (Fin.ofNat 128 cab))
  else s

/-! Control stations -/

/-- Cycle of the management clock (R418). -/
def State.cyc (s : State) : Nat := s.time.real / 300000

/-- Polling of a cabinet's station. -/
def State.poll (s : State) (p : Nat) : PollSt := SMap.get PollSt.idle s.rep.polls p

/-- Does a cabinet's control station leave accesses unanswered? -/
def State.silentCab (s : State) (p : Nat) : Bool := (s.poll p).silent

/-- What the station of a cabinet answers before a control access reaches the register: FAULT, ASLEEP, nothing at all, or leave to go
on (R49, R244). -/
inductive Station where
  | go | no (r : Resp) | silent
  deriving DecidableEq, Repr

/-- The answer of a cabinet's station (R49, R244). -/
def State.stationOf (s : State) (c : Nat) : Station :=
  if s.fenced c then .no .fault else if 2 ≤ s.pow c then .no .asleep else if s.silentCab c then .silent else .go

/-- A decode miss is counted and recorded (R417). -/
def State.decodeMiss (s : State) (req cause addr : Nat) : State :=
  (s.incOn R.CMX_DECODE_CNT_COUNT s.cyc).err { kind := 0x44, req := req, cab := none, addr := addr, data := 0x40000 + cause }

/-- The answer without data that a master's control access gets. -/
def State.answerCtl (s : State) (m : Master) (r : Resp) : State :=
  s.present! (2000 + masterIdx m) { at' := s.time.fc, tag := 0, dat := [0], zero := [], sb := 0, resp := r }

/-- A control write that its station leaves unanswered is outstanding until it is answered with FAULT (R244). -/
def State.lostWrite (s : State) (m : Master) (key : Nat) : State :=
  let q : CmxReq := { m := masterIdx m, tgt := 3, write := true, lock := false, la := 0x40000000 + s.ca key % 2 ^ 29, str := 0xFF, dat := 0, rel := some s.cyc }
  ({ s with cmx := { s.cmx with out := s.cmx.out ++ [({ req := q, id := 0, ans := none, due := 0, lost := some s.time.fc } : CmxOut)] } }).later .wall 1024 (.controlAccessTimeout m)

/-- A write of the register `key` behind the station of a cabinet (R48, R49): of a cabinet that does not exist a decode miss, answered zero;
of one whose station turns it away, answered so, with no effect. -/
def State.atStation (s : State) (m : Master) (cab key : Nat) (f : State → State) : State :=
  if s.synth cab = false then (s.decodeMiss (masterReq m) 4 (s.ca key)).answerCtl m .zero
  else
    match s.stationOf cab with
    | .go => f s
    | .no r => s.answerCtl m r
    | .silent => s.lostWrite m key

/-- Run a write when its master is accepted; otherwise it is ignored and logged as a locked-register write (R12). -/
def State.gate (s : State) (ok : Bool) (m : Master) (key : Nat) (f : State → State) : State :=
  if ok then f s else s.locked (masterReq m) (s.ca key)

/-- Such a write of a cabinet's register, through the cabinet's station. -/
def State.gateAt (s : State) (ok : Bool) (m : Master) (cab key : Nat) (f : State → State) : State :=
  s.atStation m cab key (fun s => s.gate ok m key f)

/-- The end of the management cycle in which wall time `n` from now falls. -/
def State.cycEnd (s : State) (n : Nat) : Nat := ((s.time.real + n) / ns 1 + 1) * ns 1

/-- Does a locked sequence of another master hold RGS on this cycle? (R422, R423) -/
def State.rgsShut (s : State) (m : Nat) : Bool :=
  s.cmx.locks.any (fun l => decide (l.1 = 3) && decide (l.2.1 ≠ m) && (decide (l.2.2 < 2 ^ 32) || decide (s.cyc ≤ l.2.2 - 2 ^ 32)))

/-- A register write that is a row of its own: while a locked sequence of another master holds RGS it waits, and comes on a later cycle
(R420, R422). -/
def State.row (s : State) (m : Master) (i : Instr) (f : State → State) : State := if s.rgsShut (masterIdx m) then s.at' .real (s.cycEnd 0) i else f s

/-- Synchronized presence of a port (R140). -/
def State.isPresent (s : State) (p : PresPort) : Bool := s.present.contains p

/-- A parity error of a staging buffer: SCH_PARITY naming the port, PORT_PAR, a replay with cause 1 of the owning context
(R139). `fld` is 0 WRP, 1 WWP, 2 narrow, 3 HFP. ADDR is 0: R205 names no kinds for the fabric address (DESIGN CHOICE, log entry 102). -/
def State.parity (s : State) (cab : Fin 128) (fld req : Nat) : State :=
  ((s.inc (portCnt R.CAB_PORT_PAR cab fld)).err { kind := 0x28, req := req, cab := some cab, ctx := s.eag cab }).replayCab cab 1

end Sys2Proof.Machine
end

