-- ==== Sys2Proof/Machine/Store.lean ====
section
/-! DEFINITION. The banks: stored codewords, valid bits, remapped words, reads and writes with their counters and records
(chapter "Protection of stored words"), fence causes. -/
namespace Sys2Proof.Machine

/-- Key of a word row in the table of valid bits. -/
def rowKey (cab bank row : Nat) : Nat := (cab * 32 + bank) * 4096 + row

/-- First cell of the 36 bytes of a word row's codeword: macro m holds bytes 2m and 2m + 1 of it (R18). -/
def macroCell (cab bank row : Nat) : Nat := rowKey cab bank row * 36

/-- First cell of a spare word (R237). -/
def spareCell (cab bank i : Nat) : Nat := 0x40000000 + ((cab * 32 + bank) * 8 + i) * 36

/-- The symbols of a codeword. -/
def State.syms (s : State) (a : Nat) : List Sym := (List.range 18).map (fun m => s.cell (a + 2 * m + 1) ++ s.cell (a + 2 * m))

/-- Write the symbols of a codeword. -/
def State.setSyms (s : State) (a : Nat) (l : List Sym) : State := s.setCells a (l.flatMap (fun x => leBytes 2 x.toNat))

/-- The remap entry that serves a row (R237). -/
def State.remapOf (s : State) (cab bank row : Nat) : Option Nat :=
  (List.range 8).find? (fun i => s.bit (R.RMP_ENT_VALID cab bank i) && decide (s.f (R.RMP_ENT_ROW cab bank i) = row))

/-- Place of the unfrozen fc number `u` in the order of all fc: the frozen fc that bear the number before it come first (R68). -/
def unfzAt (u : Nat) : Nat := u * 2 ^ 64 + (2 ^ 64 - 1)

/-- Place of wall fc `t` in the order of all fc, when `u` unfrozen fc are before it. -/
def fcAt (frozen : Bool) (u t : Nat) : Nat := if frozen then u * 2 ^ 64 + t else unfzAt u

/-- Macros of a bank retired for an access whose first fc of occupancy stands at place `u`: it must follow the fc that recorded them (R186). -/
def State.retiredAt (s : State) (cab bank u : Nat) : List Nat :=
  (if s.bit (R.BNK_RETIRE_V1 cab bank) && decide (SMap.get 0 s.rep.retFrom ((cab * 32 + bank) * 2) < u) then [s.f (R.BNK_RETIRE_MAC1 cab bank)] else []) ++
  (if s.bit (R.BNK_RETIRE_V2 cab bank) && decide (SMap.get 0 s.rep.retFrom ((cab * 32 + bank) * 2 + 1) < u) then [s.f (R.BNK_RETIRE_MAC2 cab bank)] else [])

/-- The three cells of a valid bit. -/
def State.validCells (s : State) (cab bank row : Nat) : BitVec 3 := SMap.get 0 s.valid (rowKey cab bank row)

/-- Majority of three cells (R189). -/
def majority (v : BitVec 3) : Bool := 2 ≤ (if v.getLsbD 0 then 1 else 0) + (if v.getLsbD 1 then 1 else 0) + (if v.getLsbD 2 then 1 else 0)

/-- Set the three cells of a valid bit. -/
def State.setValid (s : State) (cab bank row : Nat) : State := { s with valid := SMap.set 0 s.valid (rowKey cab bank row) 7 }

/-- Clear the valid bits of successive rows of a bank (R193). -/
def State.clearValid (s : State) (cab bank row0 rows : Nat) : State :=
  { s with valid := s.valid.filter (fun e => !(decide (rowKey cab bank row0 ≤ e.1) && decide (e.1 < rowKey cab bank row0 + rows))) }

/-- A fence cause on a cabinet (R242, R245, R246): with its automatic bit the fence takes effect on the 4th fc; without it
FENCE_PEND keeps the first cause, also while a fence is on its way. -/
def State.fenceCause (s : State) (cab cause : Nat) : State :=
  let auto := if cause = 1 then s.bit R.IDV_FENCE_CFG_AUTO_UE else if cause = 3 then s.bit R.IDV_FENCE_CFG_AUTO_SILENT else true
  if s.fenced cab then s
  else if auto then
    if s.rep.fences.any (fun e => decide (e.1 = cab)) then s
    else ({ s with rep := { s.rep with fences := s.rep.fences ++ [(cab, cause, s.time.fc + 4)] } }).later .wall 4 (.fenceTakeEffect (Fin.ofNat 128 cab))
  else if s.bit (cabBit R.IDV_FENCE_PEND cab) then s
  else (s.put (cabBit R.IDV_FENCE_PEND cab) 1).put (R.IDV_FENCE_CAUSE_PEND_CAUSE cab) cause

/-- Counter field of a macro (R224). -/
def mcntFld (cab bank mac : Nat) : Fld :=
  if mac % 2 = 0 then R.BNK_MCNT_EVEN cab bank (mac / 2) else R.BNK_MCNT_ODD cab bank (mac / 2)

/-- Is the macro's retirement to be recorded on the next fc? -/
def State.retNext (s : State) (cab bank mac : Nat) : Bool :=
  s.agenda.any (fun d => decide (d.cmd = .autoRetire (Fin.ofNat 128 cab) (Fin.ofNat 32 bank) (Fin.ofNat 18 mac)) && decide (d.due = s.time.fc + 1))

/-- Take a retirement of the next fc back. -/
def State.retDrop (s : State) (cab bank mac : Nat) : State :=
  { s with
    agenda := s.agenda.filter (fun d => !(decide (d.cmd = .autoRetire (Fin.ofNat 128 cab) (Fin.ofNat 32 bank) (Fin.ofNat 18 mac)) && decide (d.due = s.time.fc + 1)))
    rep := { s.rep with retDue := s.rep.retDue.filter (fun (e : Nat × Nat × Nat) => !decide (e = (cab, bank, mac))) } }

/-- Put an automatic retirement on the agenda of the next fc: the lower macro when two counters of a bank reach the limit on one fc (R187). -/
def State.armRetire (s : State) (cab bank mac : Nat) : State :=
  if (List.range (mac + 1)).any (fun m => s.retNext cab bank m) then s
  else
    let s := ((List.range 18).filter (fun m => s.retNext cab bank m)).foldl (fun s m => s.retDrop cab bank m) s
    ({ s with rep := { s.rep with retDue := s.rep.retDue ++ [(cab, bank, mac)] } }).later .wall 1 (.autoRetire (Fin.ofNat 128 cab) (Fin.ofNat 32 bank) (Fin.ofNat 18 mac))

/-- One correction at position `pos` (R183, R185, R187, R198); words of the spare array count no macro. A counter that stands at LIMIT or above
when AUTO_RET is set or LIMIT is lowered retires its macro with its next correction: R187 does not say (DESIGN CHOICE, log entry 101). The ADDR of
MEM_BKT_OVF is 0: R205 names no kinds for its fabric address (DESIGN CHOICE, log entry 102). -/
def State.countCorrection (s : State) (cab bank pos : Nat) (spare : Bool) (req : Nat) (ctx : Option Nat) : State :=
  let s := (s.incOn (R.BNK_CE_TOTAL_COUNT cab) s.time.fc).incOn (R.BNK_BKT_LEVEL cab bank) s.time.fc
  let ovf := bitFld (R.BNK_BKT_OVF cab) bank
  let s := if decide (s.f (R.BNK_BKT_CFG_THRESH cab) < s.f (R.BNK_BKT_LEVEL cab bank)) && !s.bit ovf then
      (s.put ovf 1).err { kind := 0x02, req := req, cab := some cab, bank := bank, sym := pos, ctx := ctx }
    else s
  if spare then s
  else
    let s := s.incOn (mcntFld cab bank pos) s.time.fc
    if s.bit (R.BNK_ECC_CTL_AUTO_RET cab) && !s.bit (R.BNK_RETIRE_V1 cab bank) &&
        decide (s.f (R.BNK_RET_LIMIT_LIMIT cab) ≤ s.f (mcntFld cab bank pos)) then s.armRetire cab bank pos
    else s

/-- One uncorrectable word read (R184, R243). -/
def State.countUe (s : State) (cab bank req : Nat) (ctx : Option Nat) (fa : Nat) (s0 s1 : Sym) : State :=
  let s := (s.incOn (R.BNK_STAT_UE cab) s.time.fc).err
    { kind := 0x01, req := req, cab := some cab, bank := bank, ctx := ctx, addr := fa / 32 * 32, data := s1.toNat * 65536 + s0.toNat }
  let s := s.inc (R.IDV_FENCE_CAUSE_UE_CNT cab)
  if s.f (R.IDV_FENCE_CAUSE_UE_CNT cab) = s.f R.IDV_FENCE_CFG_UE_LIMIT then s.fenceCause cab 1 else s

/-- What a word reads as before any counting: clear, uncorrectable or decoded (R180, R185, R190, R240). -/
inductive Word? where
  | clear
  | bad (s0 s1 : Sym)
  | good (w : W256) (pos : Option Nat) (spare : Bool)
  deriving DecidableEq, Repr

/-- Outcome of a decode, in a spare word or in the macros. -/
def Decoded.toWord (d : Decoded) (spare : Bool) : Word? := if d.ok then .good d.word d.pos spare else .bad d.s0 d.s1

/-- The word of a row, decoded under the retirements in force at place `u` of the order of fc. -/
def State.peek (s : State) (cab bank row u : Nat) : Word? :=
  if majority (s.validCells cab bank row) = false then .clear
  else
    let strict := s.bit (R.BNK_ECC_CTL_STRICT cab)
    match s.remapOf cab bank row with
    | some i =>
      if s.bit (R.RMP_ENT_POISON cab bank i) then .bad 0 0
      else (decodeSyms strict [] (s.syms (spareCell cab bank i))).toWord true
    | none => (decodeSyms strict (s.retiredAt cab bank u) (s.syms (macroCell cab bank row))).toWord false

/-- Count a disagreement of the cells of a valid bit (R189). -/
def State.countVb (s : State) (cab bank row : Nat) : State :=
  let v := s.validCells cab bank row
  if v = 0 ∨ v = 7 then s else s.incOn (R.BNK_STAT_VB cab) s.time.fc

/-- A decoded read of one word: state with its counts and records, data, zero flag, uncorrectable (R182 to R190). -/
def State.readWord (s : State) (cab bank row u req : Nat) (ctx : Option Nat) (fa : Nat) : State × W256 × Bool × Bool :=
  let t := s.countVb cab bank row
  match s.peek cab bank row u with
  | .clear => (t, 0, true, false)
  | .bad s0 s1 => (t.countUe cab bank req ctx fa s0 s1, 0, false, true)
  | .good w none _ => (t, w, false, false)
  | .good w (some k) sp => (t.countCorrection cab bank k sp req ctx, w, false, false)

/-- Fault injection on the symbols as they are stored (R200). -/
def State.inject (s : State) (cab bank : Nat) (l : List Sym) : State × List Sym :=
  let n := s.f (R.BNK_INJ_CTL_COUNT cab)
  if n ≠ 0 ∧ s.f (R.BNK_INJ_CTL_BANK cab) = bank then
    (s.put (R.BNK_INJ_CTL_COUNT cab) (n - 1), symAdd l (s.f (R.BNK_INJ_CTL_SYM cab)) (BitVec.ofNat 16 (s.f (R.BNK_INJ_CTL_MASK cab))))
  else (s, l)

/-- Store a word: encoded (R179), through the injection (R200), in its spare or its macros (R237). -/
def State.storeWord (s : State) (cab bank row : Nat) (w : W256) : State :=
  let p := s.inject cab bank (encodeWord w)
  match s.remapOf cab bank row with
  | some i => p.1.setSyms (spareCell cab bank i) p.2
  | none => p.1.setSyms (macroCell cab bank row) p.2

/-- A whole-word write: the codeword, the valid bit, POISON of its entry cleared (R179, R189, R240). -/
def State.writeWord (s : State) (cab bank row : Nat) (w : W256) : State :=
  let t := (s.storeWord cab bank row w).setValid cab bank row
  match s.remapOf cab bank row with
  | some i => t.put (R.RMP_ENT_POISON cab bank i) 0
  | none => t

/-- A read-merge-write of one word; true when the stored word was uncorrectable and nothing was written (R126). -/
def State.mergeWrite (s : State) (cab bank row u req : Nat) (ctx : Option Nat) (fa be : Nat) (w : W256) : State × Bool :=
  let r := s.readWord cab bank row u req ctx fa
  if r.2.2.2 then (r.1, true) else (r.1.writeWord cab bank row (mergeWord be w r.2.1), false)

/-- Read several words of one row: `n` banks from `bank`; words in ascending bank. -/
def State.readWords (s : State) (cab row u req : Nat) (ctx : Option Nat) (fa : Nat) : Nat → Nat → State × List (W256 × Bool × Bool)
  | 0, _ => (s, [])
  | n + 1, bank =>
    let r := s.readWord cab bank row u req ctx (fa / 1024 * 1024 + bank * 32)
    let rest := r.1.readWords cab row u req ctx fa n (bank + 1)
    (rest.1, r.2 :: rest.2)

/-- Write successive words of one row from `bank`. -/
def State.writeWords (s : State) (cab row : Nat) : Nat → List W256 → State
  | _, [] => s
  | bank, w :: ws => (s.writeWord cab bank row w).writeWords cab row (bank + 1) ws

/-- The lowest free spare of a bank (R239). -/
def State.freeSpare (s : State) (cab bank : Nat) : Option Nat :=
  (List.range 8).find? (fun i => !s.bit (R.RMP_ENT_VALID cab bank i))

/-- Make a remap entry and keep RMP.FULL (R237, R255). -/
def State.setEntry (s : State) (cab bank i row src : Nat) (poison : Bool) : State :=
  let s := s.puts [(R.RMP_ENT_ROW cab bank i, row), (R.RMP_ENT_VALID cab bank i, 1), (R.RMP_ENT_SRC cab bank i, src),
    (R.RMP_ENT_POISON cab bank i, if poison then 1 else 0)]
  s.putb (bitFld (R.RMP_FULL cab) bank) (s.freeSpare cab bank).isNone

/-- Move a word row into the lowest free spare (R239): codeword of zero, of the correct word, or of the received data symbols
with POISON. Answers whether the word was uncorrectable; none when no spare is free. -/
def State.moveRow (s : State) (cab bank row u src req : Nat) : State × Option Bool :=
  match s.freeSpare cab bank with
  | none => (s, none)
  | some i =>
    let t := s.countVb cab bank row
    let put (t : State) (w : W256) : State :=
      let p := t.inject cab bank (encodeWord w)
      p.1.setSyms (spareCell cab bank i) p.2
    match s.peek cab bank row u with
    | .clear => ((put t 0).setEntry cab bank i row src false, some false)
    | .good w pos sp =>
      let t := match pos with
        | some k => t.countCorrection cab bank k sp req none
        | none => t
      ((put t w).setEntry cab bank i row src false, some false)
    | .bad s0 s1 =>
      let t := t.countUe cab bank req none (s.faOf cab (row * 32 + bank)) s0 s1
      ((put t (symsWord (s.syms (macroCell cab bank row)))).setEntry cab bank i row src true, some true)

end Sys2Proof.Machine
end

