-- ==== Sys2Proof/Machine/Loose.lean ====
section
/-! DEFINITION. The loose class: injection and its checks, flits and links, pair arbitration, bursts at the banks and the
answers to whoever asked (chapters "Bank slots and loose-class arbitration" and "Engine ports"). -/
namespace Sys2Proof.Machine

/-! Bank pairs -/

/-- The state of a bank pair. -/
def State.pairSt (s : State) (cab pair : Nat) : PairSt := SMap.get PairSt.idle s.loose.pairs (cab * 16 + pair)

/-- Replace the state of a bank pair. -/
def State.setPairSt (s : State) (cab pair : Nat) (p : PairSt) : State :=
  { s with loose := { s.loose with pairs := SMap.set PairSt.idle s.loose.pairs (cab * 16 + pair) p } }

/-- The banks of its pair that an access uses: the even one, the odd one (R126, R148). -/
def LReqBanks (q : LReq) : Bool × Bool :=
  match q.op with
  | .acc => (beWord q.be 0 != 0, beWord q.be 1 != 0)
  | .sweep b _ _ => (b % 2 == 0, b % 2 == 1)
  | .move b _ => (b % 2 == 0, b % 2 == 1)
  | .repair b _ => (b % 2 == 0, b % 2 == 1)

/-- Does a write need a read-merge-write in one of its words? (R126) -/
def LReqMerges (q : LReq) : Bool :=
  let part (w : Nat) : Bool := beWord q.be w != 0 && beWord q.be w != 2 ^ 32 - 1
  q.we && (part 0 || part 1)

/-- Duration of a burst (R148). R160 gives DBG bursts, which it takes to be reads and whole-word writes, 2 fc; a DBG write of part of a word
merges and takes the two accesses of R19 (R413; DEDUCED, log entry 85). -/
def LReqDur (q : LReq) : Nat :=
  match q.op with
  | .acc => if LReqMerges q then 4 else 2
  | .sweep _ _ _ => 2
  | .move _ _ => 4
  | .repair _ _ => 8

/-- For how many fc a burst holds one bank of its pair: the whole word of a write that merges in the other word is done after 2 (R128,
R149). -/
def LReqBankDur (q : LReq) (w : Nat) : Nat :=
  match q.op with
  | .acc => if beWord q.be w = 2 ^ 32 - 1 then min 2 (LReqDur q) else LReqDur q
  | .sweep _ _ _ => LReqDur q
  | .move _ _ => LReqDur q
  | .repair _ _ => LReqDur q

/-- The pair an access belongs to. -/
def LReqPair (q : LReq) : Nat :=
  match q.op with
  | .acc => faPair q.fa
  | .sweep b _ _ => b / 2
  | .move b _ => b / 2
  | .repair b _ => b / 2

/-- A decision of the pair on the next fc: of the unfrozen clock, or of the wall clock while a DBG request waits (R160). A head of another
requester that stands there on a frozen fc is presented with wait 0 on the first unfrozen one: the manual does not say on which (DESIGN
CHOICE, log entry 86). -/
def State.armPair (s : State) (cab pair : Nat) : State :=
  let i : Instr := .pairArbitration (Fin.ofNat 128 cab) (Fin.ofNat 16 pair)
  if (s.pairSt cab pair).queue.any (fun q => q.acc.req == 10) then
    if s.agenda.any (fun d => decide (d.cmd = i) && decide (d.clk = .wall)) then s else (s.disarm i).later .wall 1 i
  else s.arm .unfz 1 i

/-- A request joins the queue of its pair, to be presented from the next fc on (R154). -/
def State.enqueue (s : State) (cab : Nat) (q : LReq) : State :=
  let p := s.pairSt cab (LReqPair q)
  (s.setPairSt cab (LReqPair q) { p with queue := p.queue ++ [{ acc := q, presented := false, since := s.time.fc, base := 0, urgent := false }] }).armPair cab (LReqPair q)

/-- A request joins the queue of its pair and is presented on this fc where it is the head. -/
def State.enqueueNow (s : State) (cab : Nat) (q : LReq) : State :=
  let p := s.pairSt cab (LReqPair q)
  ((s.setPairSt cab (LReqPair q) { p with queue := p.queue ++ [{ acc := q, presented := false, since := s.time.fc - 1, base := 0, urgent := false }] }).armPair cab (LReqPair q)).later
    .unfz 0 (.pairArbitration (Fin.ofNat 128 cab) (Fin.ofNat 16 (LReqPair q)))

/-! Answers -/

/-- The command that takes an answer. -/
def takes : Origin → Instr
  | .np c p _ => .npCompletion (Fin.ofNat 128 c) (Fin.ofNat 2 p) false
  | .hdp _ => .hdpCompletion
  | .seg c r 0 => .segmentAnswer (Fin.ofNat 128 c) (Fin.ofNat 4 r)
  | .seg c r (n + 1) => .mcastAck (Fin.ofNat 128 c) (Fin.ofNat 4 r) (Fin.ofNat 16 n)
  | .fetch c r _ => .descriptorFetch (Fin.ofNat 128 c) (Fin.ofNat 4 r)
  | .mgt m => .cmxResponse (masterOf m)
  | .edgeIn k _ => .txRspTimeout (Fin.ofNat 4 k)
  | .edgeOut k n => if n = 1 then .edgePut (Fin.ofNat 4 k) else .edgeGet (Fin.ofNat 4 k)
  | .asy c _ => .assayBurst (Fin.ofNat 128 c)
  | .rep c _ => .assayRepair (Fin.ofNat 128 c)
  | .rmp c => .remapMove (Fin.ofNat 128 c)
  | .swp c => .sweepRangeDone (Fin.ofNat 128 c)
  | .gone => .dumpDone

/-- An answer reaches the unit that asked. A response to an access that was already answered is discarded (R248): its
entry is gone. -/
def State.deliver (s : State) (q : LReq) (a : Ans) : State :=
  let s := { s with
    loose := { s.loose with far := s.loose.far.filter (fun e => decide (e.1.id ≠ q.id)) }
    syn := { s.syn with crossed := s.syn.crossed.filter (fun u => decide (u.1 ≠ q.id)) } }
  match q.org with
  | .hdp _ =>
    ({ s with loose := { s.loose with ports := s.loose.ports.map (fun (e : PortReq) => if decide (e.id = q.id) && e.ans.isNone then { e with ans := some a } else e) } }).later .real (ns 1) .hdpCompletion
  | .np _ _ _ =>
    let hit (e : PortReq) : Bool := decide (e.id = q.id)
    let gate := ((s.loose.ports.find? hit).map (fun e => e.gate)).getD 0
    ({ s with loose := { s.loose with ports := s.loose.ports.map (fun e => if hit e && e.ans.isNone then { e with ans := some a } else e) } }).at'
      .unfz (max gate s.time.ufc) (takes q.org)
  | .gone => s
  | _ => ({ s with loose := { s.loose with acked := s.loose.acked ++ [(q, a, s.time.ufc)] } }).later .wall 1 (takes q.org)

/-- The clock on which a flit moves: those of DBG also on frozen fc (R74, R162). -/
def flitClk (q : LReq) : Clock := if q.req = 10 then .wall else .unfz

/-- A flit sets out from cabinet `cab` of this die. -/
def State.launch (s : State) (q : LReq) (a : Option Ans) (cab dst dstDie lvl : Nat) : State :=
  let f : LFlit := { acc := q, ans := a, src := cab, dst := dst, dstDie := dstDie, cur := cab, port := 4, out := 5, hops := 0, det := none, lvl := lvl, ready := s.clock (flitClk q), since := 0 }
  ({ s with loose := { s.loose with flits := s.loose.flits ++ [f] } }).later (flitClk q) 1 (.looseFlitHop q.id)

/-- Level of a requester's flits at injection, urgent when the request was urgent (R165, R166). An answer sets out from the cabinet of its
banks, where its request was one of that cabinet's requesters: at that cabinet's priority of INB where it came from another one (DESIGN
CHOICE, log entry 87). -/
def State.injLevel (s : State) (cab req : Nat) (urg : Bool) : Nat := if req = 10 then 5 else if urg then 4 else s.prio cab req

/-- A flit toward another die sets out for its lane's cabinet, and is refused where no route is set (R536). -/
def State.launchFar (s : State) (q : LReq) (a : Option Ans) (cab die : Nat) (urg : Bool := false) : State :=
  match s.laneTo die cab with
  | some l =>
    let s := if a.isNone then { s with loose := { s.loose with far := s.loose.far ++ [(q, l)] } } else s
    s.launch q a cab (s.laneCab l) die (s.injLevel cab q.req urg)
  | none => ((s.refuse q.req (some cab) q.ctx (accAddr q) 0x10100).inc R.IDV_ROUTE_REFUSE_COUNT).deliver q (noAns .fault 2)

/-- The data of a narrow read in its own cabinet reaches the port on the second fc after its banks (R128). -/
def State.readBack (s : State) (q : LReq) : State :=
  { s with loose := { s.loose with ports := s.loose.ports.map (fun (e : PortReq) => if decide (e.id = q.id) && !q.we then { e with gate := max e.gate (s.time.ufc + 1) } else e) } }

/-- The answer of an access served or refused at cabinet `cab` of this die goes to where it came from. -/
def State.reply (s : State) (q : LReq) (a : Ans) (cab : Nat) (urg : Bool := false) : State :=
  let s := if q.we then s.drained q.id else s
  if q.homeDie ≠ s.die then s.launchFar q (some a) cab q.homeDie urg
  else if q.home = cab then (s.readBack q).deliver q a
  else s.launch q (some a) cab q.home q.homeDie (s.injLevel cab q.req urg)

/-- An answer that goes over the control network, or at the port itself, without a flit (R251). -/
def State.replyNow (s : State) (q : LReq) (a : Ans) (cab : Nat) : State :=
  let s := if q.we then s.drained q.id else s
  if q.homeDie ≠ s.die then s.launchFar q (some a) cab q.homeDie else s.deliver q a

/-- An access that stands at its target cabinet `p`: power state (R137), then the queue of its pair as requester `i`. -/
def State.arrive (s : State) (q : LReq) (p i : Nat) : State :=
  if servedIn false (s.pow p) = false then s.reply q (noAns .asleep 2) p
  else ((s.entryAbort p 8).wakeDoze p 1).enqueue p { q with req := i }

/-- Earliest completion of a local access, in fc after its acceptance (R128). -/
def npMin (q : LReq) : Nat := if q.we = false then 5 else if LReqMerges q then 6 else 4

/-- The answer of a segment to a cabinet that does not serve it, given where it was presented: no earlier than the minimum that R130 gives
for its way (R315). -/
def State.replyAsleep (s : State) (q : LReq) (cab p : Nat) : State :=
  match q.org with
  | .seg _ _ _ =>
    let n := npMin q + 8 * hopDist cab p
    let s := if q.we then s.drained q.id else s
    ({ s with loose := { s.loose with acked := s.loose.acked ++ [(q, noAns .asleep 2, s.time.ufc + n)] } }).later .unfz n (takes q.org)
  | _ => s.replyNow q (noAns .asleep 2) cab

/-- An access of a loose requester enters the fabric at cabinet `cab`: the checks of R135 on this die, then its queue or the
mesh. -/
def State.issueLoose (s : State) (q : LReq) (cab : Nat) : State :=
  match s.target q.cls q.we q.ctx q.fa with
  | .refused => (s.refuse q.req (some cab) q.ctx (accAddr q)).replyNow q (noAns .fault 2) cab
  | .violation w k => (s.violate q.req (some cab) q.ctx (accAddr q) w k).replyNow q (noAns .fault 2) cab
  | .far d => (if q.we then s.undrain q.id q.home q.req else s).launchFar q none cab d
  | .at' p =>
    let s := if q.we then s.undrain q.id q.home q.req else s
    if p = cab then s.arrive q p q.req
    else if servedIn false (s.pow p) = false then s.replyAsleep q cab p
    else s.launch q none cab p s.die (s.injLevel cab q.req false)

/-! Presentation and withdrawal -/

/-- Does the sweep after a wake from Quench run in the cabinet? It receives every slot (R191). -/
def State.wakeSweep (s : State) (cab : Nat) : Bool := s.rep.swp.any (fun e => decide (e.1 = cab) && e.2.run.any (fun r => decide (r.org = .wake)))

/-- Do two accesses come from one narrow port and name one 64-byte block? (R129) -/
def samePortBlock (a b : LReq) : Bool :=
  match a.org, b.org with
  | .np c p _, .np d q _ => decide (c = d) && decide (p = q) && decide (a.homeDie = b.homeDie) && decide (a.fa / 64 = b.fa / 64)
  | _, _ => false

/-- Write that enables no byte: it touches no bank (R126, R127). -/
def LReqIdle (q : LReq) : Bool := decide (LReqBanks q = (false, false))

/-- Does no earlier request of the same port to the same block wait at the pair or hold its banks? A write that enables no byte is answered
then, without the place at the head that a burst needs (R127, R129). -/
def State.idleDue (s : State) (cab pair : Nat) (q : LReq) : Bool :=
  LReqIdle q && !(s.pairSt cab pair).bursts.any (fun b => samePortBlock b.req.acc q) &&
    !((s.pairSt cab pair).queue.takeWhile (fun x => decide (x.acc.id ≠ q.id))).any (fun x => samePortBlock x.acc q)

/-- Has every burst of an earlier request of the same port to the same block ended by the next fc? Such requests take effect in order
(R129). -/
def State.inOrder (s : State) (cab pair : Nat) (q : LReq) : Bool :=
  !(s.pairSt cab pair).bursts.any (fun b => samePortBlock b.req.acc q && decide (s.time.ufc + 1 ≤ b.last))

/-- The window check of a request at its pair (R393): one that fails it is answered under R394, and leaves the pair. -/
def State.checkHead (s : State) (cab pair : Nat) (q : LReq) : State × Bool :=
  let p := s.pairSt cab pair
  match s.allow q.cls q.we q.ctx q.fa with
  | .no w k => (((s.setPairSt cab pair { p with queue := p.queue.filter (fun x => !decide (x.acc.id = q.id)) }).violate q.req (some cab) q.ctx (accAddr q) w k).reply q (noAns .fault 2) cab, false)
  | .ok _ => (s, true)

/-- Answer the writes that enable no byte (R126, R127). -/
def State.answerIdle (s : State) (cab pair : Nat) : State :=
  ((s.pairSt cab pair).queue.filter (fun q => LReqIdle q.acc && decide (q.since < s.time.fc))).foldl (fun s q =>
    if s.idleDue cab pair q.acc then
      let r := s.checkHead cab pair q.acc
      let p := r.1.pairSt cab pair
      if r.2 then (r.1.setPairSt cab pair { p with queue := p.queue.filter (fun x => !decide (x.acc.id = q.acc.id)) }).reply q.acc (noAns .ok 2) cab else r.1
    else s) s

/-- Present the heads that are not presented yet, in a cabinet in Run, with the window check of that fc (R154, R393). A write that enables
no byte is no head: it needs no bank. -/
def State.presentHeads (s : State) (cab pair : Nat) : State :=
  if s.pow cab ≠ 0 ∧ s.wakeSweep cab = false then s
  else
    (List.range 11).foldl (fun s i =>
      let p := s.pairSt cab pair
      match p.queue.find? (fun q => q.acc.req == i && !LReqIdle q.acc) with
      | none => s
      | some q =>
        if q.presented || decide (s.time.fc ≤ q.since) then s
        else
          let r := s.checkHead cab pair q.acc
          if !r.2 then r.1
          else
            let p := { p with queue := p.queue.map (fun x => if decide (x.acc.id = q.acc.id) then { x with presented := true, since := s.time.ufc } else x) }
            (s.setPairSt cab pair p).at' .unfz (s.time.ufc + (s.ageLimit cab - q.base)) (.requestUrgent (Fin.ofNat 128 cab) (Fin.ofNat 16 pair))) (s.answerIdle cab pair)

/-- Take the requests for which `f` holds off every pair that waits (R164). -/
def State.withdraw (s : State) (f : Nat → LReq → Bool) : State × List (Nat × LReq) :=
  let gone := s.loose.pairs.flatMap (fun e => (e.2.queue.filter (fun q => f (e.1 / 16) q.acc)).map (fun q => (e.1 / 16, q.acc)))
  (s.loose.pairs.foldl (fun s e => s.setPairSt (e.1 / 16) (e.1 % 16) { e.2 with queue := e.2.queue.filter (fun q => !f (e.1 / 16) q.acc) }) s, gone)

/-! Decisions -/

/-- Is any freeze in force? -/
def State.anyFreeze (s : State) : Bool :=
  s.bit R.LCT_FRZ_STAT_BRIDGE || s.bit R.LCT_FRZ_STAT_CLAMP || s.bit R.LCT_FRZ_STAT_DEBUG || s.bit R.LCT_FRZ_STAT_FIRMWARE ||
    s.bit R.LCT_FRZ_STAT_LICENSEE || s.bit R.LCT_FRZ_STAT_PACKAGE

/-- The clamp in force as N and M (R501, R503): the trip clamp over PWR.CLAMP_CFG. -/
def State.clampNow (s : State) : Option (Nat × Nat) :=
  if s.bit R.PWR_CLAMP_STAT_TRIP then some (60, 64)
  else if s.bit R.PWR_CLAMP_STAT_ENGAGED then some (s.f R.PWR_CLAMP_CFG_N, s.f R.PWR_CLAMP_CFG_M)
  else none

/-- Is wall fc `t` a frozen phase of the clamp? (R501) -/
def State.clampPhase (s : State) (t : Nat) : Bool := s.clampNow.any (fun c => decide (t % c.2 < c.1))

/-- Will the wall fc `t` be frozen, as the freezes known now say? Fewer than three fc between two freezes are frozen too (R73, R160), the
second of which may be the next of the clamp, whose phases are known. -/
def State.frozenAt (s : State) (t : Nat) : Bool :=
  let on (x : FrzSrc) (b : Fld) : Bool :=
    (s.bit b || s.frz.starts.any (fun e => decide (e.1 = x) && decide (e.2 ≤ t))) &&
      !s.frz.ends.any (fun e => decide (e.1 = x) && decide (e.2 ≤ t) && !s.frz.starts.any (fun b => decide (b.1 = x) && decide (e.2 ≤ b.2) && decide (b.2 ≤ t)))
  on .bridge R.LCT_FRZ_STAT_BRIDGE || on .clamp R.LCT_FRZ_STAT_CLAMP || on .debug R.LCT_FRZ_STAT_DEBUG ||
    on .firmware R.LCT_FRZ_STAT_FIRMWARE || on .licensee R.LCT_FRZ_STAT_LICENSEE || on .package R.LCT_FRZ_STAT_PACKAGE ||
    s.frz.ends.any (fun e => decide (e.2 ≤ t) && (s.frz.starts.any (fun b => decide (t < b.2) && decide (b.2 < e.2 + 3)) ||
      (List.range 2).any (fun d => decide (s.time.fc + 3 ≤ t + 1 + d) && decide (t + 1 + d < e.2 + 3) && s.clampPhase (t + 1 + d)))) ||
    (s.frozen && !s.anyFreeze && s.frz.starts.any (fun b => decide (t < b.2)))

/-- Is the bank held for an access in a hold register or a landing stage? (R115, R149) -/
def State.bankHeld (s : State) (cab bank : Nat) : Bool :=
  s.set.holds.any (fun h => decide (h.cab = cab) && h.rel.isNone && decide (faGroup h.addr = bank / 8)) ||
    s.set.land.any (fun l => decide (l.cab = cab) && l.hold.isSome && decide (faGroup l.f.fa = bank / 8))

/-- Is the bank claimed by the set class on schedule fc `t`? (R56, R113, R123) -/
def State.claimedOn (s : State) (cab bank t : Nat) : Bool :=
  s.set.claims.any (fun c => decide (c.cab = cab) && decide (c.grp = bank / 8) && (decide (t = s.claimAt c + 1) || decide (t = s.claimAt c + 2))) ||
    s.set.ops.any (fun c => decide (c.cab = cab) && decide (c.grp = bank / 8) && (decide (t = c.at' + 1) || decide (t = c.at' + 2)))

/-- Does bank `b` of a burst cover bank number `bank`? -/
def Burst.covers (b : Burst) (bank : Nat) : Bool := if bank % 2 = 0 then b.b0 else b.b1

/-- Last fc of a loose burst on one bank (R149). -/
def Burst.lastOf (b : Burst) (bank : Nat) : Nat := b.from' + LReqBankDur b.req.acc (bank % 2) - 1

/-- May a loose burst of duration `d` start on the next fc on this bank? (R149) -/
def State.bankFree (s : State) (cab bank d : Nat) : Bool :=
  !s.bankHeld cab bank && !(List.range d).any (fun i => s.claimedOn cab bank (s.time.stime + 1 + i)) &&
    !(s.pairSt cab (bank / 2)).bursts.any (fun b => b.covers bank && (if b.dbg then decide (s.time.fc + 1 ≤ b.last) else decide (s.time.ufc + 1 ≤ b.lastOf bank)))

/-- Unfrozen fc from this one to the one before wall fc `t`: schedule time and unfrozen time advance by as many until `t`. -/
def State.ahead (s : State) (t : Nat) : Nat :=
  (if s.frozen then 0 else 1) + ((List.range (t - s.time.fc - 1)).filter (fun j => !s.frozenAt (s.time.fc + 1 + j))).length

/-- Does a loose burst occupy a bank on a wall fc after this one? Through a freeze, when the freeze finds it in its occupancy (R162). -/
def State.occupies (s : State) (b : Burst) (bank t : Nat) : Bool :=
  let u := s.time.ufc + s.ahead t
  !b.dbg && b.covers bank && decide (u ≤ b.lastOf bank) && (if s.frozenAt t then decide (b.from' < u) else decide (b.from' ≤ u))

/-- Does a loose burst that was in its occupancy when the present freeze began keep the bank? It finishes after the freeze (R162). -/
def State.frozenBurst (s : State) (cab bank : Nat) : Bool :=
  s.frozen && (s.pairSt cab (bank / 2)).bursts.any (fun b => !b.dbg && b.covers bank && decide (b.from' < s.time.ufc) && decide (s.time.ufc ≤ b.lastOf bank))

/-- May a DBG burst take this bank on the next `d` fc? (R160, R162) -/
def State.bankFreeDbg (s : State) (cab bank d : Nat) : Bool :=
  !s.frozenBurst cab bank &&
  (List.range d).all (fun i =>
    let t := s.time.fc + 1 + i
    let a := s.time.stime + s.ahead t
    if s.frozenAt t then
      !s.set.ops.any (fun c => decide (c.cab = cab) && decide (c.grp = bank / 8) && decide (c.at' + 2 = a)) && !(s.pairSt cab (bank / 2)).bursts.any (fun b => s.occupies b bank t)
    else !s.bankHeld cab bank && !s.claimedOn cab bank a)

/-- Do the banks that an access needs pass a test? -/
def LReqFits (q : LReq) (pair : Nat) (ok : Nat → Bool) : Bool :=
  (!(LReqBanks q).1 || ok (2 * pair)) && (!(LReqBanks q).2 || ok (2 * pair + 1))

/-- The command that performs a burst when its last fc has passed. -/
def doneCmd (cab pair : Nat) : BankOp → Instr
  | .acc => .looseBurstDone (Fin.ofNat 128 cab) (Fin.ofNat 16 pair)
  | .sweep _ _ _ => .looseBurstDone (Fin.ofNat 128 cab) (Fin.ofNat 16 pair)
  | .move _ _ => .remapMove (Fin.ofNat 128 cab)
  | .repair _ _ => .assayRepair (Fin.ofNat 128 cab)

/-- Does the burst write a whole word in one bank and merge in the other? (R126) -/
def Burst.mixed (b : Burst) : Bool := !b.dbg && b.b0 && b.b1 && decide (b.lastOf 0 ≠ b.lastOf 1)

/-- Grant a request: it leaves the queue and its burst starts on the next fc (R149, R169). -/
def State.grant (s : State) (cab pair : Nat) (q : PReq) : State :=
  let p := s.pairSt cab pair
  let w := s.waitOf q
  let dbg := q.acc.req == 10
  let d := LReqDur q.acc
  let now := if dbg then s.time.fc else s.time.ufc
  let b : Burst := { req := q, b0 := (LReqBanks q.acc).1, b1 := (LReqBanks q.acc).2, dur := d, from' := now + 1, last := now + d, dbg := dbg, wait := w, prio := s.prio cab q.acc.req, urg := s.urgentReq cab q, u := fcAt (dbg && s.frozenAt (s.time.fc + 1)) (s.time.ufc + (if s.frozen then 0 else 1)) (s.time.fc + 1) }
  let s := s.setPairSt cab pair { p with queue := p.queue.filter (fun x => !decide (x.acc.id = q.acc.id)), bursts := p.bursts ++ [b] }
  let s := s.maxOn (R.ARB_LONGEST_COUNT cab q.acc.req) s.time.fc w
  let s := if b.mixed then s.later .unfz 3 (doneCmd cab pair q.acc.op) else s
  s.later (if dbg then .wall else .unfz) (d + 1) (doneCmd cab pair q.acc.op)

/-- A burst ends on this fc before it commits: it becomes the head of its requester again, and the request that had become head waits
behind it (R161). The whole word of a mixed write that has committed by then (R128) stays written, though the burst is performed again: the
manual does not say (DESIGN CHOICE, log entry 100). -/
def State.cutBurst (s : State) (cab pair : Nat) (b : Burst) : State :=
  let p := s.pairSt cab pair
  let back : PReq := { b.req with presented := true, since := s.time.ufc + (if s.frozen then 0 else 1), base := b.wait }
  let q := p.queue.map (fun x => if x.acc.req == b.req.acc.req && x.presented then
    { x with presented := false, since := 0, base := s.waitOf x, urgent := s.urgentReq cab x, shown := s.time.ufc + 1 } else x)
  (s.setPairSt cab pair { p with queue := back :: q, bursts := p.bursts.filter (fun x => !decide (x.req.acc.id = b.req.acc.id)) })

/-- DBG abandons a burst; ARB.PREEMPT counts it on the next fc (R161, R162). -/
def State.abandon (s : State) (cab pair : Nat) (b : Burst) : State :=
  let s := s.cutBurst cab pair b
  { s with loose := { s.loose with cut := s.loose.cut ++ [cab] } }

/-- A set-class access claims a bank group for an occupancy that begins at schedule fc `a`: repair bursts of 8 fc, granted before the claim was
known, end where they would cover a claimed fc, since a loose grant covers none (R56; the manual's notice of claims is 4 fc and it does not
say how such a burst ends: DESIGN CHOICE, log entry 88). -/
def State.clearClaim (s : State) (cab grp a : Nat) : State :=
  (List.range 4).foldl (fun s j =>
    let pair := grp * 4 + j
    let hit (b : Burst) : Bool := !b.dbg && decide (4 < b.dur) && decide (s.time.ufc + a ≤ b.last + s.time.stime)
    let l := (s.pairSt cab pair).bursts.filter hit
    if l.isEmpty then s else (l.foldl (fun s b => s.cutBurst cab pair b) s).armPair cab pair) s

/-- The DBG decision: the grant abandons every uncommitted loose burst that occupies a bank of it while it runs (R160, R161). -/
def State.decideDbg (s : State) (cab pair : Nat) : State :=
  match (s.pairSt cab pair).queue.find? (fun q => q.acc.req == 10 && q.presented) with
  | none => s
  | some q =>
    let d := LReqDur q.acc
    if LReqFits q.acc pair (fun b => s.bankFreeDbg cab b d) then
      let on (b : Burst) (bank : Nat) : Bool := (List.range d).any (fun i => s.occupies b bank (s.time.fc + 1 + i))
      let hit (b : Burst) : Bool := ((LReqBanks q.acc).1 && on b (2 * pair)) || ((LReqBanks q.acc).2 && on b (2 * pair + 1))
      (((s.pairSt cab pair).bursts.filter hit).foldl (fun s b => s.abandon cab pair b) s).grant cab pair q
    else s

/-- Level at which a request competes: a requester that holds a grant at the pair keeps the priority of that grant (R152,
R159). -/
def State.compLevel (s : State) (cab pair : Nat) (q : PReq) : Nat :=
  if s.urgentReq cab q then 4
  else
    match (s.pairSt cab pair).bursts.find? (fun b => b.req.acc.req == q.acc.req) with
    | some b => b.prio
    | none => s.prio cab q.acc.req

/-- The loose decisions of one level, in round-robin order from the pointer (R150, R153). -/
def State.decideLevel (s : State) (cab pair lvl : Nat) (cands : List (PReq × Nat)) : State :=
  let start := (s.pairSt cab pair).rr.getD lvl 0
  (List.range 10).foldl (fun s k =>
    let i := (start + k) % 10
    match cands.find? (fun c => c.1.acc.req == i && c.2 == lvl) with
    | none => s
    | some c =>
      if LReqFits c.1.acc pair (fun b => s.bankFree cab b (LReqDur c.1.acc)) then
        let s := s.grant cab pair c.1
        let p := s.pairSt cab pair
        s.setPairSt cab pair { p with rr := p.rr.set lvl ((i + 1) % 10) }
      else s) s

/-- Requests that compete at a pair, with their levels (R152). -/
def State.cands (s : State) (cab pair : Nat) : List (PReq × Nat) :=
  ((s.pairSt cab pair).queue.filter (fun q => q.presented && q.acc.req != 10 && s.inOrder cab pair q.acc)).map (fun q => (q, s.compLevel cab pair q))

/-- The decisions of one level. A request that a grant has made the head is presented on this fc and competes for the other bank
(R150, R154). -/
def State.decideTwice (s : State) (cab pair lvl : Nat) : State :=
  let s := s.decideLevel cab pair lvl (s.cands cab pair)
  let s := s.presentHeads cab pair
  s.decideLevel cab pair lvl (s.cands cab pair)

/-- One decision of a pair (R149 to R162). While an urgent request waits, nothing is granted at priorities 0 to 3 (R156); a cabinet that
drains for an entry grants no new loose burst (R479). -/
def State.decide' (s : State) (cab pair : Nat) : State :=
  let s := (s.presentHeads cab pair).decideDbg cab pair
  if s.frozen || s.draining cab then s
  else if (s.cands cab pair).any (fun c => c.2 == 4) then s.decideTwice cab pair 4
  else [3, 2, 1, 0].foldl (fun s l => s.decideTwice cab pair l) s

/-! Bursts -/

/-- The bank operation of an access when its burst commits: reads and writes of its words (R126, R182, R184). -/
def State.perform (s : State) (cab : Nat) (b : Burst) : State × Ans :=
  let q := b.req.acc
  let row := faRow q.fa
  let bank := faPair q.fa * 2
  let u := b.u
  let req := q.req
  let s := s.usedBank ((if (LReqBanks q).1 then 1 else 0) + (if (LReqBanks q).2 then 1 else 0))
  if q.we then
    let wr (s : State) (w : Nat) : State × Bool :=
      let be := beWord q.be w
      if be = 0 ∨ (b.half = true ∧ be = 2 ^ 32 - 1) then (s, false)
      else if be = 2 ^ 32 - 1 then (s.writeWord cab (bank + w) row (wordAt q.dat w), false)
      else s.mergeWrite cab (bank + w) row u req q.ctx (q.fa + 32 * w) be (wordAt q.dat w)
    let r0 := wr s 0
    let r1 := wr r0.1 1
    (r1.1, noAns (if r0.2 || r1.2 then .fault else .ok) 2)
  else
    let rd (s : State) (w : Nat) : State × (W256 × Bool × Bool) :=
      if beWord q.be w = 0 then (s, (0, false, false))
      else s.readWord cab (bank + w) row u req q.ctx (q.fa + 32 * w)
    let r0 := rd s 0
    let r1 := rd r0.1 1
    let used := (if beWord q.be 0 = 0 then [] else [r0.2]) ++ (if beWord q.be 1 = 0 then [] else [r1.2])
    let a := blockAns used
    (r1.1, if a.resp = .fault then noAns .fault 2 else { resp := a.resp, dat := [r0.2.1, r1.2.1], zero := [r0.2.2.1, r1.2.2.1] })

/-- The whole word of a mixed write commits with its second fc; its bank is free from then on (R128, R149). -/
def State.commitHalf (s : State) (cab pair : Nat) (b : Burst) : State :=
  let p := s.pairSt cab pair
  let s := s.setPairSt cab pair { p with bursts := p.bursts.map (fun (x : Burst) => if x = b then { x with half := true } else x) }
  let w := if beWord b.req.acc.be 0 = 2 ^ 32 - 1 then 0 else 1
  s.writeWord cab (2 * pair + w) (faRow b.req.acc.fa) (wordAt b.req.acc.dat w)

/-- Take a burst out of occupancy and count it (R169). -/
def State.endBurst (s : State) (cab pair : Nat) (b : Burst) : State :=
  let p := s.pairSt cab pair
  (s.setPairSt cab pair { p with bursts := p.bursts.filter (fun x => !decide (x.req.acc.id = b.req.acc.id)) }).incOn (R.ARB_GRANTS_COUNT cab b.req.acc.req) s.time.fc

/-- Has the burst's last fc passed? -/
def State.burstOver (s : State) (b : Burst) : Bool := if b.dbg then b.last < s.time.fc else b.last < s.time.ufc

/-- A sweep engine with nothing to do. -/
def SwpSt.idle : SwpSt := { run := none, queue := [] }

/-- The sweep engine of a cabinet. -/
def State.swp (s : State) (cab : Nat) : SwpSt := SMap.get SwpSt.idle s.rep.swp cab

/-- Replace the sweep engine of a cabinet. -/
def State.setSwp (s : State) (cab : Nat) (e : SwpSt) : State := { s with rep := { s.rep with swp := SMap.set SwpSt.idle s.rep.swp cab e } }

/-- The access of one sweep slot (R148, R193). -/
def State.sweepReq (s : State) (cab bank row0 rows : Nat) : LReq :=
  { id := s.loose.nextId, req := 7, home := cab, homeDie := s.die, org := .swp cab, cls := .free, ctx := none, fa := 0, we := false, be := 0, dat := [], op := .sweep bank row0 rows }

/-- Present the next slot of the running sweep on a bank, if one is left. -/
def State.sweepNext (s : State) (cab bank : Nat) : State :=
  match (s.swp cab).run with
  | none => s
  | some r =>
    match r.todo.find? (fun x => decide (x.1 = bank)) with
    | none => s
    | some x =>
      let s := s.setSwp cab { (s.swp cab) with run := some { r with todo := r.todo.filter (fun y => !decide (y = x)), busy := r.busy + 1 } }
      s.fresh.enqueue cab (s.sweepReq cab x.1 x.2.1 x.2.2)

/-- One slot of the running sweep is performed: the valid bits of its rows are clear, the bank's next slot is presented, and
when no slot is left the range is done (R193, R194). -/
def State.sweepSlot (s : State) (cab bank row0 rows : Nat) : State :=
  let s := s.clearValid cab bank row0 rows
  match (s.swp cab).run with
  | none => s
  | some r =>
    let s := (s.setSwp cab { (s.swp cab) with run := some { r with busy := r.busy - 1 } }).sweepNext cab bank
    if (s.swp cab).run.any (fun r => r.todo.isEmpty && r.busy == 0) then s.arm .wall 0 (.sweepRangeDone (Fin.ofNat 128 cab)) else s

/-- The running assay pass of a cabinet. -/
def State.asyPass (s : State) (cab : Nat) : Option AsyPass := SMap.get none s.rep.asy cab

/-- Replace the pass of a cabinet. -/
def State.setAsy (s : State) (cab : Nat) (p : Option AsyPass) : State := { s with rep := { s.rep with asy := SMap.set none s.rep.asy cab p } }

/-- When the pass has presented everything and nothing is outstanding, DONE is set: on the fc that follows the last bank operation, which
is `n` fc from now (R234). -/
def State.asyCheck (s : State) (cab n : Nat) : State :=
  match s.asyPass cab with
  | none => s
  | some p =>
    if p.started && p.out.isEmpty && p.repOut.isEmpty && (p.aborted || decide (s.f (R.ASY_LIMIT_LIMIT cab) < p.next)) then
      s.arm .unfz n (.assayDone (Fin.ofNat 128 cab))
    else s

/-- A read of the pass is over: its pair is free (R231). -/
def State.asyFree (s : State) (q : LReq) : State :=
  match q.org with
  | .asy cab word =>
    match s.asyPass cab with
    | none => s
    | some p => (s.setAsy cab (some { p with out := p.out.filter (fun o => decide (o.2 ≠ word)) })).asyCheck cab 0
  | _ => s

/-- A word that an assay pass read counts in its summary (R232); a corrected one brings its repair burst, presented on the next fc in place
of a read of the pass that would fall there, unless the pass is aborted (R233, R234). Where both words of a burst are corrected, both bring
one: the second is presented when the first is granted (DESIGN CHOICE, log entry 108). -/
def State.assayNote (s : State) (cab word u : Nat) : State :=
  let bank := word % 32
  let row := word / 32
  let s := s.inc (R.ASY_SUM_WORDS_COUNT cab)
  match s.peek cab bank row u with
  | .clear => s.inc (R.ASY_SUM_INVALID_COUNT cab)
  | .bad _ _ =>
    let s := s.inc (R.ASY_SUM_UE_COUNT cab)
    if s.bit (R.ASY_SUM_UE_ADDR_V cab) then s else s.puts [(R.ASY_SUM_UE_ADDR_OFFSET cab, word * 32), (R.ASY_SUM_UE_ADDR_V cab, 1)]
  | .good _ none _ => s
  | .good _ (some _) _ =>
    let s := s.inc (R.ASY_SUM_CE_COUNT cab)
    match s.asyPass cab with
    | none => s
    | some p =>
      if s.bit (R.ASY_CTL_REPAIR cab) && !p.aborted then
        let p := { p with repOut := p.repOut ++ [(bank, row)], taken := s.time.ufc + 1 }
        let q : LReq := { id := s.loose.nextId, req := 6, home := cab, homeDie := s.die, org := .rep cab word, cls := .free, ctx := none, fa := 0, we := false, be := 0, dat := [], op := .repair bank row }
        (s.setAsy cab (some p)).fresh.enqueue cab q
      else s

/-- The words of an assay burst are noted before the read that counts their corrections. -/
def State.assayNotes (s : State) (q : LReq) (u : Nat) : State :=
  match q.org with
  | .asy cab word =>
    let s := s.assayNote cab word u
    if beWord q.be 0 ≠ 0 ∧ beWord q.be 1 ≠ 0 then s.assayNote cab (word + 1) u else s
  | _ => s

/-- Finish one burst of kind access or sweep slot. -/
def State.finish (s : State) (cab pair : Nat) (b : Burst) : State :=
  let s := s.endBurst cab pair b
  match b.req.acc.op with
  | .acc =>
    let r := (s.assayNotes b.req.acc b.u).perform cab b
    (r.1.reply b.req.acc r.2 cab b.urg).asyFree b.req.acc
  | .sweep bank row0 rows => s.sweepSlot cab bank row0 rows
  | .move _ _ => s
  | .repair _ _ => s

/-! Meanings -/

/-- PAIR_ARBITRATION (R150): one decision of the pair; while requests wait the pair decides on every fc. -/
def execPairArbitration (cab : Cab) (pair : Fin 16) (s : State) : Host.Outcome State Fault Refusal :=
  let s := s.decide' cab pair
  .next (if (s.pairSt cab pair).queue.isEmpty then s else s.armPair cab pair)

/-- LOOSE_BURST_DONE (R149): the whole word of a mixed write commits after its two fc; every burst of the pair whose last fc has passed
commits and is answered. -/
def execLooseBurstDone (cab : Cab) (pair : Fin 16) (s : State) : Host.Outcome State Fault Refusal :=
  let s := ((s.pairSt cab pair).bursts.filter (fun b => b.mixed && !b.half && decide (b.from' + 1 < s.time.ufc))).foldl (fun s b => s.commitHalf cab pair b) s
  .next (((s.pairSt cab pair).bursts.filter (fun b => s.burstOver b &&
    (match b.req.acc.op with
      | .acc => true
      | .sweep _ _ _ => true
      | .move _ _ => false
      | .repair _ _ => false))).foldl (fun s b => s.finish cab pair b) s)

/-- REQUEST_URGENT (R155): the requests of the pair whose wait has reached AGE_LIMIT are urgent until granted. -/
def execRequestUrgent (cab : Cab) (pair : Fin 16) (s : State) : Host.Outcome State Fault Refusal :=
  let p := s.pairSt cab pair
  .next (s.setPairSt cab pair { p with queue := p.queue.map (fun q => { q with urgent := s.urgentReq cab q }) })

/-- ARB_PRIO_WRITE (R159, R170): the new priorities hold from the next fc. -/
def execArbPrioWrite (m : Master) (cab : Cab) (v : W32) (s : State) : Host.Outcome State Fault Refusal :=
  .next (s.row m (.arbPrioWrite m cab v) (fun s => s.atStation m cab (R.ARB_PRIO cab) (fun s =>
    let was := (s.reg (R.ARB_PRIO cab)).toNat
    { s with loose := { s.loose with prioWas := SMap.insert s.loose.prioWas cab (s.time.fc + 1, was) } }.setReg (R.ARB_PRIO cab) (v &&& 0xFFFFF))))

/-- ARB_AGE_WRITE (R158, R171): a value below 16 stores 16; an urgent request stays urgent; a request that has waited that
long already is urgent from the next fc. -/
def execArbAgeWrite (m : Master) (cab : Cab) (v : W32) (s : State) : Host.Outcome State Fault Refusal :=
  .next (s.row m (.arbAgeWrite m cab v) (fun s => s.atStation m cab (R.ARB_AGE cab) (fun s =>
    let was := s.f (R.ARB_AGE_AGE_LIMIT cab)
    let n := max 16 (v.toNat % 65536)
    let pairs := s.loose.pairs.map (fun e => if e.1 / 16 = cab.val then
      (e.1, { e.2 with queue := e.2.queue.map (fun q => { q with urgent := s.urgentReq cab q }) }) else e)
    let s := { s with loose := { s.loose with pairs := pairs, ageWas := SMap.insert s.loose.ageWas cab (s.time.fc + 1, was) } }
    (List.range 16).foldl (fun s j => if (s.pairSt cab j).queue.isEmpty then s else s.later .wall 1 (.requestUrgent cab (Fin.ofNat 16 j)))
      (s.put (R.ARB_AGE_AGE_LIMIT cab) n))))

/-- ARB_CNT_CLR (R169, R173): the counters of the selected requesters, and PREEMPT, return to 0; events of this fc count after it. -/
def execArbCntClr (m : Master) (cab : Cab) (v : W32) (s : State) : Host.Outcome State Fault Refusal :=
  .next (s.row m (.arbCntClr m cab v) (fun s => s.atStation m cab (R.ARB_CNT_CLR cab) (fun s =>
    let t := s.time.fc
    let s := (List.range 11).foldl (fun s i => if v.toNat / 2 ^ i % 2 = 1 then
      ((s.clearOn (R.ARB_GRANTS_COUNT cab i) t).put (R.ARB_WAIT_COUNT cab i) 0).clearOn (R.ARB_LONGEST_COUNT cab i) t else s) s
    if v.toNat / 2 ^ 11 % 2 = 1 then s.clearOn (R.ARB_PREEMPT_COUNT cab) t else s)))

/-! Links -/

/-- The input at which a flit sent on output `d` arrives. -/
def opposite (d : Nat) : Nat := (d + 2) % 4

/-- Replace a flit by its identifier; it goes to the end of the list, in order of arrival. -/
def State.moveFlit (s : State) (f : LFlit) : State :=
  { s with loose := { s.loose with flits := s.loose.flits.filter (fun x => !decide (x.acc.id = f.acc.id)) ++ [f] } }

/-- Replace a flit in its place. -/
def State.setFlit (s : State) (f : LFlit) : State :=
  { s with loose := { s.loose with flits := s.loose.flits.map (fun (x : LFlit) => if x.acc.id = f.acc.id then f else x) } }

/-- Replace the flit of an identifier by one that may have another. -/
def State.setFlitAs (s : State) (id : Nat) (f : LFlit) : State :=
  { s with loose := { s.loose with flits := s.loose.flits.map (fun (x : LFlit) => if x.acc.id = id then f else x) } }

/-- Take a flit off the mesh. -/
def State.dropFlit (s : State) (id : Nat) : State :=
  { s with loose := { s.loose with flits := s.loose.flits.filter (fun x => !decide (x.acc.id = id)) } }

/-- The lane of a bridge that a flit in cabinet `p` takes: that of R536, or the other one when it is not UP. -/
def State.upLane (s : State) (b p : Nat) : Option Nat :=
  let l := s.laneOf b p
  [l, 2 * b + (1 - l % 2)].find? (fun k => s.laneBuilt k && decide (s.laneState k = 2))

/-- A refusal of a flit from another die reaches the bridge toward that die over the control network and leaves there as the answer (R251). -/
def State.refuseFar (s : State) (f : LFlit) : State :=
  let q := f.acc
  let s := if q.we then s.drained q.id else s
  match (s.bridgeTo q.homeDie).bind (fun b => s.upLane b f.cur) with
  | some l =>
    let p := s.laneCab l
    s.send (.looseFlit { f with ans := some (noAns .fault 2), src := p, dst := p, dstDie := q.homeDie, cur := p, port := 4, out := 5, hops := 0, det := none }) (some l)
  | none => s

/-- A router refuses a loose flit (R251): ACC_REFUSED, ROUTE_REFUSE, the access answered FAULT over the control network. -/
def State.refuseFlit (s : State) (f : LFlit) (data : Nat) : State :=
  let s := ((s.dropFlit f.acc.id).refuse f.acc.req (some f.cur) f.acc.ctx (accAddr f.acc) data).inc R.IDV_ROUTE_REFUSE_COUNT
  if f.acc.homeDie = s.die then s.replyNow f.acc (noAns .fault 2) f.cur else s.refuseFar f

/-- A loose flit takes a lane; a request is noted with it until its answer comes back. -/
def State.takeLane (s : State) (f : LFlit) (l : Nat) : State :=
  let far := s.loose.far.filter (fun e => decide (e.1.id ≠ f.acc.id))
  let s := if f.ans.isNone then { s with loose := { s.loose with far := far ++ [(f.acc, l)] } } else s
  (s.dropFlit f.acc.id).send (.looseFlit f) (some l)

/-- A flit that has reached the cabinet where it leaves the die: it takes the lane of R536; when that one is not UP it goes on to the cabinet
of the bridge's other lane, or is refused. -/
def State.crossFlit (s : State) (f : LFlit) : State :=
  match s.bridgeTo f.dstDie with
  | none => s.refuseFlit f 0x10100
  | some b =>
    match s.upLane b f.src with
    | none => s.refuseFlit f (0x10100 + b * 16 + s.laneOf b f.src % 2)
    | some k =>
      if f.cur = s.laneCab k then s.takeLane f k
      else (s.setFlit { f with dst := s.laneCab k, out := 5, det := none, since := 0 }).later .unfz 0 (.looseFlitHop f.acc.id)

/-- The requester that an inbound request is at its target's pairs: DBG, MGT where this die's control matrix sent it, else INB (R151). -/
def inboundReq (q : LReq) : Nat :=
  match q.org with
  | .mgt _ => q.req
  | _ => if q.req = 10 then 10 else 9

/-- A request flit at its target cabinet: power state, and the queue of its requester there (R137, R151, R160). One that was withdrawn on its way,
or that a fence has answered, is not performed (R164, R248). -/
def State.landFlit (s : State) (f : LFlit) : State :=
  let t := s.dropFlit f.acc.id
  if s.loose.recalled.contains f.acc.id then ({ t with loose := { t.loose with recalled := t.loose.recalled.filter (fun i => !decide (i = f.acc.id)) } }).drained f.acc.id
  else t.arrive f.acc f.cur (inboundReq f.acc)

/-- Is the flit the first that waits at its link input, or in the local queue? A link input is left in order (R166, R168). -/
def State.flitFirst (s : State) (f : LFlit) : Bool :=
  decide (f.port = 4) || decide ((s.loose.flits.find? (fun x => decide (x.cur = f.cur) && decide (x.port = f.port))).map (fun x => x.acc.id) = some f.acc.id)

/-- Does a request at its target cabinet stay in its input buffer because INB has a head there already? (R168) -/
def State.inbBusy (s : State) (f : LFlit) : Bool :=
  f.ans.isNone && decide (inboundReq f.acc = 9) && decide (f.port ≠ 4) && servedIn false (s.pow f.cur) && (s.pairSt f.cur (LReqPair f.acc)).queue.any (fun q => q.acc.req == 9)

/-- Does the flit stand at the last router before a fenced cabinet it is addressed to? It is discarded there; its access has been answered
(R247, R248). -/
def State.lastRouter (s : State) (cur dst : Nat) : Bool := s.fenced dst && decide (hopDist cur dst ≤ 1)

/-- A decision of a link output on the next unfrozen fc, on the next fc while a DBG flit waits there (R166, R74). -/
def State.armOut (s : State) (cab o : Nat) : State :=
  let i : Instr := .linkOutputGrant (Fin.ofNat 128 cab) (match o with
    | 0 => .n
    | 1 => .e
    | 2 => .s
    | _ => .w)
  if s.loose.flits.any (fun f => decide (f.cur = cab) && decide (f.out = o) && decide (f.acc.req = 10)) then
    if s.agenda.any (fun d => decide (d.cmd = i) && decide (d.clk = .wall)) then s else (s.disarm i).later .wall 1 i
  else s.arm .unfz 1 i

/-- LOOSE_FLIT_HOP (R167, R168): the flit is delivered, leaves over a bridge, is refused or discarded, or waits at the output its route takes,
or for its pair. -/
def execLooseFlitHop (id : Nat) (s : State) : Host.Outcome State Fault Refusal :=
  .next (match s.loose.flits.find? (fun f => decide (f.acc.id = id)) with
  | none => s
  | some f =>
    if s.clock (flitClk f.acc) < f.ready then s
    else if s.lastRouter f.cur f.dst then s.dropFlit id
    else if f.cur = f.dst ∧ (s.flitFirst f = false ∨ (f.dstDie = s.die ∧ s.inbBusy f = true)) then s.later (flitClk f.acc) 1 (.looseFlitHop id)
    else if f.cur = f.dst then
      if f.dstDie ≠ s.die then s.crossFlit f
      else
        match f.ans with
        | some a => (s.dropFlit id).deliver f.acc a
        | none => s.landFlit f
    else
      match s.looseHop f.cur f.dst f.det with
      | .refuse => s.refuseFlit f (0x10000 + f.cur)
      | .take d _ _ =>
        if hopDist f.src f.dst + 16 < f.hops + 1 then s.refuseFlit f (0x10200 + f.cur)
        else
          (s.setFlit { f with out := d, since := 0, waited := 0, hot := false }).armOut f.cur d)

/-- The unfrozen fc that a flit has waited at its output's head. -/
def State.headWait (s : State) (f : LFlit) : Nat := f.waited + (if f.since = 0 then 0 else s.time.ufc + 1 - f.since)

/-- Has the wait of a flit at an output made it urgent there? It stays so when the limit is raised (R158, R166). -/
def State.flitHot (s : State) (f : LFlit) : Bool := f.hot || (decide (f.since ≠ 0) && decide (s.ageLimit f.cur ≤ s.headWait f))

/-- Level of a flit at an output: urgent after AGE_LIMIT at its head (R166). -/
def State.flitLevel (s : State) (f : LFlit) : Nat := if f.lvl < 4 ∧ s.flitHot f = true then 4 else f.lvl

/-- May the output send the flit on this fc? Its minimum has passed; on a frozen fc DBG's only (R74, R166, R167). -/
def State.flitReady (s : State) (f : LFlit) : Bool := decide (f.ready ≤ s.clock (flitClk f.acc)) && (!s.frozen || decide (f.acc.req = 10))

/-- The head of the local injection queue of an output: the highest level, round-robin by requester (R168). A cabinet that drains for an
entry sends nothing of its own (R479). Requests of one port to one block leave in their order (R129). -/
def State.localHead (s : State) (cab o : Nat) : Option LFlit :=
  let here := s.loose.flits.filter (fun f => decide (f.cur = cab) && decide (f.port = 4) && decide (f.out = o))
  let ahead (f : LFlit) : List LFlit := here.takeWhile (fun x => decide (x.acc.id ≠ f.acc.id))
  let own (f : LFlit) : Bool := match f.acc.org with
    | .mgt _ => false
    | _ => true
  let c := here.filter (fun f => s.flitReady f && !(own f && s.draining cab) && !(ahead f).any (fun x => samePortBlock x.acc f.acc))
  let top := c.foldl (fun m f => max m (s.flitLevel f)) 0
  let start := SMap.get 0 s.loose.injRr ((cab * 4 + o) * 6 + top)
  (List.range 11).findSome? (fun j => c.find? (fun f => s.flitLevel f == top && f.acc.req == (start + j) % 11))

/-- The flits that an output may choose among: the heads of the link inputs that are routed to it, and the head of its local queue (R166,
R168). -/
def State.outCands (s : State) (cab o : Nat) : List LFlit :=
  s.loose.flits.filter (fun f => decide (f.cur = cab) && decide (f.port ≠ 4) && decide (f.out = o) && s.flitReady f && s.flitFirst f) ++ (s.localHead cab o).toList

/-- The heads of an output age; a flit that another has displaced from the head keeps the wait it has (R166). -/
def State.outAge (s : State) (cab o : Nat) : State :=
  let heads := (s.outCands cab o).map (fun f => f.acc.id)
  let age (f : LFlit) : LFlit :=
    let f := { f with hot := s.flitHot f }
    if heads.contains f.acc.id then (if f.since = 0 then { f with since := s.time.ufc + 1 } else f)
    else { f with waited := s.headWait f, since := 0 }
  { s with loose := { s.loose with flits := s.loose.flits.map (fun f => if f.cur = cab ∧ f.out = o then age f else f) } }

/-- The candidate of the highest level, round-robin among inputs (R166). -/
def State.outPick (s : State) (cab o : Nat) : Option LFlit :=
  let c := s.outCands cab o
  let top := c.foldl (fun m f => max m (s.flitLevel f)) 0
  let start := SMap.get 0 s.loose.outRr ((cab * 4 + o) * 6 + top)
  (List.range 5).findSome? (fun k => c.find? (fun f => s.flitLevel f == top && f.port == (start + k) % 5))

/-- LINK_OUTPUT_GRANT (R166, R167): on an unfrozen fc that no set-class flit takes, the output sends its candidate when the
receiving input has one of its 8 places free; a flit of DBG goes on frozen fc too, since the debug port continues (R74, R162). -/
def execLinkOutputGrant (cab : Cab) (out : Dir) (s : State) : Host.Outcome State Fault Refusal :=
  let o := dirIdx out
  let again (s : State) : State := if s.loose.flits.any (fun f => decide (f.cur = cab.val) && decide (f.out = o)) then s.armOut cab o else s
  let s := if s.frozen then s else s.outAge cab o
  if !s.frozen && s.set.slots.any (fun x => decide (x.1 = cab.val) && decide (x.2.1 = o) && decide (x.2.2.1 = s.time.stime)) then .next (again s)
  else
    match s.outPick cab o with
    | none => .next (again s)
    | some f =>
      let reroute (s : State) : State := (s.setFlit { f with out := 5 }).later (flitClk f.acc) 1 (.looseFlitHop f.acc.id)
      if s.lastRouter cab f.dst then .next (again (reroute s))
      else
      match s.looseHop cab f.dst f.det with
      | .refuse => .next (reroute s)
      | .take d n det =>
        if d ≠ o then .next (again (reroute s))
        else if 8 ≤ (s.loose.flits.filter (fun x => decide (x.cur = n) && decide (x.port = opposite o))).length then .next (again s)
        else
          let lv := s.flitLevel f
          let k := (cab.val * 4 + o) * 6 + lv
          let s := { s with loose := { s.loose with outRr := SMap.insert s.loose.outRr k ((f.port + 1) % 5), injRr := if f.port = 4 then SMap.insert s.loose.injRr k ((f.acc.req + 1) % 11) else s.loose.injRr } }
          let s := s.moveFlit { f with cur := n, port := opposite o, out := 5, hops := f.hops + 1, det := det, ready := s.clock (flitClk f.acc) + 3, since := 0, waited := 0, hot := false }
          .next (again (s.usedLink.later (flitClk f.acc) 3 (.looseFlitHop f.acc.id)))

end Sys2Proof.Machine
end

