-- ==== Sys2Proof/Machine/SetClass.lean ====
section
/-! DEFINITION. The set class: range entries, look-aheads, wide-port issues, holds, set-class flits, landing stages and
deliveries (chapters "The schedule contract" and "Engine ports"). -/
namespace Sys2Proof.Machine

/-- An error record of the schedule log. -/
def State.schErr (s : State) (kind req cab : Nat) (ctx : Option Nat) (addr : Nat := 0) (data : Nat := 0) (bank : Nat := 0) : State :=
  s.err { kind := kind, req := req, cab := some cab, ctx := ctx, addr := addr, data := data, bank := bank }

/-! Range entries -/

/-- The word indices of an entry that a 256-byte block covers (R97). -/
def State.overlap (s : State) (cab n fa : Nat) : Nat :=
  ((List.range 8).filter (fun i => decide (s.f (R.SBD_ENT_A_BASE cab n) ≤ faWord fa + i) && decide (faWord fa + i ≤ s.f (R.SBD_ENT_B_LIMIT cab n)))).length

/-- Has the entry been open since before this fc, and does it still hold? (R96, R98) -/
def State.holding (s : State) (cab n : Nat) : Bool :=
  s.bit (R.SBD_ENT_A_OPEN cab n) && decide ((SMap.get (0, 0) s.set.opener (cab * 32 + n)).2 ≤ s.time.stime) &&
    !s.set.ending.any (fun e => decide (e.1 = cab) && decide (e.2.1 = n) && decide (e.2.2 ≤ s.time.stime))

/-- Is the access checked against an entry that a command of this fc has closed? (R96) -/
def State.closedNow (s : State) (cab fa : Nat) (wr : Bool) : Bool :=
  s.set.closed.any (fun e => decide (e.1 = cab) && decide (e.2.2.2.2 = s.time.stime) && (decide (e.2.2.2.1 = 1) == wr) && decide (e.2.1 ≤ faWord fa + 7) && decide (faWord fa ≤ e.2.2.1))

/-- Would range-scoreboard mode hold this access? Reads by pending-write entries, writes by pending-read entries (R99). -/
def State.conflicts (s : State) (cab fa : Nat) (wr : Bool) : Bool :=
  (List.range 32).any (fun n => s.bit (R.SBD_ENT_A_OPEN cab n) && s.holding cab n && (s.bit (R.SBD_ENT_A_KIND cab n) == wr) && decide (0 < s.overlap cab n fa)) || s.closedNow cab fa wr

/-- Is the access held at issue? (R93, R99) -/
def State.rangeHeld (s : State) (cab fa : Nat) (wr : Bool) : Bool := s.bit (R.SBD_MODE_MODE cab) && s.conflicts cab fa wr

/-- Sentinel recording in schedule-trust mode (R94). -/
def State.sentinel (s : State) (cab fa : Nat) (wr : Bool) (req : Nat) (ctx : Option Nat) : State :=
  if s.bit (R.SBD_MODE_MODE cab) = false ∧ s.bit (R.SBD_MODE_SENTINEL_EN cab) = true ∧ s.conflicts cab fa wr = true then
    let s := if s.f (R.SBD_SENT_CNT_V cab) = 0 then s.put (R.SBD_SENT_FA_V cab) fa else s
    ((s.inc (R.SBD_SENT_CNT_V cab)).put (R.SBD_ERR_SENTINEL cab) 1).schErr 0x24 req cab ctx fa
  else s

/-- An access counts down the entries it completes: writes those of pending writes, reads those of pending reads; an entry
at zero stops holding 3 fc later for a write, 2 fc later for a read (R97, R98). An access of the fc that opens an entry is not checked
against it (R96) and does not count in it (DESIGN CHOICE, log entry 80). -/
def State.countDown (s : State) (cab fa : Nat) (wr : Bool) : State :=
  (List.range 32).foldl (fun s n =>
    if s.bit (R.SBD_ENT_A_OPEN cab n) && (s.bit (R.SBD_ENT_A_KIND cab n) == !wr) && decide (s.f (R.SBD_ENT_C_COUNT cab n) ≠ 0) &&
        decide ((SMap.get (0, 0) s.set.opener (cab * 32 + n)).2 ≤ s.time.stime) then
      let c := s.f (R.SBD_ENT_C_COUNT cab n) - s.overlap cab n fa
      let s := s.put (R.SBD_ENT_C_COUNT cab n) c
      if c = 0 then
        let t := s.time.stime + (if wr then 3 else 2)
        ({ s with set := { s.set with ending := s.set.ending ++ [(cab, n, t)] } }).at' .sched t (.rangeHoldEnd (Fin.ofNat 128 cab) (Fin.ofNat 32 n))
      else s
    else s) s

/-- A scoreboard command, look-ahead or mark on a frozen fc (R75); of a wide issue too, ADDR is 0 (DESIGN CHOICE, log entry 102). -/
def State.frzIssue (s : State) (cab req : Nat) (ctx : Option Nat) : State := s.schErr 0x2B req cab ctx

/-- An open command (R96): kind 0 pending write, 1 pending read. While STEP_REPLAY of the context is high its entries are cleared (R87). -/
def State.sbcOpen (s : State) (cab n base limit count kind : Nat) : State :=
  let ctx := s.eag cab
  if s.bit (R.CAB_PORT_STAT_P_SEQ cab) = false then s
  else if s.discards ctx then s
  else if s.frozen then (s.frzIssue cab 15 ctx).ctxFault? ctx
  else if s.bit (R.SBD_ENT_A_OPEN cab n) then ((s.put (R.SBD_ERR_FULL cab) 1).schErr 0x25 15 cab ctx 0 1).ctxFault? ctx
  else if count = 0 ∨ 131072 < count ∨ limit < base then (s.schErr 0x25 15 cab ctx 0 2).ctxFault? ctx
  else if s.replaying ctx then s
  else
    let s := s.puts [(R.SBD_ENT_A_BASE cab n, base), (R.SBD_ENT_A_KIND cab n, kind), (R.SBD_ENT_A_OPEN cab n, 1),
      (R.SBD_ENT_B_LIMIT cab n, limit), (R.SBD_ENT_C_COUNT cab n, count)]
    let who := (ctx.map (fun c => c + 1)).getD 0
    ({ s with set := { s.set with opener := SMap.insert s.set.opener (cab * 32 + n) (who, s.time.stime + 1) } }).sbdCount cab

/-- SBC_OPEN_WRITE (R96). -/
def execSbcOpenWrite (cab : Cab) (entry : Fin 32) (base limit : BitVec 17) (count : BitVec 18) (s : State) : Host.Outcome State Fault Refusal :=
  .next (s.sbcOpen cab entry base.toNat limit.toNat count.toNat 0)

/-- SBC_OPEN_READ (R96). -/
def execSbcOpenRead (cab : Cab) (entry : Fin 32) (base limit : BitVec 17) (count : BitVec 18) (s : State) : Host.Outcome State Fault Refusal :=
  .next (s.sbcOpen cab entry base.toNat limit.toNat count.toNat 1)

/-- Note an entry that a command closes while it holds (R96). -/
def State.closeNote (s : State) (cab n : Nat) : State :=
  if s.holding cab n then
    { s with set := { s.set with closed := s.set.closed ++ [(cab, s.f (R.SBD_ENT_A_BASE cab n), s.f (R.SBD_ENT_B_LIMIT cab n), s.f (R.SBD_ENT_A_KIND cab n), s.time.stime)] } }
  else s

/-- SBC_CLOSE (R96): the entry is emptied at once; accesses of this fc are still checked against it. -/
def execSbcClose (cab : Cab) (entry : Fin 32) (s : State) : Host.Outcome State Fault Refusal :=
  let ctx := s.eag cab
  .next (if s.bit (R.CAB_PORT_STAT_P_SEQ cab) = false then s
    else if s.discards ctx then s
    else if s.frozen then (s.frzIssue cab 15 ctx).ctxFault? ctx
    else ((s.closeNote cab entry).sbdEmpty cab entry).sbdCount cab)

/-- RANGE_HOLD_END (R98): an entry at count zero whose time has come is empty. -/
def execRangeHoldEnd (cab : Cab) (entry : Fin 32) (s : State) : Host.Outcome State Fault Refusal :=
  .next (if s.frozen then s.later .sched 0 (.rangeHoldEnd cab entry)
    else if s.set.ending.any (fun e => decide (e.1 = cab.val) && decide (e.2.1 = entry.val) && decide (e.2.2 ≤ s.time.stime)) then
      (s.sbdEmpty cab entry).sbdCount cab
    else s)

/-- SBD_MODE_WRITE (R49, R92, R102). -/
def execSbdModeWrite (m : Master) (cab : Cab) (v : W32) (s : State) : Host.Outcome State Fault Refusal :=
  .next (s.row m (.sbdModeWrite m cab v) (fun s => s.atStation m cab (R.SBD_MODE cab) (fun s =>
    let mode := v.toNat % 2
    let t := s.put (R.SBD_MODE_SENTINEL_EN cab) (v.toNat / 4 % 2)
    if 32 < s.f R.IDV_CONF_NUM_CAB then (if mode = 0 then t.locked (masterReq m) (s.ca (R.SBD_MODE cab)) else t)
    else if (s.sbdOpen cab).isEmpty then t.put (R.SBD_MODE_MODE cab) mode else t)))

/-! Look-aheads -/

/-- Is WRP_HOLD or WWP_HOLD high? From the fc after a held presentation to the fc on which it issues; a frozen fc keeps the level of
the unfrozen fc before it (R114, R138); low while the port is absent (R141). -/
def State.holdHigh (s : State) (port : SetPort) (cab : Nat) : Bool :=
  let there := match port with
    | .wrp => s.bit (R.CAB_PORT_STAT_P_WRP cab)
    | .wwp => s.bit (R.CAB_PORT_STAT_P_WWP cab)
    | .land => true
  let t := if s.frozen then s.time.stime - 1 else s.time.stime
  there && s.set.holds.any (fun h => decide (h.cab = cab) && decide (h.port = port) && decide (h.since < t) && (match h.rel with
    | none => true
    | some a => decide (a = t)))

/-- A look-ahead of a lane for an issue 3 fc later (R113, R120, R123). -/
def State.lookahead (s : State) (port : SetPort) (cab grp : Nat) : State :=
  let ctx := s.eag cab
  if s.bit (R.CAB_PORT_STAT_P_SEQ cab) = false then s
  else if s.discards ctx then s
  else if s.frozen then s.frzIssue cab 15 ctx
  else if s.holdHigh port cab then
    (s.put (R.CAB_PORT_ERRFLAG_HOLD_ISSUE cab) 1).schErr 0x2D (setReq port) cab ctx
  else
    let c : Claim := { port := port, cab := cab, grp := grp, at' := s.time.stime + 3 }
    { s with set := { s.set with claims := s.set.claims ++ [c] } }.clearClaim cab grp (s.claimAt c + 1)

/-- WRP_LOOKAHEAD (R113). -/
def execWrpLookahead (cab : Cab) (grp : Fin 4) (s : State) : Host.Outcome State Fault Refusal := .next (s.lookahead .wrp cab grp)

/-- WWP_LOOKAHEAD (R120). -/
def execWwpLookahead (cab : Cab) (grp : Fin 4) (s : State) : Host.Outcome State Fault Refusal := .next (s.lookahead .wwp cab grp)

/-- LANDING_LOOKAHEAD (R123): applied after the slip of the landing stage. -/
def execLandingLookahead (cab : Cab) (grp : Fin 4) (s : State) : Host.Outcome State Fault Refusal := .next (s.lookahead .land cab grp)

/-- Was the group claimed 3 fc ago for an issue on this fc? (R113) -/
def State.claimed (s : State) (port : SetPort) (cab grp : Nat) : Bool :=
  s.set.claims.any (fun c => decide (c.port = port) && decide (c.cab = cab) && decide (c.grp = grp) && decide (s.claimAt c = s.time.stime))

/-! Accesses in occupancy -/

/-- Replace the answer that a dropped or refused access will give. -/
def State.setAnswer (s : State) (dest : SetDest) (port : SetPort) (cab at' : Nat) (r : Resp) : State :=
  match dest with
  | .deliver id =>
    { s with set := { s.set with delivs := s.set.delivs.map (fun d => if d.id = id then { d with resp := r, got := true, dat := List.replicate 8 0, zero := List.replicate 8 false } else d) } }
  | .flit f =>
    let f := { f with resp := r, dat := List.replicate 8 0, zero := List.replicate 8 false }
    ({ s with set := { s.set with flits := s.set.flits ++ [f] } }).at' .sched (at' + 4) (.setFlitHop f.id)
  | .done id =>
    let s := s.drained id
    if port = .wwp then
      { s with set := { s.set with wresps := s.set.wresps.map (fun w => if w.1 = cab ∧ w.2.1 = at' + 3 then (w.1, w.2.1, r, w.2.2.2) else w) } }
    else s

/-- An access in occupancy is dropped at the bank: its answer, its SCH_BANK_COLL record and the fault of its context (R52). One that an
earlier collision has dropped is dropped once. -/
def State.collide (s : State) (o : SetOp) : State :=
  if o.dead then s
  else ((s.setAnswer o.dest o.port o.cab o.at' .fault).schErr 0x20 (setReq o.port) o.cab o.ctx o.fa 0 (o.grp * 8)).ctxFault? o.ctx

/-- An access takes its bank group for the next two fc. One that overlaps others' occupancy is a bank collision: all of them are
dropped, each with an SCH_BANK_COLL record, and every context involved faults (R52, R54). Each has issued and counts in the range
entries (R97). -/
def State.occupy (s : State) (o : SetOp) : State :=
  let hit (x : SetOp) : Bool := decide (x.cab = o.cab) && decide (x.grp = o.grp) && decide (o.at' ≤ x.at' + 1)
  let coll := s.set.ops.filter hit
  let s := s.countDown o.cab o.fa o.wr.isSome
  if coll.isEmpty then { s with set := { s.set with ops := s.set.ops ++ [o] } }
  else
    let s := { s with set := { s.set with ops := s.set.ops.map (fun (x : SetOp) => if hit x then { x with dead := true } else x) ++ [{ o with dead := true }] } }
    (coll.foldl (fun s x => s.collide x) s).collide o

/-- A word that a set-class write issued 2 fc before the read has just overwritten reads as its old or its new contents: a
free choice (R55). -/
def State.oldOrNew (s : State) (cab bank row at' : Nat) (w : W256 × Bool × Bool) : State × (W256 × Bool × Bool) :=
  match s.set.olds.find? (fun o => decide (o.cab = cab) && decide (o.bank = bank) && decide (o.row = row) && decide (o.at' + 2 = at')) with
  | none => (s, w)
  | some o => if s.free % 2 = 0 then (s.useFree, (o.dat, o.zero, false)) else (s.useFree, w)

/-- Apply that choice to the words of a block, from bank `bank`. -/
def State.oldOrNews (s : State) (cab row at' : Nat) : Nat → List (W256 × Bool × Bool) → State × List (W256 × Bool × Bool)
  | _, [] => (s, [])
  | bank, w :: ws =>
    let r := s.oldOrNew cab bank row at' w
    let rest := r.1.oldOrNews cab row at' (bank + 1) ws
    (rest.1, r.2 :: rest.2)

/-- What a word reads as without counting, for R55. -/
def Word?.value : Word? → W256 × Bool
  | .clear => (0, true)
  | .bad _ _ => (0, false)
  | .good w _ _ => (w, false)

/-- An access at the end of its occupancy: a write commits, a read takes its data (R54, R121). -/
def State.commitOp (s : State) (o : SetOp) : State :=
  if o.dead then s else
  let u := unfzAt (s.time.ufc + o.at' + 1 - s.time.stime)
  let s := s.usedBank 8
  match o.wr with
  | some l =>
    let olds := (List.range 8).map (fun i =>
      let v := (s.peek o.cab (o.grp * 8 + i) o.row u).value
      ({ cab := o.cab, bank := o.grp * 8 + i, row := o.row, at' := o.at', dat := v.1, zero := v.2 } : OldWord))
    let s := s.writeWords o.cab o.row (o.grp * 8) ((List.range 8).map (wordAt l))
    let s := { s with set := { s.set with olds := s.set.olds ++ olds } }
    match o.dest with
    | .done id => s.drained id
    | .deliver _ => s
    | .flit _ => s
  | none =>
    let r := s.readWords o.cab o.row u (setReq o.port) o.ctx o.fa 8 (o.grp * 8)
    let r := r.1.oldOrNews o.cab o.row o.at' (o.grp * 8) r.2
    let a := blockAns r.2
    match o.dest with
    | .deliver id =>
      { r.1 with set := { r.1.set with delivs := r.1.set.delivs.map (fun d => if d.id = id then { d with resp := a.resp, got := true, dat := a.dat, zero := a.zero } else d) } }
    | .flit f =>
      let f := { f with dat := a.dat, zero := a.zero, resp := a.resp }
      ({ r.1 with set := { r.1.set with flits := r.1.set.flits ++ [f] } }).at' .sched (o.at' + 4) (.setFlitHop f.id)
    | .done _ => r.1

/-- Every access whose second fc of occupancy has passed takes effect, in order of issue; what no longer matters goes. -/
def State.commitSet (s : State) : State :=
  let due := s.set.ops.filter (fun o => decide (o.at' + 3 ≤ s.time.stime))
  let s := { s with set := { s.set with ops := s.set.ops.filter (fun o => !decide (o.at' + 3 ≤ s.time.stime)) } }
  let s := due.foldl (fun s o => s.commitOp o) s
  { s with set := { s.set with
    olds := s.set.olds.filter (fun o => decide (s.time.stime ≤ o.at' + 6)), closed := s.set.closed.filter (fun e => decide (s.time.stime ≤ e.2.2.2.2)), claims := s.set.claims.filter (fun c => decide (s.time.stime ≤ s.claimAt c + 2)), holds := s.set.holds.filter (fun h => match h.rel with | none => true | some a => decide (s.time.stime ≤ a + 1)), slots := s.set.slots.filter (fun x => decide (s.time.stime ≤ x.2.2.1)) } }

/-! Issues -/

/-- A delivery to come on WRP (R117). -/
def State.addDeliv (s : State) (id cab due : Nat) (ctx : Option Nat) (fa : Nat) (remote : Bool) (r : Resp) (discard : Bool) : State :=
  let d : Deliv := { id := id, cab := cab, due := due, ctx := ctx, fa := fa, remote := remote, got := !remote, dat := List.replicate 8 0, zero := List.replicate 8 false, resp := r, discard := discard }
  ({ s with set := { s.set with delivs := s.set.delivs ++ [d] } }).at' .sched due (.wrpDelivery (Fin.ofNat 128 cab) false)

/-- A response to come on WWP (R121). -/
def State.addWresp (s : State) (cab : Nat) (r : Resp) (fault : Option Nat) : State :=
  ({ s with set := { s.set with wresps := s.set.wresps ++ [(cab, s.time.stime + 3, r, fault)] } }).at' .sched (s.time.stime + 3) (.wwpResponse (Fin.ofNat 128 cab))

/-- Checks of an issue on its own die, in the order of R135, with the records they enter: the response of a refusal, or the
target cabinet, none for another die. -/
def State.setCheck (s : State) (port : SetPort) (cab : Nat) (wr : Bool) (ctx : Option Nat) (fa : Nat) : State × (Resp ⊕ Option Nat) :=
  let asleep := (s.schErr 0x27 (setReq port) cab ctx fa, Sum.inl Resp.asleep)
  match s.target .set wr ctx fa with
  | .refused => (s.refuse (setReq port) (some cab) ctx fa, .inl .fault)
  | .violation w k => (s.violate (setReq port) (some cab) ctx fa w k, .inl .fault)
  | .far _ => if servedIn true (s.pow cab) then (s, .inr none) else asleep
  | .at' p => if servedIn true (s.pow cab) && servedIn true (s.pow p) then (s, .inr (some p)) else asleep

/-- A slip overrun (R100, R116): SCH_SLIP_OVR, the flag, a replay with cause 2. -/
def State.slipOverrun (s : State) (cab req : Nat) (ctx : Option Nat) (fa : Nat) : State :=
  let s := (s.put (R.SBD_ERR_OVERRUN cab) 1).schErr 0x23 req cab ctx fa
  match ctx with
  | some c => s.replayCause c 2
  | none => s

/-- An unclaimed access is dropped: SCH_BANK_COLL and the flag (R113, R123). -/
def State.unclaimed (s : State) (port : SetPort) (cab : Nat) (ctx : Option Nat) (fa : Nat) : State :=
  (s.put (R.CAB_PORT_ERRFLAG_UNCLAIMED cab) 1).schErr 0x20 (setReq port) cab ctx fa 0 (faGroup fa * 8)

/-- Destination cabinet and die of a set-class route on this die: the target, or the lane's cabinet (R536). -/
def State.setDst (s : State) (cab : Nat) (p : Option Nat) (fa : Nat) : Nat :=
  match p with
  | some p => p
  | none => ((s.laneTo (faDie fa) cab).map s.laneCab).getD cab

/-- Nominal latency of a wide read (R117). A read that has no route answers as a local one. -/
def State.nominal (s : State) (cab fa dly : Nat) (ctx : Option Nat) : Nat :=
  let away (p : Nat) : Nat := dly + s.latency (s.fmask ctx) cab (faDie fa) p (faCab fa) + 4 + s.retLatency (s.fmask ctx) cab (faDie fa) p (faCab fa)
  if faDie fa = s.die then
    match s.mapped (s.genOf .set false ctx fa) (faCab fa) with
    | some p => if p = cab then 4 else away p
    | none => 4
  else if s.dies ≤ faDie fa ∨ (s.laneTo (faDie fa) cab).isNone = true then 4
  else away 0

/-- A wide read issues at this fc (R54, R112, R116): `held` when it comes from the hold register, its group claimed. -/
def State.issueRead (s : State) (cab fa dly : Nat) (held : Bool) : State :=
  let ctx := s.eag cab
  let a := s.time.stime
  let id := s.loose.nextId
  let s := s.fresh
  let due := a + s.nominal cab fa dly ctx
  if s.discards ctx || s.fenced cab then s.addDeliv id cab due ctx fa false .fault true
  else
    match s.setCheck .wrp cab false ctx fa with
    | (s, .inl r) => s.addDeliv id cab due ctx fa false r false
    | (s, .inr tgt) =>
      if tgt = some cab then
        if !held && !s.claimed .wrp cab (faGroup fa) then (s.unclaimed .wrp cab ctx fa).addDeliv id cab (a + 4) ctx fa false .fault false
        else
          let s := (s.sentinel cab fa false 11 ctx).addDeliv id cab (a + 4) ctx fa false .ok false
          s.occupy { port := .wrp, cab := cab, grp := faGroup fa, row := faRow fa, at' := a, wr := none, ctx := ctx, fa := fa, dest := .deliver id }
      else
        let m := s.fmask ctx
        let lreq := s.latency m cab (faDie fa) (tgt.getD 0) (faCab fa)
        let slip := s.slip cab .wrp
        if dly < slip then (s.slipOverrun cab 11 ctx fa).addDeliv id cab due ctx fa false .zero false
        else
          let f : SFlit := { id := id, kind := .rdReq, ctx := ctx, fmask := m, fa := fa, dat := [], zero := [], resp := .ok, due := a + dly - slip + lreq, src := cab, srcDie := s.die, from' := cab, dst := s.setDst cab tgt fa, dstDie := faDie fa, cur := cab, enter := a + dly - slip, hops := 0, det := none, issue := id, lret := s.retLatency m cab (faDie fa) (tgt.getD 0) (faCab fa), rpl := false }
          let s := s.addDeliv id cab due ctx fa true .ok false
          ({ s with set := { s.set with flits := s.set.flits ++ [f] } }).at' .sched (a + dly - slip) (.remoteReadInject (Fin.ofNat 128 cab) id)

/-- A wide write issues at this fc (R120 to R122): `hid` is its identifier when it comes from the hold register. -/
def State.issueWrite (s : State) (cab fa : Nat) (dat : List W256) (dly : Nat) (hid : Option Nat) : State :=
  let ctx := s.eag cab
  let a := s.time.stime
  let held := hid.isSome
  let id := hid.getD s.loose.nextId
  let s := if held then s.drained id else s.fresh
  if s.discards ctx || s.fenced cab then s.addWresp cab .fault none
  else
    match s.setCheck .wwp cab true ctx fa with
    | (s, .inl r) => s.addWresp cab r ctx
    | (s, .inr tgt) =>
      if s.replaying ctx then s.addWresp cab .zero none
      else if tgt = some cab then
        if !held && !s.claimed .wwp cab (faGroup fa) then (s.unclaimed .wwp cab ctx fa).addWresp cab .fault ctx
        else
          let s := ((s.sentinel cab fa true 12 ctx).addWresp cab .ok ctx).undrain id cab 12
          s.occupy { port := .wwp, cab := cab, grp := faGroup fa, row := faRow fa, at' := a, wr := some dat, ctx := ctx, fa := fa, dest := .done id }
      else
        let m := s.fmask ctx
        let lreq := s.latency m cab (faDie fa) (tgt.getD 0) (faCab fa)
        let slip := s.slip cab .wwp
        if dly < slip then (s.slipOverrun cab 12 ctx fa).addWresp cab .zero none
        else
          let f : SFlit := { id := id, kind := .wr, ctx := ctx, fmask := m, fa := fa, dat := dat, zero := [], resp := .ok, due := a + dly - slip + lreq, src := cab, srcDie := s.die, from' := cab, dst := s.setDst cab tgt fa, dstDie := faDie fa, cur := cab, enter := a + dly - slip, hops := 0, det := none, issue := id, lret := 0, rpl := false }
          let s := (s.addWresp cab .ok ctx).undrain id cab 12
          ({ s with set := { s.set with flits := s.set.flits ++ [f] } }).at' .sched (a + dly - slip) (.remoteWriteInject (Fin.ofNat 128 cab) id)

/-- Does a range entry hold an access of the cabinet's own banks that passes the checks of R135? (R99, R114) -/
def State.willHold (s : State) (port : SetPort) (cab : Nat) (ctx : Option Nat) (fa : Nat) (wr : Bool) : Bool :=
  !s.discards ctx && decide (s.target .set wr ctx fa = .at' cab) && servedIn true (s.pow cab) && s.claimed port cab (faGroup fa) && !(wr && s.replaying ctx) && s.rangeHeld cab fa wr

/-- A presentation on WRP or WWP (R75, R114, R138): one of a faulted context is answered before any other check (R53); ignored and logged
on a frozen fc and while the port holds; held when a range entry holds it; issued otherwise. -/
def State.presentWide (s : State) (port : SetPort) (cab fa : Nat) (dat : List W256) (dly : Nat) : State :=
  let ctx := s.eag cab
  let wr := decide (port = .wwp)
  if s.discards ctx then (if wr then s.issueWrite cab fa dat dly none else s.issueRead cab fa dly false)
  else if s.frozen then s.frzIssue cab (setReq port) ctx
  else if s.holdHigh port cab then
    (s.put (R.CAB_PORT_ERRFLAG_HOLD_ISSUE cab) 1).schErr 0x2D (setReq port) cab ctx fa
  else if s.willHold port cab ctx fa wr then
    let h : HoldReg := { id := s.loose.nextId, port := port, cab := cab, addr := fa, dat := dat, dly := dly, since := s.time.stime, upto := s.time.stime, rel := none }
    let s := if wr then s.fresh.undrain h.id cab 12 else s
    ({ s with set := { s.set with holds := s.set.holds ++ [h] } }).later .sched 1 (.heldAccessRelease (Fin.ofNat 128 cab) ⟨port, false⟩)
  else if wr then s.issueWrite cab fa dat dly none
  else s.issueRead cab fa dly false

/-- WRP_ISSUE (R112). -/
def execWrpIssue (cab : Cab) (addr : BitVec 24) (dly : BitVec 4) (s : State) : Host.Outcome State Fault Refusal :=
  .next (if s.bit (R.CAB_PORT_STAT_P_WRP cab) then s.presentWide .wrp cab (addr.toNat * 256) [] dly.toNat else s)

/-- WWP_ISSUE (R120): `perr` when the input register shows a parity error (R139). -/
def execWwpIssue (cab : Cab) (addr : BitVec 24) (data : List W256) (dly : BitVec 4) (perr : Bool) (s : State) : Host.Outcome State Fault Refusal :=
  .next (if s.bit (R.CAB_PORT_STAT_P_WWP cab) then
    (if perr && !s.frozen && !s.discards (s.eag cab) then s.parity cab 1 12 else s).presentWide .wwp cab (addr.toNat * 256) data dly.toNat else s)

/-- The data flit that answers a read request released at schedule fc `a` (R116): its first slot is 4 fc after the release. -/
def State.dataFlit (s : State) (f : SFlit) (a id : Nat) (r : Resp) : SFlit :=
  { f with id := id, kind := .rdData, dat := List.replicate 8 0, zero := List.replicate 8 false, resp := r, due := a + 4 + f.lret, src := f.dst, from' := f.dst, cur := f.dst, enter := a + 4, hops := 0, det := none, dst := (if f.srcDie = s.die then f.src else ((s.laneTo f.srcDie f.dst).map s.laneCab).getD f.dst), dstDie := f.srcDie }

/-- A release that is refused or dropped: a read request returns zero with FAULT to its requester, a write has no effect
(R122, R123). -/
def State.dropRelease (s : State) (f : SFlit) (r : Resp) : State :=
  if f.kind = .rdReq then
    let g := s.dataFlit f s.time.stime s.loose.nextId r
    let s := s.fresh
    ({ s with set := { s.set with flits := s.set.flits ++ [g] } }).at' .sched (s.time.stime + 4) (.setFlitHop g.id)
  else s.drained f.id

/-- Where the data of a read request goes that its landing stage releases at the present fc. A request released after its due fc has data
that is not present at its slot: a slip overrun (R101), which R116 answers with zero and ZERO at the delivery fc; a delivery on another
die finds no data (DESIGN CHOICE, log entry 81). -/
def State.readDest (s : State) (cab : Nat) (f : SFlit) : State × SetDest :=
  if f.due < s.time.stime then
    let s := s.slipOverrun cab 13 f.ctx f.fa
    (if f.srcDie = s.die then s.setAnswer (.deliver f.issue) .land cab s.time.stime .zero else s, .done 0)
  else (s.fresh, .flit (s.dataFlit f s.time.stime s.loose.nextId .ok))

/-- Is this the claim of the release of this fc? -/
def State.landClaim (s : State) (cab grp : Nat) (c : Claim) : Bool :=
  decide (c.port = .land) && decide (c.cab = cab) && decide (c.grp = grp) && decide (s.claimAt c = s.time.stime)

/-- A release at the landing stage of its cabinet (R59, R122, R123): context state, map, window, power, replay, claim, range
entries; `held` when it comes out of a hold, its group claimed. -/
def State.release (s : State) (cab : Nat) (l : Landed) (held : Bool) : State :=
  let f := l.f
  let wr := decide (f.kind = .wr)
  let out := { s with set := { s.set with land := s.set.land.filter (fun x => !(decide (x.cab = cab) && decide (x.f.id = f.id))) } }
  if s.discards f.ctx then out.dropRelease f .fault
  else
    match out.setCheck .land cab wr f.ctx f.fa with
    | (t, .inl r) => (t.dropRelease f r).ctxFault? f.ctx
    | (t, .inr none) => (t.dropRelease f .fault).ctxFault? f.ctx
    | (t, .inr (some p)) =>
      if p ≠ cab then ((t.refuse 13 (some cab) f.ctx f.fa).dropRelease f .fault).ctxFault? f.ctx
      else if wr && t.replaying f.ctx then t.drained f.id
      else if !held && !t.claimed .land cab (faGroup f.fa) then ((t.unclaimed .land cab f.ctx f.fa).dropRelease f .fault).ctxFault? f.ctx
      else if !held && t.rangeHeld cab f.fa wr then
        ({ s with set := { s.set with claims := s.set.claims.filter (fun c => !s.landClaim cab (faGroup f.fa) c), land := s.set.land.map (fun (x : Landed) => if decide (x.cab = cab) && decide (x.f.id = f.id) then { x with hold := some s.time.stime } else x) } } : State).arm .sched 1 (.heldAccessRelease (Fin.ofNat 128 cab) ⟨.land, false⟩)
      else
        let t := t.sentinel cab f.fa wr 13 f.ctx
        let r := if wr then (t, SetDest.done f.id) else t.readDest cab f
        let t := r.1
        let dest := r.2
        { t with set := { t.set with claims := t.set.claims.filter (fun c => !t.landClaim cab (faGroup f.fa) c) } }.occupy { port := .land, cab := cab, grp := faGroup f.fa, row := faRow f.fa, at' := s.time.stime, wr := (if wr then some f.dat else none), ctx := f.ctx, fa := f.fa, dest := dest }

/-- `n` fc of a hold add to the slip of a port (R100); while the context replays none do. A slip that comes to exceed 8 fc is an overrun. -/
def State.growSlip (s : State) (cab : Nat) (port : SetPort) (n : Nat) (ctx : Option Nat) (fa : Nat) : State :=
  let was := s.slip cab port
  let n := if s.discards ctx || s.replaying ctx then 0 else n
  let s := (s.setSlip cab port (was + n)).holdUpto cab (fun p => decide (p = port))
  if was ≤ 8 ∧ 8 < was + n then s.slipOverrun cab (setReq port) ctx fa else s

/-- Does a range entry still hold an access that is held? One of a faulted context is settled first (R53, R99). -/
def State.stillHeld (s : State) (cab : Nat) (ctx : Option Nat) (fa : Nat) (wr : Bool) : Bool := !s.discards ctx && s.rangeHeld cab fa wr

/-- HELD_ACCESS_RELEASE (R99, R100): the fc of the hold add to the slip, and on the first fc on which no entry holds it the access issues. A
slip above 8 fc is an overrun. The registers SLIP_WRP, SLIP_WWP and SLIP_LAND take each fc of a hold as it passes (DESIGN CHOICE, log
entry 83). The hold register of WWP may show a parity error as the write leaves it (R139). -/
def execHeldAccessRelease (cab : Cab) (hold : Staged SetPort) (s : State) : Host.Outcome State Fault Refusal :=
  let port := hold.held
  let again (s : State) : State := s.arm .sched 1 (.heldAccessRelease cab ⟨port, false⟩)
  .next (if s.frozen then s.arm .sched 0 (.heldAccessRelease cab hold)
    else if port = .land then
      match s.set.land.filter (fun l => decide (l.cab = cab.val) && l.hold.isSome) with
      | [] => s
      | l :: more =>
        let s := s.growSlip cab .land (s.time.stime - l.hold.getD s.time.stime) l.f.ctx l.f.fa
        let s := (l :: more).foldl (fun s x => if s.stillHeld cab x.f.ctx x.f.fa (decide (x.f.kind = SKind.wr)) then s else s.release cab x true) s
        if s.set.land.any (fun x => decide (x.cab = cab.val) && x.hold.isSome) then again s else s
    else
      match s.set.holds.find? (fun h => decide (h.cab = cab.val) && decide (h.port = port) && h.rel.isNone) with
      | none => s
      | some h =>
        let s := s.growSlip cab port (s.time.stime - h.upto) (s.eag cab) h.addr
        if s.stillHeld cab (s.eag cab) h.addr (decide (port = .wwp)) then again s
        else
          let s := { s with set := { s.set with holds := s.set.holds.map (fun (x : HoldReg) => if x.id = h.id ∧ x.port = port ∧ x.cab = cab.val ∧ x.since = h.since then { x with rel := some s.time.stime } else x) } }
          if port = .wwp then (if hold.perr && !s.discards (s.eag cab) then s.parity cab 1 12 else s).issueWrite cab h.addr h.dat h.dly (some h.id) else s.issueRead cab h.addr h.dly true)

/-! Deliveries -/

/-- WRP_DELIVERY (R117, R118): the delivery of this fc is presented; two on one fc are dropped; one whose data never came
is zero with FAULT; FAULT and ASLEEP fault the context (R136). -/
def execWrpDelivery (cab : Cab) (perr : Bool) (s : State) : Host.Outcome State Fault Refusal :=
  let due := s.set.delivs.filter (fun d => decide (d.cab = cab.val) && decide (d.due ≤ s.time.stime))
  if s.frozen then .next (if due.isEmpty then s else s.arm .sched 0 (.wrpDelivery cab perr))
  else
    let s := { s with set := { s.set with delivs := s.set.delivs.filter (fun d => !(decide (d.cab = cab.val) && decide (d.due ≤ s.time.stime))) } }
    match due with
    | [] => .next s
    | [d] =>
      let lost := d.remote && !d.got
      let r := if lost then .fault else d.resp
      let s := if lost then s.put (R.CAB_PORT_ERRFLAG_DROPPED_RET cab) 1 else s
      let s := (s.presentIf (R.CAB_PORT_STAT_P_WRP cab) (cab.val * 8) { at' := s.time.fc, tag := 0, dat := d.dat, zero := d.zero, sb := 0, resp := r }).countResp cab 0 r
      let s := if perr then s.parity cab 0 11 else s
      .next (if (r = .fault ∨ r = .asleep) ∧ d.discard = false then s.ctxFault? d.ctx else s)
    | d :: _ =>
      let s := (s.put (R.CAB_PORT_ERRFLAG_DELIV_COLL cab) 1).schErr 0x21 11 cab d.ctx d.fa
      let s := (s.presentIf (R.CAB_PORT_STAT_P_WRP cab) (cab.val * 8) { at' := s.time.fc, tag := 0, dat := List.replicate 8 0, zero := List.replicate 8 false, sb := 0, resp := .fault })
      .next (due.foldl (fun s d => (s.countResp cab 0 .fault).ctxFault? d.ctx) s)

/-- WWP_RESPONSE (R121): the response of the write issued 3 fc before. -/
def execWwpResponse (cab : Cab) (s : State) : Host.Outcome State Fault Refusal :=
  let mine (w : Nat × Nat × Resp × Option Nat) : Bool := decide (w.1 = cab.val) && decide (w.2.1 ≤ s.time.stime)
  let due := s.set.wresps.filter mine
  if s.frozen then .next (if due.isEmpty then s else s.arm .sched 0 (.wwpResponse cab))
  else
    let s := { s with set := { s.set with wresps := s.set.wresps.filter (fun w => !mine w) } }
    .next (due.foldl (fun s w =>
      let s := (s.presentIf (R.CAB_PORT_STAT_P_WWP cab) (cab.val * 8 + 1) { at' := s.time.fc, tag := 0, dat := [], zero := [], sb := 0, resp := w.2.2.1 }).countResp cab 1 w.2.2.1
      if w.2.2.1 = .fault ∨ w.2.2.1 = .asleep then s.ctxFault? w.2.2.2 else s) s)

/-! Set-class flits -/

/-- Take a set-class flit off the network. A dropped write is never performed. -/
def State.dropSet (s : State) (f : SFlit) : State :=
  ({ s with set := { s.set with flits := s.set.flits.filter (fun x => !decide (x.id = f.id)) } }).drained (if f.kind = SKind.wr then f.id else 0)

/-- A flit discarded by a router: SCH_LATE, its context faults (R252). -/
def State.lateFlit (s : State) (f : SFlit) (req : Nat) : State := ((s.dropSet f).schErr 0x22 req f.cur f.ctx f.fa).ctxFault? f.ctx

/-- Is it a set-class flit? -/
def isSetItem (i : SlotItem) : Bool :=
  match i with
  | .setFlit _ => true
  | _ => false

/-- A flit at the cabinet where it leaves the die takes its lane's slot: even frame cycles only (R529), an UP lane (R538); two flits for
one slot are both dropped (R52). -/
def State.crossSet (s : State) (f : SFlit) : State :=
  match s.laneTo f.dstDie f.src with
  | none => s.lateFlit f 28
  | some l =>
    if s.laneState l ≠ 2 then s.lateFlit f 28
    else if s.time.stime % 2 = 1 then ((s.dropSet f).schErr 0x21 28 f.cur f.ctx f.fa).ctxFault? f.ctx
    else if s.set.slots.any (fun x => decide (x.2.1 = 4 + l) && decide (x.2.2.1 = s.time.stime)) then
      let out := s.tx.filter (fun x => decide (x.lane = some l) && isSetItem x.item)
      let s := ({ s with tx := s.tx.filter (fun x => !(decide (x.lane = some l) && isSetItem x.item)) }.dropSet f).schErr 0x21 28 f.cur f.ctx f.fa
      (out.foldl (fun s x => match x.item with
        | .setFlit g => (s.drained (if g.kind = SKind.wr then g.id else 0)).ctxFault? g.ctx
        | _ => s) s).ctxFault? f.ctx
    else ({ s with set := { s.set with flits := s.set.flits.filter (fun x => !decide (x.id = f.id)), slots := s.set.slots ++ [(f.cur, 4 + l, s.time.stime, f.id)] } }).send (.setFlit f) (some l)

/-- One hop of a set-class flit in its planned slot (R58, R249, R252, R612): two flits in one slot are both dropped (R52). -/
def State.hopSet (s : State) (f : SFlit) : State :=
  if f.cur = f.dst then
    if f.dstDie = s.die then s.later .sched 0 (.flitArrival f.id) else s.crossSet f
  else if s.lastRouter f.cur f.dst then s.dropSet f
  else
    match s.setHop f.fmask f.cur f.dst f.det with
    | .refuse => s.lateFlit f 28
    | .take d n det =>
      if hopDist f.from' f.dst + 16 < f.hops + 1 then s.lateFlit f 28
      else
        match s.set.slots.find? (fun x => decide (x.1 = f.cur) && decide (x.2.1 = d) && decide (x.2.2.1 = s.time.stime)) with
        | some x =>
          let s := (s.dropSet f).schErr 0x21 28 f.cur f.ctx f.fa
          let s := match s.set.flits.find? (fun g => decide (g.id = x.2.2.2)) with
            | some g => (s.dropSet g).ctxFault? g.ctx
            | none => s
          s.ctxFault? f.ctx
        | none =>
          let g := { f with cur := n, enter := s.time.stime + 2, hops := f.hops + 1, det := det }
          let s := { s with set := { s.set with
            flits := s.set.flits.map (fun (x : SFlit) => if x.id = f.id then g else x), slots := s.set.slots ++ [(f.cur, d, s.time.stime, f.id)] } }
          s.usedLink.later .sched 2 (if n = f.dst ∧ f.dstDie = s.die then .flitArrival f.id else .setFlitHop f.id)

/-- The flit of an identifier that stands ready on this fc. -/
def State.readySet (s : State) (id : Nat) : Option SFlit := s.set.flits.find? (fun f => decide (f.id = id) && decide (f.enter ≤ s.time.stime))

/-- SET_FLIT_HOP (R58). -/
def execSetFlitHop (id : Nat) (s : State) : Host.Outcome State Fault Refusal :=
  .next (match s.readySet id with
  | none => s
  | some f => if s.frozen then s.later .sched 0 (.setFlitHop id) else s.hopSet f)

/-- REMOTE_READ_INJECT (R116): the request takes its first slot at a + d − s. -/
def execRemoteReadInject (cab : Cab) (id : Nat) (s : State) : Host.Outcome State Fault Refusal :=
  .next (match s.readySet id with
  | none => s
  | some f =>
    if f.src ≠ cab.val ∨ f.kind ≠ .rdReq ∨ f.hops ≠ 0 then s
    else if s.frozen then s.later .sched 0 (.remoteReadInject cab id)
    else s.hopSet f)

/-- REMOTE_WRITE_INJECT (R122): the data takes its first slot at a + d − s. -/
def execRemoteWriteInject (cab : Cab) (id : Nat) (s : State) : Host.Outcome State Fault Refusal :=
  .next (match s.readySet id with
  | none => s
  | some f =>
    if f.src ≠ cab.val ∨ f.kind ≠ .wr ∨ f.hops ≠ 0 then s
    else if s.frozen then s.later .sched 0 (.remoteWriteInject cab id)
    else s.hopSet f)

/-- Is a command on the agenda for this fc, or taken from it and waiting? -/
def State.comesNow (s : State) (i : Instr) : Bool := s.pending.contains i || s.agenda.any (fun d => decide (d.cmd = i) && decide (d.due ≤ s.clock d.clk))

/-- Is a flit of a landing stage released on this fc: at its due fc plus the lag of the stage, and not held then? (R59, R60) -/
def State.leavesNow (s : State) (cab : Nat) (f : SFlit) : Bool :=
  decide (f.due + s.landLag cab ≤ s.time.stime) && !s.willHold .land cab f.ctx f.fa (decide (f.kind = .wr))

/-- Does a flit of a landing stage leave it on this fc, on its due fc or out of a hold that ends? (R60) -/
def State.freesPlace (s : State) (l : Landed) : Bool :=
  if l.hold.isSome then s.comesNow (.heldAccessRelease (Fin.ofNat 128 l.cab) ⟨.land, false⟩) && !s.stillHeld l.cab l.f.ctx l.f.fa (decide (l.f.kind = .wr))
  else s.leavesNow l.cab l.f

/-- FLIT_ARRIVAL (R59, R60): returned data goes to its delivery; a late flit is dropped and its context faults; a full stage
drops; an early flit is held until its due fc. -/
def execFlitArrival (id : Nat) (s : State) : Host.Outcome State Fault Refusal :=
  .next (match s.readySet id with
  | none => s
  | some f =>
    if f.cur ≠ f.dst ∨ f.dstDie ≠ s.die then s
    else if s.frozen then s.later .sched 0 (.flitArrival id)
    else if f.due < s.time.stime then s.lateFlit f 13
    else
      let gone : State := { s with set := { s.set with flits := s.set.flits.filter (fun x => !decide (x.id = id)) } }
      if f.kind = .rdData then
        { gone with set := { gone.set with delivs := gone.set.delivs.map (fun (d : Deliv) => if d.id = f.issue ∧ d.cab = f.dst then { d with got := true, dat := f.dat, zero := f.zero, resp := f.resp } else d) } }
      else
        let full := (s.set.land.filter (fun l => decide (l.cab = f.dst) && !s.freesPlace l)).length
        if 32 ≤ full ∧ s.leavesNow f.dst f = false then ((s.dropSet f).schErr 0x2A 13 f.dst f.ctx f.fa).ctxFault? f.ctx
        else
          ({ gone with set := { gone.set with land := gone.set.land ++ [({ cab := f.dst, f := f, hold := none, arrived := s.time.stime } : Landed)] } }).at' .sched
            (f.due + s.landLag f.dst) (.landingRelease (Fin.ofNat 128 f.dst) id))

/-- LANDING_RELEASE (R59): the flit is released at its due fc, later by the slip of the stage. -/
def execLandingRelease (cab : Cab) (id : Nat) (s : State) : Host.Outcome State Fault Refusal :=
  .next (match s.set.land.find? (fun l => decide (l.cab = cab.val) && decide (l.f.id = id) && l.hold.isNone) with
  | none => s
  | some l =>
    let due := l.f.due + s.landLag cab
    if s.frozen then s.later .sched 0 (.landingRelease cab id)
    else if s.time.stime < due then s.at' .sched due (.landingRelease cab id)
    else s.release cab l false)

end Sys2Proof.Machine
end

