-- ==== Sys2Proof/Machine/Leave.lean ====
section
/-! DEFINITION. Leave: the power budget that heavy operations ask for before they start (R499, R500). -/
namespace Sys2Proof.Machine

/-- Do the conditions of R500 hold for the head request? `masked` lists the masked cores by master index; PWC is 1. -/
def State.leaveOk (s : State) : Bool :=
  match s.leave.queue with
  | [] => false
  | q :: _ =>
    let used := s.f R.PWR_LEAVE_STAT_USED
    let budget := s.f R.PWR_LEAVE_BUDGET_UNITS
    (decide (used + q.units ≤ budget) || (decide (budget < q.units) && decide (used = 0))) && !s.masked.contains 1 && !s.bit R.PWR_EMERG_STAT_THERM

/-- Look at the head again: when its conditions have become true the grant falls on the 12th fc after; when one fails the
count starts again. -/
def State.leavePoke (s : State) : State :=
  let s := s.put R.PWR_LEAVE_STAT_WAITING s.leave.queue.length
  if s.leaveOk then
    match s.leave.ready with
    | some _ => s
    | none => ({ s with leave := { s.leave with ready := some s.time.fc } }).later .wall 12 .leaveGrant
  else { s with leave := { s.leave with ready := none } }

/-- Ask for leave; a unit that waits already asks no second time. -/
def State.leaveAsk (s : State) (who : LeaveFor) (units : Nat) : State :=
  if s.leave.queue.any (fun q => decide (q.who = who)) then s
  else ({ s with leave := { s.leave with queue := s.leave.queue ++ [({ who := who, units := units, since := s.time.real } : LeaveReq)] } }).leavePoke

/-- Withdraw a request that waits. -/
def State.leaveDrop (s : State) (who : LeaveFor) : State :=
  let head := s.leave.queue.head?
  let q := s.leave.queue.filter (fun q => !decide (q.who = who))
  let s := { s with leave := { s.leave with queue := q, ready := if q.head? = head then s.leave.ready else none } }
  s.leavePoke

/-- Return leave that is held. -/
def State.leaveBack (s : State) (who : LeaveFor) : State :=
  let n := (s.leave.held.filter (fun h => decide (h.1 = who))).foldl (fun n h => n + h.2) 0
  let s := { s with leave := { s.leave with held := s.leave.held.filter (fun h => !decide (h.1 = who)) } }
  (s.put R.PWR_LEAVE_STAT_USED (s.f R.PWR_LEAVE_STAT_USED - n)).leavePoke

/-- Is leave held for this unit? -/
def State.leaveHas (s : State) (who : LeaveFor) : Bool := s.leave.held.any (fun h => decide (h.1 = who))

/-- Grant the head request: units charged, grants and longest wait counted (R500, R518). -/
def State.leaveTake (s : State) (q : LeaveReq) (rest : List LeaveReq) : State :=
  let w := min ((s.time.real - q.since) / 300000) (2 ^ 32 - 1)
  let s := { s with leave := { queue := rest, ready := none, held := s.leave.held ++ [(q.who, q.units)] } }
  let s := (s.put R.PWR_LEAVE_STAT_USED (s.f R.PWR_LEAVE_STAT_USED + q.units)).inc R.PWR_LEAVE_GRANTS_COUNT
  (if s.f R.PWR_LEAVE_LONGEST_NS < w then s.put R.PWR_LEAVE_LONGEST_NS w else s).leavePoke

end Sys2Proof.Machine
end

