-- ==== Sys2Proof/Machine/Freeze.lean ====
section
/-! DEFINITION. Freezes with their sources and marks, steps and step replay (chapter "The schedule contract"). -/
namespace Sys2Proof.Machine

/-! Freezes -/

/-- The bit of LCT.FRZ_STAT of a source (R80). -/
def srcBit : FrzSrc → Fld
  | .bridge => R.LCT_FRZ_STAT_BRIDGE
  | .clamp => R.LCT_FRZ_STAT_CLAMP
  | .debug => R.LCT_FRZ_STAT_DEBUG
  | .firmware => R.LCT_FRZ_STAT_FIRMWARE
  | .licensee => R.LCT_FRZ_STAT_LICENSEE
  | .package => R.LCT_FRZ_STAT_PACKAGE

/-- FRZ (R72, R73): high while the fc three later is to be frozen, and without a break between a freeze that ends and one
that a level of FRZ_REQ sampled on this fc begins. -/
def State.frzPin (s : State) : Bool :=
  s.frozenAt (s.time.fc + 3) || (s.frozenAt (s.time.fc + 2) && s.bit R.LCT_FRZ_CTL_REQ_EN && s.frz.reqNew.any (fun e => e.2))

/-- Does a source of this die, not a mark of another, hold the freeze line? (R77) -/
def State.ownLine (s : State) : Bool := s.frz.lines.any (fun x => !decide (x = .package))

/-- A source asks for a freeze: FRZ rises and the first frozen fc is the third after, or the freeze of the same source that would end on that fc
goes on; the die sends a begin mark for a freeze of its own (R73, R77). -/
def State.frzRaise (s : State) (x : FrzSrc) : State :=
  let s := { s with frz := { s.frz with falls := s.frz.falls.filter (fun y => !decide (y = x)) } }
  if s.frz.lines.contains x then s
  else if s.frz.ends.any (fun e => decide (e.1 = x) && decide (s.time.fc + 3 ≤ e.2)) then
    let first := !s.ownLine && !decide (x = .package)
    let seq := s.frz.mySeq + (if first then 1 else 0)
    let s := { s with frz := { s.frz with lines := s.frz.lines ++ [x], ends := s.frz.ends.filter (fun e => !(decide (e.1 = x) && decide (s.time.fc + 3 ≤ e.2))), mySeq := seq } }
    if first then s.send (.beginMark s.die seq) else s
  else
    let first := !s.ownLine && !decide (x = .package)
    let seq := s.frz.mySeq + (if first then 1 else 0)
    let s := { s with frz := { s.frz with lines := s.frz.lines ++ [x], starts := s.frz.starts ++ [(x, s.time.fc + 3)], mySeq := seq } }
    let s := s.later .wall 3 (.freezeStart x)
    if first then s.send (.beginMark s.die seq) else s

/-- A source lets its freeze end: FRZ falls and the third fc after is the first unfrozen one; the die sends its end mark, 3 fc before it, when no
source of its own remains. A source that rose on this fc falls on the next, since a freeze has at least one frozen fc (R73, R78, R79). -/
def State.frzFall (s : State) (x : FrzSrc) : State :=
  if s.frz.lines.contains x = false then s
  else if s.frz.starts.any (fun e => decide (e.1 = x) && decide (s.time.fc + 3 ≤ e.2)) then
    { s with frz := { s.frz with falls := s.frz.falls.filter (fun y => !decide (y = x)) ++ [x] } }.later .wall 1 (.freezeFinish x)
  else
    let due := s.time.fc + 3
    let s := { s with frz := { s.frz with lines := s.frz.lines.filter (fun y => !decide (y = x)), ends := s.frz.ends ++ [(x, due)] } }
    let s := s.at' .wall due (.freezeFinish x)
    if !s.ownLine && !decide (x = .package) then s.send (.endMark s.die s.frz.mySeq) else s

/-- A dump as it begins with a debug halt freeze while AUTO is 1 (R298). -/
def State.autoDump (s : State) : State := if s.bit (R.SYN_DUMP_CTL_AUTO 0) then s.later .wall 0 (.dumpGo .dbg 0x11) else s

/-- The debug halt freeze holds the watchdogs that pause for it (R454), from its first frozen fc to its last. -/
def State.wdtPause (s : State) (on : Bool) : State := s.wdtChange { s with mgt := { s.mgt with hold := if on then some s.time.now else none } }

/-- The licensee's freeze follows FRZ_REQ while it is honoured (R76, R81). -/
def State.frzLicensee (s : State) : State :=
  if s.frz.reqPin && s.bit R.LCT_FRZ_CTL_REQ_EN then s.frzRaise .licensee else s.frzFall .licensee

/-- Levels of FRZ_REQ sampled before this fc act on the line, in order (R76). -/
def State.frzSampled (s : State) : State :=
  let due := s.frz.reqNew.filter (fun e => decide (e.1 < s.time.fc))
  let s := { s with frz := { s.frz with reqNew := s.frz.reqNew.filter (fun e => !decide (e.1 < s.time.fc)) } }
  due.foldl (fun s e => ({ s with frz := { s.frz with reqPin := e.2 } }).frzLicensee) s

/-- A source that fell on the fc on which it rose falls now (R73). -/
def State.frzFalls (s : State) (x : FrzSrc) : State :=
  if s.frz.falls.contains x && !s.frz.starts.any (fun e => decide (e.1 = x) && decide (s.time.fc + 3 ≤ e.2)) then
    { s with frz := { s.frz with falls := s.frz.falls.filter (fun y => !decide (y = x)) } }.frzFall x
  else s

/-- FREEZE_START (R73, R74): the first frozen fc of this source's freeze. -/
def execFreezeStart (src : FrzSrc) (s : State) : Host.Outcome State Fault Refusal :=
  let s := s.frzSampled
  .next (if s.frz.starts.any (fun e => decide (e.1 = src) && decide (e.2 ≤ s.time.fc)) then
    let run := if s.frozen then s.frz.run else 0
    let s := { s with frz := { s.frz with starts := s.frz.starts.filter (fun e => !(decide (e.1 = src) && decide (e.2 ≤ s.time.fc))), run := run } }
    let s := if src = .debug then s.autoDump.wdtPause true else s
    (s.put (srcBit src) 1).put R.LCT_FRZ_STAT_FROZEN 1
  else s)

/-- FREEZE_FINISH (R73, R79, R82): the die thaws unless another freeze is in force or begins within three fc. -/
def execFreezeFinish (src : FrzSrc) (s : State) : Host.Outcome State Fault Refusal :=
  let s := s.frzSampled.frzFalls src
  .next (if s.frz.ends.any (fun e => decide (e.1 = src) && decide (e.2 ≤ s.time.fc)) then
    let s := { s with frz := { s.frz with ends := s.frz.ends.filter (fun e => !(decide (e.1 = src) && decide (e.2 ≤ s.time.fc))) } }
    let s := s.put (srcBit src) 0
    let s := if src = .debug then s.wdtPause false else s
    if s.anyFreeze || s.frz.starts.any (fun e => decide (e.2 < s.time.fc + 3)) then s
    else ({ s with syn := { s.syn with thawed := true } }.put R.LCT_FRZ_STAT_FROZEN 0).put R.LCT_FRZ_LAST_V (min s.frz.run (2 ^ 32 - 1))
  else s)

/-- FRZ_REQ_CHANGE (R76): the level is sampled on this fc and acts on the line on the next, so a freeze begins or ends 4 fc
after. -/
def execFrzReqChange (level : Bool) (s : State) : Host.Outcome State Fault Refusal :=
  .next (if s.frz.pin = level then s
    else ({ s with frz := { s.frz with reqNew := s.frz.reqNew ++ [(s.time.fc, level)] } }).later .wall 1 (if level then .freezeStart .licensee else .freezeFinish .licensee))

/-- The firmware freeze follows FW_FRZ and SEC_FRZ (R76, R81). -/
def State.frzFirmware (s : State) : State :=
  if s.bit R.LCT_FRZ_CTL_FW_FRZ || s.bit R.LCT_FRZ_CTL_SEC_FRZ then s.frzRaise .firmware else s.frzFall .firmware

/-- FRZ_CTL_WRITE (R81). A write that would change both bits by a master that may write neither enters one record: the rule names a record
for such a write and gives no count (DESIGN CHOICE, log entry 89). -/
def execFrzCtlWrite (m : Master) (v : W32) (s : State) : Host.Outcome State Fault Refusal :=
  .next (s.row m (.frzCtlWrite m v) (fun s =>
  let s := s.put R.LCT_FRZ_CTL_REQ_EN (v.toNat % 2)
  let fw := m == .pwc || m == .sch || m == .dbg
  let sec := m == .sec || m == .dbg
  let turned := (!fw && decide (s.f R.LCT_FRZ_CTL_FW_FRZ ≠ v.toNat / 2 % 2)) || (!sec && decide (s.f R.LCT_FRZ_CTL_SEC_FRZ ≠ v.toNat / 4 % 2))
  let s := if fw then s.put R.LCT_FRZ_CTL_FW_FRZ (v.toNat / 2 % 2) else s
  let s := if sec then s.put R.LCT_FRZ_CTL_SEC_FRZ (v.toNat / 4 % 2) else s
  let s := if turned then s.locked (masterReq m) (s.ca R.LCT_FRZ_CTL) else s
  s.frzFirmware.frzLicensee))

/-- FREEZE_BEGIN_MARK (R77): a new mark raises FRZ on arrival and goes on over the other bridges; a second copy is ignored. -/
def execFreezeBeginMark (lane : Fin 8) (origin : Fin 8) (seq : Nat) (s : State) : Host.Outcome State Fault Refusal :=
  .next (if origin.val = s.die ∨ s.frz.marks.any (fun m => decide (m.origin = origin.val) && decide (m.seq = seq)) = true then s
    else
      let ms := s.frz.marks.filter (fun m => m.open' || decide (m.origin ≠ origin.val))
      (({ s with frz := { s.frz with marks := ms ++ [({ origin := origin, seq := seq, open' := true } : Mark)] } }).frzRaise .package).send (.beginMark origin seq) none (some lane))

/-- FREEZE_END_MARK (R78): the package freeze ends 3 fc after, unless another mark is in force (R79). -/
def execFreezeEndMark (lane : Fin 8) (origin : Fin 8) (seq : Nat) (s : State) : Host.Outcome State Fault Refusal :=
  let hit (m : Mark) : Bool := decide (m.origin = origin.val) && decide (m.seq = seq) && m.open'
  .next (if s.frz.marks.any hit then
    let s := { s with frz := { s.frz with marks := s.frz.marks.map (fun m => if hit m then { m with open' := false } else m) } }
    let s := s.send (.endMark origin seq) none (some lane)
    if s.frz.marks.any (fun m => m.open') then s else s.frzFall .package
  else s)

/-! Steps -/

/-- Let the held signals of a context that were issued before schedule fc `t` go (R84). -/
def State.releaseSignals (s : State) (c t : Nat) : State :=
  let go (g : Sig) : Bool := decide (g.ctx = some c) && decide (g.place = .held) && decide (g.since < t)
  let out := s.syn.signals.filter go
  out.foldl (fun s g => s.later .unfz 0 (.signalLeave g.id))
    { s with syn := { s.syn with signals := s.syn.signals.map (fun g => if go g then { g with place := .port } else g) } }

/-- The signals of a list whose step is released belong to no step any more (R84). -/
def State.unholdList (s : State) (e : StepList) : State :=
  let free (l : RunList) : RunList := if l.ctx = e.ctx ∧ l.openAt = e.openAt then { l with held := false } else l
  let x := s.runner e.cab e.run
  s.setRunner e.cab e.run { x with run := x.run.map free, queue := x.queue.map free }

/-- Release the oldest closed step of a context (R84, R89). -/
def State.releaseStep (s : State) (t : Step) (closed : Nat) : State :=
  let s := (s.stp.lists.filter (fun e => decide (e.ctx = t.ctx) && decide (e.openAt = t.openAt))).foldl (fun s e => s.unholdList e) s
  let s := { s with stp := { s.stp with steps := s.stp.steps.filter (fun x => !decide (x = t)), lists := s.stp.lists.filter (fun e => !(decide (e.ctx = t.ctx) && decide (e.openAt = t.openAt))) } }
  let c := t.ctx
  let more := s.stp.steps.any (fun x => decide (x.ctx = c) && x.closeAt.isSome)
  (s.releaseSignals c closed).puts [(R.LCT_STEP_RELEASED c, s.f (R.LCT_STEP_RELEASED c) + 1), (R.LCT_STEP_ATTEMPT c, 0),
    (R.LCT_STEP_UNRELEASED c, if more then 1 else 0)]

/-- Was the entry opened before this fc? One opened on the fc of a mark belongs to the step that the mark opens (R83, R96). -/
def State.openedBefore (s : State) (p n : Nat) : Bool := decide ((SMap.get (0, 0) s.set.opener (p * 32 + n)).2 ≤ s.time.stime)

/-- Empty the range entries that a context opened and that its closing step leaves open, with their records, and clear the
slips of its ports (R96, R100). -/
def State.leaveRanges (s : State) (c : Nat) : State :=
  (s.ctxCabs c).foldl (fun s p =>
    let s := ((s.sbdOpen p).filter (fun n => s.openedBefore p n)).foldl (fun s n => ((s.put (R.SBD_ERR_LEFT p) 1).schErr 0x2C 15 p (some c)).sbdEmpty p n) s
    (s.sbdCount p).clearSlips p) s

/-- Close the step of a context that is open (R83, R84): one die releases it at once, several 256 fc later. -/
def State.closeStep (s : State) (c : Nat) : State :=
  match s.stp.steps.find? (fun t => decide (t.ctx = c) && t.closeAt.isNone) with
  | none => s
  | some t =>
    let now := s.time.stime
    let s := s.leaveRanges c
    if s.bit (R.LCT_STEP_MULTI c) then
      let s := { s with stp := { s.stp with steps := s.stp.steps.map (fun x => if x = t then { x with closeAt := some now } else x) } }
      (s.put (R.LCT_STEP_UNRELEASED c) 1).later .sched 256 (.stepRelease (Fin.ofNat 16 c))
    else s.releaseStep t now

/-- Open a step of a context on this fc (R83); STATE stays 3 in a context that has faulted (R91). -/
def State.openStep (s : State) (c : Nat) : State :=
  ({ s with stp := { s.stp with steps := s.stp.steps ++ [({ ctx := c, openAt := s.time.stime, closeAt := none } : Step)] } }).put (R.LCT_STEP_STATE c) (if s.faulted c then 3 else 1)

/-- A die-global error record of the schedule log from the sequencer inputs. -/
def State.markErr (s : State) (kind c : Nat) : State := (s.err { kind := kind, req := 15, cab := none, ctx := some c }).ctxFault c

/-- What the abandoned attempt left: its range entries and slips go without a record (R69, R87). -/
def State.leaveReplay (s : State) (c : Nat) : State :=
  (s.ctxCabs c).foldl (fun s p => ((((s.sbdOpen p).filter (fun n => s.openedBefore p n)).foldl (fun s n => s.sbdEmpty p n) s).sbdCount p).clearSlips p) s

/-- STEP_MARK (R75, R83, R87). The lists of the later unreleased steps, whose work R88 discards, are dispatched again as lists of the re-opened
step (DESIGN CHOICE, log entry 109). -/
def execStepMark (ctx : Ctx) (rpl : Bool) (s : State) : Host.Outcome State Fault Refusal :=
  let c := ctx.val
  let wait := s.stp.restart.find? (fun r => decide (r.1 = c))
  .next (if s.discards (some c) then s
    else if s.frozen then s.markErr 0x2B c
    else if s.time.stime % 64 ≠ 0 then s.markErr 0x26 c
    else
      match wait with
      | some r =>
        if rpl ∧ r.2.1 = s.time.stime then
          let s := s.leaveReplay c
          let s := { s.endReplay c with stp := { (s.endReplay c).stp with steps := s.stp.steps.filter (fun t => decide (t.ctx ≠ c)) } }
          let s := (s.openStep c).puts [(R.LCT_STEP_ATTEMPT c, r.2.2 + 1), (R.LCT_STEP_UNRELEASED c, 0)]
          let again (e : StepList) : StepList := if e.ctx = c then { e with again := !s.fenced e.cab, openAt := s.time.stime } else e
          ({ s with stp := { s.stp with lists := s.stp.lists.map again } }).redispatch c
        else s.markErr 0x26 c
      | none => if rpl then s.markErr 0x26 c else (s.closeStep c).openStep c)

/-- STEP_RELEASE (R84): the oldest closed step whose 256 fc have passed. On the fc after STEP_FAULT rose the held signals of the context are
dropped (R53). -/
def execStepRelease (ctx : Ctx) (s : State) : Host.Outcome State Fault Refusal :=
  let s := if s.discards (some ctx.val) then s.dropHeld ctx else s
  .next (if s.frozen then s.later .sched 0 (.stepRelease ctx)
    else if s.stp.restart.any (fun r => decide (r.1 = ctx.val)) then s
    else
      match s.stp.steps.find? (fun t => decide (t.ctx = ctx.val) && t.closeAt.isSome) with
      | some t => match t.closeAt with
        | some a => if a + 256 ≤ s.time.stime then s.releaseStep t a else s
        | none => s
      | none => s)

/-- REPLAY_NOTICE (R85, R86, R459): cause 4, which faults the context while SCH is masked; every die adopts the greatest restart fc named for the attempt, and passes each notice on once over its
other lanes, whether or not the context has a step here, since dies beyond it may. STEP_REPLAY rises on arrival, in a freeze on the next
unfrozen fc (R107). -/
def execReplayNotice (lane : Fin 8) (ctx : Ctx) (attempt : Fin 4) (r : Nat) (s : State) : Host.Outcome State Fault Refusal :=
  let c := ctx.val
  .next (if s.stp.heard.contains (c, attempt.val, r) then s
  else
    let s := (s.hear c attempt r).send (.replay c attempt r) none (some lane)
    match s.stp.restart.find? (fun x => decide (x.1 = c)) with
    | some x =>
      if x.2.2 = attempt.val ∧ x.2.1 < r then
        ({ s with stp := { s.stp with restart := s.stp.restart.map (fun (y : Nat × Nat × Nat) => if y.1 = c then (c, r, attempt.val) else y) } }).at' .sched (r - 1) (.replayRestart ctx)
      else s
    | none =>
      if s.faulted c || !s.stepLive c || decide (s.f (R.LCT_STEP_ATTEMPT c) ≠ attempt.val) then s
      else if s.masked.contains 2 then s.noSch c
      else if attempt.val = 3 then s.ctxFault c
      else if s.frozen then s.startReplay c 4 attempt r
      else (s.startReplay c 4 attempt r).replayRise c)

/-- The stretch-skew error of a frozen fc is a replay cause on the next unfrozen fc (R107). -/
def State.skewCause (s : State) (c : Nat) : State :=
  ({ s with stp := { s.stp with skewed := s.stp.skewed.filter (fun x => decide (x ≠ c)) } }).replayCause c 3

/-- REPLAY_RESTART (R86, R87, R107): STEP_REPLAY rises on the unfrozen fc after the cause; it falls on the fc before R; a mark missing at R
faults the context. -/
def execReplayRestart (ctx : Ctx) (s : State) : Host.Outcome State Fault Refusal :=
  let c := ctx.val
  .next (if s.frozen then s.later .sched 0 (.replayRestart ctx)
    else if s.stp.skewed.contains c then s.skewCause c
    else
      let s := if s.stp.replayPin.contains (c, 1) then s.replayRise c else s
      match s.stp.restart.find? (fun x => decide (x.1 = c)) with
      | none => s.redispatch c
      | some x =>
        if s.time.stime + 1 < x.2.1 then s
        else if s.masked.contains 2 then s.noSch c
        else if s.time.stime ≤ x.2.1 then
          ({ s with stp := { s.stp with replayPin := s.stp.replayPin.filter (fun p => decide (p.1 ≠ c)) } }).at' .sched (x.2.1 + 1) (.replayRestart ctx)
        else s.markErr 0x26 c)

end Sys2Proof.Machine
end

