-- ==== Sys2Proof/Machine/Ports.lean ====
section
/-! DEFINITION. The narrow ports and the presence inputs (chapter "Engine ports"). -/
namespace Sys2Proof.Machine

/-- Field that shows the outstanding requests of a narrow port (R143). -/
def npOut (cab port : Nat) : Fld := if port = 0 then R.CAB_PORT_STAT_NP0_OUT cab else R.CAB_PORT_STAT_NP1_OUT cab

/-- Presence bit of a narrow port (R143). -/
def npPres (cab port : Nat) : Fld := if port = 0 then R.CAB_PORT_STAT_P_NP0 cab else R.CAB_PORT_STAT_P_NP1 cab

/-- The outstanding requests of a narrow port, in order of acceptance. -/
def State.npReqs (s : State) (cab port : Nat) : List PortReq := s.loose.ports.filter (fun e => decide (e.cab = cab) && decide (e.port = port))

/-- Is a request accepted on this fc? (R125) -/
def State.npAck (s : State) (cab port tag : Nat) : Bool :=
  s.bit (npPres cab port) && !s.frozen && decide ((s.npReqs cab port).length < 32) && !(s.npReqs cab port).any (fun e => decide (e.tag = tag))

/-- The access of a narrow request (R124, R126). -/
def State.npAcc (s : State) (cab port : Nat) (we : Bool) (addr be : Nat) (dat : List W256) (tag : Nat) : LReq :=
  { id := s.loose.nextId, req := port, home := cab, homeDie := s.die, org := .np cab port tag, cls := .loose, ctx := s.eag cab, fa := addr * 64, we := we, be := (if we then be else 2 ^ 64 - 1), dat := dat, op := .acc }

/-- How much later than that an access completes at the earliest: a cabinet in Doze wakes first (R137), and 4 fc pass for each hop and
44 for each crossing of the request and of its answer (R130). -/
def State.npMore (s : State) (cab : Nat) (q : LReq) : Nat :=
  match s.target q.cls q.we q.ctx q.fa with
  | .at' p => 8 * hopDist cab p + (if s.pow p = 1 then 8 else 0)
  | .far _ => 88
  | .refused => 0
  | .violation _ _ => 0

/-- Accept a request: it is outstanding from this fc (R125). -/
def State.npAccept (s : State) (cab port : Nat) (q : LReq) (tag : Nat) : State :=
  let s := s.fresh
  let e : PortReq := { cab := cab, port := port, tag := tag, id := q.id, we := q.we, fa := q.fa, gate := s.time.ufc + npMin q + s.npMore cab q, ans := none }
  ({ s with loose := { s.loose with ports := s.loose.ports ++ [e] } }).put (npOut cab port) ((s.npReqs cab port).length + 1)

/-- NP_REQUEST (R125, R126, R139, R247): an accepted request is outstanding; the ports of a fenced cabinet answer FAULT; the
request register may show a parity error. -/
def execNpRequest (cab : Cab) (port : Fin 2) (we : Bool) (addr : BitVec 26) (be : W64) (data : Staged (List W256)) (tag : Fin 32) (s : State) : Host.Outcome State Fault Refusal :=
  .next (if s.npAck cab port tag then
    let q := s.npAcc cab port we addr.toNat be.toNat data.held tag
    let s := (if data.perr then s.parity cab 2 port.val else s).npAccept cab port q tag
    if s.fenced cab then s.deliver q (noAns .fault 2) else s.issueLoose q cab
  else s)

/-- Is no earlier request of the port to the same 64-byte block outstanding? Such requests complete in order (R129). -/
def State.npFirst (s : State) (cab port : Nat) (e : PortReq) : Bool :=
  !((s.npReqs cab port).takeWhile (fun x => decide (x.id ≠ e.id))).any (fun x => decide (x.fa / 64 = e.fa / 64))

/-- NP_COMPLETION (R128, R129, R138, R139): one completion is presented on this fc, none on a frozen fc. -/
def execNpCompletion (cab : Cab) (port : Fin 2) (perr : Bool) (s : State) : Host.Outcome State Fault Refusal :=
  let again (s : State) : State := if (s.npReqs cab port).any (fun e => e.ans.isSome) then s.arm .unfz 1 (.npCompletion cab port false) else s
  if s.frozen then .next (again s)
  else
    match (s.npReqs cab port).find? (fun e => e.ans.isSome && decide (e.gate ≤ s.time.ufc) && s.npFirst cab port e) with
    | none => .next (again s)
    | some e =>
      let a := e.ans.getD (noAns .fault 2)
      let s := { s with loose := { s.loose with ports := s.loose.ports.filter (fun x => !decide (x.id = e.id)) } }
      let s := s.put (npOut cab port) (s.npReqs cab port).length
      let s := (s.present! (cab.val * 8 + 2 + port.val) { at' := s.time.fc, tag := e.tag, dat := if e.we then [0, 0] else a.dat, zero := a.zero, sb := 0, resp := a.resp }).countResp cab (2 + port.val) a.resp
      .next (again (if perr then s.parity cab 2 port.val else s))

/-- The register bit that shows a cabinet port's presence, if it has one (R143). -/
def presFld : PresPort → Option Fld
  | .wrp c => some (R.CAB_PORT_STAT_P_WRP c)
  | .wwp c => some (R.CAB_PORT_STAT_P_WWP c)
  | .np0 c => some (R.CAB_PORT_STAT_P_NP0 c)
  | .np1 c => some (R.CAB_PORT_STAT_P_NP1 c)
  | .hfp c => some (R.CAB_PORT_STAT_P_HFP c)
  | .seq c => some (R.CAB_PORT_STAT_P_SEQ c)
  | .hdp => none
  | .hrp => none

/-- Forget the outstanding requests of a port that goes away: its accepted requests complete in the store, their completions
are discarded and their tags are free (R141). -/
def State.forgetPort (s : State) (cab port : Nat) (f : Fld) : State :=
  ({ s with loose := { s.loose with ports := s.loose.ports.filter (fun e => !(decide (e.cab = cab) && decide (e.port = port))) } }).put f 0

/-- What the absence of a port does: its outputs are zero and what it had asked is forgotten (R141). -/
def State.portLow (s : State) (p : PresPort) : State :=
  match p with
  | .np0 c => (s.forgetPort c 0 (npOut c 0)).outLow (c.val * 8 + 2)
  | .np1 c => (s.forgetPort c 1 (npOut c 1)).outLow (c.val * 8 + 3)
  | .hdp => { s with loose := { s.loose with ports := s.loose.ports.filter (fun e => !decide (e.cab = 128)) } }.outLow 1024
  | .hrp => s.later .real 0 (.targetArbitration .rgs)
  | .wrp c => s.outLow (c.val * 8)
  | .wwp c => s.outLow (c.val * 8 + 1)
  | .hfp c => ({ s with hfp := SMap.erase s.hfp c.val }.outLow (c.val * 8 + 6)).outLow (c.val * 8 + 7)
  | .seq c => (s.outLow (c.val * 8 + 4)).outLow (c.val * 8 + 5)

/-- A port that is present anew: a start that ESG held is shown again (R342). -/
def State.portHigh (s : State) (p : PresPort) : State :=
  match p with
  | .hfp c => s.later .wall 0 (.engine c 0)
  | .np0 _ | .np1 _ | .hdp | .hrp | .wrp _ | .wwp _ | .seq _ => s

/-- Does either generation of the map name the physical cabinet, or is it fenced? The presence inputs of any other are ignored (R137). -/
def State.inMap (s : State) (p : Nat) : Bool := (s.genSet 0).contains p || (s.genSet 1).contains p || s.fenced p

/-- Cabinet of a presence input, if it has one. -/
def presCab : PresPort → Option Nat
  | .wrp c => some c
  | .wwp c => some c
  | .np0 c => some c
  | .np1 c => some c
  | .hfp c => some c
  | .seq c => some c
  | .hdp => none
  | .hrp => none

/-- The presence of a port as the fabric takes it: its synchronized level, low in an unmapped cabinet (R137, R140, R141). -/
def State.takePresent (s : State) (p : PresPort) : State :=
  let level := s.present.contains p && (match presCab p with
    | some c => s.inMap c
    | none => true)
  let was := match presFld p with
    | some f => s.bit f
    | none => true
  let s := match presFld p with
    | some f => s.putb f level
    | none => s
  if level then (if was then s else s.portHigh p) else if was then s.portLow p else s

/-- A synchronized presence takes its new level (R140, R141). -/
def State.setPresent (s : State) (p : PresPort) (level : Bool) : State :=
  ({ s with present := if level then (if s.present.contains p then s.present else s.present ++ [p]) else s.present.filter (fun x => !decide (x = p)) } : State).takePresent p

/-- A change of the map: the ports of cabinets that enter or leave it are taken anew (R137). -/
def State.mapMoved (s : State) : State := s.present.foldl (fun s p => s.takePresent p) s

/-- PRESENT_CHANGE (R140): a change of the input takes effect on the third fc after it. -/
def execPresentChange (port : PresPort) (level : Bool) (s : State) : Host.Outcome State Fault Refusal :=
  let hit (e : PresPort × Bool × Nat) : Bool := decide (e.1 = port) && decide (e.2.1 = level) && decide (e.2.2 ≤ s.time.fc)
  .next (if s.presWait.any hit then
    ({ s with presWait := s.presWait.filter (fun e => !hit e) }).setPresent port level
  else ({ s with presWait := s.presWait ++ [(port, level, s.time.fc + 3)] }).later .wall 3 (.presentChange port level))

end Sys2Proof.Machine
end

