-- ==== Sys2Proof/Machine/Bank.lean ====
section
/-! DEFINITION. The commands of blocks BNK, ERR, ASY and RMP: retirement, buckets, injection, sweeps, logs, assay passes and
remap moves (chapters "Protection of stored words" and "Assay passes, remap and fencing"). -/
namespace Sys2Proof.Machine

/-- Bit `i` of a written value. -/
def vbit (v : W32) (i : Nat) : Bool := v.toNat / 2 ^ i % 2 = 1

/-- Masters that blocks BNK, ASY and RMP accept: SEC, the cluster core of the cabinet, DBG (R212, R229, R239). -/
def bankMaster (m : Master) (cab : Nat) : Bool := m == .sec || m == .dbg || m == .cc (Fin.ofNat 8 (cluster cab))

/-! Retirement -/

/-- Note the fc that records a retirement (R186). -/
def State.setRet (s : State) (cab bank k : Nat) : State :=
  { s with rep := { s.rep with retFrom := SMap.insert s.rep.retFrom ((cab * 32 + bank) * 2 + k) (fcAt s.frozen s.time.ufc s.time.fc) } }

/-- Record a first retirement (R187). -/
def State.retire1 (s : State) (cab bank mac req : Nat) (auto : Bool) : State :=
  ((s.setRet cab bank 0).puts [(R.BNK_RETIRE_MAC1 cab bank, mac), (R.BNK_RETIRE_V1 cab bank, 1), (R.BNK_RETIRE_AUTO1 cab bank, if auto then 1 else 0)]).err
    { kind := 0x03, req := req, cab := some cab, bank := bank, sym := mac }

/-- Record a second retirement: it requests the fence of the cabinet (R188). -/
def State.retire2 (s : State) (cab bank mac req : Nat) : State :=
  (((s.setRet cab bank 1).puts [(R.BNK_RETIRE_MAC2 cab bank, mac), (R.BNK_RETIRE_V2 cab bank, 1)]).err
    { kind := 0x04, req := req, cab := some cab, bank := bank, sym := mac }).fenceCause cab 2

/-- Is an automatic retirement to be recorded: did its macro's counter reach the limit on the fc before, or does it stand there with
AUTO_RET at 1? (R187) -/
def State.retireNow (s : State) (cab bank mac : Nat) : Bool :=
  !s.bit (R.BNK_RETIRE_V1 cab bank) &&
    (s.rep.retDue.contains (cab, bank, mac) || (s.bit (R.BNK_ECC_CTL_AUTO_RET cab) && decide (s.f (R.BNK_RET_LIMIT_LIMIT cab) ≤ s.f (mcntFld cab bank mac))))

/-- AUTO_RETIRE (R187). -/
def execAutoRetire (cab : Cab) (bank : Bank) (mac : Fin 18) (s : State) : Host.Outcome State Fault Refusal :=
  let now := s.retireNow cab bank mac
  let s := { s with rep := { s.rep with retDue := s.rep.retDue.filter (fun (e : Nat × Nat × Nat) => !decide (e = (cab.val, bank.val, mac.val))) } }
  .next (if now then s.retire1 cab bank mac 28 true else s)

/-- RETIRE_WRITE (R212, R222). -/
def execRetireWrite (m : Master) (cab : Cab) (bank : Bank) (v : W32) (s : State) : Host.Outcome State Fault Refusal :=
  .next (s.row m (.retireWrite m cab bank v) (fun s => s.gateAt (bankMaster m cab) m cab (R.BNK_RETIRE cab bank) (fun s =>
    let v1 := s.bit (R.BNK_RETIRE_V1 cab bank)
    let set1 := vbit v 5 && !v1
    let set2 := vbit v 13 && !s.bit (R.BNK_RETIRE_V2 cab bank)
    let m1 := v.toNat % 32
    let m2 := v.toNat / 256 % 32
    let first := if v1 then s.f (R.BNK_RETIRE_MAC1 cab bank) else m1
    if (set1 && decide (17 < m1)) || (set2 && (decide (17 < m2) || decide (m2 = first) || (!v1 && !set1))) then s
    else
      let s := if set1 then s.retire1 cab bank m1 (masterReq m) false else s
      if set2 then s.retire2 cab bank m2 (masterReq m) else s)))

/-! Buckets, injection, counters -/

/-- The next drip of a cabinet: the next multiple of its drip period (R197, R199). -/
def State.dripArm (s : State) (cab : Nat) : State :=
  let w := ns (1000 * max 1 (s.f (R.BNK_BKT_CFG_DRIP_PERIOD cab)))
  let c : Instr := .bucketDrip (Fin.ofNat 128 cab)
  (s.disarm c).at' .fab ((s.time.now / w + 1) * w) c

/-- BUCKET_DRIP (R197): every bucket of the cabinet above 0 loses 1. -/
def execBucketDrip (cab : Cab) (s : State) : Host.Outcome State Fault Refusal :=
  .next (((List.range 32).foldl (fun s b => s.dec (R.BNK_BKT_LEVEL cab b)) s).dripArm cab)

/-- BKT_CFG_WRITE (R199, R215): a period of 0 stores 1. -/
def execBktCfgWrite (m : Master) (cab : Cab) (v : W32) (s : State) : Host.Outcome State Fault Refusal :=
  .next (s.row m (.bktCfgWrite m cab v) (fun s => s.gateAt (bankMaster m cab) m cab (R.BNK_BKT_CFG cab) (fun s =>
    (s.puts [(R.BNK_BKT_CFG_THRESH cab, v.toNat % 65536), (R.BNK_BKT_CFG_DRIP_PERIOD cab, max 1 (v.toNat / 65536))]).dripArm cab)))

/-- INJ_CTL_WRITE (R200, R201): a symbol above 17 leaves the register as it was; COUNT has four bits and cannot exceed 15. -/
def execInjCtlWrite (m : Master) (cab : Cab) (v : W32) (s : State) : Host.Outcome State Fault Refusal :=
  .next (s.row m (.injCtlWrite m cab v) (fun s => s.gateAt (bankMaster m cab) m cab (R.BNK_INJ_CTL cab) (fun s =>
    if 17 < v.toNat / 65536 % 32 then s else s.setReg (R.BNK_INJ_CTL cab) (v &&& 0x3FFFFFFF))))

/-- Corrections of this fc that a clear of the buckets makes the first: they exceed no threshold (R198, R218). -/
def State.bktAgain (s : State) (cab bank : Nat) : State :=
  let mine (e : ErrRec) : Bool := decide (e.kind = 0x02) && decide (e.cab = some cab) && decide (e.bank = bank)
  if s.detected.any mine && decide (s.f (R.BNK_BKT_LEVEL cab bank) ≤ s.f (R.BNK_BKT_CFG_THRESH cab)) then
    ({ s with detected := s.detected.filter (fun e => !mine e) }).put (bitFld (R.BNK_BKT_OVF cab) bank) 0
  else s

/-- Retirements of the next fc whose counters a clear of this fc brings below the limit again (R187, R218). -/
def State.retAgain (s : State) (cab : Nat) : State :=
  s.rep.retDue.foldl (fun s (e : Nat × Nat × Nat) =>
    if e.1 = cab ∧ s.retNext cab e.2.1 e.2.2 = true ∧ s.f (mcntFld cab e.2.1 e.2.2) < s.f (R.BNK_RET_LIMIT_LIMIT cab) then s.retDrop cab e.2.1 e.2.2 else s) s

/-- BNK_CNT_CLR (R218): events of this fc count after the clear. -/
def execBnkCntClr (m : Master) (cab : Cab) (v : W32) (s : State) : Host.Outcome State Fault Refusal :=
  .next (s.row m (.bnkCntClr m cab v) (fun s => s.gateAt (bankMaster m cab) m cab (R.BNK_CNT_CLR cab) (fun s =>
    let t := s.time.fc
    let s := if vbit v 0 then s.clearOn (R.BNK_STAT_UE cab) t else s
    let s := if vbit v 1 then ((List.range 576).foldl (fun s i => s.clearOn (mcntFld cab (i / 18) (i % 18)) t) s).retAgain cab else s
    let s := if vbit v 2 then s.clearOn (R.BNK_STAT_VB cab) t else s
    let s := if vbit v 3 then s.clearOn (R.BNK_CE_TOTAL_COUNT cab) t else s
    if vbit v 4 then (List.range 32).foldl (fun s b => (s.clearOn (R.BNK_BKT_LEVEL cab b) t).bktAgain cab b) s else s)))

/-! Sweeps -/

/-- The slots of a range of word indices: for each bank its rows of the range, 128 at a time (R193). -/
def sweepSlots (base limit : Nat) : List (Nat × Nat × Nat) :=
  (List.range 32).flatMap (fun b =>
    let lo := (base + 31 - b) / 32
    let hi := (limit + 32 - b) / 32
    (List.range ((hi - lo + 127) / 128)).map (fun i => (b, lo + 128 * i, min 128 (hi - lo - 128 * i))))

/-- A range starts: two slots of every bank are presented, the others follow as slots finish. They are presented on this fc,
for a range that GO starts on the next. -/
def State.sweepStart (s : State) (cab : Nat) (r : SwpRange) : State :=
  let s := s.setSwp cab { (s.swp cab) with run := some { r with todo := sweepSlots r.base r.limit, busy := 0 } }
  let s := (List.range 64).foldl (fun s i => s.sweepNext cab (i % 32)) s
  if r.org = .reg ∨ s.time.fc = 0 then s
  else
    (List.range 16).foldl (fun s j =>
      let p := s.pairSt cab j
      let now (x : PReq) : PReq := if x.acc.org = .swp cab ∧ x.since = s.time.fc then { x with since := s.time.fc - 1 } else x
      (s.setPairSt cab j { p with queue := p.queue.map now }).later .unfz 0 (.pairArbitration (Fin.ofNat 128 cab) (Fin.ofNat 16 j))) s

/-- Does a range of this origin still wait or run somewhere? -/
def State.sweepLeft (s : State) (o : SwpOrg) : Bool :=
  s.rep.swpWait.any (fun e => decide (e.2.org = o)) ||
    s.rep.swp.any (fun e => e.2.queue.any (fun r => decide (r.org = o)) || e.2.run.any (fun r => decide (r.org = o)))

/-- A range of this origin is complete: SWP_CTL, the descriptor or the window that waits for its last part; `n` is 0 where the range
completed on the fc before, 1 where it counts as complete on this fc. -/
def State.sweepOver (s : State) (cab : Nat) (o : SwpOrg) (n : Nat) : State :=
  match o with
  | .reg => s.puts [(R.BNK_SWP_CTL_GO cab, 0), (R.BNK_SWP_CTL_DONE cab, 1)]
  | .desc c r => if s.sweepLeft o then s else s.later .wall n (.descriptorComplete (Fin.ofNat 128 c) (Fin.ofNat 4 r))
  | .window w => if s.sweepLeft o then s else s.later .wall n (.windowSweepDone (Fin.ofNat 64 w))
  | .wake => s.later .wall 0 (.wakePowerDone (Fin.ofNat 128 cab))

/-- A wake from Hold for a sweep part: 30 units of leave (R484). -/
def State.wakeHold (s : State) (cab : Nat) : State :=
  if s.bit (cabBusy cab) then s
  else ((s.put (cabBusy cab) 1).put (cabLeaveWait cab) 1).leaveAsk (.wake cab) 30

/-- A range reaches the engine of its cabinet (R194, R397, R484): done at once in Quench or in a fenced cabinet, waking a
cabinet in Hold, waiting at its origin when the engine's queue is full. -/
def State.sweepAdd (s : State) (cab : Nat) (r : SwpRange) : State :=
  if s.fenced cab ∨ s.pow cab = 3 then s.sweepOver cab r.org 1
  else
    let s := if s.pow cab = 2 then s.wakeHold cab else if s.pow cab = 1 then s.wakeDoze cab 1 else s
    match (s.swp cab).run with
    | none => s.sweepStart cab r
    | some _ =>
      if (s.swp cab).queue.length < 4 then s.setSwp cab { (s.swp cab) with queue := (s.swp cab).queue ++ [r] }
      else { s with rep := { s.rep with swpWait := s.rep.swpWait ++ [(cab, r)] } }

/-- SWP_GO (R221). -/
def execSwpGo (m : Master) (cab : Cab) (v : W32) (s : State) : Host.Outcome State Fault Refusal :=
  .next (s.row m (.swpGo m cab v) (fun s => s.gateAt (bankMaster m cab) m cab (R.BNK_SWP_CTL cab) (fun s =>
    let s := if vbit v 1 then s.put (R.BNK_SWP_CTL_DONE cab) 0 else s
    let s := if vbit v 2 then s.put (R.BNK_SWP_CTL_REJ cab) 0 else s
    let b := s.f (R.BNK_SWP_BASE_BASE cab)
    let l := s.f (R.BNK_SWP_LIMIT_LIMIT cab)
    if !vbit v 0 then s
    else if s.bit (R.BNK_SWP_CTL_GO cab) || decide (l < b) || decide (4 ≤ (s.swp cab).queue.length) then s.put (R.BNK_SWP_CTL_REJ cab) 1
    else (s.put (R.BNK_SWP_CTL_GO cab) 1).sweepAdd cab { base := b, limit := l, org := .reg, todo := [], busy := 0 })))

/-- SWEEP_RANGE_DONE (R194): the range whose last slot is done completes and the next pending range starts. -/
def execSweepRangeDone (cab : Cab) (s : State) : Host.Outcome State Fault Refusal :=
  .next (match (s.swp cab).run with
  | none => s
  | some r =>
    if !r.todo.isEmpty || r.busy != 0 then s
    else
      let s := (s.setSwp cab { (s.swp cab) with run := none }).sweepOver cab r.org 0
      let s := match (s.swp cab).queue with
        | [] => s
        | q :: rest => (s.setSwp cab { run := none, queue := rest }).sweepStart cab q
      match s.rep.swpWait.find? (fun e => decide (e.1 = cab.val)) with
      | none => s
      | some e => ({ s with rep := { s.rep with swpWait := s.rep.swpWait.filter (fun x => !decide (x = e)) } }).sweepAdd cab e.2)

/-! Error logs -/

/-- The six registers of the first and of the next record of a log (R227). -/
def firstRegs (k : Nat) : List Nat := [R.ERR_FIRST_A k, R.ERR_FIRST_B k, R.ERR_FIRST_ADDR k, R.ERR_FIRST_DATA k, R.ERR_FIRST_TIME_LO k, R.ERR_FIRST_TIME_HI k]
/-- The registers of the next record. -/
def nextRegs (k : Nat) : List Nat := [R.ERR_NEXT_A k, R.ERR_NEXT_B k, R.ERR_NEXT_ADDR k, R.ERR_NEXT_DATA k, R.ERR_NEXT_TIME_LO k, R.ERR_NEXT_TIME_HI k]

/-- The six words of a record with its sequence number (R205, R227). -/
def recWords (e : ErrRec) (seq : Nat) : List W32 :=
  let cab := e.cab.getD 127 % 128
  let ctx := match e.ctx with
    | some c => c % 16 * 65536 + 2 ^ 20
    | none => 0
  [BitVec.ofNat 32 (e.kind % 256 + e.req % 32 * 256 + cab * 2 ^ 13 + e.bank % 32 * 2 ^ 20 + e.sym % 32 * 2 ^ 25),
   BitVec.ofNat 32 (seq % 65536 + ctx + (if e.cab.isNone then 2 ^ 21 else 0)),
   BitVec.ofNat 32 e.addr, BitVec.ofNat 32 e.data, BitVec.ofNat 32 e.time, BitVec.ofNat 32 (e.time / 2 ^ 32)]

/-- Write registers from a list of words. -/
def State.setRegs (s : State) (ks : List Nat) (vs : List W32) : State := (ks.zip vs).foldl (fun s p => s.setReg p.1 p.2) s

/-- Enter one error in its log: FIRST, NEXT, or the overflow count (R207). -/
def State.enter (s : State) (e : ErrRec) : State :=
  let k := logOf e.kind
  let seq := s.f (R.ERR_LOG_STAT_SEQ k)
  let s := s.put (R.ERR_LOG_STAT_SEQ k) (seq + 1)
  if s.bit (R.ERR_LOG_STAT_FIRST_V k) = false then (s.setRegs (firstRegs k) (recWords e seq)).put (R.ERR_LOG_STAT_FIRST_V k) 1
  else if s.bit (R.ERR_LOG_STAT_NEXT_V k) = false then (s.setRegs (nextRegs k) (recWords e seq)).put (R.ERR_LOG_STAT_NEXT_V k) 1
  else s.inc (R.ERR_LOG_OVF_COUNT k)

/-- Source order of two errors of one fc: cabinet, die-global sources last, then bank, then requester (R208). -/
def errBefore (a b : ErrRec) : Bool :=
  let key (e : ErrRec) : Nat := (e.cab.getD 128 * 32 + e.bank) * 32 + e.req
  key a ≤ key b

/-- Insert in source order after equal ones. -/
def errInsert (e : ErrRec) : List ErrRec → List ErrRec
  | [] => [e]
  | x :: l => if errBefore x e then x :: errInsert e l else e :: x :: l

/-- At the end of an fc its errors are entered in source order (R208). -/
def State.enterAll (s : State) : State :=
  (s.detected.foldl (fun l e => errInsert e l) []).foldl (fun s e => s.enter e) { s with detected := [] }

/-- A write of LOGk_CTL, field by field (R209, R210): ACK moves the next record up, CLR_ALL empties both and the overflow count,
from the owner and DBG only; INT_EN from any master; OWNER from SEC. -/
def State.logCtl (s : State) (m : Master) (k : Nat) (v : W32) : State :=
  let owner : Master := if s.f (R.ERR_LOG_CTL_OWNER k) = 0 then .sec else .hrp
  let ok := m == owner || m == .dbg
  let s := if (vbit v 0 || vbit v 1) && !ok then s.locked (masterReq m) (s.ca (R.ERR_LOG_CTL k)) else s
  let s := s.putb (R.ERR_LOG_CTL_INT_EN k) (vbit v 2)
  let s := if m == .sec then s.putb (R.ERR_LOG_CTL_OWNER k) (vbit v 3) else s
  let zero : List W32 := List.replicate 6 0
  let s := if vbit v 0 && ok then
      if s.bit (R.ERR_LOG_STAT_NEXT_V k) then
        ((s.setRegs (firstRegs k) ((nextRegs k).map s.reg)).setRegs (nextRegs k) zero).put (R.ERR_LOG_STAT_NEXT_V k) 0
      else (s.setRegs (firstRegs k) zero).put (R.ERR_LOG_STAT_FIRST_V k) 0
    else s
  if vbit v 1 && ok then
    ((s.setRegs (firstRegs k) zero).setRegs (nextRegs k) zero).puts [(R.ERR_LOG_STAT_FIRST_V k, 0), (R.ERR_LOG_STAT_NEXT_V k, 0), (R.ERR_LOG_OVF_COUNT k, 0)]
  else s

/-- LOG_ACK (R209, R210). -/
def execLogAck (m : Master) (k : Fin 4) (v : W32) (s : State) : Host.Outcome State Fault Refusal := .next (s.row m (.logAck m k v) (fun s => s.logCtl m k (v ||| 1)))

/-- LOG_CLR_ALL (R209, R210). -/
def execLogClrAll (m : Master) (k : Fin 4) (v : W32) (s : State) : Host.Outcome State Fault Refusal := .next (s.row m (.logClrAll m k v) (fun s => s.logCtl m k (v ||| 2)))

/-! Assay passes -/

/-- The plain fields of a write of ASY.CTL (R253). -/
def State.asyFields (s : State) (cab : Nat) (v : W32) : State :=
  let s := if vbit v 1 then s.put (R.ASY_CTL_DONE cab) 0 else s
  let s := if vbit v 2 then s.put (R.ASY_CTL_REJ cab) 0 else s
  s.puts [(R.ASY_CTL_REPAIR cab, v.toNat / 16 % 2), (R.ASY_CTL_REMAP_EN cab, v.toNat / 32 % 2), (R.ASY_CTL_GAP cab, v.toNat / 256 % 256)]

/-- A GO of ASY.CTL (R229, R230): leave is requested for the pass; the summary of the last one is cleared. -/
def State.asyGo (s : State) (cab : Nat) : State :=
  if s.bit (R.ASY_CTL_GO cab) || decide (s.f (R.ASY_LIMIT_LIMIT cab) < s.f (R.ASY_BASE_BASE cab)) then s.put (R.ASY_CTL_REJ cab) 1
  else
    let s := [R.ASY_SUM_WORDS cab, R.ASY_SUM_INVALID cab, R.ASY_SUM_CE cab, R.ASY_SUM_UE cab, R.ASY_SUM_UE_ADDR cab, R.ASY_SUM_REMAP cab, R.ASY_SUM_DUR cab].foldl (fun s k => s.setReg k 0) s
    let s := s.puts [(R.ASY_CTL_GO cab, 1), (R.ASY_CTL_END cab, 0)]
    (s.setAsy cab (some { started := false, next := s.f (R.ASY_BASE_BASE cab), t0 := 0, nextAt := 0, out := [], repOut := [], aborted := false })).leaveAsk (.assay cab) 10

/-- The grant of a pass's leave is fc 0 of the pass (R230, R231). -/
def State.asyStart (s : State) (cab : Nat) : State :=
  match s.asyPass cab with
  | none => s
  | some p => (({ s with rep := { s.rep with asyAt := SMap.insert s.rep.asyAt cab (s.time.now, 0) } }).setAsy cab (some { p with started := true, t0 := s.time.ufc, nextAt := s.time.ufc + 1 })).later .unfz 1 (.assayBurst (Fin.ofNat 128 cab))

/-- An abort of the pass (R234): no further presentation. One that still waits for its leave ends at once. -/
def State.asyAbort (s : State) (cab : Nat) : State :=
  match s.asyPass cab with
  | none => s
  | some p =>
    if p.started then (s.setAsy cab (some { p with aborted := true })).asyCheck cab 1
    else (s.leaveDrop (.assay cab)).setAsy cab (some { p with started := true, t0 := s.time.ufc, aborted := true }) |>.asyCheck cab 1

/-- A write of ASY.CTL (R229, R253): GO first, then ABORT, where one write has both (DESIGN CHOICE, log entry 104). -/
def State.asyCtl (s : State) (m : Master) (cab : Nat) (v : W32) : State :=
  s.gateAt (bankMaster m cab) m cab (R.ASY_CTL cab) (fun s =>
    let s := s.asyFields cab v
    let s := if vbit v 0 then s.asyGo cab else s
    if vbit v 3 then s.asyAbort cab else s)

/-- ASSAY_GO (R229, R230). -/
def execAssayGo (m : Master) (cab : Cab) (v : W32) (s : State) : Host.Outcome State Fault Refusal := .next (s.row m (.assayGo m cab v) (fun s => s.asyCtl m cab (v ||| 1)))

/-- ASSAY_ABORT (R234). -/
def execAssayAbort (m : Master) (cab : Cab) (v : W32) (s : State) : Host.Outcome State Fault Refusal := .next (s.row m (.assayAbort m cab v) (fun s => s.asyCtl m cab (v ||| 8)))

/-- Present the pass's next read (R231): two words on an even index, one otherwise; one outstanding per pair. -/
def State.asyPresent (s : State) (cab : Nat) (p : AsyPass) : State :=
  let i := p.next
  let two := decide (i % 2 = 0) && decide (i + 1 ≤ s.f (R.ASY_LIMIT_LIMIT cab))
  let fa := s.faOf cab i
  let be := (if i % 2 = 0 then 2 ^ 32 - 1 else 0) + (if i % 2 = 1 || two then (2 ^ 32 - 1) * 2 ^ 32 else 0)
  let q : LReq := { id := s.loose.nextId, req := 6, home := cab, homeDie := s.die, org := .asy cab i, cls := .free, ctx := none, fa := fa / 64 * 64, we := false, be := be, dat := [], op := .acc }
  let at' := s.time.ufc + 1 + s.f (R.ASY_CTL_GAP cab)
  let p := { p with next := i + (if two then 2 else 1), nextAt := at', out := p.out ++ [(i % 32 / 2, i)] }
  ((s.setAsy cab (some p)).fresh.enqueueNow cab q).at' .unfz at' (.assayBurst (Fin.ofNat 128 cab))

/-- ASSAY_BURST (R231, R233): the next read is presented when its GAP has passed and its pair has no read and no repair outstanding, on an fc that no
repair burst takes. LIMIT and GAP are read as they stand: the manual does not say what a write during a pass does (DESIGN CHOICE, log entry 103). -/
def execAssayBurst (cab : Cab) (s : State) : Host.Outcome State Fault Refusal :=
  let mine (e : LReq × Ans × Nat) : Option Nat := match e.1.org with
    | .asy c w => if c = cab.val then some w else none
    | _ => none
  let s := { s with loose := { s.loose with acked := s.loose.acked.filter (fun e => (mine e).isNone) } }
  match s.asyPass cab with
  | none => .next s
  | some p =>
    let j := p.next % 32 / 2
    if !p.started || p.aborted || decide (s.f (R.ASY_LIMIT_LIMIT cab) < p.next) then .next (s.asyCheck cab 1)
    else if s.frozen || decide (s.time.ufc < p.nextAt) || decide (s.time.ufc = p.taken) || p.out.any (fun o => decide (o.1 = j)) || p.repOut.any (fun o => decide (o.1 / 2 = j)) then .next (s.arm .unfz 1 (.assayBurst cab))
    else .next (s.asyPresent cab p)

/-- The bank operations of a repair burst (R233), at place `u` of the order of fc. -/
def State.repair (s : State) (cab bank row u : Nat) : State :=
  let fa := s.faOf cab (row * 32 + bank)
  match s.peek cab bank row u with
  | .good w (some _) _ =>
    let s := ((s.readWord cab bank row u 6 none fa).1).storeWord cab bank row w
    match s.peek cab bank row u with
    | .good w2 (some _) sp =>
      let s := (s.readWord cab bank row u 6 none fa).1
      match s.freeSpare cab bank with
      | some i =>
        if s.bit (R.ASY_CTL_REMAP_EN cab) && !sp then
          let r := s.inject cab bank (encodeWord w2)
          ((r.1.setSyms (spareCell cab bank i) r.2).setEntry cab bank i row 3 false).inc (R.ASY_SUM_REMAP_MADE cab)
        else s.inc (R.ASY_SUM_REMAP_REJ cab)
      | none => s.inc (R.ASY_SUM_REMAP_REJ cab)
    | .good _ none _ | .clear | .bad _ _ => (s.readWord cab bank row u 6 none fa).1
  | .good _ none _ | .clear | .bad _ _ => (s.readWord cab bank row u 6 none fa).1

/-- ASSAY_REPAIR (R233): the repair bursts of the cabinet that have ended take effect. -/
def execAssayRepair (cab : Cab) (s : State) : Host.Outcome State Fault Refusal :=
  let step (s : State) (pair : Nat) : State :=
    ((s.pairSt cab pair).bursts.filter (fun b => s.burstOver b)).foldl (fun s b =>
      match b.req.acc.op with
      | .repair bank row =>
        let s := (s.endBurst cab pair b).repair cab bank row b.u
        match s.asyPass cab with
        | some p => (s.setAsy cab (some { p with repOut := p.repOut.filter (fun x => !decide (x = (bank, row))) })).asyCheck cab 0
        | none => s
      | _ => s) s
  .next ((List.range 16).foldl step s)

/-- Note the fabric time of DONE (R236). -/
def State.asyEnd (s : State) (cab : Nat) : State :=
  { s with rep := { s.rep with asyAt := SMap.insert s.rep.asyAt cab ((SMap.get (0, 0) s.rep.asyAt cab).1, s.time.now) } }

/-- ASSAY_DONE (R234, R235): DONE and END are set, GO falls, the leave is returned. -/
def execAssayDone (cab : Cab) (s : State) : Host.Outcome State Fault Refusal :=
  .next (match s.asyPass cab with
  | none => s
  | some p =>
    if p.started && p.out.isEmpty && p.repOut.isEmpty && (p.aborted || decide (s.f (R.ASY_LIMIT_LIMIT cab) < p.next)) then
      ((s.setAsy cab none).puts [(R.ASY_CTL_GO cab, 0), (R.ASY_CTL_DONE cab, 1), (R.ASY_CTL_END cab, if p.aborted then 2 else 1),
        (R.ASY_SUM_DUR_FC cab, min (s.time.ufc - p.t0) (2 ^ 32 - 1))] |>.asyEnd cab).leaveBack (.assay cab)
    else s)

/-! Remap -/

/-- REMAP_ADD (R239, R241, R255): the row and bank are written, unless a move is pending; GO queues the move or is refused, with the lowest cause that
holds. The gate covers writes without GO too, and SRC is 2 but for SEC before BOOT_LOCK (DESIGN CHOICE, log entry 105). A queued move waits while its
cabinet is in Doze and does not wake it (DESIGN CHOICE, log entry 106). -/
def execRemapAdd (m : Master) (cab : Cab) (v : W32) (s : State) : Host.Outcome State Fault Refusal :=
  .next (s.row m (.remapAdd m cab v) (fun s => s.gateAt (bankMaster m cab) m cab (R.RMP_ADD cab) (fun s =>
    let row := v.toNat % 4096
    let bank := v.toNat / 4096 % 32
    let busy := s.bit (R.RMP_ADD_GO cab)
    let refuse (s : State) (k : Nat) : State := s.puts [(R.RMP_ADD_STAT_REJ cab, 1), (R.RMP_ADD_STAT_REJ_CAUSE cab, k)]
    let w := if busy then s else s.puts [(R.RMP_ADD_ROW cab, row), (R.RMP_ADD_BANK cab, bank)]
    if !vbit v 31 then w
    else if (s.freeSpare cab bank).isNone then refuse w 1
    else if (s.remapOf cab bank row).isSome then refuse w 2
    else if busy then refuse w 3
    else
      let src := if m == .sec && !s.bit R.HLM_BOOT_CTL_BOOT_LOCK then 0 else 2
      let q : LReq := { id := s.loose.nextId, req := 8, home := cab, homeDie := s.die, org := .rmp cab, cls := .free, ctx := none, fa := 0, we := false, be := src, dat := [], op := .move bank row }
      (w.put (R.RMP_ADD_GO cab) 1).fresh.enqueue cab q)))

/-- REMAP_MOVE (R239): the move whose burst has ended writes the lowest free spare and its entry becomes VALID. One that an assay repair has
forestalled ends with REJ (DESIGN CHOICE, log entry 107). -/
def execRemapMove (cab : Cab) (s : State) : Host.Outcome State Fault Refusal :=
  let step (s : State) (pair : Nat) : State :=
    ((s.pairSt cab pair).bursts.filter (fun b => s.burstOver b)).foldl (fun s b =>
      match b.req.acc.op with
      | .move bank row =>
        let s := (s.endBurst cab pair b).put (R.RMP_ADD_GO cab) 0
        if (s.remapOf cab bank row).isSome then s.puts [(R.RMP_ADD_STAT_REJ cab, 1), (R.RMP_ADD_STAT_REJ_CAUSE cab, 2)]
        else
          match s.moveRow cab bank row b.u b.req.acc.be 8 with
          | (s, none) => s.puts [(R.RMP_ADD_STAT_REJ cab, 1), (R.RMP_ADD_STAT_REJ_CAUSE cab, 1)]
          | (s, some bad) => s.puts [(R.RMP_ADD_STAT_DONE cab, 1), (R.RMP_ADD_STAT_POISONED cab, if bad then 1 else 0)]
      | _ => s) s
  .next ((List.range 16).foldl step s)

end Sys2Proof.Machine
end

