-- ==== Sys2Proof/Machine/Sync.lean ====
section
/-! DEFINITION. Sync counters: signals, drain sets, waiters, shadows, binding, counters set by hand and the state dump
(chapter "Sync counters"). A counter is named inside the model by the key of its CFG register; its value stands in the two
registers behind it. -/
namespace Sys2Proof.Machine

/-! Names -/

/-- Counter select of a counter name (R260, R262). -/
def cnSel (cn : Nat) : Nat := cn % 512
/-- Logical cabinet of a counter name. -/
def cnCab (cn : Nat) : Nat := cn / 512 % 128
/-- Die of a counter name. -/
def cnDie (cn : Nat) : Nat := cn / 65536 % 8

/-- The counter that a select names from physical cabinet `p`; none for an index out of range (R261). The global window is
one for the die (R309). -/
def ctrKey (p sel : Nat) : Option Nat :=
  if 256 ≤ sel then some (R.SYN_G_CFG 0 (sel - 256)) else if sel < 64 then some (R.SYN_CTR_CFG p sel) else none

/-- The counter of an operand. -/
def selKey : CtrSel → Nat
  | .cab c n => R.SYN_CTR_CFG c n
  | .glob _ g => R.SYN_G_CFG 0 g

/-- The cabinet through whose station a counter's CFG register is written. -/
def selCab : CtrSel → Nat
  | .cab c _ => c
  | .glob c _ => c

/-- The register that is written there: one of the global window is named through the window's cabinet. -/
def selVia : CtrSel → Nat
  | .cab c n => R.SYN_CTR_CFG c n
  | .glob c g => R.SYN_G_CFG c g

/-- Fields of a CFG register (R308). -/
def cfgCtx (k : Nat) : Fld := { key := k, hi := 3, lo := 0 }
/-- BOUND. -/
def cfgBound (k : Nat) : Fld := bitFld k 4
/-- WAKE_EN. -/
def cfgWake (k : Nat) : Fld := bitFld k 5
/-- EDGE_EN. -/
def cfgEdge (k : Nat) : Fld := bitFld k 6
/-- QUIET. -/
def cfgQuiet (k : Nat) : Fld := bitFld k 7

/-- Value of a counter (R263). -/
def State.ctrVal (s : State) (k : Nat) : Nat := s.pair (k + 4) (k + 8)

/-- Write a counter's value, modulo 2^48. -/
def State.setCtr (s : State) (k v : Nat) : State := s.setPair (k + 4) (k + 8) (v % 2 ^ 48)

/-- Shadow of a die-global counter in a cabinet (R292). -/
def State.shadow (s : State) (cab g : Nat) : Nat := SMap.get 0 s.syn.shadows (cab * 256 + g)

/-- Every shadow of a die-global counter takes a value on this fc; updates on their way are overtaken (R292). -/
def State.setShadows (s : State) (g v : Nat) : State :=
  { s with syn := { s.syn with shadows := s.cabs.foldl (fun m p => SMap.set 0 m (p * 256 + g) v) s.syn.shadows } }

/-- Is a die-global counter named by this key, and which? -/
def globOf (k : Nat) : Option Nat :=
  if R.SYN_G_CFG 0 0 ≤ k ∧ k < R.SYN_G_CFG 0 256 then some ((k - R.SYN_G_CFG 0 0) / 16) else none

/-- The test of R265. -/
def satisfied (v e : Nat) : Bool := (v + 2 ^ 48 - e % 2 ^ 48) % 2 ^ 48 < 2 ^ 47

/-! Waiters -/

/-- Value that a waiter of a cabinet compares against (R284). -/
def State.seen (s : State) (cab sel : Nat) : Nat := if 256 ≤ sel then s.shadow cab (sel - 256) else s.ctrVal (R.SYN_CTR_CFG cab sel)

/-- Expected value of a waiter. -/
def State.wtrExp (s : State) (cab w : Nat) : Nat := s.pair (R.SYN_WTR_EXP_LO cab w) (R.SYN_WTR_EXP_HI cab w)

/-- Is the waiter registered, not fired, and satisfied now? -/
def State.wtrReady (s : State) (cab w : Nat) : Bool :=
  s.bit (R.SYN_WTR_A_REG cab w) && !s.bit (R.SYN_WTR_A_FIRED cab w) && satisfied (s.seen cab (s.f (R.SYN_WTR_A_CTR cab w))) (s.wtrExp cab w)

/-- Registered waiters of the die that name a counter: of one cabinet, or of all for a die-global one. -/
def State.waitersOf (s : State) (k : Nat) : List (Nat × Nat) :=
  let cabs := match globOf k with
    | some _ => s.cabs
    | none => [k / 2 ^ 22]
  cabs.flatMap (fun p => ((List.range 16).filter (fun w => s.bit (R.SYN_WTR_A_REG p w) && decide (ctrKey p (s.f (R.SYN_WTR_A_CTR p w)) = some k))).map (fun w => (p, w)))

/-- A value that satisfies a waiter: it fires on the next fc, a Doze cabinet is asked for Run, a drain is aborted (R283, R287,
R479). -/
def State.wakeIfReady (s : State) (cab w : Nat) : State :=
  if s.wtrReady cab w then ((s.entryAbort cab 4).wakeDoze cab 2).arm .unfz 1 (.waiterFire (Fin.ofNat 128 cab) (Fin.ofNat 16 w)) else s

/-- Compare every waiter of a counter with what it sees now. -/
def State.compareAll (s : State) (k : Nat) : State := (s.waitersOf k).foldl (fun s e => s.wakeIfReady e.1 e.2) s

/-- Lower a wake wire. -/
def State.lowerWire (s : State) (cab w : Nat) : State := { s with syn := { s.syn with wires := s.syn.wires.filter (fun e => decide (e.1 ≠ cab * 16 + w)) } }

/-- A waiter goes empty: no registration, no wire. -/
def State.cancelWtr (s : State) (cab w : Nat) : State :=
  ((s.lowerWire cab w).puts [(R.SYN_WTR_A_REG cab w, 0), (R.SYN_WTR_A_FIRED cab w, 0), (R.SYN_WTR_A_PENDING cab w, 0)]).disarm (.waiterFire (Fin.ofNat 128 cab) (Fin.ofNat 16 w))

/-- A registration (R283): it replaces the waiter's last one, lowers its wire and is compared on the next fc. -/
def State.registerWtr (s : State) (cab w sel e ctx : Nat) : State :=
  let s := s.cancelWtr cab w
  let s := s.puts [(R.SYN_WTR_A_CTR cab w, sel), (R.SYN_WTR_A_REG cab w, 1), (R.SYN_WTR_A_CTX cab w, ctx)]
  (s.setPair (R.SYN_WTR_EXP_LO cab w) (R.SYN_WTR_EXP_HI cab w) e).arm .unfz 1 (.waiterFire (Fin.ofNat 128 cab) (Fin.ofNat 16 w))

/-- Is a wake wire high on this fc? -/
def State.wireHigh (s : State) (cab w : Nat) : Bool := s.syn.wires.any (fun e => decide (e.1 = cab * 16 + w) && decide (e.2 ≤ s.time.fc))

/-- Does FIRED of a waiter read 1: has it fired, and is its wake wire high? (R307) -/
def State.firedNow (s : State) (cab w : Nat) : Bool := s.bit (R.SYN_WTR_A_FIRED cab w) && s.wireHigh cab w

/-- Fire a waiter: its wire rises on the next fc; a runner's waiter lets its runner go on (R282, R283). -/
def State.fire (s : State) (cab w : Nat) : State :=
  let s := s.puts [(R.SYN_WTR_A_FIRED cab w, 1), (R.SYN_WTR_A_PENDING cab w, 0)]
  let s := { s with syn := { s.syn with wires := s.syn.wires ++ [(cab * 16 + w, s.time.fc + 1)] } }
  if 12 ≤ w then s.later .unfz 1 (.descriptorComplete (Fin.ofNat 128 cab) (Fin.ofNat 4 (w - 12))) else s

/-- WAITER_FIRE (R283, R285, R287, R297): a satisfied waiter fires, is marked pending while WAKE_EN is 0, or waits for its
cabinet to be in Run; a comparison after a set by hand also acts on a frozen fc. -/
def execWaiterFire (cab : Cab) (k : Fin 16) (s : State) : Host.Outcome State Fault Refusal :=
  let hand := s.syn.byHand.any (fun e => decide (e.1 = cab.val * 16 + k.val) && decide (e.2 ≤ s.time.fc))
  let again := s.arm .unfz (if s.frozen then 0 else 1) (.waiterFire cab k)
  let s := { s with syn := { s.syn with byHand := s.syn.byHand.filter (fun e => !(decide (e.1 = cab.val * 16 + k.val) && decide (e.2 ≤ s.time.fc))) } }
  let pend := s.bit (R.SYN_WTR_A_PENDING cab k)
  .next (if !(s.wtrReady cab k || (pend && s.bit (R.SYN_WTR_A_REG cab k))) then s
    else if s.frozen && !hand then again
    else
      match ctrKey cab (s.f (R.SYN_WTR_A_CTR cab k)) with
      | none => s
      | some key =>
        if !s.bit (cfgWake key) then s.put (R.SYN_WTR_A_PENDING cab k) 1
        else if s.pow cab = 1 then again.wakeDoze cab 2
        else if 2 ≤ s.pow cab then s
        else s.fire cab k)

/-! Refusals -/

/-- Requester code of a signal's source (R294). -/
def sigReq : SigSrc → Nat
  | .engine _ => 15
  | .runner _ r => 2 + r
  | .fifo _ _ => 14
  | .reg _ req => req
  | .edge _ => 9

/-- Issuing cabinet of a source. -/
def sigCab : SigSrc → Option Nat
  | .engine c => some c
  | .runner c _ => some c
  | .fifo c _ => some c
  | .reg c _ => some c
  | .edge _ => none

/-- Is the signal of the set class? (R270) -/
def sigSet (g : Sig) : Bool :=
  match g.src with
  | .engine _ => true
  | .runner _ _ | .fifo _ _ | .reg _ _ | .edge _ => false

/-- A record for a signal or wait (R294). -/
def State.synErr (s : State) (kind req : Nat) (cab ctx : Option Nat) (cn cause : Nat) : State :=
  s.err { kind := kind, req := req, cab := cab, ctx := ctx, addr := cn % 2 ^ 19, data := 0x20000 + cause }

/-- Change the running list of a runner. -/
def State.onList (s : State) (cab r : Nat) (f : RunList → RunList) : State :=
  let x := s.runner cab r
  s.setRunner cab r { x with run := x.run.map f }

/-- What a refused signal reports to its origin (R293, R330, R371). -/
def State.sigReport (s : State) (g : Sig) : State :=
  if g.die ≠ s.die then s
  else
    match g.src with
    | .engine c => s.put (R.SYN_ERRFLAG_REFUSED c) 1
    | .runner c r => (s.onList c r (fun l => { l with rec' := { l.rec' with sigref := true } })).put (R.SYN_ERRFLAG_REFUSED c) 1
    | .fifo c f => (s.put (bitFld (R.HFF_ERRFLAG c) f) 1).put (R.SYN_ERRFLAG_REFUSED c) 1
    | .reg c _ => s.put (R.SYN_ERRFLAG_REFUSED c) 1
    | .edge _ => s

/-- The outcome of a gateway's signal, for the answer to its INC (R554). -/
def State.edgeOutcome (s : State) (g : Sig) (status : Nat) : State :=
  match g.src with
  | .edge _ => if g.die = s.die then { s with syn := { s.syn with edgeDone := s.syn.edgeDone ++ [(g.id, status)] } } else s
  | .engine _ | .runner _ _ | .fifo _ _ | .reg _ _ => s

/-- A signal is refused (R293): record, report, and for an engine signal a context fault. `cab` is where it was detected. -/
def State.sigRefuse (s : State) (g : Sig) (kind cause : Nat) (cab : Option Nat) : State :=
  let s := ((s.synErr kind (sigReq g.src) cab g.ctx g.cn cause).sigReport g).edgeOutcome g (if cause = 3 then 3 else 2)
  if sigSet g then s.ctxFault? g.ctx else s

/-! Travel -/

/-- A signal goes: it is no longer anywhere. -/
def State.dropSig (s : State) (id : Nat) : State := { s with syn := { s.syn with signals := s.syn.signals.filter (fun g => decide (g.id ≠ id)) } }

/-- Discard the signals for which `f` holds, with no record (R295). -/
def State.dropSigs (s : State) (f : Sig → Bool) : State := { s with syn := { s.syn with signals := s.syn.signals.filter (fun g => !f g) } }

/-- Replace a signal in its place in the order of issue. -/
def State.setSig (s : State) (g : Sig) : State := { s with syn := { s.syn with signals := s.syn.signals.map (fun x => if x.id = g.id then g else x) } }

/-- Units of capacity already used on this fc (R288). -/
def State.capUsed (s : State) (unit : Nat) : Nat :=
  ((s.syn.used.find? (fun e => decide (e.1 = unit) && decide (e.2.1 = s.time.ufc))).map (fun e => e.2.2)).getD 0

/-- Use one. -/
def State.useCap (s : State) (unit : Nat) : State :=
  { s with syn := { s.syn with used := s.syn.used.filter (fun e => decide (e.2.1 = s.time.ufc) && decide (e.1 ≠ unit)) ++ [(unit, s.time.ufc, s.capUsed unit + 1)] } }

/-- The check of a signal on its issuing die (R261): the cause of its refusal. -/
def State.sigCheck (s : State) (ctx : Option Nat) (cn : Nat) : Option Nat :=
  if s.dies ≤ cnDie cn then some 1
  else if cnSel cn < 256 ∧ 63 < cnSel cn then some 4
  else if cnDie cn = s.die ∧ cnSel cn < 256 ∧ s.mapped (s.genFor ctx) (cnCab cn) = none then some 1
  else none

/-- The physical cabinet whose counter a signal names on this die (R261): a write to SYN.SIGNAL names one of its own cabinet (R302). -/
def State.sigAt (s : State) (g : Sig) : Option Nat :=
  match g.src with
  | .reg c _ => if s.fenced c then none else some c
  | .engine _ | .runner _ _ | .fifo _ _ | .edge _ => s.mapped (s.genFor g.ctx) (cnCab g.cn)

/-- The unit of the network that a counter name reaches on this die: 512 for the die-global unit. -/
def State.sigUnit (s : State) (g : Sig) : Nat :=
  if 256 ≤ cnSel g.cn then 512 else 256 + (s.sigAt g).getD 0

/-- A signal goes on its way (R276, R291): on this die a set-class signal takes a fixed time from its cabinet to a unit, of at most 16
unfrozen fc, 8 to the die-global unit, so that with the waits that capacity can make at the compiler's limit of R290 it is applied within 24;
a loose one, which leaves only when its unit has room (R289), reaches it on the next fc, in order with its source's others; toward another die
a signal takes its lane, and its source learns at a moment of its own whether it was applied there or refused (a free value: the manual names
no message that says so; log entry 20). -/
def State.travel (s : State) (g : Sig) : State :=
  if cnDie g.cn = s.die then
    let most := s.syn.signals.foldl (fun m x => if x.src = g.src ∧ x.place = SigPlace.net then max m x.since else m) 0
    let fly := if sigSet g then Config.flight ((sigCab g.src).getD 128) (s.sigUnit g) % (if s.sigUnit g = 512 then 8 else 16) else 0
    let due := max (s.time.ufc + 1 + fly) most
    (s.setSig { g with place := .net, since := due }).at' .unfz due (.signalApply g.id)
  else
    match s.laneTo (cnDie g.cn) ((sigCab g.src).getD 0) with
    | some l =>
      if g.die = s.die ∧ (sigCab g.src).isSome = true then
        let due := s.time.ufc + 1 + s.free % 1024
        ((s.useFree.setSig { g with place := .away, since := due }).send (.signal g) (some l)).at' .unfz due (.signalApply g.id)
      else (s.dropSig g.id).send (.signal g) (some l)
    | none => (s.dropSig g.id).sigRefuse g 0x40 1 (sigCab g.src)

/-- The write that an item of a slot carries, if it carries one. -/
def itemWrite : SlotItem → Option Nat
  | .setFlit f => if f.kind = SKind.wr then some f.id else none
  | .looseFlit f => if f.acc.we && f.ans.isNone then some f.acc.id else none
  | .beginMark _ _ | .endMark _ _ | .replay _ _ _ | .laneDown _ _ | .beacon _ _ | .stretch _ | .startMark _ _ | .signal _ | .side _ _ | .credit _ | .ack _ | .nak _ | .share => none

/-- Does the write stand in a slot that this die has received and not yet delivered? -/
def State.inSlots (s : State) (id : Nat) : Bool := s.brg.lanes.any (fun e => e.2.rx.any (fun r => r.slot.items.any (fun i => decide (itemWrite i = some id))))

/-- Is every write of the signal's drain set drained here? (R275, R277) -/
def State.drainOver (s : State) (g : Sig) : Bool := g.drain.all (fun i => !s.syn.undrained.any (fun u => decide (u.1 = i)) && !s.inSlots i)

/-- The signal of a source that leaves next: its oldest in the cabinet (R276). -/
def State.oldestOf (s : State) (src : SigSrc) : Option Nat :=
  (s.syn.signals.find? (fun x => decide (x.src = src) && (decide (x.place = SigPlace.port) || decide (x.place = SigPlace.held)))).map (fun x => x.id)

/-- May a set-class signal of the cabinet leave, so that it takes the injection before a loose one? (R289) -/
def State.setLeaves (s : State) (cab : Option Nat) : Bool :=
  s.syn.signals.any (fun x => decide (x.place = SigPlace.port) && decide (sigCab x.src = cab) && sigSet x && s.drainOver x && decide (s.oldestOf x.src = some x.id))

/-- Has the unit that a loose signal goes to capacity left for it on the next fc, after the set-class signals that are on their way or about to
leave, and after the loose ones that left before? (R288, R289) -/
def State.unitRoom (s : State) (g : Sig) : Bool :=
  let unit := s.sigUnit g
  let before := s.syn.signals.filter (fun x => decide (cnDie x.cn = s.die) && decide (s.sigUnit x = unit) &&
    ((decide (x.place = SigPlace.net) && decide (x.since ≤ s.time.ufc + 1)) ||
      (decide (x.place = SigPlace.port) && sigSet x && s.drainOver x && decide (s.oldestOf x.src = some x.id))))
  decide (before.length < if unit = 512 then 8 else 4) &&
    (decide (unit ≠ 512) || decide (((before.map (fun x => cnSel x.cn)).filter (fun n => decide (n ≠ cnSel g.cn))).dedup.length < 4))

/-- Is a loose signal to a counter of this die held at its origin on this fc? Its unit is short of capacity, or the network is, which a free
value says: the manual gives the network's inner capacity no number (R289, log entry 20). -/
def State.looseHeld (s : State) (g : Sig) : Bool := !sigSet g && decide (cnDie g.cn = s.die) && (!s.unitRoom g || decide (s.free % 2 = 0))

/-- SIGNAL_LEAVE (R276, R288, R289): a released signal leaves when it is the oldest of its port, its writes are drained and the
cabinet's injection is free, set class first; a loose one is held while capacity is short. -/
def execSignalLeave (id : Nat) (s : State) : Host.Outcome State Fault Refusal :=
  .next (match s.syn.signals.find? (fun g => decide (g.id = id) && decide (g.place = SigPlace.port)) with
  | none => s
  | some g =>
    let again := s.later .unfz 1 (.signalLeave id)
    let unit := match g.src with
      | .edge k => 600 + k
      | .engine _ | .runner _ _ | .fifo _ _ | .reg _ _ => (sigCab g.src).getD 0
    if s.frozen then again
    else if s.oldestOf g.src ≠ some id ∨ s.drainOver g = false ∨ 1 ≤ s.capUsed unit then again
    else if !sigSet g && s.setLeaves (sigCab g.src) then again
    else if s.looseHeld g then again.useFree
    else (s.useFree.useCap unit).travel g)

/-- SIGNAL_BRIDGE_RELEASE (R277): the receiver lets the signal go once every write of its drain set that preceded it has
committed here or entered its next lane, and no earlier signal of its port is held here (R279). -/
def execSignalBridgeRelease (id : Nat) (s : State) : Host.Outcome State Fault Refusal :=
  .next (match s.syn.signals.find? (fun g => decide (g.id = id) && decide (g.place = SigPlace.bridge)) with
  | none => s
  | some g =>
    let first := s.syn.signals.find? (fun x => decide (x.src = g.src) && decide (x.die = g.die) && decide (x.place = SigPlace.bridge))
    if s.frozen || !s.drainOver g || decide (first ≠ some g) || (!sigSet g && decide (cnDie g.cn = s.die) && !s.unitRoom g) then s.later .unfz 1 (.signalBridgeRelease id) else s.travel g)

/-! Application -/

/-- Is the counter bound for this signal? (R270) -/
def State.sigAllowed (s : State) (g : Sig) (k : Nat) : Bool :=
  s.bit (cfgBound k) &&
    (match g.src with
      | .engine _ | .runner _ _ | .fifo _ _ => decide (g.ctx = some (s.f (cfgCtx k)))
      | .reg _ _ => true
      | .edge _ => s.bit (cfgEdge k))

/-- Does the signal name an unbound counter, or one bound to another context? (R306) -/
def State.sigForeign (s : State) (g : Sig) (k : Nat) : Bool :=
  !s.bit (cfgBound k) || (match g.ctx with
    | some c => decide (s.f (cfgCtx k) ≠ c)
    | none => false)

/-- Add an increment to a counter (R264, R292): waiters of a cabinet counter compare at once, shadows follow on the 4th fc. -/
def State.addCtr (s : State) (k inc : Nat) : State :=
  if inc = 0 then s
  else
    let s := s.setCtr k (s.ctrVal k + inc)
    let s := { s with syn := { s.syn with applied := s.syn.applied.filter (fun e => decide (e.2.1 = s.time.ufc)) ++ [(k, s.time.ufc, inc)] } }
    match globOf k with
    | none => s.compareAll k
    | some g =>
      let due := s.time.ufc + 4
      let q := s.syn.shadowQ.filter (fun e => !(decide (e.1 = g) && decide (e.2.1 = due)))
      let s : State := if q.length = s.syn.shadowQ.length then s.later .unfz 4 (.shadowUpdate (Fin.ofNat 256 g)) else s
      { s with syn := { s.syn with shadowQ := q ++ [(g, due, s.ctrVal k)] } }

/-- The signals that wait at a unit before a signal: set-class ones in order of arrival, then the others in theirs (R289). -/
def State.unitBefore (s : State) (g : Sig) (unit : Nat) : List Sig :=
  let before := s.syn.signals.takeWhile (fun x => decide (x.id ≠ g.id))
  s.syn.signals.filter (fun x => decide (x.id ≠ g.id) && decide (x.place = SigPlace.net) && decide (x.since ≤ s.time.ufc) && decide (s.sigUnit x = unit) &&
    ((sigSet x && !sigSet g) || ((sigSet x == sigSet g) && (decide (x.since < g.since) || (decide (x.since = g.since) && before.contains x)))))

/-- May the unit apply this signal on this fc? (R288, R289, R279) Those that wait before it keep their share of the capacity, and of the
four counter updates that the die-global unit broadcasts. -/
def State.unitFree (s : State) (g : Sig) (unit : Nat) : Bool :=
  let due := s.time.ufc + 4
  let older := s.unitBefore g unit
  let sent (sel : Nat) : Bool := s.syn.shadowQ.any (fun e => decide (e.1 + 256 = sel) && decide (e.2.1 = due))
  let more := ((older.map (fun x => cnSel x.cn)).filter (fun n => !sent n)).dedup
  decide (s.capUsed unit + older.length < if unit = 512 then 8 else 4) &&
    !(s.syn.signals.takeWhile (fun x => decide (x.id ≠ g.id))).any (fun x => decide (x.src = g.src) && decide (x.die = g.die) && decide (x.cn = g.cn) && decide (x.place = SigPlace.net)) &&
    (decide (unit ≠ 512) || sent (cnSel g.cn) || decide ((s.syn.shadowQ.filter (fun e => decide (e.2.1 = due))).length + (more.filter (fun n => decide (n ≠ cnSel g.cn))).length < 4))

/-- The checks made at the counter (R293), then the application. -/
def State.applySig (s : State) (g : Sig) : State :=
  let s := s.dropSig g.id
  if 256 ≤ cnSel g.cn then
    let k := R.SYN_G_CFG 0 (cnSel g.cn - 256)
    if s.sigAllowed g k then (s.addCtr k g.inc).edgeOutcome g 0 else s.sigRefuse g 0x43 5 none
  else
    match s.sigAt g with
    | none => s.sigRefuse g 0x40 1 none
    | some p =>
      let k := R.SYN_CTR_CFG p (cnSel g.cn)
      if 2 ≤ s.pow p then s.sigRefuse g (if sigSet g then 0x27 else 0x40) 3 (some p)
      else if s.sigAllowed g k then (s.addCtr k g.inc).edgeOutcome g 0
      else (if s.sigForeign g k then s.put (R.SYN_ERRFLAG_FOREIGN p) 1 else s).sigRefuse g 0x43 5 (some p)

/-- The outcome of a signal at another die reaches its source (R293, R330, R334, R371). -/
def State.awayOver (s : State) (g : Sig) : State :=
  let s := (s.dropSig g.id).useFree
  if s.free % 2 = 0 then s else s.sigReport g

/-- SIGNAL_APPLY (R264, R295). -/
def execSignalApply (id : Nat) (s : State) : Host.Outcome State Fault Refusal :=
  .next (match s.syn.signals.find? (fun g => decide (g.id = id) && (decide (g.place = SigPlace.net) || decide (g.place = SigPlace.away))) with
  | none => s
  | some g =>
    if g.place = .away then (if s.frozen || decide (s.time.ufc < g.since) then s.later .unfz 1 (.signalApply id) else s.awayOver g)
    else
    let unit := s.sigUnit g
    if s.frozen || decide (s.time.ufc < g.since) || !s.unitFree g unit then s.later .unfz 1 (.signalApply id)
    else (s.useCap unit).applySig g)

/-- SHADOW_UPDATE (R284, R292): the updates due reach every shadow, and the waiters compare against them. -/
def execShadowUpdate (g : Fin 256) (s : State) : Host.Outcome State Fault Refusal :=
  .next (if s.frozen then s.later .unfz 0 (.shadowUpdate g)
    else
      let due := s.syn.shadowQ.filter (fun e => decide (e.1 = g.val) && decide (e.2.1 ≤ s.time.ufc))
      if due.isEmpty then s
      else
        let s := { s with syn := { s.syn with shadowQ := s.syn.shadowQ.filter (fun e => !(decide (e.1 = g.val) && decide (e.2.1 ≤ s.time.ufc))) } }
        (due.foldl (fun s e => s.setShadows g e.2.2) s).compareAll (R.SYN_G_CFG 0 g))

/-! The sync interface -/

/-- Answer on SGP_RESP or SYW_RESP on the next fc. -/
def State.synResp (s : State) (cab out : Nat) (r : Resp) : State :=
  s.present! (cab * 8 + out) { at' := s.time.fc + 1, tag := 0, dat := [], zero := [], sb := 0, resp := r }

/-- Writes accepted at a port of a cabinet that are not yet drained, here or behind a bridge that they have entered (R274, R277). -/
def State.portWrites (s : State) (cab : Nat) (ports : List Nat) : List Nat :=
  ((s.syn.undrained ++ s.syn.crossed).filter (fun u => decide (u.2.1 = cab) && ports.contains u.2.2)).map (fun u => u.1)

/-- A signal is issued: held for a step, which `step` names by the schedule fc it opened on when it need not be the open one, or at its
port (R84, R270). -/
def State.issueSig (s : State) (src : SigSrc) (ctx : Option Nat) (cn inc : Nat) (drain : List Nat) (held : Bool) (step : Option Nat := none) : State :=
  let id := s.syn.nextSig
  let g : Sig := { id := id, src := src, die := s.die, ctx := ctx, cn := cn, inc := inc, drain := drain, place := if held then .held else .port, since := step.getD s.time.stime }
  let s := { s with syn := { s.syn with signals := s.syn.signals ++ [g], nextSig := id + 8 } }
  if held then s else s.later .unfz 0 (.signalLeave id)

/-- Engine signals of a cabinet in its signal queue (R273). -/
def State.sgq (s : State) (cab : Nat) : Nat :=
  (s.syn.signals.filter (fun g => decide (g.src = SigSrc.engine cab) && decide (g.die = s.die) && (decide (g.place = SigPlace.port) || decide (g.place = SigPlace.held)))).length

/-- ENGINE_SIGNAL (R271 to R273, R293): accepted into the queue, held while a step is open or unreleased, discarded during a
replay, or refused. -/
def execEngineSignal (cab : Cab) (cn : BitVec 19) (inc : BitVec 16) (drain : BitVec 3) (s : State) : Host.Outcome State Fault Refusal :=
  let ctx := s.eag cab
  let ports := (if drain.getLsbD 0 then [12] else []) ++ (if drain.getLsbD 1 then [0] else []) ++ (if drain.getLsbD 2 then [1] else [])
  let ghost : Sig := { id := 0, src := .engine cab, die := s.die, ctx := ctx, cn := cn.toNat, inc := inc.toNat, drain := [], place := .port, since := 0 }
  .next (if s.bit (R.CAB_PORT_STAT_P_SEQ cab) = false then s
    else if s.discards ctx || s.fenced cab then s.synResp cab 4 .fault
    else if s.frozen then s.frzIssue cab 15 ctx
    else
      match s.sigCheck ctx cn.toNat with
      | some cause => (s.sigRefuse ghost 0x40 cause (some cab)).synResp cab 4 .fault
      | none =>
        if s.replaying ctx then s.synResp cab 4 .ok
        else if 64 ≤ s.sgq cab then ((s.put (R.SYN_ERRFLAG_QFULL cab) 1).sigRefuse ghost 0x40 2 (some cab)).synResp cab 4 .fault
        else
          let held := match ctx with
            | some c => s.stepLive c
            | none => false
          (s.issueSig (.engine cab) ctx cn.toNat inc.toNat (s.portWrites cab ports) held).synResp cab 4 .ok)

/-- Counter name of a wait's counter, for a record (R294). -/
def State.waitName (s : State) (cab sel : Nat) (ctx : Option Nat) : Nat :=
  let l := ((List.range 128).find? (fun n => decide (s.mapped (s.genFor ctx) n = some cab))).getD 127
  s.die * 65536 + (if 256 ≤ sel then 0 else l * 512) + sel

/-- The check of a wait (R293): the kind and cause of its refusal. -/
def State.waitCheck (s : State) (cab sel : Nat) (ctx : Option Nat) : Option (Nat × Nat) :=
  match ctrKey cab sel with
  | none => some (0x40, 4)
  | some k => if s.bit (cfgBound k) ∧ ctx = some (s.f (cfgCtx k)) then none else some (0x43, 5)

/-- A wait is refused: record, flags. -/
def State.waitRefuse (s : State) (cab sel req : Nat) (ctx : Option Nat) (kind cause : Nat) : State :=
  let s := (s.synErr kind req (some cab) ctx (s.waitName cab sel ctx) cause).put (R.SYN_ERRFLAG_REFUSED cab) 1
  if cause = 5 ∧ sel < 256 then s.put (R.SYN_ERRFLAG_FOREIGN cab) 1 else s

/-- WAIT_REGISTER (R283, R293). -/
def execWaitRegister (cab : Cab) (id : Fin 16) (ctr : BitVec 9) (exp : W48) (s : State) : Host.Outcome State Fault Refusal :=
  let ctx := s.eag cab
  let refuse (kind cause : Nat) : State := ((s.waitRefuse cab ctr.toNat 15 ctx kind cause).ctxFault? ctx).synResp cab 5 .fault
  .next (if s.bit (R.CAB_PORT_STAT_P_SEQ cab) = false then s
    else if s.discards ctx || s.fenced cab then s.synResp cab 5 .fault
    else if s.frozen then s.frzIssue cab 15 ctx
    else if 12 ≤ id.val then refuse 0x40 6
    else
      match s.waitCheck cab ctr.toNat ctx with
      | some e => refuse e.1 e.2
      | none => (s.registerWtr cab id ctr.toNat exp.toNat (ctx.getD 0)).synResp cab 5 .ok)

/-- WAIT_CANCEL (R283, R285). -/
def execWaitCancel (cab : Cab) (id : Fin 16) (s : State) : Host.Outcome State Fault Refusal :=
  let ctx := s.eag cab
  .next (if s.bit (R.CAB_PORT_STAT_P_SEQ cab) = false then s
    else if s.discards ctx || s.fenced cab then s.synResp cab 5 .fault
    else if s.frozen then s.frzIssue cab 15 ctx
    else if 12 ≤ id.val then ((s.waitRefuse cab 0 15 ctx 0x40 6).ctxFault? ctx).synResp cab 5 .fault
    else (s.cancelWtr cab id).synResp cab 5 .ok)

/-! Binding -/

/-- Signals to a counter that wait in its counter unit. -/
def State.inUnit (s : State) (k : Nat) (g : Sig) : Bool :=
  decide (g.place = SigPlace.net) && decide (g.since ≤ s.time.ufc) &&
    decide ((if 256 ≤ cnSel g.cn then some (R.SYN_G_CFG 0 (cnSel g.cn - 256)) else (s.sigAt g).bind (fun p => ctrKey p (cnSel g.cn))) = some k)

/-- Undo what signals added to a counter on the present fc: an unbind on that fc comes before them (R295). -/
def State.unapply (s : State) (k : Nat) : State :=
  let mine (e : Nat × Nat × Nat) : Bool := decide (e.1 = k) && decide (e.2.1 = s.time.ufc)
  let n := (s.syn.applied.filter mine).foldl (fun n e => n + e.2.2) 0
  let s := if n = 0 then s else s.setCtr k (s.ctrVal k + (2 ^ 48 - n % 2 ^ 48))
  { s with syn := { s.syn with applied := s.syn.applied.filter (fun e => !mine e), shadowQ := s.syn.shadowQ.filter (fun e => !(decide (globOf k = some e.1) && decide (e.2.1 = s.time.ufc + 4))) } }

/-- Unbind a counter (R268, R269, R295): waiters cancelled, waiting signals discarded, those of this fc too, the quiet span begins. -/
def State.unbindCtr (s : State) (sel : CtrSel) : State :=
  let k := selKey sel
  let s := ((s.waitersOf k).foldl (fun s e => s.cancelWtr e.1 e.2) (s.unapply k)).dropSigs (s.inUnit k)
  (s.puts [(cfgBound k, 0), (cfgQuiet k, 1)]).later .unfz 4096 (.quietEnd sel)

/-- Bind a counter (R267): its value and shadows return to 0, the waiters that name it lose PENDING and FIRED. -/
def State.bindCtr (s : State) (k : Nat) : State :=
  let s := (s.waitersOf k).foldl (fun s e => (s.lowerWire e.1 e.2).puts [(R.SYN_WTR_A_PENDING e.1 e.2, 0), (R.SYN_WTR_A_FIRED e.1 e.2, 0)]) s
  let s := (s.setCtr k 0).put (cfgBound k) 1
  match globOf k with
  | some g => ({ s with syn := { s.syn with shadowQ := s.syn.shadowQ.filter (fun e => decide (e.1 ≠ g)) } }).setShadows g 0
  | none => s

/-- The fields of CTR_CFG that a write stores beside BOUND; a rise of WAKE_EN fires the pending waiters on the next fc (R285). -/
def State.ctrFields (s : State) (k : Nat) (v : W32) : State :=
  let rise := !s.bit (cfgWake k) && vbit v 5
  let s := s.puts [(cfgCtx k, v.toNat % 16), (cfgWake k, v.toNat / 32 % 2), (cfgEdge k, v.toNat / 64 % 2)]
  if rise then
    (s.waitersOf k).foldl (fun s e => if s.bit (R.SYN_WTR_A_PENDING e.1 e.2) then s.arm .unfz (if s.frozen then 0 else 1) (.waiterFire (Fin.ofNat 128 e.1) (Fin.ofNat 16 e.2)) else s) s
  else s

/-- May a write of CTR_CFG_n or G_CFG_g take effect? From SCH, SEC and DBG; no new context for a bound counter, no bind while QUIET is 1
(R267, R269). -/
def State.ctrOk (s : State) (m : Master) (k : Nat) (v : W32) : Bool :=
  (m == .sch || m == .sec || m == .dbg) && !(s.bit (cfgBound k) && vbit v 4 && decide (s.f (cfgCtx k) ≠ v.toNat % 16)) &&
    !(!s.bit (cfgBound k) && vbit v 4 && s.bit (cfgQuiet k))

/-- A write of CTR_CFG_n or G_CFG_g, through the station of a cabinet (R267 to R269, R309). -/
def State.ctrWrite (s : State) (m : Master) (sel : CtrSel) (v : W32) : State :=
  let k := selKey sel
  s.gateAt (s.ctrOk m k v) m (selCab sel) (selVia sel) (fun s =>
    if !s.bit (cfgBound k) && vbit v 4 then (s.bindCtr k).ctrFields k v
    else if s.bit (cfgBound k) && !vbit v 4 then (s.unbindCtr sel).ctrFields k v
    else s.ctrFields k v)

/-- COUNTER_BIND (R267): the write sets BOUND. -/
def execCounterBind (m : Master) (sel : CtrSel) (v : W32) (s : State) : Host.Outcome State Fault Refusal := .next (s.row m (.counterBind m sel v) (fun s => s.ctrWrite m sel (v ||| 0x10)))

/-- COUNTER_UNBIND (R268): the write clears BOUND. -/
def execCounterUnbind (m : Master) (sel : CtrSel) (v : W32) (s : State) : Host.Outcome State Fault Refusal := .next (s.row m (.counterUnbind m sel v) (fun s => s.ctrWrite m sel (v &&& 0xFFFFFFEF)))

/-- WAKE_EN_WRITE (R285): the write sets WAKE_EN. -/
def execWakeEnWrite (m : Master) (sel : CtrSel) (v : W32) (s : State) : Host.Outcome State Fault Refusal := .next (s.row m (.wakeEnWrite m sel v) (fun s => s.ctrWrite m sel (v ||| 0x20)))

/-- QUIET_END (R269): 4096 unfrozen fc after the unbind. -/
def execQuietEnd (sel : CtrSel) (s : State) : Host.Outcome State Fault Refusal :=
  .next (if s.armed (.quietEnd sel) then s else s.put (cfgQuiet (selKey sel)) 0)

/-! Writes of block SYN -/

/-- SYN_SIGNAL_WRITE (R270, R293, R302): CTR selects a counter of this cabinet, or a die-global one. -/
def execSynSignalWrite (m : Master) (cab : Cab) (v : W32) (s : State) : Host.Outcome State Fault Refusal :=
  let sel := v.toNat % 512
  let src : SigSrc := .reg cab (masterReq m)
  let logical := ((List.range 128).find? (fun n => decide (s.mapped s.cur n = some cab.val))).getD 127
  let cn := s.die * 65536 + (if 256 ≤ sel then 0 else logical * 512) + sel
  let ghost : Sig := { id := 0, src := src, die := s.die, ctx := none, cn := cn, inc := v.toNat / 65536, drain := [], place := .port, since := 0 }
  .next (s.row m (.synSignalWrite m cab v) (fun s => s.gateAt (bankMaster m cab || m == .sch) m cab (R.SYN_SIGNAL cab) (fun s =>
    if 64 ≤ sel ∧ sel < 256 then s.sigRefuse ghost 0x40 4 (some cab)
    else s.issueSig src none cn (v.toNat / 65536) [] false)))

/-- Close the set path of a cabinet. -/
def State.closePath (s : State) (cab : Nat) : State := s.put (R.SYN_SET_KEY_OPEN cab) 0

/-- SET_KEY_WRITE (R296): the key opens the path for 1 µs of fabric time; any other value closes it. -/
def execSetKeyWrite (m : Master) (cab : Cab) (v : W32) (s : State) : Host.Outcome State Fault Refusal :=
  .next (s.row m (.setKeyWrite m cab v) (fun s => s.gateAt (m == .sec || m == .dbg) m cab (R.SYN_SET_KEY cab) (fun s =>
    if v.toNat % 65536 = 0x6B1D then
      let t := s.time.now + ns 1000
      (({ s with syn := { s.syn with setUntil := SMap.insert s.syn.setUntil cab t } }).put (R.SYN_SET_KEY_OPEN cab) 1).at' .fab t (.setPathTimeout cab)
    else (s.closePath cab).put (R.SYN_ERRFLAG_KEY_BAD cab) 1)))

/-- SET_PATH_TIMEOUT (R296). -/
def execSetPathTimeout (cab : Cab) (s : State) : Host.Outcome State Fault Refusal :=
  .next (if SMap.get 0 s.syn.setUntil cab ≤ s.time.now then s.closePath cab else s)

/-- After a set by hand every waiter of the counter is compared on the next fc, frozen or not (R297). -/
def State.compareByHand (s : State) (k : Nat) : State :=
  (s.waitersOf k).foldl (fun s e =>
    ({ s with syn := { s.syn with byHand := s.syn.byHand ++ [(e.1 * 16 + e.2, s.time.fc + 1)] } }).later .wall 1 (.waiterFire (Fin.ofNat 128 e.1) (Fin.ofNat 16 e.2))) s

/-- Set a counter's value by hand, and its shadows with it (R292, R297). -/
def State.setByHand (s : State) (k v : Nat) : State :=
  let s := s.setCtr k v
  let s := match globOf k with
    | some g => ({ s with syn := { s.syn with shadowQ := s.syn.shadowQ.filter (fun e => decide (e.1 ≠ g)) } }).setShadows g (v % 2 ^ 48)
    | none => s
  s.compareByHand k

/-- The held value of the lower half of a pair for a master, which the write of the upper half uses up (R15). -/
def State.takeLo (s : State) (m : Master) (key : Nat) : State × W32 :=
  match s.loHeld.find? (fun e => decide (e.1 = masterIdx m) && decide (e.2.1 = key)) with
  | some e => ({ s with loHeld := s.loHeld.filter (fun e => !(decide (e.1 = masterIdx m) && decide (e.2.1 = key))) }, e.2.2)
  | none => (s, s.reg key)

/-- COUNTER_SET (R15, R296, R297): the held lower half is used up by a write that takes effect, and stays the pair's lower half. -/
def execCounterSet (m : Master) (cab : Cab) (v : W32) (s : State) : Host.Outcome State Fault Refusal :=
  .next (s.row m (.counterSet m cab v) (fun s => s.gateAt (m == .sec || m == .dbg) m cab (R.SYN_SET_HI cab) (fun s =>
    if !s.bit (R.SYN_SET_KEY_OPEN cab) then s.put (R.SYN_ERRFLAG_KEY_BAD cab) 1
    else
      let lo := s.takeLo m (R.SYN_SET_LO cab)
      let s := lo.1.setReg (R.SYN_SET_LO cab) lo.2
      match ctrKey cab (v.toNat / 65536 % 512) with
      | none => (s.closePath cab).put (R.SYN_ERRFLAG_SEL_BAD cab) 1
      | some k => ((s.closePath cab).inc (R.SYN_DBG_SETS_COUNT cab)).setByHand k (lo.2.toNat + v.toNat % 65536 * 2 ^ 32))))

/-! State dump -/

/-- A write of DUMP_CTL through the window of a cabinet (R298, R310): `v` is the whole word. -/
def State.dumpCtl (s : State) (m : Master) (via : Nat) (v : W32) : State :=
  s.gate (m == .sec || m == .dbg) m (R.SYN_DUMP_CTL via) (fun s =>
    let s := if vbit v 1 then s.put (R.SYN_DUMP_CTL_DONE 0) 0 else s
    let s := if vbit v 2 then s.put (R.SYN_DUMP_CTL_REJ 0) 0 else s
    let s := s.putb (R.SYN_DUMP_CTL_AUTO 0) (vbit v 4)
    let base := s.f (R.SYN_DUMP_BASE_BASE 0) * 64
    if !vbit v 0 then s
    else if !s.frozen || s.bit (R.SYN_DUMP_CTL_GO 0) || decide (0x100000 < base + 0x1A840) then s.put (R.SYN_DUMP_CTL_REJ 0) 1
    else
      let s := s.puts [(R.SYN_DUMP_CTL_GO 0, 1), (R.SYN_DUMP_CTL_TORN 0, 0)]
      ({ s with syn := { s.syn with dump := some 0, thawed := false } }).useFree.at' .real (s.cycEnd (s.free % ns 149)) .dumpDone)

/-- DUMP_GO (R298, R310). -/
def execDumpGo (m : Master) (v : W32) (s : State) : Host.Outcome State Fault Refusal := .next (s.row m (.dumpGo m v) (fun s => s.dumpCtl m 0 v))

/-- Eight bytes of a counter in a record (R299). -/
def State.dumpCtr (s : State) (k : Nat) : List Byte :=
  leBytes 8 (s.ctrVal k + s.f (cfgCtx k) * 2 ^ 48 + s.f (cfgBound k) * 2 ^ 52 + s.f (cfgWake k) * 2 ^ 53 + s.f (cfgEdge k) * 2 ^ 54)

/-- Sixteen bytes of a waiter in a record (R299). -/
def State.dumpWtr (s : State) (p w : Nat) : List Byte :=
  leBytes 8 (s.wtrExp p w + s.f (R.SYN_WTR_A_CTR p w) * 2 ^ 48 + s.f (R.SYN_WTR_A_REG p w) * 2 ^ 57 + (if s.firedNow p w then 1 else 0) * 2 ^ 58 +
    s.f (R.SYN_WTR_A_PENDING p w) * 2 ^ 59) ++ leBytes 8 (s.f (R.SYN_WTR_A_CTX p w))

/-- The head of a record: cabinet, flags, TIM.NOW, schedule time, zeros to 0x40 (R299). -/
def State.dumpHead (s : State) (p flags : Nat) : List Byte :=
  leBytes 2 p ++ leBytes 2 flags ++ leBytes 4 0 ++ leBytes 8 s.now ++ leBytes 8 s.time.stime ++ List.replicate 40 0

/-- Record `n` of a dump: 0 the die-global section, `p + 1` physical cabinet `p` (R299, R300). -/
def State.dumpRec (s : State) (n : Nat) : List Byte :=
  let torn := if s.syn.thawed then 1 else 0
  if n = 0 then s.dumpHead 0x7F torn ++ (List.range 256).flatMap (fun g => s.dumpCtr (R.SYN_G_CFG 0 g))
  else
    let p := n - 1
    if s.fenced p || !(List.range 128).any (fun l => decide (s.mapped s.cur l = some p)) || decide (2 ≤ s.pow p) then
      leBytes 2 p ++ leBytes 2 (torn + 2) ++ List.replicate 0x33C 0
    else s.dumpHead p torn ++ (List.range 64).flatMap (fun c => s.dumpCtr (R.SYN_CTR_CFG p c)) ++ (List.range 16).flatMap (fun w => s.dumpWtr p w)

/-- Was management SRAM shut to the dump engine on the cycle that ends: locked, or used by a master? (R423) -/
def State.msramBusy (s : State) : Bool :=
  s.cmx.locks.any (fun l => decide (l.1 = 1)) || decide (SMap.get 0 s.cmx.next 1 = s.cyc)

/-- DUMP_DONE (R298 to R300, R423): the engine writes its next record at the end of a cycle that no master uses at management SRAM; with the last one,
DONE is set. -/
def execDumpDone (s : State) : Host.Outcome State Fault Refusal :=
  .next (match s.syn.dump with
  | none => s
  | some n =>
    if s.msramBusy then s.at' .real (s.cycEnd 0) .dumpDone
    else
    let base := msram (s.f (R.SYN_DUMP_BASE_BASE 0) * 64)
    let s := s.setCells (if n = 0 then base else base + 0x840 + 0x340 * (n - 1)) (s.dumpRec n)
    let s := if s.syn.thawed then s.put (R.SYN_DUMP_CTL_TORN 0) 1 else s
    match s.cabs.find? (fun p => decide (n ≤ p)) with
    | some p => ({ s with syn := { s.syn with dump := some (p + 1) } }).useFree.at' .real (s.cycEnd (s.free % ns 149)) .dumpDone
    | none => ({ s with syn := { s.syn with dump := none } }).puts [(R.SYN_DUMP_CTL_GO 0, 0), (R.SYN_DUMP_CTL_DONE 0, 1)])

end Sys2Proof.Machine
end

