-- ==== Sys2Proof/Machine/Fifo.lean ====
section
/-! DEFINITION. Handoff FIFOs: the chain, packets, the gate, drops, notices, flushes and the commands of port HFP (chapter
"Handoff FIFOs"). The movement of an fc is done at the beginning of the next one, so that the stages are what they are at
the start of the present fc. -/
namespace Sys2Proof.Machine

/-- The votes over an item's stored flags (R202). -/
def Item.first (i : Item) : Bool := majority i.firstCells
/-- The vote over LAST. -/
def Item.last (i : Item) : Bool := majority i.lastCells
/-- The vote over IDLE. -/
def Item.isIdle (i : Item) : Bool := majority i.idleCells

/-- The three cells of a flag as they are written. -/
def cells3 (b : Bool) : BitVec 3 := if b then 7 else 0

/-- The item that a push stores: IDLE is 0 (R202, R360). -/
def itemOf (dat : List W64) (first last : Bool) : Item :=
  { dat := (List.range 8).map (fun w => dat.getD w 0), flips := List.replicate 8 0, firstCells := cells3 first, lastCells := cells3 last, idleCells := 0 }

/-- A FIFO. -/
def State.fifo (s : State) (cab f : Nat) : Fifo := SMap.get Fifo.idle s.fifos (cab * 8 + f)

/-- Replace a FIFO. -/
def State.setFifo (s : State) (cab f : Nat) (x : Fifo) : State := { s with fifos := SMap.set Fifo.idle s.fifos (cab * 8 + f) x }

/-- Items in the chain (R362). -/
def Fifo.level (x : Fifo) : Nat := (x.stages.filter (fun i => i.isSome)).length + (if x.entering.isSome then 1 else 0)

/-- Note the level at the start of this fc, once (R363). -/
def Fifo.begin' (x : Fifo) (now : Nat) : Fifo :=
  if x.stamp = now + 1 then x else { x with stamp := now + 1, level0 := x.level, didPush := false, didPop := false }

/-- One fc of movement from stage 1 to stage 15, in order: an item moves where the stage before it is empty (R361). -/
def fallPass : List (Option Item) → List (Option Item)
  | none :: some i :: l => some i :: fallPass (none :: l)
  | a :: l => a :: fallPass l
  | [] => []

/-- Does a hole stand before an item, or an item at the door? -/
def moving : List (Option Item) → Bool
  | none :: some _ :: _ => true
  | _ :: l => moving l
  | [] => false

/-- The packet that stands from stage 0: its items up to LAST, or up to the next FIRST (R365). -/
def packetOf : List Item → List Item
  | [] => []
  | i :: l =>
    if i.last then [i]
    else
      match l with
      | [] => [i]
      | j :: _ => if j.first then [i] else i :: packetOf l

/-- The items of the chain from the head. -/
def Fifo.items (x : Fifo) : List Item := x.stages.filterMap id

/-- Does the gate's condition hold for the packet of the oldest item, also while that item still falls? (R368) -/
def Fifo.opens (x : Fifo) (limit cut : Nat) : Bool :=
  let p := packetOf x.items
  !p.isEmpty && (decide (min (max cut 1) limit ≤ p.length) || p.any (fun i => i.last))

/-- LIMIT of a FIFO. -/
def State.fifoLimit (s : State) (cab f : Nat) : Nat := s.f (R.HFF_CFG_LIMIT cab f)

/-- Open the gate when its condition holds; it stays open. -/
def State.gateCheck (s : State) (cab f : Nat) (x : Fifo) : Fifo :=
  if x.inPkt then x else { x with gate := x.gate || x.opens (s.fifoLimit cab f) (s.f (R.HFF_CFG_CUT_THROUGH cab f)) }

/-- Store a FIFO after an operation and let it fall on the next fc. -/
def State.putFifo (s : State) (cab f : Nat) (x : Fifo) : State :=
  (s.setFifo cab f x).arm .unfz 1 (.fifoItemFall (Fin.ofNat 128 cab) (Fin.ofNat 8 f))

/-- A FIFO after one fc of movement: the item pushed on that fc enters stage 15. -/
def Fifo.fallen (x : Fifo) : Fifo :=
  let st := fallPass x.stages
  { x with stages := if x.entering.isSome then st.take 15 ++ [x.entering] else st, entering := none }

/-- An item of a hand-over has moved: progress of the runner it is reserved for (R346). -/
def State.handMoved (s : State) (cab f : Nat) : State :=
  if s.bit (R.HFF_CFG_HANDOVER cab f) then
    (List.range 4).foldl (fun s r =>
      let x := s.runner cab r
      if x.fuse.any (fun u => u.hand.contains f) then s.setRunner cab r { x with moved := s.time.ufc } else s) s
  else s

/-- FIFO_ITEM_FALL (R361): one fc of movement. -/
def execFifoItemFall (cab : Cab) (f : Fin 8) (s : State) : Host.Outcome State Fault Refusal :=
  if s.frozen then .next (s.arm .unfz 0 (.fifoItemFall cab f))
  else
    let x := (s.fifo cab f).fallen
    let s := (s.setFifo cab f (s.gateCheck cab f x)).handMoved cab f
    .next (if moving x.stages then s.arm .unfz 1 (.fifoItemFall cab f) else s)

/-- A FIFO as the end of the last unfrozen fc left it, the movement of that fc among it (R362): it still waits to be made until the
next unfrozen fc begins. -/
def State.fifoSeen (s : State) (cab f : Nat) : Fifo :=
  if s.agenda.any (fun d => decide (d.cmd = .fifoItemFall (Fin.ofNat 128 cab) (Fin.ofNat 8 f)) && decide (d.due ≤ s.time.ufc)) then (s.fifo cab f).fallen else s.fifo cab f

/-! Notices -/

/-- A notice of a packet (R370 to R372). -/
def State.notice (s : State) (cab f : Nat) : State :=
  let s := s.inc (R.HFF_CNT_PKTS cab f)
  match s.f (R.HFF_CFG_NOTICE cab f) with
  | 1 =>
    let x := s.fifo cab f
    let n := min (x.pend + 1) 65535
    let s := (s.setFifo cab f { x with pend := n }).arm .unfz 1 (.fifoNoticeSend (Fin.ofNat 128 cab) (Fin.ofNat 8 f))
    if n = 65535 then s.put (bitFld (R.HFF_ERRFLAG cab) (8 + f)) 1 else s
  | 2 =>
    let evt := bitFld (R.HFF_EVT cab) f
    if s.bit evt then s
    else
      let s := s.put evt 1
      if s.bit (bitFld (R.HFF_EVT cab) (8 + f)) then s.event (3 + cluster cab) 4 (cab + 2 ^ f * 256) else s
  | _ => s

/-- The context of a FIFO while it is bound (R374). -/
def State.fifoCtx (s : State) (cab f : Nat) : Option Nat :=
  if s.bit (R.HFF_CFG_BOUND cab f) then some (s.f (R.HFF_CFG_CTX cab f)) else none

/-- FIFO_NOTICE_SEND (R371, R377, R379): the pending notices go as one loose signal once the injection is free. -/
def execFifoNoticeSend (cab : Cab) (f : Fin 8) (s : State) : Host.Outcome State Fault Refusal :=
  let x := s.fifo cab f
  let clear := s.setFifo cab f { x with pend := 0 }
  let again := s.arm .unfz 1 (.fifoNoticeSend cab f)
  .next (if x.pend = 0 then s
    else if s.frozen then again
    else
      match s.fifoCtx cab f with
      | none => clear.put (bitFld (R.HFF_ERRFLAG cab) f) 1
      | some c =>
        let cn := s.f (R.HFF_NCN_CN cab f)
        let g : Sig := { id := s.syn.nextSig, src := .fifo cab f, die := s.die, ctx := some c, cn := cn, inc := x.pend, drain := [], place := .port, since := 0 }
        if s.replaying (some c) then clear
        else if 1 ≤ s.capUsed cab ∨ s.setLeaves (some cab.val) = true then again
        else
          match s.sigCheck (some c) cn with
          | some cause => clear.sigRefuse g 0x40 cause (some cab)
          | none =>
            let s := { clear with syn := { clear.syn with signals := clear.syn.signals ++ [g], nextSig := g.id + 8 } }
            (s.useCap cab).travel g)

/-! Operations -/

/-- Does the FIFO take a push on this fc? (R363, R371) -/
def State.pushReady (s : State) (cab f : Nat) : Bool :=
  let x := (s.fifo cab f).begin' s.time.ufc
  decide (x.level0 < s.fifoLimit cab f) && !x.didPush && decide (x.pend ≠ 65535)

/-- Push an item (R361, R365, R369, R370). While DROPPING an item of the dropped packet is discarded on arrival; an item with FIRST
opens another packet, and the dropped one has ended without LAST (R365). -/
def State.fifoPush (s : State) (cab f : Nat) (i : Item) : State :=
  let x := (s.fifo cab f).begin' s.time.ufc
  let mine := x.dropping && x.dropOpen && !i.first
  let x := { x with didPush := true, pushOpen := !i.last, dropping := x.dropping && !i.last, dropOpen := mine && !i.last }
  let s := if mine then
      let s := (s.setFifo cab f x).inc (R.HFF_DCNT_DROPPED cab f)
      if i.last ∧ s.bit (R.HFF_CFG_NOTICE_AT cab f) = true then s.notice cab f else s
    else (s.putFifo cab f { x with entering := some i, gate := x.gate && !(i.first && x.items.isEmpty) }).handMoved cab f
  if i.last ∧ s.bit (R.HFF_CFG_NOTICE_AT cab f) = false then s.notice cab f else s

/-- The item a pop takes: the one in stage 0 with the gate open (R364, R368). -/
def State.popReady (s : State) (cab f : Nat) : Option Item :=
  let x := s.gateCheck cab f ((s.fifo cab f).begin' s.time.ufc)
  if x.didPop || decide (x.pend = 65535) || !(x.inPkt || x.gate) then none else x.stages.headD none

/-- Decode a popped item (R202, R203, R373): words of one flipped cell are corrected, of two are uncorrectable, of more a
free outcome. The answer is whether the item is good, with its data. R203 names no requester for a FIFO_UE record; it carries 28,
a source without a code of its own (DESIGN CHOICE, log entry 90). -/
def State.fifoDecode (s : State) (cab f : Nat) (i : Item) : State × Bool × List W64 :=
  (List.range 8).foldl (fun (r : State × Bool × List W64) w =>
    let ue (s : State) : State := s.err { kind := 0x05, req := 28, cab := some cab, bank := f, sym := w, ctx := s.fifoCtx cab f }
    match i.flips.getD w 0 with
    | 0 => r
    | 1 => (r.1.inc (R.HFF_CNT_CE cab f), r.2.1, r.2.2)
    | 2 => (ue r.1, false, r.2.2)
    | _ =>
      let s := r.1.useFree
      if r.1.free % 3 = 0 then (ue s, false, r.2.2)
      else if r.1.free % 3 = 1 then (s.useFree, r.2.1, r.2.2.set w (BitVec.ofNat 64 s.free))
      else ((s.useFree).inc (R.HFF_CNT_CE cab f), r.2.1, r.2.2.set w (BitVec.ofNat 64 s.free))) (s, true, i.dat)

/-- Pop an item (R364, R366, R370). The gate shuts behind the packet: with its LAST, or where the next item begins another (R365, R368). -/
def State.fifoPop (s : State) (cab f : Nat) (i : Item) : State × Bool × List W64 :=
  let x := s.gateCheck cab f ((s.fifo cab f).begin' s.time.ufc)
  let y := { x with didPop := true, stages := none :: x.stages.drop 1 }
  let ended := i.last || ((y.items ++ y.entering.toList).head?).any (fun j => j.first)
  let x := { y with inPkt := if i.last then false else (x.inPkt || i.first), gate := x.gate && !ended }
  let s := (s.putFifo cab f x).handMoved cab f
  let s := if i.last ∧ s.bit (R.HFF_CFG_NOTICE_AT cab f) = true then s.notice cab f else s
  let r := s.fifoDecode cab f i
  if r.2.1 then r else (r.1.inc (R.HFF_DCNT_UE cab f), false, List.replicate 8 0)

/-- Take the first `n` items of the chain away, leaving holes. -/
def takeOut : Nat → List (Option Item) → List (Option Item)
  | 0, l => l
  | n + 1, some _ :: l => none :: takeOut n l
  | n + 1, none :: l => none :: takeOut (n + 1) l
  | _ + 1, [] => []

/-- The items of the current packet that stand in the chain (R367): while IN_PKT they run up to LAST or to the next FIRST. -/
def Fifo.current (x : Fifo) : List Item :=
  match x.items with
  | [] => []
  | i :: l => if x.inPkt && i.first then [] else packetOf (i :: l)

/-- Drop the current packet (R369, R379): items in the chain at the start of the fc, and its item pushed on this fc. -/
def State.fifoDrop (s : State) (cab f : Nat) : State :=
  let x := (s.fifo cab f).begin' s.time.ufc
  if x.didPop || (!x.inPkt && decide (x.level0 = 0)) then s.setFifo cab f x
  else
    let p := x.current
    let whole := p.any (fun i => i.last)
    let open' := !whole && decide (p.length = x.items.length)
    let late := match x.entering with
      | some i => open' && !i.first
      | none => false
    let lateLast := late && (x.entering.map (fun i => i.last)).getD false
    let more := open' && (x.entering.isNone || (late && !lateLast))
    let n := p.length + (if late then 1 else 0)
    let s := s.putFifo cab f { x with stages := takeOut p.length x.stages, entering := if late then none else x.entering, inPkt := false, didPop := true, gate := false, dropping := x.dropping || !(whole || lateLast), dropOpen := more }
    let s := s.incBy (R.HFF_DCNT_DROPPED cab f) n
    if (whole || lateLast) && s.bit (R.HFF_CFG_NOTICE_AT cab f) then s.notice cab f else s

/-- Flush a FIFO (R376): it wins over a push, pop or drop of the same fc; on a frozen fc there is none. -/
def State.fifoFlush (s : State) (cab f : Nat) : State :=
  s.setFifo cab f (if s.frozen then Fifo.idle else { Fifo.idle with stamp := s.time.ufc + 1, level0 := 0, didPush := true, didPop := true })

/-- Every field of CFG_f returns to its reset value (R375). -/
def State.resetCfg (s : State) (cab f : Nat) : State := s.setReg (R.HFF_CFG cab f) (resetVal (R.HFF_CFG cab f))

/-- A FIFO becomes a hand-over (R375). -/
def State.handTake (s : State) (cab f w ctx : Nat) : State :=
  ((s.fifoFlush cab f).puts [(R.HFF_CFG_LIMIT cab f, w), (R.HFF_CFG_CUT_THROUGH cab f, 1), (R.HFF_CFG_NOTICE cab f, 0), (R.HFF_CFG_CTX cab f, ctx),
    (R.HFF_CFG_BOUND cab f, 1), (R.HFF_CFG_HANDOVER cab f, 1)]).put (bitFld (R.RUN_RSV_STAT cab) f) 1

/-- A hand-over is released (R375). -/
def State.handFree (s : State) (cab f : Nat) : State := ((s.fifoFlush cab f).resetCfg cab f).put (bitFld (R.RUN_RSV_STAT cab) f) 0

/-! Port HFP: what it presents is taken at the end of its fc, after the runner stages and after every flush of that fc (R363, R376) -/

/-- An answer on HFP_POP_* on the next fc; sideband bit 2 is IDLE (R360). -/
def State.hfpOut (s : State) (cab : Nat) (dat : List W64) (sb : Nat) (r : Resp) : State :=
  s.presentIf (R.CAB_PORT_STAT_P_HFP cab) (cab * 8 + 6) { at' := s.time.fc + 1, tag := 0, dat := wordsOfBytes (dat.flatMap (fun w => leBytes 8 w.toNat)) 2, zero := [], sb := sb, resp := r }

/-- A pop result due on a frozen fc is presented on the first unfrozen one (R138): at the end of each fc one due on the next fc is put off when
that fc will be frozen. -/
def State.holdPops (s : State) : State :=
  if s.frozenAt (s.time.fc + 1) then
    { s with outs := s.outs.map (fun e => if e.1 < 1024 ∧ e.1 % 8 = 6 ∧ e.2.at' = s.time.fc + 1 then (e.1, { e.2 with at' := s.time.fc + 2 }) else e) }
  else s

/-- The sideband byte of an item. -/
def sideband (i : Item) : Nat := (if i.first then 1 else 0) + (if i.last then 2 else 0) + (if i.isIdle then 4 else 0)

/-- The inputs of a port on this fc. -/
def State.hfpIn (s : State) (cab : Nat) : HfpIn :=
  let h := SMap.get HfpIn.idle s.hfp cab
  if h.stamp = s.time.ufc + 1 then h else { HfpIn.idle with stamp := s.time.ufc + 1, held := h.held, aborts := h.aborts }

/-- Note inputs of a port. -/
def State.setHfp (s : State) (cab : Nat) (h : HfpIn) : State := { s with hfp := SMap.set HfpIn.idle s.hfp cab h }

/-- The command of a held pop or drop. -/
def popCmd (cab : Nat) (e : Nat × Bool × Bool) : Instr := if e.2.2 then .hfpDrop (Fin.ofNat 128 cab) (Fin.ofNat 8 e.1) else .hfpPop (Fin.ofNat 128 cab) (Fin.ofNat 8 e.1) e.2.1

/-- The oldest held pop or drop of a port is served `n` unfrozen fc from now (R137). -/
def State.hfpNext (s : State) (cab n : Nat) : State :=
  match (s.hfpIn cab).held with
  | [] => s
  | e :: _ => s.arm .unfz n (popCmd cab e)

/-- A push that is taken (R133, R137, R139, R363): it completes when HFP_PUSH_READY is high. -/
def State.hfpTake (s : State) (cab : Cab) (f : Nat) (i : Item) (perr : Bool) : State :=
  if s.pow cab ≠ 0 || !s.pushReady cab f then s else (if perr then s.parity cab 3 14 else s).fifoPush cab f i

/-- A pop that is taken (R133, R137, R139, R363, R364, R368): the oldest item, the idle item, or a FAULT. -/
def State.hfpPopNow (s : State) (cab : Cab) (f : Nat) (perr : Bool) : State :=
  let idle := List.replicate 8 (0 : W64)
  if s.fenced cab then s.hfpOut cab idle 0 .fault
  else if s.pow cab ≠ 0 then s.hfpOut cab idle 4 .asleep
  else
    let s := if perr then s.parity cab 3 14 else s
    match s.popReady cab f with
    | none => (s.setFifo cab f { (s.gateCheck cab f ((s.fifo cab f).begin' s.time.ufc)) with didPop := true }).hfpOut cab idle 4 .zero
    | some i =>
      let r := s.fifoPop cab f i
      r.1.hfpOut cab r.2.2 (sideband i) (if r.2.1 then .ok else .fault)

/-- A pop or drop that is taken. -/
def State.hfpServe (s : State) (cab : Cab) (e : Nat × Bool × Bool) : State :=
  if e.2.2 then (if s.fenced cab || decide (s.pow cab ≠ 0) then s else s.fifoDrop cab e.1) else s.hfpPopNow cab e.1 e.2.1

/-- A pop or drop that waits until the cabinet runs: of those presented on one fc a drop counts before a pop, and one of the two (R133, R137). -/
def State.hfpHold (s : State) (cab : Cab) (e : Nat × Bool × Bool) : State :=
  let h := s.hfpIn cab
  match h.asked with
  | none => s.setHfp cab { h with asked := some e, held := h.held ++ [e] }
  | some p => if e.2.2 && !p.2.2 then s.setHfp cab { h with asked := some e, held := h.held.dropLast ++ [e] } else s

/-- A pop or drop `e` of a port (R133, R137): noted when it is presented and taken at the end of its fc; a drop goes before the pop of
its fc, and one of the two is taken per fc. Held ones, and those presented while some are held, are served in order once the cabinet runs,
each when its time has come. -/
def State.hfpAsk (s : State) (cab : Cab) (e : Nat × Bool × Bool) : State :=
  let h := s.hfpIn cab
  let cmd := popCmd cab e
  let doze := decide (s.pow cab = 1) && !s.fenced cab
  let rerun := !doze && decide (h.held.head? = some e) && !s.agenda.any (fun d => decide (d.cmd = cmd))
  let note (s : State) : State := (s.setHfp cab { h with pop := some e }).later .unfz 0 cmd
  if rerun then
    if h.donePop then s.hfpNext cab 1 else ((s.setHfp cab { h with donePop := true, held := h.held.drop 1 }).hfpNext cab 1).hfpServe cab e
  else if doze then (s.wakeDoze cab 3).hfpHold cab e
  else if !h.held.isEmpty then s.hfpHold cab e
  else if h.donePop then s
  else
    match h.pop with
    | some p => if p = e then (s.setHfp cab { h with donePop := true }).hfpServe cab e else if e.2.2 && !p.2.2 then note s else s
    | none => note s

/-- HFP_PUSH (R133, R137, R138, R363): the push of this fc is noted, then taken; a Doze cabinet is woken. -/
def execHfpPush (cab : Cab) (f : Fin 8) (data : List W64) (first last : Bool) (perr : Bool) (s : State) : Host.Outcome State Fault Refusal :=
  let i := itemOf data first last
  let h := s.hfpIn cab
  .next (if s.bit (R.CAB_PORT_STAT_P_HFP cab) = false || s.frozen || s.fenced cab then s
    else if s.pow cab = 1 then s.wakeDoze cab 3
    else if h.push = none then (s.setHfp cab { h with push := some (f.val, i) }).later .unfz 0 (.hfpPush cab f data first last perr)
    else if h.push = some (f.val, i) && !h.donePush then (s.setHfp cab { h with donePush := true }).hfpTake cab f i perr
    else s)

/-- HFP_POP (R133, R137, R138, R363, R364, R368). -/
def execHfpPop (cab : Cab) (f : Fin 8) (perr : Bool) (s : State) : Host.Outcome State Fault Refusal :=
  .next (if s.bit (R.CAB_PORT_STAT_P_HFP cab) = false || s.frozen then s else s.hfpAsk cab (f.val, perr, false))

/-- HFP_DROP (R133, R369). -/
def execHfpDrop (cab : Cab) (f : Fin 8) (s : State) : Host.Outcome State Fault Refusal :=
  .next (if s.bit (R.CAB_PORT_STAT_P_HFP cab) = false || s.frozen || s.fenced cab then s else s.hfpAsk cab (f.val, false, true))

/-! Registers -/

/-- Masters that FIFO configuration accepts (R374). -/
def schMaster (m : Master) : Bool := m == .sch || m == .sec || m == .dbg

/-- Has anything but a flush moved in the FIFO on this fc? -/
def State.fifoMoved (s : State) (cab f : Nat) : Bool :=
  let x := s.fifo cab f
  !s.frozen && decide (x.stamp = s.time.ufc + 1) && (x.didPush != x.didPop || (x.didPush && decide (0 < x.level0)))

/-- HFF_FLUSH (R376, R380): the fc of a flush of a FIFO is the first on which nothing has moved in it before the write, so that the flush wins
over every push, pop and drop of its fc (R379); a flush that SCH owes waits while SCH restarts (R457). -/
def execHffFlush (m : Master) (cab : Cab) (v : W32) (s : State) : Host.Outcome State Fault Refusal :=
  let now := (List.range 8).filter (fun f => vbit v f && !s.fifoMoved cab f)
  let next := (List.range 8).filter (fun f => vbit v f && s.fifoMoved cab f)
  .next (if m == .sch && s.masked.contains 2 then s.later .unfz 1 (.hffFlush m cab v)
    else s.row m (.hffFlush m cab v) (fun s => s.gateAt (schMaster m) m cab (R.HFF_FLUSH cab) (fun s =>
      let s := now.foldl (fun s f => s.fifoFlush cab f) s
      if next.isEmpty then s else s.later .wall 1 (.hffFlush m cab (BitVec.ofNat 32 (next.foldl (fun n f => n + 2 ^ f) 0))))))

/-- HFF_CFG_WRITE (R374, R383): a change of CTX while BOUND stays, and a write while HANDOVER, are ignored and logged; an unbind
discards PEND. The gate is what CUT_THROUGH and LIMIT made it up to this fc, and opens if they now do (R368). -/
def execHffCfgWrite (m : Master) (cab : Cab) (f : Fin 8) (v : W32) (s : State) : Host.Outcome State Fault Refusal :=
  .next (s.row m (.hffCfgWrite m cab f v) (fun s => s.gateAt (schMaster m) m cab (R.HFF_CFG cab f) (fun s =>
    let bound := s.bit (R.HFF_CFG_BOUND cab f)
    let ctx := v.toNat / 65536 % 16
    let key := s.ca (R.HFF_CFG cab f)
    if s.bit (R.HFF_CFG_HANDOVER cab f) || (bound && vbit v 20 && decide (s.f (R.HFF_CFG_CTX cab f) ≠ ctx)) then s.locked (masterReq m) key
    else
      let notice := v.toNat / 1024 % 4
      let gated (s : State) : State := if s.frozen then s else s.setFifo cab f (s.gateCheck cab f (s.fifo cab f))
      let s := (gated s).puts [(R.HFF_CFG_LIMIT cab f, max 1 (min 16 (v.toNat % 32))), (R.HFF_CFG_CUT_THROUGH cab f, min 16 (v.toNat / 32 % 32)),
        (R.HFF_CFG_NOTICE cab f, if notice = 3 then 0 else notice), (R.HFF_CFG_NOTICE_AT cab f, v.toNat / 4096 % 2), (R.HFF_CFG_CTX cab f, ctx),
        (R.HFF_CFG_BOUND cab f, v.toNat / 2 ^ 20 % 2)]
      let s := gated s
      if bound && !vbit v 20 then s.setFifo cab f { s.fifo cab f with pend := 0 } else s)))

end Sys2Proof.Machine
end

