-- ==== Sys2Proof/Machine/Runner.lean ====
section
/-! DEFINITION. Runners and runner lists: fetching, validation, the streams of the descriptors, fused commands, multicast,
work stealing, abort and completion (chapter "Runners and runner lists"). A runner cuts a stream into pieces that lie within one 64-byte block
at both of their ends; each piece is one read segment and one write segment. -/
namespace Sys2Proof.Machine

/-! Descriptors -/

/-- Dword `n` of a descriptor (R318). -/
def dword (d n : Nat) : Nat := d / 2 ^ (32 * n) % 2 ^ 32

/-- OP of a descriptor. -/
def opOf (d : Nat) : Nat := d % 16

/-- ORDERED. -/
def ordered (d : Nat) : Bool := d / 16 % 2 = 1

/-- Are the dwords free of bits outside these masks? (R318, R320) -/
def onlyBits (d : Nat) (masks : List Nat) : Bool :=
  (List.range 8).all (fun n => decide (dword d n &&& (0xFFFFFFFF - masks.getD n 0) = 0))

/-- All bits of a dword. -/
def full : Nat := 0xFFFFFFFF

/-- ROWS of a COPY or FILL. -/
def rowsOf (d : Nat) : Nat := d / 65536 % 65536
/-- LEN or COUNT, dword 3 bits [23:0]. -/
def lenOf (d : Nat) : Nat := dword d 3 % 2 ^ 24
/-- ELEM. -/
def elemOf (d : Nat) : Nat := dword d 5 % 65536
/-- STAGES of a FUSE. -/
def stagesOf (d : Nat) : Nat := d / 256 % 4 + 1
/-- TILES. -/
def tilesOf (d : Nat) : Nat := dword d 1 % 2 ^ 24
/-- TILE_ITEMS. -/
def itemsOf (d : Nat) : Nat := dword d 1 / 2 ^ 24 % 32
/-- PREFETCH_TILES. -/
def prefetchOf (d : Nat) : Nat := dword d 1 / 2 ^ 29 + 1
/-- BARRIER. -/
def barrierOf (d : Nat) : Bool := d / 1024 % 2 = 1

/-- Valid receivers of an MCAST as (number, logical cabinet) (R325). -/
def receivers (d : Nat) : List (Nat × Nat) :=
  ((List.range 16).filter (fun k => decide (d / 2 ^ (128 + 8 * k + 7) % 2 = 1))).map (fun k => (k, d / 2 ^ (128 + 8 * k) % 128))

/-- Are the entries of a list all different? -/
def allDiff : List Nat → Bool
  | [] => true
  | x :: l => !l.contains x && allDiff l

/-- Is a descriptor valid where it stands outside a chain, on die `die`? (R319 to R328) -/
def descOk (die d : Nat) : Bool :=
  match opOf d with
  | 1 => onlyBits d [0xFFFF001F, full, full, 0xFFFFFF, full, full] && decide (0 < rowsOf d) && decide (0 < lenOf d)
  | 2 => onlyBits d [0xFFFF001F, 0, full, 0xFFFFFF, 0, full, full, full] && decide (0 < rowsOf d) && decide (0 < lenOf d)
  | 3 | 4 => onlyBits d [0x1F, full, full, 0xFFFFFF, full, 0xFFFF] && decide (0 < lenOf d) && decide (0 < elemOf d) && decide (dword d 4 % 4 = 0)
  | 5 =>
    onlyBits d [0x1F, full, full, 0xFFFFFF, full, full, full, full] && decide (0 < lenOf d) && decide (lenOf d ≤ 2 ^ 22) && decide (dword d 2 / 2 ^ 22 % 128 = 0) &&
      decide (dword d 2 % 2 ^ 22 + lenOf d ≤ 2 ^ 22) && !(receivers d).isEmpty && allDiff ((receivers d).map (fun r => r.2))
  | 6 =>
    onlyBits d [0x70F, full, 0xFFFF, full, 0xFFFF] && decide (2 ≤ stagesOf d) && decide (0 < itemsOf d) && decide (itemsOf d ≤ 16) && decide (0 < tilesOf d) &&
      decide (itemsOf d * prefetchOf d ≤ 16) && (!barrierOf d || decide (dword d 2 / 2 ^ (8 + die) % 2 = 1))
  | 7 => onlyBits d [0x01FF001F, full, 0xFFFF, 0xFFFF]
  | 8 => onlyBits d [0xFFFF001F, 0x7FFFF]
  | 9 =>
    onlyBits d [0x1F, full, full] && decide (dword d 1 % 32 = 0) && decide (dword d 2 % 32 = 0) && decide (dword d 1 ≤ dword d 2) && decide (dword d 1 / 2 ^ 29 = dword d 2 / 2 ^ 29)
  | 15 => onlyBits d [0x1F]
  | _ => false

/-- Bytes that a descriptor moves (R337). -/
def movedBytes (d : Nat) : Nat :=
  match opOf d with
  | 1 | 2 => lenOf d * rowsOf d
  | 3 | 4 => lenOf d * elemOf d
  | 5 => lenOf d * (receivers d).length
  | 6 => tilesOf d * itemsOf d * 64
  | _ => 0

/-- Is a stage of a fused command valid at its position? (R327, R338) -/
def stageOk (die : Nat) (hdr : Nat) (k : Nat) (d : Nat) : Bool :=
  let first := decide (k = 0)
  let last := decide (k + 1 = stagesOf hdr)
  match opOf d with
  | 10 => onlyBits d [0xF, full]
  | 1 => (first || last) && descOk die d && decide (movedBytes d = movedBytes hdr)
  | 3 => first && descOk die d && decide (movedBytes d = movedBytes hdr)
  | 4 => last && descOk die d && decide (movedBytes d = movedBytes hdr)
  | _ => false

/-- Is the descriptor an anchor? (R319) -/
def isAnchor (d : Nat) : Bool :=
  match opOf d with
  | 1 | 2 | 3 | 4 | 15 => ordered d
  | _ => true

/-- Is the descriptor stealable? (R319) -/
def stealable (d : Nat) : Bool := decide (d < 2 ^ 256) && decide (1 ≤ opOf d) && decide (opOf d ≤ 4) && !ordered d

/-! Lists -/

/-- The commands of a runner as operands. -/
def asCab (cab : Nat) : Cab := Fin.ofNat 128 cab
/-- A runner's number as an operand. -/
def asRun (r : Nat) : Fin 4 := Fin.ofNat 4 r

/-- Replace the fused command of a runner. -/
def State.holdFuse (s : State) (cab r : Nat) (f : Option Fuse) : State := s.setRunner cab r { s.runner cab r with fuse := f }

/-- Does the runner wait for hand-overs? -/
def reserving (x : RunSt) : Bool := x.start.isNone && x.fuse.any (fun f => decide (f.phase = FusePhase.reserve))

/-- State of a runner (R336). -/
def runState (x : RunSt) : Nat :=
  if x.abort.isSome then 7
  else
    match x.run with
    | none => if 4 ≤ x.cmpl.length then 6 else if x.works.isEmpty && x.start.isNone && x.theft.isNone then 0 else 8
    | some l =>
      if x.start.any (fun t => t.leave) then 3
      else if reserving x then 2
      else if x.wait.isSome then 5
      else if x.works.any (fun w => !w.halted) || x.fuse.isSome || x.sweep.isSome || x.start.isSome then 4
      else if l.ended || decide (l.count ≤ l.started) then 6
      else if x.works.isEmpty then 1
      else 4

/-- Note progress (R346). -/
def State.progress (s : State) (cab r : Nat) : State := s.setRunner cab r { s.runner cab r with moved := s.time.ufc }

/-- Look after a runner on the next fc: present, start and complete. -/
def State.kick (s : State) (cab r : Nat) : State :=
  ((s.arm .unfz 1 (.descriptorComplete (asCab cab) (asRun r))).arm .unfz 1 (.descriptorStart (asCab cab) (asRun r))).arm .unfz 1 (.segmentPresent (asCab cab) (asRun r))

/-- Take the next queued list (R313, R334): while the completion queue is full or an entry drains, none is started. -/
def State.nextList (s : State) (cab r : Nat) : State :=
  let x := s.runner cab r
  match x.queue with
  | [] => s
  | l :: rest =>
    if x.run.isSome || !x.works.isEmpty || x.start.isSome || x.theft.isSome || decide (4 ≤ x.cmpl.length) || s.draining cab || decide (2 ≤ s.pow cab) then s
    else
      let s := (s.wakeDoze cab 1).setRunner cab r { x with queue := rest, run := some l, moved := s.time.ufc }
      ((s.kick cab r).arm .unfz 1 (.listComplete (asCab cab) (asRun r))).arm .unfz 1048576 (.runnerWatchdog (asCab cab) (asRun r))

/-- RUNNER_LIST_GO (R312, R313, R359). -/
def execRunnerListGo (m : Master) (cab : Cab) (r : Fin 4) (v : W32) (s : State) : Host.Outcome State Fault Refusal :=
  .next (s.row m (.runnerListGo m cab r v) (fun s => s.gateAt (schMaster m) m cab (R.RUN_RN_LIST_CTL cab r) (fun s =>
    let s := s.puts [(R.RUN_RN_LIST_CTL_COUNT cab r, v.toNat), (R.RUN_RN_LIST_CTL_CTX cab r, v.toNat / 2 ^ 16), (R.RUN_RN_LIST_CTL_STEP cab r, v.toNat / 2 ^ 20),
      (R.RUN_RN_LIST_CTL_TAG cab r, v.toNat / 2 ^ 21)]
    let s := if vbit v 29 then s.put (R.RUN_RN_LIST_CTL_REJ cab r) 0 else s
    let x := s.runner cab r
    let fa := s.f (R.RUN_RN_LIST_FA_FA cab r)
    let count := v.toNat % 65536
    let ctx := v.toNat / 2 ^ 16 % 16
    let step := vbit v 20
    let tag := v.toNat / 2 ^ 21 % 256
    if !vbit v 31 then s
    else if decide (4 ≤ x.queue.length) || decide (count = 0) || decide (fa % 32 ≠ 0) || decide (faDie fa ≠ s.die) then s.put (R.RUN_RN_LIST_CTL_REJ cab r) 1
    else
      let l := { newList fa count ctx tag step (step && s.stepLive ctx) with openAt := s.openAt ctx }
      let s := if l.held then s.stepListed l cab r else s
      (s.setRunner cab r { x with queue := x.queue ++ [l] }).nextList cab r)))

/-- The descriptors of a list that still wait for leave do not start (R335, R337). -/
def State.cancelStarts (s : State) (cab r : Nat) : State :=
  s.runners.foldl (fun s e =>
    match e.2.start with
    | some t =>
      if t.list = (cab, r) ∧ t.leave = true then
        let c := e.1 / 4
        let q := e.1 % 4
        let x := s.runner c q
        (((s.setRunner c q { x with start := none, fuse := if (c, q) = (cab, r) then none else x.fuse }).leaveDrop (.desc c q)).leaveDrop (.sweepDesc c q)).kick c q
      else s
    | none => s) s

/-- End the list before its end (R335): the first failure stands in the record; nothing more of the list starts. -/
def State.endList (s : State) (cab r status idx resp addr : Nat) : State :=
  (s.onList cab r (fun l => if l.ended then l else { l with ended := true, buf := [], rec' := { l.rec' with status := status, failIndex := idx, failResp := resp, failAddr := addr } })).cancelStarts cab r

/-- `n` descriptors of the list from `idx` on are complete; with `n` = 0 the one at `idx` has been abandoned, which does not complete it (R333,
R359). -/
def State.descDone (s : State) (l : Nat × Nat) (idx n : Nat) : State :=
  let s := (s.onList l.1 l.2 (fun l => { l with live := l.live.filter (fun i => decide (i < idx) || decide (idx + n ≤ i)), done := l.done + n, anchor := if l.anchor = some idx then none else l.anchor })).kick l.1 l.2
  if n = 0 then s else s.progress l.1 l.2

/-! Access -/

/-- The access of a segment: a block of 64 bytes, read whole or written under enables, as the list's context (R315, R316). -/
def State.segReq (s : State) (cab r ctx n fa be : Nat) (we : Bool) (dat : List W256) : LReq :=
  { id := s.loose.nextId, req := 2 + r, home := cab, homeDie := s.die, org := .seg cab r n, cls := .loose, ctx := some ctx, fa := fa / 64 * 64, we := we, be := be, dat := dat, op := .acc }

/-- Byte enables of `n` bytes from byte `a` of a block. -/
def bytesBe (a n : Nat) : Nat := (2 ^ n - 1) * 2 ^ (a % 64)

/-- Two words that hold bytes from byte `a` of a block on. -/
def placed (a : Nat) (l : List Byte) : List W256 := wordsOfBytes (List.replicate (a % 64) 0 ++ l) 2

/-- Accesses outstanding of a runner (R315). -/
def outstanding (x : RunSt) : Nat :=
  x.works.foldl (fun n w => n + (w.pieces.filter (fun p => decide (p.id ≠ 0))).length + (if w.idxId ≠ 0 then 1 else 0) +
    w.rx.foldl (fun n q => n + q.unacked.foldl (fun n u => n + u.2.length) 0) 0) ((x.run.map (fun l => l.fetching.length)).getD 0 + x.stray.length)

/-- Replace a descriptor in progress. -/
def State.setWork (s : State) (cab r : Nat) (w : Work) : State :=
  let x := s.runner cab r
  s.setRunner cab r { x with works := x.works.map (fun y => if y.idx = w.idx && decide (y.list = w.list) then w else y) }

/-- A receiver is sent nothing more; the items it holds are still answered. An access 0 stands for a segment that was not sent. -/
def stopRx (q : Rx) : Rx :=
  { q with lapsed := true, since := none, unacked := (q.unacked.map (fun u => (u.1, u.2.filter (fun i => decide (i ≠ 0))))).filter (fun u => !u.2.isEmpty) }

/-- Give up a descriptor in progress: nothing more of it is presented. -/
def haltWork (w : Work) : Work := { w with halted := true, pieces := w.pieces.filter (fun p => decide (p.id ≠ 0)), rx := w.rx.map stopRx, half := false }

/-- What ESG shows (R341): bit 0 of `sb` VALID, bit 1 ABORT. -/
def State.esgOut (s : State) (cab r sb arg inF outF tiles items : Nat) : State :=
  s.presentIf (R.CAB_PORT_STAT_P_HFP cab) (cab * 8 + 7) { at' := s.time.fc + 1, tag := r, dat := [BitVec.ofNat 256 (arg + inF * 2 ^ 32 + outF * 2 ^ 36 + tiles * 2 ^ 40 + items * 2 ^ 64)], zero := [], sb := sb, resp := .ok }

/-- Hand-over numbers of a stage as ESG shows them: 8 for none. -/
def handNo (f : Fuse) (k : Nat) : Nat × Nat := (if k = 0 then 8 else f.hand.getD (k - 1) 0, if k + 1 = f.chain.length then 8 else f.hand.getD k 0)

/-- Show the start of the next ENGINE stage of a runner from the next fc on. -/
def State.esgStart (s : State) (cab r : Nat) (f : Fuse) : State :=
  let k := f.todo.headD 0
  (s.holdFuse cab r (some { f with esg := true, esgFrom := s.time.fc + 1 })).esgOut cab r 1 (dword (f.chain.getD k 0) 1) (handNo f k).1 (handNo f k).2 (tilesOf f.desc) (itemsOf f.desc)

/-- The next fc of ESG: an ESG_ABORT that still waits, else the start that is held until ESG_ACK (R342, R353). -/
def State.esgNext (s : State) (cab : Nat) : State :=
  let h := s.hfpIn cab
  match h.aborts with
  | q :: rest => ((s.setHfp cab { h with aborts := rest }).esgOut cab q 2 0 8 8 0 0).later .wall 1 (.engine (asCab cab) (asRun q))
  | [] =>
    match (List.range 4).find? (fun q => (s.runner cab q).fuse.any (fun f => f.esg)) with
    | some q =>
      match (s.runner cab q).fuse with
      | some f => s.esgStart cab q f
      | none => s
    | none => s.esgOut cab 0 0 0 8 8 0 0

/-- Does ESG show the start of this fused command on this fc? -/
def State.esgShows (s : State) (cab : Nat) (f : Fuse) : Bool :=
  let o := s.outNow (cab * 8 + 7)
  f.esg && decide (f.esgFrom ≤ s.time.fc) && !(decide (o.sb = 2) && decide (o.at' ≤ s.time.fc))

/-- A start held back by an ESG_ABORT, or by a port that was absent, is shown from the next fc on at the earliest. -/
def State.esgHide (s : State) (cab : Nat) : State :=
  (List.range 4).foldl (fun s q => match (s.runner cab q).fuse with
    | some f => if f.esg then s.holdFuse cab q (some { f with esgFrom := s.time.fc + 1 }) else s
    | none => s) s

/-- Does ESG show an ESG_ABORT on this fc or the next? -/
def State.esgAborting (s : State) (cab : Nat) : Bool := decide ((s.outNow (cab * 8 + 7)).sb = 2)

/-- Raise ESG_ABORT for `n` ENGINE stages of a runner, one fc each. -/
def State.esgAbort (s : State) (cab r n : Nat) : State :=
  if n = 0 then s
  else
    let busy := s.esgAborting cab
    let s := s.setHfp cab { s.hfpIn cab with aborts := (s.hfpIn cab).aborts ++ List.replicate n r }
    if busy then s else s.esgNext cab

/-- Abandon ENGINE stages and return the hand-overs (R353): flushed now, or on the next fc where something has moved in one on this fc (R379), and
back in the pool 64 fc later. -/
def State.dropFuse (s : State) (cab r : Nat) : State :=
  let x := s.runner cab r
  match x.fuse with
  | none => s
  | some f =>
    let s := (s.holdFuse cab r (some { f with esg := false })).esgAbort cab r (f.running.length + (if f.esg then 1 else 0))
    let s := (f.hand.filter (fun h => !s.fifoMoved cab h)).foldl (fun s h => s.fifoFlush cab h) s
    let back := f.hand.map (fun h => (h, s.time.fc + 64))
    let s := (s.setRunner cab r { s.runner cab r with fuse := none, returning := x.returning ++ back }).leaveBack (.desc cab r)
    if back.isEmpty then s else (s.later .wall 1 (.abortComplete (asCab cab) (asRun r))).later .wall 64 (.abortComplete (asCab cab) (asRun r))

/-- Give up every descriptor in progress of a runner's own list, and its fused command. -/
def State.haltAll (s : State) (cab r : Nat) : State :=
  let s := s.setRunner cab r { s.runner cab r with works := (s.runner cab r).works.map (fun w => if w.list = (cab, r) then haltWork w else w) }
  s.dropFuse cab r

/-- A segment of a descriptor failed (R316, R335): the list ends with the status of the answer. -/
def State.failWork (s : State) (cab r : Nat) (w : Work) (resp : Resp) (addr : Nat) : State :=
  let s := s.setWork cab r (haltWork w)
  let s := if w.stage.isSome then s.haltAll cab r else s
  s.endList w.list.1 w.list.2 (if resp = .asleep then 2 else 1) w.idx (respCode resp) addr

/-! Streams -/

/-- Bytes of one row or element. -/
def rowLen (d : Nat) : Nat := if opOf d = 3 ∨ opOf d = 4 then elemOf d else lenOf d

/-- Bytes of the whole stream. -/
def streamLen (d : Nat) : Nat := if opOf d = 5 then lenOf d else movedBytes d

/-- Index of element `k` when its block of indices is at hand (R324). -/
def indexOf (w : Work) (k : Nat) : Option Nat :=
  let a := dword w.desc 4 + 4 * k
  match w.idxBlk with
  | some b => if b.1 = a / 64 then some (leNat ((b.2.drop (a % 64)).take 4)) else none
  | none => none

/-- Source and destination address of stream position `pos`; none while an index is not at hand. A hand-over counts stream
positions (R322, R324, R338, R347). -/
def ends (w : Work) (pos : Nat) : Option (Nat × Nat) :=
  let d := w.desc
  let k := pos / rowLen d
  let o := pos % rowLen d
  let ix := if opOf d = 3 ∨ opOf d = 4 then indexOf w k else some 0
  ix.map (fun i =>
    let src := match opOf d with
      | 1 => dword d 1 + k * dword d 4 + o
      | 3 => dword d 1 + i * elemOf d + o
      | 4 => dword d 1 + k * elemOf d + o
      | 5 => dword d 1 + o
      | _ => pos
    let dst := match opOf d with
      | 1 => dword d 2 + k * dword d 5 + o
      | 2 => dword d 2 + k * dword d 5 + o
      | 3 => dword d 2 + k * elemOf d + o
      | 4 => dword d 2 + i * elemOf d + o
      | _ => pos
    (if w.inF.isSome then pos else src, if w.outF.isSome then pos else dst))

/-- Length of the next piece: within its row and within one block at either end; a multicast item is a block of its source. -/
def pieceLen (w : Work) (pos src dst : Nat) : Nat :=
  let d := w.desc
  let row := min (rowLen d - pos % rowLen d) (streamLen d - pos)
  let a := if opOf d = 2 then 64 else 64 - src % 64
  let b := if opOf d = 5 then 64 else 64 - dst % 64
  min row (min a b)

/-- The bytes that a FILL writes at an address (R322). -/
def fillBytes (d dst n : Nat) : List Byte := (List.range n).map (fun i => BitVec.ofNat 8 ((dword d 6 + dword d 7 * 2 ^ 32) / 2 ^ (8 * ((dst + i) % 8))))

/-- Present the write of a piece whose data is at hand. -/
def State.writePiece (s : State) (cab r : Nat) (w : Work) (p : Piece) : State :=
  if 2 ^ 32 ≤ p.dst then s.failWork cab r w .fault 0
  else
    let q := s.segReq cab r w.ctx 0 p.dst (bytesBe p.dst p.len) true (placed p.dst p.dat)
    let ps := w.pieces.map (fun y => if y.pos = p.pos then { y with id := q.id, writing := true } else y)
    (s.setWork cab r { w with pieces := ps, writes := w.writes ++ [q.id] }).fresh.issueLoose q cab

/-- Does the consumer's window allow reading stream item `n`? (R339) -/
def State.windowOpen (s : State) (cab r : Nat) (w : Work) (n : Nat) : Bool :=
  match w.outF, (s.runner cab r).fuse with
  | some f, some fu => decide (n < w.pushed - (s.fifo cab f).level + itemsOf fu.desc * prefetchOf fu.desc)
  | _, _ => true

/-- Present the next segment of a descriptor in progress, if it has one: the oldest write whose data is at hand, an index
read, a read of the next piece, or a piece that needs no read. The Bool says whether something was presented. -/
def State.presentWork (s : State) (cab r : Nat) (w : Work) : State × Bool :=
  let d := w.desc
  if w.halted then (s, false)
  else
    match w.pieces.find? (fun p => !p.writing) with
    | some p => if p.ready && w.outF.isNone && decide (opOf d ≠ 5) then (s.writePiece cab r w p, true) else readNext s d
    | none => readNext s d
where
  /-- The next read. -/
  readNext (s : State) (d : Nat) : State × Bool :=
    if streamLen d ≤ w.pos ∨ s.windowOpen cab r w (w.pos / 64) = false then (s, false)
    else
      match ends w w.pos with
      | none =>
        let a := dword d 4 + 4 * (w.pos / rowLen d)
        if w.idxId ≠ 0 then (s, false)
        else if 2 ^ 32 ≤ a then (s.failWork cab r w .fault 0, true)
        else
          let q := s.segReq cab r w.ctx 0 a (2 ^ 64 - 1) false []
          ((s.setWork cab r { w with idxId := q.id }).fresh.issueLoose q cab, true)
      | some e =>
        let n := pieceLen w w.pos e.1 e.2
        if w.inF.isSome then
          let n := min n w.buf.length
          if n = 0 then (s, false)
          else
            let p : Piece := { pos := w.pos, len := n, src := e.1, dst := e.2, id := 0, ready := true, writing := false, dat := w.buf.take n }
            let w := { w with pos := w.pos + n, buf := w.buf.drop n, pieces := w.pieces ++ [p] }
            (((s.setWork cab r w).writePiece cab r w p), true)
        else if opOf d = 2 then
          let p : Piece := { pos := w.pos, len := n, src := 0, dst := e.2, id := 0, ready := true, writing := false, dat := fillBytes d e.2 n }
          let w := { w with pos := w.pos + n, pieces := w.pieces ++ [p] }
          ((s.setWork cab r w).writePiece cab r w p, true)
        else if 2 ^ 32 ≤ e.1 then (s.failWork cab r w .fault 0, true)
        else
          let q := s.segReq cab r w.ctx 0 e.1 (2 ^ 64 - 1) false []
          let p : Piece := { pos := w.pos, len := n, src := e.1, dst := e.2, id := q.id, ready := false, writing := false, dat := [] }
          ((s.setWork cab r { w with pos := w.pos + n, pieces := w.pieces ++ [p] }).fresh.issueLoose q cab, true)

/-! Multicast -/

/-- The next item of a multicast to send: the oldest piece whose data is at hand (R347). -/
def nextItem (w : Work) : Option Piece :=
  match w.pieces with
  | p :: _ => if p.ready then some p else none
  | [] => none

/-- May the next item be sent to all receivers that have not lapsed? -/
def skidFree (w : Work) : Bool := w.rx.all (fun q => q.lapsed || decide (q.unacked.length < 4))

/-- Offset of an item in its receivers' cabinets, and how much of it lies in the block it begins in (R347). -/
def itemSplit (w : Work) (p : Piece) : Nat × Nat :=
  let off := dword w.desc 2 % 2 ^ 22 + p.pos
  (off, min p.len (64 - off % 64))

/-- Does an item cross a block at its receivers, so that it takes two segments each? -/
def itemCrosses (w : Work) (p : Piece) : Bool := decide ((itemSplit w p).2 < p.len)

/-- Send one receiver its next segment: the item, or the part of it that lies in its first block, with the access 0 in the place of the
second; on a later fc the rest. -/
def State.sendItem (s : State) (cab r : Nat) (w : Work) (p : Piece) (q : Rx) : State × Rx :=
  let d := w.desc
  let off := (itemSplit w p).1
  let n1 := (itemSplit w p).2
  let base := dword d 2 / 2 ^ 29 * 2 ^ 29 + q.cab * 2 ^ 22
  let o := if w.half then off + n1 else off
  let n := if w.half then p.len - n1 else n1
  let x := s.segReq cab r w.ctx (q.num + 1) (base + o) (bytesBe o n) true (placed o (if w.half then p.dat.drop n1 else p.dat.take n1))
  (s.fresh.issueLoose x cab,
    if w.half then { q with unacked := q.unacked.map (fun u => if u.1 = p.pos then (u.1, u.2.map (fun i => if i = 0 then x.id else i)) else u) }
    else { q with unacked := q.unacked ++ [(p.pos, if itemCrosses w p then [x.id, 0] else [x.id])], since := none })

/-- Send every receiver that has not lapsed its next segment. -/
def State.sendItems (s : State) (cab r : Nat) (w : Work) (p : Piece) : List Rx → State × List Rx
  | [] => (s, [])
  | q :: l =>
    let a := if q.lapsed then (s, q) else s.sendItem cab r w p q
    let b := a.1.sendItems cab r w p l
    (b.1, a.2 :: b.2)

/-- A multicast sends its next item to every receiver that has not lapsed, one segment each on this fc and a second one on the next where
the item crosses a block, when the 32 segments of R315 leave room for all of them (R347). -/
def State.castStep (s : State) (cab r : Nat) (w : Work) : State × Bool :=
  match nextItem w with
  | none => (s, false)
  | some p =>
    let live := (w.rx.filter (fun q => !q.lapsed)).length
    let more := itemCrosses w p && !w.half
    if w.half || (skidFree w && decide (outstanding (s.runner cab r) + live * (if more then 2 else 1) ≤ 32)) then
      let a := s.sendItems cab r w p w.rx
      ((a.1.setWork cab r { w with pieces := if more then w.pieces else w.pieces.drop 1, rx := a.2, half := more }), true)
    else (s, false)

/-- The lapse timers of full receivers count while an item waits; one that stands at LAPSE fires on this fc (R348). -/
def State.castTimers (s : State) (cab r : Nat) : State :=
  let lapse := s.f (R.RUN_MC_CFG_LAPSE cab)
  (s.runner cab r).works.foldl (fun s w =>
    if w.halted || w.half || decide (opOf w.desc ≠ 5) || (nextItem w).isNone || skidFree w then s
    else
      let rx := w.rx.map (fun q => if !q.lapsed && decide (4 ≤ q.unacked.length) && q.since.isNone then { q with since := some s.time.ufc } else q)
      let s := rx.foldl (fun s q => if q.since.any (fun t => decide (t + lapse ≤ s.time.ufc + 1)) then s.arm .unfz 0 (.mcastLapse (asCab cab) (asRun r) (Fin.ofNat 16 q.num)) else s) s
      s.setWork cab r { w with rx := rx }) s

/-- A receiver lapses (R281, R348): it is sent nothing more, its items leave the drain sets, the record names it. -/
def State.lapse (s : State) (cab r : Nat) (w : Work) (num : Nat) : State :=
  let ids := (w.rx.filter (fun q => decide (q.num = num))).flatMap (fun q => q.unacked.flatMap (fun u => u.2))
  let s := ids.foldl (fun s i => s.drained i) s
  let s := s.setWork cab r { w with rx := w.rx.map (fun q => if q.num = num then stopRx q else q) }
  (s.onList w.list.1 w.list.2 (fun l => { l with rec' := { l.rec' with lapsed := l.rec'.lapsed ||| 2 ^ num, lapseIndex := if l.rec'.lapseIndex = 0xFFFF then w.idx else l.rec'.lapseIndex } })).kick cab r

/-! Fetching and presenting -/

/-- Descriptors of the runner's list that wait for leave: they have not started (R314, R337). -/
def awaiting (x : RunSt) : Nat := if x.start.any (fun t => t.leave) then 1 + (x.fuse.map (fun f => f.chain.length)).getD 0 else 0

/-- Has the runner a descriptor to fetch? (R314) -/
def wantsFetch (x : RunSt) : Option RunList :=
  match x.run with
  | some l => if !l.ended && x.abort.isNone && decide (l.next < l.count) && decide (l.buf.length + l.fetching.length + awaiting x < 8) then some l else none
  | none => none

/-- Present a fetch. -/
def State.presentFetch (s : State) (cab r : Nat) (l : RunList) : State :=
  let fa := l.fa + 32 * l.next
  let q : LReq := { s.segReq cab r l.ctx 0 fa ((2 ^ 32 - 1) * 2 ^ (fa % 64)) false [] with org := .fetch cab r l.next }
  let s := s.onList cab r (fun l => { l with next := l.next + 1, fetching := l.fetching ++ [(q.id, l.next)] })
  if fa < 2 ^ 32 then s.fresh.issueLoose q cab else s.fresh.deliver q (noAns .fault 2)

/-- Stages that can push, pop or send without a presentation are served first; then one presentation, in turn among the
descriptors in progress (R315, R340). -/
def State.presentOne (s : State) (cab r : Nat) : State :=
  let x := s.runner cab r
  match wantsFetch x with
  | some l => s.presentFetch cab r l
  | none =>
    let n := x.works.length
    let go (acc : State × Bool) (k : Nat) : State × Bool :=
      if acc.2 then acc
      else
        match (acc.1.runner cab r).works[(x.turn + k) % n]? with
        | none => acc
        | some w =>
          let c := if opOf w.desc = 5 then acc.1.castStep cab r w else (acc.1, false)
          if c.2 then c
          else
            let w := ((c.1.runner cab r).works[(x.turn + k) % n]?).getD w
            c.1.presentWork cab r w
    let res := (List.range n).foldl go (s, false)
    res.1.setRunner cab r { res.1.runner cab r with turn := x.turn + 1 }

/-- An unfrozen fc spent in another state than RESERVE or RUN does not count for the deadlock watchdog (R346, R354). -/
def State.watchPause (s : State) (cab r : Nat) : State :=
  let x := s.runner cab r
  if s.frozen ∨ runState x = 2 ∨ runState x = 4 then s else s.setRunner cab r { x with moved := min s.time.ufc (x.moved + 1) }

/-- SEGMENT_PRESENT (R315, R340, R352): at most one segment per unfrozen fc and 32 outstanding. -/
def execSegmentPresent (cab : Cab) (r : Fin 4) (s : State) : Host.Outcome State Fault Refusal :=
  let s := s.watchPause cab r
  let x := s.runner cab r
  if x.abort.isSome || (x.run.isNone && x.works.isEmpty && x.start.isNone) then .next s
  else if s.frozen || s.draining cab then .next (s.arm .unfz 1 (.segmentPresent cab r))
  else
    let s := x.works.foldl (fun s w =>
      let s := if w.inF.isSome && !w.halted && decide (w.buf.length < 64) then s.arm .unfz 0 (.stagePop cab r) else s
      if w.outF.isSome && !w.halted then s.arm .unfz 0 (.stagePush cab r) else s) s
    let s := s.castTimers cab r
    let s := match (s.runner cab r).works.find? (fun w => w.half) with
      | some w => (s.castStep cab r w).1
      | none => if outstanding x < 32 then s.presentOne cab r else s
    .next (s.kick cab r)

/-- The answers for which `f` holds, and whose time has come, are taken up. -/
def State.takeAnswers (s : State) (f : Origin → Bool) : State × List (LReq × Ans × Nat) :=
  let mine (e : LReq × Ans × Nat) : Bool := f e.1.org && decide (e.2.2 ≤ s.time.ufc)
  ({ s with loose := { s.loose with acked := s.loose.acked.filter (fun e => !mine e) } }, s.loose.acked.filter mine)

/-- Bytes of an answer from a byte of its block. -/
def ansBytes (a : Ans) (off n : Nat) : List Byte := ((blockBytes a.dat 64).drop off).take n

/-- One answer of a segment (R316, R324, R333). -/
def State.segAnswer (s : State) (cab r : Nat) (e : LReq × Ans × Nat) : State :=
  let q := e.1
  let a := e.2.1
  let mine (w : Work) : Bool := decide (w.idxId = q.id) || w.pieces.any (fun p => decide (p.id = q.id))
  match (s.runner cab r).works.find? mine with
  | none => s
  | some w =>
    let s := s.progress cab r
    if w.idxId = q.id then
      let w' := { w with idxId := 0 }
      if w.halted then s.setWork cab r w'
      else if a.resp = .fault ∨ a.resp = .asleep then s.failWork cab r w' a.resp (accAddr q)
      else s.setWork cab r { w' with idxBlk := some (q.fa / 64, blockBytes a.dat 64) }
    else
      match w.pieces.find? (fun p => decide (p.id = q.id)) with
      | none => s
      | some p =>
        let rest := w.pieces.filter (fun y => decide (y.id ≠ q.id))
        if w.halted || p.writing then
          let s := s.setWork cab r { w with pieces := rest }
          if !w.halted && decide (a.resp = .fault ∨ a.resp = .asleep) then s.failWork cab r { w with pieces := rest } a.resp (accAddr q) else s
        else if a.resp = .fault ∨ a.resp = .asleep then s.failWork cab r { w with pieces := rest } a.resp (accAddr q)
        else s.setWork cab r { w with pieces := w.pieces.map (fun y => if y.id = q.id then { y with id := 0, ready := true, dat := ansBytes a (y.src % 64) y.len } else y) }

/-- SEGMENT_ANSWER (R316). -/
def execSegmentAnswer (cab : Cab) (r : Fin 4) (s : State) : Host.Outcome State Fault Refusal :=
  let t := s.takeAnswers (fun o => match o with
    | .seg c q 0 => decide (c = cab.val) && decide (q = r.val)
    | _ => false)
  .next (if t.2.isEmpty then s else ((t.2.foldl (fun s e => s.segAnswer cab r e) t.1).kick cab r).arm .unfz 1 (.abortComplete cab r))

/-- Insert a fetched descriptor by index. -/
def insertDesc (e : Nat × Nat) : List (Nat × Nat) → List (Nat × Nat)
  | [] => [e]
  | x :: l => if x.1 < e.1 then x :: insertDesc e l else e :: x :: l

/-- A fetch that failed stands in the buffer as a value no descriptor has, with its response. -/
def badFetch (r : Resp) : Nat := 2 ^ 256 + respCode r

/-- DESCRIPTOR_FETCH (R314): answers of fetches; a failed one ends the list when its index is due. -/
def execDescriptorFetch (cab : Cab) (r : Fin 4) (s : State) : Host.Outcome State Fault Refusal :=
  let t := s.takeAnswers (fun o => match o with
    | .fetch c q _ => decide (c = cab.val) && decide (q = r.val)
    | _ => false)
  .next (if t.2.isEmpty then s
    else
      let s := t.2.foldl (fun s e => s.onList cab r (fun l =>
        match l.fetching.find? (fun x => decide (x.1 = e.1.id)) with
        | none => l
        | some x =>
          let d := if e.2.1.resp = .fault ∨ e.2.1.resp = .asleep then badFetch e.2.1.resp else leNat (ansBytes e.2.1 (e.1.fa % 64 + (if beWord e.1.be 0 = 0 then 32 else 0)) 32)
          let l := { l with fetching := l.fetching.filter (fun y => decide (y.1 ≠ e.1.id)) }
          if l.ended then l else { l with buf := insertDesc (x.2, d) l.buf })) t.1
      (s.kick cab r).arm .unfz 1 (.abortComplete cab r))

/-! Starting -/

/-- Cabinets that a SWEEP touches. -/
def sweepCabs (d : Nat) : Nat := faCab (dword d 2) - faCab (dword d 1) + 1

/-- Put a validated descriptor in front of its operation, asking for leave first where it is large (R331, R337). -/
def State.setStart (s : State) (cab r idx d : Nat) (l : Nat × Nat) (op : Instr) : State :=
  let big := decide (2 ^ 20 < movedBytes d)
  let wide := decide (opOf d = 9) && decide (2 ^ 22 < dword d 2 + 32 - dword d 1)
  let s := s.setRunner cab r { s.runner cab r with start := some { idx := idx, desc := d, list := l, leave := big || wide } }
  if wide then s.leaveAsk (.sweepDesc cab r) (4 * sweepCabs d)
  else if big then s.leaveAsk (.desc cab r) 20
  else s.later .unfz 1 op

/-- The command that carries out a descriptor. -/
def opCmd (cab r d : Nat) : Instr :=
  let c := asCab cab
  let n := asRun r
  match opOf d with
  | 1 => .copy c n
  | 2 => .fill c n
  | 3 => .gather c n
  | 4 => .scatter c n
  | 5 => .mcast c n
  | 6 => .fuse c n
  | 7 => .wait c n
  | 8 => .signal c n
  | 9 => .sweep c n
  | _ => .nop c n

/-- Leave was granted to a runner: its descriptor starts. -/
def State.runnerLeave (s : State) (cab r : Nat) : State :=
  let x := s.runner cab r
  match x.start with
  | some t => (s.setRunner cab r { x with start := some { t with leave := false } }).later .unfz 1 (opCmd cab r t.desc)
  | none => s

/-- Has everything in progress been presented? The next descriptor then starts. -/
def allPresented (x : RunSt) : Bool := x.works.all (fun w => w.halted || (decide (streamLen w.desc ≤ w.pos) && w.pieces.all (fun p => p.writing)))

/-- Number of descriptors that start together: a FUSE with its stages. -/
def spanOf (d : Nat) : Nat := if opOf d = 6 ∧ d < 2 ^ 256 then stagesOf d + 1 else 1

/-- Skip the indices that were stolen. -/
def skipGone : Nat → List Nat → Nat → Nat
  | 0, _, i => i
  | fuel + 1, gone, i => if gone.contains i then skipGone fuel gone (i + 1) else i

/-- The fetched stages of a FUSE that stands at index `idx` (R338). -/
def chainOf (l : RunList) (idx hdr : Nat) : List Nat :=
  (List.range (stagesOf hdr)).filterMap (fun k => (l.buf.find? (fun e => decide (e.1 = idx + 1 + k))).map (fun e => e.2))

/-- Start the descriptor at the head of the buffer, or end the list (R314, R320, R332, R335). -/
def State.startDesc (s : State) (cab r : Nat) (l : RunList) (idx d : Nat) : State :=
  let x := s.runner cab r
  let n := spanOf d
  let bad := s.endList cab r 3 idx 0 0
  let chain := chainOf l idx d
  let failed (i w : Nat) : State := s.endList cab r (if w = badFetch .asleep then 2 else 1) i (w % 4) (l.fa + 32 * i)
  let popcount := ((List.range 8).filter (fun f => s.bit (bitFld (R.RUN_POOL cab) f))).length
  if 2 ^ 256 ≤ d then failed idx d
  else if !descOk s.die d then bad
  else if opOf d = 6 ∧ decide (l.count < idx + n) = true then bad
  else if opOf d = 6 ∧ chain.length < stagesOf d then s
  else if opOf d = 6 ∧ chain.any (fun w => decide (2 ^ 256 ≤ w)) = true then
    let k := chain.findIdx (fun w => decide (2 ^ 256 ≤ w))
    failed (idx + 1 + k) (chain.getD k 0)
  else if opOf d = 6 ∧ (!((List.range (stagesOf d)).all (fun k => stageOk s.die d k (chain.getD k 0))) || decide (popcount < stagesOf d - 1)) = true then bad
  else
    let l := { l with buf := l.buf.drop n, started := skipGone (l.gone.length + 1) l.gone (idx + n), live := l.live ++ (List.range n).map (fun i => idx + i), anchor := if isAnchor d then some idx else l.anchor }
    let f := if opOf d = 6 then some ({ idx := idx, desc := d, chain := chain, hand := [], phase := .reserve, todo := [], esg := false, running := [], since := s.time.ufc, aged := false } : Fuse) else x.fuse
    (s.setRunner cab r { x with run := some l, fuse := if opOf d = 6 then none else x.fuse, turn := 0 }).setStart cab r idx d (cab, r) (opCmd cab r d) |>.holdFuse cab r f

/-- DESCRIPTOR_START (R320, R332): an anchor waits for all before it, the others for the anchor before them. -/
def execDescriptorStart (cab : Cab) (r : Fin 4) (s : State) : Host.Outcome State Fault Refusal :=
  let x := s.runner cab r
  .next (if s.frozen || s.draining cab then (if x.run.isSome then s.arm .unfz 1 (.descriptorStart cab r) else s)
    else
      match x.run with
      | none => s
      | some l =>
        match l.buf with
        | [] => s
        | e :: _ =>
          if l.ended || x.abort.isSome || x.start.isSome || x.fuse.isSome || x.wait.isSome || x.sweep.isSome || decide (e.1 ≠ l.started) then s
          else if l.anchor.isSome || (isAnchor e.2 && decide (l.done < e.1)) || !allPresented x then s
          else (s.startDesc cab r l e.1 e.2).kick cab r)

/-- A fresh descriptor in progress. -/
def newWork (idx d ctx : Nat) (l : Nat × Nat) : Work :=
  { idx := idx, desc := d, ctx := ctx, list := l, stage := none, inF := none, outF := none, pos := 0, pieces := [], idxBlk := none, idxId := 0, buf := [], popped := 0, pushed := 0, rx := [], half := false, writes := [], halted := false }

/-- Context of a list that is running somewhere. -/
def State.listCtx (s : State) (l : Nat × Nat) : Nat := ((s.runner l.1 l.2).run.map (fun x => x.ctx)).getD 0

/-- The descriptor about to start, when it is of this opcode and holds its leave. -/
def starting (x : RunSt) (op : Nat) : Option Start :=
  match x.start with
  | some t => if opOf t.desc = op ∧ t.leave = false ∧ x.abort = none then some t else none
  | none => none

/-- Begin the stream of a descriptor. -/
def State.beginWork (s : State) (cab r op : Nat) : State :=
  let x := s.runner cab r
  match starting x op with
  | none => s
  | some t =>
    let w := newWork t.idx t.desc (s.listCtx t.list) t.list
    let w := if op = 5 then { w with rx := (receivers t.desc).map (fun q => ({ num := q.1, cab := q.2, unacked := [], lapsed := false, since := none } : Rx)) } else w
    (s.setRunner cab r { x with start := none, works := x.works ++ [w] }).kick cab r

/-- COPY (R322). -/
def execCopy (cab : Cab) (r : Fin 4) (s : State) : Host.Outcome State Fault Refusal := .next (s.beginWork cab r 1)
/-- FILL (R322). -/
def execFill (cab : Cab) (r : Fin 4) (s : State) : Host.Outcome State Fault Refusal := .next (s.beginWork cab r 2)
/-- GATHER (R324). -/
def execGather (cab : Cab) (r : Fin 4) (s : State) : Host.Outcome State Fault Refusal := .next (s.beginWork cab r 3)
/-- SCATTER (R324). -/
def execScatter (cab : Cab) (r : Fin 4) (s : State) : Host.Outcome State Fault Refusal := .next (s.beginWork cab r 4)
/-- MCAST (R347). -/
def execMcast (cab : Cab) (r : Fin 4) (s : State) : Host.Outcome State Fault Refusal := .next (s.beginWork cab r 5)

/-- The start is used up. -/
def State.started (s : State) (cab r : Nat) : State := s.setRunner cab r { s.runner cab r with start := none }

/-- NOP (R319). -/
def execNop (cab : Cab) (r : Fin 4) (s : State) : Host.Outcome State Fault Refusal :=
  .next (match starting (s.runner cab r) 15 with
  | some t => (s.started cab r).descDone t.list t.idx 1
  | none => s)

/-- Signals of a runner in its four places (R273). -/
def State.places (s : State) (cab r : Nat) : Nat :=
  (s.syn.signals.filter (fun g => decide (g.src = SigSrc.runner cab r) && decide (g.die = s.die) && (decide (g.place = SigPlace.port) || decide (g.place = SigPlace.held)))).length

/-- Signals of a runner that are neither applied nor refused (R334). -/
def State.liveSignals (s : State) (cab r : Nat) : Bool := s.syn.signals.any (fun g => decide (g.src = SigSrc.runner cab r) && decide (g.die = s.die))

/-- Send a loose signal of a runner's list, held until the release of the step the list belongs to (R84, R270, R313, R330); a refused one is
noted. -/
def State.runSignal (s : State) (cab r cn inc : Nat) : State :=
  let l := (s.runner cab r).run
  let ctx := (l.map (fun l => l.ctx)).getD 0
  let held := (l.map (fun l => l.held)).getD false
  let g : Sig := { id := 0, src := .runner cab r, die := s.die, ctx := some ctx, cn := cn, inc := inc, drain := [], place := .port, since := 0 }
  match s.sigCheck (some ctx) cn with
  | some cause => s.sigRefuse g 0x40 cause (some cab)
  | none => if s.replaying (some ctx) then s else s.issueSig (.runner cab r) (some ctx) cn inc [] held ((l.filter (fun l => l.held)).map (fun l => l.openAt))

/-- SIGNAL (R273, R330): it completes when one of the four places takes it; a fifth waits. -/
def execSignal (cab : Cab) (r : Fin 4) (s : State) : Host.Outcome State Fault Refusal :=
  .next (match starting (s.runner cab r) 8 with
  | some t =>
    if s.frozen || decide (4 ≤ s.places cab r) then s.arm .unfz 1 (.signal cab r)
    else ((s.runSignal cab r (dword t.desc 1 % 2 ^ 19) (t.desc / 65536 % 65536)).started cab r).descDone t.list t.idx 1
  | none => s)

/-- Register the runner's waiter for a descriptor, or end the list where it is refused (R329, R343). -/
def State.runWait (s : State) (cab r idx sel e limit : Nat) : State :=
  let x := s.runner cab r
  let ctx := (x.run.map (fun l => l.ctx)).getD 0
  match s.waitCheck cab sel (some ctx) with
  | some k =>
    let s := s.waitRefuse cab sel (2 + r) (some ctx) k.1 k.2
    let s := if x.fuse.isSome then (s.holdFuse cab r none).leaveBack (.desc cab r) else s
    s.endList cab r 1 idx 3 0
  | none =>
    let s := s.registerWtr cab (12 + r) sel e ctx
    let s := s.setRunner cab r { s.runner cab r with wait := some { idx := idx, limit := if limit = 0 then none else some (s.time.ufc + limit * 1024) } }
    if limit = 0 then s else s.later .unfz (limit * 1024) (.waitTimeout (asCab cab) (asRun r))

/-- WAIT (R329). -/
def execWait (cab : Cab) (r : Fin 4) (s : State) : Host.Outcome State Fault Refusal :=
  .next (match starting (s.runner cab r) 7 with
  | some t => ((s.started cab r).runWait cab r t.idx (t.desc / 65536 % 512) (dword t.desc 1 + dword t.desc 2 % 65536 * 2 ^ 32) (dword t.desc 3 % 65536)).kick cab r
  | none => s)

/-- WAIT_TIMEOUT (R329): the registration is cancelled and the list ends with TIMEOUT. -/
def execWaitTimeout (cab : Cab) (r : Fin 4) (s : State) : Host.Outcome State Fault Refusal :=
  let x := s.runner cab r
  .next (match x.wait with
  | some w =>
    match w.limit with
    | some t =>
      if decide (s.time.ufc < t) || s.bit (R.SYN_WTR_A_FIRED cab (12 + r.val)) then s
      else (((s.cancelWtr cab (12 + r.val)).setRunner cab r { x with wait := none }).endList cab r 4 w.idx 0 0).kick cab r
    | none => s
  | none => s)

/-- Does a range of granules lie in windows of the context with loose write permission? -/
def State.writable (s : State) (ctx last : Nat) : Nat → Nat → Bool
  | 0, _ => false
  | fuel + 1, g =>
    match s.winOf g with
    | none => false
    | some w =>
      if s.f (R.WIN_STATE_STATE w) = 1 ∧ s.f (R.WIN_STATE_CTX w) = ctx ∧ s.bit (bitFld (R.WIN_PART_C w) 3) = true then
        (if last ≤ s.f (R.WIN_PART_B_LIMIT w) then true else s.writable ctx last fuel (s.f (R.WIN_PART_B_LIMIT w) + 1))
      else false

/-- Queue a range of words at the sweep engines, logical cabinet by logical cabinet (R331, R397); a cabinet that is unmapped is
skipped. -/
def State.sweepParts (s : State) (gen first last : Nat) (org : SwpOrg) : State :=
  let parts := (List.range (faCab last - faCab first + 1)).filterMap (fun i =>
    let n := faCab first + i
    (s.mapped gen n).map (fun p => (p, if i = 0 then faWord first else 0, if n = faCab last then faWord last else 131071)))
  let s := { s with rep := { s.rep with swpWait := s.rep.swpWait ++ parts.map (fun e => (e.1, ({ base := e.2.1, limit := e.2.2, org := org, todo := [], busy := 0 } : SwpRange))) } }
  parts.foldl (fun s e =>
    let x : SwpRange := { base := e.2.1, limit := e.2.2, org := org, todo := [], busy := 0 }
    ({ s with rep := { s.rep with swpWait := s.rep.swpWait.filter (fun y => !decide (y = (e.1, x))) } }).sweepAdd e.1 x) s

/-- SWEEP (R331): permission and mapping of the whole range first, then the parts. -/
def execSweep (cab : Cab) (r : Fin 4) (s : State) : Host.Outcome State Fault Refusal :=
  .next (match starting (s.runner cab r) 9 with
  | some t =>
    let a := dword t.desc 1
    let b := dword t.desc 2
    let ctx := s.listCtx t.list
    let mapped := (List.range (sweepCabs t.desc)).all (fun i => (s.mapped (s.ctxGen ctx) (faCab a + i)).isSome)
    let s := s.started cab r
    if faDie a ≠ s.die ∨ s.writable ctx (faGran b) 65 (faGran a) = false ∨ mapped = false then
      ((s.leaveBack (.sweepDesc cab r)).endList cab r 1 t.idx 3 a).descDone t.list t.idx 0
    else
      let s := (s.setRunner cab r { s.runner cab r with sweep := some t.idx }).sweepParts (s.ctxGen ctx) a b (.desc cab r)
      s.arm .unfz 1 (.descriptorComplete cab r)
  | none => s)

/-! Fused commands -/

/-- FUSE (R344, R345): the request for hand-overs is made. -/
def execFuse (cab : Cab) (r : Fin 4) (s : State) : Host.Outcome State Fault Refusal :=
  let x := s.runner cab r
  .next (match starting x 6 with
  | some _ =>
    let s := s.setRunner cab r { x with start := none, fuse := x.fuse.map (fun f => { f with since := s.time.ufc, phase := .reserve }) }
    ((s.arm .unfz 0 (.handoverGrant cab)).later .unfz 4096 (.reservationAged cab r)).later .unfz 1048576 (.runnerWatchdog cab r)
  | none => s)

/-- RESERVATION_AGED (R345). -/
def execReservationAged (cab : Cab) (r : Fin 4) (s : State) : Host.Outcome State Fault Refusal :=
  let x := s.runner cab r
  .next (if reserving x ∧ x.fuse.any (fun f => decide (f.since + 4096 ≤ s.time.ufc)) = true then
    s.setRunner cab r { x with fuse := x.fuse.map (fun f => { f with aged := true }) } else s)

/-- Start the runner stages of a fused command. -/
def State.startStages (s : State) (cab r : Nat) : State :=
  let x := s.runner cab r
  match x.fuse with
  | none => s
  | some f =>
    let ctx := (x.run.map (fun l => l.ctx)).getD 0
    let works := (List.range f.chain.length).filterMap (fun k =>
      let d := f.chain.getD k 0
      if opOf d = 10 then none
      else some { newWork (f.idx + 1 + k) d ctx (cab, r) with stage := some k, inF := if k = 0 then none else some (f.hand.getD (k - 1) 0), outF := if k + 1 = f.chain.length then none else some (f.hand.getD k 0) })
    (s.setRunner cab r { x with fuse := some { f with phase := .running }, works := x.works ++ works }).kick cab r

/-- Grant hand-overs to a waiting request (R344, R375). -/
def State.grantHands (s : State) (cab r : Nat) (f : Fuse) (free : List Nat) : State :=
  let hand := free.take (stagesOf f.desc - 1)
  let w := itemsOf f.desc * prefetchOf f.desc
  let ctx := ((s.runner cab r).run.map (fun l => l.ctx)).getD 0
  let s := hand.foldl (fun s h => s.handTake cab h w ctx) s
  let eng := (List.range f.chain.length).filter (fun k => decide (opOf (f.chain.getD k 0) = 10))
  let s := s.setRunner cab r { s.runner cab r with fuse := some { f with hand := hand, phase := .engines, todo := eng } }
  if eng.isEmpty then s.startStages cab r else s.arm .unfz 1 (.engine (asCab cab) (asRun r))

/-- HANDOVER_GRANT (R344, R345, R352): one decision of the allocator; while a request waits it decides on every unfrozen fc. -/
def execHandoverGrant (cab : Cab) (s : State) : Host.Outcome State Fault Refusal :=
  if s.frozen then .next (s.arm .unfz 0 (.handoverGrant cab))
  else
    let aged (r : Nat) : Bool := (s.runner cab r).fuse.any (fun f => f.aged)
    let waits := (List.range 4).filter (fun r => reserving (s.runner cab r))
    let firstAged := waits.find? aged
    let s := waits.foldl (fun s r =>
      match (s.runner cab r).fuse with
      | none => s
      | some f =>
        let free := (List.range 8).filter (fun h => s.bit (bitFld (R.RUN_POOL cab) h) && !s.bit (bitFld (R.RUN_RSV_STAT cab) h))
        let allowed := match firstAged with
          | some a => f.aged && decide (r ≤ a) || (f.aged && !reserving (s.runner cab a))
          | none => true
        if allowed && decide (stagesOf f.desc - 1 ≤ free.length) then s.grantHands cab r f free else s) s
    .next (if (List.range 4).any (fun r => reserving (s.runner cab r)) then s.arm .unfz 1 (.handoverGrant cab) else s)

/-- ENGINE (R342): the start of the next ENGINE stage is presented on ESG, one runner of the cabinet at a time; after an ESG_ABORT the
next one, or the start that is held, is shown. -/
def execEngine (cab : Cab) (r : Fin 4) (s : State) : Host.Outcome State Fault Refusal :=
  let o := s.outNow (cab * 8 + 7)
  let again := s.bit (R.CAB_PORT_STAT_P_HFP cab) && decide (o.sb = 0) && (List.range 4).any (fun q => (s.runner cab q).fuse.any (fun f => f.esg))
  let s := if again || (s.esgAborting cab && decide (o.at' ≤ s.time.fc)) then (s.esgHide cab).esgNext cab else s
  let x := s.runner cab r
  .next (match x.fuse with
  | none => s
  | some f =>
    match f.todo with
    | [] => s
    | k :: _ =>
      if f.phase ≠ .engines ∨ f.esg = true then s
      else if s.frozen || s.esgAborting cab || (List.range 4).any (fun q => (s.runner cab q).fuse.any (fun g => g.esg)) then s.arm .unfz 1 (.engine cab r)
      else if s.bit (R.CAB_PORT_STAT_P_HFP cab) = false then ((s.haltAll cab r).endList cab r 9 (f.idx + 1 + k) 0 0).kick cab r
      else
        s.esgStart cab r f)

/-- ESG_ACK (R341, R342): the start that is presented on this fc is accepted. -/
def execEsgAck (cab : Cab) (s : State) : Host.Outcome State Fault Refusal :=
  .next (if s.bit (R.CAB_PORT_STAT_P_HFP cab) = false || s.frozen then s
    else
      match (List.range 4).find? (fun r => (s.runner cab r).fuse.any (fun f => s.esgShows cab f)) with
      | none => s
      | some r =>
        let x := s.runner cab r
        match x.fuse with
        | none => s
        | some f =>
          let f := { f with esg := false, running := f.running ++ f.todo.take 1, todo := f.todo.drop 1 }
          let s := (s.setRunner cab r { x with fuse := some f, moved := s.time.ufc }).esgOut cab r 0 0 8 8 0 0
          if f.todo.isEmpty then s.startStages cab r else s.arm .unfz 1 (.engine cab (asRun r)))

/-- ESG_DONE (R342, R354): the oldest accepted stage of the runner ends. -/
def execEsgDone (cab : Cab) (r : Fin 4) (s : State) : Host.Outcome State Fault Refusal :=
  let x := s.runner cab r
  .next (if s.bit (R.CAB_PORT_STAT_P_HFP cab) = false || s.frozen then s
    else
      match x.fuse with
      | none => s
      | some f => (s.setRunner cab r { x with fuse := some { f with running := f.running.drop 1 } }).kick cab r)

/-- Move data of pieces that have arrived in order into the buffer of a producing stage. -/
def gathered (w : Work) : Work :=
  let got := w.pieces.takeWhile (fun p => p.ready)
  { w with buf := w.buf ++ got.flatMap (fun p => p.dat), pieces := w.pieces.drop got.length }

/-- STAGE_PUSH (R339, R363): a producing stage pushes its next item when the hand-over takes it. -/
def execStagePush (cab : Cab) (r : Fin 4) (s : State) : Host.Outcome State Fault Refusal :=
  let x := s.runner cab r
  .next (if s.frozen then s
    else
      match x.fuse, x.works.find? (fun w => w.outF.isSome && !w.halted) with
      | some f, some w =>
        let w := gathered w
        let h := w.outF.getD 0
        if w.buf.length < 64 ∨ s.pushReady cab h = false then s.setWork cab r w
        else
          let n := itemsOf f.desc
          let i := itemOf ((List.range 8).map (fun k => BitVec.ofNat 64 (leNat ((w.buf.drop (8 * k)).take 8)))) (decide (w.pushed % n = 0)) (decide (w.pushed % n + 1 = n))
          ((s.fifoPush cab h i).setWork cab r { w with buf := w.buf.drop 64, pushed := w.pushed + 1 }).progress cab r
      | _, _ => s)

/-- STAGE_POP (R340, R364): a consuming stage pops an item when one is present; a FAULT fails the command. -/
def execStagePop (cab : Cab) (r : Fin 4) (s : State) : Host.Outcome State Fault Refusal :=
  let x := s.runner cab r
  .next (if s.frozen then s
    else
      match x.works.find? (fun w => w.inF.isSome && !w.halted) with
      | none => s
      | some w =>
        let h := w.inF.getD 0
        match s.popReady cab h with
        | none => s
        | some i =>
          if 64 ≤ w.buf.length ∨ streamLen w.desc ≤ w.pos + w.buf.length then s
          else
            let p := s.fifoPop cab h i
            if p.2.1 then (p.1.setWork cab r { w with buf := w.buf ++ p.2.2.flatMap (fun q => leBytes 8 q.toNat), popped := w.popped + 1 }).progress cab r
            else ((p.1.haltAll cab r).endList cab r 1 w.idx 3 0).kick cab r)

/-! Multicast answers -/

/-- An access that only the end of the list waited for is answered (R334). -/
def State.answered (s : State) (cab r id : Nat) : State :=
  if (s.runner cab r).stray.contains id then s.setRunner cab r { s.runner cab r with stray := (s.runner cab r).stray.filter (fun i => decide (i ≠ id)), moved := s.time.ufc } else s

/-- MCAST_ACK (R347, R348): the writes of an item at a receiver are answered; a FAULT or ASLEEP lapses the receiver. -/
def execMcastAck (cab : Cab) (r : Fin 4) (rx : Fin 16) (s : State) : Host.Outcome State Fault Refusal :=
  let t := s.takeAnswers (fun o => match o with
    | .seg c q n => decide (c = cab.val) && decide (q = r.val) && decide (n = rx.val + 1)
    | _ => false)
  .next (t.2.foldl (fun s e =>
    match (s.runner cab r).works.find? (fun w => w.rx.any (fun q => q.unacked.any (fun u => u.2.contains e.1.id))) with
    | none => s
    | some w =>
      let s := s.progress cab r
      let take (q : Rx) : Rx :=
        let left := (q.unacked.map (fun u => (u.1, u.2.filter (fun i => decide (i ≠ e.1.id))))).filter (fun u => !u.2.isEmpty)
        if q.num = rx.val then { q with unacked := left, since := if left.length < q.unacked.length then none else q.since } else q
      let done := w.halted || w.rx.any (fun q => decide (q.num = rx.val) && q.lapsed)
      let w := { w with rx := w.rx.map take }
      let s := (s.setWork cab r w).kick cab r
      if !done && decide (e.2.1.resp = .fault ∨ e.2.1.resp = .asleep) then s.lapse cab r w rx else s) (t.2.foldl (fun s e => s.answered cab r e.1.id) t.1))

/-- MCAST_LAPSE (R348): a timer that has counted LAPSE lapses its receiver. -/
def execMcastLapse (cab : Cab) (r : Fin 4) (rx : Fin 16) (s : State) : Host.Outcome State Fault Refusal :=
  let full (w : Work) : Bool := w.rx.any (fun q => decide (q.num = rx.val) && !q.lapsed && q.since.any (fun t => decide (t + s.f (R.RUN_MC_CFG_LAPSE cab) ≤ s.time.ufc + 1)))
  .next (match (s.runner cab r).works.find? full with
  | some w => s.lapse cab r w rx
  | none => s)

/-! Completion -/

/-- Is a descriptor in progress complete? Its stream is through and its writes are drained (R333, R347). -/
def State.workOver (s : State) (w : Work) : Bool :=
  if w.halted then w.pieces.isEmpty && decide (w.idxId = 0) && w.rx.all (fun q => q.unacked.isEmpty)
  else
    decide (streamLen w.desc ≤ w.pos) && w.pieces.isEmpty && w.buf.isEmpty && w.writes.all (fun i => !s.syn.undrained.any (fun u => decide (u.1 = i))) &&
      w.rx.all (fun q => q.lapsed || q.unacked.isEmpty)

/-- A fused command whose last stage has finished releases its hand-overs, then ends or builds its barrier (R343). -/
def State.fuseStep (s : State) (cab r : Nat) : State :=
  let x := s.runner cab r
  match x.fuse with
  | none => s
  | some f =>
    let lastOver := !(x.works.any (fun w => decide (w.stage = some (f.chain.length - 1)))) && !f.running.contains (f.chain.length - 1)
    if f.phase = .running ∧ lastOver = true ∧ x.works.isEmpty = true then
      let s := f.hand.foldl (fun s h => s.handFree cab h) s
      if barrierOf f.desc then
        s.setRunner cab r { s.runner cab r with fuse := some { f with hand := [], phase := .barrier, running := [], todo := (List.range 8).filter (fun n => decide (dword f.desc 2 / 2 ^ (8 + n) % 2 = 1)) } }
      else ((s.setRunner cab r { s.runner cab r with fuse := none }).leaveBack (.desc cab r)).descDone (cab, r) f.idx (stagesOf f.desc + 1)
    else if f.phase = .barrier then
      match f.todo with
      | n :: rest =>
        if 4 ≤ s.places cab r then s
        else
          let s := s.runSignal cab r (n * 65536 + 256 + dword f.desc 2 % 256) 1
          s.setRunner cab r { s.runner cab r with fuse := some { f with todo := rest } }
      | [] =>
        let s := s.setRunner cab r { x with fuse := some { f with phase := .waiting } }
        s.runWait cab r f.idx (256 + dword f.desc 2 % 256) (dword f.desc 3 + dword f.desc 4 % 65536 * 2 ^ 32) 0
    else s

/-- A wait that has fired completes its descriptor, or the barrier of a fused command. -/
def State.waitStep (s : State) (cab r : Nat) : State :=
  let x := s.runner cab r
  match x.wait with
  | none => s
  | some w =>
    if s.bit (R.SYN_WTR_A_FIRED cab (12 + r)) then
      let n := match x.fuse with
        | some f => stagesOf f.desc + 1
        | none => 1
      ((s.setRunner cab r { x with wait := none, fuse := none }).leaveBack (.desc cab r)).descDone (cab, r) w.idx n
    else s

/-- A sweep whose last part is complete completes its descriptor and returns its leave (R331). -/
def State.sweepStep (s : State) (cab r : Nat) : State :=
  let x := s.runner cab r
  match x.sweep with
  | none => s
  | some i => if s.sweepLeft (.desc cab r) then s else ((s.setRunner cab r { x with sweep := none }).leaveBack (.sweepDesc cab r)).descDone (cab, r) i 1

/-- DESCRIPTOR_COMPLETE (R333, R335, R351): streams that are through leave; a stolen one counts at its own list. -/
def execDescriptorComplete (cab : Cab) (r : Fin 4) (s : State) : Host.Outcome State Fault Refusal :=
  let past := (s.runner cab r).works.filter (fun w => s.workOver w)
  let s := past.foldl (fun s w =>
    let x := s.runner cab r
    let s := s.setRunner cab r { x with works := x.works.filter (fun y => !(decide (y.idx = w.idx) && decide (y.list = w.list))), stray := x.stray ++ w.rx.flatMap (fun q => q.unacked.flatMap (fun u => u.2)) }
    let s := if 2 ^ 20 < movedBytes w.desc ∧ w.stage.isNone = true then s.leaveBack (.desc cab r) else s
    if w.stage.isSome then s else s.descDone w.list w.idx (if w.halted then 0 else 1)) s
  let s := ((s.waitStep cab r).sweepStep cab r).fuseStep cab r
  let x := s.runner cab r
  .next (if x.run.isNone && x.works.isEmpty then s.nextList cab r
    else if x.works.isEmpty && x.fuse.isNone && x.wait.isNone && x.sweep.isNone then s
    else s.arm .unfz 1 (.descriptorComplete cab r))

/-- Streams that thieves perform for a list. -/
def State.thieves (s : State) (cab r : Nat) : List (Nat × Work) :=
  s.runners.flatMap (fun e => (e.2.works.filter (fun w => decide (w.list = (cab, r)) && decide (e.1 ≠ cab * 4 + r))).map (fun w => (e.1, w)))

/-- Is a stolen descriptor of the list on its way or about to start elsewhere? -/
def State.stolenWaiting (s : State) (cab r : Nat) : Bool :=
  s.runners.any (fun e => e.2.theft.any (fun t => decide (t.list = (cab, r))) || (decide (e.1 ≠ cab * 4 + r) && e.2.start.any (fun t => decide (t.list = (cab, r)))))

/-- Put a completion record at the tail of the queue and turn to the next list (R334). -/
def State.finishList (s : State) (cab r : Nat) (l : RunList) : State :=
  let x := s.runner cab r
  (s.setRunner cab r { x with run := none, abort := none, cmpl := x.cmpl ++ [{ l.rec' with done := l.done % 65536 }] }).nextList cab r |>.arm .wall 1 (.completionPost 2)

/-- Are the conditions of R334 met? -/
def State.listOver (s : State) (cab r : Nat) (x : RunSt) (l : RunList) : Bool :=
  (l.ended || decide (l.count ≤ l.started)) && x.works.isEmpty && x.start.isNone && x.fuse.isNone && x.wait.isNone && x.sweep.isNone && l.fetching.isEmpty && x.stray.isEmpty &&
    (s.thieves cab r).isEmpty && !s.stolenWaiting cab r && !s.liveSignals cab r

/-- LIST_COMPLETE (R334). -/
def execListComplete (cab : Cab) (r : Fin 4) (s : State) : Host.Outcome State Fault Refusal :=
  let x := s.runner cab r
  .next (match x.run with
  | none => s
  | some l =>
    if x.abort.isSome then s
    else if s.listOver cab r x l then s.finishList cab r l
    else s.arm .unfz 1 (.listComplete cab r))

/-- CMPL_POP (R359): the head record goes; a runner that waited for space goes on. -/
def execCmplPop (m : Master) (cab : Cab) (r : Fin 4) (v : W32) (s : State) : Host.Outcome State Fault Refusal :=
  .next (s.row m (.cmplPop m cab r v) (fun s => s.gateAt (schMaster m) m cab (R.RUN_RN_CMPL_POP cab r) (fun s =>
    let x := s.runner cab r
    if vbit v 0 then (s.setRunner cab r { x with cmpl := x.cmpl.drop 1 }).nextList cab r else s)))

/-! Abort -/

/-- Take back what was not granted of the accesses in a list of identifiers (R164, R353). A flit of one that is on the mesh goes on to its target,
since it leaves the mesh in no other way (R167), and is not performed there. -/
def State.withdrawIds (s : State) (ids : List Nat) : State × List Nat :=
  let w := s.withdraw (fun _ q => ids.contains q.id)
  let fl := w.1.loose.flits.filter (fun f => ids.contains f.acc.id && f.ans.isNone)
  let s := { w.1 with loose := { w.1.loose with recalled := w.1.loose.recalled ++ fl.map (fun f => f.acc.id) } }
  let gone := w.2.map (fun e => e.2.id) ++ fl.map (fun f => f.acc.id)
  (gone.foldl (fun s i => s.drained i) s, gone)

/-- Accesses of a stream in progress. -/
def workIds (w : Work) : List Nat := w.idxId :: w.pieces.map (fun p => p.id) ++ w.rx.flatMap (fun q => q.unacked.flatMap (fun u => u.2))

/-- Forget accesses of a stream that were taken back. -/
def forgetIds (ids : List Nat) (w : Work) : Work :=
  let less (q : Rx) : Rx := { q with unacked := (q.unacked.map (fun u => (u.1, u.2.filter (fun i => !ids.contains i)))).filter (fun u => !u.2.isEmpty) }
  { w with idxId := if ids.contains w.idxId then 0 else w.idxId, pieces := w.pieces.filter (fun p => !ids.contains p.id), rx := w.rx.map less }

/-- Abort the running list with a status (R353): unstarted work is withdrawn here and at thieves, waiters are cancelled,
unreleased signals discarded, hand-overs flushed. -/
def State.abortList (s : State) (cab r status : Nat) : State :=
  let x := s.runner cab r
  match x.run with
  | none => s
  | some l =>
    let ids := (x.works.filter (fun w => decide (w.list = (cab, r)))).flatMap workIds ++ (s.thieves cab r).flatMap (fun e => workIds e.2) ++ l.fetching.map (fun e => e.1) ++ x.stray
    let w := s.withdrawIds (ids.filter (fun i => decide (i ≠ 0)))
    let s := w.1
    let fix (y : RunSt) : RunSt :=
      { y with works := y.works.map (fun k => if k.list = (cab, r) then forgetIds w.2 (haltWork k) else k), start := if y.start.any (fun t => decide (t.list = (cab, r))) then none else y.start, theft := if y.theft.any (fun t => decide (t.list = (cab, r))) then none else y.theft }
    let took := s.runners.filter (fun e => (e.2.start.any (fun t => decide (t.list = (cab, r))) || e.2.theft.any (fun t => decide (t.list = (cab, r)))) && decide (e.1 ≠ cab * 4 + r))
    let s := { s with runners := s.runners.map (fun (e : Nat × RunSt) => (e.1, fix e.2)) }
    let s := took.foldl (fun s e => ((s.leaveDrop (.desc (e.1 / 4) (e.1 % 4))).leaveBack (.desc (e.1 / 4) (e.1 % 4))).kick (e.1 / 4) (e.1 % 4)) s
    let s := (s.leaveDrop (.desc cab r)).leaveDrop (.sweepDesc cab r)
    let s := if x.start.isSome then (s.leaveBack (.desc cab r)).leaveBack (.sweepDesc cab r) else s
    let s := if x.wait.isSome then s.cancelWtr cab (12 + r) else s
    let s := s.dropSigs (fun g => decide (g.src = SigSrc.runner cab r) && decide (g.die = s.die) && (decide (g.place = SigPlace.port) || decide (g.place = SigPlace.held)))
    let s := s.dropFuse cab r
    let y := s.runner cab r
    let l := { l with ended := true, buf := [], fetching := l.fetching.filter (fun e => !w.2.contains e.1), rec' := { l.rec' with status := status } }
    let s := s.setRunner cab r { y with run := some l, wait := none, abort := some status, stray := y.stray.filter (fun i => !w.2.contains i) }
    (s.arm .unfz 1 (.abortComplete (asCab cab) (asRun r))).kick cab r

/-- RUNNER_ABORT (R353): a write by SCH, SEC or DBG ends the list with ABORTED. The abort that a fault or a replay of the list's context brings
about is no control access (R87, R353). -/
def execRunnerAbort (m : Master) (cab : Cab) (r : Fin 4) (v : W32) (s : State) : Host.Outcome State Fault Refusal :=
  let x := s.runner cab r
  .next (match x.doomed.filter (fun d => m == .sch && decide (d.2 ≤ s.time.fc)) with
  | some d =>
    let s := s.setRunner cab r { x with doomed := none }
    if x.abort.isNone && x.run.any (fun l => s.faulted l.ctx || (l.held && s.replaying (some l.ctx))) then s.abortList cab r d.1 else s
  | none => s.row m (.runnerAbort m cab r v) (fun s => s.gateAt (schMaster m) m cab (R.RUN_RN_ABORT cab r) (fun s => if !vbit v 0 || x.abort.isSome then s else s.abortList cab r 6)))

/-- ABORT_COMPLETE (R353): the hand-overs abandoned on the fc before are flushed, and 64 fc later they return to the pool; once every granted segment is answered the record is placed, before them or
after them. -/
def execAbortComplete (cab : Cab) (r : Fin 4) (s : State) : Host.Outcome State Fault Refusal :=
  let x := s.runner cab r
  let back := x.returning.filter (fun e => decide (e.2 ≤ s.time.fc))
  let s := (x.returning.filter (fun e => decide (e.2 = s.time.fc + 63))).foldl (fun s e => s.fifoFlush cab e.1) s
  let s := (back.foldl (fun s e => s.handFree cab e.1) s)
  let x := { s.runner cab r with returning := x.returning.filter (fun e => !decide (e.2 ≤ s.time.fc)) }
  let x := { x with works := x.works.filter (fun w => !(w.halted && s.workOver w && decide (w.list = (cab.val, r.val)) && x.abort.isSome)) }
  let s := s.setRunner cab r x
  .next (match x.abort, x.run with
  | some _, some l =>
    if x.works.isEmpty && l.fetching.isEmpty && x.stray.isEmpty && x.sweep.isNone && (s.thieves cab r).isEmpty && decide (x.cmpl.length < 4) then s.finishList cab r l
    else s.arm .unfz 1 (.abortComplete cab r)
  | _, _ => s)

/-- RUNNER_WATCHDOG (R346): 1048576 unfrozen fc in RESERVE or RUN without progress end the list with WATCHDOG. -/
def execRunnerWatchdog (cab : Cab) (r : Fin 4) (s : State) : Host.Outcome State Fault Refusal :=
  let x := s.runner cab r
  let st := runState x
  .next (if x.run.isNone then s
    else if (st = 2 ∨ st = 4) ∧ x.moved + 1048576 ≤ s.time.ufc then s.abortList cab r 5
    else s.arm .unfz (max 1 (x.moved + 1048576 - s.time.ufc)) (.runnerWatchdog cab r))

/-! Work stealing -/

/-- The stealable descriptors that follow each other from index `i` on, up to an anchor or to one that is not fetched. -/
def openFrom (gone : List Nat) : List (Nat × Nat) → Nat → List (Nat × Nat)
  | [], _ => []
  | e :: l, i =>
    if e.1 ≠ skipGone (gone.length + 1) gone i ∨ 2 ^ 256 ≤ e.2 ∨ isAnchor e.2 = true then []
    else (if stealable e.2 then [e] else []) ++ openFrom gone l (e.1 + 1)

/-- Open descriptors of a runner: fetched, stealable, not started, as one that waits for leave, with no anchor between them and the list's
position (R349). -/
def openDescs (x : RunSt) : List (Nat × Nat) :=
  match x.run with
  | some l =>
    if l.ended || l.anchor.isSome || x.abort.isSome then []
    else ((x.start.toList.filter (fun t => t.leave && stealable t.desc)).map (fun t => (t.idx, t.desc))) ++ openFrom l.gone l.buf l.started
  | none => []

/-- Is the runner idle? -/
def idleRunner (x : RunSt) : Bool := decide (runState x = 0) && x.queue.isEmpty

/-- The victim of a look, ties to the lower runner ID (R350). -/
def State.victim (s : State) (cab : Nat) : Option (Nat × Nat) :=
  let cands := s.runners.filter (fun e =>
    decide (cluster (e.1 / 4) = cluster cab) && s.bit (R.RUN_CFG_STEAL_EN (e.1 / 4)) && decide (2 ≤ (openDescs e.2).length) &&
      !e.2.robbed.any (fun t => decide (s.time.ufc < t + 16)))
  let most := cands.foldl (fun m e => max m (openDescs e.2).length) 0
  (cands.find? (fun e => decide ((openDescs e.2).length = most))).map (fun e => (e.1 / 4, e.1 % 4))

/-- STEAL_LOOK (R349, R350, R352): an idle thief takes the open descriptor of the greatest index. -/
def execStealLook (cab : Cab) (r : Fin 4) (s : State) : Host.Outcome State Fault Refusal :=
  let x := s.runner cab r
  .next (if s.frozen || !idleRunner x || !s.bit (R.RUN_CFG_THIEF_EN cab) || decide (s.pow cab ≠ 0) || s.fenced cab then s
    else
      match s.victim cab with
      | none => s
      | some v =>
        let y := s.runner v.1 v.2
        match (openDescs y).getLast? with
        | none => s
        | some e =>
          let s := s.setRunner v.1 v.2 { y with robbed := some s.time.ufc, run := y.run.map (fun l => { l with buf := l.buf.filter (fun z => decide (z.1 ≠ e.1)), gone := l.gone ++ [e.1], live := l.live ++ [e.1] }) }
          let s := s.setRunner cab r { s.runner cab r with theft := some { list := v, idx := e.1, desc := e.2 } }
          ((s.inc (R.RUN_RN_CNT_STOLEN_FROM v.1 v.2)).inc (R.RUN_RN_CNT_STOLEN_BY cab r)).later .wall 16 (.stealArrive cab r))

/-- STEAL_ARRIVE (R335, R350, R351): the thief performs the descriptor for the victim's list, unless that list has ended meanwhile. -/
def execStealArrive (cab : Cab) (r : Fin 4) (s : State) : Host.Outcome State Fault Refusal :=
  let x := s.runner cab r
  .next (match x.theft with
  | none => s
  | some t =>
    let s := s.setRunner cab r { x with theft := none }
    if (s.runner t.list.1 t.list.2).run.any (fun l => !l.ended) = false then s.nextList cab r
    else if descOk s.die t.desc then (s.setStart cab r t.idx t.desc t.list (opCmd cab r t.desc)).kick cab r
    else ((s.endList t.list.1 t.list.2 3 t.idx 0 0).descDone t.list t.idx 0).nextList cab r)

end Sys2Proof.Machine
end

