-- ==== Sys2Proof/Machine/Context.lean ====
section
/-! DEFINITION. Contexts, engine attachment groups and windows: the commands of CTX.CMD and WIN.BIND, the closing of a window
and the phases of a kill (chapter "Contexts, windows and protection"). -/
namespace Sys2Proof.Machine

/-- The reading that the unfrozen clock has on the first unfrozen fc after this one. -/
def State.nextU (s : State) : Nat := if s.frozen then s.time.ufc else s.time.ufc + 1

/-! Contexts -/

/-- A refused context command (R385, R405). -/
def State.ctxRej (s : State) (cause : Nat) : State := s.puts [(R.CTX_CMD_STAT_REJ, 1), (R.CTX_CMD_STAT_CAUSE, cause)]

/-- A context command: its masters and its state first (R385). -/
def State.ctxCmd (s : State) (m : Master) (ok : Bool) (c st : Nat) (f : State → State) : State :=
  s.gate ok m R.CTX_CMD (fun s => if s.ctxState c = st then f (s.put R.CTX_CMD_STAT_DONE 0) else s.ctxRej 1)

/-- CTX_ACTIVATE (R385, R386). -/
def execCtxActivate (m : Master) (c : Ctx) (s : State) : Host.Outcome State Fault Refusal :=
  .next (s.row m (.ctxActivate m c) (fun s => s.ctxCmd m (m == .sec) c 0 (fun s =>
    s.puts [(R.CTX_STAT_OWNER c, s.f R.CTX_OWNER_IN_OWNER), (R.CTX_STAT_STATE c, 1), (R.CTX_CMD_STAT_DONE, 1)])))

/-- CTX_DEACTIVATE (R385). -/
def execCtxDeactivate (m : Master) (c : Ctx) (s : State) : Host.Outcome State Fault Refusal :=
  .next (s.row m (.ctxDeactivate m c) (fun s => s.ctxCmd m (m == .sec) c 1 (fun s => s.puts [(R.CTX_STAT_OWNER c, 0), (R.CTX_STAT_STATE c, 0), (R.CTX_CMD_STAT_DONE, 1)])))

/-- CTX_BIND (R385, R33, R252): the current generation and the fence mask are recorded. -/
def execCtxBind (m : Master) (c : Ctx) (s : State) : Host.Outcome State Fault Refusal :=
  .next (s.row m (.ctxBind m c) (fun s => s.ctxCmd m (m == .sch || m == .dbg) c 1 (fun s =>
    let s := s.puts [(bitFld R.IDV_CMAP_CTXGEN c, s.cur), (R.CTX_STAT_GEN c, s.cur), (R.CTX_STAT_STATE c, 2), (R.CTX_CMD_STAT_DONE, 1)]
    (List.range 4).foldl (fun s k => s.setReg (R.CTX_FMASK c k) (s.reg (R.IDV_FENCE_MASK k))) s)))

/-- EAG_WRITE (R387). -/
def execEagWrite (m : Master) (p : Cab) (v : W32) (s : State) : Host.Outcome State Fault Refusal :=
  let c := v.toNat % 16
  let bad := vbit v 4 && (decide (s.ctxState c ≠ 2) || (s.bit (R.CTX_EAG_V p) && decide (s.f (R.CTX_EAG_CTX p) ≠ c)))
  .next (s.row m (.eagWrite m p v) (fun s => s.gate ((m == .sch || m == .dbg) && !bad) m (R.CTX_EAG p) (fun s => s.puts [(R.CTX_EAG_CTX p, c), (R.CTX_EAG_V p, if vbit v 4 then 1 else 0)])))

/-! Windows -/

/-- Windows in a state and bound to a context. -/
def State.winsOf (s : State) (c st : Nat) : List Nat :=
  (List.range 64).filter (fun w => decide (s.f (R.WIN_STATE_STATE w) = st) && decide (s.f (R.WIN_STATE_CTX w) = c) && !decide (s.ctx.busy = some (w, 3)))

/-- Is a context being killed, from the write of KILL on? -/
def State.killing (s : State) (c : Nat) : Bool := s.ctx.kills.any (fun k => decide (k.ctx = c))

/-- The window is FREE or KEPT: an UNBIND or RELEASE of it is complete (R391). -/
def State.winEnd (s : State) (w : Nat) : State :=
  if s.ctx.busy.any (fun b => decide (b.1 = w)) then
    ({ s with ctx := { s.ctx with busy := none } }).puts [(R.WIN_BIND_STAT_BUSY, 0), (R.WIN_BIND_STAT_DONE, 1)]
  else s

/-- The sweep of a window (R397): above 4 MiB the whole of it waits for leave, four units for each cabinet (R196). -/
def State.winSweep (s : State) (w gen : Nat) : State :=
  let b := s.f (R.WIN_PART_A_BASE w)
  let l := s.f (R.WIN_PART_B_LIMIT w)
  s.sweepParts gen (s.die * 2 ^ 29 + b * 4096) (s.die * 2 ^ 29 + l * 4096 + 4095) (.window w)

/-- Start the sweep of a SWEEPING window, or ask for the leave it needs. -/
def State.winClear (s : State) (w gen : Nat) : State :=
  let b := s.f (R.WIN_PART_A_BASE w)
  let l := s.f (R.WIN_PART_B_LIMIT w)
  if 1024 < l + 1 - b then s.leaveAsk (.window w) (4 * (l / 1024 - b / 1024 + 1))
  else
    let s := s.winSweep w gen
    if s.sweepLeft (.window w) then s else s.arm .wall 1 (.windowSweepDone (Fin.ofNat 64 w))

/-- Generation under which a SWEEPING window is swept: KGEN under RELEASE, else its context's (R391, R396). -/
def State.winGen (s : State) (w : Nat) : Nat :=
  if s.ctx.busy = some (w, 3) then s.f (R.WIN_STATE_KGEN w) else s.ctxGen (s.f (R.WIN_STATE_CTX w))

/-- The leave of a window's sweep is granted (R196, R500). -/
def State.winLeave (s : State) (w : Nat) : State :=
  let s := s.winSweep w (s.winGen w)
  if s.sweepLeft (.window w) then s else s.arm .wall 1 (.windowSweepDone (Fin.ofNat 64 w))

/-- Steps 1 and 2 of R396: CLOSED, and every request to its granules that no pair has granted is answered. -/
def State.winClose (s : State) (w : Nat) : State :=
  let s := s.put (R.WIN_STATE_STATE w) 2
  let t := s.withdraw (fun _ q => decide (q.cls ≠ .free) && s.winHas w (faGran q.fa))
  t.2.foldl (fun s e => (s.violate e.2.req (some e.1) e.2.ctx (accAddr e.2) w 4).reply e.2 (noAns .fault 2) e.1) t.1

/-- Steps 3 and 4 of R396: KEPT, or SWEEPING with its sweep. -/
def State.winSettle (s : State) (w : Nat) : State :=
  let c := s.f (R.WIN_STATE_CTX w)
  if s.bit (R.WIN_PART_C_KEEP_ON_KILL w) then
    (s.puts [(R.WIN_STATE_STATE w, 4), (R.WIN_STATE_CTX w, 0), (R.WIN_STATE_KOWNER w, s.f (R.CTX_STAT_OWNER c)), (R.WIN_STATE_KGEN w, s.ctxGen c)]).winEnd w
  else (s.put (R.WIN_STATE_STATE w) 3).winClear w (s.ctxGen c)

/-- A refused window command (R391, R409). -/
def State.winRej (s : State) (cause : Nat) : State := s.puts [(R.WIN_BIND_STAT_REJ, 1), (R.WIN_BIND_STAT_CAUSE, cause)]

/-- Masters of WIN.BIND (R391). -/
def winMaster (m : Master) : Bool := m == .sch || m == .sec || m == .dbg

/-- The first cause for which a BIND is refused, in the order of R409; 0 for none. -/
def State.bindCause (s : State) (w c : Nat) : Nat :=
  let st := s.f (R.WIN_STATE_STATE w)
  if s.bit (R.WIN_PART_B_VALID w) = false then 1
  else if s.bit (bitFld (R.WIN_PART_C w) (16 + c)) = false then 2
  else if s.ctxState c ≠ 2 ∨ s.killing c = true then 3
  else if st ≠ 0 ∧ st ≠ 4 then 4
  else if st = 4 ∧ s.f (R.WIN_STATE_KOWNER w) ≠ s.f (R.CTX_STAT_OWNER c) then 5
  else if st = 4 ∧ s.f (R.WIN_STATE_KGEN w) ≠ s.ctxGen c then 6
  else if s.ctx.busy.isSome = true then 9
  else 0

/-- Keep what a BIND changes while its fc lasts (R404). -/
def State.noteBind (s : State) (w c : Nat) : State :=
  let b : Bound := { win := w, ctx := c, fc := s.time.fc, state := s.reg (R.WIN_STATE w), stat := s.reg R.WIN_BIND_STAT }
  { s with ctx := { s.ctx with binds := s.ctx.binds.filter (fun (x : Bound) => decide (x.fc = s.time.fc)) ++ [b] } }

/-- WINDOW_BIND (R391): what it changes is kept for a KILL of the same fc, which refuses it (R404). -/
def execWindowBind (m : Master) (w : Win) (c : Ctx) (s : State) : Host.Outcome State Fault Refusal :=
  .next (s.row m (.windowBind m w c) (fun s => s.gate (winMaster m) m R.WIN_BIND (fun s =>
    if s.bindCause w c = 0 then
      (s.noteBind w c).puts [(R.WIN_STATE_STATE w, 1), (R.WIN_STATE_CTX w, c), (R.WIN_STATE_KGEN w, 0), (R.WIN_STATE_KOWNER w, 0), (R.WIN_BIND_STAT_DONE, 1)]
    else s.winRej (s.bindCause w c))))

/-- The command under way goes on: an UNBIND is accepted (2), its window closed (4), the 16 fc of R396 over (5). -/
def State.winStage (s : State) (w op : Nat) : State := { s with ctx := { s.ctx with busy := some (w, op) } }

/-- An UNBIND or RELEASE is accepted. -/
def State.winBusy (s : State) (w op : Nat) : State :=
  ({ s with ctx := { s.ctx with busy := some (w, op) } }).puts [(R.WIN_BIND_STAT_BUSY, 1), (R.WIN_BIND_STAT_DONE, 0)]

/-- WINDOW_UNBIND (R391, R396): accepted on this fc, the window closes on the next. The closing comes under a master that
WIN.BIND does not accept, so that no write is taken for it. -/
def execWindowUnbind (m : Master) (w : Win) (c : Ctx) (s : State) : Host.Outcome State Fault Refusal :=
  let mine := decide (s.f (R.WIN_STATE_STATE w) = 1) && decide (s.f (R.WIN_STATE_CTX w) = c)
  .next (if m == .hrp && decide (s.ctx.busy = some (w.val, 2)) && !s.armed (.windowUnbind .hrp w c) then
      let s := s.winStage w 4
      if mine then ((s.winClose w).at' .unfz (s.time.ufc + 15) (.windowCloseSettle w)) else s
    else s.row m (.windowUnbind m w c) (fun s => s.gate (winMaster m) m R.WIN_BIND (fun s =>
      if !mine then s.winRej 7
      else if s.ctx.busy.isSome then s.winRej 9
      else (s.winBusy w 2).later .wall 1 (.windowUnbind .hrp w c))))

/-- WINDOW_RELEASE (R391): a KEPT window is swept with its generation. -/
def execWindowRelease (m : Master) (w : Win) (c : Ctx) (s : State) : Host.Outcome State Fault Refusal :=
  .next (s.row m (.windowRelease m w c) (fun s => s.gate (winMaster m) m R.WIN_BIND (fun s =>
    if s.f (R.WIN_STATE_STATE w) ≠ 4 then s.winRej 8
    else if s.ctx.busy.isSome then s.winRej 9
    else ((s.winBusy w 3).puts [(R.WIN_STATE_STATE w, 3), (R.WIN_STATE_KOWNER w, 0)]).winClear w (s.f (R.WIN_STATE_KGEN w)))))

/-- WINDOW_CLOSE_SETTLE (R396 step 3): a window that UNBIND closed, on the 16th unfrozen fc and then on the fc after it, on which it settles; a
kill of its context settles it itself (R404). -/
def execWindowCloseSettle (w : Win) (s : State) : Host.Outcome State Fault Refusal :=
  .next (if s.f (R.WIN_STATE_STATE w) = 2 ∧ s.killing (s.f (R.WIN_STATE_CTX w)) = false then
      (if s.ctx.busy = some (w.val, 4) then (s.winStage w 5).later .wall 1 (.windowCloseSettle w)
       else if s.ctx.busy = some (w.val, 5) ∧ s.armed (.windowCloseSettle w) = false then s.winSettle w
       else s)
    else s)

/-- WINDOW_SWEEP_DONE (R396 step 4): FREE, with its leave returned; the last sweep of a kill lets it unbind. -/
def execWindowSweepDone (w : Win) (s : State) : Host.Outcome State Fault Refusal :=
  let c := s.f (R.WIN_STATE_CTX w)
  .next (if s.f (R.WIN_STATE_STATE w) ≠ 3 ∨ s.sweepLeft (.window w) = true ∨ s.leave.queue.any (fun q => decide (q.who = LeaveFor.window w)) = true then s
    else if s.frozen then s.arm .unfz 0 (.windowSweepDone w)
    else
      let rel := decide (s.ctx.busy = some (w.val, 3))
      let s := ((s.puts [(R.WIN_STATE_STATE w, 0), (R.WIN_STATE_CTX w, 0), (R.WIN_STATE_KGEN w, 0), (R.WIN_STATE_KOWNER w, 0)]).winEnd w).leaveBack (.window w)
      if rel then s else if s.ctx.kills.any (fun k => decide (k.ctx = c) && decide (k.stage = 3)) then s.arm .wall 0 (.killUnbind (Fin.ofNat 16 c)) else s)

/-! The kill -/

/-- A kill moves to its next stage. -/
def State.killStage (s : State) (c stage due : Nat) : State :=
  { s with ctx := { s.ctx with kills := s.ctx.kills.map (fun k => if k.ctx = c then { k with stage := stage, due := due } else k) } }

/-- Queued lists of a killed context go without a record; its running lists end with KILLED (R353, R398). -/
def State.killLists (s : State) (c : Nat) : State :=
  let s := { s with runners := s.runners.map (fun (e : Nat × RunSt) => (e.1, { e.2 with queue := e.2.queue.filter (fun l => decide (l.ctx ≠ c)) })), stp := { s.stp with lists := s.stp.lists.filter (fun e => decide (e.ctx ≠ c)) } }
  s.runners.foldl (fun s e => if e.2.run.any (fun l => decide (l.ctx = c)) && e.2.abort.isNone then s.abortList (e.1 / 4) (e.1 % 4) 7 else s) s

/-- FIFOs bound to a killed context are flushed and unbound; hand-overs go back to the pool with the abort of their command (R353, R376,
R398). -/
def State.killFifos (s : State) (c : Nat) : State :=
  s.cabs.foldl (fun s p => (List.range 8).foldl (fun s f =>
    if s.bit (R.HFF_CFG_BOUND p f) && decide (s.f (R.HFF_CFG_CTX p f) = c) then
      (s.fifoFlush p f).put (R.HFF_CFG_BOUND p f) 0
    else s) s) s

/-- Sync counters bound to a killed context are unbound (R268). -/
def State.killCtrs (s : State) (c : Nat) : State :=
  let hit (s : State) (sel : CtrSel) : Bool := s.bit (cfgBound (selKey sel)) && decide (s.f (cfgCtx (selKey sel)) = c)
  let s := s.cabs.foldl (fun s p => (List.range 64).foldl (fun s n =>
    let sel : CtrSel := .cab (Fin.ofNat 128 p) (Fin.ofNat 64 n)
    if hit s sel then s.unbindCtr sel else s) s) s
  (List.range 256).foldl (fun s g =>
    let sel : CtrSel := .glob 0 (Fin.ofNat 256 g)
    if hit s sel then s.unbindCtr sel else s) s

/-- Phase 1 of R398; phase 2 begins on the same fc. -/
def State.killClose (s : State) (c : Nat) : State :=
  let s := if s.faulted c then s else { s with stp := { s.stp with faultPin := s.stp.faultPin ++ [(c, s.time.fc)] } }
  let s := ((s.puts [(R.CTX_STAT_STATE c, 3), (R.CTX_STAT_KPHASE c, 2), (R.LCT_STEP_STATE c, 3)]).endReplay c).dropHeld c
  let s := (s.winsOf c 1).foldl (fun s w => s.winClose w) s
  let s := ((s.killLists c).killFifos c).killCtrs c
  let s := (s.ctxCabs c).foldl (fun s p => (s.sbdClear p).clearSlips p) s
  (List.range 4).foldl (fun s k => ((s.later .wall 0 (.edgePut (Fin.ofNat 4 k))).later .wall 0 (.edgeGet (Fin.ofNat 4 k))).later .wall 0 (.edgeIncCmd (Fin.ofNat 4 k))) s

/-- A BIND to a context on the fc of its KILL is refused, whichever was written first (R404). -/
def State.unbindNew (s : State) (c : Nat) : State :=
  (s.ctx.binds.filter (fun (b : Bound) => decide (b.ctx = c) && decide (b.fc = s.time.fc))).foldl (fun s b =>
    ((s.setReg (R.WIN_STATE b.win) b.state).setReg R.WIN_BIND_STAT b.stat).winRej 3) s

/-- CTX_KILL (R398): written on this fc, phase 1 begins on the next unfrozen one. Phase 1 comes under a master that CTX.CMD
does not accept, so that no write is taken for it. -/
def execCtxKill (m : Master) (c : Ctx) (s : State) : Host.Outcome State Fault Refusal :=
  .next (if m == .hrp && !s.frozen && s.ctx.kills.any (fun k => decide (k.ctx = c) && decide (k.stage = 0) && decide (k.due ≤ s.time.ufc)) then
      ((s.killClose c).killStage c 1 (s.time.ufc + 15)).at' .unfz (s.time.ufc + 15) (.killQuiesceEnd c)
    else if (m == .sch || m == .sec || m == .dbg) && s.killing c then s.ctxRej 1
    else s.row m (.ctxKill m c) (fun s => s.ctxCmd m (m == .sch || m == .sec || m == .dbg) c 2 (fun s =>
      let s := s.unbindNew c
      ({ s with ctx := { s.ctx with kills := s.ctx.kills ++ [({ ctx := c, stage := 0, due := s.nextU } : Kill)] } }).at' .unfz s.nextU (.ctxKill .hrp c))))

/-- Phase 3 of R398. -/
def State.killSweep (s : State) (c : Nat) : State :=
  let s := (s.killStage c 3 s.time.ufc).put (R.CTX_STAT_KPHASE c) 3
  let s := (s.winsOf c 2).foldl (fun s w => s.winSettle w) s
  if (s.winsOf c 3).isEmpty then s.at' .unfz (s.time.ufc + 1) (.killUnbind (Fin.ofNat 16 c)) else s

/-- KILL_QUIESCE_END (R398): phase 2 ends on the later of its two fc, phase 3 begins on the fc after. -/
def execKillQuiesceEnd (c : Ctx) (s : State) : Host.Outcome State Fault Refusal :=
  .next (match s.ctx.kills.find? (fun k => decide (k.ctx = c.val)) with
  | none => s
  | some k =>
    if s.frozen ∨ s.time.ufc < k.due ∨ k.stage = 0 ∨ k.stage = 3 then s
    else if k.stage = 2 then s.killSweep c
    else if s.runners.any (fun e => e.2.run.any (fun l => decide (l.ctx = c.val))) then s.arm .unfz 1 (.killQuiesceEnd c)
    else (s.killStage c 2 (s.time.ufc + 1)).later .unfz 1 (.killQuiesceEnd c))

/-- Phase 4 of R398. -/
def State.killFree (s : State) (c : Nat) : State :=
  let s := (List.range 128).foldl (fun s p => if s.f (R.CTX_EAG_CTX p) = c ∧ s.bit (R.CTX_EAG_V p) = true then s.put (R.CTX_EAG_V p) 0 else s) s
  let s := (List.range 4).foldl (fun s k => s.setReg (R.CTX_FMASK c k) 0) (s.puts [(bitFld R.IDV_CMAP_CTXGEN c, 0), (R.CTX_STAT_GEN c, 0)])
  let s := s.dropSigs (fun g => decide (g.ctx = some c) && (decide (g.place ≠ SigPlace.net) || decide (g.since ≤ s.time.ufc)))
  let r := s.f (R.LCT_STEP_RELEASED c)
  let s := (s.setReg (R.LCT_STEP c) 0).puts [(R.LCT_STEP_RELEASED c, r), (R.CTX_STAT_STATE c, 1), (R.CTX_STAT_KPHASE c, 0), (R.CTX_CMD_STAT_DONE, 1)]
  { s with stp := { s.stp with steps := s.stp.steps.filter (fun t => decide (t.ctx ≠ c)), faultPin := s.stp.faultPin.filter (fun p => decide (p.1 ≠ c)) },
           ctx := { s.ctx with kills := s.ctx.kills.filter (fun k => decide (k.ctx ≠ c)) } }

/-- KILL_UNBIND (R398): phase 4, once no window of the context is closed or sweeping; SCH hears of the end. -/
def execKillUnbind (c : Ctx) (s : State) : Host.Outcome State Fault Refusal :=
  .next (if s.ctx.kills.any (fun k => decide (k.ctx = c.val) && decide (k.stage = 3)) then
      (if (s.winsOf c 2).isEmpty && (s.winsOf c 3).isEmpty then
        (if s.frozen then s.arm .unfz 0 (.killUnbind c) else (s.killFree c).later .wall 0 (.completionPost 2))
      else s)
    else s)

end Sys2Proof.Machine
end

