-- ==== Sys2Proof/Machine/Bridge.lean ====
section
/-! DEFINITION. The Coirny bridges: wire slots, retry, delivery, lanes that come up and go down, routes between dies (chapter
"Coirny bridges and edge gateways", R525 to R545). -/
namespace Sys2Proof.Machine

/-- Lane by number. -/
def State.lane (s : State) (l : Nat) : Lane := SMap.get Lane.idle s.brg.lanes l

/-- Write a lane. -/
def State.setLane (s : State) (l : Nat) (x : Lane) : State := { s with brg := { s.brg with lanes := SMap.set Lane.idle s.brg.lanes l x } }

/-- Is the lane in service? (R542) -/
def State.laneUp (s : State) (l : Nat) : Bool := decide (s.laneState l = 2)

/-- Lane by which the sideband reaches a die: the first lane in service of the bridge of its route (R536, R539). -/
def State.sideLane (s : State) (die : Nat) : Option Nat :=
  (s.bridgeTo die).bind (fun b => [2 * b, 2 * b + 1].find? (fun l => s.laneBuilt l && s.laneUp l))

/-- Shares of 16 bytes that a sideband message takes: a Hallmark of 48 bytes with its header four, any other one (R528; the manual prints no
message formats, DESIGN CHOICE, log entry 28). -/
def sideShares : Sideband → Nat
  | .round _ (some _) => 4
  | .round _ none | .ctlRead _ _ _ | .ctlAns _ _ _ _ | .opTarget _ | .opBack _ | .opReport _ _ | .estimate _ _ _ => 1

/-- Send a sideband message to a die: it is complete with its last share. -/
def State.side (s : State) (die : Nat) (msg : Sideband) : State :=
  match s.sideLane die with
  | some l => ((List.range (sideShares msg - 1)).foldl (fun s _ => s.send .share (some l)) s).send (.side die msg) (some l)
  | none => s

/-- A record of chapter "Coirny bridges and edge gateways" (R561). -/
def State.brgErr (s : State) (kind detail : Nat) : State := s.err { kind := kind, req := 28, cab := none, data := 0x70000 + detail }

/-- The contexts that span dies fault (R543). -/
def State.multiFault (s : State) : State :=
  (List.range 16).foldl (fun s c => if s.bit (R.LCT_STEP_MULTI c) then s.ctxFault c else s) s

/-- Forget the bridge freeze of a lane: the freeze ends when no slot of any lane is late any more (R76, R534). -/
def State.lateOver (s : State) : State :=
  if s.brg.lanes.any (fun e => e.2.rx.any (fun r => r.late)) then s else s.frzFall .bridge

/-- Every outstanding loose access that uses a lane is answered FAULT (R543, R248). -/
def State.farFail (s : State) (l : Nat) : State :=
  let hit := (s.loose.far.filter (fun e => decide (e.2 = l))).map (fun e => e.1)
  hit.foldl (fun s q => ((s.dropFlit q.id).drained q.id).replyNow q (noAns .fault 2) (s.laneCab l))
    { s with loose := { s.loose with far := s.loose.far.filter (fun e => decide (e.2 ≠ l)) } }

/-- What a lane still had to send or deliver is lost; its accesses are answered. -/
def State.laneClear (s : State) (l : Nat) : State :=
  let s := { s.setLane l Lane.idle with tx := s.tx.filter (fun t => decide (t.lane ≠ some l)) }
  (s.farFail l).lateOver

/-- A lane end leaves UP for DOWN (R543). -/
def State.laneDown (s : State) (l cause : Nat) : State :=
  if !s.laneUp l then s
  else
    let s := (s.puts [(R.BRG_STAT_STATE l, 3), (R.BRG_STAT_CAUSE l, cause)]).multiFault
    let n := s.brg.downSeq + 1
    let s := ({ s with brg := { s.brg with downSeq := n, notices := s.brg.notices ++ [(s.die, n)] } }).send (.laneDown s.die n) none (some l)
    ((s.laneClear l).brgErr 0x71 (cause * 256 + l / 2 * 16 + l % 2)).event 0 0x28 (l / 2 + l % 2 * 2 ^ 8 + 3 * 2 ^ 16 + cause * 2 ^ 24)

/-! Sending -/

/-- Copies of an item for the lanes it leaves on. -/
def State.spread (s : State) (t : TxItem) : List TxItem :=
  match t.lane with
  | some _ => [t]
  | none => ((List.range 8).filter (fun l => s.laneBuilt l && s.laneUp l && decide (t.skip ≠ some l))).map (fun l => { item := t.item, lane := some l, skip := none })

/-- Choose what the next slot carries, in order: at most one flit, set-class first and loose under credits, two signals, one
share of the sideband, every mark; a signal follows every flit before it that stays behind (R277, R528, R535). `st` is (flit taken, a flit left
behind, signals, sideband taken). -/
def pickItems (set credit : Bool) : List SlotItem → Bool × Bool × Nat × Bool → List SlotItem × List SlotItem
  | [], _ => ([], [])
  | i :: rest, (flit, left, sigs, side) =>
    let take (st : Bool × Bool × Nat × Bool) : List SlotItem × List SlotItem :=
      let r := pickItems set credit rest st
      (i :: r.1, r.2)
    let leave (st : Bool × Bool × Nat × Bool) : List SlotItem × List SlotItem :=
      let r := pickItems set credit rest st
      (r.1, i :: r.2)
    match i with
    | .setFlit _ => if flit then leave (flit, true, sigs, side) else take (true, left, sigs, side)
    | .looseFlit _ => if flit || left || set || !credit then leave (flit, true, sigs, side) else take (true, left, sigs, side)
    | .signal _ => if left || decide (2 ≤ sigs) then leave (flit, left, 2, side) else take (flit, left, sigs + 1, side)
    | .side _ _ | .share => if side then leave (flit, left, sigs, side) else take (flit, left, sigs, true)
    | .beginMark _ _ | .endMark _ _ | .replay _ _ _ | .laneDown _ _ | .beacon _ _ | .stretch _ | .startMark _ _ | .credit _ | .ack _ | .nak _ => take (flit, left, sigs, side)

/-- Does a slot carry what must not be late: a set-class flit or a freeze mark? (R534) -/
def critical (w : WireSlot) : Bool :=
  w.items.any (fun i => match i with
    | .setFlit _ | .beginMark _ _ | .endMark _ _ => true
    | .looseFlit _ | .replay _ _ _ | .laneDown _ _ | .beacon _ _ | .stretch _ | .startMark _ _ | .signal _ | .side _ _ | .credit _ | .ack _ | .nak _ | .share => false)

/-- Is an item a loose flit? -/
def isLoose : SlotItem → Bool
  | .looseFlit _ => true
  | .setFlit _ | .beginMark _ _ | .endMark _ _ | .replay _ _ _ | .laneDown _ _ | .beacon _ _ | .stretch _ | .startMark _ _ | .signal _ | .side _ _ | .credit _ | .ack _ | .nak _ | .share => false

/-- Is an item a set-class flit? -/
def isSet : SlotItem → Bool
  | .setFlit _ => true
  | .looseFlit _ | .beginMark _ _ | .endMark _ _ | .replay _ _ _ | .laneDown _ _ | .beacon _ _ | .stretch _ | .startMark _ _ | .signal _ | .side _ _ | .credit _ | .ack _ | .nak _ | .share => false

/-- The stretch count that headers carry (R540). -/
def State.stretchOut (s : State) : Nat := if (s.f R.BRG_STR_T + 65536 - s.f R.BRG_STR_S) % 65536 < 32768 then s.f R.BRG_STR_T else s.f R.BRG_STR_S

/-- Writes that enter a lane, or are lost with it, are drained here on the fc after it (R275, R277). -/
def State.drainItems (s : State) (l : List SlotItem) : State := (l.filterMap itemWrite).foldl (fun s i => s.drained i) s

/-- Writes of this die's own ports that enter a lane: a receiver goes on waiting for them in the drain sets that name them (R274, R277). -/
def State.crossItems (s : State) (l : List SlotItem) : State :=
  let ids := l.filterMap itemWrite
  { s with syn := { s.syn with crossed := s.syn.crossed ++ s.syn.undrained.filter (fun (u : Nat × Nat × Nat) => ids.contains u.1 && decide (u.2.2 ≠ 99)) } }.drainItems l

/-- NAKs of the lane's receiver that the next slot carries at its head, three copies of each (R532). -/
def State.nakItems (s : State) (x : Lane) : List SlotItem :=
  (x.naks.filter (fun e => decide (e.2 + 1 = s.time.fc))).flatMap (fun e => List.replicate 3 (.nak e.1))

/-- Is an item a copy of a NAK? -/
def isNak (i : SlotItem) : Bool := match i with
  | .nak _ => true
  | .setFlit _ | .looseFlit _ | .beginMark _ _ | .endMark _ _ | .replay _ _ _ | .laneDown _ _ | .beacon _ _ | .stretch _ | .startMark _ _ | .signal _ | .side _ _ | .credit _ | .ack _ | .share => false

/-- A new slot with what waits for the lane: NAKs at its head, its stretch count, credits and the acknowledgement of what has been
delivered (R528, R532). -/
def State.newSlot (s : State) (l : Nat) (x : Lane) : State :=
  let mine := (s.tx.filter (fun t => decide (t.lane = some l))).map (fun t => t.item)
  let p := pickItems (mine.any isSet) (0 < x.credits) mine (false, false, 0, false)
  let back := if x.back = 0 then [] else [SlotItem.credit x.back]
  let w : WireSlot := { seq := x.next, stime := s.time.stime, items := s.nakItems x ++ p.1 ++ [.stretch s.stretchOut, .ack x.want] ++ back }
  let used := (p.1.filter isLoose).length
  let s := (s.crossItems p.1).setLane l { x with next := x.next + 1, replay := x.replay ++ [(w, s.time.fc, 0)], credits := x.credits - used, back := 0 }
  { s with tx := s.tx.filter (fun t => decide (t.lane ≠ some l)) ++ p.2.map (fun i => { item := i, lane := some l, skip := none }) }

/-- The wire slot that an UP lane sends on this fc: a resend on an odd frame cycle, else a new slot (R528, R529, R532). -/
def State.sendSlot (s : State) (l : Nat) : State :=
  if !(s.laneBuilt l && s.laneUp l) then s
  else
    let x := s.lane l
    let odd := if s.frozen then s.time.fc % 2 = 1 else s.time.stime % 2 = 1
    let keep := x.replay.filter (fun e => decide (s.time.fc < e.2.1 + 64))
    match x.resend with
    | n :: rest =>
      if odd then
        (s.setLane l { x with resend := rest, replay := x.replay.map (fun e => if e.1.seq = n then ({ e.1 with items := s.nakItems x ++ e.1.items.filter (fun i => !isNak i) }, s.time.fc, e.2.2) else e) }).inc (R.BRG_RETRY_CNT_COUNT l)
      else s.newSlot l { x with replay := keep }
    | [] => s.newSlot l { x with replay := keep }

/-- Every lane sends its slot of this fc; what has no lane in service to leave on is lost. -/
def State.sendSlots (s : State) : State :=
  let all : List TxItem := s.tx.flatMap s.spread
  let up (t : TxItem) : Bool := t.lane.any (fun l => s.laneUp l)
  let s := { s with tx := all.filter up }.drainItems ((all.filter (fun (t : TxItem) => !up t)).map (fun (t : TxItem) => t.item))
  (List.range 8).foldl (fun s l => s.sendSlot l) s

/-! Receiving -/

/-- Flight of the current operating point in fc (R531). -/
def State.flight (s : State) : Nat := (399000 + s.fcUnits - 1) / s.fcUnits

/-- Wall fc from the first check of a slot to its delivery (R530, R531). -/
def State.pad (s : State) : Nat := 41 - s.flight

/-- A stretch count received (R540, R541): T takes the greatest, MARGIN the greatest difference; compensation starts when S is
behind. -/
def State.stretchIn (s : State) (l n : Nat) : State :=
  let t := s.f R.BRG_STR_T
  let s := if (n + 65536 - t) % 65536 < 32768 then s.put R.BRG_STR_T n else s
  let d := (n + 65536 - s.f R.BRG_STR_S) % 65536
  let d := if d < 32768 then d else 65536 - d
  let s := s.put (R.BRG_MARGIN_DIFF l) (max (s.f (R.BRG_MARGIN_DIFF l)) (min d 255))
  if s.f R.BRG_STR_S = s.f R.BRG_STR_T then s else s.arm .wall 2 .compensatingStretch

/-- Difference between the sender's stretch count in a slot and this die's. -/
def State.strDiff (s : State) (w : WireSlot) : Nat :=
  w.items.foldl (fun m i => match i with
    | .stretch n =>
      let d := (n + 65536 - s.f R.BRG_STR_S) % 65536
      max m (if d < 32768 then d else 65536 - d)
    | .setFlit _ | .looseFlit _ | .beginMark _ _ | .endMark _ _ | .replay _ _ _ | .laneDown _ _ | .beacon _ _ | .startMark _ _ | .signal _ | .side _ _ | .credit _ | .ack _ | .nak _ | .share => m) 0

/-- A set-class flit that finds the receiver full is dropped (R535). -/
def State.fullSlot (s : State) (l : Nat) (w : WireSlot) : State × WireSlot :=
  let held := ((s.lane l).rx.filter (fun r => r.ready.isSome && r.slot.items.any isSet)).length
  if held < 64 then (s, w)
  else
    (w.items.foldl (fun s i => match i with
      | .setFlit f => (s.schErr 0x2A 28 (s.laneCab l) f.ctx f.fa).ctxFault? f.ctx
      | .looseFlit _ | .beginMark _ _ | .endMark _ _ | .replay _ _ _ | .laneDown _ _ | .beacon _ _ | .stretch _ | .startMark _ _ | .signal _ | .side _ _ | .credit _ | .ack _ | .nak _ | .share => s) s,
      { w with items := w.items.filter (fun i => !isSet i) })

/-- WIRE_SLOT_RECEIVE (R531, R532): the check of a slot, on the fc of the check. A slot that fails is answered with a NAK. -/
def execWireSlotReceive (lane : Fin 8) (slot : WireSlot) (crcOk : Bool) (s : State) : Host.Outcome State Fault Refusal :=
  let l := lane.val
  let x := s.lane l
  let now := s.time.fc
  let old := x.rx.find? (fun r => decide (r.seq = slot.seq))
  let first := (old.map (fun r => r.first)).getD now
  let put (s : State) (r : RxSlot) : State := s.setLane l { s.lane l with rx := (s.lane l).rx.filter (fun y => decide (y.seq ≠ slot.seq)) ++ [r] }
  .next (if !s.laneUp l || decide (slot.seq < x.want) || old.any (fun r => r.ready.isSome) then s
  else if !crcOk then
    let s := (s.setLane l { x with naks := x.naks.filter (fun e => decide (now < e.2 + 64)) ++ [(slot.seq, now)] }).inc (R.BRG_CRC_CNT_COUNT l)
    let s := put s { seq := slot.seq, first := first, ready := none, fails := (old.map (fun r => r.fails)).getD 0 + 1, late := (old.map (fun r => r.late)).getD false, slot := slot }
    if old.isNone then s.later .wall (s.pad - 3) (.bridgeLate lane) else s
  else
    let d := s.strDiff slot
    let full := s.fullSlot l slot
    let s := full.1.setLane l { full.1.lane l with good := now }
    let wait := if d ≤ 2 then 21 else s.pad + 1 + s.free
    let s := if d ≤ 2 then s else (s.useFree).later .wall (first + s.pad - 3 - now) (.bridgeLate lane)
    let s := put s { seq := slot.seq, first := first, ready := some (now + wait), fails := (old.map (fun r => r.fails)).getD 0, late := (old.map (fun r => r.late)).getD false, slot := full.2 }
    let s := (s.later .wall wait (.slotDelivery lane)).arm .wall 256 (.laneSilent lane)
    let s := if slot.items.any isSet then s.at' .sched (slot.stime + 44) (.slotDelivery lane) else s
    if now + wait < first + s.pad then s.at' .wall (first + s.pad) (.slotDelivery lane) else s)

/-- NAK_RECEIVE (R532, R534): the slot is sent again; after 8 failed attempts the lane leaves UP. -/
def execNakReceive (lane : Fin 8) (seq : Nat) (s : State) : Host.Outcome State Fault Refusal :=
  let l := lane.val
  let x := s.lane l
  .next (if !s.laneUp l then s
  else
    match x.replay.find? (fun e => decide (e.1.seq = seq) && decide (s.time.fc < e.2.1 + 64)) with
    | none => s
    | some e =>
      if 8 ≤ e.2.2 + 1 then s.laneDown l 2
      else
        s.setLane l { x with resend := (if x.resend.contains seq then x.resend else x.resend ++ [seq]), replay := x.replay.map (fun y => if y.1.seq = seq then (y.1, y.2.1, y.2.2 + 1) else y) })

/-- Schedule time on the wall fc `n` from now, as the freezes known now say (R68). -/
def State.stimeIn (s : State) (n : Nat) : Nat :=
  s.time.stime + ((List.range n).filter (fun j => if j = 0 then !s.frozen else !s.frozenAt (s.time.fc + j))).length

/-- Does the content of a slot fall due 3 fc from now at the latest: a set-class flit in this die's schedule time, 44 fc after its slot's (R530, R76),
a freeze mark 44 wall fc after its sending? -/
def State.fallsDue (s : State) (r : RxSlot) : Bool :=
  (r.slot.items.any isSet && decide (r.slot.stime + 44 ≤ s.stimeIn 3) && !s.frozenAt (s.time.fc + 3)) ||
    (critical { r.slot with items := r.slot.items.filter (fun i => !isSet i) } && decide (r.first + s.pad ≤ s.time.fc + 3))

/-- Does a slot wait that must not be late and is not received? -/
def State.mayBeLate (s : State) (r : RxSlot) : Bool := !r.late && critical r.slot && !r.ready.any (fun t => decide (t ≤ s.time.fc))

/-- BRIDGE_LATE (R534): a slot with a set-class flit or a freeze mark that is not received 3 fc before its delivery starts a
bridge freeze. -/
def execBridgeLate (lane : Fin 8) (s : State) : Host.Outcome State Fault Refusal :=
  let l := lane.val
  let x := s.lane l
  let hit (r : RxSlot) : Bool := s.mayBeLate r && s.fallsDue r
  let n := (x.rx.filter hit).length
  let more := x.rx.any (fun r => s.mayBeLate r && !s.fallsDue r)
  let s := if more then s.arm .wall 1 (.bridgeLate lane) else s
  .next (if n = 0 then s
  else
    let s := s.setLane l { x with rx := x.rx.map (fun r => if hit r then { r with late := true } else r) }
    let s := (List.range n).foldl (fun s _ => s.brgErr 0x70 (l / 2 * 16 + l % 2)) (s.incBy (R.BRG_LATE_CNT_COUNT l) n)
    s.frzRaise .bridge)

/-- LANE_SILENT (R534). -/
def execLaneSilent (lane : Fin 8) (s : State) : Host.Outcome State Fault Refusal :=
  let l := lane.val
  .next (if !s.laneUp l then s
  else if (s.lane l).good + 256 ≤ s.time.fc then s.laneDown l 3
  else s.at' .wall ((s.lane l).good + 256) (.laneSilent lane))

/-- LANE_DOWN_NOTICE (R543): a new notice faults the contexts that span dies and goes on once. -/
def execLaneDownNotice (lane : Fin 8) (origin : Fin 8) (seq : Nat) (s : State) : Host.Outcome State Fault Refusal :=
  .next (if s.brg.notices.contains (origin.val, seq) then s
  else (({ s with brg := { s.brg with notices := s.brg.notices ++ [(origin.val, seq)] } }).multiFault).send (.laneDown origin seq) none (some lane.val))

/-! Delivery -/

/-- The schedule fc at which a flit sent at schedule fc `c` of its sender enters the attachment cabinet: c + 44 of this die's schedule time
(R61, R79); one received after that fc at the next of the same frame cycle (R530). -/
def State.entersAt (s : State) (c : Nat) : Nat := if s.time.stime ≤ c + 44 then c + 44 else s.time.stime + (c + 44 + 63 * s.time.stime) % 64

/-- A set-class flit enters the attachment cabinet at frame cycle c + 44 of this die's schedule time (R530), with the fence mask
that this die recorded for its context. A write from another die is of no port of this one: 99 stands for it (R274). -/
def State.setIn (s : State) (l : Nat) (sent : Nat) (f : SFlit) : State :=
  let p := s.laneCab l
  let f := { f with fmask := s.fmask f.ctx, cur := p, from' := p, enter := s.entersAt sent, hops := 0, det := none, dst := p }
  let go (s : State) (f : SFlit) : State := ({ s with set := { s.set with flits := s.set.flits ++ [f] } }).at' .sched f.enter (.setFlitHop f.id)
  let s := if f.kind = SKind.wr then s.undrain f.id p 99 else s
  if f.dstDie ≠ s.die then
    match s.laneTo f.dstDie p with
    | some k => go s { f with dst := s.laneCab k }
    | none => s.lateFlit f 28
  else if f.kind = SKind.rdData then
    match s.set.delivs.find? (fun d => decide (d.id = f.issue)) with
    | some d => go s { f with dst := d.cab }
    | none => s
  else
    match s.mapped (s.genOf .set (decide (f.kind = SKind.wr)) f.ctx f.fa) (faCab f.fa) with
    | some q => go s { f with dst := q }
    | none => ((s.refuse 13 (some p) f.ctx f.fa).dropRelease f .fault).ctxFault? f.ctx

/-- A loose flit enters the attachment cabinet: an answer goes to its requester unless it was answered already; a request is
checked on the die that holds its target (R33, R248, R393, R536). -/
def State.looseIn (s : State) (l : Nat) (f : LFlit) : State :=
  let p := s.laneCab l
  let q := f.acc
  let s := s.setLane l { s.lane l with back := (s.lane l).back + 1 }
  let go (s : State) (dst : Nat) : State :=
    let g : LFlit := { f with src := p, dst := dst, cur := p, port := l / 2, out := 5, hops := 0, det := none, ready := s.time.ufc, since := 0 }
    ({ s with loose := { s.loose with flits := s.loose.flits ++ [g] } }).later .unfz 0 (.looseFlitHop q.id)
  let on (s : State) : State :=
    match s.laneTo f.dstDie p with
    | some k => go s (s.laneCab k)
    | none => (go s p).refuseFlit { f with cur := p } 0x10100
  if f.ans.isSome then
    let t := { s with loose := { s.loose with far := s.loose.far.filter (fun e => decide (e.1.id ≠ q.id)) } }
    if f.dstDie ≠ s.die then on t
    else if s.loose.far.any (fun e => decide (e.1.id = q.id)) then go t q.home else s
  else if f.dstDie ≠ s.die then on (if q.we then s.undrain q.id p 99 else s)
  else
    match s.target q.cls q.we q.ctx q.fa with
    | .refused => (s.refuse q.req (some p) q.ctx (accAddr q)).replyNow q (noAns .fault 2) p
    | .violation w k => (s.violate q.req (some p) q.ctx (accAddr q) w k).replyNow q (noAns .fault 2) p
    | .far _ => s.replyNow q (noAns .fault 2) p
    | .at' t => if servedIn false (s.pow t) then go (if q.we then s.undrain q.id p 99 else s) t else s.replyNow q (noAns .asleep 2) p

/-- A sideband message for this die waits in the inbox for the command that takes it; another die's goes on (R539). -/
def State.sideIn (s : State) (lane : Fin 8) (dst : Nat) (msg : Sideband) : State :=
  let keep (i : Instr) : State := ({ s with brg := { s.brg with inbox := s.brg.inbox ++ [msg] } }).later .wall 0 i
  if dst ≠ s.die ∧ dst < 8 then s.side dst msg
  else
    match msg with
    | .ctlRead _ _ _ => keep (.targetArbitration .rgs)
    | .ctlAns _ m _ _ => keep (.cmxResponse (masterOf m))
    | .opTarget t => keep (.dieOpChange (Fin.ofNat 6 t))
    | .opBack t => keep (.dieOpChange (Fin.ofNat 6 t))
    | .opReport d r => s.later .wall 0 (.opChangeDone (Fin.ofNat 8 d) (Fin.ofNat 3 r))
    | .estimate _ _ _ => keep .powerEstimate
    | .round d m => s.later .wall 0 (.roundMessage lane (Fin.ofNat 8 d) m)

/-- One item of a slot is delivered. -/
def State.slotItem (s : State) (lane : Fin 8) (sent : Nat) (i : SlotItem) : State :=
  let l := lane.val
  match i with
  | .setFlit f => s.setIn l sent f
  | .looseFlit f => s.looseIn l f
  | .beginMark o q => s.later .wall 0 (.freezeBeginMark lane (Fin.ofNat 8 o) q)
  | .endMark o q => s.later .wall 0 (.freezeEndMark lane (Fin.ofNat 8 o) q)
  | .replay c a r => s.later .wall 0 (.replayNotice lane (Fin.ofNat 16 c) (Fin.ofNat 4 a) r)
  | .laneDown o q => s.later .wall 0 (.laneDownNotice lane (Fin.ofNat 8 o) q)
  | .beacon v h => s.later .wall 0 (.beaconReceive lane (BitVec.ofNat 64 v) (Fin.ofNat 8 h))
  | .stretch n => s.stretchIn l n
  | .ack _ | .nak _ | .share => s
  | .startMark v h => s.later .wall 0 (.startMarkReceive lane (BitVec.ofNat 64 v) (Fin.ofNat 8 h))
  | .signal g => ({ s with syn := { s.syn with signals := s.syn.signals ++ [{ g with place := .bridge, since := s.time.ufc }] } }).later .unfz 0 (.signalBridgeRelease g.id)
  | .side dst msg => s.sideIn lane dst msg
  | .credit n => s.setLane l { s.lane l with credits := min 64 ((s.lane l).credits + n) }

/-- Deliver what is due but set-class flits, in sequence order: a slot waits behind every earlier one (R530, R533). -/
def State.deliverSlots (s : State) (lane : Fin 8) : Nat → State
  | 0 => s
  | n + 1 =>
    let x := s.lane lane
    match x.rx.find? (fun r => decide (r.seq = x.want) && decide (r.first + s.pad ≤ s.time.fc) && r.ready.any (fun t => decide (t ≤ s.time.fc))) with
    | none => s
    | some r =>
      let kept := if r.slot.items.any isSet then [{ r with slot := { r.slot with items := r.slot.items.filter isSet } }] else []
      let s := s.setLane lane { x with want := x.want + 1, rx := x.rx.filter (fun y => decide (y.seq ≠ r.seq)) ++ kept }
      ((r.slot.items.filter (fun i => !isSet i)).foldl (fun s i => s.slotItem lane r.slot.stime i) s).deliverSlots lane n

/-- Release the set-class flits received whose due fc has come in this die's schedule time, also those of a slot that waits behind an
earlier one (R530, R533). -/
def State.deliverSet (s : State) (lane : Fin 8) : State :=
  if s.frozen then s
  else
    let x := s.lane lane
    let due (r : RxSlot) : Bool := r.slot.items.any isSet && decide (r.slot.stime + 44 ≤ s.time.stime) && r.ready.any (fun t => decide (t ≤ s.time.fc))
    let rest := x.rx.filterMap (fun r => if !due r then some r else if r.seq < x.want then none else some { r with slot := { r.slot with items := r.slot.items.filter (fun i => !isSet i) } })
    (x.rx.filter due).foldl (fun s r => (r.slot.items.filter isSet).foldl (fun s i => s.slotItem lane r.slot.stime i) s) (s.setLane lane { x with rx := rest })

/-- SLOT_DELIVERY (R530, R533, R534): received slots no longer hold a bridge freeze; those due are delivered. -/
def execSlotDelivery (lane : Fin 8) (s : State) : Host.Outcome State Fault Refusal :=
  let l := lane.val
  .next (if !s.laneUp l then s
  else
    let x := s.lane l
    let was := x.rx.any (fun r => r.late)
    let s := s.setLane l { x with rx := x.rx.map (fun r => if r.ready.any (fun t => decide (t ≤ s.time.fc)) then { r with late := false } else r) }
    let s := if was then s.lateOver else s
    (s.deliverSet lane).deliverSlots lane x.rx.length)

/-! Lane commands -/

/-- Masters of BRG.CTL (R563). -/
def brgMaster (m : Master) : Bool := m == .sec || m == .pwc || m == .dbg

/-- Does a bound context span dies? `live` leaves out the faulted ones. -/
def State.multiBound (s : State) (live : Bool) : Bool :=
  (List.range 16).any (fun c => s.bit (R.LCT_STEP_MULTI c) && decide (s.ctxState c = 2) && !(live && s.faulted c))

/-- LANE_TRAIN (R544): 50 units of leave first. -/
def execLaneTrain (m : Master) (lane : Fin 8) (s : State) : Host.Outcome State Fault Refusal :=
  let l := lane.val
  .next (s.row m (.laneTrain m lane) (fun s => s.gate (brgMaster m) m (R.BRG_CTL l) (fun s =>
    let st := s.laneState l
    if st = 1 ∨ st = 2 ∨ (st = 3 ∧ s.f (R.BRG_STAT_CAUSE l) = 4) ∨ s.laneBuilt l = false ∨ s.bit (R.BRG_STAT_LEAVE_WAIT l) = true then s.put (R.BRG_CTL_REJ l) 1
    else (s.put (R.BRG_STAT_LEAVE_WAIT l) 1).leaveAsk (.train l) 50)))

/-- The leave of a training is granted (R544). -/
def State.trainStart (s : State) (l : Nat) : State := s.puts [(R.BRG_STAT_LEAVE_WAIT l, 0), (R.BRG_STAT_STATE l, 1)]

/-- LANE_OFF (R544): refused while a bound context spans dies; a lane that a fence took down stays down. -/
def execLaneOff (m : Master) (lane : Fin 8) (s : State) : Host.Outcome State Fault Refusal :=
  let l := lane.val
  .next (s.row m (.laneOff m lane) (fun s => s.gate (brgMaster m) m (R.BRG_CTL l) (fun s =>
    if s.multiBound false then s.put (R.BRG_CTL_REJ l) 1
    else if s.laneState l = 3 ∧ s.f (R.BRG_STAT_CAUSE l) = 4 then s
    else (((s.leaveDrop (.train l)).leaveBack (.train l)).puts [(R.BRG_STAT_LEAVE_WAIT l, 0), (R.BRG_STAT_STATE l, 0)]).laneClear l)))

/-- A lane in service carries beacons from the next multiple of 1000 ns on; a die that had no path to
die 0 and expects them begins to wait (R509, R510). -/
def State.beaconArm (s : State) (had : Bool) : State :=
  let s := s.arm .fab (ns 1000 - s.time.now % ns 1000) .beaconSend
  if had then s else (({ s with pwr := { s.pwr with bcnAt := s.time.real } }).disarm .beaconLoss).later .real (ns 16000) .beaconLoss

/-- TRAIN_DONE (R527, R544): in service with all four modules, DOWN with cause TRAIN otherwise; the leave is returned. -/
def execTrainDone (lane : Fin 8) (modules : Fin 5) (s : State) : Host.Outcome State Fault Refusal :=
  let l := lane.val
  .next (if s.laneState l ≠ 1 then s
  else
    let s := (s.put (R.BRG_STAT_MODULES l) modules).leaveBack (.train l)
    if modules.val = 4 then (((s.put (R.BRG_STAT_STATE l) 2).setLane l { Lane.idle with good := s.time.fc }).arm .wall 256 (.laneSilent lane)).beaconArm (s.sideLane 0).isSome
    else s.puts [(R.BRG_STAT_STATE l, 3), (R.BRG_STAT_CAUSE l, 1)])

/-- DROUTE_WRITE (R537, R563, R564). -/
def execDrouteWrite (m : Master) (v : W32) (s : State) : Host.Outcome State Fault Refusal :=
  .next (s.row m (.drouteWrite m v) (fun s => s.gate ((m == .sec || m == .dbg) && !s.multiBound true) m R.BRG_DROUTE (fun s => s.setReg R.BRG_DROUTE (v &&& 0x00FFFFFF))))

end Sys2Proof.Machine
end

