-- ==== Sys2Proof/Machine/Edge.lean ====
section
/-! DEFINITION. The edge gateways: packets and their checks, partners, outbound commands (chapter "Coirny bridges and edge
gateways", R546 to R568). -/
namespace Sys2Proof.Machine

/-- Units of wall time in `n` µs. -/
def us (n : Nat) : Nat := ns (1000 * n)

/-- A gateway by number. -/
def State.gw (s : State) (k : Nat) : Gateway := SMap.get Gateway.idle s.edg.gws k

/-- Write a gateway, with RXQ and QUEUED equal to what it holds. -/
def State.setGw (s : State) (k : Nat) (g : Gateway) : State :=
  ({ s with edg := { s.edg with gws := SMap.set Gateway.idle s.edg.gws k g } }).puts [(R.EDG_STAT_RXQ k, g.ins.length), (R.EDG_CMD_STAT_QUEUED k, g.cmds.length)]

/-- A partner. -/
def State.part (s : State) (p : Nat) : PartSt := SMap.get PartSt.idle s.edg.parts p

/-- Write a partner. -/
def State.setPart (s : State) (p : Nat) (x : PartSt) : State := { s with edg := { s.edg with parts := SMap.set PartSt.idle s.edg.parts p x } }

/-- State of a partner: 0 EMPTY, 1 DOWN, 2 ACTIVE, 3 QUARANTINED (R552). -/
def State.partState (s : State) (p : Nat) : Nat := s.f (R.EDG_PT_STAT_STATE p)

/-- Home cabinet of a gateway. -/
def State.gwHome (s : State) (k : Nat) : Nat := s.f (R.EDG_CTL_HOME k)

/-- Is the gateway in service? (R546) -/
def State.gwIn (s : State) (k : Nat) : Bool :=
  decide (k < s.ties.edges) && s.bit (R.EDG_CTL_EN k) && (List.range 128).any (fun n => decide (s.mapped s.cur n = some (s.gwHome k)))

/-- Partners of a gateway. -/
def State.gwParts (s : State) (k : Nat) : List Nat := (List.range 64).filter (fun p => decide (s.f (R.EDG_PT_CFG_GW p) = k) && s.bit (R.EDG_PT_CFG_VALID p))

/-- Keep OUT equal to the packets of a partner that await responses, both directions. -/
def State.countOut (s : State) (p : Nat) : State :=
  let g := s.gw (s.f (R.EDG_PT_CFG_GW p))
  let mine := g.cmds.filter (fun c => decide (c.part = p))
  s.put (R.EDG_PT_STAT_OUT p) ((g.ins.filter (fun a => decide (a.part = p))).length + (mine.map (fun c => c.out.length)).foldl (· + ·) 0)

/-! Sending -/

/-- Present the head packet: when the link takes it is free (R547). -/
def State.txHead (s : State) (k : Nat) : State :=
  let g := s.gw k
  match g.tx with
  | [] => s
  | t :: rest =>
    if t.take.isSome || !s.bit (R.EDG_STAT_LINK_UP k) then s
    else
      let at' := s.time.real + s.free
      ((s.useFree).setGw k { g with tx := { t with take := some at' } :: rest }).at' .real at' (.txRspTimeout (Fin.ofNat 4 k))

/-- A READ_RSP that the link has not taken within TIMEOUT is discarded, wherever it waits (R559). -/
def State.txExpire (s : State) (k : Nat) : State :=
  let g := s.gw k
  s.setGw k { g with tx := g.tx.filter (fun t => !(decide (t.pkt.typ = 0x21) && decide (t.since + us (s.f (R.EDG_PT_TIME_TIMEOUT t.part)) ≤ s.time.real))) }

/-- Send a packet to a partner under its next SEQ and its epoch (R549, R551). -/
def State.sendPkt (s : State) (k p typ status reqId addr arg : Nat) (payload : List Byte) : State :=
  let seq := s.pair (R.EDG_PT_TX_LO p) (R.EDG_PT_TX_HI p)
  let pkt : Packet := { typ := BitVec.ofNat 8 typ, status := BitVec.ofNat 8 status, len := BitVec.ofNat 16 payload.length, seq := BitVec.ofNat 64 seq, serial := BitVec.ofNat 64 (s.pair R.IDV_SERIAL_LO R.IDV_SERIAL_HI), die := BitVec.ofNat 3 s.die, gw := BitVec.ofNat 2 k, epoch := BitVec.ofNat 8 (s.f (R.EDG_PT_STAT_EPOCH p)), reqId := BitVec.ofNat 16 reqId, addr := BitVec.ofNat 32 addr, arg := BitVec.ofNat 32 arg, payload := payload, beatBytes := 48 + payload.length, tagOk := true }
  let s := (s.setPair (R.EDG_PT_TX_LO p) (R.EDG_PT_TX_HI p) (seq + 1)).setPart p { s.part p with spoke := s.time.real }
  let g := s.gw k
  let s := if typ = 0x21 then s.later .real (us (s.f (R.EDG_PT_TIME_TIMEOUT p))) (.txRspTimeout (Fin.ofNat 4 k)) else s
  (s.setGw k { g with tx := g.tx ++ [({ pkt := pkt, part := p, since := s.time.real, take := none } : TxPkt)] }).txHead k

/-- The die's own HELLO (R550). -/
def State.sendHello (s : State) (k p : Nat) : State :=
  let h := (List.range 12).flatMap (fun j => leBytes 4 (s.reg (R.HLM_HASH j)).toNat)
  s.sendPkt k p 1 0 0 0 0 (h ++ leBytes 4 (s.reg R.IDV_VERSION).toNat ++ leBytes 1 (s.f R.LCT_LEVEL_LEVEL) ++ List.replicate 11 0)

/-! Commands -/

/-- End the command at the head of a gateway (R558). -/
def State.edgeEnd (s : State) (k status : Nat) : State :=
  let g := s.gw k
  match g.cmds with
  | [] => s
  | c :: rest =>
    let s := ((s.setGw k { g with cmds := rest }).put (R.EDG_CMD_STAT_LAST k) status).inc (R.EDG_CMD_STAT_DONE k)
    let s := s.countOut c.part
    match rest with
    | [] => s
    | d :: _ =>
      s.later .wall 0 (match d.op with
        | 1 => .edgePut (Fin.ofNat 4 k)
        | 2 => .edgeGet (Fin.ofNat 4 k)
        | _ => .edgeIncCmd (Fin.ofNat 4 k))

/-- A partner leaves its state: its outstanding responses are lost and, where `abort` names a status, its running command ends
with it (R557, R560). An event of type PARTNER names the new state and the cause (R562). -/
def State.partTo (s : State) (p st cause : Nat) (abort : Option Nat) : State :=
  let k := s.f (R.EDG_PT_CFG_GW p)
  let old := s.partState p
  let s := s.put (R.EDG_PT_STAT_STATE p) st
  let g := s.gw k
  let s := s.setGw k { g with ins := g.ins.filter (fun a => decide (a.part ≠ p)) }
  let s := match abort, g.cmds.head? with
    | some a, some c => if c.part = p ∧ c.started then s.edgeEnd k a else s
    | _, _ => s
  let s := s.countOut p
  if old = st then s else s.event 0 0x29 (p + st * 256 + cause * 65536)

/-- Quarantine a partner (R555, R556). -/
def State.quarantine (s : State) (p cause : Nat) : State :=
  ((s.put (R.EDG_PT_STAT_QCAUSE p) cause).brgErr 0x72 (cause * 256 + p)).partTo p 3 cause (some 7)

/-- Count a drop towards quarantine (R555): the count returns to 0 at the next multiple of QWIN. -/
def State.quarCount (s : State) (p : Nat) (f : Fld) : State :=
  let x := s.part p
  let s := (s.inc f).setPart p { x with quar := x.quar + 1 }
  let w := us (s.f (R.EDG_PT_TIME_QWIN p))
  let s := if x.quar = 0 ∧ w ≠ 0 then s.at' .fab ((s.time.now / w + 1) * w) (.quarantineWindow (Fin.ofNat 64 p)) else s
  let lim := s.f (R.EDG_PT_CFG_QLIMIT p)
  if lim ≠ 0 ∧ lim ≤ x.quar + 1 then s.quarantine p 1 else s

/-- QUARANTINE_WINDOW (R555). -/
def execQuarantineWindow (p : Partner) (s : State) : Host.Outcome State Fault Refusal :=
  .next (s.setPart p { s.part p with quar := 0 })

/-! Inbound packets -/

/-- Does a range lie in one 256-byte aligned block? -/
def oneBlock (a n : Nat) : Bool := decide (1 ≤ n) && decide (n ≤ 256) && decide (a % 256 + n ≤ 256)

/-- Is a packet malformed? (R550) -/
def malformed (p : Packet) : Bool :=
  let len := p.len.toNat
  let arg := p.arg.toNat
  decide (p.beatBytes ≠ 48 + len) || decide (p.payload.length ≠ len) ||
    !(match p.typ.toNat with
      | 0x01 => decide (len = 64) && decide (arg = 0)
      | 0x02 => decide (len = 0) && decide (arg = 0)
      | 0x10 => oneBlock p.addr.toNat len && decide (arg = 0)
      | 0x11 => decide (len = 0) && decide (1 ≤ arg) && decide (arg ≤ 65535)
      | 0x12 => decide (len = 0) && oneBlock p.addr.toNat arg
      | 0x20 => decide (len = 0) && decide (arg = 0)
      | 0x21 => decide (len ≤ 256) && decide (arg = 0)
      | _ => false)

/-- The entry a packet belongs to (R553 step 2). -/
def State.partOf (s : State) (k : Nat) (p : Packet) : Option Nat :=
  (s.gwParts k).find? (fun e =>
    decide (s.pair (R.EDG_PT_ID_LO e) (R.EDG_PT_ID_HI e) = p.serial.toNat) && decide (s.f (R.EDG_PT_DIE_DIE e) = p.die.toNat))

/-- Fabric time in µs. -/
def State.fabUs (s : State) : Nat := s.time.now / us 1

/-- Fill a partner's bucket to the present µs (R554). -/
def State.fillBucket (s : State) (p : Nat) : State :=
  let x := s.part p
  s.setPart p { x with bucket := min (s.f (R.EDG_PT_RATE_BURST p)) (x.bucket + s.f (R.EDG_PT_RATE_RATE p) * (s.fabUs - x.stamp)), stamp := s.fabUs }

/-- The gateway looks at its inbound accesses again on the next fc. -/
def State.gwLook (s : State) (k : Nat) : State := s.arm .wall 1 (.txRspTimeout (Fin.ofNat 4 k))

/-- Answer a packet (R554): nothing when the partner is no longer active. -/
def State.answerPkt (s : State) (k p typ reqId status : Nat) (dat : List Byte) : State :=
  if s.partState p = 2 then s.sendPkt k p (if typ = 0x12 then 0x21 else 0x20) status reqId 0 0 (if status = 0 ∧ typ = 0x12 then dat else []) else s

/-- A violation of R554: REFUSED, VIOL, an ACC_WINDOW record. -/
def State.edgeViol (s : State) (k p : Nat) (pkt : Packet) (rec' : State → State) : State :=
  ((rec' s).answerPkt k p pkt.typ.toNat pkt.reqId.toNat 1 []).quarCount p (R.EDG_PT_DROP_VIOL p)

/-- Present the bursts of an inbound access, one for each 64-byte block it touches (R554). -/
def State.edgeBursts (s : State) (k ctx fa len : Nat) (we : Bool) (dat : List Byte) : State × List (Nat × Nat) :=
  let first := fa / 64
  let last := (fa + len - 1) / 64
  (List.range (last - first + 1)).foldl (fun a i =>
    let s := a.1
    let b := (first + i) * 64
    let lo := max fa b
    let n := min (fa + len) (b + 64) - lo
    let q : LReq := { id := s.loose.nextId, req := 9, home := s.gwHome k, homeDie := s.die, org := .edgeIn k 0, cls := .edge, ctx := some ctx, fa := b, we := we, be := bytesBe lo n, dat := placed lo ((dat.drop (lo - fa)).take n), op := .acc }
    (s.fresh.issueLoose q (s.gwHome k), a.2 ++ [(q.id, lo - fa)])) (s, [])

/-- The access check of R554 for a WRITE or READ: window and cause of a refusal. -/
def State.edgeCheck (s : State) (p ctx fa : Nat) (we : Bool) : Option (Nat × Nat) :=
  if faDie fa ≠ s.die then some (255, 1)
  else
    match s.allow .edge we (some ctx) fa with
    | .no w c => some (w, if c = 3 ∧ s.f (R.WIN_STATE_CTX w) ≠ ctx then 2 else c)
    | .ok _ =>
      let w := (s.winOf (faGran fa)).getD 0
      let bit := if w < 32 then bitFld (R.EDG_PT_WMASK_LO p) w else bitFld (R.EDG_PT_WMASK_HI p) (w - 32)
      if s.f (R.WIN_STATE_CTX w) ≠ ctx then some (w, 2) else if s.bit bit = false then some (w, 3) else none

/-- An admitted WRITE, READ or INC (R554). -/
def State.edgeAccess (s : State) (k p : Nat) (pkt : Packet) : State :=
  let ctx := s.f (R.EDG_PT_CFG_PCTX p)
  let fa := pkt.addr.toNat
  let typ := pkt.typ.toNat
  let base : InAcc := { part := p, typ := typ, reqId := pkt.reqId.toNat, fa := fa, len := 0, ids := [], resp := .ok, dat := [], sig := none }
  let add (s : State) (a : InAcc) : State := ((s.setGw k { s.gw k with ins := (s.gw k).ins ++ [a] }).countOut p).gwLook k
  if typ = 0x11 then
    let cn := fa % 2 ^ 19
    let at' := s.mapped (s.genFor (some ctx)) (cnCab cn)
    let key := if cnDie cn ≠ s.die then none
      else if 256 ≤ cnSel cn then some (R.SYN_G_CFG 0 (cnSel cn - 256))
      else at'.bind (fun c => ctrKey c (cnSel cn))
    match key with
    | none => s.edgeViol k p pkt (fun s => s.synErr 0x43 9 none (some ctx) cn (if cnDie cn = s.die ∧ cnSel cn < 256 ∧ 63 < cnSel cn then 4 else 1))
    | some c =>
      let foreign := s.bit (cfgBound c) = false ∨ s.f (cfgCtx c) ≠ ctx
      let flag (s : State) : State := if foreign ∧ cnSel cn < 256 then s.put (R.SYN_ERRFLAG_FOREIGN (at'.getD 0)) 1 else s
      if foreign ∨ s.bit (cfgEdge c) = false then s.edgeViol k p pkt (fun s => (flag s).synErr 0x43 9 none (some ctx) cn 5)
      else
        let id := s.syn.nextSig
        add (s.issueSig (.edge k) (some ctx) cn pkt.arg.toNat [] false) { base with sig := some id }
  else
    let we := decide (typ = 0x10)
    let n := if we then pkt.len.toNat else pkt.arg.toNat
    match s.edgeCheck p ctx fa we with
    | some (w, c) => s.edgeViol k p pkt (fun s => s.violate 9 none (some ctx) fa w c)
    | none =>
      let r := s.edgeBursts k ctx fa n we pkt.payload
      add r.1 { base with len := n, ids := r.2, dat := List.replicate (if we then 0 else n) 0 }

/-- A valid HELLO (R556). -/
def State.hello (s : State) (k p : Nat) (pkt : Packet) : State :=
  let g := s.gw k
  let s := if g.helloed.contains p then s else (s.setGw k { g with helloed := g.helloed ++ [p] }).sendHello k p
  let up (s : State) : State :=
    ((((s.put (R.EDG_PT_STAT_STATE p) 2).disarm (.partnerTimeout (Fin.ofNat 64 p))).disarm (.keepaliveSend (Fin.ofNat 64 p))).at' .real (s.time.real + us (s.f (R.EDG_PT_TIME_TIMEOUT p))) (.partnerTimeout (Fin.ofNat 64 p))).at' .real
      (s.time.real + us (s.f (R.EDG_PT_TIME_TIMEOUT p)) / 4) (.keepaliveSend (Fin.ofNat 64 p))
  if s.partState p ≠ 1 then s
  else
    let own := (List.range 12).flatMap (fun j => leBytes 4 (s.reg (R.HLM_HASH j)).toNat)
    if s.bit R.HLM_HLM_STAT_VALID ∧ pkt.payload.take 48 = own then up s
    else
      let s := s.brgErr 0x73 p
      if s.bit (R.EDG_PT_CFG_HLM_REQ p) then s.quarantine p 2 else (up s).event 0 0x29 (p + 2 * 256 + 2 * 65536)

/-- Which command of a gateway takes an answer packet (R558); one that none awaits is late. -/
def State.edgeResponse (s : State) (k p : Nat) (pkt : Packet) : State :=
  let g := s.gw k
  match g.cmds with
  | [] => s.inc (R.EDG_PT_PKTS_LATE p)
  | c :: rest =>
    match c.out.find? (fun o => decide (o.reqId = pkt.reqId.toNat)) with
    | none => s.inc (R.EDG_PT_PKTS_LATE p)
    | some o =>
      let st := pkt.status.toNat
      let isGet := decide (c.op = 2)
      if c.part ≠ p ∨ c.started = false ∨ decide (pkt.typ = 0x21) ≠ isGet then s.inc (R.EDG_PT_PKTS_LATE p)
      else if st ≠ 0 then s.edgeEnd k (min st 3)
      else if isGet ∧ pkt.len.toNat ≠ o.len then s.inc (R.EDG_MALFORMED_COUNT k)
      else
        let c := { c with out := c.out.filter (fun x => decide (x.reqId ≠ o.reqId)) }
        let s := (s.setGw k { g with cmds := c :: rest }).countOut p
        let go := s.later .wall 0 (if isGet then Instr.edgeGet (Fin.ofNat 4 k) else if c.op = 1 then .edgePut (Fin.ofNat 4 k) else .edgeIncCmd (Fin.ofNat 4 k))
        if !isGet then go
        else
          let a := c.loc + o.off
          let first := a / 64
          let last := (a + o.len - 1) / 64
          let bad := (List.range (last - first + 1)).findSome? (fun i => match s.allow .loose true (some c.ctx) ((first + i) * 64) with
            | .no w x => if faDie ((first + i) * 64) = s.die then some (max a ((first + i) * 64), w, x) else none
            | .ok _ => none)
          match bad with
          | some (fa, w, x) => (s.violate 9 none (some c.ctx) fa w x).edgeEnd k 6
          | none =>
            let r := (List.range (last - first + 1)).foldl (fun (e : State × List (Nat × Nat)) i =>
              let s := e.1
              let b := (first + i) * 64
              let lo := max a b
              let n := min (a + o.len) (b + 64) - lo
              let q : LReq := { id := s.loose.nextId, req := 9, home := s.gwHome k, homeDie := s.die, org := .edgeOut k 2, cls := .loose, ctx := some c.ctx, fa := b, we := true, be := bytesBe lo n, dat := placed lo ((pkt.payload.drop (lo - a)).take n), op := .acc }
              (s.fresh.issueLoose q (s.gwHome k), e.2 ++ [(q.id, lo - a)])) (go, [])
            r.1.setGw k { r.1.gw k with cmds := (r.1.gw k).cmds.map (fun x => if x = c then { x with ids := x.ids ++ r.2 } else x) }

/-- The checks of R553 in order, then what the packet asks for. -/
def State.edgeIn (s : State) (k : Nat) (pkt : Packet) : State :=
  if !s.gwIn k || !s.bit (R.EDG_STAT_LINK_UP k) || decide (64 ≤ (s.gw k).ins.length) then s
  else if malformed pkt then s.inc (R.EDG_MALFORMED_COUNT k)
  else
    match s.partOf k pkt with
    | none => s.inc (R.EDG_UNKNOWN_COUNT k)
    | some p =>
      let st := s.partState p
      let cost := (48 + pkt.len.toNat + 63) / 64
      let s' := s.fillBucket p
      let reads := ((s.gw k).ins.filter (fun a => decide (a.part = p) && decide (a.typ = 0x12))).length
      if st = 0 ∨ st = 3 then s.inc (R.EDG_UNKNOWN_COUNT k)
      else if pkt.epoch.toNat ≠ s.f (R.EDG_PT_STAT_EPOCH p) ∨ pkt.tagOk = false then s.quarCount p (R.EDG_PT_DROP_TAG p)
      else if pkt.seq.toNat ≤ s.pair (R.EDG_PT_RX_LO p) (R.EDG_PT_RX_HI p) then s.quarCount p (R.EDG_PT_DROP_REPLAY p)
      else
        let s := (s'.setPair (R.EDG_PT_RX_LO p) (R.EDG_PT_RX_HI p) pkt.seq.toNat).setPart p { s'.part p with heard := s.time.real }
        if st = 1 ∧ pkt.typ ≠ 0x01 then s.inc (R.EDG_PT_PKTS_DOWN p)
        else if (s.part p).bucket < cost ∨ (pkt.typ = 0x12 ∧ s.f (R.EDG_PT_CFG_RD_MAX p) ≤ reads) then s.quarCount p (R.EDG_PT_DROP_RATE p)
        else
          let s := s.setPart p { s.part p with bucket := (s.part p).bucket - cost }
          match pkt.typ.toNat with
          | 0x01 => s.hello k p pkt
          | 0x02 => s
          | 0x20 => s.edgeResponse k p pkt
          | 0x21 => s.edgeResponse k p pkt
          | _ => s.edgeAccess k p pkt

/-- A packet that comes with the row of its type; a malformed one is taken by EDGE_MALFORMED_PACKET, or counted here. -/
def State.edgeRow (s : State) (k : Nat) (pkt : Packet) (typ : Nat) : State := if pkt.typ.toNat = typ then s.edgeIn k pkt else s

/-- EDGE_HELLO (R556). -/
def execEdgeHello (k : Gw) (pkt : Packet) (s : State) : Host.Outcome State Fault Refusal := .next (s.edgeRow k pkt 0x01)
/-- EDGE_KEEPALIVE (R557). -/
def execEdgeKeepalive (k : Gw) (pkt : Packet) (s : State) : Host.Outcome State Fault Refusal := .next (s.edgeRow k pkt 0x02)
/-- EDGE_WRITE (R554). -/
def execEdgeWrite (k : Gw) (pkt : Packet) (s : State) : Host.Outcome State Fault Refusal := .next (s.edgeRow k pkt 0x10)
/-- EDGE_INC (R554). -/
def execEdgeInc (k : Gw) (pkt : Packet) (s : State) : Host.Outcome State Fault Refusal := .next (s.edgeRow k pkt 0x11)
/-- EDGE_READ (R554). -/
def execEdgeRead (k : Gw) (pkt : Packet) (s : State) : Host.Outcome State Fault Refusal := .next (s.edgeRow k pkt 0x12)
/-- EDGE_ACK (R558). -/
def execEdgeAck (k : Gw) (pkt : Packet) (s : State) : Host.Outcome State Fault Refusal := .next (s.edgeRow k pkt 0x20)
/-- EDGE_READ_RSP (R558). -/
def execEdgeReadRsp (k : Gw) (pkt : Packet) (s : State) : Host.Outcome State Fault Refusal := .next (s.edgeRow k pkt 0x21)
/-- EDGE_MALFORMED_PACKET (R553 step 1). -/
def execEdgeMalformedPacket (k : Gw) (pkt : Packet) (s : State) : Host.Outcome State Fault Refusal := .next (if malformed pkt then s.edgeIn k pkt else s)

/-! Answers of inbound accesses and the transmit queue -/

/-- The worse of two responses: FAULT, ASLEEP, OK (R554). -/
def worse (a b : Resp) : Resp :=
  if a = .fault ∨ b = .fault then .fault else if a = .asleep ∨ b = .asleep then .asleep else .ok

/-- Replace bytes from a position on. -/
def patch (l : List Byte) (off : Nat) (b : List Byte) : List Byte := l.take off ++ b ++ l.drop (off + b.length)

/-- An answer of a burst joins the access it belongs to; words that read zero bring zeros. -/
def joinIn (e : LReq × Ans × Nat) (a : InAcc) : InAcc :=
  match a.ids.find? (fun x => decide (x.1 = e.1.id)) with
  | none => a
  | some x =>
    let lo := a.fa + x.2
    let n := min (a.fa + a.len) (lo / 64 * 64 + 64) - lo
    { a with ids := a.ids.filter (fun y => decide (y.1 ≠ e.1.id)), resp := worse a.resp e.2.1.resp, dat := if a.typ = 0x12 then patch a.dat x.2 (ansBytes e.2.1 (lo % 64) n) else a.dat }

/-- STATUS of a response (R549, R554). -/
def statusOf : Resp → Nat
  | .ok => 0
  | .zero => 0
  | .fault => 2
  | .asleep => 3

/-- The outcome of an access that is over; none while it is in progress. -/
def State.inOver (s : State) (a : InAcc) : Option Nat :=
  match a.sig with
  | some g =>
    match s.syn.edgeDone.find? (fun e => decide (e.1 = g)) with
    | some e => some e.2
    | none => if s.syn.signals.any (fun x => decide (x.id = g)) then none else some 2
  | none => if a.ids.isEmpty then some (statusOf a.resp) else none

/-- Send the answers of the inbound accesses that are over. -/
def State.gwAnswers (s : State) (k : Nat) : State :=
  let t := s.takeAnswers (fun o => match o with
    | .edgeIn j _ => decide (j = k)
    | .np _ _ _ | .hdp _ | .seg _ _ _ | .fetch _ _ _ | .mgt _ | .edgeOut _ _ | .asy _ _ | .rep _ _ | .rmp _ | .swp _ | .gone => false)
  let s := t.1
  let ins := (s.gw k).ins.map (fun a => t.2.foldl (fun a e => joinIn e a) a)
  let past := ins.filter (fun a => (s.inOver a).isSome)
  let left := ins.filter (fun a => (s.inOver a).isNone)
  let st := past.map (fun a => (a, (s.inOver a).getD 0))
  let s := s.setGw k { s.gw k with ins := left }
  let s := st.foldl (fun s e => (s.answerPkt k e.1.part e.1.typ e.1.reqId e.2 e.1.dat).countOut e.1.part) s
  let s := { s with syn := { s.syn with edgeDone := s.syn.edgeDone.filter (fun e => !past.any (fun a => decide (a.sig = some e.1))) } }
  if left.any (fun a => a.sig.isSome) then s.gwLook k else s

/-- TX_RSP_TIMEOUT (R547, R554, R559): finished inbound accesses are answered; the link takes the packet presented, or a
READ_RSP that it has not taken within TIMEOUT is discarded. -/
def execTxRspTimeout (k : Gw) (s : State) : Host.Outcome State Fault Refusal :=
  let s := s.gwAnswers k
  let g := s.gw k
  let s := match g.tx with
  | t :: rest => if t.take.any (fun a => decide (a ≤ s.time.real)) && s.bit (R.EDG_STAT_LINK_UP k) then s.setGw k { g with tx := rest, shown := some t.pkt } else s
  | [] => s
  .next ((s.txExpire k).txHead k)

/-! Link, liveness -/

/-- EDGE_LINK_UP (R556): HELLO to every DOWN partner. -/
def execEdgeLinkUp (k : Gw) (s : State) : Host.Outcome State Fault Refusal :=
  .next (if s.bit (R.EDG_STAT_LINK_UP k) || decide (s.ties.edges ≤ k.val) then s
  else
    let s := (s.put (R.EDG_STAT_LINK_UP k) 1).setGw k { s.gw k with helloed := [] }
    let s := s.txHead k
    if s.gwIn k then
      (((s.gwParts k).foldl (fun s p => if s.partState p = 1 then s.sendHello k p else s) s).disarm (.helloRepeat k)).at' .real (s.time.real + us 100) (.helloRepeat k)
    else s)

/-- EDGE_LINK_DOWN (R552): the gateway's active partners go DOWN. -/
def execEdgeLinkDown (k : Gw) (s : State) : Host.Outcome State Fault Refusal :=
  let s := s.put (R.EDG_STAT_LINK_UP k) 0
  .next ((s.gwParts k).foldl (fun s p => if s.partState p = 2 then s.partTo p 1 4 none else s) s)

/-- HELLO_REPEAT (R556). -/
def execHelloRepeat (k : Gw) (s : State) : Host.Outcome State Fault Refusal :=
  .next (if s.gwIn k && s.bit (R.EDG_STAT_LINK_UP k) then
      ((s.gwParts k).foldl (fun s p => if s.partState p = 1 then s.sendHello k p else s) s).at' .real (s.time.real + us 100) (.helloRepeat k)
    else s)

/-- KEEPALIVE_SEND (R557). -/
def execKeepaliveSend (p : Partner) (s : State) : Host.Outcome State Fault Refusal :=
  let k := s.f (R.EDG_PT_CFG_GW p)
  let q := us (s.f (R.EDG_PT_TIME_TIMEOUT p)) / 4
  let due := (s.part p).spoke + q
  .next (if s.partState p ≠ 2 then s
    else if due ≤ s.time.real then (s.sendPkt k p 0x02 0 0 0 0 []).at' .real (s.time.real + max q 1) (.keepaliveSend p)
    else s.at' .real due (.keepaliveSend p))

/-- PARTNER_TIMEOUT (R557). -/
def execPartnerTimeout (p : Partner) (s : State) : Host.Outcome State Fault Refusal :=
  let due := (s.part p).heard + us (s.f (R.EDG_PT_TIME_TIMEOUT p))
  .next (if s.partState p ≠ 2 then s
    else if due ≤ s.time.real then s.partTo p 1 3 none
    else s.at' .real due (.partnerTimeout p))

/-! Outbound commands -/

/-- A write of CMD_C with GO (R558, R566, R567). -/
def State.edgeGo (s : State) (k : Nat) (v : W32) : State :=
  let n := v.toNat
  let op := n / 2 ^ 16 % 4
  let p := n / 2 ^ 18 % 64
  let len := n % 65536 + 1
  let a := (s.reg (R.EDG_CMD_A k)).toNat
  let g := s.gw k
  if n / 2 ^ 31 = 0 then s
  else if op = 0 ∨ 16 ≤ g.cmds.length ∨ (op ≠ 3 ∧ 2 ^ 32 < a + len) ∨ s.partState p = 0 then s.put (R.EDG_CMD_STAT_REJ k) 1
  else
    let c : EdgeCmd := { op := op, len := len, part := p, ctx := n / 2 ^ 24 % 16, loc := a, remote := (s.reg (R.EDG_CMD_B k)).toNat, started := false, off := 0, ids := [], prep := none, out := [] }
    (s.setGw k { g with cmds := g.cmds ++ [c] }).later .wall 0 (match op with
      | 1 => .edgePut (Fin.ofNat 4 k)
      | 2 => .edgeGet (Fin.ofNat 4 k)
      | _ => .edgeIncCmd (Fin.ofNat 4 k))

/-- Replace the command at the head. -/
def State.setCmd (s : State) (k : Nat) (c : EdgeCmd) : State := (s.setGw k { s.gw k with cmds := c :: (s.gw k).cmds.drop 1 }).countOut c.part

/-- Send a packet of the head command and await its response within TIMEOUT. -/
def State.cmdPkt (s : State) (k : Nat) (c : EdgeCmd) (typ off len addr arg : Nat) (payload : List Byte) : State × EdgeCmd :=
  let g := s.gw k
  let id := g.nextReq
  let s := (s.setGw k { g with nextReq := (id + 1) % 65536 }).sendPkt k c.part typ 0 id addr arg payload
  (s.at' .real (s.time.real + us (s.f (R.EDG_PT_TIME_TIMEOUT c.part))) (.edgePacketTimeout (Fin.ofNat 4 k)),
    { c with out := c.out ++ [({ reqId := id, off := off, len := len, sent := s.time.real } : OutPkt)] })

/-- Length of the packet at position `off`: split at 256-byte boundaries of the remote address (R558). -/
def pktLen (c : EdgeCmd) (off : Nat) : Nat := min (c.len - off) (256 - (c.remote + off) % 256)

/-- Begin the head command, or end it where it cannot run (R558, R560): none when it has ended. -/
def State.cmdReady (s : State) (k : Nat) (c : EdgeCmd) : Option Nat :=
  if !s.gwIn k then some 5
  else if s.partState c.part ≠ 2 ∧ c.started = false then some 5
  else if s.f (R.EDG_PT_CFG_PCTX c.part) ≠ c.ctx ∧ c.started = false then some 5
  else if s.ctxState c.ctx = 3 then some 7
  else none

/-- Take the answers of the local accesses of the head command: the first failure, or the command with what is left. -/
def State.cmdAnswers (s : State) (k : Nat) (c : EdgeCmd) : State × (Resp × EdgeCmd) :=
  let t := s.takeAnswers (fun o => match o with
    | .edgeOut j n => decide (j = k) && decide (n = c.op)
    | .np _ _ _ | .hdp _ | .seg _ _ _ | .fetch _ _ _ | .mgt _ | .edgeIn _ _ | .asy _ _ | .rep _ _ | .rmp _ | .swp _ | .gone => false)
  let r := t.2.foldl (fun (a : Resp × EdgeCmd) e =>
    match a.2.ids.find? (fun x => decide (x.1 = e.1.id)) with
    | none => a
    | some x =>
      let c := a.2
      let lo := c.loc + c.off + x.2
      let n := min (c.loc + c.off + pktLen c c.off) (lo / 64 * 64 + 64) - lo
      let c := { c with ids := c.ids.filter (fun y => decide (y.1 ≠ e.1.id)), prep := if c.op = 1 then c.prep.map (fun d => patch d x.2 (ansBytes e.2.1 (lo % 64) n)) else c.prep }
      (worse a.1 e.2.1.resp, c)) (Resp.ok, c)
  (t.1, r)

/-- Go on with a PUT (R558): read the data of the next packet, send it, end at the last response. -/
def State.putStep (s : State) (k : Nat) (c : EdgeCmd) : State :=
  let a := s.cmdAnswers k c
  let s := a.1
  let c := a.2.2
  if statusOf a.2.1 ≠ 0 then (s.setCmd k c).edgeEnd k (statusOf a.2.1)
  else
    let len := pktLen c c.off
    let r := if c.ids.isEmpty && c.prep.isSome then
        let r := s.cmdPkt k c 0x10 c.off len (c.remote + c.off) 0 (c.prep.getD [])
        (r.1, { r.2 with off := c.off + len, prep := none })
      else (s, c)
    let s := r.1
    let c := r.2
    let len := pktLen c c.off
    if c.len ≤ c.off then (if c.out.isEmpty then (s.setCmd k c).edgeEnd k 0 else s.setCmd k c)
    else if c.prep.isSome || decide (s.f (R.EDG_PT_CFG_RD_MAX c.part) ≤ c.out.length) then s.setCmd k c
    else
      let lo := c.loc + c.off
      let first := lo / 64
      let last := (lo + len - 1) / 64
      let bad := (List.range (last - first + 1)).findSome? (fun i => match s.allow .loose false (some c.ctx) ((first + i) * 64) with
        | .no w x => if faDie ((first + i) * 64) = s.die then some (max lo ((first + i) * 64), w, x) else none
        | .ok _ => none)
      match bad with
      | some (fa, w, x) => ((s.violate 9 none (some c.ctx) fa w x).setCmd k c).edgeEnd k 6
      | none =>
        let r := (List.range (last - first + 1)).foldl (fun (e : State × List (Nat × Nat)) i =>
          let s := e.1
          let b := (first + i) * 64
          let q : LReq := { id := s.loose.nextId, req := 9, home := s.gwHome k, homeDie := s.die, org := .edgeOut k 1, cls := .loose, ctx := some c.ctx, fa := b, we := false, be := 2 ^ 64 - 1, dat := [], op := .acc }
          (s.fresh.issueLoose q (s.gwHome k), e.2 ++ [(q.id, max lo b - lo)])) (s, [])
        r.1.setCmd k { c with ids := r.2, prep := some (List.replicate len 0) }

/-- Go on with a GET (R558): up to RD_MAX READ packets await responses; the data is written as it comes. -/
def State.getStep (s : State) (k : Nat) (c : EdgeCmd) : State :=
  let a := s.cmdAnswers k c
  let s := a.1
  let c := a.2.2
  if statusOf a.2.1 ≠ 0 then (s.setCmd k c).edgeEnd k (statusOf a.2.1)
  else
    let r := (List.range (s.f (R.EDG_PT_CFG_RD_MAX c.part) - c.out.length)).foldl (fun (e : State × EdgeCmd) _ =>
      let c := e.2
      if c.len ≤ c.off then e
      else
        let len := pktLen c c.off
        let r := e.1.cmdPkt k c 0x12 c.off len (c.remote + c.off) len []
        (r.1, { r.2 with off := c.off + len })) (s, c)
    let s := r.1.setCmd k r.2
    if r.2.len ≤ r.2.off ∧ r.2.out = [] ∧ r.2.ids = [] then s.edgeEnd k 0 else s

/-- Waiting commands of a context that is being killed end ABORTED (R560); the head is ended by `State.cmdReady`. -/
def State.killedCmds (s : State) (k : Nat) : State :=
  let g := s.gw k
  let hit (c : EdgeCmd) : Bool := decide (s.ctxState c.ctx = 3)
  let n := ((g.cmds.drop 1).filter hit).length
  if n = 0 then s
  else ((s.setGw k { g with cmds := g.cmds.take 1 ++ (g.cmds.drop 1).filter (fun c => !hit c) }).put (R.EDG_CMD_STAT_LAST k) 7).incBy (R.EDG_CMD_STAT_DONE k) n

/-- Run the head command of a gateway when it has this OP. -/
def State.edgeStep (s : State) (k op : Nat) : State :=
  match (s.gw k).cmds with
  | [] => s
  | c :: _ =>
    if c.op ≠ op then s
    else
      match s.cmdReady k c with
      | some st => (s.killedCmds k).edgeEnd k st
      | none =>
        let s := s.killedCmds k
        let first := !c.started
        let c := { c with started := true }
        match op with
        | 1 => s.putStep k c
        | 2 => s.getStep k c
        | _ =>
          if first then
            let r := s.cmdPkt k c 0x11 0 0 (c.remote % 2 ^ 19) (c.loc % 65536) []
            r.1.setCmd k r.2
          else if c.out.isEmpty then s.edgeEnd k 0 else s.setCmd k c

/-- EDGE_PUT (R558). -/
def execEdgePut (k : Gw) (s : State) : Host.Outcome State Fault Refusal := .next (s.edgeStep k 1)
/-- EDGE_GET (R558). -/
def execEdgeGet (k : Gw) (s : State) : Host.Outcome State Fault Refusal := .next (s.edgeStep k 2)
/-- EDGE_INC_CMD (R558). -/
def execEdgeIncCmd (k : Gw) (s : State) : Host.Outcome State Fault Refusal := .next (s.edgeStep k 3)

/-- EDGE_PACKET_TIMEOUT (R558). -/
def execEdgePacketTimeout (k : Gw) (s : State) : Host.Outcome State Fault Refusal :=
  .next (match (s.gw k).cmds with
  | [] => s
  | c :: _ => if c.out.any (fun o => decide (o.sent + us (s.f (R.EDG_PT_TIME_TIMEOUT c.part)) ≤ s.time.real)) then s.edgeEnd k 4 else s)

/-! Registers -/

/-- Masters of block EDG (R566). -/
def edgMaster (m : Master) : Bool := m == .sec || m == .dbg

/-- PARTNER_KEY_GO (R552, R560). -/
def State.keyGo (s : State) (p : Nat) : State :=
  let s := s.setPart p { s.part p with key := (List.range 8).map (fun j => s.reg (R.EDG_PT_KEY p j)) }
  let s := (s.put (R.EDG_PT_STAT_EPOCH p) (s.f (R.EDG_PT_STAT_EPOCH p) + 1)).setPair (R.EDG_PT_TX_LO p) (R.EDG_PT_TX_HI p) 1
  let s := s.setPair (R.EDG_PT_RX_LO p) (R.EDG_PT_RX_HI p) 0
  if s.partState p = 0 ∧ s.bit (R.EDG_PT_CFG_VALID p) = false then s else (s.put (R.EDG_PT_STAT_QCAUSE p) 0).partTo p 1 5 (some 7)

/-- A write of PT_CTL: KEY_GO first, then CLEAR. -/
def State.ptCtl (s : State) (m : Master) (p : Nat) (v : W32) : State :=
  s.gate (edgMaster m) m (R.EDG_PT_CTL p) (fun s =>
    let s := if vbit v 0 then s.keyGo p else s
    if vbit v 1 then (s.put (R.EDG_PT_STAT_QCAUSE p) 0).partTo p 0 5 (some 7) else s)

/-- PARTNER_KEY_GO (R552): the write sets KEY_GO. -/
def execPartnerKeyGo (m : Master) (p : Partner) (v : W32) (s : State) : Host.Outcome State Fault Refusal := .next (s.row m (.partnerKeyGo m p v) (fun s => s.ptCtl m p (v ||| 1)))

/-- PARTNER_CLEAR (R552): the write sets CLEAR. -/
def execPartnerClear (m : Master) (p : Partner) (v : W32) (s : State) : Host.Outcome State Fault Refusal := .next (s.row m (.partnerClear m p v) (fun s => s.ptCtl m p (v ||| 2)))

/-- A gateway goes out of service: queued packets are dropped, its partners go DOWN, its commands end NOT_ACTIVE (R546, R560). -/
def State.gwOut (s : State) (k cause : Nat) : State :=
  let n := (s.gw k).cmds.length
  let s := (List.range n).foldl (fun s _ => s.edgeEnd k 5) s
  let s := (s.gwParts k).foldl (fun s p => if s.partState p = 2 then s.partTo p 1 cause none else s) s
  s.setGw k { s.gw k with ins := [], tx := [] }

/-- EDGE_EN_WRITE (R560, R566, R567): PWC writes EN alone. Under BOOT_LOCK every write enters a record, whatever HOME it
carries (R12); of PWC, which writes whole words, otherwise only one that would change another field does (DEDUCED, log entry 69). -/
def execEdgeEnWrite (m : Master) (k : Gw) (v : W32) (s : State) : Host.Outcome State Fault Refusal :=
  .next (s.row m (.edgeEnWrite m k v) (fun s => s.gate (edgMaster m || m == .pwc) m (R.EDG_CTL k) (fun s =>
    let was := s.bit (R.EDG_CTL_EN k)
    let s := s.put (R.EDG_CTL_EN k) (v.toNat % 2)
    let n := v.toNat / 2 % 2
    let h := v.toNat / 256 % 128
    let turned := s.bootLocked || (!edgMaster m && (decide (s.f (R.EDG_CTL_WAKE_EN k) ≠ n) || decide (s.f (R.EDG_CTL_HOME k) ≠ h)))
    let s := if edgMaster m then s.put (R.EDG_CTL_WAKE_EN k) n else s
    let s := if edgMaster m && !s.bootLocked then s.put (R.EDG_CTL_HOME k) h else s
    let s := if turned then s.locked (masterReq m) (s.ca (R.EDG_CTL k)) else s
    if was && !vbit v 0 then s.gwOut k 5 else s)))

end Sys2Proof.Machine
end

