-- ==== Sys2Proof/Machine/Map.lean ====
section
/-! DEFINITION. The cabinet map and the detours: the commands of CMAP_CTL, the map entries and DET, and the rebuild after a fence
(chapters "Cabinets, banks and the fabric address" and "Assay passes, remap and fencing"). -/
namespace Sys2Proof.Machine

/-! Generations -/

/-- Is a generation in use: current, or recorded by a bound context? (R36) -/
def State.genUsed (s : State) (g : Nat) : Bool :=
  decide (s.cur = g) || (List.range 16).any (fun c => decide (2 ≤ s.ctxState c) && decide (s.ctxGen c = g))

/-- Is a window KEPT with the generation, or SWEEPING under a RELEASE with it? (R403) -/
def State.genKept (s : State) (g : Nat) : Bool :=
  (List.range 64).any (fun w => decide (s.f (R.WIN_STATE_KGEN w) = g) &&
    (decide (s.f (R.WIN_STATE_STATE w) = 4) || (decide (s.f (R.WIN_STATE_STATE w) = 3) && decide (s.ctx.busy = some (w, 3)))))

/-- May the entries and the count of a generation be written? (R36, R403) -/
def State.genFree (s : State) (g : Nat) : Bool := !s.genUsed g && !s.genKept g

/-- Field of a generation's logical count. -/
def logFld (g : Nat) : Fld := if g = 0 then R.IDV_CMAP_CTL_G0_LOG else R.IDV_CMAP_CTL_G1_LOG

/-- A write of a count field (R36, R37): the value it holds is no write; one of a generation in use is ignored and logged. -/
def State.setCount (s : State) (g n : Nat) : State :=
  if n = s.genLog g then s
  else if s.genFree g then s.put (logFld g) n
  else s.locked 16 (s.ca R.IDV_CMAP_CTL)

/-- The checks before a generation becomes current (R37). -/
def State.mapCheck (s : State) (g : Nat) : Bool :=
  (s.genSet g).all (fun p => s.startCabs.contains p && s.synth p) && allDiff (s.genSet g) && decide (s.genLog g ≤ s.f R.IDV_CONF_CAB_PER_DIE)

/-- A write of CUR (R37): a failed check leaves it and enters ACC_MAPCHK. -/
def State.setCur (s : State) (g : Nat) : State :=
  if g = s.cur then s
  else if s.mapCheck g then s.put R.IDV_CMAP_CTL_CUR g
  else s.err { kind := 0x42, req := 16, cab := none, addr := s.ca R.IDV_CMAP_CTL }

/-- A write of CMAP_CTL, field by field: the counts before CUR (R37). -/
def State.cmapCtl (s : State) (v : W32) : State :=
  (((s.setCount 0 (v.toNat / 256 % 256)).setCount 1 (v.toNat / 65536 % 256)).setCur (v.toNat % 2)).mapMoved

/-- CMAP_CTL_WRITE (R35 to R37). -/
def execCmapCtlWrite (m : Master) (v : W32) (s : State) : Host.Outcome State Fault Refusal :=
  .next (s.row m (.cmapCtlWrite m v) (fun s => s.gate (m == .sec) m R.IDV_CMAP_CTL (fun s => s.cmapCtl v)))

/-- Write an entry of a generation. -/
def State.setMap (s : State) (g n phys : Nat) (valid : Bool) : State := s.puts [(mapPhys g n, phys), (mapValid g n, if valid then 1 else 0)]

/-- CMAP_ENTRY_WRITE (R35, R36). -/
def execCmapEntryWrite (m : Master) (g : Fin 2) (n : Fin 128) (v : W32) (s : State) : Host.Outcome State Fault Refusal :=
  .next (s.row m (.cmapEntryWrite m g n v) (fun s => s.gate (m == .sec && s.genFree g) m (mapReg g n) (fun s => (s.setMap g n (v.toNat % 128) (vbit v 15)).mapMoved)))

/-! Detours -/

/-- Are the cabinets at the given offsets from `p` mapped and unfenced? An offset is (column, row): 0 one less, 1 the same, 2 one
more. -/
def State.sideClear (s : State) (p : Nat) (at' : List (Nat × Nat)) : Bool :=
  at'.all (fun o =>
    let c := p % 16 + o.1
    let r := p / 16 + o.2
    decide (1 ≤ c) && decide (c ≤ 16) && decide (1 ≤ r) && decide (r ≤ 8) &&
      (List.range 128).any (fun n => decide (s.mapped s.cur n = some ((r - 1) * 16 + (c - 1)))))

/-- The sides SEC chooses for a cabinet (R250): N and E unless only the other side is clear. -/
def State.detOf (s : State) (p : Nat) : Nat × Nat :=
  let n := s.sideClear p [(0, 0), (1, 0), (2, 0)]
  let so := s.sideClear p [(0, 2), (1, 2), (2, 2)]
  let e := s.sideClear p [(2, 0), (2, 1), (2, 2)]
  let w := s.sideClear p [(0, 0), (0, 1), (0, 2)]
  (if !n && so then 1 else 0, if !e && w then 1 else 0)

/-- SEC computes the DET entries of every unfenced cabinet (R250). -/
def State.detAll (s : State) : State :=
  (s.cabs.filter (fun p => !s.fenced p)).foldl (fun s p =>
    let d := s.detOf p
    s.puts [(R.IDV_DET_ROWSIDE p, d.1), (R.IDV_DET_COLSIDE p, d.2)]) s

/-- DET_WRITE (R250, R257). -/
def execDetWrite (m : Master) (n : Cab) (v : W32) (s : State) : Host.Outcome State Fault Refusal :=
  .next (s.row m (.detWrite m n v) (fun s => s.gate (m == .sec && !s.fenced n) m (R.IDV_DET n) (fun s => s.setReg (R.IDV_DET n) (v &&& 3))))

/-! The rebuild -/

/-- The new entries of generation `g`: the mapped entries of the current one in their order, zero beyond (R38). -/
def State.rebuildMap (s : State) (g : Nat) : State :=
  let keep := (List.range 128).filterMap (fun n => s.mapped s.cur n)
  let s := (List.range 128).foldl (fun s n =>
    match keep[n]? with
    | some p => s.setMap g n p true
    | none => s.setMap g n 0 false) s
  let s := ((s.put (logFld g) keep.length).setCur g).mapMoved
  s.event 0 0x01 (g + keep.length * 256)

/-- MAP_REBUILD (R38, R250, R403, R457): SEC, in service, computes the detours, waits for the other generation to be out of use, releases the windows
KEPT with it one after the other, names them in an event, and rebuilds the map. While it cannot it looks again at a moment of its
own. -/
def execMapRebuild (s : State) : Host.Outcome State Fault Refusal :=
  let g := 1 - s.cur
  let again (s : State) : State := s.useFree.arm .wall (1 + s.free) .mapRebuild
  .next (if !s.rep.rebuild then s
  else if s.masked.contains 0 || (s.bit R.MGT_MODE_MODE && !s.bit (bitFld R.MGT_CORE_STAT 0)) || !s.bootLocked || s.rgsShut 0 then again s
  else
    let s := s.detAll
    if s.genUsed g then again s
    else
      match (List.range 64).find? (fun w => decide (s.f (R.WIN_STATE_STATE w) = 4) && decide (s.f (R.WIN_STATE_KGEN w) = g)) with
      | some w =>
        if s.ctx.busy.isSome then again s
        else again (({ s with rep := { s.rep with lost := s.rep.lost + 2 ^ w } }).later .wall 0 (.windowRelease .sec (Fin.ofNat 64 w) 0))
      | none =>
        if s.genKept g then again s
        else
          let s := if s.rep.lost = 0 then s else ({ s with rep := { s.rep with lost := 0 } }).event 0 0x03 (s.rep.lost * 2 ^ 32)
          { s with rep := { s.rep with rebuild := false } }.rebuildMap g)

end Sys2Proof.Machine
end

