-- ==== Sys2Proof/Machine/Fence.lean ====
section
/-! DEFINITION. Fences: orders, pending causes, station polls and what a fence does on the fc on which it takes effect (chapter
"Assay passes, remap and fencing"). -/
namespace Sys2Proof.Machine

/-! Orders and causes -/

/-- FENCE_CMD (R242, R257). -/
def execFenceCmd (m : Master) (v : W32) (s : State) : Host.Outcome State Fault Refusal :=
  .next (s.row m (.fenceCmd m v) (fun s => s.gate (m == .sec || m == .dbg) m R.IDV_FENCE_CMD (fun s =>
    let p := v.toNat % 128
    if !vbit v 31 then s
    else if s.synth p then s.fenceCause p (if m == .dbg then 5 else 4)
    else s.locked (masterReq m) (s.ca R.IDV_FENCE_CMD))))

/-- FENCE_PEND_CLEAR (R245). -/
def execFencePendClear (m : Master) (k : Fin 4) (v : W32) (s : State) : Host.Outcome State Fault Refusal :=
  .next (s.row m (.fencePendClear m k v) (fun s => (List.range 32).foldl (fun s j =>
    let p := 32 * k.val + j
    if vbit v j && s.bit (cabBit R.IDV_FENCE_PEND p) then s.puts [(cabBit R.IDV_FENCE_PEND p, 0), (R.IDV_FENCE_CAUSE_PEND_CAUSE p, 0)] else s) s))

/-- The next multiple of UE_WINDOW (R243). -/
def State.ueArm (s : State) : State :=
  let w := us (max 1 (s.f R.IDV_FENCE_CFG_UE_WINDOW))
  (s.disarm .ueWindowReset).at' .fab ((s.time.now / w + 1) * w) .ueWindowReset

/-- UE_WINDOW_RESET (R243). -/
def execUeWindowReset (s : State) : Host.Outcome State Fault Refusal :=
  .next (((List.range 128).foldl (fun s p => s.put (R.IDV_FENCE_CAUSE_UE_CNT p) 0) s).ueArm)

/-! Polls -/

/-- Write it. -/
def State.setPoll (s : State) (p : Nat) (x : PollSt) : State :=
  { s with rep := { s.rep with polls := SMap.set PollSt.idle s.rep.polls p x } }

/-- Does any entry of either generation map the cabinet? -/
def State.isMapped (s : State) (p : Nat) : Bool := (List.range 128).any (fun n => decide (s.mapped 0 n = some p) || decide (s.mapped 1 n = some p))

/-- Poll a silent cabinet again at the next multiple of the poll period (R244). -/
def State.pollAgain (s : State) (cab : Cab) : State :=
  let w := us (max 1 (s.f R.IDV_STN_POLL_PERIOD))
  (s.disarm (.stationPoll cab false)).at' .fab ((s.time.now / w + 1) * w) (.stationPoll cab false)

/-- STATION_POLL (R244): a poll of a mapped cabinet in Run or Doze, answered or not. A station that does not answer goes on so
until a poll is answered. -/
def execStationPoll (cab : Cab) (answered : Bool) (s : State) : Host.Outcome State Fault Refusal :=
  .next (if !s.isMapped cab then s
  else if 1 < s.pow cab then (if (s.poll cab).silent && !answered then s.pollAgain cab else s)
  else if answered then
    let x := s.poll cab
    (s.setPoll cab (if x.open'.isEmpty then PollSt.idle else { x with open' := x.open' ++ [none], silent := false })).disarm (.stationPoll cab false)
  else
    let x := s.poll cab
    let s := s.pollAgain cab
    (s.setPoll cab { x with open' := x.open' ++ [some s.time.fc], silent := true }).later .wall 1024 (.pollMissed cab))

/-- Polls count in their order: a missed one adds to the misses in a row, an answered one ends them. -/
def PollSt.count (fc : Nat) : List (Option Nat) → Nat → List (Option Nat) × Nat
  | none :: l, _ => PollSt.count fc l 0
  | some t :: l, n => if t + 1024 ≤ fc then PollSt.count fc l (n + 1) else (some t :: l, n)
  | [], n => ([], n)

/-- POLL_MISSED (R242, R244): three in a row are the cause SILENT. -/
def execPollMissed (cab : Cab) (s : State) : Host.Outcome State Fault Refusal :=
  let x := s.poll cab
  .next (match x.open' with
  | some t :: l =>
    if t + 1024 ≤ s.time.fc then
      let y := PollSt.count s.time.fc l (x.miss + 1)
      let s := s.setPoll cab { x with miss := min 3 y.2, open' := y.1 }
      if 3 ≤ max (x.miss + 1) y.2 then s.fenceCause cab 3 else s
    else s
  | _ => s)

/-! What a fence stops -/

/-- The context uses the cabinet: a window bound to it covers a logical cabinet that its generation places there, or its engine
attachment group is there (R248). -/
def State.ctxUses (s : State) (c p : Nat) : Bool :=
  decide (s.eag p = some c) ||
    (List.range 64).any (fun w =>
      (decide (s.f (R.WIN_STATE_STATE w) = 1) || decide (s.f (R.WIN_STATE_STATE w) = 2)) && decide (s.f (R.WIN_STATE_CTX w) = c) && s.bit (R.WIN_PART_B_VALID w) &&
        (List.range 128).any (fun n => decide (s.f (R.WIN_PART_A_BASE w) / 1024 ≤ n) && decide (n ≤ s.f (R.WIN_PART_B_LIMIT w) / 1024) &&
          decide (s.mapped (s.ctxGen c) n = some p)))

/-- Does the route from `a` to `b` pass through a cabinet? -/
def State.through (s : State) (p a b : Nat) : Bool := (s.walk b 300 a none).any (fun l => l.contains p)

/-- Where the answer of an access goes on this die: its requester's cabinet, or the lane toward its die. -/
def State.backTo (s : State) (q : LReq) (p : Nat) : Nat :=
  if q.homeDie = s.die then q.home else ((s.laneTo q.homeDie p).map s.laneCab).getD p

/-- Is the access, from `a` to `b`, one that R248 names for a fence of `p`? -/
def State.accHit (s : State) (p : Nat) (q : LReq) (a b : Nat) : Bool := decide (b = p) || s.through p a b || s.through p b (s.backTo q b)

/-- The outstanding loose accesses that a fence of `p` answers (R248); an engine's own burst on its own banks only ends. -/
def State.fenceHits (s : State) (p : Nat) : List LReq :=
  let fl := s.loose.flits.filter (fun f => match f.ans with
    | none => s.accHit p f.acc f.src f.dst
    | some _ => s.through p (s.backTo f.acc f.src) f.src || s.through p f.src f.dst)
  let pairs := s.loose.pairs.flatMap (fun e =>
    let cab := e.1 / 16
    ((e.2.queue.map (fun q => q.acc)) ++ (e.2.bursts.map (fun b => b.req.acc))).filter (fun q => s.accHit p q (s.backTo q cab) cab))
  let far := (s.loose.far.map (fun e => (e.1, s.laneCab e.2))).filter (fun e => s.accHit p e.1 (s.backTo e.1 e.2) e.2)
  (fl.map (fun f => f.acc) ++ pairs ++ far.map (fun e => e.1)).filter (fun q => !decide (q.cls = .free))

/-- Cabinet of this die at which an access waits for its banks. -/
def State.headsFor (s : State) (q : LReq) : Option Nat :=
  ((s.loose.pairs.filter (fun (e : Nat × PairSt) => e.2.queue.any (fun (x : PReq) => decide (x.acc.id = q.id)))).map (fun (e : Nat × PairSt) => e.1 / 16)).head?

/-- A flit of an access that a fence has answered stays on the mesh, which it leaves as R167 says; nothing of it is answered again. Whether a
write on its way is performed is open (R248): a free value chooses. One that stands in the fenced cabinet is discarded there. -/
def State.ghostFlit (s : State) (f : LFlit) : State :=
  if s.fenced f.cur then s.dropFlit f.acc.id
  else
    let id := s.loose.nextId
    let g : LFlit := { f with acc := { f.acc with id := id, org := .gone, homeDie := s.die, home := if f.dstDie = s.die then f.dst else f.src } }
    let s := s.setFlitAs f.acc.id g
    let s := s.fresh.later (flitClk g.acc) 1 (.looseFlitHop id)
    if f.ans.isSome || !f.acc.we then s
    else if s.free % 2 = 0 then { s.useFree with loose := { s.loose with recalled := s.loose.recalled ++ [id] } }
    else s.useFree

/-- A write answered by a fence before its banks took it may be performed or not (R248): a free value chooses. -/
def State.perhapsWrite (s : State) (q : LReq) (at' : Option Nat) : State :=
  match at' with
  | none => s
  | some p =>
    if q.we = false ∨ s.fenced p = true then s
    else if s.free % 2 = 0 then s.useFree
    else s.useFree.arrive { q with org := .gone, homeDie := s.die, home := p } p q.req

/-- Answer one of them with FAULT (R248): nothing of it is left to be answered again. -/
def State.fenceAnswer (s : State) (q : LReq) : State :=
  let mine (x : LReq) : Bool := decide (x.id = q.id)
  let here := s.loose.flits.any (fun f => mine f.acc) || s.loose.far.any (fun e => mine e.1) ||
    s.loose.pairs.any (fun e => e.2.queue.any (fun x => mine x.acc) || e.2.bursts.any (fun b => mine b.req.acc))
  if !here then s
  else
    let at' := s.headsFor q
    let flits := s.loose.flits.filter (fun f => mine f.acc)
    let s := flits.foldl (fun s f => s.ghostFlit f) (s.withdraw (fun _ x => mine x)).1
    let pairs := s.loose.pairs.map (fun (e : Nat × PairSt) =>
      (e.1, { e.2 with bursts := e.2.bursts.map (fun (b : Burst) => if mine b.req.acc then { b with req := { b.req with acc := { b.req.acc with org := .gone, homeDie := s.die, home := e.1 / 16 } } } else b) }))
    let s := { s with loose := { s.loose with pairs := pairs, far := s.loose.far.filter (fun e => !mine e.1) } }
    ((s.drained q.id).replyNow q (noAns .fault 2) (s.backTo q q.home)).perhapsWrite q at'

/-- The bank pairs of a fenced cabinet hold nothing any more. -/
def State.fencePairs (s : State) (p : Nat) : State := (List.range 16).foldl (fun s j => s.setPairSt p j PairSt.idle) s

/-- A stream that a fenced thief performed, or was about to, fails for its list. -/
def State.lostWork (s : State) (l : Nat × Nat) (idx : Nat) : State := (s.endList l.1 l.2 1 idx 3 0).descDone l idx 0

/-- A runner of the fenced cabinet stops (R247): SCH will write the record of every list it held with FENCED (R335). -/
def State.fenceRunner (s : State) (p r : Nat) : State :=
  let x := s.runner p r
  let theirs := (x.works.filter (fun w => decide (w.list ≠ (p, r)))).map (fun w => (w.list, w.idx)) ++
    (x.start.toList.filter (fun t => decide (t.list ≠ (p, r)))).map (fun t => (t.list, t.idx)) ++ x.theft.toList.map (fun t => (t.list, t.idx))
  let rec' (l : RunList) : Cmpl := { l.rec' with status := 10, done := l.done % 65536 }
  let recs := x.cmpl.map (fun c => { c with status := 10 }) ++ x.run.toList.map rec' ++ x.queue.map rec'
  let fix (y : RunSt) : RunSt :=
    { y with works := y.works.map (fun w => if w.list = (p, r) then haltWork w else w), start := y.start.filter (fun t => decide (t.list ≠ (p, r))), theft := y.theft.filter (fun t => decide (t.list ≠ (p, r))) }
  let took := (s.runners.filter (fun e => (e.2.start.any (fun t => decide (t.list = (p, r))) || e.2.theft.any (fun t => decide (t.list = (p, r)))) && decide (e.1 ≠ p * 4 + r))).map (fun e => (e.1 / 4, e.1 % 4))
  let s := { s with runners := s.runners.map (fun (e : Nat × RunSt) => (e.1, fix e.2)) }
  let s := took.foldl (fun s e => ((s.leaveDrop (.desc e.1 e.2)).leaveBack (.desc e.1 e.2)).kick e.1 e.2) s
  let s := [LeaveFor.desc p r, LeaveFor.sweepDesc p r].foldl (fun s w => (s.leaveDrop w).leaveBack w) s
  let s := s.setRunner p r { RunSt.idle with cmpl := recs }
  let s := theirs.foldl (fun s t => s.lostWork t.1 t.2) s
  if recs.isEmpty then s else s.arm .wall 1 (.completionPost 2)

/-- Every range that runs or waits in a cabinet whose contents go counts as done (R397). -/
def State.sweepsOver (s : State) (p : Nat) : State :=
  let orgs := ((s.swp p).run.toList ++ (s.swp p).queue ++ (s.rep.swpWait.filter (fun e => decide (e.1 = p))).map (fun e => e.2)).map (fun r => r.org)
  let s := s.setSwp p SwpSt.idle
  let s := { s with rep := { s.rep with swpWait := s.rep.swpWait.filter (fun e => decide (e.1 ≠ p)) } }
  orgs.foldl (fun s o => s.sweepOver p o 1) s

/-- The engines of the fenced cabinet stop: sweep parts count as done (R397), the assay pass ends, its wake or entry ends. -/
def State.fenceEngines (s : State) (p : Nat) : State :=
  let s := (s.sweepsOver p).setAsy p none
  let s := [LeaveFor.assay p, LeaveFor.wake p].foldl (fun s w => (s.leaveDrop w).leaveBack w) s
  (List.range 8).foldl (fun s f => s.fifoFlush p f) (s.endCmd p)

/-- Set-class traffic of a fenced cabinet: what stands in it goes, deliveries at it give FAULT; what is addressed to it goes at the last router
before it. -/
def State.fenceSet (s : State) (p : Nat) : State :=
  let s := (s.set.flits.filter (fun f => decide (f.cur = p) && decide (f.dst ≠ p))).foldl (fun s f => s.lateFlit f 28) s
  let s := (s.set.flits.filter (fun f => decide (f.dst = p) && decide (f.cur = p))).foldl (fun s f => s.dropSet f) s
  let s := (s.set.land.filter (fun l => decide (l.cab = p))).foldl (fun s l => s.drained l.f.id) s
  let s := (s.set.holds.filter (fun h => decide (h.cab = p) && decide (h.port = .wwp))).foldl (fun s h => s.drained h.id) s
  { s with set := { s.set with
    land := s.set.land.filter (fun l => decide (l.cab ≠ p)), holds := s.set.holds.filter (fun h => decide (h.cab ≠ p)), ops := s.set.ops.filter (fun o => decide (o.cab ≠ p)),
    delivs := s.set.delivs.map (fun (d : Deliv) => if d.cab = p then { d with got := true, resp := .fault, dat := List.replicate 8 0, zero := List.replicate 8 false, discard := true } else d) } }

/-- Signals that wait in the fenced cabinet or head for its counters go with no record (R247, R293). -/
def State.fenceSignals (s : State) (p : Nat) : State :=
  let hit (g : Sig) : Bool :=
    (decide (sigCab g.src = some p) && decide (g.die = s.die) && (decide (g.place = SigPlace.port) || decide (g.place = SigPlace.held))) ||
      (decide (g.place = SigPlace.net) && decide (cnDie g.cn = s.die) && decide (cnSel g.cn < 256) && decide (s.sigUnit g = 256 + p))
  let s := (s.syn.signals.filter hit).foldl (fun s g => s.edgeOutcome g 2) s
  s.dropSigs hit

/-- A lane attached to the fenced cabinet is DOWN until power-up (R538, R542). -/
def State.laneFence (s : State) (l : Nat) : State :=
  if s.laneUp l then s.laneDown l 4
  else (((s.leaveDrop (.train l)).leaveBack (.train l)).puts [(R.BRG_STAT_LEAVE_WAIT l, 0), (R.BRG_STAT_STATE l, 3), (R.BRG_STAT_CAUSE l, 4)])

/-- FENCE_TAKE_EFFECT (R34, R246 to R248): on the 4th fc after its cause. -/
def execFenceTakeEffect (cab : Cab) (s : State) : Host.Outcome State Fault Refusal :=
  let p := cab.val
  .next (match s.rep.fences.find? (fun e => decide (e.1 = p) && decide (e.2.2 ≤ s.time.fc)) with
  | none => s
  | some e =>
    let s := { s with rep := { s.rep with fences := s.rep.fences.filter (fun e => decide (e.1 ≠ p)) } }
    if s.fenced p then s
    else
      let ctxs := (List.range 16).filter (fun c => decide (2 ≤ s.ctxState c) && s.ctxUses c p)
      let hits := s.fenceHits p
      let s := (s.fenceSet p).fenceSignals p
      let s := s.puts [(cabBit R.IDV_FENCE_MASK p, 1), (R.IDV_FENCE_CAUSE_CAUSE p, e.2.1)]
      let s := (List.range 4).foldl (fun s r => s.fenceRunner p r) s
      let s := (hits.foldl (fun s q => s.fenceAnswer q) (s.fenceEngines p)).fencePairs p
      let s := ctxs.foldl (fun s c => s.ctxFault c) s
      let s := ((List.range 8).filter (fun l => s.laneBuilt l && decide (s.laneCab l = p))).foldl (fun s l => s.laneFence l) s
      let s := ((List.range 4).filter (fun k => decide (s.gwHome k = p) && s.bit (R.EDG_CTL_EN k))).foldl (fun s k => s.useFree.gwOut k (s.free % 256)) s
      let s := (s.cmx.out.filter (fun o => o.lost.isSome)).foldl (fun s o => s.later .wall 0 (.controlAccessTimeout (masterOf (o.req.m % 16)))) s
      let s := s.event 0 0x02 (p + e.2.1 * 256)
      let s := if s.pow p = 3 then s else ((s.put (cabBusy p) 1).useFree).later .real (s.free % us 10) (.fenceQuench cab)
      ({ s with rep := { s.rep with rebuild := true, quench := s.rep.quench ++ [p] } }).arm .wall 1 .mapRebuild)

end Sys2Proof.Machine
end

