-- ==== Sys2Proof/Machine/Power.lean ====
section
/-! DEFINITION. Power: transitions of cabinets, die sleep and wake sources, operating points, leave grants, clamps and
emergencies, stretch, fabric time and beacons (chapter "Power states, clock regions and fabric time"). -/
namespace Sys2Proof.Machine

/-- Masters of block PWR (R478, R486, R513). -/
def pwrMaster (m : Master) : Bool := m == .pwc || m == .dbg

/-- Replace the list of transitions. -/
def State.setCmds (s : State) (l : List PwrCmd) : State := { s with pwr := { s.pwr with cmds := l } }

/-! Contents -/

/-- The store and the spare words of a cabinet lose their contents; what remains is cleared before anything reads it (R475,
R191). -/
def State.loseStore (s : State) (p : Nat) : State :=
  let out (base size k : Nat) : Bool := !(decide (base + p * size ≤ k) && decide (k < base + (p + 1) * size))
  { s with mem := s.mem.filter (fun c => out 0 (131072 * 36) c.1 && out 0x40000000 (256 * 36) c.1), valid := s.valid.filter (fun e => out 0 131072 e.1) }

/-- Does a register of a cabinet keep its value through Quench? (R476) The presence bits show inputs; the registers of the global window are
no cabinet's (R309). -/
def keeps (p k : Nat) : Bool :=
  let blk := k / 65536
  (decide (blk = R.SYN_STAT p / 65536) && decide (0x4000 ≤ k % 65536)) || decide (blk = R.BNK_STAT p / 65536) || decide (blk = R.RMP_FULL p / 65536) ||
    [R.ARB_PRIO p, R.ARB_AGE p, R.RUN_CFG p, R.RUN_POOL p, R.RUN_MC_CFG p, R.SBD_MODE p, R.CAB_PORT_STAT p].contains k

/-- What a cabinet wakes to from Quench (R287, R292, R476). -/
def State.freshCab (s : State) (p : Nat) : State :=
  let s := { s with regs := s.regs.filter (fun e => decide (e.1 / 2 ^ 22 ≠ p) || keeps p e.1) }
  let s := (List.range 8).foldl (fun s f => s.setFifo p f Fifo.idle) s
  let s := (List.range 4).foldl (fun s r => s.setRunner p r RunSt.idle) s
  let s := (List.range 16).foldl (fun s w => s.lowerWire p w) s
  let s := (List.range 16).foldl (fun s j => s.setPairSt p j { s.pairSt p j with rr := PairSt.idle.rr }) s
  { s with
    syn := { s.syn with shadows := (List.range 256).foldl (fun m g => SMap.set 0 m (p * 256 + g) (s.ctrVal (R.SYN_G_CFG 0 g))) s.syn.shadows, setUntil := SMap.erase s.syn.setUntil p }
    set := { s.set with slips := (List.range 3).foldl (fun m i => SMap.erase m (p * 3 + i)) s.set.slips, ending := s.set.ending.filter (fun e => decide (e.1 ≠ p)) } }

/-! Refusals -/

/-- Is a resident window, BOUND, CLOSED or KEPT, over the cabinet? (R402) -/
def State.resident (s : State) (p : Nat) : Bool :=
  (List.range 64).any (fun w =>
    let st := s.f (R.WIN_STATE_STATE w)
    let g := if st = 4 then s.f (R.WIN_STATE_KGEN w) else s.ctxGen (s.f (R.WIN_STATE_CTX w))
    s.bit (R.WIN_PART_C_RESIDENT w) && (decide (st = 1) || decide (st = 2) || decide (st = 4)) &&
      (List.range 128).any (fun n => decide (s.f (R.WIN_PART_A_BASE w) / 1024 ≤ n) && decide (n ≤ s.f (R.WIN_PART_B_LIMIT w) / 1024) &&
        decide (s.mapped g n = some p)))

/-- Is a reason in force for a cabinet on this fc? (R480) -/
def State.refuses (s : State) (p reason : Nat) : Bool :=
  match reason with
  | 2 => s.bit (R.ASY_CTL_GO p)
  | 3 => (List.range 8).any (fun f => decide (0 < (s.fifo p f).level) || decide (0 < (s.fifo p f).pend))
  | 4 => (List.range 16).any (fun w => s.bit (R.SYN_WTR_A_PENDING p w) || s.wtrReady p w || s.armed (.waiterFire (Fin.ofNat 128 p) (Fin.ofNat 16 w)) ||
      s.syn.wires.contains (p * 16 + w, s.time.fc + 1))
  | 5 => (List.range 4).any (fun r =>
      let x := s.runner p r
      !x.queue.isEmpty || x.run.isSome || !x.works.isEmpty || x.theft.isSome || x.start.isSome)
  | 6 => (s.swp p).run.isSome || !(s.swp p).queue.isEmpty || s.rep.swpWait.any (fun e => decide (e.1 = p))
  | 7 => s.resident p
  | 8 => (List.range 16).any (fun j => !(s.pairSt p j).queue.isEmpty)
  | 10 => s.fenced p
  | 11 => (s.eag p).any (fun c => s.stepLive c)
  | _ => false

/-- The refusers of a transition, in ascending number; none where the transition is not allowed (R477). -/
def refusersOf (from' target : Nat) : Option (List Nat) :=
  match from', target with
  | 0, 1 => some [2, 5, 6, 8, 10, 11]
  | 1, 0 => some []
  | 0, 2 => some [2, 3, 4, 5, 6, 8, 10, 11]
  | 1, 2 => some [2, 3, 4, 5, 6, 8, 10, 11]
  | 0, 3 => some [2, 3, 4, 5, 6, 7, 8, 10, 11]
  | 1, 3 => some [2, 3, 4, 5, 6, 7, 8, 10, 11]
  | 2, 3 => some [7, 10]
  | 2, 0 => some [10]
  | 3, 0 => some [10]
  | _, _ => none

/-- The reason that refuses a transition, the lowest-numbered one in force (R477, R481). -/
def State.refusal (s : State) (p target : Nat) : Option Nat :=
  match refusersOf (s.pow p) target with
  | none => some 1
  | some l => if s.absent p then some 1 else l.find? (s.refuses p)

/-! Cabinet commands -/

/-- A commit begins: the cabinet answers as in its target state (R479). -/
def State.commitStart (s : State) (c : PwrCmd) (p from' : Nat) : State :=
  let s := s.setCmds (s.pwr.cmds ++ [{ c with from' := from', phase := .commit, at' := s.time.real + ns 240 }])
  (s.put (cabState p) c.target).later .real (ns 240) (.entryCommitEnd (Fin.ofNat 128 p))

/-- Does something that waits in a cabinet in Doze request Run, and of which source: a loose request, a list or a range, a waiter, an operation of
port HFP? (R137, R287, R482) -/
def State.wakeSource (s : State) (p : Nat) : Option Nat :=
  if s.refuses p 8 || (List.range 4).any (fun r => !(s.runner p r).queue.isEmpty) || s.refuses p 6 then some 1
  else if s.refuses p 4 then some 2
  else if !(s.hfpIn p).held.isEmpty then some 3
  else none

/-- A transition that has ended in Doze or Hold leaves the wake that it had put off (R482, R484). -/
def State.wakePutOff (s : State) (p : Nat) : State :=
  if s.pow p = 1 then
    match s.wakeSource p with
    | some k => s.wakeDoze p k
    | none => s
  else if s.pow p = 2 && s.refuses p 6 then s.wakeHold p
  else s

/-- The check of a command, on the fc after its write (R479, R481), and the start of what it asks for. -/
def State.cabCheck (s : State) (c : PwrCmd) : State :=
  let p := c.cab
  let s := s.setCmds (s.pwr.cmds.filter (fun x => !decide (x = c)))
  if c.phase = .refuse then s.refused p c.target 1 false c.job
  else
    match s.refusal p c.target with
    | some k => ((s.puts [(cabBusy p, 0)]).refused p c.target k false c.job).wakePutOff p
    | none =>
      let from' := s.pow p
      if c.target = 0 then
        if from' = 1 then (s.put (R.CAB_PWR_STAT_WAKE_SRC p) 4).later .wall 7 (.dozeWakeDone (Fin.ofNat 128 p))
        else ((s.setCmds (s.pwr.cmds ++ [{ c with phase := .leave, from' := from', at' := s.time.fc }])).put (cabLeaveWait p) 1).leaveAsk (.wake p) (if from' = 2 then 30 else 80)
      else if from' = 2 then s.commitStart c p 2
      else
        let s := s.setCmds (s.pwr.cmds ++ [{ c with phase := .drain, from' := from', at' := s.time.fc + 1 }])
        (s.later .wall 1 (.entryDrainEnd (Fin.ofNat 128 p))).later .wall 257 (.drainTimeout (Fin.ofNat 128 p))

/-- The row of a command to a cabinet. -/
def rowCmd (m : Master) (p target : Nat) : Instr :=
  match target with
  | 0 => .cabCmdRun m (Fin.ofNat 128 p)
  | 1 => .cabCmdDoze m (Fin.ofNat 128 p)
  | 2 => .cabCmdHold m (Fin.ofNat 128 p)
  | _ => .cabCmdQuench m (Fin.ofNat 128 p)

/-- A command to a cabinet (R478, R479): the write makes it BUSY, and on the next fc the same command is checked. -/
def State.cabCmd (s : State) (m : Master) (p target : Nat) : State :=
  let due := s.pwr.cmds.filter (fun c => decide (c.cab = p) && decide (c.target = target) && (decide (c.phase = .check) || decide (c.phase = .refuse)) && decide (c.at' < s.time.fc))
  match m, due with
  | .hrp, c :: _ => s.cabCheck c
  | _, _ =>
    s.row m (rowCmd m p target) (fun s => s.gate (pwrMaster m) m R.PWR_CAB_CMD (fun s =>
      let busy := s.bit (cabBusy p)
      if !busy && decide (s.pow p = target) && !s.absent p then s
      else
        let s := s.setCmds (s.pwr.cmds ++ [{ cab := p, target := target, from' := s.pow p, phase := if busy then .refuse else .check, at' := s.time.fc }])
        (if busy then s else s.put (cabBusy p) 1).later .wall 1 (checkCmd p target)))

/-- CAB_CMD_RUN (R477, R478, R483). -/
def execCabCmdRun (m : Master) (cab : Cab) (s : State) : Host.Outcome State Fault Refusal := .next (s.cabCmd m cab 0)

/-- CAB_CMD_DOZE (R477 to R481). -/
def execCabCmdDoze (m : Master) (cab : Cab) (s : State) : Host.Outcome State Fault Refusal := .next (s.cabCmd m cab 1)

/-- CAB_CMD_HOLD (R477 to R481). -/
def execCabCmdHold (m : Master) (cab : Cab) (s : State) : Host.Outcome State Fault Refusal := .next (s.cabCmd m cab 2)

/-- CAB_CMD_QUENCH (R477 to R481, R402). -/
def execCabCmdQuench (m : Master) (cab : Cab) (s : State) : Host.Outcome State Fault Refusal := .next (s.cabCmd m cab 3)

/-- Is no bank operation in progress in the cabinet and no access of its requesters outstanding? (R479) -/
def State.quietCab (s : State) (p : Nat) : Bool :=
  let mine (q : LReq) : Bool := decide (q.home = p) && decide (q.homeDie = s.die)
  (List.range 16).all (fun j => (s.pairSt p j).bursts.isEmpty) && !s.set.ops.any (fun o => decide (o.cab = p)) && !s.set.delivs.any (fun d => decide (d.cab = p)) &&
    !s.set.wresps.any (fun e => decide (e.1 = p)) && !s.set.holds.any (fun h => decide (h.cab = p) && h.rel.isNone) && !s.loose.ports.any (fun e => decide (e.cab = p)) &&
    !s.loose.flits.any (fun f => mine f.acc) && !s.loose.far.any (fun e => mine e.1) && !s.loose.acked.any (fun e => mine e.1) &&
    !s.loose.pairs.any (fun e => e.2.queue.any (fun q => mine q.acc && decide (q.acc.req ≠ 7)) || e.2.bursts.any (fun b => mine b.req.acc))

/-- What reached a cabinet too late to abort its entry waits for Run: in Doze it wakes the cabinet (R482), in Hold a range does (R484), in Quench
ranges are done at once. -/
def State.entryLeft (s : State) (p target : Nat) : State :=
  if target ≠ 3 then s.wakePutOff p
  else
    let s := (List.range 16).foldl (fun s j => s.setPairSt p j { s.pairSt p j with queue := (s.pairSt p j).queue.filter (fun q => decide (q.acc.req ≠ 7)) }) s
    s.sweepsOver p

/-- ENTRY_DRAIN_END (R479): the drain ends on the first quiet fc; a Doze entry ends on the fc after it. -/
def execEntryDrainEnd (cab : Cab) (s : State) : Host.Outcome State Fault Refusal :=
  let p := cab.val
  .next (match s.pwr.cmds.find? (fun c => decide (c.cab = p) && (decide (c.phase = .drain) || (decide (c.phase = .commit) && decide (c.target = 1)))) with
  | none => s
  | some c =>
    if c.phase = .commit then (if c.at' ≤ s.time.fc then ((s.endCmd p).put (cabState p) 1).entryLeft p 1 else s)
    else if s.time.fc < c.at' then s
    else if !s.quietCab p then s.later .wall 1 (.entryDrainEnd cab)
    else
      let s := s.setCmds (s.pwr.cmds.filter (fun x => !decide (x = c)))
      if c.target = 1 then (s.setCmds (s.pwr.cmds ++ [{ c with phase := .commit, at' := s.time.fc + 1 }])).later .wall 1 (.entryDrainEnd cab)
      else s.commitStart c p c.from')

/-- DRAIN_TIMEOUT (R479): a drain that has not ended within 256 fc is aborted with reason 8. -/
def execDrainTimeout (cab : Cab) (s : State) : Host.Outcome State Fault Refusal :=
  .next (if s.pwr.cmds.any (fun c => decide (c.cab = cab.val) && decide (c.phase = .drain) && decide (c.at' + 256 ≤ s.time.fc)) then
    (s.entryAbort cab 8).wakePutOff cab else s)

/-- ENTRY_COMMIT_END (R479): the cabinet is in Hold, or in Quench with its contents lost. -/
def execEntryCommitEnd (cab : Cab) (s : State) : Host.Outcome State Fault Refusal :=
  .next (match s.pwr.cmds.find? (fun c => decide (c.cab = cab.val) && decide (c.phase = .commit) && decide (c.target ≠ 1) && decide (c.at' ≤ s.time.real)) with
  | none => s
  | some c => if c.target = 3 then (((s.endCmd cab).loseStore cab).entryLeft cab 3).hfpNext cab 0 else ((s.endCmd cab).entryLeft cab 2).hfpNext cab 0)

/-- DOZE_WAKE_DONE (R482, R514). -/
def execDozeWakeDone (cab : Cab) (s : State) : Host.Outcome State Fault Refusal :=
  let p := cab.val
  .next (if s.pow p = 1 ∧ s.bit (cabBusy p) = true ∧ s.pwr.cmds.any (fun c => decide (c.cab = p) && !decide (c.phase = .refuse)) = false then
    let s := ((s.puts [(cabState p, 0), (cabBusy p, 0)]).inc (R.CAB_DOZE_WAKES_COUNT p)).kickCab p |>.hfpNext p 0
    (List.range 16).foldl (fun s w => if s.wtrReady p w then (s.disarm (.waiterFire cab (Fin.ofNat 16 w))).later .unfz 0 (.waiterFire cab (Fin.ofNat 16 w)) else s) s
  else s)

/-- A granted wake: 2 µs from Hold, 20 µs from Quench (R477, R483). -/
def State.wakeStart (s : State) (p : Nat) : State :=
  let d := if s.pow p = 2 then us 2 else us 20
  ({ s with pwr := { s.pwr with wakes := SMap.insert s.pwr.wakes p (s.time.real + d, false) } }.put (cabLeaveWait p) 0).later .real d (.wakePowerDone (Fin.ofNat 128 p))

/-- The cabinet reaches Run (R483): its leave is returned, and what waits in it goes on. -/
def State.reachRun (s : State) (p : Nat) : State :=
  let s := ((((s.endCmd p).put (cabState p) 0).leaveBack (.wake p)).kickCab p).hfpNext p 0
  (List.range 16).foldl (fun s j => if (s.pairSt p j).queue.isEmpty then s else s.armPair p j) s

/-- The range of a whole cabinet's wake sweep (R191). -/
def wakeRange : SwpRange := { base := 0, limit := 131071, org := .wake, todo := [], busy := 0 }

/-- WAKE_POWER_DONE (R191, R476, R483): from Hold the cabinet is in Run; from Quench the wake sweep comes first. -/
def execWakePowerDone (cab : Cab) (s : State) : Host.Outcome State Fault Refusal :=
  let p := cab.val
  .next (match s.pwr.wakes.find? (fun e => decide (e.1 = p)) with
  | none => s
  | some e =>
    if s.time.real < e.2.1 then s
    else if s.pow p = 2 then s.reachRun p
    else if !e.2.2 then
      ({ s.freshCab p with pwr := { (s.freshCab p).pwr with wakes := SMap.insert s.pwr.wakes p (e.2.1, true) } }.setSwp p SwpSt.idle).sweepStart p wakeRange
    else if s.wakeSweep p then s
    else s.reachRun p)

/-- FENCE_QUENCH (R247, R485): the fenced cabinet is in Quench and its contents are lost. -/
def execFenceQuench (cab : Cab) (s : State) : Host.Outcome State Fault Refusal :=
  let p := cab.val
  .next (if s.rep.quench.contains p && s.fenced p then
    (((({ s with rep := { s.rep with quench := s.rep.quench.filter (fun q => decide (q ≠ p)) } }).endCmd p).put (cabState p) 3).loseStore p).hfpNext p 0
  else s)

/-! Leave -/

/-- LEAVE_GRANT (R499, R500): the head request is granted 12 fc after its conditions became true; the unit that asked goes on. -/
def execLeaveGrant (s : State) : Host.Outcome State Fault Refusal :=
  .next (match s.leave.ready, s.leave.queue with
  | some t, q :: rest =>
    if t + 12 ≤ s.time.fc ∧ s.leaveOk = true then
      let s := s.leaveTake q rest
      match q.who with
      | .desc c r => s.runnerLeave c r
      | .sweepDesc c r => s.runnerLeave c r
      | .assay c => s.asyStart c
      | .window w => s.winLeave w
      | .wake c => s.wakeStart c
      | .train l => s.trainStart l
      | .bist k => if k = 0 ∧ 8 < s.boot.cabs.length then s.leaveAsk (.bist 1) (20 * min 8 (s.boot.cabs.length - 8)) else s
    else s
  | _, _ => s)

/-! Emergencies -/

/-- Is an emergency flagged? (R504) -/
def State.emergency (s : State) : Bool := s.bit R.PWR_EMERG_STAT_SW || s.bit R.PWR_EMERG_STAT_HW_CLAMP || s.bit R.PWR_EMERG_STAT_HW_VID

/-- MGT.EMERG.ANY (R469). -/
def State.emergAny (s : State) : Bool := s.emergency || s.bit R.PWR_EMERG_STAT_THERM

/-- A change of EMERG_STAT (R504, R512): PWC posts an event when the flag changes; the restart unit looks again 100 µs after the
last emergency ends (R464). -/
def State.emergSet (s : State) (f : Fld) (b : Bool) : State :=
  let t := s.putb f b
  let t := if t.emergency = s.emergency then t else t.event 1 0x22 (t.f { key := R.PWR_EMERG_STAT, hi := 2, lo := 0 } + (if t.emergency then 256 else 0))
  if t.emergAny = s.emergAny then t
  else if t.emergAny then t
  else (({ t with pwr := { t.pwr with anyAt := t.time.real } }).later .real (us 100) .activationStart).later .real (us 100) .recoveryStart

/-- A write of PWR.EMERG_CTL (R504, R519): a write of both bits sets and then clears. -/
def State.emergCtl (s : State) (m : Master) (v : W32) : State :=
  s.gate (pwrMaster m) m R.PWR_EMERG_CTL (fun s =>
    let s := if vbit v 0 then s.emergSet R.PWR_EMERG_STAT_SW true else s
    if vbit v 1 then s.emergSet R.PWR_EMERG_STAT_SW false else s)

/-- EMERG_SET (R504). -/
def execEmergSet (m : Master) (v : W32) (s : State) : Host.Outcome State Fault Refusal := .next (s.row m (.emergSet m v) (fun s => s.emergCtl m (v ||| 1)))

/-- EMERG_CLR (R504). -/
def execEmergClr (m : Master) (v : W32) (s : State) : Host.Outcome State Fault Refusal := .next (s.row m (.emergClr m v) (fun s => s.emergCtl m (v ||| 2)))

/-! Clamps -/

/-- CLAMP_FREEZE (R501): the freeze line stands high while the fc three later has a phase below N; it is looked at again when
that changes. -/
def execClampFreeze (s : State) : Host.Outcome State Fault Refusal :=
  let s := s.disarm .clampFreeze
  .next (match s.clampNow with
  | none => s.frzFall .clamp
  | some (n, m) =>
    let on (d : Nat) : Bool := decide ((s.time.fc + 3 + d) % m < n)
    let s' := if on 0 then s.frzRaise .clamp else s.frzFall .clamp
    match (List.range 64).find? (fun d => on (d + 1) != on 0) with
    | some d => s'.later .wall (d + 1) .clampFreeze
    | none => s')

/-- Engage or disengage the clamp of PWR.CLAMP_CFG. -/
def State.clampEngage (s : State) (b : Bool) : State := (s.putb R.PWR_CLAMP_STAT_ENGAGED b).later .wall 0 .clampFreeze

/-- Does this die lead its automatic clamp? Die 0, and a die with no bridge path to it (R502). -/
def State.clampLeader (s : State) : Bool := decide (s.die = 0) || (s.sideLane 0).isNone

/-- The automatic clamp lets go (R502, R504). -/
def State.autoOff (s : State) : State :=
  (({ s with pwr := { s.pwr with calm := 0, engagedAt := none } }).clampEngage false).emergSet R.PWR_EMERG_STAT_HW_CLAMP false

/-- A write of PWR.CLAMP_CFG (R501, R502, R519): one that breaks the limits of N and M is ignored; MODE keeps its value under a
write of 3. -/
def State.clampCfg (s : State) (v : W32) : State :=
  let n := v.toNat % 64
  let m := v.toNat / 64 % 128
  let mode := v.toNat / 8192 % 4
  if m < 2 ∨ 64 < m ∨ m < n + 4 then s
  else
    let s := s.puts [(R.PWR_CLAMP_CFG_N, n), (R.PWR_CLAMP_CFG_M, m), (R.PWR_CLAMP_CFG_MODE, if mode = 3 then s.f R.PWR_CLAMP_CFG_MODE else mode), (R.PWR_CLAMP_CFG_EMERG_US, v.toNat / 65536)]
    match s.f R.PWR_CLAMP_CFG_MODE with
    | 0 => s.autoOff.put R.PWR_CLAMP_STAT_LEADER 0
    | 1 => (s.autoOff.clampEngage true).put R.PWR_CLAMP_STAT_LEADER 0
    | _ => (if s.pwr.engagedAt.isNone then s.clampEngage false else (s.later .wall 0 .clampFreeze).later .wall 0 .clampEmergency).putb R.PWR_CLAMP_STAT_LEADER s.clampLeader

/-- CLAMP_EMERGENCY (R504): the automatic clamp has been engaged without a break for EMERG_US µs; looked at again when it will have been. -/
def execClampEmergency (s : State) : Host.Outcome State Fault Refusal :=
  let s := s.disarm .clampEmergency
  .next (match s.pwr.engagedAt with
  | none => s
  | some t => if t + us (s.f R.PWR_CLAMP_CFG_EMERG_US) ≤ s.time.now then s.emergSet R.PWR_EMERG_STAT_HW_CLAMP true
    else s.at' .fab (t + us (s.f R.PWR_CLAMP_CFG_EMERG_US)) .clampEmergency)

/-- Estimates that other dies have sent (R502). -/
def State.takeEstimates (s : State) : State :=
  s.brg.inbox.foldl (fun s i => match i with
    | .estimate d _ k => { s with pwr := { s.pwr with ests := SMap.insert s.pwr.ests d k }, brg := { s.brg with inbox := s.brg.inbox.filter (fun x => !decide (x = i)) } }
    | .ctlRead _ _ _ | .ctlAns _ _ _ _ | .opTarget _ | .opBack _ | .opReport _ _ | .round _ _ => s) s

/-- How an estimate stands to this die's limits (R502): 2 above LIMIT, 0 below LIMIT − HYST, 1 between. -/
def State.estMark (s : State) (w : Nat) : Nat :=
  if s.f R.PWR_EST_CFG_LIMIT < w then 2 else if w + s.f R.PWR_EST_CFG_HYST < s.f R.PWR_EST_CFG_LIMIT then 0 else 1

/-- The leader of the automatic clamp decides (R502): engaged when a die's estimate exceeds that die's LIMIT, off after four periods
in which each is below its LIMIT − HYST. A die with no bridge path leads its own clamp, and what it sent earlier counts no more. -/
def State.clampDecide (s : State) : State :=
  let es := (s.pwr.ests.filter (fun e => decide (e.1 = s.die) || (s.sideLane e.1).isSome)).map (fun e => e.2)
  if s.f R.PWR_CLAMP_CFG_MODE ≠ 2 then s
  else if !s.clampLeader then (if s.pwr.engagedAt.isSome then s.autoOff else s)
  else
    match s.pwr.engagedAt with
    | none =>
      if es.any (fun k => decide (k = 2)) then
        (({ s with pwr := { s.pwr with engagedAt := some s.time.now, calm := 0 } }).clampEngage true).later .fab (us (s.f R.PWR_CLAMP_CFG_EMERG_US)) .clampEmergency
      else s
    | some _ =>
      if es.all (fun k => decide (k = 0)) then
        if 4 ≤ s.pwr.calm + 1 then s.autoOff else { s with pwr := { s.pwr with calm := s.pwr.calm + 1 } }
      else { s with pwr := { s.pwr with calm := 0 } }

/-- The estimate of the µs that has passed in W (R502). -/
def State.estimate (s : State) : Nat := (s.f R.PWR_EST_W_E_BANK * s.pwr.accs + s.f R.PWR_EST_W_E_FLIT * s.pwr.flits) / 16000000

/-- POWER_ESTIMATE (R502): once in each µs of fabric time while the fast clocks run; estimates of other dies are taken. -/
def execPowerEstimate (s : State) : Host.Outcome State Fault Refusal :=
  let s := s.takeEstimates
  let n := s.time.now / us 1
  .next (if n ≤ s.pwr.estAt then s
  else
    let w := s.estimate
    let ests := if s.clampLeader then SMap.insert s.pwr.ests s.die (s.estMark w) else [(s.die, s.estMark w)]
    let s := ({ s with pwr := { s.pwr with estAt := n, accs := 0, flits := 0, ests := ests } }).puts [(R.PWR_EST_NOW_W, min w 65535), (R.PWR_CLAMP_STAT_LEADER, if s.clampLeader && decide (s.f R.PWR_CLAMP_CFG_MODE = 2) then 1 else 0)]
    let s := s.at' .fab (us (n + 1)) .powerEstimate
    (if s.clampLeader then s else s.side 0 (.estimate s.die w (s.estMark w))).clampDecide)

/-! Die sleep and wake -/

/-- Is core `m` synthesized? (R25, R433) -/
def State.coreExists (s : State) (m : Nat) : Bool := decide (m < 3) || s.cabs.any (fun p => decide (3 + cluster p = m))

/-- A core halts (R487). -/
def State.haltCore (s : State) (m : Nat) : State :=
  s.wdtChange ((({ s with mgt := { s.mgt with halting := s.mgt.halting.filter (fun x => decide (x ≠ m)) } }).put (bitFld R.MGT_HALT_STAT m) 1))

/-- A halted core resumes (R487): its watchdog has not counted meanwhile. -/
def State.resumeCore (s : State) (m : Nat) : State :=
  if s.bit (bitFld R.MGT_HALT_STAT m) then s.wdtChange (s.put (bitFld R.MGT_HALT_STAT m) 0) else s

/-- The cores of a mask that are halted resume. -/
def State.resumeCores (s : State) (mask : Nat) : State := (List.range 11).foldl (fun s m => if mask / 2 ^ m % 2 = 1 then s.resumeCore m else s) s

/-- The generator of every region that exists runs and is locked, or none (R25, R486, R493, R505). -/
def State.generators (s : State) (on : Bool) : State := s.clkRegions.foldl (fun s k => s.puts [(R.CLK_REG_STAT_RUN k, if on then 1 else 0), (R.CLK_REG_STAT_LOCKED k, if on then 1 else 0)]) s

/-- A die wake is recognized (R493): it ends within 50 µs. -/
def State.dieWake (s : State) (src : Nat) : State :=
  ({ s with pwr := { s.pwr with sleep := .waking, src := src, slept := (s.time.real - s.pwr.sleptAt) / 300000 } }.put R.PWR_DIE_STAT_WAKE_SRC src).useFree.later .real (s.free % (us 50 + 1)) .dieWakeDone

/-- A die-sleep request is refused or aborted (R480, R481, R491): the cores resume on the next management cycle (R487). -/
def State.sleepOff (s : State) (reason : Nat) (abort : Bool) : State :=
  (((({ s with pwr := { s.pwr with sleep := .awake, latched := [] } }).disarm (.dieSleep .hrp 1)).refused 127 4 reason abort true).put R.PWR_DIE_STAT_LAST_ABORT 1).later .real (ns 1) (.resume .pwc 0x7FF)

/-- A latched wake source arrives (R490, R491): on an awake die it is served at once and nothing is held. -/
def State.latchWake (s : State) (src : Nat) : State :=
  let hold (s : State) : State := { s with pwr := { s.pwr with latched := s.pwr.latched ++ [src] } }
  match s.pwr.sleep with
  | .awake => s
  | .asked => hold s
  | .check => s.sleepOff 9 true
  | .drain => s.sleepOff 9 true
  | .commit => hold s
  | .asleep => s.dieWake src
  | .waking => s

/-- The conditions of die sleep (R486). -/
def State.sleepReady (s : State) : Bool :=
  s.cabs.all (fun p => decide (2 ≤ s.pow p)) && s.leave.queue.isEmpty && s.leave.held.isEmpty &&
    (List.range 8).all (fun l => decide (s.laneState l = 0) || decide (s.laneState l = 3)) &&
    (List.range 4).all (fun k => !(s.bit (R.EDG_CTL_EN k) && s.isMapped (s.f (R.EDG_CTL_HOME k)))) &&
    (List.range 11).all (fun m => decide (m = 1) || !s.coreExists m || s.bit (bitFld R.MGT_HALT_STAT m))

/-- Next phase of the entry, after `n` ns. -/
def State.sleepPhase (s : State) (ph : SleepPhase) (n : Nat) (i : Instr) : State :=
  ({ s with pwr := { s.pwr with sleep := ph, sleepDue := s.time.real + ns n } }).later .real (ns n) i

/-- DIE_SLEEP (R486, R491): the request; the check on the next AO cycle; the drain of three cycles; the commit of six. -/
def execDieSleep (m : Master) (v : W32) (s : State) : Host.Outcome State Fault Refusal :=
  let go : Instr := .dieSleep .hrp 1
  let due := m == .hrp && decide (s.pwr.sleepDue ≤ s.time.real)
  let asked := s.row m (.dieSleep m v) (fun s => s.gate (pwrMaster m) m R.PWR_DIE_SLEEP (fun s => if vbit v 0 && decide (s.pwr.sleep = .awake) then s.sleepPhase .asked 40 go else s))
  .next (match s.pwr.sleep with
  | .asked =>
    if !due then asked
    else if !s.pwr.latched.isEmpty then s.sleepOff 9 false
    else if !s.sleepReady then s.sleepOff 12 false
    else s.sleepPhase .check 40 go
  | .check => if due then (s.haltCore 1).sleepPhase .drain 120 go else asked
  | .drain => if due then (s.generators false).sleepPhase .commit 240 .dieSleepCommitEnd else asked
  | .awake => asked
  | .commit => asked
  | .asleep => asked
  | .waking => asked)

/-- DIE_SLEEP_COMMIT_END (R491): the die is asleep, and wakes at once on a held source or a privileged level. -/
def execDieSleepCommitEnd (s : State) : Host.Outcome State Fault Refusal :=
  .next (if s.pwr.sleep ≠ .commit ∨ s.time.real < s.pwr.sleepDue then s
  else
    let held := s.pwr.latched
    let s := ({ s with pwr := { s.pwr with sleep := .asleep, sleptAt := s.time.real, latched := [] } }.inc R.PWR_DIE_STAT_SLEEPS).put R.PWR_DIE_STAT_LAST_ABORT 0
    if s.pwr.rtc.high then
      let s := if s.pwr.rtc.hidden then ({ s with pwr := { s.pwr with rtc := { high := true, ackAt := some (s.time.real + ns 40), hidden := false } } }).later .real (ns 40) .rtcAlarmRise else s
      s.dieWake 1
    else if s.pwr.therm.high && s.pwr.therm.hidden then
      (({ s with pwr := { s.pwr with therm := { high := true, ackAt := some (s.time.real + ns 40), hidden := false } } }).later .real (ns 40) .thermTripRelease).dieWake 2
    else
      match held with
      | src :: _ => s.dieWake src
      | [] => s)

/-- DIE_WAKE_DONE (R489, R493, R527): clocks run, the cores resume, PWC posts DIE_WAKE, and lanes that were turned off for the sleep train again. -/
def execDieWakeDone (s : State) : Host.Outcome State Fault Refusal :=
  .next (if s.pwr.sleep ≠ .waking then s
  else
    let s := (({ s with pwr := { s.pwr with sleep := .awake, latched := [] } }).generators true).resumeCores 0x7FF
    let kicks := (List.range 11).foldl (fun k m => SMap.insert k m s.time.now) s.mgt.kicks
    let s := ({ s with mgt := { s.mgt with kicks := kicks } }).event 1 0x20 (s.pwr.src + s.pwr.slept % 2 ^ 64 * 2 ^ 32)
    (List.range 8).foldl (fun s l => if s.laneBuilt l && decide (s.laneState l = 0) then ran s (execLaneTrain .pwc (Fin.ofNat 8 l) s) else s) s)

/-- RTC_ALARM_RISE (R490 to R492, R606): a second presentation while the level is high is the acknowledgement falling due; while PORST_N
is low the level is only remembered. -/
def execRtcAlarmRise (s : State) : Host.Outcome State Fault Refusal :=
  let p := s.pwr.rtc
  let set (x : PinSt) (s : State) : State := { s with pwr := { s.pwr with rtc := x } }
  .next (if s.boot.stage = 0 then set { p with hidden := true } s
  else if p.high then (if p.ackAt.any (fun t => decide (t ≤ s.time.real)) then (set { p with ackAt := none } s).put R.PWR_WAKE_ACK_RTC 1 else s)
  else if s.pwr.sleep = .commit then (set { high := true, ackAt := none, hidden := true } s).disarm .rtcAlarmFall
  else
    let s := ((set { high := true, ackAt := some (s.time.real + ns 40), hidden := false } s).disarm .rtcAlarmFall).later .real (ns 40) .rtcAlarmRise
    if s.pwr.sleep = .asleep then s.dieWake 1 else if s.pwr.sleep = .waking then s else s.event 1 0x24 0)

/-- RTC_ALARM_FALL (R492): the acknowledgement falls on the AO cycle after. -/
def execRtcAlarmFall (s : State) : Host.Outcome State Fault Refusal :=
  let p := s.pwr.rtc
  let set (x : PinSt) (s : State) : State := { s with pwr := { s.pwr with rtc := x } }
  .next (if s.boot.stage = 0 then set { p with hidden := false } s
  else if p.high then ((set { high := false, ackAt := some (s.time.real + ns 40), hidden := false } s).disarm .rtcAlarmRise).later .real (ns 40) .rtcAlarmFall
  else if p.ackAt.any (fun t => decide (t ≤ s.time.real)) then (set { p with ackAt := none } s).put R.PWR_WAKE_ACK_RTC 0
  else s)

/-- A record of this chapter (R511). -/
def State.pwrErr (s : State) (kind detail : Nat) : State := s.err { kind := kind, req := 28, cab := none, data := 0x60000 + detail }

/-- THERM_TRIP (R492, R503): the trip clamp comes into force within 5 AO cycles. A second presentation while the level is low is
the clamp, and the acknowledgement's fall, falling due. While PORST_N is low the level is only remembered. -/
def execThermTrip (s : State) : Host.Outcome State Fault Refusal :=
  let p := s.pwr.therm
  let set (x : PinSt) (s : State) : State := { s with pwr := { s.pwr with therm := x } }
  .next (if s.boot.stage = 0 then set { p with high := false } s
  else if p.high then
    let s := ((set { high := false, ackAt := some (s.time.real + ns 40), hidden := false } s).disarm .thermTripRelease).later .real (ns 40) .thermTrip
    let s := ((s.emergSet R.PWR_EMERG_STAT_THERM true).pwrErr 0x69 0).event 1 0x21 1
    s.leavePoke.useFree.later .real (s.free % (ns 200 + 1)) .thermTrip
  else
    let s := if p.ackAt.any (fun t => decide (t ≤ s.time.real)) then (set { p with ackAt := none } s).put R.PWR_WAKE_ACK_THERM_REL 0 else s
    if s.armed .thermTrip then s else (s.put R.PWR_CLAMP_STAT_TRIP 1).later .wall 0 .clampFreeze)

/-- THERM_TRIP_RELEASE (R490 to R492, R503). -/
def execThermTripRelease (s : State) : Host.Outcome State Fault Refusal :=
  let p := s.pwr.therm
  let set (x : PinSt) (s : State) : State := { s with pwr := { s.pwr with therm := x } }
  .next (if s.boot.stage = 0 then set { p with high := true } s
  else if p.high then (if p.ackAt.any (fun t => decide (t ≤ s.time.real)) then (set { p with ackAt := none } s).put R.PWR_WAKE_ACK_THERM_REL 1 else s)
  else
    let s := ((((s.disarm .thermTrip).put R.PWR_CLAMP_STAT_TRIP 0).later .wall 0 .clampFreeze).emergSet R.PWR_EMERG_STAT_THERM false).event 1 0x21 0
    let s := s.leavePoke
    if s.pwr.sleep = .commit then set { high := true, ackAt := none, hidden := true } s
    else
      let s := (set { high := true, ackAt := some (s.time.real + ns 40), hidden := false } s).later .real (ns 40) .thermTripRelease
      if s.pwr.sleep = .asleep then s.dieWake 2 else s)

/-- EDGE_WAKE (R490, R548). -/
def execEdgeWake (k : Gw) (s : State) : Host.Outcome State Fault Refusal := .next (if s.bit (R.EDG_CTL_WAKE_EN k) then s.latchWake 4 else s)

/-! Operating points -/

/-- OP_CHANGE (R496, R516): refused on any die but 0, outside a firmware freeze, while BUSY, and for a point that does not exist. -/
def execOpChange (m : Master) (v : W32) (s : State) : Host.Outcome State Fault Refusal :=
  .next (s.row m (.opChange m v) (fun s => s.gate (pwrMaster m) m R.PWR_OP_CTL (fun s =>
    let t := v.toNat % 8
    if !vbit v 31 then s
    else if s.die ≠ 0 ∨ s.frozen = false ∨ s.bit R.LCT_FRZ_STAT_FIRMWARE = false ∨ s.bit R.PWR_OP_STAT_BUSY = true ∨ 5 < t then s.put R.PWR_OP_STAT_REJ 1
    else
      let s := ({ s with pwr := { s.pwr with pkg := some { target := t, old := s.f R.PWR_OP_STAT_CUR, reports := [], back := false } } }).puts [(R.PWR_OP_STAT_TGT, t), (R.PWR_OP_STAT_BUSY, 1)]
      ((List.range s.dies).foldl (fun s d => if d = s.die then s else s.side d (.opTarget t)) s).later .wall 0 (.dieOpChange (Fin.ofNat 6 t)))))

/-- The values of LCT.NATIVE at the present point `n` (R66, R67): those of point 5 are the reset values; at another point BRIDGE is the
first-attempt ready time (R531), and the manual does not state the others. -/
def State.nativeAt (s : State) (n : Nat) : State :=
  if n = 5 then (s.setReg R.LCT_NATIVE_A (resetVal R.LCT_NATIVE_A)).put R.LCT_NATIVE_B_SYNC_BRIDGE 62
  else (((s.setReg R.LCT_NATIVE_A (BitVec.ofNat 32 s.free)).put R.LCT_NATIVE_A_BRIDGE (24 + s.flight)).useFree.put R.LCT_NATIVE_B_SYNC_BRIDGE s.useFree.free).useFree

/-- The regions switch to their idle PLLs at the frequency of a point (R496, R505). -/
def State.opSwitch (s : State) (n : Nat) : State :=
  (s.clkRegions.foldl (fun s k => s.put (R.CLK_REG_STAT_PLL_SEL k) (1 - s.f (R.CLK_REG_STAT_PLL_SEL k))) (s.put R.PWR_OP_STAT_CUR n)).nativeAt n

/-- The VID code of a point is driven (R495). -/
def State.vidDrive (s : State) (n : Nat) : State := s.put R.PWR_VID_CFG_VID (s.f (R.PWR_OP_VID n))

/-- This die's part of the change is over: die 0 hears of it (R496). -/
def State.opReport (s : State) (r : Nat) : State :=
  let s := ({ s with pwr := { s.pwr with op := none } }).disarm .vidTimeout
  if s.die = 0 then s.later .wall 0 (.opChangeDone 0 (Fin.ofNat 3 r)) else (s.put R.PWR_OP_STAT_BUSY 0).side 0 (.opReport s.die r)

/-- VID is written and its toggle awaited (R495, R497). -/
def State.vidWait (s : State) (o : OpSt) : State :=
  (({ s with pwr := { s.pwr with op := some { o with vid := true } } }).vidDrive o.new).later .real (us (max 1 (s.f R.PWR_VID_CFG_TIMEOUT))) .vidTimeout

/-- What the sideband asks of this die: a target, or the return to the old point. -/
def State.opAsked (s : State) : Option (Sideband × Nat × Bool) :=
  s.brg.inbox.findSome? (fun i => match i with
    | .opTarget t => some (i, t, false)
    | .opBack t => some (i, t, true)
    | .ctlRead _ _ _ | .ctlAns _ _ _ _ | .opReport _ _ | .estimate _ _ _ | .round _ _ => none)

/-- Begin this die's part (R496): to lower, the idle PLL locks within 4 µs and the regions switch before VID; to raise, VID comes
first. -/
def State.opBegin (s : State) (t : Nat) : State :=
  let o : OpSt := { old := s.f R.PWR_OP_STAT_CUR, new := t, vid := false, lockAt := s.time.real + s.free % (us 4 + 1), acked := false }
  let s := s.useFree.puts [(R.PWR_OP_STAT_TGT, t), (R.PWR_OP_STAT_BUSY, 1)]
  if t = o.old then s.opReport 0
  else if o.old < t then s.vidWait o
  else ({ s with pwr := { s.pwr with op := some o } }).at' .real o.lockAt (.dieOpChange (Fin.ofNat 6 t))

/-- Return to the old point (R497): a die that had raised lowers its frequency first; the old VID code is written with no wait. -/
def State.opReturn (s : State) (t : Nat) : State :=
  let s := if s.f R.PWR_OP_STAT_CUR = t then s else s.opSwitch t
  (s.vidDrive t).opReport 1

/-- The PLL has locked, or the toggle has come: what is next (R496). -/
def State.opGo (s : State) (o : OpSt) : State :=
  if s.time.real < o.lockAt then s
  else if o.new < o.old then
    if o.vid then (if o.acked then s.opReport 0 else s) else (s.opSwitch o.new).vidWait o
  else if o.acked then (s.opSwitch o.new).opReport 0
  else s

/-- DIE_OP_CHANGE (R496, R497): this die starts once its freeze is in force, and goes on when its PLL is locked. -/
def execDieOpChange (target : Fin 6) (s : State) : Host.Outcome State Fault Refusal :=
  let took (i : Sideband) : State := { s with brg := { s.brg with inbox := s.brg.inbox.filter (fun x => !decide (x = i)) } }
  let inForce := s.frozen && (if s.die = 0 then s.bit R.LCT_FRZ_STAT_FIRMWARE else s.bit R.LCT_FRZ_STAT_PACKAGE)
  .next (match s.opAsked with
  | some (i, t, back) =>
    if back then (took i).opReturn t
    else if s.pwr.op.isSome || !inForce then s.arm .wall 1 (.dieOpChange target)
    else (took i).opBegin t
  | none =>
    match s.pwr.op with
    | some o => s.opGo o
    | none =>
      if s.die = 0 && s.pwr.pkg.any (fun k => decide (k.target = target.val) && !k.back && !k.reports.any (fun r => decide (r.1 = 0))) then
        if inForce then s.opBegin target else s.arm .wall 1 (.dieOpChange target)
      else s)

/-- VID_ACK_TOGGLE (R495, R497): it ends HW_VID; with no change pending it is ignored. -/
def execVidAckToggle (s : State) : Host.Outcome State Fault Refusal :=
  let s := s.put R.PWR_VID_CFG_ACK (1 - s.f R.PWR_VID_CFG_ACK)
  .next (if s.bit R.PWR_EMERG_STAT_HW_VID then s.emergSet R.PWR_EMERG_STAT_HW_VID false
  else
    match s.pwr.op with
    | none => if s.boot.stage = 5 then ({ s with boot := { s.boot with vid := true } }).later .real 0 (.powerOnReset s.boot.sfdp s.boot.sig) else s
    | some o =>
      if !o.vid then s
      else
        let o := { o with acked := true }
        let s := ({ s with pwr := { s.pwr with op := some o } }).disarm .vidTimeout
        if s.time.real < o.lockAt then s.at' .real o.lockAt (.dieOpChange (Fin.ofNat 6 o.new)) else s.opGo o)

/-- VID_TIMEOUT (R497): a record and HW_VID; a raise never switches, a lowering stands. Die 0 hears of it. -/
def execVidTimeout (s : State) : Host.Outcome State Fault Refusal :=
  .next (match s.pwr.op with
  | none => s
  | some o =>
    if !o.vid || o.acked then s
    else ((s.pwrErr 0x68 (o.old * 256 + o.new)).emergSet R.PWR_EMERG_STAT_HW_VID true).opReport 2)

/-- OP_CHANGE_DONE (R496, R497): die 0 has a report, 0 of a change done, 1 of a return, 2 of a die that saw no toggle: of a raise, every die is
then returned. When every die has reported the change is DONE. -/
def execOpChangeDone (die : Fin 8) (result : Fin 3) (s : State) : Host.Outcome State Fault Refusal :=
  .next (match s.pwr.pkg with
  | none => s
  | some k =>
    if result.val = 2 ∧ k.back = false ∧ k.old < k.target then
      let s := { s with pwr := { s.pwr with pkg := some { k with back := true, reports := [] } } }
      ((List.range s.dies).foldl (fun s d => if d = s.die then s else s.side d (.opBack k.old)) s).opReturn k.old
    else if k.back != decide (result.val = 1) then s
    else
      let k := { k with reports := k.reports.filter (fun r => decide (r.1 ≠ die.val)) ++ [(die.val, result.val)] }
      if (List.range s.dies).all (fun d => k.reports.any (fun r => decide (r.1 = d))) then
        let r := if k.back then 1 else if k.reports.any (fun r => decide (r.2 = 2)) then 2 else 0
        (({ s with pwr := { s.pwr with pkg := none } }).puts [(R.PWR_OP_STAT_BUSY, 0), (R.PWR_OP_STAT_DONE, 1), (R.PWR_OP_STAT_RESULT, r)]).event 1 0x23 (s.f R.PWR_OP_STAT_CUR + r * 256)
      else { s with pwr := { s.pwr with pkg := some k } })

/-! Stretch -/

/-- Ask for a stretch of the period that begins at a wall fc; requests for one fc merge (R506). -/
def State.stretchAt (s : State) (t : Nat) : State := if s.time.stretch.contains t then s else { s with time := { s.time with stretch := s.time.stretch ++ [t] } }

/-- The contexts that an overflow between two regions makes a replay cause for: at once, or in a freeze on the next unfrozen fc (R107). -/
def State.skewReplay (s : State) (c : Nat) : State :=
  if s.frozen then
    if s.stp.skewed.contains c then s
    else ({ s with stp := { s.stp with skewed := s.stp.skewed ++ [c] } }).later .unfz 0 (.replayRestart (Fin.ofNat 16 c))
  else s.replayCause c 3

/-- An absorber overflows between two regions (R507): which of them leads, and by how much it is stretched, is not stated. -/
def State.skewed (s : State) (a b : Nat) : State :=
  let ctxs := (List.range 16).filter (fun c => (s.ctxCabs c).any (fun p => decide (clkRegion p = a) || decide (clkRegion p = b)))
  let s := ((s.err { kind := 0x29, req := 28, cab := none, data := a + b * 16 }).puts [(R.CLK_SKEW_LAST_REG_A, a), (R.CLK_SKEW_LAST_REG_B, b)]).inc R.CLK_SKEW_CNT_COUNT
  let s := ctxs.foldl (fun s c => s.skewReplay c) s
  (s.useFree.useFree.incBy (R.CLK_STR_CNT_COUNT (if s.free % 2 = 0 then a else b)) s.useFree.free)

/-- DROOP_STRETCH (R25, R506, R507): the regions that ask on this fc, and a boundary that overflows on it, by a stretch applied late. -/
def execDroopStretch (regions : BitVec 16) (skew : Option (Fin 16 × Fin 16)) (s : State) : Host.Outcome State Fault Refusal :=
  let s := if s.bit R.CLK_CFG_DROOP_EN = false ∨ s.clkRegions.all (fun k => !regions.getLsbD k) = true then s else s.stretchAt (s.time.fc + 2)
  .next (match skew with
    | some (a, b) => if s.clkRegions.contains a.val && s.clkRegions.contains b.val then s.skewed a b else s
    | none => s)

/-- COMPENSATING_STRETCH (R540): one every 2 fc while S is below T. -/
def execCompensatingStretch (s : State) : Host.Outcome State Fault Refusal :=
  let d := (s.f R.BRG_STR_T + 65536 - s.f R.BRG_STR_S) % 65536
  .next (if d = 0 ∨ 32768 ≤ d then s else (s.stretchAt (s.time.fc + 1)).arm .wall 2 .compensatingStretch)

/-! Fabric time -/

/-- Put an action that follows the multiples of `w` of fabric time at the next one, if it is armed. -/
def State.rearm (s : State) (w : Nat) (i : Instr) : State :=
  if s.armed i then (s.disarm i).at' .fab ((s.time.now / w + 1) * w) i else s

/-- Readings of fabric time that intervals count from or to move with a load of it, so that no interval changes its length. -/
def State.shiftFab (s : State) (move : Nat → Nat) : State :=
  let all (l : List (Nat × Nat)) : List (Nat × Nat) := l.map (fun e => (e.1, move e.2))
  { s with
    agenda := s.agenda.map (fun d => if d.clk = .fab then { d with due := move d.due } else d)
    pwr := { s.pwr with engagedAt := s.pwr.engagedAt.map move, estAt := s.time.now / us 1 }
    mgt := { s.mgt with kicks := all s.mgt.kicks, prob := all s.mgt.prob }
    syn := { s.syn with setUntil := all s.syn.setUntil } }

/-- Load fabric time, in ns. What the spec puts at multiples of it follows at the multiples of the new time (R197, R243, R244, R502,
R509, R555, R588); a partner's bucket has gained up to the load (R554). -/
def State.setNow (s : State) (n : Nat) : State :=
  let old := s.time.now
  let now := n % 2 ^ 64 * 300000
  let s := (List.range 64).foldl (fun s p => s.fillBucket p) s
  let s := { s with time := { s.time with now := now, slow := 0, ao := now, part := 0 } }
  let s := (List.range 64).foldl (fun s p => s.setPart p { s.part p with stamp := s.fabUs }) (s.shiftFab (fun t => now + t - old))
  let s := if s.armed .ueWindowReset then s.ueArm else s
  let s := (s.cabs.filter (fun p => s.armed (.bucketDrip (Fin.ofNat 128 p)))).foldl (fun s p => s.dripArm p) s
  let s := (s.cabs.filter (fun p => s.armed (.stationPoll (Fin.ofNat 128 p) false))).foldl (fun s p => s.pollAgain (Fin.ofNat 128 p)) s
  let s := (List.range 64).foldl (fun s p => s.rearm (us (max 1 (s.f (R.EDG_PT_TIME_QWIN p)))) (.quarantineWindow (Fin.ofNat 64 p))) s
  ((s.rearm (us 1) .powerEstimate).rearm (us 1) .beaconSend).rearm (us 1000) .hallmarkRound

/-- TIM_SET (R508, R524): SEC loads the pair before BOOT_LOCK. -/
def execTimSet (m : Master) (v : W32) (s : State) : Host.Outcome State Fault Refusal :=
  .next (s.row m (.timSet m v) (fun s => s.gate (m == .sec && !s.bootLocked) m R.TIM_SET_HI (fun s =>
    let lo := s.takeLo m R.TIM_SET_LO
    ((lo.1.setReg R.TIM_SET_LO lo.2).setReg R.TIM_SET_HI v).setNow (lo.2.toNat + v.toNat * 2 ^ 32))))

/-- BEACON_SEND (R509): die 0 sends its time at each multiple of 1000 ns, on every bridge; the first crossing is the one it is
about to make. -/
def execBeaconSend (s : State) : Host.Outcome State Fault Refusal :=
  let n := s.time.now / us 1 * 1000
  .next (if s.die ≠ 0 then s
  else
    let s := s.arm .fab (us (n / 1000 + 1) - s.time.now) .beaconSend
    if s.pwr.bcnVal = some n then s else ({ s with pwr := { s.pwr with bcnVal := some n } }).send (.beacon n 1))

/-- The next look for a lost beacon (R510). -/
def State.beaconWatch (s : State) : State := (({ s with pwr := { s.pwr with bcnAt := s.time.real } }).disarm .beaconLoss).later .real (us 16) .beaconLoss

/-- A signed 16-bit field, saturating (R524). -/
def sat16 (behind : Bool) (n : Nat) : Nat := if behind then min n 32767 else (65536 - min n 32767) % 65536

/-- BEACON_RECEIVE (R509): a second copy is ignored; a die that is behind steps forward, one that is ahead runs at half rate. -/
def execBeaconReceive (lane : Fin 8) (value : W64) (h : Fin 8) (s : State) : Host.Outcome State Fault Refusal :=
  let v := value.toNat
  .next (if s.die = 0 ∨ s.pwr.bcnVal = some v then s
  else
    let want := v * 300000 + 44 * h.val * s.fcUnits
    let now := s.time.now
    let s := (({ s with pwr := { s.pwr with bcnVal := some v } }).beaconWatch).send (.beacon v (h.val + 1)) none (some lane.val)
    if now < want then
      (({ s with time := { s.time with now := want, slow := 0, ao := s.time.ao + (want - now) } }).put R.TIM_BCN_STAT_LAST_DIFF (sat16 true ((want - now) / 300000))).inc R.TIM_BCN_STAT_STEPS
    else ({ s with time := { s.time with slow := now - want } }).put R.TIM_BCN_STAT_LAST_DIFF (sat16 false ((now - want) / 300000)))

/-- BEACON_LOSS (R510). -/
def execBeaconLoss (s : State) : Host.Outcome State Fault Refusal :=
  .next (if s.die ≠ 0 ∧ (s.sideLane 0).isSome = true ∧ s.pwr.bcnAt + us 16 ≤ s.time.real then (s.pwrErr 0x6A 0).inc R.TIM_BCN_LOSS_COUNT else s)

end Sys2Proof.Machine
end

