-- ==== Sys2Proof/Machine/Ring.lean ====
section
/-! DEFINITION. The cores of the Pastan complex and the three rings: submissions taken, completions and events posted, doorbell
and HINT bits (chapter "The Pastan management complex and its firmware"). -/
namespace Sys2Proof.Machine

/-! Cores -/

/-- The synthesized cores. -/
def State.cores (s : State) : List Nat := (List.range 11).filter s.coreExists

/-- Role of a core (R433): 0 SEC, 1 PWC, 2 SCH, 3 CC. -/
def roleOf (m : Nat) : Nat := min m 3

/-- Requester code of a core (R206). -/
def coreReq (m : Nat) : Nat := 16 + m

/-- IN_SERVICE of a core (R471). -/
def inService (m : Nat) : Fld := bitFld R.MGT_CORE_STAT m

/-- SLOT_B of a core (R471). -/
def slotB (m : Nat) : Fld := bitFld R.MGT_CORE_STAT (11 + m)

/-- Is a core DOWN? (R455) -/
def State.coreDown (s : State) (m : Nat) : Bool := s.bit (R.MGT_WDT_STAT_DOWN m)

/-- Is a core in service in role mode, halted or not? -/
def State.coreIn (s : State) (m : Nat) : Bool := s.bit R.MGT_MODE_MODE && s.bit (inService m) && !s.masked.contains m

/-- Does a core carry out its duties? -/
def State.coreLive (s : State) (m : Nat) : Bool := s.coreIn m && !s.bit (bitFld R.MGT_HALT_STAT m)

/-- Firmware looks again at a moment of its own. -/
def State.fwWait (s : State) (again : Instr) : State := s.useFree.later .real (1 + s.free) again

/-! Submissions in progress -/

/-- The row of an opcode (R446); the outcome of a staged image's signature goes with it. -/
def sqRow (op : Nat) (i : W32) (sig : Bool) : Option Instr :=
  match op with
  | 0x01 => some (.sqNop i)
  | 0x02 => some (.sqActivate i)
  | 0x03 => some (.sqDeactivate i)
  | 0x04 => some (.sqBind i)
  | 0x05 => some (.sqKill i)
  | 0x06 => some (.sqWindow i)
  | 0x07 => some (.sqRun i)
  | 0x08 => some (.sqSync i)
  | 0x09 => some (.sqFifo i)
  | 0x0A => some (.sqAssay i)
  | 0x0B => some (.sqFence i)
  | 0x0C => some (.sqRemap i)
  | 0x0D => some (.sqRetire i)
  | 0x0E => some (.sqOppoint i)
  | 0x0F => some (.sqPstate i)
  | 0x10 => some (.sqStage i sig)
  | 0x11 => some (.sqFwact i)
  | 0x12 => some (.sqLogown i)
  | 0x13 => some (.sqDump i)
  | _ => none

/-- The executor of an opcode as core index (R446). -/
def sqCore (op : Nat) : Nat :=
  if op = 0x0E ∨ op = 0x0F then 1 else if op = 0x02 ∨ op = 0x03 ∨ (0x0A ≤ op ∧ op ≤ 0x13) then 0 else 2

/-- Bytes of the staging area (R437), as far as the staged length of a STAGE entry says. -/
def State.staged (s : State) (len : Nat) : List Byte := s.cells (msram 0x40000) (min len 0x20000)

/-- Do the bytes of a staged image carry a good signature? (R462 code 4) -/
def sigGood (b : List Byte) : Bool := Config.ecdsaOk (b.map (fun x => x.toNat))

/-- An operand of a submission: `n` bytes from byte `b` (R444). -/
def Job.opnd (j : Job) (b n : Nat) : Nat := leNat ((j.ent.drop b).take n)

/-- The row of a submission. -/
def State.jobRow (s : State) (j : Job) : Option Instr :=
  sqRow j.op (BitVec.ofNat 32 j.idx) (if j.op = 0x10 then sigGood (s.staged (j.opnd 12 4)) else false)

/-- Put the row of a submission on the agenda, `n` units of time away. -/
def State.jobGo (s : State) (j : Job) (n : Nat) : State :=
  match s.jobRow j with
  | some i => s.arm .real n i
  | none => s

/-- Every submission that a test picks is looked at again. -/
def State.jobsGo (s : State) (f : Job → Bool) : State := (s.mgt.jobs.filter f).foldl (fun s j => s.jobGo j (ns 1)) s

/-- Replace a submission in progress. -/
def State.setJob (s : State) (j : Job) : State :=
  { s with mgt := { s.mgt with jobs := s.mgt.jobs.map (fun x => if x.idx = j.idx then j else x) } }

/-- Bytes 0 to 47 of a completion (R447); `res` is RESULT as a number from byte 8 on. -/
def cqHead (j : Job) (status res : Nat) : List Byte :=
  leBytes 8 (1 + j.op * 2 ^ 8 + j.tag * 2 ^ 16 + status * 2 ^ 32 + j.ctx * 2 ^ 48 + coreReq j.core * 2 ^ 56) ++ leBytes 40 res

/-- A submission completes (R445, R447): its executor posts the completion, SCH when that is DOWN; those that waited for it may
start. -/
def State.jobEnd (s : State) (j : Job) (status res : Nat) : State :=
  let core := if !s.coreDown j.core then j.core else if s.coreDown 2 then 0 else 2
  let s := { s with mgt := { s.mgt with jobs := s.mgt.jobs.filter (fun x => decide (x.idx ≠ j.idx)), posts := s.mgt.posts ++ [(core, cqHead j status res)] } }
  (s.arm .real (ns 1) (.completionPost (Fin.ofNat 11 core))).jobsGo (fun x => decide (x.stage = 0))

/-- May a submission start? (R445) Every earlier one of its executor has completed, or is a RUN or KILL under way; with AFTER
every earlier one has completed. -/
def State.jobTurn (s : State) (j : Job) : Bool :=
  s.mgt.jobs.all (fun x =>
    !((j.idx + 2 ^ 32 - x.idx) % 2 ^ 32 < 2 ^ 31 && decide (x.idx ≠ j.idx)) ||
      (!j.after && (decide (x.core ≠ j.core) || ((decide (x.op = 5) || decide (x.op = 7)) && decide (0 < x.stage)))))

/-! Ring indices -/

/-- A ring (R437, R439): entries, offsets in MSRAM of the entries, of the index its poster reserves, of HEAD. -/
structure Ring where
  n : Nat
  base : Nat
  rsv : Nat
  head : Nat
  deriving DecidableEq, Repr

/-- The completion ring. -/
def cqRing : Ring := { n := 1024, base := 0x71000, rsv := 0x60080, head := 0x600C0 }
/-- The event ring. -/
def eqRing : Ring := { n := 512, base := 0x81000, rsv := 0x60100, head := 0x60140 }

/-- Entries reserved and not consumed (R441, R442). -/
def State.ringUsed (s : State) (r : Ring) : Nat := (s.ms32 r.rsv + 2 ^ 32 - s.ms32 r.head) % 2 ^ 32

/-- Does another master hold MSRAM by a locked sequence? (R422) -/
def State.msramHeld (s : State) : Bool := s.cmx.locks.any (fun l => decide (l.1 = 1) && decide (l.2.2 < 2 ^ 32))

/-- Bytes of entry `i` of a ring: bytes 0 to 47, TIME, zeros and PHASE (R441, R447, R450). -/
def State.entryBytes (s : State) (r : Ring) (i : Nat) (b : List Byte) : List Byte := b.take 48 ++ leBytes 8 s.now ++ leBytes 7 0 ++ leBytes 1 (1 - i / r.n % 2)

/-- Offset of OPEN_m in MSRAM (R439). -/
def openOff (m : Nat) : Nat := 0x60200 + 8 * m

/-- The four steps of R441 for one entry of core `m`: the index is reserved, the entry written, and OPEN_m, which named it meanwhile, is clear at
the end. The core's journal keeps the entry (R458; log entry 112). -/
def State.ringPost (s : State) (m : Nat) (r : Ring) (b : List Byte) : State :=
  let i := s.ms32 r.rsv
  let e := s.entryBytes r i b
  let s := { s with mgt := { s.mgt with journal := SMap.insert s.mgt.journal m (r.base, i, e) } }
  (((s.setMs32 r.rsv ((i + 1) % 2 ^ 32)).setCells (msram (r.base + 64 * (i % r.n))) e).setMs32 (openOff m) 0).setMs32 (openOff m + 4) 0

/-- A core that comes back with its OPEN word valid writes that entry again from its journal; where the journal holds none, a PAD entry, on the
event ring an event of its own (R447, R450, R458). It then clears the word. -/
def State.padOpen (s : State) (m : Nat) : State :=
  let flags := s.ms32 (openOff m + 4)
  let s := { s with mgt := { s.mgt with reopen := s.mgt.reopen.filter (fun x => decide (x ≠ m)) } }
  if flags % 2 = 0 then s
  else
    let ev := decide (flags / 2 % 2 = 1)
    let r := if ev then eqRing else cqRing
    let i := s.ms32 (openOff m)
    let kept := (s.mgt.journal.find? (fun e => decide (e.1 = m) && decide (e.2.1 = r.base) && decide (e.2.2.1 = i))).map (fun e => e.2.2.2)
    let pad := s.entryBytes r i (if ev then leBytes 48 (coreReq m * 2 ^ 8 + s.mgt.evSeq * 2 ^ 16) else leBytes 48 0)
    let s := if ev && kept.isNone then { s with mgt := { s.mgt with evSeq := (s.mgt.evSeq + 1) % 65536 } } else s
    ((s.setCells (msram (r.base + 64 * (i % r.n))) (kept.getD pad)).setMs32 (openOff m) 0).setMs32 (openOff m + 4) 0

/-- What a core that has to post anything does first: with MSRAM or RGS held by a locked sequence it waits (R422, R423), and after a restart it looks
at its OPEN word. -/
def State.postReady (s : State) (m : Nat) : Bool := s.coreLive m && !s.msramHeld && !s.rgsShut m

/-- A ring whose HEAD is wrong is found (R440, R442): a RING_BAD event, once while it stays so. -/
def State.ringBad (s : State) (core k head tail : Nat) : State :=
  if s.mgt.bad.contains k then s
  else ({ s with mgt := { s.mgt with bad := s.mgt.bad ++ [k] } }).event core 0x0A (k + head * 2 ^ 32 + tail * 2 ^ 64)

/-- A ring is right again. -/
def State.ringGood (s : State) (k : Nat) : State := { s with mgt := { s.mgt with bad := s.mgt.bad.filter (fun x => decide (x ≠ k)) } }

/-- Is there room for a completion that no other waits for? (R443) -/
def State.cqSpace (s : State) : Bool := decide (s.ringUsed cqRing < 1024) && s.mgt.posts.isEmpty

/-- A bit of HINT_STAT rises: CMPL 0, EVT 1, RESTART 2 (R441, R455, R470); the cycle is noted. -/
def State.hintSet (s : State) (bit : Nat) : State :=
  ({ s with mgt := { s.mgt with hints := SMap.insert s.mgt.hints bit s.cyc } }).put (bitFld R.MGT_HINT_STAT bit) 1

/-- COMPLETION_POST (R441 to R443): the core posts its oldest completion; SCH first looks at lists and kills that may have ended.
While the ring is full, or its HEAD is wrong, completions are held. -/
def execCompletionPost (core : Core) (s : State) : Host.Outcome State Fault Refusal :=
  let m := core.val
  .next (if !s.coreIn m then s
  else
    let again : Instr := .completionPost core
    let s := if m = 2 then s.jobsGo (fun j => decide (0 < j.stage) && (decide (j.op = 5) || decide (j.op = 7))) else s
    if s.mgt.reopen.contains m then (if s.postReady m then (s.padOpen m).arm .real (ns 1) again else s.fwWait again)
    else
    match s.mgt.posts.find? (fun p => decide (p.1 = m)) with
    | none => s
    | some p =>
      if !s.postReady m then s.fwWait again
      else if 1024 < s.ringUsed cqRing then (s.ringBad 0 1 (s.ms32 cqRing.head) (s.ms32 cqRing.rsv)).fwWait again
      else if s.ringUsed cqRing = 1024 then (s.ringGood 1).fwWait again
      else
        let s := ((s.ringGood 1).ringPost m cqRing p.2).hintSet 0
        let s := { s with mgt := { s.mgt with posts := s.mgt.posts.erase p } }
        s.arm .real (ns 1) again)

/-! Events -/

/-- Bytes 0 to 47 of an event (R450). -/
def eqHead (core typ seq detail : Nat) : List Byte := leBytes 4 (typ + coreReq core * 2 ^ 8 + seq * 2 ^ 16) ++ leBytes 44 detail

/-- One event goes to the ring or is lost (R443, R450): the sequence number advances either way, and a LOST event goes first when
events have been lost. -/
def State.eventTo (s : State) (core typ detail : Nat) : State :=
  let used := s.ringUsed eqRing
  let lost := s.ms32 0x60180
  let next (s : State) : State := { s with mgt := { s.mgt with evSeq := (s.mgt.evSeq + 1) % 65536 } }
  let post (s : State) (t d : Nat) : State := (next (s.ringPost core eqRing (eqHead core t s.mgt.evSeq d))).hintSet 1
  let lose (s : State) : State := next (s.setMs32 0x60180 (min (s.ms32 0x60180 + 1) (2 ^ 32 - 1)))
  if 512 < used then lose (s.ringBad 0 2 (s.ms32 eqRing.head) (s.ms32 eqRing.rsv))
  else
    let s := s.ringGood 2
    if used = 512 then lose s
    else if lost = 0 then post s typ detail
    else
      let s := (post s 0x09 lost).setMs32 0x60180 0
      if used = 511 then lose s else post s typ detail

/-- FIFO events of a core that has restarted, or of one that SEC stands in for: only those whose bits are still set are posted (R457). -/
def State.fifoEvents (s : State) (m : Nat) : State :=
  { s with events := s.events.filterMap (fun e =>
      if e.1 ≠ m ∨ e.2.1 ≠ 4 then some e
      else
        let mask := e.2.2 / 256 &&& s.f (R.HFF_EVT_EVT (e.2.2 % 256))
        if mask = 0 then none else some (e.1, e.2.1, e.2.2 % 256 + mask * 256)) }

/-- Does a log request an event of SEC? Its owner is SEC, INT_EN is 1 and its first record's kind has a HINT class (R204, R211,
R453). -/
def State.logAsks (s : State) (k : Nat) : Bool :=
  s.bit (R.ERR_LOG_STAT_FIRST_V k) && !s.bit (R.ERR_LOG_CTL_OWNER k) && s.bit (R.ERR_LOG_CTL_INT_EN k) && decide ((s.reg (R.ERR_FIRST_A k)).toNat % 256 ≠ 0x44)

/-- SEC reports the first record of each log that asks it, and acknowledges it (R453). -/
def State.logReports (s : State) : State :=
  (List.range 4).foldl (fun s k =>
    if s.logAsks k then
      let kind := (s.reg (R.ERR_FIRST_A k)).toNat % 256
      let seq := (s.reg (R.ERR_FIRST_B k)).toNat % 65536
      (s.eventTo 0 0x05 (k + kind * 256 + seq * 65536)).logCtl .sec k (BitVec.ofNat 32 (1 + 4 * s.f (R.ERR_LOG_CTL_INT_EN k)))
    else s) s

/-- Is a log of SEC's waiting to be reported? -/
def State.logsWait (s : State) : Bool := (List.range 4).any (fun k => s.logAsks k)

/-- EVENT_POST (R441 to R443, R450, R453): the core posts what it has to report; SEC also reports for a cluster core that is DOWN,
and the records of its logs.
Nothing is posted before BOOT_DONE, the event of index 0 (R570). -/
def execEventPost (core : Core) (s : State) : Host.Outcome State Fault Refusal :=
  let m := core.val
  let mine (e : Nat × Nat × Nat) : Bool := decide (e.1 = m) || (decide (m = 0) && decide (3 ≤ e.1) && s.coreDown e.1)
  .next (if 3 ≤ m ∧ s.coreDown m = true then (s.fifoEvents m).arm .real (ns 1) (.eventPost 0)
  else if !s.coreIn m || decide (s.f R.HLM_BOOT_STAT_STEP < 13) then s
  else if !s.events.any mine && !(decide (m = 0) && s.logsWait) then s
  else if !s.postReady m || s.mgt.reopen.contains m then s.fwWait (.eventPost core)
  else
    let es := s.events.filter mine
    let s := es.foldl (fun s e => s.eventTo m e.2.1 e.2.2) { s with events := s.events.filter (fun e => !mine e) }
    if m = 0 then s.logReports else s)

/-! Doorbell and submissions -/

/-- DOORBELL (R440, R469, R490): a latched wake source, and SCH looks at the ring. -/
def execDoorbell (m : Master) (v : W32) (s : State) : Host.Outcome State Fault Refusal :=
  .next (s.row m (.doorbell m v) (fun s => s.gate (m == .hrp || m == .dbg) m R.MGT_DOORBELL (fun s =>
    if !vbit v 0 then s
    else (({ s with mgt := { s.mgt with bell := true } }).latchWake 3).arm .real (ns 1) .submissionTake)))

/-- The submission in slot `i mod 1024` (R437, R444). -/
def State.entryAt (s : State) (i : Nat) : Job :=
  let b := s.cells (msram (0x61000 + 64 * (i % 1024))) 64
  let at' (k n : Nat) : Nat := leNat ((b.drop k).take n)
  { idx := i, op := at' 0 1, tag := at' 2 2, ctx := at' 4 1, after := decide (at' 1 1 % 2 = 1), core := sqCore (at' 0 1), ent := b, stage := 0, todo := [], acc := 0, t0 := 0 }

/-- SUBMISSION_TAKE (R440, R445): SCH copies the next entry, moves SQ_HEAD and hands the submission to its executor; an opcode
outside R446 completes with BAD_OP. A difference above 1024 stops it with a RING_BAD event. -/
def execSubmissionTake (s : State) : Host.Outcome State Fault Refusal :=
  let head := s.ms32 0x60040
  let tail := s.ms32 0x60000
  let d := (tail + 2 ^ 32 - head) % 2 ^ 32
  .next (if !s.mgt.bell || !s.coreIn 2 then s
  else if !s.postReady 2 || decide (s.f R.HLM_BOOT_STAT_STEP < 13) then s.fwWait .submissionTake
  else if 1024 < d then (s.ringBad 2 0 head tail).fwWait .submissionTake
  else if d = 0 then { s.ringGood 0 with mgt := { (s.ringGood 0).mgt with bell := false } }
  else
    let j := s.entryAt head
    let s := ((s.ringGood 0).setMs32 0x60040 ((head + 1) % 2 ^ 32)).arm .real (ns 1) .submissionTake
    let s := { s with mgt := { s.mgt with jobs := s.mgt.jobs ++ [j] } }
    if (sqRow j.op 0 false).isSome then s.jobGo j (ns 1) else s.jobEnd j 1 0)

/-! HINT bits -/

/-- HINT_SET (R441, R470). -/
def execHintSet (m : Master) (v : W32) (s : State) : Host.Outcome State Fault Refusal :=
  .next (s.row m (.hintSet m v) (fun s => s.gate (!(m == .hrp || m == .dbg)) m R.MGT_HINT_SET (fun s =>
    let s := if vbit v 0 then s.hintSet 0 else s
    if vbit v 1 then s.hintSet 1 else s)))

/-- HINT_STAT_CLEAR (R452, R467, R470): a bit that a core sets on the cycle of the clear stays 1. -/
def execHintStatClear (m : Master) (v : W32) (s : State) : Host.Outcome State Fault Refusal :=
  .next (s.row m (.hintStatClear m v) (fun s => s.gate (m == .hrp || m == .dbg) m R.MGT_HINT_STAT (fun s =>
    let kept (bit : Nat) : Nat := if s.mgt.hints.contains (bit, s.cyc) then 2 ^ bit else 0
    s.setReg R.MGT_HINT_STAT (s.reg R.MGT_HINT_STAT &&& ~~~(v &&& BitVec.ofNat 32 (7 - kept 0 - kept 1 - kept 2))))))

end Sys2Proof.Machine
end

