-- ==== Sys2Proof/Machine/Restart.lean ====
section
/-! DEFINITION. Watchdogs, core restarts, activations, halts and the request of a recovery (chapter "The Pastan management complex
and its firmware"). -/
namespace Sys2Proof.Machine

/-! Masking -/

/-- A master's locks end: they hold others for the rest of this cycle, and are marked with it (R422, R425). -/
def State.endLocks (s : State) (p : Nat → Bool) (m : Nat) : State :=
  { s with cmx := { s.cmx with locks := s.cmx.locks.map (fun (l : Nat × Nat × Nat) => if l.2.1 = m ∧ l.2.2 < 2 ^ 32 ∧ p l.1 = true then (l.1, l.2.1, 2 ^ 32 + s.time.real / 300000) else l) } }

/-- The master that a target has parked on (R428). -/
def parkOf (t : Nat) : Fld :=
  match t with
  | 0 => R.CMX_PARK_ROM
  | 1 => R.CMX_PARK_MSRAM
  | 2 => R.CMX_PARK_NVMC
  | _ => R.CMX_PARK_RGS

/-- What masking a master does at the control matrix (R419, R422, R424): its waiting transfers go, the responses of its
outstanding ones will be discarded (they lose the cycle of their release), its locks end, a target parked on it parks on SEC. -/
def State.cmxMask (s : State) (m : Nat) : State :=
  let s := { s with cmx := { s.cmx with waiting := s.cmx.waiting.filter (fun q => decide (q.m ≠ m)), starting := s.cmx.starting.map (fun (e : CmxReq × Nat) => if e.1.m = m then ({ e.1 with rel := none }, e.2) else e), out := s.cmx.out.map (fun (o : CmxOut) => if o.req.m = m then { o with req := { o.req with rel := none } } else o) } }.endLocks (fun _ => true) m
  let s := [R.CMX_PARK_ROM, R.CMX_PARK_MSRAM, R.CMX_PARK_NVMC, R.CMX_PARK_RGS].foldl (fun s f => if s.f f = m then s.put f 0 else s)
    { s with cmx := { s.cmx with moved := (List.range 4).foldl (fun x t => if s.f (parkOf t) = m then SMap.insert x t (s.cyc + 1) else x) s.cmx.moved } }
  [Target.rom, .msram, .nvmc, .rgs].foldl (fun s t => s.arm .real (ns 1) (.targetArbitration t)) s

/-- A core is held in reset (R424, R455, R487, R504): it is out of service, a halt of it ends, and with PWC the software emergency,
with SEC its freeze (R81). -/
def State.maskCore (s : State) (m : Nat) : State :=
  let s := { s with masked := s.masked.filter (fun x => decide (x ≠ m)) ++ [m], mgt := { s.mgt with halting := s.mgt.halting.filter (fun x => decide (x ≠ m)) } }
  let s := (s.puts [(inService m, 0), (bitFld R.MGT_HALT_STAT m, 0)]).cmxMask m
  let s := if m = 0 then (s.put R.LCT_FRZ_CTL_SEC_FRZ 0).frzFirmware else s
  if m = 1 then (s.emergSet R.PWR_EMERG_STAT_SW false).leavePoke else s

/-- A core leaves reset (R455). -/
def State.unmaskCore (s : State) (m : Nat) : State :=
  let s := { s with masked := s.masked.filter (fun x => decide (x ≠ m)), mgt := { s.mgt with kicks := SMap.insert s.mgt.kicks m s.time.now } }
  let s := s.arm .wall 1 (.watchdogExpiry (Fin.ofNat 11 m))
  if m = 1 then s.leavePoke else s

/-! Images -/

/-- Offset of a slot in MSRAM (R437). -/
def slotOff (r slot : Nat) : Nat :=
  match r with
  | 0 => slot * 0xC000
  | 1 => 0x18000 + slot * 0x6000
  | 2 => 0x24000 + slot * 0xA000
  | _ => 0x38000 + slot * 0x4000

/-- Size of a role's slots (R437). -/
def slotSize (r : Nat) : Nat :=
  match r with
  | 0 => 0xC000
  | 1 => 0x6000
  | 2 => 0xA000
  | _ => 0x4000

/-- What is recorded of a slot. -/
def State.slotRec (s : State) (r slot : Nat) : Slot := SMap.get Slot.empty s.mgt.slots (r * 2 + slot)

/-- Record it. -/
def State.setSlot (s : State) (r slot : Nat) (x : Slot) : State := { s with mgt := { s.mgt with slots := SMap.set Slot.empty s.mgt.slots (r * 2 + slot) x } }

/-- SHA-384 of bytes, as a number whose byte `i` is byte `i` of the digest. -/
def sha (b : List Byte) : Nat := Config.sha384 (b.map (fun x => x.toNat))

/-- The digest of a slot over a length. -/
def State.slotHash (s : State) (r slot len : Nat) : Nat := sha (s.cells (msram (slotOff r slot)) (min len (slotSize r)))

/-- The running values of a role show a slot (R473). -/
def State.showSlot (s : State) (r slot : Nat) : State :=
  let x := s.slotRec r slot
  let s := s.puts [(R.MGT_IMG_VER_VERSION r, x.version), (R.MGT_IMG_STAT_SLOT r, slot), (R.MGT_IMG_LEN_LENGTH r, x.len)]
  (List.range 12).foldl (fun s j => s.setReg (R.MGT_IMG_DIG r j) (BitVec.ofNat 32 (x.digest / 2 ^ (32 * j)))) s

/-- STATE of a role (R463). -/
def State.roleState (s : State) (r : Nat) : Nat := s.f (R.MGT_IMG_STAT_STATE r)

/-- A section of the verified image. -/
def State.section' (s : State) (i : Nat) : List Byte := s.boot.img.getD i []

/-- The Hallmark record (R586). -/
def State.hallRecord (s : State) : List Byte :=
  let p := s.section' 0
  let y := s.dies
  leBytes 4 0x4E39484C ++ leBytes 2 1 ++ leBytes 1 (s.f R.LCT_LEVEL_LEVEL) ++ leBytes 1 y ++ leBytes 4 (s.reg R.IDV_VERSION).toNat ++ leBytes 1 (s.f R.IDV_CONF_CAB_PER_DIE) ++ leBytes 3 0 ++
    (p.drop 0x30).take (1156 * y) ++
    (List.range 4).flatMap (fun r => leBytes 4 (s.reg (R.MGT_IMG_VER r)).toNat ++ (List.range 12).flatMap (fun j => leBytes 4 (s.reg (R.MGT_IMG_DIG r j)).toNat)) ++
    (p.drop 4).take 24

/-- The Hallmark is computed within 10 µs from the values now in force (R587). -/
def State.hallStart (s : State) : State :=
  let due := s.time.real + s.free % (us 10 + 1)
  (({ s with boot := { s.boot with hallAt := some due, hallRec := s.hallRecord } }.useFree).put R.HLM_HLM_STAT_CHANGING 1).at' .real due .hallmarkComputationEnd

/-- Change the STATE of a role (R463, R587): in VERIFIED, DEFERRED and ACTIVATING the version of the standby slot shows (R473). -/
def State.setRole (s : State) (r st : Nat) : State :=
  let s := s.put (R.MGT_IMG_STAT_STATE r) st
  let s := s.put (R.MGT_IMG_STBY_VERSION r) (if st = 2 ∨ st = 3 ∨ st = 4 then (s.slotRec r (1 - s.f (R.MGT_IMG_STAT_SLOT r))).version else 0)
  if st = 0 then s.hallStart else s

/-- A record of the management complex (R460). -/
def State.mgtErr (s : State) (kind m detail addr : Nat) : State :=
  s.err { kind := kind, req := coreReq m, cab := none, addr := addr, data := 0x50000 + detail * 256 + m }

/-- Cores of a role (R433). -/
def State.roleCores (s : State) (r : Nat) : List Nat := s.cores.filter (fun m => decide (roleOf m = r))

/-- How a role's activation ended, for FWACT: 1 probation over, 2 reverted, 3 abandoned, 4 DOWN. -/
def State.setOutcome (s : State) (r n : Nat) : State := { s with mgt := { s.mgt with outcome := SMap.insert s.mgt.outcome r n } }

/-! Restarts -/

/-- Codes of the causes (R451). -/
def causeCode : RestartCause → Nat
  | .watchdog => 1
  | .activation => 2
  | .recovery => 3
  | .command => 4
  | .revert => 5

/-- A restart of a core begins (R455): it is masked, remapped to its slot, and its slot is hashed at one byte per management cycle. -/
def State.restartCore (s : State) (m cause slot : Nat) (retried : Bool) : State :=
  let r := roleOf m
  let s := ((s.maskCore m).hintSet 2).puts [(R.MGT_WDT_STAT_LAST m, cause), (R.MGT_REMAP_REMAP m, 1), (R.MGT_REMAP_BASE m, slotOff r slot / 4096)]
  let x : Restart := { core := m, cause := cause, slot := slot, at' := s.time.real, live := false, retried := retried }
  let s := { s.inc (R.MGT_WDT_STAT_RESTARTS m) with mgt := { (s.inc (R.MGT_WDT_STAT_RESTARTS m)).mgt with restarts := s.mgt.restarts.filter (fun (y : Restart) => decide (y.core ≠ m)) ++ [x] } }
  (s.later .real (ns (max 1000 (s.slotRec r slot).len)) (.coreRelease (Fin.ofNat 11 m))).later .real (us 2000) (.restartKickTimeout (Fin.ofNat 11 m))

/-- The slot a core runs. -/
def State.slotOf (s : State) (m : Nat) : Nat := s.f (slotB m)

/-- Has MGT.EMERG.ANY been 0 for 100 µs? (R464) -/
def State.calm (s : State) : Bool := !s.emergAny && (decide (s.pwr.anyAt = 0) || decide (s.pwr.anyAt + us 100 ≤ s.time.real))

/-- The last core of a sequence is in service (R465, R584). -/
def State.seqEnd (s : State) (q : CoreSeq) : State :=
  match q.kind with
  | .act =>
    let s := (s.event 0 0x08 (q.role + s.f (R.MGT_IMG_VER_VERSION q.role) * 2 ^ 32)).setRole q.role 5
    ({ s with mgt := { s.mgt with prob := SMap.insert s.mgt.prob q.role (s.time.now + us 10000) } }).later .fab (us 10000) (.probationEnd (Fin.ofNat 4 q.role))
  | .revert => if (s.roleCores q.role).any s.coreDown then s else ((s.setRole q.role 0).setOutcome q.role 2).put R.MGT_ACT_STAT_DONE 1
  | .split =>
    let s := (List.range 4).foldl (fun s r => if (s.roleCores r).any s.coreDown then s.put (R.MGT_IMG_STAT_STATE r) 6 else s.setRole r 0) s
    let s := s.hallStart
    if s.bit R.MGT_MODE_RECOVERING then ({ s with mgt := { s.mgt with recover := 0 } }).put R.MGT_MODE_RECOVERING 0
    else (s.later .real 0 (.powerOnReset s.boot.sfdp s.boot.sig)).later .real 0 .recoveryStart

/-- The next core of a sequence (R464, R465, R584): an activation records the running values first, starts no core while an
emergency is flagged, and waits for a restart of the same role under way. -/
def State.seqStep (s : State) (q : CoreSeq) : State :=
  let drop (s : State) : State := { s with mgt := { s.mgt with seqs := s.mgt.seqs.filter (fun x => !decide (x = q)) } }
  if q.cur.isSome then s
  else
    match q.todo with
    | [] => (drop s).seqEnd q
    | m :: rest =>
      let first := decide (q.todo = s.roleCores q.role)
      let free := decide (q.kind ≠ SeqKind.act) || (if first then !s.emergAny else s.calm)
      if !free || s.mgt.restarts.any (fun x => decide (roleOf x.core = roleOf m)) then s
      else
        let s := drop s
        let s := { s with mgt := { s.mgt with seqs := s.mgt.seqs ++ [({ q with todo := rest, cur := some m } : CoreSeq)] } }
        match q.kind with
        | .act =>
          let slot := 1 - s.slotOf m
          let x := s.slotRec q.role slot
          let s := (s.setSlot q.role slot { x with digest := s.slotHash q.role slot x.len }).showSlot q.role slot
          s.restartCore m 2 slot false
        | .revert => s.restartCore m 5 (s.f (R.MGT_IMG_STAT_SLOT q.role)) false
        | .split => ((if m = 0 then s else s.put R.MGT_MODE_MODE 1).showSlot (roleOf m) 0).restartCore m 3 0 false

/-- Let every sequence go on. -/
def State.seqsGo (s : State) : State := s.mgt.seqs.foldl (fun s q => s.seqStep q) s

/-- A core has left a sequence's way, in service or DOWN. -/
def State.seqsDone (s : State) (m : Nat) : State :=
  ({ s with mgt := { s.mgt with seqs := s.mgt.seqs.map (fun (q : CoreSeq) => if q.cur = some m then { q with cur := none } else q) } }).seqsGo

/-- The unit reverts a role (R465): every core that runs the new slot, and the one that failed on it, restarts on the previous slot. -/
def State.revertRole (s : State) (r m : Nat) : State :=
  let new := s.f (R.MGT_IMG_STAT_SLOT r)
  let s := (s.mgtErr 0x63 m r 0).showSlot r (1 - new)
  let s := s.setRole r 4
  let todo := (s.roleCores r).filter (fun x => decide (s.slotOf x = new) || decide (x = m))
  let s := { s with mgt := { s.mgt with prob := SMap.erase s.mgt.prob r, restarts := s.mgt.restarts.filter (fun (x : Restart) => decide (x.core ≠ m)), seqs := s.mgt.seqs.filter (fun (q : CoreSeq) => decide (q.role ≠ r) || decide (q.kind = SeqKind.split)) ++ [({ kind := .revert, role := r, todo := todo, cur := none } : CoreSeq)] } }
  s.seqsGo

/-- A start has failed (R455). -/
def State.startFailed (s : State) (x : Restart) : State :=
  let m := x.core
  let r := roleOf m
  let n := s.f (R.MGT_WDT_STAT_FAILS m) + 1
  let s := (s.maskCore m).put (R.MGT_WDT_STAT_FAILS m) n
  if 2 ≤ n then
    let s := (s.put (R.MGT_WDT_STAT_DOWN m) 1).hintSet 2
    let s := { s with mgt := { s.mgt with restarts := s.mgt.restarts.filter (fun (y : Restart) => decide (y.core ≠ m)), prob := SMap.erase s.mgt.prob r, seqs := s.mgt.seqs.filter (fun (q : CoreSeq) => decide (q.role ≠ r) || decide (q.kind ≠ SeqKind.act)) } }
    let s := ((s.setRole r 6).setOutcome r 4).event 0 0x06 (m + x.cause * 256 + 2 * 65536)
    (s.seqsDone m).jobsGo (fun _ => true)
  else if x.cause = 2 then s.revertRole r m
  else s.restartCore m x.cause x.slot true

/-- In bring-up mode a core restarts into the bring-up kernel, with REMAP = 0: it is masked, and released in it (R434, R435). -/
def State.kernelCore (s : State) (m cause : Nat) : State :=
  let s := ((s.maskCore m).hintSet 2).puts [(R.MGT_WDT_STAT_LAST m, cause), (R.MGT_REMAP_REMAP m, 0)]
  (s.inc (R.MGT_WDT_STAT_RESTARTS m)).unmaskCore m

/-- CORE_RESTART (R455, R467): a masked core is not restarted again; one of a cluster that does not exist is skipped. In bring-up mode, in which
every core runs the kernel, the core restarts into it (R434; DESIGN CHOICE, log entry 110). -/
def execCoreRestart (core : Core) (cause : RestartCause) (s : State) : Host.Outcome State Fault Refusal :=
  let m := core.val
  .next (if !s.coreExists m || s.masked.contains m then s
  else if !s.bit R.MGT_MODE_MODE then s.kernelCore m (causeCode cause)
  else s.restartCore m (causeCode cause) (s.slotOf m) false)

/-- CORE_RELEASE (R455): the slot's hash is compared with its recorded digest. With SEC the complex enters role mode (R584). -/
def execCoreRelease (core : Core) (s : State) : Host.Outcome State Fault Refusal :=
  let m := core.val
  .next (match s.mgt.restarts.find? (fun x => decide (x.core = m)) with
  | none => s
  | some x =>
    let r := roleOf m
    let y := s.slotRec r x.slot
    if x.live ∨ s.time.real < x.at' + ns (max 1000 y.len) then s
    else if s.slotHash r x.slot y.len ≠ y.digest then (s.mgtErr 0x61 m x.slot (slotOff r x.slot)).startFailed x
    else
      let s := { s with mgt := { s.mgt with restarts := s.mgt.restarts.map (fun (z : Restart) => if z.core = m then { z with live := true } else z) } }
      ((if m = 0 then s.put R.MGT_MODE_MODE 1 else s).put (slotB m) x.slot).unmaskCore m)

/-- RESTART_KICK_TIMEOUT (R455): no kick within 2 ms of the masking. -/
def execRestartKickTimeout (core : Core) (s : State) : Host.Outcome State Fault Refusal :=
  .next (match s.mgt.restarts.find? (fun x => decide (x.core = core.val)) with
  | none => s
  | some x => if x.at' + us 2000 ≤ s.time.real then s.startFailed x else s)

/-- A core is in service (R455 to R458): it looks at its OPEN word and takes up what waits for it. -/
def State.coreBack (s : State) (m : Nat) : State :=
  let c : Core := Fin.ofNat 11 m
  let s := if 3 ≤ m then s.fifoEvents m else s
  let s := { s with mgt := { s.mgt with reopen := s.mgt.reopen.filter (fun x => decide (x ≠ m)) ++ [m] } }
  let s := (s.arm .real (ns 1) (.completionPost c)).arm .real (ns 1) (.eventPost c)
  let s := s.jobsGo (fun j => decide (j.core = m))
  if m = 2 then ({ s with mgt := { s.mgt with bell := true } }).arm .real (ns 1) .submissionTake else s

/-- The RESTART event of a core back in service (R451, R456): result 0, or 1 after a second attempt. -/
def State.restartEvent (s : State) (x : Restart) : State := s.event x.core 0x06 (x.core + x.cause * 256 + (if x.retried then 1 else 0) * 65536)

/-- WDT_KICK (R454, R455, R472): the first kick after a release puts the core in service. -/
def execWdtKick (m : Master) (core : Core) (v : W32) (s : State) : Host.Outcome State Fault Refusal :=
  let c := core.val
  .next (s.row m (.wdtKick m core v) (fun s => s.gate (decide (masterIdx m = c)) m (R.MGT_WDT_KICK c) (fun s =>
    if v.toNat % 65536 ≠ 0xA5C3 ∨ s.masked.contains c = true then s
    else
      let s := ({ s with mgt := { s.mgt with kicks := SMap.insert s.mgt.kicks c s.time.now } }).arm .wall 1 (.watchdogExpiry core)
      match s.mgt.restarts.find? (fun x => decide (x.core = c) && x.live) with
      | none => s.put (inService c) 1
      | some x =>
        let s := { s with mgt := { s.mgt with restarts := s.mgt.restarts.filter (fun (y : Restart) => decide (y.core ≠ c)) } }
        ((((s.puts [(inService c, 1), (R.MGT_WDT_STAT_FAILS c, 0)]).restartEvent x).coreBack c).seqsDone c))))

/-! Watchdogs -/

/-- A watchdog expiry in bring-up mode restarts every core into the kernel (R435, R584): it resumes at step 3, or at step 9 once
BOOT_LOCK is 1; in a recovery it loads the roles again within the time of the recovery (R466). -/
def State.kernelRestart (s : State) : State :=
  let s := s.cores.foldl (fun s m => s.kernelCore m 1) { s with mgt := { s.mgt with restarts := [], seqs := [] } }
  if s.bit R.MGT_MODE_RECOVERING then
    let due := max s.time.real s.mgt.recoverAt
    ({ s with mgt := { s.mgt with recover := 2, recoverAt := due } }).at' .real due .recoveryStart
  else
  let s := { s with boot := { s.boot with stage := if s.bootLocked then 9 else 3, due := s.time.real } }
  s.later .real 0 (.powerOnReset s.boot.sfdp s.boot.sig)

/-- WATCHDOG_EXPIRY (R435, R454, R465): the count of µs of fabric time since the last kick reaches TIMEOUT; one that has not reached it
yet is looked at again when it can. -/
def execWatchdogExpiry (core : Core) (s : State) : Host.Outcome State Fault Refusal :=
  let m := core.val
  let due := SMap.get 0 s.mgt.kicks m + us (s.f (R.MGT_WDT_CFG_TIMEOUT m))
  .next (if !s.coreExists m || !s.bit (R.MGT_WDT_CFG_EN m) || s.masked.contains m || s.wdtHeld m then s
  else if s.time.now < due then (s.disarm (.watchdogExpiry core)).at' .fab due (.watchdogExpiry core)
  else
    let s := s.mgtErr 0x60 m 0 0
    if !s.bit R.MGT_MODE_MODE then s.kernelRestart
    else if s.roleState (roleOf m) = 5 then s.revertRole (roleOf m) m
    else s.restartCore m 1 (s.slotOf m) false)

/-- MGT_RESTART_WRITE (R467, R471): cause 4 for every core named that is not masked. -/
def execMgtRestartWrite (m : Master) (v : W32) (s : State) : Host.Outcome State Fault Refusal :=
  .next (s.row m (.mgtRestartWrite m v) (fun s => s.gate (m == .sec || m == .dbg) m R.MGT_RESTART (fun s =>
    (s.cores.filter (fun c => vbit v c)).foldl (fun s c => s.later .wall 0 (.coreRestart (Fin.ofNat 11 c) .command)) s)))

/-- MGT_REMAP_WRITE (R425, R432). -/
def execMgtRemapWrite (m : Master) (core : Core) (v : W32) (s : State) : Host.Outcome State Fault Refusal :=
  .next (s.row m (.mgtRemapWrite m core v) (fun s => s.gate ((m == .sec || m == .dbg) && s.masked.contains core.val) m (R.MGT_REMAP core) (fun s => s.setReg (R.MGT_REMAP core) (v &&& 0x000FF001))))

/-! Activation -/

/-- An activation starts (R465). -/
def State.actStart (s : State) (r : Nat) : State :=
  let s := s.setRole r 4
  ({ s with mgt := { s.mgt with seqs := s.mgt.seqs ++ [({ kind := .act, role := r, todo := s.roleCores r, cur := none } : CoreSeq)] } }).seqsGo

/-- MGT_ACT_WRITE (R463, R464, R471): GO for a role that is not VERIFIED sets REJ; while an emergency is flagged it is deferred. -/
def execMgtActWrite (m : Master) (v : W32) (s : State) : Host.Outcome State Fault Refusal :=
  let r := v.toNat % 4
  .next (s.row m (.mgtActWrite m v) (fun s => s.gate (m == .sec || m == .dbg) m R.MGT_ACT (fun s =>
    if !vbit v 31 then s
    else if s.roleState r ≠ 2 then s.put R.MGT_ACT_STAT_REJ 1
    else
      let s := { s with mgt := { s.mgt with outcome := SMap.erase s.mgt.outcome r } }
      if s.emergAny then (s.setRole r 3).event 0 0x07 r else s.actStart r)))

/-- ACTIVATION_START (R464, R465): once no emergency has been flagged for 100 µs, deferred activations start and those begun go on. -/
def execActivationStart (s : State) : Host.Outcome State Fault Refusal :=
  .next (if !s.calm then s else ((List.range 4).foldl (fun s r => if s.roleState r = 3 then s.actStart r else s) s).seqsGo)

/-- PROBATION_END (R465): 10 ms of fabric time have passed. -/
def execProbationEnd (role : Fin 4) (s : State) : Host.Outcome State Fault Refusal :=
  let r := role.val
  .next (if s.roleState r = 5 ∧ SMap.get 0 s.mgt.prob r ≤ s.time.now then
    ((({ s with mgt := { s.mgt with prob := SMap.erase s.mgt.prob r } }).setRole r 0).setOutcome r 1).put R.MGT_ACT_STAT_DONE 1
  else s)

/-- RECOVERY (R466): the request; it waits while an emergency is flagged, and in bring-up mode until the roles are split (DESIGN CHOICE, log entry
111). A recovery that runs is none anew. -/
def execRecovery (m : Master) (v : W32) (s : State) : Host.Outcome State Fault Refusal :=
  .next (s.row m (.recovery m v) (fun s => s.gate (m == .hrp || m == .dbg) m R.MGT_RECOVER (fun s =>
    if v.toNat % 65536 = 0x52EC ∧ s.mgt.recover = 0 then ({ s with mgt := { s.mgt with recover := 1 } }).later .real 0 .recoveryStart else s)))

/-! Halts -/

/-- SELF_HALT (R487): the writing core halts once its accesses are answered; its lock ends. -/
def execSelfHalt (m : Master) (v : W32) (s : State) : Host.Outcome State Fault Refusal :=
  let ok := !(m == .pwc || m == .dbg || m == .hrp)
  let i := masterIdx m
  .next (s.row m (.selfHalt m v) (fun s => s.gate ok m R.MGT_SELF_HALT (fun s =>
    if v.toNat % 65536 ≠ 0x4A17 ∨ s.masked.contains i = true then s
    else
      let s := { s.endLocks (fun _ => true) i with cmx := { (s.endLocks (fun _ => true) i).cmx with waiting := s.cmx.waiting.filter (fun q => decide (q.m ≠ i)) } }
      let s := s.later .real 0 (.targetArbitration .rgs) |>.later .real 0 (.targetArbitration .msram)
      if s.cmx.out.any (fun o => decide (o.req.m = i)) then { s with mgt := { s.mgt with halting := s.mgt.halting ++ [i] } } else s.haltCore i)))

/-- RESUME (R487, R488). -/
def execResume (m : Master) (v : W32) (s : State) : Host.Outcome State Fault Refusal :=
  .next (s.row m (.resume m v) (fun s => s.gate (pwrMaster m) m R.MGT_RESUME (fun s => s.resumeCores (v.toNat % 2048))))

end Sys2Proof.Machine
end

