-- ==== Sys2Proof/Machine/Submit.lean ====
section
/-! DEFINITION. The submissions of the opcode table: what each asks of the fabric and what its completion holds (R444 to R449, R236,
R462 to R464, R498). -/
namespace Sys2Proof.Machine

/-! Operands -/

/-- The operand bytes that an opcode names, as first and last byte (R446, R498). -/
def sqNamed (op : Nat) : List (Nat × Nat) :=
  match op with
  | 0x02 => [(8, 9)]
  | 0x04 => [(8, 32)]
  | 0x06 => [(8, 9)]
  | 0x07 => [(8, 15)]
  | 0x08 => [(8, 10), (16, 47)]
  | 0x09 => [(8, 10), (12, 19)]
  | 0x0A => [(8, 17)]
  | 0x0B => [(8, 8)]
  | 0x0C => [(8, 11)]
  | 0x0D => [(8, 10)]
  | 0x0E => [(8, 8)]
  | 0x0F => [(8, 8), (16, 31)]
  | 0x10 => [(8, 9), (12, 15)]
  | 0x11 => [(8, 8)]
  | 0x12 => [(8, 9)]
  | _ => []

/-- Opcodes that name a context. -/
def sqCtx (op : Nat) : Bool := decide (2 ≤ op ∧ op ≤ 9)

/-- A reserved bit or an unnamed operand byte is not zero, or the context does not exist (R444, R448). -/
def Job.malformed (j : Job) : Bool :=
  decide (1 < j.opnd 1 1) || decide (j.opnd 5 3 ≠ 0) || (sqCtx j.op && decide (15 < j.ctx)) ||
    (List.range 56).any (fun k => !(sqNamed j.op).any (fun r => decide (r.1 ≤ 8 + k) && decide (8 + k ≤ r.2)) && decide (j.opnd (8 + k) 1 ≠ 0))

/-- The physical cabinet of a logical one under the current generation (R33). -/
def State.curCab (s : State) (n : Nat) : Option Nat := if n < 128 then s.mapped s.cur n else none

/-- Logical cabinets from one fabric address to another. -/
def spanCabs (a b : Nat) : List Nat := (List.range (faCab b + 1 - faCab a)).map (fun k => faCab a + k)

/-- An operand lies outside its range (R446, R448, R498). -/
def State.outOfRange (s : State) (j : Job) : Bool :=
  match j.op with
  | 0x04 => decide (1 < j.opnd 32 1) || (List.range 128).any (fun n => decide (j.opnd 16 16 / 2 ^ n % 2 = 1) && (s.curCab n).isNone)
  | 0x06 => decide (63 < j.opnd 8 1) || !(decide (j.opnd 9 1 = 2) || decide (j.opnd 9 1 = 3))
  | 0x07 => (s.curCab (j.opnd 14 1)).isNone || decide (7 < j.opnd 15 1)
  | 0x08 => (decide (j.opnd 8 1 ≠ 0xFF) && ((s.curCab (j.opnd 8 1)).isNone || decide (2 ^ 64 ≤ j.opnd 16 32))) || decide (1 < j.opnd 9 1) || decide (1 < j.opnd 10 1)
  | 0x09 => (s.curCab (j.opnd 8 1)).isNone || decide (1 < j.opnd 9 1) || decide (0x1FFF < j.opnd 12 4) || decide (0x7FFFF < j.opnd 16 4)
  | 0x0A => decide (faDie (j.opnd 8 4) ≠ s.die) || decide (faDie (j.opnd 12 4) ≠ s.die) || decide (j.opnd 12 4 < j.opnd 8 4) || decide (3 < j.opnd 16 1)
  | 0x0B => !s.synth (j.opnd 8 1)
  | 0x0C => !s.synth (j.opnd 8 1) || decide (31 < j.opnd 9 1) || decide (4095 < j.opnd 10 2)
  | 0x0D => !s.synth (j.opnd 8 1) || decide (31 < j.opnd 9 1) || decide (17 < j.opnd 10 1)
  | 0x0E => decide (s.die ≠ 0) || decide (5 < j.opnd 8 1)
  | 0x0F => decide (4 < j.opnd 8 1)
  | 0x10 => decide (3 < j.opnd 8 1) || decide (1 < j.opnd 9 1)
  | 0x11 => decide (3 < j.opnd 8 1)
  | 0x12 => decide (3 < j.opnd 8 1) || decide (1 < j.opnd 9 1)
  | _ => false

/-- RESULT of a refusal (R449): the register's value, and what was refused. -/
def refusedRes (v : W32) (item : Nat) : Nat := v.toNat + item * 2 ^ 32

/-- Does a cabinet's control station answer? (R49, R244) -/
def State.cabAns (s : State) (p : Nat) : Bool := s.synth p && !s.fenced p && decide (s.pow p ≤ 1) && !s.silentCab p

/-- One look at submission `i` of an opcode: its executor must be able to run it and not be shut out of RGS (R422), its turn must have come and its operands must be good
before it starts; then `go` carries it out. -/
def State.sq (s : State) (i : W32) (op : Nat) (again : Instr) (go : State → Job → State) : State :=
  match s.mgt.jobs.find? (fun j => decide (j.idx = i.toNat) && decide (j.op = op)) with
  | none => s
  | some j =>
    if s.coreDown j.core then s.jobEnd j 5 0
    else if !s.coreLive j.core || s.rgsShut j.core then (if s.armed again then s else s.fwWait again)
    else if j.stage = 0 then
      if !s.jobTurn j then s
      else if j.malformed || s.outOfRange j then s.jobEnd j 2 0
      else go s j
    else go s j

/-- A submission goes on to a stage; it is looked at again at a moment of its own. -/
def State.sqStage (s : State) (j : Job) (stage : Nat) (again : Instr) : State := (s.setJob { j with stage := stage }).fwWait again

/-! SCH and SEC: contexts and windows -/

/-- SQ_NOP. -/
def execSqNop (i : W32) (s : State) : Host.Outcome State Fault Refusal := .next (s.sq i 0x01 (.sqNop i) (fun s j => s.jobEnd j 0 0))

/-- The answer of CTX.CMD_STAT (R446). -/
def State.ctxAnswer (s : State) (j : Job) : State :=
  if s.bit R.CTX_CMD_STAT_REJ then s.jobEnd j 3 (refusedRes (s.reg R.CTX_CMD_STAT) 0xFF) else s.jobEnd j 0 0

/-- SQ_ACTIVATE (R385, R446). -/
def execSqActivate (i : W32) (s : State) : Host.Outcome State Fault Refusal :=
  .next (s.sq i 0x02 (.sqActivate i) (fun s j =>
    let s := s.puts [(R.CTX_OWNER_IN_OWNER, j.opnd 8 2), (R.CTX_CMD_STAT_REJ, 0)]
    (ran s (execCtxActivate .sec (Fin.ofNat 16 j.ctx) s)).ctxAnswer j))

/-- SQ_DEACTIVATE (R385, R446). -/
def execSqDeactivate (i : W32) (s : State) : Host.Outcome State Fault Refusal :=
  .next (s.sq i 0x03 (.sqDeactivate i) (fun s j =>
    let s := s.put R.CTX_CMD_STAT_REJ 0
    (ran s (execCtxDeactivate .sec (Fin.ofNat 16 j.ctx) s)).ctxAnswer j))

/-- Bind the windows of a mask in ascending number, up to the first refusal: the windows bound, and the one refused. -/
def State.bindWins (s : State) (c mask : Nat) : List Nat → Nat → State × Nat × Option Nat
  | [], done => (s, done, none)
  | w :: ws, done =>
    if mask / 2 ^ w % 2 = 0 then s.bindWins c mask ws done
    else
      let s := s.put R.WIN_BIND_STAT_REJ 0
      let s := ran s (execWindowBind .sch (Fin.ofNat 64 w) (Fin.ofNat 16 c) s)
      if s.bit R.WIN_BIND_STAT_REJ then (s, done, some w) else s.bindWins c mask ws (done + 2 ^ w)

/-- Bind the engine attachment groups of logical cabinets, up to the first refusal. -/
def State.bindGroups (s : State) (c mask : Nat) : List Nat → State × Option Nat
  | [] => (s, none)
  | n :: ns =>
    if mask / 2 ^ n % 2 = 0 then s.bindGroups c mask ns
    else
      match s.curCab n with
      | none => (s, some n)
      | some p =>
        let s := ran s (execEagWrite .sch (Fin.ofNat 128 p) (BitVec.ofNat 32 (c + 16)) s)
        if s.eag p = some c then s.bindGroups c mask ns else (s, some n)

/-- SQ_BIND (R385, R387, R391, R446): the context, MULTI, the windows, the groups; the first refusal stops it. -/
def execSqBind (i : W32) (s : State) : Host.Outcome State Fault Refusal :=
  .next (s.sq i 0x04 (.sqBind i) (fun s j =>
    let c := j.ctx
    let s := s.put R.CTX_CMD_STAT_REJ 0
    let s := ran s (execCtxBind .sch (Fin.ofNat 16 c) s)
    if s.bit R.CTX_CMD_STAT_REJ then s.jobEnd j 3 0
    else
      let s := s.put (R.LCT_STEP_MULTI c) (j.opnd 32 1)
      let w := s.bindWins c (j.opnd 8 8) (List.range 64) 0
      if w.2.2.isSome then w.1.jobEnd j 3 w.2.1
      else
        let g := w.1.bindGroups c (j.opnd 16 16) (List.range 128)
        g.1.jobEnd j (if g.2.isSome then 3 else 0) w.2.1))

/-- SQ_KILL (R398, R446): it completes when phase 4 has ended. -/
def execSqKill (i : W32) (s : State) : Host.Outcome State Fault Refusal :=
  .next (s.sq i 0x05 (.sqKill i) (fun s j =>
    if j.stage = 0 then
      let s := s.put R.CTX_CMD_STAT_REJ 0
      let s := ran s (execCtxKill .sch (Fin.ofNat 16 j.ctx) s)
      if s.bit R.CTX_CMD_STAT_REJ then s.jobEnd j 3 (refusedRes (s.reg R.CTX_CMD_STAT) 0xFF)
      else (s.setJob { j with stage := 1 }).jobsGo (fun x => decide (x.stage = 0))
    else if s.killing j.ctx then s else s.jobEnd j 0 0))

/-- SQ_WINDOW (R391, R446). -/
def execSqWindow (i : W32) (s : State) : Host.Outcome State Fault Refusal :=
  .next (s.sq i 0x06 (.sqWindow i) (fun s j =>
    let w := j.opnd 8 1
    if j.stage = 0 then
      let s := s.put R.WIN_BIND_STAT_REJ 0
      let s := ran s (if j.opnd 9 1 = 2 then execWindowUnbind .sch (Fin.ofNat 64 w) (Fin.ofNat 16 j.ctx) s else execWindowRelease .sch (Fin.ofNat 64 w) 0 s)
      if s.bit R.WIN_BIND_STAT_REJ then s.jobEnd j 3 (refusedRes (s.reg R.WIN_BIND_STAT) w) else s.sqStage j 1 (.sqWindow i)
    else if s.ctx.busy.any (fun b => decide (b.1 = w)) then s.fwWait (.sqWindow i)
    else s.jobEnd j 0 0))

/-! SCH: runners, counters, FIFOs -/

/-- RNr_CMPL_A to RNr_CMPL_D of a runner's head record (R359). -/
def cmplRegs (l : List Cmpl) : List Nat :=
  match l with
  | [] => [0, 0, 0, 0]
  | c :: _ =>
    [c.tag % 256 + c.ctx % 16 * 2 ^ 8 + c.status % 16 * 2 ^ 12 + c.done % 65536 * 2 ^ 16,
     c.failIndex % 65536 + c.failResp % 4 * 2 ^ 16 + (if c.sigref then 2 ^ 18 else 0) + 2 ^ 20 + l.length % 8 * 2 ^ 21,
     c.lapsed % 65536 + c.lapseIndex % 65536 * 2 ^ 16, c.failAddr % 2 ^ 32]

/-- Numbers of 32 bits side by side. -/
def words32 (l : List Nat) : Nat := l.foldr (fun x n => x + n * 2 ^ 32) 0

/-- Does a runner still hold the list of a tag? -/
def holdsTag (x : RunSt) (tag : Nat) : Bool := x.run.any (fun l => decide (l.tag = tag)) || x.queue.any (fun l => decide (l.tag = tag)) || x.cmpl.any (fun c => decide (c.tag = tag))

/-- SCH takes the record of a RUN when it is the runner's head and there is room for its completion (R334, R443, R448). -/
def State.runTake (s : State) (j : Job) (p r : Nat) : State :=
  let x := s.runner p r
  let tag := j.idx % 256
  match x.cmpl with
  | c :: rest =>
    if c.tag ≠ tag then s
    else if s.cqSpace = false ∨ (c.status ≠ 10 ∧ s.cabAns p = false) then (if s.armed (.completionPost 2) then s else s.fwWait (.completionPost 2))
    else
      let res := words32 (cmplRegs x.cmpl)
      let s := if c.status = 10 then s.setRunner p r { x with cmpl := rest } else ran s (execCmplPop .sch (Fin.ofNat 128 p) (Fin.ofNat 4 r) 1 s)
      s.jobEnd j (if c.status = 1 ∨ c.status = 2 then 4 else 0) res
  | [] => s

/-- SQ_RUN (R312, R334, R446): the list carries a tag from the submission's index; one that a kill has removed leaves no record, and its
STATUS is not stated. -/
def execSqRun (i : W32) (s : State) : Host.Outcome State Fault Refusal :=
  .next (s.sq i 0x07 (.sqRun i) (fun s j =>
    let r := j.opnd 15 1 % 4
    if j.stage = 0 then
      match s.curCab (j.opnd 14 1) with
      | none => s
      | some p =>
        if !s.cabAns p then s.jobEnd j 4 0
        else
          let v := j.opnd 12 2 + j.ctx * 2 ^ 16 + j.opnd 15 1 / 4 * 2 ^ 20 + j.idx % 256 * 2 ^ 21 + 2 ^ 29 + 2 ^ 31
          let s := s.setReg (R.RUN_RN_LIST_FA p r) (BitVec.ofNat 32 (j.opnd 8 4))
          let s := ran s (execRunnerListGo .sch (Fin.ofNat 128 p) (Fin.ofNat 4 r) (BitVec.ofNat 32 v) s)
          if s.bit (R.RUN_RN_LIST_CTL_REJ p r) then s.jobEnd j 3 (refusedRes (s.reg (R.RUN_RN_LIST_CTL p r)) (j.opnd 14 1))
          else (s.setJob { j with stage := 1, todo := [p] }).jobsGo (fun x => decide (x.stage = 0))
    else
      match j.todo with
      | p :: _ => if holdsTag (s.runner p r) (j.idx % 256) then s.runTake j p r else s.useFree.jobEnd j (s.free % 9) 0
      | [] => s))

/-- Bind or unbind the counters of a mask; the first that a write did not bind as asked. -/
def State.syncAll (s : State) (j : Job) (sel : Nat → CtrSel) : List Nat → Option Nat → State × Option Nat
  | [], bad => (s, bad)
  | n :: ns, bad =>
    if j.opnd 16 32 / 2 ^ n % 2 = 0 then s.syncAll j sel ns bad
    else
      let on := decide (j.opnd 9 1 = 1)
      let v : W32 := BitVec.ofNat 32 (j.ctx + (if on then 0x10 else 0) + 0x20 + j.opnd 10 1 * 0x40)
      let s := ran s (if on then execCounterBind .sch (sel n) v s else execCounterUnbind .sch (sel n) v s)
      let k := selKey (sel n)
      let ok := s.bit (cfgBound k) == on && (!on || decide (s.f (cfgCtx k) = j.ctx))
      s.syncAll j sel ns (if ok || bad.isSome then bad else some n)

/-- SQ_SYNC (R267, R268, R446): bound counters wake their waiters. -/
def execSqSync (i : W32) (s : State) : Host.Outcome State Fault Refusal :=
  .next (s.sq i 0x08 (.sqSync i) (fun s j =>
    let fin (sel : Nat → CtrSel) (x : State × Option Nat) : State :=
      match x.2 with
      | none => x.1.jobEnd j 0 0
      | some n => x.1.jobEnd j 3 (refusedRes (x.1.reg (selKey (sel n))) n)
    if j.opnd 8 1 = 0xFF then
      let sel (n : Nat) : CtrSel := .glob (Fin.ofNat 128 ((s.cabs.find? s.cabAns).getD 0)) (Fin.ofNat 256 n)
      fin sel (s.syncAll j sel (List.range 256) none)
    else
      match s.curCab (j.opnd 8 1) with
      | none => s
      | some p =>
        let sel (n : Nat) : CtrSel := .cab (Fin.ofNat 128 p) (Fin.ofNat 64 n)
        if s.cabAns p then fin sel (s.syncAll j sel (List.range 64) none) else s.jobEnd j 4 0))

/-- Write CFG_f and NCN_f of the FIFOs of a mask; does any keep another binding? -/
def State.fifoAll (s : State) (j : Job) (p : Nat) : List Nat → Option Nat → State × Option Nat
  | [], bad => (s, bad)
  | f :: fs, bad =>
    if j.opnd 10 1 / 2 ^ f % 2 = 0 then s.fifoAll j p fs bad
    else
      let hand := s.bit (R.HFF_CFG_HANDOVER p f)
      let v : W32 := BitVec.ofNat 32 (j.opnd 12 4 + j.ctx * 2 ^ 16 + j.opnd 9 1 * 2 ^ 20)
      let s := ran s (execHffCfgWrite .sch (Fin.ofNat 128 p) (Fin.ofNat 8 f) v s)
      let s := if hand then s.locked 18 (s.ca (R.HFF_NCN p f)) else s.put (R.HFF_NCN_CN p f) (j.opnd 16 4)
      let ok := !hand && decide (s.f (R.HFF_CFG_BOUND p f) = j.opnd 9 1) && decide (s.f (R.HFF_CFG_CTX p f) = j.ctx)
      s.fifoAll j p fs (if ok || bad.isSome then bad else some f)

/-- SQ_FIFO (R374, R446). -/
def execSqFifo (i : W32) (s : State) : Host.Outcome State Fault Refusal :=
  .next (s.sq i 0x09 (.sqFifo i) (fun s j =>
    match s.curCab (j.opnd 8 1) with
    | none => s
    | some p =>
      if !s.cabAns p then s.jobEnd j 4 0
      else
        match s.fifoAll j p (List.range 8) none with
        | (s, none) => s.jobEnd j 0 0
        | (s, some f) => s.jobEnd j 3 (refusedRes (s.reg (R.HFF_CFG p f)) (j.opnd 8 1))))

/-! SEC: assay, fences, repair, logs, dumps -/

/-- Who does a cabinet's part of SEC's work: the core of its cluster, SEC while that one is out of service (R433, R457). -/
def State.partCore (s : State) (p : Nat) : Master := if s.coreIn (3 + cluster p) then .cc (Fin.ofNat 8 (cluster p)) else .sec
/-- Can it do it now, not halted? -/
def State.partReady (s : State) (p : Nat) : Bool := s.coreLive (3 + cluster p) || !s.coreIn (3 + cluster p)

/-- Start the passes that can start, each by its cluster's core; those left to start (R236, R433). -/
def State.assayStart (s : State) (j : Job) : List Nat → State × List Nat
  | [] => (s, [])
  | n :: ns =>
    let rest (s : State) : State × List Nat := s.assayStart j ns
    match s.curCab n with
    | none => rest s
    | some p =>
      if s.bit (R.ASY_CTL_GO p) || !s.partReady p then ((rest s).1, n :: (rest s).2)
      else
        let a := j.opnd 8 4
        let b := j.opnd 12 4
        let s := s.puts [(R.ASY_BASE_BASE p, if n = faCab a then faWord a else 0), (R.ASY_LIMIT_LIMIT p, if n = faCab b then faWord b else 131071)]
        let v := 1 + 2 + 4 + j.opnd 16 1 * 16 + j.opnd 17 1 * 256
        rest (ran s (execAssayGo (s.partCore p) (Fin.ofNat 128 p) (BitVec.ofNat 32 v) s))

/-- RESULT of an ASSAY (R236, R449): sums over its cabinets, given as (logical, physical). -/
def State.assayRes (s : State) (l : List (Nat × Nat)) : Nat :=
  let sum (f : Nat → Fld) : Nat := l.foldl (fun n e => n + s.f (f e.2)) 0
  let ues := (l.filter (fun e => s.bit (R.ASY_SUM_UE_ADDR_V e.2))).map (fun e => s.die * 2 ^ 29 + e.1 * 2 ^ 22 + s.f (R.ASY_SUM_UE_ADDR_OFFSET e.2))
  let at' := l.map (fun e => SMap.get (0, 0) s.rep.asyAt e.2)
  let dur := ((at'.foldl (fun n e => max n e.2) 0) - (at'.foldl (fun n e => min n e.1) s.time.now)) / 300000
  words32 [sum R.ASY_SUM_WORDS_COUNT, sum R.ASY_SUM_INVALID_COUNT, sum R.ASY_SUM_CE_COUNT, sum R.ASY_SUM_UE_COUNT, ues.foldl min 0xFFFFFFFF,
    sum R.ASY_SUM_REMAP_MADE % 65536 + sum R.ASY_SUM_REMAP_REJ % 65536 * 65536, dur % 2 ^ 32, dur / 2 ^ 32]

/-- SQ_ASSAY (R236, R446): refused whole when a cabinet of the range is unmapped; a cabinet that does not answer is a FAULT. -/
def execSqAssay (i : W32) (s : State) : Host.Outcome State Fault Refusal :=
  .next (s.sq i 0x0A (.sqAssay i) (fun s j =>
    let all := spanCabs (j.opnd 8 4) (j.opnd 12 4)
    let phys := all.filterMap (fun n => (s.curCab n).map (fun p => (n, p)))
    match all.find? (fun n => (s.curCab n).isNone) with
    | some n => if j.stage = 0 then s.jobEnd j 3 (refusedRes 0 n) else s.jobEnd j 4 0
    | none =>
      if phys.any (fun e => !s.cabAns e.2) then s.jobEnd j 4 0
      else
        let x := s.assayStart j (if j.stage = 0 then all else j.todo)
        let left := x.2
        let s := x.1
        if j.stage = 0 ∨ !left.isEmpty ∨ phys.any (fun e => s.bit (R.ASY_CTL_GO e.2)) then (s.setJob { j with stage := 1, todo := left }).fwWait (.sqAssay i)
        else s.jobEnd j 0 (s.assayRes phys)))

/-- SQ_FENCE (R242, R446). -/
def execSqFence (i : W32) (s : State) : Host.Outcome State Fault Refusal :=
  .next (s.sq i 0x0B (.sqFence i) (fun s j =>
    let p := j.opnd 8 1
    if s.fenced p then s.jobEnd j 0 0
    else if j.stage = 0 then (ran s (execFenceCmd .sec (BitVec.ofNat 32 (p + 2 ^ 31)) s)).sqStage j 1 (.sqFence i)
    else s.fwWait (.sqFence i)))

/-- SQ_REMAP (R241, R433, R446): the move is the work of the cabinet's cluster core. -/
def execSqRemap (i : W32) (s : State) : Host.Outcome State Fault Refusal :=
  .next (s.sq i 0x0C (.sqRemap i) (fun s j =>
    let p := j.opnd 8 1
    let answer (s : State) : State :=
      if s.bit (R.RMP_ADD_STAT_REJ p) then s.jobEnd j 3 (refusedRes (s.reg (R.RMP_ADD_STAT p)) p)
      else if s.bit (R.RMP_ADD_STAT_DONE p) then s.jobEnd j 0 0
      else s.sqStage j 1 (.sqRemap i)
    if !s.cabAns p then s.jobEnd j 4 0
    else if j.stage = 0 && !s.partReady p then s.fwWait (.sqRemap i)
    else if j.stage = 0 then
      let s := s.puts [(R.RMP_ADD_STAT_REJ p, 0), (R.RMP_ADD_STAT_DONE p, 0)]
      answer (ran s (execRemapAdd (s.partCore p) (Fin.ofNat 128 p) (BitVec.ofNat 32 (j.opnd 10 2 + j.opnd 9 1 * 4096 + 2 ^ 31)) s))
    else answer s))

/-- SQ_RETIRE (R222, R446): the first retirement of the bank, or the second. -/
def execSqRetire (i : W32) (s : State) : Host.Outcome State Fault Refusal :=
  .next (s.sq i 0x0D (.sqRetire i) (fun s j =>
    let p := j.opnd 8 1
    let b := j.opnd 9 1
    let m := j.opnd 10 1
    if !s.cabAns p then s.jobEnd j 4 0
    else
      let v := if s.bit (R.BNK_RETIRE_V1 p b) then m * 256 + 2 ^ 13 else m + 2 ^ 5
      (ran s (execRetireWrite .sec (Fin.ofNat 128 p) (Fin.ofNat 32 b) (BitVec.ofNat 32 v) s)).jobEnd j 0 0))

/-- SQ_LOGOWN (R210, R446). -/
def execSqLogown (i : W32) (s : State) : Host.Outcome State Fault Refusal :=
  .next (s.sq i 0x12 (.sqLogown i) (fun s j =>
    let k := j.opnd 8 1
    ((s.logCtl .sec k (BitVec.ofNat 32 (4 * s.f (R.ERR_LOG_CTL_INT_EN k) + 8 * j.opnd 9 1))).arm .real (ns 1) (.eventPost 0)).jobEnd j 0 0))

/-- A write of LCT.FRZ_CTL by a core that sets or clears its own bit and keeps the rest (R81). -/
def State.frzCtl (s : State) (m : Master) (bit : Nat) (on : Bool) : State :=
  let v := (s.reg R.LCT_FRZ_CTL).toNat
  let v := if on == decide (v / 2 ^ bit % 2 = 1) then v else if on then v + 2 ^ bit else v - 2 ^ bit
  ran s (execFrzCtlWrite m (BitVec.ofNat 32 v) s)

/-- SQ_DUMP (R298, R446, R458): SEC freezes the die for the dump unless it is frozen already, and again where a restart of SEC has cleared its
freeze (R81) before the dump began. -/
def execSqDump (i : W32) (s : State) : Host.Outcome State Fault Refusal :=
  let again : Instr := .sqDump i
  .next (s.sq i 0x13 again (fun s j =>
    let go (s : State) (acc : Nat) : State :=
      let v := 1 + 2 + 4 + s.f (R.SYN_DUMP_CTL_AUTO 0) * 16
      (ran s (execDumpGo .sec (BitVec.ofNat 32 v) s)).sqStage { j with acc := acc } 2 again
    match j.stage with
    | 0 => if s.frozen then go s 0 else (s.frzCtl .sec 2 true).sqStage j 1 again
    | 1 => if s.bit R.LCT_FRZ_STAT_FIRMWARE then go s 1 else (if s.bit R.LCT_FRZ_CTL_SEC_FRZ then s else s.frzCtl .sec 2 true).fwWait again
    | _ =>
      let rej := s.bit (R.SYN_DUMP_CTL_REJ 0)
      if !rej && !s.bit (R.SYN_DUMP_CTL_DONE 0) then s.fwWait again
      else
        let s := if j.acc = 1 then s.frzCtl .sec 2 false else s
        if rej then s.jobEnd j 3 (refusedRes (s.reg (R.SYN_DUMP_CTL 0)) 0xFF) else s.jobEnd j 0 0))

/-! PWC -/

/-- SQ_OPPOINT (R496, R498): a firmware freeze around the change; the result is read once the die has thawed. -/
def execSqOppoint (i : W32) (s : State) : Host.Outcome State Fault Refusal :=
  let again : Instr := .sqOppoint i
  .next (s.sq i 0x0E again (fun s j =>
    match j.stage with
    | 0 => (s.frzCtl .pwc 1 true).sqStage j 1 again
    | 1 =>
      if !s.bit R.LCT_FRZ_STAT_FIRMWARE then s.fwWait again
      else
        let s := s.puts [(R.PWR_OP_STAT_DONE, 0), (R.PWR_OP_STAT_REJ, 0)]
        (ran s (execOpChange .pwc (BitVec.ofNat 32 (j.opnd 8 1 + 2 ^ 31)) s)).sqStage j 2 again
    | 2 =>
      if s.bit R.PWR_OP_STAT_DONE || s.bit R.PWR_OP_STAT_REJ then (s.frzCtl .pwc 1 false).sqStage { j with acc := s.f R.PWR_OP_STAT_REJ } 3 again else s.fwWait again
    | _ =>
      if s.bit R.LCT_FRZ_STAT_FIRMWARE then s.fwWait again
      else if j.acc = 1 then s.jobEnd j 3 (refusedRes (s.reg R.PWR_OP_STAT) 0xFF)
      else
        let r := s.f R.PWR_OP_STAT_RESULT
        s.jobEnd j (if r = 1 then 3 else 0) (s.f R.PWR_OP_STAT_CUR + r * 2 ^ 8 + s.f R.LCT_FRZ_LAST_V * 2 ^ 32)))

/-- One command of PSTATE: its refusal or abort is the submission's result. -/
def State.pstateCmd (s : State) (target p : Nat) : State :=
  let c : Cab := Fin.ofNat 128 p
  let s := { s with pwr := { s.pwr with res := SMap.erase s.pwr.res p } }
  let t := ran s (match target with
  | 0 => execCabCmdRun .pwc c s
  | 1 => execCabCmdDoze .pwc c s
  | 2 => execCabCmdHold .pwc c s
  | _ => execCabCmdQuench .pwc c s)
  { t with pwr := { t.pwr with cmds := t.pwr.cmds.take s.pwr.cmds.length ++ (t.pwr.cmds.drop s.pwr.cmds.length).map (fun x => { x with job := true }) } }

/-- SQ_PSTATE (R498). -/
def execSqPstate (i : W32) (s : State) : Host.Outcome State Fault Refusal :=
  let again : Instr := .sqPstate i
  .next (s.sq i 0x0F again (fun s j =>
    let t := j.opnd 8 1
    let cabs := (List.range 128).filter (fun p => decide (j.opnd 16 16 / 2 ^ p % 2 = 1))
    let why (p : Nat) : Nat := SMap.get 0 s.pwr.res p
    let tail (p : Nat) : Nat := why p * 2 ^ 128 + reasonUnit (why p) * 2 ^ 136
    if t = 4 then
      if j.stage = 0 then (ran s (execDieSleep .pwc 1 { s with pwr := { s.pwr with res := SMap.erase s.pwr.res 127 } })).sqStage j 1 again
      else if s.pwr.sleep ≠ .awake then s.fwWait again
      else if why 127 ≠ 0 then s.jobEnd j 3 (tail 127)
      else s.jobEnd j 0 (s.f R.PWR_DIE_STAT_WAKE_SRC * 2 ^ 144 + s.pwr.slept % 2 ^ 64 * 2 ^ 192)
    else if j.stage = 0 then (cabs.foldl (fun s p => s.pstateCmd t p) s).sqStage j 1 again
    else if s.pwr.cmds.any (fun c => cabs.contains c.cab) || cabs.any (fun p => s.bit (cabBusy p)) then s.fwWait again
    else
      let bad := cabs.filter (fun p => decide (why p ≠ 0))
      match bad with
      | [] => s.jobEnd j 0 0
      | p :: _ => s.jobEnd j 3 (bad.foldl (fun n p => n + 2 ^ p) 0 + tail p)))

/-! SEC: firmware -/

/-- A field of a staged image. -/
def imgField (b : List Byte) (off n : Nat) : Nat := leNat ((b.drop off).take n)

/-- The first check of R462 that an image of a staged length fails for a role, codes 1 to 7; 0 for none. -/
def State.imgCheck (s : State) (r len : Nat) (sigOk : Bool) (b : List Byte) : Nat :=
  let body := imgField b 0x00C 4
  if imgField b 0 4 ≠ 0x4E394657 ∨ imgField b 4 1 ≠ r then 1
  else if body % 64 ≠ 0 ∨ slotSize r < body ∨ 0x160 + body ≠ len then 2
  else if sha ((b.drop 0x020).take 97) ≠ Config.rootKeyHash then 3
  else if !sigOk then 4
  else if (s.reg R.IDV_VERSION).toNat < imgField b 0x010 4 then 5
  else if imgField b 0x008 4 < s.boot.minVer.getD r 0 then 6
  else if sha ((b.drop 0x100).take body) ≠ imgField b 0x0A0 48 then 7
  else 0

/-- Copy an image's body into a slot and record it; is it there unchanged (code 8)? -/
def State.imgCopy (s : State) (r slot : Nat) (b : List Byte) : State × Bool :=
  let len := imgField b 0x00C 4
  let s := s.setCells (msram (slotOff r slot)) ((b.drop 0x100).take len)
  let x : Slot := { version := imgField b 0x008 4, len := len, digest := imgField b 0x0A0 48 }
  (s.setSlot r slot x, decide (s.slotHash r slot len = x.digest))

/-- Flash offset of a role's firmware area, 0 X or 1 Y (R573). -/
def fwArea (r a : Nat) : Nat := 0x40000 + 0x20000 * r + 0x10000 * a

/-- SEC writes an image to the role's firmware area that it did not boot from (R462, R583). -/
def State.imgPersist (s : State) (r : Nat) (b : List Byte) : State := s.setCells (flash (fwArea r (1 - SMap.get 0 s.boot.areas r))) b

/-- SQ_STAGE (R462, R463): refused in a state that does not lead to VERIFYING; verified within 10 ms. A role that has become DOWN meanwhile stays
so. -/
def execSqStage (i : W32) (sigOk : Bool) (s : State) : Host.Outcome State Fault Refusal :=
  let again : Instr := .sqStage i sigOk
  .next (s.sq i 0x10 again (fun s j =>
    let r := j.opnd 8 1
    let b := s.staged (j.opnd 12 4)
    let slot := 1 - s.f (R.MGT_IMG_STAT_SLOT r)
    if j.stage = 0 then
      if s.roleState r ≠ 0 ∧ s.roleState r ≠ 2 then s.jobEnd j 3 (refusedRes (BitVec.ofNat 32 (s.roleState r)) 0xFF)
      else
        let due := s.time.real + s.free % (us 10000 + 1)
        ((s.useFree.setRole r 1).setJob { j with stage := 1, acc := due }).at' .real due again
    else if s.time.real < j.acc then s
    else if s.msramHeld then s.fwWait again
    else if j.stage = 1 then
      let role (s : State) (st : Nat) : State := if s.roleState r = 1 then s.setRole r st else s
      let fail (s : State) (k : Nat) : State := (role ((s.mgtErr 0x62 0 k 0).put (R.MGT_IMG_STAT_LAST_REJ r) k) 0).jobEnd j 6 k
      let k := s.imgCheck r (j.opnd 12 4) sigOk b
      if k ≠ 0 then fail s k
      else
        match s.imgCopy r slot b with
        | (s, false) => fail s 8
        | (s, true) =>
          let s := role s 2
          if j.opnd 9 1 = 0 then s.jobEnd j 0 (imgField b 8 4 + slot * 2 ^ 32)
          else
            let due := s.time.real + s.free
            (s.useFree.setJob { j with stage := 2, acc := due }).at' .real due again
    else (s.imgPersist r b).jobEnd j 0 ((s.slotRec r slot).version + slot * 2 ^ 32)))

/-- SQ_FWACT (R463 to R466): it completes when probation ends, or the activation is reverted, abandoned, or leaves the role DOWN. -/
def execSqFwact (i : W32) (s : State) : Host.Outcome State Fault Refusal :=
  let again : Instr := .sqFwact i
  .next (s.sq i 0x11 again (fun s j =>
    let r := j.opnd 8 1
    let version := s.f (R.MGT_IMG_VER_VERSION r)
    if j.stage = 0 then
      if s.roleState r ≠ 2 then s.jobEnd j 3 (refusedRes (BitVec.ofNat 32 (s.roleState r)) 0xFF)
      else (ran s (execMgtActWrite .sec (BitVec.ofNat 32 (r + 2 ^ 31)) s)).sqStage j 1 again
    else
      match SMap.get 0 s.mgt.outcome r with
      | 0 => s.fwWait again
      | 1 => s.jobEnd j 0 version
      | 2 => s.jobEnd j 7 version
      | 3 => s.jobEnd j 8 0
      | _ => s.jobEnd j 5 0))

end Sys2Proof.Machine
end

