-- ==== Sys2Proof/Machine/Boot.lean ====
section
/-! DEFINITION. Start-up from PORST_N to BOOT_DONE, the configuration image, BIST and soft repair, time across dies, the recovery,
the Hallmark and its rounds (chapter "Start-up, configuration image and Hallmark"). -/
namespace Sys2Proof.Machine

/-! The configuration image -/

/-- Is every byte of a range zero? -/
def zeros (b : List Byte) (off n : Nat) : Bool := ((b.drop off).take n).all (fun x => decide (x = 0))

/-- The image area of flash (R573). -/
def State.imageBytes (s : State) : List Byte := s.cells (flash 0) 0x40000

/-- Offset of a section: 0 PACKAGE, 1 DIE, 2 PARTNERS (R574). -/
def secOff (b : List Byte) (i : Nat) : Nat := imgField b (0xA0 + 8 * i) 4

/-- Length of a section. -/
def secLen (b : List Byte) (i : Nat) : Nat := imgField b (0xA4 + 8 * i) 4

/-- Bytes of a section. -/
def secBytes (b : List Byte) (i : Nat) : List Byte := (b.drop (secOff b i)).take (secLen b i)

/-- Check FORMAT on the header (R574): the offset of the first field that fails. -/
def badHeader (b : List Byte) : Option Nat :=
  let ends := (List.range 3).foldl (fun n i => max n (secOff b i + secLen b i)) 0
  ([(0x000, decide (imgField b 0x000 4 = 0x4E394349)), (0x004, decide (imgField b 0x004 2 = 1)), (0x006, zeros b 0x006 2),
    (0x008, decide (imgField b 0x008 4 ≤ 0x3FFA0) && decide (imgField b 0x008 4 = ends)), (0x01C, zeros b 0x01C 4), (0x081, zeros b 0x081 31)] ++
    ((List.range 3).map (fun i => (0xA0 + 8 * i, decide (0x100 ≤ secOff b i) && decide (secOff b i % 4 = 0) && decide (secOff b i + secLen b i ≤ imgField b 0x008 4)))) ++
    [(0x0B8, zeros b 0x0B8 72)]).findSome? (fun (c : Nat × Bool) => if c.2 then none else some c.1)

/-- Offset of a die's map in the PACKAGE section (R576, format M). -/
def mapOff (die : Nat) : Nat := 0x30 + 132 * die

/-- Offset of a die's windows in the PACKAGE section of `y` dies (format W). -/
def winOff (y die : Nat) : Nat := 0x30 + 132 * y + 1024 * die

/-- Is a PACKAGE section of `y` dies well formed? -/
def goodPackage (p : List Byte) (y : Nat) : Bool :=
  decide (p.length = 0x30 + 1156 * y) && decide (imgField p 0 4 < 2 ^ 17) && zeros p 0x2C 4 && zeros p 0x0B 1 && zeros p 0x19 1 && decide (imgField p 0x0A 1 ≤ 5) &&
    decide (imgField p 0x18 1 < 4) &&
    (List.range y).all (fun d => decide (imgField p (mapOff d) 1 ≤ 128) && zeros p (mapOff d + 1) 3) &&
    (List.range (64 * y)).all (fun i =>
      let w := winOff y 0 + 16 * i
      decide (imgField p w 4 < 2 ^ 17) && decide (imgField p (w + 4) 4 < 2 ^ 17) && decide (imgField p (w + 8) 1 < 2) && decide (imgField p (w + 10) 1 < 4) && zeros p (w + 11) 1 && zeros p (w + 14) 2)

/-- Is a DIE section well formed? -/
def goodDie (d : List Byte) : Bool :=
  let r := imgField d 0x28 4
  decide (r ≤ 1024) && decide (d.length = 0x2C + 4 * r) && decide (imgField d 0 1 < 4) && zeros d 5 3 && (List.range 4).all (fun k => decide (imgField d (0x10 + k) 1 < 128)) &&
    zeros d 0x15 3 && (List.range r).all (fun i => zeros d (0x2F + 4 * i) 1)

/-- Is a PARTNERS section well formed? -/
def goodPartners (q : List Byte) : Bool :=
  let n := imgField q 0 4
  decide (n ≤ 64) && decide (q.length = 4 + 64 * n) &&
    (List.range n).all (fun i =>
      let e := 4 + 64 * i
      decide (imgField q e 4 / 2 ^ 9 % 2 ^ 7 = 0) && decide (imgField q (e + 12) 4 < 8))

/-- Check FORMAT on the sections: the offset of the first one that fails. -/
def badSection (b : List Byte) : Option Nat :=
  let good (i : Nat) : Bool := match i with
    | 0 => goodPackage (secBytes b 0) (imgField b 0x01A 1)
    | 1 => goodDie (secBytes b 1)
    | _ => goodPartners (secBytes b 2)
  ((List.range 3).find? (fun i => !good i)).map (fun i => secOff b i % 65536)

/-- Entry `n` of a die's map in format M: the cabinet when it is VALID. -/
def mapEntry (p : List Byte) (die n : Nat) : Option Nat :=
  let v := imgField p (mapOff die + 4 + n) 1
  if 128 ≤ v then some (v % 128) else none

/-- Check GEOMETRY (R577): the logical entry that fails, or 0xFFFF. -/
def State.badGeometry (s : State) (b p : List Byte) : Option Nat :=
  let x := imgField b 0x019 1
  let y := imgField b 0x01A 1
  if x = 0 ∨ s.ties.cols * s.ties.rows < x ∨ y = 0 ∨ 8 < y then some 0xFFFF
  else (List.range x).find? (fun n => match mapEntry p s.die n with
    | none => false
    | some c => !s.synth c || (List.range n).any (fun k => decide (mapEntry p s.die k = some c)))

/-- Check WINDOWS (R389): the number of a VALID window that shares a granule with an earlier one. -/
def badWindow (p : List Byte) (y die : Nat) : Option Nat :=
  let lo (w : Nat) : Nat := imgField p (winOff y die + 16 * w) 4
  let hi (w : Nat) : Nat := imgField p (winOff y die + 16 * w + 4) 4
  let v (w : Nat) : Bool := decide (imgField p (winOff y die + 16 * w + 8) 1 % 2 = 1)
  (List.range 64).find? (fun w => v w && (List.range w).any (fun k => v k && decide (max (lo w) (lo k) ≤ min (hi w) (hi k))))

/-- Check VID (R494): the point whose code is below the one before it. -/
def badVid (p : List Byte) : Option Nat := (List.range 6).find? (fun n => decide (0 < n) && decide (imgField p (4 + n) 1 < imgField p (3 + n) 1))

/-- Does a cabinet lie on the edge of a bridge? (R526) -/
def State.onEdge (s : State) (b c : Nat) : Bool :=
  match b with
  | 0 => decide (c / 16 = 0)
  | 1 => decide (c % 16 + 1 = s.ties.cols)
  | 2 => decide (c / 16 + 1 = s.ties.rows)
  | _ => decide (c % 16 = 0)

/-- Check BRIDGE (R526): the lane that fails. -/
def State.badBridge (s : State) (p d : List Byte) (x : Nat) : Option Nat :=
  let att (l : Nat) : Option Nat := if 128 ≤ imgField d (8 + l) 1 then some (imgField d (8 + l) 1 % 128) else none
  (List.range 8).find? (fun l => match att l with
    | none => false
    | some c => !s.synth c || !(List.range x).any (fun n => decide (mapEntry p s.die n = some c)) || !s.onEdge (l / 2) c || decide (att (l / 2 * 2 + (1 - l % 2)) = some c))

/-- The first check of R577 that fails at step 5, as CAUSE and DETAIL. -/
def State.imageFail (s : State) (b : List Byte) (sigOk : Bool) : Option (Nat × Nat) :=
  let p := secBytes b 0
  let y := imgField b 0x01A 1
  let lv := imgField b 0x01B 1
  [(badHeader b).map (fun d => (2, d)), (badSection b).map (fun d => (2, d)),
    if sha ((b.drop 0x020).take 97) ≠ Config.rootKeyHash then some (3, 0) else none,
    if sigOk then none else some (4, 0),
    if (s.reg R.IDV_VERSION).toNat < imgField b 0x00C 4 then some (5, 0) else none,
    if imgField b 0x018 1 = s.die ∧ s.die < y then none else some (6, s.die),
    (s.badGeometry b p).map (fun d => (7, d)),
    if lv < 8 ∧ s.f R.LCT_SUPPORTED_LEVELS / 2 ^ lv % 2 = 1 then none else some (8, lv),
    (badWindow p y s.die).map (fun d => (9, d)),
    if imgField p 0 4 = 0x40 + 100 * 256 then none else some (10, 0),
    (badVid p).map (fun d => (11, d)),
    (s.badBridge p (secBytes b 1) (imgField b 0x019 1)).map (fun d => (12, d))].findSome? id

/-! Loading -/

/-- What step 5 loads (R570): identity, sizes, power limits, the boot point; its VID code is driven. -/
def State.loadLimits (s : State) (b : List Byte) : State :=
  let p := secBytes b 0
  let at' (k n : Nat) : Nat := imgField p (4 + k) n
  let x := imgField b 0x019 1
  let y := imgField b 0x01A 1
  let s := (s.setPair R.IDV_SERIAL_LO R.IDV_SERIAL_HI (imgField b 0x010 8)).puts [(R.IDV_CONF_CAB_PER_DIE, x), (R.IDV_CONF_DIES, y), (R.IDV_CONF_NUM_CAB, x * y)]
  let s := (List.range 6).foldl (fun s n => s.put (R.PWR_OP_VID n) (at' n 1)) s
  let s := s.puts [(R.PWR_LEAVE_BUDGET_UNITS, at' 8 2), (R.PWR_EST_CFG_LIMIT, at' 10 2), (R.PWR_EST_CFG_HYST, at' 12 2), (R.PWR_EST_W_E_BANK, at' 14 2), (R.PWR_EST_W_E_FLIT, at' 16 2),
    (R.PWR_VID_CFG_TIMEOUT, max 1 (at' 18 2)), (R.PWR_OP_STAT_CUR, at' 6 1)]
  let s := s.clampCfg (BitVec.ofNat 32 (s.f R.PWR_CLAMP_CFG_N + s.f R.PWR_CLAMP_CFG_M * 64 + at' 20 1 % 4 * 8192 + at' 22 2 * 65536))
  let s := (s.nativeAt (at' 6 1)).vidDrive (at' 6 1)
  { s with boot := { s.boot with img := [secBytes b 0, secBytes b 1, secBytes b 2], minVer := (List.range 4).map (fun r => imgField p (0x1C + 4 * r) 4), vid := false } }

/-- Cabinets that the image maps on this die, in ascending number (R579). -/
def State.imageCabs (s : State) : List Nat :=
  (List.range 128).filter (fun c => (List.range (s.f R.IDV_CONF_CAB_PER_DIE)).any (fun n => decide (mapEntry (s.section' 0) s.die n = some c)))

/-- Step 7 fills G0 with the image's map and leaves it current; LOG is X (R37). -/
def State.loadMap (s : State) : State :=
  let p := s.section' 0
  let s := (List.range 128).foldl (fun s n =>
    let v := imgField p (mapOff s.die + 4 + n) 1
    s.setMap 0 n (v % 128) (decide (128 ≤ v))) s
  (s.puts [(R.IDV_CMAP_CTL_G0_LOG, s.f R.IDV_CONF_CAB_PER_DIE), (R.IDV_CMAP_CTL_CUR, 0)]).mapMoved

/-- Step 7 loads the window partition table (R388, R576 format W). -/
def State.loadWindows (s : State) : State :=
  let p := s.section' 0
  (List.range 64).foldl (fun s w =>
    let at' (k n : Nat) : Nat := imgField p (winOff s.dies s.die + 16 * w + k) n
    s.puts [(R.WIN_PART_A_BASE w, at' 0 4), (R.WIN_PART_B_LIMIT w, at' 4 4), (R.WIN_PART_B_VALID w, at' 8 1), (R.WIN_PART_C_PERM w, at' 9 1),
      (R.WIN_PART_C_RESIDENT w, at' 10 1 % 2), (R.WIN_PART_C_KEEP_ON_KILL w, at' 10 1 / 2), (R.WIN_PART_C_BIND_MASK w, at' 12 2)]) s

/-- A field of which 0 is not stored: a write of 0 stores 1. -/
def State.minOne (s : State) (f : Fld) : State := if s.f f = 0 then s.put f 1 else s

/-- Step 7 loads the partner table; SEC writes KEY_GO for each entry (R576). -/
def State.loadPartners (s : State) : State :=
  let q := s.section' 2
  (List.range (imgField q 0 4)).foldl (fun s p =>
    let at' (k : Nat) : W32 := BitVec.ofNat 32 (imgField q (4 + 64 * p + k) 4)
    let s := s.setRegs [R.EDG_PT_CFG p, R.EDG_PT_ID_LO p, R.EDG_PT_ID_HI p, R.EDG_PT_DIE p, R.EDG_PT_RATE p, R.EDG_PT_TIME p, R.EDG_PT_WMASK_LO p, R.EDG_PT_WMASK_HI p]
      ((List.range 8).map (fun j => at' (4 * j)))
    let s := ((s.minOne (R.EDG_PT_CFG_RD_MAX p)).minOne (R.EDG_PT_TIME_TIMEOUT p)).minOne (R.EDG_PT_TIME_QWIN p)
    let s := (List.range 8).foldl (fun s j => s.setReg (R.EDG_PT_KEY p j) (at' (32 + 4 * j))) s
    s.keyGo p) s

/-- The routes SEC writes (R525, R537): a die stands at column d mod 4 and row d / 4 of the package; the column is corrected first,
unless the bridge for it does not exist. A route is a bridge, or 4 for this die. -/
def dieRoute (dies me d : Nat) : Nat :=
  let col := if me % 4 < d % 4 then 1 else 3
  if d = me then 4 else if me % 4 ≠ d % 4 ∧ bridgeThere dies me col = true then col else if me < d then 2 else 0

/-- Step 7 writes DROUTE: for each die of the package three bits, BR in [1:0] and V (R537). -/
def State.loadRoutes (s : State) : State :=
  let w := (List.range s.dies).foldl (fun n d => if d = s.die then n else n + (dieRoute s.dies s.die d + 4) * 2 ^ (3 * d)) 0
  s.setReg R.BRG_DROUTE (BitVec.ofNat 32 w)

/-- The registers that step 7 loads from the DIE section, and the lanes it trains (R250, R544, R570). -/
def State.loadDie (s : State) (level : Nat) : State :=
  let d := s.section' 1
  let s := (((s.loadMap.loadWindows.setReg R.IDV_FENCE_CFG (BitVec.ofNat 32 (imgField d 0 4))).minOne R.IDV_FENCE_CFG_UE_LIMIT).minOne R.IDV_FENCE_CFG_UE_WINDOW).ueArm
  let s := s.puts [(R.LCT_LEVEL_LEVEL, level), (R.IDV_STN_POLL_PERIOD, max 1 (imgField d 4 1)), (R.CLK_CFG_DROOP_THR, imgField d 0x14 1)]
  let s := s.setReg R.CMX_HRP_APER (BitVec.ofNat 32 (imgField (s.section' 0) 0 4))
  let s := (List.range 8).foldl (fun s l => s.setReg (R.BRG_ATT l) (BitVec.ofNat 32 (imgField d (8 + l) 1))) s
  let s := (List.range 4).foldl (fun s k => s.put (R.EDG_CTL_HOME k) (imgField d (0x10 + k) 1)) s
  let s := s.loadPartners.detAll.loadRoutes
  (List.range 8).foldl (fun s l => if s.laneBuilt l then ran s (execLaneTrain .sec (Fin.ofNat 8 l) s) else s) s

/-! Steps -/

/-- The next action of start-up falls due at a moment of its own within `bound` ns. -/
def State.bootNext (s : State) (stage bound : Nat) : State :=
  let due := s.time.real + s.free % (ns bound + 1)
  ({ s with boot := { s.boot with stage := stage, due := due } }.useFree).at' .real due (.powerOnReset s.boot.sfdp s.boot.sig)

/-- STEP (R570). -/
def State.bootStep (s : State) (n : Nat) : State := s.put R.HLM_BOOT_STAT_STEP n

/-- Start-up stops (R577): HINT[3] rises with no entry on the event ring. -/
def State.bootStop (s : State) (cause detail : Nat) : State :=
  ({ s with boot := { s.boot with stage := 99 } }).puts [(R.HLM_BOOT_STAT_STOPPED, 1), (R.HLM_BOOT_STAT_CAUSE, cause), (R.HLM_BOOT_STAT_DETAIL, detail)] |>.hintSet 1

/-- Step 3 (R570): every core is released in the kernel. -/
def State.bootCores (s : State) : State :=
  let gone := (List.range 11).filter (fun m => !s.coreExists m)
  let s := { s with masked := s.masked.filter (fun m => decide (11 ≤ m)) ++ gone }
  let s := (List.range 11).foldl (fun s m => s.put (R.MGT_REMAP_REMAP m) 0) (s.put R.MGT_MODE_MODE 0)
  s.cores.foldl (fun s m => s.unmaskCore m) s

/-- The clocks run at BOOT_OP; what happens at multiples of fabric time begins (R197, R502, R570). -/
def State.bootClocks (s : State) : State :=
  let s := (s.generators true).bootStep 5
  let s := (s.cabs.foldl (fun s p => s.dripArm p) s).arm .fab (us 1 - s.time.now % us 1) .powerEstimate
  s

/-- Cabinets of a BIST stage. -/
def State.bistCabs (s : State) (k : Nat) : List Nat := (s.boot.cabs.drop (8 * k)).take 8

/-- A BIST stage asks for leave, if there is such a stage (R579). -/
def State.bistAsk (s : State) (k : Nat) : State := if (s.bistCabs k).isEmpty then s else s.leaveAsk (.bist k) (20 * (s.bistCabs k).length)

/-- Step 6 begins. -/
def State.bistBegin (s : State) : State :=
  let s := { s with boot := { s.boot with stage := 6, cabs := s.imageCabs, bist := 0, fences := [] } }
  if s.boot.cabs.isEmpty then s.bootStop 13 0 else s.bistAsk 0

/-- SEC reads registers of die 0 by the sideband (R415, R581). -/
def State.askDie0 (s : State) (k : Nat) : State :=
  let key := [R.IDV_SERIAL_LO, R.IDV_SERIAL_HI, R.TIM_NOW_LO, R.TIM_NOW_HI].getD k 0
  ({ s with boot := { s.boot with stage := 71 + k } }).side 0 (.ctlRead s.die 0 (BitVec.ofNat 32 (0x7F * 2 ^ 22 + key % 2 ^ 22)))

/-- Has every built lane of the route to die 0 come up? -/
def State.routeUp (s : State) : Bool :=
  match s.bridgeTo 0 with
  | none => false
  | some b =>
    let built := [2 * b, 2 * b + 1].filter s.laneBuilt
    !built.isEmpty && built.all s.laneUp

/-- Is any lane still in training? -/
def State.lanesBusy (s : State) : Bool := (List.range 8).any (fun l => decide (s.laneState l = 1) || s.bit (R.BRG_STAT_LEAVE_WAIT l))

/-- Look again at a moment of its own. -/
def State.bootPoll (s : State) : State := s.fwWait (.powerOnReset s.boot.sfdp s.boot.sig)

/-- Step 7 is complete: SEC goes on to BOOT_LOCK one management cycle later. -/
def State.step7 (s : State) : State :=
  let due := s.time.real + ns 1
  ({ s with boot := { s.boot with stage := 8, due := due } }.bootStep 7).at' .real due (.powerOnReset s.boot.sfdp s.boot.sig)

/-- The waits of R581: lanes in training, a path to die 0 for up to 100 ms; then its SERIAL and its time. -/
def State.timeStep (s : State) : State :=
  if s.boot.limit ≤ s.time.real then s.step7
  else if s.lanesBusy then s.bootPoll
  else if s.die = 0 then s.step7
  else if s.routeUp then ({ s with boot := { s.boot with got := [] } }.askDie0 0).bootPoll
  else s.bootPoll

/-- The answer of die 0 that SEC waits for: its word, none for a refusal. -/
def State.answer0 (s : State) : Option (Sideband × Option W32) :=
  s.brg.inbox.findSome? (fun i => match i with
    | .ctlAns _ 0 v .ok => some (i, some v)
    | .ctlAns _ 0 _ _ => some (i, none)
    | .ctlAns _ _ _ _ | .ctlRead _ _ _ | .opTarget _ | .opBack _ | .opReport _ _ | .estimate _ _ _ | .round _ _ => none)

/-- An answer of die 0 (R581, R577 cause 15): when all four words are there, SERIAL is compared and fabric time is loaded. -/
def State.take0 (s : State) : State :=
  match s.answer0 with
  | none => if s.boot.limit ≤ s.time.real then s.step7 else if s.routeUp then s.bootPoll else ({ s with boot := { s.boot with stage := 70 } }).bootPoll
  | some (i, v) =>
    let s := { s with brg := { s.brg with inbox := s.brg.inbox.filter (fun x => !decide (x = i)) } }
    match v with
    | none => ({ s with boot := { s.boot with stage := 70 } }).bootPoll
    | some v =>
      let got := s.boot.got ++ [v]
      let s := { s with boot := { s.boot with got := got } }
      if got.length < 4 then (s.askDie0 got.length).bootPoll
      else
        let w (k : Nat) : W32 := got.getD k 0
        if w 0 ≠ s.reg R.IDV_SERIAL_LO ∨ w 1 ≠ s.reg R.IDV_SERIAL_HI then s.bootStop 15 ((w 0).toNat % 65536)
        else (((s.setReg R.TIM_SET_LO (w 2)).setReg R.TIM_SET_HI (w 3)).setNow ((w 2).toNat + (w 3).toNat * 2 ^ 32)).beaconWatch.step7

/-! Firmware -/

/-- A firmware area of flash as a staged image. -/
def State.fwBytes (s : State) (r a : Nat) : List Byte := s.cells (flash (fwArea r a)) 0x10000

/-- Does an area pass the checks of R462 codes 1 to 7? -/
def State.fwGood (s : State) (r a : Nat) : Bool :=
  let b := s.fwBytes r a
  let len := 0x160 + imgField b 0x00C 4
  decide (s.imgCheck r len (sigGood (b.take len)) b = 0)

/-- The areas that a role may boot from, the greater VERSION first (R583). -/
def State.fwOrder (s : State) (r : Nat) : List Nat :=
  let v (a : Nat) : Nat := imgField (s.fwBytes r a) 8 4
  (if v 0 < v 1 then [1, 0] else [0, 1]).filter (s.fwGood r)

/-- Load a role into slot A (R583): the first area whose copy passes code 8; none if there is none. -/
def State.loadRole (s : State) (r : Nat) : Option State :=
  (s.fwOrder r).findSome? (fun a => match s.imgCopy r 0 (s.fwBytes r a) with
    | (t, true) => some ({ t with boot := { t.boot with areas := SMap.set 0 t.boot.areas r a } }.showSlot r 0)
    | (_, false) => none)

/-- The kernel loads the firmware of every role; the first role without an area that verifies. -/
def State.loadRoles (s : State) : State × Option Nat :=
  (List.range 4).foldl (fun (x : State × Option Nat) r => match x.1.loadRole r with
    | some t => (t, x.2)
    | none => (x.1, if x.2.isSome then x.2 else some r)) (s, none)

/-- The restart unit starts every core on slot A of its role, in ascending order (R584). -/
def State.splitRoles (s : State) : State :=
  ({ s with mgt := { s.mgt with seqs := [({ kind := .split, role := 0, todo := s.cores, cur := none } : CoreSeq)] } }).seqsGo

/-- Step 10 (R570): MSRAM is clear from offset 0x6_0000 upward, and every watchdog runs. -/
def State.clearRings (s : State) : State :=
  let s := { s with mem := s.mem.filter (fun c => decide (c.1 < msram 0x60000) || decide (msram 0x100000 ≤ c.1)) }
  s.cores.foldl (fun s m => (({ s with mgt := { s.mgt with kicks := SMap.insert s.mgt.kicks m s.time.now } }).put (R.MGT_WDT_CFG_EN m) 1).arm .wall 1 (.watchdogExpiry (Fin.ofNat 11 m))) s

/-- Step 12: PWC wakes the cabinets of the image's wake mask, in ascending order (R477). -/
def State.wakeAll (s : State) : State :=
  let mask := imgField (s.section' 1) 0x18 16
  let cabs := s.cabs.filter (fun p => decide (mask / 2 ^ p % 2 = 1))
  cabs.foldl (fun s p => ran s (execCabCmdRun .pwc (Fin.ofNat 128 p) s)) { s with boot := { s.boot with wake := cabs } }

/-- DETAIL of BOOT_DONE (R591): SERIAL, die, logical count of the current generation, cabinets fenced by BIST. -/
def State.doneDetail (s : State) : Nat := s.pair R.IDV_SERIAL_LO R.IDV_SERIAL_HI + s.die * 2 ^ 64 + s.genLog s.cur * 2 ^ 72 + s.f R.HLM_BIST_STAT_FENCED * 2 ^ 80

/-- Step 13 (R570, R571): BOOT_DONE is the first event; SCH serves a doorbell latched before. -/
def State.bootDone (s : State) : State :=
  let s := s.bootStep 13
  let s := { s with events := (0, 0x30, s.doneDetail) :: s.events, boot := { s.boot with stage := 90 }, mgt := { s.mgt with bell := true } }
  s.cores.foldl (fun s m => (s.arm .real (ns 1) (.eventPost (Fin.ofNat 11 m))).arm .real (ns 1) (.completionPost (Fin.ofNat 11 m))) (s.arm .real (ns 1) .submissionTake)

/-- The action of start-up that falls due (R570): each ends a step or begins the next. -/
def State.bootGo (s : State) : State :=
  match s.boot.stage with
  | 3 => (s.bootCores.bootStep 3).bootNext 4 3200000
  | 4 => if s.boot.sfdp then (s.bootStep 4).bootNext 40 2600000 else s.bootStop 1 0
  | 40 =>
    let b := s.imageBytes
    match s.imageFail b s.boot.sig with
    | some (c, d) => s.bootStop c d
    | none =>
      let s := s.loadLimits b
      let due := s.time.real + us (s.f R.PWR_VID_CFG_TIMEOUT)
      ({ s with boot := { s.boot with stage := 5, due := due } }).at' .real due (.powerOnReset s.boot.sfdp s.boot.sig)
  | 5 => if s.boot.vid then s.bootNext 50 4000 else s.bootStop 16 0
  | 50 => s.bootClocks.bistBegin
  | 7 =>
    let s := s.loadDie (imgField s.imageBytes 0x01B 1)
    if s.dies = 1 then (s.put R.HLM_HLM_STAT_SYNCED 1).step7
    else ({ s with boot := { s.boot with stage := 70, limit := s.time.real + us 100000 } }).bootPoll
  | 70 => s.timeStep
  | 71 => s.take0
  | 72 => s.take0
  | 73 => s.take0
  | 74 => s.take0
  | 8 =>
    let s := { s with rep := { s.rep with startSet := s.genSet 0 } }
    ((s.put R.HLM_BOOT_CTL_BOOT_LOCK 1).bootStep 8).bootNext 9 11000000
  | 9 =>
    if s.msramHeld then s.bootPoll
    else
    match s.loadRoles with
    | (s, some r) => s.bootStop 14 r
    | (s, none) => (s.bootStep 9).bootNext 10 200000
  | 10 => if s.msramHeld then s.bootPoll else ({ (s.clearRings.bootStep 10) with boot := { s.boot with stage := 11 } }).splitRoles
  | 11 =>
    if s.mgt.seqs.any (fun q => decide (q.kind = SeqKind.split)) then s
    else
      let s := ((s.bootStep 11).setReg (R.SYN_DUMP_BASE 0) 0x00089000).wakeAll
      ({ s with boot := { s.boot with stage := 12 } }).bootPoll
  | 12 => if s.boot.wake.any (fun p => s.bit (cabBusy p)) then s.bootPoll else (s.bootStep 12).bootNext 13 100000
  | 13 => s.bootDone
  | _ => s

/-- POWER_ON_RESET (R569, R570, R606): the rise of PORST_N; a THERM_TRIP_N that is low then
trips (R503). Presented again by the model itself, the next action of start-up when it is due. The operands are what the flash and the signature check will turn out to be. -/
def execPowerOnReset (sfdpOk sigOk : Bool) (s : State) : Host.Outcome State Fault Refusal :=
  .next (if s.boot.stage = 0 then
    let late := s.pwr.rtc.hidden
    let s := { s with boot := { s.boot with sfdp := sfdpOk, sig := sigOk }, pwr := { s.pwr with rtc := { s.pwr.rtc with hidden := false } }, time := { s.time with now := 0, slow := 0, ao := 0, part := 0 } }
    let s := ((s.bootStep 2).bootNext 3 20000).arm .fab (us 1000) .hallmarkRound
    let s := if late then ran s (execRtcAlarmRise s) else s
    if s.pwr.therm.high then s
    else
      let s := { s with pwr := { s.pwr with therm := { s.pwr.therm with high := true } } }
      ran s (execThermTrip s)
  else if s.time.real < s.boot.due ∧ !(decide (s.boot.stage = 5) && s.boot.vid) then s
  else s.bootGo)

/-! BIST -/

/-- Put a number into an ascending list without repeats. -/
def insertNum (n : Nat) : List Nat → List Nat
  | [] => [n]
  | x :: xs => if n = x then x :: xs else if n < x then n :: x :: xs else x :: insertNum n xs

/-- Rows of failing cells given as (row, macro), leaving out some macros. -/
def failRows (l : List (Nat × Nat)) (out : List Nat) : List Nat := l.foldl (fun rs e => if out.contains e.2 then rs else insertNum e.1 rs) []

/-- The macro whose removal leaves fewest rows, the lowest such (R580); `out` are macros removed already. -/
def bistMac (l : List (Nat × Nat)) (out : List Nat) : Nat :=
  let left (m : Nat) : Nat := (failRows l (m :: out)).length
  match (List.range 18).filter (fun m => !out.contains m) with
  | [] => 0
  | m0 :: ms => ms.foldl (fun best m => if left m < left best then m else best) m0

/-- Remap rows of a bank: the lowest free spares, SRC 1 (R580). -/
def State.bistRemap (s : State) (p b : Nat) (rows : List Nat) : State :=
  rows.foldl (fun s row => match s.freeSpare p b with
    | some i => (s.setEntry p b i row 1 false).inc R.HLM_BIST_STAT_REMAPS
    | none => s) s

/-- Count a cabinet that BIST fences. -/
def State.bistFence (s : State) (p : Nat) : State :=
  if s.boot.fences.contains p then s else ({ s with boot := { s.boot with fences := s.boot.fences ++ [p] } }).inc R.HLM_BIST_STAT_FENCED

/-- The procedure of R580 for one bank. -/
def State.bistBank (s : State) (p b : Nat) (l : List (Nat × Nat)) : State :=
  let f := failRows l []
  if f.length ≤ 8 then s.bistRemap p b f
  else
    let m := bistMac l []
    let s := (s.retire1 p b m 28 false).inc R.HLM_BIST_STAT_RETIRED
    let f1 := failRows l [m]
    if f1.length ≤ 8 then s.bistRemap p b f1
    else (s.retire2 p b (bistMac l [m]) 28).bistFence p

/-- The procedure of R580 for one cabinet. -/
def State.bistCab (s : State) (x : BistCab) : State :=
  let p := x.cab.val
  if x.validBad || x.spareBad then
    ((s.fenceCause p 4).bistFence p).err { kind := 0x79, req := 28, cab := none, data := 0x80000 + p + (if x.validBad then 1 else 2) * 256 }
  else (List.range 32).foldl (fun s b => s.bistBank p b ((x.fails.filter (fun e => decide (e.1.val = b))).map (fun e => (e.2.1.val, e.2.2.val)))) s

/-- SEC's ADD for the image's remap entries of a cabinet: SRC 0; one that R241 refuses leaves its row (R241, R580). -/
def State.imageRemaps (s : State) (p : Nat) : State :=
  let d := s.section' 1
  (List.range (imgField d 0x28 4)).foldl (fun s i =>
    let e := imgField d (0x2C + 4 * i) 4
    let b := e / 2 ^ 12 % 32
    let refuse (s : State) (k : Nat) : State := s.puts [(R.RMP_ADD_STAT_REJ p, 1), (R.RMP_ADD_STAT_REJ_CAUSE p, k)]
    if e / 2 ^ 17 % 128 ≠ p then s
    else
      let s := s.puts [(R.RMP_ADD_ROW p, e % 4096), (R.RMP_ADD_BANK p, b)]
      match s.freeSpare p b with
      | some k =>
        if (s.remapOf p b (e % 4096)).isSome then refuse s 2
        else (s.setEntry p b k (e % 4096) 0 false).puts [(R.RMP_ADD_STAT_DONE p, 1), (R.RMP_ADD_STAT_POISONED p, 0)]
      | none => refuse s 1) s

/-- BIST_STAGE_END (R579, R580): the findings of the stage under test; its cabinets return to Quench and its leave is returned. -/
def execBistStageEnd (found : List BistCab) (s : State) : Host.Outcome State Fault Refusal :=
  let k := s.boot.bist
  .next (if s.boot.stage ≠ 6 ∨ s.leaveHas (.bist k) = false then s
  else
    let cabs := s.bistCabs k
    let s := cabs.foldl (fun s p => match found.find? (fun x => decide (x.cab.val = p)) with
      | some x => s.bistCab x
      | none => s) s
    let s := cabs.foldl (fun s p => if s.boot.fences.contains p then s else s.imageRemaps p) s
    let s := (cabs.foldl (fun s p => s.loseStore p) s).leaveBack (.bist k)
    let s := { s with boot := { s.boot with bist := k + 1 } }
    if !(s.bistCabs (k + 1)).isEmpty then s.bistAsk (k + 2)
    else if s.boot.cabs.all (fun p => s.boot.fences.contains p) then s.bootStop 13 0
    else (s.bootStep 6).bootNext 7 50000)

/-! BOOT_CTL -/

/-- STIME_SYNC (R582): die 0 sends a start mark unless one of its contexts is BOUND. -/
def State.startMark (s : State) : State :=
  if s.die ≠ 0 ∨ (List.range 16).any (fun c => decide (s.ctxState c = 2)) = true then s
  else ({ s with boot := { s.boot with mark := some s.time.stime } }.send (.startMark s.time.stime 1)).put R.HLM_HLM_STAT_SYNCED 1

/-- A write of HLM.BOOT_CTL (R585, R592, R593). -/
def State.bootCtl (s : State) (m : Master) (v : W32) : State :=
  let due := s.time.real
  if m != .sec then s.locked (masterReq m) (s.ca R.HLM_BOOT_CTL)
  else
  let s :=
    if !vbit v 0 then s
    else if s.f R.HLM_BOOT_STAT_STEP = 7 then
      let s := { s with rep := { s.rep with startSet := s.genSet 0 }, boot := { s.boot with stage := 8, due := due } }
      (s.put R.HLM_BOOT_CTL_BOOT_LOCK 1).later .real 0 (.powerOnReset s.boot.sfdp s.boot.sig)
    else s.locked (masterReq m) (s.ca R.HLM_BOOT_CTL)
  if vbit v 1 then s.startMark else s

/-- BOOT_LOCK (R585). -/
def execBootLock (m : Master) (v : W32) (s : State) : Host.Outcome State Fault Refusal := .next (s.row m (.bootLock m v) (fun s => s.bootCtl m (v ||| 1)))

/-- STIME_SYNC (R582). -/
def execStimeSync (m : Master) (v : W32) (s : State) : Host.Outcome State Fault Refusal := .next (s.row m (.stimeSync m v) (fun s => s.bootCtl m (v ||| 2)))

/-- START_MARK_RECEIVE (R582, R589): a die with a BOUND context ignores it; a mark is loaded and forwarded
once, and its copies, which carry the same schedule time, are not. -/
def execStartMarkReceive (lane : Fin 8) (v : W64) (h : Fin 8) (s : State) : Host.Outcome State Fault Refusal :=
  .next (if s.boot.mark = some v.toNat ∨ (List.range 16).any (fun c => decide (s.ctxState c = 2)) = true then s
  else
    let s := { s with boot := { s.boot with mark := some v.toNat }, time := { s.time with stime := v.toNat + 44 * h.val } }
    (s.send (.startMark v.toNat (h.val + 1)) none (some lane.val)).put R.HLM_HLM_STAT_SYNCED 1)

/-! Recovery -/

/-- A recovery begins (R466): all cores are masked, FAILS and DOWN clear, what had not taken effect completes with ABORTED; the cores then run the
kernel, which loads the images at a moment of its own that leaves the split, with two attempts of 2 ms for each core, its time within the
50 ms. -/
def State.recoverBegin (s : State) : State :=
  let s := s.cores.foldl (fun s m => (s.maskCore m).puts [(R.MGT_REMAP_REMAP m, 0), (R.MGT_WDT_STAT_FAILS m, 0), (R.MGT_WDT_STAT_DOWN m, 0)]) (s.puts [(R.MGT_MODE_MODE, 0), (R.MGT_MODE_RECOVERING, 1)])
  let s := s.cores.foldl (fun s m => s.unmaskCore m) s
  let s := (List.range 4).foldl (fun s r => if 3 ≤ s.roleState r ∧ s.roleState r ≤ 5 then s.setOutcome r 3 else s) s
  let early (j : Job) : Bool := decide (j.stage = 0) || (decide (j.op = 0x10) && decide (j.stage = 1))
  let due := s.time.real + s.free % (us (50000 - 4000 * s.cores.length) + 1)
  let s := { s.useFree with mgt := { s.mgt with restarts := [], seqs := [], prob := [], recover := 2, recoverAt := due } }
  ((s.mgt.jobs.filter early).foldl (fun s j => s.jobEnd j 8 0) s).at' .real due .recoveryStart

/-- RECOVERY_START (R464, R466): a request waits until no emergency has been flagged for 100 µs; the kernel reloads every role and
splits the roles. An area that does not verify leaves slot A as it is. -/
def execRecoveryStart (s : State) : Host.Outcome State Fault Refusal :=
  .next (match s.mgt.recover with
  | 1 => if s.calm && s.bit R.MGT_MODE_MODE && !s.mgt.seqs.any (fun q => decide (q.kind = SeqKind.split)) then s.recoverBegin else s
  | 2 =>
    if s.time.real < s.mgt.recoverAt then s
    else if s.msramHeld then s.fwWait .recoveryStart
    else
      let s := s.loadRoles.1
      ({ s with mgt := { s.mgt with recover := 3 } }).splitRoles
  | _ => s)

/-! The Hallmark -/

/-- HALLMARK_COMPUTATION_END (R586, R587). -/
def execHallmarkComputationEnd (s : State) : Host.Outcome State Fault Refusal :=
  .next (if s.boot.hallAt.any (fun t => decide (t ≤ s.time.real)) then
    let r := s.boot.hallRec
    let d := sha r
    let s := (List.range 12).foldl (fun s j => s.setReg (R.HLM_HASH j) (BitVec.ofNat 32 (d / 2 ^ (32 * j)))) { s with boot := { s.boot with hallAt := none, hallRec := [] } }
    s.puts [(R.HLM_REC_LEN_LEN, r.length), (R.HLM_HLM_STAT_CHANGING, 0), (R.HLM_HLM_STAT_VALID, 1)]
  else s)

/-- Is there a Hallmark to show? -/
def State.hallReady (s : State) : Bool := s.bit R.HLM_HLM_STAT_VALID && !s.bit R.HLM_HLM_STAT_CHANGING

/-- MISMATCH or MISSING of a die. -/
def hallBit (base e : Nat) : Fld := bitFld R.HLM_HLM_STAT (base + e)

/-- HALLMARK_ROUND (R588): at each 1 ms instant; MISSING follows from what has arrived since the last one. -/
def execHallmarkRound (s : State) : Host.Outcome State Fault Refusal :=
  let n := s.time.now / us 1000
  .next (
    let s := s.arm .fab (us (1000 * (n + 1)) - s.time.now) .hallmarkRound
    if n = 0 ∨ s.boot.roundAt = n ∨ s.dies = 0 then s
    else
      let others := (List.range s.dies).filter (fun e => decide (e ≠ s.die))
      let s := if s.boot.roundAt = 0 then s else others.foldl (fun s e => s.putb (hallBit 16 e) (!s.boot.heard.contains e)) s
      let s := { s with boot := { s.boot with heard := [], roundAt := n } }
      if !s.bit R.HLM_CFG_ROUND_EN then s
      else
        let mark := if s.hallReady then some ((List.range 12).map (fun j => s.reg (R.HLM_HASH j))) else none
        (others.foldl (fun s e => s.side e (.round s.die mark)) s).inc R.HLM_ROUNDS_COUNT)

/-- A change of a MISMATCH bit is an event of SEC's (R588, R591). -/
def State.hallEvent (s : State) (e : Nat) (b : Bool) : State := (s.putb (hallBit 8 e) b).event 0 0x31 (e + (if b then 256 else 0))

/-- ROUND_MESSAGE (R588): `differ` keeps the last round in which a die's Hallmark differed, so that the next one sets the bit. -/
def execRoundMessage (_ : Fin 8) (die : Fin 8) (mark : Option (List W32)) (s : State) : Host.Outcome State Fault Refusal :=
  let e := die.val
  .next (if e = s.die then s
  else
    let s := { s with boot := { s.boot with heard := insertNum e s.boot.heard } }.put (hallBit 16 e) 0
    match mark with
    | none => s
    | some h =>
      let s := (List.range 12).foldl (fun s j => s.setReg (R.HLM_PEER e j) (h.getD j 0)) s
      if !s.hallReady then s
      else if (List.range 12).all (fun j => decide (h.getD j 0 = s.reg (R.HLM_HASH j))) then
        let s := { s with boot := { s.boot with differ := SMap.set 0 s.boot.differ e 0 } }
        if s.bit (hallBit 8 e) then s.hallEvent e false else s
      else
        let second := SMap.get 0 s.boot.differ e + 1 = s.boot.roundAt ∧ 1 < s.boot.roundAt
        let s := { s with boot := { s.boot with differ := SMap.set 0 s.boot.differ e s.boot.roundAt } }
        if second ∧ s.bit (hallBit 8 e) = false then (s.hallEvent e true).err { kind := 0x78, req := 28, cab := none, data := 0x80000 + e } else s)

/-! PORST_N -/

/-- PORST_FALL (R569, R589, R606): the die is in reset. What is not its state stays: ties, pins, flash; nothing clears MSRAM before
start-up does; an open debug session stays open. -/
def execPorstFall (s : State) : Host.Outcome State Fault Refusal :=
  let t := State.resetWith s.ties
  let t := { t with
    pending := s.pending
    freeCtr := s.freeCtr
    mem := s.mem.filter (fun c => decide (msram 0 ≤ c.1))
    frz := { t.frz with reqNew := if s.frz.pin then [(0, true)] else [] }
    pwr := { t.pwr with rtc := { high := false, ackAt := none, hidden := s.pwr.rtc.high || s.pwr.rtc.hidden }, therm := { high := s.pwr.therm.high, ackAt := none, hidden := false } }
    test := s.test }
  let t := if s.frz.pin then t.later .wall 1 (.freezeStart .licensee) else t
  let t := s.present.foldl (fun t p => t.setPresent p true) t
  let t := (List.range 4).foldl (fun t k => t.put (R.EDG_STAT_LINK_UP k) (s.f (R.EDG_STAT_LINK_UP k))) t
  .next (t.puts [(R.PWR_VID_CFG_ACK, s.f R.PWR_VID_CFG_ACK), (R.DBG_SESSION_OPEN, s.f R.DBG_SESSION_OPEN)])

end Sys2Proof.Machine
end

