-- ==== Sys2Proof/Machine/Test.lean ====
section
/-! DEFINITION. The host DMA port, the test access port, debug sessions and debug halts (chapter "Integration checklist and block
index"). -/
namespace Sys2Proof.Machine

/-! Host DMA port -/

/-- Are the fast clocks stopped for die sleep? (R486, R489) -/
def State.dieAsleep (s : State) : Bool := decide (s.pwr.sleep = .commit) || decide (s.pwr.sleep = .asleep) || decide (s.pwr.sleep = .waking)

/-- The outstanding requests of the host DMA port. -/
def State.hdpReqs (s : State) : List PortReq := s.loose.ports.filter (fun e => decide (e.cab = 128))

/-- HDP_REQUEST (R125, R126, R598): an accepted request enters the mesh at the home cabinet as class host. -/
def execHdpRequest (we : Bool) (addr : BitVec 26) (be : W64) (data : List W256) (ctx : Ctx) (tag : Fin 64) (s : State) : Host.Outcome State Fault Refusal :=
  let home := s.ties.hdpHome % 128
  .next (if !s.ties.hdp || !s.isPresent .hdp || decide (64 ≤ s.hdpReqs.length) || s.hdpReqs.any (fun e => decide (e.tag = tag.val)) then s
  else
    let q : LReq := { id := s.loose.nextId, req := 9, home := home, homeDie := s.die, org := .hdp tag, cls := .host, ctx := some ctx.val, fa := addr.toNat * 64, we := we, be := (if we then be.toNat else 2 ^ 64 - 1), dat := data, op := .acc }
    let e : PortReq := { cab := 128, port := 0, tag := tag, id := q.id, we := we, fa := q.fa, gate := 0, ans := none }
    let s := { s.fresh with loose := { s.fresh.loose with ports := s.loose.ports ++ [e] } }
    if s.dieAsleep then s.deliver q (noAns .asleep 2)
    else if s.fenced home then s.deliver q (noAns .fault 2)
    else
      match s.target q.cls q.we q.ctx q.fa with
      | .refused => (s.refuse q.req (some home) q.ctx (accAddr q)).deliver q (noAns .fault 2)
      | .violation w k => (s.violate q.req (some home) q.ctx (accAddr q) w k).deliver q (noAns .fault 2)
      | .far d => (if we then s.undrain q.id home q.req else s).launchFar q none home d
      | .at' p =>
        if servedIn false (s.pow p) = false then s.deliver q (noAns .asleep 2)
        else (if we then s.undrain q.id home q.req else s).launch q none home p s.die (s.injLevel home q.req false))

/-- HDP_COMPLETION (R597, R598): one completion is presented on a management cycle; a write shows zero data. -/
def execHdpCompletion (s : State) : Host.Outcome State Fault Refusal :=
  .next (match s.hdpReqs.find? (fun e => e.ans.isSome) with
  | none => s
  | some e =>
    let a := e.ans.getD (noAns .fault 2)
    let s := { s with loose := { s.loose with ports := s.loose.ports.filter (fun x => !decide (x.id = e.id)) } }
    let s := s.present! 1024 { at' := s.time.fc, tag := e.tag, dat := if e.we then [0, 0] else a.dat, zero := a.zero, sb := 0, resp := a.resp }
    if s.hdpReqs.any (fun e => e.ans.isSome) then s.arm .real (ns 1) .hdpCompletion else s)

/-! Debug halt and sessions -/

/-- A write of HALT (R605): the debug halt freeze is requested while it is 1. -/
def State.setHalt (s : State) (b : Bool) : State :=
  let s := s.putb R.DBG_HALT_HALT b
  if b then s.frzRaise .debug else s.frzFall .debug

/-- DEBUG_HALT (R76, R605). -/
def execDebugHalt (m : Master) (v : W32) (s : State) : Host.Outcome State Fault Refusal :=
  .next (s.row m (.debugHalt m v) (fun s => s.gate (m == .dbg) m R.DBG_HALT (fun s => s.setHalt (vbit v 0))))

/-- Is a debug session open? -/
def State.session (s : State) : Bool := s.bit R.DBG_SESSION_OPEN

/-- A session closes (R424, R603, R606): a halt ends, DBG is masked, the outcome of a transfer is discarded. -/
def State.closeSession (s : State) : State :=
  if !s.session then s
  else
    let s := (s.setHalt false).put R.DBG_SESSION_OPEN 0
    ({ s with test := { s.test with busy := false, done := none } }).cmxMask 11

/-- Load the instruction register with a code other than DBG_ACC's (R600, R603). -/
def State.loadIr (s : State) (code captured : Nat) : State :=
  { s.closeSession with test := { s.closeSession.test with ir := code, captured := captured } }

/-- The IDCODE (R601). -/
def State.idcode (s : State) : Nat := 0x34E39001 + s.ties.jep106 % 2048 * 2

/-- Do the segment insertion bits of the IEEE 1687 network take effect? (R602) -/
def State.ijtagOpen (s : State) : Bool := (!s.bit R.MGT_MODE_MODE && decide (s.boot.stage ≠ 6)) || s.bit R.HLM_BOOT_STAT_STOPPED

/-- TAP_IDCODE (R600, R601): also what Test-Logic-Reset loads (R599). -/
def execTapIdcode (s : State) : Host.Outcome State Fault Refusal := .next (s.loadIr 0x01 s.idcode)

/-- TAP_IJTAG (R602): what the instruments hold is not stated; a closed network reads as a single bit of 0. -/
def execTapIjtag (s : State) : Host.Outcome State Fault Refusal :=
  .next (if s.ijtagOpen then s.useFree.loadIr 0x08 s.free else s.loadIr 0x08 0)

/-- TAP_BYPASS (R600): one bit; what it captures is not stated. -/
def execTapBypass (s : State) : Host.Outcome State Fault Refusal := .next (s.useFree.loadIr 0x1F (s.free % 2))

/-- DEBUG_SESSION_OPEN (R490, R603): DBG_ACC is loaded with TRST_N high. -/
def execDebugSessionOpen (s : State) : Host.Outcome State Fault Refusal :=
  .next (if s.session then s
  else
    let s := { s with test := { ir := 0x09, busy := false, done := none, captured := s.test.captured } }
    ((s.put R.DBG_SESSION_OPEN 1).inc R.DBG_SESSION_COUNT).latchWake 5)

/-- DEBUG_SESSION_CLOSE (R599, R603): Test-Logic-Reset or TRST_N low loads IDCODE. -/
def execDebugSessionClose (s : State) : Host.Outcome State Fault Refusal := .next (s.loadIr 0x01 s.idcode)

/-! The debug port -/

/-- DBG_ACC_UPDATE (R604): GO starts one transfer as master 11, unless one is outstanding. -/
def execDbgAccUpdate (write go : Bool) (strobes : Byte) (laddr : W32) (data : W64) (s : State) : Host.Outcome State Fault Refusal :=
  .next (if !s.session || !go || s.test.busy then s
  else ({ s with test := { s.test with busy := true, done := none } }).later .real (ns 1) (.cmxRequest .dbg write laddr strobes data))

/-- DBG_ACC_CAPTURE (R604): RESP, DONE, SESSION, read data; DONE clears. -/
def execDbgAccCapture (s : State) : Host.Outcome State Fault Refusal :=
  .next (if s.test.ir ≠ 0x09 then s
  else
    let c := match s.test.done with
      | some (v, r) => respCode r + 4 + v % 2 ^ 64 * 16
      | none => 0
    { s with test := { s.test with done := none, captured := c + (if s.session then 8 else 0) } })

end Sys2Proof.Machine
end

