-- ==== Sys2Proof/Machine/View.lean ====
section
/-! DEFINITION. What a control read returns (R10 to R16, R46 to R49): decoding a control address, the registers whose value is
computed from state held elsewhere, read-clear fields and the latch of 64-bit pairs. -/
namespace Sys2Proof.Machine

/-! Control addresses -/

/-- Where a control address of this die leads (R46 to R48, R309): the register, and for a register behind the control station of a
cabinet that cabinet. -/
structure CaHit where
  key : Nat
  station : Option Nat
  deriving DecidableEq, Repr

/-- Decode CA[28:0] on this die (R47, R48); none for a decode miss. -/
def State.caDecode (s : State) (ca : Nat) : Option CaHit :=
  let f := ca / 2 ^ 22 % 128
  let blk := ca / 65536 % 64
  let off := ca % 65536 / 4 * 4
  if f = 127 ∧ blk < 32 then
    if (regSpec true blk off).isSome then some { key := dieReg blk off, station := none } else none
  else
    let b := if 32 ≤ blk then blk - 32 else blk
    if s.synth f = true ∧ (regSpec false b off).isSome = true then
      some { key := if b = 3 ∧ 0x4000 ≤ off then cabReg 0 3 off else cabReg f b off, station := some f }
    else none

/-- Block number of a register's key. -/
def keyBlk (k : Nat) : Nat := k / 65536 % 64

/-- Offset of a register's key in its block. -/
def keyOff (k : Nat) : Nat := k % 65536

/-- Cabinet of a register's key; 128 for a die-global block. -/
def keyCab (k : Nat) : Nat := k / 2 ^ 22

/-- The row of the register map that places a key. -/
def keySpec (k : Nat) : Option RegSpec := regSpec (decide (128 ≤ keyCab k)) (keyBlk k) (keyOff k)

/-- The fields of a register. -/
def keyFlds (k : Nat) : List (Nat × Nat × Acc) := ((keySpec k).map (fun r => r.flds)).getD []

/-- Index of an offset in a row of `n` registers from `off` with stride `st`. -/
def rowIdx (off base st n : Nat) : Option Nat :=
  if base ≤ off ∧ (off - base) % st = 0 ∧ (off - base) / st < n then some ((off - base) / st) else none

/-! Computed values -/

/-- 1 for true. -/
def b2n (b : Bool) : Nat := if b then 1 else 0

/-- Bits given by a test of their number, from bit `lo` on. -/
def bitsFrom (lo n : Nat) (f : Nat → Bool) : Nat := (List.range n).foldl (fun v i => v + b2n (f i) * 2 ^ (lo + i)) 0

/-- HINT class of a kind: 1 CE, 2 UE, 3 MGT, 0 none (R204, R460, R511, R561, R590). -/
def hintClass (kind : Nat) : Nat :=
  if kind < 0x60 then hintClassLow kind
  else if kind = 0x70 then 1
  else if kind = 0x64 ∨ kind = 0x71 ∨ kind = 0x79 then 2
  else 3

/-- Does a log of the host driver request an event of this class? (R211, R453) -/
def State.logHint (s : State) (c k : Nat) : Bool :=
  s.bit (R.ERR_LOG_STAT_FIRST_V k) && s.bit (R.ERR_LOG_CTL_OWNER k) && s.bit (R.ERR_LOG_CTL_INT_EN k) && decide (hintClass (s.f { key := R.ERR_FIRST_A k, hi := 7, lo := 0 }) = c)

/-- Is a master of the control matrix masked? (R424) -/
def State.mMasked (s : State) (m : Nat) : Bool :=
  if m = 11 then !s.session else if m = 12 then !s.isPresent .hrp else s.masked.contains m

/-- MGT.HINT_STAT with the requests of the logs (R453, R470). -/
def State.hintStat (s : State) : Nat :=
  (s.reg R.MGT_HINT_STAT).toNat % 8 + bitsFrom 4 4 (s.logHint 1) + bitsFrom 8 4 (s.logHint 2) + bitsFrom 12 4 (s.logHint 3)

/-- The levels of HINT[3:0] (R452). -/
def State.hints (s : State) : Nat :=
  let h := s.hintStat
  let on := b2n (h % 2 = 1) + b2n (h / 16 % 16 != 0) * 2 + b2n (h / 256 % 16 != 0) * 4 + b2n (h / 2 % 4 != 0 || h / 4096 % 16 != 0) * 8
  on &&& s.f R.MGT_HINT_EN_EN

/-- RUN.RNr_STAT (R359). -/
def runStat (x : RunSt) : Nat :=
  let idx := (x.run.map (fun l => l.live.foldl (fun a b => min a b) l.started)).getD 0
  let ctx := (x.run.map (fun l => l.ctx)).getD 0
  runState x + min x.queue.length 4 * 2 ^ 4 + idx % 65536 * 2 ^ 8 + ctx % 16 * 2 ^ 24

/-- HFF.STAT_f (R383). -/
def fifoStat (x : Fifo) : Nat :=
  x.level + b2n (x.stages.head?.any (fun i => i.isSome)) * 32 + b2n x.pushOpen * 64 + b2n x.inPkt * 128 + b2n x.dropping * 256 + x.pend % 65536 * 65536

/-- Is a link of the cabinet in service: a neighbour that is neither absent nor fenced, a lane UP, or one by which the host DMA port or an edge
gateway in service enters at it (R546, R598)? (R163) -/
def State.linked (s : State) (c : Nat) : Bool :=
  (s.ties.hdp && decide (s.ties.hdpHome = c)) || (List.range 4).any (fun k => s.bit (R.EDG_CTL_EN k) && decide (s.f (R.EDG_CTL_HOME k) = c)) ||
  (List.range 4).any (fun d => (hop c d).any (fun n => !s.absent n && !s.fenced n)) || (List.range 8).any (fun l => s.laneBuilt l && s.laneUp l && decide (s.laneCab l = c))

/-- Is requester `i` of a cabinet masked? (R163) A narrow port follows its presence and the inbound flits the links. The manual does not
say when the other requesters are held in reset: the runners, the assay and, but for the sweep of a wake, the sweep of a cabinet are so in
Quench, where their logic loses its state, and the management path until boot step 3, before which the control matrix starts nothing (DEDUCED, log entry 91). -/
def State.reqMasked (s : State) (c i : Nat) : Bool :=
  if i = 0 then !s.bit (R.CAB_PORT_STAT_P_NP0 c)
  else if i = 1 then !s.bit (R.CAB_PORT_STAT_P_NP1 c)
  else if i = 9 then !s.linked c
  else if i = 8 then decide (s.f R.HLM_BOOT_STAT_STEP < 3)
  else decide (s.pow c = 3) && !(decide (i = 7) && s.wakeSweep c)

/-- ARB.STAT (R172). -/
def State.arbStat (s : State) (c : Nat) : Nat :=
  let pairs := (List.range 16).map (fun j => s.pairSt c j)
  let urgent (i : Nat) : Bool := pairs.any (fun p => p.queue.any (fun q => decide (q.acc.req = i) && s.urgentReq c q))
  let dbg := pairs.any (fun p => p.queue.any (fun q => decide (q.acc.req = 10)) || p.bursts.any (fun b => b.dbg))
  bitsFrom 0 10 urgent + b2n dbg * 2 ^ 16 + bitsFrom 20 10 (s.reqMasked c)

/-- SYN.STAT (R301). -/
def State.synStat (s : State) (c : Nat) : Nat :=
  let rnh := (List.range 4).foldl (fun n r => n + s.places c r) 0
  s.sgq c % 128 + min rnh 16 * 2 ^ 8 + ((List.range 16).filter (fun w => s.bit (R.SYN_WTR_A_REG c w))).length * 2 ^ 16

/-- RUN.RSV_STAT (R358). -/
def State.rsvStat (s : State) (c : Nat) : Nat :=
  let fuse (r : Nat) (f : Fuse → Bool) : Bool := reserving (s.runner c r) && (s.runner c r).fuse.any f
  s.f { key := R.RUN_RSV_STAT c, hi := 7, lo := 0 } + bitsFrom 8 4 (fun r => fuse r (fun _ => true)) + bitsFrom 12 4 (fun r => fuse r (fun x => x.aged))

/-- A map entry with FENCED, which shows the fence of the cabinet in PHYS whatever VALID holds (R43). -/
def State.mapView (s : State) (g n : Nat) : Nat :=
  (s.reg (mapReg g n)).toNat % 65536 + b2n (s.fenced (s.f (mapPhys g n))) * 65536

/-- The value of a die-global register. -/
def State.viewDie (s : State) (blk off : Nat) : Nat :=
  let raw := (s.reg (dieReg blk off)).toNat
  if blk = 0 then
    match rowIdx off 0x100 4 128, rowIdx off 0x300 4 128 with
    | some n, _ => s.mapView 0 n
    | none, some n => s.mapView 1 n
    | none, none =>
      if off = 0x04 then s.ties.inst % 65536
      else if off = 0x10 then s.ties.edges % 8 + b2n s.ties.hdp * 8 + s.ties.hdpHome % 128 * 16
      else if off = 0x14 then s.idcode
      else if off = 0x40 then s.ties.cols % 32 + s.ties.rows % 16 * 256 + s.die * 65536
      else if off = 0x48 then raw / 256 * 256 + s.cur + b2n (s.genUsed 0) * 2 + b2n (s.genUsed 1) * 4
      else raw
  else if blk = 1 ∧ off = 0 then
    bitsFrom 0 4 (fun k => s.bit (R.ERR_LOG_STAT_FIRST_V k)) + bitsFrom 4 4 (fun k => s.bit (R.ERR_LOG_STAT_NEXT_V k)) + bitsFrom 8 4 (fun k => s.f (R.ERR_LOG_OVF_COUNT k) != 0)
  else if blk = 4 ∧ off = 0 then s.now
  else if blk = 4 ∧ off = 4 then s.now / 2 ^ 32
  else if blk = 7 ∧ off = 0x18 then s.time.stime
  else if blk = 7 ∧ off = 0x1C then s.time.stime / 2 ^ 32
  else if blk = 9 ∧ off < 256 ∧ off % 64 = 4 then raw / 4 * 4 + raw % 2 + b2n (s.gwIn (off / 64)) * 2
  else if blk = 10 ∧ off = 8 then bitsFrom 0 4 (fun t => s.cmx.locks.any (fun l => decide (l.1 = t) && decide (l.2.2 < 2 ^ 32))) + bitsFrom 4 13 s.mMasked
  else if blk = 11 ∧ off = 0x08 then s.hintStat
  else if blk = 11 ∧ off = 0x14 then b2n (s.bit R.PWR_EMERG_STAT_THERM) + b2n s.emergency * 2 + b2n s.emergAny * 4
  else if blk = 13 ∧ off = 0 then raw % 2 + b2n (s.bit R.LCT_FRZ_STAT_DEBUG) * 2
  else raw

/-- The value of a register of a cabinet. -/
def State.viewCab (s : State) (c blk off : Nat) : Nat :=
  let raw := (s.reg (cabReg c blk off)).toNat
  let held (p : SetPort) : Bool := s.holdHigh p c
  if blk = 0 ∧ off = 0 then raw / 2 * 2 + b2n (s.pow c = 1)
  else if blk = 0 ∧ off = 0x100 then raw + b2n (held .wrp) * 256 + b2n (held .wwp) * 512
  else if blk = 3 ∧ off = 0 then s.synStat c
  else if blk = 3 ∧ (rowIdx off 0x100 16 16).isSome then
    let w := (rowIdx off 0x100 16 16).getD 0
    raw - b2n (s.bit (R.SYN_WTR_A_FIRED c w)) * 1024 + b2n (s.firedNow c w) * 1024
  else if blk = 4 ∧ off = 0x0C then s.rsvStat c
  else if blk = 4 ∧ 0x100 ≤ off ∧ off < 0x200 then
    let x := s.runner c ((off - 0x100) / 64)
    let o := (off - 0x100) % 64
    if o = 0x08 then runStat x
    else if 0x10 ≤ o ∧ o ≤ 0x1C then (cmplRegs x.cmpl).getD ((o - 0x10) / 4) 0
    else raw
  else if blk = 5 ∧ 0x100 ≤ off ∧ (off - 0x100) % 32 = 8 then fifoStat (s.fifoSeen c ((off - 0x100) / 32))
  else if blk = 6 ∧ off = 0 then raw / 4 * 4 + raw % 2 + b2n (32 < s.f R.IDV_CONF_NUM_CAB) * 2
  else if blk = 7 ∧ off = 8 then s.arbStat c
  else raw

/-- Bits of a register that a read shows: those of its fields, write-only ones apart (R11, R13). -/
def shown (l : List (Nat × Nat × Acc)) (v : W32) : W32 :=
  l.foldl (fun (w : W32) (f : Nat × Nat × Acc) => if f.2.2 = .wo then w else Fld.into { key := 0, hi := f.1, lo := f.2.1 } w (Fld.of { key := 0, hi := f.1, lo := f.2.1 } v)) 0

/-- What a read of a register returns on this fc, latches apart. -/
def State.view (s : State) (k : Nat) : W32 :=
  shown (keyFlds k) (BitVec.ofNat 32 (if 128 ≤ keyCab k then s.viewDie (keyBlk k) (keyOff k) else s.viewCab (keyCab k) (keyBlk k) (keyOff k)))

/-! Reads -/

/-- Is the register the _LO half of a 64-bit pair? Its _HI half follows it (R14). -/
def isLo (k : Nat) : Bool :=
  let off := keyOff k
  if 128 ≤ keyCab k then
    match keyBlk k with
    | 0 => off = 8
    | 1 => (List.range 4).any (fun n => decide (k = R.ERR_FIRST_TIME_LO n) || decide (k = R.ERR_NEXT_TIME_LO n))
    | 4 => off = 0 || off = 8
    | 7 => off = 0x18 || off = 0x28
    | 9 => decide (0x1000 ≤ off) && (off % 128 = 0x04 || off % 128 = 0x18 || off % 128 = 0x4C || off % 128 = 0x54)
    | _ => false
  else
    decide (keyBlk k = 3) && (decide (k = R.SYN_SET_LO (keyCab k)) || (rowIdx off 0x104 16 16).isSome || (rowIdx off 0x404 16 64).isSome || (rowIdx off 0x4004 16 256).isSome)

/-- Is it the _LO half of a writable pair? (R15) -/
def isLoW (k : Nat) : Bool := isLo k && (keyFlds k).any (fun f => f.2.2 != .ro)

/-- Clear the read-clear fields of a register (R11). -/
def State.clearRc (s : State) (k : Nat) : State :=
  (keyFlds k).foldl (fun s f => if f.2.2 = .rc then s.put { key := k, hi := f.1, lo := f.2.1 } 0 else s) s

/-- Latch a _HI half for a master (R14, R16). -/
def State.latchHi (s : State) (mi hi : Nat) : State :=
  { s with hiLatch := s.hiLatch.filter (fun e => !(decide (e.1 = mi) && decide (e.2.1 = hi))) ++ [(mi, hi, s.view hi)] }

/-- A control read that reaches its register, by the master of a latch number (R11, R14, R16). -/
def State.readReg (s : State) (mi k : Nat) : State × W32 :=
  if isLo k then ((s.latchHi mi (k + 4)).clearRc k, s.view k)
  else
    match s.hiLatch.find? (fun e => decide (e.1 = mi) && decide (e.2.1 = k)) with
    | some e => ({ s with hiLatch := s.hiLatch.filter (fun e => !(decide (e.1 = mi) && decide (e.2.1 = k))) }, e.2.2)
    | none => (s.clearRc k, s.view k)

/-- The answer of a station. -/
def State.station (s : State) (h : CaHit) : Station :=
  match h.station with
  | none => .go
  | some c => s.stationOf c

end Sys2Proof.Machine
end

