-- ==== Sys2Proof/Machine/Write.lean ====
section
/-! DEFINITION. What a control write does once it has reached its register (R10 to R16): the fields under their access codes, the
masters each block accepts, and the operations that a written value asks for. -/
namespace Sys2Proof.Machine

/-! Fields under their access codes -/

/-- A field of a written word. -/
def fldOf (f : Nat × Nat × Acc) : Fld := { key := 0, hi := f.1, lo := f.2.1 }

/-- The register after a write, field by field (R11 to R13). -/
def mergeFields (locked : Bool) (l : List (Nat × Nat × Acc)) (v old : W32) : W32 :=
  l.foldl (fun (w : W32) (f : Nat × Nat × Acc) =>
    let new := (fldOf f).of v
    let was := (fldOf f).of old
    match f.2.2 with
    | .rw => (fldOf f).into w new
    | .rwl => if locked then w else (fldOf f).into w new
    | .w1c => (fldOf f).into w (was - (was &&& new))
    | .w1s => (fldOf f).into w (was ||| new)
    | .ro => w
    | .rc => w
    | .wo => w) old

/-- Has the register an RWL field? -/
def hasRwl (l : List (Nat × Nat × Acc)) : Bool := l.any (fun f => f.2.2 = .rwl)

/-- A write of a register that its access codes describe (R11); one that reaches an RWL field under BOOT_LOCK is recorded, whatever value it
carries (R12). -/
def State.plainWrite (s : State) (m : Master) (k : Nat) (v : W32) : State :=
  let l := keyFlds k
  let t := s.setReg k (mergeFields s.bootLocked l v (s.reg k))
  if s.bootLocked && hasRwl l then t.locked (masterReq m) (s.ca k) else t

/-- Such a write where the block accepts the master. -/
def State.gatedWrite (s : State) (ok : Bool) (m : Master) (k : Nat) (v : W32) : State := s.gate ok m k (fun s => s.plainWrite m k v)

/-- A field of a written value, by bit numbers. -/
def vfld (v : W32) (hi lo : Nat) : Nat := v.toNat / 2 ^ lo % 2 ^ (hi + 1 - lo)

/-- A core? (R411) -/
def isCore (m : Master) : Bool := decide (masterIdx m < 11)

/-- SEC or DBG. -/
def secDbg (m : Master) : Bool := m == .sec || m == .dbg

/-! Die-global blocks -/

/-- Block IDV (R35 to R45, R245, R257 to R259). -/
def State.writeIdv (s : State) (m : Master) (off : Nat) (v : W32) : State :=
  let k := dieReg 0 off
  if off = 0x48 then ran s (execCmapCtlWrite m v s)
  else if off = 0x500 then ((s.plainWrite m k v).minOne R.IDV_FENCE_CFG_UE_LIMIT).minOne R.IDV_FENCE_CFG_UE_WINDOW |>.ueArm
  else if off = 0x504 then ran s (execFenceCmd m v s)
  else if off = 0x508 then (s.plainWrite m k v).minOne R.IDV_STN_POLL_PERIOD
  else
    match rowIdx off 0x100 4 128, rowIdx off 0x300 4 128, rowIdx off 0x520 4 4, rowIdx off 0x800 4 128 with
    | some n, _, _, _ => ran s (execCmapEntryWrite m 0 (Fin.ofNat 128 n) v s)
    | _, some n, _, _ => ran s (execCmapEntryWrite m 1 (Fin.ofNat 128 n) v s)
    | _, _, some j, _ => ran s (execFencePendClear m (Fin.ofNat 4 j) v s)
    | _, _, _, some n => ran s (execDetWrite m (Fin.ofNat 128 n) v s)
    | none, none, none, none => s.plainWrite m k v

/-- Block ERR (R209, R226). -/
def State.writeErr (s : State) (m : Master) (off : Nat) (v : W32) : State :=
  match rowIdx off 0x104 64 4 with
  | some j => s.logCtl m j v
  | none => s.plainWrite m (dieReg 1 off) v

/-- PWR.CAB_CMD (R476, R515). -/
def State.writeCabCmd (s : State) (m : Master) (v : W32) : State :=
  let c : Cab := Fin.ofNat 128 (vfld v 6 0)
  if !vbit v 31 || !pwrMaster m then s.gate (pwrMaster m) m R.PWR_CAB_CMD id
  else
    match vfld v 9 8 with
    | 0 => ran s (execCabCmdRun m c s)
    | 1 => ran s (execCabCmdDoze m c s)
    | 2 => ran s (execCabCmdHold m c s)
    | _ => ran s (execCabCmdQuench m c s)

/-- Block PWR (R513, R515 to R521): SEC loads RWL fields. -/
def State.writePwr (s : State) (m : Master) (off : Nat) (v : W32) : State :=
  let k := dieReg 2 off
  if off = 0x00 then s.writeCabCmd m v
  else if off = 0x04 then (if pwrMaster m then ran s (execDieSleep m v s) else s.locked (masterReq m) (s.ca k))
  else if off = 0x10 then ran s (execOpChange m v s)
  else if off = 0x18 then s.gate (pwrMaster m || m == .sec) m k (fun s => (s.plainWrite m k v).minOne R.PWR_VID_CFG_TIMEOUT)
  else if off = 0x64 then s.emergCtl m v
  else if off = 0x50 then s.gate (pwrMaster m) m k (fun s => s.clampCfg v)
  else if off = 0x40 then s.gate (pwrMaster m) m k (fun s => (s.plainWrite m k v).leavePoke)
  else s.gatedWrite (pwrMaster m || (m == .sec && hasRwl (keyFlds k))) m k v

/-- WIN.BIND (R391, R409). -/
def State.writeBind (s : State) (m : Master) (v : W32) : State :=
  let w : Win := Fin.ofNat 64 (vfld v 5 0)
  let c : Ctx := Fin.ofNat 16 (vfld v 11 8)
  if !winMaster m then s.locked (masterReq m) (s.ca R.WIN_BIND) else
  match vfld v 13 12 with
  | 1 => ran s (execWindowBind m w c s)
  | 2 => ran s (execWindowUnbind m w c s)
  | 3 => ran s (execWindowRelease m w c s)
  | _ => s.winRej (if s.ctx.busy.isSome then 9 else 10)

/-- CTX.CMD (R385, R405). -/
def State.writeCtxCmd (s : State) (m : Master) (v : W32) : State :=
  let c : Ctx := Fin.ofNat 16 (vfld v 3 0)
  match vfld v 6 4 with
  | 1 => ran s (execCtxActivate m c s)
  | 2 => ran s (execCtxDeactivate m c s)
  | 3 => ran s (execCtxBind m c s)
  | 4 => if m == .hrp then s.locked (masterReq m) (s.ca R.CTX_CMD) else ran s (execCtxKill m c s)
  | _ => s.ctxRej 2

/-- Block CTX (R387, R405, R408). -/
def State.writeCtx (s : State) (m : Master) (off : Nat) (v : W32) : State :=
  let k := dieReg 6 off
  if off = 0 then s.writeCtxCmd m v
  else if off = 4 then s.gatedWrite (m == .sec) m k v
  else
    match rowIdx off 0x400 4 128 with
    | some p => ran s (execEagWrite m (Fin.ofNat 128 p) v s)
    | none => s.plainWrite m k v

/-- LCT.LEVEL (R65): a level that LCT.SUPPORTED does not name is ignored and logged. -/
def State.writeLevel (s : State) (m : Master) (v : W32) : State :=
  let n := vfld v 7 0
  if s.bootLocked then s.plainWrite m R.LCT_LEVEL v
  else if n < 8 ∧ s.f R.LCT_SUPPORTED_LEVELS / 2 ^ n % 2 = 1 then s.plainWrite m R.LCT_LEVEL v
  else s.locked (masterReq m) (s.ca R.LCT_LEVEL)

/-- Block LCT (R65, R81, R91). -/
def State.writeLct (s : State) (m : Master) (off : Nat) (v : W32) : State :=
  if off = 0x04 then s.writeLevel m v
  else if off = 0x24 then ran s (execFrzCtlWrite m v s)
  else
    match rowIdx off 0x100 4 16 with
    | some c => if m == .sch then s.put (R.LCT_STEP_MULTI c) (vfld v 5 5) else s
    | none => s.plainWrite m (dieReg 7 off) v

/-- BRG.CTL (R544, R565): 1 TRAIN, 2 OFF. -/
def State.writeLaneCtl (s : State) (m : Master) (l : Nat) (v : W32) : State :=
  s.gate (brgMaster m) m (R.BRG_CTL l) (fun s =>
    let s := s.plainWrite m (R.BRG_CTL l) v
    match vfld v 1 0 with
    | 1 => ran s (execLaneTrain m (Fin.ofNat 8 l) s)
    | 2 => ran s (execLaneOff m (Fin.ofNat 8 l) s)
    | _ => s)

/-- Block BRG (R563 to R565). -/
def State.writeBrg (s : State) (m : Master) (off : Nat) (v : W32) : State :=
  let k := dieReg 8 off
  if off = 0 then ran s (execDrouteWrite m v s)
  else
    match rowIdx off 0x104 64 8 with
    | some l => s.writeLaneCtl m l v
    | none => s.gatedWrite (m == .sec && hasRwl (keyFlds k)) m k v

/-- A partner's registers (R552, R566, R568). -/
def State.writePart (s : State) (m : Master) (p o : Nat) (v : W32) : State :=
  let k := dieReg 9 (4096 + 128 * p + o)
  let empty := edgMaster m && decide (s.partState p = 0)
  if o = 0x00 then s.gate empty m k (fun s => (s.plainWrite m k v).minOne (R.EDG_PT_CFG_RD_MAX p))
  else if o = 0x08 ∨ o = 0x1C then
    s.gate empty m k (fun s =>
      let lo := s.takeLo m (k - 4)
      (lo.1.plainWrite m (k - 4) lo.2).plainWrite m k v)
  else if o = 0x14 then s.gate (edgMaster m) m k (fun s => ((s.plainWrite m k v).minOne (R.EDG_PT_TIME_TIMEOUT p)).minOne (R.EDG_PT_TIME_QWIN p))
  else if 0x20 ≤ o ∧ o < 0x40 then s.gate (edgMaster m) m k (fun s => s.setReg k v)
  else if o = 0x40 then s.ptCtl m p v
  else s.gatedWrite (edgMaster m) m k v

/-- Block EDG (R558, R560, R566 to R568). -/
def State.writeEdg (s : State) (m : Master) (off : Nat) (v : W32) : State :=
  if 4096 ≤ off then s.writePart m ((off - 4096) / 128) (off % 128) v
  else
    let g := off / 64
    let k := dieReg 9 off
    let ok := edgMaster m || m == .hrp || m == .sch
    if off % 64 = 0 then ran s (execEdgeEnWrite m (Fin.ofNat 4 g) v s)
    else if off % 64 = 0x10 ∨ off % 64 = 0x14 then s.gatedWrite ok m k v
    else if off % 64 = 0x18 then s.gate ok m k (fun s => s.edgeGo g v)
    else s.gatedWrite (edgMaster m) m k v

/-- Block CMX (R426 to R431). -/
def State.writeCmx (s : State) (m : Master) (off : Nat) (v : W32) : State :=
  let k := dieReg 10 off
  if off = 4 then
    s.gate (secDbg m) m k (fun s =>
      let s := (List.range 4).foldl (fun s t => if vbit v t then ((s.clearOn (R.CMX_T_GRANTS_COUNT t) s.cyc).clearOn (R.CMX_T_WAIT_COUNT t) s.cyc).clearOn (R.CMX_T_LONGEST_COUNT t) s.cyc else s) s
      if vbit v 4 then s.clearOn R.CMX_DECODE_CNT_COUNT s.cyc else s)
  else
    match rowIdx off 0x10 4 13 with
    | some j => s.gatedWrite (secDbg m || decide (j = masterIdx m)) m k v
    | none => s.gatedWrite (secDbg m) m k v

/-- MGT.WDT_CFG (R454, R472): a count begins when EN rises. -/
def State.writeWdt (s : State) (m : Master) (c : Nat) (v : W32) : State :=
  s.gate (secDbg m) m (R.MGT_WDT_CFG c) (fun s0 =>
    let s := s0
    let was := s.bit (R.MGT_WDT_CFG_EN c)
    let s := (s.plainWrite m (R.MGT_WDT_CFG c) v).minOne (R.MGT_WDT_CFG_TIMEOUT c)
    let s := if !was && s.bit (R.MGT_WDT_CFG_EN c) then { s with mgt := { s.mgt with kicks := SMap.insert s.mgt.kicks c s.time.now } } else s
    (s0.wdtChange (s.disarm (.watchdogExpiry (Fin.ofNat 11 c)))).later .wall 1 (.watchdogExpiry (Fin.ofNat 11 c)))

/-- Block MGT (R432, R468 to R472, R487, R488): a write that no rule accepts is logged. -/
def State.writeMgt (s : State) (m : Master) (off : Nat) (v : W32) : State :=
  let k := dieReg 11 off
  if off = 0x04 then ran s (execDoorbell m v s)
  else if off = 0x08 then ran s (execHintStatClear m v s)
  else if off = 0x0C then s.gatedWrite (m == .hrp || secDbg m) m k v
  else if off = 0x10 then ran s (execHintSet m v s)
  else if off = 0x18 then ran s (execMgtActWrite m v s)
  else if off = 0x1C then s.gatedWrite (secDbg m) m k v
  else if off = 0x20 then ran s (execMgtRestartWrite m v s)
  else if off = 0x24 then ran s (execRecovery m v s)
  else if off = 0x2C then ran s (execSelfHalt m v s)
  else if off = 0x34 then ran s (execResume m v s)
  else
    match rowIdx off 0x100 4 11, rowIdx off 0x200 16 11, rowIdx off 0x204 16 11 with
    | some c, _, _ => ran s (execMgtRemapWrite m (Fin.ofNat 11 c) v s)
    | _, some c, _ => s.writeWdt m c v
    | _, _, some c => ran s (execWdtKick m (Fin.ofNat 11 c) v s)
    | none, none, none => s.locked (masterReq m) (s.ca k)

/-- Block HLM (R592, R593). -/
def State.writeHlm (s : State) (m : Master) (off : Nat) (v : W32) : State :=
  let k := dieReg 12 off
  if off = 0 then (if vfld v 1 0 = 0 then s.gate (m == .sec) m k id else s.bootCtl m v)
  else if off = 0x10 then s.gatedWrite (secDbg m) m k v
  else s.locked (masterReq m) (s.ca k)

/-- A write of a die-global register. -/
def State.writeDie (s : State) (m : Master) (k : Nat) (v : W32) : State :=
  let off := keyOff k
  match keyBlk k with
  | 0 => s.writeIdv m off v
  | 1 => s.writeErr m off v
  | 2 => s.writePwr m off v
  | 3 => s.gatedWrite (m == .pwc || secDbg m) m k v
  | 4 => if off = 12 then ran s (execTimSet m v s) else s.plainWrite m k v
  | 5 => if off = 0 then s.writeBind m v else s.plainWrite m k v
  | 6 => s.writeCtx m off v
  | 7 => s.writeLct m off v
  | 8 => s.writeBrg m off v
  | 9 => s.writeEdg m off v
  | 10 => s.writeCmx m off v
  | 11 => s.writeMgt m off v
  | 12 => s.writeHlm m off v
  | _ => if off = 0 then ran s (execDebugHalt m v s) else s.gatedWrite (m == .dbg) m k v

/-! Blocks of a cabinet -/

/-- Block BNK (R212 to R222). -/
def State.writeBnk (s : State) (m : Master) (c : Cab) (off : Nat) (v : W32) : State :=
  let k := cabReg c 1 off
  if off = 0x04 then s.gate (bankMaster m c) m k (fun s => s.put (R.BNK_RET_LIMIT_LIMIT c) (max 16 (vfld v 15 0)))
  else if off = 0x08 then ran s (execBktCfgWrite m c v s)
  else if off = 0x14 then ran s (execBnkCntClr m c v s)
  else if off = 0x20 then ran s (execInjCtlWrite m c v s)
  else if off = 0x38 then ran s (execSwpGo m c v s)
  else
    match rowIdx off 0x100 4 32 with
    | some b => ran s (execRetireWrite m c (Fin.ofNat 32 b) v s)
    | none => s.gatedWrite (bankMaster m c) m k v

/-- Block SYN (R267, R296, R302 to R310): a write above offset 0x4000 acts through the window of the cabinet. -/
def State.writeSyn (s : State) (m : Master) (c : Cab) (via : Cab) (off : Nat) (v : W32) : State :=
  let k := cabReg c 3 off
  if off = 0x04 then ran s (execSynSignalWrite m c v s)
  else if off = 0x08 then ran s (execSetKeyWrite m c v s)
  else if off = 0x14 then ran s (execCounterSet m c v s)
  else if off = 0x5004 then s.dumpCtl m via v
  else if off = 0x5000 then s.gate (secDbg m) m (R.SYN_DUMP_BASE via) (fun s => s.plainWrite m k v)
  else
    match rowIdx off 0x400 16 64, rowIdx off 0x4000 16 256 with
    | some n, _ => s.ctrWrite m (.cab c (Fin.ofNat 64 n)) v
    | none, some g => s.ctrWrite m (.glob via (Fin.ofNat 256 g)) v
    | none, none => s.plainWrite m k v

/-- Block RUN (R312, R355 to R359). -/
def State.writeRun (s : State) (m : Master) (c : Cab) (off : Nat) (v : W32) : State :=
  let k := cabReg c 4 off
  if off = 0x08 then s.gate (schMaster m) m k (fun s => s.put (R.RUN_MC_CFG_LAPSE c) (max 64 (vfld v 15 0)))
  else
    match rowIdx off 0x104 64 4, rowIdx off 0x10C 64 4, rowIdx off 0x120 64 4 with
    | some r, _, _ => ran s (execRunnerListGo m c (Fin.ofNat 4 r) v s)
    | _, some r, _ => ran s (execRunnerAbort m c (Fin.ofNat 4 r) v s)
    | _, _, some r => ran s (execCmplPop m c (Fin.ofNat 4 r) v s)
    | none, none, none => s.gatedWrite (schMaster m) m k v

/-- Block HFF (R376, R380 to R383). -/
def State.writeHff (s : State) (m : Master) (c : Cab) (off : Nat) (v : W32) : State :=
  let k := cabReg c 5 off
  if off = 0 then ran s (execHffFlush m c v s)
  else if off = 4 then s.gatedWrite (schMaster m) m k v
  else
    match rowIdx off 0x100 32 8, rowIdx off 0x104 32 8 with
    | some f, _ => ran s (execHffCfgWrite m c (Fin.ofNat 8 f) v s)
    | none, some f => s.gatedWrite (schMaster m && !s.bit (R.HFF_CFG_HANDOVER c f)) m k v
    | none, none => s.plainWrite m k v

/-- A write of a register of a cabinet, through the station of a cabinet. -/
def State.writeCab (s : State) (m : Master) (k : Nat) (via : Cab) (v : W32) : State :=
  let c : Cab := Fin.ofNat 128 (keyCab k)
  let off := keyOff k
  match keyBlk k with
  | 1 => s.writeBnk m c off v
  | 2 => if off = 0 then ran s (execRemapAdd m c v s) else s.gatedWrite (bankMaster m c) m k v
  | 3 => s.writeSyn m c via off v
  | 4 => s.writeRun m c off v
  | 5 => s.writeHff m c off v
  | 6 => if off = 0 then ran s (execSbdModeWrite m c v s) else s.plainWrite m k v
  | 7 =>
    if off = 0 then ran s (execArbPrioWrite m c v s)
    else if off = 4 then ran s (execArbAgeWrite m c v s)
    else if off = 0x0C then ran s (execArbCntClr m c v s)
    else s.plainWrite m k v
  | 8 => if off = 8 then s.asyCtl m c v else s.gatedWrite (bankMaster m c) m k v
  | _ => s.plainWrite m k v

/-! A write -/

/-- Does the block accept a write of the lower half of a pair from a master? (R296, R524, R566) -/
def State.loOk (s : State) (m : Master) (k : Nat) : Bool :=
  if keyCab k < 128 then secDbg m
  else if keyBlk k = 4 then m == .sec && !s.bootLocked
  else edgMaster m && decide (s.partState ((keyOff k - 4096) / 128) = 0)

/-- Hold a write of the lower half of a pair for its master (R15, R16). -/
def State.holdLo (s : State) (m : Master) (k : Nat) (v : W32) : State :=
  s.gate (s.loOk m k) m k (fun s =>
    { s with loHeld := s.loHeld.filter (fun e => !(decide (e.1 = masterIdx m) && decide (e.2.1 = k))) ++ [(masterIdx m, k, v)] })

/-- A control write that has reached its register, through the station of cabinet `via` (R10 to R16). -/
def State.ctlWrite (s : State) (m : Master) (k : Nat) (via : Cab) (v : W32) : State :=
  if isLoW k then s.holdLo m k v else if 128 ≤ keyCab k then s.writeDie m k v else s.writeCab m k via v

end Sys2Proof.Machine
end

