-- ==== Sys2Proof/Machine/Cmx.lean ====
section
/-! DEFINITION. The control matrix: where local addresses lead, what an access does at its target, the arbitration of the four
targets, locked sequences and responses (chapter "The control matrix"), and control accesses as they reach their registers. -/
namespace Sys2Proof.Machine

/-! Local addresses -/

/-- Where a local address leads (R412): a byte offset, a control address of this die or of another one, the tensor store, or the
cause of a decode miss. -/
inductive Place where
  | rom (o : Nat)
  | msram (o : Nat)
  | nvmc (o : Nat)
  | ctl (ca : Nat)
  | far (ca : Nat)
  | tensor (fa : Nat)
  | no (cause : Nat)
  deriving DecidableEq, Repr

/-- The windows of R412. -/
def State.place (s : State) (m la : Nat) : Place :=
  let remap := decide (m < 11) && s.bit (R.MGT_REMAP_REMAP m)
  let base := s.f (R.MGT_REMAP_BASE m) * 4096
  let o := la % 2 ^ 28
  let rom : Place := if o < 0x20000 then .rom o else .no 2
  match la / 2 ^ 28 with
  | 0 => if remap then (if base + o < 2 ^ 20 then .msram (base + o) else .no 2) else rom
  | 1 => if remap then rom else if o < 2 ^ 20 then .msram o else .no 2
  | 2 => .nvmc o
  | 3 => .no 2
  | 4 => .ctl (la % 2 ^ 29)
  | 5 => .ctl (la % 2 ^ 29)
  | 6 => .far (la % 2 ^ 29)
  | 7 => .far (la % 2 ^ 29)
  | 8 => .tensor (la % 2 ^ 29)
  | 9 => .tensor (la % 2 ^ 29)
  | _ => .no 1

/-- Target index of a place (R411). -/
def placeTgt : Place → Nat
  | .rom _ => 0
  | .msram _ => 1
  | .nvmc _ => 2
  | .ctl _ => 3
  | .far _ => 3
  | .tensor _ => 3
  | .no _ => 4

/-- Die that the other-die window of a master reaches (R429). -/
def State.rdie (s : State) (m : Nat) : Nat := s.f (R.CMX_RDIE_DIE m)

/-- The cause of a decode miss, the aperture of HRP apart (R414 to R416). -/
def State.missCause (s : State) (q : CmxReq) : Option Nat :=
  match s.place q.m q.la with
  | .no c => some c
  | .rom _ => if q.write ∨ q.m = 12 then some 3 else if q.lock then some 6 else none
  | .msram _ => if q.lock ∧ q.m = 12 then some 6 else none
  | .nvmc _ => if q.m ≠ 0 ∧ q.m ≠ 11 then some 3 else if q.lock then some 6 else none
  | .ctl ca => if q.lock ∧ q.m = 12 then some 6 else if (s.caDecode ca).isNone then some 4 else none
  | .far ca =>
    let d := s.rdie q.m
    if s.dies ≤ d then some 4
    else if q.write then some 5
    else if q.lock then some 6
    else if d = s.die then (if (s.caDecode ca).isNone then some 4 else none)
    else if (s.sideLane d).isNone then some 5
    else none
  | .tensor _ => if q.lock then some 6 else none

/-- Does the aperture shut HRP out of its word of MSRAM, as it all is before step 7? (R414, R427, R571) -/
def State.aperMiss (s : State) (q : CmxReq) : Bool :=
  match s.place q.m q.la with
  | .msram o =>
    let g := o / 4096
    let b := s.f R.CMX_HRP_APER_BASE
    decide (q.m = 12) && (decide (s.f R.HLM_BOOT_STAT_STEP < 7) || !(decide (b ≤ g) && decide (g < min (b + s.f R.CMX_HRP_APER_SIZE) 256)))
  | .rom _ | .nvmc _ | .ctl _ | .far _ | .tensor _ | .no _ => false

/-- The address that the record of a decode miss holds (R417). -/
def State.missAddr (s : State) (q : CmxReq) (cause : Nat) : Nat :=
  match s.place q.m q.la with
  | .ctl ca => if cause = 4 then s.die * 2 ^ 29 + ca else q.la
  | .far ca => if cause = 4 then s.rdie q.m * 2 ^ 29 + ca else q.la
  | .rom _ | .msram _ | .nvmc _ | .tensor _ | .no _ => q.la

/-- May HRP make this access while the die sleeps? (R489) -/
def State.sleepAccess (s : State) (q : CmxReq) : Bool :=
  match s.place q.m q.la with
  | .ctl ca =>
    let k := ((s.caDecode ca).map (fun h => h.key)).getD 0
    if q.write then decide (k = R.MGT_DOORBELL) else [R.PWR_DIE_STAT, R.PWR_WAKE_ACK, R.TIM_NOW_LO, R.TIM_NOW_HI].contains k
  | .rom _ | .msram _ | .nvmc _ | .far _ | .tensor _ | .no _ => false

/-- Is an access of DBG or HRP answered ASLEEP: in die sleep (R489, R603) or before the management clock runs (R606)? -/
def State.notAwake (s : State) (q : CmxReq) : Bool :=
  (decide (q.m = 11) || decide (q.m = 12)) &&
    (decide (s.boot.stage = 0) || decide (s.f R.HLM_BOOT_STAT_STEP < 3) || (s.dieAsleep && !(decide (q.m = 12) && s.sleepAccess q)))

/-! Accesses at their targets -/

/-- Put a command on the agenda for a wall time unless it is there for that time. -/
def State.once (s : State) (due : Nat) (i : Instr) : State :=
  if s.agenda.any (fun d => decide (d.clk = .real) && decide (d.due = due) && decide (d.cmd = i)) then s else s.at' .real due i

/-- The half of a transfer that carries a register (R413). -/
def laneOfWord (la : Nat) (v : W32) : Nat := if la / 4 % 2 = 1 then v.toNat * 2 ^ 32 else v.toNat

/-- The register value of a transfer. -/
def wordOfLane (la dat : Nat) : W32 := BitVec.ofNat 32 (if la / 4 % 2 = 1 then dat / 2 ^ 32 else dat)

/-- Bytes written under strobes. -/
def strobed (str : Nat) (old new : List Byte) : List Byte :=
  ((old.zip new).zip (List.range 8)).map (fun e => if str / 2 ^ e.2 % 2 = 1 then e.1.2 else e.1.1)

/-- A control access that RGS starts: what it leaves, and the access with its answer or the wall fc from which it is
unanswered (R11, R49, R244). -/
def State.controlServe (s : State) (o : CmxOut) (ca : Nat) (read : Nat) : State × CmxOut :=
  match s.caDecode ca with
  | none => (s, { o with ans := some (0, .zero) })
  | some h =>
    match s.station h with
    | .no r => (s, { o with ans := some (0, r) })
    | .silent => (s.later .wall 1024 (.controlAccessTimeout (masterOf (o.req.m % 16))), { o with lost := some s.time.fc })
    | .go =>
      if o.req.write then (s.ctlWrite (masterOf o.req.m) h.key (Fin.ofNat 128 (h.station.getD 0)) (wordOfLane o.req.la o.req.dat), { o with ans := some (0, .ok) })
      else
        let r := s.readReg read h.key
        (r.1, { o with ans := some (laneOfWord o.req.la r.2, .ok) })

/-- The cabinet at which the control matrix meets the mesh. -/
def State.mgtHome (s : State) (p : Nat) : Nat := ((s.cabs.filter (fun c => (s.genSet s.cur).contains c && !s.fenced c)).head?).getD p

/-- A tensor-store access that RGS starts (R395, R413): of the management path from SEC and DBG, refused with cause 5 from any other
master. It is a loose flit (R165); the manual names no cabinet at which it enters the mesh: that is the mapped and unfenced cabinet of the lowest
number (DESIGN CHOICE, log entry 92). -/
def State.tensorServe (s : State) (o : CmxOut) (fa : Nat) : State × CmxOut :=
  let q := o.req
  let fa := s.die * 2 ^ 29 + fa / 8 * 8
  let sh := fa % 64
  let a : LReq := { id := s.loose.nextId, req := if q.m = 11 then 10 else 8, home := 0, homeDie := s.die, org := .mgt q.m, cls := .mgmt, ctx := none, fa := fa / 64 * 64, we := q.write, be := q.str * 2 ^ sh, dat := wordsOfBytes (leBytes 64 (q.dat * 2 ^ (8 * sh))) 2, op := .acc }
  let s := s.fresh
  let o := { o with id := a.id }
  match s.target .mgmt q.write none fa with
  | .refused => ((s.refuse a.req none none (accAddr a)).deliver a (noAns .fault 2), o)
  | .far _ => ((s.refuse a.req none none (accAddr a)).deliver a (noAns .fault 2), o)
  | .violation w k =>
    let k := if q.m = 0 ∨ q.m = 11 then k else 5
    ((s.violate a.req (s.mapped s.cur (faCab fa)) none (accAddr a) w k).deliver a (noAns .fault 2), o)
  | .at' p =>
    let home := s.mgtHome p
    let a := { a with home := home }
    if q.m ≠ 0 ∧ q.m ≠ 11 then ((s.violate a.req (some p) none (accAddr a) ((s.winOf (faGran fa)).getD 255) 5).deliver a (noAns .fault 2), o)
    else
      let s := if q.write then s.undrain a.id home a.req else s
      (if home = p then s.arrive a p a.req
       else if servedIn false (s.pow p) = false then s.deliver a (noAns .asleep 2)
       else s.launch a none home p s.die (s.injLevel home a.req false), o)

/-- An access starts at its target (R413): what it leaves, and the access with its answer where that is known. -/
def State.serve (s : State) (o : CmxOut) : State × CmxOut :=
  let q := o.req
  if s.notAwake q then (s, { o with ans := some (0, .asleep), due := s.cyc })
  else
    match s.place q.m q.la with
    | .rom a => (s, { o with ans := some (leNat ((List.range 8).map (fun i => BitVec.ofNat 8 (Config.romByte (a / 8 * 8 + i)))), .ok), due := s.cyc + 2 })
    | .msram a =>
      let b := msram (a / 8 * 8)
      if q.write then (s.setCells b (strobed q.str (s.cells b 8) (leBytes 8 q.dat)), { o with ans := some (0, .ok), due := s.cyc })
      else (s, { o with ans := some (leNat (s.cells b 8), .ok), due := s.cyc + 2 })
    | .nvmc a =>
      let b := flash (a / 8 * 8)
      let due := s.cyc + 1 + s.free
      if q.write then (s.useFree.setCells b (strobed q.str (s.cells b 8) (leBytes 8 q.dat)), { o with ans := some (0, .ok), due := due })
      else (s.useFree, { o with ans := some (leNat (s.cells b 8), .ok), due := due })
    | .ctl ca => s.useFree.controlServe { o with due := s.cyc + 1 + s.free % 300 } ca q.m
    | .far ca =>
      let d := s.rdie q.m
      if d = s.die then s.useFree.controlServe { o with due := s.cyc + 1 + s.free % 300 } ca q.m
      else if (s.sideLane d).isNone then (s.decodeMiss (masterReq (masterOf q.m)) 5 q.la, { o with ans := some (0, .zero), due := s.cyc })
      else ((s.side d (.ctlRead s.die q.m (BitVec.ofNat 32 (d * 2 ^ 29 + ca)))).later .wall 1024 (.controlAccessTimeout (masterOf q.m)), { o with id := d + 1, lost := some s.time.fc })
    | .tensor fa => s.tensorServe o fa
    | .no _ => (s, { o with ans := some (0, .zero), due := s.cyc })

/-! Presentation -/

/-- A core that is halted, or will halt, presents nothing (R487). -/
def State.halts (s : State) (m : Nat) : Bool := decide (m < 11) && (s.bit (bitFld R.MGT_HALT_STAT m) || s.mgt.halting.contains m)

/-- Target of a transfer when it is presented: 4 for one that reaches none. -/
def State.reqTgt (s : State) (q : CmxReq) : Nat := if s.notAwake q ∨ (s.missCause q).isSome = true then 4 else placeTgt (s.place q.m q.la)

/-- Target of an index. -/
def tgtOf (t : Nat) : Target :=
  match t with
  | 0 => .rom
  | 1 => .msram
  | 2 => .nvmc
  | _ => .rgs

/-- Index of a target. -/
def tgtIdx : Target → Nat
  | .rom => 0
  | .msram => 1
  | .nvmc => 2
  | .rgs => 3

/-- A master presents a transfer; a masked master presents none (R413, R424). -/
def State.presentReq (s : State) (q : CmxReq) : State :=
  if s.mMasked q.m || s.halts q.m then s
  else
    let q := { q with tgt := s.reqTgt q }
    ({ s with cmx := { s.cmx with waiting := s.cmx.waiting ++ [q] } }).once s.time.real (.targetArbitration (tgtOf q.tgt))

/-- CMX_REQUEST (R413). -/
def execCmxRequest (m : Master) (write : Bool) (laddr : W32) (strobes : Byte) (data : W64) (s : State) : Host.Outcome State Fault Refusal :=
  .next (s.presentReq { m := masterIdx m, tgt := 4, write := write, lock := false, la := laddr.toNat, str := strobes.toNat, dat := data.toNat, rel := none })

/-- LOCKED_READ (R422): the first access of a locked sequence. -/
def execLockedRead (m : Master) (laddr : W32) (strobes : Byte) (s : State) : Host.Outcome State Fault Refusal :=
  .next (s.presentReq { m := masterIdx m, tgt := 4, write := false, lock := true, la := laddr.toNat, str := strobes.toNat, dat := 0, rel := none })

/-! Arbitration -/

/-- The first waiting transfer of each master: a master's accesses complete in issue order (R420). -/
def State.cmxHeads (s : State) : List CmxReq :=
  s.cmx.waiting.foldl (fun (l : List CmxReq) q => if l.any (fun x => decide (x.m = q.m)) then l else l ++ [q]) []

/-- Take the first waiting transfer of a master. -/
def dropHead (m : Nat) : List CmxReq → List CmxReq
  | [] => []
  | q :: l => if q.m = m then l else q :: dropHead m l

/-- A transfer that reaches no target is answered once nothing of its master is before it (R417, R489). -/
def State.noTarget (s : State) (q : CmxReq) : State :=
  if q.tgt ≠ 4 ∨ s.cmx.out.any (fun o => decide (o.req.m = q.m)) = true then s
  else
    let rest := dropHead q.m s.cmx.waiting
    let out (a : Resp) : CmxOut := { req := { q with rel := some s.cyc }, id := 0, ans := some (0, a), due := s.cyc, lost := none }
    let answer (s : State) (a : Resp) : State :=
      ({ s with cmx := { s.cmx with waiting := rest, out := s.cmx.out ++ [out a] } }).once s.time.real (.cmxResponse (masterOf q.m))
    if s.notAwake q then answer s .asleep
    else
      match s.missCause q with
      | some c => answer (s.decodeMiss (masterReq (masterOf q.m)) c (s.missAddr q c)) .zero
      | none =>
        let t := placeTgt (s.place q.m q.la)
        ({ s with cmx := { s.cmx with waiting := s.cmx.waiting.map (fun (x : CmxReq) => if x = q then { x with tgt := t } else x) } }).once s.time.real (.targetArbitration (tgtOf t))

/-- Does a rule of R420 hold a transfer back at its target? A lock that ends on this cycle still holds. -/
def State.heldBack (s : State) (q : CmxReq) : Bool :=
  let mine := s.cmx.out.filter (fun o => decide (o.req.m = q.m))
  mine.any (fun o => decide (o.req.tgt ≠ q.tgt)) || decide ((if q.tgt = 3 then 1 else 4) ≤ mine.length) ||
    s.cmx.locks.any (fun l => decide (l.1 = q.tgt) && decide (l.2.1 ≠ q.m))

/-- Note on which cycle each transfer at a target was released; `seen` are the masters with an earlier transfer. -/
def markRel (t c : Nat) (held : CmxReq → Bool) : List Nat → List CmxReq → List CmxReq
  | _, [] => []
  | seen, q :: l =>
    (if q.tgt ≠ t then q else if seen.contains q.m || held q then { q with rel := none } else { q with rel := some (q.rel.getD c) }) ::
      markRel t c held (q.m :: seen) l

/-- Replace the access that has been granted and not started. -/
def putStarted (q : CmxReq) (x : CmxOut) : List CmxOut → List CmxOut
  | [] => []
  | o :: l => if o.req = q ∧ o.ans = none ∧ o.id = 0 ∧ o.lost = none then x :: l else o :: putStarted q x l

/-- An access starts, and its target parks on its master (R419, R422, R431). -/
def State.startReq (s : State) (t : Nat) (q : CmxReq) : State :=
  let c := s.cyc
  let s := (s.incOn (R.CMX_T_GRANTS_COUNT t) c).maxOn (R.CMX_T_LONGEST_COUNT t) c (c - q.rel.getD c)
  let s := s.put (parkOf t) (if s.mMasked q.m then 0 else q.m)
  let s := if q.lock && q.rel.isSome then { s with cmx := { s.cmx with locks := s.cmx.locks ++ [(t, q.m, q.la)] } } else s
  let r := s.serve { req := q, id := 0, ans := none, due := 0, lost := none }
  let s := { r.1 with cmx := { r.1.cmx with out := putStarted q r.2 r.1.cmx.out } }
  if r.2.ans.isSome then s.once (max s.time.real (r.2.due * 300000)) (.cmxResponse (masterOf q.m)) else s

/-- Granted accesses whose start cycle has come. -/
def State.startDue (s : State) (t : Nat) : State :=
  let due := s.cmx.starting.filter (fun e => decide (e.1.tgt = t) && decide (e.2 ≤ s.cyc))
  let s := { s with cmx := { s.cmx with starting := s.cmx.starting.filter (fun e => !(decide (e.1.tgt = t) && decide (e.2 ≤ s.cyc))) } }
  due.foldl (fun s e => s.startReq t e.1) s

/-- Grant a transfer (R418, R419): the parked master's starts on this cycle, another one's on the next; so does the grant of the cycle on
which the parked master is masked (R425). Another access of a locking
master than its closing write ends the sequence (R422). -/
def State.cmxGrant (s : State) (t : Nat) (q : CmxReq) : State :=
  let c := s.cyc
  let closing := fun (l : Nat × Nat × Nat) => q.write && decide (q.tgt = l.1) && decide (q.la / 4 = l.2.2 / 4)
  let ends := (s.cmx.locks.filter (fun l => decide (l.2.1 = q.m) && decide (l.2.2 < 2 ^ 32) && !closing l)).map (fun l => l.1)
  let s := s.endLocks (fun t => ends.contains t) q.m
  let parked := decide (s.f (parkOf t) = q.m) && decide (SMap.get 0 s.cmx.moved t ≠ c + 1)
  let s := { s with cmx := { s.cmx with waiting := dropHead q.m s.cmx.waiting, out := s.cmx.out ++ [({ req := q, id := 0, ans := none, due := 0, lost := none } : CmxOut)], ptr := SMap.set 0 s.cmx.ptr t ((q.m + 1) % 13), next := SMap.set 0 s.cmx.next t (if parked then c + 1 else c + 2) } }
  if parked then s.startReq t q
  else { s with cmx := { s.cmx with starting := s.cmx.starting ++ [(q, c + 1)] } }

/-- Distance of a master from a target's pointer in round-robin order; DBG comes first (R418). -/
def State.turn (s : State) (t m : Nat) : Nat := if m = 11 then 0 else 1 + (m + 13 - SMap.get 0 s.cmx.ptr t) % 13

/-- The released transfer that a target takes next. -/
def State.pick (s : State) (t : Nat) (l : List CmxReq) : Option CmxReq :=
  l.foldl (fun (b : Option CmxReq) q => match b with
    | none => some q
    | some x => if s.turn t q.m < s.turn t x.m then some q else b) none

/-- One decision of a target, if one can be made on this cycle (R418). An access of HRP outside the aperture is none (R416). -/
def State.cmxDecide (s : State) (t : Nat) : State :=
  if s.cyc < SMap.get 0 s.cmx.next t then s
  else
    let l := s.cmxHeads.filter (fun q => decide (q.tgt = t) && q.rel.isSome)
    match s.pick t l with
    | none => s
    | some q =>
      if t = 1 ∧ s.aperMiss q = true then
        let out : CmxOut := { req := { q with tgt := 4 }, id := 0, ans := some (0, .zero), due := s.cyc, lost := none }
        let s := (s.decodeMiss 27 7 q.la)
        let s := ({ s with cmx := { s.cmx with waiting := dropHead q.m s.cmx.waiting, out := s.cmx.out ++ [out] } }).once s.time.real (.cmxResponse .hrp)
        match s.pick t (l.filter (fun x => decide (x.m ≠ 12))) with
        | none => s
        | some x => s.cmxGrant t x
      else s.cmxGrant t q

/-- Reads that came from other dies (R415): served unless RGS is locked. -/
def State.rgsInbox (s : State) : State :=
  if s.cmx.locks.any (fun l => decide (l.1 = 3)) then s
  else
    s.brg.inbox.foldl (fun s i => match i with
      | .ctlRead d m ca =>
        let s := { s with brg := { s.brg with inbox := s.brg.inbox.filter (fun x => !decide (x = i)) } }
        let q : CmxReq := { m := m + 16 * (d + 1), tgt := 3, write := false, lock := false, la := 0x40000000 + ca.toNat % 2 ^ 29 / 8 * 8, str := 0xFF, dat := 0, rel := some s.cyc }
        if (s.caDecode (ca.toNat % 2 ^ 29)).isNone then
          (s.decodeMiss (masterReq (masterOf m)) 4 ca.toNat).side d (.ctlAns s.die m 0 .zero)
        else
          let r := s.controlServe { req := q, id := ca.toNat % 2 ^ 29, ans := none, due := 0, lost := none } (ca.toNat % 2 ^ 29) q.m
          match r.2.ans with
          | some a => r.1.side d (.ctlAns s.die m (BitVec.ofNat 32 a.1) a.2)
          | none => { r.1 with cmx := { r.1.cmx with out := r.1.cmx.out ++ [r.2] } }
      | .ctlAns _ _ _ _ | .opTarget _ | .opReport _ _ | .opBack _ | .estimate _ _ _ | .round _ _ => s) s

/-- Count this cycle as one on which a released transfer waits, once (R431). -/
def State.countWait (s : State) (t : Nat) : State :=
  let c := s.cyc
  if SMap.get 0 s.cmx.waitFrom t ≤ c ∧ (s.cmx.waiting.any (fun q => decide (q.tgt = t) && q.rel.isSome) || s.cmx.starting.any (fun e => decide (e.1.tgt = t))) = true then
    ({ s with cmx := { s.cmx with waitFrom := SMap.set 0 s.cmx.waitFrom t (c + 1) } }).incOn (R.CMX_T_WAIT_COUNT t) c
  else s

/-- HRP is masked with its input (R424). -/
def State.maskHrp (s : State) : State :=
  if !s.isPresent .hrp && ((List.range 4).any (fun t => decide (s.f (parkOf t) = 12)) || s.cmx.waiting.any (fun q => decide (q.m = 12)) || s.cmx.locks.any (fun l => decide (l.2.1 = 12) && decide (l.2.2 < 2 ^ 32)) ||
      s.cmx.out.any (fun o => decide (o.req.m = 12) && o.req.rel.isSome)) then s.cmxMask 12 else s

/-- TARGET_ARBITRATION (R418 to R423): the target starts what it granted, decides once on each cycle, and looks again on the next
one while a transfer waits. -/
def execTargetArbitration (t : Target) (s : State) : Host.Outcome State Fault Refusal :=
  let i := tgtIdx t
  let c := s.cyc
  let s := { s with cmx := { s.cmx with locks := s.cmx.locks.filter (fun l => decide (l.2.2 < 2 ^ 32) || decide (c ≤ l.2.2 - 2 ^ 32)) } }.maskHrp
  let s := s.cmxHeads.foldl (fun s q => s.noTarget q) s
  let s := { s with cmx := { s.cmx with waiting := markRel i c s.heldBack [] s.cmx.waiting } }
  let s := s.startDue i
  let s := if i = 3 then s.rgsInbox else s
  let s := (s.cmxDecide i).countWait i
  let again := s.cmx.starting.any (fun e => decide (e.1.tgt = i)) || s.cmx.waiting.any (fun q => decide (q.tgt = i) && q.rel.isSome) ||
    s.cmx.locks.any (fun l => decide (2 ^ 32 ≤ l.2.2)) || (i == 3 && s.brg.inbox.any (fun x => match x with
      | .ctlRead _ _ _ => true
      | .ctlAns _ _ _ _ | .opTarget _ | .opReport _ _ | .opBack _ | .estimate _ _ _ | .round _ _ => false))
  .next (if again then s.once ((c + 1) * 300000) (.targetArbitration t) else s)

/-! Responses -/

/-- The data of an answered loose access of the management path: the eight bytes of the transfer. -/
def ansData (o : CmxOut) (a : Ans) : Nat := if o.req.write then 0 else leNat (((blockBytes a.dat 64).drop (o.req.la % 64 / 8 * 8)).take 8)

/-- Answers of the tensor store for a master. -/
def State.takeAcked (s : State) (m : Nat) : State :=
  let mine (e : LReq × Ans × Nat) : Bool := decide (e.1.org = .mgt m)
  let got := s.loose.acked.filter mine
  let c := s.cyc
  { s with loose := { s.loose with acked := s.loose.acked.filter (fun e => !mine e) }, cmx := { s.cmx with out := s.cmx.out.map (fun (o : CmxOut) =>
    match got.find? (fun e => decide (e.1.id = o.id) && decide (o.req.m = m) && o.ans.isNone) with
    | some e => { o with ans := some (ansData o e.2.1, e.2.1.resp), due := c }
    | none => o) } }

/-- Is an access a control read at another die? -/
def isFar (o : CmxOut) : Bool := decide (o.req.m < 16) && decide (0 < o.id) && o.lost.isSome

/-- Answers of control reads at other dies for a master; SEC's reads while it follows die 0 are start-up's (R581). -/
def State.takeSide (s : State) (m : Nat) : State :=
  if m = 0 ∧ 71 ≤ s.boot.stage ∧ s.boot.stage ≤ 74 then s
  else
    s.brg.inbox.foldl (fun s i => match i with
      | .ctlAns d n v r =>
        if n = m then
          let c := s.cyc
          { s with brg := { s.brg with inbox := s.brg.inbox.filter (fun x => !decide (x = i)) }, cmx := { s.cmx with out := s.cmx.out.map (fun (o : CmxOut) => if decide (o.req.m = m) && isFar o && o.ans.isNone && decide (o.id = d + 1) then { o with ans := some (laneOfWord o.req.la v, r), due := c, lost := none } else o) } }
        else s
      | .ctlRead _ _ _ | .opTarget _ | .opReport _ _ | .opBack _ | .estimate _ _ _ | .round _ _ => s) s

/-- A response is presented to its master (R417); DBG's becomes the outcome of its transfer (R604). -/
def State.respond (s : State) (o : CmxOut) (a : Nat × Resp) : State :=
  let m := o.req.m
  let s := if o.req.write then s.endLocks (fun t => s.cmx.locks.any (fun l => decide (l.1 = t) && decide (t = o.req.tgt) && decide (l.2.1 = m) && decide (l.2.2 / 4 = o.req.la / 4))) m else s
  if o.req.rel.isNone then s
  else
    let s := s.present! (2000 + m) { at' := s.time.fc, tag := 0, dat := [BitVec.ofNat 256 a.1], zero := [], sb := 0, resp := a.2 }
    if m = 11 then { s with test := { s.test with busy := false, done := some a } } else s

/-- Deliver the oldest answer of a master when it is due: answers keep their order, one on a cycle (R420). -/
def State.respondAll (s : State) (m : Nat) : List CmxOut → State
  | [] => s
  | o :: l =>
    if o.req.m ≠ m then s.respondAll m l
    else
      match o.ans with
      | some a =>
        if o.due ≤ s.cyc then
          let s := ({ s with cmx := { s.cmx with out := s.cmx.out.eraseP (fun x => decide (x.req.m = m)) } }).respond o a
          if l.any (fun x => decide (x.req.m = m)) then s.once ((s.cyc + 1) * 300000) (.cmxResponse (masterOf m)) else s
        else s.once (o.due * 300000) (.cmxResponse (masterOf m))
      | none => s

/-- CMX_RESPONSE (R417, R420, R422, R424). -/
def execCmxResponse (m : Master) (s : State) : Host.Outcome State Fault Refusal :=
  let i := masterIdx m
  let s := (s.takeAcked i).takeSide i
  let s := s.respondAll i s.cmx.out
  let s := if s.mgt.halting.contains i && !s.cmx.out.any (fun o => decide (o.req.m = i)) then s.haltCore i else s
  .next ([Target.rom, .msram, .nvmc, .rgs].foldl (fun s t => if s.cmx.waiting.isEmpty && !s.cmx.locks.any (fun l => decide (2 ^ 32 ≤ l.2.2)) then s else s.once s.time.real (.targetArbitration t)) s)

/-- Has the station of an unanswered control access been fenced? (R49, R425) -/
def State.lostFenced (s : State) (ca : Nat) : Bool := (s.caDecode ca).any (fun h => h.station.any s.fenced)

/-- An access that waits for its station, or for another die, once its 1024 fc have passed (R244). -/
def State.lostEnd (s : State) (o : CmxOut) : State :=
  let since := o.lost.getD 0
  let past := decide (since + 1024 ≤ s.time.fc)
  let swap (s : State) (x : CmxOut) : State := { s with cmx := { s.cmx with out := s.cmx.out.map (fun (y : CmxOut) => if y = o then x else y) } }
  if 16 ≤ o.req.m then
    if past || s.lostFenced o.id then ({ s with cmx := { s.cmx with out := s.cmx.out.erase o } }).side (o.req.m / 16 - 1) (.ctlAns s.die (o.req.m % 16) 0 .fault) else s
  else if isFar o then
    if !past then s
    else if (s.sideLane (o.id - 1)).isNone then (swap s { o with ans := some (0, .fault), due := s.cyc, lost := none }).once s.time.real (.cmxResponse (masterOf o.req.m))
    else (swap s { o with lost := some s.time.fc }).later .wall 1024 (.controlAccessTimeout (masterOf o.req.m))
  else if past || s.lostFenced (o.req.la % 2 ^ 29) then
    (swap s { o with ans := some (0, .fault), due := s.cyc, lost := none }).once s.time.real (.cmxResponse (masterOf o.req.m))
  else s

/-- CONTROL_ACCESS_TIMEOUT (R244): an access that its station has left unanswered for 1024 fc is answered zero with FAULT. -/
def execControlAccessTimeout (m : Master) (s : State) : Host.Outcome State Fault Refusal :=
  .next ((s.cmx.out.filter (fun o => decide (o.req.m % 16 = masterIdx m) && o.lost.isSome)).foldl (fun s o => s.lostEnd o) s)

/-! Control accesses at their registers -/

/-- A control access of a master as RGS performs it, its answer presented at once; one that its station leaves unanswered stays
outstanding. A die that does not exist is a decode miss (R48); the registers of another die are that die's (R46). While RGS is locked it
waits at the control matrix (R420, R422). A masked master presents none, nor a halted core (R424, R487). -/
def State.ctlAccess (s : State) (m : Master) (ca : W32) (write : Bool) (v : W32) : State :=
  let i := masterIdx m
  let a := ca.toNat % 2 ^ 29
  let la := 0x40000000 + a
  let q : CmxReq := { m := i, tgt := 3, write := write, lock := false, la := la, str := 0xFF, dat := laneOfWord la v, rel := some s.cyc }
  if s.mMasked i || s.halts i || (decide (ca.toNat / 2 ^ 29 ≠ s.die) && decide (ca.toNat / 2 ^ 29 < s.dies)) then s
  else if s.notAwake q then s.respond { req := q, id := 0, ans := none, due := 0, lost := none } (0, .asleep)
  else if decide (ca.toNat / 2 ^ 29 ≠ s.die) || (s.caDecode a).isNone then
    (s.decodeMiss (masterReq m) 4 ca.toNat).respond { req := q, id := 0, ans := none, due := 0, lost := none } (0, .zero)
  else if s.cmx.locks.any (fun l => decide (l.1 = 3) && decide (l.2.2 < 2 ^ 32)) = true then s.presentReq { q with tgt := 4, rel := none }
  else
    let r := s.controlServe { req := q, id := 0, ans := none, due := 0, lost := none } a i
    match r.2.ans with
    | some x => r.1.respond { r.2 with req := { q with write := false } } x
    | none => { r.1 with cmx := { r.1.cmx with out := r.1.cmx.out ++ [r.2] } }

/-- REGISTER_WRITE (R10 to R13). -/
def execRegisterWrite (m : Master) (ca : W32) (v : W32) (s : State) : Host.Outcome State Fault Refusal := .next (s.ctlAccess m ca true v)

/-- RC_READ (R11): the value before clearing. -/
def execRcRead (m : Master) (ca : W32) (s : State) : Host.Outcome State Fault Refusal := .next (s.ctlAccess m ca false 0)

/-- LO_READ_LATCH (R14, R16): the upper half is latched for the master. -/
def execLoReadLatch (m : Master) (ca : W32) (s : State) : Host.Outcome State Fault Refusal := .next (s.ctlAccess m ca false 0)

/-- PAIR_LO_WRITE (R15, R16): held for the master. -/
def execPairLoWrite (m : Master) (ca : W32) (v : W32) (s : State) : Host.Outcome State Fault Refusal := .next (s.ctlAccess m ca true v)

/-- PAIR_HI_WRITE (R15): the pair takes effect as one value. -/
def execPairHiWrite (m : Master) (ca : W32) (v : W32) (s : State) : Host.Outcome State Fault Refusal := .next (s.ctlAccess m ca true v)

end Sys2Proof.Machine
end

