-- ==== Sys2Proof/Machine/Dispatch.lean ====
section
/-! DEFINITION. The one table from commands to meanings: an arm for each constructor of `Instr`, each a direct call. -/
namespace Sys2Proof.Machine

/-- The effect of a command on everything but the queue. -/
def exec (i : Instr) (s : State) : Host.Outcome State Fault Refusal :=
  match i with
  | .registerWrite m ca v => Sys2Proof.Machine.execRegisterWrite m ca v s
  | .rcRead m ca => Sys2Proof.Machine.execRcRead m ca s
  | .loReadLatch m ca => Sys2Proof.Machine.execLoReadLatch m ca s
  | .pairLoWrite m ca v => Sys2Proof.Machine.execPairLoWrite m ca v s
  | .pairHiWrite m ca v => Sys2Proof.Machine.execPairHiWrite m ca v s
  | .cmapCtlWrite m v => Sys2Proof.Machine.execCmapCtlWrite m v s
  | .cmapEntryWrite m g n v => Sys2Proof.Machine.execCmapEntryWrite m g n v s
  | .setFlitHop id => Sys2Proof.Machine.execSetFlitHop id s
  | .flitArrival id => Sys2Proof.Machine.execFlitArrival id s
  | .landingRelease cab id => Sys2Proof.Machine.execLandingRelease cab id s
  | .freezeStart src => Sys2Proof.Machine.execFreezeStart src s
  | .freezeFinish src => Sys2Proof.Machine.execFreezeFinish src s
  | .frzReqChange level => Sys2Proof.Machine.execFrzReqChange level s
  | .frzCtlWrite m v => Sys2Proof.Machine.execFrzCtlWrite m v s
  | .freezeBeginMark lane origin seq => Sys2Proof.Machine.execFreezeBeginMark lane origin seq s
  | .freezeEndMark lane origin seq => Sys2Proof.Machine.execFreezeEndMark lane origin seq s
  | .stepMark ctx rpl => Sys2Proof.Machine.execStepMark ctx rpl s
  | .stepRelease ctx => Sys2Proof.Machine.execStepRelease ctx s
  | .replayNotice lane ctx attempt r => Sys2Proof.Machine.execReplayNotice lane ctx attempt r s
  | .replayRestart ctx => Sys2Proof.Machine.execReplayRestart ctx s
  | .sbcOpenWrite cab entry base limit count => Sys2Proof.Machine.execSbcOpenWrite cab entry base limit count s
  | .sbcOpenRead cab entry base limit count => Sys2Proof.Machine.execSbcOpenRead cab entry base limit count s
  | .sbcClose cab entry => Sys2Proof.Machine.execSbcClose cab entry s
  | .rangeHoldEnd cab entry => Sys2Proof.Machine.execRangeHoldEnd cab entry s
  | .heldAccessRelease cab port => Sys2Proof.Machine.execHeldAccessRelease cab port s
  | .sbdModeWrite m cab v => Sys2Proof.Machine.execSbdModeWrite m cab v s
  | .wrpLookahead cab grp => Sys2Proof.Machine.execWrpLookahead cab grp s
  | .wrpIssue cab addr dly => Sys2Proof.Machine.execWrpIssue cab addr dly s
  | .wrpDelivery cab perr => Sys2Proof.Machine.execWrpDelivery cab perr s
  | .remoteReadInject cab id => Sys2Proof.Machine.execRemoteReadInject cab id s
  | .wwpLookahead cab grp => Sys2Proof.Machine.execWwpLookahead cab grp s
  | .wwpIssue cab addr data dly perr => Sys2Proof.Machine.execWwpIssue cab addr data dly perr s
  | .wwpResponse cab => Sys2Proof.Machine.execWwpResponse cab s
  | .remoteWriteInject cab id => Sys2Proof.Machine.execRemoteWriteInject cab id s
  | .landingLookahead cab grp => Sys2Proof.Machine.execLandingLookahead cab grp s
  | .npRequest cab port we addr be data tag => Sys2Proof.Machine.execNpRequest cab port we addr be data tag s
  | .npCompletion cab port perr => Sys2Proof.Machine.execNpCompletion cab port perr s
  | .hfpPush cab f data first last perr => Sys2Proof.Machine.execHfpPush cab f data first last perr s
  | .hfpPop cab f perr => Sys2Proof.Machine.execHfpPop cab f perr s
  | .hfpDrop cab f => Sys2Proof.Machine.execHfpDrop cab f s
  | .presentChange port level => Sys2Proof.Machine.execPresentChange port level s
  | .pairArbitration cab pair => Sys2Proof.Machine.execPairArbitration cab pair s
  | .looseBurstDone cab pair => Sys2Proof.Machine.execLooseBurstDone cab pair s
  | .requestUrgent cab pair => Sys2Proof.Machine.execRequestUrgent cab pair s
  | .arbPrioWrite m cab v => Sys2Proof.Machine.execArbPrioWrite m cab v s
  | .arbAgeWrite m cab v => Sys2Proof.Machine.execArbAgeWrite m cab v s
  | .arbCntClr m cab v => Sys2Proof.Machine.execArbCntClr m cab v s
  | .linkOutputGrant cab out => Sys2Proof.Machine.execLinkOutputGrant cab out s
  | .looseFlitHop id => Sys2Proof.Machine.execLooseFlitHop id s
  | .autoRetire cab bank mac => Sys2Proof.Machine.execAutoRetire cab bank mac s
  | .retireWrite m cab bank v => Sys2Proof.Machine.execRetireWrite m cab bank v s
  | .bucketDrip cab => Sys2Proof.Machine.execBucketDrip cab s
  | .bktCfgWrite m cab v => Sys2Proof.Machine.execBktCfgWrite m cab v s
  | .injCtlWrite m cab v => Sys2Proof.Machine.execInjCtlWrite m cab v s
  | .bnkCntClr m cab v => Sys2Proof.Machine.execBnkCntClr m cab v s
  | .swpGo m cab v => Sys2Proof.Machine.execSwpGo m cab v s
  | .sweepRangeDone cab => Sys2Proof.Machine.execSweepRangeDone cab s
  | .logAck m k v => Sys2Proof.Machine.execLogAck m k v s
  | .logClrAll m k v => Sys2Proof.Machine.execLogClrAll m k v s
  | .assayGo m cab v => Sys2Proof.Machine.execAssayGo m cab v s
  | .assayBurst cab => Sys2Proof.Machine.execAssayBurst cab s
  | .assayRepair cab => Sys2Proof.Machine.execAssayRepair cab s
  | .assayAbort m cab v => Sys2Proof.Machine.execAssayAbort m cab v s
  | .assayDone cab => Sys2Proof.Machine.execAssayDone cab s
  | .remapAdd m cab v => Sys2Proof.Machine.execRemapAdd m cab v s
  | .remapMove cab => Sys2Proof.Machine.execRemapMove cab s
  | .fenceCmd m v => Sys2Proof.Machine.execFenceCmd m v s
  | .fencePendClear m k v => Sys2Proof.Machine.execFencePendClear m k v s
  | .fenceTakeEffect cab => Sys2Proof.Machine.execFenceTakeEffect cab s
  | .fenceQuench cab => Sys2Proof.Machine.execFenceQuench cab s
  | .stationPoll cab answered => Sys2Proof.Machine.execStationPoll cab answered s
  | .pollMissed cab => Sys2Proof.Machine.execPollMissed cab s
  | .controlAccessTimeout m => Sys2Proof.Machine.execControlAccessTimeout m s
  | .detWrite m n v => Sys2Proof.Machine.execDetWrite m n v s
  | .engineSignal cab cn inc drain => Sys2Proof.Machine.execEngineSignal cab cn inc drain s
  | .waitRegister cab id ctr exp => Sys2Proof.Machine.execWaitRegister cab id ctr exp s
  | .waitCancel cab id => Sys2Proof.Machine.execWaitCancel cab id s
  | .signalLeave id => Sys2Proof.Machine.execSignalLeave id s
  | .signalBridgeRelease id => Sys2Proof.Machine.execSignalBridgeRelease id s
  | .signalApply id => Sys2Proof.Machine.execSignalApply id s
  | .waiterFire cab k => Sys2Proof.Machine.execWaiterFire cab k s
  | .shadowUpdate g => Sys2Proof.Machine.execShadowUpdate g s
  | .counterBind m sel v => Sys2Proof.Machine.execCounterBind m sel v s
  | .counterUnbind m sel v => Sys2Proof.Machine.execCounterUnbind m sel v s
  | .quietEnd sel => Sys2Proof.Machine.execQuietEnd sel s
  | .wakeEnWrite m sel v => Sys2Proof.Machine.execWakeEnWrite m sel v s
  | .synSignalWrite m cab v => Sys2Proof.Machine.execSynSignalWrite m cab v s
  | .setKeyWrite m cab v => Sys2Proof.Machine.execSetKeyWrite m cab v s
  | .setPathTimeout cab => Sys2Proof.Machine.execSetPathTimeout cab s
  | .counterSet m cab v => Sys2Proof.Machine.execCounterSet m cab v s
  | .dumpGo m v => Sys2Proof.Machine.execDumpGo m v s
  | .runnerListGo m cab r v => Sys2Proof.Machine.execRunnerListGo m cab r v s
  | .descriptorFetch cab r => Sys2Proof.Machine.execDescriptorFetch cab r s
  | .descriptorStart cab r => Sys2Proof.Machine.execDescriptorStart cab r s
  | .copy cab r => Sys2Proof.Machine.execCopy cab r s
  | .fill cab r => Sys2Proof.Machine.execFill cab r s
  | .gather cab r => Sys2Proof.Machine.execGather cab r s
  | .scatter cab r => Sys2Proof.Machine.execScatter cab r s
  | .mcast cab r => Sys2Proof.Machine.execMcast cab r s
  | .fuse cab r => Sys2Proof.Machine.execFuse cab r s
  | .engine cab r => Sys2Proof.Machine.execEngine cab r s
  | .wait cab r => Sys2Proof.Machine.execWait cab r s
  | .signal cab r => Sys2Proof.Machine.execSignal cab r s
  | .sweep cab r => Sys2Proof.Machine.execSweep cab r s
  | .nop cab r => Sys2Proof.Machine.execNop cab r s
  | .segmentPresent cab r => Sys2Proof.Machine.execSegmentPresent cab r s
  | .segmentAnswer cab r => Sys2Proof.Machine.execSegmentAnswer cab r s
  | .descriptorComplete cab r => Sys2Proof.Machine.execDescriptorComplete cab r s
  | .listComplete cab r => Sys2Proof.Machine.execListComplete cab r s
  | .cmplPop m cab r v => Sys2Proof.Machine.execCmplPop m cab r v s
  | .runnerAbort m cab r v => Sys2Proof.Machine.execRunnerAbort m cab r v s
  | .abortComplete cab r => Sys2Proof.Machine.execAbortComplete cab r s
  | .waitTimeout cab r => Sys2Proof.Machine.execWaitTimeout cab r s
  | .handoverGrant cab => Sys2Proof.Machine.execHandoverGrant cab s
  | .reservationAged cab r => Sys2Proof.Machine.execReservationAged cab r s
  | .runnerWatchdog cab r => Sys2Proof.Machine.execRunnerWatchdog cab r s
  | .esgAck cab => Sys2Proof.Machine.execEsgAck cab s
  | .esgDone cab r => Sys2Proof.Machine.execEsgDone cab r s
  | .stagePush cab r => Sys2Proof.Machine.execStagePush cab r s
  | .stagePop cab r => Sys2Proof.Machine.execStagePop cab r s
  | .mcastAck cab r rx => Sys2Proof.Machine.execMcastAck cab r rx s
  | .mcastLapse cab r rx => Sys2Proof.Machine.execMcastLapse cab r rx s
  | .stealLook cab r => Sys2Proof.Machine.execStealLook cab r s
  | .stealArrive cab r => Sys2Proof.Machine.execStealArrive cab r s
  | .fifoItemFall cab f => Sys2Proof.Machine.execFifoItemFall cab f s
  | .fifoNoticeSend cab f => Sys2Proof.Machine.execFifoNoticeSend cab f s
  | .hffFlush m cab v => Sys2Proof.Machine.execHffFlush m cab v s
  | .hffCfgWrite m cab f v => Sys2Proof.Machine.execHffCfgWrite m cab f v s
  | .ctxActivate m c => Sys2Proof.Machine.execCtxActivate m c s
  | .ctxDeactivate m c => Sys2Proof.Machine.execCtxDeactivate m c s
  | .ctxBind m c => Sys2Proof.Machine.execCtxBind m c s
  | .ctxKill m c => Sys2Proof.Machine.execCtxKill m c s
  | .killQuiesceEnd c => Sys2Proof.Machine.execKillQuiesceEnd c s
  | .killUnbind c => Sys2Proof.Machine.execKillUnbind c s
  | .eagWrite m p v => Sys2Proof.Machine.execEagWrite m p v s
  | .windowBind m w c => Sys2Proof.Machine.execWindowBind m w c s
  | .windowUnbind m w c => Sys2Proof.Machine.execWindowUnbind m w c s
  | .windowRelease m w c => Sys2Proof.Machine.execWindowRelease m w c s
  | .windowCloseSettle w => Sys2Proof.Machine.execWindowCloseSettle w s
  | .windowSweepDone w => Sys2Proof.Machine.execWindowSweepDone w s
  | .cmxRequest m write laddr strobes data => Sys2Proof.Machine.execCmxRequest m write laddr strobes data s
  | .targetArbitration t => Sys2Proof.Machine.execTargetArbitration t s
  | .cmxResponse m => Sys2Proof.Machine.execCmxResponse m s
  | .lockedRead m laddr strobes => Sys2Proof.Machine.execLockedRead m laddr strobes s
  | .mgtRemapWrite m core v => Sys2Proof.Machine.execMgtRemapWrite m core v s
  | .doorbell m v => Sys2Proof.Machine.execDoorbell m v s
  | .sqNop ix => Sys2Proof.Machine.execSqNop ix s
  | .sqActivate ix => Sys2Proof.Machine.execSqActivate ix s
  | .sqDeactivate ix => Sys2Proof.Machine.execSqDeactivate ix s
  | .sqBind ix => Sys2Proof.Machine.execSqBind ix s
  | .sqKill ix => Sys2Proof.Machine.execSqKill ix s
  | .sqWindow ix => Sys2Proof.Machine.execSqWindow ix s
  | .sqRun ix => Sys2Proof.Machine.execSqRun ix s
  | .sqSync ix => Sys2Proof.Machine.execSqSync ix s
  | .sqFifo ix => Sys2Proof.Machine.execSqFifo ix s
  | .sqAssay ix => Sys2Proof.Machine.execSqAssay ix s
  | .sqFence ix => Sys2Proof.Machine.execSqFence ix s
  | .sqRemap ix => Sys2Proof.Machine.execSqRemap ix s
  | .sqRetire ix => Sys2Proof.Machine.execSqRetire ix s
  | .sqOppoint ix => Sys2Proof.Machine.execSqOppoint ix s
  | .sqPstate ix => Sys2Proof.Machine.execSqPstate ix s
  | .sqStage ix sigOk => Sys2Proof.Machine.execSqStage ix sigOk s
  | .sqFwact ix => Sys2Proof.Machine.execSqFwact ix s
  | .sqLogown ix => Sys2Proof.Machine.execSqLogown ix s
  | .sqDump ix => Sys2Proof.Machine.execSqDump ix s
  | .completionPost core => Sys2Proof.Machine.execCompletionPost core s
  | .eventPost core => Sys2Proof.Machine.execEventPost core s
  | .hintSet m v => Sys2Proof.Machine.execHintSet m v s
  | .hintStatClear m v => Sys2Proof.Machine.execHintStatClear m v s
  | .wdtKick m core v => Sys2Proof.Machine.execWdtKick m core v s
  | .watchdogExpiry core => Sys2Proof.Machine.execWatchdogExpiry core s
  | .coreRestart core cause => Sys2Proof.Machine.execCoreRestart core cause s
  | .coreRelease core => Sys2Proof.Machine.execCoreRelease core s
  | .restartKickTimeout core => Sys2Proof.Machine.execRestartKickTimeout core s
  | .mgtRestartWrite m v => Sys2Proof.Machine.execMgtRestartWrite m v s
  | .mgtActWrite m v => Sys2Proof.Machine.execMgtActWrite m v s
  | .probationEnd role => Sys2Proof.Machine.execProbationEnd role s
  | .recovery m v => Sys2Proof.Machine.execRecovery m v s
  | .selfHalt m v => Sys2Proof.Machine.execSelfHalt m v s
  | .resume m v => Sys2Proof.Machine.execResume m v s
  | .cabCmdRun m cab => Sys2Proof.Machine.execCabCmdRun m cab s
  | .cabCmdDoze m cab => Sys2Proof.Machine.execCabCmdDoze m cab s
  | .cabCmdHold m cab => Sys2Proof.Machine.execCabCmdHold m cab s
  | .cabCmdQuench m cab => Sys2Proof.Machine.execCabCmdQuench m cab s
  | .entryDrainEnd cab => Sys2Proof.Machine.execEntryDrainEnd cab s
  | .drainTimeout cab => Sys2Proof.Machine.execDrainTimeout cab s
  | .entryCommitEnd cab => Sys2Proof.Machine.execEntryCommitEnd cab s
  | .dozeWakeDone cab => Sys2Proof.Machine.execDozeWakeDone cab s
  | .wakePowerDone cab => Sys2Proof.Machine.execWakePowerDone cab s
  | .dieSleep m v => Sys2Proof.Machine.execDieSleep m v s
  | .opChange m v => Sys2Proof.Machine.execOpChange m v s
  | .dieOpChange target => Sys2Proof.Machine.execDieOpChange target s
  | .opChangeDone die result => Sys2Proof.Machine.execOpChangeDone die result s
  | .emergSet m v => Sys2Proof.Machine.execEmergSet m v s
  | .emergClr m v => Sys2Proof.Machine.execEmergClr m v s
  | .droopStretch regions skew => Sys2Proof.Machine.execDroopStretch regions skew s
  | .timSet m v => Sys2Proof.Machine.execTimSet m v s
  | .beaconReceive lane value h => Sys2Proof.Machine.execBeaconReceive lane value h s
  | .wireSlotReceive lane slot crcOk => Sys2Proof.Machine.execWireSlotReceive lane slot crcOk s
  | .nakReceive lane seq => Sys2Proof.Machine.execNakReceive lane seq s
  | .slotDelivery lane => Sys2Proof.Machine.execSlotDelivery lane s
  | .bridgeLate lane => Sys2Proof.Machine.execBridgeLate lane s
  | .laneSilent lane => Sys2Proof.Machine.execLaneSilent lane s
  | .laneDownNotice lane origin seq => Sys2Proof.Machine.execLaneDownNotice lane origin seq s
  | .laneTrain m lane => Sys2Proof.Machine.execLaneTrain m lane s
  | .laneOff m lane => Sys2Proof.Machine.execLaneOff m lane s
  | .trainDone lane modules => Sys2Proof.Machine.execTrainDone lane modules s
  | .drouteWrite m v => Sys2Proof.Machine.execDrouteWrite m v s
  | .edgeHello k pkt => Sys2Proof.Machine.execEdgeHello k pkt s
  | .edgeKeepalive k pkt => Sys2Proof.Machine.execEdgeKeepalive k pkt s
  | .edgeWrite k pkt => Sys2Proof.Machine.execEdgeWrite k pkt s
  | .edgeInc k pkt => Sys2Proof.Machine.execEdgeInc k pkt s
  | .edgeRead k pkt => Sys2Proof.Machine.execEdgeRead k pkt s
  | .edgeAck k pkt => Sys2Proof.Machine.execEdgeAck k pkt s
  | .edgeReadRsp k pkt => Sys2Proof.Machine.execEdgeReadRsp k pkt s
  | .quarantineWindow p => Sys2Proof.Machine.execQuarantineWindow p s
  | .edgeLinkUp k => Sys2Proof.Machine.execEdgeLinkUp k s
  | .edgeLinkDown k => Sys2Proof.Machine.execEdgeLinkDown k s
  | .helloRepeat k => Sys2Proof.Machine.execHelloRepeat k s
  | .keepaliveSend p => Sys2Proof.Machine.execKeepaliveSend p s
  | .partnerTimeout p => Sys2Proof.Machine.execPartnerTimeout p s
  | .edgePut k => Sys2Proof.Machine.execEdgePut k s
  | .edgeGet k => Sys2Proof.Machine.execEdgeGet k s
  | .edgeIncCmd k => Sys2Proof.Machine.execEdgeIncCmd k s
  | .edgePacketTimeout k => Sys2Proof.Machine.execEdgePacketTimeout k s
  | .txRspTimeout k => Sys2Proof.Machine.execTxRspTimeout k s
  | .partnerKeyGo m p v => Sys2Proof.Machine.execPartnerKeyGo m p v s
  | .partnerClear m p v => Sys2Proof.Machine.execPartnerClear m p v s
  | .edgeEnWrite m k v => Sys2Proof.Machine.execEdgeEnWrite m k v s
  | .edgeWake k => Sys2Proof.Machine.execEdgeWake k s
  | .powerOnReset sfdpOk sigOk => Sys2Proof.Machine.execPowerOnReset sfdpOk sigOk s
  | .bistStageEnd found => Sys2Proof.Machine.execBistStageEnd found s
  | .bootLock m v => Sys2Proof.Machine.execBootLock m v s
  | .stimeSync m v => Sys2Proof.Machine.execStimeSync m v s
  | .startMarkReceive lane st h => Sys2Proof.Machine.execStartMarkReceive lane st h s
  | .roundMessage lane die mark => Sys2Proof.Machine.execRoundMessage lane die mark s
  | .hdpRequest we addr be data ctx tag => Sys2Proof.Machine.execHdpRequest we addr be data ctx tag s
  | .dbgAccUpdate write go strobes laddr data => Sys2Proof.Machine.execDbgAccUpdate write go strobes laddr data s
  | .debugHalt m v => Sys2Proof.Machine.execDebugHalt m v s
  | .edgeMalformedPacket k pkt => Sys2Proof.Machine.execEdgeMalformedPacket k pkt s
  | .mapRebuild => Sys2Proof.Machine.execMapRebuild s
  | .ueWindowReset => Sys2Proof.Machine.execUeWindowReset s
  | .dumpDone => Sys2Proof.Machine.execDumpDone s
  | .submissionTake => Sys2Proof.Machine.execSubmissionTake s
  | .activationStart => Sys2Proof.Machine.execActivationStart s
  | .dieSleepCommitEnd => Sys2Proof.Machine.execDieSleepCommitEnd s
  | .rtcAlarmRise => Sys2Proof.Machine.execRtcAlarmRise s
  | .rtcAlarmFall => Sys2Proof.Machine.execRtcAlarmFall s
  | .thermTrip => Sys2Proof.Machine.execThermTrip s
  | .thermTripRelease => Sys2Proof.Machine.execThermTripRelease s
  | .dieWakeDone => Sys2Proof.Machine.execDieWakeDone s
  | .vidAckToggle => Sys2Proof.Machine.execVidAckToggle s
  | .vidTimeout => Sys2Proof.Machine.execVidTimeout s
  | .leaveGrant => Sys2Proof.Machine.execLeaveGrant s
  | .clampFreeze => Sys2Proof.Machine.execClampFreeze s
  | .powerEstimate => Sys2Proof.Machine.execPowerEstimate s
  | .clampEmergency => Sys2Proof.Machine.execClampEmergency s
  | .compensatingStretch => Sys2Proof.Machine.execCompensatingStretch s
  | .beaconSend => Sys2Proof.Machine.execBeaconSend s
  | .beaconLoss => Sys2Proof.Machine.execBeaconLoss s
  | .porstFall => Sys2Proof.Machine.execPorstFall s
  | .hallmarkRound => Sys2Proof.Machine.execHallmarkRound s
  | .hdpCompletion => Sys2Proof.Machine.execHdpCompletion s
  | .tapIdcode => Sys2Proof.Machine.execTapIdcode s
  | .tapIjtag => Sys2Proof.Machine.execTapIjtag s
  | .tapBypass => Sys2Proof.Machine.execTapBypass s
  | .debugSessionOpen => Sys2Proof.Machine.execDebugSessionOpen s
  | .debugSessionClose => Sys2Proof.Machine.execDebugSessionClose s
  | .dbgAccCapture => Sys2Proof.Machine.execDbgAccCapture s
  | .hallmarkComputationEnd => Sys2Proof.Machine.execHallmarkComputationEnd s
  | .recoveryStart => Sys2Proof.Machine.execRecoveryStart s

end Sys2Proof.Machine
end

