-- ==== Sys2Proof/Machine/Tick.lean ====
section
/-! DEFINITION. What happens when no command waits: effects that have fallen due join the queue, or time passes to the next of them or
to the end of the present fc (R7, R68, R74, R208, R505, R506, R508). -/
namespace Sys2Proof.Machine

/-! Effects that fall due -/

/-- Order among effects due at one moment: freezes decide what the fc is; the check of an entry finds what is in force at the start of
its fc (R479); then inputs and movements that later effects see; stages of runners; deliveries, and the completion of lists and kills; what port HFP presents last (R363). -/
def dueRank (i : Instr) : Nat :=
  match i with
  | .freezeStart _ => 0
  | .freezeFinish _ => 0
  | .cabCmdRun _ _ => 1
  | .cabCmdDoze _ _ => 1
  | .cabCmdHold _ _ => 1
  | .cabCmdQuench _ _ => 1
  | .presentChange _ _ => 2
  | .dumpDone => 2
  | .replayRestart _ => 2
  | .waiterFire _ _ => 2
  | .fifoItemFall _ _ => 2
  | .looseBurstDone _ _ => 2
  | .assayRepair _ => 2
  | .remapMove _ => 2
  | .pairArbitration _ _ => 4
  | .mcastAck _ _ _ => 4
  | .mcastLapse _ _ _ => 4
  | .stagePush _ _ => 4
  | .stagePop _ _ => 4
  | .killQuiesceEnd _ => 5
  | .killUnbind _ => 5
  | .listComplete _ _ => 5
  | .wrpDelivery _ _ => 5
  | .linkOutputGrant _ _ => 5
  | .bridgeLate _ => 5
  | .hfpPush _ _ _ _ _ _ => 6
  | .hfpPop _ _ _ => 6
  | .hfpDrop _ _ => 6
  | _ => 3

/-- Is the command a drip? Drips occur whenever fabric time reaches their multiple (R197). -/
def isDrip (i : Instr) : Bool :=
  match i with
  | .bucketDrip _ => true
  | _ => false

/-- Has an effect fallen due? Those of unfrozen and schedule time wait through a frozen fc (R74), and while the fast clocks are stopped
for die sleep only those of wall time run (R489), and drips. -/
def State.isDue (s : State) (d : Due) : Bool :=
  decide (d.due ≤ s.clock d.clk) &&
    (match d.clk with
    | .real => true
    | .wall => !s.dieAsleep
    | .fab => !s.dieAsleep || isDrip d.cmd
    | .unfz => !s.dieAsleep && !s.frozen
    | .sched => !s.dieAsleep && !s.frozen)

/-- The effects that join the queue now: of those due, the ones of the lowest rank. -/
def State.dueNow (s : State) : List Due :=
  let due := s.agenda.filter s.isDue
  let low := due.foldl (fun n d => min n (dueRank d.cmd)) 6
  due.filter (fun d => decide (dueRank d.cmd = low))

/-! The passing of time -/

/-- Are the region generators running? (R505) -/
def State.fastOn (s : State) : Bool := s.bit (R.CLK_REG_STAT_RUN 0)

/-- A new fc begins: its period, half as long again when it is stretched (R506). A stretch counts in every region there is and in S (R25, R540). -/
def State.newFc (s : State) : State :=
  if s.time.stretch.contains s.time.fc then
    let s := { s with time := { s.time with left := s.fcUnits * 3 / 2, stretch := s.time.stretch.filter (fun t => decide (t ≠ s.time.fc)) } }
    s.clkRegions.foldl (fun s k => s.inc (R.CLK_STR_CNT_COUNT k)) (s.put R.BRG_STR_S (s.f R.BRG_STR_S + 1))
  else { s with time := { s.time with left := s.fcUnits } }

/-- Requesters with a request waiting in a cabinet count this fc (R175). -/
def State.countWaits (s : State) : State :=
  s.loose.pairs.foldl (fun (a : State × List Nat) e =>
    e.2.queue.foldl (fun (a : State × List Nat) q =>
      let k := e.1 / 16 * 16 + q.acc.req
      if ((q.presented && decide (q.since ≤ s.time.ufc)) || decide (q.shown = s.time.ufc + 1)) && !a.2.contains k then (a.1.inc (R.ARB_WAIT_COUNT (e.1 / 16) q.acc.req), k :: a.2) else a) a) (s, []) |>.1

/-- A frozen fc is counted (R82). -/
def State.countFrozen (s : State) : State :=
  { s.setPair R.LCT_FRZ_TOTAL_LO R.LCT_FRZ_TOTAL_HI (s.pair R.LCT_FRZ_TOTAL_LO R.LCT_FRZ_TOTAL_HI + 1) with frz := { s.frz with run := s.frz.run + 1 } }

/-- Idle runners look for work to steal every 16 unfrozen fc, while there is any (R350). -/
def State.looks (s : State) : State :=
  if s.time.ufc % 16 = 0 ∧ s.runners.any (fun e => decide (2 ≤ (openDescs e.2).length)) = true then
    (s.cabs.filter (fun p => (s.victim p).isSome)).foldl (fun s p =>
      (List.range 4).foldl (fun s r => if idleRunner (s.runner p r) then s.later .unfz 0 (.stealLook (Fin.ofNat 128 p) (Fin.ofNat 4 r)) else s) s) s
  else s

/-- Drips that fall due with the end of the fc come before its corrections (R197). -/
def State.dripsDue (s : State) : State :=
  let due := s.agenda.filter (fun d => s.isDue d && isDrip d.cmd)
  due.foldl (fun s d => match d.cmd with
    | .bucketDrip c => ran s (execBucketDrip c s)
    | _ => s) { s with agenda := s.agenda.filter (fun d => !(s.isDue d && isDrip d.cmd)) }

/-- Bursts that DBG abandoned on the last fc count on this one (R161). -/
def State.countCut (s : State) : State :=
  s.loose.cut.foldl (fun s p => s.incOn (R.ARB_PREEMPT_COUNT p) s.time.fc) { s with loose := { s.loose with cut := [] } }

/-- A fast-clock period has elapsed: its nominal length counts in a read until the next AO cycle, half of it while fabric time runs at half rate
(R508, R509). -/
def State.partUp (s : State) : State :=
  let p := if s.time.slow = 0 then s.fcUnits else s.fcUnits / 2
  { s with time := { s.time with part := max s.time.part (min (s.time.part + p) (s.time.now - s.time.ao)) } }

/-- An fc ends: its errors are entered (R208), its counts taken, its slots sent, and the next one begins; schedule time advances when
it was not frozen (R68). -/
def State.endFc (s : State) : State :=
  let s := s.enterAll
  let s := if s.logsWait then s.arm .wall 1 (.eventPost 0) else s
  let hold := s.frozen
  let s := (if hold then s.countFrozen else s.countWaits).holdPops
  let s := s.sendSlots
  let s := { s with time := { s.time with fc := s.time.fc + 1, ufc := if hold then s.time.ufc else s.time.ufc + 1, stime := if hold then s.time.stime else s.time.stime + 1 } }
  let s := s.partUp.countCut.dripsDue
  if hold then s else s.commitSet.looks

/-- Wall time until fabric time has advanced by `n`: it runs at half rate while it is ahead of the beacons (R509). -/
def State.fabReal (s : State) (n : Nat) : Nat := if n ≤ s.time.slow then 2 * n else n + s.time.slow

/-- Wall time to the next effect on a clock that does not count fc; at most `n`. -/
def State.untilDue (s : State) (n : Nat) : Nat :=
  s.agenda.foldl (fun n d =>
    match d.clk with
    | .real => if s.time.real < d.due then min n (d.due - s.time.real) else n
    | .fab => if s.time.now < d.due ∧ (s.dieAsleep = false ∨ isDrip d.cmd = true) then min n (s.fabReal (d.due - s.time.now)) else n
    | .wall => n
    | .unfz => n
    | .sched => n) n

/-- Wall time and fabric time advance (R508, R509). AO cycles begin at the multiples of 40 ns of wall time; each corrects what a read adds up. -/
def State.pass (s : State) (n : Nat) : State :=
  let d := min s.time.slow (n / 2)
  let r := s.time.real + n
  let now := s.time.now + (n - d)
  let since := if s.time.slow = d then r % ns 40 else r % ns 40 / 2
  let t := { s.time with real := r, now := now, slow := s.time.slow - d }
  { s with time := if r / ns 40 = s.time.real / ns 40 then t else { t with ao := max (s.time.ao + s.time.part) (now - since), part := 0 } }

/-- Time passes: to the end of the present fc or to an effect within it; with the fast clocks stopped by a cycle of the AO clock in die
sleep, of the management clock otherwise. -/
def State.tick (s : State) : State :=
  if s.fastOn then
    let s := if s.time.left = 0 then s.newFc else s
    let n := s.untilDue s.time.left
    let s := s.pass n
    let s := { s with time := { s.time with left := s.time.left - n } }
    if s.time.left = 0 then s.endFc else s
  else s.pass (s.untilDue (if s.dieAsleep then ns 40 else ns 1))

/-- What a step does with no command waiting. -/
def State.idle (s : State) : State :=
  let due := s.dueNow
  if due.isEmpty then s.tick
  else
    let low := due.foldl (fun n d => min n (dueRank d.cmd)) 6
    { s with agenda := s.agenda.filter (fun d => !(s.isDue d && decide (dueRank d.cmd = low))), pending := due.map (fun d => d.cmd) }

end Sys2Proof.Machine
end

