-- ==== Sys2Proof/Machine/Touch.lean ====
section
/-! DEFINITION. The parts of the state and the parts each command may change: its frame. The queue of waiting commands and the ties are
changed by no command. -/
namespace Sys2Proof.Machine

/-- The parts of the state beside the queue and the ties, one for each field. -/
inductive Part where
  | agenda | time | regs | mem | valid | freeCtr | detected | events | hiLatch | loHeld | present | presWait | outs | frz | stp | set
  | loose | rep | syn | fifos | runners | pwr | ctx | brg | edg | leave | masked | tx | mgt | cmx | boot | test | counted | hfp
  deriving DecidableEq, Repr

/-- The part is the same in both states. -/
def Part.same (p : Part) (s t : State) : Prop :=
  match p with
  | .agenda => t.agenda = s.agenda
  | .time => t.time = s.time
  | .regs => t.regs = s.regs
  | .mem => t.mem = s.mem
  | .valid => t.valid = s.valid
  | .freeCtr => t.freeCtr = s.freeCtr
  | .detected => t.detected = s.detected
  | .events => t.events = s.events
  | .hiLatch => t.hiLatch = s.hiLatch
  | .loHeld => t.loHeld = s.loHeld
  | .present => t.present = s.present
  | .presWait => t.presWait = s.presWait
  | .outs => t.outs = s.outs
  | .frz => t.frz = s.frz
  | .stp => t.stp = s.stp
  | .set => t.set = s.set
  | .loose => t.loose = s.loose
  | .rep => t.rep = s.rep
  | .syn => t.syn = s.syn
  | .fifos => t.fifos = s.fifos
  | .runners => t.runners = s.runners
  | .pwr => t.pwr = s.pwr
  | .ctx => t.ctx = s.ctx
  | .brg => t.brg = s.brg
  | .edg => t.edg = s.edg
  | .leave => t.leave = s.leave
  | .masked => t.masked = s.masked
  | .tx => t.tx = s.tx
  | .mgt => t.mgt = s.mgt
  | .cmx => t.cmx = s.cmx
  | .boot => t.boot = s.boot
  | .test => t.test = s.test
  | .counted => t.counted = s.counted
  | .hfp => t.hfp = s.hfp

/-- Every part. -/
def allParts : List Part :=
  [.agenda, .time, .regs, .mem, .valid, .freeCtr, .detected, .events, .hiLatch, .loHeld, .present, .presWait, .outs, .frz, .stp, .set,
   .loose, .rep, .syn, .fifos, .runners, .pwr, .ctx, .brg, .edg, .leave, .masked, .tx, .mgt, .cmx, .boot, .test, .counted, .hfp]

/-- The parts a command may change, its direct effect and whatever that effect sets off in the same moment. -/
def touches (i : Sys2Proof.Instr) : List Part :=
  match i with
  | .registerWrite _ _ _ => [.agenda, .time, .regs, .mem, .freeCtr, .detected, .events, .hiLatch, .loHeld, .outs, .frz, .stp, .set, .loose, .rep, .syn, .fifos, .runners, .pwr, .ctx, .brg, .edg, .leave, .masked, .tx, .mgt, .cmx, .boot, .test, .counted, .hfp]
  | .rcRead _ _ => [.agenda, .time, .regs, .mem, .freeCtr, .detected, .events, .hiLatch, .loHeld, .outs, .frz, .stp, .set, .loose, .rep, .syn, .fifos, .runners, .pwr, .ctx, .brg, .edg, .leave, .masked, .tx, .mgt, .cmx, .boot, .test, .counted, .hfp]
  | .loReadLatch _ _ => [.agenda, .time, .regs, .mem, .freeCtr, .detected, .events, .hiLatch, .loHeld, .outs, .frz, .stp, .set, .loose, .rep, .syn, .fifos, .runners, .pwr, .ctx, .brg, .edg, .leave, .masked, .tx, .mgt, .cmx, .boot, .test, .counted, .hfp]
  | .pairLoWrite _ _ _ => [.agenda, .time, .regs, .mem, .freeCtr, .detected, .events, .hiLatch, .loHeld, .outs, .frz, .stp, .set, .loose, .rep, .syn, .fifos, .runners, .pwr, .ctx, .brg, .edg, .leave, .masked, .tx, .mgt, .cmx, .boot, .test, .counted, .hfp]
  | .pairHiWrite _ _ _ => [.agenda, .time, .regs, .mem, .freeCtr, .detected, .events, .hiLatch, .loHeld, .outs, .frz, .stp, .set, .loose, .rep, .syn, .fifos, .runners, .pwr, .ctx, .brg, .edg, .leave, .masked, .tx, .mgt, .cmx, .boot, .test, .counted, .hfp]
  | .cmapCtlWrite _ _ => [.agenda, .regs, .detected, .outs, .loose, .hfp]
  | .cmapEntryWrite _ _ _ _ => [.agenda, .regs, .detected, .outs, .loose, .hfp]
  | .setFlitHop _ => [.agenda, .regs, .detected, .stp, .set, .syn, .pwr, .tx]
  | .flitArrival _ => [.agenda, .regs, .detected, .stp, .set, .syn]
  | .landingRelease _ _ => [.agenda, .regs, .detected, .stp, .set, .loose, .syn]
  | .freezeStart _ => [.agenda, .regs, .frz, .tx, .mgt]
  | .freezeFinish _ => [.agenda, .regs, .frz, .syn, .tx, .mgt]
  | .frzReqChange _ => [.agenda, .frz]
  | .frzCtlWrite _ _ => [.agenda, .regs, .detected, .frz, .tx]
  | .freezeBeginMark _ _ _ => [.agenda, .frz, .tx]
  | .freezeEndMark _ _ _ => [.agenda, .frz, .tx]
  | .stepMark _ _ => [.agenda, .regs, .detected, .stp, .set, .syn, .runners]
  | .stepRelease _ => [.agenda, .regs, .stp, .syn, .runners]
  | .replayNotice _ _ _ _ => [.agenda, .regs, .freeCtr, .stp, .set, .syn, .runners, .tx]
  | .replayRestart _ => [.agenda, .regs, .freeCtr, .detected, .stp, .set, .syn, .runners, .tx]
  | .sbcOpenWrite _ _ _ _ _ => [.agenda, .regs, .detected, .stp, .set]
  | .sbcOpenRead _ _ _ _ _ => [.agenda, .regs, .detected, .stp, .set]
  | .sbcClose _ _ => [.agenda, .regs, .detected, .stp, .set]
  | .rangeHoldEnd _ _ => [.agenda, .regs, .set]
  | .heldAccessRelease _ _ => [.agenda, .regs, .detected, .stp, .set, .loose, .syn, .tx]
  | .sbdModeWrite _ _ _ => [.agenda, .regs, .detected, .outs, .cmx, .counted]
  | .wrpLookahead _ _ => [.regs, .detected, .set]
  | .wrpIssue _ _ _ => [.agenda, .regs, .detected, .stp, .set, .loose, .syn, .tx]
  | .wrpDelivery _ _ => [.agenda, .regs, .detected, .outs, .stp, .set, .tx]
  | .remoteReadInject _ _ => [.agenda, .regs, .detected, .stp, .set, .syn, .pwr, .tx]
  | .wwpLookahead _ _ => [.regs, .detected, .set]
  | .wwpIssue _ _ _ _ _ => [.agenda, .regs, .detected, .stp, .set, .loose, .syn, .tx]
  | .wwpResponse _ => [.agenda, .regs, .outs, .stp, .set]
  | .remoteWriteInject _ _ => [.agenda, .regs, .detected, .stp, .set, .syn, .pwr, .tx]
  | .landingLookahead _ _ => [.regs, .detected, .set]
  | .npRequest _ _ _ _ _ _ _ => [.agenda, .regs, .detected, .stp, .loose, .syn, .pwr, .tx]
  | .npCompletion _ _ _ => [.agenda, .regs, .detected, .outs, .stp, .loose, .tx]
  | .hfpPush _ _ _ _ _ _ => [.agenda, .regs, .detected, .events, .stp, .fifos, .runners, .tx, .hfp]
  | .hfpPop _ _ _ => [.agenda, .regs, .freeCtr, .detected, .events, .outs, .stp, .fifos, .runners, .tx, .hfp]
  | .hfpDrop _ _ => [.agenda, .regs, .freeCtr, .detected, .events, .outs, .stp, .fifos, .runners, .tx, .hfp]
  | .presentChange _ _ => [.agenda, .regs, .present, .presWait, .outs, .loose, .hfp]
  | .pairArbitration _ _ => [.agenda, .regs, .detected, .loose, .syn, .counted]
  | .looseBurstDone _ _ => [.agenda, .regs, .mem, .valid, .detected, .loose, .rep, .syn, .pwr, .counted]
  | .requestUrgent _ _ => [.loose]
  | .arbPrioWrite _ _ _ => [.agenda, .regs, .detected, .outs, .loose, .cmx, .counted]
  | .arbAgeWrite _ _ _ => [.agenda, .regs, .detected, .outs, .loose, .cmx, .counted]
  | .arbCntClr _ _ _ => [.agenda, .regs, .detected, .outs, .cmx, .counted]
  | .linkOutputGrant _ _ => [.agenda, .loose, .pwr]
  | .looseFlitHop _ => [.agenda, .regs, .detected, .loose, .syn, .pwr, .tx]
  | .autoRetire _ _ _ => [.regs, .detected, .rep]
  | .retireWrite _ _ _ _ => [.agenda, .regs, .detected, .outs, .rep, .cmx, .counted]
  | .bucketDrip _ => [.agenda, .regs]
  | .bktCfgWrite _ _ _ => [.agenda, .regs, .detected, .outs, .cmx, .counted]
  | .injCtlWrite _ _ _ => [.agenda, .regs, .detected, .outs, .cmx, .counted]
  | .bnkCntClr _ _ _ => [.agenda, .regs, .detected, .outs, .cmx, .counted]
  | .swpGo _ _ _ => [.agenda, .regs, .detected, .outs, .loose, .rep, .leave, .cmx, .counted]
  | .sweepRangeDone _ => [.agenda, .regs, .loose, .rep, .leave]
  | .logAck _ _ _ => [.regs, .detected]
  | .logClrAll _ _ _ => [.regs, .detected]
  | .assayGo _ _ _ => [.agenda, .regs, .detected, .outs, .rep, .leave, .cmx, .counted]
  | .assayBurst _ => [.agenda, .loose, .rep]
  | .assayRepair _ => [.agenda, .regs, .mem, .detected, .loose, .rep, .counted]
  | .assayAbort _ _ _ => [.agenda, .regs, .detected, .outs, .rep, .leave, .cmx, .counted]
  | .assayDone _ => [.agenda, .regs, .rep, .leave]
  | .remapAdd _ _ _ => [.agenda, .regs, .detected, .outs, .loose, .cmx, .counted]
  | .remapMove _ => [.agenda, .regs, .mem, .detected, .loose, .rep, .counted]
  | .fenceCmd _ _ => [.agenda, .regs, .detected, .rep]
  | .fencePendClear _ _ _ => [.regs]
  | .fenceTakeEffect _ => [.agenda, .regs, .freeCtr, .detected, .events, .frz, .stp, .set, .loose, .rep, .syn, .fifos, .runners, .pwr, .brg, .edg, .leave, .tx]
  | .fenceQuench _ => [.agenda, .regs, .mem, .valid, .rep, .pwr]
  | .stationPoll _ _ => [.agenda, .rep]
  | .pollMissed _ => [.agenda, .regs, .rep]
  | .controlAccessTimeout _ => [.agenda, .tx, .cmx]
  | .detWrite _ _ _ => [.regs, .detected]
  | .engineSignal _ _ _ _ => [.agenda, .regs, .detected, .outs, .stp, .syn, .runners]
  | .waitRegister _ _ _ _ => [.agenda, .regs, .detected, .outs, .stp, .syn]
  | .waitCancel _ _ => [.agenda, .regs, .detected, .outs, .stp, .syn]
  | .signalLeave _ => [.agenda, .regs, .freeCtr, .detected, .stp, .syn, .runners, .tx]
  | .signalBridgeRelease _ => [.agenda, .regs, .freeCtr, .detected, .stp, .syn, .runners, .tx]
  | .signalApply _ => [.agenda, .regs, .freeCtr, .detected, .stp, .syn, .runners, .pwr]
  | .waiterFire _ _ => [.agenda, .regs, .syn]
  | .shadowUpdate _ => [.agenda, .regs, .syn, .pwr]
  | .counterBind _ _ _ => [.agenda, .regs, .detected, .outs, .syn, .cmx, .counted]
  | .counterUnbind _ _ _ => [.agenda, .regs, .detected, .outs, .syn, .cmx, .counted]
  | .quietEnd _ => [.regs]
  | .wakeEnWrite _ _ _ => [.agenda, .regs, .detected, .outs, .syn, .cmx, .counted]
  | .synSignalWrite _ _ _ => [.agenda, .regs, .detected, .outs, .stp, .syn, .runners, .cmx, .counted]
  | .setKeyWrite _ _ _ => [.agenda, .regs, .detected, .outs, .syn, .cmx, .counted]
  | .setPathTimeout _ => [.regs]
  | .counterSet _ _ _ => [.agenda, .regs, .detected, .loHeld, .outs, .syn, .cmx, .counted]
  | .dumpGo _ _ => [.agenda, .regs, .freeCtr, .detected, .syn]
  | .runnerListGo _ _ _ _ => [.agenda, .regs, .detected, .outs, .stp, .runners, .cmx, .counted]
  | .descriptorFetch _ _ => [.agenda, .loose, .runners]
  | .descriptorStart _ _ => [.agenda, .regs, .runners, .leave]
  | .copy _ _ => [.agenda, .runners]
  | .fill _ _ => [.agenda, .runners]
  | .gather _ _ => [.agenda, .runners]
  | .scatter _ _ => [.agenda, .runners]
  | .mcast _ _ => [.agenda, .runners]
  | .fuse _ _ => [.agenda, .runners]
  | .engine _ _ => [.agenda, .regs, .outs, .fifos, .runners, .leave, .hfp]
  | .wait _ _ => [.agenda, .regs, .detected, .syn, .runners, .leave]
  | .signal _ _ => [.agenda, .regs, .detected, .stp, .syn, .runners]
  | .sweep _ _ => [.agenda, .regs, .loose, .rep, .runners, .leave]
  | .nop _ _ => [.agenda, .runners]
  | .segmentPresent _ _ => [.agenda, .regs, .detected, .outs, .loose, .syn, .fifos, .runners, .pwr, .leave, .hfp]
  | .segmentAnswer _ _ => [.agenda, .regs, .outs, .loose, .fifos, .runners, .leave, .hfp]
  | .descriptorComplete _ _ => [.agenda, .regs, .detected, .stp, .syn, .fifos, .runners, .leave]
  | .listComplete _ _ => [.agenda, .regs, .runners]
  | .cmplPop _ _ _ _ => [.agenda, .regs, .detected, .outs, .runners, .cmx, .counted]
  | .runnerAbort _ _ _ _ => [.agenda, .regs, .detected, .outs, .loose, .syn, .fifos, .runners, .leave, .cmx, .counted, .hfp]
  | .abortComplete _ _ => [.agenda, .regs, .fifos, .runners]
  | .waitTimeout _ _ => [.agenda, .regs, .syn, .runners, .leave]
  | .handoverGrant _ => [.agenda, .regs, .fifos, .runners]
  | .reservationAged _ _ => [.runners]
  | .runnerWatchdog _ _ => [.agenda, .regs, .outs, .loose, .syn, .fifos, .runners, .leave, .hfp]
  | .esgAck _ => [.agenda, .outs, .runners]
  | .esgDone _ _ => [.agenda, .runners]
  | .stagePush _ _ => [.agenda, .regs, .events, .fifos, .runners]
  | .stagePop _ _ => [.agenda, .regs, .freeCtr, .detected, .events, .outs, .fifos, .runners, .leave, .hfp]
  | .mcastAck _ _ _ => [.agenda, .loose, .syn, .runners]
  | .mcastLapse _ _ _ => [.agenda, .syn, .runners]
  | .stealLook _ _ => [.agenda, .regs, .runners]
  | .stealArrive _ _ => [.agenda, .regs, .runners, .leave]
  | .fifoItemFall _ _ => [.agenda, .fifos, .runners]
  | .fifoNoticeSend _ _ => [.agenda, .regs, .freeCtr, .detected, .stp, .syn, .fifos, .runners, .tx]
  | .hffFlush _ _ _ => [.agenda, .regs, .detected, .outs, .fifos, .cmx, .counted]
  | .hffCfgWrite _ _ _ _ => [.agenda, .regs, .detected, .outs, .fifos, .cmx, .counted]
  | .ctxActivate _ _ => [.regs, .detected]
  | .ctxDeactivate _ _ => [.regs, .detected]
  | .ctxBind _ _ => [.regs, .detected]
  | .ctxKill _ _ => [.agenda, .regs, .detected, .outs, .stp, .set, .loose, .syn, .fifos, .runners, .ctx, .leave, .hfp]
  | .killQuiesceEnd _ => [.agenda, .regs, .loose, .rep, .ctx, .leave]
  | .killUnbind _ => [.agenda, .regs, .stp, .syn, .ctx]
  | .eagWrite _ _ _ => [.regs, .detected]
  | .windowBind _ _ _ => [.regs, .detected, .ctx]
  | .windowUnbind _ _ _ => [.agenda, .regs, .detected, .loose, .syn, .ctx]
  | .windowRelease _ _ _ => [.agenda, .regs, .detected, .loose, .rep, .ctx, .leave]
  | .windowCloseSettle _ => [.agenda, .regs, .loose, .rep, .ctx, .leave]
  | .windowSweepDone _ => [.agenda, .regs, .ctx, .leave]
  | .cmxRequest _ _ _ _ _ => [.agenda, .cmx]
  | .targetArbitration _ => [.agenda, .time, .regs, .mem, .freeCtr, .detected, .events, .hiLatch, .loHeld, .outs, .frz, .stp, .set, .loose, .rep, .syn, .fifos, .runners, .pwr, .ctx, .brg, .edg, .leave, .masked, .tx, .mgt, .cmx, .boot, .counted, .hfp]
  | .cmxResponse _ => [.agenda, .regs, .outs, .loose, .brg, .mgt, .cmx, .test]
  | .lockedRead _ _ _ => [.agenda, .cmx]
  | .mgtRemapWrite _ _ _ => [.regs, .detected]
  | .doorbell _ _ => [.agenda, .regs, .freeCtr, .detected, .pwr, .mgt]
  | .sqNop _ => [.agenda, .freeCtr, .mgt]
  | .sqActivate _ => [.agenda, .regs, .freeCtr, .detected, .mgt]
  | .sqDeactivate _ => [.agenda, .regs, .freeCtr, .detected, .mgt]
  | .sqBind _ => [.agenda, .regs, .freeCtr, .detected, .ctx, .mgt]
  | .sqKill _ => [.agenda, .regs, .freeCtr, .detected, .outs, .stp, .set, .loose, .syn, .fifos, .runners, .ctx, .leave, .mgt, .hfp]
  | .sqWindow _ => [.agenda, .regs, .freeCtr, .detected, .loose, .rep, .syn, .ctx, .leave, .mgt]
  | .sqRun _ => [.agenda, .regs, .freeCtr, .detected, .outs, .stp, .runners, .mgt, .cmx, .counted]
  | .sqSync _ => [.agenda, .regs, .freeCtr, .detected, .outs, .syn, .mgt, .cmx, .counted]
  | .sqFifo _ => [.agenda, .regs, .freeCtr, .detected, .outs, .fifos, .mgt, .cmx, .counted]
  | .sqAssay _ => [.agenda, .regs, .freeCtr, .detected, .outs, .rep, .leave, .mgt, .cmx, .counted]
  | .sqFence _ => [.agenda, .regs, .freeCtr, .detected, .rep, .mgt]
  | .sqRemap _ => [.agenda, .regs, .freeCtr, .detected, .outs, .loose, .mgt, .cmx, .counted]
  | .sqRetire _ => [.agenda, .regs, .freeCtr, .detected, .outs, .rep, .mgt, .cmx, .counted]
  | .sqOppoint _ => [.agenda, .regs, .freeCtr, .detected, .frz, .pwr, .tx, .mgt]
  | .sqPstate _ => [.agenda, .regs, .freeCtr, .detected, .pwr, .leave, .mgt]
  | .sqStage _ _ => [.agenda, .regs, .mem, .freeCtr, .detected, .mgt, .boot]
  | .sqFwact _ => [.agenda, .regs, .freeCtr, .detected, .events, .frz, .pwr, .leave, .masked, .tx, .mgt, .cmx, .boot]
  | .sqLogown _ => [.agenda, .regs, .freeCtr, .detected, .mgt]
  | .sqDump _ => [.agenda, .regs, .freeCtr, .detected, .frz, .syn, .tx, .mgt]
  | .completionPost _ => [.agenda, .regs, .mem, .freeCtr, .events, .mgt]
  | .eventPost _ => [.agenda, .regs, .mem, .freeCtr, .detected, .events, .mgt]
  | .hintSet _ _ => [.regs, .detected, .mgt]
  | .hintStatClear _ _ => [.regs, .detected]
  | .wdtKick _ _ _ => [.agenda, .regs, .mem, .freeCtr, .detected, .events, .frz, .pwr, .leave, .masked, .tx, .mgt, .cmx, .boot]
  | .watchdogExpiry _ => [.agenda, .regs, .freeCtr, .detected, .events, .frz, .pwr, .leave, .masked, .tx, .mgt, .cmx, .boot]
  | .coreRestart _ _ => [.agenda, .regs, .events, .frz, .pwr, .leave, .masked, .tx, .mgt, .cmx]
  | .coreRelease _ => [.agenda, .regs, .freeCtr, .detected, .events, .frz, .pwr, .leave, .masked, .tx, .mgt, .cmx, .boot]
  | .restartKickTimeout _ => [.agenda, .regs, .freeCtr, .detected, .events, .frz, .pwr, .leave, .masked, .tx, .mgt, .cmx, .boot]
  | .mgtRestartWrite _ _ => [.agenda, .detected]
  | .mgtActWrite _ _ => [.agenda, .regs, .freeCtr, .detected, .events, .frz, .pwr, .leave, .masked, .tx, .mgt, .cmx, .boot]
  | .probationEnd _ => [.agenda, .regs, .freeCtr, .mgt, .boot]
  | .recovery _ _ => [.agenda, .detected, .mgt]
  | .selfHalt _ _ => [.agenda, .regs, .detected, .mgt, .cmx]
  | .resume _ _ => [.agenda, .regs, .detected, .mgt]
  | .cabCmdRun _ _ => [.agenda, .regs, .detected, .pwr, .leave]
  | .cabCmdDoze _ _ => [.agenda, .regs, .detected, .pwr, .leave]
  | .cabCmdHold _ _ => [.agenda, .regs, .detected, .pwr, .leave]
  | .cabCmdQuench _ _ => [.agenda, .regs, .detected, .pwr, .leave]
  | .entryDrainEnd _ => [.agenda, .regs, .loose, .rep, .pwr, .leave]
  | .drainTimeout _ => [.agenda, .regs, .pwr]
  | .entryCommitEnd _ => [.agenda, .regs, .mem, .valid, .loose, .rep, .pwr, .leave]
  | .dozeWakeDone _ => [.agenda, .regs]
  | .wakePowerDone _ => [.agenda, .regs, .set, .loose, .rep, .syn, .fifos, .runners, .pwr, .leave]
  | .dieSleep _ _ => [.agenda, .regs, .detected, .pwr, .mgt]
  | .opChange _ _ => [.agenda, .regs, .detected, .pwr, .tx]
  | .dieOpChange _ => [.agenda, .regs, .freeCtr, .pwr, .brg, .tx]
  | .opChangeDone _ _ => [.agenda, .regs, .freeCtr, .events, .pwr, .tx]
  | .emergSet _ _ => [.agenda, .regs, .detected, .events, .pwr]
  | .emergClr _ _ => [.agenda, .regs, .detected, .events, .pwr]
  | .droopStretch _ _ => [.agenda, .time, .regs, .freeCtr, .detected, .stp, .tx]
  | .timSet _ _ => [.agenda, .time, .regs, .detected, .loHeld, .syn, .pwr, .edg, .mgt]
  | .beaconReceive _ _ _ => [.agenda, .time, .regs, .pwr, .tx]
  | .wireSlotReceive _ _ _ => [.agenda, .regs, .freeCtr, .detected, .stp, .brg]
  | .nakReceive _ _ => [.agenda, .regs, .detected, .events, .frz, .stp, .loose, .syn, .brg, .tx]
  | .slotDelivery _ => [.agenda, .regs, .detected, .frz, .stp, .set, .loose, .syn, .brg, .tx]
  | .bridgeLate _ => [.agenda, .regs, .detected, .frz, .brg, .tx]
  | .laneSilent _ => [.agenda, .regs, .detected, .events, .frz, .stp, .loose, .syn, .brg, .tx]
  | .laneDownNotice _ _ _ => [.agenda, .regs, .stp, .brg, .tx]
  | .laneTrain _ _ => [.agenda, .regs, .detected, .leave]
  | .laneOff _ _ => [.agenda, .regs, .detected, .frz, .loose, .syn, .brg, .leave, .tx]
  | .trainDone _ _ => [.agenda, .regs, .pwr, .brg, .leave]
  | .drouteWrite _ _ => [.regs, .detected]
  | .edgeHello _ _ => [.agenda, .regs, .freeCtr, .detected, .events, .loose, .syn, .pwr, .edg]
  | .edgeKeepalive _ _ => [.agenda, .regs, .freeCtr, .detected, .events, .loose, .syn, .pwr, .edg]
  | .edgeWrite _ _ => [.agenda, .regs, .freeCtr, .detected, .events, .loose, .syn, .pwr, .edg]
  | .edgeInc _ _ => [.agenda, .regs, .freeCtr, .detected, .events, .loose, .syn, .pwr, .edg]
  | .edgeRead _ _ => [.agenda, .regs, .freeCtr, .detected, .events, .loose, .syn, .pwr, .edg]
  | .edgeAck _ _ => [.agenda, .regs, .freeCtr, .detected, .events, .loose, .syn, .pwr, .edg]
  | .edgeReadRsp _ _ => [.agenda, .regs, .freeCtr, .detected, .events, .loose, .syn, .pwr, .edg]
  | .quarantineWindow _ => [.edg]
  | .edgeLinkUp _ => [.agenda, .regs, .freeCtr, .edg]
  | .edgeLinkDown _ => [.agenda, .regs, .events, .edg]
  | .helloRepeat _ => [.agenda, .regs, .freeCtr, .edg]
  | .keepaliveSend _ => [.agenda, .regs, .freeCtr, .edg]
  | .partnerTimeout _ => [.agenda, .regs, .events, .edg]
  | .edgePut _ => [.agenda, .regs, .freeCtr, .detected, .loose, .syn, .pwr, .edg]
  | .edgeGet _ => [.agenda, .regs, .freeCtr, .detected, .loose, .syn, .pwr, .edg]
  | .edgeIncCmd _ => [.agenda, .regs, .freeCtr, .detected, .loose, .syn, .pwr, .edg]
  | .edgePacketTimeout _ => [.agenda, .regs, .edg]
  | .txRspTimeout _ => [.agenda, .regs, .freeCtr, .loose, .syn, .edg]
  | .partnerKeyGo _ _ _ => [.agenda, .regs, .detected, .events, .edg]
  | .partnerClear _ _ _ => [.agenda, .regs, .detected, .events, .edg]
  | .edgeEnWrite _ _ _ => [.agenda, .regs, .detected, .events, .edg]
  | .edgeWake _ => [.agenda, .regs, .freeCtr, .pwr]
  | .powerOnReset _ _ => [.agenda, .time, .regs, .mem, .freeCtr, .detected, .events, .outs, .frz, .loose, .rep, .syn, .pwr, .brg, .edg, .leave, .masked, .tx, .mgt, .cmx, .boot, .hfp]
  | .bistStageEnd _ => [.agenda, .regs, .mem, .valid, .freeCtr, .detected, .rep, .leave, .boot]
  | .bootLock _ _ => [.agenda, .regs, .detected, .rep, .tx, .boot]
  | .stimeSync _ _ => [.agenda, .regs, .detected, .rep, .tx, .boot]
  | .startMarkReceive _ _ _ => [.time, .regs, .tx, .boot]
  | .roundMessage _ _ _ => [.agenda, .regs, .detected, .events, .boot]
  | .hdpRequest _ _ _ _ _ _ => [.agenda, .regs, .detected, .loose, .syn]
  | .dbgAccUpdate _ _ _ _ _ => [.agenda, .test]
  | .debugHalt _ _ => [.agenda, .regs, .detected, .frz, .tx]
  | .edgeMalformedPacket _ _ => [.agenda, .regs, .freeCtr, .detected, .events, .loose, .syn, .pwr, .edg]
  | .mapRebuild => [.agenda, .regs, .freeCtr, .detected, .events, .outs, .loose, .rep, .hfp]
  | .ueWindowReset => [.agenda, .regs]
  | .dumpDone => [.agenda, .regs, .mem, .freeCtr, .syn]
  | .submissionTake => [.agenda, .mem, .freeCtr, .events, .mgt]
  | .activationStart => [.agenda, .regs, .freeCtr, .events, .frz, .pwr, .leave, .masked, .tx, .mgt, .cmx, .boot]
  | .dieSleepCommitEnd => [.agenda, .regs, .freeCtr, .pwr]
  | .rtcAlarmRise => [.agenda, .regs, .freeCtr, .events, .pwr]
  | .rtcAlarmFall => [.agenda, .regs, .pwr]
  | .thermTrip => [.agenda, .regs, .freeCtr, .detected, .events, .pwr, .leave]
  | .thermTripRelease => [.agenda, .regs, .freeCtr, .events, .pwr, .leave]
  | .dieWakeDone => [.agenda, .regs, .events, .pwr, .mgt]
  | .vidAckToggle => [.agenda, .regs, .freeCtr, .events, .pwr, .tx, .boot]
  | .vidTimeout => [.agenda, .regs, .detected, .events, .pwr, .tx]
  | .leaveGrant => [.agenda, .regs, .loose, .rep, .runners, .pwr, .leave]
  | .clampFreeze => [.agenda, .frz, .tx]
  | .powerEstimate => [.agenda, .regs, .events, .pwr, .brg, .tx]
  | .clampEmergency => [.agenda, .regs, .events, .pwr]
  | .compensatingStretch => [.agenda, .time]
  | .beaconSend => [.agenda, .pwr, .tx]
  | .beaconLoss => [.regs, .detected]
  | .porstFall => allParts
  | .hallmarkRound => [.agenda, .regs, .tx, .boot]
  | .hdpCompletion => [.agenda, .outs, .loose]
  | .tapIdcode => [.agenda, .regs, .frz, .tx, .cmx, .test]
  | .tapIjtag => [.agenda, .regs, .freeCtr, .frz, .tx, .cmx, .test]
  | .tapBypass => [.agenda, .regs, .freeCtr, .frz, .tx, .cmx, .test]
  | .debugSessionOpen => [.agenda, .regs, .freeCtr, .pwr, .test]
  | .debugSessionClose => [.agenda, .regs, .frz, .tx, .cmx, .test]
  | .dbgAccCapture => [.test]
  | .hallmarkComputationEnd => [.regs, .boot]
  | .recoveryStart => [.agenda, .regs, .mem, .freeCtr, .events, .frz, .pwr, .leave, .masked, .tx, .mgt, .cmx, .boot]

end Sys2Proof.Machine
end

