-- ==== Sys2Proof/Safety.lean ====
section
/-! DEFINITION. What a safe run is: every step answers a next state, and the tables of the state keep their one canonical form, so
that equal contents are equal data. -/
namespace Sys2Proof.Machine

/-- The canonical form of the memories: addresses strictly rising, no entry equal to what an unlisted cell reads as, 0. -/
def Memory.wf (m : List Host.Cell) : Bool := SMap.wf (fun _ => (0 : Byte)) m

/-- The canonical form of the registers: no entry equal to its register's reset value. -/
def Regs.wf (m : SMap W32) : Bool := SMap.wf resetVal m

/-- Memories and registers are in canonical form. -/
def State.canonical (s : State) : Prop := Memory.wf s.mem = true ∧ Regs.wf s.regs = true

/-- The step of a state goes on. -/
def State.goesOn (s : State) : Prop := ∃ t, step s = .next t

/-- Outside a list of registers, every register of `t` reads as it does in `s`. -/
def State.sameRegs (l : List Nat) (s t : State) : Prop := ∀ k, k ∉ l → t.reg k = s.reg k

/-- Outside `n` bytes from `a`, every byte of the memories of `t` reads as it does in `s`. -/
def State.sameCells (a n : Nat) (s t : State) : Prop := ∀ c, c < a ∨ a + n ≤ c → t.cell c = s.cell c

/-- The first `n` steps of a run go on, each from a canonical state. -/
def State.safe : Nat → State → Prop
  | 0, s => s.canonical
  | n + 1, s => s.canonical ∧ ∃ t, step s = .next t ∧ t.safe n

/-- Is it the burst that moves a word row? (R239) -/
def Burst.isMove (b : Burst) : Bool := match b.req.acc.op with
  | .move _ _ => true
  | .acc | .sweep _ _ _ | .repair _ _ => false

/-- Is it a repair burst of an assay pass? (R233) -/
def Burst.isRepair (b : Burst) : Bool := match b.req.acc.op with
  | .repair _ _ => true
  | .acc | .sweep _ _ _ | .move _ _ => false

end Sys2Proof.Machine

/-- Is it a descriptor fetch of this runner? (R314) -/
def Sys2Proof.Origin.fetchBy (cab r : Nat) (o : Sys2Proof.Origin) : Bool := match o with
  | .fetch c q _ => decide (c = cab) && decide (q = r)
  | _ => false

/-- Is it an access of this runner under this number: 0 for a stream, 1 + n for receiver n of a multicast? (R315, R347) -/
def Sys2Proof.Origin.segBy (cab r n : Nat) (o : Sys2Proof.Origin) : Bool := match o with
  | .seg c q m => decide (c = cab) && decide (q = r) && decide (m = n)
  | _ => false
end

