-- ==== Sys2Proof/Certificates/Slice0/Obligations.lean ====
section
/-! DEFINITION. What the provers are to prove about the model: the general statements first, then what the commands of each family do.
Each clause of a family's statement says where one command completes and the state it then leaves, or where it is turned away. -/

open Sys2Proof Sys2Proof.Machine

/-- When a command c waits at the front of the queue, the step answers what c answers on the state with the rest of the queue. -/
def Obligations.StepRunsFrontCommand : Prop :=
  ∀ (c : Instr) (rest : List Instr) (s : State), s.pending = c :: rest → step s = exec c { s with pending := rest }

/-- On an empty queue the step puts the due effects of the lowest rank into the queue, takes them off the agenda and changes nothing else; when none is
due it leaves the queue empty, wall time and fabric time do not go back, the fc count grows by at most one, and while the die is frozen neither
unfrozen fc nor schedule time advance. The order of effects due together and the use of the empty queue for time are choices of the model (log entries
3 and 4). -/
def Obligations.AnEmptyQueueTakesDueEffectsOrTime : Prop :=
  ∀ s : State, s.pending = [] →
    (s.dueNow ≠ [] → ∃ t, step s = .next t ∧ t.pending = s.dueNow.map (fun d => d.cmd) ∧ (∀ d ∈ t.agenda, d ∈ s.agenda ∧ d ∉ s.dueNow) ∧ { t with pending := [], agenda := s.agenda } = s) ∧
    (s.dueNow = [] → ∃ t, step s = .next t ∧ t.pending = [] ∧ s.time.real ≤ t.time.real ∧ s.time.now ≤ t.time.now ∧ s.time.fc ≤ t.time.fc ∧ t.time.fc ≤ s.time.fc + 1 ∧
      (s.frozen = true → t.time.ufc = s.time.ufc ∧ t.time.stime = s.time.stime))

/-- At reset the queue and the memories list nothing, every register reads its reset value, IDV.VERSION reads 0x00030200, start-up has completed no step,
BOOT_LOCK is clear, and memories and registers are in canonical form. What reset leaves of the registers the spec gives no value for is the choice of
the model (log entry 1). -/
def Obligations.ResetHoldsTheResetValues : Prop :=
  State.reset.canonical ∧ State.reset.pending = [] ∧ State.reset.mem = [] ∧ (∀ k, State.reset.reg k = resetVal k) ∧ State.reset.view R.IDV_VERSION = 0x00030200 ∧
    State.reset.f R.HLM_BOOT_STAT_STEP = 0 ∧ State.reset.bootLocked = false ∧ State.reset.boot.stage = 0

/-- From every state whose memories and registers are in canonical form, a step that answers a next state leaves them in canonical form: addresses
strictly rising, no entry equal to what an unlisted one reads as, for every command, every due effect and the passing of time. -/
def Obligations.EveryStepKeepsCanonicalForm : Prop :=
  ∀ s t : State, s.canonical → step s = .next t → t.canonical

/-- No command faults or is refused: on every state it answers a next state, whose queue of waiting commands and whose integration ties are those it
found. -/
def Obligations.EveryCommandAnswersAndKeepsTheQueue : Prop :=
  ∀ (i : Instr) (s : State), ∃ t, exec i s = .next t ∧ t.pending = s.pending ∧ t.ties = s.ties

/-- For each command there is a list of the parts of the state that it may change; every other part (registers, memories, valid bits, the agenda, time,
error records, events, pins, freezes, steps, set-class accesses, loose requests, repair, sync, FIFOs, runners, power, contexts, bridges, gateways,
leave, masks, wire queues, management, control matrix, start-up, test) is the same afterwards. A command whose list lacks the memories changes no
byte, one whose list lacks the registers no register. -/
def Obligations.CommandsKeepWhatTheyDoNotTouch : Prop :=
  ∀ (i : Instr) (s t : State), exec i s = .next t → ∀ p : Part, p ∉ touches i → p.same s t

/-- Whatever control access a master makes, the upper halves latched for every other master and the lower halves held for every other master are
unchanged, in value and in order. -/
def Obligations.MastersKeepTheirPairSequences : Prop :=
  ∀ (m : Master) (ca v : W32) (c : Instr) (s t : State),
    c ∈ [Instr.registerWrite m ca v, .rcRead m ca, .loReadLatch m ca, .pairLoWrite m ca v, .pairHiWrite m ca v] → exec c s = .next t →
    t.hiLatch.filter (fun e => decide (e.1 ≠ masterIdx m)) = s.hiLatch.filter (fun e => decide (e.1 ≠ masterIdx m)) ∧
    t.loHeld.filter (fun e => decide (e.1 ≠ masterIdx m)) = s.loHeld.filter (fun e => decide (e.1 ≠ masterIdx m))

/-- A write of IDV.CMAP_CTL or of an entry of either generation from a master other than SEC changes nothing but the error records: it enters a
locked-register record naming the requester. While a locked sequence of another master holds the registers (R422) the write has not reached them and
waits. -/
def Obligations.MapWritesOfOtherMastersAreLogged : Prop :=
  ∀ (m : Master) (g : Fin 2) (n : Fin 128) (v : W32) (s : State), m ≠ .sec →
    exec (.cmapCtlWrite m v) s = .next (if s.rgsShut (masterIdx m) then s.at' .real (s.cycEnd 0) (.cmapCtlWrite m v) else
      { s with detected := s.detected ++ [{ ({ kind := 0x41, req := masterReq m, cab := none, addr := s.die * 2 ^ 29 + 0x1FC00048 } : ErrRec) with time := s.now }] }) ∧
    exec (.cmapEntryWrite m g n v) s = .next (if s.rgsShut (masterIdx m) then s.at' .real (s.cycEnd 0) (.cmapEntryWrite m g n v) else
      { s with detected := s.detected ++ [{ ({ kind := 0x41, req := masterReq m, cab := none, addr := s.die * 2 ^ 29 + 0x1FC00000 + (if g = 0 then 0x100 else 0x300) + 4 * n.val } : ErrRec) with time := s.now }] })

/-- The hop distance of two cabinets is the sum of the differences of their columns and of their rows; on a die none of whose cabinets is fenced or absent
each hop of a set-class route brings the flit one closer, so that the whole route takes that number of hops, whatever fence mask its context recorded. -/
def Obligations.RoutesTakeTheHopDistance : Prop :=
  ∀ (c1 r1 c2 r2 m : Nat) (s : State), c1 < 16 → r1 < 8 → c2 < 16 → r2 < 8 → (∀ p, p < 128 → s.fenced p = false ∧ s.absent p = false) →
    hopDist (16 * r1 + c1) (16 * r2 + c2) = (max c1 c2 - min c1 c2) + (max r1 r2 - min r1 r2) ∧
    (16 * r1 + c1 ≠ 16 * r2 + c2 → ∃ d n, s.setHop m (16 * r1 + c1) (16 * r2 + c2) none = .take d n none ∧ n < 128 ∧ hopDist n (16 * r2 + c2) + 1 = hopDist (16 * r1 + c1) (16 * r2 + c2)) ∧
    s.setHops m (16 * r2 + c2) 128 (16 * r1 + c1) none = hopDist (16 * r1 + c1) (16 * r2 + c2)

/-- For every word the eighteen symbols the fabric stores have zero syndromes and decode to the word, whatever STRICT is; with STRICT clear and no retired
macro, any error in any one symbol is corrected at its position, with the error and its multiple by the power of alpha as syndromes; with one retired
macro any error in that macro is corrected without a position. -/
def Obligations.StoredWordsAreCorrected : Prop :=
  ∀ (w : W256) (k : Nat) (e : Sym), k < 18 →
    (∀ strict, decodeSyms strict [] (encodeWord w) = { ok := true, word := w, pos := none, s0 := 0, s1 := 0 }) ∧
    (e ≠ 0 → decodeSyms false [] (symAdd (encodeWord w) k e) = { ok := true, word := w, pos := some k, s0 := e, s1 := gfMul (gfAlpha k) e }) ∧
    (∀ strict, decodeSyms strict [k] (symAdd (encodeWord w) k e) = { ok := true, word := w, pos := none, s0 := e, s1 := gfMul (gfAlpha k) e })

/-- On an unfrozen fc, a scoreboard open writes BASE, KIND, OPEN, LIMIT and COUNT of a closed entry and counts it in SBD.STAT; a close, and the end of the
hold of an entry at count zero, clear its three registers; SBD.MODE takes the mode and the sentinel bit where at most 32 cabinets are synthesized and
no entry is open, and MODE keeps its value while one is. Nothing else changes. Where the spec leaves room this rests on the model's own choices: log
entries 80, 82. -/
def Obligations.RangeEntriesOpenCloseAndEmpty : Prop :=
  (∀ (cab : Cab) (entry : Fin 32) (base limit : BitVec 17) (count : BitVec 18) (s : State),
      s.bit (R.CAB_PORT_STAT_P_SEQ cab) = true →
      s.frozen = false →
      s.discards (s.eag cab) = false →
      s.bit (R.SBD_ENT_A_OPEN cab entry) = false →
      count.toNat ≠ 0 →
      count.toNat ≤ 131072 →
      base.toNat ≤ limit.toNat →
      s.replaying (s.eag cab) = false →
      exec (.sbcOpenWrite cab entry base limit count) s = .next ({ s.puts [(R.SBD_ENT_A_BASE cab entry, base.toNat), (R.SBD_ENT_A_KIND cab entry, 0),
        (R.SBD_ENT_A_OPEN cab entry, 1), (R.SBD_ENT_B_LIMIT cab entry, limit.toNat), (R.SBD_ENT_C_COUNT cab entry, count.toNat)] with
        set := { s.set with opener := SMap.insert s.set.opener (cab * 32 + entry) (((s.eag cab).map (fun c => c + 1)).getD 0, s.time.stime + 1) } }.sbdCount cab)) ∧
  (∀ (cab : Cab) (entry : Fin 32) (base limit : BitVec 17) (count : BitVec 18) (s : State),
      s.bit (R.CAB_PORT_STAT_P_SEQ cab) = true →
      s.frozen = false →
      s.discards (s.eag cab) = false →
      s.bit (R.SBD_ENT_A_OPEN cab entry) = false →
      count.toNat ≠ 0 →
      count.toNat ≤ 131072 →
      base.toNat ≤ limit.toNat →
      s.replaying (s.eag cab) = false →
      exec (.sbcOpenRead cab entry base limit count) s = .next ({ s.puts [(R.SBD_ENT_A_BASE cab entry, base.toNat), (R.SBD_ENT_A_KIND cab entry, 1),
        (R.SBD_ENT_A_OPEN cab entry, 1), (R.SBD_ENT_B_LIMIT cab entry, limit.toNat), (R.SBD_ENT_C_COUNT cab entry, count.toNat)] with
        set := { s.set with opener := SMap.insert s.set.opener (cab * 32 + entry) (((s.eag cab).map (fun c => c + 1)).getD 0, s.time.stime + 1) } }.sbdCount cab)) ∧
  (∀ (cab : Cab) (entry : Fin 32) (s : State),
      s.bit (R.CAB_PORT_STAT_P_SEQ cab) = true →
      s.frozen = false →
      s.discards (s.eag cab) = false →
      exec (.sbcClose cab entry) s = .next ({ (((s.closeNote cab entry).setReg (R.SBD_ENT_A cab entry) 0).setReg (R.SBD_ENT_B cab entry) 0).setReg (R.SBD_ENT_C cab entry) 0 with
        set := { (s.closeNote cab entry).set with ending := (s.closeNote cab entry).set.ending.filter (fun e => !(decide (e.1 = cab.val) && decide (e.2.1 = entry.val))) } }.sbdCount cab)) ∧
  (∀ (cab : Cab) (entry : Fin 32) (n : Nat) (s : State),
      s.frozen = false →
      (cab.val, entry.val, n) ∈ s.set.ending →
      n ≤ s.time.stime →
      exec (.rangeHoldEnd cab entry) s = .next ({ ((s.setReg (R.SBD_ENT_A cab entry) 0).setReg (R.SBD_ENT_B cab entry) 0).setReg (R.SBD_ENT_C cab entry) 0 with
        set := { s.set with ending := s.set.ending.filter (fun e => !(decide (e.1 = cab.val) && decide (e.2.1 = entry.val))) } }.sbdCount cab)) ∧
  (∀ (m : Master) (cab : Cab) (v : W32) (s : State),
      s.synth cab = true →
      s.stationOf cab = .go →
      s.f R.IDV_CONF_NUM_CAB ≤ 32 →
      s.sbdOpen cab = [] →
      s.rgsShut (masterIdx m) = false →
      exec (.sbdModeWrite m cab v) s = .next (s.puts [(R.SBD_MODE_SENTINEL_EN cab, v.toNat / 4 % 2), (R.SBD_MODE_MODE cab, v.toNat % 2)])) ∧
  (∀ (m : Master) (cab : Cab) (v : W32) (s : State),
      s.synth cab = true →
      s.stationOf cab = .go →
      s.f R.IDV_CONF_NUM_CAB ≤ 32 →
      s.sbdOpen cab ≠ [] →
      s.rgsShut (masterIdx m) = false →
      exec (.sbdModeWrite m cab v) s = .next (s.put (R.SBD_MODE_SENTINEL_EN cab) (v.toNat / 4 % 2)))

/-- A look-ahead on an unfrozen fc claims its bank group for the issue 3 fc later. A wide read or write to the cabinet itself whose group is claimed and
free, with no range entry in conflict, takes the group from this fc: the read is to be delivered 4 fc after its issue, the write answered OK 3 fc
after it. The loose bursts that would cover the claimed fc are cut. A held access whose entries have gone issues, and the fc of its wait not yet
counted are added to the slip of the port. Where the spec leaves room this rests on the model's own choices: log entries 13, 14, 84, 88, 102. -/
def Obligations.LookAheadsClaimAndWideIssuesOccupy : Prop :=
  (∀ (cab : Cab) (grp : Fin 4) (s : State),
      s.bit (R.CAB_PORT_STAT_P_SEQ cab) = true →
      s.frozen = false →
      s.discards (s.eag cab) = false →
      s.holdHigh .wrp cab = false →
      exec (.wrpLookahead cab grp) s = .next (({ s with set := { s.set with claims := s.set.claims ++ [{ port := .wrp, cab := cab, grp := grp, at' := s.time.stime + 3 }] } } : State).clearClaim cab grp (s.time.stime + 4))) ∧
  (∀ (cab : Cab) (grp : Fin 4) (s : State),
      s.bit (R.CAB_PORT_STAT_P_SEQ cab) = true →
      s.frozen = false →
      s.discards (s.eag cab) = false →
      s.holdHigh .wwp cab = false →
      exec (.wwpLookahead cab grp) s = .next (({ s with set := { s.set with claims := s.set.claims ++ [{ port := .wwp, cab := cab, grp := grp, at' := s.time.stime + 3 }] } } : State).clearClaim cab grp (s.time.stime + 4))) ∧
  (∀ (cab : Cab) (grp : Fin 4) (s : State),
      s.bit (R.CAB_PORT_STAT_P_SEQ cab) = true →
      s.frozen = false →
      s.discards (s.eag cab) = false →
      s.holdHigh .land cab = false →
      exec (.landingLookahead cab grp) s = .next (({ s with set := { s.set with claims := s.set.claims ++ [{ port := .land, cab := cab, grp := grp, at' := s.time.stime + 3 }] } } : State).clearClaim cab grp (s.time.stime + 3 + s.landLag cab + 1))) ∧
  (∀ (cab : Cab) (addr : BitVec 24) (dly : BitVec 4) (s : State),
      s.bit (R.CAB_PORT_STAT_P_WRP cab) = true →
      s.frozen = false →
      s.holdHigh .wrp cab = false →
      s.discards (s.eag cab) = false →
      s.fenced cab = false →
      s.target .set false (s.eag cab) (addr.toNat * 256) = .at' cab →
      s.pow cab = 0 →
      s.claimed .wrp cab (faGroup (addr.toNat * 256)) = true →
      s.rangeHeld cab (addr.toNat * 256) false = false →
      s.set.ops.filter (fun x => decide (x.cab = cab.val) && decide (x.grp = faGroup (addr.toNat * 256)) && decide (s.time.stime ≤ x.at' + 1)) = [] →
      ∃ t, exec (.wrpIssue cab addr dly) s = .next t ∧
        t.set.ops = s.set.ops ++ [{ port := .wrp, cab := cab, grp := faGroup (addr.toNat * 256), row := faRow (addr.toNat * 256), at' := s.time.stime, wr := none, ctx := s.eag cab, fa := addr.toNat * 256, dest := .deliver s.loose.nextId }] ∧
        t.set.delivs.map (fun d => (d.id, d.cab, d.due)) = s.set.delivs.map (fun d => (d.id, d.cab, d.due)) ++ [(s.loose.nextId, cab.val, s.time.stime + 4)]) ∧
  (∀ (cab : Cab) (addr : BitVec 24) (data : List W256) (dly : BitVec 4) (s : State),
      s.bit (R.CAB_PORT_STAT_P_WWP cab) = true →
      s.frozen = false →
      s.holdHigh .wwp cab = false →
      s.discards (s.eag cab) = false →
      s.fenced cab = false →
      s.target .set true (s.eag cab) (addr.toNat * 256) = .at' cab →
      s.pow cab = 0 →
      s.claimed .wwp cab (faGroup (addr.toNat * 256)) = true →
      s.rangeHeld cab (addr.toNat * 256) true = false →
      s.set.ops.filter (fun x => decide (x.cab = cab.val) && decide (x.grp = faGroup (addr.toNat * 256)) && decide (s.time.stime ≤ x.at' + 1)) = [] →
      s.replaying (s.eag cab) = false →
      ∃ t, exec (.wwpIssue cab addr data dly false) s = .next t ∧
        t.set.ops = s.set.ops ++ [{ port := .wwp, cab := cab, grp := faGroup (addr.toNat * 256), row := faRow (addr.toNat * 256), at' := s.time.stime, wr := some data, ctx := s.eag cab, fa := addr.toNat * 256, dest := .done s.loose.nextId }] ∧
        t.set.wresps = s.set.wresps ++ [(cab.val, s.time.stime + 3, .ok, s.eag cab)]) ∧
  (∀ (cab : Cab) (addr : BitVec 24) (data : List W256) (dly : BitVec 4) (s : State),
      s.bit (R.CAB_PORT_STAT_P_WWP cab) = true →
      s.frozen = false →
      s.discards (s.eag cab) = false →
      exec (.wwpIssue cab addr data dly true) s = .next ((s.parity cab 1 12).presentWide .wwp cab (addr.toNat * 256) data dly.toNat)) ∧
  (∀ (cab : Cab) (h : HoldReg) (s u : State),
      s.frozen = false →
      s.set.holds.find? (fun x => decide (x.cab = cab.val) && decide (x.port = .wrp) && x.rel.isNone) = some h →
      s.rangeHeld cab h.addr false = false →
      s.discards (s.eag cab) = false →
      s.replaying (s.eag cab) = false →
      s.slip cab .wrp + (s.time.stime - h.upto) ≤ 8 →
      u = (s.setSlip cab .wrp (s.slip cab .wrp + (s.time.stime - h.upto))).holdUpto cab (fun p => decide (p = SetPort.wrp)) →
      exec (.heldAccessRelease cab ⟨.wrp, false⟩) s = .next (({ u with set := { u.set with holds := u.set.holds.map (fun x => if x.id = h.id ∧ x.port = .wrp ∧ x.cab = cab.val ∧ x.since = h.since then { x with rel := some s.time.stime } else x) } } : State).issueRead cab h.addr h.dly true)) ∧
  (∀ (cab : Cab) (h : HoldReg) (s u : State),
      s.frozen = false →
      s.set.holds.find? (fun x => decide (x.cab = cab.val) && decide (x.port = .wwp) && x.rel.isNone) = some h →
      s.rangeHeld cab h.addr true = false →
      s.discards (s.eag cab) = false →
      s.replaying (s.eag cab) = false →
      s.slip cab .wwp + (s.time.stime - h.upto) ≤ 8 →
      u = (s.setSlip cab .wwp (s.slip cab .wwp + (s.time.stime - h.upto))).holdUpto cab (fun p => decide (p = SetPort.wwp)) →
      exec (.heldAccessRelease cab ⟨.wwp, false⟩) s = .next (({ u with set := { u.set with holds := u.set.holds.map (fun x => if x.id = h.id ∧ x.port = .wwp ∧ x.cab = cab.val ∧ x.since = h.since then { x with rel := some s.time.stime } else x) } } : State).issueWrite cab h.addr h.dat h.dly (some h.id))) ∧
  (∀ (cab : Cab) (h : HoldReg) (s u : State),
      s.frozen = false →
      s.set.holds.find? (fun x => decide (x.cab = cab.val) && decide (x.port = .wwp) && x.rel.isNone) = some h →
      s.rangeHeld cab h.addr true = false →
      s.discards (s.eag cab) = false →
      s.replaying (s.eag cab) = false →
      s.slip cab .wwp + (s.time.stime - h.upto) ≤ 8 →
      u = (s.setSlip cab .wwp (s.slip cab .wwp + (s.time.stime - h.upto))).holdUpto cab (fun p => decide (p = SetPort.wwp)) →
      exec (.heldAccessRelease cab ⟨.wwp, true⟩) s = .next ((({ u with set := { u.set with holds := u.set.holds.map (fun x => if x.id = h.id ∧ x.port = .wwp ∧ x.cab = cab.val ∧ x.since = h.since then { x with rel := some s.time.stime } else x) } } : State).parity cab 1 12).issueWrite cab h.addr h.dat h.dly (some h.id))) ∧
  (∀ (cab : Cab) (l : Landed) (n : Nat) (s u v : State),
      s.frozen = false →
      s.set.land.filter (fun x => decide (x.cab = cab.val) && x.hold.isSome) = [l] →
      l.hold = some n →
      s.rangeHeld cab l.f.fa (decide (l.f.kind = SKind.wr)) = false →
      s.discards l.f.ctx = false →
      s.replaying l.f.ctx = false →
      s.slip cab .land + (s.time.stime - n) ≤ 8 →
      u = (s.setSlip cab .land (s.slip cab .land + (s.time.stime - n))).holdUpto cab (fun p => decide (p = SetPort.land)) →
      v = u.release cab l true →
      exec (.heldAccessRelease cab ⟨.land, false⟩) s = .next (if v.set.land.any (fun x => decide (x.cab = cab.val) && x.hold.isSome) then v.arm .sched 1 (.heldAccessRelease cab ⟨.land, false⟩) else v))

/-- On an unfrozen fc, the one delivery due at a cabinet is presented on WRP with its data, zero flags and response, and the one response due on WWP with
its code; the delivery or response is then gone and nothing else changes. Where the spec leaves room this rests on the model's own choices: log entry
48. -/
def Obligations.WidePortsAnswerOnTheirFc : Prop :=
  (∀ (cab : Cab) (d : Deliv) (s : State),
      s.frozen = false →
      s.set.delivs.filter (fun e => decide (e.cab = cab.val) && decide (e.due ≤ s.time.stime)) = [d] →
      d.remote = false ∨ d.got = true →
      d.resp ≠ .fault →
      d.resp ≠ .asleep →
      exec (.wrpDelivery cab false) s = .next ((({ s with set := { s.set with
          delivs := s.set.delivs.filter (fun e => !(decide (e.cab = cab.val) && decide (e.due ≤ s.time.stime))) } } : State).presentIf (R.CAB_PORT_STAT_P_WRP cab) (cab.val * 8)
            { at' := s.time.fc, tag := 0, dat := d.dat, zero := d.zero, sb := 0, resp := d.resp }).countResp cab 0 d.resp)) ∧
  (∀ (cab : Cab) (d : Deliv) (s : State),
      s.frozen = false →
      s.set.delivs.filter (fun e => decide (e.cab = cab.val) && decide (e.due ≤ s.time.stime)) = [d] →
      d.remote = false ∨ d.got = true →
      d.resp ≠ .fault →
      d.resp ≠ .asleep →
      exec (.wrpDelivery cab true) s = .next (((({ s with set := { s.set with
          delivs := s.set.delivs.filter (fun e => !(decide (e.cab = cab.val) && decide (e.due ≤ s.time.stime))) } } : State).presentIf (R.CAB_PORT_STAT_P_WRP cab) (cab.val * 8)
            { at' := s.time.fc, tag := 0, dat := d.dat, zero := d.zero, sb := 0, resp := d.resp }).countResp cab 0 d.resp).parity cab 0 11)) ∧
  (∀ (cab : Cab) (n : Nat) (r : Resp) (c : Option Nat) (s : State),
      s.frozen = false →
      s.set.wresps.filter (fun w => decide (w.1 = cab.val) && decide (w.2.1 ≤ s.time.stime)) = [(cab.val, n, r, c)] →
      r ≠ .fault →
      r ≠ .asleep →
      exec (.wwpResponse cab) s = .next ((({ s with set := { s.set with
          wresps := s.set.wresps.filter (fun w => !(decide (w.1 = cab.val) && decide (w.2.1 ≤ s.time.stime))) } } : State).presentIf (R.CAB_PORT_STAT_P_WWP cab) (cab.val * 8 + 1)
            { at' := s.time.fc, tag := 0, dat := [], zero := [], sb := 0, resp := r }).countResp cab 1 r))

/-- On an unfrozen fc, a set-class flit that stands ready away from its destination takes the slot of the output its route names, when the slot is free
and its hops are within bound, and stands in the next cabinet two fc later; so does the first hop of a remote read or write. A request that arrives at
its cabinet, in time and with room, is held by the landing stage and put on the agenda for its due fc, later by the slip of the stage. A write
released at its due fc to a claimed, free bank group without conflict takes that group. Where the spec leaves room this rests on the model's own
choices: log entries 81, 83. -/
def Obligations.SetFlitsMoveOnTheirSlots : Prop :=
  (∀ (id d n : Nat) (f : SFlit) (det : Option Nat) (s : State),
      s.readySet id = some f →
      s.frozen = false →
      f.cur ≠ f.dst →
      s.lastRouter f.cur f.dst = false →
      s.setHop f.fmask f.cur f.dst f.det = .take d n det →
      f.hops + 1 ≤ hopDist f.from' f.dst + 16 →
      s.set.slots.find? (fun x => decide (x.1 = f.cur) && decide (x.2.1 = d) && decide (x.2.2.1 = s.time.stime)) = none →
      exec (.setFlitHop id) s = .next (({ s with set := { s.set with
          flits := s.set.flits.map (fun (x : SFlit) => if x.id = f.id then { f with cur := n, enter := s.time.stime + 2, hops := f.hops + 1, det := det } else x), slots := s.set.slots ++ [(f.cur, d, s.time.stime, f.id)] } } : State).usedLink.later .sched 2
            (if n = f.dst ∧ f.dstDie = s.die then .flitArrival f.id else .setFlitHop f.id))) ∧
  (∀ (cab : Cab) (id d n : Nat) (f : SFlit) (det : Option Nat) (s : State),
      s.readySet id = some f →
      s.frozen = false →
      f.cur ≠ f.dst →
      s.lastRouter f.cur f.dst = false →
      s.setHop f.fmask f.cur f.dst f.det = .take d n det →
      f.hops + 1 ≤ hopDist f.from' f.dst + 16 →
      s.set.slots.find? (fun x => decide (x.1 = f.cur) && decide (x.2.1 = d) && decide (x.2.2.1 = s.time.stime)) = none →
      f.src = cab.val →
      f.kind = .rdReq →
      f.hops = 0 →
      exec (.remoteReadInject cab id) s = .next (({ s with set := { s.set with
          flits := s.set.flits.map (fun (x : SFlit) => if x.id = f.id then { f with cur := n, enter := s.time.stime + 2, hops := f.hops + 1, det := det } else x), slots := s.set.slots ++ [(f.cur, d, s.time.stime, f.id)] } } : State).usedLink.later .sched 2
            (if n = f.dst ∧ f.dstDie = s.die then .flitArrival f.id else .setFlitHop f.id))) ∧
  (∀ (cab : Cab) (id d n : Nat) (f : SFlit) (det : Option Nat) (s : State),
      s.readySet id = some f →
      s.frozen = false →
      f.cur ≠ f.dst →
      s.lastRouter f.cur f.dst = false →
      s.setHop f.fmask f.cur f.dst f.det = .take d n det →
      f.hops + 1 ≤ hopDist f.from' f.dst + 16 →
      s.set.slots.find? (fun x => decide (x.1 = f.cur) && decide (x.2.1 = d) && decide (x.2.2.1 = s.time.stime)) = none →
      f.src = cab.val →
      f.kind = .wr →
      f.hops = 0 →
      exec (.remoteWriteInject cab id) s = .next (({ s with set := { s.set with
          flits := s.set.flits.map (fun (x : SFlit) => if x.id = f.id then { f with cur := n, enter := s.time.stime + 2, hops := f.hops + 1, det := det } else x), slots := s.set.slots ++ [(f.cur, d, s.time.stime, f.id)] } } : State).usedLink.later .sched 2
            (if n = f.dst ∧ f.dstDie = s.die then .flitArrival f.id else .setFlitHop f.id))) ∧
  (∀ (id : Nat) (f : SFlit) (s : State),
      s.readySet id = some f →
      f.cur = f.dst →
      f.dstDie = s.die →
      s.frozen = false →
      f.kind ≠ .rdData →
      s.time.stime ≤ f.due →
      (s.set.land.filter (fun l => decide (l.cab = f.dst) && !s.freesPlace l)).length < 32 →
      exec (.flitArrival id) s = .next (({ s with set := { s.set with flits := s.set.flits.filter (fun x => !decide (x.id = id)), land := s.set.land ++ [{ cab := f.dst, f := f, hold := none, arrived := s.time.stime }] } } : State).at' .sched (f.due + s.landLag f.dst) (.landingRelease (Fin.ofNat 128 f.dst) id))) ∧
  (∀ (id : Nat) (f : SFlit) (s : State),
      s.readySet id = some f →
      f.cur = f.dst →
      f.dstDie = s.die →
      s.frozen = false →
      f.kind = .rdData →
      s.time.stime ≤ f.due →
      exec (.flitArrival id) s = .next { s with set := { s.set with
          flits := s.set.flits.filter (fun x => !decide (x.id = id)),
          delivs := s.set.delivs.map (fun d => if d.id = f.issue ∧ d.cab = f.dst then { d with got := true, dat := f.dat, zero := f.zero, resp := f.resp } else d) } }) ∧
  (∀ (cab : Cab) (id : Nat) (l : Landed) (s : State),
      s.set.land.find? (fun x => decide (x.cab = cab.val) && decide (x.f.id = id) && x.hold.isNone) = some l →
      s.frozen = false →
      l.f.due + s.landLag cab ≤ s.time.stime →
      l.f.kind = .wr →
      s.discards l.f.ctx = false →
      s.target .set true l.f.ctx l.f.fa = .at' cab →
      s.pow cab = 0 →
      s.replaying l.f.ctx = false →
      s.claimed .land cab (faGroup l.f.fa) = true →
      s.conflicts cab l.f.fa true = false →
      s.set.ops.filter (fun x => decide (x.cab = cab.val) && decide (x.grp = faGroup l.f.fa) && decide (s.time.stime ≤ x.at' + 1)) = [] →
      ∃ t, exec (.landingRelease cab id) s = .next t ∧
        t.set.ops = s.set.ops ++ [{ port := .land, cab := cab, grp := faGroup l.f.fa, row := faRow l.f.fa, at' := s.time.stime, wr := some l.f.dat, ctx := l.f.ctx, fa := l.f.fa, dest := .done l.f.id }])

/-- A narrow port that is present, unfrozen, with fewer than 32 requests outstanding and none of this tag, accepts the request: it is outstanding, counted
in CAB.PORT_STAT, and in a cabinet that is not fenced its access enters the fabric. The first answered request whose earliest fc has come is presented
with its tag, data and response on an unfrozen fc, and is no longer outstanding. A parity error of its registers is counted and logged and is a replay
cause of the context of the cabinet, and the data goes on as held. A change of a presence input takes effect on the third fc after it. Where the spec
leaves room this rests on the model's own choices: log entry 95. -/
def Obligations.NarrowPortsAcceptAndComplete : Prop :=
  (∀ (cab : Cab) (port : Fin 2) (we : Bool) (addr : BitVec 26) (be : W64) (data : List W256) (tag : Fin 32) (s : State),
      s.npAck cab port tag = true →
      s.fenced cab = false →
      exec (.npRequest cab port we addr be ⟨data, false⟩ tag) s = .next ((s.npAccept cab port (s.npAcc cab port we addr.toNat be.toNat data tag) tag).issueLoose (s.npAcc cab port we addr.toNat be.toNat data tag) cab)) ∧
  (∀ (cab : Cab) (port : Fin 2) (we : Bool) (addr : BitVec 26) (be : W64) (data : List W256) (tag : Fin 32) (s : State),
      s.npAck cab port tag = true →
      s.fenced cab = true →
      exec (.npRequest cab port we addr be ⟨data, false⟩ tag) s = .next ((s.npAccept cab port (s.npAcc cab port we addr.toNat be.toNat data tag) tag).deliver (s.npAcc cab port we addr.toNat be.toNat data tag) (noAns .fault 2))) ∧
  (∀ (cab : Cab) (port : Fin 2) (we : Bool) (addr : BitVec 26) (be : W64) (data : List W256) (tag : Fin 32) (s : State),
      s.npAck cab port tag = true →
      s.fenced cab = false →
      exec (.npRequest cab port we addr be ⟨data, true⟩ tag) s = .next (((s.parity cab 2 port).npAccept cab port (s.npAcc cab port we addr.toNat be.toNat data tag) tag).issueLoose (s.npAcc cab port we addr.toNat be.toNat data tag) cab)) ∧
  (∀ (cab : Cab) (k r : Nat) (s : State),
      s.eag cab = none →
      s.parity cab k r = (s.inc (portCnt R.CAB_PORT_PAR cab k)).err { kind := 0x28, req := r, cab := some cab.val, ctx := none }) ∧
  (∀ (cab : Cab) (k r c : Nat) (s : State),
      s.eag cab = some c →
      s.parity cab k r = ((s.inc (portCnt R.CAB_PORT_PAR cab k)).err { kind := 0x28, req := r, cab := some cab.val, ctx := some c }).replayCause c 1) ∧
  (∀ (cab : Cab) (port : Fin 2) (q : LReq) (tag : Fin 32) (s : State),
      (s.npAccept cab port q tag).loose.ports = s.loose.ports ++ [{ cab := cab, port := port, tag := tag, id := q.id, we := q.we, fa := q.fa, gate := s.time.ufc + npMin q + s.fresh.npMore cab q, ans := none }] ∧
        s.sameRegs [R.CAB_PORT_STAT cab] (s.npAccept cab port q tag)) ∧
  (∀ (cab : Cab) (port : Fin 2) (e : PortReq) (a : Ans) (s : State),
      s.frozen = false →
      s.npReqs cab port = [e] →
      e.ans = some a →
      e.gate ≤ s.time.ufc →
      e.we = false →
      a.resp = .ok →
      ∃ t, exec (.npCompletion cab port false) s = .next t ∧
        t.outs = SMap.insert s.outs (cab * 8 + 2 + port) { at' := s.time.fc, tag := e.tag, dat := a.dat, zero := a.zero, sb := 0, resp := .ok } ∧
        t.loose.ports = s.loose.ports.filter (fun x => !decide (x.id = e.id))) ∧
  (∀ (cab : Cab) (port : Fin 2) (e : PortReq) (a : Ans) (s : State),
      s.frozen = false →
      s.npReqs cab port = [e] →
      e.ans = some a →
      e.gate ≤ s.time.ufc →
      exec (.npCompletion cab port true) s = .next ((ran s (exec (.npCompletion cab port false) s)).parity cab 2 port)) ∧
  (∀ (port : PresPort) (level : Bool) (s : State),
      s.presWait.any (fun e => decide (e.1 = port) && decide (e.2.1 = level) && decide (e.2.2 ≤ s.time.fc)) = false →
      exec (.presentChange port level) s = .next (({ s with presWait := s.presWait ++ [(port, level, s.time.fc + 3)] }).later .wall 3 (.presentChange port level))) ∧
  (∀ (port : PresPort) (level : Bool) (n : Nat) (s : State),
      (port, level, n) ∈ s.presWait →
      n ≤ s.time.fc →
      ∃ t, exec (.presentChange port level) s = .next t ∧ (port ∈ t.present ↔ level = true) ∧
        (∀ f, presFld port = some f → t.bit f = (level && ((presCab port).any (fun c => s.inMap c)))) ∧
        (presFld port = none → t.regs = s.regs))

/-- A decision that leaves no request waiting is the whole of PAIR_ARBITRATION; while requests wait the pair decides again on the next fc. A request
granted on the last decision has left the queue and holds its banks from the next fc for the duration of its burst. The one access burst whose last fc
has passed is taken out of occupancy, counted as a grant and performed. REQUEST_URGENT marks the requests that are urgent. Where the spec leaves room
this rests on the model's own choices: log entries 47, 85, 86, 88, 100. -/
def Obligations.PairsDecideAndBurstsCommit : Prop :=
  (∀ (cab : Cab) (pair : Fin 16) (s : State),
      ((s.decide' cab pair).pairSt cab pair).queue = [] →
      exec (.pairArbitration cab pair) s = .next (s.decide' cab pair)) ∧
  (∀ (cab : Cab) (pair : Fin 16) (s : State),
      ((s.decide' cab pair).pairSt cab pair).queue ≠ [] →
      exec (.pairArbitration cab pair) s = .next ((s.decide' cab pair).armPair cab pair)) ∧
  (∀ (cab pair : Nat) (q : PReq) (s : State),
      q.acc.req ≠ 10 →
      (s.grant cab pair q).pairSt cab pair = { s.pairSt cab pair with queue := (s.pairSt cab pair).queue.filter (fun x => !decide (x.acc.id = q.acc.id)), bursts := (s.pairSt cab pair).bursts ++
        [{ req := q, b0 := (LReqBanks q.acc).1, b1 := (LReqBanks q.acc).2, dur := LReqDur q.acc, from' := s.time.ufc + 1, last := s.time.ufc + LReqDur q.acc, dbg := false, wait := s.waitOf q, prio := s.prio cab q.acc.req, urg := s.urgentReq cab q, u := fcAt false (s.time.ufc + (if s.frozen then 0 else 1)) (s.time.fc + 1), half := false }] }) ∧
  (∀ (cab : Cab) (pair : Fin 16) (b : Burst) (s : State),
      (s.pairSt cab pair).bursts.filter (fun x => x.mixed && !x.half && decide (x.from' + 1 < s.time.ufc)) = [] →
      (s.pairSt cab pair).bursts.filter (fun x => s.burstOver x) = [b] →
      b.req.acc.op = .acc →
      exec (.looseBurstDone cab pair) s = .next (((((s.endBurst cab pair b).assayNotes b.req.acc b.from').perform cab b).1.reply b.req.acc
        (((s.endBurst cab pair b).assayNotes b.req.acc b.from').perform cab b).2 cab b.urg).asyFree b.req.acc)) ∧
  (∀ (cab : Cab) (pair : Fin 16) (b : Burst) (bank row0 rows : Nat) (s : State),
      (s.pairSt cab pair).bursts.filter (fun x => x.mixed && !x.half && decide (x.from' + 1 < s.time.ufc)) = [] →
      (s.pairSt cab pair).bursts.filter (fun x => s.burstOver x) = [b] →
      b.req.acc.op = .sweep bank row0 rows →
      exec (.looseBurstDone cab pair) s = .next ((s.endBurst cab pair b).sweepSlot cab bank row0 rows)) ∧
  (∀ (cab : Cab) (pair : Fin 16) (s : State),
      exec (.requestUrgent cab pair) s = .next (s.setPairSt cab pair { s.pairSt cab pair with
          queue := (s.pairSt cab pair).queue.map (fun q => { q with urgent := s.urgentReq cab q }) }))

/-- In a cabinet whose station lets the access pass, ARB.PRIO takes bits 19 to 0 of the value and ARB.AGE the larger of 16 and the value, each with the
old value still in force on this fc; ARB.CNT_CLR leaves in the GRANTS and LONGEST of each selected requester, and in PREEMPT when bit 11 is set, only
what this fc has counted, clears the WAIT of each, and leaves every other counter as it was. -/
def Obligations.ArbitrationRegistersTakeEffect : Prop :=
  (∀ (m : Master) (cab : Cab) (v : W32) (s : State),
      s.synth cab = true →
      s.stationOf cab = .go →
      s.rgsShut (masterIdx m) = false →
      exec (.arbPrioWrite m cab v) s = .next (({ s with loose := { s.loose with prioWas := SMap.insert s.loose.prioWas cab (s.time.fc + 1, (s.reg (R.ARB_PRIO cab)).toNat) } } : State).setReg (R.ARB_PRIO cab) (v &&& 0xFFFFF))) ∧
  (∀ (m : Master) (cab : Cab) (v : W32) (s : State),
      s.synth cab = true →
      s.stationOf cab = .go →
      s.rgsShut (masterIdx m) = false →
      ∃ t, exec (.arbAgeWrite m cab v) s = .next t ∧ t.f (R.ARB_AGE_AGE_LIMIT cab) = max 16 (v.toNat % 65536) ∧ s.sameRegs [R.ARB_AGE cab] t ∧
        SMap.get (0, 0) t.loose.ageWas cab = (s.time.fc + 1, s.f (R.ARB_AGE_AGE_LIMIT cab))) ∧
  (∀ (m : Master) (cab : Cab) (v : W32) (i : Fin 11) (s : State),
      s.synth cab = true →
      s.stationOf cab = .go →
      s.rgsShut (masterIdx m) = false →
      ∃ t, exec (.arbCntClr m cab v) s = .next t ∧
        t.f (R.ARB_GRANTS_COUNT cab i) = (if v.getLsbD i.val then min (s.eventsOn (R.ARB_GRANTS_COUNT cab i) s.time.fc) (2 ^ (R.ARB_GRANTS_COUNT cab i).width - 1) else s.f (R.ARB_GRANTS_COUNT cab i)) ∧
        t.f (R.ARB_WAIT_COUNT cab i) = (if v.getLsbD i.val then 0 else s.f (R.ARB_WAIT_COUNT cab i)) ∧
        t.f (R.ARB_LONGEST_COUNT cab i) = (if v.getLsbD i.val then min (s.eventsOn (R.ARB_LONGEST_COUNT cab i) s.time.fc) (2 ^ (R.ARB_LONGEST_COUNT cab i).width - 1) else s.f (R.ARB_LONGEST_COUNT cab i)) ∧
        t.f (R.ARB_PREEMPT_COUNT cab) = (if v.getLsbD 11 then min (s.eventsOn (R.ARB_PREEMPT_COUNT cab) s.time.fc) (2 ^ (R.ARB_PREEMPT_COUNT cab).width - 1) else s.f (R.ARB_PREEMPT_COUNT cab)))

/-- A loose flit that is ready away from its destination waits at the output its route takes and the output decides on the next fc; one that has arrived
joins the queue of its pair as requester INB, or DBG. On an unfrozen fc with no set-class flit on the output, the flit the output picks, whose next
cabinet has room at that input, stands there one hop further and ready 3 fc later. Where the spec leaves room this rests on the model's own choices:
log entries 79, 87, 92. -/
def Obligations.LooseFlitsTravelTheMesh : Prop :=
  (∀ (id d n : Nat) (f : LFlit) (det : Option Nat) (s : State),
      s.loose.flits.find? (fun x => decide (x.acc.id = id)) = some f →
      f.ready ≤ s.clock (flitClk f.acc) →
      f.cur ≠ f.dst →
      s.lastRouter f.cur f.dst = false →
      s.looseHop f.cur f.dst f.det = .take d n det →
      f.hops + 1 ≤ hopDist f.src f.dst + 16 →
      exec (.looseFlitHop id) s = .next ((s.setFlit { f with out := d, since := 0, waited := 0, hot := false }).armOut f.cur d)) ∧
  (∀ (id : Nat) (f : LFlit) (s : State),
      s.loose.flits.find? (fun x => decide (x.acc.id = id)) = some f →
      f.ready ≤ s.clock (flitClk f.acc) →
      f.cur = f.dst →
      f.dstDie = s.die →
      f.ans = none →
      s.flitFirst f = true →
      s.inbBusy f = false →
      s.lastRouter f.cur f.dst = false →
      s.loose.recalled.contains f.acc.id = false →
      exec (.looseFlitHop id) s = .next ((s.dropFlit f.acc.id).arrive f.acc f.cur (inboundReq f.acc))) ∧
  (∀ (id : Nat) (f : LFlit) (a : Ans) (s : State),
      s.loose.flits.find? (fun x => decide (x.acc.id = id)) = some f →
      f.ready ≤ s.clock (flitClk f.acc) →
      f.cur = f.dst →
      f.dstDie = s.die →
      f.ans = some a →
      s.flitFirst f = true →
      s.lastRouter f.cur f.dst = false →
      exec (.looseFlitHop id) s = .next ((s.dropFlit id).deliver f.acc a)) ∧
  (∀ (cab : Cab) (out : Dir) (n : Nat) (f : LFlit) (det : Option Nat) (s : State),
      s.frozen = false →
      (s.outAge cab (dirIdx out)).set.slots.any (fun x => decide (x.1 = cab.val) && decide (x.2.1 = dirIdx out) && decide (x.2.2.1 = s.time.stime)) = false →
      (s.outAge cab (dirIdx out)).outPick cab (dirIdx out) = some f →
      (s.outAge cab (dirIdx out)).looseHop cab f.dst f.det = .take (dirIdx out) n det →
      ((s.outAge cab (dirIdx out)).loose.flits.filter (fun x => decide (x.cur = n) && decide (x.port = opposite (dirIdx out)))).length < 8 →
      ∃ t, exec (.linkOutputGrant cab out) s = .next t ∧
        t.loose.flits = (s.outAge cab (dirIdx out)).loose.flits.filter (fun x => !decide (x.acc.id = f.acc.id)) ++ [{ f with cur := n, port := opposite (dirIdx out), out := 5, hops := f.hops + 1, det := det, ready := s.time.ufc + 3, since := 0 }] ∧
        t.pwr.flits = s.pwr.flits + 1)

/-- Where the first retirement of a bank is free, AUTO_RETIRE records a macro whose count has reached RET_LIMIT as automatic, with a RETIRE record of
requester 28; RETIRE_WRITE of an accepted master records the first, or with the first in force the second, whose RETIRE2 record goes with a fence
cause 2 for the cabinet. Where the spec leaves room this rests on the model's own choices: log entries 101, 102. -/
def Obligations.RetirementsAreRecorded : Prop :=
  (∀ (cab : Cab) (bank : Bank) (mac : Fin 18) (s : State),
      s.bit (R.BNK_RETIRE_V1 cab bank) = false →
      s.rep.retDue.contains (cab.val, bank.val, mac.val) = true ∨ s.bit (R.BNK_ECC_CTL_AUTO_RET cab) = true ∧ s.f (R.BNK_RET_LIMIT_LIMIT cab) ≤ s.f (mcntFld cab bank mac) →
      ∃ t, exec (.autoRetire cab bank mac) s = .next t ∧ t.f (R.BNK_RETIRE_MAC1 cab bank) = mac.val ∧ t.f (R.BNK_RETIRE_V1 cab bank) = 1 ∧ t.f (R.BNK_RETIRE_AUTO1 cab bank) = 1 ∧
        s.sameRegs [R.BNK_RETIRE cab bank] t ∧ t.rep.retFrom = SMap.insert s.rep.retFrom ((cab * 32 + bank) * 2 + 0) (fcAt s.frozen s.time.ufc s.time.fc) ∧
        t.detected = s.detected ++ [{ kind := 0x03, req := 28, cab := some cab.val, bank := bank, sym := mac, time := s.now }] ∧ t.mem = s.mem) ∧
  (∀ (m : Master) (cab : Cab) (bank : Bank) (v : W32) (s : State),
      s.synth cab = true →
      s.stationOf cab = .go →
      bankMaster m cab = true →
      s.bit (R.BNK_RETIRE_V1 cab bank) = false →
      vbit v 5 = true →
      vbit v 13 = false →
      v.toNat % 32 ≤ 17 →
      s.rgsShut (masterIdx m) = false →
      exec (.retireWrite m cab bank v) s = .next (((s.setRet cab bank 0).puts [(R.BNK_RETIRE_MAC1 cab bank, v.toNat % 32), (R.BNK_RETIRE_V1 cab bank, 1), (R.BNK_RETIRE_AUTO1 cab bank, 0)]).err
          { kind := 0x03, req := masterReq m, cab := some cab.val, bank := bank, sym := v.toNat % 32 })) ∧
  (∀ (m : Master) (cab : Cab) (bank : Bank) (v : W32) (s : State),
      s.synth cab = true →
      s.stationOf cab = .go →
      bankMaster m cab = true →
      s.bit (R.BNK_RETIRE_V1 cab bank) = true →
      s.bit (R.BNK_RETIRE_V2 cab bank) = false →
      vbit v 13 = true →
      v.toNat / 256 % 32 ≤ 17 →
      v.toNat / 256 % 32 ≠ s.f (R.BNK_RETIRE_MAC1 cab bank) →
      s.rgsShut (masterIdx m) = false →
      exec (.retireWrite m cab bank v) s = .next ((((s.setRet cab bank 1).puts [(R.BNK_RETIRE_MAC2 cab bank, v.toNat / 256 % 32), (R.BNK_RETIRE_V2 cab bank, 1)]).err
          { kind := 0x04, req := masterReq m, cab := some cab.val, bank := bank, sym := v.toNat / 256 % 32 }).fenceCause cab 2))

/-- A drip takes one from every bucket above zero and arms the next drip; a write of BKT.CFG by an accepted master stores the threshold and the period, 0
as 1; a write of INJ.CTL with a symbol below 18 stores the value; CNT_CLR clears what its bits select. -/
def Obligations.BankRegistersAreWritten : Prop :=
  (∀ (cab : Cab) (s : State),
      ∃ t, exec (.bucketDrip cab) s = .next t ∧ (∀ b : Bank, t.f (R.BNK_BKT_LEVEL cab b) = s.f (R.BNK_BKT_LEVEL cab b) - 1) ∧
        Due.mk .fab ((s.time.now / ns (1000 * max 1 (s.f (R.BNK_BKT_CFG_DRIP_PERIOD cab))) + 1) * ns (1000 * max 1 (s.f (R.BNK_BKT_CFG_DRIP_PERIOD cab)))) (.bucketDrip cab) ∈ t.agenda) ∧
  (∀ (m : Master) (cab : Cab) (v : W32) (s : State),
      s.synth cab = true →
      s.stationOf cab = .go →
      bankMaster m cab = true →
      s.rgsShut (masterIdx m) = false →
      exec (.bktCfgWrite m cab v) s = .next ((s.puts [(R.BNK_BKT_CFG_THRESH cab, v.toNat % 65536), (R.BNK_BKT_CFG_DRIP_PERIOD cab, max 1 (v.toNat / 65536))]).dripArm cab)) ∧
  (∀ (m : Master) (cab : Cab) (v : W32) (s : State),
      s.synth cab = true →
      s.stationOf cab = .go →
      bankMaster m cab = true →
      v.toNat / 65536 % 32 ≤ 17 →
      s.rgsShut (masterIdx m) = false →
      exec (.injCtlWrite m cab v) s = .next (s.setReg (R.BNK_INJ_CTL cab) (v &&& 0x3FFFFFFF))) ∧
  (∀ (m : Master) (cab : Cab) (v : W32) (b : Bank) (i : Fin 18) (s : State),
      s.synth cab = true →
      s.stationOf cab = .go →
      bankMaster m cab = true →
      s.rgsShut (masterIdx m) = false →
      ∃ t, exec (.bnkCntClr m cab v) s = .next t ∧ t.f (R.BNK_STAT_UE cab) = (if vbit v 0 then min (s.eventsOn (R.BNK_STAT_UE cab) s.time.fc) (2 ^ (R.BNK_STAT_UE cab).width - 1) else s.f (R.BNK_STAT_UE cab)) ∧
        t.f (mcntFld cab b i) = (if vbit v 1 then min (s.eventsOn (mcntFld cab b i) s.time.fc) (2 ^ (mcntFld cab b i).width - 1) else s.f (mcntFld cab b i)) ∧
        t.f (R.BNK_STAT_VB cab) = (if vbit v 2 then min (s.eventsOn (R.BNK_STAT_VB cab) s.time.fc) (2 ^ (R.BNK_STAT_VB cab).width - 1) else s.f (R.BNK_STAT_VB cab)) ∧
        t.f (R.BNK_CE_TOTAL_COUNT cab) = (if vbit v 3 then min (s.eventsOn (R.BNK_CE_TOTAL_COUNT cab) s.time.fc) (2 ^ (R.BNK_CE_TOTAL_COUNT cab).width - 1) else s.f (R.BNK_CE_TOTAL_COUNT cab)) ∧
        t.f (R.BNK_BKT_LEVEL cab b) = (if vbit v 4 then min (s.eventsOn (R.BNK_BKT_LEVEL cab b) s.time.fc) (2 ^ (R.BNK_BKT_LEVEL cab b).width - 1) else s.f (R.BNK_BKT_LEVEL cab b)))

/-- GO of an accepted master with BASE not above LIMIT, no GO in progress and room in the queue sets GO and gives the range BASE to LIMIT to the engine of
the cabinet; the range whose last slot is done sets DONE and clears GO of SWP_CTL when it came from there. -/
def Obligations.SweepsClearValidBits : Prop :=
  (∀ (m : Master) (cab : Cab) (v : W32) (s : State),
      s.synth cab = true →
      s.stationOf cab = .go →
      bankMaster m cab = true →
      vbit v 0 = true →
      vbit v 1 = false →
      vbit v 2 = false →
      s.bit (R.BNK_SWP_CTL_GO cab) = false →
      s.f (R.BNK_SWP_BASE_BASE cab) ≤ s.f (R.BNK_SWP_LIMIT_LIMIT cab) →
      (s.swp cab).queue.length < 4 →
      s.rgsShut (masterIdx m) = false →
      exec (.swpGo m cab v) s = .next ((s.put (R.BNK_SWP_CTL_GO cab) 1).sweepAdd cab
          { base := s.f (R.BNK_SWP_BASE_BASE cab), limit := s.f (R.BNK_SWP_LIMIT_LIMIT cab), org := .reg, todo := [], busy := 0 })) ∧
  (∀ (cab : Cab) (r : SwpRange) (s : State),
      (s.swp cab).run = some r →
      r.todo = [] →
      r.busy = 0 →
      (s.swp cab).queue = [] →
      r.org = .reg →
      s.rep.swpWait.find? (fun e => decide (e.1 = cab.val)) = none →
      exec (.sweepRangeDone cab) s = .next ((s.setSwp cab { run := none, queue := [] }).puts [(R.BNK_SWP_CTL_GO cab, 0), (R.BNK_SWP_CTL_DONE cab, 1)])) ∧
  (∀ (cab : Cab) (r : SwpRange) (s : State),
      (s.swp cab).run = some r →
      r.todo = [] →
      r.busy = 0 →
      (((s.setSwp cab { (s.swp cab) with run := none }).sweepOver cab r.org 0).swp cab).queue = [] →
      ((s.setSwp cab { (s.swp cab) with run := none }).sweepOver cab r.org 0).rep.swpWait.find? (fun e => decide (e.1 = cab.val)) = none →
      exec (.sweepRangeDone cab) s = .next ((s.setSwp cab { (s.swp cab) with run := none }).sweepOver cab r.org 0)) ∧
  (∀ (cab : Cab) (r q : SwpRange) (rest : List SwpRange) (s : State),
      (s.swp cab).run = some r →
      r.todo = [] →
      r.busy = 0 →
      (((s.setSwp cab { (s.swp cab) with run := none }).sweepOver cab r.org 0).swp cab).queue = q :: rest →
      ((((s.setSwp cab { (s.swp cab) with run := none }).sweepOver cab r.org 0).setSwp cab { run := none, queue := rest }).sweepStart cab q).rep.swpWait.find? (fun e => decide (e.1 = cab.val)) = none →
      exec (.sweepRangeDone cab) s = .next ((((s.setSwp cab { (s.swp cab) with run := none }).sweepOver cab r.org 0).setSwp cab { run := none, queue := rest }).sweepStart cab q)) ∧
  (∀ (bank row0 rows row cab b : Nat) (s : State),
      row < 4096 →
      b < 32 →
      row0 + rows ≤ 4096 →
      bank < 32 →
      (s.clearValid cab bank row0 rows).validCells cab b row = if b = bank ∧ row0 ≤ row ∧ row < row0 + rows then 0 else s.validCells cab b row)

/-- An acknowledge of the owner or DBG with a next record moves it to FIRST and clears NEXT_V; without one it clears FIRST_V. CLR_ALL clears both and the
overflow count. An error enters FIRST when FIRST is empty, NEXT when NEXT is empty, and otherwise counts in LOG_OVF; SEQ advances each time. Where the
spec leaves room this rests on the model's own choices: log entry 12. -/
def Obligations.LogsAreAcknowledged : Prop :=
  (∀ (m : Master) (k : Fin 4) (v : W32) (s : State),
      (m == (if s.f (R.ERR_LOG_CTL_OWNER k) = 0 then Master.sec else Master.hrp) || m == .dbg) = true →
      vbit v 1 = false →
      s.bit (R.ERR_LOG_STAT_FIRST_V k) = true →
      s.bit (R.ERR_LOG_STAT_NEXT_V k) = true →
      s.rgsShut (masterIdx m) = false →
      ∃ t, exec (.logAck m k v) s = .next t ∧ t.f (R.ERR_LOG_STAT_NEXT_V k) = 0 ∧ t.f (R.ERR_LOG_STAT_FIRST_V k) = 1 ∧ (firstRegs k).map t.reg = (nextRegs k).map s.reg) ∧
  (∀ (m : Master) (k : Fin 4) (v : W32) (s : State),
      (m == (if s.f (R.ERR_LOG_CTL_OWNER k) = 0 then Master.sec else Master.hrp) || m == .dbg) = true →
      vbit v 1 = false →
      s.bit (R.ERR_LOG_STAT_NEXT_V k) = false →
      s.rgsShut (masterIdx m) = false →
      ∃ t, exec (.logAck m k v) s = .next t ∧ t.f (R.ERR_LOG_STAT_NEXT_V k) = 0 ∧ t.f (R.ERR_LOG_STAT_FIRST_V k) = 0) ∧
  (∀ (m : Master) (k : Fin 4) (v : W32) (s : State),
      (m == (if s.f (R.ERR_LOG_CTL_OWNER k) = 0 then Master.sec else Master.hrp) || m == .dbg) = true →
      s.rgsShut (masterIdx m) = false →
      ∃ t, exec (.logClrAll m k v) s = .next t ∧ t.f (R.ERR_LOG_STAT_FIRST_V k) = 0 ∧ t.f (R.ERR_LOG_STAT_NEXT_V k) = 0 ∧ t.f (R.ERR_LOG_OVF_COUNT k) = 0) ∧
  (∀ (e : ErrRec) (s : State),
      s.bit (R.ERR_LOG_STAT_FIRST_V (logOf e.kind)) = false →
      s.enter e = (((s.put (R.ERR_LOG_STAT_SEQ (logOf e.kind)) (s.f (R.ERR_LOG_STAT_SEQ (logOf e.kind)) + 1)).setRegs (firstRegs (logOf e.kind)) (recWords e (s.f (R.ERR_LOG_STAT_SEQ (logOf e.kind))))).put (R.ERR_LOG_STAT_FIRST_V (logOf e.kind)) 1))

/-- GO asks for leave with the range and the summary cleared; an abort stops a started pass from presenting; a burst presents the next read when its pair
is free and its GAP has passed; when everything is presented and answered, DONE and END are set, GO falls and the leave is returned. Where the spec
leaves room this rests on the model's own choices: log entries 103, 104. -/
def Obligations.AssayPassesRunAndEnd : Prop :=
  (∀ (m : Master) (cab : Cab) (v : W32) (s : State),
      s.synth cab = true →
      s.stationOf cab = .go →
      bankMaster m cab = true →
      vbit v 1 = false →
      vbit v 2 = false →
      vbit v 3 = false →
      s.bit (R.ASY_CTL_GO cab) = false →
      s.f (R.ASY_BASE_BASE cab) ≤ s.f (R.ASY_LIMIT_LIMIT cab) →
      s.rgsShut (masterIdx m) = false →
      ∃ t, exec (.assayGo m cab v) s = .next t ∧ t.f (R.ASY_CTL_GO cab) = 1 ∧ t.f (R.ASY_CTL_END cab) = 0 ∧ t.f (R.ASY_CTL_GAP cab) = v.toNat / 256 % 256 ∧
        (∀ k ∈ [R.ASY_SUM_WORDS cab, R.ASY_SUM_INVALID cab, R.ASY_SUM_CE cab, R.ASY_SUM_UE cab, R.ASY_SUM_UE_ADDR cab, R.ASY_SUM_REMAP cab, R.ASY_SUM_DUR cab], t.reg k = 0) ∧
        t.asyPass cab = some { started := false, next := s.f (R.ASY_BASE_BASE cab), t0 := 0, nextAt := 0, out := [], repOut := [], aborted := false }) ∧
  (∀ (m : Master) (cab : Cab) (v : W32) (p : AsyPass) (s : State),
      s.synth cab = true →
      s.stationOf cab = .go →
      bankMaster m cab = true →
      vbit v 0 = false →
      s.asyPass cab = some p →
      p.started = true →
      s.rgsShut (masterIdx m) = false →
      exec (.assayAbort m cab v) s = .next ((((s.asyFields cab (v ||| 8)).setAsy cab (some { p with aborted := true })).asyCheck cab 1))) ∧
  (∀ (cab : Cab) (p : AsyPass) (s : State),
      s.asyPass cab = some p →
      p.started = true →
      p.aborted = false →
      p.next ≤ s.f (R.ASY_LIMIT_LIMIT cab) →
      s.frozen = false →
      p.nextAt ≤ s.time.ufc →
      s.time.ufc ≠ p.taken →
      p.out.any (fun x => decide (x.1 = p.next % 32 / 2)) = false →
      p.repOut.any (fun x => decide (x.1 / 2 = p.next % 32 / 2)) = false →
      ∃ t, exec (.assayBurst cab) s = .next t ∧ t.asyPass cab = some { p with
          next := p.next + (if p.next % 2 = 0 ∧ p.next + 1 ≤ s.f (R.ASY_LIMIT_LIMIT cab) then 2 else 1), nextAt := s.time.ufc + 1 + s.f (R.ASY_CTL_GAP cab), out := p.out ++ [(p.next % 32 / 2, p.next)] } ∧
        (t.pairSt cab (p.next % 32 / 2)).queue.any (fun q => decide (q.acc.org = .asy cab p.next)) = true) ∧
  (∀ (cab : Cab) (p : AsyPass) (s : State),
      s.asyPass cab = some p →
      p.started = true →
      p.aborted = true ∨ s.f (R.ASY_LIMIT_LIMIT cab) < p.next →
      p.out = [] →
      p.repOut = [] →
      exec (.assayDone cab) s = .next ((((s.setAsy cab none).puts [(R.ASY_CTL_GO cab, 0), (R.ASY_CTL_DONE cab, 1), (R.ASY_CTL_END cab, if p.aborted then 2 else 1), (R.ASY_SUM_DUR_FC cab, min (s.time.ufc - p.t0) (2 ^ 32 - 1))]).asyEnd cab).leaveBack (.assay cab)))

/-- GO of an accepted master with a free spare, for a row without an entry and no move in progress, sets GO and queues the move at the pair of the bank.
The repair burst and the move burst that has ended in pair 0 is taken out of occupancy; the repair rewrites the corrected word; the move clears GO
and, with a free spare, reports DONE and whether the row is poisoned. Where the spec leaves room this rests on the model's own choices: log entries
105, 106, 107, 108. -/
def Obligations.RowsAreRepairedAndMoved : Prop :=
  (∀ (m : Master) (cab : Cab) (v : W32) (s : State),
      s.synth cab = true →
      s.stationOf cab = .go →
      bankMaster m cab = true →
      s.bit (R.RMP_ADD_GO cab) = false →
      vbit v 31 = true →
      (s.freeSpare cab (v.toNat / 4096 % 32)).isSome →
      s.remapOf cab (v.toNat / 4096 % 32) (v.toNat % 4096) = none →
      s.rgsShut (masterIdx m) = false →
      ∃ t, exec (.remapAdd m cab v) s = .next t ∧ t.f (R.RMP_ADD_GO cab) = 1 ∧ t.f (R.RMP_ADD_ROW cab) = v.toNat % 4096 ∧ t.f (R.RMP_ADD_BANK cab) = v.toNat / 4096 % 32 ∧
        ((t.pairSt cab (v.toNat / 4096 % 32 / 2)).queue.map (fun q => q.acc.op)).getLast? = some (.move (v.toNat / 4096 % 32) (v.toNat % 4096))) ∧
  (∀ (cab : Cab) (bank : Bank) (row i : Nat) (b : Burst) (s : State),
      (s.pairSt cab (bank.val / 2)).bursts.filter (fun x => s.burstOver x && x.isMove) = [b] →
      (∀ j : Fin 16, j.val ≠ bank.val / 2 → (s.pairSt cab j).bursts.filter (fun x => s.burstOver x && x.isMove) = []) →
      b.req.acc.op = .move bank.val row →
      row < 4096 →
      s.freeSpare cab bank = some i →
      s.remapOf cab bank row = none →
      ∃ t, exec (.remapMove cab) s = .next t ∧ t.f (R.RMP_ADD_GO cab) = 0 ∧ t.f (R.RMP_ADD_STAT_DONE cab) = 1 ∧ t.f (R.RMP_ENT_VALID cab bank i) = 1 ∧ t.f (R.RMP_ENT_ROW cab bank i) = row ∧
        (t.pairSt cab (bank.val / 2)).bursts = (s.pairSt cab (bank.val / 2)).bursts.filter (fun x => !decide (x.req.acc.id = b.req.acc.id))) ∧
  (∀ (cab : Cab) (bank : Bank) (row : Nat) (b : Burst) (p : AsyPass) (s : State),
      (s.pairSt cab (bank.val / 2)).bursts.filter (fun x => s.burstOver x && x.isRepair) = [b] →
      (∀ j : Fin 16, j.val ≠ bank.val / 2 → (s.pairSt cab j).bursts.filter (fun x => s.burstOver x && x.isRepair) = []) →
      b.req.acc.op = .repair bank.val row →
      s.asyPass cab = some p →
      exec (.assayRepair cab) s = .next ((((s.endBurst cab (bank.val / 2) b).repair cab bank row b.from').setAsy cab (some { p with repOut := p.repOut.filter (fun x => !decide (x = (bank.val, row))) })).asyCheck cab 0))

/-- The first frozen fc of a freeze sets the bit of its source and FROZEN; the first unfrozen fc of the last freeze clears both and stores the length of
the freeze; a change of FRZ_REQ is sampled and acts one fc later; FRZ_CTL takes the bits its master may write and the firmware and licensee freezes
follow. A new begin mark of another die is kept, raises the package freeze and goes on over the other lanes; the end mark of the only mark in force
ends the package freeze three fc later and goes on as well. Where the spec leaves room this rests on the model's own choices: log entries 50, 89. -/
def Obligations.FreezesBeginAndEnd : Prop :=
  (∀ (src : FrzSrc) (n : Nat) (s : State),
      (src, n) ∈ s.frzSampled.frz.starts →
      n ≤ s.time.fc →
      ∃ t, exec (.freezeStart src) s = .next t ∧ t.frozen = true ∧ t.bit (srcBit src) = true ∧ t.frz.run = (if s.frozen then s.frz.run else 0) ∧ s.sameRegs [R.LCT_FRZ_STAT] t ∧ t.mem = s.mem) ∧
  (∀ (src : FrzSrc) (n : Nat) (s : State),
      (src, n) ∈ s.frzSampled.frz.ends →
      n ≤ s.time.fc →
      (∀ e ∈ s.frzSampled.frz.starts, s.time.fc + 3 ≤ e.2) →
      (∀ x ∈ [FrzSrc.bridge, .clamp, .debug, .firmware, .licensee, .package], x ≠ src → s.bit (srcBit x) = false) →
      ∃ t, exec (.freezeFinish src) s = .next t ∧ t.frozen = false ∧ t.bit (srcBit src) = false ∧ t.f R.LCT_FRZ_LAST_V = min s.frz.run (2 ^ 32 - 1) ∧ s.sameRegs [R.LCT_FRZ_STAT, R.LCT_FRZ_LAST] t ∧ t.mem = s.mem) ∧
  (∀ (src x : FrzSrc) (n : Nat) (s : State),
      (src, n) ∈ s.frzSampled.frz.ends →
      n ≤ s.time.fc →
      x ≠ src →
      s.bit (srcBit x) = true →
      ∃ t, exec (.freezeFinish src) s = .next t ∧ t.frozen = s.frozen ∧ t.bit (srcBit src) = false ∧ t.bit (srcBit x) = true ∧ s.sameRegs [R.LCT_FRZ_STAT] t) ∧
  (∀ (level : Bool) (s : State),
      s.frz.pin ≠ level →
      exec (.frzReqChange level) s = .next (({ s with frz := { s.frz with reqNew := s.frz.reqNew ++ [(s.time.fc, level)] } } : State).later .wall 1 (if level then .freezeStart .licensee else .freezeFinish .licensee))) ∧
  (∀ (m : Master) (v : W32) (s : State),
      m = .pwc ∨ m = .sch ∨ m = .dbg ∨ v.toNat / 2 % 2 = s.f R.LCT_FRZ_CTL_FW_FRZ →
      m = .sec ∨ m = .dbg ∨ v.toNat / 4 % 2 = s.f R.LCT_FRZ_CTL_SEC_FRZ →
      s.rgsShut (masterIdx m) = false →
      ∃ t, exec (.frzCtlWrite m v) s = .next t ∧ t.f R.LCT_FRZ_CTL_REQ_EN = v.toNat % 2 ∧ t.f R.LCT_FRZ_CTL_FW_FRZ = v.toNat / 2 % 2 ∧ t.f R.LCT_FRZ_CTL_SEC_FRZ = v.toNat / 4 % 2 ∧
        (t.frz.lines.contains .firmware = true ↔ v.toNat / 2 % 2 = 1 ∨ v.toNat / 4 % 2 = 1) ∧ s.sameRegs [R.LCT_FRZ_CTL] t) ∧
  (∀ (lane origin : Fin 8) (seq : Nat) (s : State),
      origin.val ≠ s.die →
      s.frz.marks.any (fun m => decide (m.origin = origin.val) && decide (m.seq = seq)) = false →
      exec (.freezeBeginMark lane origin seq) s = .next ((({ s with frz := { s.frz with marks := s.frz.marks.filter (fun m => m.open' || decide (m.origin ≠ origin.val)) ++ [{ origin := origin, seq := seq, open' := true }] } } : State).frzRaise .package).send (.beginMark origin seq) none (some lane))) ∧
  (∀ (lane origin : Fin 8) (seq : Nat) (s : State),
      s.frz.marks.any (fun m => decide (m.origin = origin.val) && decide (m.seq = seq) && m.open') = true →
      (({ s with frz := { s.frz with marks := s.frz.marks.map (fun m => if decide (m.origin = origin.val) && decide (m.seq = seq) && m.open' then { m with open' := false } else m) } } : State).send (.endMark origin seq) none (some lane)).frz.marks.any (fun m => m.open') = false →
      exec (.freezeEndMark lane origin seq) s = .next ((({ s with frz := { s.frz with marks := s.frz.marks.map (fun m => if decide (m.origin = origin.val) && decide (m.seq = seq) && m.open' then { m with open' := false } else m) } } : State).send (.endMark origin seq) none (some lane)).frzFall .package)) ∧
  (∀ (lane origin : Fin 8) (seq : Nat) (s : State),
      s.frz.marks.any (fun m => decide (m.origin = origin.val) && decide (m.seq = seq) && m.open') = true →
      (({ s with frz := { s.frz with marks := s.frz.marks.map (fun m => if decide (m.origin = origin.val) && decide (m.seq = seq) && m.open' then { m with open' := false } else m) } } : State).send (.endMark origin seq) none (some lane)).frz.marks.any (fun m => m.open') = true →
      exec (.freezeEndMark lane origin seq) s = .next (({ s with frz := { s.frz with marks := s.frz.marks.map (fun m => if decide (m.origin = origin.val) && decide (m.seq = seq) && m.open' then { m with open' := false } else m) } } : State).send (.endMark origin seq) none (some lane)))

/-- A mark at a frame boundary closes the open step of its context and opens the next; at the restart fc of a replay the mark opens the step of the next
attempt; a closed step is released 256 fc after its close; a notice starts the replay of the attempt that is open; STEP_REPLAY falls on the fc before
the restart fc. Where the spec leaves room this rests on the model's own choices: log entries 16, 109. -/
def Obligations.StepsOpenCloseAndReplay : Prop :=
  (∀ (ctx : Ctx) (s : State),
      s.discards (some ctx.val) = false →
      s.frozen = false →
      s.time.stime % 64 = 0 →
      s.stp.restart.find? (fun r => decide (r.1 = ctx.val)) = none →
      exec (.stepMark ctx false) s = .next ((s.closeStep ctx).openStep ctx)) ∧
  (∀ (c : Nat) (s : State),
      (s.openStep c).stp.steps = s.stp.steps ++ [{ ctx := c, openAt := s.time.stime, closeAt := none }] ∧ (s.openStep c).f (R.LCT_STEP_STATE c) = (if s.faulted c then 3 else 1) ∧ s.sameRegs [R.LCT_STEP c] (s.openStep c)) ∧
  (∀ (ctx : Ctx) (a : Nat) (s : State),
      s.discards (some ctx.val) = false →
      s.frozen = false →
      s.time.stime % 64 = 0 →
      s.stp.restart.find? (fun r => decide (r.1 = ctx.val)) = some (ctx.val, s.time.stime, a) →
      a < 3 →
      ∃ t, exec (.stepMark ctx true) s = .next t ∧ t.f (R.LCT_STEP_ATTEMPT ctx) = a + 1 ∧ t.f (R.LCT_STEP_STATE ctx) = (if s.faulted ctx then 3 else 1) ∧ t.f (R.LCT_STEP_UNRELEASED ctx) = 0 ∧ t.stp.steps = s.stp.steps.filter (fun x => decide (x.ctx ≠ ctx.val)) ++ [{ ctx := ctx, openAt := s.time.stime, closeAt := none }]) ∧
  (∀ (ctx : Ctx) (t : Sys2Proof.Machine.Step) (a : Nat) (s : State),
      s.discards (some ctx.val) = false →
      s.frozen = false →
      s.stp.restart.any (fun r => decide (r.1 = ctx.val)) = false →
      s.stp.steps.find? (fun x => decide (x.ctx = ctx.val) && x.closeAt.isSome) = some t →
      t.closeAt = some a →
      a + 256 ≤ s.time.stime →
      exec (.stepRelease ctx) s = .next (s.releaseStep t a)) ∧
  (∀ (lane : Fin 8) (ctx : Ctx) (attempt : Fin 4) (r : Nat) (s : State),
      s.stp.heard.contains (ctx.val, attempt.val, r) = false →
      s.stp.restart.find? (fun x => decide (x.1 = ctx.val)) = none →
      s.faulted ctx = false →
      s.stepLive ctx = true →
      s.f (R.LCT_STEP_ATTEMPT ctx) = attempt →
      attempt.val ≠ 3 →
      s.masked.contains 2 = false →
      s.frozen = false →
      exec (.replayNotice lane ctx attempt r) s = .next (((((s.hear ctx attempt r).send (.replay ctx attempt r) none (some lane)).startReplay ctx 4 attempt r).replayRise ctx))) ∧
  (∀ (ctx : Ctx) (r a : Nat) (s : State),
      s.frozen = false →
      s.stp.skewed.contains ctx.val = false →
      s.stp.replayPin.contains (ctx.val, 1) = false →
      s.stp.restart.find? (fun x => decide (x.1 = ctx.val)) = some (ctx.val, r, a) →
      s.time.stime + 1 = r →
      s.masked.contains 2 = false →
      exec (.replayRestart ctx) s = .next (({ s with stp := { s.stp with replayPin := s.stp.replayPin.filter (fun p => decide (p.1 ≠ ctx.val)) } } : State).at' .sched (r + 1) (.replayRestart ctx))) ∧
  (∀ (ctx : Ctx) (r a : Nat) (s : State),
      s.frozen = false →
      s.stp.skewed.contains ctx.val = false →
      s.stp.replayPin.contains (ctx.val, 1) = true →
      s.stp.restart.find? (fun x => decide (x.1 = ctx.val)) = some (ctx.val, r, a) →
      s.time.stime + 1 < r →
      exec (.replayRestart ctx) s = .next (s.replayRise ctx))

/-- An engine signal that passes the checks, in a cabinet whose queue has room, is issued, held while a step of its context is live, and answered OK on
the next fc; SYN.SIGNAL issues one for its register source. The oldest released signal of its port whose writes are drained leaves when the injection
of its cabinet is free and capacity is not short of it; one at a bridge goes on once its drain set is over and a loose one has room at its unit; one
that its counter unit can take on this fc is applied there. Where the spec leaves room this rests on the model's own choices: log entries 19, 20, 93. -/
def Obligations.SignalsTravelAndAreApplied : Prop :=
  (∀ (cab : Cab) (cn : BitVec 19) (inc : BitVec 16) (drain : BitVec 3) (s : State),
      s.bit (R.CAB_PORT_STAT_P_SEQ cab) = true →
      s.frozen = false →
      s.discards (s.eag cab) = false →
      s.fenced cab = false →
      s.sigCheck (s.eag cab) cn.toNat = none →
      s.replaying (s.eag cab) = false →
      s.sgq cab < 64 →
      exec (.engineSignal cab cn inc drain) s = .next ((s.issueSig (.engine cab) (s.eag cab) cn.toNat inc.toNat (s.portWrites cab ((if drain.getLsbD 0 then [12] else []) ++ (if drain.getLsbD 1 then [0] else []) ++ (if drain.getLsbD 2 then [1] else []))) ((s.eag cab).any (fun c => s.stepLive c))).synResp cab 4 .ok)) ∧
  (∀ (src : SigSrc) (ctx : Option Nat) (cn inc : Nat) (drain : List Nat) (held : Bool) (s : State),
      (s.issueSig src ctx cn inc drain held).syn.signals = s.syn.signals ++ [{ id := s.syn.nextSig, src := src, die := s.die, ctx := ctx, cn := cn, inc := inc, drain := drain, place := if held then .held else .port, since := s.time.stime }]) ∧
  (∀ (m : Master) (cab : Cab) (v : W32) (cn : Nat) (s : State),
      s.synth cab = true →
      s.stationOf cab = .go →
      (bankMaster m cab || m == .sch) = true →
      cn = s.die * 65536 + (if 256 ≤ v.toNat % 512 then 0 else ((List.range 128).find? (fun n => decide (s.mapped s.cur n = some cab.val))).getD 127 * 512) + v.toNat % 512 →
      v.toNat % 512 < 64 ∨ 256 ≤ v.toNat % 512 →
      s.rgsShut (masterIdx m) = false →
      exec (.synSignalWrite m cab v) s = .next (s.issueSig (.reg cab (masterReq m)) none cn (v.toNat / 65536) [] false)) ∧
  (∀ (id c : Nat) (g : Sig) (s : State),
      s.syn.signals.find? (fun x => decide (x.id = id) && decide (x.place = SigPlace.port)) = some g →
      s.frozen = false →
      s.oldestOf g.src = some id →
      s.drainOver g = true →
      sigCab g.src = some c →
      s.capUsed c = 0 →
      sigSet g = true ∨ s.setLeaves (some c) = false →
      s.looseHeld g = false →
      exec (.signalLeave id) s = .next ((s.useFree.useCap c).travel g)) ∧
  (∀ (id : Nat) (k : Fin 4) (g : Sig) (s : State),
      s.syn.signals.find? (fun x => decide (x.id = id) && decide (x.place = SigPlace.port)) = some g →
      s.frozen = false →
      s.oldestOf g.src = some id →
      s.drainOver g = true →
      g.src = .edge k.val →
      s.capUsed (600 + k) = 0 →
      s.setLeaves none = false →
      exec (.signalLeave id) s = .next (if s.looseHeld g then (s.later .unfz 1 (.signalLeave id)).useFree else (s.useFree.useCap (600 + k)).travel g)) ∧
  (∀ (g : Sig) (s : State),
      cnDie g.cn = s.die →
      ∃ d, s.travel g = (s.useFree.setSig { g with place := .net, since := d }).at' .unfz d (.signalApply g.id) ∧ s.time.ufc + 1 ≤ d ∧
        (sigSet g = true → d ≤ max (s.time.ufc + 16) (s.syn.signals.foldl (fun m x => if x.src = g.src ∧ x.place = SigPlace.net then max m x.since else m) 0)) ∧
        s.syn.signals.foldl (fun m x => if x.src = g.src ∧ x.place = SigPlace.net then max m x.since else m) 0 ≤ d) ∧
  (∀ (id : Nat) (g : Sig) (s : State),
      s.syn.signals.find? (fun x => decide (x.id = id) && decide (x.place = SigPlace.bridge)) = some g →
      s.frozen = false →
      s.drainOver g = true →
      s.syn.signals.find? (fun x => decide (x.src = g.src) && decide (x.die = g.die) && decide (x.place = SigPlace.bridge)) = some g →
      sigSet g = true ∨ cnDie g.cn ≠ s.die ∨ s.unitRoom g = true →
      exec (.signalBridgeRelease id) s = .next (s.travel g)) ∧
  (∀ (id : Nat) (g : Sig) (s : State),
      s.syn.signals.find? (fun x => decide (x.id = id) && (decide (x.place = SigPlace.net) || decide (x.place = SigPlace.away))) = some g →
      g.place = .net →
      s.frozen = false →
      g.since ≤ s.time.ufc →
      s.unitFree g (s.sigUnit g) = true →
      exec (.signalApply id) s = .next ((s.useCap (s.sigUnit g)).applySig g)) ∧
  (∀ (id : Nat) (g : Sig) (s : State),
      s.syn.signals.find? (fun x => decide (x.id = id) && (decide (x.place = SigPlace.net) || decide (x.place = SigPlace.away))) = some g →
      g.place = .away →
      s.frozen = false →
      g.since ≤ s.time.ufc →
      exec (.signalApply id) s = .next (s.awayOver g)) ∧
  (∀ (g : Sig) (p : Nat) (s : State),
      cnSel g.cn < 64 →
      s.sigAt g = some p →
      s.pow p ≤ 1 →
      s.sigAllowed g (R.SYN_CTR_CFG p (cnSel g.cn)) = true →
      s.applySig g = ((s.dropSig g.id).addCtr (R.SYN_CTR_CFG p (cnSel g.cn)) g.inc).edgeOutcome g 0) ∧
  (∀ (p : Cab) (n : Fin 64) (inc : Nat) (s : State),
      inc ≠ 0 →
      (s.addCtr (R.SYN_CTR_CFG p n) inc).ctrVal (R.SYN_CTR_CFG p n) = (s.ctrVal (R.SYN_CTR_CFG p n) + inc) % 2 ^ 48)

/-- A registration of a waiter below 12 on a counter bound to the context of the cabinet stores counter, context and expected value, replaces the last one
and is answered OK; a cancel empties the waiter; a satisfied waiter of a counter whose WAKE_EN is set fires in a cabinet in Run, and its wire rises on
the next fc; an update due reaches the shadows of a die-global counter and its waiters compare. -/
def Obligations.WaitersRegisterFireAndCancel : Prop :=
  (∀ (cab : Cab) (id : Fin 16) (ctr : BitVec 9) (exp : W48) (s : State),
      s.bit (R.CAB_PORT_STAT_P_SEQ cab) = true →
      s.frozen = false →
      s.discards (s.eag cab) = false →
      s.fenced cab = false →
      id.val < 12 →
      s.waitCheck cab ctr.toNat (s.eag cab) = none →
      exec (.waitRegister cab id ctr exp) s = .next ((s.registerWtr cab id ctr.toNat exp.toNat ((s.eag cab).getD 0)).synResp cab 5 .ok)) ∧
  (∀ (cab : Cab) (w : Fin 16) (sel e c : Nat) (s : State),
      sel < 512 →
      e < 2 ^ 48 →
      c < 16 →
      (s.registerWtr cab w sel e c).f (R.SYN_WTR_A_CTR cab w) = sel ∧ (s.registerWtr cab w sel e c).f (R.SYN_WTR_A_CTX cab w) = c ∧ (s.registerWtr cab w sel e c).f (R.SYN_WTR_A_REG cab w) = 1 ∧
        (s.registerWtr cab w sel e c).f (R.SYN_WTR_A_FIRED cab w) = 0 ∧ (s.registerWtr cab w sel e c).wtrExp cab w = e) ∧
  (∀ (cab : Cab) (id : Fin 16) (s : State),
      s.bit (R.CAB_PORT_STAT_P_SEQ cab) = true →
      s.frozen = false →
      s.discards (s.eag cab) = false →
      s.fenced cab = false →
      id.val < 12 →
      exec (.waitCancel cab id) s = .next ((s.cancelWtr cab id).synResp cab 5 .ok)) ∧
  (∀ (cab : Cab) (k : Fin 16) (key : Nat) (s : State),
      s.wtrReady cab k = true →
      s.frozen = false ∨ s.syn.byHand.any (fun e => decide (e.1 = cab.val * 16 + k.val) && decide (e.2 ≤ s.time.fc)) = true →
      ctrKey cab (s.f (R.SYN_WTR_A_CTR cab k)) = some key →
      s.bit (cfgWake key) = true →
      s.pow cab = 0 →
      ∃ t, exec (.waiterFire cab k) s = .next t ∧ t.f (R.SYN_WTR_A_FIRED cab k) = 1 ∧ t.f (R.SYN_WTR_A_PENDING cab k) = 0 ∧ t.syn.wires = s.syn.wires ++ [(cab.val * 16 + k.val, s.time.fc + 1)] ∧ s.sameRegs [R.SYN_WTR_A cab k] t) ∧
  (∀ (cab : Cab) (k : Fin 16) (key : Nat) (s : State),
      s.wtrReady cab k = true →
      s.frozen = false →
      ctrKey cab (s.f (R.SYN_WTR_A_CTR cab k)) = some key →
      s.bit (cfgWake key) = false →
      ∃ t, exec (.waiterFire cab k) s = .next t ∧ t.f (R.SYN_WTR_A_PENDING cab k) = 1 ∧ s.sameRegs [R.SYN_WTR_A cab k] t) ∧
  (∀ (g : Fin 256) (n x : Nat) (s : State),
      s.frozen = false →
      s.syn.shadowQ.filter (fun e => decide (e.1 = g.val) && decide (e.2.1 ≤ s.time.ufc)) = [(g.val, n, x)] →
      exec (.shadowUpdate g) s = .next ((({ s with syn := { s.syn with shadowQ := s.syn.shadowQ.filter (fun e => !(decide (e.1 = g.val) && decide (e.2.1 ≤ s.time.ufc))) } } : State).setShadows g x).compareAll (R.SYN_G_CFG 0 g)))

/-- A write of SCH, SEC or DBG with BOUND set binds a free counter, whose value returns to 0; with BOUND clear it unbinds a bound one, which stays quiet
for 4096 unfrozen fc; the write of WAKE_EN keeps a bound counter bound. The key opens the set path for one microsecond of fabric time; through the
open path the pair of SET registers sets a counter and closes the path. GO of SEC or DBG in a freeze, with no dump in progress and a base that fits,
sets GO and clears TORN; the engine writes the die-global record at the base and the record of a cabinet at its place behind it, and after the last
one sets DONE and clears GO. No other byte of the memories changes. Where the spec leaves room this rests on the model's own choices: log entry 24. -/
def Obligations.CountersAreBoundAndSetByHand : Prop :=
  (∀ (m : Master) (sel : CtrSel) (v : W32) (s : State),
      s.synth (selCab sel) = true →
      s.stationOf (selCab sel) = .go →
      (m == .sch || m == .sec || m == .dbg) = true →
      s.bit (cfgBound (selKey sel)) = false →
      s.bit (cfgQuiet (selKey sel)) = false →
      s.rgsShut (masterIdx m) = false →
      exec (.counterBind m sel v) s = .next ((s.bindCtr (selKey sel)).ctrFields (selKey sel) (v ||| 0x10))) ∧
  (∀ (sel : CtrSel) (s : State),
      (s.bindCtr (selKey sel)).f (cfgBound (selKey sel)) = 1 ∧ (s.bindCtr (selKey sel)).ctrVal (selKey sel) = 0) ∧
  (∀ (m : Master) (sel : CtrSel) (v : W32) (s : State),
      s.synth (selCab sel) = true →
      s.stationOf (selCab sel) = .go →
      (m == .sch || m == .sec || m == .dbg) = true →
      s.bit (cfgBound (selKey sel)) = true →
      s.rgsShut (masterIdx m) = false →
      exec (.counterUnbind m sel v) s = .next ((s.unbindCtr sel).ctrFields (selKey sel) (v &&& 0xFFFFFFEF))) ∧
  (∀ (sel : CtrSel) (s : State),
      (s.unbindCtr sel).f (cfgBound (selKey sel)) = 0 ∧ (s.unbindCtr sel).f (cfgQuiet (selKey sel)) = 1 ∧ Due.mk .unfz (s.time.ufc + 4096) (.quietEnd sel) ∈ (s.unbindCtr sel).agenda) ∧
  (∀ (m : Master) (sel : CtrSel) (v : W32) (s : State),
      s.synth (selCab sel) = true →
      s.stationOf (selCab sel) = .go →
      (m == .sch || m == .sec || m == .dbg) = true →
      s.bit (cfgBound (selKey sel)) = vbit v 4 →
      (vbit v 4 = true → s.f (cfgCtx (selKey sel)) = v.toNat % 16) →
      s.rgsShut (masterIdx m) = false →
      exec (.wakeEnWrite m sel v) s = .next (s.ctrFields (selKey sel) (v ||| 0x20))) ∧
  (∀ (sel : CtrSel) (s : State),
      s.armed (.quietEnd sel) = false →
      exec (.quietEnd sel) s = .next (s.put (cfgQuiet (selKey sel)) 0)) ∧
  (∀ (m : Master) (cab : Cab) (v : W32) (s : State),
      s.synth cab = true →
      s.stationOf cab = .go →
      (m == .sec || m == .dbg) = true →
      v.toNat % 65536 = 0x6B1D →
      s.rgsShut (masterIdx m) = false →
      exec (.setKeyWrite m cab v) s = .next ((({ s with syn := { s.syn with setUntil := SMap.insert s.syn.setUntil cab (s.time.now + ns 1000) } } : State).put (R.SYN_SET_KEY_OPEN cab) 1).at' .fab (s.time.now + ns 1000) (.setPathTimeout cab))) ∧
  (∀ (m : Master) (cab : Cab) (v : W32) (s : State),
      s.synth cab = true →
      s.stationOf cab = .go →
      (m == .sec || m == .dbg) = true →
      v.toNat % 65536 ≠ 0x6B1D →
      s.rgsShut (masterIdx m) = false →
      exec (.setKeyWrite m cab v) s = .next ((s.put (R.SYN_SET_KEY_OPEN cab) 0).put (R.SYN_ERRFLAG_KEY_BAD cab) 1)) ∧
  (∀ (cab : Cab) (s : State),
      SMap.get 0 s.syn.setUntil cab ≤ s.time.now →
      exec (.setPathTimeout cab) s = .next (s.put (R.SYN_SET_KEY_OPEN cab) 0)) ∧
  (∀ (m : Master) (cab : Cab) (v : W32) (k : Nat) (s : State),
      s.synth cab = true →
      s.stationOf cab = .go →
      (m == .sec || m == .dbg) = true →
      s.bit (R.SYN_SET_KEY_OPEN cab) = true →
      ctrKey cab (v.toNat / 65536 % 512) = some k →
      s.rgsShut (masterIdx m) = false →
      exec (.counterSet m cab v) s = .next ((((((s.takeLo m (R.SYN_SET_LO cab)).1.setReg (R.SYN_SET_LO cab) (s.takeLo m (R.SYN_SET_LO cab)).2).put (R.SYN_SET_KEY_OPEN cab) 0).inc (R.SYN_DBG_SETS_COUNT cab)).setByHand k
        ((s.takeLo m (R.SYN_SET_LO cab)).2.toNat + v.toNat % 65536 * 2 ^ 32)))) ∧
  (∀ (m : Master) (v : W32) (s : State),
      (m == .sec || m == .dbg) = true →
      vbit v 0 = true →
      s.frozen = true →
      s.bit (R.SYN_DUMP_CTL_GO 0) = false →
      s.f (R.SYN_DUMP_BASE_BASE 0) * 64 + 0x1A840 ≤ 0x100000 →
      s.rgsShut (masterIdx m) = false →
      ∃ t, exec (.dumpGo m v) s = .next t ∧ t.f (R.SYN_DUMP_CTL_GO 0) = 1 ∧ t.f (R.SYN_DUMP_CTL_TORN 0) = 0 ∧ t.f (R.SYN_DUMP_CTL_AUTO 0) = (if vbit v 4 then 1 else 0) ∧ t.syn.dump = some 0 ∧ t.syn.thawed = false ∧ s.sameRegs [R.SYN_DUMP_CTL 0] t) ∧
  (∀ (n : Nat) (s : State),
      s.syn.dump = some n →
      s.msramBusy = false →
      s.cabs.find? (fun p => decide (n ≤ p)) = none →
      ∃ t, exec .dumpDone s = .next t ∧ t.f (R.SYN_DUMP_CTL_GO 0) = 0 ∧ t.f (R.SYN_DUMP_CTL_DONE 0) = 1 ∧ t.syn.dump = none ∧ t.f (R.SYN_DUMP_CTL_TORN 0) = (if s.syn.thawed then 1 else s.f (R.SYN_DUMP_CTL_TORN 0)) ∧
        t.mem = (s.setCells (if n = 0 then msram (s.f (R.SYN_DUMP_BASE_BASE 0) * 64) else msram (s.f (R.SYN_DUMP_BASE_BASE 0) * 64) + 0x840 + 0x340 * (n - 1)) (s.dumpRec n)).mem ∧ s.sameCells (if n = 0 then msram (s.f (R.SYN_DUMP_BASE_BASE 0) * 64) else msram (s.f (R.SYN_DUMP_BASE_BASE 0) * 64) + 0x840 + 0x340 * (n - 1)) (s.dumpRec n).length t ∧ s.sameRegs [R.SYN_DUMP_CTL 0] t) ∧
  (∀ (n p : Nat) (s : State),
      s.syn.dump = some n →
      s.msramBusy = false →
      s.cabs.find? (fun q => decide (n ≤ q)) = some p →
      ∃ t, exec .dumpDone s = .next t ∧ t.syn.dump = some (p + 1) ∧ t.f (R.SYN_DUMP_CTL_GO 0) = s.f (R.SYN_DUMP_CTL_GO 0) ∧
        t.mem = (s.setCells (if n = 0 then msram (s.f (R.SYN_DUMP_BASE_BASE 0) * 64) else msram (s.f (R.SYN_DUMP_BASE_BASE 0) * 64) + 0x840 + 0x340 * (n - 1)) (s.dumpRec n)).mem ∧ s.sameCells (if n = 0 then msram (s.f (R.SYN_DUMP_BASE_BASE 0) * 64) else msram (s.f (R.SYN_DUMP_BASE_BASE 0) * 64) + 0x840 + 0x340 * (n - 1)) (s.dumpRec n).length t ∧ s.sameRegs [R.SYN_DUMP_CTL 0] t)

/-- On an unfrozen fc, in a cabinet that is not fenced with port HFP present, a push, pop or drop is noted when it is presented and taken at the end of
its fc (the model serves them there so that runner stages and flushes go first). Taken in Run, a push into a FIFO that is ready enters its item; a pop
delivers the oldest item with OK on the next fc, the idle item with ZERO when none stands ready; a drop removes the packet at the head. An fc of
movement carries each item one stage where the stage before it is empty, and the pushed item into stage 15. Pending notices of a bound FIFO go as one
loose signal whose increment is their number; a flush empties each selected FIFO; a write of CFG_f outside a hand-over and without a change of the
context of a bound FIFO stores its fields, LIMIT clamped to 1..16, CUT_THROUGH to 16 and NOTICE 3 as 0. Where the spec leaves room this rests on the
model's own choices: log entries 21, 45, 90, 94, 96. -/
def Obligations.HandoffItemsMoveInOrder : Prop :=
  (∀ (cab : Cab) (f : Fin 8) (data : List W64) (first last : Bool) (s : State),
      s.bit (R.CAB_PORT_STAT_P_HFP cab) = true →
      s.frozen = false →
      s.fenced cab = false →
      s.pow cab = 0 →
      s.pushReady cab f = true →
      (s.hfpIn cab).push = some (f.val, itemOf data first last) →
      (s.hfpIn cab).donePush = false →
      exec (.hfpPush cab f data first last false) s = .next ((s.setHfp cab { s.hfpIn cab with donePush := true }).fifoPush cab f (itemOf data first last))) ∧
  (∀ (cab : Cab) (f : Fin 8) (data : List W64) (first last perr : Bool) (s : State),
      s.bit (R.CAB_PORT_STAT_P_HFP cab) = true →
      s.frozen = false →
      s.fenced cab = false →
      s.pow cab = 0 →
      (s.hfpIn cab).push = none →
      exec (.hfpPush cab f data first last perr) s = .next ((s.setHfp cab { s.hfpIn cab with push := some (f.val, itemOf data first last) }).later .unfz 0 (.hfpPush cab f data first last perr))) ∧
  (∀ (cab : Cab) (f : Fin 8) (i : Item) (s : State),
      ((s.fifo cab f).begin' s.time.ufc).dropping = false →
      i.last = false →
      ((s.fifoPush cab f i).fifo cab f).entering = some i ∧ ((s.fifoPush cab f i).fifo cab f).stages = (s.fifo cab f).stages ∧ ((s.fifoPush cab f i).fifo cab f).pushOpen = true ∧ (s.fifoPush cab f i).regs = s.regs) ∧
  (∀ (cab : Cab) (f : Fin 8) (i : Item) (s : State),
      s.bit (R.CAB_PORT_STAT_P_HFP cab) = true →
      s.frozen = false →
      s.fenced cab = false →
      s.pow cab = 0 →
      (s.hfpIn cab).pop = some (f.val, false, false) →
      (s.hfpIn cab).donePop = false →
      s.popReady cab f = some i →
      i.flips = List.replicate 8 0 →
      ∃ t, exec (.hfpPop cab f false) s = .next t ∧ t.outs = SMap.insert s.outs (cab.val * 8 + 6) { at' := s.time.fc + 1, tag := 0, dat := wordsOfBytes (i.dat.flatMap (fun w => leBytes 8 w.toNat)) 2, zero := [], sb := sideband i, resp := .ok } ∧
        (t.fifo cab f).stages = none :: (s.fifo cab f).stages.drop 1 ∧ (s.bit (R.HFF_CFG_NOTICE_AT cab f) = false → t.regs = s.regs)) ∧
  (∀ (cab : Cab) (f : Fin 8) (s : State),
      s.bit (R.CAB_PORT_STAT_P_HFP cab) = true →
      s.frozen = false →
      s.fenced cab = false →
      s.pow cab = 0 →
      (s.hfpIn cab).pop = some (f.val, false, false) →
      (s.hfpIn cab).donePop = false →
      s.popReady cab f = none →
      ∃ t, exec (.hfpPop cab f false) s = .next t ∧ t.outs = SMap.insert s.outs (cab.val * 8 + 6) { at' := s.time.fc + 1, tag := 0, dat := wordsOfBytes ((List.replicate 8 (0 : W64)).flatMap (fun w => leBytes 8 w.toNat)) 2, zero := [], sb := 4, resp := .zero } ∧
        (t.fifo cab f).stages = (s.fifo cab f).stages ∧ t.regs = s.regs) ∧
  (∀ (cab : Cab) (f : Fin 8) (perr : Bool) (s : State),
      s.bit (R.CAB_PORT_STAT_P_HFP cab) = true →
      s.frozen = false →
      s.fenced cab = false →
      s.pow cab = 0 →
      (s.hfpIn cab).pop = none →
      (s.hfpIn cab).donePop = false →
      (s.hfpIn cab).held = [] →
      exec (.hfpPop cab f perr) s = .next ((s.setHfp cab { s.hfpIn cab with pop := some (f.val, perr, false) }).later .unfz 0 (.hfpPop cab f perr))) ∧
  (∀ (cab : Cab) (f : Fin 8) (s : State),
      s.bit (R.CAB_PORT_STAT_P_HFP cab) = true →
      s.frozen = false →
      s.fenced cab = false →
      s.pow cab = 0 →
      (s.hfpIn cab).pop = some (f.val, false, true) →
      (s.hfpIn cab).donePop = false →
      exec (.hfpDrop cab f) s = .next ((s.setHfp cab { s.hfpIn cab with donePop := true }).fifoDrop cab f)) ∧
  (∀ (cab : Cab) (f : Fin 8) (s : State),
      s.bit (R.CAB_PORT_STAT_P_HFP cab) = true →
      s.frozen = false →
      s.fenced cab = false →
      s.pow cab = 0 →
      (s.hfpIn cab).pop = none →
      (s.hfpIn cab).donePop = false →
      (s.hfpIn cab).held = [] →
      exec (.hfpDrop cab f) s = .next ((s.setHfp cab { s.hfpIn cab with pop := some (f.val, false, true) }).later .unfz 0 (.hfpDrop cab f))) ∧
  (∀ (cab : Cab) (f : Fin 8) (x : Fifo) (i : Item) (s : State),
      x = (s.fifo cab f).begin' s.time.ufc →
      x.didPop = false →
      0 < x.level0 →
      x.items = [i] →
      x.inPkt = false →
      i.last = true →
      s.bit (R.HFF_CFG_NOTICE_AT cab f) = false →
      ((s.fifoDrop cab f).fifo cab f).items = [] ∧ ((s.fifoDrop cab f).fifo cab f).dropping = x.dropping ∧ (s.fifoDrop cab f).f (R.HFF_DCNT_DROPPED cab f) = min (s.f (R.HFF_DCNT_DROPPED cab f) + 1) 65535 ∧ s.sameRegs [R.HFF_DCNT cab f] (s.fifoDrop cab f)) ∧
  (∀ (cab : Cab) (f : Fin 8) (s : State),
      s.frozen = false →
      ∃ t, exec (.fifoItemFall cab f) s = .next t ∧ t.fifo cab f = s.gateCheck cab f (s.fifo cab f).fallen ∧ t.regs = s.regs ∧ t.outs = s.outs ∧ t.mem = s.mem) ∧
  (∀ (x : Fifo) (i : Item) (k : Nat),
      k < 15 →
      x.stages = List.replicate k none ++ [none, some i] ++ List.replicate (14 - k) none →
      x.entering = none →
      x.fallen.stages = List.replicate k none ++ [some i, none] ++ List.replicate (14 - k) none ∧ x.fallen.entering = none) ∧
  (∀ (x : Fifo) (i : Item),
      x.stages = List.replicate 16 none →
      x.entering = some i →
      x.fallen.stages = List.replicate 15 none ++ [some i] ∧ x.fallen.entering = none) ∧
  (∀ (cab : Cab) (f : Fin 8) (c : Nat) (g : Sig) (s : State),
      0 < (s.fifo cab f).pend →
      s.frozen = false →
      s.fifoCtx cab f = some c →
      s.replaying (some c) = false →
      s.capUsed cab = 0 →
      s.setLeaves (some cab.val) = false →
      s.sigCheck (some c) (s.f (R.HFF_NCN_CN cab f)) = none →
      g = { id := s.syn.nextSig, src := .fifo cab f, die := s.die, ctx := some c, cn := s.f (R.HFF_NCN_CN cab f), inc := (s.fifo cab f).pend, drain := [], place := .port, since := 0 } →
      exec (.fifoNoticeSend cab f) s = .next (((({ s.setFifo cab f { s.fifo cab f with pend := 0 } with syn := { s.syn with signals := s.syn.signals ++ [g], nextSig := g.id + 8 } } : State).useCap cab).travel g))) ∧
  (∀ (m : Master) (cab : Cab) (v : W32) (s : State),
      s.synth cab = true →
      s.stationOf cab = .go →
      schMaster m = true →
      m ≠ .sch ∨ s.masked.contains 2 = false →
      s.rgsShut (masterIdx m) = false →
      ∃ t, exec (.hffFlush m cab v) s = .next t ∧ (∀ f : Fin 8, (t.fifo cab f).items = if vbit v f then [] else (s.fifo cab f).items) ∧ t.regs = s.regs ∧ t.mem = s.mem) ∧
  (∀ (cab : Cab) (f : Fin 8) (s : State),
      ((s.fifoFlush cab f).fifo cab f).stages = Fifo.idle.stages ∧ ((s.fifoFlush cab f).fifo cab f).entering = none ∧ ((s.fifoFlush cab f).fifo cab f).pend = 0 ∧ ((s.fifoFlush cab f).fifo cab f).inPkt = false ∧ ((s.fifoFlush cab f).fifo cab f).dropping = false) ∧
  (∀ (m : Master) (cab : Cab) (f : Fin 8) (v : W32) (s : State),
      s.synth cab = true →
      s.stationOf cab = .go →
      schMaster m = true →
      s.bit (R.HFF_CFG_HANDOVER cab f) = false →
      (s.bit (R.HFF_CFG_BOUND cab f) = true → vbit v 20 = true → s.f (R.HFF_CFG_CTX cab f) = v.toNat / 65536 % 16) →
      s.rgsShut (masterIdx m) = false →
      ∃ t, exec (.hffCfgWrite m cab f v) s = .next t ∧ t.f (R.HFF_CFG_LIMIT cab f) = max 1 (min 16 (v.toNat % 32)) ∧ t.f (R.HFF_CFG_CUT_THROUGH cab f) = min 16 (v.toNat / 32 % 32) ∧
        t.f (R.HFF_CFG_NOTICE cab f) = (if v.toNat / 1024 % 4 = 3 then 0 else v.toNat / 1024 % 4) ∧ t.f (R.HFF_CFG_NOTICE_AT cab f) = v.toNat / 4096 % 2 ∧ t.f (R.HFF_CFG_CTX cab f) = v.toNat / 65536 % 16 ∧
        t.f (R.HFF_CFG_BOUND cab f) = v.toNat / 2 ^ 20 % 2 ∧ s.sameRegs [R.HFF_CFG cab f] t ∧ (t.fifo cab f).stages = (s.fifo cab f).stages ∧
        (t.fifo cab f).pend = (if s.bit (R.HFF_CFG_BOUND cab f) = true ∧ vbit v 20 = false then 0 else (s.fifo cab f).pend))

/-- GO of an accepted master with room in the queue, a count above 0 and an aligned address on this die queues the list, and an idle runner takes the head
of its queue; a full queue sets REJ and queues nothing. An answered fetch puts its descriptor into the buffer by index; the descriptor due next is
validated and started, and an invalid one ends the list with status 3. A list that is over puts its record at the tail of the completion queue, from
which CMPL_POP takes the head. Where the spec leaves room this rests on the model's own choices: log entry 22. -/
def Obligations.RunnerListsAreDispatchedAndEnd : Prop :=
  (∀ (m : Master) (cab : Cab) (r : Fin 4) (v : W32) (l : RunList) (s : State),
      s.synth cab = true →
      s.stationOf cab = .go →
      schMaster m = true →
      vbit v 31 = true →
      (s.runner cab r).queue.length < 4 →
      v.toNat % 65536 ≠ 0 →
      s.f (R.RUN_RN_LIST_FA_FA cab r) % 32 = 0 →
      faDie (s.f (R.RUN_RN_LIST_FA_FA cab r)) = s.die →
      l = { newList (s.f (R.RUN_RN_LIST_FA_FA cab r)) (v.toNat % 65536) (v.toNat / 2 ^ 16 % 16) (v.toNat / 2 ^ 21 % 256) (vbit v 20) (vbit v 20 && s.stepLive (v.toNat / 2 ^ 16 % 16)) with openAt := s.openAt (v.toNat / 2 ^ 16 % 16) } →
      s.rgsShut (masterIdx m) = false →
      exec (.runnerListGo m cab r v) s = .next (((if l.held then (if vbit v 29 then (s.puts [(R.RUN_RN_LIST_CTL_COUNT cab r, v.toNat), (R.RUN_RN_LIST_CTL_CTX cab r, v.toNat / 2 ^ 16), (R.RUN_RN_LIST_CTL_STEP cab r, v.toNat / 2 ^ 20), (R.RUN_RN_LIST_CTL_TAG cab r, v.toNat / 2 ^ 21)]).put (R.RUN_RN_LIST_CTL_REJ cab r) 0 else s.puts [(R.RUN_RN_LIST_CTL_COUNT cab r, v.toNat), (R.RUN_RN_LIST_CTL_CTX cab r, v.toNat / 2 ^ 16), (R.RUN_RN_LIST_CTL_STEP cab r, v.toNat / 2 ^ 20), (R.RUN_RN_LIST_CTL_TAG cab r, v.toNat / 2 ^ 21)]).stepListed l cab r else (if vbit v 29 then (s.puts [(R.RUN_RN_LIST_CTL_COUNT cab r, v.toNat), (R.RUN_RN_LIST_CTL_CTX cab r, v.toNat / 2 ^ 16), (R.RUN_RN_LIST_CTL_STEP cab r, v.toNat / 2 ^ 20), (R.RUN_RN_LIST_CTL_TAG cab r, v.toNat / 2 ^ 21)]).put (R.RUN_RN_LIST_CTL_REJ cab r) 0 else s.puts [(R.RUN_RN_LIST_CTL_COUNT cab r, v.toNat), (R.RUN_RN_LIST_CTL_CTX cab r, v.toNat / 2 ^ 16), (R.RUN_RN_LIST_CTL_STEP cab r, v.toNat / 2 ^ 20), (R.RUN_RN_LIST_CTL_TAG cab r, v.toNat / 2 ^ 21)])).setRunner cab r { s.runner cab r with queue := (s.runner cab r).queue ++ [l] }).nextList cab r)) ∧
  (∀ (m : Master) (cab : Cab) (r : Fin 4) (v : W32) (s : State),
      s.synth cab = true →
      s.stationOf cab = .go →
      schMaster m = true →
      vbit v 31 = true →
      4 ≤ (s.runner cab r).queue.length →
      s.rgsShut (masterIdx m) = false →
      ∃ t, exec (.runnerListGo m cab r v) s = .next t ∧ t.f (R.RUN_RN_LIST_CTL_REJ cab r) = 1 ∧ t.runners = s.runners ∧ s.sameRegs [R.RUN_RN_LIST_CTL cab r] t) ∧
  (∀ (cab r : Nat) (x : RunSt) (l : RunList) (rest : List RunList) (s : State),
      s.runner cab r = x →
      x.queue = l :: rest →
      x.run = none →
      x.works = [] →
      x.start = none →
      x.theft = none →
      x.cmpl.length < 4 →
      s.draining cab = false →
      s.pow cab = 0 →
      (s.nextList cab r).runner cab r = { x with queue := rest, run := some l, moved := s.time.ufc } ∧ (s.nextList cab r).regs = s.regs) ∧
  (∀ (cab : Cab) (r : Fin 4) (n i : Nat) (x : RunSt) (l : RunList) (pre post : List (LReq × Ans × Nat)) (e : LReq × Ans × Nat) (s : State),
      s.loose.acked = pre ++ e :: post →
      (∀ y ∈ pre ++ post, y.1.org.fetchBy cab r = false) →
      e.1.org = .fetch cab r n →
      e.2.1.resp ≠ .fault →
      e.2.1.resp ≠ .asleep →
      s.runner cab r = x →
      x.run = some l →
      l.fetching.find? (fun y => decide (y.1 = e.1.id)) = some (i, n) →
      l.ended = false →
      ∃ t, exec (.descriptorFetch cab r) s = .next t ∧ t.loose.acked = pre ++ post ∧ t.regs = s.regs ∧ t.mem = s.mem ∧
        t.runner cab r = { x with run := some { l with fetching := l.fetching.filter (fun y => decide (y.1 ≠ e.1.id)), buf := insertDesc (n, leNat (ansBytes e.2.1 (e.1.fa % 64 + (if beWord e.1.be 0 = 0 then 32 else 0)) 32)) l.buf } }) ∧
  (∀ (cab : Cab) (r : Fin 4) (x : RunSt) (l : RunList) (d : Nat) (rest : List (Nat × Nat)) (s : State),
      s.frozen = false →
      s.draining cab = false →
      s.runner cab r = x →
      x.run = some l →
      l.buf = (l.started, d) :: rest →
      l.ended = false →
      x.abort = none →
      x.start = none →
      x.fuse = none →
      x.wait = none →
      x.sweep = none →
      l.anchor = none →
      (isAnchor d = true → l.started ≤ l.done) →
      allPresented x = true →
      exec (.descriptorStart cab r) s = .next ((s.startDesc cab r l l.started d).kick cab r)) ∧
  (∀ (cab r : Nat) (x : RunSt) (l : RunList) (idx d : Nat) (s : State),
      s.runner cab r = x →
      d < 2 ^ 256 →
      descOk s.die d = true →
      opOf d ≠ 6 →
      s.startDesc cab r l idx d = (((s.setRunner cab r { x with run := some { l with buf := l.buf.drop 1, started := skipGone (l.gone.length + 1) l.gone (idx + 1), live := l.live ++ [idx], anchor := if isAnchor d then some idx else l.anchor }, turn := 0 }).setStart cab r idx d (cab, r) (opCmd cab r d)).holdFuse cab r x.fuse)) ∧
  (∀ (cab r idx d : Nat) (l : Nat × Nat) (op : Instr) (s : State),
      movedBytes d ≤ 2 ^ 20 →
      opOf d ≠ 9 →
      s.setStart cab r idx d l op = (s.setRunner cab r { s.runner cab r with start := some { idx := idx, desc := d, list := l, leave := false } }).later .unfz 1 op) ∧
  (∀ (cab r idx d : Nat) (l : Nat × Nat) (op : Instr) (s : State),
      2 ^ 20 < movedBytes d →
      s.setStart cab r idx d l op = (s.setRunner cab r { s.runner cab r with start := some { idx := idx, desc := d, list := l, leave := true } }).leaveAsk (.desc cab r) 20) ∧
  (∀ (cab r : Nat) (x : RunSt) (l : RunList) (idx d : Nat) (s : State),
      s.runner cab r = x →
      x.run = some l →
      l.ended = false →
      d < 2 ^ 256 →
      descOk s.die d = false →
      ((s.startDesc cab r l idx d).runner cab r).run.map (fun y => (y.ended, y.buf, y.rec')) = some (true, [], { l.rec' with status := 3, failIndex := idx, failResp := 0, failAddr := 0 })) ∧
  (∀ (cab : Cab) (r : Fin 4) (x : RunSt) (l : RunList) (s : State),
      s.runner cab r = x →
      x.run = some l →
      x.abort = none →
      s.listOver cab r x l = true →
      exec (.listComplete cab r) s = .next (s.finishList cab r l)) ∧
  (∀ (cab r : Nat) (l : RunList) (s : State),
      ((s.finishList cab r l).runner cab r).cmpl = (s.runner cab r).cmpl ++ [{ l.rec' with done := l.done % 65536 }]) ∧
  (∀ (m : Master) (cab : Cab) (r : Fin 4) (v : W32) (x : RunSt) (s : State),
      s.synth cab = true →
      s.stationOf cab = .go →
      schMaster m = true →
      s.runner cab r = x →
      vbit v 0 = true →
      s.rgsShut (masterIdx m) = false →
      exec (.cmplPop m cab r v) s = .next ((s.setRunner cab r { x with cmpl := x.cmpl.drop 1 }).nextList cab r))

/-- A descriptor that has started as COPY, FILL, GATHER or SCATTER begins its stream; MCAST begins with its receivers; NOP completes at once; SIGNAL
completes when a place is free and its signal is issued; WAIT registers the waiter of the runner; SWEEP of a range that is mapped and writable queues
its parts; FUSE asks for its hand-overs. -/
def Obligations.DescriptorsAreCarriedOut : Prop :=
  (∀ (cab : Cab) (r : Fin 4) (x : RunSt) (d : Start) (s : State),
      s.runner cab r = x →
      starting x 1 = some d →
      exec (.copy cab r) s = .next ((s.setRunner cab r { x with start := none, works := x.works ++ [newWork d.idx d.desc (s.listCtx d.list) d.list] }).kick cab r)) ∧
  (∀ (cab : Cab) (r : Fin 4) (x : RunSt) (d : Start) (s : State),
      s.runner cab r = x →
      starting x 2 = some d →
      exec (.fill cab r) s = .next ((s.setRunner cab r { x with start := none, works := x.works ++ [newWork d.idx d.desc (s.listCtx d.list) d.list] }).kick cab r)) ∧
  (∀ (cab : Cab) (r : Fin 4) (x : RunSt) (d : Start) (s : State),
      s.runner cab r = x →
      starting x 3 = some d →
      exec (.gather cab r) s = .next ((s.setRunner cab r { x with start := none, works := x.works ++ [newWork d.idx d.desc (s.listCtx d.list) d.list] }).kick cab r)) ∧
  (∀ (cab : Cab) (r : Fin 4) (x : RunSt) (d : Start) (s : State),
      s.runner cab r = x →
      starting x 4 = some d →
      exec (.scatter cab r) s = .next ((s.setRunner cab r { x with start := none, works := x.works ++ [newWork d.idx d.desc (s.listCtx d.list) d.list] }).kick cab r)) ∧
  (∀ (cab : Cab) (r : Fin 4) (x : RunSt) (d : Start) (s : State),
      s.runner cab r = x →
      starting x 5 = some d →
      exec (.mcast cab r) s = .next ((s.setRunner cab r { x with start := none, works := x.works ++ [{ newWork d.idx d.desc (s.listCtx d.list) d.list with rx := (receivers d.desc).map (fun q => ({ num := q.1, cab := q.2, unacked := [], lapsed := false, since := none } : Rx)) }] }).kick cab r)) ∧
  (∀ (cab : Cab) (r : Fin 4) (d : Start) (s : State),
      starting (s.runner cab r) 15 = some d →
      exec (.nop cab r) s = .next ((s.started cab r).descDone d.list d.idx 1)) ∧
  (∀ (cab : Cab) (r : Fin 4) (d : Start) (s : State),
      starting (s.runner cab r) 8 = some d →
      s.frozen = false →
      s.places cab r < 4 →
      exec (.signal cab r) s = .next (((s.runSignal cab r (dword d.desc 1 % 2 ^ 19) (d.desc / 65536 % 65536)).started cab r).descDone d.list d.idx 1)) ∧
  (∀ (cab r cn inc : Nat) (l : RunList) (s : State),
      (s.runner cab r).run = some l →
      s.sigCheck (some l.ctx) cn = none →
      s.replaying (some l.ctx) = false →
      s.runSignal cab r cn inc = s.issueSig (.runner cab r) (some l.ctx) cn inc [] l.held (if l.held then some l.openAt else none)) ∧
  (∀ (cab : Cab) (r : Fin 4) (d : Start) (s : State),
      starting (s.runner cab r) 7 = some d →
      exec (.wait cab r) s = .next (((s.started cab r).runWait cab r d.idx (d.desc / 65536 % 512) (dword d.desc 1 + dword d.desc 2 % 65536 * 2 ^ 32) (dword d.desc 3 % 65536)).kick cab r)) ∧
  (∀ (cab r idx sel e : Nat) (l : RunList) (s : State),
      (s.runner cab r).run = some l →
      s.waitCheck cab sel (some l.ctx) = none →
      s.runWait cab r idx sel e 0 = ((s.registerWtr cab (12 + r) sel e l.ctx).setRunner cab r { (s.registerWtr cab (12 + r) sel e l.ctx).runner cab r with wait := some { idx := idx, limit := none } })) ∧
  (∀ (cab : Cab) (r : Fin 4) (d : Start) (s : State),
      starting (s.runner cab r) 9 = some d →
      faDie (dword d.desc 1) = s.die →
      s.writable (s.listCtx d.list) (faGran (dword d.desc 2)) 65 (faGran (dword d.desc 1)) = true →
      (∀ i, i < sweepCabs d.desc → (s.mapped (s.ctxGen (s.listCtx d.list)) (faCab (dword d.desc 1) + i)).isSome) →
      exec (.sweep cab r) s = .next ((((s.started cab r).setRunner cab r { (s.started cab r).runner cab r with sweep := some d.idx }).sweepParts ((s.started cab r).ctxGen (s.listCtx d.list)) (dword d.desc 1) (dword d.desc 2) (.desc cab r)).arm .unfz 1 (.descriptorComplete cab r))) ∧
  (∀ (cab : Cab) (r : Fin 4) (x : RunSt) (d : Start) (f : Fuse) (s : State),
      s.runner cab r = x →
      starting x 6 = some d →
      x.fuse = some f →
      exec (.fuse cab r) s = .next ((((s.setRunner cab r { x with start := none, fuse := some { f with since := s.time.ufc, phase := .reserve } }).arm .unfz 0 (.handoverGrant cab)).later .unfz 4096 (.reservationAged cab r)).later .unfz 1048576 (.runnerWatchdog cab r)))

/-- A runner presents one access on an unfrozen fc: the fetch it wants first, and of a COPY the read of the next piece. An answered read makes its piece
ready; a stream that is through completes its descriptor. A producing stage pushes an item of 64 bytes, a consuming one pops one. The acknowledged
item of a receiver frees its place; a receiver whose timer has counted LAPSE lapses; a WAIT at its limit ends the list with status 4. Where the spec
leaves room this rests on the model's own choices: log entry 22. -/
def Obligations.SegmentsAndStagesMove : Prop :=
  (∀ (cab : Cab) (r : Fin 4) (x : RunSt) (l : RunList) (s : State),
      (s.watchPause cab r).runner cab r = x →
      s.frozen = false →
      s.draining cab = false →
      x.works.all (fun w => w.inF.isNone && w.outF.isNone && !w.half && decide (opOf w.desc ≠ 5)) = true →
      outstanding x < 32 →
      wantsFetch x = some l →
      exec (.segmentPresent cab r) s = .next (((s.watchPause cab r).presentFetch cab r l).kick cab r)) ∧
  (∀ (cab r : Nat) (w : Work) (a b : Nat) (s : State),
      w.halted = false →
      opOf w.desc = 1 →
      w.pieces.all (fun z => z.writing) = true →
      w.inF = none →
      w.outF = none →
      w.pos < streamLen w.desc →
      ends w w.pos = some (a, b) →
      a < 2 ^ 32 →
      s.presentWork cab r w = (((s.setWork cab r { w with pos := w.pos + pieceLen w w.pos a b, pieces := w.pieces ++ [{ pos := w.pos, len := pieceLen w w.pos a b, src := a, dst := b, id := s.loose.nextId, ready := false, writing := false, dat := [] }] }).fresh.issueLoose
          (s.segReq cab r w.ctx 0 a (2 ^ 64 - 1) false []) cab), true)) ∧
  (∀ (cab r : Nat) (w : Work) (p : Piece) (s : State),
      w.halted = false →
      opOf w.desc ≠ 5 →
      w.pieces.find? (fun z => !z.writing) = some p →
      p.ready = true →
      w.outF = none →
      p.dst < 2 ^ 32 →
      s.presentWork cab r w = (((s.setWork cab r { w with pieces := w.pieces.map (fun y => if y.pos = p.pos then { y with id := s.loose.nextId, writing := true } else y), writes := w.writes ++ [s.loose.nextId] }).fresh.issueLoose
          (s.segReq cab r w.ctx 0 p.dst (bytesBe p.dst p.len) true (placed p.dst p.dat)) cab), true)) ∧
  (∀ (cab : Cab) (r : Fin 4) (x : RunSt) (w : Work) (p : Piece) (pre post : List (LReq × Ans × Nat)) (e : LReq × Ans × Nat) (s : State),
      s.loose.acked = pre ++ e :: post →
      (∀ y ∈ pre ++ post, y.1.org.segBy cab r 0 = false) →
      e.1.org = .seg cab r 0 →
      e.2.1.resp ≠ .fault →
      e.2.1.resp ≠ .asleep →
      s.runner cab r = x →
      x.works.find? (fun y => decide (y.idxId = e.1.id) || y.pieces.any (fun z => decide (z.id = e.1.id))) = some w →
      w.pieces.find? (fun z => decide (z.id = e.1.id)) = some p →
      w.idxId ≠ e.1.id →
      w.halted = false →
      p.writing = false →
      ∃ t, exec (.segmentAnswer cab r) s = .next t ∧ t.loose.acked = pre ++ post ∧ t.regs = s.regs ∧ t.mem = s.mem ∧
        t.runner cab r = { x with moved := s.time.ufc, works := x.works.map (fun y => if y.idx = w.idx && decide (y.list = w.list) then { w with pieces := w.pieces.map (fun z => if z.id = e.1.id then { z with id := 0, ready := true, dat := ansBytes e.2.1 (z.src % 64) z.len } else z) } else y) }) ∧
  (∀ (cab : Cab) (r : Fin 4) (x : RunSt) (w : Work) (l : RunList) (s : State),
      s.runner cab r = x →
      x.works.filter (fun y => s.workOver y) = [w] →
      x.run = some l →
      x.wait = none →
      x.sweep = none →
      x.fuse = none →
      w.list = (cab.val, r.val) →
      w.halted = false →
      w.stage = none →
      ∃ t, exec (.descriptorComplete cab r) s = .next t ∧ t.mem = s.mem ∧ (movedBytes w.desc ≤ 2 ^ 20 → t.regs = s.regs) ∧
        t.runner cab r = { x with works := x.works.filter (fun y => !(decide (y.idx = w.idx) && decide (y.list = w.list))), moved := s.time.ufc, stray := x.stray ++ w.rx.flatMap (fun q => q.unacked.flatMap (fun u => u.2)), run := some { l with live := l.live.filter (fun i => decide (i < w.idx) || decide (w.idx + 1 ≤ i)), done := l.done + 1, anchor := if l.anchor = some w.idx then none else l.anchor } }) ∧
  (∀ (cab r : Nat) (x : RunSt) (w : RunWait) (l : RunList) (s : State),
      s.runner cab r = x →
      x.run = some l →
      x.wait = some w →
      x.fuse = none →
      s.bit (R.SYN_WTR_A_FIRED cab (12 + r)) = true →
      (s.waitStep cab r).runner cab r = { x with wait := none, moved := s.time.ufc, run := some { l with live := l.live.filter (fun i => decide (i < w.idx) || decide (w.idx + 1 ≤ i)), done := l.done + 1, anchor := if l.anchor = some w.idx then none else l.anchor } }) ∧
  (∀ (cab : Cab) (r : Fin 4) (x : RunSt) (f : Fuse) (y w : Work) (h : Nat) (s : State),
      s.frozen = false →
      s.runner cab r = x →
      x.fuse = some f →
      x.works.find? (fun z => z.outF.isSome && !z.halted) = some y →
      w = gathered y →
      w.outF = some h →
      64 ≤ w.buf.length →
      s.pushReady cab h = true →
      exec (.stagePush cab r) s = .next (((s.fifoPush cab h (itemOf ((List.range 8).map (fun k => BitVec.ofNat 64 (leNat ((w.buf.drop (8 * k)).take 8)))) (decide (w.pushed % itemsOf f.desc = 0)) (decide (w.pushed % itemsOf f.desc + 1 = itemsOf f.desc)))).setWork cab r
          { w with buf := w.buf.drop 64, pushed := w.pushed + 1 }).progress cab r)) ∧
  (∀ (cab : Cab) (r : Fin 4) (x : RunSt) (w : Work) (h : Nat) (i : Item) (s : State),
      s.frozen = false →
      s.runner cab r = x →
      x.works.find? (fun z => z.inF.isSome && !z.halted) = some w →
      w.inF = some h →
      s.popReady cab h = some i →
      w.buf.length < 64 →
      w.pos + w.buf.length < streamLen w.desc →
      (s.fifoPop cab h i).2.1 = true →
      exec (.stagePop cab r) s = .next (((s.fifoPop cab h i).1.setWork cab r { w with buf := w.buf ++ (s.fifoPop cab h i).2.2.flatMap (fun q => leBytes 8 q.toNat), popped := w.popped + 1 }).progress cab r)) ∧
  (∀ (cab : Cab) (r : Fin 4) (rx : Fin 16) (x : RunSt) (w : Work) (pre post : List (LReq × Ans × Nat)) (e : LReq × Ans × Nat) (s : State),
      s.loose.acked = pre ++ e :: post →
      (∀ y ∈ pre ++ post, y.1.org.segBy cab r (rx.val + 1) = false) →
      e.1.org = .seg cab r (rx.val + 1) →
      e.2.1.resp ≠ .fault →
      e.2.1.resp ≠ .asleep →
      s.runner cab r = x →
      x.stray.contains e.1.id = false →
      x.works.find? (fun y => y.rx.any (fun q => q.unacked.any (fun u => u.2.contains e.1.id))) = some w →
      ∃ t, exec (.mcastAck cab r rx) s = .next t ∧ t.loose.acked = pre ++ post ∧ t.regs = s.regs ∧ t.mem = s.mem ∧
        t.runner cab r = { x with moved := s.time.ufc, works := x.works.map (fun y => if y.idx = w.idx && decide (y.list = w.list) then { w with rx := w.rx.map (fun q => if q.num = rx.val then { q with unacked := (q.unacked.map (fun u => (u.1, u.2.filter (fun i => decide (i ≠ e.1.id))))).filter (fun u => !u.2.isEmpty), since := if ((q.unacked.map (fun u => (u.1, u.2.filter (fun i => decide (i ≠ e.1.id))))).filter (fun u => !u.2.isEmpty)).length < q.unacked.length then none else q.since } else q) } else y) }) ∧
  (∀ (cab : Cab) (r : Fin 4) (rx : Fin 16) (x : RunSt) (l : RunList) (w : Work) (s : State),
      s.runner cab r = x →
      x.works.find? (fun y => y.rx.any (fun q => decide (q.num = rx.val) && !q.lapsed && q.since.any (fun t => decide (t + s.f (R.RUN_MC_CFG_LAPSE cab) ≤ s.time.ufc + 1)))) = some w →
      x.run = some l →
      w.list = (cab.val, r.val) →
      ∃ t, exec (.mcastLapse cab r rx) s = .next t ∧ t.regs = s.regs ∧ t.mem = s.mem ∧
        t.runner cab r = { x with works := x.works.map (fun y => if y.idx = w.idx && decide (y.list = w.list) then { w with rx := w.rx.map (fun q => if q.num = rx.val then stopRx q else q) } else y), run := some { l with rec' := { l.rec' with lapsed := l.rec'.lapsed ||| 2 ^ rx.val, lapseIndex := if l.rec'.lapseIndex = 0xFFFF then w.idx else l.rec'.lapseIndex } } }) ∧
  (∀ (cab : Cab) (r : Fin 4) (x : RunSt) (w : RunWait) (n : Nat) (s : State),
      s.runner cab r = x →
      x.wait = some w →
      w.limit = some n →
      n ≤ s.time.ufc →
      s.bit (R.SYN_WTR_A_FIRED cab (12 + r.val)) = false →
      exec (.waitTimeout cab r) s = .next ((((s.cancelWtr cab (12 + r.val)).setRunner cab r { x with wait := none }).endList cab r 4 w.idx 0 0).kick cab r))

/-- The allocator grants a request the lowest free hand-overs when enough of them are free; a request that has waited 4096 unfrozen fc is aged; an ENGINE
stage is presented on ESG while no other is; an accepted one is running and the next is presented, or the runner stages begin; an ended one leaves. -/
def Obligations.FusedCommandsReserveAndRun : Prop :=
  (∀ (cab : Cab) (r : Fin 4) (x : RunSt) (f : Fuse) (free : List Nat) (s : State),
      s.frozen = false →
      s.runner cab r = x →
      reserving x = true →
      (∀ q : Fin 4, q ≠ r → reserving (s.runner cab q) = false) →
      x.fuse = some f →
      free = (List.range 8).filter (fun h => s.bit (bitFld (R.RUN_POOL cab) h) && !s.bit (bitFld (R.RUN_RSV_STAT cab) h)) →
      stagesOf f.desc - 1 ≤ free.length →
      exec (.handoverGrant cab) s = .next (s.grantHands cab r f free)) ∧
  (∀ (cab : Cab) (r : Fin 4) (x : RunSt) (f : Fuse) (free : List Nat) (s : State),
      s.frozen = false →
      s.runner cab r = x →
      reserving x = true →
      (∀ q : Fin 4, q ≠ r → reserving (s.runner cab q) = false) →
      x.fuse = some f →
      free = (List.range 8).filter (fun h => s.bit (bitFld (R.RUN_POOL cab) h) && !s.bit (bitFld (R.RUN_RSV_STAT cab) h)) →
      free.length < stagesOf f.desc - 1 →
      exec (.handoverGrant cab) s = .next (s.arm .unfz 1 (.handoverGrant cab))) ∧
  (∀ (cab f w ctx : Nat) (s : State),
      f < 8 →
      w ≤ 16 →
      ctx < 16 →
      (s.handTake cab f w ctx).f (R.HFF_CFG_LIMIT cab f) = w ∧ (s.handTake cab f w ctx).f (R.HFF_CFG_CTX cab f) = ctx ∧ (s.handTake cab f w ctx).f (R.HFF_CFG_BOUND cab f) = 1 ∧
        (s.handTake cab f w ctx).f (R.HFF_CFG_HANDOVER cab f) = 1 ∧ (s.handTake cab f w ctx).f (bitFld (R.RUN_RSV_STAT cab) f) = 1) ∧
  (∀ (cab : Cab) (r : Fin 4) (x : RunSt) (f : Fuse) (s : State),
      s.runner cab r = x →
      reserving x = true →
      x.fuse = some f →
      f.since + 4096 ≤ s.time.ufc →
      exec (.reservationAged cab r) s = .next (s.setRunner cab r { x with fuse := some { f with aged := true } })) ∧
  (∀ (cab : Cab) (r : Fin 4) (x : RunSt) (f : Fuse) (k : Nat) (rest : List Nat) (s : State),
      s.runner cab r = x →
      x.fuse = some f →
      f.todo = k :: rest →
      f.phase = .engines →
      s.frozen = false →
      s.esgAborting cab = false →
      (∀ q : Fin 4, (s.runner cab q).fuse.any (fun g => g.esg) = false) →
      s.bit (R.CAB_PORT_STAT_P_HFP cab) = true →
      exec (.engine cab r) s = .next (s.esgStart cab r f)) ∧
  (∀ (cab r : Nat) (f : Fuse) (k : Nat) (rest : List Nat) (s : State),
      f.todo = k :: rest →
      s.esgStart cab r f = (s.holdFuse cab r (some { f with esg := true, esgFrom := s.time.fc + 1 })).esgOut cab r 1 (dword (f.chain.getD k 0) 1) (handNo f k).1 (handNo f k).2 (tilesOf f.desc) (itemsOf f.desc)) ∧
  (∀ (cab : Cab) (r : Fin 4) (x : RunSt) (f : Fuse) (k : Nat) (rest : List Nat) (s : State),
      s.bit (R.CAB_PORT_STAT_P_HFP cab) = true →
      s.frozen = false →
      (List.range 4).find? (fun y => (s.runner cab y).fuse.any (fun g => s.esgShows cab g)) = some r.val →
      s.runner cab r = x →
      x.fuse = some f →
      f.todo = k :: rest →
      exec (.esgAck cab) s = .next (if rest.isEmpty then ((s.setRunner cab r { x with fuse := some { f with esg := false, running := f.running ++ [k], todo := rest }, moved := s.time.ufc }).esgOut cab r 0 0 8 8 0 0).startStages cab r
        else ((s.setRunner cab r { x with fuse := some { f with esg := false, running := f.running ++ [k], todo := rest }, moved := s.time.ufc }).esgOut cab r 0 0 8 8 0 0).arm .unfz 1 (.engine cab r))) ∧
  (∀ (cab : Cab) (r : Fin 4) (x : RunSt) (f : Fuse) (s : State),
      s.bit (R.CAB_PORT_STAT_P_HFP cab) = true →
      s.frozen = false →
      s.runner cab r = x →
      x.fuse = some f →
      exec (.esgDone cab r) s = .next ((s.setRunner cab r { x with fuse := some { f with running := f.running.drop 1 } }).kick cab r))

/-- ABORT of an accepted master aborts the running list with status 6; the abort of the die after a fault or a replay of its context comes at its fc with
its own status; a watchdog with no progress for 1048576 unfrozen fc in RESERVE or RUN aborts with status 5; once every access is answered the record
of an aborted list is placed. An idle thief takes the open descriptor of greatest index from its victim and performs it 16 fc later. Where the spec
leaves room this rests on the model's own choices: log entry 26. -/
def Obligations.ListsAreAbortedAndStolen : Prop :=
  (∀ (m : Master) (cab : Cab) (r : Fin 4) (v : W32) (s : State),
      s.synth cab = true →
      s.stationOf cab = .go →
      schMaster m = true →
      vbit v 0 = true →
      (s.runner cab r).abort = none →
      (∀ d, (s.runner cab r).doomed = some d → s.time.fc < d.2) →
      s.rgsShut (masterIdx m) = false →
      exec (.runnerAbort m cab r v) s = .next (s.abortList cab r 6)) ∧
  (∀ (cab : Cab) (r : Fin 4) (v : W32) (x : RunSt) (l : RunList) (st at0 : Nat) (s : State),
      s.runner cab r = x →
      x.run = some l →
      s.faulted l.ctx = true →
      x.abort = none →
      x.doomed = some (st, at0) →
      at0 ≤ s.time.fc →
      exec (.runnerAbort .sch cab r v) s = .next ((s.setRunner cab r { x with doomed := none }).abortList cab r st)) ∧
  (∀ (cab r st : Nat) (l : RunList) (s : State),
      (s.runner cab r).run = some l →
      ((s.abortList cab r st).runner cab r).abort = some st ∧ (((s.abortList cab r st).runner cab r).run.map (fun y => (y.ended, y.buf, y.rec'.status))) = some (true, [], st)) ∧
  (∀ (cab : Cab) (r : Fin 4) (x : RunSt) (l : RunList) (n : Nat) (s : State),
      s.runner cab r = x →
      x.abort = some n →
      x.run = some l →
      x.works.all (fun w => w.halted && s.workOver w && decide (w.list = (cab.val, r.val))) = true →
      l.fetching = [] →
      x.stray = [] →
      x.sweep = none →
      s.thieves cab r = [] →
      x.cmpl.length < 4 →
      ∃ t, exec (.abortComplete cab r) s = .next t ∧ (t.runner cab r).cmpl = x.cmpl ++ [{ l.rec' with done := l.done % 65536 }] ∧ (x.queue = [] → t.runner cab r = { x with run := none, abort := none, works := [], returning := x.returning.filter (fun e => !decide (e.2 ≤ s.time.ufc)), cmpl := x.cmpl ++ [{ l.rec' with done := l.done % 65536 }] })) ∧
  (∀ (cab : Cab) (r : Fin 4) (x : RunSt) (s : State),
      s.runner cab r = x →
      x.run.isSome →
      runState x = 2 ∨ runState x = 4 →
      x.moved + 1048576 ≤ s.time.ufc →
      exec (.runnerWatchdog cab r) s = .next (s.abortList cab r 5)) ∧
  (∀ (cab : Cab) (r : Fin 4) (v : Nat × Nat) (e : Nat × Nat) (s : State),
      s.frozen = false →
      idleRunner (s.runner cab r) = true →
      s.bit (R.RUN_CFG_THIEF_EN cab) = true →
      s.pow cab = 0 →
      s.fenced cab = false →
      s.victim cab = some v →
      (openDescs (s.runner v.1 v.2)).getLast? = some e →
      v ≠ (cab.val, r.val) →
      ∃ t, exec (.stealLook cab r) s = .next t ∧ t.runner cab r = { s.runner cab r with theft := some { list := v, idx := e.1, desc := e.2 } } ∧
        t.runner v.1 v.2 = { s.runner v.1 v.2 with robbed := some s.time.ufc, run := (s.runner v.1 v.2).run.map (fun l => { l with buf := l.buf.filter (fun z => decide (z.1 ≠ e.1)), gone := l.gone ++ [e.1], live := l.live ++ [e.1] }) }) ∧
  (∀ (cab : Cab) (r : Fin 4) (x : RunSt) (d : Theft) (s : State),
      s.runner cab r = x →
      x.theft = some d →
      (s.runner d.list.1 d.list.2).run.any (fun y => !y.ended) = true →
      descOk s.die d.desc = true →
      exec (.stealArrive cab r) s = .next (((s.setRunner cab r { x with theft := none }).setStart cab r d.idx d.desc d.list (opCmd cab r d.desc)).kick cab r)) ∧
  (∀ (cab : Cab) (r : Fin 4) (x : RunSt) (d : Theft) (s : State),
      s.runner cab r = x →
      x.theft = some d →
      (s.runner d.list.1 d.list.2).run.any (fun y => !y.ended) = false →
      exec (.stealArrive cab r) s = .next ((s.setRunner cab r { x with theft := none }).nextList cab r))

/-- In the state the command requires and under a master it accepts: ACTIVATE takes the owner tag and makes a free context ACTIVE, DEACTIVATE frees it,
BIND records the current generation and the fence mask and makes it BOUND. KILL of a bound context that is not being killed begins the kill; phase 1
closes it for 16 unfrozen fc; phase 2 ends when no list runs, phase 3 settles the windows, phase 4 clears the record. An attachment group of a bound
context is bound or freed by EAG. Where the spec leaves room this rests on the model's own choices: log entry 25. -/
def Obligations.ContextsChangeState : Prop :=
  (∀ (c : Ctx) (s : State),
      s.ctxState c = 0 →
      s.rgsShut (masterIdx .sec) = false →
      ∃ t, exec (.ctxActivate .sec c) s = .next t ∧ t.ctxState c = 1 ∧ t.f (R.CTX_STAT_OWNER c) = s.f R.CTX_OWNER_IN_OWNER ∧ t.f R.CTX_CMD_STAT_DONE = 1 ∧ s.sameRegs [R.CTX_STAT c, R.CTX_CMD_STAT] t) ∧
  (∀ (c : Ctx) (s : State),
      s.ctxState c = 1 →
      s.rgsShut (masterIdx .sec) = false →
      ∃ t, exec (.ctxDeactivate .sec c) s = .next t ∧ t.ctxState c = 0 ∧ t.f (R.CTX_STAT_OWNER c) = 0 ∧ t.f R.CTX_CMD_STAT_DONE = 1 ∧ s.sameRegs [R.CTX_STAT c, R.CTX_CMD_STAT] t) ∧
  (∀ (m : Master) (c : Ctx) (s : State),
      (m == .sch || m == .dbg) = true →
      s.ctxState c = 1 →
      s.rgsShut (masterIdx m) = false →
      ∃ t, exec (.ctxBind m c) s = .next t ∧ t.ctxState c = 2 ∧ t.f (bitFld R.IDV_CMAP_CTXGEN c) = s.cur ∧ t.f (R.CTX_STAT_GEN c) = s.cur ∧ (∀ k : Fin 4, t.reg (R.CTX_FMASK c k) = s.reg (R.IDV_FENCE_MASK k)) ∧
        t.f R.CTX_CMD_STAT_DONE = 1 ∧ s.sameRegs [R.CTX_STAT c, R.CTX_CMD_STAT, R.IDV_CMAP_CTXGEN, R.CTX_FMASK c 0, R.CTX_FMASK c 1, R.CTX_FMASK c 2, R.CTX_FMASK c 3] t) ∧
  (∀ (m : Master) (c : Ctx) (s u : State),
      (m == .sch || m == .sec || m == .dbg) = true →
      s.killing c = false →
      s.ctxState c = 2 →
      u = (s.put R.CTX_CMD_STAT_DONE 0).unbindNew c →
      s.rgsShut (masterIdx m) = false →
      exec (.ctxKill m c) s = .next (({ u with ctx := { s.ctx with kills := s.ctx.kills ++ [({ ctx := c, stage := 0, due := s.nextU } : Kill)] } } : State).at' .unfz s.nextU (.ctxKill .hrp c))) ∧
  (∀ (c : Ctx) (s : State),
      s.frozen = false →
      s.ctx.kills.any (fun k => decide (k.ctx = c) && decide (k.stage = 0) && decide (k.due ≤ s.time.ufc)) = true →
      exec (.ctxKill .hrp c) s = .next (((s.killClose c).killStage c 1 (s.time.ufc + 15)).at' .unfz (s.time.ufc + 15) (.killQuiesceEnd c))) ∧
  (∀ (c : Ctx) (e : Kill) (s : State),
      s.frozen = false →
      s.ctx.kills.find? (fun k => decide (k.ctx = c.val)) = some e →
      e.stage = 1 →
      e.due ≤ s.time.ufc →
      s.runners.any (fun y => y.2.run.any (fun l => decide (l.ctx = c.val))) = false →
      exec (.killQuiesceEnd c) s = .next ((s.killStage c 2 (s.time.ufc + 1)).later .unfz 1 (.killQuiesceEnd c))) ∧
  (∀ (c : Ctx) (e : Kill) (s : State),
      s.frozen = false →
      s.ctx.kills.find? (fun k => decide (k.ctx = c.val)) = some e →
      e.stage = 2 →
      e.due ≤ s.time.ufc →
      exec (.killQuiesceEnd c) s = .next (s.killSweep c)) ∧
  (∀ (c : Ctx) (s : State),
      s.frozen = false →
      s.ctx.kills.any (fun k => decide (k.ctx = c.val) && decide (k.stage = 3)) = true →
      s.winsOf c 2 = [] →
      s.winsOf c 3 = [] →
      ∃ t, exec (.killUnbind c) s = .next t ∧ t.ctxState c = 1 ∧ t.f (R.CTX_STAT_KPHASE c) = 0 ∧ t.f (R.CTX_STAT_GEN c) = 0 ∧ t.f (bitFld R.IDV_CMAP_CTXGEN c) = 0 ∧ t.f R.CTX_CMD_STAT_DONE = 1 ∧ t.killing c = false ∧
        (∀ p : Cab, s.f (R.CTX_EAG_CTX p) = c → t.f (R.CTX_EAG_V p) = 0) ∧ t.faulted c = false) ∧
  (∀ (m : Master) (p : Cab) (v : W32) (s : State),
      (m == .sch || m == .dbg) = true →
      vbit v 4 = true →
      s.ctxState (v.toNat % 16) = 2 →
      s.bit (R.CTX_EAG_V p) = false →
      s.rgsShut (masterIdx m) = false →
      exec (.eagWrite m p v) s = .next (s.puts [(R.CTX_EAG_CTX p, v.toNat % 16), (R.CTX_EAG_V p, 1)])) ∧
  (∀ (m : Master) (p : Cab) (v : W32) (s : State),
      (m == .sch || m == .dbg) = true →
      vbit v 4 = false →
      s.rgsShut (masterIdx m) = false →
      exec (.eagWrite m p v) s = .next (s.puts [(R.CTX_EAG_CTX p, v.toNat % 16), (R.CTX_EAG_V p, 0)]))

/-- A BIND with no cause of refusal opens the window for the context, one with a cause sets REJ and the first cause of the order; an UNBIND of an open
window of the context is taken when none is under way, and the window closes on the next fc; when the next 16 unfrozen fc have passed, on the fc
after, it becomes KEPT or is swept; a RELEASE sweeps a KEPT window; a window whose last part is swept is FREE. Where the spec leaves room this rests
on the model's own choices: log entry 27. -/
def Obligations.WindowsOpenCloseAndAreSwept : Prop :=
  (∀ (m : Master) (w : Win) (c : Ctx) (s : State),
      winMaster m = true →
      s.bindCause w c = 0 →
      s.rgsShut (masterIdx m) = false →
      ∃ t, exec (.windowBind m w c) s = .next t ∧ t.f (R.WIN_STATE_STATE w) = 1 ∧ t.f (R.WIN_STATE_CTX w) = c ∧ t.f (R.WIN_STATE_KOWNER w) = 0 ∧ t.f (R.WIN_STATE_KGEN w) = 0 ∧ t.f R.WIN_BIND_STAT_DONE = 1 ∧ s.sameRegs [R.WIN_STATE w, R.WIN_BIND_STAT] t) ∧
  (∀ (m : Master) (w : Win) (c : Ctx) (s : State),
      winMaster m = true →
      s.bindCause w c ≠ 0 →
      s.rgsShut (masterIdx m) = false →
      ∃ t, exec (.windowBind m w c) s = .next t ∧ t.f R.WIN_BIND_STAT_REJ = 1 ∧ t.f R.WIN_BIND_STAT_CAUSE = s.bindCause w c ∧ s.sameRegs [R.WIN_BIND_STAT] t) ∧
  (∀ (m : Master) (w : Win) (c : Ctx) (s : State),
      winMaster m = true →
      s.f (R.WIN_STATE_STATE w) = 1 →
      s.f (R.WIN_STATE_CTX w) = c →
      s.ctx.busy = none →
      s.rgsShut (masterIdx m) = false →
      exec (.windowUnbind m w c) s = .next ((s.winBusy w 2).later .wall 1 (.windowUnbind .hrp w c))) ∧
  (∀ (w : Win) (c : Ctx) (s : State),
      s.f (R.WIN_STATE_STATE w) = 1 →
      s.f (R.WIN_STATE_CTX w) = c →
      s.ctx.busy = some (w.val, 2) →
      s.armed (.windowUnbind .hrp w c) = false →
      exec (.windowUnbind .hrp w c) s = .next (((s.winStage w 4).winClose w).at' .unfz (s.time.ufc + 15) (.windowCloseSettle w))) ∧
  (∀ (m : Master) (w : Win) (c : Ctx) (s : State),
      winMaster m = true →
      s.f (R.WIN_STATE_STATE w) = 4 →
      s.ctx.busy = none →
      s.rgsShut (masterIdx m) = false →
      exec (.windowRelease m w c) s = .next (((s.winBusy w 3).puts [(R.WIN_STATE_STATE w, 3), (R.WIN_STATE_KOWNER w, 0)]).winClear w (s.f (R.WIN_STATE_KGEN w)))) ∧
  (∀ (w : Win) (s : State),
      s.f (R.WIN_STATE_STATE w) = 2 →
      s.ctx.busy = some (w.val, 4) →
      s.killing (s.f (R.WIN_STATE_CTX w)) = false →
      exec (.windowCloseSettle w) s = .next ((s.winStage w 5).later .wall 1 (.windowCloseSettle w))) ∧
  (∀ (w : Win) (s : State),
      s.f (R.WIN_STATE_STATE w) = 2 →
      s.ctx.busy = some (w.val, 5) →
      s.armed (.windowCloseSettle w) = false →
      s.killing (s.f (R.WIN_STATE_CTX w)) = false →
      s.bit (R.WIN_PART_C_KEEP_ON_KILL w) = true →
      ∃ t, exec (.windowCloseSettle w) s = .next t ∧ t.f (R.WIN_STATE_STATE w) = 4 ∧ t.f (R.WIN_STATE_CTX w) = 0 ∧ t.f (R.WIN_STATE_KOWNER w) = s.f (R.CTX_STAT_OWNER (s.f (R.WIN_STATE_CTX w))) ∧
        t.f R.WIN_BIND_STAT_BUSY = 0 ∧ t.f R.WIN_BIND_STAT_DONE = 1 ∧ t.ctx.busy = none ∧ s.sameRegs [R.WIN_STATE w, R.WIN_BIND_STAT] t) ∧
  (∀ (w : Win) (s : State),
      s.f (R.WIN_STATE_STATE w) = 2 →
      s.ctx.busy = some (w.val, 5) →
      s.armed (.windowCloseSettle w) = false →
      s.killing (s.f (R.WIN_STATE_CTX w)) = false →
      s.bit (R.WIN_PART_C_KEEP_ON_KILL w) = false →
      exec (.windowCloseSettle w) s = .next ((s.put (R.WIN_STATE_STATE w) 3).winClear w (s.ctxGen (s.f (R.WIN_STATE_CTX w))))) ∧
  (∀ (w : Win) (s : State),
      s.f (R.WIN_STATE_STATE w) = 3 →
      s.sweepLeft (.window w) = false →
      s.leave.queue.any (fun y => decide (y.who = LeaveFor.window w)) = false →
      s.frozen = false →
      ∃ t, exec (.windowSweepDone w) s = .next t ∧ t.f (R.WIN_STATE_STATE w) = 0 ∧ t.f (R.WIN_STATE_CTX w) = 0 ∧ t.f (R.WIN_STATE_KGEN w) = 0 ∧ t.f (R.WIN_STATE_KOWNER w) = 0 ∧ (s.ctx.busy = some (w.val, 3) → t.f R.WIN_BIND_STAT_DONE = 1 ∧ t.ctx.busy = none))

/-- A slot that fails its check on an UP lane is recorded with its failure, counted and NAKed; one that passes is ready 21 fc after its check and
refreshes the lane. A NAK of a slot within 64 fc of its sending queues it to be sent again, the eighth takes the lane down. A due slot is delivered in
sequence order; one that carries a set-class flit or a freeze mark and is not received 3 fc before delivery is late, is logged and starts a bridge
freeze. Where the spec leaves room this rests on the model's own choices: log entry 28. -/
def Obligations.WireSlotsAreCheckedAndDelivered : Prop :=
  (∀ (lane : Fin 8) (slot : WireSlot) (old : Option RxSlot) (s : State),
      s.laneUp lane = true →
      (s.lane lane).want ≤ slot.seq →
      (s.lane lane).rx.find? (fun r => decide (r.seq = slot.seq)) = old →
      old.any (fun r => r.ready.isSome) = false →
      ∃ t, exec (.wireSlotReceive lane slot false) s = .next t ∧ (t.lane lane).rx = (s.lane lane).rx.filter (fun y => decide (y.seq ≠ slot.seq)) ++ [{ seq := slot.seq, first := (old.map (fun r => r.first)).getD s.time.fc, ready := none, fails := (old.map (fun r => r.fails)).getD 0 + 1, late := (old.map (fun r => r.late)).getD false, slot := slot }] ∧
        (s.time.fc, slot.seq) ∈ (t.lane lane).naks.map (fun e => (e.2, e.1)) ∧ t.f (R.BRG_CRC_CNT_COUNT lane) = min (s.f (R.BRG_CRC_CNT_COUNT lane) + 1) (2 ^ (R.BRG_CRC_CNT_COUNT lane).width - 1) ∧ s.sameRegs [R.BRG_CRC_CNT lane] t) ∧
  (∀ (lane : Fin 8) (slot : WireSlot) (old : Option RxSlot) (s : State),
      s.laneUp lane = true →
      (s.lane lane).want ≤ slot.seq →
      (s.lane lane).rx.find? (fun r => decide (r.seq = slot.seq)) = old →
      old.any (fun r => r.ready.isSome) = false →
      s.strDiff slot ≤ 2 →
      ((s.lane lane).rx.filter (fun r => r.ready.isSome && r.slot.items.any isSet)).length < 64 →
      ∃ t, exec (.wireSlotReceive lane slot true) s = .next t ∧ (slot.items = [] → t.regs = s.regs) ∧ (t.lane lane).good = s.time.fc ∧
        (t.lane lane).rx = (s.lane lane).rx.filter (fun y => decide (y.seq ≠ slot.seq)) ++ [{ seq := slot.seq, first := (old.map (fun r => r.first)).getD s.time.fc, ready := some (s.time.fc + 21), fails := (old.map (fun r => r.fails)).getD 0, late := (old.map (fun r => r.late)).getD false, slot := slot }]) ∧
  (∀ (lane : Fin 8) (seq : Nat) (w : WireSlot) (sent n : Nat) (s : State),
      s.laneUp lane = true →
      (s.lane lane).replay.find? (fun y => decide (y.1.seq = seq) && decide (s.time.fc < y.2.1 + 64)) = some (w, sent, n) →
      n + 1 < 8 →
      exec (.nakReceive lane seq) s = .next (s.setLane lane { s.lane lane with resend := (if (s.lane lane).resend.contains seq then (s.lane lane).resend else (s.lane lane).resend ++ [seq]), replay := (s.lane lane).replay.map (fun y => if y.1.seq = seq then (y.1, y.2.1, y.2.2 + 1) else y) })) ∧
  (∀ (lane : Fin 8) (seq : Nat) (w : WireSlot) (sent n : Nat) (s : State),
      s.laneUp lane = true →
      (s.lane lane).replay.find? (fun y => decide (y.1.seq = seq) && decide (s.time.fc < y.2.1 + 64)) = some (w, sent, n) →
      8 ≤ n + 1 →
      exec (.nakReceive lane seq) s = .next (s.laneDown lane 2)) ∧
  (∀ (lane : Fin 8) (u : State) (s : State),
      s.laneUp lane = true →
      (s.lane lane).rx.any (fun y => y.late) = false →
      u = s.setLane lane { s.lane lane with rx := (s.lane lane).rx.map (fun r => if r.ready.any (fun n => decide (n ≤ s.time.fc)) then { r with late := false } else r) } →
      exec (.slotDelivery lane) s = .next (u.deliverSlots lane (s.lane lane).rx.length)) ∧
  (∀ (lane : Fin 8) (r : RxSlot) (n : Nat) (s : State),
      (s.lane lane).rx.find? (fun y => decide (y.seq = (s.lane lane).want) && decide (y.first + s.pad ≤ s.time.fc) && y.ready.any (fun z => decide (z ≤ s.time.fc))) = some r →
      s.deliverSlots lane (n + 1) = (r.slot.items.foldl (fun t i => t.slotItem lane r.slot.stime i) (s.setLane lane { s.lane lane with want := (s.lane lane).want + 1, rx := (s.lane lane).rx.filter (fun y => decide (y.seq ≠ r.seq)) })).deliverSlots lane n) ∧
  (∀ (lane : Fin 8) (r : RxSlot) (s : State),
      s.laneUp lane = true →
      (s.lane lane).rx.any (fun y => y.late) = false →
      (s.lane lane).rx.find? (fun y => decide (y.seq = (s.lane lane).want) && decide (y.first + s.pad ≤ s.time.fc) && y.ready.any (fun z => decide (z ≤ s.time.fc))) = some r →
      (s.lane lane).rx.any (fun y => decide (y.seq = (s.lane lane).want + 1)) = false →
      r.slot.items = [] →
      ∃ t, exec (.slotDelivery lane) s = .next t ∧ (t.lane lane).want = (s.lane lane).want + 1 ∧ (t.lane lane).rx.any (fun y => decide (y.seq = r.seq)) = false ∧ t.regs = s.regs ∧ t.mem = s.mem) ∧
  (∀ (lane : Fin 8) (sent n : Nat) (s : State),
      n ≤ 64 →
      ((s.slotItem lane sent (.credit n)).lane lane).credits = min 64 ((s.lane lane).credits + n)) ∧
  (∀ (lane : Fin 8) (n : Nat) (s : State),
      n = ((s.lane lane).rx.filter (fun r => !r.late && critical r.slot && decide (r.first + s.pad ≤ s.time.fc + 3) && !r.ready.any (fun y => decide (y ≤ s.time.fc)))).length →
      0 < n →
      exec (.bridgeLate lane) s = .next (((List.range n).foldl (fun t _ => t.brgErr 0x70 (lane.val / 2 * 16 + lane.val % 2)) ((s.setLane lane { s.lane lane with rx := (s.lane lane).rx.map (fun r => if (!r.late && critical r.slot && decide (r.first + s.pad ≤ s.time.fc + 3) && !r.ready.any (fun y => decide (y ≤ s.time.fc))) then { r with late := true } else r) }).incBy (R.BRG_LATE_CNT_COUNT lane) n)).frzRaise .bridge))

/-- An UP lane without a good slot for 256 fc goes down with cause 3; a new notice is kept, faults the contexts that span dies and goes on once. TRAIN of
a built lane that is OFF asks for 50 units of leave; a training of four modules ends UP, one of fewer DOWN with cause 1; OFF takes the lane to OFF
while no bound context spans dies. DROUTE of SEC or DBG takes the routes while no bound multi-die context lives. Where the spec leaves room this rests
on the model's own choices: log entry 29. -/
def Obligations.LanesComeUpAndGoDown : Prop :=
  (∀ (lane : Fin 8) (s : State),
      s.laneUp lane = true →
      (s.lane lane).good + 256 ≤ s.time.fc →
      exec (.laneSilent lane) s = .next (s.laneDown lane 3)) ∧
  (∀ (l cause : Nat) (s : State),
      s.laneUp l = true →
      l < 8 →
      cause < 16 →
      (∀ c : Ctx, s.bit (R.LCT_STEP_MULTI c) = false) →
      s.brg.lanes = [] →
      s.loose.far = [] →
      (s.laneDown l cause).f (R.BRG_STAT_STATE l) = 3 ∧ (s.laneDown l cause).f (R.BRG_STAT_CAUSE l) = cause ∧ (s.laneDown l cause).brg.notices = s.brg.notices ++ [(s.die, s.brg.downSeq + 1)] ∧
        (s.laneDown l cause).detected = s.detected ++ [{ kind := 0x71, req := 28, cab := none, data := 0x70000 + (cause * 256 + l / 2 * 16 + l % 2), time := s.now }]) ∧
  (∀ (lane : Fin 8) (origin : Fin 8) (seq : Nat) (s : State),
      (origin.val, seq) ∉ s.brg.notices →
      exec (.laneDownNotice lane origin seq) s = .next ((({ s with brg := { s.brg with notices := s.brg.notices ++ [(origin.val, seq)] } } : State).multiFault).send (.laneDown origin seq) none (some lane.val))) ∧
  (∀ (m : Master) (lane : Fin 8) (s : State),
      brgMaster m = true →
      s.laneState lane = 0 ∨ (s.laneState lane = 3 ∧ s.f (R.BRG_STAT_CAUSE lane) ≠ 4) →
      s.laneBuilt lane = true →
      s.bit (R.BRG_STAT_LEAVE_WAIT lane) = false →
      s.rgsShut (masterIdx m) = false →
      exec (.laneTrain m lane) s = .next ((s.put (R.BRG_STAT_LEAVE_WAIT lane) 1).leaveAsk (.train lane) 50)) ∧
  (∀ (m : Master) (lane : Fin 8) (s : State),
      brgMaster m = true →
      s.multiBound false = false →
      ¬(s.laneState lane = 3 ∧ s.f (R.BRG_STAT_CAUSE lane) = 4) →
      s.rgsShut (masterIdx m) = false →
      exec (.laneOff m lane) s = .next ((((s.leaveDrop (.train lane)).leaveBack (.train lane)).puts [(R.BRG_STAT_LEAVE_WAIT lane, 0), (R.BRG_STAT_STATE lane, 0)]).laneClear lane)) ∧
  (∀ (lane : Fin 8) (s : State),
      s.laneState lane = 1 →
      ∃ t, exec (.trainDone lane 4) s = .next t ∧ t.laneState lane = 2 ∧ t.f (R.BRG_STAT_MODULES lane) = 4 ∧ t.lane lane = { Lane.idle with good := s.time.fc }) ∧
  (∀ (lane : Fin 8) (modules : Fin 5) (s : State),
      s.laneState lane = 1 →
      modules.val < 4 →
      ∃ t, exec (.trainDone lane modules) s = .next t ∧ t.laneState lane = 3 ∧ t.f (R.BRG_STAT_MODULES lane) = modules ∧ t.f (R.BRG_STAT_CAUSE lane) = 1) ∧
  (∀ (m : Master) (v : W32) (s : State),
      (m == .sec || m == .dbg) = true →
      s.multiBound true = false →
      s.rgsShut (masterIdx m) = false →
      exec (.drouteWrite m v) s = .next (s.setReg R.BRG_DROUTE (v &&& 0x00FFFFFF)))

/-- At a gateway in service with its link up and a free place, a well-formed packet of a known partner with the right epoch, a valid tag, a sequence
number above the last and enough in its bucket is admitted: the sequence number is kept, the bucket pays the cost, and the packet does what its TYPE
says. A malformed packet is dropped and counted; a wrong epoch or tag, a replay and an exceeded rate are counted as such; a refused access is answered
REFUSED and counted. Where the spec leaves room this rests on the model's own choices: log entry 32. -/
def Obligations.GatewaysAdmitPartnerPackets : Prop :=
  (∀ (k : Gw) (pkt : Packet) (p : Nat) (s : State),
      s.gwIn k = true →
      s.bit (R.EDG_STAT_LINK_UP k) = true →
      (s.gw k).ins.length < 64 →
      malformed pkt = false →
      s.partOf k pkt = some p →
      s.partState p = 1 →
      pkt.epoch.toNat = s.f (R.EDG_PT_STAT_EPOCH p) →
      pkt.tagOk = true →
      s.pair (R.EDG_PT_RX_LO p) (R.EDG_PT_RX_HI p) < pkt.seq.toNat →
      (48 + pkt.len.toNat + 63) / 64 ≤ ((s.fillBucket p).part p).bucket →
      pkt.typ = 0x01 →
      exec (.edgeHello k pkt) s = .next (((((s.fillBucket p).setPair (R.EDG_PT_RX_LO p) (R.EDG_PT_RX_HI p) pkt.seq.toNat).setPart p { (s.fillBucket p).part p with heard := s.time.real }).setPart p { (((s.fillBucket p).setPair (R.EDG_PT_RX_LO p) (R.EDG_PT_RX_HI p) pkt.seq.toNat).setPart p { (s.fillBucket p).part p with heard := s.time.real }).part p with bucket := ((((s.fillBucket p).setPair (R.EDG_PT_RX_LO p) (R.EDG_PT_RX_HI p) pkt.seq.toNat).setPart p { (s.fillBucket p).part p with heard := s.time.real }).part p).bucket - (48 + pkt.len.toNat + 63) / 64 }).hello k p pkt)) ∧
  (∀ (k : Gw) (pkt : Packet) (p : Nat) (s : State),
      s.gwIn k = true →
      s.bit (R.EDG_STAT_LINK_UP k) = true →
      (s.gw k).ins.length < 64 →
      malformed pkt = false →
      s.partOf k pkt = some p →
      s.partState p = 2 →
      pkt.epoch.toNat = s.f (R.EDG_PT_STAT_EPOCH p) →
      pkt.tagOk = true →
      s.pair (R.EDG_PT_RX_LO p) (R.EDG_PT_RX_HI p) < pkt.seq.toNat →
      (48 + pkt.len.toNat + 63) / 64 ≤ ((s.fillBucket p).part p).bucket →
      pkt.typ = 0x02 →
      exec (.edgeKeepalive k pkt) s = .next (((((s.fillBucket p).setPair (R.EDG_PT_RX_LO p) (R.EDG_PT_RX_HI p) pkt.seq.toNat).setPart p { (s.fillBucket p).part p with heard := s.time.real }).setPart p { (((s.fillBucket p).setPair (R.EDG_PT_RX_LO p) (R.EDG_PT_RX_HI p) pkt.seq.toNat).setPart p { (s.fillBucket p).part p with heard := s.time.real }).part p with bucket := ((((s.fillBucket p).setPair (R.EDG_PT_RX_LO p) (R.EDG_PT_RX_HI p) pkt.seq.toNat).setPart p { (s.fillBucket p).part p with heard := s.time.real }).part p).bucket - (48 + pkt.len.toNat + 63) / 64 }))) ∧
  (∀ (k : Gw) (pkt : Packet) (p : Nat) (s : State),
      s.gwIn k = true →
      s.bit (R.EDG_STAT_LINK_UP k) = true →
      (s.gw k).ins.length < 64 →
      malformed pkt = false →
      s.partOf k pkt = some p →
      s.partState p = 2 →
      pkt.epoch.toNat = s.f (R.EDG_PT_STAT_EPOCH p) →
      pkt.tagOk = true →
      s.pair (R.EDG_PT_RX_LO p) (R.EDG_PT_RX_HI p) < pkt.seq.toNat →
      (48 + pkt.len.toNat + 63) / 64 ≤ ((s.fillBucket p).part p).bucket →
      pkt.typ = 0x10 →
      exec (.edgeWrite k pkt) s = .next (((((s.fillBucket p).setPair (R.EDG_PT_RX_LO p) (R.EDG_PT_RX_HI p) pkt.seq.toNat).setPart p { (s.fillBucket p).part p with heard := s.time.real }).setPart p { (((s.fillBucket p).setPair (R.EDG_PT_RX_LO p) (R.EDG_PT_RX_HI p) pkt.seq.toNat).setPart p { (s.fillBucket p).part p with heard := s.time.real }).part p with bucket := ((((s.fillBucket p).setPair (R.EDG_PT_RX_LO p) (R.EDG_PT_RX_HI p) pkt.seq.toNat).setPart p { (s.fillBucket p).part p with heard := s.time.real }).part p).bucket - (48 + pkt.len.toNat + 63) / 64 }).edgeAccess k p pkt)) ∧
  (∀ (k : Gw) (pkt : Packet) (p : Nat) (s : State),
      s.gwIn k = true →
      s.bit (R.EDG_STAT_LINK_UP k) = true →
      (s.gw k).ins.length < 64 →
      malformed pkt = false →
      s.partOf k pkt = some p →
      s.partState p = 2 →
      pkt.epoch.toNat = s.f (R.EDG_PT_STAT_EPOCH p) →
      pkt.tagOk = true →
      s.pair (R.EDG_PT_RX_LO p) (R.EDG_PT_RX_HI p) < pkt.seq.toNat →
      (48 + pkt.len.toNat + 63) / 64 ≤ ((s.fillBucket p).part p).bucket →
      pkt.typ = 0x11 →
      exec (.edgeInc k pkt) s = .next (((((s.fillBucket p).setPair (R.EDG_PT_RX_LO p) (R.EDG_PT_RX_HI p) pkt.seq.toNat).setPart p { (s.fillBucket p).part p with heard := s.time.real }).setPart p { (((s.fillBucket p).setPair (R.EDG_PT_RX_LO p) (R.EDG_PT_RX_HI p) pkt.seq.toNat).setPart p { (s.fillBucket p).part p with heard := s.time.real }).part p with bucket := ((((s.fillBucket p).setPair (R.EDG_PT_RX_LO p) (R.EDG_PT_RX_HI p) pkt.seq.toNat).setPart p { (s.fillBucket p).part p with heard := s.time.real }).part p).bucket - (48 + pkt.len.toNat + 63) / 64 }).edgeAccess k p pkt)) ∧
  (∀ (k : Gw) (pkt : Packet) (p : Nat) (s : State),
      s.gwIn k = true →
      s.bit (R.EDG_STAT_LINK_UP k) = true →
      (s.gw k).ins.length < 64 →
      malformed pkt = false →
      s.partOf k pkt = some p →
      s.partState p = 2 →
      pkt.epoch.toNat = s.f (R.EDG_PT_STAT_EPOCH p) →
      pkt.tagOk = true →
      s.pair (R.EDG_PT_RX_LO p) (R.EDG_PT_RX_HI p) < pkt.seq.toNat →
      (48 + pkt.len.toNat + 63) / 64 ≤ ((s.fillBucket p).part p).bucket →
      pkt.typ = 0x12 →
      ((s.gw k).ins.filter (fun a => decide (a.part = p) && decide (a.typ = 0x12))).length < s.f (R.EDG_PT_CFG_RD_MAX p) →
      exec (.edgeRead k pkt) s = .next (((((s.fillBucket p).setPair (R.EDG_PT_RX_LO p) (R.EDG_PT_RX_HI p) pkt.seq.toNat).setPart p { (s.fillBucket p).part p with heard := s.time.real }).setPart p { (((s.fillBucket p).setPair (R.EDG_PT_RX_LO p) (R.EDG_PT_RX_HI p) pkt.seq.toNat).setPart p { (s.fillBucket p).part p with heard := s.time.real }).part p with bucket := ((((s.fillBucket p).setPair (R.EDG_PT_RX_LO p) (R.EDG_PT_RX_HI p) pkt.seq.toNat).setPart p { (s.fillBucket p).part p with heard := s.time.real }).part p).bucket - (48 + pkt.len.toNat + 63) / 64 }).edgeAccess k p pkt)) ∧
  (∀ (k : Gw) (pkt : Packet) (p : Nat) (s : State),
      s.gwIn k = true →
      s.bit (R.EDG_STAT_LINK_UP k) = true →
      (s.gw k).ins.length < 64 →
      malformed pkt = false →
      s.partOf k pkt = some p →
      s.partState p = 2 →
      pkt.epoch.toNat = s.f (R.EDG_PT_STAT_EPOCH p) →
      pkt.tagOk = true →
      s.pair (R.EDG_PT_RX_LO p) (R.EDG_PT_RX_HI p) < pkt.seq.toNat →
      (48 + pkt.len.toNat + 63) / 64 ≤ ((s.fillBucket p).part p).bucket →
      pkt.typ = 0x20 →
      exec (.edgeAck k pkt) s = .next (((((s.fillBucket p).setPair (R.EDG_PT_RX_LO p) (R.EDG_PT_RX_HI p) pkt.seq.toNat).setPart p { (s.fillBucket p).part p with heard := s.time.real }).setPart p { (((s.fillBucket p).setPair (R.EDG_PT_RX_LO p) (R.EDG_PT_RX_HI p) pkt.seq.toNat).setPart p { (s.fillBucket p).part p with heard := s.time.real }).part p with bucket := ((((s.fillBucket p).setPair (R.EDG_PT_RX_LO p) (R.EDG_PT_RX_HI p) pkt.seq.toNat).setPart p { (s.fillBucket p).part p with heard := s.time.real }).part p).bucket - (48 + pkt.len.toNat + 63) / 64 }).edgeResponse k p pkt)) ∧
  (∀ (k : Gw) (pkt : Packet) (p : Nat) (s : State),
      s.gwIn k = true →
      s.bit (R.EDG_STAT_LINK_UP k) = true →
      (s.gw k).ins.length < 64 →
      malformed pkt = false →
      s.partOf k pkt = some p →
      s.partState p = 2 →
      pkt.epoch.toNat = s.f (R.EDG_PT_STAT_EPOCH p) →
      pkt.tagOk = true →
      s.pair (R.EDG_PT_RX_LO p) (R.EDG_PT_RX_HI p) < pkt.seq.toNat →
      (48 + pkt.len.toNat + 63) / 64 ≤ ((s.fillBucket p).part p).bucket →
      pkt.typ = 0x21 →
      exec (.edgeReadRsp k pkt) s = .next (((((s.fillBucket p).setPair (R.EDG_PT_RX_LO p) (R.EDG_PT_RX_HI p) pkt.seq.toNat).setPart p { (s.fillBucket p).part p with heard := s.time.real }).setPart p { (((s.fillBucket p).setPair (R.EDG_PT_RX_LO p) (R.EDG_PT_RX_HI p) pkt.seq.toNat).setPart p { (s.fillBucket p).part p with heard := s.time.real }).part p with bucket := ((((s.fillBucket p).setPair (R.EDG_PT_RX_LO p) (R.EDG_PT_RX_HI p) pkt.seq.toNat).setPart p { (s.fillBucket p).part p with heard := s.time.real }).part p).bucket - (48 + pkt.len.toNat + 63) / 64 }).edgeResponse k p pkt)) ∧
  (∀ (k p : Nat) (pkt : Packet) (s : State),
      p < 64 →
      s.partState p = 1 →
      s.bit R.HLM_HLM_STAT_VALID = true →
      pkt.payload.take 48 = (List.range 12).flatMap (fun j => leBytes 4 (s.reg (R.HLM_HASH j)).toNat) →
      (s.hello k p pkt).partState p = 2) ∧
  (∀ (k p : Nat) (pkt : Packet) (w c : Nat) (s : State),
      pkt.typ = 0x10 →
      s.edgeCheck p (s.f (R.EDG_PT_CFG_PCTX p)) pkt.addr.toNat true = some (w, c) →
      s.edgeAccess k p pkt = s.edgeViol k p pkt (fun x => x.violate 9 none (some (s.f (R.EDG_PT_CFG_PCTX p))) pkt.addr.toNat w c)) ∧
  (∀ (k p : Nat) (pkt : Packet) (s : State),
      pkt.typ = 0x10 →
      s.edgeCheck p (s.f (R.EDG_PT_CFG_PCTX p)) pkt.addr.toNat true = none →
      s.edgeAccess k p pkt = ((((s.edgeBursts k (s.f (R.EDG_PT_CFG_PCTX p)) pkt.addr.toNat pkt.len.toNat true pkt.payload).1.setGw k
          { (s.edgeBursts k (s.f (R.EDG_PT_CFG_PCTX p)) pkt.addr.toNat pkt.len.toNat true pkt.payload).1.gw k with ins := ((s.edgeBursts k (s.f (R.EDG_PT_CFG_PCTX p)) pkt.addr.toNat pkt.len.toNat true pkt.payload).1.gw k).ins ++
              [{ part := p, typ := 0x10, reqId := pkt.reqId.toNat, fa := pkt.addr.toNat, len := pkt.len.toNat, ids := (s.edgeBursts k (s.f (R.EDG_PT_CFG_PCTX p)) pkt.addr.toNat pkt.len.toNat true pkt.payload).2, resp := .ok, dat := [], sig := none }] }).countOut p).gwLook k)) ∧
  (∀ (k : Gw) (p : Nat) (pkt : Packet) (c : EdgeCmd) (q : OutPkt) (s : State),
      (s.gw k).cmds = [c] →
      c.op = 3 →
      c.part = p →
      c.started = true →
      c.out = [q] →
      q.reqId = pkt.reqId.toNat →
      pkt.status = 0 →
      pkt.typ = 0x20 →
      s.edgeResponse k p pkt = (((s.setGw k { s.gw k with cmds := [{ c with out := [] }] }).countOut p).later .wall 0 (.edgeIncCmd k))) ∧
  (∀ (k : Gw) (pkt : Packet) (s : State),
      s.gwIn k = true →
      s.bit (R.EDG_STAT_LINK_UP k) = true →
      (s.gw k).ins.length < 64 →
      malformed pkt = true →
      exec (.edgeMalformedPacket k pkt) s = .next (s.inc (R.EDG_MALFORMED_COUNT k))) ∧
  (∀ (k : Gw) (pkt : Packet) (p : Nat) (s : State),
      s.gwIn k = true →
      s.bit (R.EDG_STAT_LINK_UP k) = true →
      (s.gw k).ins.length < 64 →
      malformed pkt = false →
      s.partOf k pkt = some p →
      s.partState p = 2 →
      pkt.typ = 0x02 →
      pkt.tagOk = false →
      exec (.edgeKeepalive k pkt) s = .next (s.quarCount p (R.EDG_PT_DROP_TAG p))) ∧
  (∀ (k : Gw) (pkt : Packet) (p : Nat) (s : State),
      s.gwIn k = true →
      s.bit (R.EDG_STAT_LINK_UP k) = true →
      (s.gw k).ins.length < 64 →
      malformed pkt = false →
      s.partOf k pkt = some p →
      s.partState p = 2 →
      pkt.typ = 0x02 →
      pkt.epoch.toNat = s.f (R.EDG_PT_STAT_EPOCH p) →
      pkt.tagOk = true →
      pkt.seq.toNat ≤ s.pair (R.EDG_PT_RX_LO p) (R.EDG_PT_RX_HI p) →
      exec (.edgeKeepalive k pkt) s = .next (s.quarCount p (R.EDG_PT_DROP_REPLAY p)))

/-- The command at the head of a gateway that can run goes on as its OP says: a PUT with everything sent and answered ends OK, a GET sends READ packets,
an INC sends one packet and ends OK when it is answered. A waiting command of a context that is being killed ends ABORTED. A packet without a response
for TIMEOUT ends its command with TIMEOUT; the link takes the presented packet, or a READ_RSP that it has not taken within TIMEOUT is discarded. Where
the spec leaves room this rests on the model's own choices: log entry 31. -/
def Obligations.GatewayCommandsRun : Prop :=
  (∀ (k : Gw) (c : EdgeCmd) (rest : List EdgeCmd) (s : State),
      (s.gw k).cmds = c :: rest →
      s.cmdReady k c = none →
      c.op = 1 →
      exec (.edgePut k) s = .next ((s.killedCmds k).putStep k { c with started := true })) ∧
  (∀ (k : Nat) (c d : EdgeCmd) (s : State),
      k < 4 →
      (s.gw k).cmds = [c, d] →
      s.ctxState d.ctx = 3 →
      s.f (R.EDG_CMD_STAT_DONE k) < 65535 →
      ((s.killedCmds k).gw k).cmds = [c] ∧ (s.killedCmds k).f (R.EDG_CMD_STAT_LAST k) = 7 ∧ (s.killedCmds k).f (R.EDG_CMD_STAT_DONE k) = s.f (R.EDG_CMD_STAT_DONE k) + 1) ∧
  (∀ (k : Nat) (c : EdgeCmd) (s : State),
      s.loose.acked = [] →
      c.ids = [] →
      c.prep = none →
      c.len ≤ c.off →
      c.out = [] →
      s.putStep k c = (s.setCmd k c).edgeEnd k 0) ∧
  (∀ (k : Gw) (c : EdgeCmd) (rest : List EdgeCmd) (s : State),
      (s.gw k).cmds = c :: rest →
      s.cmdReady k c = none →
      c.op = 2 →
      exec (.edgeGet k) s = .next ((s.killedCmds k).getStep k { c with started := true })) ∧
  (∀ (k : Gw) (c : EdgeCmd) (rest : List EdgeCmd) (s : State),
      (s.gw k).cmds = c :: rest →
      s.cmdReady k c = none →
      c.op = 3 →
      c.started = false →
      exec (.edgeIncCmd k) s = .next (((s.killedCmds k).cmdPkt k { c with started := true } 0x11 0 0 (c.remote % 2 ^ 19) (c.loc % 65536) []).1.setCmd k ((s.killedCmds k).cmdPkt k { c with started := true } 0x11 0 0 (c.remote % 2 ^ 19) (c.loc % 65536) []).2)) ∧
  (∀ (k : Gw) (c : EdgeCmd) (rest : List EdgeCmd) (s : State),
      (s.gw k).cmds = c :: rest →
      s.cmdReady k c = none →
      c.op = 3 →
      c.started = true →
      c.out = [] →
      exec (.edgeIncCmd k) s = .next ((s.killedCmds k).edgeEnd k 0)) ∧
  (∀ (k status : Nat) (c : EdgeCmd) (s : State),
      k < 4 →
      status < 16 →
      (s.gw k).cmds = [c] →
      ((s.edgeEnd k status).gw k).cmds = [] ∧ (s.edgeEnd k status).f (R.EDG_CMD_STAT_LAST k) = status ∧ (s.edgeEnd k status).f (R.EDG_CMD_STAT_QUEUED k) = 0) ∧
  (∀ (k : Gw) (c : EdgeCmd) (rest : List EdgeCmd) (q : OutPkt) (s : State),
      (s.gw k).cmds = c :: rest →
      q ∈ c.out →
      q.sent + us (s.f (R.EDG_PT_TIME_TIMEOUT c.part)) ≤ s.time.real →
      exec (.edgePacketTimeout k) s = .next (s.edgeEnd k 4)) ∧
  (∀ (k : Gw) (x : TxPkt) (n : Nat) (s : State),
      s.loose.acked = [] →
      (s.gw k).ins = [] →
      (s.gw k).tx = [x] →
      x.take = some n →
      s.time.real < n →
      x.pkt.typ = 0x21 →
      x.since + us (s.f (R.EDG_PT_TIME_TIMEOUT x.part)) ≤ s.time.real →
      ∃ t, exec (.txRspTimeout k) s = .next t ∧ (t.gw k).tx = [] ∧ (t.gw k).shown = (s.gw k).shown ∧ t.mem = s.mem) ∧
  (∀ (k : Gw) (x : TxPkt) (n : Nat) (s : State),
      s.loose.acked = [] →
      (s.gw k).ins = [] →
      (s.gw k).tx = [x] →
      x.take = some n →
      n ≤ s.time.real →
      s.bit (R.EDG_STAT_LINK_UP k) = true →
      ∃ t, exec (.txRspTimeout k) s = .next t ∧ (t.gw k).tx = [] ∧ (t.gw k).shown = some x.pkt ∧ t.mem = s.mem)

/-- A link that comes up at a gateway in service sends HELLO to its DOWN partners and repeats it every 100 us; one that goes down takes the ACTIVE
partners DOWN. A silent sender sends a KEEPALIVE; an ACTIVE partner not heard for TIMEOUT goes DOWN. KEY_GO takes the key, advances the epoch,
restarts the sequence numbers and leaves the partner DOWN; CLEAR empties it. EN puts the gateway in or out of service. A quarantine window ends with
the count at 0. Where the spec leaves room this rests on the model's own choices: log entries 31, 32. -/
def Obligations.PartnersComeAndGo : Prop :=
  (∀ (k : Gw) (u : State) (s : State),
      s.bit (R.EDG_STAT_LINK_UP k) = false →
      k.val < s.ties.edges →
      u = ((s.put (R.EDG_STAT_LINK_UP k) 1).setGw k { s.gw k with helloed := [] }).txHead k →
      u.gwIn k = true →
      exec (.edgeLinkUp k) s = .next (((u.gwParts k).foldl (fun x e => if x.partState e = 1 then x.sendHello k e else x) u).at' .real (((u.gwParts k).foldl (fun x e => if x.partState e = 1 then x.sendHello k e else x) u).time.real + us 100) (.helloRepeat k))) ∧
  (∀ (k : Gw) (s : State),
      ∃ t, exec (.edgeLinkDown k) s = .next t ∧ t.f (R.EDG_STAT_LINK_UP k) = 0 ∧ (∀ p : Partner, p.val ∈ s.gwParts k → s.partState p = 2 → t.partState p = 1)) ∧
  (∀ (k : Gw) (s : State),
      s.gwIn k = true →
      s.bit (R.EDG_STAT_LINK_UP k) = true →
      exec (.helloRepeat k) s = .next (((s.gwParts k).foldl (fun x e => if x.partState e = 1 then x.sendHello k e else x) s).at' .real (((s.gwParts k).foldl (fun x e => if x.partState e = 1 then x.sendHello k e else x) s).time.real + us 100) (.helloRepeat k))) ∧
  (∀ (p : Partner) (q : Nat) (s : State),
      s.partState p = 2 →
      q = us (s.f (R.EDG_PT_TIME_TIMEOUT p)) / 4 →
      (s.part p).spoke + q ≤ s.time.real →
      exec (.keepaliveSend p) s = .next ((s.sendPkt (s.f (R.EDG_PT_CFG_GW p)) p 0x02 0 0 0 0 []).at' .real (s.time.real + max q 1) (.keepaliveSend p))) ∧
  (∀ (p : Partner) (s : State),
      s.partState p = 2 →
      (s.part p).heard + us (s.f (R.EDG_PT_TIME_TIMEOUT p)) ≤ s.time.real →
      exec (.partnerTimeout p) s = .next (s.partTo p 1 3 none)) ∧
  (∀ (p st cause : Nat) (a : Option Nat) (s : State),
      p < 64 →
      st < 4 →
      (s.partTo p st cause a).partState p = st) ∧
  (∀ (p : Partner) (s : State),
      exec (.quarantineWindow p) s = .next (s.setPart p { s.part p with quar := 0 })) ∧
  (∀ (m : Master) (p : Partner) (v : W32) (s : State),
      edgMaster m = true →
      vbit v 1 = false →
      s.partState p ≠ 0 →
      s.rgsShut (masterIdx m) = false →
      ∃ t, exec (.partnerKeyGo m p v) s = .next t ∧ t.f (R.EDG_PT_STAT_EPOCH p) = (s.f (R.EDG_PT_STAT_EPOCH p) + 1) % 256 ∧ t.pair (R.EDG_PT_TX_LO p) (R.EDG_PT_TX_HI p) = 1 ∧ t.pair (R.EDG_PT_RX_LO p) (R.EDG_PT_RX_HI p) = 0 ∧
        t.partState p = 1 ∧ t.f (R.EDG_PT_STAT_QCAUSE p) = 0 ∧ (t.part p).key = (List.range 8).map (fun j => s.reg (R.EDG_PT_KEY p j))) ∧
  (∀ (m : Master) (p : Partner) (v : W32) (s : State),
      edgMaster m = true →
      s.rgsShut (masterIdx m) = false →
      ∃ t, exec (.partnerClear m p v) s = .next t ∧ t.partState p = 0 ∧ t.f (R.EDG_PT_STAT_QCAUSE p) = 0) ∧
  (∀ (m : Master) (k : Gw) (v : W32) (s : State),
      (edgMaster m || m == .pwc) = true →
      s.rgsShut (masterIdx m) = false →
      ∃ t, exec (.edgeEnWrite m k v) s = .next t ∧ t.f (R.EDG_CTL_EN k) = v.toNat % 2 ∧ (t.view (R.EDG_STAT k)).toNat / 2 % 2 = (if t.gwIn k then 1 else 0))

/-- SEC writes an entry of a generation that is not in use, and one of a generation in use is ignored and logged; a write of CMAP_CTL takes the counts of
generations that are free and then the current generation when its checks hold; DET of an unfenced cabinet takes its two sides. A rebuild computes the
detours, writes the surviving cabinets of the current generation into the other one, makes it current and posts an event. Where the spec leaves room
this rests on the model's own choices: log entry 34. -/
def Obligations.TheCabinetMapIsWrittenAndRebuilt : Prop :=
  (∀ (v : W32) (s : State),
      s.rgsShut (masterIdx .sec) = false →
      exec (.cmapCtlWrite .sec v) s = .next (((s.setCount 0 (v.toNat / 256 % 256)).setCount 1 (v.toNat / 65536 % 256)).setCur (v.toNat % 2)).mapMoved) ∧
  (∀ (g : Nat) (s : State),
      g < 2 →
      g ≠ s.cur →
      s.mapCheck g = true →
      (s.setCur g).cur = g ∧ s.sameRegs [R.IDV_CMAP_CTL] (s.setCur g)) ∧
  (∀ (g n : Nat) (s : State),
      g < 2 →
      n < 256 →
      s.genFree g = true →
      (s.setCount g n).genLog g = n ∧ s.sameRegs [R.IDV_CMAP_CTL] (s.setCount g n)) ∧
  (∀ (g : Fin 2) (n : Fin 128) (v : W32) (s : State),
      s.genFree g = true →
      s.rgsShut (masterIdx .sec) = false →
      exec (.cmapEntryWrite .sec g n v) s = .next (s.puts [(mapPhys g n, v.toNat % 128), (mapValid g n, if vbit v 15 then 1 else 0)]).mapMoved) ∧
  (∀ (g : Fin 2) (n : Fin 128) (v : W32) (s : State),
      s.genFree g = false →
      s.rgsShut (masterIdx .sec) = false →
      exec (.cmapEntryWrite .sec g n v) s = .next (s.locked 16 (s.ca (mapReg g n)))) ∧
  (∀ (n : Cab) (v : W32) (s : State),
      s.fenced n = false →
      s.rgsShut (masterIdx .sec) = false →
      exec (.detWrite .sec n v) s = .next (s.setReg (R.IDV_DET n) (v &&& 3))) ∧
  (∀ (u : State) (s : State),
      s.rep.rebuild = true →
      s.masked.contains 0 = false →
      (s.bit R.MGT_MODE_MODE && !s.bit (bitFld R.MGT_CORE_STAT 0)) = false →
      s.rgsShut 0 = false →
      s.bootLocked = true →
      u = s.detAll →
      u.genUsed (1 - s.cur) = false →
      u.genKept (1 - s.cur) = false →
      u.rep.lost = 0 →
      exec .mapRebuild s = .next (({ u with rep := { u.rep with rebuild := false } } : State).rebuildMap (1 - s.cur))) ∧
  (∀ (g : Nat) (s : State),
      g < 2 →
      g ≠ s.cur →
      (s.rebuildMap g).genLog g = ((List.range 128).filterMap (fun n => s.mapped s.cur n)).length)

/-- FENCE_CMD with GO of SEC or DBG for a cabinet of the grid is a fence cause: 4, or 5 from DBG; an automatic cause takes effect on the 4th fc, one
without its automatic bit is kept in FENCE_PEND with the first cause, which a write of 1 clears. The counts of uncorrectable words return to 0 at the
window. An answered poll clears the misses, in the order of the polls; one unanswered for 1024 fc is missed, and the third in a row is cause 3. On its
fc a fence of a cabinet that is not fenced sets the mask bit and the cause, so that no generation maps the cabinet, answers every context that used it
with a fault, and asks for a rebuild of the map; within 10 us the cabinet is in Quench: its store and its spare words read as zero and no other byte
changes. Where the spec leaves room this rests on the model's own choices: log entries 33, 35, 36, 45. -/
def Obligations.FenceCausesAndPolls : Prop :=
  (∀ (m : Master) (v : W32) (s : State),
      (m == .sec || m == .dbg) = true →
      vbit v 31 = true →
      s.synth (v.toNat % 128) = true →
      s.rgsShut (masterIdx m) = false →
      exec (.fenceCmd m v) s = .next (s.fenceCause (v.toNat % 128) (if m == .dbg then 5 else 4))) ∧
  (∀ (p cause : Nat) (s : State),
      p < 128 →
      cause = 2 ∨ cause = 4 ∨ cause = 5 →
      s.fenced p = false →
      s.rep.fences.any (fun y => decide (y.1 = p)) = false →
      s.fenceCause p cause = ({ s with rep := { s.rep with fences := s.rep.fences ++ [(p, cause, s.time.fc + 4)] } } : State).later .wall 4 (.fenceTakeEffect (Fin.ofNat 128 p))) ∧
  (∀ (p : Nat) (s : State),
      p < 128 →
      s.fenced p = false →
      s.bit R.IDV_FENCE_CFG_AUTO_UE = false →
      s.bit (cabBit R.IDV_FENCE_PEND p) = false →
      (s.fenceCause p 1).bit (cabBit R.IDV_FENCE_PEND p) = true ∧ (s.fenceCause p 1).f (R.IDV_FENCE_CAUSE_PEND_CAUSE p) = 1) ∧
  (∀ (m : Master) (k : Fin 4) (v : W32) (s : State),
      s.rgsShut (masterIdx m) = false →
      ∃ t, exec (.fencePendClear m k v) s = .next t ∧ (∀ j : Fin 32, vbit v j = true → t.bit (cabBit R.IDV_FENCE_PEND (32 * k + j)) = false)) ∧
  (∀ (s : State),
      ∃ t, exec .ueWindowReset s = .next t ∧ (∀ p : Cab, t.f (R.IDV_FENCE_CAUSE_UE_CNT p) = 0)) ∧
  (∀ (cab : Cab) (s : State),
      s.isMapped cab = true →
      s.pow cab ≤ 1 →
      (s.poll cab).open' = [] →
      exec (.stationPoll cab true) s = .next ((s.setPoll cab { miss := 0, open' := [], silent := false }).disarm (.stationPoll cab false))) ∧
  (∀ (cab : Cab) (s : State),
      s.isMapped cab = true →
      s.pow cab ≤ 1 →
      (s.poll cab).open' ≠ [] →
      exec (.stationPoll cab true) s = .next ((s.setPoll cab { s.poll cab with open' := (s.poll cab).open' ++ [none], silent := false }).disarm (.stationPoll cab false))) ∧
  (∀ (cab : Cab) (s : State),
      s.isMapped cab = true →
      s.pow cab ≤ 1 →
      exec (.stationPoll cab false) s = .next (((s.pollAgain cab).setPoll cab { s.poll cab with open' := (s.poll cab).open' ++ [some s.time.fc], silent := true }).later .wall 1024 (.pollMissed cab))) ∧
  (∀ (cab : Cab) (n : Nat) (l : List (Option Nat)) (s : State),
      (s.poll cab).open' = some n :: l →
      n + 1024 ≤ s.time.fc →
      (s.poll cab).miss < 2 →
      (PollSt.count s.time.fc l ((s.poll cab).miss + 1)).2 < 3 →
      exec (.pollMissed cab) s = .next (s.setPoll cab { s.poll cab with miss := (PollSt.count s.time.fc l ((s.poll cab).miss + 1)).2, open' := (PollSt.count s.time.fc l ((s.poll cab).miss + 1)).1 })) ∧
  (∀ (cab : Cab) (n : Nat) (l : List (Option Nat)) (s : State),
      (s.poll cab).open' = some n :: l →
      n + 1024 ≤ s.time.fc →
      2 ≤ (s.poll cab).miss →
      exec (.pollMissed cab) s = .next ((s.setPoll cab { s.poll cab with miss := min 3 (PollSt.count s.time.fc l ((s.poll cab).miss + 1)).2, open' := (PollSt.count s.time.fc l ((s.poll cab).miss + 1)).1 }).fenceCause cab 3)) ∧
  (∀ (fc n k : Nat) (l : List (Option Nat)) (s : State),
      fc < n + 1024 →
      PollSt.count fc (none :: some n :: l) k = (some n :: l, 0) ∧ PollSt.count fc [] k = ([], k)) ∧
  (∀ (cab : Cab) (cause n : Nat) (s : State),
      s.rep.fences.find? (fun y => decide (y.1 = cab.val) && decide (y.2.2 ≤ s.time.fc)) = some (cab.val, cause, n) →
      cause < 8 →
      s.fenced cab = false →
      ∃ t, exec (.fenceTakeEffect cab) s = .next t ∧ t.fenced cab = true ∧ t.f (R.IDV_FENCE_CAUSE_CAUSE cab) = cause ∧ t.rep.rebuild = true ∧ (∀ g q, t.mapped g q ≠ some cab.val) ∧
        (∀ c : Ctx, 2 ≤ s.ctxState c → s.ctxUses c cab = true → t.faulted c = true)) ∧
  (∀ (cab : Cab) (s : State),
      s.rep.quench.contains cab.val = true →
      s.fenced cab = true →
      ∃ t, exec (.fenceQuench cab) s = .next t ∧ t.pow cab = 3 ∧ t.bit (cabBusy cab) = false ∧ t.rep.quench.contains cab.val = false ∧
        (∀ a, t.cell a = if (cab.val * 4718592 ≤ a ∧ a < (cab.val + 1) * 4718592) ∨ (0x40000000 + cab.val * 9216 ≤ a ∧ a < 0x40000000 + (cab.val + 1) * 9216) then 0 else s.cell a))

/-- A command of PWC or DBG for a cabinet that is not BUSY and not in the target makes it BUSY and is checked on the next fc: the lowest reason in force
refuses it; Run from Doze takes 8 fc in all, from Hold 30 and from Quench 80 units of leave; an entry drains for at most 256 fc. Quiet, the cabinet
enters Doze on the next fc, Hold or Quench after a commit of 240 ns; in Quench its contents are lost. A wake from Doze reaches Run and is counted; one
from Hold reaches Run when its time has passed. Where the spec leaves room this rests on the model's own choices: log entries 37, 43, 44. -/
def Obligations.CabinetsChangePowerState : Prop :=
  (∀ (m : Master) (cab : Cab) (s : State),
      pwrMaster m = true →
      s.bit (cabBusy cab) = false →
      s.pow cab ≠ 0 →
      s.rgsShut (masterIdx m) = false →
      exec (.cabCmdRun m cab) s = .next (((s.setCmds (s.pwr.cmds ++ [{ cab := cab, target := 0, from' := s.pow cab, phase := .check, at' := s.time.fc }])).put (cabBusy cab) 1).later .wall 1 (.cabCmdRun .hrp cab))) ∧
  (∀ (cab : Cab) (c : PwrCmd) (s : State),
      s.pwr.cmds = [c] →
      c.cab = cab.val →
      c.target = 0 →
      c.phase = .check →
      c.at' < s.time.fc →
      exec (.cabCmdRun .hrp cab) s = .next (s.cabCheck c)) ∧
  (∀ (m : Master) (cab : Cab) (s : State),
      pwrMaster m = true →
      s.bit (cabBusy cab) = false →
      s.pow cab ≠ 1 →
      s.rgsShut (masterIdx m) = false →
      exec (.cabCmdDoze m cab) s = .next (((s.setCmds (s.pwr.cmds ++ [{ cab := cab, target := 1, from' := s.pow cab, phase := .check, at' := s.time.fc }])).put (cabBusy cab) 1).later .wall 1 (.cabCmdDoze .hrp cab))) ∧
  (∀ (cab : Cab) (c : PwrCmd) (s : State),
      s.pwr.cmds = [c] →
      c.cab = cab.val →
      c.target = 1 →
      c.phase = .check →
      c.at' < s.time.fc →
      exec (.cabCmdDoze .hrp cab) s = .next (s.cabCheck c)) ∧
  (∀ (m : Master) (cab : Cab) (s : State),
      pwrMaster m = true →
      s.bit (cabBusy cab) = false →
      s.pow cab ≠ 2 →
      s.rgsShut (masterIdx m) = false →
      exec (.cabCmdHold m cab) s = .next (((s.setCmds (s.pwr.cmds ++ [{ cab := cab, target := 2, from' := s.pow cab, phase := .check, at' := s.time.fc }])).put (cabBusy cab) 1).later .wall 1 (.cabCmdHold .hrp cab))) ∧
  (∀ (cab : Cab) (c : PwrCmd) (s : State),
      s.pwr.cmds = [c] →
      c.cab = cab.val →
      c.target = 2 →
      c.phase = .check →
      c.at' < s.time.fc →
      exec (.cabCmdHold .hrp cab) s = .next (s.cabCheck c)) ∧
  (∀ (m : Master) (cab : Cab) (s : State),
      pwrMaster m = true →
      s.bit (cabBusy cab) = false →
      s.pow cab ≠ 3 →
      s.rgsShut (masterIdx m) = false →
      exec (.cabCmdQuench m cab) s = .next (((s.setCmds (s.pwr.cmds ++ [{ cab := cab, target := 3, from' := s.pow cab, phase := .check, at' := s.time.fc }])).put (cabBusy cab) 1).later .wall 1 (.cabCmdQuench .hrp cab))) ∧
  (∀ (cab : Cab) (c : PwrCmd) (s : State),
      s.pwr.cmds = [c] →
      c.cab = cab.val →
      c.target = 3 →
      c.phase = .check →
      c.at' < s.time.fc →
      exec (.cabCmdQuench .hrp cab) s = .next (s.cabCheck c)) ∧
  (∀ (c : PwrCmd) (n : Nat) (s : State),
      s.pwr.cmds = [c] →
      c.phase = .check →
      s.refusal c.cab c.target = some n →
      s.cabCheck c = (((s.setCmds []).puts [(cabBusy c.cab, 0)]).refused c.cab c.target n false c.job).wakePutOff c.cab) ∧
  (∀ (c : PwrCmd) (s : State),
      s.pwr.cmds = [c] →
      c.phase = .check →
      s.refusal c.cab c.target = none →
      c.target = 0 →
      s.pow c.cab = 1 →
      s.cabCheck c = ((s.setCmds []).put (R.CAB_PWR_STAT_WAKE_SRC c.cab) 4).later .wall 7 (.dozeWakeDone (Fin.ofNat 128 c.cab))) ∧
  (∀ (c : PwrCmd) (s : State),
      s.pwr.cmds = [c] →
      c.phase = .check →
      s.refusal c.cab c.target = none →
      c.target = 0 →
      2 ≤ s.pow c.cab →
      s.cabCheck c = ((s.setCmds [{ c with phase := .leave, from' := s.pow c.cab, at' := s.time.fc }]).put (cabLeaveWait c.cab) 1).leaveAsk (.wake c.cab) (if s.pow c.cab = 2 then 30 else 80)) ∧
  (∀ (c : PwrCmd) (s : State),
      s.pwr.cmds = [c] →
      c.phase = .check →
      s.refusal c.cab c.target = none →
      c.target ≠ 0 →
      s.pow c.cab ≤ 1 →
      s.cabCheck c = (((s.setCmds [{ c with phase := .drain, from' := s.pow c.cab, at' := s.time.fc + 1 }]).later .wall 1 (.entryDrainEnd (Fin.ofNat 128 c.cab))).later .wall 257 (.drainTimeout (Fin.ofNat 128 c.cab)))) ∧
  (∀ (cab : Cab) (c : PwrCmd) (s : State),
      s.pwr.cmds = [c] →
      c.cab = cab.val →
      c.phase = .drain →
      c.at' ≤ s.time.fc →
      s.quietCab cab = true →
      c.target = 1 →
      exec (.entryDrainEnd cab) s = .next ((s.setCmds [{ c with phase := .commit, at' := s.time.fc + 1 }]).later .wall 1 (.entryDrainEnd cab))) ∧
  (∀ (cab : Cab) (c : PwrCmd) (s : State),
      s.pwr.cmds = [c] →
      c.cab = cab.val →
      c.phase = .drain →
      c.at' ≤ s.time.fc →
      s.quietCab cab = true →
      c.target ≠ 1 →
      exec (.entryDrainEnd cab) s = .next ((s.setCmds []).commitStart c cab c.from')) ∧
  (∀ (cab : Cab) (c : PwrCmd) (s : State),
      s.pwr.cmds = [c] →
      c.cab = cab.val →
      c.phase = .commit →
      c.target = 1 →
      c.at' ≤ s.time.fc →
      exec (.entryDrainEnd cab) s = .next (((s.endCmd cab).put (cabState cab) 1).entryLeft cab 1)) ∧
  (∀ (cab : Cab) (c : PwrCmd) (s : State),
      s.pwr.cmds = [c] →
      c.cab = cab.val →
      c.phase = .drain →
      c.at' + 256 ≤ s.time.fc →
      exec (.drainTimeout cab) s = .next ((s.entryAbort cab 8).wakePutOff cab)) ∧
  (∀ (cab n : Nat) (c : PwrCmd) (s : State),
      s.pwr.cmds = [c] →
      c.cab = cab →
      c.phase = .drain →
      s.entryAbort cab n = (((({ s with pwr := { s.pwr with abt := s.pwr.abt.filter (fun e => decide (e.2.2 = s.time.fc)) ++ [(c, n, s.time.fc)] } } : State).endCmd cab).refused cab c.target n true c.job).kickCab cab)) ∧
  (∀ (cab : Cab) (c : PwrCmd) (s : State),
      s.pwr.cmds = [c] →
      c.cab = cab.val →
      c.phase = .commit →
      c.at' ≤ s.time.real →
      c.target = 3 →
      exec (.entryCommitEnd cab) s = .next ((((s.endCmd cab).loseStore cab).entryLeft cab 3).hfpNext cab 0)) ∧
  (∀ (cab : Cab) (c : PwrCmd) (s : State),
      s.pwr.cmds = [c] →
      c.cab = cab.val →
      c.phase = .commit →
      c.at' ≤ s.time.real →
      c.target = 2 →
      exec (.entryCommitEnd cab) s = .next (((s.endCmd cab).entryLeft cab 2).hfpNext cab 0)) ∧
  (∀ (cab : Cab) (s : State),
      s.pow cab = 1 →
      s.bit (cabBusy cab) = true →
      s.pwr.cmds = [] →
      ∃ t, exec (.dozeWakeDone cab) s = .next t ∧ t.pow cab = 0 ∧ t.bit (cabBusy cab) = false ∧ t.f (R.CAB_DOZE_WAKES_COUNT cab) = min (s.f (R.CAB_DOZE_WAKES_COUNT cab) + 1) (2 ^ (R.CAB_DOZE_WAKES_COUNT cab).width - 1) ∧ t.mem = s.mem) ∧
  (∀ (cab : Cab) (n : Nat) (b : Bool) (s : State),
      s.pwr.wakes = [(cab.val, (n, b))] →
      n ≤ s.time.real →
      s.pow cab = 2 →
      ∃ t, exec (.wakePowerDone cab) s = .next t ∧ t.pow cab = 0 ∧ t.bit (cabBusy cab) = false ∧ t.bit (cabLeaveWait cab) = false ∧ t.leaveHas (.wake cab) = false ∧ t.mem = s.mem)

/-- The head request whose conditions have held for 12 fc is granted and its unit goes on; SET and CLR of PWC or DBG flag and clear the software
emergency; the clamp line is high exactly while the fc three later has a phase below N; a clamp engaged for EMERG_US us sets HW_CLAMP; each us the
estimate is written and its counts start again. A trip flags THERM, logs it and applies the trip clamp within 200 ns; its release ends both. Where the
spec leaves room this rests on the model's own choices: log entries 39, 40. -/
def Obligations.LeaveClampsAndEmergencies : Prop :=
  (∀ (c n : Nat) (q : LeaveReq) (rest : List LeaveReq) (s : State),
      s.leave.ready = some n →
      s.leave.queue = q :: rest →
      n + 12 ≤ s.time.fc →
      s.leaveOk = true →
      q.who = .wake c →
      exec .leaveGrant s = .next ((s.leaveTake q rest).wakeStart c)) ∧
  (∀ (c r n : Nat) (q : LeaveReq) (rest : List LeaveReq) (s : State),
      s.leave.ready = some n →
      s.leave.queue = q :: rest →
      n + 12 ≤ s.time.fc →
      s.leaveOk = true →
      q.who = .desc c r →
      exec .leaveGrant s = .next ((s.leaveTake q rest).runnerLeave c r)) ∧
  (∀ (q : LeaveReq) (rest : List LeaveReq) (s : State),
      s.leave.queue = q :: rest →
      (s.leaveTake q rest).leave.queue = rest ∧ (s.leaveTake q rest).leave.held = s.leave.held ++ [(q.who, q.units)] ∧ (s.leaveTake q rest).f R.PWR_LEAVE_STAT_WAITING = rest.length % 2 ^ R.PWR_LEAVE_STAT_WAITING.width) ∧
  (∀ (m : Master) (v : W32) (s : State),
      pwrMaster m = true →
      vbit v 1 = false →
      s.rgsShut (masterIdx m) = false →
      ∃ t, exec (.emergSet m v) s = .next t ∧ t.bit R.PWR_EMERG_STAT_SW = true ∧ t.emergency = true ∧ s.sameRegs [R.PWR_EMERG_STAT] t) ∧
  (∀ (m : Master) (v : W32) (s : State),
      pwrMaster m = true →
      s.rgsShut (masterIdx m) = false →
      ∃ t, exec (.emergClr m v) s = .next t ∧ t.bit R.PWR_EMERG_STAT_SW = false ∧ s.sameRegs [R.PWR_EMERG_STAT] t) ∧
  (∀ (n m : Nat) (s : State),
      s.clampNow = some (n, m) →
      ∃ t, exec .clampFreeze s = .next t ∧ (FrzSrc.clamp ∈ t.frz.lines ↔ (s.time.fc + 3) % m < n) ∧ t.regs = s.regs) ∧
  (∀ (s : State),
      s.clampNow = none →
      exec .clampFreeze s = .next ((s.disarm .clampFreeze).frzFall .clamp)) ∧
  (∀ (n : Nat) (s : State),
      s.pwr.engagedAt = some n →
      n + us (s.f R.PWR_CLAMP_CFG_EMERG_US) ≤ s.time.now →
      exec .clampEmergency s = .next (s.emergSet R.PWR_EMERG_STAT_HW_CLAMP true)) ∧
  (∀ (s : State),
      s.brg.inbox = [] →
      s.pwr.estAt < s.time.now / us 1 →
      ∃ t, exec .powerEstimate s = .next t ∧ t.f R.PWR_EST_NOW_W = min s.estimate 65535 ∧ t.pwr.accs = 0 ∧ t.pwr.flits = 0 ∧ t.pwr.estAt = s.time.now / us 1) ∧
  (∀ (s : State),
      s.boot.stage ≠ 0 →
      s.pwr.therm.high = true →
      ∃ t, exec .thermTrip s = .next t ∧ t.bit R.PWR_EMERG_STAT_THERM = true ∧ t.pwr.therm = { high := false, ackAt := some (s.time.real + ns 40), hidden := false } ∧ t.detected = s.detected ++ [{ kind := 0x69, req := 28, cab := none, data := 0x60000, time := s.now }] ∧ t.leaveOk = false) ∧
  (∀ (s : State),
      s.boot.stage ≠ 0 →
      s.pwr.therm.high = false →
      s.pwr.therm.ackAt = none →
      s.armed .thermTrip = false →
      exec .thermTrip s = .next ((s.put R.PWR_CLAMP_STAT_TRIP 1).later .wall 0 .clampFreeze)) ∧
  (∀ (s : State),
      s.boot.stage ≠ 0 →
      s.pwr.therm.high = false →
      s.pwr.sleep = .awake →
      ∃ t, exec .thermTripRelease s = .next t ∧ t.bit R.PWR_CLAMP_STAT_TRIP = false ∧ t.bit R.PWR_EMERG_STAT_THERM = false ∧ t.pwr.therm = { high := true, ackAt := some (s.time.real + ns 40), hidden := false })

/-- GO of PWC or DBG on an awake die asks for sleep; ready, it drains for 120 ns and commits for 240 ns, and a condition that fails refuses it. At the end
of the commit, with no source held, the die is asleep and the sleep is counted. A latched source or the alarm wakes a sleeping die; a wake that is
done runs the clocks and posts DIE_WAKE. The acknowledgement of the alarm follows its level 40 ns later. Where the spec leaves room this rests on the
model's own choices: log entries 38, 39, 46. -/
def Obligations.TheDieSleepsAndWakes : Prop :=
  (∀ (m : Master) (v : W32) (s : State),
      pwrMaster m = true →
      vbit v 0 = true →
      s.pwr.sleep = .awake →
      s.rgsShut (masterIdx m) = false →
      exec (.dieSleep m v) s = .next (s.sleepPhase .asked 40 (.dieSleep .hrp 1))) ∧
  (∀ (v : W32) (s : State),
      s.pwr.sleep = .asked →
      s.pwr.sleepDue ≤ s.time.real →
      s.pwr.latched = [] →
      s.sleepReady = false →
      exec (.dieSleep .hrp v) s = .next (s.sleepOff 12 false)) ∧
  (∀ (v : W32) (s : State),
      s.pwr.sleep = .check →
      s.pwr.sleepDue ≤ s.time.real →
      exec (.dieSleep .hrp v) s = .next ((s.haltCore 1).sleepPhase .drain 120 (.dieSleep .hrp 1))) ∧
  (∀ (v : W32) (s : State),
      s.pwr.sleep = .drain →
      s.pwr.sleepDue ≤ s.time.real →
      exec (.dieSleep .hrp v) s = .next ((s.generators false).sleepPhase .commit 240 .dieSleepCommitEnd)) ∧
  (∀ (s : State),
      s.pwr.sleep = .commit →
      s.pwr.sleepDue ≤ s.time.real →
      s.pwr.latched = [] →
      s.pwr.rtc.high = false →
      s.pwr.therm.hidden = false →
      ∃ t, exec .dieSleepCommitEnd s = .next t ∧ t.pwr.sleep = .asleep ∧ t.pwr.sleptAt = s.time.real ∧ t.f R.PWR_DIE_STAT_LAST_ABORT = 0 ∧ t.f R.PWR_DIE_STAT_SLEEPS = min (s.f R.PWR_DIE_STAT_SLEEPS + 1) (2 ^ R.PWR_DIE_STAT_SLEEPS.width - 1)) ∧
  (∀ (s : State),
      s.pwr.sleep = .waking →
      ∃ t, exec .dieWakeDone s = .next t ∧ t.pwr.sleep = .awake ∧ t.pwr.latched = [] ∧ (∀ k ∈ s.clkRegions, t.f (R.CLK_REG_STAT_RUN k) = 1 ∧ t.f (R.CLK_REG_STAT_LOCKED k) = 1) ∧ t.events = s.events ++ [(1, 0x20, s.pwr.src + s.pwr.slept % 2 ^ 64 * 2 ^ 32)]) ∧
  (∀ (s : State),
      s.boot.stage ≠ 0 →
      s.pwr.rtc.high = false →
      s.pwr.sleep = .asleep →
      exec .rtcAlarmRise s = .next (((({ s with pwr := { s.pwr with rtc := { high := true, ackAt := some (s.time.real + ns 40), hidden := false } } } : State).disarm .rtcAlarmFall).later .real (ns 40) .rtcAlarmRise).dieWake 1)) ∧
  (∀ (n : Nat) (s : State),
      s.boot.stage ≠ 0 →
      s.pwr.rtc = { high := true, ackAt := some n, hidden := false } →
      n ≤ s.time.real →
      ∃ t, exec .rtcAlarmRise s = .next t ∧ t.f R.PWR_WAKE_ACK_RTC = 1 ∧ s.sameRegs [R.PWR_WAKE_ACK] t) ∧
  (∀ (s : State),
      s.boot.stage ≠ 0 →
      s.pwr.rtc.high = true →
      exec .rtcAlarmFall s = .next ((({ s with pwr := { s.pwr with rtc := { high := false, ackAt := some (s.time.real + ns 40), hidden := false } } } : State).disarm .rtcAlarmRise).later .real (ns 40) .rtcAlarmFall)) ∧
  (∀ (k : Gw) (s : State),
      s.bit (R.EDG_CTL_WAKE_EN k) = true →
      s.pwr.sleep = .asleep →
      exec (.edgeWake k) s = .next (s.dieWake 4)) ∧
  (∀ (n : Nat) (s : State),
      n < 16 →
      (s.dieWake n).pwr.sleep = .waking ∧ (s.dieWake n).f R.PWR_DIE_STAT_WAKE_SRC = n ∧ Due.mk .real (s.time.real + s.free % (us 50 + 1)) .dieWakeDone ∈ (s.dieWake n).agenda)

/-- GO of PWC or DBG on die 0 in a firmware freeze, not BUSY, for a point of 0 to 5 sends every die its target; otherwise REJ is set. A die begins its
part in the freeze: to raise it writes VID and waits for the toggle, to lower it locks the idle PLL first. A toggle lets a raise switch and report 0;
a timeout is logged, sets HW_VID and reports 2; of a raise that takes every die back to the old point. When every die has reported, DONE rises with
the result. Where the spec leaves room this rests on the model's own choices: log entry 42. -/
def Obligations.OperatingPointsChange : Prop :=
  (∀ (m : Master) (v : W32) (s : State),
      pwrMaster m = true →
      vbit v 31 = true →
      s.die = 0 →
      s.frozen = true →
      s.bit R.LCT_FRZ_STAT_FIRMWARE = true →
      s.bit R.PWR_OP_STAT_BUSY = false →
      v.toNat % 8 ≤ 5 →
      s.dies = 1 →
      s.rgsShut (masterIdx m) = false →
      exec (.opChange m v) s = .next ((({ s with pwr := { s.pwr with pkg := some { target := v.toNat % 8, old := s.f R.PWR_OP_STAT_CUR, reports := [], back := false } } } : State).puts [(R.PWR_OP_STAT_TGT, v.toNat % 8), (R.PWR_OP_STAT_BUSY, 1)]).later .wall 0 (.dieOpChange (Fin.ofNat 6 (v.toNat % 8))))) ∧
  (∀ (m : Master) (v : W32) (s : State),
      pwrMaster m = true →
      vbit v 31 = true →
      s.die ≠ 0 ∨ s.frozen = false ∨ s.bit R.LCT_FRZ_STAT_FIRMWARE = false ∨ s.bit R.PWR_OP_STAT_BUSY = true ∨ 5 < v.toNat % 8 →
      s.rgsShut (masterIdx m) = false →
      exec (.opChange m v) s = .next (s.put R.PWR_OP_STAT_REJ 1)) ∧
  (∀ (target : Fin 6) (k : OpPkg) (s : State),
      s.brg.inbox = [] →
      s.pwr.op = none →
      s.die = 0 →
      s.pwr.pkg = some k →
      k.target = target.val →
      k.back = false →
      k.reports = [] →
      s.frozen = true →
      s.bit R.LCT_FRZ_STAT_FIRMWARE = true →
      exec (.dieOpChange target) s = .next (s.opBegin target)) ∧
  (∀ (t : Nat) (s : State),
      t < 6 →
      s.f R.PWR_OP_STAT_CUR < t →
      (s.opBegin t).f R.PWR_VID_CFG_VID = s.f (R.PWR_OP_VID t) ∧ (s.opBegin t).f R.PWR_OP_STAT_CUR = s.f R.PWR_OP_STAT_CUR ∧ (s.opBegin t).f R.PWR_OP_STAT_BUSY = 1 ∧ (s.opBegin t).pwr.op.isSome) ∧
  (∀ (die : Fin 8) (result : Fin 3) (k : OpPkg) (s : State),
      s.pwr.pkg = some k →
      k.back = false →
      result ≠ 1 →
      (result.val = 2 → k.target ≤ k.old) →
      (List.range s.dies).all (fun d => (k.reports.filter (fun r => decide (r.1 ≠ die.val)) ++ [(die.val, result.val)]).any (fun r => decide (r.1 = d))) = true →
      k.reports = [] →
      ∃ t, exec (.opChangeDone die result) s = .next t ∧ t.f R.PWR_OP_STAT_BUSY = 0 ∧ t.f R.PWR_OP_STAT_DONE = 1 ∧ t.f R.PWR_OP_STAT_RESULT = result ∧ t.pwr.pkg = none ∧ s.sameRegs [R.PWR_OP_STAT] t) ∧
  (∀ (die : Fin 8) (k : OpPkg) (s : State),
      s.pwr.pkg = some k →
      k.back = false →
      k.old < k.target →
      s.die = 0 →
      s.dies = 1 →
      exec (.opChangeDone die 2) s = .next (({ s with pwr := { s.pwr with pkg := some { k with back := true, reports := [] } } } : State).opReturn k.old)) ∧
  (∀ (x : OpSt) (s : State),
      s.bit R.PWR_EMERG_STAT_HW_VID = false →
      s.pwr.op = some x →
      x.vid = true →
      x.lockAt ≤ s.time.real →
      x.old < x.new →
      exec .vidAckToggle s = .next (((({ s.put R.PWR_VID_CFG_ACK (1 - s.f R.PWR_VID_CFG_ACK) with pwr := { s.pwr with op := some { x with acked := true } } } : State).disarm .vidTimeout).opSwitch x.new).opReport 0)) ∧
  (∀ (x : OpSt) (s : State),
      s.pwr.op = some x →
      x.vid = true →
      x.acked = false →
      exec .vidTimeout s = .next (((s.pwrErr 0x68 (x.old * 256 + x.new)).emergSet R.PWR_EMERG_STAT_HW_VID true).opReport 2))

/-- A droop request of a region that exists stretches the period 2 fc later while DROOP_EN; a die whose count is below T stretches and looks again 2 fc
later; the pair of TIM_SET loads fabric time before BOOT_LOCK; die 0 sends its time at each multiple of 1000 ns; a new beacon is sent on with one more
crossing, a die behind steps forward to it and one ahead runs slow; with no beacon for 16 us the loss is logged and counted. Where the spec leaves
room this rests on the model's own choices: log entries 8, 30, 41. -/
def Obligations.FabricTimeStretchesAndFollowsBeacons : Prop :=
  (∀ (regions : BitVec 16) (s : State),
      s.bit R.CLK_CFG_DROOP_EN = true →
      s.clkRegions.any (fun k => regions.getLsbD k) = true →
      exec (.droopStretch regions none) s = .next (s.stretchAt (s.time.fc + 2))) ∧
  (∀ (regions : BitVec 16) (s : State),
      s.clkRegions.any (fun k => regions.getLsbD k) = false →
      exec (.droopStretch regions none) s = .next s) ∧
  (∀ (s : State),
      0 < (s.f R.BRG_STR_T + 65536 - s.f R.BRG_STR_S) % 65536 →
      (s.f R.BRG_STR_T + 65536 - s.f R.BRG_STR_S) % 65536 < 32768 →
      exec .compensatingStretch s = .next ((s.stretchAt (s.time.fc + 1)).arm .wall 2 .compensatingStretch)) ∧
  (∀ (v : W32) (s : State),
      s.bootLocked = false →
      s.loHeld = [] →
      s.rgsShut (masterIdx .sec) = false →
      ∃ t, exec (.timSet .sec v) s = .next t ∧ t.time.now = ((s.reg R.TIM_SET_LO).toNat + v.toNat * 2 ^ 32) * 300000 ∧ t.time.slow = 0 ∧ s.sameRegs [R.TIM_SET_LO, R.TIM_SET_HI] t) ∧
  (∀ (n : Nat) (s : State),
      s.die = 0 →
      n = s.time.now / us 1 * 1000 →
      s.pwr.bcnVal ≠ some n →
      exec .beaconSend s = .next ((({ s.arm .fab (us (n / 1000 + 1) - s.time.now) .beaconSend with pwr := { s.pwr with bcnVal := some n } } : State)).send (.beacon n 1))) ∧
  (∀ (lane : Fin 8) (value : W64) (h : Fin 8) (n : Nat) (s : State),
      s.die ≠ 0 →
      s.pwr.bcnVal ≠ some value.toNat →
      n = value.toNat * 300000 + 44 * h.val * s.fcUnits →
      s.time.now < n →
      ∃ t, exec (.beaconReceive lane value h) s = .next t ∧ t.time.now = n ∧ t.time.slow = 0 ∧ t.f R.TIM_BCN_STAT_LAST_DIFF = min ((n - s.time.now) / 300000) 32767 ∧ t.f R.TIM_BCN_STAT_STEPS = min (s.f R.TIM_BCN_STAT_STEPS + 1) 65535 ∧ s.sameRegs [R.TIM_BCN_STAT] t) ∧
  (∀ (lane : Fin 8) (value : W64) (h : Fin 8) (n : Nat) (s : State),
      s.die ≠ 0 →
      s.pwr.bcnVal ≠ some value.toNat →
      n = value.toNat * 300000 + 44 * h.val * s.fcUnits →
      n ≤ s.time.now →
      ∃ t, exec (.beaconReceive lane value h) s = .next t ∧ t.time.now = s.time.now ∧ t.time.slow = s.time.now - n ∧ s.sameRegs [R.TIM_BCN_STAT] t) ∧
  (∀ (s : State),
      s.die ≠ 0 →
      (s.sideLane 0).isSome →
      s.pwr.bcnAt + us 16 ≤ s.time.real →
      exec .beaconLoss s = .next ((s.pwrErr 0x6A 0).inc R.TIM_BCN_LOSS_COUNT))

/-- The doorbell of HRP or DBG is a die wake source and lets SCH look at the ring; SCH copies the entry at the head, moves the head and hands it to its
executor. A core in service posts its oldest completion, and an event, at the place it reserves when the ring has space, with the HINT bit set; no
other byte of the memories changes. HINT_SET of a core sets the bits; a write of HRP or DBG clears those it names. Where the spec leaves room this
rests on the model's own choices: log entries 54, 112. -/
def Obligations.RingsTakeAndPostEntries : Prop :=
  (∀ (m : Master) (v : W32) (s : State),
      (m == .hrp || m == .dbg) = true →
      vbit v 0 = true →
      s.rgsShut (masterIdx m) = false →
      exec (.doorbell m v) s = .next ((({ s with mgt := { s.mgt with bell := true } } : State).latchWake 3).arm .real (ns 1) .submissionTake)) ∧
  (∀ (d : Nat) (j : Job) (s : State),
      s.mgt.bell = true →
      s.coreLive 2 = true →
      s.msramHeld = false →
      s.rgsShut 2 = false →
      13 ≤ s.f R.HLM_BOOT_STAT_STEP →
      d = (s.ms32 0x60000 + 2 ^ 32 - s.ms32 0x60040) % 2 ^ 32 →
      0 < d →
      d ≤ 1024 →
      j = s.entryAt (s.ms32 0x60040) →
      (sqRow j.op 0 false).isSome →
      exec .submissionTake s = .next (({ ((s.ringGood 0).setMs32 0x60040 ((s.ms32 0x60040 + 1) % 2 ^ 32)).arm .real (ns 1) .submissionTake with mgt := { (s.ringGood 0).mgt with jobs := s.mgt.jobs ++ [j] } } : State).jobGo j (ns 1))) ∧
  (∀ (d : Nat) (j : Job) (s : State),
      s.mgt.bell = true →
      s.coreLive 2 = true →
      s.msramHeld = false →
      s.rgsShut 2 = false →
      13 ≤ s.f R.HLM_BOOT_STAT_STEP →
      d = (s.ms32 0x60000 + 2 ^ 32 - s.ms32 0x60040) % 2 ^ 32 →
      0 < d →
      d ≤ 1024 →
      j = s.entryAt (s.ms32 0x60040) →
      (sqRow j.op 0 false).isSome = false →
      exec .submissionTake s = .next (({ ((s.ringGood 0).setMs32 0x60040 ((s.ms32 0x60040 + 1) % 2 ^ 32)).arm .real (ns 1) .submissionTake with mgt := { (s.ringGood 0).mgt with jobs := s.mgt.jobs ++ [j] } } : State).jobEnd j 1 0)) ∧
  (∀ (core : Core) (b : List Byte) (s u w : State),
      s.coreLive core = true →
      s.msramHeld = false →
      s.rgsShut core = false →
      s.mgt.reopen.contains core.val = false →
      s.mgt.posts.find? (fun y => decide (y.1 = core.val)) = some (core.val, b) →
      s.ringUsed cqRing < 1024 →
      (u = if core.val = 2 then s.jobsGo (fun j => decide (0 < j.stage) && (decide (j.op = 5) || decide (j.op = 7))) else s) →
      w = ((u.ringGood 1).ringPost core cqRing b).hintSet 0 →
      exec (.completionPost core) s = .next (({ w with mgt := { w.mgt with posts := s.mgt.posts.erase (core.val, b) } } : State).arm .real (ns 1) (.completionPost core))) ∧
  (∀ (m : Nat) (b : List Byte) (s : State),
      m < 11 →
      b.length = 48 →
      (s.ringPost m cqRing b).cells (msram (0x71000 + 64 * (s.ms32 0x60080 % 1024))) 48 = b ∧ (s.ringPost m cqRing b).cells (msram (0x71000 + 64 * (s.ms32 0x60080 % 1024)) + 48) 8 = leBytes 8 s.now ∧ (s.ringPost m cqRing b).ms32 0x60080 = (s.ms32 0x60080 + 1) % 2 ^ 32 ∧
        (s.ringPost m cqRing b).cell (msram (0x71000 + 64 * (s.ms32 0x60080 % 1024)) + 63) = (if s.ms32 0x60080 / 1024 % 2 = 0 then 1 else 0) ∧
        (s.ringPost m cqRing b).cells (msram (0x60200 + 8 * m)) 8 = List.replicate 8 0 ∧
        (∀ a, ¬(msram 0x60080 ≤ a ∧ a < msram 0x60084) → ¬(msram (0x71000 + 64 * (s.ms32 0x60080 % 1024)) ≤ a ∧ a < msram (0x71000 + 64 * (s.ms32 0x60080 % 1024)) + 64) → ¬(msram (0x60200 + 8 * m) ≤ a ∧ a < msram (0x60208 + 8 * m)) → (s.ringPost m cqRing b).cell a = s.cell a)) ∧
  (∀ (core : Core) (es : List (Nat × Nat × Nat)) (s u : State),
      ¬(3 ≤ core.val ∧ s.coreDown core = true) →
      s.coreLive core = true →
      13 ≤ s.f R.HLM_BOOT_STAT_STEP →
      s.msramHeld = false →
      s.rgsShut core = false →
      s.mgt.reopen.contains core.val = false →
      es = s.events.filter (fun y => decide (y.1 = core.val) || (decide (core.val = 0) && decide (3 ≤ y.1) && s.coreDown y.1)) →
      es.isEmpty = false ∨ (core.val = 0 ∧ s.logsWait = true) →
      u = es.foldl (fun z y => z.eventTo core y.2.1 y.2.2) { s with events := s.events.filter (fun y => !(decide (y.1 = core.val) || (decide (core.val = 0) && decide (3 ≤ y.1) && s.coreDown y.1))) } →
      exec (.eventPost core) s = .next (if core.val = 0 then u.logReports else u)) ∧
  (∀ (core typ detail : Nat) (s u : State),
      s.ringUsed eqRing < 512 →
      s.ms32 0x60180 = 0 →
      u = (s.ringGood 2).ringPost core eqRing (eqHead core typ s.mgt.evSeq detail) →
      s.eventTo core typ detail = ({ u with mgt := { u.mgt with evSeq := (s.mgt.evSeq + 1) % 65536 } } : State).hintSet 1) ∧
  (∀ (m : Master) (v : W32) (s : State),
      m ≠ .hrp →
      m ≠ .dbg →
      s.rgsShut (masterIdx m) = false →
      ∃ t, exec (.hintSet m v) s = .next t ∧ t.bit R.MGT_HINT_STAT_CMPL = (vbit v 0 || s.bit R.MGT_HINT_STAT_CMPL) ∧ t.bit R.MGT_HINT_STAT_EVT = (vbit v 1 || s.bit R.MGT_HINT_STAT_EVT) ∧ s.sameRegs [R.MGT_HINT_STAT] t) ∧
  (∀ (m : Master) (v : W32) (s : State),
      (m == .hrp || m == .dbg) = true →
      s.rgsShut (masterIdx m) = false →
      exec (.hintStatClear m v) s = .next (s.setReg R.MGT_HINT_STAT (s.reg R.MGT_HINT_STAT &&& ~~~(v &&& BitVec.ofNat 32 (7 - (if s.mgt.hints.contains (0, s.cyc) then 1 else 0) - (if s.mgt.hints.contains (1, s.cyc) then 2 else 0) - (if s.mgt.hints.contains (2, s.cyc) then 4 else 0))))))

/-- The key of the core itself restarts its watchdog, and the first kick after a release puts it in service. A watchdog that reaches TIMEOUT is logged and
restarts its core; a restart masks the core, remaps it to its slot and counts (in bring-up mode it restarts into the kernel, the choice of log entry
110); its slot is hashed, and a match releases it. A core without a kick for 2 ms fails its start. MGT.RESTART restarts the named cores with cause 4;
REMAP of a masked core takes its fields; a core halts itself with the key and PWC or DBG resumes it. Where the spec leaves room this rests on the
model's own choices: log entries 53, 58, 110. -/
def Obligations.CoresRestartAndHalt : Prop :=
  (∀ (m : Master) (core : Core) (v : W32) (s : State),
      masterIdx m = core.val →
      v.toNat % 65536 = 0xA5C3 →
      s.masked.contains core.val = false →
      s.mgt.restarts.find? (fun y => decide (y.core = core.val) && y.live) = none →
      s.rgsShut (masterIdx m) = false →
      exec (.wdtKick m core v) s = .next (((({ s with mgt := { s.mgt with kicks := SMap.insert s.mgt.kicks core s.time.now } } : State)).arm .wall 1 (.watchdogExpiry core)).put (inService core) 1)) ∧
  (∀ (m : Master) (core : Core) (v : W32) (x : Restart) (s : State),
      masterIdx m = core.val →
      v.toNat % 65536 = 0xA5C3 →
      s.masked.contains core.val = false →
      s.mgt.restarts.find? (fun y => decide (y.core = core.val) && y.live) = some x →
      s.rgsShut (masterIdx m) = false →
      exec (.wdtKick m core v) s = .next (((((({ ({ s with mgt := { s.mgt with kicks := SMap.insert s.mgt.kicks core s.time.now } } : State).arm .wall 1 (.watchdogExpiry core) with mgt := { s.mgt with kicks := SMap.insert s.mgt.kicks core s.time.now, restarts := s.mgt.restarts.filter (fun y => decide (y.core ≠ core.val)) } } : State).puts
          [(inService core, 1), (R.MGT_WDT_STAT_FAILS core, 0)]).restartEvent x).coreBack core).seqsDone core))) ∧
  (∀ (core : Core) (s : State),
      s.coreExists core = true →
      s.bit (R.MGT_WDT_CFG_EN core) = true →
      s.masked.contains core.val = false →
      s.bit (bitFld R.MGT_HALT_STAT core) = false →
      (s.mgt.hold.isSome && s.bit (R.MGT_WDT_CFG_DBG_PAUSE core)) = false →
      SMap.get 0 s.mgt.kicks core + us (s.f (R.MGT_WDT_CFG_TIMEOUT core)) ≤ s.time.now →
      s.bit R.MGT_MODE_MODE = true →
      s.roleState (roleOf core) ≠ 5 →
      exec (.watchdogExpiry core) s = .next ((s.mgtErr 0x60 core 0 0).restartCore core 1 (s.slotOf core) false)) ∧
  (∀ (core : Core) (s : State),
      s.coreExists core = true →
      s.bit (R.MGT_WDT_CFG_EN core) = true →
      s.masked.contains core.val = false →
      s.bit (bitFld R.MGT_HALT_STAT core) = false →
      (s.mgt.hold.isSome && s.bit (R.MGT_WDT_CFG_DBG_PAUSE core)) = false →
      SMap.get 0 s.mgt.kicks core + us (s.f (R.MGT_WDT_CFG_TIMEOUT core)) ≤ s.time.now →
      s.bit R.MGT_MODE_MODE = false →
      exec (.watchdogExpiry core) s = .next (s.mgtErr 0x60 core 0 0).kernelRestart) ∧
  (∀ (core : Core) (s : State),
      s.coreExists core = true →
      s.bit (R.MGT_WDT_CFG_EN core) = true →
      s.masked.contains core.val = false →
      s.bit (bitFld R.MGT_HALT_STAT core) = false →
      (s.mgt.hold.isSome && s.bit (R.MGT_WDT_CFG_DBG_PAUSE core)) = false →
      SMap.get 0 s.mgt.kicks core + us (s.f (R.MGT_WDT_CFG_TIMEOUT core)) ≤ s.time.now →
      s.bit R.MGT_MODE_MODE = true →
      s.roleState (roleOf core) = 5 →
      exec (.watchdogExpiry core) s = .next ((s.mgtErr 0x60 core 0 0).revertRole (roleOf core) core)) ∧
  (∀ (core : Core) (s : State),
      s.coreExists core = true →
      s.bit (R.MGT_WDT_CFG_EN core) = true →
      s.masked.contains core.val = false →
      s.bit (bitFld R.MGT_HALT_STAT core) = false →
      (s.mgt.hold.isSome && s.bit (R.MGT_WDT_CFG_DBG_PAUSE core)) = false →
      s.time.now < SMap.get 0 s.mgt.kicks core + us (s.f (R.MGT_WDT_CFG_TIMEOUT core)) →
      exec (.watchdogExpiry core) s = .next ((s.disarm (.watchdogExpiry core)).at' .fab (SMap.get 0 s.mgt.kicks core + us (s.f (R.MGT_WDT_CFG_TIMEOUT core))) (.watchdogExpiry core))) ∧
  (∀ (core : Core) (cause : RestartCause) (s : State),
      s.coreExists core = true →
      s.masked.contains core.val = false →
      s.bit R.MGT_MODE_MODE = true →
      exec (.coreRestart core cause) s = .next (s.restartCore core (causeCode cause) (s.slotOf core) false)) ∧
  (∀ (core : Core) (cause : RestartCause) (s : State),
      s.coreExists core = true →
      s.masked.contains core.val = false →
      s.bit R.MGT_MODE_MODE = false →
      exec (.coreRestart core cause) s = .next (s.kernelCore core (causeCode cause))) ∧
  (∀ (m cause slot : Nat) (b : Bool) (s : State),
      m < 11 →
      cause < 8 →
      slot < 2 →
      m ∈ (s.restartCore m cause slot b).masked ∧ (s.restartCore m cause slot b).f (R.MGT_WDT_STAT_LAST m) = cause ∧ (s.restartCore m cause slot b).bit R.MGT_HINT_STAT_RESTART = true ∧ (s.restartCore m cause slot b).f (R.MGT_REMAP_REMAP m) = 1 ∧
        (s.restartCore m cause slot b).f (R.MGT_REMAP_BASE m) = slotOff (roleOf m) slot / 4096 ∧ (s.restartCore m cause slot b).bit (inService m) = false ∧
        { core := m, cause := cause, slot := slot, at' := s.time.real, live := false, retried := b } ∈ (s.restartCore m cause slot b).mgt.restarts) ∧
  (∀ (core : Core) (x : Restart) (s u : State),
      s.mgt.restarts.find? (fun y => decide (y.core = core.val)) = some x →
      x.live = false →
      x.at' + ns (max 1000 (s.slotRec (roleOf core) x.slot).len) ≤ s.time.real →
      s.slotHash (roleOf core) x.slot (s.slotRec (roleOf core) x.slot).len = (s.slotRec (roleOf core) x.slot).digest →
      u = { s with mgt := { s.mgt with restarts := s.mgt.restarts.map (fun y => if y.core = core.val then { y with live := true } else y) } } →
      exec (.coreRelease core) s = .next (((if core.val = 0 then u.put R.MGT_MODE_MODE 1 else u).put (slotB core) x.slot).unmaskCore core)) ∧
  (∀ (m : Nat) (s : State),
      m ∉ (s.unmaskCore m).masked ∧ SMap.get 0 (s.unmaskCore m).mgt.kicks m = s.time.now) ∧
  (∀ (core : Core) (x : Restart) (s : State),
      s.mgt.restarts.find? (fun y => decide (y.core = core.val)) = some x →
      x.at' + us 2000 ≤ s.time.real →
      exec (.restartKickTimeout core) s = .next (s.startFailed x)) ∧
  (∀ (m : Master) (v : W32) (s : State),
      (m == .sec || m == .dbg) = true →
      s.rgsShut (masterIdx m) = false →
      exec (.mgtRestartWrite m v) s = .next ((s.cores.filter (fun c => vbit v c)).foldl (fun x c => x.later .wall 0 (.coreRestart (Fin.ofNat 11 c) .command)) s)) ∧
  (∀ (m : Master) (core : Core) (v : W32) (s : State),
      (m == .sec || m == .dbg) = true →
      s.masked.contains core.val = true →
      s.rgsShut (masterIdx m) = false →
      exec (.mgtRemapWrite m core v) s = .next (s.setReg (R.MGT_REMAP core) (v &&& 0x000FF001))) ∧
  (∀ (m : Master) (v : W32) (s : State),
      m ≠ .pwc →
      m ≠ .dbg →
      m ≠ .hrp →
      v.toNat % 65536 = 0x4A17 →
      s.masked.contains (masterIdx m) = false →
      s.cmx.out.any (fun y => decide (y.req.m = masterIdx m)) = false →
      s.rgsShut (masterIdx m) = false →
      ∃ t, exec (.selfHalt m v) s = .next t ∧ t.f (bitFld R.MGT_HALT_STAT (masterIdx m)) = 1 ∧ SMap.get 0 t.mgt.haltAt (masterIdx m) = s.time.now ∧ s.sameRegs [R.MGT_HALT_STAT] t) ∧
  (∀ (m : Master) (v : W32) (s : State),
      pwrMaster m = true →
      s.rgsShut (masterIdx m) = false →
      ∃ t, exec (.resume m v) s = .next t ∧ (∀ c : Core, vbit v c = true → t.f (bitFld R.MGT_HALT_STAT c) = 0) ∧ s.sameRegs [R.MGT_HALT_STAT] t)

/-- GO of SEC or DBG activates a VERIFIED role, or defers it while an emergency is flagged, and sets REJ for a role that is not VERIFIED; once no
emergency has been flagged for 100 us deferred activations start; after its 10 ms of probation a role is RUNNING; the key of HRP or DBG asks for a
recovery while none runs. Where the spec leaves room this rests on the model's own choices: log entries 58, 111. -/
def Obligations.RolesAreActivated : Prop :=
  (∀ (m : Master) (v : W32) (s : State),
      (m == .sec || m == .dbg) = true →
      vbit v 31 = true →
      s.roleState (v.toNat % 4) = 2 →
      s.emergAny = false →
      s.rgsShut (masterIdx m) = false →
      exec (.mgtActWrite m v) s = .next (({ s with mgt := { s.mgt with outcome := SMap.erase s.mgt.outcome (v.toNat % 4) } } : State).actStart (v.toNat % 4))) ∧
  (∀ (m : Master) (v : W32) (s : State),
      (m == .sec || m == .dbg) = true →
      vbit v 31 = true →
      s.roleState (v.toNat % 4) = 2 →
      s.emergAny = true →
      s.rgsShut (masterIdx m) = false →
      exec (.mgtActWrite m v) s = .next ((({ s with mgt := { s.mgt with outcome := SMap.erase s.mgt.outcome (v.toNat % 4) } } : State).setRole (v.toNat % 4) 3).event 0 0x07 (v.toNat % 4))) ∧
  (∀ (m : Master) (v : W32) (s : State),
      (m == .sec || m == .dbg) = true →
      vbit v 31 = true →
      s.roleState (v.toNat % 4) ≠ 2 →
      s.rgsShut (masterIdx m) = false →
      exec (.mgtActWrite m v) s = .next (s.put R.MGT_ACT_STAT_REJ 1)) ∧
  (∀ (s : State),
      s.calm = true →
      exec .activationStart s = .next (((List.range 4).foldl (fun x r => if x.roleState r = 3 then x.actStart r else x) s).seqsGo)) ∧
  (∀ (role : Fin 4) (s : State),
      s.roleState role = 5 →
      SMap.get 0 s.mgt.prob role ≤ s.time.now →
      ∃ t, exec (.probationEnd role) s = .next t ∧ t.roleState role = 0 ∧ SMap.get 0 t.mgt.outcome role = 1 ∧ t.f R.MGT_ACT_STAT_DONE = 1 ∧ SMap.get 0 t.mgt.prob role = 0) ∧
  (∀ (m : Master) (v : W32) (s : State),
      (m == .hrp || m == .dbg) = true →
      v.toNat % 65536 = 0x52EC →
      s.mgt.recover = 0 →
      s.rgsShut (masterIdx m) = false →
      exec (.recovery m v) s = .next (({ s with mgt := { s.mgt with recover := 1 } } : State).later .real 0 .recoveryStart))

/-- A submission whose executor is in service, whose turn has come and whose operands are good is carried out: NOP completes OK; ACTIVATE and DEACTIVATE
of a context in the right state change it and complete OK; BIND binds context, windows and groups and tells the windows bound; KILL starts the kill
and completes when it is over; WINDOW unbinds and completes when the window is free. A malformed one completes with status 2. Where the spec leaves
room this rests on the model's own choices: log entries 55, 56. -/
def Obligations.ContextSubmissionsComplete : Prop :=
  (∀ (i : W32) (j : Job) (s : State),
      s.mgt.jobs.find? (fun z => decide (z.idx = i.toNat) && decide (z.op = 0x01)) = some j →
      s.coreDown j.core = false →
      s.coreLive j.core = true →
      s.rgsShut j.core = false →
      j.stage = 0 →
      s.jobTurn j = true →
      j.malformed = false →
      s.outOfRange j = false →
      exec (.sqNop i) s = .next (s.jobEnd j 0 0)) ∧
  (∀ (j : Job) (status res : Nat) (s : State),
      s.coreDown j.core = false →
      (s.jobEnd j status res).mgt.jobs = s.mgt.jobs.filter (fun y => decide (y.idx ≠ j.idx)) ∧ (s.jobEnd j status res).mgt.posts = s.mgt.posts ++ [(j.core, cqHead j status res)] ∧ (s.jobEnd j status res).regs = s.regs ∧ (s.jobEnd j status res).mem = s.mem) ∧
  (∀ (i : W32) (j : Job) (s : State),
      s.mgt.jobs.find? (fun z => decide (z.idx = i.toNat) && decide (z.op = 0x01)) = some j →
      s.coreDown j.core = false →
      s.coreLive j.core = true →
      s.rgsShut j.core = false →
      j.stage = 0 →
      s.jobTurn j = true →
      j.malformed = true →
      exec (.sqNop i) s = .next (s.jobEnd j 2 0)) ∧
  (∀ (i : W32) (j : Job) (s : State),
      s.mgt.jobs.find? (fun z => decide (z.idx = i.toNat) && decide (z.op = 0x02)) = some j →
      s.coreDown j.core = false →
      s.coreLive j.core = true →
      s.rgsShut j.core = false →
      j.stage = 0 →
      s.jobTurn j = true →
      j.malformed = false →
      s.outOfRange j = false →
      j.ctx < 16 →
      s.ctxState j.ctx = 0 →
      ∃ t, exec (.sqActivate i) s = .next t ∧ t.ctxState j.ctx = 1 ∧ t.f (R.CTX_STAT_OWNER j.ctx) = j.opnd 8 2 ∧ t.f R.CTX_CMD_STAT_DONE = 1 ∧ t.mgt.jobs = s.mgt.jobs.filter (fun y => decide (y.idx ≠ j.idx)) ∧ t.mgt.posts = s.mgt.posts ++ [(j.core, cqHead j 0 0)] ∧ s.sameRegs [R.CTX_OWNER_IN, R.CTX_CMD_STAT, R.CTX_STAT j.ctx] t) ∧
  (∀ (i : W32) (j : Job) (s : State),
      s.mgt.jobs.find? (fun z => decide (z.idx = i.toNat) && decide (z.op = 0x03)) = some j →
      s.coreDown j.core = false →
      s.coreLive j.core = true →
      s.rgsShut j.core = false →
      j.stage = 0 →
      s.jobTurn j = true →
      j.malformed = false →
      s.outOfRange j = false →
      j.ctx < 16 →
      s.ctxState j.ctx = 1 →
      ∃ t, exec (.sqDeactivate i) s = .next t ∧ t.ctxState j.ctx = 0 ∧ t.f (R.CTX_STAT_OWNER j.ctx) = 0 ∧ t.mgt.jobs = s.mgt.jobs.filter (fun y => decide (y.idx ≠ j.idx)) ∧ t.mgt.posts = s.mgt.posts ++ [(j.core, cqHead j 0 0)] ∧ s.sameRegs [R.CTX_CMD_STAT, R.CTX_STAT j.ctx] t) ∧
  (∀ (i : W32) (j : Job) (u v y : State) (done : Nat) (s : State),
      s.mgt.jobs.find? (fun z => decide (z.idx = i.toNat) && decide (z.op = 0x04)) = some j →
      s.coreDown j.core = false →
      s.coreLive j.core = true →
      s.rgsShut j.core = false →
      j.stage = 0 →
      s.jobTurn j = true →
      j.malformed = false →
      s.outOfRange j = false →
      u = ran (s.put R.CTX_CMD_STAT_REJ 0) (exec (.ctxBind .sch (Fin.ofNat 16 j.ctx)) (s.put R.CTX_CMD_STAT_REJ 0)) →
      u.bit R.CTX_CMD_STAT_REJ = false →
      (u.put (R.LCT_STEP_MULTI j.ctx) (j.opnd 32 1)).bindWins j.ctx (j.opnd 8 8) (List.range 64) 0 = (v, done, none) →
      v.bindGroups j.ctx (j.opnd 16 16) (List.range 128) = (y, none) →
      exec (.sqBind i) s = .next (y.jobEnd j 0 done)) ∧
  (∀ (i : W32) (j : Job) (u : State) (s : State),
      s.mgt.jobs.find? (fun z => decide (z.idx = i.toNat) && decide (z.op = 0x05)) = some j →
      s.coreDown j.core = false →
      s.coreLive j.core = true →
      s.rgsShut j.core = false →
      j.stage = 0 →
      s.jobTurn j = true →
      j.malformed = false →
      s.outOfRange j = false →
      u = ran (s.put R.CTX_CMD_STAT_REJ 0) (exec (.ctxKill .sch (Fin.ofNat 16 j.ctx)) (s.put R.CTX_CMD_STAT_REJ 0)) →
      u.bit R.CTX_CMD_STAT_REJ = false →
      exec (.sqKill i) s = .next ((u.setJob { j with stage := 1 }).jobsGo (fun x => decide (x.stage = 0)))) ∧
  (∀ (i : W32) (j : Job) (s : State),
      s.mgt.jobs.find? (fun z => decide (z.idx = i.toNat) && decide (z.op = 0x05)) = some j →
      s.coreDown j.core = false →
      s.coreLive j.core = true →
      s.rgsShut j.core = false →
      j.stage = 1 →
      s.killing j.ctx = false →
      exec (.sqKill i) s = .next (s.jobEnd j 0 0)) ∧
  (∀ (i : W32) (j : Job) (u : State) (s : State),
      s.mgt.jobs.find? (fun z => decide (z.idx = i.toNat) && decide (z.op = 0x06)) = some j →
      s.coreDown j.core = false →
      s.coreLive j.core = true →
      s.rgsShut j.core = false →
      j.stage = 0 →
      s.jobTurn j = true →
      j.malformed = false →
      s.outOfRange j = false →
      j.opnd 9 1 = 2 →
      u = ran (s.put R.WIN_BIND_STAT_REJ 0) (exec (.windowUnbind .sch (Fin.ofNat 64 (j.opnd 8 1)) (Fin.ofNat 16 j.ctx)) (s.put R.WIN_BIND_STAT_REJ 0)) →
      u.bit R.WIN_BIND_STAT_REJ = false →
      exec (.sqWindow i) s = .next (u.sqStage j 1 (.sqWindow i))) ∧
  (∀ (i : W32) (j : Job) (s : State),
      s.mgt.jobs.find? (fun z => decide (z.idx = i.toNat) && decide (z.op = 0x06)) = some j →
      s.coreDown j.core = false →
      s.coreLive j.core = true →
      s.rgsShut j.core = false →
      j.stage = 1 →
      s.ctx.busy = none →
      exec (.sqWindow i) s = .next (s.jobEnd j 0 0)) ∧
  (∀ (i : W32) (j : Job) (u : State) (s : State),
      s.mgt.jobs.find? (fun z => decide (z.idx = i.toNat) && decide (z.op = 0x06)) = some j →
      s.coreDown j.core = false →
      s.coreLive j.core = true →
      s.rgsShut j.core = false →
      j.stage = 0 →
      s.jobTurn j = true →
      j.malformed = false →
      s.outOfRange j = false →
      j.opnd 9 1 = 3 →
      u = ran (s.put R.WIN_BIND_STAT_REJ 0) (exec (.windowRelease .sch (Fin.ofNat 64 (j.opnd 8 1)) 0) (s.put R.WIN_BIND_STAT_REJ 0)) →
      u.bit R.WIN_BIND_STAT_REJ = false →
      exec (.sqWindow i) s = .next (u.sqStage j 1 (.sqWindow i)))

/-- RUN dispatches its list to a runner that answers and completes with the record of the list when that is the head; SYNC and FIFO complete OK when every
counter or FIFO is as asked; FENCE completes when the cabinet is fenced, REMAP when the move is done; RETIRE and LOGOWN write their register and
complete; ASSAY starts the passes of its cabinets and completes with their sums; DUMP takes the dump in a frozen die and completes. Where the spec
leaves room this rests on the model's own choices: log entries 55, 56. -/
def Obligations.UnitSubmissionsComplete : Prop :=
  (∀ (i : W32) (j : Job) (p : Nat) (u : State) (s : State),
      s.mgt.jobs.find? (fun z => decide (z.idx = i.toNat) && decide (z.op = 0x07)) = some j →
      s.coreDown j.core = false →
      s.coreLive j.core = true →
      s.rgsShut j.core = false →
      j.stage = 0 →
      s.jobTurn j = true →
      j.malformed = false →
      s.outOfRange j = false →
      s.curCab (j.opnd 14 1) = some p →
      s.cabAns p = true →
      u = ran (s.setReg (R.RUN_RN_LIST_FA p (j.opnd 15 1 % 4)) (BitVec.ofNat 32 (j.opnd 8 4))) (exec (.runnerListGo .sch (Fin.ofNat 128 p) (Fin.ofNat 4 (j.opnd 15 1 % 4)) (BitVec.ofNat 32 (j.opnd 12 2 + j.ctx * 2 ^ 16 + j.opnd 15 1 / 4 * 2 ^ 20 + j.idx % 256 * 2 ^ 21 + 2 ^ 29 + 2 ^ 31))) (s.setReg (R.RUN_RN_LIST_FA p (j.opnd 15 1 % 4)) (BitVec.ofNat 32 (j.opnd 8 4)))) →
      u.bit (R.RUN_RN_LIST_CTL_REJ p (j.opnd 15 1 % 4)) = false →
      exec (.sqRun i) s = .next ((u.setJob { j with stage := 1, todo := [p] }).jobsGo (fun x => decide (x.stage = 0)))) ∧
  (∀ (i : W32) (j : Job) (p : Nat) (c : Cmpl) (rest : List Cmpl) (u : State) (s : State),
      s.mgt.jobs.find? (fun z => decide (z.idx = i.toNat) && decide (z.op = 0x07)) = some j →
      s.coreDown j.core = false →
      s.coreLive j.core = true →
      s.rgsShut j.core = false →
      j.stage = 1 →
      j.todo = [p] →
      (s.runner p (j.opnd 15 1 % 4)).cmpl = c :: rest →
      c.tag = j.idx % 256 →
      c.status ≠ 10 →
      s.cqSpace = true →
      s.cabAns p = true →
      u = ran s (exec (.cmplPop .sch (Fin.ofNat 128 p) (Fin.ofNat 4 (j.opnd 15 1 % 4)) 1) s) →
      exec (.sqRun i) s = .next (u.jobEnd j (if c.status = 1 ∨ c.status = 2 then 4 else 0) (words32 (cmplRegs (c :: rest))))) ∧
  (∀ (i : W32) (j : Job) (p : Nat) (u : State) (s : State),
      s.mgt.jobs.find? (fun z => decide (z.idx = i.toNat) && decide (z.op = 0x08)) = some j →
      s.coreDown j.core = false →
      s.coreLive j.core = true →
      s.rgsShut j.core = false →
      j.stage = 0 →
      s.jobTurn j = true →
      j.malformed = false →
      s.outOfRange j = false →
      s.curCab (j.opnd 8 1) = some p →
      j.opnd 8 1 ≠ 0xFF →
      s.cabAns p = true →
      s.syncAll j (fun n => .cab (Fin.ofNat 128 p) (Fin.ofNat 64 n)) (List.range 64) none = (u, none) →
      exec (.sqSync i) s = .next (u.jobEnd j 0 0)) ∧
  (∀ (i : W32) (j : Job) (u : State) (s : State),
      s.mgt.jobs.find? (fun z => decide (z.idx = i.toNat) && decide (z.op = 0x08)) = some j →
      s.coreDown j.core = false →
      s.coreLive j.core = true →
      s.rgsShut j.core = false →
      j.stage = 0 →
      s.jobTurn j = true →
      j.malformed = false →
      s.outOfRange j = false →
      j.opnd 8 1 = 0xFF →
      s.syncAll j (fun n => .glob (Fin.ofNat 128 ((s.cabs.find? s.cabAns).getD 0)) (Fin.ofNat 256 n)) (List.range 256) none = (u, none) →
      exec (.sqSync i) s = .next (u.jobEnd j 0 0)) ∧
  (∀ (i : W32) (j : Job) (p : Nat) (u : State) (s : State),
      s.mgt.jobs.find? (fun z => decide (z.idx = i.toNat) && decide (z.op = 0x09)) = some j →
      s.coreDown j.core = false →
      s.coreLive j.core = true →
      s.rgsShut j.core = false →
      j.stage = 0 →
      s.jobTurn j = true →
      j.malformed = false →
      s.outOfRange j = false →
      s.curCab (j.opnd 8 1) = some p →
      s.cabAns p = true →
      s.fifoAll j p (List.range 8) none = (u, none) →
      exec (.sqFifo i) s = .next (u.jobEnd j 0 0)) ∧
  (∀ (i : W32) (j : Job) (s : State),
      s.mgt.jobs.find? (fun z => decide (z.idx = i.toNat) && decide (z.op = 0x0B)) = some j →
      s.coreDown j.core = false →
      s.coreLive j.core = true →
      s.rgsShut j.core = false →
      j.stage = 0 →
      s.jobTurn j = true →
      j.malformed = false →
      s.outOfRange j = false →
      s.fenced (j.opnd 8 1) = false →
      exec (.sqFence i) s = .next ((ran s (exec (.fenceCmd .sec (BitVec.ofNat 32 (j.opnd 8 1 + 2 ^ 31))) s)).sqStage j 1 (.sqFence i))) ∧
  (∀ (i : W32) (j : Job) (s : State),
      s.mgt.jobs.find? (fun z => decide (z.idx = i.toNat) && decide (z.op = 0x0B)) = some j →
      s.coreDown j.core = false →
      s.coreLive j.core = true →
      s.rgsShut j.core = false →
      j.stage = 1 →
      s.fenced (j.opnd 8 1) = true →
      exec (.sqFence i) s = .next (s.jobEnd j 0 0)) ∧
  (∀ (i : W32) (j : Job) (u : State) (s : State),
      s.mgt.jobs.find? (fun z => decide (z.idx = i.toNat) && decide (z.op = 0x0C)) = some j →
      s.coreDown j.core = false →
      s.coreLive j.core = true →
      s.rgsShut j.core = false →
      j.stage = 0 →
      s.jobTurn j = true →
      j.malformed = false →
      s.outOfRange j = false →
      s.cabAns (j.opnd 8 1) = true →
      s.partReady (j.opnd 8 1) = true →
      u = ran (s.puts [(R.RMP_ADD_STAT_REJ (j.opnd 8 1), 0), (R.RMP_ADD_STAT_DONE (j.opnd 8 1), 0)]) (exec (.remapAdd ((s.puts [(R.RMP_ADD_STAT_REJ (j.opnd 8 1), 0), (R.RMP_ADD_STAT_DONE (j.opnd 8 1), 0)]).partCore (j.opnd 8 1)) (Fin.ofNat 128 (j.opnd 8 1)) (BitVec.ofNat 32 (j.opnd 10 2 + j.opnd 9 1 * 4096 + 2 ^ 31))) (s.puts [(R.RMP_ADD_STAT_REJ (j.opnd 8 1), 0), (R.RMP_ADD_STAT_DONE (j.opnd 8 1), 0)])) →
      u.bit (R.RMP_ADD_STAT_REJ (j.opnd 8 1)) = false →
      u.bit (R.RMP_ADD_STAT_DONE (j.opnd 8 1)) = false →
      exec (.sqRemap i) s = .next (u.sqStage j 1 (.sqRemap i))) ∧
  (∀ (i : W32) (j : Job) (s : State),
      s.mgt.jobs.find? (fun z => decide (z.idx = i.toNat) && decide (z.op = 0x0C)) = some j →
      s.coreDown j.core = false →
      s.coreLive j.core = true →
      s.rgsShut j.core = false →
      j.stage = 1 →
      s.cabAns (j.opnd 8 1) = true →
      s.bit (R.RMP_ADD_STAT_REJ (j.opnd 8 1)) = false →
      s.bit (R.RMP_ADD_STAT_DONE (j.opnd 8 1)) = true →
      exec (.sqRemap i) s = .next (s.jobEnd j 0 0)) ∧
  (∀ (i : W32) (j : Job) (s : State),
      s.mgt.jobs.find? (fun z => decide (z.idx = i.toNat) && decide (z.op = 0x0D)) = some j →
      s.coreDown j.core = false →
      s.coreLive j.core = true →
      s.rgsShut j.core = false →
      j.stage = 0 →
      s.jobTurn j = true →
      j.malformed = false →
      s.outOfRange j = false →
      s.cabAns (j.opnd 8 1) = true →
      s.bit (R.BNK_RETIRE_V1 (j.opnd 8 1) (j.opnd 9 1)) = false →
      exec (.sqRetire i) s = .next ((ran s (exec (.retireWrite .sec (Fin.ofNat 128 (j.opnd 8 1)) (Fin.ofNat 32 (j.opnd 9 1)) (BitVec.ofNat 32 (j.opnd 10 1 + 2 ^ 5))) s)).jobEnd j 0 0)) ∧
  (∀ (i : W32) (j : Job) (s : State),
      s.mgt.jobs.find? (fun z => decide (z.idx = i.toNat) && decide (z.op = 0x12)) = some j →
      s.coreDown j.core = false →
      s.coreLive j.core = true →
      s.rgsShut j.core = false →
      j.stage = 0 →
      s.jobTurn j = true →
      j.malformed = false →
      s.outOfRange j = false →
      exec (.sqLogown i) s = .next (((s.logCtl .sec (j.opnd 8 1) (BitVec.ofNat 32 (4 * s.f (R.ERR_LOG_CTL_INT_EN (j.opnd 8 1)) + 8 * j.opnd 9 1))).arm .real (ns 1) (.eventPost 0)).jobEnd j 0 0)) ∧
  (∀ (k n x : Nat) (s : State),
      k < 4 →
      n < 2 →
      x < 2 →
      (s.logCtl .sec k (BitVec.ofNat 32 (4 * x + 8 * n))).f (R.ERR_LOG_CTL_OWNER k) = n ∧ (s.logCtl .sec k (BitVec.ofNat 32 (4 * x + 8 * n))).f (R.ERR_LOG_CTL_INT_EN k) = x) ∧
  (∀ (i : W32) (j : Job) (l : List (Nat × Nat)) (s : State),
      s.mgt.jobs.find? (fun z => decide (z.idx = i.toNat) && decide (z.op = 0x0A)) = some j →
      s.coreDown j.core = false →
      s.coreLive j.core = true →
      s.rgsShut j.core = false →
      j.stage = 0 →
      s.jobTurn j = true →
      j.malformed = false →
      s.outOfRange j = false →
      (spanCabs (j.opnd 8 4) (j.opnd 12 4)).find? (fun n => (s.curCab n).isNone) = none →
      l = (spanCabs (j.opnd 8 4) (j.opnd 12 4)).filterMap (fun n => (s.curCab n).map (fun p => (n, p))) →
      l.any (fun e => !s.cabAns e.2) = false →
      exec (.sqAssay i) s = .next (((s.assayStart j (spanCabs (j.opnd 8 4) (j.opnd 12 4))).1.setJob { j with stage := 1, todo := (s.assayStart j (spanCabs (j.opnd 8 4) (j.opnd 12 4))).2 }).fwWait (.sqAssay i))) ∧
  (∀ (i : W32) (j : Job) (l : List (Nat × Nat)) (s : State),
      s.mgt.jobs.find? (fun z => decide (z.idx = i.toNat) && decide (z.op = 0x0A)) = some j →
      s.coreDown j.core = false →
      s.coreLive j.core = true →
      s.rgsShut j.core = false →
      j.stage = 1 →
      j.todo = [] →
      (spanCabs (j.opnd 8 4) (j.opnd 12 4)).find? (fun n => (s.curCab n).isNone) = none →
      l = (spanCabs (j.opnd 8 4) (j.opnd 12 4)).filterMap (fun n => (s.curCab n).map (fun p => (n, p))) →
      l.any (fun e => !s.cabAns e.2) = false →
      l.any (fun e => s.bit (R.ASY_CTL_GO e.2)) = false →
      exec (.sqAssay i) s = .next (s.jobEnd j 0 (s.assayRes l))) ∧
  (∀ (i : W32) (j : Job) (s : State),
      s.mgt.jobs.find? (fun z => decide (z.idx = i.toNat) && decide (z.op = 0x13)) = some j →
      s.coreDown j.core = false →
      s.coreLive j.core = true →
      s.rgsShut j.core = false →
      j.stage = 0 →
      s.jobTurn j = true →
      j.malformed = false →
      s.outOfRange j = false →
      s.frozen = true →
      exec (.sqDump i) s = .next ((ran s (exec (.dumpGo .sec (BitVec.ofNat 32 (1 + 2 + 4 + s.f (R.SYN_DUMP_CTL_AUTO 0) * 16))) s)).sqStage { j with acc := 0 } 2 (.sqDump i))) ∧
  (∀ (i : W32) (j : Job) (s : State),
      s.mgt.jobs.find? (fun z => decide (z.idx = i.toNat) && decide (z.op = 0x13)) = some j →
      s.coreDown j.core = false →
      s.coreLive j.core = true →
      s.rgsShut j.core = false →
      j.stage = 0 →
      s.jobTurn j = true →
      j.malformed = false →
      s.outOfRange j = false →
      s.frozen = false →
      exec (.sqDump i) s = .next ((s.frzCtl .sec 2 true).sqStage j 1 (.sqDump i))) ∧
  (∀ (i : W32) (j : Job) (s : State),
      s.mgt.jobs.find? (fun z => decide (z.idx = i.toNat) && decide (z.op = 0x13)) = some j →
      s.coreDown j.core = false →
      s.coreLive j.core = true →
      s.rgsShut j.core = false →
      j.stage = 2 →
      j.acc = 0 →
      s.bit (R.SYN_DUMP_CTL_REJ 0) = false →
      s.bit (R.SYN_DUMP_CTL_DONE 0) = true →
      exec (.sqDump i) s = .next (s.jobEnd j 0 0))

/-- OPPOINT freezes the die, changes the point and, thawed, completes with the point and the result; PSTATE commands its cabinets and completes OK when
none is under way and none was refused; STAGE of a role that is RUNNING or VERIFIED verifies the staged image within 10 ms, completes with the code of
the first check it fails, and writes the slot it persists to flash; FWACT activates a VERIFIED role and completes when probation is over. -/
def Obligations.PowerAndFirmwareSubmissionsComplete : Prop :=
  (∀ (i : W32) (j : Job) (s : State),
      s.mgt.jobs.find? (fun z => decide (z.idx = i.toNat) && decide (z.op = 0x0E)) = some j →
      s.coreDown j.core = false →
      s.coreLive j.core = true →
      s.rgsShut j.core = false →
      j.stage = 0 →
      s.jobTurn j = true →
      j.malformed = false →
      s.outOfRange j = false →
      exec (.sqOppoint i) s = .next ((s.frzCtl .pwc 1 true).sqStage j 1 (.sqOppoint i))) ∧
  (∀ (i : W32) (j : Job) (s : State),
      s.mgt.jobs.find? (fun z => decide (z.idx = i.toNat) && decide (z.op = 0x0E)) = some j →
      s.coreDown j.core = false →
      s.coreLive j.core = true →
      s.rgsShut j.core = false →
      j.stage = 3 →
      s.bit R.LCT_FRZ_STAT_FIRMWARE = false →
      j.acc = 0 →
      s.f R.PWR_OP_STAT_RESULT ≠ 1 →
      exec (.sqOppoint i) s = .next (s.jobEnd j 0 (s.f R.PWR_OP_STAT_CUR + s.f R.PWR_OP_STAT_RESULT * 2 ^ 8 + s.f R.LCT_FRZ_LAST_V * 2 ^ 32))) ∧
  (∀ (i : W32) (j : Job) (s : State),
      s.mgt.jobs.find? (fun z => decide (z.idx = i.toNat) && decide (z.op = 0x0F)) = some j →
      s.coreDown j.core = false →
      s.coreLive j.core = true →
      s.rgsShut j.core = false →
      j.stage = 0 →
      s.jobTurn j = true →
      j.malformed = false →
      s.outOfRange j = false →
      j.opnd 8 1 < 4 →
      exec (.sqPstate i) s = .next (((((List.range 128).filter (fun p => decide (j.opnd 16 16 / 2 ^ p % 2 = 1))).foldl (fun x p => x.pstateCmd (j.opnd 8 1) p) s)).sqStage j 1 (.sqPstate i))) ∧
  (∀ (i : W32) (j : Job) (cabs : List Nat) (s : State),
      s.mgt.jobs.find? (fun z => decide (z.idx = i.toNat) && decide (z.op = 0x0F)) = some j →
      s.coreDown j.core = false →
      s.coreLive j.core = true →
      s.rgsShut j.core = false →
      j.stage = 1 →
      j.opnd 8 1 < 4 →
      cabs = (List.range 128).filter (fun p => decide (j.opnd 16 16 / 2 ^ p % 2 = 1)) →
      s.pwr.cmds.any (fun y => cabs.contains y.cab) = false →
      cabs.any (fun y => s.bit (cabBusy y)) = false →
      cabs.all (fun y => decide (SMap.get 0 s.pwr.res y = 0)) = true →
      exec (.sqPstate i) s = .next (s.jobEnd j 0 0)) ∧
  (∀ (i : W32) (j : Job) (u : State) (s : State),
      s.mgt.jobs.find? (fun z => decide (z.idx = i.toNat) && decide (z.op = 0x0F)) = some j →
      s.coreDown j.core = false →
      s.coreLive j.core = true →
      s.rgsShut j.core = false →
      j.stage = 0 →
      s.jobTurn j = true →
      j.malformed = false →
      s.outOfRange j = false →
      j.opnd 8 1 = 4 →
      u = { s with pwr := { s.pwr with res := SMap.erase s.pwr.res 127 } } →
      exec (.sqPstate i) s = .next ((ran u (exec (.dieSleep .pwc 1) u)).sqStage j 1 (.sqPstate i))) ∧
  (∀ (i : W32) (ok : Bool) (j : Job) (s : State),
      s.mgt.jobs.find? (fun z => decide (z.idx = i.toNat) && decide (z.op = 0x10)) = some j →
      s.coreDown j.core = false →
      s.coreLive j.core = true →
      s.rgsShut j.core = false →
      j.stage = 0 →
      s.jobTurn j = true →
      j.malformed = false →
      s.outOfRange j = false →
      s.roleState (j.opnd 8 1) = 0 ∨ s.roleState (j.opnd 8 1) = 2 →
      exec (.sqStage i ok) s = .next (((s.useFree.setRole (j.opnd 8 1) 1).setJob { j with stage := 1, acc := s.time.real + s.free % (us 10000 + 1) }).at' .real (s.time.real + s.free % (us 10000 + 1)) (.sqStage i ok))) ∧
  (∀ (i : W32) (ok : Bool) (j : Job) (k : Nat) (s : State),
      s.mgt.jobs.find? (fun z => decide (z.idx = i.toNat) && decide (z.op = 0x10)) = some j →
      s.coreDown j.core = false →
      s.coreLive j.core = true →
      s.rgsShut j.core = false →
      j.stage = 1 →
      j.acc ≤ s.time.real →
      s.msramHeld = false →
      k = s.imgCheck (j.opnd 8 1) (j.opnd 12 4) ok (s.staged (j.opnd 12 4)) →
      k ≠ 0 →
      exec (.sqStage i ok) s = .next ((if s.roleState (j.opnd 8 1) = 1 then ((s.mgtErr 0x62 0 k 0).put (R.MGT_IMG_STAT_LAST_REJ (j.opnd 8 1)) k).setRole (j.opnd 8 1) 0 else (s.mgtErr 0x62 0 k 0).put (R.MGT_IMG_STAT_LAST_REJ (j.opnd 8 1)) k).jobEnd j 6 k)) ∧
  (∀ (i : W32) (ok : Bool) (j : Job) (s : State),
      s.mgt.jobs.find? (fun z => decide (z.idx = i.toNat) && decide (z.op = 0x10)) = some j →
      s.coreDown j.core = false →
      s.coreLive j.core = true →
      s.rgsShut j.core = false →
      j.stage = 2 →
      j.acc ≤ s.time.real →
      s.msramHeld = false →
      exec (.sqStage i ok) s = .next ((s.imgPersist (j.opnd 8 1) (s.staged (j.opnd 12 4))).jobEnd j 0 ((s.slotRec (j.opnd 8 1) (1 - s.f (R.MGT_IMG_STAT_SLOT (j.opnd 8 1)))).version + (1 - s.f (R.MGT_IMG_STAT_SLOT (j.opnd 8 1))) * 2 ^ 32))) ∧
  (∀ (r slot : Nat) (b : List Byte) (s : State),
      r < 4 →
      slot < 2 →
      imgField b 0x00C 4 ≤ slotSize r →
      (b.drop 0x100).length = imgField b 0x00C 4 →
      (s.imgCopy r slot b).1.cells (msram (slotOff r slot)) (imgField b 0x00C 4) = b.drop 0x100 ∧ s.sameCells (msram (slotOff r slot)) (imgField b 0x00C 4) (s.imgCopy r slot b).1 ∧
        (s.imgCopy r slot b).1.regs = s.regs) ∧
  (∀ (i : W32) (j : Job) (s : State),
      s.mgt.jobs.find? (fun z => decide (z.idx = i.toNat) && decide (z.op = 0x11)) = some j →
      s.coreDown j.core = false →
      s.coreLive j.core = true →
      s.rgsShut j.core = false →
      j.stage = 0 →
      s.jobTurn j = true →
      j.malformed = false →
      s.outOfRange j = false →
      s.roleState (j.opnd 8 1) = 2 →
      exec (.sqFwact i) s = .next ((ran s (exec (.mgtActWrite .sec (BitVec.ofNat 32 (j.opnd 8 1 + 2 ^ 31))) s)).sqStage j 1 (.sqFwact i))) ∧
  (∀ (i : W32) (j : Job) (s : State),
      s.mgt.jobs.find? (fun z => decide (z.idx = i.toNat) && decide (z.op = 0x11)) = some j →
      s.coreDown j.core = false →
      s.coreLive j.core = true →
      s.rgsShut j.core = false →
      j.stage = 1 →
      SMap.get 0 s.mgt.outcome (j.opnd 8 1) = 1 →
      exec (.sqFwact i) s = .next (s.jobEnd j 0 (s.f (R.MGT_IMG_VER_VERSION (j.opnd 8 1)))))

/-- The rise of PORST_N starts the management clock steps; each action of start-up that is due ends its step and begins the next within its bound, or
stops start-up with its cause; a BIST stage returns its cabinets and its leave and repairs rows as the procedure says; BOOT_LOCK is taken from SEC at
step 7 only and logged otherwise; a recovery restarts every core into the kernel and reloads the roles; a fall of PORST_N leaves flash and MSRAM and
puts the die into reset. Where the model chooses a duration, it is free within the bound of the rule. Where the spec leaves room this rests on the
model's own choices: log entries 59, 60, 62, 65, 66, 111. -/
def Obligations.StartUpRunsItsSteps : Prop :=
  (∀ (sfdp sig : Bool) (s : State),
      s.boot.stage = 0 →
      s.pwr.rtc.hidden = false →
      exec (.powerOnReset sfdp sig) s = .next (((({ s with boot := { s.boot with sfdp := sfdp, sig := sig }, pwr := { s.pwr with rtc := { s.pwr.rtc with hidden := false } }, time := { s.time with now := 0, slow := 0 } } : State).bootStep 2).bootNext 3 20000).arm .fab (us 1000) .hallmarkRound)) ∧
  (∀ (stage bound : Nat) (s : State),
      (s.bootNext stage bound).boot.stage = stage ∧ s.time.real ≤ (s.bootNext stage bound).boot.due ∧ (s.bootNext stage bound).boot.due ≤ s.time.real + ns bound ∧ (s.bootNext stage bound).regs = s.regs ∧ (s.bootNext stage bound).mem = s.mem) ∧
  (∀ (sfdp sig : Bool) (s : State),
      s.boot.stage = 3 →
      s.boot.due ≤ s.time.real →
      exec (.powerOnReset sfdp sig) s = .next ((s.bootCores.bootStep 3).bootNext 4 3200000)) ∧
  (∀ (sfdp sig : Bool) (s : State),
      s.boot.stage = 4 →
      s.boot.sfdp = true →
      s.boot.due ≤ s.time.real →
      exec (.powerOnReset sfdp sig) s = .next ((s.bootStep 4).bootNext 40 2600000)) ∧
  (∀ (sfdp sig : Bool) (s : State),
      s.boot.stage = 4 →
      s.boot.sfdp = false →
      s.boot.due ≤ s.time.real →
      ∃ t, exec (.powerOnReset sfdp sig) s = .next t ∧ t.boot.stage = 99 ∧ t.f R.HLM_BOOT_STAT_STOPPED = 1 ∧ t.f R.HLM_BOOT_STAT_CAUSE = 1 ∧ t.f R.HLM_BOOT_STAT_DETAIL = 0 ∧ t.f R.MGT_HINT_STAT_EVT = 1 ∧ t.events = s.events ∧ t.mem = s.mem ∧ s.sameRegs [R.HLM_BOOT_STAT, R.MGT_HINT_STAT] t) ∧
  (∀ (sfdp sig : Bool) (cause detail : Nat) (s : State),
      s.boot.stage = 40 →
      s.imageFail s.imageBytes s.boot.sig = some (cause, detail) →
      cause < 32 →
      detail < 2 ^ 16 →
      s.boot.due ≤ s.time.real →
      ∃ t, exec (.powerOnReset sfdp sig) s = .next t ∧ t.boot.stage = 99 ∧ t.f R.HLM_BOOT_STAT_STOPPED = 1 ∧ t.f R.HLM_BOOT_STAT_CAUSE = cause ∧ t.f R.HLM_BOOT_STAT_DETAIL = detail ∧ t.f R.MGT_HINT_STAT_EVT = 1 ∧ t.events = s.events ∧ t.mem = s.mem ∧ s.sameRegs [R.HLM_BOOT_STAT, R.MGT_HINT_STAT] t) ∧
  (∀ (sfdp sig : Bool) (s : State),
      s.boot.stage = 5 →
      s.boot.vid = true →
      exec (.powerOnReset sfdp sig) s = .next (s.bootNext 50 4000)) ∧
  (∀ (sfdp sig : Bool) (s : State),
      s.boot.stage = 5 →
      s.boot.vid = false →
      s.boot.due ≤ s.time.real →
      ∃ t, exec (.powerOnReset sfdp sig) s = .next t ∧ t.boot.stage = 99 ∧ t.f R.HLM_BOOT_STAT_STOPPED = 1 ∧ t.f R.HLM_BOOT_STAT_CAUSE = 16 ∧ t.f R.HLM_BOOT_STAT_DETAIL = 0 ∧ s.sameRegs [R.HLM_BOOT_STAT, R.MGT_HINT_STAT] t) ∧
  (∀ (sfdp sig : Bool) (s : State),
      s.boot.stage = 50 →
      s.boot.due ≤ s.time.real →
      exec (.powerOnReset sfdp sig) s = .next s.bootClocks.bistBegin) ∧
  (∀ (sfdp sig : Bool) (u : State) (s : State),
      s.boot.stage = 7 →
      u = s.loadDie (imgField s.imageBytes 0x01B 1) →
      s.boot.due ≤ s.time.real →
      exec (.powerOnReset sfdp sig) s = .next (if u.dies = 1 then (u.put R.HLM_HLM_STAT_SYNCED 1).step7 else (({ u with boot := { u.boot with stage := 70, limit := u.time.real + us 100000 } } : State).bootPoll))) ∧
  (∀ (sfdp sig : Bool) (s : State),
      s.boot.stage = 8 →
      s.boot.due ≤ s.time.real →
      exec (.powerOnReset sfdp sig) s = .next ((({ s with rep := { s.rep with startSet := s.genSet 0 } } : State).put R.HLM_BOOT_CTL_BOOT_LOCK 1).bootStep 8 |>.bootNext 9 11000000)) ∧
  (∀ (sfdp sig : Bool) (s : State),
      s.boot.stage = 10 →
      s.msramHeld = false →
      s.boot.due ≤ s.time.real →
      exec (.powerOnReset sfdp sig) s = .next (({ (s.clearRings.bootStep 10) with boot := { s.boot with stage := 11 } } : State).splitRoles)) ∧
  (∀ (sfdp sig : Bool) (s : State),
      s.boot.stage = 12 →
      s.boot.wake.any (fun p => s.bit (cabBusy p)) = false →
      s.boot.due ≤ s.time.real →
      exec (.powerOnReset sfdp sig) s = .next ((s.bootStep 12).bootNext 13 100000)) ∧
  (∀ (sfdp sig : Bool) (s : State),
      s.boot.stage = 13 →
      s.boot.due ≤ s.time.real →
      ∃ t, exec (.powerOnReset sfdp sig) s = .next t ∧ t.f R.HLM_BOOT_STAT_STEP = 13 ∧ t.events = (0, 0x30, s.doneDetail) :: s.events ∧ t.mgt.bell = true ∧ t.boot.stage = 90 ∧ s.sameRegs [R.HLM_BOOT_STAT] t) ∧
  (∀ (found : List BistCab) (k : Nat) (cabs : List Nat) (w u s : State),
      s.boot.stage = 6 →
      k = s.boot.bist →
      s.leaveHas (.bist k) = true →
      cabs = s.bistCabs k →
      w = ((cabs.foldl (fun (z : State) (p : Nat) => z.loseStore p) (cabs.foldl (fun (z : State) (p : Nat) => if z.boot.fences.contains p then z else z.imageRemaps p) (cabs.foldl (fun (z : State) (p : Nat) => (found.find? (fun (x : BistCab) => decide (x.cab.val = p))).elim z (fun (x : BistCab) => z.bistCab x)) s))).leaveBack (.bist k)) →
      u = { w with boot := { w.boot with bist := k + 1 } } →
      (u.bistCabs (k + 1)).isEmpty = true →
      u.boot.cabs.all (fun p => u.boot.fences.contains p) = false →
      exec (.bistStageEnd found) s = .next ((u.bootStep 6).bootNext 7 50000)) ∧
  (∀ (found : List BistCab) (k : Nat) (cabs : List Nat) (w u s : State),
      s.boot.stage = 6 →
      k = s.boot.bist →
      s.leaveHas (.bist k) = true →
      cabs = s.bistCabs k →
      w = ((cabs.foldl (fun (z : State) (p : Nat) => z.loseStore p) (cabs.foldl (fun (z : State) (p : Nat) => if z.boot.fences.contains p then z else z.imageRemaps p) (cabs.foldl (fun (z : State) (p : Nat) => (found.find? (fun (x : BistCab) => decide (x.cab.val = p))).elim z (fun (x : BistCab) => z.bistCab x)) s))).leaveBack (.bist k)) →
      u = { w with boot := { w.boot with bist := k + 1 } } →
      (u.bistCabs (k + 1)).isEmpty = false →
      exec (.bistStageEnd found) s = .next (u.bistAsk (k + 2))) ∧
  (∀ (p : Cab) (x : BistCab) (k : Nat) (s : State),
      s.boot.stage = 6 →
      k = s.boot.bist →
      s.leaveHas (.bist k) = true →
      s.boot.cabs = [p.val] →
      k = 0 →
      s.boot.fences = [] →
      x.cab = p →
      x.validBad = true →
      ∃ t, exec (.bistStageEnd [x]) s = .next t ∧ t.boot.stage = 99 ∧ t.f R.HLM_BOOT_STAT_STOPPED = 1 ∧ t.f R.HLM_BOOT_STAT_CAUSE = 13 ∧ t.boot.fences = [p.val]) ∧
  (bistMac (((List.range 38).map (fun i => (100 * i + 40, 11))) ++ [(17, 11), (2100, 11), (17, 3), (2051, 3)]) [] = 11 ∧ failRows (((List.range 38).map (fun i => (100 * i + 40, 11))) ++ [(17, 11), (2100, 11), (17, 3), (2051, 3)]) [11] = [17, 2051] ∧ (failRows (((List.range 38).map (fun i => (100 * i + 40, 11))) ++ [(17, 11), (2100, 11), (17, 3), (2051, 3)]) []).length = 41) ∧
  (∀ (p b row i : Nat) (s : State),
      p < 128 →
      b < 32 →
      row < 4096 →
      i < 8 →
      s.freeSpare p b = some i →
      s.bistRemap p b [row] = (s.setEntry p b i row 1 false).inc R.HLM_BIST_STAT_REMAPS) ∧
  (∀ (v : W32) (u s : State),
      s.f R.HLM_BOOT_STAT_STEP = 7 →
      u = (({ s with rep := { s.rep with startSet := s.genSet 0 }, boot := { s.boot with stage := 8, due := s.time.real } } : State).put R.HLM_BOOT_CTL_BOOT_LOCK 1).later .real 0 (.powerOnReset s.boot.sfdp s.boot.sig) →
      s.rgsShut (masterIdx .sec) = false →
      exec (.bootLock .sec v) s = .next (if vbit v 1 then u.startMark else u)) ∧
  (∀ (m : Master) (v : W32) (s : State),
      m ≠ .sec ∨ s.f R.HLM_BOOT_STAT_STEP ≠ 7 →
      vbit v 1 = false →
      s.rgsShut (masterIdx m) = false →
      exec (.bootLock m v) s = .next (s.locked (masterReq m) (s.ca R.HLM_BOOT_CTL))) ∧
  (∀ (s : State),
      s.mgt.recover = 1 →
      s.calm = true →
      s.bit R.MGT_MODE_MODE = true →
      s.mgt.seqs.any (fun q => decide (q.kind = SeqKind.split)) = false →
      ∃ t, exec .recoveryStart s = .next t ∧ t.mgt.recover = 2 ∧ t.f R.MGT_MODE_MODE = 0 ∧ t.f R.MGT_MODE_RECOVERING = 1 ∧ (∀ c ∈ s.cores, c ∉ t.masked ∧ t.f (R.MGT_REMAP_REMAP c) = 0 ∧ t.f (R.MGT_WDT_STAT_FAILS c) = 0 ∧ t.bit (R.MGT_WDT_STAT_DOWN c) = false) ∧ s.time.real ≤ t.mgt.recoverAt ∧ t.mgt.recoverAt ≤ s.time.real + us 50000 ∧ t.mem = s.mem) ∧
  (∀ (s : State),
      s.mgt.recover = 2 →
      s.mgt.recoverAt ≤ s.time.real →
      s.msramHeld = false →
      exec .recoveryStart s = .next (({ s.loadRoles.1 with mgt := { s.loadRoles.1.mgt with recover := 3 } } : State).splitRoles)) ∧
  (∀ (s : State),
      ∃ t, exec .porstFall s = .next t ∧ t.boot.stage = 0 ∧ t.ties = s.ties ∧ t.pending = s.pending ∧ t.f R.HLM_BOOT_STAT_STEP = 0 ∧ t.bootLocked = false ∧ (∀ a, t.cell a = (if msram 0 ≤ a then s.cell a else 0)) ∧ t.valid = [] ∧ t.f R.DBG_SESSION_OPEN = s.f R.DBG_SESSION_OPEN ∧ t.f R.PWR_VID_CFG_ACK = s.f R.PWR_VID_CFG_ACK ∧ (∀ (p : Cab) (b : Bank), t.reg (R.BNK_RETIRE p b) = 0) ∧ (∀ x, x ∈ s.present → x ∈ t.present))

/-- STIME_SYNC of SEC on die 0 sends a start mark and sets SYNCED unless a context is bound; a die that receives a first mark loads the schedule time it
carries plus 44 fc a crossing and forwards it; a computation that is over stores the digest of the record; at a round instant a die with rounds on
sends its Hallmark or a changing notice to every other die and sets MISSING for those not heard; a Hallmark heard is kept and MISMATCH follows the
second difference in a row and the first agreement. Where the spec leaves room this rests on the model's own choices: log entries 64, 97. -/
def Obligations.TimeAndHallmarksCrossTheDies : Prop :=
  (∀ (m : Master) (v : W32) (s : State),
      m = .sec →
      vbit v 0 = false →
      s.die = 0 →
      (List.range 16).any (fun c => decide (s.ctxState c = 2)) = false →
      s.rgsShut (masterIdx m) = false →
      exec (.stimeSync m v) s = .next ((({ s with boot := { s.boot with mark := some s.time.stime } } : State).send (.startMark s.time.stime 1)).put R.HLM_HLM_STAT_SYNCED 1)) ∧
  (∀ (m : Master) (v : W32) (s : State),
      vbit v 0 = true →
      s.rgsShut (masterIdx m) = false →
      exec (.stimeSync m v) s = exec (.bootLock m (v ||| 2)) s) ∧
  (∀ (m : Master) (v : W32) (s : State),
      m ≠ .sec →
      vbit v 0 = false →
      s.rgsShut (masterIdx m) = false →
      exec (.stimeSync m v) s = .next (s.locked (masterReq m) (s.ca R.HLM_BOOT_CTL))) ∧
  (∀ (lane : Fin 8) (v : W64) (h : Fin 8) (s : State),
      s.boot.mark ≠ some v.toNat →
      (List.range 16).any (fun c => decide (s.ctxState c = 2)) = false →
      exec (.startMarkReceive lane v h) s = .next ((({ s with boot := { s.boot with mark := some v.toNat }, time := { s.time with stime := v.toNat + 44 * h.val } } : State).send (.startMark v.toNat (h.val + 1)) none (some lane.val)).put R.HLM_HLM_STAT_SYNCED 1)) ∧
  (∀ (lane : Fin 8) (v : W64) (h : Fin 8) (s : State),
      s.boot.mark = some v.toNat ∨ (List.range 16).any (fun c => decide (s.ctxState c = 2)) = true →
      exec (.startMarkReceive lane v h) s = .next s) ∧
  (∀ (x : Nat) (s : State),
      s.boot.hallAt = some x →
      x ≤ s.time.real →
      s.boot.hallRec.length < 2 ^ 16 →
      ∃ t, exec .hallmarkComputationEnd s = .next t ∧ (∀ j, j < 12 → t.reg (R.HLM_HASH j) = BitVec.ofNat 32 (sha s.boot.hallRec / 2 ^ (32 * j))) ∧ t.f R.HLM_REC_LEN_LEN = s.boot.hallRec.length ∧ t.f R.HLM_HLM_STAT_CHANGING = 0 ∧ t.f R.HLM_HLM_STAT_VALID = 1 ∧ t.boot.hallAt = none ∧ t.mem = s.mem ∧ s.sameRegs (R.HLM_HLM_STAT :: R.HLM_REC_LEN :: (List.range 12).map R.HLM_HASH) t) ∧
  (∀ (n : Nat) (others : List Nat) (u s : State),
      n = s.time.now / us 1000 →
      n ≠ 0 →
      s.boot.roundAt ≠ 0 →
      s.boot.roundAt ≠ n →
      s.dies ≠ 0 →
      others = (List.range s.dies).filter (fun e => decide (e ≠ s.die)) →
      u = { (others.foldl (fun z e => z.putb (hallBit 16 e) (!s.boot.heard.contains e)) (s.arm .fab (us (1000 * (n + 1)) - s.time.now) .hallmarkRound)) with boot := { s.boot with heard := [], roundAt := n } } →
      exec .hallmarkRound s = .next (if u.bit R.HLM_CFG_ROUND_EN then (others.foldl (fun z e => z.side e (.round s.die (if u.hallReady then some ((List.range 12).map (fun j => u.reg (R.HLM_HASH j))) else none))) u).inc R.HLM_ROUNDS_COUNT else u)) ∧
  (∀ (lane die : Fin 8) (s : State),
      die.val ≠ s.die →
      exec (.roundMessage lane die none) s = .next (({ s with boot := { s.boot with heard := insertNum die s.boot.heard } } : State).put (hallBit 16 die) 0)) ∧
  (∀ (lane die : Fin 8) (h : List W32) (s : State),
      die.val ≠ s.die →
      s.hallReady = true →
      h.length = 12 →
      h ≠ (List.range 12).map (fun j => s.reg (R.HLM_HASH j)) →
      SMap.get 0 s.boot.differ die + 1 = s.boot.roundAt →
      1 < s.boot.roundAt →
      s.bit (hallBit 8 die) = false →
      ∃ t, exec (.roundMessage lane die (some h)) s = .next t ∧ t.bit (hallBit 8 die) = true ∧ t.bit (hallBit 16 die) = false ∧ (∀ j, j < 12 → t.reg (R.HLM_PEER die j) = h.getD j 0) ∧ t.detected = s.detected ++ [{ ({ kind := 0x78, req := 28, cab := none, data := 0x80000 + die.val } : ErrRec) with time := s.now }] ∧ t.events = s.events ++ [(0, 0x31, die.val + 256)] ∧ s.sameRegs (R.HLM_HLM_STAT :: (List.range 12).map (R.HLM_PEER die)) t) ∧
  (∀ (lane die : Fin 8) (h : List W32) (s : State),
      die.val ≠ s.die →
      s.hallReady = true →
      h.length = 12 →
      h ≠ (List.range 12).map (fun j => s.reg (R.HLM_HASH j)) →
      SMap.get 0 s.boot.differ die + 1 ≠ s.boot.roundAt →
      ∃ t, exec (.roundMessage lane die (some h)) s = .next t ∧ t.bit (hallBit 8 die) = s.bit (hallBit 8 die) ∧ SMap.get 0 t.boot.differ die = s.boot.roundAt ∧ t.detected = s.detected ∧ t.events = s.events ∧ s.sameRegs (R.HLM_HLM_STAT :: (List.range 12).map (R.HLM_PEER die)) t) ∧
  (∀ (lane die : Fin 8) (h : List W32) (s : State),
      die.val ≠ s.die →
      s.hallReady = true →
      h = (List.range 12).map (fun j => s.reg (R.HLM_HASH j)) →
      s.bit (hallBit 8 die) = true →
      ∃ t, exec (.roundMessage lane die (some h)) s = .next t ∧ t.bit (hallBit 8 die) = false ∧ t.detected = s.detected ∧ t.events = s.events ++ [(0, 0x31, die.val)] ∧ s.sameRegs (R.HLM_HLM_STAT :: (List.range 12).map (R.HLM_PEER die)) t)

/-- Loading IDCODE, IJTAG or BYPASS closes an open session and captures the identification, one 0 of a closed network or one bit (what BYPASS captures is
a free value); loading DBG_ACC opens and counts a session; GO starts one transfer of DBG a management cycle later; a capture shows the outcome and
clears it; HALT raises the debug freeze; the host DMA port takes a request with a free tag and presents the first completion. Where the spec leaves
room this rests on the model's own choices: log entries 67, 68. -/
def Obligations.TestAndDebugPortsAnswer : Prop :=
  (∀ (s : State),
      exec .tapIdcode s = .next { s.closeSession with test := { s.closeSession.test with ir := 0x01, captured := s.idcode } }) ∧
  (∀ (s : State),
      s.session = false →
      s.closeSession = s) ∧
  (∀ (s : State),
      s.ties.jep106 < 2048 →
      s.idcode % 2 = 1 ∧ s.idcode / 2 % 2048 = s.ties.jep106 ∧ s.idcode / 2 ^ 12 % 2 ^ 16 = 0x4E39 ∧ s.idcode / 2 ^ 28 = 3) ∧
  (∀ (s : State),
      s.bit R.MGT_MODE_MODE = true →
      s.bit R.HLM_BOOT_STAT_STOPPED = false →
      exec .tapIjtag s = .next { s.closeSession with test := { s.closeSession.test with ir := 0x08, captured := 0 } }) ∧
  (∀ (s : State),
      s.ijtagOpen = true →
      exec .tapIjtag s = .next { s.useFree.closeSession with test := { s.useFree.closeSession.test with ir := 0x08, captured := s.free } }) ∧
  (∀ (s : State),
      exec .tapBypass s = .next { s.useFree.closeSession with test := { s.useFree.closeSession.test with ir := 0x1F, captured := (s.free % 2) } }) ∧
  (∀ (s : State),
      s.session = false →
      exec .debugSessionOpen s = .next (((({ s with test := { ir := 0x09, busy := false, done := none, captured := s.test.captured } } : State).put R.DBG_SESSION_OPEN 1).inc R.DBG_SESSION_COUNT).latchWake 5)) ∧
  (∀ (s : State),
      s.session = true →
      exec .debugSessionOpen s = .next s) ∧
  (∀ (s : State),
      s.session = true →
      ∃ t, exec .debugSessionClose s = .next t ∧ t.session = false ∧ t.f R.DBG_HALT_HALT = 0 ∧ FrzSrc.debug ∉ t.frz.lines ∧ (FrzSrc.debug ∈ s.frz.lines → t.frz.ends = s.frz.ends ++ [(FrzSrc.debug, s.time.fc + 3 + (if s.frz.starts.any (fun e => decide (e.1 = FrzSrc.debug) && decide (s.time.fc + 3 ≤ e.2)) then 1 else 0))]) ∧ t.test.busy = false ∧ t.test.done = none ∧ t.test.ir = 0x01 ∧ t.test.captured = s.idcode) ∧
  (∀ (write : Bool) (strobes : Byte) (laddr : W32) (data : W64) (s : State),
      s.session = true →
      s.test.busy = false →
      exec (.dbgAccUpdate write true strobes laddr data) s = .next (({ s with test := { s.test with busy := true, done := none } } : State).later .real (ns 1) (.cmxRequest .dbg write laddr strobes data))) ∧
  (∀ (write go : Bool) (strobes : Byte) (laddr : W32) (data : W64) (s : State),
      s.session = false ∨ go = false ∨ s.test.busy = true →
      exec (.dbgAccUpdate write go strobes laddr data) s = .next s) ∧
  (∀ (v : Nat) (r : Resp) (s : State),
      s.test.ir = 0x09 →
      s.session = true →
      s.test.done = some (v, r) →
      exec .dbgAccCapture s = .next { s with test := { s.test with done := none, captured := respCode r + 4 + 8 + v % 2 ^ 64 * 16 } }) ∧
  (∀ (v : W32) (s : State),
      vbit v 0 = true →
      s.rgsShut (masterIdx .dbg) = false →
      ∃ t, exec (.debugHalt .dbg v) s = .next t ∧ t.f R.DBG_HALT_HALT = 1 ∧ FrzSrc.debug ∈ t.frz.lines ∧ (FrzSrc.debug ∉ s.frz.lines → s.frz.ends = [] → t.frz.starts = s.frz.starts ++ [(.debug, s.time.fc + 3)]) ∧ s.sameRegs [R.DBG_HALT] t) ∧
  (∀ (v : W32) (s : State),
      vbit v 0 = false →
      s.rgsShut (masterIdx .dbg) = false →
      ∃ t, exec (.debugHalt .dbg v) s = .next t ∧ t.f R.DBG_HALT_HALT = 0 ∧ FrzSrc.debug ∉ t.frz.lines ∧ s.sameRegs [R.DBG_HALT] t) ∧
  (∀ (m : Master) (v : W32) (s : State),
      m ≠ .dbg →
      s.rgsShut (masterIdx m) = false →
      exec (.debugHalt m v) s = .next (s.locked (masterReq m) (s.ca R.DBG_HALT))) ∧
  (∀ (we : Bool) (addr : BitVec 26) (be : W64) (data : List W256) (ctx : Ctx) (tag : Fin 64) (home p : Nat) (q : LReq) (u : State) (s : State),
      s.ties.hdp = true →
      s.isPresent .hdp = true →
      s.hdpReqs.length < 64 →
      s.hdpReqs.all (fun e => decide (e.tag ≠ tag.val)) = true →
      home = s.ties.hdpHome % 128 →
      s.dieAsleep = false →
      s.fenced home = false →
      q = { id := s.loose.nextId, req := 9, home := home, homeDie := s.die, org := .hdp tag, cls := .host, ctx := some ctx.val, fa := addr.toNat * 64, we := we, be := (if we then be.toNat else 2 ^ 64 - 1), dat := data, op := .acc } →
      u = ({ s.fresh with loose := { s.fresh.loose with ports := s.loose.ports ++ [{ cab := 128, port := 0, tag := tag, id := s.loose.nextId, we := we, fa := addr.toNat * 64, gate := 0, ans := none }] } } : State) →
      u.target .host we (some ctx.val) (addr.toNat * 64) = .at' p →
      servedIn false (u.pow p) = true →
      exec (.hdpRequest we addr be data ctx tag) s = .next ((if we then u.undrain q.id home 9 else u).launch q none home p s.die (u.injLevel home 9 false))) ∧
  (∀ (we : Bool) (addr : BitVec 26) (be : W64) (data : List W256) (ctx : Ctx) (tag : Fin 64) (s : State),
      s.ties.hdp = false ∨ s.isPresent .hdp = false ∨ 64 ≤ s.hdpReqs.length ∨ s.hdpReqs.any (fun e => decide (e.tag = tag.val)) = true →
      exec (.hdpRequest we addr be data ctx tag) s = .next s) ∧
  (∀ (e : PortReq) (a : Ans) (u s : State),
      s.hdpReqs.find? (fun x => x.ans.isSome) = some e →
      e.ans = some a →
      u = ({ s with loose := { s.loose with ports := s.loose.ports.filter (fun x => !decide (x.id = e.id)) } } : State).present! 1024 { at' := s.time.fc, tag := e.tag, dat := if e.we then [0, 0] else a.dat, zero := a.zero, sb := 0, resp := a.resp } →
      exec .hdpCompletion s = .next (if u.hdpReqs.any (fun x => x.ans.isSome) then u.arm .real (ns 1) .hdpCompletion else u))

/-- A control access of an unmasked master of an awake die to a register whose station answers performs its write or its read there and is answered OK; a
read of a lower half latches the upper one for its master, which the next read of that half returns; a write of a lower half is held for its master
until the upper one is written. Read-clear fields clear. A station that refuses answers FAULT or ASLEEP and an address that is not decoded ZERO, with
no other effect than the count and record of the miss. Where the spec leaves room this rests on the model's own choices: log entries 69, 76, 92. -/
def Obligations.ControlAccessesReachTheirRegisters : Prop :=
  (∀ (m : Master) (ca v : W32) (h : Option CaHit) (k : Nat) (via : Option Nat) (s : State) (t : State),
      s.cmx.locks.any (fun l => decide (l.1 = 3) && decide (l.2.2 < 2 ^ 32)) = false →
      s.mMasked (masterIdx m) = false →
      s.halts (masterIdx m) = false →
      ca.toNat / 2 ^ 29 = s.die →
      h = s.caDecode (ca.toNat % 2 ^ 29) →
      s.notAwake ({ m := masterIdx m, tgt := 3, write := true, lock := false, la := 0x40000000 + ca.toNat % 2 ^ 29, str := 0xFF, dat := laneOfWord (0x40000000 + ca.toNat % 2 ^ 29) v, rel := some s.cyc } : CmxReq) = false →
      h = some { key := k, station := via } →
      s.station { key := k, station := via } = .go →
      t = s.ctlWrite m k (Fin.ofNat 128 (via.getD 0)) v →
      exec (.registerWrite m ca v) s = .next ((t).respond { req := { m := masterIdx m, tgt := 3, write := false, lock := false, la := 0x40000000 + ca.toNat % 2 ^ 29, str := 0xFF, dat := laneOfWord (0x40000000 + ca.toNat % 2 ^ 29) v, rel := some s.cyc }, id := 0, ans := some (0, .ok), due := 0, lost := none } (0, .ok))) ∧
  (∀ (m : Master) (ca v : W32) (h : Option CaHit) (k : Nat) (via : Option Nat) (r : Resp) (s : State),
      s.cmx.locks.any (fun l => decide (l.1 = 3) && decide (l.2.2 < 2 ^ 32)) = false →
      s.mMasked (masterIdx m) = false →
      s.halts (masterIdx m) = false →
      ca.toNat / 2 ^ 29 = s.die →
      h = s.caDecode (ca.toNat % 2 ^ 29) →
      s.notAwake ({ m := masterIdx m, tgt := 3, write := true, lock := false, la := 0x40000000 + ca.toNat % 2 ^ 29, str := 0xFF, dat := laneOfWord (0x40000000 + ca.toNat % 2 ^ 29) v, rel := some s.cyc } : CmxReq) = false →
      h = some { key := k, station := via } →
      s.station { key := k, station := via } = .no r →
      exec (.registerWrite m ca v) s = .next ((s).respond { req := { m := masterIdx m, tgt := 3, write := false, lock := false, la := 0x40000000 + ca.toNat % 2 ^ 29, str := 0xFF, dat := laneOfWord (0x40000000 + ca.toNat % 2 ^ 29) v, rel := some s.cyc }, id := 0, ans := some (0, r), due := 0, lost := none } (0, r))) ∧
  (∀ (m : Master) (ca v : W32) (h : Option CaHit) (u : State) (s : State),
      s.cmx.locks.any (fun l => decide (l.1 = 3) && decide (l.2.2 < 2 ^ 32)) = false →
      s.mMasked (masterIdx m) = false →
      s.halts (masterIdx m) = false →
      ca.toNat / 2 ^ 29 = s.die →
      h = s.caDecode (ca.toNat % 2 ^ 29) →
      s.notAwake ({ m := masterIdx m, tgt := 3, write := true, lock := false, la := 0x40000000 + ca.toNat % 2 ^ 29, str := 0xFF, dat := laneOfWord (0x40000000 + ca.toNat % 2 ^ 29) v, rel := some s.cyc } : CmxReq) = false →
      h = none →
      u = s.decodeMiss (masterReq m) 4 ca.toNat →
      exec (.registerWrite m ca v) s = .next ((u).respond { req := { m := masterIdx m, tgt := 3, write := true, lock := false, la := 0x40000000 + ca.toNat % 2 ^ 29, str := 0xFF, dat := laneOfWord (0x40000000 + ca.toNat % 2 ^ 29) v, rel := some s.cyc }, id := 0, ans := none, due := 0, lost := none } (0, .zero))) ∧
  (∀ (req cause addr : Nat) (s : State),
      (s.decodeMiss req cause addr).detected = s.detected ++ [{ ({ kind := 0x44, req := req, cab := none, addr := addr, data := 0x40000 + cause } : ErrRec) with time := s.now }] ∧ (s.decodeMiss req cause addr).f R.CMX_DECODE_CNT_COUNT = min (s.f R.CMX_DECODE_CNT_COUNT + 1) (2 ^ 32 - 1) ∧ s.sameRegs [R.CMX_DECODE_CNT] (s.decodeMiss req cause addr)) ∧
  (∀ (m : Master) (k : Nat) (v : W32) (s : State),
      s.bootLocked = false →
      (s.plainWrite m k v).reg k = mergeFields false (keyFlds k) v (s.reg k) ∧ s.sameRegs [k] (s.plainWrite m k v) ∧ (s.plainWrite m k v).detected = s.detected) ∧
  (∀ (m : Master) (ca : W32) (h : Option CaHit) (k : Nat) (via : Option Nat) (s : State),
      s.cmx.locks.any (fun l => decide (l.1 = 3) && decide (l.2.2 < 2 ^ 32)) = false →
      s.mMasked (masterIdx m) = false →
      s.halts (masterIdx m) = false →
      ca.toNat / 2 ^ 29 = s.die →
      h = s.caDecode (ca.toNat % 2 ^ 29) →
      s.notAwake ({ m := masterIdx m, tgt := 3, write := false, lock := false, la := 0x40000000 + ca.toNat % 2 ^ 29, str := 0xFF, dat := laneOfWord (0x40000000 + ca.toNat % 2 ^ 29) 0, rel := some s.cyc } : CmxReq) = false →
      h = some { key := k, station := via } →
      s.station { key := k, station := via } = .go →
      isLo k = false →
      s.hiLatch.find? (fun e => decide (e.1 = masterIdx m) && decide (e.2.1 = k)) = none →
      exec (.rcRead m ca) s = .next ((s.clearRc k).respond { req := { m := masterIdx m, tgt := 3, write := false, lock := false, la := 0x40000000 + ca.toNat % 2 ^ 29, str := 0xFF, dat := laneOfWord (0x40000000 + ca.toNat % 2 ^ 29) 0, rel := some s.cyc }, id := 0, ans := some (laneOfWord (0x40000000 + ca.toNat % 2 ^ 29) (s.view k), .ok), due := 0, lost := none } (laneOfWord (0x40000000 + ca.toNat % 2 ^ 29) (s.view k), .ok))) ∧
  (∀ (hi lo k : Nat) (s : State),
      keyFlds k = [(hi, lo, .rc)] →
      hi < 32 →
      lo ≤ hi →
      (s.clearRc k).f { key := k, hi := hi, lo := lo } = 0 ∧ s.sameRegs [k] (s.clearRc k)) ∧
  (∀ (m : Master) (ca : W32) (h : Option CaHit) (k : Nat) (via : Option Nat) (s : State),
      s.cmx.locks.any (fun l => decide (l.1 = 3) && decide (l.2.2 < 2 ^ 32)) = false →
      s.mMasked (masterIdx m) = false →
      s.halts (masterIdx m) = false →
      ca.toNat / 2 ^ 29 = s.die →
      h = s.caDecode (ca.toNat % 2 ^ 29) →
      s.notAwake ({ m := masterIdx m, tgt := 3, write := false, lock := false, la := 0x40000000 + ca.toNat % 2 ^ 29, str := 0xFF, dat := laneOfWord (0x40000000 + ca.toNat % 2 ^ 29) 0, rel := some s.cyc } : CmxReq) = false →
      h = some { key := k, station := via } →
      s.station { key := k, station := via } = .go →
      isLo k = true →
      exec (.loReadLatch m ca) s = .next (((s.latchHi (masterIdx m) (k + 4)).clearRc k).respond { req := { m := masterIdx m, tgt := 3, write := false, lock := false, la := 0x40000000 + ca.toNat % 2 ^ 29, str := 0xFF, dat := laneOfWord (0x40000000 + ca.toNat % 2 ^ 29) 0, rel := some s.cyc }, id := 0, ans := some (laneOfWord (0x40000000 + ca.toNat % 2 ^ 29) (s.view k), .ok), due := 0, lost := none } (laneOfWord (0x40000000 + ca.toNat % 2 ^ 29) (s.view k), .ok))) ∧
  (∀ (m : Master) (ca : W32) (h : Option CaHit) (k : Nat) (via : Option Nat) (s : State) (x : W32),
      s.cmx.locks.any (fun l => decide (l.1 = 3) && decide (l.2.2 < 2 ^ 32)) = false →
      s.mMasked (masterIdx m) = false →
      s.halts (masterIdx m) = false →
      ca.toNat / 2 ^ 29 = s.die →
      h = s.caDecode (ca.toNat % 2 ^ 29) →
      s.notAwake ({ m := masterIdx m, tgt := 3, write := false, lock := false, la := 0x40000000 + ca.toNat % 2 ^ 29, str := 0xFF, dat := laneOfWord (0x40000000 + ca.toNat % 2 ^ 29) 0, rel := some s.cyc } : CmxReq) = false →
      h = some { key := k, station := via } →
      s.station { key := k, station := via } = .go →
      isLo k = false →
      s.hiLatch.find? (fun e => decide (e.1 = masterIdx m) && decide (e.2.1 = k)) = some (masterIdx m, k, x) →
      exec (.loReadLatch m ca) s = .next (({ s with hiLatch := s.hiLatch.filter (fun e => !(decide (e.1 = masterIdx m) && decide (e.2.1 = k))) }).respond { req := { m := masterIdx m, tgt := 3, write := false, lock := false, la := 0x40000000 + ca.toNat % 2 ^ 29, str := 0xFF, dat := laneOfWord (0x40000000 + ca.toNat % 2 ^ 29) 0, rel := some s.cyc }, id := 0, ans := some (laneOfWord (0x40000000 + ca.toNat % 2 ^ 29) (x), .ok), due := 0, lost := none } (laneOfWord (0x40000000 + ca.toNat % 2 ^ 29) (x), .ok))) ∧
  (∀ (m : Master) (ca v : W32) (s : State),
      exec (.pairLoWrite m ca v) s = exec (.registerWrite m ca v) s) ∧
  (∀ (m : Master) (ca v : W32) (s : State),
      exec (.pairHiWrite m ca v) s = exec (.registerWrite m ca v) s) ∧
  (∀ (m : Master) (ca : W32) (s : State),
      exec (.loReadLatch m ca) s = exec (.rcRead m ca) s) ∧
  (∀ (m : Master) (ca v : W32) (h : Option CaHit) (k : Nat) (via : Option Nat) (s : State),
      s.cmx.locks.any (fun l => decide (l.1 = 3) && decide (l.2.2 < 2 ^ 32)) = false →
      s.mMasked (masterIdx m) = false →
      s.halts (masterIdx m) = false →
      ca.toNat / 2 ^ 29 = s.die →
      h = s.caDecode (ca.toNat % 2 ^ 29) →
      s.notAwake ({ m := masterIdx m, tgt := 3, write := true, lock := false, la := 0x40000000 + ca.toNat % 2 ^ 29, str := 0xFF, dat := laneOfWord (0x40000000 + ca.toNat % 2 ^ 29) v, rel := some s.cyc } : CmxReq) = false →
      h = some { key := k, station := via } →
      s.station { key := k, station := via } = .go →
      isLoW k = true →
      s.loOk m k = true →
      ∃ t, exec (.pairLoWrite m ca v) s = .next t ∧ t.loHeld = s.loHeld.filter (fun e => !(decide (e.1 = masterIdx m) && decide (e.2.1 = k))) ++ [(masterIdx m, k, v)] ∧ t.regs = s.regs ∧ t.mem = s.mem ∧ t.detected = s.detected) ∧
  (∀ (m : Master) (ca v : W32) (h : Option CaHit) (k : Nat) (via : Option Nat) (s : State) (u : State),
      s.cmx.locks.any (fun l => decide (l.1 = 3) && decide (l.2.2 < 2 ^ 32)) = false →
      s.mMasked (masterIdx m) = false →
      s.halts (masterIdx m) = false →
      ca.toNat / 2 ^ 29 = s.die →
      h = s.caDecode (ca.toNat % 2 ^ 29) →
      s.notAwake ({ m := masterIdx m, tgt := 3, write := true, lock := false, la := 0x40000000 + ca.toNat % 2 ^ 29, str := 0xFF, dat := laneOfWord (0x40000000 + ca.toNat % 2 ^ 29) v, rel := some s.cyc } : CmxReq) = false →
      h = some { key := k, station := via } →
      s.station { key := k, station := via } = .go →
      m = .sec →
      k = R.TIM_SET_HI →
      s.bootLocked = false →
      u = ((((s.takeLo m R.TIM_SET_LO).1.setReg R.TIM_SET_LO (s.takeLo m R.TIM_SET_LO).2).setReg R.TIM_SET_HI v).setNow ((s.takeLo m R.TIM_SET_LO).2.toNat + v.toNat * 2 ^ 32)) →
      exec (.pairHiWrite m ca v) s = .next ((u).respond { req := { m := masterIdx m, tgt := 3, write := false, lock := false, la := 0x40000000 + ca.toNat % 2 ^ 29, str := 0xFF, dat := laneOfWord (0x40000000 + ca.toNat % 2 ^ 29) v, rel := some s.cyc }, id := 0, ans := some (0, .ok), due := 0, lost := none } (0, .ok))) ∧
  (∀ (o : CmxOut) (a : Nat × Resp) (s : State),
      o.req.rel.isSome = true →
      o.req.write = false →
      o.req.m ≠ 11 →
      s.respond o a = s.present! (2000 + o.req.m) { at' := s.time.fc, tag := 0, dat := [BitVec.ofNat 256 a.1], zero := [], sb := 0, resp := a.2 }) ∧
  (∀ (o : CmxOut) (a : Nat × Resp) (s : State),
      o.req.rel.isSome = true →
      o.req.write = false →
      o.req.m = 11 →
      (s.respond o a).test = { s.test with busy := false, done := some a } ∧ (s.respond o a).regs = s.regs ∧ (s.respond o a).mem = s.mem)

/-- A master that is neither masked nor halted presents its transfer, and its target decides; a target grants the one released transfer that waits for it
and parks on its master, whose access starts on the next cycle; a write of MSRAM changes the strobed bytes; the oldest answer that is due is presented
to its master; while a locked sequence holds the registers a register write of another master waits and comes on the next cycle; an access that its
station has left unanswered for 1024 fc is answered zero with FAULT. Where the spec leaves room this rests on the model's own choices: log entries 52,
71, 72, 73, 75, 76. -/
def Obligations.TheControlMatrixServesTransfers : Prop :=
  (∀ (m : Master) (write : Bool) (laddr : W32) (strobes : Byte) (data : W64) (s : State),
      s.mMasked (masterIdx m) = false →
      s.halts (masterIdx m) = false →
      exec (.cmxRequest m write laddr strobes data) s = .next (({ s with cmx := { s.cmx with waiting := s.cmx.waiting ++ [{ ({ m := masterIdx m, tgt := 4, write := write, lock := false, la := laddr.toNat, str := strobes.toNat, dat := data.toNat, rel := none } : CmxReq) with tgt := s.reqTgt ({ m := masterIdx m, tgt := 4, write := write, lock := false, la := laddr.toNat, str := strobes.toNat, dat := data.toNat, rel := none }) }] } } : State).once s.time.real (.targetArbitration (tgtOf (s.reqTgt ({ m := masterIdx m, tgt := 4, write := write, lock := false, la := laddr.toNat, str := strobes.toNat, dat := data.toNat, rel := none })))))) ∧
  (∀ (m : Master) (write : Bool) (laddr : W32) (strobes : Byte) (data : W64) (s : State),
      s.mMasked (masterIdx m) = true →
      exec (.cmxRequest m write laddr strobes data) s = .next s) ∧
  (∀ (m : Master) (laddr : W32) (strobes : Byte) (s : State),
      s.mMasked (masterIdx m) = false →
      s.halts (masterIdx m) = false →
      exec (.lockedRead m laddr strobes) s = .next (({ s with cmx := { s.cmx with waiting := s.cmx.waiting ++ [{ ({ m := masterIdx m, tgt := 4, write := false, lock := true, la := laddr.toNat, str := strobes.toNat, dat := 0, rel := none } : CmxReq) with tgt := s.reqTgt ({ m := masterIdx m, tgt := 4, write := false, lock := true, la := laddr.toNat, str := strobes.toNat, dat := 0, rel := none }) }] } } : State).once s.time.real (.targetArbitration (tgtOf (s.reqTgt ({ m := masterIdx m, tgt := 4, write := false, lock := true, la := laddr.toNat, str := strobes.toNat, dat := 0, rel := none })))))) ∧
  (∀ (tg : Target) (i : Nat) (q : CmxReq) (s : State),
      i = tgtIdx tg →
      s.cmx.waiting = [q] →
      s.cmx.out = [] →
      s.cmx.starting = [] →
      s.cmx.locks = [] →
      q.tgt = i →
      q.rel = none →
      q.m < 12 →
      SMap.get 0 s.cmx.next i ≤ s.cyc →
      SMap.get 0 s.cmx.waitFrom i ≤ s.cyc →
      s.f (parkOf i) ≠ q.m →
      s.isPresent .hrp = true →
      s.brg.inbox = [] →
      ∃ t, exec (.targetArbitration tg) s = .next t ∧ t.cmx.waiting = [] ∧ t.cmx.starting = [({ q with rel := some s.cyc }, s.cyc + 1)] ∧ t.cmx.out.map (fun o => o.req) = [{ q with rel := some s.cyc }] ∧
        SMap.get 0 t.cmx.ptr i = (q.m + 1) % 13 ∧ t.mem = s.mem ∧ (∃ d ∈ t.agenda, d.clk = .real ∧ d.due = (s.cyc + 1) * 300000 ∧ d.cmd = .targetArbitration tg) ∧ s.sameRegs [(R.CMX_T_WAIT_COUNT i).key] t) ∧
  (∀ (t a : Nat) (q : CmxReq) (s : State),
      t < 4 →
      s.mMasked q.m = false →
      s.notAwake q = false →
      s.place q.m q.la = .msram a →
      q.lock = false →
      (s.startReq t q).f (parkOf t) = q.m ∧ (∀ k : Fin 4, k.val ≠ t → (s.startReq t q).f (parkOf k) = s.f (parkOf k))) ∧
  (∀ (t : Nat) (q : CmxReq) (s : State),
      SMap.get 0 s.cmx.next t ≤ s.cyc →
      s.pick t (s.cmxHeads.filter (fun y => decide (y.tgt = t) && y.rel.isSome)) = some q →
      ¬(t = 1 ∧ s.aperMiss q = true) →
      s.cmxDecide t = s.cmxGrant t q) ∧
  (∀ (o : CmxOut) (a : Nat) (s : State),
      s.notAwake o.req = false →
      s.place o.req.m o.req.la = .msram a →
      o.req.write = true →
      (s.serve o).1 = s.setCells (msram (a / 8 * 8)) (strobed o.req.str (s.cells (msram (a / 8 * 8)) 8) (leBytes 8 o.req.dat)) ∧ (s.serve o).2.ans = some (0, .ok) ∧ s.sameCells (msram (a / 8 * 8)) 8 (s.serve o).1) ∧
  (∀ (m : Master) (o : CmxOut) (a : Nat × Resp) (pre post : List CmxOut) (s : State),
      s.cmx.out = pre ++ o :: post →
      (pre ++ post).all (fun y => decide (y.req.m ≠ masterIdx m)) = true →
      o.req.m = masterIdx m →
      o.ans = some a →
      o.due ≤ s.cyc →
      s.cmx.waiting = [] →
      s.cmx.locks = [] →
      s.loose.acked = [] →
      s.brg.inbox = [] →
      s.mgt.halting.contains (masterIdx m) = false →
      exec (.cmxResponse m) s = .next (({ s with cmx := { s.cmx with out := pre ++ post } } : State).respond o a)) ∧
  (∀ (m : Master) (o : CmxOut) (since : Nat) (s : State),
      s.cmx.out.filter (fun y => decide (y.req.m % 16 = masterIdx m) && y.lost.isSome) = [o] →
      o.req.m < 16 →
      o.lost = some since →
      since + 1024 ≤ s.time.fc →
      o.id = 0 →
      exec (.controlAccessTimeout m) s = .next (({ s with cmx := { s.cmx with out := s.cmx.out.map (fun y => if y = o then { o with ans := some (0, .fault), due := s.cyc, lost := none } else y) } } : State).once s.time.real (.cmxResponse (masterOf o.req.m)))) ∧
  (∀ (m : Master) (i : Instr) (f : State → State) (s : State),
      s.rgsShut (masterIdx m) = true →
      s.row m i f = s.at' .real (s.cycEnd 0) i) ∧
  (∀ (m : Master) (v : W32) (cab : Cab) (f : Fin 8) (r k : Fin 4) (c : Ctx) (w : Win) (lane : Fin 8) (s : State),
      s.rgsShut (masterIdx m) = true →
      exec (.frzCtlWrite m v) s = .next (s.at' .real (s.cycEnd 0) (.frzCtlWrite m v)) ∧
        exec (.bktCfgWrite m cab v) s = .next (s.at' .real (s.cycEnd 0) (.bktCfgWrite m cab v)) ∧
        exec (.remapAdd m cab v) s = .next (s.at' .real (s.cycEnd 0) (.remapAdd m cab v)) ∧
        exec (.arbPrioWrite m cab v) s = .next (s.at' .real (s.cycEnd 0) (.arbPrioWrite m cab v)) ∧
        exec (.fenceCmd m v) s = .next (s.at' .real (s.cycEnd 0) (.fenceCmd m v)) ∧
        exec (.hffCfgWrite m cab f v) s = .next (s.at' .real (s.cycEnd 0) (.hffCfgWrite m cab f v)) ∧
        exec (.runnerListGo m cab r v) s = .next (s.at' .real (s.cycEnd 0) (.runnerListGo m cab r v)) ∧
        exec (.ctxActivate m c) s = .next (s.at' .real (s.cycEnd 0) (.ctxActivate m c)) ∧
        exec (.windowBind m w c) s = .next (s.at' .real (s.cycEnd 0) (.windowBind m w c)) ∧
        exec (.mgtActWrite m v) s = .next (s.at' .real (s.cycEnd 0) (.mgtActWrite m v)) ∧
        exec (.opChange m v) s = .next (s.at' .real (s.cycEnd 0) (.opChange m v)) ∧
        exec (.laneTrain m lane) s = .next (s.at' .real (s.cycEnd 0) (.laneTrain m lane)) ∧
        exec (.logAck m k v) s = .next (s.at' .real (s.cycEnd 0) (.logAck m k v)) ∧
        exec (.bootLock m v) s = .next (s.at' .real (s.cycEnd 0) (.bootLock m v)))
end

