-- ==== Sys2Proof/Laws/Tables.lean ====
section
/-! SUPPORT. Laws of the sparse tables: what is read after a write, and that every table operation keeps the one canonical form. -/
namespace Sys2Proof.Machine

variable {α : Type}

/-! Reading after writing -/

@[simp] theorem SMap.get_nil (d : α) (k : Nat) : SMap.get d ([] : SMap α) k = d := rfl

theorem SMap.get_erase_same (d : α) (m : SMap α) (k : Nat) : SMap.get d (SMap.erase m k) k = d := by
  induction m with
  | nil => rfl
  | cons e m ih =>
    by_cases h : k = e.1
    · simp [SMap.erase, h] at *; exact ih
    · simp [SMap.erase, SMap.get, h, ih]

theorem SMap.get_erase_other (d : α) (m : SMap α) {k j : Nat} (hj : j ≠ k) : SMap.get d (SMap.erase m k) j = SMap.get d m j := by
  induction m with
  | nil => rfl
  | cons e m ih =>
    by_cases h : k = e.1
    · subst h; simp [SMap.erase, SMap.get, hj, ih]
    · simp [SMap.erase, SMap.get, h, ih]

theorem SMap.get_insert_same (d : α) (m : SMap α) (k : Nat) (v : α) : SMap.get d (SMap.insert m k v) k = v := by
  induction m with
  | nil => simp [SMap.insert, SMap.get]
  | cons e m ih =>
    by_cases h : k = e.1
    · simp [SMap.insert, SMap.get, h]
    · by_cases hl : k < e.1
      · simp [SMap.insert, SMap.get, h, hl]
      · simp [SMap.insert, SMap.get, h, hl, ih]

theorem SMap.get_insert_other (d : α) (m : SMap α) {k j : Nat} (v : α) (hj : j ≠ k) : SMap.get d (SMap.insert m k v) j = SMap.get d m j := by
  induction m with
  | nil => simp [SMap.insert, SMap.get, hj]
  | cons e m ih =>
    by_cases h : k = e.1
    · subst h; simp [SMap.insert, SMap.get, hj]
    · by_cases hl : k < e.1
      · simp [SMap.insert, SMap.get, h, hl, hj]
      · simp [SMap.insert, SMap.get, h, hl, ih]

/-- A table gives back at a key what was written there. -/
@[simp] theorem SMap.get_set_same [DecidableEq α] (d : α) (m : SMap α) (k : Nat) (v : α) : SMap.get d (SMap.set d m k v) k = v := by
  unfold SMap.set
  split
  · next h => rw [h]; exact SMap.get_erase_same d m k
  · exact SMap.get_insert_same d m k v

/-- A write leaves every other key alone. -/
theorem SMap.get_set_other [DecidableEq α] (d d' : α) (m : SMap α) {k j : Nat} (v : α) (hj : j ≠ k) :
    SMap.get d (SMap.set d' m k v) j = SMap.get d m j := by
  unfold SMap.set
  split
  · exact SMap.get_erase_other d m hj
  · exact SMap.get_insert_other d m v hj

/-! The canonical form -/

variable [DecidableEq α] {d : Nat → α}

/-- A key below every key of a table in canonical form, itself above `lo`. -/
theorem SMap.wfFrom_mono {lo hi : Nat} (hl : lo ≤ hi) {m : SMap α} (h : SMap.wfFrom d (some hi) m = true) : SMap.wfFrom d (some lo) m = true := by
  cases m with
  | nil => rfl
  | cons e m =>
    simp only [SMap.wfFrom, Bool.and_eq_true, decide_eq_true_eq] at h ⊢
    exact ⟨⟨Nat.lt_of_le_of_lt hl h.1.1, h.1.2⟩, h.2⟩

theorem SMap.wfFrom_none {lo : Nat} {m : SMap α} (h : SMap.wfFrom d (some lo) m = true) : SMap.wfFrom d none m = true := by
  cases m with
  | nil => rfl
  | cons e m =>
    simp only [SMap.wfFrom, Bool.and_eq_true, decide_eq_true_eq] at h ⊢
    exact ⟨⟨trivial, h.1.2⟩, h.2⟩

theorem SMap.wfFrom_lo {lo : Option Nat} {k : Nat} {m : SMap α} (hk : ∀ l, lo = some l → l ≤ k) (h : SMap.wfFrom d (some k) m = true) :
    SMap.wfFrom d lo m = true := by
  cases lo with
  | none => exact SMap.wfFrom_none h
  | some l => exact SMap.wfFrom_mono (hk l rfl) h

theorem SMap.wfFrom_cons {lo : Option Nat} {k : Nat} {v : α} {m : SMap α} :
    SMap.wfFrom d lo ((k, v) :: m) = true ↔ (∀ l, lo = some l → l < k) ∧ v ≠ d k ∧ SMap.wfFrom d (some k) m = true := by
  cases lo <;> simp [SMap.wfFrom, and_assoc]

/-- Leaving out entries keeps the form. -/
theorem SMap.wfFrom_filter (p : Nat × α → Bool) {lo : Option Nat} {m : SMap α} (h : SMap.wfFrom d lo m = true) :
    SMap.wfFrom d lo (m.filter p) = true := by
  induction m generalizing lo with
  | nil => exact h
  | cons e m ih =>
    obtain ⟨k, v⟩ := e
    rw [SMap.wfFrom_cons] at h
    simp only [List.filter_cons]
    split
    · exact SMap.wfFrom_cons.2 ⟨h.1, h.2.1, ih h.2.2⟩
    · exact SMap.wfFrom_lo (fun l e => Nat.le_of_lt (h.1 l e)) (ih h.2.2)

omit [DecidableEq α] in
theorem SMap.erase_eq_filter (m : SMap α) (k : Nat) : SMap.erase m k = m.filter (fun e => !decide (k = e.1)) := by
  induction m with
  | nil => rfl
  | cons e m ih => by_cases h : k = e.1 <;> simp [SMap.erase, h] <;> simpa [h] using ih

theorem SMap.wfFrom_insert {lo : Option Nat} {m : SMap α} {k : Nat} {v : α} (hk : ∀ l, lo = some l → l < k) (hv : v ≠ d k)
    (h : SMap.wfFrom d lo m = true) : SMap.wfFrom d lo (SMap.insert m k v) = true := by
  induction m generalizing lo with
  | nil => exact SMap.wfFrom_cons.2 ⟨hk, hv, rfl⟩
  | cons e m ih =>
    obtain ⟨k', v'⟩ := e
    rw [SMap.wfFrom_cons] at h
    simp only [SMap.insert]
    split
    · next he => subst he; exact SMap.wfFrom_cons.2 ⟨hk, hv, h.2.2⟩
    · split
      · next hlt => exact SMap.wfFrom_cons.2 ⟨hk, hv, SMap.wfFrom_cons.2 ⟨fun l e => by simp only [Option.some.injEq] at e; omega, h.2.1, h.2.2⟩⟩
      · next hne hge =>
        exact SMap.wfFrom_cons.2 ⟨h.1, h.2.1, ih (fun l e => by simp only [Option.some.injEq] at e; omega) h.2.2⟩

/-- Writing keeps the form, where what an unlisted key reads as is written by leaving the key out. -/
theorem SMap.wf_set {m : SMap α} {k : Nat} {v : α} (h : SMap.wf d m = true) : SMap.wf d (SMap.set (d k) m k v) = true := by
  unfold SMap.set
  split
  · rw [SMap.erase_eq_filter]; exact SMap.wfFrom_filter _ h
  · next hv => exact SMap.wfFrom_insert (fun _ e => nomatch e) hv h

/-- Leaving out entries keeps the form. -/
theorem SMap.wf_filter (p : Nat × α → Bool) {m : SMap α} (h : SMap.wf d m = true) : SMap.wf d (m.filter p) = true :=
  SMap.wfFrom_filter p h

end Sys2Proof.Machine
end

