-- ==== Sys2Proof/Laws/Keeps.lean ====
section
/-! SUPPORT. What an operation leaves alone: the queue of waiting commands, the ties, the canonical form of memories and registers, and
every part of the state outside a list. `Keeps K s t` is passed from operation to operation; each operation asks that `K` holds the
parts it may change. -/
namespace Sys2Proof.Machine

/-- `t` has the queue and the ties of `s`, its memories and registers are canonical where those of `s` are, and every part outside `K` is that of `s`. -/
structure Keeps (K : List Part) (s t : State) : Prop where
  queue : t.pending = s.pending
  ties : t.ties = s.ties
  regs : Regs.wf s.regs = true → Regs.wf t.regs = true
  mem : Memory.wf s.mem = true → Memory.wf t.mem = true
  frame : ∀ p, p ∉ K → p.same s t

/-- A command goes on to a state that keeps what `Keeps` says. -/
def KeepsO (K : List Part) (s : State) (o : Host.Outcome State Fault Refusal) : Prop := ∃ t, o = .next t ∧ Keeps K s t

theorem Part.same_refl (p : Part) (s : State) : p.same s s := by cases p <;> rfl

theorem Part.same_trans {p : Part} {s t u : State} (h : p.same s t) (g : p.same t u) : p.same s u := by
  cases p <;> exact Eq.trans g h

variable {K : List Part}

theorem KeepsO.next {b t : State} (h : Keeps K b t) : KeepsO K b (.next t) := ⟨t, rfl, h⟩

theorem Keeps.refl (s : State) : Keeps K s s := ⟨rfl, rfl, id, id, fun p _ => p.same_refl s⟩

theorem Keeps.ite {b x y : State} {c : Prop} [Decidable c] (hx : Keeps K b x) (hy : Keeps K b y) : Keeps K b (if c then x else y) := by
  split <;> assumption

theorem KeepsO.ite {b : State} {x y : Host.Outcome State Fault Refusal} {c : Prop} [Decidable c] (hx : KeepsO K b x) (hy : KeepsO K b y) :
    KeepsO K b (if c then x else y) := by split <;> assumption

theorem Keeps.foldl {α : Type} {b t : State} {f : State → α → State} {l : List α} (h : Keeps K b t) (hf : ∀ u a, Keeps K b u → Keeps K b (f u a)) :
    Keeps K b (l.foldl f t) := by
  induction l generalizing t with
  | nil => exact h
  | cons a l ih => exact ih (hf t a h)

theorem Keeps.foldlP {α β : Type} {b : State} {t : State × β} {f : State × β → α → State × β} {l : List α} (h : Keeps K b t.1)
    (hf : ∀ u a, Keeps K b u.1 → Keeps K b (f u a).1) : Keeps K b (l.foldl f t).1 := by
  induction l generalizing t with
  | nil => exact h
  | cons a l ih => exact ih (hf t a h)

theorem Keeps.ofEq {α : Type} {b t : State} {p : State × α} {a : α} (e : p = (t, a)) (h : Keeps K b p.1) : Keeps K b t := by
  rw [e] at h; exact h

/-- An update of the parts in `l`. -/
theorem Keeps.upd {b t u : State} (l : List Part) (hl : l ⊆ K) (h : Keeps K b t) (hq : u.pending = t.pending) (ht : u.ties = t.ties)
    (hr : Regs.wf t.regs = true → Regs.wf u.regs = true) (hm : Memory.wf t.mem = true → Memory.wf u.mem = true)
    (hf : ∀ p, p ∉ l → p.same t u) : Keeps K b u :=
  ⟨hq.trans h.queue, ht.trans h.ties, fun w => hr (h.regs w), fun w => hm (h.mem w), fun p hp => Part.same_trans (h.frame p hp) (hf p (fun e => hp (hl e)))⟩

/-! One part updated -/

theorem Keeps.set_agenda {b t : State} {x} (hp : [Part.agenda] ⊆ K) (h : Keeps K b t) : Keeps K b { t with agenda := x } :=
  h.upd _ hp rfl rfl id id (fun p hp => by cases p <;> first | rfl | exact absurd (by decide) hp)

theorem Keeps.set_time {b t : State} {x} (hp : [Part.time] ⊆ K) (h : Keeps K b t) : Keeps K b { t with time := x } :=
  h.upd _ hp rfl rfl id id (fun p hp => by cases p <;> first | rfl | exact absurd (by decide) hp)

theorem Keeps.set_valid {b t : State} {x} (hp : [Part.valid] ⊆ K) (h : Keeps K b t) : Keeps K b { t with valid := x } :=
  h.upd _ hp rfl rfl id id (fun p hp => by cases p <;> first | rfl | exact absurd (by decide) hp)

theorem Keeps.set_freeCtr {b t : State} {x} (hp : [Part.freeCtr] ⊆ K) (h : Keeps K b t) : Keeps K b { t with freeCtr := x } :=
  h.upd _ hp rfl rfl id id (fun p hp => by cases p <;> first | rfl | exact absurd (by decide) hp)

theorem Keeps.set_detected {b t : State} {x} (hp : [Part.detected] ⊆ K) (h : Keeps K b t) : Keeps K b { t with detected := x } :=
  h.upd _ hp rfl rfl id id (fun p hp => by cases p <;> first | rfl | exact absurd (by decide) hp)

theorem Keeps.set_events {b t : State} {x} (hp : [Part.events] ⊆ K) (h : Keeps K b t) : Keeps K b { t with events := x } :=
  h.upd _ hp rfl rfl id id (fun p hp => by cases p <;> first | rfl | exact absurd (by decide) hp)

theorem Keeps.set_hiLatch {b t : State} {x} (hp : [Part.hiLatch] ⊆ K) (h : Keeps K b t) : Keeps K b { t with hiLatch := x } :=
  h.upd _ hp rfl rfl id id (fun p hp => by cases p <;> first | rfl | exact absurd (by decide) hp)

theorem Keeps.set_loHeld {b t : State} {x} (hp : [Part.loHeld] ⊆ K) (h : Keeps K b t) : Keeps K b { t with loHeld := x } :=
  h.upd _ hp rfl rfl id id (fun p hp => by cases p <;> first | rfl | exact absurd (by decide) hp)

theorem Keeps.set_present {b t : State} {x} (hp : [Part.present] ⊆ K) (h : Keeps K b t) : Keeps K b { t with present := x } :=
  h.upd _ hp rfl rfl id id (fun p hp => by cases p <;> first | rfl | exact absurd (by decide) hp)

theorem Keeps.set_presWait {b t : State} {x} (hp : [Part.presWait] ⊆ K) (h : Keeps K b t) : Keeps K b { t with presWait := x } :=
  h.upd _ hp rfl rfl id id (fun p hp => by cases p <;> first | rfl | exact absurd (by decide) hp)

theorem Keeps.set_outs {b t : State} {x} (hp : [Part.outs] ⊆ K) (h : Keeps K b t) : Keeps K b { t with outs := x } :=
  h.upd _ hp rfl rfl id id (fun p hp => by cases p <;> first | rfl | exact absurd (by decide) hp)

theorem Keeps.set_frz {b t : State} {x} (hp : [Part.frz] ⊆ K) (h : Keeps K b t) : Keeps K b { t with frz := x } :=
  h.upd _ hp rfl rfl id id (fun p hp => by cases p <;> first | rfl | exact absurd (by decide) hp)

theorem Keeps.set_stp {b t : State} {x} (hp : [Part.stp] ⊆ K) (h : Keeps K b t) : Keeps K b { t with stp := x } :=
  h.upd _ hp rfl rfl id id (fun p hp => by cases p <;> first | rfl | exact absurd (by decide) hp)

theorem Keeps.set_set {b t : State} {x} (hp : [Part.set] ⊆ K) (h : Keeps K b t) : Keeps K b { t with set := x } :=
  h.upd _ hp rfl rfl id id (fun p hp => by cases p <;> first | rfl | exact absurd (by decide) hp)

theorem Keeps.set_loose {b t : State} {x} (hp : [Part.loose] ⊆ K) (h : Keeps K b t) : Keeps K b { t with loose := x } :=
  h.upd _ hp rfl rfl id id (fun p hp => by cases p <;> first | rfl | exact absurd (by decide) hp)

theorem Keeps.set_rep {b t : State} {x} (hp : [Part.rep] ⊆ K) (h : Keeps K b t) : Keeps K b { t with rep := x } :=
  h.upd _ hp rfl rfl id id (fun p hp => by cases p <;> first | rfl | exact absurd (by decide) hp)

theorem Keeps.set_syn {b t : State} {x} (hp : [Part.syn] ⊆ K) (h : Keeps K b t) : Keeps K b { t with syn := x } :=
  h.upd _ hp rfl rfl id id (fun p hp => by cases p <;> first | rfl | exact absurd (by decide) hp)

theorem Keeps.set_fifos {b t : State} {x} (hp : [Part.fifos] ⊆ K) (h : Keeps K b t) : Keeps K b { t with fifos := x } :=
  h.upd _ hp rfl rfl id id (fun p hp => by cases p <;> first | rfl | exact absurd (by decide) hp)

theorem Keeps.set_runners {b t : State} {x} (hp : [Part.runners] ⊆ K) (h : Keeps K b t) : Keeps K b { t with runners := x } :=
  h.upd _ hp rfl rfl id id (fun p hp => by cases p <;> first | rfl | exact absurd (by decide) hp)

theorem Keeps.set_pwr {b t : State} {x} (hp : [Part.pwr] ⊆ K) (h : Keeps K b t) : Keeps K b { t with pwr := x } :=
  h.upd _ hp rfl rfl id id (fun p hp => by cases p <;> first | rfl | exact absurd (by decide) hp)

theorem Keeps.set_ctx {b t : State} {x} (hp : [Part.ctx] ⊆ K) (h : Keeps K b t) : Keeps K b { t with ctx := x } :=
  h.upd _ hp rfl rfl id id (fun p hp => by cases p <;> first | rfl | exact absurd (by decide) hp)

theorem Keeps.set_brg {b t : State} {x} (hp : [Part.brg] ⊆ K) (h : Keeps K b t) : Keeps K b { t with brg := x } :=
  h.upd _ hp rfl rfl id id (fun p hp => by cases p <;> first | rfl | exact absurd (by decide) hp)

theorem Keeps.set_edg {b t : State} {x} (hp : [Part.edg] ⊆ K) (h : Keeps K b t) : Keeps K b { t with edg := x } :=
  h.upd _ hp rfl rfl id id (fun p hp => by cases p <;> first | rfl | exact absurd (by decide) hp)

theorem Keeps.set_leave {b t : State} {x} (hp : [Part.leave] ⊆ K) (h : Keeps K b t) : Keeps K b { t with leave := x } :=
  h.upd _ hp rfl rfl id id (fun p hp => by cases p <;> first | rfl | exact absurd (by decide) hp)

theorem Keeps.set_masked {b t : State} {x} (hp : [Part.masked] ⊆ K) (h : Keeps K b t) : Keeps K b { t with masked := x } :=
  h.upd _ hp rfl rfl id id (fun p hp => by cases p <;> first | rfl | exact absurd (by decide) hp)

theorem Keeps.set_tx {b t : State} {x} (hp : [Part.tx] ⊆ K) (h : Keeps K b t) : Keeps K b { t with tx := x } :=
  h.upd _ hp rfl rfl id id (fun p hp => by cases p <;> first | rfl | exact absurd (by decide) hp)

theorem Keeps.set_mgt {b t : State} {x} (hp : [Part.mgt] ⊆ K) (h : Keeps K b t) : Keeps K b { t with mgt := x } :=
  h.upd _ hp rfl rfl id id (fun p hp => by cases p <;> first | rfl | exact absurd (by decide) hp)

theorem Keeps.set_cmx {b t : State} {x} (hp : [Part.cmx] ⊆ K) (h : Keeps K b t) : Keeps K b { t with cmx := x } :=
  h.upd _ hp rfl rfl id id (fun p hp => by cases p <;> first | rfl | exact absurd (by decide) hp)

theorem Keeps.set_boot {b t : State} {x} (hp : [Part.boot] ⊆ K) (h : Keeps K b t) : Keeps K b { t with boot := x } :=
  h.upd _ hp rfl rfl id id (fun p hp => by cases p <;> first | rfl | exact absurd (by decide) hp)

theorem Keeps.set_test {b t : State} {x} (hp : [Part.test] ⊆ K) (h : Keeps K b t) : Keeps K b { t with test := x } :=
  h.upd _ hp rfl rfl id id (fun p hp => by cases p <;> first | rfl | exact absurd (by decide) hp)

theorem Keeps.set_counted {b t : State} {x} (hp : [Part.counted] ⊆ K) (h : Keeps K b t) : Keeps K b { t with counted := x } :=
  h.upd _ hp rfl rfl id id (fun p hp => by cases p <;> first | rfl | exact absurd (by decide) hp)

theorem Keeps.set_hfp {b t : State} {x} (hp : [Part.hfp] ⊆ K) (h : Keeps K b t) : Keeps K b { t with hfp := x } :=
  h.upd _ hp rfl rfl id id (fun p hp => by cases p <;> first | rfl | exact absurd (by decide) hp)

/-- Several parts updated at once. -/
theorem Keeps.set_all {b t : State} {a_agenda a_time a_valid a_freeCtr a_detected a_events a_hiLatch a_loHeld a_present a_presWait a_outs a_frz a_stp a_set a_loose a_rep a_syn a_fifos a_runners a_pwr a_ctx a_brg a_edg a_leave a_masked a_tx a_mgt a_cmx a_boot a_test a_counted a_hfp} (h : Keeps K b t)
    (h_agenda : a_agenda = t.agenda ∨ [Part.agenda] ⊆ K)
    (h_time : a_time = t.time ∨ [Part.time] ⊆ K)
    (h_valid : a_valid = t.valid ∨ [Part.valid] ⊆ K)
    (h_freeCtr : a_freeCtr = t.freeCtr ∨ [Part.freeCtr] ⊆ K)
    (h_detected : a_detected = t.detected ∨ [Part.detected] ⊆ K)
    (h_events : a_events = t.events ∨ [Part.events] ⊆ K)
    (h_hiLatch : a_hiLatch = t.hiLatch ∨ [Part.hiLatch] ⊆ K)
    (h_loHeld : a_loHeld = t.loHeld ∨ [Part.loHeld] ⊆ K)
    (h_present : a_present = t.present ∨ [Part.present] ⊆ K)
    (h_presWait : a_presWait = t.presWait ∨ [Part.presWait] ⊆ K)
    (h_outs : a_outs = t.outs ∨ [Part.outs] ⊆ K)
    (h_frz : a_frz = t.frz ∨ [Part.frz] ⊆ K)
    (h_stp : a_stp = t.stp ∨ [Part.stp] ⊆ K)
    (h_set : a_set = t.set ∨ [Part.set] ⊆ K)
    (h_loose : a_loose = t.loose ∨ [Part.loose] ⊆ K)
    (h_rep : a_rep = t.rep ∨ [Part.rep] ⊆ K)
    (h_syn : a_syn = t.syn ∨ [Part.syn] ⊆ K)
    (h_fifos : a_fifos = t.fifos ∨ [Part.fifos] ⊆ K)
    (h_runners : a_runners = t.runners ∨ [Part.runners] ⊆ K)
    (h_pwr : a_pwr = t.pwr ∨ [Part.pwr] ⊆ K)
    (h_ctx : a_ctx = t.ctx ∨ [Part.ctx] ⊆ K)
    (h_brg : a_brg = t.brg ∨ [Part.brg] ⊆ K)
    (h_edg : a_edg = t.edg ∨ [Part.edg] ⊆ K)
    (h_leave : a_leave = t.leave ∨ [Part.leave] ⊆ K)
    (h_masked : a_masked = t.masked ∨ [Part.masked] ⊆ K)
    (h_tx : a_tx = t.tx ∨ [Part.tx] ⊆ K)
    (h_mgt : a_mgt = t.mgt ∨ [Part.mgt] ⊆ K)
    (h_cmx : a_cmx = t.cmx ∨ [Part.cmx] ⊆ K)
    (h_boot : a_boot = t.boot ∨ [Part.boot] ⊆ K)
    (h_test : a_test = t.test ∨ [Part.test] ⊆ K)
    (h_counted : a_counted = t.counted ∨ [Part.counted] ⊆ K)
    (h_hfp : a_hfp = t.hfp ∨ [Part.hfp] ⊆ K) :
    Keeps K b { t with agenda := a_agenda, time := a_time, valid := a_valid, freeCtr := a_freeCtr, detected := a_detected, events := a_events, hiLatch := a_hiLatch, loHeld := a_loHeld, present := a_present, presWait := a_presWait, outs := a_outs, frz := a_frz, stp := a_stp, set := a_set, loose := a_loose, rep := a_rep, syn := a_syn, fifos := a_fifos, runners := a_runners, pwr := a_pwr, ctx := a_ctx, brg := a_brg, edg := a_edg, leave := a_leave, masked := a_masked, tx := a_tx, mgt := a_mgt, cmx := a_cmx, boot := a_boot, test := a_test, counted := a_counted, hfp := a_hfp } :=
  ⟨h.queue, h.ties, h.regs, h.mem, fun p hp => Part.same_trans (h.frame p hp) (by
    cases p
    · exact h_agenda.resolve_right (fun e => hp (e (List.mem_singleton.2 rfl)))
    · exact h_time.resolve_right (fun e => hp (e (List.mem_singleton.2 rfl)))
    · exact rfl
    · exact rfl
    · exact h_valid.resolve_right (fun e => hp (e (List.mem_singleton.2 rfl)))
    · exact h_freeCtr.resolve_right (fun e => hp (e (List.mem_singleton.2 rfl)))
    · exact h_detected.resolve_right (fun e => hp (e (List.mem_singleton.2 rfl)))
    · exact h_events.resolve_right (fun e => hp (e (List.mem_singleton.2 rfl)))
    · exact h_hiLatch.resolve_right (fun e => hp (e (List.mem_singleton.2 rfl)))
    · exact h_loHeld.resolve_right (fun e => hp (e (List.mem_singleton.2 rfl)))
    · exact h_present.resolve_right (fun e => hp (e (List.mem_singleton.2 rfl)))
    · exact h_presWait.resolve_right (fun e => hp (e (List.mem_singleton.2 rfl)))
    · exact h_outs.resolve_right (fun e => hp (e (List.mem_singleton.2 rfl)))
    · exact h_frz.resolve_right (fun e => hp (e (List.mem_singleton.2 rfl)))
    · exact h_stp.resolve_right (fun e => hp (e (List.mem_singleton.2 rfl)))
    · exact h_set.resolve_right (fun e => hp (e (List.mem_singleton.2 rfl)))
    · exact h_loose.resolve_right (fun e => hp (e (List.mem_singleton.2 rfl)))
    · exact h_rep.resolve_right (fun e => hp (e (List.mem_singleton.2 rfl)))
    · exact h_syn.resolve_right (fun e => hp (e (List.mem_singleton.2 rfl)))
    · exact h_fifos.resolve_right (fun e => hp (e (List.mem_singleton.2 rfl)))
    · exact h_runners.resolve_right (fun e => hp (e (List.mem_singleton.2 rfl)))
    · exact h_pwr.resolve_right (fun e => hp (e (List.mem_singleton.2 rfl)))
    · exact h_ctx.resolve_right (fun e => hp (e (List.mem_singleton.2 rfl)))
    · exact h_brg.resolve_right (fun e => hp (e (List.mem_singleton.2 rfl)))
    · exact h_edg.resolve_right (fun e => hp (e (List.mem_singleton.2 rfl)))
    · exact h_leave.resolve_right (fun e => hp (e (List.mem_singleton.2 rfl)))
    · exact h_masked.resolve_right (fun e => hp (e (List.mem_singleton.2 rfl)))
    · exact h_tx.resolve_right (fun e => hp (e (List.mem_singleton.2 rfl)))
    · exact h_mgt.resolve_right (fun e => hp (e (List.mem_singleton.2 rfl)))
    · exact h_cmx.resolve_right (fun e => hp (e (List.mem_singleton.2 rfl)))
    · exact h_boot.resolve_right (fun e => hp (e (List.mem_singleton.2 rfl)))
    · exact h_test.resolve_right (fun e => hp (e (List.mem_singleton.2 rfl)))
    · exact h_counted.resolve_right (fun e => hp (e (List.mem_singleton.2 rfl)))
    · exact h_hfp.resolve_right (fun e => hp (e (List.mem_singleton.2 rfl))))⟩

/-- Registers of which some go back to their reset values. -/
theorem Keeps.filterRegs {b t : State} (p : Nat × W32 → Bool) (hp : [Part.regs] ⊆ K) (h : Keeps K b t) : Keeps K b { t with regs := t.regs.filter p } :=
  h.upd _ hp rfl rfl (SMap.wf_filter p) id (fun p hp => by cases p <;> first | rfl | exact absurd (by decide) hp)

/-- Memories of which some lose their contents. -/
theorem Keeps.filterMem {b t : State} (p : Host.Cell → Bool) (hp : [Part.mem] ⊆ K) (h : Keeps K b t) : Keeps K b { t with mem := t.mem.filter p } :=
  h.upd _ hp rfl rfl id (SMap.wf_filter p) (fun p hp => by cases p <;> first | rfl | exact absurd (by decide) hp)

theorem State.setReg_keeps {b0 s : State} (k : Nat) (v : W32) (hp : [Part.regs] ⊆ K) (hK : Keeps K b0 s) : Keeps K b0 (s.setReg k v) :=
  hK.upd _ hp rfl rfl SMap.wf_set id (fun p hp => by cases p <;> first | rfl | exact absurd (by decide) hp)

theorem State.setCell_keeps {b0 s : State} (a : Nat) (v : Byte) (hp : [Part.mem] ⊆ K) (hK : Keeps K b0 s) : Keeps K b0 (s.setCell a v) :=
  hK.upd _ hp rfl rfl id (SMap.wf_set (d := fun _ => (0 : Byte))) (fun p hp => by cases p <;> first | rfl | exact absurd (by decide) hp)

theorem State.setCells_keeps {b0 s : State} (a : Nat) (v : List Byte) (hp : [Part.mem] ⊆ K) (hK : Keeps K b0 s) : Keeps K b0 (s.setCells a v) := by
  induction v generalizing s a with
  | nil => exact hK
  | cons x v ih => exact ih _ (State.setCell_keeps _ _ hp hK)

/-- The registers of a die in reset are canonical. -/
theorem State.resetWith_regs (t : Ties) : Regs.wf (State.resetWith t).regs = true := by
  unfold State.resetWith
  split
  · rfl
  · next h =>
    have hz : resetVal R.PWR_VID_CFG = 0 := by decide
    show SMap.wfFrom resetVal none [(R.PWR_VID_CFG, BitVec.ofNat 32 (t.bootVid % 256 * 65536))] = true
    rw [SMap.wfFrom_cons]
    refine ⟨(fun _ e => nomatch e), fun e => h ?_, rfl⟩
    rw [hz] at e
    have := congrArg BitVec.toNat e
    simp only [BitVec.toNat_ofNat, BitVec.ofNat_eq_ofNat] at this
    omega
end Sys2Proof.Machine
end

