-- ==== Sys2Proof/Laws/KeepsOps.lean ====
section
/-! SUPPORT. What the operations and commands of Machine/Ops.lean leave alone: one lemma each, in the terms of `Keeps`. The list each
asks for holds the parts it may change. -/
namespace Sys2Proof.Machine
variable {K : List Part}
theorem State.put_keeps {b0 s : State} (f : Fld) (n : Nat) (hp : [.regs] ⊆ K) (hK : Keeps K b0 s) : Keeps K b0 (State.put s f n) := by
  unfold State.put
  try dsimp only
  repeat' first
    | with_reducible assumption
    | with_reducible apply State.setReg_keeps

theorem State.puts_keeps {b0 s : State} (l : List (Fld × Nat)) (hp : [.regs] ⊆ K) (hK : Keeps K b0 s) : Keeps K b0 (State.puts s l) := by
  unfold State.puts
  try dsimp only
  repeat' first
    | with_reducible assumption
    | with_reducible apply State.put_keeps
    | with_reducible refine Keeps.ofEq (by with_reducible assumption) ?_
    | with_reducible apply Keeps.ite
    | (with_reducible refine Keeps.foldl ?_ (fun _ _ _ => ?_) <;> try dsimp only)

theorem State.putb_keeps {b0 s : State} (f : Fld) (b : Bool) (hp : [.regs] ⊆ K) (hK : Keeps K b0 s) : Keeps K b0 (State.putb s f b) := by
  unfold State.putb
  try dsimp only
  repeat' first
    | with_reducible assumption
    | with_reducible apply State.put_keeps

theorem State.incBy_keeps {b0 s : State} (f : Fld) (n : Nat) (hp : [.regs] ⊆ K) (hK : Keeps K b0 s) : Keeps K b0 (State.incBy s f n) := by
  unfold State.incBy
  try dsimp only
  repeat' first
    | with_reducible assumption
    | with_reducible apply State.put_keeps

theorem State.inc_keeps {b0 s : State} (f : Fld) (hp : [.regs] ⊆ K) (hK : Keeps K b0 s) : Keeps K b0 (State.inc s f) := by
  unfold State.inc
  try dsimp only
  repeat' first
    | with_reducible assumption
    | with_reducible apply State.incBy_keeps

theorem State.dec_keeps {b0 s : State} (f : Fld) (hp : [.regs] ⊆ K) (hK : Keeps K b0 s) : Keeps K b0 (State.dec s f) := by
  unfold State.dec
  try dsimp only
  repeat' first
    | with_reducible assumption
    | with_reducible apply State.put_keeps

theorem State.incOn_keeps {b0 s : State} (f : Fld) (t : Nat) (hp : [.regs, .counted] ⊆ K) (hK : Keeps K b0 s) : Keeps K b0 (State.incOn s f t) := by
  unfold State.incOn
  try dsimp only
  repeat' first
    | with_reducible assumption
    | (with_reducible refine List.Subset.trans ?_ hp; decide)
    | with_reducible apply State.inc_keeps
    | with_reducible refine Keeps.ofEq (by with_reducible assumption) ?_
    | with_reducible apply Keeps.ite
    | dsimp only
    | split
    | with_reducible apply Keeps.set_counted

theorem State.maxOn_keeps {b0 s : State} (f : Fld) (t n : Nat) (hp : [.regs, .counted] ⊆ K) (hK : Keeps K b0 s) : Keeps K b0 (State.maxOn s f t n) := by
  unfold State.maxOn
  try dsimp only
  repeat' first
    | with_reducible assumption
    | (with_reducible refine List.Subset.trans ?_ hp; decide)
    | with_reducible apply State.put_keeps
    | with_reducible refine Keeps.ofEq (by with_reducible assumption) ?_
    | with_reducible apply Keeps.ite
    | dsimp only
    | split
    | with_reducible apply Keeps.set_counted

theorem State.clearOn_keeps {b0 s : State} (f : Fld) (t : Nat) (hp : [.regs] ⊆ K) (hK : Keeps K b0 s) : Keeps K b0 (State.clearOn s f t) := by
  unfold State.clearOn
  try dsimp only
  repeat' first
    | with_reducible assumption
    | with_reducible apply State.put_keeps

theorem State.setPair_keeps {b0 s : State} (lo hi n : Nat) (hp : [.regs] ⊆ K) (hK : Keeps K b0 s) : Keeps K b0 (State.setPair s lo hi n) := by
  unfold State.setPair
  try dsimp only
  repeat' first
    | with_reducible assumption
    | with_reducible apply State.setReg_keeps

theorem State.at'_keeps {b0 s : State} (c : Clock) (due : Nat) (i : Instr) (hp : [.agenda] ⊆ K) (hK : Keeps K b0 s) : Keeps K b0 (State.at' s c due i) := by
  unfold State.at'
  try dsimp only
  repeat' first
    | with_reducible assumption
    | with_reducible refine Keeps.ofEq (by with_reducible assumption) ?_
    | with_reducible apply Keeps.ite
    | dsimp only
    | split
    | with_reducible apply Keeps.set_agenda

theorem State.later_keeps {b0 s : State} (c : Clock) (n : Nat) (i : Instr) (hp : [.agenda] ⊆ K) (hK : Keeps K b0 s) : Keeps K b0 (State.later s c n i) := by
  unfold State.later
  try dsimp only
  repeat' first
    | with_reducible assumption
    | with_reducible apply State.at'_keeps

theorem State.arm_keeps {b0 s : State} (c : Clock) (n : Nat) (i : Instr) (hp : [.agenda] ⊆ K) (hK : Keeps K b0 s) : Keeps K b0 (State.arm s c n i) := by
  unfold State.arm
  try dsimp only
  repeat' first
    | with_reducible assumption
    | with_reducible apply State.later_keeps
    | with_reducible refine Keeps.ofEq (by with_reducible assumption) ?_
    | with_reducible apply Keeps.ite

theorem State.disarm_keeps {b0 s : State} (i : Instr) (hp : [.agenda] ⊆ K) (hK : Keeps K b0 s) : Keeps K b0 (State.disarm s i) := by
  unfold State.disarm
  try dsimp only
  repeat' first
    | with_reducible assumption
    | with_reducible refine Keeps.ofEq (by with_reducible assumption) ?_
    | with_reducible apply Keeps.ite
    | dsimp only
    | split
    | with_reducible apply Keeps.set_agenda

theorem State.useFree_keeps {b0 s : State} (hp : [.freeCtr] ⊆ K) (hK : Keeps K b0 s) : Keeps K b0 (State.useFree s) := by
  unfold State.useFree
  try dsimp only
  repeat' first
    | with_reducible assumption
    | with_reducible refine Keeps.ofEq (by with_reducible assumption) ?_
    | with_reducible apply Keeps.ite
    | dsimp only
    | split
    | with_reducible apply Keeps.set_freeCtr

theorem State.err_keeps {b0 s : State} (e : ErrRec) (hp : [.detected] ⊆ K) (hK : Keeps K b0 s) : Keeps K b0 (State.err s e) := by
  unfold State.err
  try dsimp only
  repeat' first
    | with_reducible assumption
    | with_reducible refine Keeps.ofEq (by with_reducible assumption) ?_
    | with_reducible apply Keeps.ite
    | dsimp only
    | split
    | with_reducible apply Keeps.set_detected

theorem State.locked_keeps {b0 s : State} (req ca : Nat) (hp : [.detected] ⊆ K) (hK : Keeps K b0 s) : Keeps K b0 (State.locked s req ca) := by
  unfold State.locked
  try dsimp only
  repeat' first
    | with_reducible assumption
    | with_reducible apply State.err_keeps

theorem State.event_keeps {b0 s : State} (core typ detail : Nat) (hp : [.agenda, .events] ⊆ K) (hK : Keeps K b0 s) : Keeps K b0 (State.event s core typ detail) := by
  unfold State.event
  try dsimp only
  repeat' first
    | with_reducible assumption
    | (with_reducible refine List.Subset.trans ?_ hp; decide)
    | with_reducible apply State.arm_keeps
    | with_reducible refine Keeps.ofEq (by with_reducible assumption) ?_
    | with_reducible apply Keeps.ite
    | dsimp only
    | split
    | with_reducible apply Keeps.set_events

theorem State.send_keeps {b0 s : State} (item : SlotItem) (lane skip : Option Nat) (hp : [.tx] ⊆ K) (hK : Keeps K b0 s) : Keeps K b0 (State.send s item lane skip) := by
  unfold State.send
  try dsimp only
  repeat' first
    | with_reducible assumption
    | with_reducible refine Keeps.ofEq (by with_reducible assumption) ?_
    | with_reducible apply Keeps.ite
    | dsimp only
    | split
    | with_reducible apply Keeps.set_tx

theorem State.dropHeld_keeps {b0 s : State} (c : Nat) (hp : [.syn] ⊆ K) (hK : Keeps K b0 s) : Keeps K b0 (State.dropHeld s c) := by
  unfold State.dropHeld
  try dsimp only
  repeat' first
    | with_reducible assumption
    | with_reducible refine Keeps.ofEq (by with_reducible assumption) ?_
    | with_reducible apply Keeps.ite
    | dsimp only
    | split
    | with_reducible apply Keeps.set_syn

theorem State.endReplay_keeps {b0 s : State} (c : Nat) (hp : [.stp] ⊆ K) (hK : Keeps K b0 s) : Keeps K b0 (State.endReplay s c) := by
  unfold State.endReplay
  try dsimp only
  repeat' first
    | with_reducible assumption
    | with_reducible refine Keeps.ofEq (by with_reducible assumption) ?_
    | with_reducible apply Keeps.ite
    | dsimp only
    | split
    | with_reducible apply Keeps.set_stp

theorem State.dropLater_keeps {b0 s : State} (c : Nat) (hp : [.agenda] ⊆ K) (hK : Keeps K b0 s) : Keeps K b0 (State.dropLater s c) := by
  unfold State.dropLater
  try dsimp only
  repeat' first
    | with_reducible assumption
    | with_reducible apply State.later_keeps

theorem State.abortLists_keeps {b0 s : State} (status n : Nat) (f : RunList → Bool) (hp : [.agenda, .runners] ⊆ K) (hK : Keeps K b0 s) : Keeps K b0 (State.abortLists s status n f) := by
  unfold State.abortLists
  try dsimp only
  repeat' first
    | with_reducible assumption
    | (with_reducible refine List.Subset.trans ?_ hp; decide)
    | with_reducible apply State.later_keeps
    | with_reducible refine Keeps.ofEq (by with_reducible assumption) ?_
    | with_reducible apply Keeps.ite
    | (with_reducible refine Keeps.foldl ?_ (fun _ _ _ => ?_) <;> try dsimp only)
    | dsimp only
    | split
    | with_reducible apply Keeps.set_runners

theorem State.ctxFault_keeps {b0 s : State} (c : Nat) (hp : [.agenda, .regs, .stp, .runners] ⊆ K) (hK : Keeps K b0 s) : Keeps K b0 (State.ctxFault s c) := by
  unfold State.ctxFault
  try dsimp only
  repeat' first
    | with_reducible assumption
    | (with_reducible refine List.Subset.trans ?_ hp; decide)
    | with_reducible apply State.put_keeps
    | with_reducible apply State.endReplay_keeps
    | with_reducible apply State.dropLater_keeps
    | with_reducible apply State.abortLists_keeps
    | with_reducible refine Keeps.ofEq (by with_reducible assumption) ?_
    | with_reducible apply Keeps.ite
    | dsimp only
    | split
    | with_reducible apply Keeps.set_stp

theorem State.ctxFault?_keeps {b0 s : State} (c : Option Nat) (hp : [.agenda, .regs, .stp, .runners] ⊆ K) (hK : Keeps K b0 s) : Keeps K b0 (State.ctxFault? s c) := by
  unfold State.ctxFault?
  try dsimp only
  repeat' first
    | with_reducible assumption
    | with_reducible apply State.ctxFault_keeps
    | with_reducible refine Keeps.ofEq (by with_reducible assumption) ?_
    | with_reducible apply Keeps.ite
    | dsimp only
    | split

theorem State.sbdEmpty_keeps {b0 s : State} (cab n : Nat) (hp : [.regs, .set] ⊆ K) (hK : Keeps K b0 s) : Keeps K b0 (State.sbdEmpty s cab n) := by
  unfold State.sbdEmpty
  try dsimp only
  repeat' first
    | with_reducible assumption
    | (with_reducible refine List.Subset.trans ?_ hp; decide)
    | with_reducible apply State.setReg_keeps
    | with_reducible refine Keeps.ofEq (by with_reducible assumption) ?_
    | with_reducible apply Keeps.ite
    | dsimp only
    | split
    | with_reducible apply Keeps.set_set

theorem State.sbdCount_keeps {b0 s : State} (cab : Nat) (hp : [.regs] ⊆ K) (hK : Keeps K b0 s) : Keeps K b0 (State.sbdCount s cab) := by
  unfold State.sbdCount
  try dsimp only
  repeat' first
    | with_reducible assumption
    | with_reducible apply State.put_keeps

theorem State.sbdClear_keeps {b0 s : State} (cab : Nat) (hp : [.regs, .set] ⊆ K) (hK : Keeps K b0 s) : Keeps K b0 (State.sbdClear s cab) := by
  unfold State.sbdClear
  try dsimp only
  repeat' first
    | with_reducible assumption
    | (with_reducible refine List.Subset.trans ?_ hp; decide)
    | with_reducible apply State.sbdEmpty_keeps
    | with_reducible apply State.sbdCount_keeps
    | with_reducible refine Keeps.ofEq (by with_reducible assumption) ?_
    | with_reducible apply Keeps.ite
    | (with_reducible refine Keeps.foldl ?_ (fun _ _ _ => ?_) <;> try dsimp only)

theorem State.setSlip_keeps {b0 s : State} (cab : Nat) (p : SetPort) (n : Nat) (hp : [.regs, .set] ⊆ K) (hK : Keeps K b0 s) : Keeps K b0 (State.setSlip s cab p n) := by
  unfold State.setSlip
  try dsimp only
  repeat' first
    | with_reducible assumption
    | (with_reducible refine List.Subset.trans ?_ hp; decide)
    | with_reducible apply State.put_keeps
    | with_reducible refine Keeps.ofEq (by with_reducible assumption) ?_
    | with_reducible apply Keeps.ite
    | dsimp only
    | split
    | with_reducible apply Keeps.set_set

theorem State.holdUpto_keeps {b0 s : State} (cab : Nat) (p : SetPort → Bool) (hp : [.set] ⊆ K) (hK : Keeps K b0 s) : Keeps K b0 (State.holdUpto s cab p) := by
  unfold State.holdUpto
  try dsimp only
  repeat' first
    | with_reducible assumption
    | with_reducible refine Keeps.ofEq (by with_reducible assumption) ?_
    | with_reducible apply Keeps.ite
    | dsimp only
    | split
    | with_reducible apply Keeps.set_set

theorem State.clearSlips_keeps {b0 s : State} (cab : Nat) (hp : [.regs, .set] ⊆ K) (hK : Keeps K b0 s) : Keeps K b0 (State.clearSlips s cab) := by
  unfold State.clearSlips
  try dsimp only
  repeat' first
    | with_reducible assumption
    | (with_reducible refine List.Subset.trans ?_ hp; decide)
    | with_reducible apply State.setSlip_keeps
    | with_reducible apply State.holdUpto_keeps

theorem State.abortQueued_keeps {b0 s : State} (c : Nat) (hp : [.runners] ⊆ K) (hK : Keeps K b0 s) : Keeps K b0 (State.abortQueued s c) := by
  unfold State.abortQueued
  try dsimp only
  repeat' first
    | with_reducible assumption
    | with_reducible refine Keeps.ofEq (by with_reducible assumption) ?_
    | with_reducible apply Keeps.ite
    | dsimp only
    | split
    | with_reducible apply Keeps.set_runners

theorem State.replayFlush_keeps {b0 s : State} (c : Nat) (hp : [.agenda, .freeCtr] ⊆ K) (hK : Keeps K b0 s) : Keeps K b0 (State.replayFlush s c) := by
  unfold State.replayFlush
  try dsimp only
  repeat' first
    | with_reducible assumption
    | (with_reducible refine List.Subset.trans ?_ hp; decide)
    | with_reducible apply State.later_keeps
    | with_reducible apply State.useFree_keeps
    | with_reducible refine Keeps.ofEq (by with_reducible assumption) ?_
    | with_reducible apply Keeps.ite
    | (with_reducible refine Keeps.foldl ?_ (fun _ _ _ => ?_) <;> try dsimp only)

theorem State.replayRise_keeps {b0 s : State} (c : Nat) (hp : [.agenda, .regs, .freeCtr, .stp, .set, .syn, .runners] ⊆ K) (hK : Keeps K b0 s) : Keeps K b0 (State.replayRise s c) := by
  unfold State.replayRise
  try dsimp only
  repeat' first
    | with_reducible assumption
    | (with_reducible refine List.Subset.trans ?_ hp; decide)
    | with_reducible apply State.dropHeld_keeps
    | with_reducible apply State.abortLists_keeps
    | with_reducible apply State.sbdClear_keeps
    | with_reducible apply State.clearSlips_keeps
    | with_reducible apply State.abortQueued_keeps
    | with_reducible apply State.replayFlush_keeps
    | with_reducible refine Keeps.ofEq (by with_reducible assumption) ?_
    | with_reducible apply Keeps.ite
    | (with_reducible refine Keeps.foldl ?_ (fun _ _ _ => ?_) <;> try dsimp only)
    | dsimp only
    | split
    | with_reducible apply Keeps.set_stp

theorem State.startReplay_keeps {b0 s : State} (c cause attempt r : Nat) (hp : [.agenda, .regs, .stp] ⊆ K) (hK : Keeps K b0 s) : Keeps K b0 (State.startReplay s c cause attempt r) := by
  unfold State.startReplay
  try dsimp only
  repeat' first
    | with_reducible assumption
    | (with_reducible refine List.Subset.trans ?_ hp; decide)
    | with_reducible apply State.puts_keeps
    | with_reducible apply State.at'_keeps
    | with_reducible apply State.later_keeps
    | with_reducible refine Keeps.ofEq (by with_reducible assumption) ?_
    | with_reducible apply Keeps.ite
    | dsimp only
    | split
    | with_reducible apply Keeps.set_stp

theorem State.noSch_keeps {b0 s : State} (c : Nat) (hp : [.agenda, .regs, .detected, .stp, .runners] ⊆ K) (hK : Keeps K b0 s) : Keeps K b0 (State.noSch s c) := by
  unfold State.noSch
  try dsimp only
  repeat' first
    | with_reducible assumption
    | (with_reducible refine List.Subset.trans ?_ hp; decide)
    | with_reducible apply State.err_keeps
    | with_reducible apply State.ctxFault_keeps

theorem State.hear_keeps {b0 s : State} (c a r : Nat) (hp : [.stp] ⊆ K) (hK : Keeps K b0 s) : Keeps K b0 (State.hear s c a r) := by
  unfold State.hear
  try dsimp only
  repeat' first
    | with_reducible assumption
    | with_reducible refine Keeps.ofEq (by with_reducible assumption) ?_
    | with_reducible apply Keeps.ite
    | dsimp only
    | split
    | with_reducible apply Keeps.set_stp

theorem State.replayCause_keeps {b0 s : State} (c cause : Nat) (hp : [.agenda, .regs, .detected, .stp, .runners, .tx] ⊆ K) (hK : Keeps K b0 s) : Keeps K b0 (State.replayCause s c cause) := by
  unfold State.replayCause
  try dsimp only
  repeat' first
    | with_reducible assumption
    | (with_reducible refine List.Subset.trans ?_ hp; decide)
    | with_reducible apply State.send_keeps
    | with_reducible apply State.ctxFault_keeps
    | with_reducible apply State.startReplay_keeps
    | with_reducible apply State.noSch_keeps
    | with_reducible apply State.hear_keeps
    | with_reducible refine Keeps.ofEq (by with_reducible assumption) ?_
    | with_reducible apply Keeps.ite

theorem State.replayCab_keeps {b0 s : State} (cab cause : Nat) (hp : [.agenda, .regs, .detected, .stp, .runners, .tx] ⊆ K) (hK : Keeps K b0 s) : Keeps K b0 (State.replayCab s cab cause) := by
  unfold State.replayCab
  try dsimp only
  repeat' first
    | with_reducible assumption
    | with_reducible apply State.replayCause_keeps
    | with_reducible refine Keeps.ofEq (by with_reducible assumption) ?_
    | with_reducible apply Keeps.ite
    | dsimp only
    | split

theorem State.setMs32_keeps {b0 s : State} (off v : Nat) (hp : [.mem] ⊆ K) (hK : Keeps K b0 s) : Keeps K b0 (State.setMs32 s off v) := by
  unfold State.setMs32
  try dsimp only
  repeat' first
    | with_reducible assumption
    | with_reducible apply State.setCells_keeps

theorem State.usedBank_keeps {b0 s : State} (n : Nat) (hp : [.pwr] ⊆ K) (hK : Keeps K b0 s) : Keeps K b0 (State.usedBank s n) := by
  unfold State.usedBank
  try dsimp only
  repeat' first
    | with_reducible assumption
    | with_reducible refine Keeps.ofEq (by with_reducible assumption) ?_
    | with_reducible apply Keeps.ite
    | dsimp only
    | split
    | with_reducible apply Keeps.set_pwr

theorem State.usedLink_keeps {b0 s : State} (hp : [.pwr] ⊆ K) (hK : Keeps K b0 s) : Keeps K b0 (State.usedLink s) := by
  unfold State.usedLink
  try dsimp only
  repeat' first
    | with_reducible assumption
    | with_reducible refine Keeps.ofEq (by with_reducible assumption) ?_
    | with_reducible apply Keeps.ite
    | dsimp only
    | split
    | with_reducible apply Keeps.set_pwr

theorem State.present!_keeps {b0 s : State} (k : Nat) (o : PortOut) (hp : [.outs] ⊆ K) (hK : Keeps K b0 s) : Keeps K b0 (State.present! s k o) := by
  unfold State.present!
  try dsimp only
  repeat' first
    | with_reducible assumption
    | with_reducible refine Keeps.ofEq (by with_reducible assumption) ?_
    | with_reducible apply Keeps.ite
    | dsimp only
    | split
    | with_reducible apply Keeps.set_outs

theorem State.presentIf_keeps {b0 s : State} (p : Fld) (k : Nat) (o : PortOut) (hp : [.outs] ⊆ K) (hK : Keeps K b0 s) : Keeps K b0 (State.presentIf s p k o) := by
  unfold State.presentIf
  try dsimp only
  repeat' first
    | with_reducible assumption
    | with_reducible apply State.present!_keeps
    | with_reducible refine Keeps.ofEq (by with_reducible assumption) ?_
    | with_reducible apply Keeps.ite

theorem State.outLow_keeps {b0 s : State} (k : Nat) (hp : [.outs] ⊆ K) (hK : Keeps K b0 s) : Keeps K b0 (State.outLow s k) := by
  unfold State.outLow
  try dsimp only
  repeat' first
    | with_reducible assumption
    | with_reducible refine Keeps.ofEq (by with_reducible assumption) ?_
    | with_reducible apply Keeps.ite
    | dsimp only
    | split
    | with_reducible apply Keeps.set_outs

theorem State.fresh_keeps {b0 s : State} (hp : [.loose] ⊆ K) (hK : Keeps K b0 s) : Keeps K b0 (State.fresh s) := by
  unfold State.fresh
  try dsimp only
  repeat' first
    | with_reducible assumption
    | with_reducible refine Keeps.ofEq (by with_reducible assumption) ?_
    | with_reducible apply Keeps.ite
    | dsimp only
    | split
    | with_reducible apply Keeps.set_loose

theorem State.undrain_keeps {b0 s : State} (id cab port : Nat) (hp : [.syn] ⊆ K) (hK : Keeps K b0 s) : Keeps K b0 (State.undrain s id cab port) := by
  unfold State.undrain
  try dsimp only
  repeat' first
    | with_reducible assumption
    | with_reducible refine Keeps.ofEq (by with_reducible assumption) ?_
    | with_reducible apply Keeps.ite
    | exact fun _ hu => hu
    | dsimp only
    | split
    | with_reducible apply Keeps.set_syn

theorem State.drained_keeps {b0 s : State} (id : Nat) (hp : [.syn] ⊆ K) (hK : Keeps K b0 s) : Keeps K b0 (State.drained s id) := by
  unfold State.drained
  try dsimp only
  repeat' first
    | with_reducible assumption
    | with_reducible refine Keeps.ofEq (by with_reducible assumption) ?_
    | with_reducible apply Keeps.ite
    | exact fun _ hu => hu
    | dsimp only
    | split
    | with_reducible apply Keeps.set_syn

theorem ran_keeps {b0 s : State} (o : Host.Outcome State Fault Refusal) (hK : Keeps K b0 s) (ho : KeepsO K b0 o) : Keeps K b0 (ran s o) := by
  obtain ⟨t, rfl, ht⟩ := ho
  exact ht
end Sys2Proof.Machine
end

