-- ==== Sys2Proof/Laws/KeepsOperands.lean ====
section
/-! SUPPORT. What the operations and commands of Machine/Operands.lean leave alone: one lemma each, in the terms of `Keeps`. The list each
asks for holds the parts it may change. -/
namespace Sys2Proof.Machine
variable {K : List Part}
theorem State.violate_keeps {b0 s : State} (req : Nat) (cab : Option Nat) (ctx : Option Nat) (fa win cause : Nat) (hp : [.regs, .detected] ⊆ K) (hK : Keeps K b0 s) : Keeps K b0 (State.violate s req cab ctx fa win cause) := by
  unfold State.violate
  try dsimp only
  repeat' first
    | with_reducible assumption
    | (with_reducible refine List.Subset.trans ?_ hp; decide)
    | with_reducible apply State.inc_keeps
    | with_reducible apply State.err_keeps

theorem State.refuse_keeps {b0 s : State} (req : Nat) (cab : Option Nat) (ctx : Option Nat) (fa : Nat) (data : Nat) (hp : [.detected] ⊆ K) (hK : Keeps K b0 s) : Keeps K b0 (State.refuse s req cab ctx fa data) := by
  unfold State.refuse
  try dsimp only
  repeat' first
    | with_reducible assumption
    | with_reducible apply State.err_keeps
end Sys2Proof.Machine
end

