-- ==== Sys2Proof/Laws/KeepsFlags.lean ====
section
/-! SUPPORT. What the operations and commands of Machine/Flags.lean leave alone: one lemma each, in the terms of `Keeps`. The list each
asks for holds the parts it may change. -/
namespace Sys2Proof.Machine
variable {K : List Part}
theorem State.countResp_keeps {b0 s : State} (cab port : Nat) (r : Resp) (hp : [.regs] ⊆ K) (hK : Keeps K b0 s) : Keeps K b0 (State.countResp s cab port r) := by
  unfold State.countResp
  try dsimp only
  repeat' first
    | with_reducible assumption
    | with_reducible apply State.inc_keeps
    | with_reducible refine Keeps.ofEq (by with_reducible assumption) ?_
    | with_reducible apply Keeps.ite
    | dsimp only
    | split

theorem State.refused_keeps {b0 s : State} (cab target reason : Nat) (abort job : Bool) (hp : [.regs, .pwr] ⊆ K) (hK : Keeps K b0 s) : Keeps K b0 (State.refused s cab target reason abort job) := by
  unfold State.refused
  try dsimp only
  repeat' first
    | with_reducible assumption
    | (with_reducible refine List.Subset.trans ?_ hp; decide)
    | with_reducible apply State.puts_keeps
    | with_reducible apply State.inc_keeps
    | with_reducible refine Keeps.ofEq (by with_reducible assumption) ?_
    | with_reducible apply Keeps.ite
    | dsimp only
    | split
    | with_reducible apply Keeps.set_pwr

theorem State.endCmd_keeps {b0 s : State} (cab : Nat) (hp : [.agenda, .regs, .pwr] ⊆ K) (hK : Keeps K b0 s) : Keeps K b0 (State.endCmd s cab) := by
  unfold State.endCmd
  try dsimp only
  repeat' first
    | with_reducible assumption
    | (with_reducible refine List.Subset.trans ?_ hp; decide)
    | with_reducible apply State.puts_keeps
    | with_reducible apply State.refuse_keeps
    | with_reducible refine Keeps.ofEq (by with_reducible assumption) ?_
    | with_reducible apply Keeps.ite
    | dsimp only
    | split
    | with_reducible apply Keeps.set_agenda
    | with_reducible apply Keeps.set_pwr
    | with_reducible apply Keeps.set_all
    | with_reducible exact Or.inl rfl
    | (with_reducible refine Or.inr (List.Subset.trans ?_ hp); decide)

theorem State.kickCab_keeps {b0 s : State} (cab : Nat) (hp : [.agenda] ⊆ K) (hK : Keeps K b0 s) : Keeps K b0 (State.kickCab s cab) := by
  unfold State.kickCab
  try dsimp only
  repeat' first
    | with_reducible assumption
    | with_reducible apply State.arm_keeps
    | with_reducible refine Keeps.ofEq (by with_reducible assumption) ?_
    | with_reducible apply Keeps.ite
    | (with_reducible refine Keeps.foldl ?_ (fun _ _ _ => ?_) <;> try dsimp only)

theorem State.setRunner_keeps {b0 s : State} (cab r : Nat) (x : RunSt) (hp : [.runners] ⊆ K) (hK : Keeps K b0 s) : Keeps K b0 (State.setRunner s cab r x) := by
  unfold State.setRunner
  try dsimp only
  repeat' first
    | with_reducible assumption
    | with_reducible apply State.idle_keeps
    | with_reducible refine Keeps.ofEq (by with_reducible assumption) ?_
    | with_reducible apply Keeps.ite
    | dsimp only
    | split
    | with_reducible apply Keeps.set_runners

theorem State.stepListed_keeps {b0 s : State} (l : RunList) (cab r : Nat) (hp : [.stp] ⊆ K) (hK : Keeps K b0 s) : Keeps K b0 (State.stepListed s l cab r) := by
  unfold State.stepListed
  try dsimp only
  repeat' first
    | with_reducible assumption
    | with_reducible refine Keeps.ofEq (by with_reducible assumption) ?_
    | with_reducible apply Keeps.ite
    | dsimp only
    | split
    | with_reducible apply Keeps.set_stp

theorem State.redispatch_keeps {b0 s : State} (c : Nat) (hp : [.agenda, .stp, .runners] ⊆ K) (hK : Keeps K b0 s) : Keeps K b0 (State.redispatch s c) := by
  unfold State.redispatch
  try dsimp only
  repeat' first
    | with_reducible assumption
    | (with_reducible refine List.Subset.trans ?_ hp; decide)
    | with_reducible apply State.later_keeps
    | with_reducible apply State.kickCab_keeps
    | with_reducible apply State.setRunner_keeps
    | with_reducible refine Keeps.ofEq (by with_reducible assumption) ?_
    | with_reducible apply Keeps.ite
    | (with_reducible refine Keeps.foldl ?_ (fun _ _ _ => ?_) <;> try dsimp only)
    | dsimp only
    | split
    | with_reducible apply Keeps.set_stp

theorem State.abortLower_keeps {b0 s : State} (cab reason : Nat) (hp : [.regs, .pwr] ⊆ K) (hK : Keeps K b0 s) : Keeps K b0 (State.abortLower s cab reason) := by
  unfold State.abortLower
  try dsimp only
  repeat' first
    | with_reducible assumption
    | (with_reducible refine List.Subset.trans ?_ hp; decide)
    | with_reducible apply State.dec_keeps
    | with_reducible apply State.refused_keeps
    | with_reducible refine Keeps.ofEq (by with_reducible assumption) ?_
    | with_reducible apply Keeps.ite
    | dsimp only
    | split
    | with_reducible apply Keeps.set_pwr

theorem State.entryAbort_keeps {b0 s : State} (cab reason : Nat) (hp : [.agenda, .regs, .pwr] ⊆ K) (hK : Keeps K b0 s) : Keeps K b0 (State.entryAbort s cab reason) := by
  unfold State.entryAbort
  try dsimp only
  repeat' first
    | with_reducible assumption
    | (with_reducible refine List.Subset.trans ?_ hp; decide)
    | with_reducible apply State.refused_keeps
    | with_reducible apply State.endCmd_keeps
    | with_reducible apply State.kickCab_keeps
    | with_reducible apply State.abortLower_keeps
    | with_reducible refine Keeps.ofEq (by with_reducible assumption) ?_
    | with_reducible apply Keeps.ite
    | dsimp only
    | split
    | with_reducible apply Keeps.set_pwr

theorem State.wdtChange_keeps {b0 s : State} (t : State) (hp : [.agenda, .mgt] ⊆ K) (hK : Keeps K b0 t) : Keeps K b0 (State.wdtChange s t) := by
  unfold State.wdtChange
  refine Keeps.foldl hK (fun u m hu => ?_)
  dsimp only
  repeat' first
    | with_reducible assumption
    | (with_reducible refine List.Subset.trans ?_ hp; decide)
    | with_reducible apply State.later_keeps
    | with_reducible apply Keeps.ite
    | with_reducible apply Keeps.set_mgt

theorem State.wakeDoze_keeps {b0 s : State} (cab src : Nat) (hp : [.agenda, .regs] ⊆ K) (hK : Keeps K b0 s) : Keeps K b0 (State.wakeDoze s cab src) := by
  unfold State.wakeDoze
  try dsimp only
  repeat' first
    | with_reducible assumption
    | (with_reducible refine List.Subset.trans ?_ hp; decide)
    | with_reducible apply State.put_keeps
    | with_reducible apply State.later_keeps
    | with_reducible refine Keeps.ofEq (by with_reducible assumption) ?_
    | with_reducible apply Keeps.ite

theorem State.decodeMiss_keeps {b0 s : State} (req cause addr : Nat) (hp : [.regs, .detected, .counted] ⊆ K) (hK : Keeps K b0 s) : Keeps K b0 (State.decodeMiss s req cause addr) := by
  unfold State.decodeMiss
  try dsimp only
  repeat' first
    | with_reducible assumption
    | (with_reducible refine List.Subset.trans ?_ hp; decide)
    | with_reducible apply State.incOn_keeps
    | with_reducible apply State.err_keeps

theorem State.answerCtl_keeps {b0 s : State} (m : Master) (r : Resp) (hp : [.outs] ⊆ K) (hK : Keeps K b0 s) : Keeps K b0 (State.answerCtl s m r) := by
  unfold State.answerCtl
  try dsimp only
  repeat' first
    | with_reducible assumption
    | with_reducible apply State.present!_keeps

theorem State.lostWrite_keeps {b0 s : State} (m : Master) (key : Nat) (hp : [.agenda, .cmx] ⊆ K) (hK : Keeps K b0 s) : Keeps K b0 (State.lostWrite s m key) := by
  unfold State.lostWrite
  try dsimp only
  repeat' first
    | with_reducible assumption
    | (with_reducible refine List.Subset.trans ?_ hp; decide)
    | with_reducible apply State.later_keeps
    | with_reducible refine Keeps.ofEq (by with_reducible assumption) ?_
    | with_reducible apply Keeps.ite
    | exact fun _ hu => hu
    | dsimp only
    | split
    | with_reducible apply Keeps.set_cmx

theorem State.atStation_keeps {b0 s : State} (m : Master) (cab key : Nat) (f : State → State) (hp : [.agenda, .regs, .detected, .outs, .cmx, .counted] ⊆ K) (hK : Keeps K b0 s) (hf : ∀ u, Keeps K b0 u → Keeps K b0 (f u)) : Keeps K b0 (State.atStation s m cab key f) := by
  unfold State.atStation
  try dsimp only
  repeat' first
    | with_reducible assumption
    | with_reducible apply hf
    | (with_reducible refine List.Subset.trans ?_ hp; decide)
    | with_reducible apply State.decodeMiss_keeps
    | with_reducible apply State.answerCtl_keeps
    | with_reducible apply State.lostWrite_keeps
    | with_reducible refine Keeps.ofEq (by with_reducible assumption) ?_
    | with_reducible apply Keeps.ite
    | dsimp only
    | split

theorem State.gate_keeps {b0 s : State} (ok : Bool) (m : Master) (key : Nat) (f : State → State) (hp : [.detected] ⊆ K) (hK : Keeps K b0 s) (hf : ∀ u, Keeps K b0 u → Keeps K b0 (f u)) : Keeps K b0 (State.gate s ok m key f) := by
  unfold State.gate
  split
  · exact hf s hK
  · exact State.locked_keeps _ _ (List.Subset.trans (by decide) hp) hK

theorem State.gateAt_keeps {b0 s : State} (ok : Bool) (m : Master) (cab key : Nat) (f : State → State) (hp : [.agenda, .regs, .detected, .outs, .cmx, .counted] ⊆ K) (hK : Keeps K b0 s) (hf : ∀ u, Keeps K b0 u → Keeps K b0 (f u)) : Keeps K b0 (State.gateAt s ok m cab key f) := by
  unfold State.gateAt
  exact State.atStation_keeps _ _ _ _ (List.Subset.trans (by decide) hp) hK (fun u hu => State.gate_keeps _ _ _ _ (List.Subset.trans (by decide) hp) hu hf)

theorem State.row_keeps {b0 s : State} (m : Master) (i : Instr) (f : State → State) (hp : [.agenda] ⊆ K) (hK : Keeps K b0 s) (hf : ∀ u, Keeps K b0 u → Keeps K b0 (f u)) : Keeps K b0 (State.row s m i f) := by
  unfold State.row
  split
  · exact State.at'_keeps _ _ _ hp hK
  · exact hf s hK

theorem State.parity_keeps {b0 s : State} (cab : Fin 128) (fld req : Nat) (hp : [.agenda, .regs, .detected, .stp, .runners, .tx] ⊆ K) (hK : Keeps K b0 s) : Keeps K b0 (State.parity s cab fld req) := by
  unfold State.parity
  try dsimp only
  repeat' first
    | with_reducible assumption
    | (with_reducible refine List.Subset.trans ?_ hp; decide)
    | with_reducible apply State.inc_keeps
    | with_reducible apply State.err_keeps
    | with_reducible apply State.replayCab_keeps
end Sys2Proof.Machine
end

