-- ==== Sys2Proof/Laws/KeepsStore.lean ====
section
/-! SUPPORT. What the operations and commands of Machine/Store.lean leave alone: one lemma each, in the terms of `Keeps`. The list each
asks for holds the parts it may change. -/
namespace Sys2Proof.Machine
variable {K : List Part}
theorem State.setSyms_keeps {b0 s : State} (a : Nat) (l : List Sym) (hp : [.mem] ⊆ K) (hK : Keeps K b0 s) : Keeps K b0 (State.setSyms s a l) := by
  unfold State.setSyms
  try dsimp only
  repeat' first
    | with_reducible assumption
    | with_reducible apply State.setCells_keeps

theorem State.setValid_keeps {b0 s : State} (cab bank row : Nat) (hp : [.valid] ⊆ K) (hK : Keeps K b0 s) : Keeps K b0 (State.setValid s cab bank row) := by
  unfold State.setValid
  try dsimp only
  repeat' first
    | with_reducible assumption
    | with_reducible refine Keeps.ofEq (by with_reducible assumption) ?_
    | with_reducible apply Keeps.ite
    | dsimp only
    | split
    | with_reducible apply Keeps.set_valid

theorem State.clearValid_keeps {b0 s : State} (cab bank row0 rows : Nat) (hp : [.valid] ⊆ K) (hK : Keeps K b0 s) : Keeps K b0 (State.clearValid s cab bank row0 rows) := by
  unfold State.clearValid
  try dsimp only
  repeat' first
    | with_reducible assumption
    | with_reducible refine Keeps.ofEq (by with_reducible assumption) ?_
    | with_reducible apply Keeps.ite
    | dsimp only
    | split
    | with_reducible apply Keeps.set_valid

theorem State.fenceCause_keeps {b0 s : State} (cab cause : Nat) (hp : [.agenda, .regs, .rep] ⊆ K) (hK : Keeps K b0 s) : Keeps K b0 (State.fenceCause s cab cause) := by
  unfold State.fenceCause
  try dsimp only
  repeat' first
    | with_reducible assumption
    | (with_reducible refine List.Subset.trans ?_ hp; decide)
    | with_reducible apply State.put_keeps
    | with_reducible apply State.later_keeps
    | with_reducible refine Keeps.ofEq (by with_reducible assumption) ?_
    | with_reducible apply Keeps.ite
    | dsimp only
    | split
    | with_reducible apply Keeps.set_rep

theorem State.retDrop_keeps {b0 s : State} (cab bank mac : Nat) (hp : [.agenda, .rep] ⊆ K) (hK : Keeps K b0 s) : Keeps K b0 (State.retDrop s cab bank mac) := by
  unfold State.retDrop
  try dsimp only
  repeat' first
    | with_reducible assumption
    | with_reducible refine Keeps.ofEq (by with_reducible assumption) ?_
    | with_reducible apply Keeps.ite
    | dsimp only
    | split
    | with_reducible apply Keeps.set_agenda
    | with_reducible apply Keeps.set_rep
    | with_reducible apply Keeps.set_all
    | with_reducible exact Or.inl rfl
    | (with_reducible refine Or.inr (List.Subset.trans ?_ hp); decide)

theorem State.armRetire_keeps {b0 s : State} (cab bank mac : Nat) (hp : [.agenda, .rep] ⊆ K) (hK : Keeps K b0 s) : Keeps K b0 (State.armRetire s cab bank mac) := by
  unfold State.armRetire
  try dsimp only
  repeat' first
    | with_reducible assumption
    | (with_reducible refine List.Subset.trans ?_ hp; decide)
    | with_reducible apply State.later_keeps
    | with_reducible apply State.retDrop_keeps
    | with_reducible refine Keeps.ofEq (by with_reducible assumption) ?_
    | with_reducible apply Keeps.ite
    | (with_reducible refine Keeps.foldl ?_ (fun _ _ _ => ?_) <;> try dsimp only)
    | dsimp only
    | split
    | with_reducible apply Keeps.set_rep

theorem State.countCorrection_keeps {b0 s : State} (cab bank pos : Nat) (spare : Bool) (req : Nat) (ctx : Option Nat) (hp : [.agenda, .regs, .detected, .rep, .counted] ⊆ K) (hK : Keeps K b0 s) : Keeps K b0 (State.countCorrection s cab bank pos spare req ctx) := by
  unfold State.countCorrection
  try dsimp only
  repeat' first
    | with_reducible assumption
    | (with_reducible refine List.Subset.trans ?_ hp; decide)
    | with_reducible apply State.put_keeps
    | with_reducible apply State.incOn_keeps
    | with_reducible apply State.err_keeps
    | with_reducible apply State.armRetire_keeps
    | with_reducible refine Keeps.ofEq (by with_reducible assumption) ?_
    | with_reducible apply Keeps.ite

theorem State.countUe_keeps {b0 s : State} (cab bank req : Nat) (ctx : Option Nat) (fa : Nat) (s0 s1 : Sym) (hp : [.agenda, .regs, .detected, .rep, .counted] ⊆ K) (hK : Keeps K b0 s) : Keeps K b0 (State.countUe s cab bank req ctx fa s0 s1) := by
  unfold State.countUe
  try dsimp only
  repeat' first
    | with_reducible assumption
    | (with_reducible refine List.Subset.trans ?_ hp; decide)
    | with_reducible apply State.inc_keeps
    | with_reducible apply State.incOn_keeps
    | with_reducible apply State.err_keeps
    | with_reducible apply State.fenceCause_keeps
    | with_reducible refine Keeps.ofEq (by with_reducible assumption) ?_
    | with_reducible apply Keeps.ite

theorem State.countVb_keeps {b0 s : State} (cab bank row : Nat) (hp : [.regs, .counted] ⊆ K) (hK : Keeps K b0 s) : Keeps K b0 (State.countVb s cab bank row) := by
  unfold State.countVb
  try dsimp only
  repeat' first
    | with_reducible assumption
    | with_reducible apply State.incOn_keeps
    | with_reducible refine Keeps.ofEq (by with_reducible assumption) ?_
    | with_reducible apply Keeps.ite

theorem State.readWord_keeps {b0 s : State} (cab bank row u req : Nat) (ctx : Option Nat) (fa : Nat) (hp : [.agenda, .regs, .detected, .rep, .counted] ⊆ K) (hK : Keeps K b0 s) : Keeps K b0 (State.readWord s cab bank row u req ctx fa).1 := by
  unfold State.readWord
  try dsimp only
  repeat' first
    | with_reducible assumption
    | (with_reducible refine List.Subset.trans ?_ hp; decide)
    | with_reducible apply State.countCorrection_keeps
    | with_reducible apply State.countUe_keeps
    | with_reducible apply State.countVb_keeps
    | with_reducible refine Keeps.ofEq (by with_reducible assumption) ?_
    | with_reducible apply Keeps.ite
    | dsimp only
    | split

theorem State.inject_keeps {b0 s : State} (cab bank : Nat) (l : List Sym) (hp : [.regs] ⊆ K) (hK : Keeps K b0 s) : Keeps K b0 (State.inject s cab bank l).1 := by
  unfold State.inject
  try dsimp only
  repeat' first
    | with_reducible assumption
    | with_reducible apply State.put_keeps
    | with_reducible refine Keeps.ofEq (by with_reducible assumption) ?_
    | with_reducible apply Keeps.ite
    | dsimp only
    | split

theorem State.storeWord_keeps {b0 s : State} (cab bank row : Nat) (w : W256) (hp : [.regs, .mem] ⊆ K) (hK : Keeps K b0 s) : Keeps K b0 (State.storeWord s cab bank row w) := by
  unfold State.storeWord
  try dsimp only
  repeat' first
    | with_reducible assumption
    | (with_reducible refine List.Subset.trans ?_ hp; decide)
    | with_reducible apply State.setSyms_keeps
    | with_reducible apply State.inject_keeps
    | with_reducible refine Keeps.ofEq (by with_reducible assumption) ?_
    | with_reducible apply Keeps.ite
    | dsimp only
    | split

theorem State.writeWord_keeps {b0 s : State} (cab bank row : Nat) (w : W256) (hp : [.regs, .mem, .valid] ⊆ K) (hK : Keeps K b0 s) : Keeps K b0 (State.writeWord s cab bank row w) := by
  unfold State.writeWord
  try dsimp only
  repeat' first
    | with_reducible assumption
    | (with_reducible refine List.Subset.trans ?_ hp; decide)
    | with_reducible apply State.put_keeps
    | with_reducible apply State.setValid_keeps
    | with_reducible apply State.storeWord_keeps
    | with_reducible refine Keeps.ofEq (by with_reducible assumption) ?_
    | with_reducible apply Keeps.ite
    | dsimp only
    | split

theorem State.mergeWrite_keeps {b0 s : State} (cab bank row u req : Nat) (ctx : Option Nat) (fa be : Nat) (w : W256) (hp : [.agenda, .regs, .mem, .valid, .detected, .rep, .counted] ⊆ K) (hK : Keeps K b0 s) : Keeps K b0 (State.mergeWrite s cab bank row u req ctx fa be w).1 := by
  unfold State.mergeWrite
  try dsimp only
  repeat' first
    | with_reducible assumption
    | (with_reducible refine List.Subset.trans ?_ hp; decide)
    | with_reducible apply State.readWord_keeps
    | with_reducible apply State.writeWord_keeps
    | with_reducible refine Keeps.ofEq (by with_reducible assumption) ?_
    | with_reducible apply Keeps.ite
    | dsimp only
    | split

theorem State.readWords_keeps {b0 s : State} (cab row u req : Nat) (ctx : Option Nat) (fa : Nat) (y0 : Nat) (y1 : Nat) (hp : [.agenda, .regs, .detected, .rep, .counted] ⊆ K) (hK : Keeps K b0 s) : Keeps K b0 (State.readWords s cab row u req ctx fa y0 y1).1 := by
  induction y0 generalizing s y1 with
  | zero =>
    unfold State.readWords
    try dsimp only
    repeat' first
      | with_reducible assumption
  | succ n ih =>
    unfold State.readWords
    try dsimp only
    repeat' first
      | with_reducible assumption
      | with_reducible apply State.readWord_keeps
      | with_reducible refine Keeps.ofEq (by with_reducible assumption) ?_
      | with_reducible apply ih

theorem State.writeWords_keeps {b0 s : State} (cab row : Nat) (y0 : Nat) (y1 : List W256) (hp : [.regs, .mem, .valid] ⊆ K) (hK : Keeps K b0 s) : Keeps K b0 (State.writeWords s cab row y0 y1) := by
  induction y1 generalizing s y0 with
  | nil =>
    unfold State.writeWords
    try dsimp only
    repeat' first
      | with_reducible assumption
  | cons x xs ih =>
    unfold State.writeWords
    try dsimp only
    repeat' first
      | with_reducible assumption
      | with_reducible apply State.writeWord_keeps
      | with_reducible refine Keeps.ofEq (by with_reducible assumption) ?_
      | with_reducible apply ih

theorem State.setEntry_keeps {b0 s : State} (cab bank i row src : Nat) (poison : Bool) (hp : [.regs] ⊆ K) (hK : Keeps K b0 s) : Keeps K b0 (State.setEntry s cab bank i row src poison) := by
  unfold State.setEntry
  try dsimp only
  repeat' first
    | with_reducible assumption
    | with_reducible apply State.puts_keeps
    | with_reducible apply State.putb_keeps

theorem State.moveRow_keeps {b0 s : State} (cab bank row u src req : Nat) (hp : [.agenda, .regs, .mem, .detected, .rep, .counted] ⊆ K) (hK : Keeps K b0 s) : Keeps K b0 (State.moveRow s cab bank row u src req).1 := by
  unfold State.moveRow
  try dsimp only
  repeat' first
    | with_reducible assumption
    | (with_reducible refine List.Subset.trans ?_ hp; decide)
    | with_reducible apply State.setSyms_keeps
    | with_reducible apply State.countCorrection_keeps
    | with_reducible apply State.countUe_keeps
    | with_reducible apply State.countVb_keeps
    | with_reducible apply State.inject_keeps
    | with_reducible apply State.setEntry_keeps
    | with_reducible refine Keeps.ofEq (by with_reducible assumption) ?_
    | with_reducible apply Keeps.ite
    | dsimp only
    | split
end Sys2Proof.Machine
end

