-- ==== Sys2Proof/Laws/KeepsLoose.lean ====
section
/-! SUPPORT. What the operations and commands of Machine/Loose.lean leave alone: one lemma each, in the terms of `Keeps`. The list each
asks for holds the parts it may change. -/
namespace Sys2Proof.Machine
variable {K : List Part}
theorem State.setPairSt_keeps {b0 s : State} (cab pair : Nat) (p : PairSt) (hp : [.loose] ⊆ K) (hK : Keeps K b0 s) : Keeps K b0 (State.setPairSt s cab pair p) := by
  unfold State.setPairSt
  try dsimp only
  repeat' first
    | with_reducible assumption
    | with_reducible apply State.idle_keeps
    | with_reducible refine Keeps.ofEq (by with_reducible assumption) ?_
    | with_reducible apply Keeps.ite
    | dsimp only
    | split
    | with_reducible apply Keeps.set_loose

theorem State.armPair_keeps {b0 s : State} (cab pair : Nat) (hp : [.agenda] ⊆ K) (hK : Keeps K b0 s) : Keeps K b0 (State.armPair s cab pair) := by
  unfold State.armPair
  try dsimp only
  repeat' first
    | with_reducible assumption
    | with_reducible apply State.later_keeps
    | with_reducible apply State.arm_keeps
    | with_reducible apply State.disarm_keeps
    | with_reducible refine Keeps.ofEq (by with_reducible assumption) ?_
    | with_reducible apply Keeps.ite

theorem State.enqueue_keeps {b0 s : State} (cab : Nat) (q : LReq) (hp : [.agenda, .loose] ⊆ K) (hK : Keeps K b0 s) : Keeps K b0 (State.enqueue s cab q) := by
  unfold State.enqueue
  try dsimp only
  repeat' first
    | with_reducible assumption
    | (with_reducible refine List.Subset.trans ?_ hp; decide)
    | with_reducible apply State.setPairSt_keeps
    | with_reducible apply State.armPair_keeps

theorem State.enqueueNow_keeps {b0 s : State} (cab : Nat) (q : LReq) (hp : [.agenda, .loose] ⊆ K) (hK : Keeps K b0 s) : Keeps K b0 (State.enqueueNow s cab q) := by
  unfold State.enqueueNow
  try dsimp only
  repeat' first
    | with_reducible assumption
    | (with_reducible refine List.Subset.trans ?_ hp; decide)
    | with_reducible apply State.later_keeps
    | with_reducible apply State.setPairSt_keeps
    | with_reducible apply State.armPair_keeps

theorem State.deliver_keeps {b0 s : State} (q : LReq) (a : Ans) (hp : [.agenda, .loose, .syn] ⊆ K) (hK : Keeps K b0 s) : Keeps K b0 (State.deliver s q a) := by
  unfold State.deliver
  try dsimp only
  repeat' first
    | with_reducible assumption
    | (with_reducible refine List.Subset.trans ?_ hp; decide)
    | with_reducible apply State.at'_keeps
    | with_reducible apply State.later_keeps
    | with_reducible apply State.gate_keeps
    | with_reducible refine Keeps.ofEq (by with_reducible assumption) ?_
    | with_reducible apply Keeps.ite
    | exact fun _ hu => hu
    | dsimp only
    | split
    | with_reducible apply Keeps.set_loose
    | with_reducible apply Keeps.set_syn
    | with_reducible apply Keeps.set_all
    | with_reducible exact Or.inl rfl
    | (with_reducible refine Or.inr (List.Subset.trans ?_ hp); decide)

theorem State.launch_keeps {b0 s : State} (q : LReq) (a : Option Ans) (cab dst dstDie lvl : Nat) (hp : [.agenda, .loose] ⊆ K) (hK : Keeps K b0 s) : Keeps K b0 (State.launch s q a cab dst dstDie lvl) := by
  unfold State.launch
  try dsimp only
  repeat' first
    | with_reducible assumption
    | (with_reducible refine List.Subset.trans ?_ hp; decide)
    | with_reducible apply State.later_keeps
    | with_reducible refine Keeps.ofEq (by with_reducible assumption) ?_
    | with_reducible apply Keeps.ite
    | exact fun _ hu => hu
    | dsimp only
    | split
    | with_reducible apply Keeps.set_loose

theorem State.launchFar_keeps {b0 s : State} (q : LReq) (a : Option Ans) (cab die : Nat) (urg : Bool) (hp : [.agenda, .regs, .detected, .loose, .syn] ⊆ K) (hK : Keeps K b0 s) : Keeps K b0 (State.launchFar s q a cab die urg) := by
  unfold State.launchFar
  try dsimp only
  repeat' first
    | with_reducible assumption
    | (with_reducible refine List.Subset.trans ?_ hp; decide)
    | with_reducible apply State.inc_keeps
    | with_reducible apply State.refuse_keeps
    | with_reducible apply State.deliver_keeps
    | with_reducible apply State.launch_keeps
    | with_reducible refine Keeps.ofEq (by with_reducible assumption) ?_
    | with_reducible apply Keeps.ite
    | dsimp only
    | split
    | with_reducible apply Keeps.set_loose

theorem State.readBack_keeps {b0 s : State} (q : LReq) (hp : [.loose] ⊆ K) (hK : Keeps K b0 s) : Keeps K b0 (State.readBack s q) := by
  unfold State.readBack
  try dsimp only
  repeat' first
    | with_reducible assumption
    | with_reducible apply State.gate_keeps
    | with_reducible refine Keeps.ofEq (by with_reducible assumption) ?_
    | with_reducible apply Keeps.ite
    | exact fun _ hu => hu
    | dsimp only
    | split
    | with_reducible apply Keeps.set_loose

theorem State.reply_keeps {b0 s : State} (q : LReq) (a : Ans) (cab : Nat) (urg : Bool) (hp : [.agenda, .regs, .detected, .loose, .syn] ⊆ K) (hK : Keeps K b0 s) : Keeps K b0 (State.reply s q a cab urg) := by
  unfold State.reply
  try dsimp only
  repeat' first
    | with_reducible assumption
    | (with_reducible refine List.Subset.trans ?_ hp; decide)
    | with_reducible apply State.drained_keeps
    | with_reducible apply State.deliver_keeps
    | with_reducible apply State.launch_keeps
    | with_reducible apply State.launchFar_keeps
    | with_reducible apply State.readBack_keeps
    | with_reducible refine Keeps.ofEq (by with_reducible assumption) ?_
    | with_reducible apply Keeps.ite

theorem State.replyNow_keeps {b0 s : State} (q : LReq) (a : Ans) (cab : Nat) (hp : [.agenda, .regs, .detected, .loose, .syn] ⊆ K) (hK : Keeps K b0 s) : Keeps K b0 (State.replyNow s q a cab) := by
  unfold State.replyNow
  try dsimp only
  repeat' first
    | with_reducible assumption
    | (with_reducible refine List.Subset.trans ?_ hp; decide)
    | with_reducible apply State.drained_keeps
    | with_reducible apply State.deliver_keeps
    | with_reducible apply State.launchFar_keeps
    | with_reducible refine Keeps.ofEq (by with_reducible assumption) ?_
    | with_reducible apply Keeps.ite

theorem State.arrive_keeps {b0 s : State} (q : LReq) (p i : Nat) (hp : [.agenda, .regs, .detected, .loose, .syn, .pwr] ⊆ K) (hK : Keeps K b0 s) : Keeps K b0 (State.arrive s q p i) := by
  unfold State.arrive
  try dsimp only
  repeat' first
    | with_reducible assumption
    | (with_reducible refine List.Subset.trans ?_ hp; decide)
    | with_reducible apply State.entryAbort_keeps
    | with_reducible apply State.wakeDoze_keeps
    | with_reducible apply State.enqueue_keeps
    | with_reducible apply State.reply_keeps
    | with_reducible refine Keeps.ofEq (by with_reducible assumption) ?_
    | with_reducible apply Keeps.ite

theorem State.replyAsleep_keeps {b0 s : State} (q : LReq) (cab p : Nat) (hp : [.agenda, .regs, .detected, .loose, .syn] ⊆ K) (hK : Keeps K b0 s) : Keeps K b0 (State.replyAsleep s q cab p) := by
  unfold State.replyAsleep
  try dsimp only
  repeat' first
    | with_reducible assumption
    | (with_reducible refine List.Subset.trans ?_ hp; decide)
    | with_reducible apply State.later_keeps
    | with_reducible apply State.drained_keeps
    | with_reducible apply State.replyNow_keeps
    | with_reducible refine Keeps.ofEq (by with_reducible assumption) ?_
    | with_reducible apply Keeps.ite
    | exact fun _ hu => hu
    | dsimp only
    | split
    | with_reducible apply Keeps.set_loose

theorem State.issueLoose_keeps {b0 s : State} (q : LReq) (cab : Nat) (hp : [.agenda, .regs, .detected, .loose, .syn, .pwr] ⊆ K) (hK : Keeps K b0 s) : Keeps K b0 (State.issueLoose s q cab) := by
  unfold State.issueLoose
  try dsimp only
  repeat' first
    | with_reducible assumption
    | (with_reducible refine List.Subset.trans ?_ hp; decide)
    | with_reducible apply State.at'_keeps
    | with_reducible apply State.undrain_keeps
    | with_reducible apply State.violate_keeps
    | with_reducible apply State.refuse_keeps
    | with_reducible apply State.refused_keeps
    | with_reducible apply State.launch_keeps
    | with_reducible apply State.launchFar_keeps
    | with_reducible apply State.replyNow_keeps
    | with_reducible apply State.arrive_keeps
    | with_reducible apply State.replyAsleep_keeps
    | with_reducible refine Keeps.ofEq (by with_reducible assumption) ?_
    | with_reducible apply Keeps.ite
    | exact fun _ hu => hu
    | dsimp only
    | split

theorem State.checkHead_keeps {b0 s : State} (cab pair : Nat) (q : LReq) (hp : [.agenda, .regs, .detected, .loose, .syn] ⊆ K) (hK : Keeps K b0 s) : Keeps K b0 (State.checkHead s cab pair q).1 := by
  unfold State.checkHead
  try dsimp only
  repeat' first
    | with_reducible assumption
    | (with_reducible refine List.Subset.trans ?_ hp; decide)
    | with_reducible apply State.violate_keeps
    | with_reducible apply State.setPairSt_keeps
    | with_reducible apply State.reply_keeps
    | with_reducible refine Keeps.ofEq (by with_reducible assumption) ?_
    | with_reducible apply Keeps.ite
    | exact fun _ hu => hu
    | dsimp only
    | split

theorem State.answerIdle_keeps {b0 s : State} (cab pair : Nat) (hp : [.agenda, .regs, .detected, .loose, .syn] ⊆ K) (hK : Keeps K b0 s) : Keeps K b0 (State.answerIdle s cab pair) := by
  unfold State.answerIdle
  try dsimp only
  repeat' first
    | with_reducible assumption
    | (with_reducible refine List.Subset.trans ?_ hp; decide)
    | with_reducible apply State.setPairSt_keeps
    | with_reducible apply State.reply_keeps
    | with_reducible apply State.checkHead_keeps
    | with_reducible refine Keeps.ofEq (by with_reducible assumption) ?_
    | with_reducible apply Keeps.ite
    | (with_reducible refine Keeps.foldl ?_ (fun _ _ _ => ?_) <;> try dsimp only)

theorem State.presentHeads_keeps {b0 s : State} (cab pair : Nat) (hp : [.agenda, .regs, .detected, .loose, .syn] ⊆ K) (hK : Keeps K b0 s) : Keeps K b0 (State.presentHeads s cab pair) := by
  unfold State.presentHeads
  try dsimp only
  repeat' first
    | with_reducible assumption
    | (with_reducible refine List.Subset.trans ?_ hp; decide)
    | with_reducible apply State.at'_keeps
    | with_reducible apply State.setPairSt_keeps
    | with_reducible apply State.checkHead_keeps
    | with_reducible apply State.answerIdle_keeps
    | with_reducible refine Keeps.ofEq (by with_reducible assumption) ?_
    | with_reducible apply Keeps.ite
    | (with_reducible refine Keeps.foldl ?_ (fun _ _ _ => ?_) <;> try dsimp only)
    | exact fun _ hu => hu
    | dsimp only
    | split

theorem State.withdraw_keeps {b0 s : State} (f : Nat → LReq → Bool) (hp : [.loose] ⊆ K) (hK : Keeps K b0 s) : Keeps K b0 (State.withdraw s f).1 := by
  unfold State.withdraw
  try dsimp only
  repeat' first
    | with_reducible assumption
    | with_reducible apply State.setPairSt_keeps
    | with_reducible refine Keeps.ofEq (by with_reducible assumption) ?_
    | with_reducible apply Keeps.ite
    | (with_reducible refine Keeps.foldl ?_ (fun _ _ _ => ?_) <;> try dsimp only)

theorem State.grant_keeps {b0 s : State} (cab pair : Nat) (q : PReq) (hp : [.agenda, .regs, .loose, .counted] ⊆ K) (hK : Keeps K b0 s) : Keeps K b0 (State.grant s cab pair q) := by
  unfold State.grant
  try dsimp only
  repeat' first
    | with_reducible assumption
    | (with_reducible refine List.Subset.trans ?_ hp; decide)
    | with_reducible apply State.maxOn_keeps
    | with_reducible apply State.later_keeps
    | with_reducible apply State.setPairSt_keeps
    | with_reducible refine Keeps.ofEq (by with_reducible assumption) ?_
    | with_reducible apply Keeps.ite

theorem State.cutBurst_keeps {b0 s : State} (cab pair : Nat) (b : Burst) (hp : [.loose] ⊆ K) (hK : Keeps K b0 s) : Keeps K b0 (State.cutBurst s cab pair b) := by
  unfold State.cutBurst
  try dsimp only
  repeat' first
    | with_reducible assumption
    | with_reducible apply State.setPairSt_keeps

theorem State.abandon_keeps {b0 s : State} (cab pair : Nat) (b : Burst) (hp : [.loose] ⊆ K) (hK : Keeps K b0 s) : Keeps K b0 (State.abandon s cab pair b) := by
  unfold State.abandon
  try dsimp only
  repeat' first
    | with_reducible assumption
    | with_reducible apply State.cutBurst_keeps
    | with_reducible refine Keeps.ofEq (by with_reducible assumption) ?_
    | with_reducible apply Keeps.ite
    | dsimp only
    | split
    | with_reducible apply Keeps.set_loose

theorem State.clearClaim_keeps {b0 s : State} (cab grp a : Nat) (hp : [.agenda, .loose] ⊆ K) (hK : Keeps K b0 s) : Keeps K b0 (State.clearClaim s cab grp a) := by
  unfold State.clearClaim
  try dsimp only
  repeat' first
    | with_reducible assumption
    | (with_reducible refine List.Subset.trans ?_ hp; decide)
    | with_reducible apply State.armPair_keeps
    | with_reducible apply State.cutBurst_keeps
    | with_reducible refine Keeps.ofEq (by with_reducible assumption) ?_
    | with_reducible apply Keeps.ite
    | (with_reducible refine Keeps.foldl ?_ (fun _ _ _ => ?_) <;> try dsimp only)

theorem State.decideDbg_keeps {b0 s : State} (cab pair : Nat) (hp : [.agenda, .regs, .loose, .counted] ⊆ K) (hK : Keeps K b0 s) : Keeps K b0 (State.decideDbg s cab pair) := by
  unfold State.decideDbg
  try dsimp only
  repeat' first
    | with_reducible assumption
    | (with_reducible refine List.Subset.trans ?_ hp; decide)
    | with_reducible apply State.grant_keeps
    | with_reducible apply State.abandon_keeps
    | with_reducible refine Keeps.ofEq (by with_reducible assumption) ?_
    | with_reducible apply Keeps.ite
    | (with_reducible refine Keeps.foldl ?_ (fun _ _ _ => ?_) <;> try dsimp only)
    | dsimp only
    | split

theorem State.decideLevel_keeps {b0 s : State} (cab pair lvl : Nat) (cands : List (PReq × Nat)) (hp : [.agenda, .regs, .loose, .counted] ⊆ K) (hK : Keeps K b0 s) : Keeps K b0 (State.decideLevel s cab pair lvl cands) := by
  unfold State.decideLevel
  try dsimp only
  repeat' first
    | with_reducible assumption
    | (with_reducible refine List.Subset.trans ?_ hp; decide)
    | with_reducible apply State.setPairSt_keeps
    | with_reducible apply State.grant_keeps
    | with_reducible refine Keeps.ofEq (by with_reducible assumption) ?_
    | with_reducible apply Keeps.ite
    | (with_reducible refine Keeps.foldl ?_ (fun _ _ _ => ?_) <;> try dsimp only)
    | dsimp only
    | split

theorem State.decideTwice_keeps {b0 s : State} (cab pair lvl : Nat) (hp : [.agenda, .regs, .detected, .loose, .syn, .counted] ⊆ K) (hK : Keeps K b0 s) : Keeps K b0 (State.decideTwice s cab pair lvl) := by
  unfold State.decideTwice
  try dsimp only
  repeat' first
    | with_reducible assumption
    | (with_reducible refine List.Subset.trans ?_ hp; decide)
    | with_reducible apply State.presentHeads_keeps
    | with_reducible apply State.decideLevel_keeps

theorem State.decide'_keeps {b0 s : State} (cab pair : Nat) (hp : [.agenda, .regs, .detected, .loose, .syn, .counted] ⊆ K) (hK : Keeps K b0 s) : Keeps K b0 (State.decide' s cab pair) := by
  unfold State.decide'
  try dsimp only
  repeat' first
    | with_reducible assumption
    | (with_reducible refine List.Subset.trans ?_ hp; decide)
    | with_reducible apply State.presentHeads_keeps
    | with_reducible apply State.decideDbg_keeps
    | with_reducible apply State.decideTwice_keeps
    | with_reducible refine Keeps.ofEq (by with_reducible assumption) ?_
    | with_reducible apply Keeps.ite
    | (with_reducible refine Keeps.foldl ?_ (fun _ _ _ => ?_) <;> try dsimp only)

theorem State.perform_keeps {b0 s : State} (cab : Nat) (b : Burst) (hp : [.agenda, .regs, .mem, .valid, .detected, .rep, .pwr, .counted] ⊆ K) (hK : Keeps K b0 s) : Keeps K b0 (State.perform s cab b).1 := by
  unfold State.perform
  try dsimp only
  repeat' first
    | with_reducible assumption
    | (with_reducible refine List.Subset.trans ?_ hp; decide)
    | with_reducible apply State.usedBank_keeps
    | with_reducible apply State.readWord_keeps
    | with_reducible apply State.writeWord_keeps
    | with_reducible apply State.mergeWrite_keeps
    | with_reducible refine Keeps.ofEq (by with_reducible assumption) ?_
    | with_reducible apply Keeps.ite
    | dsimp only
    | split

theorem State.commitHalf_keeps {b0 s : State} (cab pair : Nat) (b : Burst) (hp : [.regs, .mem, .valid, .loose] ⊆ K) (hK : Keeps K b0 s) : Keeps K b0 (State.commitHalf s cab pair b) := by
  unfold State.commitHalf
  try dsimp only
  repeat' first
    | with_reducible assumption
    | (with_reducible refine List.Subset.trans ?_ hp; decide)
    | with_reducible apply State.writeWord_keeps
    | with_reducible apply State.setPairSt_keeps

theorem State.endBurst_keeps {b0 s : State} (cab pair : Nat) (b : Burst) (hp : [.regs, .loose, .counted] ⊆ K) (hK : Keeps K b0 s) : Keeps K b0 (State.endBurst s cab pair b) := by
  unfold State.endBurst
  try dsimp only
  repeat' first
    | with_reducible assumption
    | (with_reducible refine List.Subset.trans ?_ hp; decide)
    | with_reducible apply State.incOn_keeps
    | with_reducible apply State.setPairSt_keeps

theorem State.setSwp_keeps {b0 s : State} (cab : Nat) (e : SwpSt) (hp : [.rep] ⊆ K) (hK : Keeps K b0 s) : Keeps K b0 (State.setSwp s cab e) := by
  unfold State.setSwp
  try dsimp only
  repeat' first
    | with_reducible assumption
    | with_reducible apply State.idle_keeps
    | with_reducible refine Keeps.ofEq (by with_reducible assumption) ?_
    | with_reducible apply Keeps.ite
    | dsimp only
    | split
    | with_reducible apply Keeps.set_rep

theorem State.sweepNext_keeps {b0 s : State} (cab bank : Nat) (hp : [.agenda, .loose, .rep] ⊆ K) (hK : Keeps K b0 s) : Keeps K b0 (State.sweepNext s cab bank) := by
  unfold State.sweepNext
  try dsimp only
  repeat' first
    | with_reducible assumption
    | (with_reducible refine List.Subset.trans ?_ hp; decide)
    | with_reducible apply State.fresh_keeps
    | with_reducible apply State.enqueue_keeps
    | with_reducible apply State.setSwp_keeps
    | with_reducible refine Keeps.ofEq (by with_reducible assumption) ?_
    | with_reducible apply Keeps.ite
    | dsimp only
    | split

theorem State.sweepSlot_keeps {b0 s : State} (cab bank row0 rows : Nat) (hp : [.agenda, .valid, .loose, .rep] ⊆ K) (hK : Keeps K b0 s) : Keeps K b0 (State.sweepSlot s cab bank row0 rows) := by
  unfold State.sweepSlot
  try dsimp only
  repeat' first
    | with_reducible assumption
    | (with_reducible refine List.Subset.trans ?_ hp; decide)
    | with_reducible apply State.arm_keeps
    | with_reducible apply State.clearValid_keeps
    | with_reducible apply State.setSwp_keeps
    | with_reducible apply State.sweepNext_keeps
    | with_reducible refine Keeps.ofEq (by with_reducible assumption) ?_
    | with_reducible apply Keeps.ite
    | dsimp only
    | split

theorem State.setAsy_keeps {b0 s : State} (cab : Nat) (p : Option AsyPass) (hp : [.rep] ⊆ K) (hK : Keeps K b0 s) : Keeps K b0 (State.setAsy s cab p) := by
  unfold State.setAsy
  try dsimp only
  repeat' first
    | with_reducible assumption
    | with_reducible refine Keeps.ofEq (by with_reducible assumption) ?_
    | with_reducible apply Keeps.ite
    | dsimp only
    | split
    | with_reducible apply Keeps.set_rep

theorem State.asyCheck_keeps {b0 s : State} (cab n : Nat) (hp : [.agenda] ⊆ K) (hK : Keeps K b0 s) : Keeps K b0 (State.asyCheck s cab n) := by
  unfold State.asyCheck
  try dsimp only
  repeat' first
    | with_reducible assumption
    | with_reducible apply State.arm_keeps
    | with_reducible apply State.started_keeps
    | with_reducible refine Keeps.ofEq (by with_reducible assumption) ?_
    | with_reducible apply Keeps.ite
    | dsimp only
    | split

theorem State.asyFree_keeps {b0 s : State} (q : LReq) (hp : [.agenda, .rep] ⊆ K) (hK : Keeps K b0 s) : Keeps K b0 (State.asyFree s q) := by
  unfold State.asyFree
  try dsimp only
  repeat' first
    | with_reducible assumption
    | (with_reducible refine List.Subset.trans ?_ hp; decide)
    | with_reducible apply State.setAsy_keeps
    | with_reducible apply State.asyCheck_keeps
    | with_reducible refine Keeps.ofEq (by with_reducible assumption) ?_
    | with_reducible apply Keeps.ite
    | dsimp only
    | split

theorem State.assayNote_keeps {b0 s : State} (cab word u : Nat) (hp : [.agenda, .regs, .loose, .rep] ⊆ K) (hK : Keeps K b0 s) : Keeps K b0 (State.assayNote s cab word u) := by
  unfold State.assayNote
  try dsimp only
  repeat' first
    | with_reducible assumption
    | (with_reducible refine List.Subset.trans ?_ hp; decide)
    | with_reducible apply State.puts_keeps
    | with_reducible apply State.inc_keeps
    | with_reducible apply State.fresh_keeps
    | with_reducible apply State.enqueue_keeps
    | with_reducible apply State.setAsy_keeps
    | with_reducible apply State.repair_keeps
    | with_reducible refine Keeps.ofEq (by with_reducible assumption) ?_
    | with_reducible apply Keeps.ite
    | exact fun _ hu => hu
    | dsimp only
    | split

theorem State.assayNotes_keeps {b0 s : State} (q : LReq) (u : Nat) (hp : [.agenda, .regs, .loose, .rep] ⊆ K) (hK : Keeps K b0 s) : Keeps K b0 (State.assayNotes s q u) := by
  unfold State.assayNotes
  try dsimp only
  repeat' first
    | with_reducible assumption
    | with_reducible apply State.assayNote_keeps
    | with_reducible refine Keeps.ofEq (by with_reducible assumption) ?_
    | with_reducible apply Keeps.ite
    | dsimp only
    | split

theorem State.finish_keeps {b0 s : State} (cab pair : Nat) (b : Burst) (hp : [.agenda, .regs, .mem, .valid, .detected, .loose, .rep, .syn, .pwr, .counted] ⊆ K) (hK : Keeps K b0 s) : Keeps K b0 (State.finish s cab pair b) := by
  unfold State.finish
  try dsimp only
  repeat' first
    | with_reducible assumption
    | (with_reducible refine List.Subset.trans ?_ hp; decide)
    | with_reducible apply State.reply_keeps
    | with_reducible apply State.perform_keeps
    | with_reducible apply State.endBurst_keeps
    | with_reducible apply State.sweepSlot_keeps
    | with_reducible apply State.asyFree_keeps
    | with_reducible apply State.assayNotes_keeps
    | with_reducible apply State.repair_keeps
    | with_reducible refine Keeps.ofEq (by with_reducible assumption) ?_
    | with_reducible apply Keeps.ite
    | dsimp only
    | split

theorem execPairArbitration_keeps {b0 s : State} (cab : Cab) (pair : Fin 16) (hp : [.agenda, .regs, .detected, .loose, .syn, .counted] ⊆ K) (hK : Keeps K b0 s) : KeepsO K b0 (execPairArbitration cab pair s) := by
  unfold execPairArbitration
  try dsimp only
  repeat' first
    | with_reducible assumption
    | (with_reducible refine List.Subset.trans ?_ hp; decide)
    | with_reducible apply KeepsO.next
    | with_reducible apply State.armPair_keeps
    | with_reducible apply State.decide'_keeps
    | with_reducible refine Keeps.ofEq (by with_reducible assumption) ?_
    | with_reducible apply Keeps.ite

theorem execLooseBurstDone_keeps {b0 s : State} (cab : Cab) (pair : Fin 16) (hp : [.agenda, .regs, .mem, .valid, .detected, .loose, .rep, .syn, .pwr, .counted] ⊆ K) (hK : Keeps K b0 s) : KeepsO K b0 (execLooseBurstDone cab pair s) := by
  unfold execLooseBurstDone
  try dsimp only
  repeat' first
    | with_reducible assumption
    | (with_reducible refine List.Subset.trans ?_ hp; decide)
    | with_reducible apply KeepsO.next
    | with_reducible apply State.commitHalf_keeps
    | with_reducible apply State.finish_keeps
    | with_reducible apply State.repair_keeps
    | with_reducible refine Keeps.ofEq (by with_reducible assumption) ?_
    | with_reducible apply Keeps.ite
    | (with_reducible refine Keeps.foldl ?_ (fun _ _ _ => ?_) <;> try dsimp only)

theorem execRequestUrgent_keeps {b0 s : State} (cab : Cab) (pair : Fin 16) (hp : [.loose] ⊆ K) (hK : Keeps K b0 s) : KeepsO K b0 (execRequestUrgent cab pair s) := by
  unfold execRequestUrgent
  try dsimp only
  repeat' first
    | with_reducible assumption
    | with_reducible apply KeepsO.next
    | with_reducible apply State.setPairSt_keeps

theorem execArbPrioWrite_keeps {b0 s : State} (m : Master) (cab : Cab) (v : W32) (hp : [.agenda, .regs, .detected, .outs, .loose, .cmx, .counted] ⊆ K) (hK : Keeps K b0 s) : KeepsO K b0 (execArbPrioWrite m cab v s) := by
  unfold execArbPrioWrite
  try dsimp only
  repeat' first
    | with_reducible assumption
    | (with_reducible refine List.Subset.trans ?_ hp; decide)
    | with_reducible apply KeepsO.next
    | with_reducible apply State.setReg_keeps
    | with_reducible apply State.atStation_keeps
    | with_reducible apply State.row_keeps
    | with_reducible refine Keeps.ofEq (by with_reducible assumption) ?_
    | with_reducible apply Keeps.ite
    | with_reducible apply KeepsO.ite
    | (intro _ _ <;> try dsimp only)
    | dsimp only
    | split
    | with_reducible apply Keeps.set_loose

theorem execArbAgeWrite_keeps {b0 s : State} (m : Master) (cab : Cab) (v : W32) (hp : [.agenda, .regs, .detected, .outs, .loose, .cmx, .counted] ⊆ K) (hK : Keeps K b0 s) : KeepsO K b0 (execArbAgeWrite m cab v s) := by
  unfold execArbAgeWrite
  try dsimp only
  repeat' first
    | with_reducible assumption
    | (with_reducible refine List.Subset.trans ?_ hp; decide)
    | with_reducible apply KeepsO.next
    | with_reducible apply State.put_keeps
    | with_reducible apply State.later_keeps
    | with_reducible apply State.atStation_keeps
    | with_reducible apply State.row_keeps
    | with_reducible refine Keeps.ofEq (by with_reducible assumption) ?_
    | with_reducible apply Keeps.ite
    | (with_reducible refine Keeps.foldl ?_ (fun _ _ _ => ?_) <;> try dsimp only)
    | with_reducible apply KeepsO.ite
    | (intro _ _ <;> try dsimp only)
    | dsimp only
    | split
    | with_reducible apply Keeps.set_loose

theorem execArbCntClr_keeps {b0 s : State} (m : Master) (cab : Cab) (v : W32) (hp : [.agenda, .regs, .detected, .outs, .cmx, .counted] ⊆ K) (hK : Keeps K b0 s) : KeepsO K b0 (execArbCntClr m cab v s) := by
  unfold execArbCntClr
  try dsimp only
  repeat' first
    | with_reducible assumption
    | (with_reducible refine List.Subset.trans ?_ hp; decide)
    | with_reducible apply KeepsO.next
    | with_reducible apply State.put_keeps
    | with_reducible apply State.clearOn_keeps
    | with_reducible apply State.atStation_keeps
    | with_reducible apply State.row_keeps
    | with_reducible refine Keeps.ofEq (by with_reducible assumption) ?_
    | with_reducible apply Keeps.ite
    | (with_reducible refine Keeps.foldl ?_ (fun _ _ _ => ?_) <;> try dsimp only)
    | with_reducible apply KeepsO.ite
    | (intro _ _ <;> try dsimp only)

theorem State.moveFlit_keeps {b0 s : State} (f : LFlit) (hp : [.loose] ⊆ K) (hK : Keeps K b0 s) : Keeps K b0 (State.moveFlit s f) := by
  unfold State.moveFlit
  try dsimp only
  repeat' first
    | with_reducible assumption
    | with_reducible refine Keeps.ofEq (by with_reducible assumption) ?_
    | with_reducible apply Keeps.ite
    | exact fun _ hu => hu
    | dsimp only
    | split
    | with_reducible apply Keeps.set_loose

theorem State.setFlit_keeps {b0 s : State} (f : LFlit) (hp : [.loose] ⊆ K) (hK : Keeps K b0 s) : Keeps K b0 (State.setFlit s f) := by
  unfold State.setFlit
  try dsimp only
  repeat' first
    | with_reducible assumption
    | with_reducible refine Keeps.ofEq (by with_reducible assumption) ?_
    | with_reducible apply Keeps.ite
    | exact fun _ hu => hu
    | dsimp only
    | split
    | with_reducible apply Keeps.set_loose

theorem State.setFlitAs_keeps {b0 s : State} (id : Nat) (f : LFlit) (hp : [.loose] ⊆ K) (hK : Keeps K b0 s) : Keeps K b0 (State.setFlitAs s id f) := by
  unfold State.setFlitAs
  try dsimp only
  repeat' first
    | with_reducible assumption
    | with_reducible refine Keeps.ofEq (by with_reducible assumption) ?_
    | with_reducible apply Keeps.ite
    | exact fun _ hu => hu
    | dsimp only
    | split
    | with_reducible apply Keeps.set_loose

theorem State.dropFlit_keeps {b0 s : State} (id : Nat) (hp : [.loose] ⊆ K) (hK : Keeps K b0 s) : Keeps K b0 (State.dropFlit s id) := by
  unfold State.dropFlit
  try dsimp only
  repeat' first
    | with_reducible assumption
    | with_reducible refine Keeps.ofEq (by with_reducible assumption) ?_
    | with_reducible apply Keeps.ite
    | exact fun _ hu => hu
    | dsimp only
    | split
    | with_reducible apply Keeps.set_loose

theorem State.refuseFar_keeps {b0 s : State} (f : LFlit) (hp : [.syn, .tx] ⊆ K) (hK : Keeps K b0 s) : Keeps K b0 (State.refuseFar s f) := by
  unfold State.refuseFar
  try dsimp only
  repeat' first
    | with_reducible assumption
    | (with_reducible refine List.Subset.trans ?_ hp; decide)
    | with_reducible apply State.send_keeps
    | with_reducible apply State.drained_keeps
    | with_reducible refine Keeps.ofEq (by with_reducible assumption) ?_
    | with_reducible apply Keeps.ite
    | exact fun _ hu => hu
    | dsimp only
    | split

theorem State.refuseFlit_keeps {b0 s : State} (f : LFlit) (data : Nat) (hp : [.agenda, .regs, .detected, .loose, .syn, .tx] ⊆ K) (hK : Keeps K b0 s) : Keeps K b0 (State.refuseFlit s f data) := by
  unfold State.refuseFlit
  try dsimp only
  repeat' first
    | with_reducible assumption
    | (with_reducible refine List.Subset.trans ?_ hp; decide)
    | with_reducible apply State.inc_keeps
    | with_reducible apply State.refuse_keeps
    | with_reducible apply State.replyNow_keeps
    | with_reducible apply State.dropFlit_keeps
    | with_reducible apply State.refuseFar_keeps
    | with_reducible refine Keeps.ofEq (by with_reducible assumption) ?_
    | with_reducible apply Keeps.ite

theorem State.takeLane_keeps {b0 s : State} (f : LFlit) (l : Nat) (hp : [.loose, .tx] ⊆ K) (hK : Keeps K b0 s) : Keeps K b0 (State.takeLane s f l) := by
  unfold State.takeLane
  try dsimp only
  repeat' first
    | with_reducible assumption
    | (with_reducible refine List.Subset.trans ?_ hp; decide)
    | with_reducible apply State.send_keeps
    | with_reducible apply State.dropFlit_keeps
    | with_reducible refine Keeps.ofEq (by with_reducible assumption) ?_
    | with_reducible apply Keeps.ite
    | exact fun _ hu => hu
    | dsimp only
    | split
    | with_reducible apply Keeps.set_loose

theorem State.crossFlit_keeps {b0 s : State} (f : LFlit) (hp : [.agenda, .regs, .detected, .loose, .syn, .tx] ⊆ K) (hK : Keeps K b0 s) : Keeps K b0 (State.crossFlit s f) := by
  unfold State.crossFlit
  try dsimp only
  repeat' first
    | with_reducible assumption
    | (with_reducible refine List.Subset.trans ?_ hp; decide)
    | with_reducible apply State.later_keeps
    | with_reducible apply State.setFlit_keeps
    | with_reducible apply State.refuseFlit_keeps
    | with_reducible apply State.takeLane_keeps
    | with_reducible refine Keeps.ofEq (by with_reducible assumption) ?_
    | with_reducible apply Keeps.ite
    | exact fun _ hu => hu
    | dsimp only
    | split

theorem State.landFlit_keeps {b0 s : State} (f : LFlit) (hp : [.agenda, .regs, .detected, .loose, .syn, .pwr] ⊆ K) (hK : Keeps K b0 s) : Keeps K b0 (State.landFlit s f) := by
  unfold State.landFlit
  try dsimp only
  repeat' first
    | with_reducible assumption
    | (with_reducible refine List.Subset.trans ?_ hp; decide)
    | with_reducible apply State.drained_keeps
    | with_reducible apply State.arrive_keeps
    | with_reducible apply State.dropFlit_keeps
    | with_reducible refine Keeps.ofEq (by with_reducible assumption) ?_
    | with_reducible apply Keeps.ite
    | exact fun _ hu => hu
    | dsimp only
    | split
    | with_reducible apply Keeps.set_loose

theorem State.armOut_keeps {b0 s : State} (cab o : Nat) (hp : [.agenda] ⊆ K) (hK : Keeps K b0 s) : Keeps K b0 (State.armOut s cab o) := by
  unfold State.armOut
  try dsimp only
  repeat' first
    | with_reducible assumption
    | with_reducible apply State.later_keeps
    | with_reducible apply State.arm_keeps
    | with_reducible apply State.disarm_keeps
    | with_reducible refine Keeps.ofEq (by with_reducible assumption) ?_
    | with_reducible apply Keeps.ite

theorem execLooseFlitHop_keeps {b0 s : State} (id : Nat) (hp : [.agenda, .regs, .detected, .loose, .syn, .pwr, .tx] ⊆ K) (hK : Keeps K b0 s) : KeepsO K b0 (execLooseFlitHop id s) := by
  unfold execLooseFlitHop
  try dsimp only
  repeat' first
    | with_reducible assumption
    | (with_reducible refine List.Subset.trans ?_ hp; decide)
    | with_reducible apply KeepsO.next
    | with_reducible apply State.later_keeps
    | with_reducible apply State.refuse_keeps
    | with_reducible apply State.deliver_keeps
    | with_reducible apply State.setFlit_keeps
    | with_reducible apply State.dropFlit_keeps
    | with_reducible apply State.refuseFlit_keeps
    | with_reducible apply State.crossFlit_keeps
    | with_reducible apply State.landFlit_keeps
    | with_reducible apply State.armOut_keeps
    | with_reducible refine Keeps.ofEq (by with_reducible assumption) ?_
    | with_reducible apply Keeps.ite
    | with_reducible apply KeepsO.ite
    | exact fun _ hu => hu
    | dsimp only
    | split

theorem State.outAge_keeps {b0 s : State} (cab o : Nat) (hp : [.loose] ⊆ K) (hK : Keeps K b0 s) : Keeps K b0 (State.outAge s cab o) := by
  unfold State.outAge
  try dsimp only
  repeat' first
    | with_reducible assumption
    | with_reducible refine Keeps.ofEq (by with_reducible assumption) ?_
    | with_reducible apply Keeps.ite
    | exact fun _ hu => hu
    | dsimp only
    | split
    | with_reducible apply Keeps.set_loose

theorem execLinkOutputGrant_keeps {b0 s : State} (cab : Cab) (out : Dir) (hp : [.agenda, .loose, .pwr] ⊆ K) (hK : Keeps K b0 s) : KeepsO K b0 (execLinkOutputGrant cab out s) := by
  unfold execLinkOutputGrant
  try dsimp only
  repeat' first
    | with_reducible assumption
    | (with_reducible refine List.Subset.trans ?_ hp; decide)
    | with_reducible apply KeepsO.next
    | with_reducible apply State.later_keeps
    | with_reducible apply State.usedLink_keeps
    | with_reducible apply State.refuse_keeps
    | with_reducible apply State.moveFlit_keeps
    | with_reducible apply State.setFlit_keeps
    | with_reducible apply State.armOut_keeps
    | with_reducible apply State.outAge_keeps
    | with_reducible refine Keeps.ofEq (by with_reducible assumption) ?_
    | with_reducible apply Keeps.ite
    | with_reducible apply KeepsO.ite
    | exact fun _ hu => hu
    | dsimp only
    | split
    | with_reducible apply Keeps.set_loose
end Sys2Proof.Machine
end

