-- ==== Sys2Proof/Laws/KeepsSetClass.lean ====
section
/-! SUPPORT. What the operations and commands of Machine/SetClass.lean leave alone: one lemma each, in the terms of `Keeps`. The list each
asks for holds the parts it may change. -/
namespace Sys2Proof.Machine
variable {K : List Part}
theorem State.schErr_keeps {b0 s : State} (kind req cab : Nat) (ctx : Option Nat) (addr : Nat) (data : Nat) (bank : Nat) (hp : [.detected] ⊆ K) (hK : Keeps K b0 s) : Keeps K b0 (State.schErr s kind req cab ctx addr data bank) := by
  unfold State.schErr
  try dsimp only
  repeat' first
    | with_reducible assumption
    | with_reducible apply State.err_keeps

theorem State.sentinel_keeps {b0 s : State} (cab fa : Nat) (wr : Bool) (req : Nat) (ctx : Option Nat) (hp : [.regs, .detected] ⊆ K) (hK : Keeps K b0 s) : Keeps K b0 (State.sentinel s cab fa wr req ctx) := by
  unfold State.sentinel
  try dsimp only
  repeat' first
    | with_reducible assumption
    | (with_reducible refine List.Subset.trans ?_ hp; decide)
    | with_reducible apply State.put_keeps
    | with_reducible apply State.inc_keeps
    | with_reducible apply State.schErr_keeps
    | with_reducible refine Keeps.ofEq (by with_reducible assumption) ?_
    | with_reducible apply Keeps.ite

theorem State.countDown_keeps {b0 s : State} (cab fa : Nat) (wr : Bool) (hp : [.agenda, .regs, .set] ⊆ K) (hK : Keeps K b0 s) : Keeps K b0 (State.countDown s cab fa wr) := by
  unfold State.countDown
  try dsimp only
  repeat' first
    | with_reducible assumption
    | (with_reducible refine List.Subset.trans ?_ hp; decide)
    | with_reducible apply State.put_keeps
    | with_reducible apply State.at'_keeps
    | with_reducible refine Keeps.ofEq (by with_reducible assumption) ?_
    | with_reducible apply Keeps.ite
    | (with_reducible refine Keeps.foldl ?_ (fun _ _ _ => ?_) <;> try dsimp only)
    | dsimp only
    | split
    | with_reducible apply Keeps.set_set

theorem State.frzIssue_keeps {b0 s : State} (cab req : Nat) (ctx : Option Nat) (hp : [.detected] ⊆ K) (hK : Keeps K b0 s) : Keeps K b0 (State.frzIssue s cab req ctx) := by
  unfold State.frzIssue
  try dsimp only
  repeat' first
    | with_reducible assumption
    | with_reducible apply State.schErr_keeps

theorem State.sbcOpen_keeps {b0 s : State} (cab n base limit count kind : Nat) (hp : [.agenda, .regs, .detected, .stp, .set, .runners] ⊆ K) (hK : Keeps K b0 s) : Keeps K b0 (State.sbcOpen s cab n base limit count kind) := by
  unfold State.sbcOpen
  try dsimp only
  repeat' first
    | with_reducible assumption
    | (with_reducible refine List.Subset.trans ?_ hp; decide)
    | with_reducible apply State.put_keeps
    | with_reducible apply State.puts_keeps
    | with_reducible apply State.ctxFault?_keeps
    | with_reducible apply State.sbdCount_keeps
    | with_reducible apply State.schErr_keeps
    | with_reducible apply State.frzIssue_keeps
    | with_reducible refine Keeps.ofEq (by with_reducible assumption) ?_
    | with_reducible apply Keeps.ite
    | dsimp only
    | split
    | with_reducible apply Keeps.set_set

theorem execSbcOpenWrite_keeps {b0 s : State} (cab : Cab) (entry : Fin 32) (base limit : BitVec 17) (count : BitVec 18) (hp : [.agenda, .regs, .detected, .stp, .set, .runners] ⊆ K) (hK : Keeps K b0 s) : KeepsO K b0 (execSbcOpenWrite cab entry base limit count s) := by
  unfold execSbcOpenWrite
  try dsimp only
  repeat' first
    | with_reducible assumption
    | with_reducible apply KeepsO.next
    | with_reducible apply State.sbcOpen_keeps

theorem execSbcOpenRead_keeps {b0 s : State} (cab : Cab) (entry : Fin 32) (base limit : BitVec 17) (count : BitVec 18) (hp : [.agenda, .regs, .detected, .stp, .set, .runners] ⊆ K) (hK : Keeps K b0 s) : KeepsO K b0 (execSbcOpenRead cab entry base limit count s) := by
  unfold execSbcOpenRead
  try dsimp only
  repeat' first
    | with_reducible assumption
    | with_reducible apply KeepsO.next
    | with_reducible apply State.sbcOpen_keeps

theorem State.closeNote_keeps {b0 s : State} (cab n : Nat) (hp : [.set] ⊆ K) (hK : Keeps K b0 s) : Keeps K b0 (State.closeNote s cab n) := by
  unfold State.closeNote
  try dsimp only
  repeat' first
    | with_reducible assumption
    | with_reducible refine Keeps.ofEq (by with_reducible assumption) ?_
    | with_reducible apply Keeps.ite
    | dsimp only
    | split
    | with_reducible apply Keeps.set_set

theorem execSbcClose_keeps {b0 s : State} (cab : Cab) (entry : Fin 32) (hp : [.agenda, .regs, .detected, .stp, .set, .runners] ⊆ K) (hK : Keeps K b0 s) : KeepsO K b0 (execSbcClose cab entry s) := by
  unfold execSbcClose
  try dsimp only
  repeat' first
    | with_reducible assumption
    | (with_reducible refine List.Subset.trans ?_ hp; decide)
    | with_reducible apply KeepsO.next
    | with_reducible apply State.ctxFault?_keeps
    | with_reducible apply State.sbdEmpty_keeps
    | with_reducible apply State.sbdCount_keeps
    | with_reducible apply State.frzIssue_keeps
    | with_reducible apply State.closeNote_keeps
    | with_reducible refine Keeps.ofEq (by with_reducible assumption) ?_
    | with_reducible apply Keeps.ite

theorem execRangeHoldEnd_keeps {b0 s : State} (cab : Cab) (entry : Fin 32) (hp : [.agenda, .regs, .set] ⊆ K) (hK : Keeps K b0 s) : KeepsO K b0 (execRangeHoldEnd cab entry s) := by
  unfold execRangeHoldEnd
  try dsimp only
  repeat' first
    | with_reducible assumption
    | (with_reducible refine List.Subset.trans ?_ hp; decide)
    | with_reducible apply KeepsO.next
    | with_reducible apply State.later_keeps
    | with_reducible apply State.sbdEmpty_keeps
    | with_reducible apply State.sbdCount_keeps
    | with_reducible refine Keeps.ofEq (by with_reducible assumption) ?_
    | with_reducible apply Keeps.ite

theorem execSbdModeWrite_keeps {b0 s : State} (m : Master) (cab : Cab) (v : W32) (hp : [.agenda, .regs, .detected, .outs, .cmx, .counted] ⊆ K) (hK : Keeps K b0 s) : KeepsO K b0 (execSbdModeWrite m cab v s) := by
  unfold execSbdModeWrite
  try dsimp only
  repeat' first
    | with_reducible assumption
    | (with_reducible refine List.Subset.trans ?_ hp; decide)
    | with_reducible apply KeepsO.next
    | with_reducible apply State.put_keeps
    | with_reducible apply State.locked_keeps
    | with_reducible apply State.atStation_keeps
    | with_reducible apply State.row_keeps
    | with_reducible refine Keeps.ofEq (by with_reducible assumption) ?_
    | with_reducible apply Keeps.ite
    | with_reducible apply KeepsO.ite
    | (intro _ _ <;> try dsimp only)

theorem State.lookahead_keeps {b0 s : State} (port : SetPort) (cab grp : Nat) (hp : [.agenda, .regs, .detected, .set, .loose] ⊆ K) (hK : Keeps K b0 s) : Keeps K b0 (State.lookahead s port cab grp) := by
  unfold State.lookahead
  try dsimp only
  repeat' first
    | with_reducible assumption
    | (with_reducible refine List.Subset.trans ?_ hp; decide)
    | with_reducible apply State.put_keeps
    | with_reducible apply State.clearClaim_keeps
    | with_reducible apply State.schErr_keeps
    | with_reducible apply State.frzIssue_keeps
    | with_reducible refine Keeps.ofEq (by with_reducible assumption) ?_
    | with_reducible apply Keeps.ite
    | dsimp only
    | split
    | with_reducible apply Keeps.set_set

theorem execWrpLookahead_keeps {b0 s : State} (cab : Cab) (grp : Fin 4) (hp : [.agenda, .regs, .detected, .set, .loose] ⊆ K) (hK : Keeps K b0 s) : KeepsO K b0 (execWrpLookahead cab grp s) := by
  unfold execWrpLookahead
  try dsimp only
  repeat' first
    | with_reducible assumption
    | with_reducible apply KeepsO.next
    | with_reducible apply State.lookahead_keeps

theorem execWwpLookahead_keeps {b0 s : State} (cab : Cab) (grp : Fin 4) (hp : [.agenda, .regs, .detected, .set, .loose] ⊆ K) (hK : Keeps K b0 s) : KeepsO K b0 (execWwpLookahead cab grp s) := by
  unfold execWwpLookahead
  try dsimp only
  repeat' first
    | with_reducible assumption
    | with_reducible apply KeepsO.next
    | with_reducible apply State.lookahead_keeps

theorem execLandingLookahead_keeps {b0 s : State} (cab : Cab) (grp : Fin 4) (hp : [.agenda, .regs, .detected, .set, .loose] ⊆ K) (hK : Keeps K b0 s) : KeepsO K b0 (execLandingLookahead cab grp s) := by
  unfold execLandingLookahead
  try dsimp only
  repeat' first
    | with_reducible assumption
    | with_reducible apply KeepsO.next
    | with_reducible apply State.lookahead_keeps

theorem State.setAnswer_keeps {b0 s : State} (dest : SetDest) (port : SetPort) (cab at' : Nat) (r : Resp) (hp : [.agenda, .set, .syn] ⊆ K) (hK : Keeps K b0 s) : Keeps K b0 (State.setAnswer s dest port cab at' r) := by
  unfold State.setAnswer
  try dsimp only
  repeat' first
    | with_reducible assumption
    | (with_reducible refine List.Subset.trans ?_ hp; decide)
    | with_reducible apply State.at'_keeps
    | with_reducible apply State.drained_keeps
    | with_reducible apply State.deliver_keeps
    | with_reducible refine Keeps.ofEq (by with_reducible assumption) ?_
    | with_reducible apply Keeps.ite
    | exact fun _ hu => hu
    | dsimp only
    | split
    | with_reducible apply Keeps.set_set

theorem State.collide_keeps {b0 s : State} (o : SetOp) (hp : [.agenda, .regs, .detected, .stp, .set, .syn, .runners] ⊆ K) (hK : Keeps K b0 s) : Keeps K b0 (State.collide s o) := by
  unfold State.collide
  try dsimp only
  repeat' first
    | with_reducible assumption
    | (with_reducible refine List.Subset.trans ?_ hp; decide)
    | with_reducible apply State.at'_keeps
    | with_reducible apply State.ctxFault?_keeps
    | with_reducible apply State.schErr_keeps
    | with_reducible apply State.setAnswer_keeps
    | with_reducible refine Keeps.ofEq (by with_reducible assumption) ?_
    | with_reducible apply Keeps.ite

theorem State.occupy_keeps {b0 s : State} (o : SetOp) (hp : [.agenda, .regs, .detected, .stp, .set, .syn, .runners] ⊆ K) (hK : Keeps K b0 s) : Keeps K b0 (State.occupy s o) := by
  unfold State.occupy
  try dsimp only
  repeat' first
    | with_reducible assumption
    | (with_reducible refine List.Subset.trans ?_ hp; decide)
    | with_reducible apply State.at'_keeps
    | with_reducible apply State.countDown_keeps
    | with_reducible apply State.collide_keeps
    | with_reducible refine Keeps.ofEq (by with_reducible assumption) ?_
    | with_reducible apply Keeps.ite
    | (with_reducible refine Keeps.foldl ?_ (fun _ _ _ => ?_) <;> try dsimp only)
    | dsimp only
    | split
    | with_reducible apply Keeps.set_set

theorem State.oldOrNew_keeps {b0 s : State} (cab bank row at' : Nat) (w : W256 × Bool × Bool) (hp : [.freeCtr] ⊆ K) (hK : Keeps K b0 s) : Keeps K b0 (State.oldOrNew s cab bank row at' w).1 := by
  unfold State.oldOrNew
  try dsimp only
  repeat' first
    | with_reducible assumption
    | with_reducible apply State.at'_keeps
    | with_reducible apply State.useFree_keeps
    | with_reducible refine Keeps.ofEq (by with_reducible assumption) ?_
    | with_reducible apply Keeps.ite
    | dsimp only
    | split

theorem State.oldOrNews_keeps {b0 s : State} (cab row at' : Nat) (y0 : Nat) (y1 : List (W256 × Bool × Bool)) (hp : [.freeCtr] ⊆ K) (hK : Keeps K b0 s) : Keeps K b0 (State.oldOrNews s cab row at' y0 y1).1 := by
  induction y1 generalizing s y0 with
  | nil =>
    unfold State.oldOrNews
    try dsimp only
    repeat' first
      | with_reducible assumption
  | cons x xs ih =>
    unfold State.oldOrNews
    try dsimp only
    repeat' first
      | with_reducible assumption
      | with_reducible apply State.oldOrNew_keeps
      | with_reducible refine Keeps.ofEq (by with_reducible assumption) ?_
      | with_reducible apply ih

theorem State.commitOp_keeps {b0 s : State} (o : SetOp) (hp : [.agenda, .regs, .mem, .valid, .freeCtr, .detected, .set, .rep, .syn, .pwr, .counted] ⊆ K) (hK : Keeps K b0 s) : Keeps K b0 (State.commitOp s o) := by
  unfold State.commitOp
  try dsimp only
  repeat' first
    | with_reducible assumption
    | (with_reducible refine List.Subset.trans ?_ hp; decide)
    | with_reducible apply State.at'_keeps
    | with_reducible apply State.usedBank_keeps
    | with_reducible apply State.drained_keeps
    | with_reducible apply State.row_keeps
    | with_reducible apply State.readWords_keeps
    | with_reducible apply State.writeWords_keeps
    | with_reducible apply State.deliver_keeps
    | with_reducible apply State.oldOrNews_keeps
    | with_reducible refine Keeps.ofEq (by with_reducible assumption) ?_
    | with_reducible apply Keeps.ite
    | exact fun _ hu => hu
    | dsimp only
    | split
    | with_reducible apply Keeps.set_set

theorem State.commitSet_keeps {b0 s : State} (hp : [.agenda, .regs, .mem, .valid, .freeCtr, .detected, .set, .rep, .syn, .pwr, .counted] ⊆ K) (hK : Keeps K b0 s) : Keeps K b0 (State.commitSet s) := by
  unfold State.commitSet
  try dsimp only
  repeat' first
    | with_reducible assumption
    | (with_reducible refine List.Subset.trans ?_ hp; decide)
    | with_reducible apply State.at'_keeps
    | with_reducible apply State.commitOp_keeps
    | with_reducible refine Keeps.ofEq (by with_reducible assumption) ?_
    | with_reducible apply Keeps.ite
    | (with_reducible refine Keeps.foldl ?_ (fun _ _ _ => ?_) <;> try dsimp only)
    | dsimp only
    | split
    | with_reducible apply Keeps.set_set

theorem State.addDeliv_keeps {b0 s : State} (id cab due : Nat) (ctx : Option Nat) (fa : Nat) (remote : Bool) (r : Resp) (discard : Bool) (hp : [.agenda, .set] ⊆ K) (hK : Keeps K b0 s) : Keeps K b0 (State.addDeliv s id cab due ctx fa remote r discard) := by
  unfold State.addDeliv
  try dsimp only
  repeat' first
    | with_reducible assumption
    | (with_reducible refine List.Subset.trans ?_ hp; decide)
    | with_reducible apply State.at'_keeps
    | with_reducible refine Keeps.ofEq (by with_reducible assumption) ?_
    | with_reducible apply Keeps.ite
    | exact fun _ hu => hu
    | dsimp only
    | split
    | with_reducible apply Keeps.set_set

theorem State.addWresp_keeps {b0 s : State} (cab : Nat) (r : Resp) (fault : Option Nat) (hp : [.agenda, .set] ⊆ K) (hK : Keeps K b0 s) : Keeps K b0 (State.addWresp s cab r fault) := by
  unfold State.addWresp
  try dsimp only
  repeat' first
    | with_reducible assumption
    | (with_reducible refine List.Subset.trans ?_ hp; decide)
    | with_reducible apply State.at'_keeps
    | with_reducible refine Keeps.ofEq (by with_reducible assumption) ?_
    | with_reducible apply Keeps.ite
    | dsimp only
    | split
    | with_reducible apply Keeps.set_set

theorem State.setCheck_keeps {b0 s : State} (port : SetPort) (cab : Nat) (wr : Bool) (ctx : Option Nat) (fa : Nat) (hp : [.regs, .detected] ⊆ K) (hK : Keeps K b0 s) : Keeps K b0 (State.setCheck s port cab wr ctx fa).1 := by
  unfold State.setCheck
  try dsimp only
  repeat' first
    | with_reducible assumption
    | (with_reducible refine List.Subset.trans ?_ hp; decide)
    | with_reducible apply State.at'_keeps
    | with_reducible apply State.violate_keeps
    | with_reducible apply State.refuse_keeps
    | with_reducible apply State.refused_keeps
    | with_reducible apply State.schErr_keeps
    | with_reducible refine Keeps.ofEq (by with_reducible assumption) ?_
    | with_reducible apply Keeps.ite
    | dsimp only
    | split

theorem State.slipOverrun_keeps {b0 s : State} (cab req : Nat) (ctx : Option Nat) (fa : Nat) (hp : [.agenda, .regs, .detected, .stp, .runners, .tx] ⊆ K) (hK : Keeps K b0 s) : Keeps K b0 (State.slipOverrun s cab req ctx fa) := by
  unfold State.slipOverrun
  try dsimp only
  repeat' first
    | with_reducible assumption
    | (with_reducible refine List.Subset.trans ?_ hp; decide)
    | with_reducible apply State.put_keeps
    | with_reducible apply State.replayCause_keeps
    | with_reducible apply State.schErr_keeps
    | with_reducible refine Keeps.ofEq (by with_reducible assumption) ?_
    | with_reducible apply Keeps.ite
    | dsimp only
    | split

theorem State.unclaimed_keeps {b0 s : State} (port : SetPort) (cab : Nat) (ctx : Option Nat) (fa : Nat) (hp : [.regs, .detected] ⊆ K) (hK : Keeps K b0 s) : Keeps K b0 (State.unclaimed s port cab ctx fa) := by
  unfold State.unclaimed
  try dsimp only
  repeat' first
    | with_reducible assumption
    | (with_reducible refine List.Subset.trans ?_ hp; decide)
    | with_reducible apply State.put_keeps
    | with_reducible apply State.schErr_keeps

theorem State.issueRead_keeps {b0 s : State} (cab fa dly : Nat) (held : Bool) (hp : [.agenda, .regs, .detected, .stp, .set, .loose, .syn, .runners, .tx] ⊆ K) (hK : Keeps K b0 s) : Keeps K b0 (State.issueRead s cab fa dly held) := by
  unfold State.issueRead
  try dsimp only
  repeat' first
    | with_reducible assumption
    | (with_reducible refine List.Subset.trans ?_ hp; decide)
    | with_reducible apply State.at'_keeps
    | with_reducible apply State.fresh_keeps
    | with_reducible apply State.deliver_keeps
    | with_reducible apply State.sentinel_keeps
    | with_reducible apply State.occupy_keeps
    | with_reducible apply State.addDeliv_keeps
    | with_reducible apply State.setCheck_keeps
    | with_reducible apply State.slipOverrun_keeps
    | with_reducible apply State.unclaimed_keeps
    | with_reducible refine Keeps.ofEq (by with_reducible assumption) ?_
    | with_reducible apply Keeps.ite
    | exact fun _ hu => hu
    | dsimp only
    | split
    | with_reducible apply Keeps.set_set

theorem State.issueWrite_keeps {b0 s : State} (cab fa : Nat) (dat : List W256) (dly : Nat) (hid : Option Nat) (hp : [.agenda, .regs, .detected, .stp, .set, .loose, .syn, .runners, .tx] ⊆ K) (hK : Keeps K b0 s) : Keeps K b0 (State.issueWrite s cab fa dat dly hid) := by
  unfold State.issueWrite
  try dsimp only
  repeat' first
    | with_reducible assumption
    | (with_reducible refine List.Subset.trans ?_ hp; decide)
    | with_reducible apply State.at'_keeps
    | with_reducible apply State.fresh_keeps
    | with_reducible apply State.undrain_keeps
    | with_reducible apply State.drained_keeps
    | with_reducible apply State.sentinel_keeps
    | with_reducible apply State.occupy_keeps
    | with_reducible apply State.addWresp_keeps
    | with_reducible apply State.setCheck_keeps
    | with_reducible apply State.slipOverrun_keeps
    | with_reducible apply State.unclaimed_keeps
    | with_reducible refine Keeps.ofEq (by with_reducible assumption) ?_
    | with_reducible apply Keeps.ite
    | exact fun _ hu => hu
    | dsimp only
    | split
    | with_reducible apply Keeps.set_set

theorem State.presentWide_keeps {b0 s : State} (port : SetPort) (cab fa : Nat) (dat : List W256) (dly : Nat) (hp : [.agenda, .regs, .detected, .stp, .set, .loose, .syn, .runners, .tx] ⊆ K) (hK : Keeps K b0 s) : Keeps K b0 (State.presentWide s port cab fa dat dly) := by
  unfold State.presentWide
  try dsimp only
  repeat' first
    | with_reducible assumption
    | (with_reducible refine List.Subset.trans ?_ hp; decide)
    | with_reducible apply State.put_keeps
    | with_reducible apply State.later_keeps
    | with_reducible apply State.fresh_keeps
    | with_reducible apply State.undrain_keeps
    | with_reducible apply State.schErr_keeps
    | with_reducible apply State.frzIssue_keeps
    | with_reducible apply State.issueRead_keeps
    | with_reducible apply State.issueWrite_keeps
    | with_reducible refine Keeps.ofEq (by with_reducible assumption) ?_
    | with_reducible apply Keeps.ite
    | exact fun _ hu => hu
    | dsimp only
    | split
    | with_reducible apply Keeps.set_set

theorem execWrpIssue_keeps {b0 s : State} (cab : Cab) (addr : BitVec 24) (dly : BitVec 4) (hp : [.agenda, .regs, .detected, .stp, .set, .loose, .syn, .runners, .tx] ⊆ K) (hK : Keeps K b0 s) : KeepsO K b0 (execWrpIssue cab addr dly s) := by
  unfold execWrpIssue
  try dsimp only
  repeat' first
    | with_reducible assumption
    | with_reducible apply KeepsO.next
    | with_reducible apply State.presentWide_keeps
    | with_reducible refine Keeps.ofEq (by with_reducible assumption) ?_
    | with_reducible apply Keeps.ite

theorem execWwpIssue_keeps {b0 s : State} (cab : Cab) (addr : BitVec 24) (data : List W256) (dly : BitVec 4) (perr : Bool) (hp : [.agenda, .regs, .detected, .stp, .set, .loose, .syn, .runners, .tx] ⊆ K) (hK : Keeps K b0 s) : KeepsO K b0 (execWwpIssue cab addr data dly perr s) := by
  unfold execWwpIssue
  try dsimp only
  repeat' first
    | with_reducible assumption
    | (with_reducible refine List.Subset.trans ?_ hp; decide)
    | with_reducible apply KeepsO.next
    | with_reducible apply State.parity_keeps
    | with_reducible apply State.presentWide_keeps
    | with_reducible refine Keeps.ofEq (by with_reducible assumption) ?_
    | with_reducible apply Keeps.ite

theorem State.dropRelease_keeps {b0 s : State} (f : SFlit) (r : Resp) (hp : [.agenda, .set, .loose, .syn] ⊆ K) (hK : Keeps K b0 s) : Keeps K b0 (State.dropRelease s f r) := by
  unfold State.dropRelease
  try dsimp only
  repeat' first
    | with_reducible assumption
    | (with_reducible refine List.Subset.trans ?_ hp; decide)
    | with_reducible apply State.at'_keeps
    | with_reducible apply State.fresh_keeps
    | with_reducible apply State.drained_keeps
    | with_reducible refine Keeps.ofEq (by with_reducible assumption) ?_
    | with_reducible apply Keeps.ite
    | exact fun _ hu => hu
    | dsimp only
    | split
    | with_reducible apply Keeps.set_set

theorem State.readDest_keeps {b0 s : State} (cab : Nat) (f : SFlit) (hp : [.agenda, .regs, .detected, .stp, .set, .loose, .syn, .runners, .tx] ⊆ K) (hK : Keeps K b0 s) : Keeps K b0 (State.readDest s cab f).1 := by
  unfold State.readDest
  try dsimp only
  repeat' first
    | with_reducible assumption
    | (with_reducible refine List.Subset.trans ?_ hp; decide)
    | with_reducible apply State.fresh_keeps
    | with_reducible apply State.deliver_keeps
    | with_reducible apply State.setAnswer_keeps
    | with_reducible apply State.slipOverrun_keeps
    | with_reducible refine Keeps.ofEq (by with_reducible assumption) ?_
    | with_reducible apply Keeps.ite
    | dsimp only
    | split

theorem State.release_keeps {b0 s : State} (cab : Nat) (l : Landed) (held : Bool) (hp : [.agenda, .regs, .detected, .stp, .set, .loose, .syn, .runners, .tx] ⊆ K) (hK : Keeps K b0 s) : Keeps K b0 (State.release s cab l held) := by
  unfold State.release
  try dsimp only
  repeat' first
    | with_reducible assumption
    | (with_reducible refine List.Subset.trans ?_ hp; decide)
    | with_reducible apply State.arm_keeps
    | with_reducible apply State.ctxFault?_keeps
    | with_reducible apply State.drained_keeps
    | with_reducible apply State.refuse_keeps
    | with_reducible apply State.sentinel_keeps
    | with_reducible apply State.occupy_keeps
    | with_reducible apply State.setCheck_keeps
    | with_reducible apply State.unclaimed_keeps
    | with_reducible apply State.dropRelease_keeps
    | with_reducible apply State.readDest_keeps
    | with_reducible refine Keeps.ofEq (by with_reducible assumption) ?_
    | with_reducible apply Keeps.ite
    | exact fun _ hu => hu
    | dsimp only
    | split
    | with_reducible apply Keeps.set_set

theorem State.growSlip_keeps {b0 s : State} (cab : Nat) (port : SetPort) (n : Nat) (ctx : Option Nat) (fa : Nat) (hp : [.agenda, .regs, .detected, .stp, .set, .runners, .tx] ⊆ K) (hK : Keeps K b0 s) : Keeps K b0 (State.growSlip s cab port n ctx fa) := by
  unfold State.growSlip
  try dsimp only
  repeat' first
    | with_reducible assumption
    | (with_reducible refine List.Subset.trans ?_ hp; decide)
    | with_reducible apply State.setSlip_keeps
    | with_reducible apply State.holdUpto_keeps
    | with_reducible apply State.slipOverrun_keeps
    | with_reducible refine Keeps.ofEq (by with_reducible assumption) ?_
    | with_reducible apply Keeps.ite

theorem execHeldAccessRelease_keeps {b0 s : State} (cab : Cab) (hold : Staged SetPort) (hp : [.agenda, .regs, .detected, .stp, .set, .loose, .syn, .runners, .tx] ⊆ K) (hK : Keeps K b0 s) : KeepsO K b0 (execHeldAccessRelease cab hold s) := by
  unfold execHeldAccessRelease
  try dsimp only
  repeat' first
    | with_reducible assumption
    | (with_reducible refine List.Subset.trans ?_ hp; decide)
    | with_reducible apply KeepsO.next
    | with_reducible apply State.arm_keeps
    | with_reducible apply State.parity_keeps
    | with_reducible apply State.issueRead_keeps
    | with_reducible apply State.issueWrite_keeps
    | with_reducible apply State.release_keeps
    | with_reducible apply State.growSlip_keeps
    | with_reducible refine Keeps.ofEq (by with_reducible assumption) ?_
    | with_reducible apply Keeps.ite
    | (with_reducible refine Keeps.foldl ?_ (fun _ _ _ => ?_) <;> try dsimp only)
    | with_reducible apply KeepsO.ite
    | exact fun _ hu => hu
    | dsimp only
    | split
    | with_reducible apply Keeps.set_set

theorem execWrpDelivery_keeps {b0 s : State} (cab : Cab) (perr : Bool) (hp : [.agenda, .regs, .detected, .outs, .stp, .set, .runners, .tx] ⊆ K) (hK : Keeps K b0 s) : KeepsO K b0 (execWrpDelivery cab perr s) := by
  unfold execWrpDelivery
  try dsimp only
  repeat' first
    | with_reducible assumption
    | (with_reducible refine List.Subset.trans ?_ hp; decide)
    | with_reducible apply KeepsO.next
    | with_reducible apply State.put_keeps
    | with_reducible apply State.arm_keeps
    | with_reducible apply State.ctxFault?_keeps
    | with_reducible apply State.presentIf_keeps
    | with_reducible apply State.countResp_keeps
    | with_reducible apply State.parity_keeps
    | with_reducible apply State.schErr_keeps
    | with_reducible refine Keeps.ofEq (by with_reducible assumption) ?_
    | with_reducible apply Keeps.ite
    | (with_reducible refine Keeps.foldl ?_ (fun _ _ _ => ?_) <;> try dsimp only)
    | with_reducible apply KeepsO.ite
    | dsimp only
    | split
    | with_reducible apply Keeps.set_set

theorem execWwpResponse_keeps {b0 s : State} (cab : Cab) (hp : [.agenda, .regs, .outs, .stp, .set, .runners] ⊆ K) (hK : Keeps K b0 s) : KeepsO K b0 (execWwpResponse cab s) := by
  unfold execWwpResponse
  try dsimp only
  repeat' first
    | with_reducible assumption
    | (with_reducible refine List.Subset.trans ?_ hp; decide)
    | with_reducible apply KeepsO.next
    | with_reducible apply State.arm_keeps
    | with_reducible apply State.ctxFault?_keeps
    | with_reducible apply State.presentIf_keeps
    | with_reducible apply State.countResp_keeps
    | with_reducible refine Keeps.ofEq (by with_reducible assumption) ?_
    | with_reducible apply Keeps.ite
    | (with_reducible refine Keeps.foldl ?_ (fun _ _ _ => ?_) <;> try dsimp only)
    | with_reducible apply KeepsO.ite
    | dsimp only
    | split
    | with_reducible apply Keeps.set_set

theorem State.dropSet_keeps {b0 s : State} (f : SFlit) (hp : [.set, .syn] ⊆ K) (hK : Keeps K b0 s) : Keeps K b0 (State.dropSet s f) := by
  unfold State.dropSet
  try dsimp only
  repeat' first
    | with_reducible assumption
    | (with_reducible refine List.Subset.trans ?_ hp; decide)
    | with_reducible apply State.drained_keeps
    | with_reducible refine Keeps.ofEq (by with_reducible assumption) ?_
    | with_reducible apply Keeps.ite
    | exact fun _ hu => hu
    | dsimp only
    | split
    | with_reducible apply Keeps.set_set

theorem State.lateFlit_keeps {b0 s : State} (f : SFlit) (req : Nat) (hp : [.agenda, .regs, .detected, .stp, .set, .syn, .runners] ⊆ K) (hK : Keeps K b0 s) : Keeps K b0 (State.lateFlit s f req) := by
  unfold State.lateFlit
  try dsimp only
  repeat' first
    | with_reducible assumption
    | (with_reducible refine List.Subset.trans ?_ hp; decide)
    | with_reducible apply State.ctxFault?_keeps
    | with_reducible apply State.schErr_keeps
    | with_reducible apply State.dropSet_keeps

theorem State.crossSet_keeps {b0 s : State} (f : SFlit) (hp : [.agenda, .regs, .detected, .stp, .set, .syn, .runners, .tx] ⊆ K) (hK : Keeps K b0 s) : Keeps K b0 (State.crossSet s f) := by
  unfold State.crossSet
  try dsimp only
  repeat' first
    | with_reducible assumption
    | (with_reducible refine List.Subset.trans ?_ hp; decide)
    | with_reducible apply State.send_keeps
    | with_reducible apply State.ctxFault?_keeps
    | with_reducible apply State.drained_keeps
    | with_reducible apply State.setFlit_keeps
    | with_reducible apply State.schErr_keeps
    | with_reducible apply State.dropSet_keeps
    | with_reducible apply State.lateFlit_keeps
    | with_reducible refine Keeps.ofEq (by with_reducible assumption) ?_
    | with_reducible apply Keeps.ite
    | (with_reducible refine Keeps.foldl ?_ (fun _ _ _ => ?_) <;> try dsimp only)
    | exact fun _ hu => hu
    | dsimp only
    | split
    | with_reducible apply Keeps.set_set
    | with_reducible apply Keeps.set_tx

theorem State.hopSet_keeps {b0 s : State} (f : SFlit) (hp : [.agenda, .regs, .detected, .stp, .set, .syn, .runners, .pwr, .tx] ⊆ K) (hK : Keeps K b0 s) : Keeps K b0 (State.hopSet s f) := by
  unfold State.hopSet
  try dsimp only
  repeat' first
    | with_reducible assumption
    | (with_reducible refine List.Subset.trans ?_ hp; decide)
    | with_reducible apply State.later_keeps
    | with_reducible apply State.ctxFault?_keeps
    | with_reducible apply State.usedLink_keeps
    | with_reducible apply State.refuse_keeps
    | with_reducible apply State.schErr_keeps
    | with_reducible apply State.dropSet_keeps
    | with_reducible apply State.lateFlit_keeps
    | with_reducible apply State.crossSet_keeps
    | with_reducible refine Keeps.ofEq (by with_reducible assumption) ?_
    | with_reducible apply Keeps.ite
    | exact fun _ hu => hu
    | dsimp only
    | split
    | with_reducible apply Keeps.set_set

theorem execSetFlitHop_keeps {b0 s : State} (id : Nat) (hp : [.agenda, .regs, .detected, .stp, .set, .syn, .runners, .pwr, .tx] ⊆ K) (hK : Keeps K b0 s) : KeepsO K b0 (execSetFlitHop id s) := by
  unfold execSetFlitHop
  try dsimp only
  repeat' first
    | with_reducible assumption
    | (with_reducible refine List.Subset.trans ?_ hp; decide)
    | with_reducible apply KeepsO.next
    | with_reducible apply State.later_keeps
    | with_reducible apply State.hopSet_keeps
    | with_reducible refine Keeps.ofEq (by with_reducible assumption) ?_
    | with_reducible apply Keeps.ite
    | with_reducible apply KeepsO.ite
    | exact fun _ hu => hu
    | dsimp only
    | split

theorem execRemoteReadInject_keeps {b0 s : State} (cab : Cab) (id : Nat) (hp : [.agenda, .regs, .detected, .stp, .set, .syn, .runners, .pwr, .tx] ⊆ K) (hK : Keeps K b0 s) : KeepsO K b0 (execRemoteReadInject cab id s) := by
  unfold execRemoteReadInject
  try dsimp only
  repeat' first
    | with_reducible assumption
    | (with_reducible refine List.Subset.trans ?_ hp; decide)
    | with_reducible apply KeepsO.next
    | with_reducible apply State.later_keeps
    | with_reducible apply State.hopSet_keeps
    | with_reducible refine Keeps.ofEq (by with_reducible assumption) ?_
    | with_reducible apply Keeps.ite
    | with_reducible apply KeepsO.ite
    | exact fun _ hu => hu
    | dsimp only
    | split

theorem execRemoteWriteInject_keeps {b0 s : State} (cab : Cab) (id : Nat) (hp : [.agenda, .regs, .detected, .stp, .set, .syn, .runners, .pwr, .tx] ⊆ K) (hK : Keeps K b0 s) : KeepsO K b0 (execRemoteWriteInject cab id s) := by
  unfold execRemoteWriteInject
  try dsimp only
  repeat' first
    | with_reducible assumption
    | (with_reducible refine List.Subset.trans ?_ hp; decide)
    | with_reducible apply KeepsO.next
    | with_reducible apply State.later_keeps
    | with_reducible apply State.hopSet_keeps
    | with_reducible refine Keeps.ofEq (by with_reducible assumption) ?_
    | with_reducible apply Keeps.ite
    | with_reducible apply KeepsO.ite
    | exact fun _ hu => hu
    | dsimp only
    | split

theorem execFlitArrival_keeps {b0 s : State} (id : Nat) (hp : [.agenda, .regs, .detected, .stp, .set, .syn, .runners] ⊆ K) (hK : Keeps K b0 s) : KeepsO K b0 (execFlitArrival id s) := by
  unfold execFlitArrival
  try dsimp only
  repeat' first
    | with_reducible assumption
    | (with_reducible refine List.Subset.trans ?_ hp; decide)
    | with_reducible apply KeepsO.next
    | with_reducible apply State.at'_keeps
    | with_reducible apply State.later_keeps
    | with_reducible apply State.ctxFault?_keeps
    | with_reducible apply State.schErr_keeps
    | with_reducible apply State.dropSet_keeps
    | with_reducible apply State.lateFlit_keeps
    | with_reducible refine Keeps.ofEq (by with_reducible assumption) ?_
    | with_reducible apply Keeps.ite
    | with_reducible apply KeepsO.ite
    | exact fun _ hu => hu
    | dsimp only
    | split
    | with_reducible apply Keeps.set_set

theorem execLandingRelease_keeps {b0 s : State} (cab : Cab) (id : Nat) (hp : [.agenda, .regs, .detected, .stp, .set, .loose, .syn, .runners, .tx] ⊆ K) (hK : Keeps K b0 s) : KeepsO K b0 (execLandingRelease cab id s) := by
  unfold execLandingRelease
  try dsimp only
  repeat' first
    | with_reducible assumption
    | (with_reducible refine List.Subset.trans ?_ hp; decide)
    | with_reducible apply KeepsO.next
    | with_reducible apply State.at'_keeps
    | with_reducible apply State.later_keeps
    | with_reducible apply State.release_keeps
    | with_reducible refine Keeps.ofEq (by with_reducible assumption) ?_
    | with_reducible apply Keeps.ite
    | with_reducible apply KeepsO.ite
    | exact fun _ hu => hu
    | dsimp only
    | split
end Sys2Proof.Machine
end

