-- ==== Sys2Proof/Laws/KeepsLeave.lean ====
section
/-! SUPPORT. What the operations and commands of Machine/Leave.lean leave alone: one lemma each, in the terms of `Keeps`. The list each
asks for holds the parts it may change. -/
namespace Sys2Proof.Machine
variable {K : List Part}
theorem State.leavePoke_keeps {b0 s : State} (hp : [.agenda, .regs, .leave] ⊆ K) (hK : Keeps K b0 s) : Keeps K b0 (State.leavePoke s) := by
  unfold State.leavePoke
  try dsimp only
  repeat' first
    | with_reducible assumption
    | (with_reducible refine List.Subset.trans ?_ hp; decide)
    | with_reducible apply State.put_keeps
    | with_reducible apply State.later_keeps
    | with_reducible refine Keeps.ofEq (by with_reducible assumption) ?_
    | with_reducible apply Keeps.ite
    | dsimp only
    | split
    | with_reducible apply Keeps.set_leave

theorem State.leaveAsk_keeps {b0 s : State} (who : LeaveFor) (units : Nat) (hp : [.agenda, .regs, .leave] ⊆ K) (hK : Keeps K b0 s) : Keeps K b0 (State.leaveAsk s who units) := by
  unfold State.leaveAsk
  try dsimp only
  repeat' first
    | with_reducible assumption
    | (with_reducible refine List.Subset.trans ?_ hp; decide)
    | with_reducible apply State.leavePoke_keeps
    | with_reducible refine Keeps.ofEq (by with_reducible assumption) ?_
    | with_reducible apply Keeps.ite
    | dsimp only
    | split
    | with_reducible apply Keeps.set_leave

theorem State.leaveDrop_keeps {b0 s : State} (who : LeaveFor) (hp : [.agenda, .regs, .leave] ⊆ K) (hK : Keeps K b0 s) : Keeps K b0 (State.leaveDrop s who) := by
  unfold State.leaveDrop
  try dsimp only
  repeat' first
    | with_reducible assumption
    | (with_reducible refine List.Subset.trans ?_ hp; decide)
    | with_reducible apply State.leavePoke_keeps
    | with_reducible refine Keeps.ofEq (by with_reducible assumption) ?_
    | with_reducible apply Keeps.ite
    | dsimp only
    | split
    | with_reducible apply Keeps.set_leave

theorem State.leaveBack_keeps {b0 s : State} (who : LeaveFor) (hp : [.agenda, .regs, .leave] ⊆ K) (hK : Keeps K b0 s) : Keeps K b0 (State.leaveBack s who) := by
  unfold State.leaveBack
  try dsimp only
  repeat' first
    | with_reducible assumption
    | (with_reducible refine List.Subset.trans ?_ hp; decide)
    | with_reducible apply State.put_keeps
    | with_reducible apply State.leavePoke_keeps
    | with_reducible refine Keeps.ofEq (by with_reducible assumption) ?_
    | with_reducible apply Keeps.ite
    | dsimp only
    | split
    | with_reducible apply Keeps.set_leave

theorem State.leaveTake_keeps {b0 s : State} (q : LeaveReq) (rest : List LeaveReq) (hp : [.agenda, .regs, .leave] ⊆ K) (hK : Keeps K b0 s) : Keeps K b0 (State.leaveTake s q rest) := by
  unfold State.leaveTake
  try dsimp only
  repeat' first
    | with_reducible assumption
    | (with_reducible refine List.Subset.trans ?_ hp; decide)
    | with_reducible apply State.put_keeps
    | with_reducible apply State.inc_keeps
    | with_reducible apply State.leavePoke_keeps
    | with_reducible refine Keeps.ofEq (by with_reducible assumption) ?_
    | with_reducible apply Keeps.ite
    | dsimp only
    | split
    | with_reducible apply Keeps.set_leave
end Sys2Proof.Machine
end

