-- ==== Sys2Proof/Laws/KeepsFreeze.lean ====
section
/-! SUPPORT. What the operations and commands of Machine/Freeze.lean leave alone: one lemma each, in the terms of `Keeps`. The list each
asks for holds the parts it may change. -/
namespace Sys2Proof.Machine
variable {K : List Part}
theorem State.frzRaise_keeps {b0 s : State} (x : FrzSrc) (hp : [.agenda, .frz, .tx] ⊆ K) (hK : Keeps K b0 s) : Keeps K b0 (State.frzRaise s x) := by
  unfold State.frzRaise
  try dsimp only
  repeat' first
    | with_reducible assumption
    | (with_reducible refine List.Subset.trans ?_ hp; decide)
    | with_reducible apply State.later_keeps
    | with_reducible apply State.send_keeps
    | with_reducible refine Keeps.ofEq (by with_reducible assumption) ?_
    | with_reducible apply Keeps.ite
    | dsimp only
    | split
    | with_reducible apply Keeps.set_frz

theorem State.frzFall_keeps {b0 s : State} (x : FrzSrc) (hp : [.agenda, .frz, .tx] ⊆ K) (hK : Keeps K b0 s) : Keeps K b0 (State.frzFall s x) := by
  unfold State.frzFall
  try dsimp only
  repeat' first
    | with_reducible assumption
    | (with_reducible refine List.Subset.trans ?_ hp; decide)
    | with_reducible apply State.at'_keeps
    | with_reducible apply State.later_keeps
    | with_reducible apply State.send_keeps
    | with_reducible refine Keeps.ofEq (by with_reducible assumption) ?_
    | with_reducible apply Keeps.ite
    | dsimp only
    | split
    | with_reducible apply Keeps.set_frz

theorem State.autoDump_keeps {b0 s : State} (hp : [.agenda] ⊆ K) (hK : Keeps K b0 s) : Keeps K b0 (State.autoDump s) := by
  unfold State.autoDump
  try dsimp only
  repeat' first
    | with_reducible assumption
    | with_reducible apply State.later_keeps
    | with_reducible refine Keeps.ofEq (by with_reducible assumption) ?_
    | with_reducible apply Keeps.ite

theorem State.wdtPause_keeps {b0 s : State} (on : Bool) (hp : [.agenda, .mgt] ⊆ K) (hK : Keeps K b0 s) : Keeps K b0 (State.wdtPause s on) := by
  unfold State.wdtPause
  try dsimp only
  repeat' first
    | with_reducible assumption
    | (with_reducible refine List.Subset.trans ?_ hp; decide)
    | with_reducible apply State.wdtChange_keeps
    | with_reducible refine Keeps.ofEq (by with_reducible assumption) ?_
    | with_reducible apply Keeps.ite
    | dsimp only
    | split
    | with_reducible apply Keeps.set_mgt

theorem State.frzLicensee_keeps {b0 s : State} (hp : [.agenda, .frz, .tx] ⊆ K) (hK : Keeps K b0 s) : Keeps K b0 (State.frzLicensee s) := by
  unfold State.frzLicensee
  try dsimp only
  repeat' first
    | with_reducible assumption
    | with_reducible apply State.frzRaise_keeps
    | with_reducible apply State.frzFall_keeps
    | with_reducible refine Keeps.ofEq (by with_reducible assumption) ?_
    | with_reducible apply Keeps.ite

theorem State.frzSampled_keeps {b0 s : State} (hp : [.agenda, .frz, .tx] ⊆ K) (hK : Keeps K b0 s) : Keeps K b0 (State.frzSampled s) := by
  unfold State.frzSampled
  try dsimp only
  repeat' first
    | with_reducible assumption
    | (with_reducible refine List.Subset.trans ?_ hp; decide)
    | with_reducible apply State.frzLicensee_keeps
    | with_reducible refine Keeps.ofEq (by with_reducible assumption) ?_
    | with_reducible apply Keeps.ite
    | (with_reducible refine Keeps.foldl ?_ (fun _ _ _ => ?_) <;> try dsimp only)
    | dsimp only
    | split
    | with_reducible apply Keeps.set_frz

theorem State.frzFalls_keeps {b0 s : State} (x : FrzSrc) (hp : [.agenda, .frz, .tx] ⊆ K) (hK : Keeps K b0 s) : Keeps K b0 (State.frzFalls s x) := by
  unfold State.frzFalls
  try dsimp only
  repeat' first
    | with_reducible assumption
    | (with_reducible refine List.Subset.trans ?_ hp; decide)
    | with_reducible apply State.frzFall_keeps
    | with_reducible refine Keeps.ofEq (by with_reducible assumption) ?_
    | with_reducible apply Keeps.ite
    | dsimp only
    | split
    | with_reducible apply Keeps.set_frz

theorem execFreezeStart_keeps {b0 s : State} (src : FrzSrc) (hp : [.agenda, .regs, .frz, .tx, .mgt] ⊆ K) (hK : Keeps K b0 s) : KeepsO K b0 (execFreezeStart src s) := by
  unfold execFreezeStart
  try dsimp only
  repeat' first
    | with_reducible assumption
    | (with_reducible refine List.Subset.trans ?_ hp; decide)
    | with_reducible apply KeepsO.next
    | with_reducible apply State.put_keeps
    | with_reducible apply State.autoDump_keeps
    | with_reducible apply State.wdtPause_keeps
    | with_reducible apply State.frzSampled_keeps
    | with_reducible refine Keeps.ofEq (by with_reducible assumption) ?_
    | with_reducible apply Keeps.ite
    | with_reducible apply KeepsO.ite
    | dsimp only
    | split
    | with_reducible apply Keeps.set_frz

theorem execFreezeFinish_keeps {b0 s : State} (src : FrzSrc) (hp : [.agenda, .regs, .frz, .syn, .tx, .mgt] ⊆ K) (hK : Keeps K b0 s) : KeepsO K b0 (execFreezeFinish src s) := by
  unfold execFreezeFinish
  try dsimp only
  repeat' first
    | with_reducible assumption
    | (with_reducible refine List.Subset.trans ?_ hp; decide)
    | with_reducible apply KeepsO.next
    | with_reducible apply State.put_keeps
    | with_reducible apply State.wdtPause_keeps
    | with_reducible apply State.frzSampled_keeps
    | with_reducible apply State.frzFalls_keeps
    | with_reducible refine Keeps.ofEq (by with_reducible assumption) ?_
    | with_reducible apply Keeps.ite
    | with_reducible apply KeepsO.ite
    | dsimp only
    | split
    | with_reducible apply Keeps.set_frz
    | with_reducible apply Keeps.set_syn

theorem execFrzReqChange_keeps {b0 s : State} (level : Bool) (hp : [.agenda, .frz] ⊆ K) (hK : Keeps K b0 s) : KeepsO K b0 (execFrzReqChange level s) := by
  unfold execFrzReqChange
  try dsimp only
  repeat' first
    | with_reducible assumption
    | (with_reducible refine List.Subset.trans ?_ hp; decide)
    | with_reducible apply KeepsO.next
    | with_reducible apply State.later_keeps
    | with_reducible refine Keeps.ofEq (by with_reducible assumption) ?_
    | with_reducible apply Keeps.ite
    | with_reducible apply KeepsO.ite
    | dsimp only
    | split
    | with_reducible apply Keeps.set_frz

theorem State.frzFirmware_keeps {b0 s : State} (hp : [.agenda, .frz, .tx] ⊆ K) (hK : Keeps K b0 s) : Keeps K b0 (State.frzFirmware s) := by
  unfold State.frzFirmware
  try dsimp only
  repeat' first
    | with_reducible assumption
    | with_reducible apply State.frzRaise_keeps
    | with_reducible apply State.frzFall_keeps
    | with_reducible refine Keeps.ofEq (by with_reducible assumption) ?_
    | with_reducible apply Keeps.ite

theorem execFrzCtlWrite_keeps {b0 s : State} (m : Master) (v : W32) (hp : [.agenda, .regs, .detected, .frz, .tx] ⊆ K) (hK : Keeps K b0 s) : KeepsO K b0 (execFrzCtlWrite m v s) := by
  unfold execFrzCtlWrite
  try dsimp only
  repeat' first
    | with_reducible assumption
    | (with_reducible refine List.Subset.trans ?_ hp; decide)
    | with_reducible apply KeepsO.next
    | with_reducible apply State.put_keeps
    | with_reducible apply State.locked_keeps
    | with_reducible apply State.row_keeps
    | with_reducible apply State.frzLicensee_keeps
    | with_reducible apply State.frzFirmware_keeps
    | with_reducible refine Keeps.ofEq (by with_reducible assumption) ?_
    | with_reducible apply Keeps.ite
    | with_reducible apply KeepsO.ite
    | (intro _ _ <;> try dsimp only)

theorem execFreezeBeginMark_keeps {b0 s : State} (lane : Fin 8) (origin : Fin 8) (seq : Nat) (hp : [.agenda, .frz, .tx] ⊆ K) (hK : Keeps K b0 s) : KeepsO K b0 (execFreezeBeginMark lane origin seq s) := by
  unfold execFreezeBeginMark
  try dsimp only
  repeat' first
    | with_reducible assumption
    | (with_reducible refine List.Subset.trans ?_ hp; decide)
    | with_reducible apply KeepsO.next
    | with_reducible apply State.send_keeps
    | with_reducible apply State.frzRaise_keeps
    | with_reducible refine Keeps.ofEq (by with_reducible assumption) ?_
    | with_reducible apply Keeps.ite
    | with_reducible apply KeepsO.ite
    | dsimp only
    | split
    | with_reducible apply Keeps.set_frz

theorem execFreezeEndMark_keeps {b0 s : State} (lane : Fin 8) (origin : Fin 8) (seq : Nat) (hp : [.agenda, .frz, .tx] ⊆ K) (hK : Keeps K b0 s) : KeepsO K b0 (execFreezeEndMark lane origin seq s) := by
  unfold execFreezeEndMark
  try dsimp only
  repeat' first
    | with_reducible assumption
    | (with_reducible refine List.Subset.trans ?_ hp; decide)
    | with_reducible apply KeepsO.next
    | with_reducible apply State.send_keeps
    | with_reducible apply State.frzFall_keeps
    | with_reducible refine Keeps.ofEq (by with_reducible assumption) ?_
    | with_reducible apply Keeps.ite
    | with_reducible apply KeepsO.ite
    | dsimp only
    | split
    | with_reducible apply Keeps.set_frz

theorem State.releaseSignals_keeps {b0 s : State} (c t : Nat) (hp : [.agenda, .syn] ⊆ K) (hK : Keeps K b0 s) : Keeps K b0 (State.releaseSignals s c t) := by
  unfold State.releaseSignals
  try dsimp only
  repeat' first
    | with_reducible assumption
    | (with_reducible refine List.Subset.trans ?_ hp; decide)
    | with_reducible apply State.later_keeps
    | with_reducible refine Keeps.ofEq (by with_reducible assumption) ?_
    | with_reducible apply Keeps.ite
    | (with_reducible refine Keeps.foldl ?_ (fun _ _ _ => ?_) <;> try dsimp only)
    | exact fun _ hu => hu
    | dsimp only
    | split
    | with_reducible apply Keeps.set_syn

theorem State.unholdList_keeps {b0 s : State} (e : StepList) (hp : [.runners] ⊆ K) (hK : Keeps K b0 s) : Keeps K b0 (State.unholdList s e) := by
  unfold State.unholdList
  try dsimp only
  repeat' first
    | with_reducible assumption
    | with_reducible apply State.setRunner_keeps

theorem State.releaseStep_keeps {b0 s : State} (t : Step) (closed : Nat) (hp : [.agenda, .regs, .stp, .syn, .runners] ⊆ K) (hK : Keeps K b0 s) : Keeps K b0 (State.releaseStep s t closed) := by
  unfold State.releaseStep
  try dsimp only
  repeat' first
    | with_reducible assumption
    | (with_reducible refine List.Subset.trans ?_ hp; decide)
    | with_reducible apply State.puts_keeps
    | with_reducible apply State.releaseSignals_keeps
    | with_reducible apply State.unholdList_keeps
    | with_reducible refine Keeps.ofEq (by with_reducible assumption) ?_
    | with_reducible apply Keeps.ite
    | (with_reducible refine Keeps.foldl ?_ (fun _ _ _ => ?_) <;> try dsimp only)
    | dsimp only
    | split
    | with_reducible apply Keeps.set_stp

theorem State.leaveRanges_keeps {b0 s : State} (c : Nat) (hp : [.regs, .detected, .set] ⊆ K) (hK : Keeps K b0 s) : Keeps K b0 (State.leaveRanges s c) := by
  unfold State.leaveRanges
  try dsimp only
  repeat' first
    | with_reducible assumption
    | (with_reducible refine List.Subset.trans ?_ hp; decide)
    | with_reducible apply State.put_keeps
    | with_reducible apply State.sbdEmpty_keeps
    | with_reducible apply State.sbdCount_keeps
    | with_reducible apply State.clearSlips_keeps
    | with_reducible apply State.schErr_keeps
    | with_reducible refine Keeps.ofEq (by with_reducible assumption) ?_
    | with_reducible apply Keeps.ite
    | (with_reducible refine Keeps.foldl ?_ (fun _ _ _ => ?_) <;> try dsimp only)

theorem State.closeStep_keeps {b0 s : State} (c : Nat) (hp : [.agenda, .regs, .detected, .stp, .set, .syn, .runners] ⊆ K) (hK : Keeps K b0 s) : Keeps K b0 (State.closeStep s c) := by
  unfold State.closeStep
  try dsimp only
  repeat' first
    | with_reducible assumption
    | (with_reducible refine List.Subset.trans ?_ hp; decide)
    | with_reducible apply State.put_keeps
    | with_reducible apply State.later_keeps
    | with_reducible apply State.releaseStep_keeps
    | with_reducible apply State.leaveRanges_keeps
    | with_reducible refine Keeps.ofEq (by with_reducible assumption) ?_
    | with_reducible apply Keeps.ite
    | dsimp only
    | split
    | with_reducible apply Keeps.set_stp

theorem State.openStep_keeps {b0 s : State} (c : Nat) (hp : [.regs, .stp] ⊆ K) (hK : Keeps K b0 s) : Keeps K b0 (State.openStep s c) := by
  unfold State.openStep
  try dsimp only
  repeat' first
    | with_reducible assumption
    | (with_reducible refine List.Subset.trans ?_ hp; decide)
    | with_reducible apply State.put_keeps
    | with_reducible refine Keeps.ofEq (by with_reducible assumption) ?_
    | with_reducible apply Keeps.ite
    | dsimp only
    | split
    | with_reducible apply Keeps.set_stp

theorem State.markErr_keeps {b0 s : State} (kind c : Nat) (hp : [.agenda, .regs, .detected, .stp, .runners] ⊆ K) (hK : Keeps K b0 s) : Keeps K b0 (State.markErr s kind c) := by
  unfold State.markErr
  try dsimp only
  repeat' first
    | with_reducible assumption
    | (with_reducible refine List.Subset.trans ?_ hp; decide)
    | with_reducible apply State.err_keeps
    | with_reducible apply State.ctxFault_keeps

theorem State.leaveReplay_keeps {b0 s : State} (c : Nat) (hp : [.regs, .set] ⊆ K) (hK : Keeps K b0 s) : Keeps K b0 (State.leaveReplay s c) := by
  unfold State.leaveReplay
  try dsimp only
  repeat' first
    | with_reducible assumption
    | (with_reducible refine List.Subset.trans ?_ hp; decide)
    | with_reducible apply State.sbdEmpty_keeps
    | with_reducible apply State.sbdCount_keeps
    | with_reducible apply State.clearSlips_keeps
    | with_reducible refine Keeps.ofEq (by with_reducible assumption) ?_
    | with_reducible apply Keeps.ite
    | (with_reducible refine Keeps.foldl ?_ (fun _ _ _ => ?_) <;> try dsimp only)

theorem execStepMark_keeps {b0 s : State} (ctx : Ctx) (rpl : Bool) (hp : [.agenda, .regs, .detected, .stp, .set, .syn, .runners] ⊆ K) (hK : Keeps K b0 s) : KeepsO K b0 (execStepMark ctx rpl s) := by
  unfold execStepMark
  try dsimp only
  repeat' first
    | with_reducible assumption
    | (with_reducible refine List.Subset.trans ?_ hp; decide)
    | with_reducible apply KeepsO.next
    | with_reducible apply State.puts_keeps
    | with_reducible apply State.endReplay_keeps
    | with_reducible apply State.redispatch_keeps
    | with_reducible apply State.closeStep_keeps
    | with_reducible apply State.openStep_keeps
    | with_reducible apply State.markErr_keeps
    | with_reducible apply State.leaveReplay_keeps
    | with_reducible refine Keeps.ofEq (by with_reducible assumption) ?_
    | with_reducible apply Keeps.ite
    | with_reducible apply KeepsO.ite
    | dsimp only
    | split
    | with_reducible apply Keeps.set_stp

theorem execStepRelease_keeps {b0 s : State} (ctx : Ctx) (hp : [.agenda, .regs, .stp, .syn, .runners] ⊆ K) (hK : Keeps K b0 s) : KeepsO K b0 (execStepRelease ctx s) := by
  unfold execStepRelease
  try dsimp only
  repeat' first
    | with_reducible assumption
    | (with_reducible refine List.Subset.trans ?_ hp; decide)
    | with_reducible apply KeepsO.next
    | with_reducible apply State.later_keeps
    | with_reducible apply State.dropHeld_keeps
    | with_reducible apply State.releaseStep_keeps
    | with_reducible refine Keeps.ofEq (by with_reducible assumption) ?_
    | with_reducible apply Keeps.ite
    | with_reducible apply KeepsO.ite
    | dsimp only
    | split

theorem execReplayNotice_keeps {b0 s : State} (lane : Fin 8) (ctx : Ctx) (attempt : Fin 4) (r : Nat) (hp : [.agenda, .regs, .freeCtr, .detected, .stp, .set, .syn, .runners, .tx] ⊆ K) (hK : Keeps K b0 s) : KeepsO K b0 (execReplayNotice lane ctx attempt r s) := by
  unfold execReplayNotice
  try dsimp only
  repeat' first
    | with_reducible assumption
    | (with_reducible refine List.Subset.trans ?_ hp; decide)
    | with_reducible apply KeepsO.next
    | with_reducible apply State.at'_keeps
    | with_reducible apply State.send_keeps
    | with_reducible apply State.ctxFault_keeps
    | with_reducible apply State.replayRise_keeps
    | with_reducible apply State.startReplay_keeps
    | with_reducible apply State.noSch_keeps
    | with_reducible apply State.hear_keeps
    | with_reducible refine Keeps.ofEq (by with_reducible assumption) ?_
    | with_reducible apply Keeps.ite
    | with_reducible apply KeepsO.ite
    | dsimp only
    | split
    | with_reducible apply Keeps.set_stp

theorem State.skewCause_keeps {b0 s : State} (c : Nat) (hp : [.agenda, .regs, .detected, .stp, .runners, .tx] ⊆ K) (hK : Keeps K b0 s) : Keeps K b0 (State.skewCause s c) := by
  unfold State.skewCause
  try dsimp only
  repeat' first
    | with_reducible assumption
    | (with_reducible refine List.Subset.trans ?_ hp; decide)
    | with_reducible apply State.replayCause_keeps
    | with_reducible apply State.skewed_keeps
    | with_reducible refine Keeps.ofEq (by with_reducible assumption) ?_
    | with_reducible apply Keeps.ite
    | dsimp only
    | split
    | with_reducible apply Keeps.set_stp

theorem execReplayRestart_keeps {b0 s : State} (ctx : Ctx) (hp : [.agenda, .regs, .freeCtr, .detected, .stp, .set, .syn, .runners, .tx] ⊆ K) (hK : Keeps K b0 s) : KeepsO K b0 (execReplayRestart ctx s) := by
  unfold execReplayRestart
  try dsimp only
  repeat' first
    | with_reducible assumption
    | (with_reducible refine List.Subset.trans ?_ hp; decide)
    | with_reducible apply KeepsO.next
    | with_reducible apply State.at'_keeps
    | with_reducible apply State.later_keeps
    | with_reducible apply State.replayRise_keeps
    | with_reducible apply State.noSch_keeps
    | with_reducible apply State.redispatch_keeps
    | with_reducible apply State.markErr_keeps
    | with_reducible apply State.skewCause_keeps
    | with_reducible apply State.skewed_keeps
    | with_reducible refine Keeps.ofEq (by with_reducible assumption) ?_
    | with_reducible apply Keeps.ite
    | with_reducible apply KeepsO.ite
    | dsimp only
    | split
    | with_reducible apply Keeps.set_stp
end Sys2Proof.Machine
end

