-- ==== Sys2Proof/Laws/KeepsPorts.lean ====
section
/-! SUPPORT. What the operations and commands of Machine/Ports.lean leave alone: one lemma each, in the terms of `Keeps`. The list each
asks for holds the parts it may change. -/
namespace Sys2Proof.Machine
variable {K : List Part}
theorem State.npAccept_keeps {b0 s : State} (cab port : Nat) (q : LReq) (tag : Nat) (hp : [.regs, .loose] ⊆ K) (hK : Keeps K b0 s) : Keeps K b0 (State.npAccept s cab port q tag) := by
  unfold State.npAccept
  try dsimp only
  repeat' first
    | with_reducible assumption
    | (with_reducible refine List.Subset.trans ?_ hp; decide)
    | with_reducible apply State.put_keeps
    | with_reducible apply State.fresh_keeps
    | with_reducible refine Keeps.ofEq (by with_reducible assumption) ?_
    | with_reducible apply Keeps.ite
    | exact fun _ hu => hu
    | dsimp only
    | split
    | with_reducible apply Keeps.set_loose

theorem execNpRequest_keeps {b0 s : State} (cab : Cab) (port : Fin 2) (we : Bool) (addr : BitVec 26) (be : W64) (data : Staged (List W256)) (tag : Fin 32) (hp : [.agenda, .regs, .detected, .stp, .loose, .syn, .runners, .pwr, .tx] ⊆ K) (hK : Keeps K b0 s) : KeepsO K b0 (execNpRequest cab port we addr be data tag s) := by
  unfold execNpRequest
  try dsimp only
  repeat' first
    | with_reducible assumption
    | (with_reducible refine List.Subset.trans ?_ hp; decide)
    | with_reducible apply KeepsO.next
    | with_reducible apply State.parity_keeps
    | with_reducible apply State.deliver_keeps
    | with_reducible apply State.issueLoose_keeps
    | with_reducible apply State.npAccept_keeps
    | with_reducible refine Keeps.ofEq (by with_reducible assumption) ?_
    | with_reducible apply Keeps.ite

theorem execNpCompletion_keeps {b0 s : State} (cab : Cab) (port : Fin 2) (perr : Bool) (hp : [.agenda, .regs, .detected, .outs, .stp, .loose, .runners, .tx] ⊆ K) (hK : Keeps K b0 s) : KeepsO K b0 (execNpCompletion cab port perr s) := by
  unfold execNpCompletion
  try dsimp only
  repeat' first
    | with_reducible assumption
    | (with_reducible refine List.Subset.trans ?_ hp; decide)
    | with_reducible apply KeepsO.next
    | with_reducible apply State.put_keeps
    | with_reducible apply State.arm_keeps
    | with_reducible apply State.present!_keeps
    | with_reducible apply State.countResp_keeps
    | with_reducible apply State.gate_keeps
    | with_reducible apply State.parity_keeps
    | with_reducible refine Keeps.ofEq (by with_reducible assumption) ?_
    | with_reducible apply Keeps.ite
    | with_reducible apply KeepsO.ite
    | exact fun _ hu => hu
    | dsimp only
    | split
    | with_reducible apply Keeps.set_loose

theorem State.forgetPort_keeps {b0 s : State} (cab port : Nat) (f : Fld) (hp : [.regs, .loose] ⊆ K) (hK : Keeps K b0 s) : Keeps K b0 (State.forgetPort s cab port f) := by
  unfold State.forgetPort
  try dsimp only
  repeat' first
    | with_reducible assumption
    | (with_reducible refine List.Subset.trans ?_ hp; decide)
    | with_reducible apply State.put_keeps
    | with_reducible refine Keeps.ofEq (by with_reducible assumption) ?_
    | with_reducible apply Keeps.ite
    | dsimp only
    | split
    | with_reducible apply Keeps.set_loose

theorem State.portLow_keeps {b0 s : State} (p : PresPort) (hp : [.agenda, .regs, .outs, .loose, .hfp] ⊆ K) (hK : Keeps K b0 s) : Keeps K b0 (State.portLow s p) := by
  unfold State.portLow
  try dsimp only
  repeat' first
    | with_reducible assumption
    | (with_reducible refine List.Subset.trans ?_ hp; decide)
    | with_reducible apply State.later_keeps
    | with_reducible apply State.outLow_keeps
    | with_reducible apply State.forgetPort_keeps
    | with_reducible refine Keeps.ofEq (by with_reducible assumption) ?_
    | with_reducible apply Keeps.ite
    | dsimp only
    | split
    | with_reducible apply Keeps.set_loose
    | with_reducible apply Keeps.set_hfp

theorem State.portHigh_keeps {b0 s : State} (p : PresPort) (hp : [.agenda] ⊆ K) (hK : Keeps K b0 s) : Keeps K b0 (State.portHigh s p) := by
  unfold State.portHigh
  try dsimp only
  repeat' first
    | with_reducible assumption
    | with_reducible apply State.later_keeps
    | with_reducible refine Keeps.ofEq (by with_reducible assumption) ?_
    | with_reducible apply Keeps.ite
    | dsimp only
    | split

theorem State.takePresent_keeps {b0 s : State} (p : PresPort) (hp : [.agenda, .regs, .outs, .loose, .hfp] ⊆ K) (hK : Keeps K b0 s) : Keeps K b0 (State.takePresent s p) := by
  unfold State.takePresent
  try dsimp only
  repeat' first
    | with_reducible assumption
    | (with_reducible refine List.Subset.trans ?_ hp; decide)
    | with_reducible apply State.putb_keeps
    | with_reducible apply State.portLow_keeps
    | with_reducible apply State.portHigh_keeps
    | with_reducible refine Keeps.ofEq (by with_reducible assumption) ?_
    | with_reducible apply Keeps.ite
    | dsimp only
    | split

theorem State.setPresent_keeps {b0 s : State} (p : PresPort) (level : Bool) (hp : [.agenda, .regs, .present, .outs, .loose, .hfp] ⊆ K) (hK : Keeps K b0 s) : Keeps K b0 (State.setPresent s p level) := by
  unfold State.setPresent
  try dsimp only
  repeat' first
    | with_reducible assumption
    | (with_reducible refine List.Subset.trans ?_ hp; decide)
    | with_reducible apply State.takePresent_keeps
    | with_reducible refine Keeps.ofEq (by with_reducible assumption) ?_
    | with_reducible apply Keeps.ite
    | dsimp only
    | split
    | with_reducible apply Keeps.set_present

theorem State.mapMoved_keeps {b0 s : State} (hp : [.agenda, .regs, .outs, .loose, .hfp] ⊆ K) (hK : Keeps K b0 s) : Keeps K b0 (State.mapMoved s) := by
  unfold State.mapMoved
  try dsimp only
  repeat' first
    | with_reducible assumption
    | with_reducible apply State.takePresent_keeps
    | with_reducible refine Keeps.ofEq (by with_reducible assumption) ?_
    | with_reducible apply Keeps.ite
    | (with_reducible refine Keeps.foldl ?_ (fun _ _ _ => ?_) <;> try dsimp only)

theorem execPresentChange_keeps {b0 s : State} (port : PresPort) (level : Bool) (hp : [.agenda, .regs, .present, .presWait, .outs, .loose, .hfp] ⊆ K) (hK : Keeps K b0 s) : KeepsO K b0 (execPresentChange port level s) := by
  unfold execPresentChange
  try dsimp only
  repeat' first
    | with_reducible assumption
    | (with_reducible refine List.Subset.trans ?_ hp; decide)
    | with_reducible apply KeepsO.next
    | with_reducible apply State.later_keeps
    | with_reducible apply State.setPresent_keeps
    | with_reducible refine Keeps.ofEq (by with_reducible assumption) ?_
    | with_reducible apply Keeps.ite
    | with_reducible apply KeepsO.ite
    | dsimp only
    | split
    | with_reducible apply Keeps.set_presWait
end Sys2Proof.Machine
end

