-- ==== Sys2Proof/Laws/KeepsBank.lean ====
section
/-! SUPPORT. What the operations and commands of Machine/Bank.lean leave alone: one lemma each, in the terms of `Keeps`. The list each
asks for holds the parts it may change. -/
namespace Sys2Proof.Machine
variable {K : List Part}
theorem State.setRet_keeps {b0 s : State} (cab bank k : Nat) (hp : [.rep] ⊆ K) (hK : Keeps K b0 s) : Keeps K b0 (State.setRet s cab bank k) := by
  unfold State.setRet
  try dsimp only
  repeat' first
    | with_reducible assumption
    | with_reducible refine Keeps.ofEq (by with_reducible assumption) ?_
    | with_reducible apply Keeps.ite
    | dsimp only
    | split
    | with_reducible apply Keeps.set_rep

theorem State.retire1_keeps {b0 s : State} (cab bank mac req : Nat) (auto : Bool) (hp : [.regs, .detected, .rep] ⊆ K) (hK : Keeps K b0 s) : Keeps K b0 (State.retire1 s cab bank mac req auto) := by
  unfold State.retire1
  try dsimp only
  repeat' first
    | with_reducible assumption
    | (with_reducible refine List.Subset.trans ?_ hp; decide)
    | with_reducible apply State.puts_keeps
    | with_reducible apply State.err_keeps
    | with_reducible apply State.setRet_keeps

theorem State.retire2_keeps {b0 s : State} (cab bank mac req : Nat) (hp : [.agenda, .regs, .detected, .rep] ⊆ K) (hK : Keeps K b0 s) : Keeps K b0 (State.retire2 s cab bank mac req) := by
  unfold State.retire2
  try dsimp only
  repeat' first
    | with_reducible assumption
    | (with_reducible refine List.Subset.trans ?_ hp; decide)
    | with_reducible apply State.puts_keeps
    | with_reducible apply State.err_keeps
    | with_reducible apply State.fenceCause_keeps
    | with_reducible apply State.setRet_keeps

theorem execAutoRetire_keeps {b0 s : State} (cab : Cab) (bank : Bank) (mac : Fin 18) (hp : [.regs, .detected, .rep] ⊆ K) (hK : Keeps K b0 s) : KeepsO K b0 (execAutoRetire cab bank mac s) := by
  unfold execAutoRetire
  try dsimp only
  repeat' first
    | with_reducible assumption
    | (with_reducible refine List.Subset.trans ?_ hp; decide)
    | with_reducible apply KeepsO.next
    | with_reducible apply State.retire1_keeps
    | with_reducible refine Keeps.ofEq (by with_reducible assumption) ?_
    | with_reducible apply Keeps.ite
    | with_reducible apply KeepsO.ite
    | dsimp only
    | split
    | with_reducible apply Keeps.set_rep

theorem execRetireWrite_keeps {b0 s : State} (m : Master) (cab : Cab) (bank : Bank) (v : W32) (hp : [.agenda, .regs, .detected, .outs, .rep, .cmx, .counted] ⊆ K) (hK : Keeps K b0 s) : KeepsO K b0 (execRetireWrite m cab bank v s) := by
  unfold execRetireWrite
  try dsimp only
  repeat' first
    | with_reducible assumption
    | (with_reducible refine List.Subset.trans ?_ hp; decide)
    | with_reducible apply KeepsO.next
    | with_reducible apply State.gateAt_keeps
    | with_reducible apply State.row_keeps
    | with_reducible apply State.retire1_keeps
    | with_reducible apply State.retire2_keeps
    | with_reducible refine Keeps.ofEq (by with_reducible assumption) ?_
    | with_reducible apply Keeps.ite
    | with_reducible apply KeepsO.ite
    | (intro _ _ <;> try dsimp only)

theorem State.dripArm_keeps {b0 s : State} (cab : Nat) (hp : [.agenda] ⊆ K) (hK : Keeps K b0 s) : Keeps K b0 (State.dripArm s cab) := by
  unfold State.dripArm
  try dsimp only
  repeat' first
    | with_reducible assumption
    | with_reducible apply State.at'_keeps
    | with_reducible apply State.disarm_keeps

theorem execBucketDrip_keeps {b0 s : State} (cab : Cab) (hp : [.agenda, .regs] ⊆ K) (hK : Keeps K b0 s) : KeepsO K b0 (execBucketDrip cab s) := by
  unfold execBucketDrip
  try dsimp only
  repeat' first
    | with_reducible assumption
    | (with_reducible refine List.Subset.trans ?_ hp; decide)
    | with_reducible apply KeepsO.next
    | with_reducible apply State.dec_keeps
    | with_reducible apply State.dripArm_keeps
    | with_reducible refine Keeps.ofEq (by with_reducible assumption) ?_
    | with_reducible apply Keeps.ite
    | (with_reducible refine Keeps.foldl ?_ (fun _ _ _ => ?_) <;> try dsimp only)

theorem execBktCfgWrite_keeps {b0 s : State} (m : Master) (cab : Cab) (v : W32) (hp : [.agenda, .regs, .detected, .outs, .cmx, .counted] ⊆ K) (hK : Keeps K b0 s) : KeepsO K b0 (execBktCfgWrite m cab v s) := by
  unfold execBktCfgWrite
  try dsimp only
  repeat' first
    | with_reducible assumption
    | (with_reducible refine List.Subset.trans ?_ hp; decide)
    | with_reducible apply KeepsO.next
    | with_reducible apply State.puts_keeps
    | with_reducible apply State.gateAt_keeps
    | with_reducible apply State.row_keeps
    | with_reducible apply State.dripArm_keeps
    | with_reducible refine Keeps.ofEq (by with_reducible assumption) ?_
    | with_reducible apply Keeps.ite
    | with_reducible apply KeepsO.ite
    | (intro _ _ <;> try dsimp only)

theorem execInjCtlWrite_keeps {b0 s : State} (m : Master) (cab : Cab) (v : W32) (hp : [.agenda, .regs, .detected, .outs, .cmx, .counted] ⊆ K) (hK : Keeps K b0 s) : KeepsO K b0 (execInjCtlWrite m cab v s) := by
  unfold execInjCtlWrite
  try dsimp only
  repeat' first
    | with_reducible assumption
    | (with_reducible refine List.Subset.trans ?_ hp; decide)
    | with_reducible apply KeepsO.next
    | with_reducible apply State.setReg_keeps
    | with_reducible apply State.gateAt_keeps
    | with_reducible apply State.row_keeps
    | with_reducible refine Keeps.ofEq (by with_reducible assumption) ?_
    | with_reducible apply Keeps.ite
    | with_reducible apply KeepsO.ite
    | (intro _ _ <;> try dsimp only)

theorem State.bktAgain_keeps {b0 s : State} (cab bank : Nat) (hp : [.regs, .detected] ⊆ K) (hK : Keeps K b0 s) : Keeps K b0 (State.bktAgain s cab bank) := by
  unfold State.bktAgain
  try dsimp only
  repeat' first
    | with_reducible assumption
    | (with_reducible refine List.Subset.trans ?_ hp; decide)
    | with_reducible apply State.put_keeps
    | with_reducible refine Keeps.ofEq (by with_reducible assumption) ?_
    | with_reducible apply Keeps.ite
    | dsimp only
    | split
    | with_reducible apply Keeps.set_detected

theorem State.retAgain_keeps {b0 s : State} (cab : Nat) (hp : [.agenda, .rep] ⊆ K) (hK : Keeps K b0 s) : Keeps K b0 (State.retAgain s cab) := by
  unfold State.retAgain
  try dsimp only
  repeat' first
    | with_reducible assumption
    | with_reducible apply State.retDrop_keeps
    | with_reducible refine Keeps.ofEq (by with_reducible assumption) ?_
    | with_reducible apply Keeps.ite
    | (with_reducible refine Keeps.foldl ?_ (fun _ _ _ => ?_) <;> try dsimp only)

theorem execBnkCntClr_keeps {b0 s : State} (m : Master) (cab : Cab) (v : W32) (hp : [.agenda, .regs, .detected, .outs, .rep, .cmx, .counted] ⊆ K) (hK : Keeps K b0 s) : KeepsO K b0 (execBnkCntClr m cab v s) := by
  unfold execBnkCntClr
  try dsimp only
  repeat' first
    | with_reducible assumption
    | (with_reducible refine List.Subset.trans ?_ hp; decide)
    | with_reducible apply KeepsO.next
    | with_reducible apply State.clearOn_keeps
    | with_reducible apply State.gateAt_keeps
    | with_reducible apply State.row_keeps
    | with_reducible apply State.bktAgain_keeps
    | with_reducible apply State.retAgain_keeps
    | with_reducible refine Keeps.ofEq (by with_reducible assumption) ?_
    | with_reducible apply Keeps.ite
    | (with_reducible refine Keeps.foldl ?_ (fun _ _ _ => ?_) <;> try dsimp only)
    | with_reducible apply KeepsO.ite
    | (intro _ _ <;> try dsimp only)

theorem State.sweepStart_keeps {b0 s : State} (cab : Nat) (r : SwpRange) (hp : [.agenda, .loose, .rep] ⊆ K) (hK : Keeps K b0 s) : Keeps K b0 (State.sweepStart s cab r) := by
  unfold State.sweepStart
  try dsimp only
  repeat' first
    | with_reducible assumption
    | (with_reducible refine List.Subset.trans ?_ hp; decide)
    | with_reducible apply State.later_keeps
    | with_reducible apply State.setPairSt_keeps
    | with_reducible apply State.setSwp_keeps
    | with_reducible apply State.sweepNext_keeps
    | with_reducible refine Keeps.ofEq (by with_reducible assumption) ?_
    | with_reducible apply Keeps.ite
    | (with_reducible refine Keeps.foldl ?_ (fun _ _ _ => ?_) <;> try dsimp only)

theorem State.sweepOver_keeps {b0 s : State} (cab : Nat) (o : SwpOrg) (n : Nat) (hp : [.agenda, .regs] ⊆ K) (hK : Keeps K b0 s) : Keeps K b0 (State.sweepOver s cab o n) := by
  unfold State.sweepOver
  try dsimp only
  repeat' first
    | with_reducible assumption
    | (with_reducible refine List.Subset.trans ?_ hp; decide)
    | with_reducible apply State.puts_keeps
    | with_reducible apply State.later_keeps
    | with_reducible refine Keeps.ofEq (by with_reducible assumption) ?_
    | with_reducible apply Keeps.ite
    | dsimp only
    | split

theorem State.wakeHold_keeps {b0 s : State} (cab : Nat) (hp : [.agenda, .regs, .leave] ⊆ K) (hK : Keeps K b0 s) : Keeps K b0 (State.wakeHold s cab) := by
  unfold State.wakeHold
  try dsimp only
  repeat' first
    | with_reducible assumption
    | (with_reducible refine List.Subset.trans ?_ hp; decide)
    | with_reducible apply State.put_keeps
    | with_reducible apply State.leaveAsk_keeps
    | with_reducible refine Keeps.ofEq (by with_reducible assumption) ?_
    | with_reducible apply Keeps.ite

theorem State.sweepAdd_keeps {b0 s : State} (cab : Nat) (r : SwpRange) (hp : [.agenda, .regs, .loose, .rep, .leave] ⊆ K) (hK : Keeps K b0 s) : Keeps K b0 (State.sweepAdd s cab r) := by
  unfold State.sweepAdd
  try dsimp only
  repeat' first
    | with_reducible assumption
    | (with_reducible refine List.Subset.trans ?_ hp; decide)
    | with_reducible apply State.wakeDoze_keeps
    | with_reducible apply State.setSwp_keeps
    | with_reducible apply State.sweepStart_keeps
    | with_reducible apply State.sweepOver_keeps
    | with_reducible apply State.wakeHold_keeps
    | with_reducible refine Keeps.ofEq (by with_reducible assumption) ?_
    | with_reducible apply Keeps.ite
    | dsimp only
    | split
    | with_reducible apply Keeps.set_rep

theorem execSwpGo_keeps {b0 s : State} (m : Master) (cab : Cab) (v : W32) (hp : [.agenda, .regs, .detected, .outs, .loose, .rep, .leave, .cmx, .counted] ⊆ K) (hK : Keeps K b0 s) : KeepsO K b0 (execSwpGo m cab v s) := by
  unfold execSwpGo
  try dsimp only
  repeat' first
    | with_reducible assumption
    | (with_reducible refine List.Subset.trans ?_ hp; decide)
    | with_reducible apply KeepsO.next
    | with_reducible apply State.put_keeps
    | with_reducible apply State.gateAt_keeps
    | with_reducible apply State.row_keeps
    | with_reducible apply State.sweepAdd_keeps
    | with_reducible refine Keeps.ofEq (by with_reducible assumption) ?_
    | with_reducible apply Keeps.ite
    | with_reducible apply KeepsO.ite
    | (intro _ _ <;> try dsimp only)

theorem execSweepRangeDone_keeps {b0 s : State} (cab : Cab) (hp : [.agenda, .regs, .loose, .rep, .leave] ⊆ K) (hK : Keeps K b0 s) : KeepsO K b0 (execSweepRangeDone cab s) := by
  unfold execSweepRangeDone
  try dsimp only
  repeat' first
    | with_reducible assumption
    | (with_reducible refine List.Subset.trans ?_ hp; decide)
    | with_reducible apply KeepsO.next
    | with_reducible apply State.setSwp_keeps
    | with_reducible apply State.sweepStart_keeps
    | with_reducible apply State.sweepOver_keeps
    | with_reducible apply State.sweepAdd_keeps
    | with_reducible refine Keeps.ofEq (by with_reducible assumption) ?_
    | with_reducible apply Keeps.ite
    | with_reducible apply KeepsO.ite
    | dsimp only
    | split
    | with_reducible apply Keeps.set_rep

theorem State.setRegs_keeps {b0 s : State} (ks : List Nat) (vs : List W32) (hp : [.regs] ⊆ K) (hK : Keeps K b0 s) : Keeps K b0 (State.setRegs s ks vs) := by
  unfold State.setRegs
  try dsimp only
  repeat' first
    | with_reducible assumption
    | with_reducible apply State.setReg_keeps
    | with_reducible refine Keeps.ofEq (by with_reducible assumption) ?_
    | with_reducible apply Keeps.ite
    | (with_reducible refine Keeps.foldl ?_ (fun _ _ _ => ?_) <;> try dsimp only)

theorem State.enter_keeps {b0 s : State} (e : ErrRec) (hp : [.regs] ⊆ K) (hK : Keeps K b0 s) : Keeps K b0 (State.enter s e) := by
  unfold State.enter
  try dsimp only
  repeat' first
    | with_reducible assumption
    | with_reducible apply State.put_keeps
    | with_reducible apply State.inc_keeps
    | with_reducible apply State.setRegs_keeps
    | with_reducible refine Keeps.ofEq (by with_reducible assumption) ?_
    | with_reducible apply Keeps.ite

theorem State.enterAll_keeps {b0 s : State} (hp : [.regs, .detected] ⊆ K) (hK : Keeps K b0 s) : Keeps K b0 (State.enterAll s) := by
  unfold State.enterAll
  try dsimp only
  repeat' first
    | with_reducible assumption
    | (with_reducible refine List.Subset.trans ?_ hp; decide)
    | with_reducible apply State.enter_keeps
    | with_reducible refine Keeps.ofEq (by with_reducible assumption) ?_
    | with_reducible apply Keeps.ite
    | (with_reducible refine Keeps.foldl ?_ (fun _ _ _ => ?_) <;> try dsimp only)
    | dsimp only
    | split
    | with_reducible apply Keeps.set_detected

theorem State.logCtl_keeps {b0 s : State} (m : Master) (k : Nat) (v : W32) (hp : [.regs, .detected] ⊆ K) (hK : Keeps K b0 s) : Keeps K b0 (State.logCtl s m k v) := by
  unfold State.logCtl
  try dsimp only
  repeat' first
    | with_reducible assumption
    | (with_reducible refine List.Subset.trans ?_ hp; decide)
    | with_reducible apply State.put_keeps
    | with_reducible apply State.puts_keeps
    | with_reducible apply State.putb_keeps
    | with_reducible apply State.locked_keeps
    | with_reducible apply State.setRegs_keeps
    | with_reducible refine Keeps.ofEq (by with_reducible assumption) ?_
    | with_reducible apply Keeps.ite

theorem execLogAck_keeps {b0 s : State} (m : Master) (k : Fin 4) (v : W32) (hp : [.agenda, .regs, .detected] ⊆ K) (hK : Keeps K b0 s) : KeepsO K b0 (execLogAck m k v s) := by
  unfold execLogAck
  try dsimp only
  repeat' first
    | with_reducible assumption
    | (with_reducible refine List.Subset.trans ?_ hp; decide)
    | with_reducible apply KeepsO.next
    | with_reducible apply State.row_keeps
    | with_reducible apply State.logCtl_keeps
    | with_reducible refine Keeps.ofEq (by with_reducible assumption) ?_
    | with_reducible apply Keeps.ite
    | with_reducible apply KeepsO.ite
    | (intro _ _ <;> try dsimp only)

theorem execLogClrAll_keeps {b0 s : State} (m : Master) (k : Fin 4) (v : W32) (hp : [.agenda, .regs, .detected] ⊆ K) (hK : Keeps K b0 s) : KeepsO K b0 (execLogClrAll m k v s) := by
  unfold execLogClrAll
  try dsimp only
  repeat' first
    | with_reducible assumption
    | (with_reducible refine List.Subset.trans ?_ hp; decide)
    | with_reducible apply KeepsO.next
    | with_reducible apply State.row_keeps
    | with_reducible apply State.logCtl_keeps
    | with_reducible refine Keeps.ofEq (by with_reducible assumption) ?_
    | with_reducible apply Keeps.ite
    | with_reducible apply KeepsO.ite
    | (intro _ _ <;> try dsimp only)

theorem State.asyFields_keeps {b0 s : State} (cab : Nat) (v : W32) (hp : [.regs] ⊆ K) (hK : Keeps K b0 s) : Keeps K b0 (State.asyFields s cab v) := by
  unfold State.asyFields
  try dsimp only
  repeat' first
    | with_reducible assumption
    | with_reducible apply State.put_keeps
    | with_reducible apply State.puts_keeps
    | with_reducible refine Keeps.ofEq (by with_reducible assumption) ?_
    | with_reducible apply Keeps.ite

theorem State.asyGo_keeps {b0 s : State} (cab : Nat) (hp : [.agenda, .regs, .rep, .leave] ⊆ K) (hK : Keeps K b0 s) : Keeps K b0 (State.asyGo s cab) := by
  unfold State.asyGo
  try dsimp only
  repeat' first
    | with_reducible assumption
    | (with_reducible refine List.Subset.trans ?_ hp; decide)
    | with_reducible apply State.setReg_keeps
    | with_reducible apply State.put_keeps
    | with_reducible apply State.puts_keeps
    | with_reducible apply State.setAsy_keeps
    | with_reducible apply State.leaveAsk_keeps
    | with_reducible refine Keeps.ofEq (by with_reducible assumption) ?_
    | with_reducible apply Keeps.ite
    | (with_reducible refine Keeps.foldl ?_ (fun _ _ _ => ?_) <;> try dsimp only)

theorem State.asyStart_keeps {b0 s : State} (cab : Nat) (hp : [.agenda, .rep] ⊆ K) (hK : Keeps K b0 s) : Keeps K b0 (State.asyStart s cab) := by
  unfold State.asyStart
  try dsimp only
  repeat' first
    | with_reducible assumption
    | (with_reducible refine List.Subset.trans ?_ hp; decide)
    | with_reducible apply State.later_keeps
    | with_reducible apply State.setAsy_keeps
    | with_reducible refine Keeps.ofEq (by with_reducible assumption) ?_
    | with_reducible apply Keeps.ite
    | dsimp only
    | split
    | with_reducible apply Keeps.set_rep

theorem State.asyAbort_keeps {b0 s : State} (cab : Nat) (hp : [.agenda, .regs, .rep, .leave] ⊆ K) (hK : Keeps K b0 s) : Keeps K b0 (State.asyAbort s cab) := by
  unfold State.asyAbort
  try dsimp only
  repeat' first
    | with_reducible assumption
    | (with_reducible refine List.Subset.trans ?_ hp; decide)
    | with_reducible apply State.setAsy_keeps
    | with_reducible apply State.asyCheck_keeps
    | with_reducible apply State.leaveDrop_keeps
    | with_reducible apply State.started_keeps
    | with_reducible refine Keeps.ofEq (by with_reducible assumption) ?_
    | with_reducible apply Keeps.ite
    | dsimp only
    | split

theorem State.asyCtl_keeps {b0 s : State} (m : Master) (cab : Nat) (v : W32) (hp : [.agenda, .regs, .detected, .outs, .rep, .leave, .cmx, .counted] ⊆ K) (hK : Keeps K b0 s) : Keeps K b0 (State.asyCtl s m cab v) := by
  unfold State.asyCtl
  try dsimp only
  repeat' first
    | with_reducible assumption
    | (with_reducible refine List.Subset.trans ?_ hp; decide)
    | with_reducible apply State.gateAt_keeps
    | with_reducible apply State.asyFields_keeps
    | with_reducible apply State.asyGo_keeps
    | with_reducible apply State.asyAbort_keeps
    | with_reducible refine Keeps.ofEq (by with_reducible assumption) ?_
    | with_reducible apply Keeps.ite
    | (intro _ _; try dsimp only)

theorem execAssayGo_keeps {b0 s : State} (m : Master) (cab : Cab) (v : W32) (hp : [.agenda, .regs, .detected, .outs, .rep, .leave, .cmx, .counted] ⊆ K) (hK : Keeps K b0 s) : KeepsO K b0 (execAssayGo m cab v s) := by
  unfold execAssayGo
  try dsimp only
  repeat' first
    | with_reducible assumption
    | (with_reducible refine List.Subset.trans ?_ hp; decide)
    | with_reducible apply KeepsO.next
    | with_reducible apply State.row_keeps
    | with_reducible apply State.asyCtl_keeps
    | with_reducible refine Keeps.ofEq (by with_reducible assumption) ?_
    | with_reducible apply Keeps.ite
    | with_reducible apply KeepsO.ite
    | (intro _ _ <;> try dsimp only)

theorem execAssayAbort_keeps {b0 s : State} (m : Master) (cab : Cab) (v : W32) (hp : [.agenda, .regs, .detected, .outs, .rep, .leave, .cmx, .counted] ⊆ K) (hK : Keeps K b0 s) : KeepsO K b0 (execAssayAbort m cab v s) := by
  unfold execAssayAbort
  try dsimp only
  repeat' first
    | with_reducible assumption
    | (with_reducible refine List.Subset.trans ?_ hp; decide)
    | with_reducible apply KeepsO.next
    | with_reducible apply State.row_keeps
    | with_reducible apply State.asyCtl_keeps
    | with_reducible refine Keeps.ofEq (by with_reducible assumption) ?_
    | with_reducible apply Keeps.ite
    | with_reducible apply KeepsO.ite
    | (intro _ _ <;> try dsimp only)

theorem State.asyPresent_keeps {b0 s : State} (cab : Nat) (p : AsyPass) (hp : [.agenda, .loose, .rep] ⊆ K) (hK : Keeps K b0 s) : Keeps K b0 (State.asyPresent s cab p) := by
  unfold State.asyPresent
  try dsimp only
  repeat' first
    | with_reducible assumption
    | (with_reducible refine List.Subset.trans ?_ hp; decide)
    | with_reducible apply State.at'_keeps
    | with_reducible apply State.fresh_keeps
    | with_reducible apply State.enqueueNow_keeps
    | with_reducible apply State.setAsy_keeps

theorem execAssayBurst_keeps {b0 s : State} (cab : Cab) (hp : [.agenda, .loose, .rep] ⊆ K) (hK : Keeps K b0 s) : KeepsO K b0 (execAssayBurst cab s) := by
  unfold execAssayBurst
  try dsimp only
  repeat' first
    | with_reducible assumption
    | (with_reducible refine List.Subset.trans ?_ hp; decide)
    | with_reducible apply KeepsO.next
    | with_reducible apply State.arm_keeps
    | with_reducible apply State.asyCheck_keeps
    | with_reducible apply State.asyPresent_keeps
    | with_reducible apply State.started_keeps
    | with_reducible refine Keeps.ofEq (by with_reducible assumption) ?_
    | with_reducible apply Keeps.ite
    | with_reducible apply KeepsO.ite
    | dsimp only
    | split
    | with_reducible apply Keeps.set_loose

theorem State.repair_keeps {b0 s : State} (cab bank row u : Nat) (hp : [.agenda, .regs, .mem, .detected, .rep, .counted] ⊆ K) (hK : Keeps K b0 s) : Keeps K b0 (State.repair s cab bank row u) := by
  unfold State.repair
  try dsimp only
  repeat' first
    | with_reducible assumption
    | (with_reducible refine List.Subset.trans ?_ hp; decide)
    | with_reducible apply State.inc_keeps
    | with_reducible apply State.setSyms_keeps
    | with_reducible apply State.readWord_keeps
    | with_reducible apply State.inject_keeps
    | with_reducible apply State.storeWord_keeps
    | with_reducible apply State.setEntry_keeps
    | with_reducible refine Keeps.ofEq (by with_reducible assumption) ?_
    | with_reducible apply Keeps.ite
    | dsimp only
    | split

theorem execAssayRepair_keeps {b0 s : State} (cab : Cab) (hp : [.agenda, .regs, .mem, .detected, .loose, .rep, .counted] ⊆ K) (hK : Keeps K b0 s) : KeepsO K b0 (execAssayRepair cab s) := by
  unfold execAssayRepair
  try dsimp only
  repeat' first
    | with_reducible assumption
    | (with_reducible refine List.Subset.trans ?_ hp; decide)
    | with_reducible apply KeepsO.next
    | with_reducible apply State.endBurst_keeps
    | with_reducible apply State.setAsy_keeps
    | with_reducible apply State.asyCheck_keeps
    | with_reducible apply State.repair_keeps
    | with_reducible apply step_keeps
    | with_reducible refine Keeps.ofEq (by with_reducible assumption) ?_
    | with_reducible apply Keeps.ite
    | (with_reducible refine Keeps.foldl ?_ (fun _ _ _ => ?_) <;> try dsimp only)
    | with_reducible apply KeepsO.ite
    | dsimp only
    | split

theorem State.asyEnd_keeps {b0 s : State} (cab : Nat) (hp : [.rep] ⊆ K) (hK : Keeps K b0 s) : Keeps K b0 (State.asyEnd s cab) := by
  unfold State.asyEnd
  try dsimp only
  repeat' first
    | with_reducible assumption
    | with_reducible refine Keeps.ofEq (by with_reducible assumption) ?_
    | with_reducible apply Keeps.ite
    | dsimp only
    | split
    | with_reducible apply Keeps.set_rep

theorem execAssayDone_keeps {b0 s : State} (cab : Cab) (hp : [.agenda, .regs, .rep, .leave] ⊆ K) (hK : Keeps K b0 s) : KeepsO K b0 (execAssayDone cab s) := by
  unfold execAssayDone
  try dsimp only
  repeat' first
    | with_reducible assumption
    | (with_reducible refine List.Subset.trans ?_ hp; decide)
    | with_reducible apply KeepsO.next
    | with_reducible apply State.puts_keeps
    | with_reducible apply State.setAsy_keeps
    | with_reducible apply State.leaveBack_keeps
    | with_reducible apply State.asyEnd_keeps
    | with_reducible apply State.started_keeps
    | with_reducible refine Keeps.ofEq (by with_reducible assumption) ?_
    | with_reducible apply Keeps.ite
    | with_reducible apply KeepsO.ite
    | dsimp only
    | split

theorem execRemapAdd_keeps {b0 s : State} (m : Master) (cab : Cab) (v : W32) (hp : [.agenda, .regs, .detected, .outs, .loose, .cmx, .counted] ⊆ K) (hK : Keeps K b0 s) : KeepsO K b0 (execRemapAdd m cab v s) := by
  unfold execRemapAdd
  try dsimp only
  repeat' first
    | with_reducible assumption
    | (with_reducible refine List.Subset.trans ?_ hp; decide)
    | with_reducible apply KeepsO.next
    | with_reducible apply State.put_keeps
    | with_reducible apply State.puts_keeps
    | with_reducible apply State.fresh_keeps
    | with_reducible apply State.gateAt_keeps
    | with_reducible apply State.row_keeps
    | with_reducible apply State.enqueue_keeps
    | with_reducible refine Keeps.ofEq (by with_reducible assumption) ?_
    | with_reducible apply Keeps.ite
    | with_reducible apply KeepsO.ite
    | exact fun _ hu => hu
    | (intro _ _ <;> try dsimp only)

theorem execRemapMove_keeps {b0 s : State} (cab : Cab) (hp : [.agenda, .regs, .mem, .detected, .loose, .rep, .counted] ⊆ K) (hK : Keeps K b0 s) : KeepsO K b0 (execRemapMove cab s) := by
  unfold execRemapMove
  try dsimp only
  repeat' first
    | with_reducible assumption
    | (with_reducible refine List.Subset.trans ?_ hp; decide)
    | with_reducible apply KeepsO.next
    | with_reducible apply State.put_keeps
    | with_reducible apply State.puts_keeps
    | with_reducible apply State.moveRow_keeps
    | with_reducible apply State.endBurst_keeps
    | with_reducible apply step_keeps
    | with_reducible refine Keeps.ofEq (by with_reducible assumption) ?_
    | with_reducible apply Keeps.ite
    | (with_reducible refine Keeps.foldl ?_ (fun _ _ _ => ?_) <;> try dsimp only)
    | with_reducible apply KeepsO.ite
    | dsimp only
    | split
end Sys2Proof.Machine
end

