-- ==== Sys2Proof/Laws/KeepsSync.lean ====
section
/-! SUPPORT. What the operations and commands of Machine/Sync.lean leave alone: one lemma each, in the terms of `Keeps`. The list each
asks for holds the parts it may change. -/
namespace Sys2Proof.Machine
variable {K : List Part}
theorem State.setCtr_keeps {b0 s : State} (k v : Nat) (hp : [.regs] ⊆ K) (hK : Keeps K b0 s) : Keeps K b0 (State.setCtr s k v) := by
  unfold State.setCtr
  try dsimp only
  repeat' first
    | with_reducible assumption
    | with_reducible apply State.setPair_keeps

theorem State.setShadows_keeps {b0 s : State} (g v : Nat) (hp : [.syn] ⊆ K) (hK : Keeps K b0 s) : Keeps K b0 (State.setShadows s g v) := by
  unfold State.setShadows
  try dsimp only
  repeat' first
    | with_reducible assumption
    | with_reducible refine Keeps.ofEq (by with_reducible assumption) ?_
    | with_reducible apply Keeps.ite
    | dsimp only
    | split
    | with_reducible apply Keeps.set_syn

theorem State.wakeIfReady_keeps {b0 s : State} (cab w : Nat) (hp : [.agenda, .regs, .pwr] ⊆ K) (hK : Keeps K b0 s) : Keeps K b0 (State.wakeIfReady s cab w) := by
  unfold State.wakeIfReady
  try dsimp only
  repeat' first
    | with_reducible assumption
    | (with_reducible refine List.Subset.trans ?_ hp; decide)
    | with_reducible apply State.arm_keeps
    | with_reducible apply State.entryAbort_keeps
    | with_reducible apply State.wakeDoze_keeps
    | with_reducible refine Keeps.ofEq (by with_reducible assumption) ?_
    | with_reducible apply Keeps.ite

theorem State.compareAll_keeps {b0 s : State} (k : Nat) (hp : [.agenda, .regs, .pwr] ⊆ K) (hK : Keeps K b0 s) : Keeps K b0 (State.compareAll s k) := by
  unfold State.compareAll
  try dsimp only
  repeat' first
    | with_reducible assumption
    | with_reducible apply State.wakeIfReady_keeps
    | with_reducible refine Keeps.ofEq (by with_reducible assumption) ?_
    | with_reducible apply Keeps.ite
    | (with_reducible refine Keeps.foldl ?_ (fun _ _ _ => ?_) <;> try dsimp only)

theorem State.lowerWire_keeps {b0 s : State} (cab w : Nat) (hp : [.syn] ⊆ K) (hK : Keeps K b0 s) : Keeps K b0 (State.lowerWire s cab w) := by
  unfold State.lowerWire
  try dsimp only
  repeat' first
    | with_reducible assumption
    | with_reducible refine Keeps.ofEq (by with_reducible assumption) ?_
    | with_reducible apply Keeps.ite
    | dsimp only
    | split
    | with_reducible apply Keeps.set_syn

theorem State.cancelWtr_keeps {b0 s : State} (cab w : Nat) (hp : [.agenda, .regs, .syn] ⊆ K) (hK : Keeps K b0 s) : Keeps K b0 (State.cancelWtr s cab w) := by
  unfold State.cancelWtr
  try dsimp only
  repeat' first
    | with_reducible assumption
    | (with_reducible refine List.Subset.trans ?_ hp; decide)
    | with_reducible apply State.puts_keeps
    | with_reducible apply State.disarm_keeps
    | with_reducible apply State.lowerWire_keeps

theorem State.registerWtr_keeps {b0 s : State} (cab w sel e ctx : Nat) (hp : [.agenda, .regs, .syn] ⊆ K) (hK : Keeps K b0 s) : Keeps K b0 (State.registerWtr s cab w sel e ctx) := by
  unfold State.registerWtr
  try dsimp only
  repeat' first
    | with_reducible assumption
    | (with_reducible refine List.Subset.trans ?_ hp; decide)
    | with_reducible apply State.puts_keeps
    | with_reducible apply State.setPair_keeps
    | with_reducible apply State.arm_keeps
    | with_reducible apply State.cancelWtr_keeps

theorem State.fire_keeps {b0 s : State} (cab w : Nat) (hp : [.agenda, .regs, .syn] ⊆ K) (hK : Keeps K b0 s) : Keeps K b0 (State.fire s cab w) := by
  unfold State.fire
  try dsimp only
  repeat' first
    | with_reducible assumption
    | (with_reducible refine List.Subset.trans ?_ hp; decide)
    | with_reducible apply State.puts_keeps
    | with_reducible apply State.later_keeps
    | with_reducible refine Keeps.ofEq (by with_reducible assumption) ?_
    | with_reducible apply Keeps.ite
    | dsimp only
    | split
    | with_reducible apply Keeps.set_syn

theorem execWaiterFire_keeps {b0 s : State} (cab : Cab) (k : Fin 16) (hp : [.agenda, .regs, .syn] ⊆ K) (hK : Keeps K b0 s) : KeepsO K b0 (execWaiterFire cab k s) := by
  unfold execWaiterFire
  try dsimp only
  repeat' first
    | with_reducible assumption
    | (with_reducible refine List.Subset.trans ?_ hp; decide)
    | with_reducible apply KeepsO.next
    | with_reducible apply State.put_keeps
    | with_reducible apply State.arm_keeps
    | with_reducible apply State.wakeDoze_keeps
    | with_reducible apply State.fire_keeps
    | with_reducible refine Keeps.ofEq (by with_reducible assumption) ?_
    | with_reducible apply Keeps.ite
    | with_reducible apply KeepsO.ite
    | dsimp only
    | split
    | with_reducible apply Keeps.set_syn

theorem State.synErr_keeps {b0 s : State} (kind req : Nat) (cab ctx : Option Nat) (cn cause : Nat) (hp : [.detected] ⊆ K) (hK : Keeps K b0 s) : Keeps K b0 (State.synErr s kind req cab ctx cn cause) := by
  unfold State.synErr
  try dsimp only
  repeat' first
    | with_reducible assumption
    | with_reducible apply State.err_keeps

theorem State.onList_keeps {b0 s : State} (cab r : Nat) (f : RunList → RunList) (hp : [.runners] ⊆ K) (hK : Keeps K b0 s) : Keeps K b0 (State.onList s cab r f) := by
  unfold State.onList
  try dsimp only
  repeat' first
    | with_reducible assumption
    | with_reducible apply State.setRunner_keeps

theorem State.sigReport_keeps {b0 s : State} (g : Sig) (hp : [.regs, .runners] ⊆ K) (hK : Keeps K b0 s) : Keeps K b0 (State.sigReport s g) := by
  unfold State.sigReport
  try dsimp only
  repeat' first
    | with_reducible assumption
    | (with_reducible refine List.Subset.trans ?_ hp; decide)
    | with_reducible apply State.put_keeps
    | with_reducible apply State.onList_keeps
    | with_reducible refine Keeps.ofEq (by with_reducible assumption) ?_
    | with_reducible apply Keeps.ite
    | dsimp only
    | split

theorem State.edgeOutcome_keeps {b0 s : State} (g : Sig) (status : Nat) (hp : [.syn] ⊆ K) (hK : Keeps K b0 s) : Keeps K b0 (State.edgeOutcome s g status) := by
  unfold State.edgeOutcome
  try dsimp only
  repeat' first
    | with_reducible assumption
    | with_reducible refine Keeps.ofEq (by with_reducible assumption) ?_
    | with_reducible apply Keeps.ite
    | exact fun _ hu => hu
    | dsimp only
    | split
    | with_reducible apply Keeps.set_syn

theorem State.sigRefuse_keeps {b0 s : State} (g : Sig) (kind cause : Nat) (cab : Option Nat) (hp : [.agenda, .regs, .detected, .stp, .syn, .runners] ⊆ K) (hK : Keeps K b0 s) : Keeps K b0 (State.sigRefuse s g kind cause cab) := by
  unfold State.sigRefuse
  try dsimp only
  repeat' first
    | with_reducible assumption
    | (with_reducible refine List.Subset.trans ?_ hp; decide)
    | with_reducible apply State.ctxFault?_keeps
    | with_reducible apply State.synErr_keeps
    | with_reducible apply State.sigReport_keeps
    | with_reducible apply State.edgeOutcome_keeps
    | with_reducible refine Keeps.ofEq (by with_reducible assumption) ?_
    | with_reducible apply Keeps.ite

theorem State.dropSig_keeps {b0 s : State} (id : Nat) (hp : [.syn] ⊆ K) (hK : Keeps K b0 s) : Keeps K b0 (State.dropSig s id) := by
  unfold State.dropSig
  try dsimp only
  repeat' first
    | with_reducible assumption
    | with_reducible refine Keeps.ofEq (by with_reducible assumption) ?_
    | with_reducible apply Keeps.ite
    | exact fun _ hu => hu
    | dsimp only
    | split
    | with_reducible apply Keeps.set_syn

theorem State.dropSigs_keeps {b0 s : State} (f : Sig → Bool) (hp : [.syn] ⊆ K) (hK : Keeps K b0 s) : Keeps K b0 (State.dropSigs s f) := by
  unfold State.dropSigs
  try dsimp only
  repeat' first
    | with_reducible assumption
    | with_reducible refine Keeps.ofEq (by with_reducible assumption) ?_
    | with_reducible apply Keeps.ite
    | dsimp only
    | split
    | with_reducible apply Keeps.set_syn

theorem State.setSig_keeps {b0 s : State} (g : Sig) (hp : [.syn] ⊆ K) (hK : Keeps K b0 s) : Keeps K b0 (State.setSig s g) := by
  unfold State.setSig
  try dsimp only
  repeat' first
    | with_reducible assumption
    | with_reducible refine Keeps.ofEq (by with_reducible assumption) ?_
    | with_reducible apply Keeps.ite
    | exact fun _ hu => hu
    | dsimp only
    | split
    | with_reducible apply Keeps.set_syn

theorem State.useCap_keeps {b0 s : State} (unit : Nat) (hp : [.syn] ⊆ K) (hK : Keeps K b0 s) : Keeps K b0 (State.useCap s unit) := by
  unfold State.useCap
  try dsimp only
  repeat' first
    | with_reducible assumption
    | with_reducible refine Keeps.ofEq (by with_reducible assumption) ?_
    | with_reducible apply Keeps.ite
    | dsimp only
    | split
    | with_reducible apply Keeps.set_syn

theorem State.travel_keeps {b0 s : State} (g : Sig) (hp : [.agenda, .regs, .freeCtr, .detected, .stp, .syn, .runners, .tx] ⊆ K) (hK : Keeps K b0 s) : Keeps K b0 (State.travel s g) := by
  unfold State.travel
  try dsimp only
  repeat' first
    | with_reducible assumption
    | (with_reducible refine List.Subset.trans ?_ hp; decide)
    | with_reducible apply State.at'_keeps
    | with_reducible apply State.useFree_keeps
    | with_reducible apply State.send_keeps
    | with_reducible apply State.sigRefuse_keeps
    | with_reducible apply State.dropSig_keeps
    | with_reducible apply State.setSig_keeps
    | with_reducible refine Keeps.ofEq (by with_reducible assumption) ?_
    | with_reducible apply Keeps.ite
    | exact fun _ hu => hu
    | dsimp only
    | split

theorem execSignalLeave_keeps {b0 s : State} (id : Nat) (hp : [.agenda, .regs, .freeCtr, .detected, .stp, .syn, .runners, .tx] ⊆ K) (hK : Keeps K b0 s) : KeepsO K b0 (execSignalLeave id s) := by
  unfold execSignalLeave
  try dsimp only
  repeat' first
    | with_reducible assumption
    | (with_reducible refine List.Subset.trans ?_ hp; decide)
    | with_reducible apply KeepsO.next
    | with_reducible apply State.later_keeps
    | with_reducible apply State.useFree_keeps
    | with_reducible apply State.useCap_keeps
    | with_reducible apply State.travel_keeps
    | with_reducible refine Keeps.ofEq (by with_reducible assumption) ?_
    | with_reducible apply Keeps.ite
    | with_reducible apply KeepsO.ite
    | exact fun _ hu => hu
    | dsimp only
    | split

theorem execSignalBridgeRelease_keeps {b0 s : State} (id : Nat) (hp : [.agenda, .regs, .freeCtr, .detected, .stp, .syn, .runners, .tx] ⊆ K) (hK : Keeps K b0 s) : KeepsO K b0 (execSignalBridgeRelease id s) := by
  unfold execSignalBridgeRelease
  try dsimp only
  repeat' first
    | with_reducible assumption
    | (with_reducible refine List.Subset.trans ?_ hp; decide)
    | with_reducible apply KeepsO.next
    | with_reducible apply State.later_keeps
    | with_reducible apply State.travel_keeps
    | with_reducible refine Keeps.ofEq (by with_reducible assumption) ?_
    | with_reducible apply Keeps.ite
    | with_reducible apply KeepsO.ite
    | exact fun _ hu => hu
    | dsimp only
    | split

theorem State.addCtr_keeps {b0 s : State} (k inc : Nat) (hp : [.agenda, .regs, .syn, .pwr] ⊆ K) (hK : Keeps K b0 s) : Keeps K b0 (State.addCtr s k inc) := by
  unfold State.addCtr
  try dsimp only
  repeat' first
    | with_reducible assumption
    | (with_reducible refine List.Subset.trans ?_ hp; decide)
    | with_reducible apply State.later_keeps
    | with_reducible apply State.setCtr_keeps
    | with_reducible apply State.compareAll_keeps
    | with_reducible refine Keeps.ofEq (by with_reducible assumption) ?_
    | with_reducible apply Keeps.ite
    | dsimp only
    | split
    | with_reducible apply Keeps.set_syn

theorem State.applySig_keeps {b0 s : State} (g : Sig) (hp : [.agenda, .regs, .detected, .stp, .syn, .runners, .pwr] ⊆ K) (hK : Keeps K b0 s) : Keeps K b0 (State.applySig s g) := by
  unfold State.applySig
  try dsimp only
  repeat' first
    | with_reducible assumption
    | (with_reducible refine List.Subset.trans ?_ hp; decide)
    | with_reducible apply State.put_keeps
    | with_reducible apply State.inc_keeps
    | with_reducible apply State.edgeOutcome_keeps
    | with_reducible apply State.sigRefuse_keeps
    | with_reducible apply State.dropSig_keeps
    | with_reducible apply State.addCtr_keeps
    | with_reducible refine Keeps.ofEq (by with_reducible assumption) ?_
    | with_reducible apply Keeps.ite
    | exact fun _ hu => hu
    | dsimp only
    | split

theorem State.awayOver_keeps {b0 s : State} (g : Sig) (hp : [.regs, .freeCtr, .syn, .runners] ⊆ K) (hK : Keeps K b0 s) : Keeps K b0 (State.awayOver s g) := by
  unfold State.awayOver
  try dsimp only
  repeat' first
    | with_reducible assumption
    | (with_reducible refine List.Subset.trans ?_ hp; decide)
    | with_reducible apply State.useFree_keeps
    | with_reducible apply State.sigReport_keeps
    | with_reducible apply State.dropSig_keeps
    | with_reducible refine Keeps.ofEq (by with_reducible assumption) ?_
    | with_reducible apply Keeps.ite

theorem execSignalApply_keeps {b0 s : State} (id : Nat) (hp : [.agenda, .regs, .freeCtr, .detected, .stp, .syn, .runners, .pwr] ⊆ K) (hK : Keeps K b0 s) : KeepsO K b0 (execSignalApply id s) := by
  unfold execSignalApply
  try dsimp only
  repeat' first
    | with_reducible assumption
    | (with_reducible refine List.Subset.trans ?_ hp; decide)
    | with_reducible apply KeepsO.next
    | with_reducible apply State.later_keeps
    | with_reducible apply State.useCap_keeps
    | with_reducible apply State.applySig_keeps
    | with_reducible apply State.awayOver_keeps
    | with_reducible refine Keeps.ofEq (by with_reducible assumption) ?_
    | with_reducible apply Keeps.ite
    | with_reducible apply KeepsO.ite
    | exact fun _ hu => hu
    | dsimp only
    | split

theorem execShadowUpdate_keeps {b0 s : State} (g : Fin 256) (hp : [.agenda, .regs, .syn, .pwr] ⊆ K) (hK : Keeps K b0 s) : KeepsO K b0 (execShadowUpdate g s) := by
  unfold execShadowUpdate
  try dsimp only
  repeat' first
    | with_reducible assumption
    | (with_reducible refine List.Subset.trans ?_ hp; decide)
    | with_reducible apply KeepsO.next
    | with_reducible apply State.later_keeps
    | with_reducible apply State.setShadows_keeps
    | with_reducible apply State.compareAll_keeps
    | with_reducible refine Keeps.ofEq (by with_reducible assumption) ?_
    | with_reducible apply Keeps.ite
    | (with_reducible refine Keeps.foldl ?_ (fun _ _ _ => ?_) <;> try dsimp only)
    | with_reducible apply KeepsO.ite
    | dsimp only
    | split
    | with_reducible apply Keeps.set_syn

theorem State.synResp_keeps {b0 s : State} (cab out : Nat) (r : Resp) (hp : [.outs] ⊆ K) (hK : Keeps K b0 s) : Keeps K b0 (State.synResp s cab out r) := by
  unfold State.synResp
  try dsimp only
  repeat' first
    | with_reducible assumption
    | with_reducible apply State.present!_keeps

theorem State.issueSig_keeps {b0 s : State} (src : SigSrc) (ctx : Option Nat) (cn inc : Nat) (drain : List Nat) (held : Bool) (step : Option Nat) (hp : [.agenda, .syn] ⊆ K) (hK : Keeps K b0 s) : Keeps K b0 (State.issueSig s src ctx cn inc drain held step) := by
  unfold State.issueSig
  try dsimp only
  repeat' first
    | with_reducible assumption
    | (with_reducible refine List.Subset.trans ?_ hp; decide)
    | with_reducible apply State.later_keeps
    | with_reducible apply step_keeps
    | with_reducible refine Keeps.ofEq (by with_reducible assumption) ?_
    | with_reducible apply Keeps.ite
    | exact fun _ hu => hu
    | dsimp only
    | split
    | with_reducible apply Keeps.set_syn

theorem execEngineSignal_keeps {b0 s : State} (cab : Cab) (cn : BitVec 19) (inc : BitVec 16) (drain : BitVec 3) (hp : [.agenda, .regs, .detected, .outs, .stp, .syn, .runners] ⊆ K) (hK : Keeps K b0 s) : KeepsO K b0 (execEngineSignal cab cn inc drain s) := by
  unfold execEngineSignal
  try dsimp only
  repeat' first
    | with_reducible assumption
    | (with_reducible refine List.Subset.trans ?_ hp; decide)
    | with_reducible apply KeepsO.next
    | with_reducible apply State.put_keeps
    | with_reducible apply State.frzIssue_keeps
    | with_reducible apply State.sigRefuse_keeps
    | with_reducible apply State.synResp_keeps
    | with_reducible apply State.issueSig_keeps
    | with_reducible refine Keeps.ofEq (by with_reducible assumption) ?_
    | with_reducible apply Keeps.ite
    | with_reducible apply KeepsO.ite
    | exact fun _ hu => hu
    | dsimp only
    | split

theorem State.waitRefuse_keeps {b0 s : State} (cab sel req : Nat) (ctx : Option Nat) (kind cause : Nat) (hp : [.regs, .detected] ⊆ K) (hK : Keeps K b0 s) : Keeps K b0 (State.waitRefuse s cab sel req ctx kind cause) := by
  unfold State.waitRefuse
  try dsimp only
  repeat' first
    | with_reducible assumption
    | (with_reducible refine List.Subset.trans ?_ hp; decide)
    | with_reducible apply State.put_keeps
    | with_reducible apply State.synErr_keeps
    | with_reducible refine Keeps.ofEq (by with_reducible assumption) ?_
    | with_reducible apply Keeps.ite

theorem execWaitRegister_keeps {b0 s : State} (cab : Cab) (id : Fin 16) (ctr : BitVec 9) (exp : W48) (hp : [.agenda, .regs, .detected, .outs, .stp, .syn, .runners] ⊆ K) (hK : Keeps K b0 s) : KeepsO K b0 (execWaitRegister cab id ctr exp s) := by
  unfold execWaitRegister
  try dsimp only
  repeat' first
    | with_reducible assumption
    | (with_reducible refine List.Subset.trans ?_ hp; decide)
    | with_reducible apply KeepsO.next
    | with_reducible apply State.ctxFault?_keeps
    | with_reducible apply State.frzIssue_keeps
    | with_reducible apply State.registerWtr_keeps
    | with_reducible apply State.synResp_keeps
    | with_reducible apply State.waitRefuse_keeps
    | with_reducible refine Keeps.ofEq (by with_reducible assumption) ?_
    | with_reducible apply Keeps.ite
    | with_reducible apply KeepsO.ite
    | exact fun _ hu => hu
    | dsimp only
    | split

theorem execWaitCancel_keeps {b0 s : State} (cab : Cab) (id : Fin 16) (hp : [.agenda, .regs, .detected, .outs, .stp, .syn, .runners] ⊆ K) (hK : Keeps K b0 s) : KeepsO K b0 (execWaitCancel cab id s) := by
  unfold execWaitCancel
  try dsimp only
  repeat' first
    | with_reducible assumption
    | (with_reducible refine List.Subset.trans ?_ hp; decide)
    | with_reducible apply KeepsO.next
    | with_reducible apply State.ctxFault?_keeps
    | with_reducible apply State.frzIssue_keeps
    | with_reducible apply State.cancelWtr_keeps
    | with_reducible apply State.synResp_keeps
    | with_reducible apply State.waitRefuse_keeps
    | with_reducible refine Keeps.ofEq (by with_reducible assumption) ?_
    | with_reducible apply Keeps.ite

theorem State.unapply_keeps {b0 s : State} (k : Nat) (hp : [.regs, .syn] ⊆ K) (hK : Keeps K b0 s) : Keeps K b0 (State.unapply s k) := by
  unfold State.unapply
  try dsimp only
  repeat' first
    | with_reducible assumption
    | (with_reducible refine List.Subset.trans ?_ hp; decide)
    | with_reducible apply State.setCtr_keeps
    | with_reducible refine Keeps.ofEq (by with_reducible assumption) ?_
    | with_reducible apply Keeps.ite
    | dsimp only
    | split
    | with_reducible apply Keeps.set_syn

theorem State.unbindCtr_keeps {b0 s : State} (sel : CtrSel) (hp : [.agenda, .regs, .syn] ⊆ K) (hK : Keeps K b0 s) : Keeps K b0 (State.unbindCtr s sel) := by
  unfold State.unbindCtr
  try dsimp only
  repeat' first
    | with_reducible assumption
    | (with_reducible refine List.Subset.trans ?_ hp; decide)
    | with_reducible apply State.puts_keeps
    | with_reducible apply State.later_keeps
    | with_reducible apply State.cancelWtr_keeps
    | with_reducible apply State.dropSigs_keeps
    | with_reducible apply State.unapply_keeps
    | with_reducible refine Keeps.ofEq (by with_reducible assumption) ?_
    | with_reducible apply Keeps.ite
    | (with_reducible refine Keeps.foldl ?_ (fun _ _ _ => ?_) <;> try dsimp only)

theorem State.bindCtr_keeps {b0 s : State} (k : Nat) (hp : [.regs, .syn] ⊆ K) (hK : Keeps K b0 s) : Keeps K b0 (State.bindCtr s k) := by
  unfold State.bindCtr
  try dsimp only
  repeat' first
    | with_reducible assumption
    | (with_reducible refine List.Subset.trans ?_ hp; decide)
    | with_reducible apply State.put_keeps
    | with_reducible apply State.puts_keeps
    | with_reducible apply State.setCtr_keeps
    | with_reducible apply State.setShadows_keeps
    | with_reducible apply State.lowerWire_keeps
    | with_reducible refine Keeps.ofEq (by with_reducible assumption) ?_
    | with_reducible apply Keeps.ite
    | (with_reducible refine Keeps.foldl ?_ (fun _ _ _ => ?_) <;> try dsimp only)
    | dsimp only
    | split
    | with_reducible apply Keeps.set_syn

theorem State.ctrFields_keeps {b0 s : State} (k : Nat) (v : W32) (hp : [.agenda, .regs] ⊆ K) (hK : Keeps K b0 s) : Keeps K b0 (State.ctrFields s k v) := by
  unfold State.ctrFields
  try dsimp only
  repeat' first
    | with_reducible assumption
    | (with_reducible refine List.Subset.trans ?_ hp; decide)
    | with_reducible apply State.puts_keeps
    | with_reducible apply State.arm_keeps
    | with_reducible refine Keeps.ofEq (by with_reducible assumption) ?_
    | with_reducible apply Keeps.ite
    | (with_reducible refine Keeps.foldl ?_ (fun _ _ _ => ?_) <;> try dsimp only)

theorem State.ctrWrite_keeps {b0 s : State} (m : Master) (sel : CtrSel) (v : W32) (hp : [.agenda, .regs, .detected, .outs, .syn, .cmx, .counted] ⊆ K) (hK : Keeps K b0 s) : Keeps K b0 (State.ctrWrite s m sel v) := by
  unfold State.ctrWrite
  try dsimp only
  repeat' first
    | with_reducible assumption
    | (with_reducible refine List.Subset.trans ?_ hp; decide)
    | with_reducible apply State.gateAt_keeps
    | with_reducible apply State.unbindCtr_keeps
    | with_reducible apply State.bindCtr_keeps
    | with_reducible apply State.ctrFields_keeps
    | with_reducible refine Keeps.ofEq (by with_reducible assumption) ?_
    | with_reducible apply Keeps.ite
    | (intro _ _ <;> try dsimp only)

theorem execCounterBind_keeps {b0 s : State} (m : Master) (sel : CtrSel) (v : W32) (hp : [.agenda, .regs, .detected, .outs, .syn, .cmx, .counted] ⊆ K) (hK : Keeps K b0 s) : KeepsO K b0 (execCounterBind m sel v s) := by
  unfold execCounterBind
  try dsimp only
  repeat' first
    | with_reducible assumption
    | (with_reducible refine List.Subset.trans ?_ hp; decide)
    | with_reducible apply KeepsO.next
    | with_reducible apply State.row_keeps
    | with_reducible apply State.ctrWrite_keeps
    | with_reducible refine Keeps.ofEq (by with_reducible assumption) ?_
    | with_reducible apply Keeps.ite
    | with_reducible apply KeepsO.ite
    | (intro _ _ <;> try dsimp only)

theorem execCounterUnbind_keeps {b0 s : State} (m : Master) (sel : CtrSel) (v : W32) (hp : [.agenda, .regs, .detected, .outs, .syn, .cmx, .counted] ⊆ K) (hK : Keeps K b0 s) : KeepsO K b0 (execCounterUnbind m sel v s) := by
  unfold execCounterUnbind
  try dsimp only
  repeat' first
    | with_reducible assumption
    | (with_reducible refine List.Subset.trans ?_ hp; decide)
    | with_reducible apply KeepsO.next
    | with_reducible apply State.row_keeps
    | with_reducible apply State.ctrWrite_keeps
    | with_reducible refine Keeps.ofEq (by with_reducible assumption) ?_
    | with_reducible apply Keeps.ite
    | with_reducible apply KeepsO.ite
    | (intro _ _ <;> try dsimp only)

theorem execWakeEnWrite_keeps {b0 s : State} (m : Master) (sel : CtrSel) (v : W32) (hp : [.agenda, .regs, .detected, .outs, .syn, .cmx, .counted] ⊆ K) (hK : Keeps K b0 s) : KeepsO K b0 (execWakeEnWrite m sel v s) := by
  unfold execWakeEnWrite
  try dsimp only
  repeat' first
    | with_reducible assumption
    | (with_reducible refine List.Subset.trans ?_ hp; decide)
    | with_reducible apply KeepsO.next
    | with_reducible apply State.row_keeps
    | with_reducible apply State.ctrWrite_keeps
    | with_reducible refine Keeps.ofEq (by with_reducible assumption) ?_
    | with_reducible apply Keeps.ite
    | with_reducible apply KeepsO.ite
    | (intro _ _ <;> try dsimp only)

theorem execQuietEnd_keeps {b0 s : State} (sel : CtrSel) (hp : [.regs] ⊆ K) (hK : Keeps K b0 s) : KeepsO K b0 (execQuietEnd sel s) := by
  unfold execQuietEnd
  try dsimp only
  repeat' first
    | with_reducible assumption
    | with_reducible apply KeepsO.next
    | with_reducible apply State.put_keeps
    | with_reducible refine Keeps.ofEq (by with_reducible assumption) ?_
    | with_reducible apply Keeps.ite

theorem execSynSignalWrite_keeps {b0 s : State} (m : Master) (cab : Cab) (v : W32) (hp : [.agenda, .regs, .detected, .outs, .stp, .syn, .runners, .cmx, .counted] ⊆ K) (hK : Keeps K b0 s) : KeepsO K b0 (execSynSignalWrite m cab v s) := by
  unfold execSynSignalWrite
  try dsimp only
  repeat' first
    | with_reducible assumption
    | (with_reducible refine List.Subset.trans ?_ hp; decide)
    | with_reducible apply KeepsO.next
    | with_reducible apply State.gateAt_keeps
    | with_reducible apply State.row_keeps
    | with_reducible apply State.sigRefuse_keeps
    | with_reducible apply State.issueSig_keeps
    | with_reducible refine Keeps.ofEq (by with_reducible assumption) ?_
    | with_reducible apply Keeps.ite
    | with_reducible apply KeepsO.ite
    | exact fun _ hu => hu
    | (intro _ _ <;> try dsimp only)

theorem State.closePath_keeps {b0 s : State} (cab : Nat) (hp : [.regs] ⊆ K) (hK : Keeps K b0 s) : Keeps K b0 (State.closePath s cab) := by
  unfold State.closePath
  try dsimp only
  repeat' first
    | with_reducible assumption
    | with_reducible apply State.put_keeps

theorem execSetKeyWrite_keeps {b0 s : State} (m : Master) (cab : Cab) (v : W32) (hp : [.agenda, .regs, .detected, .outs, .syn, .cmx, .counted] ⊆ K) (hK : Keeps K b0 s) : KeepsO K b0 (execSetKeyWrite m cab v s) := by
  unfold execSetKeyWrite
  try dsimp only
  repeat' first
    | with_reducible assumption
    | (with_reducible refine List.Subset.trans ?_ hp; decide)
    | with_reducible apply KeepsO.next
    | with_reducible apply State.put_keeps
    | with_reducible apply State.at'_keeps
    | with_reducible apply State.gateAt_keeps
    | with_reducible apply State.row_keeps
    | with_reducible apply State.closePath_keeps
    | with_reducible refine Keeps.ofEq (by with_reducible assumption) ?_
    | with_reducible apply Keeps.ite
    | with_reducible apply KeepsO.ite
    | (intro _ _ <;> try dsimp only)
    | dsimp only
    | split
    | with_reducible apply Keeps.set_syn

theorem execSetPathTimeout_keeps {b0 s : State} (cab : Cab) (hp : [.regs] ⊆ K) (hK : Keeps K b0 s) : KeepsO K b0 (execSetPathTimeout cab s) := by
  unfold execSetPathTimeout
  try dsimp only
  repeat' first
    | with_reducible assumption
    | with_reducible apply KeepsO.next
    | with_reducible apply State.closePath_keeps
    | with_reducible refine Keeps.ofEq (by with_reducible assumption) ?_
    | with_reducible apply Keeps.ite

theorem State.compareByHand_keeps {b0 s : State} (k : Nat) (hp : [.agenda, .syn] ⊆ K) (hK : Keeps K b0 s) : Keeps K b0 (State.compareByHand s k) := by
  unfold State.compareByHand
  try dsimp only
  repeat' first
    | with_reducible assumption
    | (with_reducible refine List.Subset.trans ?_ hp; decide)
    | with_reducible apply State.later_keeps
    | with_reducible refine Keeps.ofEq (by with_reducible assumption) ?_
    | with_reducible apply Keeps.ite
    | (with_reducible refine Keeps.foldl ?_ (fun _ _ _ => ?_) <;> try dsimp only)
    | dsimp only
    | split
    | with_reducible apply Keeps.set_syn

theorem State.setByHand_keeps {b0 s : State} (k v : Nat) (hp : [.agenda, .regs, .syn] ⊆ K) (hK : Keeps K b0 s) : Keeps K b0 (State.setByHand s k v) := by
  unfold State.setByHand
  try dsimp only
  repeat' first
    | with_reducible assumption
    | (with_reducible refine List.Subset.trans ?_ hp; decide)
    | with_reducible apply State.setCtr_keeps
    | with_reducible apply State.setShadows_keeps
    | with_reducible apply State.compareByHand_keeps
    | with_reducible refine Keeps.ofEq (by with_reducible assumption) ?_
    | with_reducible apply Keeps.ite
    | dsimp only
    | split
    | with_reducible apply Keeps.set_syn

theorem State.takeLo_keeps {b0 s : State} (m : Master) (key : Nat) (hp : [.loHeld] ⊆ K) (hK : Keeps K b0 s) : Keeps K b0 (State.takeLo s m key).1 := by
  unfold State.takeLo
  try dsimp only
  repeat' first
    | with_reducible assumption
    | with_reducible refine Keeps.ofEq (by with_reducible assumption) ?_
    | with_reducible apply Keeps.ite
    | dsimp only
    | split
    | with_reducible apply Keeps.set_loHeld

theorem execCounterSet_keeps {b0 s : State} (m : Master) (cab : Cab) (v : W32) (hp : [.agenda, .regs, .detected, .loHeld, .outs, .syn, .cmx, .counted] ⊆ K) (hK : Keeps K b0 s) : KeepsO K b0 (execCounterSet m cab v s) := by
  unfold execCounterSet
  try dsimp only
  repeat' first
    | with_reducible assumption
    | (with_reducible refine List.Subset.trans ?_ hp; decide)
    | with_reducible apply KeepsO.next
    | with_reducible apply State.setReg_keeps
    | with_reducible apply State.put_keeps
    | with_reducible apply State.inc_keeps
    | with_reducible apply State.gateAt_keeps
    | with_reducible apply State.row_keeps
    | with_reducible apply State.closePath_keeps
    | with_reducible apply State.setByHand_keeps
    | with_reducible apply State.takeLo_keeps
    | with_reducible refine Keeps.ofEq (by with_reducible assumption) ?_
    | with_reducible apply Keeps.ite
    | with_reducible apply KeepsO.ite
    | (intro _ _ <;> try dsimp only)
    | dsimp only
    | split

theorem State.dumpCtl_keeps {b0 s : State} (m : Master) (via : Nat) (v : W32) (hp : [.agenda, .regs, .freeCtr, .detected, .syn] ⊆ K) (hK : Keeps K b0 s) : Keeps K b0 (State.dumpCtl s m via v) := by
  unfold State.dumpCtl
  try dsimp only
  repeat' first
    | with_reducible assumption
    | (with_reducible refine List.Subset.trans ?_ hp; decide)
    | with_reducible apply State.put_keeps
    | with_reducible apply State.puts_keeps
    | with_reducible apply State.putb_keeps
    | with_reducible apply State.at'_keeps
    | with_reducible apply State.useFree_keeps
    | with_reducible apply State.gate_keeps
    | with_reducible refine Keeps.ofEq (by with_reducible assumption) ?_
    | with_reducible apply Keeps.ite
    | (intro _ _ <;> try dsimp only)
    | dsimp only
    | split
    | with_reducible apply Keeps.set_syn

theorem execDumpGo_keeps {b0 s : State} (m : Master) (v : W32) (hp : [.agenda, .regs, .freeCtr, .detected, .syn] ⊆ K) (hK : Keeps K b0 s) : KeepsO K b0 (execDumpGo m v s) := by
  unfold execDumpGo
  try dsimp only
  repeat' first
    | with_reducible assumption
    | (with_reducible refine List.Subset.trans ?_ hp; decide)
    | with_reducible apply KeepsO.next
    | with_reducible apply State.row_keeps
    | with_reducible apply State.dumpCtl_keeps
    | with_reducible refine Keeps.ofEq (by with_reducible assumption) ?_
    | with_reducible apply Keeps.ite
    | with_reducible apply KeepsO.ite
    | (intro _ _ <;> try dsimp only)

theorem execDumpDone_keeps {b0 s : State} (hp : [.agenda, .regs, .mem, .freeCtr, .syn] ⊆ K) (hK : Keeps K b0 s) : KeepsO K b0 (execDumpDone s) := by
  unfold execDumpDone
  try dsimp only
  repeat' first
    | with_reducible assumption
    | (with_reducible refine List.Subset.trans ?_ hp; decide)
    | with_reducible apply KeepsO.next
    | with_reducible apply State.put_keeps
    | with_reducible apply State.puts_keeps
    | with_reducible apply State.at'_keeps
    | with_reducible apply State.useFree_keeps
    | with_reducible apply State.setCells_keeps
    | with_reducible refine Keeps.ofEq (by with_reducible assumption) ?_
    | with_reducible apply Keeps.ite
    | with_reducible apply KeepsO.ite
    | dsimp only
    | split
    | with_reducible apply Keeps.set_syn
end Sys2Proof.Machine
end

