-- ==== Sys2Proof/Laws/KeepsFifo.lean ====
section
/-! SUPPORT. What the operations and commands of Machine/Fifo.lean leave alone: one lemma each, in the terms of `Keeps`. The list each
asks for holds the parts it may change. -/
namespace Sys2Proof.Machine
variable {K : List Part}
theorem State.setFifo_keeps {b0 s : State} (cab f : Nat) (x : Fifo) (hp : [.fifos] ⊆ K) (hK : Keeps K b0 s) : Keeps K b0 (State.setFifo s cab f x) := by
  unfold State.setFifo
  try dsimp only
  repeat' first
    | with_reducible assumption
    | with_reducible apply State.idle_keeps
    | with_reducible refine Keeps.ofEq (by with_reducible assumption) ?_
    | with_reducible apply Keeps.ite
    | dsimp only
    | split
    | with_reducible apply Keeps.set_fifos

theorem State.putFifo_keeps {b0 s : State} (cab f : Nat) (x : Fifo) (hp : [.agenda, .fifos] ⊆ K) (hK : Keeps K b0 s) : Keeps K b0 (State.putFifo s cab f x) := by
  unfold State.putFifo
  try dsimp only
  repeat' first
    | with_reducible assumption
    | (with_reducible refine List.Subset.trans ?_ hp; decide)
    | with_reducible apply State.arm_keeps
    | with_reducible apply State.setFifo_keeps

theorem State.handMoved_keeps {b0 s : State} (cab f : Nat) (hp : [.runners] ⊆ K) (hK : Keeps K b0 s) : Keeps K b0 (State.handMoved s cab f) := by
  unfold State.handMoved
  try dsimp only
  repeat' first
    | with_reducible assumption
    | with_reducible apply State.setRunner_keeps
    | with_reducible refine Keeps.ofEq (by with_reducible assumption) ?_
    | with_reducible apply Keeps.ite
    | (with_reducible refine Keeps.foldl ?_ (fun _ _ _ => ?_) <;> try dsimp only)

theorem execFifoItemFall_keeps {b0 s : State} (cab : Cab) (f : Fin 8) (hp : [.agenda, .fifos, .runners] ⊆ K) (hK : Keeps K b0 s) : KeepsO K b0 (execFifoItemFall cab f s) := by
  unfold execFifoItemFall
  try dsimp only
  repeat' first
    | with_reducible assumption
    | (with_reducible refine List.Subset.trans ?_ hp; decide)
    | with_reducible apply KeepsO.next
    | with_reducible apply State.arm_keeps
    | with_reducible apply State.setFifo_keeps
    | with_reducible apply State.handMoved_keeps
    | with_reducible refine Keeps.ofEq (by with_reducible assumption) ?_
    | with_reducible apply Keeps.ite
    | with_reducible apply KeepsO.ite

theorem State.notice_keeps {b0 s : State} (cab f : Nat) (hp : [.agenda, .regs, .events, .fifos] ⊆ K) (hK : Keeps K b0 s) : Keeps K b0 (State.notice s cab f) := by
  unfold State.notice
  try dsimp only
  repeat' first
    | with_reducible assumption
    | (with_reducible refine List.Subset.trans ?_ hp; decide)
    | with_reducible apply State.put_keeps
    | with_reducible apply State.inc_keeps
    | with_reducible apply State.arm_keeps
    | with_reducible apply State.event_keeps
    | with_reducible apply State.setFifo_keeps
    | with_reducible refine Keeps.ofEq (by with_reducible assumption) ?_
    | with_reducible apply Keeps.ite
    | dsimp only
    | split

theorem execFifoNoticeSend_keeps {b0 s : State} (cab : Cab) (f : Fin 8) (hp : [.agenda, .regs, .freeCtr, .detected, .stp, .syn, .fifos, .runners, .tx] ⊆ K) (hK : Keeps K b0 s) : KeepsO K b0 (execFifoNoticeSend cab f s) := by
  unfold execFifoNoticeSend
  try dsimp only
  repeat' first
    | with_reducible assumption
    | (with_reducible refine List.Subset.trans ?_ hp; decide)
    | with_reducible apply KeepsO.next
    | with_reducible apply State.put_keeps
    | with_reducible apply State.arm_keeps
    | with_reducible apply State.sigRefuse_keeps
    | with_reducible apply State.useCap_keeps
    | with_reducible apply State.travel_keeps
    | with_reducible apply State.setFifo_keeps
    | with_reducible refine Keeps.ofEq (by with_reducible assumption) ?_
    | with_reducible apply Keeps.ite
    | with_reducible apply KeepsO.ite
    | exact fun _ hu => hu
    | dsimp only
    | split
    | with_reducible apply Keeps.set_syn

theorem State.fifoPush_keeps {b0 s : State} (cab f : Nat) (i : Item) (hp : [.agenda, .regs, .events, .fifos, .runners] ⊆ K) (hK : Keeps K b0 s) : Keeps K b0 (State.fifoPush s cab f i) := by
  unfold State.fifoPush
  try dsimp only
  repeat' first
    | with_reducible assumption
    | (with_reducible refine List.Subset.trans ?_ hp; decide)
    | with_reducible apply State.inc_keeps
    | with_reducible apply State.gate_keeps
    | with_reducible apply State.setFifo_keeps
    | with_reducible apply State.putFifo_keeps
    | with_reducible apply State.handMoved_keeps
    | with_reducible apply State.notice_keeps
    | with_reducible refine Keeps.ofEq (by with_reducible assumption) ?_
    | with_reducible apply Keeps.ite

theorem State.fifoDecode_keeps {b0 s : State} (cab f : Nat) (i : Item) (hp : [.regs, .freeCtr, .detected] ⊆ K) (hK : Keeps K b0 s) : Keeps K b0 (State.fifoDecode s cab f i).1 := by
  unfold State.fifoDecode
  try dsimp only
  repeat' first
    | with_reducible assumption
    | (with_reducible refine List.Subset.trans ?_ hp; decide)
    | with_reducible apply State.inc_keeps
    | with_reducible apply State.useFree_keeps
    | with_reducible apply State.err_keeps
    | with_reducible refine Keeps.ofEq (by with_reducible assumption) ?_
    | with_reducible apply Keeps.ite
    | (with_reducible refine Keeps.foldlP ?_ (fun _ _ _ => ?_) <;> try dsimp only)
    | dsimp only
    | split

theorem State.fifoPop_keeps {b0 s : State} (cab f : Nat) (i : Item) (hp : [.agenda, .regs, .freeCtr, .detected, .events, .fifos, .runners] ⊆ K) (hK : Keeps K b0 s) : Keeps K b0 (State.fifoPop s cab f i).1 := by
  unfold State.fifoPop
  try dsimp only
  repeat' first
    | with_reducible assumption
    | (with_reducible refine List.Subset.trans ?_ hp; decide)
    | with_reducible apply State.inc_keeps
    | with_reducible apply State.gate_keeps
    | with_reducible apply State.putFifo_keeps
    | with_reducible apply State.handMoved_keeps
    | with_reducible apply State.notice_keeps
    | with_reducible apply State.fifoDecode_keeps
    | with_reducible refine Keeps.ofEq (by with_reducible assumption) ?_
    | with_reducible apply Keeps.ite
    | dsimp only
    | split

theorem State.fifoDrop_keeps {b0 s : State} (cab f : Nat) (hp : [.agenda, .regs, .events, .fifos] ⊆ K) (hK : Keeps K b0 s) : Keeps K b0 (State.fifoDrop s cab f) := by
  unfold State.fifoDrop
  try dsimp only
  repeat' first
    | with_reducible assumption
    | (with_reducible refine List.Subset.trans ?_ hp; decide)
    | with_reducible apply State.incBy_keeps
    | with_reducible apply State.setFifo_keeps
    | with_reducible apply State.putFifo_keeps
    | with_reducible apply State.notice_keeps
    | with_reducible refine Keeps.ofEq (by with_reducible assumption) ?_
    | with_reducible apply Keeps.ite

theorem State.fifoFlush_keeps {b0 s : State} (cab f : Nat) (hp : [.fifos] ⊆ K) (hK : Keeps K b0 s) : Keeps K b0 (State.fifoFlush s cab f) := by
  unfold State.fifoFlush
  try dsimp only
  repeat' first
    | with_reducible assumption
    | with_reducible apply State.setFifo_keeps

theorem State.resetCfg_keeps {b0 s : State} (cab f : Nat) (hp : [.regs] ⊆ K) (hK : Keeps K b0 s) : Keeps K b0 (State.resetCfg s cab f) := by
  unfold State.resetCfg
  try dsimp only
  repeat' first
    | with_reducible assumption
    | with_reducible apply State.setReg_keeps

theorem State.handTake_keeps {b0 s : State} (cab f w ctx : Nat) (hp : [.regs, .fifos] ⊆ K) (hK : Keeps K b0 s) : Keeps K b0 (State.handTake s cab f w ctx) := by
  unfold State.handTake
  try dsimp only
  repeat' first
    | with_reducible assumption
    | (with_reducible refine List.Subset.trans ?_ hp; decide)
    | with_reducible apply State.put_keeps
    | with_reducible apply State.puts_keeps
    | with_reducible apply State.fifoFlush_keeps

theorem State.handFree_keeps {b0 s : State} (cab f : Nat) (hp : [.regs, .fifos] ⊆ K) (hK : Keeps K b0 s) : Keeps K b0 (State.handFree s cab f) := by
  unfold State.handFree
  try dsimp only
  repeat' first
    | with_reducible assumption
    | (with_reducible refine List.Subset.trans ?_ hp; decide)
    | with_reducible apply State.put_keeps
    | with_reducible apply State.fifoFlush_keeps
    | with_reducible apply State.resetCfg_keeps

theorem State.hfpOut_keeps {b0 s : State} (cab : Nat) (dat : List W64) (sb : Nat) (r : Resp) (hp : [.outs] ⊆ K) (hK : Keeps K b0 s) : Keeps K b0 (State.hfpOut s cab dat sb r) := by
  unfold State.hfpOut
  try dsimp only
  repeat' first
    | with_reducible assumption
    | with_reducible apply State.presentIf_keeps

theorem State.holdPops_keeps {b0 s : State} (hp : [.outs] ⊆ K) (hK : Keeps K b0 s) : Keeps K b0 (State.holdPops s) := by
  unfold State.holdPops
  try dsimp only
  repeat' first
    | with_reducible assumption
    | with_reducible apply State.at'_keeps
    | with_reducible refine Keeps.ofEq (by with_reducible assumption) ?_
    | with_reducible apply Keeps.ite
    | dsimp only
    | split
    | with_reducible apply Keeps.set_outs

theorem State.setHfp_keeps {b0 s : State} (cab : Nat) (h : HfpIn) (hp : [.hfp] ⊆ K) (hK : Keeps K b0 s) : Keeps K b0 (State.setHfp s cab h) := by
  unfold State.setHfp
  try dsimp only
  repeat' first
    | with_reducible assumption
    | with_reducible apply State.idle_keeps
    | with_reducible refine Keeps.ofEq (by with_reducible assumption) ?_
    | with_reducible apply Keeps.ite
    | dsimp only
    | split
    | with_reducible apply Keeps.set_hfp

theorem State.hfpNext_keeps {b0 s : State} (cab n : Nat) (hp : [.agenda] ⊆ K) (hK : Keeps K b0 s) : Keeps K b0 (State.hfpNext s cab n) := by
  unfold State.hfpNext
  try dsimp only
  repeat' first
    | with_reducible assumption
    | with_reducible apply State.arm_keeps
    | with_reducible refine Keeps.ofEq (by with_reducible assumption) ?_
    | with_reducible apply Keeps.ite
    | dsimp only
    | split

theorem State.hfpTake_keeps {b0 s : State} (cab : Cab) (f : Nat) (i : Item) (perr : Bool) (hp : [.agenda, .regs, .detected, .events, .stp, .fifos, .runners, .tx] ⊆ K) (hK : Keeps K b0 s) : Keeps K b0 (State.hfpTake s cab f i perr) := by
  unfold State.hfpTake
  try dsimp only
  repeat' first
    | with_reducible assumption
    | (with_reducible refine List.Subset.trans ?_ hp; decide)
    | with_reducible apply State.parity_keeps
    | with_reducible apply State.fifoPush_keeps
    | with_reducible refine Keeps.ofEq (by with_reducible assumption) ?_
    | with_reducible apply Keeps.ite

theorem State.hfpPopNow_keeps {b0 s : State} (cab : Cab) (f : Nat) (perr : Bool) (hp : [.agenda, .regs, .freeCtr, .detected, .events, .outs, .stp, .fifos, .runners, .tx] ⊆ K) (hK : Keeps K b0 s) : Keeps K b0 (State.hfpPopNow s cab f perr) := by
  unfold State.hfpPopNow
  try dsimp only
  repeat' first
    | with_reducible assumption
    | (with_reducible refine List.Subset.trans ?_ hp; decide)
    | with_reducible apply State.parity_keeps
    | with_reducible apply State.setFifo_keeps
    | with_reducible apply State.fifoPop_keeps
    | with_reducible apply State.hfpOut_keeps
    | with_reducible refine Keeps.ofEq (by with_reducible assumption) ?_
    | with_reducible apply Keeps.ite
    | dsimp only
    | split

theorem State.hfpServe_keeps {b0 s : State} (cab : Cab) (e : Nat × Bool × Bool) (hp : [.agenda, .regs, .freeCtr, .detected, .events, .outs, .stp, .fifos, .runners, .tx] ⊆ K) (hK : Keeps K b0 s) : Keeps K b0 (State.hfpServe s cab e) := by
  unfold State.hfpServe
  try dsimp only
  repeat' first
    | with_reducible assumption
    | (with_reducible refine List.Subset.trans ?_ hp; decide)
    | with_reducible apply State.fifoDrop_keeps
    | with_reducible apply State.hfpPopNow_keeps
    | with_reducible refine Keeps.ofEq (by with_reducible assumption) ?_
    | with_reducible apply Keeps.ite

theorem State.hfpHold_keeps {b0 s : State} (cab : Cab) (e : Nat × Bool × Bool) (hp : [.hfp] ⊆ K) (hK : Keeps K b0 s) : Keeps K b0 (State.hfpHold s cab e) := by
  unfold State.hfpHold
  try dsimp only
  repeat' first
    | with_reducible assumption
    | with_reducible apply State.setHfp_keeps
    | with_reducible refine Keeps.ofEq (by with_reducible assumption) ?_
    | with_reducible apply Keeps.ite
    | dsimp only
    | split

theorem State.hfpAsk_keeps {b0 s : State} (cab : Cab) (e : Nat × Bool × Bool) (hp : [.agenda, .regs, .freeCtr, .detected, .events, .outs, .stp, .fifos, .runners, .tx, .hfp] ⊆ K) (hK : Keeps K b0 s) : Keeps K b0 (State.hfpAsk s cab e) := by
  unfold State.hfpAsk
  try dsimp only
  repeat' first
    | with_reducible assumption
    | (with_reducible refine List.Subset.trans ?_ hp; decide)
    | with_reducible apply State.later_keeps
    | with_reducible apply State.wakeDoze_keeps
    | with_reducible apply State.setHfp_keeps
    | with_reducible apply State.hfpNext_keeps
    | with_reducible apply State.hfpServe_keeps
    | with_reducible apply State.hfpHold_keeps
    | with_reducible refine Keeps.ofEq (by with_reducible assumption) ?_
    | with_reducible apply Keeps.ite
    | dsimp only
    | split

theorem execHfpPush_keeps {b0 s : State} (cab : Cab) (f : Fin 8) (data : List W64) (first last : Bool) (perr : Bool) (hp : [.agenda, .regs, .detected, .events, .stp, .fifos, .runners, .tx, .hfp] ⊆ K) (hK : Keeps K b0 s) : KeepsO K b0 (execHfpPush cab f data first last perr s) := by
  unfold execHfpPush
  try dsimp only
  repeat' first
    | with_reducible assumption
    | (with_reducible refine List.Subset.trans ?_ hp; decide)
    | with_reducible apply KeepsO.next
    | with_reducible apply State.later_keeps
    | with_reducible apply State.wakeDoze_keeps
    | with_reducible apply State.setHfp_keeps
    | with_reducible apply State.hfpTake_keeps
    | with_reducible refine Keeps.ofEq (by with_reducible assumption) ?_
    | with_reducible apply Keeps.ite

theorem execHfpPop_keeps {b0 s : State} (cab : Cab) (f : Fin 8) (perr : Bool) (hp : [.agenda, .regs, .freeCtr, .detected, .events, .outs, .stp, .fifos, .runners, .tx, .hfp] ⊆ K) (hK : Keeps K b0 s) : KeepsO K b0 (execHfpPop cab f perr s) := by
  unfold execHfpPop
  try dsimp only
  repeat' first
    | with_reducible assumption
    | with_reducible apply KeepsO.next
    | with_reducible apply State.hfpAsk_keeps
    | with_reducible refine Keeps.ofEq (by with_reducible assumption) ?_
    | with_reducible apply Keeps.ite

theorem execHfpDrop_keeps {b0 s : State} (cab : Cab) (f : Fin 8) (hp : [.agenda, .regs, .freeCtr, .detected, .events, .outs, .stp, .fifos, .runners, .tx, .hfp] ⊆ K) (hK : Keeps K b0 s) : KeepsO K b0 (execHfpDrop cab f s) := by
  unfold execHfpDrop
  try dsimp only
  repeat' first
    | with_reducible assumption
    | with_reducible apply KeepsO.next
    | with_reducible apply State.hfpAsk_keeps
    | with_reducible refine Keeps.ofEq (by with_reducible assumption) ?_
    | with_reducible apply Keeps.ite

theorem execHffFlush_keeps {b0 s : State} (m : Master) (cab : Cab) (v : W32) (hp : [.agenda, .regs, .detected, .outs, .fifos, .cmx, .counted] ⊆ K) (hK : Keeps K b0 s) : KeepsO K b0 (execHffFlush m cab v s) := by
  unfold execHffFlush
  try dsimp only
  repeat' first
    | with_reducible assumption
    | (with_reducible refine List.Subset.trans ?_ hp; decide)
    | with_reducible apply KeepsO.next
    | with_reducible apply State.later_keeps
    | with_reducible apply State.gateAt_keeps
    | with_reducible apply State.row_keeps
    | with_reducible apply State.fifoFlush_keeps
    | with_reducible refine Keeps.ofEq (by with_reducible assumption) ?_
    | with_reducible apply Keeps.ite
    | (with_reducible refine Keeps.foldl ?_ (fun _ _ _ => ?_) <;> try dsimp only)
    | with_reducible apply KeepsO.ite
    | (intro _ _ <;> try dsimp only)

theorem execHffCfgWrite_keeps {b0 s : State} (m : Master) (cab : Cab) (f : Fin 8) (v : W32) (hp : [.agenda, .regs, .detected, .outs, .fifos, .cmx, .counted] ⊆ K) (hK : Keeps K b0 s) : KeepsO K b0 (execHffCfgWrite m cab f v s) := by
  unfold execHffCfgWrite
  try dsimp only
  repeat' first
    | with_reducible assumption
    | (with_reducible refine List.Subset.trans ?_ hp; decide)
    | with_reducible apply KeepsO.next
    | with_reducible apply State.puts_keeps
    | with_reducible apply State.locked_keeps
    | with_reducible apply State.gateAt_keeps
    | with_reducible apply State.row_keeps
    | with_reducible apply State.setFifo_keeps
    | with_reducible refine Keeps.ofEq (by with_reducible assumption) ?_
    | with_reducible apply Keeps.ite
    | with_reducible apply KeepsO.ite
    | (intro _ _ <;> try dsimp only)
end Sys2Proof.Machine
end

