-- ==== Sys2Proof/Laws/KeepsRunner.lean ====
section
/-! SUPPORT. What the operations and commands of Machine/Runner.lean leave alone: one lemma each, in the terms of `Keeps`. The list each
asks for holds the parts it may change. -/
namespace Sys2Proof.Machine
variable {K : List Part}
theorem State.holdFuse_keeps {b0 s : State} (cab r : Nat) (f : Option Fuse) (hp : [.runners] ⊆ K) (hK : Keeps K b0 s) : Keeps K b0 (State.holdFuse s cab r f) := by
  unfold State.holdFuse
  try dsimp only
  repeat' first
    | with_reducible assumption
    | with_reducible apply State.setRunner_keeps

theorem State.progress_keeps {b0 s : State} (cab r : Nat) (hp : [.runners] ⊆ K) (hK : Keeps K b0 s) : Keeps K b0 (State.progress s cab r) := by
  unfold State.progress
  try dsimp only
  repeat' first
    | with_reducible assumption
    | with_reducible apply State.setRunner_keeps

theorem State.kick_keeps {b0 s : State} (cab r : Nat) (hp : [.agenda] ⊆ K) (hK : Keeps K b0 s) : Keeps K b0 (State.kick s cab r) := by
  unfold State.kick
  try dsimp only
  repeat' first
    | with_reducible assumption
    | with_reducible apply State.arm_keeps

theorem State.nextList_keeps {b0 s : State} (cab r : Nat) (hp : [.agenda, .regs, .runners] ⊆ K) (hK : Keeps K b0 s) : Keeps K b0 (State.nextList s cab r) := by
  unfold State.nextList
  try dsimp only
  repeat' first
    | with_reducible assumption
    | (with_reducible refine List.Subset.trans ?_ hp; decide)
    | with_reducible apply State.arm_keeps
    | with_reducible apply State.setRunner_keeps
    | with_reducible apply State.wakeDoze_keeps
    | with_reducible apply State.kick_keeps
    | with_reducible refine Keeps.ofEq (by with_reducible assumption) ?_
    | with_reducible apply Keeps.ite
    | dsimp only
    | split

theorem execRunnerListGo_keeps {b0 s : State} (m : Master) (cab : Cab) (r : Fin 4) (v : W32) (hp : [.agenda, .regs, .detected, .outs, .stp, .runners, .cmx, .counted] ⊆ K) (hK : Keeps K b0 s) : KeepsO K b0 (execRunnerListGo m cab r v s) := by
  unfold execRunnerListGo
  try dsimp only
  repeat' first
    | with_reducible assumption
    | (with_reducible refine List.Subset.trans ?_ hp; decide)
    | with_reducible apply KeepsO.next
    | with_reducible apply State.put_keeps
    | with_reducible apply State.puts_keeps
    | with_reducible apply State.setRunner_keeps
    | with_reducible apply State.stepListed_keeps
    | with_reducible apply State.gateAt_keeps
    | with_reducible apply State.row_keeps
    | with_reducible apply State.nextList_keeps
    | with_reducible apply step_keeps
    | with_reducible refine Keeps.ofEq (by with_reducible assumption) ?_
    | with_reducible apply Keeps.ite
    | with_reducible apply KeepsO.ite
    | (intro _ _ <;> try dsimp only)

theorem State.cancelStarts_keeps {b0 s : State} (cab r : Nat) (hp : [.agenda, .regs, .runners, .leave] ⊆ K) (hK : Keeps K b0 s) : Keeps K b0 (State.cancelStarts s cab r) := by
  unfold State.cancelStarts
  try dsimp only
  repeat' first
    | with_reducible assumption
    | (with_reducible refine List.Subset.trans ?_ hp; decide)
    | with_reducible apply State.setRunner_keeps
    | with_reducible apply State.leaveDrop_keeps
    | with_reducible apply State.kick_keeps
    | with_reducible refine Keeps.ofEq (by with_reducible assumption) ?_
    | with_reducible apply Keeps.ite
    | (with_reducible refine Keeps.foldl ?_ (fun _ _ _ => ?_) <;> try dsimp only)
    | dsimp only
    | split

theorem State.endList_keeps {b0 s : State} (cab r status idx resp addr : Nat) (hp : [.agenda, .regs, .runners, .leave] ⊆ K) (hK : Keeps K b0 s) : Keeps K b0 (State.endList s cab r status idx resp addr) := by
  unfold State.endList
  try dsimp only
  repeat' first
    | with_reducible assumption
    | (with_reducible refine List.Subset.trans ?_ hp; decide)
    | with_reducible apply State.onList_keeps
    | with_reducible apply State.cancelStarts_keeps

theorem State.descDone_keeps {b0 s : State} (l : Nat × Nat) (idx n : Nat) (hp : [.agenda, .runners] ⊆ K) (hK : Keeps K b0 s) : Keeps K b0 (State.descDone s l idx n) := by
  unfold State.descDone
  try dsimp only
  repeat' first
    | with_reducible assumption
    | (with_reducible refine List.Subset.trans ?_ hp; decide)
    | with_reducible apply State.onList_keeps
    | with_reducible apply State.progress_keeps
    | with_reducible apply State.kick_keeps
    | with_reducible refine Keeps.ofEq (by with_reducible assumption) ?_
    | with_reducible apply Keeps.ite

theorem State.setWork_keeps {b0 s : State} (cab r : Nat) (w : Work) (hp : [.runners] ⊆ K) (hK : Keeps K b0 s) : Keeps K b0 (State.setWork s cab r w) := by
  unfold State.setWork
  try dsimp only
  repeat' first
    | with_reducible assumption
    | with_reducible apply State.setRunner_keeps

theorem State.esgOut_keeps {b0 s : State} (cab r sb arg inF outF tiles items : Nat) (hp : [.outs] ⊆ K) (hK : Keeps K b0 s) : Keeps K b0 (State.esgOut s cab r sb arg inF outF tiles items) := by
  unfold State.esgOut
  try dsimp only
  repeat' first
    | with_reducible assumption
    | with_reducible apply State.presentIf_keeps

theorem State.esgStart_keeps {b0 s : State} (cab r : Nat) (f : Fuse) (hp : [.outs, .runners] ⊆ K) (hK : Keeps K b0 s) : Keeps K b0 (State.esgStart s cab r f) := by
  unfold State.esgStart
  try dsimp only
  repeat' first
    | with_reducible assumption
    | (with_reducible refine List.Subset.trans ?_ hp; decide)
    | with_reducible apply State.holdFuse_keeps
    | with_reducible apply State.esgOut_keeps

theorem State.esgNext_keeps {b0 s : State} (cab : Nat) (hp : [.agenda, .outs, .runners, .hfp] ⊆ K) (hK : Keeps K b0 s) : Keeps K b0 (State.esgNext s cab) := by
  unfold State.esgNext
  try dsimp only
  repeat' first
    | with_reducible assumption
    | (with_reducible refine List.Subset.trans ?_ hp; decide)
    | with_reducible apply State.later_keeps
    | with_reducible apply State.setHfp_keeps
    | with_reducible apply State.esgOut_keeps
    | with_reducible apply State.esgStart_keeps
    | with_reducible refine Keeps.ofEq (by with_reducible assumption) ?_
    | with_reducible apply Keeps.ite
    | dsimp only
    | split

theorem State.esgHide_keeps {b0 s : State} (cab : Nat) (hp : [.runners] ⊆ K) (hK : Keeps K b0 s) : Keeps K b0 (State.esgHide s cab) := by
  unfold State.esgHide
  try dsimp only
  repeat' first
    | with_reducible assumption
    | with_reducible apply State.holdFuse_keeps
    | with_reducible refine Keeps.ofEq (by with_reducible assumption) ?_
    | with_reducible apply Keeps.ite
    | (with_reducible refine Keeps.foldl ?_ (fun _ _ _ => ?_) <;> try dsimp only)
    | dsimp only
    | split

theorem State.esgAbort_keeps {b0 s : State} (cab r n : Nat) (hp : [.agenda, .outs, .runners, .hfp] ⊆ K) (hK : Keeps K b0 s) : Keeps K b0 (State.esgAbort s cab r n) := by
  unfold State.esgAbort
  try dsimp only
  repeat' first
    | with_reducible assumption
    | (with_reducible refine List.Subset.trans ?_ hp; decide)
    | with_reducible apply State.setHfp_keeps
    | with_reducible apply State.esgNext_keeps
    | with_reducible refine Keeps.ofEq (by with_reducible assumption) ?_
    | with_reducible apply Keeps.ite

theorem State.dropFuse_keeps {b0 s : State} (cab r : Nat) (hp : [.agenda, .regs, .outs, .fifos, .runners, .leave, .hfp] ⊆ K) (hK : Keeps K b0 s) : Keeps K b0 (State.dropFuse s cab r) := by
  unfold State.dropFuse
  try dsimp only
  repeat' first
    | with_reducible assumption
    | (with_reducible refine List.Subset.trans ?_ hp; decide)
    | with_reducible apply State.later_keeps
    | with_reducible apply State.setRunner_keeps
    | with_reducible apply State.leaveBack_keeps
    | with_reducible apply State.fifoFlush_keeps
    | with_reducible apply State.holdFuse_keeps
    | with_reducible apply State.esgAbort_keeps
    | with_reducible refine Keeps.ofEq (by with_reducible assumption) ?_
    | with_reducible apply Keeps.ite
    | (with_reducible refine Keeps.foldl ?_ (fun _ _ _ => ?_) <;> try dsimp only)
    | dsimp only
    | split

theorem State.haltAll_keeps {b0 s : State} (cab r : Nat) (hp : [.agenda, .regs, .outs, .fifos, .runners, .leave, .hfp] ⊆ K) (hK : Keeps K b0 s) : Keeps K b0 (State.haltAll s cab r) := by
  unfold State.haltAll
  try dsimp only
  repeat' first
    | with_reducible assumption
    | (with_reducible refine List.Subset.trans ?_ hp; decide)
    | with_reducible apply State.setRunner_keeps
    | with_reducible apply State.dropFuse_keeps

theorem State.failWork_keeps {b0 s : State} (cab r : Nat) (w : Work) (resp : Resp) (addr : Nat) (hp : [.agenda, .regs, .outs, .fifos, .runners, .leave, .hfp] ⊆ K) (hK : Keeps K b0 s) : Keeps K b0 (State.failWork s cab r w resp addr) := by
  unfold State.failWork
  try dsimp only
  repeat' first
    | with_reducible assumption
    | (with_reducible refine List.Subset.trans ?_ hp; decide)
    | with_reducible apply State.endList_keeps
    | with_reducible apply State.setWork_keeps
    | with_reducible apply State.haltAll_keeps
    | with_reducible refine Keeps.ofEq (by with_reducible assumption) ?_
    | with_reducible apply Keeps.ite

theorem State.writePiece_keeps {b0 s : State} (cab r : Nat) (w : Work) (p : Piece) (hp : [.agenda, .regs, .detected, .outs, .loose, .syn, .fifos, .runners, .pwr, .leave, .hfp] ⊆ K) (hK : Keeps K b0 s) : Keeps K b0 (State.writePiece s cab r w p) := by
  unfold State.writePiece
  try dsimp only
  repeat' first
    | with_reducible assumption
    | (with_reducible refine List.Subset.trans ?_ hp; decide)
    | with_reducible apply State.fresh_keeps
    | with_reducible apply State.issueLoose_keeps
    | with_reducible apply State.setWork_keeps
    | with_reducible apply State.failWork_keeps
    | with_reducible refine Keeps.ofEq (by with_reducible assumption) ?_
    | with_reducible apply Keeps.ite

theorem State.presentWork_readNext_keeps {b0 s : State} (cab r : Nat) (w : Work) (d : Nat) (hp : [.agenda, .regs, .detected, .outs, .loose, .syn, .fifos, .runners, .pwr, .leave, .hfp] ⊆ K) (hK : Keeps K b0 s) : Keeps K b0 (State.presentWork.readNext cab r w s d).1 := by
  unfold State.presentWork.readNext
  try dsimp only
  repeat' first
    | with_reducible assumption
    | (with_reducible refine List.Subset.trans ?_ hp; decide)
    | with_reducible apply State.setWork_keeps
    | with_reducible apply State.writePiece_keeps
    | with_reducible apply State.failWork_keeps
    | with_reducible apply State.issueLoose_keeps
    | with_reducible apply State.fresh_keeps
    | split

theorem State.presentWork_keeps {b0 s : State} (cab r : Nat) (w : Work) (hp : [.agenda, .regs, .detected, .outs, .loose, .syn, .fifos, .runners, .pwr, .leave, .hfp] ⊆ K) (hK : Keeps K b0 s) : Keeps K b0 (State.presentWork s cab r w).1 := by
  unfold State.presentWork
  try dsimp only
  repeat' first
    | with_reducible assumption
    | with_reducible apply State.presentWork_readNext_keeps
    | with_reducible apply State.writePiece_keeps
    | split

theorem State.sendItem_keeps {b0 s : State} (cab r : Nat) (w : Work) (p : Piece) (q : Rx) (hp : [.agenda, .regs, .detected, .loose, .syn, .pwr] ⊆ K) (hK : Keeps K b0 s) : Keeps K b0 (State.sendItem s cab r w p q).1 := by
  unfold State.sendItem
  try dsimp only
  repeat' first
    | with_reducible assumption
    | (with_reducible refine List.Subset.trans ?_ hp; decide)
    | with_reducible apply State.fresh_keeps
    | with_reducible apply State.issueLoose_keeps

theorem State.sendItems_keeps {b0 s : State} (cab r : Nat) (w : Work) (p : Piece) (y0 : List Rx) (hp : [.agenda, .regs, .detected, .loose, .syn, .pwr] ⊆ K) (hK : Keeps K b0 s) : Keeps K b0 (State.sendItems s cab r w p y0).1 := by
  induction y0 generalizing s with
  | nil =>
    unfold State.sendItems
    try dsimp only
    repeat' first
      | with_reducible assumption
  | cons x xs ih =>
    unfold State.sendItems
    try dsimp only
    repeat' first
      | with_reducible assumption
      | with_reducible apply State.sendItem_keeps
      | with_reducible refine Keeps.ofEq (by with_reducible assumption) ?_
      | with_reducible apply ih
      | with_reducible apply Keeps.ite
      | dsimp only
      | split

theorem State.castStep_keeps {b0 s : State} (cab r : Nat) (w : Work) (hp : [.agenda, .regs, .detected, .loose, .syn, .runners, .pwr] ⊆ K) (hK : Keeps K b0 s) : Keeps K b0 (State.castStep s cab r w).1 := by
  unfold State.castStep
  try dsimp only
  repeat' first
    | with_reducible assumption
    | (with_reducible refine List.Subset.trans ?_ hp; decide)
    | with_reducible apply State.setWork_keeps
    | with_reducible apply State.sendItems_keeps
    | with_reducible refine Keeps.ofEq (by with_reducible assumption) ?_
    | with_reducible apply Keeps.ite
    | dsimp only
    | split

theorem State.castTimers_keeps {b0 s : State} (cab r : Nat) (hp : [.agenda, .runners] ⊆ K) (hK : Keeps K b0 s) : Keeps K b0 (State.castTimers s cab r) := by
  unfold State.castTimers
  try dsimp only
  repeat' first
    | with_reducible assumption
    | (with_reducible refine List.Subset.trans ?_ hp; decide)
    | with_reducible apply State.arm_keeps
    | with_reducible apply State.setWork_keeps
    | with_reducible refine Keeps.ofEq (by with_reducible assumption) ?_
    | with_reducible apply Keeps.ite
    | (with_reducible refine Keeps.foldl ?_ (fun _ _ _ => ?_) <;> try dsimp only)

theorem State.lapse_keeps {b0 s : State} (cab r : Nat) (w : Work) (num : Nat) (hp : [.agenda, .syn, .runners] ⊆ K) (hK : Keeps K b0 s) : Keeps K b0 (State.lapse s cab r w num) := by
  unfold State.lapse
  try dsimp only
  repeat' first
    | with_reducible assumption
    | (with_reducible refine List.Subset.trans ?_ hp; decide)
    | with_reducible apply State.drained_keeps
    | with_reducible apply State.onList_keeps
    | with_reducible apply State.kick_keeps
    | with_reducible apply State.setWork_keeps
    | with_reducible refine Keeps.ofEq (by with_reducible assumption) ?_
    | with_reducible apply Keeps.ite
    | (with_reducible refine Keeps.foldl ?_ (fun _ _ _ => ?_) <;> try dsimp only)

theorem State.presentFetch_keeps {b0 s : State} (cab r : Nat) (l : RunList) (hp : [.agenda, .regs, .detected, .loose, .syn, .runners, .pwr] ⊆ K) (hK : Keeps K b0 s) : Keeps K b0 (State.presentFetch s cab r l) := by
  unfold State.presentFetch
  try dsimp only
  repeat' first
    | with_reducible assumption
    | (with_reducible refine List.Subset.trans ?_ hp; decide)
    | with_reducible apply State.fresh_keeps
    | with_reducible apply State.deliver_keeps
    | with_reducible apply State.issueLoose_keeps
    | with_reducible apply State.onList_keeps
    | with_reducible refine Keeps.ofEq (by with_reducible assumption) ?_
    | with_reducible apply Keeps.ite

theorem State.presentOne_keeps {b0 s : State} (cab r : Nat) (hp : [.agenda, .regs, .detected, .outs, .loose, .syn, .fifos, .runners, .pwr, .leave, .hfp] ⊆ K) (hK : Keeps K b0 s) : Keeps K b0 (State.presentOne s cab r) := by
  unfold State.presentOne
  try dsimp only
  repeat' first
    | with_reducible assumption
    | (with_reducible refine List.Subset.trans ?_ hp; decide)
    | with_reducible apply State.setRunner_keeps
    | with_reducible apply State.presentWork_keeps
    | with_reducible apply State.castStep_keeps
    | with_reducible apply State.presentFetch_keeps
    | with_reducible refine Keeps.ofEq (by with_reducible assumption) ?_
    | with_reducible apply Keeps.ite
    | (with_reducible refine Keeps.foldlP ?_ (fun _ _ _ => ?_) <;> try dsimp only)
    | dsimp only
    | split

theorem State.watchPause_keeps {b0 s : State} (cab r : Nat) (hp : [.runners] ⊆ K) (hK : Keeps K b0 s) : Keeps K b0 (State.watchPause s cab r) := by
  unfold State.watchPause
  try dsimp only
  repeat' first
    | with_reducible assumption
    | with_reducible apply State.setRunner_keeps
    | with_reducible refine Keeps.ofEq (by with_reducible assumption) ?_
    | with_reducible apply Keeps.ite

theorem execSegmentPresent_keeps {b0 s : State} (cab : Cab) (r : Fin 4) (hp : [.agenda, .regs, .detected, .outs, .loose, .syn, .fifos, .runners, .pwr, .leave, .hfp] ⊆ K) (hK : Keeps K b0 s) : KeepsO K b0 (execSegmentPresent cab r s) := by
  unfold execSegmentPresent
  try dsimp only
  repeat' first
    | with_reducible assumption
    | (with_reducible refine List.Subset.trans ?_ hp; decide)
    | with_reducible apply KeepsO.next
    | with_reducible apply State.arm_keeps
    | with_reducible apply State.kick_keeps
    | with_reducible apply State.castStep_keeps
    | with_reducible apply State.castTimers_keeps
    | with_reducible apply State.presentOne_keeps
    | with_reducible apply State.watchPause_keeps
    | with_reducible refine Keeps.ofEq (by with_reducible assumption) ?_
    | with_reducible apply Keeps.ite
    | (with_reducible refine Keeps.foldl ?_ (fun _ _ _ => ?_) <;> try dsimp only)
    | with_reducible apply KeepsO.ite
    | dsimp only
    | split

theorem State.takeAnswers_keeps {b0 s : State} (f : Origin → Bool) (hp : [.loose] ⊆ K) (hK : Keeps K b0 s) : Keeps K b0 (State.takeAnswers s f).1 := by
  unfold State.takeAnswers
  try dsimp only
  repeat' first
    | with_reducible assumption
    | with_reducible refine Keeps.ofEq (by with_reducible assumption) ?_
    | with_reducible apply Keeps.ite
    | dsimp only
    | split
    | with_reducible apply Keeps.set_loose

theorem State.segAnswer_keeps {b0 s : State} (cab r : Nat) (e : LReq × Ans × Nat) (hp : [.agenda, .regs, .outs, .fifos, .runners, .leave, .hfp] ⊆ K) (hK : Keeps K b0 s) : Keeps K b0 (State.segAnswer s cab r e) := by
  unfold State.segAnswer
  try dsimp only
  repeat' first
    | with_reducible assumption
    | (with_reducible refine List.Subset.trans ?_ hp; decide)
    | with_reducible apply State.progress_keeps
    | with_reducible apply State.setWork_keeps
    | with_reducible apply State.failWork_keeps
    | with_reducible refine Keeps.ofEq (by with_reducible assumption) ?_
    | with_reducible apply Keeps.ite
    | exact fun _ hu => hu
    | dsimp only
    | split

theorem execSegmentAnswer_keeps {b0 s : State} (cab : Cab) (r : Fin 4) (hp : [.agenda, .regs, .outs, .loose, .fifos, .runners, .leave, .hfp] ⊆ K) (hK : Keeps K b0 s) : KeepsO K b0 (execSegmentAnswer cab r s) := by
  unfold execSegmentAnswer
  try dsimp only
  repeat' first
    | with_reducible assumption
    | (with_reducible refine List.Subset.trans ?_ hp; decide)
    | with_reducible apply KeepsO.next
    | with_reducible apply State.arm_keeps
    | with_reducible apply State.kick_keeps
    | with_reducible apply State.takeAnswers_keeps
    | with_reducible apply State.segAnswer_keeps
    | with_reducible refine Keeps.ofEq (by with_reducible assumption) ?_
    | with_reducible apply Keeps.ite
    | (with_reducible refine Keeps.foldl ?_ (fun _ _ _ => ?_) <;> try dsimp only)

theorem execDescriptorFetch_keeps {b0 s : State} (cab : Cab) (r : Fin 4) (hp : [.agenda, .loose, .runners] ⊆ K) (hK : Keeps K b0 s) : KeepsO K b0 (execDescriptorFetch cab r s) := by
  unfold execDescriptorFetch
  try dsimp only
  repeat' first
    | with_reducible assumption
    | (with_reducible refine List.Subset.trans ?_ hp; decide)
    | with_reducible apply KeepsO.next
    | with_reducible apply State.arm_keeps
    | with_reducible apply State.onList_keeps
    | with_reducible apply State.kick_keeps
    | with_reducible apply State.takeAnswers_keeps
    | with_reducible refine Keeps.ofEq (by with_reducible assumption) ?_
    | with_reducible apply Keeps.ite
    | (with_reducible refine Keeps.foldl ?_ (fun _ _ _ => ?_) <;> try dsimp only)

theorem State.setStart_keeps {b0 s : State} (cab r idx d : Nat) (l : Nat × Nat) (op : Instr) (hp : [.agenda, .regs, .runners, .leave] ⊆ K) (hK : Keeps K b0 s) : Keeps K b0 (State.setStart s cab r idx d l op) := by
  unfold State.setStart
  try dsimp only
  repeat' first
    | with_reducible assumption
    | (with_reducible refine List.Subset.trans ?_ hp; decide)
    | with_reducible apply State.later_keeps
    | with_reducible apply State.setRunner_keeps
    | with_reducible apply State.leaveAsk_keeps
    | with_reducible refine Keeps.ofEq (by with_reducible assumption) ?_
    | with_reducible apply Keeps.ite

theorem State.runnerLeave_keeps {b0 s : State} (cab r : Nat) (hp : [.agenda, .runners] ⊆ K) (hK : Keeps K b0 s) : Keeps K b0 (State.runnerLeave s cab r) := by
  unfold State.runnerLeave
  try dsimp only
  repeat' first
    | with_reducible assumption
    | (with_reducible refine List.Subset.trans ?_ hp; decide)
    | with_reducible apply State.later_keeps
    | with_reducible apply State.setRunner_keeps
    | with_reducible refine Keeps.ofEq (by with_reducible assumption) ?_
    | with_reducible apply Keeps.ite
    | dsimp only
    | split

theorem State.startDesc_keeps {b0 s : State} (cab r : Nat) (l : RunList) (idx d : Nat) (hp : [.agenda, .regs, .runners, .leave] ⊆ K) (hK : Keeps K b0 s) : Keeps K b0 (State.startDesc s cab r l idx d) := by
  unfold State.startDesc
  try dsimp only
  repeat' first
    | with_reducible assumption
    | (with_reducible refine List.Subset.trans ?_ hp; decide)
    | with_reducible apply State.setRunner_keeps
    | with_reducible apply State.holdFuse_keeps
    | with_reducible apply State.endList_keeps
    | with_reducible apply State.setStart_keeps
    | with_reducible refine Keeps.ofEq (by with_reducible assumption) ?_
    | with_reducible apply Keeps.ite

theorem execDescriptorStart_keeps {b0 s : State} (cab : Cab) (r : Fin 4) (hp : [.agenda, .regs, .runners, .leave] ⊆ K) (hK : Keeps K b0 s) : KeepsO K b0 (execDescriptorStart cab r s) := by
  unfold execDescriptorStart
  try dsimp only
  repeat' first
    | with_reducible assumption
    | (with_reducible refine List.Subset.trans ?_ hp; decide)
    | with_reducible apply KeepsO.next
    | with_reducible apply State.arm_keeps
    | with_reducible apply State.kick_keeps
    | with_reducible apply State.startDesc_keeps
    | with_reducible apply State.started_keeps
    | with_reducible refine Keeps.ofEq (by with_reducible assumption) ?_
    | with_reducible apply Keeps.ite
    | with_reducible apply KeepsO.ite
    | dsimp only
    | split

theorem State.beginWork_keeps {b0 s : State} (cab r op : Nat) (hp : [.agenda, .runners] ⊆ K) (hK : Keeps K b0 s) : Keeps K b0 (State.beginWork s cab r op) := by
  unfold State.beginWork
  try dsimp only
  repeat' first
    | with_reducible assumption
    | (with_reducible refine List.Subset.trans ?_ hp; decide)
    | with_reducible apply State.setRunner_keeps
    | with_reducible apply State.kick_keeps
    | with_reducible refine Keeps.ofEq (by with_reducible assumption) ?_
    | with_reducible apply Keeps.ite
    | dsimp only
    | split

theorem execCopy_keeps {b0 s : State} (cab : Cab) (r : Fin 4) (hp : [.agenda, .runners] ⊆ K) (hK : Keeps K b0 s) : KeepsO K b0 (execCopy cab r s) := by
  unfold execCopy
  try dsimp only
  repeat' first
    | with_reducible assumption
    | with_reducible apply KeepsO.next
    | with_reducible apply State.beginWork_keeps

theorem execFill_keeps {b0 s : State} (cab : Cab) (r : Fin 4) (hp : [.agenda, .runners] ⊆ K) (hK : Keeps K b0 s) : KeepsO K b0 (execFill cab r s) := by
  unfold execFill
  try dsimp only
  repeat' first
    | with_reducible assumption
    | with_reducible apply KeepsO.next
    | with_reducible apply State.beginWork_keeps

theorem execGather_keeps {b0 s : State} (cab : Cab) (r : Fin 4) (hp : [.agenda, .runners] ⊆ K) (hK : Keeps K b0 s) : KeepsO K b0 (execGather cab r s) := by
  unfold execGather
  try dsimp only
  repeat' first
    | with_reducible assumption
    | with_reducible apply KeepsO.next
    | with_reducible apply State.beginWork_keeps

theorem execScatter_keeps {b0 s : State} (cab : Cab) (r : Fin 4) (hp : [.agenda, .runners] ⊆ K) (hK : Keeps K b0 s) : KeepsO K b0 (execScatter cab r s) := by
  unfold execScatter
  try dsimp only
  repeat' first
    | with_reducible assumption
    | with_reducible apply KeepsO.next
    | with_reducible apply State.beginWork_keeps

theorem execMcast_keeps {b0 s : State} (cab : Cab) (r : Fin 4) (hp : [.agenda, .runners] ⊆ K) (hK : Keeps K b0 s) : KeepsO K b0 (execMcast cab r s) := by
  unfold execMcast
  try dsimp only
  repeat' first
    | with_reducible assumption
    | with_reducible apply KeepsO.next
    | with_reducible apply State.beginWork_keeps

theorem State.started_keeps {b0 s : State} (cab r : Nat) (hp : [.runners] ⊆ K) (hK : Keeps K b0 s) : Keeps K b0 (State.started s cab r) := by
  unfold State.started
  try dsimp only
  repeat' first
    | with_reducible assumption
    | with_reducible apply State.setRunner_keeps

theorem execNop_keeps {b0 s : State} (cab : Cab) (r : Fin 4) (hp : [.agenda, .runners] ⊆ K) (hK : Keeps K b0 s) : KeepsO K b0 (execNop cab r s) := by
  unfold execNop
  try dsimp only
  repeat' first
    | with_reducible assumption
    | (with_reducible refine List.Subset.trans ?_ hp; decide)
    | with_reducible apply KeepsO.next
    | with_reducible apply State.descDone_keeps
    | with_reducible apply State.started_keeps
    | with_reducible refine Keeps.ofEq (by with_reducible assumption) ?_
    | with_reducible apply Keeps.ite
    | with_reducible apply KeepsO.ite
    | dsimp only
    | split

theorem State.runSignal_keeps {b0 s : State} (cab r cn inc : Nat) (hp : [.agenda, .regs, .detected, .stp, .syn, .runners] ⊆ K) (hK : Keeps K b0 s) : Keeps K b0 (State.runSignal s cab r cn inc) := by
  unfold State.runSignal
  try dsimp only
  repeat' first
    | with_reducible assumption
    | (with_reducible refine List.Subset.trans ?_ hp; decide)
    | with_reducible apply State.sigRefuse_keeps
    | with_reducible apply State.issueSig_keeps
    | with_reducible refine Keeps.ofEq (by with_reducible assumption) ?_
    | with_reducible apply Keeps.ite
    | exact fun _ hu => hu
    | dsimp only
    | split

theorem execSignal_keeps {b0 s : State} (cab : Cab) (r : Fin 4) (hp : [.agenda, .regs, .detected, .stp, .syn, .runners] ⊆ K) (hK : Keeps K b0 s) : KeepsO K b0 (execSignal cab r s) := by
  unfold execSignal
  try dsimp only
  repeat' first
    | with_reducible assumption
    | (with_reducible refine List.Subset.trans ?_ hp; decide)
    | with_reducible apply KeepsO.next
    | with_reducible apply State.arm_keeps
    | with_reducible apply State.descDone_keeps
    | with_reducible apply State.started_keeps
    | with_reducible apply State.runSignal_keeps
    | with_reducible refine Keeps.ofEq (by with_reducible assumption) ?_
    | with_reducible apply Keeps.ite
    | with_reducible apply KeepsO.ite
    | dsimp only
    | split

theorem State.runWait_keeps {b0 s : State} (cab r idx sel e limit : Nat) (hp : [.agenda, .regs, .detected, .syn, .runners, .leave] ⊆ K) (hK : Keeps K b0 s) : Keeps K b0 (State.runWait s cab r idx sel e limit) := by
  unfold State.runWait
  try dsimp only
  repeat' first
    | with_reducible assumption
    | (with_reducible refine List.Subset.trans ?_ hp; decide)
    | with_reducible apply State.later_keeps
    | with_reducible apply State.setRunner_keeps
    | with_reducible apply State.leaveBack_keeps
    | with_reducible apply State.registerWtr_keeps
    | with_reducible apply State.waitRefuse_keeps
    | with_reducible apply State.holdFuse_keeps
    | with_reducible apply State.endList_keeps
    | with_reducible refine Keeps.ofEq (by with_reducible assumption) ?_
    | with_reducible apply Keeps.ite
    | dsimp only
    | split

theorem execWait_keeps {b0 s : State} (cab : Cab) (r : Fin 4) (hp : [.agenda, .regs, .detected, .syn, .runners, .leave] ⊆ K) (hK : Keeps K b0 s) : KeepsO K b0 (execWait cab r s) := by
  unfold execWait
  try dsimp only
  repeat' first
    | with_reducible assumption
    | (with_reducible refine List.Subset.trans ?_ hp; decide)
    | with_reducible apply KeepsO.next
    | with_reducible apply State.kick_keeps
    | with_reducible apply State.started_keeps
    | with_reducible apply State.runWait_keeps
    | with_reducible refine Keeps.ofEq (by with_reducible assumption) ?_
    | with_reducible apply Keeps.ite
    | with_reducible apply KeepsO.ite
    | dsimp only
    | split

theorem execWaitTimeout_keeps {b0 s : State} (cab : Cab) (r : Fin 4) (hp : [.agenda, .regs, .syn, .runners, .leave] ⊆ K) (hK : Keeps K b0 s) : KeepsO K b0 (execWaitTimeout cab r s) := by
  unfold execWaitTimeout
  try dsimp only
  repeat' first
    | with_reducible assumption
    | (with_reducible refine List.Subset.trans ?_ hp; decide)
    | with_reducible apply KeepsO.next
    | with_reducible apply State.setRunner_keeps
    | with_reducible apply State.cancelWtr_keeps
    | with_reducible apply State.kick_keeps
    | with_reducible apply State.endList_keeps
    | with_reducible refine Keeps.ofEq (by with_reducible assumption) ?_
    | with_reducible apply Keeps.ite
    | with_reducible apply KeepsO.ite
    | dsimp only
    | split

theorem State.sweepParts_keeps {b0 s : State} (gen first last : Nat) (org : SwpOrg) (hp : [.agenda, .regs, .loose, .rep, .leave] ⊆ K) (hK : Keeps K b0 s) : Keeps K b0 (State.sweepParts s gen first last org) := by
  unfold State.sweepParts
  try dsimp only
  repeat' first
    | with_reducible assumption
    | (with_reducible refine List.Subset.trans ?_ hp; decide)
    | with_reducible apply State.sweepAdd_keeps
    | with_reducible refine Keeps.ofEq (by with_reducible assumption) ?_
    | with_reducible apply Keeps.ite
    | (with_reducible refine Keeps.foldl ?_ (fun _ _ _ => ?_) <;> try dsimp only)
    | dsimp only
    | split
    | with_reducible apply Keeps.set_rep

theorem execSweep_keeps {b0 s : State} (cab : Cab) (r : Fin 4) (hp : [.agenda, .regs, .loose, .rep, .runners, .leave] ⊆ K) (hK : Keeps K b0 s) : KeepsO K b0 (execSweep cab r s) := by
  unfold execSweep
  try dsimp only
  repeat' first
    | with_reducible assumption
    | (with_reducible refine List.Subset.trans ?_ hp; decide)
    | with_reducible apply KeepsO.next
    | with_reducible apply State.arm_keeps
    | with_reducible apply State.setRunner_keeps
    | with_reducible apply State.leaveBack_keeps
    | with_reducible apply State.endList_keeps
    | with_reducible apply State.descDone_keeps
    | with_reducible apply State.started_keeps
    | with_reducible apply State.sweepParts_keeps
    | with_reducible refine Keeps.ofEq (by with_reducible assumption) ?_
    | with_reducible apply Keeps.ite
    | with_reducible apply KeepsO.ite
    | dsimp only
    | split

theorem execFuse_keeps {b0 s : State} (cab : Cab) (r : Fin 4) (hp : [.agenda, .runners] ⊆ K) (hK : Keeps K b0 s) : KeepsO K b0 (execFuse cab r s) := by
  unfold execFuse
  try dsimp only
  repeat' first
    | with_reducible assumption
    | (with_reducible refine List.Subset.trans ?_ hp; decide)
    | with_reducible apply KeepsO.next
    | with_reducible apply State.later_keeps
    | with_reducible apply State.arm_keeps
    | with_reducible apply State.setRunner_keeps
    | with_reducible refine Keeps.ofEq (by with_reducible assumption) ?_
    | with_reducible apply Keeps.ite
    | with_reducible apply KeepsO.ite
    | dsimp only
    | split

theorem execReservationAged_keeps {b0 s : State} (cab : Cab) (r : Fin 4) (hp : [.runners] ⊆ K) (hK : Keeps K b0 s) : KeepsO K b0 (execReservationAged cab r s) := by
  unfold execReservationAged
  try dsimp only
  repeat' first
    | with_reducible assumption
    | with_reducible apply KeepsO.next
    | with_reducible apply State.setRunner_keeps
    | with_reducible refine Keeps.ofEq (by with_reducible assumption) ?_
    | with_reducible apply Keeps.ite

theorem State.startStages_keeps {b0 s : State} (cab r : Nat) (hp : [.agenda, .runners] ⊆ K) (hK : Keeps K b0 s) : Keeps K b0 (State.startStages s cab r) := by
  unfold State.startStages
  try dsimp only
  repeat' first
    | with_reducible assumption
    | (with_reducible refine List.Subset.trans ?_ hp; decide)
    | with_reducible apply State.setRunner_keeps
    | with_reducible apply State.kick_keeps
    | with_reducible refine Keeps.ofEq (by with_reducible assumption) ?_
    | with_reducible apply Keeps.ite
    | dsimp only
    | split

theorem State.grantHands_keeps {b0 s : State} (cab r : Nat) (f : Fuse) (free : List Nat) (hp : [.agenda, .regs, .fifos, .runners] ⊆ K) (hK : Keeps K b0 s) : Keeps K b0 (State.grantHands s cab r f free) := by
  unfold State.grantHands
  try dsimp only
  repeat' first
    | with_reducible assumption
    | (with_reducible refine List.Subset.trans ?_ hp; decide)
    | with_reducible apply State.arm_keeps
    | with_reducible apply State.setRunner_keeps
    | with_reducible apply State.handTake_keeps
    | with_reducible apply State.startStages_keeps
    | with_reducible refine Keeps.ofEq (by with_reducible assumption) ?_
    | with_reducible apply Keeps.ite
    | (with_reducible refine Keeps.foldl ?_ (fun _ _ _ => ?_) <;> try dsimp only)

theorem execHandoverGrant_keeps {b0 s : State} (cab : Cab) (hp : [.agenda, .regs, .fifos, .runners] ⊆ K) (hK : Keeps K b0 s) : KeepsO K b0 (execHandoverGrant cab s) := by
  unfold execHandoverGrant
  try dsimp only
  repeat' first
    | with_reducible assumption
    | (with_reducible refine List.Subset.trans ?_ hp; decide)
    | with_reducible apply KeepsO.next
    | with_reducible apply State.arm_keeps
    | with_reducible apply State.grantHands_keeps
    | with_reducible refine Keeps.ofEq (by with_reducible assumption) ?_
    | with_reducible apply Keeps.ite
    | (with_reducible refine Keeps.foldl ?_ (fun _ _ _ => ?_) <;> try dsimp only)
    | with_reducible apply KeepsO.ite
    | dsimp only
    | split

theorem execEngine_keeps {b0 s : State} (cab : Cab) (r : Fin 4) (hp : [.agenda, .regs, .outs, .fifos, .runners, .leave, .hfp] ⊆ K) (hK : Keeps K b0 s) : KeepsO K b0 (execEngine cab r s) := by
  unfold execEngine
  try dsimp only
  repeat' first
    | with_reducible assumption
    | (with_reducible refine List.Subset.trans ?_ hp; decide)
    | with_reducible apply KeepsO.next
    | with_reducible apply State.at'_keeps
    | with_reducible apply State.arm_keeps
    | with_reducible apply State.kick_keeps
    | with_reducible apply State.endList_keeps
    | with_reducible apply State.esgStart_keeps
    | with_reducible apply State.esgNext_keeps
    | with_reducible apply State.esgHide_keeps
    | with_reducible apply State.haltAll_keeps
    | with_reducible refine Keeps.ofEq (by with_reducible assumption) ?_
    | with_reducible apply Keeps.ite
    | with_reducible apply KeepsO.ite
    | dsimp only
    | split

theorem execEsgAck_keeps {b0 s : State} (cab : Cab) (hp : [.agenda, .outs, .runners] ⊆ K) (hK : Keeps K b0 s) : KeepsO K b0 (execEsgAck cab s) := by
  unfold execEsgAck
  try dsimp only
  repeat' first
    | with_reducible assumption
    | (with_reducible refine List.Subset.trans ?_ hp; decide)
    | with_reducible apply KeepsO.next
    | with_reducible apply State.arm_keeps
    | with_reducible apply State.setRunner_keeps
    | with_reducible apply State.esgOut_keeps
    | with_reducible apply State.startStages_keeps
    | with_reducible refine Keeps.ofEq (by with_reducible assumption) ?_
    | with_reducible apply Keeps.ite
    | with_reducible apply KeepsO.ite
    | dsimp only
    | split

theorem execEsgDone_keeps {b0 s : State} (cab : Cab) (r : Fin 4) (hp : [.agenda, .runners] ⊆ K) (hK : Keeps K b0 s) : KeepsO K b0 (execEsgDone cab r s) := by
  unfold execEsgDone
  try dsimp only
  repeat' first
    | with_reducible assumption
    | (with_reducible refine List.Subset.trans ?_ hp; decide)
    | with_reducible apply KeepsO.next
    | with_reducible apply State.setRunner_keeps
    | with_reducible apply State.kick_keeps
    | with_reducible refine Keeps.ofEq (by with_reducible assumption) ?_
    | with_reducible apply Keeps.ite
    | with_reducible apply KeepsO.ite
    | dsimp only
    | split

theorem execStagePush_keeps {b0 s : State} (cab : Cab) (r : Fin 4) (hp : [.agenda, .regs, .events, .fifos, .runners] ⊆ K) (hK : Keeps K b0 s) : KeepsO K b0 (execStagePush cab r s) := by
  unfold execStagePush
  try dsimp only
  repeat' first
    | with_reducible assumption
    | (with_reducible refine List.Subset.trans ?_ hp; decide)
    | with_reducible apply KeepsO.next
    | with_reducible apply State.fifoPush_keeps
    | with_reducible apply State.progress_keeps
    | with_reducible apply State.setWork_keeps
    | with_reducible refine Keeps.ofEq (by with_reducible assumption) ?_
    | with_reducible apply Keeps.ite
    | with_reducible apply KeepsO.ite
    | dsimp only
    | split

theorem execStagePop_keeps {b0 s : State} (cab : Cab) (r : Fin 4) (hp : [.agenda, .regs, .freeCtr, .detected, .events, .outs, .fifos, .runners, .leave, .hfp] ⊆ K) (hK : Keeps K b0 s) : KeepsO K b0 (execStagePop cab r s) := by
  unfold execStagePop
  try dsimp only
  repeat' first
    | with_reducible assumption
    | (with_reducible refine List.Subset.trans ?_ hp; decide)
    | with_reducible apply KeepsO.next
    | with_reducible apply State.fifoPop_keeps
    | with_reducible apply State.kick_keeps
    | with_reducible apply State.endList_keeps
    | with_reducible apply State.progress_keeps
    | with_reducible apply State.setWork_keeps
    | with_reducible apply State.haltAll_keeps
    | with_reducible refine Keeps.ofEq (by with_reducible assumption) ?_
    | with_reducible apply Keeps.ite
    | with_reducible apply KeepsO.ite
    | dsimp only
    | split

theorem State.answered_keeps {b0 s : State} (cab r id : Nat) (hp : [.runners] ⊆ K) (hK : Keeps K b0 s) : Keeps K b0 (State.answered s cab r id) := by
  unfold State.answered
  try dsimp only
  repeat' first
    | with_reducible assumption
    | with_reducible apply State.setRunner_keeps
    | with_reducible refine Keeps.ofEq (by with_reducible assumption) ?_
    | with_reducible apply Keeps.ite

theorem execMcastAck_keeps {b0 s : State} (cab : Cab) (r : Fin 4) (rx : Fin 16) (hp : [.agenda, .loose, .syn, .runners] ⊆ K) (hK : Keeps K b0 s) : KeepsO K b0 (execMcastAck cab r rx s) := by
  unfold execMcastAck
  try dsimp only
  repeat' first
    | with_reducible assumption
    | (with_reducible refine List.Subset.trans ?_ hp; decide)
    | with_reducible apply KeepsO.next
    | with_reducible apply State.kick_keeps
    | with_reducible apply State.progress_keeps
    | with_reducible apply State.setWork_keeps
    | with_reducible apply State.lapse_keeps
    | with_reducible apply State.takeAnswers_keeps
    | with_reducible apply State.answered_keeps
    | with_reducible refine Keeps.ofEq (by with_reducible assumption) ?_
    | with_reducible apply Keeps.ite
    | (with_reducible refine Keeps.foldl ?_ (fun _ _ _ => ?_) <;> try dsimp only)
    | with_reducible apply KeepsO.ite
    | exact fun _ hu => hu
    | dsimp only
    | split

theorem execMcastLapse_keeps {b0 s : State} (cab : Cab) (r : Fin 4) (rx : Fin 16) (hp : [.agenda, .syn, .runners] ⊆ K) (hK : Keeps K b0 s) : KeepsO K b0 (execMcastLapse cab r rx s) := by
  unfold execMcastLapse
  try dsimp only
  repeat' first
    | with_reducible assumption
    | with_reducible apply KeepsO.next
    | with_reducible apply State.lapse_keeps
    | with_reducible refine Keeps.ofEq (by with_reducible assumption) ?_
    | with_reducible apply Keeps.ite
    | with_reducible apply KeepsO.ite
    | dsimp only
    | split

theorem State.fuseStep_keeps {b0 s : State} (cab r : Nat) (hp : [.agenda, .regs, .detected, .stp, .syn, .fifos, .runners, .leave] ⊆ K) (hK : Keeps K b0 s) : Keeps K b0 (State.fuseStep s cab r) := by
  unfold State.fuseStep
  try dsimp only
  repeat' first
    | with_reducible assumption
    | (with_reducible refine List.Subset.trans ?_ hp; decide)
    | with_reducible apply State.setRunner_keeps
    | with_reducible apply State.leaveBack_keeps
    | with_reducible apply State.handFree_keeps
    | with_reducible apply State.descDone_keeps
    | with_reducible apply State.runSignal_keeps
    | with_reducible apply State.runWait_keeps
    | with_reducible refine Keeps.ofEq (by with_reducible assumption) ?_
    | with_reducible apply Keeps.ite
    | (with_reducible refine Keeps.foldl ?_ (fun _ _ _ => ?_) <;> try dsimp only)
    | dsimp only
    | split

theorem State.waitStep_keeps {b0 s : State} (cab r : Nat) (hp : [.agenda, .regs, .runners, .leave] ⊆ K) (hK : Keeps K b0 s) : Keeps K b0 (State.waitStep s cab r) := by
  unfold State.waitStep
  try dsimp only
  repeat' first
    | with_reducible assumption
    | (with_reducible refine List.Subset.trans ?_ hp; decide)
    | with_reducible apply State.setRunner_keeps
    | with_reducible apply State.leaveBack_keeps
    | with_reducible apply State.descDone_keeps
    | with_reducible refine Keeps.ofEq (by with_reducible assumption) ?_
    | with_reducible apply Keeps.ite
    | dsimp only
    | split

theorem State.sweepStep_keeps {b0 s : State} (cab r : Nat) (hp : [.agenda, .regs, .runners, .leave] ⊆ K) (hK : Keeps K b0 s) : Keeps K b0 (State.sweepStep s cab r) := by
  unfold State.sweepStep
  try dsimp only
  repeat' first
    | with_reducible assumption
    | (with_reducible refine List.Subset.trans ?_ hp; decide)
    | with_reducible apply State.setRunner_keeps
    | with_reducible apply State.leaveBack_keeps
    | with_reducible apply State.descDone_keeps
    | with_reducible refine Keeps.ofEq (by with_reducible assumption) ?_
    | with_reducible apply Keeps.ite
    | dsimp only
    | split

theorem execDescriptorComplete_keeps {b0 s : State} (cab : Cab) (r : Fin 4) (hp : [.agenda, .regs, .detected, .stp, .syn, .fifos, .runners, .leave] ⊆ K) (hK : Keeps K b0 s) : KeepsO K b0 (execDescriptorComplete cab r s) := by
  unfold execDescriptorComplete
  try dsimp only
  repeat' first
    | with_reducible assumption
    | (with_reducible refine List.Subset.trans ?_ hp; decide)
    | with_reducible apply KeepsO.next
    | with_reducible apply State.arm_keeps
    | with_reducible apply State.setRunner_keeps
    | with_reducible apply State.leaveBack_keeps
    | with_reducible apply State.nextList_keeps
    | with_reducible apply State.descDone_keeps
    | with_reducible apply State.fuseStep_keeps
    | with_reducible apply State.waitStep_keeps
    | with_reducible apply State.sweepStep_keeps
    | with_reducible refine Keeps.ofEq (by with_reducible assumption) ?_
    | with_reducible apply Keeps.ite
    | (with_reducible refine Keeps.foldl ?_ (fun _ _ _ => ?_) <;> try dsimp only)

theorem State.finishList_keeps {b0 s : State} (cab r : Nat) (l : RunList) (hp : [.agenda, .regs, .runners] ⊆ K) (hK : Keeps K b0 s) : Keeps K b0 (State.finishList s cab r l) := by
  unfold State.finishList
  try dsimp only
  repeat' first
    | with_reducible assumption
    | (with_reducible refine List.Subset.trans ?_ hp; decide)
    | with_reducible apply State.arm_keeps
    | with_reducible apply State.setRunner_keeps
    | with_reducible apply State.nextList_keeps

theorem execListComplete_keeps {b0 s : State} (cab : Cab) (r : Fin 4) (hp : [.agenda, .regs, .runners] ⊆ K) (hK : Keeps K b0 s) : KeepsO K b0 (execListComplete cab r s) := by
  unfold execListComplete
  try dsimp only
  repeat' first
    | with_reducible assumption
    | (with_reducible refine List.Subset.trans ?_ hp; decide)
    | with_reducible apply KeepsO.next
    | with_reducible apply State.arm_keeps
    | with_reducible apply State.finishList_keeps
    | with_reducible refine Keeps.ofEq (by with_reducible assumption) ?_
    | with_reducible apply Keeps.ite
    | with_reducible apply KeepsO.ite
    | dsimp only
    | split

theorem execCmplPop_keeps {b0 s : State} (m : Master) (cab : Cab) (r : Fin 4) (v : W32) (hp : [.agenda, .regs, .detected, .outs, .runners, .cmx, .counted] ⊆ K) (hK : Keeps K b0 s) : KeepsO K b0 (execCmplPop m cab r v s) := by
  unfold execCmplPop
  try dsimp only
  repeat' first
    | with_reducible assumption
    | (with_reducible refine List.Subset.trans ?_ hp; decide)
    | with_reducible apply KeepsO.next
    | with_reducible apply State.setRunner_keeps
    | with_reducible apply State.gateAt_keeps
    | with_reducible apply State.row_keeps
    | with_reducible apply State.nextList_keeps
    | with_reducible refine Keeps.ofEq (by with_reducible assumption) ?_
    | with_reducible apply Keeps.ite
    | with_reducible apply KeepsO.ite
    | (intro _ _ <;> try dsimp only)

theorem State.withdrawIds_keeps {b0 s : State} (ids : List Nat) (hp : [.loose, .syn] ⊆ K) (hK : Keeps K b0 s) : Keeps K b0 (State.withdrawIds s ids).1 := by
  unfold State.withdrawIds
  try dsimp only
  repeat' first
    | with_reducible assumption
    | (with_reducible refine List.Subset.trans ?_ hp; decide)
    | with_reducible apply State.drained_keeps
    | with_reducible apply State.withdraw_keeps
    | with_reducible refine Keeps.ofEq (by with_reducible assumption) ?_
    | with_reducible apply Keeps.ite
    | (with_reducible refine Keeps.foldl ?_ (fun _ _ _ => ?_) <;> try dsimp only)
    | exact fun _ hu => hu
    | dsimp only
    | split
    | with_reducible apply Keeps.set_loose

theorem State.abortList_keeps {b0 s : State} (cab r status : Nat) (hp : [.agenda, .regs, .outs, .loose, .syn, .fifos, .runners, .leave, .hfp] ⊆ K) (hK : Keeps K b0 s) : Keeps K b0 (State.abortList s cab r status) := by
  unfold State.abortList
  try dsimp only
  repeat' first
    | with_reducible assumption
    | (with_reducible refine List.Subset.trans ?_ hp; decide)
    | with_reducible apply State.arm_keeps
    | with_reducible apply State.setRunner_keeps
    | with_reducible apply State.leaveDrop_keeps
    | with_reducible apply State.leaveBack_keeps
    | with_reducible apply State.cancelWtr_keeps
    | with_reducible apply State.dropSigs_keeps
    | with_reducible apply State.kick_keeps
    | with_reducible apply State.dropFuse_keeps
    | with_reducible apply State.withdrawIds_keeps
    | with_reducible refine Keeps.ofEq (by with_reducible assumption) ?_
    | with_reducible apply Keeps.ite
    | (with_reducible refine Keeps.foldl ?_ (fun _ _ _ => ?_) <;> try dsimp only)
    | dsimp only
    | split
    | with_reducible apply Keeps.set_runners

theorem execRunnerAbort_keeps {b0 s : State} (m : Master) (cab : Cab) (r : Fin 4) (v : W32) (hp : [.agenda, .regs, .detected, .outs, .loose, .syn, .fifos, .runners, .leave, .cmx, .counted, .hfp] ⊆ K) (hK : Keeps K b0 s) : KeepsO K b0 (execRunnerAbort m cab r v s) := by
  unfold execRunnerAbort
  try dsimp only
  repeat' first
    | with_reducible assumption
    | (with_reducible refine List.Subset.trans ?_ hp; decide)
    | with_reducible apply KeepsO.next
    | with_reducible apply State.setRunner_keeps
    | with_reducible apply State.gateAt_keeps
    | with_reducible apply State.row_keeps
    | with_reducible apply State.abortList_keeps
    | with_reducible refine Keeps.ofEq (by with_reducible assumption) ?_
    | with_reducible apply Keeps.ite
    | with_reducible apply KeepsO.ite
    | (intro _ _ <;> try dsimp only)
    | dsimp only
    | split

theorem execAbortComplete_keeps {b0 s : State} (cab : Cab) (r : Fin 4) (hp : [.agenda, .regs, .fifos, .runners] ⊆ K) (hK : Keeps K b0 s) : KeepsO K b0 (execAbortComplete cab r s) := by
  unfold execAbortComplete
  try dsimp only
  repeat' first
    | with_reducible assumption
    | (with_reducible refine List.Subset.trans ?_ hp; decide)
    | with_reducible apply KeepsO.next
    | with_reducible apply State.arm_keeps
    | with_reducible apply State.setRunner_keeps
    | with_reducible apply State.fifoFlush_keeps
    | with_reducible apply State.handFree_keeps
    | with_reducible apply State.finishList_keeps
    | with_reducible refine Keeps.ofEq (by with_reducible assumption) ?_
    | with_reducible apply Keeps.ite
    | (with_reducible refine Keeps.foldl ?_ (fun _ _ _ => ?_) <;> try dsimp only)
    | with_reducible apply KeepsO.ite
    | dsimp only
    | split

theorem execRunnerWatchdog_keeps {b0 s : State} (cab : Cab) (r : Fin 4) (hp : [.agenda, .regs, .outs, .loose, .syn, .fifos, .runners, .leave, .hfp] ⊆ K) (hK : Keeps K b0 s) : KeepsO K b0 (execRunnerWatchdog cab r s) := by
  unfold execRunnerWatchdog
  try dsimp only
  repeat' first
    | with_reducible assumption
    | (with_reducible refine List.Subset.trans ?_ hp; decide)
    | with_reducible apply KeepsO.next
    | with_reducible apply State.arm_keeps
    | with_reducible apply State.abortList_keeps
    | with_reducible refine Keeps.ofEq (by with_reducible assumption) ?_
    | with_reducible apply Keeps.ite

theorem execStealLook_keeps {b0 s : State} (cab : Cab) (r : Fin 4) (hp : [.agenda, .regs, .runners] ⊆ K) (hK : Keeps K b0 s) : KeepsO K b0 (execStealLook cab r s) := by
  unfold execStealLook
  try dsimp only
  repeat' first
    | with_reducible assumption
    | (with_reducible refine List.Subset.trans ?_ hp; decide)
    | with_reducible apply KeepsO.next
    | with_reducible apply State.inc_keeps
    | with_reducible apply State.later_keeps
    | with_reducible apply State.setRunner_keeps
    | with_reducible refine Keeps.ofEq (by with_reducible assumption) ?_
    | with_reducible apply Keeps.ite
    | with_reducible apply KeepsO.ite
    | dsimp only
    | split

theorem execStealArrive_keeps {b0 s : State} (cab : Cab) (r : Fin 4) (hp : [.agenda, .regs, .runners, .leave] ⊆ K) (hK : Keeps K b0 s) : KeepsO K b0 (execStealArrive cab r s) := by
  unfold execStealArrive
  try dsimp only
  repeat' first
    | with_reducible assumption
    | (with_reducible refine List.Subset.trans ?_ hp; decide)
    | with_reducible apply KeepsO.next
    | with_reducible apply State.setRunner_keeps
    | with_reducible apply State.kick_keeps
    | with_reducible apply State.nextList_keeps
    | with_reducible apply State.endList_keeps
    | with_reducible apply State.descDone_keeps
    | with_reducible apply State.setStart_keeps
    | with_reducible refine Keeps.ofEq (by with_reducible assumption) ?_
    | with_reducible apply Keeps.ite
    | with_reducible apply KeepsO.ite
    | dsimp only
    | split
end Sys2Proof.Machine
end

