-- ==== Sys2Proof/Laws/KeepsContext.lean ====
section
/-! SUPPORT. What the operations and commands of Machine/Context.lean leave alone: one lemma each, in the terms of `Keeps`. The list each
asks for holds the parts it may change. -/
namespace Sys2Proof.Machine
variable {K : List Part}
theorem State.ctxRej_keeps {b0 s : State} (cause : Nat) (hp : [.regs] ⊆ K) (hK : Keeps K b0 s) : Keeps K b0 (State.ctxRej s cause) := by
  unfold State.ctxRej
  try dsimp only
  repeat' first
    | with_reducible assumption
    | with_reducible apply State.puts_keeps

theorem State.ctxCmd_keeps {b0 s : State} (m : Master) (ok : Bool) (c st : Nat) (f : State → State) (hp : [.regs, .detected] ⊆ K) (hK : Keeps K b0 s) (hf : ∀ u, Keeps K b0 u → Keeps K b0 (f u)) : Keeps K b0 (State.ctxCmd s m ok c st f) := by
  unfold State.ctxCmd
  refine State.gate_keeps _ _ _ _ (List.Subset.trans (by decide) hp) hK (fun u hu => ?_)
  split
  · exact hf _ (State.put_keeps _ _ (List.Subset.trans (by decide) hp) hu)
  · exact State.ctxRej_keeps _ (List.Subset.trans (by decide) hp) hu

theorem execCtxActivate_keeps {b0 s : State} (m : Master) (c : Ctx) (hp : [.agenda, .regs, .detected] ⊆ K) (hK : Keeps K b0 s) : KeepsO K b0 (execCtxActivate m c s) := by
  unfold execCtxActivate
  try dsimp only
  repeat' first
    | with_reducible assumption
    | (with_reducible refine List.Subset.trans ?_ hp; decide)
    | with_reducible apply KeepsO.next
    | with_reducible apply State.puts_keeps
    | with_reducible apply State.row_keeps
    | with_reducible apply State.ctxCmd_keeps
    | with_reducible refine Keeps.ofEq (by with_reducible assumption) ?_
    | with_reducible apply Keeps.ite
    | with_reducible apply KeepsO.ite
    | (intro _ _ <;> try dsimp only)

theorem execCtxDeactivate_keeps {b0 s : State} (m : Master) (c : Ctx) (hp : [.agenda, .regs, .detected] ⊆ K) (hK : Keeps K b0 s) : KeepsO K b0 (execCtxDeactivate m c s) := by
  unfold execCtxDeactivate
  try dsimp only
  repeat' first
    | with_reducible assumption
    | (with_reducible refine List.Subset.trans ?_ hp; decide)
    | with_reducible apply KeepsO.next
    | with_reducible apply State.puts_keeps
    | with_reducible apply State.row_keeps
    | with_reducible apply State.ctxCmd_keeps
    | with_reducible refine Keeps.ofEq (by with_reducible assumption) ?_
    | with_reducible apply Keeps.ite
    | with_reducible apply KeepsO.ite
    | (intro _ _ <;> try dsimp only)

theorem execCtxBind_keeps {b0 s : State} (m : Master) (c : Ctx) (hp : [.agenda, .regs, .detected] ⊆ K) (hK : Keeps K b0 s) : KeepsO K b0 (execCtxBind m c s) := by
  unfold execCtxBind
  try dsimp only
  repeat' first
    | with_reducible assumption
    | (with_reducible refine List.Subset.trans ?_ hp; decide)
    | with_reducible apply KeepsO.next
    | with_reducible apply State.setReg_keeps
    | with_reducible apply State.puts_keeps
    | with_reducible apply State.row_keeps
    | with_reducible apply State.ctxCmd_keeps
    | with_reducible refine Keeps.ofEq (by with_reducible assumption) ?_
    | with_reducible apply Keeps.ite
    | (with_reducible refine Keeps.foldl ?_ (fun _ _ _ => ?_) <;> try dsimp only)
    | with_reducible apply KeepsO.ite
    | (intro _ _ <;> try dsimp only)

theorem execEagWrite_keeps {b0 s : State} (m : Master) (p : Cab) (v : W32) (hp : [.agenda, .regs, .detected] ⊆ K) (hK : Keeps K b0 s) : KeepsO K b0 (execEagWrite m p v s) := by
  unfold execEagWrite
  try dsimp only
  repeat' first
    | with_reducible assumption
    | (with_reducible refine List.Subset.trans ?_ hp; decide)
    | with_reducible apply KeepsO.next
    | with_reducible apply State.puts_keeps
    | with_reducible apply State.gate_keeps
    | with_reducible apply State.row_keeps
    | with_reducible refine Keeps.ofEq (by with_reducible assumption) ?_
    | with_reducible apply Keeps.ite
    | with_reducible apply KeepsO.ite
    | (intro _ _ <;> try dsimp only)

theorem State.winEnd_keeps {b0 s : State} (w : Nat) (hp : [.regs, .ctx] ⊆ K) (hK : Keeps K b0 s) : Keeps K b0 (State.winEnd s w) := by
  unfold State.winEnd
  try dsimp only
  repeat' first
    | with_reducible assumption
    | (with_reducible refine List.Subset.trans ?_ hp; decide)
    | with_reducible apply State.puts_keeps
    | with_reducible refine Keeps.ofEq (by with_reducible assumption) ?_
    | with_reducible apply Keeps.ite
    | dsimp only
    | split
    | with_reducible apply Keeps.set_ctx

theorem State.winSweep_keeps {b0 s : State} (w gen : Nat) (hp : [.agenda, .regs, .loose, .rep, .leave] ⊆ K) (hK : Keeps K b0 s) : Keeps K b0 (State.winSweep s w gen) := by
  unfold State.winSweep
  try dsimp only
  repeat' first
    | with_reducible assumption
    | with_reducible apply State.sweepParts_keeps

theorem State.winClear_keeps {b0 s : State} (w gen : Nat) (hp : [.agenda, .regs, .loose, .rep, .leave] ⊆ K) (hK : Keeps K b0 s) : Keeps K b0 (State.winClear s w gen) := by
  unfold State.winClear
  try dsimp only
  repeat' first
    | with_reducible assumption
    | (with_reducible refine List.Subset.trans ?_ hp; decide)
    | with_reducible apply State.arm_keeps
    | with_reducible apply State.leaveAsk_keeps
    | with_reducible apply State.winSweep_keeps
    | with_reducible refine Keeps.ofEq (by with_reducible assumption) ?_
    | with_reducible apply Keeps.ite

theorem State.winLeave_keeps {b0 s : State} (w : Nat) (hp : [.agenda, .regs, .loose, .rep, .leave] ⊆ K) (hK : Keeps K b0 s) : Keeps K b0 (State.winLeave s w) := by
  unfold State.winLeave
  try dsimp only
  repeat' first
    | with_reducible assumption
    | (with_reducible refine List.Subset.trans ?_ hp; decide)
    | with_reducible apply State.arm_keeps
    | with_reducible apply State.winSweep_keeps
    | with_reducible refine Keeps.ofEq (by with_reducible assumption) ?_
    | with_reducible apply Keeps.ite

theorem State.winClose_keeps {b0 s : State} (w : Nat) (hp : [.agenda, .regs, .detected, .loose, .syn] ⊆ K) (hK : Keeps K b0 s) : Keeps K b0 (State.winClose s w) := by
  unfold State.winClose
  try dsimp only
  repeat' first
    | with_reducible assumption
    | (with_reducible refine List.Subset.trans ?_ hp; decide)
    | with_reducible apply State.put_keeps
    | with_reducible apply State.violate_keeps
    | with_reducible apply State.reply_keeps
    | with_reducible apply State.withdraw_keeps
    | with_reducible refine Keeps.ofEq (by with_reducible assumption) ?_
    | with_reducible apply Keeps.ite
    | (with_reducible refine Keeps.foldl ?_ (fun _ _ _ => ?_) <;> try dsimp only)

theorem State.winSettle_keeps {b0 s : State} (w : Nat) (hp : [.agenda, .regs, .loose, .rep, .ctx, .leave] ⊆ K) (hK : Keeps K b0 s) : Keeps K b0 (State.winSettle s w) := by
  unfold State.winSettle
  try dsimp only
  repeat' first
    | with_reducible assumption
    | (with_reducible refine List.Subset.trans ?_ hp; decide)
    | with_reducible apply State.put_keeps
    | with_reducible apply State.puts_keeps
    | with_reducible apply State.winEnd_keeps
    | with_reducible apply State.winClear_keeps
    | with_reducible refine Keeps.ofEq (by with_reducible assumption) ?_
    | with_reducible apply Keeps.ite

theorem State.winRej_keeps {b0 s : State} (cause : Nat) (hp : [.regs] ⊆ K) (hK : Keeps K b0 s) : Keeps K b0 (State.winRej s cause) := by
  unfold State.winRej
  try dsimp only
  repeat' first
    | with_reducible assumption
    | with_reducible apply State.puts_keeps

theorem State.noteBind_keeps {b0 s : State} (w c : Nat) (hp : [.ctx] ⊆ K) (hK : Keeps K b0 s) : Keeps K b0 (State.noteBind s w c) := by
  unfold State.noteBind
  try dsimp only
  repeat' first
    | with_reducible assumption
    | with_reducible refine Keeps.ofEq (by with_reducible assumption) ?_
    | with_reducible apply Keeps.ite
    | dsimp only
    | split
    | with_reducible apply Keeps.set_ctx

theorem execWindowBind_keeps {b0 s : State} (m : Master) (w : Win) (c : Ctx) (hp : [.agenda, .regs, .detected, .ctx] ⊆ K) (hK : Keeps K b0 s) : KeepsO K b0 (execWindowBind m w c s) := by
  unfold execWindowBind
  try dsimp only
  repeat' first
    | with_reducible assumption
    | (with_reducible refine List.Subset.trans ?_ hp; decide)
    | with_reducible apply KeepsO.next
    | with_reducible apply State.puts_keeps
    | with_reducible apply State.gate_keeps
    | with_reducible apply State.row_keeps
    | with_reducible apply State.winRej_keeps
    | with_reducible apply State.noteBind_keeps
    | with_reducible refine Keeps.ofEq (by with_reducible assumption) ?_
    | with_reducible apply Keeps.ite
    | with_reducible apply KeepsO.ite
    | (intro _ _ <;> try dsimp only)

theorem State.winStage_keeps {b0 s : State} (w op : Nat) (hp : [.ctx] ⊆ K) (hK : Keeps K b0 s) : Keeps K b0 (State.winStage s w op) := by
  unfold State.winStage
  try dsimp only
  repeat' first
    | with_reducible assumption
    | with_reducible refine Keeps.ofEq (by with_reducible assumption) ?_
    | with_reducible apply Keeps.ite
    | dsimp only
    | split
    | with_reducible apply Keeps.set_ctx

theorem State.winBusy_keeps {b0 s : State} (w op : Nat) (hp : [.regs, .ctx] ⊆ K) (hK : Keeps K b0 s) : Keeps K b0 (State.winBusy s w op) := by
  unfold State.winBusy
  try dsimp only
  repeat' first
    | with_reducible assumption
    | (with_reducible refine List.Subset.trans ?_ hp; decide)
    | with_reducible apply State.puts_keeps
    | with_reducible refine Keeps.ofEq (by with_reducible assumption) ?_
    | with_reducible apply Keeps.ite
    | dsimp only
    | split
    | with_reducible apply Keeps.set_ctx

theorem execWindowUnbind_keeps {b0 s : State} (m : Master) (w : Win) (c : Ctx) (hp : [.agenda, .regs, .detected, .loose, .syn, .ctx] ⊆ K) (hK : Keeps K b0 s) : KeepsO K b0 (execWindowUnbind m w c s) := by
  unfold execWindowUnbind
  try dsimp only
  repeat' first
    | with_reducible assumption
    | (with_reducible refine List.Subset.trans ?_ hp; decide)
    | with_reducible apply KeepsO.next
    | with_reducible apply State.at'_keeps
    | with_reducible apply State.later_keeps
    | with_reducible apply State.gate_keeps
    | with_reducible apply State.row_keeps
    | with_reducible apply State.winClose_keeps
    | with_reducible apply State.winRej_keeps
    | with_reducible apply State.winStage_keeps
    | with_reducible apply State.winBusy_keeps
    | with_reducible refine Keeps.ofEq (by with_reducible assumption) ?_
    | with_reducible apply Keeps.ite
    | with_reducible apply KeepsO.ite
    | (intro _ _ <;> try dsimp only)

theorem execWindowRelease_keeps {b0 s : State} (m : Master) (w : Win) (c : Ctx) (hp : [.agenda, .regs, .detected, .loose, .rep, .ctx, .leave] ⊆ K) (hK : Keeps K b0 s) : KeepsO K b0 (execWindowRelease m w c s) := by
  unfold execWindowRelease
  try dsimp only
  repeat' first
    | with_reducible assumption
    | (with_reducible refine List.Subset.trans ?_ hp; decide)
    | with_reducible apply KeepsO.next
    | with_reducible apply State.puts_keeps
    | with_reducible apply State.gate_keeps
    | with_reducible apply State.row_keeps
    | with_reducible apply State.winClear_keeps
    | with_reducible apply State.winRej_keeps
    | with_reducible apply State.winBusy_keeps
    | with_reducible refine Keeps.ofEq (by with_reducible assumption) ?_
    | with_reducible apply Keeps.ite
    | with_reducible apply KeepsO.ite
    | (intro _ _ <;> try dsimp only)

theorem execWindowCloseSettle_keeps {b0 s : State} (w : Win) (hp : [.agenda, .regs, .loose, .rep, .ctx, .leave] ⊆ K) (hK : Keeps K b0 s) : KeepsO K b0 (execWindowCloseSettle w s) := by
  unfold execWindowCloseSettle
  try dsimp only
  repeat' first
    | with_reducible assumption
    | (with_reducible refine List.Subset.trans ?_ hp; decide)
    | with_reducible apply KeepsO.next
    | with_reducible apply State.later_keeps
    | with_reducible apply State.winSettle_keeps
    | with_reducible apply State.winStage_keeps
    | with_reducible refine Keeps.ofEq (by with_reducible assumption) ?_
    | with_reducible apply Keeps.ite

theorem execWindowSweepDone_keeps {b0 s : State} (w : Win) (hp : [.agenda, .regs, .ctx, .leave] ⊆ K) (hK : Keeps K b0 s) : KeepsO K b0 (execWindowSweepDone w s) := by
  unfold execWindowSweepDone
  try dsimp only
  repeat' first
    | with_reducible assumption
    | (with_reducible refine List.Subset.trans ?_ hp; decide)
    | with_reducible apply KeepsO.next
    | with_reducible apply State.puts_keeps
    | with_reducible apply State.arm_keeps
    | with_reducible apply State.leaveBack_keeps
    | with_reducible apply State.winEnd_keeps
    | with_reducible refine Keeps.ofEq (by with_reducible assumption) ?_
    | with_reducible apply Keeps.ite

theorem State.killStage_keeps {b0 s : State} (c stage due : Nat) (hp : [.ctx] ⊆ K) (hK : Keeps K b0 s) : Keeps K b0 (State.killStage s c stage due) := by
  unfold State.killStage
  try dsimp only
  repeat' first
    | with_reducible assumption
    | with_reducible refine Keeps.ofEq (by with_reducible assumption) ?_
    | with_reducible apply Keeps.ite
    | dsimp only
    | split
    | with_reducible apply Keeps.set_ctx

theorem State.killLists_keeps {b0 s : State} (c : Nat) (hp : [.agenda, .regs, .outs, .stp, .loose, .syn, .fifos, .runners, .leave, .hfp] ⊆ K) (hK : Keeps K b0 s) : Keeps K b0 (State.killLists s c) := by
  unfold State.killLists
  try dsimp only
  repeat' first
    | with_reducible assumption
    | (with_reducible refine List.Subset.trans ?_ hp; decide)
    | with_reducible apply State.abortList_keeps
    | with_reducible refine Keeps.ofEq (by with_reducible assumption) ?_
    | with_reducible apply Keeps.ite
    | (with_reducible refine Keeps.foldl ?_ (fun _ _ _ => ?_) <;> try dsimp only)
    | dsimp only
    | split
    | with_reducible apply Keeps.set_stp
    | with_reducible apply Keeps.set_runners
    | with_reducible apply Keeps.set_all
    | with_reducible exact Or.inl rfl
    | (with_reducible refine Or.inr (List.Subset.trans ?_ hp); decide)

theorem State.killFifos_keeps {b0 s : State} (c : Nat) (hp : [.regs, .fifos] ⊆ K) (hK : Keeps K b0 s) : Keeps K b0 (State.killFifos s c) := by
  unfold State.killFifos
  try dsimp only
  repeat' first
    | with_reducible assumption
    | (with_reducible refine List.Subset.trans ?_ hp; decide)
    | with_reducible apply State.put_keeps
    | with_reducible apply State.fifoFlush_keeps
    | with_reducible refine Keeps.ofEq (by with_reducible assumption) ?_
    | with_reducible apply Keeps.ite
    | (with_reducible refine Keeps.foldl ?_ (fun _ _ _ => ?_) <;> try dsimp only)

theorem State.killCtrs_keeps {b0 s : State} (c : Nat) (hp : [.agenda, .regs, .syn] ⊆ K) (hK : Keeps K b0 s) : Keeps K b0 (State.killCtrs s c) := by
  unfold State.killCtrs
  try dsimp only
  repeat' first
    | with_reducible assumption
    | with_reducible apply State.unbindCtr_keeps
    | with_reducible refine Keeps.ofEq (by with_reducible assumption) ?_
    | with_reducible apply Keeps.ite
    | (with_reducible refine Keeps.foldl ?_ (fun _ _ _ => ?_) <;> try dsimp only)

theorem State.killClose_keeps {b0 s : State} (c : Nat) (hp : [.agenda, .regs, .detected, .outs, .stp, .set, .loose, .syn, .fifos, .runners, .leave, .hfp] ⊆ K) (hK : Keeps K b0 s) : Keeps K b0 (State.killClose s c) := by
  unfold State.killClose
  try dsimp only
  repeat' first
    | with_reducible assumption
    | (with_reducible refine List.Subset.trans ?_ hp; decide)
    | with_reducible apply State.puts_keeps
    | with_reducible apply State.later_keeps
    | with_reducible apply State.dropHeld_keeps
    | with_reducible apply State.endReplay_keeps
    | with_reducible apply State.sbdClear_keeps
    | with_reducible apply State.clearSlips_keeps
    | with_reducible apply State.winClose_keeps
    | with_reducible apply State.killLists_keeps
    | with_reducible apply State.killFifos_keeps
    | with_reducible apply State.killCtrs_keeps
    | with_reducible refine Keeps.ofEq (by with_reducible assumption) ?_
    | with_reducible apply Keeps.ite
    | (with_reducible refine Keeps.foldl ?_ (fun _ _ _ => ?_) <;> try dsimp only)
    | dsimp only
    | split
    | with_reducible apply Keeps.set_stp

theorem State.unbindNew_keeps {b0 s : State} (c : Nat) (hp : [.regs] ⊆ K) (hK : Keeps K b0 s) : Keeps K b0 (State.unbindNew s c) := by
  unfold State.unbindNew
  try dsimp only
  repeat' first
    | with_reducible assumption
    | with_reducible apply State.setReg_keeps
    | with_reducible apply State.winRej_keeps
    | with_reducible refine Keeps.ofEq (by with_reducible assumption) ?_
    | with_reducible apply Keeps.ite
    | (with_reducible refine Keeps.foldl ?_ (fun _ _ _ => ?_) <;> try dsimp only)

theorem execCtxKill_keeps {b0 s : State} (m : Master) (c : Ctx) (hp : [.agenda, .regs, .detected, .outs, .stp, .set, .loose, .syn, .fifos, .runners, .ctx, .leave, .hfp] ⊆ K) (hK : Keeps K b0 s) : KeepsO K b0 (execCtxKill m c s) := by
  unfold execCtxKill
  try dsimp only
  repeat' first
    | with_reducible assumption
    | (with_reducible refine List.Subset.trans ?_ hp; decide)
    | with_reducible apply KeepsO.next
    | with_reducible apply State.at'_keeps
    | with_reducible apply State.row_keeps
    | with_reducible apply State.ctxRej_keeps
    | with_reducible apply State.ctxCmd_keeps
    | with_reducible apply State.killStage_keeps
    | with_reducible apply State.killClose_keeps
    | with_reducible apply State.unbindNew_keeps
    | with_reducible refine Keeps.ofEq (by with_reducible assumption) ?_
    | with_reducible apply Keeps.ite
    | with_reducible apply KeepsO.ite
    | (intro _ _ <;> try dsimp only)
    | dsimp only
    | split
    | with_reducible apply Keeps.set_ctx

theorem State.killSweep_keeps {b0 s : State} (c : Nat) (hp : [.agenda, .regs, .loose, .rep, .ctx, .leave] ⊆ K) (hK : Keeps K b0 s) : Keeps K b0 (State.killSweep s c) := by
  unfold State.killSweep
  try dsimp only
  repeat' first
    | with_reducible assumption
    | (with_reducible refine List.Subset.trans ?_ hp; decide)
    | with_reducible apply State.put_keeps
    | with_reducible apply State.at'_keeps
    | with_reducible apply State.winSettle_keeps
    | with_reducible apply State.killStage_keeps
    | with_reducible refine Keeps.ofEq (by with_reducible assumption) ?_
    | with_reducible apply Keeps.ite
    | (with_reducible refine Keeps.foldl ?_ (fun _ _ _ => ?_) <;> try dsimp only)

theorem execKillQuiesceEnd_keeps {b0 s : State} (c : Ctx) (hp : [.agenda, .regs, .loose, .rep, .ctx, .leave] ⊆ K) (hK : Keeps K b0 s) : KeepsO K b0 (execKillQuiesceEnd c s) := by
  unfold execKillQuiesceEnd
  try dsimp only
  repeat' first
    | with_reducible assumption
    | (with_reducible refine List.Subset.trans ?_ hp; decide)
    | with_reducible apply KeepsO.next
    | with_reducible apply State.later_keeps
    | with_reducible apply State.arm_keeps
    | with_reducible apply State.killStage_keeps
    | with_reducible apply State.killSweep_keeps
    | with_reducible refine Keeps.ofEq (by with_reducible assumption) ?_
    | with_reducible apply Keeps.ite
    | with_reducible apply KeepsO.ite
    | dsimp only
    | split

theorem State.killFree_keeps {b0 s : State} (c : Nat) (hp : [.regs, .stp, .syn, .ctx] ⊆ K) (hK : Keeps K b0 s) : Keeps K b0 (State.killFree s c) := by
  unfold State.killFree
  try dsimp only
  repeat' first
    | with_reducible assumption
    | (with_reducible refine List.Subset.trans ?_ hp; decide)
    | with_reducible apply State.setReg_keeps
    | with_reducible apply State.put_keeps
    | with_reducible apply State.puts_keeps
    | with_reducible apply State.dropSigs_keeps
    | with_reducible refine Keeps.ofEq (by with_reducible assumption) ?_
    | with_reducible apply Keeps.ite
    | (with_reducible refine Keeps.foldl ?_ (fun _ _ _ => ?_) <;> try dsimp only)
    | dsimp only
    | split
    | with_reducible apply Keeps.set_stp
    | with_reducible apply Keeps.set_ctx
    | with_reducible apply Keeps.set_all
    | with_reducible exact Or.inl rfl
    | (with_reducible refine Or.inr (List.Subset.trans ?_ hp); decide)

theorem execKillUnbind_keeps {b0 s : State} (c : Ctx) (hp : [.agenda, .regs, .stp, .syn, .ctx] ⊆ K) (hK : Keeps K b0 s) : KeepsO K b0 (execKillUnbind c s) := by
  unfold execKillUnbind
  try dsimp only
  repeat' first
    | with_reducible assumption
    | (with_reducible refine List.Subset.trans ?_ hp; decide)
    | with_reducible apply KeepsO.next
    | with_reducible apply State.later_keeps
    | with_reducible apply State.arm_keeps
    | with_reducible apply State.killFree_keeps
    | with_reducible refine Keeps.ofEq (by with_reducible assumption) ?_
    | with_reducible apply Keeps.ite
end Sys2Proof.Machine
end

