-- ==== Sys2Proof/Laws/KeepsBridge.lean ====
section
/-! SUPPORT. What the operations and commands of Machine/Bridge.lean leave alone: one lemma each, in the terms of `Keeps`. The list each
asks for holds the parts it may change. -/
namespace Sys2Proof.Machine
variable {K : List Part}
theorem State.setLane_keeps {b0 s : State} (l : Nat) (x : Lane) (hp : [.brg] ⊆ K) (hK : Keeps K b0 s) : Keeps K b0 (State.setLane s l x) := by
  unfold State.setLane
  try dsimp only
  repeat' first
    | with_reducible assumption
    | with_reducible apply State.idle_keeps
    | with_reducible refine Keeps.ofEq (by with_reducible assumption) ?_
    | with_reducible apply Keeps.ite
    | dsimp only
    | split
    | with_reducible apply Keeps.set_brg

theorem State.side_keeps {b0 s : State} (die : Nat) (msg : Sideband) (hp : [.tx] ⊆ K) (hK : Keeps K b0 s) : Keeps K b0 (State.side s die msg) := by
  unfold State.side
  try dsimp only
  repeat' first
    | with_reducible assumption
    | with_reducible apply State.send_keeps
    | with_reducible refine Keeps.ofEq (by with_reducible assumption) ?_
    | with_reducible apply Keeps.ite
    | (with_reducible refine Keeps.foldl ?_ (fun _ _ _ => ?_) <;> try dsimp only)
    | dsimp only
    | split

theorem State.brgErr_keeps {b0 s : State} (kind detail : Nat) (hp : [.detected] ⊆ K) (hK : Keeps K b0 s) : Keeps K b0 (State.brgErr s kind detail) := by
  unfold State.brgErr
  try dsimp only
  repeat' first
    | with_reducible assumption
    | with_reducible apply State.err_keeps

theorem State.multiFault_keeps {b0 s : State} (hp : [.agenda, .regs, .stp, .runners] ⊆ K) (hK : Keeps K b0 s) : Keeps K b0 (State.multiFault s) := by
  unfold State.multiFault
  try dsimp only
  repeat' first
    | with_reducible assumption
    | with_reducible apply State.ctxFault_keeps
    | with_reducible refine Keeps.ofEq (by with_reducible assumption) ?_
    | with_reducible apply Keeps.ite
    | (with_reducible refine Keeps.foldl ?_ (fun _ _ _ => ?_) <;> try dsimp only)

theorem State.lateOver_keeps {b0 s : State} (hp : [.agenda, .frz, .tx] ⊆ K) (hK : Keeps K b0 s) : Keeps K b0 (State.lateOver s) := by
  unfold State.lateOver
  try dsimp only
  repeat' first
    | with_reducible assumption
    | with_reducible apply State.frzFall_keeps
    | with_reducible refine Keeps.ofEq (by with_reducible assumption) ?_
    | with_reducible apply Keeps.ite

theorem State.farFail_keeps {b0 s : State} (l : Nat) (hp : [.agenda, .regs, .detected, .loose, .syn] ⊆ K) (hK : Keeps K b0 s) : Keeps K b0 (State.farFail s l) := by
  unfold State.farFail
  try dsimp only
  repeat' first
    | with_reducible assumption
    | (with_reducible refine List.Subset.trans ?_ hp; decide)
    | with_reducible apply State.drained_keeps
    | with_reducible apply State.replyNow_keeps
    | with_reducible apply State.dropFlit_keeps
    | with_reducible refine Keeps.ofEq (by with_reducible assumption) ?_
    | with_reducible apply Keeps.ite
    | (with_reducible refine Keeps.foldl ?_ (fun _ _ _ => ?_) <;> try dsimp only)
    | exact fun _ hu => hu
    | dsimp only
    | split
    | with_reducible apply Keeps.set_loose

theorem State.laneClear_keeps {b0 s : State} (l : Nat) (hp : [.agenda, .regs, .detected, .frz, .loose, .syn, .brg, .tx] ⊆ K) (hK : Keeps K b0 s) : Keeps K b0 (State.laneClear s l) := by
  unfold State.laneClear
  try dsimp only
  repeat' first
    | with_reducible assumption
    | (with_reducible refine List.Subset.trans ?_ hp; decide)
    | with_reducible apply State.setLane_keeps
    | with_reducible apply State.lateOver_keeps
    | with_reducible apply State.farFail_keeps
    | with_reducible apply State.idle_keeps
    | with_reducible refine Keeps.ofEq (by with_reducible assumption) ?_
    | with_reducible apply Keeps.ite
    | dsimp only
    | split
    | with_reducible apply Keeps.set_tx

theorem State.laneDown_keeps {b0 s : State} (l cause : Nat) (hp : [.agenda, .regs, .detected, .events, .frz, .stp, .loose, .syn, .runners, .brg, .tx] ⊆ K) (hK : Keeps K b0 s) : Keeps K b0 (State.laneDown s l cause) := by
  unfold State.laneDown
  try dsimp only
  repeat' first
    | with_reducible assumption
    | (with_reducible refine List.Subset.trans ?_ hp; decide)
    | with_reducible apply State.puts_keeps
    | with_reducible apply State.event_keeps
    | with_reducible apply State.send_keeps
    | with_reducible apply State.brgErr_keeps
    | with_reducible apply State.multiFault_keeps
    | with_reducible apply State.laneClear_keeps
    | with_reducible refine Keeps.ofEq (by with_reducible assumption) ?_
    | with_reducible apply Keeps.ite
    | dsimp only
    | split
    | with_reducible apply Keeps.set_brg

theorem State.drainItems_keeps {b0 s : State} (l : List SlotItem) (hp : [.syn] ⊆ K) (hK : Keeps K b0 s) : Keeps K b0 (State.drainItems s l) := by
  unfold State.drainItems
  try dsimp only
  repeat' first
    | with_reducible assumption
    | with_reducible apply State.drained_keeps
    | with_reducible refine Keeps.ofEq (by with_reducible assumption) ?_
    | with_reducible apply Keeps.ite
    | (with_reducible refine Keeps.foldl ?_ (fun _ _ _ => ?_) <;> try dsimp only)

theorem State.crossItems_keeps {b0 s : State} (l : List SlotItem) (hp : [.syn] ⊆ K) (hK : Keeps K b0 s) : Keeps K b0 (State.crossItems s l) := by
  unfold State.crossItems
  try dsimp only
  repeat' first
    | with_reducible assumption
    | with_reducible apply State.drainItems_keeps
    | with_reducible refine Keeps.ofEq (by with_reducible assumption) ?_
    | with_reducible apply Keeps.ite
    | dsimp only
    | split
    | with_reducible apply Keeps.set_syn

theorem State.newSlot_keeps {b0 s : State} (l : Nat) (x : Lane) (hp : [.syn, .brg, .tx] ⊆ K) (hK : Keeps K b0 s) : Keeps K b0 (State.newSlot s l x) := by
  unfold State.newSlot
  try dsimp only
  repeat' first
    | with_reducible assumption
    | (with_reducible refine List.Subset.trans ?_ hp; decide)
    | with_reducible apply State.setLane_keeps
    | with_reducible apply State.crossItems_keeps
    | with_reducible refine Keeps.ofEq (by with_reducible assumption) ?_
    | with_reducible apply Keeps.ite
    | dsimp only
    | split
    | with_reducible apply Keeps.set_tx

theorem State.sendSlot_keeps {b0 s : State} (l : Nat) (hp : [.regs, .syn, .brg, .tx] ⊆ K) (hK : Keeps K b0 s) : Keeps K b0 (State.sendSlot s l) := by
  unfold State.sendSlot
  try dsimp only
  repeat' first
    | with_reducible assumption
    | (with_reducible refine List.Subset.trans ?_ hp; decide)
    | with_reducible apply State.inc_keeps
    | with_reducible apply State.setLane_keeps
    | with_reducible apply State.newSlot_keeps
    | with_reducible refine Keeps.ofEq (by with_reducible assumption) ?_
    | with_reducible apply Keeps.ite
    | dsimp only
    | split

theorem State.sendSlots_keeps {b0 s : State} (hp : [.regs, .syn, .brg, .tx] ⊆ K) (hK : Keeps K b0 s) : Keeps K b0 (State.sendSlots s) := by
  unfold State.sendSlots
  try dsimp only
  repeat' first
    | with_reducible assumption
    | (with_reducible refine List.Subset.trans ?_ hp; decide)
    | with_reducible apply State.drainItems_keeps
    | with_reducible apply State.sendSlot_keeps
    | with_reducible refine Keeps.ofEq (by with_reducible assumption) ?_
    | with_reducible apply Keeps.ite
    | (with_reducible refine Keeps.foldl ?_ (fun _ _ _ => ?_) <;> try dsimp only)
    | dsimp only
    | split
    | with_reducible apply Keeps.set_tx

theorem State.stretchIn_keeps {b0 s : State} (l n : Nat) (hp : [.agenda, .regs] ⊆ K) (hK : Keeps K b0 s) : Keeps K b0 (State.stretchIn s l n) := by
  unfold State.stretchIn
  try dsimp only
  repeat' first
    | with_reducible assumption
    | (with_reducible refine List.Subset.trans ?_ hp; decide)
    | with_reducible apply State.put_keeps
    | with_reducible apply State.arm_keeps
    | with_reducible refine Keeps.ofEq (by with_reducible assumption) ?_
    | with_reducible apply Keeps.ite

theorem State.fullSlot_keeps {b0 s : State} (l : Nat) (w : WireSlot) (hp : [.agenda, .regs, .detected, .stp, .runners] ⊆ K) (hK : Keeps K b0 s) : Keeps K b0 (State.fullSlot s l w).1 := by
  unfold State.fullSlot
  try dsimp only
  repeat' first
    | with_reducible assumption
    | (with_reducible refine List.Subset.trans ?_ hp; decide)
    | with_reducible apply State.ctxFault?_keeps
    | with_reducible apply State.setFlit_keeps
    | with_reducible apply State.schErr_keeps
    | with_reducible apply State.side_keeps
    | with_reducible apply State.laneDown_keeps
    | with_reducible apply State.startMark_keeps
    | with_reducible refine Keeps.ofEq (by with_reducible assumption) ?_
    | with_reducible apply Keeps.ite
    | (with_reducible refine Keeps.foldl ?_ (fun _ _ _ => ?_) <;> try dsimp only)
    | dsimp only
    | split

theorem execWireSlotReceive_keeps {b0 s : State} (lane : Fin 8) (slot : WireSlot) (crcOk : Bool) (hp : [.agenda, .regs, .freeCtr, .detected, .stp, .runners, .brg] ⊆ K) (hK : Keeps K b0 s) : KeepsO K b0 (execWireSlotReceive lane slot crcOk s) := by
  unfold execWireSlotReceive
  try dsimp only
  repeat' first
    | with_reducible assumption
    | (with_reducible refine List.Subset.trans ?_ hp; decide)
    | with_reducible apply KeepsO.next
    | with_reducible apply State.inc_keeps
    | with_reducible apply State.at'_keeps
    | with_reducible apply State.later_keeps
    | with_reducible apply State.arm_keeps
    | with_reducible apply State.useFree_keeps
    | with_reducible apply State.setLane_keeps
    | with_reducible apply State.fullSlot_keeps
    | with_reducible refine Keeps.ofEq (by with_reducible assumption) ?_
    | with_reducible apply Keeps.ite

theorem execNakReceive_keeps {b0 s : State} (lane : Fin 8) (seq : Nat) (hp : [.agenda, .regs, .detected, .events, .frz, .stp, .loose, .syn, .runners, .brg, .tx] ⊆ K) (hK : Keeps K b0 s) : KeepsO K b0 (execNakReceive lane seq s) := by
  unfold execNakReceive
  try dsimp only
  repeat' first
    | with_reducible assumption
    | (with_reducible refine List.Subset.trans ?_ hp; decide)
    | with_reducible apply KeepsO.next
    | with_reducible apply State.setLane_keeps
    | with_reducible apply State.laneDown_keeps
    | with_reducible refine Keeps.ofEq (by with_reducible assumption) ?_
    | with_reducible apply Keeps.ite
    | with_reducible apply KeepsO.ite
    | dsimp only
    | split

theorem execBridgeLate_keeps {b0 s : State} (lane : Fin 8) (hp : [.agenda, .regs, .detected, .frz, .brg, .tx] ⊆ K) (hK : Keeps K b0 s) : KeepsO K b0 (execBridgeLate lane s) := by
  unfold execBridgeLate
  try dsimp only
  repeat' first
    | with_reducible assumption
    | (with_reducible refine List.Subset.trans ?_ hp; decide)
    | with_reducible apply KeepsO.next
    | with_reducible apply State.incBy_keeps
    | with_reducible apply State.arm_keeps
    | with_reducible apply State.frzRaise_keeps
    | with_reducible apply State.setLane_keeps
    | with_reducible apply State.brgErr_keeps
    | with_reducible refine Keeps.ofEq (by with_reducible assumption) ?_
    | with_reducible apply Keeps.ite
    | (with_reducible refine Keeps.foldl ?_ (fun _ _ _ => ?_) <;> try dsimp only)

theorem execLaneSilent_keeps {b0 s : State} (lane : Fin 8) (hp : [.agenda, .regs, .detected, .events, .frz, .stp, .loose, .syn, .runners, .brg, .tx] ⊆ K) (hK : Keeps K b0 s) : KeepsO K b0 (execLaneSilent lane s) := by
  unfold execLaneSilent
  try dsimp only
  repeat' first
    | with_reducible assumption
    | (with_reducible refine List.Subset.trans ?_ hp; decide)
    | with_reducible apply KeepsO.next
    | with_reducible apply State.at'_keeps
    | with_reducible apply State.laneDown_keeps
    | with_reducible refine Keeps.ofEq (by with_reducible assumption) ?_
    | with_reducible apply Keeps.ite

theorem execLaneDownNotice_keeps {b0 s : State} (lane : Fin 8) (origin : Fin 8) (seq : Nat) (hp : [.agenda, .regs, .stp, .runners, .brg, .tx] ⊆ K) (hK : Keeps K b0 s) : KeepsO K b0 (execLaneDownNotice lane origin seq s) := by
  unfold execLaneDownNotice
  try dsimp only
  repeat' first
    | with_reducible assumption
    | (with_reducible refine List.Subset.trans ?_ hp; decide)
    | with_reducible apply KeepsO.next
    | with_reducible apply State.send_keeps
    | with_reducible apply State.multiFault_keeps
    | with_reducible apply State.laneDown_keeps
    | with_reducible refine Keeps.ofEq (by with_reducible assumption) ?_
    | with_reducible apply Keeps.ite
    | with_reducible apply KeepsO.ite
    | dsimp only
    | split
    | with_reducible apply Keeps.set_brg

theorem State.setIn_keeps {b0 s : State} (l : Nat) (sent : Nat) (f : SFlit) (hp : [.agenda, .regs, .detected, .stp, .set, .loose, .syn, .runners] ⊆ K) (hK : Keeps K b0 s) : Keeps K b0 (State.setIn s l sent f) := by
  unfold State.setIn
  try dsimp only
  repeat' first
    | with_reducible assumption
    | (with_reducible refine List.Subset.trans ?_ hp; decide)
    | with_reducible apply State.at'_keeps
    | with_reducible apply State.ctxFault?_keeps
    | with_reducible apply State.undrain_keeps
    | with_reducible apply State.refuse_keeps
    | with_reducible apply State.dropRelease_keeps
    | with_reducible apply State.lateFlit_keeps
    | with_reducible apply State.enter_keeps
    | with_reducible refine Keeps.ofEq (by with_reducible assumption) ?_
    | with_reducible apply Keeps.ite
    | exact fun _ hu => hu
    | dsimp only
    | split
    | with_reducible apply Keeps.set_set

theorem State.looseIn_keeps {b0 s : State} (l : Nat) (f : LFlit) (hp : [.agenda, .regs, .detected, .loose, .syn, .brg, .tx] ⊆ K) (hK : Keeps K b0 s) : Keeps K b0 (State.looseIn s l f) := by
  unfold State.looseIn
  try dsimp only
  repeat' first
    | with_reducible assumption
    | (with_reducible refine List.Subset.trans ?_ hp; decide)
    | with_reducible apply State.at'_keeps
    | with_reducible apply State.later_keeps
    | with_reducible apply State.undrain_keeps
    | with_reducible apply State.violate_keeps
    | with_reducible apply State.refuse_keeps
    | with_reducible apply State.refused_keeps
    | with_reducible apply State.replyNow_keeps
    | with_reducible apply State.refuseFlit_keeps
    | with_reducible apply State.setLane_keeps
    | with_reducible refine Keeps.ofEq (by with_reducible assumption) ?_
    | with_reducible apply Keeps.ite
    | exact fun _ hu => hu
    | dsimp only
    | split
    | with_reducible apply Keeps.set_loose

theorem State.sideIn_keeps {b0 s : State} (lane : Fin 8) (dst : Nat) (msg : Sideband) (hp : [.agenda, .brg, .tx] ⊆ K) (hK : Keeps K b0 s) : Keeps K b0 (State.sideIn s lane dst msg) := by
  unfold State.sideIn
  try dsimp only
  repeat' first
    | with_reducible assumption
    | (with_reducible refine List.Subset.trans ?_ hp; decide)
    | with_reducible apply State.later_keeps
    | with_reducible apply State.side_keeps
    | with_reducible apply State.opReport_keeps
    | with_reducible refine Keeps.ofEq (by with_reducible assumption) ?_
    | with_reducible apply Keeps.ite
    | dsimp only
    | split
    | with_reducible apply Keeps.set_brg

theorem State.slotItem_keeps {b0 s : State} (lane : Fin 8) (sent : Nat) (i : SlotItem) (hp : [.agenda, .regs, .detected, .stp, .set, .loose, .syn, .runners, .brg, .tx] ⊆ K) (hK : Keeps K b0 s) : Keeps K b0 (State.slotItem s lane sent i) := by
  unfold State.slotItem
  try dsimp only
  repeat' first
    | with_reducible assumption
    | (with_reducible refine List.Subset.trans ?_ hp; decide)
    | with_reducible apply State.later_keeps
    | with_reducible apply State.setFlit_keeps
    | with_reducible apply State.setLane_keeps
    | with_reducible apply State.side_keeps
    | with_reducible apply State.laneDown_keeps
    | with_reducible apply State.stretchIn_keeps
    | with_reducible apply State.setIn_keeps
    | with_reducible apply State.looseIn_keeps
    | with_reducible apply State.sideIn_keeps
    | with_reducible apply State.startMark_keeps
    | with_reducible refine Keeps.ofEq (by with_reducible assumption) ?_
    | with_reducible apply Keeps.ite
    | exact fun _ hu => hu
    | dsimp only
    | split
    | with_reducible apply Keeps.set_syn

theorem State.deliverSlots_keeps {b0 s : State} (lane : Fin 8) (y0 : Nat) (hp : [.agenda, .regs, .detected, .stp, .set, .loose, .syn, .runners, .brg, .tx] ⊆ K) (hK : Keeps K b0 s) : Keeps K b0 (State.deliverSlots s lane y0) := by
  induction y0 generalizing s with
  | zero =>
    unfold State.deliverSlots
    try dsimp only
    repeat' first
      | with_reducible assumption
  | succ n ih =>
    unfold State.deliverSlots
    try dsimp only
    repeat' first
      | with_reducible assumption
      | (with_reducible refine List.Subset.trans ?_ hp; decide)
      | with_reducible apply State.setLane_keeps
      | with_reducible apply State.slotItem_keeps
      | with_reducible refine Keeps.ofEq (by with_reducible assumption) ?_
      | with_reducible apply ih
      | with_reducible apply Keeps.ite
      | (with_reducible refine Keeps.foldl ?_ (fun _ _ _ => ?_) <;> try dsimp only)
      | dsimp only
      | split

theorem State.deliverSet_keeps {b0 s : State} (lane : Fin 8) (hp : [.agenda, .regs, .detected, .stp, .set, .loose, .syn, .runners, .brg, .tx] ⊆ K) (hK : Keeps K b0 s) : Keeps K b0 (State.deliverSet s lane) := by
  unfold State.deliverSet
  try dsimp only
  repeat' first
    | with_reducible assumption
    | (with_reducible refine List.Subset.trans ?_ hp; decide)
    | with_reducible apply State.setLane_keeps
    | with_reducible apply State.slotItem_keeps
    | with_reducible refine Keeps.ofEq (by with_reducible assumption) ?_
    | with_reducible apply Keeps.ite
    | (with_reducible refine Keeps.foldl ?_ (fun _ _ _ => ?_) <;> try dsimp only)

theorem execSlotDelivery_keeps {b0 s : State} (lane : Fin 8) (hp : [.agenda, .regs, .detected, .frz, .stp, .set, .loose, .syn, .runners, .brg, .tx] ⊆ K) (hK : Keeps K b0 s) : KeepsO K b0 (execSlotDelivery lane s) := by
  unfold execSlotDelivery
  try dsimp only
  repeat' first
    | with_reducible assumption
    | (with_reducible refine List.Subset.trans ?_ hp; decide)
    | with_reducible apply KeepsO.next
    | with_reducible apply State.setLane_keeps
    | with_reducible apply State.lateOver_keeps
    | with_reducible apply State.deliverSlots_keeps
    | with_reducible apply State.deliverSet_keeps
    | with_reducible refine Keeps.ofEq (by with_reducible assumption) ?_
    | with_reducible apply Keeps.ite

theorem execLaneTrain_keeps {b0 s : State} (m : Master) (lane : Fin 8) (hp : [.agenda, .regs, .detected, .leave] ⊆ K) (hK : Keeps K b0 s) : KeepsO K b0 (execLaneTrain m lane s) := by
  unfold execLaneTrain
  try dsimp only
  repeat' first
    | with_reducible assumption
    | (with_reducible refine List.Subset.trans ?_ hp; decide)
    | with_reducible apply KeepsO.next
    | with_reducible apply State.put_keeps
    | with_reducible apply State.gate_keeps
    | with_reducible apply State.row_keeps
    | with_reducible apply State.leaveAsk_keeps
    | with_reducible refine Keeps.ofEq (by with_reducible assumption) ?_
    | with_reducible apply Keeps.ite
    | with_reducible apply KeepsO.ite
    | (intro _ _ <;> try dsimp only)

theorem State.trainStart_keeps {b0 s : State} (l : Nat) (hp : [.regs] ⊆ K) (hK : Keeps K b0 s) : Keeps K b0 (State.trainStart s l) := by
  unfold State.trainStart
  try dsimp only
  repeat' first
    | with_reducible assumption
    | with_reducible apply State.puts_keeps

theorem execLaneOff_keeps {b0 s : State} (m : Master) (lane : Fin 8) (hp : [.agenda, .regs, .detected, .frz, .loose, .syn, .brg, .leave, .tx] ⊆ K) (hK : Keeps K b0 s) : KeepsO K b0 (execLaneOff m lane s) := by
  unfold execLaneOff
  try dsimp only
  repeat' first
    | with_reducible assumption
    | (with_reducible refine List.Subset.trans ?_ hp; decide)
    | with_reducible apply KeepsO.next
    | with_reducible apply State.put_keeps
    | with_reducible apply State.puts_keeps
    | with_reducible apply State.gate_keeps
    | with_reducible apply State.row_keeps
    | with_reducible apply State.leaveDrop_keeps
    | with_reducible apply State.leaveBack_keeps
    | with_reducible apply State.laneClear_keeps
    | with_reducible refine Keeps.ofEq (by with_reducible assumption) ?_
    | with_reducible apply Keeps.ite
    | with_reducible apply KeepsO.ite
    | (intro _ _ <;> try dsimp only)

theorem State.beaconArm_keeps {b0 s : State} (had : Bool) (hp : [.agenda, .pwr] ⊆ K) (hK : Keeps K b0 s) : Keeps K b0 (State.beaconArm s had) := by
  unfold State.beaconArm
  try dsimp only
  repeat' first
    | with_reducible assumption
    | (with_reducible refine List.Subset.trans ?_ hp; decide)
    | with_reducible apply State.later_keeps
    | with_reducible apply State.arm_keeps
    | with_reducible apply State.disarm_keeps
    | with_reducible refine Keeps.ofEq (by with_reducible assumption) ?_
    | with_reducible apply Keeps.ite
    | dsimp only
    | split
    | with_reducible apply Keeps.set_pwr

theorem execTrainDone_keeps {b0 s : State} (lane : Fin 8) (modules : Fin 5) (hp : [.agenda, .regs, .pwr, .brg, .leave] ⊆ K) (hK : Keeps K b0 s) : KeepsO K b0 (execTrainDone lane modules s) := by
  unfold execTrainDone
  try dsimp only
  repeat' first
    | with_reducible assumption
    | (with_reducible refine List.Subset.trans ?_ hp; decide)
    | with_reducible apply KeepsO.next
    | with_reducible apply State.put_keeps
    | with_reducible apply State.puts_keeps
    | with_reducible apply State.arm_keeps
    | with_reducible apply State.leaveBack_keeps
    | with_reducible apply State.setLane_keeps
    | with_reducible apply State.beaconArm_keeps
    | with_reducible apply State.idle_keeps
    | with_reducible refine Keeps.ofEq (by with_reducible assumption) ?_
    | with_reducible apply Keeps.ite

theorem execDrouteWrite_keeps {b0 s : State} (m : Master) (v : W32) (hp : [.agenda, .regs, .detected] ⊆ K) (hK : Keeps K b0 s) : KeepsO K b0 (execDrouteWrite m v s) := by
  unfold execDrouteWrite
  try dsimp only
  repeat' first
    | with_reducible assumption
    | (with_reducible refine List.Subset.trans ?_ hp; decide)
    | with_reducible apply KeepsO.next
    | with_reducible apply State.setReg_keeps
    | with_reducible apply State.gate_keeps
    | with_reducible apply State.row_keeps
    | with_reducible refine Keeps.ofEq (by with_reducible assumption) ?_
    | with_reducible apply Keeps.ite
    | with_reducible apply KeepsO.ite
    | (intro _ _ <;> try dsimp only)
end Sys2Proof.Machine
end

