-- ==== Sys2Proof/Laws/KeepsEdge.lean ====
section
/-! SUPPORT. What the operations and commands of Machine/Edge.lean leave alone: one lemma each, in the terms of `Keeps`. The list each
asks for holds the parts it may change. -/
namespace Sys2Proof.Machine
variable {K : List Part}
theorem State.setGw_keeps {b0 s : State} (k : Nat) (g : Gateway) (hp : [.regs, .edg] ⊆ K) (hK : Keeps K b0 s) : Keeps K b0 (State.setGw s k g) := by
  unfold State.setGw
  try dsimp only
  repeat' first
    | with_reducible assumption
    | (with_reducible refine List.Subset.trans ?_ hp; decide)
    | with_reducible apply State.puts_keeps
    | with_reducible apply State.idle_keeps
    | with_reducible refine Keeps.ofEq (by with_reducible assumption) ?_
    | with_reducible apply Keeps.ite
    | dsimp only
    | split
    | with_reducible apply Keeps.set_edg

theorem State.setPart_keeps {b0 s : State} (p : Nat) (x : PartSt) (hp : [.edg] ⊆ K) (hK : Keeps K b0 s) : Keeps K b0 (State.setPart s p x) := by
  unfold State.setPart
  try dsimp only
  repeat' first
    | with_reducible assumption
    | with_reducible apply State.idle_keeps
    | with_reducible refine Keeps.ofEq (by with_reducible assumption) ?_
    | with_reducible apply Keeps.ite
    | dsimp only
    | split
    | with_reducible apply Keeps.set_edg

theorem State.countOut_keeps {b0 s : State} (p : Nat) (hp : [.regs] ⊆ K) (hK : Keeps K b0 s) : Keeps K b0 (State.countOut s p) := by
  unfold State.countOut
  try dsimp only
  repeat' first
    | with_reducible assumption
    | with_reducible apply State.put_keeps

theorem State.txHead_keeps {b0 s : State} (k : Nat) (hp : [.agenda, .regs, .freeCtr, .edg] ⊆ K) (hK : Keeps K b0 s) : Keeps K b0 (State.txHead s k) := by
  unfold State.txHead
  try dsimp only
  repeat' first
    | with_reducible assumption
    | (with_reducible refine List.Subset.trans ?_ hp; decide)
    | with_reducible apply State.at'_keeps
    | with_reducible apply State.useFree_keeps
    | with_reducible apply State.setGw_keeps
    | with_reducible refine Keeps.ofEq (by with_reducible assumption) ?_
    | with_reducible apply Keeps.ite
    | dsimp only
    | split

theorem State.txExpire_keeps {b0 s : State} (k : Nat) (hp : [.regs, .edg] ⊆ K) (hK : Keeps K b0 s) : Keeps K b0 (State.txExpire s k) := by
  unfold State.txExpire
  try dsimp only
  repeat' first
    | with_reducible assumption
    | with_reducible apply State.setGw_keeps

theorem State.sendPkt_keeps {b0 s : State} (k p typ status reqId addr arg : Nat) (payload : List Byte) (hp : [.agenda, .regs, .freeCtr, .edg] ⊆ K) (hK : Keeps K b0 s) : Keeps K b0 (State.sendPkt s k p typ status reqId addr arg payload) := by
  unfold State.sendPkt
  try dsimp only
  repeat' first
    | with_reducible assumption
    | (with_reducible refine List.Subset.trans ?_ hp; decide)
    | with_reducible apply State.setPair_keeps
    | with_reducible apply State.later_keeps
    | with_reducible apply State.setGw_keeps
    | with_reducible apply State.setPart_keeps
    | with_reducible apply State.txHead_keeps
    | with_reducible refine Keeps.ofEq (by with_reducible assumption) ?_
    | with_reducible apply Keeps.ite

theorem State.sendHello_keeps {b0 s : State} (k p : Nat) (hp : [.agenda, .regs, .freeCtr, .edg] ⊆ K) (hK : Keeps K b0 s) : Keeps K b0 (State.sendHello s k p) := by
  unfold State.sendHello
  try dsimp only
  repeat' first
    | with_reducible assumption
    | with_reducible apply State.sendPkt_keeps

theorem State.edgeEnd_keeps {b0 s : State} (k status : Nat) (hp : [.agenda, .regs, .edg] ⊆ K) (hK : Keeps K b0 s) : Keeps K b0 (State.edgeEnd s k status) := by
  unfold State.edgeEnd
  try dsimp only
  repeat' first
    | with_reducible assumption
    | (with_reducible refine List.Subset.trans ?_ hp; decide)
    | with_reducible apply State.put_keeps
    | with_reducible apply State.inc_keeps
    | with_reducible apply State.later_keeps
    | with_reducible apply State.setGw_keeps
    | with_reducible apply State.countOut_keeps
    | with_reducible refine Keeps.ofEq (by with_reducible assumption) ?_
    | with_reducible apply Keeps.ite
    | dsimp only
    | split

theorem State.partTo_keeps {b0 s : State} (p st cause : Nat) (abort : Option Nat) (hp : [.agenda, .regs, .events, .edg] ⊆ K) (hK : Keeps K b0 s) : Keeps K b0 (State.partTo s p st cause abort) := by
  unfold State.partTo
  try dsimp only
  repeat' first
    | with_reducible assumption
    | (with_reducible refine List.Subset.trans ?_ hp; decide)
    | with_reducible apply State.put_keeps
    | with_reducible apply State.event_keeps
    | with_reducible apply State.started_keeps
    | with_reducible apply State.setGw_keeps
    | with_reducible apply State.countOut_keeps
    | with_reducible apply State.edgeEnd_keeps
    | with_reducible refine Keeps.ofEq (by with_reducible assumption) ?_
    | with_reducible apply Keeps.ite
    | dsimp only
    | split

theorem State.quarantine_keeps {b0 s : State} (p cause : Nat) (hp : [.agenda, .regs, .detected, .events, .edg] ⊆ K) (hK : Keeps K b0 s) : Keeps K b0 (State.quarantine s p cause) := by
  unfold State.quarantine
  try dsimp only
  repeat' first
    | with_reducible assumption
    | (with_reducible refine List.Subset.trans ?_ hp; decide)
    | with_reducible apply State.put_keeps
    | with_reducible apply State.brgErr_keeps
    | with_reducible apply State.partTo_keeps

theorem State.quarCount_keeps {b0 s : State} (p : Nat) (f : Fld) (hp : [.agenda, .regs, .detected, .events, .edg] ⊆ K) (hK : Keeps K b0 s) : Keeps K b0 (State.quarCount s p f) := by
  unfold State.quarCount
  try dsimp only
  repeat' first
    | with_reducible assumption
    | (with_reducible refine List.Subset.trans ?_ hp; decide)
    | with_reducible apply State.inc_keeps
    | with_reducible apply State.at'_keeps
    | with_reducible apply State.setPart_keeps
    | with_reducible apply State.quarantine_keeps
    | with_reducible refine Keeps.ofEq (by with_reducible assumption) ?_
    | with_reducible apply Keeps.ite

theorem execQuarantineWindow_keeps {b0 s : State} (p : Partner) (hp : [.edg] ⊆ K) (hK : Keeps K b0 s) : KeepsO K b0 (execQuarantineWindow p s) := by
  unfold execQuarantineWindow
  try dsimp only
  repeat' first
    | with_reducible assumption
    | with_reducible apply KeepsO.next
    | with_reducible apply State.setPart_keeps

theorem State.fillBucket_keeps {b0 s : State} (p : Nat) (hp : [.edg] ⊆ K) (hK : Keeps K b0 s) : Keeps K b0 (State.fillBucket s p) := by
  unfold State.fillBucket
  try dsimp only
  repeat' first
    | with_reducible assumption
    | with_reducible apply State.setPart_keeps

theorem State.gwLook_keeps {b0 s : State} (k : Nat) (hp : [.agenda] ⊆ K) (hK : Keeps K b0 s) : Keeps K b0 (State.gwLook s k) := by
  unfold State.gwLook
  try dsimp only
  repeat' first
    | with_reducible assumption
    | with_reducible apply State.arm_keeps

theorem State.answerPkt_keeps {b0 s : State} (k p typ reqId status : Nat) (dat : List Byte) (hp : [.agenda, .regs, .freeCtr, .edg] ⊆ K) (hK : Keeps K b0 s) : Keeps K b0 (State.answerPkt s k p typ reqId status dat) := by
  unfold State.answerPkt
  try dsimp only
  repeat' first
    | with_reducible assumption
    | with_reducible apply State.sendPkt_keeps
    | with_reducible refine Keeps.ofEq (by with_reducible assumption) ?_
    | with_reducible apply Keeps.ite

theorem State.edgeViol_keeps {b0 s : State} (k p : Nat) (pkt : Packet) (f : State → State) (hp : [.agenda, .regs, .freeCtr, .detected, .events, .edg] ⊆ K) (hK : Keeps K b0 s) (hf : ∀ u, Keeps K b0 u → Keeps K b0 (f u)) : Keeps K b0 (State.edgeViol s k p pkt f) := by
  unfold State.edgeViol
  exact State.quarCount_keeps _ _ (List.Subset.trans (by decide) hp) (State.answerPkt_keeps _ _ _ _ _ _ (List.Subset.trans (by decide) hp) (hf s hK))

theorem State.edgeBursts_keeps {b0 s : State} (k ctx fa len : Nat) (we : Bool) (dat : List Byte) (hp : [.agenda, .regs, .detected, .loose, .syn, .pwr] ⊆ K) (hK : Keeps K b0 s) : Keeps K b0 (State.edgeBursts s k ctx fa len we dat).1 := by
  unfold State.edgeBursts
  try dsimp only
  repeat' first
    | with_reducible assumption
    | (with_reducible refine List.Subset.trans ?_ hp; decide)
    | with_reducible apply State.fresh_keeps
    | with_reducible apply State.issueLoose_keeps
    | with_reducible apply State.edgeIn_keeps
    | with_reducible refine Keeps.ofEq (by with_reducible assumption) ?_
    | with_reducible apply Keeps.ite
    | (with_reducible refine Keeps.foldlP ?_ (fun _ _ _ => ?_) <;> try dsimp only)

theorem State.edgeAccess_keeps {b0 s : State} (k p : Nat) (pkt : Packet) (hp : [.agenda, .regs, .freeCtr, .detected, .events, .loose, .syn, .pwr, .edg] ⊆ K) (hK : Keeps K b0 s) : Keeps K b0 (State.edgeAccess s k p pkt) := by
  unfold State.edgeAccess
  try dsimp only
  repeat' first
    | with_reducible assumption
    | (with_reducible refine List.Subset.trans ?_ hp; decide)
    | with_reducible apply State.put_keeps
    | with_reducible apply State.violate_keeps
    | with_reducible apply State.synErr_keeps
    | with_reducible apply State.issueSig_keeps
    | with_reducible apply State.setGw_keeps
    | with_reducible apply State.countOut_keeps
    | with_reducible apply State.gwLook_keeps
    | with_reducible apply State.edgeViol_keeps
    | with_reducible apply State.edgeBursts_keeps
    | with_reducible refine Keeps.ofEq (by with_reducible assumption) ?_
    | with_reducible apply Keeps.ite
    | exact fun _ hu => hu
    | (intro _ _ <;> try dsimp only)
    | dsimp only
    | split

theorem State.hello_keeps {b0 s : State} (k p : Nat) (pkt : Packet) (hp : [.agenda, .regs, .freeCtr, .detected, .events, .edg] ⊆ K) (hK : Keeps K b0 s) : Keeps K b0 (State.hello s k p pkt) := by
  unfold State.hello
  try dsimp only
  repeat' first
    | with_reducible assumption
    | (with_reducible refine List.Subset.trans ?_ hp; decide)
    | with_reducible apply State.put_keeps
    | with_reducible apply State.at'_keeps
    | with_reducible apply State.disarm_keeps
    | with_reducible apply State.event_keeps
    | with_reducible apply State.brgErr_keeps
    | with_reducible apply State.setGw_keeps
    | with_reducible apply State.sendHello_keeps
    | with_reducible apply State.quarantine_keeps
    | with_reducible refine Keeps.ofEq (by with_reducible assumption) ?_
    | with_reducible apply Keeps.ite

theorem State.edgeResponse_keeps {b0 s : State} (k p : Nat) (pkt : Packet) (hp : [.agenda, .regs, .detected, .loose, .syn, .pwr, .edg] ⊆ K) (hK : Keeps K b0 s) : Keeps K b0 (State.edgeResponse s k p pkt) := by
  unfold State.edgeResponse
  try dsimp only
  repeat' first
    | with_reducible assumption
    | (with_reducible refine List.Subset.trans ?_ hp; decide)
    | with_reducible apply State.inc_keeps
    | with_reducible apply State.later_keeps
    | with_reducible apply State.fresh_keeps
    | with_reducible apply State.violate_keeps
    | with_reducible apply State.issueLoose_keeps
    | with_reducible apply State.started_keeps
    | with_reducible apply State.setGw_keeps
    | with_reducible apply State.countOut_keeps
    | with_reducible apply State.edgeEnd_keeps
    | with_reducible refine Keeps.ofEq (by with_reducible assumption) ?_
    | with_reducible apply Keeps.ite
    | (with_reducible refine Keeps.foldlP ?_ (fun _ _ _ => ?_) <;> try dsimp only)
    | exact fun _ hu => hu
    | dsimp only
    | split

theorem State.edgeIn_keeps {b0 s : State} (k : Nat) (pkt : Packet) (hp : [.agenda, .regs, .freeCtr, .detected, .events, .loose, .syn, .pwr, .edg] ⊆ K) (hK : Keeps K b0 s) : Keeps K b0 (State.edgeIn s k pkt) := by
  unfold State.edgeIn
  try dsimp only
  repeat' first
    | with_reducible assumption
    | (with_reducible refine List.Subset.trans ?_ hp; decide)
    | with_reducible apply State.inc_keeps
    | with_reducible apply State.setPair_keeps
    | with_reducible apply State.setPart_keeps
    | with_reducible apply State.quarCount_keeps
    | with_reducible apply State.fillBucket_keeps
    | with_reducible apply State.edgeAccess_keeps
    | with_reducible apply State.hello_keeps
    | with_reducible apply State.edgeResponse_keeps
    | with_reducible refine Keeps.ofEq (by with_reducible assumption) ?_
    | with_reducible apply Keeps.ite
    | dsimp only
    | split

theorem State.edgeRow_keeps {b0 s : State} (k : Nat) (pkt : Packet) (typ : Nat) (hp : [.agenda, .regs, .freeCtr, .detected, .events, .loose, .syn, .pwr, .edg] ⊆ K) (hK : Keeps K b0 s) : Keeps K b0 (State.edgeRow s k pkt typ) := by
  unfold State.edgeRow
  try dsimp only
  repeat' first
    | with_reducible assumption
    | with_reducible apply State.edgeIn_keeps
    | with_reducible refine Keeps.ofEq (by with_reducible assumption) ?_
    | with_reducible apply Keeps.ite

theorem execEdgeHello_keeps {b0 s : State} (k : Gw) (pkt : Packet) (hp : [.agenda, .regs, .freeCtr, .detected, .events, .loose, .syn, .pwr, .edg] ⊆ K) (hK : Keeps K b0 s) : KeepsO K b0 (execEdgeHello k pkt s) := by
  unfold execEdgeHello
  try dsimp only
  repeat' first
    | with_reducible assumption
    | with_reducible apply KeepsO.next
    | with_reducible apply State.edgeRow_keeps

theorem execEdgeKeepalive_keeps {b0 s : State} (k : Gw) (pkt : Packet) (hp : [.agenda, .regs, .freeCtr, .detected, .events, .loose, .syn, .pwr, .edg] ⊆ K) (hK : Keeps K b0 s) : KeepsO K b0 (execEdgeKeepalive k pkt s) := by
  unfold execEdgeKeepalive
  try dsimp only
  repeat' first
    | with_reducible assumption
    | with_reducible apply KeepsO.next
    | with_reducible apply State.edgeRow_keeps

theorem execEdgeWrite_keeps {b0 s : State} (k : Gw) (pkt : Packet) (hp : [.agenda, .regs, .freeCtr, .detected, .events, .loose, .syn, .pwr, .edg] ⊆ K) (hK : Keeps K b0 s) : KeepsO K b0 (execEdgeWrite k pkt s) := by
  unfold execEdgeWrite
  try dsimp only
  repeat' first
    | with_reducible assumption
    | with_reducible apply KeepsO.next
    | with_reducible apply State.edgeRow_keeps

theorem execEdgeInc_keeps {b0 s : State} (k : Gw) (pkt : Packet) (hp : [.agenda, .regs, .freeCtr, .detected, .events, .loose, .syn, .pwr, .edg] ⊆ K) (hK : Keeps K b0 s) : KeepsO K b0 (execEdgeInc k pkt s) := by
  unfold execEdgeInc
  try dsimp only
  repeat' first
    | with_reducible assumption
    | with_reducible apply KeepsO.next
    | with_reducible apply State.edgeRow_keeps

theorem execEdgeRead_keeps {b0 s : State} (k : Gw) (pkt : Packet) (hp : [.agenda, .regs, .freeCtr, .detected, .events, .loose, .syn, .pwr, .edg] ⊆ K) (hK : Keeps K b0 s) : KeepsO K b0 (execEdgeRead k pkt s) := by
  unfold execEdgeRead
  try dsimp only
  repeat' first
    | with_reducible assumption
    | with_reducible apply KeepsO.next
    | with_reducible apply State.edgeRow_keeps

theorem execEdgeAck_keeps {b0 s : State} (k : Gw) (pkt : Packet) (hp : [.agenda, .regs, .freeCtr, .detected, .events, .loose, .syn, .pwr, .edg] ⊆ K) (hK : Keeps K b0 s) : KeepsO K b0 (execEdgeAck k pkt s) := by
  unfold execEdgeAck
  try dsimp only
  repeat' first
    | with_reducible assumption
    | with_reducible apply KeepsO.next
    | with_reducible apply State.edgeRow_keeps

theorem execEdgeReadRsp_keeps {b0 s : State} (k : Gw) (pkt : Packet) (hp : [.agenda, .regs, .freeCtr, .detected, .events, .loose, .syn, .pwr, .edg] ⊆ K) (hK : Keeps K b0 s) : KeepsO K b0 (execEdgeReadRsp k pkt s) := by
  unfold execEdgeReadRsp
  try dsimp only
  repeat' first
    | with_reducible assumption
    | with_reducible apply KeepsO.next
    | with_reducible apply State.edgeRow_keeps

theorem execEdgeMalformedPacket_keeps {b0 s : State} (k : Gw) (pkt : Packet) (hp : [.agenda, .regs, .freeCtr, .detected, .events, .loose, .syn, .pwr, .edg] ⊆ K) (hK : Keeps K b0 s) : KeepsO K b0 (execEdgeMalformedPacket k pkt s) := by
  unfold execEdgeMalformedPacket
  try dsimp only
  repeat' first
    | with_reducible assumption
    | with_reducible apply KeepsO.next
    | with_reducible apply State.edgeIn_keeps
    | with_reducible refine Keeps.ofEq (by with_reducible assumption) ?_
    | with_reducible apply Keeps.ite

theorem State.gwAnswers_keeps {b0 s : State} (k : Nat) (hp : [.agenda, .regs, .freeCtr, .loose, .syn, .edg] ⊆ K) (hK : Keeps K b0 s) : Keeps K b0 (State.gwAnswers s k) := by
  unfold State.gwAnswers
  try dsimp only
  repeat' first
    | with_reducible assumption
    | (with_reducible refine List.Subset.trans ?_ hp; decide)
    | with_reducible apply State.takeAnswers_keeps
    | with_reducible apply State.setGw_keeps
    | with_reducible apply State.countOut_keeps
    | with_reducible apply State.gwLook_keeps
    | with_reducible apply State.answerPkt_keeps
    | with_reducible apply State.edgeIn_keeps
    | with_reducible refine Keeps.ofEq (by with_reducible assumption) ?_
    | with_reducible apply Keeps.ite
    | (with_reducible refine Keeps.foldl ?_ (fun _ _ _ => ?_) <;> try dsimp only)
    | dsimp only
    | split
    | with_reducible apply Keeps.set_syn

theorem execTxRspTimeout_keeps {b0 s : State} (k : Gw) (hp : [.agenda, .regs, .freeCtr, .loose, .syn, .edg] ⊆ K) (hK : Keeps K b0 s) : KeepsO K b0 (execTxRspTimeout k s) := by
  unfold execTxRspTimeout
  try dsimp only
  repeat' first
    | with_reducible assumption
    | (with_reducible refine List.Subset.trans ?_ hp; decide)
    | with_reducible apply KeepsO.next
    | with_reducible apply State.setGw_keeps
    | with_reducible apply State.txHead_keeps
    | with_reducible apply State.txExpire_keeps
    | with_reducible apply State.gwAnswers_keeps
    | with_reducible refine Keeps.ofEq (by with_reducible assumption) ?_
    | with_reducible apply Keeps.ite
    | with_reducible apply KeepsO.ite
    | dsimp only
    | split

theorem execEdgeLinkUp_keeps {b0 s : State} (k : Gw) (hp : [.agenda, .regs, .freeCtr, .edg] ⊆ K) (hK : Keeps K b0 s) : KeepsO K b0 (execEdgeLinkUp k s) := by
  unfold execEdgeLinkUp
  try dsimp only
  repeat' first
    | with_reducible assumption
    | (with_reducible refine List.Subset.trans ?_ hp; decide)
    | with_reducible apply KeepsO.next
    | with_reducible apply State.put_keeps
    | with_reducible apply State.at'_keeps
    | with_reducible apply State.disarm_keeps
    | with_reducible apply State.setGw_keeps
    | with_reducible apply State.txHead_keeps
    | with_reducible apply State.sendHello_keeps
    | with_reducible refine Keeps.ofEq (by with_reducible assumption) ?_
    | with_reducible apply Keeps.ite
    | (with_reducible refine Keeps.foldl ?_ (fun _ _ _ => ?_) <;> try dsimp only)

theorem execEdgeLinkDown_keeps {b0 s : State} (k : Gw) (hp : [.agenda, .regs, .events, .edg] ⊆ K) (hK : Keeps K b0 s) : KeepsO K b0 (execEdgeLinkDown k s) := by
  unfold execEdgeLinkDown
  try dsimp only
  repeat' first
    | with_reducible assumption
    | (with_reducible refine List.Subset.trans ?_ hp; decide)
    | with_reducible apply KeepsO.next
    | with_reducible apply State.put_keeps
    | with_reducible apply State.partTo_keeps
    | with_reducible refine Keeps.ofEq (by with_reducible assumption) ?_
    | with_reducible apply Keeps.ite
    | (with_reducible refine Keeps.foldl ?_ (fun _ _ _ => ?_) <;> try dsimp only)

theorem execHelloRepeat_keeps {b0 s : State} (k : Gw) (hp : [.agenda, .regs, .freeCtr, .edg] ⊆ K) (hK : Keeps K b0 s) : KeepsO K b0 (execHelloRepeat k s) := by
  unfold execHelloRepeat
  try dsimp only
  repeat' first
    | with_reducible assumption
    | (with_reducible refine List.Subset.trans ?_ hp; decide)
    | with_reducible apply KeepsO.next
    | with_reducible apply State.at'_keeps
    | with_reducible apply State.sendHello_keeps
    | with_reducible refine Keeps.ofEq (by with_reducible assumption) ?_
    | with_reducible apply Keeps.ite
    | (with_reducible refine Keeps.foldl ?_ (fun _ _ _ => ?_) <;> try dsimp only)

theorem execKeepaliveSend_keeps {b0 s : State} (p : Partner) (hp : [.agenda, .regs, .freeCtr, .edg] ⊆ K) (hK : Keeps K b0 s) : KeepsO K b0 (execKeepaliveSend p s) := by
  unfold execKeepaliveSend
  try dsimp only
  repeat' first
    | with_reducible assumption
    | (with_reducible refine List.Subset.trans ?_ hp; decide)
    | with_reducible apply KeepsO.next
    | with_reducible apply State.at'_keeps
    | with_reducible apply State.sendPkt_keeps
    | with_reducible refine Keeps.ofEq (by with_reducible assumption) ?_
    | with_reducible apply Keeps.ite

theorem execPartnerTimeout_keeps {b0 s : State} (p : Partner) (hp : [.agenda, .regs, .events, .edg] ⊆ K) (hK : Keeps K b0 s) : KeepsO K b0 (execPartnerTimeout p s) := by
  unfold execPartnerTimeout
  try dsimp only
  repeat' first
    | with_reducible assumption
    | (with_reducible refine List.Subset.trans ?_ hp; decide)
    | with_reducible apply KeepsO.next
    | with_reducible apply State.at'_keeps
    | with_reducible apply State.partTo_keeps
    | with_reducible refine Keeps.ofEq (by with_reducible assumption) ?_
    | with_reducible apply Keeps.ite

theorem State.edgeGo_keeps {b0 s : State} (k : Nat) (v : W32) (hp : [.agenda, .regs, .edg] ⊆ K) (hK : Keeps K b0 s) : Keeps K b0 (State.edgeGo s k v) := by
  unfold State.edgeGo
  try dsimp only
  repeat' first
    | with_reducible assumption
    | (with_reducible refine List.Subset.trans ?_ hp; decide)
    | with_reducible apply State.put_keeps
    | with_reducible apply State.later_keeps
    | with_reducible apply State.setGw_keeps
    | with_reducible refine Keeps.ofEq (by with_reducible assumption) ?_
    | with_reducible apply Keeps.ite

theorem State.setCmd_keeps {b0 s : State} (k : Nat) (c : EdgeCmd) (hp : [.regs, .edg] ⊆ K) (hK : Keeps K b0 s) : Keeps K b0 (State.setCmd s k c) := by
  unfold State.setCmd
  try dsimp only
  repeat' first
    | with_reducible assumption
    | (with_reducible refine List.Subset.trans ?_ hp; decide)
    | with_reducible apply State.setGw_keeps
    | with_reducible apply State.countOut_keeps

theorem State.cmdPkt_keeps {b0 s : State} (k : Nat) (c : EdgeCmd) (typ off len addr arg : Nat) (payload : List Byte) (hp : [.agenda, .regs, .freeCtr, .edg] ⊆ K) (hK : Keeps K b0 s) : Keeps K b0 (State.cmdPkt s k c typ off len addr arg payload).1 := by
  unfold State.cmdPkt
  try dsimp only
  repeat' first
    | with_reducible assumption
    | (with_reducible refine List.Subset.trans ?_ hp; decide)
    | with_reducible apply State.at'_keeps
    | with_reducible apply State.setGw_keeps
    | with_reducible apply State.sendPkt_keeps

theorem State.cmdAnswers_keeps {b0 s : State} (k : Nat) (c : EdgeCmd) (hp : [.loose] ⊆ K) (hK : Keeps K b0 s) : Keeps K b0 (State.cmdAnswers s k c).1 := by
  unfold State.cmdAnswers
  try dsimp only
  repeat' first
    | with_reducible assumption
    | with_reducible apply State.takeAnswers_keeps

theorem State.putStep_keeps {b0 s : State} (k : Nat) (c : EdgeCmd) (hp : [.agenda, .regs, .freeCtr, .detected, .loose, .syn, .pwr, .edg] ⊆ K) (hK : Keeps K b0 s) : Keeps K b0 (State.putStep s k c) := by
  unfold State.putStep
  try dsimp only
  repeat' first
    | with_reducible assumption
    | (with_reducible refine List.Subset.trans ?_ hp; decide)
    | with_reducible apply State.fresh_keeps
    | with_reducible apply State.violate_keeps
    | with_reducible apply State.issueLoose_keeps
    | with_reducible apply State.edgeEnd_keeps
    | with_reducible apply State.setCmd_keeps
    | with_reducible apply State.cmdPkt_keeps
    | with_reducible apply State.cmdAnswers_keeps
    | with_reducible refine Keeps.ofEq (by with_reducible assumption) ?_
    | with_reducible apply Keeps.ite
    | (with_reducible refine Keeps.foldlP ?_ (fun _ _ _ => ?_) <;> try dsimp only)
    | exact fun _ hu => hu
    | dsimp only
    | split

theorem State.getStep_keeps {b0 s : State} (k : Nat) (c : EdgeCmd) (hp : [.agenda, .regs, .freeCtr, .loose, .edg] ⊆ K) (hK : Keeps K b0 s) : Keeps K b0 (State.getStep s k c) := by
  unfold State.getStep
  try dsimp only
  repeat' first
    | with_reducible assumption
    | (with_reducible refine List.Subset.trans ?_ hp; decide)
    | with_reducible apply State.edgeEnd_keeps
    | with_reducible apply State.setCmd_keeps
    | with_reducible apply State.cmdPkt_keeps
    | with_reducible apply State.cmdAnswers_keeps
    | with_reducible refine Keeps.ofEq (by with_reducible assumption) ?_
    | with_reducible apply Keeps.ite
    | (with_reducible refine Keeps.foldlP ?_ (fun _ _ _ => ?_) <;> try dsimp only)
    | dsimp only
    | split

theorem State.killedCmds_keeps {b0 s : State} (k : Nat) (hp : [.regs, .edg] ⊆ K) (hK : Keeps K b0 s) : Keeps K b0 (State.killedCmds s k) := by
  unfold State.killedCmds
  dsimp only
  repeat' first
    | with_reducible assumption
    | (with_reducible refine List.Subset.trans ?_ hp; decide)
    | with_reducible apply State.put_keeps
    | with_reducible apply State.incBy_keeps
    | with_reducible apply State.setGw_keeps
    | with_reducible apply Keeps.ite

theorem State.edgeStep_keeps {b0 s : State} (k op : Nat) (hp : [.agenda, .regs, .freeCtr, .detected, .loose, .syn, .pwr, .edg] ⊆ K) (hK : Keeps K b0 s) : Keeps K b0 (State.edgeStep s k op) := by
  unfold State.edgeStep
  try dsimp only
  repeat' first
    | with_reducible assumption
    | (with_reducible refine List.Subset.trans ?_ hp; decide)
    | with_reducible apply State.started_keeps
    | with_reducible apply State.killedCmds_keeps
    | with_reducible apply State.edgeEnd_keeps
    | with_reducible apply State.setCmd_keeps
    | with_reducible apply State.cmdPkt_keeps
    | with_reducible apply State.putStep_keeps
    | with_reducible apply State.getStep_keeps
    | with_reducible refine Keeps.ofEq (by with_reducible assumption) ?_
    | with_reducible apply Keeps.ite
    | dsimp only
    | split

theorem execEdgePut_keeps {b0 s : State} (k : Gw) (hp : [.agenda, .regs, .freeCtr, .detected, .loose, .syn, .pwr, .edg] ⊆ K) (hK : Keeps K b0 s) : KeepsO K b0 (execEdgePut k s) := by
  unfold execEdgePut
  try dsimp only
  repeat' first
    | with_reducible assumption
    | with_reducible apply KeepsO.next
    | with_reducible apply State.edgeStep_keeps

theorem execEdgeGet_keeps {b0 s : State} (k : Gw) (hp : [.agenda, .regs, .freeCtr, .detected, .loose, .syn, .pwr, .edg] ⊆ K) (hK : Keeps K b0 s) : KeepsO K b0 (execEdgeGet k s) := by
  unfold execEdgeGet
  try dsimp only
  repeat' first
    | with_reducible assumption
    | with_reducible apply KeepsO.next
    | with_reducible apply State.edgeStep_keeps

theorem execEdgeIncCmd_keeps {b0 s : State} (k : Gw) (hp : [.agenda, .regs, .freeCtr, .detected, .loose, .syn, .pwr, .edg] ⊆ K) (hK : Keeps K b0 s) : KeepsO K b0 (execEdgeIncCmd k s) := by
  unfold execEdgeIncCmd
  try dsimp only
  repeat' first
    | with_reducible assumption
    | with_reducible apply KeepsO.next
    | with_reducible apply State.edgeStep_keeps

theorem execEdgePacketTimeout_keeps {b0 s : State} (k : Gw) (hp : [.agenda, .regs, .edg] ⊆ K) (hK : Keeps K b0 s) : KeepsO K b0 (execEdgePacketTimeout k s) := by
  unfold execEdgePacketTimeout
  try dsimp only
  repeat' first
    | with_reducible assumption
    | with_reducible apply KeepsO.next
    | with_reducible apply State.edgeEnd_keeps
    | with_reducible refine Keeps.ofEq (by with_reducible assumption) ?_
    | with_reducible apply Keeps.ite
    | with_reducible apply KeepsO.ite
    | dsimp only
    | split

theorem State.keyGo_keeps {b0 s : State} (p : Nat) (hp : [.agenda, .regs, .events, .edg] ⊆ K) (hK : Keeps K b0 s) : Keeps K b0 (State.keyGo s p) := by
  unfold State.keyGo
  try dsimp only
  repeat' first
    | with_reducible assumption
    | (with_reducible refine List.Subset.trans ?_ hp; decide)
    | with_reducible apply State.put_keeps
    | with_reducible apply State.setPair_keeps
    | with_reducible apply State.setPart_keeps
    | with_reducible apply State.partTo_keeps
    | with_reducible refine Keeps.ofEq (by with_reducible assumption) ?_
    | with_reducible apply Keeps.ite

theorem State.ptCtl_keeps {b0 s : State} (m : Master) (p : Nat) (v : W32) (hp : [.agenda, .regs, .detected, .events, .edg] ⊆ K) (hK : Keeps K b0 s) : Keeps K b0 (State.ptCtl s m p v) := by
  unfold State.ptCtl
  try dsimp only
  repeat' first
    | with_reducible assumption
    | (with_reducible refine List.Subset.trans ?_ hp; decide)
    | with_reducible apply State.put_keeps
    | with_reducible apply State.gate_keeps
    | with_reducible apply State.partTo_keeps
    | with_reducible apply State.keyGo_keeps
    | with_reducible refine Keeps.ofEq (by with_reducible assumption) ?_
    | with_reducible apply Keeps.ite
    | (intro _ _; try dsimp only)

theorem execPartnerKeyGo_keeps {b0 s : State} (m : Master) (p : Partner) (v : W32) (hp : [.agenda, .regs, .detected, .events, .edg] ⊆ K) (hK : Keeps K b0 s) : KeepsO K b0 (execPartnerKeyGo m p v s) := by
  unfold execPartnerKeyGo
  try dsimp only
  repeat' first
    | with_reducible assumption
    | (with_reducible refine List.Subset.trans ?_ hp; decide)
    | with_reducible apply KeepsO.next
    | with_reducible apply State.row_keeps
    | with_reducible apply State.ptCtl_keeps
    | with_reducible refine Keeps.ofEq (by with_reducible assumption) ?_
    | with_reducible apply Keeps.ite
    | with_reducible apply KeepsO.ite
    | (intro _ _ <;> try dsimp only)

theorem execPartnerClear_keeps {b0 s : State} (m : Master) (p : Partner) (v : W32) (hp : [.agenda, .regs, .detected, .events, .edg] ⊆ K) (hK : Keeps K b0 s) : KeepsO K b0 (execPartnerClear m p v s) := by
  unfold execPartnerClear
  try dsimp only
  repeat' first
    | with_reducible assumption
    | (with_reducible refine List.Subset.trans ?_ hp; decide)
    | with_reducible apply KeepsO.next
    | with_reducible apply State.row_keeps
    | with_reducible apply State.ptCtl_keeps
    | with_reducible refine Keeps.ofEq (by with_reducible assumption) ?_
    | with_reducible apply Keeps.ite
    | with_reducible apply KeepsO.ite
    | (intro _ _ <;> try dsimp only)

theorem State.gwOut_keeps {b0 s : State} (k cause : Nat) (hp : [.agenda, .regs, .events, .edg] ⊆ K) (hK : Keeps K b0 s) : Keeps K b0 (State.gwOut s k cause) := by
  unfold State.gwOut
  try dsimp only
  repeat' first
    | with_reducible assumption
    | (with_reducible refine List.Subset.trans ?_ hp; decide)
    | with_reducible apply State.setGw_keeps
    | with_reducible apply State.edgeEnd_keeps
    | with_reducible apply State.partTo_keeps
    | with_reducible refine Keeps.ofEq (by with_reducible assumption) ?_
    | with_reducible apply Keeps.ite
    | (with_reducible refine Keeps.foldl ?_ (fun _ _ _ => ?_) <;> try dsimp only)

theorem execEdgeEnWrite_keeps {b0 s : State} (m : Master) (k : Gw) (v : W32) (hp : [.agenda, .regs, .detected, .events, .edg] ⊆ K) (hK : Keeps K b0 s) : KeepsO K b0 (execEdgeEnWrite m k v s) := by
  unfold execEdgeEnWrite
  try dsimp only
  repeat' first
    | with_reducible assumption
    | (with_reducible refine List.Subset.trans ?_ hp; decide)
    | with_reducible apply KeepsO.next
    | with_reducible apply State.put_keeps
    | with_reducible apply State.locked_keeps
    | with_reducible apply State.gate_keeps
    | with_reducible apply State.row_keeps
    | with_reducible apply State.gwOut_keeps
    | with_reducible refine Keeps.ofEq (by with_reducible assumption) ?_
    | with_reducible apply Keeps.ite
    | with_reducible apply KeepsO.ite
    | (intro _ _ <;> try dsimp only)
end Sys2Proof.Machine
end

