-- ==== Sys2Proof/Laws/KeepsMap.lean ====
section
/-! SUPPORT. What the operations and commands of Machine/Map.lean leave alone: one lemma each, in the terms of `Keeps`. The list each
asks for holds the parts it may change. -/
namespace Sys2Proof.Machine
variable {K : List Part}
theorem State.setCount_keeps {b0 s : State} (g n : Nat) (hp : [.regs, .detected] ⊆ K) (hK : Keeps K b0 s) : Keeps K b0 (State.setCount s g n) := by
  unfold State.setCount
  try dsimp only
  repeat' first
    | with_reducible assumption
    | (with_reducible refine List.Subset.trans ?_ hp; decide)
    | with_reducible apply State.put_keeps
    | with_reducible apply State.locked_keeps
    | with_reducible refine Keeps.ofEq (by with_reducible assumption) ?_
    | with_reducible apply Keeps.ite

theorem State.setCur_keeps {b0 s : State} (g : Nat) (hp : [.regs, .detected] ⊆ K) (hK : Keeps K b0 s) : Keeps K b0 (State.setCur s g) := by
  unfold State.setCur
  try dsimp only
  repeat' first
    | with_reducible assumption
    | (with_reducible refine List.Subset.trans ?_ hp; decide)
    | with_reducible apply State.put_keeps
    | with_reducible apply State.err_keeps
    | with_reducible refine Keeps.ofEq (by with_reducible assumption) ?_
    | with_reducible apply Keeps.ite

theorem State.cmapCtl_keeps {b0 s : State} (v : W32) (hp : [.agenda, .regs, .detected, .outs, .loose, .hfp] ⊆ K) (hK : Keeps K b0 s) : Keeps K b0 (State.cmapCtl s v) := by
  unfold State.cmapCtl
  try dsimp only
  repeat' first
    | with_reducible assumption
    | (with_reducible refine List.Subset.trans ?_ hp; decide)
    | with_reducible apply State.mapMoved_keeps
    | with_reducible apply State.setCount_keeps
    | with_reducible apply State.setCur_keeps

theorem execCmapCtlWrite_keeps {b0 s : State} (m : Master) (v : W32) (hp : [.agenda, .regs, .detected, .outs, .loose, .hfp] ⊆ K) (hK : Keeps K b0 s) : KeepsO K b0 (execCmapCtlWrite m v s) := by
  unfold execCmapCtlWrite
  try dsimp only
  repeat' first
    | with_reducible assumption
    | (with_reducible refine List.Subset.trans ?_ hp; decide)
    | with_reducible apply KeepsO.next
    | with_reducible apply State.gate_keeps
    | with_reducible apply State.row_keeps
    | with_reducible apply State.cmapCtl_keeps
    | with_reducible refine Keeps.ofEq (by with_reducible assumption) ?_
    | with_reducible apply Keeps.ite
    | with_reducible apply KeepsO.ite
    | (intro _ _ <;> try dsimp only)

theorem State.setMap_keeps {b0 s : State} (g n phys : Nat) (valid : Bool) (hp : [.regs] ⊆ K) (hK : Keeps K b0 s) : Keeps K b0 (State.setMap s g n phys valid) := by
  unfold State.setMap
  try dsimp only
  repeat' first
    | with_reducible assumption
    | with_reducible apply State.puts_keeps

theorem execCmapEntryWrite_keeps {b0 s : State} (m : Master) (g : Fin 2) (n : Fin 128) (v : W32) (hp : [.agenda, .regs, .detected, .outs, .loose, .hfp] ⊆ K) (hK : Keeps K b0 s) : KeepsO K b0 (execCmapEntryWrite m g n v s) := by
  unfold execCmapEntryWrite
  try dsimp only
  repeat' first
    | with_reducible assumption
    | (with_reducible refine List.Subset.trans ?_ hp; decide)
    | with_reducible apply KeepsO.next
    | with_reducible apply State.gate_keeps
    | with_reducible apply State.row_keeps
    | with_reducible apply State.mapMoved_keeps
    | with_reducible apply State.setMap_keeps
    | with_reducible refine Keeps.ofEq (by with_reducible assumption) ?_
    | with_reducible apply Keeps.ite
    | with_reducible apply KeepsO.ite
    | (intro _ _ <;> try dsimp only)

theorem State.detAll_keeps {b0 s : State} (hp : [.regs] ⊆ K) (hK : Keeps K b0 s) : Keeps K b0 (State.detAll s) := by
  unfold State.detAll
  try dsimp only
  repeat' first
    | with_reducible assumption
    | with_reducible apply State.puts_keeps
    | with_reducible refine Keeps.ofEq (by with_reducible assumption) ?_
    | with_reducible apply Keeps.ite
    | (with_reducible refine Keeps.foldl ?_ (fun _ _ _ => ?_) <;> try dsimp only)

theorem execDetWrite_keeps {b0 s : State} (m : Master) (n : Cab) (v : W32) (hp : [.agenda, .regs, .detected] ⊆ K) (hK : Keeps K b0 s) : KeepsO K b0 (execDetWrite m n v s) := by
  unfold execDetWrite
  try dsimp only
  repeat' first
    | with_reducible assumption
    | (with_reducible refine List.Subset.trans ?_ hp; decide)
    | with_reducible apply KeepsO.next
    | with_reducible apply State.setReg_keeps
    | with_reducible apply State.gate_keeps
    | with_reducible apply State.row_keeps
    | with_reducible refine Keeps.ofEq (by with_reducible assumption) ?_
    | with_reducible apply Keeps.ite
    | with_reducible apply KeepsO.ite
    | (intro _ _ <;> try dsimp only)

theorem State.rebuildMap_keeps {b0 s : State} (g : Nat) (hp : [.agenda, .regs, .detected, .events, .outs, .loose, .hfp] ⊆ K) (hK : Keeps K b0 s) : Keeps K b0 (State.rebuildMap s g) := by
  unfold State.rebuildMap
  try dsimp only
  repeat' first
    | with_reducible assumption
    | (with_reducible refine List.Subset.trans ?_ hp; decide)
    | with_reducible apply State.put_keeps
    | with_reducible apply State.event_keeps
    | with_reducible apply State.mapMoved_keeps
    | with_reducible apply State.setCur_keeps
    | with_reducible apply State.setMap_keeps
    | with_reducible refine Keeps.ofEq (by with_reducible assumption) ?_
    | with_reducible apply Keeps.ite
    | (with_reducible refine Keeps.foldl ?_ (fun _ _ _ => ?_) <;> try dsimp only)
    | dsimp only
    | split

theorem execMapRebuild_keeps {b0 s : State} (hp : [.agenda, .regs, .freeCtr, .detected, .events, .outs, .loose, .rep, .hfp] ⊆ K) (hK : Keeps K b0 s) : KeepsO K b0 (execMapRebuild s) := by
  unfold execMapRebuild
  try dsimp only
  repeat' first
    | with_reducible assumption
    | (with_reducible refine List.Subset.trans ?_ hp; decide)
    | with_reducible apply KeepsO.next
    | with_reducible apply State.later_keeps
    | with_reducible apply State.arm_keeps
    | with_reducible apply State.useFree_keeps
    | with_reducible apply State.event_keeps
    | with_reducible apply State.detAll_keeps
    | with_reducible apply State.rebuildMap_keeps
    | with_reducible refine Keeps.ofEq (by with_reducible assumption) ?_
    | with_reducible apply Keeps.ite
    | with_reducible apply KeepsO.ite
    | dsimp only
    | split
    | with_reducible apply Keeps.set_rep
end Sys2Proof.Machine
end

