-- ==== Sys2Proof/Laws/KeepsFence.lean ====
section
/-! SUPPORT. What the operations and commands of Machine/Fence.lean leave alone: one lemma each, in the terms of `Keeps`. The list each
asks for holds the parts it may change. -/
namespace Sys2Proof.Machine
variable {K : List Part}
theorem execFenceCmd_keeps {b0 s : State} (m : Master) (v : W32) (hp : [.agenda, .regs, .detected, .rep] ⊆ K) (hK : Keeps K b0 s) : KeepsO K b0 (execFenceCmd m v s) := by
  unfold execFenceCmd
  try dsimp only
  repeat' first
    | with_reducible assumption
    | (with_reducible refine List.Subset.trans ?_ hp; decide)
    | with_reducible apply KeepsO.next
    | with_reducible apply State.locked_keeps
    | with_reducible apply State.gate_keeps
    | with_reducible apply State.row_keeps
    | with_reducible apply State.fenceCause_keeps
    | with_reducible refine Keeps.ofEq (by with_reducible assumption) ?_
    | with_reducible apply Keeps.ite
    | with_reducible apply KeepsO.ite
    | (intro _ _ <;> try dsimp only)

theorem execFencePendClear_keeps {b0 s : State} (m : Master) (k : Fin 4) (v : W32) (hp : [.agenda, .regs] ⊆ K) (hK : Keeps K b0 s) : KeepsO K b0 (execFencePendClear m k v s) := by
  unfold execFencePendClear
  try dsimp only
  repeat' first
    | with_reducible assumption
    | (with_reducible refine List.Subset.trans ?_ hp; decide)
    | with_reducible apply KeepsO.next
    | with_reducible apply State.puts_keeps
    | with_reducible apply State.row_keeps
    | with_reducible refine Keeps.ofEq (by with_reducible assumption) ?_
    | with_reducible apply Keeps.ite
    | (with_reducible refine Keeps.foldl ?_ (fun _ _ _ => ?_) <;> try dsimp only)
    | with_reducible apply KeepsO.ite
    | (intro _ _ <;> try dsimp only)

theorem State.ueArm_keeps {b0 s : State} (hp : [.agenda] ⊆ K) (hK : Keeps K b0 s) : Keeps K b0 (State.ueArm s) := by
  unfold State.ueArm
  try dsimp only
  repeat' first
    | with_reducible assumption
    | with_reducible apply State.at'_keeps
    | with_reducible apply State.disarm_keeps

theorem execUeWindowReset_keeps {b0 s : State} (hp : [.agenda, .regs] ⊆ K) (hK : Keeps K b0 s) : KeepsO K b0 (execUeWindowReset s) := by
  unfold execUeWindowReset
  try dsimp only
  repeat' first
    | with_reducible assumption
    | (with_reducible refine List.Subset.trans ?_ hp; decide)
    | with_reducible apply KeepsO.next
    | with_reducible apply State.put_keeps
    | with_reducible apply State.ueArm_keeps
    | with_reducible refine Keeps.ofEq (by with_reducible assumption) ?_
    | with_reducible apply Keeps.ite
    | (with_reducible refine Keeps.foldl ?_ (fun _ _ _ => ?_) <;> try dsimp only)

theorem State.setPoll_keeps {b0 s : State} (p : Nat) (x : PollSt) (hp : [.rep] ⊆ K) (hK : Keeps K b0 s) : Keeps K b0 (State.setPoll s p x) := by
  unfold State.setPoll
  try dsimp only
  repeat' first
    | with_reducible assumption
    | with_reducible apply State.idle_keeps
    | with_reducible refine Keeps.ofEq (by with_reducible assumption) ?_
    | with_reducible apply Keeps.ite
    | dsimp only
    | split
    | with_reducible apply Keeps.set_rep

theorem State.pollAgain_keeps {b0 s : State} (cab : Cab) (hp : [.agenda] ⊆ K) (hK : Keeps K b0 s) : Keeps K b0 (State.pollAgain s cab) := by
  unfold State.pollAgain
  try dsimp only
  repeat' first
    | with_reducible assumption
    | with_reducible apply State.at'_keeps
    | with_reducible apply State.disarm_keeps

theorem execStationPoll_keeps {b0 s : State} (cab : Cab) (answered : Bool) (hp : [.agenda, .rep] ⊆ K) (hK : Keeps K b0 s) : KeepsO K b0 (execStationPoll cab answered s) := by
  unfold execStationPoll
  try dsimp only
  repeat' first
    | with_reducible assumption
    | (with_reducible refine List.Subset.trans ?_ hp; decide)
    | with_reducible apply KeepsO.next
    | with_reducible apply State.later_keeps
    | with_reducible apply State.disarm_keeps
    | with_reducible apply State.setPoll_keeps
    | with_reducible apply State.pollAgain_keeps
    | with_reducible apply State.idle_keeps
    | with_reducible refine Keeps.ofEq (by with_reducible assumption) ?_
    | with_reducible apply Keeps.ite

theorem execPollMissed_keeps {b0 s : State} (cab : Cab) (hp : [.agenda, .regs, .rep] ⊆ K) (hK : Keeps K b0 s) : KeepsO K b0 (execPollMissed cab s) := by
  unfold execPollMissed
  try dsimp only
  repeat' first
    | with_reducible assumption
    | (with_reducible refine List.Subset.trans ?_ hp; decide)
    | with_reducible apply KeepsO.next
    | with_reducible apply State.fenceCause_keeps
    | with_reducible apply State.setPoll_keeps
    | with_reducible refine Keeps.ofEq (by with_reducible assumption) ?_
    | with_reducible apply Keeps.ite
    | with_reducible apply KeepsO.ite
    | dsimp only
    | split

theorem State.ghostFlit_keeps {b0 s : State} (f : LFlit) (hp : [.agenda, .freeCtr, .loose] ⊆ K) (hK : Keeps K b0 s) : Keeps K b0 (State.ghostFlit s f) := by
  unfold State.ghostFlit
  try dsimp only
  repeat' first
    | with_reducible assumption
    | (with_reducible refine List.Subset.trans ?_ hp; decide)
    | with_reducible apply State.later_keeps
    | with_reducible apply State.useFree_keeps
    | with_reducible apply State.fresh_keeps
    | with_reducible apply State.setFlitAs_keeps
    | with_reducible apply State.dropFlit_keeps
    | with_reducible refine Keeps.ofEq (by with_reducible assumption) ?_
    | with_reducible apply Keeps.ite
    | exact fun _ hu => hu
    | dsimp only
    | split
    | with_reducible apply Keeps.set_loose

theorem State.perhapsWrite_keeps {b0 s : State} (q : LReq) (at' : Option Nat) (hp : [.agenda, .regs, .freeCtr, .detected, .loose, .syn, .pwr] ⊆ K) (hK : Keeps K b0 s) : Keeps K b0 (State.perhapsWrite s q at') := by
  unfold State.perhapsWrite
  try dsimp only
  repeat' first
    | with_reducible assumption
    | (with_reducible refine List.Subset.trans ?_ hp; decide)
    | with_reducible apply State.useFree_keeps
    | with_reducible apply State.arrive_keeps
    | with_reducible refine Keeps.ofEq (by with_reducible assumption) ?_
    | with_reducible apply Keeps.ite
    | dsimp only
    | split

theorem State.fenceAnswer_keeps {b0 s : State} (q : LReq) (hp : [.agenda, .regs, .freeCtr, .detected, .loose, .syn, .pwr] ⊆ K) (hK : Keeps K b0 s) : Keeps K b0 (State.fenceAnswer s q) := by
  unfold State.fenceAnswer
  try dsimp only
  repeat' first
    | with_reducible assumption
    | (with_reducible refine List.Subset.trans ?_ hp; decide)
    | with_reducible apply State.drained_keeps
    | with_reducible apply State.replyNow_keeps
    | with_reducible apply State.withdraw_keeps
    | with_reducible apply State.ghostFlit_keeps
    | with_reducible apply State.perhapsWrite_keeps
    | with_reducible refine Keeps.ofEq (by with_reducible assumption) ?_
    | with_reducible apply Keeps.ite
    | (with_reducible refine Keeps.foldl ?_ (fun _ _ _ => ?_) <;> try dsimp only)
    | exact fun _ hu => hu
    | dsimp only
    | split
    | with_reducible apply Keeps.set_loose

theorem State.fencePairs_keeps {b0 s : State} (p : Nat) (hp : [.loose] ⊆ K) (hK : Keeps K b0 s) : Keeps K b0 (State.fencePairs s p) := by
  unfold State.fencePairs
  try dsimp only
  repeat' first
    | with_reducible assumption
    | with_reducible apply State.setPairSt_keeps
    | with_reducible apply State.idle_keeps
    | with_reducible refine Keeps.ofEq (by with_reducible assumption) ?_
    | with_reducible apply Keeps.ite
    | (with_reducible refine Keeps.foldl ?_ (fun _ _ _ => ?_) <;> try dsimp only)

theorem State.lostWork_keeps {b0 s : State} (l : Nat × Nat) (idx : Nat) (hp : [.agenda, .regs, .runners, .leave] ⊆ K) (hK : Keeps K b0 s) : Keeps K b0 (State.lostWork s l idx) := by
  unfold State.lostWork
  try dsimp only
  repeat' first
    | with_reducible assumption
    | (with_reducible refine List.Subset.trans ?_ hp; decide)
    | with_reducible apply State.endList_keeps
    | with_reducible apply State.descDone_keeps

theorem State.fenceRunner_keeps {b0 s : State} (p r : Nat) (hp : [.agenda, .regs, .runners, .leave] ⊆ K) (hK : Keeps K b0 s) : Keeps K b0 (State.fenceRunner s p r) := by
  unfold State.fenceRunner
  try dsimp only
  repeat' first
    | with_reducible assumption
    | (with_reducible refine List.Subset.trans ?_ hp; decide)
    | with_reducible apply State.arm_keeps
    | with_reducible apply State.setRunner_keeps
    | with_reducible apply State.leaveDrop_keeps
    | with_reducible apply State.leaveBack_keeps
    | with_reducible apply State.kick_keeps
    | with_reducible apply State.lostWork_keeps
    | with_reducible apply State.idle_keeps
    | with_reducible refine Keeps.ofEq (by with_reducible assumption) ?_
    | with_reducible apply Keeps.ite
    | (with_reducible refine Keeps.foldl ?_ (fun _ _ _ => ?_) <;> try dsimp only)
    | dsimp only
    | split
    | with_reducible apply Keeps.set_runners

theorem State.sweepsOver_keeps {b0 s : State} (p : Nat) (hp : [.agenda, .regs, .rep] ⊆ K) (hK : Keeps K b0 s) : Keeps K b0 (State.sweepsOver s p) := by
  unfold State.sweepsOver
  try dsimp only
  repeat' first
    | with_reducible assumption
    | (with_reducible refine List.Subset.trans ?_ hp; decide)
    | with_reducible apply State.setSwp_keeps
    | with_reducible apply State.sweepOver_keeps
    | with_reducible apply State.idle_keeps
    | with_reducible refine Keeps.ofEq (by with_reducible assumption) ?_
    | with_reducible apply Keeps.ite
    | (with_reducible refine Keeps.foldl ?_ (fun _ _ _ => ?_) <;> try dsimp only)
    | dsimp only
    | split
    | with_reducible apply Keeps.set_rep

theorem State.fenceEngines_keeps {b0 s : State} (p : Nat) (hp : [.agenda, .regs, .rep, .fifos, .pwr, .leave] ⊆ K) (hK : Keeps K b0 s) : Keeps K b0 (State.fenceEngines s p) := by
  unfold State.fenceEngines
  try dsimp only
  repeat' first
    | with_reducible assumption
    | (with_reducible refine List.Subset.trans ?_ hp; decide)
    | with_reducible apply State.endCmd_keeps
    | with_reducible apply State.setAsy_keeps
    | with_reducible apply State.leaveDrop_keeps
    | with_reducible apply State.leaveBack_keeps
    | with_reducible apply State.fifoFlush_keeps
    | with_reducible apply State.sweepsOver_keeps
    | with_reducible refine Keeps.ofEq (by with_reducible assumption) ?_
    | with_reducible apply Keeps.ite
    | (with_reducible refine Keeps.foldl ?_ (fun _ _ _ => ?_) <;> try dsimp only)

theorem State.fenceSet_keeps {b0 s : State} (p : Nat) (hp : [.agenda, .regs, .detected, .stp, .set, .syn, .runners] ⊆ K) (hK : Keeps K b0 s) : Keeps K b0 (State.fenceSet s p) := by
  unfold State.fenceSet
  try dsimp only
  repeat' first
    | with_reducible assumption
    | (with_reducible refine List.Subset.trans ?_ hp; decide)
    | with_reducible apply State.drained_keeps
    | with_reducible apply State.dropSet_keeps
    | with_reducible apply State.lateFlit_keeps
    | with_reducible refine Keeps.ofEq (by with_reducible assumption) ?_
    | with_reducible apply Keeps.ite
    | (with_reducible refine Keeps.foldl ?_ (fun _ _ _ => ?_) <;> try dsimp only)
    | exact fun _ hu => hu
    | dsimp only
    | split
    | with_reducible apply Keeps.set_set

theorem State.fenceSignals_keeps {b0 s : State} (p : Nat) (hp : [.syn] ⊆ K) (hK : Keeps K b0 s) : Keeps K b0 (State.fenceSignals s p) := by
  unfold State.fenceSignals
  try dsimp only
  repeat' first
    | with_reducible assumption
    | with_reducible apply State.edgeOutcome_keeps
    | with_reducible apply State.dropSigs_keeps
    | with_reducible refine Keeps.ofEq (by with_reducible assumption) ?_
    | with_reducible apply Keeps.ite
    | (with_reducible refine Keeps.foldl ?_ (fun _ _ _ => ?_) <;> try dsimp only)

theorem State.laneFence_keeps {b0 s : State} (l : Nat) (hp : [.agenda, .regs, .detected, .events, .frz, .stp, .loose, .syn, .runners, .brg, .leave, .tx] ⊆ K) (hK : Keeps K b0 s) : Keeps K b0 (State.laneFence s l) := by
  unfold State.laneFence
  try dsimp only
  repeat' first
    | with_reducible assumption
    | (with_reducible refine List.Subset.trans ?_ hp; decide)
    | with_reducible apply State.puts_keeps
    | with_reducible apply State.leaveDrop_keeps
    | with_reducible apply State.leaveBack_keeps
    | with_reducible apply State.laneDown_keeps
    | with_reducible refine Keeps.ofEq (by with_reducible assumption) ?_
    | with_reducible apply Keeps.ite

theorem execFenceTakeEffect_keeps {b0 s : State} (cab : Cab) (hp : [.agenda, .regs, .freeCtr, .detected, .events, .frz, .stp, .set, .loose, .rep, .syn, .fifos, .runners, .pwr, .brg, .edg, .leave, .tx] ⊆ K) (hK : Keeps K b0 s) : KeepsO K b0 (execFenceTakeEffect cab s) := by
  unfold execFenceTakeEffect
  try dsimp only
  repeat' first
    | with_reducible assumption
    | (with_reducible refine List.Subset.trans ?_ hp; decide)
    | with_reducible apply KeepsO.next
    | with_reducible apply State.put_keeps
    | with_reducible apply State.puts_keeps
    | with_reducible apply State.later_keeps
    | with_reducible apply State.arm_keeps
    | with_reducible apply State.useFree_keeps
    | with_reducible apply State.event_keeps
    | with_reducible apply State.ctxFault_keeps
    | with_reducible apply State.gwOut_keeps
    | with_reducible apply State.fenceAnswer_keeps
    | with_reducible apply State.fencePairs_keeps
    | with_reducible apply State.fenceRunner_keeps
    | with_reducible apply State.fenceEngines_keeps
    | with_reducible apply State.fenceSet_keeps
    | with_reducible apply State.fenceSignals_keeps
    | with_reducible apply State.laneFence_keeps
    | with_reducible refine Keeps.ofEq (by with_reducible assumption) ?_
    | with_reducible apply Keeps.ite
    | (with_reducible refine Keeps.foldl ?_ (fun _ _ _ => ?_) <;> try dsimp only)
    | with_reducible apply KeepsO.ite
    | dsimp only
    | split
    | with_reducible apply Keeps.set_rep
end Sys2Proof.Machine
end

