-- ==== Sys2Proof/Laws/KeepsPower.lean ====
section
/-! SUPPORT. What the operations and commands of Machine/Power.lean leave alone: one lemma each, in the terms of `Keeps`. The list each
asks for holds the parts it may change. -/
namespace Sys2Proof.Machine
variable {K : List Part}
theorem State.setCmds_keeps {b0 s : State} (l : List PwrCmd) (hp : [.pwr] ⊆ K) (hK : Keeps K b0 s) : Keeps K b0 (State.setCmds s l) := by
  unfold State.setCmds
  try dsimp only
  repeat' first
    | with_reducible assumption
    | with_reducible refine Keeps.ofEq (by with_reducible assumption) ?_
    | with_reducible apply Keeps.ite
    | dsimp only
    | split
    | with_reducible apply Keeps.set_pwr

theorem State.loseStore_keeps {b0 s : State} (p : Nat) (hp : [.mem, .valid] ⊆ K) (hK : Keeps K b0 s) : Keeps K b0 (State.loseStore s p) :=
  Keeps.set_valid (List.Subset.trans (by decide) hp) (Keeps.filterMem _ (List.Subset.trans (by decide) hp) hK)

theorem State.freshCab_keeps {b0 s : State} (p : Nat) (hp : [.regs, .set, .loose, .syn, .fifos, .runners] ⊆ K) (hK : Keeps K b0 s) : Keeps K b0 (State.freshCab s p) := by
  unfold State.freshCab
  try dsimp only
  repeat' first
    | with_reducible assumption
    | (with_reducible refine List.Subset.trans ?_ hp; decide)
    | with_reducible apply State.setRunner_keeps
    | with_reducible apply State.setPairSt_keeps
    | with_reducible apply State.lowerWire_keeps
    | with_reducible apply State.setFifo_keeps
    | with_reducible apply State.idle_keeps
    | with_reducible apply Keeps.filterRegs
    | with_reducible refine Keeps.ofEq (by with_reducible assumption) ?_
    | with_reducible apply Keeps.ite
    | (with_reducible refine Keeps.foldl ?_ (fun _ _ _ => ?_) <;> try dsimp only)
    | dsimp only
    | split
    | with_reducible apply Keeps.set_set
    | with_reducible apply Keeps.set_syn
    | with_reducible apply Keeps.set_all
    | with_reducible exact Or.inl rfl
    | (with_reducible refine Or.inr (List.Subset.trans ?_ hp); decide)

theorem State.commitStart_keeps {b0 s : State} (c : PwrCmd) (p from' : Nat) (hp : [.agenda, .regs, .pwr] ⊆ K) (hK : Keeps K b0 s) : Keeps K b0 (State.commitStart s c p from') := by
  unfold State.commitStart
  try dsimp only
  repeat' first
    | with_reducible assumption
    | (with_reducible refine List.Subset.trans ?_ hp; decide)
    | with_reducible apply State.put_keeps
    | with_reducible apply State.later_keeps
    | with_reducible apply State.setCmds_keeps

theorem State.wakePutOff_keeps {b0 s : State} (p : Nat) (hp : [.agenda, .regs, .leave] ⊆ K) (hK : Keeps K b0 s) : Keeps K b0 (State.wakePutOff s p) := by
  unfold State.wakePutOff
  try dsimp only
  repeat' first
    | with_reducible assumption
    | (with_reducible refine List.Subset.trans ?_ hp; decide)
    | with_reducible apply State.wakeDoze_keeps
    | with_reducible apply State.wakeHold_keeps
    | with_reducible refine Keeps.ofEq (by with_reducible assumption) ?_
    | with_reducible apply Keeps.ite
    | dsimp only
    | split

theorem State.cabCheck_keeps {b0 s : State} (c : PwrCmd) (hp : [.agenda, .regs, .pwr, .leave] ⊆ K) (hK : Keeps K b0 s) : Keeps K b0 (State.cabCheck s c) := by
  unfold State.cabCheck
  try dsimp only
  repeat' first
    | with_reducible assumption
    | (with_reducible refine List.Subset.trans ?_ hp; decide)
    | with_reducible apply State.put_keeps
    | with_reducible apply State.puts_keeps
    | with_reducible apply State.later_keeps
    | with_reducible apply State.refuse_keeps
    | with_reducible apply State.refused_keeps
    | with_reducible apply State.leaveAsk_keeps
    | with_reducible apply State.setCmds_keeps
    | with_reducible apply State.commitStart_keeps
    | with_reducible apply State.wakePutOff_keeps
    | with_reducible refine Keeps.ofEq (by with_reducible assumption) ?_
    | with_reducible apply Keeps.ite
    | dsimp only
    | split

theorem State.cabCmd_keeps {b0 s : State} (m : Master) (p target : Nat) (hp : [.agenda, .regs, .detected, .pwr, .leave] ⊆ K) (hK : Keeps K b0 s) : Keeps K b0 (State.cabCmd s m p target) := by
  unfold State.cabCmd
  try dsimp only
  repeat' first
    | with_reducible assumption
    | (with_reducible refine List.Subset.trans ?_ hp; decide)
    | with_reducible apply State.put_keeps
    | with_reducible apply State.at'_keeps
    | with_reducible apply State.later_keeps
    | with_reducible apply State.refuse_keeps
    | with_reducible apply State.gate_keeps
    | with_reducible apply State.row_keeps
    | with_reducible apply State.setCmds_keeps
    | with_reducible apply State.cabCheck_keeps
    | with_reducible refine Keeps.ofEq (by with_reducible assumption) ?_
    | with_reducible apply Keeps.ite
    | (intro _ _ <;> try dsimp only)
    | dsimp only
    | split

theorem execCabCmdRun_keeps {b0 s : State} (m : Master) (cab : Cab) (hp : [.agenda, .regs, .detected, .pwr, .leave] ⊆ K) (hK : Keeps K b0 s) : KeepsO K b0 (execCabCmdRun m cab s) := by
  unfold execCabCmdRun
  try dsimp only
  repeat' first
    | with_reducible assumption
    | with_reducible apply KeepsO.next
    | with_reducible apply State.cabCmd_keeps

theorem execCabCmdDoze_keeps {b0 s : State} (m : Master) (cab : Cab) (hp : [.agenda, .regs, .detected, .pwr, .leave] ⊆ K) (hK : Keeps K b0 s) : KeepsO K b0 (execCabCmdDoze m cab s) := by
  unfold execCabCmdDoze
  try dsimp only
  repeat' first
    | with_reducible assumption
    | with_reducible apply KeepsO.next
    | with_reducible apply State.cabCmd_keeps

theorem execCabCmdHold_keeps {b0 s : State} (m : Master) (cab : Cab) (hp : [.agenda, .regs, .detected, .pwr, .leave] ⊆ K) (hK : Keeps K b0 s) : KeepsO K b0 (execCabCmdHold m cab s) := by
  unfold execCabCmdHold
  try dsimp only
  repeat' first
    | with_reducible assumption
    | with_reducible apply KeepsO.next
    | with_reducible apply State.cabCmd_keeps

theorem execCabCmdQuench_keeps {b0 s : State} (m : Master) (cab : Cab) (hp : [.agenda, .regs, .detected, .pwr, .leave] ⊆ K) (hK : Keeps K b0 s) : KeepsO K b0 (execCabCmdQuench m cab s) := by
  unfold execCabCmdQuench
  try dsimp only
  repeat' first
    | with_reducible assumption
    | with_reducible apply KeepsO.next
    | with_reducible apply State.cabCmd_keeps

theorem State.entryLeft_keeps {b0 s : State} (p target : Nat) (hp : [.agenda, .regs, .loose, .rep, .leave] ⊆ K) (hK : Keeps K b0 s) : Keeps K b0 (State.entryLeft s p target) := by
  unfold State.entryLeft
  try dsimp only
  repeat' first
    | with_reducible assumption
    | (with_reducible refine List.Subset.trans ?_ hp; decide)
    | with_reducible apply State.setPairSt_keeps
    | with_reducible apply State.sweepsOver_keeps
    | with_reducible apply State.wakePutOff_keeps
    | with_reducible refine Keeps.ofEq (by with_reducible assumption) ?_
    | with_reducible apply Keeps.ite
    | (with_reducible refine Keeps.foldl ?_ (fun _ _ _ => ?_) <;> try dsimp only)

theorem execEntryDrainEnd_keeps {b0 s : State} (cab : Cab) (hp : [.agenda, .regs, .loose, .rep, .pwr, .leave] ⊆ K) (hK : Keeps K b0 s) : KeepsO K b0 (execEntryDrainEnd cab s) := by
  unfold execEntryDrainEnd
  try dsimp only
  repeat' first
    | with_reducible assumption
    | (with_reducible refine List.Subset.trans ?_ hp; decide)
    | with_reducible apply KeepsO.next
    | with_reducible apply State.put_keeps
    | with_reducible apply State.at'_keeps
    | with_reducible apply State.later_keeps
    | with_reducible apply State.endCmd_keeps
    | with_reducible apply State.setCmds_keeps
    | with_reducible apply State.commitStart_keeps
    | with_reducible apply State.entryLeft_keeps
    | with_reducible refine Keeps.ofEq (by with_reducible assumption) ?_
    | with_reducible apply Keeps.ite
    | with_reducible apply KeepsO.ite
    | dsimp only
    | split

theorem execDrainTimeout_keeps {b0 s : State} (cab : Cab) (hp : [.agenda, .regs, .pwr, .leave] ⊆ K) (hK : Keeps K b0 s) : KeepsO K b0 (execDrainTimeout cab s) := by
  unfold execDrainTimeout
  try dsimp only
  repeat' first
    | with_reducible assumption
    | (with_reducible refine List.Subset.trans ?_ hp; decide)
    | with_reducible apply KeepsO.next
    | with_reducible apply State.at'_keeps
    | with_reducible apply State.entryAbort_keeps
    | with_reducible apply State.wakePutOff_keeps
    | with_reducible refine Keeps.ofEq (by with_reducible assumption) ?_
    | with_reducible apply Keeps.ite

theorem execEntryCommitEnd_keeps {b0 s : State} (cab : Cab) (hp : [.agenda, .regs, .mem, .valid, .loose, .rep, .pwr, .leave] ⊆ K) (hK : Keeps K b0 s) : KeepsO K b0 (execEntryCommitEnd cab s) := by
  unfold execEntryCommitEnd
  try dsimp only
  repeat' first
    | with_reducible assumption
    | (with_reducible refine List.Subset.trans ?_ hp; decide)
    | with_reducible apply KeepsO.next
    | with_reducible apply State.at'_keeps
    | with_reducible apply State.endCmd_keeps
    | with_reducible apply State.hfpNext_keeps
    | with_reducible apply State.loseStore_keeps
    | with_reducible apply State.entryLeft_keeps
    | with_reducible refine Keeps.ofEq (by with_reducible assumption) ?_
    | with_reducible apply Keeps.ite
    | with_reducible apply KeepsO.ite
    | dsimp only
    | split

theorem execDozeWakeDone_keeps {b0 s : State} (cab : Cab) (hp : [.agenda, .regs] ⊆ K) (hK : Keeps K b0 s) : KeepsO K b0 (execDozeWakeDone cab s) := by
  unfold execDozeWakeDone
  try dsimp only
  repeat' first
    | with_reducible assumption
    | (with_reducible refine List.Subset.trans ?_ hp; decide)
    | with_reducible apply KeepsO.next
    | with_reducible apply State.puts_keeps
    | with_reducible apply State.inc_keeps
    | with_reducible apply State.later_keeps
    | with_reducible apply State.disarm_keeps
    | with_reducible apply State.refuse_keeps
    | with_reducible apply State.kickCab_keeps
    | with_reducible apply State.hfpNext_keeps
    | with_reducible refine Keeps.ofEq (by with_reducible assumption) ?_
    | with_reducible apply Keeps.ite
    | (with_reducible refine Keeps.foldl ?_ (fun _ _ _ => ?_) <;> try dsimp only)

theorem State.wakeStart_keeps {b0 s : State} (p : Nat) (hp : [.agenda, .regs, .pwr] ⊆ K) (hK : Keeps K b0 s) : Keeps K b0 (State.wakeStart s p) := by
  unfold State.wakeStart
  try dsimp only
  repeat' first
    | with_reducible assumption
    | (with_reducible refine List.Subset.trans ?_ hp; decide)
    | with_reducible apply State.put_keeps
    | with_reducible apply State.later_keeps
    | with_reducible refine Keeps.ofEq (by with_reducible assumption) ?_
    | with_reducible apply Keeps.ite
    | dsimp only
    | split
    | with_reducible apply Keeps.set_pwr

theorem State.reachRun_keeps {b0 s : State} (p : Nat) (hp : [.agenda, .regs, .pwr, .leave] ⊆ K) (hK : Keeps K b0 s) : Keeps K b0 (State.reachRun s p) := by
  unfold State.reachRun
  try dsimp only
  repeat' first
    | with_reducible assumption
    | (with_reducible refine List.Subset.trans ?_ hp; decide)
    | with_reducible apply State.put_keeps
    | with_reducible apply State.endCmd_keeps
    | with_reducible apply State.kickCab_keeps
    | with_reducible apply State.armPair_keeps
    | with_reducible apply State.leaveBack_keeps
    | with_reducible apply State.hfpNext_keeps
    | with_reducible refine Keeps.ofEq (by with_reducible assumption) ?_
    | with_reducible apply Keeps.ite
    | (with_reducible refine Keeps.foldl ?_ (fun _ _ _ => ?_) <;> try dsimp only)

theorem execWakePowerDone_keeps {b0 s : State} (cab : Cab) (hp : [.agenda, .regs, .set, .loose, .rep, .syn, .fifos, .runners, .pwr, .leave] ⊆ K) (hK : Keeps K b0 s) : KeepsO K b0 (execWakePowerDone cab s) := by
  unfold execWakePowerDone
  try dsimp only
  repeat' first
    | with_reducible assumption
    | (with_reducible refine List.Subset.trans ?_ hp; decide)
    | with_reducible apply KeepsO.next
    | with_reducible apply State.setSwp_keeps
    | with_reducible apply State.sweepStart_keeps
    | with_reducible apply State.freshCab_keeps
    | with_reducible apply State.reachRun_keeps
    | with_reducible apply State.idle_keeps
    | with_reducible refine Keeps.ofEq (by with_reducible assumption) ?_
    | with_reducible apply Keeps.ite
    | with_reducible apply KeepsO.ite
    | dsimp only
    | split
    | with_reducible apply Keeps.set_pwr

theorem execFenceQuench_keeps {b0 s : State} (cab : Cab) (hp : [.agenda, .regs, .mem, .valid, .rep, .pwr] ⊆ K) (hK : Keeps K b0 s) : KeepsO K b0 (execFenceQuench cab s) := by
  unfold execFenceQuench
  try dsimp only
  repeat' first
    | with_reducible assumption
    | (with_reducible refine List.Subset.trans ?_ hp; decide)
    | with_reducible apply KeepsO.next
    | with_reducible apply State.put_keeps
    | with_reducible apply State.endCmd_keeps
    | with_reducible apply State.hfpNext_keeps
    | with_reducible apply State.loseStore_keeps
    | with_reducible refine Keeps.ofEq (by with_reducible assumption) ?_
    | with_reducible apply Keeps.ite
    | with_reducible apply KeepsO.ite
    | dsimp only
    | split
    | with_reducible apply Keeps.set_rep

theorem execLeaveGrant_keeps {b0 s : State} (hp : [.agenda, .regs, .loose, .rep, .runners, .pwr, .leave] ⊆ K) (hK : Keeps K b0 s) : KeepsO K b0 (execLeaveGrant s) := by
  unfold execLeaveGrant
  try dsimp only
  repeat' first
    | with_reducible assumption
    | (with_reducible refine List.Subset.trans ?_ hp; decide)
    | with_reducible apply KeepsO.next
    | with_reducible apply State.leaveAsk_keeps
    | with_reducible apply State.leaveTake_keeps
    | with_reducible apply State.asyStart_keeps
    | with_reducible apply State.runnerLeave_keeps
    | with_reducible apply State.winLeave_keeps
    | with_reducible apply State.trainStart_keeps
    | with_reducible apply State.wakeStart_keeps
    | with_reducible refine Keeps.ofEq (by with_reducible assumption) ?_
    | with_reducible apply Keeps.ite
    | with_reducible apply KeepsO.ite
    | dsimp only
    | split

theorem State.emergSet_keeps {b0 s : State} (f : Fld) (b : Bool) (hp : [.agenda, .regs, .events, .pwr] ⊆ K) (hK : Keeps K b0 s) : Keeps K b0 (State.emergSet s f b) := by
  unfold State.emergSet
  try dsimp only
  repeat' first
    | with_reducible assumption
    | (with_reducible refine List.Subset.trans ?_ hp; decide)
    | with_reducible apply State.putb_keeps
    | with_reducible apply State.later_keeps
    | with_reducible apply State.event_keeps
    | with_reducible refine Keeps.ofEq (by with_reducible assumption) ?_
    | with_reducible apply Keeps.ite
    | dsimp only
    | split
    | with_reducible apply Keeps.set_pwr

theorem State.emergCtl_keeps {b0 s : State} (m : Master) (v : W32) (hp : [.agenda, .regs, .detected, .events, .pwr] ⊆ K) (hK : Keeps K b0 s) : Keeps K b0 (State.emergCtl s m v) := by
  unfold State.emergCtl
  try dsimp only
  repeat' first
    | with_reducible assumption
    | (with_reducible refine List.Subset.trans ?_ hp; decide)
    | with_reducible apply State.gate_keeps
    | with_reducible apply State.emergSet_keeps
    | with_reducible refine Keeps.ofEq (by with_reducible assumption) ?_
    | with_reducible apply Keeps.ite
    | (intro _ _; try dsimp only)

theorem execEmergSet_keeps {b0 s : State} (m : Master) (v : W32) (hp : [.agenda, .regs, .detected, .events, .pwr] ⊆ K) (hK : Keeps K b0 s) : KeepsO K b0 (execEmergSet m v s) := by
  unfold execEmergSet
  try dsimp only
  repeat' first
    | with_reducible assumption
    | (with_reducible refine List.Subset.trans ?_ hp; decide)
    | with_reducible apply KeepsO.next
    | with_reducible apply State.row_keeps
    | with_reducible apply State.emergSet_keeps
    | with_reducible apply State.emergCtl_keeps
    | with_reducible refine Keeps.ofEq (by with_reducible assumption) ?_
    | with_reducible apply Keeps.ite
    | with_reducible apply KeepsO.ite
    | (intro _ _ <;> try dsimp only)

theorem execEmergClr_keeps {b0 s : State} (m : Master) (v : W32) (hp : [.agenda, .regs, .detected, .events, .pwr] ⊆ K) (hK : Keeps K b0 s) : KeepsO K b0 (execEmergClr m v s) := by
  unfold execEmergClr
  try dsimp only
  repeat' first
    | with_reducible assumption
    | (with_reducible refine List.Subset.trans ?_ hp; decide)
    | with_reducible apply KeepsO.next
    | with_reducible apply State.row_keeps
    | with_reducible apply State.emergCtl_keeps
    | with_reducible refine Keeps.ofEq (by with_reducible assumption) ?_
    | with_reducible apply Keeps.ite
    | with_reducible apply KeepsO.ite
    | (intro _ _ <;> try dsimp only)

theorem execClampFreeze_keeps {b0 s : State} (hp : [.agenda, .frz, .tx] ⊆ K) (hK : Keeps K b0 s) : KeepsO K b0 (execClampFreeze s) := by
  unfold execClampFreeze
  try dsimp only
  repeat' first
    | with_reducible assumption
    | (with_reducible refine List.Subset.trans ?_ hp; decide)
    | with_reducible apply KeepsO.next
    | with_reducible apply State.later_keeps
    | with_reducible apply State.disarm_keeps
    | with_reducible apply State.frzRaise_keeps
    | with_reducible apply State.frzFall_keeps
    | with_reducible refine Keeps.ofEq (by with_reducible assumption) ?_
    | with_reducible apply Keeps.ite
    | with_reducible apply KeepsO.ite
    | dsimp only
    | split

theorem State.clampEngage_keeps {b0 s : State} (b : Bool) (hp : [.agenda, .regs] ⊆ K) (hK : Keeps K b0 s) : Keeps K b0 (State.clampEngage s b) := by
  unfold State.clampEngage
  try dsimp only
  repeat' first
    | with_reducible assumption
    | (with_reducible refine List.Subset.trans ?_ hp; decide)
    | with_reducible apply State.putb_keeps
    | with_reducible apply State.later_keeps

theorem State.autoOff_keeps {b0 s : State} (hp : [.agenda, .regs, .events, .pwr] ⊆ K) (hK : Keeps K b0 s) : Keeps K b0 (State.autoOff s) := by
  unfold State.autoOff
  try dsimp only
  repeat' first
    | with_reducible assumption
    | (with_reducible refine List.Subset.trans ?_ hp; decide)
    | with_reducible apply State.emergSet_keeps
    | with_reducible apply State.clampEngage_keeps
    | with_reducible refine Keeps.ofEq (by with_reducible assumption) ?_
    | with_reducible apply Keeps.ite
    | dsimp only
    | split
    | with_reducible apply Keeps.set_pwr

theorem State.clampCfg_keeps {b0 s : State} (v : W32) (hp : [.agenda, .regs, .events, .pwr] ⊆ K) (hK : Keeps K b0 s) : Keeps K b0 (State.clampCfg s v) := by
  unfold State.clampCfg
  try dsimp only
  repeat' first
    | with_reducible assumption
    | (with_reducible refine List.Subset.trans ?_ hp; decide)
    | with_reducible apply State.put_keeps
    | with_reducible apply State.puts_keeps
    | with_reducible apply State.putb_keeps
    | with_reducible apply State.later_keeps
    | with_reducible apply State.clampEngage_keeps
    | with_reducible apply State.autoOff_keeps
    | with_reducible refine Keeps.ofEq (by with_reducible assumption) ?_
    | with_reducible apply Keeps.ite
    | dsimp only
    | split

theorem execClampEmergency_keeps {b0 s : State} (hp : [.agenda, .regs, .events, .pwr] ⊆ K) (hK : Keeps K b0 s) : KeepsO K b0 (execClampEmergency s) := by
  unfold execClampEmergency
  try dsimp only
  repeat' first
    | with_reducible assumption
    | (with_reducible refine List.Subset.trans ?_ hp; decide)
    | with_reducible apply KeepsO.next
    | with_reducible apply State.at'_keeps
    | with_reducible apply State.disarm_keeps
    | with_reducible apply State.emergSet_keeps
    | with_reducible refine Keeps.ofEq (by with_reducible assumption) ?_
    | with_reducible apply Keeps.ite
    | with_reducible apply KeepsO.ite
    | dsimp only
    | split

theorem State.takeEstimates_keeps {b0 s : State} (hp : [.pwr, .brg] ⊆ K) (hK : Keeps K b0 s) : Keeps K b0 (State.takeEstimates s) := by
  unfold State.takeEstimates
  try dsimp only
  repeat' first
    | with_reducible assumption
    | with_reducible apply State.opReport_keeps
    | with_reducible refine Keeps.ofEq (by with_reducible assumption) ?_
    | with_reducible apply Keeps.ite
    | (with_reducible refine Keeps.foldl ?_ (fun _ _ _ => ?_) <;> try dsimp only)
    | dsimp only
    | split
    | with_reducible apply Keeps.set_pwr
    | with_reducible apply Keeps.set_brg
    | with_reducible apply Keeps.set_all
    | with_reducible exact Or.inl rfl
    | (with_reducible refine Or.inr (List.Subset.trans ?_ hp); decide)

theorem State.clampDecide_keeps {b0 s : State} (hp : [.agenda, .regs, .events, .pwr] ⊆ K) (hK : Keeps K b0 s) : Keeps K b0 (State.clampDecide s) := by
  unfold State.clampDecide
  try dsimp only
  repeat' first
    | with_reducible assumption
    | (with_reducible refine List.Subset.trans ?_ hp; decide)
    | with_reducible apply State.later_keeps
    | with_reducible apply State.clampEngage_keeps
    | with_reducible apply State.autoOff_keeps
    | with_reducible refine Keeps.ofEq (by with_reducible assumption) ?_
    | with_reducible apply Keeps.ite
    | dsimp only
    | split
    | with_reducible apply Keeps.set_pwr

theorem execPowerEstimate_keeps {b0 s : State} (hp : [.agenda, .regs, .events, .pwr, .brg, .tx] ⊆ K) (hK : Keeps K b0 s) : KeepsO K b0 (execPowerEstimate s) := by
  unfold execPowerEstimate
  try dsimp only
  repeat' first
    | with_reducible assumption
    | (with_reducible refine List.Subset.trans ?_ hp; decide)
    | with_reducible apply KeepsO.next
    | with_reducible apply State.puts_keeps
    | with_reducible apply State.at'_keeps
    | with_reducible apply State.side_keeps
    | with_reducible apply State.takeEstimates_keeps
    | with_reducible apply State.clampDecide_keeps
    | with_reducible refine Keeps.ofEq (by with_reducible assumption) ?_
    | with_reducible apply Keeps.ite
    | with_reducible apply KeepsO.ite
    | dsimp only
    | split
    | with_reducible apply Keeps.set_pwr

theorem State.haltCore_keeps {b0 s : State} (m : Nat) (hp : [.agenda, .regs, .mgt] ⊆ K) (hK : Keeps K b0 s) : Keeps K b0 (State.haltCore s m) := by
  unfold State.haltCore
  try dsimp only
  repeat' first
    | with_reducible assumption
    | (with_reducible refine List.Subset.trans ?_ hp; decide)
    | with_reducible apply State.put_keeps
    | with_reducible apply State.wdtChange_keeps
    | with_reducible refine Keeps.ofEq (by with_reducible assumption) ?_
    | with_reducible apply Keeps.ite
    | dsimp only
    | split
    | with_reducible apply Keeps.set_mgt

theorem State.resumeCore_keeps {b0 s : State} (m : Nat) (hp : [.agenda, .regs, .mgt] ⊆ K) (hK : Keeps K b0 s) : Keeps K b0 (State.resumeCore s m) := by
  unfold State.resumeCore
  try dsimp only
  repeat' first
    | with_reducible assumption
    | (with_reducible refine List.Subset.trans ?_ hp; decide)
    | with_reducible apply State.put_keeps
    | with_reducible apply State.wdtChange_keeps
    | with_reducible refine Keeps.ofEq (by with_reducible assumption) ?_
    | with_reducible apply Keeps.ite

theorem State.resumeCores_keeps {b0 s : State} (mask : Nat) (hp : [.agenda, .regs, .mgt] ⊆ K) (hK : Keeps K b0 s) : Keeps K b0 (State.resumeCores s mask) := by
  unfold State.resumeCores
  try dsimp only
  repeat' first
    | with_reducible assumption
    | with_reducible apply State.resumeCore_keeps
    | with_reducible refine Keeps.ofEq (by with_reducible assumption) ?_
    | with_reducible apply Keeps.ite
    | (with_reducible refine Keeps.foldl ?_ (fun _ _ _ => ?_) <;> try dsimp only)

theorem State.generators_keeps {b0 s : State} (on : Bool) (hp : [.regs] ⊆ K) (hK : Keeps K b0 s) : Keeps K b0 (State.generators s on) := by
  unfold State.generators
  try dsimp only
  repeat' first
    | with_reducible assumption
    | with_reducible apply State.puts_keeps
    | with_reducible refine Keeps.ofEq (by with_reducible assumption) ?_
    | with_reducible apply Keeps.ite
    | (with_reducible refine Keeps.foldl ?_ (fun _ _ _ => ?_) <;> try dsimp only)

theorem State.dieWake_keeps {b0 s : State} (src : Nat) (hp : [.agenda, .regs, .freeCtr, .pwr] ⊆ K) (hK : Keeps K b0 s) : Keeps K b0 (State.dieWake s src) := by
  unfold State.dieWake
  try dsimp only
  repeat' first
    | with_reducible assumption
    | (with_reducible refine List.Subset.trans ?_ hp; decide)
    | with_reducible apply State.put_keeps
    | with_reducible apply State.later_keeps
    | with_reducible apply State.useFree_keeps
    | with_reducible refine Keeps.ofEq (by with_reducible assumption) ?_
    | with_reducible apply Keeps.ite
    | dsimp only
    | split
    | with_reducible apply Keeps.set_pwr

theorem State.sleepOff_keeps {b0 s : State} (reason : Nat) (abort : Bool) (hp : [.agenda, .regs, .pwr] ⊆ K) (hK : Keeps K b0 s) : Keeps K b0 (State.sleepOff s reason abort) := by
  unfold State.sleepOff
  try dsimp only
  repeat' first
    | with_reducible assumption
    | (with_reducible refine List.Subset.trans ?_ hp; decide)
    | with_reducible apply State.put_keeps
    | with_reducible apply State.later_keeps
    | with_reducible apply State.disarm_keeps
    | with_reducible apply State.refused_keeps
    | with_reducible refine Keeps.ofEq (by with_reducible assumption) ?_
    | with_reducible apply Keeps.ite
    | dsimp only
    | split
    | with_reducible apply Keeps.set_pwr

theorem State.latchWake_keeps {b0 s : State} (src : Nat) (hp : [.agenda, .regs, .freeCtr, .pwr] ⊆ K) (hK : Keeps K b0 s) : Keeps K b0 (State.latchWake s src) := by
  unfold State.latchWake
  try dsimp only
  repeat' first
    | with_reducible assumption
    | (with_reducible refine List.Subset.trans ?_ hp; decide)
    | with_reducible apply State.dieWake_keeps
    | with_reducible apply State.sleepOff_keeps
    | with_reducible refine Keeps.ofEq (by with_reducible assumption) ?_
    | with_reducible apply Keeps.ite
    | dsimp only
    | split
    | with_reducible apply Keeps.set_pwr

theorem State.sleepPhase_keeps {b0 s : State} (ph : SleepPhase) (n : Nat) (i : Instr) (hp : [.agenda, .pwr] ⊆ K) (hK : Keeps K b0 s) : Keeps K b0 (State.sleepPhase s ph n i) := by
  unfold State.sleepPhase
  try dsimp only
  repeat' first
    | with_reducible assumption
    | (with_reducible refine List.Subset.trans ?_ hp; decide)
    | with_reducible apply State.later_keeps
    | with_reducible refine Keeps.ofEq (by with_reducible assumption) ?_
    | with_reducible apply Keeps.ite
    | dsimp only
    | split
    | with_reducible apply Keeps.set_pwr

theorem execDieSleep_keeps {b0 s : State} (m : Master) (v : W32) (hp : [.agenda, .regs, .detected, .pwr, .mgt] ⊆ K) (hK : Keeps K b0 s) : KeepsO K b0 (execDieSleep m v s) := by
  unfold execDieSleep
  try dsimp only
  repeat' first
    | with_reducible assumption
    | (with_reducible refine List.Subset.trans ?_ hp; decide)
    | with_reducible apply KeepsO.next
    | with_reducible apply State.gate_keeps
    | with_reducible apply State.row_keeps
    | with_reducible apply State.haltCore_keeps
    | with_reducible apply State.generators_keeps
    | with_reducible apply State.sleepOff_keeps
    | with_reducible apply State.sleepPhase_keeps
    | with_reducible refine Keeps.ofEq (by with_reducible assumption) ?_
    | with_reducible apply Keeps.ite
    | with_reducible apply KeepsO.ite
    | (intro _ _ <;> try dsimp only)
    | dsimp only
    | split

theorem execDieSleepCommitEnd_keeps {b0 s : State} (hp : [.agenda, .regs, .freeCtr, .pwr] ⊆ K) (hK : Keeps K b0 s) : KeepsO K b0 (execDieSleepCommitEnd s) := by
  unfold execDieSleepCommitEnd
  try dsimp only
  repeat' first
    | with_reducible assumption
    | (with_reducible refine List.Subset.trans ?_ hp; decide)
    | with_reducible apply KeepsO.next
    | with_reducible apply State.put_keeps
    | with_reducible apply State.inc_keeps
    | with_reducible apply State.later_keeps
    | with_reducible apply State.dieWake_keeps
    | with_reducible refine Keeps.ofEq (by with_reducible assumption) ?_
    | with_reducible apply Keeps.ite
    | with_reducible apply KeepsO.ite
    | dsimp only
    | split
    | with_reducible apply Keeps.set_pwr

theorem execDieWakeDone_keeps {b0 s : State} (hp : [.agenda, .regs, .detected, .events, .pwr, .leave, .mgt] ⊆ K) (hK : Keeps K b0 s) : KeepsO K b0 (execDieWakeDone s) := by
  unfold execDieWakeDone
  try dsimp only
  repeat' first
    | with_reducible assumption
    | (with_reducible refine List.Subset.trans ?_ hp; decide)
    | with_reducible apply KeepsO.next
    | with_reducible apply State.event_keeps
    | with_reducible apply ran_keeps
    | with_reducible apply execLaneTrain_keeps
    | with_reducible apply State.resumeCores_keeps
    | with_reducible apply State.generators_keeps
    | with_reducible refine Keeps.ofEq (by with_reducible assumption) ?_
    | with_reducible apply Keeps.ite
    | (with_reducible refine Keeps.foldl ?_ (fun _ _ _ => ?_) <;> try dsimp only)
    | with_reducible apply KeepsO.ite
    | dsimp only
    | split
    | with_reducible apply Keeps.set_pwr
    | with_reducible apply Keeps.set_mgt

theorem execRtcAlarmRise_keeps {b0 s : State} (hp : [.agenda, .regs, .freeCtr, .events, .pwr] ⊆ K) (hK : Keeps K b0 s) : KeepsO K b0 (execRtcAlarmRise s) := by
  unfold execRtcAlarmRise
  try dsimp only
  repeat' first
    | with_reducible assumption
    | (with_reducible refine List.Subset.trans ?_ hp; decide)
    | with_reducible apply KeepsO.next
    | with_reducible apply State.put_keeps
    | with_reducible apply State.later_keeps
    | with_reducible apply State.disarm_keeps
    | with_reducible apply State.event_keeps
    | with_reducible apply State.dieWake_keeps
    | with_reducible refine Keeps.ofEq (by with_reducible assumption) ?_
    | with_reducible apply Keeps.ite
    | with_reducible apply KeepsO.ite
    | dsimp only
    | split
    | with_reducible apply Keeps.set_pwr

theorem execRtcAlarmFall_keeps {b0 s : State} (hp : [.agenda, .regs, .pwr] ⊆ K) (hK : Keeps K b0 s) : KeepsO K b0 (execRtcAlarmFall s) := by
  unfold execRtcAlarmFall
  try dsimp only
  repeat' first
    | with_reducible assumption
    | (with_reducible refine List.Subset.trans ?_ hp; decide)
    | with_reducible apply KeepsO.next
    | with_reducible apply State.put_keeps
    | with_reducible apply State.later_keeps
    | with_reducible apply State.disarm_keeps
    | with_reducible refine Keeps.ofEq (by with_reducible assumption) ?_
    | with_reducible apply Keeps.ite
    | with_reducible apply KeepsO.ite
    | dsimp only
    | split
    | with_reducible apply Keeps.set_pwr

theorem State.pwrErr_keeps {b0 s : State} (kind detail : Nat) (hp : [.detected] ⊆ K) (hK : Keeps K b0 s) : Keeps K b0 (State.pwrErr s kind detail) := by
  unfold State.pwrErr
  try dsimp only
  repeat' first
    | with_reducible assumption
    | with_reducible apply State.err_keeps

theorem execThermTrip_keeps {b0 s : State} (hp : [.agenda, .regs, .freeCtr, .detected, .events, .pwr, .leave] ⊆ K) (hK : Keeps K b0 s) : KeepsO K b0 (execThermTrip s) := by
  unfold execThermTrip
  try dsimp only
  repeat' first
    | with_reducible assumption
    | (with_reducible refine List.Subset.trans ?_ hp; decide)
    | with_reducible apply KeepsO.next
    | with_reducible apply State.put_keeps
    | with_reducible apply State.later_keeps
    | with_reducible apply State.disarm_keeps
    | with_reducible apply State.useFree_keeps
    | with_reducible apply State.event_keeps
    | with_reducible apply State.leavePoke_keeps
    | with_reducible apply State.emergSet_keeps
    | with_reducible apply State.pwrErr_keeps
    | with_reducible refine Keeps.ofEq (by with_reducible assumption) ?_
    | with_reducible apply Keeps.ite
    | with_reducible apply KeepsO.ite
    | dsimp only
    | split
    | with_reducible apply Keeps.set_pwr

theorem execThermTripRelease_keeps {b0 s : State} (hp : [.agenda, .regs, .freeCtr, .events, .pwr, .leave] ⊆ K) (hK : Keeps K b0 s) : KeepsO K b0 (execThermTripRelease s) := by
  unfold execThermTripRelease
  try dsimp only
  repeat' first
    | with_reducible assumption
    | (with_reducible refine List.Subset.trans ?_ hp; decide)
    | with_reducible apply KeepsO.next
    | with_reducible apply State.put_keeps
    | with_reducible apply State.later_keeps
    | with_reducible apply State.disarm_keeps
    | with_reducible apply State.event_keeps
    | with_reducible apply State.leavePoke_keeps
    | with_reducible apply State.emergSet_keeps
    | with_reducible apply State.dieWake_keeps
    | with_reducible refine Keeps.ofEq (by with_reducible assumption) ?_
    | with_reducible apply Keeps.ite
    | with_reducible apply KeepsO.ite
    | dsimp only
    | split
    | with_reducible apply Keeps.set_pwr

theorem execEdgeWake_keeps {b0 s : State} (k : Gw) (hp : [.agenda, .regs, .freeCtr, .pwr] ⊆ K) (hK : Keeps K b0 s) : KeepsO K b0 (execEdgeWake k s) := by
  unfold execEdgeWake
  try dsimp only
  repeat' first
    | with_reducible assumption
    | with_reducible apply KeepsO.next
    | with_reducible apply State.latchWake_keeps
    | with_reducible refine Keeps.ofEq (by with_reducible assumption) ?_
    | with_reducible apply Keeps.ite

theorem execOpChange_keeps {b0 s : State} (m : Master) (v : W32) (hp : [.agenda, .regs, .detected, .pwr, .tx] ⊆ K) (hK : Keeps K b0 s) : KeepsO K b0 (execOpChange m v s) := by
  unfold execOpChange
  try dsimp only
  repeat' first
    | with_reducible assumption
    | (with_reducible refine List.Subset.trans ?_ hp; decide)
    | with_reducible apply KeepsO.next
    | with_reducible apply State.put_keeps
    | with_reducible apply State.puts_keeps
    | with_reducible apply State.later_keeps
    | with_reducible apply State.gate_keeps
    | with_reducible apply State.row_keeps
    | with_reducible apply State.side_keeps
    | with_reducible refine Keeps.ofEq (by with_reducible assumption) ?_
    | with_reducible apply Keeps.ite
    | (with_reducible refine Keeps.foldl ?_ (fun _ _ _ => ?_) <;> try dsimp only)
    | with_reducible apply KeepsO.ite
    | (intro _ _ <;> try dsimp only)
    | dsimp only
    | split
    | with_reducible apply Keeps.set_pwr

theorem State.nativeAt_keeps {b0 s : State} (n : Nat) (hp : [.regs, .freeCtr] ⊆ K) (hK : Keeps K b0 s) : Keeps K b0 (State.nativeAt s n) := by
  unfold State.nativeAt
  try dsimp only
  repeat' first
    | with_reducible assumption
    | (with_reducible refine List.Subset.trans ?_ hp; decide)
    | with_reducible apply State.setReg_keeps
    | with_reducible apply State.put_keeps
    | with_reducible apply State.useFree_keeps
    | with_reducible refine Keeps.ofEq (by with_reducible assumption) ?_
    | with_reducible apply Keeps.ite

theorem State.opSwitch_keeps {b0 s : State} (n : Nat) (hp : [.regs, .freeCtr] ⊆ K) (hK : Keeps K b0 s) : Keeps K b0 (State.opSwitch s n) := by
  unfold State.opSwitch
  try dsimp only
  repeat' first
    | with_reducible assumption
    | (with_reducible refine List.Subset.trans ?_ hp; decide)
    | with_reducible apply State.put_keeps
    | with_reducible apply State.nativeAt_keeps
    | with_reducible refine Keeps.ofEq (by with_reducible assumption) ?_
    | with_reducible apply Keeps.ite
    | (with_reducible refine Keeps.foldl ?_ (fun _ _ _ => ?_) <;> try dsimp only)

theorem State.vidDrive_keeps {b0 s : State} (n : Nat) (hp : [.regs] ⊆ K) (hK : Keeps K b0 s) : Keeps K b0 (State.vidDrive s n) := by
  unfold State.vidDrive
  try dsimp only
  repeat' first
    | with_reducible assumption
    | with_reducible apply State.put_keeps

theorem State.opReport_keeps {b0 s : State} (r : Nat) (hp : [.agenda, .regs, .pwr, .tx] ⊆ K) (hK : Keeps K b0 s) : Keeps K b0 (State.opReport s r) := by
  unfold State.opReport
  try dsimp only
  repeat' first
    | with_reducible assumption
    | (with_reducible refine List.Subset.trans ?_ hp; decide)
    | with_reducible apply State.put_keeps
    | with_reducible apply State.later_keeps
    | with_reducible apply State.disarm_keeps
    | with_reducible apply State.side_keeps
    | with_reducible refine Keeps.ofEq (by with_reducible assumption) ?_
    | with_reducible apply Keeps.ite
    | dsimp only
    | split
    | with_reducible apply Keeps.set_pwr

theorem State.vidWait_keeps {b0 s : State} (o : OpSt) (hp : [.agenda, .regs, .pwr] ⊆ K) (hK : Keeps K b0 s) : Keeps K b0 (State.vidWait s o) := by
  unfold State.vidWait
  try dsimp only
  repeat' first
    | with_reducible assumption
    | (with_reducible refine List.Subset.trans ?_ hp; decide)
    | with_reducible apply State.later_keeps
    | with_reducible apply State.vidDrive_keeps
    | with_reducible refine Keeps.ofEq (by with_reducible assumption) ?_
    | with_reducible apply Keeps.ite
    | dsimp only
    | split
    | with_reducible apply Keeps.set_pwr

theorem State.opBegin_keeps {b0 s : State} (t : Nat) (hp : [.agenda, .regs, .freeCtr, .pwr, .tx] ⊆ K) (hK : Keeps K b0 s) : Keeps K b0 (State.opBegin s t) := by
  unfold State.opBegin
  try dsimp only
  repeat' first
    | with_reducible assumption
    | (with_reducible refine List.Subset.trans ?_ hp; decide)
    | with_reducible apply State.puts_keeps
    | with_reducible apply State.at'_keeps
    | with_reducible apply State.useFree_keeps
    | with_reducible apply State.opReport_keeps
    | with_reducible apply State.vidWait_keeps
    | with_reducible refine Keeps.ofEq (by with_reducible assumption) ?_
    | with_reducible apply Keeps.ite
    | dsimp only
    | split
    | with_reducible apply Keeps.set_pwr

theorem State.opReturn_keeps {b0 s : State} (t : Nat) (hp : [.agenda, .regs, .freeCtr, .pwr, .tx] ⊆ K) (hK : Keeps K b0 s) : Keeps K b0 (State.opReturn s t) := by
  unfold State.opReturn
  try dsimp only
  repeat' first
    | with_reducible assumption
    | (with_reducible refine List.Subset.trans ?_ hp; decide)
    | with_reducible apply State.opSwitch_keeps
    | with_reducible apply State.vidDrive_keeps
    | with_reducible apply State.opReport_keeps
    | with_reducible refine Keeps.ofEq (by with_reducible assumption) ?_
    | with_reducible apply Keeps.ite

theorem State.opGo_keeps {b0 s : State} (o : OpSt) (hp : [.agenda, .regs, .freeCtr, .pwr, .tx] ⊆ K) (hK : Keeps K b0 s) : Keeps K b0 (State.opGo s o) := by
  unfold State.opGo
  try dsimp only
  repeat' first
    | with_reducible assumption
    | (with_reducible refine List.Subset.trans ?_ hp; decide)
    | with_reducible apply State.opSwitch_keeps
    | with_reducible apply State.opReport_keeps
    | with_reducible apply State.vidWait_keeps
    | with_reducible refine Keeps.ofEq (by with_reducible assumption) ?_
    | with_reducible apply Keeps.ite

theorem execDieOpChange_keeps {b0 s : State} (target : Fin 6) (hp : [.agenda, .regs, .freeCtr, .pwr, .brg, .tx] ⊆ K) (hK : Keeps K b0 s) : KeepsO K b0 (execDieOpChange target s) := by
  unfold execDieOpChange
  try dsimp only
  repeat' first
    | with_reducible assumption
    | (with_reducible refine List.Subset.trans ?_ hp; decide)
    | with_reducible apply KeepsO.next
    | with_reducible apply State.arm_keeps
    | with_reducible apply State.opBegin_keeps
    | with_reducible apply State.opReturn_keeps
    | with_reducible apply State.opGo_keeps
    | with_reducible refine Keeps.ofEq (by with_reducible assumption) ?_
    | with_reducible apply Keeps.ite
    | with_reducible apply KeepsO.ite
    | dsimp only
    | split
    | with_reducible apply Keeps.set_brg

theorem execVidAckToggle_keeps {b0 s : State} (hp : [.agenda, .regs, .freeCtr, .events, .pwr, .tx, .boot] ⊆ K) (hK : Keeps K b0 s) : KeepsO K b0 (execVidAckToggle s) := by
  unfold execVidAckToggle
  try dsimp only
  repeat' first
    | with_reducible assumption
    | (with_reducible refine List.Subset.trans ?_ hp; decide)
    | with_reducible apply KeepsO.next
    | with_reducible apply State.put_keeps
    | with_reducible apply State.at'_keeps
    | with_reducible apply State.later_keeps
    | with_reducible apply State.disarm_keeps
    | with_reducible apply State.emergSet_keeps
    | with_reducible apply State.opGo_keeps
    | with_reducible refine Keeps.ofEq (by with_reducible assumption) ?_
    | with_reducible apply Keeps.ite
    | with_reducible apply KeepsO.ite
    | dsimp only
    | split
    | with_reducible apply Keeps.set_pwr
    | with_reducible apply Keeps.set_boot

theorem execVidTimeout_keeps {b0 s : State} (hp : [.agenda, .regs, .detected, .events, .pwr, .tx] ⊆ K) (hK : Keeps K b0 s) : KeepsO K b0 (execVidTimeout s) := by
  unfold execVidTimeout
  try dsimp only
  repeat' first
    | with_reducible assumption
    | (with_reducible refine List.Subset.trans ?_ hp; decide)
    | with_reducible apply KeepsO.next
    | with_reducible apply State.emergSet_keeps
    | with_reducible apply State.pwrErr_keeps
    | with_reducible apply State.opReport_keeps
    | with_reducible refine Keeps.ofEq (by with_reducible assumption) ?_
    | with_reducible apply Keeps.ite
    | with_reducible apply KeepsO.ite
    | dsimp only
    | split

theorem execOpChangeDone_keeps {b0 s : State} (die : Fin 8) (result : Fin 3) (hp : [.agenda, .regs, .freeCtr, .events, .pwr, .tx] ⊆ K) (hK : Keeps K b0 s) : KeepsO K b0 (execOpChangeDone die result s) := by
  unfold execOpChangeDone
  try dsimp only
  repeat' first
    | with_reducible assumption
    | (with_reducible refine List.Subset.trans ?_ hp; decide)
    | with_reducible apply KeepsO.next
    | with_reducible apply State.puts_keeps
    | with_reducible apply State.event_keeps
    | with_reducible apply State.side_keeps
    | with_reducible apply State.opReturn_keeps
    | with_reducible refine Keeps.ofEq (by with_reducible assumption) ?_
    | with_reducible apply Keeps.ite
    | (with_reducible refine Keeps.foldl ?_ (fun _ _ _ => ?_) <;> try dsimp only)
    | with_reducible apply KeepsO.ite
    | dsimp only
    | split
    | with_reducible apply Keeps.set_pwr

theorem State.stretchAt_keeps {b0 s : State} (t : Nat) (hp : [.time] ⊆ K) (hK : Keeps K b0 s) : Keeps K b0 (State.stretchAt s t) := by
  unfold State.stretchAt
  try dsimp only
  repeat' first
    | with_reducible assumption
    | with_reducible refine Keeps.ofEq (by with_reducible assumption) ?_
    | with_reducible apply Keeps.ite
    | dsimp only
    | split
    | with_reducible apply Keeps.set_time

theorem State.skewReplay_keeps {b0 s : State} (c : Nat) (hp : [.agenda, .regs, .detected, .stp, .runners, .tx] ⊆ K) (hK : Keeps K b0 s) : Keeps K b0 (State.skewReplay s c) := by
  unfold State.skewReplay
  try dsimp only
  repeat' first
    | with_reducible assumption
    | (with_reducible refine List.Subset.trans ?_ hp; decide)
    | with_reducible apply State.later_keeps
    | with_reducible apply State.replayCause_keeps
    | with_reducible apply State.skewed_keeps
    | with_reducible refine Keeps.ofEq (by with_reducible assumption) ?_
    | with_reducible apply Keeps.ite
    | dsimp only
    | split
    | with_reducible apply Keeps.set_stp

theorem State.skewed_keeps {b0 s : State} (a b : Nat) (hp : [.agenda, .regs, .freeCtr, .detected, .stp, .runners, .tx] ⊆ K) (hK : Keeps K b0 s) : Keeps K b0 (State.skewed s a b) := by
  unfold State.skewed
  try dsimp only
  repeat' first
    | with_reducible assumption
    | (with_reducible refine List.Subset.trans ?_ hp; decide)
    | with_reducible apply State.puts_keeps
    | with_reducible apply State.incBy_keeps
    | with_reducible apply State.inc_keeps
    | with_reducible apply State.useFree_keeps
    | with_reducible apply State.err_keeps
    | with_reducible apply State.skewReplay_keeps
    | with_reducible refine Keeps.ofEq (by with_reducible assumption) ?_
    | with_reducible apply Keeps.ite
    | (with_reducible refine Keeps.foldl ?_ (fun _ _ _ => ?_) <;> try dsimp only)

theorem execDroopStretch_keeps {b0 s : State} (regions : BitVec 16) (skew : Option (Fin 16 × Fin 16)) (hp : [.agenda, .time, .regs, .freeCtr, .detected, .stp, .runners, .tx] ⊆ K) (hK : Keeps K b0 s) : KeepsO K b0 (execDroopStretch regions skew s) := by
  unfold execDroopStretch
  try dsimp only
  repeat' first
    | with_reducible assumption
    | (with_reducible refine List.Subset.trans ?_ hp; decide)
    | with_reducible apply KeepsO.next
    | with_reducible apply State.stretchAt_keeps
    | with_reducible apply State.skewed_keeps
    | with_reducible refine Keeps.ofEq (by with_reducible assumption) ?_
    | with_reducible apply Keeps.ite
    | with_reducible apply KeepsO.ite
    | dsimp only
    | split

theorem execCompensatingStretch_keeps {b0 s : State} (hp : [.agenda, .time] ⊆ K) (hK : Keeps K b0 s) : KeepsO K b0 (execCompensatingStretch s) := by
  unfold execCompensatingStretch
  try dsimp only
  repeat' first
    | with_reducible assumption
    | (with_reducible refine List.Subset.trans ?_ hp; decide)
    | with_reducible apply KeepsO.next
    | with_reducible apply State.arm_keeps
    | with_reducible apply State.stretchAt_keeps
    | with_reducible refine Keeps.ofEq (by with_reducible assumption) ?_
    | with_reducible apply Keeps.ite

theorem State.rearm_keeps {b0 s : State} (w : Nat) (i : Instr) (hp : [.agenda] ⊆ K) (hK : Keeps K b0 s) : Keeps K b0 (State.rearm s w i) := by
  unfold State.rearm
  try dsimp only
  repeat' first
    | with_reducible assumption
    | with_reducible apply State.at'_keeps
    | with_reducible apply State.disarm_keeps
    | with_reducible refine Keeps.ofEq (by with_reducible assumption) ?_
    | with_reducible apply Keeps.ite

theorem State.shiftFab_keeps {b0 s : State} (move : Nat → Nat) (hp : [.agenda, .syn, .pwr, .mgt] ⊆ K) (hK : Keeps K b0 s) : Keeps K b0 (State.shiftFab s move) := by
  unfold State.shiftFab
  try dsimp only
  repeat' first
    | with_reducible assumption
    | with_reducible refine Keeps.ofEq (by with_reducible assumption) ?_
    | with_reducible apply Keeps.ite
    | dsimp only
    | split
    | with_reducible apply Keeps.set_agenda
    | with_reducible apply Keeps.set_syn
    | with_reducible apply Keeps.set_pwr
    | with_reducible apply Keeps.set_mgt
    | with_reducible apply Keeps.set_all
    | with_reducible exact Or.inl rfl
    | (with_reducible refine Or.inr (List.Subset.trans ?_ hp); decide)

theorem State.setNow_keeps {b0 s : State} (n : Nat) (hp : [.agenda, .time, .syn, .pwr, .edg, .mgt] ⊆ K) (hK : Keeps K b0 s) : Keeps K b0 (State.setNow s n) := by
  unfold State.setNow
  try dsimp only
  repeat' first
    | with_reducible assumption
    | (with_reducible refine List.Subset.trans ?_ hp; decide)
    | with_reducible apply State.dripArm_keeps
    | with_reducible apply State.setPart_keeps
    | with_reducible apply State.fillBucket_keeps
    | with_reducible apply State.ueArm_keeps
    | with_reducible apply State.pollAgain_keeps
    | with_reducible apply State.rearm_keeps
    | with_reducible apply State.shiftFab_keeps
    | with_reducible refine Keeps.ofEq (by with_reducible assumption) ?_
    | with_reducible apply Keeps.ite
    | (with_reducible refine Keeps.foldl ?_ (fun _ _ _ => ?_) <;> try dsimp only)
    | dsimp only
    | split
    | with_reducible apply Keeps.set_time

theorem execTimSet_keeps {b0 s : State} (m : Master) (v : W32) (hp : [.agenda, .time, .regs, .detected, .loHeld, .syn, .pwr, .edg, .mgt] ⊆ K) (hK : Keeps K b0 s) : KeepsO K b0 (execTimSet m v s) := by
  unfold execTimSet
  try dsimp only
  repeat' first
    | with_reducible assumption
    | (with_reducible refine List.Subset.trans ?_ hp; decide)
    | with_reducible apply KeepsO.next
    | with_reducible apply State.setReg_keeps
    | with_reducible apply State.gate_keeps
    | with_reducible apply State.row_keeps
    | with_reducible apply State.takeLo_keeps
    | with_reducible apply State.setNow_keeps
    | with_reducible refine Keeps.ofEq (by with_reducible assumption) ?_
    | with_reducible apply Keeps.ite
    | with_reducible apply KeepsO.ite
    | (intro _ _ <;> try dsimp only)

theorem execBeaconSend_keeps {b0 s : State} (hp : [.agenda, .pwr, .tx] ⊆ K) (hK : Keeps K b0 s) : KeepsO K b0 (execBeaconSend s) := by
  unfold execBeaconSend
  try dsimp only
  repeat' first
    | with_reducible assumption
    | (with_reducible refine List.Subset.trans ?_ hp; decide)
    | with_reducible apply KeepsO.next
    | with_reducible apply State.arm_keeps
    | with_reducible apply State.send_keeps
    | with_reducible refine Keeps.ofEq (by with_reducible assumption) ?_
    | with_reducible apply Keeps.ite
    | with_reducible apply KeepsO.ite
    | dsimp only
    | split
    | with_reducible apply Keeps.set_pwr

theorem State.beaconWatch_keeps {b0 s : State} (hp : [.agenda, .pwr] ⊆ K) (hK : Keeps K b0 s) : Keeps K b0 (State.beaconWatch s) := by
  unfold State.beaconWatch
  try dsimp only
  repeat' first
    | with_reducible assumption
    | (with_reducible refine List.Subset.trans ?_ hp; decide)
    | with_reducible apply State.later_keeps
    | with_reducible apply State.disarm_keeps
    | with_reducible refine Keeps.ofEq (by with_reducible assumption) ?_
    | with_reducible apply Keeps.ite
    | dsimp only
    | split
    | with_reducible apply Keeps.set_pwr

theorem execBeaconReceive_keeps {b0 s : State} (lane : Fin 8) (value : W64) (h : Fin 8) (hp : [.agenda, .time, .regs, .pwr, .tx] ⊆ K) (hK : Keeps K b0 s) : KeepsO K b0 (execBeaconReceive lane value h s) := by
  unfold execBeaconReceive
  try dsimp only
  repeat' first
    | with_reducible assumption
    | (with_reducible refine List.Subset.trans ?_ hp; decide)
    | with_reducible apply KeepsO.next
    | with_reducible apply State.put_keeps
    | with_reducible apply State.inc_keeps
    | with_reducible apply State.send_keeps
    | with_reducible apply State.beaconWatch_keeps
    | with_reducible refine Keeps.ofEq (by with_reducible assumption) ?_
    | with_reducible apply Keeps.ite
    | with_reducible apply KeepsO.ite
    | dsimp only
    | split
    | with_reducible apply Keeps.set_time
    | with_reducible apply Keeps.set_pwr

theorem execBeaconLoss_keeps {b0 s : State} (hp : [.regs, .detected] ⊆ K) (hK : Keeps K b0 s) : KeepsO K b0 (execBeaconLoss s) := by
  unfold execBeaconLoss
  try dsimp only
  repeat' first
    | with_reducible assumption
    | (with_reducible refine List.Subset.trans ?_ hp; decide)
    | with_reducible apply KeepsO.next
    | with_reducible apply State.inc_keeps
    | with_reducible apply State.pwrErr_keeps
    | with_reducible refine Keeps.ofEq (by with_reducible assumption) ?_
    | with_reducible apply Keeps.ite
end Sys2Proof.Machine
end

