-- ==== Sys2Proof/Laws/KeepsRing.lean ====
section
/-! SUPPORT. What the operations and commands of Machine/Ring.lean leave alone: one lemma each, in the terms of `Keeps`. The list each
asks for holds the parts it may change. -/
namespace Sys2Proof.Machine
variable {K : List Part}
theorem State.fwWait_keeps {b0 s : State} (again : Instr) (hp : [.agenda, .freeCtr] ⊆ K) (hK : Keeps K b0 s) : Keeps K b0 (State.fwWait s again) := by
  unfold State.fwWait
  try dsimp only
  repeat' first
    | with_reducible assumption
    | (with_reducible refine List.Subset.trans ?_ hp; decide)
    | with_reducible apply State.later_keeps
    | with_reducible apply State.useFree_keeps

theorem State.jobGo_keeps {b0 s : State} (j : Job) (n : Nat) (hp : [.agenda] ⊆ K) (hK : Keeps K b0 s) : Keeps K b0 (State.jobGo s j n) := by
  unfold State.jobGo
  try dsimp only
  repeat' first
    | with_reducible assumption
    | with_reducible apply State.arm_keeps
    | with_reducible refine Keeps.ofEq (by with_reducible assumption) ?_
    | with_reducible apply Keeps.ite
    | dsimp only
    | split

theorem State.jobsGo_keeps {b0 s : State} (f : Job → Bool) (hp : [.agenda] ⊆ K) (hK : Keeps K b0 s) : Keeps K b0 (State.jobsGo s f) := by
  unfold State.jobsGo
  try dsimp only
  repeat' first
    | with_reducible assumption
    | with_reducible apply State.jobGo_keeps
    | with_reducible refine Keeps.ofEq (by with_reducible assumption) ?_
    | with_reducible apply Keeps.ite
    | (with_reducible refine Keeps.foldl ?_ (fun _ _ _ => ?_) <;> try dsimp only)

theorem State.setJob_keeps {b0 s : State} (j : Job) (hp : [.mgt] ⊆ K) (hK : Keeps K b0 s) : Keeps K b0 (State.setJob s j) := by
  unfold State.setJob
  try dsimp only
  repeat' first
    | with_reducible assumption
    | with_reducible refine Keeps.ofEq (by with_reducible assumption) ?_
    | with_reducible apply Keeps.ite
    | dsimp only
    | split
    | with_reducible apply Keeps.set_mgt

theorem State.jobEnd_keeps {b0 s : State} (j : Job) (status res : Nat) (hp : [.agenda, .mgt] ⊆ K) (hK : Keeps K b0 s) : Keeps K b0 (State.jobEnd s j status res) := by
  unfold State.jobEnd
  try dsimp only
  repeat' first
    | with_reducible assumption
    | (with_reducible refine List.Subset.trans ?_ hp; decide)
    | with_reducible apply State.arm_keeps
    | with_reducible apply State.jobsGo_keeps
    | with_reducible refine Keeps.ofEq (by with_reducible assumption) ?_
    | with_reducible apply Keeps.ite
    | dsimp only
    | split
    | with_reducible apply Keeps.set_mgt

theorem State.ringPost_keeps {b0 s : State} (m : Nat) (r : Ring) (b : List Byte) (hp : [.mem, .mgt] ⊆ K) (hK : Keeps K b0 s) : Keeps K b0 (State.ringPost s m r b) := by
  unfold State.ringPost
  try dsimp only
  repeat' first
    | with_reducible assumption
    | (with_reducible refine List.Subset.trans ?_ hp; decide)
    | with_reducible apply State.setCells_keeps
    | with_reducible apply State.setMs32_keeps
    | with_reducible refine Keeps.ofEq (by with_reducible assumption) ?_
    | with_reducible apply Keeps.ite
    | dsimp only
    | split
    | with_reducible apply Keeps.set_mgt

theorem State.padOpen_keeps {b0 s : State} (m : Nat) (hp : [.mem, .mgt] ⊆ K) (hK : Keeps K b0 s) : Keeps K b0 (State.padOpen s m) := by
  unfold State.padOpen
  try dsimp only
  repeat' first
    | with_reducible assumption
    | (with_reducible refine List.Subset.trans ?_ hp; decide)
    | with_reducible apply State.setCells_keeps
    | with_reducible apply State.setMs32_keeps
    | with_reducible refine Keeps.ofEq (by with_reducible assumption) ?_
    | with_reducible apply Keeps.ite
    | dsimp only
    | split
    | with_reducible apply Keeps.set_mgt

theorem State.ringBad_keeps {b0 s : State} (core k head tail : Nat) (hp : [.agenda, .events, .mgt] ⊆ K) (hK : Keeps K b0 s) : Keeps K b0 (State.ringBad s core k head tail) := by
  unfold State.ringBad
  try dsimp only
  repeat' first
    | with_reducible assumption
    | (with_reducible refine List.Subset.trans ?_ hp; decide)
    | with_reducible apply State.event_keeps
    | with_reducible refine Keeps.ofEq (by with_reducible assumption) ?_
    | with_reducible apply Keeps.ite
    | dsimp only
    | split
    | with_reducible apply Keeps.set_mgt

theorem State.ringGood_keeps {b0 s : State} (k : Nat) (hp : [.mgt] ⊆ K) (hK : Keeps K b0 s) : Keeps K b0 (State.ringGood s k) := by
  unfold State.ringGood
  try dsimp only
  repeat' first
    | with_reducible assumption
    | with_reducible refine Keeps.ofEq (by with_reducible assumption) ?_
    | with_reducible apply Keeps.ite
    | dsimp only
    | split
    | with_reducible apply Keeps.set_mgt

theorem State.hintSet_keeps {b0 s : State} (bit : Nat) (hp : [.regs, .mgt] ⊆ K) (hK : Keeps K b0 s) : Keeps K b0 (State.hintSet s bit) := by
  unfold State.hintSet
  try dsimp only
  repeat' first
    | with_reducible assumption
    | (with_reducible refine List.Subset.trans ?_ hp; decide)
    | with_reducible apply State.put_keeps
    | with_reducible refine Keeps.ofEq (by with_reducible assumption) ?_
    | with_reducible apply Keeps.ite
    | dsimp only
    | split
    | with_reducible apply Keeps.set_mgt

theorem execCompletionPost_keeps {b0 s : State} (core : Core) (hp : [.agenda, .regs, .mem, .freeCtr, .events, .mgt] ⊆ K) (hK : Keeps K b0 s) : KeepsO K b0 (execCompletionPost core s) := by
  unfold execCompletionPost
  try dsimp only
  repeat' first
    | with_reducible assumption
    | (with_reducible refine List.Subset.trans ?_ hp; decide)
    | with_reducible apply KeepsO.next
    | with_reducible apply State.arm_keeps
    | with_reducible apply State.fwWait_keeps
    | with_reducible apply State.jobsGo_keeps
    | with_reducible apply State.ringPost_keeps
    | with_reducible apply State.padOpen_keeps
    | with_reducible apply State.ringBad_keeps
    | with_reducible apply State.ringGood_keeps
    | with_reducible apply State.hintSet_keeps
    | with_reducible refine Keeps.ofEq (by with_reducible assumption) ?_
    | with_reducible apply Keeps.ite
    | with_reducible apply KeepsO.ite
    | dsimp only
    | split
    | with_reducible apply Keeps.set_mgt

theorem State.eventTo_keeps {b0 s : State} (core typ detail : Nat) (hp : [.agenda, .regs, .mem, .events, .mgt] ⊆ K) (hK : Keeps K b0 s) : Keeps K b0 (State.eventTo s core typ detail) := by
  unfold State.eventTo
  try dsimp only
  repeat' first
    | with_reducible assumption
    | (with_reducible refine List.Subset.trans ?_ hp; decide)
    | with_reducible apply State.setMs32_keeps
    | with_reducible apply State.ringPost_keeps
    | with_reducible apply State.ringBad_keeps
    | with_reducible apply State.ringGood_keeps
    | with_reducible apply State.hintSet_keeps
    | with_reducible refine Keeps.ofEq (by with_reducible assumption) ?_
    | with_reducible apply Keeps.ite
    | dsimp only
    | split
    | with_reducible apply Keeps.set_mgt

theorem State.fifoEvents_keeps {b0 s : State} (m : Nat) (hp : [.events] ⊆ K) (hK : Keeps K b0 s) : Keeps K b0 (State.fifoEvents s m) := by
  unfold State.fifoEvents
  try dsimp only
  repeat' first
    | with_reducible assumption
    | with_reducible refine Keeps.ofEq (by with_reducible assumption) ?_
    | with_reducible apply Keeps.ite
    | dsimp only
    | split
    | with_reducible apply Keeps.set_events

theorem State.logReports_keeps {b0 s : State} (hp : [.agenda, .regs, .mem, .detected, .events, .mgt] ⊆ K) (hK : Keeps K b0 s) : Keeps K b0 (State.logReports s) := by
  unfold State.logReports
  try dsimp only
  repeat' first
    | with_reducible assumption
    | (with_reducible refine List.Subset.trans ?_ hp; decide)
    | with_reducible apply State.logCtl_keeps
    | with_reducible apply State.eventTo_keeps
    | with_reducible refine Keeps.ofEq (by with_reducible assumption) ?_
    | with_reducible apply Keeps.ite
    | (with_reducible refine Keeps.foldl ?_ (fun _ _ _ => ?_) <;> try dsimp only)

theorem execEventPost_keeps {b0 s : State} (core : Core) (hp : [.agenda, .regs, .mem, .freeCtr, .detected, .events, .mgt] ⊆ K) (hK : Keeps K b0 s) : KeepsO K b0 (execEventPost core s) := by
  unfold execEventPost
  try dsimp only
  repeat' first
    | with_reducible assumption
    | (with_reducible refine List.Subset.trans ?_ hp; decide)
    | with_reducible apply KeepsO.next
    | with_reducible apply State.arm_keeps
    | with_reducible apply State.fwWait_keeps
    | with_reducible apply State.eventTo_keeps
    | with_reducible apply State.fifoEvents_keeps
    | with_reducible apply State.logReports_keeps
    | with_reducible refine Keeps.ofEq (by with_reducible assumption) ?_
    | with_reducible apply Keeps.ite
    | (with_reducible refine Keeps.foldl ?_ (fun _ _ _ => ?_) <;> try dsimp only)
    | with_reducible apply KeepsO.ite
    | dsimp only
    | split
    | with_reducible apply Keeps.set_events

theorem execDoorbell_keeps {b0 s : State} (m : Master) (v : W32) (hp : [.agenda, .regs, .freeCtr, .detected, .pwr, .mgt] ⊆ K) (hK : Keeps K b0 s) : KeepsO K b0 (execDoorbell m v s) := by
  unfold execDoorbell
  try dsimp only
  repeat' first
    | with_reducible assumption
    | (with_reducible refine List.Subset.trans ?_ hp; decide)
    | with_reducible apply KeepsO.next
    | with_reducible apply State.arm_keeps
    | with_reducible apply State.gate_keeps
    | with_reducible apply State.row_keeps
    | with_reducible apply State.latchWake_keeps
    | with_reducible refine Keeps.ofEq (by with_reducible assumption) ?_
    | with_reducible apply Keeps.ite
    | with_reducible apply KeepsO.ite
    | (intro _ _ <;> try dsimp only)
    | dsimp only
    | split
    | with_reducible apply Keeps.set_mgt

theorem execSubmissionTake_keeps {b0 s : State} (hp : [.agenda, .mem, .freeCtr, .events, .mgt] ⊆ K) (hK : Keeps K b0 s) : KeepsO K b0 (execSubmissionTake s) := by
  unfold execSubmissionTake
  try dsimp only
  repeat' first
    | with_reducible assumption
    | (with_reducible refine List.Subset.trans ?_ hp; decide)
    | with_reducible apply KeepsO.next
    | with_reducible apply State.arm_keeps
    | with_reducible apply State.setMs32_keeps
    | with_reducible apply State.fwWait_keeps
    | with_reducible apply State.jobGo_keeps
    | with_reducible apply State.jobEnd_keeps
    | with_reducible apply State.ringBad_keeps
    | with_reducible apply State.ringGood_keeps
    | with_reducible refine Keeps.ofEq (by with_reducible assumption) ?_
    | with_reducible apply Keeps.ite
    | with_reducible apply KeepsO.ite
    | dsimp only
    | split
    | with_reducible apply Keeps.set_mgt

theorem execHintSet_keeps {b0 s : State} (m : Master) (v : W32) (hp : [.agenda, .regs, .detected, .mgt] ⊆ K) (hK : Keeps K b0 s) : KeepsO K b0 (execHintSet m v s) := by
  unfold execHintSet
  try dsimp only
  repeat' first
    | with_reducible assumption
    | (with_reducible refine List.Subset.trans ?_ hp; decide)
    | with_reducible apply KeepsO.next
    | with_reducible apply State.gate_keeps
    | with_reducible apply State.row_keeps
    | with_reducible apply State.hintSet_keeps
    | with_reducible refine Keeps.ofEq (by with_reducible assumption) ?_
    | with_reducible apply Keeps.ite
    | with_reducible apply KeepsO.ite
    | (intro _ _ <;> try dsimp only)

theorem execHintStatClear_keeps {b0 s : State} (m : Master) (v : W32) (hp : [.agenda, .regs, .detected] ⊆ K) (hK : Keeps K b0 s) : KeepsO K b0 (execHintStatClear m v s) := by
  unfold execHintStatClear
  try dsimp only
  repeat' first
    | with_reducible assumption
    | (with_reducible refine List.Subset.trans ?_ hp; decide)
    | with_reducible apply KeepsO.next
    | with_reducible apply State.setReg_keeps
    | with_reducible apply State.gate_keeps
    | with_reducible apply State.row_keeps
    | with_reducible refine Keeps.ofEq (by with_reducible assumption) ?_
    | with_reducible apply Keeps.ite
    | with_reducible apply KeepsO.ite
    | (intro _ _ <;> try dsimp only)
end Sys2Proof.Machine
end

