-- ==== Sys2Proof/Laws/KeepsRestart.lean ====
section
/-! SUPPORT. What the operations and commands of Machine/Restart.lean leave alone: one lemma each, in the terms of `Keeps`. The list each
asks for holds the parts it may change. -/
namespace Sys2Proof.Machine
variable {K : List Part}
theorem State.endLocks_keeps {b0 s : State} (p : Nat → Bool) (m : Nat) (hp : [.cmx] ⊆ K) (hK : Keeps K b0 s) : Keeps K b0 (State.endLocks s p m) := by
  unfold State.endLocks
  try dsimp only
  repeat' first
    | with_reducible assumption
    | with_reducible refine Keeps.ofEq (by with_reducible assumption) ?_
    | with_reducible apply Keeps.ite
    | dsimp only
    | split
    | with_reducible apply Keeps.set_cmx

theorem State.cmxMask_keeps {b0 s : State} (m : Nat) (hp : [.agenda, .regs, .cmx] ⊆ K) (hK : Keeps K b0 s) : Keeps K b0 (State.cmxMask s m) := by
  unfold State.cmxMask
  try dsimp only
  repeat' first
    | with_reducible assumption
    | (with_reducible refine List.Subset.trans ?_ hp; decide)
    | with_reducible apply State.put_keeps
    | with_reducible apply State.arm_keeps
    | with_reducible apply State.endLocks_keeps
    | with_reducible refine Keeps.ofEq (by with_reducible assumption) ?_
    | with_reducible apply Keeps.ite
    | (with_reducible refine Keeps.foldl ?_ (fun _ _ _ => ?_) <;> try dsimp only)
    | dsimp only
    | split
    | with_reducible apply Keeps.set_cmx

theorem State.maskCore_keeps {b0 s : State} (m : Nat) (hp : [.agenda, .regs, .events, .frz, .pwr, .leave, .masked, .tx, .mgt, .cmx] ⊆ K) (hK : Keeps K b0 s) : Keeps K b0 (State.maskCore s m) := by
  unfold State.maskCore
  try dsimp only
  repeat' first
    | with_reducible assumption
    | (with_reducible refine List.Subset.trans ?_ hp; decide)
    | with_reducible apply State.put_keeps
    | with_reducible apply State.puts_keeps
    | with_reducible apply State.leavePoke_keeps
    | with_reducible apply State.frzFirmware_keeps
    | with_reducible apply State.emergSet_keeps
    | with_reducible apply State.cmxMask_keeps
    | with_reducible refine Keeps.ofEq (by with_reducible assumption) ?_
    | with_reducible apply Keeps.ite
    | dsimp only
    | split
    | with_reducible apply Keeps.set_masked
    | with_reducible apply Keeps.set_mgt
    | with_reducible apply Keeps.set_all
    | with_reducible exact Or.inl rfl
    | (with_reducible refine Or.inr (List.Subset.trans ?_ hp); decide)

theorem State.unmaskCore_keeps {b0 s : State} (m : Nat) (hp : [.agenda, .regs, .leave, .masked, .mgt] ⊆ K) (hK : Keeps K b0 s) : Keeps K b0 (State.unmaskCore s m) := by
  unfold State.unmaskCore
  try dsimp only
  repeat' first
    | with_reducible assumption
    | (with_reducible refine List.Subset.trans ?_ hp; decide)
    | with_reducible apply State.arm_keeps
    | with_reducible apply State.leavePoke_keeps
    | with_reducible refine Keeps.ofEq (by with_reducible assumption) ?_
    | with_reducible apply Keeps.ite
    | dsimp only
    | split
    | with_reducible apply Keeps.set_masked
    | with_reducible apply Keeps.set_mgt
    | with_reducible apply Keeps.set_all
    | with_reducible exact Or.inl rfl
    | (with_reducible refine Or.inr (List.Subset.trans ?_ hp); decide)

theorem State.setSlot_keeps {b0 s : State} (r slot : Nat) (x : Slot) (hp : [.mgt] ⊆ K) (hK : Keeps K b0 s) : Keeps K b0 (State.setSlot s r slot x) := by
  unfold State.setSlot
  try dsimp only
  repeat' first
    | with_reducible assumption
    | with_reducible refine Keeps.ofEq (by with_reducible assumption) ?_
    | with_reducible apply Keeps.ite
    | dsimp only
    | split
    | with_reducible apply Keeps.set_mgt

theorem State.showSlot_keeps {b0 s : State} (r slot : Nat) (hp : [.regs] ⊆ K) (hK : Keeps K b0 s) : Keeps K b0 (State.showSlot s r slot) := by
  unfold State.showSlot
  try dsimp only
  repeat' first
    | with_reducible assumption
    | with_reducible apply State.setReg_keeps
    | with_reducible apply State.puts_keeps
    | with_reducible refine Keeps.ofEq (by with_reducible assumption) ?_
    | with_reducible apply Keeps.ite
    | (with_reducible refine Keeps.foldl ?_ (fun _ _ _ => ?_) <;> try dsimp only)

theorem State.hallStart_keeps {b0 s : State} (hp : [.agenda, .regs, .freeCtr, .boot] ⊆ K) (hK : Keeps K b0 s) : Keeps K b0 (State.hallStart s) := by
  unfold State.hallStart
  try dsimp only
  repeat' first
    | with_reducible assumption
    | (with_reducible refine List.Subset.trans ?_ hp; decide)
    | with_reducible apply State.put_keeps
    | with_reducible apply State.at'_keeps
    | with_reducible apply State.useFree_keeps
    | with_reducible refine Keeps.ofEq (by with_reducible assumption) ?_
    | with_reducible apply Keeps.ite
    | dsimp only
    | split
    | with_reducible apply Keeps.set_boot

theorem State.setRole_keeps {b0 s : State} (r st : Nat) (hp : [.agenda, .regs, .freeCtr, .boot] ⊆ K) (hK : Keeps K b0 s) : Keeps K b0 (State.setRole s r st) := by
  unfold State.setRole
  try dsimp only
  repeat' first
    | with_reducible assumption
    | (with_reducible refine List.Subset.trans ?_ hp; decide)
    | with_reducible apply State.put_keeps
    | with_reducible apply State.hallStart_keeps
    | with_reducible refine Keeps.ofEq (by with_reducible assumption) ?_
    | with_reducible apply Keeps.ite

theorem State.mgtErr_keeps {b0 s : State} (kind m detail addr : Nat) (hp : [.detected] ⊆ K) (hK : Keeps K b0 s) : Keeps K b0 (State.mgtErr s kind m detail addr) := by
  unfold State.mgtErr
  try dsimp only
  repeat' first
    | with_reducible assumption
    | with_reducible apply State.err_keeps

theorem State.setOutcome_keeps {b0 s : State} (r n : Nat) (hp : [.mgt] ⊆ K) (hK : Keeps K b0 s) : Keeps K b0 (State.setOutcome s r n) := by
  unfold State.setOutcome
  try dsimp only
  repeat' first
    | with_reducible assumption
    | with_reducible refine Keeps.ofEq (by with_reducible assumption) ?_
    | with_reducible apply Keeps.ite
    | dsimp only
    | split
    | with_reducible apply Keeps.set_mgt

theorem State.restartCore_keeps {b0 s : State} (m cause slot : Nat) (retried : Bool) (hp : [.agenda, .regs, .events, .frz, .pwr, .leave, .masked, .tx, .mgt, .cmx] ⊆ K) (hK : Keeps K b0 s) : Keeps K b0 (State.restartCore s m cause slot retried) := by
  unfold State.restartCore
  try dsimp only
  repeat' first
    | with_reducible assumption
    | (with_reducible refine List.Subset.trans ?_ hp; decide)
    | with_reducible apply State.puts_keeps
    | with_reducible apply State.inc_keeps
    | with_reducible apply State.later_keeps
    | with_reducible apply State.hintSet_keeps
    | with_reducible apply State.maskCore_keeps
    | with_reducible refine Keeps.ofEq (by with_reducible assumption) ?_
    | with_reducible apply Keeps.ite
    | dsimp only
    | split
    | with_reducible apply Keeps.set_mgt

theorem State.seqEnd_keeps {b0 s : State} (q : CoreSeq) (hp : [.agenda, .regs, .freeCtr, .events, .mgt, .boot] ⊆ K) (hK : Keeps K b0 s) : Keeps K b0 (State.seqEnd s q) := by
  unfold State.seqEnd
  try dsimp only
  repeat' first
    | with_reducible assumption
    | (with_reducible refine List.Subset.trans ?_ hp; decide)
    | with_reducible apply State.put_keeps
    | with_reducible apply State.later_keeps
    | with_reducible apply State.event_keeps
    | with_reducible apply State.hallStart_keeps
    | with_reducible apply State.setRole_keeps
    | with_reducible apply State.setOutcome_keeps
    | with_reducible refine Keeps.ofEq (by with_reducible assumption) ?_
    | with_reducible apply Keeps.ite
    | (with_reducible refine Keeps.foldl ?_ (fun _ _ _ => ?_) <;> try dsimp only)
    | dsimp only
    | split
    | with_reducible apply Keeps.set_mgt

theorem State.seqStep_keeps {b0 s : State} (q : CoreSeq) (hp : [.agenda, .regs, .freeCtr, .events, .frz, .pwr, .leave, .masked, .tx, .mgt, .cmx, .boot] ⊆ K) (hK : Keeps K b0 s) : Keeps K b0 (State.seqStep s q) := by
  unfold State.seqStep
  try dsimp only
  repeat' first
    | with_reducible assumption
    | (with_reducible refine List.Subset.trans ?_ hp; decide)
    | with_reducible apply State.put_keeps
    | with_reducible apply State.setSlot_keeps
    | with_reducible apply State.showSlot_keeps
    | with_reducible apply State.restartCore_keeps
    | with_reducible apply State.seqEnd_keeps
    | with_reducible refine Keeps.ofEq (by with_reducible assumption) ?_
    | with_reducible apply Keeps.ite
    | dsimp only
    | split
    | with_reducible apply Keeps.set_mgt

theorem State.seqsGo_keeps {b0 s : State} (hp : [.agenda, .regs, .freeCtr, .events, .frz, .pwr, .leave, .masked, .tx, .mgt, .cmx, .boot] ⊆ K) (hK : Keeps K b0 s) : Keeps K b0 (State.seqsGo s) := by
  unfold State.seqsGo
  try dsimp only
  repeat' first
    | with_reducible assumption
    | with_reducible apply State.seqStep_keeps
    | with_reducible refine Keeps.ofEq (by with_reducible assumption) ?_
    | with_reducible apply Keeps.ite
    | (with_reducible refine Keeps.foldl ?_ (fun _ _ _ => ?_) <;> try dsimp only)

theorem State.seqsDone_keeps {b0 s : State} (m : Nat) (hp : [.agenda, .regs, .freeCtr, .events, .frz, .pwr, .leave, .masked, .tx, .mgt, .cmx, .boot] ⊆ K) (hK : Keeps K b0 s) : Keeps K b0 (State.seqsDone s m) := by
  unfold State.seqsDone
  try dsimp only
  repeat' first
    | with_reducible assumption
    | (with_reducible refine List.Subset.trans ?_ hp; decide)
    | with_reducible apply State.seqsGo_keeps
    | with_reducible refine Keeps.ofEq (by with_reducible assumption) ?_
    | with_reducible apply Keeps.ite
    | dsimp only
    | split
    | with_reducible apply Keeps.set_mgt

theorem State.revertRole_keeps {b0 s : State} (r m : Nat) (hp : [.agenda, .regs, .freeCtr, .detected, .events, .frz, .pwr, .leave, .masked, .tx, .mgt, .cmx, .boot] ⊆ K) (hK : Keeps K b0 s) : Keeps K b0 (State.revertRole s r m) := by
  unfold State.revertRole
  try dsimp only
  repeat' first
    | with_reducible assumption
    | (with_reducible refine List.Subset.trans ?_ hp; decide)
    | with_reducible apply State.showSlot_keeps
    | with_reducible apply State.setRole_keeps
    | with_reducible apply State.mgtErr_keeps
    | with_reducible apply State.seqsGo_keeps
    | with_reducible refine Keeps.ofEq (by with_reducible assumption) ?_
    | with_reducible apply Keeps.ite
    | dsimp only
    | split
    | with_reducible apply Keeps.set_mgt

theorem State.startFailed_keeps {b0 s : State} (x : Restart) (hp : [.agenda, .regs, .freeCtr, .detected, .events, .frz, .pwr, .leave, .masked, .tx, .mgt, .cmx, .boot] ⊆ K) (hK : Keeps K b0 s) : Keeps K b0 (State.startFailed s x) := by
  unfold State.startFailed
  try dsimp only
  repeat' first
    | with_reducible assumption
    | (with_reducible refine List.Subset.trans ?_ hp; decide)
    | with_reducible apply State.put_keeps
    | with_reducible apply State.event_keeps
    | with_reducible apply State.jobsGo_keeps
    | with_reducible apply State.hintSet_keeps
    | with_reducible apply State.maskCore_keeps
    | with_reducible apply State.setRole_keeps
    | with_reducible apply State.setOutcome_keeps
    | with_reducible apply State.restartCore_keeps
    | with_reducible apply State.seqsDone_keeps
    | with_reducible apply State.revertRole_keeps
    | with_reducible refine Keeps.ofEq (by with_reducible assumption) ?_
    | with_reducible apply Keeps.ite
    | dsimp only
    | split
    | with_reducible apply Keeps.set_mgt

theorem State.kernelCore_keeps {b0 s : State} (m cause : Nat) (hp : [.agenda, .regs, .events, .frz, .pwr, .leave, .masked, .tx, .mgt, .cmx] ⊆ K) (hK : Keeps K b0 s) : Keeps K b0 (State.kernelCore s m cause) := by
  unfold State.kernelCore
  try dsimp only
  repeat' first
    | with_reducible assumption
    | (with_reducible refine List.Subset.trans ?_ hp; decide)
    | with_reducible apply State.puts_keeps
    | with_reducible apply State.inc_keeps
    | with_reducible apply State.hintSet_keeps
    | with_reducible apply State.maskCore_keeps
    | with_reducible apply State.unmaskCore_keeps

theorem execCoreRestart_keeps {b0 s : State} (core : Core) (cause : RestartCause) (hp : [.agenda, .regs, .events, .frz, .pwr, .leave, .masked, .tx, .mgt, .cmx] ⊆ K) (hK : Keeps K b0 s) : KeepsO K b0 (execCoreRestart core cause s) := by
  unfold execCoreRestart
  try dsimp only
  repeat' first
    | with_reducible assumption
    | with_reducible apply KeepsO.next
    | with_reducible apply State.restartCore_keeps
    | with_reducible apply State.kernelCore_keeps
    | with_reducible refine Keeps.ofEq (by with_reducible assumption) ?_
    | with_reducible apply Keeps.ite

theorem execCoreRelease_keeps {b0 s : State} (core : Core) (hp : [.agenda, .regs, .freeCtr, .detected, .events, .frz, .pwr, .leave, .masked, .tx, .mgt, .cmx, .boot] ⊆ K) (hK : Keeps K b0 s) : KeepsO K b0 (execCoreRelease core s) := by
  unfold execCoreRelease
  try dsimp only
  repeat' first
    | with_reducible assumption
    | (with_reducible refine List.Subset.trans ?_ hp; decide)
    | with_reducible apply KeepsO.next
    | with_reducible apply State.put_keeps
    | with_reducible apply State.at'_keeps
    | with_reducible apply State.unmaskCore_keeps
    | with_reducible apply State.mgtErr_keeps
    | with_reducible apply State.startFailed_keeps
    | with_reducible refine Keeps.ofEq (by with_reducible assumption) ?_
    | with_reducible apply Keeps.ite
    | with_reducible apply KeepsO.ite
    | dsimp only
    | split
    | with_reducible apply Keeps.set_mgt

theorem execRestartKickTimeout_keeps {b0 s : State} (core : Core) (hp : [.agenda, .regs, .freeCtr, .detected, .events, .frz, .pwr, .leave, .masked, .tx, .mgt, .cmx, .boot] ⊆ K) (hK : Keeps K b0 s) : KeepsO K b0 (execRestartKickTimeout core s) := by
  unfold execRestartKickTimeout
  try dsimp only
  repeat' first
    | with_reducible assumption
    | with_reducible apply KeepsO.next
    | with_reducible apply State.at'_keeps
    | with_reducible apply State.startFailed_keeps
    | with_reducible refine Keeps.ofEq (by with_reducible assumption) ?_
    | with_reducible apply Keeps.ite
    | with_reducible apply KeepsO.ite
    | dsimp only
    | split

theorem State.coreBack_keeps {b0 s : State} (m : Nat) (hp : [.agenda, .events, .mgt] ⊆ K) (hK : Keeps K b0 s) : Keeps K b0 (State.coreBack s m) := by
  unfold State.coreBack
  try dsimp only
  repeat' first
    | with_reducible assumption
    | (with_reducible refine List.Subset.trans ?_ hp; decide)
    | with_reducible apply State.arm_keeps
    | with_reducible apply State.jobsGo_keeps
    | with_reducible apply State.fifoEvents_keeps
    | with_reducible refine Keeps.ofEq (by with_reducible assumption) ?_
    | with_reducible apply Keeps.ite
    | dsimp only
    | split
    | with_reducible apply Keeps.set_mgt

theorem State.restartEvent_keeps {b0 s : State} (x : Restart) (hp : [.agenda, .events] ⊆ K) (hK : Keeps K b0 s) : Keeps K b0 (State.restartEvent s x) := by
  unfold State.restartEvent
  try dsimp only
  repeat' first
    | with_reducible assumption
    | with_reducible apply State.event_keeps

theorem execWdtKick_keeps {b0 s : State} (m : Master) (core : Core) (v : W32) (hp : [.agenda, .regs, .freeCtr, .detected, .events, .frz, .pwr, .leave, .masked, .tx, .mgt, .cmx, .boot] ⊆ K) (hK : Keeps K b0 s) : KeepsO K b0 (execWdtKick m core v s) := by
  unfold execWdtKick
  try dsimp only
  repeat' first
    | with_reducible assumption
    | (with_reducible refine List.Subset.trans ?_ hp; decide)
    | with_reducible apply KeepsO.next
    | with_reducible apply State.put_keeps
    | with_reducible apply State.puts_keeps
    | with_reducible apply State.arm_keeps
    | with_reducible apply State.gate_keeps
    | with_reducible apply State.row_keeps
    | with_reducible apply State.seqsDone_keeps
    | with_reducible apply State.coreBack_keeps
    | with_reducible apply State.restartEvent_keeps
    | with_reducible refine Keeps.ofEq (by with_reducible assumption) ?_
    | with_reducible apply Keeps.ite
    | with_reducible apply KeepsO.ite
    | (intro _ _ <;> try dsimp only)
    | dsimp only
    | split
    | with_reducible apply Keeps.set_mgt

theorem State.kernelRestart_keeps {b0 s : State} (hp : [.agenda, .regs, .events, .frz, .pwr, .leave, .masked, .tx, .mgt, .cmx, .boot] ⊆ K) (hK : Keeps K b0 s) : Keeps K b0 (State.kernelRestart s) := by
  unfold State.kernelRestart
  try dsimp only
  repeat' first
    | with_reducible assumption
    | (with_reducible refine List.Subset.trans ?_ hp; decide)
    | with_reducible apply State.at'_keeps
    | with_reducible apply State.later_keeps
    | with_reducible apply State.kernelCore_keeps
    | with_reducible refine Keeps.ofEq (by with_reducible assumption) ?_
    | with_reducible apply Keeps.ite
    | (with_reducible refine Keeps.foldl ?_ (fun _ _ _ => ?_) <;> try dsimp only)
    | dsimp only
    | split
    | with_reducible apply Keeps.set_mgt
    | with_reducible apply Keeps.set_boot

theorem execWatchdogExpiry_keeps {b0 s : State} (core : Core) (hp : [.agenda, .regs, .freeCtr, .detected, .events, .frz, .pwr, .leave, .masked, .tx, .mgt, .cmx, .boot] ⊆ K) (hK : Keeps K b0 s) : KeepsO K b0 (execWatchdogExpiry core s) := by
  unfold execWatchdogExpiry
  try dsimp only
  repeat' first
    | with_reducible assumption
    | (with_reducible refine List.Subset.trans ?_ hp; decide)
    | with_reducible apply KeepsO.next
    | with_reducible apply State.at'_keeps
    | with_reducible apply State.disarm_keeps
    | with_reducible apply State.mgtErr_keeps
    | with_reducible apply State.restartCore_keeps
    | with_reducible apply State.revertRole_keeps
    | with_reducible apply State.kernelRestart_keeps
    | with_reducible refine Keeps.ofEq (by with_reducible assumption) ?_
    | with_reducible apply Keeps.ite

theorem execMgtRestartWrite_keeps {b0 s : State} (m : Master) (v : W32) (hp : [.agenda, .detected] ⊆ K) (hK : Keeps K b0 s) : KeepsO K b0 (execMgtRestartWrite m v s) := by
  unfold execMgtRestartWrite
  try dsimp only
  repeat' first
    | with_reducible assumption
    | (with_reducible refine List.Subset.trans ?_ hp; decide)
    | with_reducible apply KeepsO.next
    | with_reducible apply State.later_keeps
    | with_reducible apply State.gate_keeps
    | with_reducible apply State.row_keeps
    | with_reducible refine Keeps.ofEq (by with_reducible assumption) ?_
    | with_reducible apply Keeps.ite
    | (with_reducible refine Keeps.foldl ?_ (fun _ _ _ => ?_) <;> try dsimp only)
    | with_reducible apply KeepsO.ite
    | (intro _ _ <;> try dsimp only)

theorem execMgtRemapWrite_keeps {b0 s : State} (m : Master) (core : Core) (v : W32) (hp : [.agenda, .regs, .detected] ⊆ K) (hK : Keeps K b0 s) : KeepsO K b0 (execMgtRemapWrite m core v s) := by
  unfold execMgtRemapWrite
  try dsimp only
  repeat' first
    | with_reducible assumption
    | (with_reducible refine List.Subset.trans ?_ hp; decide)
    | with_reducible apply KeepsO.next
    | with_reducible apply State.setReg_keeps
    | with_reducible apply State.gate_keeps
    | with_reducible apply State.row_keeps
    | with_reducible refine Keeps.ofEq (by with_reducible assumption) ?_
    | with_reducible apply Keeps.ite
    | with_reducible apply KeepsO.ite
    | (intro _ _ <;> try dsimp only)

theorem State.actStart_keeps {b0 s : State} (r : Nat) (hp : [.agenda, .regs, .freeCtr, .events, .frz, .pwr, .leave, .masked, .tx, .mgt, .cmx, .boot] ⊆ K) (hK : Keeps K b0 s) : Keeps K b0 (State.actStart s r) := by
  unfold State.actStart
  try dsimp only
  repeat' first
    | with_reducible assumption
    | (with_reducible refine List.Subset.trans ?_ hp; decide)
    | with_reducible apply State.setRole_keeps
    | with_reducible apply State.seqsGo_keeps
    | with_reducible refine Keeps.ofEq (by with_reducible assumption) ?_
    | with_reducible apply Keeps.ite
    | dsimp only
    | split
    | with_reducible apply Keeps.set_mgt

theorem execMgtActWrite_keeps {b0 s : State} (m : Master) (v : W32) (hp : [.agenda, .regs, .freeCtr, .detected, .events, .frz, .pwr, .leave, .masked, .tx, .mgt, .cmx, .boot] ⊆ K) (hK : Keeps K b0 s) : KeepsO K b0 (execMgtActWrite m v s) := by
  unfold execMgtActWrite
  try dsimp only
  repeat' first
    | with_reducible assumption
    | (with_reducible refine List.Subset.trans ?_ hp; decide)
    | with_reducible apply KeepsO.next
    | with_reducible apply State.put_keeps
    | with_reducible apply State.event_keeps
    | with_reducible apply State.gate_keeps
    | with_reducible apply State.row_keeps
    | with_reducible apply State.setRole_keeps
    | with_reducible apply State.actStart_keeps
    | with_reducible refine Keeps.ofEq (by with_reducible assumption) ?_
    | with_reducible apply Keeps.ite
    | with_reducible apply KeepsO.ite
    | (intro _ _ <;> try dsimp only)
    | dsimp only
    | split
    | with_reducible apply Keeps.set_mgt

theorem execActivationStart_keeps {b0 s : State} (hp : [.agenda, .regs, .freeCtr, .events, .frz, .pwr, .leave, .masked, .tx, .mgt, .cmx, .boot] ⊆ K) (hK : Keeps K b0 s) : KeepsO K b0 (execActivationStart s) := by
  unfold execActivationStart
  try dsimp only
  repeat' first
    | with_reducible assumption
    | with_reducible apply KeepsO.next
    | with_reducible apply State.seqsGo_keeps
    | with_reducible apply State.actStart_keeps
    | with_reducible refine Keeps.ofEq (by with_reducible assumption) ?_
    | with_reducible apply Keeps.ite
    | (with_reducible refine Keeps.foldl ?_ (fun _ _ _ => ?_) <;> try dsimp only)

theorem execProbationEnd_keeps {b0 s : State} (role : Fin 4) (hp : [.agenda, .regs, .freeCtr, .mgt, .boot] ⊆ K) (hK : Keeps K b0 s) : KeepsO K b0 (execProbationEnd role s) := by
  unfold execProbationEnd
  try dsimp only
  repeat' first
    | with_reducible assumption
    | (with_reducible refine List.Subset.trans ?_ hp; decide)
    | with_reducible apply KeepsO.next
    | with_reducible apply State.put_keeps
    | with_reducible apply State.setRole_keeps
    | with_reducible apply State.setOutcome_keeps
    | with_reducible refine Keeps.ofEq (by with_reducible assumption) ?_
    | with_reducible apply Keeps.ite
    | with_reducible apply KeepsO.ite
    | dsimp only
    | split
    | with_reducible apply Keeps.set_mgt

theorem execRecovery_keeps {b0 s : State} (m : Master) (v : W32) (hp : [.agenda, .detected, .mgt] ⊆ K) (hK : Keeps K b0 s) : KeepsO K b0 (execRecovery m v s) := by
  unfold execRecovery
  try dsimp only
  repeat' first
    | with_reducible assumption
    | (with_reducible refine List.Subset.trans ?_ hp; decide)
    | with_reducible apply KeepsO.next
    | with_reducible apply State.later_keeps
    | with_reducible apply State.gate_keeps
    | with_reducible apply State.row_keeps
    | with_reducible refine Keeps.ofEq (by with_reducible assumption) ?_
    | with_reducible apply Keeps.ite
    | with_reducible apply KeepsO.ite
    | (intro _ _ <;> try dsimp only)
    | dsimp only
    | split
    | with_reducible apply Keeps.set_mgt

theorem execSelfHalt_keeps {b0 s : State} (m : Master) (v : W32) (hp : [.agenda, .regs, .detected, .mgt, .cmx] ⊆ K) (hK : Keeps K b0 s) : KeepsO K b0 (execSelfHalt m v s) := by
  unfold execSelfHalt
  try dsimp only
  repeat' first
    | with_reducible assumption
    | (with_reducible refine List.Subset.trans ?_ hp; decide)
    | with_reducible apply KeepsO.next
    | with_reducible apply State.later_keeps
    | with_reducible apply State.gate_keeps
    | with_reducible apply State.row_keeps
    | with_reducible apply State.haltCore_keeps
    | with_reducible apply State.endLocks_keeps
    | with_reducible refine Keeps.ofEq (by with_reducible assumption) ?_
    | with_reducible apply Keeps.ite
    | with_reducible apply KeepsO.ite
    | (intro _ _ <;> try dsimp only)
    | dsimp only
    | split
    | with_reducible apply Keeps.set_mgt
    | with_reducible apply Keeps.set_cmx

theorem execResume_keeps {b0 s : State} (m : Master) (v : W32) (hp : [.agenda, .regs, .detected, .mgt] ⊆ K) (hK : Keeps K b0 s) : KeepsO K b0 (execResume m v s) := by
  unfold execResume
  try dsimp only
  repeat' first
    | with_reducible assumption
    | (with_reducible refine List.Subset.trans ?_ hp; decide)
    | with_reducible apply KeepsO.next
    | with_reducible apply State.gate_keeps
    | with_reducible apply State.row_keeps
    | with_reducible apply State.resumeCores_keeps
    | with_reducible refine Keeps.ofEq (by with_reducible assumption) ?_
    | with_reducible apply Keeps.ite
    | with_reducible apply KeepsO.ite
    | (intro _ _ <;> try dsimp only)
end Sys2Proof.Machine
end

