-- ==== Sys2Proof/Laws/KeepsSubmit.lean ====
section
/-! SUPPORT. What the operations and commands of Machine/Submit.lean leave alone: one lemma each, in the terms of `Keeps`. The list each
asks for holds the parts it may change. -/
namespace Sys2Proof.Machine
variable {K : List Part}
theorem State.sq_keeps {b0 s : State} (i : W32) (op : Nat) (again : Instr) (go : State → Job → State) (hp : [.agenda, .freeCtr, .mgt] ⊆ K) (hK : Keeps K b0 s) (hf : ∀ u j, Keeps K b0 u → Keeps K b0 (go u j)) : Keeps K b0 (State.sq s i op again go) := by
  unfold State.sq
  repeat' first
    | with_reducible assumption
    | (with_reducible refine List.Subset.trans ?_ hp; decide)
    | with_reducible apply State.jobEnd_keeps
    | with_reducible apply State.fwWait_keeps
    | with_reducible apply hf
    | split

theorem State.sqStage_keeps {b0 s : State} (j : Job) (stage : Nat) (again : Instr) (hp : [.agenda, .freeCtr, .mgt] ⊆ K) (hK : Keeps K b0 s) : Keeps K b0 (State.sqStage s j stage again) := by
  unfold State.sqStage
  try dsimp only
  repeat' first
    | with_reducible assumption
    | (with_reducible refine List.Subset.trans ?_ hp; decide)
    | with_reducible apply State.fwWait_keeps
    | with_reducible apply State.setJob_keeps

theorem execSqNop_keeps {b0 s : State} (i : W32) (hp : [.agenda, .freeCtr, .mgt] ⊆ K) (hK : Keeps K b0 s) : KeepsO K b0 (execSqNop i s) := by
  unfold execSqNop
  try dsimp only
  repeat' first
    | with_reducible assumption
    | (with_reducible refine List.Subset.trans ?_ hp; decide)
    | with_reducible apply KeepsO.next
    | with_reducible apply State.jobEnd_keeps
    | with_reducible apply State.sq_keeps
    | with_reducible refine Keeps.ofEq (by with_reducible assumption) ?_
    | with_reducible apply Keeps.ite
    | with_reducible apply KeepsO.ite
    | (intro _ _; try dsimp only)

theorem State.ctxAnswer_keeps {b0 s : State} (j : Job) (hp : [.agenda, .mgt] ⊆ K) (hK : Keeps K b0 s) : Keeps K b0 (State.ctxAnswer s j) := by
  unfold State.ctxAnswer
  try dsimp only
  repeat' first
    | with_reducible assumption
    | with_reducible apply State.jobEnd_keeps
    | with_reducible refine Keeps.ofEq (by with_reducible assumption) ?_
    | with_reducible apply Keeps.ite

theorem execSqActivate_keeps {b0 s : State} (i : W32) (hp : [.agenda, .regs, .freeCtr, .detected, .mgt] ⊆ K) (hK : Keeps K b0 s) : KeepsO K b0 (execSqActivate i s) := by
  unfold execSqActivate
  try dsimp only
  repeat' first
    | with_reducible assumption
    | (with_reducible refine List.Subset.trans ?_ hp; decide)
    | with_reducible apply KeepsO.next
    | with_reducible apply State.puts_keeps
    | with_reducible apply execCtxActivate_keeps
    | with_reducible apply ran_keeps
    | with_reducible apply State.sq_keeps
    | with_reducible apply State.ctxAnswer_keeps
    | with_reducible refine Keeps.ofEq (by with_reducible assumption) ?_
    | with_reducible apply Keeps.ite
    | with_reducible apply KeepsO.ite
    | (intro _ _ <;> try dsimp only)
    | (intro _; try dsimp only)

theorem execSqDeactivate_keeps {b0 s : State} (i : W32) (hp : [.agenda, .regs, .freeCtr, .detected, .mgt] ⊆ K) (hK : Keeps K b0 s) : KeepsO K b0 (execSqDeactivate i s) := by
  unfold execSqDeactivate
  try dsimp only
  repeat' first
    | with_reducible assumption
    | (with_reducible refine List.Subset.trans ?_ hp; decide)
    | with_reducible apply KeepsO.next
    | with_reducible apply State.put_keeps
    | with_reducible apply execCtxDeactivate_keeps
    | with_reducible apply ran_keeps
    | with_reducible apply State.sq_keeps
    | with_reducible apply State.ctxAnswer_keeps
    | with_reducible refine Keeps.ofEq (by with_reducible assumption) ?_
    | with_reducible apply Keeps.ite
    | with_reducible apply KeepsO.ite
    | (intro _ _ <;> try dsimp only)
    | (intro _; try dsimp only)

theorem State.bindWins_keeps {b0 s : State} (c mask : Nat) (y0 : List Nat) (y1 : Nat) (hp : [.agenda, .regs, .detected, .ctx] ⊆ K) (hK : Keeps K b0 s) : Keeps K b0 (State.bindWins s c mask y0 y1).1 := by
  induction y0 generalizing s y1 with
  | nil =>
    unfold State.bindWins
    try dsimp only
    repeat' first
      | with_reducible assumption
  | cons x xs ih =>
    unfold State.bindWins
    try dsimp only
    repeat' first
      | with_reducible assumption
      | (with_reducible refine List.Subset.trans ?_ hp; decide)
      | with_reducible apply State.put_keeps
      | with_reducible apply execWindowBind_keeps
      | with_reducible apply ran_keeps
      | with_reducible refine Keeps.ofEq (by with_reducible assumption) ?_
      | with_reducible apply ih
      | with_reducible apply Keeps.ite
      | dsimp only
      | split

theorem State.bindGroups_keeps {b0 s : State} (c mask : Nat) (y0 : List Nat) (hp : [.agenda, .regs, .detected] ⊆ K) (hK : Keeps K b0 s) : Keeps K b0 (State.bindGroups s c mask y0).1 := by
  induction y0 generalizing s with
  | nil =>
    unfold State.bindGroups
    try dsimp only
    repeat' first
      | with_reducible assumption
  | cons x xs ih =>
    unfold State.bindGroups
    try dsimp only
    repeat' first
      | with_reducible assumption
      | with_reducible apply execEagWrite_keeps
      | with_reducible apply ran_keeps
      | with_reducible refine Keeps.ofEq (by with_reducible assumption) ?_
      | with_reducible apply ih
      | with_reducible apply Keeps.ite
      | dsimp only
      | split

theorem execSqBind_keeps {b0 s : State} (i : W32) (hp : [.agenda, .regs, .freeCtr, .detected, .ctx, .mgt] ⊆ K) (hK : Keeps K b0 s) : KeepsO K b0 (execSqBind i s) := by
  unfold execSqBind
  try dsimp only
  repeat' first
    | with_reducible assumption
    | (with_reducible refine List.Subset.trans ?_ hp; decide)
    | with_reducible apply KeepsO.next
    | with_reducible apply State.put_keeps
    | with_reducible apply execCtxBind_keeps
    | with_reducible apply ran_keeps
    | with_reducible apply State.jobEnd_keeps
    | with_reducible apply State.sq_keeps
    | with_reducible apply State.bindWins_keeps
    | with_reducible apply State.bindGroups_keeps
    | with_reducible refine Keeps.ofEq (by with_reducible assumption) ?_
    | with_reducible apply Keeps.ite
    | with_reducible apply KeepsO.ite
    | (intro _ _ <;> try dsimp only)
    | (intro _; try dsimp only)

theorem execSqKill_keeps {b0 s : State} (i : W32) (hp : [.agenda, .regs, .freeCtr, .detected, .outs, .stp, .set, .loose, .syn, .fifos, .runners, .ctx, .leave, .mgt, .hfp] ⊆ K) (hK : Keeps K b0 s) : KeepsO K b0 (execSqKill i s) := by
  unfold execSqKill
  try dsimp only
  repeat' first
    | with_reducible assumption
    | (with_reducible refine List.Subset.trans ?_ hp; decide)
    | with_reducible apply KeepsO.next
    | with_reducible apply State.put_keeps
    | with_reducible apply execCtxKill_keeps
    | with_reducible apply ran_keeps
    | with_reducible apply State.jobsGo_keeps
    | with_reducible apply State.setJob_keeps
    | with_reducible apply State.jobEnd_keeps
    | with_reducible apply State.sq_keeps
    | with_reducible refine Keeps.ofEq (by with_reducible assumption) ?_
    | with_reducible apply Keeps.ite
    | with_reducible apply KeepsO.ite
    | (intro _ _ <;> try dsimp only)
    | (intro _; try dsimp only)

theorem execSqWindow_keeps {b0 s : State} (i : W32) (hp : [.agenda, .regs, .freeCtr, .detected, .loose, .rep, .syn, .ctx, .leave, .mgt] ⊆ K) (hK : Keeps K b0 s) : KeepsO K b0 (execSqWindow i s) := by
  unfold execSqWindow
  try dsimp only
  repeat' first
    | with_reducible assumption
    | (with_reducible refine List.Subset.trans ?_ hp; decide)
    | with_reducible apply KeepsO.next
    | with_reducible apply State.put_keeps
    | with_reducible apply execWindowUnbind_keeps
    | with_reducible apply execWindowRelease_keeps
    | with_reducible apply State.fwWait_keeps
    | with_reducible apply ran_keeps
    | with_reducible apply State.jobEnd_keeps
    | with_reducible apply State.sq_keeps
    | with_reducible apply State.sqStage_keeps
    | with_reducible refine Keeps.ofEq (by with_reducible assumption) ?_
    | with_reducible apply Keeps.ite
    | with_reducible apply KeepsO.ite
    | (intro _ _ <;> try dsimp only)
    | (intro _; try dsimp only)

theorem State.runTake_keeps {b0 s : State} (j : Job) (p r : Nat) (hp : [.agenda, .regs, .freeCtr, .detected, .outs, .runners, .mgt, .cmx, .counted] ⊆ K) (hK : Keeps K b0 s) : Keeps K b0 (State.runTake s j p r) := by
  unfold State.runTake
  try dsimp only
  repeat' first
    | with_reducible assumption
    | (with_reducible refine List.Subset.trans ?_ hp; decide)
    | with_reducible apply State.setRunner_keeps
    | with_reducible apply execCmplPop_keeps
    | with_reducible apply State.fwWait_keeps
    | with_reducible apply ran_keeps
    | with_reducible apply State.jobEnd_keeps
    | with_reducible refine Keeps.ofEq (by with_reducible assumption) ?_
    | with_reducible apply Keeps.ite
    | dsimp only
    | split

theorem execSqRun_keeps {b0 s : State} (i : W32) (hp : [.agenda, .regs, .freeCtr, .detected, .outs, .stp, .runners, .mgt, .cmx, .counted] ⊆ K) (hK : Keeps K b0 s) : KeepsO K b0 (execSqRun i s) := by
  unfold execSqRun
  try dsimp only
  repeat' first
    | with_reducible assumption
    | (with_reducible refine List.Subset.trans ?_ hp; decide)
    | with_reducible apply KeepsO.next
    | with_reducible apply State.setReg_keeps
    | with_reducible apply State.useFree_keeps
    | with_reducible apply execRunnerListGo_keeps
    | with_reducible apply ran_keeps
    | with_reducible apply State.jobsGo_keeps
    | with_reducible apply State.setJob_keeps
    | with_reducible apply State.jobEnd_keeps
    | with_reducible apply State.sq_keeps
    | with_reducible apply State.runTake_keeps
    | with_reducible refine Keeps.ofEq (by with_reducible assumption) ?_
    | with_reducible apply Keeps.ite
    | with_reducible apply KeepsO.ite
    | (intro _ _ <;> try dsimp only)
    | (intro _ <;> try dsimp only)
    | dsimp only
    | split

theorem State.syncAll_keeps {b0 s : State} (j : Job) (sel : Nat → CtrSel) (y0 : List Nat) (y1 : Option Nat) (hp : [.agenda, .regs, .detected, .outs, .syn, .cmx, .counted] ⊆ K) (hK : Keeps K b0 s) : Keeps K b0 (State.syncAll s j sel y0 y1).1 := by
  induction y0 generalizing s y1 with
  | nil =>
    unfold State.syncAll
    try dsimp only
    repeat' first
      | with_reducible assumption
  | cons x xs ih =>
    unfold State.syncAll
    try dsimp only
    repeat' first
      | with_reducible assumption
      | with_reducible apply execCounterBind_keeps
      | with_reducible apply execCounterUnbind_keeps
      | with_reducible apply ran_keeps
      | with_reducible refine Keeps.ofEq (by with_reducible assumption) ?_
      | with_reducible apply ih
      | with_reducible apply Keeps.ite
      | dsimp only
      | split

theorem execSqSync_keeps {b0 s : State} (i : W32) (hp : [.agenda, .regs, .freeCtr, .detected, .outs, .syn, .mgt, .cmx, .counted] ⊆ K) (hK : Keeps K b0 s) : KeepsO K b0 (execSqSync i s) := by
  unfold execSqSync
  try dsimp only
  repeat' first
    | with_reducible assumption
    | (with_reducible refine List.Subset.trans ?_ hp; decide)
    | with_reducible apply KeepsO.next
    | with_reducible apply State.jobEnd_keeps
    | with_reducible apply State.sq_keeps
    | with_reducible apply State.syncAll_keeps
    | with_reducible refine Keeps.ofEq (by with_reducible assumption) ?_
    | with_reducible apply Keeps.ite
    | with_reducible apply KeepsO.ite
    | (intro _ _ <;> try dsimp only)
    | (intro _ <;> try dsimp only)
    | dsimp only
    | split

theorem State.fifoAll_keeps {b0 s : State} (j : Job) (p : Nat) (y0 : List Nat) (y1 : Option Nat) (hp : [.agenda, .regs, .detected, .outs, .fifos, .cmx, .counted] ⊆ K) (hK : Keeps K b0 s) : Keeps K b0 (State.fifoAll s j p y0 y1).1 := by
  induction y0 generalizing s y1 with
  | nil =>
    unfold State.fifoAll
    try dsimp only
    repeat' first
      | with_reducible assumption
  | cons x xs ih =>
    unfold State.fifoAll
    try dsimp only
    repeat' first
      | with_reducible assumption
      | (with_reducible refine List.Subset.trans ?_ hp; decide)
      | with_reducible apply State.put_keeps
      | with_reducible apply State.locked_keeps
      | with_reducible apply execHffCfgWrite_keeps
      | with_reducible apply ran_keeps
      | with_reducible refine Keeps.ofEq (by with_reducible assumption) ?_
      | with_reducible apply ih
      | with_reducible apply Keeps.ite
      | dsimp only
      | split

theorem execSqFifo_keeps {b0 s : State} (i : W32) (hp : [.agenda, .regs, .freeCtr, .detected, .outs, .fifos, .mgt, .cmx, .counted] ⊆ K) (hK : Keeps K b0 s) : KeepsO K b0 (execSqFifo i s) := by
  unfold execSqFifo
  try dsimp only
  repeat' first
    | with_reducible assumption
    | (with_reducible refine List.Subset.trans ?_ hp; decide)
    | with_reducible apply KeepsO.next
    | with_reducible apply State.jobEnd_keeps
    | with_reducible apply State.sq_keeps
    | with_reducible apply State.fifoAll_keeps
    | with_reducible refine Keeps.ofEq (by with_reducible assumption) ?_
    | with_reducible apply Keeps.ite
    | with_reducible apply KeepsO.ite
    | (intro _ _ <;> try dsimp only)
    | (intro _ <;> try dsimp only)
    | dsimp only
    | split

theorem State.assayStart_keeps {b0 s : State} (j : Job) (y0 : List Nat) (hp : [.agenda, .regs, .detected, .outs, .rep, .leave, .cmx, .counted] ⊆ K) (hK : Keeps K b0 s) : Keeps K b0 (State.assayStart s j y0).1 := by
  induction y0 generalizing s with
  | nil =>
    unfold State.assayStart
    try dsimp only
    repeat' first
      | with_reducible assumption
  | cons x xs ih =>
    unfold State.assayStart
    try dsimp only
    repeat' first
      | with_reducible assumption
      | (with_reducible refine List.Subset.trans ?_ hp; decide)
      | with_reducible apply State.puts_keeps
      | with_reducible apply execAssayGo_keeps
      | with_reducible apply ran_keeps
      | with_reducible refine Keeps.ofEq (by with_reducible assumption) ?_
      | with_reducible apply ih
      | with_reducible apply Keeps.ite
      | dsimp only
      | split

theorem execSqAssay_keeps {b0 s : State} (i : W32) (hp : [.agenda, .regs, .freeCtr, .detected, .outs, .rep, .leave, .mgt, .cmx, .counted] ⊆ K) (hK : Keeps K b0 s) : KeepsO K b0 (execSqAssay i s) := by
  unfold execSqAssay
  try dsimp only
  repeat' first
    | with_reducible assumption
    | (with_reducible refine List.Subset.trans ?_ hp; decide)
    | with_reducible apply KeepsO.next
    | with_reducible apply State.fwWait_keeps
    | with_reducible apply State.setJob_keeps
    | with_reducible apply State.jobEnd_keeps
    | with_reducible apply State.sq_keeps
    | with_reducible apply State.assayStart_keeps
    | with_reducible refine Keeps.ofEq (by with_reducible assumption) ?_
    | with_reducible apply Keeps.ite
    | with_reducible apply KeepsO.ite
    | (intro _ _ <;> try dsimp only)
    | (intro _ <;> try dsimp only)
    | dsimp only
    | split

theorem execSqFence_keeps {b0 s : State} (i : W32) (hp : [.agenda, .regs, .freeCtr, .detected, .rep, .mgt] ⊆ K) (hK : Keeps K b0 s) : KeepsO K b0 (execSqFence i s) := by
  unfold execSqFence
  try dsimp only
  repeat' first
    | with_reducible assumption
    | (with_reducible refine List.Subset.trans ?_ hp; decide)
    | with_reducible apply KeepsO.next
    | with_reducible apply execFenceCmd_keeps
    | with_reducible apply State.fwWait_keeps
    | with_reducible apply ran_keeps
    | with_reducible apply State.jobEnd_keeps
    | with_reducible apply State.sq_keeps
    | with_reducible apply State.sqStage_keeps
    | with_reducible refine Keeps.ofEq (by with_reducible assumption) ?_
    | with_reducible apply Keeps.ite
    | with_reducible apply KeepsO.ite
    | (intro _ _ <;> try dsimp only)
    | (intro _; try dsimp only)

theorem execSqRemap_keeps {b0 s : State} (i : W32) (hp : [.agenda, .regs, .freeCtr, .detected, .outs, .loose, .mgt, .cmx, .counted] ⊆ K) (hK : Keeps K b0 s) : KeepsO K b0 (execSqRemap i s) := by
  unfold execSqRemap
  try dsimp only
  repeat' first
    | with_reducible assumption
    | (with_reducible refine List.Subset.trans ?_ hp; decide)
    | with_reducible apply KeepsO.next
    | with_reducible apply State.puts_keeps
    | with_reducible apply execRemapAdd_keeps
    | with_reducible apply State.fwWait_keeps
    | with_reducible apply ran_keeps
    | with_reducible apply State.jobEnd_keeps
    | with_reducible apply State.sq_keeps
    | with_reducible apply State.sqStage_keeps
    | with_reducible refine Keeps.ofEq (by with_reducible assumption) ?_
    | with_reducible apply Keeps.ite
    | with_reducible apply KeepsO.ite
    | (intro _ _ <;> try dsimp only)
    | (intro _; try dsimp only)

theorem execSqRetire_keeps {b0 s : State} (i : W32) (hp : [.agenda, .regs, .freeCtr, .detected, .outs, .rep, .mgt, .cmx, .counted] ⊆ K) (hK : Keeps K b0 s) : KeepsO K b0 (execSqRetire i s) := by
  unfold execSqRetire
  try dsimp only
  repeat' first
    | with_reducible assumption
    | (with_reducible refine List.Subset.trans ?_ hp; decide)
    | with_reducible apply KeepsO.next
    | with_reducible apply execRetireWrite_keeps
    | with_reducible apply ran_keeps
    | with_reducible apply State.jobEnd_keeps
    | with_reducible apply State.sq_keeps
    | with_reducible refine Keeps.ofEq (by with_reducible assumption) ?_
    | with_reducible apply Keeps.ite
    | with_reducible apply KeepsO.ite
    | (intro _ _ <;> try dsimp only)
    | (intro _; try dsimp only)

theorem execSqLogown_keeps {b0 s : State} (i : W32) (hp : [.agenda, .regs, .freeCtr, .detected, .mgt] ⊆ K) (hK : Keeps K b0 s) : KeepsO K b0 (execSqLogown i s) := by
  unfold execSqLogown
  try dsimp only
  repeat' first
    | with_reducible assumption
    | (with_reducible refine List.Subset.trans ?_ hp; decide)
    | with_reducible apply KeepsO.next
    | with_reducible apply State.arm_keeps
    | with_reducible apply State.logCtl_keeps
    | with_reducible apply State.jobEnd_keeps
    | with_reducible apply State.sq_keeps
    | with_reducible refine Keeps.ofEq (by with_reducible assumption) ?_
    | with_reducible apply Keeps.ite
    | with_reducible apply KeepsO.ite
    | (intro _ _ <;> try dsimp only)
    | (intro _; try dsimp only)

theorem State.frzCtl_keeps {b0 s : State} (m : Master) (bit : Nat) (on : Bool) (hp : [.agenda, .regs, .detected, .frz, .tx] ⊆ K) (hK : Keeps K b0 s) : Keeps K b0 (State.frzCtl s m bit on) := by
  unfold State.frzCtl
  try dsimp only
  repeat' first
    | with_reducible assumption
    | with_reducible apply execFrzCtlWrite_keeps
    | with_reducible apply ran_keeps

theorem execSqDump_keeps {b0 s : State} (i : W32) (hp : [.agenda, .regs, .freeCtr, .detected, .frz, .syn, .tx, .mgt] ⊆ K) (hK : Keeps K b0 s) : KeepsO K b0 (execSqDump i s) := by
  unfold execSqDump
  try dsimp only
  repeat' first
    | with_reducible assumption
    | (with_reducible refine List.Subset.trans ?_ hp; decide)
    | with_reducible apply KeepsO.next
    | with_reducible apply ran_keeps
    | with_reducible apply execDumpGo_keeps
    | with_reducible apply State.fwWait_keeps
    | with_reducible apply State.jobEnd_keeps
    | with_reducible apply State.sq_keeps
    | with_reducible apply State.sqStage_keeps
    | with_reducible apply State.frzCtl_keeps
    | with_reducible refine Keeps.ofEq (by with_reducible assumption) ?_
    | with_reducible apply Keeps.ite
    | with_reducible apply KeepsO.ite
    | (intro _ _ <;> try dsimp only)
    | (intro _ <;> try dsimp only)
    | dsimp only
    | split

theorem execSqOppoint_keeps {b0 s : State} (i : W32) (hp : [.agenda, .regs, .freeCtr, .detected, .frz, .pwr, .tx, .mgt] ⊆ K) (hK : Keeps K b0 s) : KeepsO K b0 (execSqOppoint i s) := by
  unfold execSqOppoint
  try dsimp only
  repeat' first
    | with_reducible assumption
    | (with_reducible refine List.Subset.trans ?_ hp; decide)
    | with_reducible apply KeepsO.next
    | with_reducible apply State.puts_keeps
    | with_reducible apply execOpChange_keeps
    | with_reducible apply State.fwWait_keeps
    | with_reducible apply ran_keeps
    | with_reducible apply State.jobEnd_keeps
    | with_reducible apply State.sq_keeps
    | with_reducible apply State.sqStage_keeps
    | with_reducible apply State.frzCtl_keeps
    | with_reducible refine Keeps.ofEq (by with_reducible assumption) ?_
    | with_reducible apply Keeps.ite
    | with_reducible apply KeepsO.ite
    | (intro _ _ <;> try dsimp only)
    | (intro _ <;> try dsimp only)
    | dsimp only
    | split

theorem State.pstateCmd_keeps {b0 s : State} (target p : Nat) (hp : [.agenda, .regs, .detected, .pwr, .leave] ⊆ K) (hK : Keeps K b0 s) : Keeps K b0 (State.pstateCmd s target p) := by
  unfold State.pstateCmd
  try dsimp only
  repeat' first
    | with_reducible assumption
    | (with_reducible refine List.Subset.trans ?_ hp; decide)
    | with_reducible apply ran_keeps
    | with_reducible apply execCabCmdRun_keeps
    | with_reducible apply execCabCmdDoze_keeps
    | with_reducible apply execCabCmdHold_keeps
    | with_reducible apply execCabCmdQuench_keeps
    | with_reducible refine Keeps.ofEq (by with_reducible assumption) ?_
    | with_reducible apply Keeps.ite
    | dsimp only
    | split
    | with_reducible apply Keeps.set_pwr

theorem execSqPstate_keeps {b0 s : State} (i : W32) (hp : [.agenda, .regs, .freeCtr, .detected, .pwr, .leave, .mgt] ⊆ K) (hK : Keeps K b0 s) : KeepsO K b0 (execSqPstate i s) := by
  unfold execSqPstate
  try dsimp only
  repeat' first
    | with_reducible assumption
    | (with_reducible refine List.Subset.trans ?_ hp; decide)
    | with_reducible apply KeepsO.next
    | with_reducible apply execDieSleep_keeps
    | with_reducible apply State.fwWait_keeps
    | with_reducible apply ran_keeps
    | with_reducible apply State.jobEnd_keeps
    | with_reducible apply State.sq_keeps
    | with_reducible apply State.sqStage_keeps
    | with_reducible apply State.pstateCmd_keeps
    | with_reducible refine Keeps.ofEq (by with_reducible assumption) ?_
    | with_reducible apply Keeps.ite
    | (with_reducible refine Keeps.foldl ?_ (fun _ _ _ => ?_) <;> try dsimp only)
    | with_reducible apply KeepsO.ite
    | (intro _ _ <;> try dsimp only)
    | (intro _ <;> try dsimp only)
    | dsimp only
    | split
    | with_reducible apply Keeps.set_pwr

theorem State.imgCopy_keeps {b0 s : State} (r slot : Nat) (b : List Byte) (hp : [.mem, .mgt] ⊆ K) (hK : Keeps K b0 s) : Keeps K b0 (State.imgCopy s r slot b).1 := by
  unfold State.imgCopy
  try dsimp only
  repeat' first
    | with_reducible assumption
    | (with_reducible refine List.Subset.trans ?_ hp; decide)
    | with_reducible apply State.setCells_keeps
    | with_reducible apply State.setSlot_keeps

theorem State.imgPersist_keeps {b0 s : State} (r : Nat) (b : List Byte) (hp : [.mem] ⊆ K) (hK : Keeps K b0 s) : Keeps K b0 (State.imgPersist s r b) := by
  unfold State.imgPersist
  try dsimp only
  repeat' first
    | with_reducible assumption
    | with_reducible apply State.setCells_keeps

theorem execSqStage_keeps {b0 s : State} (i : W32) (sigOk : Bool) (hp : [.agenda, .regs, .mem, .freeCtr, .detected, .mgt, .boot] ⊆ K) (hK : Keeps K b0 s) : KeepsO K b0 (execSqStage i sigOk s) := by
  unfold execSqStage
  try dsimp only
  repeat' first
    | with_reducible assumption
    | (with_reducible refine List.Subset.trans ?_ hp; decide)
    | with_reducible apply KeepsO.next
    | with_reducible apply State.put_keeps
    | with_reducible apply State.at'_keeps
    | with_reducible apply State.useFree_keeps
    | with_reducible apply State.fwWait_keeps
    | with_reducible apply State.setJob_keeps
    | with_reducible apply State.jobEnd_keeps
    | with_reducible apply State.setRole_keeps
    | with_reducible apply State.mgtErr_keeps
    | with_reducible apply State.sq_keeps
    | with_reducible apply State.sqStage_keeps
    | with_reducible apply State.imgCopy_keeps
    | with_reducible apply State.imgPersist_keeps
    | with_reducible refine Keeps.ofEq (by with_reducible assumption) ?_
    | with_reducible apply Keeps.ite
    | with_reducible apply KeepsO.ite
    | (intro _ _ <;> try dsimp only)
    | (intro _ <;> try dsimp only)
    | dsimp only
    | split

theorem execSqFwact_keeps {b0 s : State} (i : W32) (hp : [.agenda, .regs, .freeCtr, .detected, .events, .frz, .pwr, .leave, .masked, .tx, .mgt, .cmx, .boot] ⊆ K) (hK : Keeps K b0 s) : KeepsO K b0 (execSqFwact i s) := by
  unfold execSqFwact
  try dsimp only
  repeat' first
    | with_reducible assumption
    | (with_reducible refine List.Subset.trans ?_ hp; decide)
    | with_reducible apply KeepsO.next
    | with_reducible apply ran_keeps
    | with_reducible apply State.fwWait_keeps
    | with_reducible apply State.jobEnd_keeps
    | with_reducible apply execMgtActWrite_keeps
    | with_reducible apply State.sq_keeps
    | with_reducible apply State.sqStage_keeps
    | with_reducible refine Keeps.ofEq (by with_reducible assumption) ?_
    | with_reducible apply Keeps.ite
    | with_reducible apply KeepsO.ite
    | (intro _ _ <;> try dsimp only)
    | (intro _ <;> try dsimp only)
    | dsimp only
    | split
end Sys2Proof.Machine
end

