-- ==== Sys2Proof/Laws/KeepsBoot.lean ====
section
/-! SUPPORT. What the operations and commands of Machine/Boot.lean leave alone: one lemma each, in the terms of `Keeps`. The list each
asks for holds the parts it may change. -/
namespace Sys2Proof.Machine
variable {K : List Part}
theorem State.loadLimits_keeps {b0 s : State} (b : List Byte) (hp : [.agenda, .regs, .freeCtr, .events, .pwr, .boot] ⊆ K) (hK : Keeps K b0 s) : Keeps K b0 (State.loadLimits s b) := by
  unfold State.loadLimits
  try dsimp only
  repeat' first
    | with_reducible assumption
    | (with_reducible refine List.Subset.trans ?_ hp; decide)
    | with_reducible apply State.put_keeps
    | with_reducible apply State.puts_keeps
    | with_reducible apply State.setPair_keeps
    | with_reducible apply State.clampCfg_keeps
    | with_reducible apply State.nativeAt_keeps
    | with_reducible apply State.vidDrive_keeps
    | with_reducible refine Keeps.ofEq (by with_reducible assumption) ?_
    | with_reducible apply Keeps.ite
    | (with_reducible refine Keeps.foldl ?_ (fun _ _ _ => ?_) <;> try dsimp only)
    | dsimp only
    | split
    | with_reducible apply Keeps.set_boot

theorem State.loadMap_keeps {b0 s : State} (hp : [.agenda, .regs, .outs, .loose, .hfp] ⊆ K) (hK : Keeps K b0 s) : Keeps K b0 (State.loadMap s) := by
  unfold State.loadMap
  try dsimp only
  repeat' first
    | with_reducible assumption
    | (with_reducible refine List.Subset.trans ?_ hp; decide)
    | with_reducible apply State.puts_keeps
    | with_reducible apply State.mapMoved_keeps
    | with_reducible apply State.setMap_keeps
    | with_reducible refine Keeps.ofEq (by with_reducible assumption) ?_
    | with_reducible apply Keeps.ite
    | (with_reducible refine Keeps.foldl ?_ (fun _ _ _ => ?_) <;> try dsimp only)

theorem State.loadWindows_keeps {b0 s : State} (hp : [.regs] ⊆ K) (hK : Keeps K b0 s) : Keeps K b0 (State.loadWindows s) := by
  unfold State.loadWindows
  try dsimp only
  repeat' first
    | with_reducible assumption
    | with_reducible apply State.puts_keeps
    | with_reducible refine Keeps.ofEq (by with_reducible assumption) ?_
    | with_reducible apply Keeps.ite
    | (with_reducible refine Keeps.foldl ?_ (fun _ _ _ => ?_) <;> try dsimp only)

theorem State.minOne_keeps {b0 s : State} (f : Fld) (hp : [.regs] ⊆ K) (hK : Keeps K b0 s) : Keeps K b0 (State.minOne s f) := by
  unfold State.minOne
  try dsimp only
  repeat' first
    | with_reducible assumption
    | with_reducible apply State.put_keeps
    | with_reducible refine Keeps.ofEq (by with_reducible assumption) ?_
    | with_reducible apply Keeps.ite

theorem State.loadPartners_keeps {b0 s : State} (hp : [.agenda, .regs, .events, .edg] ⊆ K) (hK : Keeps K b0 s) : Keeps K b0 (State.loadPartners s) := by
  unfold State.loadPartners
  try dsimp only
  repeat' first
    | with_reducible assumption
    | (with_reducible refine List.Subset.trans ?_ hp; decide)
    | with_reducible apply State.setReg_keeps
    | with_reducible apply State.setRegs_keeps
    | with_reducible apply State.keyGo_keeps
    | with_reducible apply State.minOne_keeps
    | with_reducible refine Keeps.ofEq (by with_reducible assumption) ?_
    | with_reducible apply Keeps.ite
    | (with_reducible refine Keeps.foldl ?_ (fun _ _ _ => ?_) <;> try dsimp only)

theorem State.loadRoutes_keeps {b0 s : State} (hp : [.regs] ⊆ K) (hK : Keeps K b0 s) : Keeps K b0 (State.loadRoutes s) := by
  unfold State.loadRoutes
  try dsimp only
  repeat' first
    | with_reducible assumption
    | with_reducible apply State.setReg_keeps

theorem State.loadDie_keeps {b0 s : State} (level : Nat) (hp : [.agenda, .regs, .detected, .events, .outs, .loose, .edg, .leave, .hfp] ⊆ K) (hK : Keeps K b0 s) : Keeps K b0 (State.loadDie s level) := by
  unfold State.loadDie
  try dsimp only
  repeat' first
    | with_reducible assumption
    | (with_reducible refine List.Subset.trans ?_ hp; decide)
    | with_reducible apply State.setReg_keeps
    | with_reducible apply State.put_keeps
    | with_reducible apply State.puts_keeps
    | with_reducible apply execLaneTrain_keeps
    | with_reducible apply State.detAll_keeps
    | with_reducible apply State.ueArm_keeps
    | with_reducible apply ran_keeps
    | with_reducible apply State.loadMap_keeps
    | with_reducible apply State.loadWindows_keeps
    | with_reducible apply State.minOne_keeps
    | with_reducible apply State.loadPartners_keeps
    | with_reducible apply State.loadRoutes_keeps
    | with_reducible refine Keeps.ofEq (by with_reducible assumption) ?_
    | with_reducible apply Keeps.ite
    | (with_reducible refine Keeps.foldl ?_ (fun _ _ _ => ?_) <;> try dsimp only)

theorem State.bootNext_keeps {b0 s : State} (stage bound : Nat) (hp : [.agenda, .freeCtr, .boot] ⊆ K) (hK : Keeps K b0 s) : Keeps K b0 (State.bootNext s stage bound) := by
  unfold State.bootNext
  try dsimp only
  repeat' first
    | with_reducible assumption
    | (with_reducible refine List.Subset.trans ?_ hp; decide)
    | with_reducible apply State.at'_keeps
    | with_reducible apply State.useFree_keeps
    | with_reducible refine Keeps.ofEq (by with_reducible assumption) ?_
    | with_reducible apply Keeps.ite
    | dsimp only
    | split
    | with_reducible apply Keeps.set_boot

theorem State.bootStep_keeps {b0 s : State} (n : Nat) (hp : [.regs] ⊆ K) (hK : Keeps K b0 s) : Keeps K b0 (State.bootStep s n) := by
  unfold State.bootStep
  try dsimp only
  repeat' first
    | with_reducible assumption
    | with_reducible apply State.put_keeps

theorem State.bootStop_keeps {b0 s : State} (cause detail : Nat) (hp : [.regs, .mgt, .boot] ⊆ K) (hK : Keeps K b0 s) : Keeps K b0 (State.bootStop s cause detail) := by
  unfold State.bootStop
  try dsimp only
  repeat' first
    | with_reducible assumption
    | (with_reducible refine List.Subset.trans ?_ hp; decide)
    | with_reducible apply State.puts_keeps
    | with_reducible apply State.hintSet_keeps
    | with_reducible refine Keeps.ofEq (by with_reducible assumption) ?_
    | with_reducible apply Keeps.ite
    | dsimp only
    | split
    | with_reducible apply Keeps.set_boot

theorem State.bootCores_keeps {b0 s : State} (hp : [.agenda, .regs, .leave, .masked, .mgt] ⊆ K) (hK : Keeps K b0 s) : Keeps K b0 (State.bootCores s) := by
  unfold State.bootCores
  try dsimp only
  repeat' first
    | with_reducible assumption
    | (with_reducible refine List.Subset.trans ?_ hp; decide)
    | with_reducible apply State.put_keeps
    | with_reducible apply State.unmaskCore_keeps
    | with_reducible refine Keeps.ofEq (by with_reducible assumption) ?_
    | with_reducible apply Keeps.ite
    | (with_reducible refine Keeps.foldl ?_ (fun _ _ _ => ?_) <;> try dsimp only)
    | dsimp only
    | split
    | with_reducible apply Keeps.set_masked

theorem State.bootClocks_keeps {b0 s : State} (hp : [.agenda, .regs] ⊆ K) (hK : Keeps K b0 s) : Keeps K b0 (State.bootClocks s) := by
  unfold State.bootClocks
  try dsimp only
  repeat' first
    | with_reducible assumption
    | (with_reducible refine List.Subset.trans ?_ hp; decide)
    | with_reducible apply State.arm_keeps
    | with_reducible apply State.dripArm_keeps
    | with_reducible apply State.generators_keeps
    | with_reducible apply State.bootStep_keeps
    | with_reducible refine Keeps.ofEq (by with_reducible assumption) ?_
    | with_reducible apply Keeps.ite
    | (with_reducible refine Keeps.foldl ?_ (fun _ _ _ => ?_) <;> try dsimp only)

theorem State.bistAsk_keeps {b0 s : State} (k : Nat) (hp : [.agenda, .regs, .leave] ⊆ K) (hK : Keeps K b0 s) : Keeps K b0 (State.bistAsk s k) := by
  unfold State.bistAsk
  try dsimp only
  repeat' first
    | with_reducible assumption
    | with_reducible apply State.leaveAsk_keeps
    | with_reducible refine Keeps.ofEq (by with_reducible assumption) ?_
    | with_reducible apply Keeps.ite

theorem State.bistBegin_keeps {b0 s : State} (hp : [.agenda, .regs, .leave, .mgt, .boot] ⊆ K) (hK : Keeps K b0 s) : Keeps K b0 (State.bistBegin s) := by
  unfold State.bistBegin
  try dsimp only
  repeat' first
    | with_reducible assumption
    | (with_reducible refine List.Subset.trans ?_ hp; decide)
    | with_reducible apply State.bootStop_keeps
    | with_reducible apply State.bistAsk_keeps
    | with_reducible refine Keeps.ofEq (by with_reducible assumption) ?_
    | with_reducible apply Keeps.ite
    | dsimp only
    | split
    | with_reducible apply Keeps.set_boot

theorem State.askDie0_keeps {b0 s : State} (k : Nat) (hp : [.tx, .boot] ⊆ K) (hK : Keeps K b0 s) : Keeps K b0 (State.askDie0 s k) := by
  unfold State.askDie0
  try dsimp only
  repeat' first
    | with_reducible assumption
    | (with_reducible refine List.Subset.trans ?_ hp; decide)
    | with_reducible apply State.side_keeps
    | with_reducible refine Keeps.ofEq (by with_reducible assumption) ?_
    | with_reducible apply Keeps.ite
    | dsimp only
    | split
    | with_reducible apply Keeps.set_boot

theorem State.bootPoll_keeps {b0 s : State} (hp : [.agenda, .freeCtr] ⊆ K) (hK : Keeps K b0 s) : Keeps K b0 (State.bootPoll s) := by
  unfold State.bootPoll
  try dsimp only
  repeat' first
    | with_reducible assumption
    | with_reducible apply State.fwWait_keeps

theorem State.step7_keeps {b0 s : State} (hp : [.agenda, .regs, .boot] ⊆ K) (hK : Keeps K b0 s) : Keeps K b0 (State.step7 s) := by
  unfold State.step7
  try dsimp only
  repeat' first
    | with_reducible assumption
    | (with_reducible refine List.Subset.trans ?_ hp; decide)
    | with_reducible apply State.at'_keeps
    | with_reducible apply State.bootStep_keeps
    | with_reducible refine Keeps.ofEq (by with_reducible assumption) ?_
    | with_reducible apply Keeps.ite
    | dsimp only
    | split
    | with_reducible apply Keeps.set_boot

theorem State.timeStep_keeps {b0 s : State} (hp : [.agenda, .regs, .freeCtr, .tx, .boot] ⊆ K) (hK : Keeps K b0 s) : Keeps K b0 (State.timeStep s) := by
  unfold State.timeStep
  try dsimp only
  repeat' first
    | with_reducible assumption
    | (with_reducible refine List.Subset.trans ?_ hp; decide)
    | with_reducible apply State.askDie0_keeps
    | with_reducible apply State.bootPoll_keeps
    | with_reducible apply State.step7_keeps
    | with_reducible refine Keeps.ofEq (by with_reducible assumption) ?_
    | with_reducible apply Keeps.ite
    | dsimp only
    | split
    | with_reducible apply Keeps.set_boot

theorem State.take0_keeps {b0 s : State} (hp : [.agenda, .time, .regs, .freeCtr, .syn, .pwr, .brg, .edg, .tx, .mgt, .boot] ⊆ K) (hK : Keeps K b0 s) : Keeps K b0 (State.take0 s) := by
  unfold State.take0
  try dsimp only
  repeat' first
    | with_reducible assumption
    | (with_reducible refine List.Subset.trans ?_ hp; decide)
    | with_reducible apply State.setReg_keeps
    | with_reducible apply State.setNow_keeps
    | with_reducible apply State.beaconWatch_keeps
    | with_reducible apply State.bootStop_keeps
    | with_reducible apply State.askDie0_keeps
    | with_reducible apply State.bootPoll_keeps
    | with_reducible apply State.step7_keeps
    | with_reducible refine Keeps.ofEq (by with_reducible assumption) ?_
    | with_reducible apply Keeps.ite
    | dsimp only
    | split
    | with_reducible apply Keeps.set_brg
    | with_reducible apply Keeps.set_boot
    | with_reducible apply Keeps.set_all
    | with_reducible exact Or.inl rfl
    | (with_reducible refine Or.inr (List.Subset.trans ?_ hp); decide)

theorem State.loadRole_keeps {b0 s t : State} (r : Nat) (hp : [.regs, .mem, .mgt, .boot] ⊆ K) (hK : Keeps K b0 s) (e : State.loadRole s r = some t) : Keeps K b0 t := by
  unfold State.loadRole at e
  obtain ⟨a, -, ha⟩ := List.exists_of_findSome?_eq_some e
  have hc : Keeps K b0 (State.imgCopy s r 0 (s.fwBytes r a)).1 := State.imgCopy_keeps _ _ _ (List.Subset.trans (by decide) hp) hK
  split at ha
  · next u hu =>
    rw [hu] at hc
    cases ha
    exact State.showSlot_keeps _ _ (List.Subset.trans (by decide) hp) (Keeps.upd [.mgt, .boot] (List.Subset.trans (by decide) hp) hc rfl rfl id id (fun p e => by cases p <;> first | rfl | exact absurd (by decide) e))
  · cases ha

theorem State.loadRoles_keeps {b0 s : State} (hp : [.regs, .mem, .mgt, .boot] ⊆ K) (hK : Keeps K b0 s) : Keeps K b0 (State.loadRoles s).1 := by
  unfold State.loadRoles
  refine Keeps.foldlP hK (fun u r hu => ?_)
  split
  · next t ht => exact State.loadRole_keeps r hp hu ht
  · exact hu

theorem State.splitRoles_keeps {b0 s : State} (hp : [.agenda, .regs, .freeCtr, .events, .frz, .pwr, .leave, .masked, .tx, .mgt, .cmx, .boot] ⊆ K) (hK : Keeps K b0 s) : Keeps K b0 (State.splitRoles s) := by
  unfold State.splitRoles
  try dsimp only
  repeat' first
    | with_reducible assumption
    | (with_reducible refine List.Subset.trans ?_ hp; decide)
    | with_reducible apply State.seqsGo_keeps
    | with_reducible refine Keeps.ofEq (by with_reducible assumption) ?_
    | with_reducible apply Keeps.ite
    | dsimp only
    | split
    | with_reducible apply Keeps.set_mgt

theorem State.clearRings_keeps {b0 s : State} (hp : [.agenda, .regs, .mem, .mgt] ⊆ K) (hK : Keeps K b0 s) : Keeps K b0 (State.clearRings s) := by
  unfold State.clearRings
  refine Keeps.foldl (Keeps.filterMem _ (List.Subset.trans (by decide) hp) hK) (fun _ _ hu => ?_)
  exact State.arm_keeps _ _ _ (List.Subset.trans (by decide) hp) (State.put_keeps _ _ (List.Subset.trans (by decide) hp) (Keeps.set_mgt (List.Subset.trans (by decide) hp) hu))

theorem State.wakeAll_keeps {b0 s : State} (hp : [.agenda, .regs, .detected, .pwr, .leave, .boot] ⊆ K) (hK : Keeps K b0 s) : Keeps K b0 (State.wakeAll s) := by
  unfold State.wakeAll
  try dsimp only
  repeat' first
    | with_reducible assumption
    | (with_reducible refine List.Subset.trans ?_ hp; decide)
    | with_reducible apply execCabCmdRun_keeps
    | with_reducible apply ran_keeps
    | with_reducible refine Keeps.ofEq (by with_reducible assumption) ?_
    | with_reducible apply Keeps.ite
    | (with_reducible refine Keeps.foldl ?_ (fun _ _ _ => ?_) <;> try dsimp only)
    | dsimp only
    | split
    | with_reducible apply Keeps.set_boot

theorem State.bootDone_keeps {b0 s : State} (hp : [.agenda, .regs, .events, .mgt, .boot] ⊆ K) (hK : Keeps K b0 s) : Keeps K b0 (State.bootDone s) := by
  unfold State.bootDone
  try dsimp only
  repeat' first
    | with_reducible assumption
    | (with_reducible refine List.Subset.trans ?_ hp; decide)
    | with_reducible apply State.arm_keeps
    | with_reducible apply State.bootStep_keeps
    | with_reducible refine Keeps.ofEq (by with_reducible assumption) ?_
    | with_reducible apply Keeps.ite
    | (with_reducible refine Keeps.foldl ?_ (fun _ _ _ => ?_) <;> try dsimp only)
    | dsimp only
    | split
    | with_reducible apply Keeps.set_events
    | with_reducible apply Keeps.set_mgt
    | with_reducible apply Keeps.set_boot
    | with_reducible apply Keeps.set_all
    | with_reducible exact Or.inl rfl
    | (with_reducible refine Or.inr (List.Subset.trans ?_ hp); decide)

theorem State.bootGo_keeps {b0 s : State} (hp : [.agenda, .time, .regs, .mem, .freeCtr, .detected, .events, .outs, .frz, .loose, .rep, .syn, .pwr, .brg, .edg, .leave, .masked, .tx, .mgt, .cmx, .boot, .hfp] ⊆ K) (hK : Keeps K b0 s) : Keeps K b0 (State.bootGo s) := by
  unfold State.bootGo
  try dsimp only
  repeat' first
    | with_reducible assumption
    | (with_reducible refine List.Subset.trans ?_ hp; decide)
    | with_reducible apply State.setReg_keeps
    | with_reducible apply State.put_keeps
    | with_reducible apply State.at'_keeps
    | with_reducible apply State.loadLimits_keeps
    | with_reducible apply State.loadDie_keeps
    | with_reducible apply State.bootNext_keeps
    | with_reducible apply State.bootStep_keeps
    | with_reducible apply State.bootStop_keeps
    | with_reducible apply State.bootCores_keeps
    | with_reducible apply State.bootClocks_keeps
    | with_reducible apply State.bistBegin_keeps
    | with_reducible apply State.bootPoll_keeps
    | with_reducible apply State.step7_keeps
    | with_reducible apply State.timeStep_keeps
    | with_reducible apply State.take0_keeps
    | with_reducible apply State.loadRoles_keeps
    | with_reducible apply State.splitRoles_keeps
    | with_reducible apply State.clearRings_keeps
    | with_reducible apply State.wakeAll_keeps
    | with_reducible apply State.bootDone_keeps
    | with_reducible refine Keeps.ofEq (by with_reducible assumption) ?_
    | with_reducible apply Keeps.ite
    | dsimp only
    | split
    | with_reducible apply Keeps.set_rep
    | with_reducible apply Keeps.set_boot

theorem execPowerOnReset_keeps {b0 s : State} (sfdpOk sigOk : Bool) (hp : [.agenda, .time, .regs, .mem, .freeCtr, .detected, .events, .outs, .frz, .loose, .rep, .syn, .pwr, .brg, .edg, .leave, .masked, .tx, .mgt, .cmx, .boot, .hfp] ⊆ K) (hK : Keeps K b0 s) : KeepsO K b0 (execPowerOnReset sfdpOk sigOk s) := by
  unfold execPowerOnReset
  try dsimp only
  repeat' first
    | with_reducible assumption
    | (with_reducible refine List.Subset.trans ?_ hp; decide)
    | with_reducible apply KeepsO.next
    | with_reducible apply State.arm_keeps
    | with_reducible apply ran_keeps
    | with_reducible apply execRtcAlarmRise_keeps
    | with_reducible apply execThermTrip_keeps
    | with_reducible apply State.bootNext_keeps
    | with_reducible apply State.bootStep_keeps
    | with_reducible apply State.bootGo_keeps
    | with_reducible refine Keeps.ofEq (by with_reducible assumption) ?_
    | with_reducible apply Keeps.ite
    | with_reducible apply KeepsO.ite
    | dsimp only
    | split
    | with_reducible apply Keeps.set_time
    | with_reducible apply Keeps.set_pwr
    | with_reducible apply Keeps.set_boot
    | with_reducible apply Keeps.set_all
    | with_reducible exact Or.inl rfl
    | (with_reducible refine Or.inr (List.Subset.trans ?_ hp); decide)

theorem State.bistRemap_keeps {b0 s : State} (p b : Nat) (rows : List Nat) (hp : [.regs] ⊆ K) (hK : Keeps K b0 s) : Keeps K b0 (State.bistRemap s p b rows) := by
  unfold State.bistRemap
  try dsimp only
  repeat' first
    | with_reducible assumption
    | with_reducible apply State.inc_keeps
    | with_reducible apply State.setEntry_keeps
    | with_reducible refine Keeps.ofEq (by with_reducible assumption) ?_
    | with_reducible apply Keeps.ite
    | (with_reducible refine Keeps.foldl ?_ (fun _ _ _ => ?_) <;> try dsimp only)
    | dsimp only
    | split

theorem State.bistFence_keeps {b0 s : State} (p : Nat) (hp : [.regs, .boot] ⊆ K) (hK : Keeps K b0 s) : Keeps K b0 (State.bistFence s p) := by
  unfold State.bistFence
  try dsimp only
  repeat' first
    | with_reducible assumption
    | (with_reducible refine List.Subset.trans ?_ hp; decide)
    | with_reducible apply State.inc_keeps
    | with_reducible refine Keeps.ofEq (by with_reducible assumption) ?_
    | with_reducible apply Keeps.ite
    | dsimp only
    | split
    | with_reducible apply Keeps.set_boot

theorem State.bistBank_keeps {b0 s : State} (p b : Nat) (l : List (Nat × Nat)) (hp : [.agenda, .regs, .detected, .rep, .boot] ⊆ K) (hK : Keeps K b0 s) : Keeps K b0 (State.bistBank s p b l) := by
  unfold State.bistBank
  try dsimp only
  repeat' first
    | with_reducible assumption
    | (with_reducible refine List.Subset.trans ?_ hp; decide)
    | with_reducible apply State.inc_keeps
    | with_reducible apply State.retire1_keeps
    | with_reducible apply State.retire2_keeps
    | with_reducible apply State.bistRemap_keeps
    | with_reducible apply State.bistFence_keeps
    | with_reducible refine Keeps.ofEq (by with_reducible assumption) ?_
    | with_reducible apply Keeps.ite

theorem State.bistCab_keeps {b0 s : State} (x : BistCab) (hp : [.agenda, .regs, .detected, .rep, .boot] ⊆ K) (hK : Keeps K b0 s) : Keeps K b0 (State.bistCab s x) := by
  unfold State.bistCab
  try dsimp only
  repeat' first
    | with_reducible assumption
    | (with_reducible refine List.Subset.trans ?_ hp; decide)
    | with_reducible apply State.err_keeps
    | with_reducible apply State.fenceCause_keeps
    | with_reducible apply State.bistFence_keeps
    | with_reducible apply State.bistBank_keeps
    | with_reducible refine Keeps.ofEq (by with_reducible assumption) ?_
    | with_reducible apply Keeps.ite
    | (with_reducible refine Keeps.foldl ?_ (fun _ _ _ => ?_) <;> try dsimp only)

theorem State.imageRemaps_keeps {b0 s : State} (p : Nat) (hp : [.regs] ⊆ K) (hK : Keeps K b0 s) : Keeps K b0 (State.imageRemaps s p) := by
  unfold State.imageRemaps
  try dsimp only
  repeat' first
    | with_reducible assumption
    | with_reducible apply State.puts_keeps
    | with_reducible apply State.setEntry_keeps
    | with_reducible refine Keeps.ofEq (by with_reducible assumption) ?_
    | with_reducible apply Keeps.ite
    | (with_reducible refine Keeps.foldl ?_ (fun _ _ _ => ?_) <;> try dsimp only)
    | dsimp only
    | split

theorem execBistStageEnd_keeps {b0 s : State} (found : List BistCab) (hp : [.agenda, .regs, .mem, .valid, .freeCtr, .detected, .rep, .leave, .mgt, .boot] ⊆ K) (hK : Keeps K b0 s) : KeepsO K b0 (execBistStageEnd found s) := by
  unfold execBistStageEnd
  try dsimp only
  repeat' first
    | with_reducible assumption
    | (with_reducible refine List.Subset.trans ?_ hp; decide)
    | with_reducible apply KeepsO.next
    | with_reducible apply State.leaveBack_keeps
    | with_reducible apply State.loseStore_keeps
    | with_reducible apply State.bootNext_keeps
    | with_reducible apply State.bootStep_keeps
    | with_reducible apply State.bootStop_keeps
    | with_reducible apply State.bistAsk_keeps
    | with_reducible apply State.bistCab_keeps
    | with_reducible apply State.imageRemaps_keeps
    | with_reducible refine Keeps.ofEq (by with_reducible assumption) ?_
    | with_reducible apply Keeps.ite
    | (with_reducible refine Keeps.foldl ?_ (fun _ _ _ => ?_) <;> try dsimp only)
    | with_reducible apply KeepsO.ite
    | dsimp only
    | split
    | with_reducible apply Keeps.set_boot

theorem State.startMark_keeps {b0 s : State} (hp : [.regs, .tx, .boot] ⊆ K) (hK : Keeps K b0 s) : Keeps K b0 (State.startMark s) := by
  unfold State.startMark
  try dsimp only
  repeat' first
    | with_reducible assumption
    | (with_reducible refine List.Subset.trans ?_ hp; decide)
    | with_reducible apply State.put_keeps
    | with_reducible apply State.send_keeps
    | with_reducible refine Keeps.ofEq (by with_reducible assumption) ?_
    | with_reducible apply Keeps.ite
    | dsimp only
    | split
    | with_reducible apply Keeps.set_boot

theorem State.bootCtl_keeps {b0 s : State} (m : Master) (v : W32) (hp : [.agenda, .regs, .detected, .rep, .tx, .boot] ⊆ K) (hK : Keeps K b0 s) : Keeps K b0 (State.bootCtl s m v) := by
  unfold State.bootCtl
  try dsimp only
  repeat' first
    | with_reducible assumption
    | (with_reducible refine List.Subset.trans ?_ hp; decide)
    | with_reducible apply State.put_keeps
    | with_reducible apply State.later_keeps
    | with_reducible apply State.locked_keeps
    | with_reducible apply State.startMark_keeps
    | with_reducible refine Keeps.ofEq (by with_reducible assumption) ?_
    | with_reducible apply Keeps.ite
    | dsimp only
    | split
    | with_reducible apply Keeps.set_rep
    | with_reducible apply Keeps.set_boot
    | with_reducible apply Keeps.set_all
    | with_reducible exact Or.inl rfl
    | (with_reducible refine Or.inr (List.Subset.trans ?_ hp); decide)

theorem execBootLock_keeps {b0 s : State} (m : Master) (v : W32) (hp : [.agenda, .regs, .detected, .rep, .tx, .boot] ⊆ K) (hK : Keeps K b0 s) : KeepsO K b0 (execBootLock m v s) := by
  unfold execBootLock
  try dsimp only
  repeat' first
    | with_reducible assumption
    | (with_reducible refine List.Subset.trans ?_ hp; decide)
    | with_reducible apply KeepsO.next
    | with_reducible apply State.row_keeps
    | with_reducible apply State.bootCtl_keeps
    | with_reducible refine Keeps.ofEq (by with_reducible assumption) ?_
    | with_reducible apply Keeps.ite
    | with_reducible apply KeepsO.ite
    | (intro _ _ <;> try dsimp only)

theorem execStimeSync_keeps {b0 s : State} (m : Master) (v : W32) (hp : [.agenda, .regs, .detected, .rep, .tx, .boot] ⊆ K) (hK : Keeps K b0 s) : KeepsO K b0 (execStimeSync m v s) := by
  unfold execStimeSync
  try dsimp only
  repeat' first
    | with_reducible assumption
    | (with_reducible refine List.Subset.trans ?_ hp; decide)
    | with_reducible apply KeepsO.next
    | with_reducible apply State.row_keeps
    | with_reducible apply State.bootCtl_keeps
    | with_reducible refine Keeps.ofEq (by with_reducible assumption) ?_
    | with_reducible apply Keeps.ite
    | with_reducible apply KeepsO.ite
    | (intro _ _ <;> try dsimp only)

theorem execStartMarkReceive_keeps {b0 s : State} (lane : Fin 8) (v : W64) (h : Fin 8) (hp : [.time, .regs, .tx, .boot] ⊆ K) (hK : Keeps K b0 s) : KeepsO K b0 (execStartMarkReceive lane v h s) := by
  unfold execStartMarkReceive
  try dsimp only
  repeat' first
    | with_reducible assumption
    | (with_reducible refine List.Subset.trans ?_ hp; decide)
    | with_reducible apply KeepsO.next
    | with_reducible apply State.put_keeps
    | with_reducible apply State.send_keeps
    | with_reducible apply State.startMark_keeps
    | with_reducible refine Keeps.ofEq (by with_reducible assumption) ?_
    | with_reducible apply Keeps.ite
    | with_reducible apply KeepsO.ite
    | dsimp only
    | split
    | with_reducible apply Keeps.set_time
    | with_reducible apply Keeps.set_boot
    | with_reducible apply Keeps.set_all
    | with_reducible exact Or.inl rfl
    | (with_reducible refine Or.inr (List.Subset.trans ?_ hp); decide)

theorem State.recoverBegin_keeps {b0 s : State} (hp : [.agenda, .regs, .freeCtr, .events, .frz, .pwr, .leave, .masked, .tx, .mgt, .cmx] ⊆ K) (hK : Keeps K b0 s) : Keeps K b0 (State.recoverBegin s) := by
  unfold State.recoverBegin
  try dsimp only
  repeat' first
    | with_reducible assumption
    | (with_reducible refine List.Subset.trans ?_ hp; decide)
    | with_reducible apply State.puts_keeps
    | with_reducible apply State.at'_keeps
    | with_reducible apply State.useFree_keeps
    | with_reducible apply State.jobEnd_keeps
    | with_reducible apply State.maskCore_keeps
    | with_reducible apply State.unmaskCore_keeps
    | with_reducible apply State.setOutcome_keeps
    | with_reducible refine Keeps.ofEq (by with_reducible assumption) ?_
    | with_reducible apply Keeps.ite
    | (with_reducible refine Keeps.foldl ?_ (fun _ _ _ => ?_) <;> try dsimp only)
    | dsimp only
    | split
    | with_reducible apply Keeps.set_mgt

theorem execRecoveryStart_keeps {b0 s : State} (hp : [.agenda, .regs, .mem, .freeCtr, .events, .frz, .pwr, .leave, .masked, .tx, .mgt, .cmx, .boot] ⊆ K) (hK : Keeps K b0 s) : KeepsO K b0 (execRecoveryStart s) := by
  unfold execRecoveryStart
  try dsimp only
  repeat' first
    | with_reducible assumption
    | (with_reducible refine List.Subset.trans ?_ hp; decide)
    | with_reducible apply KeepsO.next
    | with_reducible apply State.fwWait_keeps
    | with_reducible apply State.loadRoles_keeps
    | with_reducible apply State.splitRoles_keeps
    | with_reducible apply State.recoverBegin_keeps
    | with_reducible refine Keeps.ofEq (by with_reducible assumption) ?_
    | with_reducible apply Keeps.ite
    | with_reducible apply KeepsO.ite
    | dsimp only
    | split
    | with_reducible apply Keeps.set_mgt

theorem execHallmarkComputationEnd_keeps {b0 s : State} (hp : [.regs, .boot] ⊆ K) (hK : Keeps K b0 s) : KeepsO K b0 (execHallmarkComputationEnd s) := by
  unfold execHallmarkComputationEnd
  try dsimp only
  repeat' first
    | with_reducible assumption
    | (with_reducible refine List.Subset.trans ?_ hp; decide)
    | with_reducible apply KeepsO.next
    | with_reducible apply State.setReg_keeps
    | with_reducible apply State.puts_keeps
    | with_reducible refine Keeps.ofEq (by with_reducible assumption) ?_
    | with_reducible apply Keeps.ite
    | (with_reducible refine Keeps.foldl ?_ (fun _ _ _ => ?_) <;> try dsimp only)
    | with_reducible apply KeepsO.ite
    | dsimp only
    | split
    | with_reducible apply Keeps.set_boot

theorem execHallmarkRound_keeps {b0 s : State} (hp : [.agenda, .regs, .tx, .boot] ⊆ K) (hK : Keeps K b0 s) : KeepsO K b0 (execHallmarkRound s) := by
  unfold execHallmarkRound
  try dsimp only
  repeat' first
    | with_reducible assumption
    | (with_reducible refine List.Subset.trans ?_ hp; decide)
    | with_reducible apply KeepsO.next
    | with_reducible apply State.putb_keeps
    | with_reducible apply State.inc_keeps
    | with_reducible apply State.arm_keeps
    | with_reducible apply State.side_keeps
    | with_reducible refine Keeps.ofEq (by with_reducible assumption) ?_
    | with_reducible apply Keeps.ite
    | (with_reducible refine Keeps.foldl ?_ (fun _ _ _ => ?_) <;> try dsimp only)
    | with_reducible apply KeepsO.ite
    | dsimp only
    | split
    | with_reducible apply Keeps.set_boot

theorem State.hallEvent_keeps {b0 s : State} (e : Nat) (b : Bool) (hp : [.agenda, .regs, .events] ⊆ K) (hK : Keeps K b0 s) : Keeps K b0 (State.hallEvent s e b) := by
  unfold State.hallEvent
  try dsimp only
  repeat' first
    | with_reducible assumption
    | (with_reducible refine List.Subset.trans ?_ hp; decide)
    | with_reducible apply State.putb_keeps
    | with_reducible apply State.event_keeps

theorem execRoundMessage_keeps {b0 s : State} (x1 : Fin 8) (die : Fin 8) (mark : Option (List W32)) (hp : [.agenda, .regs, .detected, .events, .boot] ⊆ K) (hK : Keeps K b0 s) : KeepsO K b0 (execRoundMessage x1 die mark s) := by
  unfold execRoundMessage
  try dsimp only
  repeat' first
    | with_reducible assumption
    | (with_reducible refine List.Subset.trans ?_ hp; decide)
    | with_reducible apply KeepsO.next
    | with_reducible apply State.setReg_keeps
    | with_reducible apply State.put_keeps
    | with_reducible apply State.err_keeps
    | with_reducible apply State.hallEvent_keeps
    | with_reducible refine Keeps.ofEq (by with_reducible assumption) ?_
    | with_reducible apply Keeps.ite
    | (with_reducible refine Keeps.foldl ?_ (fun _ _ _ => ?_) <;> try dsimp only)
    | with_reducible apply KeepsO.ite
    | dsimp only
    | split
    | with_reducible apply Keeps.set_boot

theorem execPorstFall_keeps {b0 s : State} (hp : allParts ⊆ K) (hK : Keeps K b0 s) : KeepsO K b0 (execPorstFall s) := by
  have hall : ∀ p : Part, p ∈ K := fun p => hp (by cases p <;> decide)
  have h1 : [Part.regs] ⊆ K := fun p _ => hall p
  have h2 : [Part.agenda] ⊆ K := fun p _ => hall p
  unfold execPorstFall
  refine KeepsO.next (State.puts_keeps _ h1 (Keeps.foldl (Keeps.foldl ?_ (fun _ _ hu => State.setPresent_keeps _ _ (fun p _ => hall p) hu)) (fun _ _ hu => State.put_keeps _ _ h1 hu)))
  split
  · exact State.later_keeps _ _ _ h2 ⟨hK.queue, hK.ties, fun _ => State.resetWith_regs s.ties, fun w => SMap.wf_filter _ (hK.mem w), fun p e => absurd (hall p) e⟩
  · exact ⟨hK.queue, hK.ties, fun _ => State.resetWith_regs s.ties, fun w => SMap.wf_filter _ (hK.mem w), fun p e => absurd (hall p) e⟩
end Sys2Proof.Machine
end

