-- ==== Sys2Proof/Laws/KeepsTest.lean ====
section
/-! SUPPORT. What the operations and commands of Machine/Test.lean leave alone: one lemma each, in the terms of `Keeps`. The list each
asks for holds the parts it may change. -/
namespace Sys2Proof.Machine
variable {K : List Part}
theorem execHdpRequest_keeps {b0 s : State} (we : Bool) (addr : BitVec 26) (be : W64) (data : List W256) (ctx : Ctx) (tag : Fin 64) (hp : [.agenda, .regs, .detected, .loose, .syn] ⊆ K) (hK : Keeps K b0 s) : KeepsO K b0 (execHdpRequest we addr be data ctx tag s) := by
  unfold execHdpRequest
  try dsimp only
  repeat' first
    | with_reducible assumption
    | (with_reducible refine List.Subset.trans ?_ hp; decide)
    | with_reducible apply KeepsO.next
    | with_reducible apply State.at'_keeps
    | with_reducible apply State.fresh_keeps
    | with_reducible apply State.undrain_keeps
    | with_reducible apply State.violate_keeps
    | with_reducible apply State.refuse_keeps
    | with_reducible apply State.refused_keeps
    | with_reducible apply State.deliver_keeps
    | with_reducible apply State.launch_keeps
    | with_reducible apply State.launchFar_keeps
    | with_reducible refine Keeps.ofEq (by with_reducible assumption) ?_
    | with_reducible apply Keeps.ite
    | with_reducible apply KeepsO.ite
    | exact fun _ hu => hu
    | dsimp only
    | split
    | with_reducible apply Keeps.set_loose

theorem execHdpCompletion_keeps {b0 s : State} (hp : [.agenda, .outs, .loose] ⊆ K) (hK : Keeps K b0 s) : KeepsO K b0 (execHdpCompletion s) := by
  unfold execHdpCompletion
  try dsimp only
  repeat' first
    | with_reducible assumption
    | (with_reducible refine List.Subset.trans ?_ hp; decide)
    | with_reducible apply KeepsO.next
    | with_reducible apply State.arm_keeps
    | with_reducible apply State.present!_keeps
    | with_reducible refine Keeps.ofEq (by with_reducible assumption) ?_
    | with_reducible apply Keeps.ite
    | with_reducible apply KeepsO.ite
    | exact fun _ hu => hu
    | dsimp only
    | split
    | with_reducible apply Keeps.set_loose

theorem State.setHalt_keeps {b0 s : State} (b : Bool) (hp : [.agenda, .regs, .frz, .tx] ⊆ K) (hK : Keeps K b0 s) : Keeps K b0 (State.setHalt s b) := by
  unfold State.setHalt
  try dsimp only
  repeat' first
    | with_reducible assumption
    | (with_reducible refine List.Subset.trans ?_ hp; decide)
    | with_reducible apply State.putb_keeps
    | with_reducible apply State.frzRaise_keeps
    | with_reducible apply State.frzFall_keeps
    | with_reducible refine Keeps.ofEq (by with_reducible assumption) ?_
    | with_reducible apply Keeps.ite

theorem execDebugHalt_keeps {b0 s : State} (m : Master) (v : W32) (hp : [.agenda, .regs, .detected, .frz, .tx] ⊆ K) (hK : Keeps K b0 s) : KeepsO K b0 (execDebugHalt m v s) := by
  unfold execDebugHalt
  try dsimp only
  repeat' first
    | with_reducible assumption
    | (with_reducible refine List.Subset.trans ?_ hp; decide)
    | with_reducible apply KeepsO.next
    | with_reducible apply State.gate_keeps
    | with_reducible apply State.row_keeps
    | with_reducible apply State.setHalt_keeps
    | with_reducible refine Keeps.ofEq (by with_reducible assumption) ?_
    | with_reducible apply Keeps.ite
    | with_reducible apply KeepsO.ite
    | (intro _ _ <;> try dsimp only)

theorem State.closeSession_keeps {b0 s : State} (hp : [.agenda, .regs, .frz, .tx, .cmx, .test] ⊆ K) (hK : Keeps K b0 s) : Keeps K b0 (State.closeSession s) := by
  unfold State.closeSession
  try dsimp only
  repeat' first
    | with_reducible assumption
    | (with_reducible refine List.Subset.trans ?_ hp; decide)
    | with_reducible apply State.put_keeps
    | with_reducible apply State.cmxMask_keeps
    | with_reducible apply State.setHalt_keeps
    | with_reducible refine Keeps.ofEq (by with_reducible assumption) ?_
    | with_reducible apply Keeps.ite
    | dsimp only
    | split
    | with_reducible apply Keeps.set_test

theorem State.loadIr_keeps {b0 s : State} (code captured : Nat) (hp : [.agenda, .regs, .frz, .tx, .cmx, .test] ⊆ K) (hK : Keeps K b0 s) : Keeps K b0 (State.loadIr s code captured) := by
  unfold State.loadIr
  try dsimp only
  repeat' first
    | with_reducible assumption
    | (with_reducible refine List.Subset.trans ?_ hp; decide)
    | with_reducible apply State.closeSession_keeps
    | with_reducible refine Keeps.ofEq (by with_reducible assumption) ?_
    | with_reducible apply Keeps.ite
    | dsimp only
    | split
    | with_reducible apply Keeps.set_test

theorem execTapIdcode_keeps {b0 s : State} (hp : [.agenda, .regs, .frz, .tx, .cmx, .test] ⊆ K) (hK : Keeps K b0 s) : KeepsO K b0 (execTapIdcode s) := by
  unfold execTapIdcode
  try dsimp only
  repeat' first
    | with_reducible assumption
    | with_reducible apply KeepsO.next
    | with_reducible apply State.loadIr_keeps

theorem execTapIjtag_keeps {b0 s : State} (hp : [.agenda, .regs, .freeCtr, .frz, .tx, .cmx, .test] ⊆ K) (hK : Keeps K b0 s) : KeepsO K b0 (execTapIjtag s) := by
  unfold execTapIjtag
  try dsimp only
  repeat' first
    | with_reducible assumption
    | (with_reducible refine List.Subset.trans ?_ hp; decide)
    | with_reducible apply KeepsO.next
    | with_reducible apply State.useFree_keeps
    | with_reducible apply State.loadIr_keeps
    | with_reducible refine Keeps.ofEq (by with_reducible assumption) ?_
    | with_reducible apply Keeps.ite

theorem execTapBypass_keeps {b0 s : State} (hp : [.agenda, .regs, .freeCtr, .frz, .tx, .cmx, .test] ⊆ K) (hK : Keeps K b0 s) : KeepsO K b0 (execTapBypass s) := by
  unfold execTapBypass
  try dsimp only
  repeat' first
    | with_reducible assumption
    | (with_reducible refine List.Subset.trans ?_ hp; decide)
    | with_reducible apply KeepsO.next
    | with_reducible apply State.useFree_keeps
    | with_reducible apply State.loadIr_keeps

theorem execDebugSessionOpen_keeps {b0 s : State} (hp : [.agenda, .regs, .freeCtr, .pwr, .test] ⊆ K) (hK : Keeps K b0 s) : KeepsO K b0 (execDebugSessionOpen s) := by
  unfold execDebugSessionOpen
  try dsimp only
  repeat' first
    | with_reducible assumption
    | (with_reducible refine List.Subset.trans ?_ hp; decide)
    | with_reducible apply KeepsO.next
    | with_reducible apply State.put_keeps
    | with_reducible apply State.inc_keeps
    | with_reducible apply State.latchWake_keeps
    | with_reducible refine Keeps.ofEq (by with_reducible assumption) ?_
    | with_reducible apply Keeps.ite
    | with_reducible apply KeepsO.ite
    | dsimp only
    | split
    | with_reducible apply Keeps.set_test

theorem execDebugSessionClose_keeps {b0 s : State} (hp : [.agenda, .regs, .frz, .tx, .cmx, .test] ⊆ K) (hK : Keeps K b0 s) : KeepsO K b0 (execDebugSessionClose s) := by
  unfold execDebugSessionClose
  try dsimp only
  repeat' first
    | with_reducible assumption
    | with_reducible apply KeepsO.next
    | with_reducible apply State.loadIr_keeps

theorem execDbgAccUpdate_keeps {b0 s : State} (write go : Bool) (strobes : Byte) (laddr : W32) (data : W64) (hp : [.agenda, .test] ⊆ K) (hK : Keeps K b0 s) : KeepsO K b0 (execDbgAccUpdate write go strobes laddr data s) := by
  unfold execDbgAccUpdate
  try dsimp only
  repeat' first
    | with_reducible assumption
    | (with_reducible refine List.Subset.trans ?_ hp; decide)
    | with_reducible apply KeepsO.next
    | with_reducible apply State.later_keeps
    | with_reducible refine Keeps.ofEq (by with_reducible assumption) ?_
    | with_reducible apply Keeps.ite
    | with_reducible apply KeepsO.ite
    | dsimp only
    | split
    | with_reducible apply Keeps.set_test

theorem execDbgAccCapture_keeps {b0 s : State} (hp : [.test] ⊆ K) (hK : Keeps K b0 s) : KeepsO K b0 (execDbgAccCapture s) := by
  unfold execDbgAccCapture
  try dsimp only
  repeat' first
    | with_reducible assumption
    | with_reducible apply KeepsO.next
    | with_reducible refine Keeps.ofEq (by with_reducible assumption) ?_
    | with_reducible apply Keeps.ite
    | with_reducible apply KeepsO.ite
    | dsimp only
    | split
    | with_reducible apply Keeps.set_test
end Sys2Proof.Machine
end

