-- ==== Sys2Proof/Laws/KeepsView.lean ====
section
/-! SUPPORT. What the operations and commands of Machine/View.lean leave alone: one lemma each, in the terms of `Keeps`. The list each
asks for holds the parts it may change. -/
namespace Sys2Proof.Machine
variable {K : List Part}
theorem State.clearRc_keeps {b0 s : State} (k : Nat) (hp : [.regs] ⊆ K) (hK : Keeps K b0 s) : Keeps K b0 (State.clearRc s k) := by
  unfold State.clearRc
  try dsimp only
  repeat' first
    | with_reducible assumption
    | with_reducible apply State.put_keeps
    | with_reducible refine Keeps.ofEq (by with_reducible assumption) ?_
    | with_reducible apply Keeps.ite
    | (with_reducible refine Keeps.foldl ?_ (fun _ _ _ => ?_) <;> try dsimp only)

theorem State.latchHi_keeps {b0 s : State} (mi hi : Nat) (hp : [.hiLatch] ⊆ K) (hK : Keeps K b0 s) : Keeps K b0 (State.latchHi s mi hi) := by
  unfold State.latchHi
  try dsimp only
  repeat' first
    | with_reducible assumption
    | with_reducible refine Keeps.ofEq (by with_reducible assumption) ?_
    | with_reducible apply Keeps.ite
    | dsimp only
    | split
    | with_reducible apply Keeps.set_hiLatch

theorem State.readReg_keeps {b0 s : State} (mi k : Nat) (hp : [.regs, .hiLatch] ⊆ K) (hK : Keeps K b0 s) : Keeps K b0 (State.readReg s mi k).1 := by
  unfold State.readReg
  try dsimp only
  repeat' first
    | with_reducible assumption
    | (with_reducible refine List.Subset.trans ?_ hp; decide)
    | with_reducible apply State.clearRc_keeps
    | with_reducible apply State.latchHi_keeps
    | with_reducible refine Keeps.ofEq (by with_reducible assumption) ?_
    | with_reducible apply Keeps.ite
    | dsimp only
    | split
    | with_reducible apply Keeps.set_hiLatch
end Sys2Proof.Machine
end

