-- ==== Sys2Proof/Laws/KeepsWrite.lean ====
section
/-! SUPPORT. What the operations and commands of Machine/Write.lean leave alone: one lemma each, in the terms of `Keeps`. The list each
asks for holds the parts it may change. -/
namespace Sys2Proof.Machine
variable {K : List Part}
theorem State.plainWrite_keeps {b0 s : State} (m : Master) (k : Nat) (v : W32) (hp : [.regs, .detected] ⊆ K) (hK : Keeps K b0 s) : Keeps K b0 (State.plainWrite s m k v) := by
  unfold State.plainWrite
  try dsimp only
  repeat' first
    | with_reducible assumption
    | (with_reducible refine List.Subset.trans ?_ hp; decide)
    | with_reducible apply State.setReg_keeps
    | with_reducible apply State.locked_keeps
    | with_reducible refine Keeps.ofEq (by with_reducible assumption) ?_
    | with_reducible apply Keeps.ite

theorem State.gatedWrite_keeps {b0 s : State} (ok : Bool) (m : Master) (k : Nat) (v : W32) (hp : [.regs, .detected] ⊆ K) (hK : Keeps K b0 s) : Keeps K b0 (State.gatedWrite s ok m k v) := by
  unfold State.gatedWrite
  try dsimp only
  repeat' first
    | with_reducible assumption
    | (with_reducible refine List.Subset.trans ?_ hp; decide)
    | with_reducible apply State.gate_keeps
    | with_reducible apply State.plainWrite_keeps
    | with_reducible refine Keeps.ofEq (by with_reducible assumption) ?_
    | with_reducible apply Keeps.ite
    | (intro _ _; try dsimp only)

theorem State.writeIdv_keeps {b0 s : State} (m : Master) (off : Nat) (v : W32) (hp : [.agenda, .regs, .detected, .outs, .loose, .rep, .hfp] ⊆ K) (hK : Keeps K b0 s) : Keeps K b0 (State.writeIdv s m off v) := by
  unfold State.writeIdv
  try dsimp only
  repeat' first
    | with_reducible assumption
    | (with_reducible refine List.Subset.trans ?_ hp; decide)
    | with_reducible apply execCmapCtlWrite_keeps
    | with_reducible apply execCmapEntryWrite_keeps
    | with_reducible apply execDetWrite_keeps
    | with_reducible apply execFenceCmd_keeps
    | with_reducible apply execFencePendClear_keeps
    | with_reducible apply State.ueArm_keeps
    | with_reducible apply ran_keeps
    | with_reducible apply State.minOne_keeps
    | with_reducible apply State.plainWrite_keeps
    | with_reducible refine Keeps.ofEq (by with_reducible assumption) ?_
    | with_reducible apply Keeps.ite
    | dsimp only
    | split

theorem State.writeErr_keeps {b0 s : State} (m : Master) (off : Nat) (v : W32) (hp : [.regs, .detected] ⊆ K) (hK : Keeps K b0 s) : Keeps K b0 (State.writeErr s m off v) := by
  unfold State.writeErr
  try dsimp only
  repeat' first
    | with_reducible assumption
    | with_reducible apply State.logCtl_keeps
    | with_reducible apply State.plainWrite_keeps
    | with_reducible refine Keeps.ofEq (by with_reducible assumption) ?_
    | with_reducible apply Keeps.ite
    | dsimp only
    | split

theorem State.writeCabCmd_keeps {b0 s : State} (m : Master) (v : W32) (hp : [.agenda, .regs, .detected, .pwr, .leave] ⊆ K) (hK : Keeps K b0 s) : Keeps K b0 (State.writeCabCmd s m v) := by
  unfold State.writeCabCmd
  try dsimp only
  repeat' first
    | with_reducible assumption
    | (with_reducible refine List.Subset.trans ?_ hp; decide)
    | with_reducible apply State.gate_keeps
    | with_reducible apply execCabCmdRun_keeps
    | with_reducible apply execCabCmdDoze_keeps
    | with_reducible apply execCabCmdHold_keeps
    | with_reducible apply execCabCmdQuench_keeps
    | with_reducible apply ran_keeps
    | with_reducible refine Keeps.ofEq (by with_reducible assumption) ?_
    | with_reducible apply Keeps.ite
    | exact fun _ hu => hu
    | dsimp only
    | split

theorem State.writePwr_keeps {b0 s : State} (m : Master) (off : Nat) (v : W32) (hp : [.agenda, .regs, .detected, .events, .pwr, .leave, .tx, .mgt] ⊆ K) (hK : Keeps K b0 s) : Keeps K b0 (State.writePwr s m off v) := by
  unfold State.writePwr
  try dsimp only
  repeat' first
    | with_reducible assumption
    | (with_reducible refine List.Subset.trans ?_ hp; decide)
    | with_reducible apply State.locked_keeps
    | with_reducible apply ran_keeps
    | with_reducible apply State.gate_keeps
    | with_reducible apply State.leavePoke_keeps
    | with_reducible apply State.emergCtl_keeps
    | with_reducible apply State.clampCfg_keeps
    | with_reducible apply execDieSleep_keeps
    | with_reducible apply execOpChange_keeps
    | with_reducible apply State.minOne_keeps
    | with_reducible apply State.plainWrite_keeps
    | with_reducible apply State.gatedWrite_keeps
    | with_reducible apply State.writeCabCmd_keeps
    | with_reducible refine Keeps.ofEq (by with_reducible assumption) ?_
    | with_reducible apply Keeps.ite
    | (intro _ _ <;> try dsimp only)

theorem State.writeBind_keeps {b0 s : State} (m : Master) (v : W32) (hp : [.agenda, .regs, .detected, .loose, .rep, .syn, .ctx, .leave] ⊆ K) (hK : Keeps K b0 s) : Keeps K b0 (State.writeBind s m v) := by
  unfold State.writeBind
  try dsimp only
  repeat' first
    | with_reducible assumption
    | (with_reducible refine List.Subset.trans ?_ hp; decide)
    | with_reducible apply State.locked_keeps
    | with_reducible apply State.winRej_keeps
    | with_reducible apply execWindowBind_keeps
    | with_reducible apply execWindowUnbind_keeps
    | with_reducible apply execWindowRelease_keeps
    | with_reducible apply ran_keeps
    | with_reducible refine Keeps.ofEq (by with_reducible assumption) ?_
    | with_reducible apply Keeps.ite
    | dsimp only
    | split

theorem State.writeCtxCmd_keeps {b0 s : State} (m : Master) (v : W32) (hp : [.agenda, .regs, .detected, .outs, .stp, .set, .loose, .syn, .fifos, .runners, .ctx, .leave, .hfp] ⊆ K) (hK : Keeps K b0 s) : Keeps K b0 (State.writeCtxCmd s m v) := by
  unfold State.writeCtxCmd
  try dsimp only
  repeat' first
    | with_reducible assumption
    | (with_reducible refine List.Subset.trans ?_ hp; decide)
    | with_reducible apply State.locked_keeps
    | with_reducible apply State.ctxRej_keeps
    | with_reducible apply execCtxActivate_keeps
    | with_reducible apply execCtxDeactivate_keeps
    | with_reducible apply execCtxBind_keeps
    | with_reducible apply execCtxKill_keeps
    | with_reducible apply ran_keeps
    | with_reducible refine Keeps.ofEq (by with_reducible assumption) ?_
    | with_reducible apply Keeps.ite
    | dsimp only
    | split

theorem State.writeCtx_keeps {b0 s : State} (m : Master) (off : Nat) (v : W32) (hp : [.agenda, .regs, .detected, .outs, .stp, .set, .loose, .syn, .fifos, .runners, .ctx, .leave, .hfp] ⊆ K) (hK : Keeps K b0 s) : Keeps K b0 (State.writeCtx s m off v) := by
  unfold State.writeCtx
  try dsimp only
  repeat' first
    | with_reducible assumption
    | (with_reducible refine List.Subset.trans ?_ hp; decide)
    | with_reducible apply execEagWrite_keeps
    | with_reducible apply ran_keeps
    | with_reducible apply State.plainWrite_keeps
    | with_reducible apply State.gatedWrite_keeps
    | with_reducible apply State.writeCtxCmd_keeps
    | with_reducible refine Keeps.ofEq (by with_reducible assumption) ?_
    | with_reducible apply Keeps.ite
    | dsimp only
    | split

theorem State.writeLevel_keeps {b0 s : State} (m : Master) (v : W32) (hp : [.regs, .detected] ⊆ K) (hK : Keeps K b0 s) : Keeps K b0 (State.writeLevel s m v) := by
  unfold State.writeLevel
  try dsimp only
  repeat' first
    | with_reducible assumption
    | (with_reducible refine List.Subset.trans ?_ hp; decide)
    | with_reducible apply State.locked_keeps
    | with_reducible apply State.plainWrite_keeps
    | with_reducible refine Keeps.ofEq (by with_reducible assumption) ?_
    | with_reducible apply Keeps.ite

theorem State.writeLct_keeps {b0 s : State} (m : Master) (off : Nat) (v : W32) (hp : [.agenda, .regs, .detected, .frz, .tx] ⊆ K) (hK : Keeps K b0 s) : Keeps K b0 (State.writeLct s m off v) := by
  unfold State.writeLct
  try dsimp only
  repeat' first
    | with_reducible assumption
    | (with_reducible refine List.Subset.trans ?_ hp; decide)
    | with_reducible apply State.put_keeps
    | with_reducible apply execFrzCtlWrite_keeps
    | with_reducible apply ran_keeps
    | with_reducible apply State.plainWrite_keeps
    | with_reducible apply State.writeLevel_keeps
    | with_reducible refine Keeps.ofEq (by with_reducible assumption) ?_
    | with_reducible apply Keeps.ite
    | dsimp only
    | split

theorem State.writeLaneCtl_keeps {b0 s : State} (m : Master) (l : Nat) (v : W32) (hp : [.agenda, .regs, .detected, .frz, .loose, .syn, .brg, .leave, .tx] ⊆ K) (hK : Keeps K b0 s) : Keeps K b0 (State.writeLaneCtl s m l v) := by
  unfold State.writeLaneCtl
  try dsimp only
  repeat' first
    | with_reducible assumption
    | (with_reducible refine List.Subset.trans ?_ hp; decide)
    | with_reducible apply State.gate_keeps
    | with_reducible apply execLaneTrain_keeps
    | with_reducible apply execLaneOff_keeps
    | with_reducible apply ran_keeps
    | with_reducible apply State.plainWrite_keeps
    | with_reducible refine Keeps.ofEq (by with_reducible assumption) ?_
    | with_reducible apply Keeps.ite
    | (intro _ _ <;> try dsimp only)
    | dsimp only
    | split

theorem State.writeBrg_keeps {b0 s : State} (m : Master) (off : Nat) (v : W32) (hp : [.agenda, .regs, .detected, .frz, .loose, .syn, .brg, .leave, .tx] ⊆ K) (hK : Keeps K b0 s) : Keeps K b0 (State.writeBrg s m off v) := by
  unfold State.writeBrg
  try dsimp only
  repeat' first
    | with_reducible assumption
    | (with_reducible refine List.Subset.trans ?_ hp; decide)
    | with_reducible apply execDrouteWrite_keeps
    | with_reducible apply ran_keeps
    | with_reducible apply State.gatedWrite_keeps
    | with_reducible apply State.writeLaneCtl_keeps
    | with_reducible refine Keeps.ofEq (by with_reducible assumption) ?_
    | with_reducible apply Keeps.ite
    | dsimp only
    | split

theorem State.writePart_keeps {b0 s : State} (m : Master) (p o : Nat) (v : W32) (hp : [.agenda, .regs, .detected, .events, .loHeld, .edg] ⊆ K) (hK : Keeps K b0 s) : Keeps K b0 (State.writePart s m p o v) := by
  unfold State.writePart
  try dsimp only
  repeat' first
    | with_reducible assumption
    | (with_reducible refine List.Subset.trans ?_ hp; decide)
    | with_reducible apply State.setReg_keeps
    | with_reducible apply State.gate_keeps
    | with_reducible apply State.takeLo_keeps
    | with_reducible apply State.ptCtl_keeps
    | with_reducible apply State.minOne_keeps
    | with_reducible apply State.plainWrite_keeps
    | with_reducible apply State.gatedWrite_keeps
    | with_reducible refine Keeps.ofEq (by with_reducible assumption) ?_
    | with_reducible apply Keeps.ite
    | (intro _ _; try dsimp only)

theorem State.writeEdg_keeps {b0 s : State} (m : Master) (off : Nat) (v : W32) (hp : [.agenda, .regs, .detected, .events, .loHeld, .edg] ⊆ K) (hK : Keeps K b0 s) : Keeps K b0 (State.writeEdg s m off v) := by
  unfold State.writeEdg
  try dsimp only
  repeat' first
    | with_reducible assumption
    | (with_reducible refine List.Subset.trans ?_ hp; decide)
    | with_reducible apply State.gate_keeps
    | with_reducible apply State.edgeGo_keeps
    | with_reducible apply execEdgeEnWrite_keeps
    | with_reducible apply ran_keeps
    | with_reducible apply State.gatedWrite_keeps
    | with_reducible apply State.writePart_keeps
    | with_reducible refine Keeps.ofEq (by with_reducible assumption) ?_
    | with_reducible apply Keeps.ite
    | (intro _ _; try dsimp only)

theorem State.writeCmx_keeps {b0 s : State} (m : Master) (off : Nat) (v : W32) (hp : [.regs, .detected] ⊆ K) (hK : Keeps K b0 s) : Keeps K b0 (State.writeCmx s m off v) := by
  unfold State.writeCmx
  try dsimp only
  repeat' first
    | with_reducible assumption
    | (with_reducible refine List.Subset.trans ?_ hp; decide)
    | with_reducible apply State.clearOn_keeps
    | with_reducible apply State.gate_keeps
    | with_reducible apply State.gatedWrite_keeps
    | with_reducible refine Keeps.ofEq (by with_reducible assumption) ?_
    | with_reducible apply Keeps.ite
    | (with_reducible refine Keeps.foldl ?_ (fun _ _ _ => ?_) <;> try dsimp only)
    | (intro _ _ <;> try dsimp only)
    | dsimp only
    | split

theorem State.writeWdt_keeps {b0 s : State} (m : Master) (c : Nat) (v : W32) (hp : [.agenda, .regs, .detected, .mgt] ⊆ K) (hK : Keeps K b0 s) : Keeps K b0 (State.writeWdt s m c v) := by
  unfold State.writeWdt
  try dsimp only
  repeat' first
    | with_reducible assumption
    | (with_reducible refine List.Subset.trans ?_ hp; decide)
    | with_reducible apply State.later_keeps
    | with_reducible apply State.disarm_keeps
    | with_reducible apply State.wdtChange_keeps
    | with_reducible apply State.gate_keeps
    | with_reducible apply State.minOne_keeps
    | with_reducible apply State.plainWrite_keeps
    | with_reducible refine Keeps.ofEq (by with_reducible assumption) ?_
    | with_reducible apply Keeps.ite
    | (intro _ _ <;> try dsimp only)
    | dsimp only
    | split
    | with_reducible apply Keeps.set_mgt

theorem State.writeMgt_keeps {b0 s : State} (m : Master) (off : Nat) (v : W32) (hp : [.agenda, .regs, .freeCtr, .detected, .events, .frz, .pwr, .leave, .masked, .tx, .mgt, .cmx, .boot] ⊆ K) (hK : Keeps K b0 s) : Keeps K b0 (State.writeMgt s m off v) := by
  unfold State.writeMgt
  try dsimp only
  repeat' first
    | with_reducible assumption
    | (with_reducible refine List.Subset.trans ?_ hp; decide)
    | with_reducible apply State.locked_keeps
    | with_reducible apply ran_keeps
    | with_reducible apply execDoorbell_keeps
    | with_reducible apply execHintSet_keeps
    | with_reducible apply execHintStatClear_keeps
    | with_reducible apply execWdtKick_keeps
    | with_reducible apply execMgtRestartWrite_keeps
    | with_reducible apply execMgtRemapWrite_keeps
    | with_reducible apply execMgtActWrite_keeps
    | with_reducible apply execRecovery_keeps
    | with_reducible apply execSelfHalt_keeps
    | with_reducible apply execResume_keeps
    | with_reducible apply State.gatedWrite_keeps
    | with_reducible apply State.writeWdt_keeps
    | with_reducible refine Keeps.ofEq (by with_reducible assumption) ?_
    | with_reducible apply Keeps.ite
    | dsimp only
    | split

theorem State.writeHlm_keeps {b0 s : State} (m : Master) (off : Nat) (v : W32) (hp : [.agenda, .regs, .detected, .rep, .tx, .boot] ⊆ K) (hK : Keeps K b0 s) : Keeps K b0 (State.writeHlm s m off v) := by
  unfold State.writeHlm
  try dsimp only
  repeat' first
    | with_reducible assumption
    | (with_reducible refine List.Subset.trans ?_ hp; decide)
    | with_reducible apply State.locked_keeps
    | with_reducible apply State.gate_keeps
    | with_reducible apply State.bootCtl_keeps
    | with_reducible apply State.gatedWrite_keeps
    | with_reducible refine Keeps.ofEq (by with_reducible assumption) ?_
    | with_reducible apply Keeps.ite
    | exact fun _ hu => hu

theorem State.writeDie_keeps {b0 s : State} (m : Master) (k : Nat) (v : W32) (hp : [.agenda, .time, .regs, .freeCtr, .detected, .events, .loHeld, .outs, .frz, .stp, .set, .loose, .rep, .syn, .fifos, .runners, .pwr, .ctx, .brg, .edg, .leave, .masked, .tx, .mgt, .cmx, .boot, .hfp] ⊆ K) (hK : Keeps K b0 s) : Keeps K b0 (State.writeDie s m k v) := by
  unfold State.writeDie
  try dsimp only
  repeat' first
    | with_reducible assumption
    | (with_reducible refine List.Subset.trans ?_ hp; decide)
    | with_reducible apply execTimSet_keeps
    | with_reducible apply ran_keeps
    | with_reducible apply execDebugHalt_keeps
    | with_reducible apply State.plainWrite_keeps
    | with_reducible apply State.gatedWrite_keeps
    | with_reducible apply State.writeIdv_keeps
    | with_reducible apply State.writeErr_keeps
    | with_reducible apply State.writePwr_keeps
    | with_reducible apply State.writeBind_keeps
    | with_reducible apply State.writeCtx_keeps
    | with_reducible apply State.writeLct_keeps
    | with_reducible apply State.writeBrg_keeps
    | with_reducible apply State.writeEdg_keeps
    | with_reducible apply State.writeCmx_keeps
    | with_reducible apply State.writeMgt_keeps
    | with_reducible apply State.writeHlm_keeps
    | with_reducible refine Keeps.ofEq (by with_reducible assumption) ?_
    | with_reducible apply Keeps.ite
    | dsimp only
    | split

theorem State.writeBnk_keeps {b0 s : State} (m : Master) (c : Cab) (off : Nat) (v : W32) (hp : [.agenda, .regs, .detected, .outs, .loose, .rep, .leave, .cmx, .counted] ⊆ K) (hK : Keeps K b0 s) : Keeps K b0 (State.writeBnk s m c off v) := by
  unfold State.writeBnk
  try dsimp only
  repeat' first
    | with_reducible assumption
    | (with_reducible refine List.Subset.trans ?_ hp; decide)
    | with_reducible apply State.put_keeps
    | with_reducible apply State.gate_keeps
    | with_reducible apply execRetireWrite_keeps
    | with_reducible apply execBktCfgWrite_keeps
    | with_reducible apply execInjCtlWrite_keeps
    | with_reducible apply execBnkCntClr_keeps
    | with_reducible apply execSwpGo_keeps
    | with_reducible apply ran_keeps
    | with_reducible apply State.gatedWrite_keeps
    | with_reducible refine Keeps.ofEq (by with_reducible assumption) ?_
    | with_reducible apply Keeps.ite
    | (intro _ _ <;> try dsimp only)
    | dsimp only
    | split

theorem State.writeSyn_keeps {b0 s : State} (m : Master) (c : Cab) (via : Cab) (off : Nat) (v : W32) (hp : [.agenda, .regs, .freeCtr, .detected, .loHeld, .outs, .stp, .syn, .runners, .cmx, .counted] ⊆ K) (hK : Keeps K b0 s) : Keeps K b0 (State.writeSyn s m c via off v) := by
  unfold State.writeSyn
  try dsimp only
  repeat' first
    | with_reducible assumption
    | (with_reducible refine List.Subset.trans ?_ hp; decide)
    | with_reducible apply State.gate_keeps
    | with_reducible apply State.ctrWrite_keeps
    | with_reducible apply execSynSignalWrite_keeps
    | with_reducible apply execSetKeyWrite_keeps
    | with_reducible apply execCounterSet_keeps
    | with_reducible apply State.dumpCtl_keeps
    | with_reducible apply ran_keeps
    | with_reducible apply State.plainWrite_keeps
    | with_reducible refine Keeps.ofEq (by with_reducible assumption) ?_
    | with_reducible apply Keeps.ite
    | (intro _ _ <;> try dsimp only)
    | dsimp only
    | split

theorem State.writeRun_keeps {b0 s : State} (m : Master) (c : Cab) (off : Nat) (v : W32) (hp : [.agenda, .regs, .detected, .outs, .stp, .loose, .syn, .fifos, .runners, .leave, .cmx, .counted, .hfp] ⊆ K) (hK : Keeps K b0 s) : Keeps K b0 (State.writeRun s m c off v) := by
  unfold State.writeRun
  try dsimp only
  repeat' first
    | with_reducible assumption
    | (with_reducible refine List.Subset.trans ?_ hp; decide)
    | with_reducible apply State.put_keeps
    | with_reducible apply State.gate_keeps
    | with_reducible apply execRunnerListGo_keeps
    | with_reducible apply execCmplPop_keeps
    | with_reducible apply execRunnerAbort_keeps
    | with_reducible apply ran_keeps
    | with_reducible apply State.gatedWrite_keeps
    | with_reducible refine Keeps.ofEq (by with_reducible assumption) ?_
    | with_reducible apply Keeps.ite
    | (intro _ _ <;> try dsimp only)
    | dsimp only
    | split

theorem State.writeHff_keeps {b0 s : State} (m : Master) (c : Cab) (off : Nat) (v : W32) (hp : [.agenda, .regs, .detected, .outs, .fifos, .cmx, .counted] ⊆ K) (hK : Keeps K b0 s) : Keeps K b0 (State.writeHff s m c off v) := by
  unfold State.writeHff
  try dsimp only
  repeat' first
    | with_reducible assumption
    | (with_reducible refine List.Subset.trans ?_ hp; decide)
    | with_reducible apply execHffFlush_keeps
    | with_reducible apply execHffCfgWrite_keeps
    | with_reducible apply ran_keeps
    | with_reducible apply State.plainWrite_keeps
    | with_reducible apply State.gatedWrite_keeps
    | with_reducible refine Keeps.ofEq (by with_reducible assumption) ?_
    | with_reducible apply Keeps.ite
    | dsimp only
    | split

theorem State.writeCab_keeps {b0 s : State} (m : Master) (k : Nat) (via : Cab) (v : W32) (hp : [.agenda, .regs, .freeCtr, .detected, .loHeld, .outs, .stp, .loose, .rep, .syn, .fifos, .runners, .leave, .cmx, .counted, .hfp] ⊆ K) (hK : Keeps K b0 s) : Keeps K b0 (State.writeCab s m k via v) := by
  unfold State.writeCab
  try dsimp only
  repeat' first
    | with_reducible assumption
    | (with_reducible refine List.Subset.trans ?_ hp; decide)
    | with_reducible apply execArbPrioWrite_keeps
    | with_reducible apply execArbAgeWrite_keeps
    | with_reducible apply execArbCntClr_keeps
    | with_reducible apply execSbdModeWrite_keeps
    | with_reducible apply State.asyCtl_keeps
    | with_reducible apply execRemapAdd_keeps
    | with_reducible apply ran_keeps
    | with_reducible apply State.plainWrite_keeps
    | with_reducible apply State.gatedWrite_keeps
    | with_reducible apply State.writeBnk_keeps
    | with_reducible apply State.writeSyn_keeps
    | with_reducible apply State.writeRun_keeps
    | with_reducible apply State.writeHff_keeps
    | with_reducible refine Keeps.ofEq (by with_reducible assumption) ?_
    | with_reducible apply Keeps.ite
    | dsimp only
    | split

theorem State.holdLo_keeps {b0 s : State} (m : Master) (k : Nat) (v : W32) (hp : [.detected, .loHeld] ⊆ K) (hK : Keeps K b0 s) : Keeps K b0 (State.holdLo s m k v) := by
  unfold State.holdLo
  try dsimp only
  repeat' first
    | with_reducible assumption
    | (with_reducible refine List.Subset.trans ?_ hp; decide)
    | with_reducible apply State.gate_keeps
    | with_reducible refine Keeps.ofEq (by with_reducible assumption) ?_
    | with_reducible apply Keeps.ite
    | (intro _ _ <;> try dsimp only)
    | dsimp only
    | split
    | with_reducible apply Keeps.set_loHeld

theorem State.ctlWrite_keeps {b0 s : State} (m : Master) (k : Nat) (via : Cab) (v : W32) (hp : [.agenda, .time, .regs, .freeCtr, .detected, .events, .loHeld, .outs, .frz, .stp, .set, .loose, .rep, .syn, .fifos, .runners, .pwr, .ctx, .brg, .edg, .leave, .masked, .tx, .mgt, .cmx, .boot, .counted, .hfp] ⊆ K) (hK : Keeps K b0 s) : Keeps K b0 (State.ctlWrite s m k via v) := by
  unfold State.ctlWrite
  try dsimp only
  repeat' first
    | with_reducible assumption
    | (with_reducible refine List.Subset.trans ?_ hp; decide)
    | with_reducible apply State.writeDie_keeps
    | with_reducible apply State.writeCab_keeps
    | with_reducible apply State.holdLo_keeps
    | with_reducible refine Keeps.ofEq (by with_reducible assumption) ?_
    | with_reducible apply Keeps.ite
end Sys2Proof.Machine
end

