-- ==== Sys2Proof/Laws/KeepsCmx.lean ====
section
/-! SUPPORT. What the operations and commands of Machine/Cmx.lean leave alone: one lemma each, in the terms of `Keeps`. The list each
asks for holds the parts it may change. -/
namespace Sys2Proof.Machine
variable {K : List Part}
theorem State.once_keeps {b0 s : State} (due : Nat) (i : Instr) (hp : [.agenda] ⊆ K) (hK : Keeps K b0 s) : Keeps K b0 (State.once s due i) := by
  unfold State.once
  try dsimp only
  repeat' first
    | with_reducible assumption
    | with_reducible apply State.at'_keeps
    | with_reducible refine Keeps.ofEq (by with_reducible assumption) ?_
    | with_reducible apply Keeps.ite

theorem State.controlServe_keeps {b0 s : State} (o : CmxOut) (ca : Nat) (read : Nat) (hp : [.agenda, .time, .regs, .freeCtr, .detected, .events, .hiLatch, .loHeld, .outs, .frz, .stp, .set, .loose, .rep, .syn, .fifos, .runners, .pwr, .ctx, .brg, .edg, .leave, .masked, .tx, .mgt, .cmx, .boot, .counted, .hfp] ⊆ K) (hK : Keeps K b0 s) : Keeps K b0 (State.controlServe s o ca read).1 := by
  unfold State.controlServe
  try dsimp only
  repeat' first
    | with_reducible assumption
    | (with_reducible refine List.Subset.trans ?_ hp; decide)
    | with_reducible apply State.later_keeps
    | with_reducible apply State.readReg_keeps
    | with_reducible apply State.ctlWrite_keeps
    | with_reducible refine Keeps.ofEq (by with_reducible assumption) ?_
    | with_reducible apply Keeps.ite
    | dsimp only
    | split

theorem State.tensorServe_keeps {b0 s : State} (o : CmxOut) (fa : Nat) (hp : [.agenda, .regs, .detected, .loose, .syn, .pwr] ⊆ K) (hK : Keeps K b0 s) : Keeps K b0 (State.tensorServe s o fa).1 := by
  unfold State.tensorServe
  try dsimp only
  repeat' first
    | with_reducible assumption
    | (with_reducible refine List.Subset.trans ?_ hp; decide)
    | with_reducible apply State.at'_keeps
    | with_reducible apply State.fresh_keeps
    | with_reducible apply State.undrain_keeps
    | with_reducible apply State.violate_keeps
    | with_reducible apply State.refuse_keeps
    | with_reducible apply State.refused_keeps
    | with_reducible apply State.deliver_keeps
    | with_reducible apply State.launch_keeps
    | with_reducible apply State.arrive_keeps
    | with_reducible refine Keeps.ofEq (by with_reducible assumption) ?_
    | with_reducible apply Keeps.ite
    | exact fun _ hu => hu
    | dsimp only
    | split

theorem State.serve_keeps {b0 s : State} (o : CmxOut) (hp : [.agenda, .time, .regs, .mem, .freeCtr, .detected, .events, .hiLatch, .loHeld, .outs, .frz, .stp, .set, .loose, .rep, .syn, .fifos, .runners, .pwr, .ctx, .brg, .edg, .leave, .masked, .tx, .mgt, .cmx, .boot, .counted, .hfp] ⊆ K) (hK : Keeps K b0 s) : Keeps K b0 (State.serve s o).1 := by
  unfold State.serve
  try dsimp only
  repeat' first
    | with_reducible assumption
    | (with_reducible refine List.Subset.trans ?_ hp; decide)
    | with_reducible apply State.later_keeps
    | with_reducible apply State.useFree_keeps
    | with_reducible apply State.setCells_keeps
    | with_reducible apply State.decodeMiss_keeps
    | with_reducible apply State.side_keeps
    | with_reducible apply State.controlServe_keeps
    | with_reducible apply State.tensorServe_keeps
    | with_reducible refine Keeps.ofEq (by with_reducible assumption) ?_
    | with_reducible apply Keeps.ite
    | exact fun _ hu => hu
    | dsimp only
    | split

theorem State.presentReq_keeps {b0 s : State} (q : CmxReq) (hp : [.agenda, .cmx] ⊆ K) (hK : Keeps K b0 s) : Keeps K b0 (State.presentReq s q) := by
  unfold State.presentReq
  try dsimp only
  repeat' first
    | with_reducible assumption
    | (with_reducible refine List.Subset.trans ?_ hp; decide)
    | with_reducible apply State.once_keeps
    | with_reducible refine Keeps.ofEq (by with_reducible assumption) ?_
    | with_reducible apply Keeps.ite
    | dsimp only
    | split
    | with_reducible apply Keeps.set_cmx

theorem execCmxRequest_keeps {b0 s : State} (m : Master) (write : Bool) (laddr : W32) (strobes : Byte) (data : W64) (hp : [.agenda, .cmx] ⊆ K) (hK : Keeps K b0 s) : KeepsO K b0 (execCmxRequest m write laddr strobes data s) := by
  unfold execCmxRequest
  try dsimp only
  repeat' first
    | with_reducible assumption
    | with_reducible apply KeepsO.next
    | with_reducible apply State.presentReq_keeps

theorem execLockedRead_keeps {b0 s : State} (m : Master) (laddr : W32) (strobes : Byte) (hp : [.agenda, .cmx] ⊆ K) (hK : Keeps K b0 s) : KeepsO K b0 (execLockedRead m laddr strobes s) := by
  unfold execLockedRead
  try dsimp only
  repeat' first
    | with_reducible assumption
    | with_reducible apply KeepsO.next
    | with_reducible apply State.presentReq_keeps

theorem State.noTarget_keeps {b0 s : State} (q : CmxReq) (hp : [.agenda, .regs, .detected, .cmx, .counted] ⊆ K) (hK : Keeps K b0 s) : Keeps K b0 (State.noTarget s q) := by
  unfold State.noTarget
  try dsimp only
  repeat' first
    | with_reducible assumption
    | (with_reducible refine List.Subset.trans ?_ hp; decide)
    | with_reducible apply State.decodeMiss_keeps
    | with_reducible apply State.once_keeps
    | with_reducible refine Keeps.ofEq (by with_reducible assumption) ?_
    | with_reducible apply Keeps.ite
    | exact fun _ hu => hu
    | dsimp only
    | split
    | with_reducible apply Keeps.set_cmx

theorem State.startReq_keeps {b0 s : State} (t : Nat) (q : CmxReq) (hp : [.agenda, .time, .regs, .mem, .freeCtr, .detected, .events, .hiLatch, .loHeld, .outs, .frz, .stp, .set, .loose, .rep, .syn, .fifos, .runners, .pwr, .ctx, .brg, .edg, .leave, .masked, .tx, .mgt, .cmx, .boot, .counted, .hfp] ⊆ K) (hK : Keeps K b0 s) : Keeps K b0 (State.startReq s t q) := by
  unfold State.startReq
  try dsimp only
  repeat' first
    | with_reducible assumption
    | (with_reducible refine List.Subset.trans ?_ hp; decide)
    | with_reducible apply State.put_keeps
    | with_reducible apply State.incOn_keeps
    | with_reducible apply State.maxOn_keeps
    | with_reducible apply State.once_keeps
    | with_reducible apply State.serve_keeps
    | with_reducible refine Keeps.ofEq (by with_reducible assumption) ?_
    | with_reducible apply Keeps.ite
    | exact fun _ hu => hu
    | dsimp only
    | split
    | with_reducible apply Keeps.set_cmx

theorem State.startDue_keeps {b0 s : State} (t : Nat) (hp : [.agenda, .time, .regs, .mem, .freeCtr, .detected, .events, .hiLatch, .loHeld, .outs, .frz, .stp, .set, .loose, .rep, .syn, .fifos, .runners, .pwr, .ctx, .brg, .edg, .leave, .masked, .tx, .mgt, .cmx, .boot, .counted, .hfp] ⊆ K) (hK : Keeps K b0 s) : Keeps K b0 (State.startDue s t) := by
  unfold State.startDue
  try dsimp only
  repeat' first
    | with_reducible assumption
    | (with_reducible refine List.Subset.trans ?_ hp; decide)
    | with_reducible apply State.startReq_keeps
    | with_reducible refine Keeps.ofEq (by with_reducible assumption) ?_
    | with_reducible apply Keeps.ite
    | (with_reducible refine Keeps.foldl ?_ (fun _ _ _ => ?_) <;> try dsimp only)
    | dsimp only
    | split
    | with_reducible apply Keeps.set_cmx

theorem State.cmxGrant_keeps {b0 s : State} (t : Nat) (q : CmxReq) (hp : [.agenda, .time, .regs, .mem, .freeCtr, .detected, .events, .hiLatch, .loHeld, .outs, .frz, .stp, .set, .loose, .rep, .syn, .fifos, .runners, .pwr, .ctx, .brg, .edg, .leave, .masked, .tx, .mgt, .cmx, .boot, .counted, .hfp] ⊆ K) (hK : Keeps K b0 s) : Keeps K b0 (State.cmxGrant s t q) := by
  unfold State.cmxGrant
  try dsimp only
  repeat' first
    | with_reducible assumption
    | (with_reducible refine List.Subset.trans ?_ hp; decide)
    | with_reducible apply State.endLocks_keeps
    | with_reducible apply State.startReq_keeps
    | with_reducible refine Keeps.ofEq (by with_reducible assumption) ?_
    | with_reducible apply Keeps.ite
    | exact fun _ hu => hu
    | dsimp only
    | split
    | with_reducible apply Keeps.set_cmx

theorem State.cmxDecide_keeps {b0 s : State} (t : Nat) (hp : [.agenda, .time, .regs, .mem, .freeCtr, .detected, .events, .hiLatch, .loHeld, .outs, .frz, .stp, .set, .loose, .rep, .syn, .fifos, .runners, .pwr, .ctx, .brg, .edg, .leave, .masked, .tx, .mgt, .cmx, .boot, .counted, .hfp] ⊆ K) (hK : Keeps K b0 s) : Keeps K b0 (State.cmxDecide s t) := by
  unfold State.cmxDecide
  try dsimp only
  repeat' first
    | with_reducible assumption
    | (with_reducible refine List.Subset.trans ?_ hp; decide)
    | with_reducible apply State.decodeMiss_keeps
    | with_reducible apply State.once_keeps
    | with_reducible apply State.cmxGrant_keeps
    | with_reducible refine Keeps.ofEq (by with_reducible assumption) ?_
    | with_reducible apply Keeps.ite
    | exact fun _ hu => hu
    | dsimp only
    | split
    | with_reducible apply Keeps.set_cmx

theorem State.rgsInbox_keeps {b0 s : State} (hp : [.agenda, .time, .regs, .freeCtr, .detected, .events, .hiLatch, .loHeld, .outs, .frz, .stp, .set, .loose, .rep, .syn, .fifos, .runners, .pwr, .ctx, .brg, .edg, .leave, .masked, .tx, .mgt, .cmx, .boot, .counted, .hfp] ⊆ K) (hK : Keeps K b0 s) : Keeps K b0 (State.rgsInbox s) := by
  unfold State.rgsInbox
  try dsimp only
  repeat' first
    | with_reducible assumption
    | (with_reducible refine List.Subset.trans ?_ hp; decide)
    | with_reducible apply State.decodeMiss_keeps
    | with_reducible apply State.side_keeps
    | with_reducible apply State.opReport_keeps
    | with_reducible apply State.controlServe_keeps
    | with_reducible refine Keeps.ofEq (by with_reducible assumption) ?_
    | with_reducible apply Keeps.ite
    | (with_reducible refine Keeps.foldl ?_ (fun _ _ _ => ?_) <;> try dsimp only)
    | exact fun _ hu => hu
    | dsimp only
    | split
    | with_reducible apply Keeps.set_brg
    | with_reducible apply Keeps.set_cmx

theorem State.countWait_keeps {b0 s : State} (t : Nat) (hp : [.regs, .cmx, .counted] ⊆ K) (hK : Keeps K b0 s) : Keeps K b0 (State.countWait s t) := by
  unfold State.countWait
  try dsimp only
  repeat' first
    | with_reducible assumption
    | (with_reducible refine List.Subset.trans ?_ hp; decide)
    | with_reducible apply State.incOn_keeps
    | with_reducible refine Keeps.ofEq (by with_reducible assumption) ?_
    | with_reducible apply Keeps.ite
    | dsimp only
    | split
    | with_reducible apply Keeps.set_cmx

theorem State.maskHrp_keeps {b0 s : State} (hp : [.agenda, .regs, .cmx] ⊆ K) (hK : Keeps K b0 s) : Keeps K b0 (State.maskHrp s) := by
  unfold State.maskHrp
  try dsimp only
  repeat' first
    | with_reducible assumption
    | with_reducible apply State.cmxMask_keeps
    | with_reducible refine Keeps.ofEq (by with_reducible assumption) ?_
    | with_reducible apply Keeps.ite

theorem execTargetArbitration_keeps {b0 s : State} (t : Target) (hp : [.agenda, .time, .regs, .mem, .freeCtr, .detected, .events, .hiLatch, .loHeld, .outs, .frz, .stp, .set, .loose, .rep, .syn, .fifos, .runners, .pwr, .ctx, .brg, .edg, .leave, .masked, .tx, .mgt, .cmx, .boot, .counted, .hfp] ⊆ K) (hK : Keeps K b0 s) : KeepsO K b0 (execTargetArbitration t s) := by
  unfold execTargetArbitration
  try dsimp only
  repeat' first
    | with_reducible assumption
    | (with_reducible refine List.Subset.trans ?_ hp; decide)
    | with_reducible apply KeepsO.next
    | with_reducible apply State.opReport_keeps
    | with_reducible apply State.once_keeps
    | with_reducible apply State.noTarget_keeps
    | with_reducible apply State.startDue_keeps
    | with_reducible apply State.cmxDecide_keeps
    | with_reducible apply State.rgsInbox_keeps
    | with_reducible apply State.countWait_keeps
    | with_reducible apply State.maskHrp_keeps
    | with_reducible refine Keeps.ofEq (by with_reducible assumption) ?_
    | with_reducible apply Keeps.ite
    | (with_reducible refine Keeps.foldl ?_ (fun _ _ _ => ?_) <;> try dsimp only)
    | with_reducible apply KeepsO.ite
    | dsimp only
    | split
    | with_reducible apply Keeps.set_cmx

theorem State.takeAcked_keeps {b0 s : State} (m : Nat) (hp : [.loose, .cmx] ⊆ K) (hK : Keeps K b0 s) : Keeps K b0 (State.takeAcked s m) := by
  unfold State.takeAcked
  try dsimp only
  repeat' first
    | with_reducible assumption
    | with_reducible refine Keeps.ofEq (by with_reducible assumption) ?_
    | with_reducible apply Keeps.ite
    | exact fun _ hu => hu
    | dsimp only
    | split
    | with_reducible apply Keeps.set_loose
    | with_reducible apply Keeps.set_cmx
    | with_reducible apply Keeps.set_all
    | with_reducible exact Or.inl rfl
    | (with_reducible refine Or.inr (List.Subset.trans ?_ hp); decide)

theorem State.takeSide_keeps {b0 s : State} (m : Nat) (hp : [.brg, .cmx] ⊆ K) (hK : Keeps K b0 s) : Keeps K b0 (State.takeSide s m) := by
  unfold State.takeSide
  try dsimp only
  repeat' first
    | with_reducible assumption
    | with_reducible apply State.opReport_keeps
    | with_reducible refine Keeps.ofEq (by with_reducible assumption) ?_
    | with_reducible apply Keeps.ite
    | (with_reducible refine Keeps.foldl ?_ (fun _ _ _ => ?_) <;> try dsimp only)
    | exact fun _ hu => hu
    | dsimp only
    | split
    | with_reducible apply Keeps.set_brg
    | with_reducible apply Keeps.set_cmx
    | with_reducible apply Keeps.set_all
    | with_reducible exact Or.inl rfl
    | (with_reducible refine Or.inr (List.Subset.trans ?_ hp); decide)

theorem State.respond_keeps {b0 s : State} (o : CmxOut) (a : Nat × Resp) (hp : [.outs, .cmx, .test] ⊆ K) (hK : Keeps K b0 s) : Keeps K b0 (State.respond s o a) := by
  unfold State.respond
  try dsimp only
  repeat' first
    | with_reducible assumption
    | (with_reducible refine List.Subset.trans ?_ hp; decide)
    | with_reducible apply State.present!_keeps
    | with_reducible apply State.endLocks_keeps
    | with_reducible refine Keeps.ofEq (by with_reducible assumption) ?_
    | with_reducible apply Keeps.ite
    | dsimp only
    | split
    | with_reducible apply Keeps.set_test

theorem State.respondAll_keeps {b0 s : State} (m : Nat) (y0 : List CmxOut) (hp : [.agenda, .outs, .cmx, .test] ⊆ K) (hK : Keeps K b0 s) : Keeps K b0 (State.respondAll s m y0) := by
  induction y0 generalizing s with
  | nil =>
    unfold State.respondAll
    try dsimp only
    repeat' first
      | with_reducible assumption
  | cons x xs ih =>
    unfold State.respondAll
    try dsimp only
    repeat' first
      | with_reducible assumption
      | (with_reducible refine List.Subset.trans ?_ hp; decide)
      | with_reducible apply State.once_keeps
      | with_reducible apply State.respond_keeps
      | with_reducible refine Keeps.ofEq (by with_reducible assumption) ?_
      | with_reducible apply ih
      | with_reducible apply Keeps.ite
      | dsimp only
      | split
      | with_reducible apply Keeps.set_cmx

theorem execCmxResponse_keeps {b0 s : State} (m : Master) (hp : [.agenda, .regs, .outs, .loose, .brg, .mgt, .cmx, .test] ⊆ K) (hK : Keeps K b0 s) : KeepsO K b0 (execCmxResponse m s) := by
  unfold execCmxResponse
  try dsimp only
  repeat' first
    | with_reducible assumption
    | (with_reducible refine List.Subset.trans ?_ hp; decide)
    | with_reducible apply KeepsO.next
    | with_reducible apply State.haltCore_keeps
    | with_reducible apply State.once_keeps
    | with_reducible apply State.takeAcked_keeps
    | with_reducible apply State.takeSide_keeps
    | with_reducible apply State.respondAll_keeps
    | with_reducible refine Keeps.ofEq (by with_reducible assumption) ?_
    | with_reducible apply Keeps.ite
    | (with_reducible refine Keeps.foldl ?_ (fun _ _ _ => ?_) <;> try dsimp only)

theorem State.lostEnd_keeps {b0 s : State} (o : CmxOut) (hp : [.agenda, .tx, .cmx] ⊆ K) (hK : Keeps K b0 s) : Keeps K b0 (State.lostEnd s o) := by
  unfold State.lostEnd
  try dsimp only
  repeat' first
    | with_reducible assumption
    | (with_reducible refine List.Subset.trans ?_ hp; decide)
    | with_reducible apply State.later_keeps
    | with_reducible apply State.side_keeps
    | with_reducible apply State.once_keeps
    | with_reducible refine Keeps.ofEq (by with_reducible assumption) ?_
    | with_reducible apply Keeps.ite
    | exact fun _ hu => hu
    | dsimp only
    | split
    | with_reducible apply Keeps.set_cmx

theorem execControlAccessTimeout_keeps {b0 s : State} (m : Master) (hp : [.agenda, .tx, .cmx] ⊆ K) (hK : Keeps K b0 s) : KeepsO K b0 (execControlAccessTimeout m s) := by
  unfold execControlAccessTimeout
  try dsimp only
  repeat' first
    | with_reducible assumption
    | with_reducible apply KeepsO.next
    | with_reducible apply State.lostEnd_keeps
    | with_reducible refine Keeps.ofEq (by with_reducible assumption) ?_
    | with_reducible apply Keeps.ite
    | (with_reducible refine Keeps.foldl ?_ (fun _ _ _ => ?_) <;> try dsimp only)

theorem State.ctlAccess_keeps {b0 s : State} (m : Master) (ca : W32) (write : Bool) (v : W32) (hp : [.agenda, .time, .regs, .freeCtr, .detected, .events, .hiLatch, .loHeld, .outs, .frz, .stp, .set, .loose, .rep, .syn, .fifos, .runners, .pwr, .ctx, .brg, .edg, .leave, .masked, .tx, .mgt, .cmx, .boot, .test, .counted, .hfp] ⊆ K) (hK : Keeps K b0 s) : Keeps K b0 (State.ctlAccess s m ca write v) := by
  unfold State.ctlAccess
  try dsimp only
  repeat' first
    | with_reducible assumption
    | (with_reducible refine List.Subset.trans ?_ hp; decide)
    | with_reducible apply State.decodeMiss_keeps
    | with_reducible apply State.controlServe_keeps
    | with_reducible apply State.presentReq_keeps
    | with_reducible apply State.respond_keeps
    | with_reducible refine Keeps.ofEq (by with_reducible assumption) ?_
    | with_reducible apply Keeps.ite
    | exact fun _ hu => hu
    | dsimp only
    | split
    | with_reducible apply Keeps.set_cmx

theorem execRegisterWrite_keeps {b0 s : State} (m : Master) (ca : W32) (v : W32) (hp : [.agenda, .time, .regs, .freeCtr, .detected, .events, .hiLatch, .loHeld, .outs, .frz, .stp, .set, .loose, .rep, .syn, .fifos, .runners, .pwr, .ctx, .brg, .edg, .leave, .masked, .tx, .mgt, .cmx, .boot, .test, .counted, .hfp] ⊆ K) (hK : Keeps K b0 s) : KeepsO K b0 (execRegisterWrite m ca v s) := by
  unfold execRegisterWrite
  try dsimp only
  repeat' first
    | with_reducible assumption
    | with_reducible apply KeepsO.next
    | with_reducible apply State.ctlAccess_keeps

theorem execRcRead_keeps {b0 s : State} (m : Master) (ca : W32) (hp : [.agenda, .time, .regs, .freeCtr, .detected, .events, .hiLatch, .loHeld, .outs, .frz, .stp, .set, .loose, .rep, .syn, .fifos, .runners, .pwr, .ctx, .brg, .edg, .leave, .masked, .tx, .mgt, .cmx, .boot, .test, .counted, .hfp] ⊆ K) (hK : Keeps K b0 s) : KeepsO K b0 (execRcRead m ca s) := by
  unfold execRcRead
  try dsimp only
  repeat' first
    | with_reducible assumption
    | with_reducible apply KeepsO.next
    | with_reducible apply State.ctlAccess_keeps

theorem execLoReadLatch_keeps {b0 s : State} (m : Master) (ca : W32) (hp : [.agenda, .time, .regs, .freeCtr, .detected, .events, .hiLatch, .loHeld, .outs, .frz, .stp, .set, .loose, .rep, .syn, .fifos, .runners, .pwr, .ctx, .brg, .edg, .leave, .masked, .tx, .mgt, .cmx, .boot, .test, .counted, .hfp] ⊆ K) (hK : Keeps K b0 s) : KeepsO K b0 (execLoReadLatch m ca s) := by
  unfold execLoReadLatch
  try dsimp only
  repeat' first
    | with_reducible assumption
    | with_reducible apply KeepsO.next
    | with_reducible apply State.ctlAccess_keeps

theorem execPairLoWrite_keeps {b0 s : State} (m : Master) (ca : W32) (v : W32) (hp : [.agenda, .time, .regs, .freeCtr, .detected, .events, .hiLatch, .loHeld, .outs, .frz, .stp, .set, .loose, .rep, .syn, .fifos, .runners, .pwr, .ctx, .brg, .edg, .leave, .masked, .tx, .mgt, .cmx, .boot, .test, .counted, .hfp] ⊆ K) (hK : Keeps K b0 s) : KeepsO K b0 (execPairLoWrite m ca v s) := by
  unfold execPairLoWrite
  try dsimp only
  repeat' first
    | with_reducible assumption
    | with_reducible apply KeepsO.next
    | with_reducible apply State.ctlAccess_keeps

theorem execPairHiWrite_keeps {b0 s : State} (m : Master) (ca : W32) (v : W32) (hp : [.agenda, .time, .regs, .freeCtr, .detected, .events, .hiLatch, .loHeld, .outs, .frz, .stp, .set, .loose, .rep, .syn, .fifos, .runners, .pwr, .ctx, .brg, .edg, .leave, .masked, .tx, .mgt, .cmx, .boot, .test, .counted, .hfp] ⊆ K) (hK : Keeps K b0 s) : KeepsO K b0 (execPairHiWrite m ca v s) := by
  unfold execPairHiWrite
  try dsimp only
  repeat' first
    | with_reducible assumption
    | with_reducible apply KeepsO.next
    | with_reducible apply State.ctlAccess_keeps
end Sys2Proof.Machine
end

