-- ==== Sys2Proof/Laws/KeepsTick.lean ====
section
/-! SUPPORT. What the operations and commands of Machine/Tick.lean leave alone: one lemma each, in the terms of `Keeps`. The list each
asks for holds the parts it may change. -/
namespace Sys2Proof.Machine
variable {K : List Part}
theorem State.newFc_keeps {b0 s : State} (hp : [.time, .regs] ⊆ K) (hK : Keeps K b0 s) : Keeps K b0 (State.newFc s) := by
  unfold State.newFc
  try dsimp only
  repeat' first
    | with_reducible assumption
    | (with_reducible refine List.Subset.trans ?_ hp; decide)
    | with_reducible apply State.put_keeps
    | with_reducible apply State.inc_keeps
    | with_reducible refine Keeps.ofEq (by with_reducible assumption) ?_
    | with_reducible apply Keeps.ite
    | (with_reducible refine Keeps.foldl ?_ (fun _ _ _ => ?_) <;> try dsimp only)
    | dsimp only
    | split
    | with_reducible apply Keeps.set_time

theorem State.countWaits_keeps {b0 s : State} (hp : [.regs] ⊆ K) (hK : Keeps K b0 s) : Keeps K b0 (State.countWaits s) := by
  unfold State.countWaits
  try dsimp only
  repeat' first
    | with_reducible assumption
    | with_reducible apply State.inc_keeps
    | with_reducible refine Keeps.ofEq (by with_reducible assumption) ?_
    | with_reducible apply Keeps.ite
    | (with_reducible refine Keeps.foldlP ?_ (fun _ _ _ => ?_) <;> try dsimp only)
    | dsimp only
    | split

theorem State.countFrozen_keeps {b0 s : State} (hp : [.regs, .frz] ⊆ K) (hK : Keeps K b0 s) : Keeps K b0 (State.countFrozen s) := by
  unfold State.countFrozen
  try dsimp only
  repeat' first
    | with_reducible assumption
    | (with_reducible refine List.Subset.trans ?_ hp; decide)
    | with_reducible apply State.setPair_keeps
    | with_reducible refine Keeps.ofEq (by with_reducible assumption) ?_
    | with_reducible apply Keeps.ite
    | dsimp only
    | split
    | with_reducible apply Keeps.set_frz

theorem State.looks_keeps {b0 s : State} (hp : [.agenda] ⊆ K) (hK : Keeps K b0 s) : Keeps K b0 (State.looks s) := by
  unfold State.looks
  try dsimp only
  repeat' first
    | with_reducible assumption
    | with_reducible apply State.later_keeps
    | with_reducible refine Keeps.ofEq (by with_reducible assumption) ?_
    | with_reducible apply Keeps.ite
    | (with_reducible refine Keeps.foldl ?_ (fun _ _ _ => ?_) <;> try dsimp only)

theorem State.dripsDue_keeps {b0 s : State} (hp : [.agenda, .regs] ⊆ K) (hK : Keeps K b0 s) : Keeps K b0 (State.dripsDue s) := by
  unfold State.dripsDue
  try dsimp only
  repeat' first
    | with_reducible assumption
    | (with_reducible refine List.Subset.trans ?_ hp; decide)
    | with_reducible apply execBucketDrip_keeps
    | with_reducible apply ran_keeps
    | with_reducible refine Keeps.ofEq (by with_reducible assumption) ?_
    | with_reducible apply Keeps.ite
    | (with_reducible refine Keeps.foldl ?_ (fun _ _ _ => ?_) <;> try dsimp only)
    | dsimp only
    | split
    | with_reducible apply Keeps.set_agenda

theorem State.countCut_keeps {b0 s : State} (hp : [.regs, .loose, .counted] ⊆ K) (hK : Keeps K b0 s) : Keeps K b0 (State.countCut s) := by
  unfold State.countCut
  try dsimp only
  repeat' first
    | with_reducible assumption
    | (with_reducible refine List.Subset.trans ?_ hp; decide)
    | with_reducible apply State.incOn_keeps
    | with_reducible refine Keeps.ofEq (by with_reducible assumption) ?_
    | with_reducible apply Keeps.ite
    | (with_reducible refine Keeps.foldl ?_ (fun _ _ _ => ?_) <;> try dsimp only)
    | dsimp only
    | split
    | with_reducible apply Keeps.set_loose

theorem State.partUp_keeps {b0 s : State} (hp : [.time] ⊆ K) (hK : Keeps K b0 s) : Keeps K b0 (State.partUp s) := by
  unfold State.partUp
  try dsimp only
  repeat' first
    | with_reducible assumption
    | with_reducible refine Keeps.ofEq (by with_reducible assumption) ?_
    | with_reducible apply Keeps.ite
    | dsimp only
    | split
    | with_reducible apply Keeps.set_time

theorem State.endFc_keeps {b0 s : State} (hp : [.agenda, .time, .regs, .mem, .valid, .freeCtr, .detected, .outs, .frz, .set, .loose, .rep, .syn, .pwr, .brg, .tx, .counted] ⊆ K) (hK : Keeps K b0 s) : Keeps K b0 (State.endFc s) := by
  unfold State.endFc
  try dsimp only
  repeat' first
    | with_reducible assumption
    | (with_reducible refine List.Subset.trans ?_ hp; decide)
    | with_reducible apply State.arm_keeps
    | with_reducible apply State.commitSet_keeps
    | with_reducible apply State.enterAll_keeps
    | with_reducible apply State.holdPops_keeps
    | with_reducible apply State.sendSlots_keeps
    | with_reducible apply State.countWaits_keeps
    | with_reducible apply State.countFrozen_keeps
    | with_reducible apply State.looks_keeps
    | with_reducible apply State.dripsDue_keeps
    | with_reducible apply State.countCut_keeps
    | with_reducible apply State.partUp_keeps
    | with_reducible refine Keeps.ofEq (by with_reducible assumption) ?_
    | with_reducible apply Keeps.ite
    | dsimp only
    | split
    | with_reducible apply Keeps.set_time

theorem State.pass_keeps {b0 s : State} (n : Nat) (hp : [.time] ⊆ K) (hK : Keeps K b0 s) : Keeps K b0 (State.pass s n) := by
  unfold State.pass
  try dsimp only
  repeat' first
    | with_reducible assumption
    | with_reducible refine Keeps.ofEq (by with_reducible assumption) ?_
    | with_reducible apply Keeps.ite
    | dsimp only
    | split
    | with_reducible apply Keeps.set_time

theorem State.tick_keeps {b0 s : State} (hp : [.agenda, .time, .regs, .mem, .valid, .freeCtr, .detected, .outs, .frz, .set, .loose, .rep, .syn, .pwr, .brg, .tx, .counted] ⊆ K) (hK : Keeps K b0 s) : Keeps K b0 (State.tick s) := by
  unfold State.tick
  try dsimp only
  repeat' first
    | with_reducible assumption
    | (with_reducible refine List.Subset.trans ?_ hp; decide)
    | with_reducible apply State.newFc_keeps
    | with_reducible apply State.endFc_keeps
    | with_reducible apply State.pass_keeps
    | with_reducible refine Keeps.ofEq (by with_reducible assumption) ?_
    | with_reducible apply Keeps.ite
    | dsimp only
    | split
    | with_reducible apply Keeps.set_time

/-- With no command waiting a step keeps the ties and the canonical form; the effects that fall due become the queue. -/
theorem State.idle_rest (s : State) : s.idle.ties = s.ties ∧ (s.canonical → s.idle.canonical) := by
  unfold State.idle
  dsimp only
  split
  · have h := State.tick_keeps (K := allParts) (fun p _ => by cases p <;> decide) (Keeps.refl s)
    exact ⟨h.ties, fun c => ⟨h.mem c.1, h.regs c.2⟩⟩
  · exact ⟨rfl, fun c => c⟩
end Sys2Proof.Machine
end

