-- ==== Sys2Proof/Laws/State.lean ====
section
/-! SUPPORT. Laws of the shared operations on the state: what a register, a field and a cell read as after a write, and for each
operation that changes one part, that every other part is what it was. -/
namespace Sys2Proof.Machine

/-! Fields of a word -/

/-- The three pieces of a word at a field. -/
theorem Fld.split_word {lo w V : Nat} : V = V / 2 ^ (lo + w) * 2 ^ (lo + w) + V / 2 ^ lo % 2 ^ w * 2 ^ lo + V % 2 ^ lo := by
  have h1 : V / 2 ^ lo / 2 ^ w = V / 2 ^ (lo + w) := by rw [Nat.div_div_eq_div_mul, ← Nat.pow_add]
  have h2 := Nat.div_add_mod V (2 ^ lo)
  have h3 := Nat.div_add_mod (V / 2 ^ lo) (2 ^ w)
  rw [h1] at h3
  generalize V / 2 ^ (lo + w) = q at *
  generalize hr : V / 2 ^ lo % 2 ^ w = r at *
  rw [← h3, Nat.mul_add] at h2
  rw [Nat.pow_add]
  generalize 2 ^ lo = x at *
  generalize 2 ^ w = y at *
  generalize V % x = z at *
  rw [← h2]
  ring

/-- The number a field is written into. -/
theorem Fld.into_toNat (f : Fld) (v : W32) (n : Nat) (h : f.lo ≤ f.hi) (h32 : f.hi < 32) :
    (f.into v n).toNat = v.toNat / 2 ^ (f.lo + f.width) * 2 ^ (f.lo + f.width) + n % 2 ^ f.width * 2 ^ f.lo + v.toNat % 2 ^ f.lo := by
  have hw : f.lo + f.width = f.hi + 1 := by unfold Fld.width; omega
  have hs := Fld.split_word (lo := f.lo) (w := f.width) (V := v.toNat)
  have hn : n % 2 ^ f.width < 2 ^ f.width := Nat.mod_lt _ (Nat.two_pow_pos _)
  have hl : v.toNat % 2 ^ f.lo < 2 ^ f.lo := Nat.mod_lt _ (Nat.two_pow_pos _)
  have hv := v.isLt
  have hp : 2 ^ (f.lo + f.width) * 2 ^ (31 - f.hi) = 2 ^ 32 := by rw [hw, ← Nat.pow_add]; congr 1; omega
  have hq : v.toNat / 2 ^ (f.lo + f.width) < 2 ^ (31 - f.hi) := by
    rw [Nat.div_lt_iff_lt_mul (Nat.two_pow_pos _), Nat.mul_comm, hp]; exact hv
  have hlt : v.toNat / 2 ^ (f.lo + f.width) * 2 ^ (f.lo + f.width) + n % 2 ^ f.width * 2 ^ f.lo + v.toNat % 2 ^ f.lo < 2 ^ 32 := by
    rw [← hp]
    have a1 : n % 2 ^ f.width * 2 ^ f.lo + 2 ^ f.lo ≤ 2 ^ (f.lo + f.width) := by
      have := Nat.mul_le_mul_right (2 ^ f.lo) hn
      rw [Nat.pow_add, Nat.mul_comm (2 ^ f.lo)]
      linarith
    have a2 := Nat.mul_le_mul_right (2 ^ (f.lo + f.width)) hq
    rw [Nat.succ_mul, Nat.mul_comm (2 ^ (31 - f.hi))] at a2
    linarith
  unfold Fld.into
  rw [BitVec.toNat_ofNat]
  have e : v.toNat - f.of v * 2 ^ f.lo + n % 2 ^ f.width * 2 ^ f.lo = v.toNat / 2 ^ (f.lo + f.width) * 2 ^ (f.lo + f.width) + n % 2 ^ f.width * 2 ^ f.lo + v.toNat % 2 ^ f.lo := by
    unfold Fld.of
    generalize v.toNat / 2 ^ f.lo % 2 ^ f.width * 2 ^ f.lo = b at *
    omega
  rw [e, Nat.mod_eq_of_lt hlt]

/-- A field reads as what was written, cut to its width. -/
theorem Fld.of_into (f : Fld) (v : W32) (n : Nat) (h : f.lo ≤ f.hi) (h32 : f.hi < 32) : f.of (f.into v n) = n % 2 ^ f.width := by
  have hl : v.toNat % 2 ^ f.lo < 2 ^ f.lo := Nat.mod_lt _ (Nat.two_pow_pos _)
  have hn : n % 2 ^ f.width < 2 ^ f.width := Nat.mod_lt _ (Nat.two_pow_pos _)
  unfold Fld.of
  rw [Fld.into_toNat f v n h h32, Nat.pow_add]
  generalize v.toNat / (2 ^ f.lo * 2 ^ f.width) = q
  have e : q * (2 ^ f.lo * 2 ^ f.width) + n % 2 ^ f.width * 2 ^ f.lo + v.toNat % 2 ^ f.lo = v.toNat % 2 ^ f.lo + 2 ^ f.lo * (n % 2 ^ f.width + 2 ^ f.width * q) := by ring
  rw [e, Nat.add_mul_div_left _ _ (Nat.two_pow_pos _), Nat.div_eq_of_lt hl, Nat.zero_add, Nat.add_mul_mod_self_left, Nat.mod_mod]

/-- A field apart from the one written reads as before. -/
theorem Fld.of_into_other (f g : Fld) (v : W32) (n : Nat) (h : f.lo ≤ f.hi) (h32 : f.hi < 32) (hg : g.lo ≤ g.hi) (ha : f.hi < g.lo ∨ g.hi < f.lo) :
    g.of (f.into v n) = g.of v := by
  have hl : v.toNat % 2 ^ f.lo < 2 ^ f.lo := Nat.mod_lt _ (Nat.two_pow_pos _)
  have hn : n % 2 ^ f.width < 2 ^ f.width := Nat.mod_lt _ (Nat.two_pow_pos _)
  have hs := Fld.split_word (lo := f.lo) (w := f.width) (V := v.toNat)
  have ho : v.toNat / 2 ^ f.lo % 2 ^ f.width < 2 ^ f.width := Nat.mod_lt _ (Nat.two_pow_pos _)
  unfold Fld.of
  rw [Fld.into_toNat f v n h h32]
  generalize v.toNat / 2 ^ f.lo % 2 ^ f.width = o at *
  generalize v.toNat / 2 ^ (f.lo + f.width) = q at *
  generalize v.toNat % 2 ^ f.lo = l at *
  generalize n % 2 ^ f.width = m at *
  rw [hs]
  cases ha with
  | inl ha =>
    obtain ⟨k, hk⟩ : ∃ k, g.lo = f.lo + f.width + k := ⟨g.lo - (f.lo + f.width), by unfold Fld.width; omega⟩
    have key (x : Nat) (hx : x < 2 ^ f.width) : (q * 2 ^ (f.lo + f.width) + x * 2 ^ f.lo + l) / 2 ^ g.lo = q / 2 ^ k := by
      have hlt : x * 2 ^ f.lo + l < 2 ^ (f.lo + f.width) := by
        have := Nat.mul_le_mul_right (2 ^ f.lo) hx
        rw [Nat.pow_add, Nat.mul_comm (2 ^ f.lo)]
        linarith
      rw [hk, Nat.pow_add _ _ k, ← Nat.div_div_eq_div_mul, Nat.add_assoc, Nat.mul_comm q, Nat.mul_add_div (Nat.two_pow_pos _), Nat.div_eq_of_lt hlt, Nat.add_zero]
    rw [key m hn, key o ho]
  | inr ha =>
    obtain ⟨k, hk⟩ : ∃ k, f.lo = g.lo + g.width + k := ⟨f.lo - (g.lo + g.width), by unfold Fld.width; omega⟩
    have key (x : Nat) : (q * 2 ^ (f.lo + f.width) + x * 2 ^ f.lo + l) / 2 ^ g.lo % 2 ^ g.width = l / 2 ^ g.lo % 2 ^ g.width := by
      have e : q * 2 ^ (f.lo + f.width) + x * 2 ^ f.lo + l = l + 2 ^ g.lo * (2 ^ g.width * (2 ^ k * (q * 2 ^ f.width + x))) := by
        rw [Nat.pow_add, hk, Nat.pow_add, Nat.pow_add]; ring
      rw [e, Nat.add_mul_div_left _ _ (Nat.two_pow_pos _), Nat.add_mul_mod_self_left]
    rw [key m, key o]

/-! Registers -/

@[simp] theorem State.reg_setReg_same (s : State) (k : Nat) (v : W32) : (s.setReg k v).reg k = v := SMap.get_set_same _ _ _ _

theorem State.reg_setReg_other (s : State) {k j : Nat} (v : W32) (h : j ≠ k) : (s.setReg k v).reg j = s.reg j := by
  unfold State.reg State.setReg
  exact SMap.get_set_other _ _ _ _ h

theorem State.reg_put_other (s : State) (f : Fld) (n : Nat) {j : Nat} (h : j ≠ f.key) : (s.put f n).reg j = s.reg j := State.reg_setReg_other _ _ h

theorem State.reg_put_same (s : State) (f : Fld) (n : Nat) : (s.put f n).reg f.key = f.into (s.reg f.key) n := State.reg_setReg_same _ _ _

/-- A field that was written reads as the number, cut to the field's width. -/
theorem State.f_put_same (s : State) (f : Fld) (n : Nat) (h : f.lo ≤ f.hi) (h32 : f.hi < 32) : (s.put f n).f f = n % 2 ^ f.width := by
  unfold State.f
  rw [State.reg_put_same, Fld.of_into _ _ _ h h32]

/-- A field of another register reads as before. -/
theorem State.f_put_key (s : State) (f g : Fld) (n : Nat) (h : g.key ≠ f.key) : (s.put f n).f g = s.f g := by
  unfold State.f
  rw [State.reg_put_other _ _ _ h]

/-- A field of the same register that shares no bit reads as before. -/
theorem State.f_put_apart (s : State) (f g : Fld) (n : Nat) (h : f.lo ≤ f.hi) (h32 : f.hi < 32) (hg : g.lo ≤ g.hi) (ha : f.hi < g.lo ∨ g.hi < f.lo) :
    (s.put f n).f g = s.f g := by
  by_cases e : g.key = f.key
  · unfold State.f
    rw [e, State.reg_put_same, Fld.of_into_other _ _ _ _ h h32 hg ha]
  · exact State.f_put_key _ _ _ _ e

@[simp] theorem State.puts_nil (s : State) : s.puts [] = s := rfl
@[simp] theorem State.puts_cons (s : State) (p : Fld × Nat) (l : List (Fld × Nat)) : s.puts (p :: l) = (s.put p.1 p.2).puts l := rfl

/-- A register that no written field belongs to reads as before. -/
theorem State.reg_puts_other (s : State) (l : List (Fld × Nat)) {j : Nat} (h : ∀ p ∈ l, j ≠ p.1.key) : (s.puts l).reg j = s.reg j := by
  induction l generalizing s with
  | nil => rfl
  | cons p l ih =>
    rw [State.puts_cons, ih _ (fun q hq => h q (List.mem_cons_of_mem _ hq)), State.reg_put_other _ _ _ (h p List.mem_cons_self)]

/-! Cells -/

@[simp] theorem State.cell_setCell_same (s : State) (a : Nat) (b : Byte) : (s.setCell a b).cell a = b := SMap.get_set_same _ _ _ _

theorem State.cell_setCell_other (s : State) {a c : Nat} (b : Byte) (h : c ≠ a) : (s.setCell a b).cell c = s.cell c := by
  unfold State.cell State.setCell
  exact SMap.get_set_other _ _ _ _ h

/-- A byte outside the bytes written reads as before. -/
theorem State.cell_setCells_other (s : State) (a : Nat) (l : List Byte) {c : Nat} (h : c < a ∨ a + l.length ≤ c) : (s.setCells a l).cell c = s.cell c := by
  induction l generalizing s a with
  | nil => rfl
  | cons b l ih =>
    simp only [State.setCells]
    rw [ih _ (a + 1) (by simp only [List.length_cons] at h; omega), State.cell_setCell_other _ _ (by simp only [List.length_cons] at h; omega)]

/-- Byte `i` of the bytes written reads as written. -/
theorem State.cell_setCells (s : State) (a : Nat) (l : List Byte) (i : Nat) (h : i < l.length) : (s.setCells a l).cell (a + i) = l.getD i 0 := by
  induction l generalizing s a i with
  | nil => exact absurd h (Nat.not_lt_zero _)
  | cons b l ih =>
    simp only [State.setCells]
    cases i with
    | zero => rw [Nat.add_zero, State.cell_setCells_other _ _ _ (by omega)]; simp
    | succ i =>
      have := ih (s.setCell a b) (a + 1) i (by simpa using h)
      rw [← Nat.add_assoc, Nat.add_right_comm, this]; rfl

/-! `setReg` changes `regs` alone. -/

@[simp] theorem State.setReg_pending (s : State) (k : Nat) (v : W32) : (s.setReg k v).pending = s.pending := rfl
@[simp] theorem State.setReg_agenda (s : State) (k : Nat) (v : W32) : (s.setReg k v).agenda = s.agenda := rfl
@[simp] theorem State.setReg_time (s : State) (k : Nat) (v : W32) : (s.setReg k v).time = s.time := rfl
@[simp] theorem State.setReg_ties (s : State) (k : Nat) (v : W32) : (s.setReg k v).ties = s.ties := rfl
@[simp] theorem State.setReg_mem (s : State) (k : Nat) (v : W32) : (s.setReg k v).mem = s.mem := rfl
@[simp] theorem State.setReg_valid (s : State) (k : Nat) (v : W32) : (s.setReg k v).valid = s.valid := rfl
@[simp] theorem State.setReg_freeCtr (s : State) (k : Nat) (v : W32) : (s.setReg k v).freeCtr = s.freeCtr := rfl
@[simp] theorem State.setReg_detected (s : State) (k : Nat) (v : W32) : (s.setReg k v).detected = s.detected := rfl
@[simp] theorem State.setReg_events (s : State) (k : Nat) (v : W32) : (s.setReg k v).events = s.events := rfl
@[simp] theorem State.setReg_hiLatch (s : State) (k : Nat) (v : W32) : (s.setReg k v).hiLatch = s.hiLatch := rfl
@[simp] theorem State.setReg_loHeld (s : State) (k : Nat) (v : W32) : (s.setReg k v).loHeld = s.loHeld := rfl
@[simp] theorem State.setReg_present (s : State) (k : Nat) (v : W32) : (s.setReg k v).present = s.present := rfl
@[simp] theorem State.setReg_presWait (s : State) (k : Nat) (v : W32) : (s.setReg k v).presWait = s.presWait := rfl
@[simp] theorem State.setReg_outs (s : State) (k : Nat) (v : W32) : (s.setReg k v).outs = s.outs := rfl
@[simp] theorem State.setReg_frz (s : State) (k : Nat) (v : W32) : (s.setReg k v).frz = s.frz := rfl
@[simp] theorem State.setReg_stp (s : State) (k : Nat) (v : W32) : (s.setReg k v).stp = s.stp := rfl
@[simp] theorem State.setReg_set (s : State) (k : Nat) (v : W32) : (s.setReg k v).set = s.set := rfl
@[simp] theorem State.setReg_loose (s : State) (k : Nat) (v : W32) : (s.setReg k v).loose = s.loose := rfl
@[simp] theorem State.setReg_rep (s : State) (k : Nat) (v : W32) : (s.setReg k v).rep = s.rep := rfl
@[simp] theorem State.setReg_syn (s : State) (k : Nat) (v : W32) : (s.setReg k v).syn = s.syn := rfl
@[simp] theorem State.setReg_fifos (s : State) (k : Nat) (v : W32) : (s.setReg k v).fifos = s.fifos := rfl
@[simp] theorem State.setReg_runners (s : State) (k : Nat) (v : W32) : (s.setReg k v).runners = s.runners := rfl
@[simp] theorem State.setReg_pwr (s : State) (k : Nat) (v : W32) : (s.setReg k v).pwr = s.pwr := rfl
@[simp] theorem State.setReg_ctx (s : State) (k : Nat) (v : W32) : (s.setReg k v).ctx = s.ctx := rfl
@[simp] theorem State.setReg_brg (s : State) (k : Nat) (v : W32) : (s.setReg k v).brg = s.brg := rfl
@[simp] theorem State.setReg_edg (s : State) (k : Nat) (v : W32) : (s.setReg k v).edg = s.edg := rfl
@[simp] theorem State.setReg_leave (s : State) (k : Nat) (v : W32) : (s.setReg k v).leave = s.leave := rfl
@[simp] theorem State.setReg_masked (s : State) (k : Nat) (v : W32) : (s.setReg k v).masked = s.masked := rfl
@[simp] theorem State.setReg_tx (s : State) (k : Nat) (v : W32) : (s.setReg k v).tx = s.tx := rfl
@[simp] theorem State.setReg_mgt (s : State) (k : Nat) (v : W32) : (s.setReg k v).mgt = s.mgt := rfl
@[simp] theorem State.setReg_cmx (s : State) (k : Nat) (v : W32) : (s.setReg k v).cmx = s.cmx := rfl
@[simp] theorem State.setReg_boot (s : State) (k : Nat) (v : W32) : (s.setReg k v).boot = s.boot := rfl
@[simp] theorem State.setReg_test (s : State) (k : Nat) (v : W32) : (s.setReg k v).test = s.test := rfl
@[simp] theorem State.setReg_counted (s : State) (k : Nat) (v : W32) : (s.setReg k v).counted = s.counted := rfl
@[simp] theorem State.setReg_hfp (s : State) (k : Nat) (v : W32) : (s.setReg k v).hfp = s.hfp := rfl

/-! `put` changes `regs` alone. -/

@[simp] theorem State.put_pending (s : State) (f : Fld) (n : Nat) : (s.put f n).pending = s.pending := rfl
@[simp] theorem State.put_agenda (s : State) (f : Fld) (n : Nat) : (s.put f n).agenda = s.agenda := rfl
@[simp] theorem State.put_time (s : State) (f : Fld) (n : Nat) : (s.put f n).time = s.time := rfl
@[simp] theorem State.put_ties (s : State) (f : Fld) (n : Nat) : (s.put f n).ties = s.ties := rfl
@[simp] theorem State.put_mem (s : State) (f : Fld) (n : Nat) : (s.put f n).mem = s.mem := rfl
@[simp] theorem State.put_valid (s : State) (f : Fld) (n : Nat) : (s.put f n).valid = s.valid := rfl
@[simp] theorem State.put_freeCtr (s : State) (f : Fld) (n : Nat) : (s.put f n).freeCtr = s.freeCtr := rfl
@[simp] theorem State.put_detected (s : State) (f : Fld) (n : Nat) : (s.put f n).detected = s.detected := rfl
@[simp] theorem State.put_events (s : State) (f : Fld) (n : Nat) : (s.put f n).events = s.events := rfl
@[simp] theorem State.put_hiLatch (s : State) (f : Fld) (n : Nat) : (s.put f n).hiLatch = s.hiLatch := rfl
@[simp] theorem State.put_loHeld (s : State) (f : Fld) (n : Nat) : (s.put f n).loHeld = s.loHeld := rfl
@[simp] theorem State.put_present (s : State) (f : Fld) (n : Nat) : (s.put f n).present = s.present := rfl
@[simp] theorem State.put_presWait (s : State) (f : Fld) (n : Nat) : (s.put f n).presWait = s.presWait := rfl
@[simp] theorem State.put_outs (s : State) (f : Fld) (n : Nat) : (s.put f n).outs = s.outs := rfl
@[simp] theorem State.put_frz (s : State) (f : Fld) (n : Nat) : (s.put f n).frz = s.frz := rfl
@[simp] theorem State.put_stp (s : State) (f : Fld) (n : Nat) : (s.put f n).stp = s.stp := rfl
@[simp] theorem State.put_set (s : State) (f : Fld) (n : Nat) : (s.put f n).set = s.set := rfl
@[simp] theorem State.put_loose (s : State) (f : Fld) (n : Nat) : (s.put f n).loose = s.loose := rfl
@[simp] theorem State.put_rep (s : State) (f : Fld) (n : Nat) : (s.put f n).rep = s.rep := rfl
@[simp] theorem State.put_syn (s : State) (f : Fld) (n : Nat) : (s.put f n).syn = s.syn := rfl
@[simp] theorem State.put_fifos (s : State) (f : Fld) (n : Nat) : (s.put f n).fifos = s.fifos := rfl
@[simp] theorem State.put_runners (s : State) (f : Fld) (n : Nat) : (s.put f n).runners = s.runners := rfl
@[simp] theorem State.put_pwr (s : State) (f : Fld) (n : Nat) : (s.put f n).pwr = s.pwr := rfl
@[simp] theorem State.put_ctx (s : State) (f : Fld) (n : Nat) : (s.put f n).ctx = s.ctx := rfl
@[simp] theorem State.put_brg (s : State) (f : Fld) (n : Nat) : (s.put f n).brg = s.brg := rfl
@[simp] theorem State.put_edg (s : State) (f : Fld) (n : Nat) : (s.put f n).edg = s.edg := rfl
@[simp] theorem State.put_leave (s : State) (f : Fld) (n : Nat) : (s.put f n).leave = s.leave := rfl
@[simp] theorem State.put_masked (s : State) (f : Fld) (n : Nat) : (s.put f n).masked = s.masked := rfl
@[simp] theorem State.put_tx (s : State) (f : Fld) (n : Nat) : (s.put f n).tx = s.tx := rfl
@[simp] theorem State.put_mgt (s : State) (f : Fld) (n : Nat) : (s.put f n).mgt = s.mgt := rfl
@[simp] theorem State.put_cmx (s : State) (f : Fld) (n : Nat) : (s.put f n).cmx = s.cmx := rfl
@[simp] theorem State.put_boot (s : State) (f : Fld) (n : Nat) : (s.put f n).boot = s.boot := rfl
@[simp] theorem State.put_test (s : State) (f : Fld) (n : Nat) : (s.put f n).test = s.test := rfl
@[simp] theorem State.put_counted (s : State) (f : Fld) (n : Nat) : (s.put f n).counted = s.counted := rfl
@[simp] theorem State.put_hfp (s : State) (f : Fld) (n : Nat) : (s.put f n).hfp = s.hfp := rfl

/-! `putb` changes `regs` alone. -/

@[simp] theorem State.putb_pending (s : State) (f : Fld) (b : Bool) : (s.putb f b).pending = s.pending := rfl
@[simp] theorem State.putb_agenda (s : State) (f : Fld) (b : Bool) : (s.putb f b).agenda = s.agenda := rfl
@[simp] theorem State.putb_time (s : State) (f : Fld) (b : Bool) : (s.putb f b).time = s.time := rfl
@[simp] theorem State.putb_ties (s : State) (f : Fld) (b : Bool) : (s.putb f b).ties = s.ties := rfl
@[simp] theorem State.putb_mem (s : State) (f : Fld) (b : Bool) : (s.putb f b).mem = s.mem := rfl
@[simp] theorem State.putb_valid (s : State) (f : Fld) (b : Bool) : (s.putb f b).valid = s.valid := rfl
@[simp] theorem State.putb_freeCtr (s : State) (f : Fld) (b : Bool) : (s.putb f b).freeCtr = s.freeCtr := rfl
@[simp] theorem State.putb_detected (s : State) (f : Fld) (b : Bool) : (s.putb f b).detected = s.detected := rfl
@[simp] theorem State.putb_events (s : State) (f : Fld) (b : Bool) : (s.putb f b).events = s.events := rfl
@[simp] theorem State.putb_hiLatch (s : State) (f : Fld) (b : Bool) : (s.putb f b).hiLatch = s.hiLatch := rfl
@[simp] theorem State.putb_loHeld (s : State) (f : Fld) (b : Bool) : (s.putb f b).loHeld = s.loHeld := rfl
@[simp] theorem State.putb_present (s : State) (f : Fld) (b : Bool) : (s.putb f b).present = s.present := rfl
@[simp] theorem State.putb_presWait (s : State) (f : Fld) (b : Bool) : (s.putb f b).presWait = s.presWait := rfl
@[simp] theorem State.putb_outs (s : State) (f : Fld) (b : Bool) : (s.putb f b).outs = s.outs := rfl
@[simp] theorem State.putb_frz (s : State) (f : Fld) (b : Bool) : (s.putb f b).frz = s.frz := rfl
@[simp] theorem State.putb_stp (s : State) (f : Fld) (b : Bool) : (s.putb f b).stp = s.stp := rfl
@[simp] theorem State.putb_set (s : State) (f : Fld) (b : Bool) : (s.putb f b).set = s.set := rfl
@[simp] theorem State.putb_loose (s : State) (f : Fld) (b : Bool) : (s.putb f b).loose = s.loose := rfl
@[simp] theorem State.putb_rep (s : State) (f : Fld) (b : Bool) : (s.putb f b).rep = s.rep := rfl
@[simp] theorem State.putb_syn (s : State) (f : Fld) (b : Bool) : (s.putb f b).syn = s.syn := rfl
@[simp] theorem State.putb_fifos (s : State) (f : Fld) (b : Bool) : (s.putb f b).fifos = s.fifos := rfl
@[simp] theorem State.putb_runners (s : State) (f : Fld) (b : Bool) : (s.putb f b).runners = s.runners := rfl
@[simp] theorem State.putb_pwr (s : State) (f : Fld) (b : Bool) : (s.putb f b).pwr = s.pwr := rfl
@[simp] theorem State.putb_ctx (s : State) (f : Fld) (b : Bool) : (s.putb f b).ctx = s.ctx := rfl
@[simp] theorem State.putb_brg (s : State) (f : Fld) (b : Bool) : (s.putb f b).brg = s.brg := rfl
@[simp] theorem State.putb_edg (s : State) (f : Fld) (b : Bool) : (s.putb f b).edg = s.edg := rfl
@[simp] theorem State.putb_leave (s : State) (f : Fld) (b : Bool) : (s.putb f b).leave = s.leave := rfl
@[simp] theorem State.putb_masked (s : State) (f : Fld) (b : Bool) : (s.putb f b).masked = s.masked := rfl
@[simp] theorem State.putb_tx (s : State) (f : Fld) (b : Bool) : (s.putb f b).tx = s.tx := rfl
@[simp] theorem State.putb_mgt (s : State) (f : Fld) (b : Bool) : (s.putb f b).mgt = s.mgt := rfl
@[simp] theorem State.putb_cmx (s : State) (f : Fld) (b : Bool) : (s.putb f b).cmx = s.cmx := rfl
@[simp] theorem State.putb_boot (s : State) (f : Fld) (b : Bool) : (s.putb f b).boot = s.boot := rfl
@[simp] theorem State.putb_test (s : State) (f : Fld) (b : Bool) : (s.putb f b).test = s.test := rfl
@[simp] theorem State.putb_counted (s : State) (f : Fld) (b : Bool) : (s.putb f b).counted = s.counted := rfl
@[simp] theorem State.putb_hfp (s : State) (f : Fld) (b : Bool) : (s.putb f b).hfp = s.hfp := rfl

/-! `incBy` changes `regs` alone. -/

@[simp] theorem State.incBy_pending (s : State) (f : Fld) (n : Nat) : (s.incBy f n).pending = s.pending := rfl
@[simp] theorem State.incBy_agenda (s : State) (f : Fld) (n : Nat) : (s.incBy f n).agenda = s.agenda := rfl
@[simp] theorem State.incBy_time (s : State) (f : Fld) (n : Nat) : (s.incBy f n).time = s.time := rfl
@[simp] theorem State.incBy_ties (s : State) (f : Fld) (n : Nat) : (s.incBy f n).ties = s.ties := rfl
@[simp] theorem State.incBy_mem (s : State) (f : Fld) (n : Nat) : (s.incBy f n).mem = s.mem := rfl
@[simp] theorem State.incBy_valid (s : State) (f : Fld) (n : Nat) : (s.incBy f n).valid = s.valid := rfl
@[simp] theorem State.incBy_freeCtr (s : State) (f : Fld) (n : Nat) : (s.incBy f n).freeCtr = s.freeCtr := rfl
@[simp] theorem State.incBy_detected (s : State) (f : Fld) (n : Nat) : (s.incBy f n).detected = s.detected := rfl
@[simp] theorem State.incBy_events (s : State) (f : Fld) (n : Nat) : (s.incBy f n).events = s.events := rfl
@[simp] theorem State.incBy_hiLatch (s : State) (f : Fld) (n : Nat) : (s.incBy f n).hiLatch = s.hiLatch := rfl
@[simp] theorem State.incBy_loHeld (s : State) (f : Fld) (n : Nat) : (s.incBy f n).loHeld = s.loHeld := rfl
@[simp] theorem State.incBy_present (s : State) (f : Fld) (n : Nat) : (s.incBy f n).present = s.present := rfl
@[simp] theorem State.incBy_presWait (s : State) (f : Fld) (n : Nat) : (s.incBy f n).presWait = s.presWait := rfl
@[simp] theorem State.incBy_outs (s : State) (f : Fld) (n : Nat) : (s.incBy f n).outs = s.outs := rfl
@[simp] theorem State.incBy_frz (s : State) (f : Fld) (n : Nat) : (s.incBy f n).frz = s.frz := rfl
@[simp] theorem State.incBy_stp (s : State) (f : Fld) (n : Nat) : (s.incBy f n).stp = s.stp := rfl
@[simp] theorem State.incBy_set (s : State) (f : Fld) (n : Nat) : (s.incBy f n).set = s.set := rfl
@[simp] theorem State.incBy_loose (s : State) (f : Fld) (n : Nat) : (s.incBy f n).loose = s.loose := rfl
@[simp] theorem State.incBy_rep (s : State) (f : Fld) (n : Nat) : (s.incBy f n).rep = s.rep := rfl
@[simp] theorem State.incBy_syn (s : State) (f : Fld) (n : Nat) : (s.incBy f n).syn = s.syn := rfl
@[simp] theorem State.incBy_fifos (s : State) (f : Fld) (n : Nat) : (s.incBy f n).fifos = s.fifos := rfl
@[simp] theorem State.incBy_runners (s : State) (f : Fld) (n : Nat) : (s.incBy f n).runners = s.runners := rfl
@[simp] theorem State.incBy_pwr (s : State) (f : Fld) (n : Nat) : (s.incBy f n).pwr = s.pwr := rfl
@[simp] theorem State.incBy_ctx (s : State) (f : Fld) (n : Nat) : (s.incBy f n).ctx = s.ctx := rfl
@[simp] theorem State.incBy_brg (s : State) (f : Fld) (n : Nat) : (s.incBy f n).brg = s.brg := rfl
@[simp] theorem State.incBy_edg (s : State) (f : Fld) (n : Nat) : (s.incBy f n).edg = s.edg := rfl
@[simp] theorem State.incBy_leave (s : State) (f : Fld) (n : Nat) : (s.incBy f n).leave = s.leave := rfl
@[simp] theorem State.incBy_masked (s : State) (f : Fld) (n : Nat) : (s.incBy f n).masked = s.masked := rfl
@[simp] theorem State.incBy_tx (s : State) (f : Fld) (n : Nat) : (s.incBy f n).tx = s.tx := rfl
@[simp] theorem State.incBy_mgt (s : State) (f : Fld) (n : Nat) : (s.incBy f n).mgt = s.mgt := rfl
@[simp] theorem State.incBy_cmx (s : State) (f : Fld) (n : Nat) : (s.incBy f n).cmx = s.cmx := rfl
@[simp] theorem State.incBy_boot (s : State) (f : Fld) (n : Nat) : (s.incBy f n).boot = s.boot := rfl
@[simp] theorem State.incBy_test (s : State) (f : Fld) (n : Nat) : (s.incBy f n).test = s.test := rfl
@[simp] theorem State.incBy_counted (s : State) (f : Fld) (n : Nat) : (s.incBy f n).counted = s.counted := rfl
@[simp] theorem State.incBy_hfp (s : State) (f : Fld) (n : Nat) : (s.incBy f n).hfp = s.hfp := rfl

/-! `inc` changes `regs` alone. -/

@[simp] theorem State.inc_pending (s : State) (f : Fld) : (s.inc f).pending = s.pending := rfl
@[simp] theorem State.inc_agenda (s : State) (f : Fld) : (s.inc f).agenda = s.agenda := rfl
@[simp] theorem State.inc_time (s : State) (f : Fld) : (s.inc f).time = s.time := rfl
@[simp] theorem State.inc_ties (s : State) (f : Fld) : (s.inc f).ties = s.ties := rfl
@[simp] theorem State.inc_mem (s : State) (f : Fld) : (s.inc f).mem = s.mem := rfl
@[simp] theorem State.inc_valid (s : State) (f : Fld) : (s.inc f).valid = s.valid := rfl
@[simp] theorem State.inc_freeCtr (s : State) (f : Fld) : (s.inc f).freeCtr = s.freeCtr := rfl
@[simp] theorem State.inc_detected (s : State) (f : Fld) : (s.inc f).detected = s.detected := rfl
@[simp] theorem State.inc_events (s : State) (f : Fld) : (s.inc f).events = s.events := rfl
@[simp] theorem State.inc_hiLatch (s : State) (f : Fld) : (s.inc f).hiLatch = s.hiLatch := rfl
@[simp] theorem State.inc_loHeld (s : State) (f : Fld) : (s.inc f).loHeld = s.loHeld := rfl
@[simp] theorem State.inc_present (s : State) (f : Fld) : (s.inc f).present = s.present := rfl
@[simp] theorem State.inc_presWait (s : State) (f : Fld) : (s.inc f).presWait = s.presWait := rfl
@[simp] theorem State.inc_outs (s : State) (f : Fld) : (s.inc f).outs = s.outs := rfl
@[simp] theorem State.inc_frz (s : State) (f : Fld) : (s.inc f).frz = s.frz := rfl
@[simp] theorem State.inc_stp (s : State) (f : Fld) : (s.inc f).stp = s.stp := rfl
@[simp] theorem State.inc_set (s : State) (f : Fld) : (s.inc f).set = s.set := rfl
@[simp] theorem State.inc_loose (s : State) (f : Fld) : (s.inc f).loose = s.loose := rfl
@[simp] theorem State.inc_rep (s : State) (f : Fld) : (s.inc f).rep = s.rep := rfl
@[simp] theorem State.inc_syn (s : State) (f : Fld) : (s.inc f).syn = s.syn := rfl
@[simp] theorem State.inc_fifos (s : State) (f : Fld) : (s.inc f).fifos = s.fifos := rfl
@[simp] theorem State.inc_runners (s : State) (f : Fld) : (s.inc f).runners = s.runners := rfl
@[simp] theorem State.inc_pwr (s : State) (f : Fld) : (s.inc f).pwr = s.pwr := rfl
@[simp] theorem State.inc_ctx (s : State) (f : Fld) : (s.inc f).ctx = s.ctx := rfl
@[simp] theorem State.inc_brg (s : State) (f : Fld) : (s.inc f).brg = s.brg := rfl
@[simp] theorem State.inc_edg (s : State) (f : Fld) : (s.inc f).edg = s.edg := rfl
@[simp] theorem State.inc_leave (s : State) (f : Fld) : (s.inc f).leave = s.leave := rfl
@[simp] theorem State.inc_masked (s : State) (f : Fld) : (s.inc f).masked = s.masked := rfl
@[simp] theorem State.inc_tx (s : State) (f : Fld) : (s.inc f).tx = s.tx := rfl
@[simp] theorem State.inc_mgt (s : State) (f : Fld) : (s.inc f).mgt = s.mgt := rfl
@[simp] theorem State.inc_cmx (s : State) (f : Fld) : (s.inc f).cmx = s.cmx := rfl
@[simp] theorem State.inc_boot (s : State) (f : Fld) : (s.inc f).boot = s.boot := rfl
@[simp] theorem State.inc_test (s : State) (f : Fld) : (s.inc f).test = s.test := rfl
@[simp] theorem State.inc_counted (s : State) (f : Fld) : (s.inc f).counted = s.counted := rfl
@[simp] theorem State.inc_hfp (s : State) (f : Fld) : (s.inc f).hfp = s.hfp := rfl

/-! `dec` changes `regs` alone. -/

@[simp] theorem State.dec_pending (s : State) (f : Fld) : (s.dec f).pending = s.pending := rfl
@[simp] theorem State.dec_agenda (s : State) (f : Fld) : (s.dec f).agenda = s.agenda := rfl
@[simp] theorem State.dec_time (s : State) (f : Fld) : (s.dec f).time = s.time := rfl
@[simp] theorem State.dec_ties (s : State) (f : Fld) : (s.dec f).ties = s.ties := rfl
@[simp] theorem State.dec_mem (s : State) (f : Fld) : (s.dec f).mem = s.mem := rfl
@[simp] theorem State.dec_valid (s : State) (f : Fld) : (s.dec f).valid = s.valid := rfl
@[simp] theorem State.dec_freeCtr (s : State) (f : Fld) : (s.dec f).freeCtr = s.freeCtr := rfl
@[simp] theorem State.dec_detected (s : State) (f : Fld) : (s.dec f).detected = s.detected := rfl
@[simp] theorem State.dec_events (s : State) (f : Fld) : (s.dec f).events = s.events := rfl
@[simp] theorem State.dec_hiLatch (s : State) (f : Fld) : (s.dec f).hiLatch = s.hiLatch := rfl
@[simp] theorem State.dec_loHeld (s : State) (f : Fld) : (s.dec f).loHeld = s.loHeld := rfl
@[simp] theorem State.dec_present (s : State) (f : Fld) : (s.dec f).present = s.present := rfl
@[simp] theorem State.dec_presWait (s : State) (f : Fld) : (s.dec f).presWait = s.presWait := rfl
@[simp] theorem State.dec_outs (s : State) (f : Fld) : (s.dec f).outs = s.outs := rfl
@[simp] theorem State.dec_frz (s : State) (f : Fld) : (s.dec f).frz = s.frz := rfl
@[simp] theorem State.dec_stp (s : State) (f : Fld) : (s.dec f).stp = s.stp := rfl
@[simp] theorem State.dec_set (s : State) (f : Fld) : (s.dec f).set = s.set := rfl
@[simp] theorem State.dec_loose (s : State) (f : Fld) : (s.dec f).loose = s.loose := rfl
@[simp] theorem State.dec_rep (s : State) (f : Fld) : (s.dec f).rep = s.rep := rfl
@[simp] theorem State.dec_syn (s : State) (f : Fld) : (s.dec f).syn = s.syn := rfl
@[simp] theorem State.dec_fifos (s : State) (f : Fld) : (s.dec f).fifos = s.fifos := rfl
@[simp] theorem State.dec_runners (s : State) (f : Fld) : (s.dec f).runners = s.runners := rfl
@[simp] theorem State.dec_pwr (s : State) (f : Fld) : (s.dec f).pwr = s.pwr := rfl
@[simp] theorem State.dec_ctx (s : State) (f : Fld) : (s.dec f).ctx = s.ctx := rfl
@[simp] theorem State.dec_brg (s : State) (f : Fld) : (s.dec f).brg = s.brg := rfl
@[simp] theorem State.dec_edg (s : State) (f : Fld) : (s.dec f).edg = s.edg := rfl
@[simp] theorem State.dec_leave (s : State) (f : Fld) : (s.dec f).leave = s.leave := rfl
@[simp] theorem State.dec_masked (s : State) (f : Fld) : (s.dec f).masked = s.masked := rfl
@[simp] theorem State.dec_tx (s : State) (f : Fld) : (s.dec f).tx = s.tx := rfl
@[simp] theorem State.dec_mgt (s : State) (f : Fld) : (s.dec f).mgt = s.mgt := rfl
@[simp] theorem State.dec_cmx (s : State) (f : Fld) : (s.dec f).cmx = s.cmx := rfl
@[simp] theorem State.dec_boot (s : State) (f : Fld) : (s.dec f).boot = s.boot := rfl
@[simp] theorem State.dec_test (s : State) (f : Fld) : (s.dec f).test = s.test := rfl
@[simp] theorem State.dec_counted (s : State) (f : Fld) : (s.dec f).counted = s.counted := rfl
@[simp] theorem State.dec_hfp (s : State) (f : Fld) : (s.dec f).hfp = s.hfp := rfl

/-! `at'` changes `agenda` alone. -/

@[simp] theorem State.at'_pending (s : State) (c : Clock) (n : Nat) (i : Instr) : (s.at' c n i).pending = s.pending := rfl
@[simp] theorem State.at'_time (s : State) (c : Clock) (n : Nat) (i : Instr) : (s.at' c n i).time = s.time := rfl
@[simp] theorem State.at'_ties (s : State) (c : Clock) (n : Nat) (i : Instr) : (s.at' c n i).ties = s.ties := rfl
@[simp] theorem State.at'_regs (s : State) (c : Clock) (n : Nat) (i : Instr) : (s.at' c n i).regs = s.regs := rfl
@[simp] theorem State.at'_mem (s : State) (c : Clock) (n : Nat) (i : Instr) : (s.at' c n i).mem = s.mem := rfl
@[simp] theorem State.at'_valid (s : State) (c : Clock) (n : Nat) (i : Instr) : (s.at' c n i).valid = s.valid := rfl
@[simp] theorem State.at'_freeCtr (s : State) (c : Clock) (n : Nat) (i : Instr) : (s.at' c n i).freeCtr = s.freeCtr := rfl
@[simp] theorem State.at'_detected (s : State) (c : Clock) (n : Nat) (i : Instr) : (s.at' c n i).detected = s.detected := rfl
@[simp] theorem State.at'_events (s : State) (c : Clock) (n : Nat) (i : Instr) : (s.at' c n i).events = s.events := rfl
@[simp] theorem State.at'_hiLatch (s : State) (c : Clock) (n : Nat) (i : Instr) : (s.at' c n i).hiLatch = s.hiLatch := rfl
@[simp] theorem State.at'_loHeld (s : State) (c : Clock) (n : Nat) (i : Instr) : (s.at' c n i).loHeld = s.loHeld := rfl
@[simp] theorem State.at'_present (s : State) (c : Clock) (n : Nat) (i : Instr) : (s.at' c n i).present = s.present := rfl
@[simp] theorem State.at'_presWait (s : State) (c : Clock) (n : Nat) (i : Instr) : (s.at' c n i).presWait = s.presWait := rfl
@[simp] theorem State.at'_outs (s : State) (c : Clock) (n : Nat) (i : Instr) : (s.at' c n i).outs = s.outs := rfl
@[simp] theorem State.at'_frz (s : State) (c : Clock) (n : Nat) (i : Instr) : (s.at' c n i).frz = s.frz := rfl
@[simp] theorem State.at'_stp (s : State) (c : Clock) (n : Nat) (i : Instr) : (s.at' c n i).stp = s.stp := rfl
@[simp] theorem State.at'_set (s : State) (c : Clock) (n : Nat) (i : Instr) : (s.at' c n i).set = s.set := rfl
@[simp] theorem State.at'_loose (s : State) (c : Clock) (n : Nat) (i : Instr) : (s.at' c n i).loose = s.loose := rfl
@[simp] theorem State.at'_rep (s : State) (c : Clock) (n : Nat) (i : Instr) : (s.at' c n i).rep = s.rep := rfl
@[simp] theorem State.at'_syn (s : State) (c : Clock) (n : Nat) (i : Instr) : (s.at' c n i).syn = s.syn := rfl
@[simp] theorem State.at'_fifos (s : State) (c : Clock) (n : Nat) (i : Instr) : (s.at' c n i).fifos = s.fifos := rfl
@[simp] theorem State.at'_runners (s : State) (c : Clock) (n : Nat) (i : Instr) : (s.at' c n i).runners = s.runners := rfl
@[simp] theorem State.at'_pwr (s : State) (c : Clock) (n : Nat) (i : Instr) : (s.at' c n i).pwr = s.pwr := rfl
@[simp] theorem State.at'_ctx (s : State) (c : Clock) (n : Nat) (i : Instr) : (s.at' c n i).ctx = s.ctx := rfl
@[simp] theorem State.at'_brg (s : State) (c : Clock) (n : Nat) (i : Instr) : (s.at' c n i).brg = s.brg := rfl
@[simp] theorem State.at'_edg (s : State) (c : Clock) (n : Nat) (i : Instr) : (s.at' c n i).edg = s.edg := rfl
@[simp] theorem State.at'_leave (s : State) (c : Clock) (n : Nat) (i : Instr) : (s.at' c n i).leave = s.leave := rfl
@[simp] theorem State.at'_masked (s : State) (c : Clock) (n : Nat) (i : Instr) : (s.at' c n i).masked = s.masked := rfl
@[simp] theorem State.at'_tx (s : State) (c : Clock) (n : Nat) (i : Instr) : (s.at' c n i).tx = s.tx := rfl
@[simp] theorem State.at'_mgt (s : State) (c : Clock) (n : Nat) (i : Instr) : (s.at' c n i).mgt = s.mgt := rfl
@[simp] theorem State.at'_cmx (s : State) (c : Clock) (n : Nat) (i : Instr) : (s.at' c n i).cmx = s.cmx := rfl
@[simp] theorem State.at'_boot (s : State) (c : Clock) (n : Nat) (i : Instr) : (s.at' c n i).boot = s.boot := rfl
@[simp] theorem State.at'_test (s : State) (c : Clock) (n : Nat) (i : Instr) : (s.at' c n i).test = s.test := rfl
@[simp] theorem State.at'_counted (s : State) (c : Clock) (n : Nat) (i : Instr) : (s.at' c n i).counted = s.counted := rfl
@[simp] theorem State.at'_hfp (s : State) (c : Clock) (n : Nat) (i : Instr) : (s.at' c n i).hfp = s.hfp := rfl

/-! `later` changes `agenda` alone. -/

@[simp] theorem State.later_pending (s : State) (c : Clock) (n : Nat) (i : Instr) : (s.later c n i).pending = s.pending := rfl
@[simp] theorem State.later_time (s : State) (c : Clock) (n : Nat) (i : Instr) : (s.later c n i).time = s.time := rfl
@[simp] theorem State.later_ties (s : State) (c : Clock) (n : Nat) (i : Instr) : (s.later c n i).ties = s.ties := rfl
@[simp] theorem State.later_regs (s : State) (c : Clock) (n : Nat) (i : Instr) : (s.later c n i).regs = s.regs := rfl
@[simp] theorem State.later_mem (s : State) (c : Clock) (n : Nat) (i : Instr) : (s.later c n i).mem = s.mem := rfl
@[simp] theorem State.later_valid (s : State) (c : Clock) (n : Nat) (i : Instr) : (s.later c n i).valid = s.valid := rfl
@[simp] theorem State.later_freeCtr (s : State) (c : Clock) (n : Nat) (i : Instr) : (s.later c n i).freeCtr = s.freeCtr := rfl
@[simp] theorem State.later_detected (s : State) (c : Clock) (n : Nat) (i : Instr) : (s.later c n i).detected = s.detected := rfl
@[simp] theorem State.later_events (s : State) (c : Clock) (n : Nat) (i : Instr) : (s.later c n i).events = s.events := rfl
@[simp] theorem State.later_hiLatch (s : State) (c : Clock) (n : Nat) (i : Instr) : (s.later c n i).hiLatch = s.hiLatch := rfl
@[simp] theorem State.later_loHeld (s : State) (c : Clock) (n : Nat) (i : Instr) : (s.later c n i).loHeld = s.loHeld := rfl
@[simp] theorem State.later_present (s : State) (c : Clock) (n : Nat) (i : Instr) : (s.later c n i).present = s.present := rfl
@[simp] theorem State.later_presWait (s : State) (c : Clock) (n : Nat) (i : Instr) : (s.later c n i).presWait = s.presWait := rfl
@[simp] theorem State.later_outs (s : State) (c : Clock) (n : Nat) (i : Instr) : (s.later c n i).outs = s.outs := rfl
@[simp] theorem State.later_frz (s : State) (c : Clock) (n : Nat) (i : Instr) : (s.later c n i).frz = s.frz := rfl
@[simp] theorem State.later_stp (s : State) (c : Clock) (n : Nat) (i : Instr) : (s.later c n i).stp = s.stp := rfl
@[simp] theorem State.later_set (s : State) (c : Clock) (n : Nat) (i : Instr) : (s.later c n i).set = s.set := rfl
@[simp] theorem State.later_loose (s : State) (c : Clock) (n : Nat) (i : Instr) : (s.later c n i).loose = s.loose := rfl
@[simp] theorem State.later_rep (s : State) (c : Clock) (n : Nat) (i : Instr) : (s.later c n i).rep = s.rep := rfl
@[simp] theorem State.later_syn (s : State) (c : Clock) (n : Nat) (i : Instr) : (s.later c n i).syn = s.syn := rfl
@[simp] theorem State.later_fifos (s : State) (c : Clock) (n : Nat) (i : Instr) : (s.later c n i).fifos = s.fifos := rfl
@[simp] theorem State.later_runners (s : State) (c : Clock) (n : Nat) (i : Instr) : (s.later c n i).runners = s.runners := rfl
@[simp] theorem State.later_pwr (s : State) (c : Clock) (n : Nat) (i : Instr) : (s.later c n i).pwr = s.pwr := rfl
@[simp] theorem State.later_ctx (s : State) (c : Clock) (n : Nat) (i : Instr) : (s.later c n i).ctx = s.ctx := rfl
@[simp] theorem State.later_brg (s : State) (c : Clock) (n : Nat) (i : Instr) : (s.later c n i).brg = s.brg := rfl
@[simp] theorem State.later_edg (s : State) (c : Clock) (n : Nat) (i : Instr) : (s.later c n i).edg = s.edg := rfl
@[simp] theorem State.later_leave (s : State) (c : Clock) (n : Nat) (i : Instr) : (s.later c n i).leave = s.leave := rfl
@[simp] theorem State.later_masked (s : State) (c : Clock) (n : Nat) (i : Instr) : (s.later c n i).masked = s.masked := rfl
@[simp] theorem State.later_tx (s : State) (c : Clock) (n : Nat) (i : Instr) : (s.later c n i).tx = s.tx := rfl
@[simp] theorem State.later_mgt (s : State) (c : Clock) (n : Nat) (i : Instr) : (s.later c n i).mgt = s.mgt := rfl
@[simp] theorem State.later_cmx (s : State) (c : Clock) (n : Nat) (i : Instr) : (s.later c n i).cmx = s.cmx := rfl
@[simp] theorem State.later_boot (s : State) (c : Clock) (n : Nat) (i : Instr) : (s.later c n i).boot = s.boot := rfl
@[simp] theorem State.later_test (s : State) (c : Clock) (n : Nat) (i : Instr) : (s.later c n i).test = s.test := rfl
@[simp] theorem State.later_counted (s : State) (c : Clock) (n : Nat) (i : Instr) : (s.later c n i).counted = s.counted := rfl
@[simp] theorem State.later_hfp (s : State) (c : Clock) (n : Nat) (i : Instr) : (s.later c n i).hfp = s.hfp := rfl

/-! `disarm` changes `agenda` alone. -/

@[simp] theorem State.disarm_pending (s : State) (i : Instr) : (s.disarm i).pending = s.pending := rfl
@[simp] theorem State.disarm_time (s : State) (i : Instr) : (s.disarm i).time = s.time := rfl
@[simp] theorem State.disarm_ties (s : State) (i : Instr) : (s.disarm i).ties = s.ties := rfl
@[simp] theorem State.disarm_regs (s : State) (i : Instr) : (s.disarm i).regs = s.regs := rfl
@[simp] theorem State.disarm_mem (s : State) (i : Instr) : (s.disarm i).mem = s.mem := rfl
@[simp] theorem State.disarm_valid (s : State) (i : Instr) : (s.disarm i).valid = s.valid := rfl
@[simp] theorem State.disarm_freeCtr (s : State) (i : Instr) : (s.disarm i).freeCtr = s.freeCtr := rfl
@[simp] theorem State.disarm_detected (s : State) (i : Instr) : (s.disarm i).detected = s.detected := rfl
@[simp] theorem State.disarm_events (s : State) (i : Instr) : (s.disarm i).events = s.events := rfl
@[simp] theorem State.disarm_hiLatch (s : State) (i : Instr) : (s.disarm i).hiLatch = s.hiLatch := rfl
@[simp] theorem State.disarm_loHeld (s : State) (i : Instr) : (s.disarm i).loHeld = s.loHeld := rfl
@[simp] theorem State.disarm_present (s : State) (i : Instr) : (s.disarm i).present = s.present := rfl
@[simp] theorem State.disarm_presWait (s : State) (i : Instr) : (s.disarm i).presWait = s.presWait := rfl
@[simp] theorem State.disarm_outs (s : State) (i : Instr) : (s.disarm i).outs = s.outs := rfl
@[simp] theorem State.disarm_frz (s : State) (i : Instr) : (s.disarm i).frz = s.frz := rfl
@[simp] theorem State.disarm_stp (s : State) (i : Instr) : (s.disarm i).stp = s.stp := rfl
@[simp] theorem State.disarm_set (s : State) (i : Instr) : (s.disarm i).set = s.set := rfl
@[simp] theorem State.disarm_loose (s : State) (i : Instr) : (s.disarm i).loose = s.loose := rfl
@[simp] theorem State.disarm_rep (s : State) (i : Instr) : (s.disarm i).rep = s.rep := rfl
@[simp] theorem State.disarm_syn (s : State) (i : Instr) : (s.disarm i).syn = s.syn := rfl
@[simp] theorem State.disarm_fifos (s : State) (i : Instr) : (s.disarm i).fifos = s.fifos := rfl
@[simp] theorem State.disarm_runners (s : State) (i : Instr) : (s.disarm i).runners = s.runners := rfl
@[simp] theorem State.disarm_pwr (s : State) (i : Instr) : (s.disarm i).pwr = s.pwr := rfl
@[simp] theorem State.disarm_ctx (s : State) (i : Instr) : (s.disarm i).ctx = s.ctx := rfl
@[simp] theorem State.disarm_brg (s : State) (i : Instr) : (s.disarm i).brg = s.brg := rfl
@[simp] theorem State.disarm_edg (s : State) (i : Instr) : (s.disarm i).edg = s.edg := rfl
@[simp] theorem State.disarm_leave (s : State) (i : Instr) : (s.disarm i).leave = s.leave := rfl
@[simp] theorem State.disarm_masked (s : State) (i : Instr) : (s.disarm i).masked = s.masked := rfl
@[simp] theorem State.disarm_tx (s : State) (i : Instr) : (s.disarm i).tx = s.tx := rfl
@[simp] theorem State.disarm_mgt (s : State) (i : Instr) : (s.disarm i).mgt = s.mgt := rfl
@[simp] theorem State.disarm_cmx (s : State) (i : Instr) : (s.disarm i).cmx = s.cmx := rfl
@[simp] theorem State.disarm_boot (s : State) (i : Instr) : (s.disarm i).boot = s.boot := rfl
@[simp] theorem State.disarm_test (s : State) (i : Instr) : (s.disarm i).test = s.test := rfl
@[simp] theorem State.disarm_counted (s : State) (i : Instr) : (s.disarm i).counted = s.counted := rfl
@[simp] theorem State.disarm_hfp (s : State) (i : Instr) : (s.disarm i).hfp = s.hfp := rfl

/-! `useFree` changes `freeCtr` alone. -/

@[simp] theorem State.useFree_pending (s : State) : (s.useFree).pending = s.pending := rfl
@[simp] theorem State.useFree_agenda (s : State) : (s.useFree).agenda = s.agenda := rfl
@[simp] theorem State.useFree_time (s : State) : (s.useFree).time = s.time := rfl
@[simp] theorem State.useFree_ties (s : State) : (s.useFree).ties = s.ties := rfl
@[simp] theorem State.useFree_regs (s : State) : (s.useFree).regs = s.regs := rfl
@[simp] theorem State.useFree_mem (s : State) : (s.useFree).mem = s.mem := rfl
@[simp] theorem State.useFree_valid (s : State) : (s.useFree).valid = s.valid := rfl
@[simp] theorem State.useFree_detected (s : State) : (s.useFree).detected = s.detected := rfl
@[simp] theorem State.useFree_events (s : State) : (s.useFree).events = s.events := rfl
@[simp] theorem State.useFree_hiLatch (s : State) : (s.useFree).hiLatch = s.hiLatch := rfl
@[simp] theorem State.useFree_loHeld (s : State) : (s.useFree).loHeld = s.loHeld := rfl
@[simp] theorem State.useFree_present (s : State) : (s.useFree).present = s.present := rfl
@[simp] theorem State.useFree_presWait (s : State) : (s.useFree).presWait = s.presWait := rfl
@[simp] theorem State.useFree_outs (s : State) : (s.useFree).outs = s.outs := rfl
@[simp] theorem State.useFree_frz (s : State) : (s.useFree).frz = s.frz := rfl
@[simp] theorem State.useFree_stp (s : State) : (s.useFree).stp = s.stp := rfl
@[simp] theorem State.useFree_set (s : State) : (s.useFree).set = s.set := rfl
@[simp] theorem State.useFree_loose (s : State) : (s.useFree).loose = s.loose := rfl
@[simp] theorem State.useFree_rep (s : State) : (s.useFree).rep = s.rep := rfl
@[simp] theorem State.useFree_syn (s : State) : (s.useFree).syn = s.syn := rfl
@[simp] theorem State.useFree_fifos (s : State) : (s.useFree).fifos = s.fifos := rfl
@[simp] theorem State.useFree_runners (s : State) : (s.useFree).runners = s.runners := rfl
@[simp] theorem State.useFree_pwr (s : State) : (s.useFree).pwr = s.pwr := rfl
@[simp] theorem State.useFree_ctx (s : State) : (s.useFree).ctx = s.ctx := rfl
@[simp] theorem State.useFree_brg (s : State) : (s.useFree).brg = s.brg := rfl
@[simp] theorem State.useFree_edg (s : State) : (s.useFree).edg = s.edg := rfl
@[simp] theorem State.useFree_leave (s : State) : (s.useFree).leave = s.leave := rfl
@[simp] theorem State.useFree_masked (s : State) : (s.useFree).masked = s.masked := rfl
@[simp] theorem State.useFree_tx (s : State) : (s.useFree).tx = s.tx := rfl
@[simp] theorem State.useFree_mgt (s : State) : (s.useFree).mgt = s.mgt := rfl
@[simp] theorem State.useFree_cmx (s : State) : (s.useFree).cmx = s.cmx := rfl
@[simp] theorem State.useFree_boot (s : State) : (s.useFree).boot = s.boot := rfl
@[simp] theorem State.useFree_test (s : State) : (s.useFree).test = s.test := rfl
@[simp] theorem State.useFree_counted (s : State) : (s.useFree).counted = s.counted := rfl
@[simp] theorem State.useFree_hfp (s : State) : (s.useFree).hfp = s.hfp := rfl

/-! `err` changes `detected` alone. -/

@[simp] theorem State.err_pending (s : State) (e : ErrRec) : (s.err e).pending = s.pending := rfl
@[simp] theorem State.err_agenda (s : State) (e : ErrRec) : (s.err e).agenda = s.agenda := rfl
@[simp] theorem State.err_time (s : State) (e : ErrRec) : (s.err e).time = s.time := rfl
@[simp] theorem State.err_ties (s : State) (e : ErrRec) : (s.err e).ties = s.ties := rfl
@[simp] theorem State.err_regs (s : State) (e : ErrRec) : (s.err e).regs = s.regs := rfl
@[simp] theorem State.err_mem (s : State) (e : ErrRec) : (s.err e).mem = s.mem := rfl
@[simp] theorem State.err_valid (s : State) (e : ErrRec) : (s.err e).valid = s.valid := rfl
@[simp] theorem State.err_freeCtr (s : State) (e : ErrRec) : (s.err e).freeCtr = s.freeCtr := rfl
@[simp] theorem State.err_events (s : State) (e : ErrRec) : (s.err e).events = s.events := rfl
@[simp] theorem State.err_hiLatch (s : State) (e : ErrRec) : (s.err e).hiLatch = s.hiLatch := rfl
@[simp] theorem State.err_loHeld (s : State) (e : ErrRec) : (s.err e).loHeld = s.loHeld := rfl
@[simp] theorem State.err_present (s : State) (e : ErrRec) : (s.err e).present = s.present := rfl
@[simp] theorem State.err_presWait (s : State) (e : ErrRec) : (s.err e).presWait = s.presWait := rfl
@[simp] theorem State.err_outs (s : State) (e : ErrRec) : (s.err e).outs = s.outs := rfl
@[simp] theorem State.err_frz (s : State) (e : ErrRec) : (s.err e).frz = s.frz := rfl
@[simp] theorem State.err_stp (s : State) (e : ErrRec) : (s.err e).stp = s.stp := rfl
@[simp] theorem State.err_set (s : State) (e : ErrRec) : (s.err e).set = s.set := rfl
@[simp] theorem State.err_loose (s : State) (e : ErrRec) : (s.err e).loose = s.loose := rfl
@[simp] theorem State.err_rep (s : State) (e : ErrRec) : (s.err e).rep = s.rep := rfl
@[simp] theorem State.err_syn (s : State) (e : ErrRec) : (s.err e).syn = s.syn := rfl
@[simp] theorem State.err_fifos (s : State) (e : ErrRec) : (s.err e).fifos = s.fifos := rfl
@[simp] theorem State.err_runners (s : State) (e : ErrRec) : (s.err e).runners = s.runners := rfl
@[simp] theorem State.err_pwr (s : State) (e : ErrRec) : (s.err e).pwr = s.pwr := rfl
@[simp] theorem State.err_ctx (s : State) (e : ErrRec) : (s.err e).ctx = s.ctx := rfl
@[simp] theorem State.err_brg (s : State) (e : ErrRec) : (s.err e).brg = s.brg := rfl
@[simp] theorem State.err_edg (s : State) (e : ErrRec) : (s.err e).edg = s.edg := rfl
@[simp] theorem State.err_leave (s : State) (e : ErrRec) : (s.err e).leave = s.leave := rfl
@[simp] theorem State.err_masked (s : State) (e : ErrRec) : (s.err e).masked = s.masked := rfl
@[simp] theorem State.err_tx (s : State) (e : ErrRec) : (s.err e).tx = s.tx := rfl
@[simp] theorem State.err_mgt (s : State) (e : ErrRec) : (s.err e).mgt = s.mgt := rfl
@[simp] theorem State.err_cmx (s : State) (e : ErrRec) : (s.err e).cmx = s.cmx := rfl
@[simp] theorem State.err_boot (s : State) (e : ErrRec) : (s.err e).boot = s.boot := rfl
@[simp] theorem State.err_test (s : State) (e : ErrRec) : (s.err e).test = s.test := rfl
@[simp] theorem State.err_counted (s : State) (e : ErrRec) : (s.err e).counted = s.counted := rfl
@[simp] theorem State.err_hfp (s : State) (e : ErrRec) : (s.err e).hfp = s.hfp := rfl

/-! `locked` changes `detected` alone. -/

@[simp] theorem State.locked_pending (s : State) (q c : Nat) : (s.locked q c).pending = s.pending := rfl
@[simp] theorem State.locked_agenda (s : State) (q c : Nat) : (s.locked q c).agenda = s.agenda := rfl
@[simp] theorem State.locked_time (s : State) (q c : Nat) : (s.locked q c).time = s.time := rfl
@[simp] theorem State.locked_ties (s : State) (q c : Nat) : (s.locked q c).ties = s.ties := rfl
@[simp] theorem State.locked_regs (s : State) (q c : Nat) : (s.locked q c).regs = s.regs := rfl
@[simp] theorem State.locked_mem (s : State) (q c : Nat) : (s.locked q c).mem = s.mem := rfl
@[simp] theorem State.locked_valid (s : State) (q c : Nat) : (s.locked q c).valid = s.valid := rfl
@[simp] theorem State.locked_freeCtr (s : State) (q c : Nat) : (s.locked q c).freeCtr = s.freeCtr := rfl
@[simp] theorem State.locked_events (s : State) (q c : Nat) : (s.locked q c).events = s.events := rfl
@[simp] theorem State.locked_hiLatch (s : State) (q c : Nat) : (s.locked q c).hiLatch = s.hiLatch := rfl
@[simp] theorem State.locked_loHeld (s : State) (q c : Nat) : (s.locked q c).loHeld = s.loHeld := rfl
@[simp] theorem State.locked_present (s : State) (q c : Nat) : (s.locked q c).present = s.present := rfl
@[simp] theorem State.locked_presWait (s : State) (q c : Nat) : (s.locked q c).presWait = s.presWait := rfl
@[simp] theorem State.locked_outs (s : State) (q c : Nat) : (s.locked q c).outs = s.outs := rfl
@[simp] theorem State.locked_frz (s : State) (q c : Nat) : (s.locked q c).frz = s.frz := rfl
@[simp] theorem State.locked_stp (s : State) (q c : Nat) : (s.locked q c).stp = s.stp := rfl
@[simp] theorem State.locked_set (s : State) (q c : Nat) : (s.locked q c).set = s.set := rfl
@[simp] theorem State.locked_loose (s : State) (q c : Nat) : (s.locked q c).loose = s.loose := rfl
@[simp] theorem State.locked_rep (s : State) (q c : Nat) : (s.locked q c).rep = s.rep := rfl
@[simp] theorem State.locked_syn (s : State) (q c : Nat) : (s.locked q c).syn = s.syn := rfl
@[simp] theorem State.locked_fifos (s : State) (q c : Nat) : (s.locked q c).fifos = s.fifos := rfl
@[simp] theorem State.locked_runners (s : State) (q c : Nat) : (s.locked q c).runners = s.runners := rfl
@[simp] theorem State.locked_pwr (s : State) (q c : Nat) : (s.locked q c).pwr = s.pwr := rfl
@[simp] theorem State.locked_ctx (s : State) (q c : Nat) : (s.locked q c).ctx = s.ctx := rfl
@[simp] theorem State.locked_brg (s : State) (q c : Nat) : (s.locked q c).brg = s.brg := rfl
@[simp] theorem State.locked_edg (s : State) (q c : Nat) : (s.locked q c).edg = s.edg := rfl
@[simp] theorem State.locked_leave (s : State) (q c : Nat) : (s.locked q c).leave = s.leave := rfl
@[simp] theorem State.locked_masked (s : State) (q c : Nat) : (s.locked q c).masked = s.masked := rfl
@[simp] theorem State.locked_tx (s : State) (q c : Nat) : (s.locked q c).tx = s.tx := rfl
@[simp] theorem State.locked_mgt (s : State) (q c : Nat) : (s.locked q c).mgt = s.mgt := rfl
@[simp] theorem State.locked_cmx (s : State) (q c : Nat) : (s.locked q c).cmx = s.cmx := rfl
@[simp] theorem State.locked_boot (s : State) (q c : Nat) : (s.locked q c).boot = s.boot := rfl
@[simp] theorem State.locked_test (s : State) (q c : Nat) : (s.locked q c).test = s.test := rfl
@[simp] theorem State.locked_counted (s : State) (q c : Nat) : (s.locked q c).counted = s.counted := rfl
@[simp] theorem State.locked_hfp (s : State) (q c : Nat) : (s.locked q c).hfp = s.hfp := rfl

/-! `setCell` changes `mem` alone. -/

@[simp] theorem State.setCell_pending (s : State) (a : Nat) (b : Byte) : (s.setCell a b).pending = s.pending := rfl
@[simp] theorem State.setCell_agenda (s : State) (a : Nat) (b : Byte) : (s.setCell a b).agenda = s.agenda := rfl
@[simp] theorem State.setCell_time (s : State) (a : Nat) (b : Byte) : (s.setCell a b).time = s.time := rfl
@[simp] theorem State.setCell_ties (s : State) (a : Nat) (b : Byte) : (s.setCell a b).ties = s.ties := rfl
@[simp] theorem State.setCell_regs (s : State) (a : Nat) (b : Byte) : (s.setCell a b).regs = s.regs := rfl
@[simp] theorem State.setCell_valid (s : State) (a : Nat) (b : Byte) : (s.setCell a b).valid = s.valid := rfl
@[simp] theorem State.setCell_freeCtr (s : State) (a : Nat) (b : Byte) : (s.setCell a b).freeCtr = s.freeCtr := rfl
@[simp] theorem State.setCell_detected (s : State) (a : Nat) (b : Byte) : (s.setCell a b).detected = s.detected := rfl
@[simp] theorem State.setCell_events (s : State) (a : Nat) (b : Byte) : (s.setCell a b).events = s.events := rfl
@[simp] theorem State.setCell_hiLatch (s : State) (a : Nat) (b : Byte) : (s.setCell a b).hiLatch = s.hiLatch := rfl
@[simp] theorem State.setCell_loHeld (s : State) (a : Nat) (b : Byte) : (s.setCell a b).loHeld = s.loHeld := rfl
@[simp] theorem State.setCell_present (s : State) (a : Nat) (b : Byte) : (s.setCell a b).present = s.present := rfl
@[simp] theorem State.setCell_presWait (s : State) (a : Nat) (b : Byte) : (s.setCell a b).presWait = s.presWait := rfl
@[simp] theorem State.setCell_outs (s : State) (a : Nat) (b : Byte) : (s.setCell a b).outs = s.outs := rfl
@[simp] theorem State.setCell_frz (s : State) (a : Nat) (b : Byte) : (s.setCell a b).frz = s.frz := rfl
@[simp] theorem State.setCell_stp (s : State) (a : Nat) (b : Byte) : (s.setCell a b).stp = s.stp := rfl
@[simp] theorem State.setCell_set (s : State) (a : Nat) (b : Byte) : (s.setCell a b).set = s.set := rfl
@[simp] theorem State.setCell_loose (s : State) (a : Nat) (b : Byte) : (s.setCell a b).loose = s.loose := rfl
@[simp] theorem State.setCell_rep (s : State) (a : Nat) (b : Byte) : (s.setCell a b).rep = s.rep := rfl
@[simp] theorem State.setCell_syn (s : State) (a : Nat) (b : Byte) : (s.setCell a b).syn = s.syn := rfl
@[simp] theorem State.setCell_fifos (s : State) (a : Nat) (b : Byte) : (s.setCell a b).fifos = s.fifos := rfl
@[simp] theorem State.setCell_runners (s : State) (a : Nat) (b : Byte) : (s.setCell a b).runners = s.runners := rfl
@[simp] theorem State.setCell_pwr (s : State) (a : Nat) (b : Byte) : (s.setCell a b).pwr = s.pwr := rfl
@[simp] theorem State.setCell_ctx (s : State) (a : Nat) (b : Byte) : (s.setCell a b).ctx = s.ctx := rfl
@[simp] theorem State.setCell_brg (s : State) (a : Nat) (b : Byte) : (s.setCell a b).brg = s.brg := rfl
@[simp] theorem State.setCell_edg (s : State) (a : Nat) (b : Byte) : (s.setCell a b).edg = s.edg := rfl
@[simp] theorem State.setCell_leave (s : State) (a : Nat) (b : Byte) : (s.setCell a b).leave = s.leave := rfl
@[simp] theorem State.setCell_masked (s : State) (a : Nat) (b : Byte) : (s.setCell a b).masked = s.masked := rfl
@[simp] theorem State.setCell_tx (s : State) (a : Nat) (b : Byte) : (s.setCell a b).tx = s.tx := rfl
@[simp] theorem State.setCell_mgt (s : State) (a : Nat) (b : Byte) : (s.setCell a b).mgt = s.mgt := rfl
@[simp] theorem State.setCell_cmx (s : State) (a : Nat) (b : Byte) : (s.setCell a b).cmx = s.cmx := rfl
@[simp] theorem State.setCell_boot (s : State) (a : Nat) (b : Byte) : (s.setCell a b).boot = s.boot := rfl
@[simp] theorem State.setCell_test (s : State) (a : Nat) (b : Byte) : (s.setCell a b).test = s.test := rfl
@[simp] theorem State.setCell_counted (s : State) (a : Nat) (b : Byte) : (s.setCell a b).counted = s.counted := rfl
@[simp] theorem State.setCell_hfp (s : State) (a : Nat) (b : Byte) : (s.setCell a b).hfp = s.hfp := rfl

/-! `usedBank` changes `pwr` alone. -/

@[simp] theorem State.usedBank_pending (s : State) (n : Nat) : (s.usedBank n).pending = s.pending := rfl
@[simp] theorem State.usedBank_agenda (s : State) (n : Nat) : (s.usedBank n).agenda = s.agenda := rfl
@[simp] theorem State.usedBank_time (s : State) (n : Nat) : (s.usedBank n).time = s.time := rfl
@[simp] theorem State.usedBank_ties (s : State) (n : Nat) : (s.usedBank n).ties = s.ties := rfl
@[simp] theorem State.usedBank_regs (s : State) (n : Nat) : (s.usedBank n).regs = s.regs := rfl
@[simp] theorem State.usedBank_mem (s : State) (n : Nat) : (s.usedBank n).mem = s.mem := rfl
@[simp] theorem State.usedBank_valid (s : State) (n : Nat) : (s.usedBank n).valid = s.valid := rfl
@[simp] theorem State.usedBank_freeCtr (s : State) (n : Nat) : (s.usedBank n).freeCtr = s.freeCtr := rfl
@[simp] theorem State.usedBank_detected (s : State) (n : Nat) : (s.usedBank n).detected = s.detected := rfl
@[simp] theorem State.usedBank_events (s : State) (n : Nat) : (s.usedBank n).events = s.events := rfl
@[simp] theorem State.usedBank_hiLatch (s : State) (n : Nat) : (s.usedBank n).hiLatch = s.hiLatch := rfl
@[simp] theorem State.usedBank_loHeld (s : State) (n : Nat) : (s.usedBank n).loHeld = s.loHeld := rfl
@[simp] theorem State.usedBank_present (s : State) (n : Nat) : (s.usedBank n).present = s.present := rfl
@[simp] theorem State.usedBank_presWait (s : State) (n : Nat) : (s.usedBank n).presWait = s.presWait := rfl
@[simp] theorem State.usedBank_outs (s : State) (n : Nat) : (s.usedBank n).outs = s.outs := rfl
@[simp] theorem State.usedBank_frz (s : State) (n : Nat) : (s.usedBank n).frz = s.frz := rfl
@[simp] theorem State.usedBank_stp (s : State) (n : Nat) : (s.usedBank n).stp = s.stp := rfl
@[simp] theorem State.usedBank_set (s : State) (n : Nat) : (s.usedBank n).set = s.set := rfl
@[simp] theorem State.usedBank_loose (s : State) (n : Nat) : (s.usedBank n).loose = s.loose := rfl
@[simp] theorem State.usedBank_rep (s : State) (n : Nat) : (s.usedBank n).rep = s.rep := rfl
@[simp] theorem State.usedBank_syn (s : State) (n : Nat) : (s.usedBank n).syn = s.syn := rfl
@[simp] theorem State.usedBank_fifos (s : State) (n : Nat) : (s.usedBank n).fifos = s.fifos := rfl
@[simp] theorem State.usedBank_runners (s : State) (n : Nat) : (s.usedBank n).runners = s.runners := rfl
@[simp] theorem State.usedBank_ctx (s : State) (n : Nat) : (s.usedBank n).ctx = s.ctx := rfl
@[simp] theorem State.usedBank_brg (s : State) (n : Nat) : (s.usedBank n).brg = s.brg := rfl
@[simp] theorem State.usedBank_edg (s : State) (n : Nat) : (s.usedBank n).edg = s.edg := rfl
@[simp] theorem State.usedBank_leave (s : State) (n : Nat) : (s.usedBank n).leave = s.leave := rfl
@[simp] theorem State.usedBank_masked (s : State) (n : Nat) : (s.usedBank n).masked = s.masked := rfl
@[simp] theorem State.usedBank_tx (s : State) (n : Nat) : (s.usedBank n).tx = s.tx := rfl
@[simp] theorem State.usedBank_mgt (s : State) (n : Nat) : (s.usedBank n).mgt = s.mgt := rfl
@[simp] theorem State.usedBank_cmx (s : State) (n : Nat) : (s.usedBank n).cmx = s.cmx := rfl
@[simp] theorem State.usedBank_boot (s : State) (n : Nat) : (s.usedBank n).boot = s.boot := rfl
@[simp] theorem State.usedBank_test (s : State) (n : Nat) : (s.usedBank n).test = s.test := rfl
@[simp] theorem State.usedBank_counted (s : State) (n : Nat) : (s.usedBank n).counted = s.counted := rfl
@[simp] theorem State.usedBank_hfp (s : State) (n : Nat) : (s.usedBank n).hfp = s.hfp := rfl

/-! `usedLink` changes `pwr` alone. -/

@[simp] theorem State.usedLink_pending (s : State) : (s.usedLink).pending = s.pending := rfl
@[simp] theorem State.usedLink_agenda (s : State) : (s.usedLink).agenda = s.agenda := rfl
@[simp] theorem State.usedLink_time (s : State) : (s.usedLink).time = s.time := rfl
@[simp] theorem State.usedLink_ties (s : State) : (s.usedLink).ties = s.ties := rfl
@[simp] theorem State.usedLink_regs (s : State) : (s.usedLink).regs = s.regs := rfl
@[simp] theorem State.usedLink_mem (s : State) : (s.usedLink).mem = s.mem := rfl
@[simp] theorem State.usedLink_valid (s : State) : (s.usedLink).valid = s.valid := rfl
@[simp] theorem State.usedLink_freeCtr (s : State) : (s.usedLink).freeCtr = s.freeCtr := rfl
@[simp] theorem State.usedLink_detected (s : State) : (s.usedLink).detected = s.detected := rfl
@[simp] theorem State.usedLink_events (s : State) : (s.usedLink).events = s.events := rfl
@[simp] theorem State.usedLink_hiLatch (s : State) : (s.usedLink).hiLatch = s.hiLatch := rfl
@[simp] theorem State.usedLink_loHeld (s : State) : (s.usedLink).loHeld = s.loHeld := rfl
@[simp] theorem State.usedLink_present (s : State) : (s.usedLink).present = s.present := rfl
@[simp] theorem State.usedLink_presWait (s : State) : (s.usedLink).presWait = s.presWait := rfl
@[simp] theorem State.usedLink_outs (s : State) : (s.usedLink).outs = s.outs := rfl
@[simp] theorem State.usedLink_frz (s : State) : (s.usedLink).frz = s.frz := rfl
@[simp] theorem State.usedLink_stp (s : State) : (s.usedLink).stp = s.stp := rfl
@[simp] theorem State.usedLink_set (s : State) : (s.usedLink).set = s.set := rfl
@[simp] theorem State.usedLink_loose (s : State) : (s.usedLink).loose = s.loose := rfl
@[simp] theorem State.usedLink_rep (s : State) : (s.usedLink).rep = s.rep := rfl
@[simp] theorem State.usedLink_syn (s : State) : (s.usedLink).syn = s.syn := rfl
@[simp] theorem State.usedLink_fifos (s : State) : (s.usedLink).fifos = s.fifos := rfl
@[simp] theorem State.usedLink_runners (s : State) : (s.usedLink).runners = s.runners := rfl
@[simp] theorem State.usedLink_ctx (s : State) : (s.usedLink).ctx = s.ctx := rfl
@[simp] theorem State.usedLink_brg (s : State) : (s.usedLink).brg = s.brg := rfl
@[simp] theorem State.usedLink_edg (s : State) : (s.usedLink).edg = s.edg := rfl
@[simp] theorem State.usedLink_leave (s : State) : (s.usedLink).leave = s.leave := rfl
@[simp] theorem State.usedLink_masked (s : State) : (s.usedLink).masked = s.masked := rfl
@[simp] theorem State.usedLink_tx (s : State) : (s.usedLink).tx = s.tx := rfl
@[simp] theorem State.usedLink_mgt (s : State) : (s.usedLink).mgt = s.mgt := rfl
@[simp] theorem State.usedLink_cmx (s : State) : (s.usedLink).cmx = s.cmx := rfl
@[simp] theorem State.usedLink_boot (s : State) : (s.usedLink).boot = s.boot := rfl
@[simp] theorem State.usedLink_test (s : State) : (s.usedLink).test = s.test := rfl
@[simp] theorem State.usedLink_counted (s : State) : (s.usedLink).counted = s.counted := rfl
@[simp] theorem State.usedLink_hfp (s : State) : (s.usedLink).hfp = s.hfp := rfl

/-! `present!` changes `outs` alone. -/

@[simp] theorem State.present!_pending (s : State) (k : Nat) (o : PortOut) : (s.present! k o).pending = s.pending := rfl
@[simp] theorem State.present!_agenda (s : State) (k : Nat) (o : PortOut) : (s.present! k o).agenda = s.agenda := rfl
@[simp] theorem State.present!_time (s : State) (k : Nat) (o : PortOut) : (s.present! k o).time = s.time := rfl
@[simp] theorem State.present!_ties (s : State) (k : Nat) (o : PortOut) : (s.present! k o).ties = s.ties := rfl
@[simp] theorem State.present!_regs (s : State) (k : Nat) (o : PortOut) : (s.present! k o).regs = s.regs := rfl
@[simp] theorem State.present!_mem (s : State) (k : Nat) (o : PortOut) : (s.present! k o).mem = s.mem := rfl
@[simp] theorem State.present!_valid (s : State) (k : Nat) (o : PortOut) : (s.present! k o).valid = s.valid := rfl
@[simp] theorem State.present!_freeCtr (s : State) (k : Nat) (o : PortOut) : (s.present! k o).freeCtr = s.freeCtr := rfl
@[simp] theorem State.present!_detected (s : State) (k : Nat) (o : PortOut) : (s.present! k o).detected = s.detected := rfl
@[simp] theorem State.present!_events (s : State) (k : Nat) (o : PortOut) : (s.present! k o).events = s.events := rfl
@[simp] theorem State.present!_hiLatch (s : State) (k : Nat) (o : PortOut) : (s.present! k o).hiLatch = s.hiLatch := rfl
@[simp] theorem State.present!_loHeld (s : State) (k : Nat) (o : PortOut) : (s.present! k o).loHeld = s.loHeld := rfl
@[simp] theorem State.present!_present (s : State) (k : Nat) (o : PortOut) : (s.present! k o).present = s.present := rfl
@[simp] theorem State.present!_presWait (s : State) (k : Nat) (o : PortOut) : (s.present! k o).presWait = s.presWait := rfl
@[simp] theorem State.present!_frz (s : State) (k : Nat) (o : PortOut) : (s.present! k o).frz = s.frz := rfl
@[simp] theorem State.present!_stp (s : State) (k : Nat) (o : PortOut) : (s.present! k o).stp = s.stp := rfl
@[simp] theorem State.present!_set (s : State) (k : Nat) (o : PortOut) : (s.present! k o).set = s.set := rfl
@[simp] theorem State.present!_loose (s : State) (k : Nat) (o : PortOut) : (s.present! k o).loose = s.loose := rfl
@[simp] theorem State.present!_rep (s : State) (k : Nat) (o : PortOut) : (s.present! k o).rep = s.rep := rfl
@[simp] theorem State.present!_syn (s : State) (k : Nat) (o : PortOut) : (s.present! k o).syn = s.syn := rfl
@[simp] theorem State.present!_fifos (s : State) (k : Nat) (o : PortOut) : (s.present! k o).fifos = s.fifos := rfl
@[simp] theorem State.present!_runners (s : State) (k : Nat) (o : PortOut) : (s.present! k o).runners = s.runners := rfl
@[simp] theorem State.present!_pwr (s : State) (k : Nat) (o : PortOut) : (s.present! k o).pwr = s.pwr := rfl
@[simp] theorem State.present!_ctx (s : State) (k : Nat) (o : PortOut) : (s.present! k o).ctx = s.ctx := rfl
@[simp] theorem State.present!_brg (s : State) (k : Nat) (o : PortOut) : (s.present! k o).brg = s.brg := rfl
@[simp] theorem State.present!_edg (s : State) (k : Nat) (o : PortOut) : (s.present! k o).edg = s.edg := rfl
@[simp] theorem State.present!_leave (s : State) (k : Nat) (o : PortOut) : (s.present! k o).leave = s.leave := rfl
@[simp] theorem State.present!_masked (s : State) (k : Nat) (o : PortOut) : (s.present! k o).masked = s.masked := rfl
@[simp] theorem State.present!_tx (s : State) (k : Nat) (o : PortOut) : (s.present! k o).tx = s.tx := rfl
@[simp] theorem State.present!_mgt (s : State) (k : Nat) (o : PortOut) : (s.present! k o).mgt = s.mgt := rfl
@[simp] theorem State.present!_cmx (s : State) (k : Nat) (o : PortOut) : (s.present! k o).cmx = s.cmx := rfl
@[simp] theorem State.present!_boot (s : State) (k : Nat) (o : PortOut) : (s.present! k o).boot = s.boot := rfl
@[simp] theorem State.present!_test (s : State) (k : Nat) (o : PortOut) : (s.present! k o).test = s.test := rfl
@[simp] theorem State.present!_counted (s : State) (k : Nat) (o : PortOut) : (s.present! k o).counted = s.counted := rfl
@[simp] theorem State.present!_hfp (s : State) (k : Nat) (o : PortOut) : (s.present! k o).hfp = s.hfp := rfl

/-! `fresh` changes `loose` alone. -/

@[simp] theorem State.fresh_pending (s : State) : (s.fresh).pending = s.pending := rfl
@[simp] theorem State.fresh_agenda (s : State) : (s.fresh).agenda = s.agenda := rfl
@[simp] theorem State.fresh_time (s : State) : (s.fresh).time = s.time := rfl
@[simp] theorem State.fresh_ties (s : State) : (s.fresh).ties = s.ties := rfl
@[simp] theorem State.fresh_regs (s : State) : (s.fresh).regs = s.regs := rfl
@[simp] theorem State.fresh_mem (s : State) : (s.fresh).mem = s.mem := rfl
@[simp] theorem State.fresh_valid (s : State) : (s.fresh).valid = s.valid := rfl
@[simp] theorem State.fresh_freeCtr (s : State) : (s.fresh).freeCtr = s.freeCtr := rfl
@[simp] theorem State.fresh_detected (s : State) : (s.fresh).detected = s.detected := rfl
@[simp] theorem State.fresh_events (s : State) : (s.fresh).events = s.events := rfl
@[simp] theorem State.fresh_hiLatch (s : State) : (s.fresh).hiLatch = s.hiLatch := rfl
@[simp] theorem State.fresh_loHeld (s : State) : (s.fresh).loHeld = s.loHeld := rfl
@[simp] theorem State.fresh_present (s : State) : (s.fresh).present = s.present := rfl
@[simp] theorem State.fresh_presWait (s : State) : (s.fresh).presWait = s.presWait := rfl
@[simp] theorem State.fresh_outs (s : State) : (s.fresh).outs = s.outs := rfl
@[simp] theorem State.fresh_frz (s : State) : (s.fresh).frz = s.frz := rfl
@[simp] theorem State.fresh_stp (s : State) : (s.fresh).stp = s.stp := rfl
@[simp] theorem State.fresh_set (s : State) : (s.fresh).set = s.set := rfl
@[simp] theorem State.fresh_rep (s : State) : (s.fresh).rep = s.rep := rfl
@[simp] theorem State.fresh_syn (s : State) : (s.fresh).syn = s.syn := rfl
@[simp] theorem State.fresh_fifos (s : State) : (s.fresh).fifos = s.fifos := rfl
@[simp] theorem State.fresh_runners (s : State) : (s.fresh).runners = s.runners := rfl
@[simp] theorem State.fresh_pwr (s : State) : (s.fresh).pwr = s.pwr := rfl
@[simp] theorem State.fresh_ctx (s : State) : (s.fresh).ctx = s.ctx := rfl
@[simp] theorem State.fresh_brg (s : State) : (s.fresh).brg = s.brg := rfl
@[simp] theorem State.fresh_edg (s : State) : (s.fresh).edg = s.edg := rfl
@[simp] theorem State.fresh_leave (s : State) : (s.fresh).leave = s.leave := rfl
@[simp] theorem State.fresh_masked (s : State) : (s.fresh).masked = s.masked := rfl
@[simp] theorem State.fresh_tx (s : State) : (s.fresh).tx = s.tx := rfl
@[simp] theorem State.fresh_mgt (s : State) : (s.fresh).mgt = s.mgt := rfl
@[simp] theorem State.fresh_cmx (s : State) : (s.fresh).cmx = s.cmx := rfl
@[simp] theorem State.fresh_boot (s : State) : (s.fresh).boot = s.boot := rfl
@[simp] theorem State.fresh_test (s : State) : (s.fresh).test = s.test := rfl
@[simp] theorem State.fresh_counted (s : State) : (s.fresh).counted = s.counted := rfl
@[simp] theorem State.fresh_hfp (s : State) : (s.fresh).hfp = s.hfp := rfl

/-! `undrain` changes `syn` alone. -/

@[simp] theorem State.undrain_pending (s : State) (a c p : Nat) : (s.undrain a c p).pending = s.pending := rfl
@[simp] theorem State.undrain_agenda (s : State) (a c p : Nat) : (s.undrain a c p).agenda = s.agenda := rfl
@[simp] theorem State.undrain_time (s : State) (a c p : Nat) : (s.undrain a c p).time = s.time := rfl
@[simp] theorem State.undrain_ties (s : State) (a c p : Nat) : (s.undrain a c p).ties = s.ties := rfl
@[simp] theorem State.undrain_regs (s : State) (a c p : Nat) : (s.undrain a c p).regs = s.regs := rfl
@[simp] theorem State.undrain_mem (s : State) (a c p : Nat) : (s.undrain a c p).mem = s.mem := rfl
@[simp] theorem State.undrain_valid (s : State) (a c p : Nat) : (s.undrain a c p).valid = s.valid := rfl
@[simp] theorem State.undrain_freeCtr (s : State) (a c p : Nat) : (s.undrain a c p).freeCtr = s.freeCtr := rfl
@[simp] theorem State.undrain_detected (s : State) (a c p : Nat) : (s.undrain a c p).detected = s.detected := rfl
@[simp] theorem State.undrain_events (s : State) (a c p : Nat) : (s.undrain a c p).events = s.events := rfl
@[simp] theorem State.undrain_hiLatch (s : State) (a c p : Nat) : (s.undrain a c p).hiLatch = s.hiLatch := rfl
@[simp] theorem State.undrain_loHeld (s : State) (a c p : Nat) : (s.undrain a c p).loHeld = s.loHeld := rfl
@[simp] theorem State.undrain_present (s : State) (a c p : Nat) : (s.undrain a c p).present = s.present := rfl
@[simp] theorem State.undrain_presWait (s : State) (a c p : Nat) : (s.undrain a c p).presWait = s.presWait := rfl
@[simp] theorem State.undrain_outs (s : State) (a c p : Nat) : (s.undrain a c p).outs = s.outs := rfl
@[simp] theorem State.undrain_frz (s : State) (a c p : Nat) : (s.undrain a c p).frz = s.frz := rfl
@[simp] theorem State.undrain_stp (s : State) (a c p : Nat) : (s.undrain a c p).stp = s.stp := rfl
@[simp] theorem State.undrain_set (s : State) (a c p : Nat) : (s.undrain a c p).set = s.set := rfl
@[simp] theorem State.undrain_loose (s : State) (a c p : Nat) : (s.undrain a c p).loose = s.loose := rfl
@[simp] theorem State.undrain_rep (s : State) (a c p : Nat) : (s.undrain a c p).rep = s.rep := rfl
@[simp] theorem State.undrain_fifos (s : State) (a c p : Nat) : (s.undrain a c p).fifos = s.fifos := rfl
@[simp] theorem State.undrain_runners (s : State) (a c p : Nat) : (s.undrain a c p).runners = s.runners := rfl
@[simp] theorem State.undrain_pwr (s : State) (a c p : Nat) : (s.undrain a c p).pwr = s.pwr := rfl
@[simp] theorem State.undrain_ctx (s : State) (a c p : Nat) : (s.undrain a c p).ctx = s.ctx := rfl
@[simp] theorem State.undrain_brg (s : State) (a c p : Nat) : (s.undrain a c p).brg = s.brg := rfl
@[simp] theorem State.undrain_edg (s : State) (a c p : Nat) : (s.undrain a c p).edg = s.edg := rfl
@[simp] theorem State.undrain_leave (s : State) (a c p : Nat) : (s.undrain a c p).leave = s.leave := rfl
@[simp] theorem State.undrain_masked (s : State) (a c p : Nat) : (s.undrain a c p).masked = s.masked := rfl
@[simp] theorem State.undrain_tx (s : State) (a c p : Nat) : (s.undrain a c p).tx = s.tx := rfl
@[simp] theorem State.undrain_mgt (s : State) (a c p : Nat) : (s.undrain a c p).mgt = s.mgt := rfl
@[simp] theorem State.undrain_cmx (s : State) (a c p : Nat) : (s.undrain a c p).cmx = s.cmx := rfl
@[simp] theorem State.undrain_boot (s : State) (a c p : Nat) : (s.undrain a c p).boot = s.boot := rfl
@[simp] theorem State.undrain_test (s : State) (a c p : Nat) : (s.undrain a c p).test = s.test := rfl
@[simp] theorem State.undrain_counted (s : State) (a c p : Nat) : (s.undrain a c p).counted = s.counted := rfl
@[simp] theorem State.undrain_hfp (s : State) (a c p : Nat) : (s.undrain a c p).hfp = s.hfp := rfl

/-! `drained` changes `syn` alone. -/

@[simp] theorem State.drained_pending (s : State) (a : Nat) : (s.drained a).pending = s.pending := rfl
@[simp] theorem State.drained_agenda (s : State) (a : Nat) : (s.drained a).agenda = s.agenda := rfl
@[simp] theorem State.drained_time (s : State) (a : Nat) : (s.drained a).time = s.time := rfl
@[simp] theorem State.drained_ties (s : State) (a : Nat) : (s.drained a).ties = s.ties := rfl
@[simp] theorem State.drained_regs (s : State) (a : Nat) : (s.drained a).regs = s.regs := rfl
@[simp] theorem State.drained_mem (s : State) (a : Nat) : (s.drained a).mem = s.mem := rfl
@[simp] theorem State.drained_valid (s : State) (a : Nat) : (s.drained a).valid = s.valid := rfl
@[simp] theorem State.drained_freeCtr (s : State) (a : Nat) : (s.drained a).freeCtr = s.freeCtr := rfl
@[simp] theorem State.drained_detected (s : State) (a : Nat) : (s.drained a).detected = s.detected := rfl
@[simp] theorem State.drained_events (s : State) (a : Nat) : (s.drained a).events = s.events := rfl
@[simp] theorem State.drained_hiLatch (s : State) (a : Nat) : (s.drained a).hiLatch = s.hiLatch := rfl
@[simp] theorem State.drained_loHeld (s : State) (a : Nat) : (s.drained a).loHeld = s.loHeld := rfl
@[simp] theorem State.drained_present (s : State) (a : Nat) : (s.drained a).present = s.present := rfl
@[simp] theorem State.drained_presWait (s : State) (a : Nat) : (s.drained a).presWait = s.presWait := rfl
@[simp] theorem State.drained_outs (s : State) (a : Nat) : (s.drained a).outs = s.outs := rfl
@[simp] theorem State.drained_frz (s : State) (a : Nat) : (s.drained a).frz = s.frz := rfl
@[simp] theorem State.drained_stp (s : State) (a : Nat) : (s.drained a).stp = s.stp := rfl
@[simp] theorem State.drained_set (s : State) (a : Nat) : (s.drained a).set = s.set := rfl
@[simp] theorem State.drained_loose (s : State) (a : Nat) : (s.drained a).loose = s.loose := rfl
@[simp] theorem State.drained_rep (s : State) (a : Nat) : (s.drained a).rep = s.rep := rfl
@[simp] theorem State.drained_fifos (s : State) (a : Nat) : (s.drained a).fifos = s.fifos := rfl
@[simp] theorem State.drained_runners (s : State) (a : Nat) : (s.drained a).runners = s.runners := rfl
@[simp] theorem State.drained_pwr (s : State) (a : Nat) : (s.drained a).pwr = s.pwr := rfl
@[simp] theorem State.drained_ctx (s : State) (a : Nat) : (s.drained a).ctx = s.ctx := rfl
@[simp] theorem State.drained_brg (s : State) (a : Nat) : (s.drained a).brg = s.brg := rfl
@[simp] theorem State.drained_edg (s : State) (a : Nat) : (s.drained a).edg = s.edg := rfl
@[simp] theorem State.drained_leave (s : State) (a : Nat) : (s.drained a).leave = s.leave := rfl
@[simp] theorem State.drained_masked (s : State) (a : Nat) : (s.drained a).masked = s.masked := rfl
@[simp] theorem State.drained_tx (s : State) (a : Nat) : (s.drained a).tx = s.tx := rfl
@[simp] theorem State.drained_mgt (s : State) (a : Nat) : (s.drained a).mgt = s.mgt := rfl
@[simp] theorem State.drained_cmx (s : State) (a : Nat) : (s.drained a).cmx = s.cmx := rfl
@[simp] theorem State.drained_boot (s : State) (a : Nat) : (s.drained a).boot = s.boot := rfl
@[simp] theorem State.drained_test (s : State) (a : Nat) : (s.drained a).test = s.test := rfl
@[simp] theorem State.drained_counted (s : State) (a : Nat) : (s.drained a).counted = s.counted := rfl
@[simp] theorem State.drained_hfp (s : State) (a : Nat) : (s.drained a).hfp = s.hfp := rfl

/-! `puts` changes `regs` alone. -/

@[simp] theorem State.puts_pending (s : State) (l : List (Fld × Nat)) : (s.puts l).pending = s.pending := by
  induction l generalizing s with
  | nil => rfl
  | cons p l ih => exact ih _
@[simp] theorem State.puts_agenda (s : State) (l : List (Fld × Nat)) : (s.puts l).agenda = s.agenda := by
  induction l generalizing s with
  | nil => rfl
  | cons p l ih => exact ih _
@[simp] theorem State.puts_time (s : State) (l : List (Fld × Nat)) : (s.puts l).time = s.time := by
  induction l generalizing s with
  | nil => rfl
  | cons p l ih => exact ih _
@[simp] theorem State.puts_ties (s : State) (l : List (Fld × Nat)) : (s.puts l).ties = s.ties := by
  induction l generalizing s with
  | nil => rfl
  | cons p l ih => exact ih _
@[simp] theorem State.puts_mem (s : State) (l : List (Fld × Nat)) : (s.puts l).mem = s.mem := by
  induction l generalizing s with
  | nil => rfl
  | cons p l ih => exact ih _
@[simp] theorem State.puts_valid (s : State) (l : List (Fld × Nat)) : (s.puts l).valid = s.valid := by
  induction l generalizing s with
  | nil => rfl
  | cons p l ih => exact ih _
@[simp] theorem State.puts_freeCtr (s : State) (l : List (Fld × Nat)) : (s.puts l).freeCtr = s.freeCtr := by
  induction l generalizing s with
  | nil => rfl
  | cons p l ih => exact ih _
@[simp] theorem State.puts_detected (s : State) (l : List (Fld × Nat)) : (s.puts l).detected = s.detected := by
  induction l generalizing s with
  | nil => rfl
  | cons p l ih => exact ih _
@[simp] theorem State.puts_events (s : State) (l : List (Fld × Nat)) : (s.puts l).events = s.events := by
  induction l generalizing s with
  | nil => rfl
  | cons p l ih => exact ih _
@[simp] theorem State.puts_hiLatch (s : State) (l : List (Fld × Nat)) : (s.puts l).hiLatch = s.hiLatch := by
  induction l generalizing s with
  | nil => rfl
  | cons p l ih => exact ih _
@[simp] theorem State.puts_loHeld (s : State) (l : List (Fld × Nat)) : (s.puts l).loHeld = s.loHeld := by
  induction l generalizing s with
  | nil => rfl
  | cons p l ih => exact ih _
@[simp] theorem State.puts_present (s : State) (l : List (Fld × Nat)) : (s.puts l).present = s.present := by
  induction l generalizing s with
  | nil => rfl
  | cons p l ih => exact ih _
@[simp] theorem State.puts_presWait (s : State) (l : List (Fld × Nat)) : (s.puts l).presWait = s.presWait := by
  induction l generalizing s with
  | nil => rfl
  | cons p l ih => exact ih _
@[simp] theorem State.puts_outs (s : State) (l : List (Fld × Nat)) : (s.puts l).outs = s.outs := by
  induction l generalizing s with
  | nil => rfl
  | cons p l ih => exact ih _
@[simp] theorem State.puts_frz (s : State) (l : List (Fld × Nat)) : (s.puts l).frz = s.frz := by
  induction l generalizing s with
  | nil => rfl
  | cons p l ih => exact ih _
@[simp] theorem State.puts_stp (s : State) (l : List (Fld × Nat)) : (s.puts l).stp = s.stp := by
  induction l generalizing s with
  | nil => rfl
  | cons p l ih => exact ih _
@[simp] theorem State.puts_set (s : State) (l : List (Fld × Nat)) : (s.puts l).set = s.set := by
  induction l generalizing s with
  | nil => rfl
  | cons p l ih => exact ih _
@[simp] theorem State.puts_loose (s : State) (l : List (Fld × Nat)) : (s.puts l).loose = s.loose := by
  induction l generalizing s with
  | nil => rfl
  | cons p l ih => exact ih _
@[simp] theorem State.puts_rep (s : State) (l : List (Fld × Nat)) : (s.puts l).rep = s.rep := by
  induction l generalizing s with
  | nil => rfl
  | cons p l ih => exact ih _
@[simp] theorem State.puts_syn (s : State) (l : List (Fld × Nat)) : (s.puts l).syn = s.syn := by
  induction l generalizing s with
  | nil => rfl
  | cons p l ih => exact ih _
@[simp] theorem State.puts_fifos (s : State) (l : List (Fld × Nat)) : (s.puts l).fifos = s.fifos := by
  induction l generalizing s with
  | nil => rfl
  | cons p l ih => exact ih _
@[simp] theorem State.puts_runners (s : State) (l : List (Fld × Nat)) : (s.puts l).runners = s.runners := by
  induction l generalizing s with
  | nil => rfl
  | cons p l ih => exact ih _
@[simp] theorem State.puts_pwr (s : State) (l : List (Fld × Nat)) : (s.puts l).pwr = s.pwr := by
  induction l generalizing s with
  | nil => rfl
  | cons p l ih => exact ih _
@[simp] theorem State.puts_ctx (s : State) (l : List (Fld × Nat)) : (s.puts l).ctx = s.ctx := by
  induction l generalizing s with
  | nil => rfl
  | cons p l ih => exact ih _
@[simp] theorem State.puts_brg (s : State) (l : List (Fld × Nat)) : (s.puts l).brg = s.brg := by
  induction l generalizing s with
  | nil => rfl
  | cons p l ih => exact ih _
@[simp] theorem State.puts_edg (s : State) (l : List (Fld × Nat)) : (s.puts l).edg = s.edg := by
  induction l generalizing s with
  | nil => rfl
  | cons p l ih => exact ih _
@[simp] theorem State.puts_leave (s : State) (l : List (Fld × Nat)) : (s.puts l).leave = s.leave := by
  induction l generalizing s with
  | nil => rfl
  | cons p l ih => exact ih _
@[simp] theorem State.puts_masked (s : State) (l : List (Fld × Nat)) : (s.puts l).masked = s.masked := by
  induction l generalizing s with
  | nil => rfl
  | cons p l ih => exact ih _
@[simp] theorem State.puts_tx (s : State) (l : List (Fld × Nat)) : (s.puts l).tx = s.tx := by
  induction l generalizing s with
  | nil => rfl
  | cons p l ih => exact ih _
@[simp] theorem State.puts_mgt (s : State) (l : List (Fld × Nat)) : (s.puts l).mgt = s.mgt := by
  induction l generalizing s with
  | nil => rfl
  | cons p l ih => exact ih _
@[simp] theorem State.puts_cmx (s : State) (l : List (Fld × Nat)) : (s.puts l).cmx = s.cmx := by
  induction l generalizing s with
  | nil => rfl
  | cons p l ih => exact ih _
@[simp] theorem State.puts_boot (s : State) (l : List (Fld × Nat)) : (s.puts l).boot = s.boot := by
  induction l generalizing s with
  | nil => rfl
  | cons p l ih => exact ih _
@[simp] theorem State.puts_test (s : State) (l : List (Fld × Nat)) : (s.puts l).test = s.test := by
  induction l generalizing s with
  | nil => rfl
  | cons p l ih => exact ih _
@[simp] theorem State.puts_counted (s : State) (l : List (Fld × Nat)) : (s.puts l).counted = s.counted := by
  induction l generalizing s with
  | nil => rfl
  | cons p l ih => exact ih _
@[simp] theorem State.puts_hfp (s : State) (l : List (Fld × Nat)) : (s.puts l).hfp = s.hfp := by
  induction l generalizing s with
  | nil => rfl
  | cons p l ih => exact ih _

/-! What the one part becomes -/

@[simp] theorem State.at'_agenda (s : State) (c : Clock) (n : Nat) (i : Instr) : (s.at' c n i).agenda = s.agenda ++ [{ clk := c, due := n, cmd := i }] := rfl
@[simp] theorem State.later_agenda (s : State) (c : Clock) (n : Nat) (i : Instr) : (s.later c n i).agenda = s.agenda ++ [{ clk := c, due := s.clock c + n, cmd := i }] := rfl
@[simp] theorem State.useFree_freeCtr (s : State) : s.useFree.freeCtr = s.freeCtr + 1 := rfl
@[simp] theorem State.err_detected (s : State) (e : ErrRec) : (s.err e).detected = s.detected ++ [{ e with time := s.now }] := rfl
@[simp] theorem State.fresh_nextId (s : State) : s.fresh.loose.nextId = s.loose.nextId + 8 := rfl

end Sys2Proof.Machine
end

