-- ==== Sys2Proof/WellFormed.lean ====
section
/-! DEFINITION. What a command needs to be well formed beyond the bounds its operand types carry: the lengths of the data its wires
and packets carry. A command that breaks a check stands for nothing the block's wires can carry. -/
namespace Sys2Proof

/-- Is an item of a slot a flit? At most one fits (R528). -/
def isFlit : SlotItem → Bool
  | .setFlit _ => true
  | .looseFlit _ => true
  | .beginMark _ _ | .endMark _ _ | .replay _ _ _ | .laneDown _ _ | .beacon _ _ | .stretch _ | .startMark _ _ | .signal _ | .side _ _ | .credit _ | .ack _ | .nak _ | .share => false

/-- Is an item a sync signal? At most two fit (R528). -/
def isSignal : SlotItem → Bool
  | .signal _ => true
  | .setFlit _ | .looseFlit _ | .beginMark _ _ | .endMark _ _ | .replay _ _ _ | .laneDown _ _ | .beacon _ _ | .stretch _ | .startMark _ _ | .side _ _ | .credit _ | .ack _ | .nak _ | .share => false

/-- A wire slot holds at most one flit and two signals (R528). -/
def slotWf (x : WireSlot) : Bool := decide ((x.items.filter isFlit).length ≤ 1) && decide ((x.items.filter isSignal).length ≤ 2)

/-- A Hallmark is twelve words; none is a changing notice (R588, R594). -/
def markWf (m : Option (List W32)) : Bool :=
  match m with
  | none => true
  | some l => decide (l.length = 12)

/-- A packet whose length agrees with its beats and with LEN, of at most 256 payload bytes (R549). -/
def packetWf (p : Packet) : Bool :=
  decide (p.payload.length ≤ 256) && decide (p.len.toNat = p.payload.length) && decide (p.beatBytes = 48 + p.payload.length)

/-- A BIST stage reports each of its cabinets once, and no macro twice for one row (R580). -/
def foundWf (l : List BistCab) : Bool := decide ((l.map (fun x => x.cab)).Nodup) && l.all (fun x => decide x.fails.Nodup)

/-- The checks on a command. -/
def Instr.wf (i : Instr) : Bool :=
  match i with
  | .wwpIssue _ _ data _ _ => data.length = 8
  | .npRequest _ _ _ _ _ data _ => data.held.length = 2
  | .hfpPush _ _ data _ _ _ => data.length = 8
  | .wireSlotReceive _ slot _ => slotWf slot
  | .edgeHello _ pkt => packetWf pkt && decide (pkt.payload.length = 64)
  | .edgeKeepalive _ pkt => packetWf pkt && decide (pkt.payload.length = 0)
  | .edgeWrite _ pkt => packetWf pkt && decide (1 ≤ pkt.payload.length)
  | .edgeInc _ pkt => packetWf pkt && decide (pkt.payload.length = 0)
  | .edgeRead _ pkt => packetWf pkt && decide (pkt.payload.length = 0)
  | .edgeAck _ pkt => packetWf pkt && decide (pkt.payload.length = 0)
  | .edgeReadRsp _ pkt => packetWf pkt
  | .bistStageEnd found => foundWf found
  | .roundMessage _ _ mark => markWf mark
  | .hdpRequest _ _ _ data _ _ => data.length = 2
  | .edgeMalformedPacket _ pkt => decide (pkt.payload.length ≤ pkt.beatBytes)
  | .registerWrite _ _ _
  | .rcRead _ _
  | .loReadLatch _ _
  | .pairLoWrite _ _ _
  | .pairHiWrite _ _ _
  | .cmapCtlWrite _ _
  | .cmapEntryWrite _ _ _ _
  | .setFlitHop _
  | .flitArrival _
  | .landingRelease _ _
  | .freezeStart _
  | .freezeFinish _
  | .frzReqChange _
  | .frzCtlWrite _ _
  | .freezeBeginMark _ _ _
  | .freezeEndMark _ _ _
  | .stepMark _ _
  | .stepRelease _
  | .replayNotice _ _ _ _
  | .replayRestart _
  | .sbcOpenWrite _ _ _ _ _
  | .sbcOpenRead _ _ _ _ _
  | .sbcClose _ _
  | .rangeHoldEnd _ _
  | .heldAccessRelease _ _
  | .sbdModeWrite _ _ _
  | .wrpLookahead _ _
  | .wrpIssue _ _ _
  | .wrpDelivery _ _
  | .remoteReadInject _ _
  | .wwpLookahead _ _
  | .wwpResponse _
  | .remoteWriteInject _ _
  | .landingLookahead _ _
  | .npCompletion _ _ _
  | .hfpPop _ _ _
  | .hfpDrop _ _
  | .presentChange _ _
  | .pairArbitration _ _
  | .looseBurstDone _ _
  | .requestUrgent _ _
  | .arbPrioWrite _ _ _
  | .arbAgeWrite _ _ _
  | .arbCntClr _ _ _
  | .linkOutputGrant _ _
  | .looseFlitHop _
  | .autoRetire _ _ _
  | .retireWrite _ _ _ _
  | .bucketDrip _
  | .bktCfgWrite _ _ _
  | .injCtlWrite _ _ _
  | .bnkCntClr _ _ _
  | .swpGo _ _ _
  | .sweepRangeDone _
  | .logAck _ _ _
  | .logClrAll _ _ _
  | .assayGo _ _ _
  | .assayBurst _
  | .assayRepair _
  | .assayAbort _ _ _
  | .assayDone _
  | .remapAdd _ _ _
  | .remapMove _
  | .fenceCmd _ _
  | .fencePendClear _ _ _
  | .fenceTakeEffect _
  | .fenceQuench _
  | .stationPoll _ _
  | .pollMissed _
  | .controlAccessTimeout _
  | .detWrite _ _ _
  | .engineSignal _ _ _ _
  | .waitRegister _ _ _ _
  | .waitCancel _ _
  | .signalLeave _
  | .signalBridgeRelease _
  | .signalApply _
  | .waiterFire _ _
  | .shadowUpdate _
  | .counterBind _ _ _
  | .counterUnbind _ _ _
  | .quietEnd _
  | .wakeEnWrite _ _ _
  | .synSignalWrite _ _ _
  | .setKeyWrite _ _ _
  | .setPathTimeout _
  | .counterSet _ _ _
  | .dumpGo _ _
  | .runnerListGo _ _ _ _
  | .descriptorFetch _ _
  | .descriptorStart _ _
  | .copy _ _
  | .fill _ _
  | .gather _ _
  | .scatter _ _
  | .mcast _ _
  | .fuse _ _
  | .engine _ _
  | .wait _ _
  | .signal _ _
  | .sweep _ _
  | .nop _ _
  | .segmentPresent _ _
  | .segmentAnswer _ _
  | .descriptorComplete _ _
  | .listComplete _ _
  | .cmplPop _ _ _ _
  | .runnerAbort _ _ _ _
  | .abortComplete _ _
  | .waitTimeout _ _
  | .handoverGrant _
  | .reservationAged _ _
  | .runnerWatchdog _ _
  | .esgAck _
  | .esgDone _ _
  | .stagePush _ _
  | .stagePop _ _
  | .mcastAck _ _ _
  | .mcastLapse _ _ _
  | .stealLook _ _
  | .stealArrive _ _
  | .fifoItemFall _ _
  | .fifoNoticeSend _ _
  | .hffFlush _ _ _
  | .hffCfgWrite _ _ _ _
  | .ctxActivate _ _
  | .ctxDeactivate _ _
  | .ctxBind _ _
  | .ctxKill _ _
  | .killQuiesceEnd _
  | .killUnbind _
  | .eagWrite _ _ _
  | .windowBind _ _ _
  | .windowUnbind _ _ _
  | .windowRelease _ _ _
  | .windowCloseSettle _
  | .windowSweepDone _
  | .cmxRequest _ _ _ _ _
  | .targetArbitration _
  | .cmxResponse _
  | .lockedRead _ _ _
  | .mgtRemapWrite _ _ _
  | .doorbell _ _
  | .sqNop _
  | .sqActivate _
  | .sqDeactivate _
  | .sqBind _
  | .sqKill _
  | .sqWindow _
  | .sqRun _
  | .sqSync _
  | .sqFifo _
  | .sqAssay _
  | .sqFence _
  | .sqRemap _
  | .sqRetire _
  | .sqOppoint _
  | .sqPstate _
  | .sqStage _ _
  | .sqFwact _
  | .sqLogown _
  | .sqDump _
  | .completionPost _
  | .eventPost _
  | .hintSet _ _
  | .hintStatClear _ _
  | .wdtKick _ _ _
  | .watchdogExpiry _
  | .coreRestart _ _
  | .coreRelease _
  | .restartKickTimeout _
  | .mgtRestartWrite _ _
  | .mgtActWrite _ _
  | .probationEnd _
  | .recovery _ _
  | .selfHalt _ _
  | .resume _ _
  | .cabCmdRun _ _
  | .cabCmdDoze _ _
  | .cabCmdHold _ _
  | .cabCmdQuench _ _
  | .entryDrainEnd _
  | .drainTimeout _
  | .entryCommitEnd _
  | .dozeWakeDone _
  | .wakePowerDone _
  | .dieSleep _ _
  | .opChange _ _
  | .dieOpChange _
  | .opChangeDone _ _
  | .emergSet _ _
  | .emergClr _ _
  | .droopStretch _ _
  | .timSet _ _
  | .beaconReceive _ _ _
  | .nakReceive _ _
  | .slotDelivery _
  | .bridgeLate _
  | .laneSilent _
  | .laneDownNotice _ _ _
  | .laneTrain _ _
  | .laneOff _ _
  | .trainDone _ _
  | .drouteWrite _ _
  | .quarantineWindow _
  | .edgeLinkUp _
  | .edgeLinkDown _
  | .helloRepeat _
  | .keepaliveSend _
  | .partnerTimeout _
  | .edgePut _
  | .edgeGet _
  | .edgeIncCmd _
  | .edgePacketTimeout _
  | .txRspTimeout _
  | .partnerKeyGo _ _ _
  | .partnerClear _ _ _
  | .edgeEnWrite _ _ _
  | .edgeWake _
  | .powerOnReset _ _
  | .bootLock _ _
  | .stimeSync _ _
  | .startMarkReceive _ _ _
  | .dbgAccUpdate _ _ _ _ _
  | .debugHalt _ _
  | .mapRebuild
  | .ueWindowReset
  | .dumpDone
  | .submissionTake
  | .activationStart
  | .dieSleepCommitEnd
  | .rtcAlarmRise
  | .rtcAlarmFall
  | .thermTrip
  | .thermTripRelease
  | .dieWakeDone
  | .vidAckToggle
  | .vidTimeout
  | .leaveGrant
  | .clampFreeze
  | .powerEstimate
  | .clampEmergency
  | .compensatingStretch
  | .beaconSend
  | .beaconLoss
  | .porstFall
  | .hallmarkRound
  | .hdpCompletion
  | .tapIdcode
  | .tapIjtag
  | .tapBypass
  | .debugSessionOpen
  | .debugSessionClose
  | .dbgAccCapture
  | .hallmarkComputationEnd
  | .recoveryStart => true

/-- A command is well formed. -/
abbrev WellFormed (i : Instr) : Prop := i.wf = true

end Sys2Proof
end

