-- ==== Sys2Proof/Tests/Slice0.lean ====
section
/-! SUPPORT. Tests: a few steps on a small state, a command that each check of well-formedness refuses, and for each clause of the
obligations a state and operands that meet its hypotheses. -/

open Sys2Proof Sys2Proof.Machine

section Checks
set_option Elab.async false
set_option linter.all false
set_option synthInstance.maxHeartbeats 2000000
set_option synthInstance.maxSize 100000

/-- A die after start-up: logical cabinets 0 and 1 on the physical ones, every port of cabinet 0 present, context 2 bound to it with a window over the die. -/
def rig : State :=
  { State.reset with regs := [(256, 63), (536870980, 131328), (536870984, 514), (536871168, 32768), (536871172, 32769), (537002240, 858993408), (537198852, 262143), (537198856, 255), (537198860, 33), (537264392, 2), (537265152, 18)] }

/-- The fields those registers hold. -/
theorem test_rig : rig = State.reset.puts ([(R.IDV_CONF_DIES, 1), (R.IDV_CONF_NUM_CAB, 2), (R.IDV_CMAP_CTL_G0_LOG, 2), (mapValid 0 0, 1), (mapPhys 0 1, 1), (mapValid 0 1, 1),
    (R.CTX_EAG_V 0, 1), (R.CTX_EAG_CTX 0, 2), (R.CTX_STAT_STATE 2, 2), (R.WIN_PART_B_LIMIT 0, 131071), (R.WIN_PART_B_VALID 0, 1),
    (R.WIN_STATE_STATE 0, 1), (R.WIN_STATE_CTX 0, 2), (cabState 0, 0), (cabState 1, 0)] ++ (List.range 8).map (fun i => (bitFld (R.WIN_PART_C 0) i, 1)) ++
    [(R.CAB_PORT_STAT_P_SEQ 0, 1), (R.CAB_PORT_STAT_P_WRP 0, 1), (R.CAB_PORT_STAT_P_WWP 0, 1), (R.CAB_PORT_STAT_P_NP0 0, 1), (R.CAB_PORT_STAT_P_NP1 0, 1), (R.CAB_PORT_STAT_P_HFP 0, 1)]) := by decide +kernel
theorem imgField_image (s : State) (off k : Nat) (h : off + k ≤ 0x40000) :
    imgField s.imageBytes off k = leNat ((List.range k).map (fun i => s.cell (flash 0 + (off + i)))) := by
  have e : (s.imageBytes.drop off).take k = (List.range k).map (fun i => s.cell (flash 0 + (off + i))) := by
    apply List.ext_getElem
    · simp [State.imageBytes, State.cells]; omega
    · intro i h1 h2
      simp [State.imageBytes, State.cells]
  rw [imgField, e]
theorem imageFail_magic (s : State) (b : List Byte) (sig : Bool) (h : imgField b 0 4 ≠ 0x4E394349) :
    s.imageFail b sig = some (2, 0) := by
  unfold State.imageFail badHeader
  simp only [h, decide_false, List.findSome?_cons, List.cons_append, Bool.false_eq_true, if_false, Option.map_some]
  rfl

/-! A few values of the spec's own examples. -/

/-- R22 to R30, worked example of chapter 1: address 0x294B_C667. -/
theorem test_address_fields : faDie 0x294BC667 = 1 ∧ faCab 0x294BC667 = 37 ∧ faRow 0x294BC667 = 753 ∧ faBank 0x294BC667 = 19 := by decide

/-- The same example: cabinet 37 is in cluster 1 and clock region 5. -/
theorem test_cabinet_37 : cluster 37 = 1 ∧ clkRegion 37 = 5 := by decide

/-- R178: the constant is the inverse of α^16 + α^17. -/
theorem test_inverse_constant : gfMul gfC16Inv (gfAlpha 16 ^^^ gfAlpha 17) = 1 := by decide +kernel

/-- Worked example of chapter 5, order 3: an error 0x0040 in symbol 5 of a zero word is corrected there. -/
theorem test_single_error : decodeSyms false [] (symAdd (List.replicate 18 0) 5 0x40) = { ok := true, word := 0, pos := some 5, s0 := 0x40, s1 := 0x800 } := by decide +kernel

/-- The same example, order 6: with macro 5 retired an error in symbol 9 is uncorrectable. -/
theorem test_error_beside_retired : decodeSyms false [5] (symAdd (List.replicate 18 0) 9 1) = { ok := false, word := 0, pos := none, s0 := 1, s1 := 0x200 } := by decide +kernel

/-- Worked example of chapter 16: VERSION reads 0x0003_0200, and offset 0x0018 of IDV holds no register. -/
theorem test_version : State.reset.view R.IDV_VERSION = 0x00030200 ∧ State.reset.caDecode 0x1FC00018 = none := by decide +kernel

/-- The table gives no row bits: no word spells a command (spec/opcode_table.json). -/
theorem test_no_word : decodeTableWord 32 0 = none := rfl

/-- A packet with a LEN and a payload. -/
def testPacket (n : BitVec 16) (l : List Byte) : Packet :=
  { typ := 3, status := 0, len := n, seq := 0, serial := 0, die := 0, gw := 0, epoch := 0, reqId := 0, addr := 0, arg := 0, payload := l, beatBytes := 48 + l.length, tagOk := true }

/-! A command that each check of well-formedness refuses -/

theorem test_wwp_issue_ill : (Instr.wwpIssue 0 0 [] 0 false).wf = false := by decide
theorem test_np_request_ill : (Instr.npRequest 0 0 true 0 0 ⟨[0], false⟩ 0).wf = false := by decide
theorem test_hfp_push_ill : (Instr.hfpPush 0 0 [] true true false).wf = false := by decide
theorem test_hdp_request_ill : (Instr.hdpRequest true 0 0 [] 0 0).wf = false := by decide
theorem test_wire_slot_ill : (Instr.wireSlotReceive 0 { seq := 0, stime := 0, items := [.signal { id := 8, src := .engine 0, die := 0, ctx := some 2, cn := 5, inc := 3, drain := [], place := .net, since := 0 }, .signal { id := 8, src := .engine 0, die := 0, ctx := some 2, cn := 5, inc := 3, drain := [], place := .net, since := 0 }, .signal { id := 8, src := .engine 0, die := 0, ctx := some 2, cn := 5, inc := 3, drain := [], place := .net, since := 0 }] } true).wf = false := by decide
theorem test_round_message_ill : (Instr.roundMessage 0 1 (some [0])).wf = false := by decide
theorem test_bist_ill : (Instr.bistStageEnd [{ cab := 0, validBad := false, spareBad := false, fails := [] }, { cab := 0, validBad := true, spareBad := false, fails := [] }]).wf = false := by decide
theorem test_packet_len_ill : (Instr.edgeKeepalive 0 (testPacket 1 [])).wf = false := by decide
theorem test_hello_ill : (Instr.edgeHello 0 (testPacket 0 [])).wf = false := by decide
theorem test_write_ill : (Instr.edgeWrite 0 (testPacket 0 [])).wf = false := by decide
theorem test_read_ill : (Instr.edgeRead 0 (testPacket 1 [7])).wf = false ∧ (Instr.edgeInc 0 (testPacket 1 [7])).wf = false ∧ (Instr.edgeAck 0 (testPacket 1 [7])).wf = false ∧ (Instr.edgeKeepalive 0 (testPacket 1 [7])).wf = false := by decide
theorem test_read_rsp_ill : (Instr.edgeReadRsp 0 (testPacket 5 [7])).wf = false := by decide
theorem test_malformed_ill : (Instr.edgeMalformedPacket 0 { testPacket 0 [7] with beatBytes := 0 }).wf = false := by decide
theorem test_write_well : (Instr.edgeWrite 0 (testPacket 1 [7])).wf = true := by decide

theorem witness_stepRunsFrontCommand : ({ rig with pending := [.hintSet .sec 1] } : State).pending = .hintSet .sec 1 :: [] := rfl

theorem witness_anEmptyQueueTakesDueEffectsOrTime_due : (rig.later .wall 0 (.presentChange .hrp true)).pending = [] ∧ (rig.later .wall 0 (.presentChange .hrp true)).dueNow ≠ [] := by decide +kernel
theorem witness_anEmptyQueueTakesDueEffectsOrTime_time : rig.pending = [] ∧ rig.dueNow = [] := by decide +kernel
theorem witness_anEmptyQueueTakesDueEffectsOrTime_frozen : (rig.put R.LCT_FRZ_STAT_FROZEN 1).dueNow = [] ∧ (rig.put R.LCT_FRZ_STAT_FROZEN 1).frozen = true := by decide +kernel



theorem witness_everyStepKeepsCanonicalForm : rig.canonical ∧ step rig = .next rig.idle := ⟨by unfold State.canonical; decide +kernel, rfl⟩



theorem witness_commandsKeepWhatTheyDoNotTouch : exec (.stationPoll 0 true) rig = .next (ran rig (exec (.stationPoll 0 true) rig)) ∧ Part.mem ∉ touches (.stationPoll 0 true) := ⟨rfl, by decide⟩

theorem witness_mastersKeepTheirPairSequences : Instr.registerWrite .sec 0 0 ∈ [Instr.registerWrite .sec 0 0, .rcRead .sec 0, .loReadLatch .sec 0, .pairLoWrite .sec 0 0, .pairHiWrite .sec 0 0] ∧ exec (.registerWrite .sec 0 0) rig = .next (ran rig (exec (.registerWrite .sec 0 0) rig)) := ⟨List.mem_cons_self, by unfold exec ran; rfl⟩

theorem witness_mapWritesOfOtherMastersAreLogged : Master.hrp ≠ Master.sec := by decide

theorem witness_routesTakeTheHopDistance : (∀ p, p < 128 → ({ (rig.put R.HLM_BOOT_CTL_BOOT_LOCK 1) with rep := { rig.rep with startSet := List.range 128 } } : State).fenced p = false ∧ ({ (rig.put R.HLM_BOOT_CTL_BOOT_LOCK 1) with rep := { rig.rep with startSet := List.range 128 } } : State).absent p = false) ∧
    16 * 3 + 2 ≠ 16 * 0 + 15 := by decide +kernel

theorem witness_storedWordsAreCorrected : 17 < 18 ∧ (1 : Sym) ≠ 0 := by decide

theorem witness_rangeEntriesOpenCloseAndEmpty_sbcOpenWrite :
    ((State.reset.put (R.CAB_PORT_STAT_P_SEQ 0) 1 : State).bit (R.CAB_PORT_STAT_P_SEQ (0 : Cab)) = true) ∧
    ((State.reset.put (R.CAB_PORT_STAT_P_SEQ 0) 1 : State).frozen = false) ∧
    ((State.reset.put (R.CAB_PORT_STAT_P_SEQ 0) 1 : State).discards ((State.reset.put (R.CAB_PORT_STAT_P_SEQ 0) 1 : State).eag (0 : Cab)) = false) ∧
    ((State.reset.put (R.CAB_PORT_STAT_P_SEQ 0) 1 : State).bit (R.SBD_ENT_A_OPEN (0 : Cab) (31 : Fin 32)) = false) ∧
    ((131072 : BitVec 18).toNat ≠ 0) ∧
    ((131072 : BitVec 18).toNat ≤ 131072) ∧
    ((0 : BitVec 17).toNat ≤ (131071 : BitVec 17).toNat) ∧
    ((State.reset.put (R.CAB_PORT_STAT_P_SEQ 0) 1 : State).replaying ((State.reset.put (R.CAB_PORT_STAT_P_SEQ 0) 1 : State).eag (0 : Cab)) = false) := by decide +kernel

theorem witness_rangeEntriesOpenCloseAndEmpty_sbcOpenRead :
    ((State.reset.put (R.CAB_PORT_STAT_P_SEQ 0) 1 : State).bit (R.CAB_PORT_STAT_P_SEQ (0 : Cab)) = true) ∧
    ((State.reset.put (R.CAB_PORT_STAT_P_SEQ 0) 1 : State).frozen = false) ∧
    ((State.reset.put (R.CAB_PORT_STAT_P_SEQ 0) 1 : State).discards ((State.reset.put (R.CAB_PORT_STAT_P_SEQ 0) 1 : State).eag (0 : Cab)) = false) ∧
    ((State.reset.put (R.CAB_PORT_STAT_P_SEQ 0) 1 : State).bit (R.SBD_ENT_A_OPEN (0 : Cab) (31 : Fin 32)) = false) ∧
    ((131072 : BitVec 18).toNat ≠ 0) ∧
    ((131072 : BitVec 18).toNat ≤ 131072) ∧
    ((0 : BitVec 17).toNat ≤ (131071 : BitVec 17).toNat) ∧
    ((State.reset.put (R.CAB_PORT_STAT_P_SEQ 0) 1 : State).replaying ((State.reset.put (R.CAB_PORT_STAT_P_SEQ 0) 1 : State).eag (0 : Cab)) = false) := by decide +kernel

theorem witness_rangeEntriesOpenCloseAndEmpty_sbcClose :
    ((State.reset.put (R.CAB_PORT_STAT_P_SEQ 127) 1 : State).bit (R.CAB_PORT_STAT_P_SEQ (127 : Cab)) = true) ∧
    ((State.reset.put (R.CAB_PORT_STAT_P_SEQ 127) 1 : State).frozen = false) ∧
    ((State.reset.put (R.CAB_PORT_STAT_P_SEQ 127) 1 : State).discards ((State.reset.put (R.CAB_PORT_STAT_P_SEQ 127) 1 : State).eag (127 : Cab)) = false) := by decide +kernel

theorem witness_rangeEntriesOpenCloseAndEmpty_rangeHoldEnd :
    (({ State.reset with set := { State.reset.set with ending := [(3, 4, 0)] } } : State).frozen = false) ∧
    (((3 : Cab).val, (4 : Fin 32).val, (0 : Nat)) ∈ ({ State.reset with set := { State.reset.set with ending := [(3, 4, 0)] } } : State).set.ending) ∧
    ((0 : Nat) ≤ ({ State.reset with set := { State.reset.set with ending := [(3, 4, 0)] } } : State).time.stime) := by decide +kernel

theorem witness_rangeEntriesOpenCloseAndEmpty_sbdModeWrite :
    (((State.reset.put R.IDV_CONF_NUM_CAB 32).put (cabState 0) 0 : State).synth (0 : Cab) = true) ∧
    (((State.reset.put R.IDV_CONF_NUM_CAB 32).put (cabState 0) 0 : State).stationOf (0 : Cab) = .go) ∧
    (((State.reset.put R.IDV_CONF_NUM_CAB 32).put (cabState 0) 0 : State).f R.IDV_CONF_NUM_CAB ≤ 32) ∧
    (((State.reset.put R.IDV_CONF_NUM_CAB 32).put (cabState 0) 0 : State).sbdOpen (0 : Cab) = []) ∧
    (((State.reset.put R.IDV_CONF_NUM_CAB 32).put (cabState 0) 0 : State).rgsShut (masterIdx (Master.sec : Master)) = false) := by decide +kernel

theorem witness_rangeEntriesOpenCloseAndEmpty_sbdModeWrite_open :
    ((((State.reset.put R.IDV_CONF_NUM_CAB 1).put (R.SBD_ENT_A_OPEN 0 5) 1).put (cabState 0) 0 : State).synth (0 : Cab) = true) ∧
    ((((State.reset.put R.IDV_CONF_NUM_CAB 1).put (R.SBD_ENT_A_OPEN 0 5) 1).put (cabState 0) 0 : State).stationOf (0 : Cab) = .go) ∧
    ((((State.reset.put R.IDV_CONF_NUM_CAB 1).put (R.SBD_ENT_A_OPEN 0 5) 1).put (cabState 0) 0 : State).f R.IDV_CONF_NUM_CAB ≤ 32) ∧
    ((((State.reset.put R.IDV_CONF_NUM_CAB 1).put (R.SBD_ENT_A_OPEN 0 5) 1).put (cabState 0) 0 : State).sbdOpen (0 : Cab) ≠ []) ∧
    ((((State.reset.put R.IDV_CONF_NUM_CAB 1).put (R.SBD_ENT_A_OPEN 0 5) 1).put (cabState 0) 0 : State).rgsShut (masterIdx (Master.sec : Master)) = false) := by decide +kernel


theorem witness_lookAheadsClaimAndWideIssuesOccupy_wrpLookahead :
    ((State.reset.put (R.CAB_PORT_STAT_P_SEQ 0) 1 : State).bit (R.CAB_PORT_STAT_P_SEQ (0 : Cab)) = true) ∧
    ((State.reset.put (R.CAB_PORT_STAT_P_SEQ 0) 1 : State).frozen = false) ∧
    ((State.reset.put (R.CAB_PORT_STAT_P_SEQ 0) 1 : State).discards ((State.reset.put (R.CAB_PORT_STAT_P_SEQ 0) 1 : State).eag (0 : Cab)) = false) ∧
    ((State.reset.put (R.CAB_PORT_STAT_P_SEQ 0) 1 : State).holdHigh .wrp (0 : Cab) = false) := by decide +kernel

theorem witness_lookAheadsClaimAndWideIssuesOccupy_wwpLookahead :
    ((State.reset.put (R.CAB_PORT_STAT_P_SEQ 0) 1 : State).bit (R.CAB_PORT_STAT_P_SEQ (0 : Cab)) = true) ∧
    ((State.reset.put (R.CAB_PORT_STAT_P_SEQ 0) 1 : State).frozen = false) ∧
    ((State.reset.put (R.CAB_PORT_STAT_P_SEQ 0) 1 : State).discards ((State.reset.put (R.CAB_PORT_STAT_P_SEQ 0) 1 : State).eag (0 : Cab)) = false) ∧
    ((State.reset.put (R.CAB_PORT_STAT_P_SEQ 0) 1 : State).holdHigh .wwp (0 : Cab) = false) := by decide +kernel

theorem witness_lookAheadsClaimAndWideIssuesOccupy_landingLookahead :
    ((State.reset.put (R.CAB_PORT_STAT_P_SEQ 0) 1 : State).bit (R.CAB_PORT_STAT_P_SEQ (0 : Cab)) = true) ∧
    ((State.reset.put (R.CAB_PORT_STAT_P_SEQ 0) 1 : State).frozen = false) ∧
    ((State.reset.put (R.CAB_PORT_STAT_P_SEQ 0) 1 : State).discards ((State.reset.put (R.CAB_PORT_STAT_P_SEQ 0) 1 : State).eag (0 : Cab)) = false) ∧
    ((State.reset.put (R.CAB_PORT_STAT_P_SEQ 0) 1 : State).holdHigh .land (0 : Cab) = false) := by decide +kernel

theorem witness_lookAheadsClaimAndWideIssuesOccupy_wrpIssue :
    (({ rig with set := { rig.set with claims := [{ port := .wrp, cab := 0, grp := 0, at' := 0 }] } } : State).bit (R.CAB_PORT_STAT_P_WRP (0 : Cab)) = true) ∧
    (({ rig with set := { rig.set with claims := [{ port := .wrp, cab := 0, grp := 0, at' := 0 }] } } : State).frozen = false) ∧
    (({ rig with set := { rig.set with claims := [{ port := .wrp, cab := 0, grp := 0, at' := 0 }] } } : State).holdHigh .wrp (0 : Cab) = false) ∧
    (({ rig with set := { rig.set with claims := [{ port := .wrp, cab := 0, grp := 0, at' := 0 }] } } : State).discards (({ rig with set := { rig.set with claims := [{ port := .wrp, cab := 0, grp := 0, at' := 0 }] } } : State).eag (0 : Cab)) = false) ∧
    (({ rig with set := { rig.set with claims := [{ port := .wrp, cab := 0, grp := 0, at' := 0 }] } } : State).fenced (0 : Cab) = false) ∧
    (({ rig with set := { rig.set with claims := [{ port := .wrp, cab := 0, grp := 0, at' := 0 }] } } : State).target .set false (({ rig with set := { rig.set with claims := [{ port := .wrp, cab := 0, grp := 0, at' := 0 }] } } : State).eag (0 : Cab)) ((0 : BitVec 24).toNat * 256) = .at' (0 : Cab)) ∧
    (({ rig with set := { rig.set with claims := [{ port := .wrp, cab := 0, grp := 0, at' := 0 }] } } : State).pow (0 : Cab) = 0) ∧
    (({ rig with set := { rig.set with claims := [{ port := .wrp, cab := 0, grp := 0, at' := 0 }] } } : State).claimed .wrp (0 : Cab) (faGroup ((0 : BitVec 24).toNat * 256)) = true) ∧
    (({ rig with set := { rig.set with claims := [{ port := .wrp, cab := 0, grp := 0, at' := 0 }] } } : State).rangeHeld (0 : Cab) ((0 : BitVec 24).toNat * 256) false = false) ∧
    (({ rig with set := { rig.set with claims := [{ port := .wrp, cab := 0, grp := 0, at' := 0 }] } } : State).set.ops.filter (fun x => decide (x.cab = (0 : Cab).val) && decide (x.grp = faGroup ((0 : BitVec 24).toNat * 256)) && decide (({ rig with set := { rig.set with claims := [{ port := .wrp, cab := 0, grp := 0, at' := 0 }] } } : State).time.stime ≤ x.at' + 1)) = []) := by decide +kernel

theorem witness_lookAheadsClaimAndWideIssuesOccupy_wwpIssue :
    (({ rig with set := { rig.set with claims := [{ port := .wwp, cab := 0, grp := 0, at' := 0 }] } } : State).bit (R.CAB_PORT_STAT_P_WWP (0 : Cab)) = true) ∧
    (({ rig with set := { rig.set with claims := [{ port := .wwp, cab := 0, grp := 0, at' := 0 }] } } : State).frozen = false) ∧
    (({ rig with set := { rig.set with claims := [{ port := .wwp, cab := 0, grp := 0, at' := 0 }] } } : State).holdHigh .wwp (0 : Cab) = false) ∧
    (({ rig with set := { rig.set with claims := [{ port := .wwp, cab := 0, grp := 0, at' := 0 }] } } : State).discards (({ rig with set := { rig.set with claims := [{ port := .wwp, cab := 0, grp := 0, at' := 0 }] } } : State).eag (0 : Cab)) = false) ∧
    (({ rig with set := { rig.set with claims := [{ port := .wwp, cab := 0, grp := 0, at' := 0 }] } } : State).fenced (0 : Cab) = false) ∧
    (({ rig with set := { rig.set with claims := [{ port := .wwp, cab := 0, grp := 0, at' := 0 }] } } : State).target .set true (({ rig with set := { rig.set with claims := [{ port := .wwp, cab := 0, grp := 0, at' := 0 }] } } : State).eag (0 : Cab)) ((0 : BitVec 24).toNat * 256) = .at' (0 : Cab)) ∧
    (({ rig with set := { rig.set with claims := [{ port := .wwp, cab := 0, grp := 0, at' := 0 }] } } : State).pow (0 : Cab) = 0) ∧
    (({ rig with set := { rig.set with claims := [{ port := .wwp, cab := 0, grp := 0, at' := 0 }] } } : State).claimed .wwp (0 : Cab) (faGroup ((0 : BitVec 24).toNat * 256)) = true) ∧
    (({ rig with set := { rig.set with claims := [{ port := .wwp, cab := 0, grp := 0, at' := 0 }] } } : State).rangeHeld (0 : Cab) ((0 : BitVec 24).toNat * 256) true = false) ∧
    (({ rig with set := { rig.set with claims := [{ port := .wwp, cab := 0, grp := 0, at' := 0 }] } } : State).set.ops.filter (fun x => decide (x.cab = (0 : Cab).val) && decide (x.grp = faGroup ((0 : BitVec 24).toNat * 256)) && decide (({ rig with set := { rig.set with claims := [{ port := .wwp, cab := 0, grp := 0, at' := 0 }] } } : State).time.stime ≤ x.at' + 1)) = []) ∧
    (({ rig with set := { rig.set with claims := [{ port := .wwp, cab := 0, grp := 0, at' := 0 }] } } : State).replaying (({ rig with set := { rig.set with claims := [{ port := .wwp, cab := 0, grp := 0, at' := 0 }] } } : State).eag (0 : Cab)) = false) := by decide +kernel

theorem witness_lookAheadsClaimAndWideIssuesOccupy_wwpIssue_parity :
    (({ rig with set := { rig.set with claims := [{ port := .wwp, cab := 0, grp := 0, at' := 0 }] } } : State).bit (R.CAB_PORT_STAT_P_WWP (0 : Cab)) = true) ∧
    (({ rig with set := { rig.set with claims := [{ port := .wwp, cab := 0, grp := 0, at' := 0 }] } } : State).frozen = false) ∧
    (({ rig with set := { rig.set with claims := [{ port := .wwp, cab := 0, grp := 0, at' := 0 }] } } : State).discards (({ rig with set := { rig.set with claims := [{ port := .wwp, cab := 0, grp := 0, at' := 0 }] } } : State).eag (0 : Cab)) = false) := by decide +kernel

theorem witness_lookAheadsClaimAndWideIssuesOccupy_heldAccessRelease_wrp :
    (({ rig with set := { rig.set with holds := [{ id := 8, port := .wrp, cab := 0, addr := 0, dat := [], dly := 0, since := 0, upto := 0, rel := none }] } } : State).frozen = false) ∧
    (({ rig with set := { rig.set with holds := [{ id := 8, port := .wrp, cab := 0, addr := 0, dat := [], dly := 0, since := 0, upto := 0, rel := none }] } } : State).set.holds.find? (fun x => decide (x.cab = (0 : Cab).val) && decide (x.port = .wrp) && x.rel.isNone) = some ({ id := 8, port := .wrp, cab := 0, addr := 0, dat := [], dly := 0, since := 0, upto := 0, rel := none } : HoldReg)) ∧
    (({ rig with set := { rig.set with holds := [{ id := 8, port := .wrp, cab := 0, addr := 0, dat := [], dly := 0, since := 0, upto := 0, rel := none }] } } : State).rangeHeld (0 : Cab) ({ id := 8, port := .wrp, cab := 0, addr := 0, dat := [], dly := 0, since := 0, upto := 0, rel := none } : HoldReg).addr false = false) ∧
    (({ rig with set := { rig.set with holds := [{ id := 8, port := .wrp, cab := 0, addr := 0, dat := [], dly := 0, since := 0, upto := 0, rel := none }] } } : State).discards (({ rig with set := { rig.set with holds := [{ id := 8, port := .wrp, cab := 0, addr := 0, dat := [], dly := 0, since := 0, upto := 0, rel := none }] } } : State).eag (0 : Cab)) = false) ∧
    (({ rig with set := { rig.set with holds := [{ id := 8, port := .wrp, cab := 0, addr := 0, dat := [], dly := 0, since := 0, upto := 0, rel := none }] } } : State).replaying (({ rig with set := { rig.set with holds := [{ id := 8, port := .wrp, cab := 0, addr := 0, dat := [], dly := 0, since := 0, upto := 0, rel := none }] } } : State).eag (0 : Cab)) = false) ∧
    (({ rig with set := { rig.set with holds := [{ id := 8, port := .wrp, cab := 0, addr := 0, dat := [], dly := 0, since := 0, upto := 0, rel := none }] } } : State).slip (0 : Cab) .wrp + (({ rig with set := { rig.set with holds := [{ id := 8, port := .wrp, cab := 0, addr := 0, dat := [], dly := 0, since := 0, upto := 0, rel := none }] } } : State).time.stime - ({ id := 8, port := .wrp, cab := 0, addr := 0, dat := [], dly := 0, since := 0, upto := 0, rel := none } : HoldReg).upto) ≤ 8) ∧
    (((({ rig with set := { rig.set with holds := [{ id := 8, port := .wrp, cab := 0, addr := 0, dat := [], dly := 0, since := 0, upto := 0, rel := none }] } } : State).setSlip 0 .wrp 0).holdUpto 0 (fun p => decide (p = SetPort.wrp)) : State) = (({ rig with set := { rig.set with holds := [{ id := 8, port := .wrp, cab := 0, addr := 0, dat := [], dly := 0, since := 0, upto := 0, rel := none }] } } : State).setSlip (0 : Cab) .wrp (({ rig with set := { rig.set with holds := [{ id := 8, port := .wrp, cab := 0, addr := 0, dat := [], dly := 0, since := 0, upto := 0, rel := none }] } } : State).slip (0 : Cab) .wrp + (({ rig with set := { rig.set with holds := [{ id := 8, port := .wrp, cab := 0, addr := 0, dat := [], dly := 0, since := 0, upto := 0, rel := none }] } } : State).time.stime - ({ id := 8, port := .wrp, cab := 0, addr := 0, dat := [], dly := 0, since := 0, upto := 0, rel := none } : HoldReg).upto))).holdUpto (0 : Cab) (fun p => decide (p = SetPort.wrp))) := by decide +kernel

theorem witness_lookAheadsClaimAndWideIssuesOccupy_heldAccessRelease_wwp :
    (({ rig with set := { rig.set with holds := [{ id := 8, port := .wwp, cab := 0, addr := 0, dat := [], dly := 0, since := 0, upto := 0, rel := none }] } } : State).frozen = false) ∧
    (({ rig with set := { rig.set with holds := [{ id := 8, port := .wwp, cab := 0, addr := 0, dat := [], dly := 0, since := 0, upto := 0, rel := none }] } } : State).set.holds.find? (fun x => decide (x.cab = (0 : Cab).val) && decide (x.port = .wwp) && x.rel.isNone) = some ({ id := 8, port := .wwp, cab := 0, addr := 0, dat := [], dly := 0, since := 0, upto := 0, rel := none } : HoldReg)) ∧
    (({ rig with set := { rig.set with holds := [{ id := 8, port := .wwp, cab := 0, addr := 0, dat := [], dly := 0, since := 0, upto := 0, rel := none }] } } : State).rangeHeld (0 : Cab) ({ id := 8, port := .wwp, cab := 0, addr := 0, dat := [], dly := 0, since := 0, upto := 0, rel := none } : HoldReg).addr true = false) ∧
    (({ rig with set := { rig.set with holds := [{ id := 8, port := .wwp, cab := 0, addr := 0, dat := [], dly := 0, since := 0, upto := 0, rel := none }] } } : State).discards (({ rig with set := { rig.set with holds := [{ id := 8, port := .wwp, cab := 0, addr := 0, dat := [], dly := 0, since := 0, upto := 0, rel := none }] } } : State).eag (0 : Cab)) = false) ∧
    (({ rig with set := { rig.set with holds := [{ id := 8, port := .wwp, cab := 0, addr := 0, dat := [], dly := 0, since := 0, upto := 0, rel := none }] } } : State).replaying (({ rig with set := { rig.set with holds := [{ id := 8, port := .wwp, cab := 0, addr := 0, dat := [], dly := 0, since := 0, upto := 0, rel := none }] } } : State).eag (0 : Cab)) = false) ∧
    (({ rig with set := { rig.set with holds := [{ id := 8, port := .wwp, cab := 0, addr := 0, dat := [], dly := 0, since := 0, upto := 0, rel := none }] } } : State).slip (0 : Cab) .wwp + (({ rig with set := { rig.set with holds := [{ id := 8, port := .wwp, cab := 0, addr := 0, dat := [], dly := 0, since := 0, upto := 0, rel := none }] } } : State).time.stime - ({ id := 8, port := .wwp, cab := 0, addr := 0, dat := [], dly := 0, since := 0, upto := 0, rel := none } : HoldReg).upto) ≤ 8) ∧
    (((({ rig with set := { rig.set with holds := [{ id := 8, port := .wwp, cab := 0, addr := 0, dat := [], dly := 0, since := 0, upto := 0, rel := none }] } } : State).setSlip 0 .wwp 0).holdUpto 0 (fun p => decide (p = SetPort.wwp)) : State) = (({ rig with set := { rig.set with holds := [{ id := 8, port := .wwp, cab := 0, addr := 0, dat := [], dly := 0, since := 0, upto := 0, rel := none }] } } : State).setSlip (0 : Cab) .wwp (({ rig with set := { rig.set with holds := [{ id := 8, port := .wwp, cab := 0, addr := 0, dat := [], dly := 0, since := 0, upto := 0, rel := none }] } } : State).slip (0 : Cab) .wwp + (({ rig with set := { rig.set with holds := [{ id := 8, port := .wwp, cab := 0, addr := 0, dat := [], dly := 0, since := 0, upto := 0, rel := none }] } } : State).time.stime - ({ id := 8, port := .wwp, cab := 0, addr := 0, dat := [], dly := 0, since := 0, upto := 0, rel := none } : HoldReg).upto))).holdUpto (0 : Cab) (fun p => decide (p = SetPort.wwp))) := by decide +kernel

theorem witness_lookAheadsClaimAndWideIssuesOccupy_heldAccessRelease_parity :
    (({ rig with set := { rig.set with holds := [{ id := 8, port := .wwp, cab := 0, addr := 0, dat := [], dly := 0, since := 0, upto := 0, rel := none }] } } : State).frozen = false) ∧
    (({ rig with set := { rig.set with holds := [{ id := 8, port := .wwp, cab := 0, addr := 0, dat := [], dly := 0, since := 0, upto := 0, rel := none }] } } : State).set.holds.find? (fun x => decide (x.cab = (0 : Cab).val) && decide (x.port = .wwp) && x.rel.isNone) = some ({ id := 8, port := .wwp, cab := 0, addr := 0, dat := [], dly := 0, since := 0, upto := 0, rel := none } : HoldReg)) ∧
    (({ rig with set := { rig.set with holds := [{ id := 8, port := .wwp, cab := 0, addr := 0, dat := [], dly := 0, since := 0, upto := 0, rel := none }] } } : State).rangeHeld (0 : Cab) ({ id := 8, port := .wwp, cab := 0, addr := 0, dat := [], dly := 0, since := 0, upto := 0, rel := none } : HoldReg).addr true = false) ∧
    (({ rig with set := { rig.set with holds := [{ id := 8, port := .wwp, cab := 0, addr := 0, dat := [], dly := 0, since := 0, upto := 0, rel := none }] } } : State).discards (({ rig with set := { rig.set with holds := [{ id := 8, port := .wwp, cab := 0, addr := 0, dat := [], dly := 0, since := 0, upto := 0, rel := none }] } } : State).eag (0 : Cab)) = false) ∧
    (({ rig with set := { rig.set with holds := [{ id := 8, port := .wwp, cab := 0, addr := 0, dat := [], dly := 0, since := 0, upto := 0, rel := none }] } } : State).replaying (({ rig with set := { rig.set with holds := [{ id := 8, port := .wwp, cab := 0, addr := 0, dat := [], dly := 0, since := 0, upto := 0, rel := none }] } } : State).eag (0 : Cab)) = false) ∧
    (({ rig with set := { rig.set with holds := [{ id := 8, port := .wwp, cab := 0, addr := 0, dat := [], dly := 0, since := 0, upto := 0, rel := none }] } } : State).slip (0 : Cab) .wwp + (({ rig with set := { rig.set with holds := [{ id := 8, port := .wwp, cab := 0, addr := 0, dat := [], dly := 0, since := 0, upto := 0, rel := none }] } } : State).time.stime - ({ id := 8, port := .wwp, cab := 0, addr := 0, dat := [], dly := 0, since := 0, upto := 0, rel := none } : HoldReg).upto) ≤ 8) ∧
    (((({ rig with set := { rig.set with holds := [{ id := 8, port := .wwp, cab := 0, addr := 0, dat := [], dly := 0, since := 0, upto := 0, rel := none }] } } : State).setSlip 0 .wwp 0).holdUpto 0 (fun p => decide (p = SetPort.wwp)) : State) = (({ rig with set := { rig.set with holds := [{ id := 8, port := .wwp, cab := 0, addr := 0, dat := [], dly := 0, since := 0, upto := 0, rel := none }] } } : State).setSlip (0 : Cab) .wwp (({ rig with set := { rig.set with holds := [{ id := 8, port := .wwp, cab := 0, addr := 0, dat := [], dly := 0, since := 0, upto := 0, rel := none }] } } : State).slip (0 : Cab) .wwp + (({ rig with set := { rig.set with holds := [{ id := 8, port := .wwp, cab := 0, addr := 0, dat := [], dly := 0, since := 0, upto := 0, rel := none }] } } : State).time.stime - ({ id := 8, port := .wwp, cab := 0, addr := 0, dat := [], dly := 0, since := 0, upto := 0, rel := none } : HoldReg).upto))).holdUpto (0 : Cab) (fun p => decide (p = SetPort.wwp))) := by decide +kernel

theorem witness_lookAheadsClaimAndWideIssuesOccupy_heldAccessRelease_land :
    (({ rig with set := { rig.set with land := [{ cab := 1, f := { id := 8, kind := .wr, ctx := some 2, fmask := 0, fa := 0x400000, dat := [], zero := [], resp := .ok, due := 0, src := 0, srcDie := 0, from' := 0, dst := 1, dstDie := 0, cur := 1, enter := 0, hops := 0, det := none, issue := 8, lret := 0, rpl := false }, hold := some 0, arrived := 0 }] } } : State).frozen = false) ∧
    (({ rig with set := { rig.set with land := [{ cab := 1, f := { id := 8, kind := .wr, ctx := some 2, fmask := 0, fa := 0x400000, dat := [], zero := [], resp := .ok, due := 0, src := 0, srcDie := 0, from' := 0, dst := 1, dstDie := 0, cur := 1, enter := 0, hops := 0, det := none, issue := 8, lret := 0, rpl := false }, hold := some 0, arrived := 0 }] } } : State).set.land.filter (fun x => decide (x.cab = (1 : Cab).val) && x.hold.isSome) = [({ cab := 1, f := { id := 8, kind := .wr, ctx := some 2, fmask := 0, fa := 0x400000, dat := [], zero := [], resp := .ok, due := 0, src := 0, srcDie := 0, from' := 0, dst := 1, dstDie := 0, cur := 1, enter := 0, hops := 0, det := none, issue := 8, lret := 0, rpl := false }, hold := some 0, arrived := 0 } : Landed)]) ∧
    (({ cab := 1, f := { id := 8, kind := .wr, ctx := some 2, fmask := 0, fa := 0x400000, dat := [], zero := [], resp := .ok, due := 0, src := 0, srcDie := 0, from' := 0, dst := 1, dstDie := 0, cur := 1, enter := 0, hops := 0, det := none, issue := 8, lret := 0, rpl := false }, hold := some 0, arrived := 0 } : Landed).hold = some (0 : Nat)) ∧
    (({ rig with set := { rig.set with land := [{ cab := 1, f := { id := 8, kind := .wr, ctx := some 2, fmask := 0, fa := 0x400000, dat := [], zero := [], resp := .ok, due := 0, src := 0, srcDie := 0, from' := 0, dst := 1, dstDie := 0, cur := 1, enter := 0, hops := 0, det := none, issue := 8, lret := 0, rpl := false }, hold := some 0, arrived := 0 }] } } : State).rangeHeld (1 : Cab) ({ cab := 1, f := { id := 8, kind := .wr, ctx := some 2, fmask := 0, fa := 0x400000, dat := [], zero := [], resp := .ok, due := 0, src := 0, srcDie := 0, from' := 0, dst := 1, dstDie := 0, cur := 1, enter := 0, hops := 0, det := none, issue := 8, lret := 0, rpl := false }, hold := some 0, arrived := 0 } : Landed).f.fa (decide (({ cab := 1, f := { id := 8, kind := .wr, ctx := some 2, fmask := 0, fa := 0x400000, dat := [], zero := [], resp := .ok, due := 0, src := 0, srcDie := 0, from' := 0, dst := 1, dstDie := 0, cur := 1, enter := 0, hops := 0, det := none, issue := 8, lret := 0, rpl := false }, hold := some 0, arrived := 0 } : Landed).f.kind = SKind.wr)) = false) ∧
    (({ rig with set := { rig.set with land := [{ cab := 1, f := { id := 8, kind := .wr, ctx := some 2, fmask := 0, fa := 0x400000, dat := [], zero := [], resp := .ok, due := 0, src := 0, srcDie := 0, from' := 0, dst := 1, dstDie := 0, cur := 1, enter := 0, hops := 0, det := none, issue := 8, lret := 0, rpl := false }, hold := some 0, arrived := 0 }] } } : State).discards ({ cab := 1, f := { id := 8, kind := .wr, ctx := some 2, fmask := 0, fa := 0x400000, dat := [], zero := [], resp := .ok, due := 0, src := 0, srcDie := 0, from' := 0, dst := 1, dstDie := 0, cur := 1, enter := 0, hops := 0, det := none, issue := 8, lret := 0, rpl := false }, hold := some 0, arrived := 0 } : Landed).f.ctx = false) ∧
    (({ rig with set := { rig.set with land := [{ cab := 1, f := { id := 8, kind := .wr, ctx := some 2, fmask := 0, fa := 0x400000, dat := [], zero := [], resp := .ok, due := 0, src := 0, srcDie := 0, from' := 0, dst := 1, dstDie := 0, cur := 1, enter := 0, hops := 0, det := none, issue := 8, lret := 0, rpl := false }, hold := some 0, arrived := 0 }] } } : State).replaying ({ cab := 1, f := { id := 8, kind := .wr, ctx := some 2, fmask := 0, fa := 0x400000, dat := [], zero := [], resp := .ok, due := 0, src := 0, srcDie := 0, from' := 0, dst := 1, dstDie := 0, cur := 1, enter := 0, hops := 0, det := none, issue := 8, lret := 0, rpl := false }, hold := some 0, arrived := 0 } : Landed).f.ctx = false) ∧
    (({ rig with set := { rig.set with land := [{ cab := 1, f := { id := 8, kind := .wr, ctx := some 2, fmask := 0, fa := 0x400000, dat := [], zero := [], resp := .ok, due := 0, src := 0, srcDie := 0, from' := 0, dst := 1, dstDie := 0, cur := 1, enter := 0, hops := 0, det := none, issue := 8, lret := 0, rpl := false }, hold := some 0, arrived := 0 }] } } : State).slip (1 : Cab) .land + (({ rig with set := { rig.set with land := [{ cab := 1, f := { id := 8, kind := .wr, ctx := some 2, fmask := 0, fa := 0x400000, dat := [], zero := [], resp := .ok, due := 0, src := 0, srcDie := 0, from' := 0, dst := 1, dstDie := 0, cur := 1, enter := 0, hops := 0, det := none, issue := 8, lret := 0, rpl := false }, hold := some 0, arrived := 0 }] } } : State).time.stime - (0 : Nat)) ≤ 8) ∧
    (((({ rig with set := { rig.set with land := [{ cab := 1, f := { id := 8, kind := .wr, ctx := some 2, fmask := 0, fa := 0x400000, dat := [], zero := [], resp := .ok, due := 0, src := 0, srcDie := 0, from' := 0, dst := 1, dstDie := 0, cur := 1, enter := 0, hops := 0, det := none, issue := 8, lret := 0, rpl := false }, hold := some 0, arrived := 0 }] } } : State).setSlip 1 .land 0).holdUpto 1 (fun p => decide (p = SetPort.land)) : State) = (({ rig with set := { rig.set with land := [{ cab := 1, f := { id := 8, kind := .wr, ctx := some 2, fmask := 0, fa := 0x400000, dat := [], zero := [], resp := .ok, due := 0, src := 0, srcDie := 0, from' := 0, dst := 1, dstDie := 0, cur := 1, enter := 0, hops := 0, det := none, issue := 8, lret := 0, rpl := false }, hold := some 0, arrived := 0 }] } } : State).setSlip (1 : Cab) .land (({ rig with set := { rig.set with land := [{ cab := 1, f := { id := 8, kind := .wr, ctx := some 2, fmask := 0, fa := 0x400000, dat := [], zero := [], resp := .ok, due := 0, src := 0, srcDie := 0, from' := 0, dst := 1, dstDie := 0, cur := 1, enter := 0, hops := 0, det := none, issue := 8, lret := 0, rpl := false }, hold := some 0, arrived := 0 }] } } : State).slip (1 : Cab) .land + (({ rig with set := { rig.set with land := [{ cab := 1, f := { id := 8, kind := .wr, ctx := some 2, fmask := 0, fa := 0x400000, dat := [], zero := [], resp := .ok, due := 0, src := 0, srcDie := 0, from' := 0, dst := 1, dstDie := 0, cur := 1, enter := 0, hops := 0, det := none, issue := 8, lret := 0, rpl := false }, hold := some 0, arrived := 0 }] } } : State).time.stime - (0 : Nat)))).holdUpto (1 : Cab) (fun p => decide (p = SetPort.land))) ∧
    ((((({ rig with set := { rig.set with land := [{ cab := 1, f := { id := 8, kind := .wr, ctx := some 2, fmask := 0, fa := 0x400000, dat := [], zero := [], resp := .ok, due := 0, src := 0, srcDie := 0, from' := 0, dst := 1, dstDie := 0, cur := 1, enter := 0, hops := 0, det := none, issue := 8, lret := 0, rpl := false }, hold := some 0, arrived := 0 }] } } : State).setSlip 1 .land 0).holdUpto 1 (fun p => decide (p = SetPort.land))).release 1 ({ cab := 1, f := { id := 8, kind := .wr, ctx := some 2, fmask := 0, fa := 0x400000, dat := [], zero := [], resp := .ok, due := 0, src := 0, srcDie := 0, from' := 0, dst := 1, dstDie := 0, cur := 1, enter := 0, hops := 0, det := none, issue := 8, lret := 0, rpl := false }, hold := some 0, arrived := 0 }) true : State) = ((({ rig with set := { rig.set with land := [{ cab := 1, f := { id := 8, kind := .wr, ctx := some 2, fmask := 0, fa := 0x400000, dat := [], zero := [], resp := .ok, due := 0, src := 0, srcDie := 0, from' := 0, dst := 1, dstDie := 0, cur := 1, enter := 0, hops := 0, det := none, issue := 8, lret := 0, rpl := false }, hold := some 0, arrived := 0 }] } } : State).setSlip 1 .land 0).holdUpto 1 (fun p => decide (p = SetPort.land)) : State).release (1 : Cab) ({ cab := 1, f := { id := 8, kind := .wr, ctx := some 2, fmask := 0, fa := 0x400000, dat := [], zero := [], resp := .ok, due := 0, src := 0, srcDie := 0, from' := 0, dst := 1, dstDie := 0, cur := 1, enter := 0, hops := 0, det := none, issue := 8, lret := 0, rpl := false }, hold := some 0, arrived := 0 } : Landed) true) := by decide +kernel


theorem witness_widePortsAnswerOnTheirFc_wrpDelivery :
    (({ State.reset with set := { State.reset.set with delivs := [{ id := 8, cab := 1, due := 0, ctx := none, fa := 0, remote := false, got := true, dat := [], zero := [], resp := .ok, discard := false }] } } : State).frozen = false) ∧
    (({ State.reset with set := { State.reset.set with delivs := [{ id := 8, cab := 1, due := 0, ctx := none, fa := 0, remote := false, got := true, dat := [], zero := [], resp := .ok, discard := false }] } } : State).set.delivs.filter (fun e => decide (e.cab = (1 : Cab).val) && decide (e.due ≤ ({ State.reset with set := { State.reset.set with delivs := [{ id := 8, cab := 1, due := 0, ctx := none, fa := 0, remote := false, got := true, dat := [], zero := [], resp := .ok, discard := false }] } } : State).time.stime)) = [({ id := 8, cab := 1, due := 0, ctx := none, fa := 0, remote := false, got := true, dat := [], zero := [], resp := .ok, discard := false } : Deliv)]) ∧
    (({ id := 8, cab := 1, due := 0, ctx := none, fa := 0, remote := false, got := true, dat := [], zero := [], resp := .ok, discard := false } : Deliv).remote = false ∨ ({ id := 8, cab := 1, due := 0, ctx := none, fa := 0, remote := false, got := true, dat := [], zero := [], resp := .ok, discard := false } : Deliv).got = true) ∧
    (({ id := 8, cab := 1, due := 0, ctx := none, fa := 0, remote := false, got := true, dat := [], zero := [], resp := .ok, discard := false } : Deliv).resp ≠ .fault) ∧
    (({ id := 8, cab := 1, due := 0, ctx := none, fa := 0, remote := false, got := true, dat := [], zero := [], resp := .ok, discard := false } : Deliv).resp ≠ .asleep) := by decide +kernel

theorem witness_widePortsAnswerOnTheirFc_wrpDelivery_parity :
    (({ State.reset with set := { State.reset.set with delivs := [{ id := 8, cab := 1, due := 0, ctx := none, fa := 0, remote := false, got := true, dat := [], zero := [], resp := .ok, discard := false }] } } : State).frozen = false) ∧
    (({ State.reset with set := { State.reset.set with delivs := [{ id := 8, cab := 1, due := 0, ctx := none, fa := 0, remote := false, got := true, dat := [], zero := [], resp := .ok, discard := false }] } } : State).set.delivs.filter (fun e => decide (e.cab = (1 : Cab).val) && decide (e.due ≤ ({ State.reset with set := { State.reset.set with delivs := [{ id := 8, cab := 1, due := 0, ctx := none, fa := 0, remote := false, got := true, dat := [], zero := [], resp := .ok, discard := false }] } } : State).time.stime)) = [({ id := 8, cab := 1, due := 0, ctx := none, fa := 0, remote := false, got := true, dat := [], zero := [], resp := .ok, discard := false } : Deliv)]) ∧
    (({ id := 8, cab := 1, due := 0, ctx := none, fa := 0, remote := false, got := true, dat := [], zero := [], resp := .ok, discard := false } : Deliv).remote = false ∨ ({ id := 8, cab := 1, due := 0, ctx := none, fa := 0, remote := false, got := true, dat := [], zero := [], resp := .ok, discard := false } : Deliv).got = true) ∧
    (({ id := 8, cab := 1, due := 0, ctx := none, fa := 0, remote := false, got := true, dat := [], zero := [], resp := .ok, discard := false } : Deliv).resp ≠ .fault) ∧
    (({ id := 8, cab := 1, due := 0, ctx := none, fa := 0, remote := false, got := true, dat := [], zero := [], resp := .ok, discard := false } : Deliv).resp ≠ .asleep) := by decide +kernel

theorem witness_widePortsAnswerOnTheirFc_wwpResponse :
    (({ State.reset with set := { State.reset.set with wresps := [(1, 0, .ok, some 4)] } } : State).frozen = false) ∧
    (({ State.reset with set := { State.reset.set with wresps := [(1, 0, .ok, some 4)] } } : State).set.wresps.filter (fun w => decide (w.1 = (1 : Cab).val) && decide (w.2.1 ≤ ({ State.reset with set := { State.reset.set with wresps := [(1, 0, .ok, some 4)] } } : State).time.stime)) = [((1 : Cab).val, (0 : Nat), (.ok : Resp), (some 4 : Option Nat))]) ∧
    ((.ok : Resp) ≠ .fault) ∧
    ((.ok : Resp) ≠ .asleep) := by decide +kernel


theorem witness_setFlitsMoveOnTheirSlots_setFlitHop :
    (({ rig with set := { rig.set with flits := [{ id := 8, kind := .wr, ctx := some 2, fmask := 0, fa := 0x400000, dat := [], zero := [], resp := .ok, due := 0, src := 0, srcDie := 0, from' := 0, dst := 1, dstDie := 0, cur := 0, enter := 0, hops := 0, det := none, issue := 8, lret := 0, rpl := false }] } } : State).readySet (8 : Nat) = some ({ id := 8, kind := .wr, ctx := some 2, fmask := 0, fa := 0x400000, dat := [], zero := [], resp := .ok, due := 0, src := 0, srcDie := 0, from' := 0, dst := 1, dstDie := 0, cur := 0, enter := 0, hops := 0, det := none, issue := 8, lret := 0, rpl := false } : SFlit)) ∧
    (({ rig with set := { rig.set with flits := [{ id := 8, kind := .wr, ctx := some 2, fmask := 0, fa := 0x400000, dat := [], zero := [], resp := .ok, due := 0, src := 0, srcDie := 0, from' := 0, dst := 1, dstDie := 0, cur := 0, enter := 0, hops := 0, det := none, issue := 8, lret := 0, rpl := false }] } } : State).frozen = false) ∧
    (({ id := 8, kind := .wr, ctx := some 2, fmask := 0, fa := 0x400000, dat := [], zero := [], resp := .ok, due := 0, src := 0, srcDie := 0, from' := 0, dst := 1, dstDie := 0, cur := 0, enter := 0, hops := 0, det := none, issue := 8, lret := 0, rpl := false } : SFlit).cur ≠ ({ id := 8, kind := .wr, ctx := some 2, fmask := 0, fa := 0x400000, dat := [], zero := [], resp := .ok, due := 0, src := 0, srcDie := 0, from' := 0, dst := 1, dstDie := 0, cur := 0, enter := 0, hops := 0, det := none, issue := 8, lret := 0, rpl := false } : SFlit).dst) ∧
    (({ rig with set := { rig.set with flits := [{ id := 8, kind := .wr, ctx := some 2, fmask := 0, fa := 0x400000, dat := [], zero := [], resp := .ok, due := 0, src := 0, srcDie := 0, from' := 0, dst := 1, dstDie := 0, cur := 0, enter := 0, hops := 0, det := none, issue := 8, lret := 0, rpl := false }] } } : State).lastRouter ({ id := 8, kind := .wr, ctx := some 2, fmask := 0, fa := 0x400000, dat := [], zero := [], resp := .ok, due := 0, src := 0, srcDie := 0, from' := 0, dst := 1, dstDie := 0, cur := 0, enter := 0, hops := 0, det := none, issue := 8, lret := 0, rpl := false } : SFlit).cur ({ id := 8, kind := .wr, ctx := some 2, fmask := 0, fa := 0x400000, dat := [], zero := [], resp := .ok, due := 0, src := 0, srcDie := 0, from' := 0, dst := 1, dstDie := 0, cur := 0, enter := 0, hops := 0, det := none, issue := 8, lret := 0, rpl := false } : SFlit).dst = false) ∧
    (({ rig with set := { rig.set with flits := [{ id := 8, kind := .wr, ctx := some 2, fmask := 0, fa := 0x400000, dat := [], zero := [], resp := .ok, due := 0, src := 0, srcDie := 0, from' := 0, dst := 1, dstDie := 0, cur := 0, enter := 0, hops := 0, det := none, issue := 8, lret := 0, rpl := false }] } } : State).setHop ({ id := 8, kind := .wr, ctx := some 2, fmask := 0, fa := 0x400000, dat := [], zero := [], resp := .ok, due := 0, src := 0, srcDie := 0, from' := 0, dst := 1, dstDie := 0, cur := 0, enter := 0, hops := 0, det := none, issue := 8, lret := 0, rpl := false } : SFlit).fmask ({ id := 8, kind := .wr, ctx := some 2, fmask := 0, fa := 0x400000, dat := [], zero := [], resp := .ok, due := 0, src := 0, srcDie := 0, from' := 0, dst := 1, dstDie := 0, cur := 0, enter := 0, hops := 0, det := none, issue := 8, lret := 0, rpl := false } : SFlit).cur ({ id := 8, kind := .wr, ctx := some 2, fmask := 0, fa := 0x400000, dat := [], zero := [], resp := .ok, due := 0, src := 0, srcDie := 0, from' := 0, dst := 1, dstDie := 0, cur := 0, enter := 0, hops := 0, det := none, issue := 8, lret := 0, rpl := false } : SFlit).dst ({ id := 8, kind := .wr, ctx := some 2, fmask := 0, fa := 0x400000, dat := [], zero := [], resp := .ok, due := 0, src := 0, srcDie := 0, from' := 0, dst := 1, dstDie := 0, cur := 0, enter := 0, hops := 0, det := none, issue := 8, lret := 0, rpl := false } : SFlit).det = .take (1 : Nat) (1 : Nat) (none : Option Nat)) ∧
    (({ id := 8, kind := .wr, ctx := some 2, fmask := 0, fa := 0x400000, dat := [], zero := [], resp := .ok, due := 0, src := 0, srcDie := 0, from' := 0, dst := 1, dstDie := 0, cur := 0, enter := 0, hops := 0, det := none, issue := 8, lret := 0, rpl := false } : SFlit).hops + 1 ≤ hopDist ({ id := 8, kind := .wr, ctx := some 2, fmask := 0, fa := 0x400000, dat := [], zero := [], resp := .ok, due := 0, src := 0, srcDie := 0, from' := 0, dst := 1, dstDie := 0, cur := 0, enter := 0, hops := 0, det := none, issue := 8, lret := 0, rpl := false } : SFlit).from' ({ id := 8, kind := .wr, ctx := some 2, fmask := 0, fa := 0x400000, dat := [], zero := [], resp := .ok, due := 0, src := 0, srcDie := 0, from' := 0, dst := 1, dstDie := 0, cur := 0, enter := 0, hops := 0, det := none, issue := 8, lret := 0, rpl := false } : SFlit).dst + 16) ∧
    (({ rig with set := { rig.set with flits := [{ id := 8, kind := .wr, ctx := some 2, fmask := 0, fa := 0x400000, dat := [], zero := [], resp := .ok, due := 0, src := 0, srcDie := 0, from' := 0, dst := 1, dstDie := 0, cur := 0, enter := 0, hops := 0, det := none, issue := 8, lret := 0, rpl := false }] } } : State).set.slots.find? (fun x => decide (x.1 = ({ id := 8, kind := .wr, ctx := some 2, fmask := 0, fa := 0x400000, dat := [], zero := [], resp := .ok, due := 0, src := 0, srcDie := 0, from' := 0, dst := 1, dstDie := 0, cur := 0, enter := 0, hops := 0, det := none, issue := 8, lret := 0, rpl := false } : SFlit).cur) && decide (x.2.1 = (1 : Nat)) && decide (x.2.2.1 = ({ rig with set := { rig.set with flits := [{ id := 8, kind := .wr, ctx := some 2, fmask := 0, fa := 0x400000, dat := [], zero := [], resp := .ok, due := 0, src := 0, srcDie := 0, from' := 0, dst := 1, dstDie := 0, cur := 0, enter := 0, hops := 0, det := none, issue := 8, lret := 0, rpl := false }] } } : State).time.stime)) = none) := by decide +kernel

theorem witness_setFlitsMoveOnTheirSlots_remoteReadInject :
    (({ rig with set := { rig.set with flits := [{ id := 8, kind := .rdReq, ctx := some 2, fmask := 0, fa := 0x400000, dat := [], zero := [], resp := .ok, due := 0, src := 0, srcDie := 0, from' := 0, dst := 1, dstDie := 0, cur := 0, enter := 0, hops := 0, det := none, issue := 8, lret := 0, rpl := false }] } } : State).readySet (8 : Nat) = some ({ id := 8, kind := .rdReq, ctx := some 2, fmask := 0, fa := 0x400000, dat := [], zero := [], resp := .ok, due := 0, src := 0, srcDie := 0, from' := 0, dst := 1, dstDie := 0, cur := 0, enter := 0, hops := 0, det := none, issue := 8, lret := 0, rpl := false } : SFlit)) ∧
    (({ rig with set := { rig.set with flits := [{ id := 8, kind := .rdReq, ctx := some 2, fmask := 0, fa := 0x400000, dat := [], zero := [], resp := .ok, due := 0, src := 0, srcDie := 0, from' := 0, dst := 1, dstDie := 0, cur := 0, enter := 0, hops := 0, det := none, issue := 8, lret := 0, rpl := false }] } } : State).frozen = false) ∧
    (({ id := 8, kind := .rdReq, ctx := some 2, fmask := 0, fa := 0x400000, dat := [], zero := [], resp := .ok, due := 0, src := 0, srcDie := 0, from' := 0, dst := 1, dstDie := 0, cur := 0, enter := 0, hops := 0, det := none, issue := 8, lret := 0, rpl := false } : SFlit).cur ≠ ({ id := 8, kind := .rdReq, ctx := some 2, fmask := 0, fa := 0x400000, dat := [], zero := [], resp := .ok, due := 0, src := 0, srcDie := 0, from' := 0, dst := 1, dstDie := 0, cur := 0, enter := 0, hops := 0, det := none, issue := 8, lret := 0, rpl := false } : SFlit).dst) ∧
    (({ rig with set := { rig.set with flits := [{ id := 8, kind := .rdReq, ctx := some 2, fmask := 0, fa := 0x400000, dat := [], zero := [], resp := .ok, due := 0, src := 0, srcDie := 0, from' := 0, dst := 1, dstDie := 0, cur := 0, enter := 0, hops := 0, det := none, issue := 8, lret := 0, rpl := false }] } } : State).lastRouter ({ id := 8, kind := .rdReq, ctx := some 2, fmask := 0, fa := 0x400000, dat := [], zero := [], resp := .ok, due := 0, src := 0, srcDie := 0, from' := 0, dst := 1, dstDie := 0, cur := 0, enter := 0, hops := 0, det := none, issue := 8, lret := 0, rpl := false } : SFlit).cur ({ id := 8, kind := .rdReq, ctx := some 2, fmask := 0, fa := 0x400000, dat := [], zero := [], resp := .ok, due := 0, src := 0, srcDie := 0, from' := 0, dst := 1, dstDie := 0, cur := 0, enter := 0, hops := 0, det := none, issue := 8, lret := 0, rpl := false } : SFlit).dst = false) ∧
    (({ rig with set := { rig.set with flits := [{ id := 8, kind := .rdReq, ctx := some 2, fmask := 0, fa := 0x400000, dat := [], zero := [], resp := .ok, due := 0, src := 0, srcDie := 0, from' := 0, dst := 1, dstDie := 0, cur := 0, enter := 0, hops := 0, det := none, issue := 8, lret := 0, rpl := false }] } } : State).setHop ({ id := 8, kind := .rdReq, ctx := some 2, fmask := 0, fa := 0x400000, dat := [], zero := [], resp := .ok, due := 0, src := 0, srcDie := 0, from' := 0, dst := 1, dstDie := 0, cur := 0, enter := 0, hops := 0, det := none, issue := 8, lret := 0, rpl := false } : SFlit).fmask ({ id := 8, kind := .rdReq, ctx := some 2, fmask := 0, fa := 0x400000, dat := [], zero := [], resp := .ok, due := 0, src := 0, srcDie := 0, from' := 0, dst := 1, dstDie := 0, cur := 0, enter := 0, hops := 0, det := none, issue := 8, lret := 0, rpl := false } : SFlit).cur ({ id := 8, kind := .rdReq, ctx := some 2, fmask := 0, fa := 0x400000, dat := [], zero := [], resp := .ok, due := 0, src := 0, srcDie := 0, from' := 0, dst := 1, dstDie := 0, cur := 0, enter := 0, hops := 0, det := none, issue := 8, lret := 0, rpl := false } : SFlit).dst ({ id := 8, kind := .rdReq, ctx := some 2, fmask := 0, fa := 0x400000, dat := [], zero := [], resp := .ok, due := 0, src := 0, srcDie := 0, from' := 0, dst := 1, dstDie := 0, cur := 0, enter := 0, hops := 0, det := none, issue := 8, lret := 0, rpl := false } : SFlit).det = .take (1 : Nat) (1 : Nat) (none : Option Nat)) ∧
    (({ id := 8, kind := .rdReq, ctx := some 2, fmask := 0, fa := 0x400000, dat := [], zero := [], resp := .ok, due := 0, src := 0, srcDie := 0, from' := 0, dst := 1, dstDie := 0, cur := 0, enter := 0, hops := 0, det := none, issue := 8, lret := 0, rpl := false } : SFlit).hops + 1 ≤ hopDist ({ id := 8, kind := .rdReq, ctx := some 2, fmask := 0, fa := 0x400000, dat := [], zero := [], resp := .ok, due := 0, src := 0, srcDie := 0, from' := 0, dst := 1, dstDie := 0, cur := 0, enter := 0, hops := 0, det := none, issue := 8, lret := 0, rpl := false } : SFlit).from' ({ id := 8, kind := .rdReq, ctx := some 2, fmask := 0, fa := 0x400000, dat := [], zero := [], resp := .ok, due := 0, src := 0, srcDie := 0, from' := 0, dst := 1, dstDie := 0, cur := 0, enter := 0, hops := 0, det := none, issue := 8, lret := 0, rpl := false } : SFlit).dst + 16) ∧
    (({ rig with set := { rig.set with flits := [{ id := 8, kind := .rdReq, ctx := some 2, fmask := 0, fa := 0x400000, dat := [], zero := [], resp := .ok, due := 0, src := 0, srcDie := 0, from' := 0, dst := 1, dstDie := 0, cur := 0, enter := 0, hops := 0, det := none, issue := 8, lret := 0, rpl := false }] } } : State).set.slots.find? (fun x => decide (x.1 = ({ id := 8, kind := .rdReq, ctx := some 2, fmask := 0, fa := 0x400000, dat := [], zero := [], resp := .ok, due := 0, src := 0, srcDie := 0, from' := 0, dst := 1, dstDie := 0, cur := 0, enter := 0, hops := 0, det := none, issue := 8, lret := 0, rpl := false } : SFlit).cur) && decide (x.2.1 = (1 : Nat)) && decide (x.2.2.1 = ({ rig with set := { rig.set with flits := [{ id := 8, kind := .rdReq, ctx := some 2, fmask := 0, fa := 0x400000, dat := [], zero := [], resp := .ok, due := 0, src := 0, srcDie := 0, from' := 0, dst := 1, dstDie := 0, cur := 0, enter := 0, hops := 0, det := none, issue := 8, lret := 0, rpl := false }] } } : State).time.stime)) = none) ∧
    (({ id := 8, kind := .rdReq, ctx := some 2, fmask := 0, fa := 0x400000, dat := [], zero := [], resp := .ok, due := 0, src := 0, srcDie := 0, from' := 0, dst := 1, dstDie := 0, cur := 0, enter := 0, hops := 0, det := none, issue := 8, lret := 0, rpl := false } : SFlit).src = (0 : Cab).val) ∧
    (({ id := 8, kind := .rdReq, ctx := some 2, fmask := 0, fa := 0x400000, dat := [], zero := [], resp := .ok, due := 0, src := 0, srcDie := 0, from' := 0, dst := 1, dstDie := 0, cur := 0, enter := 0, hops := 0, det := none, issue := 8, lret := 0, rpl := false } : SFlit).kind = .rdReq) ∧
    (({ id := 8, kind := .rdReq, ctx := some 2, fmask := 0, fa := 0x400000, dat := [], zero := [], resp := .ok, due := 0, src := 0, srcDie := 0, from' := 0, dst := 1, dstDie := 0, cur := 0, enter := 0, hops := 0, det := none, issue := 8, lret := 0, rpl := false } : SFlit).hops = 0) := by decide +kernel

theorem witness_setFlitsMoveOnTheirSlots_remoteWriteInject :
    (({ rig with set := { rig.set with flits := [{ id := 8, kind := .wr, ctx := some 2, fmask := 0, fa := 0x400000, dat := [], zero := [], resp := .ok, due := 0, src := 0, srcDie := 0, from' := 0, dst := 1, dstDie := 0, cur := 0, enter := 0, hops := 0, det := none, issue := 8, lret := 0, rpl := false }] } } : State).readySet (8 : Nat) = some ({ id := 8, kind := .wr, ctx := some 2, fmask := 0, fa := 0x400000, dat := [], zero := [], resp := .ok, due := 0, src := 0, srcDie := 0, from' := 0, dst := 1, dstDie := 0, cur := 0, enter := 0, hops := 0, det := none, issue := 8, lret := 0, rpl := false } : SFlit)) ∧
    (({ rig with set := { rig.set with flits := [{ id := 8, kind := .wr, ctx := some 2, fmask := 0, fa := 0x400000, dat := [], zero := [], resp := .ok, due := 0, src := 0, srcDie := 0, from' := 0, dst := 1, dstDie := 0, cur := 0, enter := 0, hops := 0, det := none, issue := 8, lret := 0, rpl := false }] } } : State).frozen = false) ∧
    (({ id := 8, kind := .wr, ctx := some 2, fmask := 0, fa := 0x400000, dat := [], zero := [], resp := .ok, due := 0, src := 0, srcDie := 0, from' := 0, dst := 1, dstDie := 0, cur := 0, enter := 0, hops := 0, det := none, issue := 8, lret := 0, rpl := false } : SFlit).cur ≠ ({ id := 8, kind := .wr, ctx := some 2, fmask := 0, fa := 0x400000, dat := [], zero := [], resp := .ok, due := 0, src := 0, srcDie := 0, from' := 0, dst := 1, dstDie := 0, cur := 0, enter := 0, hops := 0, det := none, issue := 8, lret := 0, rpl := false } : SFlit).dst) ∧
    (({ rig with set := { rig.set with flits := [{ id := 8, kind := .wr, ctx := some 2, fmask := 0, fa := 0x400000, dat := [], zero := [], resp := .ok, due := 0, src := 0, srcDie := 0, from' := 0, dst := 1, dstDie := 0, cur := 0, enter := 0, hops := 0, det := none, issue := 8, lret := 0, rpl := false }] } } : State).lastRouter ({ id := 8, kind := .wr, ctx := some 2, fmask := 0, fa := 0x400000, dat := [], zero := [], resp := .ok, due := 0, src := 0, srcDie := 0, from' := 0, dst := 1, dstDie := 0, cur := 0, enter := 0, hops := 0, det := none, issue := 8, lret := 0, rpl := false } : SFlit).cur ({ id := 8, kind := .wr, ctx := some 2, fmask := 0, fa := 0x400000, dat := [], zero := [], resp := .ok, due := 0, src := 0, srcDie := 0, from' := 0, dst := 1, dstDie := 0, cur := 0, enter := 0, hops := 0, det := none, issue := 8, lret := 0, rpl := false } : SFlit).dst = false) ∧
    (({ rig with set := { rig.set with flits := [{ id := 8, kind := .wr, ctx := some 2, fmask := 0, fa := 0x400000, dat := [], zero := [], resp := .ok, due := 0, src := 0, srcDie := 0, from' := 0, dst := 1, dstDie := 0, cur := 0, enter := 0, hops := 0, det := none, issue := 8, lret := 0, rpl := false }] } } : State).setHop ({ id := 8, kind := .wr, ctx := some 2, fmask := 0, fa := 0x400000, dat := [], zero := [], resp := .ok, due := 0, src := 0, srcDie := 0, from' := 0, dst := 1, dstDie := 0, cur := 0, enter := 0, hops := 0, det := none, issue := 8, lret := 0, rpl := false } : SFlit).fmask ({ id := 8, kind := .wr, ctx := some 2, fmask := 0, fa := 0x400000, dat := [], zero := [], resp := .ok, due := 0, src := 0, srcDie := 0, from' := 0, dst := 1, dstDie := 0, cur := 0, enter := 0, hops := 0, det := none, issue := 8, lret := 0, rpl := false } : SFlit).cur ({ id := 8, kind := .wr, ctx := some 2, fmask := 0, fa := 0x400000, dat := [], zero := [], resp := .ok, due := 0, src := 0, srcDie := 0, from' := 0, dst := 1, dstDie := 0, cur := 0, enter := 0, hops := 0, det := none, issue := 8, lret := 0, rpl := false } : SFlit).dst ({ id := 8, kind := .wr, ctx := some 2, fmask := 0, fa := 0x400000, dat := [], zero := [], resp := .ok, due := 0, src := 0, srcDie := 0, from' := 0, dst := 1, dstDie := 0, cur := 0, enter := 0, hops := 0, det := none, issue := 8, lret := 0, rpl := false } : SFlit).det = .take (1 : Nat) (1 : Nat) (none : Option Nat)) ∧
    (({ id := 8, kind := .wr, ctx := some 2, fmask := 0, fa := 0x400000, dat := [], zero := [], resp := .ok, due := 0, src := 0, srcDie := 0, from' := 0, dst := 1, dstDie := 0, cur := 0, enter := 0, hops := 0, det := none, issue := 8, lret := 0, rpl := false } : SFlit).hops + 1 ≤ hopDist ({ id := 8, kind := .wr, ctx := some 2, fmask := 0, fa := 0x400000, dat := [], zero := [], resp := .ok, due := 0, src := 0, srcDie := 0, from' := 0, dst := 1, dstDie := 0, cur := 0, enter := 0, hops := 0, det := none, issue := 8, lret := 0, rpl := false } : SFlit).from' ({ id := 8, kind := .wr, ctx := some 2, fmask := 0, fa := 0x400000, dat := [], zero := [], resp := .ok, due := 0, src := 0, srcDie := 0, from' := 0, dst := 1, dstDie := 0, cur := 0, enter := 0, hops := 0, det := none, issue := 8, lret := 0, rpl := false } : SFlit).dst + 16) ∧
    (({ rig with set := { rig.set with flits := [{ id := 8, kind := .wr, ctx := some 2, fmask := 0, fa := 0x400000, dat := [], zero := [], resp := .ok, due := 0, src := 0, srcDie := 0, from' := 0, dst := 1, dstDie := 0, cur := 0, enter := 0, hops := 0, det := none, issue := 8, lret := 0, rpl := false }] } } : State).set.slots.find? (fun x => decide (x.1 = ({ id := 8, kind := .wr, ctx := some 2, fmask := 0, fa := 0x400000, dat := [], zero := [], resp := .ok, due := 0, src := 0, srcDie := 0, from' := 0, dst := 1, dstDie := 0, cur := 0, enter := 0, hops := 0, det := none, issue := 8, lret := 0, rpl := false } : SFlit).cur) && decide (x.2.1 = (1 : Nat)) && decide (x.2.2.1 = ({ rig with set := { rig.set with flits := [{ id := 8, kind := .wr, ctx := some 2, fmask := 0, fa := 0x400000, dat := [], zero := [], resp := .ok, due := 0, src := 0, srcDie := 0, from' := 0, dst := 1, dstDie := 0, cur := 0, enter := 0, hops := 0, det := none, issue := 8, lret := 0, rpl := false }] } } : State).time.stime)) = none) ∧
    (({ id := 8, kind := .wr, ctx := some 2, fmask := 0, fa := 0x400000, dat := [], zero := [], resp := .ok, due := 0, src := 0, srcDie := 0, from' := 0, dst := 1, dstDie := 0, cur := 0, enter := 0, hops := 0, det := none, issue := 8, lret := 0, rpl := false } : SFlit).src = (0 : Cab).val) ∧
    (({ id := 8, kind := .wr, ctx := some 2, fmask := 0, fa := 0x400000, dat := [], zero := [], resp := .ok, due := 0, src := 0, srcDie := 0, from' := 0, dst := 1, dstDie := 0, cur := 0, enter := 0, hops := 0, det := none, issue := 8, lret := 0, rpl := false } : SFlit).kind = .wr) ∧
    (({ id := 8, kind := .wr, ctx := some 2, fmask := 0, fa := 0x400000, dat := [], zero := [], resp := .ok, due := 0, src := 0, srcDie := 0, from' := 0, dst := 1, dstDie := 0, cur := 0, enter := 0, hops := 0, det := none, issue := 8, lret := 0, rpl := false } : SFlit).hops = 0) := by decide +kernel

theorem witness_setFlitsMoveOnTheirSlots_flitArrival :
    (({ rig with set := { rig.set with flits := [{ id := 8, kind := .wr, ctx := some 2, fmask := 0, fa := 0x400000, dat := [], zero := [], resp := .ok, due := 5, src := 0, srcDie := 0, from' := 0, dst := 1, dstDie := 0, cur := 1, enter := 0, hops := 0, det := none, issue := 8, lret := 0, rpl := false }] } } : State).readySet (8 : Nat) = some ({ id := 8, kind := .wr, ctx := some 2, fmask := 0, fa := 0x400000, dat := [], zero := [], resp := .ok, due := 5, src := 0, srcDie := 0, from' := 0, dst := 1, dstDie := 0, cur := 1, enter := 0, hops := 0, det := none, issue := 8, lret := 0, rpl := false } : SFlit)) ∧
    (({ id := 8, kind := .wr, ctx := some 2, fmask := 0, fa := 0x400000, dat := [], zero := [], resp := .ok, due := 5, src := 0, srcDie := 0, from' := 0, dst := 1, dstDie := 0, cur := 1, enter := 0, hops := 0, det := none, issue := 8, lret := 0, rpl := false } : SFlit).cur = ({ id := 8, kind := .wr, ctx := some 2, fmask := 0, fa := 0x400000, dat := [], zero := [], resp := .ok, due := 5, src := 0, srcDie := 0, from' := 0, dst := 1, dstDie := 0, cur := 1, enter := 0, hops := 0, det := none, issue := 8, lret := 0, rpl := false } : SFlit).dst) ∧
    (({ id := 8, kind := .wr, ctx := some 2, fmask := 0, fa := 0x400000, dat := [], zero := [], resp := .ok, due := 5, src := 0, srcDie := 0, from' := 0, dst := 1, dstDie := 0, cur := 1, enter := 0, hops := 0, det := none, issue := 8, lret := 0, rpl := false } : SFlit).dstDie = ({ rig with set := { rig.set with flits := [{ id := 8, kind := .wr, ctx := some 2, fmask := 0, fa := 0x400000, dat := [], zero := [], resp := .ok, due := 5, src := 0, srcDie := 0, from' := 0, dst := 1, dstDie := 0, cur := 1, enter := 0, hops := 0, det := none, issue := 8, lret := 0, rpl := false }] } } : State).die) ∧
    (({ rig with set := { rig.set with flits := [{ id := 8, kind := .wr, ctx := some 2, fmask := 0, fa := 0x400000, dat := [], zero := [], resp := .ok, due := 5, src := 0, srcDie := 0, from' := 0, dst := 1, dstDie := 0, cur := 1, enter := 0, hops := 0, det := none, issue := 8, lret := 0, rpl := false }] } } : State).frozen = false) ∧
    (({ id := 8, kind := .wr, ctx := some 2, fmask := 0, fa := 0x400000, dat := [], zero := [], resp := .ok, due := 5, src := 0, srcDie := 0, from' := 0, dst := 1, dstDie := 0, cur := 1, enter := 0, hops := 0, det := none, issue := 8, lret := 0, rpl := false } : SFlit).kind ≠ .rdData) ∧
    (({ rig with set := { rig.set with flits := [{ id := 8, kind := .wr, ctx := some 2, fmask := 0, fa := 0x400000, dat := [], zero := [], resp := .ok, due := 5, src := 0, srcDie := 0, from' := 0, dst := 1, dstDie := 0, cur := 1, enter := 0, hops := 0, det := none, issue := 8, lret := 0, rpl := false }] } } : State).time.stime ≤ ({ id := 8, kind := .wr, ctx := some 2, fmask := 0, fa := 0x400000, dat := [], zero := [], resp := .ok, due := 5, src := 0, srcDie := 0, from' := 0, dst := 1, dstDie := 0, cur := 1, enter := 0, hops := 0, det := none, issue := 8, lret := 0, rpl := false } : SFlit).due) ∧
    ((({ rig with set := { rig.set with flits := [{ id := 8, kind := .wr, ctx := some 2, fmask := 0, fa := 0x400000, dat := [], zero := [], resp := .ok, due := 5, src := 0, srcDie := 0, from' := 0, dst := 1, dstDie := 0, cur := 1, enter := 0, hops := 0, det := none, issue := 8, lret := 0, rpl := false }] } } : State).set.land.filter (fun l => decide (l.cab = ({ id := 8, kind := .wr, ctx := some 2, fmask := 0, fa := 0x400000, dat := [], zero := [], resp := .ok, due := 5, src := 0, srcDie := 0, from' := 0, dst := 1, dstDie := 0, cur := 1, enter := 0, hops := 0, det := none, issue := 8, lret := 0, rpl := false } : SFlit).dst) && !({ rig with set := { rig.set with flits := [{ id := 8, kind := .wr, ctx := some 2, fmask := 0, fa := 0x400000, dat := [], zero := [], resp := .ok, due := 5, src := 0, srcDie := 0, from' := 0, dst := 1, dstDie := 0, cur := 1, enter := 0, hops := 0, det := none, issue := 8, lret := 0, rpl := false }] } } : State).freesPlace l)).length < 32) := by decide +kernel

theorem witness_setFlitsMoveOnTheirSlots_flitArrival_data :
    (({ rig with set := { rig.set with flits := [{ id := 8, kind := .rdData, ctx := some 2, fmask := 0, fa := 0x400000, dat := [], zero := [], resp := .ok, due := 5, src := 0, srcDie := 0, from' := 0, dst := 1, dstDie := 0, cur := 1, enter := 0, hops := 0, det := none, issue := 8, lret := 0, rpl := false }], delivs := [{ id := 8, cab := 1, due := 9, ctx := some 2, fa := 0, remote := true, got := false, dat := [], zero := [], resp := .ok, discard := false }] } } : State).readySet (8 : Nat) = some ({ id := 8, kind := .rdData, ctx := some 2, fmask := 0, fa := 0x400000, dat := [], zero := [], resp := .ok, due := 5, src := 0, srcDie := 0, from' := 0, dst := 1, dstDie := 0, cur := 1, enter := 0, hops := 0, det := none, issue := 8, lret := 0, rpl := false } : SFlit)) ∧
    (({ id := 8, kind := .rdData, ctx := some 2, fmask := 0, fa := 0x400000, dat := [], zero := [], resp := .ok, due := 5, src := 0, srcDie := 0, from' := 0, dst := 1, dstDie := 0, cur := 1, enter := 0, hops := 0, det := none, issue := 8, lret := 0, rpl := false } : SFlit).cur = ({ id := 8, kind := .rdData, ctx := some 2, fmask := 0, fa := 0x400000, dat := [], zero := [], resp := .ok, due := 5, src := 0, srcDie := 0, from' := 0, dst := 1, dstDie := 0, cur := 1, enter := 0, hops := 0, det := none, issue := 8, lret := 0, rpl := false } : SFlit).dst) ∧
    (({ id := 8, kind := .rdData, ctx := some 2, fmask := 0, fa := 0x400000, dat := [], zero := [], resp := .ok, due := 5, src := 0, srcDie := 0, from' := 0, dst := 1, dstDie := 0, cur := 1, enter := 0, hops := 0, det := none, issue := 8, lret := 0, rpl := false } : SFlit).dstDie = ({ rig with set := { rig.set with flits := [{ id := 8, kind := .rdData, ctx := some 2, fmask := 0, fa := 0x400000, dat := [], zero := [], resp := .ok, due := 5, src := 0, srcDie := 0, from' := 0, dst := 1, dstDie := 0, cur := 1, enter := 0, hops := 0, det := none, issue := 8, lret := 0, rpl := false }], delivs := [{ id := 8, cab := 1, due := 9, ctx := some 2, fa := 0, remote := true, got := false, dat := [], zero := [], resp := .ok, discard := false }] } } : State).die) ∧
    (({ rig with set := { rig.set with flits := [{ id := 8, kind := .rdData, ctx := some 2, fmask := 0, fa := 0x400000, dat := [], zero := [], resp := .ok, due := 5, src := 0, srcDie := 0, from' := 0, dst := 1, dstDie := 0, cur := 1, enter := 0, hops := 0, det := none, issue := 8, lret := 0, rpl := false }], delivs := [{ id := 8, cab := 1, due := 9, ctx := some 2, fa := 0, remote := true, got := false, dat := [], zero := [], resp := .ok, discard := false }] } } : State).frozen = false) ∧
    (({ id := 8, kind := .rdData, ctx := some 2, fmask := 0, fa := 0x400000, dat := [], zero := [], resp := .ok, due := 5, src := 0, srcDie := 0, from' := 0, dst := 1, dstDie := 0, cur := 1, enter := 0, hops := 0, det := none, issue := 8, lret := 0, rpl := false } : SFlit).kind = .rdData) ∧
    (({ rig with set := { rig.set with flits := [{ id := 8, kind := .rdData, ctx := some 2, fmask := 0, fa := 0x400000, dat := [], zero := [], resp := .ok, due := 5, src := 0, srcDie := 0, from' := 0, dst := 1, dstDie := 0, cur := 1, enter := 0, hops := 0, det := none, issue := 8, lret := 0, rpl := false }], delivs := [{ id := 8, cab := 1, due := 9, ctx := some 2, fa := 0, remote := true, got := false, dat := [], zero := [], resp := .ok, discard := false }] } } : State).time.stime ≤ ({ id := 8, kind := .rdData, ctx := some 2, fmask := 0, fa := 0x400000, dat := [], zero := [], resp := .ok, due := 5, src := 0, srcDie := 0, from' := 0, dst := 1, dstDie := 0, cur := 1, enter := 0, hops := 0, det := none, issue := 8, lret := 0, rpl := false } : SFlit).due) := by decide +kernel

theorem witness_setFlitsMoveOnTheirSlots_landingRelease :
    (({ rig with set := { rig.set with land := [{ cab := 1, f := { id := 8, kind := .wr, ctx := some 2, fmask := 0, fa := 0x400000, dat := [], zero := [], resp := .ok, due := 0, src := 0, srcDie := 0, from' := 0, dst := 1, dstDie := 0, cur := 1, enter := 0, hops := 0, det := none, issue := 8, lret := 0, rpl := false }, hold := none, arrived := 0 }], claims := [{ port := .land, cab := 1, grp := 0, at' := 0 }] } } : State).set.land.find? (fun x => decide (x.cab = (1 : Cab).val) && decide (x.f.id = (8 : Nat)) && x.hold.isNone) = some ({ cab := 1, f := { id := 8, kind := .wr, ctx := some 2, fmask := 0, fa := 0x400000, dat := [], zero := [], resp := .ok, due := 0, src := 0, srcDie := 0, from' := 0, dst := 1, dstDie := 0, cur := 1, enter := 0, hops := 0, det := none, issue := 8, lret := 0, rpl := false }, hold := none, arrived := 0 } : Landed)) ∧
    (({ rig with set := { rig.set with land := [{ cab := 1, f := { id := 8, kind := .wr, ctx := some 2, fmask := 0, fa := 0x400000, dat := [], zero := [], resp := .ok, due := 0, src := 0, srcDie := 0, from' := 0, dst := 1, dstDie := 0, cur := 1, enter := 0, hops := 0, det := none, issue := 8, lret := 0, rpl := false }, hold := none, arrived := 0 }], claims := [{ port := .land, cab := 1, grp := 0, at' := 0 }] } } : State).frozen = false) ∧
    (({ cab := 1, f := { id := 8, kind := .wr, ctx := some 2, fmask := 0, fa := 0x400000, dat := [], zero := [], resp := .ok, due := 0, src := 0, srcDie := 0, from' := 0, dst := 1, dstDie := 0, cur := 1, enter := 0, hops := 0, det := none, issue := 8, lret := 0, rpl := false }, hold := none, arrived := 0 } : Landed).f.due + ({ rig with set := { rig.set with land := [{ cab := 1, f := { id := 8, kind := .wr, ctx := some 2, fmask := 0, fa := 0x400000, dat := [], zero := [], resp := .ok, due := 0, src := 0, srcDie := 0, from' := 0, dst := 1, dstDie := 0, cur := 1, enter := 0, hops := 0, det := none, issue := 8, lret := 0, rpl := false }, hold := none, arrived := 0 }], claims := [{ port := .land, cab := 1, grp := 0, at' := 0 }] } } : State).landLag (1 : Cab) ≤ ({ rig with set := { rig.set with land := [{ cab := 1, f := { id := 8, kind := .wr, ctx := some 2, fmask := 0, fa := 0x400000, dat := [], zero := [], resp := .ok, due := 0, src := 0, srcDie := 0, from' := 0, dst := 1, dstDie := 0, cur := 1, enter := 0, hops := 0, det := none, issue := 8, lret := 0, rpl := false }, hold := none, arrived := 0 }], claims := [{ port := .land, cab := 1, grp := 0, at' := 0 }] } } : State).time.stime) ∧
    (({ cab := 1, f := { id := 8, kind := .wr, ctx := some 2, fmask := 0, fa := 0x400000, dat := [], zero := [], resp := .ok, due := 0, src := 0, srcDie := 0, from' := 0, dst := 1, dstDie := 0, cur := 1, enter := 0, hops := 0, det := none, issue := 8, lret := 0, rpl := false }, hold := none, arrived := 0 } : Landed).f.kind = .wr) ∧
    (({ rig with set := { rig.set with land := [{ cab := 1, f := { id := 8, kind := .wr, ctx := some 2, fmask := 0, fa := 0x400000, dat := [], zero := [], resp := .ok, due := 0, src := 0, srcDie := 0, from' := 0, dst := 1, dstDie := 0, cur := 1, enter := 0, hops := 0, det := none, issue := 8, lret := 0, rpl := false }, hold := none, arrived := 0 }], claims := [{ port := .land, cab := 1, grp := 0, at' := 0 }] } } : State).discards ({ cab := 1, f := { id := 8, kind := .wr, ctx := some 2, fmask := 0, fa := 0x400000, dat := [], zero := [], resp := .ok, due := 0, src := 0, srcDie := 0, from' := 0, dst := 1, dstDie := 0, cur := 1, enter := 0, hops := 0, det := none, issue := 8, lret := 0, rpl := false }, hold := none, arrived := 0 } : Landed).f.ctx = false) ∧
    (({ rig with set := { rig.set with land := [{ cab := 1, f := { id := 8, kind := .wr, ctx := some 2, fmask := 0, fa := 0x400000, dat := [], zero := [], resp := .ok, due := 0, src := 0, srcDie := 0, from' := 0, dst := 1, dstDie := 0, cur := 1, enter := 0, hops := 0, det := none, issue := 8, lret := 0, rpl := false }, hold := none, arrived := 0 }], claims := [{ port := .land, cab := 1, grp := 0, at' := 0 }] } } : State).target .set true ({ cab := 1, f := { id := 8, kind := .wr, ctx := some 2, fmask := 0, fa := 0x400000, dat := [], zero := [], resp := .ok, due := 0, src := 0, srcDie := 0, from' := 0, dst := 1, dstDie := 0, cur := 1, enter := 0, hops := 0, det := none, issue := 8, lret := 0, rpl := false }, hold := none, arrived := 0 } : Landed).f.ctx ({ cab := 1, f := { id := 8, kind := .wr, ctx := some 2, fmask := 0, fa := 0x400000, dat := [], zero := [], resp := .ok, due := 0, src := 0, srcDie := 0, from' := 0, dst := 1, dstDie := 0, cur := 1, enter := 0, hops := 0, det := none, issue := 8, lret := 0, rpl := false }, hold := none, arrived := 0 } : Landed).f.fa = .at' (1 : Cab)) ∧
    (({ rig with set := { rig.set with land := [{ cab := 1, f := { id := 8, kind := .wr, ctx := some 2, fmask := 0, fa := 0x400000, dat := [], zero := [], resp := .ok, due := 0, src := 0, srcDie := 0, from' := 0, dst := 1, dstDie := 0, cur := 1, enter := 0, hops := 0, det := none, issue := 8, lret := 0, rpl := false }, hold := none, arrived := 0 }], claims := [{ port := .land, cab := 1, grp := 0, at' := 0 }] } } : State).pow (1 : Cab) = 0) ∧
    (({ rig with set := { rig.set with land := [{ cab := 1, f := { id := 8, kind := .wr, ctx := some 2, fmask := 0, fa := 0x400000, dat := [], zero := [], resp := .ok, due := 0, src := 0, srcDie := 0, from' := 0, dst := 1, dstDie := 0, cur := 1, enter := 0, hops := 0, det := none, issue := 8, lret := 0, rpl := false }, hold := none, arrived := 0 }], claims := [{ port := .land, cab := 1, grp := 0, at' := 0 }] } } : State).replaying ({ cab := 1, f := { id := 8, kind := .wr, ctx := some 2, fmask := 0, fa := 0x400000, dat := [], zero := [], resp := .ok, due := 0, src := 0, srcDie := 0, from' := 0, dst := 1, dstDie := 0, cur := 1, enter := 0, hops := 0, det := none, issue := 8, lret := 0, rpl := false }, hold := none, arrived := 0 } : Landed).f.ctx = false) ∧
    (({ rig with set := { rig.set with land := [{ cab := 1, f := { id := 8, kind := .wr, ctx := some 2, fmask := 0, fa := 0x400000, dat := [], zero := [], resp := .ok, due := 0, src := 0, srcDie := 0, from' := 0, dst := 1, dstDie := 0, cur := 1, enter := 0, hops := 0, det := none, issue := 8, lret := 0, rpl := false }, hold := none, arrived := 0 }], claims := [{ port := .land, cab := 1, grp := 0, at' := 0 }] } } : State).claimed .land (1 : Cab) (faGroup ({ cab := 1, f := { id := 8, kind := .wr, ctx := some 2, fmask := 0, fa := 0x400000, dat := [], zero := [], resp := .ok, due := 0, src := 0, srcDie := 0, from' := 0, dst := 1, dstDie := 0, cur := 1, enter := 0, hops := 0, det := none, issue := 8, lret := 0, rpl := false }, hold := none, arrived := 0 } : Landed).f.fa) = true) ∧
    (({ rig with set := { rig.set with land := [{ cab := 1, f := { id := 8, kind := .wr, ctx := some 2, fmask := 0, fa := 0x400000, dat := [], zero := [], resp := .ok, due := 0, src := 0, srcDie := 0, from' := 0, dst := 1, dstDie := 0, cur := 1, enter := 0, hops := 0, det := none, issue := 8, lret := 0, rpl := false }, hold := none, arrived := 0 }], claims := [{ port := .land, cab := 1, grp := 0, at' := 0 }] } } : State).conflicts (1 : Cab) ({ cab := 1, f := { id := 8, kind := .wr, ctx := some 2, fmask := 0, fa := 0x400000, dat := [], zero := [], resp := .ok, due := 0, src := 0, srcDie := 0, from' := 0, dst := 1, dstDie := 0, cur := 1, enter := 0, hops := 0, det := none, issue := 8, lret := 0, rpl := false }, hold := none, arrived := 0 } : Landed).f.fa true = false) ∧
    (({ rig with set := { rig.set with land := [{ cab := 1, f := { id := 8, kind := .wr, ctx := some 2, fmask := 0, fa := 0x400000, dat := [], zero := [], resp := .ok, due := 0, src := 0, srcDie := 0, from' := 0, dst := 1, dstDie := 0, cur := 1, enter := 0, hops := 0, det := none, issue := 8, lret := 0, rpl := false }, hold := none, arrived := 0 }], claims := [{ port := .land, cab := 1, grp := 0, at' := 0 }] } } : State).set.ops.filter (fun x => decide (x.cab = (1 : Cab).val) && decide (x.grp = faGroup ({ cab := 1, f := { id := 8, kind := .wr, ctx := some 2, fmask := 0, fa := 0x400000, dat := [], zero := [], resp := .ok, due := 0, src := 0, srcDie := 0, from' := 0, dst := 1, dstDie := 0, cur := 1, enter := 0, hops := 0, det := none, issue := 8, lret := 0, rpl := false }, hold := none, arrived := 0 } : Landed).f.fa) && decide (({ rig with set := { rig.set with land := [{ cab := 1, f := { id := 8, kind := .wr, ctx := some 2, fmask := 0, fa := 0x400000, dat := [], zero := [], resp := .ok, due := 0, src := 0, srcDie := 0, from' := 0, dst := 1, dstDie := 0, cur := 1, enter := 0, hops := 0, det := none, issue := 8, lret := 0, rpl := false }, hold := none, arrived := 0 }], claims := [{ port := .land, cab := 1, grp := 0, at' := 0 }] } } : State).time.stime ≤ x.at' + 1)) = []) := by decide +kernel


theorem witness_narrowPortsAcceptAndComplete_npRequest :
    ((rig : State).npAck (0 : Cab) (1 : Fin 2) (31 : Fin 32) = true) ∧
    ((rig : State).fenced (0 : Cab) = false) := by decide +kernel

theorem witness_narrowPortsAcceptAndComplete_npRequest_fenced :
    ((rig.put (cabBit R.IDV_FENCE_MASK 0) 1 : State).npAck (0 : Cab) (1 : Fin 2) (31 : Fin 32) = true) ∧
    ((rig.put (cabBit R.IDV_FENCE_MASK 0) 1 : State).fenced (0 : Cab) = true) := by decide +kernel

theorem witness_narrowPortsAcceptAndComplete_npRequest_parity :
    ((rig : State).npAck (0 : Cab) (1 : Fin 2) (31 : Fin 32) = true) ∧
    ((rig : State).fenced (0 : Cab) = false) := by decide +kernel

theorem witness_narrowPortsAcceptAndComplete_parity_logged :
    (State.reset : State).eag (1 : Cab) = none := by decide +kernel

theorem witness_narrowPortsAcceptAndComplete_parity_replays :
    (rig : State).eag (0 : Cab) = some (2 : Nat) := by decide +kernel

theorem witness_narrowPortsAcceptAndComplete_npCompletion :
    (({ rig with loose := { rig.loose with ports := [{ cab := 0, port := 0, tag := 5, id := 8, we := false, fa := 0, gate := 0, ans := some { resp := .ok, dat := [1, 2], zero := [false, false] } }] } } : State).frozen = false) ∧
    (({ rig with loose := { rig.loose with ports := [{ cab := 0, port := 0, tag := 5, id := 8, we := false, fa := 0, gate := 0, ans := some { resp := .ok, dat := [1, 2], zero := [false, false] } }] } } : State).npReqs (0 : Cab) (0 : Fin 2) = [({ cab := 0, port := 0, tag := 5, id := 8, we := false, fa := 0, gate := 0, ans := some { resp := .ok, dat := [1, 2], zero := [false, false] } } : PortReq)]) ∧
    (({ cab := 0, port := 0, tag := 5, id := 8, we := false, fa := 0, gate := 0, ans := some { resp := .ok, dat := [1, 2], zero := [false, false] } } : PortReq).ans = some ({ resp := .ok, dat := [1, 2], zero := [false, false] } : Ans)) ∧
    (({ cab := 0, port := 0, tag := 5, id := 8, we := false, fa := 0, gate := 0, ans := some { resp := .ok, dat := [1, 2], zero := [false, false] } } : PortReq).gate ≤ ({ rig with loose := { rig.loose with ports := [{ cab := 0, port := 0, tag := 5, id := 8, we := false, fa := 0, gate := 0, ans := some { resp := .ok, dat := [1, 2], zero := [false, false] } }] } } : State).time.ufc) ∧
    (({ cab := 0, port := 0, tag := 5, id := 8, we := false, fa := 0, gate := 0, ans := some { resp := .ok, dat := [1, 2], zero := [false, false] } } : PortReq).we = false) ∧
    (({ resp := .ok, dat := [1, 2], zero := [false, false] } : Ans).resp = .ok) := by decide +kernel

theorem witness_narrowPortsAcceptAndComplete_npCompletion_parity :
    (({ rig with loose := { rig.loose with ports := [{ cab := 0, port := 0, tag := 5, id := 8, we := false, fa := 0, gate := 0, ans := some { resp := .ok, dat := [1, 2], zero := [false, false] } }] } } : State).frozen = false) ∧
    (({ rig with loose := { rig.loose with ports := [{ cab := 0, port := 0, tag := 5, id := 8, we := false, fa := 0, gate := 0, ans := some { resp := .ok, dat := [1, 2], zero := [false, false] } }] } } : State).npReqs (0 : Cab) (0 : Fin 2) = [({ cab := 0, port := 0, tag := 5, id := 8, we := false, fa := 0, gate := 0, ans := some { resp := .ok, dat := [1, 2], zero := [false, false] } } : PortReq)]) ∧
    (({ cab := 0, port := 0, tag := 5, id := 8, we := false, fa := 0, gate := 0, ans := some { resp := .ok, dat := [1, 2], zero := [false, false] } } : PortReq).ans = some ({ resp := .ok, dat := [1, 2], zero := [false, false] } : Ans)) ∧
    (({ cab := 0, port := 0, tag := 5, id := 8, we := false, fa := 0, gate := 0, ans := some { resp := .ok, dat := [1, 2], zero := [false, false] } } : PortReq).gate ≤ ({ rig with loose := { rig.loose with ports := [{ cab := 0, port := 0, tag := 5, id := 8, we := false, fa := 0, gate := 0, ans := some { resp := .ok, dat := [1, 2], zero := [false, false] } }] } } : State).time.ufc) := by decide +kernel

theorem witness_narrowPortsAcceptAndComplete_presentChange :
    (State.reset : State).presWait.any (fun e => decide (e.1 = (PresPort.hdp : PresPort)) && decide (e.2.1 = (true : Bool)) && decide (e.2.2 ≤ (State.reset : State).time.fc)) = false := by decide +kernel

theorem witness_narrowPortsAcceptAndComplete_presentChange_due :
    (((.wrp 0 : PresPort), (true : Bool), (0 : Nat)) ∈ ({ rig with presWait := [(.wrp 0, true, 0)] } : State).presWait) ∧
    ((0 : Nat) ≤ ({ rig with presWait := [(.wrp 0, true, 0)] } : State).time.fc) := by decide +kernel


theorem witness_pairsDecideAndBurstsCommit_pairArbitration :
    ((({ rig with loose := { rig.loose with pairs := [(0, { queue := [{ acc := { id := 8, req := 0, home := 0, homeDie := 0, org := .np 0 0 0, cls := .loose, ctx := some 2, fa := 0, we := false, be := 2 ^ 64 - 1, dat := [], op := .acc }, presented := true, since := 0, base := 0, urgent := false }], bursts := [], rr := [0, 0, 0, 0, 0], armed := false })] } } : State).decide' (0 : Cab) (0 : Fin 16)).pairSt (0 : Cab) (0 : Fin 16)).queue = [] := by decide +kernel

theorem witness_pairsDecideAndBurstsCommit_pairArbitration_again :
    ((({ State.reset with loose := { State.reset.loose with pairs := [(0, { queue := [{ acc := { id := 8, req := 0, home := 0, homeDie := 0, org := .np 0 0 0, cls := .loose, ctx := some 2, fa := 0, we := false, be := 2 ^ 64 - 1, dat := [], op := .acc }, presented := false, since := 0, base := 0, urgent := false }], bursts := [], rr := [0, 0, 0, 0, 0], armed := false })] } } : State).decide' (0 : Cab) (0 : Fin 16)).pairSt (0 : Cab) (0 : Fin 16)).queue ≠ [] := by decide +kernel

theorem witness_pairsDecideAndBurstsCommit_pairArbitration_grant :
    ({ acc := { id := 8, req := 0, home := 0, homeDie := 0, org := .np 0 0 0, cls := .loose, ctx := some 2, fa := 0, we := false, be := 2 ^ 64 - 1, dat := [], op := .acc }, presented := true, since := 0, base := 0, urgent := false } : PReq).acc.req ≠ 10 := by decide +kernel

theorem witness_pairsDecideAndBurstsCommit_looseBurstDone :
    ((({ rig with time := { rig.time with ufc := 3 }, loose := { rig.loose with pairs := [(0, { queue := [], bursts := [{ req := { acc := { id := 8, req := 0, home := 0, homeDie := 0, org := .np 0 0 0, cls := .loose, ctx := some 2, fa := 0, we := false, be := 2 ^ 64 - 1, dat := [], op := .acc }, presented := true, since := 0, base := 0, urgent := false }, b0 := true, b1 := true, dur := 2, from' := 1, last := 2, dbg := false, wait := 0, prio := 0, urg := false, u := 1, half := false }], rr := [0, 0, 0, 0, 0], armed := false })] } } : State).pairSt (0 : Cab) (0 : Fin 16)).bursts.filter (fun x => x.mixed && !x.half && decide (x.from' + 1 < ({ rig with time := { rig.time with ufc := 3 }, loose := { rig.loose with pairs := [(0, { queue := [], bursts := [{ req := { acc := { id := 8, req := 0, home := 0, homeDie := 0, org := .np 0 0 0, cls := .loose, ctx := some 2, fa := 0, we := false, be := 2 ^ 64 - 1, dat := [], op := .acc }, presented := true, since := 0, base := 0, urgent := false }, b0 := true, b1 := true, dur := 2, from' := 1, last := 2, dbg := false, wait := 0, prio := 0, urg := false, u := 1, half := false }], rr := [0, 0, 0, 0, 0], armed := false })] } } : State).time.ufc)) = []) ∧
    ((({ rig with time := { rig.time with ufc := 3 }, loose := { rig.loose with pairs := [(0, { queue := [], bursts := [{ req := { acc := { id := 8, req := 0, home := 0, homeDie := 0, org := .np 0 0 0, cls := .loose, ctx := some 2, fa := 0, we := false, be := 2 ^ 64 - 1, dat := [], op := .acc }, presented := true, since := 0, base := 0, urgent := false }, b0 := true, b1 := true, dur := 2, from' := 1, last := 2, dbg := false, wait := 0, prio := 0, urg := false, u := 1, half := false }], rr := [0, 0, 0, 0, 0], armed := false })] } } : State).pairSt (0 : Cab) (0 : Fin 16)).bursts.filter (fun x => ({ rig with time := { rig.time with ufc := 3 }, loose := { rig.loose with pairs := [(0, { queue := [], bursts := [{ req := { acc := { id := 8, req := 0, home := 0, homeDie := 0, org := .np 0 0 0, cls := .loose, ctx := some 2, fa := 0, we := false, be := 2 ^ 64 - 1, dat := [], op := .acc }, presented := true, since := 0, base := 0, urgent := false }, b0 := true, b1 := true, dur := 2, from' := 1, last := 2, dbg := false, wait := 0, prio := 0, urg := false, u := 1, half := false }], rr := [0, 0, 0, 0, 0], armed := false })] } } : State).burstOver x) = [({ req := { acc := { id := 8, req := 0, home := 0, homeDie := 0, org := .np 0 0 0, cls := .loose, ctx := some 2, fa := 0, we := false, be := 2 ^ 64 - 1, dat := [], op := .acc }, presented := true, since := 0, base := 0, urgent := false }, b0 := true, b1 := true, dur := 2, from' := 1, last := 2, dbg := false, wait := 0, prio := 0, urg := false, u := 1, half := false } : Burst)]) ∧
    (({ req := { acc := { id := 8, req := 0, home := 0, homeDie := 0, org := .np 0 0 0, cls := .loose, ctx := some 2, fa := 0, we := false, be := 2 ^ 64 - 1, dat := [], op := .acc }, presented := true, since := 0, base := 0, urgent := false }, b0 := true, b1 := true, dur := 2, from' := 1, last := 2, dbg := false, wait := 0, prio := 0, urg := false, u := 1, half := false } : Burst).req.acc.op = .acc) := by decide +kernel

theorem witness_pairsDecideAndBurstsCommit_looseBurstDone_sweep :
    ((({ rig with time := { rig.time with ufc := 3 }, loose := { rig.loose with pairs := [(0, { queue := [], bursts := [{ req := { acc := { id := 8, req := 7, home := 0, homeDie := 0, org := .np 0 0 0, cls := .loose, ctx := some 2, fa := 0, we := false, be := 2 ^ 64 - 1, dat := [], op := .sweep 0 0 512 }, presented := true, since := 0, base := 0, urgent := false }, b0 := true, b1 := true, dur := 2, from' := 1, last := 2, dbg := false, wait := 0, prio := 0, urg := false, u := 1, half := false }], rr := [0, 0, 0, 0, 0], armed := false })] } } : State).pairSt (0 : Cab) (0 : Fin 16)).bursts.filter (fun x => x.mixed && !x.half && decide (x.from' + 1 < ({ rig with time := { rig.time with ufc := 3 }, loose := { rig.loose with pairs := [(0, { queue := [], bursts := [{ req := { acc := { id := 8, req := 7, home := 0, homeDie := 0, org := .np 0 0 0, cls := .loose, ctx := some 2, fa := 0, we := false, be := 2 ^ 64 - 1, dat := [], op := .sweep 0 0 512 }, presented := true, since := 0, base := 0, urgent := false }, b0 := true, b1 := true, dur := 2, from' := 1, last := 2, dbg := false, wait := 0, prio := 0, urg := false, u := 1, half := false }], rr := [0, 0, 0, 0, 0], armed := false })] } } : State).time.ufc)) = []) ∧
    ((({ rig with time := { rig.time with ufc := 3 }, loose := { rig.loose with pairs := [(0, { queue := [], bursts := [{ req := { acc := { id := 8, req := 7, home := 0, homeDie := 0, org := .np 0 0 0, cls := .loose, ctx := some 2, fa := 0, we := false, be := 2 ^ 64 - 1, dat := [], op := .sweep 0 0 512 }, presented := true, since := 0, base := 0, urgent := false }, b0 := true, b1 := true, dur := 2, from' := 1, last := 2, dbg := false, wait := 0, prio := 0, urg := false, u := 1, half := false }], rr := [0, 0, 0, 0, 0], armed := false })] } } : State).pairSt (0 : Cab) (0 : Fin 16)).bursts.filter (fun x => ({ rig with time := { rig.time with ufc := 3 }, loose := { rig.loose with pairs := [(0, { queue := [], bursts := [{ req := { acc := { id := 8, req := 7, home := 0, homeDie := 0, org := .np 0 0 0, cls := .loose, ctx := some 2, fa := 0, we := false, be := 2 ^ 64 - 1, dat := [], op := .sweep 0 0 512 }, presented := true, since := 0, base := 0, urgent := false }, b0 := true, b1 := true, dur := 2, from' := 1, last := 2, dbg := false, wait := 0, prio := 0, urg := false, u := 1, half := false }], rr := [0, 0, 0, 0, 0], armed := false })] } } : State).burstOver x) = [({ req := { acc := { id := 8, req := 7, home := 0, homeDie := 0, org := .np 0 0 0, cls := .loose, ctx := some 2, fa := 0, we := false, be := 2 ^ 64 - 1, dat := [], op := .sweep 0 0 512 }, presented := true, since := 0, base := 0, urgent := false }, b0 := true, b1 := true, dur := 2, from' := 1, last := 2, dbg := false, wait := 0, prio := 0, urg := false, u := 1, half := false } : Burst)]) ∧
    (({ req := { acc := { id := 8, req := 7, home := 0, homeDie := 0, org := .np 0 0 0, cls := .loose, ctx := some 2, fa := 0, we := false, be := 2 ^ 64 - 1, dat := [], op := .sweep 0 0 512 }, presented := true, since := 0, base := 0, urgent := false }, b0 := true, b1 := true, dur := 2, from' := 1, last := 2, dbg := false, wait := 0, prio := 0, urg := false, u := 1, half := false } : Burst).req.acc.op = .sweep (0 : Nat) (0 : Nat) (512 : Nat)) := by decide +kernel


theorem witness_arbitrationRegistersTakeEffect_arbPrioWrite :
    ((rig : State).synth (1 : Cab) = true) ∧
    ((rig : State).stationOf (1 : Cab) = .go) ∧
    ((rig : State).rgsShut (masterIdx (.sec : Master)) = false) := by decide +kernel

theorem witness_arbitrationRegistersTakeEffect_arbAgeWrite :
    ((rig : State).synth (1 : Cab) = true) ∧
    ((rig : State).stationOf (1 : Cab) = .go) ∧
    ((rig : State).rgsShut (masterIdx (.sec : Master)) = false) := by decide +kernel

theorem witness_arbitrationRegistersTakeEffect_arbCntClr :
    ((rig.puts [(R.ARB_GRANTS_COUNT 1 10, 5), (R.ARB_PREEMPT_COUNT 1, 9)] : State).synth (1 : Cab) = true) ∧
    ((rig.puts [(R.ARB_GRANTS_COUNT 1 10, 5), (R.ARB_PREEMPT_COUNT 1, 9)] : State).stationOf (1 : Cab) = .go) ∧
    ((rig.puts [(R.ARB_GRANTS_COUNT 1 10, 5), (R.ARB_PREEMPT_COUNT 1, 9)] : State).rgsShut (masterIdx (.sec : Master)) = false) := by decide +kernel


theorem witness_looseFlitsTravelTheMesh_looseFlitHop :
    (({ rig with loose := { rig.loose with flits := [{ acc := { id := 8, req := 0, home := 0, homeDie := 0, org := .np 0 0 0, cls := .loose, ctx := some 2, fa := 0x400000, we := false, be := 2 ^ 64 - 1, dat := [], op := .acc }, ans := none, src := 0, dst := 1, dstDie := 0, cur := 0, port := 4, out := 5, hops := 0, det := none, lvl := 0, ready := 0, since := 0 }] } } : State).loose.flits.find? (fun x => decide (x.acc.id = (8 : Nat))) = some ({ acc := { id := 8, req := 0, home := 0, homeDie := 0, org := .np 0 0 0, cls := .loose, ctx := some 2, fa := 0x400000, we := false, be := 2 ^ 64 - 1, dat := [], op := .acc }, ans := none, src := 0, dst := 1, dstDie := 0, cur := 0, port := 4, out := 5, hops := 0, det := none, lvl := 0, ready := 0, since := 0 } : LFlit)) ∧
    (({ acc := { id := 8, req := 0, home := 0, homeDie := 0, org := .np 0 0 0, cls := .loose, ctx := some 2, fa := 0x400000, we := false, be := 2 ^ 64 - 1, dat := [], op := .acc }, ans := none, src := 0, dst := 1, dstDie := 0, cur := 0, port := 4, out := 5, hops := 0, det := none, lvl := 0, ready := 0, since := 0 } : LFlit).ready ≤ ({ rig with loose := { rig.loose with flits := [{ acc := { id := 8, req := 0, home := 0, homeDie := 0, org := .np 0 0 0, cls := .loose, ctx := some 2, fa := 0x400000, we := false, be := 2 ^ 64 - 1, dat := [], op := .acc }, ans := none, src := 0, dst := 1, dstDie := 0, cur := 0, port := 4, out := 5, hops := 0, det := none, lvl := 0, ready := 0, since := 0 }] } } : State).clock (flitClk ({ acc := { id := 8, req := 0, home := 0, homeDie := 0, org := .np 0 0 0, cls := .loose, ctx := some 2, fa := 0x400000, we := false, be := 2 ^ 64 - 1, dat := [], op := .acc }, ans := none, src := 0, dst := 1, dstDie := 0, cur := 0, port := 4, out := 5, hops := 0, det := none, lvl := 0, ready := 0, since := 0 } : LFlit).acc)) ∧
    (({ acc := { id := 8, req := 0, home := 0, homeDie := 0, org := .np 0 0 0, cls := .loose, ctx := some 2, fa := 0x400000, we := false, be := 2 ^ 64 - 1, dat := [], op := .acc }, ans := none, src := 0, dst := 1, dstDie := 0, cur := 0, port := 4, out := 5, hops := 0, det := none, lvl := 0, ready := 0, since := 0 } : LFlit).cur ≠ ({ acc := { id := 8, req := 0, home := 0, homeDie := 0, org := .np 0 0 0, cls := .loose, ctx := some 2, fa := 0x400000, we := false, be := 2 ^ 64 - 1, dat := [], op := .acc }, ans := none, src := 0, dst := 1, dstDie := 0, cur := 0, port := 4, out := 5, hops := 0, det := none, lvl := 0, ready := 0, since := 0 } : LFlit).dst) ∧
    (({ rig with loose := { rig.loose with flits := [{ acc := { id := 8, req := 0, home := 0, homeDie := 0, org := .np 0 0 0, cls := .loose, ctx := some 2, fa := 0x400000, we := false, be := 2 ^ 64 - 1, dat := [], op := .acc }, ans := none, src := 0, dst := 1, dstDie := 0, cur := 0, port := 4, out := 5, hops := 0, det := none, lvl := 0, ready := 0, since := 0 }] } } : State).lastRouter ({ acc := { id := 8, req := 0, home := 0, homeDie := 0, org := .np 0 0 0, cls := .loose, ctx := some 2, fa := 0x400000, we := false, be := 2 ^ 64 - 1, dat := [], op := .acc }, ans := none, src := 0, dst := 1, dstDie := 0, cur := 0, port := 4, out := 5, hops := 0, det := none, lvl := 0, ready := 0, since := 0 } : LFlit).cur ({ acc := { id := 8, req := 0, home := 0, homeDie := 0, org := .np 0 0 0, cls := .loose, ctx := some 2, fa := 0x400000, we := false, be := 2 ^ 64 - 1, dat := [], op := .acc }, ans := none, src := 0, dst := 1, dstDie := 0, cur := 0, port := 4, out := 5, hops := 0, det := none, lvl := 0, ready := 0, since := 0 } : LFlit).dst = false) ∧
    (({ rig with loose := { rig.loose with flits := [{ acc := { id := 8, req := 0, home := 0, homeDie := 0, org := .np 0 0 0, cls := .loose, ctx := some 2, fa := 0x400000, we := false, be := 2 ^ 64 - 1, dat := [], op := .acc }, ans := none, src := 0, dst := 1, dstDie := 0, cur := 0, port := 4, out := 5, hops := 0, det := none, lvl := 0, ready := 0, since := 0 }] } } : State).looseHop ({ acc := { id := 8, req := 0, home := 0, homeDie := 0, org := .np 0 0 0, cls := .loose, ctx := some 2, fa := 0x400000, we := false, be := 2 ^ 64 - 1, dat := [], op := .acc }, ans := none, src := 0, dst := 1, dstDie := 0, cur := 0, port := 4, out := 5, hops := 0, det := none, lvl := 0, ready := 0, since := 0 } : LFlit).cur ({ acc := { id := 8, req := 0, home := 0, homeDie := 0, org := .np 0 0 0, cls := .loose, ctx := some 2, fa := 0x400000, we := false, be := 2 ^ 64 - 1, dat := [], op := .acc }, ans := none, src := 0, dst := 1, dstDie := 0, cur := 0, port := 4, out := 5, hops := 0, det := none, lvl := 0, ready := 0, since := 0 } : LFlit).dst ({ acc := { id := 8, req := 0, home := 0, homeDie := 0, org := .np 0 0 0, cls := .loose, ctx := some 2, fa := 0x400000, we := false, be := 2 ^ 64 - 1, dat := [], op := .acc }, ans := none, src := 0, dst := 1, dstDie := 0, cur := 0, port := 4, out := 5, hops := 0, det := none, lvl := 0, ready := 0, since := 0 } : LFlit).det = .take (1 : Nat) (1 : Nat) (none : Option Nat)) ∧
    (({ acc := { id := 8, req := 0, home := 0, homeDie := 0, org := .np 0 0 0, cls := .loose, ctx := some 2, fa := 0x400000, we := false, be := 2 ^ 64 - 1, dat := [], op := .acc }, ans := none, src := 0, dst := 1, dstDie := 0, cur := 0, port := 4, out := 5, hops := 0, det := none, lvl := 0, ready := 0, since := 0 } : LFlit).hops + 1 ≤ hopDist ({ acc := { id := 8, req := 0, home := 0, homeDie := 0, org := .np 0 0 0, cls := .loose, ctx := some 2, fa := 0x400000, we := false, be := 2 ^ 64 - 1, dat := [], op := .acc }, ans := none, src := 0, dst := 1, dstDie := 0, cur := 0, port := 4, out := 5, hops := 0, det := none, lvl := 0, ready := 0, since := 0 } : LFlit).src ({ acc := { id := 8, req := 0, home := 0, homeDie := 0, org := .np 0 0 0, cls := .loose, ctx := some 2, fa := 0x400000, we := false, be := 2 ^ 64 - 1, dat := [], op := .acc }, ans := none, src := 0, dst := 1, dstDie := 0, cur := 0, port := 4, out := 5, hops := 0, det := none, lvl := 0, ready := 0, since := 0 } : LFlit).dst + 16) := by decide +kernel

theorem witness_looseFlitsTravelTheMesh_looseFlitHop_land :
    (({ rig with loose := { rig.loose with flits := [{ acc := { id := 8, req := 0, home := 0, homeDie := 0, org := .np 0 0 0, cls := .loose, ctx := some 2, fa := 0x400000, we := false, be := 2 ^ 64 - 1, dat := [], op := .acc }, ans := none, src := 0, dst := 1, dstDie := 0, cur := 1, port := 4, out := 5, hops := 0, det := none, lvl := 0, ready := 0, since := 0 }] } } : State).loose.flits.find? (fun x => decide (x.acc.id = (8 : Nat))) = some ({ acc := { id := 8, req := 0, home := 0, homeDie := 0, org := .np 0 0 0, cls := .loose, ctx := some 2, fa := 0x400000, we := false, be := 2 ^ 64 - 1, dat := [], op := .acc }, ans := none, src := 0, dst := 1, dstDie := 0, cur := 1, port := 4, out := 5, hops := 0, det := none, lvl := 0, ready := 0, since := 0 } : LFlit)) ∧
    (({ acc := { id := 8, req := 0, home := 0, homeDie := 0, org := .np 0 0 0, cls := .loose, ctx := some 2, fa := 0x400000, we := false, be := 2 ^ 64 - 1, dat := [], op := .acc }, ans := none, src := 0, dst := 1, dstDie := 0, cur := 1, port := 4, out := 5, hops := 0, det := none, lvl := 0, ready := 0, since := 0 } : LFlit).ready ≤ ({ rig with loose := { rig.loose with flits := [{ acc := { id := 8, req := 0, home := 0, homeDie := 0, org := .np 0 0 0, cls := .loose, ctx := some 2, fa := 0x400000, we := false, be := 2 ^ 64 - 1, dat := [], op := .acc }, ans := none, src := 0, dst := 1, dstDie := 0, cur := 1, port := 4, out := 5, hops := 0, det := none, lvl := 0, ready := 0, since := 0 }] } } : State).clock (flitClk ({ acc := { id := 8, req := 0, home := 0, homeDie := 0, org := .np 0 0 0, cls := .loose, ctx := some 2, fa := 0x400000, we := false, be := 2 ^ 64 - 1, dat := [], op := .acc }, ans := none, src := 0, dst := 1, dstDie := 0, cur := 1, port := 4, out := 5, hops := 0, det := none, lvl := 0, ready := 0, since := 0 } : LFlit).acc)) ∧
    (({ acc := { id := 8, req := 0, home := 0, homeDie := 0, org := .np 0 0 0, cls := .loose, ctx := some 2, fa := 0x400000, we := false, be := 2 ^ 64 - 1, dat := [], op := .acc }, ans := none, src := 0, dst := 1, dstDie := 0, cur := 1, port := 4, out := 5, hops := 0, det := none, lvl := 0, ready := 0, since := 0 } : LFlit).cur = ({ acc := { id := 8, req := 0, home := 0, homeDie := 0, org := .np 0 0 0, cls := .loose, ctx := some 2, fa := 0x400000, we := false, be := 2 ^ 64 - 1, dat := [], op := .acc }, ans := none, src := 0, dst := 1, dstDie := 0, cur := 1, port := 4, out := 5, hops := 0, det := none, lvl := 0, ready := 0, since := 0 } : LFlit).dst) ∧
    (({ acc := { id := 8, req := 0, home := 0, homeDie := 0, org := .np 0 0 0, cls := .loose, ctx := some 2, fa := 0x400000, we := false, be := 2 ^ 64 - 1, dat := [], op := .acc }, ans := none, src := 0, dst := 1, dstDie := 0, cur := 1, port := 4, out := 5, hops := 0, det := none, lvl := 0, ready := 0, since := 0 } : LFlit).dstDie = ({ rig with loose := { rig.loose with flits := [{ acc := { id := 8, req := 0, home := 0, homeDie := 0, org := .np 0 0 0, cls := .loose, ctx := some 2, fa := 0x400000, we := false, be := 2 ^ 64 - 1, dat := [], op := .acc }, ans := none, src := 0, dst := 1, dstDie := 0, cur := 1, port := 4, out := 5, hops := 0, det := none, lvl := 0, ready := 0, since := 0 }] } } : State).die) ∧
    (({ acc := { id := 8, req := 0, home := 0, homeDie := 0, org := .np 0 0 0, cls := .loose, ctx := some 2, fa := 0x400000, we := false, be := 2 ^ 64 - 1, dat := [], op := .acc }, ans := none, src := 0, dst := 1, dstDie := 0, cur := 1, port := 4, out := 5, hops := 0, det := none, lvl := 0, ready := 0, since := 0 } : LFlit).ans = none) ∧
    (({ rig with loose := { rig.loose with flits := [{ acc := { id := 8, req := 0, home := 0, homeDie := 0, org := .np 0 0 0, cls := .loose, ctx := some 2, fa := 0x400000, we := false, be := 2 ^ 64 - 1, dat := [], op := .acc }, ans := none, src := 0, dst := 1, dstDie := 0, cur := 1, port := 4, out := 5, hops := 0, det := none, lvl := 0, ready := 0, since := 0 }] } } : State).flitFirst ({ acc := { id := 8, req := 0, home := 0, homeDie := 0, org := .np 0 0 0, cls := .loose, ctx := some 2, fa := 0x400000, we := false, be := 2 ^ 64 - 1, dat := [], op := .acc }, ans := none, src := 0, dst := 1, dstDie := 0, cur := 1, port := 4, out := 5, hops := 0, det := none, lvl := 0, ready := 0, since := 0 } : LFlit) = true) ∧
    (({ rig with loose := { rig.loose with flits := [{ acc := { id := 8, req := 0, home := 0, homeDie := 0, org := .np 0 0 0, cls := .loose, ctx := some 2, fa := 0x400000, we := false, be := 2 ^ 64 - 1, dat := [], op := .acc }, ans := none, src := 0, dst := 1, dstDie := 0, cur := 1, port := 4, out := 5, hops := 0, det := none, lvl := 0, ready := 0, since := 0 }] } } : State).inbBusy ({ acc := { id := 8, req := 0, home := 0, homeDie := 0, org := .np 0 0 0, cls := .loose, ctx := some 2, fa := 0x400000, we := false, be := 2 ^ 64 - 1, dat := [], op := .acc }, ans := none, src := 0, dst := 1, dstDie := 0, cur := 1, port := 4, out := 5, hops := 0, det := none, lvl := 0, ready := 0, since := 0 } : LFlit) = false) ∧
    (({ rig with loose := { rig.loose with flits := [{ acc := { id := 8, req := 0, home := 0, homeDie := 0, org := .np 0 0 0, cls := .loose, ctx := some 2, fa := 0x400000, we := false, be := 2 ^ 64 - 1, dat := [], op := .acc }, ans := none, src := 0, dst := 1, dstDie := 0, cur := 1, port := 4, out := 5, hops := 0, det := none, lvl := 0, ready := 0, since := 0 }] } } : State).lastRouter ({ acc := { id := 8, req := 0, home := 0, homeDie := 0, org := .np 0 0 0, cls := .loose, ctx := some 2, fa := 0x400000, we := false, be := 2 ^ 64 - 1, dat := [], op := .acc }, ans := none, src := 0, dst := 1, dstDie := 0, cur := 1, port := 4, out := 5, hops := 0, det := none, lvl := 0, ready := 0, since := 0 } : LFlit).cur ({ acc := { id := 8, req := 0, home := 0, homeDie := 0, org := .np 0 0 0, cls := .loose, ctx := some 2, fa := 0x400000, we := false, be := 2 ^ 64 - 1, dat := [], op := .acc }, ans := none, src := 0, dst := 1, dstDie := 0, cur := 1, port := 4, out := 5, hops := 0, det := none, lvl := 0, ready := 0, since := 0 } : LFlit).dst = false) ∧
    (({ rig with loose := { rig.loose with flits := [{ acc := { id := 8, req := 0, home := 0, homeDie := 0, org := .np 0 0 0, cls := .loose, ctx := some 2, fa := 0x400000, we := false, be := 2 ^ 64 - 1, dat := [], op := .acc }, ans := none, src := 0, dst := 1, dstDie := 0, cur := 1, port := 4, out := 5, hops := 0, det := none, lvl := 0, ready := 0, since := 0 }] } } : State).loose.recalled.contains ({ acc := { id := 8, req := 0, home := 0, homeDie := 0, org := .np 0 0 0, cls := .loose, ctx := some 2, fa := 0x400000, we := false, be := 2 ^ 64 - 1, dat := [], op := .acc }, ans := none, src := 0, dst := 1, dstDie := 0, cur := 1, port := 4, out := 5, hops := 0, det := none, lvl := 0, ready := 0, since := 0 } : LFlit).acc.id = false) := by decide +kernel

theorem witness_looseFlitsTravelTheMesh_looseFlitHop_answer :
    (({ rig with loose := { rig.loose with flits := [{ acc := { id := 8, req := 0, home := 0, homeDie := 0, org := .np 0 0 0, cls := .loose, ctx := some 2, fa := 0x400000, we := false, be := 2 ^ 64 - 1, dat := [], op := .acc }, ans := some { resp := .ok, dat := [1, 2], zero := [false, false] }, src := 0, dst := 1, dstDie := 0, cur := 1, port := 4, out := 5, hops := 0, det := none, lvl := 0, ready := 0, since := 0 }] } } : State).loose.flits.find? (fun x => decide (x.acc.id = (8 : Nat))) = some ({ acc := { id := 8, req := 0, home := 0, homeDie := 0, org := .np 0 0 0, cls := .loose, ctx := some 2, fa := 0x400000, we := false, be := 2 ^ 64 - 1, dat := [], op := .acc }, ans := some { resp := .ok, dat := [1, 2], zero := [false, false] }, src := 0, dst := 1, dstDie := 0, cur := 1, port := 4, out := 5, hops := 0, det := none, lvl := 0, ready := 0, since := 0 } : LFlit)) ∧
    (({ acc := { id := 8, req := 0, home := 0, homeDie := 0, org := .np 0 0 0, cls := .loose, ctx := some 2, fa := 0x400000, we := false, be := 2 ^ 64 - 1, dat := [], op := .acc }, ans := some { resp := .ok, dat := [1, 2], zero := [false, false] }, src := 0, dst := 1, dstDie := 0, cur := 1, port := 4, out := 5, hops := 0, det := none, lvl := 0, ready := 0, since := 0 } : LFlit).ready ≤ ({ rig with loose := { rig.loose with flits := [{ acc := { id := 8, req := 0, home := 0, homeDie := 0, org := .np 0 0 0, cls := .loose, ctx := some 2, fa := 0x400000, we := false, be := 2 ^ 64 - 1, dat := [], op := .acc }, ans := some { resp := .ok, dat := [1, 2], zero := [false, false] }, src := 0, dst := 1, dstDie := 0, cur := 1, port := 4, out := 5, hops := 0, det := none, lvl := 0, ready := 0, since := 0 }] } } : State).clock (flitClk ({ acc := { id := 8, req := 0, home := 0, homeDie := 0, org := .np 0 0 0, cls := .loose, ctx := some 2, fa := 0x400000, we := false, be := 2 ^ 64 - 1, dat := [], op := .acc }, ans := some { resp := .ok, dat := [1, 2], zero := [false, false] }, src := 0, dst := 1, dstDie := 0, cur := 1, port := 4, out := 5, hops := 0, det := none, lvl := 0, ready := 0, since := 0 } : LFlit).acc)) ∧
    (({ acc := { id := 8, req := 0, home := 0, homeDie := 0, org := .np 0 0 0, cls := .loose, ctx := some 2, fa := 0x400000, we := false, be := 2 ^ 64 - 1, dat := [], op := .acc }, ans := some { resp := .ok, dat := [1, 2], zero := [false, false] }, src := 0, dst := 1, dstDie := 0, cur := 1, port := 4, out := 5, hops := 0, det := none, lvl := 0, ready := 0, since := 0 } : LFlit).cur = ({ acc := { id := 8, req := 0, home := 0, homeDie := 0, org := .np 0 0 0, cls := .loose, ctx := some 2, fa := 0x400000, we := false, be := 2 ^ 64 - 1, dat := [], op := .acc }, ans := some { resp := .ok, dat := [1, 2], zero := [false, false] }, src := 0, dst := 1, dstDie := 0, cur := 1, port := 4, out := 5, hops := 0, det := none, lvl := 0, ready := 0, since := 0 } : LFlit).dst) ∧
    (({ acc := { id := 8, req := 0, home := 0, homeDie := 0, org := .np 0 0 0, cls := .loose, ctx := some 2, fa := 0x400000, we := false, be := 2 ^ 64 - 1, dat := [], op := .acc }, ans := some { resp := .ok, dat := [1, 2], zero := [false, false] }, src := 0, dst := 1, dstDie := 0, cur := 1, port := 4, out := 5, hops := 0, det := none, lvl := 0, ready := 0, since := 0 } : LFlit).dstDie = ({ rig with loose := { rig.loose with flits := [{ acc := { id := 8, req := 0, home := 0, homeDie := 0, org := .np 0 0 0, cls := .loose, ctx := some 2, fa := 0x400000, we := false, be := 2 ^ 64 - 1, dat := [], op := .acc }, ans := some { resp := .ok, dat := [1, 2], zero := [false, false] }, src := 0, dst := 1, dstDie := 0, cur := 1, port := 4, out := 5, hops := 0, det := none, lvl := 0, ready := 0, since := 0 }] } } : State).die) ∧
    (({ acc := { id := 8, req := 0, home := 0, homeDie := 0, org := .np 0 0 0, cls := .loose, ctx := some 2, fa := 0x400000, we := false, be := 2 ^ 64 - 1, dat := [], op := .acc }, ans := some { resp := .ok, dat := [1, 2], zero := [false, false] }, src := 0, dst := 1, dstDie := 0, cur := 1, port := 4, out := 5, hops := 0, det := none, lvl := 0, ready := 0, since := 0 } : LFlit).ans = some ({ resp := .ok, dat := [1, 2], zero := [false, false] } : Ans)) ∧
    (({ rig with loose := { rig.loose with flits := [{ acc := { id := 8, req := 0, home := 0, homeDie := 0, org := .np 0 0 0, cls := .loose, ctx := some 2, fa := 0x400000, we := false, be := 2 ^ 64 - 1, dat := [], op := .acc }, ans := some { resp := .ok, dat := [1, 2], zero := [false, false] }, src := 0, dst := 1, dstDie := 0, cur := 1, port := 4, out := 5, hops := 0, det := none, lvl := 0, ready := 0, since := 0 }] } } : State).flitFirst ({ acc := { id := 8, req := 0, home := 0, homeDie := 0, org := .np 0 0 0, cls := .loose, ctx := some 2, fa := 0x400000, we := false, be := 2 ^ 64 - 1, dat := [], op := .acc }, ans := some { resp := .ok, dat := [1, 2], zero := [false, false] }, src := 0, dst := 1, dstDie := 0, cur := 1, port := 4, out := 5, hops := 0, det := none, lvl := 0, ready := 0, since := 0 } : LFlit) = true) ∧
    (({ rig with loose := { rig.loose with flits := [{ acc := { id := 8, req := 0, home := 0, homeDie := 0, org := .np 0 0 0, cls := .loose, ctx := some 2, fa := 0x400000, we := false, be := 2 ^ 64 - 1, dat := [], op := .acc }, ans := some { resp := .ok, dat := [1, 2], zero := [false, false] }, src := 0, dst := 1, dstDie := 0, cur := 1, port := 4, out := 5, hops := 0, det := none, lvl := 0, ready := 0, since := 0 }] } } : State).lastRouter ({ acc := { id := 8, req := 0, home := 0, homeDie := 0, org := .np 0 0 0, cls := .loose, ctx := some 2, fa := 0x400000, we := false, be := 2 ^ 64 - 1, dat := [], op := .acc }, ans := some { resp := .ok, dat := [1, 2], zero := [false, false] }, src := 0, dst := 1, dstDie := 0, cur := 1, port := 4, out := 5, hops := 0, det := none, lvl := 0, ready := 0, since := 0 } : LFlit).cur ({ acc := { id := 8, req := 0, home := 0, homeDie := 0, org := .np 0 0 0, cls := .loose, ctx := some 2, fa := 0x400000, we := false, be := 2 ^ 64 - 1, dat := [], op := .acc }, ans := some { resp := .ok, dat := [1, 2], zero := [false, false] }, src := 0, dst := 1, dstDie := 0, cur := 1, port := 4, out := 5, hops := 0, det := none, lvl := 0, ready := 0, since := 0 } : LFlit).dst = false) := by decide +kernel

theorem witness_looseFlitsTravelTheMesh_linkOutputGrant :
    (({ rig with loose := { rig.loose with flits := [{ acc := { id := 8, req := 0, home := 0, homeDie := 0, org := .np 0 0 0, cls := .loose, ctx := some 2, fa := 0x400000, we := false, be := 2 ^ 64 - 1, dat := [], op := .acc }, ans := none, src := 0, dst := 1, dstDie := 0, cur := 0, port := 4, out := 1, hops := 0, det := none, lvl := 0, ready := 0, since := 0 }] } } : State).frozen = false) ∧
    ((({ rig with loose := { rig.loose with flits := [{ acc := { id := 8, req := 0, home := 0, homeDie := 0, org := .np 0 0 0, cls := .loose, ctx := some 2, fa := 0x400000, we := false, be := 2 ^ 64 - 1, dat := [], op := .acc }, ans := none, src := 0, dst := 1, dstDie := 0, cur := 0, port := 4, out := 1, hops := 0, det := none, lvl := 0, ready := 0, since := 0 }] } } : State).outAge (0 : Cab) (dirIdx (.e : Dir))).set.slots.any (fun x => decide (x.1 = (0 : Cab).val) && decide (x.2.1 = dirIdx (.e : Dir)) && decide (x.2.2.1 = ({ rig with loose := { rig.loose with flits := [{ acc := { id := 8, req := 0, home := 0, homeDie := 0, org := .np 0 0 0, cls := .loose, ctx := some 2, fa := 0x400000, we := false, be := 2 ^ 64 - 1, dat := [], op := .acc }, ans := none, src := 0, dst := 1, dstDie := 0, cur := 0, port := 4, out := 1, hops := 0, det := none, lvl := 0, ready := 0, since := 0 }] } } : State).time.stime)) = false) ∧
    ((({ rig with loose := { rig.loose with flits := [{ acc := { id := 8, req := 0, home := 0, homeDie := 0, org := .np 0 0 0, cls := .loose, ctx := some 2, fa := 0x400000, we := false, be := 2 ^ 64 - 1, dat := [], op := .acc }, ans := none, src := 0, dst := 1, dstDie := 0, cur := 0, port := 4, out := 1, hops := 0, det := none, lvl := 0, ready := 0, since := 0 }] } } : State).outAge (0 : Cab) (dirIdx (.e : Dir))).outPick (0 : Cab) (dirIdx (.e : Dir)) = some ({ acc := { id := 8, req := 0, home := 0, homeDie := 0, org := .np 0 0 0, cls := .loose, ctx := some 2, fa := 0x400000, we := false, be := 2 ^ 64 - 1, dat := [], op := .acc }, ans := none, src := 0, dst := 1, dstDie := 0, cur := 0, port := 4, out := 1, hops := 0, det := none, lvl := 0, ready := 0, since := 1 } : LFlit)) ∧
    ((({ rig with loose := { rig.loose with flits := [{ acc := { id := 8, req := 0, home := 0, homeDie := 0, org := .np 0 0 0, cls := .loose, ctx := some 2, fa := 0x400000, we := false, be := 2 ^ 64 - 1, dat := [], op := .acc }, ans := none, src := 0, dst := 1, dstDie := 0, cur := 0, port := 4, out := 1, hops := 0, det := none, lvl := 0, ready := 0, since := 0 }] } } : State).outAge (0 : Cab) (dirIdx (.e : Dir))).looseHop (0 : Cab) ({ acc := { id := 8, req := 0, home := 0, homeDie := 0, org := .np 0 0 0, cls := .loose, ctx := some 2, fa := 0x400000, we := false, be := 2 ^ 64 - 1, dat := [], op := .acc }, ans := none, src := 0, dst := 1, dstDie := 0, cur := 0, port := 4, out := 1, hops := 0, det := none, lvl := 0, ready := 0, since := 1 } : LFlit).dst ({ acc := { id := 8, req := 0, home := 0, homeDie := 0, org := .np 0 0 0, cls := .loose, ctx := some 2, fa := 0x400000, we := false, be := 2 ^ 64 - 1, dat := [], op := .acc }, ans := none, src := 0, dst := 1, dstDie := 0, cur := 0, port := 4, out := 1, hops := 0, det := none, lvl := 0, ready := 0, since := 1 } : LFlit).det = .take (dirIdx (.e : Dir)) (1 : Nat) (none : Option Nat)) ∧
    (((({ rig with loose := { rig.loose with flits := [{ acc := { id := 8, req := 0, home := 0, homeDie := 0, org := .np 0 0 0, cls := .loose, ctx := some 2, fa := 0x400000, we := false, be := 2 ^ 64 - 1, dat := [], op := .acc }, ans := none, src := 0, dst := 1, dstDie := 0, cur := 0, port := 4, out := 1, hops := 0, det := none, lvl := 0, ready := 0, since := 0 }] } } : State).outAge (0 : Cab) (dirIdx (.e : Dir))).loose.flits.filter (fun x => decide (x.cur = (1 : Nat)) && decide (x.port = opposite (dirIdx (.e : Dir))))).length < 8) := by decide +kernel


theorem witness_retirementsAreRecorded_autoRetire :
    ((((State.reset.put (R.BNK_RET_LIMIT_LIMIT 0) 3).put (mcntFld 0 31 17) 3).put (R.BNK_ECC_CTL_AUTO_RET 0) 1 : State).bit (R.BNK_RETIRE_V1 (0 : Cab) (31 : Bank)) = false) ∧
    ((((State.reset.put (R.BNK_RET_LIMIT_LIMIT 0) 3).put (mcntFld 0 31 17) 3).put (R.BNK_ECC_CTL_AUTO_RET 0) 1 : State).rep.retDue.contains ((0 : Cab).val, (31 : Bank).val, (17 : Fin 18).val) = true ∨ (((State.reset.put (R.BNK_RET_LIMIT_LIMIT 0) 3).put (mcntFld 0 31 17) 3).put (R.BNK_ECC_CTL_AUTO_RET 0) 1 : State).bit (R.BNK_ECC_CTL_AUTO_RET (0 : Cab)) = true ∧ (((State.reset.put (R.BNK_RET_LIMIT_LIMIT 0) 3).put (mcntFld 0 31 17) 3).put (R.BNK_ECC_CTL_AUTO_RET 0) 1 : State).f (R.BNK_RET_LIMIT_LIMIT (0 : Cab)) ≤ (((State.reset.put (R.BNK_RET_LIMIT_LIMIT 0) 3).put (mcntFld 0 31 17) 3).put (R.BNK_ECC_CTL_AUTO_RET 0) 1 : State).f (mcntFld (0 : Cab) (31 : Bank) (17 : Fin 18))) := by decide +kernel

theorem witness_retirementsAreRecorded_retireWrite :
    (((State.reset.put (cabState 0) 0) : State).synth (0 : Cab) = true) ∧
    (((State.reset.put (cabState 0) 0) : State).stationOf (0 : Cab) = .go) ∧
    (bankMaster (Master.sec : Master) (0 : Cab) = true) ∧
    (((State.reset.put (cabState 0) 0) : State).bit (R.BNK_RETIRE_V1 (0 : Cab) (0 : Bank)) = false) ∧
    (vbit (0x31 : W32) 5 = true) ∧
    (vbit (0x31 : W32) 13 = false) ∧
    ((0x31 : W32).toNat % 32 ≤ 17) ∧
    (((State.reset.put (cabState 0) 0) : State).rgsShut (masterIdx (Master.sec : Master)) = false) := by decide +kernel

theorem witness_retirementsAreRecorded_retireWrite_second :
    (((State.reset.put (cabState 0) 0).puts [(R.BNK_RETIRE_V1 0 0, 1)] : State).synth (0 : Cab) = true) ∧
    (((State.reset.put (cabState 0) 0).puts [(R.BNK_RETIRE_V1 0 0, 1)] : State).stationOf (0 : Cab) = .go) ∧
    (bankMaster (Master.sec : Master) (0 : Cab) = true) ∧
    (((State.reset.put (cabState 0) 0).puts [(R.BNK_RETIRE_V1 0 0, 1)] : State).bit (R.BNK_RETIRE_V1 (0 : Cab) (0 : Bank)) = true) ∧
    (((State.reset.put (cabState 0) 0).puts [(R.BNK_RETIRE_V1 0 0, 1)] : State).bit (R.BNK_RETIRE_V2 (0 : Cab) (0 : Bank)) = false) ∧
    (vbit (0x2100 : W32) 13 = true) ∧
    ((0x2100 : W32).toNat / 256 % 32 ≤ 17) ∧
    ((0x2100 : W32).toNat / 256 % 32 ≠ ((State.reset.put (cabState 0) 0).puts [(R.BNK_RETIRE_V1 0 0, 1)] : State).f (R.BNK_RETIRE_MAC1 (0 : Cab) (0 : Bank))) ∧
    (((State.reset.put (cabState 0) 0).puts [(R.BNK_RETIRE_V1 0 0, 1)] : State).rgsShut (masterIdx (Master.sec : Master)) = false) := by decide +kernel


theorem witness_bankRegistersAreWritten_bktCfgWrite :
    (((State.reset.put (cabState 0) 0) : State).synth (0 : Cab) = true) ∧
    (((State.reset.put (cabState 0) 0) : State).stationOf (0 : Cab) = .go) ∧
    (bankMaster (Master.sec : Master) (0 : Cab) = true) ∧
    (((State.reset.put (cabState 0) 0) : State).rgsShut (masterIdx (Master.sec : Master)) = false) := by decide +kernel

theorem witness_bankRegistersAreWritten_injCtlWrite :
    (((State.reset.put (cabState 0) 0) : State).synth (0 : Cab) = true) ∧
    (((State.reset.put (cabState 0) 0) : State).stationOf (0 : Cab) = .go) ∧
    (bankMaster (Master.dbg : Master) (0 : Cab) = true) ∧
    ((0x11FFFF : W32).toNat / 65536 % 32 ≤ 17) ∧
    (((State.reset.put (cabState 0) 0) : State).rgsShut (masterIdx (Master.dbg : Master)) = false) := by decide +kernel

theorem witness_bankRegistersAreWritten_bnkCntClr :
    ((((State.reset.put (cabState 1) 0).puts [(R.BNK_STAT_UE 1, 4), (R.BNK_STAT_VB 1, 4), (mcntFld 1 31 17, 9), (R.BNK_BKT_LEVEL 1 31, 2)]).incOn (R.BNK_STAT_UE 1) 0 : State).synth (1 : Cab) = true) ∧
    ((((State.reset.put (cabState 1) 0).puts [(R.BNK_STAT_UE 1, 4), (R.BNK_STAT_VB 1, 4), (mcntFld 1 31 17, 9), (R.BNK_BKT_LEVEL 1 31, 2)]).incOn (R.BNK_STAT_UE 1) 0 : State).stationOf (1 : Cab) = .go) ∧
    (bankMaster (Master.sec : Master) (1 : Cab) = true) ∧
    ((((State.reset.put (cabState 1) 0).puts [(R.BNK_STAT_UE 1, 4), (R.BNK_STAT_VB 1, 4), (mcntFld 1 31 17, 9), (R.BNK_BKT_LEVEL 1 31, 2)]).incOn (R.BNK_STAT_UE 1) 0 : State).rgsShut (masterIdx (Master.sec : Master)) = false) := by decide +kernel


theorem witness_sweepsClearValidBits_swpGo :
    (((State.reset.put (cabState 0) 0) : State).synth (0 : Cab) = true) ∧
    (((State.reset.put (cabState 0) 0) : State).stationOf (0 : Cab) = .go) ∧
    (bankMaster (Master.sec : Master) (0 : Cab) = true) ∧
    (vbit (1 : W32) 0 = true) ∧
    (vbit (1 : W32) 1 = false) ∧
    (vbit (1 : W32) 2 = false) ∧
    (((State.reset.put (cabState 0) 0) : State).bit (R.BNK_SWP_CTL_GO (0 : Cab)) = false) ∧
    (((State.reset.put (cabState 0) 0) : State).f (R.BNK_SWP_BASE_BASE (0 : Cab)) ≤ ((State.reset.put (cabState 0) 0) : State).f (R.BNK_SWP_LIMIT_LIMIT (0 : Cab))) ∧
    ((((State.reset.put (cabState 0) 0) : State).swp (0 : Cab)).queue.length < 4) ∧
    (((State.reset.put (cabState 0) 0) : State).rgsShut (masterIdx (Master.sec : Master)) = false) := by decide +kernel

theorem witness_sweepsClearValidBits_sweepRangeDone :
    ((({ State.reset with rep := { State.reset.rep with swp := [(2, { run := some { base := 0, limit := 5, org := .reg, todo := [], busy := 0 }, queue := [] })] } } : State).swp (2 : Cab)).run = some ({ base := 0, limit := 5, org := .reg, todo := [], busy := 0 } : SwpRange)) ∧
    (({ base := 0, limit := 5, org := .reg, todo := [], busy := 0 } : SwpRange).todo = []) ∧
    (({ base := 0, limit := 5, org := .reg, todo := [], busy := 0 } : SwpRange).busy = 0) ∧
    ((({ State.reset with rep := { State.reset.rep with swp := [(2, { run := some { base := 0, limit := 5, org := .reg, todo := [], busy := 0 }, queue := [] })] } } : State).swp (2 : Cab)).queue = []) ∧
    (({ base := 0, limit := 5, org := .reg, todo := [], busy := 0 } : SwpRange).org = .reg) ∧
    (({ State.reset with rep := { State.reset.rep with swp := [(2, { run := some { base := 0, limit := 5, org := .reg, todo := [], busy := 0 }, queue := [] })] } } : State).rep.swpWait.find? (fun e => decide (e.1 = (2 : Cab).val)) = none) := by decide +kernel

theorem witness_sweepsClearValidBits_sweepRangeDone_over :
    ((({ State.reset with rep := { State.reset.rep with swp := [(2, { run := some { base := 0, limit := 5, org := .window 3, todo := [], busy := 0 }, queue := [] })] } } : State).swp (2 : Cab)).run = some ({ base := 0, limit := 5, org := .window 3, todo := [], busy := 0 } : SwpRange)) ∧
    (({ base := 0, limit := 5, org := .window 3, todo := [], busy := 0 } : SwpRange).todo = []) ∧
    (({ base := 0, limit := 5, org := .window 3, todo := [], busy := 0 } : SwpRange).busy = 0) ∧
    ((((({ State.reset with rep := { State.reset.rep with swp := [(2, { run := some { base := 0, limit := 5, org := .window 3, todo := [], busy := 0 }, queue := [] })] } } : State).setSwp (2 : Cab) { (({ State.reset with rep := { State.reset.rep with swp := [(2, { run := some { base := 0, limit := 5, org := .window 3, todo := [], busy := 0 }, queue := [] })] } } : State).swp (2 : Cab)) with run := none }).sweepOver (2 : Cab) ({ base := 0, limit := 5, org := .window 3, todo := [], busy := 0 } : SwpRange).org 0).swp (2 : Cab)).queue = []) ∧
    (((({ State.reset with rep := { State.reset.rep with swp := [(2, { run := some { base := 0, limit := 5, org := .window 3, todo := [], busy := 0 }, queue := [] })] } } : State).setSwp (2 : Cab) { (({ State.reset with rep := { State.reset.rep with swp := [(2, { run := some { base := 0, limit := 5, org := .window 3, todo := [], busy := 0 }, queue := [] })] } } : State).swp (2 : Cab)) with run := none }).sweepOver (2 : Cab) ({ base := 0, limit := 5, org := .window 3, todo := [], busy := 0 } : SwpRange).org 0).rep.swpWait.find? (fun e => decide (e.1 = (2 : Cab).val)) = none) := by decide +kernel

theorem witness_sweepsClearValidBits_sweepRangeDone_next :
    ((({ State.reset with rep := { State.reset.rep with swp := [(2, { run := some { base := 0, limit := 5, org := .reg, todo := [], busy := 0 }, queue := [{ base := 0, limit := 7, org := .reg, todo := [], busy := 0 }] })] } } : State).swp (2 : Cab)).run = some ({ base := 0, limit := 5, org := .reg, todo := [], busy := 0 } : SwpRange)) ∧
    (({ base := 0, limit := 5, org := .reg, todo := [], busy := 0 } : SwpRange).todo = []) ∧
    (({ base := 0, limit := 5, org := .reg, todo := [], busy := 0 } : SwpRange).busy = 0) ∧
    ((((({ State.reset with rep := { State.reset.rep with swp := [(2, { run := some { base := 0, limit := 5, org := .reg, todo := [], busy := 0 }, queue := [{ base := 0, limit := 7, org := .reg, todo := [], busy := 0 }] })] } } : State).setSwp (2 : Cab) { (({ State.reset with rep := { State.reset.rep with swp := [(2, { run := some { base := 0, limit := 5, org := .reg, todo := [], busy := 0 }, queue := [{ base := 0, limit := 7, org := .reg, todo := [], busy := 0 }] })] } } : State).swp (2 : Cab)) with run := none }).sweepOver (2 : Cab) ({ base := 0, limit := 5, org := .reg, todo := [], busy := 0 } : SwpRange).org 0).swp (2 : Cab)).queue = ({ base := 0, limit := 7, org := .reg, todo := [], busy := 0 } : SwpRange) :: ([] : List SwpRange)) ∧
    (((((({ State.reset with rep := { State.reset.rep with swp := [(2, { run := some { base := 0, limit := 5, org := .reg, todo := [], busy := 0 }, queue := [{ base := 0, limit := 7, org := .reg, todo := [], busy := 0 }] })] } } : State).setSwp (2 : Cab) { (({ State.reset with rep := { State.reset.rep with swp := [(2, { run := some { base := 0, limit := 5, org := .reg, todo := [], busy := 0 }, queue := [{ base := 0, limit := 7, org := .reg, todo := [], busy := 0 }] })] } } : State).swp (2 : Cab)) with run := none }).sweepOver (2 : Cab) ({ base := 0, limit := 5, org := .reg, todo := [], busy := 0 } : SwpRange).org 0).setSwp (2 : Cab) { run := none, queue := ([] : List SwpRange) }).sweepStart (2 : Cab) ({ base := 0, limit := 7, org := .reg, todo := [], busy := 0 } : SwpRange)).rep.swpWait.find? (fun e => decide (e.1 = (2 : Cab).val)) = none) := by decide +kernel

theorem witness_sweepsClearValidBits_sweepRangeDone_rows :
    ((6 : Nat) < 4096) ∧
    ((3 : Nat) < 32) ∧
    ((5 : Nat) + (2 : Nat) ≤ 4096) ∧
    ((3 : Nat) < 32) := by decide +kernel


theorem witness_logsAreAcknowledged_logAck :
    (((Master.dbg : Master) == (if ((State.reset.puts [(R.ERR_LOG_STAT_FIRST_V 1, 1), (R.ERR_LOG_STAT_NEXT_V 1, 1)]).setReg (R.ERR_NEXT_ADDR 1) 77 : State).f (R.ERR_LOG_CTL_OWNER (1 : Fin 4)) = 0 then Master.sec else Master.hrp) || (Master.dbg : Master) == .dbg) = true) ∧
    (vbit (1 : W32) 1 = false) ∧
    (((State.reset.puts [(R.ERR_LOG_STAT_FIRST_V 1, 1), (R.ERR_LOG_STAT_NEXT_V 1, 1)]).setReg (R.ERR_NEXT_ADDR 1) 77 : State).bit (R.ERR_LOG_STAT_FIRST_V (1 : Fin 4)) = true) ∧
    (((State.reset.puts [(R.ERR_LOG_STAT_FIRST_V 1, 1), (R.ERR_LOG_STAT_NEXT_V 1, 1)]).setReg (R.ERR_NEXT_ADDR 1) 77 : State).bit (R.ERR_LOG_STAT_NEXT_V (1 : Fin 4)) = true) ∧
    (((State.reset.puts [(R.ERR_LOG_STAT_FIRST_V 1, 1), (R.ERR_LOG_STAT_NEXT_V 1, 1)]).setReg (R.ERR_NEXT_ADDR 1) 77 : State).rgsShut (masterIdx (Master.dbg : Master)) = false) := by decide +kernel

theorem witness_logsAreAcknowledged_logAck_last :
    (((Master.sec : Master) == (if (State.reset.puts [(R.ERR_LOG_STAT_FIRST_V 3, 1)] : State).f (R.ERR_LOG_CTL_OWNER (3 : Fin 4)) = 0 then Master.sec else Master.hrp) || (Master.sec : Master) == .dbg) = true) ∧
    (vbit (1 : W32) 1 = false) ∧
    ((State.reset.puts [(R.ERR_LOG_STAT_FIRST_V 3, 1)] : State).bit (R.ERR_LOG_STAT_NEXT_V (3 : Fin 4)) = false) ∧
    ((State.reset.puts [(R.ERR_LOG_STAT_FIRST_V 3, 1)] : State).rgsShut (masterIdx (Master.sec : Master)) = false) := by decide +kernel

theorem witness_logsAreAcknowledged_logClrAll :
    (((Master.sec : Master) == (if (State.reset.puts [(R.ERR_LOG_STAT_FIRST_V 0, 1), (R.ERR_LOG_STAT_NEXT_V 0, 1), (R.ERR_LOG_OVF_COUNT 0, 3)] : State).f (R.ERR_LOG_CTL_OWNER (0 : Fin 4)) = 0 then Master.sec else Master.hrp) || (Master.sec : Master) == .dbg) = true) ∧
    ((State.reset.puts [(R.ERR_LOG_STAT_FIRST_V 0, 1), (R.ERR_LOG_STAT_NEXT_V 0, 1), (R.ERR_LOG_OVF_COUNT 0, 3)] : State).rgsShut (masterIdx (Master.sec : Master)) = false) := by decide +kernel

theorem witness_logsAreAcknowledged_logAck_enter :
    (State.reset : State).bit (R.ERR_LOG_STAT_FIRST_V (logOf ({ kind := 0x41, req := 16, cab := none } : ErrRec).kind)) = false := by decide +kernel


theorem witness_assayPassesRunAndEnd_assayGo :
    (((State.reset.put (cabState 0) 0).setReg (R.ASY_SUM_WORDS 0) 9 : State).synth (0 : Cab) = true) ∧
    (((State.reset.put (cabState 0) 0).setReg (R.ASY_SUM_WORDS 0) 9 : State).stationOf (0 : Cab) = .go) ∧
    (bankMaster (Master.sec : Master) (0 : Cab) = true) ∧
    (vbit (0x501 : W32) 1 = false) ∧
    (vbit (0x501 : W32) 2 = false) ∧
    (vbit (0x501 : W32) 3 = false) ∧
    (((State.reset.put (cabState 0) 0).setReg (R.ASY_SUM_WORDS 0) 9 : State).bit (R.ASY_CTL_GO (0 : Cab)) = false) ∧
    (((State.reset.put (cabState 0) 0).setReg (R.ASY_SUM_WORDS 0) 9 : State).f (R.ASY_BASE_BASE (0 : Cab)) ≤ ((State.reset.put (cabState 0) 0).setReg (R.ASY_SUM_WORDS 0) 9 : State).f (R.ASY_LIMIT_LIMIT (0 : Cab))) ∧
    (((State.reset.put (cabState 0) 0).setReg (R.ASY_SUM_WORDS 0) 9 : State).rgsShut (masterIdx (Master.sec : Master)) = false) := by decide +kernel

theorem witness_assayPassesRunAndEnd_assayAbort :
    (({ (State.reset.put (cabState 0) 0) with rep := { State.reset.rep with asy := [(0, some { started := true, next := 4, t0 := 0, nextAt := 0, out := [], repOut := [], aborted := false })] } } : State).synth (0 : Cab) = true) ∧
    (({ (State.reset.put (cabState 0) 0) with rep := { State.reset.rep with asy := [(0, some { started := true, next := 4, t0 := 0, nextAt := 0, out := [], repOut := [], aborted := false })] } } : State).stationOf (0 : Cab) = .go) ∧
    (bankMaster (Master.sec : Master) (0 : Cab) = true) ∧
    (vbit (8 : W32) 0 = false) ∧
    (({ (State.reset.put (cabState 0) 0) with rep := { State.reset.rep with asy := [(0, some { started := true, next := 4, t0 := 0, nextAt := 0, out := [], repOut := [], aborted := false })] } } : State).asyPass (0 : Cab) = some ({ started := true, next := 4, t0 := 0, nextAt := 0, out := [], repOut := [], aborted := false } : AsyPass)) ∧
    (({ started := true, next := 4, t0 := 0, nextAt := 0, out := [], repOut := [], aborted := false } : AsyPass).started = true) ∧
    (({ (State.reset.put (cabState 0) 0) with rep := { State.reset.rep with asy := [(0, some { started := true, next := 4, t0 := 0, nextAt := 0, out := [], repOut := [], aborted := false })] } } : State).rgsShut (masterIdx (Master.sec : Master)) = false) := by decide +kernel

theorem witness_assayPassesRunAndEnd_assayBurst :
    (({ State.reset.put (R.ASY_LIMIT_LIMIT 0) 5 with time := { State.reset.time with ufc := 1 }, rep := { State.reset.rep with asy := [(0, some { started := true, next := 0, t0 := 0, nextAt := 0, out := [], repOut := [], aborted := false })] } } : State).asyPass (0 : Cab) = some ({ started := true, next := 0, t0 := 0, nextAt := 0, out := [], repOut := [], aborted := false } : AsyPass)) ∧
    (({ started := true, next := 0, t0 := 0, nextAt := 0, out := [], repOut := [], aborted := false } : AsyPass).started = true) ∧
    (({ started := true, next := 0, t0 := 0, nextAt := 0, out := [], repOut := [], aborted := false } : AsyPass).aborted = false) ∧
    (({ started := true, next := 0, t0 := 0, nextAt := 0, out := [], repOut := [], aborted := false } : AsyPass).next ≤ ({ State.reset.put (R.ASY_LIMIT_LIMIT 0) 5 with time := { State.reset.time with ufc := 1 }, rep := { State.reset.rep with asy := [(0, some { started := true, next := 0, t0 := 0, nextAt := 0, out := [], repOut := [], aborted := false })] } } : State).f (R.ASY_LIMIT_LIMIT (0 : Cab))) ∧
    (({ State.reset.put (R.ASY_LIMIT_LIMIT 0) 5 with time := { State.reset.time with ufc := 1 }, rep := { State.reset.rep with asy := [(0, some { started := true, next := 0, t0 := 0, nextAt := 0, out := [], repOut := [], aborted := false })] } } : State).frozen = false) ∧
    (({ started := true, next := 0, t0 := 0, nextAt := 0, out := [], repOut := [], aborted := false } : AsyPass).nextAt ≤ ({ State.reset.put (R.ASY_LIMIT_LIMIT 0) 5 with time := { State.reset.time with ufc := 1 }, rep := { State.reset.rep with asy := [(0, some { started := true, next := 0, t0 := 0, nextAt := 0, out := [], repOut := [], aborted := false })] } } : State).time.ufc) ∧
    (({ State.reset.put (R.ASY_LIMIT_LIMIT 0) 5 with time := { State.reset.time with ufc := 1 }, rep := { State.reset.rep with asy := [(0, some { started := true, next := 0, t0 := 0, nextAt := 0, out := [], repOut := [], aborted := false })] } } : State).time.ufc ≠ ({ started := true, next := 0, t0 := 0, nextAt := 0, out := [], repOut := [], aborted := false } : AsyPass).taken) ∧
    (({ started := true, next := 0, t0 := 0, nextAt := 0, out := [], repOut := [], aborted := false } : AsyPass).out.any (fun x => decide (x.1 = ({ started := true, next := 0, t0 := 0, nextAt := 0, out := [], repOut := [], aborted := false } : AsyPass).next % 32 / 2)) = false) ∧
    (({ started := true, next := 0, t0 := 0, nextAt := 0, out := [], repOut := [], aborted := false } : AsyPass).repOut.any (fun x => decide (x.1 / 2 = ({ started := true, next := 0, t0 := 0, nextAt := 0, out := [], repOut := [], aborted := false } : AsyPass).next % 32 / 2)) = false) := by decide +kernel

theorem witness_assayPassesRunAndEnd_assayDone :
    (({ State.reset with rep := { State.reset.rep with asy := [(0, some { started := true, next := 4, t0 := 0, nextAt := 0, out := [], repOut := [], aborted := false })] } } : State).asyPass (0 : Cab) = some ({ started := true, next := 4, t0 := 0, nextAt := 0, out := [], repOut := [], aborted := false } : AsyPass)) ∧
    (({ started := true, next := 4, t0 := 0, nextAt := 0, out := [], repOut := [], aborted := false } : AsyPass).started = true) ∧
    (({ started := true, next := 4, t0 := 0, nextAt := 0, out := [], repOut := [], aborted := false } : AsyPass).aborted = true ∨ ({ State.reset with rep := { State.reset.rep with asy := [(0, some { started := true, next := 4, t0 := 0, nextAt := 0, out := [], repOut := [], aborted := false })] } } : State).f (R.ASY_LIMIT_LIMIT (0 : Cab)) < ({ started := true, next := 4, t0 := 0, nextAt := 0, out := [], repOut := [], aborted := false } : AsyPass).next) ∧
    (({ started := true, next := 4, t0 := 0, nextAt := 0, out := [], repOut := [], aborted := false } : AsyPass).out = []) ∧
    (({ started := true, next := 4, t0 := 0, nextAt := 0, out := [], repOut := [], aborted := false } : AsyPass).repOut = []) := by decide +kernel


theorem witness_rowsAreRepairedAndMoved_remapAdd :
    (((State.reset.put (cabState 0) 0) : State).synth (0 : Cab) = true) ∧
    (((State.reset.put (cabState 0) 0) : State).stationOf (0 : Cab) = .go) ∧
    (bankMaster (Master.sec : Master) (0 : Cab) = true) ∧
    (((State.reset.put (cabState 0) 0) : State).bit (R.RMP_ADD_GO (0 : Cab)) = false) ∧
    (vbit (0x80003005 : W32) 31 = true) ∧
    ((((State.reset.put (cabState 0) 0) : State).freeSpare (0 : Cab) ((0x80003005 : W32).toNat / 4096 % 32)).isSome) ∧
    (((State.reset.put (cabState 0) 0) : State).remapOf (0 : Cab) ((0x80003005 : W32).toNat / 4096 % 32) ((0x80003005 : W32).toNat % 4096) = none) ∧
    (((State.reset.put (cabState 0) 0) : State).rgsShut (masterIdx (Master.sec : Master)) = false) := by decide +kernel

theorem witness_rowsAreRepairedAndMoved_remapMove :
    ((({ State.reset with time := { State.reset.time with ufc := 9 }, loose := { State.reset.loose with pairs := [(0, { queue := [], bursts := [{ req := { acc := { id := 8, req := 8, home := 0, homeDie := 0, org := .rmp 0, cls := .free, ctx := none, fa := 0, we := false, be := 2, dat := [], op := .move 0 5 }, presented := true, since := 0, base := 0, urgent := false }, b0 := true, b1 := false, dur := 4, from' := 1, last := 4, dbg := false, wait := 0, prio := 0, urg := false, u := 1, half := false }], rr := [0, 0, 0, 0, 0], armed := false })] } } : State).pairSt (0 : Cab) ((0 : Bank).val / 2)).bursts.filter (fun x => ({ State.reset with time := { State.reset.time with ufc := 9 }, loose := { State.reset.loose with pairs := [(0, { queue := [], bursts := [{ req := { acc := { id := 8, req := 8, home := 0, homeDie := 0, org := .rmp 0, cls := .free, ctx := none, fa := 0, we := false, be := 2, dat := [], op := .move 0 5 }, presented := true, since := 0, base := 0, urgent := false }, b0 := true, b1 := false, dur := 4, from' := 1, last := 4, dbg := false, wait := 0, prio := 0, urg := false, u := 1, half := false }], rr := [0, 0, 0, 0, 0], armed := false })] } } : State).burstOver x && x.isMove) = [({ req := { acc := { id := 8, req := 8, home := 0, homeDie := 0, org := .rmp 0, cls := .free, ctx := none, fa := 0, we := false, be := 2, dat := [], op := .move 0 5 }, presented := true, since := 0, base := 0, urgent := false }, b0 := true, b1 := false, dur := 4, from' := 1, last := 4, dbg := false, wait := 0, prio := 0, urg := false, u := 1, half := false } : Burst)]) ∧
    (∀ j : Fin 16, j.val ≠ (0 : Bank).val / 2 → (({ State.reset with time := { State.reset.time with ufc := 9 }, loose := { State.reset.loose with pairs := [(0, { queue := [], bursts := [{ req := { acc := { id := 8, req := 8, home := 0, homeDie := 0, org := .rmp 0, cls := .free, ctx := none, fa := 0, we := false, be := 2, dat := [], op := .move 0 5 }, presented := true, since := 0, base := 0, urgent := false }, b0 := true, b1 := false, dur := 4, from' := 1, last := 4, dbg := false, wait := 0, prio := 0, urg := false, u := 1, half := false }], rr := [0, 0, 0, 0, 0], armed := false })] } } : State).pairSt (0 : Cab) j).bursts.filter (fun x => ({ State.reset with time := { State.reset.time with ufc := 9 }, loose := { State.reset.loose with pairs := [(0, { queue := [], bursts := [{ req := { acc := { id := 8, req := 8, home := 0, homeDie := 0, org := .rmp 0, cls := .free, ctx := none, fa := 0, we := false, be := 2, dat := [], op := .move 0 5 }, presented := true, since := 0, base := 0, urgent := false }, b0 := true, b1 := false, dur := 4, from' := 1, last := 4, dbg := false, wait := 0, prio := 0, urg := false, u := 1, half := false }], rr := [0, 0, 0, 0, 0], armed := false })] } } : State).burstOver x && x.isMove) = []) ∧
    (({ req := { acc := { id := 8, req := 8, home := 0, homeDie := 0, org := .rmp 0, cls := .free, ctx := none, fa := 0, we := false, be := 2, dat := [], op := .move 0 5 }, presented := true, since := 0, base := 0, urgent := false }, b0 := true, b1 := false, dur := 4, from' := 1, last := 4, dbg := false, wait := 0, prio := 0, urg := false, u := 1, half := false } : Burst).req.acc.op = .move (0 : Bank).val (5 : Nat)) ∧
    ((5 : Nat) < 4096) ∧
    (({ State.reset with time := { State.reset.time with ufc := 9 }, loose := { State.reset.loose with pairs := [(0, { queue := [], bursts := [{ req := { acc := { id := 8, req := 8, home := 0, homeDie := 0, org := .rmp 0, cls := .free, ctx := none, fa := 0, we := false, be := 2, dat := [], op := .move 0 5 }, presented := true, since := 0, base := 0, urgent := false }, b0 := true, b1 := false, dur := 4, from' := 1, last := 4, dbg := false, wait := 0, prio := 0, urg := false, u := 1, half := false }], rr := [0, 0, 0, 0, 0], armed := false })] } } : State).freeSpare (0 : Cab) (0 : Bank) = some (0 : Nat)) ∧
    (({ State.reset with time := { State.reset.time with ufc := 9 }, loose := { State.reset.loose with pairs := [(0, { queue := [], bursts := [{ req := { acc := { id := 8, req := 8, home := 0, homeDie := 0, org := .rmp 0, cls := .free, ctx := none, fa := 0, we := false, be := 2, dat := [], op := .move 0 5 }, presented := true, since := 0, base := 0, urgent := false }, b0 := true, b1 := false, dur := 4, from' := 1, last := 4, dbg := false, wait := 0, prio := 0, urg := false, u := 1, half := false }], rr := [0, 0, 0, 0, 0], armed := false })] } } : State).remapOf (0 : Cab) (0 : Bank) (5 : Nat) = none) := by decide +kernel

theorem witness_rowsAreRepairedAndMoved_assayRepair :
    ((({ State.reset with time := { State.reset.time with ufc := 9 }, loose := { State.reset.loose with pairs := [(0, { queue := [], bursts := [{ req := { acc := { id := 8, req := 8, home := 0, homeDie := 0, org := .rmp 0, cls := .free, ctx := none, fa := 0, we := false, be := 2, dat := [], op := .repair 0 5 }, presented := true, since := 0, base := 0, urgent := false }, b0 := true, b1 := false, dur := 4, from' := 1, last := 4, dbg := false, wait := 0, prio := 0, urg := false, u := 1, half := false }], rr := [0, 0, 0, 0, 0], armed := false })] }, rep := { State.reset.rep with asy := [(0, some { started := true, next := 4, t0 := 0, nextAt := 0, out := [], repOut := [(0, 5)], aborted := false })] } } : State).pairSt (0 : Cab) ((0 : Bank).val / 2)).bursts.filter (fun x => ({ State.reset with time := { State.reset.time with ufc := 9 }, loose := { State.reset.loose with pairs := [(0, { queue := [], bursts := [{ req := { acc := { id := 8, req := 8, home := 0, homeDie := 0, org := .rmp 0, cls := .free, ctx := none, fa := 0, we := false, be := 2, dat := [], op := .repair 0 5 }, presented := true, since := 0, base := 0, urgent := false }, b0 := true, b1 := false, dur := 4, from' := 1, last := 4, dbg := false, wait := 0, prio := 0, urg := false, u := 1, half := false }], rr := [0, 0, 0, 0, 0], armed := false })] }, rep := { State.reset.rep with asy := [(0, some { started := true, next := 4, t0 := 0, nextAt := 0, out := [], repOut := [(0, 5)], aborted := false })] } } : State).burstOver x && x.isRepair) = [({ req := { acc := { id := 8, req := 8, home := 0, homeDie := 0, org := .rmp 0, cls := .free, ctx := none, fa := 0, we := false, be := 2, dat := [], op := .repair 0 5 }, presented := true, since := 0, base := 0, urgent := false }, b0 := true, b1 := false, dur := 4, from' := 1, last := 4, dbg := false, wait := 0, prio := 0, urg := false, u := 1, half := false } : Burst)]) ∧
    (∀ j : Fin 16, j.val ≠ (0 : Bank).val / 2 → (({ State.reset with time := { State.reset.time with ufc := 9 }, loose := { State.reset.loose with pairs := [(0, { queue := [], bursts := [{ req := { acc := { id := 8, req := 8, home := 0, homeDie := 0, org := .rmp 0, cls := .free, ctx := none, fa := 0, we := false, be := 2, dat := [], op := .repair 0 5 }, presented := true, since := 0, base := 0, urgent := false }, b0 := true, b1 := false, dur := 4, from' := 1, last := 4, dbg := false, wait := 0, prio := 0, urg := false, u := 1, half := false }], rr := [0, 0, 0, 0, 0], armed := false })] }, rep := { State.reset.rep with asy := [(0, some { started := true, next := 4, t0 := 0, nextAt := 0, out := [], repOut := [(0, 5)], aborted := false })] } } : State).pairSt (0 : Cab) j).bursts.filter (fun x => ({ State.reset with time := { State.reset.time with ufc := 9 }, loose := { State.reset.loose with pairs := [(0, { queue := [], bursts := [{ req := { acc := { id := 8, req := 8, home := 0, homeDie := 0, org := .rmp 0, cls := .free, ctx := none, fa := 0, we := false, be := 2, dat := [], op := .repair 0 5 }, presented := true, since := 0, base := 0, urgent := false }, b0 := true, b1 := false, dur := 4, from' := 1, last := 4, dbg := false, wait := 0, prio := 0, urg := false, u := 1, half := false }], rr := [0, 0, 0, 0, 0], armed := false })] }, rep := { State.reset.rep with asy := [(0, some { started := true, next := 4, t0 := 0, nextAt := 0, out := [], repOut := [(0, 5)], aborted := false })] } } : State).burstOver x && x.isRepair) = []) ∧
    (({ req := { acc := { id := 8, req := 8, home := 0, homeDie := 0, org := .rmp 0, cls := .free, ctx := none, fa := 0, we := false, be := 2, dat := [], op := .repair 0 5 }, presented := true, since := 0, base := 0, urgent := false }, b0 := true, b1 := false, dur := 4, from' := 1, last := 4, dbg := false, wait := 0, prio := 0, urg := false, u := 1, half := false } : Burst).req.acc.op = .repair (0 : Bank).val (5 : Nat)) ∧
    (({ State.reset with time := { State.reset.time with ufc := 9 }, loose := { State.reset.loose with pairs := [(0, { queue := [], bursts := [{ req := { acc := { id := 8, req := 8, home := 0, homeDie := 0, org := .rmp 0, cls := .free, ctx := none, fa := 0, we := false, be := 2, dat := [], op := .repair 0 5 }, presented := true, since := 0, base := 0, urgent := false }, b0 := true, b1 := false, dur := 4, from' := 1, last := 4, dbg := false, wait := 0, prio := 0, urg := false, u := 1, half := false }], rr := [0, 0, 0, 0, 0], armed := false })] }, rep := { State.reset.rep with asy := [(0, some { started := true, next := 4, t0 := 0, nextAt := 0, out := [], repOut := [(0, 5)], aborted := false })] } } : State).asyPass (0 : Cab) = some ({ started := true, next := 4, t0 := 0, nextAt := 0, out := [], repOut := [(0, 5)], aborted := false } : AsyPass)) := by decide +kernel


theorem witness_freezesBeginAndEnd_freezeStart :
    (((FrzSrc.licensee : FrzSrc), (3 : Nat)) ∈ ({ State.reset with time := { State.reset.time with fc := 3 }, frz := { State.reset.frz with starts := [(.licensee, 3)] } } : State).frzSampled.frz.starts) ∧
    ((3 : Nat) ≤ ({ State.reset with time := { State.reset.time with fc := 3 }, frz := { State.reset.frz with starts := [(.licensee, 3)] } } : State).time.fc) := by decide +kernel

theorem witness_freezesBeginAndEnd_freezeFinish :
    (((FrzSrc.clamp : FrzSrc), (3 : Nat)) ∈ ({ State.reset.puts [(R.LCT_FRZ_STAT_CLAMP, 1), (R.LCT_FRZ_STAT_FROZEN, 1)] with time := { State.reset.time with fc := 3 }, frz := { State.reset.frz with ends := [(.clamp, 3)], run := 12 } } : State).frzSampled.frz.ends) ∧
    ((3 : Nat) ≤ ({ State.reset.puts [(R.LCT_FRZ_STAT_CLAMP, 1), (R.LCT_FRZ_STAT_FROZEN, 1)] with time := { State.reset.time with fc := 3 }, frz := { State.reset.frz with ends := [(.clamp, 3)], run := 12 } } : State).time.fc) ∧
    (∀ e ∈ ({ State.reset.puts [(R.LCT_FRZ_STAT_CLAMP, 1), (R.LCT_FRZ_STAT_FROZEN, 1)] with time := { State.reset.time with fc := 3 }, frz := { State.reset.frz with ends := [(.clamp, 3)], run := 12 } } : State).frzSampled.frz.starts, ({ State.reset.puts [(R.LCT_FRZ_STAT_CLAMP, 1), (R.LCT_FRZ_STAT_FROZEN, 1)] with time := { State.reset.time with fc := 3 }, frz := { State.reset.frz with ends := [(.clamp, 3)], run := 12 } } : State).time.fc + 3 ≤ e.2) ∧
    ((∀ x ∈ [FrzSrc.bridge, .clamp, .debug, .firmware, .licensee, .package], x ≠ (FrzSrc.clamp : FrzSrc) → ({ State.reset.puts [(R.LCT_FRZ_STAT_CLAMP, 1), (R.LCT_FRZ_STAT_FROZEN, 1)] with time := { State.reset.time with fc := 3 }, frz := { State.reset.frz with ends := [(.clamp, 3)], run := 12 } } : State).bit (srcBit x) = false)) := by decide +kernel

theorem witness_freezesBeginAndEnd_freezeFinish_other :
    (((FrzSrc.clamp : FrzSrc), (3 : Nat)) ∈ ({ State.reset.puts [(R.LCT_FRZ_STAT_CLAMP, 1), (R.LCT_FRZ_STAT_DEBUG, 1), (R.LCT_FRZ_STAT_FROZEN, 1)] with time := { State.reset.time with fc := 3 }, frz := { State.reset.frz with ends := [(.clamp, 3)], run := 12 } } : State).frzSampled.frz.ends) ∧
    ((3 : Nat) ≤ ({ State.reset.puts [(R.LCT_FRZ_STAT_CLAMP, 1), (R.LCT_FRZ_STAT_DEBUG, 1), (R.LCT_FRZ_STAT_FROZEN, 1)] with time := { State.reset.time with fc := 3 }, frz := { State.reset.frz with ends := [(.clamp, 3)], run := 12 } } : State).time.fc) ∧
    ((FrzSrc.debug : FrzSrc) ≠ (FrzSrc.clamp : FrzSrc)) ∧
    (({ State.reset.puts [(R.LCT_FRZ_STAT_CLAMP, 1), (R.LCT_FRZ_STAT_DEBUG, 1), (R.LCT_FRZ_STAT_FROZEN, 1)] with time := { State.reset.time with fc := 3 }, frz := { State.reset.frz with ends := [(.clamp, 3)], run := 12 } } : State).bit (srcBit (FrzSrc.debug : FrzSrc)) = true) := by decide +kernel

theorem witness_freezesBeginAndEnd_frzReqChange :
    (State.reset : State).frz.pin ≠ (true : Bool) := by decide +kernel

theorem witness_freezesBeginAndEnd_frzCtlWrite :
    ((Master.sec : Master) = .pwc ∨ (Master.sec : Master) = .sch ∨ (Master.sec : Master) = .dbg ∨ (4 : W32).toNat / 2 % 2 = (State.reset : State).f R.LCT_FRZ_CTL_FW_FRZ) ∧
    ((Master.sec : Master) = .sec ∨ (Master.sec : Master) = .dbg ∨ (4 : W32).toNat / 4 % 2 = (State.reset : State).f R.LCT_FRZ_CTL_SEC_FRZ) ∧
    ((State.reset : State).rgsShut (masterIdx (Master.sec : Master)) = false) := by decide +kernel

theorem witness_freezesBeginAndEnd_freezeBeginMark :
    ((1 : Fin 8).val ≠ (State.reset : State).die) ∧
    ((State.reset : State).frz.marks.any (fun m => decide (m.origin = (1 : Fin 8).val) && decide (m.seq = (3 : Nat))) = false) := by decide +kernel

theorem witness_freezesBeginAndEnd_freezeEndMark :
    (({ State.reset with frz := { State.reset.frz with marks := [{ origin := 1, seq := 3, open' := true }], lines := [.package] } } : State).frz.marks.any (fun m => decide (m.origin = (1 : Fin 8).val) && decide (m.seq = (3 : Nat)) && m.open') = true) ∧
    ((({ ({ State.reset with frz := { State.reset.frz with marks := [{ origin := 1, seq := 3, open' := true }], lines := [.package] } } : State) with frz := { ({ State.reset with frz := { State.reset.frz with marks := [{ origin := 1, seq := 3, open' := true }], lines := [.package] } } : State).frz with marks := ({ State.reset with frz := { State.reset.frz with marks := [{ origin := 1, seq := 3, open' := true }], lines := [.package] } } : State).frz.marks.map (fun m => if decide (m.origin = (1 : Fin 8).val) && decide (m.seq = (3 : Nat)) && m.open' then { m with open' := false } else m) } } : State).send (.endMark (1 : Fin 8) (3 : Nat)) none (some (0 : Fin 8))).frz.marks.any (fun m => m.open') = false) := by decide +kernel

theorem witness_freezesBeginAndEnd_freezeEndMark_more :
    (({ State.reset with frz := { State.reset.frz with marks := [{ origin := 1, seq := 3, open' := true }, { origin := 2, seq := 3, open' := true }], lines := [.package] } } : State).frz.marks.any (fun m => decide (m.origin = (1 : Fin 8).val) && decide (m.seq = (3 : Nat)) && m.open') = true) ∧
    ((({ ({ State.reset with frz := { State.reset.frz with marks := [{ origin := 1, seq := 3, open' := true }, { origin := 2, seq := 3, open' := true }], lines := [.package] } } : State) with frz := { ({ State.reset with frz := { State.reset.frz with marks := [{ origin := 1, seq := 3, open' := true }, { origin := 2, seq := 3, open' := true }], lines := [.package] } } : State).frz with marks := ({ State.reset with frz := { State.reset.frz with marks := [{ origin := 1, seq := 3, open' := true }, { origin := 2, seq := 3, open' := true }], lines := [.package] } } : State).frz.marks.map (fun m => if decide (m.origin = (1 : Fin 8).val) && decide (m.seq = (3 : Nat)) && m.open' then { m with open' := false } else m) } } : State).send (.endMark (1 : Fin 8) (3 : Nat)) none (some (0 : Fin 8))).frz.marks.any (fun m => m.open') = true) := by decide +kernel


theorem witness_stepsOpenCloseAndReplay_stepMark :
    ((State.reset : State).discards (some (5 : Ctx).val) = false) ∧
    ((State.reset : State).frozen = false) ∧
    ((State.reset : State).time.stime % 64 = 0) ∧
    ((State.reset : State).stp.restart.find? (fun r => decide (r.1 = (5 : Ctx).val)) = none) := by decide +kernel

theorem witness_stepsOpenCloseAndReplay_stepMark_replay :
    (({ State.reset with time := { State.reset.time with stime := 640 }, stp := { State.reset.stp with restart := [(5, 640, 0)], steps := [{ ctx := 5, openAt := 0, closeAt := none }] } } : State).discards (some (5 : Ctx).val) = false) ∧
    (({ State.reset with time := { State.reset.time with stime := 640 }, stp := { State.reset.stp with restart := [(5, 640, 0)], steps := [{ ctx := 5, openAt := 0, closeAt := none }] } } : State).frozen = false) ∧
    (({ State.reset with time := { State.reset.time with stime := 640 }, stp := { State.reset.stp with restart := [(5, 640, 0)], steps := [{ ctx := 5, openAt := 0, closeAt := none }] } } : State).time.stime % 64 = 0) ∧
    (({ State.reset with time := { State.reset.time with stime := 640 }, stp := { State.reset.stp with restart := [(5, 640, 0)], steps := [{ ctx := 5, openAt := 0, closeAt := none }] } } : State).stp.restart.find? (fun r => decide (r.1 = (5 : Ctx).val)) = some ((5 : Ctx).val, ({ State.reset with time := { State.reset.time with stime := 640 }, stp := { State.reset.stp with restart := [(5, 640, 0)], steps := [{ ctx := 5, openAt := 0, closeAt := none }] } } : State).time.stime, (0 : Nat))) ∧
    ((0 : Nat) < 3) := by decide +kernel

theorem witness_stepsOpenCloseAndReplay_stepRelease :
    (({ State.reset with time := { State.reset.time with stime := 320 }, stp := { State.reset.stp with steps := [{ ctx := 1, openAt := 0, closeAt := some 64 }] } } : State).discards (some (1 : Ctx).val) = false) ∧
    (({ State.reset with time := { State.reset.time with stime := 320 }, stp := { State.reset.stp with steps := [{ ctx := 1, openAt := 0, closeAt := some 64 }] } } : State).frozen = false) ∧
    (({ State.reset with time := { State.reset.time with stime := 320 }, stp := { State.reset.stp with steps := [{ ctx := 1, openAt := 0, closeAt := some 64 }] } } : State).stp.restart.any (fun r => decide (r.1 = (1 : Ctx).val)) = false) ∧
    (({ State.reset with time := { State.reset.time with stime := 320 }, stp := { State.reset.stp with steps := [{ ctx := 1, openAt := 0, closeAt := some 64 }] } } : State).stp.steps.find? (fun x => decide (x.ctx = (1 : Ctx).val) && x.closeAt.isSome) = some ({ ctx := 1, openAt := 0, closeAt := some 64 } : Sys2Proof.Machine.Step)) ∧
    (({ ctx := 1, openAt := 0, closeAt := some 64 } : Sys2Proof.Machine.Step).closeAt = some (64 : Nat)) ∧
    ((64 : Nat) + 256 ≤ ({ State.reset with time := { State.reset.time with stime := 320 }, stp := { State.reset.stp with steps := [{ ctx := 1, openAt := 0, closeAt := some 64 }] } } : State).time.stime) := by decide +kernel

theorem witness_stepsOpenCloseAndReplay_replayNotice :
    (({ State.reset with masked := [], stp := { State.reset.stp with steps := [{ ctx := 1, openAt := 0, closeAt := none }] } } : State).stp.heard.contains ((1 : Ctx).val, (0 : Fin 4).val, (640 : Nat)) = false) ∧
    (({ State.reset with masked := [], stp := { State.reset.stp with steps := [{ ctx := 1, openAt := 0, closeAt := none }] } } : State).stp.restart.find? (fun x => decide (x.1 = (1 : Ctx).val)) = none) ∧
    (({ State.reset with masked := [], stp := { State.reset.stp with steps := [{ ctx := 1, openAt := 0, closeAt := none }] } } : State).faulted (1 : Ctx) = false) ∧
    (({ State.reset with masked := [], stp := { State.reset.stp with steps := [{ ctx := 1, openAt := 0, closeAt := none }] } } : State).stepLive (1 : Ctx) = true) ∧
    (({ State.reset with masked := [], stp := { State.reset.stp with steps := [{ ctx := 1, openAt := 0, closeAt := none }] } } : State).f (R.LCT_STEP_ATTEMPT (1 : Ctx)) = (0 : Fin 4)) ∧
    ((0 : Fin 4).val ≠ 3) ∧
    (({ State.reset with masked := [], stp := { State.reset.stp with steps := [{ ctx := 1, openAt := 0, closeAt := none }] } } : State).masked.contains 2 = false) ∧
    (({ State.reset with masked := [], stp := { State.reset.stp with steps := [{ ctx := 1, openAt := 0, closeAt := none }] } } : State).frozen = false) := by decide +kernel

theorem witness_stepsOpenCloseAndReplay_replayRestart :
    (({ State.reset with masked := [], time := { State.reset.time with stime := 639 }, stp := { State.reset.stp with restart := [(1, 640, 0)], replayPin := [(1, 0)] } } : State).frozen = false) ∧
    (({ State.reset with masked := [], time := { State.reset.time with stime := 639 }, stp := { State.reset.stp with restart := [(1, 640, 0)], replayPin := [(1, 0)] } } : State).stp.skewed.contains (1 : Ctx).val = false) ∧
    (({ State.reset with masked := [], time := { State.reset.time with stime := 639 }, stp := { State.reset.stp with restart := [(1, 640, 0)], replayPin := [(1, 0)] } } : State).stp.replayPin.contains ((1 : Ctx).val, 1) = false) ∧
    (({ State.reset with masked := [], time := { State.reset.time with stime := 639 }, stp := { State.reset.stp with restart := [(1, 640, 0)], replayPin := [(1, 0)] } } : State).stp.restart.find? (fun x => decide (x.1 = (1 : Ctx).val)) = some ((1 : Ctx).val, (640 : Nat), (0 : Nat))) ∧
    (({ State.reset with masked := [], time := { State.reset.time with stime := 639 }, stp := { State.reset.stp with restart := [(1, 640, 0)], replayPin := [(1, 0)] } } : State).time.stime + 1 = (640 : Nat)) ∧
    (({ State.reset with masked := [], time := { State.reset.time with stime := 639 }, stp := { State.reset.stp with restart := [(1, 640, 0)], replayPin := [(1, 0)] } } : State).masked.contains 2 = false) := by decide +kernel

theorem witness_stepsOpenCloseAndReplay_replayRestart_rises :
    (({ State.reset with masked := [], time := { State.reset.time with stime := 30 }, stp := { State.reset.stp with restart := [(1, 640, 0)], replayPin := [(1, 1)] } } : State).frozen = false) ∧
    (({ State.reset with masked := [], time := { State.reset.time with stime := 30 }, stp := { State.reset.stp with restart := [(1, 640, 0)], replayPin := [(1, 1)] } } : State).stp.skewed.contains (1 : Ctx).val = false) ∧
    (({ State.reset with masked := [], time := { State.reset.time with stime := 30 }, stp := { State.reset.stp with restart := [(1, 640, 0)], replayPin := [(1, 1)] } } : State).stp.replayPin.contains ((1 : Ctx).val, 1) = true) ∧
    (({ State.reset with masked := [], time := { State.reset.time with stime := 30 }, stp := { State.reset.stp with restart := [(1, 640, 0)], replayPin := [(1, 1)] } } : State).stp.restart.find? (fun x => decide (x.1 = (1 : Ctx).val)) = some ((1 : Ctx).val, (640 : Nat), (0 : Nat))) ∧
    (({ State.reset with masked := [], time := { State.reset.time with stime := 30 }, stp := { State.reset.stp with restart := [(1, 640, 0)], replayPin := [(1, 1)] } } : State).time.stime + 1 < (640 : Nat)) := by decide +kernel


theorem witness_signalsTravelAndAreApplied_engineSignal :
    ((rig : State).bit (R.CAB_PORT_STAT_P_SEQ (0 : Cab)) = true) ∧
    ((rig : State).frozen = false) ∧
    ((rig : State).discards ((rig : State).eag (0 : Cab)) = false) ∧
    ((rig : State).fenced (0 : Cab) = false) ∧
    ((rig : State).sigCheck ((rig : State).eag (0 : Cab)) (63 : BitVec 19).toNat = none) ∧
    ((rig : State).replaying ((rig : State).eag (0 : Cab)) = false) ∧
    ((rig : State).sgq (0 : Cab) < 64) := by decide +kernel

theorem witness_signalsTravelAndAreApplied_synSignalWrite :
    ((rig : State).synth (0 : Cab) = true) ∧
    ((rig : State).stationOf (0 : Cab) = .go) ∧
    ((bankMaster (Master.sch : Master) (0 : Cab) || (Master.sch : Master) == .sch) = true) ∧
    ((5 : Nat) = (rig : State).die * 65536 + (if 256 ≤ (0x30005 : W32).toNat % 512 then 0 else ((List.range 128).find? (fun n => decide ((rig : State).mapped (rig : State).cur n = some (0 : Cab).val))).getD 127 * 512) + (0x30005 : W32).toNat % 512) ∧
    ((0x30005 : W32).toNat % 512 < 64 ∨ 256 ≤ (0x30005 : W32).toNat % 512) ∧
    ((rig : State).rgsShut (masterIdx (Master.sch : Master)) = false) := by decide +kernel

theorem witness_signalsTravelAndAreApplied_signalLeave :
    (({ rig with syn := { rig.syn with signals := [{ id := 8, src := .engine 0, die := 0, ctx := some 2, cn := 5, inc := 3, drain := [], place := .port, since := 0 }] } } : State).syn.signals.find? (fun x => decide (x.id = (8 : Nat)) && decide (x.place = SigPlace.port)) = some ({ id := 8, src := .engine 0, die := 0, ctx := some 2, cn := 5, inc := 3, drain := [], place := .port, since := 0 } : Sig)) ∧
    (({ rig with syn := { rig.syn with signals := [{ id := 8, src := .engine 0, die := 0, ctx := some 2, cn := 5, inc := 3, drain := [], place := .port, since := 0 }] } } : State).frozen = false) ∧
    (({ rig with syn := { rig.syn with signals := [{ id := 8, src := .engine 0, die := 0, ctx := some 2, cn := 5, inc := 3, drain := [], place := .port, since := 0 }] } } : State).oldestOf ({ id := 8, src := .engine 0, die := 0, ctx := some 2, cn := 5, inc := 3, drain := [], place := .port, since := 0 } : Sig).src = some (8 : Nat)) ∧
    (({ rig with syn := { rig.syn with signals := [{ id := 8, src := .engine 0, die := 0, ctx := some 2, cn := 5, inc := 3, drain := [], place := .port, since := 0 }] } } : State).drainOver ({ id := 8, src := .engine 0, die := 0, ctx := some 2, cn := 5, inc := 3, drain := [], place := .port, since := 0 } : Sig) = true) ∧
    (sigCab ({ id := 8, src := .engine 0, die := 0, ctx := some 2, cn := 5, inc := 3, drain := [], place := .port, since := 0 } : Sig).src = some (0 : Nat)) ∧
    (({ rig with syn := { rig.syn with signals := [{ id := 8, src := .engine 0, die := 0, ctx := some 2, cn := 5, inc := 3, drain := [], place := .port, since := 0 }] } } : State).capUsed (0 : Nat) = 0) ∧
    (sigSet ({ id := 8, src := .engine 0, die := 0, ctx := some 2, cn := 5, inc := 3, drain := [], place := .port, since := 0 } : Sig) = true ∨ ({ rig with syn := { rig.syn with signals := [{ id := 8, src := .engine 0, die := 0, ctx := some 2, cn := 5, inc := 3, drain := [], place := .port, since := 0 }] } } : State).setLeaves (some (0 : Nat)) = false) ∧
    (({ rig with syn := { rig.syn with signals := [{ id := 8, src := .engine 0, die := 0, ctx := some 2, cn := 5, inc := 3, drain := [], place := .port, since := 0 }] } } : State).looseHeld ({ id := 8, src := .engine 0, die := 0, ctx := some 2, cn := 5, inc := 3, drain := [], place := .port, since := 0 } : Sig) = false) := by decide +kernel

theorem witness_signalsTravelAndAreApplied_signalLeave_edge :
    (({ rig with syn := { rig.syn with signals := [{ id := 8, src := .edge 2, die := 0, ctx := some 2, cn := 5, inc := 3, drain := [], place := .port, since := 0 }] } } : State).syn.signals.find? (fun x => decide (x.id = (8 : Nat)) && decide (x.place = SigPlace.port)) = some ({ id := 8, src := .edge 2, die := 0, ctx := some 2, cn := 5, inc := 3, drain := [], place := .port, since := 0 } : Sig)) ∧
    (({ rig with syn := { rig.syn with signals := [{ id := 8, src := .edge 2, die := 0, ctx := some 2, cn := 5, inc := 3, drain := [], place := .port, since := 0 }] } } : State).frozen = false) ∧
    (({ rig with syn := { rig.syn with signals := [{ id := 8, src := .edge 2, die := 0, ctx := some 2, cn := 5, inc := 3, drain := [], place := .port, since := 0 }] } } : State).oldestOf ({ id := 8, src := .edge 2, die := 0, ctx := some 2, cn := 5, inc := 3, drain := [], place := .port, since := 0 } : Sig).src = some (8 : Nat)) ∧
    (({ rig with syn := { rig.syn with signals := [{ id := 8, src := .edge 2, die := 0, ctx := some 2, cn := 5, inc := 3, drain := [], place := .port, since := 0 }] } } : State).drainOver ({ id := 8, src := .edge 2, die := 0, ctx := some 2, cn := 5, inc := 3, drain := [], place := .port, since := 0 } : Sig) = true) ∧
    (({ id := 8, src := .edge 2, die := 0, ctx := some 2, cn := 5, inc := 3, drain := [], place := .port, since := 0 } : Sig).src = .edge (2 : Fin 4).val) ∧
    (({ rig with syn := { rig.syn with signals := [{ id := 8, src := .edge 2, die := 0, ctx := some 2, cn := 5, inc := 3, drain := [], place := .port, since := 0 }] } } : State).capUsed (600 + (2 : Fin 4)) = 0) ∧
    (({ rig with syn := { rig.syn with signals := [{ id := 8, src := .edge 2, die := 0, ctx := some 2, cn := 5, inc := 3, drain := [], place := .port, since := 0 }] } } : State).setLeaves none = false) := by decide +kernel

theorem witness_signalsTravelAndAreApplied_signalLeave_travel :
    cnDie ({ id := 8, src := .engine 0, die := 0, ctx := some 2, cn := 5, inc := 3, drain := [], place := .port, since := 0 } : Sig).cn = (rig : State).die := by decide +kernel

theorem witness_signalsTravelAndAreApplied_signalBridgeRelease :
    (({ rig with syn := { rig.syn with signals := [{ id := 8, src := .engine 0, die := 0, ctx := some 2, cn := 5, inc := 3, drain := [], place := .bridge, since := 0 }] } } : State).syn.signals.find? (fun x => decide (x.id = (8 : Nat)) && decide (x.place = SigPlace.bridge)) = some ({ id := 8, src := .engine 0, die := 0, ctx := some 2, cn := 5, inc := 3, drain := [], place := .bridge, since := 0 } : Sig)) ∧
    (({ rig with syn := { rig.syn with signals := [{ id := 8, src := .engine 0, die := 0, ctx := some 2, cn := 5, inc := 3, drain := [], place := .bridge, since := 0 }] } } : State).frozen = false) ∧
    (({ rig with syn := { rig.syn with signals := [{ id := 8, src := .engine 0, die := 0, ctx := some 2, cn := 5, inc := 3, drain := [], place := .bridge, since := 0 }] } } : State).drainOver ({ id := 8, src := .engine 0, die := 0, ctx := some 2, cn := 5, inc := 3, drain := [], place := .bridge, since := 0 } : Sig) = true) ∧
    (({ rig with syn := { rig.syn with signals := [{ id := 8, src := .engine 0, die := 0, ctx := some 2, cn := 5, inc := 3, drain := [], place := .bridge, since := 0 }] } } : State).syn.signals.find? (fun x => decide (x.src = ({ id := 8, src := .engine 0, die := 0, ctx := some 2, cn := 5, inc := 3, drain := [], place := .bridge, since := 0 } : Sig).src) && decide (x.die = ({ id := 8, src := .engine 0, die := 0, ctx := some 2, cn := 5, inc := 3, drain := [], place := .bridge, since := 0 } : Sig).die) && decide (x.place = SigPlace.bridge)) = some ({ id := 8, src := .engine 0, die := 0, ctx := some 2, cn := 5, inc := 3, drain := [], place := .bridge, since := 0 } : Sig)) ∧
    (sigSet ({ id := 8, src := .engine 0, die := 0, ctx := some 2, cn := 5, inc := 3, drain := [], place := .bridge, since := 0 } : Sig) = true ∨ cnDie ({ id := 8, src := .engine 0, die := 0, ctx := some 2, cn := 5, inc := 3, drain := [], place := .bridge, since := 0 } : Sig).cn ≠ ({ rig with syn := { rig.syn with signals := [{ id := 8, src := .engine 0, die := 0, ctx := some 2, cn := 5, inc := 3, drain := [], place := .bridge, since := 0 }] } } : State).die ∨ ({ rig with syn := { rig.syn with signals := [{ id := 8, src := .engine 0, die := 0, ctx := some 2, cn := 5, inc := 3, drain := [], place := .bridge, since := 0 }] } } : State).unitRoom ({ id := 8, src := .engine 0, die := 0, ctx := some 2, cn := 5, inc := 3, drain := [], place := .bridge, since := 0 } : Sig) = true) := by decide +kernel

theorem witness_signalsTravelAndAreApplied_signalApply :
    (({ rig with syn := { rig.syn with signals := [{ id := 8, src := .engine 0, die := 0, ctx := some 2, cn := 5, inc := 3, drain := [], place := .net, since := 0 }] } } : State).syn.signals.find? (fun x => decide (x.id = (8 : Nat)) && (decide (x.place = SigPlace.net) || decide (x.place = SigPlace.away))) = some ({ id := 8, src := .engine 0, die := 0, ctx := some 2, cn := 5, inc := 3, drain := [], place := .net, since := 0 } : Sig)) ∧
    (({ id := 8, src := .engine 0, die := 0, ctx := some 2, cn := 5, inc := 3, drain := [], place := .net, since := 0 } : Sig).place = .net) ∧
    (({ rig with syn := { rig.syn with signals := [{ id := 8, src := .engine 0, die := 0, ctx := some 2, cn := 5, inc := 3, drain := [], place := .net, since := 0 }] } } : State).frozen = false) ∧
    (({ id := 8, src := .engine 0, die := 0, ctx := some 2, cn := 5, inc := 3, drain := [], place := .net, since := 0 } : Sig).since ≤ ({ rig with syn := { rig.syn with signals := [{ id := 8, src := .engine 0, die := 0, ctx := some 2, cn := 5, inc := 3, drain := [], place := .net, since := 0 }] } } : State).time.ufc) ∧
    (({ rig with syn := { rig.syn with signals := [{ id := 8, src := .engine 0, die := 0, ctx := some 2, cn := 5, inc := 3, drain := [], place := .net, since := 0 }] } } : State).unitFree ({ id := 8, src := .engine 0, die := 0, ctx := some 2, cn := 5, inc := 3, drain := [], place := .net, since := 0 } : Sig) (({ rig with syn := { rig.syn with signals := [{ id := 8, src := .engine 0, die := 0, ctx := some 2, cn := 5, inc := 3, drain := [], place := .net, since := 0 }] } } : State).sigUnit ({ id := 8, src := .engine 0, die := 0, ctx := some 2, cn := 5, inc := 3, drain := [], place := .net, since := 0 } : Sig)) = true) := by decide +kernel

theorem witness_signalsTravelAndAreApplied_signalApply_away :
    (({ rig with syn := { rig.syn with signals := [{ id := 8, src := .engine 0, die := 0, ctx := some 2, cn := 5, inc := 3, drain := [], place := .away, since := 0 }] } } : State).syn.signals.find? (fun x => decide (x.id = (8 : Nat)) && (decide (x.place = SigPlace.net) || decide (x.place = SigPlace.away))) = some ({ id := 8, src := .engine 0, die := 0, ctx := some 2, cn := 5, inc := 3, drain := [], place := .away, since := 0 } : Sig)) ∧
    (({ id := 8, src := .engine 0, die := 0, ctx := some 2, cn := 5, inc := 3, drain := [], place := .away, since := 0 } : Sig).place = .away) ∧
    (({ rig with syn := { rig.syn with signals := [{ id := 8, src := .engine 0, die := 0, ctx := some 2, cn := 5, inc := 3, drain := [], place := .away, since := 0 }] } } : State).frozen = false) ∧
    (({ id := 8, src := .engine 0, die := 0, ctx := some 2, cn := 5, inc := 3, drain := [], place := .away, since := 0 } : Sig).since ≤ ({ rig with syn := { rig.syn with signals := [{ id := 8, src := .engine 0, die := 0, ctx := some 2, cn := 5, inc := 3, drain := [], place := .away, since := 0 }] } } : State).time.ufc) := by decide +kernel

theorem witness_signalsTravelAndAreApplied_signalApply_counter :
    (cnSel ({ id := 8, src := .engine 0, die := 0, ctx := some 2, cn := 5, inc := 3, drain := [], place := .net, since := 0 } : Sig).cn < 64) ∧
    (((rig.puts [(cfgBound (R.SYN_CTR_CFG 0 5), 1), (cfgCtx (R.SYN_CTR_CFG 0 5), 2)]) : State).sigAt ({ id := 8, src := .engine 0, die := 0, ctx := some 2, cn := 5, inc := 3, drain := [], place := .net, since := 0 } : Sig) = some (0 : Nat)) ∧
    (((rig.puts [(cfgBound (R.SYN_CTR_CFG 0 5), 1), (cfgCtx (R.SYN_CTR_CFG 0 5), 2)]) : State).pow (0 : Nat) ≤ 1) ∧
    (((rig.puts [(cfgBound (R.SYN_CTR_CFG 0 5), 1), (cfgCtx (R.SYN_CTR_CFG 0 5), 2)]) : State).sigAllowed ({ id := 8, src := .engine 0, die := 0, ctx := some 2, cn := 5, inc := 3, drain := [], place := .net, since := 0 } : Sig) (R.SYN_CTR_CFG (0 : Nat) (cnSel ({ id := 8, src := .engine 0, die := 0, ctx := some 2, cn := 5, inc := 3, drain := [], place := .net, since := 0 } : Sig).cn)) = true) := by decide +kernel

theorem witness_signalsTravelAndAreApplied_signalApply_add :
    (7 : Nat) ≠ 0 := by decide +kernel


theorem witness_waitersRegisterFireAndCancel_waitRegister :
    (((rig.puts [(cfgBound (R.SYN_CTR_CFG 0 5), 1), (cfgCtx (R.SYN_CTR_CFG 0 5), 2)]) : State).bit (R.CAB_PORT_STAT_P_SEQ (0 : Cab)) = true) ∧
    (((rig.puts [(cfgBound (R.SYN_CTR_CFG 0 5), 1), (cfgCtx (R.SYN_CTR_CFG 0 5), 2)]) : State).frozen = false) ∧
    (((rig.puts [(cfgBound (R.SYN_CTR_CFG 0 5), 1), (cfgCtx (R.SYN_CTR_CFG 0 5), 2)]) : State).discards (((rig.puts [(cfgBound (R.SYN_CTR_CFG 0 5), 1), (cfgCtx (R.SYN_CTR_CFG 0 5), 2)]) : State).eag (0 : Cab)) = false) ∧
    (((rig.puts [(cfgBound (R.SYN_CTR_CFG 0 5), 1), (cfgCtx (R.SYN_CTR_CFG 0 5), 2)]) : State).fenced (0 : Cab) = false) ∧
    ((11 : Fin 16).val < 12) ∧
    (((rig.puts [(cfgBound (R.SYN_CTR_CFG 0 5), 1), (cfgCtx (R.SYN_CTR_CFG 0 5), 2)]) : State).waitCheck (0 : Cab) (5 : BitVec 9).toNat (((rig.puts [(cfgBound (R.SYN_CTR_CFG 0 5), 1), (cfgCtx (R.SYN_CTR_CFG 0 5), 2)]) : State).eag (0 : Cab)) = none) := by decide +kernel

theorem witness_waitersRegisterFireAndCancel_waitRegister_fields :
    ((511 : Nat) < 512) ∧
    ((2 ^ 48 - 1 : Nat) < 2 ^ 48) ∧
    ((15 : Nat) < 16) := by decide +kernel

theorem witness_waitersRegisterFireAndCancel_waitCancel :
    ((rig : State).bit (R.CAB_PORT_STAT_P_SEQ (0 : Cab)) = true) ∧
    ((rig : State).frozen = false) ∧
    ((rig : State).discards ((rig : State).eag (0 : Cab)) = false) ∧
    ((rig : State).fenced (0 : Cab) = false) ∧
    ((0 : Fin 16).val < 12) := by decide +kernel

theorem witness_waitersRegisterFireAndCancel_waiterFire :
    (((rig.puts [(cfgBound (R.SYN_CTR_CFG 0 5), 1), (cfgWake (R.SYN_CTR_CFG 0 5), 1), (R.SYN_WTR_A_CTR 0 3, 5), (R.SYN_WTR_A_REG 0 3, 1)]) : State).wtrReady (0 : Cab) (3 : Fin 16) = true) ∧
    (((rig.puts [(cfgBound (R.SYN_CTR_CFG 0 5), 1), (cfgWake (R.SYN_CTR_CFG 0 5), 1), (R.SYN_WTR_A_CTR 0 3, 5), (R.SYN_WTR_A_REG 0 3, 1)]) : State).frozen = false ∨ ((rig.puts [(cfgBound (R.SYN_CTR_CFG 0 5), 1), (cfgWake (R.SYN_CTR_CFG 0 5), 1), (R.SYN_WTR_A_CTR 0 3, 5), (R.SYN_WTR_A_REG 0 3, 1)]) : State).syn.byHand.any (fun e => decide (e.1 = (0 : Cab).val * 16 + (3 : Fin 16).val) && decide (e.2 ≤ ((rig.puts [(cfgBound (R.SYN_CTR_CFG 0 5), 1), (cfgWake (R.SYN_CTR_CFG 0 5), 1), (R.SYN_WTR_A_CTR 0 3, 5), (R.SYN_WTR_A_REG 0 3, 1)]) : State).time.fc)) = true) ∧
    (ctrKey (0 : Cab) (((rig.puts [(cfgBound (R.SYN_CTR_CFG 0 5), 1), (cfgWake (R.SYN_CTR_CFG 0 5), 1), (R.SYN_WTR_A_CTR 0 3, 5), (R.SYN_WTR_A_REG 0 3, 1)]) : State).f (R.SYN_WTR_A_CTR (0 : Cab) (3 : Fin 16))) = some (R.SYN_CTR_CFG 0 5 : Nat)) ∧
    (((rig.puts [(cfgBound (R.SYN_CTR_CFG 0 5), 1), (cfgWake (R.SYN_CTR_CFG 0 5), 1), (R.SYN_WTR_A_CTR 0 3, 5), (R.SYN_WTR_A_REG 0 3, 1)]) : State).bit (cfgWake (R.SYN_CTR_CFG 0 5 : Nat)) = true) ∧
    (((rig.puts [(cfgBound (R.SYN_CTR_CFG 0 5), 1), (cfgWake (R.SYN_CTR_CFG 0 5), 1), (R.SYN_WTR_A_CTR 0 3, 5), (R.SYN_WTR_A_REG 0 3, 1)]) : State).pow (0 : Cab) = 0) := by decide +kernel

theorem witness_waitersRegisterFireAndCancel_waiterFire_pends :
    (((rig.puts [(cfgBound (R.SYN_CTR_CFG 0 5), 1), (cfgWake (R.SYN_CTR_CFG 0 5), 0), (R.SYN_WTR_A_CTR 0 3, 5), (R.SYN_WTR_A_REG 0 3, 1)]) : State).wtrReady (0 : Cab) (3 : Fin 16) = true) ∧
    (((rig.puts [(cfgBound (R.SYN_CTR_CFG 0 5), 1), (cfgWake (R.SYN_CTR_CFG 0 5), 0), (R.SYN_WTR_A_CTR 0 3, 5), (R.SYN_WTR_A_REG 0 3, 1)]) : State).frozen = false) ∧
    (ctrKey (0 : Cab) (((rig.puts [(cfgBound (R.SYN_CTR_CFG 0 5), 1), (cfgWake (R.SYN_CTR_CFG 0 5), 0), (R.SYN_WTR_A_CTR 0 3, 5), (R.SYN_WTR_A_REG 0 3, 1)]) : State).f (R.SYN_WTR_A_CTR (0 : Cab) (3 : Fin 16))) = some (R.SYN_CTR_CFG 0 5 : Nat)) ∧
    (((rig.puts [(cfgBound (R.SYN_CTR_CFG 0 5), 1), (cfgWake (R.SYN_CTR_CFG 0 5), 0), (R.SYN_WTR_A_CTR 0 3, 5), (R.SYN_WTR_A_REG 0 3, 1)]) : State).bit (cfgWake (R.SYN_CTR_CFG 0 5 : Nat)) = false) := by decide +kernel

theorem witness_waitersRegisterFireAndCancel_shadowUpdate :
    (({ State.reset with syn := { State.reset.syn with shadowQ := [(7, 0, 9)] } } : State).frozen = false) ∧
    (({ State.reset with syn := { State.reset.syn with shadowQ := [(7, 0, 9)] } } : State).syn.shadowQ.filter (fun e => decide (e.1 = (7 : Fin 256).val) && decide (e.2.1 ≤ ({ State.reset with syn := { State.reset.syn with shadowQ := [(7, 0, 9)] } } : State).time.ufc)) = [((7 : Fin 256).val, (0 : Nat), (9 : Nat))]) := by decide +kernel


theorem witness_countersAreBoundAndSetByHand_counterBind :
    ((rig : State).synth (selCab (.cab 0 63 : CtrSel)) = true) ∧
    ((rig : State).stationOf (selCab (.cab 0 63 : CtrSel)) = .go) ∧
    (((Master.sch : Master) == .sch || (Master.sch : Master) == .sec || (Master.sch : Master) == .dbg) = true) ∧
    ((rig : State).bit (cfgBound (selKey (.cab 0 63 : CtrSel))) = false) ∧
    ((rig : State).bit (cfgQuiet (selKey (.cab 0 63 : CtrSel))) = false) ∧
    ((rig : State).rgsShut (masterIdx (Master.sch : Master)) = false) := by decide +kernel

theorem witness_countersAreBoundAndSetByHand_counterUnbind :
    ((rig.put (cfgBound (R.SYN_CTR_CFG 0 63)) 1 : State).synth (selCab (.cab 0 63 : CtrSel)) = true) ∧
    ((rig.put (cfgBound (R.SYN_CTR_CFG 0 63)) 1 : State).stationOf (selCab (.cab 0 63 : CtrSel)) = .go) ∧
    (((Master.dbg : Master) == .sch || (Master.dbg : Master) == .sec || (Master.dbg : Master) == .dbg) = true) ∧
    ((rig.put (cfgBound (R.SYN_CTR_CFG 0 63)) 1 : State).bit (cfgBound (selKey (.cab 0 63 : CtrSel))) = true) ∧
    ((rig.put (cfgBound (R.SYN_CTR_CFG 0 63)) 1 : State).rgsShut (masterIdx (Master.dbg : Master)) = false) := by decide +kernel

theorem witness_countersAreBoundAndSetByHand_wakeEnWrite :
    ((rig.puts [(cfgBound (R.SYN_G_CFG 0 9), 1), (cfgCtx (R.SYN_G_CFG 0 9), 2)] : State).synth (selCab (.glob 0 9 : CtrSel)) = true) ∧
    ((rig.puts [(cfgBound (R.SYN_G_CFG 0 9), 1), (cfgCtx (R.SYN_G_CFG 0 9), 2)] : State).stationOf (selCab (.glob 0 9 : CtrSel)) = .go) ∧
    (((Master.sch : Master) == .sch || (Master.sch : Master) == .sec || (Master.sch : Master) == .dbg) = true) ∧
    ((rig.puts [(cfgBound (R.SYN_G_CFG 0 9), 1), (cfgCtx (R.SYN_G_CFG 0 9), 2)] : State).bit (cfgBound (selKey (.glob 0 9 : CtrSel))) = vbit (0x12 : W32) 4) ∧
    (vbit (0x12 : W32) 4 = true → (rig.puts [(cfgBound (R.SYN_G_CFG 0 9), 1), (cfgCtx (R.SYN_G_CFG 0 9), 2)] : State).f (cfgCtx (selKey (.glob 0 9 : CtrSel))) = (0x12 : W32).toNat % 16) ∧
    ((rig.puts [(cfgBound (R.SYN_G_CFG 0 9), 1), (cfgCtx (R.SYN_G_CFG 0 9), 2)] : State).rgsShut (masterIdx (Master.sch : Master)) = false) := by decide +kernel

theorem witness_countersAreBoundAndSetByHand_quietEnd :
    (State.reset : State).armed (.quietEnd (.glob 0 9 : CtrSel)) = false := by decide +kernel

theorem witness_countersAreBoundAndSetByHand_setKeyWrite :
    ((rig : State).synth (0 : Cab) = true) ∧
    ((rig : State).stationOf (0 : Cab) = .go) ∧
    (((Master.sec : Master) == .sec || (Master.sec : Master) == .dbg) = true) ∧
    ((0x6B1D : W32).toNat % 65536 = 0x6B1D) ∧
    ((rig : State).rgsShut (masterIdx (Master.sec : Master)) = false) := by decide +kernel

theorem witness_countersAreBoundAndSetByHand_setKeyWrite_bad :
    ((rig : State).synth (0 : Cab) = true) ∧
    ((rig : State).stationOf (0 : Cab) = .go) ∧
    (((Master.sec : Master) == .sec || (Master.sec : Master) == .dbg) = true) ∧
    ((0x6B1C : W32).toNat % 65536 ≠ 0x6B1D) ∧
    ((rig : State).rgsShut (masterIdx (Master.sec : Master)) = false) := by decide +kernel

theorem witness_countersAreBoundAndSetByHand_setPathTimeout :
    SMap.get 0 (State.reset : State).syn.setUntil (0 : Cab) ≤ (State.reset : State).time.now := by decide +kernel

theorem witness_countersAreBoundAndSetByHand_counterSet :
    (({ rig.put (R.SYN_SET_KEY_OPEN 0) 1 with loHeld := [(0, R.SYN_SET_LO 0, 77)] } : State).synth (0 : Cab) = true) ∧
    (({ rig.put (R.SYN_SET_KEY_OPEN 0) 1 with loHeld := [(0, R.SYN_SET_LO 0, 77)] } : State).stationOf (0 : Cab) = .go) ∧
    (((Master.sec : Master) == .sec || (Master.sec : Master) == .dbg) = true) ∧
    (({ rig.put (R.SYN_SET_KEY_OPEN 0) 1 with loHeld := [(0, R.SYN_SET_LO 0, 77)] } : State).bit (R.SYN_SET_KEY_OPEN (0 : Cab)) = true) ∧
    (ctrKey (0 : Cab) ((0x50001 : W32).toNat / 65536 % 512) = some (R.SYN_CTR_CFG 0 5 : Nat)) ∧
    (({ rig.put (R.SYN_SET_KEY_OPEN 0) 1 with loHeld := [(0, R.SYN_SET_LO 0, 77)] } : State).rgsShut (masterIdx (Master.sec : Master)) = false) := by decide +kernel

theorem witness_countersAreBoundAndSetByHand_dumpGo :
    (((Master.dbg : Master) == .sec || (Master.dbg : Master) == .dbg) = true) ∧
    (vbit (0x11 : W32) 0 = true) ∧
    ((State.reset.put R.LCT_FRZ_STAT_FROZEN 1 : State).frozen = true) ∧
    ((State.reset.put R.LCT_FRZ_STAT_FROZEN 1 : State).bit (R.SYN_DUMP_CTL_GO 0) = false) ∧
    ((State.reset.put R.LCT_FRZ_STAT_FROZEN 1 : State).f (R.SYN_DUMP_BASE_BASE 0) * 64 + 0x1A840 ≤ 0x100000) ∧
    ((State.reset.put R.LCT_FRZ_STAT_FROZEN 1 : State).rgsShut (masterIdx (Master.dbg : Master)) = false) := by decide +kernel

theorem witness_countersAreBoundAndSetByHand_dumpDone :
    (({ State.reset.put R.LCT_FRZ_STAT_FROZEN 1 with time := { State.reset.time with real := ns 5 }, syn := { State.reset.syn with dump := some 128 } } : State).syn.dump = some (128 : Nat)) ∧
    (({ State.reset.put R.LCT_FRZ_STAT_FROZEN 1 with time := { State.reset.time with real := ns 5 }, syn := { State.reset.syn with dump := some 128 } } : State).msramBusy = false) ∧
    (({ State.reset.put R.LCT_FRZ_STAT_FROZEN 1 with time := { State.reset.time with real := ns 5 }, syn := { State.reset.syn with dump := some 128 } } : State).cabs.find? (fun p => decide ((128 : Nat) ≤ p)) = none) := by decide +kernel

theorem witness_countersAreBoundAndSetByHand_dumpDone_next :
    (({ State.reset.put R.LCT_FRZ_STAT_FROZEN 1 with time := { State.reset.time with real := ns 5 }, syn := { State.reset.syn with dump := some 0 } } : State).syn.dump = some (0 : Nat)) ∧
    (({ State.reset.put R.LCT_FRZ_STAT_FROZEN 1 with time := { State.reset.time with real := ns 5 }, syn := { State.reset.syn with dump := some 0 } } : State).msramBusy = false) ∧
    (({ State.reset.put R.LCT_FRZ_STAT_FROZEN 1 with time := { State.reset.time with real := ns 5 }, syn := { State.reset.syn with dump := some 0 } } : State).cabs.find? (fun q => decide ((0 : Nat) ≤ q)) = some (0 : Nat)) := by decide +kernel


theorem witness_handoffItemsMoveInOrder_hfpPush :
    (((rig.setHfp 0 { rig.hfpIn 0 with push := some (7, itemOf [1, 2, 3, 4, 5, 6, 7, 8] true false) }) : State).bit (R.CAB_PORT_STAT_P_HFP (0 : Cab)) = true) ∧
    (((rig.setHfp 0 { rig.hfpIn 0 with push := some (7, itemOf [1, 2, 3, 4, 5, 6, 7, 8] true false) }) : State).frozen = false) ∧
    (((rig.setHfp 0 { rig.hfpIn 0 with push := some (7, itemOf [1, 2, 3, 4, 5, 6, 7, 8] true false) }) : State).fenced (0 : Cab) = false) ∧
    (((rig.setHfp 0 { rig.hfpIn 0 with push := some (7, itemOf [1, 2, 3, 4, 5, 6, 7, 8] true false) }) : State).pow (0 : Cab) = 0) ∧
    (((rig.setHfp 0 { rig.hfpIn 0 with push := some (7, itemOf [1, 2, 3, 4, 5, 6, 7, 8] true false) }) : State).pushReady (0 : Cab) (7 : Fin 8) = true) ∧
    ((((rig.setHfp 0 { rig.hfpIn 0 with push := some (7, itemOf [1, 2, 3, 4, 5, 6, 7, 8] true false) }) : State).hfpIn (0 : Cab)).push = some ((7 : Fin 8).val, itemOf ([1, 2, 3, 4, 5, 6, 7, 8] : List W64) (true : Bool) (false : Bool))) ∧
    ((((rig.setHfp 0 { rig.hfpIn 0 with push := some (7, itemOf [1, 2, 3, 4, 5, 6, 7, 8] true false) }) : State).hfpIn (0 : Cab)).donePush = false) := by decide +kernel

theorem witness_handoffItemsMoveInOrder_hfpPush_presented :
    ((rig : State).bit (R.CAB_PORT_STAT_P_HFP (0 : Cab)) = true) ∧
    ((rig : State).frozen = false) ∧
    ((rig : State).fenced (0 : Cab) = false) ∧
    ((rig : State).pow (0 : Cab) = 0) ∧
    (((rig : State).hfpIn (0 : Cab)).push = none) := by decide +kernel

theorem witness_handoffItemsMoveInOrder_hfpPush_entering :
    ((((rig : State).fifo (0 : Cab) (7 : Fin 8)).begin' (rig : State).time.ufc).dropping = false) ∧
    ((itemOf [1] true false : Item).last = false) := by decide +kernel

theorem witness_handoffItemsMoveInOrder_hfpPop :
    ((((rig.setFifo 0 0 { Fifo.idle with stages := [some (itemOf [1, 2, 3, 4, 5, 6, 7, 8] true true)] ++ List.replicate 15 none }).setHfp 0 { (rig.setFifo 0 0 { Fifo.idle with stages := [some (itemOf [1, 2, 3, 4, 5, 6, 7, 8] true true)] ++ List.replicate 15 none }).hfpIn 0 with pop := some (0, false, false) }) : State).bit (R.CAB_PORT_STAT_P_HFP (0 : Cab)) = true) ∧
    ((((rig.setFifo 0 0 { Fifo.idle with stages := [some (itemOf [1, 2, 3, 4, 5, 6, 7, 8] true true)] ++ List.replicate 15 none }).setHfp 0 { (rig.setFifo 0 0 { Fifo.idle with stages := [some (itemOf [1, 2, 3, 4, 5, 6, 7, 8] true true)] ++ List.replicate 15 none }).hfpIn 0 with pop := some (0, false, false) }) : State).frozen = false) ∧
    ((((rig.setFifo 0 0 { Fifo.idle with stages := [some (itemOf [1, 2, 3, 4, 5, 6, 7, 8] true true)] ++ List.replicate 15 none }).setHfp 0 { (rig.setFifo 0 0 { Fifo.idle with stages := [some (itemOf [1, 2, 3, 4, 5, 6, 7, 8] true true)] ++ List.replicate 15 none }).hfpIn 0 with pop := some (0, false, false) }) : State).fenced (0 : Cab) = false) ∧
    ((((rig.setFifo 0 0 { Fifo.idle with stages := [some (itemOf [1, 2, 3, 4, 5, 6, 7, 8] true true)] ++ List.replicate 15 none }).setHfp 0 { (rig.setFifo 0 0 { Fifo.idle with stages := [some (itemOf [1, 2, 3, 4, 5, 6, 7, 8] true true)] ++ List.replicate 15 none }).hfpIn 0 with pop := some (0, false, false) }) : State).pow (0 : Cab) = 0) ∧
    (((((rig.setFifo 0 0 { Fifo.idle with stages := [some (itemOf [1, 2, 3, 4, 5, 6, 7, 8] true true)] ++ List.replicate 15 none }).setHfp 0 { (rig.setFifo 0 0 { Fifo.idle with stages := [some (itemOf [1, 2, 3, 4, 5, 6, 7, 8] true true)] ++ List.replicate 15 none }).hfpIn 0 with pop := some (0, false, false) }) : State).hfpIn (0 : Cab)).pop = some ((0 : Fin 8).val, false, false)) ∧
    (((((rig.setFifo 0 0 { Fifo.idle with stages := [some (itemOf [1, 2, 3, 4, 5, 6, 7, 8] true true)] ++ List.replicate 15 none }).setHfp 0 { (rig.setFifo 0 0 { Fifo.idle with stages := [some (itemOf [1, 2, 3, 4, 5, 6, 7, 8] true true)] ++ List.replicate 15 none }).hfpIn 0 with pop := some (0, false, false) }) : State).hfpIn (0 : Cab)).donePop = false) ∧
    ((((rig.setFifo 0 0 { Fifo.idle with stages := [some (itemOf [1, 2, 3, 4, 5, 6, 7, 8] true true)] ++ List.replicate 15 none }).setHfp 0 { (rig.setFifo 0 0 { Fifo.idle with stages := [some (itemOf [1, 2, 3, 4, 5, 6, 7, 8] true true)] ++ List.replicate 15 none }).hfpIn 0 with pop := some (0, false, false) }) : State).popReady (0 : Cab) (0 : Fin 8) = some (itemOf [1, 2, 3, 4, 5, 6, 7, 8] true true : Item)) ∧
    ((itemOf [1, 2, 3, 4, 5, 6, 7, 8] true true : Item).flips = List.replicate 8 0) := by decide +kernel

theorem witness_handoffItemsMoveInOrder_hfpPop_idle :
    (((rig.setHfp 0 { rig.hfpIn 0 with pop := some (0, false, false) }) : State).bit (R.CAB_PORT_STAT_P_HFP (0 : Cab)) = true) ∧
    (((rig.setHfp 0 { rig.hfpIn 0 with pop := some (0, false, false) }) : State).frozen = false) ∧
    (((rig.setHfp 0 { rig.hfpIn 0 with pop := some (0, false, false) }) : State).fenced (0 : Cab) = false) ∧
    (((rig.setHfp 0 { rig.hfpIn 0 with pop := some (0, false, false) }) : State).pow (0 : Cab) = 0) ∧
    ((((rig.setHfp 0 { rig.hfpIn 0 with pop := some (0, false, false) }) : State).hfpIn (0 : Cab)).pop = some ((0 : Fin 8).val, false, false)) ∧
    ((((rig.setHfp 0 { rig.hfpIn 0 with pop := some (0, false, false) }) : State).hfpIn (0 : Cab)).donePop = false) ∧
    (((rig.setHfp 0 { rig.hfpIn 0 with pop := some (0, false, false) }) : State).popReady (0 : Cab) (0 : Fin 8) = none) := by decide +kernel

theorem witness_handoffItemsMoveInOrder_hfpPop_presented :
    ((rig : State).bit (R.CAB_PORT_STAT_P_HFP (0 : Cab)) = true) ∧
    ((rig : State).frozen = false) ∧
    ((rig : State).fenced (0 : Cab) = false) ∧
    ((rig : State).pow (0 : Cab) = 0) ∧
    (((rig : State).hfpIn (0 : Cab)).pop = none) ∧
    (((rig : State).hfpIn (0 : Cab)).donePop = false) ∧
    (((rig : State).hfpIn (0 : Cab)).held = []) := by decide +kernel

theorem witness_handoffItemsMoveInOrder_hfpDrop :
    ((((rig.setFifo 0 0 { Fifo.idle with stages := [some (itemOf [1, 2, 3, 4, 5, 6, 7, 8] true true)] ++ List.replicate 15 none }).setHfp 0 { (rig.setFifo 0 0 { Fifo.idle with stages := [some (itemOf [1, 2, 3, 4, 5, 6, 7, 8] true true)] ++ List.replicate 15 none }).hfpIn 0 with pop := some (0, false, true) }) : State).bit (R.CAB_PORT_STAT_P_HFP (0 : Cab)) = true) ∧
    ((((rig.setFifo 0 0 { Fifo.idle with stages := [some (itemOf [1, 2, 3, 4, 5, 6, 7, 8] true true)] ++ List.replicate 15 none }).setHfp 0 { (rig.setFifo 0 0 { Fifo.idle with stages := [some (itemOf [1, 2, 3, 4, 5, 6, 7, 8] true true)] ++ List.replicate 15 none }).hfpIn 0 with pop := some (0, false, true) }) : State).frozen = false) ∧
    ((((rig.setFifo 0 0 { Fifo.idle with stages := [some (itemOf [1, 2, 3, 4, 5, 6, 7, 8] true true)] ++ List.replicate 15 none }).setHfp 0 { (rig.setFifo 0 0 { Fifo.idle with stages := [some (itemOf [1, 2, 3, 4, 5, 6, 7, 8] true true)] ++ List.replicate 15 none }).hfpIn 0 with pop := some (0, false, true) }) : State).fenced (0 : Cab) = false) ∧
    ((((rig.setFifo 0 0 { Fifo.idle with stages := [some (itemOf [1, 2, 3, 4, 5, 6, 7, 8] true true)] ++ List.replicate 15 none }).setHfp 0 { (rig.setFifo 0 0 { Fifo.idle with stages := [some (itemOf [1, 2, 3, 4, 5, 6, 7, 8] true true)] ++ List.replicate 15 none }).hfpIn 0 with pop := some (0, false, true) }) : State).pow (0 : Cab) = 0) ∧
    (((((rig.setFifo 0 0 { Fifo.idle with stages := [some (itemOf [1, 2, 3, 4, 5, 6, 7, 8] true true)] ++ List.replicate 15 none }).setHfp 0 { (rig.setFifo 0 0 { Fifo.idle with stages := [some (itemOf [1, 2, 3, 4, 5, 6, 7, 8] true true)] ++ List.replicate 15 none }).hfpIn 0 with pop := some (0, false, true) }) : State).hfpIn (0 : Cab)).pop = some ((0 : Fin 8).val, false, true)) ∧
    (((((rig.setFifo 0 0 { Fifo.idle with stages := [some (itemOf [1, 2, 3, 4, 5, 6, 7, 8] true true)] ++ List.replicate 15 none }).setHfp 0 { (rig.setFifo 0 0 { Fifo.idle with stages := [some (itemOf [1, 2, 3, 4, 5, 6, 7, 8] true true)] ++ List.replicate 15 none }).hfpIn 0 with pop := some (0, false, true) }) : State).hfpIn (0 : Cab)).donePop = false) := by decide +kernel

theorem witness_handoffItemsMoveInOrder_hfpDrop_presented :
    ((rig : State).bit (R.CAB_PORT_STAT_P_HFP (0 : Cab)) = true) ∧
    ((rig : State).frozen = false) ∧
    ((rig : State).fenced (0 : Cab) = false) ∧
    ((rig : State).pow (0 : Cab) = 0) ∧
    (((rig : State).hfpIn (0 : Cab)).pop = none) ∧
    (((rig : State).hfpIn (0 : Cab)).donePop = false) ∧
    (((rig : State).hfpIn (0 : Cab)).held = []) := by decide +kernel

theorem witness_handoffItemsMoveInOrder_hfpDrop_packet :
    ((((rig.setFifo 0 0 { Fifo.idle with stages := [some (itemOf [1, 2, 3, 4, 5, 6, 7, 8] true true)] ++ List.replicate 15 none }).fifo 0 0).begin' 0 : Fifo) = (((rig.setFifo 0 0 { Fifo.idle with stages := [some (itemOf [1, 2, 3, 4, 5, 6, 7, 8] true true)] ++ List.replicate 15 none }) : State).fifo (0 : Cab) (0 : Fin 8)).begin' ((rig.setFifo 0 0 { Fifo.idle with stages := [some (itemOf [1, 2, 3, 4, 5, 6, 7, 8] true true)] ++ List.replicate 15 none }) : State).time.ufc) ∧
    ((((rig.setFifo 0 0 { Fifo.idle with stages := [some (itemOf [1, 2, 3, 4, 5, 6, 7, 8] true true)] ++ List.replicate 15 none }).fifo 0 0).begin' 0 : Fifo).didPop = false) ∧
    (0 < (((rig.setFifo 0 0 { Fifo.idle with stages := [some (itemOf [1, 2, 3, 4, 5, 6, 7, 8] true true)] ++ List.replicate 15 none }).fifo 0 0).begin' 0 : Fifo).level0) ∧
    ((((rig.setFifo 0 0 { Fifo.idle with stages := [some (itemOf [1, 2, 3, 4, 5, 6, 7, 8] true true)] ++ List.replicate 15 none }).fifo 0 0).begin' 0 : Fifo).items = [(itemOf [1, 2, 3, 4, 5, 6, 7, 8] true true : Item)]) ∧
    ((((rig.setFifo 0 0 { Fifo.idle with stages := [some (itemOf [1, 2, 3, 4, 5, 6, 7, 8] true true)] ++ List.replicate 15 none }).fifo 0 0).begin' 0 : Fifo).inPkt = false) ∧
    ((itemOf [1, 2, 3, 4, 5, 6, 7, 8] true true : Item).last = true) ∧
    (((rig.setFifo 0 0 { Fifo.idle with stages := [some (itemOf [1, 2, 3, 4, 5, 6, 7, 8] true true)] ++ List.replicate 15 none }) : State).bit (R.HFF_CFG_NOTICE_AT (0 : Cab) (0 : Fin 8)) = false) := by decide +kernel

theorem witness_handoffItemsMoveInOrder_fifoItemFall :
    ((rig.setFifo 0 0 { Fifo.idle with stages := List.replicate 15 none ++ [some (itemOf [1, 2, 3, 4, 5, 6, 7, 8] true true)] }) : State).frozen = false := by decide +kernel

theorem witness_handoffItemsMoveInOrder_fifoItemFall_one :
    ((14 : Nat) < 15) ∧
    (({ Fifo.idle with stages := List.replicate 15 none ++ [some (itemOf [1, 2, 3, 4, 5, 6, 7, 8] true true)] } : Fifo).stages = List.replicate (14 : Nat) none ++ [none, some (itemOf [1, 2, 3, 4, 5, 6, 7, 8] true true : Item)] ++ List.replicate (14 - (14 : Nat)) none) ∧
    (({ Fifo.idle with stages := List.replicate 15 none ++ [some (itemOf [1, 2, 3, 4, 5, 6, 7, 8] true true)] } : Fifo).entering = none) := by decide +kernel

theorem witness_handoffItemsMoveInOrder_fifoItemFall_enters :
    (({ Fifo.idle with entering := some (itemOf [1, 2, 3, 4, 5, 6, 7, 8] true true) } : Fifo).stages = List.replicate 16 none) ∧
    (({ Fifo.idle with entering := some (itemOf [1, 2, 3, 4, 5, 6, 7, 8] true true) } : Fifo).entering = some (itemOf [1, 2, 3, 4, 5, 6, 7, 8] true true : Item)) := by decide +kernel

theorem witness_handoffItemsMoveInOrder_fifoNoticeSend :
    (0 < ((((rig.setFifo 0 0 { Fifo.idle with pend := 3 }).puts [(R.HFF_CFG_BOUND 0 0, 1), (R.HFF_CFG_CTX 0 0, 2), (R.HFF_NCN_CN 0 0, 5)]) : State).fifo (0 : Cab) (0 : Fin 8)).pend) ∧
    ((((rig.setFifo 0 0 { Fifo.idle with pend := 3 }).puts [(R.HFF_CFG_BOUND 0 0, 1), (R.HFF_CFG_CTX 0 0, 2), (R.HFF_NCN_CN 0 0, 5)]) : State).frozen = false) ∧
    ((((rig.setFifo 0 0 { Fifo.idle with pend := 3 }).puts [(R.HFF_CFG_BOUND 0 0, 1), (R.HFF_CFG_CTX 0 0, 2), (R.HFF_NCN_CN 0 0, 5)]) : State).fifoCtx (0 : Cab) (0 : Fin 8) = some (2 : Nat)) ∧
    ((((rig.setFifo 0 0 { Fifo.idle with pend := 3 }).puts [(R.HFF_CFG_BOUND 0 0, 1), (R.HFF_CFG_CTX 0 0, 2), (R.HFF_NCN_CN 0 0, 5)]) : State).replaying (some (2 : Nat)) = false) ∧
    ((((rig.setFifo 0 0 { Fifo.idle with pend := 3 }).puts [(R.HFF_CFG_BOUND 0 0, 1), (R.HFF_CFG_CTX 0 0, 2), (R.HFF_NCN_CN 0 0, 5)]) : State).capUsed (0 : Cab) = 0) ∧
    ((((rig.setFifo 0 0 { Fifo.idle with pend := 3 }).puts [(R.HFF_CFG_BOUND 0 0, 1), (R.HFF_CFG_CTX 0 0, 2), (R.HFF_NCN_CN 0 0, 5)]) : State).setLeaves (some (0 : Cab).val) = false) ∧
    ((((rig.setFifo 0 0 { Fifo.idle with pend := 3 }).puts [(R.HFF_CFG_BOUND 0 0, 1), (R.HFF_CFG_CTX 0 0, 2), (R.HFF_NCN_CN 0 0, 5)]) : State).sigCheck (some (2 : Nat)) ((((rig.setFifo 0 0 { Fifo.idle with pend := 3 }).puts [(R.HFF_CFG_BOUND 0 0, 1), (R.HFF_CFG_CTX 0 0, 2), (R.HFF_NCN_CN 0 0, 5)]) : State).f (R.HFF_NCN_CN (0 : Cab) (0 : Fin 8))) = none) ∧
    (({ id := 8, src := .fifo 0 0, die := 0, ctx := some 2, cn := 5, inc := 3, drain := [], place := .port, since := 0 } : Sig) = { id := (((rig.setFifo 0 0 { Fifo.idle with pend := 3 }).puts [(R.HFF_CFG_BOUND 0 0, 1), (R.HFF_CFG_CTX 0 0, 2), (R.HFF_NCN_CN 0 0, 5)]) : State).syn.nextSig, src := .fifo (0 : Cab) (0 : Fin 8), die := (((rig.setFifo 0 0 { Fifo.idle with pend := 3 }).puts [(R.HFF_CFG_BOUND 0 0, 1), (R.HFF_CFG_CTX 0 0, 2), (R.HFF_NCN_CN 0 0, 5)]) : State).die, ctx := some (2 : Nat), cn := (((rig.setFifo 0 0 { Fifo.idle with pend := 3 }).puts [(R.HFF_CFG_BOUND 0 0, 1), (R.HFF_CFG_CTX 0 0, 2), (R.HFF_NCN_CN 0 0, 5)]) : State).f (R.HFF_NCN_CN (0 : Cab) (0 : Fin 8)), inc := ((((rig.setFifo 0 0 { Fifo.idle with pend := 3 }).puts [(R.HFF_CFG_BOUND 0 0, 1), (R.HFF_CFG_CTX 0 0, 2), (R.HFF_NCN_CN 0 0, 5)]) : State).fifo (0 : Cab) (0 : Fin 8)).pend, drain := [], place := .port, since := 0 }) := by decide +kernel

theorem witness_handoffItemsMoveInOrder_hffFlush :
    (((rig.setFifo 0 0 { Fifo.idle with stages := [some (itemOf [1, 2, 3, 4, 5, 6, 7, 8] true true)] ++ List.replicate 15 none }) : State).synth (0 : Cab) = true) ∧
    (((rig.setFifo 0 0 { Fifo.idle with stages := [some (itemOf [1, 2, 3, 4, 5, 6, 7, 8] true true)] ++ List.replicate 15 none }) : State).stationOf (0 : Cab) = .go) ∧
    (schMaster (Master.sec : Master) = true) ∧
    ((Master.sec : Master) ≠ .sch ∨ ((rig.setFifo 0 0 { Fifo.idle with stages := [some (itemOf [1, 2, 3, 4, 5, 6, 7, 8] true true)] ++ List.replicate 15 none }) : State).masked.contains 2 = false) ∧
    (((rig.setFifo 0 0 { Fifo.idle with stages := [some (itemOf [1, 2, 3, 4, 5, 6, 7, 8] true true)] ++ List.replicate 15 none }) : State).rgsShut (masterIdx (Master.sec : Master)) = false) := by decide +kernel

theorem witness_handoffItemsMoveInOrder_hffCfgWrite :
    ((rig : State).synth (0 : Cab) = true) ∧
    ((rig : State).stationOf (0 : Cab) = .go) ∧
    (schMaster (Master.sec : Master) = true) ∧
    ((rig : State).bit (R.HFF_CFG_HANDOVER (0 : Cab) (3 : Fin 8)) = false) ∧
    ((rig : State).bit (R.HFF_CFG_BOUND (0 : Cab) (3 : Fin 8)) = true → vbit (0x101C1F : W32) 20 = true → (rig : State).f (R.HFF_CFG_CTX (0 : Cab) (3 : Fin 8)) = (0x101C1F : W32).toNat / 65536 % 16) ∧
    ((rig : State).rgsShut (masterIdx (Master.sec : Master)) = false) := by decide +kernel


theorem witness_runnerListsAreDispatchedAndEnd_runnerListGo :
    ((rig : State).synth (0 : Cab) = true) ∧
    ((rig : State).stationOf (0 : Cab) = .go) ∧
    (schMaster (Master.sch : Master) = true) ∧
    (vbit (0x80120003 : W32) 31 = true) ∧
    (((rig : State).runner (0 : Cab) (3 : Fin 4)).queue.length < 4) ∧
    ((0x80120003 : W32).toNat % 65536 ≠ 0) ∧
    ((rig : State).f (R.RUN_RN_LIST_FA_FA (0 : Cab) (3 : Fin 4)) % 32 = 0) ∧
    (faDie ((rig : State).f (R.RUN_RN_LIST_FA_FA (0 : Cab) (3 : Fin 4))) = (rig : State).die) ∧
    (({ newList 0 3 2 0 true false with openAt := rig.openAt 2 } : RunList) = { newList ((rig : State).f (R.RUN_RN_LIST_FA_FA (0 : Cab) (3 : Fin 4))) ((0x80120003 : W32).toNat % 65536) ((0x80120003 : W32).toNat / 2 ^ 16 % 16) ((0x80120003 : W32).toNat / 2 ^ 21 % 256) (vbit (0x80120003 : W32) 20) (vbit (0x80120003 : W32) 20 && (rig : State).stepLive ((0x80120003 : W32).toNat / 2 ^ 16 % 16)) with openAt := (rig : State).openAt ((0x80120003 : W32).toNat / 2 ^ 16 % 16) }) ∧
    ((rig : State).rgsShut (masterIdx (Master.sch : Master)) = false) := by decide +kernel

theorem witness_runnerListsAreDispatchedAndEnd_runnerListGo_full :
    (((rig.setRunner 0 0 { RunSt.idle with queue := List.replicate 4 (newList 0x1000 3 2 7 false false) }) : State).synth (0 : Cab) = true) ∧
    (((rig.setRunner 0 0 { RunSt.idle with queue := List.replicate 4 (newList 0x1000 3 2 7 false false) }) : State).stationOf (0 : Cab) = .go) ∧
    (schMaster (Master.sch : Master) = true) ∧
    (vbit (0x80020003 : W32) 31 = true) ∧
    (4 ≤ (((rig.setRunner 0 0 { RunSt.idle with queue := List.replicate 4 (newList 0x1000 3 2 7 false false) }) : State).runner (0 : Cab) (0 : Fin 4)).queue.length) ∧
    (((rig.setRunner 0 0 { RunSt.idle with queue := List.replicate 4 (newList 0x1000 3 2 7 false false) }) : State).rgsShut (masterIdx (Master.sch : Master)) = false) := by decide +kernel

theorem witness_runnerListsAreDispatchedAndEnd_runnerListGo_taken :
    (((rig.setRunner 0 0 { RunSt.idle with queue := [newList 0x1000 3 2 7 false false] }) : State).runner (0 : Nat) (0 : Nat) = ({ RunSt.idle with queue := [newList 0x1000 3 2 7 false false] } : RunSt)) ∧
    (({ RunSt.idle with queue := [newList 0x1000 3 2 7 false false] } : RunSt).queue = (newList 0x1000 3 2 7 false false : RunList) :: ([] : List RunList)) ∧
    (({ RunSt.idle with queue := [newList 0x1000 3 2 7 false false] } : RunSt).run = none) ∧
    (({ RunSt.idle with queue := [newList 0x1000 3 2 7 false false] } : RunSt).works = []) ∧
    (({ RunSt.idle with queue := [newList 0x1000 3 2 7 false false] } : RunSt).start = none) ∧
    (({ RunSt.idle with queue := [newList 0x1000 3 2 7 false false] } : RunSt).theft = none) ∧
    (({ RunSt.idle with queue := [newList 0x1000 3 2 7 false false] } : RunSt).cmpl.length < 4) ∧
    (((rig.setRunner 0 0 { RunSt.idle with queue := [newList 0x1000 3 2 7 false false] }) : State).draining (0 : Nat) = false) ∧
    (((rig.setRunner 0 0 { RunSt.idle with queue := [newList 0x1000 3 2 7 false false] }) : State).pow (0 : Nat) = 0) := by decide +kernel

theorem witness_runnerListsAreDispatchedAndEnd_descriptorFetch :
    (({ (rig.setRunner 0 0 { RunSt.idle with run := some { newList 0x1000 3 2 7 false false with fetching := [(8, 0)] } }) with loose := { rig.loose with acked := [({ id := 8, req := 2, home := 0, homeDie := 0, org := .fetch 0 0 0, cls := .loose, ctx := some 2, fa := 0x1000, we := false, be := 2 ^ 64 - 1, dat := [], op := .acc }, { resp := .ok, dat := [1, 2], zero := [false, false] }, 0)] } } : State).loose.acked = ([] : List (LReq × Ans × Nat)) ++ (({ id := 8, req := 2, home := 0, homeDie := 0, org := .fetch 0 0 0, cls := .loose, ctx := some 2, fa := 0x1000, we := false, be := 2 ^ 64 - 1, dat := [], op := .acc }, { resp := .ok, dat := [1, 2], zero := [false, false] }, 0) : LReq × Ans × Nat) :: ([] : List (LReq × Ans × Nat))) ∧
    (∀ y ∈ ([] : List (LReq × Ans × Nat)) ++ ([] : List (LReq × Ans × Nat)), y.1.org.fetchBy (0 : Cab) (0 : Fin 4) = false) ∧
    ((({ id := 8, req := 2, home := 0, homeDie := 0, org := .fetch 0 0 0, cls := .loose, ctx := some 2, fa := 0x1000, we := false, be := 2 ^ 64 - 1, dat := [], op := .acc }, { resp := .ok, dat := [1, 2], zero := [false, false] }, 0) : LReq × Ans × Nat).1.org = .fetch (0 : Cab) (0 : Fin 4) (0 : Nat)) ∧
    ((({ id := 8, req := 2, home := 0, homeDie := 0, org := .fetch 0 0 0, cls := .loose, ctx := some 2, fa := 0x1000, we := false, be := 2 ^ 64 - 1, dat := [], op := .acc }, { resp := .ok, dat := [1, 2], zero := [false, false] }, 0) : LReq × Ans × Nat).2.1.resp ≠ .fault) ∧
    ((({ id := 8, req := 2, home := 0, homeDie := 0, org := .fetch 0 0 0, cls := .loose, ctx := some 2, fa := 0x1000, we := false, be := 2 ^ 64 - 1, dat := [], op := .acc }, { resp := .ok, dat := [1, 2], zero := [false, false] }, 0) : LReq × Ans × Nat).2.1.resp ≠ .asleep) ∧
    (({ (rig.setRunner 0 0 { RunSt.idle with run := some { newList 0x1000 3 2 7 false false with fetching := [(8, 0)] } }) with loose := { rig.loose with acked := [({ id := 8, req := 2, home := 0, homeDie := 0, org := .fetch 0 0 0, cls := .loose, ctx := some 2, fa := 0x1000, we := false, be := 2 ^ 64 - 1, dat := [], op := .acc }, { resp := .ok, dat := [1, 2], zero := [false, false] }, 0)] } } : State).runner (0 : Cab) (0 : Fin 4) = ({ RunSt.idle with run := some { newList 0x1000 3 2 7 false false with fetching := [(8, 0)] } } : RunSt)) ∧
    (({ RunSt.idle with run := some { newList 0x1000 3 2 7 false false with fetching := [(8, 0)] } } : RunSt).run = some ({ newList 0x1000 3 2 7 false false with fetching := [(8, 0)] } : RunList)) ∧
    (({ newList 0x1000 3 2 7 false false with fetching := [(8, 0)] } : RunList).fetching.find? (fun y => decide (y.1 = (({ id := 8, req := 2, home := 0, homeDie := 0, org := .fetch 0 0 0, cls := .loose, ctx := some 2, fa := 0x1000, we := false, be := 2 ^ 64 - 1, dat := [], op := .acc }, { resp := .ok, dat := [1, 2], zero := [false, false] }, 0) : LReq × Ans × Nat).1.id)) = some ((8 : Nat), (0 : Nat))) ∧
    (({ newList 0x1000 3 2 7 false false with fetching := [(8, 0)] } : RunList).ended = false) := by decide +kernel

theorem witness_runnerListsAreDispatchedAndEnd_descriptorStart :
    (((rig.setRunner 0 0 { RunSt.idle with run := some { newList 0x1000 3 2 7 false false with next := 1, buf := [(0, 15)] } }) : State).frozen = false) ∧
    (((rig.setRunner 0 0 { RunSt.idle with run := some { newList 0x1000 3 2 7 false false with next := 1, buf := [(0, 15)] } }) : State).draining (0 : Cab) = false) ∧
    (((rig.setRunner 0 0 { RunSt.idle with run := some { newList 0x1000 3 2 7 false false with next := 1, buf := [(0, 15)] } }) : State).runner (0 : Cab) (0 : Fin 4) = ({ RunSt.idle with run := some { newList 0x1000 3 2 7 false false with next := 1, buf := [(0, 15)] } } : RunSt)) ∧
    (({ RunSt.idle with run := some { newList 0x1000 3 2 7 false false with next := 1, buf := [(0, 15)] } } : RunSt).run = some ({ newList 0x1000 3 2 7 false false with next := 1, buf := [(0, 15)] } : RunList)) ∧
    (({ newList 0x1000 3 2 7 false false with next := 1, buf := [(0, 15)] } : RunList).buf = (({ newList 0x1000 3 2 7 false false with next := 1, buf := [(0, 15)] } : RunList).started, (15 : Nat)) :: ([] : List (Nat × Nat))) ∧
    (({ newList 0x1000 3 2 7 false false with next := 1, buf := [(0, 15)] } : RunList).ended = false) ∧
    (({ RunSt.idle with run := some { newList 0x1000 3 2 7 false false with next := 1, buf := [(0, 15)] } } : RunSt).abort = none) ∧
    (({ RunSt.idle with run := some { newList 0x1000 3 2 7 false false with next := 1, buf := [(0, 15)] } } : RunSt).start = none) ∧
    (({ RunSt.idle with run := some { newList 0x1000 3 2 7 false false with next := 1, buf := [(0, 15)] } } : RunSt).fuse = none) ∧
    (({ RunSt.idle with run := some { newList 0x1000 3 2 7 false false with next := 1, buf := [(0, 15)] } } : RunSt).wait = none) ∧
    (({ RunSt.idle with run := some { newList 0x1000 3 2 7 false false with next := 1, buf := [(0, 15)] } } : RunSt).sweep = none) ∧
    (({ newList 0x1000 3 2 7 false false with next := 1, buf := [(0, 15)] } : RunList).anchor = none) ∧
    (isAnchor (15 : Nat) = true → ({ newList 0x1000 3 2 7 false false with next := 1, buf := [(0, 15)] } : RunList).started ≤ ({ newList 0x1000 3 2 7 false false with next := 1, buf := [(0, 15)] } : RunList).done) ∧
    (allPresented ({ RunSt.idle with run := some { newList 0x1000 3 2 7 false false with next := 1, buf := [(0, 15)] } } : RunSt) = true) := by decide +kernel

theorem witness_runnerListsAreDispatchedAndEnd_descriptorStart_valid :
    (((rig.setRunner 0 0 { RunSt.idle with run := some { newList 0x1000 3 2 7 false false with next := 1, buf := [(0, 15)] } }) : State).runner (0 : Nat) (0 : Nat) = ({ RunSt.idle with run := some { newList 0x1000 3 2 7 false false with next := 1, buf := [(0, 15)] } } : RunSt)) ∧
    ((15 : Nat) < 2 ^ 256) ∧
    (descOk ((rig.setRunner 0 0 { RunSt.idle with run := some { newList 0x1000 3 2 7 false false with next := 1, buf := [(0, 15)] } }) : State).die (15 : Nat) = true) ∧
    (opOf (15 : Nat) ≠ 6) := by decide +kernel

theorem witness_runnerListsAreDispatchedAndEnd_descriptorStart_op :
    (movedBytes (15 : Nat) ≤ 2 ^ 20) ∧
    (opOf (15 : Nat) ≠ 9) := by decide +kernel

theorem witness_runnerListsAreDispatchedAndEnd_descriptorStart_leave :
    2 ^ 20 < movedBytes (1 + (2 <<< 16) + (0xFFFFFF <<< 96) : Nat) := by decide +kernel

theorem witness_runnerListsAreDispatchedAndEnd_descriptorStart_invalid :
    (((rig.setRunner 0 0 { RunSt.idle with run := some { newList 0x1000 3 2 7 false false with next := 1, buf := [(0, 15)] } }) : State).runner (0 : Nat) (0 : Nat) = ({ RunSt.idle with run := some { newList 0x1000 3 2 7 false false with next := 1, buf := [(0, 15)] } } : RunSt)) ∧
    (({ RunSt.idle with run := some { newList 0x1000 3 2 7 false false with next := 1, buf := [(0, 15)] } } : RunSt).run = some ({ newList 0x1000 3 2 7 false false with next := 1, buf := [(0, 15)] } : RunList)) ∧
    (({ newList 0x1000 3 2 7 false false with next := 1, buf := [(0, 15)] } : RunList).ended = false) ∧
    ((14 : Nat) < 2 ^ 256) ∧
    (descOk ((rig.setRunner 0 0 { RunSt.idle with run := some { newList 0x1000 3 2 7 false false with next := 1, buf := [(0, 15)] } }) : State).die (14 : Nat) = false) := by decide +kernel

theorem witness_runnerListsAreDispatchedAndEnd_listComplete :
    (((rig.setRunner 0 0 { RunSt.idle with run := some { newList 0x1000 3 2 7 false false with next := 3, started := 3, done := 3 } }) : State).runner (0 : Cab) (0 : Fin 4) = ({ RunSt.idle with run := some { newList 0x1000 3 2 7 false false with next := 3, started := 3, done := 3 } } : RunSt)) ∧
    (({ RunSt.idle with run := some { newList 0x1000 3 2 7 false false with next := 3, started := 3, done := 3 } } : RunSt).run = some ({ newList 0x1000 3 2 7 false false with next := 3, started := 3, done := 3 } : RunList)) ∧
    (({ RunSt.idle with run := some { newList 0x1000 3 2 7 false false with next := 3, started := 3, done := 3 } } : RunSt).abort = none) ∧
    (((rig.setRunner 0 0 { RunSt.idle with run := some { newList 0x1000 3 2 7 false false with next := 3, started := 3, done := 3 } }) : State).listOver (0 : Cab) (0 : Fin 4) ({ RunSt.idle with run := some { newList 0x1000 3 2 7 false false with next := 3, started := 3, done := 3 } } : RunSt) ({ newList 0x1000 3 2 7 false false with next := 3, started := 3, done := 3 } : RunList) = true) := by decide +kernel

theorem witness_runnerListsAreDispatchedAndEnd_cmplPop :
    (((rig.setRunner 0 0 { RunSt.idle with cmpl := [blankCmpl 1 2, blankCmpl 3 4] }) : State).synth (0 : Cab) = true) ∧
    (((rig.setRunner 0 0 { RunSt.idle with cmpl := [blankCmpl 1 2, blankCmpl 3 4] }) : State).stationOf (0 : Cab) = .go) ∧
    (schMaster (Master.sch : Master) = true) ∧
    (((rig.setRunner 0 0 { RunSt.idle with cmpl := [blankCmpl 1 2, blankCmpl 3 4] }) : State).runner (0 : Cab) (0 : Fin 4) = ({ RunSt.idle with cmpl := [blankCmpl 1 2, blankCmpl 3 4] } : RunSt)) ∧
    (vbit (1 : W32) 0 = true) ∧
    (((rig.setRunner 0 0 { RunSt.idle with cmpl := [blankCmpl 1 2, blankCmpl 3 4] }) : State).rgsShut (masterIdx (Master.sch : Master)) = false) := by decide +kernel


theorem witness_descriptorsAreCarriedOut_copy :
    (((rig.setRunner 0 0 { RunSt.idle with start := some { idx := 0, desc := 1, list := (0, 0), leave := false } }) : State).runner (0 : Cab) (0 : Fin 4) = ({ RunSt.idle with start := some { idx := 0, desc := 1, list := (0, 0), leave := false } } : RunSt)) ∧
    (starting ({ RunSt.idle with start := some { idx := 0, desc := 1, list := (0, 0), leave := false } } : RunSt) 1 = some ({ idx := 0, desc := 1, list := (0, 0), leave := false } : Start)) := by decide +kernel

theorem witness_descriptorsAreCarriedOut_fill :
    (((rig.setRunner 0 0 { RunSt.idle with start := some { idx := 0, desc := 2, list := (0, 0), leave := false } }) : State).runner (0 : Cab) (0 : Fin 4) = ({ RunSt.idle with start := some { idx := 0, desc := 2, list := (0, 0), leave := false } } : RunSt)) ∧
    (starting ({ RunSt.idle with start := some { idx := 0, desc := 2, list := (0, 0), leave := false } } : RunSt) 2 = some ({ idx := 0, desc := 2, list := (0, 0), leave := false } : Start)) := by decide +kernel

theorem witness_descriptorsAreCarriedOut_gather :
    (((rig.setRunner 0 0 { RunSt.idle with start := some { idx := 0, desc := 3, list := (0, 0), leave := false } }) : State).runner (0 : Cab) (0 : Fin 4) = ({ RunSt.idle with start := some { idx := 0, desc := 3, list := (0, 0), leave := false } } : RunSt)) ∧
    (starting ({ RunSt.idle with start := some { idx := 0, desc := 3, list := (0, 0), leave := false } } : RunSt) 3 = some ({ idx := 0, desc := 3, list := (0, 0), leave := false } : Start)) := by decide +kernel

theorem witness_descriptorsAreCarriedOut_scatter :
    (((rig.setRunner 0 0 { RunSt.idle with start := some { idx := 0, desc := 4, list := (0, 0), leave := false } }) : State).runner (0 : Cab) (0 : Fin 4) = ({ RunSt.idle with start := some { idx := 0, desc := 4, list := (0, 0), leave := false } } : RunSt)) ∧
    (starting ({ RunSt.idle with start := some { idx := 0, desc := 4, list := (0, 0), leave := false } } : RunSt) 4 = some ({ idx := 0, desc := 4, list := (0, 0), leave := false } : Start)) := by decide +kernel

theorem witness_descriptorsAreCarriedOut_mcast :
    (((rig.setRunner 0 0 { RunSt.idle with start := some { idx := 0, desc := 5, list := (0, 0), leave := false } }) : State).runner (0 : Cab) (0 : Fin 4) = ({ RunSt.idle with start := some { idx := 0, desc := 5, list := (0, 0), leave := false } } : RunSt)) ∧
    (starting ({ RunSt.idle with start := some { idx := 0, desc := 5, list := (0, 0), leave := false } } : RunSt) 5 = some ({ idx := 0, desc := 5, list := (0, 0), leave := false } : Start)) := by decide +kernel

theorem witness_descriptorsAreCarriedOut_nop :
    starting (((rig.setRunner 0 0 { RunSt.idle with start := some { idx := 0, desc := 15, list := (0, 0), leave := false } }) : State).runner (0 : Cab) (0 : Fin 4)) 15 = some ({ idx := 0, desc := 15, list := (0, 0), leave := false } : Start) := by decide +kernel

theorem witness_descriptorsAreCarriedOut_signal :
    (starting (((rig.setRunner 0 0 { RunSt.idle with start := some { idx := 0, desc := 8, list := (0, 0), leave := false } }) : State).runner (0 : Cab) (0 : Fin 4)) 8 = some ({ idx := 0, desc := 8, list := (0, 0), leave := false } : Start)) ∧
    (((rig.setRunner 0 0 { RunSt.idle with start := some { idx := 0, desc := 8, list := (0, 0), leave := false } }) : State).frozen = false) ∧
    (((rig.setRunner 0 0 { RunSt.idle with start := some { idx := 0, desc := 8, list := (0, 0), leave := false } }) : State).places (0 : Cab) (0 : Fin 4) < 4) := by decide +kernel

theorem witness_descriptorsAreCarriedOut_signal_issued :
    ((((rig.setRunner 0 0 { RunSt.idle with run := some (newList 0x1000 3 2 7 false false) }) : State).runner (0 : Nat) (0 : Nat)).run = some (newList 0x1000 3 2 7 false false : RunList)) ∧
    (((rig.setRunner 0 0 { RunSt.idle with run := some (newList 0x1000 3 2 7 false false) }) : State).sigCheck (some (newList 0x1000 3 2 7 false false : RunList).ctx) (5 : Nat) = none) ∧
    (((rig.setRunner 0 0 { RunSt.idle with run := some (newList 0x1000 3 2 7 false false) }) : State).replaying (some (newList 0x1000 3 2 7 false false : RunList).ctx) = false) := by decide +kernel

theorem witness_descriptorsAreCarriedOut_wait :
    starting (((rig.setRunner 0 0 { RunSt.idle with start := some { idx := 0, desc := 7, list := (0, 0), leave := false } }) : State).runner (0 : Cab) (0 : Fin 4)) 7 = some ({ idx := 0, desc := 7, list := (0, 0), leave := false } : Start) := by decide +kernel

theorem witness_descriptorsAreCarriedOut_wait_registered :
    ((((rig.setRunner 0 0 { RunSt.idle with run := some (newList 0x1000 3 2 7 false false) }).puts [(cfgBound (R.SYN_CTR_CFG 0 5), 1), (cfgCtx (R.SYN_CTR_CFG 0 5), 2)] : State).runner (0 : Nat) (0 : Nat)).run = some (newList 0x1000 3 2 7 false false : RunList)) ∧
    (((rig.setRunner 0 0 { RunSt.idle with run := some (newList 0x1000 3 2 7 false false) }).puts [(cfgBound (R.SYN_CTR_CFG 0 5), 1), (cfgCtx (R.SYN_CTR_CFG 0 5), 2)] : State).waitCheck (0 : Nat) (5 : Nat) (some (newList 0x1000 3 2 7 false false : RunList).ctx) = none) := by decide +kernel

theorem witness_descriptorsAreCarriedOut_sweep :
    (starting (((rig.setRunner 0 0 { RunSt.idle with start := some { idx := 0, desc := 0x000003E00000000000000009, list := (0, 0), leave := false }, run := some (newList 0x1000 3 2 7 false false) }) : State).runner (0 : Cab) (0 : Fin 4)) 9 = some ({ idx := 0, desc := 0x000003E00000000000000009, list := (0, 0), leave := false } : Start)) ∧
    (faDie (dword ({ idx := 0, desc := 0x000003E00000000000000009, list := (0, 0), leave := false } : Start).desc 1) = ((rig.setRunner 0 0 { RunSt.idle with start := some { idx := 0, desc := 0x000003E00000000000000009, list := (0, 0), leave := false }, run := some (newList 0x1000 3 2 7 false false) }) : State).die) ∧
    (((rig.setRunner 0 0 { RunSt.idle with start := some { idx := 0, desc := 0x000003E00000000000000009, list := (0, 0), leave := false }, run := some (newList 0x1000 3 2 7 false false) }) : State).writable (((rig.setRunner 0 0 { RunSt.idle with start := some { idx := 0, desc := 0x000003E00000000000000009, list := (0, 0), leave := false }, run := some (newList 0x1000 3 2 7 false false) }) : State).listCtx ({ idx := 0, desc := 0x000003E00000000000000009, list := (0, 0), leave := false } : Start).list) (faGran (dword ({ idx := 0, desc := 0x000003E00000000000000009, list := (0, 0), leave := false } : Start).desc 2)) 65 (faGran (dword ({ idx := 0, desc := 0x000003E00000000000000009, list := (0, 0), leave := false } : Start).desc 1)) = true) ∧
    (∀ i, i < sweepCabs ({ idx := 0, desc := 0x000003E00000000000000009, list := (0, 0), leave := false } : Start).desc → (((rig.setRunner 0 0 { RunSt.idle with start := some { idx := 0, desc := 0x000003E00000000000000009, list := (0, 0), leave := false }, run := some (newList 0x1000 3 2 7 false false) }) : State).mapped (((rig.setRunner 0 0 { RunSt.idle with start := some { idx := 0, desc := 0x000003E00000000000000009, list := (0, 0), leave := false }, run := some (newList 0x1000 3 2 7 false false) }) : State).ctxGen (((rig.setRunner 0 0 { RunSt.idle with start := some { idx := 0, desc := 0x000003E00000000000000009, list := (0, 0), leave := false }, run := some (newList 0x1000 3 2 7 false false) }) : State).listCtx ({ idx := 0, desc := 0x000003E00000000000000009, list := (0, 0), leave := false } : Start).list)) (faCab (dword ({ idx := 0, desc := 0x000003E00000000000000009, list := (0, 0), leave := false } : Start).desc 1) + i)).isSome) := by decide +kernel

theorem witness_descriptorsAreCarriedOut_fuse :
    (((rig.setRunner 0 0 { RunSt.idle with start := some { idx := 0, desc := 6, list := (0, 0), leave := false }, fuse := some { idx := 0, desc := 0x0000000101000106, chain := [1, 2], hand := [], phase := .reserve, todo := [], esg := false, running := [], since := 0, aged := false } }) : State).runner (0 : Cab) (0 : Fin 4) = ({ RunSt.idle with start := some { idx := 0, desc := 6, list := (0, 0), leave := false }, fuse := some { idx := 0, desc := 0x0000000101000106, chain := [1, 2], hand := [], phase := .reserve, todo := [], esg := false, running := [], since := 0, aged := false } } : RunSt)) ∧
    (starting ({ RunSt.idle with start := some { idx := 0, desc := 6, list := (0, 0), leave := false }, fuse := some { idx := 0, desc := 0x0000000101000106, chain := [1, 2], hand := [], phase := .reserve, todo := [], esg := false, running := [], since := 0, aged := false } } : RunSt) 6 = some ({ idx := 0, desc := 6, list := (0, 0), leave := false } : Start)) ∧
    (({ RunSt.idle with start := some { idx := 0, desc := 6, list := (0, 0), leave := false }, fuse := some { idx := 0, desc := 0x0000000101000106, chain := [1, 2], hand := [], phase := .reserve, todo := [], esg := false, running := [], since := 0, aged := false } } : RunSt).fuse = some ({ idx := 0, desc := 0x0000000101000106, chain := [1, 2], hand := [], phase := .reserve, todo := [], esg := false, running := [], since := 0, aged := false } : Fuse)) := by decide +kernel


theorem witness_segmentsAndStagesMove_segmentPresent :
    ((((rig.setRunner 0 0 { RunSt.idle with run := some (newList 0x1000 3 2 7 false false) }) : State).watchPause (0 : Cab) (0 : Fin 4)).runner (0 : Cab) (0 : Fin 4) = ({ RunSt.idle with run := some (newList 0x1000 3 2 7 false false) } : RunSt)) ∧
    (((rig.setRunner 0 0 { RunSt.idle with run := some (newList 0x1000 3 2 7 false false) }) : State).frozen = false) ∧
    (((rig.setRunner 0 0 { RunSt.idle with run := some (newList 0x1000 3 2 7 false false) }) : State).draining (0 : Cab) = false) ∧
    (({ RunSt.idle with run := some (newList 0x1000 3 2 7 false false) } : RunSt).works.all (fun w => w.inF.isNone && w.outF.isNone && !w.half && decide (opOf w.desc ≠ 5)) = true) ∧
    (outstanding ({ RunSt.idle with run := some (newList 0x1000 3 2 7 false false) } : RunSt) < 32) ∧
    (wantsFetch ({ RunSt.idle with run := some (newList 0x1000 3 2 7 false false) } : RunSt) = some (newList 0x1000 3 2 7 false false : RunList)) := by decide +kernel

theorem witness_segmentsAndStagesMove_segmentPresent_read :
    ((newWork 0 0x40000080000000400000010001 2 (0, 0) : Work).halted = false) ∧
    (opOf (newWork 0 0x40000080000000400000010001 2 (0, 0) : Work).desc = 1) ∧
    ((newWork 0 0x40000080000000400000010001 2 (0, 0) : Work).pieces.all (fun z => z.writing) = true) ∧
    ((newWork 0 0x40000080000000400000010001 2 (0, 0) : Work).inF = none) ∧
    ((newWork 0 0x40000080000000400000010001 2 (0, 0) : Work).outF = none) ∧
    ((newWork 0 0x40000080000000400000010001 2 (0, 0) : Work).pos < streamLen (newWork 0 0x40000080000000400000010001 2 (0, 0) : Work).desc) ∧
    (ends (newWork 0 0x40000080000000400000010001 2 (0, 0) : Work) (newWork 0 0x40000080000000400000010001 2 (0, 0) : Work).pos = some ((0x4000 : Nat), (0x8000 : Nat))) ∧
    ((0x4000 : Nat) < 2 ^ 32) := by decide +kernel

theorem witness_segmentsAndStagesMove_segmentPresent_write :
    (({ newWork 0 0x40000080000000400000010001 2 (0, 0) with pos := 64, pieces := [{ pos := 0, len := 64, src := 0x4000, dst := 0x8000, id := 0, ready := true, writing := false, dat := List.replicate 64 7 }] } : Work).halted = false) ∧
    (opOf ({ newWork 0 0x40000080000000400000010001 2 (0, 0) with pos := 64, pieces := [{ pos := 0, len := 64, src := 0x4000, dst := 0x8000, id := 0, ready := true, writing := false, dat := List.replicate 64 7 }] } : Work).desc ≠ 5) ∧
    (({ newWork 0 0x40000080000000400000010001 2 (0, 0) with pos := 64, pieces := [{ pos := 0, len := 64, src := 0x4000, dst := 0x8000, id := 0, ready := true, writing := false, dat := List.replicate 64 7 }] } : Work).pieces.find? (fun z => !z.writing) = some ({ pos := 0, len := 64, src := 0x4000, dst := 0x8000, id := 0, ready := true, writing := false, dat := List.replicate 64 7 } : Piece)) ∧
    (({ pos := 0, len := 64, src := 0x4000, dst := 0x8000, id := 0, ready := true, writing := false, dat := List.replicate 64 7 } : Piece).ready = true) ∧
    (({ newWork 0 0x40000080000000400000010001 2 (0, 0) with pos := 64, pieces := [{ pos := 0, len := 64, src := 0x4000, dst := 0x8000, id := 0, ready := true, writing := false, dat := List.replicate 64 7 }] } : Work).outF = none) ∧
    (({ pos := 0, len := 64, src := 0x4000, dst := 0x8000, id := 0, ready := true, writing := false, dat := List.replicate 64 7 } : Piece).dst < 2 ^ 32) := by decide +kernel

theorem witness_segmentsAndStagesMove_segmentAnswer :
    (({ (rig.setRunner 0 0 { RunSt.idle with works := [{ newWork 0 0x40000080000000400000010001 2 (0, 0) with pos := 64, pieces := [{ pos := 0, len := 64, src := 0x4000, dst := 0x8000, id := 8, ready := false, writing := false, dat := [] }] }] }) with loose := { rig.loose with acked := [({ id := 8, req := 2, home := 0, homeDie := 0, org := .seg 0 0 0, cls := .loose, ctx := some 2, fa := 0x4000, we := false, be := 2 ^ 64 - 1, dat := [], op := .acc }, { resp := .ok, dat := [1, 2], zero := [false, false] }, 0)] } } : State).loose.acked = ([] : List (LReq × Ans × Nat)) ++ (({ id := 8, req := 2, home := 0, homeDie := 0, org := .seg 0 0 0, cls := .loose, ctx := some 2, fa := 0x4000, we := false, be := 2 ^ 64 - 1, dat := [], op := .acc }, { resp := .ok, dat := [1, 2], zero := [false, false] }, 0) : LReq × Ans × Nat) :: ([] : List (LReq × Ans × Nat))) ∧
    (∀ y ∈ ([] : List (LReq × Ans × Nat)) ++ ([] : List (LReq × Ans × Nat)), y.1.org.segBy (0 : Cab) (0 : Fin 4) 0 = false) ∧
    ((({ id := 8, req := 2, home := 0, homeDie := 0, org := .seg 0 0 0, cls := .loose, ctx := some 2, fa := 0x4000, we := false, be := 2 ^ 64 - 1, dat := [], op := .acc }, { resp := .ok, dat := [1, 2], zero := [false, false] }, 0) : LReq × Ans × Nat).1.org = .seg (0 : Cab) (0 : Fin 4) 0) ∧
    ((({ id := 8, req := 2, home := 0, homeDie := 0, org := .seg 0 0 0, cls := .loose, ctx := some 2, fa := 0x4000, we := false, be := 2 ^ 64 - 1, dat := [], op := .acc }, { resp := .ok, dat := [1, 2], zero := [false, false] }, 0) : LReq × Ans × Nat).2.1.resp ≠ .fault) ∧
    ((({ id := 8, req := 2, home := 0, homeDie := 0, org := .seg 0 0 0, cls := .loose, ctx := some 2, fa := 0x4000, we := false, be := 2 ^ 64 - 1, dat := [], op := .acc }, { resp := .ok, dat := [1, 2], zero := [false, false] }, 0) : LReq × Ans × Nat).2.1.resp ≠ .asleep) ∧
    (({ (rig.setRunner 0 0 { RunSt.idle with works := [{ newWork 0 0x40000080000000400000010001 2 (0, 0) with pos := 64, pieces := [{ pos := 0, len := 64, src := 0x4000, dst := 0x8000, id := 8, ready := false, writing := false, dat := [] }] }] }) with loose := { rig.loose with acked := [({ id := 8, req := 2, home := 0, homeDie := 0, org := .seg 0 0 0, cls := .loose, ctx := some 2, fa := 0x4000, we := false, be := 2 ^ 64 - 1, dat := [], op := .acc }, { resp := .ok, dat := [1, 2], zero := [false, false] }, 0)] } } : State).runner (0 : Cab) (0 : Fin 4) = ({ RunSt.idle with works := [{ newWork 0 0x40000080000000400000010001 2 (0, 0) with pos := 64, pieces := [{ pos := 0, len := 64, src := 0x4000, dst := 0x8000, id := 8, ready := false, writing := false, dat := [] }] }] } : RunSt)) ∧
    (({ RunSt.idle with works := [{ newWork 0 0x40000080000000400000010001 2 (0, 0) with pos := 64, pieces := [{ pos := 0, len := 64, src := 0x4000, dst := 0x8000, id := 8, ready := false, writing := false, dat := [] }] }] } : RunSt).works.find? (fun y => decide (y.idxId = (({ id := 8, req := 2, home := 0, homeDie := 0, org := .seg 0 0 0, cls := .loose, ctx := some 2, fa := 0x4000, we := false, be := 2 ^ 64 - 1, dat := [], op := .acc }, { resp := .ok, dat := [1, 2], zero := [false, false] }, 0) : LReq × Ans × Nat).1.id) || y.pieces.any (fun z => decide (z.id = (({ id := 8, req := 2, home := 0, homeDie := 0, org := .seg 0 0 0, cls := .loose, ctx := some 2, fa := 0x4000, we := false, be := 2 ^ 64 - 1, dat := [], op := .acc }, { resp := .ok, dat := [1, 2], zero := [false, false] }, 0) : LReq × Ans × Nat).1.id))) = some ({ newWork 0 0x40000080000000400000010001 2 (0, 0) with pos := 64, pieces := [{ pos := 0, len := 64, src := 0x4000, dst := 0x8000, id := 8, ready := false, writing := false, dat := [] }] } : Work)) ∧
    (({ newWork 0 0x40000080000000400000010001 2 (0, 0) with pos := 64, pieces := [{ pos := 0, len := 64, src := 0x4000, dst := 0x8000, id := 8, ready := false, writing := false, dat := [] }] } : Work).pieces.find? (fun z => decide (z.id = (({ id := 8, req := 2, home := 0, homeDie := 0, org := .seg 0 0 0, cls := .loose, ctx := some 2, fa := 0x4000, we := false, be := 2 ^ 64 - 1, dat := [], op := .acc }, { resp := .ok, dat := [1, 2], zero := [false, false] }, 0) : LReq × Ans × Nat).1.id)) = some ({ pos := 0, len := 64, src := 0x4000, dst := 0x8000, id := 8, ready := false, writing := false, dat := [] } : Piece)) ∧
    (({ newWork 0 0x40000080000000400000010001 2 (0, 0) with pos := 64, pieces := [{ pos := 0, len := 64, src := 0x4000, dst := 0x8000, id := 8, ready := false, writing := false, dat := [] }] } : Work).idxId ≠ (({ id := 8, req := 2, home := 0, homeDie := 0, org := .seg 0 0 0, cls := .loose, ctx := some 2, fa := 0x4000, we := false, be := 2 ^ 64 - 1, dat := [], op := .acc }, { resp := .ok, dat := [1, 2], zero := [false, false] }, 0) : LReq × Ans × Nat).1.id) ∧
    (({ newWork 0 0x40000080000000400000010001 2 (0, 0) with pos := 64, pieces := [{ pos := 0, len := 64, src := 0x4000, dst := 0x8000, id := 8, ready := false, writing := false, dat := [] }] } : Work).halted = false) ∧
    (({ pos := 0, len := 64, src := 0x4000, dst := 0x8000, id := 8, ready := false, writing := false, dat := [] } : Piece).writing = false) := by decide +kernel

theorem witness_segmentsAndStagesMove_descriptorComplete :
    (((rig.setRunner 0 0 { RunSt.idle with works := [{ newWork 0 0x40000080000000400000010001 2 (0, 0) with pos := 64 }], run := some { newList 0x1000 3 2 7 false false with next := 3, started := 1, live := [0] } }) : State).runner (0 : Cab) (0 : Fin 4) = ({ RunSt.idle with works := [{ newWork 0 0x40000080000000400000010001 2 (0, 0) with pos := 64 }], run := some { newList 0x1000 3 2 7 false false with next := 3, started := 1, live := [0] } } : RunSt)) ∧
    (({ RunSt.idle with works := [{ newWork 0 0x40000080000000400000010001 2 (0, 0) with pos := 64 }], run := some { newList 0x1000 3 2 7 false false with next := 3, started := 1, live := [0] } } : RunSt).works.filter (fun y => ((rig.setRunner 0 0 { RunSt.idle with works := [{ newWork 0 0x40000080000000400000010001 2 (0, 0) with pos := 64 }], run := some { newList 0x1000 3 2 7 false false with next := 3, started := 1, live := [0] } }) : State).workOver y) = [({ newWork 0 0x40000080000000400000010001 2 (0, 0) with pos := 64 } : Work)]) ∧
    (({ RunSt.idle with works := [{ newWork 0 0x40000080000000400000010001 2 (0, 0) with pos := 64 }], run := some { newList 0x1000 3 2 7 false false with next := 3, started := 1, live := [0] } } : RunSt).run = some ({ newList 0x1000 3 2 7 false false with next := 3, started := 1, live := [0] } : RunList)) ∧
    (({ RunSt.idle with works := [{ newWork 0 0x40000080000000400000010001 2 (0, 0) with pos := 64 }], run := some { newList 0x1000 3 2 7 false false with next := 3, started := 1, live := [0] } } : RunSt).wait = none) ∧
    (({ RunSt.idle with works := [{ newWork 0 0x40000080000000400000010001 2 (0, 0) with pos := 64 }], run := some { newList 0x1000 3 2 7 false false with next := 3, started := 1, live := [0] } } : RunSt).sweep = none) ∧
    (({ RunSt.idle with works := [{ newWork 0 0x40000080000000400000010001 2 (0, 0) with pos := 64 }], run := some { newList 0x1000 3 2 7 false false with next := 3, started := 1, live := [0] } } : RunSt).fuse = none) ∧
    (({ newWork 0 0x40000080000000400000010001 2 (0, 0) with pos := 64 } : Work).list = ((0 : Cab).val, (0 : Fin 4).val)) ∧
    (({ newWork 0 0x40000080000000400000010001 2 (0, 0) with pos := 64 } : Work).halted = false) ∧
    (({ newWork 0 0x40000080000000400000010001 2 (0, 0) with pos := 64 } : Work).stage = none) := by decide +kernel

theorem witness_segmentsAndStagesMove_descriptorComplete_wait :
    (((rig.setRunner 0 0 { RunSt.idle with wait := some { idx := 0, limit := none }, run := some { newList 0x1000 3 2 7 false false with next := 3, started := 1, live := [0] } }).put (R.SYN_WTR_A_FIRED 0 12) 1 : State).runner (0 : Nat) (0 : Nat) = ({ RunSt.idle with wait := some { idx := 0, limit := none }, run := some { newList 0x1000 3 2 7 false false with next := 3, started := 1, live := [0] } } : RunSt)) ∧
    (({ RunSt.idle with wait := some { idx := 0, limit := none }, run := some { newList 0x1000 3 2 7 false false with next := 3, started := 1, live := [0] } } : RunSt).run = some ({ newList 0x1000 3 2 7 false false with next := 3, started := 1, live := [0] } : RunList)) ∧
    (({ RunSt.idle with wait := some { idx := 0, limit := none }, run := some { newList 0x1000 3 2 7 false false with next := 3, started := 1, live := [0] } } : RunSt).wait = some ({ idx := 0, limit := none } : RunWait)) ∧
    (({ RunSt.idle with wait := some { idx := 0, limit := none }, run := some { newList 0x1000 3 2 7 false false with next := 3, started := 1, live := [0] } } : RunSt).fuse = none) ∧
    (((rig.setRunner 0 0 { RunSt.idle with wait := some { idx := 0, limit := none }, run := some { newList 0x1000 3 2 7 false false with next := 3, started := 1, live := [0] } }).put (R.SYN_WTR_A_FIRED 0 12) 1 : State).bit (R.SYN_WTR_A_FIRED (0 : Nat) (12 + (0 : Nat))) = true) := by decide +kernel

theorem witness_segmentsAndStagesMove_stagePush :
    (((rig.setRunner 0 0 { RunSt.idle with fuse := some { idx := 0, desc := 0x0000000101000106, chain := [1, 2], hand := [], phase := .running, todo := [], esg := false, running := [], since := 0, aged := false }, works := [{ newWork 0 0x40000080000000400000010001 2 (0, 0) with pos := 64, outF := some 0, buf := List.replicate 64 7 }] }) : State).frozen = false) ∧
    (((rig.setRunner 0 0 { RunSt.idle with fuse := some { idx := 0, desc := 0x0000000101000106, chain := [1, 2], hand := [], phase := .running, todo := [], esg := false, running := [], since := 0, aged := false }, works := [{ newWork 0 0x40000080000000400000010001 2 (0, 0) with pos := 64, outF := some 0, buf := List.replicate 64 7 }] }) : State).runner (0 : Cab) (0 : Fin 4) = ({ RunSt.idle with fuse := some { idx := 0, desc := 0x0000000101000106, chain := [1, 2], hand := [], phase := .running, todo := [], esg := false, running := [], since := 0, aged := false }, works := [{ newWork 0 0x40000080000000400000010001 2 (0, 0) with pos := 64, outF := some 0, buf := List.replicate 64 7 }] } : RunSt)) ∧
    (({ RunSt.idle with fuse := some { idx := 0, desc := 0x0000000101000106, chain := [1, 2], hand := [], phase := .running, todo := [], esg := false, running := [], since := 0, aged := false }, works := [{ newWork 0 0x40000080000000400000010001 2 (0, 0) with pos := 64, outF := some 0, buf := List.replicate 64 7 }] } : RunSt).fuse = some ({ idx := 0, desc := 0x0000000101000106, chain := [1, 2], hand := [], phase := .running, todo := [], esg := false, running := [], since := 0, aged := false } : Fuse)) ∧
    (({ RunSt.idle with fuse := some { idx := 0, desc := 0x0000000101000106, chain := [1, 2], hand := [], phase := .running, todo := [], esg := false, running := [], since := 0, aged := false }, works := [{ newWork 0 0x40000080000000400000010001 2 (0, 0) with pos := 64, outF := some 0, buf := List.replicate 64 7 }] } : RunSt).works.find? (fun z => z.outF.isSome && !z.halted) = some ({ newWork 0 0x40000080000000400000010001 2 (0, 0) with pos := 64, outF := some 0, buf := List.replicate 64 7 } : Work)) ∧
    (({ newWork 0 0x40000080000000400000010001 2 (0, 0) with pos := 64, outF := some 0, buf := List.replicate 64 7 } : Work) = gathered ({ newWork 0 0x40000080000000400000010001 2 (0, 0) with pos := 64, outF := some 0, buf := List.replicate 64 7 } : Work)) ∧
    (({ newWork 0 0x40000080000000400000010001 2 (0, 0) with pos := 64, outF := some 0, buf := List.replicate 64 7 } : Work).outF = some (0 : Nat)) ∧
    (64 ≤ ({ newWork 0 0x40000080000000400000010001 2 (0, 0) with pos := 64, outF := some 0, buf := List.replicate 64 7 } : Work).buf.length) ∧
    (((rig.setRunner 0 0 { RunSt.idle with fuse := some { idx := 0, desc := 0x0000000101000106, chain := [1, 2], hand := [], phase := .running, todo := [], esg := false, running := [], since := 0, aged := false }, works := [{ newWork 0 0x40000080000000400000010001 2 (0, 0) with pos := 64, outF := some 0, buf := List.replicate 64 7 }] }) : State).pushReady (0 : Cab) (0 : Nat) = true) := by decide +kernel

theorem witness_segmentsAndStagesMove_stagePop :
    ((((rig.setRunner 0 0 { RunSt.idle with works := [{ newWork 0 0x40000080000000400000010001 2 (0, 0) with inF := some 0 }] }).setFifo 0 0 { Fifo.idle with stages := [some (itemOf [1, 2, 3, 4, 5, 6, 7, 8] true true)] ++ List.replicate 15 none }) : State).frozen = false) ∧
    ((((rig.setRunner 0 0 { RunSt.idle with works := [{ newWork 0 0x40000080000000400000010001 2 (0, 0) with inF := some 0 }] }).setFifo 0 0 { Fifo.idle with stages := [some (itemOf [1, 2, 3, 4, 5, 6, 7, 8] true true)] ++ List.replicate 15 none }) : State).runner (0 : Cab) (0 : Fin 4) = ({ RunSt.idle with works := [{ newWork 0 0x40000080000000400000010001 2 (0, 0) with inF := some 0 }] } : RunSt)) ∧
    (({ RunSt.idle with works := [{ newWork 0 0x40000080000000400000010001 2 (0, 0) with inF := some 0 }] } : RunSt).works.find? (fun z => z.inF.isSome && !z.halted) = some ({ newWork 0 0x40000080000000400000010001 2 (0, 0) with inF := some 0 } : Work)) ∧
    (({ newWork 0 0x40000080000000400000010001 2 (0, 0) with inF := some 0 } : Work).inF = some (0 : Nat)) ∧
    ((((rig.setRunner 0 0 { RunSt.idle with works := [{ newWork 0 0x40000080000000400000010001 2 (0, 0) with inF := some 0 }] }).setFifo 0 0 { Fifo.idle with stages := [some (itemOf [1, 2, 3, 4, 5, 6, 7, 8] true true)] ++ List.replicate 15 none }) : State).popReady (0 : Cab) (0 : Nat) = some ((itemOf [1, 2, 3, 4, 5, 6, 7, 8] true true) : Item)) ∧
    (({ newWork 0 0x40000080000000400000010001 2 (0, 0) with inF := some 0 } : Work).buf.length < 64) ∧
    (({ newWork 0 0x40000080000000400000010001 2 (0, 0) with inF := some 0 } : Work).pos + ({ newWork 0 0x40000080000000400000010001 2 (0, 0) with inF := some 0 } : Work).buf.length < streamLen ({ newWork 0 0x40000080000000400000010001 2 (0, 0) with inF := some 0 } : Work).desc) ∧
    (((((rig.setRunner 0 0 { RunSt.idle with works := [{ newWork 0 0x40000080000000400000010001 2 (0, 0) with inF := some 0 }] }).setFifo 0 0 { Fifo.idle with stages := [some (itemOf [1, 2, 3, 4, 5, 6, 7, 8] true true)] ++ List.replicate 15 none }) : State).fifoPop (0 : Cab) (0 : Nat) ((itemOf [1, 2, 3, 4, 5, 6, 7, 8] true true) : Item)).2.1 = true) := by decide +kernel

theorem witness_segmentsAndStagesMove_mcastAck :
    (({ (rig.setRunner 0 0 { RunSt.idle with works := [{ newWork 0 5 2 (0, 0) with rx := [{ num := 3, cab := 1, unacked := [(0, [8])], lapsed := false, since := some 0 }] }] }) with loose := { rig.loose with acked := [({ id := 8, req := 2, home := 0, homeDie := 0, org := .seg 0 0 4, cls := .loose, ctx := some 2, fa := 0x4000, we := true, be := 2 ^ 64 - 1, dat := [], op := .acc }, { resp := .ok, dat := [1, 2], zero := [false, false] }, 0)] } } : State).loose.acked = ([] : List (LReq × Ans × Nat)) ++ (({ id := 8, req := 2, home := 0, homeDie := 0, org := .seg 0 0 4, cls := .loose, ctx := some 2, fa := 0x4000, we := true, be := 2 ^ 64 - 1, dat := [], op := .acc }, { resp := .ok, dat := [1, 2], zero := [false, false] }, 0) : LReq × Ans × Nat) :: ([] : List (LReq × Ans × Nat))) ∧
    (∀ y ∈ ([] : List (LReq × Ans × Nat)) ++ ([] : List (LReq × Ans × Nat)), y.1.org.segBy (0 : Cab) (0 : Fin 4) ((3 : Fin 16).val + 1) = false) ∧
    ((({ id := 8, req := 2, home := 0, homeDie := 0, org := .seg 0 0 4, cls := .loose, ctx := some 2, fa := 0x4000, we := true, be := 2 ^ 64 - 1, dat := [], op := .acc }, { resp := .ok, dat := [1, 2], zero := [false, false] }, 0) : LReq × Ans × Nat).1.org = .seg (0 : Cab) (0 : Fin 4) ((3 : Fin 16).val + 1)) ∧
    ((({ id := 8, req := 2, home := 0, homeDie := 0, org := .seg 0 0 4, cls := .loose, ctx := some 2, fa := 0x4000, we := true, be := 2 ^ 64 - 1, dat := [], op := .acc }, { resp := .ok, dat := [1, 2], zero := [false, false] }, 0) : LReq × Ans × Nat).2.1.resp ≠ .fault) ∧
    ((({ id := 8, req := 2, home := 0, homeDie := 0, org := .seg 0 0 4, cls := .loose, ctx := some 2, fa := 0x4000, we := true, be := 2 ^ 64 - 1, dat := [], op := .acc }, { resp := .ok, dat := [1, 2], zero := [false, false] }, 0) : LReq × Ans × Nat).2.1.resp ≠ .asleep) ∧
    (({ (rig.setRunner 0 0 { RunSt.idle with works := [{ newWork 0 5 2 (0, 0) with rx := [{ num := 3, cab := 1, unacked := [(0, [8])], lapsed := false, since := some 0 }] }] }) with loose := { rig.loose with acked := [({ id := 8, req := 2, home := 0, homeDie := 0, org := .seg 0 0 4, cls := .loose, ctx := some 2, fa := 0x4000, we := true, be := 2 ^ 64 - 1, dat := [], op := .acc }, { resp := .ok, dat := [1, 2], zero := [false, false] }, 0)] } } : State).runner (0 : Cab) (0 : Fin 4) = ({ RunSt.idle with works := [{ newWork 0 5 2 (0, 0) with rx := [{ num := 3, cab := 1, unacked := [(0, [8])], lapsed := false, since := some 0 }] }] } : RunSt)) ∧
    (({ RunSt.idle with works := [{ newWork 0 5 2 (0, 0) with rx := [{ num := 3, cab := 1, unacked := [(0, [8])], lapsed := false, since := some 0 }] }] } : RunSt).stray.contains (({ id := 8, req := 2, home := 0, homeDie := 0, org := .seg 0 0 4, cls := .loose, ctx := some 2, fa := 0x4000, we := true, be := 2 ^ 64 - 1, dat := [], op := .acc }, { resp := .ok, dat := [1, 2], zero := [false, false] }, 0) : LReq × Ans × Nat).1.id = false) ∧
    (({ RunSt.idle with works := [{ newWork 0 5 2 (0, 0) with rx := [{ num := 3, cab := 1, unacked := [(0, [8])], lapsed := false, since := some 0 }] }] } : RunSt).works.find? (fun y => y.rx.any (fun q => q.unacked.any (fun u => u.2.contains (({ id := 8, req := 2, home := 0, homeDie := 0, org := .seg 0 0 4, cls := .loose, ctx := some 2, fa := 0x4000, we := true, be := 2 ^ 64 - 1, dat := [], op := .acc }, { resp := .ok, dat := [1, 2], zero := [false, false] }, 0) : LReq × Ans × Nat).1.id))) = some ({ newWork 0 5 2 (0, 0) with rx := [{ num := 3, cab := 1, unacked := [(0, [8])], lapsed := false, since := some 0 }] } : Work)) := by decide +kernel

theorem witness_segmentsAndStagesMove_mcastLapse :
    (({ (rig.setRunner 0 0 { RunSt.idle with works := [{ newWork 0 5 2 (0, 0) with rx := [{ num := 3, cab := 1, unacked := [], lapsed := false, since := some 0 }] }], run := some { newList 0x1000 3 2 7 false false with next := 3, started := 1, live := [0] } }) with time := { rig.time with ufc := 5000000 } } : State).runner (0 : Cab) (0 : Fin 4) = ({ RunSt.idle with works := [{ newWork 0 5 2 (0, 0) with rx := [{ num := 3, cab := 1, unacked := [], lapsed := false, since := some 0 }] }], run := some { newList 0x1000 3 2 7 false false with next := 3, started := 1, live := [0] } } : RunSt)) ∧
    (({ RunSt.idle with works := [{ newWork 0 5 2 (0, 0) with rx := [{ num := 3, cab := 1, unacked := [], lapsed := false, since := some 0 }] }], run := some { newList 0x1000 3 2 7 false false with next := 3, started := 1, live := [0] } } : RunSt).works.find? (fun y => y.rx.any (fun q => decide (q.num = (3 : Fin 16).val) && !q.lapsed && q.since.any (fun t => decide (t + ({ (rig.setRunner 0 0 { RunSt.idle with works := [{ newWork 0 5 2 (0, 0) with rx := [{ num := 3, cab := 1, unacked := [], lapsed := false, since := some 0 }] }], run := some { newList 0x1000 3 2 7 false false with next := 3, started := 1, live := [0] } }) with time := { rig.time with ufc := 5000000 } } : State).f (R.RUN_MC_CFG_LAPSE (0 : Cab)) ≤ ({ (rig.setRunner 0 0 { RunSt.idle with works := [{ newWork 0 5 2 (0, 0) with rx := [{ num := 3, cab := 1, unacked := [], lapsed := false, since := some 0 }] }], run := some { newList 0x1000 3 2 7 false false with next := 3, started := 1, live := [0] } }) with time := { rig.time with ufc := 5000000 } } : State).time.ufc + 1)))) = some ({ newWork 0 5 2 (0, 0) with rx := [{ num := 3, cab := 1, unacked := [], lapsed := false, since := some 0 }] } : Work)) ∧
    (({ RunSt.idle with works := [{ newWork 0 5 2 (0, 0) with rx := [{ num := 3, cab := 1, unacked := [], lapsed := false, since := some 0 }] }], run := some { newList 0x1000 3 2 7 false false with next := 3, started := 1, live := [0] } } : RunSt).run = some ({ newList 0x1000 3 2 7 false false with next := 3, started := 1, live := [0] } : RunList)) ∧
    (({ newWork 0 5 2 (0, 0) with rx := [{ num := 3, cab := 1, unacked := [], lapsed := false, since := some 0 }] } : Work).list = ((0 : Cab).val, (0 : Fin 4).val)) := by decide +kernel

theorem witness_segmentsAndStagesMove_waitTimeout :
    (((rig.setRunner 0 0 { RunSt.idle with wait := some { idx := 0, limit := some 0 }, run := some { newList 0x1000 3 2 7 false false with next := 3, started := 1, live := [0] } }) : State).runner (0 : Cab) (0 : Fin 4) = ({ RunSt.idle with wait := some { idx := 0, limit := some 0 }, run := some { newList 0x1000 3 2 7 false false with next := 3, started := 1, live := [0] } } : RunSt)) ∧
    (({ RunSt.idle with wait := some { idx := 0, limit := some 0 }, run := some { newList 0x1000 3 2 7 false false with next := 3, started := 1, live := [0] } } : RunSt).wait = some ({ idx := 0, limit := some 0 } : RunWait)) ∧
    (({ idx := 0, limit := some 0 } : RunWait).limit = some (0 : Nat)) ∧
    ((0 : Nat) ≤ ((rig.setRunner 0 0 { RunSt.idle with wait := some { idx := 0, limit := some 0 }, run := some { newList 0x1000 3 2 7 false false with next := 3, started := 1, live := [0] } }) : State).time.ufc) ∧
    (((rig.setRunner 0 0 { RunSt.idle with wait := some { idx := 0, limit := some 0 }, run := some { newList 0x1000 3 2 7 false false with next := 3, started := 1, live := [0] } }) : State).bit (R.SYN_WTR_A_FIRED (0 : Cab) (12 + (0 : Fin 4).val)) = false) := by decide +kernel


theorem witness_fusedCommandsReserveAndRun_handoverGrant :
    (((rig.setRunner 0 0 { RunSt.idle with fuse := some { idx := 0, desc := 0x0000000101000106, chain := [1, 2], hand := [], phase := .reserve, todo := [], esg := false, running := [], since := 0, aged := false } }).put { key := R.RUN_POOL 0, hi := 7, lo := 0 } 15 : State).frozen = false) ∧
    (((rig.setRunner 0 0 { RunSt.idle with fuse := some { idx := 0, desc := 0x0000000101000106, chain := [1, 2], hand := [], phase := .reserve, todo := [], esg := false, running := [], since := 0, aged := false } }).put { key := R.RUN_POOL 0, hi := 7, lo := 0 } 15 : State).runner (0 : Cab) (0 : Fin 4) = ({ RunSt.idle with fuse := some { idx := 0, desc := 0x0000000101000106, chain := [1, 2], hand := [], phase := .reserve, todo := [], esg := false, running := [], since := 0, aged := false } } : RunSt)) ∧
    (reserving ({ RunSt.idle with fuse := some { idx := 0, desc := 0x0000000101000106, chain := [1, 2], hand := [], phase := .reserve, todo := [], esg := false, running := [], since := 0, aged := false } } : RunSt) = true) ∧
    (∀ q : Fin 4, q ≠ (0 : Fin 4) → reserving (((rig.setRunner 0 0 { RunSt.idle with fuse := some { idx := 0, desc := 0x0000000101000106, chain := [1, 2], hand := [], phase := .reserve, todo := [], esg := false, running := [], since := 0, aged := false } }).put { key := R.RUN_POOL 0, hi := 7, lo := 0 } 15 : State).runner (0 : Cab) q) = false) ∧
    (({ RunSt.idle with fuse := some { idx := 0, desc := 0x0000000101000106, chain := [1, 2], hand := [], phase := .reserve, todo := [], esg := false, running := [], since := 0, aged := false } } : RunSt).fuse = some ({ idx := 0, desc := 0x0000000101000106, chain := [1, 2], hand := [], phase := .reserve, todo := [], esg := false, running := [], since := 0, aged := false } : Fuse)) ∧
    (([0, 1, 2, 3] : List Nat) = (List.range 8).filter (fun h => ((rig.setRunner 0 0 { RunSt.idle with fuse := some { idx := 0, desc := 0x0000000101000106, chain := [1, 2], hand := [], phase := .reserve, todo := [], esg := false, running := [], since := 0, aged := false } }).put { key := R.RUN_POOL 0, hi := 7, lo := 0 } 15 : State).bit (bitFld (R.RUN_POOL (0 : Cab)) h) && !((rig.setRunner 0 0 { RunSt.idle with fuse := some { idx := 0, desc := 0x0000000101000106, chain := [1, 2], hand := [], phase := .reserve, todo := [], esg := false, running := [], since := 0, aged := false } }).put { key := R.RUN_POOL 0, hi := 7, lo := 0 } 15 : State).bit (bitFld (R.RUN_RSV_STAT (0 : Cab)) h))) ∧
    (stagesOf ({ idx := 0, desc := 0x0000000101000106, chain := [1, 2], hand := [], phase := .reserve, todo := [], esg := false, running := [], since := 0, aged := false } : Fuse).desc - 1 ≤ ([0, 1, 2, 3] : List Nat).length) := by decide +kernel

theorem witness_fusedCommandsReserveAndRun_handoverGrant_none :
    (((rig.setRunner 0 0 { RunSt.idle with fuse := some { idx := 0, desc := 0x0000000101000106, chain := [1, 2], hand := [], phase := .reserve, todo := [], esg := false, running := [], since := 0, aged := false } }).put { key := R.RUN_POOL 0, hi := 7, lo := 0 } 0 : State).frozen = false) ∧
    (((rig.setRunner 0 0 { RunSt.idle with fuse := some { idx := 0, desc := 0x0000000101000106, chain := [1, 2], hand := [], phase := .reserve, todo := [], esg := false, running := [], since := 0, aged := false } }).put { key := R.RUN_POOL 0, hi := 7, lo := 0 } 0 : State).runner (0 : Cab) (0 : Fin 4) = ({ RunSt.idle with fuse := some { idx := 0, desc := 0x0000000101000106, chain := [1, 2], hand := [], phase := .reserve, todo := [], esg := false, running := [], since := 0, aged := false } } : RunSt)) ∧
    (reserving ({ RunSt.idle with fuse := some { idx := 0, desc := 0x0000000101000106, chain := [1, 2], hand := [], phase := .reserve, todo := [], esg := false, running := [], since := 0, aged := false } } : RunSt) = true) ∧
    (∀ q : Fin 4, q ≠ (0 : Fin 4) → reserving (((rig.setRunner 0 0 { RunSt.idle with fuse := some { idx := 0, desc := 0x0000000101000106, chain := [1, 2], hand := [], phase := .reserve, todo := [], esg := false, running := [], since := 0, aged := false } }).put { key := R.RUN_POOL 0, hi := 7, lo := 0 } 0 : State).runner (0 : Cab) q) = false) ∧
    (({ RunSt.idle with fuse := some { idx := 0, desc := 0x0000000101000106, chain := [1, 2], hand := [], phase := .reserve, todo := [], esg := false, running := [], since := 0, aged := false } } : RunSt).fuse = some ({ idx := 0, desc := 0x0000000101000106, chain := [1, 2], hand := [], phase := .reserve, todo := [], esg := false, running := [], since := 0, aged := false } : Fuse)) ∧
    (([] : List Nat) = (List.range 8).filter (fun h => ((rig.setRunner 0 0 { RunSt.idle with fuse := some { idx := 0, desc := 0x0000000101000106, chain := [1, 2], hand := [], phase := .reserve, todo := [], esg := false, running := [], since := 0, aged := false } }).put { key := R.RUN_POOL 0, hi := 7, lo := 0 } 0 : State).bit (bitFld (R.RUN_POOL (0 : Cab)) h) && !((rig.setRunner 0 0 { RunSt.idle with fuse := some { idx := 0, desc := 0x0000000101000106, chain := [1, 2], hand := [], phase := .reserve, todo := [], esg := false, running := [], since := 0, aged := false } }).put { key := R.RUN_POOL 0, hi := 7, lo := 0 } 0 : State).bit (bitFld (R.RUN_RSV_STAT (0 : Cab)) h))) ∧
    (([] : List Nat).length < stagesOf ({ idx := 0, desc := 0x0000000101000106, chain := [1, 2], hand := [], phase := .reserve, todo := [], esg := false, running := [], since := 0, aged := false } : Fuse).desc - 1) := by decide +kernel

theorem witness_fusedCommandsReserveAndRun_handoverGrant_taken :
    ((7 : Nat) < 8) ∧
    ((16 : Nat) ≤ 16) ∧
    ((15 : Nat) < 16) := by decide +kernel

theorem witness_fusedCommandsReserveAndRun_reservationAged :
    (({ (rig.setRunner 0 0 { RunSt.idle with fuse := some { idx := 0, desc := 0x0000000101000106, chain := [1, 2], hand := [], phase := .reserve, todo := [], esg := false, running := [], since := 0, aged := false } }) with time := { rig.time with ufc := 4096 } } : State).runner (0 : Cab) (0 : Fin 4) = ({ RunSt.idle with fuse := some { idx := 0, desc := 0x0000000101000106, chain := [1, 2], hand := [], phase := .reserve, todo := [], esg := false, running := [], since := 0, aged := false } } : RunSt)) ∧
    (reserving ({ RunSt.idle with fuse := some { idx := 0, desc := 0x0000000101000106, chain := [1, 2], hand := [], phase := .reserve, todo := [], esg := false, running := [], since := 0, aged := false } } : RunSt) = true) ∧
    (({ RunSt.idle with fuse := some { idx := 0, desc := 0x0000000101000106, chain := [1, 2], hand := [], phase := .reserve, todo := [], esg := false, running := [], since := 0, aged := false } } : RunSt).fuse = some ({ idx := 0, desc := 0x0000000101000106, chain := [1, 2], hand := [], phase := .reserve, todo := [], esg := false, running := [], since := 0, aged := false } : Fuse)) ∧
    (({ idx := 0, desc := 0x0000000101000106, chain := [1, 2], hand := [], phase := .reserve, todo := [], esg := false, running := [], since := 0, aged := false } : Fuse).since + 4096 ≤ ({ (rig.setRunner 0 0 { RunSt.idle with fuse := some { idx := 0, desc := 0x0000000101000106, chain := [1, 2], hand := [], phase := .reserve, todo := [], esg := false, running := [], since := 0, aged := false } }) with time := { rig.time with ufc := 4096 } } : State).time.ufc) := by decide +kernel

theorem witness_fusedCommandsReserveAndRun_engine :
    (((rig.setRunner 0 0 { RunSt.idle with fuse := some { idx := 0, desc := 0x0000000101000106, chain := [1, 2], hand := [], phase := .engines, todo := [0, 1], esg := false, running := [], since := 0, aged := false } }) : State).runner (0 : Cab) (0 : Fin 4) = ({ RunSt.idle with fuse := some { idx := 0, desc := 0x0000000101000106, chain := [1, 2], hand := [], phase := .engines, todo := [0, 1], esg := false, running := [], since := 0, aged := false } } : RunSt)) ∧
    (({ RunSt.idle with fuse := some { idx := 0, desc := 0x0000000101000106, chain := [1, 2], hand := [], phase := .engines, todo := [0, 1], esg := false, running := [], since := 0, aged := false } } : RunSt).fuse = some ({ idx := 0, desc := 0x0000000101000106, chain := [1, 2], hand := [], phase := .engines, todo := [0, 1], esg := false, running := [], since := 0, aged := false } : Fuse)) ∧
    (({ idx := 0, desc := 0x0000000101000106, chain := [1, 2], hand := [], phase := .engines, todo := [0, 1], esg := false, running := [], since := 0, aged := false } : Fuse).todo = (0 : Nat) :: ([1] : List Nat)) ∧
    (({ idx := 0, desc := 0x0000000101000106, chain := [1, 2], hand := [], phase := .engines, todo := [0, 1], esg := false, running := [], since := 0, aged := false } : Fuse).phase = .engines) ∧
    (((rig.setRunner 0 0 { RunSt.idle with fuse := some { idx := 0, desc := 0x0000000101000106, chain := [1, 2], hand := [], phase := .engines, todo := [0, 1], esg := false, running := [], since := 0, aged := false } }) : State).frozen = false) ∧
    (((rig.setRunner 0 0 { RunSt.idle with fuse := some { idx := 0, desc := 0x0000000101000106, chain := [1, 2], hand := [], phase := .engines, todo := [0, 1], esg := false, running := [], since := 0, aged := false } }) : State).esgAborting (0 : Cab) = false) ∧
    (∀ q : Fin 4, (((rig.setRunner 0 0 { RunSt.idle with fuse := some { idx := 0, desc := 0x0000000101000106, chain := [1, 2], hand := [], phase := .engines, todo := [0, 1], esg := false, running := [], since := 0, aged := false } }) : State).runner (0 : Cab) q).fuse.any (fun g => g.esg) = false) ∧
    (((rig.setRunner 0 0 { RunSt.idle with fuse := some { idx := 0, desc := 0x0000000101000106, chain := [1, 2], hand := [], phase := .engines, todo := [0, 1], esg := false, running := [], since := 0, aged := false } }) : State).bit (R.CAB_PORT_STAT_P_HFP (0 : Cab)) = true) := by decide +kernel

theorem witness_fusedCommandsReserveAndRun_engine_start :
    ({ idx := 0, desc := 0x0000000101000106, chain := [1, 2], hand := [], phase := .engines, todo := [0, 1], esg := false, running := [], since := 0, aged := false } : Fuse).todo = (0 : Nat) :: ([1] : List Nat) := by decide +kernel

theorem witness_fusedCommandsReserveAndRun_esgAck :
    (((rig.setRunner 0 0 { RunSt.idle with fuse := some { idx := 0, desc := 0x0000000101000106, chain := [1, 2], hand := [], phase := .engines, todo := [0, 1], esg := true, running := [], since := 0, aged := false } }) : State).bit (R.CAB_PORT_STAT_P_HFP (0 : Cab)) = true) ∧
    (((rig.setRunner 0 0 { RunSt.idle with fuse := some { idx := 0, desc := 0x0000000101000106, chain := [1, 2], hand := [], phase := .engines, todo := [0, 1], esg := true, running := [], since := 0, aged := false } }) : State).frozen = false) ∧
    ((List.range 4).find? (fun y => (((rig.setRunner 0 0 { RunSt.idle with fuse := some { idx := 0, desc := 0x0000000101000106, chain := [1, 2], hand := [], phase := .engines, todo := [0, 1], esg := true, running := [], since := 0, aged := false } }) : State).runner (0 : Cab) y).fuse.any (fun g => ((rig.setRunner 0 0 { RunSt.idle with fuse := some { idx := 0, desc := 0x0000000101000106, chain := [1, 2], hand := [], phase := .engines, todo := [0, 1], esg := true, running := [], since := 0, aged := false } }) : State).esgShows (0 : Cab) g)) = some (0 : Fin 4).val) ∧
    (((rig.setRunner 0 0 { RunSt.idle with fuse := some { idx := 0, desc := 0x0000000101000106, chain := [1, 2], hand := [], phase := .engines, todo := [0, 1], esg := true, running := [], since := 0, aged := false } }) : State).runner (0 : Cab) (0 : Fin 4) = ({ RunSt.idle with fuse := some { idx := 0, desc := 0x0000000101000106, chain := [1, 2], hand := [], phase := .engines, todo := [0, 1], esg := true, running := [], since := 0, aged := false } } : RunSt)) ∧
    (({ RunSt.idle with fuse := some { idx := 0, desc := 0x0000000101000106, chain := [1, 2], hand := [], phase := .engines, todo := [0, 1], esg := true, running := [], since := 0, aged := false } } : RunSt).fuse = some ({ idx := 0, desc := 0x0000000101000106, chain := [1, 2], hand := [], phase := .engines, todo := [0, 1], esg := true, running := [], since := 0, aged := false } : Fuse)) ∧
    (({ idx := 0, desc := 0x0000000101000106, chain := [1, 2], hand := [], phase := .engines, todo := [0, 1], esg := true, running := [], since := 0, aged := false } : Fuse).todo = (0 : Nat) :: ([1] : List Nat)) := by decide +kernel

theorem witness_fusedCommandsReserveAndRun_esgDone :
    (((rig.setRunner 0 0 { RunSt.idle with fuse := some { idx := 0, desc := 0x0000000101000106, chain := [1, 2], hand := [], phase := .engines, todo := [0, 1], esg := false, running := [], since := 0, aged := false } }) : State).bit (R.CAB_PORT_STAT_P_HFP (0 : Cab)) = true) ∧
    (((rig.setRunner 0 0 { RunSt.idle with fuse := some { idx := 0, desc := 0x0000000101000106, chain := [1, 2], hand := [], phase := .engines, todo := [0, 1], esg := false, running := [], since := 0, aged := false } }) : State).frozen = false) ∧
    (((rig.setRunner 0 0 { RunSt.idle with fuse := some { idx := 0, desc := 0x0000000101000106, chain := [1, 2], hand := [], phase := .engines, todo := [0, 1], esg := false, running := [], since := 0, aged := false } }) : State).runner (0 : Cab) (0 : Fin 4) = ({ RunSt.idle with fuse := some { idx := 0, desc := 0x0000000101000106, chain := [1, 2], hand := [], phase := .engines, todo := [0, 1], esg := false, running := [], since := 0, aged := false } } : RunSt)) ∧
    (({ RunSt.idle with fuse := some { idx := 0, desc := 0x0000000101000106, chain := [1, 2], hand := [], phase := .engines, todo := [0, 1], esg := false, running := [], since := 0, aged := false } } : RunSt).fuse = some ({ idx := 0, desc := 0x0000000101000106, chain := [1, 2], hand := [], phase := .engines, todo := [0, 1], esg := false, running := [], since := 0, aged := false } : Fuse)) := by decide +kernel


theorem witness_listsAreAbortedAndStolen_runnerAbort :
    (((rig.setRunner 0 0 { RunSt.idle with run := some { newList 0x1000 3 2 7 false false with next := 3, started := 1, live := [0] } }) : State).synth (0 : Cab) = true) ∧
    (((rig.setRunner 0 0 { RunSt.idle with run := some { newList 0x1000 3 2 7 false false with next := 3, started := 1, live := [0] } }) : State).stationOf (0 : Cab) = .go) ∧
    (schMaster (Master.dbg : Master) = true) ∧
    (vbit (1 : W32) 0 = true) ∧
    ((((rig.setRunner 0 0 { RunSt.idle with run := some { newList 0x1000 3 2 7 false false with next := 3, started := 1, live := [0] } }) : State).runner (0 : Cab) (0 : Fin 4)).abort = none) ∧
    (∀ d, (((rig.setRunner 0 0 { RunSt.idle with run := some { newList 0x1000 3 2 7 false false with next := 3, started := 1, live := [0] } }) : State).runner (0 : Cab) (0 : Fin 4)).doomed = some d → ((rig.setRunner 0 0 { RunSt.idle with run := some { newList 0x1000 3 2 7 false false with next := 3, started := 1, live := [0] } }) : State).time.fc < d.2) ∧
    (((rig.setRunner 0 0 { RunSt.idle with run := some { newList 0x1000 3 2 7 false false with next := 3, started := 1, live := [0] } }) : State).rgsShut (masterIdx (Master.dbg : Master)) = false) := by decide +kernel

theorem witness_listsAreAbortedAndStolen_runnerAbort_die :
    (({ (rig.setRunner 0 0 { RunSt.idle with doomed := some (8, 0), run := some { newList 0x1000 3 2 7 false false with next := 3, started := 1, live := [0] } }) with stp := { rig.stp with faultPin := [(2, 0)] } } : State).runner (0 : Cab) (0 : Fin 4) = ({ RunSt.idle with run := some { newList 0x1000 3 2 7 false false with next := 3, started := 1, live := [0] }, doomed := some (8, 0) } : RunSt)) ∧
    (({ RunSt.idle with run := some { newList 0x1000 3 2 7 false false with next := 3, started := 1, live := [0] }, doomed := some (8, 0) } : RunSt).run = some ({ newList 0x1000 3 2 7 false false with next := 3, started := 1, live := [0] } : RunList)) ∧
    (({ (rig.setRunner 0 0 { RunSt.idle with doomed := some (8, 0), run := some { newList 0x1000 3 2 7 false false with next := 3, started := 1, live := [0] } }) with stp := { rig.stp with faultPin := [(2, 0)] } } : State).faulted ({ newList 0x1000 3 2 7 false false with next := 3, started := 1, live := [0] } : RunList).ctx = true) ∧
    (({ RunSt.idle with run := some { newList 0x1000 3 2 7 false false with next := 3, started := 1, live := [0] }, doomed := some (8, 0) } : RunSt).abort = none) ∧
    (({ RunSt.idle with run := some { newList 0x1000 3 2 7 false false with next := 3, started := 1, live := [0] }, doomed := some (8, 0) } : RunSt).doomed = some ((8 : Nat), (0 : Nat))) ∧
    ((0 : Nat) ≤ ({ (rig.setRunner 0 0 { RunSt.idle with doomed := some (8, 0), run := some { newList 0x1000 3 2 7 false false with next := 3, started := 1, live := [0] } }) with stp := { rig.stp with faultPin := [(2, 0)] } } : State).time.fc) := by decide +kernel

theorem witness_listsAreAbortedAndStolen_runnerAbort_status :
    (((rig.setRunner 0 0 { RunSt.idle with run := some { newList 0x1000 3 2 7 false false with next := 3, started := 1, live := [0] } }) : State).runner (0 : Nat) (0 : Nat)).run = some ({ newList 0x1000 3 2 7 false false with next := 3, started := 1, live := [0] } : RunList) := by decide +kernel

theorem witness_listsAreAbortedAndStolen_abortComplete :
    (((rig.setRunner 0 0 { RunSt.idle with abort := some 6, run := some { newList 0x1000 3 2 7 false false with next := 3, started := 1, live := [0] } }) : State).runner (0 : Cab) (0 : Fin 4) = ({ RunSt.idle with run := some { newList 0x1000 3 2 7 false false with next := 3, started := 1, live := [0] }, abort := some 6 } : RunSt)) ∧
    (({ RunSt.idle with run := some { newList 0x1000 3 2 7 false false with next := 3, started := 1, live := [0] }, abort := some 6 } : RunSt).abort = some (6 : Nat)) ∧
    (({ RunSt.idle with run := some { newList 0x1000 3 2 7 false false with next := 3, started := 1, live := [0] }, abort := some 6 } : RunSt).run = some ({ newList 0x1000 3 2 7 false false with next := 3, started := 1, live := [0] } : RunList)) ∧
    (({ RunSt.idle with run := some { newList 0x1000 3 2 7 false false with next := 3, started := 1, live := [0] }, abort := some 6 } : RunSt).works.all (fun w => w.halted && ((rig.setRunner 0 0 { RunSt.idle with abort := some 6, run := some { newList 0x1000 3 2 7 false false with next := 3, started := 1, live := [0] } }) : State).workOver w && decide (w.list = ((0 : Cab).val, (0 : Fin 4).val))) = true) ∧
    (({ newList 0x1000 3 2 7 false false with next := 3, started := 1, live := [0] } : RunList).fetching = []) ∧
    (({ RunSt.idle with run := some { newList 0x1000 3 2 7 false false with next := 3, started := 1, live := [0] }, abort := some 6 } : RunSt).stray = []) ∧
    (({ RunSt.idle with run := some { newList 0x1000 3 2 7 false false with next := 3, started := 1, live := [0] }, abort := some 6 } : RunSt).sweep = none) ∧
    (((rig.setRunner 0 0 { RunSt.idle with abort := some 6, run := some { newList 0x1000 3 2 7 false false with next := 3, started := 1, live := [0] } }) : State).thieves (0 : Cab) (0 : Fin 4) = []) ∧
    (({ RunSt.idle with run := some { newList 0x1000 3 2 7 false false with next := 3, started := 1, live := [0] }, abort := some 6 } : RunSt).cmpl.length < 4) := by decide +kernel

theorem witness_listsAreAbortedAndStolen_runnerWatchdog :
    (({ (rig.setRunner 0 0 { RunSt.idle with run := some { newList 0x1000 3 2 7 false false with next := 3, started := 1, live := [0] }, works := [{ newWork 0 0x40000080000000400000010001 2 (0, 0) with pos := 64 }] }) with time := { rig.time with ufc := 1048576 } } : State).runner (0 : Cab) (0 : Fin 4) = ({ RunSt.idle with run := some { newList 0x1000 3 2 7 false false with next := 3, started := 1, live := [0] }, works := [{ newWork 0 0x40000080000000400000010001 2 (0, 0) with pos := 64 }] } : RunSt)) ∧
    (({ RunSt.idle with run := some { newList 0x1000 3 2 7 false false with next := 3, started := 1, live := [0] }, works := [{ newWork 0 0x40000080000000400000010001 2 (0, 0) with pos := 64 }] } : RunSt).run.isSome) ∧
    (runState ({ RunSt.idle with run := some { newList 0x1000 3 2 7 false false with next := 3, started := 1, live := [0] }, works := [{ newWork 0 0x40000080000000400000010001 2 (0, 0) with pos := 64 }] } : RunSt) = 2 ∨ runState ({ RunSt.idle with run := some { newList 0x1000 3 2 7 false false with next := 3, started := 1, live := [0] }, works := [{ newWork 0 0x40000080000000400000010001 2 (0, 0) with pos := 64 }] } : RunSt) = 4) ∧
    (({ RunSt.idle with run := some { newList 0x1000 3 2 7 false false with next := 3, started := 1, live := [0] }, works := [{ newWork 0 0x40000080000000400000010001 2 (0, 0) with pos := 64 }] } : RunSt).moved + 1048576 ≤ ({ (rig.setRunner 0 0 { RunSt.idle with run := some { newList 0x1000 3 2 7 false false with next := 3, started := 1, live := [0] }, works := [{ newWork 0 0x40000080000000400000010001 2 (0, 0) with pos := 64 }] }) with time := { rig.time with ufc := 1048576 } } : State).time.ufc) := by decide +kernel

theorem witness_listsAreAbortedAndStolen_stealLook :
    (((rig.setRunner 0 0 { RunSt.idle with run := some { newList 0x1000 3 2 7 false false with buf := [(0, 1), (1, 1)] } }).puts [(R.RUN_CFG_THIEF_EN 1, 1), (R.RUN_CFG_STEAL_EN 0, 1)] : State).frozen = false) ∧
    (idleRunner (((rig.setRunner 0 0 { RunSt.idle with run := some { newList 0x1000 3 2 7 false false with buf := [(0, 1), (1, 1)] } }).puts [(R.RUN_CFG_THIEF_EN 1, 1), (R.RUN_CFG_STEAL_EN 0, 1)] : State).runner (1 : Cab) (2 : Fin 4)) = true) ∧
    (((rig.setRunner 0 0 { RunSt.idle with run := some { newList 0x1000 3 2 7 false false with buf := [(0, 1), (1, 1)] } }).puts [(R.RUN_CFG_THIEF_EN 1, 1), (R.RUN_CFG_STEAL_EN 0, 1)] : State).bit (R.RUN_CFG_THIEF_EN (1 : Cab)) = true) ∧
    (((rig.setRunner 0 0 { RunSt.idle with run := some { newList 0x1000 3 2 7 false false with buf := [(0, 1), (1, 1)] } }).puts [(R.RUN_CFG_THIEF_EN 1, 1), (R.RUN_CFG_STEAL_EN 0, 1)] : State).pow (1 : Cab) = 0) ∧
    (((rig.setRunner 0 0 { RunSt.idle with run := some { newList 0x1000 3 2 7 false false with buf := [(0, 1), (1, 1)] } }).puts [(R.RUN_CFG_THIEF_EN 1, 1), (R.RUN_CFG_STEAL_EN 0, 1)] : State).fenced (1 : Cab) = false) ∧
    (((rig.setRunner 0 0 { RunSt.idle with run := some { newList 0x1000 3 2 7 false false with buf := [(0, 1), (1, 1)] } }).puts [(R.RUN_CFG_THIEF_EN 1, 1), (R.RUN_CFG_STEAL_EN 0, 1)] : State).victim (1 : Cab) = some ((0, 0) : Nat × Nat)) ∧
    ((openDescs (((rig.setRunner 0 0 { RunSt.idle with run := some { newList 0x1000 3 2 7 false false with buf := [(0, 1), (1, 1)] } }).puts [(R.RUN_CFG_THIEF_EN 1, 1), (R.RUN_CFG_STEAL_EN 0, 1)] : State).runner ((0, 0) : Nat × Nat).1 ((0, 0) : Nat × Nat).2)).getLast? = some ((1, 1) : Nat × Nat)) ∧
    (((0, 0) : Nat × Nat) ≠ ((1 : Cab).val, (2 : Fin 4).val)) := by decide +kernel

theorem witness_listsAreAbortedAndStolen_stealArrive :
    ((((rig.setRunner 0 0 { RunSt.idle with run := some { newList 0x1000 3 2 7 false false with next := 3, started := 1, live := [0] } }).setRunner 0 1 { RunSt.idle with theft := some { list := (0, 0), idx := 1, desc := 0x40000080000000400000010001 } }) : State).runner (0 : Cab) (1 : Fin 4) = ({ RunSt.idle with theft := some { list := (0, 0), idx := 1, desc := 0x40000080000000400000010001 } } : RunSt)) ∧
    (({ RunSt.idle with theft := some { list := (0, 0), idx := 1, desc := 0x40000080000000400000010001 } } : RunSt).theft = some ({ list := (0, 0), idx := 1, desc := 0x40000080000000400000010001 } : Theft)) ∧
    (((((rig.setRunner 0 0 { RunSt.idle with run := some { newList 0x1000 3 2 7 false false with next := 3, started := 1, live := [0] } }).setRunner 0 1 { RunSt.idle with theft := some { list := (0, 0), idx := 1, desc := 0x40000080000000400000010001 } }) : State).runner ({ list := (0, 0), idx := 1, desc := 0x40000080000000400000010001 } : Theft).list.1 ({ list := (0, 0), idx := 1, desc := 0x40000080000000400000010001 } : Theft).list.2).run.any (fun y => !y.ended) = true) ∧
    (descOk (((rig.setRunner 0 0 { RunSt.idle with run := some { newList 0x1000 3 2 7 false false with next := 3, started := 1, live := [0] } }).setRunner 0 1 { RunSt.idle with theft := some { list := (0, 0), idx := 1, desc := 0x40000080000000400000010001 } }) : State).die ({ list := (0, 0), idx := 1, desc := 0x40000080000000400000010001 } : Theft).desc = true) := by decide +kernel

theorem witness_listsAreAbortedAndStolen_stealArrive_ended :
    (((rig.setRunner 0 0 { RunSt.idle with theft := some { list := (0, 0), idx := 1, desc := 0x40000080000000400000010001 } }) : State).runner (0 : Cab) (0 : Fin 4) = ({ RunSt.idle with theft := some { list := (0, 0), idx := 1, desc := 0x40000080000000400000010001 } } : RunSt)) ∧
    (({ RunSt.idle with theft := some { list := (0, 0), idx := 1, desc := 0x40000080000000400000010001 } } : RunSt).theft = some ({ list := (0, 0), idx := 1, desc := 0x40000080000000400000010001 } : Theft)) ∧
    ((((rig.setRunner 0 0 { RunSt.idle with theft := some { list := (0, 0), idx := 1, desc := 0x40000080000000400000010001 } }) : State).runner ({ list := (0, 0), idx := 1, desc := 0x40000080000000400000010001 } : Theft).list.1 ({ list := (0, 0), idx := 1, desc := 0x40000080000000400000010001 } : Theft).list.2).run.any (fun y => !y.ended) = false) := by decide +kernel


theorem witness_contextsChangeState_ctxActivate :
    ((State.reset.put R.CTX_OWNER_IN_OWNER 7 : State).ctxState (15 : Ctx) = 0) ∧
    ((State.reset.put R.CTX_OWNER_IN_OWNER 7 : State).rgsShut (masterIdx .sec) = false) := by decide +kernel

theorem witness_contextsChangeState_ctxDeactivate :
    ((State.reset.put (R.CTX_STAT_STATE 15) 1 : State).ctxState (15 : Ctx) = 1) ∧
    ((State.reset.put (R.CTX_STAT_STATE 15) 1 : State).rgsShut (masterIdx .sec) = false) := by decide +kernel

theorem witness_contextsChangeState_ctxBind :
    (((Master.sch : Master) == .sch || (Master.sch : Master) == .dbg) = true) ∧
    (((State.reset.put (R.CTX_STAT_STATE 3) 1).setReg (R.IDV_FENCE_MASK 3) 8 : State).ctxState (3 : Ctx) = 1) ∧
    (((State.reset.put (R.CTX_STAT_STATE 3) 1).setReg (R.IDV_FENCE_MASK 3) 8 : State).rgsShut (masterIdx (Master.sch : Master)) = false) := by decide +kernel

theorem witness_contextsChangeState_ctxKill :
    (((Master.sch : Master) == .sch || (Master.sch : Master) == .sec || (Master.sch : Master) == .dbg) = true) ∧
    ((rig : State).killing (2 : Ctx) = false) ∧
    ((rig : State).ctxState (2 : Ctx) = 2) ∧
    ((rig : State) = ((rig : State).put R.CTX_CMD_STAT_DONE 0).unbindNew (2 : Ctx)) ∧
    ((rig : State).rgsShut (masterIdx (Master.sch : Master)) = false) := by decide +kernel

theorem witness_contextsChangeState_ctxKill_phase1 :
    (({ rig with ctx := { rig.ctx with kills := [{ ctx := 2, stage := 0, due := 0 }], busy := none } } : State).frozen = false) ∧
    (({ rig with ctx := { rig.ctx with kills := [{ ctx := 2, stage := 0, due := 0 }], busy := none } } : State).ctx.kills.any (fun k => decide (k.ctx = (2 : Ctx)) && decide (k.stage = 0) && decide (k.due ≤ ({ rig with ctx := { rig.ctx with kills := [{ ctx := 2, stage := 0, due := 0 }], busy := none } } : State).time.ufc)) = true) := by decide +kernel

theorem witness_contextsChangeState_killQuiesceEnd :
    (({ rig with ctx := { rig.ctx with kills := [{ ctx := 2, stage := 1, due := 0 }], busy := none } } : State).frozen = false) ∧
    (({ rig with ctx := { rig.ctx with kills := [{ ctx := 2, stage := 1, due := 0 }], busy := none } } : State).ctx.kills.find? (fun k => decide (k.ctx = (2 : Ctx).val)) = some ({ ctx := 2, stage := 1, due := 0 } : Kill)) ∧
    (({ ctx := 2, stage := 1, due := 0 } : Kill).stage = 1) ∧
    (({ ctx := 2, stage := 1, due := 0 } : Kill).due ≤ ({ rig with ctx := { rig.ctx with kills := [{ ctx := 2, stage := 1, due := 0 }], busy := none } } : State).time.ufc) ∧
    (({ rig with ctx := { rig.ctx with kills := [{ ctx := 2, stage := 1, due := 0 }], busy := none } } : State).runners.any (fun y => y.2.run.any (fun l => decide (l.ctx = (2 : Ctx).val))) = false) := by decide +kernel

theorem witness_contextsChangeState_killQuiesceEnd_phase3 :
    (({ rig with ctx := { rig.ctx with kills := [{ ctx := 2, stage := 2, due := 0 }], busy := none } } : State).frozen = false) ∧
    (({ rig with ctx := { rig.ctx with kills := [{ ctx := 2, stage := 2, due := 0 }], busy := none } } : State).ctx.kills.find? (fun k => decide (k.ctx = (2 : Ctx).val)) = some ({ ctx := 2, stage := 2, due := 0 } : Kill)) ∧
    (({ ctx := 2, stage := 2, due := 0 } : Kill).stage = 2) ∧
    (({ ctx := 2, stage := 2, due := 0 } : Kill).due ≤ ({ rig with ctx := { rig.ctx with kills := [{ ctx := 2, stage := 2, due := 0 }], busy := none } } : State).time.ufc) := by decide +kernel

theorem witness_contextsChangeState_killUnbind :
    (({ rig with ctx := { rig.ctx with kills := [{ ctx := 2, stage := 3, due := 0 }], busy := none } } : State).frozen = false) ∧
    (({ rig with ctx := { rig.ctx with kills := [{ ctx := 2, stage := 3, due := 0 }], busy := none } } : State).ctx.kills.any (fun k => decide (k.ctx = (2 : Ctx).val) && decide (k.stage = 3)) = true) ∧
    (({ rig with ctx := { rig.ctx with kills := [{ ctx := 2, stage := 3, due := 0 }], busy := none } } : State).winsOf (2 : Ctx) 2 = []) ∧
    (({ rig with ctx := { rig.ctx with kills := [{ ctx := 2, stage := 3, due := 0 }], busy := none } } : State).winsOf (2 : Ctx) 3 = []) := by decide +kernel

theorem witness_contextsChangeState_eagWrite :
    (((Master.sch : Master) == .sch || (Master.sch : Master) == .dbg) = true) ∧
    (vbit (0x12 : W32) 4 = true) ∧
    ((rig : State).ctxState ((0x12 : W32).toNat % 16) = 2) ∧
    ((rig : State).bit (R.CTX_EAG_V (1 : Cab)) = false) ∧
    ((rig : State).rgsShut (masterIdx (Master.sch : Master)) = false) := by decide +kernel

theorem witness_contextsChangeState_eagWrite_free :
    (((Master.dbg : Master) == .sch || (Master.dbg : Master) == .dbg) = true) ∧
    (vbit (2 : W32) 4 = false) ∧
    ((rig : State).rgsShut (masterIdx (Master.dbg : Master)) = false) := by decide +kernel


theorem witness_windowsOpenCloseAndAreSwept_windowBind :
    (winMaster (Master.sch : Master) = true) ∧
    ((rig.puts [(R.WIN_PART_B_VALID 63, 1), (bitFld (R.WIN_PART_C 63) 18, 1)] : State).bindCause (63 : Win) (2 : Ctx) = 0) ∧
    ((rig.puts [(R.WIN_PART_B_VALID 63, 1), (bitFld (R.WIN_PART_C 63) 18, 1)] : State).rgsShut (masterIdx (Master.sch : Master)) = false) := by decide +kernel

theorem witness_windowsOpenCloseAndAreSwept_windowBind_rejected :
    (winMaster (Master.sch : Master) = true) ∧
    ((rig : State).bindCause (63 : Win) (2 : Ctx) ≠ 0) ∧
    ((rig : State).rgsShut (masterIdx (Master.sch : Master)) = false) := by decide +kernel

theorem witness_windowsOpenCloseAndAreSwept_windowUnbind :
    (winMaster (Master.sec : Master) = true) ∧
    ((rig : State).f (R.WIN_STATE_STATE (0 : Win)) = 1) ∧
    ((rig : State).f (R.WIN_STATE_CTX (0 : Win)) = (2 : Ctx)) ∧
    ((rig : State).ctx.busy = none) ∧
    ((rig : State).rgsShut (masterIdx (Master.sec : Master)) = false) := by decide +kernel

theorem witness_windowsOpenCloseAndAreSwept_windowUnbind_closes :
    (({ rig with ctx := { rig.ctx with kills := [], busy := some (0, 2) } } : State).f (R.WIN_STATE_STATE (0 : Win)) = 1) ∧
    (({ rig with ctx := { rig.ctx with kills := [], busy := some (0, 2) } } : State).f (R.WIN_STATE_CTX (0 : Win)) = (2 : Ctx)) ∧
    (({ rig with ctx := { rig.ctx with kills := [], busy := some (0, 2) } } : State).ctx.busy = some ((0 : Win).val, 2)) ∧
    (({ rig with ctx := { rig.ctx with kills := [], busy := some (0, 2) } } : State).armed (.windowUnbind .hrp (0 : Win) (2 : Ctx)) = false) := by decide +kernel

theorem witness_windowsOpenCloseAndAreSwept_windowRelease :
    (winMaster (Master.sec : Master) = true) ∧
    ((rig.put (R.WIN_STATE_STATE 0) 4 : State).f (R.WIN_STATE_STATE (0 : Win)) = 4) ∧
    ((rig.put (R.WIN_STATE_STATE 0) 4 : State).ctx.busy = none) ∧
    ((rig.put (R.WIN_STATE_STATE 0) 4 : State).rgsShut (masterIdx (Master.sec : Master)) = false) := by decide +kernel

theorem witness_windowsOpenCloseAndAreSwept_windowCloseSettle_wait :
    (({ (rig.put (R.WIN_STATE_STATE 0) 2) with ctx := { rig.ctx with kills := [], busy := some (0, 4) } } : State).f (R.WIN_STATE_STATE (0 : Win)) = 2) ∧
    (({ (rig.put (R.WIN_STATE_STATE 0) 2) with ctx := { rig.ctx with kills := [], busy := some (0, 4) } } : State).ctx.busy = some ((0 : Win).val, 4)) ∧
    (({ (rig.put (R.WIN_STATE_STATE 0) 2) with ctx := { rig.ctx with kills := [], busy := some (0, 4) } } : State).killing (({ (rig.put (R.WIN_STATE_STATE 0) 2) with ctx := { rig.ctx with kills := [], busy := some (0, 4) } } : State).f (R.WIN_STATE_CTX (0 : Win))) = false) := by decide +kernel

theorem witness_windowsOpenCloseAndAreSwept_windowCloseSettle :
    (({ (rig.puts [(R.WIN_STATE_STATE 0, 2), (R.WIN_PART_C_KEEP_ON_KILL 0, 1), (R.CTX_STAT_OWNER 2, 9)]) with ctx := { rig.ctx with kills := [], busy := some (0, 5) } } : State).f (R.WIN_STATE_STATE (0 : Win)) = 2) ∧
    (({ (rig.puts [(R.WIN_STATE_STATE 0, 2), (R.WIN_PART_C_KEEP_ON_KILL 0, 1), (R.CTX_STAT_OWNER 2, 9)]) with ctx := { rig.ctx with kills := [], busy := some (0, 5) } } : State).ctx.busy = some ((0 : Win).val, 5)) ∧
    (({ (rig.puts [(R.WIN_STATE_STATE 0, 2), (R.WIN_PART_C_KEEP_ON_KILL 0, 1), (R.CTX_STAT_OWNER 2, 9)]) with ctx := { rig.ctx with kills := [], busy := some (0, 5) } } : State).armed (.windowCloseSettle (0 : Win)) = false) ∧
    (({ (rig.puts [(R.WIN_STATE_STATE 0, 2), (R.WIN_PART_C_KEEP_ON_KILL 0, 1), (R.CTX_STAT_OWNER 2, 9)]) with ctx := { rig.ctx with kills := [], busy := some (0, 5) } } : State).killing (({ (rig.puts [(R.WIN_STATE_STATE 0, 2), (R.WIN_PART_C_KEEP_ON_KILL 0, 1), (R.CTX_STAT_OWNER 2, 9)]) with ctx := { rig.ctx with kills := [], busy := some (0, 5) } } : State).f (R.WIN_STATE_CTX (0 : Win))) = false) ∧
    (({ (rig.puts [(R.WIN_STATE_STATE 0, 2), (R.WIN_PART_C_KEEP_ON_KILL 0, 1), (R.CTX_STAT_OWNER 2, 9)]) with ctx := { rig.ctx with kills := [], busy := some (0, 5) } } : State).bit (R.WIN_PART_C_KEEP_ON_KILL (0 : Win)) = true) := by decide +kernel

theorem witness_windowsOpenCloseAndAreSwept_windowCloseSettle_sweep :
    (({ (rig.put (R.WIN_STATE_STATE 0) 2) with ctx := { rig.ctx with kills := [], busy := some (0, 5) } } : State).f (R.WIN_STATE_STATE (0 : Win)) = 2) ∧
    (({ (rig.put (R.WIN_STATE_STATE 0) 2) with ctx := { rig.ctx with kills := [], busy := some (0, 5) } } : State).ctx.busy = some ((0 : Win).val, 5)) ∧
    (({ (rig.put (R.WIN_STATE_STATE 0) 2) with ctx := { rig.ctx with kills := [], busy := some (0, 5) } } : State).armed (.windowCloseSettle (0 : Win)) = false) ∧
    (({ (rig.put (R.WIN_STATE_STATE 0) 2) with ctx := { rig.ctx with kills := [], busy := some (0, 5) } } : State).killing (({ (rig.put (R.WIN_STATE_STATE 0) 2) with ctx := { rig.ctx with kills := [], busy := some (0, 5) } } : State).f (R.WIN_STATE_CTX (0 : Win))) = false) ∧
    (({ (rig.put (R.WIN_STATE_STATE 0) 2) with ctx := { rig.ctx with kills := [], busy := some (0, 5) } } : State).bit (R.WIN_PART_C_KEEP_ON_KILL (0 : Win)) = false) := by decide +kernel

theorem witness_windowsOpenCloseAndAreSwept_windowSweepDone :
    (({ (rig.put (R.WIN_STATE_STATE 0) 3) with ctx := { rig.ctx with kills := [], busy := some (0, 3) } } : State).f (R.WIN_STATE_STATE (0 : Win)) = 3) ∧
    (({ (rig.put (R.WIN_STATE_STATE 0) 3) with ctx := { rig.ctx with kills := [], busy := some (0, 3) } } : State).sweepLeft (.window (0 : Win)) = false) ∧
    (({ (rig.put (R.WIN_STATE_STATE 0) 3) with ctx := { rig.ctx with kills := [], busy := some (0, 3) } } : State).leave.queue.any (fun y => decide (y.who = LeaveFor.window (0 : Win))) = false) ∧
    (({ (rig.put (R.WIN_STATE_STATE 0) 3) with ctx := { rig.ctx with kills := [], busy := some (0, 3) } } : State).frozen = false) := by decide +kernel


theorem witness_wireSlotsAreCheckedAndDelivered_wireSlotReceive_bad :
    (({ (rig.puts [(R.BRG_STAT_STATE 2, 2)]) with brg := { (rig.puts [(R.BRG_STAT_STATE 2, 2)]).brg with lanes := [(2, { Lane.idle with want := 3 })] } } : State).laneUp (2 : Fin 8) = true) ∧
    ((({ (rig.puts [(R.BRG_STAT_STATE 2, 2)]) with brg := { (rig.puts [(R.BRG_STAT_STATE 2, 2)]).brg with lanes := [(2, { Lane.idle with want := 3 })] } } : State).lane (2 : Fin 8)).want ≤ ({ seq := 3, stime := 0, items := [.beginMark 1 0] } : WireSlot).seq) ∧
    ((({ (rig.puts [(R.BRG_STAT_STATE 2, 2)]) with brg := { (rig.puts [(R.BRG_STAT_STATE 2, 2)]).brg with lanes := [(2, { Lane.idle with want := 3 })] } } : State).lane (2 : Fin 8)).rx.find? (fun r => decide (r.seq = ({ seq := 3, stime := 0, items := [.beginMark 1 0] } : WireSlot).seq)) = (none : Option RxSlot)) ∧
    ((none : Option RxSlot).any (fun r => r.ready.isSome) = false) := by decide +kernel

theorem witness_wireSlotsAreCheckedAndDelivered_wireSlotReceive :
    (({ (rig.puts [(R.BRG_STAT_STATE 2, 2)]) with brg := { (rig.puts [(R.BRG_STAT_STATE 2, 2)]).brg with lanes := [(2, { Lane.idle with want := 3 })] } } : State).laneUp (2 : Fin 8) = true) ∧
    ((({ (rig.puts [(R.BRG_STAT_STATE 2, 2)]) with brg := { (rig.puts [(R.BRG_STAT_STATE 2, 2)]).brg with lanes := [(2, { Lane.idle with want := 3 })] } } : State).lane (2 : Fin 8)).want ≤ ({ seq := 3, stime := 0, items := [.stretch 1, .credit 2] } : WireSlot).seq) ∧
    ((({ (rig.puts [(R.BRG_STAT_STATE 2, 2)]) with brg := { (rig.puts [(R.BRG_STAT_STATE 2, 2)]).brg with lanes := [(2, { Lane.idle with want := 3 })] } } : State).lane (2 : Fin 8)).rx.find? (fun r => decide (r.seq = ({ seq := 3, stime := 0, items := [.stretch 1, .credit 2] } : WireSlot).seq)) = (none : Option RxSlot)) ∧
    ((none : Option RxSlot).any (fun r => r.ready.isSome) = false) ∧
    (({ (rig.puts [(R.BRG_STAT_STATE 2, 2)]) with brg := { (rig.puts [(R.BRG_STAT_STATE 2, 2)]).brg with lanes := [(2, { Lane.idle with want := 3 })] } } : State).strDiff ({ seq := 3, stime := 0, items := [.stretch 1, .credit 2] } : WireSlot) ≤ 2) ∧
    (((({ (rig.puts [(R.BRG_STAT_STATE 2, 2)]) with brg := { (rig.puts [(R.BRG_STAT_STATE 2, 2)]).brg with lanes := [(2, { Lane.idle with want := 3 })] } } : State).lane (2 : Fin 8)).rx.filter (fun r => r.ready.isSome && r.slot.items.any isSet)).length < 64) := by decide +kernel

theorem witness_wireSlotsAreCheckedAndDelivered_nakReceive :
    (({ (rig.puts [(R.BRG_STAT_STATE 2, 2)]) with brg := { (rig.puts [(R.BRG_STAT_STATE 2, 2)]).brg with lanes := [(2, { Lane.idle with replay := [({ seq := 3, stime := 0, items := [] }, 0, 6)] })] } } : State).laneUp (2 : Fin 8) = true) ∧
    ((({ (rig.puts [(R.BRG_STAT_STATE 2, 2)]) with brg := { (rig.puts [(R.BRG_STAT_STATE 2, 2)]).brg with lanes := [(2, { Lane.idle with replay := [({ seq := 3, stime := 0, items := [] }, 0, 6)] })] } } : State).lane (2 : Fin 8)).replay.find? (fun y => decide (y.1.seq = (3 : Nat)) && decide (({ (rig.puts [(R.BRG_STAT_STATE 2, 2)]) with brg := { (rig.puts [(R.BRG_STAT_STATE 2, 2)]).brg with lanes := [(2, { Lane.idle with replay := [({ seq := 3, stime := 0, items := [] }, 0, 6)] })] } } : State).time.fc < y.2.1 + 64)) = some (({ seq := 3, stime := 0, items := [] } : WireSlot), (0 : Nat), (6 : Nat))) ∧
    ((6 : Nat) + 1 < 8) := by decide +kernel

theorem witness_wireSlotsAreCheckedAndDelivered_nakReceive_eighth :
    (({ (rig.puts [(R.BRG_STAT_STATE 2, 2)]) with brg := { (rig.puts [(R.BRG_STAT_STATE 2, 2)]).brg with lanes := [(2, { Lane.idle with replay := [({ seq := 3, stime := 0, items := [] }, 0, 7)] })] } } : State).laneUp (2 : Fin 8) = true) ∧
    ((({ (rig.puts [(R.BRG_STAT_STATE 2, 2)]) with brg := { (rig.puts [(R.BRG_STAT_STATE 2, 2)]).brg with lanes := [(2, { Lane.idle with replay := [({ seq := 3, stime := 0, items := [] }, 0, 7)] })] } } : State).lane (2 : Fin 8)).replay.find? (fun y => decide (y.1.seq = (3 : Nat)) && decide (({ (rig.puts [(R.BRG_STAT_STATE 2, 2)]) with brg := { (rig.puts [(R.BRG_STAT_STATE 2, 2)]).brg with lanes := [(2, { Lane.idle with replay := [({ seq := 3, stime := 0, items := [] }, 0, 7)] })] } } : State).time.fc < y.2.1 + 64)) = some (({ seq := 3, stime := 0, items := [] } : WireSlot), (0 : Nat), (7 : Nat))) ∧
    (8 ≤ (7 : Nat) + 1) := by decide +kernel

theorem witness_wireSlotsAreCheckedAndDelivered_slotDelivery :
    (({ { (rig.puts [(R.BRG_STAT_STATE 2, 2)]) with brg := { (rig.puts [(R.BRG_STAT_STATE 2, 2)]).brg with lanes := [(2, { Lane.idle with want := 3, rx := [{ seq := 3, first := 0, ready := some 21, fails := 0, late := false, slot := { seq := 3, stime := 0, items := [] } }] })] } } with time := { rig.time with fc := 60 } } : State).laneUp (2 : Fin 8) = true) ∧
    ((({ { (rig.puts [(R.BRG_STAT_STATE 2, 2)]) with brg := { (rig.puts [(R.BRG_STAT_STATE 2, 2)]).brg with lanes := [(2, { Lane.idle with want := 3, rx := [{ seq := 3, first := 0, ready := some 21, fails := 0, late := false, slot := { seq := 3, stime := 0, items := [] } }] })] } } with time := { rig.time with fc := 60 } } : State).lane (2 : Fin 8)).rx.any (fun y => y.late) = false) ∧
    (({ { (rig.puts [(R.BRG_STAT_STATE 2, 2)]) with brg := { (rig.puts [(R.BRG_STAT_STATE 2, 2)]).brg with lanes := [(2, { Lane.idle with want := 3, rx := [{ seq := 3, first := 0, ready := some 21, fails := 0, late := false, slot := { seq := 3, stime := 0, items := [] } }] })] } } with time := { rig.time with fc := 60 } } : State) = ({ { (rig.puts [(R.BRG_STAT_STATE 2, 2)]) with brg := { (rig.puts [(R.BRG_STAT_STATE 2, 2)]).brg with lanes := [(2, { Lane.idle with want := 3, rx := [{ seq := 3, first := 0, ready := some 21, fails := 0, late := false, slot := { seq := 3, stime := 0, items := [] } }] })] } } with time := { rig.time with fc := 60 } } : State).setLane (2 : Fin 8) { ({ { (rig.puts [(R.BRG_STAT_STATE 2, 2)]) with brg := { (rig.puts [(R.BRG_STAT_STATE 2, 2)]).brg with lanes := [(2, { Lane.idle with want := 3, rx := [{ seq := 3, first := 0, ready := some 21, fails := 0, late := false, slot := { seq := 3, stime := 0, items := [] } }] })] } } with time := { rig.time with fc := 60 } } : State).lane (2 : Fin 8) with rx := (({ { (rig.puts [(R.BRG_STAT_STATE 2, 2)]) with brg := { (rig.puts [(R.BRG_STAT_STATE 2, 2)]).brg with lanes := [(2, { Lane.idle with want := 3, rx := [{ seq := 3, first := 0, ready := some 21, fails := 0, late := false, slot := { seq := 3, stime := 0, items := [] } }] })] } } with time := { rig.time with fc := 60 } } : State).lane (2 : Fin 8)).rx.map (fun r => if r.ready.any (fun n => decide (n ≤ ({ { (rig.puts [(R.BRG_STAT_STATE 2, 2)]) with brg := { (rig.puts [(R.BRG_STAT_STATE 2, 2)]).brg with lanes := [(2, { Lane.idle with want := 3, rx := [{ seq := 3, first := 0, ready := some 21, fails := 0, late := false, slot := { seq := 3, stime := 0, items := [] } }] })] } } with time := { rig.time with fc := 60 } } : State).time.fc)) then { r with late := false } else r) }) := by decide +kernel

theorem witness_wireSlotsAreCheckedAndDelivered_slotDelivery_first :
    (({ { (rig.puts [(R.BRG_STAT_STATE 2, 2)]) with brg := { (rig.puts [(R.BRG_STAT_STATE 2, 2)]).brg with lanes := [(2, { Lane.idle with want := 3, rx := [{ seq := 3, first := 0, ready := some 21, fails := 0, late := false, slot := { seq := 3, stime := 0, items := [.credit 1] } }] })] } } with time := { rig.time with fc := 60 } } : State).lane (2 : Fin 8)).rx.find? (fun y => decide (y.seq = (({ { (rig.puts [(R.BRG_STAT_STATE 2, 2)]) with brg := { (rig.puts [(R.BRG_STAT_STATE 2, 2)]).brg with lanes := [(2, { Lane.idle with want := 3, rx := [{ seq := 3, first := 0, ready := some 21, fails := 0, late := false, slot := { seq := 3, stime := 0, items := [.credit 1] } }] })] } } with time := { rig.time with fc := 60 } } : State).lane (2 : Fin 8)).want) && decide (y.first + ({ { (rig.puts [(R.BRG_STAT_STATE 2, 2)]) with brg := { (rig.puts [(R.BRG_STAT_STATE 2, 2)]).brg with lanes := [(2, { Lane.idle with want := 3, rx := [{ seq := 3, first := 0, ready := some 21, fails := 0, late := false, slot := { seq := 3, stime := 0, items := [.credit 1] } }] })] } } with time := { rig.time with fc := 60 } } : State).pad ≤ ({ { (rig.puts [(R.BRG_STAT_STATE 2, 2)]) with brg := { (rig.puts [(R.BRG_STAT_STATE 2, 2)]).brg with lanes := [(2, { Lane.idle with want := 3, rx := [{ seq := 3, first := 0, ready := some 21, fails := 0, late := false, slot := { seq := 3, stime := 0, items := [.credit 1] } }] })] } } with time := { rig.time with fc := 60 } } : State).time.fc) && y.ready.any (fun z => decide (z ≤ ({ { (rig.puts [(R.BRG_STAT_STATE 2, 2)]) with brg := { (rig.puts [(R.BRG_STAT_STATE 2, 2)]).brg with lanes := [(2, { Lane.idle with want := 3, rx := [{ seq := 3, first := 0, ready := some 21, fails := 0, late := false, slot := { seq := 3, stime := 0, items := [.credit 1] } }] })] } } with time := { rig.time with fc := 60 } } : State).time.fc))) = some ({ seq := 3, first := 0, ready := some 21, fails := 0, late := false, slot := { seq := 3, stime := 0, items := [.credit 1] } } : RxSlot) := by decide +kernel

theorem witness_wireSlotsAreCheckedAndDelivered_slotDelivery_empty :
    (({ { (rig.puts [(R.BRG_STAT_STATE 2, 2)]) with brg := { (rig.puts [(R.BRG_STAT_STATE 2, 2)]).brg with lanes := [(2, { Lane.idle with want := 3, rx := [{ seq := 3, first := 0, ready := some 21, fails := 0, late := false, slot := { seq := 3, stime := 0, items := [] } }] })] } } with time := { rig.time with fc := 60 } } : State).laneUp (2 : Fin 8) = true) ∧
    ((({ { (rig.puts [(R.BRG_STAT_STATE 2, 2)]) with brg := { (rig.puts [(R.BRG_STAT_STATE 2, 2)]).brg with lanes := [(2, { Lane.idle with want := 3, rx := [{ seq := 3, first := 0, ready := some 21, fails := 0, late := false, slot := { seq := 3, stime := 0, items := [] } }] })] } } with time := { rig.time with fc := 60 } } : State).lane (2 : Fin 8)).rx.any (fun y => y.late) = false) ∧
    ((({ { (rig.puts [(R.BRG_STAT_STATE 2, 2)]) with brg := { (rig.puts [(R.BRG_STAT_STATE 2, 2)]).brg with lanes := [(2, { Lane.idle with want := 3, rx := [{ seq := 3, first := 0, ready := some 21, fails := 0, late := false, slot := { seq := 3, stime := 0, items := [] } }] })] } } with time := { rig.time with fc := 60 } } : State).lane (2 : Fin 8)).rx.find? (fun y => decide (y.seq = (({ { (rig.puts [(R.BRG_STAT_STATE 2, 2)]) with brg := { (rig.puts [(R.BRG_STAT_STATE 2, 2)]).brg with lanes := [(2, { Lane.idle with want := 3, rx := [{ seq := 3, first := 0, ready := some 21, fails := 0, late := false, slot := { seq := 3, stime := 0, items := [] } }] })] } } with time := { rig.time with fc := 60 } } : State).lane (2 : Fin 8)).want) && decide (y.first + ({ { (rig.puts [(R.BRG_STAT_STATE 2, 2)]) with brg := { (rig.puts [(R.BRG_STAT_STATE 2, 2)]).brg with lanes := [(2, { Lane.idle with want := 3, rx := [{ seq := 3, first := 0, ready := some 21, fails := 0, late := false, slot := { seq := 3, stime := 0, items := [] } }] })] } } with time := { rig.time with fc := 60 } } : State).pad ≤ ({ { (rig.puts [(R.BRG_STAT_STATE 2, 2)]) with brg := { (rig.puts [(R.BRG_STAT_STATE 2, 2)]).brg with lanes := [(2, { Lane.idle with want := 3, rx := [{ seq := 3, first := 0, ready := some 21, fails := 0, late := false, slot := { seq := 3, stime := 0, items := [] } }] })] } } with time := { rig.time with fc := 60 } } : State).time.fc) && y.ready.any (fun z => decide (z ≤ ({ { (rig.puts [(R.BRG_STAT_STATE 2, 2)]) with brg := { (rig.puts [(R.BRG_STAT_STATE 2, 2)]).brg with lanes := [(2, { Lane.idle with want := 3, rx := [{ seq := 3, first := 0, ready := some 21, fails := 0, late := false, slot := { seq := 3, stime := 0, items := [] } }] })] } } with time := { rig.time with fc := 60 } } : State).time.fc))) = some ({ seq := 3, first := 0, ready := some 21, fails := 0, late := false, slot := { seq := 3, stime := 0, items := [] } } : RxSlot)) ∧
    ((({ { (rig.puts [(R.BRG_STAT_STATE 2, 2)]) with brg := { (rig.puts [(R.BRG_STAT_STATE 2, 2)]).brg with lanes := [(2, { Lane.idle with want := 3, rx := [{ seq := 3, first := 0, ready := some 21, fails := 0, late := false, slot := { seq := 3, stime := 0, items := [] } }] })] } } with time := { rig.time with fc := 60 } } : State).lane (2 : Fin 8)).rx.any (fun y => decide (y.seq = (({ { (rig.puts [(R.BRG_STAT_STATE 2, 2)]) with brg := { (rig.puts [(R.BRG_STAT_STATE 2, 2)]).brg with lanes := [(2, { Lane.idle with want := 3, rx := [{ seq := 3, first := 0, ready := some 21, fails := 0, late := false, slot := { seq := 3, stime := 0, items := [] } }] })] } } with time := { rig.time with fc := 60 } } : State).lane (2 : Fin 8)).want + 1)) = false) ∧
    (({ seq := 3, first := 0, ready := some 21, fails := 0, late := false, slot := { seq := 3, stime := 0, items := [] } } : RxSlot).slot.items = []) := by decide +kernel

theorem witness_wireSlotsAreCheckedAndDelivered_slotDelivery_credit :
    (64 : Nat) ≤ 64 := by decide +kernel

theorem witness_wireSlotsAreCheckedAndDelivered_bridgeLate :
    ((1 : Nat) = ((({ { (rig.puts [(R.BRG_STAT_STATE 2, 2)]) with brg := { (rig.puts [(R.BRG_STAT_STATE 2, 2)]).brg with lanes := [(2, { Lane.idle with want := 3, rx := [{ seq := 3, first := 0, ready := none, fails := 0, late := false, slot := { seq := 3, stime := 0, items := [.beginMark 1 0] } }] })] } } with time := { rig.time with fc := 60 } } : State).lane (2 : Fin 8)).rx.filter (fun r => !r.late && critical r.slot && decide (r.first + ({ { (rig.puts [(R.BRG_STAT_STATE 2, 2)]) with brg := { (rig.puts [(R.BRG_STAT_STATE 2, 2)]).brg with lanes := [(2, { Lane.idle with want := 3, rx := [{ seq := 3, first := 0, ready := none, fails := 0, late := false, slot := { seq := 3, stime := 0, items := [.beginMark 1 0] } }] })] } } with time := { rig.time with fc := 60 } } : State).pad ≤ ({ { (rig.puts [(R.BRG_STAT_STATE 2, 2)]) with brg := { (rig.puts [(R.BRG_STAT_STATE 2, 2)]).brg with lanes := [(2, { Lane.idle with want := 3, rx := [{ seq := 3, first := 0, ready := none, fails := 0, late := false, slot := { seq := 3, stime := 0, items := [.beginMark 1 0] } }] })] } } with time := { rig.time with fc := 60 } } : State).time.fc + 3) && !r.ready.any (fun y => decide (y ≤ ({ { (rig.puts [(R.BRG_STAT_STATE 2, 2)]) with brg := { (rig.puts [(R.BRG_STAT_STATE 2, 2)]).brg with lanes := [(2, { Lane.idle with want := 3, rx := [{ seq := 3, first := 0, ready := none, fails := 0, late := false, slot := { seq := 3, stime := 0, items := [.beginMark 1 0] } }] })] } } with time := { rig.time with fc := 60 } } : State).time.fc)))).length) ∧
    (0 < (1 : Nat)) := by decide +kernel


theorem witness_lanesComeUpAndGoDown_laneSilent :
    (({ (rig.puts [(R.BRG_STAT_STATE 2, 2)]) with time := { rig.time with fc := 256 } } : State).laneUp (2 : Fin 8) = true) ∧
    ((({ (rig.puts [(R.BRG_STAT_STATE 2, 2)]) with time := { rig.time with fc := 256 } } : State).lane (2 : Fin 8)).good + 256 ≤ ({ (rig.puts [(R.BRG_STAT_STATE 2, 2)]) with time := { rig.time with fc := 256 } } : State).time.fc) := by decide +kernel

theorem witness_lanesComeUpAndGoDown_laneSilent_down :
    (((rig.puts [(R.BRG_STAT_STATE 2, 2)]) : State).laneUp (2 : Nat) = true) ∧
    ((2 : Nat) < 8) ∧
    ((3 : Nat) < 16) ∧
    (∀ c : Ctx, ((rig.puts [(R.BRG_STAT_STATE 2, 2)]) : State).bit (R.LCT_STEP_MULTI c) = false) ∧
    (((rig.puts [(R.BRG_STAT_STATE 2, 2)]) : State).brg.lanes = []) ∧
    (((rig.puts [(R.BRG_STAT_STATE 2, 2)]) : State).loose.far = []) := by decide +kernel

theorem witness_lanesComeUpAndGoDown_laneDownNotice :
    ((3 : Fin 8).val, (1 : Nat)) ∉ (rig : State).brg.notices := by decide +kernel

theorem witness_lanesComeUpAndGoDown_laneTrain :
    (brgMaster (Master.sec : Master) = true) ∧
    ((rig.puts [(R.BRG_ATT_V 2, 1), (R.IDV_CONF_DIES, 8)] : State).laneState (2 : Fin 8) = 0 ∨ ((rig.puts [(R.BRG_ATT_V 2, 1), (R.IDV_CONF_DIES, 8)] : State).laneState (2 : Fin 8) = 3 ∧ (rig.puts [(R.BRG_ATT_V 2, 1), (R.IDV_CONF_DIES, 8)] : State).f (R.BRG_STAT_CAUSE (2 : Fin 8)) ≠ 4)) ∧
    ((rig.puts [(R.BRG_ATT_V 2, 1), (R.IDV_CONF_DIES, 8)] : State).laneBuilt (2 : Fin 8) = true) ∧
    ((rig.puts [(R.BRG_ATT_V 2, 1), (R.IDV_CONF_DIES, 8)] : State).bit (R.BRG_STAT_LEAVE_WAIT (2 : Fin 8)) = false) ∧
    ((rig.puts [(R.BRG_ATT_V 2, 1), (R.IDV_CONF_DIES, 8)] : State).rgsShut (masterIdx (Master.sec : Master)) = false) := by decide +kernel

theorem witness_lanesComeUpAndGoDown_laneOff :
    (brgMaster (Master.dbg : Master) = true) ∧
    (((rig.puts [(R.BRG_STAT_STATE 2, 2)]) : State).multiBound false = false) ∧
    (¬(((rig.puts [(R.BRG_STAT_STATE 2, 2)]) : State).laneState (2 : Fin 8) = 3 ∧ ((rig.puts [(R.BRG_STAT_STATE 2, 2)]) : State).f (R.BRG_STAT_CAUSE (2 : Fin 8)) = 4)) ∧
    (((rig.puts [(R.BRG_STAT_STATE 2, 2)]) : State).rgsShut (masterIdx (Master.dbg : Master)) = false) := by decide +kernel

theorem witness_lanesComeUpAndGoDown_trainDone :
    ((rig.puts [(R.BRG_STAT_STATE 2, 1)]) : State).laneState (2 : Fin 8) = 1 := by decide +kernel

theorem witness_lanesComeUpAndGoDown_trainDone_failed :
    (((rig.puts [(R.BRG_STAT_STATE 2, 1)]) : State).laneState (2 : Fin 8) = 1) ∧
    ((3 : Fin 5).val < 4) := by decide +kernel

theorem witness_lanesComeUpAndGoDown_drouteWrite :
    (((Master.sec : Master) == .sec || (Master.sec : Master) == .dbg) = true) ∧
    ((rig : State).multiBound true = false) ∧
    ((rig : State).rgsShut (masterIdx (Master.sec : Master)) = false) := by decide +kernel


theorem witness_gatewaysAdmitPartnerPackets_edgeHello :
    (({ (({ rig with ties := { rig.ties with edges := 1 } }.puts [(R.EDG_CTL_EN 0, 1), (R.EDG_STAT_LINK_UP 0, 1), (R.EDG_PT_CFG_VALID 5, 1), (R.EDG_PT_CFG_PCTX 5, 2), (R.EDG_PT_CFG_RD_MAX 5, 4), (R.EDG_PT_STAT_STATE 5, 1), (R.EDG_PT_STAT_EPOCH 5, 1), (R.EDG_PT_RATE_BURST 5, 1000), (R.EDG_PT_RATE_RATE 5, 9), (R.EDG_PT_DIE_DIE 5, 3), (R.EDG_PT_TIME_TIMEOUT 5, 20)]).setReg (R.EDG_PT_ID_LO 5) 0x77) with edg := { (({ rig with ties := { rig.ties with edges := 1 } }.puts [(R.EDG_CTL_EN 0, 1), (R.EDG_STAT_LINK_UP 0, 1), (R.EDG_PT_CFG_VALID 5, 1), (R.EDG_PT_CFG_PCTX 5, 2), (R.EDG_PT_CFG_RD_MAX 5, 4), (R.EDG_PT_STAT_STATE 5, 1), (R.EDG_PT_STAT_EPOCH 5, 1), (R.EDG_PT_RATE_BURST 5, 1000), (R.EDG_PT_RATE_RATE 5, 9), (R.EDG_PT_DIE_DIE 5, 3), (R.EDG_PT_TIME_TIMEOUT 5, 20)]).setReg (R.EDG_PT_ID_LO 5) 0x77).edg with parts := [(5, { PartSt.idle with bucket := 100 })] } } : State).gwIn (0 : Gw) = true) ∧
    (({ (({ rig with ties := { rig.ties with edges := 1 } }.puts [(R.EDG_CTL_EN 0, 1), (R.EDG_STAT_LINK_UP 0, 1), (R.EDG_PT_CFG_VALID 5, 1), (R.EDG_PT_CFG_PCTX 5, 2), (R.EDG_PT_CFG_RD_MAX 5, 4), (R.EDG_PT_STAT_STATE 5, 1), (R.EDG_PT_STAT_EPOCH 5, 1), (R.EDG_PT_RATE_BURST 5, 1000), (R.EDG_PT_RATE_RATE 5, 9), (R.EDG_PT_DIE_DIE 5, 3), (R.EDG_PT_TIME_TIMEOUT 5, 20)]).setReg (R.EDG_PT_ID_LO 5) 0x77) with edg := { (({ rig with ties := { rig.ties with edges := 1 } }.puts [(R.EDG_CTL_EN 0, 1), (R.EDG_STAT_LINK_UP 0, 1), (R.EDG_PT_CFG_VALID 5, 1), (R.EDG_PT_CFG_PCTX 5, 2), (R.EDG_PT_CFG_RD_MAX 5, 4), (R.EDG_PT_STAT_STATE 5, 1), (R.EDG_PT_STAT_EPOCH 5, 1), (R.EDG_PT_RATE_BURST 5, 1000), (R.EDG_PT_RATE_RATE 5, 9), (R.EDG_PT_DIE_DIE 5, 3), (R.EDG_PT_TIME_TIMEOUT 5, 20)]).setReg (R.EDG_PT_ID_LO 5) 0x77).edg with parts := [(5, { PartSt.idle with bucket := 100 })] } } : State).bit (R.EDG_STAT_LINK_UP (0 : Gw)) = true) ∧
    ((({ (({ rig with ties := { rig.ties with edges := 1 } }.puts [(R.EDG_CTL_EN 0, 1), (R.EDG_STAT_LINK_UP 0, 1), (R.EDG_PT_CFG_VALID 5, 1), (R.EDG_PT_CFG_PCTX 5, 2), (R.EDG_PT_CFG_RD_MAX 5, 4), (R.EDG_PT_STAT_STATE 5, 1), (R.EDG_PT_STAT_EPOCH 5, 1), (R.EDG_PT_RATE_BURST 5, 1000), (R.EDG_PT_RATE_RATE 5, 9), (R.EDG_PT_DIE_DIE 5, 3), (R.EDG_PT_TIME_TIMEOUT 5, 20)]).setReg (R.EDG_PT_ID_LO 5) 0x77) with edg := { (({ rig with ties := { rig.ties with edges := 1 } }.puts [(R.EDG_CTL_EN 0, 1), (R.EDG_STAT_LINK_UP 0, 1), (R.EDG_PT_CFG_VALID 5, 1), (R.EDG_PT_CFG_PCTX 5, 2), (R.EDG_PT_CFG_RD_MAX 5, 4), (R.EDG_PT_STAT_STATE 5, 1), (R.EDG_PT_STAT_EPOCH 5, 1), (R.EDG_PT_RATE_BURST 5, 1000), (R.EDG_PT_RATE_RATE 5, 9), (R.EDG_PT_DIE_DIE 5, 3), (R.EDG_PT_TIME_TIMEOUT 5, 20)]).setReg (R.EDG_PT_ID_LO 5) 0x77).edg with parts := [(5, { PartSt.idle with bucket := 100 })] } } : State).gw (0 : Gw)).ins.length < 64) ∧
    (malformed ({ typ := 1, status := 0, len := 64, seq := 1, serial := 0x77, die := 3, gw := 0, epoch := 1, reqId := 1, addr := 0x4000, arg := 0, payload := List.replicate 64 0, beatBytes := 112, tagOk := true } : Packet) = false) ∧
    (({ (({ rig with ties := { rig.ties with edges := 1 } }.puts [(R.EDG_CTL_EN 0, 1), (R.EDG_STAT_LINK_UP 0, 1), (R.EDG_PT_CFG_VALID 5, 1), (R.EDG_PT_CFG_PCTX 5, 2), (R.EDG_PT_CFG_RD_MAX 5, 4), (R.EDG_PT_STAT_STATE 5, 1), (R.EDG_PT_STAT_EPOCH 5, 1), (R.EDG_PT_RATE_BURST 5, 1000), (R.EDG_PT_RATE_RATE 5, 9), (R.EDG_PT_DIE_DIE 5, 3), (R.EDG_PT_TIME_TIMEOUT 5, 20)]).setReg (R.EDG_PT_ID_LO 5) 0x77) with edg := { (({ rig with ties := { rig.ties with edges := 1 } }.puts [(R.EDG_CTL_EN 0, 1), (R.EDG_STAT_LINK_UP 0, 1), (R.EDG_PT_CFG_VALID 5, 1), (R.EDG_PT_CFG_PCTX 5, 2), (R.EDG_PT_CFG_RD_MAX 5, 4), (R.EDG_PT_STAT_STATE 5, 1), (R.EDG_PT_STAT_EPOCH 5, 1), (R.EDG_PT_RATE_BURST 5, 1000), (R.EDG_PT_RATE_RATE 5, 9), (R.EDG_PT_DIE_DIE 5, 3), (R.EDG_PT_TIME_TIMEOUT 5, 20)]).setReg (R.EDG_PT_ID_LO 5) 0x77).edg with parts := [(5, { PartSt.idle with bucket := 100 })] } } : State).partOf (0 : Gw) ({ typ := 1, status := 0, len := 64, seq := 1, serial := 0x77, die := 3, gw := 0, epoch := 1, reqId := 1, addr := 0x4000, arg := 0, payload := List.replicate 64 0, beatBytes := 112, tagOk := true } : Packet) = some (5 : Nat)) ∧
    (({ (({ rig with ties := { rig.ties with edges := 1 } }.puts [(R.EDG_CTL_EN 0, 1), (R.EDG_STAT_LINK_UP 0, 1), (R.EDG_PT_CFG_VALID 5, 1), (R.EDG_PT_CFG_PCTX 5, 2), (R.EDG_PT_CFG_RD_MAX 5, 4), (R.EDG_PT_STAT_STATE 5, 1), (R.EDG_PT_STAT_EPOCH 5, 1), (R.EDG_PT_RATE_BURST 5, 1000), (R.EDG_PT_RATE_RATE 5, 9), (R.EDG_PT_DIE_DIE 5, 3), (R.EDG_PT_TIME_TIMEOUT 5, 20)]).setReg (R.EDG_PT_ID_LO 5) 0x77) with edg := { (({ rig with ties := { rig.ties with edges := 1 } }.puts [(R.EDG_CTL_EN 0, 1), (R.EDG_STAT_LINK_UP 0, 1), (R.EDG_PT_CFG_VALID 5, 1), (R.EDG_PT_CFG_PCTX 5, 2), (R.EDG_PT_CFG_RD_MAX 5, 4), (R.EDG_PT_STAT_STATE 5, 1), (R.EDG_PT_STAT_EPOCH 5, 1), (R.EDG_PT_RATE_BURST 5, 1000), (R.EDG_PT_RATE_RATE 5, 9), (R.EDG_PT_DIE_DIE 5, 3), (R.EDG_PT_TIME_TIMEOUT 5, 20)]).setReg (R.EDG_PT_ID_LO 5) 0x77).edg with parts := [(5, { PartSt.idle with bucket := 100 })] } } : State).partState (5 : Nat) = 1) ∧
    (({ typ := 1, status := 0, len := 64, seq := 1, serial := 0x77, die := 3, gw := 0, epoch := 1, reqId := 1, addr := 0x4000, arg := 0, payload := List.replicate 64 0, beatBytes := 112, tagOk := true } : Packet).epoch.toNat = ({ (({ rig with ties := { rig.ties with edges := 1 } }.puts [(R.EDG_CTL_EN 0, 1), (R.EDG_STAT_LINK_UP 0, 1), (R.EDG_PT_CFG_VALID 5, 1), (R.EDG_PT_CFG_PCTX 5, 2), (R.EDG_PT_CFG_RD_MAX 5, 4), (R.EDG_PT_STAT_STATE 5, 1), (R.EDG_PT_STAT_EPOCH 5, 1), (R.EDG_PT_RATE_BURST 5, 1000), (R.EDG_PT_RATE_RATE 5, 9), (R.EDG_PT_DIE_DIE 5, 3), (R.EDG_PT_TIME_TIMEOUT 5, 20)]).setReg (R.EDG_PT_ID_LO 5) 0x77) with edg := { (({ rig with ties := { rig.ties with edges := 1 } }.puts [(R.EDG_CTL_EN 0, 1), (R.EDG_STAT_LINK_UP 0, 1), (R.EDG_PT_CFG_VALID 5, 1), (R.EDG_PT_CFG_PCTX 5, 2), (R.EDG_PT_CFG_RD_MAX 5, 4), (R.EDG_PT_STAT_STATE 5, 1), (R.EDG_PT_STAT_EPOCH 5, 1), (R.EDG_PT_RATE_BURST 5, 1000), (R.EDG_PT_RATE_RATE 5, 9), (R.EDG_PT_DIE_DIE 5, 3), (R.EDG_PT_TIME_TIMEOUT 5, 20)]).setReg (R.EDG_PT_ID_LO 5) 0x77).edg with parts := [(5, { PartSt.idle with bucket := 100 })] } } : State).f (R.EDG_PT_STAT_EPOCH (5 : Nat))) ∧
    (({ typ := 1, status := 0, len := 64, seq := 1, serial := 0x77, die := 3, gw := 0, epoch := 1, reqId := 1, addr := 0x4000, arg := 0, payload := List.replicate 64 0, beatBytes := 112, tagOk := true } : Packet).tagOk = true) ∧
    (({ (({ rig with ties := { rig.ties with edges := 1 } }.puts [(R.EDG_CTL_EN 0, 1), (R.EDG_STAT_LINK_UP 0, 1), (R.EDG_PT_CFG_VALID 5, 1), (R.EDG_PT_CFG_PCTX 5, 2), (R.EDG_PT_CFG_RD_MAX 5, 4), (R.EDG_PT_STAT_STATE 5, 1), (R.EDG_PT_STAT_EPOCH 5, 1), (R.EDG_PT_RATE_BURST 5, 1000), (R.EDG_PT_RATE_RATE 5, 9), (R.EDG_PT_DIE_DIE 5, 3), (R.EDG_PT_TIME_TIMEOUT 5, 20)]).setReg (R.EDG_PT_ID_LO 5) 0x77) with edg := { (({ rig with ties := { rig.ties with edges := 1 } }.puts [(R.EDG_CTL_EN 0, 1), (R.EDG_STAT_LINK_UP 0, 1), (R.EDG_PT_CFG_VALID 5, 1), (R.EDG_PT_CFG_PCTX 5, 2), (R.EDG_PT_CFG_RD_MAX 5, 4), (R.EDG_PT_STAT_STATE 5, 1), (R.EDG_PT_STAT_EPOCH 5, 1), (R.EDG_PT_RATE_BURST 5, 1000), (R.EDG_PT_RATE_RATE 5, 9), (R.EDG_PT_DIE_DIE 5, 3), (R.EDG_PT_TIME_TIMEOUT 5, 20)]).setReg (R.EDG_PT_ID_LO 5) 0x77).edg with parts := [(5, { PartSt.idle with bucket := 100 })] } } : State).pair (R.EDG_PT_RX_LO (5 : Nat)) (R.EDG_PT_RX_HI (5 : Nat)) < ({ typ := 1, status := 0, len := 64, seq := 1, serial := 0x77, die := 3, gw := 0, epoch := 1, reqId := 1, addr := 0x4000, arg := 0, payload := List.replicate 64 0, beatBytes := 112, tagOk := true } : Packet).seq.toNat) ∧
    ((48 + ({ typ := 1, status := 0, len := 64, seq := 1, serial := 0x77, die := 3, gw := 0, epoch := 1, reqId := 1, addr := 0x4000, arg := 0, payload := List.replicate 64 0, beatBytes := 112, tagOk := true } : Packet).len.toNat + 63) / 64 ≤ ((({ (({ rig with ties := { rig.ties with edges := 1 } }.puts [(R.EDG_CTL_EN 0, 1), (R.EDG_STAT_LINK_UP 0, 1), (R.EDG_PT_CFG_VALID 5, 1), (R.EDG_PT_CFG_PCTX 5, 2), (R.EDG_PT_CFG_RD_MAX 5, 4), (R.EDG_PT_STAT_STATE 5, 1), (R.EDG_PT_STAT_EPOCH 5, 1), (R.EDG_PT_RATE_BURST 5, 1000), (R.EDG_PT_RATE_RATE 5, 9), (R.EDG_PT_DIE_DIE 5, 3), (R.EDG_PT_TIME_TIMEOUT 5, 20)]).setReg (R.EDG_PT_ID_LO 5) 0x77) with edg := { (({ rig with ties := { rig.ties with edges := 1 } }.puts [(R.EDG_CTL_EN 0, 1), (R.EDG_STAT_LINK_UP 0, 1), (R.EDG_PT_CFG_VALID 5, 1), (R.EDG_PT_CFG_PCTX 5, 2), (R.EDG_PT_CFG_RD_MAX 5, 4), (R.EDG_PT_STAT_STATE 5, 1), (R.EDG_PT_STAT_EPOCH 5, 1), (R.EDG_PT_RATE_BURST 5, 1000), (R.EDG_PT_RATE_RATE 5, 9), (R.EDG_PT_DIE_DIE 5, 3), (R.EDG_PT_TIME_TIMEOUT 5, 20)]).setReg (R.EDG_PT_ID_LO 5) 0x77).edg with parts := [(5, { PartSt.idle with bucket := 100 })] } } : State).fillBucket (5 : Nat)).part (5 : Nat)).bucket) ∧
    (({ typ := 1, status := 0, len := 64, seq := 1, serial := 0x77, die := 3, gw := 0, epoch := 1, reqId := 1, addr := 0x4000, arg := 0, payload := List.replicate 64 0, beatBytes := 112, tagOk := true } : Packet).typ = 0x01) := by decide +kernel

theorem witness_gatewaysAdmitPartnerPackets_edgeKeepalive :
    (({ (({ rig with ties := { rig.ties with edges := 1 } }.puts [(R.EDG_CTL_EN 0, 1), (R.EDG_STAT_LINK_UP 0, 1), (R.EDG_PT_CFG_VALID 5, 1), (R.EDG_PT_CFG_PCTX 5, 2), (R.EDG_PT_CFG_RD_MAX 5, 4), (R.EDG_PT_STAT_STATE 5, 2), (R.EDG_PT_STAT_EPOCH 5, 1), (R.EDG_PT_RATE_BURST 5, 1000), (R.EDG_PT_RATE_RATE 5, 9), (R.EDG_PT_DIE_DIE 5, 3), (R.EDG_PT_TIME_TIMEOUT 5, 20)]).setReg (R.EDG_PT_ID_LO 5) 0x77) with edg := { (({ rig with ties := { rig.ties with edges := 1 } }.puts [(R.EDG_CTL_EN 0, 1), (R.EDG_STAT_LINK_UP 0, 1), (R.EDG_PT_CFG_VALID 5, 1), (R.EDG_PT_CFG_PCTX 5, 2), (R.EDG_PT_CFG_RD_MAX 5, 4), (R.EDG_PT_STAT_STATE 5, 2), (R.EDG_PT_STAT_EPOCH 5, 1), (R.EDG_PT_RATE_BURST 5, 1000), (R.EDG_PT_RATE_RATE 5, 9), (R.EDG_PT_DIE_DIE 5, 3), (R.EDG_PT_TIME_TIMEOUT 5, 20)]).setReg (R.EDG_PT_ID_LO 5) 0x77).edg with parts := [(5, { PartSt.idle with bucket := 100 })] } } : State).gwIn (0 : Gw) = true) ∧
    (({ (({ rig with ties := { rig.ties with edges := 1 } }.puts [(R.EDG_CTL_EN 0, 1), (R.EDG_STAT_LINK_UP 0, 1), (R.EDG_PT_CFG_VALID 5, 1), (R.EDG_PT_CFG_PCTX 5, 2), (R.EDG_PT_CFG_RD_MAX 5, 4), (R.EDG_PT_STAT_STATE 5, 2), (R.EDG_PT_STAT_EPOCH 5, 1), (R.EDG_PT_RATE_BURST 5, 1000), (R.EDG_PT_RATE_RATE 5, 9), (R.EDG_PT_DIE_DIE 5, 3), (R.EDG_PT_TIME_TIMEOUT 5, 20)]).setReg (R.EDG_PT_ID_LO 5) 0x77) with edg := { (({ rig with ties := { rig.ties with edges := 1 } }.puts [(R.EDG_CTL_EN 0, 1), (R.EDG_STAT_LINK_UP 0, 1), (R.EDG_PT_CFG_VALID 5, 1), (R.EDG_PT_CFG_PCTX 5, 2), (R.EDG_PT_CFG_RD_MAX 5, 4), (R.EDG_PT_STAT_STATE 5, 2), (R.EDG_PT_STAT_EPOCH 5, 1), (R.EDG_PT_RATE_BURST 5, 1000), (R.EDG_PT_RATE_RATE 5, 9), (R.EDG_PT_DIE_DIE 5, 3), (R.EDG_PT_TIME_TIMEOUT 5, 20)]).setReg (R.EDG_PT_ID_LO 5) 0x77).edg with parts := [(5, { PartSt.idle with bucket := 100 })] } } : State).bit (R.EDG_STAT_LINK_UP (0 : Gw)) = true) ∧
    ((({ (({ rig with ties := { rig.ties with edges := 1 } }.puts [(R.EDG_CTL_EN 0, 1), (R.EDG_STAT_LINK_UP 0, 1), (R.EDG_PT_CFG_VALID 5, 1), (R.EDG_PT_CFG_PCTX 5, 2), (R.EDG_PT_CFG_RD_MAX 5, 4), (R.EDG_PT_STAT_STATE 5, 2), (R.EDG_PT_STAT_EPOCH 5, 1), (R.EDG_PT_RATE_BURST 5, 1000), (R.EDG_PT_RATE_RATE 5, 9), (R.EDG_PT_DIE_DIE 5, 3), (R.EDG_PT_TIME_TIMEOUT 5, 20)]).setReg (R.EDG_PT_ID_LO 5) 0x77) with edg := { (({ rig with ties := { rig.ties with edges := 1 } }.puts [(R.EDG_CTL_EN 0, 1), (R.EDG_STAT_LINK_UP 0, 1), (R.EDG_PT_CFG_VALID 5, 1), (R.EDG_PT_CFG_PCTX 5, 2), (R.EDG_PT_CFG_RD_MAX 5, 4), (R.EDG_PT_STAT_STATE 5, 2), (R.EDG_PT_STAT_EPOCH 5, 1), (R.EDG_PT_RATE_BURST 5, 1000), (R.EDG_PT_RATE_RATE 5, 9), (R.EDG_PT_DIE_DIE 5, 3), (R.EDG_PT_TIME_TIMEOUT 5, 20)]).setReg (R.EDG_PT_ID_LO 5) 0x77).edg with parts := [(5, { PartSt.idle with bucket := 100 })] } } : State).gw (0 : Gw)).ins.length < 64) ∧
    (malformed ({ typ := 2, status := 0, len := 0, seq := 1, serial := 0x77, die := 3, gw := 0, epoch := 1, reqId := 1, addr := 0x4000, arg := 0, payload := [], beatBytes := 48, tagOk := true } : Packet) = false) ∧
    (({ (({ rig with ties := { rig.ties with edges := 1 } }.puts [(R.EDG_CTL_EN 0, 1), (R.EDG_STAT_LINK_UP 0, 1), (R.EDG_PT_CFG_VALID 5, 1), (R.EDG_PT_CFG_PCTX 5, 2), (R.EDG_PT_CFG_RD_MAX 5, 4), (R.EDG_PT_STAT_STATE 5, 2), (R.EDG_PT_STAT_EPOCH 5, 1), (R.EDG_PT_RATE_BURST 5, 1000), (R.EDG_PT_RATE_RATE 5, 9), (R.EDG_PT_DIE_DIE 5, 3), (R.EDG_PT_TIME_TIMEOUT 5, 20)]).setReg (R.EDG_PT_ID_LO 5) 0x77) with edg := { (({ rig with ties := { rig.ties with edges := 1 } }.puts [(R.EDG_CTL_EN 0, 1), (R.EDG_STAT_LINK_UP 0, 1), (R.EDG_PT_CFG_VALID 5, 1), (R.EDG_PT_CFG_PCTX 5, 2), (R.EDG_PT_CFG_RD_MAX 5, 4), (R.EDG_PT_STAT_STATE 5, 2), (R.EDG_PT_STAT_EPOCH 5, 1), (R.EDG_PT_RATE_BURST 5, 1000), (R.EDG_PT_RATE_RATE 5, 9), (R.EDG_PT_DIE_DIE 5, 3), (R.EDG_PT_TIME_TIMEOUT 5, 20)]).setReg (R.EDG_PT_ID_LO 5) 0x77).edg with parts := [(5, { PartSt.idle with bucket := 100 })] } } : State).partOf (0 : Gw) ({ typ := 2, status := 0, len := 0, seq := 1, serial := 0x77, die := 3, gw := 0, epoch := 1, reqId := 1, addr := 0x4000, arg := 0, payload := [], beatBytes := 48, tagOk := true } : Packet) = some (5 : Nat)) ∧
    (({ (({ rig with ties := { rig.ties with edges := 1 } }.puts [(R.EDG_CTL_EN 0, 1), (R.EDG_STAT_LINK_UP 0, 1), (R.EDG_PT_CFG_VALID 5, 1), (R.EDG_PT_CFG_PCTX 5, 2), (R.EDG_PT_CFG_RD_MAX 5, 4), (R.EDG_PT_STAT_STATE 5, 2), (R.EDG_PT_STAT_EPOCH 5, 1), (R.EDG_PT_RATE_BURST 5, 1000), (R.EDG_PT_RATE_RATE 5, 9), (R.EDG_PT_DIE_DIE 5, 3), (R.EDG_PT_TIME_TIMEOUT 5, 20)]).setReg (R.EDG_PT_ID_LO 5) 0x77) with edg := { (({ rig with ties := { rig.ties with edges := 1 } }.puts [(R.EDG_CTL_EN 0, 1), (R.EDG_STAT_LINK_UP 0, 1), (R.EDG_PT_CFG_VALID 5, 1), (R.EDG_PT_CFG_PCTX 5, 2), (R.EDG_PT_CFG_RD_MAX 5, 4), (R.EDG_PT_STAT_STATE 5, 2), (R.EDG_PT_STAT_EPOCH 5, 1), (R.EDG_PT_RATE_BURST 5, 1000), (R.EDG_PT_RATE_RATE 5, 9), (R.EDG_PT_DIE_DIE 5, 3), (R.EDG_PT_TIME_TIMEOUT 5, 20)]).setReg (R.EDG_PT_ID_LO 5) 0x77).edg with parts := [(5, { PartSt.idle with bucket := 100 })] } } : State).partState (5 : Nat) = 2) ∧
    (({ typ := 2, status := 0, len := 0, seq := 1, serial := 0x77, die := 3, gw := 0, epoch := 1, reqId := 1, addr := 0x4000, arg := 0, payload := [], beatBytes := 48, tagOk := true } : Packet).epoch.toNat = ({ (({ rig with ties := { rig.ties with edges := 1 } }.puts [(R.EDG_CTL_EN 0, 1), (R.EDG_STAT_LINK_UP 0, 1), (R.EDG_PT_CFG_VALID 5, 1), (R.EDG_PT_CFG_PCTX 5, 2), (R.EDG_PT_CFG_RD_MAX 5, 4), (R.EDG_PT_STAT_STATE 5, 2), (R.EDG_PT_STAT_EPOCH 5, 1), (R.EDG_PT_RATE_BURST 5, 1000), (R.EDG_PT_RATE_RATE 5, 9), (R.EDG_PT_DIE_DIE 5, 3), (R.EDG_PT_TIME_TIMEOUT 5, 20)]).setReg (R.EDG_PT_ID_LO 5) 0x77) with edg := { (({ rig with ties := { rig.ties with edges := 1 } }.puts [(R.EDG_CTL_EN 0, 1), (R.EDG_STAT_LINK_UP 0, 1), (R.EDG_PT_CFG_VALID 5, 1), (R.EDG_PT_CFG_PCTX 5, 2), (R.EDG_PT_CFG_RD_MAX 5, 4), (R.EDG_PT_STAT_STATE 5, 2), (R.EDG_PT_STAT_EPOCH 5, 1), (R.EDG_PT_RATE_BURST 5, 1000), (R.EDG_PT_RATE_RATE 5, 9), (R.EDG_PT_DIE_DIE 5, 3), (R.EDG_PT_TIME_TIMEOUT 5, 20)]).setReg (R.EDG_PT_ID_LO 5) 0x77).edg with parts := [(5, { PartSt.idle with bucket := 100 })] } } : State).f (R.EDG_PT_STAT_EPOCH (5 : Nat))) ∧
    (({ typ := 2, status := 0, len := 0, seq := 1, serial := 0x77, die := 3, gw := 0, epoch := 1, reqId := 1, addr := 0x4000, arg := 0, payload := [], beatBytes := 48, tagOk := true } : Packet).tagOk = true) ∧
    (({ (({ rig with ties := { rig.ties with edges := 1 } }.puts [(R.EDG_CTL_EN 0, 1), (R.EDG_STAT_LINK_UP 0, 1), (R.EDG_PT_CFG_VALID 5, 1), (R.EDG_PT_CFG_PCTX 5, 2), (R.EDG_PT_CFG_RD_MAX 5, 4), (R.EDG_PT_STAT_STATE 5, 2), (R.EDG_PT_STAT_EPOCH 5, 1), (R.EDG_PT_RATE_BURST 5, 1000), (R.EDG_PT_RATE_RATE 5, 9), (R.EDG_PT_DIE_DIE 5, 3), (R.EDG_PT_TIME_TIMEOUT 5, 20)]).setReg (R.EDG_PT_ID_LO 5) 0x77) with edg := { (({ rig with ties := { rig.ties with edges := 1 } }.puts [(R.EDG_CTL_EN 0, 1), (R.EDG_STAT_LINK_UP 0, 1), (R.EDG_PT_CFG_VALID 5, 1), (R.EDG_PT_CFG_PCTX 5, 2), (R.EDG_PT_CFG_RD_MAX 5, 4), (R.EDG_PT_STAT_STATE 5, 2), (R.EDG_PT_STAT_EPOCH 5, 1), (R.EDG_PT_RATE_BURST 5, 1000), (R.EDG_PT_RATE_RATE 5, 9), (R.EDG_PT_DIE_DIE 5, 3), (R.EDG_PT_TIME_TIMEOUT 5, 20)]).setReg (R.EDG_PT_ID_LO 5) 0x77).edg with parts := [(5, { PartSt.idle with bucket := 100 })] } } : State).pair (R.EDG_PT_RX_LO (5 : Nat)) (R.EDG_PT_RX_HI (5 : Nat)) < ({ typ := 2, status := 0, len := 0, seq := 1, serial := 0x77, die := 3, gw := 0, epoch := 1, reqId := 1, addr := 0x4000, arg := 0, payload := [], beatBytes := 48, tagOk := true } : Packet).seq.toNat) ∧
    ((48 + ({ typ := 2, status := 0, len := 0, seq := 1, serial := 0x77, die := 3, gw := 0, epoch := 1, reqId := 1, addr := 0x4000, arg := 0, payload := [], beatBytes := 48, tagOk := true } : Packet).len.toNat + 63) / 64 ≤ ((({ (({ rig with ties := { rig.ties with edges := 1 } }.puts [(R.EDG_CTL_EN 0, 1), (R.EDG_STAT_LINK_UP 0, 1), (R.EDG_PT_CFG_VALID 5, 1), (R.EDG_PT_CFG_PCTX 5, 2), (R.EDG_PT_CFG_RD_MAX 5, 4), (R.EDG_PT_STAT_STATE 5, 2), (R.EDG_PT_STAT_EPOCH 5, 1), (R.EDG_PT_RATE_BURST 5, 1000), (R.EDG_PT_RATE_RATE 5, 9), (R.EDG_PT_DIE_DIE 5, 3), (R.EDG_PT_TIME_TIMEOUT 5, 20)]).setReg (R.EDG_PT_ID_LO 5) 0x77) with edg := { (({ rig with ties := { rig.ties with edges := 1 } }.puts [(R.EDG_CTL_EN 0, 1), (R.EDG_STAT_LINK_UP 0, 1), (R.EDG_PT_CFG_VALID 5, 1), (R.EDG_PT_CFG_PCTX 5, 2), (R.EDG_PT_CFG_RD_MAX 5, 4), (R.EDG_PT_STAT_STATE 5, 2), (R.EDG_PT_STAT_EPOCH 5, 1), (R.EDG_PT_RATE_BURST 5, 1000), (R.EDG_PT_RATE_RATE 5, 9), (R.EDG_PT_DIE_DIE 5, 3), (R.EDG_PT_TIME_TIMEOUT 5, 20)]).setReg (R.EDG_PT_ID_LO 5) 0x77).edg with parts := [(5, { PartSt.idle with bucket := 100 })] } } : State).fillBucket (5 : Nat)).part (5 : Nat)).bucket) ∧
    (({ typ := 2, status := 0, len := 0, seq := 1, serial := 0x77, die := 3, gw := 0, epoch := 1, reqId := 1, addr := 0x4000, arg := 0, payload := [], beatBytes := 48, tagOk := true } : Packet).typ = 0x02) := by decide +kernel

theorem witness_gatewaysAdmitPartnerPackets_edgeWrite :
    (({ (({ rig with ties := { rig.ties with edges := 1 } }.puts [(R.EDG_CTL_EN 0, 1), (R.EDG_STAT_LINK_UP 0, 1), (R.EDG_PT_CFG_VALID 5, 1), (R.EDG_PT_CFG_PCTX 5, 2), (R.EDG_PT_CFG_RD_MAX 5, 4), (R.EDG_PT_STAT_STATE 5, 2), (R.EDG_PT_STAT_EPOCH 5, 1), (R.EDG_PT_RATE_BURST 5, 1000), (R.EDG_PT_RATE_RATE 5, 9), (R.EDG_PT_DIE_DIE 5, 3), (R.EDG_PT_TIME_TIMEOUT 5, 20)]).setReg (R.EDG_PT_ID_LO 5) 0x77) with edg := { (({ rig with ties := { rig.ties with edges := 1 } }.puts [(R.EDG_CTL_EN 0, 1), (R.EDG_STAT_LINK_UP 0, 1), (R.EDG_PT_CFG_VALID 5, 1), (R.EDG_PT_CFG_PCTX 5, 2), (R.EDG_PT_CFG_RD_MAX 5, 4), (R.EDG_PT_STAT_STATE 5, 2), (R.EDG_PT_STAT_EPOCH 5, 1), (R.EDG_PT_RATE_BURST 5, 1000), (R.EDG_PT_RATE_RATE 5, 9), (R.EDG_PT_DIE_DIE 5, 3), (R.EDG_PT_TIME_TIMEOUT 5, 20)]).setReg (R.EDG_PT_ID_LO 5) 0x77).edg with parts := [(5, { PartSt.idle with bucket := 100 })] } } : State).gwIn (0 : Gw) = true) ∧
    (({ (({ rig with ties := { rig.ties with edges := 1 } }.puts [(R.EDG_CTL_EN 0, 1), (R.EDG_STAT_LINK_UP 0, 1), (R.EDG_PT_CFG_VALID 5, 1), (R.EDG_PT_CFG_PCTX 5, 2), (R.EDG_PT_CFG_RD_MAX 5, 4), (R.EDG_PT_STAT_STATE 5, 2), (R.EDG_PT_STAT_EPOCH 5, 1), (R.EDG_PT_RATE_BURST 5, 1000), (R.EDG_PT_RATE_RATE 5, 9), (R.EDG_PT_DIE_DIE 5, 3), (R.EDG_PT_TIME_TIMEOUT 5, 20)]).setReg (R.EDG_PT_ID_LO 5) 0x77) with edg := { (({ rig with ties := { rig.ties with edges := 1 } }.puts [(R.EDG_CTL_EN 0, 1), (R.EDG_STAT_LINK_UP 0, 1), (R.EDG_PT_CFG_VALID 5, 1), (R.EDG_PT_CFG_PCTX 5, 2), (R.EDG_PT_CFG_RD_MAX 5, 4), (R.EDG_PT_STAT_STATE 5, 2), (R.EDG_PT_STAT_EPOCH 5, 1), (R.EDG_PT_RATE_BURST 5, 1000), (R.EDG_PT_RATE_RATE 5, 9), (R.EDG_PT_DIE_DIE 5, 3), (R.EDG_PT_TIME_TIMEOUT 5, 20)]).setReg (R.EDG_PT_ID_LO 5) 0x77).edg with parts := [(5, { PartSt.idle with bucket := 100 })] } } : State).bit (R.EDG_STAT_LINK_UP (0 : Gw)) = true) ∧
    ((({ (({ rig with ties := { rig.ties with edges := 1 } }.puts [(R.EDG_CTL_EN 0, 1), (R.EDG_STAT_LINK_UP 0, 1), (R.EDG_PT_CFG_VALID 5, 1), (R.EDG_PT_CFG_PCTX 5, 2), (R.EDG_PT_CFG_RD_MAX 5, 4), (R.EDG_PT_STAT_STATE 5, 2), (R.EDG_PT_STAT_EPOCH 5, 1), (R.EDG_PT_RATE_BURST 5, 1000), (R.EDG_PT_RATE_RATE 5, 9), (R.EDG_PT_DIE_DIE 5, 3), (R.EDG_PT_TIME_TIMEOUT 5, 20)]).setReg (R.EDG_PT_ID_LO 5) 0x77) with edg := { (({ rig with ties := { rig.ties with edges := 1 } }.puts [(R.EDG_CTL_EN 0, 1), (R.EDG_STAT_LINK_UP 0, 1), (R.EDG_PT_CFG_VALID 5, 1), (R.EDG_PT_CFG_PCTX 5, 2), (R.EDG_PT_CFG_RD_MAX 5, 4), (R.EDG_PT_STAT_STATE 5, 2), (R.EDG_PT_STAT_EPOCH 5, 1), (R.EDG_PT_RATE_BURST 5, 1000), (R.EDG_PT_RATE_RATE 5, 9), (R.EDG_PT_DIE_DIE 5, 3), (R.EDG_PT_TIME_TIMEOUT 5, 20)]).setReg (R.EDG_PT_ID_LO 5) 0x77).edg with parts := [(5, { PartSt.idle with bucket := 100 })] } } : State).gw (0 : Gw)).ins.length < 64) ∧
    (malformed ({ typ := 0x10, status := 0, len := 4, seq := 1, serial := 0x77, die := 3, gw := 0, epoch := 1, reqId := 1, addr := 0x4000, arg := 0, payload := [1, 2, 3, 4], beatBytes := 52, tagOk := true } : Packet) = false) ∧
    (({ (({ rig with ties := { rig.ties with edges := 1 } }.puts [(R.EDG_CTL_EN 0, 1), (R.EDG_STAT_LINK_UP 0, 1), (R.EDG_PT_CFG_VALID 5, 1), (R.EDG_PT_CFG_PCTX 5, 2), (R.EDG_PT_CFG_RD_MAX 5, 4), (R.EDG_PT_STAT_STATE 5, 2), (R.EDG_PT_STAT_EPOCH 5, 1), (R.EDG_PT_RATE_BURST 5, 1000), (R.EDG_PT_RATE_RATE 5, 9), (R.EDG_PT_DIE_DIE 5, 3), (R.EDG_PT_TIME_TIMEOUT 5, 20)]).setReg (R.EDG_PT_ID_LO 5) 0x77) with edg := { (({ rig with ties := { rig.ties with edges := 1 } }.puts [(R.EDG_CTL_EN 0, 1), (R.EDG_STAT_LINK_UP 0, 1), (R.EDG_PT_CFG_VALID 5, 1), (R.EDG_PT_CFG_PCTX 5, 2), (R.EDG_PT_CFG_RD_MAX 5, 4), (R.EDG_PT_STAT_STATE 5, 2), (R.EDG_PT_STAT_EPOCH 5, 1), (R.EDG_PT_RATE_BURST 5, 1000), (R.EDG_PT_RATE_RATE 5, 9), (R.EDG_PT_DIE_DIE 5, 3), (R.EDG_PT_TIME_TIMEOUT 5, 20)]).setReg (R.EDG_PT_ID_LO 5) 0x77).edg with parts := [(5, { PartSt.idle with bucket := 100 })] } } : State).partOf (0 : Gw) ({ typ := 0x10, status := 0, len := 4, seq := 1, serial := 0x77, die := 3, gw := 0, epoch := 1, reqId := 1, addr := 0x4000, arg := 0, payload := [1, 2, 3, 4], beatBytes := 52, tagOk := true } : Packet) = some (5 : Nat)) ∧
    (({ (({ rig with ties := { rig.ties with edges := 1 } }.puts [(R.EDG_CTL_EN 0, 1), (R.EDG_STAT_LINK_UP 0, 1), (R.EDG_PT_CFG_VALID 5, 1), (R.EDG_PT_CFG_PCTX 5, 2), (R.EDG_PT_CFG_RD_MAX 5, 4), (R.EDG_PT_STAT_STATE 5, 2), (R.EDG_PT_STAT_EPOCH 5, 1), (R.EDG_PT_RATE_BURST 5, 1000), (R.EDG_PT_RATE_RATE 5, 9), (R.EDG_PT_DIE_DIE 5, 3), (R.EDG_PT_TIME_TIMEOUT 5, 20)]).setReg (R.EDG_PT_ID_LO 5) 0x77) with edg := { (({ rig with ties := { rig.ties with edges := 1 } }.puts [(R.EDG_CTL_EN 0, 1), (R.EDG_STAT_LINK_UP 0, 1), (R.EDG_PT_CFG_VALID 5, 1), (R.EDG_PT_CFG_PCTX 5, 2), (R.EDG_PT_CFG_RD_MAX 5, 4), (R.EDG_PT_STAT_STATE 5, 2), (R.EDG_PT_STAT_EPOCH 5, 1), (R.EDG_PT_RATE_BURST 5, 1000), (R.EDG_PT_RATE_RATE 5, 9), (R.EDG_PT_DIE_DIE 5, 3), (R.EDG_PT_TIME_TIMEOUT 5, 20)]).setReg (R.EDG_PT_ID_LO 5) 0x77).edg with parts := [(5, { PartSt.idle with bucket := 100 })] } } : State).partState (5 : Nat) = 2) ∧
    (({ typ := 0x10, status := 0, len := 4, seq := 1, serial := 0x77, die := 3, gw := 0, epoch := 1, reqId := 1, addr := 0x4000, arg := 0, payload := [1, 2, 3, 4], beatBytes := 52, tagOk := true } : Packet).epoch.toNat = ({ (({ rig with ties := { rig.ties with edges := 1 } }.puts [(R.EDG_CTL_EN 0, 1), (R.EDG_STAT_LINK_UP 0, 1), (R.EDG_PT_CFG_VALID 5, 1), (R.EDG_PT_CFG_PCTX 5, 2), (R.EDG_PT_CFG_RD_MAX 5, 4), (R.EDG_PT_STAT_STATE 5, 2), (R.EDG_PT_STAT_EPOCH 5, 1), (R.EDG_PT_RATE_BURST 5, 1000), (R.EDG_PT_RATE_RATE 5, 9), (R.EDG_PT_DIE_DIE 5, 3), (R.EDG_PT_TIME_TIMEOUT 5, 20)]).setReg (R.EDG_PT_ID_LO 5) 0x77) with edg := { (({ rig with ties := { rig.ties with edges := 1 } }.puts [(R.EDG_CTL_EN 0, 1), (R.EDG_STAT_LINK_UP 0, 1), (R.EDG_PT_CFG_VALID 5, 1), (R.EDG_PT_CFG_PCTX 5, 2), (R.EDG_PT_CFG_RD_MAX 5, 4), (R.EDG_PT_STAT_STATE 5, 2), (R.EDG_PT_STAT_EPOCH 5, 1), (R.EDG_PT_RATE_BURST 5, 1000), (R.EDG_PT_RATE_RATE 5, 9), (R.EDG_PT_DIE_DIE 5, 3), (R.EDG_PT_TIME_TIMEOUT 5, 20)]).setReg (R.EDG_PT_ID_LO 5) 0x77).edg with parts := [(5, { PartSt.idle with bucket := 100 })] } } : State).f (R.EDG_PT_STAT_EPOCH (5 : Nat))) ∧
    (({ typ := 0x10, status := 0, len := 4, seq := 1, serial := 0x77, die := 3, gw := 0, epoch := 1, reqId := 1, addr := 0x4000, arg := 0, payload := [1, 2, 3, 4], beatBytes := 52, tagOk := true } : Packet).tagOk = true) ∧
    (({ (({ rig with ties := { rig.ties with edges := 1 } }.puts [(R.EDG_CTL_EN 0, 1), (R.EDG_STAT_LINK_UP 0, 1), (R.EDG_PT_CFG_VALID 5, 1), (R.EDG_PT_CFG_PCTX 5, 2), (R.EDG_PT_CFG_RD_MAX 5, 4), (R.EDG_PT_STAT_STATE 5, 2), (R.EDG_PT_STAT_EPOCH 5, 1), (R.EDG_PT_RATE_BURST 5, 1000), (R.EDG_PT_RATE_RATE 5, 9), (R.EDG_PT_DIE_DIE 5, 3), (R.EDG_PT_TIME_TIMEOUT 5, 20)]).setReg (R.EDG_PT_ID_LO 5) 0x77) with edg := { (({ rig with ties := { rig.ties with edges := 1 } }.puts [(R.EDG_CTL_EN 0, 1), (R.EDG_STAT_LINK_UP 0, 1), (R.EDG_PT_CFG_VALID 5, 1), (R.EDG_PT_CFG_PCTX 5, 2), (R.EDG_PT_CFG_RD_MAX 5, 4), (R.EDG_PT_STAT_STATE 5, 2), (R.EDG_PT_STAT_EPOCH 5, 1), (R.EDG_PT_RATE_BURST 5, 1000), (R.EDG_PT_RATE_RATE 5, 9), (R.EDG_PT_DIE_DIE 5, 3), (R.EDG_PT_TIME_TIMEOUT 5, 20)]).setReg (R.EDG_PT_ID_LO 5) 0x77).edg with parts := [(5, { PartSt.idle with bucket := 100 })] } } : State).pair (R.EDG_PT_RX_LO (5 : Nat)) (R.EDG_PT_RX_HI (5 : Nat)) < ({ typ := 0x10, status := 0, len := 4, seq := 1, serial := 0x77, die := 3, gw := 0, epoch := 1, reqId := 1, addr := 0x4000, arg := 0, payload := [1, 2, 3, 4], beatBytes := 52, tagOk := true } : Packet).seq.toNat) ∧
    ((48 + ({ typ := 0x10, status := 0, len := 4, seq := 1, serial := 0x77, die := 3, gw := 0, epoch := 1, reqId := 1, addr := 0x4000, arg := 0, payload := [1, 2, 3, 4], beatBytes := 52, tagOk := true } : Packet).len.toNat + 63) / 64 ≤ ((({ (({ rig with ties := { rig.ties with edges := 1 } }.puts [(R.EDG_CTL_EN 0, 1), (R.EDG_STAT_LINK_UP 0, 1), (R.EDG_PT_CFG_VALID 5, 1), (R.EDG_PT_CFG_PCTX 5, 2), (R.EDG_PT_CFG_RD_MAX 5, 4), (R.EDG_PT_STAT_STATE 5, 2), (R.EDG_PT_STAT_EPOCH 5, 1), (R.EDG_PT_RATE_BURST 5, 1000), (R.EDG_PT_RATE_RATE 5, 9), (R.EDG_PT_DIE_DIE 5, 3), (R.EDG_PT_TIME_TIMEOUT 5, 20)]).setReg (R.EDG_PT_ID_LO 5) 0x77) with edg := { (({ rig with ties := { rig.ties with edges := 1 } }.puts [(R.EDG_CTL_EN 0, 1), (R.EDG_STAT_LINK_UP 0, 1), (R.EDG_PT_CFG_VALID 5, 1), (R.EDG_PT_CFG_PCTX 5, 2), (R.EDG_PT_CFG_RD_MAX 5, 4), (R.EDG_PT_STAT_STATE 5, 2), (R.EDG_PT_STAT_EPOCH 5, 1), (R.EDG_PT_RATE_BURST 5, 1000), (R.EDG_PT_RATE_RATE 5, 9), (R.EDG_PT_DIE_DIE 5, 3), (R.EDG_PT_TIME_TIMEOUT 5, 20)]).setReg (R.EDG_PT_ID_LO 5) 0x77).edg with parts := [(5, { PartSt.idle with bucket := 100 })] } } : State).fillBucket (5 : Nat)).part (5 : Nat)).bucket) ∧
    (({ typ := 0x10, status := 0, len := 4, seq := 1, serial := 0x77, die := 3, gw := 0, epoch := 1, reqId := 1, addr := 0x4000, arg := 0, payload := [1, 2, 3, 4], beatBytes := 52, tagOk := true } : Packet).typ = 0x10) := by decide +kernel

theorem witness_gatewaysAdmitPartnerPackets_edgeInc :
    (({ (({ rig with ties := { rig.ties with edges := 1 } }.puts [(R.EDG_CTL_EN 0, 1), (R.EDG_STAT_LINK_UP 0, 1), (R.EDG_PT_CFG_VALID 5, 1), (R.EDG_PT_CFG_PCTX 5, 2), (R.EDG_PT_CFG_RD_MAX 5, 4), (R.EDG_PT_STAT_STATE 5, 2), (R.EDG_PT_STAT_EPOCH 5, 1), (R.EDG_PT_RATE_BURST 5, 1000), (R.EDG_PT_RATE_RATE 5, 9), (R.EDG_PT_DIE_DIE 5, 3), (R.EDG_PT_TIME_TIMEOUT 5, 20)]).setReg (R.EDG_PT_ID_LO 5) 0x77) with edg := { (({ rig with ties := { rig.ties with edges := 1 } }.puts [(R.EDG_CTL_EN 0, 1), (R.EDG_STAT_LINK_UP 0, 1), (R.EDG_PT_CFG_VALID 5, 1), (R.EDG_PT_CFG_PCTX 5, 2), (R.EDG_PT_CFG_RD_MAX 5, 4), (R.EDG_PT_STAT_STATE 5, 2), (R.EDG_PT_STAT_EPOCH 5, 1), (R.EDG_PT_RATE_BURST 5, 1000), (R.EDG_PT_RATE_RATE 5, 9), (R.EDG_PT_DIE_DIE 5, 3), (R.EDG_PT_TIME_TIMEOUT 5, 20)]).setReg (R.EDG_PT_ID_LO 5) 0x77).edg with parts := [(5, { PartSt.idle with bucket := 100 })] } } : State).gwIn (0 : Gw) = true) ∧
    (({ (({ rig with ties := { rig.ties with edges := 1 } }.puts [(R.EDG_CTL_EN 0, 1), (R.EDG_STAT_LINK_UP 0, 1), (R.EDG_PT_CFG_VALID 5, 1), (R.EDG_PT_CFG_PCTX 5, 2), (R.EDG_PT_CFG_RD_MAX 5, 4), (R.EDG_PT_STAT_STATE 5, 2), (R.EDG_PT_STAT_EPOCH 5, 1), (R.EDG_PT_RATE_BURST 5, 1000), (R.EDG_PT_RATE_RATE 5, 9), (R.EDG_PT_DIE_DIE 5, 3), (R.EDG_PT_TIME_TIMEOUT 5, 20)]).setReg (R.EDG_PT_ID_LO 5) 0x77) with edg := { (({ rig with ties := { rig.ties with edges := 1 } }.puts [(R.EDG_CTL_EN 0, 1), (R.EDG_STAT_LINK_UP 0, 1), (R.EDG_PT_CFG_VALID 5, 1), (R.EDG_PT_CFG_PCTX 5, 2), (R.EDG_PT_CFG_RD_MAX 5, 4), (R.EDG_PT_STAT_STATE 5, 2), (R.EDG_PT_STAT_EPOCH 5, 1), (R.EDG_PT_RATE_BURST 5, 1000), (R.EDG_PT_RATE_RATE 5, 9), (R.EDG_PT_DIE_DIE 5, 3), (R.EDG_PT_TIME_TIMEOUT 5, 20)]).setReg (R.EDG_PT_ID_LO 5) 0x77).edg with parts := [(5, { PartSt.idle with bucket := 100 })] } } : State).bit (R.EDG_STAT_LINK_UP (0 : Gw)) = true) ∧
    ((({ (({ rig with ties := { rig.ties with edges := 1 } }.puts [(R.EDG_CTL_EN 0, 1), (R.EDG_STAT_LINK_UP 0, 1), (R.EDG_PT_CFG_VALID 5, 1), (R.EDG_PT_CFG_PCTX 5, 2), (R.EDG_PT_CFG_RD_MAX 5, 4), (R.EDG_PT_STAT_STATE 5, 2), (R.EDG_PT_STAT_EPOCH 5, 1), (R.EDG_PT_RATE_BURST 5, 1000), (R.EDG_PT_RATE_RATE 5, 9), (R.EDG_PT_DIE_DIE 5, 3), (R.EDG_PT_TIME_TIMEOUT 5, 20)]).setReg (R.EDG_PT_ID_LO 5) 0x77) with edg := { (({ rig with ties := { rig.ties with edges := 1 } }.puts [(R.EDG_CTL_EN 0, 1), (R.EDG_STAT_LINK_UP 0, 1), (R.EDG_PT_CFG_VALID 5, 1), (R.EDG_PT_CFG_PCTX 5, 2), (R.EDG_PT_CFG_RD_MAX 5, 4), (R.EDG_PT_STAT_STATE 5, 2), (R.EDG_PT_STAT_EPOCH 5, 1), (R.EDG_PT_RATE_BURST 5, 1000), (R.EDG_PT_RATE_RATE 5, 9), (R.EDG_PT_DIE_DIE 5, 3), (R.EDG_PT_TIME_TIMEOUT 5, 20)]).setReg (R.EDG_PT_ID_LO 5) 0x77).edg with parts := [(5, { PartSt.idle with bucket := 100 })] } } : State).gw (0 : Gw)).ins.length < 64) ∧
    (malformed ({ typ := 0x11, status := 0, len := 0, seq := 1, serial := 0x77, die := 3, gw := 0, epoch := 1, reqId := 1, addr := 0x4000, arg := 3, payload := [], beatBytes := 48, tagOk := true } : Packet) = false) ∧
    (({ (({ rig with ties := { rig.ties with edges := 1 } }.puts [(R.EDG_CTL_EN 0, 1), (R.EDG_STAT_LINK_UP 0, 1), (R.EDG_PT_CFG_VALID 5, 1), (R.EDG_PT_CFG_PCTX 5, 2), (R.EDG_PT_CFG_RD_MAX 5, 4), (R.EDG_PT_STAT_STATE 5, 2), (R.EDG_PT_STAT_EPOCH 5, 1), (R.EDG_PT_RATE_BURST 5, 1000), (R.EDG_PT_RATE_RATE 5, 9), (R.EDG_PT_DIE_DIE 5, 3), (R.EDG_PT_TIME_TIMEOUT 5, 20)]).setReg (R.EDG_PT_ID_LO 5) 0x77) with edg := { (({ rig with ties := { rig.ties with edges := 1 } }.puts [(R.EDG_CTL_EN 0, 1), (R.EDG_STAT_LINK_UP 0, 1), (R.EDG_PT_CFG_VALID 5, 1), (R.EDG_PT_CFG_PCTX 5, 2), (R.EDG_PT_CFG_RD_MAX 5, 4), (R.EDG_PT_STAT_STATE 5, 2), (R.EDG_PT_STAT_EPOCH 5, 1), (R.EDG_PT_RATE_BURST 5, 1000), (R.EDG_PT_RATE_RATE 5, 9), (R.EDG_PT_DIE_DIE 5, 3), (R.EDG_PT_TIME_TIMEOUT 5, 20)]).setReg (R.EDG_PT_ID_LO 5) 0x77).edg with parts := [(5, { PartSt.idle with bucket := 100 })] } } : State).partOf (0 : Gw) ({ typ := 0x11, status := 0, len := 0, seq := 1, serial := 0x77, die := 3, gw := 0, epoch := 1, reqId := 1, addr := 0x4000, arg := 3, payload := [], beatBytes := 48, tagOk := true } : Packet) = some (5 : Nat)) ∧
    (({ (({ rig with ties := { rig.ties with edges := 1 } }.puts [(R.EDG_CTL_EN 0, 1), (R.EDG_STAT_LINK_UP 0, 1), (R.EDG_PT_CFG_VALID 5, 1), (R.EDG_PT_CFG_PCTX 5, 2), (R.EDG_PT_CFG_RD_MAX 5, 4), (R.EDG_PT_STAT_STATE 5, 2), (R.EDG_PT_STAT_EPOCH 5, 1), (R.EDG_PT_RATE_BURST 5, 1000), (R.EDG_PT_RATE_RATE 5, 9), (R.EDG_PT_DIE_DIE 5, 3), (R.EDG_PT_TIME_TIMEOUT 5, 20)]).setReg (R.EDG_PT_ID_LO 5) 0x77) with edg := { (({ rig with ties := { rig.ties with edges := 1 } }.puts [(R.EDG_CTL_EN 0, 1), (R.EDG_STAT_LINK_UP 0, 1), (R.EDG_PT_CFG_VALID 5, 1), (R.EDG_PT_CFG_PCTX 5, 2), (R.EDG_PT_CFG_RD_MAX 5, 4), (R.EDG_PT_STAT_STATE 5, 2), (R.EDG_PT_STAT_EPOCH 5, 1), (R.EDG_PT_RATE_BURST 5, 1000), (R.EDG_PT_RATE_RATE 5, 9), (R.EDG_PT_DIE_DIE 5, 3), (R.EDG_PT_TIME_TIMEOUT 5, 20)]).setReg (R.EDG_PT_ID_LO 5) 0x77).edg with parts := [(5, { PartSt.idle with bucket := 100 })] } } : State).partState (5 : Nat) = 2) ∧
    (({ typ := 0x11, status := 0, len := 0, seq := 1, serial := 0x77, die := 3, gw := 0, epoch := 1, reqId := 1, addr := 0x4000, arg := 3, payload := [], beatBytes := 48, tagOk := true } : Packet).epoch.toNat = ({ (({ rig with ties := { rig.ties with edges := 1 } }.puts [(R.EDG_CTL_EN 0, 1), (R.EDG_STAT_LINK_UP 0, 1), (R.EDG_PT_CFG_VALID 5, 1), (R.EDG_PT_CFG_PCTX 5, 2), (R.EDG_PT_CFG_RD_MAX 5, 4), (R.EDG_PT_STAT_STATE 5, 2), (R.EDG_PT_STAT_EPOCH 5, 1), (R.EDG_PT_RATE_BURST 5, 1000), (R.EDG_PT_RATE_RATE 5, 9), (R.EDG_PT_DIE_DIE 5, 3), (R.EDG_PT_TIME_TIMEOUT 5, 20)]).setReg (R.EDG_PT_ID_LO 5) 0x77) with edg := { (({ rig with ties := { rig.ties with edges := 1 } }.puts [(R.EDG_CTL_EN 0, 1), (R.EDG_STAT_LINK_UP 0, 1), (R.EDG_PT_CFG_VALID 5, 1), (R.EDG_PT_CFG_PCTX 5, 2), (R.EDG_PT_CFG_RD_MAX 5, 4), (R.EDG_PT_STAT_STATE 5, 2), (R.EDG_PT_STAT_EPOCH 5, 1), (R.EDG_PT_RATE_BURST 5, 1000), (R.EDG_PT_RATE_RATE 5, 9), (R.EDG_PT_DIE_DIE 5, 3), (R.EDG_PT_TIME_TIMEOUT 5, 20)]).setReg (R.EDG_PT_ID_LO 5) 0x77).edg with parts := [(5, { PartSt.idle with bucket := 100 })] } } : State).f (R.EDG_PT_STAT_EPOCH (5 : Nat))) ∧
    (({ typ := 0x11, status := 0, len := 0, seq := 1, serial := 0x77, die := 3, gw := 0, epoch := 1, reqId := 1, addr := 0x4000, arg := 3, payload := [], beatBytes := 48, tagOk := true } : Packet).tagOk = true) ∧
    (({ (({ rig with ties := { rig.ties with edges := 1 } }.puts [(R.EDG_CTL_EN 0, 1), (R.EDG_STAT_LINK_UP 0, 1), (R.EDG_PT_CFG_VALID 5, 1), (R.EDG_PT_CFG_PCTX 5, 2), (R.EDG_PT_CFG_RD_MAX 5, 4), (R.EDG_PT_STAT_STATE 5, 2), (R.EDG_PT_STAT_EPOCH 5, 1), (R.EDG_PT_RATE_BURST 5, 1000), (R.EDG_PT_RATE_RATE 5, 9), (R.EDG_PT_DIE_DIE 5, 3), (R.EDG_PT_TIME_TIMEOUT 5, 20)]).setReg (R.EDG_PT_ID_LO 5) 0x77) with edg := { (({ rig with ties := { rig.ties with edges := 1 } }.puts [(R.EDG_CTL_EN 0, 1), (R.EDG_STAT_LINK_UP 0, 1), (R.EDG_PT_CFG_VALID 5, 1), (R.EDG_PT_CFG_PCTX 5, 2), (R.EDG_PT_CFG_RD_MAX 5, 4), (R.EDG_PT_STAT_STATE 5, 2), (R.EDG_PT_STAT_EPOCH 5, 1), (R.EDG_PT_RATE_BURST 5, 1000), (R.EDG_PT_RATE_RATE 5, 9), (R.EDG_PT_DIE_DIE 5, 3), (R.EDG_PT_TIME_TIMEOUT 5, 20)]).setReg (R.EDG_PT_ID_LO 5) 0x77).edg with parts := [(5, { PartSt.idle with bucket := 100 })] } } : State).pair (R.EDG_PT_RX_LO (5 : Nat)) (R.EDG_PT_RX_HI (5 : Nat)) < ({ typ := 0x11, status := 0, len := 0, seq := 1, serial := 0x77, die := 3, gw := 0, epoch := 1, reqId := 1, addr := 0x4000, arg := 3, payload := [], beatBytes := 48, tagOk := true } : Packet).seq.toNat) ∧
    ((48 + ({ typ := 0x11, status := 0, len := 0, seq := 1, serial := 0x77, die := 3, gw := 0, epoch := 1, reqId := 1, addr := 0x4000, arg := 3, payload := [], beatBytes := 48, tagOk := true } : Packet).len.toNat + 63) / 64 ≤ ((({ (({ rig with ties := { rig.ties with edges := 1 } }.puts [(R.EDG_CTL_EN 0, 1), (R.EDG_STAT_LINK_UP 0, 1), (R.EDG_PT_CFG_VALID 5, 1), (R.EDG_PT_CFG_PCTX 5, 2), (R.EDG_PT_CFG_RD_MAX 5, 4), (R.EDG_PT_STAT_STATE 5, 2), (R.EDG_PT_STAT_EPOCH 5, 1), (R.EDG_PT_RATE_BURST 5, 1000), (R.EDG_PT_RATE_RATE 5, 9), (R.EDG_PT_DIE_DIE 5, 3), (R.EDG_PT_TIME_TIMEOUT 5, 20)]).setReg (R.EDG_PT_ID_LO 5) 0x77) with edg := { (({ rig with ties := { rig.ties with edges := 1 } }.puts [(R.EDG_CTL_EN 0, 1), (R.EDG_STAT_LINK_UP 0, 1), (R.EDG_PT_CFG_VALID 5, 1), (R.EDG_PT_CFG_PCTX 5, 2), (R.EDG_PT_CFG_RD_MAX 5, 4), (R.EDG_PT_STAT_STATE 5, 2), (R.EDG_PT_STAT_EPOCH 5, 1), (R.EDG_PT_RATE_BURST 5, 1000), (R.EDG_PT_RATE_RATE 5, 9), (R.EDG_PT_DIE_DIE 5, 3), (R.EDG_PT_TIME_TIMEOUT 5, 20)]).setReg (R.EDG_PT_ID_LO 5) 0x77).edg with parts := [(5, { PartSt.idle with bucket := 100 })] } } : State).fillBucket (5 : Nat)).part (5 : Nat)).bucket) ∧
    (({ typ := 0x11, status := 0, len := 0, seq := 1, serial := 0x77, die := 3, gw := 0, epoch := 1, reqId := 1, addr := 0x4000, arg := 3, payload := [], beatBytes := 48, tagOk := true } : Packet).typ = 0x11) := by decide +kernel

theorem witness_gatewaysAdmitPartnerPackets_edgeRead :
    (({ (({ rig with ties := { rig.ties with edges := 1 } }.puts [(R.EDG_CTL_EN 0, 1), (R.EDG_STAT_LINK_UP 0, 1), (R.EDG_PT_CFG_VALID 5, 1), (R.EDG_PT_CFG_PCTX 5, 2), (R.EDG_PT_CFG_RD_MAX 5, 4), (R.EDG_PT_STAT_STATE 5, 2), (R.EDG_PT_STAT_EPOCH 5, 1), (R.EDG_PT_RATE_BURST 5, 1000), (R.EDG_PT_RATE_RATE 5, 9), (R.EDG_PT_DIE_DIE 5, 3), (R.EDG_PT_TIME_TIMEOUT 5, 20)]).setReg (R.EDG_PT_ID_LO 5) 0x77) with edg := { (({ rig with ties := { rig.ties with edges := 1 } }.puts [(R.EDG_CTL_EN 0, 1), (R.EDG_STAT_LINK_UP 0, 1), (R.EDG_PT_CFG_VALID 5, 1), (R.EDG_PT_CFG_PCTX 5, 2), (R.EDG_PT_CFG_RD_MAX 5, 4), (R.EDG_PT_STAT_STATE 5, 2), (R.EDG_PT_STAT_EPOCH 5, 1), (R.EDG_PT_RATE_BURST 5, 1000), (R.EDG_PT_RATE_RATE 5, 9), (R.EDG_PT_DIE_DIE 5, 3), (R.EDG_PT_TIME_TIMEOUT 5, 20)]).setReg (R.EDG_PT_ID_LO 5) 0x77).edg with parts := [(5, { PartSt.idle with bucket := 100 })] } } : State).gwIn (0 : Gw) = true) ∧
    (({ (({ rig with ties := { rig.ties with edges := 1 } }.puts [(R.EDG_CTL_EN 0, 1), (R.EDG_STAT_LINK_UP 0, 1), (R.EDG_PT_CFG_VALID 5, 1), (R.EDG_PT_CFG_PCTX 5, 2), (R.EDG_PT_CFG_RD_MAX 5, 4), (R.EDG_PT_STAT_STATE 5, 2), (R.EDG_PT_STAT_EPOCH 5, 1), (R.EDG_PT_RATE_BURST 5, 1000), (R.EDG_PT_RATE_RATE 5, 9), (R.EDG_PT_DIE_DIE 5, 3), (R.EDG_PT_TIME_TIMEOUT 5, 20)]).setReg (R.EDG_PT_ID_LO 5) 0x77) with edg := { (({ rig with ties := { rig.ties with edges := 1 } }.puts [(R.EDG_CTL_EN 0, 1), (R.EDG_STAT_LINK_UP 0, 1), (R.EDG_PT_CFG_VALID 5, 1), (R.EDG_PT_CFG_PCTX 5, 2), (R.EDG_PT_CFG_RD_MAX 5, 4), (R.EDG_PT_STAT_STATE 5, 2), (R.EDG_PT_STAT_EPOCH 5, 1), (R.EDG_PT_RATE_BURST 5, 1000), (R.EDG_PT_RATE_RATE 5, 9), (R.EDG_PT_DIE_DIE 5, 3), (R.EDG_PT_TIME_TIMEOUT 5, 20)]).setReg (R.EDG_PT_ID_LO 5) 0x77).edg with parts := [(5, { PartSt.idle with bucket := 100 })] } } : State).bit (R.EDG_STAT_LINK_UP (0 : Gw)) = true) ∧
    ((({ (({ rig with ties := { rig.ties with edges := 1 } }.puts [(R.EDG_CTL_EN 0, 1), (R.EDG_STAT_LINK_UP 0, 1), (R.EDG_PT_CFG_VALID 5, 1), (R.EDG_PT_CFG_PCTX 5, 2), (R.EDG_PT_CFG_RD_MAX 5, 4), (R.EDG_PT_STAT_STATE 5, 2), (R.EDG_PT_STAT_EPOCH 5, 1), (R.EDG_PT_RATE_BURST 5, 1000), (R.EDG_PT_RATE_RATE 5, 9), (R.EDG_PT_DIE_DIE 5, 3), (R.EDG_PT_TIME_TIMEOUT 5, 20)]).setReg (R.EDG_PT_ID_LO 5) 0x77) with edg := { (({ rig with ties := { rig.ties with edges := 1 } }.puts [(R.EDG_CTL_EN 0, 1), (R.EDG_STAT_LINK_UP 0, 1), (R.EDG_PT_CFG_VALID 5, 1), (R.EDG_PT_CFG_PCTX 5, 2), (R.EDG_PT_CFG_RD_MAX 5, 4), (R.EDG_PT_STAT_STATE 5, 2), (R.EDG_PT_STAT_EPOCH 5, 1), (R.EDG_PT_RATE_BURST 5, 1000), (R.EDG_PT_RATE_RATE 5, 9), (R.EDG_PT_DIE_DIE 5, 3), (R.EDG_PT_TIME_TIMEOUT 5, 20)]).setReg (R.EDG_PT_ID_LO 5) 0x77).edg with parts := [(5, { PartSt.idle with bucket := 100 })] } } : State).gw (0 : Gw)).ins.length < 64) ∧
    (malformed ({ typ := 0x12, status := 0, len := 0, seq := 1, serial := 0x77, die := 3, gw := 0, epoch := 1, reqId := 1, addr := 0x4000, arg := 64, payload := [], beatBytes := 48, tagOk := true } : Packet) = false) ∧
    (({ (({ rig with ties := { rig.ties with edges := 1 } }.puts [(R.EDG_CTL_EN 0, 1), (R.EDG_STAT_LINK_UP 0, 1), (R.EDG_PT_CFG_VALID 5, 1), (R.EDG_PT_CFG_PCTX 5, 2), (R.EDG_PT_CFG_RD_MAX 5, 4), (R.EDG_PT_STAT_STATE 5, 2), (R.EDG_PT_STAT_EPOCH 5, 1), (R.EDG_PT_RATE_BURST 5, 1000), (R.EDG_PT_RATE_RATE 5, 9), (R.EDG_PT_DIE_DIE 5, 3), (R.EDG_PT_TIME_TIMEOUT 5, 20)]).setReg (R.EDG_PT_ID_LO 5) 0x77) with edg := { (({ rig with ties := { rig.ties with edges := 1 } }.puts [(R.EDG_CTL_EN 0, 1), (R.EDG_STAT_LINK_UP 0, 1), (R.EDG_PT_CFG_VALID 5, 1), (R.EDG_PT_CFG_PCTX 5, 2), (R.EDG_PT_CFG_RD_MAX 5, 4), (R.EDG_PT_STAT_STATE 5, 2), (R.EDG_PT_STAT_EPOCH 5, 1), (R.EDG_PT_RATE_BURST 5, 1000), (R.EDG_PT_RATE_RATE 5, 9), (R.EDG_PT_DIE_DIE 5, 3), (R.EDG_PT_TIME_TIMEOUT 5, 20)]).setReg (R.EDG_PT_ID_LO 5) 0x77).edg with parts := [(5, { PartSt.idle with bucket := 100 })] } } : State).partOf (0 : Gw) ({ typ := 0x12, status := 0, len := 0, seq := 1, serial := 0x77, die := 3, gw := 0, epoch := 1, reqId := 1, addr := 0x4000, arg := 64, payload := [], beatBytes := 48, tagOk := true } : Packet) = some (5 : Nat)) ∧
    (({ (({ rig with ties := { rig.ties with edges := 1 } }.puts [(R.EDG_CTL_EN 0, 1), (R.EDG_STAT_LINK_UP 0, 1), (R.EDG_PT_CFG_VALID 5, 1), (R.EDG_PT_CFG_PCTX 5, 2), (R.EDG_PT_CFG_RD_MAX 5, 4), (R.EDG_PT_STAT_STATE 5, 2), (R.EDG_PT_STAT_EPOCH 5, 1), (R.EDG_PT_RATE_BURST 5, 1000), (R.EDG_PT_RATE_RATE 5, 9), (R.EDG_PT_DIE_DIE 5, 3), (R.EDG_PT_TIME_TIMEOUT 5, 20)]).setReg (R.EDG_PT_ID_LO 5) 0x77) with edg := { (({ rig with ties := { rig.ties with edges := 1 } }.puts [(R.EDG_CTL_EN 0, 1), (R.EDG_STAT_LINK_UP 0, 1), (R.EDG_PT_CFG_VALID 5, 1), (R.EDG_PT_CFG_PCTX 5, 2), (R.EDG_PT_CFG_RD_MAX 5, 4), (R.EDG_PT_STAT_STATE 5, 2), (R.EDG_PT_STAT_EPOCH 5, 1), (R.EDG_PT_RATE_BURST 5, 1000), (R.EDG_PT_RATE_RATE 5, 9), (R.EDG_PT_DIE_DIE 5, 3), (R.EDG_PT_TIME_TIMEOUT 5, 20)]).setReg (R.EDG_PT_ID_LO 5) 0x77).edg with parts := [(5, { PartSt.idle with bucket := 100 })] } } : State).partState (5 : Nat) = 2) ∧
    (({ typ := 0x12, status := 0, len := 0, seq := 1, serial := 0x77, die := 3, gw := 0, epoch := 1, reqId := 1, addr := 0x4000, arg := 64, payload := [], beatBytes := 48, tagOk := true } : Packet).epoch.toNat = ({ (({ rig with ties := { rig.ties with edges := 1 } }.puts [(R.EDG_CTL_EN 0, 1), (R.EDG_STAT_LINK_UP 0, 1), (R.EDG_PT_CFG_VALID 5, 1), (R.EDG_PT_CFG_PCTX 5, 2), (R.EDG_PT_CFG_RD_MAX 5, 4), (R.EDG_PT_STAT_STATE 5, 2), (R.EDG_PT_STAT_EPOCH 5, 1), (R.EDG_PT_RATE_BURST 5, 1000), (R.EDG_PT_RATE_RATE 5, 9), (R.EDG_PT_DIE_DIE 5, 3), (R.EDG_PT_TIME_TIMEOUT 5, 20)]).setReg (R.EDG_PT_ID_LO 5) 0x77) with edg := { (({ rig with ties := { rig.ties with edges := 1 } }.puts [(R.EDG_CTL_EN 0, 1), (R.EDG_STAT_LINK_UP 0, 1), (R.EDG_PT_CFG_VALID 5, 1), (R.EDG_PT_CFG_PCTX 5, 2), (R.EDG_PT_CFG_RD_MAX 5, 4), (R.EDG_PT_STAT_STATE 5, 2), (R.EDG_PT_STAT_EPOCH 5, 1), (R.EDG_PT_RATE_BURST 5, 1000), (R.EDG_PT_RATE_RATE 5, 9), (R.EDG_PT_DIE_DIE 5, 3), (R.EDG_PT_TIME_TIMEOUT 5, 20)]).setReg (R.EDG_PT_ID_LO 5) 0x77).edg with parts := [(5, { PartSt.idle with bucket := 100 })] } } : State).f (R.EDG_PT_STAT_EPOCH (5 : Nat))) ∧
    (({ typ := 0x12, status := 0, len := 0, seq := 1, serial := 0x77, die := 3, gw := 0, epoch := 1, reqId := 1, addr := 0x4000, arg := 64, payload := [], beatBytes := 48, tagOk := true } : Packet).tagOk = true) ∧
    (({ (({ rig with ties := { rig.ties with edges := 1 } }.puts [(R.EDG_CTL_EN 0, 1), (R.EDG_STAT_LINK_UP 0, 1), (R.EDG_PT_CFG_VALID 5, 1), (R.EDG_PT_CFG_PCTX 5, 2), (R.EDG_PT_CFG_RD_MAX 5, 4), (R.EDG_PT_STAT_STATE 5, 2), (R.EDG_PT_STAT_EPOCH 5, 1), (R.EDG_PT_RATE_BURST 5, 1000), (R.EDG_PT_RATE_RATE 5, 9), (R.EDG_PT_DIE_DIE 5, 3), (R.EDG_PT_TIME_TIMEOUT 5, 20)]).setReg (R.EDG_PT_ID_LO 5) 0x77) with edg := { (({ rig with ties := { rig.ties with edges := 1 } }.puts [(R.EDG_CTL_EN 0, 1), (R.EDG_STAT_LINK_UP 0, 1), (R.EDG_PT_CFG_VALID 5, 1), (R.EDG_PT_CFG_PCTX 5, 2), (R.EDG_PT_CFG_RD_MAX 5, 4), (R.EDG_PT_STAT_STATE 5, 2), (R.EDG_PT_STAT_EPOCH 5, 1), (R.EDG_PT_RATE_BURST 5, 1000), (R.EDG_PT_RATE_RATE 5, 9), (R.EDG_PT_DIE_DIE 5, 3), (R.EDG_PT_TIME_TIMEOUT 5, 20)]).setReg (R.EDG_PT_ID_LO 5) 0x77).edg with parts := [(5, { PartSt.idle with bucket := 100 })] } } : State).pair (R.EDG_PT_RX_LO (5 : Nat)) (R.EDG_PT_RX_HI (5 : Nat)) < ({ typ := 0x12, status := 0, len := 0, seq := 1, serial := 0x77, die := 3, gw := 0, epoch := 1, reqId := 1, addr := 0x4000, arg := 64, payload := [], beatBytes := 48, tagOk := true } : Packet).seq.toNat) ∧
    ((48 + ({ typ := 0x12, status := 0, len := 0, seq := 1, serial := 0x77, die := 3, gw := 0, epoch := 1, reqId := 1, addr := 0x4000, arg := 64, payload := [], beatBytes := 48, tagOk := true } : Packet).len.toNat + 63) / 64 ≤ ((({ (({ rig with ties := { rig.ties with edges := 1 } }.puts [(R.EDG_CTL_EN 0, 1), (R.EDG_STAT_LINK_UP 0, 1), (R.EDG_PT_CFG_VALID 5, 1), (R.EDG_PT_CFG_PCTX 5, 2), (R.EDG_PT_CFG_RD_MAX 5, 4), (R.EDG_PT_STAT_STATE 5, 2), (R.EDG_PT_STAT_EPOCH 5, 1), (R.EDG_PT_RATE_BURST 5, 1000), (R.EDG_PT_RATE_RATE 5, 9), (R.EDG_PT_DIE_DIE 5, 3), (R.EDG_PT_TIME_TIMEOUT 5, 20)]).setReg (R.EDG_PT_ID_LO 5) 0x77) with edg := { (({ rig with ties := { rig.ties with edges := 1 } }.puts [(R.EDG_CTL_EN 0, 1), (R.EDG_STAT_LINK_UP 0, 1), (R.EDG_PT_CFG_VALID 5, 1), (R.EDG_PT_CFG_PCTX 5, 2), (R.EDG_PT_CFG_RD_MAX 5, 4), (R.EDG_PT_STAT_STATE 5, 2), (R.EDG_PT_STAT_EPOCH 5, 1), (R.EDG_PT_RATE_BURST 5, 1000), (R.EDG_PT_RATE_RATE 5, 9), (R.EDG_PT_DIE_DIE 5, 3), (R.EDG_PT_TIME_TIMEOUT 5, 20)]).setReg (R.EDG_PT_ID_LO 5) 0x77).edg with parts := [(5, { PartSt.idle with bucket := 100 })] } } : State).fillBucket (5 : Nat)).part (5 : Nat)).bucket) ∧
    (({ typ := 0x12, status := 0, len := 0, seq := 1, serial := 0x77, die := 3, gw := 0, epoch := 1, reqId := 1, addr := 0x4000, arg := 64, payload := [], beatBytes := 48, tagOk := true } : Packet).typ = 0x12) ∧
    (((({ (({ rig with ties := { rig.ties with edges := 1 } }.puts [(R.EDG_CTL_EN 0, 1), (R.EDG_STAT_LINK_UP 0, 1), (R.EDG_PT_CFG_VALID 5, 1), (R.EDG_PT_CFG_PCTX 5, 2), (R.EDG_PT_CFG_RD_MAX 5, 4), (R.EDG_PT_STAT_STATE 5, 2), (R.EDG_PT_STAT_EPOCH 5, 1), (R.EDG_PT_RATE_BURST 5, 1000), (R.EDG_PT_RATE_RATE 5, 9), (R.EDG_PT_DIE_DIE 5, 3), (R.EDG_PT_TIME_TIMEOUT 5, 20)]).setReg (R.EDG_PT_ID_LO 5) 0x77) with edg := { (({ rig with ties := { rig.ties with edges := 1 } }.puts [(R.EDG_CTL_EN 0, 1), (R.EDG_STAT_LINK_UP 0, 1), (R.EDG_PT_CFG_VALID 5, 1), (R.EDG_PT_CFG_PCTX 5, 2), (R.EDG_PT_CFG_RD_MAX 5, 4), (R.EDG_PT_STAT_STATE 5, 2), (R.EDG_PT_STAT_EPOCH 5, 1), (R.EDG_PT_RATE_BURST 5, 1000), (R.EDG_PT_RATE_RATE 5, 9), (R.EDG_PT_DIE_DIE 5, 3), (R.EDG_PT_TIME_TIMEOUT 5, 20)]).setReg (R.EDG_PT_ID_LO 5) 0x77).edg with parts := [(5, { PartSt.idle with bucket := 100 })] } } : State).gw (0 : Gw)).ins.filter (fun a => decide (a.part = (5 : Nat)) && decide (a.typ = 0x12))).length < ({ (({ rig with ties := { rig.ties with edges := 1 } }.puts [(R.EDG_CTL_EN 0, 1), (R.EDG_STAT_LINK_UP 0, 1), (R.EDG_PT_CFG_VALID 5, 1), (R.EDG_PT_CFG_PCTX 5, 2), (R.EDG_PT_CFG_RD_MAX 5, 4), (R.EDG_PT_STAT_STATE 5, 2), (R.EDG_PT_STAT_EPOCH 5, 1), (R.EDG_PT_RATE_BURST 5, 1000), (R.EDG_PT_RATE_RATE 5, 9), (R.EDG_PT_DIE_DIE 5, 3), (R.EDG_PT_TIME_TIMEOUT 5, 20)]).setReg (R.EDG_PT_ID_LO 5) 0x77) with edg := { (({ rig with ties := { rig.ties with edges := 1 } }.puts [(R.EDG_CTL_EN 0, 1), (R.EDG_STAT_LINK_UP 0, 1), (R.EDG_PT_CFG_VALID 5, 1), (R.EDG_PT_CFG_PCTX 5, 2), (R.EDG_PT_CFG_RD_MAX 5, 4), (R.EDG_PT_STAT_STATE 5, 2), (R.EDG_PT_STAT_EPOCH 5, 1), (R.EDG_PT_RATE_BURST 5, 1000), (R.EDG_PT_RATE_RATE 5, 9), (R.EDG_PT_DIE_DIE 5, 3), (R.EDG_PT_TIME_TIMEOUT 5, 20)]).setReg (R.EDG_PT_ID_LO 5) 0x77).edg with parts := [(5, { PartSt.idle with bucket := 100 })] } } : State).f (R.EDG_PT_CFG_RD_MAX (5 : Nat))) := by decide +kernel

theorem witness_gatewaysAdmitPartnerPackets_edgeAck :
    (({ (({ rig with ties := { rig.ties with edges := 1 } }.puts [(R.EDG_CTL_EN 0, 1), (R.EDG_STAT_LINK_UP 0, 1), (R.EDG_PT_CFG_VALID 5, 1), (R.EDG_PT_CFG_PCTX 5, 2), (R.EDG_PT_CFG_RD_MAX 5, 4), (R.EDG_PT_STAT_STATE 5, 2), (R.EDG_PT_STAT_EPOCH 5, 1), (R.EDG_PT_RATE_BURST 5, 1000), (R.EDG_PT_RATE_RATE 5, 9), (R.EDG_PT_DIE_DIE 5, 3), (R.EDG_PT_TIME_TIMEOUT 5, 20)]).setReg (R.EDG_PT_ID_LO 5) 0x77) with edg := { (({ rig with ties := { rig.ties with edges := 1 } }.puts [(R.EDG_CTL_EN 0, 1), (R.EDG_STAT_LINK_UP 0, 1), (R.EDG_PT_CFG_VALID 5, 1), (R.EDG_PT_CFG_PCTX 5, 2), (R.EDG_PT_CFG_RD_MAX 5, 4), (R.EDG_PT_STAT_STATE 5, 2), (R.EDG_PT_STAT_EPOCH 5, 1), (R.EDG_PT_RATE_BURST 5, 1000), (R.EDG_PT_RATE_RATE 5, 9), (R.EDG_PT_DIE_DIE 5, 3), (R.EDG_PT_TIME_TIMEOUT 5, 20)]).setReg (R.EDG_PT_ID_LO 5) 0x77).edg with parts := [(5, { PartSt.idle with bucket := 100 })] } } : State).gwIn (0 : Gw) = true) ∧
    (({ (({ rig with ties := { rig.ties with edges := 1 } }.puts [(R.EDG_CTL_EN 0, 1), (R.EDG_STAT_LINK_UP 0, 1), (R.EDG_PT_CFG_VALID 5, 1), (R.EDG_PT_CFG_PCTX 5, 2), (R.EDG_PT_CFG_RD_MAX 5, 4), (R.EDG_PT_STAT_STATE 5, 2), (R.EDG_PT_STAT_EPOCH 5, 1), (R.EDG_PT_RATE_BURST 5, 1000), (R.EDG_PT_RATE_RATE 5, 9), (R.EDG_PT_DIE_DIE 5, 3), (R.EDG_PT_TIME_TIMEOUT 5, 20)]).setReg (R.EDG_PT_ID_LO 5) 0x77) with edg := { (({ rig with ties := { rig.ties with edges := 1 } }.puts [(R.EDG_CTL_EN 0, 1), (R.EDG_STAT_LINK_UP 0, 1), (R.EDG_PT_CFG_VALID 5, 1), (R.EDG_PT_CFG_PCTX 5, 2), (R.EDG_PT_CFG_RD_MAX 5, 4), (R.EDG_PT_STAT_STATE 5, 2), (R.EDG_PT_STAT_EPOCH 5, 1), (R.EDG_PT_RATE_BURST 5, 1000), (R.EDG_PT_RATE_RATE 5, 9), (R.EDG_PT_DIE_DIE 5, 3), (R.EDG_PT_TIME_TIMEOUT 5, 20)]).setReg (R.EDG_PT_ID_LO 5) 0x77).edg with parts := [(5, { PartSt.idle with bucket := 100 })] } } : State).bit (R.EDG_STAT_LINK_UP (0 : Gw)) = true) ∧
    ((({ (({ rig with ties := { rig.ties with edges := 1 } }.puts [(R.EDG_CTL_EN 0, 1), (R.EDG_STAT_LINK_UP 0, 1), (R.EDG_PT_CFG_VALID 5, 1), (R.EDG_PT_CFG_PCTX 5, 2), (R.EDG_PT_CFG_RD_MAX 5, 4), (R.EDG_PT_STAT_STATE 5, 2), (R.EDG_PT_STAT_EPOCH 5, 1), (R.EDG_PT_RATE_BURST 5, 1000), (R.EDG_PT_RATE_RATE 5, 9), (R.EDG_PT_DIE_DIE 5, 3), (R.EDG_PT_TIME_TIMEOUT 5, 20)]).setReg (R.EDG_PT_ID_LO 5) 0x77) with edg := { (({ rig with ties := { rig.ties with edges := 1 } }.puts [(R.EDG_CTL_EN 0, 1), (R.EDG_STAT_LINK_UP 0, 1), (R.EDG_PT_CFG_VALID 5, 1), (R.EDG_PT_CFG_PCTX 5, 2), (R.EDG_PT_CFG_RD_MAX 5, 4), (R.EDG_PT_STAT_STATE 5, 2), (R.EDG_PT_STAT_EPOCH 5, 1), (R.EDG_PT_RATE_BURST 5, 1000), (R.EDG_PT_RATE_RATE 5, 9), (R.EDG_PT_DIE_DIE 5, 3), (R.EDG_PT_TIME_TIMEOUT 5, 20)]).setReg (R.EDG_PT_ID_LO 5) 0x77).edg with parts := [(5, { PartSt.idle with bucket := 100 })] } } : State).gw (0 : Gw)).ins.length < 64) ∧
    (malformed ({ typ := 0x20, status := 0, len := 0, seq := 1, serial := 0x77, die := 3, gw := 0, epoch := 1, reqId := 1, addr := 0x4000, arg := 0, payload := [], beatBytes := 48, tagOk := true } : Packet) = false) ∧
    (({ (({ rig with ties := { rig.ties with edges := 1 } }.puts [(R.EDG_CTL_EN 0, 1), (R.EDG_STAT_LINK_UP 0, 1), (R.EDG_PT_CFG_VALID 5, 1), (R.EDG_PT_CFG_PCTX 5, 2), (R.EDG_PT_CFG_RD_MAX 5, 4), (R.EDG_PT_STAT_STATE 5, 2), (R.EDG_PT_STAT_EPOCH 5, 1), (R.EDG_PT_RATE_BURST 5, 1000), (R.EDG_PT_RATE_RATE 5, 9), (R.EDG_PT_DIE_DIE 5, 3), (R.EDG_PT_TIME_TIMEOUT 5, 20)]).setReg (R.EDG_PT_ID_LO 5) 0x77) with edg := { (({ rig with ties := { rig.ties with edges := 1 } }.puts [(R.EDG_CTL_EN 0, 1), (R.EDG_STAT_LINK_UP 0, 1), (R.EDG_PT_CFG_VALID 5, 1), (R.EDG_PT_CFG_PCTX 5, 2), (R.EDG_PT_CFG_RD_MAX 5, 4), (R.EDG_PT_STAT_STATE 5, 2), (R.EDG_PT_STAT_EPOCH 5, 1), (R.EDG_PT_RATE_BURST 5, 1000), (R.EDG_PT_RATE_RATE 5, 9), (R.EDG_PT_DIE_DIE 5, 3), (R.EDG_PT_TIME_TIMEOUT 5, 20)]).setReg (R.EDG_PT_ID_LO 5) 0x77).edg with parts := [(5, { PartSt.idle with bucket := 100 })] } } : State).partOf (0 : Gw) ({ typ := 0x20, status := 0, len := 0, seq := 1, serial := 0x77, die := 3, gw := 0, epoch := 1, reqId := 1, addr := 0x4000, arg := 0, payload := [], beatBytes := 48, tagOk := true } : Packet) = some (5 : Nat)) ∧
    (({ (({ rig with ties := { rig.ties with edges := 1 } }.puts [(R.EDG_CTL_EN 0, 1), (R.EDG_STAT_LINK_UP 0, 1), (R.EDG_PT_CFG_VALID 5, 1), (R.EDG_PT_CFG_PCTX 5, 2), (R.EDG_PT_CFG_RD_MAX 5, 4), (R.EDG_PT_STAT_STATE 5, 2), (R.EDG_PT_STAT_EPOCH 5, 1), (R.EDG_PT_RATE_BURST 5, 1000), (R.EDG_PT_RATE_RATE 5, 9), (R.EDG_PT_DIE_DIE 5, 3), (R.EDG_PT_TIME_TIMEOUT 5, 20)]).setReg (R.EDG_PT_ID_LO 5) 0x77) with edg := { (({ rig with ties := { rig.ties with edges := 1 } }.puts [(R.EDG_CTL_EN 0, 1), (R.EDG_STAT_LINK_UP 0, 1), (R.EDG_PT_CFG_VALID 5, 1), (R.EDG_PT_CFG_PCTX 5, 2), (R.EDG_PT_CFG_RD_MAX 5, 4), (R.EDG_PT_STAT_STATE 5, 2), (R.EDG_PT_STAT_EPOCH 5, 1), (R.EDG_PT_RATE_BURST 5, 1000), (R.EDG_PT_RATE_RATE 5, 9), (R.EDG_PT_DIE_DIE 5, 3), (R.EDG_PT_TIME_TIMEOUT 5, 20)]).setReg (R.EDG_PT_ID_LO 5) 0x77).edg with parts := [(5, { PartSt.idle with bucket := 100 })] } } : State).partState (5 : Nat) = 2) ∧
    (({ typ := 0x20, status := 0, len := 0, seq := 1, serial := 0x77, die := 3, gw := 0, epoch := 1, reqId := 1, addr := 0x4000, arg := 0, payload := [], beatBytes := 48, tagOk := true } : Packet).epoch.toNat = ({ (({ rig with ties := { rig.ties with edges := 1 } }.puts [(R.EDG_CTL_EN 0, 1), (R.EDG_STAT_LINK_UP 0, 1), (R.EDG_PT_CFG_VALID 5, 1), (R.EDG_PT_CFG_PCTX 5, 2), (R.EDG_PT_CFG_RD_MAX 5, 4), (R.EDG_PT_STAT_STATE 5, 2), (R.EDG_PT_STAT_EPOCH 5, 1), (R.EDG_PT_RATE_BURST 5, 1000), (R.EDG_PT_RATE_RATE 5, 9), (R.EDG_PT_DIE_DIE 5, 3), (R.EDG_PT_TIME_TIMEOUT 5, 20)]).setReg (R.EDG_PT_ID_LO 5) 0x77) with edg := { (({ rig with ties := { rig.ties with edges := 1 } }.puts [(R.EDG_CTL_EN 0, 1), (R.EDG_STAT_LINK_UP 0, 1), (R.EDG_PT_CFG_VALID 5, 1), (R.EDG_PT_CFG_PCTX 5, 2), (R.EDG_PT_CFG_RD_MAX 5, 4), (R.EDG_PT_STAT_STATE 5, 2), (R.EDG_PT_STAT_EPOCH 5, 1), (R.EDG_PT_RATE_BURST 5, 1000), (R.EDG_PT_RATE_RATE 5, 9), (R.EDG_PT_DIE_DIE 5, 3), (R.EDG_PT_TIME_TIMEOUT 5, 20)]).setReg (R.EDG_PT_ID_LO 5) 0x77).edg with parts := [(5, { PartSt.idle with bucket := 100 })] } } : State).f (R.EDG_PT_STAT_EPOCH (5 : Nat))) ∧
    (({ typ := 0x20, status := 0, len := 0, seq := 1, serial := 0x77, die := 3, gw := 0, epoch := 1, reqId := 1, addr := 0x4000, arg := 0, payload := [], beatBytes := 48, tagOk := true } : Packet).tagOk = true) ∧
    (({ (({ rig with ties := { rig.ties with edges := 1 } }.puts [(R.EDG_CTL_EN 0, 1), (R.EDG_STAT_LINK_UP 0, 1), (R.EDG_PT_CFG_VALID 5, 1), (R.EDG_PT_CFG_PCTX 5, 2), (R.EDG_PT_CFG_RD_MAX 5, 4), (R.EDG_PT_STAT_STATE 5, 2), (R.EDG_PT_STAT_EPOCH 5, 1), (R.EDG_PT_RATE_BURST 5, 1000), (R.EDG_PT_RATE_RATE 5, 9), (R.EDG_PT_DIE_DIE 5, 3), (R.EDG_PT_TIME_TIMEOUT 5, 20)]).setReg (R.EDG_PT_ID_LO 5) 0x77) with edg := { (({ rig with ties := { rig.ties with edges := 1 } }.puts [(R.EDG_CTL_EN 0, 1), (R.EDG_STAT_LINK_UP 0, 1), (R.EDG_PT_CFG_VALID 5, 1), (R.EDG_PT_CFG_PCTX 5, 2), (R.EDG_PT_CFG_RD_MAX 5, 4), (R.EDG_PT_STAT_STATE 5, 2), (R.EDG_PT_STAT_EPOCH 5, 1), (R.EDG_PT_RATE_BURST 5, 1000), (R.EDG_PT_RATE_RATE 5, 9), (R.EDG_PT_DIE_DIE 5, 3), (R.EDG_PT_TIME_TIMEOUT 5, 20)]).setReg (R.EDG_PT_ID_LO 5) 0x77).edg with parts := [(5, { PartSt.idle with bucket := 100 })] } } : State).pair (R.EDG_PT_RX_LO (5 : Nat)) (R.EDG_PT_RX_HI (5 : Nat)) < ({ typ := 0x20, status := 0, len := 0, seq := 1, serial := 0x77, die := 3, gw := 0, epoch := 1, reqId := 1, addr := 0x4000, arg := 0, payload := [], beatBytes := 48, tagOk := true } : Packet).seq.toNat) ∧
    ((48 + ({ typ := 0x20, status := 0, len := 0, seq := 1, serial := 0x77, die := 3, gw := 0, epoch := 1, reqId := 1, addr := 0x4000, arg := 0, payload := [], beatBytes := 48, tagOk := true } : Packet).len.toNat + 63) / 64 ≤ ((({ (({ rig with ties := { rig.ties with edges := 1 } }.puts [(R.EDG_CTL_EN 0, 1), (R.EDG_STAT_LINK_UP 0, 1), (R.EDG_PT_CFG_VALID 5, 1), (R.EDG_PT_CFG_PCTX 5, 2), (R.EDG_PT_CFG_RD_MAX 5, 4), (R.EDG_PT_STAT_STATE 5, 2), (R.EDG_PT_STAT_EPOCH 5, 1), (R.EDG_PT_RATE_BURST 5, 1000), (R.EDG_PT_RATE_RATE 5, 9), (R.EDG_PT_DIE_DIE 5, 3), (R.EDG_PT_TIME_TIMEOUT 5, 20)]).setReg (R.EDG_PT_ID_LO 5) 0x77) with edg := { (({ rig with ties := { rig.ties with edges := 1 } }.puts [(R.EDG_CTL_EN 0, 1), (R.EDG_STAT_LINK_UP 0, 1), (R.EDG_PT_CFG_VALID 5, 1), (R.EDG_PT_CFG_PCTX 5, 2), (R.EDG_PT_CFG_RD_MAX 5, 4), (R.EDG_PT_STAT_STATE 5, 2), (R.EDG_PT_STAT_EPOCH 5, 1), (R.EDG_PT_RATE_BURST 5, 1000), (R.EDG_PT_RATE_RATE 5, 9), (R.EDG_PT_DIE_DIE 5, 3), (R.EDG_PT_TIME_TIMEOUT 5, 20)]).setReg (R.EDG_PT_ID_LO 5) 0x77).edg with parts := [(5, { PartSt.idle with bucket := 100 })] } } : State).fillBucket (5 : Nat)).part (5 : Nat)).bucket) ∧
    (({ typ := 0x20, status := 0, len := 0, seq := 1, serial := 0x77, die := 3, gw := 0, epoch := 1, reqId := 1, addr := 0x4000, arg := 0, payload := [], beatBytes := 48, tagOk := true } : Packet).typ = 0x20) := by decide +kernel

theorem witness_gatewaysAdmitPartnerPackets_edgeReadRsp :
    (({ (({ rig with ties := { rig.ties with edges := 1 } }.puts [(R.EDG_CTL_EN 0, 1), (R.EDG_STAT_LINK_UP 0, 1), (R.EDG_PT_CFG_VALID 5, 1), (R.EDG_PT_CFG_PCTX 5, 2), (R.EDG_PT_CFG_RD_MAX 5, 4), (R.EDG_PT_STAT_STATE 5, 2), (R.EDG_PT_STAT_EPOCH 5, 1), (R.EDG_PT_RATE_BURST 5, 1000), (R.EDG_PT_RATE_RATE 5, 9), (R.EDG_PT_DIE_DIE 5, 3), (R.EDG_PT_TIME_TIMEOUT 5, 20)]).setReg (R.EDG_PT_ID_LO 5) 0x77) with edg := { (({ rig with ties := { rig.ties with edges := 1 } }.puts [(R.EDG_CTL_EN 0, 1), (R.EDG_STAT_LINK_UP 0, 1), (R.EDG_PT_CFG_VALID 5, 1), (R.EDG_PT_CFG_PCTX 5, 2), (R.EDG_PT_CFG_RD_MAX 5, 4), (R.EDG_PT_STAT_STATE 5, 2), (R.EDG_PT_STAT_EPOCH 5, 1), (R.EDG_PT_RATE_BURST 5, 1000), (R.EDG_PT_RATE_RATE 5, 9), (R.EDG_PT_DIE_DIE 5, 3), (R.EDG_PT_TIME_TIMEOUT 5, 20)]).setReg (R.EDG_PT_ID_LO 5) 0x77).edg with parts := [(5, { PartSt.idle with bucket := 100 })] } } : State).gwIn (0 : Gw) = true) ∧
    (({ (({ rig with ties := { rig.ties with edges := 1 } }.puts [(R.EDG_CTL_EN 0, 1), (R.EDG_STAT_LINK_UP 0, 1), (R.EDG_PT_CFG_VALID 5, 1), (R.EDG_PT_CFG_PCTX 5, 2), (R.EDG_PT_CFG_RD_MAX 5, 4), (R.EDG_PT_STAT_STATE 5, 2), (R.EDG_PT_STAT_EPOCH 5, 1), (R.EDG_PT_RATE_BURST 5, 1000), (R.EDG_PT_RATE_RATE 5, 9), (R.EDG_PT_DIE_DIE 5, 3), (R.EDG_PT_TIME_TIMEOUT 5, 20)]).setReg (R.EDG_PT_ID_LO 5) 0x77) with edg := { (({ rig with ties := { rig.ties with edges := 1 } }.puts [(R.EDG_CTL_EN 0, 1), (R.EDG_STAT_LINK_UP 0, 1), (R.EDG_PT_CFG_VALID 5, 1), (R.EDG_PT_CFG_PCTX 5, 2), (R.EDG_PT_CFG_RD_MAX 5, 4), (R.EDG_PT_STAT_STATE 5, 2), (R.EDG_PT_STAT_EPOCH 5, 1), (R.EDG_PT_RATE_BURST 5, 1000), (R.EDG_PT_RATE_RATE 5, 9), (R.EDG_PT_DIE_DIE 5, 3), (R.EDG_PT_TIME_TIMEOUT 5, 20)]).setReg (R.EDG_PT_ID_LO 5) 0x77).edg with parts := [(5, { PartSt.idle with bucket := 100 })] } } : State).bit (R.EDG_STAT_LINK_UP (0 : Gw)) = true) ∧
    ((({ (({ rig with ties := { rig.ties with edges := 1 } }.puts [(R.EDG_CTL_EN 0, 1), (R.EDG_STAT_LINK_UP 0, 1), (R.EDG_PT_CFG_VALID 5, 1), (R.EDG_PT_CFG_PCTX 5, 2), (R.EDG_PT_CFG_RD_MAX 5, 4), (R.EDG_PT_STAT_STATE 5, 2), (R.EDG_PT_STAT_EPOCH 5, 1), (R.EDG_PT_RATE_BURST 5, 1000), (R.EDG_PT_RATE_RATE 5, 9), (R.EDG_PT_DIE_DIE 5, 3), (R.EDG_PT_TIME_TIMEOUT 5, 20)]).setReg (R.EDG_PT_ID_LO 5) 0x77) with edg := { (({ rig with ties := { rig.ties with edges := 1 } }.puts [(R.EDG_CTL_EN 0, 1), (R.EDG_STAT_LINK_UP 0, 1), (R.EDG_PT_CFG_VALID 5, 1), (R.EDG_PT_CFG_PCTX 5, 2), (R.EDG_PT_CFG_RD_MAX 5, 4), (R.EDG_PT_STAT_STATE 5, 2), (R.EDG_PT_STAT_EPOCH 5, 1), (R.EDG_PT_RATE_BURST 5, 1000), (R.EDG_PT_RATE_RATE 5, 9), (R.EDG_PT_DIE_DIE 5, 3), (R.EDG_PT_TIME_TIMEOUT 5, 20)]).setReg (R.EDG_PT_ID_LO 5) 0x77).edg with parts := [(5, { PartSt.idle with bucket := 100 })] } } : State).gw (0 : Gw)).ins.length < 64) ∧
    (malformed ({ typ := 0x21, status := 0, len := 4, seq := 1, serial := 0x77, die := 3, gw := 0, epoch := 1, reqId := 1, addr := 0x4000, arg := 0, payload := [1, 2, 3, 4], beatBytes := 52, tagOk := true } : Packet) = false) ∧
    (({ (({ rig with ties := { rig.ties with edges := 1 } }.puts [(R.EDG_CTL_EN 0, 1), (R.EDG_STAT_LINK_UP 0, 1), (R.EDG_PT_CFG_VALID 5, 1), (R.EDG_PT_CFG_PCTX 5, 2), (R.EDG_PT_CFG_RD_MAX 5, 4), (R.EDG_PT_STAT_STATE 5, 2), (R.EDG_PT_STAT_EPOCH 5, 1), (R.EDG_PT_RATE_BURST 5, 1000), (R.EDG_PT_RATE_RATE 5, 9), (R.EDG_PT_DIE_DIE 5, 3), (R.EDG_PT_TIME_TIMEOUT 5, 20)]).setReg (R.EDG_PT_ID_LO 5) 0x77) with edg := { (({ rig with ties := { rig.ties with edges := 1 } }.puts [(R.EDG_CTL_EN 0, 1), (R.EDG_STAT_LINK_UP 0, 1), (R.EDG_PT_CFG_VALID 5, 1), (R.EDG_PT_CFG_PCTX 5, 2), (R.EDG_PT_CFG_RD_MAX 5, 4), (R.EDG_PT_STAT_STATE 5, 2), (R.EDG_PT_STAT_EPOCH 5, 1), (R.EDG_PT_RATE_BURST 5, 1000), (R.EDG_PT_RATE_RATE 5, 9), (R.EDG_PT_DIE_DIE 5, 3), (R.EDG_PT_TIME_TIMEOUT 5, 20)]).setReg (R.EDG_PT_ID_LO 5) 0x77).edg with parts := [(5, { PartSt.idle with bucket := 100 })] } } : State).partOf (0 : Gw) ({ typ := 0x21, status := 0, len := 4, seq := 1, serial := 0x77, die := 3, gw := 0, epoch := 1, reqId := 1, addr := 0x4000, arg := 0, payload := [1, 2, 3, 4], beatBytes := 52, tagOk := true } : Packet) = some (5 : Nat)) ∧
    (({ (({ rig with ties := { rig.ties with edges := 1 } }.puts [(R.EDG_CTL_EN 0, 1), (R.EDG_STAT_LINK_UP 0, 1), (R.EDG_PT_CFG_VALID 5, 1), (R.EDG_PT_CFG_PCTX 5, 2), (R.EDG_PT_CFG_RD_MAX 5, 4), (R.EDG_PT_STAT_STATE 5, 2), (R.EDG_PT_STAT_EPOCH 5, 1), (R.EDG_PT_RATE_BURST 5, 1000), (R.EDG_PT_RATE_RATE 5, 9), (R.EDG_PT_DIE_DIE 5, 3), (R.EDG_PT_TIME_TIMEOUT 5, 20)]).setReg (R.EDG_PT_ID_LO 5) 0x77) with edg := { (({ rig with ties := { rig.ties with edges := 1 } }.puts [(R.EDG_CTL_EN 0, 1), (R.EDG_STAT_LINK_UP 0, 1), (R.EDG_PT_CFG_VALID 5, 1), (R.EDG_PT_CFG_PCTX 5, 2), (R.EDG_PT_CFG_RD_MAX 5, 4), (R.EDG_PT_STAT_STATE 5, 2), (R.EDG_PT_STAT_EPOCH 5, 1), (R.EDG_PT_RATE_BURST 5, 1000), (R.EDG_PT_RATE_RATE 5, 9), (R.EDG_PT_DIE_DIE 5, 3), (R.EDG_PT_TIME_TIMEOUT 5, 20)]).setReg (R.EDG_PT_ID_LO 5) 0x77).edg with parts := [(5, { PartSt.idle with bucket := 100 })] } } : State).partState (5 : Nat) = 2) ∧
    (({ typ := 0x21, status := 0, len := 4, seq := 1, serial := 0x77, die := 3, gw := 0, epoch := 1, reqId := 1, addr := 0x4000, arg := 0, payload := [1, 2, 3, 4], beatBytes := 52, tagOk := true } : Packet).epoch.toNat = ({ (({ rig with ties := { rig.ties with edges := 1 } }.puts [(R.EDG_CTL_EN 0, 1), (R.EDG_STAT_LINK_UP 0, 1), (R.EDG_PT_CFG_VALID 5, 1), (R.EDG_PT_CFG_PCTX 5, 2), (R.EDG_PT_CFG_RD_MAX 5, 4), (R.EDG_PT_STAT_STATE 5, 2), (R.EDG_PT_STAT_EPOCH 5, 1), (R.EDG_PT_RATE_BURST 5, 1000), (R.EDG_PT_RATE_RATE 5, 9), (R.EDG_PT_DIE_DIE 5, 3), (R.EDG_PT_TIME_TIMEOUT 5, 20)]).setReg (R.EDG_PT_ID_LO 5) 0x77) with edg := { (({ rig with ties := { rig.ties with edges := 1 } }.puts [(R.EDG_CTL_EN 0, 1), (R.EDG_STAT_LINK_UP 0, 1), (R.EDG_PT_CFG_VALID 5, 1), (R.EDG_PT_CFG_PCTX 5, 2), (R.EDG_PT_CFG_RD_MAX 5, 4), (R.EDG_PT_STAT_STATE 5, 2), (R.EDG_PT_STAT_EPOCH 5, 1), (R.EDG_PT_RATE_BURST 5, 1000), (R.EDG_PT_RATE_RATE 5, 9), (R.EDG_PT_DIE_DIE 5, 3), (R.EDG_PT_TIME_TIMEOUT 5, 20)]).setReg (R.EDG_PT_ID_LO 5) 0x77).edg with parts := [(5, { PartSt.idle with bucket := 100 })] } } : State).f (R.EDG_PT_STAT_EPOCH (5 : Nat))) ∧
    (({ typ := 0x21, status := 0, len := 4, seq := 1, serial := 0x77, die := 3, gw := 0, epoch := 1, reqId := 1, addr := 0x4000, arg := 0, payload := [1, 2, 3, 4], beatBytes := 52, tagOk := true } : Packet).tagOk = true) ∧
    (({ (({ rig with ties := { rig.ties with edges := 1 } }.puts [(R.EDG_CTL_EN 0, 1), (R.EDG_STAT_LINK_UP 0, 1), (R.EDG_PT_CFG_VALID 5, 1), (R.EDG_PT_CFG_PCTX 5, 2), (R.EDG_PT_CFG_RD_MAX 5, 4), (R.EDG_PT_STAT_STATE 5, 2), (R.EDG_PT_STAT_EPOCH 5, 1), (R.EDG_PT_RATE_BURST 5, 1000), (R.EDG_PT_RATE_RATE 5, 9), (R.EDG_PT_DIE_DIE 5, 3), (R.EDG_PT_TIME_TIMEOUT 5, 20)]).setReg (R.EDG_PT_ID_LO 5) 0x77) with edg := { (({ rig with ties := { rig.ties with edges := 1 } }.puts [(R.EDG_CTL_EN 0, 1), (R.EDG_STAT_LINK_UP 0, 1), (R.EDG_PT_CFG_VALID 5, 1), (R.EDG_PT_CFG_PCTX 5, 2), (R.EDG_PT_CFG_RD_MAX 5, 4), (R.EDG_PT_STAT_STATE 5, 2), (R.EDG_PT_STAT_EPOCH 5, 1), (R.EDG_PT_RATE_BURST 5, 1000), (R.EDG_PT_RATE_RATE 5, 9), (R.EDG_PT_DIE_DIE 5, 3), (R.EDG_PT_TIME_TIMEOUT 5, 20)]).setReg (R.EDG_PT_ID_LO 5) 0x77).edg with parts := [(5, { PartSt.idle with bucket := 100 })] } } : State).pair (R.EDG_PT_RX_LO (5 : Nat)) (R.EDG_PT_RX_HI (5 : Nat)) < ({ typ := 0x21, status := 0, len := 4, seq := 1, serial := 0x77, die := 3, gw := 0, epoch := 1, reqId := 1, addr := 0x4000, arg := 0, payload := [1, 2, 3, 4], beatBytes := 52, tagOk := true } : Packet).seq.toNat) ∧
    ((48 + ({ typ := 0x21, status := 0, len := 4, seq := 1, serial := 0x77, die := 3, gw := 0, epoch := 1, reqId := 1, addr := 0x4000, arg := 0, payload := [1, 2, 3, 4], beatBytes := 52, tagOk := true } : Packet).len.toNat + 63) / 64 ≤ ((({ (({ rig with ties := { rig.ties with edges := 1 } }.puts [(R.EDG_CTL_EN 0, 1), (R.EDG_STAT_LINK_UP 0, 1), (R.EDG_PT_CFG_VALID 5, 1), (R.EDG_PT_CFG_PCTX 5, 2), (R.EDG_PT_CFG_RD_MAX 5, 4), (R.EDG_PT_STAT_STATE 5, 2), (R.EDG_PT_STAT_EPOCH 5, 1), (R.EDG_PT_RATE_BURST 5, 1000), (R.EDG_PT_RATE_RATE 5, 9), (R.EDG_PT_DIE_DIE 5, 3), (R.EDG_PT_TIME_TIMEOUT 5, 20)]).setReg (R.EDG_PT_ID_LO 5) 0x77) with edg := { (({ rig with ties := { rig.ties with edges := 1 } }.puts [(R.EDG_CTL_EN 0, 1), (R.EDG_STAT_LINK_UP 0, 1), (R.EDG_PT_CFG_VALID 5, 1), (R.EDG_PT_CFG_PCTX 5, 2), (R.EDG_PT_CFG_RD_MAX 5, 4), (R.EDG_PT_STAT_STATE 5, 2), (R.EDG_PT_STAT_EPOCH 5, 1), (R.EDG_PT_RATE_BURST 5, 1000), (R.EDG_PT_RATE_RATE 5, 9), (R.EDG_PT_DIE_DIE 5, 3), (R.EDG_PT_TIME_TIMEOUT 5, 20)]).setReg (R.EDG_PT_ID_LO 5) 0x77).edg with parts := [(5, { PartSt.idle with bucket := 100 })] } } : State).fillBucket (5 : Nat)).part (5 : Nat)).bucket) ∧
    (({ typ := 0x21, status := 0, len := 4, seq := 1, serial := 0x77, die := 3, gw := 0, epoch := 1, reqId := 1, addr := 0x4000, arg := 0, payload := [1, 2, 3, 4], beatBytes := 52, tagOk := true } : Packet).typ = 0x21) := by decide +kernel

theorem witness_gatewaysAdmitPartnerPackets_edgeHello_admitted :
    ((5 : Nat) < 64) ∧
    ((((({ rig with ties := { rig.ties with edges := 1 } }.puts [(R.EDG_CTL_EN 0, 1), (R.EDG_STAT_LINK_UP 0, 1), (R.EDG_PT_CFG_VALID 5, 1), (R.EDG_PT_CFG_PCTX 5, 2), (R.EDG_PT_CFG_RD_MAX 5, 4), (R.EDG_PT_STAT_STATE 5, 1), (R.EDG_PT_STAT_EPOCH 5, 1), (R.EDG_PT_RATE_BURST 5, 1000), (R.EDG_PT_RATE_RATE 5, 9), (R.EDG_PT_DIE_DIE 5, 3), (R.EDG_PT_TIME_TIMEOUT 5, 20)]).setReg (R.EDG_PT_ID_LO 5) 0x77).put R.HLM_HLM_STAT_VALID 1) : State).partState (5 : Nat) = 1) ∧
    ((((({ rig with ties := { rig.ties with edges := 1 } }.puts [(R.EDG_CTL_EN 0, 1), (R.EDG_STAT_LINK_UP 0, 1), (R.EDG_PT_CFG_VALID 5, 1), (R.EDG_PT_CFG_PCTX 5, 2), (R.EDG_PT_CFG_RD_MAX 5, 4), (R.EDG_PT_STAT_STATE 5, 1), (R.EDG_PT_STAT_EPOCH 5, 1), (R.EDG_PT_RATE_BURST 5, 1000), (R.EDG_PT_RATE_RATE 5, 9), (R.EDG_PT_DIE_DIE 5, 3), (R.EDG_PT_TIME_TIMEOUT 5, 20)]).setReg (R.EDG_PT_ID_LO 5) 0x77).put R.HLM_HLM_STAT_VALID 1) : State).bit R.HLM_HLM_STAT_VALID = true) ∧
    (({ typ := 1, status := 0, len := 64, seq := 1, serial := 0x77, die := 3, gw := 0, epoch := 1, reqId := 1, addr := 0x4000, arg := 0, payload := List.replicate 64 0, beatBytes := 112, tagOk := true } : Packet).payload.take 48 = (List.range 12).flatMap (fun j => leBytes 4 ((((({ rig with ties := { rig.ties with edges := 1 } }.puts [(R.EDG_CTL_EN 0, 1), (R.EDG_STAT_LINK_UP 0, 1), (R.EDG_PT_CFG_VALID 5, 1), (R.EDG_PT_CFG_PCTX 5, 2), (R.EDG_PT_CFG_RD_MAX 5, 4), (R.EDG_PT_STAT_STATE 5, 1), (R.EDG_PT_STAT_EPOCH 5, 1), (R.EDG_PT_RATE_BURST 5, 1000), (R.EDG_PT_RATE_RATE 5, 9), (R.EDG_PT_DIE_DIE 5, 3), (R.EDG_PT_TIME_TIMEOUT 5, 20)]).setReg (R.EDG_PT_ID_LO 5) 0x77).put R.HLM_HLM_STAT_VALID 1) : State).reg (R.HLM_HASH j)).toNat)) := by decide +kernel

theorem witness_gatewaysAdmitPartnerPackets_edgeWrite_refused :
    (({ typ := 0x10, status := 0, len := 4, seq := 1, serial := 0x77, die := 3, gw := 0, epoch := 1, reqId := 1, addr := 0x4000, arg := 0, payload := [1, 2, 3, 4], beatBytes := 52, tagOk := true } : Packet).typ = 0x10) ∧
    (((({ rig with ties := { rig.ties with edges := 1 } }.puts [(R.EDG_CTL_EN 0, 1), (R.EDG_STAT_LINK_UP 0, 1), (R.EDG_PT_CFG_VALID 5, 1), (R.EDG_PT_CFG_PCTX 5, 2), (R.EDG_PT_CFG_RD_MAX 5, 4), (R.EDG_PT_STAT_STATE 5, 2), (R.EDG_PT_STAT_EPOCH 5, 1), (R.EDG_PT_RATE_BURST 5, 1000), (R.EDG_PT_RATE_RATE 5, 9), (R.EDG_PT_DIE_DIE 5, 3), (R.EDG_PT_TIME_TIMEOUT 5, 20)]).setReg (R.EDG_PT_ID_LO 5) 0x77) : State).edgeCheck (5 : Nat) (((({ rig with ties := { rig.ties with edges := 1 } }.puts [(R.EDG_CTL_EN 0, 1), (R.EDG_STAT_LINK_UP 0, 1), (R.EDG_PT_CFG_VALID 5, 1), (R.EDG_PT_CFG_PCTX 5, 2), (R.EDG_PT_CFG_RD_MAX 5, 4), (R.EDG_PT_STAT_STATE 5, 2), (R.EDG_PT_STAT_EPOCH 5, 1), (R.EDG_PT_RATE_BURST 5, 1000), (R.EDG_PT_RATE_RATE 5, 9), (R.EDG_PT_DIE_DIE 5, 3), (R.EDG_PT_TIME_TIMEOUT 5, 20)]).setReg (R.EDG_PT_ID_LO 5) 0x77) : State).f (R.EDG_PT_CFG_PCTX (5 : Nat))) ({ typ := 0x10, status := 0, len := 4, seq := 1, serial := 0x77, die := 3, gw := 0, epoch := 1, reqId := 1, addr := 0x4000, arg := 0, payload := [1, 2, 3, 4], beatBytes := 52, tagOk := true } : Packet).addr.toNat true = some ((0 : Nat), (3 : Nat))) := by decide +kernel

theorem witness_gatewaysAdmitPartnerPackets_edgeWrite_granted :
    (({ typ := 0x10, status := 0, len := 4, seq := 1, serial := 0x77, die := 3, gw := 0, epoch := 1, reqId := 1, addr := 0x4000, arg := 0, payload := [1, 2, 3, 4], beatBytes := 52, tagOk := true } : Packet).typ = 0x10) ∧
    ((((({ rig with ties := { rig.ties with edges := 1 } }.puts [(R.EDG_CTL_EN 0, 1), (R.EDG_STAT_LINK_UP 0, 1), (R.EDG_PT_CFG_VALID 5, 1), (R.EDG_PT_CFG_PCTX 5, 2), (R.EDG_PT_CFG_RD_MAX 5, 4), (R.EDG_PT_STAT_STATE 5, 2), (R.EDG_PT_STAT_EPOCH 5, 1), (R.EDG_PT_RATE_BURST 5, 1000), (R.EDG_PT_RATE_RATE 5, 9), (R.EDG_PT_DIE_DIE 5, 3), (R.EDG_PT_TIME_TIMEOUT 5, 20)]).setReg (R.EDG_PT_ID_LO 5) 0x77).puts [(bitFld (R.EDG_PT_WMASK_LO 5) 0, 1)]) : State).edgeCheck (5 : Nat) ((((({ rig with ties := { rig.ties with edges := 1 } }.puts [(R.EDG_CTL_EN 0, 1), (R.EDG_STAT_LINK_UP 0, 1), (R.EDG_PT_CFG_VALID 5, 1), (R.EDG_PT_CFG_PCTX 5, 2), (R.EDG_PT_CFG_RD_MAX 5, 4), (R.EDG_PT_STAT_STATE 5, 2), (R.EDG_PT_STAT_EPOCH 5, 1), (R.EDG_PT_RATE_BURST 5, 1000), (R.EDG_PT_RATE_RATE 5, 9), (R.EDG_PT_DIE_DIE 5, 3), (R.EDG_PT_TIME_TIMEOUT 5, 20)]).setReg (R.EDG_PT_ID_LO 5) 0x77).puts [(bitFld (R.EDG_PT_WMASK_LO 5) 0, 1)]) : State).f (R.EDG_PT_CFG_PCTX (5 : Nat))) ({ typ := 0x10, status := 0, len := 4, seq := 1, serial := 0x77, die := 3, gw := 0, epoch := 1, reqId := 1, addr := 0x4000, arg := 0, payload := [1, 2, 3, 4], beatBytes := 52, tagOk := true } : Packet).addr.toNat true = none) := by decide +kernel

theorem witness_gatewaysAdmitPartnerPackets_edgeAck_taken :
    ((({ (({ rig with ties := { rig.ties with edges := 1 } }.puts [(R.EDG_CTL_EN 0, 1), (R.EDG_STAT_LINK_UP 0, 1), (R.EDG_PT_CFG_VALID 5, 1), (R.EDG_PT_CFG_PCTX 5, 2), (R.EDG_PT_CFG_RD_MAX 5, 4), (R.EDG_PT_STAT_STATE 5, 2), (R.EDG_PT_STAT_EPOCH 5, 1), (R.EDG_PT_RATE_BURST 5, 1000), (R.EDG_PT_RATE_RATE 5, 9), (R.EDG_PT_DIE_DIE 5, 3), (R.EDG_PT_TIME_TIMEOUT 5, 20)]).setReg (R.EDG_PT_ID_LO 5) 0x77) with edg := { (({ rig with ties := { rig.ties with edges := 1 } }.puts [(R.EDG_CTL_EN 0, 1), (R.EDG_STAT_LINK_UP 0, 1), (R.EDG_PT_CFG_VALID 5, 1), (R.EDG_PT_CFG_PCTX 5, 2), (R.EDG_PT_CFG_RD_MAX 5, 4), (R.EDG_PT_STAT_STATE 5, 2), (R.EDG_PT_STAT_EPOCH 5, 1), (R.EDG_PT_RATE_BURST 5, 1000), (R.EDG_PT_RATE_RATE 5, 9), (R.EDG_PT_DIE_DIE 5, 3), (R.EDG_PT_TIME_TIMEOUT 5, 20)]).setReg (R.EDG_PT_ID_LO 5) 0x77).edg with gws := [(0, { Gateway.idle with cmds := [{ op := 3, len := 1, part := 5, ctx := 2, loc := 0x4000, remote := 0x100, started := true, off := 0, ids := [], prep := none, out := [{ reqId := 1, off := 0, len := 0, sent := 0 }] }] })] } } : State).gw (0 : Gw)).cmds = [({ op := 3, len := 1, part := 5, ctx := 2, loc := 0x4000, remote := 0x100, started := true, off := 0, ids := [], prep := none, out := [{ reqId := 1, off := 0, len := 0, sent := 0 }] } : EdgeCmd)]) ∧
    (({ op := 3, len := 1, part := 5, ctx := 2, loc := 0x4000, remote := 0x100, started := true, off := 0, ids := [], prep := none, out := [{ reqId := 1, off := 0, len := 0, sent := 0 }] } : EdgeCmd).op = 3) ∧
    (({ op := 3, len := 1, part := 5, ctx := 2, loc := 0x4000, remote := 0x100, started := true, off := 0, ids := [], prep := none, out := [{ reqId := 1, off := 0, len := 0, sent := 0 }] } : EdgeCmd).part = (5 : Nat)) ∧
    (({ op := 3, len := 1, part := 5, ctx := 2, loc := 0x4000, remote := 0x100, started := true, off := 0, ids := [], prep := none, out := [{ reqId := 1, off := 0, len := 0, sent := 0 }] } : EdgeCmd).started = true) ∧
    (({ op := 3, len := 1, part := 5, ctx := 2, loc := 0x4000, remote := 0x100, started := true, off := 0, ids := [], prep := none, out := [{ reqId := 1, off := 0, len := 0, sent := 0 }] } : EdgeCmd).out = [({ reqId := 1, off := 0, len := 0, sent := 0 } : OutPkt)]) ∧
    (({ reqId := 1, off := 0, len := 0, sent := 0 } : OutPkt).reqId = ({ typ := 0x20, status := 0, len := 0, seq := 1, serial := 0x77, die := 3, gw := 0, epoch := 1, reqId := 1, addr := 0x4000, arg := 0, payload := [], beatBytes := 48, tagOk := true } : Packet).reqId.toNat) ∧
    (({ typ := 0x20, status := 0, len := 0, seq := 1, serial := 0x77, die := 3, gw := 0, epoch := 1, reqId := 1, addr := 0x4000, arg := 0, payload := [], beatBytes := 48, tagOk := true } : Packet).status = 0) ∧
    (({ typ := 0x20, status := 0, len := 0, seq := 1, serial := 0x77, die := 3, gw := 0, epoch := 1, reqId := 1, addr := 0x4000, arg := 0, payload := [], beatBytes := 48, tagOk := true } : Packet).typ = 0x20) := by decide +kernel

theorem witness_gatewaysAdmitPartnerPackets_edgeMalformedPacket :
    (((({ rig with ties := { rig.ties with edges := 1 } }.puts [(R.EDG_CTL_EN 0, 1), (R.EDG_STAT_LINK_UP 0, 1), (R.EDG_PT_CFG_VALID 5, 1), (R.EDG_PT_CFG_PCTX 5, 2), (R.EDG_PT_CFG_RD_MAX 5, 4), (R.EDG_PT_STAT_STATE 5, 2), (R.EDG_PT_STAT_EPOCH 5, 1), (R.EDG_PT_RATE_BURST 5, 1000), (R.EDG_PT_RATE_RATE 5, 9), (R.EDG_PT_DIE_DIE 5, 3), (R.EDG_PT_TIME_TIMEOUT 5, 20)]).setReg (R.EDG_PT_ID_LO 5) 0x77) : State).gwIn (0 : Gw) = true) ∧
    (((({ rig with ties := { rig.ties with edges := 1 } }.puts [(R.EDG_CTL_EN 0, 1), (R.EDG_STAT_LINK_UP 0, 1), (R.EDG_PT_CFG_VALID 5, 1), (R.EDG_PT_CFG_PCTX 5, 2), (R.EDG_PT_CFG_RD_MAX 5, 4), (R.EDG_PT_STAT_STATE 5, 2), (R.EDG_PT_STAT_EPOCH 5, 1), (R.EDG_PT_RATE_BURST 5, 1000), (R.EDG_PT_RATE_RATE 5, 9), (R.EDG_PT_DIE_DIE 5, 3), (R.EDG_PT_TIME_TIMEOUT 5, 20)]).setReg (R.EDG_PT_ID_LO 5) 0x77) : State).bit (R.EDG_STAT_LINK_UP (0 : Gw)) = true) ∧
    ((((({ rig with ties := { rig.ties with edges := 1 } }.puts [(R.EDG_CTL_EN 0, 1), (R.EDG_STAT_LINK_UP 0, 1), (R.EDG_PT_CFG_VALID 5, 1), (R.EDG_PT_CFG_PCTX 5, 2), (R.EDG_PT_CFG_RD_MAX 5, 4), (R.EDG_PT_STAT_STATE 5, 2), (R.EDG_PT_STAT_EPOCH 5, 1), (R.EDG_PT_RATE_BURST 5, 1000), (R.EDG_PT_RATE_RATE 5, 9), (R.EDG_PT_DIE_DIE 5, 3), (R.EDG_PT_TIME_TIMEOUT 5, 20)]).setReg (R.EDG_PT_ID_LO 5) 0x77) : State).gw (0 : Gw)).ins.length < 64) ∧
    (malformed ({ typ := 0x33, status := 0, len := 0, seq := 1, serial := 0x77, die := 3, gw := 0, epoch := 1, reqId := 1, addr := 0x4000, arg := 0, payload := [], beatBytes := 48, tagOk := true } : Packet) = true) := by decide +kernel

theorem witness_gatewaysAdmitPartnerPackets_edgeKeepalive_tag :
    (((({ rig with ties := { rig.ties with edges := 1 } }.puts [(R.EDG_CTL_EN 0, 1), (R.EDG_STAT_LINK_UP 0, 1), (R.EDG_PT_CFG_VALID 5, 1), (R.EDG_PT_CFG_PCTX 5, 2), (R.EDG_PT_CFG_RD_MAX 5, 4), (R.EDG_PT_STAT_STATE 5, 2), (R.EDG_PT_STAT_EPOCH 5, 1), (R.EDG_PT_RATE_BURST 5, 1000), (R.EDG_PT_RATE_RATE 5, 9), (R.EDG_PT_DIE_DIE 5, 3), (R.EDG_PT_TIME_TIMEOUT 5, 20)]).setReg (R.EDG_PT_ID_LO 5) 0x77) : State).gwIn (0 : Gw) = true) ∧
    (((({ rig with ties := { rig.ties with edges := 1 } }.puts [(R.EDG_CTL_EN 0, 1), (R.EDG_STAT_LINK_UP 0, 1), (R.EDG_PT_CFG_VALID 5, 1), (R.EDG_PT_CFG_PCTX 5, 2), (R.EDG_PT_CFG_RD_MAX 5, 4), (R.EDG_PT_STAT_STATE 5, 2), (R.EDG_PT_STAT_EPOCH 5, 1), (R.EDG_PT_RATE_BURST 5, 1000), (R.EDG_PT_RATE_RATE 5, 9), (R.EDG_PT_DIE_DIE 5, 3), (R.EDG_PT_TIME_TIMEOUT 5, 20)]).setReg (R.EDG_PT_ID_LO 5) 0x77) : State).bit (R.EDG_STAT_LINK_UP (0 : Gw)) = true) ∧
    ((((({ rig with ties := { rig.ties with edges := 1 } }.puts [(R.EDG_CTL_EN 0, 1), (R.EDG_STAT_LINK_UP 0, 1), (R.EDG_PT_CFG_VALID 5, 1), (R.EDG_PT_CFG_PCTX 5, 2), (R.EDG_PT_CFG_RD_MAX 5, 4), (R.EDG_PT_STAT_STATE 5, 2), (R.EDG_PT_STAT_EPOCH 5, 1), (R.EDG_PT_RATE_BURST 5, 1000), (R.EDG_PT_RATE_RATE 5, 9), (R.EDG_PT_DIE_DIE 5, 3), (R.EDG_PT_TIME_TIMEOUT 5, 20)]).setReg (R.EDG_PT_ID_LO 5) 0x77) : State).gw (0 : Gw)).ins.length < 64) ∧
    (malformed ({ typ := 2, status := 0, len := 0, seq := 1, serial := 0x77, die := 3, gw := 0, epoch := 1, reqId := 1, addr := 0x4000, arg := 0, payload := [], beatBytes := 48, tagOk := false } : Packet) = false) ∧
    (((({ rig with ties := { rig.ties with edges := 1 } }.puts [(R.EDG_CTL_EN 0, 1), (R.EDG_STAT_LINK_UP 0, 1), (R.EDG_PT_CFG_VALID 5, 1), (R.EDG_PT_CFG_PCTX 5, 2), (R.EDG_PT_CFG_RD_MAX 5, 4), (R.EDG_PT_STAT_STATE 5, 2), (R.EDG_PT_STAT_EPOCH 5, 1), (R.EDG_PT_RATE_BURST 5, 1000), (R.EDG_PT_RATE_RATE 5, 9), (R.EDG_PT_DIE_DIE 5, 3), (R.EDG_PT_TIME_TIMEOUT 5, 20)]).setReg (R.EDG_PT_ID_LO 5) 0x77) : State).partOf (0 : Gw) ({ typ := 2, status := 0, len := 0, seq := 1, serial := 0x77, die := 3, gw := 0, epoch := 1, reqId := 1, addr := 0x4000, arg := 0, payload := [], beatBytes := 48, tagOk := false } : Packet) = some (5 : Nat)) ∧
    (((({ rig with ties := { rig.ties with edges := 1 } }.puts [(R.EDG_CTL_EN 0, 1), (R.EDG_STAT_LINK_UP 0, 1), (R.EDG_PT_CFG_VALID 5, 1), (R.EDG_PT_CFG_PCTX 5, 2), (R.EDG_PT_CFG_RD_MAX 5, 4), (R.EDG_PT_STAT_STATE 5, 2), (R.EDG_PT_STAT_EPOCH 5, 1), (R.EDG_PT_RATE_BURST 5, 1000), (R.EDG_PT_RATE_RATE 5, 9), (R.EDG_PT_DIE_DIE 5, 3), (R.EDG_PT_TIME_TIMEOUT 5, 20)]).setReg (R.EDG_PT_ID_LO 5) 0x77) : State).partState (5 : Nat) = 2) ∧
    (({ typ := 2, status := 0, len := 0, seq := 1, serial := 0x77, die := 3, gw := 0, epoch := 1, reqId := 1, addr := 0x4000, arg := 0, payload := [], beatBytes := 48, tagOk := false } : Packet).typ = 0x02) ∧
    (({ typ := 2, status := 0, len := 0, seq := 1, serial := 0x77, die := 3, gw := 0, epoch := 1, reqId := 1, addr := 0x4000, arg := 0, payload := [], beatBytes := 48, tagOk := false } : Packet).tagOk = false) := by decide +kernel

theorem witness_gatewaysAdmitPartnerPackets_edgeKeepalive_replay :
    ((((({ rig with ties := { rig.ties with edges := 1 } }.puts [(R.EDG_CTL_EN 0, 1), (R.EDG_STAT_LINK_UP 0, 1), (R.EDG_PT_CFG_VALID 5, 1), (R.EDG_PT_CFG_PCTX 5, 2), (R.EDG_PT_CFG_RD_MAX 5, 4), (R.EDG_PT_STAT_STATE 5, 2), (R.EDG_PT_STAT_EPOCH 5, 1), (R.EDG_PT_RATE_BURST 5, 1000), (R.EDG_PT_RATE_RATE 5, 9), (R.EDG_PT_DIE_DIE 5, 3), (R.EDG_PT_TIME_TIMEOUT 5, 20)]).setReg (R.EDG_PT_ID_LO 5) 0x77).setReg (R.EDG_PT_RX_LO 5) 1) : State).gwIn (0 : Gw) = true) ∧
    ((((({ rig with ties := { rig.ties with edges := 1 } }.puts [(R.EDG_CTL_EN 0, 1), (R.EDG_STAT_LINK_UP 0, 1), (R.EDG_PT_CFG_VALID 5, 1), (R.EDG_PT_CFG_PCTX 5, 2), (R.EDG_PT_CFG_RD_MAX 5, 4), (R.EDG_PT_STAT_STATE 5, 2), (R.EDG_PT_STAT_EPOCH 5, 1), (R.EDG_PT_RATE_BURST 5, 1000), (R.EDG_PT_RATE_RATE 5, 9), (R.EDG_PT_DIE_DIE 5, 3), (R.EDG_PT_TIME_TIMEOUT 5, 20)]).setReg (R.EDG_PT_ID_LO 5) 0x77).setReg (R.EDG_PT_RX_LO 5) 1) : State).bit (R.EDG_STAT_LINK_UP (0 : Gw)) = true) ∧
    (((((({ rig with ties := { rig.ties with edges := 1 } }.puts [(R.EDG_CTL_EN 0, 1), (R.EDG_STAT_LINK_UP 0, 1), (R.EDG_PT_CFG_VALID 5, 1), (R.EDG_PT_CFG_PCTX 5, 2), (R.EDG_PT_CFG_RD_MAX 5, 4), (R.EDG_PT_STAT_STATE 5, 2), (R.EDG_PT_STAT_EPOCH 5, 1), (R.EDG_PT_RATE_BURST 5, 1000), (R.EDG_PT_RATE_RATE 5, 9), (R.EDG_PT_DIE_DIE 5, 3), (R.EDG_PT_TIME_TIMEOUT 5, 20)]).setReg (R.EDG_PT_ID_LO 5) 0x77).setReg (R.EDG_PT_RX_LO 5) 1) : State).gw (0 : Gw)).ins.length < 64) ∧
    (malformed ({ typ := 2, status := 0, len := 0, seq := 1, serial := 0x77, die := 3, gw := 0, epoch := 1, reqId := 1, addr := 0x4000, arg := 0, payload := [], beatBytes := 48, tagOk := true } : Packet) = false) ∧
    ((((({ rig with ties := { rig.ties with edges := 1 } }.puts [(R.EDG_CTL_EN 0, 1), (R.EDG_STAT_LINK_UP 0, 1), (R.EDG_PT_CFG_VALID 5, 1), (R.EDG_PT_CFG_PCTX 5, 2), (R.EDG_PT_CFG_RD_MAX 5, 4), (R.EDG_PT_STAT_STATE 5, 2), (R.EDG_PT_STAT_EPOCH 5, 1), (R.EDG_PT_RATE_BURST 5, 1000), (R.EDG_PT_RATE_RATE 5, 9), (R.EDG_PT_DIE_DIE 5, 3), (R.EDG_PT_TIME_TIMEOUT 5, 20)]).setReg (R.EDG_PT_ID_LO 5) 0x77).setReg (R.EDG_PT_RX_LO 5) 1) : State).partOf (0 : Gw) ({ typ := 2, status := 0, len := 0, seq := 1, serial := 0x77, die := 3, gw := 0, epoch := 1, reqId := 1, addr := 0x4000, arg := 0, payload := [], beatBytes := 48, tagOk := true } : Packet) = some (5 : Nat)) ∧
    ((((({ rig with ties := { rig.ties with edges := 1 } }.puts [(R.EDG_CTL_EN 0, 1), (R.EDG_STAT_LINK_UP 0, 1), (R.EDG_PT_CFG_VALID 5, 1), (R.EDG_PT_CFG_PCTX 5, 2), (R.EDG_PT_CFG_RD_MAX 5, 4), (R.EDG_PT_STAT_STATE 5, 2), (R.EDG_PT_STAT_EPOCH 5, 1), (R.EDG_PT_RATE_BURST 5, 1000), (R.EDG_PT_RATE_RATE 5, 9), (R.EDG_PT_DIE_DIE 5, 3), (R.EDG_PT_TIME_TIMEOUT 5, 20)]).setReg (R.EDG_PT_ID_LO 5) 0x77).setReg (R.EDG_PT_RX_LO 5) 1) : State).partState (5 : Nat) = 2) ∧
    (({ typ := 2, status := 0, len := 0, seq := 1, serial := 0x77, die := 3, gw := 0, epoch := 1, reqId := 1, addr := 0x4000, arg := 0, payload := [], beatBytes := 48, tagOk := true } : Packet).typ = 0x02) ∧
    (({ typ := 2, status := 0, len := 0, seq := 1, serial := 0x77, die := 3, gw := 0, epoch := 1, reqId := 1, addr := 0x4000, arg := 0, payload := [], beatBytes := 48, tagOk := true } : Packet).epoch.toNat = (((({ rig with ties := { rig.ties with edges := 1 } }.puts [(R.EDG_CTL_EN 0, 1), (R.EDG_STAT_LINK_UP 0, 1), (R.EDG_PT_CFG_VALID 5, 1), (R.EDG_PT_CFG_PCTX 5, 2), (R.EDG_PT_CFG_RD_MAX 5, 4), (R.EDG_PT_STAT_STATE 5, 2), (R.EDG_PT_STAT_EPOCH 5, 1), (R.EDG_PT_RATE_BURST 5, 1000), (R.EDG_PT_RATE_RATE 5, 9), (R.EDG_PT_DIE_DIE 5, 3), (R.EDG_PT_TIME_TIMEOUT 5, 20)]).setReg (R.EDG_PT_ID_LO 5) 0x77).setReg (R.EDG_PT_RX_LO 5) 1) : State).f (R.EDG_PT_STAT_EPOCH (5 : Nat))) ∧
    (({ typ := 2, status := 0, len := 0, seq := 1, serial := 0x77, die := 3, gw := 0, epoch := 1, reqId := 1, addr := 0x4000, arg := 0, payload := [], beatBytes := 48, tagOk := true } : Packet).tagOk = true) ∧
    (({ typ := 2, status := 0, len := 0, seq := 1, serial := 0x77, die := 3, gw := 0, epoch := 1, reqId := 1, addr := 0x4000, arg := 0, payload := [], beatBytes := 48, tagOk := true } : Packet).seq.toNat ≤ (((({ rig with ties := { rig.ties with edges := 1 } }.puts [(R.EDG_CTL_EN 0, 1), (R.EDG_STAT_LINK_UP 0, 1), (R.EDG_PT_CFG_VALID 5, 1), (R.EDG_PT_CFG_PCTX 5, 2), (R.EDG_PT_CFG_RD_MAX 5, 4), (R.EDG_PT_STAT_STATE 5, 2), (R.EDG_PT_STAT_EPOCH 5, 1), (R.EDG_PT_RATE_BURST 5, 1000), (R.EDG_PT_RATE_RATE 5, 9), (R.EDG_PT_DIE_DIE 5, 3), (R.EDG_PT_TIME_TIMEOUT 5, 20)]).setReg (R.EDG_PT_ID_LO 5) 0x77).setReg (R.EDG_PT_RX_LO 5) 1) : State).pair (R.EDG_PT_RX_LO (5 : Nat)) (R.EDG_PT_RX_HI (5 : Nat))) := by decide +kernel


theorem witness_gatewayCommandsRun_edgePut :
    ((({ (({ rig with ties := { rig.ties with edges := 1 } }.puts [(R.EDG_CTL_EN 0, 1), (R.EDG_STAT_LINK_UP 0, 1), (R.EDG_PT_CFG_VALID 5, 1), (R.EDG_PT_CFG_PCTX 5, 2), (R.EDG_PT_CFG_RD_MAX 5, 4), (R.EDG_PT_STAT_STATE 5, 2), (R.EDG_PT_STAT_EPOCH 5, 1), (R.EDG_PT_RATE_BURST 5, 1000), (R.EDG_PT_RATE_RATE 5, 9), (R.EDG_PT_DIE_DIE 5, 3), (R.EDG_PT_TIME_TIMEOUT 5, 20)]).setReg (R.EDG_PT_ID_LO 5) 0x77) with edg := { (({ rig with ties := { rig.ties with edges := 1 } }.puts [(R.EDG_CTL_EN 0, 1), (R.EDG_STAT_LINK_UP 0, 1), (R.EDG_PT_CFG_VALID 5, 1), (R.EDG_PT_CFG_PCTX 5, 2), (R.EDG_PT_CFG_RD_MAX 5, 4), (R.EDG_PT_STAT_STATE 5, 2), (R.EDG_PT_STAT_EPOCH 5, 1), (R.EDG_PT_RATE_BURST 5, 1000), (R.EDG_PT_RATE_RATE 5, 9), (R.EDG_PT_DIE_DIE 5, 3), (R.EDG_PT_TIME_TIMEOUT 5, 20)]).setReg (R.EDG_PT_ID_LO 5) 0x77).edg with gws := [(0, { Gateway.idle with cmds := [{ op := 1, len := 4, part := 5, ctx := 2, loc := 0x4000, remote := 0x100, started := false, off := 0, ids := [], prep := none, out := [] }] })] } } : State).gw (0 : Gw)).cmds = ({ op := 1, len := 4, part := 5, ctx := 2, loc := 0x4000, remote := 0x100, started := false, off := 0, ids := [], prep := none, out := [] } : EdgeCmd) :: ([] : List EdgeCmd)) ∧
    (({ (({ rig with ties := { rig.ties with edges := 1 } }.puts [(R.EDG_CTL_EN 0, 1), (R.EDG_STAT_LINK_UP 0, 1), (R.EDG_PT_CFG_VALID 5, 1), (R.EDG_PT_CFG_PCTX 5, 2), (R.EDG_PT_CFG_RD_MAX 5, 4), (R.EDG_PT_STAT_STATE 5, 2), (R.EDG_PT_STAT_EPOCH 5, 1), (R.EDG_PT_RATE_BURST 5, 1000), (R.EDG_PT_RATE_RATE 5, 9), (R.EDG_PT_DIE_DIE 5, 3), (R.EDG_PT_TIME_TIMEOUT 5, 20)]).setReg (R.EDG_PT_ID_LO 5) 0x77) with edg := { (({ rig with ties := { rig.ties with edges := 1 } }.puts [(R.EDG_CTL_EN 0, 1), (R.EDG_STAT_LINK_UP 0, 1), (R.EDG_PT_CFG_VALID 5, 1), (R.EDG_PT_CFG_PCTX 5, 2), (R.EDG_PT_CFG_RD_MAX 5, 4), (R.EDG_PT_STAT_STATE 5, 2), (R.EDG_PT_STAT_EPOCH 5, 1), (R.EDG_PT_RATE_BURST 5, 1000), (R.EDG_PT_RATE_RATE 5, 9), (R.EDG_PT_DIE_DIE 5, 3), (R.EDG_PT_TIME_TIMEOUT 5, 20)]).setReg (R.EDG_PT_ID_LO 5) 0x77).edg with gws := [(0, { Gateway.idle with cmds := [{ op := 1, len := 4, part := 5, ctx := 2, loc := 0x4000, remote := 0x100, started := false, off := 0, ids := [], prep := none, out := [] }] })] } } : State).cmdReady (0 : Gw) ({ op := 1, len := 4, part := 5, ctx := 2, loc := 0x4000, remote := 0x100, started := false, off := 0, ids := [], prep := none, out := [] } : EdgeCmd) = none) ∧
    (({ op := 1, len := 4, part := 5, ctx := 2, loc := 0x4000, remote := 0x100, started := false, off := 0, ids := [], prep := none, out := [] } : EdgeCmd).op = 1) := by decide +kernel

theorem witness_gatewayCommandsRun_edgePut_killed :
    ((0 : Nat) < 4) ∧
    (((({ (({ rig with ties := { rig.ties with edges := 1 } }.puts [(R.EDG_CTL_EN 0, 1), (R.EDG_STAT_LINK_UP 0, 1), (R.EDG_PT_CFG_VALID 5, 1), (R.EDG_PT_CFG_PCTX 5, 2), (R.EDG_PT_CFG_RD_MAX 5, 4), (R.EDG_PT_STAT_STATE 5, 2), (R.EDG_PT_STAT_EPOCH 5, 1), (R.EDG_PT_RATE_BURST 5, 1000), (R.EDG_PT_RATE_RATE 5, 9), (R.EDG_PT_DIE_DIE 5, 3), (R.EDG_PT_TIME_TIMEOUT 5, 20)]).setReg (R.EDG_PT_ID_LO 5) 0x77) with edg := { (({ rig with ties := { rig.ties with edges := 1 } }.puts [(R.EDG_CTL_EN 0, 1), (R.EDG_STAT_LINK_UP 0, 1), (R.EDG_PT_CFG_VALID 5, 1), (R.EDG_PT_CFG_PCTX 5, 2), (R.EDG_PT_CFG_RD_MAX 5, 4), (R.EDG_PT_STAT_STATE 5, 2), (R.EDG_PT_STAT_EPOCH 5, 1), (R.EDG_PT_RATE_BURST 5, 1000), (R.EDG_PT_RATE_RATE 5, 9), (R.EDG_PT_DIE_DIE 5, 3), (R.EDG_PT_TIME_TIMEOUT 5, 20)]).setReg (R.EDG_PT_ID_LO 5) 0x77).edg with gws := [(0, { Gateway.idle with cmds := [{ op := 1, len := 4, part := 5, ctx := 2, loc := 0x4000, remote := 0x100, started := true, off := 4, ids := [], prep := none, out := [] }, { op := 3, len := 1, part := 5, ctx := 3, loc := 0x4000, remote := 0x100, started := false, off := 0, ids := [], prep := none, out := [] }] })] } }).put (R.CTX_STAT_STATE 3) 3 : State).gw (0 : Nat)).cmds = [({ op := 1, len := 4, part := 5, ctx := 2, loc := 0x4000, remote := 0x100, started := true, off := 4, ids := [], prep := none, out := [] } : EdgeCmd), ({ op := 3, len := 1, part := 5, ctx := 3, loc := 0x4000, remote := 0x100, started := false, off := 0, ids := [], prep := none, out := [] } : EdgeCmd)]) ∧
    ((({ (({ rig with ties := { rig.ties with edges := 1 } }.puts [(R.EDG_CTL_EN 0, 1), (R.EDG_STAT_LINK_UP 0, 1), (R.EDG_PT_CFG_VALID 5, 1), (R.EDG_PT_CFG_PCTX 5, 2), (R.EDG_PT_CFG_RD_MAX 5, 4), (R.EDG_PT_STAT_STATE 5, 2), (R.EDG_PT_STAT_EPOCH 5, 1), (R.EDG_PT_RATE_BURST 5, 1000), (R.EDG_PT_RATE_RATE 5, 9), (R.EDG_PT_DIE_DIE 5, 3), (R.EDG_PT_TIME_TIMEOUT 5, 20)]).setReg (R.EDG_PT_ID_LO 5) 0x77) with edg := { (({ rig with ties := { rig.ties with edges := 1 } }.puts [(R.EDG_CTL_EN 0, 1), (R.EDG_STAT_LINK_UP 0, 1), (R.EDG_PT_CFG_VALID 5, 1), (R.EDG_PT_CFG_PCTX 5, 2), (R.EDG_PT_CFG_RD_MAX 5, 4), (R.EDG_PT_STAT_STATE 5, 2), (R.EDG_PT_STAT_EPOCH 5, 1), (R.EDG_PT_RATE_BURST 5, 1000), (R.EDG_PT_RATE_RATE 5, 9), (R.EDG_PT_DIE_DIE 5, 3), (R.EDG_PT_TIME_TIMEOUT 5, 20)]).setReg (R.EDG_PT_ID_LO 5) 0x77).edg with gws := [(0, { Gateway.idle with cmds := [{ op := 1, len := 4, part := 5, ctx := 2, loc := 0x4000, remote := 0x100, started := true, off := 4, ids := [], prep := none, out := [] }, { op := 3, len := 1, part := 5, ctx := 3, loc := 0x4000, remote := 0x100, started := false, off := 0, ids := [], prep := none, out := [] }] })] } }).put (R.CTX_STAT_STATE 3) 3 : State).ctxState ({ op := 3, len := 1, part := 5, ctx := 3, loc := 0x4000, remote := 0x100, started := false, off := 0, ids := [], prep := none, out := [] } : EdgeCmd).ctx = 3) ∧
    ((({ (({ rig with ties := { rig.ties with edges := 1 } }.puts [(R.EDG_CTL_EN 0, 1), (R.EDG_STAT_LINK_UP 0, 1), (R.EDG_PT_CFG_VALID 5, 1), (R.EDG_PT_CFG_PCTX 5, 2), (R.EDG_PT_CFG_RD_MAX 5, 4), (R.EDG_PT_STAT_STATE 5, 2), (R.EDG_PT_STAT_EPOCH 5, 1), (R.EDG_PT_RATE_BURST 5, 1000), (R.EDG_PT_RATE_RATE 5, 9), (R.EDG_PT_DIE_DIE 5, 3), (R.EDG_PT_TIME_TIMEOUT 5, 20)]).setReg (R.EDG_PT_ID_LO 5) 0x77) with edg := { (({ rig with ties := { rig.ties with edges := 1 } }.puts [(R.EDG_CTL_EN 0, 1), (R.EDG_STAT_LINK_UP 0, 1), (R.EDG_PT_CFG_VALID 5, 1), (R.EDG_PT_CFG_PCTX 5, 2), (R.EDG_PT_CFG_RD_MAX 5, 4), (R.EDG_PT_STAT_STATE 5, 2), (R.EDG_PT_STAT_EPOCH 5, 1), (R.EDG_PT_RATE_BURST 5, 1000), (R.EDG_PT_RATE_RATE 5, 9), (R.EDG_PT_DIE_DIE 5, 3), (R.EDG_PT_TIME_TIMEOUT 5, 20)]).setReg (R.EDG_PT_ID_LO 5) 0x77).edg with gws := [(0, { Gateway.idle with cmds := [{ op := 1, len := 4, part := 5, ctx := 2, loc := 0x4000, remote := 0x100, started := true, off := 4, ids := [], prep := none, out := [] }, { op := 3, len := 1, part := 5, ctx := 3, loc := 0x4000, remote := 0x100, started := false, off := 0, ids := [], prep := none, out := [] }] })] } }).put (R.CTX_STAT_STATE 3) 3 : State).f (R.EDG_CMD_STAT_DONE (0 : Nat)) < 65535) := by decide +kernel

theorem witness_gatewayCommandsRun_edgePut_over :
    (({ (({ rig with ties := { rig.ties with edges := 1 } }.puts [(R.EDG_CTL_EN 0, 1), (R.EDG_STAT_LINK_UP 0, 1), (R.EDG_PT_CFG_VALID 5, 1), (R.EDG_PT_CFG_PCTX 5, 2), (R.EDG_PT_CFG_RD_MAX 5, 4), (R.EDG_PT_STAT_STATE 5, 2), (R.EDG_PT_STAT_EPOCH 5, 1), (R.EDG_PT_RATE_BURST 5, 1000), (R.EDG_PT_RATE_RATE 5, 9), (R.EDG_PT_DIE_DIE 5, 3), (R.EDG_PT_TIME_TIMEOUT 5, 20)]).setReg (R.EDG_PT_ID_LO 5) 0x77) with edg := { (({ rig with ties := { rig.ties with edges := 1 } }.puts [(R.EDG_CTL_EN 0, 1), (R.EDG_STAT_LINK_UP 0, 1), (R.EDG_PT_CFG_VALID 5, 1), (R.EDG_PT_CFG_PCTX 5, 2), (R.EDG_PT_CFG_RD_MAX 5, 4), (R.EDG_PT_STAT_STATE 5, 2), (R.EDG_PT_STAT_EPOCH 5, 1), (R.EDG_PT_RATE_BURST 5, 1000), (R.EDG_PT_RATE_RATE 5, 9), (R.EDG_PT_DIE_DIE 5, 3), (R.EDG_PT_TIME_TIMEOUT 5, 20)]).setReg (R.EDG_PT_ID_LO 5) 0x77).edg with gws := [(0, { Gateway.idle with cmds := [{ op := 1, len := 4, part := 5, ctx := 2, loc := 0x4000, remote := 0x100, started := true, off := 4, ids := [], prep := none, out := [] }] })] } } : State).loose.acked = []) ∧
    (({ op := 1, len := 4, part := 5, ctx := 2, loc := 0x4000, remote := 0x100, started := true, off := 4, ids := [], prep := none, out := [] } : EdgeCmd).ids = []) ∧
    (({ op := 1, len := 4, part := 5, ctx := 2, loc := 0x4000, remote := 0x100, started := true, off := 4, ids := [], prep := none, out := [] } : EdgeCmd).prep = none) ∧
    (({ op := 1, len := 4, part := 5, ctx := 2, loc := 0x4000, remote := 0x100, started := true, off := 4, ids := [], prep := none, out := [] } : EdgeCmd).len ≤ ({ op := 1, len := 4, part := 5, ctx := 2, loc := 0x4000, remote := 0x100, started := true, off := 4, ids := [], prep := none, out := [] } : EdgeCmd).off) ∧
    (({ op := 1, len := 4, part := 5, ctx := 2, loc := 0x4000, remote := 0x100, started := true, off := 4, ids := [], prep := none, out := [] } : EdgeCmd).out = []) := by decide +kernel

theorem witness_gatewayCommandsRun_edgeGet :
    ((({ (({ rig with ties := { rig.ties with edges := 1 } }.puts [(R.EDG_CTL_EN 0, 1), (R.EDG_STAT_LINK_UP 0, 1), (R.EDG_PT_CFG_VALID 5, 1), (R.EDG_PT_CFG_PCTX 5, 2), (R.EDG_PT_CFG_RD_MAX 5, 4), (R.EDG_PT_STAT_STATE 5, 2), (R.EDG_PT_STAT_EPOCH 5, 1), (R.EDG_PT_RATE_BURST 5, 1000), (R.EDG_PT_RATE_RATE 5, 9), (R.EDG_PT_DIE_DIE 5, 3), (R.EDG_PT_TIME_TIMEOUT 5, 20)]).setReg (R.EDG_PT_ID_LO 5) 0x77) with edg := { (({ rig with ties := { rig.ties with edges := 1 } }.puts [(R.EDG_CTL_EN 0, 1), (R.EDG_STAT_LINK_UP 0, 1), (R.EDG_PT_CFG_VALID 5, 1), (R.EDG_PT_CFG_PCTX 5, 2), (R.EDG_PT_CFG_RD_MAX 5, 4), (R.EDG_PT_STAT_STATE 5, 2), (R.EDG_PT_STAT_EPOCH 5, 1), (R.EDG_PT_RATE_BURST 5, 1000), (R.EDG_PT_RATE_RATE 5, 9), (R.EDG_PT_DIE_DIE 5, 3), (R.EDG_PT_TIME_TIMEOUT 5, 20)]).setReg (R.EDG_PT_ID_LO 5) 0x77).edg with gws := [(0, { Gateway.idle with cmds := [{ op := 2, len := 4, part := 5, ctx := 2, loc := 0x4000, remote := 0x100, started := false, off := 0, ids := [], prep := none, out := [] }] })] } } : State).gw (0 : Gw)).cmds = ({ op := 2, len := 4, part := 5, ctx := 2, loc := 0x4000, remote := 0x100, started := false, off := 0, ids := [], prep := none, out := [] } : EdgeCmd) :: ([] : List EdgeCmd)) ∧
    (({ (({ rig with ties := { rig.ties with edges := 1 } }.puts [(R.EDG_CTL_EN 0, 1), (R.EDG_STAT_LINK_UP 0, 1), (R.EDG_PT_CFG_VALID 5, 1), (R.EDG_PT_CFG_PCTX 5, 2), (R.EDG_PT_CFG_RD_MAX 5, 4), (R.EDG_PT_STAT_STATE 5, 2), (R.EDG_PT_STAT_EPOCH 5, 1), (R.EDG_PT_RATE_BURST 5, 1000), (R.EDG_PT_RATE_RATE 5, 9), (R.EDG_PT_DIE_DIE 5, 3), (R.EDG_PT_TIME_TIMEOUT 5, 20)]).setReg (R.EDG_PT_ID_LO 5) 0x77) with edg := { (({ rig with ties := { rig.ties with edges := 1 } }.puts [(R.EDG_CTL_EN 0, 1), (R.EDG_STAT_LINK_UP 0, 1), (R.EDG_PT_CFG_VALID 5, 1), (R.EDG_PT_CFG_PCTX 5, 2), (R.EDG_PT_CFG_RD_MAX 5, 4), (R.EDG_PT_STAT_STATE 5, 2), (R.EDG_PT_STAT_EPOCH 5, 1), (R.EDG_PT_RATE_BURST 5, 1000), (R.EDG_PT_RATE_RATE 5, 9), (R.EDG_PT_DIE_DIE 5, 3), (R.EDG_PT_TIME_TIMEOUT 5, 20)]).setReg (R.EDG_PT_ID_LO 5) 0x77).edg with gws := [(0, { Gateway.idle with cmds := [{ op := 2, len := 4, part := 5, ctx := 2, loc := 0x4000, remote := 0x100, started := false, off := 0, ids := [], prep := none, out := [] }] })] } } : State).cmdReady (0 : Gw) ({ op := 2, len := 4, part := 5, ctx := 2, loc := 0x4000, remote := 0x100, started := false, off := 0, ids := [], prep := none, out := [] } : EdgeCmd) = none) ∧
    (({ op := 2, len := 4, part := 5, ctx := 2, loc := 0x4000, remote := 0x100, started := false, off := 0, ids := [], prep := none, out := [] } : EdgeCmd).op = 2) := by decide +kernel

theorem witness_gatewayCommandsRun_edgeIncCmd :
    ((({ (({ rig with ties := { rig.ties with edges := 1 } }.puts [(R.EDG_CTL_EN 0, 1), (R.EDG_STAT_LINK_UP 0, 1), (R.EDG_PT_CFG_VALID 5, 1), (R.EDG_PT_CFG_PCTX 5, 2), (R.EDG_PT_CFG_RD_MAX 5, 4), (R.EDG_PT_STAT_STATE 5, 2), (R.EDG_PT_STAT_EPOCH 5, 1), (R.EDG_PT_RATE_BURST 5, 1000), (R.EDG_PT_RATE_RATE 5, 9), (R.EDG_PT_DIE_DIE 5, 3), (R.EDG_PT_TIME_TIMEOUT 5, 20)]).setReg (R.EDG_PT_ID_LO 5) 0x77) with edg := { (({ rig with ties := { rig.ties with edges := 1 } }.puts [(R.EDG_CTL_EN 0, 1), (R.EDG_STAT_LINK_UP 0, 1), (R.EDG_PT_CFG_VALID 5, 1), (R.EDG_PT_CFG_PCTX 5, 2), (R.EDG_PT_CFG_RD_MAX 5, 4), (R.EDG_PT_STAT_STATE 5, 2), (R.EDG_PT_STAT_EPOCH 5, 1), (R.EDG_PT_RATE_BURST 5, 1000), (R.EDG_PT_RATE_RATE 5, 9), (R.EDG_PT_DIE_DIE 5, 3), (R.EDG_PT_TIME_TIMEOUT 5, 20)]).setReg (R.EDG_PT_ID_LO 5) 0x77).edg with gws := [(0, { Gateway.idle with cmds := [{ op := 3, len := 1, part := 5, ctx := 2, loc := 0x4000, remote := 0x100, started := false, off := 0, ids := [], prep := none, out := [] }] })] } } : State).gw (0 : Gw)).cmds = ({ op := 3, len := 1, part := 5, ctx := 2, loc := 0x4000, remote := 0x100, started := false, off := 0, ids := [], prep := none, out := [] } : EdgeCmd) :: ([] : List EdgeCmd)) ∧
    (({ (({ rig with ties := { rig.ties with edges := 1 } }.puts [(R.EDG_CTL_EN 0, 1), (R.EDG_STAT_LINK_UP 0, 1), (R.EDG_PT_CFG_VALID 5, 1), (R.EDG_PT_CFG_PCTX 5, 2), (R.EDG_PT_CFG_RD_MAX 5, 4), (R.EDG_PT_STAT_STATE 5, 2), (R.EDG_PT_STAT_EPOCH 5, 1), (R.EDG_PT_RATE_BURST 5, 1000), (R.EDG_PT_RATE_RATE 5, 9), (R.EDG_PT_DIE_DIE 5, 3), (R.EDG_PT_TIME_TIMEOUT 5, 20)]).setReg (R.EDG_PT_ID_LO 5) 0x77) with edg := { (({ rig with ties := { rig.ties with edges := 1 } }.puts [(R.EDG_CTL_EN 0, 1), (R.EDG_STAT_LINK_UP 0, 1), (R.EDG_PT_CFG_VALID 5, 1), (R.EDG_PT_CFG_PCTX 5, 2), (R.EDG_PT_CFG_RD_MAX 5, 4), (R.EDG_PT_STAT_STATE 5, 2), (R.EDG_PT_STAT_EPOCH 5, 1), (R.EDG_PT_RATE_BURST 5, 1000), (R.EDG_PT_RATE_RATE 5, 9), (R.EDG_PT_DIE_DIE 5, 3), (R.EDG_PT_TIME_TIMEOUT 5, 20)]).setReg (R.EDG_PT_ID_LO 5) 0x77).edg with gws := [(0, { Gateway.idle with cmds := [{ op := 3, len := 1, part := 5, ctx := 2, loc := 0x4000, remote := 0x100, started := false, off := 0, ids := [], prep := none, out := [] }] })] } } : State).cmdReady (0 : Gw) ({ op := 3, len := 1, part := 5, ctx := 2, loc := 0x4000, remote := 0x100, started := false, off := 0, ids := [], prep := none, out := [] } : EdgeCmd) = none) ∧
    (({ op := 3, len := 1, part := 5, ctx := 2, loc := 0x4000, remote := 0x100, started := false, off := 0, ids := [], prep := none, out := [] } : EdgeCmd).op = 3) ∧
    (({ op := 3, len := 1, part := 5, ctx := 2, loc := 0x4000, remote := 0x100, started := false, off := 0, ids := [], prep := none, out := [] } : EdgeCmd).started = false) := by decide +kernel

theorem witness_gatewayCommandsRun_edgeIncCmd_over :
    ((({ (({ rig with ties := { rig.ties with edges := 1 } }.puts [(R.EDG_CTL_EN 0, 1), (R.EDG_STAT_LINK_UP 0, 1), (R.EDG_PT_CFG_VALID 5, 1), (R.EDG_PT_CFG_PCTX 5, 2), (R.EDG_PT_CFG_RD_MAX 5, 4), (R.EDG_PT_STAT_STATE 5, 2), (R.EDG_PT_STAT_EPOCH 5, 1), (R.EDG_PT_RATE_BURST 5, 1000), (R.EDG_PT_RATE_RATE 5, 9), (R.EDG_PT_DIE_DIE 5, 3), (R.EDG_PT_TIME_TIMEOUT 5, 20)]).setReg (R.EDG_PT_ID_LO 5) 0x77) with edg := { (({ rig with ties := { rig.ties with edges := 1 } }.puts [(R.EDG_CTL_EN 0, 1), (R.EDG_STAT_LINK_UP 0, 1), (R.EDG_PT_CFG_VALID 5, 1), (R.EDG_PT_CFG_PCTX 5, 2), (R.EDG_PT_CFG_RD_MAX 5, 4), (R.EDG_PT_STAT_STATE 5, 2), (R.EDG_PT_STAT_EPOCH 5, 1), (R.EDG_PT_RATE_BURST 5, 1000), (R.EDG_PT_RATE_RATE 5, 9), (R.EDG_PT_DIE_DIE 5, 3), (R.EDG_PT_TIME_TIMEOUT 5, 20)]).setReg (R.EDG_PT_ID_LO 5) 0x77).edg with gws := [(0, { Gateway.idle with cmds := [{ op := 3, len := 1, part := 5, ctx := 2, loc := 0x4000, remote := 0x100, started := true, off := 0, ids := [], prep := none, out := [] }] })] } } : State).gw (0 : Gw)).cmds = ({ op := 3, len := 1, part := 5, ctx := 2, loc := 0x4000, remote := 0x100, started := true, off := 0, ids := [], prep := none, out := [] } : EdgeCmd) :: ([] : List EdgeCmd)) ∧
    (({ (({ rig with ties := { rig.ties with edges := 1 } }.puts [(R.EDG_CTL_EN 0, 1), (R.EDG_STAT_LINK_UP 0, 1), (R.EDG_PT_CFG_VALID 5, 1), (R.EDG_PT_CFG_PCTX 5, 2), (R.EDG_PT_CFG_RD_MAX 5, 4), (R.EDG_PT_STAT_STATE 5, 2), (R.EDG_PT_STAT_EPOCH 5, 1), (R.EDG_PT_RATE_BURST 5, 1000), (R.EDG_PT_RATE_RATE 5, 9), (R.EDG_PT_DIE_DIE 5, 3), (R.EDG_PT_TIME_TIMEOUT 5, 20)]).setReg (R.EDG_PT_ID_LO 5) 0x77) with edg := { (({ rig with ties := { rig.ties with edges := 1 } }.puts [(R.EDG_CTL_EN 0, 1), (R.EDG_STAT_LINK_UP 0, 1), (R.EDG_PT_CFG_VALID 5, 1), (R.EDG_PT_CFG_PCTX 5, 2), (R.EDG_PT_CFG_RD_MAX 5, 4), (R.EDG_PT_STAT_STATE 5, 2), (R.EDG_PT_STAT_EPOCH 5, 1), (R.EDG_PT_RATE_BURST 5, 1000), (R.EDG_PT_RATE_RATE 5, 9), (R.EDG_PT_DIE_DIE 5, 3), (R.EDG_PT_TIME_TIMEOUT 5, 20)]).setReg (R.EDG_PT_ID_LO 5) 0x77).edg with gws := [(0, { Gateway.idle with cmds := [{ op := 3, len := 1, part := 5, ctx := 2, loc := 0x4000, remote := 0x100, started := true, off := 0, ids := [], prep := none, out := [] }] })] } } : State).cmdReady (0 : Gw) ({ op := 3, len := 1, part := 5, ctx := 2, loc := 0x4000, remote := 0x100, started := true, off := 0, ids := [], prep := none, out := [] } : EdgeCmd) = none) ∧
    (({ op := 3, len := 1, part := 5, ctx := 2, loc := 0x4000, remote := 0x100, started := true, off := 0, ids := [], prep := none, out := [] } : EdgeCmd).op = 3) ∧
    (({ op := 3, len := 1, part := 5, ctx := 2, loc := 0x4000, remote := 0x100, started := true, off := 0, ids := [], prep := none, out := [] } : EdgeCmd).started = true) ∧
    (({ op := 3, len := 1, part := 5, ctx := 2, loc := 0x4000, remote := 0x100, started := true, off := 0, ids := [], prep := none, out := [] } : EdgeCmd).out = []) := by decide +kernel

theorem witness_gatewayCommandsRun_edgeIncCmd_status :
    ((0 : Nat) < 4) ∧
    ((4 : Nat) < 16) ∧
    ((({ (({ rig with ties := { rig.ties with edges := 1 } }.puts [(R.EDG_CTL_EN 0, 1), (R.EDG_STAT_LINK_UP 0, 1), (R.EDG_PT_CFG_VALID 5, 1), (R.EDG_PT_CFG_PCTX 5, 2), (R.EDG_PT_CFG_RD_MAX 5, 4), (R.EDG_PT_STAT_STATE 5, 2), (R.EDG_PT_STAT_EPOCH 5, 1), (R.EDG_PT_RATE_BURST 5, 1000), (R.EDG_PT_RATE_RATE 5, 9), (R.EDG_PT_DIE_DIE 5, 3), (R.EDG_PT_TIME_TIMEOUT 5, 20)]).setReg (R.EDG_PT_ID_LO 5) 0x77) with edg := { (({ rig with ties := { rig.ties with edges := 1 } }.puts [(R.EDG_CTL_EN 0, 1), (R.EDG_STAT_LINK_UP 0, 1), (R.EDG_PT_CFG_VALID 5, 1), (R.EDG_PT_CFG_PCTX 5, 2), (R.EDG_PT_CFG_RD_MAX 5, 4), (R.EDG_PT_STAT_STATE 5, 2), (R.EDG_PT_STAT_EPOCH 5, 1), (R.EDG_PT_RATE_BURST 5, 1000), (R.EDG_PT_RATE_RATE 5, 9), (R.EDG_PT_DIE_DIE 5, 3), (R.EDG_PT_TIME_TIMEOUT 5, 20)]).setReg (R.EDG_PT_ID_LO 5) 0x77).edg with gws := [(0, { Gateway.idle with cmds := [{ op := 3, len := 1, part := 5, ctx := 2, loc := 0x4000, remote := 0x100, started := true, off := 0, ids := [], prep := none, out := [] }] })] } } : State).gw (0 : Nat)).cmds = [({ op := 3, len := 1, part := 5, ctx := 2, loc := 0x4000, remote := 0x100, started := true, off := 0, ids := [], prep := none, out := [] } : EdgeCmd)]) := by decide +kernel

theorem witness_gatewayCommandsRun_edgePacketTimeout :
    ((({ { (({ rig with ties := { rig.ties with edges := 1 } }.puts [(R.EDG_CTL_EN 0, 1), (R.EDG_STAT_LINK_UP 0, 1), (R.EDG_PT_CFG_VALID 5, 1), (R.EDG_PT_CFG_PCTX 5, 2), (R.EDG_PT_CFG_RD_MAX 5, 4), (R.EDG_PT_STAT_STATE 5, 2), (R.EDG_PT_STAT_EPOCH 5, 1), (R.EDG_PT_RATE_BURST 5, 1000), (R.EDG_PT_RATE_RATE 5, 9), (R.EDG_PT_DIE_DIE 5, 3), (R.EDG_PT_TIME_TIMEOUT 5, 20)]).setReg (R.EDG_PT_ID_LO 5) 0x77) with edg := { (({ rig with ties := { rig.ties with edges := 1 } }.puts [(R.EDG_CTL_EN 0, 1), (R.EDG_STAT_LINK_UP 0, 1), (R.EDG_PT_CFG_VALID 5, 1), (R.EDG_PT_CFG_PCTX 5, 2), (R.EDG_PT_CFG_RD_MAX 5, 4), (R.EDG_PT_STAT_STATE 5, 2), (R.EDG_PT_STAT_EPOCH 5, 1), (R.EDG_PT_RATE_BURST 5, 1000), (R.EDG_PT_RATE_RATE 5, 9), (R.EDG_PT_DIE_DIE 5, 3), (R.EDG_PT_TIME_TIMEOUT 5, 20)]).setReg (R.EDG_PT_ID_LO 5) 0x77).edg with gws := [(0, { Gateway.idle with cmds := [{ op := 3, len := 1, part := 5, ctx := 2, loc := 0x4000, remote := 0x100, started := true, off := 0, ids := [], prep := none, out := [{ reqId := 1, off := 0, len := 0, sent := 0 }] }] })] } } with time := { rig.time with real := us 20 } } : State).gw (0 : Gw)).cmds = ({ op := 3, len := 1, part := 5, ctx := 2, loc := 0x4000, remote := 0x100, started := true, off := 0, ids := [], prep := none, out := [{ reqId := 1, off := 0, len := 0, sent := 0 }] } : EdgeCmd) :: ([] : List EdgeCmd)) ∧
    (({ reqId := 1, off := 0, len := 0, sent := 0 } : OutPkt) ∈ ({ op := 3, len := 1, part := 5, ctx := 2, loc := 0x4000, remote := 0x100, started := true, off := 0, ids := [], prep := none, out := [{ reqId := 1, off := 0, len := 0, sent := 0 }] } : EdgeCmd).out) ∧
    (({ reqId := 1, off := 0, len := 0, sent := 0 } : OutPkt).sent + us (({ { (({ rig with ties := { rig.ties with edges := 1 } }.puts [(R.EDG_CTL_EN 0, 1), (R.EDG_STAT_LINK_UP 0, 1), (R.EDG_PT_CFG_VALID 5, 1), (R.EDG_PT_CFG_PCTX 5, 2), (R.EDG_PT_CFG_RD_MAX 5, 4), (R.EDG_PT_STAT_STATE 5, 2), (R.EDG_PT_STAT_EPOCH 5, 1), (R.EDG_PT_RATE_BURST 5, 1000), (R.EDG_PT_RATE_RATE 5, 9), (R.EDG_PT_DIE_DIE 5, 3), (R.EDG_PT_TIME_TIMEOUT 5, 20)]).setReg (R.EDG_PT_ID_LO 5) 0x77) with edg := { (({ rig with ties := { rig.ties with edges := 1 } }.puts [(R.EDG_CTL_EN 0, 1), (R.EDG_STAT_LINK_UP 0, 1), (R.EDG_PT_CFG_VALID 5, 1), (R.EDG_PT_CFG_PCTX 5, 2), (R.EDG_PT_CFG_RD_MAX 5, 4), (R.EDG_PT_STAT_STATE 5, 2), (R.EDG_PT_STAT_EPOCH 5, 1), (R.EDG_PT_RATE_BURST 5, 1000), (R.EDG_PT_RATE_RATE 5, 9), (R.EDG_PT_DIE_DIE 5, 3), (R.EDG_PT_TIME_TIMEOUT 5, 20)]).setReg (R.EDG_PT_ID_LO 5) 0x77).edg with gws := [(0, { Gateway.idle with cmds := [{ op := 3, len := 1, part := 5, ctx := 2, loc := 0x4000, remote := 0x100, started := true, off := 0, ids := [], prep := none, out := [{ reqId := 1, off := 0, len := 0, sent := 0 }] }] })] } } with time := { rig.time with real := us 20 } } : State).f (R.EDG_PT_TIME_TIMEOUT ({ op := 3, len := 1, part := 5, ctx := 2, loc := 0x4000, remote := 0x100, started := true, off := 0, ids := [], prep := none, out := [{ reqId := 1, off := 0, len := 0, sent := 0 }] } : EdgeCmd).part)) ≤ ({ { (({ rig with ties := { rig.ties with edges := 1 } }.puts [(R.EDG_CTL_EN 0, 1), (R.EDG_STAT_LINK_UP 0, 1), (R.EDG_PT_CFG_VALID 5, 1), (R.EDG_PT_CFG_PCTX 5, 2), (R.EDG_PT_CFG_RD_MAX 5, 4), (R.EDG_PT_STAT_STATE 5, 2), (R.EDG_PT_STAT_EPOCH 5, 1), (R.EDG_PT_RATE_BURST 5, 1000), (R.EDG_PT_RATE_RATE 5, 9), (R.EDG_PT_DIE_DIE 5, 3), (R.EDG_PT_TIME_TIMEOUT 5, 20)]).setReg (R.EDG_PT_ID_LO 5) 0x77) with edg := { (({ rig with ties := { rig.ties with edges := 1 } }.puts [(R.EDG_CTL_EN 0, 1), (R.EDG_STAT_LINK_UP 0, 1), (R.EDG_PT_CFG_VALID 5, 1), (R.EDG_PT_CFG_PCTX 5, 2), (R.EDG_PT_CFG_RD_MAX 5, 4), (R.EDG_PT_STAT_STATE 5, 2), (R.EDG_PT_STAT_EPOCH 5, 1), (R.EDG_PT_RATE_BURST 5, 1000), (R.EDG_PT_RATE_RATE 5, 9), (R.EDG_PT_DIE_DIE 5, 3), (R.EDG_PT_TIME_TIMEOUT 5, 20)]).setReg (R.EDG_PT_ID_LO 5) 0x77).edg with gws := [(0, { Gateway.idle with cmds := [{ op := 3, len := 1, part := 5, ctx := 2, loc := 0x4000, remote := 0x100, started := true, off := 0, ids := [], prep := none, out := [{ reqId := 1, off := 0, len := 0, sent := 0 }] }] })] } } with time := { rig.time with real := us 20 } } : State).time.real) := by decide +kernel

theorem witness_gatewayCommandsRun_txRspTimeout :
    (({ { (({ rig with ties := { rig.ties with edges := 1 } }.puts [(R.EDG_CTL_EN 0, 1), (R.EDG_STAT_LINK_UP 0, 1), (R.EDG_PT_CFG_VALID 5, 1), (R.EDG_PT_CFG_PCTX 5, 2), (R.EDG_PT_CFG_RD_MAX 5, 4), (R.EDG_PT_STAT_STATE 5, 2), (R.EDG_PT_STAT_EPOCH 5, 1), (R.EDG_PT_RATE_BURST 5, 1000), (R.EDG_PT_RATE_RATE 5, 9), (R.EDG_PT_DIE_DIE 5, 3), (R.EDG_PT_TIME_TIMEOUT 5, 20)]).setReg (R.EDG_PT_ID_LO 5) 0x77) with edg := { (({ rig with ties := { rig.ties with edges := 1 } }.puts [(R.EDG_CTL_EN 0, 1), (R.EDG_STAT_LINK_UP 0, 1), (R.EDG_PT_CFG_VALID 5, 1), (R.EDG_PT_CFG_PCTX 5, 2), (R.EDG_PT_CFG_RD_MAX 5, 4), (R.EDG_PT_STAT_STATE 5, 2), (R.EDG_PT_STAT_EPOCH 5, 1), (R.EDG_PT_RATE_BURST 5, 1000), (R.EDG_PT_RATE_RATE 5, 9), (R.EDG_PT_DIE_DIE 5, 3), (R.EDG_PT_TIME_TIMEOUT 5, 20)]).setReg (R.EDG_PT_ID_LO 5) 0x77).edg with gws := [(0, { Gateway.idle with tx := [{ pkt := { typ := 0x21, status := 0, len := 0, seq := 1, serial := 0x77, die := 3, gw := 0, epoch := 1, reqId := 1, addr := 0x4000, arg := 0, payload := [], beatBytes := 48, tagOk := true }, part := 5, since := 0, take := some (us 30) }] })] } } with time := { rig.time with real := us 20 } } : State).loose.acked = []) ∧
    ((({ { (({ rig with ties := { rig.ties with edges := 1 } }.puts [(R.EDG_CTL_EN 0, 1), (R.EDG_STAT_LINK_UP 0, 1), (R.EDG_PT_CFG_VALID 5, 1), (R.EDG_PT_CFG_PCTX 5, 2), (R.EDG_PT_CFG_RD_MAX 5, 4), (R.EDG_PT_STAT_STATE 5, 2), (R.EDG_PT_STAT_EPOCH 5, 1), (R.EDG_PT_RATE_BURST 5, 1000), (R.EDG_PT_RATE_RATE 5, 9), (R.EDG_PT_DIE_DIE 5, 3), (R.EDG_PT_TIME_TIMEOUT 5, 20)]).setReg (R.EDG_PT_ID_LO 5) 0x77) with edg := { (({ rig with ties := { rig.ties with edges := 1 } }.puts [(R.EDG_CTL_EN 0, 1), (R.EDG_STAT_LINK_UP 0, 1), (R.EDG_PT_CFG_VALID 5, 1), (R.EDG_PT_CFG_PCTX 5, 2), (R.EDG_PT_CFG_RD_MAX 5, 4), (R.EDG_PT_STAT_STATE 5, 2), (R.EDG_PT_STAT_EPOCH 5, 1), (R.EDG_PT_RATE_BURST 5, 1000), (R.EDG_PT_RATE_RATE 5, 9), (R.EDG_PT_DIE_DIE 5, 3), (R.EDG_PT_TIME_TIMEOUT 5, 20)]).setReg (R.EDG_PT_ID_LO 5) 0x77).edg with gws := [(0, { Gateway.idle with tx := [{ pkt := { typ := 0x21, status := 0, len := 0, seq := 1, serial := 0x77, die := 3, gw := 0, epoch := 1, reqId := 1, addr := 0x4000, arg := 0, payload := [], beatBytes := 48, tagOk := true }, part := 5, since := 0, take := some (us 30) }] })] } } with time := { rig.time with real := us 20 } } : State).gw (0 : Gw)).ins = []) ∧
    ((({ { (({ rig with ties := { rig.ties with edges := 1 } }.puts [(R.EDG_CTL_EN 0, 1), (R.EDG_STAT_LINK_UP 0, 1), (R.EDG_PT_CFG_VALID 5, 1), (R.EDG_PT_CFG_PCTX 5, 2), (R.EDG_PT_CFG_RD_MAX 5, 4), (R.EDG_PT_STAT_STATE 5, 2), (R.EDG_PT_STAT_EPOCH 5, 1), (R.EDG_PT_RATE_BURST 5, 1000), (R.EDG_PT_RATE_RATE 5, 9), (R.EDG_PT_DIE_DIE 5, 3), (R.EDG_PT_TIME_TIMEOUT 5, 20)]).setReg (R.EDG_PT_ID_LO 5) 0x77) with edg := { (({ rig with ties := { rig.ties with edges := 1 } }.puts [(R.EDG_CTL_EN 0, 1), (R.EDG_STAT_LINK_UP 0, 1), (R.EDG_PT_CFG_VALID 5, 1), (R.EDG_PT_CFG_PCTX 5, 2), (R.EDG_PT_CFG_RD_MAX 5, 4), (R.EDG_PT_STAT_STATE 5, 2), (R.EDG_PT_STAT_EPOCH 5, 1), (R.EDG_PT_RATE_BURST 5, 1000), (R.EDG_PT_RATE_RATE 5, 9), (R.EDG_PT_DIE_DIE 5, 3), (R.EDG_PT_TIME_TIMEOUT 5, 20)]).setReg (R.EDG_PT_ID_LO 5) 0x77).edg with gws := [(0, { Gateway.idle with tx := [{ pkt := { typ := 0x21, status := 0, len := 0, seq := 1, serial := 0x77, die := 3, gw := 0, epoch := 1, reqId := 1, addr := 0x4000, arg := 0, payload := [], beatBytes := 48, tagOk := true }, part := 5, since := 0, take := some (us 30) }] })] } } with time := { rig.time with real := us 20 } } : State).gw (0 : Gw)).tx = [({ pkt := { typ := 0x21, status := 0, len := 0, seq := 1, serial := 0x77, die := 3, gw := 0, epoch := 1, reqId := 1, addr := 0x4000, arg := 0, payload := [], beatBytes := 48, tagOk := true }, part := 5, since := 0, take := some (us 30) } : TxPkt)]) ∧
    (({ pkt := { typ := 0x21, status := 0, len := 0, seq := 1, serial := 0x77, die := 3, gw := 0, epoch := 1, reqId := 1, addr := 0x4000, arg := 0, payload := [], beatBytes := 48, tagOk := true }, part := 5, since := 0, take := some (us 30) } : TxPkt).take = some (us 30 : Nat)) ∧
    (({ { (({ rig with ties := { rig.ties with edges := 1 } }.puts [(R.EDG_CTL_EN 0, 1), (R.EDG_STAT_LINK_UP 0, 1), (R.EDG_PT_CFG_VALID 5, 1), (R.EDG_PT_CFG_PCTX 5, 2), (R.EDG_PT_CFG_RD_MAX 5, 4), (R.EDG_PT_STAT_STATE 5, 2), (R.EDG_PT_STAT_EPOCH 5, 1), (R.EDG_PT_RATE_BURST 5, 1000), (R.EDG_PT_RATE_RATE 5, 9), (R.EDG_PT_DIE_DIE 5, 3), (R.EDG_PT_TIME_TIMEOUT 5, 20)]).setReg (R.EDG_PT_ID_LO 5) 0x77) with edg := { (({ rig with ties := { rig.ties with edges := 1 } }.puts [(R.EDG_CTL_EN 0, 1), (R.EDG_STAT_LINK_UP 0, 1), (R.EDG_PT_CFG_VALID 5, 1), (R.EDG_PT_CFG_PCTX 5, 2), (R.EDG_PT_CFG_RD_MAX 5, 4), (R.EDG_PT_STAT_STATE 5, 2), (R.EDG_PT_STAT_EPOCH 5, 1), (R.EDG_PT_RATE_BURST 5, 1000), (R.EDG_PT_RATE_RATE 5, 9), (R.EDG_PT_DIE_DIE 5, 3), (R.EDG_PT_TIME_TIMEOUT 5, 20)]).setReg (R.EDG_PT_ID_LO 5) 0x77).edg with gws := [(0, { Gateway.idle with tx := [{ pkt := { typ := 0x21, status := 0, len := 0, seq := 1, serial := 0x77, die := 3, gw := 0, epoch := 1, reqId := 1, addr := 0x4000, arg := 0, payload := [], beatBytes := 48, tagOk := true }, part := 5, since := 0, take := some (us 30) }] })] } } with time := { rig.time with real := us 20 } } : State).time.real < (us 30 : Nat)) ∧
    (({ pkt := { typ := 0x21, status := 0, len := 0, seq := 1, serial := 0x77, die := 3, gw := 0, epoch := 1, reqId := 1, addr := 0x4000, arg := 0, payload := [], beatBytes := 48, tagOk := true }, part := 5, since := 0, take := some (us 30) } : TxPkt).pkt.typ = 0x21) ∧
    (({ pkt := { typ := 0x21, status := 0, len := 0, seq := 1, serial := 0x77, die := 3, gw := 0, epoch := 1, reqId := 1, addr := 0x4000, arg := 0, payload := [], beatBytes := 48, tagOk := true }, part := 5, since := 0, take := some (us 30) } : TxPkt).since + us (({ { (({ rig with ties := { rig.ties with edges := 1 } }.puts [(R.EDG_CTL_EN 0, 1), (R.EDG_STAT_LINK_UP 0, 1), (R.EDG_PT_CFG_VALID 5, 1), (R.EDG_PT_CFG_PCTX 5, 2), (R.EDG_PT_CFG_RD_MAX 5, 4), (R.EDG_PT_STAT_STATE 5, 2), (R.EDG_PT_STAT_EPOCH 5, 1), (R.EDG_PT_RATE_BURST 5, 1000), (R.EDG_PT_RATE_RATE 5, 9), (R.EDG_PT_DIE_DIE 5, 3), (R.EDG_PT_TIME_TIMEOUT 5, 20)]).setReg (R.EDG_PT_ID_LO 5) 0x77) with edg := { (({ rig with ties := { rig.ties with edges := 1 } }.puts [(R.EDG_CTL_EN 0, 1), (R.EDG_STAT_LINK_UP 0, 1), (R.EDG_PT_CFG_VALID 5, 1), (R.EDG_PT_CFG_PCTX 5, 2), (R.EDG_PT_CFG_RD_MAX 5, 4), (R.EDG_PT_STAT_STATE 5, 2), (R.EDG_PT_STAT_EPOCH 5, 1), (R.EDG_PT_RATE_BURST 5, 1000), (R.EDG_PT_RATE_RATE 5, 9), (R.EDG_PT_DIE_DIE 5, 3), (R.EDG_PT_TIME_TIMEOUT 5, 20)]).setReg (R.EDG_PT_ID_LO 5) 0x77).edg with gws := [(0, { Gateway.idle with tx := [{ pkt := { typ := 0x21, status := 0, len := 0, seq := 1, serial := 0x77, die := 3, gw := 0, epoch := 1, reqId := 1, addr := 0x4000, arg := 0, payload := [], beatBytes := 48, tagOk := true }, part := 5, since := 0, take := some (us 30) }] })] } } with time := { rig.time with real := us 20 } } : State).f (R.EDG_PT_TIME_TIMEOUT ({ pkt := { typ := 0x21, status := 0, len := 0, seq := 1, serial := 0x77, die := 3, gw := 0, epoch := 1, reqId := 1, addr := 0x4000, arg := 0, payload := [], beatBytes := 48, tagOk := true }, part := 5, since := 0, take := some (us 30) } : TxPkt).part)) ≤ ({ { (({ rig with ties := { rig.ties with edges := 1 } }.puts [(R.EDG_CTL_EN 0, 1), (R.EDG_STAT_LINK_UP 0, 1), (R.EDG_PT_CFG_VALID 5, 1), (R.EDG_PT_CFG_PCTX 5, 2), (R.EDG_PT_CFG_RD_MAX 5, 4), (R.EDG_PT_STAT_STATE 5, 2), (R.EDG_PT_STAT_EPOCH 5, 1), (R.EDG_PT_RATE_BURST 5, 1000), (R.EDG_PT_RATE_RATE 5, 9), (R.EDG_PT_DIE_DIE 5, 3), (R.EDG_PT_TIME_TIMEOUT 5, 20)]).setReg (R.EDG_PT_ID_LO 5) 0x77) with edg := { (({ rig with ties := { rig.ties with edges := 1 } }.puts [(R.EDG_CTL_EN 0, 1), (R.EDG_STAT_LINK_UP 0, 1), (R.EDG_PT_CFG_VALID 5, 1), (R.EDG_PT_CFG_PCTX 5, 2), (R.EDG_PT_CFG_RD_MAX 5, 4), (R.EDG_PT_STAT_STATE 5, 2), (R.EDG_PT_STAT_EPOCH 5, 1), (R.EDG_PT_RATE_BURST 5, 1000), (R.EDG_PT_RATE_RATE 5, 9), (R.EDG_PT_DIE_DIE 5, 3), (R.EDG_PT_TIME_TIMEOUT 5, 20)]).setReg (R.EDG_PT_ID_LO 5) 0x77).edg with gws := [(0, { Gateway.idle with tx := [{ pkt := { typ := 0x21, status := 0, len := 0, seq := 1, serial := 0x77, die := 3, gw := 0, epoch := 1, reqId := 1, addr := 0x4000, arg := 0, payload := [], beatBytes := 48, tagOk := true }, part := 5, since := 0, take := some (us 30) }] })] } } with time := { rig.time with real := us 20 } } : State).time.real) := by decide +kernel

theorem witness_gatewayCommandsRun_txRspTimeout_taken :
    (({ { (({ rig with ties := { rig.ties with edges := 1 } }.puts [(R.EDG_CTL_EN 0, 1), (R.EDG_STAT_LINK_UP 0, 1), (R.EDG_PT_CFG_VALID 5, 1), (R.EDG_PT_CFG_PCTX 5, 2), (R.EDG_PT_CFG_RD_MAX 5, 4), (R.EDG_PT_STAT_STATE 5, 2), (R.EDG_PT_STAT_EPOCH 5, 1), (R.EDG_PT_RATE_BURST 5, 1000), (R.EDG_PT_RATE_RATE 5, 9), (R.EDG_PT_DIE_DIE 5, 3), (R.EDG_PT_TIME_TIMEOUT 5, 20)]).setReg (R.EDG_PT_ID_LO 5) 0x77) with edg := { (({ rig with ties := { rig.ties with edges := 1 } }.puts [(R.EDG_CTL_EN 0, 1), (R.EDG_STAT_LINK_UP 0, 1), (R.EDG_PT_CFG_VALID 5, 1), (R.EDG_PT_CFG_PCTX 5, 2), (R.EDG_PT_CFG_RD_MAX 5, 4), (R.EDG_PT_STAT_STATE 5, 2), (R.EDG_PT_STAT_EPOCH 5, 1), (R.EDG_PT_RATE_BURST 5, 1000), (R.EDG_PT_RATE_RATE 5, 9), (R.EDG_PT_DIE_DIE 5, 3), (R.EDG_PT_TIME_TIMEOUT 5, 20)]).setReg (R.EDG_PT_ID_LO 5) 0x77).edg with gws := [(0, { Gateway.idle with tx := [{ pkt := { typ := 0x21, status := 0, len := 0, seq := 1, serial := 0x77, die := 3, gw := 0, epoch := 1, reqId := 1, addr := 0x4000, arg := 0, payload := [], beatBytes := 48, tagOk := true }, part := 5, since := 0, take := some 5 }] })] } } with time := { rig.time with real := us 20 } } : State).loose.acked = []) ∧
    ((({ { (({ rig with ties := { rig.ties with edges := 1 } }.puts [(R.EDG_CTL_EN 0, 1), (R.EDG_STAT_LINK_UP 0, 1), (R.EDG_PT_CFG_VALID 5, 1), (R.EDG_PT_CFG_PCTX 5, 2), (R.EDG_PT_CFG_RD_MAX 5, 4), (R.EDG_PT_STAT_STATE 5, 2), (R.EDG_PT_STAT_EPOCH 5, 1), (R.EDG_PT_RATE_BURST 5, 1000), (R.EDG_PT_RATE_RATE 5, 9), (R.EDG_PT_DIE_DIE 5, 3), (R.EDG_PT_TIME_TIMEOUT 5, 20)]).setReg (R.EDG_PT_ID_LO 5) 0x77) with edg := { (({ rig with ties := { rig.ties with edges := 1 } }.puts [(R.EDG_CTL_EN 0, 1), (R.EDG_STAT_LINK_UP 0, 1), (R.EDG_PT_CFG_VALID 5, 1), (R.EDG_PT_CFG_PCTX 5, 2), (R.EDG_PT_CFG_RD_MAX 5, 4), (R.EDG_PT_STAT_STATE 5, 2), (R.EDG_PT_STAT_EPOCH 5, 1), (R.EDG_PT_RATE_BURST 5, 1000), (R.EDG_PT_RATE_RATE 5, 9), (R.EDG_PT_DIE_DIE 5, 3), (R.EDG_PT_TIME_TIMEOUT 5, 20)]).setReg (R.EDG_PT_ID_LO 5) 0x77).edg with gws := [(0, { Gateway.idle with tx := [{ pkt := { typ := 0x21, status := 0, len := 0, seq := 1, serial := 0x77, die := 3, gw := 0, epoch := 1, reqId := 1, addr := 0x4000, arg := 0, payload := [], beatBytes := 48, tagOk := true }, part := 5, since := 0, take := some 5 }] })] } } with time := { rig.time with real := us 20 } } : State).gw (0 : Gw)).ins = []) ∧
    ((({ { (({ rig with ties := { rig.ties with edges := 1 } }.puts [(R.EDG_CTL_EN 0, 1), (R.EDG_STAT_LINK_UP 0, 1), (R.EDG_PT_CFG_VALID 5, 1), (R.EDG_PT_CFG_PCTX 5, 2), (R.EDG_PT_CFG_RD_MAX 5, 4), (R.EDG_PT_STAT_STATE 5, 2), (R.EDG_PT_STAT_EPOCH 5, 1), (R.EDG_PT_RATE_BURST 5, 1000), (R.EDG_PT_RATE_RATE 5, 9), (R.EDG_PT_DIE_DIE 5, 3), (R.EDG_PT_TIME_TIMEOUT 5, 20)]).setReg (R.EDG_PT_ID_LO 5) 0x77) with edg := { (({ rig with ties := { rig.ties with edges := 1 } }.puts [(R.EDG_CTL_EN 0, 1), (R.EDG_STAT_LINK_UP 0, 1), (R.EDG_PT_CFG_VALID 5, 1), (R.EDG_PT_CFG_PCTX 5, 2), (R.EDG_PT_CFG_RD_MAX 5, 4), (R.EDG_PT_STAT_STATE 5, 2), (R.EDG_PT_STAT_EPOCH 5, 1), (R.EDG_PT_RATE_BURST 5, 1000), (R.EDG_PT_RATE_RATE 5, 9), (R.EDG_PT_DIE_DIE 5, 3), (R.EDG_PT_TIME_TIMEOUT 5, 20)]).setReg (R.EDG_PT_ID_LO 5) 0x77).edg with gws := [(0, { Gateway.idle with tx := [{ pkt := { typ := 0x21, status := 0, len := 0, seq := 1, serial := 0x77, die := 3, gw := 0, epoch := 1, reqId := 1, addr := 0x4000, arg := 0, payload := [], beatBytes := 48, tagOk := true }, part := 5, since := 0, take := some 5 }] })] } } with time := { rig.time with real := us 20 } } : State).gw (0 : Gw)).tx = [({ pkt := { typ := 0x21, status := 0, len := 0, seq := 1, serial := 0x77, die := 3, gw := 0, epoch := 1, reqId := 1, addr := 0x4000, arg := 0, payload := [], beatBytes := 48, tagOk := true }, part := 5, since := 0, take := some 5 } : TxPkt)]) ∧
    (({ pkt := { typ := 0x21, status := 0, len := 0, seq := 1, serial := 0x77, die := 3, gw := 0, epoch := 1, reqId := 1, addr := 0x4000, arg := 0, payload := [], beatBytes := 48, tagOk := true }, part := 5, since := 0, take := some 5 } : TxPkt).take = some (5 : Nat)) ∧
    ((5 : Nat) ≤ ({ { (({ rig with ties := { rig.ties with edges := 1 } }.puts [(R.EDG_CTL_EN 0, 1), (R.EDG_STAT_LINK_UP 0, 1), (R.EDG_PT_CFG_VALID 5, 1), (R.EDG_PT_CFG_PCTX 5, 2), (R.EDG_PT_CFG_RD_MAX 5, 4), (R.EDG_PT_STAT_STATE 5, 2), (R.EDG_PT_STAT_EPOCH 5, 1), (R.EDG_PT_RATE_BURST 5, 1000), (R.EDG_PT_RATE_RATE 5, 9), (R.EDG_PT_DIE_DIE 5, 3), (R.EDG_PT_TIME_TIMEOUT 5, 20)]).setReg (R.EDG_PT_ID_LO 5) 0x77) with edg := { (({ rig with ties := { rig.ties with edges := 1 } }.puts [(R.EDG_CTL_EN 0, 1), (R.EDG_STAT_LINK_UP 0, 1), (R.EDG_PT_CFG_VALID 5, 1), (R.EDG_PT_CFG_PCTX 5, 2), (R.EDG_PT_CFG_RD_MAX 5, 4), (R.EDG_PT_STAT_STATE 5, 2), (R.EDG_PT_STAT_EPOCH 5, 1), (R.EDG_PT_RATE_BURST 5, 1000), (R.EDG_PT_RATE_RATE 5, 9), (R.EDG_PT_DIE_DIE 5, 3), (R.EDG_PT_TIME_TIMEOUT 5, 20)]).setReg (R.EDG_PT_ID_LO 5) 0x77).edg with gws := [(0, { Gateway.idle with tx := [{ pkt := { typ := 0x21, status := 0, len := 0, seq := 1, serial := 0x77, die := 3, gw := 0, epoch := 1, reqId := 1, addr := 0x4000, arg := 0, payload := [], beatBytes := 48, tagOk := true }, part := 5, since := 0, take := some 5 }] })] } } with time := { rig.time with real := us 20 } } : State).time.real) ∧
    (({ { (({ rig with ties := { rig.ties with edges := 1 } }.puts [(R.EDG_CTL_EN 0, 1), (R.EDG_STAT_LINK_UP 0, 1), (R.EDG_PT_CFG_VALID 5, 1), (R.EDG_PT_CFG_PCTX 5, 2), (R.EDG_PT_CFG_RD_MAX 5, 4), (R.EDG_PT_STAT_STATE 5, 2), (R.EDG_PT_STAT_EPOCH 5, 1), (R.EDG_PT_RATE_BURST 5, 1000), (R.EDG_PT_RATE_RATE 5, 9), (R.EDG_PT_DIE_DIE 5, 3), (R.EDG_PT_TIME_TIMEOUT 5, 20)]).setReg (R.EDG_PT_ID_LO 5) 0x77) with edg := { (({ rig with ties := { rig.ties with edges := 1 } }.puts [(R.EDG_CTL_EN 0, 1), (R.EDG_STAT_LINK_UP 0, 1), (R.EDG_PT_CFG_VALID 5, 1), (R.EDG_PT_CFG_PCTX 5, 2), (R.EDG_PT_CFG_RD_MAX 5, 4), (R.EDG_PT_STAT_STATE 5, 2), (R.EDG_PT_STAT_EPOCH 5, 1), (R.EDG_PT_RATE_BURST 5, 1000), (R.EDG_PT_RATE_RATE 5, 9), (R.EDG_PT_DIE_DIE 5, 3), (R.EDG_PT_TIME_TIMEOUT 5, 20)]).setReg (R.EDG_PT_ID_LO 5) 0x77).edg with gws := [(0, { Gateway.idle with tx := [{ pkt := { typ := 0x21, status := 0, len := 0, seq := 1, serial := 0x77, die := 3, gw := 0, epoch := 1, reqId := 1, addr := 0x4000, arg := 0, payload := [], beatBytes := 48, tagOk := true }, part := 5, since := 0, take := some 5 }] })] } } with time := { rig.time with real := us 20 } } : State).bit (R.EDG_STAT_LINK_UP (0 : Gw)) = true) := by decide +kernel


theorem witness_partnersComeAndGo_edgeLinkUp :
    ((((({ rig with ties := { rig.ties with edges := 1 } }.puts [(R.EDG_CTL_EN 0, 1), (R.EDG_STAT_LINK_UP 0, 1), (R.EDG_PT_CFG_VALID 5, 1), (R.EDG_PT_CFG_PCTX 5, 2), (R.EDG_PT_CFG_RD_MAX 5, 4), (R.EDG_PT_STAT_STATE 5, 1), (R.EDG_PT_STAT_EPOCH 5, 1), (R.EDG_PT_RATE_BURST 5, 1000), (R.EDG_PT_RATE_RATE 5, 9), (R.EDG_PT_DIE_DIE 5, 3), (R.EDG_PT_TIME_TIMEOUT 5, 20)]).setReg (R.EDG_PT_ID_LO 5) 0x77).put (R.EDG_STAT_LINK_UP 0) 0) : State).bit (R.EDG_STAT_LINK_UP (0 : Gw)) = false) ∧
    ((0 : Gw).val < (((({ rig with ties := { rig.ties with edges := 1 } }.puts [(R.EDG_CTL_EN 0, 1), (R.EDG_STAT_LINK_UP 0, 1), (R.EDG_PT_CFG_VALID 5, 1), (R.EDG_PT_CFG_PCTX 5, 2), (R.EDG_PT_CFG_RD_MAX 5, 4), (R.EDG_PT_STAT_STATE 5, 1), (R.EDG_PT_STAT_EPOCH 5, 1), (R.EDG_PT_RATE_BURST 5, 1000), (R.EDG_PT_RATE_RATE 5, 9), (R.EDG_PT_DIE_DIE 5, 3), (R.EDG_PT_TIME_TIMEOUT 5, 20)]).setReg (R.EDG_PT_ID_LO 5) 0x77).put (R.EDG_STAT_LINK_UP 0) 0) : State).ties.edges) ∧
    ((((((({ rig with ties := { rig.ties with edges := 1 } }.puts [(R.EDG_CTL_EN 0, 1), (R.EDG_STAT_LINK_UP 0, 1), (R.EDG_PT_CFG_VALID 5, 1), (R.EDG_PT_CFG_PCTX 5, 2), (R.EDG_PT_CFG_RD_MAX 5, 4), (R.EDG_PT_STAT_STATE 5, 1), (R.EDG_PT_STAT_EPOCH 5, 1), (R.EDG_PT_RATE_BURST 5, 1000), (R.EDG_PT_RATE_RATE 5, 9), (R.EDG_PT_DIE_DIE 5, 3), (R.EDG_PT_TIME_TIMEOUT 5, 20)]).setReg (R.EDG_PT_ID_LO 5) 0x77).put (R.EDG_STAT_LINK_UP 0) 0).put (R.EDG_STAT_LINK_UP 0) 1).setGw 0 { ((({ rig with ties := { rig.ties with edges := 1 } }.puts [(R.EDG_CTL_EN 0, 1), (R.EDG_STAT_LINK_UP 0, 1), (R.EDG_PT_CFG_VALID 5, 1), (R.EDG_PT_CFG_PCTX 5, 2), (R.EDG_PT_CFG_RD_MAX 5, 4), (R.EDG_PT_STAT_STATE 5, 1), (R.EDG_PT_STAT_EPOCH 5, 1), (R.EDG_PT_RATE_BURST 5, 1000), (R.EDG_PT_RATE_RATE 5, 9), (R.EDG_PT_DIE_DIE 5, 3), (R.EDG_PT_TIME_TIMEOUT 5, 20)]).setReg (R.EDG_PT_ID_LO 5) 0x77).put (R.EDG_STAT_LINK_UP 0) 0).gw 0 with helloed := [] }).txHead 0 : State) = (((((({ rig with ties := { rig.ties with edges := 1 } }.puts [(R.EDG_CTL_EN 0, 1), (R.EDG_STAT_LINK_UP 0, 1), (R.EDG_PT_CFG_VALID 5, 1), (R.EDG_PT_CFG_PCTX 5, 2), (R.EDG_PT_CFG_RD_MAX 5, 4), (R.EDG_PT_STAT_STATE 5, 1), (R.EDG_PT_STAT_EPOCH 5, 1), (R.EDG_PT_RATE_BURST 5, 1000), (R.EDG_PT_RATE_RATE 5, 9), (R.EDG_PT_DIE_DIE 5, 3), (R.EDG_PT_TIME_TIMEOUT 5, 20)]).setReg (R.EDG_PT_ID_LO 5) 0x77).put (R.EDG_STAT_LINK_UP 0) 0) : State).put (R.EDG_STAT_LINK_UP (0 : Gw)) 1).setGw (0 : Gw) { (((({ rig with ties := { rig.ties with edges := 1 } }.puts [(R.EDG_CTL_EN 0, 1), (R.EDG_STAT_LINK_UP 0, 1), (R.EDG_PT_CFG_VALID 5, 1), (R.EDG_PT_CFG_PCTX 5, 2), (R.EDG_PT_CFG_RD_MAX 5, 4), (R.EDG_PT_STAT_STATE 5, 1), (R.EDG_PT_STAT_EPOCH 5, 1), (R.EDG_PT_RATE_BURST 5, 1000), (R.EDG_PT_RATE_RATE 5, 9), (R.EDG_PT_DIE_DIE 5, 3), (R.EDG_PT_TIME_TIMEOUT 5, 20)]).setReg (R.EDG_PT_ID_LO 5) 0x77).put (R.EDG_STAT_LINK_UP 0) 0) : State).gw (0 : Gw) with helloed := [] }).txHead (0 : Gw)) ∧
    ((((((({ rig with ties := { rig.ties with edges := 1 } }.puts [(R.EDG_CTL_EN 0, 1), (R.EDG_STAT_LINK_UP 0, 1), (R.EDG_PT_CFG_VALID 5, 1), (R.EDG_PT_CFG_PCTX 5, 2), (R.EDG_PT_CFG_RD_MAX 5, 4), (R.EDG_PT_STAT_STATE 5, 1), (R.EDG_PT_STAT_EPOCH 5, 1), (R.EDG_PT_RATE_BURST 5, 1000), (R.EDG_PT_RATE_RATE 5, 9), (R.EDG_PT_DIE_DIE 5, 3), (R.EDG_PT_TIME_TIMEOUT 5, 20)]).setReg (R.EDG_PT_ID_LO 5) 0x77).put (R.EDG_STAT_LINK_UP 0) 0).put (R.EDG_STAT_LINK_UP 0) 1).setGw 0 { ((({ rig with ties := { rig.ties with edges := 1 } }.puts [(R.EDG_CTL_EN 0, 1), (R.EDG_STAT_LINK_UP 0, 1), (R.EDG_PT_CFG_VALID 5, 1), (R.EDG_PT_CFG_PCTX 5, 2), (R.EDG_PT_CFG_RD_MAX 5, 4), (R.EDG_PT_STAT_STATE 5, 1), (R.EDG_PT_STAT_EPOCH 5, 1), (R.EDG_PT_RATE_BURST 5, 1000), (R.EDG_PT_RATE_RATE 5, 9), (R.EDG_PT_DIE_DIE 5, 3), (R.EDG_PT_TIME_TIMEOUT 5, 20)]).setReg (R.EDG_PT_ID_LO 5) 0x77).put (R.EDG_STAT_LINK_UP 0) 0).gw 0 with helloed := [] }).txHead 0 : State).gwIn (0 : Gw) = true) := by decide +kernel

theorem witness_partnersComeAndGo_helloRepeat :
    (((({ rig with ties := { rig.ties with edges := 1 } }.puts [(R.EDG_CTL_EN 0, 1), (R.EDG_STAT_LINK_UP 0, 1), (R.EDG_PT_CFG_VALID 5, 1), (R.EDG_PT_CFG_PCTX 5, 2), (R.EDG_PT_CFG_RD_MAX 5, 4), (R.EDG_PT_STAT_STATE 5, 1), (R.EDG_PT_STAT_EPOCH 5, 1), (R.EDG_PT_RATE_BURST 5, 1000), (R.EDG_PT_RATE_RATE 5, 9), (R.EDG_PT_DIE_DIE 5, 3), (R.EDG_PT_TIME_TIMEOUT 5, 20)]).setReg (R.EDG_PT_ID_LO 5) 0x77) : State).gwIn (0 : Gw) = true) ∧
    (((({ rig with ties := { rig.ties with edges := 1 } }.puts [(R.EDG_CTL_EN 0, 1), (R.EDG_STAT_LINK_UP 0, 1), (R.EDG_PT_CFG_VALID 5, 1), (R.EDG_PT_CFG_PCTX 5, 2), (R.EDG_PT_CFG_RD_MAX 5, 4), (R.EDG_PT_STAT_STATE 5, 1), (R.EDG_PT_STAT_EPOCH 5, 1), (R.EDG_PT_RATE_BURST 5, 1000), (R.EDG_PT_RATE_RATE 5, 9), (R.EDG_PT_DIE_DIE 5, 3), (R.EDG_PT_TIME_TIMEOUT 5, 20)]).setReg (R.EDG_PT_ID_LO 5) 0x77) : State).bit (R.EDG_STAT_LINK_UP (0 : Gw)) = true) := by decide +kernel

theorem witness_partnersComeAndGo_keepaliveSend :
    (({ (({ rig with ties := { rig.ties with edges := 1 } }.puts [(R.EDG_CTL_EN 0, 1), (R.EDG_STAT_LINK_UP 0, 1), (R.EDG_PT_CFG_VALID 5, 1), (R.EDG_PT_CFG_PCTX 5, 2), (R.EDG_PT_CFG_RD_MAX 5, 4), (R.EDG_PT_STAT_STATE 5, 2), (R.EDG_PT_STAT_EPOCH 5, 1), (R.EDG_PT_RATE_BURST 5, 1000), (R.EDG_PT_RATE_RATE 5, 9), (R.EDG_PT_DIE_DIE 5, 3), (R.EDG_PT_TIME_TIMEOUT 5, 20)]).setReg (R.EDG_PT_ID_LO 5) 0x77) with time := { rig.time with real := us 20 } } : State).partState (5 : Partner) = 2) ∧
    ((us 20 / 4 : Nat) = us (({ (({ rig with ties := { rig.ties with edges := 1 } }.puts [(R.EDG_CTL_EN 0, 1), (R.EDG_STAT_LINK_UP 0, 1), (R.EDG_PT_CFG_VALID 5, 1), (R.EDG_PT_CFG_PCTX 5, 2), (R.EDG_PT_CFG_RD_MAX 5, 4), (R.EDG_PT_STAT_STATE 5, 2), (R.EDG_PT_STAT_EPOCH 5, 1), (R.EDG_PT_RATE_BURST 5, 1000), (R.EDG_PT_RATE_RATE 5, 9), (R.EDG_PT_DIE_DIE 5, 3), (R.EDG_PT_TIME_TIMEOUT 5, 20)]).setReg (R.EDG_PT_ID_LO 5) 0x77) with time := { rig.time with real := us 20 } } : State).f (R.EDG_PT_TIME_TIMEOUT (5 : Partner))) / 4) ∧
    ((({ (({ rig with ties := { rig.ties with edges := 1 } }.puts [(R.EDG_CTL_EN 0, 1), (R.EDG_STAT_LINK_UP 0, 1), (R.EDG_PT_CFG_VALID 5, 1), (R.EDG_PT_CFG_PCTX 5, 2), (R.EDG_PT_CFG_RD_MAX 5, 4), (R.EDG_PT_STAT_STATE 5, 2), (R.EDG_PT_STAT_EPOCH 5, 1), (R.EDG_PT_RATE_BURST 5, 1000), (R.EDG_PT_RATE_RATE 5, 9), (R.EDG_PT_DIE_DIE 5, 3), (R.EDG_PT_TIME_TIMEOUT 5, 20)]).setReg (R.EDG_PT_ID_LO 5) 0x77) with time := { rig.time with real := us 20 } } : State).part (5 : Partner)).spoke + (us 20 / 4 : Nat) ≤ ({ (({ rig with ties := { rig.ties with edges := 1 } }.puts [(R.EDG_CTL_EN 0, 1), (R.EDG_STAT_LINK_UP 0, 1), (R.EDG_PT_CFG_VALID 5, 1), (R.EDG_PT_CFG_PCTX 5, 2), (R.EDG_PT_CFG_RD_MAX 5, 4), (R.EDG_PT_STAT_STATE 5, 2), (R.EDG_PT_STAT_EPOCH 5, 1), (R.EDG_PT_RATE_BURST 5, 1000), (R.EDG_PT_RATE_RATE 5, 9), (R.EDG_PT_DIE_DIE 5, 3), (R.EDG_PT_TIME_TIMEOUT 5, 20)]).setReg (R.EDG_PT_ID_LO 5) 0x77) with time := { rig.time with real := us 20 } } : State).time.real) := by decide +kernel

theorem witness_partnersComeAndGo_partnerTimeout :
    (({ (({ rig with ties := { rig.ties with edges := 1 } }.puts [(R.EDG_CTL_EN 0, 1), (R.EDG_STAT_LINK_UP 0, 1), (R.EDG_PT_CFG_VALID 5, 1), (R.EDG_PT_CFG_PCTX 5, 2), (R.EDG_PT_CFG_RD_MAX 5, 4), (R.EDG_PT_STAT_STATE 5, 2), (R.EDG_PT_STAT_EPOCH 5, 1), (R.EDG_PT_RATE_BURST 5, 1000), (R.EDG_PT_RATE_RATE 5, 9), (R.EDG_PT_DIE_DIE 5, 3), (R.EDG_PT_TIME_TIMEOUT 5, 20)]).setReg (R.EDG_PT_ID_LO 5) 0x77) with time := { rig.time with real := us 20 } } : State).partState (5 : Partner) = 2) ∧
    ((({ (({ rig with ties := { rig.ties with edges := 1 } }.puts [(R.EDG_CTL_EN 0, 1), (R.EDG_STAT_LINK_UP 0, 1), (R.EDG_PT_CFG_VALID 5, 1), (R.EDG_PT_CFG_PCTX 5, 2), (R.EDG_PT_CFG_RD_MAX 5, 4), (R.EDG_PT_STAT_STATE 5, 2), (R.EDG_PT_STAT_EPOCH 5, 1), (R.EDG_PT_RATE_BURST 5, 1000), (R.EDG_PT_RATE_RATE 5, 9), (R.EDG_PT_DIE_DIE 5, 3), (R.EDG_PT_TIME_TIMEOUT 5, 20)]).setReg (R.EDG_PT_ID_LO 5) 0x77) with time := { rig.time with real := us 20 } } : State).part (5 : Partner)).heard + us (({ (({ rig with ties := { rig.ties with edges := 1 } }.puts [(R.EDG_CTL_EN 0, 1), (R.EDG_STAT_LINK_UP 0, 1), (R.EDG_PT_CFG_VALID 5, 1), (R.EDG_PT_CFG_PCTX 5, 2), (R.EDG_PT_CFG_RD_MAX 5, 4), (R.EDG_PT_STAT_STATE 5, 2), (R.EDG_PT_STAT_EPOCH 5, 1), (R.EDG_PT_RATE_BURST 5, 1000), (R.EDG_PT_RATE_RATE 5, 9), (R.EDG_PT_DIE_DIE 5, 3), (R.EDG_PT_TIME_TIMEOUT 5, 20)]).setReg (R.EDG_PT_ID_LO 5) 0x77) with time := { rig.time with real := us 20 } } : State).f (R.EDG_PT_TIME_TIMEOUT (5 : Partner))) ≤ ({ (({ rig with ties := { rig.ties with edges := 1 } }.puts [(R.EDG_CTL_EN 0, 1), (R.EDG_STAT_LINK_UP 0, 1), (R.EDG_PT_CFG_VALID 5, 1), (R.EDG_PT_CFG_PCTX 5, 2), (R.EDG_PT_CFG_RD_MAX 5, 4), (R.EDG_PT_STAT_STATE 5, 2), (R.EDG_PT_STAT_EPOCH 5, 1), (R.EDG_PT_RATE_BURST 5, 1000), (R.EDG_PT_RATE_RATE 5, 9), (R.EDG_PT_DIE_DIE 5, 3), (R.EDG_PT_TIME_TIMEOUT 5, 20)]).setReg (R.EDG_PT_ID_LO 5) 0x77) with time := { rig.time with real := us 20 } } : State).time.real) := by decide +kernel

theorem witness_partnersComeAndGo_partnerTimeout_down :
    ((63 : Nat) < 64) ∧
    ((3 : Nat) < 4) := by decide +kernel

theorem witness_partnersComeAndGo_partnerKeyGo :
    (edgMaster (Master.sec : Master) = true) ∧
    (vbit (1 : W32) 1 = false) ∧
    ((((({ rig with ties := { rig.ties with edges := 1 } }.puts [(R.EDG_CTL_EN 0, 1), (R.EDG_STAT_LINK_UP 0, 1), (R.EDG_PT_CFG_VALID 5, 1), (R.EDG_PT_CFG_PCTX 5, 2), (R.EDG_PT_CFG_RD_MAX 5, 4), (R.EDG_PT_STAT_STATE 5, 2), (R.EDG_PT_STAT_EPOCH 5, 1), (R.EDG_PT_RATE_BURST 5, 1000), (R.EDG_PT_RATE_RATE 5, 9), (R.EDG_PT_DIE_DIE 5, 3), (R.EDG_PT_TIME_TIMEOUT 5, 20)]).setReg (R.EDG_PT_ID_LO 5) 0x77).put (R.EDG_PT_STAT_EPOCH 5) 255) : State).partState (5 : Partner) ≠ 0) ∧
    ((((({ rig with ties := { rig.ties with edges := 1 } }.puts [(R.EDG_CTL_EN 0, 1), (R.EDG_STAT_LINK_UP 0, 1), (R.EDG_PT_CFG_VALID 5, 1), (R.EDG_PT_CFG_PCTX 5, 2), (R.EDG_PT_CFG_RD_MAX 5, 4), (R.EDG_PT_STAT_STATE 5, 2), (R.EDG_PT_STAT_EPOCH 5, 1), (R.EDG_PT_RATE_BURST 5, 1000), (R.EDG_PT_RATE_RATE 5, 9), (R.EDG_PT_DIE_DIE 5, 3), (R.EDG_PT_TIME_TIMEOUT 5, 20)]).setReg (R.EDG_PT_ID_LO 5) 0x77).put (R.EDG_PT_STAT_EPOCH 5) 255) : State).rgsShut (masterIdx (Master.sec : Master)) = false) := by decide +kernel

theorem witness_partnersComeAndGo_partnerClear :
    (edgMaster (Master.dbg : Master) = true) ∧
    (((({ rig with ties := { rig.ties with edges := 1 } }.puts [(R.EDG_CTL_EN 0, 1), (R.EDG_STAT_LINK_UP 0, 1), (R.EDG_PT_CFG_VALID 5, 1), (R.EDG_PT_CFG_PCTX 5, 2), (R.EDG_PT_CFG_RD_MAX 5, 4), (R.EDG_PT_STAT_STATE 5, 2), (R.EDG_PT_STAT_EPOCH 5, 1), (R.EDG_PT_RATE_BURST 5, 1000), (R.EDG_PT_RATE_RATE 5, 9), (R.EDG_PT_DIE_DIE 5, 3), (R.EDG_PT_TIME_TIMEOUT 5, 20)]).setReg (R.EDG_PT_ID_LO 5) 0x77) : State).rgsShut (masterIdx (Master.dbg : Master)) = false) := by decide +kernel

theorem witness_partnersComeAndGo_edgeEnWrite :
    ((edgMaster (Master.pwc : Master) || (Master.pwc : Master) == .pwc) = true) ∧
    (((({ rig with ties := { rig.ties with edges := 1 } }.puts [(R.EDG_CTL_EN 0, 1), (R.EDG_STAT_LINK_UP 0, 1), (R.EDG_PT_CFG_VALID 5, 1), (R.EDG_PT_CFG_PCTX 5, 2), (R.EDG_PT_CFG_RD_MAX 5, 4), (R.EDG_PT_STAT_STATE 5, 2), (R.EDG_PT_STAT_EPOCH 5, 1), (R.EDG_PT_RATE_BURST 5, 1000), (R.EDG_PT_RATE_RATE 5, 9), (R.EDG_PT_DIE_DIE 5, 3), (R.EDG_PT_TIME_TIMEOUT 5, 20)]).setReg (R.EDG_PT_ID_LO 5) 0x77) : State).rgsShut (masterIdx (Master.pwc : Master)) = false) := by decide +kernel


theorem witness_theCabinetMapIsWrittenAndRebuilt_cmapCtlWrite :
    (rig : State).rgsShut (masterIdx .sec) = false := by decide +kernel

theorem witness_theCabinetMapIsWrittenAndRebuilt_cmapCtlWrite_current :
    ((1 : Nat) < 2) ∧
    ((1 : Nat) ≠ (rig.put R.IDV_CMAP_CTL_G1_LOG 0 : State).cur) ∧
    ((rig.put R.IDV_CMAP_CTL_G1_LOG 0 : State).mapCheck (1 : Nat) = true) := by decide +kernel

theorem witness_theCabinetMapIsWrittenAndRebuilt_cmapCtlWrite_count :
    ((1 : Nat) < 2) ∧
    ((200 : Nat) < 256) ∧
    ((rig : State).genFree (1 : Nat) = true) := by decide +kernel

theorem witness_theCabinetMapIsWrittenAndRebuilt_cmapEntryWrite :
    ((rig : State).genFree (1 : Fin 2) = true) ∧
    ((rig : State).rgsShut (masterIdx .sec) = false) := by decide +kernel

theorem witness_theCabinetMapIsWrittenAndRebuilt_cmapEntryWrite_used :
    ((rig : State).genFree (0 : Fin 2) = false) ∧
    ((rig : State).rgsShut (masterIdx .sec) = false) := by decide +kernel

theorem witness_theCabinetMapIsWrittenAndRebuilt_detWrite :
    ((rig : State).fenced (127 : Cab) = false) ∧
    ((rig : State).rgsShut (masterIdx .sec) = false) := by decide +kernel

theorem witness_theCabinetMapIsWrittenAndRebuilt_mapRebuild :
    (({ rig.put R.HLM_BOOT_CTL_BOOT_LOCK 1 with rep := { rig.rep with rebuild := true }, masked := [], ties := { rig.ties with cols := 2, rows := 1 } } : State).rep.rebuild = true) ∧
    (({ rig.put R.HLM_BOOT_CTL_BOOT_LOCK 1 with rep := { rig.rep with rebuild := true }, masked := [], ties := { rig.ties with cols := 2, rows := 1 } } : State).masked.contains 0 = false) ∧
    ((({ rig.put R.HLM_BOOT_CTL_BOOT_LOCK 1 with rep := { rig.rep with rebuild := true }, masked := [], ties := { rig.ties with cols := 2, rows := 1 } } : State).bit R.MGT_MODE_MODE && !({ rig.put R.HLM_BOOT_CTL_BOOT_LOCK 1 with rep := { rig.rep with rebuild := true }, masked := [], ties := { rig.ties with cols := 2, rows := 1 } } : State).bit (bitFld R.MGT_CORE_STAT 0)) = false) ∧
    (({ rig.put R.HLM_BOOT_CTL_BOOT_LOCK 1 with rep := { rig.rep with rebuild := true }, masked := [], ties := { rig.ties with cols := 2, rows := 1 } } : State).rgsShut 0 = false) ∧
    (({ rig.put R.HLM_BOOT_CTL_BOOT_LOCK 1 with rep := { rig.rep with rebuild := true }, masked := [], ties := { rig.ties with cols := 2, rows := 1 } } : State).bootLocked = true) ∧
    ((({ rig.put R.HLM_BOOT_CTL_BOOT_LOCK 1 with rep := { rig.rep with rebuild := true }, masked := [], ties := { rig.ties with cols := 2, rows := 1 } } : State).detAll : State) = ({ rig.put R.HLM_BOOT_CTL_BOOT_LOCK 1 with rep := { rig.rep with rebuild := true }, masked := [], ties := { rig.ties with cols := 2, rows := 1 } } : State).detAll) ∧
    ((({ rig.put R.HLM_BOOT_CTL_BOOT_LOCK 1 with rep := { rig.rep with rebuild := true }, masked := [], ties := { rig.ties with cols := 2, rows := 1 } } : State).detAll : State).genUsed (1 - ({ rig.put R.HLM_BOOT_CTL_BOOT_LOCK 1 with rep := { rig.rep with rebuild := true }, masked := [], ties := { rig.ties with cols := 2, rows := 1 } } : State).cur) = false) ∧
    ((({ rig.put R.HLM_BOOT_CTL_BOOT_LOCK 1 with rep := { rig.rep with rebuild := true }, masked := [], ties := { rig.ties with cols := 2, rows := 1 } } : State).detAll : State).genKept (1 - ({ rig.put R.HLM_BOOT_CTL_BOOT_LOCK 1 with rep := { rig.rep with rebuild := true }, masked := [], ties := { rig.ties with cols := 2, rows := 1 } } : State).cur) = false) ∧
    ((({ rig.put R.HLM_BOOT_CTL_BOOT_LOCK 1 with rep := { rig.rep with rebuild := true }, masked := [], ties := { rig.ties with cols := 2, rows := 1 } } : State).detAll : State).rep.lost = 0) := by decide +kernel

theorem witness_theCabinetMapIsWrittenAndRebuilt_mapRebuild_kept :
    ((1 : Nat) < 2) ∧
    ((1 : Nat) ≠ (rig : State).cur) := by decide +kernel


theorem witness_fenceCausesAndPolls_fenceCmd :
    (((Master.dbg : Master) == .sec || (Master.dbg : Master) == .dbg) = true) ∧
    (vbit (0x8000007F : W32) 31 = true) ∧
    ((rig : State).synth ((0x8000007F : W32).toNat % 128) = true) ∧
    ((rig : State).rgsShut (masterIdx (Master.dbg : Master)) = false) := by decide +kernel

theorem witness_fenceCausesAndPolls_fenceCmd_cause :
    ((127 : Nat) < 128) ∧
    ((5 : Nat) = 2 ∨ (5 : Nat) = 4 ∨ (5 : Nat) = 5) ∧
    ((rig : State).fenced (127 : Nat) = false) ∧
    ((rig : State).rep.fences.any (fun y => decide (y.1 = (127 : Nat))) = false) := by decide +kernel

theorem witness_fenceCausesAndPolls_fenceCmd_pending :
    ((127 : Nat) < 128) ∧
    ((rig.put R.IDV_FENCE_CFG_AUTO_UE 0 : State).fenced (127 : Nat) = false) ∧
    ((rig.put R.IDV_FENCE_CFG_AUTO_UE 0 : State).bit R.IDV_FENCE_CFG_AUTO_UE = false) ∧
    ((rig.put R.IDV_FENCE_CFG_AUTO_UE 0 : State).bit (cabBit R.IDV_FENCE_PEND (127 : Nat)) = false) := by decide +kernel

theorem witness_fenceCausesAndPolls_fencePendClear :
    (rig.put (cabBit R.IDV_FENCE_PEND 127) 1 : State).rgsShut (masterIdx (Master.sec : Master)) = false := by decide +kernel

theorem witness_fenceCausesAndPolls_stationPoll :
    ((rig : State).isMapped (0 : Cab) = true) ∧
    ((rig : State).pow (0 : Cab) ≤ 1) ∧
    (((rig : State).poll (0 : Cab)).open' = []) := by decide +kernel

theorem witness_fenceCausesAndPolls_stationPoll_late :
    (({ rig with rep := { rig.rep with polls := [(0, { miss := 1, open' := [some 900], silent := true })] } } : State).isMapped (0 : Cab) = true) ∧
    (({ rig with rep := { rig.rep with polls := [(0, { miss := 1, open' := [some 900], silent := true })] } } : State).pow (0 : Cab) ≤ 1) ∧
    ((({ rig with rep := { rig.rep with polls := [(0, { miss := 1, open' := [some 900], silent := true })] } } : State).poll (0 : Cab)).open' ≠ []) := by decide +kernel

theorem witness_fenceCausesAndPolls_stationPoll_silent :
    ((rig : State).isMapped (1 : Cab) = true) ∧
    ((rig : State).pow (1 : Cab) ≤ 1) := by decide +kernel

theorem witness_fenceCausesAndPolls_pollMissed :
    ((({ rig with time := { rig.time with fc := 1024 }, rep := { rig.rep with polls := [(0, { miss := 1, open' := [some 0, none, some 900], silent := true })] } } : State).poll (0 : Cab)).open' = some (0 : Nat) :: ([none, some 900] : List (Option Nat))) ∧
    ((0 : Nat) + 1024 ≤ ({ rig with time := { rig.time with fc := 1024 }, rep := { rig.rep with polls := [(0, { miss := 1, open' := [some 0, none, some 900], silent := true })] } } : State).time.fc) ∧
    ((({ rig with time := { rig.time with fc := 1024 }, rep := { rig.rep with polls := [(0, { miss := 1, open' := [some 0, none, some 900], silent := true })] } } : State).poll (0 : Cab)).miss < 2) ∧
    ((PollSt.count ({ rig with time := { rig.time with fc := 1024 }, rep := { rig.rep with polls := [(0, { miss := 1, open' := [some 0, none, some 900], silent := true })] } } : State).time.fc ([none, some 900] : List (Option Nat)) ((({ rig with time := { rig.time with fc := 1024 }, rep := { rig.rep with polls := [(0, { miss := 1, open' := [some 0, none, some 900], silent := true })] } } : State).poll (0 : Cab)).miss + 1)).2 < 3) := by decide +kernel

theorem witness_fenceCausesAndPolls_pollMissed_third :
    ((({ rig with time := { rig.time with fc := 1024 }, rep := { rig.rep with polls := [(0, { miss := 2, open' := [some 0, none, some 900], silent := true })] } } : State).poll (0 : Cab)).open' = some (0 : Nat) :: ([none, some 900] : List (Option Nat))) ∧
    ((0 : Nat) + 1024 ≤ ({ rig with time := { rig.time with fc := 1024 }, rep := { rig.rep with polls := [(0, { miss := 2, open' := [some 0, none, some 900], silent := true })] } } : State).time.fc) ∧
    (2 ≤ (({ rig with time := { rig.time with fc := 1024 }, rep := { rig.rep with polls := [(0, { miss := 2, open' := [some 0, none, some 900], silent := true })] } } : State).poll (0 : Cab)).miss) := by decide +kernel

theorem witness_fenceCausesAndPolls_pollMissed_count :
    (1000 : Nat) < (900 : Nat) + 1024 := by decide +kernel

theorem witness_fenceCausesAndPolls_fenceTakeEffect :
    (({ rig with rep := { rig.rep with fences := [(1, 4, 0)] } } : State).rep.fences.find? (fun y => decide (y.1 = (1 : Cab).val) && decide (y.2.2 ≤ ({ rig with rep := { rig.rep with fences := [(1, 4, 0)] } } : State).time.fc)) = some ((1 : Cab).val, (4 : Nat), (0 : Nat))) ∧
    ((4 : Nat) < 8) ∧
    (({ rig with rep := { rig.rep with fences := [(1, 4, 0)] } } : State).fenced (1 : Cab) = false) := by decide +kernel

theorem witness_fenceCausesAndPolls_fenceQuench :
    (({ (rig.put (cabBit R.IDV_FENCE_MASK 1) 1).setCell 5000000 7 with rep := { rig.rep with quench := [1] } } : State).rep.quench.contains (1 : Cab).val = true) ∧
    (({ (rig.put (cabBit R.IDV_FENCE_MASK 1) 1).setCell 5000000 7 with rep := { rig.rep with quench := [1] } } : State).fenced (1 : Cab) = true) := by decide +kernel


theorem witness_cabinetsChangePowerState_cabCmdRun :
    (pwrMaster (Master.pwc : Master) = true) ∧
    (((rig.put (cabState 1) 2) : State).bit (cabBusy (1 : Cab)) = false) ∧
    (((rig.put (cabState 1) 2) : State).pow (1 : Cab) ≠ 0) ∧
    (((rig.put (cabState 1) 2) : State).rgsShut (masterIdx (Master.pwc : Master)) = false) := by decide +kernel

theorem witness_cabinetsChangePowerState_cabCmdRun_check :
    (({ rig with time := { rig.time with fc := 1 }, pwr := { rig.pwr with cmds := [{ cab := 1, target := 0, from' := 0, phase := .check, at' := 0 }] } } : State).pwr.cmds = [({ cab := 1, target := 0, from' := 0, phase := .check, at' := 0 } : PwrCmd)]) ∧
    (({ cab := 1, target := 0, from' := 0, phase := .check, at' := 0 } : PwrCmd).cab = (1 : Cab).val) ∧
    (({ cab := 1, target := 0, from' := 0, phase := .check, at' := 0 } : PwrCmd).target = 0) ∧
    (({ cab := 1, target := 0, from' := 0, phase := .check, at' := 0 } : PwrCmd).phase = .check) ∧
    (({ cab := 1, target := 0, from' := 0, phase := .check, at' := 0 } : PwrCmd).at' < ({ rig with time := { rig.time with fc := 1 }, pwr := { rig.pwr with cmds := [{ cab := 1, target := 0, from' := 0, phase := .check, at' := 0 }] } } : State).time.fc) := by decide +kernel

theorem witness_cabinetsChangePowerState_cabCmdDoze :
    (pwrMaster (Master.pwc : Master) = true) ∧
    ((rig : State).bit (cabBusy (1 : Cab)) = false) ∧
    ((rig : State).pow (1 : Cab) ≠ 1) ∧
    ((rig : State).rgsShut (masterIdx (Master.pwc : Master)) = false) := by decide +kernel

theorem witness_cabinetsChangePowerState_cabCmdDoze_check :
    (({ rig with time := { rig.time with fc := 1 }, pwr := { rig.pwr with cmds := [{ cab := 1, target := 1, from' := 0, phase := .check, at' := 0 }] } } : State).pwr.cmds = [({ cab := 1, target := 1, from' := 0, phase := .check, at' := 0 } : PwrCmd)]) ∧
    (({ cab := 1, target := 1, from' := 0, phase := .check, at' := 0 } : PwrCmd).cab = (1 : Cab).val) ∧
    (({ cab := 1, target := 1, from' := 0, phase := .check, at' := 0 } : PwrCmd).target = 1) ∧
    (({ cab := 1, target := 1, from' := 0, phase := .check, at' := 0 } : PwrCmd).phase = .check) ∧
    (({ cab := 1, target := 1, from' := 0, phase := .check, at' := 0 } : PwrCmd).at' < ({ rig with time := { rig.time with fc := 1 }, pwr := { rig.pwr with cmds := [{ cab := 1, target := 1, from' := 0, phase := .check, at' := 0 }] } } : State).time.fc) := by decide +kernel

theorem witness_cabinetsChangePowerState_cabCmdHold :
    (pwrMaster (Master.pwc : Master) = true) ∧
    ((rig : State).bit (cabBusy (1 : Cab)) = false) ∧
    ((rig : State).pow (1 : Cab) ≠ 2) ∧
    ((rig : State).rgsShut (masterIdx (Master.pwc : Master)) = false) := by decide +kernel

theorem witness_cabinetsChangePowerState_cabCmdHold_check :
    (({ rig with time := { rig.time with fc := 1 }, pwr := { rig.pwr with cmds := [{ cab := 1, target := 2, from' := 0, phase := .check, at' := 0 }] } } : State).pwr.cmds = [({ cab := 1, target := 2, from' := 0, phase := .check, at' := 0 } : PwrCmd)]) ∧
    (({ cab := 1, target := 2, from' := 0, phase := .check, at' := 0 } : PwrCmd).cab = (1 : Cab).val) ∧
    (({ cab := 1, target := 2, from' := 0, phase := .check, at' := 0 } : PwrCmd).target = 2) ∧
    (({ cab := 1, target := 2, from' := 0, phase := .check, at' := 0 } : PwrCmd).phase = .check) ∧
    (({ cab := 1, target := 2, from' := 0, phase := .check, at' := 0 } : PwrCmd).at' < ({ rig with time := { rig.time with fc := 1 }, pwr := { rig.pwr with cmds := [{ cab := 1, target := 2, from' := 0, phase := .check, at' := 0 }] } } : State).time.fc) := by decide +kernel

theorem witness_cabinetsChangePowerState_cabCmdQuench :
    (pwrMaster (Master.pwc : Master) = true) ∧
    ((rig : State).bit (cabBusy (1 : Cab)) = false) ∧
    ((rig : State).pow (1 : Cab) ≠ 3) ∧
    ((rig : State).rgsShut (masterIdx (Master.pwc : Master)) = false) := by decide +kernel

theorem witness_cabinetsChangePowerState_cabCmdQuench_check :
    (({ rig with time := { rig.time with fc := 1 }, pwr := { rig.pwr with cmds := [{ cab := 1, target := 3, from' := 0, phase := .check, at' := 0 }] } } : State).pwr.cmds = [({ cab := 1, target := 3, from' := 0, phase := .check, at' := 0 } : PwrCmd)]) ∧
    (({ cab := 1, target := 3, from' := 0, phase := .check, at' := 0 } : PwrCmd).cab = (1 : Cab).val) ∧
    (({ cab := 1, target := 3, from' := 0, phase := .check, at' := 0 } : PwrCmd).target = 3) ∧
    (({ cab := 1, target := 3, from' := 0, phase := .check, at' := 0 } : PwrCmd).phase = .check) ∧
    (({ cab := 1, target := 3, from' := 0, phase := .check, at' := 0 } : PwrCmd).at' < ({ rig with time := { rig.time with fc := 1 }, pwr := { rig.pwr with cmds := [{ cab := 1, target := 3, from' := 0, phase := .check, at' := 0 }] } } : State).time.fc) := by decide +kernel

theorem witness_cabinetsChangePowerState_cabCmdDoze_refused :
    (({ (rig.puts [(cabBusy 1, 1), (R.ASY_CTL_GO 1, 1)]) with pwr := { rig.pwr with cmds := [{ cab := 1, target := 1, from' := 0, phase := .check, at' := 0 }] }, rep := { rig.rep with startSet := [0, 1] }, time := { rig.time with fc := 300, real := ns 240 } } : State).pwr.cmds = [({ cab := 1, target := 1, from' := 0, phase := .check, at' := 0 } : PwrCmd)]) ∧
    (({ cab := 1, target := 1, from' := 0, phase := .check, at' := 0 } : PwrCmd).phase = .check) ∧
    (({ (rig.puts [(cabBusy 1, 1), (R.ASY_CTL_GO 1, 1)]) with pwr := { rig.pwr with cmds := [{ cab := 1, target := 1, from' := 0, phase := .check, at' := 0 }] }, rep := { rig.rep with startSet := [0, 1] }, time := { rig.time with fc := 300, real := ns 240 } } : State).refusal ({ cab := 1, target := 1, from' := 0, phase := .check, at' := 0 } : PwrCmd).cab ({ cab := 1, target := 1, from' := 0, phase := .check, at' := 0 } : PwrCmd).target = some (2 : Nat)) := by decide +kernel

theorem witness_cabinetsChangePowerState_cabCmdRun_wakes :
    (({ (rig.puts [(cabBusy 1, 1), (cabState 1, 1)]) with pwr := { rig.pwr with cmds := [{ cab := 1, target := 0, from' := 0, phase := .check, at' := 0 }] }, rep := { rig.rep with startSet := [0, 1] }, time := { rig.time with fc := 300, real := ns 240 } } : State).pwr.cmds = [({ cab := 1, target := 0, from' := 0, phase := .check, at' := 0 } : PwrCmd)]) ∧
    (({ cab := 1, target := 0, from' := 0, phase := .check, at' := 0 } : PwrCmd).phase = .check) ∧
    (({ (rig.puts [(cabBusy 1, 1), (cabState 1, 1)]) with pwr := { rig.pwr with cmds := [{ cab := 1, target := 0, from' := 0, phase := .check, at' := 0 }] }, rep := { rig.rep with startSet := [0, 1] }, time := { rig.time with fc := 300, real := ns 240 } } : State).refusal ({ cab := 1, target := 0, from' := 0, phase := .check, at' := 0 } : PwrCmd).cab ({ cab := 1, target := 0, from' := 0, phase := .check, at' := 0 } : PwrCmd).target = none) ∧
    (({ cab := 1, target := 0, from' := 0, phase := .check, at' := 0 } : PwrCmd).target = 0) ∧
    (({ (rig.puts [(cabBusy 1, 1), (cabState 1, 1)]) with pwr := { rig.pwr with cmds := [{ cab := 1, target := 0, from' := 0, phase := .check, at' := 0 }] }, rep := { rig.rep with startSet := [0, 1] }, time := { rig.time with fc := 300, real := ns 240 } } : State).pow ({ cab := 1, target := 0, from' := 0, phase := .check, at' := 0 } : PwrCmd).cab = 1) := by decide +kernel

theorem witness_cabinetsChangePowerState_cabCmdRun_leave :
    (({ (rig.puts [(cabBusy 1, 1), (cabState 1, 3)]) with pwr := { rig.pwr with cmds := [{ cab := 1, target := 0, from' := 0, phase := .check, at' := 0 }] }, rep := { rig.rep with startSet := [0, 1] }, time := { rig.time with fc := 300, real := ns 240 } } : State).pwr.cmds = [({ cab := 1, target := 0, from' := 0, phase := .check, at' := 0 } : PwrCmd)]) ∧
    (({ cab := 1, target := 0, from' := 0, phase := .check, at' := 0 } : PwrCmd).phase = .check) ∧
    (({ (rig.puts [(cabBusy 1, 1), (cabState 1, 3)]) with pwr := { rig.pwr with cmds := [{ cab := 1, target := 0, from' := 0, phase := .check, at' := 0 }] }, rep := { rig.rep with startSet := [0, 1] }, time := { rig.time with fc := 300, real := ns 240 } } : State).refusal ({ cab := 1, target := 0, from' := 0, phase := .check, at' := 0 } : PwrCmd).cab ({ cab := 1, target := 0, from' := 0, phase := .check, at' := 0 } : PwrCmd).target = none) ∧
    (({ cab := 1, target := 0, from' := 0, phase := .check, at' := 0 } : PwrCmd).target = 0) ∧
    (2 ≤ ({ (rig.puts [(cabBusy 1, 1), (cabState 1, 3)]) with pwr := { rig.pwr with cmds := [{ cab := 1, target := 0, from' := 0, phase := .check, at' := 0 }] }, rep := { rig.rep with startSet := [0, 1] }, time := { rig.time with fc := 300, real := ns 240 } } : State).pow ({ cab := 1, target := 0, from' := 0, phase := .check, at' := 0 } : PwrCmd).cab) := by decide +kernel

theorem witness_cabinetsChangePowerState_cabCmdHold_drains :
    (({ (rig.put (cabBusy 1) 1) with pwr := { rig.pwr with cmds := [{ cab := 1, target := 2, from' := 0, phase := .check, at' := 0 }] }, rep := { rig.rep with startSet := [0, 1] }, time := { rig.time with fc := 300, real := ns 240 } } : State).pwr.cmds = [({ cab := 1, target := 2, from' := 0, phase := .check, at' := 0 } : PwrCmd)]) ∧
    (({ cab := 1, target := 2, from' := 0, phase := .check, at' := 0 } : PwrCmd).phase = .check) ∧
    (({ (rig.put (cabBusy 1) 1) with pwr := { rig.pwr with cmds := [{ cab := 1, target := 2, from' := 0, phase := .check, at' := 0 }] }, rep := { rig.rep with startSet := [0, 1] }, time := { rig.time with fc := 300, real := ns 240 } } : State).refusal ({ cab := 1, target := 2, from' := 0, phase := .check, at' := 0 } : PwrCmd).cab ({ cab := 1, target := 2, from' := 0, phase := .check, at' := 0 } : PwrCmd).target = none) ∧
    (({ cab := 1, target := 2, from' := 0, phase := .check, at' := 0 } : PwrCmd).target ≠ 0) ∧
    (({ (rig.put (cabBusy 1) 1) with pwr := { rig.pwr with cmds := [{ cab := 1, target := 2, from' := 0, phase := .check, at' := 0 }] }, rep := { rig.rep with startSet := [0, 1] }, time := { rig.time with fc := 300, real := ns 240 } } : State).pow ({ cab := 1, target := 2, from' := 0, phase := .check, at' := 0 } : PwrCmd).cab ≤ 1) := by decide +kernel

theorem witness_cabinetsChangePowerState_entryDrainEnd :
    (({ (rig.put (cabBusy 1) 1) with pwr := { rig.pwr with cmds := [{ cab := 1, target := 1, from' := 0, phase := .drain, at' := 0 }] }, rep := { rig.rep with startSet := [0, 1] }, time := { rig.time with fc := 300, real := ns 240 } } : State).pwr.cmds = [({ cab := 1, target := 1, from' := 0, phase := .drain, at' := 0 } : PwrCmd)]) ∧
    (({ cab := 1, target := 1, from' := 0, phase := .drain, at' := 0 } : PwrCmd).cab = (1 : Cab).val) ∧
    (({ cab := 1, target := 1, from' := 0, phase := .drain, at' := 0 } : PwrCmd).phase = .drain) ∧
    (({ cab := 1, target := 1, from' := 0, phase := .drain, at' := 0 } : PwrCmd).at' ≤ ({ (rig.put (cabBusy 1) 1) with pwr := { rig.pwr with cmds := [{ cab := 1, target := 1, from' := 0, phase := .drain, at' := 0 }] }, rep := { rig.rep with startSet := [0, 1] }, time := { rig.time with fc := 300, real := ns 240 } } : State).time.fc) ∧
    (({ (rig.put (cabBusy 1) 1) with pwr := { rig.pwr with cmds := [{ cab := 1, target := 1, from' := 0, phase := .drain, at' := 0 }] }, rep := { rig.rep with startSet := [0, 1] }, time := { rig.time with fc := 300, real := ns 240 } } : State).quietCab (1 : Cab) = true) ∧
    (({ cab := 1, target := 1, from' := 0, phase := .drain, at' := 0 } : PwrCmd).target = 1) := by decide +kernel

theorem witness_cabinetsChangePowerState_entryDrainEnd_commit :
    (({ (rig.put (cabBusy 1) 1) with pwr := { rig.pwr with cmds := [{ cab := 1, target := 3, from' := 0, phase := .drain, at' := 0 }] }, rep := { rig.rep with startSet := [0, 1] }, time := { rig.time with fc := 300, real := ns 240 } } : State).pwr.cmds = [({ cab := 1, target := 3, from' := 0, phase := .drain, at' := 0 } : PwrCmd)]) ∧
    (({ cab := 1, target := 3, from' := 0, phase := .drain, at' := 0 } : PwrCmd).cab = (1 : Cab).val) ∧
    (({ cab := 1, target := 3, from' := 0, phase := .drain, at' := 0 } : PwrCmd).phase = .drain) ∧
    (({ cab := 1, target := 3, from' := 0, phase := .drain, at' := 0 } : PwrCmd).at' ≤ ({ (rig.put (cabBusy 1) 1) with pwr := { rig.pwr with cmds := [{ cab := 1, target := 3, from' := 0, phase := .drain, at' := 0 }] }, rep := { rig.rep with startSet := [0, 1] }, time := { rig.time with fc := 300, real := ns 240 } } : State).time.fc) ∧
    (({ (rig.put (cabBusy 1) 1) with pwr := { rig.pwr with cmds := [{ cab := 1, target := 3, from' := 0, phase := .drain, at' := 0 }] }, rep := { rig.rep with startSet := [0, 1] }, time := { rig.time with fc := 300, real := ns 240 } } : State).quietCab (1 : Cab) = true) ∧
    (({ cab := 1, target := 3, from' := 0, phase := .drain, at' := 0 } : PwrCmd).target ≠ 1) := by decide +kernel

theorem witness_cabinetsChangePowerState_entryDrainEnd_doze :
    (({ (rig.put (cabBusy 1) 1) with pwr := { rig.pwr with cmds := [{ cab := 1, target := 1, from' := 0, phase := .commit, at' := 0 }] }, rep := { rig.rep with startSet := [0, 1] }, time := { rig.time with fc := 300, real := ns 240 } } : State).pwr.cmds = [({ cab := 1, target := 1, from' := 0, phase := .commit, at' := 0 } : PwrCmd)]) ∧
    (({ cab := 1, target := 1, from' := 0, phase := .commit, at' := 0 } : PwrCmd).cab = (1 : Cab).val) ∧
    (({ cab := 1, target := 1, from' := 0, phase := .commit, at' := 0 } : PwrCmd).phase = .commit) ∧
    (({ cab := 1, target := 1, from' := 0, phase := .commit, at' := 0 } : PwrCmd).target = 1) ∧
    (({ cab := 1, target := 1, from' := 0, phase := .commit, at' := 0 } : PwrCmd).at' ≤ ({ (rig.put (cabBusy 1) 1) with pwr := { rig.pwr with cmds := [{ cab := 1, target := 1, from' := 0, phase := .commit, at' := 0 }] }, rep := { rig.rep with startSet := [0, 1] }, time := { rig.time with fc := 300, real := ns 240 } } : State).time.fc) := by decide +kernel

theorem witness_cabinetsChangePowerState_drainTimeout :
    (({ (rig.put (cabBusy 1) 1) with pwr := { rig.pwr with cmds := [{ cab := 1, target := 2, from' := 0, phase := .drain, at' := 0 }] }, rep := { rig.rep with startSet := [0, 1] }, time := { rig.time with fc := 300, real := ns 240 } } : State).pwr.cmds = [({ cab := 1, target := 2, from' := 0, phase := .drain, at' := 0 } : PwrCmd)]) ∧
    (({ cab := 1, target := 2, from' := 0, phase := .drain, at' := 0 } : PwrCmd).cab = (1 : Cab).val) ∧
    (({ cab := 1, target := 2, from' := 0, phase := .drain, at' := 0 } : PwrCmd).phase = .drain) ∧
    (({ cab := 1, target := 2, from' := 0, phase := .drain, at' := 0 } : PwrCmd).at' + 256 ≤ ({ (rig.put (cabBusy 1) 1) with pwr := { rig.pwr with cmds := [{ cab := 1, target := 2, from' := 0, phase := .drain, at' := 0 }] }, rep := { rig.rep with startSet := [0, 1] }, time := { rig.time with fc := 300, real := ns 240 } } : State).time.fc) := by decide +kernel

theorem witness_cabinetsChangePowerState_drainTimeout_aborts :
    (({ (rig.put (cabBusy 1) 1) with pwr := { rig.pwr with cmds := [{ cab := 1, target := 2, from' := 0, phase := .drain, at' := 0 }] }, rep := { rig.rep with startSet := [0, 1] }, time := { rig.time with fc := 300, real := ns 240 } } : State).pwr.cmds = [({ cab := 1, target := 2, from' := 0, phase := .drain, at' := 0 } : PwrCmd)]) ∧
    (({ cab := 1, target := 2, from' := 0, phase := .drain, at' := 0 } : PwrCmd).cab = (1 : Nat)) ∧
    (({ cab := 1, target := 2, from' := 0, phase := .drain, at' := 0 } : PwrCmd).phase = .drain) := by decide +kernel

theorem witness_cabinetsChangePowerState_entryCommitEnd :
    (({ (rig.put (cabBusy 1) 1) with pwr := { rig.pwr with cmds := [{ cab := 1, target := 3, from' := 0, phase := .commit, at' := 0 }] }, rep := { rig.rep with startSet := [0, 1] }, time := { rig.time with fc := 300, real := ns 240 } } : State).pwr.cmds = [({ cab := 1, target := 3, from' := 0, phase := .commit, at' := 0 } : PwrCmd)]) ∧
    (({ cab := 1, target := 3, from' := 0, phase := .commit, at' := 0 } : PwrCmd).cab = (1 : Cab).val) ∧
    (({ cab := 1, target := 3, from' := 0, phase := .commit, at' := 0 } : PwrCmd).phase = .commit) ∧
    (({ cab := 1, target := 3, from' := 0, phase := .commit, at' := 0 } : PwrCmd).at' ≤ ({ (rig.put (cabBusy 1) 1) with pwr := { rig.pwr with cmds := [{ cab := 1, target := 3, from' := 0, phase := .commit, at' := 0 }] }, rep := { rig.rep with startSet := [0, 1] }, time := { rig.time with fc := 300, real := ns 240 } } : State).time.real) ∧
    (({ cab := 1, target := 3, from' := 0, phase := .commit, at' := 0 } : PwrCmd).target = 3) := by decide +kernel

theorem witness_cabinetsChangePowerState_entryCommitEnd_hold :
    (({ (rig.put (cabBusy 1) 1) with pwr := { rig.pwr with cmds := [{ cab := 1, target := 2, from' := 0, phase := .commit, at' := 0 }] }, rep := { rig.rep with startSet := [0, 1] }, time := { rig.time with fc := 300, real := ns 240 } } : State).pwr.cmds = [({ cab := 1, target := 2, from' := 0, phase := .commit, at' := 0 } : PwrCmd)]) ∧
    (({ cab := 1, target := 2, from' := 0, phase := .commit, at' := 0 } : PwrCmd).cab = (1 : Cab).val) ∧
    (({ cab := 1, target := 2, from' := 0, phase := .commit, at' := 0 } : PwrCmd).phase = .commit) ∧
    (({ cab := 1, target := 2, from' := 0, phase := .commit, at' := 0 } : PwrCmd).at' ≤ ({ (rig.put (cabBusy 1) 1) with pwr := { rig.pwr with cmds := [{ cab := 1, target := 2, from' := 0, phase := .commit, at' := 0 }] }, rep := { rig.rep with startSet := [0, 1] }, time := { rig.time with fc := 300, real := ns 240 } } : State).time.real) ∧
    (({ cab := 1, target := 2, from' := 0, phase := .commit, at' := 0 } : PwrCmd).target = 2) := by decide +kernel

theorem witness_cabinetsChangePowerState_dozeWakeDone :
    ((rig.puts [(cabState 127, 1), (cabBusy 127, 1)] : State).pow (127 : Cab) = 1) ∧
    ((rig.puts [(cabState 127, 1), (cabBusy 127, 1)] : State).bit (cabBusy (127 : Cab)) = true) ∧
    ((rig.puts [(cabState 127, 1), (cabBusy 127, 1)] : State).pwr.cmds = []) := by decide +kernel

theorem witness_cabinetsChangePowerState_wakePowerDone :
    (({ (rig.puts [(cabState 1, 2), (cabBusy 1, 1)]) with pwr := { rig.pwr with wakes := [(1, (0, false))] } } : State).pwr.wakes = [((1 : Cab).val, ((0 : Nat), (false : Bool)))]) ∧
    ((0 : Nat) ≤ ({ (rig.puts [(cabState 1, 2), (cabBusy 1, 1)]) with pwr := { rig.pwr with wakes := [(1, (0, false))] } } : State).time.real) ∧
    (({ (rig.puts [(cabState 1, 2), (cabBusy 1, 1)]) with pwr := { rig.pwr with wakes := [(1, (0, false))] } } : State).pow (1 : Cab) = 2) := by decide +kernel


theorem witness_leaveClampsAndEmergencies_leaveGrant :
    (((({ rig with leave := { queue := [{ who := .wake 1, units := 30, since := 0 }], ready := some 0, held := [] }, masked := [], time := { rig.time with fc := 12 } }).put R.PWR_LEAVE_BUDGET_UNITS 100) : State).leave.ready = some (0 : Nat)) ∧
    (((({ rig with leave := { queue := [{ who := .wake 1, units := 30, since := 0 }], ready := some 0, held := [] }, masked := [], time := { rig.time with fc := 12 } }).put R.PWR_LEAVE_BUDGET_UNITS 100) : State).leave.queue = ({ who := .wake 1, units := 30, since := 0 } : LeaveReq) :: ([] : List LeaveReq)) ∧
    ((0 : Nat) + 12 ≤ ((({ rig with leave := { queue := [{ who := .wake 1, units := 30, since := 0 }], ready := some 0, held := [] }, masked := [], time := { rig.time with fc := 12 } }).put R.PWR_LEAVE_BUDGET_UNITS 100) : State).time.fc) ∧
    (((({ rig with leave := { queue := [{ who := .wake 1, units := 30, since := 0 }], ready := some 0, held := [] }, masked := [], time := { rig.time with fc := 12 } }).put R.PWR_LEAVE_BUDGET_UNITS 100) : State).leaveOk = true) ∧
    (({ who := .wake 1, units := 30, since := 0 } : LeaveReq).who = .wake (1 : Nat)) := by decide +kernel

theorem witness_leaveClampsAndEmergencies_leaveGrant_desc :
    (((({ rig with leave := { queue := [{ who := .desc 1 0, units := 30, since := 0 }], ready := some 0, held := [] }, masked := [], time := { rig.time with fc := 12 } }).put R.PWR_LEAVE_BUDGET_UNITS 100) : State).leave.ready = some (0 : Nat)) ∧
    (((({ rig with leave := { queue := [{ who := .desc 1 0, units := 30, since := 0 }], ready := some 0, held := [] }, masked := [], time := { rig.time with fc := 12 } }).put R.PWR_LEAVE_BUDGET_UNITS 100) : State).leave.queue = ({ who := .desc 1 0, units := 30, since := 0 } : LeaveReq) :: ([] : List LeaveReq)) ∧
    ((0 : Nat) + 12 ≤ ((({ rig with leave := { queue := [{ who := .desc 1 0, units := 30, since := 0 }], ready := some 0, held := [] }, masked := [], time := { rig.time with fc := 12 } }).put R.PWR_LEAVE_BUDGET_UNITS 100) : State).time.fc) ∧
    (((({ rig with leave := { queue := [{ who := .desc 1 0, units := 30, since := 0 }], ready := some 0, held := [] }, masked := [], time := { rig.time with fc := 12 } }).put R.PWR_LEAVE_BUDGET_UNITS 100) : State).leaveOk = true) ∧
    (({ who := .desc 1 0, units := 30, since := 0 } : LeaveReq).who = .desc (1 : Nat) (0 : Nat)) := by decide +kernel

theorem witness_leaveClampsAndEmergencies_leaveGrant_taken :
    ({ rig with leave := { queue := [{ who := .wake 1, units := 30, since := 0 }], ready := some 0, held := [] }, masked := [], time := { rig.time with fc := 12 } } : State).leave.queue = ({ who := .wake 1, units := 30, since := 0 } : LeaveReq) :: ([] : List LeaveReq) := by decide +kernel

theorem witness_leaveClampsAndEmergencies_emergSet :
    (pwrMaster (Master.pwc : Master) = true) ∧
    (vbit (1 : W32) 1 = false) ∧
    ((rig : State).rgsShut (masterIdx (Master.pwc : Master)) = false) := by decide +kernel

theorem witness_leaveClampsAndEmergencies_emergClr :
    (pwrMaster (Master.dbg : Master) = true) ∧
    ((rig.put R.PWR_EMERG_STAT_SW 1 : State).rgsShut (masterIdx (Master.dbg : Master)) = false) := by decide +kernel

theorem witness_leaveClampsAndEmergencies_clampFreeze :
    (rig.put R.PWR_CLAMP_STAT_TRIP 1 : State).clampNow = some ((60 : Nat), (64 : Nat)) := by decide +kernel

theorem witness_leaveClampsAndEmergencies_clampFreeze_none :
    (rig : State).clampNow = none := by decide +kernel

theorem witness_leaveClampsAndEmergencies_clampEmergency :
    (({ rig.put R.PWR_CLAMP_CFG_EMERG_US 3 with time := { rig.time with now := us 3 }, pwr := { rig.pwr with engagedAt := some 0 } } : State).pwr.engagedAt = some (0 : Nat)) ∧
    ((0 : Nat) + us (({ rig.put R.PWR_CLAMP_CFG_EMERG_US 3 with time := { rig.time with now := us 3 }, pwr := { rig.pwr with engagedAt := some 0 } } : State).f R.PWR_CLAMP_CFG_EMERG_US) ≤ ({ rig.put R.PWR_CLAMP_CFG_EMERG_US 3 with time := { rig.time with now := us 3 }, pwr := { rig.pwr with engagedAt := some 0 } } : State).time.now) := by decide +kernel

theorem witness_leaveClampsAndEmergencies_powerEstimate :
    (({ rig.put R.PWR_EST_W_E_BANK 4000 with time := { rig.time with now := us 5 }, pwr := { rig.pwr with accs := 80000 } } : State).brg.inbox = []) ∧
    (({ rig.put R.PWR_EST_W_E_BANK 4000 with time := { rig.time with now := us 5 }, pwr := { rig.pwr with accs := 80000 } } : State).pwr.estAt < ({ rig.put R.PWR_EST_W_E_BANK 4000 with time := { rig.time with now := us 5 }, pwr := { rig.pwr with accs := 80000 } } : State).time.now / us 1) := by decide +kernel

theorem witness_leaveClampsAndEmergencies_thermTrip :
    (({ rig with boot := { rig.boot with stage := 20 } } : State).boot.stage ≠ 0) ∧
    (({ rig with boot := { rig.boot with stage := 20 } } : State).pwr.therm.high = true) := by decide +kernel

theorem witness_leaveClampsAndEmergencies_thermTrip_clamp :
    (({ rig with boot := { rig.boot with stage := 20 }, pwr := { rig.pwr with therm := { high := false, ackAt := none, hidden := false } } } : State).boot.stage ≠ 0) ∧
    (({ rig with boot := { rig.boot with stage := 20 }, pwr := { rig.pwr with therm := { high := false, ackAt := none, hidden := false } } } : State).pwr.therm.high = false) ∧
    (({ rig with boot := { rig.boot with stage := 20 }, pwr := { rig.pwr with therm := { high := false, ackAt := none, hidden := false } } } : State).pwr.therm.ackAt = none) ∧
    (({ rig with boot := { rig.boot with stage := 20 }, pwr := { rig.pwr with therm := { high := false, ackAt := none, hidden := false } } } : State).armed .thermTrip = false) := by decide +kernel

theorem witness_leaveClampsAndEmergencies_thermTripRelease :
    (({ rig.puts [(R.PWR_CLAMP_STAT_TRIP, 1), (R.PWR_EMERG_STAT_THERM, 1)] with boot := { rig.boot with stage := 20 }, pwr := { rig.pwr with therm := { high := false, ackAt := none, hidden := false } } } : State).boot.stage ≠ 0) ∧
    (({ rig.puts [(R.PWR_CLAMP_STAT_TRIP, 1), (R.PWR_EMERG_STAT_THERM, 1)] with boot := { rig.boot with stage := 20 }, pwr := { rig.pwr with therm := { high := false, ackAt := none, hidden := false } } } : State).pwr.therm.high = false) ∧
    (({ rig.puts [(R.PWR_CLAMP_STAT_TRIP, 1), (R.PWR_EMERG_STAT_THERM, 1)] with boot := { rig.boot with stage := 20 }, pwr := { rig.pwr with therm := { high := false, ackAt := none, hidden := false } } } : State).pwr.sleep = .awake) := by decide +kernel


theorem witness_theDieSleepsAndWakes_dieSleep :
    (pwrMaster (Master.pwc : Master) = true) ∧
    (vbit (1 : W32) 0 = true) ∧
    ((rig : State).pwr.sleep = .awake) ∧
    ((rig : State).rgsShut (masterIdx (Master.pwc : Master)) = false) := by decide +kernel

theorem witness_theDieSleepsAndWakes_dieSleep_refused :
    (({ rig with pwr := { rig.pwr with sleep := .asked, sleepDue := 0 } } : State).pwr.sleep = .asked) ∧
    (({ rig with pwr := { rig.pwr with sleep := .asked, sleepDue := 0 } } : State).pwr.sleepDue ≤ ({ rig with pwr := { rig.pwr with sleep := .asked, sleepDue := 0 } } : State).time.real) ∧
    (({ rig with pwr := { rig.pwr with sleep := .asked, sleepDue := 0 } } : State).pwr.latched = []) ∧
    (({ rig with pwr := { rig.pwr with sleep := .asked, sleepDue := 0 } } : State).sleepReady = false) := by decide +kernel

theorem witness_theDieSleepsAndWakes_dieSleep_drain :
    (({ rig with pwr := { rig.pwr with sleep := .check, sleepDue := 0 } } : State).pwr.sleep = .check) ∧
    (({ rig with pwr := { rig.pwr with sleep := .check, sleepDue := 0 } } : State).pwr.sleepDue ≤ ({ rig with pwr := { rig.pwr with sleep := .check, sleepDue := 0 } } : State).time.real) := by decide +kernel

theorem witness_theDieSleepsAndWakes_dieSleep_commit :
    (({ rig with pwr := { rig.pwr with sleep := .drain, sleepDue := 0 } } : State).pwr.sleep = .drain) ∧
    (({ rig with pwr := { rig.pwr with sleep := .drain, sleepDue := 0 } } : State).pwr.sleepDue ≤ ({ rig with pwr := { rig.pwr with sleep := .drain, sleepDue := 0 } } : State).time.real) := by decide +kernel

theorem witness_theDieSleepsAndWakes_dieSleepCommitEnd :
    (({ rig with pwr := { rig.pwr with sleep := .commit, sleepDue := 0 } } : State).pwr.sleep = .commit) ∧
    (({ rig with pwr := { rig.pwr with sleep := .commit, sleepDue := 0 } } : State).pwr.sleepDue ≤ ({ rig with pwr := { rig.pwr with sleep := .commit, sleepDue := 0 } } : State).time.real) ∧
    (({ rig with pwr := { rig.pwr with sleep := .commit, sleepDue := 0 } } : State).pwr.latched = []) ∧
    (({ rig with pwr := { rig.pwr with sleep := .commit, sleepDue := 0 } } : State).pwr.rtc.high = false) ∧
    (({ rig with pwr := { rig.pwr with sleep := .commit, sleepDue := 0 } } : State).pwr.therm.hidden = false) := by decide +kernel

theorem witness_theDieSleepsAndWakes_dieWakeDone :
    ({ rig with pwr := { rig.pwr with sleep := .waking, sleepDue := 0 } } : State).pwr.sleep = .waking := by decide +kernel

theorem witness_theDieSleepsAndWakes_rtcAlarmRise :
    (({ rig with boot := { rig.boot with stage := 20 }, pwr := { rig.pwr with sleep := .asleep } } : State).boot.stage ≠ 0) ∧
    (({ rig with boot := { rig.boot with stage := 20 }, pwr := { rig.pwr with sleep := .asleep } } : State).pwr.rtc.high = false) ∧
    (({ rig with boot := { rig.boot with stage := 20 }, pwr := { rig.pwr with sleep := .asleep } } : State).pwr.sleep = .asleep) := by decide +kernel

theorem witness_theDieSleepsAndWakes_rtcAlarmRise_ack :
    (({ rig with boot := { rig.boot with stage := 20 }, pwr := { rig.pwr with rtc := { high := true, ackAt := some 0, hidden := false } } } : State).boot.stage ≠ 0) ∧
    (({ rig with boot := { rig.boot with stage := 20 }, pwr := { rig.pwr with rtc := { high := true, ackAt := some 0, hidden := false } } } : State).pwr.rtc = { high := true, ackAt := some (0 : Nat), hidden := false }) ∧
    ((0 : Nat) ≤ ({ rig with boot := { rig.boot with stage := 20 }, pwr := { rig.pwr with rtc := { high := true, ackAt := some 0, hidden := false } } } : State).time.real) := by decide +kernel

theorem witness_theDieSleepsAndWakes_rtcAlarmFall :
    (({ rig with boot := { rig.boot with stage := 20 }, pwr := { rig.pwr with rtc := { high := true, ackAt := none, hidden := false } } } : State).boot.stage ≠ 0) ∧
    (({ rig with boot := { rig.boot with stage := 20 }, pwr := { rig.pwr with rtc := { high := true, ackAt := none, hidden := false } } } : State).pwr.rtc.high = true) := by decide +kernel

theorem witness_theDieSleepsAndWakes_edgeWake :
    (({ rig.put (R.EDG_CTL_WAKE_EN 3) 1 with pwr := { rig.pwr with sleep := .asleep } } : State).bit (R.EDG_CTL_WAKE_EN (3 : Gw)) = true) ∧
    (({ rig.put (R.EDG_CTL_WAKE_EN 3) 1 with pwr := { rig.pwr with sleep := .asleep } } : State).pwr.sleep = .asleep) := by decide +kernel

theorem witness_theDieSleepsAndWakes_edgeWake_done :
    (4 : Nat) < 16 := by decide +kernel


theorem witness_operatingPointsChange_opChange :
    (pwrMaster (Master.pwc : Master) = true) ∧
    (vbit (0x80000003 : W32) 31 = true) ∧
    (((rig.puts [(R.LCT_FRZ_STAT_FROZEN, 1), (R.LCT_FRZ_STAT_FIRMWARE, 1)]) : State).die = 0) ∧
    (((rig.puts [(R.LCT_FRZ_STAT_FROZEN, 1), (R.LCT_FRZ_STAT_FIRMWARE, 1)]) : State).frozen = true) ∧
    (((rig.puts [(R.LCT_FRZ_STAT_FROZEN, 1), (R.LCT_FRZ_STAT_FIRMWARE, 1)]) : State).bit R.LCT_FRZ_STAT_FIRMWARE = true) ∧
    (((rig.puts [(R.LCT_FRZ_STAT_FROZEN, 1), (R.LCT_FRZ_STAT_FIRMWARE, 1)]) : State).bit R.PWR_OP_STAT_BUSY = false) ∧
    ((0x80000003 : W32).toNat % 8 ≤ 5) ∧
    (((rig.puts [(R.LCT_FRZ_STAT_FROZEN, 1), (R.LCT_FRZ_STAT_FIRMWARE, 1)]) : State).dies = 1) ∧
    (((rig.puts [(R.LCT_FRZ_STAT_FROZEN, 1), (R.LCT_FRZ_STAT_FIRMWARE, 1)]) : State).rgsShut (masterIdx (Master.pwc : Master)) = false) := by decide +kernel

theorem witness_operatingPointsChange_opChange_refused :
    (pwrMaster (Master.pwc : Master) = true) ∧
    (vbit (0x80000003 : W32) 31 = true) ∧
    ((rig : State).die ≠ 0 ∨ (rig : State).frozen = false ∨ (rig : State).bit R.LCT_FRZ_STAT_FIRMWARE = false ∨ (rig : State).bit R.PWR_OP_STAT_BUSY = true ∨ 5 < (0x80000003 : W32).toNat % 8) ∧
    ((rig : State).rgsShut (masterIdx (Master.pwc : Master)) = false) := by decide +kernel

theorem witness_operatingPointsChange_dieOpChange :
    (({ (rig.puts [(R.LCT_FRZ_STAT_FROZEN, 1), (R.LCT_FRZ_STAT_FIRMWARE, 1)]) with pwr := { rig.pwr with pkg := some { target := 3, old := 5, reports := [], back := false } } } : State).brg.inbox = []) ∧
    (({ (rig.puts [(R.LCT_FRZ_STAT_FROZEN, 1), (R.LCT_FRZ_STAT_FIRMWARE, 1)]) with pwr := { rig.pwr with pkg := some { target := 3, old := 5, reports := [], back := false } } } : State).pwr.op = none) ∧
    (({ (rig.puts [(R.LCT_FRZ_STAT_FROZEN, 1), (R.LCT_FRZ_STAT_FIRMWARE, 1)]) with pwr := { rig.pwr with pkg := some { target := 3, old := 5, reports := [], back := false } } } : State).die = 0) ∧
    (({ (rig.puts [(R.LCT_FRZ_STAT_FROZEN, 1), (R.LCT_FRZ_STAT_FIRMWARE, 1)]) with pwr := { rig.pwr with pkg := some { target := 3, old := 5, reports := [], back := false } } } : State).pwr.pkg = some ({ target := 3, old := 5, reports := [], back := false } : OpPkg)) ∧
    (({ target := 3, old := 5, reports := [], back := false } : OpPkg).target = (3 : Fin 6).val) ∧
    (({ target := 3, old := 5, reports := [], back := false } : OpPkg).back = false) ∧
    (({ target := 3, old := 5, reports := [], back := false } : OpPkg).reports = []) ∧
    (({ (rig.puts [(R.LCT_FRZ_STAT_FROZEN, 1), (R.LCT_FRZ_STAT_FIRMWARE, 1)]) with pwr := { rig.pwr with pkg := some { target := 3, old := 5, reports := [], back := false } } } : State).frozen = true) ∧
    (({ (rig.puts [(R.LCT_FRZ_STAT_FROZEN, 1), (R.LCT_FRZ_STAT_FIRMWARE, 1)]) with pwr := { rig.pwr with pkg := some { target := 3, old := 5, reports := [], back := false } } } : State).bit R.LCT_FRZ_STAT_FIRMWARE = true) := by decide +kernel

theorem witness_operatingPointsChange_dieOpChange_raise :
    ((5 : Nat) < 6) ∧
    ((rig.put R.PWR_OP_STAT_CUR 2 : State).f R.PWR_OP_STAT_CUR < (5 : Nat)) := by decide +kernel

theorem witness_operatingPointsChange_opChangeDone :
    (({ (rig.puts [(R.LCT_FRZ_STAT_FROZEN, 1), (R.LCT_FRZ_STAT_FIRMWARE, 1)]) with pwr := { rig.pwr with pkg := some { target := 3, old := 5, reports := [], back := false } } } : State).pwr.pkg = some ({ target := 3, old := 5, reports := [], back := false } : OpPkg)) ∧
    (({ target := 3, old := 5, reports := [], back := false } : OpPkg).back = false) ∧
    ((2 : Fin 3) ≠ 1) ∧
    ((2 : Fin 3).val = 2 → ({ target := 3, old := 5, reports := [], back := false } : OpPkg).target ≤ ({ target := 3, old := 5, reports := [], back := false } : OpPkg).old) ∧
    ((List.range ({ (rig.puts [(R.LCT_FRZ_STAT_FROZEN, 1), (R.LCT_FRZ_STAT_FIRMWARE, 1)]) with pwr := { rig.pwr with pkg := some { target := 3, old := 5, reports := [], back := false } } } : State).dies).all (fun d => (({ target := 3, old := 5, reports := [], back := false } : OpPkg).reports.filter (fun r => decide (r.1 ≠ (0 : Fin 8).val)) ++ [((0 : Fin 8).val, (2 : Fin 3).val)]).any (fun r => decide (r.1 = d))) = true) ∧
    (({ target := 3, old := 5, reports := [], back := false } : OpPkg).reports = []) := by decide +kernel

theorem witness_operatingPointsChange_opChangeDone_return :
    (({ (rig.puts [(R.LCT_FRZ_STAT_FROZEN, 1), (R.LCT_FRZ_STAT_FIRMWARE, 1)]) with pwr := { rig.pwr with pkg := some { target := 5, old := 3, reports := [], back := false } } } : State).pwr.pkg = some ({ target := 5, old := 3, reports := [], back := false } : OpPkg)) ∧
    (({ target := 5, old := 3, reports := [], back := false } : OpPkg).back = false) ∧
    (({ target := 5, old := 3, reports := [], back := false } : OpPkg).old < ({ target := 5, old := 3, reports := [], back := false } : OpPkg).target) ∧
    (({ (rig.puts [(R.LCT_FRZ_STAT_FROZEN, 1), (R.LCT_FRZ_STAT_FIRMWARE, 1)]) with pwr := { rig.pwr with pkg := some { target := 5, old := 3, reports := [], back := false } } } : State).die = 0) ∧
    (({ (rig.puts [(R.LCT_FRZ_STAT_FROZEN, 1), (R.LCT_FRZ_STAT_FIRMWARE, 1)]) with pwr := { rig.pwr with pkg := some { target := 5, old := 3, reports := [], back := false } } } : State).dies = 1) := by decide +kernel

theorem witness_operatingPointsChange_vidAckToggle :
    (({ (rig.puts [(R.LCT_FRZ_STAT_FROZEN, 1), (R.LCT_FRZ_STAT_FIRMWARE, 1)]) with pwr := { rig.pwr with op := some { old := 2, new := 5, vid := true, lockAt := 0, acked := false } } } : State).bit R.PWR_EMERG_STAT_HW_VID = false) ∧
    (({ (rig.puts [(R.LCT_FRZ_STAT_FROZEN, 1), (R.LCT_FRZ_STAT_FIRMWARE, 1)]) with pwr := { rig.pwr with op := some { old := 2, new := 5, vid := true, lockAt := 0, acked := false } } } : State).pwr.op = some ({ old := 2, new := 5, vid := true, lockAt := 0, acked := false } : OpSt)) ∧
    (({ old := 2, new := 5, vid := true, lockAt := 0, acked := false } : OpSt).vid = true) ∧
    (({ old := 2, new := 5, vid := true, lockAt := 0, acked := false } : OpSt).lockAt ≤ ({ (rig.puts [(R.LCT_FRZ_STAT_FROZEN, 1), (R.LCT_FRZ_STAT_FIRMWARE, 1)]) with pwr := { rig.pwr with op := some { old := 2, new := 5, vid := true, lockAt := 0, acked := false } } } : State).time.real) ∧
    (({ old := 2, new := 5, vid := true, lockAt := 0, acked := false } : OpSt).old < ({ old := 2, new := 5, vid := true, lockAt := 0, acked := false } : OpSt).new) := by decide +kernel

theorem witness_operatingPointsChange_vidTimeout :
    (({ (rig.puts [(R.LCT_FRZ_STAT_FROZEN, 1), (R.LCT_FRZ_STAT_FIRMWARE, 1)]) with pwr := { rig.pwr with op := some { old := 2, new := 5, vid := true, lockAt := 0, acked := false } } } : State).pwr.op = some ({ old := 2, new := 5, vid := true, lockAt := 0, acked := false } : OpSt)) ∧
    (({ old := 2, new := 5, vid := true, lockAt := 0, acked := false } : OpSt).vid = true) ∧
    (({ old := 2, new := 5, vid := true, lockAt := 0, acked := false } : OpSt).acked = false) := by decide +kernel


theorem witness_fabricTimeStretchesAndFollowsBeacons_droopStretch :
    ((rig.put R.CLK_CFG_DROOP_EN 1 : State).bit R.CLK_CFG_DROOP_EN = true) ∧
    ((rig.put R.CLK_CFG_DROOP_EN 1 : State).clkRegions.any (fun k => (1 : BitVec 16).getLsbD k) = true) := by decide +kernel

theorem witness_fabricTimeStretchesAndFollowsBeacons_droopStretch_none :
    ({ rig with ties := { rig.ties with cols := 1, rows := 1 } } : State).clkRegions.any (fun k => (0x8000 : BitVec 16).getLsbD k) = false := by decide +kernel

theorem witness_fabricTimeStretchesAndFollowsBeacons_compensatingStretch :
    (0 < ((rig.puts [(R.BRG_STR_T, 0), (R.BRG_STR_S, 65535)] : State).f R.BRG_STR_T + 65536 - (rig.puts [(R.BRG_STR_T, 0), (R.BRG_STR_S, 65535)] : State).f R.BRG_STR_S) % 65536) ∧
    (((rig.puts [(R.BRG_STR_T, 0), (R.BRG_STR_S, 65535)] : State).f R.BRG_STR_T + 65536 - (rig.puts [(R.BRG_STR_T, 0), (R.BRG_STR_S, 65535)] : State).f R.BRG_STR_S) % 65536 < 32768) := by decide +kernel

theorem witness_fabricTimeStretchesAndFollowsBeacons_timSet :
    ((rig.setReg R.TIM_SET_LO 9 : State).bootLocked = false) ∧
    ((rig.setReg R.TIM_SET_LO 9 : State).loHeld = []) ∧
    ((rig.setReg R.TIM_SET_LO 9 : State).rgsShut (masterIdx .sec) = false) := by decide +kernel

theorem witness_fabricTimeStretchesAndFollowsBeacons_beaconSend :
    (({ rig with time := { rig.time with now := us 3 + 5 } } : State).die = 0) ∧
    ((3000 : Nat) = ({ rig with time := { rig.time with now := us 3 + 5 } } : State).time.now / us 1 * 1000) ∧
    (({ rig with time := { rig.time with now := us 3 + 5 } } : State).pwr.bcnVal ≠ some (3000 : Nat)) := by decide +kernel

theorem witness_fabricTimeStretchesAndFollowsBeacons_beaconReceive :
    (({ rig with ties := { rig.ties with inst := 3 } } : State).die ≠ 0) ∧
    (({ rig with ties := { rig.ties with inst := 3 } } : State).pwr.bcnVal ≠ some (1000 : W64).toNat) ∧
    ((1000 * 300000 + 44 * rig.fcUnits : Nat) = (1000 : W64).toNat * 300000 + 44 * (1 : Fin 8).val * ({ rig with ties := { rig.ties with inst := 3 } } : State).fcUnits) ∧
    (({ rig with ties := { rig.ties with inst := 3 } } : State).time.now < (1000 * 300000 + 44 * rig.fcUnits : Nat)) := by decide +kernel

theorem witness_fabricTimeStretchesAndFollowsBeacons_beaconReceive_ahead :
    (({ rig with ties := { rig.ties with inst := 3 }, time := { rig.time with now := us 50 } } : State).die ≠ 0) ∧
    (({ rig with ties := { rig.ties with inst := 3 }, time := { rig.time with now := us 50 } } : State).pwr.bcnVal ≠ some (1000 : W64).toNat) ∧
    ((1000 * 300000 + 44 * rig.fcUnits : Nat) = (1000 : W64).toNat * 300000 + 44 * (1 : Fin 8).val * ({ rig with ties := { rig.ties with inst := 3 }, time := { rig.time with now := us 50 } } : State).fcUnits) ∧
    ((1000 * 300000 + 44 * rig.fcUnits : Nat) ≤ ({ rig with ties := { rig.ties with inst := 3 }, time := { rig.time with now := us 50 } } : State).time.now) := by decide +kernel

theorem witness_fabricTimeStretchesAndFollowsBeacons_beaconLoss :
    (({ (rig.puts [(R.BRG_ATT_V 6, 1), (R.BRG_STAT_STATE 6, 2), (R.IDV_CONF_DIES, 2)]).setReg R.BRG_DROUTE 7 with ties := { rig.ties with inst := 1 }, time := { rig.time with real := us 16 } } : State).die ≠ 0) ∧
    ((({ (rig.puts [(R.BRG_ATT_V 6, 1), (R.BRG_STAT_STATE 6, 2), (R.IDV_CONF_DIES, 2)]).setReg R.BRG_DROUTE 7 with ties := { rig.ties with inst := 1 }, time := { rig.time with real := us 16 } } : State).sideLane 0).isSome) ∧
    (({ (rig.puts [(R.BRG_ATT_V 6, 1), (R.BRG_STAT_STATE 6, 2), (R.IDV_CONF_DIES, 2)]).setReg R.BRG_DROUTE 7 with ties := { rig.ties with inst := 1 }, time := { rig.time with real := us 16 } } : State).pwr.bcnAt + us 16 ≤ ({ (rig.puts [(R.BRG_ATT_V 6, 1), (R.BRG_STAT_STATE 6, 2), (R.IDV_CONF_DIES, 2)]).setReg R.BRG_DROUTE 7 with ties := { rig.ties with inst := 1 }, time := { rig.time with real := us 16 } } : State).time.real) := by decide +kernel


theorem witness_ringsTakeAndPostEntries_doorbell :
    (((Master.hrp : Master) == .hrp || (Master.hrp : Master) == .dbg) = true) ∧
    (vbit (1 : W32) 0 = true) ∧
    ((rig : State).rgsShut (masterIdx (Master.hrp : Master)) = false) := by decide +kernel

theorem witness_ringsTakeAndPostEntries_submissionTake :
    (((({ (rig.puts ([(R.MGT_MODE_MODE, 1), (R.HLM_BOOT_STAT_STEP, 13)] ++ (List.range 11).map (fun n => (inService n, 1)))) with masked := [], mgt := { rig.mgt with bell := true } }).setMs32 0x60000 1).setCell (msram 0x61000) 1 : State).mgt.bell = true) ∧
    (((({ (rig.puts ([(R.MGT_MODE_MODE, 1), (R.HLM_BOOT_STAT_STEP, 13)] ++ (List.range 11).map (fun n => (inService n, 1)))) with masked := [], mgt := { rig.mgt with bell := true } }).setMs32 0x60000 1).setCell (msram 0x61000) 1 : State).coreLive 2 = true) ∧
    (((({ (rig.puts ([(R.MGT_MODE_MODE, 1), (R.HLM_BOOT_STAT_STEP, 13)] ++ (List.range 11).map (fun n => (inService n, 1)))) with masked := [], mgt := { rig.mgt with bell := true } }).setMs32 0x60000 1).setCell (msram 0x61000) 1 : State).msramHeld = false) ∧
    (((({ (rig.puts ([(R.MGT_MODE_MODE, 1), (R.HLM_BOOT_STAT_STEP, 13)] ++ (List.range 11).map (fun n => (inService n, 1)))) with masked := [], mgt := { rig.mgt with bell := true } }).setMs32 0x60000 1).setCell (msram 0x61000) 1 : State).rgsShut 2 = false) ∧
    (13 ≤ ((({ (rig.puts ([(R.MGT_MODE_MODE, 1), (R.HLM_BOOT_STAT_STEP, 13)] ++ (List.range 11).map (fun n => (inService n, 1)))) with masked := [], mgt := { rig.mgt with bell := true } }).setMs32 0x60000 1).setCell (msram 0x61000) 1 : State).f R.HLM_BOOT_STAT_STEP) ∧
    ((1 : Nat) = (((({ (rig.puts ([(R.MGT_MODE_MODE, 1), (R.HLM_BOOT_STAT_STEP, 13)] ++ (List.range 11).map (fun n => (inService n, 1)))) with masked := [], mgt := { rig.mgt with bell := true } }).setMs32 0x60000 1).setCell (msram 0x61000) 1 : State).ms32 0x60000 + 2 ^ 32 - ((({ (rig.puts ([(R.MGT_MODE_MODE, 1), (R.HLM_BOOT_STAT_STEP, 13)] ++ (List.range 11).map (fun n => (inService n, 1)))) with masked := [], mgt := { rig.mgt with bell := true } }).setMs32 0x60000 1).setCell (msram 0x61000) 1 : State).ms32 0x60040) % 2 ^ 32) ∧
    (0 < (1 : Nat)) ∧
    ((1 : Nat) ≤ 1024) ∧
    (({ idx := 0, op := 1, tag := 0, ctx := 0, after := false, core := 2, ent := 1 :: List.replicate 63 0, stage := 0, todo := [], acc := 0, t0 := 0 } : Job) = ((({ (rig.puts ([(R.MGT_MODE_MODE, 1), (R.HLM_BOOT_STAT_STEP, 13)] ++ (List.range 11).map (fun n => (inService n, 1)))) with masked := [], mgt := { rig.mgt with bell := true } }).setMs32 0x60000 1).setCell (msram 0x61000) 1 : State).entryAt (((({ (rig.puts ([(R.MGT_MODE_MODE, 1), (R.HLM_BOOT_STAT_STEP, 13)] ++ (List.range 11).map (fun n => (inService n, 1)))) with masked := [], mgt := { rig.mgt with bell := true } }).setMs32 0x60000 1).setCell (msram 0x61000) 1 : State).ms32 0x60040)) ∧
    ((sqRow ({ idx := 0, op := 1, tag := 0, ctx := 0, after := false, core := 2, ent := 1 :: List.replicate 63 0, stage := 0, todo := [], acc := 0, t0 := 0 } : Job).op 0 false).isSome) := by decide +kernel

theorem witness_ringsTakeAndPostEntries_submissionTake_badOp :
    (((({ (rig.puts ([(R.MGT_MODE_MODE, 1), (R.HLM_BOOT_STAT_STEP, 13)] ++ (List.range 11).map (fun n => (inService n, 1)))) with masked := [], mgt := { rig.mgt with bell := true } }).setMs32 0x60000 1).setCell (msram 0x61000) 0x14 : State).mgt.bell = true) ∧
    (((({ (rig.puts ([(R.MGT_MODE_MODE, 1), (R.HLM_BOOT_STAT_STEP, 13)] ++ (List.range 11).map (fun n => (inService n, 1)))) with masked := [], mgt := { rig.mgt with bell := true } }).setMs32 0x60000 1).setCell (msram 0x61000) 0x14 : State).coreLive 2 = true) ∧
    (((({ (rig.puts ([(R.MGT_MODE_MODE, 1), (R.HLM_BOOT_STAT_STEP, 13)] ++ (List.range 11).map (fun n => (inService n, 1)))) with masked := [], mgt := { rig.mgt with bell := true } }).setMs32 0x60000 1).setCell (msram 0x61000) 0x14 : State).msramHeld = false) ∧
    (((({ (rig.puts ([(R.MGT_MODE_MODE, 1), (R.HLM_BOOT_STAT_STEP, 13)] ++ (List.range 11).map (fun n => (inService n, 1)))) with masked := [], mgt := { rig.mgt with bell := true } }).setMs32 0x60000 1).setCell (msram 0x61000) 0x14 : State).rgsShut 2 = false) ∧
    (13 ≤ ((({ (rig.puts ([(R.MGT_MODE_MODE, 1), (R.HLM_BOOT_STAT_STEP, 13)] ++ (List.range 11).map (fun n => (inService n, 1)))) with masked := [], mgt := { rig.mgt with bell := true } }).setMs32 0x60000 1).setCell (msram 0x61000) 0x14 : State).f R.HLM_BOOT_STAT_STEP) ∧
    ((1 : Nat) = (((({ (rig.puts ([(R.MGT_MODE_MODE, 1), (R.HLM_BOOT_STAT_STEP, 13)] ++ (List.range 11).map (fun n => (inService n, 1)))) with masked := [], mgt := { rig.mgt with bell := true } }).setMs32 0x60000 1).setCell (msram 0x61000) 0x14 : State).ms32 0x60000 + 2 ^ 32 - ((({ (rig.puts ([(R.MGT_MODE_MODE, 1), (R.HLM_BOOT_STAT_STEP, 13)] ++ (List.range 11).map (fun n => (inService n, 1)))) with masked := [], mgt := { rig.mgt with bell := true } }).setMs32 0x60000 1).setCell (msram 0x61000) 0x14 : State).ms32 0x60040) % 2 ^ 32) ∧
    (0 < (1 : Nat)) ∧
    ((1 : Nat) ≤ 1024) ∧
    (({ idx := 0, op := 0x14, tag := 0, ctx := 0, after := false, core := 2, ent := 0x14 :: List.replicate 63 0, stage := 0, todo := [], acc := 0, t0 := 0 } : Job) = ((({ (rig.puts ([(R.MGT_MODE_MODE, 1), (R.HLM_BOOT_STAT_STEP, 13)] ++ (List.range 11).map (fun n => (inService n, 1)))) with masked := [], mgt := { rig.mgt with bell := true } }).setMs32 0x60000 1).setCell (msram 0x61000) 0x14 : State).entryAt (((({ (rig.puts ([(R.MGT_MODE_MODE, 1), (R.HLM_BOOT_STAT_STEP, 13)] ++ (List.range 11).map (fun n => (inService n, 1)))) with masked := [], mgt := { rig.mgt with bell := true } }).setMs32 0x60000 1).setCell (msram 0x61000) 0x14 : State).ms32 0x60040)) ∧
    ((sqRow ({ idx := 0, op := 0x14, tag := 0, ctx := 0, after := false, core := 2, ent := 0x14 :: List.replicate 63 0, stage := 0, todo := [], acc := 0, t0 := 0 } : Job).op 0 false).isSome = false) := by decide +kernel

theorem witness_ringsTakeAndPostEntries_completionPost :
    (({ (rig.puts ([(R.MGT_MODE_MODE, 1), (R.HLM_BOOT_STAT_STEP, 13)] ++ (List.range 11).map (fun n => (inService n, 1)))) with masked := [], mgt := { rig.mgt with posts := [(10, leBytes 48 77)] } } : State).coreLive (10 : Core) = true) ∧
    (({ (rig.puts ([(R.MGT_MODE_MODE, 1), (R.HLM_BOOT_STAT_STEP, 13)] ++ (List.range 11).map (fun n => (inService n, 1)))) with masked := [], mgt := { rig.mgt with posts := [(10, leBytes 48 77)] } } : State).msramHeld = false) ∧
    (({ (rig.puts ([(R.MGT_MODE_MODE, 1), (R.HLM_BOOT_STAT_STEP, 13)] ++ (List.range 11).map (fun n => (inService n, 1)))) with masked := [], mgt := { rig.mgt with posts := [(10, leBytes 48 77)] } } : State).rgsShut (10 : Core) = false) ∧
    (({ (rig.puts ([(R.MGT_MODE_MODE, 1), (R.HLM_BOOT_STAT_STEP, 13)] ++ (List.range 11).map (fun n => (inService n, 1)))) with masked := [], mgt := { rig.mgt with posts := [(10, leBytes 48 77)] } } : State).mgt.reopen.contains (10 : Core).val = false) ∧
    (({ (rig.puts ([(R.MGT_MODE_MODE, 1), (R.HLM_BOOT_STAT_STEP, 13)] ++ (List.range 11).map (fun n => (inService n, 1)))) with masked := [], mgt := { rig.mgt with posts := [(10, leBytes 48 77)] } } : State).mgt.posts.find? (fun y => decide (y.1 = (10 : Core).val)) = some ((10 : Core).val, (leBytes 48 77 : List Byte))) ∧
    (({ (rig.puts ([(R.MGT_MODE_MODE, 1), (R.HLM_BOOT_STAT_STEP, 13)] ++ (List.range 11).map (fun n => (inService n, 1)))) with masked := [], mgt := { rig.mgt with posts := [(10, leBytes 48 77)] } } : State).ringUsed cqRing < 1024) ∧
    (({ (rig.puts ([(R.MGT_MODE_MODE, 1), (R.HLM_BOOT_STAT_STEP, 13)] ++ (List.range 11).map (fun n => (inService n, 1)))) with masked := [], mgt := { rig.mgt with posts := [(10, leBytes 48 77)] } } : State) = if (10 : Core).val = 2 then ({ (rig.puts ([(R.MGT_MODE_MODE, 1), (R.HLM_BOOT_STAT_STEP, 13)] ++ (List.range 11).map (fun n => (inService n, 1)))) with masked := [], mgt := { rig.mgt with posts := [(10, leBytes 48 77)] } } : State).jobsGo (fun j => decide (0 < j.stage) && (decide (j.op = 5) || decide (j.op = 7))) else ({ (rig.puts ([(R.MGT_MODE_MODE, 1), (R.HLM_BOOT_STAT_STEP, 13)] ++ (List.range 11).map (fun n => (inService n, 1)))) with masked := [], mgt := { rig.mgt with posts := [(10, leBytes 48 77)] } } : State)) ∧
    ((((({ (rig.puts ([(R.MGT_MODE_MODE, 1), (R.HLM_BOOT_STAT_STEP, 13)] ++ (List.range 11).map (fun n => (inService n, 1)))) with masked := [], mgt := { rig.mgt with posts := [(10, leBytes 48 77)] } }).ringGood 1).ringPost 10 cqRing (leBytes 48 77)).hintSet 0 : State) = ((({ (rig.puts ([(R.MGT_MODE_MODE, 1), (R.HLM_BOOT_STAT_STEP, 13)] ++ (List.range 11).map (fun n => (inService n, 1)))) with masked := [], mgt := { rig.mgt with posts := [(10, leBytes 48 77)] } } : State).ringGood 1).ringPost (10 : Core) cqRing (leBytes 48 77 : List Byte)).hintSet 0) := by decide +kernel

theorem witness_ringsTakeAndPostEntries_completionPost_entry :
    ((10 : Nat) < 11) ∧
    ((leBytes 48 77 : List Byte).length = 48) := by decide +kernel

theorem witness_ringsTakeAndPostEntries_eventPost :
    (¬(3 ≤ (1 : Core).val ∧ ({ (rig.puts ([(R.MGT_MODE_MODE, 1), (R.HLM_BOOT_STAT_STEP, 13)] ++ (List.range 11).map (fun n => (inService n, 1)))) with masked := [], events := [(1, 0x20, 5)] } : State).coreDown (1 : Core) = true)) ∧
    (({ (rig.puts ([(R.MGT_MODE_MODE, 1), (R.HLM_BOOT_STAT_STEP, 13)] ++ (List.range 11).map (fun n => (inService n, 1)))) with masked := [], events := [(1, 0x20, 5)] } : State).coreLive (1 : Core) = true) ∧
    (13 ≤ ({ (rig.puts ([(R.MGT_MODE_MODE, 1), (R.HLM_BOOT_STAT_STEP, 13)] ++ (List.range 11).map (fun n => (inService n, 1)))) with masked := [], events := [(1, 0x20, 5)] } : State).f R.HLM_BOOT_STAT_STEP) ∧
    (({ (rig.puts ([(R.MGT_MODE_MODE, 1), (R.HLM_BOOT_STAT_STEP, 13)] ++ (List.range 11).map (fun n => (inService n, 1)))) with masked := [], events := [(1, 0x20, 5)] } : State).msramHeld = false) ∧
    (({ (rig.puts ([(R.MGT_MODE_MODE, 1), (R.HLM_BOOT_STAT_STEP, 13)] ++ (List.range 11).map (fun n => (inService n, 1)))) with masked := [], events := [(1, 0x20, 5)] } : State).rgsShut (1 : Core) = false) ∧
    (({ (rig.puts ([(R.MGT_MODE_MODE, 1), (R.HLM_BOOT_STAT_STEP, 13)] ++ (List.range 11).map (fun n => (inService n, 1)))) with masked := [], events := [(1, 0x20, 5)] } : State).mgt.reopen.contains (1 : Core).val = false) ∧
    (([(1, 0x20, 5)] : List (Nat × Nat × Nat)) = ({ (rig.puts ([(R.MGT_MODE_MODE, 1), (R.HLM_BOOT_STAT_STEP, 13)] ++ (List.range 11).map (fun n => (inService n, 1)))) with masked := [], events := [(1, 0x20, 5)] } : State).events.filter (fun y => decide (y.1 = (1 : Core).val) || (decide ((1 : Core).val = 0) && decide (3 ≤ y.1) && ({ (rig.puts ([(R.MGT_MODE_MODE, 1), (R.HLM_BOOT_STAT_STEP, 13)] ++ (List.range 11).map (fun n => (inService n, 1)))) with masked := [], events := [(1, 0x20, 5)] } : State).coreDown y.1))) ∧
    (([(1, 0x20, 5)] : List (Nat × Nat × Nat)).isEmpty = false ∨ ((1 : Core).val = 0 ∧ ({ (rig.puts ([(R.MGT_MODE_MODE, 1), (R.HLM_BOOT_STAT_STEP, 13)] ++ (List.range 11).map (fun n => (inService n, 1)))) with masked := [], events := [(1, 0x20, 5)] } : State).logsWait = true)) ∧
    ((({ (rig.puts ([(R.MGT_MODE_MODE, 1), (R.HLM_BOOT_STAT_STEP, 13)] ++ (List.range 11).map (fun n => (inService n, 1)))) with masked := [] }).eventTo 1 0x20 5 : State) = ([(1, 0x20, 5)] : List (Nat × Nat × Nat)).foldl (fun z y => z.eventTo (1 : Core) y.2.1 y.2.2) { ({ (rig.puts ([(R.MGT_MODE_MODE, 1), (R.HLM_BOOT_STAT_STEP, 13)] ++ (List.range 11).map (fun n => (inService n, 1)))) with masked := [], events := [(1, 0x20, 5)] } : State) with events := ({ (rig.puts ([(R.MGT_MODE_MODE, 1), (R.HLM_BOOT_STAT_STEP, 13)] ++ (List.range 11).map (fun n => (inService n, 1)))) with masked := [], events := [(1, 0x20, 5)] } : State).events.filter (fun y => !(decide (y.1 = (1 : Core).val) || (decide ((1 : Core).val = 0) && decide (3 ≤ y.1) && ({ (rig.puts ([(R.MGT_MODE_MODE, 1), (R.HLM_BOOT_STAT_STEP, 13)] ++ (List.range 11).map (fun n => (inService n, 1)))) with masked := [], events := [(1, 0x20, 5)] } : State).coreDown y.1))) }) := by decide +kernel

theorem witness_ringsTakeAndPostEntries_eventPost_entry :
    ((State.reset : State).ringUsed eqRing < 512) ∧
    ((State.reset : State).ms32 0x60180 = 0) ∧
    (((State.reset.ringGood 2).ringPost 1 eqRing (eqHead 1 0x20 0 5) : State) = ((State.reset : State).ringGood 2).ringPost (1 : Nat) eqRing (eqHead (1 : Nat) (0x20 : Nat) (State.reset : State).mgt.evSeq (5 : Nat))) := by decide +kernel

theorem witness_ringsTakeAndPostEntries_hintSet :
    ((Master.cc 7 : Master) ≠ .hrp) ∧
    ((Master.cc 7 : Master) ≠ .dbg) ∧
    ((rig.put R.MGT_HINT_STAT_CMPL 1 : State).rgsShut (masterIdx (Master.cc 7 : Master)) = false) := by decide +kernel

theorem witness_ringsTakeAndPostEntries_hintStatClear :
    (((Master.hrp : Master) == .hrp || (Master.hrp : Master) == .dbg) = true) ∧
    ((rig.put R.MGT_HINT_STAT_CMPL 1 : State).rgsShut (masterIdx (Master.hrp : Master)) = false) := by decide +kernel


theorem witness_coresRestartAndHalt_wdtKick :
    (masterIdx (Master.cc 7 : Master) = (10 : Core).val) ∧
    ((0xA5C3 : W32).toNat % 65536 = 0xA5C3) ∧
    (({ (rig.puts ([(R.MGT_MODE_MODE, 1), (R.HLM_BOOT_STAT_STEP, 13)] ++ (List.range 11).map (fun n => (inService n, 1)))) with masked := [] } : State).masked.contains (10 : Core).val = false) ∧
    (({ (rig.puts ([(R.MGT_MODE_MODE, 1), (R.HLM_BOOT_STAT_STEP, 13)] ++ (List.range 11).map (fun n => (inService n, 1)))) with masked := [] } : State).mgt.restarts.find? (fun y => decide (y.core = (10 : Core).val) && y.live) = none) ∧
    (({ (rig.puts ([(R.MGT_MODE_MODE, 1), (R.HLM_BOOT_STAT_STEP, 13)] ++ (List.range 11).map (fun n => (inService n, 1)))) with masked := [] } : State).rgsShut (masterIdx (Master.cc 7 : Master)) = false) := by decide +kernel

theorem witness_coresRestartAndHalt_wdtKick_first :
    (masterIdx (Master.cc 7 : Master) = (10 : Core).val) ∧
    ((0xA5C3 : W32).toNat % 65536 = 0xA5C3) ∧
    (({ (rig.puts ([(R.MGT_MODE_MODE, 1), (R.HLM_BOOT_STAT_STEP, 13)] ++ (List.range 11).map (fun n => (inService n, 1)))) with masked := [], mgt := { rig.mgt with restarts := [{ core := 10, cause := 4, slot := 0, at' := 0, live := true, retried := false }] } } : State).masked.contains (10 : Core).val = false) ∧
    (({ (rig.puts ([(R.MGT_MODE_MODE, 1), (R.HLM_BOOT_STAT_STEP, 13)] ++ (List.range 11).map (fun n => (inService n, 1)))) with masked := [], mgt := { rig.mgt with restarts := [{ core := 10, cause := 4, slot := 0, at' := 0, live := true, retried := false }] } } : State).mgt.restarts.find? (fun y => decide (y.core = (10 : Core).val) && y.live) = some ({ core := 10, cause := 4, slot := 0, at' := 0, live := true, retried := false } : Restart)) ∧
    (({ (rig.puts ([(R.MGT_MODE_MODE, 1), (R.HLM_BOOT_STAT_STEP, 13)] ++ (List.range 11).map (fun n => (inService n, 1)))) with masked := [], mgt := { rig.mgt with restarts := [{ core := 10, cause := 4, slot := 0, at' := 0, live := true, retried := false }] } } : State).rgsShut (masterIdx (Master.cc 7 : Master)) = false) := by decide +kernel

theorem witness_coresRestartAndHalt_watchdogExpiry :
    (({ (rig.puts ([(R.MGT_MODE_MODE, 1), (R.HLM_BOOT_STAT_STEP, 13)] ++ (List.range 11).map (fun n => (inService n, 1)) ++ [(R.MGT_WDT_CFG_EN 10, 1), (R.MGT_WDT_CFG_TIMEOUT 10, 4)])) with masked := [], time := { rig.time with now := us 4 } } : State).coreExists (10 : Core) = true) ∧
    (({ (rig.puts ([(R.MGT_MODE_MODE, 1), (R.HLM_BOOT_STAT_STEP, 13)] ++ (List.range 11).map (fun n => (inService n, 1)) ++ [(R.MGT_WDT_CFG_EN 10, 1), (R.MGT_WDT_CFG_TIMEOUT 10, 4)])) with masked := [], time := { rig.time with now := us 4 } } : State).bit (R.MGT_WDT_CFG_EN (10 : Core)) = true) ∧
    (({ (rig.puts ([(R.MGT_MODE_MODE, 1), (R.HLM_BOOT_STAT_STEP, 13)] ++ (List.range 11).map (fun n => (inService n, 1)) ++ [(R.MGT_WDT_CFG_EN 10, 1), (R.MGT_WDT_CFG_TIMEOUT 10, 4)])) with masked := [], time := { rig.time with now := us 4 } } : State).masked.contains (10 : Core).val = false) ∧
    (({ (rig.puts ([(R.MGT_MODE_MODE, 1), (R.HLM_BOOT_STAT_STEP, 13)] ++ (List.range 11).map (fun n => (inService n, 1)) ++ [(R.MGT_WDT_CFG_EN 10, 1), (R.MGT_WDT_CFG_TIMEOUT 10, 4)])) with masked := [], time := { rig.time with now := us 4 } } : State).bit (bitFld R.MGT_HALT_STAT (10 : Core)) = false) ∧
    ((({ (rig.puts ([(R.MGT_MODE_MODE, 1), (R.HLM_BOOT_STAT_STEP, 13)] ++ (List.range 11).map (fun n => (inService n, 1)) ++ [(R.MGT_WDT_CFG_EN 10, 1), (R.MGT_WDT_CFG_TIMEOUT 10, 4)])) with masked := [], time := { rig.time with now := us 4 } } : State).mgt.hold.isSome && ({ (rig.puts ([(R.MGT_MODE_MODE, 1), (R.HLM_BOOT_STAT_STEP, 13)] ++ (List.range 11).map (fun n => (inService n, 1)) ++ [(R.MGT_WDT_CFG_EN 10, 1), (R.MGT_WDT_CFG_TIMEOUT 10, 4)])) with masked := [], time := { rig.time with now := us 4 } } : State).bit (R.MGT_WDT_CFG_DBG_PAUSE (10 : Core))) = false) ∧
    (SMap.get 0 ({ (rig.puts ([(R.MGT_MODE_MODE, 1), (R.HLM_BOOT_STAT_STEP, 13)] ++ (List.range 11).map (fun n => (inService n, 1)) ++ [(R.MGT_WDT_CFG_EN 10, 1), (R.MGT_WDT_CFG_TIMEOUT 10, 4)])) with masked := [], time := { rig.time with now := us 4 } } : State).mgt.kicks (10 : Core) + us (({ (rig.puts ([(R.MGT_MODE_MODE, 1), (R.HLM_BOOT_STAT_STEP, 13)] ++ (List.range 11).map (fun n => (inService n, 1)) ++ [(R.MGT_WDT_CFG_EN 10, 1), (R.MGT_WDT_CFG_TIMEOUT 10, 4)])) with masked := [], time := { rig.time with now := us 4 } } : State).f (R.MGT_WDT_CFG_TIMEOUT (10 : Core))) ≤ ({ (rig.puts ([(R.MGT_MODE_MODE, 1), (R.HLM_BOOT_STAT_STEP, 13)] ++ (List.range 11).map (fun n => (inService n, 1)) ++ [(R.MGT_WDT_CFG_EN 10, 1), (R.MGT_WDT_CFG_TIMEOUT 10, 4)])) with masked := [], time := { rig.time with now := us 4 } } : State).time.now) ∧
    (({ (rig.puts ([(R.MGT_MODE_MODE, 1), (R.HLM_BOOT_STAT_STEP, 13)] ++ (List.range 11).map (fun n => (inService n, 1)) ++ [(R.MGT_WDT_CFG_EN 10, 1), (R.MGT_WDT_CFG_TIMEOUT 10, 4)])) with masked := [], time := { rig.time with now := us 4 } } : State).bit R.MGT_MODE_MODE = true) ∧
    (({ (rig.puts ([(R.MGT_MODE_MODE, 1), (R.HLM_BOOT_STAT_STEP, 13)] ++ (List.range 11).map (fun n => (inService n, 1)) ++ [(R.MGT_WDT_CFG_EN 10, 1), (R.MGT_WDT_CFG_TIMEOUT 10, 4)])) with masked := [], time := { rig.time with now := us 4 } } : State).roleState (roleOf (10 : Core)) ≠ 5) := by decide +kernel

theorem witness_coresRestartAndHalt_watchdogExpiry_kernel :
    (({ (rig.puts ([(R.MGT_MODE_MODE, 1), (R.HLM_BOOT_STAT_STEP, 13)] ++ (List.range 11).map (fun n => (inService n, 1)) ++ [(R.MGT_MODE_MODE, 0), (R.MGT_WDT_CFG_EN 10, 1), (R.MGT_WDT_CFG_TIMEOUT 10, 4)])) with masked := [], time := { rig.time with now := us 4 } } : State).coreExists (10 : Core) = true) ∧
    (({ (rig.puts ([(R.MGT_MODE_MODE, 1), (R.HLM_BOOT_STAT_STEP, 13)] ++ (List.range 11).map (fun n => (inService n, 1)) ++ [(R.MGT_MODE_MODE, 0), (R.MGT_WDT_CFG_EN 10, 1), (R.MGT_WDT_CFG_TIMEOUT 10, 4)])) with masked := [], time := { rig.time with now := us 4 } } : State).bit (R.MGT_WDT_CFG_EN (10 : Core)) = true) ∧
    (({ (rig.puts ([(R.MGT_MODE_MODE, 1), (R.HLM_BOOT_STAT_STEP, 13)] ++ (List.range 11).map (fun n => (inService n, 1)) ++ [(R.MGT_MODE_MODE, 0), (R.MGT_WDT_CFG_EN 10, 1), (R.MGT_WDT_CFG_TIMEOUT 10, 4)])) with masked := [], time := { rig.time with now := us 4 } } : State).masked.contains (10 : Core).val = false) ∧
    (({ (rig.puts ([(R.MGT_MODE_MODE, 1), (R.HLM_BOOT_STAT_STEP, 13)] ++ (List.range 11).map (fun n => (inService n, 1)) ++ [(R.MGT_MODE_MODE, 0), (R.MGT_WDT_CFG_EN 10, 1), (R.MGT_WDT_CFG_TIMEOUT 10, 4)])) with masked := [], time := { rig.time with now := us 4 } } : State).bit (bitFld R.MGT_HALT_STAT (10 : Core)) = false) ∧
    ((({ (rig.puts ([(R.MGT_MODE_MODE, 1), (R.HLM_BOOT_STAT_STEP, 13)] ++ (List.range 11).map (fun n => (inService n, 1)) ++ [(R.MGT_MODE_MODE, 0), (R.MGT_WDT_CFG_EN 10, 1), (R.MGT_WDT_CFG_TIMEOUT 10, 4)])) with masked := [], time := { rig.time with now := us 4 } } : State).mgt.hold.isSome && ({ (rig.puts ([(R.MGT_MODE_MODE, 1), (R.HLM_BOOT_STAT_STEP, 13)] ++ (List.range 11).map (fun n => (inService n, 1)) ++ [(R.MGT_MODE_MODE, 0), (R.MGT_WDT_CFG_EN 10, 1), (R.MGT_WDT_CFG_TIMEOUT 10, 4)])) with masked := [], time := { rig.time with now := us 4 } } : State).bit (R.MGT_WDT_CFG_DBG_PAUSE (10 : Core))) = false) ∧
    (SMap.get 0 ({ (rig.puts ([(R.MGT_MODE_MODE, 1), (R.HLM_BOOT_STAT_STEP, 13)] ++ (List.range 11).map (fun n => (inService n, 1)) ++ [(R.MGT_MODE_MODE, 0), (R.MGT_WDT_CFG_EN 10, 1), (R.MGT_WDT_CFG_TIMEOUT 10, 4)])) with masked := [], time := { rig.time with now := us 4 } } : State).mgt.kicks (10 : Core) + us (({ (rig.puts ([(R.MGT_MODE_MODE, 1), (R.HLM_BOOT_STAT_STEP, 13)] ++ (List.range 11).map (fun n => (inService n, 1)) ++ [(R.MGT_MODE_MODE, 0), (R.MGT_WDT_CFG_EN 10, 1), (R.MGT_WDT_CFG_TIMEOUT 10, 4)])) with masked := [], time := { rig.time with now := us 4 } } : State).f (R.MGT_WDT_CFG_TIMEOUT (10 : Core))) ≤ ({ (rig.puts ([(R.MGT_MODE_MODE, 1), (R.HLM_BOOT_STAT_STEP, 13)] ++ (List.range 11).map (fun n => (inService n, 1)) ++ [(R.MGT_MODE_MODE, 0), (R.MGT_WDT_CFG_EN 10, 1), (R.MGT_WDT_CFG_TIMEOUT 10, 4)])) with masked := [], time := { rig.time with now := us 4 } } : State).time.now) ∧
    (({ (rig.puts ([(R.MGT_MODE_MODE, 1), (R.HLM_BOOT_STAT_STEP, 13)] ++ (List.range 11).map (fun n => (inService n, 1)) ++ [(R.MGT_MODE_MODE, 0), (R.MGT_WDT_CFG_EN 10, 1), (R.MGT_WDT_CFG_TIMEOUT 10, 4)])) with masked := [], time := { rig.time with now := us 4 } } : State).bit R.MGT_MODE_MODE = false) := by decide +kernel

theorem witness_coresRestartAndHalt_watchdogExpiry_probation :
    (({ (rig.puts ([(R.MGT_MODE_MODE, 1), (R.HLM_BOOT_STAT_STEP, 13)] ++ (List.range 11).map (fun n => (inService n, 1)) ++ [(R.MGT_IMG_STAT_STATE 3, 5), (R.MGT_WDT_CFG_EN 10, 1), (R.MGT_WDT_CFG_TIMEOUT 10, 4)])) with masked := [], time := { rig.time with now := us 4 } } : State).coreExists (10 : Core) = true) ∧
    (({ (rig.puts ([(R.MGT_MODE_MODE, 1), (R.HLM_BOOT_STAT_STEP, 13)] ++ (List.range 11).map (fun n => (inService n, 1)) ++ [(R.MGT_IMG_STAT_STATE 3, 5), (R.MGT_WDT_CFG_EN 10, 1), (R.MGT_WDT_CFG_TIMEOUT 10, 4)])) with masked := [], time := { rig.time with now := us 4 } } : State).bit (R.MGT_WDT_CFG_EN (10 : Core)) = true) ∧
    (({ (rig.puts ([(R.MGT_MODE_MODE, 1), (R.HLM_BOOT_STAT_STEP, 13)] ++ (List.range 11).map (fun n => (inService n, 1)) ++ [(R.MGT_IMG_STAT_STATE 3, 5), (R.MGT_WDT_CFG_EN 10, 1), (R.MGT_WDT_CFG_TIMEOUT 10, 4)])) with masked := [], time := { rig.time with now := us 4 } } : State).masked.contains (10 : Core).val = false) ∧
    (({ (rig.puts ([(R.MGT_MODE_MODE, 1), (R.HLM_BOOT_STAT_STEP, 13)] ++ (List.range 11).map (fun n => (inService n, 1)) ++ [(R.MGT_IMG_STAT_STATE 3, 5), (R.MGT_WDT_CFG_EN 10, 1), (R.MGT_WDT_CFG_TIMEOUT 10, 4)])) with masked := [], time := { rig.time with now := us 4 } } : State).bit (bitFld R.MGT_HALT_STAT (10 : Core)) = false) ∧
    ((({ (rig.puts ([(R.MGT_MODE_MODE, 1), (R.HLM_BOOT_STAT_STEP, 13)] ++ (List.range 11).map (fun n => (inService n, 1)) ++ [(R.MGT_IMG_STAT_STATE 3, 5), (R.MGT_WDT_CFG_EN 10, 1), (R.MGT_WDT_CFG_TIMEOUT 10, 4)])) with masked := [], time := { rig.time with now := us 4 } } : State).mgt.hold.isSome && ({ (rig.puts ([(R.MGT_MODE_MODE, 1), (R.HLM_BOOT_STAT_STEP, 13)] ++ (List.range 11).map (fun n => (inService n, 1)) ++ [(R.MGT_IMG_STAT_STATE 3, 5), (R.MGT_WDT_CFG_EN 10, 1), (R.MGT_WDT_CFG_TIMEOUT 10, 4)])) with masked := [], time := { rig.time with now := us 4 } } : State).bit (R.MGT_WDT_CFG_DBG_PAUSE (10 : Core))) = false) ∧
    (SMap.get 0 ({ (rig.puts ([(R.MGT_MODE_MODE, 1), (R.HLM_BOOT_STAT_STEP, 13)] ++ (List.range 11).map (fun n => (inService n, 1)) ++ [(R.MGT_IMG_STAT_STATE 3, 5), (R.MGT_WDT_CFG_EN 10, 1), (R.MGT_WDT_CFG_TIMEOUT 10, 4)])) with masked := [], time := { rig.time with now := us 4 } } : State).mgt.kicks (10 : Core) + us (({ (rig.puts ([(R.MGT_MODE_MODE, 1), (R.HLM_BOOT_STAT_STEP, 13)] ++ (List.range 11).map (fun n => (inService n, 1)) ++ [(R.MGT_IMG_STAT_STATE 3, 5), (R.MGT_WDT_CFG_EN 10, 1), (R.MGT_WDT_CFG_TIMEOUT 10, 4)])) with masked := [], time := { rig.time with now := us 4 } } : State).f (R.MGT_WDT_CFG_TIMEOUT (10 : Core))) ≤ ({ (rig.puts ([(R.MGT_MODE_MODE, 1), (R.HLM_BOOT_STAT_STEP, 13)] ++ (List.range 11).map (fun n => (inService n, 1)) ++ [(R.MGT_IMG_STAT_STATE 3, 5), (R.MGT_WDT_CFG_EN 10, 1), (R.MGT_WDT_CFG_TIMEOUT 10, 4)])) with masked := [], time := { rig.time with now := us 4 } } : State).time.now) ∧
    (({ (rig.puts ([(R.MGT_MODE_MODE, 1), (R.HLM_BOOT_STAT_STEP, 13)] ++ (List.range 11).map (fun n => (inService n, 1)) ++ [(R.MGT_IMG_STAT_STATE 3, 5), (R.MGT_WDT_CFG_EN 10, 1), (R.MGT_WDT_CFG_TIMEOUT 10, 4)])) with masked := [], time := { rig.time with now := us 4 } } : State).bit R.MGT_MODE_MODE = true) ∧
    (({ (rig.puts ([(R.MGT_MODE_MODE, 1), (R.HLM_BOOT_STAT_STEP, 13)] ++ (List.range 11).map (fun n => (inService n, 1)) ++ [(R.MGT_IMG_STAT_STATE 3, 5), (R.MGT_WDT_CFG_EN 10, 1), (R.MGT_WDT_CFG_TIMEOUT 10, 4)])) with masked := [], time := { rig.time with now := us 4 } } : State).roleState (roleOf (10 : Core)) = 5) := by decide +kernel

theorem witness_coresRestartAndHalt_watchdogExpiry_early :
    (({ (rig.puts ([(R.MGT_MODE_MODE, 1), (R.HLM_BOOT_STAT_STEP, 13)] ++ (List.range 11).map (fun n => (inService n, 1)) ++ [(R.MGT_WDT_CFG_EN 10, 1), (R.MGT_WDT_CFG_TIMEOUT 10, 4)])) with masked := [] } : State).coreExists (10 : Core) = true) ∧
    (({ (rig.puts ([(R.MGT_MODE_MODE, 1), (R.HLM_BOOT_STAT_STEP, 13)] ++ (List.range 11).map (fun n => (inService n, 1)) ++ [(R.MGT_WDT_CFG_EN 10, 1), (R.MGT_WDT_CFG_TIMEOUT 10, 4)])) with masked := [] } : State).bit (R.MGT_WDT_CFG_EN (10 : Core)) = true) ∧
    (({ (rig.puts ([(R.MGT_MODE_MODE, 1), (R.HLM_BOOT_STAT_STEP, 13)] ++ (List.range 11).map (fun n => (inService n, 1)) ++ [(R.MGT_WDT_CFG_EN 10, 1), (R.MGT_WDT_CFG_TIMEOUT 10, 4)])) with masked := [] } : State).masked.contains (10 : Core).val = false) ∧
    (({ (rig.puts ([(R.MGT_MODE_MODE, 1), (R.HLM_BOOT_STAT_STEP, 13)] ++ (List.range 11).map (fun n => (inService n, 1)) ++ [(R.MGT_WDT_CFG_EN 10, 1), (R.MGT_WDT_CFG_TIMEOUT 10, 4)])) with masked := [] } : State).bit (bitFld R.MGT_HALT_STAT (10 : Core)) = false) ∧
    ((({ (rig.puts ([(R.MGT_MODE_MODE, 1), (R.HLM_BOOT_STAT_STEP, 13)] ++ (List.range 11).map (fun n => (inService n, 1)) ++ [(R.MGT_WDT_CFG_EN 10, 1), (R.MGT_WDT_CFG_TIMEOUT 10, 4)])) with masked := [] } : State).mgt.hold.isSome && ({ (rig.puts ([(R.MGT_MODE_MODE, 1), (R.HLM_BOOT_STAT_STEP, 13)] ++ (List.range 11).map (fun n => (inService n, 1)) ++ [(R.MGT_WDT_CFG_EN 10, 1), (R.MGT_WDT_CFG_TIMEOUT 10, 4)])) with masked := [] } : State).bit (R.MGT_WDT_CFG_DBG_PAUSE (10 : Core))) = false) ∧
    (({ (rig.puts ([(R.MGT_MODE_MODE, 1), (R.HLM_BOOT_STAT_STEP, 13)] ++ (List.range 11).map (fun n => (inService n, 1)) ++ [(R.MGT_WDT_CFG_EN 10, 1), (R.MGT_WDT_CFG_TIMEOUT 10, 4)])) with masked := [] } : State).time.now < SMap.get 0 ({ (rig.puts ([(R.MGT_MODE_MODE, 1), (R.HLM_BOOT_STAT_STEP, 13)] ++ (List.range 11).map (fun n => (inService n, 1)) ++ [(R.MGT_WDT_CFG_EN 10, 1), (R.MGT_WDT_CFG_TIMEOUT 10, 4)])) with masked := [] } : State).mgt.kicks (10 : Core) + us (({ (rig.puts ([(R.MGT_MODE_MODE, 1), (R.HLM_BOOT_STAT_STEP, 13)] ++ (List.range 11).map (fun n => (inService n, 1)) ++ [(R.MGT_WDT_CFG_EN 10, 1), (R.MGT_WDT_CFG_TIMEOUT 10, 4)])) with masked := [] } : State).f (R.MGT_WDT_CFG_TIMEOUT (10 : Core)))) := by decide +kernel

theorem witness_coresRestartAndHalt_coreRestart :
    (({ (rig.puts ([(R.MGT_MODE_MODE, 1), (R.HLM_BOOT_STAT_STEP, 13)] ++ (List.range 11).map (fun n => (inService n, 1)))) with masked := [] } : State).coreExists (10 : Core) = true) ∧
    (({ (rig.puts ([(R.MGT_MODE_MODE, 1), (R.HLM_BOOT_STAT_STEP, 13)] ++ (List.range 11).map (fun n => (inService n, 1)))) with masked := [] } : State).masked.contains (10 : Core).val = false) ∧
    (({ (rig.puts ([(R.MGT_MODE_MODE, 1), (R.HLM_BOOT_STAT_STEP, 13)] ++ (List.range 11).map (fun n => (inService n, 1)))) with masked := [] } : State).bit R.MGT_MODE_MODE = true) := by decide +kernel

theorem witness_coresRestartAndHalt_coreRestart_kernel :
    (({ rig with masked := [] } : State).coreExists (10 : Core) = true) ∧
    (({ rig with masked := [] } : State).masked.contains (10 : Core).val = false) ∧
    (({ rig with masked := [] } : State).bit R.MGT_MODE_MODE = false) := by decide +kernel

theorem witness_coresRestartAndHalt_coreRestart_effect :
    ((10 : Nat) < 11) ∧
    ((5 : Nat) < 8) ∧
    ((1 : Nat) < 2) := by decide +kernel

theorem witness_coresRestartAndHalt_coreRelease :
    (({ rig with masked := [10], mgt := { rig.mgt with restarts := [{ core := 10, cause := 4, slot := 0, at' := 0, live := false, retried := false }], slots := [(6, { version := 1, len := 0, digest := sha [] })] }, time := { rig.time with real := us 3 } } : State).mgt.restarts.find? (fun y => decide (y.core = (10 : Core).val)) = some ({ core := 10, cause := 4, slot := 0, at' := 0, live := false, retried := false } : Restart)) ∧
    (({ core := 10, cause := 4, slot := 0, at' := 0, live := false, retried := false } : Restart).live = false) ∧
    (({ core := 10, cause := 4, slot := 0, at' := 0, live := false, retried := false } : Restart).at' + ns (max 1000 (({ rig with masked := [10], mgt := { rig.mgt with restarts := [{ core := 10, cause := 4, slot := 0, at' := 0, live := false, retried := false }], slots := [(6, { version := 1, len := 0, digest := sha [] })] }, time := { rig.time with real := us 3 } } : State).slotRec (roleOf (10 : Core)) ({ core := 10, cause := 4, slot := 0, at' := 0, live := false, retried := false } : Restart).slot).len) ≤ ({ rig with masked := [10], mgt := { rig.mgt with restarts := [{ core := 10, cause := 4, slot := 0, at' := 0, live := false, retried := false }], slots := [(6, { version := 1, len := 0, digest := sha [] })] }, time := { rig.time with real := us 3 } } : State).time.real) ∧
    (({ rig with masked := [10], mgt := { rig.mgt with restarts := [{ core := 10, cause := 4, slot := 0, at' := 0, live := false, retried := false }], slots := [(6, { version := 1, len := 0, digest := sha [] })] }, time := { rig.time with real := us 3 } } : State).slotHash (roleOf (10 : Core)) ({ core := 10, cause := 4, slot := 0, at' := 0, live := false, retried := false } : Restart).slot (({ rig with masked := [10], mgt := { rig.mgt with restarts := [{ core := 10, cause := 4, slot := 0, at' := 0, live := false, retried := false }], slots := [(6, { version := 1, len := 0, digest := sha [] })] }, time := { rig.time with real := us 3 } } : State).slotRec (roleOf (10 : Core)) ({ core := 10, cause := 4, slot := 0, at' := 0, live := false, retried := false } : Restart).slot).len = (({ rig with masked := [10], mgt := { rig.mgt with restarts := [{ core := 10, cause := 4, slot := 0, at' := 0, live := false, retried := false }], slots := [(6, { version := 1, len := 0, digest := sha [] })] }, time := { rig.time with real := us 3 } } : State).slotRec (roleOf (10 : Core)) ({ core := 10, cause := 4, slot := 0, at' := 0, live := false, retried := false } : Restart).slot).digest) ∧
    (({ ({ rig with masked := [10], mgt := { rig.mgt with restarts := [{ core := 10, cause := 4, slot := 0, at' := 0, live := false, retried := false }], slots := [(6, { version := 1, len := 0, digest := sha [] })] }, time := { rig.time with real := us 3 } } : State) with mgt := { ({ rig with masked := [10], mgt := { rig.mgt with restarts := [{ core := 10, cause := 4, slot := 0, at' := 0, live := false, retried := false }], slots := [(6, { version := 1, len := 0, digest := sha [] })] }, time := { rig.time with real := us 3 } } : State).mgt with restarts := ({ rig with masked := [10], mgt := { rig.mgt with restarts := [{ core := 10, cause := 4, slot := 0, at' := 0, live := false, retried := false }], slots := [(6, { version := 1, len := 0, digest := sha [] })] }, time := { rig.time with real := us 3 } } : State).mgt.restarts.map (fun y => if y.core = (10 : Core).val then { y with live := true } else y) } } : State) = { ({ rig with masked := [10], mgt := { rig.mgt with restarts := [{ core := 10, cause := 4, slot := 0, at' := 0, live := false, retried := false }], slots := [(6, { version := 1, len := 0, digest := sha [] })] }, time := { rig.time with real := us 3 } } : State) with mgt := { ({ rig with masked := [10], mgt := { rig.mgt with restarts := [{ core := 10, cause := 4, slot := 0, at' := 0, live := false, retried := false }], slots := [(6, { version := 1, len := 0, digest := sha [] })] }, time := { rig.time with real := us 3 } } : State).mgt with restarts := ({ rig with masked := [10], mgt := { rig.mgt with restarts := [{ core := 10, cause := 4, slot := 0, at' := 0, live := false, retried := false }], slots := [(6, { version := 1, len := 0, digest := sha [] })] }, time := { rig.time with real := us 3 } } : State).mgt.restarts.map (fun y => if y.core = (10 : Core).val then { y with live := true } else y) } }) := ⟨rfl, by decide +kernel, by decide +kernel, rfl, rfl⟩

theorem witness_coresRestartAndHalt_restartKickTimeout :
    (({ (rig.puts ([(R.MGT_MODE_MODE, 1), (R.HLM_BOOT_STAT_STEP, 13)] ++ (List.range 11).map (fun n => (inService n, 1)))) with masked := [], mgt := { rig.mgt with restarts := [{ core := 10, cause := 4, slot := 0, at' := 0, live := true, retried := false }] }, time := { rig.time with real := us 2000 } } : State).mgt.restarts.find? (fun y => decide (y.core = (10 : Core).val)) = some ({ core := 10, cause := 4, slot := 0, at' := 0, live := true, retried := false } : Restart)) ∧
    (({ core := 10, cause := 4, slot := 0, at' := 0, live := true, retried := false } : Restart).at' + us 2000 ≤ ({ (rig.puts ([(R.MGT_MODE_MODE, 1), (R.HLM_BOOT_STAT_STEP, 13)] ++ (List.range 11).map (fun n => (inService n, 1)))) with masked := [], mgt := { rig.mgt with restarts := [{ core := 10, cause := 4, slot := 0, at' := 0, live := true, retried := false }] }, time := { rig.time with real := us 2000 } } : State).time.real) := by decide +kernel

theorem witness_coresRestartAndHalt_mgtRestartWrite :
    (((Master.sec : Master) == .sec || (Master.sec : Master) == .dbg) = true) ∧
    (({ (rig.puts ([(R.MGT_MODE_MODE, 1), (R.HLM_BOOT_STAT_STEP, 13)] ++ (List.range 11).map (fun n => (inService n, 1)))) with masked := [] } : State).rgsShut (masterIdx (Master.sec : Master)) = false) := by decide +kernel

theorem witness_coresRestartAndHalt_mgtRemapWrite :
    (((Master.sec : Master) == .sec || (Master.sec : Master) == .dbg) = true) ∧
    ((State.reset : State).masked.contains (10 : Core).val = true) ∧
    ((State.reset : State).rgsShut (masterIdx (Master.sec : Master)) = false) := by decide +kernel

theorem witness_coresRestartAndHalt_selfHalt :
    ((Master.cc 7 : Master) ≠ .pwc) ∧
    ((Master.cc 7 : Master) ≠ .dbg) ∧
    ((Master.cc 7 : Master) ≠ .hrp) ∧
    ((0x4A17 : W32).toNat % 65536 = 0x4A17) ∧
    (({ (rig.puts ([(R.MGT_MODE_MODE, 1), (R.HLM_BOOT_STAT_STEP, 13)] ++ (List.range 11).map (fun n => (inService n, 1)))) with masked := [] } : State).masked.contains (masterIdx (Master.cc 7 : Master)) = false) ∧
    (({ (rig.puts ([(R.MGT_MODE_MODE, 1), (R.HLM_BOOT_STAT_STEP, 13)] ++ (List.range 11).map (fun n => (inService n, 1)))) with masked := [] } : State).cmx.out.any (fun y => decide (y.req.m = masterIdx (Master.cc 7 : Master))) = false) ∧
    (({ (rig.puts ([(R.MGT_MODE_MODE, 1), (R.HLM_BOOT_STAT_STEP, 13)] ++ (List.range 11).map (fun n => (inService n, 1)))) with masked := [] } : State).rgsShut (masterIdx (Master.cc 7 : Master)) = false) := by decide +kernel

theorem witness_coresRestartAndHalt_resume :
    (pwrMaster (Master.pwc : Master) = true) ∧
    ((rig.put (bitFld R.MGT_HALT_STAT 10) 1 : State).rgsShut (masterIdx (Master.pwc : Master)) = false) := by decide +kernel


theorem witness_rolesAreActivated_mgtActWrite :
    (((Master.sec : Master) == .sec || (Master.sec : Master) == .dbg) = true) ∧
    (vbit (0x80000001 : W32) 31 = true) ∧
    (({ (rig.puts ([(R.MGT_MODE_MODE, 1), (R.HLM_BOOT_STAT_STEP, 13)] ++ (List.range 11).map (fun n => (inService n, 1)) ++ [(R.MGT_IMG_STAT_STATE 1, 2)])) with masked := [] } : State).roleState ((0x80000001 : W32).toNat % 4) = 2) ∧
    (({ (rig.puts ([(R.MGT_MODE_MODE, 1), (R.HLM_BOOT_STAT_STEP, 13)] ++ (List.range 11).map (fun n => (inService n, 1)) ++ [(R.MGT_IMG_STAT_STATE 1, 2)])) with masked := [] } : State).emergAny = false) ∧
    (({ (rig.puts ([(R.MGT_MODE_MODE, 1), (R.HLM_BOOT_STAT_STEP, 13)] ++ (List.range 11).map (fun n => (inService n, 1)) ++ [(R.MGT_IMG_STAT_STATE 1, 2)])) with masked := [] } : State).rgsShut (masterIdx (Master.sec : Master)) = false) := by decide +kernel

theorem witness_rolesAreActivated_mgtActWrite_deferred :
    (((Master.sec : Master) == .sec || (Master.sec : Master) == .dbg) = true) ∧
    (vbit (0x80000001 : W32) 31 = true) ∧
    (({ (rig.puts ([(R.MGT_MODE_MODE, 1), (R.HLM_BOOT_STAT_STEP, 13)] ++ (List.range 11).map (fun n => (inService n, 1)) ++ [(R.MGT_IMG_STAT_STATE 1, 2), (R.PWR_EMERG_STAT_SW, 1)])) with masked := [] } : State).roleState ((0x80000001 : W32).toNat % 4) = 2) ∧
    (({ (rig.puts ([(R.MGT_MODE_MODE, 1), (R.HLM_BOOT_STAT_STEP, 13)] ++ (List.range 11).map (fun n => (inService n, 1)) ++ [(R.MGT_IMG_STAT_STATE 1, 2), (R.PWR_EMERG_STAT_SW, 1)])) with masked := [] } : State).emergAny = true) ∧
    (({ (rig.puts ([(R.MGT_MODE_MODE, 1), (R.HLM_BOOT_STAT_STEP, 13)] ++ (List.range 11).map (fun n => (inService n, 1)) ++ [(R.MGT_IMG_STAT_STATE 1, 2), (R.PWR_EMERG_STAT_SW, 1)])) with masked := [] } : State).rgsShut (masterIdx (Master.sec : Master)) = false) := by decide +kernel

theorem witness_rolesAreActivated_mgtActWrite_refused :
    (((Master.dbg : Master) == .sec || (Master.dbg : Master) == .dbg) = true) ∧
    (vbit (0x80000003 : W32) 31 = true) ∧
    (({ (rig.puts ([(R.MGT_MODE_MODE, 1), (R.HLM_BOOT_STAT_STEP, 13)] ++ (List.range 11).map (fun n => (inService n, 1)))) with masked := [] } : State).roleState ((0x80000003 : W32).toNat % 4) ≠ 2) ∧
    (({ (rig.puts ([(R.MGT_MODE_MODE, 1), (R.HLM_BOOT_STAT_STEP, 13)] ++ (List.range 11).map (fun n => (inService n, 1)))) with masked := [] } : State).rgsShut (masterIdx (Master.dbg : Master)) = false) := by decide +kernel

theorem witness_rolesAreActivated_activationStart :
    ({ (rig.puts ([(R.MGT_MODE_MODE, 1), (R.HLM_BOOT_STAT_STEP, 13)] ++ (List.range 11).map (fun n => (inService n, 1)) ++ [(R.MGT_IMG_STAT_STATE 3, 3)])) with masked := [] } : State).calm = true := by decide +kernel

theorem witness_rolesAreActivated_probationEnd :
    (({ (rig.puts ([(R.MGT_MODE_MODE, 1), (R.HLM_BOOT_STAT_STEP, 13)] ++ (List.range 11).map (fun n => (inService n, 1)) ++ [(R.MGT_IMG_STAT_STATE 3, 5)])) with masked := [] } : State).roleState (3 : Fin 4) = 5) ∧
    (SMap.get 0 ({ (rig.puts ([(R.MGT_MODE_MODE, 1), (R.HLM_BOOT_STAT_STEP, 13)] ++ (List.range 11).map (fun n => (inService n, 1)) ++ [(R.MGT_IMG_STAT_STATE 3, 5)])) with masked := [] } : State).mgt.prob (3 : Fin 4) ≤ ({ (rig.puts ([(R.MGT_MODE_MODE, 1), (R.HLM_BOOT_STAT_STEP, 13)] ++ (List.range 11).map (fun n => (inService n, 1)) ++ [(R.MGT_IMG_STAT_STATE 3, 5)])) with masked := [] } : State).time.now) := by decide +kernel

theorem witness_rolesAreActivated_recovery :
    (((Master.hrp : Master) == .hrp || (Master.hrp : Master) == .dbg) = true) ∧
    ((0x52EC : W32).toNat % 65536 = 0x52EC) ∧
    (({ (rig.puts ([(R.MGT_MODE_MODE, 1), (R.HLM_BOOT_STAT_STEP, 13)] ++ (List.range 11).map (fun n => (inService n, 1)))) with masked := [] } : State).mgt.recover = 0) ∧
    (({ (rig.puts ([(R.MGT_MODE_MODE, 1), (R.HLM_BOOT_STAT_STEP, 13)] ++ (List.range 11).map (fun n => (inService n, 1)))) with masked := [] } : State).rgsShut (masterIdx (Master.hrp : Master)) = false) := by decide +kernel


theorem witness_contextSubmissionsComplete_sqNop :
    (({ (rig.puts ([(R.MGT_MODE_MODE, 1), (R.HLM_BOOT_STAT_STEP, 13)] ++ (List.range 11).map (fun n => (inService n, 1)))) with masked := [], mgt := { rig.mgt with jobs := [{ idx := 0, op := 1, tag := 5, ctx := 0, after := false, core := 2, ent := ([1, 0, 0, 0, 0] ++ List.replicate 59 0), stage := 0, todo := [], acc := 0, t0 := 0 }] } } : State).mgt.jobs.find? (fun z => decide (z.idx = (0 : W32).toNat) && decide (z.op = 0x01)) = some ({ idx := 0, op := 1, tag := 5, ctx := 0, after := false, core := 2, ent := ([1, 0, 0, 0, 0] ++ List.replicate 59 0), stage := 0, todo := [], acc := 0, t0 := 0 } : Job)) ∧
    (({ (rig.puts ([(R.MGT_MODE_MODE, 1), (R.HLM_BOOT_STAT_STEP, 13)] ++ (List.range 11).map (fun n => (inService n, 1)))) with masked := [], mgt := { rig.mgt with jobs := [{ idx := 0, op := 1, tag := 5, ctx := 0, after := false, core := 2, ent := ([1, 0, 0, 0, 0] ++ List.replicate 59 0), stage := 0, todo := [], acc := 0, t0 := 0 }] } } : State).coreDown ({ idx := 0, op := 1, tag := 5, ctx := 0, after := false, core := 2, ent := ([1, 0, 0, 0, 0] ++ List.replicate 59 0), stage := 0, todo := [], acc := 0, t0 := 0 } : Job).core = false) ∧
    (({ (rig.puts ([(R.MGT_MODE_MODE, 1), (R.HLM_BOOT_STAT_STEP, 13)] ++ (List.range 11).map (fun n => (inService n, 1)))) with masked := [], mgt := { rig.mgt with jobs := [{ idx := 0, op := 1, tag := 5, ctx := 0, after := false, core := 2, ent := ([1, 0, 0, 0, 0] ++ List.replicate 59 0), stage := 0, todo := [], acc := 0, t0 := 0 }] } } : State).coreLive ({ idx := 0, op := 1, tag := 5, ctx := 0, after := false, core := 2, ent := ([1, 0, 0, 0, 0] ++ List.replicate 59 0), stage := 0, todo := [], acc := 0, t0 := 0 } : Job).core = true) ∧
    (({ (rig.puts ([(R.MGT_MODE_MODE, 1), (R.HLM_BOOT_STAT_STEP, 13)] ++ (List.range 11).map (fun n => (inService n, 1)))) with masked := [], mgt := { rig.mgt with jobs := [{ idx := 0, op := 1, tag := 5, ctx := 0, after := false, core := 2, ent := ([1, 0, 0, 0, 0] ++ List.replicate 59 0), stage := 0, todo := [], acc := 0, t0 := 0 }] } } : State).rgsShut ({ idx := 0, op := 1, tag := 5, ctx := 0, after := false, core := 2, ent := ([1, 0, 0, 0, 0] ++ List.replicate 59 0), stage := 0, todo := [], acc := 0, t0 := 0 } : Job).core = false) ∧
    (({ idx := 0, op := 1, tag := 5, ctx := 0, after := false, core := 2, ent := ([1, 0, 0, 0, 0] ++ List.replicate 59 0), stage := 0, todo := [], acc := 0, t0 := 0 } : Job).stage = 0) ∧
    (({ (rig.puts ([(R.MGT_MODE_MODE, 1), (R.HLM_BOOT_STAT_STEP, 13)] ++ (List.range 11).map (fun n => (inService n, 1)))) with masked := [], mgt := { rig.mgt with jobs := [{ idx := 0, op := 1, tag := 5, ctx := 0, after := false, core := 2, ent := ([1, 0, 0, 0, 0] ++ List.replicate 59 0), stage := 0, todo := [], acc := 0, t0 := 0 }] } } : State).jobTurn ({ idx := 0, op := 1, tag := 5, ctx := 0, after := false, core := 2, ent := ([1, 0, 0, 0, 0] ++ List.replicate 59 0), stage := 0, todo := [], acc := 0, t0 := 0 } : Job) = true) ∧
    (({ idx := 0, op := 1, tag := 5, ctx := 0, after := false, core := 2, ent := ([1, 0, 0, 0, 0] ++ List.replicate 59 0), stage := 0, todo := [], acc := 0, t0 := 0 } : Job).malformed = false) ∧
    (({ (rig.puts ([(R.MGT_MODE_MODE, 1), (R.HLM_BOOT_STAT_STEP, 13)] ++ (List.range 11).map (fun n => (inService n, 1)))) with masked := [], mgt := { rig.mgt with jobs := [{ idx := 0, op := 1, tag := 5, ctx := 0, after := false, core := 2, ent := ([1, 0, 0, 0, 0] ++ List.replicate 59 0), stage := 0, todo := [], acc := 0, t0 := 0 }] } } : State).outOfRange ({ idx := 0, op := 1, tag := 5, ctx := 0, after := false, core := 2, ent := ([1, 0, 0, 0, 0] ++ List.replicate 59 0), stage := 0, todo := [], acc := 0, t0 := 0 } : Job) = false) := by decide +kernel

theorem witness_contextSubmissionsComplete_sqNop_completion :
    ({ (rig.puts ([(R.MGT_MODE_MODE, 1), (R.HLM_BOOT_STAT_STEP, 13)] ++ (List.range 11).map (fun n => (inService n, 1)))) with masked := [], mgt := { rig.mgt with jobs := [{ idx := 0, op := 1, tag := 5, ctx := 0, after := false, core := 2, ent := ([1, 0, 0, 0, 0] ++ List.replicate 59 0), stage := 0, todo := [], acc := 0, t0 := 0 }] } } : State).coreDown ({ idx := 0, op := 1, tag := 5, ctx := 0, after := false, core := 2, ent := ([1, 0, 0, 0, 0] ++ List.replicate 59 0), stage := 0, todo := [], acc := 0, t0 := 0 } : Job).core = false := by decide +kernel

theorem witness_contextSubmissionsComplete_sqNop_malformed :
    (({ (rig.puts ([(R.MGT_MODE_MODE, 1), (R.HLM_BOOT_STAT_STEP, 13)] ++ (List.range 11).map (fun n => (inService n, 1)))) with masked := [], mgt := { rig.mgt with jobs := [{ idx := 0, op := 1, tag := 5, ctx := 0, after := false, core := 2, ent := ([1, 2, 0, 0, 0] ++ List.replicate 59 0), stage := 0, todo := [], acc := 0, t0 := 0 }] } } : State).mgt.jobs.find? (fun z => decide (z.idx = (0 : W32).toNat) && decide (z.op = 0x01)) = some ({ idx := 0, op := 1, tag := 5, ctx := 0, after := false, core := 2, ent := ([1, 2, 0, 0, 0] ++ List.replicate 59 0), stage := 0, todo := [], acc := 0, t0 := 0 } : Job)) ∧
    (({ (rig.puts ([(R.MGT_MODE_MODE, 1), (R.HLM_BOOT_STAT_STEP, 13)] ++ (List.range 11).map (fun n => (inService n, 1)))) with masked := [], mgt := { rig.mgt with jobs := [{ idx := 0, op := 1, tag := 5, ctx := 0, after := false, core := 2, ent := ([1, 2, 0, 0, 0] ++ List.replicate 59 0), stage := 0, todo := [], acc := 0, t0 := 0 }] } } : State).coreDown ({ idx := 0, op := 1, tag := 5, ctx := 0, after := false, core := 2, ent := ([1, 2, 0, 0, 0] ++ List.replicate 59 0), stage := 0, todo := [], acc := 0, t0 := 0 } : Job).core = false) ∧
    (({ (rig.puts ([(R.MGT_MODE_MODE, 1), (R.HLM_BOOT_STAT_STEP, 13)] ++ (List.range 11).map (fun n => (inService n, 1)))) with masked := [], mgt := { rig.mgt with jobs := [{ idx := 0, op := 1, tag := 5, ctx := 0, after := false, core := 2, ent := ([1, 2, 0, 0, 0] ++ List.replicate 59 0), stage := 0, todo := [], acc := 0, t0 := 0 }] } } : State).coreLive ({ idx := 0, op := 1, tag := 5, ctx := 0, after := false, core := 2, ent := ([1, 2, 0, 0, 0] ++ List.replicate 59 0), stage := 0, todo := [], acc := 0, t0 := 0 } : Job).core = true) ∧
    (({ (rig.puts ([(R.MGT_MODE_MODE, 1), (R.HLM_BOOT_STAT_STEP, 13)] ++ (List.range 11).map (fun n => (inService n, 1)))) with masked := [], mgt := { rig.mgt with jobs := [{ idx := 0, op := 1, tag := 5, ctx := 0, after := false, core := 2, ent := ([1, 2, 0, 0, 0] ++ List.replicate 59 0), stage := 0, todo := [], acc := 0, t0 := 0 }] } } : State).rgsShut ({ idx := 0, op := 1, tag := 5, ctx := 0, after := false, core := 2, ent := ([1, 2, 0, 0, 0] ++ List.replicate 59 0), stage := 0, todo := [], acc := 0, t0 := 0 } : Job).core = false) ∧
    (({ idx := 0, op := 1, tag := 5, ctx := 0, after := false, core := 2, ent := ([1, 2, 0, 0, 0] ++ List.replicate 59 0), stage := 0, todo := [], acc := 0, t0 := 0 } : Job).stage = 0) ∧
    (({ (rig.puts ([(R.MGT_MODE_MODE, 1), (R.HLM_BOOT_STAT_STEP, 13)] ++ (List.range 11).map (fun n => (inService n, 1)))) with masked := [], mgt := { rig.mgt with jobs := [{ idx := 0, op := 1, tag := 5, ctx := 0, after := false, core := 2, ent := ([1, 2, 0, 0, 0] ++ List.replicate 59 0), stage := 0, todo := [], acc := 0, t0 := 0 }] } } : State).jobTurn ({ idx := 0, op := 1, tag := 5, ctx := 0, after := false, core := 2, ent := ([1, 2, 0, 0, 0] ++ List.replicate 59 0), stage := 0, todo := [], acc := 0, t0 := 0 } : Job) = true) ∧
    (({ idx := 0, op := 1, tag := 5, ctx := 0, after := false, core := 2, ent := ([1, 2, 0, 0, 0] ++ List.replicate 59 0), stage := 0, todo := [], acc := 0, t0 := 0 } : Job).malformed = true) := by decide +kernel

theorem witness_contextSubmissionsComplete_sqActivate :
    (({ (rig.puts ([(R.MGT_MODE_MODE, 1), (R.HLM_BOOT_STAT_STEP, 13)] ++ (List.range 11).map (fun n => (inService n, 1)))) with masked := [], mgt := { rig.mgt with jobs := [{ idx := 0, op := 2, tag := 5, ctx := 3, after := false, core := 0, ent := ([2, 0, 0, 0, 3, 0, 0, 0, 7, 1] ++ List.replicate 54 0), stage := 0, todo := [], acc := 0, t0 := 0 }] } } : State).mgt.jobs.find? (fun z => decide (z.idx = (0 : W32).toNat) && decide (z.op = 0x02)) = some ({ idx := 0, op := 2, tag := 5, ctx := 3, after := false, core := 0, ent := ([2, 0, 0, 0, 3, 0, 0, 0, 7, 1] ++ List.replicate 54 0), stage := 0, todo := [], acc := 0, t0 := 0 } : Job)) ∧
    (({ (rig.puts ([(R.MGT_MODE_MODE, 1), (R.HLM_BOOT_STAT_STEP, 13)] ++ (List.range 11).map (fun n => (inService n, 1)))) with masked := [], mgt := { rig.mgt with jobs := [{ idx := 0, op := 2, tag := 5, ctx := 3, after := false, core := 0, ent := ([2, 0, 0, 0, 3, 0, 0, 0, 7, 1] ++ List.replicate 54 0), stage := 0, todo := [], acc := 0, t0 := 0 }] } } : State).coreDown ({ idx := 0, op := 2, tag := 5, ctx := 3, after := false, core := 0, ent := ([2, 0, 0, 0, 3, 0, 0, 0, 7, 1] ++ List.replicate 54 0), stage := 0, todo := [], acc := 0, t0 := 0 } : Job).core = false) ∧
    (({ (rig.puts ([(R.MGT_MODE_MODE, 1), (R.HLM_BOOT_STAT_STEP, 13)] ++ (List.range 11).map (fun n => (inService n, 1)))) with masked := [], mgt := { rig.mgt with jobs := [{ idx := 0, op := 2, tag := 5, ctx := 3, after := false, core := 0, ent := ([2, 0, 0, 0, 3, 0, 0, 0, 7, 1] ++ List.replicate 54 0), stage := 0, todo := [], acc := 0, t0 := 0 }] } } : State).coreLive ({ idx := 0, op := 2, tag := 5, ctx := 3, after := false, core := 0, ent := ([2, 0, 0, 0, 3, 0, 0, 0, 7, 1] ++ List.replicate 54 0), stage := 0, todo := [], acc := 0, t0 := 0 } : Job).core = true) ∧
    (({ (rig.puts ([(R.MGT_MODE_MODE, 1), (R.HLM_BOOT_STAT_STEP, 13)] ++ (List.range 11).map (fun n => (inService n, 1)))) with masked := [], mgt := { rig.mgt with jobs := [{ idx := 0, op := 2, tag := 5, ctx := 3, after := false, core := 0, ent := ([2, 0, 0, 0, 3, 0, 0, 0, 7, 1] ++ List.replicate 54 0), stage := 0, todo := [], acc := 0, t0 := 0 }] } } : State).rgsShut ({ idx := 0, op := 2, tag := 5, ctx := 3, after := false, core := 0, ent := ([2, 0, 0, 0, 3, 0, 0, 0, 7, 1] ++ List.replicate 54 0), stage := 0, todo := [], acc := 0, t0 := 0 } : Job).core = false) ∧
    (({ idx := 0, op := 2, tag := 5, ctx := 3, after := false, core := 0, ent := ([2, 0, 0, 0, 3, 0, 0, 0, 7, 1] ++ List.replicate 54 0), stage := 0, todo := [], acc := 0, t0 := 0 } : Job).stage = 0) ∧
    (({ (rig.puts ([(R.MGT_MODE_MODE, 1), (R.HLM_BOOT_STAT_STEP, 13)] ++ (List.range 11).map (fun n => (inService n, 1)))) with masked := [], mgt := { rig.mgt with jobs := [{ idx := 0, op := 2, tag := 5, ctx := 3, after := false, core := 0, ent := ([2, 0, 0, 0, 3, 0, 0, 0, 7, 1] ++ List.replicate 54 0), stage := 0, todo := [], acc := 0, t0 := 0 }] } } : State).jobTurn ({ idx := 0, op := 2, tag := 5, ctx := 3, after := false, core := 0, ent := ([2, 0, 0, 0, 3, 0, 0, 0, 7, 1] ++ List.replicate 54 0), stage := 0, todo := [], acc := 0, t0 := 0 } : Job) = true) ∧
    (({ idx := 0, op := 2, tag := 5, ctx := 3, after := false, core := 0, ent := ([2, 0, 0, 0, 3, 0, 0, 0, 7, 1] ++ List.replicate 54 0), stage := 0, todo := [], acc := 0, t0 := 0 } : Job).malformed = false) ∧
    (({ (rig.puts ([(R.MGT_MODE_MODE, 1), (R.HLM_BOOT_STAT_STEP, 13)] ++ (List.range 11).map (fun n => (inService n, 1)))) with masked := [], mgt := { rig.mgt with jobs := [{ idx := 0, op := 2, tag := 5, ctx := 3, after := false, core := 0, ent := ([2, 0, 0, 0, 3, 0, 0, 0, 7, 1] ++ List.replicate 54 0), stage := 0, todo := [], acc := 0, t0 := 0 }] } } : State).outOfRange ({ idx := 0, op := 2, tag := 5, ctx := 3, after := false, core := 0, ent := ([2, 0, 0, 0, 3, 0, 0, 0, 7, 1] ++ List.replicate 54 0), stage := 0, todo := [], acc := 0, t0 := 0 } : Job) = false) ∧
    (({ idx := 0, op := 2, tag := 5, ctx := 3, after := false, core := 0, ent := ([2, 0, 0, 0, 3, 0, 0, 0, 7, 1] ++ List.replicate 54 0), stage := 0, todo := [], acc := 0, t0 := 0 } : Job).ctx < 16) ∧
    (({ (rig.puts ([(R.MGT_MODE_MODE, 1), (R.HLM_BOOT_STAT_STEP, 13)] ++ (List.range 11).map (fun n => (inService n, 1)))) with masked := [], mgt := { rig.mgt with jobs := [{ idx := 0, op := 2, tag := 5, ctx := 3, after := false, core := 0, ent := ([2, 0, 0, 0, 3, 0, 0, 0, 7, 1] ++ List.replicate 54 0), stage := 0, todo := [], acc := 0, t0 := 0 }] } } : State).ctxState ({ idx := 0, op := 2, tag := 5, ctx := 3, after := false, core := 0, ent := ([2, 0, 0, 0, 3, 0, 0, 0, 7, 1] ++ List.replicate 54 0), stage := 0, todo := [], acc := 0, t0 := 0 } : Job).ctx = 0) := by decide +kernel

theorem witness_contextSubmissionsComplete_sqDeactivate :
    (({ (rig.puts ([(R.MGT_MODE_MODE, 1), (R.HLM_BOOT_STAT_STEP, 13)] ++ (List.range 11).map (fun n => (inService n, 1)) ++ [(R.CTX_STAT_STATE 3, 1)])) with masked := [], mgt := { rig.mgt with jobs := [{ idx := 0, op := 3, tag := 5, ctx := 3, after := false, core := 0, ent := ([3, 0, 0, 0, 3] ++ List.replicate 59 0), stage := 0, todo := [], acc := 0, t0 := 0 }] } } : State).mgt.jobs.find? (fun z => decide (z.idx = (0 : W32).toNat) && decide (z.op = 0x03)) = some ({ idx := 0, op := 3, tag := 5, ctx := 3, after := false, core := 0, ent := ([3, 0, 0, 0, 3] ++ List.replicate 59 0), stage := 0, todo := [], acc := 0, t0 := 0 } : Job)) ∧
    (({ (rig.puts ([(R.MGT_MODE_MODE, 1), (R.HLM_BOOT_STAT_STEP, 13)] ++ (List.range 11).map (fun n => (inService n, 1)) ++ [(R.CTX_STAT_STATE 3, 1)])) with masked := [], mgt := { rig.mgt with jobs := [{ idx := 0, op := 3, tag := 5, ctx := 3, after := false, core := 0, ent := ([3, 0, 0, 0, 3] ++ List.replicate 59 0), stage := 0, todo := [], acc := 0, t0 := 0 }] } } : State).coreDown ({ idx := 0, op := 3, tag := 5, ctx := 3, after := false, core := 0, ent := ([3, 0, 0, 0, 3] ++ List.replicate 59 0), stage := 0, todo := [], acc := 0, t0 := 0 } : Job).core = false) ∧
    (({ (rig.puts ([(R.MGT_MODE_MODE, 1), (R.HLM_BOOT_STAT_STEP, 13)] ++ (List.range 11).map (fun n => (inService n, 1)) ++ [(R.CTX_STAT_STATE 3, 1)])) with masked := [], mgt := { rig.mgt with jobs := [{ idx := 0, op := 3, tag := 5, ctx := 3, after := false, core := 0, ent := ([3, 0, 0, 0, 3] ++ List.replicate 59 0), stage := 0, todo := [], acc := 0, t0 := 0 }] } } : State).coreLive ({ idx := 0, op := 3, tag := 5, ctx := 3, after := false, core := 0, ent := ([3, 0, 0, 0, 3] ++ List.replicate 59 0), stage := 0, todo := [], acc := 0, t0 := 0 } : Job).core = true) ∧
    (({ (rig.puts ([(R.MGT_MODE_MODE, 1), (R.HLM_BOOT_STAT_STEP, 13)] ++ (List.range 11).map (fun n => (inService n, 1)) ++ [(R.CTX_STAT_STATE 3, 1)])) with masked := [], mgt := { rig.mgt with jobs := [{ idx := 0, op := 3, tag := 5, ctx := 3, after := false, core := 0, ent := ([3, 0, 0, 0, 3] ++ List.replicate 59 0), stage := 0, todo := [], acc := 0, t0 := 0 }] } } : State).rgsShut ({ idx := 0, op := 3, tag := 5, ctx := 3, after := false, core := 0, ent := ([3, 0, 0, 0, 3] ++ List.replicate 59 0), stage := 0, todo := [], acc := 0, t0 := 0 } : Job).core = false) ∧
    (({ idx := 0, op := 3, tag := 5, ctx := 3, after := false, core := 0, ent := ([3, 0, 0, 0, 3] ++ List.replicate 59 0), stage := 0, todo := [], acc := 0, t0 := 0 } : Job).stage = 0) ∧
    (({ (rig.puts ([(R.MGT_MODE_MODE, 1), (R.HLM_BOOT_STAT_STEP, 13)] ++ (List.range 11).map (fun n => (inService n, 1)) ++ [(R.CTX_STAT_STATE 3, 1)])) with masked := [], mgt := { rig.mgt with jobs := [{ idx := 0, op := 3, tag := 5, ctx := 3, after := false, core := 0, ent := ([3, 0, 0, 0, 3] ++ List.replicate 59 0), stage := 0, todo := [], acc := 0, t0 := 0 }] } } : State).jobTurn ({ idx := 0, op := 3, tag := 5, ctx := 3, after := false, core := 0, ent := ([3, 0, 0, 0, 3] ++ List.replicate 59 0), stage := 0, todo := [], acc := 0, t0 := 0 } : Job) = true) ∧
    (({ idx := 0, op := 3, tag := 5, ctx := 3, after := false, core := 0, ent := ([3, 0, 0, 0, 3] ++ List.replicate 59 0), stage := 0, todo := [], acc := 0, t0 := 0 } : Job).malformed = false) ∧
    (({ (rig.puts ([(R.MGT_MODE_MODE, 1), (R.HLM_BOOT_STAT_STEP, 13)] ++ (List.range 11).map (fun n => (inService n, 1)) ++ [(R.CTX_STAT_STATE 3, 1)])) with masked := [], mgt := { rig.mgt with jobs := [{ idx := 0, op := 3, tag := 5, ctx := 3, after := false, core := 0, ent := ([3, 0, 0, 0, 3] ++ List.replicate 59 0), stage := 0, todo := [], acc := 0, t0 := 0 }] } } : State).outOfRange ({ idx := 0, op := 3, tag := 5, ctx := 3, after := false, core := 0, ent := ([3, 0, 0, 0, 3] ++ List.replicate 59 0), stage := 0, todo := [], acc := 0, t0 := 0 } : Job) = false) ∧
    (({ idx := 0, op := 3, tag := 5, ctx := 3, after := false, core := 0, ent := ([3, 0, 0, 0, 3] ++ List.replicate 59 0), stage := 0, todo := [], acc := 0, t0 := 0 } : Job).ctx < 16) ∧
    (({ (rig.puts ([(R.MGT_MODE_MODE, 1), (R.HLM_BOOT_STAT_STEP, 13)] ++ (List.range 11).map (fun n => (inService n, 1)) ++ [(R.CTX_STAT_STATE 3, 1)])) with masked := [], mgt := { rig.mgt with jobs := [{ idx := 0, op := 3, tag := 5, ctx := 3, after := false, core := 0, ent := ([3, 0, 0, 0, 3] ++ List.replicate 59 0), stage := 0, todo := [], acc := 0, t0 := 0 }] } } : State).ctxState ({ idx := 0, op := 3, tag := 5, ctx := 3, after := false, core := 0, ent := ([3, 0, 0, 0, 3] ++ List.replicate 59 0), stage := 0, todo := [], acc := 0, t0 := 0 } : Job).ctx = 1) := by decide +kernel

theorem witness_contextSubmissionsComplete_sqBind :
    (({ (rig.puts ([(R.MGT_MODE_MODE, 1), (R.HLM_BOOT_STAT_STEP, 13)] ++ (List.range 11).map (fun n => (inService n, 1)) ++ [(R.CTX_STAT_STATE 3, 1)])) with masked := [], mgt := { rig.mgt with jobs := [{ idx := 0, op := 4, tag := 5, ctx := 3, after := false, core := 2, ent := ([4, 0, 0, 0, 3, 0, 0, 0, 0, 0, 0, 0, 0, 0, 0, 0, 0, 0, 0, 0, 0, 0, 0, 0, 0, 0, 0, 0, 0, 0, 0, 0, 1] ++ List.replicate 31 0), stage := 0, todo := [], acc := 0, t0 := 0 }] } } : State).mgt.jobs.find? (fun z => decide (z.idx = (0 : W32).toNat) && decide (z.op = 0x04)) = some ({ idx := 0, op := 4, tag := 5, ctx := 3, after := false, core := 2, ent := ([4, 0, 0, 0, 3, 0, 0, 0, 0, 0, 0, 0, 0, 0, 0, 0, 0, 0, 0, 0, 0, 0, 0, 0, 0, 0, 0, 0, 0, 0, 0, 0, 1] ++ List.replicate 31 0), stage := 0, todo := [], acc := 0, t0 := 0 } : Job)) ∧
    (({ (rig.puts ([(R.MGT_MODE_MODE, 1), (R.HLM_BOOT_STAT_STEP, 13)] ++ (List.range 11).map (fun n => (inService n, 1)) ++ [(R.CTX_STAT_STATE 3, 1)])) with masked := [], mgt := { rig.mgt with jobs := [{ idx := 0, op := 4, tag := 5, ctx := 3, after := false, core := 2, ent := ([4, 0, 0, 0, 3, 0, 0, 0, 0, 0, 0, 0, 0, 0, 0, 0, 0, 0, 0, 0, 0, 0, 0, 0, 0, 0, 0, 0, 0, 0, 0, 0, 1] ++ List.replicate 31 0), stage := 0, todo := [], acc := 0, t0 := 0 }] } } : State).coreDown ({ idx := 0, op := 4, tag := 5, ctx := 3, after := false, core := 2, ent := ([4, 0, 0, 0, 3, 0, 0, 0, 0, 0, 0, 0, 0, 0, 0, 0, 0, 0, 0, 0, 0, 0, 0, 0, 0, 0, 0, 0, 0, 0, 0, 0, 1] ++ List.replicate 31 0), stage := 0, todo := [], acc := 0, t0 := 0 } : Job).core = false) ∧
    (({ (rig.puts ([(R.MGT_MODE_MODE, 1), (R.HLM_BOOT_STAT_STEP, 13)] ++ (List.range 11).map (fun n => (inService n, 1)) ++ [(R.CTX_STAT_STATE 3, 1)])) with masked := [], mgt := { rig.mgt with jobs := [{ idx := 0, op := 4, tag := 5, ctx := 3, after := false, core := 2, ent := ([4, 0, 0, 0, 3, 0, 0, 0, 0, 0, 0, 0, 0, 0, 0, 0, 0, 0, 0, 0, 0, 0, 0, 0, 0, 0, 0, 0, 0, 0, 0, 0, 1] ++ List.replicate 31 0), stage := 0, todo := [], acc := 0, t0 := 0 }] } } : State).coreLive ({ idx := 0, op := 4, tag := 5, ctx := 3, after := false, core := 2, ent := ([4, 0, 0, 0, 3, 0, 0, 0, 0, 0, 0, 0, 0, 0, 0, 0, 0, 0, 0, 0, 0, 0, 0, 0, 0, 0, 0, 0, 0, 0, 0, 0, 1] ++ List.replicate 31 0), stage := 0, todo := [], acc := 0, t0 := 0 } : Job).core = true) ∧
    (({ (rig.puts ([(R.MGT_MODE_MODE, 1), (R.HLM_BOOT_STAT_STEP, 13)] ++ (List.range 11).map (fun n => (inService n, 1)) ++ [(R.CTX_STAT_STATE 3, 1)])) with masked := [], mgt := { rig.mgt with jobs := [{ idx := 0, op := 4, tag := 5, ctx := 3, after := false, core := 2, ent := ([4, 0, 0, 0, 3, 0, 0, 0, 0, 0, 0, 0, 0, 0, 0, 0, 0, 0, 0, 0, 0, 0, 0, 0, 0, 0, 0, 0, 0, 0, 0, 0, 1] ++ List.replicate 31 0), stage := 0, todo := [], acc := 0, t0 := 0 }] } } : State).rgsShut ({ idx := 0, op := 4, tag := 5, ctx := 3, after := false, core := 2, ent := ([4, 0, 0, 0, 3, 0, 0, 0, 0, 0, 0, 0, 0, 0, 0, 0, 0, 0, 0, 0, 0, 0, 0, 0, 0, 0, 0, 0, 0, 0, 0, 0, 1] ++ List.replicate 31 0), stage := 0, todo := [], acc := 0, t0 := 0 } : Job).core = false) ∧
    (({ idx := 0, op := 4, tag := 5, ctx := 3, after := false, core := 2, ent := ([4, 0, 0, 0, 3, 0, 0, 0, 0, 0, 0, 0, 0, 0, 0, 0, 0, 0, 0, 0, 0, 0, 0, 0, 0, 0, 0, 0, 0, 0, 0, 0, 1] ++ List.replicate 31 0), stage := 0, todo := [], acc := 0, t0 := 0 } : Job).stage = 0) ∧
    (({ (rig.puts ([(R.MGT_MODE_MODE, 1), (R.HLM_BOOT_STAT_STEP, 13)] ++ (List.range 11).map (fun n => (inService n, 1)) ++ [(R.CTX_STAT_STATE 3, 1)])) with masked := [], mgt := { rig.mgt with jobs := [{ idx := 0, op := 4, tag := 5, ctx := 3, after := false, core := 2, ent := ([4, 0, 0, 0, 3, 0, 0, 0, 0, 0, 0, 0, 0, 0, 0, 0, 0, 0, 0, 0, 0, 0, 0, 0, 0, 0, 0, 0, 0, 0, 0, 0, 1] ++ List.replicate 31 0), stage := 0, todo := [], acc := 0, t0 := 0 }] } } : State).jobTurn ({ idx := 0, op := 4, tag := 5, ctx := 3, after := false, core := 2, ent := ([4, 0, 0, 0, 3, 0, 0, 0, 0, 0, 0, 0, 0, 0, 0, 0, 0, 0, 0, 0, 0, 0, 0, 0, 0, 0, 0, 0, 0, 0, 0, 0, 1] ++ List.replicate 31 0), stage := 0, todo := [], acc := 0, t0 := 0 } : Job) = true) ∧
    (({ idx := 0, op := 4, tag := 5, ctx := 3, after := false, core := 2, ent := ([4, 0, 0, 0, 3, 0, 0, 0, 0, 0, 0, 0, 0, 0, 0, 0, 0, 0, 0, 0, 0, 0, 0, 0, 0, 0, 0, 0, 0, 0, 0, 0, 1] ++ List.replicate 31 0), stage := 0, todo := [], acc := 0, t0 := 0 } : Job).malformed = false) ∧
    (({ (rig.puts ([(R.MGT_MODE_MODE, 1), (R.HLM_BOOT_STAT_STEP, 13)] ++ (List.range 11).map (fun n => (inService n, 1)) ++ [(R.CTX_STAT_STATE 3, 1)])) with masked := [], mgt := { rig.mgt with jobs := [{ idx := 0, op := 4, tag := 5, ctx := 3, after := false, core := 2, ent := ([4, 0, 0, 0, 3, 0, 0, 0, 0, 0, 0, 0, 0, 0, 0, 0, 0, 0, 0, 0, 0, 0, 0, 0, 0, 0, 0, 0, 0, 0, 0, 0, 1] ++ List.replicate 31 0), stage := 0, todo := [], acc := 0, t0 := 0 }] } } : State).outOfRange ({ idx := 0, op := 4, tag := 5, ctx := 3, after := false, core := 2, ent := ([4, 0, 0, 0, 3, 0, 0, 0, 0, 0, 0, 0, 0, 0, 0, 0, 0, 0, 0, 0, 0, 0, 0, 0, 0, 0, 0, 0, 0, 0, 0, 0, 1] ++ List.replicate 31 0), stage := 0, todo := [], acc := 0, t0 := 0 } : Job) = false) ∧
    ((ran (({ (rig.puts ([(R.MGT_MODE_MODE, 1), (R.HLM_BOOT_STAT_STEP, 13)] ++ (List.range 11).map (fun n => (inService n, 1)) ++ [(R.CTX_STAT_STATE 3, 1)])) with masked := [], mgt := { rig.mgt with jobs := [{ idx := 0, op := 4, tag := 5, ctx := 3, after := false, core := 2, ent := ([4, 0, 0, 0, 3, 0, 0, 0, 0, 0, 0, 0, 0, 0, 0, 0, 0, 0, 0, 0, 0, 0, 0, 0, 0, 0, 0, 0, 0, 0, 0, 0, 1] ++ List.replicate 31 0), stage := 0, todo := [], acc := 0, t0 := 0 }] } } : State).put R.CTX_CMD_STAT_REJ 0) (exec (.ctxBind .sch 3) (({ (rig.puts ([(R.MGT_MODE_MODE, 1), (R.HLM_BOOT_STAT_STEP, 13)] ++ (List.range 11).map (fun n => (inService n, 1)) ++ [(R.CTX_STAT_STATE 3, 1)])) with masked := [], mgt := { rig.mgt with jobs := [{ idx := 0, op := 4, tag := 5, ctx := 3, after := false, core := 2, ent := ([4, 0, 0, 0, 3, 0, 0, 0, 0, 0, 0, 0, 0, 0, 0, 0, 0, 0, 0, 0, 0, 0, 0, 0, 0, 0, 0, 0, 0, 0, 0, 0, 1] ++ List.replicate 31 0), stage := 0, todo := [], acc := 0, t0 := 0 }] } } : State).put R.CTX_CMD_STAT_REJ 0)) : State) = ran (({ (rig.puts ([(R.MGT_MODE_MODE, 1), (R.HLM_BOOT_STAT_STEP, 13)] ++ (List.range 11).map (fun n => (inService n, 1)) ++ [(R.CTX_STAT_STATE 3, 1)])) with masked := [], mgt := { rig.mgt with jobs := [{ idx := 0, op := 4, tag := 5, ctx := 3, after := false, core := 2, ent := ([4, 0, 0, 0, 3, 0, 0, 0, 0, 0, 0, 0, 0, 0, 0, 0, 0, 0, 0, 0, 0, 0, 0, 0, 0, 0, 0, 0, 0, 0, 0, 0, 1] ++ List.replicate 31 0), stage := 0, todo := [], acc := 0, t0 := 0 }] } } : State).put R.CTX_CMD_STAT_REJ 0) (exec (.ctxBind .sch (Fin.ofNat 16 ({ idx := 0, op := 4, tag := 5, ctx := 3, after := false, core := 2, ent := ([4, 0, 0, 0, 3, 0, 0, 0, 0, 0, 0, 0, 0, 0, 0, 0, 0, 0, 0, 0, 0, 0, 0, 0, 0, 0, 0, 0, 0, 0, 0, 0, 1] ++ List.replicate 31 0), stage := 0, todo := [], acc := 0, t0 := 0 } : Job).ctx)) (({ (rig.puts ([(R.MGT_MODE_MODE, 1), (R.HLM_BOOT_STAT_STEP, 13)] ++ (List.range 11).map (fun n => (inService n, 1)) ++ [(R.CTX_STAT_STATE 3, 1)])) with masked := [], mgt := { rig.mgt with jobs := [{ idx := 0, op := 4, tag := 5, ctx := 3, after := false, core := 2, ent := ([4, 0, 0, 0, 3, 0, 0, 0, 0, 0, 0, 0, 0, 0, 0, 0, 0, 0, 0, 0, 0, 0, 0, 0, 0, 0, 0, 0, 0, 0, 0, 0, 1] ++ List.replicate 31 0), stage := 0, todo := [], acc := 0, t0 := 0 }] } } : State).put R.CTX_CMD_STAT_REJ 0))) ∧
    ((ran (({ (rig.puts ([(R.MGT_MODE_MODE, 1), (R.HLM_BOOT_STAT_STEP, 13)] ++ (List.range 11).map (fun n => (inService n, 1)) ++ [(R.CTX_STAT_STATE 3, 1)])) with masked := [], mgt := { rig.mgt with jobs := [{ idx := 0, op := 4, tag := 5, ctx := 3, after := false, core := 2, ent := ([4, 0, 0, 0, 3, 0, 0, 0, 0, 0, 0, 0, 0, 0, 0, 0, 0, 0, 0, 0, 0, 0, 0, 0, 0, 0, 0, 0, 0, 0, 0, 0, 1] ++ List.replicate 31 0), stage := 0, todo := [], acc := 0, t0 := 0 }] } } : State).put R.CTX_CMD_STAT_REJ 0) (exec (.ctxBind .sch 3) (({ (rig.puts ([(R.MGT_MODE_MODE, 1), (R.HLM_BOOT_STAT_STEP, 13)] ++ (List.range 11).map (fun n => (inService n, 1)) ++ [(R.CTX_STAT_STATE 3, 1)])) with masked := [], mgt := { rig.mgt with jobs := [{ idx := 0, op := 4, tag := 5, ctx := 3, after := false, core := 2, ent := ([4, 0, 0, 0, 3, 0, 0, 0, 0, 0, 0, 0, 0, 0, 0, 0, 0, 0, 0, 0, 0, 0, 0, 0, 0, 0, 0, 0, 0, 0, 0, 0, 1] ++ List.replicate 31 0), stage := 0, todo := [], acc := 0, t0 := 0 }] } } : State).put R.CTX_CMD_STAT_REJ 0)) : State).bit R.CTX_CMD_STAT_REJ = false) ∧
    (((ran (({ (rig.puts ([(R.MGT_MODE_MODE, 1), (R.HLM_BOOT_STAT_STEP, 13)] ++ (List.range 11).map (fun n => (inService n, 1)) ++ [(R.CTX_STAT_STATE 3, 1)])) with masked := [], mgt := { rig.mgt with jobs := [{ idx := 0, op := 4, tag := 5, ctx := 3, after := false, core := 2, ent := ([4, 0, 0, 0, 3, 0, 0, 0, 0, 0, 0, 0, 0, 0, 0, 0, 0, 0, 0, 0, 0, 0, 0, 0, 0, 0, 0, 0, 0, 0, 0, 0, 1] ++ List.replicate 31 0), stage := 0, todo := [], acc := 0, t0 := 0 }] } } : State).put R.CTX_CMD_STAT_REJ 0) (exec (.ctxBind .sch 3) (({ (rig.puts ([(R.MGT_MODE_MODE, 1), (R.HLM_BOOT_STAT_STEP, 13)] ++ (List.range 11).map (fun n => (inService n, 1)) ++ [(R.CTX_STAT_STATE 3, 1)])) with masked := [], mgt := { rig.mgt with jobs := [{ idx := 0, op := 4, tag := 5, ctx := 3, after := false, core := 2, ent := ([4, 0, 0, 0, 3, 0, 0, 0, 0, 0, 0, 0, 0, 0, 0, 0, 0, 0, 0, 0, 0, 0, 0, 0, 0, 0, 0, 0, 0, 0, 0, 0, 1] ++ List.replicate 31 0), stage := 0, todo := [], acc := 0, t0 := 0 }] } } : State).put R.CTX_CMD_STAT_REJ 0)) : State).put (R.LCT_STEP_MULTI ({ idx := 0, op := 4, tag := 5, ctx := 3, after := false, core := 2, ent := ([4, 0, 0, 0, 3, 0, 0, 0, 0, 0, 0, 0, 0, 0, 0, 0, 0, 0, 0, 0, 0, 0, 0, 0, 0, 0, 0, 0, 0, 0, 0, 0, 1] ++ List.replicate 31 0), stage := 0, todo := [], acc := 0, t0 := 0 } : Job).ctx) (({ idx := 0, op := 4, tag := 5, ctx := 3, after := false, core := 2, ent := ([4, 0, 0, 0, 3, 0, 0, 0, 0, 0, 0, 0, 0, 0, 0, 0, 0, 0, 0, 0, 0, 0, 0, 0, 0, 0, 0, 0, 0, 0, 0, 0, 1] ++ List.replicate 31 0), stage := 0, todo := [], acc := 0, t0 := 0 } : Job).opnd 32 1)).bindWins ({ idx := 0, op := 4, tag := 5, ctx := 3, after := false, core := 2, ent := ([4, 0, 0, 0, 3, 0, 0, 0, 0, 0, 0, 0, 0, 0, 0, 0, 0, 0, 0, 0, 0, 0, 0, 0, 0, 0, 0, 0, 0, 0, 0, 0, 1] ++ List.replicate 31 0), stage := 0, todo := [], acc := 0, t0 := 0 } : Job).ctx (({ idx := 0, op := 4, tag := 5, ctx := 3, after := false, core := 2, ent := ([4, 0, 0, 0, 3, 0, 0, 0, 0, 0, 0, 0, 0, 0, 0, 0, 0, 0, 0, 0, 0, 0, 0, 0, 0, 0, 0, 0, 0, 0, 0, 0, 1] ++ List.replicate 31 0), stage := 0, todo := [], acc := 0, t0 := 0 } : Job).opnd 8 8) (List.range 64) 0 = (((ran (({ (rig.puts ([(R.MGT_MODE_MODE, 1), (R.HLM_BOOT_STAT_STEP, 13)] ++ (List.range 11).map (fun n => (inService n, 1)) ++ [(R.CTX_STAT_STATE 3, 1)])) with masked := [], mgt := { rig.mgt with jobs := [{ idx := 0, op := 4, tag := 5, ctx := 3, after := false, core := 2, ent := ([4, 0, 0, 0, 3, 0, 0, 0, 0, 0, 0, 0, 0, 0, 0, 0, 0, 0, 0, 0, 0, 0, 0, 0, 0, 0, 0, 0, 0, 0, 0, 0, 1] ++ List.replicate 31 0), stage := 0, todo := [], acc := 0, t0 := 0 }] } } : State).put R.CTX_CMD_STAT_REJ 0) (exec (.ctxBind .sch 3) (({ (rig.puts ([(R.MGT_MODE_MODE, 1), (R.HLM_BOOT_STAT_STEP, 13)] ++ (List.range 11).map (fun n => (inService n, 1)) ++ [(R.CTX_STAT_STATE 3, 1)])) with masked := [], mgt := { rig.mgt with jobs := [{ idx := 0, op := 4, tag := 5, ctx := 3, after := false, core := 2, ent := ([4, 0, 0, 0, 3, 0, 0, 0, 0, 0, 0, 0, 0, 0, 0, 0, 0, 0, 0, 0, 0, 0, 0, 0, 0, 0, 0, 0, 0, 0, 0, 0, 1] ++ List.replicate 31 0), stage := 0, todo := [], acc := 0, t0 := 0 }] } } : State).put R.CTX_CMD_STAT_REJ 0))).put (R.LCT_STEP_MULTI 3) 1 : State), (0 : Nat), none)) ∧
    (((ran (({ (rig.puts ([(R.MGT_MODE_MODE, 1), (R.HLM_BOOT_STAT_STEP, 13)] ++ (List.range 11).map (fun n => (inService n, 1)) ++ [(R.CTX_STAT_STATE 3, 1)])) with masked := [], mgt := { rig.mgt with jobs := [{ idx := 0, op := 4, tag := 5, ctx := 3, after := false, core := 2, ent := ([4, 0, 0, 0, 3, 0, 0, 0, 0, 0, 0, 0, 0, 0, 0, 0, 0, 0, 0, 0, 0, 0, 0, 0, 0, 0, 0, 0, 0, 0, 0, 0, 1] ++ List.replicate 31 0), stage := 0, todo := [], acc := 0, t0 := 0 }] } } : State).put R.CTX_CMD_STAT_REJ 0) (exec (.ctxBind .sch 3) (({ (rig.puts ([(R.MGT_MODE_MODE, 1), (R.HLM_BOOT_STAT_STEP, 13)] ++ (List.range 11).map (fun n => (inService n, 1)) ++ [(R.CTX_STAT_STATE 3, 1)])) with masked := [], mgt := { rig.mgt with jobs := [{ idx := 0, op := 4, tag := 5, ctx := 3, after := false, core := 2, ent := ([4, 0, 0, 0, 3, 0, 0, 0, 0, 0, 0, 0, 0, 0, 0, 0, 0, 0, 0, 0, 0, 0, 0, 0, 0, 0, 0, 0, 0, 0, 0, 0, 1] ++ List.replicate 31 0), stage := 0, todo := [], acc := 0, t0 := 0 }] } } : State).put R.CTX_CMD_STAT_REJ 0))).put (R.LCT_STEP_MULTI 3) 1 : State).bindGroups ({ idx := 0, op := 4, tag := 5, ctx := 3, after := false, core := 2, ent := ([4, 0, 0, 0, 3, 0, 0, 0, 0, 0, 0, 0, 0, 0, 0, 0, 0, 0, 0, 0, 0, 0, 0, 0, 0, 0, 0, 0, 0, 0, 0, 0, 1] ++ List.replicate 31 0), stage := 0, todo := [], acc := 0, t0 := 0 } : Job).ctx (({ idx := 0, op := 4, tag := 5, ctx := 3, after := false, core := 2, ent := ([4, 0, 0, 0, 3, 0, 0, 0, 0, 0, 0, 0, 0, 0, 0, 0, 0, 0, 0, 0, 0, 0, 0, 0, 0, 0, 0, 0, 0, 0, 0, 0, 1] ++ List.replicate 31 0), stage := 0, todo := [], acc := 0, t0 := 0 } : Job).opnd 16 16) (List.range 128) = (((ran (({ (rig.puts ([(R.MGT_MODE_MODE, 1), (R.HLM_BOOT_STAT_STEP, 13)] ++ (List.range 11).map (fun n => (inService n, 1)) ++ [(R.CTX_STAT_STATE 3, 1)])) with masked := [], mgt := { rig.mgt with jobs := [{ idx := 0, op := 4, tag := 5, ctx := 3, after := false, core := 2, ent := ([4, 0, 0, 0, 3, 0, 0, 0, 0, 0, 0, 0, 0, 0, 0, 0, 0, 0, 0, 0, 0, 0, 0, 0, 0, 0, 0, 0, 0, 0, 0, 0, 1] ++ List.replicate 31 0), stage := 0, todo := [], acc := 0, t0 := 0 }] } } : State).put R.CTX_CMD_STAT_REJ 0) (exec (.ctxBind .sch 3) (({ (rig.puts ([(R.MGT_MODE_MODE, 1), (R.HLM_BOOT_STAT_STEP, 13)] ++ (List.range 11).map (fun n => (inService n, 1)) ++ [(R.CTX_STAT_STATE 3, 1)])) with masked := [], mgt := { rig.mgt with jobs := [{ idx := 0, op := 4, tag := 5, ctx := 3, after := false, core := 2, ent := ([4, 0, 0, 0, 3, 0, 0, 0, 0, 0, 0, 0, 0, 0, 0, 0, 0, 0, 0, 0, 0, 0, 0, 0, 0, 0, 0, 0, 0, 0, 0, 0, 1] ++ List.replicate 31 0), stage := 0, todo := [], acc := 0, t0 := 0 }] } } : State).put R.CTX_CMD_STAT_REJ 0))).put (R.LCT_STEP_MULTI 3) 1 : State), none)) := by decide +kernel

theorem witness_contextSubmissionsComplete_sqKill :
    (({ (rig.puts ([(R.MGT_MODE_MODE, 1), (R.HLM_BOOT_STAT_STEP, 13)] ++ (List.range 11).map (fun n => (inService n, 1)))) with masked := [], mgt := { rig.mgt with jobs := [{ idx := 0, op := 5, tag := 5, ctx := 2, after := false, core := 2, ent := ([5, 0, 0, 0, 2] ++ List.replicate 59 0), stage := 0, todo := [], acc := 0, t0 := 0 }] } } : State).mgt.jobs.find? (fun z => decide (z.idx = (0 : W32).toNat) && decide (z.op = 0x05)) = some ({ idx := 0, op := 5, tag := 5, ctx := 2, after := false, core := 2, ent := ([5, 0, 0, 0, 2] ++ List.replicate 59 0), stage := 0, todo := [], acc := 0, t0 := 0 } : Job)) ∧
    (({ (rig.puts ([(R.MGT_MODE_MODE, 1), (R.HLM_BOOT_STAT_STEP, 13)] ++ (List.range 11).map (fun n => (inService n, 1)))) with masked := [], mgt := { rig.mgt with jobs := [{ idx := 0, op := 5, tag := 5, ctx := 2, after := false, core := 2, ent := ([5, 0, 0, 0, 2] ++ List.replicate 59 0), stage := 0, todo := [], acc := 0, t0 := 0 }] } } : State).coreDown ({ idx := 0, op := 5, tag := 5, ctx := 2, after := false, core := 2, ent := ([5, 0, 0, 0, 2] ++ List.replicate 59 0), stage := 0, todo := [], acc := 0, t0 := 0 } : Job).core = false) ∧
    (({ (rig.puts ([(R.MGT_MODE_MODE, 1), (R.HLM_BOOT_STAT_STEP, 13)] ++ (List.range 11).map (fun n => (inService n, 1)))) with masked := [], mgt := { rig.mgt with jobs := [{ idx := 0, op := 5, tag := 5, ctx := 2, after := false, core := 2, ent := ([5, 0, 0, 0, 2] ++ List.replicate 59 0), stage := 0, todo := [], acc := 0, t0 := 0 }] } } : State).coreLive ({ idx := 0, op := 5, tag := 5, ctx := 2, after := false, core := 2, ent := ([5, 0, 0, 0, 2] ++ List.replicate 59 0), stage := 0, todo := [], acc := 0, t0 := 0 } : Job).core = true) ∧
    (({ (rig.puts ([(R.MGT_MODE_MODE, 1), (R.HLM_BOOT_STAT_STEP, 13)] ++ (List.range 11).map (fun n => (inService n, 1)))) with masked := [], mgt := { rig.mgt with jobs := [{ idx := 0, op := 5, tag := 5, ctx := 2, after := false, core := 2, ent := ([5, 0, 0, 0, 2] ++ List.replicate 59 0), stage := 0, todo := [], acc := 0, t0 := 0 }] } } : State).rgsShut ({ idx := 0, op := 5, tag := 5, ctx := 2, after := false, core := 2, ent := ([5, 0, 0, 0, 2] ++ List.replicate 59 0), stage := 0, todo := [], acc := 0, t0 := 0 } : Job).core = false) ∧
    (({ idx := 0, op := 5, tag := 5, ctx := 2, after := false, core := 2, ent := ([5, 0, 0, 0, 2] ++ List.replicate 59 0), stage := 0, todo := [], acc := 0, t0 := 0 } : Job).stage = 0) ∧
    (({ (rig.puts ([(R.MGT_MODE_MODE, 1), (R.HLM_BOOT_STAT_STEP, 13)] ++ (List.range 11).map (fun n => (inService n, 1)))) with masked := [], mgt := { rig.mgt with jobs := [{ idx := 0, op := 5, tag := 5, ctx := 2, after := false, core := 2, ent := ([5, 0, 0, 0, 2] ++ List.replicate 59 0), stage := 0, todo := [], acc := 0, t0 := 0 }] } } : State).jobTurn ({ idx := 0, op := 5, tag := 5, ctx := 2, after := false, core := 2, ent := ([5, 0, 0, 0, 2] ++ List.replicate 59 0), stage := 0, todo := [], acc := 0, t0 := 0 } : Job) = true) ∧
    (({ idx := 0, op := 5, tag := 5, ctx := 2, after := false, core := 2, ent := ([5, 0, 0, 0, 2] ++ List.replicate 59 0), stage := 0, todo := [], acc := 0, t0 := 0 } : Job).malformed = false) ∧
    (({ (rig.puts ([(R.MGT_MODE_MODE, 1), (R.HLM_BOOT_STAT_STEP, 13)] ++ (List.range 11).map (fun n => (inService n, 1)))) with masked := [], mgt := { rig.mgt with jobs := [{ idx := 0, op := 5, tag := 5, ctx := 2, after := false, core := 2, ent := ([5, 0, 0, 0, 2] ++ List.replicate 59 0), stage := 0, todo := [], acc := 0, t0 := 0 }] } } : State).outOfRange ({ idx := 0, op := 5, tag := 5, ctx := 2, after := false, core := 2, ent := ([5, 0, 0, 0, 2] ++ List.replicate 59 0), stage := 0, todo := [], acc := 0, t0 := 0 } : Job) = false) ∧
    ((ran (({ (rig.puts ([(R.MGT_MODE_MODE, 1), (R.HLM_BOOT_STAT_STEP, 13)] ++ (List.range 11).map (fun n => (inService n, 1)))) with masked := [], mgt := { rig.mgt with jobs := [{ idx := 0, op := 5, tag := 5, ctx := 2, after := false, core := 2, ent := ([5, 0, 0, 0, 2] ++ List.replicate 59 0), stage := 0, todo := [], acc := 0, t0 := 0 }] } } : State).put R.CTX_CMD_STAT_REJ 0) (exec (.ctxKill .sch (Fin.ofNat 16 2)) (({ (rig.puts ([(R.MGT_MODE_MODE, 1), (R.HLM_BOOT_STAT_STEP, 13)] ++ (List.range 11).map (fun n => (inService n, 1)))) with masked := [], mgt := { rig.mgt with jobs := [{ idx := 0, op := 5, tag := 5, ctx := 2, after := false, core := 2, ent := ([5, 0, 0, 0, 2] ++ List.replicate 59 0), stage := 0, todo := [], acc := 0, t0 := 0 }] } } : State).put R.CTX_CMD_STAT_REJ 0)) : State) = ran (({ (rig.puts ([(R.MGT_MODE_MODE, 1), (R.HLM_BOOT_STAT_STEP, 13)] ++ (List.range 11).map (fun n => (inService n, 1)))) with masked := [], mgt := { rig.mgt with jobs := [{ idx := 0, op := 5, tag := 5, ctx := 2, after := false, core := 2, ent := ([5, 0, 0, 0, 2] ++ List.replicate 59 0), stage := 0, todo := [], acc := 0, t0 := 0 }] } } : State).put R.CTX_CMD_STAT_REJ 0) (exec (.ctxKill .sch (Fin.ofNat 16 ({ idx := 0, op := 5, tag := 5, ctx := 2, after := false, core := 2, ent := ([5, 0, 0, 0, 2] ++ List.replicate 59 0), stage := 0, todo := [], acc := 0, t0 := 0 } : Job).ctx)) (({ (rig.puts ([(R.MGT_MODE_MODE, 1), (R.HLM_BOOT_STAT_STEP, 13)] ++ (List.range 11).map (fun n => (inService n, 1)))) with masked := [], mgt := { rig.mgt with jobs := [{ idx := 0, op := 5, tag := 5, ctx := 2, after := false, core := 2, ent := ([5, 0, 0, 0, 2] ++ List.replicate 59 0), stage := 0, todo := [], acc := 0, t0 := 0 }] } } : State).put R.CTX_CMD_STAT_REJ 0))) ∧
    ((ran (({ (rig.puts ([(R.MGT_MODE_MODE, 1), (R.HLM_BOOT_STAT_STEP, 13)] ++ (List.range 11).map (fun n => (inService n, 1)))) with masked := [], mgt := { rig.mgt with jobs := [{ idx := 0, op := 5, tag := 5, ctx := 2, after := false, core := 2, ent := ([5, 0, 0, 0, 2] ++ List.replicate 59 0), stage := 0, todo := [], acc := 0, t0 := 0 }] } } : State).put R.CTX_CMD_STAT_REJ 0) (exec (.ctxKill .sch (Fin.ofNat 16 2)) (({ (rig.puts ([(R.MGT_MODE_MODE, 1), (R.HLM_BOOT_STAT_STEP, 13)] ++ (List.range 11).map (fun n => (inService n, 1)))) with masked := [], mgt := { rig.mgt with jobs := [{ idx := 0, op := 5, tag := 5, ctx := 2, after := false, core := 2, ent := ([5, 0, 0, 0, 2] ++ List.replicate 59 0), stage := 0, todo := [], acc := 0, t0 := 0 }] } } : State).put R.CTX_CMD_STAT_REJ 0)) : State).bit R.CTX_CMD_STAT_REJ = false) := by decide +kernel

theorem witness_contextSubmissionsComplete_sqKill_over :
    (({ (rig.puts ([(R.MGT_MODE_MODE, 1), (R.HLM_BOOT_STAT_STEP, 13)] ++ (List.range 11).map (fun n => (inService n, 1)))) with masked := [], mgt := { rig.mgt with jobs := [{ idx := 0, op := 5, tag := 5, ctx := 2, after := false, core := 2, ent := ([5, 0, 0, 0, 2] ++ List.replicate 59 0), stage := 1, todo := [], acc := 0, t0 := 0 }] } } : State).mgt.jobs.find? (fun z => decide (z.idx = (0 : W32).toNat) && decide (z.op = 0x05)) = some ({ idx := 0, op := 5, tag := 5, ctx := 2, after := false, core := 2, ent := ([5, 0, 0, 0, 2] ++ List.replicate 59 0), stage := 1, todo := [], acc := 0, t0 := 0 } : Job)) ∧
    (({ (rig.puts ([(R.MGT_MODE_MODE, 1), (R.HLM_BOOT_STAT_STEP, 13)] ++ (List.range 11).map (fun n => (inService n, 1)))) with masked := [], mgt := { rig.mgt with jobs := [{ idx := 0, op := 5, tag := 5, ctx := 2, after := false, core := 2, ent := ([5, 0, 0, 0, 2] ++ List.replicate 59 0), stage := 1, todo := [], acc := 0, t0 := 0 }] } } : State).coreDown ({ idx := 0, op := 5, tag := 5, ctx := 2, after := false, core := 2, ent := ([5, 0, 0, 0, 2] ++ List.replicate 59 0), stage := 1, todo := [], acc := 0, t0 := 0 } : Job).core = false) ∧
    (({ (rig.puts ([(R.MGT_MODE_MODE, 1), (R.HLM_BOOT_STAT_STEP, 13)] ++ (List.range 11).map (fun n => (inService n, 1)))) with masked := [], mgt := { rig.mgt with jobs := [{ idx := 0, op := 5, tag := 5, ctx := 2, after := false, core := 2, ent := ([5, 0, 0, 0, 2] ++ List.replicate 59 0), stage := 1, todo := [], acc := 0, t0 := 0 }] } } : State).coreLive ({ idx := 0, op := 5, tag := 5, ctx := 2, after := false, core := 2, ent := ([5, 0, 0, 0, 2] ++ List.replicate 59 0), stage := 1, todo := [], acc := 0, t0 := 0 } : Job).core = true) ∧
    (({ (rig.puts ([(R.MGT_MODE_MODE, 1), (R.HLM_BOOT_STAT_STEP, 13)] ++ (List.range 11).map (fun n => (inService n, 1)))) with masked := [], mgt := { rig.mgt with jobs := [{ idx := 0, op := 5, tag := 5, ctx := 2, after := false, core := 2, ent := ([5, 0, 0, 0, 2] ++ List.replicate 59 0), stage := 1, todo := [], acc := 0, t0 := 0 }] } } : State).rgsShut ({ idx := 0, op := 5, tag := 5, ctx := 2, after := false, core := 2, ent := ([5, 0, 0, 0, 2] ++ List.replicate 59 0), stage := 1, todo := [], acc := 0, t0 := 0 } : Job).core = false) ∧
    (({ idx := 0, op := 5, tag := 5, ctx := 2, after := false, core := 2, ent := ([5, 0, 0, 0, 2] ++ List.replicate 59 0), stage := 1, todo := [], acc := 0, t0 := 0 } : Job).stage = 1) ∧
    (({ (rig.puts ([(R.MGT_MODE_MODE, 1), (R.HLM_BOOT_STAT_STEP, 13)] ++ (List.range 11).map (fun n => (inService n, 1)))) with masked := [], mgt := { rig.mgt with jobs := [{ idx := 0, op := 5, tag := 5, ctx := 2, after := false, core := 2, ent := ([5, 0, 0, 0, 2] ++ List.replicate 59 0), stage := 1, todo := [], acc := 0, t0 := 0 }] } } : State).killing ({ idx := 0, op := 5, tag := 5, ctx := 2, after := false, core := 2, ent := ([5, 0, 0, 0, 2] ++ List.replicate 59 0), stage := 1, todo := [], acc := 0, t0 := 0 } : Job).ctx = false) := by decide +kernel

theorem witness_contextSubmissionsComplete_sqWindow :
    (({ (rig.puts ([(R.MGT_MODE_MODE, 1), (R.HLM_BOOT_STAT_STEP, 13)] ++ (List.range 11).map (fun n => (inService n, 1)))) with masked := [], mgt := { rig.mgt with jobs := [{ idx := 0, op := 6, tag := 5, ctx := 2, after := false, core := 2, ent := ([6, 0, 0, 0, 2, 0, 0, 0, 0, 2] ++ List.replicate 54 0), stage := 0, todo := [], acc := 0, t0 := 0 }] } } : State).mgt.jobs.find? (fun z => decide (z.idx = (0 : W32).toNat) && decide (z.op = 0x06)) = some ({ idx := 0, op := 6, tag := 5, ctx := 2, after := false, core := 2, ent := ([6, 0, 0, 0, 2, 0, 0, 0, 0, 2] ++ List.replicate 54 0), stage := 0, todo := [], acc := 0, t0 := 0 } : Job)) ∧
    (({ (rig.puts ([(R.MGT_MODE_MODE, 1), (R.HLM_BOOT_STAT_STEP, 13)] ++ (List.range 11).map (fun n => (inService n, 1)))) with masked := [], mgt := { rig.mgt with jobs := [{ idx := 0, op := 6, tag := 5, ctx := 2, after := false, core := 2, ent := ([6, 0, 0, 0, 2, 0, 0, 0, 0, 2] ++ List.replicate 54 0), stage := 0, todo := [], acc := 0, t0 := 0 }] } } : State).coreDown ({ idx := 0, op := 6, tag := 5, ctx := 2, after := false, core := 2, ent := ([6, 0, 0, 0, 2, 0, 0, 0, 0, 2] ++ List.replicate 54 0), stage := 0, todo := [], acc := 0, t0 := 0 } : Job).core = false) ∧
    (({ (rig.puts ([(R.MGT_MODE_MODE, 1), (R.HLM_BOOT_STAT_STEP, 13)] ++ (List.range 11).map (fun n => (inService n, 1)))) with masked := [], mgt := { rig.mgt with jobs := [{ idx := 0, op := 6, tag := 5, ctx := 2, after := false, core := 2, ent := ([6, 0, 0, 0, 2, 0, 0, 0, 0, 2] ++ List.replicate 54 0), stage := 0, todo := [], acc := 0, t0 := 0 }] } } : State).coreLive ({ idx := 0, op := 6, tag := 5, ctx := 2, after := false, core := 2, ent := ([6, 0, 0, 0, 2, 0, 0, 0, 0, 2] ++ List.replicate 54 0), stage := 0, todo := [], acc := 0, t0 := 0 } : Job).core = true) ∧
    (({ (rig.puts ([(R.MGT_MODE_MODE, 1), (R.HLM_BOOT_STAT_STEP, 13)] ++ (List.range 11).map (fun n => (inService n, 1)))) with masked := [], mgt := { rig.mgt with jobs := [{ idx := 0, op := 6, tag := 5, ctx := 2, after := false, core := 2, ent := ([6, 0, 0, 0, 2, 0, 0, 0, 0, 2] ++ List.replicate 54 0), stage := 0, todo := [], acc := 0, t0 := 0 }] } } : State).rgsShut ({ idx := 0, op := 6, tag := 5, ctx := 2, after := false, core := 2, ent := ([6, 0, 0, 0, 2, 0, 0, 0, 0, 2] ++ List.replicate 54 0), stage := 0, todo := [], acc := 0, t0 := 0 } : Job).core = false) ∧
    (({ idx := 0, op := 6, tag := 5, ctx := 2, after := false, core := 2, ent := ([6, 0, 0, 0, 2, 0, 0, 0, 0, 2] ++ List.replicate 54 0), stage := 0, todo := [], acc := 0, t0 := 0 } : Job).stage = 0) ∧
    (({ (rig.puts ([(R.MGT_MODE_MODE, 1), (R.HLM_BOOT_STAT_STEP, 13)] ++ (List.range 11).map (fun n => (inService n, 1)))) with masked := [], mgt := { rig.mgt with jobs := [{ idx := 0, op := 6, tag := 5, ctx := 2, after := false, core := 2, ent := ([6, 0, 0, 0, 2, 0, 0, 0, 0, 2] ++ List.replicate 54 0), stage := 0, todo := [], acc := 0, t0 := 0 }] } } : State).jobTurn ({ idx := 0, op := 6, tag := 5, ctx := 2, after := false, core := 2, ent := ([6, 0, 0, 0, 2, 0, 0, 0, 0, 2] ++ List.replicate 54 0), stage := 0, todo := [], acc := 0, t0 := 0 } : Job) = true) ∧
    (({ idx := 0, op := 6, tag := 5, ctx := 2, after := false, core := 2, ent := ([6, 0, 0, 0, 2, 0, 0, 0, 0, 2] ++ List.replicate 54 0), stage := 0, todo := [], acc := 0, t0 := 0 } : Job).malformed = false) ∧
    (({ (rig.puts ([(R.MGT_MODE_MODE, 1), (R.HLM_BOOT_STAT_STEP, 13)] ++ (List.range 11).map (fun n => (inService n, 1)))) with masked := [], mgt := { rig.mgt with jobs := [{ idx := 0, op := 6, tag := 5, ctx := 2, after := false, core := 2, ent := ([6, 0, 0, 0, 2, 0, 0, 0, 0, 2] ++ List.replicate 54 0), stage := 0, todo := [], acc := 0, t0 := 0 }] } } : State).outOfRange ({ idx := 0, op := 6, tag := 5, ctx := 2, after := false, core := 2, ent := ([6, 0, 0, 0, 2, 0, 0, 0, 0, 2] ++ List.replicate 54 0), stage := 0, todo := [], acc := 0, t0 := 0 } : Job) = false) ∧
    (({ idx := 0, op := 6, tag := 5, ctx := 2, after := false, core := 2, ent := ([6, 0, 0, 0, 2, 0, 0, 0, 0, 2] ++ List.replicate 54 0), stage := 0, todo := [], acc := 0, t0 := 0 } : Job).opnd 9 1 = 2) ∧
    ((ran (({ (rig.puts ([(R.MGT_MODE_MODE, 1), (R.HLM_BOOT_STAT_STEP, 13)] ++ (List.range 11).map (fun n => (inService n, 1)))) with masked := [], mgt := { rig.mgt with jobs := [{ idx := 0, op := 6, tag := 5, ctx := 2, after := false, core := 2, ent := ([6, 0, 0, 0, 2, 0, 0, 0, 0, 2] ++ List.replicate 54 0), stage := 0, todo := [], acc := 0, t0 := 0 }] } } : State).put R.WIN_BIND_STAT_REJ 0) (exec (.windowUnbind .sch (Fin.ofNat 64 0) (Fin.ofNat 16 2)) (({ (rig.puts ([(R.MGT_MODE_MODE, 1), (R.HLM_BOOT_STAT_STEP, 13)] ++ (List.range 11).map (fun n => (inService n, 1)))) with masked := [], mgt := { rig.mgt with jobs := [{ idx := 0, op := 6, tag := 5, ctx := 2, after := false, core := 2, ent := ([6, 0, 0, 0, 2, 0, 0, 0, 0, 2] ++ List.replicate 54 0), stage := 0, todo := [], acc := 0, t0 := 0 }] } } : State).put R.WIN_BIND_STAT_REJ 0)) : State) = ran (({ (rig.puts ([(R.MGT_MODE_MODE, 1), (R.HLM_BOOT_STAT_STEP, 13)] ++ (List.range 11).map (fun n => (inService n, 1)))) with masked := [], mgt := { rig.mgt with jobs := [{ idx := 0, op := 6, tag := 5, ctx := 2, after := false, core := 2, ent := ([6, 0, 0, 0, 2, 0, 0, 0, 0, 2] ++ List.replicate 54 0), stage := 0, todo := [], acc := 0, t0 := 0 }] } } : State).put R.WIN_BIND_STAT_REJ 0) (exec (.windowUnbind .sch (Fin.ofNat 64 (({ idx := 0, op := 6, tag := 5, ctx := 2, after := false, core := 2, ent := ([6, 0, 0, 0, 2, 0, 0, 0, 0, 2] ++ List.replicate 54 0), stage := 0, todo := [], acc := 0, t0 := 0 } : Job).opnd 8 1)) (Fin.ofNat 16 ({ idx := 0, op := 6, tag := 5, ctx := 2, after := false, core := 2, ent := ([6, 0, 0, 0, 2, 0, 0, 0, 0, 2] ++ List.replicate 54 0), stage := 0, todo := [], acc := 0, t0 := 0 } : Job).ctx)) (({ (rig.puts ([(R.MGT_MODE_MODE, 1), (R.HLM_BOOT_STAT_STEP, 13)] ++ (List.range 11).map (fun n => (inService n, 1)))) with masked := [], mgt := { rig.mgt with jobs := [{ idx := 0, op := 6, tag := 5, ctx := 2, after := false, core := 2, ent := ([6, 0, 0, 0, 2, 0, 0, 0, 0, 2] ++ List.replicate 54 0), stage := 0, todo := [], acc := 0, t0 := 0 }] } } : State).put R.WIN_BIND_STAT_REJ 0))) ∧
    ((ran (({ (rig.puts ([(R.MGT_MODE_MODE, 1), (R.HLM_BOOT_STAT_STEP, 13)] ++ (List.range 11).map (fun n => (inService n, 1)))) with masked := [], mgt := { rig.mgt with jobs := [{ idx := 0, op := 6, tag := 5, ctx := 2, after := false, core := 2, ent := ([6, 0, 0, 0, 2, 0, 0, 0, 0, 2] ++ List.replicate 54 0), stage := 0, todo := [], acc := 0, t0 := 0 }] } } : State).put R.WIN_BIND_STAT_REJ 0) (exec (.windowUnbind .sch (Fin.ofNat 64 0) (Fin.ofNat 16 2)) (({ (rig.puts ([(R.MGT_MODE_MODE, 1), (R.HLM_BOOT_STAT_STEP, 13)] ++ (List.range 11).map (fun n => (inService n, 1)))) with masked := [], mgt := { rig.mgt with jobs := [{ idx := 0, op := 6, tag := 5, ctx := 2, after := false, core := 2, ent := ([6, 0, 0, 0, 2, 0, 0, 0, 0, 2] ++ List.replicate 54 0), stage := 0, todo := [], acc := 0, t0 := 0 }] } } : State).put R.WIN_BIND_STAT_REJ 0)) : State).bit R.WIN_BIND_STAT_REJ = false) := by decide +kernel

theorem witness_contextSubmissionsComplete_sqWindow_over :
    (({ (rig.puts ([(R.MGT_MODE_MODE, 1), (R.HLM_BOOT_STAT_STEP, 13)] ++ (List.range 11).map (fun n => (inService n, 1)))) with masked := [], mgt := { rig.mgt with jobs := [{ idx := 0, op := 6, tag := 5, ctx := 2, after := false, core := 2, ent := ([6, 0, 0, 0, 2, 0, 0, 0, 0, 2] ++ List.replicate 54 0), stage := 1, todo := [], acc := 0, t0 := 0 }] } } : State).mgt.jobs.find? (fun z => decide (z.idx = (0 : W32).toNat) && decide (z.op = 0x06)) = some ({ idx := 0, op := 6, tag := 5, ctx := 2, after := false, core := 2, ent := ([6, 0, 0, 0, 2, 0, 0, 0, 0, 2] ++ List.replicate 54 0), stage := 1, todo := [], acc := 0, t0 := 0 } : Job)) ∧
    (({ (rig.puts ([(R.MGT_MODE_MODE, 1), (R.HLM_BOOT_STAT_STEP, 13)] ++ (List.range 11).map (fun n => (inService n, 1)))) with masked := [], mgt := { rig.mgt with jobs := [{ idx := 0, op := 6, tag := 5, ctx := 2, after := false, core := 2, ent := ([6, 0, 0, 0, 2, 0, 0, 0, 0, 2] ++ List.replicate 54 0), stage := 1, todo := [], acc := 0, t0 := 0 }] } } : State).coreDown ({ idx := 0, op := 6, tag := 5, ctx := 2, after := false, core := 2, ent := ([6, 0, 0, 0, 2, 0, 0, 0, 0, 2] ++ List.replicate 54 0), stage := 1, todo := [], acc := 0, t0 := 0 } : Job).core = false) ∧
    (({ (rig.puts ([(R.MGT_MODE_MODE, 1), (R.HLM_BOOT_STAT_STEP, 13)] ++ (List.range 11).map (fun n => (inService n, 1)))) with masked := [], mgt := { rig.mgt with jobs := [{ idx := 0, op := 6, tag := 5, ctx := 2, after := false, core := 2, ent := ([6, 0, 0, 0, 2, 0, 0, 0, 0, 2] ++ List.replicate 54 0), stage := 1, todo := [], acc := 0, t0 := 0 }] } } : State).coreLive ({ idx := 0, op := 6, tag := 5, ctx := 2, after := false, core := 2, ent := ([6, 0, 0, 0, 2, 0, 0, 0, 0, 2] ++ List.replicate 54 0), stage := 1, todo := [], acc := 0, t0 := 0 } : Job).core = true) ∧
    (({ (rig.puts ([(R.MGT_MODE_MODE, 1), (R.HLM_BOOT_STAT_STEP, 13)] ++ (List.range 11).map (fun n => (inService n, 1)))) with masked := [], mgt := { rig.mgt with jobs := [{ idx := 0, op := 6, tag := 5, ctx := 2, after := false, core := 2, ent := ([6, 0, 0, 0, 2, 0, 0, 0, 0, 2] ++ List.replicate 54 0), stage := 1, todo := [], acc := 0, t0 := 0 }] } } : State).rgsShut ({ idx := 0, op := 6, tag := 5, ctx := 2, after := false, core := 2, ent := ([6, 0, 0, 0, 2, 0, 0, 0, 0, 2] ++ List.replicate 54 0), stage := 1, todo := [], acc := 0, t0 := 0 } : Job).core = false) ∧
    (({ idx := 0, op := 6, tag := 5, ctx := 2, after := false, core := 2, ent := ([6, 0, 0, 0, 2, 0, 0, 0, 0, 2] ++ List.replicate 54 0), stage := 1, todo := [], acc := 0, t0 := 0 } : Job).stage = 1) ∧
    (({ (rig.puts ([(R.MGT_MODE_MODE, 1), (R.HLM_BOOT_STAT_STEP, 13)] ++ (List.range 11).map (fun n => (inService n, 1)))) with masked := [], mgt := { rig.mgt with jobs := [{ idx := 0, op := 6, tag := 5, ctx := 2, after := false, core := 2, ent := ([6, 0, 0, 0, 2, 0, 0, 0, 0, 2] ++ List.replicate 54 0), stage := 1, todo := [], acc := 0, t0 := 0 }] } } : State).ctx.busy = none) := by decide +kernel

theorem witness_contextSubmissionsComplete_sqWindow_release :
    (({ (rig.puts ([(R.MGT_MODE_MODE, 1), (R.HLM_BOOT_STAT_STEP, 13)] ++ (List.range 11).map (fun n => (inService n, 1)) ++ [(R.WIN_STATE_STATE 0, 4)])) with masked := [], mgt := { rig.mgt with jobs := [{ idx := 0, op := 6, tag := 5, ctx := 2, after := false, core := 2, ent := ([6, 0, 0, 0, 2, 0, 0, 0, 0, 3] ++ List.replicate 54 0), stage := 0, todo := [], acc := 0, t0 := 0 }] } } : State).mgt.jobs.find? (fun z => decide (z.idx = (0 : W32).toNat) && decide (z.op = 0x06)) = some ({ idx := 0, op := 6, tag := 5, ctx := 2, after := false, core := 2, ent := ([6, 0, 0, 0, 2, 0, 0, 0, 0, 3] ++ List.replicate 54 0), stage := 0, todo := [], acc := 0, t0 := 0 } : Job)) ∧
    (({ (rig.puts ([(R.MGT_MODE_MODE, 1), (R.HLM_BOOT_STAT_STEP, 13)] ++ (List.range 11).map (fun n => (inService n, 1)) ++ [(R.WIN_STATE_STATE 0, 4)])) with masked := [], mgt := { rig.mgt with jobs := [{ idx := 0, op := 6, tag := 5, ctx := 2, after := false, core := 2, ent := ([6, 0, 0, 0, 2, 0, 0, 0, 0, 3] ++ List.replicate 54 0), stage := 0, todo := [], acc := 0, t0 := 0 }] } } : State).coreDown ({ idx := 0, op := 6, tag := 5, ctx := 2, after := false, core := 2, ent := ([6, 0, 0, 0, 2, 0, 0, 0, 0, 3] ++ List.replicate 54 0), stage := 0, todo := [], acc := 0, t0 := 0 } : Job).core = false) ∧
    (({ (rig.puts ([(R.MGT_MODE_MODE, 1), (R.HLM_BOOT_STAT_STEP, 13)] ++ (List.range 11).map (fun n => (inService n, 1)) ++ [(R.WIN_STATE_STATE 0, 4)])) with masked := [], mgt := { rig.mgt with jobs := [{ idx := 0, op := 6, tag := 5, ctx := 2, after := false, core := 2, ent := ([6, 0, 0, 0, 2, 0, 0, 0, 0, 3] ++ List.replicate 54 0), stage := 0, todo := [], acc := 0, t0 := 0 }] } } : State).coreLive ({ idx := 0, op := 6, tag := 5, ctx := 2, after := false, core := 2, ent := ([6, 0, 0, 0, 2, 0, 0, 0, 0, 3] ++ List.replicate 54 0), stage := 0, todo := [], acc := 0, t0 := 0 } : Job).core = true) ∧
    (({ (rig.puts ([(R.MGT_MODE_MODE, 1), (R.HLM_BOOT_STAT_STEP, 13)] ++ (List.range 11).map (fun n => (inService n, 1)) ++ [(R.WIN_STATE_STATE 0, 4)])) with masked := [], mgt := { rig.mgt with jobs := [{ idx := 0, op := 6, tag := 5, ctx := 2, after := false, core := 2, ent := ([6, 0, 0, 0, 2, 0, 0, 0, 0, 3] ++ List.replicate 54 0), stage := 0, todo := [], acc := 0, t0 := 0 }] } } : State).rgsShut ({ idx := 0, op := 6, tag := 5, ctx := 2, after := false, core := 2, ent := ([6, 0, 0, 0, 2, 0, 0, 0, 0, 3] ++ List.replicate 54 0), stage := 0, todo := [], acc := 0, t0 := 0 } : Job).core = false) ∧
    (({ idx := 0, op := 6, tag := 5, ctx := 2, after := false, core := 2, ent := ([6, 0, 0, 0, 2, 0, 0, 0, 0, 3] ++ List.replicate 54 0), stage := 0, todo := [], acc := 0, t0 := 0 } : Job).stage = 0) ∧
    (({ (rig.puts ([(R.MGT_MODE_MODE, 1), (R.HLM_BOOT_STAT_STEP, 13)] ++ (List.range 11).map (fun n => (inService n, 1)) ++ [(R.WIN_STATE_STATE 0, 4)])) with masked := [], mgt := { rig.mgt with jobs := [{ idx := 0, op := 6, tag := 5, ctx := 2, after := false, core := 2, ent := ([6, 0, 0, 0, 2, 0, 0, 0, 0, 3] ++ List.replicate 54 0), stage := 0, todo := [], acc := 0, t0 := 0 }] } } : State).jobTurn ({ idx := 0, op := 6, tag := 5, ctx := 2, after := false, core := 2, ent := ([6, 0, 0, 0, 2, 0, 0, 0, 0, 3] ++ List.replicate 54 0), stage := 0, todo := [], acc := 0, t0 := 0 } : Job) = true) ∧
    (({ idx := 0, op := 6, tag := 5, ctx := 2, after := false, core := 2, ent := ([6, 0, 0, 0, 2, 0, 0, 0, 0, 3] ++ List.replicate 54 0), stage := 0, todo := [], acc := 0, t0 := 0 } : Job).malformed = false) ∧
    (({ (rig.puts ([(R.MGT_MODE_MODE, 1), (R.HLM_BOOT_STAT_STEP, 13)] ++ (List.range 11).map (fun n => (inService n, 1)) ++ [(R.WIN_STATE_STATE 0, 4)])) with masked := [], mgt := { rig.mgt with jobs := [{ idx := 0, op := 6, tag := 5, ctx := 2, after := false, core := 2, ent := ([6, 0, 0, 0, 2, 0, 0, 0, 0, 3] ++ List.replicate 54 0), stage := 0, todo := [], acc := 0, t0 := 0 }] } } : State).outOfRange ({ idx := 0, op := 6, tag := 5, ctx := 2, after := false, core := 2, ent := ([6, 0, 0, 0, 2, 0, 0, 0, 0, 3] ++ List.replicate 54 0), stage := 0, todo := [], acc := 0, t0 := 0 } : Job) = false) ∧
    (({ idx := 0, op := 6, tag := 5, ctx := 2, after := false, core := 2, ent := ([6, 0, 0, 0, 2, 0, 0, 0, 0, 3] ++ List.replicate 54 0), stage := 0, todo := [], acc := 0, t0 := 0 } : Job).opnd 9 1 = 3) ∧
    ((ran (({ (rig.puts ([(R.MGT_MODE_MODE, 1), (R.HLM_BOOT_STAT_STEP, 13)] ++ (List.range 11).map (fun n => (inService n, 1)) ++ [(R.WIN_STATE_STATE 0, 4)])) with masked := [], mgt := { rig.mgt with jobs := [{ idx := 0, op := 6, tag := 5, ctx := 2, after := false, core := 2, ent := ([6, 0, 0, 0, 2, 0, 0, 0, 0, 3] ++ List.replicate 54 0), stage := 0, todo := [], acc := 0, t0 := 0 }] } } : State).put R.WIN_BIND_STAT_REJ 0) (exec (.windowRelease .sch (Fin.ofNat 64 (({ idx := 0, op := 6, tag := 5, ctx := 2, after := false, core := 2, ent := ([6, 0, 0, 0, 2, 0, 0, 0, 0, 3] ++ List.replicate 54 0), stage := 0, todo := [], acc := 0, t0 := 0 } : Job).opnd 8 1)) 0) (({ (rig.puts ([(R.MGT_MODE_MODE, 1), (R.HLM_BOOT_STAT_STEP, 13)] ++ (List.range 11).map (fun n => (inService n, 1)) ++ [(R.WIN_STATE_STATE 0, 4)])) with masked := [], mgt := { rig.mgt with jobs := [{ idx := 0, op := 6, tag := 5, ctx := 2, after := false, core := 2, ent := ([6, 0, 0, 0, 2, 0, 0, 0, 0, 3] ++ List.replicate 54 0), stage := 0, todo := [], acc := 0, t0 := 0 }] } } : State).put R.WIN_BIND_STAT_REJ 0)) : State) = ran (({ (rig.puts ([(R.MGT_MODE_MODE, 1), (R.HLM_BOOT_STAT_STEP, 13)] ++ (List.range 11).map (fun n => (inService n, 1)) ++ [(R.WIN_STATE_STATE 0, 4)])) with masked := [], mgt := { rig.mgt with jobs := [{ idx := 0, op := 6, tag := 5, ctx := 2, after := false, core := 2, ent := ([6, 0, 0, 0, 2, 0, 0, 0, 0, 3] ++ List.replicate 54 0), stage := 0, todo := [], acc := 0, t0 := 0 }] } } : State).put R.WIN_BIND_STAT_REJ 0) (exec (.windowRelease .sch (Fin.ofNat 64 (({ idx := 0, op := 6, tag := 5, ctx := 2, after := false, core := 2, ent := ([6, 0, 0, 0, 2, 0, 0, 0, 0, 3] ++ List.replicate 54 0), stage := 0, todo := [], acc := 0, t0 := 0 } : Job).opnd 8 1)) 0) (({ (rig.puts ([(R.MGT_MODE_MODE, 1), (R.HLM_BOOT_STAT_STEP, 13)] ++ (List.range 11).map (fun n => (inService n, 1)) ++ [(R.WIN_STATE_STATE 0, 4)])) with masked := [], mgt := { rig.mgt with jobs := [{ idx := 0, op := 6, tag := 5, ctx := 2, after := false, core := 2, ent := ([6, 0, 0, 0, 2, 0, 0, 0, 0, 3] ++ List.replicate 54 0), stage := 0, todo := [], acc := 0, t0 := 0 }] } } : State).put R.WIN_BIND_STAT_REJ 0))) ∧
    ((ran (({ (rig.puts ([(R.MGT_MODE_MODE, 1), (R.HLM_BOOT_STAT_STEP, 13)] ++ (List.range 11).map (fun n => (inService n, 1)) ++ [(R.WIN_STATE_STATE 0, 4)])) with masked := [], mgt := { rig.mgt with jobs := [{ idx := 0, op := 6, tag := 5, ctx := 2, after := false, core := 2, ent := ([6, 0, 0, 0, 2, 0, 0, 0, 0, 3] ++ List.replicate 54 0), stage := 0, todo := [], acc := 0, t0 := 0 }] } } : State).put R.WIN_BIND_STAT_REJ 0) (exec (.windowRelease .sch (Fin.ofNat 64 (({ idx := 0, op := 6, tag := 5, ctx := 2, after := false, core := 2, ent := ([6, 0, 0, 0, 2, 0, 0, 0, 0, 3] ++ List.replicate 54 0), stage := 0, todo := [], acc := 0, t0 := 0 } : Job).opnd 8 1)) 0) (({ (rig.puts ([(R.MGT_MODE_MODE, 1), (R.HLM_BOOT_STAT_STEP, 13)] ++ (List.range 11).map (fun n => (inService n, 1)) ++ [(R.WIN_STATE_STATE 0, 4)])) with masked := [], mgt := { rig.mgt with jobs := [{ idx := 0, op := 6, tag := 5, ctx := 2, after := false, core := 2, ent := ([6, 0, 0, 0, 2, 0, 0, 0, 0, 3] ++ List.replicate 54 0), stage := 0, todo := [], acc := 0, t0 := 0 }] } } : State).put R.WIN_BIND_STAT_REJ 0)) : State).bit R.WIN_BIND_STAT_REJ = false) := by decide +kernel


theorem witness_unitSubmissionsComplete_sqRun :
    (({ (rig.puts ([(R.MGT_MODE_MODE, 1), (R.HLM_BOOT_STAT_STEP, 13)] ++ (List.range 11).map (fun n => (inService n, 1)))) with masked := [], mgt := { rig.mgt with jobs := [{ idx := 0, op := 7, tag := 5, ctx := 2, after := false, core := 2, ent := ([7, 0, 0, 0, 2, 0, 0, 0, 0, 64, 0, 0, 3, 0, 1] ++ List.replicate 49 0), stage := 0, todo := [], acc := 0, t0 := 0 }] } } : State).mgt.jobs.find? (fun z => decide (z.idx = (0 : W32).toNat) && decide (z.op = 0x07)) = some ({ idx := 0, op := 7, tag := 5, ctx := 2, after := false, core := 2, ent := ([7, 0, 0, 0, 2, 0, 0, 0, 0, 64, 0, 0, 3, 0, 1] ++ List.replicate 49 0), stage := 0, todo := [], acc := 0, t0 := 0 } : Job)) ∧
    (({ (rig.puts ([(R.MGT_MODE_MODE, 1), (R.HLM_BOOT_STAT_STEP, 13)] ++ (List.range 11).map (fun n => (inService n, 1)))) with masked := [], mgt := { rig.mgt with jobs := [{ idx := 0, op := 7, tag := 5, ctx := 2, after := false, core := 2, ent := ([7, 0, 0, 0, 2, 0, 0, 0, 0, 64, 0, 0, 3, 0, 1] ++ List.replicate 49 0), stage := 0, todo := [], acc := 0, t0 := 0 }] } } : State).coreDown ({ idx := 0, op := 7, tag := 5, ctx := 2, after := false, core := 2, ent := ([7, 0, 0, 0, 2, 0, 0, 0, 0, 64, 0, 0, 3, 0, 1] ++ List.replicate 49 0), stage := 0, todo := [], acc := 0, t0 := 0 } : Job).core = false) ∧
    (({ (rig.puts ([(R.MGT_MODE_MODE, 1), (R.HLM_BOOT_STAT_STEP, 13)] ++ (List.range 11).map (fun n => (inService n, 1)))) with masked := [], mgt := { rig.mgt with jobs := [{ idx := 0, op := 7, tag := 5, ctx := 2, after := false, core := 2, ent := ([7, 0, 0, 0, 2, 0, 0, 0, 0, 64, 0, 0, 3, 0, 1] ++ List.replicate 49 0), stage := 0, todo := [], acc := 0, t0 := 0 }] } } : State).coreLive ({ idx := 0, op := 7, tag := 5, ctx := 2, after := false, core := 2, ent := ([7, 0, 0, 0, 2, 0, 0, 0, 0, 64, 0, 0, 3, 0, 1] ++ List.replicate 49 0), stage := 0, todo := [], acc := 0, t0 := 0 } : Job).core = true) ∧
    (({ (rig.puts ([(R.MGT_MODE_MODE, 1), (R.HLM_BOOT_STAT_STEP, 13)] ++ (List.range 11).map (fun n => (inService n, 1)))) with masked := [], mgt := { rig.mgt with jobs := [{ idx := 0, op := 7, tag := 5, ctx := 2, after := false, core := 2, ent := ([7, 0, 0, 0, 2, 0, 0, 0, 0, 64, 0, 0, 3, 0, 1] ++ List.replicate 49 0), stage := 0, todo := [], acc := 0, t0 := 0 }] } } : State).rgsShut ({ idx := 0, op := 7, tag := 5, ctx := 2, after := false, core := 2, ent := ([7, 0, 0, 0, 2, 0, 0, 0, 0, 64, 0, 0, 3, 0, 1] ++ List.replicate 49 0), stage := 0, todo := [], acc := 0, t0 := 0 } : Job).core = false) ∧
    (({ idx := 0, op := 7, tag := 5, ctx := 2, after := false, core := 2, ent := ([7, 0, 0, 0, 2, 0, 0, 0, 0, 64, 0, 0, 3, 0, 1] ++ List.replicate 49 0), stage := 0, todo := [], acc := 0, t0 := 0 } : Job).stage = 0) ∧
    (({ (rig.puts ([(R.MGT_MODE_MODE, 1), (R.HLM_BOOT_STAT_STEP, 13)] ++ (List.range 11).map (fun n => (inService n, 1)))) with masked := [], mgt := { rig.mgt with jobs := [{ idx := 0, op := 7, tag := 5, ctx := 2, after := false, core := 2, ent := ([7, 0, 0, 0, 2, 0, 0, 0, 0, 64, 0, 0, 3, 0, 1] ++ List.replicate 49 0), stage := 0, todo := [], acc := 0, t0 := 0 }] } } : State).jobTurn ({ idx := 0, op := 7, tag := 5, ctx := 2, after := false, core := 2, ent := ([7, 0, 0, 0, 2, 0, 0, 0, 0, 64, 0, 0, 3, 0, 1] ++ List.replicate 49 0), stage := 0, todo := [], acc := 0, t0 := 0 } : Job) = true) ∧
    (({ idx := 0, op := 7, tag := 5, ctx := 2, after := false, core := 2, ent := ([7, 0, 0, 0, 2, 0, 0, 0, 0, 64, 0, 0, 3, 0, 1] ++ List.replicate 49 0), stage := 0, todo := [], acc := 0, t0 := 0 } : Job).malformed = false) ∧
    (({ (rig.puts ([(R.MGT_MODE_MODE, 1), (R.HLM_BOOT_STAT_STEP, 13)] ++ (List.range 11).map (fun n => (inService n, 1)))) with masked := [], mgt := { rig.mgt with jobs := [{ idx := 0, op := 7, tag := 5, ctx := 2, after := false, core := 2, ent := ([7, 0, 0, 0, 2, 0, 0, 0, 0, 64, 0, 0, 3, 0, 1] ++ List.replicate 49 0), stage := 0, todo := [], acc := 0, t0 := 0 }] } } : State).outOfRange ({ idx := 0, op := 7, tag := 5, ctx := 2, after := false, core := 2, ent := ([7, 0, 0, 0, 2, 0, 0, 0, 0, 64, 0, 0, 3, 0, 1] ++ List.replicate 49 0), stage := 0, todo := [], acc := 0, t0 := 0 } : Job) = false) ∧
    (({ (rig.puts ([(R.MGT_MODE_MODE, 1), (R.HLM_BOOT_STAT_STEP, 13)] ++ (List.range 11).map (fun n => (inService n, 1)))) with masked := [], mgt := { rig.mgt with jobs := [{ idx := 0, op := 7, tag := 5, ctx := 2, after := false, core := 2, ent := ([7, 0, 0, 0, 2, 0, 0, 0, 0, 64, 0, 0, 3, 0, 1] ++ List.replicate 49 0), stage := 0, todo := [], acc := 0, t0 := 0 }] } } : State).curCab (({ idx := 0, op := 7, tag := 5, ctx := 2, after := false, core := 2, ent := ([7, 0, 0, 0, 2, 0, 0, 0, 0, 64, 0, 0, 3, 0, 1] ++ List.replicate 49 0), stage := 0, todo := [], acc := 0, t0 := 0 } : Job).opnd 14 1) = some (1 : Nat)) ∧
    (({ (rig.puts ([(R.MGT_MODE_MODE, 1), (R.HLM_BOOT_STAT_STEP, 13)] ++ (List.range 11).map (fun n => (inService n, 1)))) with masked := [], mgt := { rig.mgt with jobs := [{ idx := 0, op := 7, tag := 5, ctx := 2, after := false, core := 2, ent := ([7, 0, 0, 0, 2, 0, 0, 0, 0, 64, 0, 0, 3, 0, 1] ++ List.replicate 49 0), stage := 0, todo := [], acc := 0, t0 := 0 }] } } : State).cabAns (1 : Nat) = true) ∧
    ((ran (({ (rig.puts ([(R.MGT_MODE_MODE, 1), (R.HLM_BOOT_STAT_STEP, 13)] ++ (List.range 11).map (fun n => (inService n, 1)))) with masked := [], mgt := { rig.mgt with jobs := [{ idx := 0, op := 7, tag := 5, ctx := 2, after := false, core := 2, ent := ([7, 0, 0, 0, 2, 0, 0, 0, 0, 64, 0, 0, 3, 0, 1] ++ List.replicate 49 0), stage := 0, todo := [], acc := 0, t0 := 0 }] } } : State).setReg (R.RUN_RN_LIST_FA (1 : Nat) (({ idx := 0, op := 7, tag := 5, ctx := 2, after := false, core := 2, ent := ([7, 0, 0, 0, 2, 0, 0, 0, 0, 64, 0, 0, 3, 0, 1] ++ List.replicate 49 0), stage := 0, todo := [], acc := 0, t0 := 0 } : Job).opnd 15 1 % 4)) (BitVec.ofNat 32 (({ idx := 0, op := 7, tag := 5, ctx := 2, after := false, core := 2, ent := ([7, 0, 0, 0, 2, 0, 0, 0, 0, 64, 0, 0, 3, 0, 1] ++ List.replicate 49 0), stage := 0, todo := [], acc := 0, t0 := 0 } : Job).opnd 8 4))) (exec (.runnerListGo .sch (Fin.ofNat 128 (1 : Nat)) (Fin.ofNat 4 (({ idx := 0, op := 7, tag := 5, ctx := 2, after := false, core := 2, ent := ([7, 0, 0, 0, 2, 0, 0, 0, 0, 64, 0, 0, 3, 0, 1] ++ List.replicate 49 0), stage := 0, todo := [], acc := 0, t0 := 0 } : Job).opnd 15 1 % 4)) (BitVec.ofNat 32 (({ idx := 0, op := 7, tag := 5, ctx := 2, after := false, core := 2, ent := ([7, 0, 0, 0, 2, 0, 0, 0, 0, 64, 0, 0, 3, 0, 1] ++ List.replicate 49 0), stage := 0, todo := [], acc := 0, t0 := 0 } : Job).opnd 12 2 + ({ idx := 0, op := 7, tag := 5, ctx := 2, after := false, core := 2, ent := ([7, 0, 0, 0, 2, 0, 0, 0, 0, 64, 0, 0, 3, 0, 1] ++ List.replicate 49 0), stage := 0, todo := [], acc := 0, t0 := 0 } : Job).ctx * 2 ^ 16 + ({ idx := 0, op := 7, tag := 5, ctx := 2, after := false, core := 2, ent := ([7, 0, 0, 0, 2, 0, 0, 0, 0, 64, 0, 0, 3, 0, 1] ++ List.replicate 49 0), stage := 0, todo := [], acc := 0, t0 := 0 } : Job).opnd 15 1 / 4 * 2 ^ 20 + ({ idx := 0, op := 7, tag := 5, ctx := 2, after := false, core := 2, ent := ([7, 0, 0, 0, 2, 0, 0, 0, 0, 64, 0, 0, 3, 0, 1] ++ List.replicate 49 0), stage := 0, todo := [], acc := 0, t0 := 0 } : Job).idx % 256 * 2 ^ 21 + 2 ^ 29 + 2 ^ 31))) (({ (rig.puts ([(R.MGT_MODE_MODE, 1), (R.HLM_BOOT_STAT_STEP, 13)] ++ (List.range 11).map (fun n => (inService n, 1)))) with masked := [], mgt := { rig.mgt with jobs := [{ idx := 0, op := 7, tag := 5, ctx := 2, after := false, core := 2, ent := ([7, 0, 0, 0, 2, 0, 0, 0, 0, 64, 0, 0, 3, 0, 1] ++ List.replicate 49 0), stage := 0, todo := [], acc := 0, t0 := 0 }] } } : State).setReg (R.RUN_RN_LIST_FA (1 : Nat) (({ idx := 0, op := 7, tag := 5, ctx := 2, after := false, core := 2, ent := ([7, 0, 0, 0, 2, 0, 0, 0, 0, 64, 0, 0, 3, 0, 1] ++ List.replicate 49 0), stage := 0, todo := [], acc := 0, t0 := 0 } : Job).opnd 15 1 % 4)) (BitVec.ofNat 32 (({ idx := 0, op := 7, tag := 5, ctx := 2, after := false, core := 2, ent := ([7, 0, 0, 0, 2, 0, 0, 0, 0, 64, 0, 0, 3, 0, 1] ++ List.replicate 49 0), stage := 0, todo := [], acc := 0, t0 := 0 } : Job).opnd 8 4)))) : State) = ran (({ (rig.puts ([(R.MGT_MODE_MODE, 1), (R.HLM_BOOT_STAT_STEP, 13)] ++ (List.range 11).map (fun n => (inService n, 1)))) with masked := [], mgt := { rig.mgt with jobs := [{ idx := 0, op := 7, tag := 5, ctx := 2, after := false, core := 2, ent := ([7, 0, 0, 0, 2, 0, 0, 0, 0, 64, 0, 0, 3, 0, 1] ++ List.replicate 49 0), stage := 0, todo := [], acc := 0, t0 := 0 }] } } : State).setReg (R.RUN_RN_LIST_FA (1 : Nat) (({ idx := 0, op := 7, tag := 5, ctx := 2, after := false, core := 2, ent := ([7, 0, 0, 0, 2, 0, 0, 0, 0, 64, 0, 0, 3, 0, 1] ++ List.replicate 49 0), stage := 0, todo := [], acc := 0, t0 := 0 } : Job).opnd 15 1 % 4)) (BitVec.ofNat 32 (({ idx := 0, op := 7, tag := 5, ctx := 2, after := false, core := 2, ent := ([7, 0, 0, 0, 2, 0, 0, 0, 0, 64, 0, 0, 3, 0, 1] ++ List.replicate 49 0), stage := 0, todo := [], acc := 0, t0 := 0 } : Job).opnd 8 4))) (exec (.runnerListGo .sch (Fin.ofNat 128 (1 : Nat)) (Fin.ofNat 4 (({ idx := 0, op := 7, tag := 5, ctx := 2, after := false, core := 2, ent := ([7, 0, 0, 0, 2, 0, 0, 0, 0, 64, 0, 0, 3, 0, 1] ++ List.replicate 49 0), stage := 0, todo := [], acc := 0, t0 := 0 } : Job).opnd 15 1 % 4)) (BitVec.ofNat 32 (({ idx := 0, op := 7, tag := 5, ctx := 2, after := false, core := 2, ent := ([7, 0, 0, 0, 2, 0, 0, 0, 0, 64, 0, 0, 3, 0, 1] ++ List.replicate 49 0), stage := 0, todo := [], acc := 0, t0 := 0 } : Job).opnd 12 2 + ({ idx := 0, op := 7, tag := 5, ctx := 2, after := false, core := 2, ent := ([7, 0, 0, 0, 2, 0, 0, 0, 0, 64, 0, 0, 3, 0, 1] ++ List.replicate 49 0), stage := 0, todo := [], acc := 0, t0 := 0 } : Job).ctx * 2 ^ 16 + ({ idx := 0, op := 7, tag := 5, ctx := 2, after := false, core := 2, ent := ([7, 0, 0, 0, 2, 0, 0, 0, 0, 64, 0, 0, 3, 0, 1] ++ List.replicate 49 0), stage := 0, todo := [], acc := 0, t0 := 0 } : Job).opnd 15 1 / 4 * 2 ^ 20 + ({ idx := 0, op := 7, tag := 5, ctx := 2, after := false, core := 2, ent := ([7, 0, 0, 0, 2, 0, 0, 0, 0, 64, 0, 0, 3, 0, 1] ++ List.replicate 49 0), stage := 0, todo := [], acc := 0, t0 := 0 } : Job).idx % 256 * 2 ^ 21 + 2 ^ 29 + 2 ^ 31))) (({ (rig.puts ([(R.MGT_MODE_MODE, 1), (R.HLM_BOOT_STAT_STEP, 13)] ++ (List.range 11).map (fun n => (inService n, 1)))) with masked := [], mgt := { rig.mgt with jobs := [{ idx := 0, op := 7, tag := 5, ctx := 2, after := false, core := 2, ent := ([7, 0, 0, 0, 2, 0, 0, 0, 0, 64, 0, 0, 3, 0, 1] ++ List.replicate 49 0), stage := 0, todo := [], acc := 0, t0 := 0 }] } } : State).setReg (R.RUN_RN_LIST_FA (1 : Nat) (({ idx := 0, op := 7, tag := 5, ctx := 2, after := false, core := 2, ent := ([7, 0, 0, 0, 2, 0, 0, 0, 0, 64, 0, 0, 3, 0, 1] ++ List.replicate 49 0), stage := 0, todo := [], acc := 0, t0 := 0 } : Job).opnd 15 1 % 4)) (BitVec.ofNat 32 (({ idx := 0, op := 7, tag := 5, ctx := 2, after := false, core := 2, ent := ([7, 0, 0, 0, 2, 0, 0, 0, 0, 64, 0, 0, 3, 0, 1] ++ List.replicate 49 0), stage := 0, todo := [], acc := 0, t0 := 0 } : Job).opnd 8 4))))) ∧
    ((ran (({ (rig.puts ([(R.MGT_MODE_MODE, 1), (R.HLM_BOOT_STAT_STEP, 13)] ++ (List.range 11).map (fun n => (inService n, 1)))) with masked := [], mgt := { rig.mgt with jobs := [{ idx := 0, op := 7, tag := 5, ctx := 2, after := false, core := 2, ent := ([7, 0, 0, 0, 2, 0, 0, 0, 0, 64, 0, 0, 3, 0, 1] ++ List.replicate 49 0), stage := 0, todo := [], acc := 0, t0 := 0 }] } } : State).setReg (R.RUN_RN_LIST_FA (1 : Nat) (({ idx := 0, op := 7, tag := 5, ctx := 2, after := false, core := 2, ent := ([7, 0, 0, 0, 2, 0, 0, 0, 0, 64, 0, 0, 3, 0, 1] ++ List.replicate 49 0), stage := 0, todo := [], acc := 0, t0 := 0 } : Job).opnd 15 1 % 4)) (BitVec.ofNat 32 (({ idx := 0, op := 7, tag := 5, ctx := 2, after := false, core := 2, ent := ([7, 0, 0, 0, 2, 0, 0, 0, 0, 64, 0, 0, 3, 0, 1] ++ List.replicate 49 0), stage := 0, todo := [], acc := 0, t0 := 0 } : Job).opnd 8 4))) (exec (.runnerListGo .sch (Fin.ofNat 128 (1 : Nat)) (Fin.ofNat 4 (({ idx := 0, op := 7, tag := 5, ctx := 2, after := false, core := 2, ent := ([7, 0, 0, 0, 2, 0, 0, 0, 0, 64, 0, 0, 3, 0, 1] ++ List.replicate 49 0), stage := 0, todo := [], acc := 0, t0 := 0 } : Job).opnd 15 1 % 4)) (BitVec.ofNat 32 (({ idx := 0, op := 7, tag := 5, ctx := 2, after := false, core := 2, ent := ([7, 0, 0, 0, 2, 0, 0, 0, 0, 64, 0, 0, 3, 0, 1] ++ List.replicate 49 0), stage := 0, todo := [], acc := 0, t0 := 0 } : Job).opnd 12 2 + ({ idx := 0, op := 7, tag := 5, ctx := 2, after := false, core := 2, ent := ([7, 0, 0, 0, 2, 0, 0, 0, 0, 64, 0, 0, 3, 0, 1] ++ List.replicate 49 0), stage := 0, todo := [], acc := 0, t0 := 0 } : Job).ctx * 2 ^ 16 + ({ idx := 0, op := 7, tag := 5, ctx := 2, after := false, core := 2, ent := ([7, 0, 0, 0, 2, 0, 0, 0, 0, 64, 0, 0, 3, 0, 1] ++ List.replicate 49 0), stage := 0, todo := [], acc := 0, t0 := 0 } : Job).opnd 15 1 / 4 * 2 ^ 20 + ({ idx := 0, op := 7, tag := 5, ctx := 2, after := false, core := 2, ent := ([7, 0, 0, 0, 2, 0, 0, 0, 0, 64, 0, 0, 3, 0, 1] ++ List.replicate 49 0), stage := 0, todo := [], acc := 0, t0 := 0 } : Job).idx % 256 * 2 ^ 21 + 2 ^ 29 + 2 ^ 31))) (({ (rig.puts ([(R.MGT_MODE_MODE, 1), (R.HLM_BOOT_STAT_STEP, 13)] ++ (List.range 11).map (fun n => (inService n, 1)))) with masked := [], mgt := { rig.mgt with jobs := [{ idx := 0, op := 7, tag := 5, ctx := 2, after := false, core := 2, ent := ([7, 0, 0, 0, 2, 0, 0, 0, 0, 64, 0, 0, 3, 0, 1] ++ List.replicate 49 0), stage := 0, todo := [], acc := 0, t0 := 0 }] } } : State).setReg (R.RUN_RN_LIST_FA (1 : Nat) (({ idx := 0, op := 7, tag := 5, ctx := 2, after := false, core := 2, ent := ([7, 0, 0, 0, 2, 0, 0, 0, 0, 64, 0, 0, 3, 0, 1] ++ List.replicate 49 0), stage := 0, todo := [], acc := 0, t0 := 0 } : Job).opnd 15 1 % 4)) (BitVec.ofNat 32 (({ idx := 0, op := 7, tag := 5, ctx := 2, after := false, core := 2, ent := ([7, 0, 0, 0, 2, 0, 0, 0, 0, 64, 0, 0, 3, 0, 1] ++ List.replicate 49 0), stage := 0, todo := [], acc := 0, t0 := 0 } : Job).opnd 8 4)))) : State).bit (R.RUN_RN_LIST_CTL_REJ (1 : Nat) (({ idx := 0, op := 7, tag := 5, ctx := 2, after := false, core := 2, ent := ([7, 0, 0, 0, 2, 0, 0, 0, 0, 64, 0, 0, 3, 0, 1] ++ List.replicate 49 0), stage := 0, todo := [], acc := 0, t0 := 0 } : Job).opnd 15 1 % 4)) = false) := by decide +kernel

theorem witness_unitSubmissionsComplete_sqRun_over :
    (({ (rig.puts ([(R.MGT_MODE_MODE, 1), (R.HLM_BOOT_STAT_STEP, 13)] ++ (List.range 11).map (fun n => (inService n, 1)))) with masked := [], mgt := { rig.mgt with jobs := [{ idx := 0, op := 7, tag := 5, ctx := 0, after := false, core := 2, ent := ([7, 0, 0, 0, 0] ++ List.replicate 59 0), stage := 1, todo := [0], acc := 0, t0 := 0 }] }, runners := [(0, { RunSt.idle with cmpl := [{ blankCmpl 0 2 with done := 3 }] })] } : State).mgt.jobs.find? (fun z => decide (z.idx = (0 : W32).toNat) && decide (z.op = 0x07)) = some ({ idx := 0, op := 7, tag := 5, ctx := 0, after := false, core := 2, ent := ([7, 0, 0, 0, 0] ++ List.replicate 59 0), stage := 1, todo := [0], acc := 0, t0 := 0 } : Job)) ∧
    (({ (rig.puts ([(R.MGT_MODE_MODE, 1), (R.HLM_BOOT_STAT_STEP, 13)] ++ (List.range 11).map (fun n => (inService n, 1)))) with masked := [], mgt := { rig.mgt with jobs := [{ idx := 0, op := 7, tag := 5, ctx := 0, after := false, core := 2, ent := ([7, 0, 0, 0, 0] ++ List.replicate 59 0), stage := 1, todo := [0], acc := 0, t0 := 0 }] }, runners := [(0, { RunSt.idle with cmpl := [{ blankCmpl 0 2 with done := 3 }] })] } : State).coreDown ({ idx := 0, op := 7, tag := 5, ctx := 0, after := false, core := 2, ent := ([7, 0, 0, 0, 0] ++ List.replicate 59 0), stage := 1, todo := [0], acc := 0, t0 := 0 } : Job).core = false) ∧
    (({ (rig.puts ([(R.MGT_MODE_MODE, 1), (R.HLM_BOOT_STAT_STEP, 13)] ++ (List.range 11).map (fun n => (inService n, 1)))) with masked := [], mgt := { rig.mgt with jobs := [{ idx := 0, op := 7, tag := 5, ctx := 0, after := false, core := 2, ent := ([7, 0, 0, 0, 0] ++ List.replicate 59 0), stage := 1, todo := [0], acc := 0, t0 := 0 }] }, runners := [(0, { RunSt.idle with cmpl := [{ blankCmpl 0 2 with done := 3 }] })] } : State).coreLive ({ idx := 0, op := 7, tag := 5, ctx := 0, after := false, core := 2, ent := ([7, 0, 0, 0, 0] ++ List.replicate 59 0), stage := 1, todo := [0], acc := 0, t0 := 0 } : Job).core = true) ∧
    (({ (rig.puts ([(R.MGT_MODE_MODE, 1), (R.HLM_BOOT_STAT_STEP, 13)] ++ (List.range 11).map (fun n => (inService n, 1)))) with masked := [], mgt := { rig.mgt with jobs := [{ idx := 0, op := 7, tag := 5, ctx := 0, after := false, core := 2, ent := ([7, 0, 0, 0, 0] ++ List.replicate 59 0), stage := 1, todo := [0], acc := 0, t0 := 0 }] }, runners := [(0, { RunSt.idle with cmpl := [{ blankCmpl 0 2 with done := 3 }] })] } : State).rgsShut ({ idx := 0, op := 7, tag := 5, ctx := 0, after := false, core := 2, ent := ([7, 0, 0, 0, 0] ++ List.replicate 59 0), stage := 1, todo := [0], acc := 0, t0 := 0 } : Job).core = false) ∧
    (({ idx := 0, op := 7, tag := 5, ctx := 0, after := false, core := 2, ent := ([7, 0, 0, 0, 0] ++ List.replicate 59 0), stage := 1, todo := [0], acc := 0, t0 := 0 } : Job).stage = 1) ∧
    (({ idx := 0, op := 7, tag := 5, ctx := 0, after := false, core := 2, ent := ([7, 0, 0, 0, 0] ++ List.replicate 59 0), stage := 1, todo := [0], acc := 0, t0 := 0 } : Job).todo = [(0 : Nat)]) ∧
    ((({ (rig.puts ([(R.MGT_MODE_MODE, 1), (R.HLM_BOOT_STAT_STEP, 13)] ++ (List.range 11).map (fun n => (inService n, 1)))) with masked := [], mgt := { rig.mgt with jobs := [{ idx := 0, op := 7, tag := 5, ctx := 0, after := false, core := 2, ent := ([7, 0, 0, 0, 0] ++ List.replicate 59 0), stage := 1, todo := [0], acc := 0, t0 := 0 }] }, runners := [(0, { RunSt.idle with cmpl := [{ blankCmpl 0 2 with done := 3 }] })] } : State).runner (0 : Nat) (({ idx := 0, op := 7, tag := 5, ctx := 0, after := false, core := 2, ent := ([7, 0, 0, 0, 0] ++ List.replicate 59 0), stage := 1, todo := [0], acc := 0, t0 := 0 } : Job).opnd 15 1 % 4)).cmpl = ({ blankCmpl 0 2 with done := 3 } : Cmpl) :: ([] : List Cmpl)) ∧
    (({ blankCmpl 0 2 with done := 3 } : Cmpl).tag = ({ idx := 0, op := 7, tag := 5, ctx := 0, after := false, core := 2, ent := ([7, 0, 0, 0, 0] ++ List.replicate 59 0), stage := 1, todo := [0], acc := 0, t0 := 0 } : Job).idx % 256) ∧
    (({ blankCmpl 0 2 with done := 3 } : Cmpl).status ≠ 10) ∧
    (({ (rig.puts ([(R.MGT_MODE_MODE, 1), (R.HLM_BOOT_STAT_STEP, 13)] ++ (List.range 11).map (fun n => (inService n, 1)))) with masked := [], mgt := { rig.mgt with jobs := [{ idx := 0, op := 7, tag := 5, ctx := 0, after := false, core := 2, ent := ([7, 0, 0, 0, 0] ++ List.replicate 59 0), stage := 1, todo := [0], acc := 0, t0 := 0 }] }, runners := [(0, { RunSt.idle with cmpl := [{ blankCmpl 0 2 with done := 3 }] })] } : State).cqSpace = true) ∧
    (({ (rig.puts ([(R.MGT_MODE_MODE, 1), (R.HLM_BOOT_STAT_STEP, 13)] ++ (List.range 11).map (fun n => (inService n, 1)))) with masked := [], mgt := { rig.mgt with jobs := [{ idx := 0, op := 7, tag := 5, ctx := 0, after := false, core := 2, ent := ([7, 0, 0, 0, 0] ++ List.replicate 59 0), stage := 1, todo := [0], acc := 0, t0 := 0 }] }, runners := [(0, { RunSt.idle with cmpl := [{ blankCmpl 0 2 with done := 3 }] })] } : State).cabAns (0 : Nat) = true) ∧
    ((ran ({ (rig.puts ([(R.MGT_MODE_MODE, 1), (R.HLM_BOOT_STAT_STEP, 13)] ++ (List.range 11).map (fun n => (inService n, 1)))) with masked := [], mgt := { rig.mgt with jobs := [{ idx := 0, op := 7, tag := 5, ctx := 0, after := false, core := 2, ent := ([7, 0, 0, 0, 0] ++ List.replicate 59 0), stage := 1, todo := [0], acc := 0, t0 := 0 }] }, runners := [(0, { RunSt.idle with cmpl := [{ blankCmpl 0 2 with done := 3 }] })] } : State) (exec (.cmplPop .sch (Fin.ofNat 128 (0 : Nat)) (Fin.ofNat 4 (({ idx := 0, op := 7, tag := 5, ctx := 0, after := false, core := 2, ent := ([7, 0, 0, 0, 0] ++ List.replicate 59 0), stage := 1, todo := [0], acc := 0, t0 := 0 } : Job).opnd 15 1 % 4)) 1) ({ (rig.puts ([(R.MGT_MODE_MODE, 1), (R.HLM_BOOT_STAT_STEP, 13)] ++ (List.range 11).map (fun n => (inService n, 1)))) with masked := [], mgt := { rig.mgt with jobs := [{ idx := 0, op := 7, tag := 5, ctx := 0, after := false, core := 2, ent := ([7, 0, 0, 0, 0] ++ List.replicate 59 0), stage := 1, todo := [0], acc := 0, t0 := 0 }] }, runners := [(0, { RunSt.idle with cmpl := [{ blankCmpl 0 2 with done := 3 }] })] } : State)) : State) = ran ({ (rig.puts ([(R.MGT_MODE_MODE, 1), (R.HLM_BOOT_STAT_STEP, 13)] ++ (List.range 11).map (fun n => (inService n, 1)))) with masked := [], mgt := { rig.mgt with jobs := [{ idx := 0, op := 7, tag := 5, ctx := 0, after := false, core := 2, ent := ([7, 0, 0, 0, 0] ++ List.replicate 59 0), stage := 1, todo := [0], acc := 0, t0 := 0 }] }, runners := [(0, { RunSt.idle with cmpl := [{ blankCmpl 0 2 with done := 3 }] })] } : State) (exec (.cmplPop .sch (Fin.ofNat 128 (0 : Nat)) (Fin.ofNat 4 (({ idx := 0, op := 7, tag := 5, ctx := 0, after := false, core := 2, ent := ([7, 0, 0, 0, 0] ++ List.replicate 59 0), stage := 1, todo := [0], acc := 0, t0 := 0 } : Job).opnd 15 1 % 4)) 1) ({ (rig.puts ([(R.MGT_MODE_MODE, 1), (R.HLM_BOOT_STAT_STEP, 13)] ++ (List.range 11).map (fun n => (inService n, 1)))) with masked := [], mgt := { rig.mgt with jobs := [{ idx := 0, op := 7, tag := 5, ctx := 0, after := false, core := 2, ent := ([7, 0, 0, 0, 0] ++ List.replicate 59 0), stage := 1, todo := [0], acc := 0, t0 := 0 }] }, runners := [(0, { RunSt.idle with cmpl := [{ blankCmpl 0 2 with done := 3 }] })] } : State))) := by decide +kernel

theorem witness_unitSubmissionsComplete_sqSync :
    (({ (rig.puts ([(R.MGT_MODE_MODE, 1), (R.HLM_BOOT_STAT_STEP, 13)] ++ (List.range 11).map (fun n => (inService n, 1)))) with masked := [], mgt := { rig.mgt with jobs := [{ idx := 0, op := 8, tag := 5, ctx := 2, after := false, core := 2, ent := ([8, 0, 0, 0, 2, 0, 0, 0, 1, 1, 0, 0, 0, 0, 0, 0, 1] ++ List.replicate 47 0), stage := 0, todo := [], acc := 0, t0 := 0 }] } } : State).mgt.jobs.find? (fun z => decide (z.idx = (0 : W32).toNat) && decide (z.op = 0x08)) = some ({ idx := 0, op := 8, tag := 5, ctx := 2, after := false, core := 2, ent := ([8, 0, 0, 0, 2, 0, 0, 0, 1, 1, 0, 0, 0, 0, 0, 0, 1] ++ List.replicate 47 0), stage := 0, todo := [], acc := 0, t0 := 0 } : Job)) ∧
    (({ (rig.puts ([(R.MGT_MODE_MODE, 1), (R.HLM_BOOT_STAT_STEP, 13)] ++ (List.range 11).map (fun n => (inService n, 1)))) with masked := [], mgt := { rig.mgt with jobs := [{ idx := 0, op := 8, tag := 5, ctx := 2, after := false, core := 2, ent := ([8, 0, 0, 0, 2, 0, 0, 0, 1, 1, 0, 0, 0, 0, 0, 0, 1] ++ List.replicate 47 0), stage := 0, todo := [], acc := 0, t0 := 0 }] } } : State).coreDown ({ idx := 0, op := 8, tag := 5, ctx := 2, after := false, core := 2, ent := ([8, 0, 0, 0, 2, 0, 0, 0, 1, 1, 0, 0, 0, 0, 0, 0, 1] ++ List.replicate 47 0), stage := 0, todo := [], acc := 0, t0 := 0 } : Job).core = false) ∧
    (({ (rig.puts ([(R.MGT_MODE_MODE, 1), (R.HLM_BOOT_STAT_STEP, 13)] ++ (List.range 11).map (fun n => (inService n, 1)))) with masked := [], mgt := { rig.mgt with jobs := [{ idx := 0, op := 8, tag := 5, ctx := 2, after := false, core := 2, ent := ([8, 0, 0, 0, 2, 0, 0, 0, 1, 1, 0, 0, 0, 0, 0, 0, 1] ++ List.replicate 47 0), stage := 0, todo := [], acc := 0, t0 := 0 }] } } : State).coreLive ({ idx := 0, op := 8, tag := 5, ctx := 2, after := false, core := 2, ent := ([8, 0, 0, 0, 2, 0, 0, 0, 1, 1, 0, 0, 0, 0, 0, 0, 1] ++ List.replicate 47 0), stage := 0, todo := [], acc := 0, t0 := 0 } : Job).core = true) ∧
    (({ (rig.puts ([(R.MGT_MODE_MODE, 1), (R.HLM_BOOT_STAT_STEP, 13)] ++ (List.range 11).map (fun n => (inService n, 1)))) with masked := [], mgt := { rig.mgt with jobs := [{ idx := 0, op := 8, tag := 5, ctx := 2, after := false, core := 2, ent := ([8, 0, 0, 0, 2, 0, 0, 0, 1, 1, 0, 0, 0, 0, 0, 0, 1] ++ List.replicate 47 0), stage := 0, todo := [], acc := 0, t0 := 0 }] } } : State).rgsShut ({ idx := 0, op := 8, tag := 5, ctx := 2, after := false, core := 2, ent := ([8, 0, 0, 0, 2, 0, 0, 0, 1, 1, 0, 0, 0, 0, 0, 0, 1] ++ List.replicate 47 0), stage := 0, todo := [], acc := 0, t0 := 0 } : Job).core = false) ∧
    (({ idx := 0, op := 8, tag := 5, ctx := 2, after := false, core := 2, ent := ([8, 0, 0, 0, 2, 0, 0, 0, 1, 1, 0, 0, 0, 0, 0, 0, 1] ++ List.replicate 47 0), stage := 0, todo := [], acc := 0, t0 := 0 } : Job).stage = 0) ∧
    (({ (rig.puts ([(R.MGT_MODE_MODE, 1), (R.HLM_BOOT_STAT_STEP, 13)] ++ (List.range 11).map (fun n => (inService n, 1)))) with masked := [], mgt := { rig.mgt with jobs := [{ idx := 0, op := 8, tag := 5, ctx := 2, after := false, core := 2, ent := ([8, 0, 0, 0, 2, 0, 0, 0, 1, 1, 0, 0, 0, 0, 0, 0, 1] ++ List.replicate 47 0), stage := 0, todo := [], acc := 0, t0 := 0 }] } } : State).jobTurn ({ idx := 0, op := 8, tag := 5, ctx := 2, after := false, core := 2, ent := ([8, 0, 0, 0, 2, 0, 0, 0, 1, 1, 0, 0, 0, 0, 0, 0, 1] ++ List.replicate 47 0), stage := 0, todo := [], acc := 0, t0 := 0 } : Job) = true) ∧
    (({ idx := 0, op := 8, tag := 5, ctx := 2, after := false, core := 2, ent := ([8, 0, 0, 0, 2, 0, 0, 0, 1, 1, 0, 0, 0, 0, 0, 0, 1] ++ List.replicate 47 0), stage := 0, todo := [], acc := 0, t0 := 0 } : Job).malformed = false) ∧
    (({ (rig.puts ([(R.MGT_MODE_MODE, 1), (R.HLM_BOOT_STAT_STEP, 13)] ++ (List.range 11).map (fun n => (inService n, 1)))) with masked := [], mgt := { rig.mgt with jobs := [{ idx := 0, op := 8, tag := 5, ctx := 2, after := false, core := 2, ent := ([8, 0, 0, 0, 2, 0, 0, 0, 1, 1, 0, 0, 0, 0, 0, 0, 1] ++ List.replicate 47 0), stage := 0, todo := [], acc := 0, t0 := 0 }] } } : State).outOfRange ({ idx := 0, op := 8, tag := 5, ctx := 2, after := false, core := 2, ent := ([8, 0, 0, 0, 2, 0, 0, 0, 1, 1, 0, 0, 0, 0, 0, 0, 1] ++ List.replicate 47 0), stage := 0, todo := [], acc := 0, t0 := 0 } : Job) = false) ∧
    (({ (rig.puts ([(R.MGT_MODE_MODE, 1), (R.HLM_BOOT_STAT_STEP, 13)] ++ (List.range 11).map (fun n => (inService n, 1)))) with masked := [], mgt := { rig.mgt with jobs := [{ idx := 0, op := 8, tag := 5, ctx := 2, after := false, core := 2, ent := ([8, 0, 0, 0, 2, 0, 0, 0, 1, 1, 0, 0, 0, 0, 0, 0, 1] ++ List.replicate 47 0), stage := 0, todo := [], acc := 0, t0 := 0 }] } } : State).curCab (({ idx := 0, op := 8, tag := 5, ctx := 2, after := false, core := 2, ent := ([8, 0, 0, 0, 2, 0, 0, 0, 1, 1, 0, 0, 0, 0, 0, 0, 1] ++ List.replicate 47 0), stage := 0, todo := [], acc := 0, t0 := 0 } : Job).opnd 8 1) = some (1 : Nat)) ∧
    (({ idx := 0, op := 8, tag := 5, ctx := 2, after := false, core := 2, ent := ([8, 0, 0, 0, 2, 0, 0, 0, 1, 1, 0, 0, 0, 0, 0, 0, 1] ++ List.replicate 47 0), stage := 0, todo := [], acc := 0, t0 := 0 } : Job).opnd 8 1 ≠ 0xFF) ∧
    (({ (rig.puts ([(R.MGT_MODE_MODE, 1), (R.HLM_BOOT_STAT_STEP, 13)] ++ (List.range 11).map (fun n => (inService n, 1)))) with masked := [], mgt := { rig.mgt with jobs := [{ idx := 0, op := 8, tag := 5, ctx := 2, after := false, core := 2, ent := ([8, 0, 0, 0, 2, 0, 0, 0, 1, 1, 0, 0, 0, 0, 0, 0, 1] ++ List.replicate 47 0), stage := 0, todo := [], acc := 0, t0 := 0 }] } } : State).cabAns (1 : Nat) = true) ∧
    (({ (rig.puts ([(R.MGT_MODE_MODE, 1), (R.HLM_BOOT_STAT_STEP, 13)] ++ (List.range 11).map (fun n => (inService n, 1)))) with masked := [], mgt := { rig.mgt with jobs := [{ idx := 0, op := 8, tag := 5, ctx := 2, after := false, core := 2, ent := ([8, 0, 0, 0, 2, 0, 0, 0, 1, 1, 0, 0, 0, 0, 0, 0, 1] ++ List.replicate 47 0), stage := 0, todo := [], acc := 0, t0 := 0 }] } } : State).syncAll ({ idx := 0, op := 8, tag := 5, ctx := 2, after := false, core := 2, ent := ([8, 0, 0, 0, 2, 0, 0, 0, 1, 1, 0, 0, 0, 0, 0, 0, 1] ++ List.replicate 47 0), stage := 0, todo := [], acc := 0, t0 := 0 } : Job) (fun n => .cab (Fin.ofNat 128 (1 : Nat)) (Fin.ofNat 64 n)) (List.range 64) none = (((({ (rig.puts ([(R.MGT_MODE_MODE, 1), (R.HLM_BOOT_STAT_STEP, 13)] ++ (List.range 11).map (fun n => (inService n, 1)))) with masked := [], mgt := { rig.mgt with jobs := [{ idx := 0, op := 8, tag := 5, ctx := 2, after := false, core := 2, ent := ([8, 0, 0, 0, 2, 0, 0, 0, 1, 1, 0, 0, 0, 0, 0, 0, 1] ++ List.replicate 47 0), stage := 0, todo := [], acc := 0, t0 := 0 }] } } : State).syncAll ({ idx := 0, op := 8, tag := 5, ctx := 2, after := false, core := 2, ent := ([8, 0, 0, 0, 2, 0, 0, 0, 1, 1, 0, 0, 0, 0, 0, 0, 1] ++ List.replicate 47 0), stage := 0, todo := [], acc := 0, t0 := 0 } : Job) (fun q => .cab 1 (Fin.ofNat 64 q)) (List.range 64) none).1 : State), none)) := by decide +kernel

theorem witness_unitSubmissionsComplete_sqSync_global :
    (({ (rig.puts ([(R.MGT_MODE_MODE, 1), (R.HLM_BOOT_STAT_STEP, 13)] ++ (List.range 11).map (fun n => (inService n, 1)))) with masked := [], mgt := { rig.mgt with jobs := [{ idx := 0, op := 8, tag := 5, ctx := 2, after := false, core := 2, ent := ([8, 0, 0, 0, 2, 0, 0, 0, 255, 1, 0, 0, 0, 0, 0, 0, 1] ++ List.replicate 47 0), stage := 0, todo := [], acc := 0, t0 := 0 }] } } : State).mgt.jobs.find? (fun z => decide (z.idx = (0 : W32).toNat) && decide (z.op = 0x08)) = some ({ idx := 0, op := 8, tag := 5, ctx := 2, after := false, core := 2, ent := ([8, 0, 0, 0, 2, 0, 0, 0, 255, 1, 0, 0, 0, 0, 0, 0, 1] ++ List.replicate 47 0), stage := 0, todo := [], acc := 0, t0 := 0 } : Job)) ∧
    (({ (rig.puts ([(R.MGT_MODE_MODE, 1), (R.HLM_BOOT_STAT_STEP, 13)] ++ (List.range 11).map (fun n => (inService n, 1)))) with masked := [], mgt := { rig.mgt with jobs := [{ idx := 0, op := 8, tag := 5, ctx := 2, after := false, core := 2, ent := ([8, 0, 0, 0, 2, 0, 0, 0, 255, 1, 0, 0, 0, 0, 0, 0, 1] ++ List.replicate 47 0), stage := 0, todo := [], acc := 0, t0 := 0 }] } } : State).coreDown ({ idx := 0, op := 8, tag := 5, ctx := 2, after := false, core := 2, ent := ([8, 0, 0, 0, 2, 0, 0, 0, 255, 1, 0, 0, 0, 0, 0, 0, 1] ++ List.replicate 47 0), stage := 0, todo := [], acc := 0, t0 := 0 } : Job).core = false) ∧
    (({ (rig.puts ([(R.MGT_MODE_MODE, 1), (R.HLM_BOOT_STAT_STEP, 13)] ++ (List.range 11).map (fun n => (inService n, 1)))) with masked := [], mgt := { rig.mgt with jobs := [{ idx := 0, op := 8, tag := 5, ctx := 2, after := false, core := 2, ent := ([8, 0, 0, 0, 2, 0, 0, 0, 255, 1, 0, 0, 0, 0, 0, 0, 1] ++ List.replicate 47 0), stage := 0, todo := [], acc := 0, t0 := 0 }] } } : State).coreLive ({ idx := 0, op := 8, tag := 5, ctx := 2, after := false, core := 2, ent := ([8, 0, 0, 0, 2, 0, 0, 0, 255, 1, 0, 0, 0, 0, 0, 0, 1] ++ List.replicate 47 0), stage := 0, todo := [], acc := 0, t0 := 0 } : Job).core = true) ∧
    (({ (rig.puts ([(R.MGT_MODE_MODE, 1), (R.HLM_BOOT_STAT_STEP, 13)] ++ (List.range 11).map (fun n => (inService n, 1)))) with masked := [], mgt := { rig.mgt with jobs := [{ idx := 0, op := 8, tag := 5, ctx := 2, after := false, core := 2, ent := ([8, 0, 0, 0, 2, 0, 0, 0, 255, 1, 0, 0, 0, 0, 0, 0, 1] ++ List.replicate 47 0), stage := 0, todo := [], acc := 0, t0 := 0 }] } } : State).rgsShut ({ idx := 0, op := 8, tag := 5, ctx := 2, after := false, core := 2, ent := ([8, 0, 0, 0, 2, 0, 0, 0, 255, 1, 0, 0, 0, 0, 0, 0, 1] ++ List.replicate 47 0), stage := 0, todo := [], acc := 0, t0 := 0 } : Job).core = false) ∧
    (({ idx := 0, op := 8, tag := 5, ctx := 2, after := false, core := 2, ent := ([8, 0, 0, 0, 2, 0, 0, 0, 255, 1, 0, 0, 0, 0, 0, 0, 1] ++ List.replicate 47 0), stage := 0, todo := [], acc := 0, t0 := 0 } : Job).stage = 0) ∧
    (({ (rig.puts ([(R.MGT_MODE_MODE, 1), (R.HLM_BOOT_STAT_STEP, 13)] ++ (List.range 11).map (fun n => (inService n, 1)))) with masked := [], mgt := { rig.mgt with jobs := [{ idx := 0, op := 8, tag := 5, ctx := 2, after := false, core := 2, ent := ([8, 0, 0, 0, 2, 0, 0, 0, 255, 1, 0, 0, 0, 0, 0, 0, 1] ++ List.replicate 47 0), stage := 0, todo := [], acc := 0, t0 := 0 }] } } : State).jobTurn ({ idx := 0, op := 8, tag := 5, ctx := 2, after := false, core := 2, ent := ([8, 0, 0, 0, 2, 0, 0, 0, 255, 1, 0, 0, 0, 0, 0, 0, 1] ++ List.replicate 47 0), stage := 0, todo := [], acc := 0, t0 := 0 } : Job) = true) ∧
    (({ idx := 0, op := 8, tag := 5, ctx := 2, after := false, core := 2, ent := ([8, 0, 0, 0, 2, 0, 0, 0, 255, 1, 0, 0, 0, 0, 0, 0, 1] ++ List.replicate 47 0), stage := 0, todo := [], acc := 0, t0 := 0 } : Job).malformed = false) ∧
    (({ (rig.puts ([(R.MGT_MODE_MODE, 1), (R.HLM_BOOT_STAT_STEP, 13)] ++ (List.range 11).map (fun n => (inService n, 1)))) with masked := [], mgt := { rig.mgt with jobs := [{ idx := 0, op := 8, tag := 5, ctx := 2, after := false, core := 2, ent := ([8, 0, 0, 0, 2, 0, 0, 0, 255, 1, 0, 0, 0, 0, 0, 0, 1] ++ List.replicate 47 0), stage := 0, todo := [], acc := 0, t0 := 0 }] } } : State).outOfRange ({ idx := 0, op := 8, tag := 5, ctx := 2, after := false, core := 2, ent := ([8, 0, 0, 0, 2, 0, 0, 0, 255, 1, 0, 0, 0, 0, 0, 0, 1] ++ List.replicate 47 0), stage := 0, todo := [], acc := 0, t0 := 0 } : Job) = false) ∧
    (({ idx := 0, op := 8, tag := 5, ctx := 2, after := false, core := 2, ent := ([8, 0, 0, 0, 2, 0, 0, 0, 255, 1, 0, 0, 0, 0, 0, 0, 1] ++ List.replicate 47 0), stage := 0, todo := [], acc := 0, t0 := 0 } : Job).opnd 8 1 = 0xFF) ∧
    (({ (rig.puts ([(R.MGT_MODE_MODE, 1), (R.HLM_BOOT_STAT_STEP, 13)] ++ (List.range 11).map (fun n => (inService n, 1)))) with masked := [], mgt := { rig.mgt with jobs := [{ idx := 0, op := 8, tag := 5, ctx := 2, after := false, core := 2, ent := ([8, 0, 0, 0, 2, 0, 0, 0, 255, 1, 0, 0, 0, 0, 0, 0, 1] ++ List.replicate 47 0), stage := 0, todo := [], acc := 0, t0 := 0 }] } } : State).syncAll ({ idx := 0, op := 8, tag := 5, ctx := 2, after := false, core := 2, ent := ([8, 0, 0, 0, 2, 0, 0, 0, 255, 1, 0, 0, 0, 0, 0, 0, 1] ++ List.replicate 47 0), stage := 0, todo := [], acc := 0, t0 := 0 } : Job) (fun n => .glob (Fin.ofNat 128 ((({ (rig.puts ([(R.MGT_MODE_MODE, 1), (R.HLM_BOOT_STAT_STEP, 13)] ++ (List.range 11).map (fun n => (inService n, 1)))) with masked := [], mgt := { rig.mgt with jobs := [{ idx := 0, op := 8, tag := 5, ctx := 2, after := false, core := 2, ent := ([8, 0, 0, 0, 2, 0, 0, 0, 255, 1, 0, 0, 0, 0, 0, 0, 1] ++ List.replicate 47 0), stage := 0, todo := [], acc := 0, t0 := 0 }] } } : State).cabs.find? ({ (rig.puts ([(R.MGT_MODE_MODE, 1), (R.HLM_BOOT_STAT_STEP, 13)] ++ (List.range 11).map (fun n => (inService n, 1)))) with masked := [], mgt := { rig.mgt with jobs := [{ idx := 0, op := 8, tag := 5, ctx := 2, after := false, core := 2, ent := ([8, 0, 0, 0, 2, 0, 0, 0, 255, 1, 0, 0, 0, 0, 0, 0, 1] ++ List.replicate 47 0), stage := 0, todo := [], acc := 0, t0 := 0 }] } } : State).cabAns).getD 0)) (Fin.ofNat 256 n)) (List.range 256) none = (((({ (rig.puts ([(R.MGT_MODE_MODE, 1), (R.HLM_BOOT_STAT_STEP, 13)] ++ (List.range 11).map (fun n => (inService n, 1)))) with masked := [], mgt := { rig.mgt with jobs := [{ idx := 0, op := 8, tag := 5, ctx := 2, after := false, core := 2, ent := ([8, 0, 0, 0, 2, 0, 0, 0, 255, 1, 0, 0, 0, 0, 0, 0, 1] ++ List.replicate 47 0), stage := 0, todo := [], acc := 0, t0 := 0 }] } } : State).syncAll ({ idx := 0, op := 8, tag := 5, ctx := 2, after := false, core := 2, ent := ([8, 0, 0, 0, 2, 0, 0, 0, 255, 1, 0, 0, 0, 0, 0, 0, 1] ++ List.replicate 47 0), stage := 0, todo := [], acc := 0, t0 := 0 } : Job) (fun q => .glob (Fin.ofNat 128 ((({ (rig.puts ([(R.MGT_MODE_MODE, 1), (R.HLM_BOOT_STAT_STEP, 13)] ++ (List.range 11).map (fun n => (inService n, 1)))) with masked := [], mgt := { rig.mgt with jobs := [{ idx := 0, op := 8, tag := 5, ctx := 2, after := false, core := 2, ent := ([8, 0, 0, 0, 2, 0, 0, 0, 255, 1, 0, 0, 0, 0, 0, 0, 1] ++ List.replicate 47 0), stage := 0, todo := [], acc := 0, t0 := 0 }] } } : State).cabs.find? ({ (rig.puts ([(R.MGT_MODE_MODE, 1), (R.HLM_BOOT_STAT_STEP, 13)] ++ (List.range 11).map (fun n => (inService n, 1)))) with masked := [], mgt := { rig.mgt with jobs := [{ idx := 0, op := 8, tag := 5, ctx := 2, after := false, core := 2, ent := ([8, 0, 0, 0, 2, 0, 0, 0, 255, 1, 0, 0, 0, 0, 0, 0, 1] ++ List.replicate 47 0), stage := 0, todo := [], acc := 0, t0 := 0 }] } } : State).cabAns).getD 0)) (Fin.ofNat 256 q)) (List.range 256) none).1 : State), none)) := by decide +kernel

theorem witness_unitSubmissionsComplete_sqFifo :
    (({ (rig.puts ([(R.MGT_MODE_MODE, 1), (R.HLM_BOOT_STAT_STEP, 13)] ++ (List.range 11).map (fun n => (inService n, 1)))) with masked := [], mgt := { rig.mgt with jobs := [{ idx := 0, op := 9, tag := 5, ctx := 2, after := false, core := 2, ent := ([9, 0, 0, 0, 2, 0, 0, 0, 1, 1, 1, 0, 16] ++ List.replicate 51 0), stage := 0, todo := [], acc := 0, t0 := 0 }] } } : State).mgt.jobs.find? (fun z => decide (z.idx = (0 : W32).toNat) && decide (z.op = 0x09)) = some ({ idx := 0, op := 9, tag := 5, ctx := 2, after := false, core := 2, ent := ([9, 0, 0, 0, 2, 0, 0, 0, 1, 1, 1, 0, 16] ++ List.replicate 51 0), stage := 0, todo := [], acc := 0, t0 := 0 } : Job)) ∧
    (({ (rig.puts ([(R.MGT_MODE_MODE, 1), (R.HLM_BOOT_STAT_STEP, 13)] ++ (List.range 11).map (fun n => (inService n, 1)))) with masked := [], mgt := { rig.mgt with jobs := [{ idx := 0, op := 9, tag := 5, ctx := 2, after := false, core := 2, ent := ([9, 0, 0, 0, 2, 0, 0, 0, 1, 1, 1, 0, 16] ++ List.replicate 51 0), stage := 0, todo := [], acc := 0, t0 := 0 }] } } : State).coreDown ({ idx := 0, op := 9, tag := 5, ctx := 2, after := false, core := 2, ent := ([9, 0, 0, 0, 2, 0, 0, 0, 1, 1, 1, 0, 16] ++ List.replicate 51 0), stage := 0, todo := [], acc := 0, t0 := 0 } : Job).core = false) ∧
    (({ (rig.puts ([(R.MGT_MODE_MODE, 1), (R.HLM_BOOT_STAT_STEP, 13)] ++ (List.range 11).map (fun n => (inService n, 1)))) with masked := [], mgt := { rig.mgt with jobs := [{ idx := 0, op := 9, tag := 5, ctx := 2, after := false, core := 2, ent := ([9, 0, 0, 0, 2, 0, 0, 0, 1, 1, 1, 0, 16] ++ List.replicate 51 0), stage := 0, todo := [], acc := 0, t0 := 0 }] } } : State).coreLive ({ idx := 0, op := 9, tag := 5, ctx := 2, after := false, core := 2, ent := ([9, 0, 0, 0, 2, 0, 0, 0, 1, 1, 1, 0, 16] ++ List.replicate 51 0), stage := 0, todo := [], acc := 0, t0 := 0 } : Job).core = true) ∧
    (({ (rig.puts ([(R.MGT_MODE_MODE, 1), (R.HLM_BOOT_STAT_STEP, 13)] ++ (List.range 11).map (fun n => (inService n, 1)))) with masked := [], mgt := { rig.mgt with jobs := [{ idx := 0, op := 9, tag := 5, ctx := 2, after := false, core := 2, ent := ([9, 0, 0, 0, 2, 0, 0, 0, 1, 1, 1, 0, 16] ++ List.replicate 51 0), stage := 0, todo := [], acc := 0, t0 := 0 }] } } : State).rgsShut ({ idx := 0, op := 9, tag := 5, ctx := 2, after := false, core := 2, ent := ([9, 0, 0, 0, 2, 0, 0, 0, 1, 1, 1, 0, 16] ++ List.replicate 51 0), stage := 0, todo := [], acc := 0, t0 := 0 } : Job).core = false) ∧
    (({ idx := 0, op := 9, tag := 5, ctx := 2, after := false, core := 2, ent := ([9, 0, 0, 0, 2, 0, 0, 0, 1, 1, 1, 0, 16] ++ List.replicate 51 0), stage := 0, todo := [], acc := 0, t0 := 0 } : Job).stage = 0) ∧
    (({ (rig.puts ([(R.MGT_MODE_MODE, 1), (R.HLM_BOOT_STAT_STEP, 13)] ++ (List.range 11).map (fun n => (inService n, 1)))) with masked := [], mgt := { rig.mgt with jobs := [{ idx := 0, op := 9, tag := 5, ctx := 2, after := false, core := 2, ent := ([9, 0, 0, 0, 2, 0, 0, 0, 1, 1, 1, 0, 16] ++ List.replicate 51 0), stage := 0, todo := [], acc := 0, t0 := 0 }] } } : State).jobTurn ({ idx := 0, op := 9, tag := 5, ctx := 2, after := false, core := 2, ent := ([9, 0, 0, 0, 2, 0, 0, 0, 1, 1, 1, 0, 16] ++ List.replicate 51 0), stage := 0, todo := [], acc := 0, t0 := 0 } : Job) = true) ∧
    (({ idx := 0, op := 9, tag := 5, ctx := 2, after := false, core := 2, ent := ([9, 0, 0, 0, 2, 0, 0, 0, 1, 1, 1, 0, 16] ++ List.replicate 51 0), stage := 0, todo := [], acc := 0, t0 := 0 } : Job).malformed = false) ∧
    (({ (rig.puts ([(R.MGT_MODE_MODE, 1), (R.HLM_BOOT_STAT_STEP, 13)] ++ (List.range 11).map (fun n => (inService n, 1)))) with masked := [], mgt := { rig.mgt with jobs := [{ idx := 0, op := 9, tag := 5, ctx := 2, after := false, core := 2, ent := ([9, 0, 0, 0, 2, 0, 0, 0, 1, 1, 1, 0, 16] ++ List.replicate 51 0), stage := 0, todo := [], acc := 0, t0 := 0 }] } } : State).outOfRange ({ idx := 0, op := 9, tag := 5, ctx := 2, after := false, core := 2, ent := ([9, 0, 0, 0, 2, 0, 0, 0, 1, 1, 1, 0, 16] ++ List.replicate 51 0), stage := 0, todo := [], acc := 0, t0 := 0 } : Job) = false) ∧
    (({ (rig.puts ([(R.MGT_MODE_MODE, 1), (R.HLM_BOOT_STAT_STEP, 13)] ++ (List.range 11).map (fun n => (inService n, 1)))) with masked := [], mgt := { rig.mgt with jobs := [{ idx := 0, op := 9, tag := 5, ctx := 2, after := false, core := 2, ent := ([9, 0, 0, 0, 2, 0, 0, 0, 1, 1, 1, 0, 16] ++ List.replicate 51 0), stage := 0, todo := [], acc := 0, t0 := 0 }] } } : State).curCab (({ idx := 0, op := 9, tag := 5, ctx := 2, after := false, core := 2, ent := ([9, 0, 0, 0, 2, 0, 0, 0, 1, 1, 1, 0, 16] ++ List.replicate 51 0), stage := 0, todo := [], acc := 0, t0 := 0 } : Job).opnd 8 1) = some (1 : Nat)) ∧
    (({ (rig.puts ([(R.MGT_MODE_MODE, 1), (R.HLM_BOOT_STAT_STEP, 13)] ++ (List.range 11).map (fun n => (inService n, 1)))) with masked := [], mgt := { rig.mgt with jobs := [{ idx := 0, op := 9, tag := 5, ctx := 2, after := false, core := 2, ent := ([9, 0, 0, 0, 2, 0, 0, 0, 1, 1, 1, 0, 16] ++ List.replicate 51 0), stage := 0, todo := [], acc := 0, t0 := 0 }] } } : State).cabAns (1 : Nat) = true) ∧
    (({ (rig.puts ([(R.MGT_MODE_MODE, 1), (R.HLM_BOOT_STAT_STEP, 13)] ++ (List.range 11).map (fun n => (inService n, 1)))) with masked := [], mgt := { rig.mgt with jobs := [{ idx := 0, op := 9, tag := 5, ctx := 2, after := false, core := 2, ent := ([9, 0, 0, 0, 2, 0, 0, 0, 1, 1, 1, 0, 16] ++ List.replicate 51 0), stage := 0, todo := [], acc := 0, t0 := 0 }] } } : State).fifoAll ({ idx := 0, op := 9, tag := 5, ctx := 2, after := false, core := 2, ent := ([9, 0, 0, 0, 2, 0, 0, 0, 1, 1, 1, 0, 16] ++ List.replicate 51 0), stage := 0, todo := [], acc := 0, t0 := 0 } : Job) (1 : Nat) (List.range 8) none = (((({ (rig.puts ([(R.MGT_MODE_MODE, 1), (R.HLM_BOOT_STAT_STEP, 13)] ++ (List.range 11).map (fun n => (inService n, 1)))) with masked := [], mgt := { rig.mgt with jobs := [{ idx := 0, op := 9, tag := 5, ctx := 2, after := false, core := 2, ent := ([9, 0, 0, 0, 2, 0, 0, 0, 1, 1, 1, 0, 16] ++ List.replicate 51 0), stage := 0, todo := [], acc := 0, t0 := 0 }] } } : State).fifoAll ({ idx := 0, op := 9, tag := 5, ctx := 2, after := false, core := 2, ent := ([9, 0, 0, 0, 2, 0, 0, 0, 1, 1, 1, 0, 16] ++ List.replicate 51 0), stage := 0, todo := [], acc := 0, t0 := 0 } : Job) (1 : Nat) (List.range 8) none).1 : State), none)) := by decide +kernel

theorem witness_unitSubmissionsComplete_sqFence :
    (({ (rig.puts ([(R.MGT_MODE_MODE, 1), (R.HLM_BOOT_STAT_STEP, 13)] ++ (List.range 11).map (fun n => (inService n, 1)))) with masked := [], mgt := { rig.mgt with jobs := [{ idx := 0, op := 11, tag := 5, ctx := 0, after := false, core := 0, ent := ([11, 0, 0, 0, 0, 0, 0, 0, 1] ++ List.replicate 55 0), stage := 0, todo := [], acc := 0, t0 := 0 }] } } : State).mgt.jobs.find? (fun z => decide (z.idx = (0 : W32).toNat) && decide (z.op = 0x0B)) = some ({ idx := 0, op := 11, tag := 5, ctx := 0, after := false, core := 0, ent := ([11, 0, 0, 0, 0, 0, 0, 0, 1] ++ List.replicate 55 0), stage := 0, todo := [], acc := 0, t0 := 0 } : Job)) ∧
    (({ (rig.puts ([(R.MGT_MODE_MODE, 1), (R.HLM_BOOT_STAT_STEP, 13)] ++ (List.range 11).map (fun n => (inService n, 1)))) with masked := [], mgt := { rig.mgt with jobs := [{ idx := 0, op := 11, tag := 5, ctx := 0, after := false, core := 0, ent := ([11, 0, 0, 0, 0, 0, 0, 0, 1] ++ List.replicate 55 0), stage := 0, todo := [], acc := 0, t0 := 0 }] } } : State).coreDown ({ idx := 0, op := 11, tag := 5, ctx := 0, after := false, core := 0, ent := ([11, 0, 0, 0, 0, 0, 0, 0, 1] ++ List.replicate 55 0), stage := 0, todo := [], acc := 0, t0 := 0 } : Job).core = false) ∧
    (({ (rig.puts ([(R.MGT_MODE_MODE, 1), (R.HLM_BOOT_STAT_STEP, 13)] ++ (List.range 11).map (fun n => (inService n, 1)))) with masked := [], mgt := { rig.mgt with jobs := [{ idx := 0, op := 11, tag := 5, ctx := 0, after := false, core := 0, ent := ([11, 0, 0, 0, 0, 0, 0, 0, 1] ++ List.replicate 55 0), stage := 0, todo := [], acc := 0, t0 := 0 }] } } : State).coreLive ({ idx := 0, op := 11, tag := 5, ctx := 0, after := false, core := 0, ent := ([11, 0, 0, 0, 0, 0, 0, 0, 1] ++ List.replicate 55 0), stage := 0, todo := [], acc := 0, t0 := 0 } : Job).core = true) ∧
    (({ (rig.puts ([(R.MGT_MODE_MODE, 1), (R.HLM_BOOT_STAT_STEP, 13)] ++ (List.range 11).map (fun n => (inService n, 1)))) with masked := [], mgt := { rig.mgt with jobs := [{ idx := 0, op := 11, tag := 5, ctx := 0, after := false, core := 0, ent := ([11, 0, 0, 0, 0, 0, 0, 0, 1] ++ List.replicate 55 0), stage := 0, todo := [], acc := 0, t0 := 0 }] } } : State).rgsShut ({ idx := 0, op := 11, tag := 5, ctx := 0, after := false, core := 0, ent := ([11, 0, 0, 0, 0, 0, 0, 0, 1] ++ List.replicate 55 0), stage := 0, todo := [], acc := 0, t0 := 0 } : Job).core = false) ∧
    (({ idx := 0, op := 11, tag := 5, ctx := 0, after := false, core := 0, ent := ([11, 0, 0, 0, 0, 0, 0, 0, 1] ++ List.replicate 55 0), stage := 0, todo := [], acc := 0, t0 := 0 } : Job).stage = 0) ∧
    (({ (rig.puts ([(R.MGT_MODE_MODE, 1), (R.HLM_BOOT_STAT_STEP, 13)] ++ (List.range 11).map (fun n => (inService n, 1)))) with masked := [], mgt := { rig.mgt with jobs := [{ idx := 0, op := 11, tag := 5, ctx := 0, after := false, core := 0, ent := ([11, 0, 0, 0, 0, 0, 0, 0, 1] ++ List.replicate 55 0), stage := 0, todo := [], acc := 0, t0 := 0 }] } } : State).jobTurn ({ idx := 0, op := 11, tag := 5, ctx := 0, after := false, core := 0, ent := ([11, 0, 0, 0, 0, 0, 0, 0, 1] ++ List.replicate 55 0), stage := 0, todo := [], acc := 0, t0 := 0 } : Job) = true) ∧
    (({ idx := 0, op := 11, tag := 5, ctx := 0, after := false, core := 0, ent := ([11, 0, 0, 0, 0, 0, 0, 0, 1] ++ List.replicate 55 0), stage := 0, todo := [], acc := 0, t0 := 0 } : Job).malformed = false) ∧
    (({ (rig.puts ([(R.MGT_MODE_MODE, 1), (R.HLM_BOOT_STAT_STEP, 13)] ++ (List.range 11).map (fun n => (inService n, 1)))) with masked := [], mgt := { rig.mgt with jobs := [{ idx := 0, op := 11, tag := 5, ctx := 0, after := false, core := 0, ent := ([11, 0, 0, 0, 0, 0, 0, 0, 1] ++ List.replicate 55 0), stage := 0, todo := [], acc := 0, t0 := 0 }] } } : State).outOfRange ({ idx := 0, op := 11, tag := 5, ctx := 0, after := false, core := 0, ent := ([11, 0, 0, 0, 0, 0, 0, 0, 1] ++ List.replicate 55 0), stage := 0, todo := [], acc := 0, t0 := 0 } : Job) = false) ∧
    (({ (rig.puts ([(R.MGT_MODE_MODE, 1), (R.HLM_BOOT_STAT_STEP, 13)] ++ (List.range 11).map (fun n => (inService n, 1)))) with masked := [], mgt := { rig.mgt with jobs := [{ idx := 0, op := 11, tag := 5, ctx := 0, after := false, core := 0, ent := ([11, 0, 0, 0, 0, 0, 0, 0, 1] ++ List.replicate 55 0), stage := 0, todo := [], acc := 0, t0 := 0 }] } } : State).fenced (({ idx := 0, op := 11, tag := 5, ctx := 0, after := false, core := 0, ent := ([11, 0, 0, 0, 0, 0, 0, 0, 1] ++ List.replicate 55 0), stage := 0, todo := [], acc := 0, t0 := 0 } : Job).opnd 8 1) = false) := by decide +kernel

theorem witness_unitSubmissionsComplete_sqFence_over :
    (({ (rig.puts ([(R.MGT_MODE_MODE, 1), (R.HLM_BOOT_STAT_STEP, 13)] ++ (List.range 11).map (fun n => (inService n, 1)) ++ [(cabBit R.IDV_FENCE_MASK 1, 1)])) with masked := [], mgt := { rig.mgt with jobs := [{ idx := 0, op := 11, tag := 5, ctx := 0, after := false, core := 0, ent := ([11, 0, 0, 0, 0, 0, 0, 0, 1] ++ List.replicate 55 0), stage := 1, todo := [], acc := 0, t0 := 0 }] } } : State).mgt.jobs.find? (fun z => decide (z.idx = (0 : W32).toNat) && decide (z.op = 0x0B)) = some ({ idx := 0, op := 11, tag := 5, ctx := 0, after := false, core := 0, ent := ([11, 0, 0, 0, 0, 0, 0, 0, 1] ++ List.replicate 55 0), stage := 1, todo := [], acc := 0, t0 := 0 } : Job)) ∧
    (({ (rig.puts ([(R.MGT_MODE_MODE, 1), (R.HLM_BOOT_STAT_STEP, 13)] ++ (List.range 11).map (fun n => (inService n, 1)) ++ [(cabBit R.IDV_FENCE_MASK 1, 1)])) with masked := [], mgt := { rig.mgt with jobs := [{ idx := 0, op := 11, tag := 5, ctx := 0, after := false, core := 0, ent := ([11, 0, 0, 0, 0, 0, 0, 0, 1] ++ List.replicate 55 0), stage := 1, todo := [], acc := 0, t0 := 0 }] } } : State).coreDown ({ idx := 0, op := 11, tag := 5, ctx := 0, after := false, core := 0, ent := ([11, 0, 0, 0, 0, 0, 0, 0, 1] ++ List.replicate 55 0), stage := 1, todo := [], acc := 0, t0 := 0 } : Job).core = false) ∧
    (({ (rig.puts ([(R.MGT_MODE_MODE, 1), (R.HLM_BOOT_STAT_STEP, 13)] ++ (List.range 11).map (fun n => (inService n, 1)) ++ [(cabBit R.IDV_FENCE_MASK 1, 1)])) with masked := [], mgt := { rig.mgt with jobs := [{ idx := 0, op := 11, tag := 5, ctx := 0, after := false, core := 0, ent := ([11, 0, 0, 0, 0, 0, 0, 0, 1] ++ List.replicate 55 0), stage := 1, todo := [], acc := 0, t0 := 0 }] } } : State).coreLive ({ idx := 0, op := 11, tag := 5, ctx := 0, after := false, core := 0, ent := ([11, 0, 0, 0, 0, 0, 0, 0, 1] ++ List.replicate 55 0), stage := 1, todo := [], acc := 0, t0 := 0 } : Job).core = true) ∧
    (({ (rig.puts ([(R.MGT_MODE_MODE, 1), (R.HLM_BOOT_STAT_STEP, 13)] ++ (List.range 11).map (fun n => (inService n, 1)) ++ [(cabBit R.IDV_FENCE_MASK 1, 1)])) with masked := [], mgt := { rig.mgt with jobs := [{ idx := 0, op := 11, tag := 5, ctx := 0, after := false, core := 0, ent := ([11, 0, 0, 0, 0, 0, 0, 0, 1] ++ List.replicate 55 0), stage := 1, todo := [], acc := 0, t0 := 0 }] } } : State).rgsShut ({ idx := 0, op := 11, tag := 5, ctx := 0, after := false, core := 0, ent := ([11, 0, 0, 0, 0, 0, 0, 0, 1] ++ List.replicate 55 0), stage := 1, todo := [], acc := 0, t0 := 0 } : Job).core = false) ∧
    (({ idx := 0, op := 11, tag := 5, ctx := 0, after := false, core := 0, ent := ([11, 0, 0, 0, 0, 0, 0, 0, 1] ++ List.replicate 55 0), stage := 1, todo := [], acc := 0, t0 := 0 } : Job).stage = 1) ∧
    (({ (rig.puts ([(R.MGT_MODE_MODE, 1), (R.HLM_BOOT_STAT_STEP, 13)] ++ (List.range 11).map (fun n => (inService n, 1)) ++ [(cabBit R.IDV_FENCE_MASK 1, 1)])) with masked := [], mgt := { rig.mgt with jobs := [{ idx := 0, op := 11, tag := 5, ctx := 0, after := false, core := 0, ent := ([11, 0, 0, 0, 0, 0, 0, 0, 1] ++ List.replicate 55 0), stage := 1, todo := [], acc := 0, t0 := 0 }] } } : State).fenced (({ idx := 0, op := 11, tag := 5, ctx := 0, after := false, core := 0, ent := ([11, 0, 0, 0, 0, 0, 0, 0, 1] ++ List.replicate 55 0), stage := 1, todo := [], acc := 0, t0 := 0 } : Job).opnd 8 1) = true) := by decide +kernel

theorem witness_unitSubmissionsComplete_sqRemap :
    (({ (rig.puts ([(R.MGT_MODE_MODE, 1), (R.HLM_BOOT_STAT_STEP, 13)] ++ (List.range 11).map (fun n => (inService n, 1)))) with masked := [], mgt := { rig.mgt with jobs := [{ idx := 0, op := 12, tag := 5, ctx := 0, after := false, core := 0, ent := ([12, 0, 0, 0, 0, 0, 0, 0, 1, 3, 7] ++ List.replicate 53 0), stage := 0, todo := [], acc := 0, t0 := 0 }] } } : State).mgt.jobs.find? (fun z => decide (z.idx = (0 : W32).toNat) && decide (z.op = 0x0C)) = some ({ idx := 0, op := 12, tag := 5, ctx := 0, after := false, core := 0, ent := ([12, 0, 0, 0, 0, 0, 0, 0, 1, 3, 7] ++ List.replicate 53 0), stage := 0, todo := [], acc := 0, t0 := 0 } : Job)) ∧
    (({ (rig.puts ([(R.MGT_MODE_MODE, 1), (R.HLM_BOOT_STAT_STEP, 13)] ++ (List.range 11).map (fun n => (inService n, 1)))) with masked := [], mgt := { rig.mgt with jobs := [{ idx := 0, op := 12, tag := 5, ctx := 0, after := false, core := 0, ent := ([12, 0, 0, 0, 0, 0, 0, 0, 1, 3, 7] ++ List.replicate 53 0), stage := 0, todo := [], acc := 0, t0 := 0 }] } } : State).coreDown ({ idx := 0, op := 12, tag := 5, ctx := 0, after := false, core := 0, ent := ([12, 0, 0, 0, 0, 0, 0, 0, 1, 3, 7] ++ List.replicate 53 0), stage := 0, todo := [], acc := 0, t0 := 0 } : Job).core = false) ∧
    (({ (rig.puts ([(R.MGT_MODE_MODE, 1), (R.HLM_BOOT_STAT_STEP, 13)] ++ (List.range 11).map (fun n => (inService n, 1)))) with masked := [], mgt := { rig.mgt with jobs := [{ idx := 0, op := 12, tag := 5, ctx := 0, after := false, core := 0, ent := ([12, 0, 0, 0, 0, 0, 0, 0, 1, 3, 7] ++ List.replicate 53 0), stage := 0, todo := [], acc := 0, t0 := 0 }] } } : State).coreLive ({ idx := 0, op := 12, tag := 5, ctx := 0, after := false, core := 0, ent := ([12, 0, 0, 0, 0, 0, 0, 0, 1, 3, 7] ++ List.replicate 53 0), stage := 0, todo := [], acc := 0, t0 := 0 } : Job).core = true) ∧
    (({ (rig.puts ([(R.MGT_MODE_MODE, 1), (R.HLM_BOOT_STAT_STEP, 13)] ++ (List.range 11).map (fun n => (inService n, 1)))) with masked := [], mgt := { rig.mgt with jobs := [{ idx := 0, op := 12, tag := 5, ctx := 0, after := false, core := 0, ent := ([12, 0, 0, 0, 0, 0, 0, 0, 1, 3, 7] ++ List.replicate 53 0), stage := 0, todo := [], acc := 0, t0 := 0 }] } } : State).rgsShut ({ idx := 0, op := 12, tag := 5, ctx := 0, after := false, core := 0, ent := ([12, 0, 0, 0, 0, 0, 0, 0, 1, 3, 7] ++ List.replicate 53 0), stage := 0, todo := [], acc := 0, t0 := 0 } : Job).core = false) ∧
    (({ idx := 0, op := 12, tag := 5, ctx := 0, after := false, core := 0, ent := ([12, 0, 0, 0, 0, 0, 0, 0, 1, 3, 7] ++ List.replicate 53 0), stage := 0, todo := [], acc := 0, t0 := 0 } : Job).stage = 0) ∧
    (({ (rig.puts ([(R.MGT_MODE_MODE, 1), (R.HLM_BOOT_STAT_STEP, 13)] ++ (List.range 11).map (fun n => (inService n, 1)))) with masked := [], mgt := { rig.mgt with jobs := [{ idx := 0, op := 12, tag := 5, ctx := 0, after := false, core := 0, ent := ([12, 0, 0, 0, 0, 0, 0, 0, 1, 3, 7] ++ List.replicate 53 0), stage := 0, todo := [], acc := 0, t0 := 0 }] } } : State).jobTurn ({ idx := 0, op := 12, tag := 5, ctx := 0, after := false, core := 0, ent := ([12, 0, 0, 0, 0, 0, 0, 0, 1, 3, 7] ++ List.replicate 53 0), stage := 0, todo := [], acc := 0, t0 := 0 } : Job) = true) ∧
    (({ idx := 0, op := 12, tag := 5, ctx := 0, after := false, core := 0, ent := ([12, 0, 0, 0, 0, 0, 0, 0, 1, 3, 7] ++ List.replicate 53 0), stage := 0, todo := [], acc := 0, t0 := 0 } : Job).malformed = false) ∧
    (({ (rig.puts ([(R.MGT_MODE_MODE, 1), (R.HLM_BOOT_STAT_STEP, 13)] ++ (List.range 11).map (fun n => (inService n, 1)))) with masked := [], mgt := { rig.mgt with jobs := [{ idx := 0, op := 12, tag := 5, ctx := 0, after := false, core := 0, ent := ([12, 0, 0, 0, 0, 0, 0, 0, 1, 3, 7] ++ List.replicate 53 0), stage := 0, todo := [], acc := 0, t0 := 0 }] } } : State).outOfRange ({ idx := 0, op := 12, tag := 5, ctx := 0, after := false, core := 0, ent := ([12, 0, 0, 0, 0, 0, 0, 0, 1, 3, 7] ++ List.replicate 53 0), stage := 0, todo := [], acc := 0, t0 := 0 } : Job) = false) ∧
    (({ (rig.puts ([(R.MGT_MODE_MODE, 1), (R.HLM_BOOT_STAT_STEP, 13)] ++ (List.range 11).map (fun n => (inService n, 1)))) with masked := [], mgt := { rig.mgt with jobs := [{ idx := 0, op := 12, tag := 5, ctx := 0, after := false, core := 0, ent := ([12, 0, 0, 0, 0, 0, 0, 0, 1, 3, 7] ++ List.replicate 53 0), stage := 0, todo := [], acc := 0, t0 := 0 }] } } : State).cabAns (({ idx := 0, op := 12, tag := 5, ctx := 0, after := false, core := 0, ent := ([12, 0, 0, 0, 0, 0, 0, 0, 1, 3, 7] ++ List.replicate 53 0), stage := 0, todo := [], acc := 0, t0 := 0 } : Job).opnd 8 1) = true) ∧
    (({ (rig.puts ([(R.MGT_MODE_MODE, 1), (R.HLM_BOOT_STAT_STEP, 13)] ++ (List.range 11).map (fun n => (inService n, 1)))) with masked := [], mgt := { rig.mgt with jobs := [{ idx := 0, op := 12, tag := 5, ctx := 0, after := false, core := 0, ent := ([12, 0, 0, 0, 0, 0, 0, 0, 1, 3, 7] ++ List.replicate 53 0), stage := 0, todo := [], acc := 0, t0 := 0 }] } } : State).partReady (({ idx := 0, op := 12, tag := 5, ctx := 0, after := false, core := 0, ent := ([12, 0, 0, 0, 0, 0, 0, 0, 1, 3, 7] ++ List.replicate 53 0), stage := 0, todo := [], acc := 0, t0 := 0 } : Job).opnd 8 1) = true) ∧
    ((ran (({ (rig.puts ([(R.MGT_MODE_MODE, 1), (R.HLM_BOOT_STAT_STEP, 13)] ++ (List.range 11).map (fun n => (inService n, 1)))) with masked := [], mgt := { rig.mgt with jobs := [{ idx := 0, op := 12, tag := 5, ctx := 0, after := false, core := 0, ent := ([12, 0, 0, 0, 0, 0, 0, 0, 1, 3, 7] ++ List.replicate 53 0), stage := 0, todo := [], acc := 0, t0 := 0 }] } } : State).puts [(R.RMP_ADD_STAT_REJ (({ idx := 0, op := 12, tag := 5, ctx := 0, after := false, core := 0, ent := ([12, 0, 0, 0, 0, 0, 0, 0, 1, 3, 7] ++ List.replicate 53 0), stage := 0, todo := [], acc := 0, t0 := 0 } : Job).opnd 8 1), 0), (R.RMP_ADD_STAT_DONE (({ idx := 0, op := 12, tag := 5, ctx := 0, after := false, core := 0, ent := ([12, 0, 0, 0, 0, 0, 0, 0, 1, 3, 7] ++ List.replicate 53 0), stage := 0, todo := [], acc := 0, t0 := 0 } : Job).opnd 8 1), 0)]) (exec (.remapAdd ((({ (rig.puts ([(R.MGT_MODE_MODE, 1), (R.HLM_BOOT_STAT_STEP, 13)] ++ (List.range 11).map (fun n => (inService n, 1)))) with masked := [], mgt := { rig.mgt with jobs := [{ idx := 0, op := 12, tag := 5, ctx := 0, after := false, core := 0, ent := ([12, 0, 0, 0, 0, 0, 0, 0, 1, 3, 7] ++ List.replicate 53 0), stage := 0, todo := [], acc := 0, t0 := 0 }] } } : State).puts [(R.RMP_ADD_STAT_REJ (({ idx := 0, op := 12, tag := 5, ctx := 0, after := false, core := 0, ent := ([12, 0, 0, 0, 0, 0, 0, 0, 1, 3, 7] ++ List.replicate 53 0), stage := 0, todo := [], acc := 0, t0 := 0 } : Job).opnd 8 1), 0), (R.RMP_ADD_STAT_DONE (({ idx := 0, op := 12, tag := 5, ctx := 0, after := false, core := 0, ent := ([12, 0, 0, 0, 0, 0, 0, 0, 1, 3, 7] ++ List.replicate 53 0), stage := 0, todo := [], acc := 0, t0 := 0 } : Job).opnd 8 1), 0)]).partCore (({ idx := 0, op := 12, tag := 5, ctx := 0, after := false, core := 0, ent := ([12, 0, 0, 0, 0, 0, 0, 0, 1, 3, 7] ++ List.replicate 53 0), stage := 0, todo := [], acc := 0, t0 := 0 } : Job).opnd 8 1)) (Fin.ofNat 128 (({ idx := 0, op := 12, tag := 5, ctx := 0, after := false, core := 0, ent := ([12, 0, 0, 0, 0, 0, 0, 0, 1, 3, 7] ++ List.replicate 53 0), stage := 0, todo := [], acc := 0, t0 := 0 } : Job).opnd 8 1)) (BitVec.ofNat 32 (({ idx := 0, op := 12, tag := 5, ctx := 0, after := false, core := 0, ent := ([12, 0, 0, 0, 0, 0, 0, 0, 1, 3, 7] ++ List.replicate 53 0), stage := 0, todo := [], acc := 0, t0 := 0 } : Job).opnd 10 2 + ({ idx := 0, op := 12, tag := 5, ctx := 0, after := false, core := 0, ent := ([12, 0, 0, 0, 0, 0, 0, 0, 1, 3, 7] ++ List.replicate 53 0), stage := 0, todo := [], acc := 0, t0 := 0 } : Job).opnd 9 1 * 4096 + 2 ^ 31))) (({ (rig.puts ([(R.MGT_MODE_MODE, 1), (R.HLM_BOOT_STAT_STEP, 13)] ++ (List.range 11).map (fun n => (inService n, 1)))) with masked := [], mgt := { rig.mgt with jobs := [{ idx := 0, op := 12, tag := 5, ctx := 0, after := false, core := 0, ent := ([12, 0, 0, 0, 0, 0, 0, 0, 1, 3, 7] ++ List.replicate 53 0), stage := 0, todo := [], acc := 0, t0 := 0 }] } } : State).puts [(R.RMP_ADD_STAT_REJ (({ idx := 0, op := 12, tag := 5, ctx := 0, after := false, core := 0, ent := ([12, 0, 0, 0, 0, 0, 0, 0, 1, 3, 7] ++ List.replicate 53 0), stage := 0, todo := [], acc := 0, t0 := 0 } : Job).opnd 8 1), 0), (R.RMP_ADD_STAT_DONE (({ idx := 0, op := 12, tag := 5, ctx := 0, after := false, core := 0, ent := ([12, 0, 0, 0, 0, 0, 0, 0, 1, 3, 7] ++ List.replicate 53 0), stage := 0, todo := [], acc := 0, t0 := 0 } : Job).opnd 8 1), 0)])) : State) = ran (({ (rig.puts ([(R.MGT_MODE_MODE, 1), (R.HLM_BOOT_STAT_STEP, 13)] ++ (List.range 11).map (fun n => (inService n, 1)))) with masked := [], mgt := { rig.mgt with jobs := [{ idx := 0, op := 12, tag := 5, ctx := 0, after := false, core := 0, ent := ([12, 0, 0, 0, 0, 0, 0, 0, 1, 3, 7] ++ List.replicate 53 0), stage := 0, todo := [], acc := 0, t0 := 0 }] } } : State).puts [(R.RMP_ADD_STAT_REJ (({ idx := 0, op := 12, tag := 5, ctx := 0, after := false, core := 0, ent := ([12, 0, 0, 0, 0, 0, 0, 0, 1, 3, 7] ++ List.replicate 53 0), stage := 0, todo := [], acc := 0, t0 := 0 } : Job).opnd 8 1), 0), (R.RMP_ADD_STAT_DONE (({ idx := 0, op := 12, tag := 5, ctx := 0, after := false, core := 0, ent := ([12, 0, 0, 0, 0, 0, 0, 0, 1, 3, 7] ++ List.replicate 53 0), stage := 0, todo := [], acc := 0, t0 := 0 } : Job).opnd 8 1), 0)]) (exec (.remapAdd ((({ (rig.puts ([(R.MGT_MODE_MODE, 1), (R.HLM_BOOT_STAT_STEP, 13)] ++ (List.range 11).map (fun n => (inService n, 1)))) with masked := [], mgt := { rig.mgt with jobs := [{ idx := 0, op := 12, tag := 5, ctx := 0, after := false, core := 0, ent := ([12, 0, 0, 0, 0, 0, 0, 0, 1, 3, 7] ++ List.replicate 53 0), stage := 0, todo := [], acc := 0, t0 := 0 }] } } : State).puts [(R.RMP_ADD_STAT_REJ (({ idx := 0, op := 12, tag := 5, ctx := 0, after := false, core := 0, ent := ([12, 0, 0, 0, 0, 0, 0, 0, 1, 3, 7] ++ List.replicate 53 0), stage := 0, todo := [], acc := 0, t0 := 0 } : Job).opnd 8 1), 0), (R.RMP_ADD_STAT_DONE (({ idx := 0, op := 12, tag := 5, ctx := 0, after := false, core := 0, ent := ([12, 0, 0, 0, 0, 0, 0, 0, 1, 3, 7] ++ List.replicate 53 0), stage := 0, todo := [], acc := 0, t0 := 0 } : Job).opnd 8 1), 0)]).partCore (({ idx := 0, op := 12, tag := 5, ctx := 0, after := false, core := 0, ent := ([12, 0, 0, 0, 0, 0, 0, 0, 1, 3, 7] ++ List.replicate 53 0), stage := 0, todo := [], acc := 0, t0 := 0 } : Job).opnd 8 1)) (Fin.ofNat 128 (({ idx := 0, op := 12, tag := 5, ctx := 0, after := false, core := 0, ent := ([12, 0, 0, 0, 0, 0, 0, 0, 1, 3, 7] ++ List.replicate 53 0), stage := 0, todo := [], acc := 0, t0 := 0 } : Job).opnd 8 1)) (BitVec.ofNat 32 (({ idx := 0, op := 12, tag := 5, ctx := 0, after := false, core := 0, ent := ([12, 0, 0, 0, 0, 0, 0, 0, 1, 3, 7] ++ List.replicate 53 0), stage := 0, todo := [], acc := 0, t0 := 0 } : Job).opnd 10 2 + ({ idx := 0, op := 12, tag := 5, ctx := 0, after := false, core := 0, ent := ([12, 0, 0, 0, 0, 0, 0, 0, 1, 3, 7] ++ List.replicate 53 0), stage := 0, todo := [], acc := 0, t0 := 0 } : Job).opnd 9 1 * 4096 + 2 ^ 31))) (({ (rig.puts ([(R.MGT_MODE_MODE, 1), (R.HLM_BOOT_STAT_STEP, 13)] ++ (List.range 11).map (fun n => (inService n, 1)))) with masked := [], mgt := { rig.mgt with jobs := [{ idx := 0, op := 12, tag := 5, ctx := 0, after := false, core := 0, ent := ([12, 0, 0, 0, 0, 0, 0, 0, 1, 3, 7] ++ List.replicate 53 0), stage := 0, todo := [], acc := 0, t0 := 0 }] } } : State).puts [(R.RMP_ADD_STAT_REJ (({ idx := 0, op := 12, tag := 5, ctx := 0, after := false, core := 0, ent := ([12, 0, 0, 0, 0, 0, 0, 0, 1, 3, 7] ++ List.replicate 53 0), stage := 0, todo := [], acc := 0, t0 := 0 } : Job).opnd 8 1), 0), (R.RMP_ADD_STAT_DONE (({ idx := 0, op := 12, tag := 5, ctx := 0, after := false, core := 0, ent := ([12, 0, 0, 0, 0, 0, 0, 0, 1, 3, 7] ++ List.replicate 53 0), stage := 0, todo := [], acc := 0, t0 := 0 } : Job).opnd 8 1), 0)]))) ∧
    ((ran (({ (rig.puts ([(R.MGT_MODE_MODE, 1), (R.HLM_BOOT_STAT_STEP, 13)] ++ (List.range 11).map (fun n => (inService n, 1)))) with masked := [], mgt := { rig.mgt with jobs := [{ idx := 0, op := 12, tag := 5, ctx := 0, after := false, core := 0, ent := ([12, 0, 0, 0, 0, 0, 0, 0, 1, 3, 7] ++ List.replicate 53 0), stage := 0, todo := [], acc := 0, t0 := 0 }] } } : State).puts [(R.RMP_ADD_STAT_REJ (({ idx := 0, op := 12, tag := 5, ctx := 0, after := false, core := 0, ent := ([12, 0, 0, 0, 0, 0, 0, 0, 1, 3, 7] ++ List.replicate 53 0), stage := 0, todo := [], acc := 0, t0 := 0 } : Job).opnd 8 1), 0), (R.RMP_ADD_STAT_DONE (({ idx := 0, op := 12, tag := 5, ctx := 0, after := false, core := 0, ent := ([12, 0, 0, 0, 0, 0, 0, 0, 1, 3, 7] ++ List.replicate 53 0), stage := 0, todo := [], acc := 0, t0 := 0 } : Job).opnd 8 1), 0)]) (exec (.remapAdd ((({ (rig.puts ([(R.MGT_MODE_MODE, 1), (R.HLM_BOOT_STAT_STEP, 13)] ++ (List.range 11).map (fun n => (inService n, 1)))) with masked := [], mgt := { rig.mgt with jobs := [{ idx := 0, op := 12, tag := 5, ctx := 0, after := false, core := 0, ent := ([12, 0, 0, 0, 0, 0, 0, 0, 1, 3, 7] ++ List.replicate 53 0), stage := 0, todo := [], acc := 0, t0 := 0 }] } } : State).puts [(R.RMP_ADD_STAT_REJ (({ idx := 0, op := 12, tag := 5, ctx := 0, after := false, core := 0, ent := ([12, 0, 0, 0, 0, 0, 0, 0, 1, 3, 7] ++ List.replicate 53 0), stage := 0, todo := [], acc := 0, t0 := 0 } : Job).opnd 8 1), 0), (R.RMP_ADD_STAT_DONE (({ idx := 0, op := 12, tag := 5, ctx := 0, after := false, core := 0, ent := ([12, 0, 0, 0, 0, 0, 0, 0, 1, 3, 7] ++ List.replicate 53 0), stage := 0, todo := [], acc := 0, t0 := 0 } : Job).opnd 8 1), 0)]).partCore (({ idx := 0, op := 12, tag := 5, ctx := 0, after := false, core := 0, ent := ([12, 0, 0, 0, 0, 0, 0, 0, 1, 3, 7] ++ List.replicate 53 0), stage := 0, todo := [], acc := 0, t0 := 0 } : Job).opnd 8 1)) (Fin.ofNat 128 (({ idx := 0, op := 12, tag := 5, ctx := 0, after := false, core := 0, ent := ([12, 0, 0, 0, 0, 0, 0, 0, 1, 3, 7] ++ List.replicate 53 0), stage := 0, todo := [], acc := 0, t0 := 0 } : Job).opnd 8 1)) (BitVec.ofNat 32 (({ idx := 0, op := 12, tag := 5, ctx := 0, after := false, core := 0, ent := ([12, 0, 0, 0, 0, 0, 0, 0, 1, 3, 7] ++ List.replicate 53 0), stage := 0, todo := [], acc := 0, t0 := 0 } : Job).opnd 10 2 + ({ idx := 0, op := 12, tag := 5, ctx := 0, after := false, core := 0, ent := ([12, 0, 0, 0, 0, 0, 0, 0, 1, 3, 7] ++ List.replicate 53 0), stage := 0, todo := [], acc := 0, t0 := 0 } : Job).opnd 9 1 * 4096 + 2 ^ 31))) (({ (rig.puts ([(R.MGT_MODE_MODE, 1), (R.HLM_BOOT_STAT_STEP, 13)] ++ (List.range 11).map (fun n => (inService n, 1)))) with masked := [], mgt := { rig.mgt with jobs := [{ idx := 0, op := 12, tag := 5, ctx := 0, after := false, core := 0, ent := ([12, 0, 0, 0, 0, 0, 0, 0, 1, 3, 7] ++ List.replicate 53 0), stage := 0, todo := [], acc := 0, t0 := 0 }] } } : State).puts [(R.RMP_ADD_STAT_REJ (({ idx := 0, op := 12, tag := 5, ctx := 0, after := false, core := 0, ent := ([12, 0, 0, 0, 0, 0, 0, 0, 1, 3, 7] ++ List.replicate 53 0), stage := 0, todo := [], acc := 0, t0 := 0 } : Job).opnd 8 1), 0), (R.RMP_ADD_STAT_DONE (({ idx := 0, op := 12, tag := 5, ctx := 0, after := false, core := 0, ent := ([12, 0, 0, 0, 0, 0, 0, 0, 1, 3, 7] ++ List.replicate 53 0), stage := 0, todo := [], acc := 0, t0 := 0 } : Job).opnd 8 1), 0)])) : State).bit (R.RMP_ADD_STAT_REJ (({ idx := 0, op := 12, tag := 5, ctx := 0, after := false, core := 0, ent := ([12, 0, 0, 0, 0, 0, 0, 0, 1, 3, 7] ++ List.replicate 53 0), stage := 0, todo := [], acc := 0, t0 := 0 } : Job).opnd 8 1)) = false) ∧
    ((ran (({ (rig.puts ([(R.MGT_MODE_MODE, 1), (R.HLM_BOOT_STAT_STEP, 13)] ++ (List.range 11).map (fun n => (inService n, 1)))) with masked := [], mgt := { rig.mgt with jobs := [{ idx := 0, op := 12, tag := 5, ctx := 0, after := false, core := 0, ent := ([12, 0, 0, 0, 0, 0, 0, 0, 1, 3, 7] ++ List.replicate 53 0), stage := 0, todo := [], acc := 0, t0 := 0 }] } } : State).puts [(R.RMP_ADD_STAT_REJ (({ idx := 0, op := 12, tag := 5, ctx := 0, after := false, core := 0, ent := ([12, 0, 0, 0, 0, 0, 0, 0, 1, 3, 7] ++ List.replicate 53 0), stage := 0, todo := [], acc := 0, t0 := 0 } : Job).opnd 8 1), 0), (R.RMP_ADD_STAT_DONE (({ idx := 0, op := 12, tag := 5, ctx := 0, after := false, core := 0, ent := ([12, 0, 0, 0, 0, 0, 0, 0, 1, 3, 7] ++ List.replicate 53 0), stage := 0, todo := [], acc := 0, t0 := 0 } : Job).opnd 8 1), 0)]) (exec (.remapAdd ((({ (rig.puts ([(R.MGT_MODE_MODE, 1), (R.HLM_BOOT_STAT_STEP, 13)] ++ (List.range 11).map (fun n => (inService n, 1)))) with masked := [], mgt := { rig.mgt with jobs := [{ idx := 0, op := 12, tag := 5, ctx := 0, after := false, core := 0, ent := ([12, 0, 0, 0, 0, 0, 0, 0, 1, 3, 7] ++ List.replicate 53 0), stage := 0, todo := [], acc := 0, t0 := 0 }] } } : State).puts [(R.RMP_ADD_STAT_REJ (({ idx := 0, op := 12, tag := 5, ctx := 0, after := false, core := 0, ent := ([12, 0, 0, 0, 0, 0, 0, 0, 1, 3, 7] ++ List.replicate 53 0), stage := 0, todo := [], acc := 0, t0 := 0 } : Job).opnd 8 1), 0), (R.RMP_ADD_STAT_DONE (({ idx := 0, op := 12, tag := 5, ctx := 0, after := false, core := 0, ent := ([12, 0, 0, 0, 0, 0, 0, 0, 1, 3, 7] ++ List.replicate 53 0), stage := 0, todo := [], acc := 0, t0 := 0 } : Job).opnd 8 1), 0)]).partCore (({ idx := 0, op := 12, tag := 5, ctx := 0, after := false, core := 0, ent := ([12, 0, 0, 0, 0, 0, 0, 0, 1, 3, 7] ++ List.replicate 53 0), stage := 0, todo := [], acc := 0, t0 := 0 } : Job).opnd 8 1)) (Fin.ofNat 128 (({ idx := 0, op := 12, tag := 5, ctx := 0, after := false, core := 0, ent := ([12, 0, 0, 0, 0, 0, 0, 0, 1, 3, 7] ++ List.replicate 53 0), stage := 0, todo := [], acc := 0, t0 := 0 } : Job).opnd 8 1)) (BitVec.ofNat 32 (({ idx := 0, op := 12, tag := 5, ctx := 0, after := false, core := 0, ent := ([12, 0, 0, 0, 0, 0, 0, 0, 1, 3, 7] ++ List.replicate 53 0), stage := 0, todo := [], acc := 0, t0 := 0 } : Job).opnd 10 2 + ({ idx := 0, op := 12, tag := 5, ctx := 0, after := false, core := 0, ent := ([12, 0, 0, 0, 0, 0, 0, 0, 1, 3, 7] ++ List.replicate 53 0), stage := 0, todo := [], acc := 0, t0 := 0 } : Job).opnd 9 1 * 4096 + 2 ^ 31))) (({ (rig.puts ([(R.MGT_MODE_MODE, 1), (R.HLM_BOOT_STAT_STEP, 13)] ++ (List.range 11).map (fun n => (inService n, 1)))) with masked := [], mgt := { rig.mgt with jobs := [{ idx := 0, op := 12, tag := 5, ctx := 0, after := false, core := 0, ent := ([12, 0, 0, 0, 0, 0, 0, 0, 1, 3, 7] ++ List.replicate 53 0), stage := 0, todo := [], acc := 0, t0 := 0 }] } } : State).puts [(R.RMP_ADD_STAT_REJ (({ idx := 0, op := 12, tag := 5, ctx := 0, after := false, core := 0, ent := ([12, 0, 0, 0, 0, 0, 0, 0, 1, 3, 7] ++ List.replicate 53 0), stage := 0, todo := [], acc := 0, t0 := 0 } : Job).opnd 8 1), 0), (R.RMP_ADD_STAT_DONE (({ idx := 0, op := 12, tag := 5, ctx := 0, after := false, core := 0, ent := ([12, 0, 0, 0, 0, 0, 0, 0, 1, 3, 7] ++ List.replicate 53 0), stage := 0, todo := [], acc := 0, t0 := 0 } : Job).opnd 8 1), 0)])) : State).bit (R.RMP_ADD_STAT_DONE (({ idx := 0, op := 12, tag := 5, ctx := 0, after := false, core := 0, ent := ([12, 0, 0, 0, 0, 0, 0, 0, 1, 3, 7] ++ List.replicate 53 0), stage := 0, todo := [], acc := 0, t0 := 0 } : Job).opnd 8 1)) = false) := by decide +kernel

theorem witness_unitSubmissionsComplete_sqRemap_over :
    (({ (rig.puts ([(R.MGT_MODE_MODE, 1), (R.HLM_BOOT_STAT_STEP, 13)] ++ (List.range 11).map (fun n => (inService n, 1)) ++ [(R.RMP_ADD_STAT_DONE 1, 1)])) with masked := [], mgt := { rig.mgt with jobs := [{ idx := 0, op := 12, tag := 5, ctx := 0, after := false, core := 0, ent := ([12, 0, 0, 0, 0, 0, 0, 0, 1] ++ List.replicate 55 0), stage := 1, todo := [], acc := 0, t0 := 0 }] } } : State).mgt.jobs.find? (fun z => decide (z.idx = (0 : W32).toNat) && decide (z.op = 0x0C)) = some ({ idx := 0, op := 12, tag := 5, ctx := 0, after := false, core := 0, ent := ([12, 0, 0, 0, 0, 0, 0, 0, 1] ++ List.replicate 55 0), stage := 1, todo := [], acc := 0, t0 := 0 } : Job)) ∧
    (({ (rig.puts ([(R.MGT_MODE_MODE, 1), (R.HLM_BOOT_STAT_STEP, 13)] ++ (List.range 11).map (fun n => (inService n, 1)) ++ [(R.RMP_ADD_STAT_DONE 1, 1)])) with masked := [], mgt := { rig.mgt with jobs := [{ idx := 0, op := 12, tag := 5, ctx := 0, after := false, core := 0, ent := ([12, 0, 0, 0, 0, 0, 0, 0, 1] ++ List.replicate 55 0), stage := 1, todo := [], acc := 0, t0 := 0 }] } } : State).coreDown ({ idx := 0, op := 12, tag := 5, ctx := 0, after := false, core := 0, ent := ([12, 0, 0, 0, 0, 0, 0, 0, 1] ++ List.replicate 55 0), stage := 1, todo := [], acc := 0, t0 := 0 } : Job).core = false) ∧
    (({ (rig.puts ([(R.MGT_MODE_MODE, 1), (R.HLM_BOOT_STAT_STEP, 13)] ++ (List.range 11).map (fun n => (inService n, 1)) ++ [(R.RMP_ADD_STAT_DONE 1, 1)])) with masked := [], mgt := { rig.mgt with jobs := [{ idx := 0, op := 12, tag := 5, ctx := 0, after := false, core := 0, ent := ([12, 0, 0, 0, 0, 0, 0, 0, 1] ++ List.replicate 55 0), stage := 1, todo := [], acc := 0, t0 := 0 }] } } : State).coreLive ({ idx := 0, op := 12, tag := 5, ctx := 0, after := false, core := 0, ent := ([12, 0, 0, 0, 0, 0, 0, 0, 1] ++ List.replicate 55 0), stage := 1, todo := [], acc := 0, t0 := 0 } : Job).core = true) ∧
    (({ (rig.puts ([(R.MGT_MODE_MODE, 1), (R.HLM_BOOT_STAT_STEP, 13)] ++ (List.range 11).map (fun n => (inService n, 1)) ++ [(R.RMP_ADD_STAT_DONE 1, 1)])) with masked := [], mgt := { rig.mgt with jobs := [{ idx := 0, op := 12, tag := 5, ctx := 0, after := false, core := 0, ent := ([12, 0, 0, 0, 0, 0, 0, 0, 1] ++ List.replicate 55 0), stage := 1, todo := [], acc := 0, t0 := 0 }] } } : State).rgsShut ({ idx := 0, op := 12, tag := 5, ctx := 0, after := false, core := 0, ent := ([12, 0, 0, 0, 0, 0, 0, 0, 1] ++ List.replicate 55 0), stage := 1, todo := [], acc := 0, t0 := 0 } : Job).core = false) ∧
    (({ idx := 0, op := 12, tag := 5, ctx := 0, after := false, core := 0, ent := ([12, 0, 0, 0, 0, 0, 0, 0, 1] ++ List.replicate 55 0), stage := 1, todo := [], acc := 0, t0 := 0 } : Job).stage = 1) ∧
    (({ (rig.puts ([(R.MGT_MODE_MODE, 1), (R.HLM_BOOT_STAT_STEP, 13)] ++ (List.range 11).map (fun n => (inService n, 1)) ++ [(R.RMP_ADD_STAT_DONE 1, 1)])) with masked := [], mgt := { rig.mgt with jobs := [{ idx := 0, op := 12, tag := 5, ctx := 0, after := false, core := 0, ent := ([12, 0, 0, 0, 0, 0, 0, 0, 1] ++ List.replicate 55 0), stage := 1, todo := [], acc := 0, t0 := 0 }] } } : State).cabAns (({ idx := 0, op := 12, tag := 5, ctx := 0, after := false, core := 0, ent := ([12, 0, 0, 0, 0, 0, 0, 0, 1] ++ List.replicate 55 0), stage := 1, todo := [], acc := 0, t0 := 0 } : Job).opnd 8 1) = true) ∧
    (({ (rig.puts ([(R.MGT_MODE_MODE, 1), (R.HLM_BOOT_STAT_STEP, 13)] ++ (List.range 11).map (fun n => (inService n, 1)) ++ [(R.RMP_ADD_STAT_DONE 1, 1)])) with masked := [], mgt := { rig.mgt with jobs := [{ idx := 0, op := 12, tag := 5, ctx := 0, after := false, core := 0, ent := ([12, 0, 0, 0, 0, 0, 0, 0, 1] ++ List.replicate 55 0), stage := 1, todo := [], acc := 0, t0 := 0 }] } } : State).bit (R.RMP_ADD_STAT_REJ (({ idx := 0, op := 12, tag := 5, ctx := 0, after := false, core := 0, ent := ([12, 0, 0, 0, 0, 0, 0, 0, 1] ++ List.replicate 55 0), stage := 1, todo := [], acc := 0, t0 := 0 } : Job).opnd 8 1)) = false) ∧
    (({ (rig.puts ([(R.MGT_MODE_MODE, 1), (R.HLM_BOOT_STAT_STEP, 13)] ++ (List.range 11).map (fun n => (inService n, 1)) ++ [(R.RMP_ADD_STAT_DONE 1, 1)])) with masked := [], mgt := { rig.mgt with jobs := [{ idx := 0, op := 12, tag := 5, ctx := 0, after := false, core := 0, ent := ([12, 0, 0, 0, 0, 0, 0, 0, 1] ++ List.replicate 55 0), stage := 1, todo := [], acc := 0, t0 := 0 }] } } : State).bit (R.RMP_ADD_STAT_DONE (({ idx := 0, op := 12, tag := 5, ctx := 0, after := false, core := 0, ent := ([12, 0, 0, 0, 0, 0, 0, 0, 1] ++ List.replicate 55 0), stage := 1, todo := [], acc := 0, t0 := 0 } : Job).opnd 8 1)) = true) := by decide +kernel

theorem witness_unitSubmissionsComplete_sqRetire :
    (({ (rig.puts ([(R.MGT_MODE_MODE, 1), (R.HLM_BOOT_STAT_STEP, 13)] ++ (List.range 11).map (fun n => (inService n, 1)))) with masked := [], mgt := { rig.mgt with jobs := [{ idx := 0, op := 13, tag := 5, ctx := 0, after := false, core := 0, ent := ([13, 0, 0, 0, 0, 0, 0, 0, 1, 3, 17] ++ List.replicate 53 0), stage := 0, todo := [], acc := 0, t0 := 0 }] } } : State).mgt.jobs.find? (fun z => decide (z.idx = (0 : W32).toNat) && decide (z.op = 0x0D)) = some ({ idx := 0, op := 13, tag := 5, ctx := 0, after := false, core := 0, ent := ([13, 0, 0, 0, 0, 0, 0, 0, 1, 3, 17] ++ List.replicate 53 0), stage := 0, todo := [], acc := 0, t0 := 0 } : Job)) ∧
    (({ (rig.puts ([(R.MGT_MODE_MODE, 1), (R.HLM_BOOT_STAT_STEP, 13)] ++ (List.range 11).map (fun n => (inService n, 1)))) with masked := [], mgt := { rig.mgt with jobs := [{ idx := 0, op := 13, tag := 5, ctx := 0, after := false, core := 0, ent := ([13, 0, 0, 0, 0, 0, 0, 0, 1, 3, 17] ++ List.replicate 53 0), stage := 0, todo := [], acc := 0, t0 := 0 }] } } : State).coreDown ({ idx := 0, op := 13, tag := 5, ctx := 0, after := false, core := 0, ent := ([13, 0, 0, 0, 0, 0, 0, 0, 1, 3, 17] ++ List.replicate 53 0), stage := 0, todo := [], acc := 0, t0 := 0 } : Job).core = false) ∧
    (({ (rig.puts ([(R.MGT_MODE_MODE, 1), (R.HLM_BOOT_STAT_STEP, 13)] ++ (List.range 11).map (fun n => (inService n, 1)))) with masked := [], mgt := { rig.mgt with jobs := [{ idx := 0, op := 13, tag := 5, ctx := 0, after := false, core := 0, ent := ([13, 0, 0, 0, 0, 0, 0, 0, 1, 3, 17] ++ List.replicate 53 0), stage := 0, todo := [], acc := 0, t0 := 0 }] } } : State).coreLive ({ idx := 0, op := 13, tag := 5, ctx := 0, after := false, core := 0, ent := ([13, 0, 0, 0, 0, 0, 0, 0, 1, 3, 17] ++ List.replicate 53 0), stage := 0, todo := [], acc := 0, t0 := 0 } : Job).core = true) ∧
    (({ (rig.puts ([(R.MGT_MODE_MODE, 1), (R.HLM_BOOT_STAT_STEP, 13)] ++ (List.range 11).map (fun n => (inService n, 1)))) with masked := [], mgt := { rig.mgt with jobs := [{ idx := 0, op := 13, tag := 5, ctx := 0, after := false, core := 0, ent := ([13, 0, 0, 0, 0, 0, 0, 0, 1, 3, 17] ++ List.replicate 53 0), stage := 0, todo := [], acc := 0, t0 := 0 }] } } : State).rgsShut ({ idx := 0, op := 13, tag := 5, ctx := 0, after := false, core := 0, ent := ([13, 0, 0, 0, 0, 0, 0, 0, 1, 3, 17] ++ List.replicate 53 0), stage := 0, todo := [], acc := 0, t0 := 0 } : Job).core = false) ∧
    (({ idx := 0, op := 13, tag := 5, ctx := 0, after := false, core := 0, ent := ([13, 0, 0, 0, 0, 0, 0, 0, 1, 3, 17] ++ List.replicate 53 0), stage := 0, todo := [], acc := 0, t0 := 0 } : Job).stage = 0) ∧
    (({ (rig.puts ([(R.MGT_MODE_MODE, 1), (R.HLM_BOOT_STAT_STEP, 13)] ++ (List.range 11).map (fun n => (inService n, 1)))) with masked := [], mgt := { rig.mgt with jobs := [{ idx := 0, op := 13, tag := 5, ctx := 0, after := false, core := 0, ent := ([13, 0, 0, 0, 0, 0, 0, 0, 1, 3, 17] ++ List.replicate 53 0), stage := 0, todo := [], acc := 0, t0 := 0 }] } } : State).jobTurn ({ idx := 0, op := 13, tag := 5, ctx := 0, after := false, core := 0, ent := ([13, 0, 0, 0, 0, 0, 0, 0, 1, 3, 17] ++ List.replicate 53 0), stage := 0, todo := [], acc := 0, t0 := 0 } : Job) = true) ∧
    (({ idx := 0, op := 13, tag := 5, ctx := 0, after := false, core := 0, ent := ([13, 0, 0, 0, 0, 0, 0, 0, 1, 3, 17] ++ List.replicate 53 0), stage := 0, todo := [], acc := 0, t0 := 0 } : Job).malformed = false) ∧
    (({ (rig.puts ([(R.MGT_MODE_MODE, 1), (R.HLM_BOOT_STAT_STEP, 13)] ++ (List.range 11).map (fun n => (inService n, 1)))) with masked := [], mgt := { rig.mgt with jobs := [{ idx := 0, op := 13, tag := 5, ctx := 0, after := false, core := 0, ent := ([13, 0, 0, 0, 0, 0, 0, 0, 1, 3, 17] ++ List.replicate 53 0), stage := 0, todo := [], acc := 0, t0 := 0 }] } } : State).outOfRange ({ idx := 0, op := 13, tag := 5, ctx := 0, after := false, core := 0, ent := ([13, 0, 0, 0, 0, 0, 0, 0, 1, 3, 17] ++ List.replicate 53 0), stage := 0, todo := [], acc := 0, t0 := 0 } : Job) = false) ∧
    (({ (rig.puts ([(R.MGT_MODE_MODE, 1), (R.HLM_BOOT_STAT_STEP, 13)] ++ (List.range 11).map (fun n => (inService n, 1)))) with masked := [], mgt := { rig.mgt with jobs := [{ idx := 0, op := 13, tag := 5, ctx := 0, after := false, core := 0, ent := ([13, 0, 0, 0, 0, 0, 0, 0, 1, 3, 17] ++ List.replicate 53 0), stage := 0, todo := [], acc := 0, t0 := 0 }] } } : State).cabAns (({ idx := 0, op := 13, tag := 5, ctx := 0, after := false, core := 0, ent := ([13, 0, 0, 0, 0, 0, 0, 0, 1, 3, 17] ++ List.replicate 53 0), stage := 0, todo := [], acc := 0, t0 := 0 } : Job).opnd 8 1) = true) ∧
    (({ (rig.puts ([(R.MGT_MODE_MODE, 1), (R.HLM_BOOT_STAT_STEP, 13)] ++ (List.range 11).map (fun n => (inService n, 1)))) with masked := [], mgt := { rig.mgt with jobs := [{ idx := 0, op := 13, tag := 5, ctx := 0, after := false, core := 0, ent := ([13, 0, 0, 0, 0, 0, 0, 0, 1, 3, 17] ++ List.replicate 53 0), stage := 0, todo := [], acc := 0, t0 := 0 }] } } : State).bit (R.BNK_RETIRE_V1 (({ idx := 0, op := 13, tag := 5, ctx := 0, after := false, core := 0, ent := ([13, 0, 0, 0, 0, 0, 0, 0, 1, 3, 17] ++ List.replicate 53 0), stage := 0, todo := [], acc := 0, t0 := 0 } : Job).opnd 8 1) (({ idx := 0, op := 13, tag := 5, ctx := 0, after := false, core := 0, ent := ([13, 0, 0, 0, 0, 0, 0, 0, 1, 3, 17] ++ List.replicate 53 0), stage := 0, todo := [], acc := 0, t0 := 0 } : Job).opnd 9 1)) = false) := by decide +kernel

theorem witness_unitSubmissionsComplete_sqLogown :
    (({ (rig.puts ([(R.MGT_MODE_MODE, 1), (R.HLM_BOOT_STAT_STEP, 13)] ++ (List.range 11).map (fun n => (inService n, 1)))) with masked := [], mgt := { rig.mgt with jobs := [{ idx := 0, op := 18, tag := 5, ctx := 0, after := false, core := 0, ent := ([18, 0, 0, 0, 0, 0, 0, 0, 1, 1] ++ List.replicate 54 0), stage := 0, todo := [], acc := 0, t0 := 0 }] } } : State).mgt.jobs.find? (fun z => decide (z.idx = (0 : W32).toNat) && decide (z.op = 0x12)) = some ({ idx := 0, op := 18, tag := 5, ctx := 0, after := false, core := 0, ent := ([18, 0, 0, 0, 0, 0, 0, 0, 1, 1] ++ List.replicate 54 0), stage := 0, todo := [], acc := 0, t0 := 0 } : Job)) ∧
    (({ (rig.puts ([(R.MGT_MODE_MODE, 1), (R.HLM_BOOT_STAT_STEP, 13)] ++ (List.range 11).map (fun n => (inService n, 1)))) with masked := [], mgt := { rig.mgt with jobs := [{ idx := 0, op := 18, tag := 5, ctx := 0, after := false, core := 0, ent := ([18, 0, 0, 0, 0, 0, 0, 0, 1, 1] ++ List.replicate 54 0), stage := 0, todo := [], acc := 0, t0 := 0 }] } } : State).coreDown ({ idx := 0, op := 18, tag := 5, ctx := 0, after := false, core := 0, ent := ([18, 0, 0, 0, 0, 0, 0, 0, 1, 1] ++ List.replicate 54 0), stage := 0, todo := [], acc := 0, t0 := 0 } : Job).core = false) ∧
    (({ (rig.puts ([(R.MGT_MODE_MODE, 1), (R.HLM_BOOT_STAT_STEP, 13)] ++ (List.range 11).map (fun n => (inService n, 1)))) with masked := [], mgt := { rig.mgt with jobs := [{ idx := 0, op := 18, tag := 5, ctx := 0, after := false, core := 0, ent := ([18, 0, 0, 0, 0, 0, 0, 0, 1, 1] ++ List.replicate 54 0), stage := 0, todo := [], acc := 0, t0 := 0 }] } } : State).coreLive ({ idx := 0, op := 18, tag := 5, ctx := 0, after := false, core := 0, ent := ([18, 0, 0, 0, 0, 0, 0, 0, 1, 1] ++ List.replicate 54 0), stage := 0, todo := [], acc := 0, t0 := 0 } : Job).core = true) ∧
    (({ (rig.puts ([(R.MGT_MODE_MODE, 1), (R.HLM_BOOT_STAT_STEP, 13)] ++ (List.range 11).map (fun n => (inService n, 1)))) with masked := [], mgt := { rig.mgt with jobs := [{ idx := 0, op := 18, tag := 5, ctx := 0, after := false, core := 0, ent := ([18, 0, 0, 0, 0, 0, 0, 0, 1, 1] ++ List.replicate 54 0), stage := 0, todo := [], acc := 0, t0 := 0 }] } } : State).rgsShut ({ idx := 0, op := 18, tag := 5, ctx := 0, after := false, core := 0, ent := ([18, 0, 0, 0, 0, 0, 0, 0, 1, 1] ++ List.replicate 54 0), stage := 0, todo := [], acc := 0, t0 := 0 } : Job).core = false) ∧
    (({ idx := 0, op := 18, tag := 5, ctx := 0, after := false, core := 0, ent := ([18, 0, 0, 0, 0, 0, 0, 0, 1, 1] ++ List.replicate 54 0), stage := 0, todo := [], acc := 0, t0 := 0 } : Job).stage = 0) ∧
    (({ (rig.puts ([(R.MGT_MODE_MODE, 1), (R.HLM_BOOT_STAT_STEP, 13)] ++ (List.range 11).map (fun n => (inService n, 1)))) with masked := [], mgt := { rig.mgt with jobs := [{ idx := 0, op := 18, tag := 5, ctx := 0, after := false, core := 0, ent := ([18, 0, 0, 0, 0, 0, 0, 0, 1, 1] ++ List.replicate 54 0), stage := 0, todo := [], acc := 0, t0 := 0 }] } } : State).jobTurn ({ idx := 0, op := 18, tag := 5, ctx := 0, after := false, core := 0, ent := ([18, 0, 0, 0, 0, 0, 0, 0, 1, 1] ++ List.replicate 54 0), stage := 0, todo := [], acc := 0, t0 := 0 } : Job) = true) ∧
    (({ idx := 0, op := 18, tag := 5, ctx := 0, after := false, core := 0, ent := ([18, 0, 0, 0, 0, 0, 0, 0, 1, 1] ++ List.replicate 54 0), stage := 0, todo := [], acc := 0, t0 := 0 } : Job).malformed = false) ∧
    (({ (rig.puts ([(R.MGT_MODE_MODE, 1), (R.HLM_BOOT_STAT_STEP, 13)] ++ (List.range 11).map (fun n => (inService n, 1)))) with masked := [], mgt := { rig.mgt with jobs := [{ idx := 0, op := 18, tag := 5, ctx := 0, after := false, core := 0, ent := ([18, 0, 0, 0, 0, 0, 0, 0, 1, 1] ++ List.replicate 54 0), stage := 0, todo := [], acc := 0, t0 := 0 }] } } : State).outOfRange ({ idx := 0, op := 18, tag := 5, ctx := 0, after := false, core := 0, ent := ([18, 0, 0, 0, 0, 0, 0, 0, 1, 1] ++ List.replicate 54 0), stage := 0, todo := [], acc := 0, t0 := 0 } : Job) = false) := by decide +kernel

theorem witness_unitSubmissionsComplete_sqLogown_owner :
    ((3 : Nat) < 4) ∧
    ((1 : Nat) < 2) ∧
    ((1 : Nat) < 2) := by decide +kernel

theorem witness_unitSubmissionsComplete_sqAssay :
    (({ (rig.puts ([(R.MGT_MODE_MODE, 1), (R.HLM_BOOT_STAT_STEP, 13)] ++ (List.range 11).map (fun n => (inService n, 1)))) with masked := [], mgt := { rig.mgt with jobs := [{ idx := 0, op := 10, tag := 5, ctx := 0, after := false, core := 0, ent := ([10, 0, 0, 0, 0, 0, 0, 0, 0, 0, 0, 0, 0, 1] ++ List.replicate 50 0), stage := 0, todo := [], acc := 0, t0 := 0 }] } } : State).mgt.jobs.find? (fun z => decide (z.idx = (0 : W32).toNat) && decide (z.op = 0x0A)) = some ({ idx := 0, op := 10, tag := 5, ctx := 0, after := false, core := 0, ent := ([10, 0, 0, 0, 0, 0, 0, 0, 0, 0, 0, 0, 0, 1] ++ List.replicate 50 0), stage := 0, todo := [], acc := 0, t0 := 0 } : Job)) ∧
    (({ (rig.puts ([(R.MGT_MODE_MODE, 1), (R.HLM_BOOT_STAT_STEP, 13)] ++ (List.range 11).map (fun n => (inService n, 1)))) with masked := [], mgt := { rig.mgt with jobs := [{ idx := 0, op := 10, tag := 5, ctx := 0, after := false, core := 0, ent := ([10, 0, 0, 0, 0, 0, 0, 0, 0, 0, 0, 0, 0, 1] ++ List.replicate 50 0), stage := 0, todo := [], acc := 0, t0 := 0 }] } } : State).coreDown ({ idx := 0, op := 10, tag := 5, ctx := 0, after := false, core := 0, ent := ([10, 0, 0, 0, 0, 0, 0, 0, 0, 0, 0, 0, 0, 1] ++ List.replicate 50 0), stage := 0, todo := [], acc := 0, t0 := 0 } : Job).core = false) ∧
    (({ (rig.puts ([(R.MGT_MODE_MODE, 1), (R.HLM_BOOT_STAT_STEP, 13)] ++ (List.range 11).map (fun n => (inService n, 1)))) with masked := [], mgt := { rig.mgt with jobs := [{ idx := 0, op := 10, tag := 5, ctx := 0, after := false, core := 0, ent := ([10, 0, 0, 0, 0, 0, 0, 0, 0, 0, 0, 0, 0, 1] ++ List.replicate 50 0), stage := 0, todo := [], acc := 0, t0 := 0 }] } } : State).coreLive ({ idx := 0, op := 10, tag := 5, ctx := 0, after := false, core := 0, ent := ([10, 0, 0, 0, 0, 0, 0, 0, 0, 0, 0, 0, 0, 1] ++ List.replicate 50 0), stage := 0, todo := [], acc := 0, t0 := 0 } : Job).core = true) ∧
    (({ (rig.puts ([(R.MGT_MODE_MODE, 1), (R.HLM_BOOT_STAT_STEP, 13)] ++ (List.range 11).map (fun n => (inService n, 1)))) with masked := [], mgt := { rig.mgt with jobs := [{ idx := 0, op := 10, tag := 5, ctx := 0, after := false, core := 0, ent := ([10, 0, 0, 0, 0, 0, 0, 0, 0, 0, 0, 0, 0, 1] ++ List.replicate 50 0), stage := 0, todo := [], acc := 0, t0 := 0 }] } } : State).rgsShut ({ idx := 0, op := 10, tag := 5, ctx := 0, after := false, core := 0, ent := ([10, 0, 0, 0, 0, 0, 0, 0, 0, 0, 0, 0, 0, 1] ++ List.replicate 50 0), stage := 0, todo := [], acc := 0, t0 := 0 } : Job).core = false) ∧
    (({ idx := 0, op := 10, tag := 5, ctx := 0, after := false, core := 0, ent := ([10, 0, 0, 0, 0, 0, 0, 0, 0, 0, 0, 0, 0, 1] ++ List.replicate 50 0), stage := 0, todo := [], acc := 0, t0 := 0 } : Job).stage = 0) ∧
    (({ (rig.puts ([(R.MGT_MODE_MODE, 1), (R.HLM_BOOT_STAT_STEP, 13)] ++ (List.range 11).map (fun n => (inService n, 1)))) with masked := [], mgt := { rig.mgt with jobs := [{ idx := 0, op := 10, tag := 5, ctx := 0, after := false, core := 0, ent := ([10, 0, 0, 0, 0, 0, 0, 0, 0, 0, 0, 0, 0, 1] ++ List.replicate 50 0), stage := 0, todo := [], acc := 0, t0 := 0 }] } } : State).jobTurn ({ idx := 0, op := 10, tag := 5, ctx := 0, after := false, core := 0, ent := ([10, 0, 0, 0, 0, 0, 0, 0, 0, 0, 0, 0, 0, 1] ++ List.replicate 50 0), stage := 0, todo := [], acc := 0, t0 := 0 } : Job) = true) ∧
    (({ idx := 0, op := 10, tag := 5, ctx := 0, after := false, core := 0, ent := ([10, 0, 0, 0, 0, 0, 0, 0, 0, 0, 0, 0, 0, 1] ++ List.replicate 50 0), stage := 0, todo := [], acc := 0, t0 := 0 } : Job).malformed = false) ∧
    (({ (rig.puts ([(R.MGT_MODE_MODE, 1), (R.HLM_BOOT_STAT_STEP, 13)] ++ (List.range 11).map (fun n => (inService n, 1)))) with masked := [], mgt := { rig.mgt with jobs := [{ idx := 0, op := 10, tag := 5, ctx := 0, after := false, core := 0, ent := ([10, 0, 0, 0, 0, 0, 0, 0, 0, 0, 0, 0, 0, 1] ++ List.replicate 50 0), stage := 0, todo := [], acc := 0, t0 := 0 }] } } : State).outOfRange ({ idx := 0, op := 10, tag := 5, ctx := 0, after := false, core := 0, ent := ([10, 0, 0, 0, 0, 0, 0, 0, 0, 0, 0, 0, 0, 1] ++ List.replicate 50 0), stage := 0, todo := [], acc := 0, t0 := 0 } : Job) = false) ∧
    ((spanCabs (({ idx := 0, op := 10, tag := 5, ctx := 0, after := false, core := 0, ent := ([10, 0, 0, 0, 0, 0, 0, 0, 0, 0, 0, 0, 0, 1] ++ List.replicate 50 0), stage := 0, todo := [], acc := 0, t0 := 0 } : Job).opnd 8 4) (({ idx := 0, op := 10, tag := 5, ctx := 0, after := false, core := 0, ent := ([10, 0, 0, 0, 0, 0, 0, 0, 0, 0, 0, 0, 0, 1] ++ List.replicate 50 0), stage := 0, todo := [], acc := 0, t0 := 0 } : Job).opnd 12 4)).find? (fun n => (({ (rig.puts ([(R.MGT_MODE_MODE, 1), (R.HLM_BOOT_STAT_STEP, 13)] ++ (List.range 11).map (fun n => (inService n, 1)))) with masked := [], mgt := { rig.mgt with jobs := [{ idx := 0, op := 10, tag := 5, ctx := 0, after := false, core := 0, ent := ([10, 0, 0, 0, 0, 0, 0, 0, 0, 0, 0, 0, 0, 1] ++ List.replicate 50 0), stage := 0, todo := [], acc := 0, t0 := 0 }] } } : State).curCab n).isNone) = none) ∧
    (([(0, 0)] : List (Nat × Nat)) = (spanCabs (({ idx := 0, op := 10, tag := 5, ctx := 0, after := false, core := 0, ent := ([10, 0, 0, 0, 0, 0, 0, 0, 0, 0, 0, 0, 0, 1] ++ List.replicate 50 0), stage := 0, todo := [], acc := 0, t0 := 0 } : Job).opnd 8 4) (({ idx := 0, op := 10, tag := 5, ctx := 0, after := false, core := 0, ent := ([10, 0, 0, 0, 0, 0, 0, 0, 0, 0, 0, 0, 0, 1] ++ List.replicate 50 0), stage := 0, todo := [], acc := 0, t0 := 0 } : Job).opnd 12 4)).filterMap (fun n => (({ (rig.puts ([(R.MGT_MODE_MODE, 1), (R.HLM_BOOT_STAT_STEP, 13)] ++ (List.range 11).map (fun n => (inService n, 1)))) with masked := [], mgt := { rig.mgt with jobs := [{ idx := 0, op := 10, tag := 5, ctx := 0, after := false, core := 0, ent := ([10, 0, 0, 0, 0, 0, 0, 0, 0, 0, 0, 0, 0, 1] ++ List.replicate 50 0), stage := 0, todo := [], acc := 0, t0 := 0 }] } } : State).curCab n).map (fun p => (n, p)))) ∧
    (([(0, 0)] : List (Nat × Nat)).any (fun e => !({ (rig.puts ([(R.MGT_MODE_MODE, 1), (R.HLM_BOOT_STAT_STEP, 13)] ++ (List.range 11).map (fun n => (inService n, 1)))) with masked := [], mgt := { rig.mgt with jobs := [{ idx := 0, op := 10, tag := 5, ctx := 0, after := false, core := 0, ent := ([10, 0, 0, 0, 0, 0, 0, 0, 0, 0, 0, 0, 0, 1] ++ List.replicate 50 0), stage := 0, todo := [], acc := 0, t0 := 0 }] } } : State).cabAns e.2) = false) := by decide +kernel

theorem witness_unitSubmissionsComplete_sqAssay_over :
    (({ (rig.puts ([(R.MGT_MODE_MODE, 1), (R.HLM_BOOT_STAT_STEP, 13)] ++ (List.range 11).map (fun n => (inService n, 1)))) with masked := [], mgt := { rig.mgt with jobs := [{ idx := 0, op := 10, tag := 5, ctx := 0, after := false, core := 0, ent := ([10, 0, 0, 0, 0, 0, 0, 0, 0, 0, 0, 0, 0, 1] ++ List.replicate 50 0), stage := 1, todo := [], acc := 0, t0 := 0 }] } } : State).mgt.jobs.find? (fun z => decide (z.idx = (0 : W32).toNat) && decide (z.op = 0x0A)) = some ({ idx := 0, op := 10, tag := 5, ctx := 0, after := false, core := 0, ent := ([10, 0, 0, 0, 0, 0, 0, 0, 0, 0, 0, 0, 0, 1] ++ List.replicate 50 0), stage := 1, todo := [], acc := 0, t0 := 0 } : Job)) ∧
    (({ (rig.puts ([(R.MGT_MODE_MODE, 1), (R.HLM_BOOT_STAT_STEP, 13)] ++ (List.range 11).map (fun n => (inService n, 1)))) with masked := [], mgt := { rig.mgt with jobs := [{ idx := 0, op := 10, tag := 5, ctx := 0, after := false, core := 0, ent := ([10, 0, 0, 0, 0, 0, 0, 0, 0, 0, 0, 0, 0, 1] ++ List.replicate 50 0), stage := 1, todo := [], acc := 0, t0 := 0 }] } } : State).coreDown ({ idx := 0, op := 10, tag := 5, ctx := 0, after := false, core := 0, ent := ([10, 0, 0, 0, 0, 0, 0, 0, 0, 0, 0, 0, 0, 1] ++ List.replicate 50 0), stage := 1, todo := [], acc := 0, t0 := 0 } : Job).core = false) ∧
    (({ (rig.puts ([(R.MGT_MODE_MODE, 1), (R.HLM_BOOT_STAT_STEP, 13)] ++ (List.range 11).map (fun n => (inService n, 1)))) with masked := [], mgt := { rig.mgt with jobs := [{ idx := 0, op := 10, tag := 5, ctx := 0, after := false, core := 0, ent := ([10, 0, 0, 0, 0, 0, 0, 0, 0, 0, 0, 0, 0, 1] ++ List.replicate 50 0), stage := 1, todo := [], acc := 0, t0 := 0 }] } } : State).coreLive ({ idx := 0, op := 10, tag := 5, ctx := 0, after := false, core := 0, ent := ([10, 0, 0, 0, 0, 0, 0, 0, 0, 0, 0, 0, 0, 1] ++ List.replicate 50 0), stage := 1, todo := [], acc := 0, t0 := 0 } : Job).core = true) ∧
    (({ (rig.puts ([(R.MGT_MODE_MODE, 1), (R.HLM_BOOT_STAT_STEP, 13)] ++ (List.range 11).map (fun n => (inService n, 1)))) with masked := [], mgt := { rig.mgt with jobs := [{ idx := 0, op := 10, tag := 5, ctx := 0, after := false, core := 0, ent := ([10, 0, 0, 0, 0, 0, 0, 0, 0, 0, 0, 0, 0, 1] ++ List.replicate 50 0), stage := 1, todo := [], acc := 0, t0 := 0 }] } } : State).rgsShut ({ idx := 0, op := 10, tag := 5, ctx := 0, after := false, core := 0, ent := ([10, 0, 0, 0, 0, 0, 0, 0, 0, 0, 0, 0, 0, 1] ++ List.replicate 50 0), stage := 1, todo := [], acc := 0, t0 := 0 } : Job).core = false) ∧
    (({ idx := 0, op := 10, tag := 5, ctx := 0, after := false, core := 0, ent := ([10, 0, 0, 0, 0, 0, 0, 0, 0, 0, 0, 0, 0, 1] ++ List.replicate 50 0), stage := 1, todo := [], acc := 0, t0 := 0 } : Job).stage = 1) ∧
    (({ idx := 0, op := 10, tag := 5, ctx := 0, after := false, core := 0, ent := ([10, 0, 0, 0, 0, 0, 0, 0, 0, 0, 0, 0, 0, 1] ++ List.replicate 50 0), stage := 1, todo := [], acc := 0, t0 := 0 } : Job).todo = []) ∧
    ((spanCabs (({ idx := 0, op := 10, tag := 5, ctx := 0, after := false, core := 0, ent := ([10, 0, 0, 0, 0, 0, 0, 0, 0, 0, 0, 0, 0, 1] ++ List.replicate 50 0), stage := 1, todo := [], acc := 0, t0 := 0 } : Job).opnd 8 4) (({ idx := 0, op := 10, tag := 5, ctx := 0, after := false, core := 0, ent := ([10, 0, 0, 0, 0, 0, 0, 0, 0, 0, 0, 0, 0, 1] ++ List.replicate 50 0), stage := 1, todo := [], acc := 0, t0 := 0 } : Job).opnd 12 4)).find? (fun n => (({ (rig.puts ([(R.MGT_MODE_MODE, 1), (R.HLM_BOOT_STAT_STEP, 13)] ++ (List.range 11).map (fun n => (inService n, 1)))) with masked := [], mgt := { rig.mgt with jobs := [{ idx := 0, op := 10, tag := 5, ctx := 0, after := false, core := 0, ent := ([10, 0, 0, 0, 0, 0, 0, 0, 0, 0, 0, 0, 0, 1] ++ List.replicate 50 0), stage := 1, todo := [], acc := 0, t0 := 0 }] } } : State).curCab n).isNone) = none) ∧
    (([(0, 0)] : List (Nat × Nat)) = (spanCabs (({ idx := 0, op := 10, tag := 5, ctx := 0, after := false, core := 0, ent := ([10, 0, 0, 0, 0, 0, 0, 0, 0, 0, 0, 0, 0, 1] ++ List.replicate 50 0), stage := 1, todo := [], acc := 0, t0 := 0 } : Job).opnd 8 4) (({ idx := 0, op := 10, tag := 5, ctx := 0, after := false, core := 0, ent := ([10, 0, 0, 0, 0, 0, 0, 0, 0, 0, 0, 0, 0, 1] ++ List.replicate 50 0), stage := 1, todo := [], acc := 0, t0 := 0 } : Job).opnd 12 4)).filterMap (fun n => (({ (rig.puts ([(R.MGT_MODE_MODE, 1), (R.HLM_BOOT_STAT_STEP, 13)] ++ (List.range 11).map (fun n => (inService n, 1)))) with masked := [], mgt := { rig.mgt with jobs := [{ idx := 0, op := 10, tag := 5, ctx := 0, after := false, core := 0, ent := ([10, 0, 0, 0, 0, 0, 0, 0, 0, 0, 0, 0, 0, 1] ++ List.replicate 50 0), stage := 1, todo := [], acc := 0, t0 := 0 }] } } : State).curCab n).map (fun p => (n, p)))) ∧
    (([(0, 0)] : List (Nat × Nat)).any (fun e => !({ (rig.puts ([(R.MGT_MODE_MODE, 1), (R.HLM_BOOT_STAT_STEP, 13)] ++ (List.range 11).map (fun n => (inService n, 1)))) with masked := [], mgt := { rig.mgt with jobs := [{ idx := 0, op := 10, tag := 5, ctx := 0, after := false, core := 0, ent := ([10, 0, 0, 0, 0, 0, 0, 0, 0, 0, 0, 0, 0, 1] ++ List.replicate 50 0), stage := 1, todo := [], acc := 0, t0 := 0 }] } } : State).cabAns e.2) = false) ∧
    (([(0, 0)] : List (Nat × Nat)).any (fun e => ({ (rig.puts ([(R.MGT_MODE_MODE, 1), (R.HLM_BOOT_STAT_STEP, 13)] ++ (List.range 11).map (fun n => (inService n, 1)))) with masked := [], mgt := { rig.mgt with jobs := [{ idx := 0, op := 10, tag := 5, ctx := 0, after := false, core := 0, ent := ([10, 0, 0, 0, 0, 0, 0, 0, 0, 0, 0, 0, 0, 1] ++ List.replicate 50 0), stage := 1, todo := [], acc := 0, t0 := 0 }] } } : State).bit (R.ASY_CTL_GO e.2)) = false) := by decide +kernel

theorem witness_unitSubmissionsComplete_sqDump :
    (({ (rig.puts ([(R.MGT_MODE_MODE, 1), (R.HLM_BOOT_STAT_STEP, 13)] ++ (List.range 11).map (fun n => (inService n, 1)) ++ [(R.LCT_FRZ_STAT_FROZEN, 1)])) with masked := [], mgt := { rig.mgt with jobs := [{ idx := 0, op := 19, tag := 5, ctx := 0, after := false, core := 0, ent := ([19, 0, 0, 0, 0] ++ List.replicate 59 0), stage := 0, todo := [], acc := 0, t0 := 0 }] } } : State).mgt.jobs.find? (fun z => decide (z.idx = (0 : W32).toNat) && decide (z.op = 0x13)) = some ({ idx := 0, op := 19, tag := 5, ctx := 0, after := false, core := 0, ent := ([19, 0, 0, 0, 0] ++ List.replicate 59 0), stage := 0, todo := [], acc := 0, t0 := 0 } : Job)) ∧
    (({ (rig.puts ([(R.MGT_MODE_MODE, 1), (R.HLM_BOOT_STAT_STEP, 13)] ++ (List.range 11).map (fun n => (inService n, 1)) ++ [(R.LCT_FRZ_STAT_FROZEN, 1)])) with masked := [], mgt := { rig.mgt with jobs := [{ idx := 0, op := 19, tag := 5, ctx := 0, after := false, core := 0, ent := ([19, 0, 0, 0, 0] ++ List.replicate 59 0), stage := 0, todo := [], acc := 0, t0 := 0 }] } } : State).coreDown ({ idx := 0, op := 19, tag := 5, ctx := 0, after := false, core := 0, ent := ([19, 0, 0, 0, 0] ++ List.replicate 59 0), stage := 0, todo := [], acc := 0, t0 := 0 } : Job).core = false) ∧
    (({ (rig.puts ([(R.MGT_MODE_MODE, 1), (R.HLM_BOOT_STAT_STEP, 13)] ++ (List.range 11).map (fun n => (inService n, 1)) ++ [(R.LCT_FRZ_STAT_FROZEN, 1)])) with masked := [], mgt := { rig.mgt with jobs := [{ idx := 0, op := 19, tag := 5, ctx := 0, after := false, core := 0, ent := ([19, 0, 0, 0, 0] ++ List.replicate 59 0), stage := 0, todo := [], acc := 0, t0 := 0 }] } } : State).coreLive ({ idx := 0, op := 19, tag := 5, ctx := 0, after := false, core := 0, ent := ([19, 0, 0, 0, 0] ++ List.replicate 59 0), stage := 0, todo := [], acc := 0, t0 := 0 } : Job).core = true) ∧
    (({ (rig.puts ([(R.MGT_MODE_MODE, 1), (R.HLM_BOOT_STAT_STEP, 13)] ++ (List.range 11).map (fun n => (inService n, 1)) ++ [(R.LCT_FRZ_STAT_FROZEN, 1)])) with masked := [], mgt := { rig.mgt with jobs := [{ idx := 0, op := 19, tag := 5, ctx := 0, after := false, core := 0, ent := ([19, 0, 0, 0, 0] ++ List.replicate 59 0), stage := 0, todo := [], acc := 0, t0 := 0 }] } } : State).rgsShut ({ idx := 0, op := 19, tag := 5, ctx := 0, after := false, core := 0, ent := ([19, 0, 0, 0, 0] ++ List.replicate 59 0), stage := 0, todo := [], acc := 0, t0 := 0 } : Job).core = false) ∧
    (({ idx := 0, op := 19, tag := 5, ctx := 0, after := false, core := 0, ent := ([19, 0, 0, 0, 0] ++ List.replicate 59 0), stage := 0, todo := [], acc := 0, t0 := 0 } : Job).stage = 0) ∧
    (({ (rig.puts ([(R.MGT_MODE_MODE, 1), (R.HLM_BOOT_STAT_STEP, 13)] ++ (List.range 11).map (fun n => (inService n, 1)) ++ [(R.LCT_FRZ_STAT_FROZEN, 1)])) with masked := [], mgt := { rig.mgt with jobs := [{ idx := 0, op := 19, tag := 5, ctx := 0, after := false, core := 0, ent := ([19, 0, 0, 0, 0] ++ List.replicate 59 0), stage := 0, todo := [], acc := 0, t0 := 0 }] } } : State).jobTurn ({ idx := 0, op := 19, tag := 5, ctx := 0, after := false, core := 0, ent := ([19, 0, 0, 0, 0] ++ List.replicate 59 0), stage := 0, todo := [], acc := 0, t0 := 0 } : Job) = true) ∧
    (({ idx := 0, op := 19, tag := 5, ctx := 0, after := false, core := 0, ent := ([19, 0, 0, 0, 0] ++ List.replicate 59 0), stage := 0, todo := [], acc := 0, t0 := 0 } : Job).malformed = false) ∧
    (({ (rig.puts ([(R.MGT_MODE_MODE, 1), (R.HLM_BOOT_STAT_STEP, 13)] ++ (List.range 11).map (fun n => (inService n, 1)) ++ [(R.LCT_FRZ_STAT_FROZEN, 1)])) with masked := [], mgt := { rig.mgt with jobs := [{ idx := 0, op := 19, tag := 5, ctx := 0, after := false, core := 0, ent := ([19, 0, 0, 0, 0] ++ List.replicate 59 0), stage := 0, todo := [], acc := 0, t0 := 0 }] } } : State).outOfRange ({ idx := 0, op := 19, tag := 5, ctx := 0, after := false, core := 0, ent := ([19, 0, 0, 0, 0] ++ List.replicate 59 0), stage := 0, todo := [], acc := 0, t0 := 0 } : Job) = false) ∧
    (({ (rig.puts ([(R.MGT_MODE_MODE, 1), (R.HLM_BOOT_STAT_STEP, 13)] ++ (List.range 11).map (fun n => (inService n, 1)) ++ [(R.LCT_FRZ_STAT_FROZEN, 1)])) with masked := [], mgt := { rig.mgt with jobs := [{ idx := 0, op := 19, tag := 5, ctx := 0, after := false, core := 0, ent := ([19, 0, 0, 0, 0] ++ List.replicate 59 0), stage := 0, todo := [], acc := 0, t0 := 0 }] } } : State).frozen = true) := by decide +kernel

theorem witness_unitSubmissionsComplete_sqDump_freezes :
    (({ (rig.puts ([(R.MGT_MODE_MODE, 1), (R.HLM_BOOT_STAT_STEP, 13)] ++ (List.range 11).map (fun n => (inService n, 1)))) with masked := [], mgt := { rig.mgt with jobs := [{ idx := 0, op := 19, tag := 5, ctx := 0, after := false, core := 0, ent := ([19, 0, 0, 0, 0] ++ List.replicate 59 0), stage := 0, todo := [], acc := 0, t0 := 0 }] } } : State).mgt.jobs.find? (fun z => decide (z.idx = (0 : W32).toNat) && decide (z.op = 0x13)) = some ({ idx := 0, op := 19, tag := 5, ctx := 0, after := false, core := 0, ent := ([19, 0, 0, 0, 0] ++ List.replicate 59 0), stage := 0, todo := [], acc := 0, t0 := 0 } : Job)) ∧
    (({ (rig.puts ([(R.MGT_MODE_MODE, 1), (R.HLM_BOOT_STAT_STEP, 13)] ++ (List.range 11).map (fun n => (inService n, 1)))) with masked := [], mgt := { rig.mgt with jobs := [{ idx := 0, op := 19, tag := 5, ctx := 0, after := false, core := 0, ent := ([19, 0, 0, 0, 0] ++ List.replicate 59 0), stage := 0, todo := [], acc := 0, t0 := 0 }] } } : State).coreDown ({ idx := 0, op := 19, tag := 5, ctx := 0, after := false, core := 0, ent := ([19, 0, 0, 0, 0] ++ List.replicate 59 0), stage := 0, todo := [], acc := 0, t0 := 0 } : Job).core = false) ∧
    (({ (rig.puts ([(R.MGT_MODE_MODE, 1), (R.HLM_BOOT_STAT_STEP, 13)] ++ (List.range 11).map (fun n => (inService n, 1)))) with masked := [], mgt := { rig.mgt with jobs := [{ idx := 0, op := 19, tag := 5, ctx := 0, after := false, core := 0, ent := ([19, 0, 0, 0, 0] ++ List.replicate 59 0), stage := 0, todo := [], acc := 0, t0 := 0 }] } } : State).coreLive ({ idx := 0, op := 19, tag := 5, ctx := 0, after := false, core := 0, ent := ([19, 0, 0, 0, 0] ++ List.replicate 59 0), stage := 0, todo := [], acc := 0, t0 := 0 } : Job).core = true) ∧
    (({ (rig.puts ([(R.MGT_MODE_MODE, 1), (R.HLM_BOOT_STAT_STEP, 13)] ++ (List.range 11).map (fun n => (inService n, 1)))) with masked := [], mgt := { rig.mgt with jobs := [{ idx := 0, op := 19, tag := 5, ctx := 0, after := false, core := 0, ent := ([19, 0, 0, 0, 0] ++ List.replicate 59 0), stage := 0, todo := [], acc := 0, t0 := 0 }] } } : State).rgsShut ({ idx := 0, op := 19, tag := 5, ctx := 0, after := false, core := 0, ent := ([19, 0, 0, 0, 0] ++ List.replicate 59 0), stage := 0, todo := [], acc := 0, t0 := 0 } : Job).core = false) ∧
    (({ idx := 0, op := 19, tag := 5, ctx := 0, after := false, core := 0, ent := ([19, 0, 0, 0, 0] ++ List.replicate 59 0), stage := 0, todo := [], acc := 0, t0 := 0 } : Job).stage = 0) ∧
    (({ (rig.puts ([(R.MGT_MODE_MODE, 1), (R.HLM_BOOT_STAT_STEP, 13)] ++ (List.range 11).map (fun n => (inService n, 1)))) with masked := [], mgt := { rig.mgt with jobs := [{ idx := 0, op := 19, tag := 5, ctx := 0, after := false, core := 0, ent := ([19, 0, 0, 0, 0] ++ List.replicate 59 0), stage := 0, todo := [], acc := 0, t0 := 0 }] } } : State).jobTurn ({ idx := 0, op := 19, tag := 5, ctx := 0, after := false, core := 0, ent := ([19, 0, 0, 0, 0] ++ List.replicate 59 0), stage := 0, todo := [], acc := 0, t0 := 0 } : Job) = true) ∧
    (({ idx := 0, op := 19, tag := 5, ctx := 0, after := false, core := 0, ent := ([19, 0, 0, 0, 0] ++ List.replicate 59 0), stage := 0, todo := [], acc := 0, t0 := 0 } : Job).malformed = false) ∧
    (({ (rig.puts ([(R.MGT_MODE_MODE, 1), (R.HLM_BOOT_STAT_STEP, 13)] ++ (List.range 11).map (fun n => (inService n, 1)))) with masked := [], mgt := { rig.mgt with jobs := [{ idx := 0, op := 19, tag := 5, ctx := 0, after := false, core := 0, ent := ([19, 0, 0, 0, 0] ++ List.replicate 59 0), stage := 0, todo := [], acc := 0, t0 := 0 }] } } : State).outOfRange ({ idx := 0, op := 19, tag := 5, ctx := 0, after := false, core := 0, ent := ([19, 0, 0, 0, 0] ++ List.replicate 59 0), stage := 0, todo := [], acc := 0, t0 := 0 } : Job) = false) ∧
    (({ (rig.puts ([(R.MGT_MODE_MODE, 1), (R.HLM_BOOT_STAT_STEP, 13)] ++ (List.range 11).map (fun n => (inService n, 1)))) with masked := [], mgt := { rig.mgt with jobs := [{ idx := 0, op := 19, tag := 5, ctx := 0, after := false, core := 0, ent := ([19, 0, 0, 0, 0] ++ List.replicate 59 0), stage := 0, todo := [], acc := 0, t0 := 0 }] } } : State).frozen = false) := by decide +kernel

theorem witness_unitSubmissionsComplete_sqDump_over :
    (({ (rig.puts ([(R.MGT_MODE_MODE, 1), (R.HLM_BOOT_STAT_STEP, 13)] ++ (List.range 11).map (fun n => (inService n, 1)) ++ [(R.SYN_DUMP_CTL_DONE 0, 1)])) with masked := [], mgt := { rig.mgt with jobs := [{ idx := 0, op := 19, tag := 5, ctx := 0, after := false, core := 0, ent := ([19, 0, 0, 0, 0] ++ List.replicate 59 0), stage := 2, todo := [], acc := 0, t0 := 0 }] } } : State).mgt.jobs.find? (fun z => decide (z.idx = (0 : W32).toNat) && decide (z.op = 0x13)) = some ({ idx := 0, op := 19, tag := 5, ctx := 0, after := false, core := 0, ent := ([19, 0, 0, 0, 0] ++ List.replicate 59 0), stage := 2, todo := [], acc := 0, t0 := 0 } : Job)) ∧
    (({ (rig.puts ([(R.MGT_MODE_MODE, 1), (R.HLM_BOOT_STAT_STEP, 13)] ++ (List.range 11).map (fun n => (inService n, 1)) ++ [(R.SYN_DUMP_CTL_DONE 0, 1)])) with masked := [], mgt := { rig.mgt with jobs := [{ idx := 0, op := 19, tag := 5, ctx := 0, after := false, core := 0, ent := ([19, 0, 0, 0, 0] ++ List.replicate 59 0), stage := 2, todo := [], acc := 0, t0 := 0 }] } } : State).coreDown ({ idx := 0, op := 19, tag := 5, ctx := 0, after := false, core := 0, ent := ([19, 0, 0, 0, 0] ++ List.replicate 59 0), stage := 2, todo := [], acc := 0, t0 := 0 } : Job).core = false) ∧
    (({ (rig.puts ([(R.MGT_MODE_MODE, 1), (R.HLM_BOOT_STAT_STEP, 13)] ++ (List.range 11).map (fun n => (inService n, 1)) ++ [(R.SYN_DUMP_CTL_DONE 0, 1)])) with masked := [], mgt := { rig.mgt with jobs := [{ idx := 0, op := 19, tag := 5, ctx := 0, after := false, core := 0, ent := ([19, 0, 0, 0, 0] ++ List.replicate 59 0), stage := 2, todo := [], acc := 0, t0 := 0 }] } } : State).coreLive ({ idx := 0, op := 19, tag := 5, ctx := 0, after := false, core := 0, ent := ([19, 0, 0, 0, 0] ++ List.replicate 59 0), stage := 2, todo := [], acc := 0, t0 := 0 } : Job).core = true) ∧
    (({ (rig.puts ([(R.MGT_MODE_MODE, 1), (R.HLM_BOOT_STAT_STEP, 13)] ++ (List.range 11).map (fun n => (inService n, 1)) ++ [(R.SYN_DUMP_CTL_DONE 0, 1)])) with masked := [], mgt := { rig.mgt with jobs := [{ idx := 0, op := 19, tag := 5, ctx := 0, after := false, core := 0, ent := ([19, 0, 0, 0, 0] ++ List.replicate 59 0), stage := 2, todo := [], acc := 0, t0 := 0 }] } } : State).rgsShut ({ idx := 0, op := 19, tag := 5, ctx := 0, after := false, core := 0, ent := ([19, 0, 0, 0, 0] ++ List.replicate 59 0), stage := 2, todo := [], acc := 0, t0 := 0 } : Job).core = false) ∧
    (({ idx := 0, op := 19, tag := 5, ctx := 0, after := false, core := 0, ent := ([19, 0, 0, 0, 0] ++ List.replicate 59 0), stage := 2, todo := [], acc := 0, t0 := 0 } : Job).stage = 2) ∧
    (({ idx := 0, op := 19, tag := 5, ctx := 0, after := false, core := 0, ent := ([19, 0, 0, 0, 0] ++ List.replicate 59 0), stage := 2, todo := [], acc := 0, t0 := 0 } : Job).acc = 0) ∧
    (({ (rig.puts ([(R.MGT_MODE_MODE, 1), (R.HLM_BOOT_STAT_STEP, 13)] ++ (List.range 11).map (fun n => (inService n, 1)) ++ [(R.SYN_DUMP_CTL_DONE 0, 1)])) with masked := [], mgt := { rig.mgt with jobs := [{ idx := 0, op := 19, tag := 5, ctx := 0, after := false, core := 0, ent := ([19, 0, 0, 0, 0] ++ List.replicate 59 0), stage := 2, todo := [], acc := 0, t0 := 0 }] } } : State).bit (R.SYN_DUMP_CTL_REJ 0) = false) ∧
    (({ (rig.puts ([(R.MGT_MODE_MODE, 1), (R.HLM_BOOT_STAT_STEP, 13)] ++ (List.range 11).map (fun n => (inService n, 1)) ++ [(R.SYN_DUMP_CTL_DONE 0, 1)])) with masked := [], mgt := { rig.mgt with jobs := [{ idx := 0, op := 19, tag := 5, ctx := 0, after := false, core := 0, ent := ([19, 0, 0, 0, 0] ++ List.replicate 59 0), stage := 2, todo := [], acc := 0, t0 := 0 }] } } : State).bit (R.SYN_DUMP_CTL_DONE 0) = true) := by decide +kernel


theorem witness_powerAndFirmwareSubmissionsComplete_sqOppoint :
    (({ (rig.puts ([(R.MGT_MODE_MODE, 1), (R.HLM_BOOT_STAT_STEP, 13)] ++ (List.range 11).map (fun n => (inService n, 1)))) with masked := [], mgt := { rig.mgt with jobs := [{ idx := 0, op := 14, tag := 5, ctx := 0, after := false, core := 1, ent := ([14, 0, 0, 0, 0, 0, 0, 0, 3] ++ List.replicate 55 0), stage := 0, todo := [], acc := 0, t0 := 0 }] } } : State).mgt.jobs.find? (fun z => decide (z.idx = (0 : W32).toNat) && decide (z.op = 0x0E)) = some ({ idx := 0, op := 14, tag := 5, ctx := 0, after := false, core := 1, ent := ([14, 0, 0, 0, 0, 0, 0, 0, 3] ++ List.replicate 55 0), stage := 0, todo := [], acc := 0, t0 := 0 } : Job)) ∧
    (({ (rig.puts ([(R.MGT_MODE_MODE, 1), (R.HLM_BOOT_STAT_STEP, 13)] ++ (List.range 11).map (fun n => (inService n, 1)))) with masked := [], mgt := { rig.mgt with jobs := [{ idx := 0, op := 14, tag := 5, ctx := 0, after := false, core := 1, ent := ([14, 0, 0, 0, 0, 0, 0, 0, 3] ++ List.replicate 55 0), stage := 0, todo := [], acc := 0, t0 := 0 }] } } : State).coreDown ({ idx := 0, op := 14, tag := 5, ctx := 0, after := false, core := 1, ent := ([14, 0, 0, 0, 0, 0, 0, 0, 3] ++ List.replicate 55 0), stage := 0, todo := [], acc := 0, t0 := 0 } : Job).core = false) ∧
    (({ (rig.puts ([(R.MGT_MODE_MODE, 1), (R.HLM_BOOT_STAT_STEP, 13)] ++ (List.range 11).map (fun n => (inService n, 1)))) with masked := [], mgt := { rig.mgt with jobs := [{ idx := 0, op := 14, tag := 5, ctx := 0, after := false, core := 1, ent := ([14, 0, 0, 0, 0, 0, 0, 0, 3] ++ List.replicate 55 0), stage := 0, todo := [], acc := 0, t0 := 0 }] } } : State).coreLive ({ idx := 0, op := 14, tag := 5, ctx := 0, after := false, core := 1, ent := ([14, 0, 0, 0, 0, 0, 0, 0, 3] ++ List.replicate 55 0), stage := 0, todo := [], acc := 0, t0 := 0 } : Job).core = true) ∧
    (({ (rig.puts ([(R.MGT_MODE_MODE, 1), (R.HLM_BOOT_STAT_STEP, 13)] ++ (List.range 11).map (fun n => (inService n, 1)))) with masked := [], mgt := { rig.mgt with jobs := [{ idx := 0, op := 14, tag := 5, ctx := 0, after := false, core := 1, ent := ([14, 0, 0, 0, 0, 0, 0, 0, 3] ++ List.replicate 55 0), stage := 0, todo := [], acc := 0, t0 := 0 }] } } : State).rgsShut ({ idx := 0, op := 14, tag := 5, ctx := 0, after := false, core := 1, ent := ([14, 0, 0, 0, 0, 0, 0, 0, 3] ++ List.replicate 55 0), stage := 0, todo := [], acc := 0, t0 := 0 } : Job).core = false) ∧
    (({ idx := 0, op := 14, tag := 5, ctx := 0, after := false, core := 1, ent := ([14, 0, 0, 0, 0, 0, 0, 0, 3] ++ List.replicate 55 0), stage := 0, todo := [], acc := 0, t0 := 0 } : Job).stage = 0) ∧
    (({ (rig.puts ([(R.MGT_MODE_MODE, 1), (R.HLM_BOOT_STAT_STEP, 13)] ++ (List.range 11).map (fun n => (inService n, 1)))) with masked := [], mgt := { rig.mgt with jobs := [{ idx := 0, op := 14, tag := 5, ctx := 0, after := false, core := 1, ent := ([14, 0, 0, 0, 0, 0, 0, 0, 3] ++ List.replicate 55 0), stage := 0, todo := [], acc := 0, t0 := 0 }] } } : State).jobTurn ({ idx := 0, op := 14, tag := 5, ctx := 0, after := false, core := 1, ent := ([14, 0, 0, 0, 0, 0, 0, 0, 3] ++ List.replicate 55 0), stage := 0, todo := [], acc := 0, t0 := 0 } : Job) = true) ∧
    (({ idx := 0, op := 14, tag := 5, ctx := 0, after := false, core := 1, ent := ([14, 0, 0, 0, 0, 0, 0, 0, 3] ++ List.replicate 55 0), stage := 0, todo := [], acc := 0, t0 := 0 } : Job).malformed = false) ∧
    (({ (rig.puts ([(R.MGT_MODE_MODE, 1), (R.HLM_BOOT_STAT_STEP, 13)] ++ (List.range 11).map (fun n => (inService n, 1)))) with masked := [], mgt := { rig.mgt with jobs := [{ idx := 0, op := 14, tag := 5, ctx := 0, after := false, core := 1, ent := ([14, 0, 0, 0, 0, 0, 0, 0, 3] ++ List.replicate 55 0), stage := 0, todo := [], acc := 0, t0 := 0 }] } } : State).outOfRange ({ idx := 0, op := 14, tag := 5, ctx := 0, after := false, core := 1, ent := ([14, 0, 0, 0, 0, 0, 0, 0, 3] ++ List.replicate 55 0), stage := 0, todo := [], acc := 0, t0 := 0 } : Job) = false) := by decide +kernel

theorem witness_powerAndFirmwareSubmissionsComplete_sqOppoint_over :
    (({ (rig.puts ([(R.MGT_MODE_MODE, 1), (R.HLM_BOOT_STAT_STEP, 13)] ++ (List.range 11).map (fun n => (inService n, 1)))) with masked := [], mgt := { rig.mgt with jobs := [{ idx := 0, op := 14, tag := 5, ctx := 0, after := false, core := 1, ent := ([14, 0, 0, 0, 0, 0, 0, 0, 3] ++ List.replicate 55 0), stage := 3, todo := [], acc := 0, t0 := 0 }] } } : State).mgt.jobs.find? (fun z => decide (z.idx = (0 : W32).toNat) && decide (z.op = 0x0E)) = some ({ idx := 0, op := 14, tag := 5, ctx := 0, after := false, core := 1, ent := ([14, 0, 0, 0, 0, 0, 0, 0, 3] ++ List.replicate 55 0), stage := 3, todo := [], acc := 0, t0 := 0 } : Job)) ∧
    (({ (rig.puts ([(R.MGT_MODE_MODE, 1), (R.HLM_BOOT_STAT_STEP, 13)] ++ (List.range 11).map (fun n => (inService n, 1)))) with masked := [], mgt := { rig.mgt with jobs := [{ idx := 0, op := 14, tag := 5, ctx := 0, after := false, core := 1, ent := ([14, 0, 0, 0, 0, 0, 0, 0, 3] ++ List.replicate 55 0), stage := 3, todo := [], acc := 0, t0 := 0 }] } } : State).coreDown ({ idx := 0, op := 14, tag := 5, ctx := 0, after := false, core := 1, ent := ([14, 0, 0, 0, 0, 0, 0, 0, 3] ++ List.replicate 55 0), stage := 3, todo := [], acc := 0, t0 := 0 } : Job).core = false) ∧
    (({ (rig.puts ([(R.MGT_MODE_MODE, 1), (R.HLM_BOOT_STAT_STEP, 13)] ++ (List.range 11).map (fun n => (inService n, 1)))) with masked := [], mgt := { rig.mgt with jobs := [{ idx := 0, op := 14, tag := 5, ctx := 0, after := false, core := 1, ent := ([14, 0, 0, 0, 0, 0, 0, 0, 3] ++ List.replicate 55 0), stage := 3, todo := [], acc := 0, t0 := 0 }] } } : State).coreLive ({ idx := 0, op := 14, tag := 5, ctx := 0, after := false, core := 1, ent := ([14, 0, 0, 0, 0, 0, 0, 0, 3] ++ List.replicate 55 0), stage := 3, todo := [], acc := 0, t0 := 0 } : Job).core = true) ∧
    (({ (rig.puts ([(R.MGT_MODE_MODE, 1), (R.HLM_BOOT_STAT_STEP, 13)] ++ (List.range 11).map (fun n => (inService n, 1)))) with masked := [], mgt := { rig.mgt with jobs := [{ idx := 0, op := 14, tag := 5, ctx := 0, after := false, core := 1, ent := ([14, 0, 0, 0, 0, 0, 0, 0, 3] ++ List.replicate 55 0), stage := 3, todo := [], acc := 0, t0 := 0 }] } } : State).rgsShut ({ idx := 0, op := 14, tag := 5, ctx := 0, after := false, core := 1, ent := ([14, 0, 0, 0, 0, 0, 0, 0, 3] ++ List.replicate 55 0), stage := 3, todo := [], acc := 0, t0 := 0 } : Job).core = false) ∧
    (({ idx := 0, op := 14, tag := 5, ctx := 0, after := false, core := 1, ent := ([14, 0, 0, 0, 0, 0, 0, 0, 3] ++ List.replicate 55 0), stage := 3, todo := [], acc := 0, t0 := 0 } : Job).stage = 3) ∧
    (({ (rig.puts ([(R.MGT_MODE_MODE, 1), (R.HLM_BOOT_STAT_STEP, 13)] ++ (List.range 11).map (fun n => (inService n, 1)))) with masked := [], mgt := { rig.mgt with jobs := [{ idx := 0, op := 14, tag := 5, ctx := 0, after := false, core := 1, ent := ([14, 0, 0, 0, 0, 0, 0, 0, 3] ++ List.replicate 55 0), stage := 3, todo := [], acc := 0, t0 := 0 }] } } : State).bit R.LCT_FRZ_STAT_FIRMWARE = false) ∧
    (({ idx := 0, op := 14, tag := 5, ctx := 0, after := false, core := 1, ent := ([14, 0, 0, 0, 0, 0, 0, 0, 3] ++ List.replicate 55 0), stage := 3, todo := [], acc := 0, t0 := 0 } : Job).acc = 0) ∧
    (({ (rig.puts ([(R.MGT_MODE_MODE, 1), (R.HLM_BOOT_STAT_STEP, 13)] ++ (List.range 11).map (fun n => (inService n, 1)))) with masked := [], mgt := { rig.mgt with jobs := [{ idx := 0, op := 14, tag := 5, ctx := 0, after := false, core := 1, ent := ([14, 0, 0, 0, 0, 0, 0, 0, 3] ++ List.replicate 55 0), stage := 3, todo := [], acc := 0, t0 := 0 }] } } : State).f R.PWR_OP_STAT_RESULT ≠ 1) := by decide +kernel

theorem witness_powerAndFirmwareSubmissionsComplete_sqPstate :
    (({ (rig.puts ([(R.MGT_MODE_MODE, 1), (R.HLM_BOOT_STAT_STEP, 13)] ++ (List.range 11).map (fun n => (inService n, 1)))) with masked := [], mgt := { rig.mgt with jobs := [{ idx := 0, op := 15, tag := 5, ctx := 0, after := false, core := 1, ent := ([15, 0, 0, 0, 0, 0, 0, 0, 1, 0, 0, 0, 0, 0, 0, 0, 2] ++ List.replicate 47 0), stage := 0, todo := [], acc := 0, t0 := 0 }] } } : State).mgt.jobs.find? (fun z => decide (z.idx = (0 : W32).toNat) && decide (z.op = 0x0F)) = some ({ idx := 0, op := 15, tag := 5, ctx := 0, after := false, core := 1, ent := ([15, 0, 0, 0, 0, 0, 0, 0, 1, 0, 0, 0, 0, 0, 0, 0, 2] ++ List.replicate 47 0), stage := 0, todo := [], acc := 0, t0 := 0 } : Job)) ∧
    (({ (rig.puts ([(R.MGT_MODE_MODE, 1), (R.HLM_BOOT_STAT_STEP, 13)] ++ (List.range 11).map (fun n => (inService n, 1)))) with masked := [], mgt := { rig.mgt with jobs := [{ idx := 0, op := 15, tag := 5, ctx := 0, after := false, core := 1, ent := ([15, 0, 0, 0, 0, 0, 0, 0, 1, 0, 0, 0, 0, 0, 0, 0, 2] ++ List.replicate 47 0), stage := 0, todo := [], acc := 0, t0 := 0 }] } } : State).coreDown ({ idx := 0, op := 15, tag := 5, ctx := 0, after := false, core := 1, ent := ([15, 0, 0, 0, 0, 0, 0, 0, 1, 0, 0, 0, 0, 0, 0, 0, 2] ++ List.replicate 47 0), stage := 0, todo := [], acc := 0, t0 := 0 } : Job).core = false) ∧
    (({ (rig.puts ([(R.MGT_MODE_MODE, 1), (R.HLM_BOOT_STAT_STEP, 13)] ++ (List.range 11).map (fun n => (inService n, 1)))) with masked := [], mgt := { rig.mgt with jobs := [{ idx := 0, op := 15, tag := 5, ctx := 0, after := false, core := 1, ent := ([15, 0, 0, 0, 0, 0, 0, 0, 1, 0, 0, 0, 0, 0, 0, 0, 2] ++ List.replicate 47 0), stage := 0, todo := [], acc := 0, t0 := 0 }] } } : State).coreLive ({ idx := 0, op := 15, tag := 5, ctx := 0, after := false, core := 1, ent := ([15, 0, 0, 0, 0, 0, 0, 0, 1, 0, 0, 0, 0, 0, 0, 0, 2] ++ List.replicate 47 0), stage := 0, todo := [], acc := 0, t0 := 0 } : Job).core = true) ∧
    (({ (rig.puts ([(R.MGT_MODE_MODE, 1), (R.HLM_BOOT_STAT_STEP, 13)] ++ (List.range 11).map (fun n => (inService n, 1)))) with masked := [], mgt := { rig.mgt with jobs := [{ idx := 0, op := 15, tag := 5, ctx := 0, after := false, core := 1, ent := ([15, 0, 0, 0, 0, 0, 0, 0, 1, 0, 0, 0, 0, 0, 0, 0, 2] ++ List.replicate 47 0), stage := 0, todo := [], acc := 0, t0 := 0 }] } } : State).rgsShut ({ idx := 0, op := 15, tag := 5, ctx := 0, after := false, core := 1, ent := ([15, 0, 0, 0, 0, 0, 0, 0, 1, 0, 0, 0, 0, 0, 0, 0, 2] ++ List.replicate 47 0), stage := 0, todo := [], acc := 0, t0 := 0 } : Job).core = false) ∧
    (({ idx := 0, op := 15, tag := 5, ctx := 0, after := false, core := 1, ent := ([15, 0, 0, 0, 0, 0, 0, 0, 1, 0, 0, 0, 0, 0, 0, 0, 2] ++ List.replicate 47 0), stage := 0, todo := [], acc := 0, t0 := 0 } : Job).stage = 0) ∧
    (({ (rig.puts ([(R.MGT_MODE_MODE, 1), (R.HLM_BOOT_STAT_STEP, 13)] ++ (List.range 11).map (fun n => (inService n, 1)))) with masked := [], mgt := { rig.mgt with jobs := [{ idx := 0, op := 15, tag := 5, ctx := 0, after := false, core := 1, ent := ([15, 0, 0, 0, 0, 0, 0, 0, 1, 0, 0, 0, 0, 0, 0, 0, 2] ++ List.replicate 47 0), stage := 0, todo := [], acc := 0, t0 := 0 }] } } : State).jobTurn ({ idx := 0, op := 15, tag := 5, ctx := 0, after := false, core := 1, ent := ([15, 0, 0, 0, 0, 0, 0, 0, 1, 0, 0, 0, 0, 0, 0, 0, 2] ++ List.replicate 47 0), stage := 0, todo := [], acc := 0, t0 := 0 } : Job) = true) ∧
    (({ idx := 0, op := 15, tag := 5, ctx := 0, after := false, core := 1, ent := ([15, 0, 0, 0, 0, 0, 0, 0, 1, 0, 0, 0, 0, 0, 0, 0, 2] ++ List.replicate 47 0), stage := 0, todo := [], acc := 0, t0 := 0 } : Job).malformed = false) ∧
    (({ (rig.puts ([(R.MGT_MODE_MODE, 1), (R.HLM_BOOT_STAT_STEP, 13)] ++ (List.range 11).map (fun n => (inService n, 1)))) with masked := [], mgt := { rig.mgt with jobs := [{ idx := 0, op := 15, tag := 5, ctx := 0, after := false, core := 1, ent := ([15, 0, 0, 0, 0, 0, 0, 0, 1, 0, 0, 0, 0, 0, 0, 0, 2] ++ List.replicate 47 0), stage := 0, todo := [], acc := 0, t0 := 0 }] } } : State).outOfRange ({ idx := 0, op := 15, tag := 5, ctx := 0, after := false, core := 1, ent := ([15, 0, 0, 0, 0, 0, 0, 0, 1, 0, 0, 0, 0, 0, 0, 0, 2] ++ List.replicate 47 0), stage := 0, todo := [], acc := 0, t0 := 0 } : Job) = false) ∧
    (({ idx := 0, op := 15, tag := 5, ctx := 0, after := false, core := 1, ent := ([15, 0, 0, 0, 0, 0, 0, 0, 1, 0, 0, 0, 0, 0, 0, 0, 2] ++ List.replicate 47 0), stage := 0, todo := [], acc := 0, t0 := 0 } : Job).opnd 8 1 < 4) := by decide +kernel

theorem witness_powerAndFirmwareSubmissionsComplete_sqPstate_over :
    (({ (rig.puts ([(R.MGT_MODE_MODE, 1), (R.HLM_BOOT_STAT_STEP, 13)] ++ (List.range 11).map (fun n => (inService n, 1)))) with masked := [], mgt := { rig.mgt with jobs := [{ idx := 0, op := 15, tag := 5, ctx := 0, after := false, core := 1, ent := ([15, 0, 0, 0, 0, 0, 0, 0, 1, 0, 0, 0, 0, 0, 0, 0, 2] ++ List.replicate 47 0), stage := 1, todo := [], acc := 0, t0 := 0 }] } } : State).mgt.jobs.find? (fun z => decide (z.idx = (0 : W32).toNat) && decide (z.op = 0x0F)) = some ({ idx := 0, op := 15, tag := 5, ctx := 0, after := false, core := 1, ent := ([15, 0, 0, 0, 0, 0, 0, 0, 1, 0, 0, 0, 0, 0, 0, 0, 2] ++ List.replicate 47 0), stage := 1, todo := [], acc := 0, t0 := 0 } : Job)) ∧
    (({ (rig.puts ([(R.MGT_MODE_MODE, 1), (R.HLM_BOOT_STAT_STEP, 13)] ++ (List.range 11).map (fun n => (inService n, 1)))) with masked := [], mgt := { rig.mgt with jobs := [{ idx := 0, op := 15, tag := 5, ctx := 0, after := false, core := 1, ent := ([15, 0, 0, 0, 0, 0, 0, 0, 1, 0, 0, 0, 0, 0, 0, 0, 2] ++ List.replicate 47 0), stage := 1, todo := [], acc := 0, t0 := 0 }] } } : State).coreDown ({ idx := 0, op := 15, tag := 5, ctx := 0, after := false, core := 1, ent := ([15, 0, 0, 0, 0, 0, 0, 0, 1, 0, 0, 0, 0, 0, 0, 0, 2] ++ List.replicate 47 0), stage := 1, todo := [], acc := 0, t0 := 0 } : Job).core = false) ∧
    (({ (rig.puts ([(R.MGT_MODE_MODE, 1), (R.HLM_BOOT_STAT_STEP, 13)] ++ (List.range 11).map (fun n => (inService n, 1)))) with masked := [], mgt := { rig.mgt with jobs := [{ idx := 0, op := 15, tag := 5, ctx := 0, after := false, core := 1, ent := ([15, 0, 0, 0, 0, 0, 0, 0, 1, 0, 0, 0, 0, 0, 0, 0, 2] ++ List.replicate 47 0), stage := 1, todo := [], acc := 0, t0 := 0 }] } } : State).coreLive ({ idx := 0, op := 15, tag := 5, ctx := 0, after := false, core := 1, ent := ([15, 0, 0, 0, 0, 0, 0, 0, 1, 0, 0, 0, 0, 0, 0, 0, 2] ++ List.replicate 47 0), stage := 1, todo := [], acc := 0, t0 := 0 } : Job).core = true) ∧
    (({ (rig.puts ([(R.MGT_MODE_MODE, 1), (R.HLM_BOOT_STAT_STEP, 13)] ++ (List.range 11).map (fun n => (inService n, 1)))) with masked := [], mgt := { rig.mgt with jobs := [{ idx := 0, op := 15, tag := 5, ctx := 0, after := false, core := 1, ent := ([15, 0, 0, 0, 0, 0, 0, 0, 1, 0, 0, 0, 0, 0, 0, 0, 2] ++ List.replicate 47 0), stage := 1, todo := [], acc := 0, t0 := 0 }] } } : State).rgsShut ({ idx := 0, op := 15, tag := 5, ctx := 0, after := false, core := 1, ent := ([15, 0, 0, 0, 0, 0, 0, 0, 1, 0, 0, 0, 0, 0, 0, 0, 2] ++ List.replicate 47 0), stage := 1, todo := [], acc := 0, t0 := 0 } : Job).core = false) ∧
    (({ idx := 0, op := 15, tag := 5, ctx := 0, after := false, core := 1, ent := ([15, 0, 0, 0, 0, 0, 0, 0, 1, 0, 0, 0, 0, 0, 0, 0, 2] ++ List.replicate 47 0), stage := 1, todo := [], acc := 0, t0 := 0 } : Job).stage = 1) ∧
    (({ idx := 0, op := 15, tag := 5, ctx := 0, after := false, core := 1, ent := ([15, 0, 0, 0, 0, 0, 0, 0, 1, 0, 0, 0, 0, 0, 0, 0, 2] ++ List.replicate 47 0), stage := 1, todo := [], acc := 0, t0 := 0 } : Job).opnd 8 1 < 4) ∧
    (([1] : List Nat) = (List.range 128).filter (fun p => decide (({ idx := 0, op := 15, tag := 5, ctx := 0, after := false, core := 1, ent := ([15, 0, 0, 0, 0, 0, 0, 0, 1, 0, 0, 0, 0, 0, 0, 0, 2] ++ List.replicate 47 0), stage := 1, todo := [], acc := 0, t0 := 0 } : Job).opnd 16 16 / 2 ^ p % 2 = 1))) ∧
    (({ (rig.puts ([(R.MGT_MODE_MODE, 1), (R.HLM_BOOT_STAT_STEP, 13)] ++ (List.range 11).map (fun n => (inService n, 1)))) with masked := [], mgt := { rig.mgt with jobs := [{ idx := 0, op := 15, tag := 5, ctx := 0, after := false, core := 1, ent := ([15, 0, 0, 0, 0, 0, 0, 0, 1, 0, 0, 0, 0, 0, 0, 0, 2] ++ List.replicate 47 0), stage := 1, todo := [], acc := 0, t0 := 0 }] } } : State).pwr.cmds.any (fun y => ([1] : List Nat).contains y.cab) = false) ∧
    (([1] : List Nat).any (fun y => ({ (rig.puts ([(R.MGT_MODE_MODE, 1), (R.HLM_BOOT_STAT_STEP, 13)] ++ (List.range 11).map (fun n => (inService n, 1)))) with masked := [], mgt := { rig.mgt with jobs := [{ idx := 0, op := 15, tag := 5, ctx := 0, after := false, core := 1, ent := ([15, 0, 0, 0, 0, 0, 0, 0, 1, 0, 0, 0, 0, 0, 0, 0, 2] ++ List.replicate 47 0), stage := 1, todo := [], acc := 0, t0 := 0 }] } } : State).bit (cabBusy y)) = false) ∧
    (([1] : List Nat).all (fun y => decide (SMap.get 0 ({ (rig.puts ([(R.MGT_MODE_MODE, 1), (R.HLM_BOOT_STAT_STEP, 13)] ++ (List.range 11).map (fun n => (inService n, 1)))) with masked := [], mgt := { rig.mgt with jobs := [{ idx := 0, op := 15, tag := 5, ctx := 0, after := false, core := 1, ent := ([15, 0, 0, 0, 0, 0, 0, 0, 1, 0, 0, 0, 0, 0, 0, 0, 2] ++ List.replicate 47 0), stage := 1, todo := [], acc := 0, t0 := 0 }] } } : State).pwr.res y = 0)) = true) := by decide +kernel

theorem witness_powerAndFirmwareSubmissionsComplete_sqPstate_sleep :
    (({ (rig.puts ([(R.MGT_MODE_MODE, 1), (R.HLM_BOOT_STAT_STEP, 13)] ++ (List.range 11).map (fun n => (inService n, 1)))) with masked := [], mgt := { rig.mgt with jobs := [{ idx := 0, op := 15, tag := 5, ctx := 0, after := false, core := 1, ent := ([15, 0, 0, 0, 0, 0, 0, 0, 4] ++ List.replicate 55 0), stage := 0, todo := [], acc := 0, t0 := 0 }] } } : State).mgt.jobs.find? (fun z => decide (z.idx = (0 : W32).toNat) && decide (z.op = 0x0F)) = some ({ idx := 0, op := 15, tag := 5, ctx := 0, after := false, core := 1, ent := ([15, 0, 0, 0, 0, 0, 0, 0, 4] ++ List.replicate 55 0), stage := 0, todo := [], acc := 0, t0 := 0 } : Job)) ∧
    (({ (rig.puts ([(R.MGT_MODE_MODE, 1), (R.HLM_BOOT_STAT_STEP, 13)] ++ (List.range 11).map (fun n => (inService n, 1)))) with masked := [], mgt := { rig.mgt with jobs := [{ idx := 0, op := 15, tag := 5, ctx := 0, after := false, core := 1, ent := ([15, 0, 0, 0, 0, 0, 0, 0, 4] ++ List.replicate 55 0), stage := 0, todo := [], acc := 0, t0 := 0 }] } } : State).coreDown ({ idx := 0, op := 15, tag := 5, ctx := 0, after := false, core := 1, ent := ([15, 0, 0, 0, 0, 0, 0, 0, 4] ++ List.replicate 55 0), stage := 0, todo := [], acc := 0, t0 := 0 } : Job).core = false) ∧
    (({ (rig.puts ([(R.MGT_MODE_MODE, 1), (R.HLM_BOOT_STAT_STEP, 13)] ++ (List.range 11).map (fun n => (inService n, 1)))) with masked := [], mgt := { rig.mgt with jobs := [{ idx := 0, op := 15, tag := 5, ctx := 0, after := false, core := 1, ent := ([15, 0, 0, 0, 0, 0, 0, 0, 4] ++ List.replicate 55 0), stage := 0, todo := [], acc := 0, t0 := 0 }] } } : State).coreLive ({ idx := 0, op := 15, tag := 5, ctx := 0, after := false, core := 1, ent := ([15, 0, 0, 0, 0, 0, 0, 0, 4] ++ List.replicate 55 0), stage := 0, todo := [], acc := 0, t0 := 0 } : Job).core = true) ∧
    (({ (rig.puts ([(R.MGT_MODE_MODE, 1), (R.HLM_BOOT_STAT_STEP, 13)] ++ (List.range 11).map (fun n => (inService n, 1)))) with masked := [], mgt := { rig.mgt with jobs := [{ idx := 0, op := 15, tag := 5, ctx := 0, after := false, core := 1, ent := ([15, 0, 0, 0, 0, 0, 0, 0, 4] ++ List.replicate 55 0), stage := 0, todo := [], acc := 0, t0 := 0 }] } } : State).rgsShut ({ idx := 0, op := 15, tag := 5, ctx := 0, after := false, core := 1, ent := ([15, 0, 0, 0, 0, 0, 0, 0, 4] ++ List.replicate 55 0), stage := 0, todo := [], acc := 0, t0 := 0 } : Job).core = false) ∧
    (({ idx := 0, op := 15, tag := 5, ctx := 0, after := false, core := 1, ent := ([15, 0, 0, 0, 0, 0, 0, 0, 4] ++ List.replicate 55 0), stage := 0, todo := [], acc := 0, t0 := 0 } : Job).stage = 0) ∧
    (({ (rig.puts ([(R.MGT_MODE_MODE, 1), (R.HLM_BOOT_STAT_STEP, 13)] ++ (List.range 11).map (fun n => (inService n, 1)))) with masked := [], mgt := { rig.mgt with jobs := [{ idx := 0, op := 15, tag := 5, ctx := 0, after := false, core := 1, ent := ([15, 0, 0, 0, 0, 0, 0, 0, 4] ++ List.replicate 55 0), stage := 0, todo := [], acc := 0, t0 := 0 }] } } : State).jobTurn ({ idx := 0, op := 15, tag := 5, ctx := 0, after := false, core := 1, ent := ([15, 0, 0, 0, 0, 0, 0, 0, 4] ++ List.replicate 55 0), stage := 0, todo := [], acc := 0, t0 := 0 } : Job) = true) ∧
    (({ idx := 0, op := 15, tag := 5, ctx := 0, after := false, core := 1, ent := ([15, 0, 0, 0, 0, 0, 0, 0, 4] ++ List.replicate 55 0), stage := 0, todo := [], acc := 0, t0 := 0 } : Job).malformed = false) ∧
    (({ (rig.puts ([(R.MGT_MODE_MODE, 1), (R.HLM_BOOT_STAT_STEP, 13)] ++ (List.range 11).map (fun n => (inService n, 1)))) with masked := [], mgt := { rig.mgt with jobs := [{ idx := 0, op := 15, tag := 5, ctx := 0, after := false, core := 1, ent := ([15, 0, 0, 0, 0, 0, 0, 0, 4] ++ List.replicate 55 0), stage := 0, todo := [], acc := 0, t0 := 0 }] } } : State).outOfRange ({ idx := 0, op := 15, tag := 5, ctx := 0, after := false, core := 1, ent := ([15, 0, 0, 0, 0, 0, 0, 0, 4] ++ List.replicate 55 0), stage := 0, todo := [], acc := 0, t0 := 0 } : Job) = false) ∧
    (({ idx := 0, op := 15, tag := 5, ctx := 0, after := false, core := 1, ent := ([15, 0, 0, 0, 0, 0, 0, 0, 4] ++ List.replicate 55 0), stage := 0, todo := [], acc := 0, t0 := 0 } : Job).opnd 8 1 = 4) ∧
    (({ ({ (rig.puts ([(R.MGT_MODE_MODE, 1), (R.HLM_BOOT_STAT_STEP, 13)] ++ (List.range 11).map (fun n => (inService n, 1)))) with masked := [], mgt := { rig.mgt with jobs := [{ idx := 0, op := 15, tag := 5, ctx := 0, after := false, core := 1, ent := ([15, 0, 0, 0, 0, 0, 0, 0, 4] ++ List.replicate 55 0), stage := 0, todo := [], acc := 0, t0 := 0 }] } } : State) with pwr := { ({ (rig.puts ([(R.MGT_MODE_MODE, 1), (R.HLM_BOOT_STAT_STEP, 13)] ++ (List.range 11).map (fun n => (inService n, 1)))) with masked := [], mgt := { rig.mgt with jobs := [{ idx := 0, op := 15, tag := 5, ctx := 0, after := false, core := 1, ent := ([15, 0, 0, 0, 0, 0, 0, 0, 4] ++ List.replicate 55 0), stage := 0, todo := [], acc := 0, t0 := 0 }] } } : State).pwr with res := SMap.erase ({ (rig.puts ([(R.MGT_MODE_MODE, 1), (R.HLM_BOOT_STAT_STEP, 13)] ++ (List.range 11).map (fun n => (inService n, 1)))) with masked := [], mgt := { rig.mgt with jobs := [{ idx := 0, op := 15, tag := 5, ctx := 0, after := false, core := 1, ent := ([15, 0, 0, 0, 0, 0, 0, 0, 4] ++ List.replicate 55 0), stage := 0, todo := [], acc := 0, t0 := 0 }] } } : State).pwr.res 127 } } : State) = { ({ (rig.puts ([(R.MGT_MODE_MODE, 1), (R.HLM_BOOT_STAT_STEP, 13)] ++ (List.range 11).map (fun n => (inService n, 1)))) with masked := [], mgt := { rig.mgt with jobs := [{ idx := 0, op := 15, tag := 5, ctx := 0, after := false, core := 1, ent := ([15, 0, 0, 0, 0, 0, 0, 0, 4] ++ List.replicate 55 0), stage := 0, todo := [], acc := 0, t0 := 0 }] } } : State) with pwr := { ({ (rig.puts ([(R.MGT_MODE_MODE, 1), (R.HLM_BOOT_STAT_STEP, 13)] ++ (List.range 11).map (fun n => (inService n, 1)))) with masked := [], mgt := { rig.mgt with jobs := [{ idx := 0, op := 15, tag := 5, ctx := 0, after := false, core := 1, ent := ([15, 0, 0, 0, 0, 0, 0, 0, 4] ++ List.replicate 55 0), stage := 0, todo := [], acc := 0, t0 := 0 }] } } : State).pwr with res := SMap.erase ({ (rig.puts ([(R.MGT_MODE_MODE, 1), (R.HLM_BOOT_STAT_STEP, 13)] ++ (List.range 11).map (fun n => (inService n, 1)))) with masked := [], mgt := { rig.mgt with jobs := [{ idx := 0, op := 15, tag := 5, ctx := 0, after := false, core := 1, ent := ([15, 0, 0, 0, 0, 0, 0, 0, 4] ++ List.replicate 55 0), stage := 0, todo := [], acc := 0, t0 := 0 }] } } : State).pwr.res 127 } }) := by decide +kernel

theorem witness_powerAndFirmwareSubmissionsComplete_sqStage :
    (({ (rig.puts ([(R.MGT_MODE_MODE, 1), (R.HLM_BOOT_STAT_STEP, 13)] ++ (List.range 11).map (fun n => (inService n, 1)))) with masked := [], mgt := { rig.mgt with jobs := [{ idx := 0, op := 16, tag := 5, ctx := 0, after := false, core := 0, ent := ([16, 0, 0, 0, 0, 0, 0, 0, 1, 0, 0, 0, 64] ++ List.replicate 51 0), stage := 0, todo := [], acc := 0, t0 := 0 }] } } : State).mgt.jobs.find? (fun z => decide (z.idx = (0 : W32).toNat) && decide (z.op = 0x10)) = some ({ idx := 0, op := 16, tag := 5, ctx := 0, after := false, core := 0, ent := ([16, 0, 0, 0, 0, 0, 0, 0, 1, 0, 0, 0, 64] ++ List.replicate 51 0), stage := 0, todo := [], acc := 0, t0 := 0 } : Job)) ∧
    (({ (rig.puts ([(R.MGT_MODE_MODE, 1), (R.HLM_BOOT_STAT_STEP, 13)] ++ (List.range 11).map (fun n => (inService n, 1)))) with masked := [], mgt := { rig.mgt with jobs := [{ idx := 0, op := 16, tag := 5, ctx := 0, after := false, core := 0, ent := ([16, 0, 0, 0, 0, 0, 0, 0, 1, 0, 0, 0, 64] ++ List.replicate 51 0), stage := 0, todo := [], acc := 0, t0 := 0 }] } } : State).coreDown ({ idx := 0, op := 16, tag := 5, ctx := 0, after := false, core := 0, ent := ([16, 0, 0, 0, 0, 0, 0, 0, 1, 0, 0, 0, 64] ++ List.replicate 51 0), stage := 0, todo := [], acc := 0, t0 := 0 } : Job).core = false) ∧
    (({ (rig.puts ([(R.MGT_MODE_MODE, 1), (R.HLM_BOOT_STAT_STEP, 13)] ++ (List.range 11).map (fun n => (inService n, 1)))) with masked := [], mgt := { rig.mgt with jobs := [{ idx := 0, op := 16, tag := 5, ctx := 0, after := false, core := 0, ent := ([16, 0, 0, 0, 0, 0, 0, 0, 1, 0, 0, 0, 64] ++ List.replicate 51 0), stage := 0, todo := [], acc := 0, t0 := 0 }] } } : State).coreLive ({ idx := 0, op := 16, tag := 5, ctx := 0, after := false, core := 0, ent := ([16, 0, 0, 0, 0, 0, 0, 0, 1, 0, 0, 0, 64] ++ List.replicate 51 0), stage := 0, todo := [], acc := 0, t0 := 0 } : Job).core = true) ∧
    (({ (rig.puts ([(R.MGT_MODE_MODE, 1), (R.HLM_BOOT_STAT_STEP, 13)] ++ (List.range 11).map (fun n => (inService n, 1)))) with masked := [], mgt := { rig.mgt with jobs := [{ idx := 0, op := 16, tag := 5, ctx := 0, after := false, core := 0, ent := ([16, 0, 0, 0, 0, 0, 0, 0, 1, 0, 0, 0, 64] ++ List.replicate 51 0), stage := 0, todo := [], acc := 0, t0 := 0 }] } } : State).rgsShut ({ idx := 0, op := 16, tag := 5, ctx := 0, after := false, core := 0, ent := ([16, 0, 0, 0, 0, 0, 0, 0, 1, 0, 0, 0, 64] ++ List.replicate 51 0), stage := 0, todo := [], acc := 0, t0 := 0 } : Job).core = false) ∧
    (({ idx := 0, op := 16, tag := 5, ctx := 0, after := false, core := 0, ent := ([16, 0, 0, 0, 0, 0, 0, 0, 1, 0, 0, 0, 64] ++ List.replicate 51 0), stage := 0, todo := [], acc := 0, t0 := 0 } : Job).stage = 0) ∧
    (({ (rig.puts ([(R.MGT_MODE_MODE, 1), (R.HLM_BOOT_STAT_STEP, 13)] ++ (List.range 11).map (fun n => (inService n, 1)))) with masked := [], mgt := { rig.mgt with jobs := [{ idx := 0, op := 16, tag := 5, ctx := 0, after := false, core := 0, ent := ([16, 0, 0, 0, 0, 0, 0, 0, 1, 0, 0, 0, 64] ++ List.replicate 51 0), stage := 0, todo := [], acc := 0, t0 := 0 }] } } : State).jobTurn ({ idx := 0, op := 16, tag := 5, ctx := 0, after := false, core := 0, ent := ([16, 0, 0, 0, 0, 0, 0, 0, 1, 0, 0, 0, 64] ++ List.replicate 51 0), stage := 0, todo := [], acc := 0, t0 := 0 } : Job) = true) ∧
    (({ idx := 0, op := 16, tag := 5, ctx := 0, after := false, core := 0, ent := ([16, 0, 0, 0, 0, 0, 0, 0, 1, 0, 0, 0, 64] ++ List.replicate 51 0), stage := 0, todo := [], acc := 0, t0 := 0 } : Job).malformed = false) ∧
    (({ (rig.puts ([(R.MGT_MODE_MODE, 1), (R.HLM_BOOT_STAT_STEP, 13)] ++ (List.range 11).map (fun n => (inService n, 1)))) with masked := [], mgt := { rig.mgt with jobs := [{ idx := 0, op := 16, tag := 5, ctx := 0, after := false, core := 0, ent := ([16, 0, 0, 0, 0, 0, 0, 0, 1, 0, 0, 0, 64] ++ List.replicate 51 0), stage := 0, todo := [], acc := 0, t0 := 0 }] } } : State).outOfRange ({ idx := 0, op := 16, tag := 5, ctx := 0, after := false, core := 0, ent := ([16, 0, 0, 0, 0, 0, 0, 0, 1, 0, 0, 0, 64] ++ List.replicate 51 0), stage := 0, todo := [], acc := 0, t0 := 0 } : Job) = false) ∧
    (({ (rig.puts ([(R.MGT_MODE_MODE, 1), (R.HLM_BOOT_STAT_STEP, 13)] ++ (List.range 11).map (fun n => (inService n, 1)))) with masked := [], mgt := { rig.mgt with jobs := [{ idx := 0, op := 16, tag := 5, ctx := 0, after := false, core := 0, ent := ([16, 0, 0, 0, 0, 0, 0, 0, 1, 0, 0, 0, 64] ++ List.replicate 51 0), stage := 0, todo := [], acc := 0, t0 := 0 }] } } : State).roleState (({ idx := 0, op := 16, tag := 5, ctx := 0, after := false, core := 0, ent := ([16, 0, 0, 0, 0, 0, 0, 0, 1, 0, 0, 0, 64] ++ List.replicate 51 0), stage := 0, todo := [], acc := 0, t0 := 0 } : Job).opnd 8 1) = 0 ∨ ({ (rig.puts ([(R.MGT_MODE_MODE, 1), (R.HLM_BOOT_STAT_STEP, 13)] ++ (List.range 11).map (fun n => (inService n, 1)))) with masked := [], mgt := { rig.mgt with jobs := [{ idx := 0, op := 16, tag := 5, ctx := 0, after := false, core := 0, ent := ([16, 0, 0, 0, 0, 0, 0, 0, 1, 0, 0, 0, 64] ++ List.replicate 51 0), stage := 0, todo := [], acc := 0, t0 := 0 }] } } : State).roleState (({ idx := 0, op := 16, tag := 5, ctx := 0, after := false, core := 0, ent := ([16, 0, 0, 0, 0, 0, 0, 0, 1, 0, 0, 0, 64] ++ List.replicate 51 0), stage := 0, todo := [], acc := 0, t0 := 0 } : Job).opnd 8 1) = 2) := by decide +kernel

theorem witness_powerAndFirmwareSubmissionsComplete_sqStage_fails :
    (({ (rig.puts ([(R.MGT_MODE_MODE, 1), (R.HLM_BOOT_STAT_STEP, 13)] ++ (List.range 11).map (fun n => (inService n, 1)))) with masked := [], mgt := { rig.mgt with jobs := [{ idx := 0, op := 16, tag := 5, ctx := 0, after := false, core := 0, ent := ([16, 0, 0, 0, 0, 0, 0, 0, 1, 0, 0, 0, 64] ++ List.replicate 51 0), stage := 1, todo := [], acc := 0, t0 := 0 }] } } : State).mgt.jobs.find? (fun z => decide (z.idx = (0 : W32).toNat) && decide (z.op = 0x10)) = some ({ idx := 0, op := 16, tag := 5, ctx := 0, after := false, core := 0, ent := ([16, 0, 0, 0, 0, 0, 0, 0, 1, 0, 0, 0, 64] ++ List.replicate 51 0), stage := 1, todo := [], acc := 0, t0 := 0 } : Job)) ∧
    (({ (rig.puts ([(R.MGT_MODE_MODE, 1), (R.HLM_BOOT_STAT_STEP, 13)] ++ (List.range 11).map (fun n => (inService n, 1)))) with masked := [], mgt := { rig.mgt with jobs := [{ idx := 0, op := 16, tag := 5, ctx := 0, after := false, core := 0, ent := ([16, 0, 0, 0, 0, 0, 0, 0, 1, 0, 0, 0, 64] ++ List.replicate 51 0), stage := 1, todo := [], acc := 0, t0 := 0 }] } } : State).coreDown ({ idx := 0, op := 16, tag := 5, ctx := 0, after := false, core := 0, ent := ([16, 0, 0, 0, 0, 0, 0, 0, 1, 0, 0, 0, 64] ++ List.replicate 51 0), stage := 1, todo := [], acc := 0, t0 := 0 } : Job).core = false) ∧
    (({ (rig.puts ([(R.MGT_MODE_MODE, 1), (R.HLM_BOOT_STAT_STEP, 13)] ++ (List.range 11).map (fun n => (inService n, 1)))) with masked := [], mgt := { rig.mgt with jobs := [{ idx := 0, op := 16, tag := 5, ctx := 0, after := false, core := 0, ent := ([16, 0, 0, 0, 0, 0, 0, 0, 1, 0, 0, 0, 64] ++ List.replicate 51 0), stage := 1, todo := [], acc := 0, t0 := 0 }] } } : State).coreLive ({ idx := 0, op := 16, tag := 5, ctx := 0, after := false, core := 0, ent := ([16, 0, 0, 0, 0, 0, 0, 0, 1, 0, 0, 0, 64] ++ List.replicate 51 0), stage := 1, todo := [], acc := 0, t0 := 0 } : Job).core = true) ∧
    (({ (rig.puts ([(R.MGT_MODE_MODE, 1), (R.HLM_BOOT_STAT_STEP, 13)] ++ (List.range 11).map (fun n => (inService n, 1)))) with masked := [], mgt := { rig.mgt with jobs := [{ idx := 0, op := 16, tag := 5, ctx := 0, after := false, core := 0, ent := ([16, 0, 0, 0, 0, 0, 0, 0, 1, 0, 0, 0, 64] ++ List.replicate 51 0), stage := 1, todo := [], acc := 0, t0 := 0 }] } } : State).rgsShut ({ idx := 0, op := 16, tag := 5, ctx := 0, after := false, core := 0, ent := ([16, 0, 0, 0, 0, 0, 0, 0, 1, 0, 0, 0, 64] ++ List.replicate 51 0), stage := 1, todo := [], acc := 0, t0 := 0 } : Job).core = false) ∧
    (({ idx := 0, op := 16, tag := 5, ctx := 0, after := false, core := 0, ent := ([16, 0, 0, 0, 0, 0, 0, 0, 1, 0, 0, 0, 64] ++ List.replicate 51 0), stage := 1, todo := [], acc := 0, t0 := 0 } : Job).stage = 1) ∧
    (({ idx := 0, op := 16, tag := 5, ctx := 0, after := false, core := 0, ent := ([16, 0, 0, 0, 0, 0, 0, 0, 1, 0, 0, 0, 64] ++ List.replicate 51 0), stage := 1, todo := [], acc := 0, t0 := 0 } : Job).acc ≤ ({ (rig.puts ([(R.MGT_MODE_MODE, 1), (R.HLM_BOOT_STAT_STEP, 13)] ++ (List.range 11).map (fun n => (inService n, 1)))) with masked := [], mgt := { rig.mgt with jobs := [{ idx := 0, op := 16, tag := 5, ctx := 0, after := false, core := 0, ent := ([16, 0, 0, 0, 0, 0, 0, 0, 1, 0, 0, 0, 64] ++ List.replicate 51 0), stage := 1, todo := [], acc := 0, t0 := 0 }] } } : State).time.real) ∧
    (({ (rig.puts ([(R.MGT_MODE_MODE, 1), (R.HLM_BOOT_STAT_STEP, 13)] ++ (List.range 11).map (fun n => (inService n, 1)))) with masked := [], mgt := { rig.mgt with jobs := [{ idx := 0, op := 16, tag := 5, ctx := 0, after := false, core := 0, ent := ([16, 0, 0, 0, 0, 0, 0, 0, 1, 0, 0, 0, 64] ++ List.replicate 51 0), stage := 1, todo := [], acc := 0, t0 := 0 }] } } : State).msramHeld = false) ∧
    ((1 : Nat) = ({ (rig.puts ([(R.MGT_MODE_MODE, 1), (R.HLM_BOOT_STAT_STEP, 13)] ++ (List.range 11).map (fun n => (inService n, 1)))) with masked := [], mgt := { rig.mgt with jobs := [{ idx := 0, op := 16, tag := 5, ctx := 0, after := false, core := 0, ent := ([16, 0, 0, 0, 0, 0, 0, 0, 1, 0, 0, 0, 64] ++ List.replicate 51 0), stage := 1, todo := [], acc := 0, t0 := 0 }] } } : State).imgCheck (({ idx := 0, op := 16, tag := 5, ctx := 0, after := false, core := 0, ent := ([16, 0, 0, 0, 0, 0, 0, 0, 1, 0, 0, 0, 64] ++ List.replicate 51 0), stage := 1, todo := [], acc := 0, t0 := 0 } : Job).opnd 8 1) (({ idx := 0, op := 16, tag := 5, ctx := 0, after := false, core := 0, ent := ([16, 0, 0, 0, 0, 0, 0, 0, 1, 0, 0, 0, 64] ++ List.replicate 51 0), stage := 1, todo := [], acc := 0, t0 := 0 } : Job).opnd 12 4) (true : Bool) (({ (rig.puts ([(R.MGT_MODE_MODE, 1), (R.HLM_BOOT_STAT_STEP, 13)] ++ (List.range 11).map (fun n => (inService n, 1)))) with masked := [], mgt := { rig.mgt with jobs := [{ idx := 0, op := 16, tag := 5, ctx := 0, after := false, core := 0, ent := ([16, 0, 0, 0, 0, 0, 0, 0, 1, 0, 0, 0, 64] ++ List.replicate 51 0), stage := 1, todo := [], acc := 0, t0 := 0 }] } } : State).staged (({ idx := 0, op := 16, tag := 5, ctx := 0, after := false, core := 0, ent := ([16, 0, 0, 0, 0, 0, 0, 0, 1, 0, 0, 0, 64] ++ List.replicate 51 0), stage := 1, todo := [], acc := 0, t0 := 0 } : Job).opnd 12 4))) ∧
    ((1 : Nat) ≠ 0) := by decide +kernel

theorem witness_powerAndFirmwareSubmissionsComplete_sqStage_over :
    (({ (rig.puts ([(R.MGT_MODE_MODE, 1), (R.HLM_BOOT_STAT_STEP, 13)] ++ (List.range 11).map (fun n => (inService n, 1)))) with masked := [], mgt := { rig.mgt with jobs := [{ idx := 0, op := 16, tag := 5, ctx := 0, after := false, core := 0, ent := ([16, 0, 0, 0, 0, 0, 0, 0, 1, 0, 0, 0, 64] ++ List.replicate 51 0), stage := 2, todo := [], acc := 0, t0 := 0 }] } } : State).mgt.jobs.find? (fun z => decide (z.idx = (0 : W32).toNat) && decide (z.op = 0x10)) = some ({ idx := 0, op := 16, tag := 5, ctx := 0, after := false, core := 0, ent := ([16, 0, 0, 0, 0, 0, 0, 0, 1, 0, 0, 0, 64] ++ List.replicate 51 0), stage := 2, todo := [], acc := 0, t0 := 0 } : Job)) ∧
    (({ (rig.puts ([(R.MGT_MODE_MODE, 1), (R.HLM_BOOT_STAT_STEP, 13)] ++ (List.range 11).map (fun n => (inService n, 1)))) with masked := [], mgt := { rig.mgt with jobs := [{ idx := 0, op := 16, tag := 5, ctx := 0, after := false, core := 0, ent := ([16, 0, 0, 0, 0, 0, 0, 0, 1, 0, 0, 0, 64] ++ List.replicate 51 0), stage := 2, todo := [], acc := 0, t0 := 0 }] } } : State).coreDown ({ idx := 0, op := 16, tag := 5, ctx := 0, after := false, core := 0, ent := ([16, 0, 0, 0, 0, 0, 0, 0, 1, 0, 0, 0, 64] ++ List.replicate 51 0), stage := 2, todo := [], acc := 0, t0 := 0 } : Job).core = false) ∧
    (({ (rig.puts ([(R.MGT_MODE_MODE, 1), (R.HLM_BOOT_STAT_STEP, 13)] ++ (List.range 11).map (fun n => (inService n, 1)))) with masked := [], mgt := { rig.mgt with jobs := [{ idx := 0, op := 16, tag := 5, ctx := 0, after := false, core := 0, ent := ([16, 0, 0, 0, 0, 0, 0, 0, 1, 0, 0, 0, 64] ++ List.replicate 51 0), stage := 2, todo := [], acc := 0, t0 := 0 }] } } : State).coreLive ({ idx := 0, op := 16, tag := 5, ctx := 0, after := false, core := 0, ent := ([16, 0, 0, 0, 0, 0, 0, 0, 1, 0, 0, 0, 64] ++ List.replicate 51 0), stage := 2, todo := [], acc := 0, t0 := 0 } : Job).core = true) ∧
    (({ (rig.puts ([(R.MGT_MODE_MODE, 1), (R.HLM_BOOT_STAT_STEP, 13)] ++ (List.range 11).map (fun n => (inService n, 1)))) with masked := [], mgt := { rig.mgt with jobs := [{ idx := 0, op := 16, tag := 5, ctx := 0, after := false, core := 0, ent := ([16, 0, 0, 0, 0, 0, 0, 0, 1, 0, 0, 0, 64] ++ List.replicate 51 0), stage := 2, todo := [], acc := 0, t0 := 0 }] } } : State).rgsShut ({ idx := 0, op := 16, tag := 5, ctx := 0, after := false, core := 0, ent := ([16, 0, 0, 0, 0, 0, 0, 0, 1, 0, 0, 0, 64] ++ List.replicate 51 0), stage := 2, todo := [], acc := 0, t0 := 0 } : Job).core = false) ∧
    (({ idx := 0, op := 16, tag := 5, ctx := 0, after := false, core := 0, ent := ([16, 0, 0, 0, 0, 0, 0, 0, 1, 0, 0, 0, 64] ++ List.replicate 51 0), stage := 2, todo := [], acc := 0, t0 := 0 } : Job).stage = 2) ∧
    (({ idx := 0, op := 16, tag := 5, ctx := 0, after := false, core := 0, ent := ([16, 0, 0, 0, 0, 0, 0, 0, 1, 0, 0, 0, 64] ++ List.replicate 51 0), stage := 2, todo := [], acc := 0, t0 := 0 } : Job).acc ≤ ({ (rig.puts ([(R.MGT_MODE_MODE, 1), (R.HLM_BOOT_STAT_STEP, 13)] ++ (List.range 11).map (fun n => (inService n, 1)))) with masked := [], mgt := { rig.mgt with jobs := [{ idx := 0, op := 16, tag := 5, ctx := 0, after := false, core := 0, ent := ([16, 0, 0, 0, 0, 0, 0, 0, 1, 0, 0, 0, 64] ++ List.replicate 51 0), stage := 2, todo := [], acc := 0, t0 := 0 }] } } : State).time.real) ∧
    (({ (rig.puts ([(R.MGT_MODE_MODE, 1), (R.HLM_BOOT_STAT_STEP, 13)] ++ (List.range 11).map (fun n => (inService n, 1)))) with masked := [], mgt := { rig.mgt with jobs := [{ idx := 0, op := 16, tag := 5, ctx := 0, after := false, core := 0, ent := ([16, 0, 0, 0, 0, 0, 0, 0, 1, 0, 0, 0, 64] ++ List.replicate 51 0), stage := 2, todo := [], acc := 0, t0 := 0 }] } } : State).msramHeld = false) := by decide +kernel

theorem witness_powerAndFirmwareSubmissionsComplete_sqStage_copied :
    ((3 : Nat) < 4) ∧
    ((1 : Nat) < 2) ∧
    (imgField (List.replicate 0x100 0 : List Byte) 0x00C 4 ≤ slotSize (3 : Nat)) ∧
    (((List.replicate 0x100 0 : List Byte).drop 0x100).length = imgField (List.replicate 0x100 0 : List Byte) 0x00C 4) := by decide +kernel

theorem witness_powerAndFirmwareSubmissionsComplete_sqFwact :
    (({ (rig.puts ([(R.MGT_MODE_MODE, 1), (R.HLM_BOOT_STAT_STEP, 13)] ++ (List.range 11).map (fun n => (inService n, 1)) ++ [(R.MGT_IMG_STAT_STATE 1, 2)])) with masked := [], mgt := { rig.mgt with jobs := [{ idx := 0, op := 17, tag := 5, ctx := 0, after := false, core := 0, ent := ([17, 0, 0, 0, 0, 0, 0, 0, 1] ++ List.replicate 55 0), stage := 0, todo := [], acc := 0, t0 := 0 }] } } : State).mgt.jobs.find? (fun z => decide (z.idx = (0 : W32).toNat) && decide (z.op = 0x11)) = some ({ idx := 0, op := 17, tag := 5, ctx := 0, after := false, core := 0, ent := ([17, 0, 0, 0, 0, 0, 0, 0, 1] ++ List.replicate 55 0), stage := 0, todo := [], acc := 0, t0 := 0 } : Job)) ∧
    (({ (rig.puts ([(R.MGT_MODE_MODE, 1), (R.HLM_BOOT_STAT_STEP, 13)] ++ (List.range 11).map (fun n => (inService n, 1)) ++ [(R.MGT_IMG_STAT_STATE 1, 2)])) with masked := [], mgt := { rig.mgt with jobs := [{ idx := 0, op := 17, tag := 5, ctx := 0, after := false, core := 0, ent := ([17, 0, 0, 0, 0, 0, 0, 0, 1] ++ List.replicate 55 0), stage := 0, todo := [], acc := 0, t0 := 0 }] } } : State).coreDown ({ idx := 0, op := 17, tag := 5, ctx := 0, after := false, core := 0, ent := ([17, 0, 0, 0, 0, 0, 0, 0, 1] ++ List.replicate 55 0), stage := 0, todo := [], acc := 0, t0 := 0 } : Job).core = false) ∧
    (({ (rig.puts ([(R.MGT_MODE_MODE, 1), (R.HLM_BOOT_STAT_STEP, 13)] ++ (List.range 11).map (fun n => (inService n, 1)) ++ [(R.MGT_IMG_STAT_STATE 1, 2)])) with masked := [], mgt := { rig.mgt with jobs := [{ idx := 0, op := 17, tag := 5, ctx := 0, after := false, core := 0, ent := ([17, 0, 0, 0, 0, 0, 0, 0, 1] ++ List.replicate 55 0), stage := 0, todo := [], acc := 0, t0 := 0 }] } } : State).coreLive ({ idx := 0, op := 17, tag := 5, ctx := 0, after := false, core := 0, ent := ([17, 0, 0, 0, 0, 0, 0, 0, 1] ++ List.replicate 55 0), stage := 0, todo := [], acc := 0, t0 := 0 } : Job).core = true) ∧
    (({ (rig.puts ([(R.MGT_MODE_MODE, 1), (R.HLM_BOOT_STAT_STEP, 13)] ++ (List.range 11).map (fun n => (inService n, 1)) ++ [(R.MGT_IMG_STAT_STATE 1, 2)])) with masked := [], mgt := { rig.mgt with jobs := [{ idx := 0, op := 17, tag := 5, ctx := 0, after := false, core := 0, ent := ([17, 0, 0, 0, 0, 0, 0, 0, 1] ++ List.replicate 55 0), stage := 0, todo := [], acc := 0, t0 := 0 }] } } : State).rgsShut ({ idx := 0, op := 17, tag := 5, ctx := 0, after := false, core := 0, ent := ([17, 0, 0, 0, 0, 0, 0, 0, 1] ++ List.replicate 55 0), stage := 0, todo := [], acc := 0, t0 := 0 } : Job).core = false) ∧
    (({ idx := 0, op := 17, tag := 5, ctx := 0, after := false, core := 0, ent := ([17, 0, 0, 0, 0, 0, 0, 0, 1] ++ List.replicate 55 0), stage := 0, todo := [], acc := 0, t0 := 0 } : Job).stage = 0) ∧
    (({ (rig.puts ([(R.MGT_MODE_MODE, 1), (R.HLM_BOOT_STAT_STEP, 13)] ++ (List.range 11).map (fun n => (inService n, 1)) ++ [(R.MGT_IMG_STAT_STATE 1, 2)])) with masked := [], mgt := { rig.mgt with jobs := [{ idx := 0, op := 17, tag := 5, ctx := 0, after := false, core := 0, ent := ([17, 0, 0, 0, 0, 0, 0, 0, 1] ++ List.replicate 55 0), stage := 0, todo := [], acc := 0, t0 := 0 }] } } : State).jobTurn ({ idx := 0, op := 17, tag := 5, ctx := 0, after := false, core := 0, ent := ([17, 0, 0, 0, 0, 0, 0, 0, 1] ++ List.replicate 55 0), stage := 0, todo := [], acc := 0, t0 := 0 } : Job) = true) ∧
    (({ idx := 0, op := 17, tag := 5, ctx := 0, after := false, core := 0, ent := ([17, 0, 0, 0, 0, 0, 0, 0, 1] ++ List.replicate 55 0), stage := 0, todo := [], acc := 0, t0 := 0 } : Job).malformed = false) ∧
    (({ (rig.puts ([(R.MGT_MODE_MODE, 1), (R.HLM_BOOT_STAT_STEP, 13)] ++ (List.range 11).map (fun n => (inService n, 1)) ++ [(R.MGT_IMG_STAT_STATE 1, 2)])) with masked := [], mgt := { rig.mgt with jobs := [{ idx := 0, op := 17, tag := 5, ctx := 0, after := false, core := 0, ent := ([17, 0, 0, 0, 0, 0, 0, 0, 1] ++ List.replicate 55 0), stage := 0, todo := [], acc := 0, t0 := 0 }] } } : State).outOfRange ({ idx := 0, op := 17, tag := 5, ctx := 0, after := false, core := 0, ent := ([17, 0, 0, 0, 0, 0, 0, 0, 1] ++ List.replicate 55 0), stage := 0, todo := [], acc := 0, t0 := 0 } : Job) = false) ∧
    (({ (rig.puts ([(R.MGT_MODE_MODE, 1), (R.HLM_BOOT_STAT_STEP, 13)] ++ (List.range 11).map (fun n => (inService n, 1)) ++ [(R.MGT_IMG_STAT_STATE 1, 2)])) with masked := [], mgt := { rig.mgt with jobs := [{ idx := 0, op := 17, tag := 5, ctx := 0, after := false, core := 0, ent := ([17, 0, 0, 0, 0, 0, 0, 0, 1] ++ List.replicate 55 0), stage := 0, todo := [], acc := 0, t0 := 0 }] } } : State).roleState (({ idx := 0, op := 17, tag := 5, ctx := 0, after := false, core := 0, ent := ([17, 0, 0, 0, 0, 0, 0, 0, 1] ++ List.replicate 55 0), stage := 0, todo := [], acc := 0, t0 := 0 } : Job).opnd 8 1) = 2) := by decide +kernel

theorem witness_powerAndFirmwareSubmissionsComplete_sqFwact_over :
    (({ (rig.puts ([(R.MGT_MODE_MODE, 1), (R.HLM_BOOT_STAT_STEP, 13)] ++ (List.range 11).map (fun n => (inService n, 1)))) with masked := [], mgt := { rig.mgt with jobs := [{ idx := 0, op := 17, tag := 5, ctx := 0, after := false, core := 0, ent := ([17, 0, 0, 0, 0, 0, 0, 0, 1] ++ List.replicate 55 0), stage := 1, todo := [], acc := 0, t0 := 0 }], outcome := [(1, 1)] } } : State).mgt.jobs.find? (fun z => decide (z.idx = (0 : W32).toNat) && decide (z.op = 0x11)) = some ({ idx := 0, op := 17, tag := 5, ctx := 0, after := false, core := 0, ent := ([17, 0, 0, 0, 0, 0, 0, 0, 1] ++ List.replicate 55 0), stage := 1, todo := [], acc := 0, t0 := 0 } : Job)) ∧
    (({ (rig.puts ([(R.MGT_MODE_MODE, 1), (R.HLM_BOOT_STAT_STEP, 13)] ++ (List.range 11).map (fun n => (inService n, 1)))) with masked := [], mgt := { rig.mgt with jobs := [{ idx := 0, op := 17, tag := 5, ctx := 0, after := false, core := 0, ent := ([17, 0, 0, 0, 0, 0, 0, 0, 1] ++ List.replicate 55 0), stage := 1, todo := [], acc := 0, t0 := 0 }], outcome := [(1, 1)] } } : State).coreDown ({ idx := 0, op := 17, tag := 5, ctx := 0, after := false, core := 0, ent := ([17, 0, 0, 0, 0, 0, 0, 0, 1] ++ List.replicate 55 0), stage := 1, todo := [], acc := 0, t0 := 0 } : Job).core = false) ∧
    (({ (rig.puts ([(R.MGT_MODE_MODE, 1), (R.HLM_BOOT_STAT_STEP, 13)] ++ (List.range 11).map (fun n => (inService n, 1)))) with masked := [], mgt := { rig.mgt with jobs := [{ idx := 0, op := 17, tag := 5, ctx := 0, after := false, core := 0, ent := ([17, 0, 0, 0, 0, 0, 0, 0, 1] ++ List.replicate 55 0), stage := 1, todo := [], acc := 0, t0 := 0 }], outcome := [(1, 1)] } } : State).coreLive ({ idx := 0, op := 17, tag := 5, ctx := 0, after := false, core := 0, ent := ([17, 0, 0, 0, 0, 0, 0, 0, 1] ++ List.replicate 55 0), stage := 1, todo := [], acc := 0, t0 := 0 } : Job).core = true) ∧
    (({ (rig.puts ([(R.MGT_MODE_MODE, 1), (R.HLM_BOOT_STAT_STEP, 13)] ++ (List.range 11).map (fun n => (inService n, 1)))) with masked := [], mgt := { rig.mgt with jobs := [{ idx := 0, op := 17, tag := 5, ctx := 0, after := false, core := 0, ent := ([17, 0, 0, 0, 0, 0, 0, 0, 1] ++ List.replicate 55 0), stage := 1, todo := [], acc := 0, t0 := 0 }], outcome := [(1, 1)] } } : State).rgsShut ({ idx := 0, op := 17, tag := 5, ctx := 0, after := false, core := 0, ent := ([17, 0, 0, 0, 0, 0, 0, 0, 1] ++ List.replicate 55 0), stage := 1, todo := [], acc := 0, t0 := 0 } : Job).core = false) ∧
    (({ idx := 0, op := 17, tag := 5, ctx := 0, after := false, core := 0, ent := ([17, 0, 0, 0, 0, 0, 0, 0, 1] ++ List.replicate 55 0), stage := 1, todo := [], acc := 0, t0 := 0 } : Job).stage = 1) ∧
    (SMap.get 0 ({ (rig.puts ([(R.MGT_MODE_MODE, 1), (R.HLM_BOOT_STAT_STEP, 13)] ++ (List.range 11).map (fun n => (inService n, 1)))) with masked := [], mgt := { rig.mgt with jobs := [{ idx := 0, op := 17, tag := 5, ctx := 0, after := false, core := 0, ent := ([17, 0, 0, 0, 0, 0, 0, 0, 1] ++ List.replicate 55 0), stage := 1, todo := [], acc := 0, t0 := 0 }], outcome := [(1, 1)] } } : State).mgt.outcome (({ idx := 0, op := 17, tag := 5, ctx := 0, after := false, core := 0, ent := ([17, 0, 0, 0, 0, 0, 0, 0, 1] ++ List.replicate 55 0), stage := 1, todo := [], acc := 0, t0 := 0 } : Job).opnd 8 1) = 1) := by decide +kernel


theorem witness_startUpRunsItsSteps_powerOnReset :
    ((State.reset : State).boot.stage = 0) ∧
    ((State.reset : State).pwr.rtc.hidden = false) := by decide +kernel

theorem witness_startUpRunsItsSteps_powerOnReset_cores :
    (({ rig with boot := { rig.boot with stage := 3 } } : State).boot.stage = 3) ∧
    (({ rig with boot := { rig.boot with stage := 3 } } : State).boot.due ≤ ({ rig with boot := { rig.boot with stage := 3 } } : State).time.real) := by decide +kernel

theorem witness_startUpRunsItsSteps_powerOnReset_flash :
    (({ rig with boot := { rig.boot with stage := 4, sfdp := true } } : State).boot.stage = 4) ∧
    (({ rig with boot := { rig.boot with stage := 4, sfdp := true } } : State).boot.sfdp = true) ∧
    (({ rig with boot := { rig.boot with stage := 4, sfdp := true } } : State).boot.due ≤ ({ rig with boot := { rig.boot with stage := 4, sfdp := true } } : State).time.real) := by decide +kernel

theorem witness_startUpRunsItsSteps_powerOnReset_noFlash :
    (({ rig with boot := { rig.boot with stage := 4, sfdp := false } } : State).boot.stage = 4) ∧
    (({ rig with boot := { rig.boot with stage := 4, sfdp := false } } : State).boot.sfdp = false) ∧
    (({ rig with boot := { rig.boot with stage := 4, sfdp := false } } : State).boot.due ≤ ({ rig with boot := { rig.boot with stage := 4, sfdp := false } } : State).time.real) := by decide +kernel

theorem witness_startUpRunsItsSteps_powerOnReset_badImage :
    (({ rig with boot := { rig.boot with stage := 40 } } : State).boot.stage = 40) ∧
    (({ rig with boot := { rig.boot with stage := 40 } } : State).imageFail ({ rig with boot := { rig.boot with stage := 40 } } : State).imageBytes ({ rig with boot := { rig.boot with stage := 40 } } : State).boot.sig = some ((2 : Nat), (0 : Nat))) ∧
    ((2 : Nat) < 32) ∧
    ((0 : Nat) < 2 ^ 16) ∧
    (({ rig with boot := { rig.boot with stage := 40 } } : State).boot.due ≤ ({ rig with boot := { rig.boot with stage := 40 } } : State).time.real) := ⟨rfl, imageFail_magic _ _ _ (by rw [imgField_image _ _ _ (by decide)]; decide +kernel), by decide, by decide, by decide +kernel⟩

theorem witness_startUpRunsItsSteps_powerOnReset_vid :
    (({ rig with boot := { rig.boot with stage := 5, vid := true } } : State).boot.stage = 5) ∧
    (({ rig with boot := { rig.boot with stage := 5, vid := true } } : State).boot.vid = true) := by decide +kernel

theorem witness_startUpRunsItsSteps_powerOnReset_noVid :
    (({ rig with boot := { rig.boot with stage := 5 } } : State).boot.stage = 5) ∧
    (({ rig with boot := { rig.boot with stage := 5 } } : State).boot.vid = false) ∧
    (({ rig with boot := { rig.boot with stage := 5 } } : State).boot.due ≤ ({ rig with boot := { rig.boot with stage := 5 } } : State).time.real) := by decide +kernel

theorem witness_startUpRunsItsSteps_powerOnReset_bist :
    (({ rig with boot := { rig.boot with stage := 50 } } : State).boot.stage = 50) ∧
    (({ rig with boot := { rig.boot with stage := 50 } } : State).boot.due ≤ ({ rig with boot := { rig.boot with stage := 50 } } : State).time.real) := by decide +kernel

theorem witness_startUpRunsItsSteps_powerOnReset_tables :
    (({ rig with boot := { rig.boot with stage := 7 } } : State).boot.stage = 7) ∧
    ((({ rig with boot := { rig.boot with stage := 7 } } : State).loadDie (imgField ({ rig with boot := { rig.boot with stage := 7 } } : State).imageBytes 0x01B 1) : State) = ({ rig with boot := { rig.boot with stage := 7 } } : State).loadDie (imgField ({ rig with boot := { rig.boot with stage := 7 } } : State).imageBytes 0x01B 1)) ∧
    (({ rig with boot := { rig.boot with stage := 7 } } : State).boot.due ≤ ({ rig with boot := { rig.boot with stage := 7 } } : State).time.real) := ⟨rfl, rfl, by decide +kernel⟩

theorem witness_startUpRunsItsSteps_powerOnReset_lock :
    (({ rig with boot := { rig.boot with stage := 8 } } : State).boot.stage = 8) ∧
    (({ rig with boot := { rig.boot with stage := 8 } } : State).boot.due ≤ ({ rig with boot := { rig.boot with stage := 8 } } : State).time.real) := by decide +kernel

theorem witness_startUpRunsItsSteps_powerOnReset_clear :
    (({ (rig.puts [(R.HLM_BOOT_STAT_STEP, 9)]) with boot := { rig.boot with stage := 10 } } : State).boot.stage = 10) ∧
    (({ (rig.puts [(R.HLM_BOOT_STAT_STEP, 9)]) with boot := { rig.boot with stage := 10 } } : State).msramHeld = false) ∧
    (({ (rig.puts [(R.HLM_BOOT_STAT_STEP, 9)]) with boot := { rig.boot with stage := 10 } } : State).boot.due ≤ ({ (rig.puts [(R.HLM_BOOT_STAT_STEP, 9)]) with boot := { rig.boot with stage := 10 } } : State).time.real) := by decide +kernel

theorem witness_startUpRunsItsSteps_powerOnReset_wake :
    (({ rig with boot := { rig.boot with stage := 12 } } : State).boot.stage = 12) ∧
    (({ rig with boot := { rig.boot with stage := 12 } } : State).boot.wake.any (fun p => ({ rig with boot := { rig.boot with stage := 12 } } : State).bit (cabBusy p)) = false) ∧
    (({ rig with boot := { rig.boot with stage := 12 } } : State).boot.due ≤ ({ rig with boot := { rig.boot with stage := 12 } } : State).time.real) := by decide +kernel

theorem witness_startUpRunsItsSteps_powerOnReset_done :
    (({ rig with boot := { rig.boot with stage := 13 } } : State).boot.stage = 13) ∧
    (({ rig with boot := { rig.boot with stage := 13 } } : State).boot.due ≤ ({ rig with boot := { rig.boot with stage := 13 } } : State).time.real) := by decide +kernel

theorem witness_startUpRunsItsSteps_bistStageEnd :
    (({ rig with boot := { rig.boot with stage := 6, cabs := [0, 1] }, leave := { rig.leave with held := [(.bist 0, 20)] } } : State).boot.stage = 6) ∧
    ((0 : Nat) = ({ rig with boot := { rig.boot with stage := 6, cabs := [0, 1] }, leave := { rig.leave with held := [(.bist 0, 20)] } } : State).boot.bist) ∧
    (({ rig with boot := { rig.boot with stage := 6, cabs := [0, 1] }, leave := { rig.leave with held := [(.bist 0, 20)] } } : State).leaveHas (.bist (0 : Nat)) = true) ∧
    (([0, 1] : List Nat) = ({ rig with boot := { rig.boot with stage := 6, cabs := [0, 1] }, leave := { rig.leave with held := [(.bist 0, 20)] } } : State).bistCabs (0 : Nat)) ∧
    ((((([0, 1] : List Nat).foldl (fun (z : State) (p : Nat) => z.loseStore p) (([0, 1] : List Nat).foldl (fun (z : State) (p : Nat) => if z.boot.fences.contains p then z else z.imageRemaps p) (([0, 1] : List Nat).foldl (fun (z : State) (p : Nat) => (([] : List BistCab).find? (fun (x : BistCab) => decide (x.cab.val = p))).elim z (fun (x : BistCab) => z.bistCab x)) ({ rig with boot := { rig.boot with stage := 6, cabs := [0, 1] }, leave := { rig.leave with held := [(.bist 0, 20)] } } : State)))).leaveBack (.bist 0)) : State) = ((([0, 1] : List Nat).foldl (fun (z : State) (p : Nat) => z.loseStore p) (([0, 1] : List Nat).foldl (fun (z : State) (p : Nat) => if z.boot.fences.contains p then z else z.imageRemaps p) (([0, 1] : List Nat).foldl (fun (z : State) (p : Nat) => (([] : List BistCab).find? (fun (x : BistCab) => decide (x.cab.val = p))).elim z (fun (x : BistCab) => z.bistCab x)) ({ rig with boot := { rig.boot with stage := 6, cabs := [0, 1] }, leave := { rig.leave with held := [(.bist 0, 20)] } } : State)))).leaveBack (.bist (0 : Nat)))) ∧
    (({ (((([0, 1] : List Nat).foldl (fun (z : State) (p : Nat) => z.loseStore p) (([0, 1] : List Nat).foldl (fun (z : State) (p : Nat) => if z.boot.fences.contains p then z else z.imageRemaps p) (([0, 1] : List Nat).foldl (fun (z : State) (p : Nat) => (([] : List BistCab).find? (fun (x : BistCab) => decide (x.cab.val = p))).elim z (fun (x : BistCab) => z.bistCab x)) ({ rig with boot := { rig.boot with stage := 6, cabs := [0, 1] }, leave := { rig.leave with held := [(.bist 0, 20)] } } : State)))).leaveBack (.bist 0))) with boot := { (((([0, 1] : List Nat).foldl (fun (z : State) (p : Nat) => z.loseStore p) (([0, 1] : List Nat).foldl (fun (z : State) (p : Nat) => if z.boot.fences.contains p then z else z.imageRemaps p) (([0, 1] : List Nat).foldl (fun (z : State) (p : Nat) => (([] : List BistCab).find? (fun (x : BistCab) => decide (x.cab.val = p))).elim z (fun (x : BistCab) => z.bistCab x)) ({ rig with boot := { rig.boot with stage := 6, cabs := [0, 1] }, leave := { rig.leave with held := [(.bist 0, 20)] } } : State)))).leaveBack (.bist 0))).boot with bist := 0 + 1 } } : State) = { (((([0, 1] : List Nat).foldl (fun (z : State) (p : Nat) => z.loseStore p) (([0, 1] : List Nat).foldl (fun (z : State) (p : Nat) => if z.boot.fences.contains p then z else z.imageRemaps p) (([0, 1] : List Nat).foldl (fun (z : State) (p : Nat) => (([] : List BistCab).find? (fun (x : BistCab) => decide (x.cab.val = p))).elim z (fun (x : BistCab) => z.bistCab x)) ({ rig with boot := { rig.boot with stage := 6, cabs := [0, 1] }, leave := { rig.leave with held := [(.bist 0, 20)] } } : State)))).leaveBack (.bist 0)) : State) with boot := { (((([0, 1] : List Nat).foldl (fun (z : State) (p : Nat) => z.loseStore p) (([0, 1] : List Nat).foldl (fun (z : State) (p : Nat) => if z.boot.fences.contains p then z else z.imageRemaps p) (([0, 1] : List Nat).foldl (fun (z : State) (p : Nat) => (([] : List BistCab).find? (fun (x : BistCab) => decide (x.cab.val = p))).elim z (fun (x : BistCab) => z.bistCab x)) ({ rig with boot := { rig.boot with stage := 6, cabs := [0, 1] }, leave := { rig.leave with held := [(.bist 0, 20)] } } : State)))).leaveBack (.bist 0)) : State).boot with bist := (0 : Nat) + 1 } }) ∧
    ((({ (((([0, 1] : List Nat).foldl (fun (z : State) (p : Nat) => z.loseStore p) (([0, 1] : List Nat).foldl (fun (z : State) (p : Nat) => if z.boot.fences.contains p then z else z.imageRemaps p) (([0, 1] : List Nat).foldl (fun (z : State) (p : Nat) => (([] : List BistCab).find? (fun (x : BistCab) => decide (x.cab.val = p))).elim z (fun (x : BistCab) => z.bistCab x)) ({ rig with boot := { rig.boot with stage := 6, cabs := [0, 1] }, leave := { rig.leave with held := [(.bist 0, 20)] } } : State)))).leaveBack (.bist 0))) with boot := { (((([0, 1] : List Nat).foldl (fun (z : State) (p : Nat) => z.loseStore p) (([0, 1] : List Nat).foldl (fun (z : State) (p : Nat) => if z.boot.fences.contains p then z else z.imageRemaps p) (([0, 1] : List Nat).foldl (fun (z : State) (p : Nat) => (([] : List BistCab).find? (fun (x : BistCab) => decide (x.cab.val = p))).elim z (fun (x : BistCab) => z.bistCab x)) ({ rig with boot := { rig.boot with stage := 6, cabs := [0, 1] }, leave := { rig.leave with held := [(.bist 0, 20)] } } : State)))).leaveBack (.bist 0))).boot with bist := 0 + 1 } } : State).bistCabs ((0 : Nat) + 1)).isEmpty = true) ∧
    (({ (((([0, 1] : List Nat).foldl (fun (z : State) (p : Nat) => z.loseStore p) (([0, 1] : List Nat).foldl (fun (z : State) (p : Nat) => if z.boot.fences.contains p then z else z.imageRemaps p) (([0, 1] : List Nat).foldl (fun (z : State) (p : Nat) => (([] : List BistCab).find? (fun (x : BistCab) => decide (x.cab.val = p))).elim z (fun (x : BistCab) => z.bistCab x)) ({ rig with boot := { rig.boot with stage := 6, cabs := [0, 1] }, leave := { rig.leave with held := [(.bist 0, 20)] } } : State)))).leaveBack (.bist 0))) with boot := { (((([0, 1] : List Nat).foldl (fun (z : State) (p : Nat) => z.loseStore p) (([0, 1] : List Nat).foldl (fun (z : State) (p : Nat) => if z.boot.fences.contains p then z else z.imageRemaps p) (([0, 1] : List Nat).foldl (fun (z : State) (p : Nat) => (([] : List BistCab).find? (fun (x : BistCab) => decide (x.cab.val = p))).elim z (fun (x : BistCab) => z.bistCab x)) ({ rig with boot := { rig.boot with stage := 6, cabs := [0, 1] }, leave := { rig.leave with held := [(.bist 0, 20)] } } : State)))).leaveBack (.bist 0))).boot with bist := 0 + 1 } } : State).boot.cabs.all (fun p => ({ (((([0, 1] : List Nat).foldl (fun (z : State) (p : Nat) => z.loseStore p) (([0, 1] : List Nat).foldl (fun (z : State) (p : Nat) => if z.boot.fences.contains p then z else z.imageRemaps p) (([0, 1] : List Nat).foldl (fun (z : State) (p : Nat) => (([] : List BistCab).find? (fun (x : BistCab) => decide (x.cab.val = p))).elim z (fun (x : BistCab) => z.bistCab x)) ({ rig with boot := { rig.boot with stage := 6, cabs := [0, 1] }, leave := { rig.leave with held := [(.bist 0, 20)] } } : State)))).leaveBack (.bist 0))) with boot := { (((([0, 1] : List Nat).foldl (fun (z : State) (p : Nat) => z.loseStore p) (([0, 1] : List Nat).foldl (fun (z : State) (p : Nat) => if z.boot.fences.contains p then z else z.imageRemaps p) (([0, 1] : List Nat).foldl (fun (z : State) (p : Nat) => (([] : List BistCab).find? (fun (x : BistCab) => decide (x.cab.val = p))).elim z (fun (x : BistCab) => z.bistCab x)) ({ rig with boot := { rig.boot with stage := 6, cabs := [0, 1] }, leave := { rig.leave with held := [(.bist 0, 20)] } } : State)))).leaveBack (.bist 0))).boot with bist := 0 + 1 } } : State).boot.fences.contains p) = false) := ⟨rfl, rfl, by decide +kernel, rfl, rfl, rfl, by decide +kernel, by decide +kernel⟩

theorem witness_startUpRunsItsSteps_bistStageEnd_next :
    (({ rig with boot := { rig.boot with stage := 6, cabs := [0, 1, 2, 3, 4, 5, 6, 7, 8] }, leave := { rig.leave with held := [(.bist 0, 20)] } } : State).boot.stage = 6) ∧
    ((0 : Nat) = ({ rig with boot := { rig.boot with stage := 6, cabs := [0, 1, 2, 3, 4, 5, 6, 7, 8] }, leave := { rig.leave with held := [(.bist 0, 20)] } } : State).boot.bist) ∧
    (({ rig with boot := { rig.boot with stage := 6, cabs := [0, 1, 2, 3, 4, 5, 6, 7, 8] }, leave := { rig.leave with held := [(.bist 0, 20)] } } : State).leaveHas (.bist (0 : Nat)) = true) ∧
    (([0, 1, 2, 3, 4, 5, 6, 7] : List Nat) = ({ rig with boot := { rig.boot with stage := 6, cabs := [0, 1, 2, 3, 4, 5, 6, 7, 8] }, leave := { rig.leave with held := [(.bist 0, 20)] } } : State).bistCabs (0 : Nat)) ∧
    ((((([0, 1, 2, 3, 4, 5, 6, 7] : List Nat).foldl (fun (z : State) (p : Nat) => z.loseStore p) (([0, 1, 2, 3, 4, 5, 6, 7] : List Nat).foldl (fun (z : State) (p : Nat) => if z.boot.fences.contains p then z else z.imageRemaps p) (([0, 1, 2, 3, 4, 5, 6, 7] : List Nat).foldl (fun (z : State) (p : Nat) => (([] : List BistCab).find? (fun (x : BistCab) => decide (x.cab.val = p))).elim z (fun (x : BistCab) => z.bistCab x)) ({ rig with boot := { rig.boot with stage := 6, cabs := [0, 1, 2, 3, 4, 5, 6, 7, 8] }, leave := { rig.leave with held := [(.bist 0, 20)] } } : State)))).leaveBack (.bist 0)) : State) = ((([0, 1, 2, 3, 4, 5, 6, 7] : List Nat).foldl (fun (z : State) (p : Nat) => z.loseStore p) (([0, 1, 2, 3, 4, 5, 6, 7] : List Nat).foldl (fun (z : State) (p : Nat) => if z.boot.fences.contains p then z else z.imageRemaps p) (([0, 1, 2, 3, 4, 5, 6, 7] : List Nat).foldl (fun (z : State) (p : Nat) => (([] : List BistCab).find? (fun (x : BistCab) => decide (x.cab.val = p))).elim z (fun (x : BistCab) => z.bistCab x)) ({ rig with boot := { rig.boot with stage := 6, cabs := [0, 1, 2, 3, 4, 5, 6, 7, 8] }, leave := { rig.leave with held := [(.bist 0, 20)] } } : State)))).leaveBack (.bist (0 : Nat)))) ∧
    (({ (((([0, 1, 2, 3, 4, 5, 6, 7] : List Nat).foldl (fun (z : State) (p : Nat) => z.loseStore p) (([0, 1, 2, 3, 4, 5, 6, 7] : List Nat).foldl (fun (z : State) (p : Nat) => if z.boot.fences.contains p then z else z.imageRemaps p) (([0, 1, 2, 3, 4, 5, 6, 7] : List Nat).foldl (fun (z : State) (p : Nat) => (([] : List BistCab).find? (fun (x : BistCab) => decide (x.cab.val = p))).elim z (fun (x : BistCab) => z.bistCab x)) ({ rig with boot := { rig.boot with stage := 6, cabs := [0, 1, 2, 3, 4, 5, 6, 7, 8] }, leave := { rig.leave with held := [(.bist 0, 20)] } } : State)))).leaveBack (.bist 0))) with boot := { (((([0, 1, 2, 3, 4, 5, 6, 7] : List Nat).foldl (fun (z : State) (p : Nat) => z.loseStore p) (([0, 1, 2, 3, 4, 5, 6, 7] : List Nat).foldl (fun (z : State) (p : Nat) => if z.boot.fences.contains p then z else z.imageRemaps p) (([0, 1, 2, 3, 4, 5, 6, 7] : List Nat).foldl (fun (z : State) (p : Nat) => (([] : List BistCab).find? (fun (x : BistCab) => decide (x.cab.val = p))).elim z (fun (x : BistCab) => z.bistCab x)) ({ rig with boot := { rig.boot with stage := 6, cabs := [0, 1, 2, 3, 4, 5, 6, 7, 8] }, leave := { rig.leave with held := [(.bist 0, 20)] } } : State)))).leaveBack (.bist 0))).boot with bist := 0 + 1 } } : State) = { (((([0, 1, 2, 3, 4, 5, 6, 7] : List Nat).foldl (fun (z : State) (p : Nat) => z.loseStore p) (([0, 1, 2, 3, 4, 5, 6, 7] : List Nat).foldl (fun (z : State) (p : Nat) => if z.boot.fences.contains p then z else z.imageRemaps p) (([0, 1, 2, 3, 4, 5, 6, 7] : List Nat).foldl (fun (z : State) (p : Nat) => (([] : List BistCab).find? (fun (x : BistCab) => decide (x.cab.val = p))).elim z (fun (x : BistCab) => z.bistCab x)) ({ rig with boot := { rig.boot with stage := 6, cabs := [0, 1, 2, 3, 4, 5, 6, 7, 8] }, leave := { rig.leave with held := [(.bist 0, 20)] } } : State)))).leaveBack (.bist 0)) : State) with boot := { (((([0, 1, 2, 3, 4, 5, 6, 7] : List Nat).foldl (fun (z : State) (p : Nat) => z.loseStore p) (([0, 1, 2, 3, 4, 5, 6, 7] : List Nat).foldl (fun (z : State) (p : Nat) => if z.boot.fences.contains p then z else z.imageRemaps p) (([0, 1, 2, 3, 4, 5, 6, 7] : List Nat).foldl (fun (z : State) (p : Nat) => (([] : List BistCab).find? (fun (x : BistCab) => decide (x.cab.val = p))).elim z (fun (x : BistCab) => z.bistCab x)) ({ rig with boot := { rig.boot with stage := 6, cabs := [0, 1, 2, 3, 4, 5, 6, 7, 8] }, leave := { rig.leave with held := [(.bist 0, 20)] } } : State)))).leaveBack (.bist 0)) : State).boot with bist := (0 : Nat) + 1 } }) ∧
    ((({ (((([0, 1, 2, 3, 4, 5, 6, 7] : List Nat).foldl (fun (z : State) (p : Nat) => z.loseStore p) (([0, 1, 2, 3, 4, 5, 6, 7] : List Nat).foldl (fun (z : State) (p : Nat) => if z.boot.fences.contains p then z else z.imageRemaps p) (([0, 1, 2, 3, 4, 5, 6, 7] : List Nat).foldl (fun (z : State) (p : Nat) => (([] : List BistCab).find? (fun (x : BistCab) => decide (x.cab.val = p))).elim z (fun (x : BistCab) => z.bistCab x)) ({ rig with boot := { rig.boot with stage := 6, cabs := [0, 1, 2, 3, 4, 5, 6, 7, 8] }, leave := { rig.leave with held := [(.bist 0, 20)] } } : State)))).leaveBack (.bist 0))) with boot := { (((([0, 1, 2, 3, 4, 5, 6, 7] : List Nat).foldl (fun (z : State) (p : Nat) => z.loseStore p) (([0, 1, 2, 3, 4, 5, 6, 7] : List Nat).foldl (fun (z : State) (p : Nat) => if z.boot.fences.contains p then z else z.imageRemaps p) (([0, 1, 2, 3, 4, 5, 6, 7] : List Nat).foldl (fun (z : State) (p : Nat) => (([] : List BistCab).find? (fun (x : BistCab) => decide (x.cab.val = p))).elim z (fun (x : BistCab) => z.bistCab x)) ({ rig with boot := { rig.boot with stage := 6, cabs := [0, 1, 2, 3, 4, 5, 6, 7, 8] }, leave := { rig.leave with held := [(.bist 0, 20)] } } : State)))).leaveBack (.bist 0))).boot with bist := 0 + 1 } } : State).bistCabs ((0 : Nat) + 1)).isEmpty = false) := ⟨rfl, rfl, by decide +kernel, rfl, rfl, rfl, by decide +kernel⟩

theorem witness_startUpRunsItsSteps_bistStageEnd_noCabinet :
    (({ rig with boot := { rig.boot with stage := 6, cabs := [1] }, leave := { rig.leave with held := [(.bist 0, 20)] } } : State).boot.stage = 6) ∧
    ((0 : Nat) = ({ rig with boot := { rig.boot with stage := 6, cabs := [1] }, leave := { rig.leave with held := [(.bist 0, 20)] } } : State).boot.bist) ∧
    (({ rig with boot := { rig.boot with stage := 6, cabs := [1] }, leave := { rig.leave with held := [(.bist 0, 20)] } } : State).leaveHas (.bist (0 : Nat)) = true) ∧
    (({ rig with boot := { rig.boot with stage := 6, cabs := [1] }, leave := { rig.leave with held := [(.bist 0, 20)] } } : State).boot.cabs = [(1 : Cab).val]) ∧
    ((0 : Nat) = 0) ∧
    (({ rig with boot := { rig.boot with stage := 6, cabs := [1] }, leave := { rig.leave with held := [(.bist 0, 20)] } } : State).boot.fences = []) ∧
    (({ cab := 1, validBad := true, spareBad := false, fails := [] } : BistCab).cab = (1 : Cab)) ∧
    (({ cab := 1, validBad := true, spareBad := false, fails := [] } : BistCab).validBad = true) := by decide +kernel

theorem witness_startUpRunsItsSteps_bistStageEnd_remap :
    ((1 : Nat) < 128) ∧
    ((9 : Nat) < 32) ∧
    ((17 : Nat) < 4096) ∧
    ((0 : Nat) < 8) ∧
    ((State.reset : State).freeSpare (1 : Nat) (9 : Nat) = some (0 : Nat)) := by decide +kernel

theorem witness_startUpRunsItsSteps_bootLock :
    (({ (rig.puts [(R.HLM_BOOT_STAT_STEP, 7)]) with boot := { rig.boot with stage := 8 } } : State).f R.HLM_BOOT_STAT_STEP = 7) ∧
    ((({ { (rig.puts [(R.HLM_BOOT_STAT_STEP, 7)]) with boot := { rig.boot with stage := 8 } } with rep := { rig.rep with startSet := [0, 1] }, boot := { rig.boot with stage := 8, due := 0 } } : State).put R.HLM_BOOT_CTL_BOOT_LOCK 1 |>.later .real 0 (.powerOnReset rig.boot.sfdp rig.boot.sig) : State) = (({ ({ (rig.puts [(R.HLM_BOOT_STAT_STEP, 7)]) with boot := { rig.boot with stage := 8 } } : State) with rep := { ({ (rig.puts [(R.HLM_BOOT_STAT_STEP, 7)]) with boot := { rig.boot with stage := 8 } } : State).rep with startSet := ({ (rig.puts [(R.HLM_BOOT_STAT_STEP, 7)]) with boot := { rig.boot with stage := 8 } } : State).genSet 0 }, boot := { ({ (rig.puts [(R.HLM_BOOT_STAT_STEP, 7)]) with boot := { rig.boot with stage := 8 } } : State).boot with stage := 8, due := ({ (rig.puts [(R.HLM_BOOT_STAT_STEP, 7)]) with boot := { rig.boot with stage := 8 } } : State).time.real } } : State).put R.HLM_BOOT_CTL_BOOT_LOCK 1).later .real 0 (.powerOnReset ({ (rig.puts [(R.HLM_BOOT_STAT_STEP, 7)]) with boot := { rig.boot with stage := 8 } } : State).boot.sfdp ({ (rig.puts [(R.HLM_BOOT_STAT_STEP, 7)]) with boot := { rig.boot with stage := 8 } } : State).boot.sig)) ∧
    (({ (rig.puts [(R.HLM_BOOT_STAT_STEP, 7)]) with boot := { rig.boot with stage := 8 } } : State).rgsShut (masterIdx .sec) = false) := by decide +kernel

theorem witness_startUpRunsItsSteps_bootLock_locked :
    ((Master.hrp : Master) ≠ .sec ∨ (rig : State).f R.HLM_BOOT_STAT_STEP ≠ 7) ∧
    (vbit (1 : W32) 1 = false) ∧
    ((rig : State).rgsShut (masterIdx (Master.hrp : Master)) = false) := by decide +kernel

theorem witness_startUpRunsItsSteps_recoveryStart :
    (({ rig.put R.MGT_MODE_MODE 1 with mgt := { rig.mgt with recover := 1, jobs := [{ idx := 0, op := 1, tag := 5, ctx := 0, after := false, core := 2, ent := 1 :: List.replicate 63 0, stage := 0, todo := [], acc := 0, t0 := 0 }] } } : State).mgt.recover = 1) ∧
    (({ rig.put R.MGT_MODE_MODE 1 with mgt := { rig.mgt with recover := 1, jobs := [{ idx := 0, op := 1, tag := 5, ctx := 0, after := false, core := 2, ent := 1 :: List.replicate 63 0, stage := 0, todo := [], acc := 0, t0 := 0 }] } } : State).calm = true) ∧
    (({ rig.put R.MGT_MODE_MODE 1 with mgt := { rig.mgt with recover := 1, jobs := [{ idx := 0, op := 1, tag := 5, ctx := 0, after := false, core := 2, ent := 1 :: List.replicate 63 0, stage := 0, todo := [], acc := 0, t0 := 0 }] } } : State).bit R.MGT_MODE_MODE = true) ∧
    (({ rig.put R.MGT_MODE_MODE 1 with mgt := { rig.mgt with recover := 1, jobs := [{ idx := 0, op := 1, tag := 5, ctx := 0, after := false, core := 2, ent := 1 :: List.replicate 63 0, stage := 0, todo := [], acc := 0, t0 := 0 }] } } : State).mgt.seqs.any (fun q => decide (q.kind = SeqKind.split)) = false) := by decide +kernel

theorem witness_startUpRunsItsSteps_recoveryStart_reload :
    (({ rig with mgt := { rig.mgt with recover := 2 } } : State).mgt.recover = 2) ∧
    (({ rig with mgt := { rig.mgt with recover := 2 } } : State).mgt.recoverAt ≤ ({ rig with mgt := { rig.mgt with recover := 2 } } : State).time.real) ∧
    (({ rig with mgt := { rig.mgt with recover := 2 } } : State).msramHeld = false) := by decide +kernel


theorem witness_timeAndHallmarksCrossTheDies_stimeSync :
    ((Master.sec : Master) = .sec) ∧
    (vbit (2 : W32) 0 = false) ∧
    (((rig.put (R.CTX_STAT_STATE 2) 1) : State).die = 0) ∧
    ((List.range 16).any (fun c => decide (((rig.put (R.CTX_STAT_STATE 2) 1) : State).ctxState c = 2)) = false) ∧
    (((rig.put (R.CTX_STAT_STATE 2) 1) : State).rgsShut (masterIdx (Master.sec : Master)) = false) := by decide +kernel

theorem witness_timeAndHallmarksCrossTheDies_stimeSync_both :
    (vbit (1 : W32) 0 = true) ∧
    ((rig : State).rgsShut (masterIdx (Master.sec : Master)) = false) := by decide

theorem witness_timeAndHallmarksCrossTheDies_stimeSync_locked :
    ((Master.hrp : Master) ≠ .sec) ∧
    (vbit (2 : W32) 0 = false) ∧
    ((rig : State).rgsShut (masterIdx (Master.hrp : Master)) = false) := by decide +kernel

theorem witness_timeAndHallmarksCrossTheDies_startMarkReceive :
    (((rig.put (R.CTX_STAT_STATE 2) 1) : State).boot.mark ≠ some (1000 : W64).toNat) ∧
    ((List.range 16).any (fun c => decide (((rig.put (R.CTX_STAT_STATE 2) 1) : State).ctxState c = 2)) = false) := by decide +kernel

theorem witness_timeAndHallmarksCrossTheDies_startMarkReceive_ignored :
    ((rig : State).boot.mark = some (1000 : W64).toNat ∨ (List.range 16).any (fun c => decide ((rig : State).ctxState c = 2)) = true) := by decide +kernel

theorem witness_timeAndHallmarksCrossTheDies_hallmarkComputationEnd :
    (({ (rig.puts [(R.HLM_HLM_STAT_CHANGING, 1)]) with boot := { rig.boot with hallAt := some 0, hallRec := [1, 2, 3] } } : State).boot.hallAt = some (0 : Nat)) ∧
    ((0 : Nat) ≤ ({ (rig.puts [(R.HLM_HLM_STAT_CHANGING, 1)]) with boot := { rig.boot with hallAt := some 0, hallRec := [1, 2, 3] } } : State).time.real) ∧
    (({ (rig.puts [(R.HLM_HLM_STAT_CHANGING, 1)]) with boot := { rig.boot with hallAt := some 0, hallRec := [1, 2, 3] } } : State).boot.hallRec.length < 2 ^ 16) := by decide +kernel

theorem witness_timeAndHallmarksCrossTheDies_hallmarkRound :
    ((2 : Nat) = ({ (rig.puts [(R.IDV_CONF_DIES, 2), (R.HLM_CFG_ROUND_EN, 1)]) with boot := { rig.boot with roundAt := 1 }, time := { rig.time with now := us 2000 } } : State).time.now / us 1000) ∧
    ((2 : Nat) ≠ 0) ∧
    (({ (rig.puts [(R.IDV_CONF_DIES, 2), (R.HLM_CFG_ROUND_EN, 1)]) with boot := { rig.boot with roundAt := 1 }, time := { rig.time with now := us 2000 } } : State).boot.roundAt ≠ 0) ∧
    (({ (rig.puts [(R.IDV_CONF_DIES, 2), (R.HLM_CFG_ROUND_EN, 1)]) with boot := { rig.boot with roundAt := 1 }, time := { rig.time with now := us 2000 } } : State).boot.roundAt ≠ (2 : Nat)) ∧
    (({ (rig.puts [(R.IDV_CONF_DIES, 2), (R.HLM_CFG_ROUND_EN, 1)]) with boot := { rig.boot with roundAt := 1 }, time := { rig.time with now := us 2000 } } : State).dies ≠ 0) ∧
    (([1] : List Nat) = (List.range ({ (rig.puts [(R.IDV_CONF_DIES, 2), (R.HLM_CFG_ROUND_EN, 1)]) with boot := { rig.boot with roundAt := 1 }, time := { rig.time with now := us 2000 } } : State).dies).filter (fun e => decide (e ≠ ({ (rig.puts [(R.IDV_CONF_DIES, 2), (R.HLM_CFG_ROUND_EN, 1)]) with boot := { rig.boot with roundAt := 1 }, time := { rig.time with now := us 2000 } } : State).die))) ∧
    (({ ([1].foldl (fun z e => z.putb (hallBit 16 e) (!({ (rig.puts [(R.IDV_CONF_DIES, 2), (R.HLM_CFG_ROUND_EN, 1)]) with boot := { rig.boot with roundAt := 1 }, time := { rig.time with now := us 2000 } } : State).boot.heard.contains e)) (({ (rig.puts [(R.IDV_CONF_DIES, 2), (R.HLM_CFG_ROUND_EN, 1)]) with boot := { rig.boot with roundAt := 1 }, time := { rig.time with now := us 2000 } } : State).arm .fab (us (1000 * (2 + 1)) - ({ (rig.puts [(R.IDV_CONF_DIES, 2), (R.HLM_CFG_ROUND_EN, 1)]) with boot := { rig.boot with roundAt := 1 }, time := { rig.time with now := us 2000 } } : State).time.now) .hallmarkRound)) with boot := { ({ (rig.puts [(R.IDV_CONF_DIES, 2), (R.HLM_CFG_ROUND_EN, 1)]) with boot := { rig.boot with roundAt := 1 }, time := { rig.time with now := us 2000 } } : State).boot with heard := [], roundAt := 2 } } : State) = { (([1] : List Nat).foldl (fun z e => z.putb (hallBit 16 e) (!({ (rig.puts [(R.IDV_CONF_DIES, 2), (R.HLM_CFG_ROUND_EN, 1)]) with boot := { rig.boot with roundAt := 1 }, time := { rig.time with now := us 2000 } } : State).boot.heard.contains e)) (({ (rig.puts [(R.IDV_CONF_DIES, 2), (R.HLM_CFG_ROUND_EN, 1)]) with boot := { rig.boot with roundAt := 1 }, time := { rig.time with now := us 2000 } } : State).arm .fab (us (1000 * ((2 : Nat) + 1)) - ({ (rig.puts [(R.IDV_CONF_DIES, 2), (R.HLM_CFG_ROUND_EN, 1)]) with boot := { rig.boot with roundAt := 1 }, time := { rig.time with now := us 2000 } } : State).time.now) .hallmarkRound)) with boot := { ({ (rig.puts [(R.IDV_CONF_DIES, 2), (R.HLM_CFG_ROUND_EN, 1)]) with boot := { rig.boot with roundAt := 1 }, time := { rig.time with now := us 2000 } } : State).boot with heard := [], roundAt := (2 : Nat) } }) := by decide +kernel

theorem witness_timeAndHallmarksCrossTheDies_roundMessage :
    (1 : Fin 8).val ≠ (rig : State).die := by decide +kernel

theorem witness_timeAndHallmarksCrossTheDies_roundMessage_differs :
    ((1 : Fin 8).val ≠ ({ (rig.puts [(R.HLM_HLM_STAT_VALID, 1)]) with boot := { rig.boot with differ := [(1, 1)], roundAt := 2 } } : State).die) ∧
    (({ (rig.puts [(R.HLM_HLM_STAT_VALID, 1)]) with boot := { rig.boot with differ := [(1, 1)], roundAt := 2 } } : State).hallReady = true) ∧
    ((List.replicate 12 7 : List W32).length = 12) ∧
    ((List.replicate 12 7 : List W32) ≠ (List.range 12).map (fun j => ({ (rig.puts [(R.HLM_HLM_STAT_VALID, 1)]) with boot := { rig.boot with differ := [(1, 1)], roundAt := 2 } } : State).reg (R.HLM_HASH j))) ∧
    (SMap.get 0 ({ (rig.puts [(R.HLM_HLM_STAT_VALID, 1)]) with boot := { rig.boot with differ := [(1, 1)], roundAt := 2 } } : State).boot.differ (1 : Fin 8) + 1 = ({ (rig.puts [(R.HLM_HLM_STAT_VALID, 1)]) with boot := { rig.boot with differ := [(1, 1)], roundAt := 2 } } : State).boot.roundAt) ∧
    (1 < ({ (rig.puts [(R.HLM_HLM_STAT_VALID, 1)]) with boot := { rig.boot with differ := [(1, 1)], roundAt := 2 } } : State).boot.roundAt) ∧
    (({ (rig.puts [(R.HLM_HLM_STAT_VALID, 1)]) with boot := { rig.boot with differ := [(1, 1)], roundAt := 2 } } : State).bit (hallBit 8 (1 : Fin 8)) = false) := by decide +kernel

theorem witness_timeAndHallmarksCrossTheDies_roundMessage_first :
    ((1 : Fin 8).val ≠ ({ (rig.puts [(R.HLM_HLM_STAT_VALID, 1)]) with boot := { rig.boot with differ := [(1, 1)], roundAt := 3 } } : State).die) ∧
    (({ (rig.puts [(R.HLM_HLM_STAT_VALID, 1)]) with boot := { rig.boot with differ := [(1, 1)], roundAt := 3 } } : State).hallReady = true) ∧
    ((List.replicate 12 7 : List W32).length = 12) ∧
    ((List.replicate 12 7 : List W32) ≠ (List.range 12).map (fun j => ({ (rig.puts [(R.HLM_HLM_STAT_VALID, 1)]) with boot := { rig.boot with differ := [(1, 1)], roundAt := 3 } } : State).reg (R.HLM_HASH j))) ∧
    (SMap.get 0 ({ (rig.puts [(R.HLM_HLM_STAT_VALID, 1)]) with boot := { rig.boot with differ := [(1, 1)], roundAt := 3 } } : State).boot.differ (1 : Fin 8) + 1 ≠ ({ (rig.puts [(R.HLM_HLM_STAT_VALID, 1)]) with boot := { rig.boot with differ := [(1, 1)], roundAt := 3 } } : State).boot.roundAt) := by decide +kernel

theorem witness_timeAndHallmarksCrossTheDies_roundMessage_agrees :
    ((1 : Fin 8).val ≠ (rig.puts [(R.HLM_HLM_STAT_VALID, 1), (hallBit 8 1, 1)] : State).die) ∧
    ((rig.puts [(R.HLM_HLM_STAT_VALID, 1), (hallBit 8 1, 1)] : State).hallReady = true) ∧
    ((List.replicate 12 0 : List W32) = (List.range 12).map (fun j => (rig.puts [(R.HLM_HLM_STAT_VALID, 1), (hallBit 8 1, 1)] : State).reg (R.HLM_HASH j))) ∧
    ((rig.puts [(R.HLM_HLM_STAT_VALID, 1), (hallBit 8 1, 1)] : State).bit (hallBit 8 (1 : Fin 8)) = true) := by decide +kernel


theorem witness_testAndDebugPortsAnswer_tapIdcode_noSession :
    (rig : State).session = false := by decide +kernel

theorem witness_testAndDebugPortsAnswer_tapIdcode_value :
    (rig : State).ties.jep106 < 2048 := by decide +kernel

theorem witness_testAndDebugPortsAnswer_tapIjtag :
    ((rig.put R.MGT_MODE_MODE 1 : State).bit R.MGT_MODE_MODE = true) ∧
    ((rig.put R.MGT_MODE_MODE 1 : State).bit R.HLM_BOOT_STAT_STOPPED = false) := by decide +kernel

theorem witness_testAndDebugPortsAnswer_tapIjtag_open :
    ((rig.puts [(R.DBG_SESSION_OPEN, 1), (R.DBG_SESSION_COUNT, 1)]) : State).ijtagOpen = true := by decide +kernel

theorem witness_testAndDebugPortsAnswer_debugSessionOpen :
    (rig : State).session = false := by decide +kernel

theorem witness_testAndDebugPortsAnswer_debugSessionOpen_again :
    ((rig.puts [(R.DBG_SESSION_OPEN, 1), (R.DBG_SESSION_COUNT, 1)]) : State).session = true := by decide +kernel

theorem witness_testAndDebugPortsAnswer_debugSessionClose :
    ({ (rig.puts [(R.DBG_SESSION_OPEN, 1), (R.DBG_HALT_HALT, 1)]) with frz := { rig.frz with lines := [.debug] } } : State).session = true := by decide +kernel

theorem witness_testAndDebugPortsAnswer_dbgAccUpdate :
    (((rig.puts [(R.DBG_SESSION_OPEN, 1), (R.DBG_SESSION_COUNT, 1)]) : State).session = true) ∧
    (((rig.puts [(R.DBG_SESSION_OPEN, 1), (R.DBG_SESSION_COUNT, 1)]) : State).test.busy = false) := by decide +kernel

theorem witness_testAndDebugPortsAnswer_dbgAccUpdate_none :
    ((rig : State).session = false ∨ (true : Bool) = false ∨ (rig : State).test.busy = true) := by decide +kernel

theorem witness_testAndDebugPortsAnswer_dbgAccCapture :
    (({ (rig.puts [(R.DBG_SESSION_OPEN, 1), (R.DBG_SESSION_COUNT, 1)]) with test := { ir := 0x09, busy := false, done := some (77, .ok), captured := 0 } } : State).test.ir = 0x09) ∧
    (({ (rig.puts [(R.DBG_SESSION_OPEN, 1), (R.DBG_SESSION_COUNT, 1)]) with test := { ir := 0x09, busy := false, done := some (77, .ok), captured := 0 } } : State).session = true) ∧
    (({ (rig.puts [(R.DBG_SESSION_OPEN, 1), (R.DBG_SESSION_COUNT, 1)]) with test := { ir := 0x09, busy := false, done := some (77, .ok), captured := 0 } } : State).test.done = some ((77 : Nat), (.ok : Resp))) := by decide +kernel

theorem witness_testAndDebugPortsAnswer_debugHalt :
    (vbit (1 : W32) 0 = true) ∧
    ((rig : State).rgsShut (masterIdx .dbg) = false) := by decide +kernel

theorem witness_testAndDebugPortsAnswer_debugHalt_ends :
    (vbit (0 : W32) 0 = false) ∧
    (({ (rig.puts [(R.DBG_HALT_HALT, 1)]) with frz := { rig.frz with lines := [.debug] } } : State).rgsShut (masterIdx .dbg) = false) := by decide +kernel

theorem witness_testAndDebugPortsAnswer_debugHalt_locked :
    ((Master.hrp : Master) ≠ .dbg) ∧
    ((rig : State).rgsShut (masterIdx (Master.hrp : Master)) = false) := by decide +kernel

theorem witness_testAndDebugPortsAnswer_hdpRequest :
    (({ rig with ties := { rig.ties with hdp := true, hdpHome := 0 }, present := [.hdp] } : State).ties.hdp = true) ∧
    (({ rig with ties := { rig.ties with hdp := true, hdpHome := 0 }, present := [.hdp] } : State).isPresent .hdp = true) ∧
    (({ rig with ties := { rig.ties with hdp := true, hdpHome := 0 }, present := [.hdp] } : State).hdpReqs.length < 64) ∧
    (({ rig with ties := { rig.ties with hdp := true, hdpHome := 0 }, present := [.hdp] } : State).hdpReqs.all (fun e => decide (e.tag ≠ (5 : Fin 64).val)) = true) ∧
    ((0 : Nat) = ({ rig with ties := { rig.ties with hdp := true, hdpHome := 0 }, present := [.hdp] } : State).ties.hdpHome % 128) ∧
    (({ rig with ties := { rig.ties with hdp := true, hdpHome := 0 }, present := [.hdp] } : State).dieAsleep = false) ∧
    (({ rig with ties := { rig.ties with hdp := true, hdpHome := 0 }, present := [.hdp] } : State).fenced (0 : Nat) = false) ∧
    (({ id := ({ rig with ties := { rig.ties with hdp := true, hdpHome := 0 }, present := [.hdp] } : State).loose.nextId, req := 9, home := 0, homeDie := 0, org := .hdp 5, cls := .host, ctx := some 2, fa := 0, we := true, be := 0xFF, dat := [1, 2], op := .acc } : LReq) = { id := ({ rig with ties := { rig.ties with hdp := true, hdpHome := 0 }, present := [.hdp] } : State).loose.nextId, req := 9, home := (0 : Nat), homeDie := ({ rig with ties := { rig.ties with hdp := true, hdpHome := 0 }, present := [.hdp] } : State).die, org := .hdp (5 : Fin 64), cls := .host, ctx := some (2 : Ctx).val, fa := (0 : BitVec 26).toNat * 64, we := (true : Bool), be := (if (true : Bool) then (0xFF : W64).toNat else 2 ^ 64 - 1), dat := ([1, 2] : List W256), op := .acc }) ∧
    ((({ ({ rig with ties := { rig.ties with hdp := true, hdpHome := 0 }, present := [.hdp] } : State).fresh with loose := { ({ rig with ties := { rig.ties with hdp := true, hdpHome := 0 }, present := [.hdp] } : State).fresh.loose with ports := [{ cab := 128, port := 0, tag := 5, id := ({ rig with ties := { rig.ties with hdp := true, hdpHome := 0 }, present := [.hdp] } : State).loose.nextId, we := true, fa := 0, gate := 0, ans := none }] } } : State) : State) = ({ ({ rig with ties := { rig.ties with hdp := true, hdpHome := 0 }, present := [.hdp] } : State).fresh with loose := { ({ rig with ties := { rig.ties with hdp := true, hdpHome := 0 }, present := [.hdp] } : State).fresh.loose with ports := ({ rig with ties := { rig.ties with hdp := true, hdpHome := 0 }, present := [.hdp] } : State).loose.ports ++ [{ cab := 128, port := 0, tag := (5 : Fin 64), id := ({ rig with ties := { rig.ties with hdp := true, hdpHome := 0 }, present := [.hdp] } : State).loose.nextId, we := (true : Bool), fa := (0 : BitVec 26).toNat * 64, gate := 0, ans := none }] } } : State)) ∧
    ((({ ({ rig with ties := { rig.ties with hdp := true, hdpHome := 0 }, present := [.hdp] } : State).fresh with loose := { ({ rig with ties := { rig.ties with hdp := true, hdpHome := 0 }, present := [.hdp] } : State).fresh.loose with ports := [{ cab := 128, port := 0, tag := 5, id := ({ rig with ties := { rig.ties with hdp := true, hdpHome := 0 }, present := [.hdp] } : State).loose.nextId, we := true, fa := 0, gate := 0, ans := none }] } } : State) : State).target .host (true : Bool) (some (2 : Ctx).val) ((0 : BitVec 26).toNat * 64) = .at' (0 : Nat)) ∧
    (servedIn false ((({ ({ rig with ties := { rig.ties with hdp := true, hdpHome := 0 }, present := [.hdp] } : State).fresh with loose := { ({ rig with ties := { rig.ties with hdp := true, hdpHome := 0 }, present := [.hdp] } : State).fresh.loose with ports := [{ cab := 128, port := 0, tag := 5, id := ({ rig with ties := { rig.ties with hdp := true, hdpHome := 0 }, present := [.hdp] } : State).loose.nextId, we := true, fa := 0, gate := 0, ans := none }] } } : State) : State).pow (0 : Nat)) = true) := by decide +kernel

theorem witness_testAndDebugPortsAnswer_hdpRequest_turnedAway :
    ((rig : State).ties.hdp = false ∨ (rig : State).isPresent .hdp = false ∨ 64 ≤ (rig : State).hdpReqs.length ∨ (rig : State).hdpReqs.any (fun e => decide (e.tag = (5 : Fin 64).val)) = true) := by decide +kernel

theorem witness_testAndDebugPortsAnswer_hdpCompletion :
    (({ rig with loose := { rig.loose with ports := [{ cab := 128, port := 0, tag := 5, id := 8, we := false, fa := 0, gate := 0, ans := some (noAns .fault 2) }] } } : State).hdpReqs.find? (fun x => x.ans.isSome) = some ({ cab := 128, port := 0, tag := 5, id := 8, we := false, fa := 0, gate := 0, ans := some (noAns .fault 2) } : PortReq)) ∧
    (({ cab := 128, port := 0, tag := 5, id := 8, we := false, fa := 0, gate := 0, ans := some (noAns .fault 2) } : PortReq).ans = some (noAns .fault 2 : Ans)) ∧
    ((({ ({ rig with loose := { rig.loose with ports := [{ cab := 128, port := 0, tag := 5, id := 8, we := false, fa := 0, gate := 0, ans := some (noAns .fault 2) }] } } : State) with loose := { ({ rig with loose := { rig.loose with ports := [{ cab := 128, port := 0, tag := 5, id := 8, we := false, fa := 0, gate := 0, ans := some (noAns .fault 2) }] } } : State).loose with ports := [] } } : State).present! 1024 { at' := 0, tag := 5, dat := (noAns .fault 2).dat, zero := (noAns .fault 2).zero, sb := 0, resp := (noAns .fault 2).resp } : State) = ({ ({ rig with loose := { rig.loose with ports := [{ cab := 128, port := 0, tag := 5, id := 8, we := false, fa := 0, gate := 0, ans := some (noAns .fault 2) }] } } : State) with loose := { ({ rig with loose := { rig.loose with ports := [{ cab := 128, port := 0, tag := 5, id := 8, we := false, fa := 0, gate := 0, ans := some (noAns .fault 2) }] } } : State).loose with ports := ({ rig with loose := { rig.loose with ports := [{ cab := 128, port := 0, tag := 5, id := 8, we := false, fa := 0, gate := 0, ans := some (noAns .fault 2) }] } } : State).loose.ports.filter (fun x => !decide (x.id = ({ cab := 128, port := 0, tag := 5, id := 8, we := false, fa := 0, gate := 0, ans := some (noAns .fault 2) } : PortReq).id)) } } : State).present! 1024 { at' := ({ rig with loose := { rig.loose with ports := [{ cab := 128, port := 0, tag := 5, id := 8, we := false, fa := 0, gate := 0, ans := some (noAns .fault 2) }] } } : State).time.fc, tag := ({ cab := 128, port := 0, tag := 5, id := 8, we := false, fa := 0, gate := 0, ans := some (noAns .fault 2) } : PortReq).tag, dat := if ({ cab := 128, port := 0, tag := 5, id := 8, we := false, fa := 0, gate := 0, ans := some (noAns .fault 2) } : PortReq).we then [0, 0] else (noAns .fault 2 : Ans).dat, zero := (noAns .fault 2 : Ans).zero, sb := 0, resp := (noAns .fault 2 : Ans).resp }) := by decide +kernel


theorem witness_controlAccessesReachTheirRegisters_registerWrite :
    (({ (rig.puts [(R.HLM_BOOT_STAT_STEP, 13)]) with masked := [], boot := { rig.boot with stage := 90 } } : State).cmx.locks.any (fun l => decide (l.1 = 3) && decide (l.2.2 < 2 ^ 32)) = false) ∧
    (({ (rig.puts [(R.HLM_BOOT_STAT_STEP, 13)]) with masked := [], boot := { rig.boot with stage := 90 } } : State).mMasked (masterIdx (Master.sec : Master)) = false) ∧
    (({ (rig.puts [(R.HLM_BOOT_STAT_STEP, 13)]) with masked := [], boot := { rig.boot with stage := 90 } } : State).halts (masterIdx (Master.sec : Master)) = false) ∧
    ((BitVec.ofNat 32 (0x1FC00000 + R.CLK_CFG % 2 ^ 22) : W32).toNat / 2 ^ 29 = ({ (rig.puts [(R.HLM_BOOT_STAT_STEP, 13)]) with masked := [], boot := { rig.boot with stage := 90 } } : State).die) ∧
    ((some { key := R.CLK_CFG, station := none } : Option CaHit) = ({ (rig.puts [(R.HLM_BOOT_STAT_STEP, 13)]) with masked := [], boot := { rig.boot with stage := 90 } } : State).caDecode ((BitVec.ofNat 32 (0x1FC00000 + R.CLK_CFG % 2 ^ 22) : W32).toNat % 2 ^ 29)) ∧
    (({ (rig.puts [(R.HLM_BOOT_STAT_STEP, 13)]) with masked := [], boot := { rig.boot with stage := 90 } } : State).notAwake ({ m := masterIdx (Master.sec : Master), tgt := 3, write := true, lock := false, la := 0x40000000 + (BitVec.ofNat 32 (0x1FC00000 + R.CLK_CFG % 2 ^ 22) : W32).toNat % 2 ^ 29, str := 0xFF, dat := laneOfWord (0x40000000 + (BitVec.ofNat 32 (0x1FC00000 + R.CLK_CFG % 2 ^ 22) : W32).toNat % 2 ^ 29) (5 : W32), rel := some ({ (rig.puts [(R.HLM_BOOT_STAT_STEP, 13)]) with masked := [], boot := { rig.boot with stage := 90 } } : State).cyc } : CmxReq) = false) ∧
    ((some { key := R.CLK_CFG, station := none } : Option CaHit) = some { key := (R.CLK_CFG : Nat), station := (none : Option Nat) }) ∧
    (({ (rig.puts [(R.HLM_BOOT_STAT_STEP, 13)]) with masked := [], boot := { rig.boot with stage := 90 } } : State).station { key := (R.CLK_CFG : Nat), station := (none : Option Nat) } = .go) ∧
    ((({ (rig.puts [(R.HLM_BOOT_STAT_STEP, 13)]) with masked := [], boot := { rig.boot with stage := 90 } } : State).ctlWrite Master.sec R.CLK_CFG (Fin.ofNat 128 0) 5 : State) = ({ (rig.puts [(R.HLM_BOOT_STAT_STEP, 13)]) with masked := [], boot := { rig.boot with stage := 90 } } : State).ctlWrite (Master.sec : Master) (R.CLK_CFG : Nat) (Fin.ofNat 128 ((none : Option Nat).getD 0)) (5 : W32)) := by decide +kernel

theorem witness_controlAccessesReachTheirRegisters_registerWrite_refused :
    (({ (rig.puts [(cabBit R.IDV_FENCE_MASK 1, 1)]) with masked := [], boot := { rig.boot with stage := 90 } } : State).cmx.locks.any (fun l => decide (l.1 = 3) && decide (l.2.2 < 2 ^ 32)) = false) ∧
    (({ (rig.puts [(cabBit R.IDV_FENCE_MASK 1, 1)]) with masked := [], boot := { rig.boot with stage := 90 } } : State).mMasked (masterIdx (Master.sec : Master)) = false) ∧
    (({ (rig.puts [(cabBit R.IDV_FENCE_MASK 1, 1)]) with masked := [], boot := { rig.boot with stage := 90 } } : State).halts (masterIdx (Master.sec : Master)) = false) ∧
    ((BitVec.ofNat 32 (1 * 2 ^ 22 + R.BNK_RET_LIMIT 1 % 2 ^ 22) : W32).toNat / 2 ^ 29 = ({ (rig.puts [(cabBit R.IDV_FENCE_MASK 1, 1)]) with masked := [], boot := { rig.boot with stage := 90 } } : State).die) ∧
    ((some { key := R.BNK_RET_LIMIT 1, station := some 1 } : Option CaHit) = ({ (rig.puts [(cabBit R.IDV_FENCE_MASK 1, 1)]) with masked := [], boot := { rig.boot with stage := 90 } } : State).caDecode ((BitVec.ofNat 32 (1 * 2 ^ 22 + R.BNK_RET_LIMIT 1 % 2 ^ 22) : W32).toNat % 2 ^ 29)) ∧
    (({ (rig.puts [(cabBit R.IDV_FENCE_MASK 1, 1)]) with masked := [], boot := { rig.boot with stage := 90 } } : State).notAwake ({ m := masterIdx (Master.sec : Master), tgt := 3, write := true, lock := false, la := 0x40000000 + (BitVec.ofNat 32 (1 * 2 ^ 22 + R.BNK_RET_LIMIT 1 % 2 ^ 22) : W32).toNat % 2 ^ 29, str := 0xFF, dat := laneOfWord (0x40000000 + (BitVec.ofNat 32 (1 * 2 ^ 22 + R.BNK_RET_LIMIT 1 % 2 ^ 22) : W32).toNat % 2 ^ 29) (32 : W32), rel := some ({ (rig.puts [(cabBit R.IDV_FENCE_MASK 1, 1)]) with masked := [], boot := { rig.boot with stage := 90 } } : State).cyc } : CmxReq) = false) ∧
    ((some { key := R.BNK_RET_LIMIT 1, station := some 1 } : Option CaHit) = some { key := (R.BNK_RET_LIMIT 1 : Nat), station := (some 1 : Option Nat) }) ∧
    (({ (rig.puts [(cabBit R.IDV_FENCE_MASK 1, 1)]) with masked := [], boot := { rig.boot with stage := 90 } } : State).station { key := (R.BNK_RET_LIMIT 1 : Nat), station := (some 1 : Option Nat) } = .no (.fault : Resp)) := by decide +kernel

theorem witness_controlAccessesReachTheirRegisters_registerWrite_missed :
    (({ (rig.puts [(R.HLM_BOOT_STAT_STEP, 13)]) with masked := [], boot := { rig.boot with stage := 90 } } : State).cmx.locks.any (fun l => decide (l.1 = 3) && decide (l.2.2 < 2 ^ 32)) = false) ∧
    (({ (rig.puts [(R.HLM_BOOT_STAT_STEP, 13)]) with masked := [], boot := { rig.boot with stage := 90 } } : State).mMasked (masterIdx (Master.sec : Master)) = false) ∧
    (({ (rig.puts [(R.HLM_BOOT_STAT_STEP, 13)]) with masked := [], boot := { rig.boot with stage := 90 } } : State).halts (masterIdx (Master.sec : Master)) = false) ∧
    ((0x1FDF0000 : W32).toNat / 2 ^ 29 = ({ (rig.puts [(R.HLM_BOOT_STAT_STEP, 13)]) with masked := [], boot := { rig.boot with stage := 90 } } : State).die) ∧
    ((none : Option CaHit) = ({ (rig.puts [(R.HLM_BOOT_STAT_STEP, 13)]) with masked := [], boot := { rig.boot with stage := 90 } } : State).caDecode ((0x1FDF0000 : W32).toNat % 2 ^ 29)) ∧
    (({ (rig.puts [(R.HLM_BOOT_STAT_STEP, 13)]) with masked := [], boot := { rig.boot with stage := 90 } } : State).notAwake ({ m := masterIdx (Master.sec : Master), tgt := 3, write := true, lock := false, la := 0x40000000 + (0x1FDF0000 : W32).toNat % 2 ^ 29, str := 0xFF, dat := laneOfWord (0x40000000 + (0x1FDF0000 : W32).toNat % 2 ^ 29) (1 : W32), rel := some ({ (rig.puts [(R.HLM_BOOT_STAT_STEP, 13)]) with masked := [], boot := { rig.boot with stage := 90 } } : State).cyc } : CmxReq) = false) ∧
    ((none : Option CaHit) = none) ∧
    ((({ (rig.puts [(R.HLM_BOOT_STAT_STEP, 13)]) with masked := [], boot := { rig.boot with stage := 90 } } : State).decodeMiss 0x10 4 0x1FDF0000 : State) = ({ (rig.puts [(R.HLM_BOOT_STAT_STEP, 13)]) with masked := [], boot := { rig.boot with stage := 90 } } : State).decodeMiss (masterReq (Master.sec : Master)) 4 (0x1FDF0000 : W32).toNat) := by decide +kernel

theorem witness_controlAccessesReachTheirRegisters_registerWrite_plain :
    (rig : State).bootLocked = false := by decide +kernel

theorem witness_controlAccessesReachTheirRegisters_rcRead :
    (({ (rig.puts [(R.HLM_BOOT_STAT_STEP, 13), ({ key := R.IDV_ROUTE_REFUSE, hi := 31, lo := 0 }, 3)]) with masked := [], boot := { rig.boot with stage := 90 } } : State).cmx.locks.any (fun l => decide (l.1 = 3) && decide (l.2.2 < 2 ^ 32)) = false) ∧
    (({ (rig.puts [(R.HLM_BOOT_STAT_STEP, 13), ({ key := R.IDV_ROUTE_REFUSE, hi := 31, lo := 0 }, 3)]) with masked := [], boot := { rig.boot with stage := 90 } } : State).mMasked (masterIdx (Master.sec : Master)) = false) ∧
    (({ (rig.puts [(R.HLM_BOOT_STAT_STEP, 13), ({ key := R.IDV_ROUTE_REFUSE, hi := 31, lo := 0 }, 3)]) with masked := [], boot := { rig.boot with stage := 90 } } : State).halts (masterIdx (Master.sec : Master)) = false) ∧
    ((BitVec.ofNat 32 (0x1FC00000 + R.IDV_ROUTE_REFUSE % 2 ^ 22) : W32).toNat / 2 ^ 29 = ({ (rig.puts [(R.HLM_BOOT_STAT_STEP, 13), ({ key := R.IDV_ROUTE_REFUSE, hi := 31, lo := 0 }, 3)]) with masked := [], boot := { rig.boot with stage := 90 } } : State).die) ∧
    ((some { key := R.IDV_ROUTE_REFUSE, station := none } : Option CaHit) = ({ (rig.puts [(R.HLM_BOOT_STAT_STEP, 13), ({ key := R.IDV_ROUTE_REFUSE, hi := 31, lo := 0 }, 3)]) with masked := [], boot := { rig.boot with stage := 90 } } : State).caDecode ((BitVec.ofNat 32 (0x1FC00000 + R.IDV_ROUTE_REFUSE % 2 ^ 22) : W32).toNat % 2 ^ 29)) ∧
    (({ (rig.puts [(R.HLM_BOOT_STAT_STEP, 13), ({ key := R.IDV_ROUTE_REFUSE, hi := 31, lo := 0 }, 3)]) with masked := [], boot := { rig.boot with stage := 90 } } : State).notAwake ({ m := masterIdx (Master.sec : Master), tgt := 3, write := false, lock := false, la := 0x40000000 + (BitVec.ofNat 32 (0x1FC00000 + R.IDV_ROUTE_REFUSE % 2 ^ 22) : W32).toNat % 2 ^ 29, str := 0xFF, dat := laneOfWord (0x40000000 + (BitVec.ofNat 32 (0x1FC00000 + R.IDV_ROUTE_REFUSE % 2 ^ 22) : W32).toNat % 2 ^ 29) 0, rel := some ({ (rig.puts [(R.HLM_BOOT_STAT_STEP, 13), ({ key := R.IDV_ROUTE_REFUSE, hi := 31, lo := 0 }, 3)]) with masked := [], boot := { rig.boot with stage := 90 } } : State).cyc } : CmxReq) = false) ∧
    ((some { key := R.IDV_ROUTE_REFUSE, station := none } : Option CaHit) = some { key := (R.IDV_ROUTE_REFUSE : Nat), station := (none : Option Nat) }) ∧
    (({ (rig.puts [(R.HLM_BOOT_STAT_STEP, 13), ({ key := R.IDV_ROUTE_REFUSE, hi := 31, lo := 0 }, 3)]) with masked := [], boot := { rig.boot with stage := 90 } } : State).station { key := (R.IDV_ROUTE_REFUSE : Nat), station := (none : Option Nat) } = .go) ∧
    (isLo (R.IDV_ROUTE_REFUSE : Nat) = false) ∧
    (({ (rig.puts [(R.HLM_BOOT_STAT_STEP, 13), ({ key := R.IDV_ROUTE_REFUSE, hi := 31, lo := 0 }, 3)]) with masked := [], boot := { rig.boot with stage := 90 } } : State).hiLatch.find? (fun e => decide (e.1 = masterIdx (Master.sec : Master)) && decide (e.2.1 = (R.IDV_ROUTE_REFUSE : Nat))) = none) := by decide +kernel

theorem witness_controlAccessesReachTheirRegisters_rcRead_clears :
    (keyFlds (R.IDV_ROUTE_REFUSE : Nat) = [((31 : Nat), (0 : Nat), .rc)]) ∧
    ((31 : Nat) < 32) ∧
    ((0 : Nat) ≤ (31 : Nat)) := by decide +kernel

theorem witness_controlAccessesReachTheirRegisters_loReadLatch :
    (({ (rig.puts [(R.HLM_BOOT_STAT_STEP, 13)]) with masked := [], boot := { rig.boot with stage := 90 } } : State).cmx.locks.any (fun l => decide (l.1 = 3) && decide (l.2.2 < 2 ^ 32)) = false) ∧
    (({ (rig.puts [(R.HLM_BOOT_STAT_STEP, 13)]) with masked := [], boot := { rig.boot with stage := 90 } } : State).mMasked (masterIdx (Master.cc 2 : Master)) = false) ∧
    (({ (rig.puts [(R.HLM_BOOT_STAT_STEP, 13)]) with masked := [], boot := { rig.boot with stage := 90 } } : State).halts (masterIdx (Master.cc 2 : Master)) = false) ∧
    ((BitVec.ofNat 32 (0x1FC00000 + R.TIM_NOW_LO % 2 ^ 22) : W32).toNat / 2 ^ 29 = ({ (rig.puts [(R.HLM_BOOT_STAT_STEP, 13)]) with masked := [], boot := { rig.boot with stage := 90 } } : State).die) ∧
    ((some { key := R.TIM_NOW_LO, station := none } : Option CaHit) = ({ (rig.puts [(R.HLM_BOOT_STAT_STEP, 13)]) with masked := [], boot := { rig.boot with stage := 90 } } : State).caDecode ((BitVec.ofNat 32 (0x1FC00000 + R.TIM_NOW_LO % 2 ^ 22) : W32).toNat % 2 ^ 29)) ∧
    (({ (rig.puts [(R.HLM_BOOT_STAT_STEP, 13)]) with masked := [], boot := { rig.boot with stage := 90 } } : State).notAwake ({ m := masterIdx (Master.cc 2 : Master), tgt := 3, write := false, lock := false, la := 0x40000000 + (BitVec.ofNat 32 (0x1FC00000 + R.TIM_NOW_LO % 2 ^ 22) : W32).toNat % 2 ^ 29, str := 0xFF, dat := laneOfWord (0x40000000 + (BitVec.ofNat 32 (0x1FC00000 + R.TIM_NOW_LO % 2 ^ 22) : W32).toNat % 2 ^ 29) 0, rel := some ({ (rig.puts [(R.HLM_BOOT_STAT_STEP, 13)]) with masked := [], boot := { rig.boot with stage := 90 } } : State).cyc } : CmxReq) = false) ∧
    ((some { key := R.TIM_NOW_LO, station := none } : Option CaHit) = some { key := (R.TIM_NOW_LO : Nat), station := (none : Option Nat) }) ∧
    (({ (rig.puts [(R.HLM_BOOT_STAT_STEP, 13)]) with masked := [], boot := { rig.boot with stage := 90 } } : State).station { key := (R.TIM_NOW_LO : Nat), station := (none : Option Nat) } = .go) ∧
    (isLo (R.TIM_NOW_LO : Nat) = true) := by decide +kernel

theorem witness_controlAccessesReachTheirRegisters_loReadLatch_upper :
    (({ { (rig.puts [(R.HLM_BOOT_STAT_STEP, 13)]) with masked := [], boot := { rig.boot with stage := 90 } } with hiLatch := [(5, R.TIM_NOW_HI, 7)] } : State).cmx.locks.any (fun l => decide (l.1 = 3) && decide (l.2.2 < 2 ^ 32)) = false) ∧
    (({ { (rig.puts [(R.HLM_BOOT_STAT_STEP, 13)]) with masked := [], boot := { rig.boot with stage := 90 } } with hiLatch := [(5, R.TIM_NOW_HI, 7)] } : State).mMasked (masterIdx (Master.cc 2 : Master)) = false) ∧
    (({ { (rig.puts [(R.HLM_BOOT_STAT_STEP, 13)]) with masked := [], boot := { rig.boot with stage := 90 } } with hiLatch := [(5, R.TIM_NOW_HI, 7)] } : State).halts (masterIdx (Master.cc 2 : Master)) = false) ∧
    ((BitVec.ofNat 32 (0x1FC00000 + R.TIM_NOW_HI % 2 ^ 22) : W32).toNat / 2 ^ 29 = ({ { (rig.puts [(R.HLM_BOOT_STAT_STEP, 13)]) with masked := [], boot := { rig.boot with stage := 90 } } with hiLatch := [(5, R.TIM_NOW_HI, 7)] } : State).die) ∧
    ((some { key := R.TIM_NOW_HI, station := none } : Option CaHit) = ({ { (rig.puts [(R.HLM_BOOT_STAT_STEP, 13)]) with masked := [], boot := { rig.boot with stage := 90 } } with hiLatch := [(5, R.TIM_NOW_HI, 7)] } : State).caDecode ((BitVec.ofNat 32 (0x1FC00000 + R.TIM_NOW_HI % 2 ^ 22) : W32).toNat % 2 ^ 29)) ∧
    (({ { (rig.puts [(R.HLM_BOOT_STAT_STEP, 13)]) with masked := [], boot := { rig.boot with stage := 90 } } with hiLatch := [(5, R.TIM_NOW_HI, 7)] } : State).notAwake ({ m := masterIdx (Master.cc 2 : Master), tgt := 3, write := false, lock := false, la := 0x40000000 + (BitVec.ofNat 32 (0x1FC00000 + R.TIM_NOW_HI % 2 ^ 22) : W32).toNat % 2 ^ 29, str := 0xFF, dat := laneOfWord (0x40000000 + (BitVec.ofNat 32 (0x1FC00000 + R.TIM_NOW_HI % 2 ^ 22) : W32).toNat % 2 ^ 29) 0, rel := some ({ { (rig.puts [(R.HLM_BOOT_STAT_STEP, 13)]) with masked := [], boot := { rig.boot with stage := 90 } } with hiLatch := [(5, R.TIM_NOW_HI, 7)] } : State).cyc } : CmxReq) = false) ∧
    ((some { key := R.TIM_NOW_HI, station := none } : Option CaHit) = some { key := (R.TIM_NOW_HI : Nat), station := (none : Option Nat) }) ∧
    (({ { (rig.puts [(R.HLM_BOOT_STAT_STEP, 13)]) with masked := [], boot := { rig.boot with stage := 90 } } with hiLatch := [(5, R.TIM_NOW_HI, 7)] } : State).station { key := (R.TIM_NOW_HI : Nat), station := (none : Option Nat) } = .go) ∧
    (isLo (R.TIM_NOW_HI : Nat) = false) ∧
    (({ { (rig.puts [(R.HLM_BOOT_STAT_STEP, 13)]) with masked := [], boot := { rig.boot with stage := 90 } } with hiLatch := [(5, R.TIM_NOW_HI, 7)] } : State).hiLatch.find? (fun e => decide (e.1 = masterIdx (Master.cc 2 : Master)) && decide (e.2.1 = (R.TIM_NOW_HI : Nat))) = some (masterIdx (Master.cc 2 : Master), (R.TIM_NOW_HI : Nat), (7 : W32))) := by decide +kernel

theorem witness_controlAccessesReachTheirRegisters_pairLoWrite :
    (({ (rig.puts [(R.HLM_BOOT_STAT_STEP, 13)]) with masked := [], boot := { rig.boot with stage := 90 } } : State).cmx.locks.any (fun l => decide (l.1 = 3) && decide (l.2.2 < 2 ^ 32)) = false) ∧
    (({ (rig.puts [(R.HLM_BOOT_STAT_STEP, 13)]) with masked := [], boot := { rig.boot with stage := 90 } } : State).mMasked (masterIdx (Master.sec : Master)) = false) ∧
    (({ (rig.puts [(R.HLM_BOOT_STAT_STEP, 13)]) with masked := [], boot := { rig.boot with stage := 90 } } : State).halts (masterIdx (Master.sec : Master)) = false) ∧
    ((BitVec.ofNat 32 (0x1FC00000 + R.TIM_SET_LO % 2 ^ 22) : W32).toNat / 2 ^ 29 = ({ (rig.puts [(R.HLM_BOOT_STAT_STEP, 13)]) with masked := [], boot := { rig.boot with stage := 90 } } : State).die) ∧
    ((some { key := R.TIM_SET_LO, station := none } : Option CaHit) = ({ (rig.puts [(R.HLM_BOOT_STAT_STEP, 13)]) with masked := [], boot := { rig.boot with stage := 90 } } : State).caDecode ((BitVec.ofNat 32 (0x1FC00000 + R.TIM_SET_LO % 2 ^ 22) : W32).toNat % 2 ^ 29)) ∧
    (({ (rig.puts [(R.HLM_BOOT_STAT_STEP, 13)]) with masked := [], boot := { rig.boot with stage := 90 } } : State).notAwake ({ m := masterIdx (Master.sec : Master), tgt := 3, write := true, lock := false, la := 0x40000000 + (BitVec.ofNat 32 (0x1FC00000 + R.TIM_SET_LO % 2 ^ 22) : W32).toNat % 2 ^ 29, str := 0xFF, dat := laneOfWord (0x40000000 + (BitVec.ofNat 32 (0x1FC00000 + R.TIM_SET_LO % 2 ^ 22) : W32).toNat % 2 ^ 29) (9 : W32), rel := some ({ (rig.puts [(R.HLM_BOOT_STAT_STEP, 13)]) with masked := [], boot := { rig.boot with stage := 90 } } : State).cyc } : CmxReq) = false) ∧
    ((some { key := R.TIM_SET_LO, station := none } : Option CaHit) = some { key := (R.TIM_SET_LO : Nat), station := (none : Option Nat) }) ∧
    (({ (rig.puts [(R.HLM_BOOT_STAT_STEP, 13)]) with masked := [], boot := { rig.boot with stage := 90 } } : State).station { key := (R.TIM_SET_LO : Nat), station := (none : Option Nat) } = .go) ∧
    (isLoW (R.TIM_SET_LO : Nat) = true) ∧
    (({ (rig.puts [(R.HLM_BOOT_STAT_STEP, 13)]) with masked := [], boot := { rig.boot with stage := 90 } } : State).loOk (Master.sec : Master) (R.TIM_SET_LO : Nat) = true) := by decide +kernel

theorem witness_controlAccessesReachTheirRegisters_pairHiWrite :
    (({ (rig.puts [(R.HLM_BOOT_STAT_STEP, 13)]) with masked := [], boot := { rig.boot with stage := 90 } } : State).cmx.locks.any (fun l => decide (l.1 = 3) && decide (l.2.2 < 2 ^ 32)) = false) ∧
    (({ (rig.puts [(R.HLM_BOOT_STAT_STEP, 13)]) with masked := [], boot := { rig.boot with stage := 90 } } : State).mMasked (masterIdx (Master.sec : Master)) = false) ∧
    (({ (rig.puts [(R.HLM_BOOT_STAT_STEP, 13)]) with masked := [], boot := { rig.boot with stage := 90 } } : State).halts (masterIdx (Master.sec : Master)) = false) ∧
    ((BitVec.ofNat 32 (0x1FC00000 + R.TIM_SET_HI % 2 ^ 22) : W32).toNat / 2 ^ 29 = ({ (rig.puts [(R.HLM_BOOT_STAT_STEP, 13)]) with masked := [], boot := { rig.boot with stage := 90 } } : State).die) ∧
    ((some { key := R.TIM_SET_HI, station := none } : Option CaHit) = ({ (rig.puts [(R.HLM_BOOT_STAT_STEP, 13)]) with masked := [], boot := { rig.boot with stage := 90 } } : State).caDecode ((BitVec.ofNat 32 (0x1FC00000 + R.TIM_SET_HI % 2 ^ 22) : W32).toNat % 2 ^ 29)) ∧
    (({ (rig.puts [(R.HLM_BOOT_STAT_STEP, 13)]) with masked := [], boot := { rig.boot with stage := 90 } } : State).notAwake ({ m := masterIdx (Master.sec : Master), tgt := 3, write := true, lock := false, la := 0x40000000 + (BitVec.ofNat 32 (0x1FC00000 + R.TIM_SET_HI % 2 ^ 22) : W32).toNat % 2 ^ 29, str := 0xFF, dat := laneOfWord (0x40000000 + (BitVec.ofNat 32 (0x1FC00000 + R.TIM_SET_HI % 2 ^ 22) : W32).toNat % 2 ^ 29) (1 : W32), rel := some ({ (rig.puts [(R.HLM_BOOT_STAT_STEP, 13)]) with masked := [], boot := { rig.boot with stage := 90 } } : State).cyc } : CmxReq) = false) ∧
    ((some { key := R.TIM_SET_HI, station := none } : Option CaHit) = some { key := (R.TIM_SET_HI : Nat), station := (none : Option Nat) }) ∧
    (({ (rig.puts [(R.HLM_BOOT_STAT_STEP, 13)]) with masked := [], boot := { rig.boot with stage := 90 } } : State).station { key := (R.TIM_SET_HI : Nat), station := (none : Option Nat) } = .go) ∧
    ((Master.sec : Master) = .sec) ∧
    ((R.TIM_SET_HI : Nat) = R.TIM_SET_HI) ∧
    (({ (rig.puts [(R.HLM_BOOT_STAT_STEP, 13)]) with masked := [], boot := { rig.boot with stage := 90 } } : State).bootLocked = false) ∧
    ((((((({ (rig.puts [(R.HLM_BOOT_STAT_STEP, 13)]) with masked := [], boot := { rig.boot with stage := 90 } } : State).takeLo .sec R.TIM_SET_LO).1.setReg R.TIM_SET_LO (({ (rig.puts [(R.HLM_BOOT_STAT_STEP, 13)]) with masked := [], boot := { rig.boot with stage := 90 } } : State).takeLo .sec R.TIM_SET_LO).2).setReg R.TIM_SET_HI 1).setNow ((({ (rig.puts [(R.HLM_BOOT_STAT_STEP, 13)]) with masked := [], boot := { rig.boot with stage := 90 } } : State).takeLo .sec R.TIM_SET_LO).2.toNat + (1 : W32).toNat * 2 ^ 32)) : State) = ((((({ (rig.puts [(R.HLM_BOOT_STAT_STEP, 13)]) with masked := [], boot := { rig.boot with stage := 90 } } : State).takeLo (Master.sec : Master) R.TIM_SET_LO).1.setReg R.TIM_SET_LO (({ (rig.puts [(R.HLM_BOOT_STAT_STEP, 13)]) with masked := [], boot := { rig.boot with stage := 90 } } : State).takeLo (Master.sec : Master) R.TIM_SET_LO).2).setReg R.TIM_SET_HI (1 : W32)).setNow ((({ (rig.puts [(R.HLM_BOOT_STAT_STEP, 13)]) with masked := [], boot := { rig.boot with stage := 90 } } : State).takeLo (Master.sec : Master) R.TIM_SET_LO).2.toNat + (1 : W32).toNat * 2 ^ 32))) := by decide +kernel

theorem witness_controlAccessesReachTheirRegisters_registerWrite_answer :
    (({ req := { m := 5, tgt := 3, write := false, lock := false, la := 0x40000000, str := 0xFF, dat := 0, rel := some 0 }, id := 0, ans := none, due := 0, lost := none } : CmxOut).req.rel.isSome = true) ∧
    (({ req := { m := 5, tgt := 3, write := false, lock := false, la := 0x40000000, str := 0xFF, dat := 0, rel := some 0 }, id := 0, ans := none, due := 0, lost := none } : CmxOut).req.write = false) ∧
    (({ req := { m := 5, tgt := 3, write := false, lock := false, la := 0x40000000, str := 0xFF, dat := 0, rel := some 0 }, id := 0, ans := none, due := 0, lost := none } : CmxOut).req.m ≠ 11) := by decide +kernel

theorem witness_controlAccessesReachTheirRegisters_registerWrite_dbg :
    (({ req := { m := 11, tgt := 3, write := false, lock := false, la := 0x40000000, str := 0xFF, dat := 0, rel := some 0 }, id := 0, ans := none, due := 0, lost := none } : CmxOut).req.rel.isSome = true) ∧
    (({ req := { m := 11, tgt := 3, write := false, lock := false, la := 0x40000000, str := 0xFF, dat := 0, rel := some 0 }, id := 0, ans := none, due := 0, lost := none } : CmxOut).req.write = false) ∧
    (({ req := { m := 11, tgt := 3, write := false, lock := false, la := 0x40000000, str := 0xFF, dat := 0, rel := some 0 }, id := 0, ans := none, due := 0, lost := none } : CmxOut).req.m = 11) := by decide +kernel


theorem witness_theControlMatrixServesTransfers_cmxRequest :
    (({ (rig.puts [(R.HLM_BOOT_STAT_STEP, 13)]) with masked := [], boot := { rig.boot with stage := 90 } } : State).mMasked (masterIdx (Master.sec : Master)) = false) ∧
    (({ (rig.puts [(R.HLM_BOOT_STAT_STEP, 13)]) with masked := [], boot := { rig.boot with stage := 90 } } : State).halts (masterIdx (Master.sec : Master)) = false) := by decide +kernel

theorem witness_theControlMatrixServesTransfers_cmxRequest_masked :
    ({ (rig.puts [(R.HLM_BOOT_STAT_STEP, 13)]) with masked := [], boot := { rig.boot with stage := 90 } } : State).mMasked (masterIdx (Master.dbg : Master)) = true := by decide +kernel

theorem witness_theControlMatrixServesTransfers_lockedRead :
    (({ (rig.puts [(R.HLM_BOOT_STAT_STEP, 13)]) with masked := [], boot := { rig.boot with stage := 90 } } : State).mMasked (masterIdx (Master.sec : Master)) = false) ∧
    (({ (rig.puts [(R.HLM_BOOT_STAT_STEP, 13)]) with masked := [], boot := { rig.boot with stage := 90 } } : State).halts (masterIdx (Master.sec : Master)) = false) := by decide +kernel

theorem witness_theControlMatrixServesTransfers_targetArbitration :
    ((1 : Nat) = tgtIdx (.msram : Target)) ∧
    (({ { (rig.puts [(R.HLM_BOOT_STAT_STEP, 13)]) with masked := [], boot := { rig.boot with stage := 90 } } with present := [.hrp], cmx := { rig.cmx with waiting := [{ m := 5, tgt := 1, write := true, lock := false, la := 0x10000100, str := 0x0F, dat := 5, rel := none }] } } : State).cmx.waiting = [({ m := 5, tgt := 1, write := true, lock := false, la := 0x10000100, str := 0x0F, dat := 5, rel := none } : CmxReq)]) ∧
    (({ { (rig.puts [(R.HLM_BOOT_STAT_STEP, 13)]) with masked := [], boot := { rig.boot with stage := 90 } } with present := [.hrp], cmx := { rig.cmx with waiting := [{ m := 5, tgt := 1, write := true, lock := false, la := 0x10000100, str := 0x0F, dat := 5, rel := none }] } } : State).cmx.out = []) ∧
    (({ { (rig.puts [(R.HLM_BOOT_STAT_STEP, 13)]) with masked := [], boot := { rig.boot with stage := 90 } } with present := [.hrp], cmx := { rig.cmx with waiting := [{ m := 5, tgt := 1, write := true, lock := false, la := 0x10000100, str := 0x0F, dat := 5, rel := none }] } } : State).cmx.starting = []) ∧
    (({ { (rig.puts [(R.HLM_BOOT_STAT_STEP, 13)]) with masked := [], boot := { rig.boot with stage := 90 } } with present := [.hrp], cmx := { rig.cmx with waiting := [{ m := 5, tgt := 1, write := true, lock := false, la := 0x10000100, str := 0x0F, dat := 5, rel := none }] } } : State).cmx.locks = []) ∧
    (({ m := 5, tgt := 1, write := true, lock := false, la := 0x10000100, str := 0x0F, dat := 5, rel := none } : CmxReq).tgt = (1 : Nat)) ∧
    (({ m := 5, tgt := 1, write := true, lock := false, la := 0x10000100, str := 0x0F, dat := 5, rel := none } : CmxReq).rel = none) ∧
    (({ m := 5, tgt := 1, write := true, lock := false, la := 0x10000100, str := 0x0F, dat := 5, rel := none } : CmxReq).m < 12) ∧
    (SMap.get 0 ({ { (rig.puts [(R.HLM_BOOT_STAT_STEP, 13)]) with masked := [], boot := { rig.boot with stage := 90 } } with present := [.hrp], cmx := { rig.cmx with waiting := [{ m := 5, tgt := 1, write := true, lock := false, la := 0x10000100, str := 0x0F, dat := 5, rel := none }] } } : State).cmx.next (1 : Nat) ≤ ({ { (rig.puts [(R.HLM_BOOT_STAT_STEP, 13)]) with masked := [], boot := { rig.boot with stage := 90 } } with present := [.hrp], cmx := { rig.cmx with waiting := [{ m := 5, tgt := 1, write := true, lock := false, la := 0x10000100, str := 0x0F, dat := 5, rel := none }] } } : State).cyc) ∧
    (SMap.get 0 ({ { (rig.puts [(R.HLM_BOOT_STAT_STEP, 13)]) with masked := [], boot := { rig.boot with stage := 90 } } with present := [.hrp], cmx := { rig.cmx with waiting := [{ m := 5, tgt := 1, write := true, lock := false, la := 0x10000100, str := 0x0F, dat := 5, rel := none }] } } : State).cmx.waitFrom (1 : Nat) ≤ ({ { (rig.puts [(R.HLM_BOOT_STAT_STEP, 13)]) with masked := [], boot := { rig.boot with stage := 90 } } with present := [.hrp], cmx := { rig.cmx with waiting := [{ m := 5, tgt := 1, write := true, lock := false, la := 0x10000100, str := 0x0F, dat := 5, rel := none }] } } : State).cyc) ∧
    (({ { (rig.puts [(R.HLM_BOOT_STAT_STEP, 13)]) with masked := [], boot := { rig.boot with stage := 90 } } with present := [.hrp], cmx := { rig.cmx with waiting := [{ m := 5, tgt := 1, write := true, lock := false, la := 0x10000100, str := 0x0F, dat := 5, rel := none }] } } : State).f (parkOf (1 : Nat)) ≠ ({ m := 5, tgt := 1, write := true, lock := false, la := 0x10000100, str := 0x0F, dat := 5, rel := none } : CmxReq).m) ∧
    (({ { (rig.puts [(R.HLM_BOOT_STAT_STEP, 13)]) with masked := [], boot := { rig.boot with stage := 90 } } with present := [.hrp], cmx := { rig.cmx with waiting := [{ m := 5, tgt := 1, write := true, lock := false, la := 0x10000100, str := 0x0F, dat := 5, rel := none }] } } : State).isPresent .hrp = true) ∧
    (({ { (rig.puts [(R.HLM_BOOT_STAT_STEP, 13)]) with masked := [], boot := { rig.boot with stage := 90 } } with present := [.hrp], cmx := { rig.cmx with waiting := [{ m := 5, tgt := 1, write := true, lock := false, la := 0x10000100, str := 0x0F, dat := 5, rel := none }] } } : State).brg.inbox = []) := by decide +kernel

theorem witness_theControlMatrixServesTransfers_targetArbitration_parks :
    ((1 : Nat) < 4) ∧
    (({ (rig.puts [(R.HLM_BOOT_STAT_STEP, 13)]) with masked := [], boot := { rig.boot with stage := 90 } } : State).mMasked ({ m := 5, tgt := 1, write := true, lock := false, la := 0x10000100, str := 0x0F, dat := 5, rel := some 0 } : CmxReq).m = false) ∧
    (({ (rig.puts [(R.HLM_BOOT_STAT_STEP, 13)]) with masked := [], boot := { rig.boot with stage := 90 } } : State).notAwake ({ m := 5, tgt := 1, write := true, lock := false, la := 0x10000100, str := 0x0F, dat := 5, rel := some 0 } : CmxReq) = false) ∧
    (({ (rig.puts [(R.HLM_BOOT_STAT_STEP, 13)]) with masked := [], boot := { rig.boot with stage := 90 } } : State).place ({ m := 5, tgt := 1, write := true, lock := false, la := 0x10000100, str := 0x0F, dat := 5, rel := some 0 } : CmxReq).m ({ m := 5, tgt := 1, write := true, lock := false, la := 0x10000100, str := 0x0F, dat := 5, rel := some 0 } : CmxReq).la = .msram (0x100 : Nat)) ∧
    (({ m := 5, tgt := 1, write := true, lock := false, la := 0x10000100, str := 0x0F, dat := 5, rel := some 0 } : CmxReq).lock = false) := by decide +kernel

theorem witness_theControlMatrixServesTransfers_targetArbitration_grants :
    (SMap.get 0 ({ { (rig.puts [(R.HLM_BOOT_STAT_STEP, 13)]) with masked := [], boot := { rig.boot with stage := 90 } } with cmx := { rig.cmx with waiting := [{ m := 5, tgt := 1, write := true, lock := false, la := 0x10000100, str := 0x0F, dat := 5, rel := some 0 }] } } : State).cmx.next (1 : Nat) ≤ ({ { (rig.puts [(R.HLM_BOOT_STAT_STEP, 13)]) with masked := [], boot := { rig.boot with stage := 90 } } with cmx := { rig.cmx with waiting := [{ m := 5, tgt := 1, write := true, lock := false, la := 0x10000100, str := 0x0F, dat := 5, rel := some 0 }] } } : State).cyc) ∧
    (({ { (rig.puts [(R.HLM_BOOT_STAT_STEP, 13)]) with masked := [], boot := { rig.boot with stage := 90 } } with cmx := { rig.cmx with waiting := [{ m := 5, tgt := 1, write := true, lock := false, la := 0x10000100, str := 0x0F, dat := 5, rel := some 0 }] } } : State).pick (1 : Nat) (({ { (rig.puts [(R.HLM_BOOT_STAT_STEP, 13)]) with masked := [], boot := { rig.boot with stage := 90 } } with cmx := { rig.cmx with waiting := [{ m := 5, tgt := 1, write := true, lock := false, la := 0x10000100, str := 0x0F, dat := 5, rel := some 0 }] } } : State).cmxHeads.filter (fun y => decide (y.tgt = (1 : Nat)) && y.rel.isSome)) = some ({ m := 5, tgt := 1, write := true, lock := false, la := 0x10000100, str := 0x0F, dat := 5, rel := some 0 } : CmxReq)) ∧
    (¬((1 : Nat) = 1 ∧ ({ { (rig.puts [(R.HLM_BOOT_STAT_STEP, 13)]) with masked := [], boot := { rig.boot with stage := 90 } } with cmx := { rig.cmx with waiting := [{ m := 5, tgt := 1, write := true, lock := false, la := 0x10000100, str := 0x0F, dat := 5, rel := some 0 }] } } : State).aperMiss ({ m := 5, tgt := 1, write := true, lock := false, la := 0x10000100, str := 0x0F, dat := 5, rel := some 0 } : CmxReq) = true)) := by decide +kernel

theorem witness_theControlMatrixServesTransfers_targetArbitration_msram :
    (({ (rig.puts [(R.HLM_BOOT_STAT_STEP, 13)]) with masked := [], boot := { rig.boot with stage := 90 } } : State).notAwake ({ req := { m := 5, tgt := 1, write := true, lock := false, la := 0x10000100, str := 0x0F, dat := 5, rel := none }, id := 0, ans := none, due := 0, lost := none } : CmxOut).req = false) ∧
    (({ (rig.puts [(R.HLM_BOOT_STAT_STEP, 13)]) with masked := [], boot := { rig.boot with stage := 90 } } : State).place ({ req := { m := 5, tgt := 1, write := true, lock := false, la := 0x10000100, str := 0x0F, dat := 5, rel := none }, id := 0, ans := none, due := 0, lost := none } : CmxOut).req.m ({ req := { m := 5, tgt := 1, write := true, lock := false, la := 0x10000100, str := 0x0F, dat := 5, rel := none }, id := 0, ans := none, due := 0, lost := none } : CmxOut).req.la = .msram (0x100 : Nat)) ∧
    (({ req := { m := 5, tgt := 1, write := true, lock := false, la := 0x10000100, str := 0x0F, dat := 5, rel := none }, id := 0, ans := none, due := 0, lost := none } : CmxOut).req.write = true) := by decide +kernel

theorem witness_theControlMatrixServesTransfers_cmxResponse :
    (({ { (rig.puts [(R.HLM_BOOT_STAT_STEP, 13)]) with masked := [], boot := { rig.boot with stage := 90 } } with cmx := { rig.cmx with out := [{ req := { m := 5, tgt := 1, write := false, lock := false, la := 0x10000100, str := 0x0F, dat := 0, rel := some 0 }, id := 0, ans := some (7, .ok), due := 0, lost := none }] } } : State).cmx.out = ([] : List CmxOut) ++ ({ req := { m := 5, tgt := 1, write := false, lock := false, la := 0x10000100, str := 0x0F, dat := 0, rel := some 0 }, id := 0, ans := some (7, .ok), due := 0, lost := none } : CmxOut) :: ([] : List CmxOut)) ∧
    ((([] : List CmxOut) ++ ([] : List CmxOut)).all (fun y => decide (y.req.m ≠ masterIdx (Master.cc 2 : Master))) = true) ∧
    (({ req := { m := 5, tgt := 1, write := false, lock := false, la := 0x10000100, str := 0x0F, dat := 0, rel := some 0 }, id := 0, ans := some (7, .ok), due := 0, lost := none } : CmxOut).req.m = masterIdx (Master.cc 2 : Master)) ∧
    (({ req := { m := 5, tgt := 1, write := false, lock := false, la := 0x10000100, str := 0x0F, dat := 0, rel := some 0 }, id := 0, ans := some (7, .ok), due := 0, lost := none } : CmxOut).ans = some ((7, .ok) : Nat × Resp)) ∧
    (({ req := { m := 5, tgt := 1, write := false, lock := false, la := 0x10000100, str := 0x0F, dat := 0, rel := some 0 }, id := 0, ans := some (7, .ok), due := 0, lost := none } : CmxOut).due ≤ ({ { (rig.puts [(R.HLM_BOOT_STAT_STEP, 13)]) with masked := [], boot := { rig.boot with stage := 90 } } with cmx := { rig.cmx with out := [{ req := { m := 5, tgt := 1, write := false, lock := false, la := 0x10000100, str := 0x0F, dat := 0, rel := some 0 }, id := 0, ans := some (7, .ok), due := 0, lost := none }] } } : State).cyc) ∧
    (({ { (rig.puts [(R.HLM_BOOT_STAT_STEP, 13)]) with masked := [], boot := { rig.boot with stage := 90 } } with cmx := { rig.cmx with out := [{ req := { m := 5, tgt := 1, write := false, lock := false, la := 0x10000100, str := 0x0F, dat := 0, rel := some 0 }, id := 0, ans := some (7, .ok), due := 0, lost := none }] } } : State).cmx.waiting = []) ∧
    (({ { (rig.puts [(R.HLM_BOOT_STAT_STEP, 13)]) with masked := [], boot := { rig.boot with stage := 90 } } with cmx := { rig.cmx with out := [{ req := { m := 5, tgt := 1, write := false, lock := false, la := 0x10000100, str := 0x0F, dat := 0, rel := some 0 }, id := 0, ans := some (7, .ok), due := 0, lost := none }] } } : State).cmx.locks = []) ∧
    (({ { (rig.puts [(R.HLM_BOOT_STAT_STEP, 13)]) with masked := [], boot := { rig.boot with stage := 90 } } with cmx := { rig.cmx with out := [{ req := { m := 5, tgt := 1, write := false, lock := false, la := 0x10000100, str := 0x0F, dat := 0, rel := some 0 }, id := 0, ans := some (7, .ok), due := 0, lost := none }] } } : State).loose.acked = []) ∧
    (({ { (rig.puts [(R.HLM_BOOT_STAT_STEP, 13)]) with masked := [], boot := { rig.boot with stage := 90 } } with cmx := { rig.cmx with out := [{ req := { m := 5, tgt := 1, write := false, lock := false, la := 0x10000100, str := 0x0F, dat := 0, rel := some 0 }, id := 0, ans := some (7, .ok), due := 0, lost := none }] } } : State).brg.inbox = []) ∧
    (({ { (rig.puts [(R.HLM_BOOT_STAT_STEP, 13)]) with masked := [], boot := { rig.boot with stage := 90 } } with cmx := { rig.cmx with out := [{ req := { m := 5, tgt := 1, write := false, lock := false, la := 0x10000100, str := 0x0F, dat := 0, rel := some 0 }, id := 0, ans := some (7, .ok), due := 0, lost := none }] } } : State).mgt.halting.contains (masterIdx (Master.cc 2 : Master)) = false) := by decide +kernel

theorem witness_theControlMatrixServesTransfers_controlAccessTimeout :
    (({ { (rig.puts [(R.HLM_BOOT_STAT_STEP, 13)]) with masked := [], boot := { rig.boot with stage := 90 } } with cmx := { rig.cmx with out := [{ req := { m := 5, tgt := 3, write := false, lock := false, la := 0x40000000, str := 0x0F, dat := 0, rel := some 0 }, id := 0, ans := none, due := 0, lost := some 0 }] }, time := { rig.time with fc := 2000 } } : State).cmx.out.filter (fun y => decide (y.req.m % 16 = masterIdx (Master.cc 2 : Master)) && y.lost.isSome) = [({ req := { m := 5, tgt := 3, write := false, lock := false, la := 0x40000000, str := 0x0F, dat := 0, rel := some 0 }, id := 0, ans := none, due := 0, lost := some 0 } : CmxOut)]) ∧
    (({ req := { m := 5, tgt := 3, write := false, lock := false, la := 0x40000000, str := 0x0F, dat := 0, rel := some 0 }, id := 0, ans := none, due := 0, lost := some 0 } : CmxOut).req.m < 16) ∧
    (({ req := { m := 5, tgt := 3, write := false, lock := false, la := 0x40000000, str := 0x0F, dat := 0, rel := some 0 }, id := 0, ans := none, due := 0, lost := some 0 } : CmxOut).lost = some (0 : Nat)) ∧
    ((0 : Nat) + 1024 ≤ ({ { (rig.puts [(R.HLM_BOOT_STAT_STEP, 13)]) with masked := [], boot := { rig.boot with stage := 90 } } with cmx := { rig.cmx with out := [{ req := { m := 5, tgt := 3, write := false, lock := false, la := 0x40000000, str := 0x0F, dat := 0, rel := some 0 }, id := 0, ans := none, due := 0, lost := some 0 }] }, time := { rig.time with fc := 2000 } } : State).time.fc) ∧
    (({ req := { m := 5, tgt := 3, write := false, lock := false, la := 0x40000000, str := 0x0F, dat := 0, rel := some 0 }, id := 0, ans := none, due := 0, lost := some 0 } : CmxOut).id = 0) := by decide +kernel

theorem witness_theControlMatrixServesTransfers_lockedRead_shuts :
    ({ { (rig.puts [(R.HLM_BOOT_STAT_STEP, 13)]) with masked := [], boot := { rig.boot with stage := 90 } } with cmx := { rig.cmx with locks := [(3, 0, 8)] } } : State).rgsShut (masterIdx (Master.pwc : Master)) = true := by decide +kernel

theorem witness_theControlMatrixServesTransfers_lockedRead_waits :
    ({ { (rig.puts [(R.HLM_BOOT_STAT_STEP, 13)]) with masked := [], boot := { rig.boot with stage := 90 } } with cmx := { rig.cmx with locks := [(3, 0, 8)] } } : State).rgsShut (masterIdx (Master.pwc : Master)) = true := by decide +kernel


end Checks
end

section
/-! SUPPORT. Every command keeps the queue, the ties and the canonical form: the frames of all commands gathered, and what a step takes over from them. -/
namespace Sys2Proof.Machine

theorem subset_allParts (l : List Part) : l ⊆ allParts := fun p _ => by cases p <;> decide

/-- The frames of the commands, one arm for each arm of `exec`. -/
theorem exec_keeps (s : State) : (i : Instr) → KeepsO allParts s (exec i s)
  | .registerWrite m ca v => execRegisterWrite_keeps m ca v (subset_allParts _) (.refl s)
  | .rcRead m ca => execRcRead_keeps m ca (subset_allParts _) (.refl s)
  | .loReadLatch m ca => execLoReadLatch_keeps m ca (subset_allParts _) (.refl s)
  | .pairLoWrite m ca v => execPairLoWrite_keeps m ca v (subset_allParts _) (.refl s)
  | .pairHiWrite m ca v => execPairHiWrite_keeps m ca v (subset_allParts _) (.refl s)
  | .cmapCtlWrite m v => execCmapCtlWrite_keeps m v (subset_allParts _) (.refl s)
  | .cmapEntryWrite m g n v => execCmapEntryWrite_keeps m g n v (subset_allParts _) (.refl s)
  | .setFlitHop id => execSetFlitHop_keeps id (subset_allParts _) (.refl s)
  | .flitArrival id => execFlitArrival_keeps id (subset_allParts _) (.refl s)
  | .landingRelease cab id => execLandingRelease_keeps cab id (subset_allParts _) (.refl s)
  | .freezeStart src => execFreezeStart_keeps src (subset_allParts _) (.refl s)
  | .freezeFinish src => execFreezeFinish_keeps src (subset_allParts _) (.refl s)
  | .frzReqChange level => execFrzReqChange_keeps level (subset_allParts _) (.refl s)
  | .frzCtlWrite m v => execFrzCtlWrite_keeps m v (subset_allParts _) (.refl s)
  | .freezeBeginMark lane origin seq => execFreezeBeginMark_keeps lane origin seq (subset_allParts _) (.refl s)
  | .freezeEndMark lane origin seq => execFreezeEndMark_keeps lane origin seq (subset_allParts _) (.refl s)
  | .stepMark ctx rpl => execStepMark_keeps ctx rpl (subset_allParts _) (.refl s)
  | .stepRelease ctx => execStepRelease_keeps ctx (subset_allParts _) (.refl s)
  | .replayNotice lane ctx attempt r => execReplayNotice_keeps lane ctx attempt r (subset_allParts _) (.refl s)
  | .replayRestart ctx => execReplayRestart_keeps ctx (subset_allParts _) (.refl s)
  | .sbcOpenWrite cab entry base limit count => execSbcOpenWrite_keeps cab entry base limit count (subset_allParts _) (.refl s)
  | .sbcOpenRead cab entry base limit count => execSbcOpenRead_keeps cab entry base limit count (subset_allParts _) (.refl s)
  | .sbcClose cab entry => execSbcClose_keeps cab entry (subset_allParts _) (.refl s)
  | .rangeHoldEnd cab entry => execRangeHoldEnd_keeps cab entry (subset_allParts _) (.refl s)
  | .heldAccessRelease cab port => execHeldAccessRelease_keeps cab port (subset_allParts _) (.refl s)
  | .sbdModeWrite m cab v => execSbdModeWrite_keeps m cab v (subset_allParts _) (.refl s)
  | .wrpLookahead cab grp => execWrpLookahead_keeps cab grp (subset_allParts _) (.refl s)
  | .wrpIssue cab addr dly => execWrpIssue_keeps cab addr dly (subset_allParts _) (.refl s)
  | .wrpDelivery cab perr => execWrpDelivery_keeps cab perr (subset_allParts _) (.refl s)
  | .remoteReadInject cab id => execRemoteReadInject_keeps cab id (subset_allParts _) (.refl s)
  | .wwpLookahead cab grp => execWwpLookahead_keeps cab grp (subset_allParts _) (.refl s)
  | .wwpIssue cab addr data dly perr => execWwpIssue_keeps cab addr data dly perr (subset_allParts _) (.refl s)
  | .wwpResponse cab => execWwpResponse_keeps cab (subset_allParts _) (.refl s)
  | .remoteWriteInject cab id => execRemoteWriteInject_keeps cab id (subset_allParts _) (.refl s)
  | .landingLookahead cab grp => execLandingLookahead_keeps cab grp (subset_allParts _) (.refl s)
  | .npRequest cab port we addr be data tag => execNpRequest_keeps cab port we addr be data tag (subset_allParts _) (.refl s)
  | .npCompletion cab port perr => execNpCompletion_keeps cab port perr (subset_allParts _) (.refl s)
  | .hfpPush cab f data first last perr => execHfpPush_keeps cab f data first last perr (subset_allParts _) (.refl s)
  | .hfpPop cab f perr => execHfpPop_keeps cab f perr (subset_allParts _) (.refl s)
  | .hfpDrop cab f => execHfpDrop_keeps cab f (subset_allParts _) (.refl s)
  | .presentChange port level => execPresentChange_keeps port level (subset_allParts _) (.refl s)
  | .pairArbitration cab pair => execPairArbitration_keeps cab pair (subset_allParts _) (.refl s)
  | .looseBurstDone cab pair => execLooseBurstDone_keeps cab pair (subset_allParts _) (.refl s)
  | .requestUrgent cab pair => execRequestUrgent_keeps cab pair (subset_allParts _) (.refl s)
  | .arbPrioWrite m cab v => execArbPrioWrite_keeps m cab v (subset_allParts _) (.refl s)
  | .arbAgeWrite m cab v => execArbAgeWrite_keeps m cab v (subset_allParts _) (.refl s)
  | .arbCntClr m cab v => execArbCntClr_keeps m cab v (subset_allParts _) (.refl s)
  | .linkOutputGrant cab out => execLinkOutputGrant_keeps cab out (subset_allParts _) (.refl s)
  | .looseFlitHop id => execLooseFlitHop_keeps id (subset_allParts _) (.refl s)
  | .autoRetire cab bank mac => execAutoRetire_keeps cab bank mac (subset_allParts _) (.refl s)
  | .retireWrite m cab bank v => execRetireWrite_keeps m cab bank v (subset_allParts _) (.refl s)
  | .bucketDrip cab => execBucketDrip_keeps cab (subset_allParts _) (.refl s)
  | .bktCfgWrite m cab v => execBktCfgWrite_keeps m cab v (subset_allParts _) (.refl s)
  | .injCtlWrite m cab v => execInjCtlWrite_keeps m cab v (subset_allParts _) (.refl s)
  | .bnkCntClr m cab v => execBnkCntClr_keeps m cab v (subset_allParts _) (.refl s)
  | .swpGo m cab v => execSwpGo_keeps m cab v (subset_allParts _) (.refl s)
  | .sweepRangeDone cab => execSweepRangeDone_keeps cab (subset_allParts _) (.refl s)
  | .logAck m k v => execLogAck_keeps m k v (subset_allParts _) (.refl s)
  | .logClrAll m k v => execLogClrAll_keeps m k v (subset_allParts _) (.refl s)
  | .assayGo m cab v => execAssayGo_keeps m cab v (subset_allParts _) (.refl s)
  | .assayBurst cab => execAssayBurst_keeps cab (subset_allParts _) (.refl s)
  | .assayRepair cab => execAssayRepair_keeps cab (subset_allParts _) (.refl s)
  | .assayAbort m cab v => execAssayAbort_keeps m cab v (subset_allParts _) (.refl s)
  | .assayDone cab => execAssayDone_keeps cab (subset_allParts _) (.refl s)
  | .remapAdd m cab v => execRemapAdd_keeps m cab v (subset_allParts _) (.refl s)
  | .remapMove cab => execRemapMove_keeps cab (subset_allParts _) (.refl s)
  | .fenceCmd m v => execFenceCmd_keeps m v (subset_allParts _) (.refl s)
  | .fencePendClear m k v => execFencePendClear_keeps m k v (subset_allParts _) (.refl s)
  | .fenceTakeEffect cab => execFenceTakeEffect_keeps cab (subset_allParts _) (.refl s)
  | .fenceQuench cab => execFenceQuench_keeps cab (subset_allParts _) (.refl s)
  | .stationPoll cab answered => execStationPoll_keeps cab answered (subset_allParts _) (.refl s)
  | .pollMissed cab => execPollMissed_keeps cab (subset_allParts _) (.refl s)
  | .controlAccessTimeout m => execControlAccessTimeout_keeps m (subset_allParts _) (.refl s)
  | .detWrite m n v => execDetWrite_keeps m n v (subset_allParts _) (.refl s)
  | .engineSignal cab cn inc drain => execEngineSignal_keeps cab cn inc drain (subset_allParts _) (.refl s)
  | .waitRegister cab id ctr exp => execWaitRegister_keeps cab id ctr exp (subset_allParts _) (.refl s)
  | .waitCancel cab id => execWaitCancel_keeps cab id (subset_allParts _) (.refl s)
  | .signalLeave id => execSignalLeave_keeps id (subset_allParts _) (.refl s)
  | .signalBridgeRelease id => execSignalBridgeRelease_keeps id (subset_allParts _) (.refl s)
  | .signalApply id => execSignalApply_keeps id (subset_allParts _) (.refl s)
  | .waiterFire cab k => execWaiterFire_keeps cab k (subset_allParts _) (.refl s)
  | .shadowUpdate g => execShadowUpdate_keeps g (subset_allParts _) (.refl s)
  | .counterBind m sel v => execCounterBind_keeps m sel v (subset_allParts _) (.refl s)
  | .counterUnbind m sel v => execCounterUnbind_keeps m sel v (subset_allParts _) (.refl s)
  | .quietEnd sel => execQuietEnd_keeps sel (subset_allParts _) (.refl s)
  | .wakeEnWrite m sel v => execWakeEnWrite_keeps m sel v (subset_allParts _) (.refl s)
  | .synSignalWrite m cab v => execSynSignalWrite_keeps m cab v (subset_allParts _) (.refl s)
  | .setKeyWrite m cab v => execSetKeyWrite_keeps m cab v (subset_allParts _) (.refl s)
  | .setPathTimeout cab => execSetPathTimeout_keeps cab (subset_allParts _) (.refl s)
  | .counterSet m cab v => execCounterSet_keeps m cab v (subset_allParts _) (.refl s)
  | .dumpGo m v => execDumpGo_keeps m v (subset_allParts _) (.refl s)
  | .runnerListGo m cab r v => execRunnerListGo_keeps m cab r v (subset_allParts _) (.refl s)
  | .descriptorFetch cab r => execDescriptorFetch_keeps cab r (subset_allParts _) (.refl s)
  | .descriptorStart cab r => execDescriptorStart_keeps cab r (subset_allParts _) (.refl s)
  | .copy cab r => execCopy_keeps cab r (subset_allParts _) (.refl s)
  | .fill cab r => execFill_keeps cab r (subset_allParts _) (.refl s)
  | .gather cab r => execGather_keeps cab r (subset_allParts _) (.refl s)
  | .scatter cab r => execScatter_keeps cab r (subset_allParts _) (.refl s)
  | .mcast cab r => execMcast_keeps cab r (subset_allParts _) (.refl s)
  | .fuse cab r => execFuse_keeps cab r (subset_allParts _) (.refl s)
  | .engine cab r => execEngine_keeps cab r (subset_allParts _) (.refl s)
  | .wait cab r => execWait_keeps cab r (subset_allParts _) (.refl s)
  | .signal cab r => execSignal_keeps cab r (subset_allParts _) (.refl s)
  | .sweep cab r => execSweep_keeps cab r (subset_allParts _) (.refl s)
  | .nop cab r => execNop_keeps cab r (subset_allParts _) (.refl s)
  | .segmentPresent cab r => execSegmentPresent_keeps cab r (subset_allParts _) (.refl s)
  | .segmentAnswer cab r => execSegmentAnswer_keeps cab r (subset_allParts _) (.refl s)
  | .descriptorComplete cab r => execDescriptorComplete_keeps cab r (subset_allParts _) (.refl s)
  | .listComplete cab r => execListComplete_keeps cab r (subset_allParts _) (.refl s)
  | .cmplPop m cab r v => execCmplPop_keeps m cab r v (subset_allParts _) (.refl s)
  | .runnerAbort m cab r v => execRunnerAbort_keeps m cab r v (subset_allParts _) (.refl s)
  | .abortComplete cab r => execAbortComplete_keeps cab r (subset_allParts _) (.refl s)
  | .waitTimeout cab r => execWaitTimeout_keeps cab r (subset_allParts _) (.refl s)
  | .handoverGrant cab => execHandoverGrant_keeps cab (subset_allParts _) (.refl s)
  | .reservationAged cab r => execReservationAged_keeps cab r (subset_allParts _) (.refl s)
  | .runnerWatchdog cab r => execRunnerWatchdog_keeps cab r (subset_allParts _) (.refl s)
  | .esgAck cab => execEsgAck_keeps cab (subset_allParts _) (.refl s)
  | .esgDone cab r => execEsgDone_keeps cab r (subset_allParts _) (.refl s)
  | .stagePush cab r => execStagePush_keeps cab r (subset_allParts _) (.refl s)
  | .stagePop cab r => execStagePop_keeps cab r (subset_allParts _) (.refl s)
  | .mcastAck cab r rx => execMcastAck_keeps cab r rx (subset_allParts _) (.refl s)
  | .mcastLapse cab r rx => execMcastLapse_keeps cab r rx (subset_allParts _) (.refl s)
  | .stealLook cab r => execStealLook_keeps cab r (subset_allParts _) (.refl s)
  | .stealArrive cab r => execStealArrive_keeps cab r (subset_allParts _) (.refl s)
  | .fifoItemFall cab f => execFifoItemFall_keeps cab f (subset_allParts _) (.refl s)
  | .fifoNoticeSend cab f => execFifoNoticeSend_keeps cab f (subset_allParts _) (.refl s)
  | .hffFlush m cab v => execHffFlush_keeps m cab v (subset_allParts _) (.refl s)
  | .hffCfgWrite m cab f v => execHffCfgWrite_keeps m cab f v (subset_allParts _) (.refl s)
  | .ctxActivate m c => execCtxActivate_keeps m c (subset_allParts _) (.refl s)
  | .ctxDeactivate m c => execCtxDeactivate_keeps m c (subset_allParts _) (.refl s)
  | .ctxBind m c => execCtxBind_keeps m c (subset_allParts _) (.refl s)
  | .ctxKill m c => execCtxKill_keeps m c (subset_allParts _) (.refl s)
  | .killQuiesceEnd c => execKillQuiesceEnd_keeps c (subset_allParts _) (.refl s)
  | .killUnbind c => execKillUnbind_keeps c (subset_allParts _) (.refl s)
  | .eagWrite m p v => execEagWrite_keeps m p v (subset_allParts _) (.refl s)
  | .windowBind m w c => execWindowBind_keeps m w c (subset_allParts _) (.refl s)
  | .windowUnbind m w c => execWindowUnbind_keeps m w c (subset_allParts _) (.refl s)
  | .windowRelease m w c => execWindowRelease_keeps m w c (subset_allParts _) (.refl s)
  | .windowCloseSettle w => execWindowCloseSettle_keeps w (subset_allParts _) (.refl s)
  | .windowSweepDone w => execWindowSweepDone_keeps w (subset_allParts _) (.refl s)
  | .cmxRequest m write laddr strobes data => execCmxRequest_keeps m write laddr strobes data (subset_allParts _) (.refl s)
  | .targetArbitration t => execTargetArbitration_keeps t (subset_allParts _) (.refl s)
  | .cmxResponse m => execCmxResponse_keeps m (subset_allParts _) (.refl s)
  | .lockedRead m laddr strobes => execLockedRead_keeps m laddr strobes (subset_allParts _) (.refl s)
  | .mgtRemapWrite m core v => execMgtRemapWrite_keeps m core v (subset_allParts _) (.refl s)
  | .doorbell m v => execDoorbell_keeps m v (subset_allParts _) (.refl s)
  | .sqNop ix => execSqNop_keeps ix (subset_allParts _) (.refl s)
  | .sqActivate ix => execSqActivate_keeps ix (subset_allParts _) (.refl s)
  | .sqDeactivate ix => execSqDeactivate_keeps ix (subset_allParts _) (.refl s)
  | .sqBind ix => execSqBind_keeps ix (subset_allParts _) (.refl s)
  | .sqKill ix => execSqKill_keeps ix (subset_allParts _) (.refl s)
  | .sqWindow ix => execSqWindow_keeps ix (subset_allParts _) (.refl s)
  | .sqRun ix => execSqRun_keeps ix (subset_allParts _) (.refl s)
  | .sqSync ix => execSqSync_keeps ix (subset_allParts _) (.refl s)
  | .sqFifo ix => execSqFifo_keeps ix (subset_allParts _) (.refl s)
  | .sqAssay ix => execSqAssay_keeps ix (subset_allParts _) (.refl s)
  | .sqFence ix => execSqFence_keeps ix (subset_allParts _) (.refl s)
  | .sqRemap ix => execSqRemap_keeps ix (subset_allParts _) (.refl s)
  | .sqRetire ix => execSqRetire_keeps ix (subset_allParts _) (.refl s)
  | .sqOppoint ix => execSqOppoint_keeps ix (subset_allParts _) (.refl s)
  | .sqPstate ix => execSqPstate_keeps ix (subset_allParts _) (.refl s)
  | .sqStage ix sigOk => execSqStage_keeps ix sigOk (subset_allParts _) (.refl s)
  | .sqFwact ix => execSqFwact_keeps ix (subset_allParts _) (.refl s)
  | .sqLogown ix => execSqLogown_keeps ix (subset_allParts _) (.refl s)
  | .sqDump ix => execSqDump_keeps ix (subset_allParts _) (.refl s)
  | .completionPost core => execCompletionPost_keeps core (subset_allParts _) (.refl s)
  | .eventPost core => execEventPost_keeps core (subset_allParts _) (.refl s)
  | .hintSet m v => execHintSet_keeps m v (subset_allParts _) (.refl s)
  | .hintStatClear m v => execHintStatClear_keeps m v (subset_allParts _) (.refl s)
  | .wdtKick m core v => execWdtKick_keeps m core v (subset_allParts _) (.refl s)
  | .watchdogExpiry core => execWatchdogExpiry_keeps core (subset_allParts _) (.refl s)
  | .coreRestart core cause => execCoreRestart_keeps core cause (subset_allParts _) (.refl s)
  | .coreRelease core => execCoreRelease_keeps core (subset_allParts _) (.refl s)
  | .restartKickTimeout core => execRestartKickTimeout_keeps core (subset_allParts _) (.refl s)
  | .mgtRestartWrite m v => execMgtRestartWrite_keeps m v (subset_allParts _) (.refl s)
  | .mgtActWrite m v => execMgtActWrite_keeps m v (subset_allParts _) (.refl s)
  | .probationEnd role => execProbationEnd_keeps role (subset_allParts _) (.refl s)
  | .recovery m v => execRecovery_keeps m v (subset_allParts _) (.refl s)
  | .selfHalt m v => execSelfHalt_keeps m v (subset_allParts _) (.refl s)
  | .resume m v => execResume_keeps m v (subset_allParts _) (.refl s)
  | .cabCmdRun m cab => execCabCmdRun_keeps m cab (subset_allParts _) (.refl s)
  | .cabCmdDoze m cab => execCabCmdDoze_keeps m cab (subset_allParts _) (.refl s)
  | .cabCmdHold m cab => execCabCmdHold_keeps m cab (subset_allParts _) (.refl s)
  | .cabCmdQuench m cab => execCabCmdQuench_keeps m cab (subset_allParts _) (.refl s)
  | .entryDrainEnd cab => execEntryDrainEnd_keeps cab (subset_allParts _) (.refl s)
  | .drainTimeout cab => execDrainTimeout_keeps cab (subset_allParts _) (.refl s)
  | .entryCommitEnd cab => execEntryCommitEnd_keeps cab (subset_allParts _) (.refl s)
  | .dozeWakeDone cab => execDozeWakeDone_keeps cab (subset_allParts _) (.refl s)
  | .wakePowerDone cab => execWakePowerDone_keeps cab (subset_allParts _) (.refl s)
  | .dieSleep m v => execDieSleep_keeps m v (subset_allParts _) (.refl s)
  | .opChange m v => execOpChange_keeps m v (subset_allParts _) (.refl s)
  | .dieOpChange target => execDieOpChange_keeps target (subset_allParts _) (.refl s)
  | .opChangeDone die result => execOpChangeDone_keeps die result (subset_allParts _) (.refl s)
  | .emergSet m v => execEmergSet_keeps m v (subset_allParts _) (.refl s)
  | .emergClr m v => execEmergClr_keeps m v (subset_allParts _) (.refl s)
  | .droopStretch regions skew => execDroopStretch_keeps regions skew (subset_allParts _) (.refl s)
  | .timSet m v => execTimSet_keeps m v (subset_allParts _) (.refl s)
  | .beaconReceive lane value h => execBeaconReceive_keeps lane value h (subset_allParts _) (.refl s)
  | .wireSlotReceive lane slot crcOk => execWireSlotReceive_keeps lane slot crcOk (subset_allParts _) (.refl s)
  | .nakReceive lane seq => execNakReceive_keeps lane seq (subset_allParts _) (.refl s)
  | .slotDelivery lane => execSlotDelivery_keeps lane (subset_allParts _) (.refl s)
  | .bridgeLate lane => execBridgeLate_keeps lane (subset_allParts _) (.refl s)
  | .laneSilent lane => execLaneSilent_keeps lane (subset_allParts _) (.refl s)
  | .laneDownNotice lane origin seq => execLaneDownNotice_keeps lane origin seq (subset_allParts _) (.refl s)
  | .laneTrain m lane => execLaneTrain_keeps m lane (subset_allParts _) (.refl s)
  | .laneOff m lane => execLaneOff_keeps m lane (subset_allParts _) (.refl s)
  | .trainDone lane modules => execTrainDone_keeps lane modules (subset_allParts _) (.refl s)
  | .drouteWrite m v => execDrouteWrite_keeps m v (subset_allParts _) (.refl s)
  | .edgeHello k pkt => execEdgeHello_keeps k pkt (subset_allParts _) (.refl s)
  | .edgeKeepalive k pkt => execEdgeKeepalive_keeps k pkt (subset_allParts _) (.refl s)
  | .edgeWrite k pkt => execEdgeWrite_keeps k pkt (subset_allParts _) (.refl s)
  | .edgeInc k pkt => execEdgeInc_keeps k pkt (subset_allParts _) (.refl s)
  | .edgeRead k pkt => execEdgeRead_keeps k pkt (subset_allParts _) (.refl s)
  | .edgeAck k pkt => execEdgeAck_keeps k pkt (subset_allParts _) (.refl s)
  | .edgeReadRsp k pkt => execEdgeReadRsp_keeps k pkt (subset_allParts _) (.refl s)
  | .quarantineWindow p => execQuarantineWindow_keeps p (subset_allParts _) (.refl s)
  | .edgeLinkUp k => execEdgeLinkUp_keeps k (subset_allParts _) (.refl s)
  | .edgeLinkDown k => execEdgeLinkDown_keeps k (subset_allParts _) (.refl s)
  | .helloRepeat k => execHelloRepeat_keeps k (subset_allParts _) (.refl s)
  | .keepaliveSend p => execKeepaliveSend_keeps p (subset_allParts _) (.refl s)
  | .partnerTimeout p => execPartnerTimeout_keeps p (subset_allParts _) (.refl s)
  | .edgePut k => execEdgePut_keeps k (subset_allParts _) (.refl s)
  | .edgeGet k => execEdgeGet_keeps k (subset_allParts _) (.refl s)
  | .edgeIncCmd k => execEdgeIncCmd_keeps k (subset_allParts _) (.refl s)
  | .edgePacketTimeout k => execEdgePacketTimeout_keeps k (subset_allParts _) (.refl s)
  | .txRspTimeout k => execTxRspTimeout_keeps k (subset_allParts _) (.refl s)
  | .partnerKeyGo m p v => execPartnerKeyGo_keeps m p v (subset_allParts _) (.refl s)
  | .partnerClear m p v => execPartnerClear_keeps m p v (subset_allParts _) (.refl s)
  | .edgeEnWrite m k v => execEdgeEnWrite_keeps m k v (subset_allParts _) (.refl s)
  | .edgeWake k => execEdgeWake_keeps k (subset_allParts _) (.refl s)
  | .powerOnReset sfdpOk sigOk => execPowerOnReset_keeps sfdpOk sigOk (subset_allParts _) (.refl s)
  | .bistStageEnd found => execBistStageEnd_keeps found (subset_allParts _) (.refl s)
  | .bootLock m v => execBootLock_keeps m v (subset_allParts _) (.refl s)
  | .stimeSync m v => execStimeSync_keeps m v (subset_allParts _) (.refl s)
  | .startMarkReceive lane st h => execStartMarkReceive_keeps lane st h (subset_allParts _) (.refl s)
  | .roundMessage lane die mark => execRoundMessage_keeps lane die mark (subset_allParts _) (.refl s)
  | .hdpRequest we addr be data ctx tag => execHdpRequest_keeps we addr be data ctx tag (subset_allParts _) (.refl s)
  | .dbgAccUpdate write go strobes laddr data => execDbgAccUpdate_keeps write go strobes laddr data (subset_allParts _) (.refl s)
  | .debugHalt m v => execDebugHalt_keeps m v (subset_allParts _) (.refl s)
  | .edgeMalformedPacket k pkt => execEdgeMalformedPacket_keeps k pkt (subset_allParts _) (.refl s)
  | .mapRebuild => execMapRebuild_keeps (subset_allParts _) (.refl s)
  | .ueWindowReset => execUeWindowReset_keeps (subset_allParts _) (.refl s)
  | .dumpDone => execDumpDone_keeps (subset_allParts _) (.refl s)
  | .submissionTake => execSubmissionTake_keeps (subset_allParts _) (.refl s)
  | .activationStart => execActivationStart_keeps (subset_allParts _) (.refl s)
  | .dieSleepCommitEnd => execDieSleepCommitEnd_keeps (subset_allParts _) (.refl s)
  | .rtcAlarmRise => execRtcAlarmRise_keeps (subset_allParts _) (.refl s)
  | .rtcAlarmFall => execRtcAlarmFall_keeps (subset_allParts _) (.refl s)
  | .thermTrip => execThermTrip_keeps (subset_allParts _) (.refl s)
  | .thermTripRelease => execThermTripRelease_keeps (subset_allParts _) (.refl s)
  | .dieWakeDone => execDieWakeDone_keeps (subset_allParts _) (.refl s)
  | .vidAckToggle => execVidAckToggle_keeps (subset_allParts _) (.refl s)
  | .vidTimeout => execVidTimeout_keeps (subset_allParts _) (.refl s)
  | .leaveGrant => execLeaveGrant_keeps (subset_allParts _) (.refl s)
  | .clampFreeze => execClampFreeze_keeps (subset_allParts _) (.refl s)
  | .powerEstimate => execPowerEstimate_keeps (subset_allParts _) (.refl s)
  | .clampEmergency => execClampEmergency_keeps (subset_allParts _) (.refl s)
  | .compensatingStretch => execCompensatingStretch_keeps (subset_allParts _) (.refl s)
  | .beaconSend => execBeaconSend_keeps (subset_allParts _) (.refl s)
  | .beaconLoss => execBeaconLoss_keeps (subset_allParts _) (.refl s)
  | .porstFall => execPorstFall_keeps (subset_allParts _) (.refl s)
  | .hallmarkRound => execHallmarkRound_keeps (subset_allParts _) (.refl s)
  | .hdpCompletion => execHdpCompletion_keeps (subset_allParts _) (.refl s)
  | .tapIdcode => execTapIdcode_keeps (subset_allParts _) (.refl s)
  | .tapIjtag => execTapIjtag_keeps (subset_allParts _) (.refl s)
  | .tapBypass => execTapBypass_keeps (subset_allParts _) (.refl s)
  | .debugSessionOpen => execDebugSessionOpen_keeps (subset_allParts _) (.refl s)
  | .debugSessionClose => execDebugSessionClose_keeps (subset_allParts _) (.refl s)
  | .dbgAccCapture => execDbgAccCapture_keeps (subset_allParts _) (.refl s)
  | .hallmarkComputationEnd => execHallmarkComputationEnd_keeps (subset_allParts _) (.refl s)
  | .recoveryStart => execRecoveryStart_keeps (subset_allParts _) (.refl s)

/-- The state a command leaves is canonical where the one it found is. -/
theorem exec_canonical {i : Instr} {s t : State} (hs : s.canonical) (h : exec i s = .next t) : t.canonical := by
  obtain ⟨u, hu, hk⟩ := exec_keeps s i
  obtain rfl : u = t := Host.Outcome.next.inj (hu.symm.trans h)
  exact ⟨hk.mem hs.1, hk.regs hs.2⟩

theorem step_of_pending_cons {s : State} {c : Instr} {rest : List Instr} (h : s.pending = c :: rest) : step s = exec c { s with pending := rest } := by
  simp only [step, h]

theorem step_of_pending_nil {s : State} (h : s.pending = []) : step s = .next s.idle := by
  simp only [step, h]

end Sys2Proof.Machine
end

section
/-! PROOFS. The statements about every command and every step, and about reset. -/
namespace Sys2Proof.Machine

/-- Settles O4: a step is a command on the rest of the queue, due effects taken over or time passing, and each of them keeps the form. -/
theorem everyStepKeepsCanonicalForm : Obligations.EveryStepKeepsCanonicalForm := by
  intro s t hs h
  cases hp : s.pending with
  | nil =>
    obtain rfl : s.idle = t := Host.Outcome.next.inj ((step_of_pending_nil hp).symm.trans h)
    exact s.idle_rest.2 hs
  | cons c rest =>
    rw [step_of_pending_cons hp] at h
    exact exec_canonical (s := { s with pending := rest }) hs h

/-- Settles O5: by the frames of the commands. -/
theorem everyCommandAnswersAndKeepsTheQueue : Obligations.EveryCommandAnswersAndKeepsTheQueue := by
  intro i s
  obtain ⟨t, ht, hk⟩ := exec_keeps s i
  exact ⟨t, ht, hk.queue, hk.ties⟩

/-- With the ties of reset no register is listed. -/
theorem State.reset_regs : State.reset.regs = [] := rfl

theorem State.reset_reg (k : Nat) : State.reset.reg k = resetVal k := by
  unfold State.reg
  rw [State.reset_regs, SMap.get_nil]

/-- Settles O3: reset lists nothing, so every register reads its reset value. -/
theorem resetHoldsTheResetValues : Obligations.ResetHoldsTheResetValues := by
  have hcanon : State.reset.canonical := ⟨rfl, State.resetWith_regs Ties.default⟩
  exact ⟨hcanon, rfl, rfl, State.reset_reg, by decide, by decide, by decide, rfl⟩

end Sys2Proof.Machine
end

section
/-! SUPPORT. What a control access leaves of the pair sequences of other masters (R16): the latched upper halves and the held lower halves
are reached only through `State.latchHi`, `State.readReg`, `State.takeLo` and `State.holdLo`, each under the number of the access's own master. -/
namespace Sys2Proof.Machine

/-- What `s` latches and holds for masters other than `m`, `t` latches and holds too, in the same order. -/
structure PairsKept (m : Master) (s t : State) : Prop where
  hi : t.hiLatch.filter (fun e => decide (e.1 ≠ masterIdx m)) = s.hiLatch.filter (fun e => decide (e.1 ≠ masterIdx m))
  lo : t.loHeld.filter (fun e => decide (e.1 ≠ masterIdx m)) = s.loHeld.filter (fun e => decide (e.1 ≠ masterIdx m))

/-- Every part but the latched upper halves and the held lower halves. -/
def partsOffPairs : List Part := allParts.filter (fun p => !decide (p = .hiLatch) && !decide (p = .loHeld))

variable {m : Master} {s t u : State}

theorem PairsKept.refl (m : Master) (s : State) : PairsKept m s s := ⟨rfl, rfl⟩

theorem PairsKept.trans (h : PairsKept m s t) (g : PairsKept m t u) : PairsKept m s u := ⟨g.hi.trans h.hi, g.lo.trans h.lo⟩

theorem PairsKept.of_keeps (h : Keeps partsOffPairs s t) : PairsKept m s t := by
  have hhi : t.hiLatch = s.hiLatch := h.frame .hiLatch (by decide)
  have hlo : t.loHeld = s.loHeld := h.frame .loHeld (by decide)
  exact ⟨by rw [hhi], by rw [hlo]⟩

theorem PairsKept.of_keepsO {o : Host.Outcome State Fault Refusal} (h : KeepsO partsOffPairs s o) : PairsKept m s (ran s o) :=
  .of_keeps (ran_keeps o (.refl s) h)

theorem PairsKept.gate {f : State → State} (ok : Bool) (m' : Master) (k : Nat) (h : PairsKept m s (f s)) : PairsKept m s (s.gate ok m' k f) := by
  unfold State.gate
  split
  · exact h
  · exact .of_keeps (State.locked_keeps _ _ (by decide) (.refl s))

theorem PairsKept.row {f : State → State} (m' : Master) (i : Instr) (h : PairsKept m s (f s)) : PairsKept m s (s.row m' i f) := by
  unfold State.row
  split
  · exact .of_keeps (State.at'_keeps _ _ _ (by decide) (.refl s))
  · exact h

theorem PairsKept.gateAt {f : State → State} (ok : Bool) (m' : Master) (cab k : Nat) (h : PairsKept m s (f s)) :
    PairsKept m s (s.gateAt ok m' cab k f) := by
  unfold State.gateAt State.atStation
  split
  · exact .of_keeps (State.answerCtl_keeps _ _ (by decide) (State.decodeMiss_keeps _ _ _ (by decide) (.refl s)))
  · split
    · exact .gate ok m' k h
    · exact .of_keeps (State.answerCtl_keeps _ _ (by decide) (.refl s))
    · exact .of_keeps (State.lostWrite_keeps _ _ (by decide) (.refl s))

/-! The four operations on the sequences -/

/-- Taking out one entry of a master leaves the entries of the others. -/
theorem filter_others_take (l : List (Nat × Nat × W32)) (i k : Nat) :
    (l.filter (fun e => !(decide (e.1 = i) && decide (e.2.1 = k)))).filter (fun e => decide (e.1 ≠ i)) = l.filter (fun e => decide (e.1 ≠ i)) := by
  rw [List.filter_filter]
  refine List.filter_congr fun e _ => ?_
  by_cases h : e.1 = i <;> simp [h]

/-- Putting in an entry of a master leaves the entries of the others. -/
theorem filter_others_replace (l : List (Nat × Nat × W32)) (i k : Nat) (v : W32) :
    (l.filter (fun e => !(decide (e.1 = i) && decide (e.2.1 = k))) ++ [(i, k, v)]).filter (fun e => decide (e.1 ≠ i)) = l.filter (fun e => decide (e.1 ≠ i)) := by
  rw [List.filter_append, filter_others_take]
  simp

theorem State.latchHi_pairsKept (m : Master) (s : State) (hi : Nat) : PairsKept m s (s.latchHi (masterIdx m) hi) :=
  ⟨filter_others_replace _ _ _ _, rfl⟩

theorem State.readReg_pairsKept (m : Master) (s : State) (k : Nat) : PairsKept m s (s.readReg (masterIdx m) k).1 := by
  unfold State.readReg
  split
  · exact (s.latchHi_pairsKept m (k + 4)).trans (.of_keeps (State.clearRc_keeps _ (by decide) (.refl _)))
  · split
    · exact ⟨filter_others_take _ _ _, rfl⟩
    · exact .of_keeps (State.clearRc_keeps _ (by decide) (.refl s))

theorem State.takeLo_pairsKept (m : Master) (s : State) (k : Nat) : PairsKept m s (s.takeLo m k).1 := by
  unfold State.takeLo
  split
  · exact ⟨rfl, filter_others_take _ _ _⟩
  · exact .refl m s

theorem State.holdLo_pairsKept (m : Master) (s : State) (k : Nat) (v : W32) : PairsKept m s (s.holdLo m k v) :=
  .gate _ _ _ ⟨rfl, filter_others_replace _ _ _ _⟩

/-! Writes that use a held lower half up -/

theorem execTimSet_pairsKept (m : Master) (v : W32) (s : State) : PairsKept m s (ran s (execTimSet m v s)) := by
  unfold execTimSet ran
  refine .row m _ (.gate _ m _ ((s.takeLo_pairsKept m R.TIM_SET_LO).trans (.of_keeps ?_)))
  exact State.setNow_keeps _ (by decide) (State.setReg_keeps _ _ (by decide) (State.setReg_keeps _ _ (by decide) (.refl _)))

theorem execCounterSet_pairsKept (m : Master) (cab : Cab) (v : W32) (s : State) : PairsKept m s (ran s (execCounterSet m cab v s)) := by
  unfold execCounterSet ran
  refine .row m _ (.gateAt _ m cab _ ?_)
  dsimp only
  split
  · exact .of_keeps (State.put_keeps _ _ (by decide) (.refl s))
  · refine (s.takeLo_pairsKept m (R.SYN_SET_LO cab)).trans (.of_keeps ?_)
    have hset := State.setReg_keeps (K := partsOffPairs) (R.SYN_SET_LO cab) (s.takeLo m (R.SYN_SET_LO cab)).2 (by decide) (.refl (s.takeLo m (R.SYN_SET_LO cab)).1)
    have hclose := State.closePath_keeps cab (by decide) hset
    split
    · exact State.put_keeps _ _ (by decide) hclose
    · exact State.setByHand_keeps _ _ (by decide) (State.inc_keeps _ (by decide) hclose)

theorem State.writePart_pairsKept (m : Master) (s : State) (p o : Nat) (v : W32) : PairsKept m s (s.writePart m p o v) := by
  have hplain (k : Nat) (u : State) : Keeps partsOffPairs u (u.plainWrite m k v) := State.plainWrite_keeps _ _ _ (by decide) (.refl u)
  unfold State.writePart
  dsimp only
  split_ifs
  · exact .gate _ _ _ (.of_keeps (State.minOne_keeps _ (by decide) (hplain _ s)))
  · refine .gate _ _ _ ((s.takeLo_pairsKept m (dieReg 9 (4096 + 128 * p + o) - 4)).trans (.of_keeps ?_))
    exact State.plainWrite_keeps _ _ _ (by decide) (State.plainWrite_keeps _ _ _ (by decide) (.refl _))
  · exact .gate _ _ _ (.of_keeps (State.minOne_keeps _ (by decide) (State.minOne_keeps _ (by decide) (hplain _ s))))
  · exact .gate _ _ _ (.of_keeps (State.setReg_keeps _ _ (by decide) (.refl s)))
  · exact .of_keeps (State.ptCtl_keeps _ _ _ (by decide) (.refl s))
  · exact .of_keeps (State.gatedWrite_keeps _ _ _ _ (by decide) (.refl s))

theorem State.writeEdg_pairsKept (m : Master) (s : State) (off : Nat) (v : W32) : PairsKept m s (s.writeEdg m off v) := by
  unfold State.writeEdg
  dsimp only
  split_ifs
  · exact s.writePart_pairsKept m _ _ v
  · exact .of_keepsO (execEdgeEnWrite_keeps _ _ _ (by decide) (.refl s))
  · exact .of_keeps (State.gatedWrite_keeps _ _ _ _ (by decide) (.refl s))
  · exact .gate _ _ _ (.of_keeps (State.edgeGo_keeps _ _ (by decide) (.refl s)))
  · exact .of_keeps (State.gatedWrite_keeps _ _ _ _ (by decide) (.refl s))

theorem State.writeSyn_pairsKept (m : Master) (s : State) (c via : Cab) (off : Nat) (v : W32) : PairsKept m s (s.writeSyn m c via off v) := by
  have hplain (k : Nat) : Keeps partsOffPairs s (s.plainWrite m k v) := State.plainWrite_keeps _ _ _ (by decide) (.refl s)
  unfold State.writeSyn
  dsimp only
  split_ifs
  · exact .of_keepsO (execSynSignalWrite_keeps _ _ _ (by decide) (.refl s))
  · exact .of_keepsO (execSetKeyWrite_keeps _ _ _ (by decide) (.refl s))
  · exact execCounterSet_pairsKept m c v s
  · exact .of_keeps (State.dumpCtl_keeps _ _ _ (by decide) (.refl s))
  · exact .gate _ _ _ (.of_keeps (hplain _))
  · split
    · exact .of_keeps (State.ctrWrite_keeps _ _ _ (by decide) (.refl s))
    · exact .of_keeps (State.ctrWrite_keeps _ _ _ (by decide) (.refl s))
    · exact .of_keeps (hplain _)

/-! A control write, a control access -/

theorem State.writeDie_pairsKept (m : Master) (s : State) (k : Nat) (v : W32) : PairsKept m s (s.writeDie m k v) := by
  unfold State.writeDie
  dsimp only
  split
  · exact .of_keeps (State.writeIdv_keeps _ _ _ (by decide) (.refl s))
  · exact .of_keeps (State.writeErr_keeps _ _ _ (by decide) (.refl s))
  · exact .of_keeps (State.writePwr_keeps _ _ _ (by decide) (.refl s))
  · exact .of_keeps (State.gatedWrite_keeps _ _ _ _ (by decide) (.refl s))
  · split
    · exact execTimSet_pairsKept m v s
    · exact .of_keeps (State.plainWrite_keeps _ _ _ (by decide) (.refl s))
  · exact .of_keeps (.ite (State.writeBind_keeps _ _ (by decide) (.refl s)) (State.plainWrite_keeps _ _ _ (by decide) (.refl s)))
  · exact .of_keeps (State.writeCtx_keeps _ _ _ (by decide) (.refl s))
  · exact .of_keeps (State.writeLct_keeps _ _ _ (by decide) (.refl s))
  · exact .of_keeps (State.writeBrg_keeps _ _ _ (by decide) (.refl s))
  · exact s.writeEdg_pairsKept m _ v
  · exact .of_keeps (State.writeCmx_keeps _ _ _ (by decide) (.refl s))
  · exact .of_keeps (State.writeMgt_keeps _ _ _ (by decide) (.refl s))
  · exact .of_keeps (State.writeHlm_keeps _ _ _ (by decide) (.refl s))
  · exact .of_keeps (.ite (ran_keeps _ (.refl s) (execDebugHalt_keeps _ _ (by decide) (.refl s))) (State.gatedWrite_keeps _ _ _ _ (by decide) (.refl s)))

theorem State.writeCab_pairsKept (m : Master) (s : State) (k : Nat) (via : Cab) (v : W32) : PairsKept m s (s.writeCab m k via v) := by
  have hplain (k : Nat) : Keeps partsOffPairs s (s.plainWrite m k v) := State.plainWrite_keeps _ _ _ (by decide) (.refl s)
  have hgated (ok : Bool) (k : Nat) : Keeps partsOffPairs s (s.gatedWrite ok m k v) := State.gatedWrite_keeps _ _ _ _ (by decide) (.refl s)
  unfold State.writeCab
  dsimp only
  split
  · exact .of_keeps (State.writeBnk_keeps _ _ _ _ (by decide) (.refl s))
  · exact .of_keeps (.ite (ran_keeps _ (.refl s) (execRemapAdd_keeps _ _ _ (by decide) (.refl s))) (hgated _ _))
  · exact s.writeSyn_pairsKept m _ via _ v
  · exact .of_keeps (State.writeRun_keeps _ _ _ _ (by decide) (.refl s))
  · exact .of_keeps (State.writeHff_keeps _ _ _ _ (by decide) (.refl s))
  · exact .of_keeps (.ite (ran_keeps _ (.refl s) (execSbdModeWrite_keeps _ _ _ (by decide) (.refl s))) (hplain _))
  · split_ifs
    · exact .of_keepsO (execArbPrioWrite_keeps _ _ _ (by decide) (.refl s))
    · exact .of_keepsO (execArbAgeWrite_keeps _ _ _ (by decide) (.refl s))
    · exact .of_keepsO (execArbCntClr_keeps _ _ _ (by decide) (.refl s))
    · exact .of_keeps (hplain _)
  · exact .of_keeps (.ite (State.asyCtl_keeps _ _ _ (by decide) (.refl s)) (hgated _ _))
  · exact .of_keeps (hplain _)

theorem State.ctlWrite_pairsKept (m : Master) (s : State) (k : Nat) (via : Cab) (v : W32) : PairsKept m s (s.ctlWrite m k via v) := by
  unfold State.ctlWrite
  split_ifs
  · exact s.holdLo_pairsKept m k v
  · exact s.writeDie_pairsKept m k v
  · exact s.writeCab_pairsKept m k via v

@[simp] theorem masterOf_masterIdx (m : Master) : masterOf (masterIdx m) = m := by
  cases m with
  | cc k => revert k; decide
  | _ => rfl

theorem State.controlServe_pairsKept {m : Master} (s : State) {o : CmxOut} (ca : Nat) (h : o.req.m = masterIdx m) :
    PairsKept m s (s.controlServe o ca (masterIdx m)).1 := by
  unfold State.controlServe
  split
  · exact .refl m s
  · split
    · exact .refl m s
    · exact .of_keeps (State.later_keeps _ _ _ (by decide) (.refl s))
    · split_ifs
      · rw [h, masterOf_masterIdx]
        exact s.ctlWrite_pairsKept m _ _ _
      · exact s.readReg_pairsKept m _

theorem PairsKept.respond (h : PairsKept m s t) (o : CmxOut) (a : Nat × Resp) : PairsKept m s (t.respond o a) :=
  h.trans (.of_keeps (State.respond_keeps _ _ (by decide) (.refl t)))

theorem State.ctlAccess_pairsKept (m : Master) (s : State) (ca : W32) (write : Bool) (v : W32) : PairsKept m s (s.ctlAccess m ca write v) := by
  unfold State.ctlAccess
  dsimp only
  split_ifs
  · exact .refl m s
  · exact .respond (.refl m s) _ _
  · exact .respond (.of_keeps (State.decodeMiss_keeps _ _ _ (by decide) (.refl s))) _ _
  · exact .of_keeps (State.presentReq_keeps _ (by decide) (.refl s))
  · split
    · exact .respond (s.controlServe_pairsKept _ rfl) _ _
    · exact (s.controlServe_pairsKept (ca.toNat % 2 ^ 29) rfl).trans ⟨rfl, rfl⟩

/-- Settles O7: each of the five commands is a control access of its master, which reaches the sequences under that master's number only. -/
theorem mastersKeepTheirPairSequences : Obligations.MastersKeepTheirPairSequences := by
  intro m ca v c s t hc h
  obtain ⟨w, x, hx⟩ : ∃ w x, exec c s = .next (s.ctlAccess m ca w x) := by
    simp only [List.mem_cons, List.not_mem_nil, or_false] at hc
    obtain rfl | rfl | rfl | rfl | rfl := hc
    · exact ⟨true, v, rfl⟩
    · exact ⟨false, 0, rfl⟩
    · exact ⟨false, 0, rfl⟩
    · exact ⟨true, v, rfl⟩
    · exact ⟨true, v, rfl⟩
  obtain rfl : s.ctlAccess m ca w x = t := Host.Outcome.next.inj (hx.symm.trans h)
  have hk := s.ctlAccess_pairsKept m ca w x
  exact ⟨hk.hi, hk.lo⟩

end Sys2Proof.Machine
end

section
/-! PROOFS. A register write that a lock ending on its cycle puts off, against the clause of TIM.SET. -/
namespace Sys2Proof.Machine

/-- An operation whose frame holds the registers leaves what each of them reads. -/
theorem Keeps.reg {K : List Part} {s t : State} (h : Keeps K s t) (hk : Part.regs ∉ K) (k : Nat) : t.reg k = s.reg k := by
  have hregs : t.regs = s.regs := h.frame .regs hk
  unfold State.reg
  rw [hregs]

theorem State.setNow_reg (s : State) (n k : Nat) : (s.setNow n).reg k = s.reg k :=
  (State.setNow_keeps n (List.Subset.refl _) (.refl s)).reg (by decide) k

theorem State.respond_reg (s : State) (o : CmxOut) (a : Nat × Resp) (k : Nat) : (s.respond o a).reg k = s.reg k :=
  (State.respond_keeps o a (List.Subset.refl _) (.refl s)).reg (by decide) k

/-- A die that has started up, in which a locked sequence of PWC on the registers has ended on the present cycle: it holds the other
masters for the rest of that cycle (R422). -/
def lockJustEnded : State :=
  let s := State.reset.put R.HLM_BOOT_STAT_STEP 13
  ({ s with masked := [], boot := { s.boot with stage := 90 }, cmx := { s.cmx with locks := [(3, masterIdx .pwc, 0x40000000)] } } : State).endLocks (fun _ => true) (masterIdx .pwc)

/-- The control address of TIM.SET_HI on die 0. -/
def timSetHiAddr : W32 := BitVec.ofNat 32 (0x1FC00000 + R.TIM_SET_HI % 2 ^ 22)

/-- SEC's write of TIM.SET_HI on that cycle is put off to the next one: the register keeps its value. -/
theorem pairHiWrite_lockJustEnded : (ran lockJustEnded (exec (.pairHiWrite .sec timSetHiAddr 1) lockJustEnded)).reg R.TIM_SET_HI = 0 := by
  decide

/-- Refutes O59: its clause for the upper half of TIM.SET asks that no locked sequence is open, not that none has ended on the present
cycle. A lock of PWC that ends on the cycle of SEC's write still shuts the registers (`State.rgsShut`), so the write waits for the next
cycle, where the clause has the pair loaded at once. -/
theorem not_controlAccessesReachTheirRegisters : ¬ Obligations.ControlAccessesReachTheirRegisters := by
  intro h
  obtain ⟨-, -, -, -, -, -, -, -, -, -, -, -, -, hset, -⟩ := h
  have hnow := hset .sec timSetHiAddr 1 (some { key := R.TIM_SET_HI, station := none }) R.TIM_SET_HI none lockJustEnded _
    (by decide) (by decide) (by decide) (by decide) (by decide) (by decide) rfl rfl rfl rfl (by decide) rfl
  have hwait := pairHiWrite_lockJustEnded
  rw [hnow, ran, State.respond_reg, State.setNow_reg, State.reg_setReg_same] at hwait
  exact absurd hwait (by decide)

end Sys2Proof.Machine
end

section
/-! SUPPORT. A register write that is a row of its own, as its master and the locks of the registers let it through (R12, R422), and the
control address of a die register (R51). -/
namespace Sys2Proof.Machine

/-- No locked sequence holds the registers: the write runs now. -/
theorem State.row_of_open {s : State} {m : Master} (h : s.rgsShut (masterIdx m) = false) (i : Instr) (f : State → State) : s.row m i f = f s := by
  unfold State.row
  rw [h]
  rfl

@[simp] theorem State.gate_true (s : State) (m : Master) (k : Nat) (f : State → State) : s.gate true m k f = f s := rfl

@[simp] theorem State.gate_false (s : State) (m : Master) (k : Nat) (f : State → State) : s.gate false m k f = s.locked (masterReq m) (s.ca k) := rfl

/-- The control address of a register of a die block (R51). -/
theorem State.ca_dieReg (s : State) {blk off : Nat} (hb : blk < 64) (ho : off < 65536) : s.ca (dieReg blk off) = s.die * 2 ^ 29 + (0x1FC00000 + blk * 65536 + off) := by
  have hkey : 128 ≤ dieReg blk off / 2 ^ 22 := by unfold dieReg cabReg; omega
  rw [State.ca, if_pos hkey, Nat.add_assoc]
  unfold dieReg cabReg
  omega

/-- The record of a locked write of a die register names no cabinet. -/
theorem State.locked_dieReg (s : State) (req : Nat) {blk off : Nat} (hb : blk < 32) (ho : off < 65536) :
    s.locked req (s.ca (dieReg blk off)) = s.err { kind := 0x41, req := req, cab := none, addr := s.die * 2 ^ 29 + (0x1FC00000 + blk * 65536 + off) } := by
  have hcab : ¬ 0x20 ≤ (s.die * 2 ^ 29 + (0x1FC00000 + blk * 65536 + off)) / 2 ^ 16 % 64 := by omega
  rw [s.ca_dieReg (by omega) ho, State.locked, if_neg hcab]

end Sys2Proof.Machine
end

section
/-! PROOFS. The cabinet map takes writes from SEC only (R35). -/
namespace Sys2Proof.Machine

theorem exec_cmapCtlWrite (m : Master) (v : W32) (s : State) :
    exec (.cmapCtlWrite m v) s = .next (s.row m (.cmapCtlWrite m v) (fun s => s.gate (m == .sec) m R.IDV_CMAP_CTL (fun s => s.cmapCtl v))) := rfl

theorem exec_cmapEntryWrite (m : Master) (g : Fin 2) (n : Fin 128) (v : W32) (s : State) :
    exec (.cmapEntryWrite m g n v) s = .next (s.row m (.cmapEntryWrite m g n v) (fun s =>
      s.gate (m == .sec && s.genFree g) m (mapReg g n) (fun s => (s.setMap g n (v.toNat % 128) (vbit v 15)).mapMoved))) := rfl

/-- Where a map entry stands (R43). -/
theorem mapReg_eq (g n : Nat) : mapReg g n = dieReg 0 ((if g = 0 then 0x100 else 0x300) + 4 * n) := by
  unfold mapReg
  split <;> rfl

/-- Settles O8: the gate of both writes lets SEC alone through, and the record carries the address of the register. -/
theorem mapWritesOfOtherMastersAreLogged : Obligations.MapWritesOfOtherMastersAreLogged := by
  intro m g n v s hm
  have hsec : (m == .sec) = false := by simp [hm]
  constructor
  · have haddr : s.locked (masterReq m) (s.ca R.IDV_CMAP_CTL) = _ := s.locked_dieReg (masterReq m) (by decide : 0 < 32) (by decide : 72 < 65536)
    rw [exec_cmapCtlWrite, State.row, hsec, State.gate_false, haddr]
    rfl
  · have hoff : (if (g : Nat) = 0 then 0x100 else 0x300) + 4 * n.val < 65536 := by split <;> omega
    have haddr := s.locked_dieReg (masterReq m) (by decide : 0 < 32) hoff
    rw [exec_cmapEntryWrite, State.row, hsec, Bool.false_and, State.gate_false, mapReg_eq, haddr, State.err]
    simp only [Fin.val_eq_zero_iff, Nat.add_assoc, Nat.zero_mul, Nat.zero_add]

end Sys2Proof.Machine
end

section
/-! PROOFS. Routes on a die without fences (R45, R249): first along the row, then along the column. -/
namespace Sys2Proof.Machine

/-- The output toward `q` where nothing is in the way: E or W until the column is reached, then N or S. -/
def straightDir (p q : Nat) : Nat :=
  if p % 16 ≠ q % 16 then (if p % 16 < q % 16 then 1 else 3) else if q / 16 < p / 16 then 0 else 2

/-- The hop distance of two cabinets by their columns and rows. -/
theorem hopDist_of_coords {c1 c2 : Nat} (r1 r2 : Nat) (h1 : c1 < 16) (h2 : c2 < 16) :
    hopDist (16 * r1 + c1) (16 * r2 + c2) = (max c1 c2 - min c1 c2) + (max r1 r2 - min r1 r2) := by
  have hcol (r c : Nat) (h : c < 16) : (16 * r + c) % 16 = c := by omega
  have hrow (r c : Nat) (h : c < 16) : (16 * r + c) / 16 = r := by omega
  rw [hopDist, hcol r1 c1 h1, hcol r2 c2 h2, hrow r1 c1 h1, hrow r2 c2 h2]

@[simp] theorem hopDist_self (p : Nat) : hopDist p p = 0 := by simp [hopDist]

/-- The straight output leads to a cabinet of the grid that is one hop closer. -/
theorem hop_straightDir {p q : Nat} (hp : p < 128) (hq : q < 128) (h : p ≠ q) :
    ∃ n, hop p (straightDir p q) = some n ∧ n < 128 ∧ hopDist n q + 1 = hopDist p q := by
  unfold straightDir hopDist
  split_ifs with hcol heast hnorth
  · exact ⟨p + 1, if_pos (by omega), by omega, by omega⟩
  · exact ⟨p - 1, if_pos (by omega), by omega, by omega⟩
  · exact ⟨p - 16, if_pos (by omega), by omega, by omega⟩
  · exact ⟨p + 16, if_pos (by omega), by omega, by omega⟩

/-- A flit without a detour takes the straight output where the cabinet beyond it is clear. -/
theorem State.route_straight (s : State) {fen bad : Nat → Bool} {p q n : Nat} (hnext : hop p (straightDir p q) = some n) (hfen : fen n = false)
    (hbad : bad n = false) : s.route fen bad p q none = .take (straightDir p q) n none := by
  unfold straightDir at hnext ⊢
  simp only [State.route, hnext, hfen, hbad]
  rfl

theorem State.setHop_straight (s : State) (m : Nat) {p q n : Nat} (hnext : hop p (straightDir p q) = some n) (hfen : s.fenced n = false)
    (habs : s.absent n = false) : s.setHop m p q none = .take (straightDir p q) n none :=
  s.route_straight hnext (by simp [hfen]) (by simp [hfen, habs])

/-- Every hop on such a die is one closer, so the fuel left never matters. -/
theorem State.setHops_eq_hopDist (s : State) (m : Nat) {q : Nat} (hq : q < 128) (hclear : ∀ p, p < 128 → s.fenced p = false ∧ s.absent p = false)
    (fuel : Nat) {p : Nat} (hp : p < 128) : s.setHops m q fuel p none = hopDist p q := by
  induction fuel generalizing p with
  | zero => rfl
  | succ fuel ih =>
    by_cases h : p = q
    · subst h
      simp [State.setHops]
    · obtain ⟨n, hn, hlt, hdist⟩ := hop_straightDir hp hq h
      obtain ⟨hfen, habs⟩ := hclear n hlt
      rw [State.setHops, if_neg h, s.setHop_straight m hn hfen habs]
      exact (congrArg (· + 1) (ih hlt)).trans hdist

/-- Settles O9: the straight output leads one hop closer, and on such a die the router takes it. -/
theorem routesTakeTheHopDistance : Obligations.RoutesTakeTheHopDistance := by
  intro c1 r1 c2 r2 m s hc1 hr1 hc2 hr2 hclear
  have hp : 16 * r1 + c1 < 128 := by omega
  have hq : 16 * r2 + c2 < 128 := by omega
  refine ⟨hopDist_of_coords r1 r2 hc1 hc2, fun h => ?_, s.setHops_eq_hopDist m hq hclear 128 hp⟩
  obtain ⟨n, hn, hlt, hdist⟩ := hop_straightDir hp hq h
  obtain ⟨hfen, habs⟩ := hclear n hlt
  exact ⟨_, n, s.setHop_straight m hn hfen habs, hlt, hdist⟩

end Sys2Proof.Machine
end

section
/-! SUPPORT. What IDV.CMAP_CTL reads as after the operations on the map (R36, R37, R41): the counts of the two generations and CUR are
fields apart, and the presence of a port stands in another register. -/
namespace Sys2Proof.Machine

variable {s t : State} {k : Nat}

theorem State.reg_err (s : State) (e : ErrRec) (k : Nat) : (s.err e).reg k = s.reg k := rfl

theorem State.reg_event (s : State) (core typ detail k : Nat) : (s.event core typ detail).reg k = s.reg k :=
  (State.event_keeps core typ detail (List.Subset.refl _) (.refl s)).reg (by decide) k

theorem State.reg_outLow (s : State) (i k : Nat) : (s.outLow i).reg k = s.reg k := rfl

/-! Fields of CMAP_CTL -/

theorem State.genLog_eq (s : State) (g : Nat) : s.genLog g = s.f (logFld g) := by
  unfold State.genLog logFld
  split <;> rfl

theorem logFld_key (g : Nat) : (logFld g).key = R.IDV_CMAP_CTL := by
  unfold logFld
  split <;> rfl

/-- A count is eight bits above CUR. -/
theorem logFld_bits (g : Nat) : (logFld g).width = 8 ∧ 0 < (logFld g).lo ∧ (logFld g).lo ≤ (logFld g).hi ∧ (logFld g).hi < 32 := by
  unfold logFld
  split <;> decide

/-- The count of a generation is read from CMAP_CTL alone. -/
theorem State.genLog_congr (h : t.reg R.IDV_CMAP_CTL = s.reg R.IDV_CMAP_CTL) (g : Nat) : t.genLog g = s.genLog g := by
  rw [State.genLog_eq, State.genLog_eq, State.f, State.f, logFld_key, h]

/-- A count that was written reads as the number. -/
theorem State.genLog_put_logFld (s : State) (g : Nat) {n : Nat} (hn : n < 256) : (s.put (logFld g) n).genLog g = n := by
  obtain ⟨hw, -, hle, h32⟩ := logFld_bits g
  rw [State.genLog_eq, State.f_put_same _ _ _ hle h32, hw]
  exact Nat.mod_eq_of_lt hn

/-- A write of CUR leaves the counts. -/
theorem State.genLog_setCur (s : State) (g' g : Nat) : (s.setCur g').genLog g = s.genLog g := by
  obtain ⟨-, hlo, hle, h32⟩ := logFld_bits g
  unfold State.setCur
  split_ifs
  · rfl
  · rw [State.genLog_eq, State.genLog_eq, State.f_put_apart _ _ _ _ (by decide) (by decide) hle (.inl hlo)]
  · exact State.genLog_congr (State.reg_err _ _ _) g

/-! Registers that the map operations leave -/

/-- An operation that writes a field changes no other register than the field's. -/
theorem State.sameRegs_put (s : State) (f : Fld) (n : Nat) : s.sameRegs [f.key] (s.put f n) :=
  fun _ hk => State.reg_put_other _ _ _ (List.ne_of_not_mem_cons hk)

theorem State.reg_foldl {α : Type} {f : State → α → State} (l : List α) (s : State) (h : ∀ u a, (f u a).reg k = u.reg k) : (l.foldl f s).reg k = s.reg k := by
  induction l generalizing s with
  | nil => rfl
  | cons a l ih => exact (ih (f s a)).trans (h s a)

theorem npOut_key (cab port : Nat) : (npOut cab port).key = R.CAB_PORT_STAT cab := by
  unfold npOut
  split <;> rfl

theorem State.reg_forgetPort (s : State) (cab port : Nat) {f : Fld} (h : k ≠ f.key) : (s.forgetPort cab port f).reg k = s.reg k :=
  State.reg_put_other _ f 0 h

/-- The presence of a port is shown, and its narrow requests are counted, in CAB.PORT_STAT alone (R143). -/
theorem State.reg_takePresent (hk : ∀ c : Cab, k ≠ R.CAB_PORT_STAT c) (s : State) (p : PresPort) : (s.takePresent p).reg k = s.reg k := by
  have hlow (u : State) : (u.portLow p).reg k = u.reg k := by
    cases p with
    | np0 c =>
      have hkey : k ≠ (npOut c 0).key := by rw [npOut_key]; exact hk c
      exact (State.reg_outLow _ _ _).trans (u.reg_forgetPort c 0 hkey)
    | np1 c =>
      have hkey : k ≠ (npOut c 1).key := by rw [npOut_key]; exact hk c
      exact (State.reg_outLow _ _ _).trans (u.reg_forgetPort c 1 hkey)
    | wrp c | wwp c | hfp c | seq c | hdp | hrp => rfl
  have hhigh (u : State) : (u.portHigh p).reg k = u.reg k := by
    cases p <;> rfl
  have hshow (l : Bool) : (match presFld p with | some f => s.putb f l | none => s).reg k = s.reg k := by
    cases p with
    | hdp | hrp => rfl
    | wrp c | wwp c | np0 c | np1 c | hfp c | seq c => exact State.reg_put_other _ _ _ (hk c)
  unfold State.takePresent
  dsimp only
  split_ifs
  · exact hshow _
  · exact (hhigh _).trans (hshow _)
  · exact (hlow _).trans (hshow _)
  · exact hshow _

theorem State.reg_mapMoved (hk : ∀ c : Cab, k ≠ R.CAB_PORT_STAT c) (s : State) : s.mapMoved.reg k = s.reg k :=
  State.reg_foldl _ s fun u p => State.reg_takePresent hk u p

/-- A register of a cabinet is none of the die. -/
theorem dieReg_ne_cabPortStat (blk off : Nat) (c : Cab) : dieReg blk off ≠ R.CAB_PORT_STAT c := by
  unfold R.CAB_PORT_STAT dieReg cabReg
  omega

end Sys2Proof.Machine
end

section
/-! PROOFS. The writes of the cabinet map and of the detours by SEC, and the rebuild of the map (R35 to R38, R250). -/
namespace Sys2Proof.Machine

theorem exec_detWrite (m : Master) (n : Cab) (v : W32) (s : State) :
    exec (.detWrite m n v) s = .next (s.row m (.detWrite m n v) (fun s =>
      s.gate (m == .sec && !s.fenced n) m (R.IDV_DET n) (fun s => s.setReg (R.IDV_DET n) (v &&& 3)))) := rfl

theorem exec_mapRebuild (s : State) : exec .mapRebuild s = execMapRebuild s := rfl

/-- A generation other than the current one becomes current when its checks hold (R37). -/
theorem State.setCur_of_mapCheck {s : State} {g : Nat} (hcur : g ≠ s.cur) (hchk : s.mapCheck g = true) : s.setCur g = s.put R.IDV_CMAP_CTL_CUR g := by
  rw [State.setCur, if_neg hcur, if_pos hchk]

theorem State.cur_put_cur (s : State) {g : Nat} (hg : g < 2) : (s.put R.IDV_CMAP_CTL_CUR g).cur = g := by
  rw [State.cur, State.f_put_same _ _ _ (by decide) (by decide)]
  exact Nat.mod_eq_of_lt hg

/-- A write of the count of a free generation leaves it with that count, written or not (R36). -/
theorem State.setCount_of_genFree {s : State} {g n : Nat} (hn : n < 256) (hfree : s.genFree g = true) :
    (s.setCount g n).genLog g = n ∧ s.sameRegs [R.IDV_CMAP_CTL] (s.setCount g n) := by
  unfold State.setCount
  split_ifs with hsame
  · exact ⟨hsame.symm, fun _ _ => rfl⟩
  · rw [← logFld_key g]
    exact ⟨s.genLog_put_logFld g hn, s.sameRegs_put _ _⟩

/-- No window is KEPT with a generation that no window keeps (R403). -/
theorem State.find_kept_eq_none {s : State} {g : Nat} (h : s.genKept g = false) :
    (List.range 64).find? (fun w => decide (s.f (R.WIN_STATE_STATE w) = 4) && decide (s.f (R.WIN_STATE_KGEN w) = g)) = none := by
  refine List.find?_eq_none.mpr fun w hw hkept => ?_
  obtain ⟨hst, hgen⟩ : s.f (R.WIN_STATE_STATE w) = 4 ∧ s.f (R.WIN_STATE_KGEN w) = g := by simpa using hkept
  have hw' := List.any_eq_false.mp h w hw
  simp [hst, hgen] at hw'

/-- The rebuild counts the cabinets it keeps: what follows the write of the count leaves it (R38). -/
theorem State.genLog_rebuildMap (s : State) (g : Nat) : (s.rebuildMap g).genLog g = ((List.range 128).filterMap (fun n => s.mapped s.cur n)).length := by
  have hlen : ((List.range 128).filterMap (fun n => s.mapped s.cur n)).length < 256 :=
    (List.length_filterMap_le _ _).trans_lt (by simp)
  unfold State.rebuildMap
  dsimp only
  rw [State.genLog_congr (State.reg_event _ _ _ _ _), State.genLog_congr (State.reg_mapMoved (dieReg_ne_cabPortStat 0 72) _), State.genLog_setCur,
    State.genLog_put_logFld _ _ hlen]

/-- Settles O43, clause by clause: what SEC's writes do, then the rebuild. -/
theorem theCabinetMapIsWrittenAndRebuilt : Obligations.TheCabinetMapIsWrittenAndRebuilt := by
  refine ⟨?ctl, ?cur, ?count, ?entry, ?used, ?det, ?rebuild, fun g s _ _ => s.genLog_rebuildMap g⟩
  case ctl =>
    intro v s hopen
    rw [exec_cmapCtlWrite, State.row_of_open hopen]
    rfl
  case cur =>
    intro g s hg hcur hchk
    rw [State.setCur_of_mapCheck hcur hchk]
    exact ⟨s.cur_put_cur hg, s.sameRegs_put R.IDV_CMAP_CTL_CUR g⟩
  case count => exact fun g n s _ hn hfree => State.setCount_of_genFree hn hfree
  case entry =>
    intro g n v s hfree hopen
    rw [exec_cmapEntryWrite, State.row_of_open hopen, hfree]
    rfl
  case used =>
    intro g n v s hused hopen
    rw [exec_cmapEntryWrite, State.row_of_open hopen, hused]
    rfl
  case det =>
    intro n v s hfen hopen
    rw [exec_detWrite, State.row_of_open hopen, hfen]
    rfl
  case rebuild =>
    intro u s hask hmask hcore hopen hlock hu hused hkept hlost
    subst hu
    rw [exec_mapRebuild, execMapRebuild]
    simp only [hask, hmask, hcore, hopen, hlock, hused, hkept, hlost, State.find_kept_eq_none hkept, Bool.not_true, Bool.or_self, Bool.false_eq_true,
      reduceIte]

end Sys2Proof.Machine
end

section
/-! PROOFS. Range entries and the scoreboard mode (R92, R96, R98, R102). -/
namespace Sys2Proof.Machine

theorem exec_sbcOpenWrite (cab : Cab) (entry : Fin 32) (base limit : BitVec 17) (count : BitVec 18) (s : State) :
    exec (.sbcOpenWrite cab entry base limit count) s = .next (s.sbcOpen cab entry base.toNat limit.toNat count.toNat 0) := rfl

theorem exec_sbcOpenRead (cab : Cab) (entry : Fin 32) (base limit : BitVec 17) (count : BitVec 18) (s : State) :
    exec (.sbcOpenRead cab entry base limit count) s = .next (s.sbcOpen cab entry base.toNat limit.toNat count.toNat 1) := rfl

theorem exec_sbcClose (cab : Cab) (entry : Fin 32) (s : State) : exec (.sbcClose cab entry) s = execSbcClose cab entry s := rfl

theorem exec_rangeHoldEnd (cab : Cab) (entry : Fin 32) (s : State) : exec (.rangeHoldEnd cab entry) s = execRangeHoldEnd cab entry s := rfl

theorem exec_sbdModeWrite (m : Master) (cab : Cab) (v : W32) (s : State) : exec (.sbdModeWrite m cab v) s = execSbdModeWrite m cab v s := rfl

/-- An open command that none of the refusals of R96 turns away writes the entry, notes who opened it and from which fc it holds, and counts it. -/
theorem State.sbcOpen_of_closed {s : State} {cab n base limit count : Nat} (kind : Nat) (hport : s.bit (R.CAB_PORT_STAT_P_SEQ cab) = true)
    (hfrz : s.frozen = false) (hdisc : s.discards (s.eag cab) = false) (hopen : s.bit (R.SBD_ENT_A_OPEN cab n) = false)
    (hrange : ¬(count = 0 ∨ 131072 < count ∨ limit < base)) (hrep : s.replaying (s.eag cab) = false) :
    s.sbcOpen cab n base limit count kind = ({ s.puts [(R.SBD_ENT_A_BASE cab n, base), (R.SBD_ENT_A_KIND cab n, kind),
        (R.SBD_ENT_A_OPEN cab n, 1), (R.SBD_ENT_B_LIMIT cab n, limit), (R.SBD_ENT_C_COUNT cab n, count)] with
        set := { s.set with opener := SMap.insert s.set.opener (cab * 32 + n) (((s.eag cab).map (fun c => c + 1)).getD 0, s.time.stime + 1) } } : State).sbdCount cab := by
  simp only [State.sbcOpen, hport, hfrz, hdisc, hopen, hrange, hrep, State.puts_set, State.puts_time, Bool.true_eq_false, Bool.false_eq_true,
    reduceIte]

/-- An entry that is emptied: its three registers are cleared, and no end of a hold of it is to come. -/
theorem State.sbdEmpty_eq (s : State) (cab n : Nat) :
    s.sbdEmpty cab n = { ((s.setReg (R.SBD_ENT_A cab n) 0).setReg (R.SBD_ENT_B cab n) 0).setReg (R.SBD_ENT_C cab n) 0 with
      set := { s.set with ending := s.set.ending.filter (fun e => !(decide (e.1 = cab) && decide (e.2.1 = n))) } } := by
  unfold State.sbdEmpty
  dsimp only
  rw [State.setReg_set, State.setReg_set, State.setReg_set]

/-- A mode write where the scoreboard may have two modes (R102) takes the sentinel bit, and MODE where no entry is open. -/
theorem exec_sbdModeWrite_of_go {s : State} {m : Master} {cab : Cab} (v : W32) (hsynth : s.synth cab = true) (hgo : s.stationOf cab = .go)
    (hnum : s.f R.IDV_CONF_NUM_CAB ≤ 32) (hfree : s.rgsShut (masterIdx m) = false) :
    exec (.sbdModeWrite m cab v) s = .next (let t := s.put (R.SBD_MODE_SENTINEL_EN cab) (v.toNat / 4 % 2)
      if (s.sbdOpen cab).isEmpty then t.put (R.SBD_MODE_MODE cab) (v.toNat % 2) else t) := by
  have hfew : ¬ 32 < s.f R.IDV_CONF_NUM_CAB := by omega
  rw [exec_sbdModeWrite, execSbdModeWrite, State.row_of_open hfree, State.atStation, hgo]
  simp only [hsynth, hfew, Bool.true_eq_false, reduceIte]

/-- Settles O11, clause by clause: the two opens by one lemma over the kind, the two mode writes by one over the open entries. -/
theorem rangeEntriesOpenCloseAndEmpty : Obligations.RangeEntriesOpenCloseAndEmpty := by
  refine ⟨?openWrite, ?openRead, ?close, ?holdEnd, ?mode, ?modeKept⟩
  case openWrite =>
    intro cab entry base limit count s hport hfrz hdisc hopen hpos hmax hle hrep
    rw [exec_sbcOpenWrite, State.sbcOpen_of_closed 0 hport hfrz hdisc hopen (by omega) hrep]
  case openRead =>
    intro cab entry base limit count s hport hfrz hdisc hopen hpos hmax hle hrep
    rw [exec_sbcOpenRead, State.sbcOpen_of_closed 1 hport hfrz hdisc hopen (by omega) hrep]
  case close =>
    intro cab entry s hport hfrz hdisc
    simp only [exec_sbcClose, execSbcClose, hport, hfrz, hdisc, State.sbdEmpty_eq, Bool.true_eq_false, Bool.false_eq_true, reduceIte]
  case holdEnd =>
    intro cab entry n s hfrz hend hdue
    have hover : s.set.ending.any (fun e => decide (e.1 = cab.val) && decide (e.2.1 = entry.val) && decide (e.2.2 ≤ s.time.stime)) = true :=
      List.any_eq_true.mpr ⟨_, hend, by simpa using hdue⟩
    simp only [exec_rangeHoldEnd, execRangeHoldEnd, hfrz, hover, State.sbdEmpty_eq, Bool.false_eq_true, reduceIte]
  case mode =>
    intro m cab v s hsynth hgo hnum hnone hfree
    rw [exec_sbdModeWrite_of_go v hsynth hgo hnum hfree, hnone]
    rfl
  case modeKept =>
    intro m cab v s hsynth hgo hnum hsome hfree
    have hne : (s.sbdOpen cab).isEmpty = false := by simpa using hsome
    rw [exec_sbdModeWrite_of_go v hsynth hgo hnum hfree, hne]
    rfl

end Sys2Proof.Machine
end

section
/-! PROOFS. Steps and their replay (R83 to R87). -/
namespace Sys2Proof.Machine

theorem exec_stepMark (ctx : Ctx) (rpl : Bool) (s : State) : exec (.stepMark ctx rpl) s = execStepMark ctx rpl s := rfl

theorem exec_stepRelease (ctx : Ctx) (s : State) : exec (.stepRelease ctx) s = execStepRelease ctx s := rfl

theorem exec_replayNotice (lane : Fin 8) (ctx : Ctx) (attempt : Fin 4) (r : Nat) (s : State) :
    exec (.replayNotice lane ctx attempt r) s = execReplayNotice lane ctx attempt r s := rfl

theorem exec_replayRestart (ctx : Ctx) (s : State) : exec (.replayRestart ctx) s = execReplayRestart ctx s := rfl

/-! Opening a step -/

theorem State.openStep_stp (s : State) (c : Nat) :
    (s.openStep c).stp = { s.stp with steps := s.stp.steps ++ [{ ctx := c, openAt := s.time.stime, closeAt := none }] } := rfl

theorem State.f_openStep_state (s : State) (c : Nat) : (s.openStep c).f (R.LCT_STEP_STATE c) = if s.faulted c then 3 else 1 := by
  unfold State.openStep
  rw [State.f_put_same _ _ _ (by decide : 0 ≤ 1) (by decide : 1 < 32)]
  split <;> rfl

theorem State.sameRegs_openStep (s : State) (c : Nat) : s.sameRegs [R.LCT_STEP c] (s.openStep c) :=
  State.sameRegs_put _ (R.LCT_STEP_STATE c) _

/-! The re-opened step of a replay -/

/-- The state at the restart fc once the replay of a context is over and the steps of the abandoned attempt are gone. -/
def State.abandoned (s : State) (c : Nat) : State :=
  let s := s.leaveReplay c
  { s.endReplay c with stp := { (s.endReplay c).stp with steps := s.stp.steps.filter (fun t => decide (t.ctx ≠ c)) } }

/-- That state with the step of the next attempt open and the lists of the context marked to be dispatched again. -/
def State.reopened (s : State) (c a : Nat) : State :=
  let t := ((s.abandoned c).openStep c).puts [(R.LCT_STEP_ATTEMPT c, a + 1), (R.LCT_STEP_UNRELEASED c, 0)]
  let again (e : StepList) : StepList := if e.ctx = c then { e with again := !t.fenced e.cab, openAt := t.time.stime } else e
  { t with stp := { t.stp with lists := t.stp.lists.map again } }

theorem exec_stepMark_restart {s : State} {ctx : Ctx} {a : Nat} (hdisc : s.discards (some ctx.val) = false) (hfrz : s.frozen = false)
    (hframe : s.time.stime % 64 = 0) (hwait : s.stp.restart.find? (fun r => decide (r.1 = ctx.val)) = some (ctx.val, s.time.stime, a)) :
    exec (.stepMark ctx true) s = .next ((s.reopened ctx a).redispatch ctx) := by
  simp only [exec_stepMark, execStepMark, hdisc, hfrz, hframe, hwait, Bool.false_eq_true, ne_eq, not_true_eq_false, and_self, reduceIte]
  rfl

/-- A fold over an operation that leaves a part of the state alone leaves it alone. -/
theorem State.foldl_keeps_part {α β : Type} (part : State → β) {f : State → α → State} (l : List α) (s : State) (h : ∀ u a, part (f u a) = part u) :
    part (l.foldl f s) = part s := by
  induction l generalizing s with
  | nil => rfl
  | cons a l ih => exact (ih (f s a)).trans (h s a)

theorem State.kickCab_stp (s : State) (cab : Nat) : (s.kickCab cab).stp = s.stp :=
  (State.kickCab_keeps cab (List.Subset.refl _) (.refl s)).frame .stp (by decide)

/-- Lists are dispatched again into the queues of their runners: the steps stay. -/
theorem State.redispatch_steps (s : State) (c : Nat) : (s.redispatch c).stp.steps = s.stp.steps := by
  unfold State.redispatch
  dsimp only
  rw [apply_ite (fun u : State => u.stp.steps)]
  dsimp only [State.later, State.at']
  rw [ite_self]
  refine State.foldl_keeps_part (fun u => u.stp.steps) _ s fun u e => ?_
  split
  · rfl
  · rw [State.kickCab_stp]
    rfl

theorem State.redispatch_f (s : State) (c : Nat) (x : Fld) : (s.redispatch c).f x = s.f x :=
  congrArg x.of ((State.redispatch_keeps c (List.Subset.refl _) (.refl s)).reg (by decide) x.key)

theorem State.leaveReplay_part (s : State) (c : Nat) (p : Part) (hp : p ∉ [Part.regs, Part.set]) : p.same s (s.leaveReplay c) :=
  (State.leaveReplay_keeps c (List.Subset.refl _) (.refl s)).frame p hp

theorem State.abandoned_time (s : State) (c : Nat) : (s.abandoned c).time = s.time := s.leaveReplay_part c .time (by decide)

theorem State.abandoned_steps (s : State) (c : Nat) : (s.abandoned c).stp.steps = s.stp.steps.filter (fun x => decide (x.ctx ≠ c)) := by
  have hstp : (s.leaveReplay c).stp = s.stp := s.leaveReplay_part c .stp (by decide)
  rw [State.abandoned, hstp]

theorem State.abandoned_faulted (s : State) (c c' : Nat) : (s.abandoned c).faulted c' = s.faulted c' := by
  have hstp : (s.leaveReplay c).stp = s.stp := s.leaveReplay_part c .stp (by decide)
  simp only [State.faulted, State.abandoned, State.endReplay, hstp]

theorem State.reopened_steps (s : State) (c a : Nat) :
    (s.reopened c a).stp.steps = s.stp.steps.filter (fun x => decide (x.ctx ≠ c)) ++ [{ ctx := c, openAt := s.time.stime, closeAt := none }] := by
  simp only [State.reopened, State.puts_stp, State.openStep_stp, State.abandoned_steps, State.abandoned_time]

theorem State.f_reopened (s : State) (c a : Nat) (x : Fld) :
    (s.reopened c a).f x = ((((s.abandoned c).openStep c).put (R.LCT_STEP_ATTEMPT c) (a + 1)).put (R.LCT_STEP_UNRELEASED c) 0).f x := rfl

/-- The three fields that the mark of a replay writes are apart (R91). -/
theorem State.reopened_fields (s : State) (c : Nat) {a : Nat} (ha : a < 3) :
    (s.reopened c a).f (R.LCT_STEP_ATTEMPT c) = a + 1 ∧ (s.reopened c a).f (R.LCT_STEP_STATE c) = (if s.faulted c then 3 else 1) ∧
      (s.reopened c a).f (R.LCT_STEP_UNRELEASED c) = 0 := by
  have hunrel (u : State) {x : Fld} (hx : x.lo ≤ x.hi) (h4 : x.hi < 4) : (u.put (R.LCT_STEP_UNRELEASED c) 0).f x = u.f x :=
    u.f_put_apart _ _ _ (by decide : 4 ≤ 4) (by decide : 4 < 32) hx (.inr h4)
  refine ⟨?attempt, ?state, ?unreleased⟩
  case attempt =>
    rw [State.f_reopened, hunrel _ (by decide : 2 ≤ 3) (by decide : 3 < 4), State.f_put_same _ _ _ (by decide : 2 ≤ 3) (by decide : 3 < 32)]
    exact Nat.mod_eq_of_lt (show a + 1 < 4 by omega)
  case state =>
    rw [State.f_reopened, hunrel _ (by decide : 0 ≤ 1) (by decide : 1 < 4),
      State.f_put_apart _ _ _ _ (by decide : 2 ≤ 3) (by decide : 3 < 32) (by decide : 0 ≤ 1) (.inr (by decide : 1 < 2)), State.f_openStep_state,
      State.abandoned_faulted]
  case unreleased =>
    rw [State.f_reopened, State.f_put_same _ _ _ (by decide : 4 ≤ 4) (by decide : 4 < 32), Nat.zero_mod]

/-! STEP_REPLAY -/

/-- STEP_REPLAY rises: of the steps and their pins only the entry of the context in the pin's list changes. -/
theorem State.replayRise_stp (s : State) (c : Nat) :
    (s.replayRise c).stp = { s.stp with replayPin := s.stp.replayPin.map (fun p => if p.1 = c then (c, 0) else p) } := by
  have hrest {u t : State} (h : Keeps [.agenda, .regs, .freeCtr, .set, .syn, .runners] u t) : t.stp = u.stp := h.frame .stp (by decide)
  unfold State.replayRise
  refine hrest (u := { s with stp := { s.stp with replayPin := s.stp.replayPin.map (fun p => if p.1 = c then (c, 0) else p) } }) ?_
  refine State.replayFlush_keeps _ (by decide) (Keeps.foldl ?_ fun u p hu => State.clearSlips_keeps _ (by decide) (State.sbdClear_keeps _ (by decide) hu))
  exact State.dropHeld_keeps _ (by decide) (State.abortQueued_keeps _ (by decide) (State.abortLists_keeps _ _ _ (by decide) (.refl _)))

theorem State.replayRise_time (s : State) (c : Nat) : (s.replayRise c).time = s.time :=
  (State.replayRise_keeps c (List.Subset.refl _) (.refl s)).frame .time (by decide)

/-- A notice heard for the first time, of the attempt that is open here, starts the replay (R85, R86): hearing it and passing it on changes
neither steps, pins nor registers. -/
theorem exec_replayNotice_first {s : State} {lane : Fin 8} {ctx : Ctx} {attempt : Fin 4} {r : Nat} (hnew : s.stp.heard.contains (ctx.val, attempt.val, r) = false)
    (hwait : s.stp.restart.find? (fun x => decide (x.1 = ctx.val)) = none) (hgood : s.faulted ctx = false) (hlive : s.stepLive ctx = true)
    (hopen : s.f (R.LCT_STEP_ATTEMPT ctx) = attempt) (hmax : attempt.val ≠ 3) (hmask : s.masked.contains 2 = false) (hfrz : s.frozen = false) :
    exec (.replayNotice lane ctx attempt r) s =
      .next ((((s.hear ctx attempt r).send (.replay ctx attempt r) none (some lane)).startReplay ctx 4 attempt r).replayRise ctx) := by
  rw [exec_replayNotice, execReplayNotice, hnew]
  generalize hu : (s.hear ctx attempt r).send (.replay ctx attempt r) none (some lane) = u
  have hwait' : u.stp.restart.find? (fun x => decide (x.1 = ctx.val)) = none := hu ▸ hwait
  have hgood' : u.faulted ctx = false := hu ▸ hgood
  have hlive' : u.stepLive ctx = true := hu ▸ hlive
  have hopen' : u.f (R.LCT_STEP_ATTEMPT ctx) = attempt := hu ▸ hopen
  have hmask' : u.masked.contains 2 = false := hu ▸ hmask
  have hfrz' : u.frozen = false := hu ▸ hfrz
  simp only [hwait', hgood', hlive', hopen', hmax, hmask', hfrz', Bool.false_eq_true, Bool.not_true, Bool.or_self, ne_eq, not_true_eq_false,
    decide_false, reduceIte]

/-- Settles O26, clause by clause. -/
theorem stepsOpenCloseAndReplay : Obligations.StepsOpenCloseAndReplay := by
  refine ⟨?mark, ?opened, ?markRestart, ?release, ?notice, ?falls, ?rises⟩
  case mark =>
    intro ctx s hdisc hfrz hframe hwait
    simp only [exec_stepMark, execStepMark, hdisc, hfrz, hframe, hwait, Bool.false_eq_true, ne_eq, not_true_eq_false, reduceIte]
  case opened =>
    intro c s
    exact ⟨congrArg StepSt.steps (s.openStep_stp c), s.f_openStep_state c, s.sameRegs_openStep c⟩
  case markRestart =>
    intro ctx a s hdisc hfrz hframe hwait ha
    obtain ⟨hattempt, hstate, hunrel⟩ := s.reopened_fields ctx ha
    refine ⟨_, exec_stepMark_restart hdisc hfrz hframe hwait, ?_⟩
    rw [State.redispatch_f, State.redispatch_f, State.redispatch_f, State.redispatch_steps, State.reopened_steps]
    exact ⟨hattempt, hstate, hunrel, rfl⟩
  case release =>
    intro ctx t a s hdisc hfrz hwait hstep hclose hdue
    simp only [exec_stepRelease, execStepRelease, hdisc, hfrz, hwait, hstep, hclose, hdue, Bool.false_eq_true, reduceIte]
  case notice =>
    intro lane ctx attempt r s hnew hwait hgood hlive hattempt hmax hmask hfrz
    exact exec_replayNotice_first hnew hwait hgood hlive hattempt hmax hmask hfrz
  case falls =>
    intro ctx r a s hfrz hskew hpin hwait hnow hmask
    have hlate : ¬ s.time.stime + 1 < r := by omega
    have hle : s.time.stime ≤ r := by omega
    simp only [exec_replayRestart, execReplayRestart, hfrz, hskew, hpin, hwait, hlate, hle, hmask, Bool.false_eq_true, reduceIte]
  case rises =>
    intro ctx r a s hfrz hskew hpin hwait hearly
    simp only [exec_replayRestart, execReplayRestart, hfrz, hskew, hpin, State.replayRise_stp, State.replayRise_time, hwait, hearly, Bool.false_eq_true,
      reduceIte]

end Sys2Proof.Machine
end

section
/-! PROOFS. A release from a landing stage that holds a second flit of the same identifier, against the clause of the release. -/
namespace Sys2Proof.Machine

/-- A write of context 2 that reaches cabinet 0 with due fc 0. -/
def landedWrite : SFlit :=
  { id := 8, kind := .wr, ctx := some 2, fmask := 0, fa := 0, dat := [], zero := [], resp := .ok, due := 0, src := 0, srcDie := 0, from' := 0, dst := 0,
    dstDie := 0, cur := 0, enter := 0, hops := 0, det := none, issue := 8, lret := 0, rpl := false }

/-- A die on which context 2 may write cabinet 0, at schedule fc 5: the landing stage there keeps the write twice, once waiting for its due fc
and once held since fc 0, and its bank group is claimed for fc 0, later by the lag of 5 fc that the held copy gives the stage. -/
def landedTwice : State :=
  let s := State.reset.puts [(R.IDV_CONF_DIES, 1), (R.IDV_CMAP_CTL_G0_LOG, 1), (mapValid 0 0, 1), (R.CTX_STAT_STATE 2, 2), (R.WIN_PART_B_LIMIT 0, 131071),
    (R.WIN_PART_B_VALID 0, 1), (R.WIN_STATE_STATE 0, 1), (R.WIN_STATE_CTX 0, 2), (R.WIN_PART_C_PERM 0, 255), (cabState 0, 0)]
  { s with time := { s.time with stime := 5 }, set := { s.set with
      land := [{ cab := 0, f := landedWrite, hold := none, arrived := 0 }, { cab := 0, f := landedWrite, hold := some 0, arrived := 0 }]
      claims := [{ port := .land, cab := 0, grp := 0, at' := 0 }] } }

/-- Both copies leave the stage for the check, so the lag that the claim counts on is gone and the write is dropped as unclaimed. -/
theorem landingRelease_landedTwice : (ran landedTwice (exec (.landingRelease 0 8) landedTwice)).set.ops = [] := by
  decide

/-- Refutes O14: its clause for the release asks that the bank group is claimed in the state before, but `State.release` takes every flit of
that cabinet and identifier off the stage before it looks for the claim. With a held flit of the same identifier there, whose hold is the
lag of the stage (`State.landLag`), the claim is one for another fc by then, and the write takes no bank group. -/
theorem not_setFlitsMoveOnTheirSlots : ¬ Obligations.SetFlitsMoveOnTheirSlots := by
  intro h
  obtain ⟨-, -, -, -, -, hrelease⟩ := h
  obtain ⟨t, ht, hops⟩ := hrelease 0 8 { cab := 0, f := landedWrite, hold := none, arrived := 0 } landedTwice (by decide) (by decide) (by decide) rfl
    (by decide) (by decide) (by decide) (by decide) (by decide) (by decide) (by decide)
  have hnone := landingRelease_landedTwice
  rw [ht, ran, hops] at hnone
  exact absurd hnone (by decide)

end Sys2Proof.Machine
end

section
/-! PROOFS. A write of LCT.FRZ_CTL that takes the firmware freeze back on the fc on which it was asked for, against the clause of that register. -/
namespace Sys2Proof.Machine

/-- A die at reset in which PWC has set FW_FRZ on the present fc: the firmware freeze begins 3 fc later (R73). -/
def firmwareRoseNow : State := ran State.reset (exec (.frzCtlWrite .pwc 2) State.reset)

/-- PWC's write of 0 on the same fc leaves the line high: the freeze is to have at least one frozen fc, so its fall waits for the next fc (R73). -/
theorem frzCtlWrite_firmwareRoseNow : (ran firmwareRoseNow (exec (.frzCtlWrite .pwc 0) firmwareRoseNow)).frz.lines.contains .firmware = true := by
  decide

/-- Refutes O25: its clause for LCT.FRZ_CTL has the line of the firmware freeze high after a write exactly when the write leaves FW_FRZ or
SEC_FRZ set. A write of 0 on the fc of the write of FW_FRZ leaves the line high until the next fc (`State.frzFall`). -/
theorem not_freezesBeginAndEnd : ¬ Obligations.FreezesBeginAndEnd := by
  intro h
  obtain ⟨-, -, -, -, hctl, -⟩ := h
  obtain ⟨t, ht, -, -, -, hline, -⟩ := hctl .pwc 0 firmwareRoseNow (.inl rfl) (.inr (.inr (by decide))) (by decide)
  have hhigh := frzCtlWrite_firmwareRoseNow
  rw [ht, ran] at hhigh
  exact absurd (hline.mp hhigh) (by decide)

end Sys2Proof.Machine
end

section
/-! PROOFS. An fc that ends with an error of a kind beyond a byte, against the clause of a frozen die. -/
namespace Sys2Proof.Machine

/-- An operation whose frame holds time leaves every clock. -/
theorem Keeps.time {K : List Part} {s t : State} (h : Keeps K s t) (hk : Part.time ∉ K) : t.time = s.time := h.frame .time hk

theorem State.partUp_ufc (s : State) : s.partUp.time.ufc = s.time.ufc := rfl

/-- Frozen or not, what the end of an fc counts and sends before its clocks advance leaves them. -/
theorem State.countAndSend_time (s : State) (hold : Bool) : (if hold then s.countFrozen else s.countWaits).holdPops.sendSlots.time = s.time := by
  have hcount : Keeps [.regs, .frz, .outs, .syn, .brg, .tx] s (if hold then s.countFrozen else s.countWaits) :=
    .ite (State.countFrozen_keeps (by decide) (.refl s)) (State.countWaits_keeps (by decide) (.refl s))
  exact (State.sendSlots_keeps (by decide) (State.holdPops_keeps (by decide) hcount)).time (by decide)

/-- What the end of an fc does after its clocks have advanced leaves them, frozen or not. -/
theorem State.fcTail_time (s : State) (hold : Bool) : (if hold then s.countCut.dripsDue else s.countCut.dripsDue.commitSet.looks).time = s.time := by
  have hdrips : s.countCut.dripsDue.time = s.time :=
    (State.dripsDue_keeps (K := [.agenda, .regs, .loose, .counted]) (by decide) (State.countCut_keeps (by decide) (.refl s))).time (by decide)
  split
  · exact hdrips
  · have hset := State.looks_keeps (by decide) (State.commitSet_keeps (List.Subset.refl _) (.refl s.countCut.dripsDue))
    exact (hset.time (by decide)).trans hdrips

/-- The end of an fc counts an unfrozen fc unless the die is frozen once the errors of the fc are entered (R68, R74, R208). -/
theorem State.endFc_ufc (s : State) : s.endFc.time.ufc = if s.enterAll.frozen then s.time.ufc else s.time.ufc + 1 := by
  have henter : s.enterAll.time = s.time := (State.enterAll_keeps (List.Subset.refl _) (.refl s)).time (by decide)
  have harm : Keeps [.agenda] s.enterAll (if s.enterAll.logsWait then s.enterAll.arm .wall 1 (.eventPost 0) else s.enterAll) :=
    .ite (State.arm_keeps _ _ _ (List.Subset.refl _) (.refl _)) (.refl _)
  have hfrozen : (if s.enterAll.logsWait then s.enterAll.arm .wall 1 (.eventPost 0) else s.enterAll).frozen = s.enterAll.frozen :=
    congrArg (fun w => R.LCT_FRZ_STAT_FROZEN.of w != 0) (harm.reg (by decide) R.LCT_FRZ_STAT)
  unfold State.endFc
  dsimp only
  rw [State.fcTail_time, State.partUp_ufc, State.countAndSend_time, harm.time (by decide), henter, hfrozen]

theorem State.pass_left (s : State) (n : Nat) : (s.pass n).time.left = s.time.left := by
  unfold State.pass
  dsimp only
  split <;> rfl

/-- Wall time passes to the end of the present fc. -/
def State.toFcEnd (s : State) : State :=
  let t := s.pass s.time.left
  { t with time := { t.time with left := 0 } }

/-- With nothing due before the running fc ends, an idle step ends it. -/
theorem State.idle_of_fcEnd {s : State} (hnone : s.dueNow = []) (hon : s.fastOn = true) (hleft : s.time.left ≠ 0)
    (hlast : s.untilDue s.time.left = s.time.left) : s.idle = s.toFcEnd.endFc := by
  simp only [State.idle, State.tick, State.toFcEnd, State.pass_left, hnone, hon, hleft, hlast, List.isEmpty_nil, Nat.sub_self, reduceIte]

/-- A frozen die in whose running fc an error of kind 196480 was detected; the fc ends in the next unit of wall time. The log of that
kind would be number 6140, and its FIRST_TIME_LO stands where LCT.FRZ_STAT does. -/
def frozenWithStrayError : State :=
  let s := State.reset.puts [(R.CLK_REG_STAT_RUN 0, 1), (R.LCT_FRZ_STAT_FROZEN, 1)]
  { s with time := { s.time with left := 1 }, detected := [{ kind := 196480, req := 0, cab := none }] }

/-- Entering that error clears FROZEN, so the frozen fc counts as an unfrozen one. -/
theorem idle_frozenWithStrayError : frozenWithStrayError.idle.time.ufc = 1 := by
  have hthaw : frozenWithStrayError.toFcEnd.enterAll.frozen = false := by decide
  have hufc : frozenWithStrayError.toFcEnd.time.ufc = 0 := by decide
  rw [State.idle_of_fcEnd (by decide) (by decide) (by decide) (by decide), State.endFc_ufc, hthaw, hufc]
  rfl

/-- Refutes O2: its clause for a frozen die speaks of every state, also of one whose detected errors have kinds beyond the byte that a kind is
(R204). `State.enter` finds the registers of a log by the kind, and those of log 6140 overlap LCT.FRZ_STAT: the end of the fc clears
FROZEN before it looks whether the fc was frozen, and the unfrozen fc advance. -/
theorem not_anEmptyQueueTakesDueEffectsOrTime : ¬ Obligations.AnEmptyQueueTakesDueEffectsOrTime := by
  intro h
  obtain ⟨-, htime⟩ := h frozenWithStrayError rfl
  obtain ⟨t, ht, -, -, -, -, -, hfrozen⟩ := htime (by decide)
  obtain ⟨hufc, -⟩ := hfrozen (by decide)
  obtain rfl : frozenWithStrayError.idle = t := Host.Outcome.next.inj ((step_of_pending_nil rfl).symm.trans ht)
  exact absurd (idle_frozenWithStrayError.symm.trans hufc) (by decide)

end Sys2Proof.Machine
end

section
/-! SUPPORT. The registers that a parity error leaves (R139), and what is read from the registers of the die alone: the fence of a cabinet and
the context of its engine attachment group. -/
namespace Sys2Proof.Machine

variable {s t : State} {k c : Nat}

/-- A register of the die is none of a cabinet. -/
theorem dieReg_ne_cabReg {p b o : Nat} (blk off : Nat) (hp : p < 128) (hb : b < 64) (ho : o < 65536) : dieReg blk off ≠ cabReg p b o := by
  unfold dieReg cabReg
  omega

/-- A cabinet's fence is read from its bit of the mask alone. -/
theorem State.fenced_congr {p : Nat} (h : t.reg (R.IDV_FENCE_MASK (p / 32)) = s.reg (R.IDV_FENCE_MASK (p / 32))) : t.fenced p = s.fenced p :=
  congrArg (fun w => (bitFld (R.IDV_FENCE_MASK (p / 32)) (p % 32)).of w != 0) h

/-- An engine attachment group is read from its register alone. -/
theorem State.eag_congr {p : Nat} (h : t.reg (R.CTX_EAG p) = s.reg (R.CTX_EAG p)) : t.eag p = s.eag p :=
  congrArg (fun w => if ((R.CTX_EAG_V p).of w != 0) = true then some ((R.CTX_EAG_CTX p).of w) else none) h

/-! What a replay cause writes -/

theorem portCnt_key (reg : Nat → Nat) (cab port : Nat) : (portCnt reg cab port).key = reg cab := rfl

/-- A count changes the register of its field alone. -/
theorem State.reg_inc_other {f : Fld} (h : k ≠ f.key) (s : State) : (s.inc f).reg k = s.reg k := State.reg_put_other s f _ h

/-- A context fault writes the state of its step alone. -/
theorem State.reg_ctxFault (h : k ≠ R.LCT_STEP c) (s : State) : (s.ctxFault c).reg k = s.reg k := by
  unfold State.ctxFault
  split
  · rfl
  · refine (State.reg_put_other _ _ _ h).trans ?_
    have hlists : Keeps [.agenda, .stp, .runners] s (((s.endReplay c).dropLater c).abortLists 8 1 (fun l => decide (l.ctx = c))) :=
      State.abortLists_keeps _ _ _ (by decide) (State.dropLater_keeps _ (by decide) (State.endReplay_keeps _ (by decide) (.refl s)))
    exact hlists.reg (by decide) k

/-- A replay of a context shows in the register of its step alone. -/
theorem State.reg_replayCause (h : k ≠ R.LCT_STEP c) (s : State) (cause : Nat) : (s.replayCause c cause).reg k = s.reg k := by
  have hstart (a r : Nat) : (s.startReplay c cause a r).reg k = s.reg k :=
    (State.reg_put_other _ _ _ h).trans (State.reg_put_other _ _ _ h)
  unfold State.replayCause
  dsimp only
  split_ifs
  · rfl
  · exact State.reg_ctxFault h _
  · exact State.reg_ctxFault h s
  all_goals exact hstart _ _

/-- The context that a parity error names is the one that its replay cause is for. -/
theorem State.parity_eq (s : State) (cab : Cab) (fld req : Nat) :
    s.parity cab fld req = match s.eag cab with
      | some c => ((s.inc (portCnt R.CAB_PORT_PAR cab fld)).err { kind := 0x28, req := req, cab := some cab.val, ctx := some c }).replayCause c 1
      | none => (s.inc (portCnt R.CAB_PORT_PAR cab fld)).err { kind := 0x28, req := req, cab := some cab.val, ctx := none } := by
  have heag : ((s.inc (portCnt R.CAB_PORT_PAR cab fld)).err { kind := 0x28, req := req, cab := some cab, ctx := s.eag cab }).eag cab = s.eag cab :=
    State.eag_congr ((State.reg_err _ _ _).trans (State.reg_inc_other (by rw [portCnt_key]; exact dieReg_ne_cabReg _ _ cab.isLt (by decide) (by decide)) s))
  rw [State.parity, State.replayCab, heag]
  cases s.eag cab <;> rfl

/-- A parity error is counted in CAB.PORT_PAR and shows in the step of a context. -/
theorem State.reg_parity {cab : Cab} (hpar : k ≠ R.CAB_PORT_PAR cab) (hstep : ∀ c, k ≠ R.LCT_STEP c) (s : State) (fld req : Nat) :
    (s.parity cab fld req).reg k = s.reg k := by
  have hcount (e : ErrRec) : ((s.inc (portCnt R.CAB_PORT_PAR cab fld)).err e).reg k = s.reg k :=
    (State.reg_err _ _ k).trans (State.reg_inc_other (by rwa [portCnt_key]) s)
  rw [State.parity_eq]
  cases s.eag cab with
  | none => exact hcount _
  | some c => exact (State.reg_replayCause (hstep c) _ _).trans (hcount _)

theorem State.fenced_parity (s : State) (cab p : Cab) (fld req : Nat) : (s.parity cab fld req).fenced p = s.fenced p := by
  refine State.fenced_congr (State.reg_parity (dieReg_ne_cabReg _ _ cab.isLt (by decide) (by decide)) (fun c => ?_) s fld req)
  unfold R.LCT_STEP dieReg cabReg
  omega

end Sys2Proof.Machine
end

section
/-! SUPPORT. Set-class accesses at their issue: what a look-ahead, a presentation, an issue to the own cabinet and the slip of a hold come to when
no check turns them away (R99, R100, R112, R113, R120), and what the range check reads (R96 to R99). -/
namespace Sys2Proof.Machine

variable {s t : State} {port : SetPort} {cab : Nat}

/-! Claims and presentations -/

/-- A look-ahead on an unfrozen fc, of a context that has not faulted and a port that does not hold, claims its group for the issue 3 fc later. -/
theorem State.lookahead_of_open {grp : Nat} (hport : s.bit (R.CAB_PORT_STAT_P_SEQ cab) = true) (hfrz : s.frozen = false)
    (hdisc : s.discards (s.eag cab) = false) (hhold : s.holdHigh port cab = false) :
    s.lookahead port cab grp = ({ s with set := { s.set with claims := s.set.claims ++ [{ port := port, cab := cab, grp := grp, at' := s.time.stime + 3 }] } } : State).clearClaim cab grp
      (s.claimAt { port := port, cab := cab, grp := grp, at' := s.time.stime + 3 } + 1) := by
  simp only [State.lookahead, hport, hfrz, hdisc, hhold, Bool.true_eq_false, Bool.false_eq_true, reduceIte]

/-- An access that no range entry would hold is not held at its presentation. -/
theorem State.willHold_of_rangeFree {ctx : Option Nat} {fa : Nat} {wr : Bool} (h : s.rangeHeld cab fa wr = false) : s.willHold port cab ctx fa wr = false := by
  rw [State.willHold, h, Bool.and_false]

/-- A presentation that is neither refused nor held issues. -/
theorem State.presentWide_of_rangeFree {fa dly : Nat} {dat : List W256} (hfrz : s.frozen = false) (hhold : s.holdHigh port cab = false)
    (hdisc : s.discards (s.eag cab) = false) (hrange : s.rangeHeld cab fa (decide (port = .wwp)) = false) :
    s.presentWide port cab fa dat dly = if port = .wwp then s.issueWrite cab fa dat dly none else s.issueRead cab fa dly false := by
  simp only [State.presentWide, hfrz, hhold, hdisc, State.willHold_of_rangeFree hrange, Bool.false_eq_true, decide_eq_true_eq, reduceIte]

/-! Issues to the own cabinet -/

/-- The accesses in occupancy and the answers to come on WRP and WWP. -/
def SetSt.inFlight (x : SetSt) : List SetOp × List Deliv × List (Nat × Nat × Resp × Option Nat) := (x.ops, x.delivs, x.wresps)

/-- Counting down the entries of an access leaves them (R97, R98). -/
theorem State.countDown_inFlight (s : State) (cab fa : Nat) (wr : Bool) : (s.countDown cab fa wr).set.inFlight = s.set.inFlight := by
  have hput (u : State) (f : Fld) (n : Nat) : (u.put f n).set.inFlight = u.set.inFlight := congrArg SetSt.inFlight (State.put_set u f n)
  have hend (u : State) (l : List (Nat × Nat × Nat)) (n : Nat) (i : Instr) :
      (({ u with set := { u.set with ending := l } } : State).at' .sched n i).set.inFlight = u.set.inFlight := rfl
  unfold State.countDown
  refine State.foldl_keeps_part (fun u => u.set.inFlight) _ s fun u n => ?_
  dsimp only
  split_ifs
  · exact (hend _ _ _ _).trans (hput _ _ _)
  · exact (hend _ _ _ _).trans (hput _ _ _)
  · exact hput _ _ _
  · rfl

/-- An access that overlaps no other takes its group (R54). -/
theorem State.occupy_of_free {o : SetOp} (hfree : s.set.ops.filter (fun x => decide (x.cab = o.cab) && decide (x.grp = o.grp) && decide (o.at' ≤ x.at' + 1)) = []) :
    s.occupy o = (let t := s.countDown o.cab o.fa o.wr.isSome; { t with set := { t.set with ops := t.set.ops ++ [o] } }) := by
  simp only [State.occupy, hfree, List.isEmpty_nil, reduceIte]

/-- It then stands last among those in occupancy, and no answer to come changes. -/
theorem State.occupy_set_of_free {o : SetOp} (hfree : s.set.ops.filter (fun x => decide (x.cab = o.cab) && decide (x.grp = o.grp) && decide (o.at' ≤ x.at' + 1)) = []) :
    (s.occupy o).set.ops = s.set.ops ++ [o] ∧ (s.occupy o).set.delivs = s.set.delivs ∧ (s.occupy o).set.wresps = s.set.wresps := by
  obtain ⟨hops, hanswers⟩ := Prod.mk.inj (s.countDown_inFlight o.cab o.fa o.wr.isSome)
  obtain ⟨hdelivs, hwresps⟩ := Prod.mk.inj hanswers
  rw [State.occupy_of_free hfree]
  exact ⟨congrArg (· ++ [o]) hops, hdelivs, hwresps⟩

/-- The checks of R135 let an access to a running cabinet of its own die pass. -/
theorem State.setCheck_own {wr : Bool} {ctx : Option Nat} {fa : Nat} (htgt : s.target .set wr ctx fa = .at' cab) (hpow : s.pow cab = 0) :
    s.setCheck port cab wr ctx fa = (s, .inr (some cab)) := by
  simp only [State.setCheck, htgt, hpow, servedIn, decide_true, Bool.and_self, reduceIte]

/-- The access of a wide port that takes its bank group on the present fc. -/
def State.wideOp (s : State) (port : SetPort) (cab fa : Nat) (wr : Option (List W256)) (dest : SetDest) : SetOp :=
  { port := port, cab := cab, grp := faGroup fa, row := faRow fa, at' := s.time.stime, wr := wr, ctx := s.eag cab, fa := fa, dest := dest }

/-- A claimed read of the own cabinet takes its group and is to be delivered 4 fc after its issue (R54, R117). -/
theorem State.issueRead_own {fa dly : Nat} (hdisc : s.discards (s.eag cab) = false) (hfen : s.fenced cab = false)
    (htgt : s.target .set false (s.eag cab) fa = .at' cab) (hpow : s.pow cab = 0) (hclaim : s.claimed .wrp cab (faGroup fa) = true) :
    s.issueRead cab fa dly false = ((s.fresh.sentinel cab fa false 11 (s.eag cab)).addDeliv s.loose.nextId cab (s.time.stime + 4) (s.eag cab) fa false .ok false).occupy
      (s.wideOp .wrp cab fa none (.deliver s.loose.nextId)) := by
  have hdisc' : s.fresh.discards (s.eag cab) = false := hdisc
  have hfen' : s.fresh.fenced cab = false := hfen
  have hcheck : s.fresh.setCheck .wrp cab false (s.eag cab) fa = (s.fresh, .inr (some cab)) := State.setCheck_own htgt hpow
  have hclaim' : s.fresh.claimed .wrp cab (faGroup fa) = true := hclaim
  simp only [State.issueRead, State.wideOp, hdisc', hfen', hcheck, hclaim', Bool.or_self, Bool.not_true, Bool.and_false, Bool.false_eq_true, reduceIte]

/-- A claimed write of the own cabinet takes its group and is to be answered OK 3 fc after its issue (R54, R121). -/
theorem State.issueWrite_own {fa dly : Nat} {dat : List W256} (hdisc : s.discards (s.eag cab) = false) (hfen : s.fenced cab = false)
    (htgt : s.target .set true (s.eag cab) fa = .at' cab) (hpow : s.pow cab = 0) (hclaim : s.claimed .wwp cab (faGroup fa) = true)
    (hrep : s.replaying (s.eag cab) = false) :
    s.issueWrite cab fa dat dly none = (((s.fresh.sentinel cab fa true 12 (s.eag cab)).addWresp cab .ok (s.eag cab)).undrain s.loose.nextId cab 12).occupy
      (s.wideOp .wwp cab fa (some dat) (.done s.loose.nextId)) := by
  have hdisc' : s.fresh.discards (s.eag cab) = false := hdisc
  have hfen' : s.fresh.fenced cab = false := hfen
  have hcheck : s.fresh.setCheck .wwp cab true (s.eag cab) fa = (s.fresh, .inr (some cab)) := State.setCheck_own htgt hpow
  have hclaim' : s.fresh.claimed .wwp cab (faGroup fa) = true := hclaim
  have hrep' : s.fresh.replaying (s.eag cab) = false := hrep
  simp only [State.issueWrite, State.wideOp, Option.isSome_none, Option.getD_none, hdisc', hfen', hcheck, hclaim', hrep', Bool.or_self, Bool.not_true, Bool.and_false,
    Bool.false_eq_true, reduceIte]

/-- A sentinel record leaves time and the set class. -/
theorem State.sentinel_fresh (s : State) (cab fa : Nat) (wr : Bool) (req : Nat) (ctx : Option Nat) :
    (s.fresh.sentinel cab fa wr req ctx).set = s.set ∧ (s.fresh.sentinel cab fa wr req ctx).time = s.time := by
  have hkeep := State.sentinel_keeps cab fa wr req ctx (List.Subset.refl _) (.refl s.fresh)
  exact ⟨hkeep.frame .set (by decide), hkeep.time (by decide)⟩

/-- Where no other access overlaps it, such a read stands last in occupancy, and its delivery last among those to come. -/
theorem State.issueRead_own_inFlight {fa dly : Nat} (hdisc : s.discards (s.eag cab) = false) (hfen : s.fenced cab = false)
    (htgt : s.target .set false (s.eag cab) fa = .at' cab) (hpow : s.pow cab = 0) (hclaim : s.claimed .wrp cab (faGroup fa) = true)
    (hfree : s.set.ops.filter (fun x => decide (x.cab = cab) && decide (x.grp = faGroup fa) && decide (s.time.stime ≤ x.at' + 1)) = []) :
    (s.issueRead cab fa dly false).set.ops = s.set.ops ++ [s.wideOp .wrp cab fa none (.deliver s.loose.nextId)] ∧
      (s.issueRead cab fa dly false).set.delivs.map (fun d => (d.id, d.cab, d.due)) =
        s.set.delivs.map (fun d => (d.id, d.cab, d.due)) ++ [(s.loose.nextId, cab, s.time.stime + 4)] := by
  obtain ⟨hset, -⟩ := s.sentinel_fresh cab fa false 11 (s.eag cab)
  rw [State.issueRead_own hdisc hfen htgt hpow hclaim]
  generalize s.fresh.sentinel cab fa false 11 (s.eag cab) = u at hset ⊢
  generalize hv : u.addDeliv s.loose.nextId cab (s.time.stime + 4) (s.eag cab) fa false .ok false = v
  have hops : v.set.ops = s.set.ops := by rw [← hset, ← hv]; rfl
  have hdelivs : v.set.delivs.map (fun d => (d.id, d.cab, d.due)) =
      s.set.delivs.map (fun d => (d.id, d.cab, d.due)) ++ [(s.loose.nextId, cab, s.time.stime + 4)] := by
    rw [← hset, ← hv]
    exact List.map_append
  obtain ⟨htaken, hsame, -⟩ := State.occupy_set_of_free (s := v) (o := s.wideOp .wrp cab fa none (.deliver s.loose.nextId)) (by rw [hops]; exact hfree)
  rw [htaken, hsame, hops, hdelivs]
  exact ⟨rfl, rfl⟩

/-- Where no other access overlaps it, such a write stands last in occupancy, and its answer last among those to come. -/
theorem State.issueWrite_own_inFlight {fa dly : Nat} {dat : List W256} (hdisc : s.discards (s.eag cab) = false) (hfen : s.fenced cab = false)
    (htgt : s.target .set true (s.eag cab) fa = .at' cab) (hpow : s.pow cab = 0) (hclaim : s.claimed .wwp cab (faGroup fa) = true)
    (hrep : s.replaying (s.eag cab) = false)
    (hfree : s.set.ops.filter (fun x => decide (x.cab = cab) && decide (x.grp = faGroup fa) && decide (s.time.stime ≤ x.at' + 1)) = []) :
    (s.issueWrite cab fa dat dly none).set.ops = s.set.ops ++ [s.wideOp .wwp cab fa (some dat) (.done s.loose.nextId)] ∧
      (s.issueWrite cab fa dat dly none).set.wresps = s.set.wresps ++ [(cab, s.time.stime + 3, .ok, s.eag cab)] := by
  obtain ⟨hset, htime⟩ := s.sentinel_fresh cab fa true 12 (s.eag cab)
  rw [State.issueWrite_own hdisc hfen htgt hpow hclaim hrep]
  generalize s.fresh.sentinel cab fa true 12 (s.eag cab) = u at hset htime ⊢
  generalize hv : (u.addWresp cab .ok (s.eag cab)).undrain s.loose.nextId cab 12 = v
  have hops : v.set.ops = s.set.ops := by rw [← hset, ← hv]; rfl
  have hwresps : v.set.wresps = s.set.wresps ++ [(cab, s.time.stime + 3, .ok, s.eag cab)] := by rw [← hset, ← htime, ← hv]; rfl
  obtain ⟨htaken, -, hsame⟩ := State.occupy_set_of_free (s := v) (o := s.wideOp .wwp cab fa (some dat) (.done s.loose.nextId)) (by rw [hops]; exact hfree)
  rw [htaken, hsame, hops, hwresps]
  exact ⟨rfl, rfl⟩

/-! Slips and range checks -/

/-- A hold of a live context adds its fc to the slip; up to 8 fc none is overrun (R100). -/
theorem State.growSlip_of_le {n fa : Nat} {ctx : Option Nat} (hdisc : s.discards ctx = false) (hrep : s.replaying ctx = false) (hle : s.slip cab port + n ≤ 8) :
    s.growSlip cab port n ctx fa = (s.setSlip cab port (s.slip cab port + n)).holdUpto cab (fun p => decide (p = port)) := by
  have hover : ¬(s.slip cab port ≤ 8 ∧ 8 < s.slip cab port + n) := by omega
  simp only [State.growSlip, hdisc, hrep, hover, Bool.or_self, Bool.false_eq_true, reduceIte]

theorem slipFld_key (cab : Nat) (port : SetPort) : (slipFld cab port).key = R.SBD_STAT cab := by
  cases port <;> rfl

/-- A slip shows in SBD.STAT alone (R103). -/
theorem State.sameRegs_slipped (s : State) (cab n : Nat) (port : SetPort) (p : SetPort → Bool) :
    s.sameRegs [R.SBD_STAT cab] ((s.setSlip cab port n).holdUpto cab p) := by
  rw [← slipFld_key cab port]
  exact fun k hk => State.reg_put_other _ (slipFld cab port) _ (List.ne_of_not_mem_cons hk)

/-- The range check reads the entries and the mode, not SBD.STAT, and of the set class which entries are open, ending and closed (R96 to R99). -/
theorem State.rangeHeld_congr (hreg : s.sameRegs [R.SBD_STAT cab] t) (htime : t.time = s.time) (hopener : t.set.opener = s.set.opener)
    (hending : t.set.ending = s.set.ending) (hclosed : t.set.closed = s.set.closed) (fa : Nat) (wr : Bool) : t.rangeHeld cab fa wr = s.rangeHeld cab fa wr := by
  have hfld (f : Fld) (h : f.key ≠ R.SBD_STAT cab) : t.f f = s.f f := congrArg f.of (hreg f.key (by simpa using h))
  have hapart {off : Nat} (h : off ≠ 4) : cabReg cab 6 off ≠ R.SBD_STAT cab := by
    unfold R.SBD_STAT cabReg
    omega
  have hbit (f : Fld) (h : f.key ≠ R.SBD_STAT cab) : t.bit f = s.bit f := congrArg (· != 0) (hfld f h)
  have hoverlap (n : Nat) : t.overlap cab n fa = s.overlap cab n fa := by
    rw [State.overlap, State.overlap, hfld _ (hapart (by omega)), hfld _ (hapart (by omega))]
  have hholding (n : Nat) : t.holding cab n = s.holding cab n := by
    rw [State.holding, State.holding, hbit _ (hapart (by omega)), htime, hopener, hending]
  have hclosedNow : t.closedNow cab fa wr = s.closedNow cab fa wr := by
    rw [State.closedNow, State.closedNow, htime, hclosed]
  have hentries : t.conflicts cab fa wr = s.conflicts cab fa wr := by
    rw [State.conflicts, State.conflicts, hclosedNow]
    refine congrArg (· || s.closedNow cab fa wr) (congrArg (List.range 32).any (funext fun n => ?_))
    rw [hbit _ (hapart (by omega)), hbit _ (hapart (by omega)), hholding n, hoverlap n]
  rw [State.rangeHeld, State.rangeHeld, hbit _ (hapart (by omega)), hentries]

/-- The slip that a hold has grown changes neither the range check nor the context of the cabinet. -/
theorem State.rangeHeld_slipped (s : State) (cab n : Nat) (port : SetPort) (p : SetPort → Bool) (fa : Nat) (wr : Bool) :
    ((s.setSlip cab port n).holdUpto cab p).rangeHeld cab fa wr = s.rangeHeld cab fa wr :=
  State.rangeHeld_congr (s.sameRegs_slipped cab n port p) rfl rfl rfl rfl fa wr

theorem State.eag_slipped (s : State) (cab : Cab) (n : Nat) (port : SetPort) (p : SetPort → Bool) : ((s.setSlip cab port n).holdUpto cab p).eag cab = s.eag cab :=
  State.eag_congr (s.sameRegs_slipped cab n port p _ fun h =>
    dieReg_ne_cabReg _ _ cab.isLt (by decide) (by decide) (List.mem_singleton.mp h))

/-- An access that no range entry holds is held no longer. -/
theorem State.stillHeld_of_rangeFree {ctx : Option Nat} {fa : Nat} {wr : Bool} (h : s.rangeHeld cab fa wr = false) : s.stillHeld cab ctx fa wr = false := by
  rw [State.stillHeld, h, Bool.and_false]

end Sys2Proof.Machine
end

section
/-! PROOFS. Look-aheads, issues of the wide ports and the release of held accesses (R99, R100, R112 to R123). -/
namespace Sys2Proof.Machine

theorem exec_wrpLookahead (cab : Cab) (grp : Fin 4) (s : State) : exec (.wrpLookahead cab grp) s = .next (s.lookahead .wrp cab grp) := rfl

theorem exec_wwpLookahead (cab : Cab) (grp : Fin 4) (s : State) : exec (.wwpLookahead cab grp) s = .next (s.lookahead .wwp cab grp) := rfl

theorem exec_landingLookahead (cab : Cab) (grp : Fin 4) (s : State) : exec (.landingLookahead cab grp) s = .next (s.lookahead .land cab grp) := rfl

theorem exec_wrpIssue (cab : Cab) (addr : BitVec 24) (dly : BitVec 4) (s : State) : exec (.wrpIssue cab addr dly) s = execWrpIssue cab addr dly s := rfl

theorem exec_wwpIssue (cab : Cab) (addr : BitVec 24) (data : List W256) (dly : BitVec 4) (perr : Bool) (s : State) :
    exec (.wwpIssue cab addr data dly perr) s = execWwpIssue cab addr data dly perr s := rfl

theorem exec_heldAccessRelease (cab : Cab) (hold : Staged SetPort) (s : State) : exec (.heldAccessRelease cab hold) s = execHeldAccessRelease cab hold s := rfl

/-- The held access leaves its hold register on fc `now`. -/
def State.holdReleased (s : State) (cab : Nat) (port : SetPort) (h : HoldReg) (now : Nat) : State :=
  { s with set := { s.set with holds := s.set.holds.map (fun x => if x.id = h.id ∧ x.port = port ∧ x.cab = cab ∧ x.since = h.since then { x with rel := some now } else x) } }

/-- A held wide access whose entries have gone leaves its hold register, the fc of its wait added to the slip, and issues (R99, R100). -/
theorem exec_heldAccessRelease_wide {s u : State} {cab : Cab} {h : HoldReg} {port : SetPort} (perr : Bool) (hwide : port ≠ .land) (hfrz : s.frozen = false)
    (hfind : s.set.holds.find? (fun x => decide (x.cab = cab.val) && decide (x.port = port) && x.rel.isNone) = some h)
    (hrange : s.rangeHeld cab h.addr (decide (port = .wwp)) = false) (hdisc : s.discards (s.eag cab) = false) (hrep : s.replaying (s.eag cab) = false)
    (hslip : s.slip cab port + (s.time.stime - h.upto) ≤ 8)
    (hu : u = (s.setSlip cab port (s.slip cab port + (s.time.stime - h.upto))).holdUpto cab (fun p => decide (p = port))) :
    exec (.heldAccessRelease cab ⟨port, perr⟩) s = .next (let t := u.holdReleased cab port h s.time.stime
      if port = .wwp then (if perr then t.parity cab 1 12 else t).issueWrite cab h.addr h.dat h.dly (some h.id) else t.issueRead cab h.addr h.dly true) := by
  have heag : u.eag cab = s.eag cab := hu ▸ s.eag_slipped cab _ port _
  have hfree : u.rangeHeld cab h.addr (decide (port = .wwp)) = false := by rw [hu, State.rangeHeld_slipped, hrange]
  have hgrow : s.growSlip cab port (s.time.stime - h.upto) (s.eag cab) h.addr = u := hu ▸ State.growSlip_of_le hdisc hrep hslip
  have htime : u.time = s.time := by rw [hu]; rfl
  have hlive : u.discards (u.eag cab) = false := by rw [heag, hu]; exact hdisc
  have hdisc' : (u.holdReleased cab port h s.time.stime).discards ((u.holdReleased cab port h s.time.stime).eag cab) = false := hlive
  rw [exec_heldAccessRelease, execHeldAccessRelease]
  simp only [hfrz, hwide, hfind, hgrow, State.stillHeld_of_rangeFree hfree, Bool.false_eq_true, reduceIte]
  change Host.Outcome.next (let t := u.holdReleased cab port h u.time.stime
    if port = .wwp then (if perr && !t.discards (t.eag cab) then t.parity cab 1 12 else t).issueWrite cab h.addr h.dat h.dly (some h.id)
    else t.issueRead cab h.addr h.dly true) = _
  simp only [htime, hdisc', Bool.not_false, Bool.and_true]

/-- The one flit that a landing stage holds, once its entries have gone, adds the fc of its wait to the slip and is released. -/
theorem exec_heldAccessRelease_land {s u : State} {cab : Cab} {l : Landed} {n : Nat} (hfrz : s.frozen = false)
    (hone : s.set.land.filter (fun x => decide (x.cab = cab.val) && x.hold.isSome) = [l]) (hhold : l.hold = some n)
    (hrange : s.rangeHeld cab l.f.fa (decide (l.f.kind = SKind.wr)) = false) (hdisc : s.discards l.f.ctx = false)
    (hrep : s.replaying l.f.ctx = false) (hslip : s.slip cab .land + (s.time.stime - n) ≤ 8)
    (hu : u = (s.setSlip cab .land (s.slip cab .land + (s.time.stime - n))).holdUpto cab (fun p => decide (p = SetPort.land))) :
    exec (.heldAccessRelease cab ⟨.land, false⟩) s = .next (let v := u.release cab l true
      if v.set.land.any (fun x => decide (x.cab = cab.val) && x.hold.isSome) then v.arm .sched 1 (.heldAccessRelease cab ⟨.land, false⟩) else v) := by
  have hgrow : s.growSlip cab .land (s.time.stime - n) l.f.ctx l.f.fa = u := hu ▸ State.growSlip_of_le hdisc hrep hslip
  have hfree : u.rangeHeld cab l.f.fa (decide (l.f.kind = SKind.wr)) = false := by rw [hu, State.rangeHeld_slipped, hrange]
  simp only [exec_heldAccessRelease, execHeldAccessRelease, hfrz, hone, hhold, Option.getD_some, hgrow, List.foldl_cons, List.foldl_nil,
    State.stillHeld_of_rangeFree hfree, Bool.false_eq_true, reduceIte]

/-- Settles O12, clause by clause: the look-aheads by one lemma over the port, the held wide accesses by one over port and parity error. -/
theorem lookAheadsClaimAndWideIssuesOccupy : Obligations.LookAheadsClaimAndWideIssuesOccupy := by
  refine ⟨?wrpClaim, ?wwpClaim, ?landClaim, ?read, ?write, ?writeParity, ?heldRead, ?heldWrite, ?heldWriteParity, ?heldFlit⟩
  case wrpClaim =>
    intro cab grp s hport hfrz hdisc hhold
    rw [exec_wrpLookahead, State.lookahead_of_open hport hfrz hdisc hhold]
    rfl
  case wwpClaim =>
    intro cab grp s hport hfrz hdisc hhold
    rw [exec_wwpLookahead, State.lookahead_of_open hport hfrz hdisc hhold]
    rfl
  case landClaim =>
    intro cab grp s hport hfrz hdisc hhold
    rw [exec_landingLookahead, State.lookahead_of_open hport hfrz hdisc hhold]
    rfl
  case read =>
    intro cab addr dly s hport hfrz hhold hdisc hfen htgt hpow hclaim hrange hfree
    have hissue := State.presentWide_of_rangeFree (port := .wrp) (dat := []) (dly := dly.toNat) hfrz hhold hdisc hrange
    rw [if_neg (by decide)] at hissue
    exact ⟨_, by rw [exec_wrpIssue, execWrpIssue, if_pos hport, hissue], State.issueRead_own_inFlight hdisc hfen htgt hpow hclaim hfree⟩
  case write =>
    intro cab addr data dly s hport hfrz hhold hdisc hfen htgt hpow hclaim hrange hfree hrep
    have hissue := State.presentWide_of_rangeFree (port := .wwp) (dat := data) (dly := dly.toNat) hfrz hhold hdisc hrange
    rw [if_pos rfl] at hissue
    exact ⟨_, by rw [exec_wwpIssue, execWwpIssue, if_pos hport, Bool.false_and, Bool.false_and, if_neg Bool.false_ne_true, hissue],
      State.issueWrite_own_inFlight hdisc hfen htgt hpow hclaim hrep hfree⟩
  case writeParity =>
    intro cab addr data dly s hport hfrz hdisc
    simp only [exec_wwpIssue, execWwpIssue, hport, hfrz, hdisc, Bool.not_false, Bool.and_self, reduceIte]
  case heldRead =>
    intro cab h s u hfrz hfind hrange hdisc hrep hslip hu
    rw [exec_heldAccessRelease_wide false (by decide) hfrz hfind hrange hdisc hrep hslip hu]
    simp only [reduceCtorEq, reduceIte]
    rfl
  case heldWrite =>
    intro cab h s u hfrz hfind hrange hdisc hrep hslip hu
    rw [exec_heldAccessRelease_wide false (by decide) hfrz hfind hrange hdisc hrep hslip hu]
    simp only [Bool.false_eq_true, reduceIte]
    rfl
  case heldWriteParity =>
    intro cab h s u hfrz hfind hrange hdisc hrep hslip hu
    rw [exec_heldAccessRelease_wide true (by decide) hfrz hfind hrange hdisc hrep hslip hu]
    simp only [reduceIte]
    rfl
  case heldFlit =>
    intro cab l n s u v hfrz hone hhold hrange hdisc hrep hslip hu hv
    rw [exec_heldAccessRelease_land hfrz hone hhold hrange hdisc hrep hslip hu, hv]

end Sys2Proof.Machine
end

section
/-! PROOFS. What the wide ports present when it falls due (R117, R118, R121). -/
namespace Sys2Proof.Machine

theorem exec_wrpDelivery (cab : Cab) (perr : Bool) (s : State) : exec (.wrpDelivery cab perr) s = execWrpDelivery cab perr s := rfl

theorem exec_wwpResponse (cab : Cab) (s : State) : exec (.wwpResponse cab) s = execWwpResponse cab s := rfl

/-- The one delivery due, whose data has come, is presented on an unfrozen fc; a response other than FAULT and ASLEEP faults no context. -/
theorem exec_wrpDelivery_of_due {s : State} {cab : Cab} {d : Deliv} (perr : Bool) (hfrz : s.frozen = false)
    (hdue : s.set.delivs.filter (fun e => decide (e.cab = cab.val) && decide (e.due ≤ s.time.stime)) = [d])
    (hgot : d.remote = false ∨ d.got = true) (hfault : d.resp ≠ .fault) (hasleep : d.resp ≠ .asleep) :
    exec (.wrpDelivery cab perr) s = .next (let t := (({ s with set := { s.set with
          delivs := s.set.delivs.filter (fun e => !(decide (e.cab = cab.val) && decide (e.due ≤ s.time.stime))) } } : State).presentIf (R.CAB_PORT_STAT_P_WRP cab) (cab.val * 8)
            { at' := s.time.fc, tag := 0, dat := d.dat, zero := d.zero, sb := 0, resp := d.resp }).countResp cab 0 d.resp
      if perr then t.parity cab 0 11 else t) := by
  have hlost : (d.remote && !d.got) = false := by
    rcases hgot with h | h <;> simp [h]
  simp only [exec_wrpDelivery, execWrpDelivery, hfrz, hdue, hlost, hfault, hasleep, Bool.false_eq_true, or_self, false_and, reduceIte]

/-- Settles O13: the two deliveries by one lemma over the parity error, the response by the one entry that is due. -/
theorem widePortsAnswerOnTheirFc : Obligations.WidePortsAnswerOnTheirFc := by
  refine ⟨?delivery, ?parity, ?response⟩
  case delivery =>
    intro cab d s hfrz hdue hgot hfault hasleep
    exact exec_wrpDelivery_of_due false hfrz hdue hgot hfault hasleep
  case parity =>
    intro cab d s hfrz hdue hgot hfault hasleep
    exact exec_wrpDelivery_of_due true hfrz hdue hgot hfault hasleep
  case response =>
    intro cab n r c s hfrz hdue hfault hasleep
    simp only [exec_wwpResponse, execWwpResponse, hfrz, hdue, List.foldl_cons, List.foldl_nil, hfault, hasleep, Bool.false_eq_true, or_self, reduceIte]

end Sys2Proof.Machine
end

section
/-! PROOFS. The narrow ports and the presence inputs (R125 to R143). -/
namespace Sys2Proof.Machine

theorem exec_npRequest (cab : Cab) (port : Fin 2) (we : Bool) (addr : BitVec 26) (be : W64) (data : Staged (List W256)) (tag : Fin 32) (s : State) :
    exec (.npRequest cab port we addr be data tag) s = execNpRequest cab port we addr be data tag s := rfl

theorem exec_npCompletion (cab : Cab) (port : Fin 2) (perr : Bool) (s : State) : exec (.npCompletion cab port perr) s = execNpCompletion cab port perr s := rfl

theorem exec_presentChange (port : PresPort) (level : Bool) (s : State) : exec (.presentChange port level) s = execPresentChange port level s := rfl

/-! Requests -/

/-- The outstanding requests are counted in CAB.PORT_STAT (R143). -/
theorem State.sameRegs_npAccept (s : State) (cab port : Nat) (q : LReq) (tag : Nat) : s.sameRegs [R.CAB_PORT_STAT cab] (s.npAccept cab port q tag) := by
  rw [← npOut_key cab port]
  exact fun k hk => State.reg_put_other _ (npOut cab port) _ (List.ne_of_not_mem_cons hk)

theorem State.fenced_npAccept (s : State) (cab : Cab) (port : Nat) (q : LReq) (tag p : Nat) : (s.npAccept cab port q tag).fenced p = s.fenced p :=
  State.fenced_congr <| s.sameRegs_npAccept cab port q tag _ fun h => dieReg_ne_cabPortStat _ _ cab (List.mem_singleton.mp h)

/-- An accepted request is outstanding, and is answered FAULT or enters the fabric (R125, R247). -/
theorem exec_npRequest_of_ack {s : State} {cab : Cab} {port : Fin 2} {tag : Fin 32} (we : Bool) (addr : BitVec 26) (be : W64) (data : List W256)
    (perr : Bool) (hack : s.npAck cab port tag = true) :
    exec (.npRequest cab port we addr be ⟨data, perr⟩ tag) s = .next (
      let q := s.npAcc cab port we addr.toNat be.toNat data tag
      let t := (if perr then s.parity cab 2 port else s).npAccept cab port q tag
      if s.fenced cab then t.deliver q (noAns .fault 2) else t.issueLoose q cab) := by
  have hfen : (if perr then s.parity cab 2 port else s).fenced cab = s.fenced cab := by
    split
    · exact s.fenced_parity cab cab 2 port
    · rfl
  rw [exec_npRequest, execNpRequest, if_pos hack]
  simp only [State.fenced_npAccept, hfen]

/-! Completions -/

/-- The state once the answer `a` of the outstanding request `e` stands on its port. -/
def State.npPresented (s : State) (cab : Cab) (port : Fin 2) (e : PortReq) (a : Ans) : State :=
  let s := { s with loose := { s.loose with ports := s.loose.ports.filter (fun x => !decide (x.id = e.id)) } }
  let s := s.put (npOut cab port) (s.npReqs cab port).length
  (s.present! (cab.val * 8 + 2 + port.val) { at' := s.time.fc, tag := e.tag, dat := if e.we then [0, 0] else a.dat, zero := a.zero, sb := 0, resp := a.resp }).countResp
    cab (2 + port.val) a.resp

theorem State.countResp_loose (s : State) (cab port : Nat) (r : Resp) : (s.countResp cab port r).loose = s.loose :=
  (State.countResp_keeps cab port r (List.Subset.refl _) (.refl s)).frame .loose (by decide)

theorem State.parity_loose (s : State) (cab : Cab) (fld req : Nat) : (s.parity cab fld req).loose = s.loose :=
  (State.parity_keeps cab fld req (List.Subset.refl _) (.refl s)).frame .loose (by decide)

theorem State.npPresented_ports (s : State) (cab : Cab) (port : Fin 2) (e : PortReq) (a : Ans) :
    (s.npPresented cab port e a).loose.ports = s.loose.ports.filter (fun x => !decide (x.id = e.id)) :=
  congrArg LooseSt.ports (State.countResp_loose _ _ _ _)

theorem State.npReqs_congr {s t : State} (h : t.loose = s.loose) (cab port : Nat) : t.npReqs cab port = s.npReqs cab port := by
  rw [State.npReqs, State.npReqs, h]

/-- The one outstanding request is outstanding no longer. -/
theorem State.npReqs_npPresented {s : State} {cab : Cab} {port : Fin 2} {e : PortReq} (hone : s.npReqs cab port = [e]) (a : Ans) :
    (s.npPresented cab port e a).npReqs cab port = [] := by
  rw [State.npReqs, State.npPresented_ports, List.filter_comm, ← State.npReqs, hone]
  simp

/-- The one outstanding request, answered and of age, is presented, and none is left to come (R128, R129). -/
theorem exec_npCompletion_of_one {s : State} {cab : Cab} {port : Fin 2} {e : PortReq} {a : Ans} (perr : Bool) (hfrz : s.frozen = false)
    (hone : s.npReqs cab port = [e]) (hans : e.ans = some a) (hgate : e.gate ≤ s.time.ufc) :
    exec (.npCompletion cab port perr) s = .next (if perr then (s.npPresented cab port e a).parity cab 2 port else s.npPresented cab port e a) := by
  have hfirst : s.npFirst cab port e = true := by simp [State.npFirst, hone]
  have hfind : (s.npReqs cab port).find? (fun e => e.ans.isSome && decide (e.gate ≤ s.time.ufc) && s.npFirst cab port e) = some e := by
    simp [hone, hans, hgate, hfirst]
  have hnone : (if perr then (s.npPresented cab port e a).parity cab 2 port else s.npPresented cab port e a).npReqs cab port = [] := by
    split
    · rw [State.npReqs_congr (State.parity_loose _ _ _ _), State.npReqs_npPresented hone]
    · exact State.npReqs_npPresented hone a
  have hlast : ¬((if perr then (s.npPresented cab port e a).parity cab 2 port else s.npPresented cab port e a).npReqs cab port).any (fun e => e.ans.isSome) = true := by
    rw [hnone]
    decide
  simp only [exec_npCompletion, execNpCompletion, hfrz, hfind, hans, Option.getD_some, Bool.false_eq_true, reduceIte]
  exact congrArg Host.Outcome.next (if_neg hlast)

/-! Presence -/

/-- The presence of a port is one bit of the low six of CAB.PORT_STAT. -/
theorem presFld_bits {p : PresPort} {f : Fld} (h : presFld p = some f) : f.lo = f.hi ∧ f.hi < 6 := by
  cases p with
  | hdp | hrp => exact nomatch h
  | wrp c | wwp c | np0 c | np1 c | hfp c | seq c =>
    obtain rfl := Option.some.inj h
    exact ⟨rfl, Nat.le_of_ble_eq_true rfl⟩

/-- A bit that was written reads as written. -/
theorem State.bit_putb_same (s : State) {f : Fld} (b : Bool) (h1 : f.lo = f.hi) (h32 : f.hi < 32) : (s.putb f b).bit f = b := by
  have hw : f.width = 1 := by unfold Fld.width; omega
  unfold State.bit State.putb
  rw [State.f_put_same _ _ _ h1.le h32, hw]
  cases b <;> rfl

/-- The count of the outstanding requests of a narrow port is apart from the presence bits. -/
theorem State.bit_forgetPort (s : State) (cab port : Nat) {f : Fld} (h1 : f.lo = f.hi) (h6 : f.hi < 6) :
    (s.forgetPort cab port (npOut cab port)).bit f = s.bit f := by
  have hbits : (npOut cab port).lo ≤ (npOut cab port).hi ∧ (npOut cab port).hi < 32 ∧ 6 ≤ (npOut cab port).lo := by
    unfold npOut
    split <;> exact ⟨Nat.le_of_ble_eq_true rfl, Nat.le_of_ble_eq_true rfl, Nat.le_of_ble_eq_true rfl⟩
  obtain ⟨hle, h32, hlo⟩ := hbits
  unfold State.bit
  exact congrArg (· != 0) (State.f_put_apart _ _ _ _ hle h32 h1.le (.inr (by omega)))

theorem State.bit_outLow (s : State) (i : Nat) (f : Fld) : (s.outLow i).bit f = s.bit f := rfl

/-- A port that goes away or comes shows its presence bit all the same. -/
theorem State.bit_portLow (s : State) (p : PresPort) {f : Fld} (h1 : f.lo = f.hi) (h6 : f.hi < 6) : (s.portLow p).bit f = s.bit f := by
  cases p with
  | np0 c => exact (State.bit_outLow _ _ f).trans (s.bit_forgetPort c 0 h1 h6)
  | np1 c => exact (State.bit_outLow _ _ f).trans (s.bit_forgetPort c 1 h1 h6)
  | wrp c | wwp c | hfp c | seq c | hdp | hrp => rfl

theorem State.bit_portHigh (s : State) (p : PresPort) (f : Fld) : (s.portHigh p).bit f = s.bit f := by
  cases p <;> rfl

theorem presCab_of_presFld {p : PresPort} {f : Fld} (h : presFld p = some f) : ∃ c, presCab p = some c := by
  cases p with
  | hdp | hrp => exact nomatch h
  | wrp c | wwp c | np0 c | np1 c | hfp c | seq c => exact ⟨_, rfl⟩

/-- The register shows the level of a port that has a bit, low in an unmapped cabinet (R137, R143). -/
theorem State.bit_takePresent (s : State) {p : PresPort} {f : Fld} (hf : presFld p = some f) :
    (s.takePresent p).bit f = (s.present.contains p && (presCab p).any (fun c => s.inMap c)) := by
  obtain ⟨h1, h6⟩ := presFld_bits hf
  obtain ⟨c, hc⟩ := presCab_of_presFld hf
  have hshow (b : Bool) : (s.putb f b).bit f = b := s.bit_putb_same b h1 (by omega)
  unfold State.takePresent
  simp only [hf, hc, Option.any_some]
  split_ifs
  · exact hshow _
  · exact (State.bit_portHigh _ _ _).trans (hshow _)
  · exact (State.bit_portLow _ _ h1 h6).trans (hshow _)
  · exact hshow _

/-- A port without a bit writes no register. -/
theorem State.takePresent_regs (s : State) {p : PresPort} (hp : presFld p = none) : (s.takePresent p).regs = s.regs := by
  cases p with
  | wrp c | wwp c | np0 c | np1 c | hfp c | seq c => exact nomatch hp
  | hdp | hrp =>
    unfold State.takePresent
    dsimp only [presFld]
    split_ifs <;> rfl

/-- The list of present ports holds a port that has come and not one that has gone. -/
theorem contains_presentWith (l : List PresPort) (p : PresPort) (level : Bool) :
    (if level then (if l.contains p then l else l ++ [p]) else l.filter (fun x => !decide (x = p))).contains p = level := by
  cases level with
  | false => simp
  | true => by_cases h : p ∈ l <;> simp [h]

theorem State.mem_setPresent (s : State) (p : PresPort) (level : Bool) : p ∈ (s.setPresent p level).present ↔ level = true := by
  have hkeep (u : State) : (u.takePresent p).present = u.present :=
    (State.takePresent_keeps p (List.Subset.refl _) (.refl u)).frame .present (by decide)
  rw [← List.contains_iff_mem, State.setPresent, hkeep, contains_presentWith]

theorem State.bit_setPresent (s : State) {p : PresPort} {f : Fld} (level : Bool) (hf : presFld p = some f) :
    (s.setPresent p level).bit f = (level && (presCab p).any (fun c => s.inMap c)) :=
  (State.bit_takePresent _ hf).trans (congrArg (· && (presCab p).any (fun c => s.inMap c)) (contains_presentWith s.present p level))

/-- A change of the input whose third fc has come is taken (R140). -/
theorem exec_presentChange_of_due {s : State} {port : PresPort} {level : Bool} {n : Nat} (hwait : (port, level, n) ∈ s.presWait) (hdue : n ≤ s.time.fc) :
    exec (.presentChange port level) s = .next (({ s with presWait := s.presWait.filter (fun e =>
      !(decide (e.1 = port) && decide (e.2.1 = level) && decide (e.2.2 ≤ s.time.fc))) } : State).setPresent port level) := by
  have hhit : s.presWait.any (fun e => decide (e.1 = port) && decide (e.2.1 = level) && decide (e.2.2 ≤ s.time.fc)) = true :=
    List.any_eq_true.mpr ⟨_, hwait, by simpa using hdue⟩
  rw [exec_presentChange, execPresentChange]
  exact congrArg Host.Outcome.next (if_pos hhit)

/-- Settles O15, clause by clause: the requests by one lemma over parity error and fence, the completions by one over the parity error. -/
theorem narrowPortsAcceptAndComplete : Obligations.NarrowPortsAcceptAndComplete := by
  refine ⟨?request, ?fenced, ?requestParity, ?parityUnbound, ?parityBound, ?accept, ?completion, ?completionParity, ?input, ?taken⟩
  case request =>
    intro cab port we addr be data tag s hack hfen
    simp only [exec_npRequest_of_ack we addr be data false hack, hfen, Bool.false_eq_true, reduceIte]
  case fenced =>
    intro cab port we addr be data tag s hack hfen
    simp only [exec_npRequest_of_ack we addr be data false hack, hfen, Bool.false_eq_true, reduceIte]
  case requestParity =>
    intro cab port we addr be data tag s hack hfen
    simp only [exec_npRequest_of_ack we addr be data true hack, hfen, Bool.false_eq_true, reduceIte]
  case parityUnbound =>
    intro cab k r s heag
    rw [State.parity_eq, heag]
  case parityBound =>
    intro cab k r c s heag
    rw [State.parity_eq, heag]
  case accept =>
    intro cab port q tag s
    exact ⟨rfl, s.sameRegs_npAccept cab port q tag⟩
  case completion =>
    intro cab port e a s hfrz hone hans hgate hread hok
    refine ⟨_, exec_npCompletion_of_one false hfrz hone hans hgate, ?_, s.npPresented_ports cab port e a⟩
    simp only [State.npPresented, State.countResp, hread, hok, State.present!, State.put_outs, State.put_time, Bool.false_eq_true, reduceIte]
  case completionParity =>
    intro cab port e a s hfrz hone hans hgate
    simp only [exec_npCompletion_of_one _ hfrz hone hans hgate, ran, Bool.false_eq_true, reduceIte]
  case input =>
    intro port level s hnone
    simp only [exec_presentChange, execPresentChange, hnone, Bool.false_eq_true, reduceIte]
  case taken =>
    intro port level n s hwait hdue
    exact ⟨_, exec_presentChange_of_due hwait hdue, State.mem_setPresent _ port level, fun f hf => State.bit_setPresent _ level hf,
      fun hnone => State.takePresent_regs _ hnone⟩

end Sys2Proof.Machine
end

section
/-! PROOFS. A debug halt that ends on the fc on which it was raised, against the clause of the write that ends it. -/
namespace Sys2Proof.Machine

/-- A die at reset on which a debug session has opened and DBG has set HALT, both on the present fc: the debug freeze begins 3 fc later (R73). -/
def haltRoseNow : State :=
  let s := ran State.reset (exec .debugSessionOpen State.reset)
  ran s (exec (.debugHalt .dbg 1) s)

/-- DBG's write of 0 on the same fc leaves the line high: the freeze is to have at least one frozen fc, so its fall waits for the next fc (R73). -/
theorem debugHalt_haltRoseNow : FrzSrc.debug ∈ (ran haltRoseNow (exec (.debugHalt .dbg 0) haltRoseNow)).frz.lines := by
  decide

/-- Refutes O58: its clause for the write that clears HALT has the line of the debug freeze low after every such write. A write of 0 on the fc of
the write of 1 leaves the line high until the next fc (`State.frzFall`). -/
theorem not_testAndDebugPortsAnswer : ¬ Obligations.TestAndDebugPortsAnswer := by
  intro h
  obtain ⟨-, -, -, -, -, -, -, -, -, -, -, -, -, hclear, -⟩ := h
  obtain ⟨t, ht, -, hlow, -⟩ := hclear 0 haltRoseNow (by decide) (by decide)
  have hhigh := debugHalt_haltRoseNow
  rw [ht, ran] at hhigh
  exact hlow hhigh

end Sys2Proof.Machine
end

section
/-! PROOFS. A read of an assay pass in a bank with a retired macro, against the clause of the burst that ends. -/
namespace Sys2Proof.Machine

/-- The request for the first read of an assay pass over cabinet 0: words 0 and 1, one in each bank of pair 0 (R231). -/
def assayReadReq : PReq :=
  { acc := { id := 8, req := 6, home := 0, homeDie := 0, org := .asy 0 0, cls := .free, ctx := none, fa := 0, we := false, be := 2 ^ 64 - 1, dat := [], op := .acc },
    presented := true, since := 0, base := 0, urgent := false }

/-- A die on which SEC retires macro 0 of bank 0 on unfrozen fc 0, the stored word of row 0 there being wrong in that macro; the read is granted
on unfrozen fc 1, and its last fc has passed. -/
def readAfterRetirement : State :=
  let s := ((State.reset.put (cabState 0) 0).setValid 0 0 0).setCell (macroCell 0 0 0) 1
  let s := ran s (exec (.retireWrite .sec 0 0 0x20) s)
  let s := ({ s with time := { s.time with ufc := 1 } } : State).grant 0 0 assayReadReq
  { s with time := { s.time with ufc := 4 } }

/-- Its burst, from unfrozen fc 2 on, with the place of that fc in the order of all fc. -/
def assayReadBurst : Burst :=
  { req := assayReadReq, b0 := true, b1 := true, dur := 2, from' := 2, last := 3, dbg := false, wait := 1, prio := 0, urg := false, u := unfzAt 2 }

/-- The macro was retired before the burst began, so the read corrects nothing in it (R186): the pass counts no correction. -/
theorem looseBurstDone_readAfterRetirement :
    (ran readAfterRetirement (exec (.looseBurstDone 0 0) readAfterRetirement)).f (R.ASY_SUM_CE_COUNT 0) = 0 := by
  decide

/-- Refutes O16: its clause for the access burst that ends has the words of an assay pass noted as of `from'`, a number of fc, where `State.finish`
notes them as of `u`, the place of that fc in the order of all fc. A retirement is placed in that order too (`State.setRet`), and lies past every
such number: the clause counts a correction in a macro that was retired before the burst began. -/
theorem not_pairsDecideAndBurstsCommit : ¬ Obligations.PairsDecideAndBurstsCommit := by
  intro h
  obtain ⟨-, -, -, hdone, -⟩ := h
  have hnone := looseBurstDone_readAfterRetirement
  rw [hdone 0 0 assayReadBurst readAfterRetirement (by decide) (by decide) rfl, ran] at hnone
  exact absurd hnone (by decide)

end Sys2Proof.Machine
end

section
/-! PROOFS. The registers of the arbitration: priorities, AGE_LIMIT and the clear of the counters (R158, R159, R169 to R175). -/
namespace Sys2Proof.Machine

theorem exec_arbPrioWrite (m : Master) (cab : Cab) (v : W32) (s : State) : exec (.arbPrioWrite m cab v) s = execArbPrioWrite m cab v s := rfl

/-- A write that the station of a synthesized cabinet lets pass, with no lock on the registers, runs now (R48, R49, R422). -/
theorem State.row_atStation_of_go {s : State} {m : Master} {cab : Nat} (hsynth : s.synth cab = true) (hgo : s.stationOf cab = .go)
    (hfree : s.rgsShut (masterIdx m) = false) (i : Instr) (key : Nat) (f : State → State) : s.row m i (fun s => s.atStation m cab key f) = f s := by
  rw [State.row_of_open hfree, State.atStation, hgo, hsynth]
  rfl

/-! AGE_LIMIT -/

/-- The requests of the cabinet that are urgent stay so, and the old AGE_LIMIT is noted for the rest of this fc (R158). -/
def State.ageNoted (s : State) (cab : Nat) : State :=
  { s with loose := { s.loose with
      pairs := s.loose.pairs.map (fun e => if e.1 / 16 = cab then (e.1, { e.2 with queue := e.2.queue.map (fun q => { q with urgent := s.urgentReq cab q }) }) else e)
      ageWas := SMap.insert s.loose.ageWas cab (s.time.fc + 1, s.f (R.ARB_AGE_AGE_LIMIT cab)) } }

/-- The pairs of the cabinet at which requests wait look for urgent ones on the next fc (R158). -/
def State.urgencyLooks (s : State) (cab : Cab) : State :=
  (List.range 16).foldl (fun s j => if (s.pairSt cab j).queue.isEmpty then s else s.later .wall 1 (.requestUrgent cab (Fin.ofNat 16 j))) s

theorem exec_arbAgeWrite (m : Master) (cab : Cab) (v : W32) (s : State) :
    exec (.arbAgeWrite m cab v) s = .next (s.row m (.arbAgeWrite m cab v) (fun s => s.atStation m cab (R.ARB_AGE cab) (fun s =>
      ((s.ageNoted cab).put (R.ARB_AGE_AGE_LIMIT cab) (max 16 (v.toNat % 65536))).urgencyLooks cab))) := rfl

theorem State.reg_urgencyLooks (s : State) (cab : Cab) (k : Nat) : (s.urgencyLooks cab).reg k = s.reg k :=
  State.foldl_keeps_part (·.reg k) _ s fun u j => by split <;> rfl

theorem State.urgencyLooks_loose (s : State) (cab : Cab) : (s.urgencyLooks cab).loose = s.loose :=
  State.foldl_keeps_part (·.loose) _ s fun u j => by split <;> rfl

/-! ARB.CNT_CLR -/

/-- The three counters of requester `i` at the clear on fc `t` (R169). -/
def State.clearRequester (s : State) (cab t i : Nat) : State :=
  ((s.clearOn (R.ARB_GRANTS_COUNT cab i) t).put (R.ARB_WAIT_COUNT cab i) 0).clearOn (R.ARB_LONGEST_COUNT cab i) t

/-- The counters of the requesters below `n` that `v` selects (R173). -/
def State.clearSelected (s : State) (cab : Nat) (v : W32) (t n : Nat) : State :=
  (List.range n).foldl (fun s i => if v.toNat / 2 ^ i % 2 = 1 then s.clearRequester cab t i else s) s

/-- PREEMPT at the clear, when bit 11 of `v` is set (R173). -/
def State.clearPreempt (s : State) (cab : Nat) (v : W32) (t : Nat) : State :=
  if v.toNat / 2 ^ 11 % 2 = 1 then s.clearOn (R.ARB_PREEMPT_COUNT cab) t else s

theorem exec_arbCntClr (m : Master) (cab : Cab) (v : W32) (s : State) :
    exec (.arbCntClr m cab v) s = .next (s.row m (.arbCntClr m cab v) (fun s => s.atStation m cab (R.ARB_CNT_CLR cab) (fun s =>
      (s.clearSelected cab v s.time.fc 11).clearPreempt cab v s.time.fc))) := rfl

theorem div_mod_two_iff_getLsbD (v : W32) (i : Nat) : v.toNat / 2 ^ i % 2 = 1 ↔ v.getLsbD i = true := by
  rw [BitVec.getLsbD, Nat.testBit_eq_decide_div_mod_eq, decide_eq_true_iff]

/-- A cleared register holds what its own fc has counted (R169). -/
theorem State.f_clearOn_same (s : State) {g : Fld} (hle : g.lo ≤ g.hi) (h32 : g.hi < 32) (t : Nat) :
    (s.clearOn g t).f g = min (s.eventsOn g t) (2 ^ g.width - 1) := by
  have hpos := Nat.two_pow_pos g.width
  rw [State.clearOn, State.f_put_same _ _ _ hle h32, Nat.mod_eq_of_lt (by omega)]

theorem State.f_clearOn_key (s : State) {g k : Fld} (h : k.key ≠ g.key) (t : Nat) : (s.clearOn g t).f k = s.f k :=
  s.f_put_key _ _ _ h

theorem State.clearOn_counted (s : State) (g : Fld) (t : Nat) : (s.clearOn g t).counted = s.counted := s.put_counted _ _

theorem State.eventsOn_congr {s t : State} (h : t.counted = s.counted) (g : Fld) (n : Nat) : t.eventsOn g n = s.eventsOn g n := by
  rw [State.eventsOn, State.eventsOn, h]

/-- The registers of the counters stand apart (R174, R175). -/
theorem arbCounters_apart (cab i j : Nat) :
    R.ARB_GRANTS cab i ≠ R.ARB_WAIT cab j ∧ R.ARB_GRANTS cab i ≠ R.ARB_LONGEST cab j ∧ R.ARB_WAIT cab i ≠ R.ARB_LONGEST cab j ∧
      R.ARB_GRANTS cab i ≠ R.ARB_PREEMPT cab ∧ R.ARB_WAIT cab i ≠ R.ARB_PREEMPT cab ∧ R.ARB_LONGEST cab i ≠ R.ARB_PREEMPT cab := by
  unfold R.ARB_GRANTS R.ARB_WAIT R.ARB_LONGEST R.ARB_PREEMPT cabReg
  omega

/-- Each counter has a register for each requester (R175). -/
theorem arbCounters_inj {cab i j : Nat} (h : i ≠ j) :
    R.ARB_GRANTS cab i ≠ R.ARB_GRANTS cab j ∧ R.ARB_WAIT cab i ≠ R.ARB_WAIT cab j ∧ R.ARB_LONGEST cab i ≠ R.ARB_LONGEST cab j := by
  unfold R.ARB_GRANTS R.ARB_WAIT R.ARB_LONGEST cabReg
  omega

section
variable (s : State) (cab t : Nat)

theorem State.f_clearRequester_grants (j i : Nat) : (s.clearRequester cab t j).f (R.ARB_GRANTS_COUNT cab i) =
    if i = j then min (s.eventsOn (R.ARB_GRANTS_COUNT cab i) t) (2 ^ (R.ARB_GRANTS_COUNT cab i).width - 1) else s.f (R.ARB_GRANTS_COUNT cab i) := by
  obtain ⟨hwait, hlongest, -⟩ := arbCounters_apart cab i j
  rw [State.clearRequester, State.f_clearOn_key _ hlongest, State.f_put_key _ _ _ _ hwait]
  split
  next h => rw [h, State.f_clearOn_same _ (Nat.zero_le _) (Nat.le_of_ble_eq_true rfl)]
  next h => rw [State.f_clearOn_key _ (arbCounters_inj h).1]

theorem State.f_clearRequester_wait (j i : Nat) : (s.clearRequester cab t j).f (R.ARB_WAIT_COUNT cab i) = if i = j then 0 else s.f (R.ARB_WAIT_COUNT cab i) := by
  obtain ⟨-, -, hlongest, -⟩ := arbCounters_apart cab i j
  obtain ⟨hgrants, -⟩ := arbCounters_apart cab j i
  rw [State.clearRequester, State.f_clearOn_key _ hlongest]
  split
  next h => rw [h, State.f_put_same _ _ _ (Nat.zero_le _) (Nat.le_of_ble_eq_true rfl), Nat.zero_mod]
  next h => rw [State.f_put_key _ _ _ _ (arbCounters_inj h).2.1, State.f_clearOn_key _ hgrants.symm]

theorem State.f_clearRequester_longest (j i : Nat) : (s.clearRequester cab t j).f (R.ARB_LONGEST_COUNT cab i) =
    if i = j then min (s.eventsOn (R.ARB_LONGEST_COUNT cab i) t) (2 ^ (R.ARB_LONGEST_COUNT cab i).width - 1) else s.f (R.ARB_LONGEST_COUNT cab i) := by
  obtain ⟨-, hgrants, hwait, -⟩ := arbCounters_apart cab j i
  rw [State.clearRequester]
  split
  next h =>
    rw [h, State.f_clearOn_same _ (Nat.zero_le _) (Nat.le_of_ble_eq_true rfl), State.eventsOn_congr ((State.put_counted _ _ _).trans (State.clearOn_counted _ _ _))]
  next h => rw [State.f_clearOn_key _ (arbCounters_inj h).2.2, State.f_put_key _ _ _ _ hwait.symm, State.f_clearOn_key _ hgrants.symm]

theorem State.clearRequester_counted (j : Nat) : (s.clearRequester cab t j).counted = s.counted := by
  rw [State.clearRequester, State.clearOn_counted, State.put_counted, State.clearOn_counted]

theorem State.f_clearRequester_preempt (j : Nat) : (s.clearRequester cab t j).f (R.ARB_PREEMPT_COUNT cab) = s.f (R.ARB_PREEMPT_COUNT cab) := by
  obtain ⟨-, -, -, hgrants, hwait, hlongest⟩ := arbCounters_apart cab j j
  rw [State.clearRequester, State.f_clearOn_key _ hlongest.symm, State.f_put_key _ _ _ _ hwait.symm, State.f_clearOn_key _ hgrants.symm]

variable (v : W32) (n : Nat)

theorem State.clearSelected_succ : s.clearSelected cab v t (n + 1) =
    if v.toNat / 2 ^ n % 2 = 1 then (s.clearSelected cab v t n).clearRequester cab t n else s.clearSelected cab v t n := by
  rw [State.clearSelected, List.range_succ, List.foldl_append]
  rfl

theorem State.clearSelected_counted : (s.clearSelected cab v t n).counted = s.counted :=
  State.foldl_keeps_part (·.counted) _ s fun u j => by
    split
    · exact u.clearRequester_counted cab t j
    · rfl

theorem State.f_clearSelected_preempt : (s.clearSelected cab v t n).f (R.ARB_PREEMPT_COUNT cab) = s.f (R.ARB_PREEMPT_COUNT cab) :=
  State.foldl_keeps_part (·.f (R.ARB_PREEMPT_COUNT cab)) _ s fun u j => by
    split
    · exact u.f_clearRequester_preempt cab t j
    · rfl

/-- A counter that the clear of each requester leaves for the others: at a requester below `n` it is cleared where `v` selects that one. -/
theorem State.f_clearSelected {g : Nat → Fld} {new : Nat → Nat}
    (hstep : ∀ (u : State) (j i : Nat), u.counted = s.counted → (u.clearRequester cab t j).f (g i) = if i = j then new i else u.f (g i)) (i : Nat) :
    (s.clearSelected cab v t n).f (g i) = if i < n ∧ v.getLsbD i = true then new i else s.f (g i) := by
  induction n with
  | zero => simp [State.clearSelected]
  | succ n ih =>
    have hthis := hstep (s.clearSelected cab v t n) n i (s.clearSelected_counted cab t v n)
    rw [State.clearSelected_succ]
    simp only [div_mod_two_iff_getLsbD]
    by_cases hi : i = n
    · subst hi
      rw [if_pos rfl] at hthis
      simp only [Nat.lt_succ_self, Nat.lt_irrefl, true_and, false_and, reduceIte] at ih ⊢
      split
      · exact hthis
      · exact ih
    · have hlt : i < n + 1 ↔ i < n := by omega
      rw [if_neg hi] at hthis
      simp only [hlt]
      rw [← ih]
      split
      · exact hthis
      · rfl

theorem State.f_clearPreempt_same : (s.clearPreempt cab v t).f (R.ARB_PREEMPT_COUNT cab) =
    if v.getLsbD 11 = true then min (s.eventsOn (R.ARB_PREEMPT_COUNT cab) t) (2 ^ (R.ARB_PREEMPT_COUNT cab).width - 1) else s.f (R.ARB_PREEMPT_COUNT cab) := by
  unfold State.clearPreempt
  simp only [div_mod_two_iff_getLsbD]
  split
  · exact s.f_clearOn_same (Nat.zero_le _) (Nat.le_of_ble_eq_true rfl) t
  · rfl

theorem State.f_clearPreempt_key {g : Fld} (h : g.key ≠ R.ARB_PREEMPT cab) : (s.clearPreempt cab v t).f g = s.f g := by
  unfold State.clearPreempt
  split
  · exact s.f_clearOn_key h t
  · rfl

end

/-- Settles O17, clause by clause: the three counters of a requester by one lemma over the requesters cleared so far. -/
theorem arbitrationRegistersTakeEffect : Obligations.ArbitrationRegistersTakeEffect := by
  refine ⟨?prio, ?age, ?clear⟩
  case prio =>
    intro m cab v s hsynth hgo hfree
    rw [exec_arbPrioWrite, execArbPrioWrite, State.row_atStation_of_go hsynth hgo hfree]
  case age =>
    intro m cab v s hsynth hgo hfree
    refine ⟨_, (exec_arbAgeWrite m cab v s).trans (congrArg _ (State.row_atStation_of_go hsynth hgo hfree _ _ _)), ?_, ?_, ?_⟩
    · have hfits : max 16 (v.toNat % 65536) < 2 ^ (R.ARB_AGE_AGE_LIMIT cab).width := by
        show max 16 (v.toNat % 65536) < 65536
        omega
      rw [State.f, State.reg_urgencyLooks, ← State.f, State.f_put_same _ _ _ (Nat.zero_le _) (Nat.le_of_ble_eq_true rfl), Nat.mod_eq_of_lt hfits]
    · intro k hk
      rw [State.reg_urgencyLooks]
      exact State.sameRegs_put _ _ _ k hk
    · rw [State.urgencyLooks_loose]
      exact SMap.get_insert_same _ _ _ _
  case clear =>
    intro m cab v i s hsynth hgo hfree
    refine ⟨_, (exec_arbCntClr m cab v s).trans (congrArg _ (State.row_atStation_of_go hsynth hgo hfree _ _ _)), ?_⟩
    have hcounted := s.clearSelected_counted cab s.time.fc v 11
    obtain ⟨-, -, -, hgrants, hwait, hlongest⟩ := arbCounters_apart cab i i
    refine ⟨?_, ?_, ?_, ?_⟩
    · rw [State.f_clearPreempt_key _ _ _ _ hgrants, s.f_clearSelected cab s.time.fc v 11
        fun u j k h => (u.f_clearRequester_grants cab _ j k).trans (by rw [State.eventsOn_congr h])]
      simp only [i.isLt, true_and]
    · rw [State.f_clearPreempt_key _ _ _ _ hwait, s.f_clearSelected cab s.time.fc v 11
        fun u j k _ => u.f_clearRequester_wait cab _ j k]
      simp only [i.isLt, true_and]
    · rw [State.f_clearPreempt_key _ _ _ _ hlongest, s.f_clearSelected cab s.time.fc v 11
        fun u j k h => (u.f_clearRequester_longest cab _ j k).trans (by rw [State.eventsOn_congr h])]
      simp only [i.isLt, true_and]
    · rw [State.f_clearPreempt_same, State.f_clearSelected_preempt, State.eventsOn_congr hcounted]

end Sys2Proof.Machine
end

section
/-! PROOFS. A loose flit that has waited AGE_LIMIT fc at an output, against the clause of the output's grant. -/
namespace Sys2Proof.Machine

/-- A request of NP0 of cabinet 0 for cabinet 1, at the head of the local queue of the east output since unfrozen fc 0. -/
def agedFlit : LFlit :=
  { acc := { id := 8, req := 0, home := 0, homeDie := 0, org := .np 0 0 0, cls := .loose, ctx := none, fa := 0x400000, we := false, be := 2 ^ 64 - 1, dat := [], op := .acc },
    ans := none, src := 0, dst := 1, dstDie := 0, cur := 0, port := 4, out := 1, hops := 0, det := none, lvl := 0, ready := 0, since := 1 }

/-- A die with cabinets 0 and 1 on which the flit stands there as many fc later as AGE_LIMIT says. -/
def flitWaitedLong : State :=
  let s := State.reset.puts [(R.IDV_CMAP_CTL_G0_LOG, 2), (mapValid 0 0, 1), (mapPhys 0 1, 1), (mapValid 0 1, 1)]
  { s with time := { s.time with ufc := s.f (R.ARB_AGE_AGE_LIMIT 0) }, loose := { s.loose with flits := [agedFlit] } }

/-- That flit as the output picks it: urgent by its wait (R166). -/
def agedFlitHot : LFlit := { agedFlit with hot := true }

/-- The output sends the flit on, and in the next cabinet it is not urgent by the wait it had at this output. -/
theorem linkOutputGrant_flitWaitedLong :
    (ran flitWaitedLong (exec (.linkOutputGrant 0 .e) flitWaitedLong)).loose.flits.map (fun f => f.hot) = [false] := by
  decide

/-- Refutes O18: its clause for the grant has the flit stand in the next cabinet as it was picked but for its place, so with the urgency and the
wait it had at the output. `execLinkOutputGrant` clears both (`LFlit.hot`, `LFlit.waited`): a flit that AGE_LIMIT fc at the output have made
urgent goes on at its own level. -/
theorem not_looseFlitsTravelTheMesh : ¬ Obligations.LooseFlitsTravelTheMesh := by
  intro h
  obtain ⟨-, -, -, hgrant⟩ := h
  obtain ⟨t, ht, hflits, -⟩ := hgrant 0 .e 1 agedFlitHot none flitWaitedLong (by decide) (by decide) (by decide) (by decide) (by decide)
  have hcool := linkOutputGrant_flitWaitedLong
  rw [ht, ran, hflits] at hcool
  exact absurd hcool (by decide)

end Sys2Proof.Machine
end

section
/-! SUPPORT. The arithmetic of GF(2^16) as the code computes it (R177): multiplication is linear, commutative and associative, and the powers
of α at the eighteen positions of a codeword are apart. -/
namespace Sys2Proof.Machine

/-! Linearity -/

theorem xor_xor_xor_comm (a b c d : Sym) : (a ^^^ b) ^^^ (c ^^^ d) = (a ^^^ c) ^^^ (b ^^^ d) := by ac_rfl

theorem ite_xor_zero (p q : Bool) (a : Sym) : (if (p ^^ q) = true then a else 0) = (if p = true then a else 0) ^^^ (if q = true then a else 0) := by
  cases p <;> cases q <;> simp

theorem gfX_xor (a b : Sym) : gfX (a ^^^ b) = gfX a ^^^ gfX b := by
  rw [gfX, BitVec.shiftLeft_xor_distrib, BitVec.getLsbD_xor, ite_xor_zero, xor_xor_xor_comm]
  rfl

/-- A map that keeps sums and multiples by α, so that it keeps every product. -/
structure GfLinear (f : Sym → Sym) : Prop where
  map_zero : f 0 = 0
  map_xor : ∀ a b, f (a ^^^ b) = f a ^^^ f b
  map_gfX : ∀ a, f (gfX a) = gfX (f a)

theorem GfLinear.map_gfMulFrom {f : Sym → Sym} (h : GfLinear f) (n i : Nat) (a b : Sym) : f (gfMulFrom n i a b) = gfMulFrom n i (f a) b := by
  induction n generalizing i a with
  | zero => exact h.map_zero
  | succ n ih => rw [gfMulFrom, gfMulFrom, h.map_xor, ih, h.map_gfX, apply_ite f, h.map_zero]

theorem GfLinear.map_gfMul {f : Sym → Sym} (h : GfLinear f) (a b : Sym) : f (gfMul a b) = gfMul (f a) b := h.map_gfMulFrom 16 0 a b

theorem gfX_linear : GfLinear gfX := ⟨rfl, gfX_xor, fun _ => rfl⟩

theorem gfMulFrom_zero (n i : Nat) (b : Sym) : gfMulFrom n i 0 b = 0 := by
  induction n generalizing i with
  | zero => rfl
  | succ n ih =>
    rw [gfMulFrom, gfX_linear.map_zero, ih, ite_self]
    rfl

theorem gfMulFrom_xor (n i : Nat) (a a' b : Sym) : gfMulFrom n i (a ^^^ a') b = gfMulFrom n i a b ^^^ gfMulFrom n i a' b := by
  induction n generalizing i a a' with
  | zero => simp [gfMulFrom]
  | succ n ih =>
    rw [gfMulFrom, gfMulFrom, gfMulFrom, gfX_xor, ih, xor_xor_xor_comm]
    congr 1
    split <;> simp

theorem gfMul_linear (b : Sym) : GfLinear (gfMul · b) :=
  ⟨gfMulFrom_zero 16 0 b, fun a a' => gfMulFrom_xor 16 0 a a' b, fun a => (gfX_linear.map_gfMul a b).symm⟩

/-! One, commutativity, associativity -/

theorem gfX_twoPow {i : Nat} (h : i < 15) : gfX (BitVec.twoPow 16 i) = BitVec.twoPow 16 (i + 1) := by
  have htop : (BitVec.twoPow 16 i).getLsbD 15 = false := by simp; omega
  rw [gfX, htop, BitVec.twoPow_eq, BitVec.twoPow_eq, ← BitVec.shiftLeft_add]
  exact BitVec.xor_zero

/-- Below the degree the multiples of one by powers of α are single bits, and their sum gives back the bits of `b`. -/
theorem getLsbD_gfMulFrom_twoPow (b : Sym) (j : Nat) {n i : Nat} (h : i + n ≤ 16) :
    (gfMulFrom n i (BitVec.twoPow 16 i) b).getLsbD j = (b.getLsbD j && decide (i ≤ j ∧ j < i + n)) := by
  have hbit (i : Nat) (hi : i < 16) : (if b.getLsbD i = true then BitVec.twoPow 16 i else 0).getLsbD j = (b.getLsbD j && decide (j = i)) := by
    by_cases hj : j = i
    · subst hj
      cases hb : b.getLsbD j <;> simp [hi]
    · split <;> simp [hj, Ne.symm hj]
  induction n generalizing i with
  | zero => simp [gfMulFrom]
  | succ n ih =>
    have hrest : (gfMulFrom n (i + 1) (gfX (BitVec.twoPow 16 i)) b).getLsbD j = (b.getLsbD j && decide (i + 1 ≤ j ∧ j < i + 1 + n)) := by
      rcases Nat.eq_zero_or_pos n with rfl | hn
      · simp [gfMulFrom]
      · rw [gfX_twoPow (by omega), ih (by omega)]
    rw [gfMulFrom, BitVec.getLsbD_xor, hbit i (by omega), hrest]
    by_cases hj : j = i
    · subst hj
      simp
    · have hrange : (i ≤ j ∧ j < i + (n + 1)) ↔ (i + 1 ≤ j ∧ j < i + 1 + n) := by omega
      simp [hj, hrange]

theorem one_gfMul (b : Sym) : gfMul 1 b = b := by
  refine BitVec.eq_of_getLsbD_eq fun j hj => ?_
  have h : (gfMul 1 b).getLsbD j = (b.getLsbD j && decide (0 ≤ j ∧ j < 0 + 16)) := getLsbD_gfMulFrom_twoPow b j (le_refl 16)
  simpa [hj] using h

theorem gfMul_comm (a b : Sym) : gfMul a b = gfMul b a :=
  calc gfMul a b = gfMul (gfMul 1 a) b := by rw [one_gfMul]
    _ = gfMul (gfMul 1 b) a := (gfMul_linear b).map_gfMul 1 a
    _ = gfMul b a := by rw [one_gfMul]

theorem gfMul_assoc (a b c : Sym) : gfMul (gfMul a b) c = gfMul a (gfMul b c) :=
  calc gfMul (gfMul a b) c = gfMul (gfMul a c) b := (gfMul_linear c).map_gfMul a b
    _ = gfMul (gfMul c a) b := by rw [gfMul_comm a c]
    _ = gfMul (gfMul c b) a := (gfMul_linear b).map_gfMul c a
    _ = gfMul a (gfMul b c) := by rw [gfMul_comm c b, gfMul_comm a]

theorem xor_gfMul (a a' b : Sym) : gfMul (a ^^^ a') b = gfMul a b ^^^ gfMul a' b := (gfMul_linear b).map_xor a a'

theorem gfMul_xor (a b b' : Sym) : gfMul a (b ^^^ b') = gfMul a b ^^^ gfMul a b' := by
  rw [gfMul_comm, xor_gfMul, gfMul_comm b, gfMul_comm b']

theorem gfMul_zero (a : Sym) : gfMul a 0 = 0 := (gfMul_comm a 0).trans (gfMul_linear a).map_zero

/-! Powers of α -/

/-- A factor with an inverse takes nothing but zero to zero. -/
theorem eq_zero_of_gfMul_eq_zero {a c e : Sym} (hc : gfMul c a = 1) (h : gfMul a e = 0) : e = 0 := by
  rw [← one_gfMul e, ← hc, gfMul_assoc, h, gfMul_zero]

theorem gfAlpha_succ_gfMul (k : Nat) (e : Sym) : gfMul (gfAlpha (k + 1)) e = gfX (gfMul (gfAlpha k) e) := (gfMul_linear e).map_gfX (gfAlpha k)

theorem eq_zero_of_gfX_eq_zero {a : Sym} (h : gfX a = 0) : a = 0 :=
  eq_zero_of_gfMul_eq_zero (a := gfX 1) (c := 0x8805) (by decide) (by rw [← gfX_linear.map_gfMul, one_gfMul, h])

theorem eq_zero_of_gfAlpha_gfMul {k : Nat} {e : Sym} (h : gfMul (gfAlpha k) e = 0) : e = 0 := by
  induction k with
  | zero => rwa [gfAlpha, one_gfMul] at h
  | succ k ih => exact ih (eq_zero_of_gfX_eq_zero (by rw [← gfAlpha_succ_gfMul, h]))

theorem gfAlpha_add (i d : Nat) : gfAlpha (i + d) = gfMul (gfAlpha i) (gfAlpha d) := by
  induction i with
  | zero => rw [Nat.zero_add, gfAlpha, one_gfMul]
  | succ i ih => rw [gfAlpha_succ_gfMul, Nat.succ_add, gfAlpha, ih]

/-- The powers of α from the first to the seventeenth differ from one, with the inverse of the difference (R177). -/
theorem gfInv_one_xor_gfAlpha : ∀ d : Fin 17, gfMul (gfInv (1 ^^^ gfAlpha (d + 1))) (1 ^^^ gfAlpha (d + 1)) = 1 := by decide +kernel

/-- No two positions of a codeword give the same multiple of an error. -/
theorem eq_zero_of_gfAlpha_gfMul_eq {i j : Nat} (hij : i < j) (hj : j < 18) {e : Sym} (h : gfMul (gfAlpha i) e = gfMul (gfAlpha j) e) : e = 0 := by
  obtain ⟨d, rfl⟩ : ∃ d, j = i + (d + 1) := ⟨j - i - 1, by omega⟩
  have hdiff : gfMul (gfAlpha i) (gfMul (1 ^^^ gfAlpha (d + 1)) e) = 0 := by
    rw [xor_gfMul, one_gfMul, gfMul_xor, ← gfMul_assoc, ← gfAlpha_add, ← h, BitVec.xor_self]
    rfl
  exact eq_zero_of_gfMul_eq_zero (gfInv_one_xor_gfAlpha ⟨d, by omega⟩) (eq_zero_of_gfAlpha_gfMul hdiff)

end Sys2Proof.Machine
end

section
/-! PROOFS. The code of a stored word (R178, R180): the syndromes of a codeword and of one with an error in one symbol, and what the decoder
makes of them. -/
namespace Sys2Proof.Machine

/-! Sums of symbols -/

theorem foldl_xor (a : Sym) (l : List Sym) : l.foldl (· ^^^ ·) a = a ^^^ gfSum l := by
  induction l generalizing a with
  | nil => exact BitVec.xor_zero.symm
  | cons r l ih =>
    rw [gfSum, List.foldl_cons, List.foldl_cons, ih, ih]
    simp [BitVec.xor_assoc]

theorem gfSum_cons (r : Sym) (l : List Sym) : gfSum (r :: l) = r ^^^ gfSum l := by
  rw [gfSum, List.foldl_cons, foldl_xor]
  simp

theorem gfSum_append (l l' : List Sym) : gfSum (l ++ l') = gfSum l ^^^ gfSum l' := by
  rw [gfSum, List.foldl_append, foldl_xor]
  rfl

theorem gfWeighted_append (k : Nat) (l l' : List Sym) : gfWeighted k (l ++ l') = gfWeighted k l ^^^ gfWeighted (k + l.length) l' := by
  induction l generalizing k with
  | nil => exact BitVec.zero_xor.symm
  | cons r l ih =>
    rw [List.cons_append, gfWeighted, gfWeighted, ih, BitVec.xor_assoc, List.length_cons, Nat.add_right_comm, Nat.add_assoc]

/-! An error in one symbol -/

theorem symAdd_cons_zero (r e : Sym) (l : List Sym) : symAdd (r :: l) 0 e = (r ^^^ e) :: l := rfl

theorem symAdd_cons_succ (r e : Sym) (l : List Sym) (k : Nat) : symAdd (r :: l) (k + 1) e = r :: symAdd l k e := rfl

/-- The same error twice is no error. -/
theorem symAdd_symAdd (l : List Sym) (k : Nat) (e : Sym) : symAdd (symAdd l k e) k e = l := by
  induction l generalizing k with
  | nil => rfl
  | cons r l ih =>
    cases k with
    | zero => rw [symAdd_cons_zero, symAdd_cons_zero, BitVec.xor_assoc, BitVec.xor_self, BitVec.xor_zero]
    | succ k => rw [symAdd_cons_succ, symAdd_cons_succ, ih]

/-- An error adds itself to the first syndrome. -/
theorem gfSum_symAdd {l : List Sym} {k : Nat} (h : k < l.length) (e : Sym) : gfSum (symAdd l k e) = gfSum l ^^^ e := by
  induction l generalizing k with
  | nil => exact absurd h (Nat.not_lt_zero k)
  | cons r l ih =>
    cases k with
    | zero => rw [symAdd_cons_zero, gfSum_cons, gfSum_cons, BitVec.xor_assoc, BitVec.xor_assoc, BitVec.xor_comm e]
    | succ k => rw [symAdd_cons_succ, gfSum_cons, gfSum_cons, ih (Nat.lt_of_succ_lt_succ h), BitVec.xor_assoc]

/-- An error adds its multiple by the power of α at its position to the second. -/
theorem gfWeighted_symAdd {l : List Sym} {k : Nat} (h : k < l.length) (e : Sym) (i : Nat) :
    gfWeighted i (symAdd l k e) = gfWeighted i l ^^^ gfMul (gfAlpha (i + k)) e := by
  induction l generalizing k i with
  | nil => exact absurd h (Nat.not_lt_zero k)
  | cons r l ih =>
    cases k with
    | zero =>
      rw [symAdd_cons_zero, gfWeighted, gfWeighted, gfMul_xor, BitVec.xor_assoc, BitVec.xor_assoc, BitVec.xor_comm (gfWeighted _ l)]
      rfl
    | succ k =>
      rw [symAdd_cons_succ, gfWeighted, gfWeighted, ih (Nat.lt_of_succ_lt_succ h), BitVec.xor_assoc, Nat.add_right_comm, Nat.add_assoc]

/-! Codewords -/

theorem length_wordSyms (w : W256) : (wordSyms w).length = 16 := by simp [wordSyms]

theorem length_encodeWord (w : W256) : (encodeWord w).length = 18 := by simp [encodeWord, length_wordSyms]

/-- The two check symbols make the sum of all symbols zero (R178). -/
theorem gfSum_encodeWord (w : W256) : gfSum (encodeWord w) = 0 := by
  unfold encodeWord
  dsimp only
  generalize gfMul _ gfC16Inv = c
  rw [gfSum_append]
  generalize gfSum (wordSyms w) = a
  calc a ^^^ gfSum [c, a ^^^ c] = (a ^^^ c) ^^^ (a ^^^ c) := by simp [gfSum]
    _ = 0 := BitVec.xor_self

/-- They make the weighted sum zero too: `gfC16Inv` is the inverse of α^16 + α^17 (R178). -/
theorem gfWeighted_encodeWord (w : W256) : gfWeighted 0 (encodeWord w) = 0 := by
  have hinv : gfMul gfC16Inv (gfAlpha 16 ^^^ gfAlpha 17) = 1 := by decide
  have h17 : (0x2016 : Sym) = gfAlpha 17 := by decide
  unfold encodeWord
  dsimp only
  rw [gfWeighted_append, length_wordSyms, Nat.zero_add, gfMul_comm _ 0x2016, h17]
  generalize gfSum (wordSyms w) = a
  generalize gfWeighted 0 (wordSyms w) = b
  have hchecks (c : Sym) : gfWeighted 16 [c, a ^^^ c] = gfMul (gfAlpha 17) a ^^^ gfMul c (gfAlpha 16 ^^^ gfAlpha 17) := by
    rw [gfWeighted, gfWeighted, gfWeighted, gfMul_xor, gfMul_comm c, xor_gfMul]
    simp
    ac_rfl
  rw [hchecks, gfMul_assoc, hinv, gfMul_comm _ 1, one_gfMul]
  simp

/-- Digits to the base 2^16 give back the number (R18). -/
theorem foldr_digits (v n : Nat) : (List.range n).foldr (fun m t => v / 65536 ^ m % 65536 + 65536 * t) 0 = v % 65536 ^ n := by
  induction n generalizing v with
  | zero => simp [Nat.mod_one]
  | succ n ih =>
    rw [List.range_succ_eq_map, List.foldr_cons, List.foldr_map, Nat.pow_succ', Nat.mod_mul, ← ih (v / 65536)]
    simp [Nat.pow_succ', Nat.div_div_eq_div_mul]

theorem symsWord_encodeWord (w : W256) : symsWord (encodeWord w) = w := by
  have htake : (encodeWord w).take 16 = wordSyms w := List.take_left' (length_wordSyms w)
  have hdigit (m : Nat) : (w.extractLsb' (16 * m) 16).toNat = w.toNat / 65536 ^ m % 65536 := by
    rw [BitVec.extractLsb'_toNat, Nat.shiftRight_eq_div_pow, Nat.pow_mul]
  rw [symsWord, htake, wordSyms, List.foldr_map]
  simp only [hdigit]
  rw [foldr_digits]
  have hlt : w.toNat < 65536 ^ 16 := w.isLt
  rw [Nat.mod_eq_of_lt hlt, BitVec.ofNat_toNat, BitVec.setWidth_eq]

theorem decodeSyms_of_zero {r : List Sym} (h0 : gfSum r = 0) (h1 : gfWeighted 0 r = 0) (strict : Bool) :
    decodeSyms strict [] r = { ok := true, word := symsWord r, pos := none, s0 := 0, s1 := 0 } := by
  simp [decodeSyms, h0, h1]

/-- The decoder finds the position of an error by its multiple (R180). -/
theorem find_position {k : Nat} {e : Sym} (hk : k < 18) (he : e ≠ 0) :
    (List.range 18).find? (fun i => decide (gfMul (gfAlpha k) e = gfMul (gfAlpha i) e)) = some k := by
  rw [List.find?_range_eq_some]
  refine ⟨by simp, List.mem_range.mpr hk, fun i hi => ?_⟩
  simpa using fun h => he (eq_zero_of_gfAlpha_gfMul_eq hi hk h.symm)

section
variable {r : List Sym} {k : Nat} {e : Sym} (hlen : r.length = 18) (hsum : gfSum r = 0) (hweighted : gfWeighted 0 r = 0) (hk : k < 18)
include hlen hsum hweighted hk

/-- The syndromes of a codeword with an error in one symbol. -/
theorem syndromes_symAdd (e : Sym) : gfSum (symAdd r k e) = e ∧ gfWeighted 0 (symAdd r k e) = gfMul (gfAlpha k) e := by
  rw [gfSum_symAdd (by omega), gfWeighted_symAdd (by omega), hsum, hweighted, Nat.zero_add]
  simp

/-- An error in one symbol is corrected at its position (R180). -/
theorem decodeSyms_symAdd (he : e ≠ 0) :
    decodeSyms false [] (symAdd r k e) = { ok := true, word := symsWord r, pos := some k, s0 := e, s1 := gfMul (gfAlpha k) e } := by
  obtain ⟨h0, h1⟩ := syndromes_symAdd hlen hsum hweighted hk e
  have hne : gfMul (gfAlpha k) e ≠ 0 := fun h => he (eq_zero_of_gfAlpha_gfMul h)
  simp only [decodeSyms, h0, h1, he, hne, find_position hk he, symAdd_symAdd, ne_eq, not_false_eq_true, and_self, Bool.false_eq_true,
    reduceIte]

/-- An error in a retired macro is filled as an erasure (R180). -/
theorem decodeSyms_symAdd_retired (strict : Bool) (e : Sym) :
    decodeSyms strict [k] (symAdd r k e) = { ok := true, word := symsWord r, pos := none, s0 := e, s1 := gfMul (gfAlpha k) e } := by
  obtain ⟨h0, h1⟩ := syndromes_symAdd hlen hsum hweighted hk e
  simp only [decodeSyms, h0, h1, symAdd_symAdd, reduceIte]

end

/-- Settles O10: the stored symbols are a codeword, and the decoder takes the error of one symbol out again. -/
theorem storedWordsAreCorrected : Obligations.StoredWordsAreCorrected := by
  intro w k e hk
  have hlen := length_encodeWord w
  have hsum := gfSum_encodeWord w
  have hweighted := gfWeighted_encodeWord w
  have hword := symsWord_encodeWord w
  refine ⟨fun strict => ?_, fun he => ?_, fun strict => ?_⟩
  · rw [decodeSyms_of_zero hsum hweighted, hword]
  · rw [decodeSyms_symAdd hlen hsum hweighted hk he, hword]
  · rw [decodeSyms_symAdd_retired hlen hsum hweighted hk, hword]

end Sys2Proof.Machine
end

section
/-! SUPPORT. Fields that share no bit, operations that each change one field, and a register write through the station of its cabinet by a master that the register
accepts (R12, R48, R422). -/
namespace Sys2Proof.Machine

/-- Two fields of two registers, or of one register without a common bit. -/
def Fld.apart (f g : Fld) : Prop := f.key ≠ g.key ∨ f.hi < g.lo ∨ g.hi < f.lo

/-- A field apart from the one written reads as before. -/
theorem State.f_put_of_apart (s : State) {f g : Fld} (n : Nat) (h : f.lo ≤ f.hi) (h32 : f.hi < 32) (hg : g.lo ≤ g.hi) (ha : f.apart g) :
    (s.put f n).f g = s.f g := by
  rcases ha with hkey | hbits
  · exact s.f_put_key f g n hkey.symm
  · exact s.f_put_apart f g n h h32 hg hbits

/-- A number that fits into a field reads back as it was written. -/
theorem State.f_put_fits (s : State) {f : Fld} {n : Nat} (h : f.lo ≤ f.hi) (h32 : f.hi < 32) (hn : n < 2 ^ f.width) : (s.put f n).f f = n := by
  rw [s.f_put_same f n h h32, Nat.mod_eq_of_lt hn]

/-- A field is one of its register's, so it reads the same when the register does. -/
theorem State.f_congr {s t : State} {g : Fld} (h : t.reg g.key = s.reg g.key) : t.f g = s.f g := congrArg g.of h

theorem State.f_err (s : State) (e : ErrRec) (g : Fld) : (s.err e).f g = s.f g := rfl

theorem State.bit_eq_false {s : State} {g : Fld} : s.bit g = false ↔ s.f g = 0 := by simp [State.bit]

theorem State.f_eq_one_of_bit {s : State} {g : Fld} (hw : g.width = 1) (h : s.bit g = true) : s.f g = 1 := by
  have hne : s.f g ≠ 0 := by simpa [State.bit] using h
  have hlt : s.f g < 2 := by
    rw [State.f, Fld.of, hw]
    exact Nat.mod_lt _ (by decide)
  omega

/-- A write of an accepted master, of a synthesized cabinet whose station lets it pass, with no lock on the registers, runs now. -/
theorem State.row_gateAt_of_go {s : State} {m : Master} {cab : Nat} {ok : Bool} (hsynth : s.synth cab = true) (hgo : s.stationOf cab = .go) (hok : ok = true)
    (hfree : s.rgsShut (masterIdx m) = false) (i : Instr) (key : Nat) (f : State → State) : s.row m i (fun s => s.gateAt ok m cab key f) = f s := by
  subst hok
  exact State.row_atStation_of_go hsynth hgo hfree i key f

end Sys2Proof.Machine
end

section
/-! PROOFS. Retirements of macros (R186 to R188, R212). -/
namespace Sys2Proof.Machine

/-- The note that the macro has reached the limit is taken off (R187). -/
def State.retTaken (s : State) (cab bank mac : Nat) : State :=
  { s with rep := { s.rep with retDue := s.rep.retDue.filter (fun (e : Nat × Nat × Nat) => !decide (e = (cab, bank, mac))) } }

theorem exec_autoRetire (cab : Cab) (bank : Bank) (mac : Fin 18) (s : State) :
    exec (.autoRetire cab bank mac) s =
      .next (if s.retireNow cab bank mac then (s.retTaken cab bank mac).retire1 cab bank mac 28 true else s.retTaken cab bank mac) := rfl

theorem exec_retireWrite (m : Master) (cab : Cab) (bank : Bank) (v : W32) (s : State) : exec (.retireWrite m cab bank v) s = execRetireWrite m cab bank v s := rfl

/-- A first retirement shows in BNK.RETIRE alone (R222). -/
theorem State.sameRegs_retire1 (s : State) (cab bank mac req : Nat) (auto : Bool) : s.sameRegs [R.BNK_RETIRE cab bank] (s.retire1 cab bank mac req auto) := by
  intro k hk
  have hne : k ≠ R.BNK_RETIRE cab bank := List.ne_of_not_mem_cons hk
  rw [State.retire1, State.reg_err]
  exact State.reg_puts_other (s.setRet cab bank 0) [(R.BNK_RETIRE_MAC1 cab bank, mac), (R.BNK_RETIRE_V1 cab bank, 1), (R.BNK_RETIRE_AUTO1 cab bank, if auto then 1 else 0)]
    (by simpa using ⟨hne, hne, hne⟩)

/-- The fields of a first retirement (R222). -/
theorem State.f_retire1 (s : State) (cab bank req : Nat) {mac : Nat} (hmac : mac < 32) :
    (s.retire1 cab bank mac req true).f (R.BNK_RETIRE_MAC1 cab bank) = mac ∧ (s.retire1 cab bank mac req true).f (R.BNK_RETIRE_V1 cab bank) = 1 ∧
      (s.retire1 cab bank mac req true).f (R.BNK_RETIRE_AUTO1 cab bank) = 1 := by
  simp only [State.retire1, State.f_err, State.puts_cons, State.puts_nil, reduceIte]
  refine ⟨?_, ?_, ?_⟩
  · rw [State.f_put_apart _ _ _ _ (by decide : 6 ≤ 6) (by decide : 6 < 32) (by decide : 0 ≤ 4) (.inr (by decide : 4 < 6)),
      State.f_put_apart _ _ _ _ (by decide : 5 ≤ 5) (by decide : 5 < 32) (by decide : 0 ≤ 4) (.inr (by decide : 4 < 5)),
      State.f_put_fits _ (f := R.BNK_RETIRE_MAC1 cab bank) (by decide : 0 ≤ 4) (by decide : 4 < 32) hmac]
  · rw [State.f_put_apart _ _ _ _ (by decide : 6 ≤ 6) (by decide : 6 < 32) (by decide : 5 ≤ 5) (.inr (by decide : 5 < 6)),
      State.f_put_fits _ (f := R.BNK_RETIRE_V1 cab bank) (by decide : 5 ≤ 5) (by decide : 5 < 32) (by decide : 1 < 2 ^ 1)]
  · rw [State.f_put_fits _ (f := R.BNK_RETIRE_AUTO1 cab bank) (by decide : 6 ≤ 6) (by decide : 6 < 32) (by decide : 1 < 2 ^ 1)]

theorem State.retire1_rep (s : State) (cab bank mac req : Nat) (auto : Bool) : (s.retire1 cab bank mac req auto).rep = (s.setRet cab bank 0).rep :=
  State.puts_rep _ _

theorem State.retire1_mem (s : State) (cab bank mac req : Nat) (auto : Bool) : (s.retire1 cab bank mac req auto).mem = s.mem :=
  State.puts_mem _ _

/-- A first retirement is recorded as MEM_RETIRE (R187). -/
theorem State.retire1_detected (s : State) (cab bank mac req : Nat) (auto : Bool) : (s.retire1 cab bank mac req auto).detected =
    s.detected ++ [{ kind := 0x03, req := req, cab := some cab, bank := bank, sym := mac, time := s.now }] := by
  rw [State.retire1, State.err_detected, State.puts_detected, State.now, State.puts_time]
  rfl

/-- An automatic retirement is due while the first of the bank is free and the macro was noted, or stands at the limit with AUTO_RET at 1 (R187). -/
theorem State.retireNow_eq_true {s : State} {cab bank mac : Nat} (hfree : s.bit (R.BNK_RETIRE_V1 cab bank) = false)
    (hdue : s.rep.retDue.contains (cab, bank, mac) = true ∨ s.bit (R.BNK_ECC_CTL_AUTO_RET cab) = true ∧ s.f (R.BNK_RET_LIMIT_LIMIT cab) ≤ s.f (mcntFld cab bank mac)) :
    s.retireNow cab bank mac = true := by
  rw [State.retireNow, hfree]
  rcases hdue with hnoted | ⟨hauto, hlimit⟩
  · rw [hnoted]; rfl
  · rw [hauto, decide_eq_true hlimit, Bool.and_true, Bool.or_true]; rfl

/-- Settles O19, clause by clause. -/
theorem retirementsAreRecorded : Obligations.RetirementsAreRecorded := by
  refine ⟨?auto, ?first, ?second⟩
  case auto =>
    intro cab bank mac s hfree hdue
    refine ⟨_, (exec_autoRetire cab bank mac s).trans (congrArg _ (if_pos (State.retireNow_eq_true hfree hdue))), ?_⟩
    obtain ⟨hmac, hv, hauto⟩ := State.f_retire1 _ cab bank 28 (Nat.lt_of_lt_of_le mac.isLt (by decide : 18 ≤ 32))
    exact ⟨hmac, hv, hauto, State.sameRegs_retire1 _ cab bank mac 28 true, congrArg RepairSt.retFrom (State.retire1_rep _ _ _ _ _ _),
      State.retire1_detected _ _ _ _ _ _, State.retire1_mem _ _ _ _ _ _⟩
  case first =>
    intro m cab bank v s hsynth hgo hok hfree hv1 hv2 hmac hopen
    rw [exec_retireWrite, execRetireWrite, State.row_gateAt_of_go hsynth hgo hok hopen]
    simp only [hfree, hv1, hv2, Nat.not_lt.mpr hmac, decide_false, Bool.not_false, Bool.and_true, Bool.and_false, Bool.false_and, Bool.or_false,
      Bool.false_eq_true, reduceIte]
    rfl
  case second =>
    intro m cab bank v s hsynth hgo hok hforce hfree hv2 hmac hother hopen
    rw [exec_retireWrite, execRetireWrite, State.row_gateAt_of_go hsynth hgo hok hopen]
    simp only [hforce, hfree, hv2, hother, Nat.not_lt.mpr hmac, decide_false, Bool.not_false, Bool.not_true, Bool.and_true, Bool.and_false, Bool.false_and,
      Bool.or_false, Bool.false_eq_true, reduceIte]
    rfl

end Sys2Proof.Machine
end

section
/-! PROOFS. The registers of block BNK: buckets, injection and the clear of the counters (R197 to R201, R215, R218). -/
namespace Sys2Proof.Machine

theorem State.f_lt (s : State) (g : Fld) : s.f g < 2 ^ g.width := Nat.mod_lt _ (Nat.two_pow_pos _)

/-- A fold over indices whose step changes the field of its own index alone: at each index below `n` the field has changed once. The step may read the
events counted in the state, which it leaves. -/
theorem State.f_foldl_range {step : State → Nat → State} {g : Nat → Fld} {new : Nat → Nat → Nat} {s : State} (hcounted : ∀ u j, (step u j).counted = u.counted)
    (hstep : ∀ (u : State) (j i : Nat), u.counted = s.counted → (step u j).f (g i) = if i = j then new i (u.f (g i)) else u.f (g i)) (n i : Nat) :
    ((List.range n).foldl step s).f (g i) = if i < n then new i (s.f (g i)) else s.f (g i) := by
  induction n with
  | zero => rfl
  | succ n ih =>
    have hevents : ((List.range n).foldl step s).counted = s.counted := State.foldl_keeps_part (·.counted) _ s hcounted
    rw [List.range_succ, List.foldl_append, List.foldl_cons, List.foldl_nil, hstep _ _ _ hevents, ih]
    by_cases hi : i = n
    · subst hi
      simp
    · have hlt : i < n + 1 ↔ i < n := by omega
      simp only [hi, hlt, reduceIte]

/-! Where the registers stand -/

/-- Each bucket has a register of its own, and so have the counters beside them (R215 to R219, R223). -/
theorem bktReg_ne (cab b : Nat) : R.BNK_BKT cab b ≠ R.BNK_BKT_CFG cab ∧ R.BNK_BKT cab b ≠ R.BNK_BKT_OVF cab ∧ R.BNK_BKT cab b ≠ R.BNK_STAT cab ∧
    R.BNK_BKT cab b ≠ R.BNK_CE_TOTAL cab := by
  unfold R.BNK_BKT R.BNK_BKT_CFG R.BNK_BKT_OVF R.BNK_STAT R.BNK_CE_TOTAL cabReg
  omega

theorem bktReg_inj {cab i j : Nat} (h : i ≠ j) : R.BNK_BKT cab i ≠ R.BNK_BKT cab j := by
  unfold R.BNK_BKT cabReg
  omega

/-- The counters of the error statistics stand apart (R216, R217, R219). -/
theorem statReg_ne (cab : Nat) : R.BNK_STAT cab ≠ R.BNK_CE_TOTAL cab ∧ R.BNK_STAT cab ≠ R.BNK_BKT_OVF cab ∧ R.BNK_CE_TOTAL cab ≠ R.BNK_BKT_OVF cab := by
  unfold R.BNK_STAT R.BNK_CE_TOTAL R.BNK_BKT_OVF cabReg
  omega

/-- Two macros of a bank share a register, each with half of it (R224). -/
theorem mcntFld_bits (cab bank mac : Nat) : (mcntFld cab bank mac).key = R.BNK_MCNT cab bank (mac / 2) ∧ (mcntFld cab bank mac).lo = mac % 2 * 16 ∧
    (mcntFld cab bank mac).hi = mac % 2 * 16 + 15 := by
  unfold mcntFld
  split
  next h => rw [h]; exact ⟨rfl, rfl, rfl⟩
  next h => rw [Nat.mod_two_ne_zero.mp h]; exact ⟨rfl, rfl, rfl⟩

/-- The counter of macro `i % 18` of bank `i / 18`, as the clear counts them. -/
def mcntAt (cab i : Nat) : Fld := mcntFld cab (i / 18) (i % 18)

theorem mcntAt_eq_mcntFld (cab bank : Nat) {mac : Nat} (h : mac < 18) : mcntAt cab (18 * bank + mac) = mcntFld cab bank mac := by
  rw [mcntAt, Nat.mul_add_div (by decide), Nat.mul_add_mod, Nat.div_eq_of_lt h, Nat.mod_eq_of_lt h, Nat.add_zero]

theorem mcntAt_key_ne (cab i : Nat) : (∀ b < 32, (mcntAt cab i).key ≠ R.BNK_BKT cab b) ∧ (mcntAt cab i).key ≠ R.BNK_BKT_OVF cab ∧
    (mcntAt cab i).key ≠ R.BNK_STAT cab ∧ (mcntAt cab i).key ≠ R.BNK_CE_TOTAL cab := by
  obtain ⟨hkey, -, -⟩ := mcntFld_bits cab (i / 18) (i % 18)
  rw [mcntAt, hkey]
  simp only [R.BNK_MCNT, R.BNK_BKT, R.BNK_STAT, R.BNK_CE_TOTAL, R.BNK_BKT_OVF, cabReg]
  exact ⟨fun b hb => by omega, by omega, by omega, by omega⟩

theorem mcntAt_inWord (cab i : Nat) : (mcntAt cab i).lo ≤ (mcntAt cab i).hi ∧ (mcntAt cab i).hi < 32 := by
  obtain ⟨-, hlo, hhi⟩ := mcntFld_bits cab (i / 18) (i % 18)
  rw [mcntAt, hlo, hhi]
  omega

theorem mcntAt_apart {cab i j : Nat} (h : i ≠ j) : (mcntAt cab j).apart (mcntAt cab i) := by
  obtain ⟨hkeyi, hloi, hhii⟩ := mcntFld_bits cab (i / 18) (i % 18)
  obtain ⟨hkeyj, hloj, hhij⟩ := mcntFld_bits cab (j / 18) (j % 18)
  rw [Fld.apart, mcntAt, mcntAt, hkeyi, hkeyj, hloi, hloj, hhii, hhij]
  unfold R.BNK_MCNT cabReg
  omega

/-! The drip -/

/-- A bucket loses one, not below zero, and the others keep their level (R197). -/
theorem State.f_dec_level (s : State) (cab j i : Nat) : (s.dec (R.BNK_BKT_LEVEL cab j)).f (R.BNK_BKT_LEVEL cab i) =
    if i = j then s.f (R.BNK_BKT_LEVEL cab i) - 1 else s.f (R.BNK_BKT_LEVEL cab i) := by
  split
  next h =>
    subst h
    exact State.f_put_fits _ (by decide : 0 ≤ 15) (by decide : 15 < 32) ((Nat.sub_le _ _).trans_lt (s.f_lt _))
  next h => exact State.f_put_key _ _ _ _ (bktReg_inj h)

/-- Every bucket of a cabinet loses one (R197). -/
def State.drip (s : State) (cab : Nat) : State := (List.range 32).foldl (fun s b => s.dec (R.BNK_BKT_LEVEL cab b)) s

theorem exec_bucketDrip (cab : Cab) (s : State) : exec (.bucketDrip cab) s = .next ((s.drip cab).dripArm cab) := rfl

theorem State.f_drip (s : State) (cab : Nat) (b : Bank) : (s.drip cab).f (R.BNK_BKT_LEVEL cab b) = s.f (R.BNK_BKT_LEVEL cab b) - 1 := by
  have hfold := State.f_foldl_range (step := fun s b => s.dec (R.BNK_BKT_LEVEL cab b)) (g := R.BNK_BKT_LEVEL cab) (new := fun _ x => x - 1) (s := s)
    (fun _ _ => rfl) (fun u j i _ => u.f_dec_level cab j i) 32 b
  exact hfold.trans (if_pos b.isLt)

/-- The drip leaves the period that arms the next one. -/
theorem State.f_drip_period (s : State) (cab : Nat) : (s.drip cab).f (R.BNK_BKT_CFG_DRIP_PERIOD cab) = s.f (R.BNK_BKT_CFG_DRIP_PERIOD cab) :=
  State.foldl_keeps_part (·.f (R.BNK_BKT_CFG_DRIP_PERIOD cab)) _ s fun _ b => State.f_put_key _ _ _ _ (bktReg_ne cab b).1.symm

theorem State.drip_time (s : State) (cab : Nat) : (s.drip cab).time = s.time := State.foldl_keeps_part (·.time) _ s fun _ _ => rfl

/-- The next drip is on the agenda, for the next multiple of the period (R197, R199). -/
theorem State.dripArm_agenda (s : State) (cab : Cab) :
    Due.mk .fab ((s.time.now / ns (1000 * max 1 (s.f (R.BNK_BKT_CFG_DRIP_PERIOD cab))) + 1) * ns (1000 * max 1 (s.f (R.BNK_BKT_CFG_DRIP_PERIOD cab)))) (.bucketDrip cab) ∈
      (s.dripArm cab).agenda := by
  have hcab : Fin.ofNat 128 cab.val = cab := Fin.ofNat_val_eq_self cab
  rw [State.dripArm, hcab, State.at'_agenda]
  exact List.mem_append_right _ (List.mem_singleton.mpr rfl)

theorem State.f_dripArm (s : State) (cab : Nat) (g : Fld) : (s.dripArm cab).f g = s.f g := rfl

/-! The clear of the counters -/

/-- A counter is cleared where its bit is set (R218). -/
def State.clearFld (s : State) (on : Bool) (g : Fld) (t : Nat) : State := if on then s.clearOn g t else s

/-- The counters of all macros of a cabinet are cleared, and a retirement of the next fc whose counter falls below the limit is taken back (R187, R218). -/
def State.clearMacros (s : State) (on : Bool) (cab t : Nat) : State :=
  if on then ((List.range 576).foldl (fun s i => s.clearOn (mcntAt cab i) t) s).retAgain cab else s

/-- The buckets of a cabinet are cleared, and an overflow of this fc that has become none is taken back (R198, R218). -/
def State.clearBuckets (s : State) (on : Bool) (cab t : Nat) : State :=
  if on then (List.range 32).foldl (fun s b => (s.clearOn (R.BNK_BKT_LEVEL cab b) t).bktAgain cab b) s else s

/-- What a write of BNK.CNT_CLR clears on fc `t` (R218). -/
def State.clearCounters (s : State) (cab : Nat) (v : W32) (t : Nat) : State :=
  ((((s.clearFld (vbit v 0) (R.BNK_STAT_UE cab) t).clearMacros (vbit v 1) cab t).clearFld (vbit v 2) (R.BNK_STAT_VB cab) t).clearFld
    (vbit v 3) (R.BNK_CE_TOTAL_COUNT cab) t).clearBuckets (vbit v 4) cab t

theorem exec_bnkCntClr (m : Master) (cab : Cab) (v : W32) (s : State) :
    exec (.bnkCntClr m cab v) s = .next (s.row m (.bnkCntClr m cab v) (fun s => s.gateAt (bankMaster m cab) m cab (R.BNK_CNT_CLR cab) (fun s =>
      s.clearCounters cab v s.time.fc))) := rfl

section
variable (s : State) (on : Bool) (cab t : Nat)

theorem State.clearFld_counted (g : Fld) : (s.clearFld on g t).counted = s.counted := by
  unfold State.clearFld
  split
  · exact s.clearOn_counted g t
  · rfl

theorem State.eventsOn_clearFld (f g : Fld) (n : Nat) : (s.clearFld on f t).eventsOn g n = s.eventsOn g n :=
  State.eventsOn_congr (s.clearFld_counted on t f) g n

theorem State.f_clearFld_same {g : Fld} (hle : g.lo ≤ g.hi) (h32 : g.hi < 32) :
    (s.clearFld on g t).f g = if on then min (s.eventsOn g t) (2 ^ g.width - 1) else s.f g := by
  unfold State.clearFld
  split
  · exact s.f_clearOn_same hle h32 t
  · rfl

theorem State.f_clearFld_key {f g : Fld} (h : g.key ≠ f.key) : (s.clearFld on f t).f g = s.f g := by
  unfold State.clearFld
  split
  · exact s.f_clearOn_key h t
  · rfl

/-- The two halves of BNK.STAT are cleared apart (R217). -/
theorem State.f_clearFld_halves : (s.clearFld on (R.BNK_STAT_UE cab) t).f (R.BNK_STAT_VB cab) = s.f (R.BNK_STAT_VB cab) ∧
    (s.clearFld on (R.BNK_STAT_VB cab) t).f (R.BNK_STAT_UE cab) = s.f (R.BNK_STAT_UE cab) := by
  unfold State.clearFld
  split
  · exact ⟨State.f_put_apart _ _ _ _ (by decide : 0 ≤ 15) (by decide : 15 < 32) (by decide : 16 ≤ 31) (.inl (by decide : 15 < 16)),
      State.f_put_apart _ _ _ _ (by decide : 16 ≤ 31) (by decide : 31 < 32) (by decide : 0 ≤ 15) (.inr (by decide : 15 < 16))⟩
  · exact ⟨rfl, rfl⟩

theorem State.retAgain_keeps_part {β : Type} (part : State → β) (h : ∀ (u : State) (bank mac : Nat), part (u.retDrop cab bank mac) = part u) :
    part (s.retAgain cab) = part s := by
  refine State.foldl_keeps_part part _ s fun u e => ?_
  split
  · exact h u e.2.1 e.2.2
  · rfl

theorem State.clearMacros_counted : (s.clearMacros on cab t).counted = s.counted := by
  unfold State.clearMacros
  split
  · rw [State.retAgain_keeps_part _ cab (·.counted) fun _ _ _ => rfl]
    exact State.foldl_keeps_part (·.counted) _ s fun u i => u.clearOn_counted _ t
  · rfl

theorem State.eventsOn_clearMacros (g : Fld) (n : Nat) : (s.clearMacros on cab t).eventsOn g n = s.eventsOn g n :=
  State.eventsOn_congr (s.clearMacros_counted on cab t) g n

/-- The clear of the macros leaves the fields of other registers. -/
theorem State.f_clearMacros_key {g : Fld} (h : ∀ i, (mcntAt cab i).key ≠ g.key) : (s.clearMacros on cab t).f g = s.f g := by
  unfold State.clearMacros
  split
  · rw [State.retAgain_keeps_part _ cab (·.f g) fun _ _ _ => rfl]
    exact State.foldl_keeps_part (·.f g) _ s fun u i => u.f_clearOn_key (h i).symm t
  · rfl

theorem State.f_clearMacros (i : Nat) (hi : i < 576) : (s.clearMacros on cab t).f (mcntAt cab i) =
    if on then min (s.eventsOn (mcntAt cab i) t) (2 ^ (mcntAt cab i).width - 1) else s.f (mcntAt cab i) := by
  have hstep (u : State) (j i : Nat) (hu : u.counted = s.counted) : (u.clearOn (mcntAt cab j) t).f (mcntAt cab i) =
      if i = j then min (s.eventsOn (mcntAt cab i) t) (2 ^ (mcntAt cab i).width - 1) else u.f (mcntAt cab i) := by
    obtain ⟨hle, h32⟩ := mcntAt_inWord cab j
    split
    next h => rw [h, u.f_clearOn_same hle h32, State.eventsOn_congr hu]
    next h => exact u.f_put_of_apart _ hle h32 (mcntAt_inWord cab i).1 (mcntAt_apart h)
  unfold State.clearMacros
  split
  · rw [State.retAgain_keeps_part _ cab (·.f (mcntAt cab i)) fun _ _ _ => rfl,
      State.f_foldl_range (new := fun i _ => min (s.eventsOn (mcntAt cab i) t) (2 ^ (mcntAt cab i).width - 1)) (fun u j => u.clearOn_counted _ t) hstep, if_pos hi]
  · rfl

theorem State.bktAgain_counted (b : Nat) : (s.bktAgain cab b).counted = s.counted := by
  unfold State.bktAgain
  dsimp only
  split <;> rfl

/-- An overflow that is taken back shows in BNK.BKT_OVF alone (R216). -/
theorem State.f_bktAgain {g : Fld} (h : g.key ≠ R.BNK_BKT_OVF cab) (b : Nat) : (s.bktAgain cab b).f g = s.f g := by
  unfold State.bktAgain
  dsimp only
  split
  · exact State.f_put_key _ (bitFld (R.BNK_BKT_OVF cab) b) g 0 h
  · rfl

theorem State.f_clearBuckets_key {g : Fld} (hovf : g.key ≠ R.BNK_BKT_OVF cab) (hbkt : ∀ b < 32, g.key ≠ R.BNK_BKT cab b) :
    (s.clearBuckets on cab t).f g = s.f g := by
  unfold State.clearBuckets
  split
  · exact List.foldlRecOn (motive := fun (u : State) => u.f g = s.f g) _ _ rfl fun u hu b hb =>
      (State.f_bktAgain _ cab hovf b).trans ((u.f_clearOn_key (hbkt b (List.mem_range.mp hb)) t).trans hu)
  · rfl

theorem State.f_clearBuckets (b : Bank) : (s.clearBuckets on cab t).f (R.BNK_BKT_LEVEL cab b) =
    if on then min (s.eventsOn (R.BNK_BKT_LEVEL cab b) t) (2 ^ (R.BNK_BKT_LEVEL cab b).width - 1) else s.f (R.BNK_BKT_LEVEL cab b) := by
  have hstep (u : State) (j i : Nat) (hu : u.counted = s.counted) : ((u.clearOn (R.BNK_BKT_LEVEL cab j) t).bktAgain cab j).f (R.BNK_BKT_LEVEL cab i) =
      if i = j then min (s.eventsOn (R.BNK_BKT_LEVEL cab i) t) (2 ^ (R.BNK_BKT_LEVEL cab i).width - 1) else u.f (R.BNK_BKT_LEVEL cab i) := by
    obtain ⟨-, hovf, -, -⟩ := bktReg_ne cab i
    rw [State.f_bktAgain _ _ hovf]
    split
    next h => rw [h, u.f_clearOn_same (Nat.zero_le _) (Nat.le_of_ble_eq_true rfl), State.eventsOn_congr hu]
    next h => exact u.f_clearOn_key (bktReg_inj h) t
  unfold State.clearBuckets
  split
  · rw [State.f_foldl_range (new := fun i _ => min (s.eventsOn (R.BNK_BKT_LEVEL cab i) t) (2 ^ (R.BNK_BKT_LEVEL cab i).width - 1))
      (fun u j => (State.bktAgain_counted _ cab j).trans (u.clearOn_counted _ t)) hstep, if_pos b.isLt]
  · rfl

variable (v : W32)

theorem State.f_clearCounters_ue : (s.clearCounters cab v t).f (R.BNK_STAT_UE cab) =
    if vbit v 0 then min (s.eventsOn (R.BNK_STAT_UE cab) t) (2 ^ (R.BNK_STAT_UE cab).width - 1) else s.f (R.BNK_STAT_UE cab) := by
  obtain ⟨hce, hovf, -⟩ := statReg_ne cab
  have hbkt (b : Nat) (_ : b < 32) : R.BNK_STAT cab ≠ R.BNK_BKT cab b := (bktReg_ne cab b).2.2.1.symm
  have hmcnt (i : Nat) : (mcntAt cab i).key ≠ R.BNK_STAT cab := (mcntAt_key_ne cab i).2.2.1
  rw [State.clearCounters, State.f_clearBuckets_key _ _ _ _ hovf hbkt, State.f_clearFld_key _ _ _ hce, (State.f_clearFld_halves _ _ _ _).2,
    State.f_clearMacros_key _ _ _ _ hmcnt, State.f_clearFld_same _ _ _ (by decide : 0 ≤ 15) (by decide : 15 < 32)]

theorem State.f_clearCounters_vb : (s.clearCounters cab v t).f (R.BNK_STAT_VB cab) =
    if vbit v 2 then min (s.eventsOn (R.BNK_STAT_VB cab) t) (2 ^ (R.BNK_STAT_VB cab).width - 1) else s.f (R.BNK_STAT_VB cab) := by
  obtain ⟨hce, hovf, -⟩ := statReg_ne cab
  have hbkt (b : Nat) (_ : b < 32) : R.BNK_STAT cab ≠ R.BNK_BKT cab b := (bktReg_ne cab b).2.2.1.symm
  have hmcnt (i : Nat) : (mcntAt cab i).key ≠ R.BNK_STAT cab := (mcntAt_key_ne cab i).2.2.1
  rw [State.clearCounters, State.f_clearBuckets_key _ _ _ _ hovf hbkt, State.f_clearFld_key _ _ _ hce,
    State.f_clearFld_same _ _ _ (by decide : 16 ≤ 31) (by decide : 31 < 32), State.eventsOn_clearMacros, State.eventsOn_clearFld,
    State.f_clearMacros_key _ _ _ _ hmcnt, (State.f_clearFld_halves _ _ _ _).1]

theorem State.f_clearCounters_ce : (s.clearCounters cab v t).f (R.BNK_CE_TOTAL_COUNT cab) =
    if vbit v 3 then min (s.eventsOn (R.BNK_CE_TOTAL_COUNT cab) t) (2 ^ (R.BNK_CE_TOTAL_COUNT cab).width - 1) else s.f (R.BNK_CE_TOTAL_COUNT cab) := by
  obtain ⟨hstat, -, hovf⟩ := statReg_ne cab
  have hbkt (b : Nat) (_ : b < 32) : R.BNK_CE_TOTAL cab ≠ R.BNK_BKT cab b := (bktReg_ne cab b).2.2.2.symm
  have hmcnt (i : Nat) : (mcntAt cab i).key ≠ R.BNK_CE_TOTAL cab := (mcntAt_key_ne cab i).2.2.2
  rw [State.clearCounters, State.f_clearBuckets_key _ _ _ _ hovf hbkt, State.f_clearFld_same _ _ _ (by decide : 0 ≤ 31) (by decide : 31 < 32),
    State.eventsOn_clearFld, State.eventsOn_clearMacros, State.eventsOn_clearFld, State.f_clearFld_key _ _ _ hstat.symm,
    State.f_clearMacros_key _ _ _ _ hmcnt, State.f_clearFld_key _ _ _ hstat.symm]

theorem State.f_clearCounters_mcnt (bank : Bank) (mac : Fin 18) : (s.clearCounters cab v t).f (mcntFld cab bank mac) =
    if vbit v 1 then min (s.eventsOn (mcntFld cab bank mac) t) (2 ^ (mcntFld cab bank mac).width - 1) else s.f (mcntFld cab bank mac) := by
  rw [← mcntAt_eq_mcntFld cab bank mac.isLt]
  obtain ⟨hbkt, hovf, hstat, hce⟩ := mcntAt_key_ne cab (18 * bank + mac)
  have hlt : 18 * bank.val + mac.val < 576 := by omega
  rw [State.clearCounters, State.f_clearBuckets_key _ _ _ _ hovf hbkt, State.f_clearFld_key _ _ _ hce, State.f_clearFld_key _ _ _ hstat,
    State.f_clearMacros _ _ _ _ _ hlt, State.eventsOn_clearFld, State.f_clearFld_key _ _ _ hstat]

theorem State.f_clearCounters_level (b : Bank) : (s.clearCounters cab v t).f (R.BNK_BKT_LEVEL cab b) =
    if vbit v 4 then min (s.eventsOn (R.BNK_BKT_LEVEL cab b) t) (2 ^ (R.BNK_BKT_LEVEL cab b).width - 1) else s.f (R.BNK_BKT_LEVEL cab b) := by
  obtain ⟨-, -, hstat, hce⟩ := bktReg_ne cab b
  have hmcnt (i : Nat) : (mcntAt cab i).key ≠ R.BNK_BKT cab b := (mcntAt_key_ne cab i).1 b b.isLt
  rw [State.clearCounters, State.f_clearBuckets, State.eventsOn_clearFld, State.eventsOn_clearFld, State.eventsOn_clearMacros, State.eventsOn_clearFld,
    State.f_clearFld_key _ _ _ hce, State.f_clearFld_key _ _ _ hstat, State.f_clearMacros_key _ _ _ _ hmcnt, State.f_clearFld_key _ _ _ hstat]

end

/-! Settling -/

theorem exec_bktCfgWrite (m : Master) (cab : Cab) (v : W32) (s : State) : exec (.bktCfgWrite m cab v) s = execBktCfgWrite m cab v s := rfl

theorem exec_injCtlWrite (m : Master) (cab : Cab) (v : W32) (s : State) : exec (.injCtlWrite m cab v) s = execInjCtlWrite m cab v s := rfl

/-- Settles O20, clause by clause: the drip and the clears by the fold over the buckets or the macros, the two writes by their gate. -/
theorem bankRegistersAreWritten : Obligations.BankRegistersAreWritten := by
  refine ⟨?drip, ?cfg, ?inj, ?clear⟩
  case drip =>
    intro cab s
    refine ⟨_, exec_bucketDrip cab s, fun b => (State.f_dripArm _ _ _).trans (s.f_drip cab b), ?_⟩
    have harmed := (s.drip cab).dripArm_agenda cab
    rwa [s.f_drip_period cab, s.drip_time cab] at harmed
  case cfg =>
    intro m cab v s hsynth hgo hok hopen
    rw [exec_bktCfgWrite, execBktCfgWrite, State.row_gateAt_of_go hsynth hgo hok hopen]
  case inj =>
    intro m cab v s hsynth hgo hok hsym hopen
    rw [exec_injCtlWrite, execInjCtlWrite, State.row_gateAt_of_go hsynth hgo hok hopen, if_neg (Nat.not_lt.mpr hsym)]
  case clear =>
    intro m cab v b i s hsynth hgo hok hopen
    exact ⟨_, (exec_bnkCntClr m cab v s).trans (congrArg _ (State.row_gateAt_of_go hsynth hgo hok hopen _ _ _)), s.f_clearCounters_ue cab _ v,
      s.f_clearCounters_mcnt cab _ v b i, s.f_clearCounters_vb cab _ v, s.f_clearCounters_ce cab _ v, s.f_clearCounters_level cab _ v b⟩

end Sys2Proof.Machine
end

section
/-! PROOFS. The sweep engine (R193, R194, R221). -/
namespace Sys2Proof.Machine

theorem exec_swpGo (m : Master) (cab : Cab) (v : W32) (s : State) : exec (.swpGo m cab v) s = execSwpGo m cab v s := rfl

theorem exec_sweepRangeDone (cab : Cab) (s : State) : exec (.sweepRangeDone cab) s = execSweepRangeDone cab s := rfl

/-- A table of which the entries at some keys are kept reads at those as before, and elsewhere as unlisted. -/
theorem SMap.get_filter_key {α : Type} (d : α) (p : Nat → Bool) (m : SMap α) (k : Nat) :
    SMap.get d (m.filter (fun e => p e.1)) k = if p k = true then SMap.get d m k else d := by
  induction m with
  | nil => rw [List.filter_nil, SMap.get_nil, ite_self]
  | cons e m ih =>
    obtain ⟨j, x⟩ := e
    by_cases hjk : k = j
    · subst hjk
      by_cases hp : p k = true <;> simp [SMap.get, hp, ih]
    · by_cases hp : p j = true <;> simp [SMap.get, hp, hjk, ih]

/-- Rows of one cabinet have neighbouring keys only within a bank. -/
theorem rowKey_between {cab bank row0 rows b row : Nat} (hrow : row < 4096) (hrows : row0 + rows ≤ 4096) :
    (rowKey cab bank row0 ≤ rowKey cab b row ∧ rowKey cab b row < rowKey cab bank row0 + rows) ↔ b = bank ∧ row0 ≤ row ∧ row < row0 + rows := by
  unfold rowKey
  omega

/-- A cleared row is invalid, and the others keep their valid bits (R193). -/
theorem State.validCells_clearValid (s : State) {cab bank row0 rows b row : Nat} (hrow : row < 4096) (hrows : row0 + rows ≤ 4096) :
    (s.clearValid cab bank row0 rows).validCells cab b row = if b = bank ∧ row0 ≤ row ∧ row < row0 + rows then 0 else s.validCells cab b row := by
  have hkept : (s.clearValid cab bank row0 rows).validCells cab b row = _ :=
    SMap.get_filter_key 0 (fun k => !(decide (rowKey cab bank row0 ≤ k) && decide (k < rowKey cab bank row0 + rows))) s.valid (rowKey cab b row)
  rw [hkept]
  simp only [Bool.not_eq_true', Bool.and_eq_false_iff, decide_eq_false_iff_not, ← not_and_or, ite_not, rowKey_between hrow hrows]
  rfl

/-- The engine once the range in progress is over (R194). -/
def State.sweepEnded (s : State) (cab : Nat) (r : SwpRange) : State := (s.setSwp cab { run := none, queue := (s.swp cab).queue }).sweepOver cab r.org 0

/-- The last slot of the range in progress is done: the range is over, the next one that waits starts, and one that waits at its origin comes in. -/
theorem exec_sweepRangeDone_of_over {cab : Cab} {r : SwpRange} {s : State} (hrun : (s.swp cab).run = some r) (htodo : r.todo = []) (hbusy : r.busy = 0) :
    exec (.sweepRangeDone cab) s = .next (
      let t := match ((s.sweepEnded cab r).swp cab).queue with
        | [] => s.sweepEnded cab r
        | q :: rest => ((s.sweepEnded cab r).setSwp cab { run := none, queue := rest }).sweepStart cab q
      match t.rep.swpWait.find? (fun e => decide (e.1 = cab.val)) with
      | none => t
      | some e => ({ t with rep := { t.rep with swpWait := t.rep.swpWait.filter (fun x => !decide (x = e)) } }).sweepAdd cab e.2) := by
  rw [exec_sweepRangeDone, execSweepRangeDone, hrun]
  simp only [htodo, hbusy]
  rfl

theorem State.swp_setSwp_same (s : State) (cab : Nat) (e : SwpSt) : (s.setSwp cab e).swp cab = e := SMap.get_set_same _ _ _ _

/-- Settles O21, clause by clause: the three ends of a range by one lemma, and the rows by their keys. -/
theorem sweepsClearValidBits : Obligations.SweepsClearValidBits := by
  refine ⟨?go, ?last, ?ended, ?next, ?rows⟩
  case go =>
    intro m cab v s hsynth hgo hok hv0 hv1 hv2 hidle hle hroom hopen
    rw [exec_swpGo, execSwpGo, State.row_gateAt_of_go hsynth hgo hok hopen]
    simp only [hv0, hv1, hv2, hidle, Nat.not_lt.mpr hle, Nat.not_le.mpr hroom, decide_false, Bool.not_true, Bool.or_self, Bool.false_eq_true, reduceIte]
  case last =>
    intro cab r s hrun htodo hbusy hqueue horg hwait
    have hended : s.sweepEnded cab r = (s.setSwp cab { run := none, queue := [] }).puts [(R.BNK_SWP_CTL_GO cab, 0), (R.BNK_SWP_CTL_DONE cab, 1)] := by
      rw [State.sweepEnded, horg, hqueue]
      rfl
    have hempty : ((s.sweepEnded cab r).swp cab).queue = [] := by
      rw [hended]
      exact congrArg SwpSt.queue (s.swp_setSwp_same cab { run := none, queue := [] })
    have hnone : (s.sweepEnded cab r).rep.swpWait.find? (fun e => decide (e.1 = cab.val)) = none := by
      rw [hended]
      exact hwait
    rw [exec_sweepRangeDone_of_over hrun htodo hbusy, hempty]
    simp only [hnone]
    rw [hended]
  case ended =>
    intro cab r s hrun htodo hbusy hqueue hwait
    have hempty : ((s.sweepEnded cab r).swp cab).queue = [] := hqueue
    have hnone : (s.sweepEnded cab r).rep.swpWait.find? (fun e => decide (e.1 = cab.val)) = none := hwait
    rw [exec_sweepRangeDone_of_over hrun htodo hbusy, hempty]
    simp only [hnone]
    rfl
  case next =>
    intro cab r q rest s hrun htodo hbusy hqueue hwait
    have hnext : ((s.sweepEnded cab r).swp cab).queue = q :: rest := hqueue
    have hnone : (((s.sweepEnded cab r).setSwp cab { run := none, queue := rest }).sweepStart cab q).rep.swpWait.find? (fun e => decide (e.1 = cab.val)) = none := hwait
    rw [exec_sweepRangeDone_of_over hrun htodo hbusy, hnext]
    simp only [hnone]
    rfl
  case rows => exact fun bank row0 rows row cab b s hrow _ hrows _ => s.validCells_clearValid hrow hrows

end Sys2Proof.Machine
end

section
/-! PROOFS. The error logs (R205 to R210, R227). -/
namespace Sys2Proof.Machine

/-! Writing registers from a list -/

theorem State.setRegs_cons (s : State) (k : Nat) (ks : List Nat) (v : W32) (vs : List W32) : s.setRegs (k :: ks) (v :: vs) = (s.setReg k v).setRegs ks vs := rfl

/-- A register outside the list reads as before. -/
theorem State.reg_setRegs_other (s : State) {ks : List Nat} (vs : List W32) {j : Nat} (h : j ∉ ks) : (s.setRegs ks vs).reg j = s.reg j := by
  induction ks generalizing s vs with
  | nil => rfl
  | cons k ks ih =>
    cases vs with
    | nil => rfl
    | cons v vs => rw [State.setRegs_cons, ih _ _ (List.not_mem_of_not_mem_cons h), State.reg_setReg_other _ _ (List.ne_of_not_mem_cons h)]

/-- The registers of the list read as the words, one for one. -/
theorem State.map_reg_setRegs (s : State) {ks : List Nat} {vs : List W32} (hnodup : ks.Nodup) (hlen : ks.length = vs.length) :
    ks.map (s.setRegs ks vs).reg = vs := by
  induction ks generalizing s vs with
  | nil => exact (List.eq_nil_of_length_eq_zero hlen.symm).symm
  | cons k ks ih =>
    obtain ⟨hk, hnodup⟩ := List.nodup_cons.mp hnodup
    cases vs with
    | nil => exact absurd hlen (Nat.succ_ne_zero _)
    | cons v vs =>
      rw [State.setRegs_cons, List.map_cons, ih _ hnodup (Nat.succ.inj hlen), State.reg_setRegs_other _ _ hk, State.reg_setReg_same]

/-! The registers of a log -/

/-- The registers of a log's two records, and those of its state, control and count, stand apart (R227). -/
theorem logRegs_apart (k : Nat) : (firstRegs k).Nodup ∧ (∀ j ∈ firstRegs k, j ∉ nextRegs k) ∧
    (∀ j ∈ firstRegs k ++ nextRegs k, j ≠ R.ERR_LOG_STAT k ∧ j ≠ R.ERR_LOG_CTL k) := by
  simp [firstRegs, nextRegs, R.ERR_FIRST_A, R.ERR_FIRST_B, R.ERR_FIRST_ADDR, R.ERR_FIRST_DATA, R.ERR_FIRST_TIME_LO, R.ERR_FIRST_TIME_HI,
    R.ERR_NEXT_A, R.ERR_NEXT_B, R.ERR_NEXT_ADDR, R.ERR_NEXT_DATA, R.ERR_NEXT_TIME_LO, R.ERR_NEXT_TIME_HI, R.ERR_LOG_STAT, R.ERR_LOG_CTL, dieReg, cabReg]

/-! A write of LOGk_CTL -/

theorem vbit_eq_getLsbD (v : W32) (i : Nat) : vbit v i = v.getLsbD i := by
  rw [Bool.eq_iff_iff, ← div_mod_two_iff_getLsbD, vbit, decide_eq_true_iff]

theorem vbit_or (v w : W32) (i : Nat) : vbit (v ||| w) i = (vbit v i || vbit w i) := by
  simp only [vbit_eq_getLsbD, BitVec.getLsbD_or]

/-- INT_EN from any master, OWNER from SEC (R210). -/
def State.logPlain (s : State) (m : Master) (k : Nat) (v : W32) : State :=
  let s := s.putb (R.ERR_LOG_CTL_INT_EN k) (vbit v 2)
  if m == .sec then s.putb (R.ERR_LOG_CTL_OWNER k) (vbit v 3) else s

/-- ACK: the next record moves up, or the log empties (R209). -/
def State.logUp (s : State) (k : Nat) : State :=
  if s.bit (R.ERR_LOG_STAT_NEXT_V k) then
    ((s.setRegs (firstRegs k) ((nextRegs k).map s.reg)).setRegs (nextRegs k) (List.replicate 6 0)).put (R.ERR_LOG_STAT_NEXT_V k) 0
  else (s.setRegs (firstRegs k) (List.replicate 6 0)).put (R.ERR_LOG_STAT_FIRST_V k) 0

/-- CLR_ALL: both records and the overflow count are cleared (R209). -/
def State.logEmpty (s : State) (k : Nat) : State :=
  ((s.setRegs (firstRegs k) (List.replicate 6 0)).setRegs (nextRegs k) (List.replicate 6 0)).puts
    [(R.ERR_LOG_STAT_FIRST_V k, 0), (R.ERR_LOG_STAT_NEXT_V k, 0), (R.ERR_LOG_OVF_COUNT k, 0)]

/-- The owner's write, or that of DBG, acts field by field (R209). -/
theorem State.logCtl_of_accepted {s : State} {m : Master} {k : Nat}
    (hok : (m == (if s.f (R.ERR_LOG_CTL_OWNER k) = 0 then Master.sec else Master.hrp) || m == .dbg) = true) (v : W32) :
    s.logCtl m k v = (let u := if vbit v 0 then (s.logPlain m k v).logUp k else s.logPlain m k v
      if vbit v 1 then u.logEmpty k else u) := by
  simp only [State.logCtl, hok, Bool.not_true, Bool.and_false, Bool.and_true, Bool.false_eq_true, reduceIte]
  rfl

theorem State.sameRegs_logPlain (s : State) (m : Master) (k : Nat) (v : W32) : s.sameRegs [R.ERR_LOG_CTL k] (s.logPlain m k v) := by
  intro j hj
  have hne : j ≠ R.ERR_LOG_CTL k := List.ne_of_not_mem_cons hj
  have hint : (s.putb (R.ERR_LOG_CTL_INT_EN k) (vbit v 2)).reg j = s.reg j := State.reg_put_other _ _ _ hne
  unfold State.logPlain
  dsimp only
  split
  · exact (State.reg_put_other _ _ _ hne).trans hint
  · exact hint

/-- The state of a log is read from its own register. -/
theorem State.f_logPlain (s : State) (m : Master) (k : Nat) (v : W32) {g : Fld} (h : g.key = R.ERR_LOG_STAT k) : (s.logPlain m k v).f g = s.f g :=
  State.f_congr (s.sameRegs_logPlain m k v g.key (by
    rw [h]
    unfold R.ERR_LOG_STAT R.ERR_LOG_CTL dieReg cabReg
    simp))

/-- The words of the records leave the state of the log. -/
theorem State.f_setRegs_log (s : State) {k : Nat} {ks : List Nat} (vs : List W32) (h : ∀ j ∈ ks, j ∈ firstRegs k ++ nextRegs k) {g : Fld}
    (hg : g.key = R.ERR_LOG_STAT k) : (s.setRegs ks vs).f g = s.f g := by
  refine State.f_congr (s.reg_setRegs_other vs fun hmem => ?_)
  obtain ⟨-, -, hapart⟩ := logRegs_apart k
  exact (hapart _ (h _ hmem)).1 hg

theorem State.f_setRegs_first (s : State) {k : Nat} (vs : List W32) {g : Fld} (hg : g.key = R.ERR_LOG_STAT k) : (s.setRegs (firstRegs k) vs).f g = s.f g :=
  s.f_setRegs_log vs (fun _ => List.mem_append_left _) hg

theorem State.f_setRegs_next (s : State) {k : Nat} (vs : List W32) {g : Fld} (hg : g.key = R.ERR_LOG_STAT k) : (s.setRegs (nextRegs k) vs).f g = s.f g :=
  s.f_setRegs_log vs (fun _ => List.mem_append_right _) hg

/-- The next record moves to FIRST, which stays valid, and NEXT is empty (R209). -/
theorem State.logUp_of_next {s : State} {k : Nat} (hnext : s.bit (R.ERR_LOG_STAT_NEXT_V k) = true) :
    (s.logUp k).f (R.ERR_LOG_STAT_NEXT_V k) = 0 ∧ (s.logUp k).f (R.ERR_LOG_STAT_FIRST_V k) = s.f (R.ERR_LOG_STAT_FIRST_V k) ∧
      (firstRegs k).map (s.logUp k).reg = (nextRegs k).map s.reg := by
  obtain ⟨hnodup, hnot, hstat⟩ := logRegs_apart k
  rw [State.logUp, if_pos hnext]
  refine ⟨State.f_put_same _ (R.ERR_LOG_STAT_NEXT_V k) 0 (by decide : 1 ≤ 1) (by decide : 1 < 32), ?_, ?_⟩
  · rw [State.f_put_apart _ _ _ _ (by decide : 1 ≤ 1) (by decide : 1 < 32) (by decide : 0 ≤ 0) (.inr (by decide : 0 < 1)), State.f_setRegs_next _ _ rfl,
      State.f_setRegs_first _ _ rfl]
  · have hkept : ∀ j ∈ firstRegs k, (((s.setRegs (firstRegs k) ((nextRegs k).map s.reg)).setRegs (nextRegs k) (List.replicate 6 0)).put
        (R.ERR_LOG_STAT_NEXT_V k) 0).reg j = (s.setRegs (firstRegs k) ((nextRegs k).map s.reg)).reg j := fun j hj => by
      rw [State.reg_put_other _ _ _ (hstat j (List.mem_append_left _ hj)).1, State.reg_setRegs_other _ _ (hnot j hj)]
    rw [List.map_congr_left hkept]
    exact s.map_reg_setRegs hnodup rfl

/-- Without a next record the log is empty (R209). -/
theorem State.logUp_of_last {s : State} {k : Nat} (hlast : s.bit (R.ERR_LOG_STAT_NEXT_V k) = false) :
    (s.logUp k).f (R.ERR_LOG_STAT_NEXT_V k) = 0 ∧ (s.logUp k).f (R.ERR_LOG_STAT_FIRST_V k) = 0 := by
  rw [State.logUp, hlast]
  refine ⟨?_, State.f_put_same _ (R.ERR_LOG_STAT_FIRST_V k) 0 (by decide : 0 ≤ 0) (by decide : 0 < 32)⟩
  exact (State.f_put_apart _ _ _ _ (by decide : 0 ≤ 0) (by decide : 0 < 32) (by decide : 1 ≤ 1) (.inl (by decide : 0 < 1))).trans
    ((State.f_setRegs_first _ _ rfl).trans (State.bit_eq_false.mp hlast))

/-- CLR_ALL empties the log and its count (R209). -/
theorem State.f_logEmpty (s : State) (k : Nat) : (s.logEmpty k).f (R.ERR_LOG_STAT_FIRST_V k) = 0 ∧ (s.logEmpty k).f (R.ERR_LOG_STAT_NEXT_V k) = 0 ∧
    (s.logEmpty k).f (R.ERR_LOG_OVF_COUNT k) = 0 := by
  have hkey : R.ERR_LOG_STAT k ≠ R.ERR_LOG_OVF k := by
    unfold R.ERR_LOG_STAT R.ERR_LOG_OVF dieReg cabReg
    simp
  simp only [State.logEmpty, State.puts_cons, State.puts_nil]
  refine ⟨?_, ?_, State.f_put_same _ (R.ERR_LOG_OVF_COUNT k) 0 (by decide : 0 ≤ 31) (by decide : 31 < 32)⟩
  · rw [State.f_put_key _ _ _ _ hkey, State.f_put_apart _ _ _ _ (by decide : 1 ≤ 1) (by decide : 1 < 32) (by decide : 0 ≤ 0) (.inr (by decide : 0 < 1))]
    exact State.f_put_same _ (R.ERR_LOG_STAT_FIRST_V k) 0 (by decide : 0 ≤ 0) (by decide : 0 < 32)
  · rw [State.f_put_key _ _ _ _ hkey]
    exact State.f_put_same _ (R.ERR_LOG_STAT_NEXT_V k) 0 (by decide : 1 ≤ 1) (by decide : 1 < 32)

/-! Settling -/

theorem exec_logAck (m : Master) (k : Fin 4) (v : W32) (s : State) : exec (.logAck m k v) s = .next (s.row m (.logAck m k v) (fun s => s.logCtl m k (v ||| 1))) := rfl

theorem exec_logClrAll (m : Master) (k : Fin 4) (v : W32) (s : State) :
    exec (.logClrAll m k v) s = .next (s.row m (.logClrAll m k v) (fun s => s.logCtl m k (v ||| 2))) := rfl

/-- An acknowledge without CLR_ALL by an accepted master. -/
theorem exec_logAck_of_accepted {s : State} {m : Master} {k : Fin 4} {v : W32}
    (hok : (m == (if s.f (R.ERR_LOG_CTL_OWNER k) = 0 then Master.sec else Master.hrp) || m == .dbg) = true) (hv : vbit v 1 = false)
    (hopen : s.rgsShut (masterIdx m) = false) : exec (.logAck m k v) s = .next ((s.logPlain m k (v ||| 1)).logUp k) := by
  have hack : vbit (v ||| 1) 0 = true := by rw [vbit_or]; exact Bool.or_true _
  have hkeep : vbit (v ||| 1) 1 = false := by rw [vbit_or, hv]; decide
  rw [exec_logAck, State.row_of_open hopen, State.logCtl_of_accepted hok, hack, hkeep]
  rfl

/-- Settles O22, clause by clause: the state of a log after each kind of write, then the record that enters an empty one. -/
theorem logsAreAcknowledged : Obligations.LogsAreAcknowledged := by
  refine ⟨?next, ?last, ?clear, ?enter⟩
  case next =>
    intro m k v s hok hv hfirst hnext hopen
    have hbit : (s.logPlain m k (v ||| 1)).bit (R.ERR_LOG_STAT_NEXT_V k) = true := by rw [State.bit, s.f_logPlain m k _ rfl]; exact hnext
    obtain ⟨hempty, hvalid, hmoved⟩ := State.logUp_of_next hbit
    refine ⟨_, exec_logAck_of_accepted hok hv hopen, hempty, ?_, ?_⟩
    · rw [hvalid, s.f_logPlain m k _ rfl]
      exact State.f_eq_one_of_bit rfl hfirst
    · rw [hmoved]
      obtain ⟨-, -, hstat⟩ := logRegs_apart k
      exact List.map_congr_left fun j hj => s.sameRegs_logPlain m k _ j (List.mem_singleton.not.mpr (hstat j (List.mem_append_right _ hj)).2)
  case last =>
    intro m k v s hok hv hlast hopen
    have hbit : (s.logPlain m k (v ||| 1)).bit (R.ERR_LOG_STAT_NEXT_V k) = false := by rw [State.bit, s.f_logPlain m k _ rfl]; exact hlast
    exact ⟨_, exec_logAck_of_accepted hok hv hopen, State.logUp_of_last hbit⟩
  case clear =>
    intro m k v s hok hopen
    have hclr : vbit (v ||| 2) 1 = true := by rw [vbit_or]; exact Bool.or_true _
    refine ⟨_, (exec_logClrAll m k v s).trans (congrArg _ ((State.row_of_open hopen _ _).trans (State.logCtl_of_accepted hok _))), ?_⟩
    simp only [hclr, reduceIte]
    exact State.f_logEmpty _ k
  case enter =>
    intro e s hfirst
    have hkept : (s.put (R.ERR_LOG_STAT_SEQ (logOf e.kind)) (s.f (R.ERR_LOG_STAT_SEQ (logOf e.kind)) + 1)).bit (R.ERR_LOG_STAT_FIRST_V (logOf e.kind)) = false := by
      rw [State.bit, State.f_put_apart _ _ _ _ (by decide : 16 ≤ 31) (by decide : 31 < 32) (by decide : 0 ≤ 0) (.inr (by decide : 0 < 16))]
      exact hfirst
    exact if_pos hkept

end Sys2Proof.Machine
end

section
/-! PROOFS. A repair burst of an assay pass in a bank whose wrong macro was retired before it, against the clause of the repair. -/
namespace Sys2Proof.Machine

/-- The repair burst that an assay pass asks for when it has corrected word 0 of cabinet 0, in bank 0 (R233). -/
def assayRepairReq : PReq :=
  { acc := { id := 8, req := 6, home := 0, homeDie := 0, org := .rep 0 0, cls := .free, ctx := none, fa := 0, we := false, be := 0, dat := [], op := .repair 0 0 },
    presented := true, since := 0, base := 0, urgent := false }

/-- The pass that has read words 0 and 1 and waits for that repair. -/
def passAwaitingRepair : AsyPass := { started := true, next := 2, t0 := 0, nextAt := 1, out := [], repOut := [(0, 0)], aborted := false }

/-- A die on which SEC retires macro 0 of bank 0 on unfrozen fc 0, the stored word of row 0 there being wrong in that macro; the repair is granted
on unfrozen fc 1, and its last fc has passed. -/
def repairAfterRetirement : State :=
  let s := (((State.reset.put (cabState 0) 0).setValid 0 0 0).setCell (macroCell 0 0 0) 1).setAsy 0 (some passAwaitingRepair)
  let s := ran s (exec (.retireWrite .sec 0 0 0x20) s)
  let s := ({ s with time := { s.time with ufc := 1 } } : State).grant 0 0 assayRepairReq
  { s with time := { s.time with ufc := 10 } }

/-- Its burst, from unfrozen fc 2 on, with the place of that fc in the order of all fc. -/
def assayRepairBurst : Burst :=
  { req := assayRepairReq, b0 := true, b1 := false, dur := 8, from' := 2, last := 9, dbg := false, wait := 1, prio := 0, urg := false, u := unfzAt 2 }

/-- The macro was retired before the burst began, so the repair's reads correct nothing in it (R186): no correction is counted. -/
theorem assayRepair_repairAfterRetirement :
    (ran repairAfterRetirement (exec (.assayRepair 0) repairAfterRetirement)).f (R.BNK_CE_TOTAL_COUNT 0) = 0 := by
  decide

/-- Refutes O24: its clause for the repair has the burst's bank operations performed as of `from'`, a number of fc, where `execAssayRepair` performs
them as of `u`, the place of that fc in the order of all fc. A retirement is placed in that order too (`State.setRet`) and lies past every such
number: the clause counts a correction in a macro that was retired before the burst began. -/
theorem not_rowsAreRepairedAndMoved : ¬ Obligations.RowsAreRepairedAndMoved := by
  intro h
  obtain ⟨-, -, hrepair⟩ := h
  have hnone := assayRepair_repairAfterRetirement
  rw [hrepair 0 0 0 assayRepairBurst passAwaitingRepair repairAfterRetirement (by decide) (by decide) rfl (by decide), ran] at hnone
  exact absurd hnone (by decide +kernel)

end Sys2Proof.Machine
end

section
/-! PROOFS. A transfer under a number that is no master's, against the clause of the target that parks on its master. -/
namespace Sys2Proof.Machine

/-- A read of MSRAM under the master number 16: the control matrix counts its masters from 0 to 12 (R411), and numbers from 16 on are those of the
reads that RGS serves for other dies. -/
def readBeyondMasters : CmxReq := { m := 16, tgt := 1, write := false, lock := false, la := 0x10000000, str := 0, dat := 0, rel := none }

/-- Refutes O60: its clause for the access that starts has the target's PARK field read the transfer's master number, whatever that number is. The
field has 4 bits (R428), so it reads no number from 16 on. -/
theorem not_theControlMatrixServesTransfers : ¬ Obligations.TheControlMatrixServesTransfers := by
  intro h
  obtain ⟨-, -, -, -, hstart, -⟩ := h
  obtain ⟨hpark, -⟩ := hstart 1 0 readBeyondMasters State.reset (by decide) (by decide) (by decide) (by decide) rfl
  have hlt : (State.reset.startReq 1 readBeyondMasters).f (parkOf 1) < 2 ^ 4 := State.f_lt _ R.CMX_PARK_MSRAM
  rw [hpark] at hlt
  exact absurd hlt (by decide)

end Sys2Proof.Machine
end

section
/-! PROOFS. The submissions of units: runners, counters, FIFOs, fences, repair, logs, assay passes and dumps (R236, R241, R242, R446). -/
namespace Sys2Proof.Machine

/-! One look at a submission -/

section
variable {s : State} {i : W32} {op : Nat} {j : Job} (hfind : s.mgt.jobs.find? (fun x => decide (x.idx = i.toNat) && decide (x.op = op)) = some j)
  (hdown : s.coreDown j.core = false) (hlive : s.coreLive j.core = true) (hopen : s.rgsShut j.core = false)
include hfind hdown hlive hopen

/-- A submission whose turn has come and whose operands are good starts (R445, R448). -/
theorem State.sq_of_turn (hstage : j.stage = 0) (hturn : s.jobTurn j = true) (hformed : j.malformed = false) (hrange : s.outOfRange j = false)
    (again : Instr) (go : State → Job → State) : s.sq i op again go = go s j := by
  simp [State.sq, hfind, hdown, hlive, hopen, hstage, hturn, hformed, hrange]

/-- One that has started goes on. -/
theorem State.sq_of_started (hstage : j.stage ≠ 0) (again : Instr) (go : State → Job → State) : s.sq i op again go = go s j := by
  simp [State.sq, hfind, hdown, hlive, hopen, hstage]

end

/-! The commands -/

theorem exec_sqRun (i : W32) (s : State) : exec (.sqRun i) s = execSqRun i s := rfl
theorem exec_sqSync (i : W32) (s : State) : exec (.sqSync i) s = execSqSync i s := rfl
theorem exec_sqFifo (i : W32) (s : State) : exec (.sqFifo i) s = execSqFifo i s := rfl
theorem exec_sqFence (i : W32) (s : State) : exec (.sqFence i) s = execSqFence i s := rfl
theorem exec_sqRemap (i : W32) (s : State) : exec (.sqRemap i) s = execSqRemap i s := rfl
theorem exec_sqRetire (i : W32) (s : State) : exec (.sqRetire i) s = execSqRetire i s := rfl
theorem exec_sqLogown (i : W32) (s : State) : exec (.sqLogown i) s = execSqLogown i s := rfl
theorem exec_sqAssay (i : W32) (s : State) : exec (.sqAssay i) s = execSqAssay i s := rfl
theorem exec_sqDump (i : W32) (s : State) : exec (.sqDump i) s = execSqDump i s := rfl

/-- The record at the head of a runner that bears the tag is taken, when there is room for the completion and the cabinet answers (R334, R443). -/
theorem State.runTake_of_head {s : State} {j : Job} {p r : Nat} {c : Cmpl} {rest : List Cmpl} (hhead : (s.runner p r).cmpl = c :: rest)
    (htag : c.tag = j.idx % 256) (hstatus : c.status ≠ 10) (hspace : s.cqSpace = true) (hans : s.cabAns p = true) :
    s.runTake j p r = (ran s (exec (.cmplPop .sch (Fin.ofNat 128 p) (Fin.ofNat 4 r) 1) s)).jobEnd j (if c.status = 1 ∨ c.status = 2 then 4 else 0)
      (words32 (cmplRegs (c :: rest))) := by
  simp only [State.runTake, hhead, htag, hstatus, hspace, hans, ne_eq, not_true_eq_false, not_false_eq_true, true_and, Bool.true_eq_false, or_self, reduceIte]
  rfl

/-- A record at the head that bears a tag: the runner holds its list. -/
theorem holdsTag_of_head {x : RunSt} {c : Cmpl} {rest : List Cmpl} {tag : Nat} (hhead : x.cmpl = c :: rest) (htag : c.tag = tag) : holdsTag x tag = true := by
  simp [holdsTag, hhead, htag]

/-- SEC's write of INT_EN and OWNER, without ACK and CLR_ALL (R210). -/
theorem State.logCtl_sec_plain (s : State) (k : Nat) {v : W32} (hack : vbit v 0 = false) (hclr : vbit v 1 = false) : s.logCtl .sec k v = s.logPlain .sec k v := by
  simp only [State.logCtl, hack, hclr, Bool.or_self, Bool.false_and, Bool.false_eq_true, reduceIte]
  rfl

/-- The bits of such a write. -/
theorem vbit_logown {n x : Nat} (hn : n < 2) (hx : x < 2) : vbit (BitVec.ofNat 32 (4 * x + 8 * n)) 0 = false ∧ vbit (BitVec.ofNat 32 (4 * x + 8 * n)) 1 = false ∧
    vbit (BitVec.ofNat 32 (4 * x + 8 * n)) 2 = decide (x = 1) ∧ vbit (BitVec.ofNat 32 (4 * x + 8 * n)) 3 = decide (n = 1) := by
  have hval : (BitVec.ofNat 32 (4 * x + 8 * n)).toNat = 4 * x + 8 * n := by
    rw [BitVec.toNat_ofNat, Nat.mod_eq_of_lt (by omega)]
  simp only [vbit, hval, decide_eq_false_iff_not, decide_eq_decide]
  omega

/-- Its fields read as written. -/
theorem State.f_logCtl_logown (s : State) (k : Nat) {n x : Nat} (hn : n < 2) (hx : x < 2) :
    (s.logCtl .sec k (BitVec.ofNat 32 (4 * x + 8 * n))).f (R.ERR_LOG_CTL_OWNER k) = n ∧
      (s.logCtl .sec k (BitVec.ofNat 32 (4 * x + 8 * n))).f (R.ERR_LOG_CTL_INT_EN k) = x := by
  obtain ⟨hack, hclr, hint, howner⟩ := vbit_logown hn hx
  have hbit : ∀ y : Nat, y < 2 → (if decide (y = 1) then 1 else 0) = y
    | 0, _ => rfl
    | 1, _ => rfl
  rw [State.logCtl_sec_plain s k hack hclr, State.logPlain, hint, howner, State.putb, State.putb, hbit n hn, hbit x hx]
  constructor
  · exact State.f_put_fits _ (f := R.ERR_LOG_CTL_OWNER k) (by decide : 3 ≤ 3) (by decide : 3 < 32) hn
  · exact (State.f_put_apart _ _ _ _ (by decide : 3 ≤ 3) (by decide : 3 < 32) (by decide : 2 ≤ 2) (.inr (by decide : 2 < 3))).trans
      (State.f_put_fits _ (f := R.ERR_LOG_CTL_INT_EN k) (by decide : 2 ≤ 2) (by decide : 2 < 32) hx)

/-- Settles O54, clause by clause: the submission starts or goes on (`State.sq_of_turn`, `State.sq_of_started`), and its premises pick the branch of
what it then does. -/
theorem unitSubmissionsComplete : Obligations.UnitSubmissionsComplete := by
  refine ⟨?run, ?record, ?syncCab, ?syncGlob, ?fifo, ?fence, ?fenced, ?remap, ?moved, ?retire, ?logown, ?logFields, ?assay, ?assayed, ?dump, ?dumpFreeze,
    ?dumped⟩
  case run =>
    intro i j p u s hfind hdown hlive hopen hstage hturn hformed hrange hcab hans hu hrej
    replace hu : u = ran _ (execRunnerListGo .sch _ _ _ _) := hu
    rw [exec_sqRun, execSqRun, State.sq_of_turn hfind hdown hlive hopen hstage hturn hformed hrange]
    simp only [hstage, hcab, hans, ← hu, hrej, Bool.not_true, Bool.false_eq_true, reduceIte]
  case record =>
    intro i j p c rest u s hfind hdown hlive hopen hstage htodo hhead htag hstatus hspace hans hu
    have hne : j.stage ≠ 0 := by rw [hstage]; decide
    rw [exec_sqRun, execSqRun, State.sq_of_started hfind hdown hlive hopen hne]
    simp only [hne, htodo, holdsTag_of_head hhead htag, reduceIte]
    rw [State.runTake_of_head hhead htag hstatus hspace hans, hu]
  case syncCab =>
    intro i j p u s hfind hdown hlive hopen hstage hturn hformed hrange hcab hone hans hall
    rw [exec_sqSync, execSqSync, State.sq_of_turn hfind hdown hlive hopen hstage hturn hformed hrange]
    simp only [hone, hcab, hans, hall, reduceIte]
  case syncGlob =>
    intro i j u s hfind hdown hlive hopen hstage hturn hformed hrange hglob hall
    rw [exec_sqSync, execSqSync, State.sq_of_turn hfind hdown hlive hopen hstage hturn hformed hrange]
    simp only [hglob, hall, reduceIte]
  case fifo =>
    intro i j p u s hfind hdown hlive hopen hstage hturn hformed hrange hcab hans hall
    rw [exec_sqFifo, execSqFifo, State.sq_of_turn hfind hdown hlive hopen hstage hturn hformed hrange]
    simp only [hcab, hans, hall, Bool.not_true, Bool.false_eq_true, reduceIte]
  case fence =>
    intro i j s hfind hdown hlive hopen hstage hturn hformed hrange hfen
    rw [exec_sqFence, execSqFence, State.sq_of_turn hfind hdown hlive hopen hstage hturn hformed hrange]
    simp only [hfen, hstage, Bool.false_eq_true, reduceIte]
    rfl
  case fenced =>
    intro i j s hfind hdown hlive hopen hstage hfen
    rw [exec_sqFence, execSqFence, State.sq_of_started hfind hdown hlive hopen (by rw [hstage]; decide)]
    simp only [hfen, reduceIte]
  case remap =>
    intro i j u s hfind hdown hlive hopen hstage hturn hformed hrange hans hready hu hrej hdone
    replace hu : u = ran _ (execRemapAdd _ _ _ _) := hu
    rw [exec_sqRemap, execSqRemap, State.sq_of_turn hfind hdown hlive hopen hstage hturn hformed hrange]
    simp only [hans, hready, hstage, ← hu, hrej, hdone, decide_true, Bool.not_true, Bool.and_false, Bool.false_eq_true, reduceIte]
  case moved =>
    intro i j s hfind hdown hlive hopen hstage hans hrej hdone
    have hne : j.stage ≠ 0 := by rw [hstage]; decide
    rw [exec_sqRemap, execSqRemap, State.sq_of_started hfind hdown hlive hopen hne]
    simp only [hans, hne, hrej, hdone, decide_false, Bool.not_true, Bool.false_and, Bool.false_eq_true, reduceIte]
  case retire =>
    intro i j s hfind hdown hlive hopen hstage hturn hformed hrange hans hv1
    rw [exec_sqRetire, execSqRetire, State.sq_of_turn hfind hdown hlive hopen hstage hturn hformed hrange]
    simp only [hans, hv1, Bool.not_true, Bool.false_eq_true, reduceIte]
    rfl
  case logown =>
    intro i j s hfind hdown hlive hopen hstage hturn hformed hrange
    rw [exec_sqLogown, execSqLogown, State.sq_of_turn hfind hdown hlive hopen hstage hturn hformed hrange]
  case logFields => exact fun k n x s _ hn hx => s.f_logCtl_logown k hn hx
  case assay =>
    intro i j l s hfind hdown hlive hopen hstage hturn hformed hrange hmapped hl hans
    rw [exec_sqAssay, execSqAssay, State.sq_of_turn hfind hdown hlive hopen hstage hturn hformed hrange]
    rw [hl] at hans
    simp only [hmapped, hans, hstage, true_or, Bool.false_eq_true, reduceIte]
  case assayed =>
    intro i j l s hfind hdown hlive hopen hstage htodo hmapped hl hans hgo
    have hne : j.stage ≠ 0 := by rw [hstage]; decide
    rw [exec_sqAssay, execSqAssay, State.sq_of_started hfind hdown hlive hopen hne]
    rw [hl] at hans hgo ⊢
    simp only [hmapped, hans, hne, htodo, State.assayStart, hgo, List.isEmpty_nil, Bool.not_true, or_self, Bool.false_eq_true, reduceIte]
  case dump =>
    intro i j s hfind hdown hlive hopen hstage hturn hformed hrange hfrozen
    rw [exec_sqDump, execSqDump, State.sq_of_turn hfind hdown hlive hopen hstage hturn hformed hrange]
    simp only [hstage, hfrozen, reduceIte]
    rfl
  case dumpFreeze =>
    intro i j s hfind hdown hlive hopen hstage hturn hformed hrange hfrozen
    rw [exec_sqDump, execSqDump, State.sq_of_turn hfind hdown hlive hopen hstage hturn hformed hrange]
    simp only [hstage, hfrozen, Bool.false_eq_true, reduceIte]
  case dumped =>
    intro i j s hfind hdown hlive hopen hstage hacc hrej hdone
    rw [exec_sqDump, execSqDump, State.sq_of_started hfind hdown hlive hopen (by rw [hstage]; decide)]
    simp only [hstage, hacc, hrej, hdone, Nat.zero_ne_one, Bool.not_true, Bool.and_false, Bool.false_eq_true, reduceIte]

end Sys2Proof.Machine
end

section
/-! PROOFS. The assay passes of a cabinet (R229 to R235, R253). -/
namespace Sys2Proof.Machine

/-! Registers written from a list, and the registers of leave -/

/-- A register that none of the writes names reads as before. -/
theorem State.reg_foldl_setReg_other {ks : List Nat} {k : Nat} (h : k ∉ ks) (s : State) (v : W32) : (ks.foldl (fun s k => s.setReg k v) s).reg k = s.reg k := by
  induction ks generalizing s with
  | nil => rfl
  | cons j ks ih => rw [List.foldl_cons, ih (List.not_mem_of_not_mem_cons h), State.reg_setReg_other _ _ (List.ne_of_not_mem_cons h)]

/-- Registers written with one value read as that value. -/
theorem State.reg_foldl_setReg_mem {ks : List Nat} {k : Nat} (h : k ∈ ks) (s : State) (v : W32) : (ks.foldl (fun s k => s.setReg k v) s).reg k = v := by
  induction ks generalizing s with
  | nil => exact absurd h List.not_mem_nil
  | cons j ks ih =>
    by_cases hk : k ∈ ks
    · exact ih hk _
    · obtain rfl : k = j := (List.mem_cons.mp h).resolve_right hk
      rw [List.foldl_cons, State.reg_foldl_setReg_other hk, State.reg_setReg_same]

/-- A request for leave, or a look at the head, shows in PWR.LEAVE_STAT alone (R500). -/
theorem State.reg_leavePoke {k : Nat} (h : k ≠ R.PWR_LEAVE_STAT) (s : State) : s.leavePoke.reg k = s.reg k := by
  have hwait : (s.put R.PWR_LEAVE_STAT_WAITING s.leave.queue.length).reg k = s.reg k := State.reg_put_other _ _ _ h
  unfold State.leavePoke
  dsimp only
  split
  · split <;> exact hwait
  · exact hwait

theorem State.reg_leaveAsk {k : Nat} (h : k ≠ R.PWR_LEAVE_STAT) (s : State) (who : LeaveFor) (units : Nat) : (s.leaveAsk who units).reg k = s.reg k := by
  unfold State.leaveAsk
  split
  · rfl
  · exact State.reg_leavePoke h _

theorem State.leaveAsk_rep (s : State) (who : LeaveFor) (units : Nat) : (s.leaveAsk who units).rep = s.rep :=
  (State.leaveAsk_keeps who units (K := [.agenda, .regs, .leave]) (List.Subset.refl _) (.refl s)).frame .rep (by decide)

/-! The commands -/

theorem exec_assayGo (m : Master) (cab : Cab) (v : W32) (s : State) :
    exec (.assayGo m cab v) s = .next (s.row m (.assayGo m cab v) (fun s => s.asyCtl m cab (v ||| 1))) := rfl
theorem exec_assayAbort (m : Master) (cab : Cab) (v : W32) (s : State) :
    exec (.assayAbort m cab v) s = .next (s.row m (.assayAbort m cab v) (fun s => s.asyCtl m cab (v ||| 8))) := rfl
theorem exec_assayDone (cab : Cab) (s : State) : exec (.assayDone cab) s = execAssayDone cab s := rfl

/-- A write of ASY.CTL by an accepted master: the plain fields, then GO, then ABORT (R253). -/
theorem State.row_asyCtl_of_go {s : State} {m : Master} {cab : Nat} (hsynth : s.synth cab = true) (hgo : s.stationOf cab = .go)
    (hok : bankMaster m cab = true) (hfree : s.rgsShut (masterIdx m) = false) (i : Instr) (v : W32) :
    s.row m i (fun s => s.asyCtl m cab v) = (let u := if vbit v 0 then (s.asyFields cab v).asyGo cab else s.asyFields cab v
      if vbit v 3 then u.asyAbort cab else u) :=
  State.row_gateAt_of_go hsynth hgo hok hfree i _ _

/-! The plain fields of ASY.CTL -/

/-- A field is cleared where a bit of the written value says so (W1C, R11). -/
def State.zeroIf (s : State) (on : Bool) (f : Fld) : State := if on then s.put f 0 else s

theorem State.reg_zeroIf_other (s : State) (on : Bool) {f : Fld} {k : Nat} (h : k ≠ f.key) : (s.zeroIf on f).reg k = s.reg k := by
  cases on
  · rfl
  · exact State.reg_put_other s f 0 h

theorem State.f_zeroIf_apart (s : State) (on : Bool) {f g : Fld} (h : f.lo ≤ f.hi) (h32 : f.hi < 32) (hg : g.lo ≤ g.hi) (ha : f.apart g) :
    (s.zeroIf on f).f g = s.f g := by
  cases on
  · rfl
  · exact State.f_put_of_apart s 0 h h32 hg ha

theorem State.zeroIf_rep (s : State) (on : Bool) (f : Fld) : (s.zeroIf on f).rep = s.rep := by cases on <;> rfl

section
variable (s : State) (cab : Nat) (v : W32)

theorem State.asyFields_eq : s.asyFields cab v = ((s.zeroIf (vbit v 1) (R.ASY_CTL_DONE cab)).zeroIf (vbit v 2) (R.ASY_CTL_REJ cab)).puts
    [(R.ASY_CTL_REPAIR cab, v.toNat / 16 % 2), (R.ASY_CTL_REMAP_EN cab, v.toNat / 32 % 2), (R.ASY_CTL_GAP cab, v.toNat / 256 % 256)] := rfl

theorem State.sameRegs_asyFields : s.sameRegs [R.ASY_CTL cab] (s.asyFields cab v) := by
  intro k hk
  have hne : k ≠ R.ASY_CTL cab := List.ne_of_not_mem_cons hk
  rw [State.asyFields_eq, State.reg_puts_other _ _ (by simpa using ⟨hne, hne, hne⟩), State.reg_zeroIf_other _ _ hne, State.reg_zeroIf_other _ _ hne]

theorem State.asyPass_asyFields : (s.asyFields cab v).asyPass cab = s.asyPass cab := by
  rw [State.asyPass, State.asyFields_eq, State.puts_rep, State.zeroIf_rep, State.zeroIf_rep]
  rfl

/-- GO is no plain field. -/
theorem State.f_asyFields_go : (s.asyFields cab v).f (R.ASY_CTL_GO cab) = s.f (R.ASY_CTL_GO cab) := by
  rw [State.asyFields_eq]
  simp only [State.puts_cons, State.puts_nil]
  rw [State.f_put_apart _ _ _ _ (by decide : 8 ≤ 15) (by decide : 15 < 32) (by decide : 0 ≤ 0) (.inr (by decide : 0 < 8)),
    State.f_put_apart _ _ _ _ (by decide : 5 ≤ 5) (by decide : 5 < 32) (by decide : 0 ≤ 0) (.inr (by decide : 0 < 5)),
    State.f_put_apart _ _ _ _ (by decide : 4 ≤ 4) (by decide : 4 < 32) (by decide : 0 ≤ 0) (.inr (by decide : 0 < 4)),
    State.f_zeroIf_apart _ _ (by decide : 2 ≤ 2) (by decide : 2 < 32) (by decide : 0 ≤ 0) (.inr (.inr (by decide : 0 < 2))),
    State.f_zeroIf_apart _ _ (by decide : 1 ≤ 1) (by decide : 1 < 32) (by decide : 0 ≤ 0) (.inr (.inr (by decide : 0 < 1)))]

theorem State.f_asyFields_gap : (s.asyFields cab v).f (R.ASY_CTL_GAP cab) = v.toNat / 256 % 256 :=
  State.f_put_fits _ (f := R.ASY_CTL_GAP cab) (by decide : 8 ≤ 15) (by decide : 15 < 32) (Nat.mod_lt _ (by decide))

end

/-! GO -/

/-- The seven registers of the summary (R254). -/
def asySums (cab : Nat) : List Nat :=
  [R.ASY_SUM_WORDS cab, R.ASY_SUM_INVALID cab, R.ASY_SUM_CE cab, R.ASY_SUM_UE cab, R.ASY_SUM_UE_ADDR cab, R.ASY_SUM_REMAP cab, R.ASY_SUM_DUR cab]

/-- The summary of the last pass is cleared, GO set and END cleared (R229, R230). -/
def State.asyBegun (s : State) (cab : Nat) : State := ((asySums cab).foldl (fun s k => s.setReg k 0) s).puts [(R.ASY_CTL_GO cab, 1), (R.ASY_CTL_END cab, 0)]

/-- A pass that waits for its leave (R230). -/
def passAt (base : Nat) : AsyPass := { started := false, next := base, t0 := 0, nextAt := 0, out := [], repOut := [], aborted := false }

theorem State.asyGo_of_idle {s : State} {cab : Nat} (hidle : s.bit (R.ASY_CTL_GO cab) = false) (hle : s.f (R.ASY_BASE_BASE cab) ≤ s.f (R.ASY_LIMIT_LIMIT cab)) :
    s.asyGo cab = ((s.asyBegun cab).setAsy cab (some (passAt ((s.asyBegun cab).f (R.ASY_BASE_BASE cab))))).leaveAsk (.assay cab) 10 := by
  simp only [State.asyGo, hidle, Nat.not_lt.mpr hle, decide_false, Bool.or_self, Bool.false_eq_true, reduceIte]
  rfl

/-- The registers of block ASY of a cabinet stand apart (R253, R254). -/
theorem asySums_apart (cab : Nat) : ∀ k ∈ asySums cab, k ≠ R.ASY_CTL cab ∧ k ≠ R.ASY_BASE cab := by
  simp [asySums, R.ASY_SUM_WORDS, R.ASY_SUM_INVALID, R.ASY_SUM_CE, R.ASY_SUM_UE, R.ASY_SUM_UE_ADDR, R.ASY_SUM_REMAP, R.ASY_SUM_DUR, R.ASY_CTL, R.ASY_BASE, cabReg]

theorem State.reg_asyBegun_other (s : State) {cab k : Nat} (hsum : k ∉ asySums cab) (hctl : k ≠ R.ASY_CTL cab) : (s.asyBegun cab).reg k = s.reg k := by
  rw [State.asyBegun, State.reg_puts_other _ _ (by simpa using ⟨hctl, hctl⟩), State.reg_foldl_setReg_other hsum]

theorem State.reg_asyBegun_sum (s : State) {cab k : Nat} (h : k ∈ asySums cab) : (s.asyBegun cab).reg k = 0 := by
  have hctl := (asySums_apart cab k h).1
  rw [State.asyBegun, State.reg_puts_other _ _ (by simpa using ⟨hctl, hctl⟩), State.reg_foldl_setReg_mem h]

/-- The fields of ASY.CTL once GO is set. -/
theorem State.f_asyBegun (s : State) (cab : Nat) : (s.asyBegun cab).f (R.ASY_CTL_GO cab) = 1 ∧ (s.asyBegun cab).f (R.ASY_CTL_END cab) = 0 ∧
    (s.asyBegun cab).f (R.ASY_CTL_GAP cab) = s.f (R.ASY_CTL_GAP cab) := by
  have hsum : R.ASY_CTL cab ∉ asySums cab := fun h => (asySums_apart cab _ h).1 rfl
  simp only [State.asyBegun, State.puts_cons, State.puts_nil]
  refine ⟨?_, ?_, ?_⟩
  · rw [State.f_put_apart _ _ _ _ (by decide : 6 ≤ 7) (by decide : 7 < 32) (by decide : 0 ≤ 0) (.inr (by decide : 0 < 6))]
    exact State.f_put_fits _ (f := R.ASY_CTL_GO cab) (by decide : 0 ≤ 0) (by decide : 0 < 32) (by decide : 1 < 2 ^ 1)
  · exact State.f_put_fits _ (f := R.ASY_CTL_END cab) (by decide : 6 ≤ 7) (by decide : 7 < 32) (by decide : 0 < 2 ^ 2)
  · rw [State.f_put_apart _ _ _ _ (by decide : 6 ≤ 7) (by decide : 7 < 32) (by decide : 8 ≤ 15) (.inl (by decide : 7 < 8)),
      State.f_put_apart _ _ _ _ (by decide : 0 ≤ 0) (by decide : 0 < 32) (by decide : 8 ≤ 15) (.inl (by decide : 0 < 8)),
      State.f_congr (State.reg_foldl_setReg_other hsum s 0)]

/-- The pass of a write that adds GO: the summary cleared, the plain fields taken, leave asked for. -/
def State.asyGone (s : State) (cab : Nat) (v : W32) : State :=
  (((s.asyFields cab (v ||| 1)).asyBegun cab).setAsy cab (some (passAt (s.f (R.ASY_BASE_BASE cab))))).leaveAsk (.assay cab) 10

theorem exec_assayGo_of_idle {m : Master} {cab : Cab} {v : W32} {s : State} (hsynth : s.synth cab = true) (hgo : s.stationOf cab = .go)
    (hok : bankMaster m cab = true) (habort : vbit v 3 = false) (hidle : s.bit (R.ASY_CTL_GO cab) = false)
    (hle : s.f (R.ASY_BASE_BASE cab) ≤ s.f (R.ASY_LIMIT_LIMIT cab)) (hfree : s.rgsShut (masterIdx m) = false) :
    exec (.assayGo m cab v) s = .next (s.asyGone cab v) := by
  have hset : vbit (v ||| 1) 0 = true := by rw [vbit_or]; exact Bool.or_true _
  have hkeep : vbit (v ||| 1) 3 = false := by rw [vbit_or, habort]; decide
  have hsame := s.sameRegs_asyFields cab (v ||| 1)
  have hrange : ∀ k ∈ [R.ASY_BASE cab, R.ASY_LIMIT cab], (s.asyFields cab (v ||| 1)).reg k = s.reg k := fun k hk =>
    hsame k (by simp [R.ASY_BASE, R.ASY_LIMIT, R.ASY_CTL, cabReg] at hk ⊢; omega)
  have hbase : (s.asyFields cab (v ||| 1)).f (R.ASY_BASE_BASE cab) = s.f (R.ASY_BASE_BASE cab) := State.f_congr (hrange _ (by simp [R.ASY_BASE_BASE]))
  have hlimit : (s.asyFields cab (v ||| 1)).f (R.ASY_LIMIT_LIMIT cab) = s.f (R.ASY_LIMIT_LIMIT cab) := State.f_congr (hrange _ (by simp [R.ASY_LIMIT_LIMIT]))
  have hbegun : ((s.asyFields cab (v ||| 1)).asyBegun cab).f (R.ASY_BASE_BASE cab) = s.f (R.ASY_BASE_BASE cab) :=
    (State.f_congr (State.reg_asyBegun_other _ (fun h => (asySums_apart cab _ h).2 rfl) (by simp [R.ASY_BASE_BASE, R.ASY_BASE, R.ASY_CTL, cabReg]))).trans hbase
  have hgo' : (s.asyFields cab (v ||| 1)).bit (R.ASY_CTL_GO cab) = false := by
    rw [State.bit, State.f_asyFields_go]
    exact hidle
  rw [exec_assayGo, State.row_asyCtl_of_go hsynth hgo hok hfree, hset, hkeep]
  simp only [reduceIte, Bool.false_eq_true]
  rw [State.asyGo_of_idle hgo' (by rw [hbase, hlimit]; exact hle), hbegun, State.asyGone]

/-- GAP of a value is that of the value with GO. -/
theorem gap_or_one (v : W32) : (v ||| 1).toNat / 256 % 256 = v.toNat / 256 % 256 := by
  have hhigh : (v.toNat ||| 1) >>> 8 = v.toNat >>> 8 := by rw [Nat.shiftRight_or_distrib]; exact Nat.or_zero _
  simp only [Nat.shiftRight_eq_div_pow] at hhigh
  rw [BitVec.toNat_or]
  exact congrArg (· % 256) hhigh

/-- The registers of block ASY of a cabinet are none of the die's (R51). -/
theorem asyRegs_ne_leaveStat (cab : Cab) : ∀ k ∈ R.ASY_CTL cab :: asySums cab, k ≠ R.PWR_LEAVE_STAT := by
  have hne : ∀ o < 65536, cabReg cab 8 o ≠ R.PWR_LEAVE_STAT := fun o ho => (dieReg_ne_cabReg _ _ cab.isLt (by decide) ho).symm
  simp only [asySums, List.forall_mem_cons]
  exact ⟨hne 8 (by decide), hne 16 (by decide), hne 20 (by decide), hne 24 (by decide), hne 28 (by decide), hne 32 (by decide), hne 36 (by decide),
    hne 40 (by decide), fun _ h => absurd h List.not_mem_nil⟩

theorem State.reg_setAsy (s : State) (cab : Nat) (p : Option AsyPass) (k : Nat) : (s.setAsy cab p).reg k = s.reg k := rfl

theorem State.reg_asyGone (s : State) (cab : Cab) (v : W32) {k : Nat} (h : k ∈ R.ASY_CTL cab :: asySums cab) :
    (s.asyGone cab v).reg k = ((s.asyFields cab (v ||| 1)).asyBegun cab).reg k := by
  rw [State.asyGone, State.reg_leaveAsk (asyRegs_ne_leaveStat cab k h), State.reg_setAsy]

theorem State.asyPass_setAsy (s : State) (cab : Nat) (p : Option AsyPass) : (s.setAsy cab p).asyPass cab = p := SMap.get_set_same _ _ _ _

theorem State.asyPass_asyGone (s : State) (cab : Nat) (v : W32) : (s.asyGone cab v).asyPass cab = some (passAt (s.f (R.ASY_BASE_BASE cab))) := by
  rw [State.asyGone, State.asyPass, State.leaveAsk_rep]
  exact State.asyPass_setAsy _ _ _

/-! ABORT -/

/-- An abort of a started pass (R234). -/
theorem exec_assayAbort_of_started {m : Master} {cab : Cab} {v : W32} {p : AsyPass} {s : State} (hsynth : s.synth cab = true) (hgo : s.stationOf cab = .go)
    (hok : bankMaster m cab = true) (hset : vbit v 0 = false) (hpass : s.asyPass cab = some p) (hstarted : p.started = true)
    (hfree : s.rgsShut (masterIdx m) = false) :
    exec (.assayAbort m cab v) s = .next (((s.asyFields cab (v ||| 8)).setAsy cab (some { p with aborted := true })).asyCheck cab 1) := by
  have hkeep : vbit (v ||| 8) 0 = false := by rw [vbit_or, hset]; decide
  have habort : vbit (v ||| 8) 3 = true := by rw [vbit_or]; exact Bool.or_true _
  rw [exec_assayAbort, State.row_asyCtl_of_go hsynth hgo hok hfree, hkeep, habort]
  simp only [State.asyAbort, State.asyPass_asyFields, hpass, hstarted, Bool.false_eq_true, reduceIte]

/-! The next read -/

/-- A request that is presented at once stands last in the queue of its pair (R154). -/
theorem State.queue_enqueueNow (s : State) (cab : Nat) (q : LReq) : ((s.enqueueNow cab q).pairSt cab (LReqPair q)).queue =
    (s.pairSt cab (LReqPair q)).queue ++ [{ acc := q, presented := false, since := s.time.fc - 1, base := 0, urgent := false }] := by
  have harm : ∀ u : State, (u.armPair cab (LReqPair q)).loose = u.loose := fun u =>
    (State.armPair_keeps cab (LReqPair q) (K := [.agenda]) (List.Subset.refl _) (.refl u)).frame .loose (by decide)
  rw [State.pairSt, State.enqueueNow, State.later_loose, harm]
  exact congrArg PairSt.queue (SMap.get_set_same _ _ _ _)

theorem State.enqueueNow_rep (s : State) (cab : Nat) (q : LReq) : (s.enqueueNow cab q).rep = s.rep :=
  (State.enqueueNow_keeps cab q (K := [.agenda, .loose]) (List.Subset.refl _) (.refl s)).frame .rep (by decide)

/-- The read of a pass that begins at word `i`: two words on an even index within LIMIT, one otherwise (R231). -/
def State.asyRead (s : State) (cab i : Nat) : LReq :=
  { id := s.loose.nextId, req := 6, home := cab, homeDie := s.die, org := .asy cab i, cls := .free, ctx := none, fa := s.faOf cab i / 64 * 64, we := false,
    be := (if i % 2 = 0 then 2 ^ 32 - 1 else 0) + (if i % 2 = 1 || (decide (i % 2 = 0) && decide (i + 1 ≤ s.f (R.ASY_LIMIT_LIMIT cab))) then (2 ^ 32 - 1) * 2 ^ 32 else 0),
    dat := [], op := .acc }

/-- The pass once that read is presented. -/
def State.asyNext (s : State) (cab : Nat) (p : AsyPass) : AsyPass :=
  { p with next := p.next + (if p.next % 2 = 0 ∧ p.next + 1 ≤ s.f (R.ASY_LIMIT_LIMIT cab) then 2 else 1), nextAt := s.time.ufc + 1 + s.f (R.ASY_CTL_GAP cab),
           out := p.out ++ [(p.next % 32 / 2, p.next)] }

theorem State.asyPresent_eq (s : State) (cab : Nat) (p : AsyPass) : s.asyPresent cab p =
    ((s.setAsy cab (some (s.asyNext cab p))).fresh.enqueueNow cab (s.asyRead cab p.next)).at' .unfz (s.time.ufc + 1 + s.f (R.ASY_CTL_GAP cab))
      (.assayBurst (Fin.ofNat 128 cab)) := by
  simp only [State.asyPresent, State.asyNext, State.asyRead, Bool.and_eq_true, decide_eq_true_eq]

/-- The words of a read stand in the pair that their index names (R148). -/
theorem State.pair_asyRead (s : State) (cab i : Nat) : LReqPair (s.asyRead cab i) = i % 32 / 2 := by
  show s.faOf cab i / 64 * 64 / 64 % 16 = i % 32 / 2
  unfold State.faOf
  omega

theorem State.asyPass_asyPresent (s : State) (cab : Nat) (p : AsyPass) : (s.asyPresent cab p).asyPass cab = some (s.asyNext cab p) := by
  rw [State.asyPresent_eq, State.asyPass, State.at'_rep, State.enqueueNow_rep, State.fresh_rep]
  exact State.asyPass_setAsy _ _ _

theorem State.queue_asyPresent (s : State) (cab : Nat) (p : AsyPass) :
    ((s.asyPresent cab p).pairSt cab (p.next % 32 / 2)).queue.any (fun q => decide (q.acc.org = .asy cab p.next)) = true := by
  rw [State.asyPresent_eq, ← s.pair_asyRead cab p.next, State.pairSt, State.at'_loose, ← State.pairSt, State.queue_enqueueNow, List.any_append]
  simp [State.asyRead]

/-- The pass no longer holds the answers of its reads. -/
def State.asyTaken (s : State) (cab : Nat) : State :=
  { s with loose := { s.loose with acked := s.loose.acked.filter (fun e => (match e.1.org with
    | .asy c w => if c = cab then some w else none
    | _ => none).isNone) } }

/-- A look at a pass that goes on (R231): the next read is presented, or waits, or nothing is left to present. -/
theorem exec_assayBurst_of_pass {cab : Cab} {p : AsyPass} {s : State} (hpass : s.asyPass cab = some p) : exec (.assayBurst cab) s =
    (let u := s.asyTaken cab
     let j := p.next % 32 / 2
     if !p.started || p.aborted || decide (u.f (R.ASY_LIMIT_LIMIT cab) < p.next) then .next (u.asyCheck cab 1)
     else if u.frozen || decide (u.time.ufc < p.nextAt) || decide (u.time.ufc = p.taken) || p.out.any (fun o => decide (o.1 = j)) || p.repOut.any (fun o => decide (o.1 / 2 = j)) then
       .next (u.arm .unfz 1 (.assayBurst cab))
     else .next (u.asyPresent cab p)) := by
  have hpass' : (s.asyTaken cab).asyPass cab = some p := hpass
  have hlook : exec (.assayBurst cab) s = (match (s.asyTaken cab).asyPass cab with
    | none => .next (s.asyTaken cab)
    | some p => _) := rfl
  rw [hlook, hpass']
  rfl

theorem exec_assayBurst_of_due {cab : Cab} {p : AsyPass} {s : State} (hpass : s.asyPass cab = some p) (hstarted : p.started = true) (hgoing : p.aborted = false)
    (hleft : p.next ≤ s.f (R.ASY_LIMIT_LIMIT cab)) (hfrz : s.frozen = false) (hdue : p.nextAt ≤ s.time.ufc) (htaken : s.time.ufc ≠ p.taken)
    (hout : p.out.any (fun x => decide (x.1 = p.next % 32 / 2)) = false) (hrep : p.repOut.any (fun x => decide (x.1 / 2 = p.next % 32 / 2)) = false) :
    exec (.assayBurst cab) s = .next ((s.asyTaken cab).asyPresent cab p) := by
  replace hfrz : (s.asyTaken cab).frozen = false := hfrz
  replace hleft : ¬ (s.asyTaken cab).f (R.ASY_LIMIT_LIMIT cab) < p.next := Nat.not_lt.mpr hleft
  replace hdue : ¬ (s.asyTaken cab).time.ufc < p.nextAt := Nat.not_lt.mpr hdue
  replace htaken : (s.asyTaken cab).time.ufc ≠ p.taken := htaken
  rw [exec_assayBurst_of_pass hpass]
  simp only [hstarted, hgoing, hleft, hfrz, hdue, htaken, hout, hrep, decide_false, Bool.not_true, Bool.or_self, Bool.false_eq_true, reduceIte]

/-! Settling -/

/-- Settles O23, clause by clause. -/
theorem assayPassesRunAndEnd : Obligations.AssayPassesRunAndEnd := by
  refine ⟨?go, ?abort, ?burst, ?done⟩
  case go =>
    intro m cab v s hsynth hgo hok _ _ habort hidle hle hfree
    obtain ⟨hset, hend, hgap⟩ := (s.asyFields cab (v ||| 1)).f_asyBegun cab
    have hctl := s.reg_asyGone cab v List.mem_cons_self
    refine ⟨_, exec_assayGo_of_idle hsynth hgo hok habort hidle hle hfree, (State.f_congr hctl).trans hset, (State.f_congr hctl).trans hend, ?_, ?_,
      s.asyPass_asyGone cab v⟩
    · exact (State.f_congr hctl).trans (hgap.trans ((s.f_asyFields_gap cab _).trans (gap_or_one v)))
    · exact fun k hk => (s.reg_asyGone cab v (List.mem_cons_of_mem _ hk)).trans (State.reg_asyBegun_sum _ hk)
  case abort => exact fun m cab v p s hsynth hgo hok hset hpass hstarted hfree => exec_assayAbort_of_started hsynth hgo hok hset hpass hstarted hfree
  case burst =>
    intro cab p s hpass hstarted hgoing hleft hfrz hdue htaken hout hrep
    exact ⟨_, exec_assayBurst_of_due hpass hstarted hgoing hleft hfrz hdue htaken hout hrep, (s.asyTaken cab).asyPass_asyPresent cab p,
      (s.asyTaken cab).queue_asyPresent cab p⟩
  case done =>
    intro cab p s hpass hstarted hover hout hrep
    have hend : (p.aborted || decide (s.f (R.ASY_LIMIT_LIMIT cab) < p.next)) = true := by simpa using hover
    rw [exec_assayDone, execAssayDone, hpass]
    simp only [hstarted, hout, hrep, hend, List.isEmpty_nil, Bool.and_self, reduceIte]

end Sys2Proof.Machine
end

section
/-! SUPPORT. What a fence does after it has set its bit (R246 to R248) leaves the mask and the causes as they are, and takes back no context fault. -/
namespace Sys2Proof.Machine

/-- What the step of one element brings about and every step keeps holds after a fold over a list with that element. -/
theorem foldl_holds_of_mem {α β : Type} {P : β → Prop} {f : β → α → β} {l : List α} {a : α} (ha : a ∈ l) (hstep : ∀ u, P (f u a)) (hkeep : ∀ u x, P u → P (f u x))
    (b : β) : P (l.foldl f b) := by
  induction l using List.reverseRecOn with
  | nil => exact absurd ha List.not_mem_nil
  | append_singleton l x ih =>
    rw [List.foldl_append]
    rcases List.mem_append.mp ha with hl | hx
    · exact hkeep _ x (ih hl)
    · obtain rfl := List.mem_singleton.mp hx
      exact hstep _

/-- The register is none of the fence mask and the fence causes (R242, R246). -/
def OffFence (k : Nat) : Prop := k < dieReg 0 1296 ∨ dieReg 0 2048 ≤ k

theorem offFence_dieReg {b : Nat} (hb : 0 < b) (o : Nat) : OffFence (dieReg b o) := .inr (by unfold dieReg cabReg; omega)

theorem offFence_cabReg {p b o : Nat} (hp : p < 128) (hb : b < 64) (ho : o < 65536) : OffFence (cabReg p b o) := .inl (by unfold dieReg cabReg; omega)

theorem offFence_routeRefuse : OffFence R.IDV_ROUTE_REFUSE := .inl (by decide)

/-- Whatever the number of the cabinet. -/
theorem offFence_cabPwrStat (p : Nat) : OffFence (R.CAB_PWR_STAT p) := by
  unfold OffFence R.CAB_PWR_STAT dieReg cabReg
  omega

/-- From `s` to `t` the fence mask, the fence causes and every context fault stay. -/
structure FenceKept (s t : State) : Prop where
  regs : ∀ k, ¬ OffFence k → t.reg k = s.reg k
  pins : s.stp.faultPin ⊆ t.stp.faultPin

/-- Every part but the registers and the steps of the contexts. -/
def partsOffFence : List Part := allParts.filter (fun p => !decide (p = .regs) && !decide (p = .stp))

variable {b s t u : State}

theorem FenceKept.refl (s : State) : FenceKept s s := ⟨fun _ _ => rfl, List.Subset.refl _⟩

theorem FenceKept.trans (h : FenceKept s t) (g : FenceKept t u) : FenceKept s u :=
  ⟨fun k hk => (g.regs k hk).trans (h.regs k hk), List.Subset.trans h.pins g.pins⟩

theorem FenceKept.of_keeps (h : Keeps partsOffFence s t) : FenceKept s t := by
  have hstp : t.stp = s.stp := h.frame .stp (by decide)
  exact ⟨fun k _ => h.reg (by decide) k, by rw [hstp]; exact List.Subset.refl _⟩

theorem FenceKept.then (h : FenceKept b s) (g : Keeps partsOffFence s t) : FenceKept b t := h.trans (.of_keeps g)

/-- An update of other parts. -/
theorem FenceKept.upd (h : FenceKept b s) (hregs : t.regs = s.regs) (hstp : t.stp = s.stp) : FenceKept b t := by
  refine h.trans ⟨fun k _ => ?_, by rw [hstp]; exact List.Subset.refl _⟩
  unfold State.reg
  rw [hregs]

theorem FenceKept.ite {c : Prop} [Decidable c] (hs : FenceKept b s) (ht : FenceKept b t) : FenceKept b (if c then s else t) := by
  split
  · exact hs
  · exact ht

theorem FenceKept.ite_then {c : Prop} [Decidable c] (h : FenceKept b s) (g : FenceKept s t) : FenceKept b (if c then s else t) := .ite h (h.trans g)

theorem FenceKept.foldl {α : Type} {f : State → α → State} (l : List α) (h : FenceKept b s) (hf : ∀ u a, FenceKept u (f u a)) : FenceKept b (l.foldl f s) := by
  induction l generalizing s with
  | nil => exact h
  | cons a l ih => exact ih (h.trans (hf s a))

theorem FenceKept.put (h : FenceKept b s) {f : Fld} (hf : OffFence f.key) (n : Nat) : FenceKept b (s.put f n) :=
  h.trans ⟨fun _ hk => State.reg_put_other s f n (fun e => hk (e ▸ hf)), List.Subset.refl _⟩

theorem FenceKept.puts (h : FenceKept b s) {l : List (Fld × Nat)} (hl : ∀ e ∈ l, OffFence e.1.key) : FenceKept b (s.puts l) :=
  h.trans ⟨fun _ hk => State.reg_puts_other s l (fun e he heq => hk (heq ▸ hl e he)), by rw [State.puts_stp]; exact List.Subset.refl _⟩

theorem FenceKept.inc (h : FenceKept b s) {f : Fld} (hf : OffFence f.key) : FenceKept b (s.inc f) := h.put hf _

/-! Leave, lists and sweeps -/

theorem State.leavePoke_fenceKept (h : FenceKept b s) : FenceKept b s.leavePoke := by
  have hwait : FenceKept b (s.put R.PWR_LEAVE_STAT_WAITING s.leave.queue.length) := h.put (offFence_dieReg (by decide) _) _
  unfold State.leavePoke
  dsimp only
  split
  · split
    · exact hwait
    · exact hwait.upd rfl rfl
  · exact hwait.upd rfl rfl

theorem State.leaveDrop_fenceKept (who : LeaveFor) (h : FenceKept b s) : FenceKept b (s.leaveDrop who) :=
  State.leavePoke_fenceKept (h.upd rfl rfl)

/-- A unit gives up the leave that it waits for and the leave that it holds. -/
theorem State.leaveGone_fenceKept (who : LeaveFor) (h : FenceKept b s) : FenceKept b ((s.leaveDrop who).leaveBack who) := by
  refine State.leavePoke_fenceKept (FenceKept.put ?_ (f := R.PWR_LEAVE_STAT_USED) (offFence_dieReg (by decide) _) _)
  exact (State.leaveDrop_fenceKept who h).upd rfl rfl

theorem State.cancelStarts_fenceKept (cab r : Nat) (h : FenceKept b s) : FenceKept b (s.cancelStarts cab r) := by
  refine h.foldl _ fun u e => ?_
  split
  · split
    · exact .then (State.leaveDrop_fenceKept _ (State.leaveDrop_fenceKept _ (.of_keeps (State.setRunner_keeps _ _ _ (by decide) (.refl u)))))
        (State.kick_keeps _ _ (by decide) (.refl _))
    · exact .refl u
  · exact .refl u

theorem State.lostWork_fenceKept (l : Nat × Nat) (idx : Nat) (h : FenceKept b s) : FenceKept b (s.lostWork l idx) := by
  have hend : FenceKept b (s.endList l.1 l.2 1 idx 3 0) := State.cancelStarts_fenceKept _ _ (h.then (State.onList_keeps _ _ _ (by decide) (.refl s)))
  exact hend.then (State.descDone_keeps _ _ _ (by decide) (.refl _))

theorem State.fenceRunner_fenceKept (p r : Nat) (h : FenceKept b s) : FenceKept b (s.fenceRunner p r) := by
  unfold State.fenceRunner
  refine .ite_then (FenceKept.foldl _ (FenceKept.then (FenceKept.foldl _ (FenceKept.foldl _ ?_ fun u e => ?_) fun u w => ?_)
    (State.setRunner_keeps _ _ _ (by decide) (.refl _))) fun u l => State.lostWork_fenceKept _ _ (.refl u)) (.of_keeps (State.arm_keeps _ _ _ (by decide) (.refl _)))
  · exact h.upd rfl rfl
  · exact (State.leaveGone_fenceKept _ (.refl u)).then (State.kick_keeps _ _ (by decide) (.refl _))
  · exact State.leaveGone_fenceKept _ (.refl u)

theorem State.sweepOver_fenceKept {p : Nat} (hp : p < 128) (o : SwpOrg) (n : Nat) (h : FenceKept b s) : FenceKept b (s.sweepOver p o n) := by
  have hctl : OffFence (R.BNK_SWP_CTL p) := offFence_cabReg hp (by decide) (by decide)
  cases o with
  | reg => exact h.puts (by simpa using ⟨hctl, hctl⟩)
  | desc c r => exact .ite h (h.upd rfl rfl)
  | window w => exact .ite h (h.upd rfl rfl)
  | wake => exact h.upd rfl rfl

theorem State.sweepsOver_fenceKept {p : Nat} (hp : p < 128) (h : FenceKept b s) : FenceKept b (s.sweepsOver p) := by
  unfold State.sweepsOver
  exact FenceKept.foldl _ (h.upd rfl rfl) fun u o => State.sweepOver_fenceKept hp o 1 (.refl u)

theorem State.endCmd_fenceKept (p : Nat) (h : FenceKept b s) : FenceKept b (s.endCmd p) := by
  have hstat : OffFence (R.PWR_CAB_STAT (p / 8)) := offFence_dieReg (by decide) _
  unfold State.endCmd
  refine FenceKept.puts ?_ (by simpa using ⟨hstat, hstat⟩)
  exact h.upd rfl rfl

theorem State.fenceEngines_fenceKept {p : Nat} (hp : p < 128) (h : FenceKept b s) : FenceKept b (s.fenceEngines p) := by
  have hasy : FenceKept b ((s.sweepsOver p).setAsy p none) := (State.sweepsOver_fenceKept hp h).upd rfl rfl
  have hleave := hasy.foldl [LeaveFor.assay p, LeaveFor.wake p] fun u w => State.leaveGone_fenceKept w (.refl u)
  exact (State.endCmd_fenceKept p hleave).foldl _ fun u f => .of_keeps (State.fifoFlush_keeps p f (by decide) (.refl u))

/-! Accesses that are answered -/

theorem State.launchFar_fenceKept (q : LReq) (a : Option Ans) (cab die : Nat) (urg : Bool) (h : FenceKept b s) : FenceKept b (s.launchFar q a cab die urg) := by
  unfold State.launchFar
  split
  · refine FenceKept.then ?_ (State.launch_keeps _ _ _ _ _ _ (by decide) (.refl _))
    exact .ite (h.upd rfl rfl) h
  · have hrefuse := h.then (State.refuse_keeps q.req (some cab) q.ctx (accAddr q) 0x10100 (by decide) (.refl s))
    exact (hrefuse.inc (f := R.IDV_ROUTE_REFUSE_COUNT) offFence_routeRefuse).then (State.deliver_keeps _ _ (by decide) (.refl _))

/-- A write that is answered is drained. -/
theorem State.drainedIf_fenceKept (q : LReq) (h : FenceKept b s) : FenceKept b (if q.we then s.drained q.id else s) := .ite (h.upd rfl rfl) h

theorem State.replyNow_fenceKept (q : LReq) (a : Ans) (cab : Nat) (h : FenceKept b s) : FenceKept b (s.replyNow q a cab) := by
  have hdrained := State.drainedIf_fenceKept q h
  exact .ite (State.launchFar_fenceKept _ _ _ _ _ hdrained) (hdrained.then (State.deliver_keeps _ _ (by decide) (.refl _)))

theorem State.reply_fenceKept (q : LReq) (a : Ans) (cab : Nat) (h : FenceKept b s) : FenceKept b (s.reply q a cab) := by
  have hdrained := State.drainedIf_fenceKept q h
  exact .ite (State.launchFar_fenceKept _ _ _ _ _ hdrained)
    (.ite (hdrained.then (State.deliver_keeps _ _ (by decide) (State.readBack_keeps _ (by decide) (.refl _))))
      (hdrained.then (State.launch_keeps _ _ _ _ _ _ (by decide) (.refl _))))

theorem State.refused_fenceKept (cab target reason : Nat) (abort job : Bool) (h : FenceKept b s) : FenceKept b (s.refused cab target reason abort job) := by
  have hlast : OffFence R.PWR_REF_LAST := offFence_dieReg (by decide) _
  have hcount : OffFence (if abort then R.PWR_ABT_CNT_COUNT (reason - 1) else R.PWR_REF_CNT_COUNT (reason - 1)).key := by
    cases abort
    · exact offFence_dieReg (by decide) _
    · exact offFence_dieReg (by decide) _
  unfold State.refused
  refine FenceKept.inc (FenceKept.puts ?_ (by simpa using ⟨hlast, hlast, hlast, hlast, hlast⟩)) hcount
  exact h.upd rfl rfl

theorem State.abortLower_fenceKept (cab reason : Nat) (h : FenceKept b s) : FenceKept b (s.abortLower cab reason) := by
  unfold State.abortLower
  split
  · exact h
  · next e _ =>
    refine State.refused_fenceKept _ _ _ _ _ (FenceKept.put ?_ (f := R.PWR_ABT_CNT_COUNT (e.2.1 - 1)) (offFence_dieReg (by decide) _) _)
    exact h.upd rfl rfl

theorem State.entryAbort_fenceKept (cab reason : Nat) (h : FenceKept b s) : FenceKept b (s.entryAbort cab reason) := by
  unfold State.entryAbort
  split
  · exact State.abortLower_fenceKept cab reason h
  · refine FenceKept.then (State.refused_fenceKept _ _ _ _ _ (State.endCmd_fenceKept cab ?_)) (State.kickCab_keeps _ (by decide) (.refl _))
    exact h.upd rfl rfl

theorem State.wakeDoze_fenceKept (cab src : Nat) (h : FenceKept b s) : FenceKept b (s.wakeDoze cab src) := by
  have hsrc := h.put (f := R.CAB_PWR_STAT_WAKE_SRC cab) (offFence_cabPwrStat cab) src
  have hbusy := hsrc.put (f := cabBusy cab) (offFence_dieReg (by decide) _) 1
  exact .ite (hbusy.then (State.later_keeps _ _ _ (by decide) (.refl _))) h

theorem State.arrive_fenceKept (q : LReq) (p i : Nat) (h : FenceKept b s) : FenceKept b (s.arrive q p i) := by
  have hwake := State.wakeDoze_fenceKept p 1 (State.entryAbort_fenceKept p 8 h)
  exact .ite (State.reply_fenceKept _ _ _ h) (hwake.then (State.enqueue_keeps _ _ (by decide) (.refl _)))

theorem State.perhapsWrite_fenceKept (q : LReq) (place : Option Nat) (h : FenceKept b s) : FenceKept b (s.perhapsWrite q place) := by
  have hfree : FenceKept b s.useFree := h.upd rfl rfl
  cases place with
  | none => exact h
  | some p => exact .ite h (.ite hfree (State.arrive_fenceKept _ _ _ hfree))

theorem State.fenceAnswer_fenceKept (q : LReq) (h : FenceKept b s) : FenceKept b (s.fenceAnswer q) := by
  have hwithdrawn := h.then (State.withdraw_keeps (fun _ x => decide (x.id = q.id)) (by decide) (.refl s))
  have hghosts := hwithdrawn.foldl (s.loose.flits.filter fun f => decide (f.acc.id = q.id)) fun u f => .of_keeps (State.ghostFlit_keeps f (by decide) (.refl u))
  exact .ite h (State.perhapsWrite_fenceKept _ _ (State.replyNow_fenceKept _ _ _ (hghosts.upd rfl rfl)))

/-! Contexts, lanes and gateways -/

theorem State.ctxFault_fenceKept (c : Nat) (h : FenceKept b s) : FenceKept b (s.ctxFault c) := by
  refine h.trans (.ite (.refl s) (FenceKept.put ?_ (f := R.LCT_STEP_STATE c) (offFence_dieReg (by decide) _) 3))
  have hlists := State.abortLists_keeps 8 1 (fun l => decide (l.ctx = c)) (K := [.agenda, .runners]) (by decide) (.refl ((s.endReplay c).dropLater c))
  have hstp : (((s.endReplay c).dropLater c).abortLists 8 1 (fun l => decide (l.ctx = c))).stp = (s.endReplay c).stp := hlists.frame .stp (by decide)
  refine ⟨fun k _ => hlists.reg (by decide) k, ?_⟩
  show s.stp.faultPin ⊆ _ ++ _
  rw [hstp]
  exact List.subset_append_left _ _

/-- A context that was told of its fault, or already knew, has faulted. -/
theorem State.faulted_ctxFault (s : State) (c : Nat) : (s.ctxFault c).faulted c = true := by
  unfold State.ctxFault
  split
  · assumption
  · simp [State.faulted, State.put, State.setReg]

theorem FenceKept.faulted (h : FenceKept s t) {c : Nat} (hf : s.faulted c = true) : t.faulted c = true := by
  unfold State.faulted at hf ⊢
  obtain ⟨e, he, hc⟩ := List.any_eq_true.mp hf
  exact List.any_eq_true.mpr ⟨e, h.pins he, hc⟩

/-- Every context of the list has faulted. -/
theorem State.faulted_foldl_ctxFault {c : Nat} {l : List Nat} (hc : c ∈ l) (s : State) : (l.foldl (fun s c => s.ctxFault c) s).faulted c = true :=
  foldl_holds_of_mem (P := fun u => u.faulted c = true) hc (fun u => u.faulted_ctxFault c) (fun u d h => (State.ctxFault_fenceKept d (.refl u)).faulted h) s

theorem State.multiFault_fenceKept (h : FenceKept b s) : FenceKept b s.multiFault :=
  h.foldl _ fun u c => .ite (State.ctxFault_fenceKept c (.refl u)) (.refl u)

theorem State.farFail_fenceKept (l : Nat) (h : FenceKept b s) : FenceKept b (s.farFail l) := by
  unfold State.farFail
  exact FenceKept.foldl _ (h.upd rfl rfl) fun u q => State.replyNow_fenceKept _ _ _ ((FenceKept.refl u).upd rfl rfl)

theorem State.laneClear_fenceKept (l : Nat) (h : FenceKept b s) : FenceKept b (s.laneClear l) := by
  unfold State.laneClear
  refine FenceKept.then (State.farFail_fenceKept l ?_) (State.lateOver_keeps (by decide) (.refl _))
  exact h.upd rfl rfl

theorem State.laneDown_fenceKept (l cause : Nat) (h : FenceKept b s) : FenceKept b (s.laneDown l cause) := by
  have hstat : OffFence (R.BRG_STAT l) := offFence_dieReg (by decide) _
  have hmulti := State.multiFault_fenceKept (h.puts (l := [(R.BRG_STAT_STATE l, 3), (R.BRG_STAT_CAUSE l, cause)]) (by simpa using ⟨hstat, hstat⟩))
  unfold State.laneDown
  refine .ite h (FenceKept.then (State.laneClear_fenceKept l (FenceKept.then ?_ (State.send_keeps _ _ _ (by decide) (.refl _))))
    (State.event_keeps _ _ _ (by decide) (State.brgErr_keeps _ _ (by decide) (.refl _))))
  exact hmulti.upd rfl rfl

theorem State.laneFence_fenceKept (l : Nat) (h : FenceKept b s) : FenceKept b (s.laneFence l) := by
  have hstat : OffFence (R.BRG_STAT l) := offFence_dieReg (by decide) _
  exact .ite (State.laneDown_fenceKept l 4 h) (FenceKept.puts (State.leaveGone_fenceKept _ h) (by simpa using ⟨hstat, hstat, hstat⟩))

theorem State.setGw_fenceKept (k : Nat) (g : Gateway) (h : FenceKept b s) : FenceKept b (s.setGw k g) := by
  have hstat : OffFence (R.EDG_STAT_RXQ k).key ∧ OffFence (R.EDG_CMD_STAT_QUEUED k).key := ⟨offFence_dieReg (by decide) _, offFence_dieReg (by decide) _⟩
  unfold State.setGw
  refine FenceKept.puts ?_ (by simpa using hstat)
  exact h.upd rfl rfl

theorem State.countOut_fenceKept (p : Nat) (h : FenceKept b s) : FenceKept b (s.countOut p) := h.put (f := R.EDG_PT_STAT_OUT p) (offFence_dieReg (by decide) _) _

theorem State.edgeEnd_fenceKept (k status : Nat) (h : FenceKept b s) : FenceKept b (s.edgeEnd k status) := by
  have hstat : OffFence (R.EDG_CMD_STAT k) := offFence_dieReg (by decide) _
  unfold State.edgeEnd
  dsimp only
  split
  · exact h
  · next c rest _ =>
    have hlast := (State.setGw_fenceKept k { s.gw k with cmds := rest } h).put (f := R.EDG_CMD_STAT_LAST k) hstat status
    have hcount := State.countOut_fenceKept c.part (hlast.inc (f := R.EDG_CMD_STAT_DONE k) hstat)
    split
    · exact hcount
    · exact FenceKept.then hcount (State.later_keeps _ _ _ (by decide) (.refl _))

/-- A partner state entered with nothing to abort. -/
theorem State.partTo_fenceKept (p st cause : Nat) (h : FenceKept b s) : FenceKept b (s.partTo p st cause none) := by
  have hstate := h.put (f := R.EDG_PT_STAT_STATE p) (offFence_dieReg (by decide) _) st
  exact .ite_then (State.countOut_fenceKept p (State.setGw_fenceKept _ _ hstate)) (.of_keeps (State.event_keeps _ _ _ (by decide) (.refl _)))

theorem State.gwOut_fenceKept (k cause : Nat) (h : FenceKept b s) : FenceKept b (s.gwOut k cause) := by
  have hcmds := h.foldl (List.range (s.gw k).cmds.length) fun u _ => State.edgeEnd_fenceKept k 5 (.refl u)
  unfold State.gwOut
  exact State.setGw_fenceKept _ _ (FenceKept.foldl _ hcmds fun u p => .ite (State.partTo_fenceKept _ _ _ (.refl u)) (.refl u))

end Sys2Proof.Machine
end

section
/-! PROOFS. Fence causes, station polls and the fence of a cabinet (R34, R242 to R247, R257). -/
namespace Sys2Proof.Machine

/-! Where the fields stand -/

theorem pend_apart {p q : Nat} (h : cabBit R.IDV_FENCE_PEND p ≠ cabBit R.IDV_FENCE_PEND q) : (cabBit R.IDV_FENCE_PEND p).apart (cabBit R.IDV_FENCE_PEND q) := by
  by_cases hkey : R.IDV_FENCE_PEND (p / 32) = R.IDV_FENCE_PEND (q / 32)
  · have hbit : p % 32 ≠ q % 32 := fun e => h (by unfold cabBit; rw [hkey, e])
    exact .inr (Nat.lt_or_gt_of_ne hbit)
  · exact .inl hkey

theorem pend_ne_cause {i j : Nat} (h : i < 4) : R.IDV_FENCE_PEND i ≠ R.IDV_FENCE_CAUSE j := by
  unfold R.IDV_FENCE_PEND R.IDV_FENCE_CAUSE dieReg cabReg
  omega

theorem fenceCause_inj {i j : Nat} (h : i ≠ j) : R.IDV_FENCE_CAUSE i ≠ R.IDV_FENCE_CAUSE j := by
  unfold R.IDV_FENCE_CAUSE dieReg cabReg
  omega

theorem mask_ne_cause {i j : Nat} (h : i < 4) : R.IDV_FENCE_MASK i ≠ R.IDV_FENCE_CAUSE j := by
  unfold R.IDV_FENCE_MASK R.IDV_FENCE_CAUSE dieReg cabReg
  omega

theorem fence_not_off {p : Nat} (hp : p < 128) : ¬ OffFence (R.IDV_FENCE_MASK (p / 32)) ∧ ¬ OffFence (R.IDV_FENCE_CAUSE p) := by
  unfold OffFence R.IDV_FENCE_MASK R.IDV_FENCE_CAUSE dieReg cabReg
  omega

/-- A bit of a cabinet that was written 0 or 1. -/
theorem State.f_put_cabBit (s : State) (row : Nat → Nat) (p : Nat) {n : Nat} (hn : n < 2) : (s.put (cabBit row p) n).f (cabBit row p) = n := by
  have hw : (cabBit row p).width = 1 := by simp [cabBit, bitFld, Fld.width]
  exact State.f_put_fits s (f := cabBit row p) (le_refl _) (Nat.mod_lt _ (by decide)) (by rw [hw]; exact hn)

/-! Causes -/

theorem exec_fenceCmd (m : Master) (v : W32) (s : State) : exec (.fenceCmd m v) s =
    .next (s.row m (.fenceCmd m v) (fun s => s.gate (m == .sec || m == .dbg) m R.IDV_FENCE_CMD (fun s =>
      if !vbit v 31 then s
      else if s.synth (v.toNat % 128) then s.fenceCause (v.toNat % 128) (if m == .dbg then 5 else 4)
      else s.locked (masterReq m) (s.ca R.IDV_FENCE_CMD)))) := rfl

/-- A cause that needs no automatic bit puts the fence on its way (R242, R246). -/
theorem State.fenceCause_of_command {s : State} {p cause : Nat} (h1 : cause ≠ 1) (h3 : cause ≠ 3) (hopen : s.fenced p = false)
    (hnone : s.rep.fences.any (fun y => decide (y.1 = p)) = false) :
    s.fenceCause p cause = ({ s with rep := { s.rep with fences := s.rep.fences ++ [(p, cause, s.time.fc + 4)] } } : State).later .wall 4 (.fenceTakeEffect (Fin.ofNat 128 p)) := by
  simp only [State.fenceCause, h1, h3, hopen, hnone, reduceIte, Bool.false_eq_true]

/-- Without its automatic bit a cause is kept (R245). -/
theorem State.fenceCause_of_pend {s : State} {p : Nat} (hopen : s.fenced p = false) (hauto : s.bit R.IDV_FENCE_CFG_AUTO_UE = false)
    (hnone : s.bit (cabBit R.IDV_FENCE_PEND p) = false) :
    s.fenceCause p 1 = (s.put (cabBit R.IDV_FENCE_PEND p) 1).put (R.IDV_FENCE_CAUSE_PEND_CAUSE p) 1 := by
  simp only [State.fenceCause, hopen, hauto, hnone, reduceIte, Bool.false_eq_true]

/-- The write of one bit of FENCE_PEND (R245). -/
def State.pendClear (s : State) (v : W32) (k j : Nat) : State :=
  if vbit v j && s.bit (cabBit R.IDV_FENCE_PEND (32 * k + j)) then s.puts [(cabBit R.IDV_FENCE_PEND (32 * k + j), 0), (R.IDV_FENCE_CAUSE_PEND_CAUSE (32 * k + j), 0)] else s

theorem exec_fencePendClear (m : Master) (k : Fin 4) (v : W32) (s : State) : exec (.fencePendClear m k v) s =
    .next (s.row m (.fencePendClear m k v) (fun s => (List.range 32).foldl (fun s j => s.pendClear v k.val j) s)) := rfl

/-- A bit of FENCE_PEND that is taken back reads 0, and so does every other that did. -/
theorem State.pend_taken {s : State} {p q : Nat} (hp : p < 128) (h : p = q ∨ s.f (cabBit R.IDV_FENCE_PEND p) = 0) :
    (s.puts [(cabBit R.IDV_FENCE_PEND q, 0), (R.IDV_FENCE_CAUSE_PEND_CAUSE q, 0)]).f (cabBit R.IDV_FENCE_PEND p) = 0 := by
  simp only [State.puts_cons, State.puts_nil]
  rw [State.f_put_key _ _ _ _ (show (cabBit R.IDV_FENCE_PEND p).key ≠ (R.IDV_FENCE_CAUSE_PEND_CAUSE q).key from pend_ne_cause (by omega))]
  by_cases he : cabBit R.IDV_FENCE_PEND q = cabBit R.IDV_FENCE_PEND p
  · rw [he]
    exact State.f_put_cabBit _ _ _ (by decide)
  · rw [State.f_put_of_apart _ _ (le_refl _) (Nat.mod_lt _ (by decide)) (le_refl _) (pend_apart he)]
    exact h.resolve_left fun e => he (by rw [e])

theorem State.pendClear_same {s : State} {v : W32} {k j : Nat} (hk : k < 4) (hj : j < 32) (hset : vbit v j = true) :
    (s.pendClear v k j).bit (cabBit R.IDV_FENCE_PEND (32 * k + j)) = false := by
  unfold State.pendClear
  rw [hset, Bool.true_and]
  split
  · exact State.bit_eq_false.mpr (State.pend_taken (by omega) (.inl rfl))
  · next h => exact Bool.eq_false_iff.mpr h

theorem State.pendClear_other {s : State} {v : W32} {k i : Nat} {p : Nat} (hp : p < 128) (h : s.bit (cabBit R.IDV_FENCE_PEND p) = false) :
    (s.pendClear v k i).bit (cabBit R.IDV_FENCE_PEND p) = false := by
  unfold State.pendClear
  split
  · exact State.bit_eq_false.mpr (State.pend_taken hp (.inr (State.bit_eq_false.mp h)))
  · exact h

theorem exec_ueWindowReset (s : State) : exec .ueWindowReset s = .next (((List.range 128).foldl (fun s p => s.put (R.IDV_FENCE_CAUSE_UE_CNT p) 0) s).ueArm) := rfl

theorem State.reg_ueArm (s : State) (k : Nat) : s.ueArm.reg k = s.reg k := rfl

/-- After the window every count is 0 (R243). -/
theorem State.ueCnt_reset (s : State) {p : Nat} (hp : p < 128) :
    (((List.range 128).foldl (fun s p => s.put (R.IDV_FENCE_CAUSE_UE_CNT p) 0) s).ueArm).f (R.IDV_FENCE_CAUSE_UE_CNT p) = 0 := by
  have hstep : ∀ (u : State) (j i : Nat), (u.put (R.IDV_FENCE_CAUSE_UE_CNT j) 0).f (R.IDV_FENCE_CAUSE_UE_CNT i) = if i = j then 0 else u.f (R.IDV_FENCE_CAUSE_UE_CNT i) := ?_
  · rw [State.f_congr (State.reg_ueArm _ _), State.f_foldl_range (step := fun s p => s.put (R.IDV_FENCE_CAUSE_UE_CNT p) 0)
      (g := R.IDV_FENCE_CAUSE_UE_CNT) (new := fun _ _ => 0) (fun _ _ => State.put_counted _ _ _) (fun u j i _ => hstep u j i), if_pos hp]
  intro u j i
  split
  · next h =>
    subst h
    exact State.f_put_fits u (f := R.IDV_FENCE_CAUSE_UE_CNT i) (by decide : 16 ≤ 31) (by decide : 31 < 32) (by decide : 0 < 2 ^ 16)
  · next h => exact State.f_put_key _ _ _ _ (fenceCause_inj h)

/-! Polls -/

section
variable {s : State} {cab : Cab}

/-- A poll that is answered (R244). -/
theorem exec_stationPoll_answered (hmap : s.isMapped cab = true) (hpow : s.pow cab ≤ 1) : exec (.stationPoll cab true) s =
    .next ((s.setPoll cab (if (s.poll cab).open'.isEmpty then PollSt.idle else { s.poll cab with open' := (s.poll cab).open' ++ [none], silent := false })).disarm (.stationPoll cab false)) := by
  show execStationPoll cab true s = _
  simp only [execStationPoll, hmap, Nat.not_lt.mpr hpow, Bool.not_true, Bool.false_eq_true, reduceIte]

/-- A poll without an answer. -/
theorem exec_stationPoll_unanswered (hmap : s.isMapped cab = true) (hpow : s.pow cab ≤ 1) : exec (.stationPoll cab false) s =
    .next (((s.pollAgain cab).setPoll cab { s.poll cab with open' := (s.poll cab).open' ++ [some s.time.fc], silent := true }).later .wall 1024 (.pollMissed cab)) := by
  show execStationPoll cab false s = _
  simp only [execStationPoll, hmap, Nat.not_lt.mpr hpow, Bool.not_true, Bool.false_eq_true, reduceIte]
  rfl

/-- The oldest poll has gone unanswered for 1024 fc (R244). -/
theorem exec_pollMissed_of_due {n : Nat} {l : List (Option Nat)} (hopen : (s.poll cab).open' = some n :: l) (hdue : n + 1024 ≤ s.time.fc) :
    exec (.pollMissed cab) s = .next (
      let y := PollSt.count s.time.fc l ((s.poll cab).miss + 1)
      let u := s.setPoll cab { s.poll cab with miss := min 3 y.2, open' := y.1 }
      if 3 ≤ max ((s.poll cab).miss + 1) y.2 then u.fenceCause cab 3 else u) := by
  show execPollMissed cab s = _
  simp only [execPollMissed, hopen, hdue, reduceIte]

end

theorem PollSt.count_answered {fc n : Nat} (h : fc < n + 1024) (k : Nat) (l : List (Option Nat)) : PollSt.count fc (none :: some n :: l) k = (some n :: l, 0) := by
  simp only [PollSt.count, Nat.not_le.mpr h, reduceIte]

/-! A fence takes effect -/

/-- The fence mask bit and the cause stand, and what was on its way of the set class and of signals is gone (R34, R246). -/
def State.fenceMarked (s : State) (p cause : Nat) : State :=
  (({ s with rep := { s.rep with fences := s.rep.fences.filter (fun e => decide (e.1 ≠ p)) } } : State).fenceSet p |>.fenceSignals p).puts
    [(cabBit R.IDV_FENCE_MASK p, 1), (R.IDV_FENCE_CAUSE_CAUSE p, cause)]

/-- The runners and engines of the cabinet stop, and the accesses in `hits` are answered (R247, R248). -/
def State.fenceStopped (s : State) (p : Nat) (hits : List LReq) : State :=
  (hits.foldl (fun s q => s.fenceAnswer q) (((List.range 4).foldl (fun s r => s.fenceRunner p r) s).fenceEngines p)).fencePairs p

/-- The lanes and gateways of the cabinet go down, lost control accesses end, the event goes out, and Quench and the rebuild are on their way. -/
def State.fenceClosed (s : State) (cab : Cab) (cause : Nat) : State :=
  let p := cab.val
  let s := ((List.range 8).filter (fun l => s.laneBuilt l && decide (s.laneCab l = p))).foldl (fun s l => s.laneFence l) s
  let s := ((List.range 4).filter (fun k => decide (s.gwHome k = p) && s.bit (R.EDG_CTL_EN k))).foldl (fun s k => s.useFree.gwOut k (s.free % 256)) s
  let s := (s.cmx.out.filter (fun o => o.lost.isSome)).foldl (fun s o => s.later .wall 0 (.controlAccessTimeout (masterOf (o.req.m % 16)))) s
  let s := s.event 0 0x02 (p + cause * 256)
  let s := if s.pow p = 3 then s else ((s.put (cabBusy p) 1).useFree).later .real (s.free % us 10) (.fenceQuench cab)
  ({ s with rep := { s.rep with rebuild := true, quench := s.rep.quench ++ [p] } }).arm .wall 1 .mapRebuild

/-- The contexts that use a cabinet (R248). -/
def State.fenceCtxs (s : State) (p : Nat) : List Nat := (List.range 16).filter (fun c => decide (2 ≤ s.ctxState c) && s.ctxUses c p)

theorem exec_fenceTakeEffect_of_due {cab : Cab} {cause n : Nat} {s : State} (hdue : s.rep.fences.find? (fun y => decide (y.1 = cab.val) && decide (y.2.2 ≤ s.time.fc)) = some (cab.val, cause, n))
    (hopen : s.fenced cab = false) : exec (.fenceTakeEffect cab) s =
    .next (((s.fenceCtxs cab).foldl (fun s c => s.ctxFault c) ((s.fenceMarked cab cause).fenceStopped cab
      (({ s with rep := { s.rep with fences := s.rep.fences.filter (fun e => decide (e.1 ≠ cab.val)) } } : State).fenceHits cab))).fenceClosed cab cause) := by
  show execFenceTakeEffect cab s = _
  have hopen' : ({ s with rep := { s.rep with fences := s.rep.fences.filter (fun e => decide (e.1 ≠ cab.val)) } } : State).fenced cab = false := hopen
  simp only [execFenceTakeEffect, hdue, hopen', Bool.false_eq_true, reduceIte]
  rfl

theorem State.fenceMarked_fields (s : State) {p cause : Nat} (hp : p < 128) (hc : cause < 8) :
    (s.fenceMarked p cause).fenced p = true ∧ (s.fenceMarked p cause).f (R.IDV_FENCE_CAUSE_CAUSE p) = cause := by
  have hkey : (cabBit R.IDV_FENCE_MASK p).key ≠ (R.IDV_FENCE_CAUSE_CAUSE p).key := mask_ne_cause (by omega)
  refine ⟨?_, State.f_put_fits _ (f := R.IDV_FENCE_CAUSE_CAUSE p) (by decide : 0 ≤ 2) (by decide : 2 < 32) hc⟩
  have hset : (s.fenceMarked p cause).f (cabBit R.IDV_FENCE_MASK p) = 1 := (State.f_put_key _ _ _ _ hkey).trans (State.f_put_cabBit _ _ _ Nat.one_lt_two)
  rw [State.fenced, State.bit, hset]
  rfl

theorem State.fenceStopped_fenceKept (s : State) {p : Nat} (hp : p < 128) (hits : List LReq) : FenceKept s (s.fenceStopped p hits) := by
  have hrunners := (FenceKept.refl s).foldl (List.range 4) fun u r => State.fenceRunner_fenceKept p r (.refl u)
  have hhits := (State.fenceEngines_fenceKept hp hrunners).foldl hits fun u q => State.fenceAnswer_fenceKept q (.refl u)
  exact hhits.then (State.fencePairs_keeps p (by decide) (.refl _))

theorem State.fenceClosed_fenceKept (s : State) (cab : Cab) (cause : Nat) : FenceKept s (s.fenceClosed cab cause) := by
  unfold State.fenceClosed
  refine FenceKept.then (.ite_then (FenceKept.then (FenceKept.foldl _ (FenceKept.foldl _ (FenceKept.foldl _ (.refl s) ?lane) ?gateway) ?access)
    (State.event_keeps _ _ _ (by decide) (.refl _))) ?quench) (State.arm_keeps _ _ _ (by decide) (Keeps.set_rep (by decide) (.refl _)))
  case lane => exact fun u l => State.laneFence_fenceKept l (.refl u)
  case gateway => exact fun u k => State.gwOut_fenceKept _ _ ((FenceKept.refl u).upd rfl rfl)
  case access => exact fun u o => .of_keeps (State.later_keeps _ _ _ (by decide) (.refl u))
  case quench =>
    exact FenceKept.then (FenceKept.put (.refl _) (f := cabBusy cab) (offFence_dieReg (by decide) _) 1) (State.later_keeps _ _ _ (by decide) (State.useFree_keeps (by decide) (.refl _)))

/-- A fence asks for the rebuild of the map. -/
theorem State.fenceClosed_rebuild (s : State) (cab : Cab) (cause : Nat) : (s.fenceClosed cab cause).rep.rebuild = true := by
  unfold State.fenceClosed
  dsimp only
  rw [(State.arm_keeps (K := [.agenda]) .wall 1 .mapRebuild (by decide) (.refl _)).frame .rep (by decide)]

/-- No generation maps a fenced cabinet (R34). -/
theorem State.mapped_ne_of_fenced {s : State} {p : Nat} (h : s.fenced p = true) (g n : Nat) : s.mapped g n ≠ some p := by
  unfold State.mapped
  dsimp only
  split
  · next hmap =>
    intro he
    rw [Option.some.inj he, h] at hmap
    exact absurd hmap.2.2.2 (by decide)
  · exact Option.some_ne_none p |>.symm

theorem FenceKept.fenced {s t : State} (h : FenceKept s t) {p : Nat} (hp : p < 128) : t.fenced p = s.fenced p := State.fenced_congr (h.regs _ (fence_not_off hp).1)

theorem FenceKept.cause {s t : State} (h : FenceKept s t) {p : Nat} (hp : p < 128) : t.f (R.IDV_FENCE_CAUSE_CAUSE p) = s.f (R.IDV_FENCE_CAUSE_CAUSE p) :=
  State.f_congr (h.regs _ (fence_not_off hp).2)

/-! Quench -/

/-- The cabinet in Quench: its command over, its state written (R247, R485). -/
def State.quenched (s : State) (p : Nat) : State :=
  (({ s with rep := { s.rep with quench := s.rep.quench.filter (fun q => decide (q ≠ p)) } } : State).endCmd p).put (cabState p) 3

theorem exec_fenceQuench_of_waiting {cab : Cab} {s : State} (hwait : s.rep.quench.contains cab.val = true) (hfenced : s.fenced cab = true) :
    exec (.fenceQuench cab) s = .next (((s.quenched cab).loseStore cab).hfpNext cab 0) := by
  show execFenceQuench cab s = _
  simp only [execFenceQuench, hwait, hfenced, Bool.and_self, reduceIte]
  rfl

theorem State.quenched_fields (s : State) (p : Nat) : (s.quenched p).pow p = 3 ∧ (s.quenched p).bit (cabBusy p) = false := by
  have hlt : p % 8 < 8 := Nat.mod_lt _ (by decide)
  have hstate : (cabState p).lo ≤ (cabState p).hi ∧ (cabState p).hi < 32 ∧ (cabState p).width = 2 := by
    refine ⟨Nat.le_succ _, ?_, ?_⟩
    · show p % 8 * 4 + 1 < 32
      omega
    · show p % 8 * 4 + 1 + 1 - p % 8 * 4 = 2
      omega
  obtain ⟨hle, h32, hw⟩ := hstate
  refine ⟨State.f_put_fits _ hle h32 (by rw [hw]; decide), State.bit_eq_false.mpr ?_⟩
  have hbusy32 : (cabBusy p).hi < 32 := by
    show p % 8 * 4 + 2 < 32
    omega
  have hwait32 : (cabLeaveWait p).hi < 32 := by
    show p % 8 * 4 + 3 < 32
    omega
  have hw1 : (cabBusy p).width = 1 := by simp [cabBusy, bitFld, Fld.width]
  rw [State.quenched, State.f_put_apart _ _ _ _ hle h32 (le_refl _) (.inl (Nat.lt_succ_self _)), State.endCmd, State.puts_cons, State.puts_cons, State.puts_nil,
    State.f_put_apart _ _ _ _ (le_refl _) hwait32 (le_refl _) (.inr (Nat.lt_succ_self _)), State.f_put_fits _ (le_refl _) hbusy32 (by rw [hw1]; exact Nat.two_pos)]

theorem State.quenched_mem (s : State) (p : Nat) : (s.quenched p).mem = s.mem := rfl

theorem State.quenched_quench (s : State) (p : Nat) : (s.quenched p).rep.quench = s.rep.quench.filter (fun q => decide (q ≠ p)) := rfl

/-- The byte is neither in the store nor in the spare words of the cabinet, 36 bytes a word (R191, R247). -/
def offStore (p k : Nat) : Bool :=
  !(decide (0 + p * (131072 * 36) ≤ k) && decide (k < 0 + (p + 1) * (131072 * 36))) && !(decide (0x40000000 + p * (256 * 36) ≤ k) && decide (k < 0x40000000 + (p + 1) * (256 * 36)))

theorem offStore_iff (p k : Nat) : offStore p k = true ↔
    ¬ ((p * 4718592 ≤ k ∧ k < (p + 1) * 4718592) ∨ (0x40000000 + p * 9216 ≤ k ∧ k < 0x40000000 + (p + 1) * 9216)) := by
  simp only [offStore, Bool.and_eq_true, Bool.not_eq_true', Bool.and_eq_false_iff, decide_eq_false_iff_not]
  omega

theorem State.loseStore_mem (s : State) (p : Nat) : (s.loseStore p).mem = s.mem.filter (fun c => offStore p c.1) := rfl

theorem State.cell_loseStore (s : State) (p a : Nat) : (s.loseStore p).cell a =
    if (p * 4718592 ≤ a ∧ a < (p + 1) * 4718592) ∨ (0x40000000 + p * 9216 ≤ a ∧ a < 0x40000000 + (p + 1) * 9216) then 0 else s.cell a := by
  rw [State.cell, State.loseStore_mem, SMap.get_filter_key]
  simp only [offStore_iff, ite_not]
  rfl

/-- A held pop that goes on changes only what comes later. -/
theorem State.hfpNext_frame (s : State) (p n : Nat) : (s.hfpNext p n).rep = s.rep ∧ (s.hfpNext p n).mem = s.mem ∧ ∀ k, (s.hfpNext p n).reg k = s.reg k := by
  have hkeeps := State.hfpNext_keeps p n (K := [.agenda]) (List.Subset.refl _) (.refl s)
  exact ⟨hkeeps.frame .rep (by decide), hkeeps.frame .mem (by decide), hkeeps.reg (by decide)⟩

/-! Settling -/

/-- Settles O44, clause by clause. -/
theorem fenceCausesAndPolls : Obligations.FenceCausesAndPolls := by
  refine ⟨?command, ?onItsWay, ?pend, ?clear, ?window, ?answered, ?answeredLate, ?unanswered, ?missed, ?silent, ?count, ?effect, ?quench⟩
  case command =>
    intro m v s hok hgo hcab hfree
    rw [exec_fenceCmd, State.row_of_open hfree, hok, State.gate_true, hgo, hcab]
    rfl
  case onItsWay =>
    intro p cause s _ hcause hopen hnone
    exact State.fenceCause_of_command (by omega) (by omega) hopen hnone
  case pend =>
    intro p s hp hopen hauto hnone
    have hkey : (cabBit R.IDV_FENCE_PEND p).key ≠ (R.IDV_FENCE_CAUSE_PEND_CAUSE p).key := pend_ne_cause (by omega)
    rw [State.fenceCause_of_pend hopen hauto hnone, State.bit, State.f_put_key _ _ _ _ hkey, State.f_put_cabBit _ _ _ (by decide)]
    exact ⟨rfl, State.f_put_fits _ (f := R.IDV_FENCE_CAUSE_PEND_CAUSE p) (by decide : 3 ≤ 5) (by decide : 5 < 32) (by decide : 1 < 2 ^ 3)⟩
  case clear =>
    intro m k v s hfree
    refine ⟨_, by rw [exec_fencePendClear, State.row_of_open hfree], fun j hset => ?_⟩
    exact foldl_holds_of_mem (P := fun u : State => u.bit (cabBit R.IDV_FENCE_PEND (32 * k.val + j.val)) = false) (List.mem_range.mpr j.isLt)
      (fun u => State.pendClear_same k.isLt j.isLt hset) (fun u i h => State.pendClear_other (by omega) h) s
  case window => exact fun s => ⟨_, exec_ueWindowReset s, fun p => s.ueCnt_reset p.isLt⟩
  case answered =>
    intro cab s hmap hpow hnone
    rw [exec_stationPoll_answered hmap hpow, hnone]
    rfl
  case answeredLate =>
    intro cab s hmap hpow hsome
    rw [exec_stationPoll_answered hmap hpow, if_neg (by simpa using hsome)]
  case unanswered => exact fun cab s hmap hpow => exec_stationPoll_unanswered hmap hpow
  case missed =>
    intro cab n l s hopen hdue hmiss hcount
    rw [exec_pollMissed_of_due hopen hdue]
    dsimp only
    rw [if_neg (by omega), Nat.min_eq_right (by omega)]
  case silent =>
    intro cab n l s hopen hdue hmiss
    rw [exec_pollMissed_of_due hopen hdue]
    dsimp only
    rw [if_pos (by omega)]
  case count => exact fun fc n k l _ h => ⟨PollSt.count_answered h k l, rfl⟩
  case effect =>
    intro cab cause n s hdue hcause hopen
    obtain ⟨hmarked, hwhy⟩ := s.fenceMarked_fields cab.isLt hcause
    refine ⟨_, exec_fenceTakeEffect_of_due hdue hopen, ?_⟩
    generalize ({ s with rep := { s.rep with fences := s.rep.fences.filter (fun e => decide (e.1 ≠ cab.val)) } } : State).fenceHits cab = hits
    have hstopped := (s.fenceMarked cab cause).fenceStopped_fenceKept cab.isLt hits
    have hclosed := ((s.fenceCtxs cab).foldl (fun s c => s.ctxFault c) ((s.fenceMarked cab cause).fenceStopped cab hits)).fenceClosed_fenceKept cab cause
    have hall := (hstopped.foldl (s.fenceCtxs cab) fun u c => State.ctxFault_fenceKept c (.refl u)).trans hclosed
    have hfenced := (hall.fenced cab.isLt).trans hmarked
    refine ⟨hfenced, (hall.cause cab.isLt).trans hwhy, State.fenceClosed_rebuild _ _ _, State.mapped_ne_of_fenced hfenced, fun c hlive huses => ?_⟩
    exact hclosed.faulted (State.faulted_foldl_ctxFault (List.mem_filter.mpr ⟨List.mem_range.mpr c.isLt, by simp [hlive, huses]⟩) _)
  case quench =>
    intro cab s hwait hfenced
    obtain ⟨hpow, hbusy⟩ := s.quenched_fields cab
    obtain ⟨hrep, hmem, hreg⟩ := ((s.quenched cab).loseStore cab).hfpNext_frame cab 0
    refine ⟨_, exec_fenceQuench_of_waiting hwait hfenced, (State.f_congr (hreg _)).trans hpow, ?_, ?_, fun a => ?_⟩
    · exact State.bit_eq_false.mpr ((State.f_congr (hreg _)).trans (State.bit_eq_false.mp hbusy))
    · rw [hrep]
      show ((s.quenched cab).rep.quench).contains cab.val = false
      simp [State.quenched_quench]
    · rw [State.cell, hmem]
      exact State.cell_loseStore _ _ _

end Sys2Proof.Machine
end

section
/-! PROOFS. A loose signal on its way to a counter of its own die, against the clause of its travel. -/
namespace Sys2Proof.Machine

/-- Die 0 after reset, with a loose signal for counter 0 of its logical cabinet 0 that SEC's write to SYN.SIGNAL has issued in cabinet 0. -/
def regSignalIssued : State := State.reset.issueSig (.reg 0 (masterReq .sec)) none 0 1 [] false

/-- That signal. -/
def regSignal : Sig :=
  { id := 8, src := .reg 0 (masterReq .sec), die := 0, ctx := none, cn := 0, inc := 1, drain := [], place := .port, since := 0 }

theorem regSignalIssued_signals : regSignalIssued.syn.signals = [regSignal] := by decide

/-- Its travel draws no free value: of a signal that leaves, SIGNAL_LEAVE has drawn it before (log entry 20). -/
theorem travel_regSignalIssued : (regSignalIssued.travel regSignal).freeCtr = 0 := by decide

/-- Refutes O27: its clause for a signal of this die has `State.travel` use a free value up, which `State.travel` does on the way to another die
only. -/
theorem not_signalsTravelAndAreApplied : ¬ Obligations.SignalsTravelAndAreApplied := by
  intro h
  obtain ⟨-, -, -, -, -, htravel, -⟩ := h
  obtain ⟨d, ht, -⟩ := htravel regSignal regSignalIssued (by decide)
  have hdrawn : (regSignalIssued.travel regSignal).freeCtr = 1 := congrArg State.freeCtr ht
  exact absurd (travel_regSignalIssued.symm.trans hdrawn) (by decide)

end Sys2Proof.Machine
end

section
/-! SUPPORT. Fields and pairs of registers written together, and what the agenda leaves. -/
namespace Sys2Proof.Machine

/-- A field apart from every field written reads as before. -/
theorem State.f_puts_apart (s : State) {l : List (Fld × Nat)} {g : Fld} (hg : g.lo ≤ g.hi)
    (h : ∀ p ∈ l, p.1.lo ≤ p.1.hi ∧ p.1.hi < 32 ∧ p.1.apart g) : (s.puts l).f g = s.f g := by
  induction l generalizing s with
  | nil => rfl
  | cons p l ih =>
    obtain ⟨hle, h32, hapart⟩ := h p List.mem_cons_self
    rw [State.puts_cons, ih _ fun q hq => h q (List.mem_cons_of_mem _ hq), s.f_put_of_apart _ hle h32 hg hapart]

/-- Writes to one register leave the others. -/
theorem State.sameRegs_puts (s : State) {l : List (Fld × Nat)} {k : Nat} (h : ∀ p ∈ l, p.1.key = k) : s.sameRegs [k] (s.puts l) :=
  fun _ hj => State.reg_puts_other s l fun p hp => h p hp ▸ List.ne_of_not_mem_cons hj

theorem State.reg_setPair_other (s : State) {lo hi k : Nat} (n : Nat) (hlo : k ≠ lo) (hhi : k ≠ hi) : (s.setPair lo hi n).reg k = s.reg k := by
  rw [State.setPair, State.reg_setReg_other _ _ hhi, State.reg_setReg_other _ _ hlo]

/-- A number of 64 bits reads back from the pair it was written to (R14). -/
theorem State.pair_setPair (s : State) {lo hi n : Nat} (hne : lo ≠ hi) (hn : n < 2 ^ 64) : (s.setPair lo hi n).pair lo hi = n := by
  rw [State.pair, State.setPair, State.reg_setReg_same, State.reg_setReg_other _ _ hne, State.reg_setReg_same, BitVec.toNat_ofNat, BitVec.toNat_ofNat]
  omega

theorem State.reg_arm (s : State) (c : Clock) (n : Nat) (i : Instr) (k : Nat) : (s.arm c n i).reg k = s.reg k :=
  (State.arm_keeps c n i (List.Subset.refl _) (.refl s)).reg (by decide) k

theorem State.f_later (s : State) (c : Clock) (n : Nat) (i : Instr) (g : Fld) : (s.later c n i).f g = s.f g := rfl

theorem State.f_disarm (s : State) (i : Instr) (g : Fld) : (s.disarm i).f g = s.f g := rfl

end Sys2Proof.Machine
end

section
/-! PROOFS. Waiters and the shadows they compare against (R283 to R287, R292). -/
namespace Sys2Proof.Machine

theorem exec_waitRegister (cab : Cab) (id : Fin 16) (ctr : BitVec 9) (exp : W48) (s : State) :
    exec (.waitRegister cab id ctr exp) s = execWaitRegister cab id ctr exp s := rfl

theorem exec_waitCancel (cab : Cab) (id : Fin 16) (s : State) : exec (.waitCancel cab id) s = execWaitCancel cab id s := rfl

theorem exec_waiterFire (cab : Cab) (k : Fin 16) (s : State) : exec (.waiterFire cab k) s = execWaiterFire cab k s := rfl

theorem exec_shadowUpdate (g : Fin 256) (s : State) : exec (.shadowUpdate g) s = execShadowUpdate g s := rfl

section
variable (s : State) (cab w : Nat)

/-! Registration -/

/-- The registers of a waiter stand apart (R307). -/
theorem wtrRegs_ne : R.SYN_WTR_A cab w ≠ R.SYN_WTR_EXP_LO cab w ∧ R.SYN_WTR_A cab w ≠ R.SYN_WTR_EXP_HI cab w ∧
    R.SYN_WTR_EXP_LO cab w ≠ R.SYN_WTR_EXP_HI cab w := by
  unfold R.SYN_WTR_A R.SYN_WTR_EXP_LO R.SYN_WTR_EXP_HI cabReg
  omega

/-- A waiter that was emptied has not fired. -/
theorem State.f_cancelWtr_fired : (s.cancelWtr cab w).f (R.SYN_WTR_A_FIRED cab w) = 0 := by
  rw [State.cancelWtr, State.f_disarm, State.puts_cons, State.puts_cons,
    State.f_puts_apart _ (by decide : 10 ≤ 10) (by simp [R.SYN_WTR_A_FIRED, R.SYN_WTR_A_PENDING, Fld.apart])]
  exact State.f_put_fits _ (f := R.SYN_WTR_A_FIRED cab w) (by decide : 10 ≤ 10) (by decide : 10 < 32) (by decide : 0 < 2 ^ 1)

/-- What a registration writes into the first register of its waiter (R283, R307). -/
def State.wtrNamed (sel c : Nat) : State :=
  (s.cancelWtr cab w).puts [(R.SYN_WTR_A_CTR cab w, sel), (R.SYN_WTR_A_REG cab w, 1), (R.SYN_WTR_A_CTX cab w, c)]

theorem State.reg_registerWtr (sel e c k : Nat) :
    (s.registerWtr cab w sel e c).reg k = ((s.wtrNamed cab w sel c).setPair (R.SYN_WTR_EXP_LO cab w) (R.SYN_WTR_EXP_HI cab w) e).reg k :=
  State.reg_arm _ _ _ _ _

theorem State.f_registerWtr (sel e c : Nat) {g : Fld} (h : g.key = R.SYN_WTR_A cab w) : (s.registerWtr cab w sel e c).f g = (s.wtrNamed cab w sel c).f g := by
  obtain ⟨hlo, hhi, -⟩ := wtrRegs_ne cab w
  exact State.f_congr (by rw [State.reg_registerWtr, State.reg_setPair_other _ _ (h ▸ hlo) (h ▸ hhi)])

theorem State.f_wtrNamed {sel c : Nat} (hsel : sel < 512) (hc : c < 16) :
    (s.wtrNamed cab w sel c).f (R.SYN_WTR_A_CTR cab w) = sel ∧ (s.wtrNamed cab w sel c).f (R.SYN_WTR_A_CTX cab w) = c ∧
      (s.wtrNamed cab w sel c).f (R.SYN_WTR_A_REG cab w) = 1 ∧ (s.wtrNamed cab w sel c).f (R.SYN_WTR_A_FIRED cab w) = 0 := by
  unfold State.wtrNamed
  refine ⟨?_, ?_, ?_, ?_⟩
  · rw [State.puts_cons, State.f_puts_apart _ (by decide : 0 ≤ 8) (by simp [R.SYN_WTR_A_REG, R.SYN_WTR_A_CTX, R.SYN_WTR_A_CTR, Fld.apart])]
    exact State.f_put_fits _ (f := R.SYN_WTR_A_CTR cab w) (by decide : 0 ≤ 8) (by decide : 8 < 32) hsel
  · exact State.f_put_fits _ (f := R.SYN_WTR_A_CTX cab w) (by decide : 12 ≤ 15) (by decide : 15 < 32) hc
  · rw [State.puts_cons, State.puts_cons, State.f_puts_apart _ (by decide : 9 ≤ 9) (by simp [R.SYN_WTR_A_REG, R.SYN_WTR_A_CTX, Fld.apart])]
    exact State.f_put_fits _ (f := R.SYN_WTR_A_REG cab w) (by decide : 9 ≤ 9) (by decide : 9 < 32) (by decide : 1 < 2 ^ 1)
  · rw [State.f_puts_apart _ (by decide : 10 ≤ 10) (by simp [R.SYN_WTR_A_REG, R.SYN_WTR_A_CTX, R.SYN_WTR_A_CTR, R.SYN_WTR_A_FIRED, Fld.apart])]
    exact s.f_cancelWtr_fired cab w

theorem State.wtrExp_registerWtr (sel c : Nat) {e : Nat} (he : e < 2 ^ 48) : (s.registerWtr cab w sel e c).wtrExp cab w = e := by
  obtain ⟨-, -, hne⟩ := wtrRegs_ne cab w
  rw [State.wtrExp, State.pair, State.reg_registerWtr, State.reg_registerWtr]
  exact State.pair_setPair _ hne (by omega)

/-! Firing -/

theorem State.reg_fire (k : Nat) : (s.fire cab w).reg k = (s.puts [(R.SYN_WTR_A_FIRED cab w, 1), (R.SYN_WTR_A_PENDING cab w, 0)]).reg k := by
  rw [State.fire]
  generalize s.puts [(R.SYN_WTR_A_FIRED cab w, 1), (R.SYN_WTR_A_PENDING cab w, 0)] = u
  dsimp only
  split <;> rfl

theorem State.f_fire : (s.fire cab w).f (R.SYN_WTR_A_FIRED cab w) = 1 ∧ (s.fire cab w).f (R.SYN_WTR_A_PENDING cab w) = 0 := by
  rw [State.f_congr (s.reg_fire cab w _), State.f_congr (s.reg_fire cab w _), State.puts_cons]
  refine ⟨?_, ?_⟩
  · rw [State.f_puts_apart _ (by decide : 10 ≤ 10) (by simp [R.SYN_WTR_A_FIRED, R.SYN_WTR_A_PENDING, Fld.apart])]
    exact State.f_put_fits _ (f := R.SYN_WTR_A_FIRED cab w) (by decide : 10 ≤ 10) (by decide : 10 < 32) (by decide : 1 < 2 ^ 1)
  · exact State.f_put_fits _ (f := R.SYN_WTR_A_PENDING cab w) (by decide : 11 ≤ 11) (by decide : 11 < 32) (by decide : 0 < 2 ^ 1)

theorem State.sameRegs_fire : s.sameRegs [R.SYN_WTR_A cab w] (s.fire cab w) := fun k hk =>
  (s.reg_fire cab w k).trans (State.sameRegs_puts s (by simp [R.SYN_WTR_A_FIRED, R.SYN_WTR_A_PENDING]) k hk)

/-- The wake wire rises on the next fc (R283). -/
theorem State.wires_fire : (s.fire cab w).syn.wires = s.syn.wires ++ [(cab * 16 + w, s.time.fc + 1)] := by
  unfold State.fire
  dsimp only
  split <;> rfl

end

/-- The comparisons of a waiter that a set by hand asked for, and that are due, are taken off (R297). -/
def State.handTaken (s : State) (cab : Cab) (k : Fin 16) : State :=
  { s with syn := { s.syn with byHand := s.syn.byHand.filter (fun e => !(decide (e.1 = cab.val * 16 + k.val) && decide (e.2 ≤ s.time.fc))) } }

/-- What a satisfied waiter does on an fc on which it may act: WAKE_EN and the power state of its cabinet decide (R285, R287). -/
theorem exec_waiterFire_of_ready {s : State} {cab : Cab} {k : Fin 16} {key : Nat} (hready : s.wtrReady cab k = true)
    (hacts : s.frozen = false ∨ s.syn.byHand.any (fun e => decide (e.1 = cab.val * 16 + k.val) && decide (e.2 ≤ s.time.fc)) = true)
    (hkey : ctrKey cab (s.f (R.SYN_WTR_A_CTR cab k)) = some key) :
    exec (.waiterFire cab k) s = .next (if !s.bit (cfgWake key) then (s.handTaken cab k).put (R.SYN_WTR_A_PENDING cab k) 1
      else if s.pow cab = 1 then (s.arm .unfz (if s.frozen then 0 else 1) (.waiterFire cab k)).wakeDoze cab 2
      else if 2 ≤ s.pow cab then s.handTaken cab k else (s.handTaken cab k).fire cab k) := by
  have hready' : (s.handTaken cab k).wtrReady cab k = true := hready
  have hkey' : ctrKey cab ((s.handTaken cab k).f (R.SYN_WTR_A_CTR cab k)) = some key := hkey
  have hnow : ¬ ((s.handTaken cab k).frozen && !s.syn.byHand.any (fun e => decide (e.1 = cab.val * 16 + k.val) && decide (e.2 ≤ s.time.fc))) = true := by
    rcases hacts with hfrz | hhand
    · rw [show (s.handTaken cab k).frozen = false from hfrz]
      exact Bool.false_ne_true
    · rw [hhand, Bool.not_true, Bool.and_false]
      exact Bool.false_ne_true
  rw [exec_waiterFire, execWaiterFire]
  dsimp only [State.handTaken] at hready' hkey' hnow ⊢
  rw [hready', hkey', Bool.true_or, Bool.not_true, if_neg Bool.false_ne_true, if_neg hnow]
  rfl

/-- Settles O28, clause by clause: the fields of a registration and of a firing by the registers they write, the firing by the lemma on a satisfied waiter. -/
theorem waitersRegisterFireAndCancel : Obligations.WaitersRegisterFireAndCancel := by
  refine ⟨?register, ?stored, ?cancel, ?fire, ?pend, ?shadow⟩
  case register =>
    intro cab id ctr exp s hport hfrz hdisc hfen hid hcheck
    rw [exec_waitRegister, execWaitRegister]
    simp only [hport, hdisc, hfen, hfrz, hcheck, Nat.not_le.mpr hid, Bool.or_self, Bool.true_eq_false, Bool.false_eq_true, reduceIte]
  case stored =>
    intro cab w sel e c s hsel he hc
    obtain ⟨hctr, hctx, hreg, hfired⟩ := s.f_wtrNamed cab w hsel hc
    exact ⟨(s.f_registerWtr cab w sel e c rfl).trans hctr, (s.f_registerWtr cab w sel e c rfl).trans hctx, (s.f_registerWtr cab w sel e c rfl).trans hreg,
      (s.f_registerWtr cab w sel e c rfl).trans hfired, s.wtrExp_registerWtr cab w sel c he⟩
  case cancel =>
    intro cab id s hport hfrz hdisc hfen hid
    rw [exec_waitCancel, execWaitCancel]
    simp only [hport, hdisc, hfen, hfrz, Nat.not_le.mpr hid, Bool.or_self, Bool.true_eq_false, Bool.false_eq_true, reduceIte]
  case fire =>
    intro cab k key s hready hacts hkey hwake hrun
    refine ⟨(s.handTaken cab k).fire cab k, ?_, ?_⟩
    · rw [exec_waiterFire_of_ready hready hacts hkey, hwake, hrun]
      rfl
    · obtain ⟨hfired, hpend⟩ := (s.handTaken cab k).f_fire cab k
      exact ⟨hfired, hpend, (s.handTaken cab k).wires_fire cab k, (s.handTaken cab k).sameRegs_fire cab k⟩
  case pend =>
    intro cab k key s hready hfrz hkey hwake
    refine ⟨(s.handTaken cab k).put (R.SYN_WTR_A_PENDING cab k) 1, ?_, ?_, State.sameRegs_put (s.handTaken cab k) (R.SYN_WTR_A_PENDING cab k) 1⟩
    · rw [exec_waiterFire_of_ready hready (.inl hfrz) hkey, hwake]
      rfl
    · exact State.f_put_fits _ (f := R.SYN_WTR_A_PENDING cab k) (by decide : 11 ≤ 11) (by decide : 11 < 32) (by decide : 1 < 2 ^ 1)
  case shadow =>
    intro g n x s hfrz hdue
    rw [exec_shadowUpdate, execShadowUpdate]
    simp only [hfrz, hdue, List.isEmpty_cons, List.foldl_cons, List.foldl_nil, Bool.false_eq_true, reduceIte]

end Sys2Proof.Machine
end

section
/-! SUPPORT. The registers of a counter: binding and unbinding, and the write of its CFG register (R267 to R269, R308). -/
namespace Sys2Proof.Machine

theorem exec_counterBind (m : Master) (sel : CtrSel) (v : W32) (s : State) :
    exec (.counterBind m sel v) s = .next (s.row m (.counterBind m sel v) (fun s => s.ctrWrite m sel (v ||| 0x10))) := rfl

theorem exec_counterUnbind (m : Master) (sel : CtrSel) (v : W32) (s : State) :
    exec (.counterUnbind m sel v) s = .next (s.row m (.counterUnbind m sel v) (fun s => s.ctrWrite m sel (v &&& 0xFFFFFFEF))) := rfl

theorem exec_wakeEnWrite (m : Master) (sel : CtrSel) (v : W32) (s : State) :
    exec (.wakeEnWrite m sel v) s = .next (s.row m (.wakeEnWrite m sel v) (fun s => s.ctrWrite m sel (v ||| 0x20))) := rfl

/-! The written value -/

theorem vbit_set_bound (v : W32) : vbit (v ||| 0x10) 4 = true := by
  rw [vbit_or]
  exact Bool.or_true _

theorem vbit_clear_bound (v : W32) : vbit (v &&& 0xFFFFFFEF) 4 = false := by
  rw [vbit_eq_getLsbD, BitVec.getLsbD_and]
  exact Bool.and_false _

theorem vbit_set_wake (v : W32) : vbit (v ||| 0x20) 4 = vbit v 4 := by
  rw [vbit_or]
  exact Bool.or_false _

/-- CTX of a value is that of the value with WAKE_EN. -/
theorem ctx_set_wake (v : W32) : (v ||| 0x20).toNat % 16 = v.toNat % 16 := by
  rw [BitVec.toNat_or, show 16 = 2 ^ 4 from rfl, Nat.or_mod_two_pow]
  exact Nat.or_zero _

section
variable {s : State} {m : Master} {sel : CtrSel} {v : W32}

/-- A write that takes effect keeps the context of a counter it leaves bound, and binds none that is quiet (R267, R269). -/
theorem State.ctrOk_eq_true (hm : (m == .sch || m == .sec || m == .dbg) = true)
    (hctx : s.bit (cfgBound (selKey sel)) = true → vbit v 4 = true → s.f (cfgCtx (selKey sel)) = v.toNat % 16)
    (hquiet : s.bit (cfgBound (selKey sel)) = false → vbit v 4 = true → s.bit (cfgQuiet (selKey sel)) = false) : s.ctrOk m (selKey sel) v = true := by
  rw [State.ctrOk, hm]
  cases hbound : s.bit (cfgBound (selKey sel)) <;> cases hset : vbit v 4
  · rfl
  · rw [hquiet hbound hset]
    rfl
  · rfl
  · rw [hctx hbound hset]
    simp

/-- What such a write does, through a station that lets it pass (R267 to R269). -/
theorem State.ctrWrite_of_go (hsynth : s.synth (selCab sel) = true) (hgo : s.stationOf (selCab sel) = .go) (hok : s.ctrOk m (selKey sel) v = true) :
    s.ctrWrite m sel v = if !s.bit (cfgBound (selKey sel)) && vbit v 4 then (s.bindCtr (selKey sel)).ctrFields (selKey sel) v
      else if s.bit (cfgBound (selKey sel)) && !vbit v 4 then (s.unbindCtr sel).ctrFields (selKey sel) v else s.ctrFields (selKey sel) v := by
  rw [State.ctrWrite, State.gateAt, State.atStation, hsynth, hgo, hok]
  rfl

end

/-! The value -/

/-- A counter reads as the number it was set to, modulo 2^48 (R263). -/
theorem State.ctrVal_setCtr (s : State) (k v : Nat) : (s.setCtr k v).ctrVal k = v % 2 ^ 48 :=
  State.pair_setPair s (by omega) (by omega)

/-- The value stands in the two registers behind CFG (R308). -/
theorem State.ctrVal_put_cfg (s : State) (k n : Nat) {g : Fld} (hg : g.key = k) : (s.put g n).ctrVal k = s.ctrVal k := by
  rw [State.ctrVal, State.pair, State.reg_put_other _ _ _ (by omega), State.reg_put_other _ _ _ (by omega)]
  rfl

/-- A bind writes BOUND and the value last; the shadows of a die-global counter are no registers (R267, R292). -/
theorem State.reg_bindCtr (s : State) (k : Nat) : ∃ u : State, ∀ j, (s.bindCtr k).reg j = ((u.setCtr k 0).put (cfgBound k) 1).reg j := by
  refine ⟨(s.waitersOf k).foldl (fun s e => (s.lowerWire e.1 e.2).puts [(R.SYN_WTR_A_PENDING e.1 e.2, 0), (R.SYN_WTR_A_FIRED e.1 e.2, 0)]) s, fun j => ?_⟩
  rw [State.bindCtr]
  generalize (State.setCtr _ k 0).put (cfgBound k) 1 = u
  dsimp only
  split <;> rfl

theorem State.bindCtr_bound (s : State) (k : Nat) : (s.bindCtr k).f (cfgBound k) = 1 ∧ (s.bindCtr k).ctrVal k = 0 := by
  obtain ⟨u, hreg⟩ := s.reg_bindCtr k
  refine ⟨?_, ?_⟩
  · rw [State.f_congr (hreg _)]
    exact State.f_put_fits _ (f := cfgBound k) (by decide : 4 ≤ 4) (by decide : 4 < 32) (by decide : 1 < 2 ^ 1)
  · rw [State.ctrVal, State.pair, hreg, hreg]
    exact (State.ctrVal_put_cfg _ k 1 rfl).trans (u.ctrVal_setCtr k 0)

/-! Unbinding -/

/-- The fields that an unbind writes, and the end of the quiet span (R269). -/
theorem State.unbindCtr_quiet (s : State) (sel : CtrSel) : (s.unbindCtr sel).f (cfgBound (selKey sel)) = 0 ∧ (s.unbindCtr sel).f (cfgQuiet (selKey sel)) = 1 ∧
    Due.mk .unfz (s.time.ufc + 4096) (.quietEnd sel) ∈ (s.unbindCtr sel).agenda := by
  have htime : (s.unbindCtr sel).time = s.time := (State.unbindCtr_keeps sel (List.Subset.refl _) (.refl s)).time (by decide)
  unfold State.unbindCtr at htime ⊢
  dsimp only at htime ⊢
  generalize State.dropSigs _ _ = u at htime ⊢
  refine ⟨?_, ?_, ?_⟩
  · rw [State.f_later, State.puts_cons, State.f_puts_apart _ (by decide : 4 ≤ 4) (by simp [cfgBound, cfgQuiet, bitFld, Fld.apart])]
    exact State.f_put_fits _ (f := cfgBound (selKey sel)) (by decide : 4 ≤ 4) (by decide : 4 < 32) (by decide : 0 < 2 ^ 1)
  · rw [State.f_later]
    exact State.f_put_fits _ (f := cfgQuiet (selKey sel)) (by decide : 7 ≤ 7) (by decide : 7 < 32) (by decide : 1 < 2 ^ 1)
  · generalize u.puts _ = w at htime ⊢
    rw [State.later_agenda, ← htime]
    exact List.mem_append_right _ List.mem_cons_self

end Sys2Proof.Machine
end

section
/-! SUPPORT. The state dump: its start and its records (R298 to R300, R310). -/
namespace Sys2Proof.Machine

theorem State.reg_setCells (s : State) (a : Nat) (l : List Byte) (k : Nat) : (s.setCells a l).reg k = s.reg k :=
  (State.setCells_keeps a l (List.Subset.refl _) (.refl s)).reg (by decide) k

theorem State.setCells_syn (s : State) (a : Nat) (l : List Byte) : (s.setCells a l).syn = s.syn :=
  (State.setCells_keeps a l (List.Subset.refl _) (.refl s)).frame .syn (by decide)

/-- The synthesized cabinets are a matter of the ties (R25). -/
theorem State.cabs_congr {s t : State} (h : t.ties = s.ties) : t.cabs = s.cabs := by
  unfold State.cabs State.synth
  rw [h]

/-! GO -/

theorem exec_dumpGo (m : Master) (v : W32) (s : State) : exec (.dumpGo m v) s = .next (s.row m (.dumpGo m v) (fun s => s.dumpCtl m 0 v)) := rfl

/-- The registers of the dump, and the state of the freeze, stand apart (R310). -/
theorem dumpCtl_ne : R.SYN_DUMP_BASE 0 ≠ R.SYN_DUMP_CTL 0 ∧ R.LCT_FRZ_STAT ≠ R.SYN_DUMP_CTL 0 := by decide

section
variable (s : State) (v : W32)

/-- The plain fields of DUMP_CTL: DONE and REJ are cleared where the value says so, AUTO is taken (R310). -/
def State.dumpFields : State :=
  ((s.zeroIf (vbit v 1) (R.SYN_DUMP_CTL_DONE 0)).zeroIf (vbit v 2) (R.SYN_DUMP_CTL_REJ 0)).putb (R.SYN_DUMP_CTL_AUTO 0) (vbit v 4)

theorem State.sameRegs_dumpFields : s.sameRegs [R.SYN_DUMP_CTL 0] (s.dumpFields v) := by
  intro k hk
  have hne : k ≠ R.SYN_DUMP_CTL 0 := List.ne_of_not_mem_cons hk
  rw [State.dumpFields, State.putb, State.reg_put_other _ _ _ hne, State.reg_zeroIf_other _ _ hne, State.reg_zeroIf_other _ _ hne]

/-- GO is no plain field. -/
theorem State.f_dumpFields_go : (s.dumpFields v).f (R.SYN_DUMP_CTL_GO 0) = s.f (R.SYN_DUMP_CTL_GO 0) := by
  rw [State.dumpFields, State.putb, State.f_put_apart _ _ _ _ (by decide) (by decide) (by decide) (by decide),
    State.f_zeroIf_apart _ _ (by decide) (by decide) (by decide) (.inr (by decide)), State.f_zeroIf_apart _ _ (by decide) (by decide) (by decide) (.inr (by decide))]

theorem State.f_dumpFields_auto : (s.dumpFields v).f (R.SYN_DUMP_CTL_AUTO 0) = if vbit v 4 then 1 else 0 :=
  State.f_put_fits _ (f := R.SYN_DUMP_CTL_AUTO 0) (by decide) (by decide) (by split <;> decide)

/-- A dump that GO has started: its first record is written at the end of a cycle to come (R298). -/
def State.dumpStarted : State :=
  let u := s.puts [(R.SYN_DUMP_CTL_GO 0, 1), (R.SYN_DUMP_CTL_TORN 0, 0)]
  ({ u with syn := { u.syn with dump := some 0, thawed := false } }).useFree.at' .real (u.cycEnd (u.free % ns 149)) .dumpDone

theorem State.sameRegs_dumpStarted : s.sameRegs [R.SYN_DUMP_CTL 0] s.dumpStarted :=
  s.sameRegs_puts (l := [(R.SYN_DUMP_CTL_GO 0, 1), (R.SYN_DUMP_CTL_TORN 0, 0)]) (by decide)

theorem State.f_dumpStarted : s.dumpStarted.f (R.SYN_DUMP_CTL_GO 0) = 1 ∧ s.dumpStarted.f (R.SYN_DUMP_CTL_TORN 0) = 0 ∧
    s.dumpStarted.f (R.SYN_DUMP_CTL_AUTO 0) = s.f (R.SYN_DUMP_CTL_AUTO 0) := by
  have hf (g : Fld) : s.dumpStarted.f g = ((s.put (R.SYN_DUMP_CTL_GO 0) 1).put (R.SYN_DUMP_CTL_TORN 0) 0).f g := rfl
  refine ⟨?_, ?_, ?_⟩
  · rw [hf, State.f_put_apart _ _ _ _ (by decide) (by decide) (by decide) (by decide)]
    exact State.f_put_fits _ (by decide) (by decide) (by decide)
  · rw [hf]
    exact State.f_put_fits _ (by decide) (by decide) (by decide)
  · rw [hf, State.f_put_apart _ _ _ _ (by decide) (by decide) (by decide) (by decide), State.f_put_apart _ _ _ _ (by decide) (by decide) (by decide) (by decide)]

/-- GO is rejected outside a freeze, while a dump runs, and with a base that leaves the records no room (R298). -/
def State.dumpShut : Bool := !s.frozen || s.bit (R.SYN_DUMP_CTL_GO 0) || decide (0x100000 < s.f (R.SYN_DUMP_BASE_BASE 0) * 64 + 0x1A840)

theorem State.dumpCtl_of_accepted {m : Master} (hm : (m == .sec || m == .dbg) = true) : s.dumpCtl m 0 v =
    if !vbit v 0 then s.dumpFields v else if (s.dumpFields v).dumpShut then (s.dumpFields v).put (R.SYN_DUMP_CTL_REJ 0) 1 else (s.dumpFields v).dumpStarted := by
  rw [State.dumpCtl, hm]
  rfl

/-- The plain fields do not decide whether GO is rejected. -/
theorem State.dumpShut_dumpFields : (s.dumpFields v).dumpShut = s.dumpShut := by
  obtain ⟨hbase, hstat⟩ := dumpCtl_ne
  have hf {g : Fld} (hg : g.key ≠ R.SYN_DUMP_CTL 0) : (s.dumpFields v).f g = s.f g := State.f_congr (s.sameRegs_dumpFields v g.key (by simpa using hg))
  rw [State.dumpShut, State.dumpShut, State.frozen, State.frozen, State.bit, State.bit, State.bit, State.bit, hf (g := R.LCT_FRZ_STAT_FROZEN) hstat,
    hf (g := R.SYN_DUMP_BASE_BASE 0) hbase, s.f_dumpFields_go v]

end

/-- GO of an accepted master in a freeze, while no dump runs and the base fits (R298, R310). -/
theorem exec_dumpGo_of_idle {m : Master} {v : W32} {s : State} (hm : (m == .sec || m == .dbg) = true) (hset : vbit v 0 = true) (hfrz : s.frozen = true)
    (hidle : s.bit (R.SYN_DUMP_CTL_GO 0) = false) (hfits : s.f (R.SYN_DUMP_BASE_BASE 0) * 64 + 0x1A840 ≤ 0x100000) (hfree : s.rgsShut (masterIdx m) = false) :
    exec (.dumpGo m v) s = .next (s.dumpFields v).dumpStarted := by
  have hopen : s.dumpShut = false := by
    rw [State.dumpShut, hfrz, hidle, decide_eq_false (Nat.not_lt.mpr hfits)]
    rfl
  rw [exec_dumpGo, State.row_of_open hfree, s.dumpCtl_of_accepted v hm, s.dumpShut_dumpFields v, hset, hopen]
  rfl

/-! Records -/

theorem exec_dumpDone (s : State) : exec .dumpDone s = execDumpDone s := rfl

/-- Where record `n` is written (R299). -/
def State.dumpAt (s : State) (n : Nat) : Nat :=
  if n = 0 then msram (s.f (R.SYN_DUMP_BASE_BASE 0) * 64) else msram (s.f (R.SYN_DUMP_BASE_BASE 0) * 64) + 0x840 + 0x340 * (n - 1)

/-- Record `n` is written; it marks the dump torn once the freeze has ended (R299, R300). -/
def State.dumpWritten (s : State) (n : Nat) : State :=
  let u := s.setCells (s.dumpAt n) (s.dumpRec n)
  if u.syn.thawed then u.put (R.SYN_DUMP_CTL_TORN 0) 1 else u

section
variable (s : State) (n : Nat)

theorem State.dumpWritten_mem : (s.dumpWritten n).mem = (s.setCells (s.dumpAt n) (s.dumpRec n)).mem := by
  unfold State.dumpWritten
  dsimp only
  split <;> rfl

theorem State.dumpWritten_syn : (s.dumpWritten n).syn = s.syn := by
  unfold State.dumpWritten
  dsimp only
  split <;> exact s.setCells_syn _ _

theorem State.cabs_dumpWritten : (s.dumpWritten n).cabs = s.cabs := by
  have hcells := State.cabs_congr (State.setCells_keeps (K := allParts) (s.dumpAt n) (s.dumpRec n) (subset_allParts _) (.refl s)).ties
  unfold State.dumpWritten
  dsimp only
  split <;> exact hcells

theorem State.sameRegs_dumpWritten : s.sameRegs [R.SYN_DUMP_CTL 0] (s.dumpWritten n) := by
  intro k hk
  have hne : k ≠ R.SYN_DUMP_CTL 0 := List.ne_of_not_mem_cons hk
  unfold State.dumpWritten
  dsimp only
  split
  · exact (State.reg_put_other _ _ _ hne).trans (s.reg_setCells _ _ k)
  · exact s.reg_setCells _ _ k

theorem State.f_dumpWritten_torn : (s.dumpWritten n).f (R.SYN_DUMP_CTL_TORN 0) = if s.syn.thawed then 1 else s.f (R.SYN_DUMP_CTL_TORN 0) := by
  unfold State.dumpWritten
  dsimp only
  rw [State.setCells_syn]
  split
  · exact State.f_put_fits _ (by decide) (by decide) (by decide)
  · exact State.f_congr (s.reg_setCells _ _ _)

theorem State.f_dumpWritten_go : (s.dumpWritten n).f (R.SYN_DUMP_CTL_GO 0) = s.f (R.SYN_DUMP_CTL_GO 0) := by
  unfold State.dumpWritten
  dsimp only
  split
  · rw [State.f_put_apart _ _ _ _ (by decide) (by decide) (by decide) (by decide)]
    exact State.f_congr (s.reg_setCells _ _ _)
  · exact State.f_congr (s.reg_setCells _ _ _)

/-- The bytes of the record are the only ones that change. -/
theorem State.sameCells_dumpWritten {t : State} (h : t.mem = (s.dumpWritten n).mem) : s.sameCells (s.dumpAt n) (s.dumpRec n).length t := by
  intro c hc
  rw [State.cell, h, State.dumpWritten_mem]
  exact State.cell_setCells_other s (s.dumpAt n) (s.dumpRec n) hc

/-- The dump goes on with the record of cabinet `p` (R299). -/
def State.dumpNext (s : State) (p : Nat) : State :=
  ({ s with syn := { s.syn with dump := some (p + 1) } }).useFree.at' .real (s.cycEnd (s.free % ns 149)) .dumpDone

/-- The dump is over (R298). -/
def State.dumpOver (s : State) : State := ({ s with syn := { s.syn with dump := none } }).puts [(R.SYN_DUMP_CTL_GO 0, 0), (R.SYN_DUMP_CTL_DONE 0, 1)]

/-- The fields of DUMP_CTL after the last record. -/
theorem State.f_dumpOver : s.dumpOver.f (R.SYN_DUMP_CTL_GO 0) = 0 ∧ s.dumpOver.f (R.SYN_DUMP_CTL_DONE 0) = 1 ∧
    s.dumpOver.f (R.SYN_DUMP_CTL_TORN 0) = s.f (R.SYN_DUMP_CTL_TORN 0) := by
  have hf (g : Fld) : s.dumpOver.f g = ((s.put (R.SYN_DUMP_CTL_GO 0) 0).put (R.SYN_DUMP_CTL_DONE 0) 1).f g := rfl
  refine ⟨?_, ?_, ?_⟩
  · rw [hf, State.f_put_apart _ _ _ _ (by decide) (by decide) (by decide) (by decide)]
    exact State.f_put_fits _ (by decide) (by decide) (by decide)
  · rw [hf]
    exact State.f_put_fits _ (by decide) (by decide) (by decide)
  · rw [hf, State.f_put_apart _ _ _ _ (by decide) (by decide) (by decide) (by decide), State.f_put_apart _ _ _ _ (by decide) (by decide) (by decide) (by decide)]

theorem State.sameRegs_dumpOver : s.sameRegs [R.SYN_DUMP_CTL 0] s.dumpOver :=
  State.sameRegs_puts { s with syn := { s.syn with dump := none } } (l := [(R.SYN_DUMP_CTL_GO 0, 0), (R.SYN_DUMP_CTL_DONE 0, 1)]) (by decide)

end

/-- At the end of a cycle that no master uses, the record is written, and the cabinet whose record is next decides whether the dump goes on (R298, R423). -/
theorem exec_dumpDone_of_free {s : State} {n : Nat} (hdump : s.syn.dump = some n) (hbusy : s.msramBusy = false) :
    exec .dumpDone s = .next ((s.cabs.find? (fun p => decide (n ≤ p))).elim (s.dumpWritten n).dumpOver (s.dumpWritten n).dumpNext) := by
  have hstep : execDumpDone s = .next (if s.msramBusy then s.at' .real (s.cycEnd 0) .dumpDone else
      match (s.dumpWritten n).cabs.find? (fun p => decide (n ≤ p)) with
      | some p => (s.dumpWritten n).dumpNext p
      | none => (s.dumpWritten n).dumpOver) := by
    rw [execDumpDone, hdump]
    rfl
  rw [exec_dumpDone, hstep, hbusy, s.cabs_dumpWritten n]
  cases s.cabs.find? (fun p => decide (n ≤ p)) <;> rfl

end Sys2Proof.Machine
end

section
/-! PROOFS. Counters bound, unbound and set by hand, and the state dump (R267 to R269, R285, R296 to R300, R310). -/
namespace Sys2Proof.Machine

theorem exec_quietEnd (sel : CtrSel) (s : State) : exec (.quietEnd sel) s = execQuietEnd sel s := rfl

theorem exec_setKeyWrite (m : Master) (cab : Cab) (v : W32) (s : State) : exec (.setKeyWrite m cab v) s = execSetKeyWrite m cab v s := rfl

theorem exec_setPathTimeout (cab : Cab) (s : State) : exec (.setPathTimeout cab) s = execSetPathTimeout cab s := rfl

theorem exec_counterSet (m : Master) (cab : Cab) (v : W32) (s : State) : exec (.counterSet m cab v) s = execCounterSet m cab v s := rfl

/-- Settles O29, clause by clause: the writes of a CFG register by one lemma, those of the set path by their gate, the dump by the record written. -/
theorem countersAreBoundAndSetByHand : Obligations.CountersAreBoundAndSetByHand := by
  refine ⟨?bind, ?bound, ?unbind, ?unbound, ?wake, ?quiet, ?key, ?badKey, ?timeout, ?set, ?dumpGo, ?dumpLast, ?dumpMore⟩
  case bind =>
    intro m sel v s hsynth hgo hm hfreeCtr hquiet hfree
    have hok : s.ctrOk m (selKey sel) (v ||| 0x10) = true :=
      State.ctrOk_eq_true hm (fun hbound => absurd (hfreeCtr.symm.trans hbound) Bool.false_ne_true) fun _ _ => hquiet
    rw [exec_counterBind, State.row_of_open hfree, State.ctrWrite_of_go hsynth hgo hok, hfreeCtr, vbit_set_bound]
    rfl
  case bound => exact fun sel s => s.bindCtr_bound (selKey sel)
  case unbind =>
    intro m sel v s hsynth hgo hm hbound hfree
    have hclear := vbit_clear_bound v
    have hok : s.ctrOk m (selKey sel) (v &&& 0xFFFFFFEF) = true :=
      State.ctrOk_eq_true hm (fun _ hset => absurd (hclear.symm.trans hset) Bool.false_ne_true)
        fun hunbound _ => absurd (hunbound.symm.trans hbound) Bool.false_ne_true
    rw [exec_counterUnbind, State.row_of_open hfree, State.ctrWrite_of_go hsynth hgo hok, hbound, hclear]
    rfl
  case unbound => exact fun sel s => s.unbindCtr_quiet sel
  case wake =>
    intro m sel v s hsynth hgo hm hsame hctx hfree
    have hset := vbit_set_wake v
    have hok : s.ctrOk m (selKey sel) (v ||| 0x20) = true := State.ctrOk_eq_true hm (fun _ h => by rw [ctx_set_wake]; exact hctx (hset.symm.trans h))
      fun hunbound h => absurd ((hunbound.symm.trans hsame).trans (hset.symm.trans h)) Bool.false_ne_true
    rw [exec_wakeEnWrite, State.row_of_open hfree, State.ctrWrite_of_go hsynth hgo hok, hsame, hset]
    cases vbit v 4 <;> rfl
  case quiet =>
    intro sel s hnot
    rw [exec_quietEnd, execQuietEnd, hnot]
    rfl
  case key =>
    intro m cab v s hsynth hgo hm hkey hfree
    rw [exec_setKeyWrite, execSetKeyWrite, State.row_gateAt_of_go hsynth hgo hm hfree, if_pos hkey]
  case badKey =>
    intro m cab v s hsynth hgo hm hkey hfree
    rw [exec_setKeyWrite, execSetKeyWrite, State.row_gateAt_of_go hsynth hgo hm hfree, if_neg hkey]
    rfl
  case timeout =>
    intro cab s hdue
    rw [exec_setPathTimeout, execSetPathTimeout, if_pos hdue]
    rfl
  case set =>
    intro m cab v k s hsynth hgo hm hpath hsel hfree
    rw [exec_counterSet, execCounterSet, State.row_gateAt_of_go hsynth hgo hm hfree, hpath, hsel]
    rfl
  case dumpGo =>
    intro m v s hm hset hfrz hidle hfits hfree
    obtain ⟨hrun, htorn, hauto⟩ := (s.dumpFields v).f_dumpStarted
    exact ⟨_, exec_dumpGo_of_idle hm hset hfrz hidle hfits hfree, hrun, htorn, hauto.trans (s.f_dumpFields_auto v), rfl, rfl,
      fun k hk => ((s.dumpFields v).sameRegs_dumpStarted k hk).trans (s.sameRegs_dumpFields v k hk)⟩
  case dumpLast =>
    intro n s hdump hbusy hlast
    obtain ⟨hidle, hdone, htorn⟩ := (s.dumpWritten n).f_dumpOver
    have hmem : (s.dumpWritten n).dumpOver.mem = (s.dumpWritten n).mem := State.puts_mem _ _
    have hsyn : (s.dumpWritten n).dumpOver.syn.dump = none := congrArg SynSt.dump (State.puts_syn _ _)
    refine ⟨(s.dumpWritten n).dumpOver, ?_, hidle, hdone, hsyn, htorn.trans (s.f_dumpWritten_torn n), hmem.trans (s.dumpWritten_mem n),
      s.sameCells_dumpWritten n hmem, fun k hk => ((s.dumpWritten n).sameRegs_dumpOver k hk).trans (s.sameRegs_dumpWritten n k hk)⟩
    rw [exec_dumpDone_of_free hdump hbusy, hlast]
    rfl
  case dumpMore =>
    intro n p s hdump hbusy hmore
    refine ⟨(s.dumpWritten n).dumpNext p, ?_, rfl, s.f_dumpWritten_go n, s.dumpWritten_mem n, s.sameCells_dumpWritten n rfl, s.sameRegs_dumpWritten n⟩
    rw [exec_dumpDone_of_free hdump hbusy, hmore]
    rfl

end Sys2Proof.Machine
end

section
/-! SUPPORT. A runner as it reads after a write to a runner, and what hand-overs leave of the runners (R311, R344, R375). -/
namespace Sys2Proof.Machine

@[simp] theorem State.runner_setRunner_same (s : State) (cab r : Nat) (x : RunSt) : (s.setRunner cab r x).runner cab r = x := SMap.get_set_same _ _ _ _

theorem State.runner_setRunner_other (s : State) (cab : Nat) {r q : Nat} (x : RunSt) (h : q ≠ r) : (s.setRunner cab r x).runner cab q = s.runner cab q :=
  SMap.get_set_other _ _ _ _ (by omega)

/-- An operation whose frame holds the runners leaves what each of them reads. -/
theorem Keeps.runner {K : List Part} {s t : State} (h : Keeps K s t) (hk : Part.runners ∉ K) (cab r : Nat) : t.runner cab r = s.runner cab r := by
  have hrunners : t.runners = s.runners := h.frame .runners hk
  rw [State.runner, hrunners, State.runner]

theorem State.runner_arm (s : State) (c : Clock) (n : Nat) (i : Instr) (cab r : Nat) : (s.arm c n i).runner cab r = s.runner cab r :=
  (State.arm_keeps c n i (List.Subset.refl _) (.refl s)).runner (by decide) cab r

theorem State.runner_kick (s : State) (p q cab r : Nat) : (s.kick p q).runner cab r = s.runner cab r :=
  (State.kick_keeps p q (List.Subset.refl _) (.refl s)).runner (by decide) cab r

/-- FIFOs that become hand-overs leave every runner. -/
theorem State.runner_handTakes (s : State) (l : List Nat) (p w ctx cab r : Nat) :
    (l.foldl (fun s h => s.handTake p h w ctx) s).runner cab r = s.runner cab r := by
  have htakes : Keeps [.regs, .fifos] s (l.foldl (fun s h => s.handTake p h w ctx) s) :=
    .foldl (.refl s) fun _ _ hu => State.handTake_keeps _ _ _ _ (List.Subset.refl _) hu
  exact htakes.runner (by decide) cab r

/-- Of fields that share no bit, each reads as it was written when its number fits. -/
theorem State.f_puts_of_mem (s : State) {l : List (Fld × Nat)} {p : Fld × Nat} (hp : p ∈ l)
    (hfit : ∀ q ∈ l, q.1.lo ≤ q.1.hi ∧ q.1.hi < 32 ∧ q.2 < 2 ^ q.1.width) (hapart : l.Pairwise fun p q => q.1.apart p.1) : (s.puts l).f p.1 = p.2 := by
  induction l generalizing s with
  | nil => exact absurd hp List.not_mem_nil
  | cons a l ih =>
    obtain ⟨hhead, htail⟩ := List.pairwise_cons.mp hapart
    obtain ⟨⟨hle, h32, hn⟩, hrest⟩ := List.forall_mem_cons.mp hfit
    rw [State.puts_cons]
    rcases List.mem_cons.mp hp with rfl | hp
    · rw [State.f_puts_apart _ hle fun q hq => ⟨(hrest q hq).1, (hrest q hq).2.1, hhead q hq⟩, s.f_put_fits hle h32 hn]
    · exact ih _ hp hrest htail

theorem asRun_val (r : Fin 4) : asRun r.val = r := Fin.ofNat_val_eq_self r

/-- The windows that a range of granules lies in are the same whatever the runners hold. -/
theorem State.writable_setRunner (s : State) (cab r : Nat) (x : RunSt) (ctx last fuel g : Nat) :
    (s.setRunner cab r x).writable ctx last fuel g = s.writable ctx last fuel g := by
  induction fuel generalizing g with
  | zero => rfl
  | succ fuel ih =>
    simp only [State.writable, ih]
    rfl

end Sys2Proof.Machine
end

section
/-! PROOFS. The descriptors of a list as they begin (R319, R322 to R331, R344, R347). -/
namespace Sys2Proof.Machine

/-! The commands -/

theorem exec_copy (cab : Cab) (r : Fin 4) (s : State) : exec (.copy cab r) s = .next (s.beginWork cab r 1) := rfl
theorem exec_fill (cab : Cab) (r : Fin 4) (s : State) : exec (.fill cab r) s = .next (s.beginWork cab r 2) := rfl
theorem exec_gather (cab : Cab) (r : Fin 4) (s : State) : exec (.gather cab r) s = .next (s.beginWork cab r 3) := rfl
theorem exec_scatter (cab : Cab) (r : Fin 4) (s : State) : exec (.scatter cab r) s = .next (s.beginWork cab r 4) := rfl
theorem exec_mcast (cab : Cab) (r : Fin 4) (s : State) : exec (.mcast cab r) s = .next (s.beginWork cab r 5) := rfl
theorem exec_nop (cab : Cab) (r : Fin 4) (s : State) : exec (.nop cab r) s = execNop cab r s := rfl
theorem exec_signal (cab : Cab) (r : Fin 4) (s : State) : exec (.signal cab r) s = execSignal cab r s := rfl
theorem exec_wait (cab : Cab) (r : Fin 4) (s : State) : exec (.wait cab r) s = execWait cab r s := rfl
theorem exec_sweep (cab : Cab) (r : Fin 4) (s : State) : exec (.sweep cab r) s = execSweep cab r s := rfl
theorem exec_fuse (cab : Cab) (r : Fin 4) (s : State) : exec (.fuse cab r) s = execFuse cab r s := rfl

/-! Streams -/

section
variable {s : State} {cab r : Nat} {x : RunSt} {d : Start}

/-- The stream of a descriptor that is no multicast joins those in progress. -/
theorem State.beginWork_stream {op : Nat} (hx : s.runner cab r = x) (hstart : starting x op = some d) (hop : op ≠ 5) :
    s.beginWork cab r op = (s.setRunner cab r { x with start := none, works := x.works ++ [newWork d.idx d.desc (s.listCtx d.list) d.list] }).kick cab r := by
  simp only [State.beginWork, hx, hstart, if_neg hop]

/-- The stream of a multicast joins them with its receivers. -/
theorem State.beginWork_mcast (hx : s.runner cab r = x) (hstart : starting x 5 = some d) :
    s.beginWork cab r 5 = (s.setRunner cab r { x with start := none, works := x.works ++ [{ newWork d.idx d.desc (s.listCtx d.list) d.list with
      rx := (receivers d.desc).map (fun q => ({ num := q.1, cab := q.2, unacked := [], lapsed := false, since := none } : Rx)) }] }).kick cab r := by
  simp only [State.beginWork, hx, hstart, if_pos]

end

/-! Signals, waits and sweeps -/

/-- A signal that nothing refuses or discards is issued for the running list, held when the list is one of an open step. -/
theorem State.runSignal_of_good {s : State} {cab r cn : Nat} {l : RunList} (inc : Nat) (hrun : (s.runner cab r).run = some l)
    (hcheck : s.sigCheck (some l.ctx) cn = none) (hreplay : s.replaying (some l.ctx) = false) :
    s.runSignal cab r cn inc = s.issueSig (.runner cab r) (some l.ctx) cn inc [] l.held (if l.held then some l.openAt else none) := by
  simp only [State.runSignal, hrun, Option.map_some, Option.getD_some, hcheck, hreplay]
  cases hheld : l.held <;> simp [Option.filter, hheld]

/-- A wait without a limit that nothing refuses registers the runner's waiter. -/
theorem State.runWait_of_good {s : State} {cab r sel : Nat} {l : RunList} (idx e : Nat) (hrun : (s.runner cab r).run = some l)
    (hcheck : s.waitCheck cab sel (some l.ctx) = none) :
    s.runWait cab r idx sel e 0 = (s.registerWtr cab (12 + r) sel e l.ctx).setRunner cab r
      { (s.registerWtr cab (12 + r) sel e l.ctx).runner cab r with wait := some { idx := idx, limit := none } } := by
  simp only [State.runWait, hrun, Option.map_some, Option.getD_some, hcheck, if_pos]

/-- A sweep of a range that is on this die, writable and mapped queues its parts. -/
theorem execSweep_of_good {s : State} {cab : Cab} {r : Fin 4} {d : Start} (hstart : starting (s.runner cab r) 9 = some d)
    (hdie : faDie (dword d.desc 1) = s.die)
    (hwrite : s.writable (s.listCtx d.list) (faGran (dword d.desc 2)) 65 (faGran (dword d.desc 1)) = true)
    (hmapped : ∀ i, i < sweepCabs d.desc → (s.mapped (s.ctxGen (s.listCtx d.list)) (faCab (dword d.desc 1) + i)).isSome) :
    execSweep cab r s = .next ((((s.started cab r).setRunner cab r { (s.started cab r).runner cab r with sweep := some d.idx }).sweepParts
      ((s.started cab r).ctxGen (s.listCtx d.list)) (dword d.desc 1) (dword d.desc 2) (.desc cab r)).arm .unfz 1 (.descriptorComplete cab r)) := by
  have hdie' : faDie (dword d.desc 1) = (s.started cab r).die := hdie
  have hwrite' : (s.started cab r).writable (s.listCtx d.list) (faGran (dword d.desc 2)) 65 (faGran (dword d.desc 1)) = true :=
    (s.writable_setRunner cab r _ _ _ _ _).trans hwrite
  have hall : ((List.range (sweepCabs d.desc)).all fun i => (s.mapped (s.ctxGen (s.listCtx d.list)) (faCab (dword d.desc 1) + i)).isSome) = true :=
    List.all_eq_true.mpr fun i hi => hmapped i (List.mem_range.mp hi)
  simp [execSweep, hstart, hdie', hwrite', hall]

/-! Settling -/

/-- Settles O32, clause by clause: the streams by one lemma over the opcode, the multicast by its own. -/
theorem descriptorsAreCarriedOut : Obligations.DescriptorsAreCarriedOut := by
  refine ⟨?copy, ?fill, ?gather, ?scatter, ?mcast, ?nop, ?signal, ?issued, ?wait, ?registered, ?sweep, ?fuse⟩
  case copy => exact fun cab r x d s hx hstart => by rw [exec_copy, State.beginWork_stream hx hstart (by decide)]
  case fill => exact fun cab r x d s hx hstart => by rw [exec_fill, State.beginWork_stream hx hstart (by decide)]
  case gather => exact fun cab r x d s hx hstart => by rw [exec_gather, State.beginWork_stream hx hstart (by decide)]
  case scatter => exact fun cab r x d s hx hstart => by rw [exec_scatter, State.beginWork_stream hx hstart (by decide)]
  case mcast => exact fun cab r x d s hx hstart => by rw [exec_mcast, State.beginWork_mcast hx hstart]
  case nop =>
    intro cab r d s hstart
    rw [exec_nop, execNop, hstart]
  case signal =>
    intro cab r d s hstart hfrz hplaces
    have hroom : ¬ 4 ≤ s.places cab r := Nat.not_le.mpr hplaces
    simp [exec_signal, execSignal, hstart, hfrz, hroom]
  case issued => exact fun cab r cn inc l s hrun hcheck hreplay => State.runSignal_of_good inc hrun hcheck hreplay
  case wait =>
    intro cab r d s hstart
    rw [exec_wait, execWait, hstart]
  case registered => exact fun cab r idx sel e l s hrun hcheck => State.runWait_of_good idx e hrun hcheck
  case sweep => exact fun cab r d s hstart hdie hwrite hmapped => (exec_sweep cab r s).trans (execSweep_of_good hstart hdie hwrite hmapped)
  case fuse =>
    intro cab r x d f s hx hstart hf
    simp only [exec_fuse, execFuse, hx, hstart, hf, Option.map_some]

end Sys2Proof.Machine
end

section
/-! PROOFS. Fused commands: the grant of hand-overs, ageing and the ENGINE stages (R341 to R345, R375). -/
namespace Sys2Proof.Machine

/-! The commands -/

theorem exec_handoverGrant (cab : Cab) (s : State) : exec (.handoverGrant cab) s = execHandoverGrant cab s := rfl
theorem exec_reservationAged (cab : Cab) (r : Fin 4) (s : State) : exec (.reservationAged cab r) s = execReservationAged cab r s := rfl
theorem exec_engine (cab : Cab) (r : Fin 4) (s : State) : exec (.engine cab r) s = execEngine cab r s := rfl
theorem exec_esgAck (cab : Cab) (s : State) : exec (.esgAck cab) s = execEsgAck cab s := rfl
theorem exec_esgDone (cab : Cab) (r : Fin 4) (s : State) : exec (.esgDone cab r) s = execEsgDone cab r s := rfl

/-! The allocator -/

/-- The hand-overs of a cabinet that are in the pool and not reserved (R344). -/
def State.freeHands (s : State) (cab : Nat) : List Nat :=
  (List.range 8).filter (fun h => s.bit (bitFld (R.RUN_POOL cab) h) && !s.bit (bitFld (R.RUN_RSV_STAT cab) h))

/-- A runner that has begun the runner stages of its fused command waits for no hand-over. -/
theorem State.reserving_startStages {s : State} {cab r : Nat} (h : reserving (s.runner cab r) = false) :
    reserving ((s.startStages cab r).runner cab r) = false := by
  cases hf : (s.runner cab r).fuse with
  | none => simpa only [State.startStages, hf] using h
  | some f => simp [State.startStages, hf, State.runner_kick, reserving]

theorem State.runner_startStages_other (s : State) (cab : Nat) {r q : Nat} (h : q ≠ r) : (s.startStages cab r).runner cab q = s.runner cab q := by
  cases hf : (s.runner cab r).fuse with
  | none => simp only [State.startStages, hf]
  | some f => simp only [State.startStages, hf, State.runner_kick, State.runner_setRunner_other _ _ _ h]

/-- A request that is granted waits no more. -/
theorem State.reserving_grantHands_same (s : State) (cab r : Nat) (f : Fuse) (free : List Nat) :
    reserving ((s.grantHands cab r f free).runner cab r) = false := by
  unfold State.grantHands
  dsimp only
  split
  · exact State.reserving_startStages (by simp [reserving])
  · simp [State.runner_arm, reserving]

/-- The grant to one runner leaves the others of its cabinet. -/
theorem State.runner_grantHands_other (s : State) (cab : Nat) {r q : Nat} (f : Fuse) (free : List Nat) (h : q ≠ r) :
    (s.grantHands cab r f free).runner cab q = s.runner cab q := by
  unfold State.grantHands
  dsimp only
  split
  · rw [State.runner_startStages_other _ _ h, State.runner_setRunner_other _ _ _ h, State.runner_handTakes]
  · rw [State.runner_arm, State.runner_setRunner_other _ _ _ h, State.runner_handTakes]

/-- The only runner of a cabinet that waits for hand-overs is all there is to decide on. -/
theorem waiting_alone {s : State} {cab : Nat} {r : Fin 4} (hr : reserving (s.runner cab r) = true)
    (hothers : ∀ q : Fin 4, q ≠ r → reserving (s.runner cab q) = false) : (List.range 4).filter (fun q => reserving (s.runner cab q)) = [r.val] := by
  have hsame : ∀ q ∈ List.range 4, reserving (s.runner cab q) = decide (q = r.val) := by
    intro q hq
    by_cases h : q = r.val
    · rw [h, hr, decide_eq_true rfl]
    · rw [hothers ⟨q, List.mem_range.mp hq⟩ fun e => h (congrArg Fin.val e), decide_eq_false h]
  have hone : ∀ r : Fin 4, (List.range 4).filter (fun q => decide (q = r.val)) = [r.val] := by decide
  rw [List.filter_congr hsame, hone r]

/-- One request alone is decided on by the count of free hand-overs: an aged one stands first among its like, and with none aged each may be
granted (R345). -/
theorem exec_handoverGrant_alone {s : State} {cab : Cab} {r : Fin 4} {f : Fuse} (hfrz : s.frozen = false) (hr : reserving (s.runner cab r) = true)
    (hothers : ∀ q : Fin 4, q ≠ r → reserving (s.runner cab q) = false) (hf : (s.runner cab r).fuse = some f) :
    exec (.handoverGrant cab) s = .next
      (let t := if stagesOf f.desc - 1 ≤ (s.freeHands cab).length then s.grantHands cab r f (s.freeHands cab) else s
      if (List.range 4).any (fun q => reserving (t.runner cab q)) then t.arm .unfz 1 (.handoverGrant cab) else t) := by
  have hwait := waiting_alone hr hothers
  rw [exec_handoverGrant, execHandoverGrant, hfrz]
  simp only [hwait, List.foldl_cons, List.foldl_nil, hf, State.freeHands]
  cases haged : f.aged <;> simp [hf, haged]

/-! Hand-overs -/

/-- The fields that a FIFO is given as a hand-over, among them its bit in RUN.RSV_STAT (R344, R375). -/
def handFields (cab f w ctx : Nat) : List (Fld × Nat) :=
  [(R.HFF_CFG_LIMIT cab f, w), (R.HFF_CFG_CUT_THROUGH cab f, 1), (R.HFF_CFG_NOTICE cab f, 0), (R.HFF_CFG_CTX cab f, ctx), (R.HFF_CFG_BOUND cab f, 1),
    (R.HFF_CFG_HANDOVER cab f, 1), (bitFld (R.RUN_RSV_STAT cab) f, 1)]

theorem State.handTake_eq (s : State) (cab f w ctx : Nat) : s.handTake cab f w ctx = (s.fifoFlush cab f).puts (handFields cab f w ctx) := rfl

theorem handFields_fit {cab f w ctx : Nat} (hf : f < 8) (hw : w ≤ 16) (hctx : ctx < 16) :
    ∀ p ∈ handFields cab f w ctx, p.1.lo ≤ p.1.hi ∧ p.1.hi < 32 ∧ p.2 < 2 ^ p.1.width := by
  have hbit : f < 32 := by omega
  have hlimit : w < 32 := by omega
  simp [handFields, R.HFF_CFG_LIMIT, R.HFF_CFG_CUT_THROUGH, R.HFF_CFG_NOTICE, R.HFF_CFG_CTX, R.HFF_CFG_BOUND, R.HFF_CFG_HANDOVER, bitFld, Fld.width,
    hbit, hlimit, hctx]

theorem handFields_apart (cab f w ctx : Nat) : (handFields cab f w ctx).Pairwise fun p q => q.1.apart p.1 := by
  have hkey : R.RUN_RSV_STAT cab ≠ R.HFF_CFG cab f := by
    unfold R.HFF_CFG R.RUN_RSV_STAT cabReg
    omega
  simp [handFields, R.HFF_CFG_LIMIT, R.HFF_CFG_CUT_THROUGH, R.HFF_CFG_NOTICE, R.HFF_CFG_CTX, R.HFF_CFG_BOUND, R.HFF_CFG_HANDOVER, bitFld, Fld.apart, hkey]

/-- A FIFO that becomes a hand-over has those fields. -/
theorem State.f_handTake (s : State) {cab f w ctx : Nat} (hf : f < 8) (hw : w ≤ 16) (hctx : ctx < 16) {p : Fld × Nat} (hp : p ∈ handFields cab f w ctx) :
    (s.handTake cab f w ctx).f p.1 = p.2 := by
  rw [s.handTake_eq, State.f_puts_of_mem _ hp (handFields_fit hf hw hctx) (handFields_apart cab f w ctx)]

/-! Settling -/

/-- Settles O34, clause by clause: the two decisions of the allocator by the lemma on a request alone. -/
theorem fusedCommandsReserveAndRun : Obligations.FusedCommandsReserveAndRun := by
  refine ⟨?granted, ?waits, ?taken, ?aged, ?engine, ?shown, ?accepted, ?ended⟩
  case granted =>
    intro cab r x f free s hfrz hx hr hothers hf hfree henough
    subst hx
    obtain rfl : free = s.freeHands cab := hfree
    have hnone : (List.range 4).any (fun q => reserving ((s.grantHands cab r f (s.freeHands cab)).runner cab q)) = false := by
      rw [List.any_eq_false]
      intro q hq
      by_cases h : q = r.val
      · rw [h, State.reserving_grantHands_same]
        decide
      · rw [State.runner_grantHands_other _ _ _ _ h, hothers ⟨q, List.mem_range.mp hq⟩ fun e => h (congrArg Fin.val e)]
        decide
    rw [exec_handoverGrant_alone hfrz hr hothers hf, if_pos henough]
    dsimp only
    rw [hnone]
    rfl
  case waits =>
    intro cab r x f free s hfrz hx hr hothers hf hfree hfew
    subst hx
    obtain rfl : free = s.freeHands cab := hfree
    have hany : (List.range 4).any (fun q => reserving (s.runner cab q)) = true := List.any_eq_true.mpr ⟨r, List.mem_range.mpr r.isLt, hr⟩
    rw [exec_handoverGrant_alone hfrz hr hothers hf, if_neg (Nat.not_le.mpr hfew)]
    dsimp only
    rw [if_pos hany]
  case taken =>
    intro cab f w ctx s hf hw hctx
    have hfield : ∀ p ∈ handFields cab f w ctx, (s.handTake cab f w ctx).f p.1 = p.2 := fun p hp => s.f_handTake hf hw hctx hp
    simp only [handFields, List.forall_mem_cons] at hfield
    obtain ⟨hlimit, -, -, hctx', hbound, hhand, hheld, -⟩ := hfield
    exact ⟨hlimit, hctx', hbound, hhand, hheld⟩
  case aged =>
    intro cab r x f s hx hr hf hdue
    rw [exec_reservationAged, execReservationAged, hx, hf, if_pos ⟨hr, by simpa using hdue⟩]
    rfl
  case engine =>
    intro cab r x f k rest s hx hf htodo hphase hfrz habort hquiet hport
    have hshown : (List.range 4).any (fun q => (s.runner cab q).fuse.any (fun g => g.esg)) = false :=
      List.any_eq_false.mpr fun q hq => Bool.not_eq_true _ ▸ hquiet ⟨q, List.mem_range.mp hq⟩
    have hesg : f.esg = false := by simpa [hx, hf] using hquiet r
    simp [exec_engine, execEngine, hshown, habort, hx, hf, htodo, hphase, hesg, hfrz, hport]
  case shown =>
    intro cab r f k rest s htodo
    rw [State.esgStart, htodo]
    rfl
  case accepted =>
    intro cab r x f k rest s hport hfrz hshown hx hf htodo
    simp [exec_esgAck, execEsgAck, hport, hfrz, hshown, hx, hf, htodo, asRun_val]
  case ended =>
    intro cab r x f s hport hfrz hx hf
    simp [exec_esgDone, execEsgDone, hport, hfrz, hx, hf]

end Sys2Proof.Machine
end

section
/-! PROOFS. An answered fetch that is not yet due, against the clause of the fetch. -/
namespace Sys2Proof.Machine

/-- The fetch of descriptor 0 of a list at address 0 by runner 0 of cabinet 0 (R314). -/
def firstFetch : LReq :=
  { id := 8, req := 2, home := 0, homeDie := 0, org := .fetch 0 0 0, cls := .loose, ctx := some 0, fa := 0, we := false, be := 2 ^ 32 - 1, dat := [], op := .acc }

/-- A list of one descriptor whose fetch is presented. -/
def fetchingList : RunList := { newList 0 1 0 0 false false with next := 1, fetching := [(8, 0)] }

/-- Die 0 after reset, on unfrozen fc 0, with that list running; the answer of its fetch is one for unfrozen fc 1. -/
def fetchDueLater : State :=
  { State.reset with
    runners := [(0, { RunSt.idle with run := some fetchingList })]
    loose := { State.reset.loose with acked := [(firstFetch, noAns .ok 2, 1)] } }

/-- DESCRIPTOR_FETCH takes no answer up before its fc (`State.takeAnswers`). -/
theorem descriptorFetch_fetchDueLater : (ran fetchDueLater (exec (.descriptorFetch 0 0) fetchDueLater)).loose.acked = [(firstFetch, noAns .ok 2, 1)] := by
  decide

/-- Refutes O31: its clause for the fetch has every answer of the runner's fetch taken up, whatever the fc that stands with the answer, where
`State.takeAnswers` leaves one of a later unfrozen fc for that fc. The clause admits such a state, though of the operations that
write an answer only `State.replyAsleep` gives it a later fc. -/
theorem not_runnerListsAreDispatchedAndEnd : ¬ Obligations.RunnerListsAreDispatchedAndEnd := by
  intro h
  obtain ⟨-, -, -, hfetch, -⟩ := h
  obtain ⟨t, ht, hacked, -⟩ := hfetch 0 0 0 8 _ fetchingList [] [] (firstFetch, noAns .ok 2, 1) fetchDueLater rfl (List.forall_mem_nil _) rfl
    (by decide) (by decide) rfl rfl (by decide) rfl
  have hkept := descriptorFetch_fetchDueLater
  rw [ht, ran, hacked] at hkept
  exact absurd hkept (by decide)

end Sys2Proof.Machine
end

section
/-! PROOFS. An answered segment that is not yet due, against the clause of the segment. -/
namespace Sys2Proof.Machine

/-- The read of the first block of a stream by runner 0 of cabinet 0 (R315). -/
def firstSegment : LReq :=
  { id := 8, req := 2, home := 0, homeDie := 0, org := .seg 0 0 0, cls := .loose, ctx := some 0, fa := 0, we := false, be := 2 ^ 64 - 1, dat := [], op := .acc }

/-- Its piece, which waits for the data. -/
def firstPiece : Piece := { pos := 0, len := 64, src := 0, dst := 0, id := 8, ready := false, writing := false, dat := [] }

/-- The stream, a COPY of 64 bytes in one row. -/
def copyReading : Work := { newWork 0 (1 + 65536 + 64 * 2 ^ 96) 0 (0, 0) with pos := 64, pieces := [firstPiece] }

/-- Die 0 after reset, on unfrozen fc 0, with that stream in progress; the answer of its read is one for unfrozen fc 1. -/
def segmentDueLater : State :=
  { State.reset with
    runners := [(0, { RunSt.idle with works := [copyReading] })]
    loose := { State.reset.loose with acked := [(firstSegment, noAns .ok 2, 1)] } }

/-- SEGMENT_ANSWER takes no answer up before its fc (`State.takeAnswers`). -/
theorem segmentAnswer_segmentDueLater : (ran segmentDueLater (exec (.segmentAnswer 0 0) segmentDueLater)).loose.acked = [(firstSegment, noAns .ok 2, 1)] := by
  decide

/-- Refutes O33: its clause for the answered read has every answer of the runner's segments taken up, whatever the fc that stands with the
answer, where `State.takeAnswers` leaves one of a later unfrozen fc for that fc. The clause admits such a state, though of the operations that
write an answer only `State.replyAsleep` gives it a later fc. -/
theorem not_segmentsAndStagesMove : ¬ Obligations.SegmentsAndStagesMove := by
  intro h
  obtain ⟨-, -, -, hanswer, -⟩ := h
  obtain ⟨t, ht, hacked, -⟩ := hanswer 0 0 _ copyReading firstPiece [] [] (firstSegment, noAns .ok 2, 1) segmentDueLater rfl (List.forall_mem_nil _) rfl
    (by decide) (by decide) rfl (by decide) (by decide) (by decide) rfl rfl
  have hkept := segmentAnswer_segmentDueLater
  rw [ht, ran, hacked] at hkept
  exact absurd hkept (by decide)

end Sys2Proof.Machine
end

section
/-! PROOFS. A hand-over that returns to the pool after frozen fc, against the clause of the abort that completes. -/
namespace Sys2Proof.Machine

/-- Runner 0 of cabinet 0 in an abort with nothing left to wait for, its list's hand-over 0 abandoned so that it returns on wall fc 64 (R353). -/
def abortedRunner : RunSt := { RunSt.idle with run := some { newList 0 1 0 0 false false with ended := true }, abort := some 6, returning := [(0, 64)] }

/-- A die that has been frozen for the 64 fc since: wall fc 64, unfrozen fc 0. -/
def returnAfterFreeze : State :=
  { State.reset with time := { State.reset.time with fc := 64 }, runners := [(0, abortedRunner)] }

/-- The hand-over is returned, and so no more listed. -/
theorem abortComplete_returnAfterFreeze : ((ran returnAfterFreeze (exec (.abortComplete 0 0) returnAfterFreeze)).runner 0 0).returning = [] := by
  decide

/-- Refutes O35: its clause for ABORT_COMPLETE compares the fc on which a hand-over returns with the unfrozen fc, where `execAbortComplete` compares
it with the wall fc that it is. After frozen fc the clause keeps a hand-over listed that has returned. -/
theorem not_listsAreAbortedAndStolen : ¬ Obligations.ListsAreAbortedAndStolen := by
  intro h
  obtain ⟨-, -, -, hcomplete, -⟩ := h
  obtain ⟨t, ht, -, hkeeps⟩ := hcomplete 0 0 abortedRunner _ 6 returnAfterFreeze rfl rfl rfl rfl rfl rfl rfl rfl (by decide)
  have hgone := abortComplete_returnAfterFreeze
  rw [ht, ran, show t.runner 0 0 = _ from hkeeps rfl] at hgone
  exact absurd hgone (by decide)

end Sys2Proof.Machine
end

section
/-! SUPPORT. Fields of several registers written together, and a master that a register accepts by name. -/
namespace Sys2Proof.Machine

/-- Writes to the registers of a list leave the others. -/
theorem State.sameRegs_puts_keys (s : State) {l : List (Fld × Nat)} {ks : List Nat} (h : ∀ p ∈ l, p.1.key ∈ ks) : s.sameRegs ks (s.puts l) :=
  fun _ hj => State.reg_puts_other s l fun p hp e => hj (e ▸ h p hp)

/-- A master accepted as SCH, SEC or DBG is not HRP. -/
theorem masterBeq_hrp_eq_false {m : Master} (h : (m == .sch || m == .sec || m == .dbg) = true) : (m == .hrp) = false :=
  beq_eq_false_iff_ne.mpr (by rintro rfl; exact absurd h (by decide))

end Sys2Proof.Machine
end

section
/-! PROOFS. Contexts and engine attachment groups: the commands of CTX.CMD and the phases of a kill (R385, R387, R398, R404). -/
namespace Sys2Proof.Machine

/-! The commands -/

theorem exec_ctxActivate (m : Master) (c : Ctx) (s : State) : exec (.ctxActivate m c) s = execCtxActivate m c s := rfl
theorem exec_ctxDeactivate (m : Master) (c : Ctx) (s : State) : exec (.ctxDeactivate m c) s = execCtxDeactivate m c s := rfl
theorem exec_ctxBind (m : Master) (c : Ctx) (s : State) : exec (.ctxBind m c) s = execCtxBind m c s := rfl
theorem exec_ctxKill (m : Master) (c : Ctx) (s : State) : exec (.ctxKill m c) s = execCtxKill m c s := rfl
theorem exec_killQuiesceEnd (c : Ctx) (s : State) : exec (.killQuiesceEnd c) s = execKillQuiesceEnd c s := rfl
theorem exec_killUnbind (c : Ctx) (s : State) : exec (.killUnbind c) s = execKillUnbind c s := rfl
theorem exec_eagWrite (m : Master) (p : Cab) (v : W32) (s : State) : exec (.eagWrite m p v) s = execEagWrite m p v s := rfl

/-- A context command of an accepted master, in the state it requires, with no lock on the registers, is carried out (R385). -/
theorem State.row_ctxCmd_of_accepted {s : State} {m : Master} {ok : Bool} {c st : Nat} (hopen : s.rgsShut (masterIdx m) = false) (hok : ok = true)
    (hst : s.ctxState c = st) (i : Instr) (f : State → State) : s.row m i (fun s => s.ctxCmd m ok c st f) = f (s.put R.CTX_CMD_STAT_DONE 0) := by
  rw [State.row_of_open hopen, State.ctxCmd, hok, State.gate_true, if_pos hst]

/-! ACTIVATE and DEACTIVATE -/

/-- The fields that ACTIVATE and DEACTIVATE write. -/
def ctxFields (c owner st : Nat) : List (Fld × Nat) := [(R.CTX_STAT_OWNER c, owner), (R.CTX_STAT_STATE c, st), (R.CTX_CMD_STAT_DONE, 1)]

/-- The context takes the owner and the state, and the command is done. -/
theorem State.ctxFields_written (s : State) {c owner st : Nat} (howner : owner < 2 ^ 16) (hst : st < 8) :
    (s.puts (ctxFields c owner st)).ctxState c = st ∧ (s.puts (ctxFields c owner st)).f (R.CTX_STAT_OWNER c) = owner ∧
      (s.puts (ctxFields c owner st)).f R.CTX_CMD_STAT_DONE = 1 := by
  have hkey : R.CTX_CMD_STAT ≠ R.CTX_STAT c := by unfold R.CTX_CMD_STAT R.CTX_STAT dieReg cabReg; omega
  have hfit : ∀ q ∈ ctxFields c owner st, q.1.lo ≤ q.1.hi ∧ q.1.hi < 32 ∧ q.2 < 2 ^ q.1.width := by
    simpa [ctxFields, R.CTX_STAT_OWNER, R.CTX_STAT_STATE, R.CTX_CMD_STAT_DONE, Fld.width] using ⟨howner, hst⟩
  have hapart : (ctxFields c owner st).Pairwise fun p q => q.1.apart p.1 := by
    simp [ctxFields, R.CTX_STAT_OWNER, R.CTX_STAT_STATE, R.CTX_CMD_STAT_DONE, Fld.apart, hkey]
  have hread {p : Fld × Nat} (hp : p ∈ ctxFields c owner st) : (s.puts (ctxFields c owner st)).f p.1 = p.2 := State.f_puts_of_mem s hp hfit hapart
  exact ⟨hread (p := (R.CTX_STAT_STATE c, st)) (by simp [ctxFields]), hread (p := (R.CTX_STAT_OWNER c, owner)) (by simp [ctxFields]),
    hread (p := (R.CTX_CMD_STAT_DONE, 1)) (by simp [ctxFields])⟩

/-- With DONE cleared before, no other register than the two changes. -/
theorem State.sameRegs_ctxFields (s : State) (c owner st : Nat) :
    s.sameRegs [R.CTX_STAT c, R.CTX_CMD_STAT] ((s.put R.CTX_CMD_STAT_DONE 0).puts (ctxFields c owner st)) := by
  rw [← State.puts_cons s (R.CTX_CMD_STAT_DONE, 0)]
  exact s.sameRegs_puts_keys (by simp [ctxFields, R.CTX_STAT_OWNER, R.CTX_STAT_STATE, R.CTX_CMD_STAT_DONE])

theorem exec_ctxActivate_of_free {c : Ctx} {s : State} (hopen : s.rgsShut (masterIdx .sec) = false) (hfree : s.ctxState c = 0) :
    exec (.ctxActivate .sec c) s = .next ((s.put R.CTX_CMD_STAT_DONE 0).puts (ctxFields c (s.f R.CTX_OWNER_IN_OWNER) 1)) := by
  have howner : (s.put R.CTX_CMD_STAT_DONE 0).f R.CTX_OWNER_IN_OWNER = s.f R.CTX_OWNER_IN_OWNER := s.f_put_key _ _ _ (by decide)
  rw [exec_ctxActivate, execCtxActivate, State.row_ctxCmd_of_accepted hopen (beq_self_eq_true _) hfree, howner]
  rfl

theorem exec_ctxDeactivate_of_active {c : Ctx} {s : State} (hopen : s.rgsShut (masterIdx .sec) = false) (hactive : s.ctxState c = 1) :
    exec (.ctxDeactivate .sec c) s = .next ((s.put R.CTX_CMD_STAT_DONE 0).puts (ctxFields c 0 0)) := by
  rw [exec_ctxDeactivate, execCtxDeactivate, State.row_ctxCmd_of_accepted hopen (beq_self_eq_true _) hactive]
  rfl

/-! BIND -/

/-- The fields that BIND writes (R33, R385). -/
def bindFields (c gen : Nat) : List (Fld × Nat) := [(bitFld R.IDV_CMAP_CTXGEN c, gen), (R.CTX_STAT_GEN c, gen), (R.CTX_STAT_STATE c, 2), (R.CTX_CMD_STAT_DONE, 1)]

/-- The fence mask is recorded with the context (R252). -/
def State.maskTaken (s : State) (c : Nat) : State := (List.range 4).foldl (fun s k => s.setReg (R.CTX_FMASK c k) (s.reg (R.IDV_FENCE_MASK k))) s

/-- Registers copied one by one, from registers that none of the copies is. -/
theorem State.reg_foldl_copy (s : State) {dst src : Nat → Nat} (hinj : ∀ i j, dst i = dst j → i = j) {n : Nat} (hsrc : ∀ i < n, ∀ j, src i ≠ dst j) :
    (∀ k < n, ((List.range n).foldl (fun s k => s.setReg (dst k) (s.reg (src k))) s).reg (dst k) = s.reg (src k)) ∧
      ∀ j, (∀ k < n, j ≠ dst k) → ((List.range n).foldl (fun s k => s.setReg (dst k) (s.reg (src k))) s).reg j = s.reg j := by
  induction n with
  | zero => exact ⟨fun k hk => absurd hk (Nat.not_lt_zero k), fun _ _ => rfl⟩
  | succ n ih =>
    obtain ⟨hcopied, hkept⟩ := ih fun i hi => hsrc i (Nat.lt_succ_of_lt hi)
    rw [List.range_succ, List.foldl_append, List.foldl_cons, List.foldl_nil]
    constructor
    · intro k hk
      by_cases hkn : k = n
      · rw [hkn, State.reg_setReg_same, hkept _ fun i _ => hsrc n (Nat.lt_succ_self n) i]
      · rw [State.reg_setReg_other _ _ fun e => hkn (hinj _ _ e), hcopied k (by omega)]
    · intro j hj
      rw [State.reg_setReg_other _ _ (hj n (Nat.lt_succ_self n)), hkept j fun k hk => hj k (Nat.lt_succ_of_lt hk)]

theorem State.reg_maskTaken (s : State) (c : Nat) : (∀ k < 4, (s.maskTaken c).reg (R.CTX_FMASK c k) = s.reg (R.IDV_FENCE_MASK k)) ∧
    ∀ j, (∀ k < 4, j ≠ R.CTX_FMASK c k) → (s.maskTaken c).reg j = s.reg j :=
  State.reg_foldl_copy s (fun i j h => by unfold R.CTX_FMASK dieReg cabReg at h; omega) (by unfold R.IDV_FENCE_MASK R.CTX_FMASK dieReg cabReg; omega)

theorem bindFields_key {c gen : Nat} {p : Fld × Nat} (hp : p ∈ bindFields c gen) :
    p.1.key = R.IDV_CMAP_CTXGEN ∨ p.1.key = R.CTX_STAT c ∨ p.1.key = R.CTX_CMD_STAT := by
  simp only [bindFields, List.mem_cons, List.not_mem_nil, or_false] at hp
  rcases hp with rfl | rfl | rfl | rfl <;> simp [bitFld, R.CTX_STAT_GEN, R.CTX_STAT_STATE, R.CTX_CMD_STAT_DONE]

/-- The context is BOUND and holds the generation. -/
theorem State.bindFields_written (s : State) {c gen : Nat} (hc : c < 16) (hgen : gen < 2) {p : Fld × Nat} (hp : p ∈ bindFields c gen) :
    (s.puts (bindFields c gen)).f p.1 = p.2 := by
  have hc32 : c < 32 := by omega
  have hkeys : R.CTX_STAT c ≠ R.IDV_CMAP_CTXGEN ∧ R.CTX_CMD_STAT ≠ R.IDV_CMAP_CTXGEN ∧ R.CTX_CMD_STAT ≠ R.CTX_STAT c := by
    unfold R.CTX_STAT R.CTX_CMD_STAT R.IDV_CMAP_CTXGEN dieReg cabReg
    omega
  refine State.f_puts_of_mem s hp ?fit ?apart
  case fit =>
    simpa [bindFields, bitFld, R.CTX_STAT_GEN, R.CTX_STAT_STATE, R.CTX_CMD_STAT_DONE, Fld.width] using ⟨hc32, Nat.le_of_lt_succ hgen⟩
  case apart =>
    simp [bindFields, bitFld, R.CTX_STAT_GEN, R.CTX_STAT_STATE, R.CTX_CMD_STAT_DONE, Fld.apart, hkeys]

/-- What BIND leaves. -/
def State.ctxBound (s : State) (c : Nat) : State := (s.puts ((R.CTX_CMD_STAT_DONE, 0) :: bindFields c s.cur)).maskTaken c

theorem exec_ctxBind_of_active {m : Master} {c : Ctx} {s : State} (hm : (m == .sch || m == .dbg) = true) (hopen : s.rgsShut (masterIdx m) = false)
    (hactive : s.ctxState c = 1) : exec (.ctxBind m c) s = .next (s.ctxBound c) := by
  have hcur : (s.put R.CTX_CMD_STAT_DONE 0).cur = s.cur := s.f_put_key _ _ _ (by decide)
  rw [exec_ctxBind, execCtxBind, State.row_ctxCmd_of_accepted hopen hm hactive, hcur]
  rfl

theorem State.f_ctxBound (s : State) {c : Nat} (hc : c < 16) {p : Fld × Nat} (hp : p ∈ bindFields c s.cur) : (s.ctxBound c).f p.1 = p.2 := by
  have hmask : ∀ k < 4, p.1.key ≠ R.CTX_FMASK c k := by
    rcases bindFields_key hp with h | h | h <;> rw [h]
    · unfold R.IDV_CMAP_CTXGEN R.CTX_FMASK dieReg cabReg; omega
    · unfold R.CTX_STAT R.CTX_FMASK dieReg cabReg; omega
    · unfold R.CTX_CMD_STAT R.CTX_FMASK dieReg cabReg; omega
  rw [State.ctxBound, State.f_congr ((State.reg_maskTaken _ c).2 _ hmask), State.puts_cons, State.bindFields_written _ hc (s.f_lt _) hp]

theorem State.reg_ctxBound_mask (s : State) {c k : Nat} (hk : k < 4) : (s.ctxBound c).reg (R.CTX_FMASK c k) = s.reg (R.IDV_FENCE_MASK k) := by
  have hkeys : ∀ p ∈ (R.CTX_CMD_STAT_DONE, 0) :: bindFields c s.cur, R.IDV_FENCE_MASK k ≠ p.1.key := by
    refine List.forall_mem_cons.mpr ⟨?_, fun p hp => ?_⟩
    · unfold R.IDV_FENCE_MASK R.CTX_CMD_STAT_DONE R.CTX_CMD_STAT dieReg cabReg
      simp only
      omega
    · rcases bindFields_key hp with h | h | h <;> rw [h]
      · unfold R.IDV_FENCE_MASK R.IDV_CMAP_CTXGEN dieReg cabReg; omega
      · unfold R.IDV_FENCE_MASK R.CTX_STAT dieReg cabReg; omega
      · unfold R.IDV_FENCE_MASK R.CTX_CMD_STAT dieReg cabReg; omega
  rw [State.ctxBound, (State.reg_maskTaken _ c).1 k hk, State.reg_puts_other s _ hkeys]

theorem State.sameRegs_ctxBound (s : State) (c : Nat) : s.sameRegs [R.CTX_STAT c, R.CTX_CMD_STAT, R.IDV_CMAP_CTXGEN, R.CTX_FMASK c 0, R.CTX_FMASK c 1,
    R.CTX_FMASK c 2, R.CTX_FMASK c 3] (s.ctxBound c) := by
  intro j hj
  simp only [List.mem_cons, List.not_mem_nil, or_false, not_or] at hj
  obtain ⟨hstat, hcmd, hgen, h0, h1, h2, h3⟩ := hj
  have hmask : ∀ k < 4, j ≠ R.CTX_FMASK c k := fun k hk => by
    interval_cases k <;> assumption
  have hkeys : ∀ p ∈ (R.CTX_CMD_STAT_DONE, 0) :: bindFields c s.cur, j ≠ p.1.key := by
    refine List.forall_mem_cons.mpr ⟨hcmd, fun p hp => ?_⟩
    rcases bindFields_key hp with h | h | h <;> rw [h] <;> assumption
  rw [State.ctxBound, (State.reg_maskTaken _ c).2 j hmask, State.reg_puts_other s _ hkeys]

/-! KILL -/

/-- A bind that is taken back writes the window's state and the status alone, so that the freeze and the kills are what they were. -/
theorem State.nextU_unbindNew (s : State) (c : Nat) : (s.unbindNew c).nextU = s.nextU ∧ (s.unbindNew c).ctx = s.ctx := by
  have hkeeps : Keeps [.regs] s (s.unbindNew c) := State.unbindNew_keeps c (List.Subset.refl _) (.refl s)
  have hfrz : (s.unbindNew c).reg R.LCT_FRZ_STAT = s.reg R.LCT_FRZ_STAT := by
    refine State.reg_foldl _ s fun u b => ?_
    have hwin : R.LCT_FRZ_STAT ≠ R.WIN_STATE b.win := by unfold R.LCT_FRZ_STAT R.WIN_STATE dieReg cabReg; omega
    rw [State.winRej, State.reg_puts_other _ _ (by decide), State.reg_setReg_other _ _ (by decide), State.reg_setReg_other _ _ hwin]
  refine ⟨?_, hkeeps.frame .ctx (by decide)⟩
  rw [State.nextU, State.nextU, State.frozen, State.frozen, State.bit, State.bit, State.f_congr hfrz, hkeeps.time (by decide)]

/-- A kill that is asked for begins its first phase on the next unfrozen fc (R398). -/
theorem exec_ctxKill_of_bound {m : Master} {c : Ctx} {s u : State} (hm : (m == .sch || m == .sec || m == .dbg) = true) (hnew : s.killing c = false)
    (hbound : s.ctxState c = 2) (hu : u = (s.put R.CTX_CMD_STAT_DONE 0).unbindNew c) (hopen : s.rgsShut (masterIdx m) = false) :
    exec (.ctxKill m c) s = .next (({ u with ctx := { s.ctx with kills := s.ctx.kills ++ [({ ctx := c, stage := 0, due := s.nextU } : Kill)] } } : State).at' .unfz
      s.nextU (.ctxKill .hrp c)) := by
  obtain ⟨hnext, hctx⟩ := (s.put R.CTX_CMD_STAT_DONE 0).nextU_unbindNew c
  have hput : (s.put R.CTX_CMD_STAT_DONE 0).nextU = s.nextU := by
    rw [State.nextU, State.nextU, State.frozen, State.frozen, State.bit, State.bit, s.f_put_key _ _ _ (by decide), State.put_time]
  rw [← hu] at hnext hctx
  rw [exec_ctxKill, execCtxKill, masterBeq_hrp_eq_false hm, hnew, Bool.and_false, Bool.false_and, Bool.false_and, if_neg Bool.false_ne_true,
    if_neg Bool.false_ne_true, State.row_ctxCmd_of_accepted hopen hm hbound, ← hu]
  dsimp only
  rw [hnext, hctx, hput, State.put_ctx]

/-- Phase 1 takes the kill on when it is due (R398). -/
theorem exec_ctxKill_of_due {c : Ctx} {s : State} (hfrz : s.frozen = false)
    (hdue : s.ctx.kills.any (fun k => decide (k.ctx = c) && decide (k.stage = 0) && decide (k.due ≤ s.time.ufc)) = true) :
    exec (.ctxKill .hrp c) s = .next (((s.killClose c).killStage c 1 (s.time.ufc + 15)).at' .unfz (s.time.ufc + 15) (.killQuiesceEnd c)) := by
  rw [exec_ctxKill, execCtxKill, if_pos (by simp [hfrz, hdue])]

/-! KILL_QUIESCE_END -/

/-- A phase of a kill ends when its fc has come (R398). -/
theorem exec_killQuiesceEnd_of_due {c : Ctx} {e : Kill} {s : State} (hfrz : s.frozen = false)
    (hkill : s.ctx.kills.find? (fun k => decide (k.ctx = c.val)) = some e) (hdue : e.due ≤ s.time.ufc) (hphase : e.stage = 1 ∨ e.stage = 2) :
    exec (.killQuiesceEnd c) s = .next (if e.stage = 2 then s.killSweep c
      else if s.runners.any (fun y => y.2.run.any (fun l => decide (l.ctx = c.val))) then s.arm .unfz 1 (.killQuiesceEnd c)
      else (s.killStage c 2 (s.time.ufc + 1)).later .unfz 1 (.killQuiesceEnd c)) := by
  have hgo : ¬(s.frozen = true ∨ s.time.ufc < e.due ∨ e.stage = 0 ∨ e.stage = 3) := by
    rw [hfrz]
    simp only [Bool.false_eq_true, false_or]
    omega
  rw [exec_killQuiesceEnd, execKillQuiesceEnd, hkill]
  dsimp only
  rw [if_neg hgo]

/-! KILL_UNBIND -/

/-- The groups of a context are freed (R387, R398). -/
def State.groupsFreed (s : State) (c : Nat) : State :=
  (List.range 128).foldl (fun s p => if s.f (R.CTX_EAG_CTX p) = c ∧ s.bit (R.CTX_EAG_V p) = true then s.put (R.CTX_EAG_V p) 0 else s) s

theorem State.f_groupsFreed (s : State) (c : Nat) (p : Cab) (h : s.f (R.CTX_EAG_CTX p) = c) : (s.groupsFreed c).f (R.CTX_EAG_V p) = 0 := by
  have hother (u : State) (x y : Nat) : (u.put (R.CTX_EAG_V x) 0).f (R.CTX_EAG_CTX y) = u.f (R.CTX_EAG_CTX y) :=
    u.f_put_apart _ _ _ (by decide : 4 ≤ 4) (by decide : 4 < 32) (by decide : 0 ≤ 3) (.inr (by decide : 3 < 4))
  have hctx : (s.groupsFreed c).f (R.CTX_EAG_CTX p) = c := by
    refine (State.foldl_keeps_part (fun u => u.f (R.CTX_EAG_CTX p)) _ s fun u x => ?_).trans h
    split
    · exact hother u x p
    · rfl
  refine foldl_holds_of_mem (P := fun u => u.f (R.CTX_EAG_CTX p) = c → u.f (R.CTX_EAG_V p) = 0) (List.mem_range.mpr p.isLt) (fun u => ?freed)
    (fun u x hu => ?kept) s hctx
  case freed =>
    split_ifs with hbound
    · exact fun _ => u.f_put_fits (by decide : 4 ≤ 4) (by decide : 4 < 32) (by decide : 0 < 2 ^ 1)
    · exact fun hc => State.bit_eq_false.mp (Bool.eq_false_iff.mpr fun hv => hbound ⟨hc, hv⟩)
  case kept =>
    split_ifs
    · intro hc
      by_cases hx : x = p
      · rw [hx]
        exact u.f_put_fits (by decide : 4 ≤ 4) (by decide : 4 < 32) (by decide : 0 < 2 ^ 1)
      · have hkey : R.CTX_EAG p ≠ R.CTX_EAG x := by unfold R.CTX_EAG dieReg cabReg; omega
        rw [u.f_put_key _ _ _ hkey, hu (by rw [← hother u x p, hc])]
    · exact hu

/-- The record of a context is cleared: its generation and its fence mask (R33, R252, R398). -/
def State.recordCleared (s : State) (c : Nat) : State :=
  (List.range 4).foldl (fun s k => s.setReg (R.CTX_FMASK c k) 0) (s.puts [(bitFld R.IDV_CMAP_CTXGEN c, 0), (R.CTX_STAT_GEN c, 0)])

theorem State.reg_recordCleared (s : State) {c k : Nat} (hmask : ∀ j < 4, k ≠ R.CTX_FMASK c j) :
    (s.recordCleared c).reg k = (s.puts [(bitFld R.IDV_CMAP_CTXGEN c, 0), (R.CTX_STAT_GEN c, 0)]).reg k := by
  rw [State.recordCleared, ← List.foldl_map (f := R.CTX_FMASK c) (g := fun s k => State.setReg s k 0)]
  refine State.reg_foldl_setReg_other (fun hmem => ?_) _ _
  obtain ⟨j, hj, rfl⟩ := List.mem_map.mp hmem
  exact hmask j (List.mem_range.mp hj) rfl

/-- The fields of an ACTIVE context whose kill is over. -/
def overFields (c released : Nat) : List (Fld × Nat) :=
  [(R.LCT_STEP_RELEASED c, released), (R.CTX_STAT_STATE c, 1), (R.CTX_STAT_KPHASE c, 0), (R.CTX_CMD_STAT_DONE, 1)]

/-- Phase 4 of R398 before the kill is struck off: signals of the context are dropped, and its step register keeps the count of released steps alone. -/
def State.killCleared (s : State) (c : Nat) : State :=
  let s := (s.groupsFreed c).recordCleared c
  let s := s.dropSigs (fun g => decide (g.ctx = some c) && (decide (g.place ≠ SigPlace.net) || decide (g.since ≤ s.time.ufc)))
  (s.setReg (R.LCT_STEP c) 0).puts (overFields c (s.f (R.LCT_STEP_RELEASED c)))

theorem State.killFree_eq (s : State) (c : Nat) : s.killFree c =
    { s.killCleared c with
      stp := { (s.killCleared c).stp with
        steps := (s.killCleared c).stp.steps.filter (fun t => decide (t.ctx ≠ c)), faultPin := (s.killCleared c).stp.faultPin.filter (fun p => decide (p.1 ≠ c)) }
      ctx := { (s.killCleared c).ctx with kills := (s.killCleared c).ctx.kills.filter (fun k => decide (k.ctx ≠ c)) } } := rfl

theorem overFields_fit {c released : Nat} (h : released < 2 ^ 16) : ∀ q ∈ overFields c released, q.1.lo ≤ q.1.hi ∧ q.1.hi < 32 ∧ q.2 < 2 ^ q.1.width := by
  simpa [overFields, R.LCT_STEP_RELEASED, R.CTX_STAT_STATE, R.CTX_STAT_KPHASE, R.CTX_CMD_STAT_DONE, Fld.width] using h

theorem overFields_apart (c released : Nat) : (overFields c released).Pairwise fun p q => q.1.apart p.1 := by
  have hkeys : R.CTX_STAT c ≠ R.LCT_STEP c ∧ R.CTX_CMD_STAT ≠ R.LCT_STEP c ∧ R.CTX_CMD_STAT ≠ R.CTX_STAT c := by
    unfold R.CTX_STAT R.CTX_CMD_STAT R.LCT_STEP dieReg cabReg
    omega
  simp [overFields, R.LCT_STEP_RELEASED, R.CTX_STAT_STATE, R.CTX_STAT_KPHASE, R.CTX_CMD_STAT_DONE, Fld.apart, hkeys]

theorem State.reg_dropSigs (s : State) (f : Sig → Bool) (k : Nat) : (s.dropSigs f).reg k = s.reg k := rfl

/-- The registers after phase 4: the fields of the end, over registers that are those of the cleared record but for the step's. -/
theorem State.reg_killFree (s : State) (c : Nat) : ∃ (u : State) (r : Nat), r < 2 ^ 16 ∧ (∀ k, k ≠ R.LCT_STEP c → u.reg k = ((s.groupsFreed c).recordCleared c).reg k) ∧
    ∀ k, (s.killFree c).reg k = (u.puts (overFields c r)).reg k := by
  obtain ⟨u, r, hr, hkept, hcleared⟩ : ∃ (u : State) (r : Nat), r < 2 ^ 16 ∧
      (∀ k, k ≠ R.LCT_STEP c → u.reg k = ((s.groupsFreed c).recordCleared c).reg k) ∧ s.killCleared c = u.puts (overFields c r) := by
    refine ⟨_, _, ?_, ?_, rfl⟩
    · exact State.f_lt _ _
    · exact fun k hk => (State.reg_setReg_other _ _ hk).trans (State.reg_dropSigs _ _ _)
  rw [s.killFree_eq]
  generalize s.killCleared c = w at hcleared
  exact ⟨u, r, hr, hkept, fun k => by rw [← hcleared]; rfl⟩

/-- The context is ACTIVE, in no phase, and the command is done. -/
theorem State.f_killFree_over (s : State) (c : Nat) : (s.killFree c).ctxState c = 1 ∧ (s.killFree c).f (R.CTX_STAT_KPHASE c) = 0 ∧
    (s.killFree c).f R.CTX_CMD_STAT_DONE = 1 := by
  obtain ⟨u, r, hr, -, hreg⟩ := s.reg_killFree c
  have hread {p : Fld × Nat} (hp : p ∈ overFields c r) : (s.killFree c).f p.1 = p.2 := by
    rw [State.f_congr (hreg _), State.f_puts_of_mem u hp (overFields_fit hr) (overFields_apart c r)]
  exact ⟨hread (p := (R.CTX_STAT_STATE c, 1)) (by simp [overFields]), hread (p := (R.CTX_STAT_KPHASE c, 0)) (by simp [overFields]),
    hread (p := (R.CTX_CMD_STAT_DONE, 1)) (by simp [overFields])⟩

/-- A field apart from those of the end is as it was when the record was cleared. -/
theorem State.f_killFree_other (s : State) {c : Nat} {g : Fld} (hg : g.lo ≤ g.hi) (hstep : g.key ≠ R.LCT_STEP c) (hcmd : g.key ≠ R.CTX_CMD_STAT)
    (hstat : g.key ≠ R.CTX_STAT c ∨ 5 < g.lo) : (s.killFree c).f g = ((s.groupsFreed c).recordCleared c).f g := by
  obtain ⟨u, r, hr, hkept, hreg⟩ := s.reg_killFree c
  have hover : ∀ p ∈ overFields c r, p.1.lo ≤ p.1.hi ∧ p.1.hi < 32 ∧ p.1.apart g := by
    refine fun p hp => ⟨(overFields_fit hr p hp).1, (overFields_fit hr p hp).2.1, ?_⟩
    simp only [overFields, List.mem_cons, List.not_mem_nil, or_false] at hp
    rcases hp with rfl | rfl | rfl | rfl
    · exact .inl hstep.symm
    · exact hstat.imp Ne.symm fun h => .inl (Nat.lt_trans (by decide : 2 < 5) h)
    · exact hstat.imp Ne.symm .inl
    · exact .inl hcmd.symm
  rw [State.f_congr (hreg _), u.f_puts_apart hg hover, State.f_congr (hkept _ hstep)]

/-- The generation is cleared, and no group of the context is bound. -/
theorem State.f_killFree_record (s : State) {c : Nat} (hc : c < 16) : (s.killFree c).f (R.CTX_STAT_GEN c) = 0 ∧
    (s.killFree c).f (bitFld R.IDV_CMAP_CTXGEN c) = 0 ∧ ∀ p : Cab, s.f (R.CTX_EAG_CTX p) = c → (s.killFree c).f (R.CTX_EAG_V p) = 0 := by
  have hc32 : c < 32 := by omega
  have hstat : R.CTX_STAT c ≠ R.LCT_STEP c ∧ R.CTX_STAT c ≠ R.CTX_CMD_STAT := by unfold R.CTX_STAT R.LCT_STEP R.CTX_CMD_STAT dieReg cabReg; omega
  have hstatMask : ∀ j < 4, R.CTX_STAT c ≠ R.CTX_FMASK c j := by unfold R.CTX_STAT R.CTX_FMASK dieReg cabReg; omega
  have hgen : R.IDV_CMAP_CTXGEN ≠ R.LCT_STEP c ∧ R.IDV_CMAP_CTXGEN ≠ R.CTX_CMD_STAT ∧ R.IDV_CMAP_CTXGEN ≠ R.CTX_STAT c := by
    unfold R.IDV_CMAP_CTXGEN R.LCT_STEP R.CTX_CMD_STAT R.CTX_STAT dieReg cabReg
    omega
  have hgenMask : ∀ j < 4, R.IDV_CMAP_CTXGEN ≠ R.CTX_FMASK c j := by unfold R.IDV_CMAP_CTXGEN R.CTX_FMASK dieReg cabReg; omega
  obtain ⟨hstatStep, hstatCmd⟩ := hstat
  obtain ⟨hgenStep, hgenCmd, hgenStat⟩ := hgen
  refine ⟨?_, ?_, fun p hp => ?_⟩
  · rw [s.f_killFree_other (by decide : 6 ≤ 6) hstatStep hstatCmd (.inr (by decide : 5 < 6)), State.f_congr (State.reg_recordCleared _ hstatMask)]
    exact State.f_put_fits _ (by decide : 6 ≤ 6) (by decide : 6 < 32) (by decide : 0 < 2 ^ 1)
  · rw [s.f_killFree_other (Nat.le_refl c) hgenStep hgenCmd (.inl hgenStat), State.f_congr (State.reg_recordCleared _ hgenMask), State.puts_cons, State.puts_cons,
      State.puts_nil, State.f_put_key _ _ _ _ hgenStat]
    exact State.f_put_fits _ (Nat.le_refl c) hc32 (Nat.two_pow_pos _)
  · have hkeys : R.CTX_EAG p ≠ R.LCT_STEP c ∧ R.CTX_EAG p ≠ R.CTX_CMD_STAT ∧ R.CTX_EAG p ≠ R.CTX_STAT c ∧ R.CTX_EAG p ≠ R.IDV_CMAP_CTXGEN := by
      unfold R.CTX_EAG R.LCT_STEP R.CTX_CMD_STAT R.CTX_STAT R.IDV_CMAP_CTXGEN dieReg cabReg
      omega
    have hmask : ∀ j < 4, R.CTX_EAG p ≠ R.CTX_FMASK c j := by unfold R.CTX_EAG R.CTX_FMASK dieReg cabReg; omega
    obtain ⟨hstep, hcmd, hstat, hgen⟩ := hkeys
    rw [s.f_killFree_other (by decide : 4 ≤ 4) hstep hcmd (.inl hstat), State.f_congr (State.reg_recordCleared _ hmask), State.puts_cons, State.puts_cons,
      State.puts_nil, State.f_put_key _ _ _ _ hstat, State.f_put_key _ _ _ _ hgen]
    exact s.f_groupsFreed c p hp

/-- The kill is struck off, and with it the fault (R398). -/
theorem State.killFree_ended (s : State) (c : Nat) : (s.killFree c).killing c = false ∧ (s.killFree c).faulted c = false := by
  rw [s.killFree_eq]
  simp [State.killing, State.faulted]

theorem exec_killUnbind_of_swept {c : Ctx} {s : State} (hfrz : s.frozen = false)
    (hkill : s.ctx.kills.any (fun k => decide (k.ctx = c.val) && decide (k.stage = 3)) = true) (hclosed : s.winsOf c 2 = []) (hsweeping : s.winsOf c 3 = []) :
    exec (.killUnbind c) s = .next ((s.killFree c).later .wall 0 (.completionPost 2)) := by
  simp [exec_killUnbind, execKillUnbind, hkill, hclosed, hsweeping, hfrz]

/-! EAG_WRITE -/

/-- A write that binds no group to a context that may not have it is taken (R387). -/
theorem exec_eagWrite_of_good {m : Master} {p : Cab} {v : W32} {s : State} (hm : (m == .sch || m == .dbg) = true) (hopen : s.rgsShut (masterIdx m) = false)
    (hgood : vbit v 4 = true → s.ctxState (v.toNat % 16) = 2 ∧ s.bit (R.CTX_EAG_V p) = false) :
    exec (.eagWrite m p v) s = .next (s.puts [(R.CTX_EAG_CTX p, v.toNat % 16), (R.CTX_EAG_V p, if vbit v 4 then 1 else 0)]) := by
  have hbad : (vbit v 4 && (decide (s.ctxState (v.toNat % 16) ≠ 2) || (s.bit (R.CTX_EAG_V p) && decide (s.f (R.CTX_EAG_CTX p) ≠ v.toNat % 16)))) = false := by
    cases hv : vbit v 4
    · rfl
    · obtain ⟨hbound, hfree⟩ := hgood hv
      simp [hbound, hfree]
  rw [exec_eagWrite, execEagWrite, State.row_of_open hopen, hm, hbad, Bool.not_false, Bool.and_true, State.gate_true]

/-! Settling -/

/-- Settles O36, clause by clause: each command by what it comes to under its conditions, and the fields that leaves. -/
theorem contextsChangeState : Obligations.ContextsChangeState := by
  refine ⟨?activate, ?deactivate, ?bind, ?kill, ?close, ?quiesced, ?swept, ?unbind, ?group, ?ungroup⟩
  case activate =>
    intro c s hfree hopen
    obtain ⟨hstate, howner, hdone⟩ := (s.put R.CTX_CMD_STAT_DONE 0).ctxFields_written (c := c) (s.f_lt R.CTX_OWNER_IN_OWNER) (by decide : 1 < 8)
    exact ⟨_, exec_ctxActivate_of_free hopen hfree, hstate, howner, hdone, s.sameRegs_ctxFields c _ 1⟩
  case deactivate =>
    intro c s hactive hopen
    obtain ⟨hstate, howner, hdone⟩ := (s.put R.CTX_CMD_STAT_DONE 0).ctxFields_written (c := c) (by decide : 0 < 2 ^ 16) (by decide : 0 < 8)
    exact ⟨_, exec_ctxDeactivate_of_active hopen hactive, hstate, howner, hdone, s.sameRegs_ctxFields c 0 0⟩
  case bind =>
    intro m c s hm hactive hopen
    have hread {p : Fld × Nat} (hp : p ∈ bindFields c s.cur) : (s.ctxBound c).f p.1 = p.2 := s.f_ctxBound c.isLt hp
    exact ⟨_, exec_ctxBind_of_active hm hopen hactive, hread (p := (R.CTX_STAT_STATE c, 2)) (by simp [bindFields]),
      hread (p := (bitFld R.IDV_CMAP_CTXGEN c, s.cur)) (by simp [bindFields]), hread (p := (R.CTX_STAT_GEN c, s.cur)) (by simp [bindFields]),
      fun k => s.reg_ctxBound_mask k.isLt, hread (p := (R.CTX_CMD_STAT_DONE, 1)) (by simp [bindFields]), s.sameRegs_ctxBound c⟩
  case kill => exact fun m c s u hm hnew hbound hu hopen => exec_ctxKill_of_bound hm hnew hbound hu hopen
  case close => exact fun c s hfrz hdue => exec_ctxKill_of_due hfrz hdue
  case quiesced =>
    intro c e s hfrz hkill hphase hdue hidle
    rw [exec_killQuiesceEnd_of_due hfrz hkill hdue (.inl hphase), hphase, hidle]
    rfl
  case swept =>
    intro c e s hfrz hkill hphase hdue
    rw [exec_killQuiesceEnd_of_due hfrz hkill hdue (.inr hphase), if_pos hphase]
  case unbind =>
    intro c s hfrz hkill hclosed hsweeping
    obtain ⟨hstate, hphase, hdone⟩ := s.f_killFree_over c
    obtain ⟨hgen, hmap, hgroups⟩ := s.f_killFree_record c.isLt
    obtain ⟨hover, hfault⟩ := s.killFree_ended c
    have hend := exec_killUnbind_of_swept hfrz hkill hclosed hsweeping
    generalize s.killFree c = u at *
    exact ⟨_, hend, hstate, hphase, hgen, hmap, hdone, hover, hgroups, hfault⟩
  case group =>
    intro m p v s hm hv hbound hfree hopen
    rw [exec_eagWrite_of_good hm hopen fun _ => ⟨hbound, hfree⟩, hv]
    rfl
  case ungroup =>
    intro m p v s hm hv hopen
    rw [exec_eagWrite_of_good hm hopen fun h => absurd h (by rw [hv]; exact Bool.false_ne_true), hv]
    rfl

end Sys2Proof.Machine
end

section
/-! PROOFS. Windows: the commands of WIN.BIND, the closing of a window and the end of its sweep (R391, R396, R397, R404, R409). -/
namespace Sys2Proof.Machine

/-! The commands -/

theorem exec_windowBind (m : Master) (w : Win) (c : Ctx) (s : State) : exec (.windowBind m w c) s = execWindowBind m w c s := rfl
theorem exec_windowUnbind (m : Master) (w : Win) (c : Ctx) (s : State) : exec (.windowUnbind m w c) s = execWindowUnbind m w c s := rfl
theorem exec_windowRelease (m : Master) (w : Win) (c : Ctx) (s : State) : exec (.windowRelease m w c) s = execWindowRelease m w c s := rfl
theorem exec_windowCloseSettle (w : Win) (s : State) : exec (.windowCloseSettle w) s = execWindowCloseSettle w s := rfl
theorem exec_windowSweepDone (w : Win) (s : State) : exec (.windowSweepDone w) s = execWindowSweepDone w s := rfl

section
variable {m : Master} {w : Win} {c : Ctx} {s : State}

/-- A window command of an accepted master, with no lock on the registers, is carried out (R391). -/
theorem State.row_winGate_of_accepted (hm : winMaster m = true) (hopen : s.rgsShut (masterIdx m) = false) (i : Instr) (f : State → State) :
    s.row m i (fun s => s.gate (winMaster m) m R.WIN_BIND f) = f s := by
  rw [State.row_of_open hopen, hm, State.gate_true]

/-! The state of a window -/

/-- The fields of WIN.STATE. -/
def winFields (w st c gen owner : Nat) : List (Fld × Nat) :=
  [(R.WIN_STATE_STATE w, st), (R.WIN_STATE_CTX w, c), (R.WIN_STATE_KGEN w, gen), (R.WIN_STATE_KOWNER w, owner)]

theorem winFields_key {w st c gen owner : Nat} {p : Fld × Nat} (hp : p ∈ winFields w st c gen owner) : p.1.key = R.WIN_STATE w := by
  simp only [winFields, List.mem_cons, List.not_mem_nil, or_false] at hp
  rcases hp with rfl | rfl | rfl | rfl <;> rfl

/-- Written in whatever order, each reads as it was written. -/
theorem State.f_puts_winFields (s : State) {l : List (Fld × Nat)} {w st c gen owner : Nat} (hl : l.Perm (winFields w st c gen owner)) (hst : st < 8) (hc : c < 16)
    (hgen : gen < 2) (howner : owner < 2 ^ 16) : (s.puts l).f (R.WIN_STATE_STATE w) = st ∧ (s.puts l).f (R.WIN_STATE_CTX w) = c ∧
      (s.puts l).f (R.WIN_STATE_KGEN w) = gen ∧ (s.puts l).f (R.WIN_STATE_KOWNER w) = owner := by
  have hfit : ∀ q ∈ winFields w st c gen owner, q.1.lo ≤ q.1.hi ∧ q.1.hi < 32 ∧ q.2 < 2 ^ q.1.width := by
    simpa [winFields, R.WIN_STATE_STATE, R.WIN_STATE_CTX, R.WIN_STATE_KGEN, R.WIN_STATE_KOWNER, Fld.width] using
      ⟨hst, hc, Nat.le_of_lt_succ hgen, howner⟩
  have hapart : (winFields w st c gen owner).Pairwise fun p q => q.1.apart p.1 := by
    simp [winFields, R.WIN_STATE_STATE, R.WIN_STATE_CTX, R.WIN_STATE_KGEN, R.WIN_STATE_KOWNER, Fld.apart]
  have hsymm {p q : Fld × Nat} (h : q.1.apart p.1) : p.1.apart q.1 := h.imp Ne.symm Or.symm
  have hread {p : Fld × Nat} (hp : p ∈ winFields w st c gen owner) : (s.puts l).f p.1 = p.2 :=
    State.f_puts_of_mem s (hl.mem_iff.mpr hp) (fun q hq => hfit q (hl.mem_iff.mp hq)) (hl.symm.pairwise hapart hsymm)
  exact ⟨hread (p := (R.WIN_STATE_STATE w, st)) (by simp [winFields]), hread (p := (R.WIN_STATE_CTX w, c)) (by simp [winFields]),
    hread (p := (R.WIN_STATE_KGEN w, gen)) (by simp [winFields]), hread (p := (R.WIN_STATE_KOWNER w, owner)) (by simp [winFields])⟩

theorem winState_ne (w : Nat) : R.WIN_STATE w ≠ R.WIN_BIND_STAT ∧ R.WIN_STATE w ≠ R.PWR_LEAVE_STAT := by
  unfold R.WIN_STATE R.WIN_BIND_STAT R.PWR_LEAVE_STAT dieReg cabReg
  omega

/-! BIND -/

/-- The window is OPEN for the context (R391). -/
def State.winBound (s : State) (w c : Nat) : State := ((s.noteBind w c).puts (winFields w 1 c 0 0)).put R.WIN_BIND_STAT_DONE 1

theorem exec_windowBind_of_good (hm : winMaster m = true) (hgood : s.bindCause w c = 0) (hopen : s.rgsShut (masterIdx m) = false) :
    exec (.windowBind m w c) s = .next (s.winBound w c) := by
  rw [exec_windowBind, execWindowBind, State.row_winGate_of_accepted hm hopen, if_pos hgood]
  rfl

theorem State.f_winBound (s : State) {w c : Nat} (hc : c < 16) : (s.winBound w c).f (R.WIN_STATE_STATE w) = 1 ∧ (s.winBound w c).f (R.WIN_STATE_CTX w) = c ∧
    (s.winBound w c).f (R.WIN_STATE_KGEN w) = 0 ∧ (s.winBound w c).f (R.WIN_STATE_KOWNER w) = 0 ∧ (s.winBound w c).f R.WIN_BIND_STAT_DONE = 1 := by
  obtain ⟨hstate, hctx, hgen, howner⟩ := (s.noteBind w c).f_puts_winFields (.refl (winFields w 1 c 0 0)) (by decide) hc (by decide) (by decide)
  have hread {g : Fld} (hg : g.key = R.WIN_STATE w) : (s.winBound w c).f g = ((s.noteBind w c).puts (winFields w 1 c 0 0)).f g :=
    State.f_put_key _ _ _ _ (by rw [hg]; exact (winState_ne w).1)
  exact ⟨(hread rfl).trans hstate, (hread rfl).trans hctx, (hread rfl).trans hgen, (hread rfl).trans howner, State.f_put_fits _ (by decide) (by decide) (by decide)⟩

theorem State.sameRegs_winBound (s : State) (w c : Nat) : s.sameRegs [R.WIN_STATE w, R.WIN_BIND_STAT] (s.winBound w c) := by
  intro k hk
  simp only [List.mem_cons, List.not_mem_nil, or_false, not_or] at hk
  obtain ⟨hwin, hstat⟩ := hk
  rw [State.winBound, State.reg_put_other _ _ _ hstat, State.reg_puts_other _ _ fun p hp => by rw [winFields_key hp]; exact hwin]
  rfl

/-- The first cause of the order is given (R409). -/
theorem exec_windowBind_of_bad (hm : winMaster m = true) (hbad : s.bindCause w c ≠ 0) (hopen : s.rgsShut (masterIdx m) = false) :
    exec (.windowBind m w c) s = .next (s.winRej (s.bindCause w c)) := by
  rw [exec_windowBind, execWindowBind, State.row_winGate_of_accepted hm hopen, if_neg hbad]

theorem State.bindCause_lt (s : State) (w c : Nat) : s.bindCause w c < 16 := by
  unfold State.bindCause
  dsimp only
  split_ifs <;> decide

theorem State.f_winRej (s : State) {cause : Nat} (h : cause < 16) : (s.winRej cause).f R.WIN_BIND_STAT_REJ = 1 ∧ (s.winRej cause).f R.WIN_BIND_STAT_CAUSE = cause := by
  rw [State.winRej, State.puts_cons, State.puts_cons, State.puts_nil]
  constructor
  · rw [State.f_put_apart _ _ _ _ (by decide : 2 ≤ 5) (by decide : 5 < 32) (by decide) (.inr (by decide : 1 < 2))]
    exact State.f_put_fits _ (by decide) (by decide) (by decide)
  · exact State.f_put_fits _ (by decide : 2 ≤ 5) (by decide : 5 < 32) h

theorem State.sameRegs_winRej (s : State) (cause : Nat) : s.sameRegs [R.WIN_BIND_STAT] (s.winRej cause) :=
  State.sameRegs_puts s (by simp [R.WIN_BIND_STAT_REJ, R.WIN_BIND_STAT_CAUSE])

/-! UNBIND and RELEASE -/

theorem exec_windowUnbind_of_open (hm : winMaster m = true) (hst : s.f (R.WIN_STATE_STATE w) = 1) (hctx : s.f (R.WIN_STATE_CTX w) = c) (hidle : s.ctx.busy = none)
    (hopen : s.rgsShut (masterIdx m) = false) : exec (.windowUnbind m w c) s = .next ((s.winBusy w 2).later .wall 1 (.windowUnbind .hrp w c)) := by
  have hmine : (decide (s.f (R.WIN_STATE_STATE w) = 1) && decide (s.f (R.WIN_STATE_CTX w) = c)) = true := by simp [hst, hctx]
  rw [exec_windowUnbind, execWindowUnbind, masterBeq_hrp_eq_false hm, hmine, Bool.false_and, Bool.false_and, if_neg Bool.false_ne_true,
    State.row_winGate_of_accepted hm hopen, Bool.not_true, if_neg Bool.false_ne_true, if_neg (by simp [hidle])]

/-- On the fc after, the window closes (R396). -/
theorem exec_windowUnbind_of_accepted (hst : s.f (R.WIN_STATE_STATE w) = 1) (hctx : s.f (R.WIN_STATE_CTX w) = c) (hbusy : s.ctx.busy = some (w.val, 2))
    (hdue : s.armed (.windowUnbind .hrp w c) = false) :
    exec (.windowUnbind .hrp w c) s = .next (((s.winStage w 4).winClose w).at' .unfz (s.time.ufc + 15) (.windowCloseSettle w)) := by
  have hmine : (decide (s.f (R.WIN_STATE_STATE w) = 1) && decide (s.f (R.WIN_STATE_CTX w) = c)) = true := by simp [hst, hctx]
  rw [exec_windowUnbind, execWindowUnbind, hmine, if_pos (by simp [hbusy, hdue]), if_pos rfl]
  rfl

theorem exec_windowRelease_of_kept (hm : winMaster m = true) (hkept : s.f (R.WIN_STATE_STATE w) = 4) (hidle : s.ctx.busy = none)
    (hopen : s.rgsShut (masterIdx m) = false) : exec (.windowRelease m w c) s =
      .next (((s.winBusy w 3).puts [(R.WIN_STATE_STATE w, 3), (R.WIN_STATE_KOWNER w, 0)]).winClear w (s.f (R.WIN_STATE_KGEN w))) := by
  rw [exec_windowRelease, execWindowRelease, State.row_winGate_of_accepted hm hopen, if_neg (by simp [hkept]), if_neg (by simp [hidle])]

/-! The closing of a window -/

/-- An UNBIND or RELEASE of the window is complete: BUSY falls and DONE rises (R391). -/
theorem State.winEnd_of_busy {w op : Nat} (h : s.ctx.busy = some (w, op)) : (s.winEnd w).f R.WIN_BIND_STAT_BUSY = 0 ∧ (s.winEnd w).f R.WIN_BIND_STAT_DONE = 1 ∧
    (s.winEnd w).ctx.busy = none := by
  rw [State.winEnd, if_pos (by simp [h]), State.puts_cons, State.puts_cons, State.puts_nil]
  refine ⟨?_, State.f_put_fits _ (by decide) (by decide) (by decide), rfl⟩
  rw [State.f_put_apart _ _ _ _ (by decide) (by decide) (by decide) (.inl (by decide))]
  exact State.f_put_fits _ (by decide) (by decide) (by decide)

theorem State.reg_winEnd (s : State) (w : Nat) {k : Nat} (h : k ≠ R.WIN_BIND_STAT) : (s.winEnd w).reg k = s.reg k := by
  unfold State.winEnd
  split_ifs
  · rw [State.reg_puts_other _ _ (by simpa [R.WIN_BIND_STAT_BUSY, R.WIN_BIND_STAT_DONE] using h)]
    rfl
  · rfl

/-- A window that no kill settles, on the 16th unfrozen fc. -/
theorem exec_windowCloseSettle_of_closed (hst : s.f (R.WIN_STATE_STATE w) = 2) (hbusy : s.ctx.busy = some (w.val, 4))
    (hlive : s.killing (s.f (R.WIN_STATE_CTX w)) = false) : exec (.windowCloseSettle w) s = .next ((s.winStage w 5).later .wall 1 (.windowCloseSettle w)) := by
  rw [exec_windowCloseSettle, execWindowCloseSettle, if_pos ⟨hst, hlive⟩, if_pos hbusy]

/-- On the fc after, it settles (R396). -/
theorem exec_windowCloseSettle_of_over (hst : s.f (R.WIN_STATE_STATE w) = 2) (hbusy : s.ctx.busy = some (w.val, 5)) (hdue : s.armed (.windowCloseSettle w) = false)
    (hlive : s.killing (s.f (R.WIN_STATE_CTX w)) = false) : exec (.windowCloseSettle w) s = .next (s.winSettle w) := by
  rw [exec_windowCloseSettle, execWindowCloseSettle, if_pos ⟨hst, hlive⟩, if_neg (by simp [hbusy]), if_pos ⟨hbusy, hdue⟩]

/-- The fields of a window that is KEPT, in the order in which they are written: WIN.STATE with the owner and the generation of its context. -/
def State.keptFields (s : State) (w : Nat) : List (Fld × Nat) :=
  [(R.WIN_STATE_STATE w, 4), (R.WIN_STATE_CTX w, 0), (R.WIN_STATE_KOWNER w, s.f (R.CTX_STAT_OWNER (s.f (R.WIN_STATE_CTX w)))),
    (R.WIN_STATE_KGEN w, s.ctxGen (s.f (R.WIN_STATE_CTX w)))]

theorem State.keptFields_perm (s : State) (w : Nat) : (s.keptFields w).Perm
    (winFields w 4 0 (s.ctxGen (s.f (R.WIN_STATE_CTX w))) (s.f (R.CTX_STAT_OWNER (s.f (R.WIN_STATE_CTX w))))) :=
  ((List.Perm.swap _ _ _).cons _).cons _

theorem State.winSettle_of_keep {w : Nat} (h : s.bit (R.WIN_PART_C_KEEP_ON_KILL w) = true) : s.winSettle w = (s.puts (s.keptFields w)).winEnd w := by
  rw [State.winSettle, if_pos h]
  rfl

theorem State.winSettle_of_sweep {w : Nat} (h : s.bit (R.WIN_PART_C_KEEP_ON_KILL w) = false) :
    s.winSettle w = (s.put (R.WIN_STATE_STATE w) 3).winClear w (s.ctxGen (s.f (R.WIN_STATE_CTX w))) := by
  rw [State.winSettle, if_neg (Bool.eq_false_iff.mp h)]

theorem State.ctxGen_lt (s : State) (c : Nat) : s.ctxGen c < 2 := by
  have h := s.f_lt (bitFld R.IDV_CMAP_CTXGEN c)
  rwa [show (bitFld R.IDV_CMAP_CTXGEN c).width = 1 by simp [bitFld, Fld.width]] at h

/-! The end of a sweep -/

/-- Returned leave shows in PWR.LEAVE_STAT alone (R500). -/
theorem State.reg_leaveBack {k : Nat} (h : k ≠ R.PWR_LEAVE_STAT) (s : State) (who : LeaveFor) : (s.leaveBack who).reg k = s.reg k := by
  rw [State.leaveBack, State.reg_leavePoke h, State.reg_put_other _ _ _ h]
  rfl

/-- The window is FREE, and its leave is returned (R396, R500). -/
def State.winFreed (s : State) (w : Nat) : State := ((s.puts (winFields w 0 0 0 0)).winEnd w).leaveBack (.window w)

theorem State.f_winFreed (s : State) (w : Nat) : (s.winFreed w).f (R.WIN_STATE_STATE w) = 0 ∧ (s.winFreed w).f (R.WIN_STATE_CTX w) = 0 ∧
    (s.winFreed w).f (R.WIN_STATE_KGEN w) = 0 ∧ (s.winFreed w).f (R.WIN_STATE_KOWNER w) = 0 := by
  obtain ⟨hstate, hctx, hgen, howner⟩ := s.f_puts_winFields (.refl (winFields w 0 0 0 0)) (by decide) (by decide) (by decide) (by decide)
  have hread {g : Fld} (hg : g.key = R.WIN_STATE w) : (s.winFreed w).f g = (s.puts (winFields w 0 0 0 0)).f g := by
    rw [State.winFreed, State.f_congr (State.reg_leaveBack (by rw [hg]; exact (winState_ne w).2) _ _),
      State.f_congr (State.reg_winEnd _ _ (by rw [hg]; exact (winState_ne w).1))]
  exact ⟨(hread rfl).trans hstate, (hread rfl).trans hctx, (hread rfl).trans hgen, (hread rfl).trans howner⟩

/-- A RELEASE that swept it is complete. -/
theorem State.winFreed_of_busy {w op : Nat} (h : s.ctx.busy = some (w, op)) : (s.winFreed w).f R.WIN_BIND_STAT_DONE = 1 ∧ (s.winFreed w).ctx.busy = none := by
  have hputs : (s.puts (winFields w 0 0 0 0)).ctx.busy = some (w, op) := by rw [State.puts_ctx, h]
  obtain ⟨-, hdone, hidle⟩ := State.winEnd_of_busy hputs
  have hctx : (s.winFreed w).ctx = ((s.puts (winFields w 0 0 0 0)).winEnd w).ctx :=
    (State.leaveBack_keeps (.window w) (K := [.agenda, .regs, .leave]) (List.Subset.refl _) (.refl _)).frame .ctx (by decide)
  rw [hctx, State.winFreed, State.f_congr (State.reg_leaveBack (by decide) _ _)]
  exact ⟨hdone, hidle⟩

/-- A command put on the agenda, or not, leaves the registers and the windows. -/
theorem State.armIf_frame (s : State) (a b : Bool) (n : Nat) (k : Clock) (i : Instr) :
    (∀ g, (if a then s else if b then s.arm k n i else s).f g = s.f g) ∧ (if a then s else if b then s.arm k n i else s).ctx = s.ctx := by
  have hctx : (s.arm k n i).ctx = s.ctx := (State.arm_keeps k n i (List.Subset.refl _) (.refl s)).frame .ctx (by decide)
  cases a <;> cases b
  · exact ⟨fun _ => rfl, rfl⟩
  · exact ⟨fun g => State.f_congr (s.reg_arm k n i g.key), hctx⟩
  · exact ⟨fun _ => rfl, rfl⟩
  · exact ⟨fun _ => rfl, rfl⟩

/-- The last sweep of a kill has its next phase looked at; the fields and the windows are those of the FREE window either way (R396, R398). -/
theorem exec_windowSweepDone_of_swept (hst : s.f (R.WIN_STATE_STATE w) = 3) (hswept : s.sweepLeft (.window w) = false)
    (hleave : s.leave.queue.any (fun y => decide (y.who = LeaveFor.window w)) = false) (hfrz : s.frozen = false) :
    ∃ t, exec (.windowSweepDone w) s = .next t ∧ (∀ g, t.f g = (s.winFreed w).f g) ∧ t.ctx = (s.winFreed w).ctx := by
  rw [exec_windowSweepDone, execWindowSweepDone, if_neg (by simp [hst, hswept, hleave]), if_neg (Bool.eq_false_iff.mp hfrz)]
  exact ⟨_, rfl, State.armIf_frame (s.winFreed w) _ _ _ _ _⟩

end

/-! Settling -/

/-- Settles O37, clause by clause: each command by what it comes to under its conditions, and the fields of WIN.STATE and WIN.BIND_STAT that leaves. -/
theorem windowsOpenCloseAndAreSwept : Obligations.WindowsOpenCloseAndAreSwept := by
  refine ⟨?bind, ?refused, ?unbind, ?close, ?release, ?closed, ?kept, ?sweep, ?swept⟩
  case bind =>
    intro m w c s hm hgood hopen
    obtain ⟨hstate, hctx, hgen, howner, hdone⟩ := s.f_winBound (w := w) c.isLt
    exact ⟨_, exec_windowBind_of_good hm hgood hopen, hstate, hctx, howner, hgen, hdone, s.sameRegs_winBound w c⟩
  case refused =>
    intro m w c s hm hbad hopen
    obtain ⟨hrej, hcause⟩ := s.f_winRej (s.bindCause_lt w c)
    exact ⟨_, exec_windowBind_of_bad hm hbad hopen, hrej, hcause, s.sameRegs_winRej _⟩
  case unbind => exact fun m w c s hm hst hctx hidle hopen => exec_windowUnbind_of_open hm hst hctx hidle hopen
  case close => exact fun w c s hst hctx hbusy hdue => exec_windowUnbind_of_accepted hst hctx hbusy hdue
  case release => exact fun m w c s hm hkept hidle hopen => exec_windowRelease_of_kept hm hkept hidle hopen
  case closed => exact fun w s hst hbusy hlive => exec_windowCloseSettle_of_closed hst hbusy hlive
  case kept =>
    intro w s hst hbusy hdue hlive hkeep
    obtain ⟨hstate, hctx, -, howner⟩ := s.f_puts_winFields (s.keptFields_perm w) (by decide) (by decide) (s.ctxGen_lt _) (s.f_lt (R.CTX_STAT_OWNER _))
    have hputs : (s.puts (s.keptFields w)).ctx.busy = some (w.val, 5) := by rw [State.puts_ctx, hbusy]
    obtain ⟨hfell, hdone, hidle⟩ := State.winEnd_of_busy hputs
    have hread {g : Fld} (hg : g.key = R.WIN_STATE w) : ((s.puts (s.keptFields w)).winEnd w).f g = (s.puts (s.keptFields w)).f g :=
      State.f_congr (State.reg_winEnd _ _ (by rw [hg]; exact (winState_ne w).1))
    refine ⟨_, (exec_windowCloseSettle_of_over hst hbusy hdue hlive).trans (by rw [State.winSettle_of_keep hkeep]), (hread rfl).trans hstate, (hread rfl).trans hctx,
      (hread rfl).trans howner, hfell, hdone, hidle, fun k hk => ?_⟩
    simp only [List.mem_cons, List.not_mem_nil, or_false, not_or] at hk
    obtain ⟨hwin, hstat⟩ := hk
    rw [State.reg_winEnd _ _ hstat, State.reg_puts_other _ _ fun p hp => by rw [winFields_key ((s.keptFields_perm w).mem_iff.mp hp)]; exact hwin]
  case sweep =>
    intro w s hst hbusy hdue hlive hsweep
    rw [exec_windowCloseSettle_of_over hst hbusy hdue hlive, State.winSettle_of_sweep hsweep]
  case swept =>
    intro w s hst hswept hleave hfrz
    obtain ⟨t, ht, hfields, hctx⟩ := exec_windowSweepDone_of_swept hst hswept hleave hfrz
    obtain ⟨hstate, hctxFld, hgen, howner⟩ := s.f_winFreed w
    refine ⟨t, ht, ?_, ?_, ?_, ?_, fun hbusy => ?_⟩
    · rw [hfields, hstate]
    · rw [hfields, hctxFld]
    · rw [hfields, hgen]
    · rw [hfields, howner]
    · rw [hfields, hctx]
      exact State.winFreed_of_busy hbusy

end Sys2Proof.Machine
end

section
/-! PROOFS. An ACTIVATE that stands with SCH while a locked sequence of SCH holds the registers, against the clause of that submission. -/
namespace Sys2Proof.Machine

/-- An SQ_ACTIVATE of context 0 whose executor is named as SCH, core 2; the one of R446 is SEC, core 0. -/
def activateBySch : Job :=
  { idx := 0, op := 2, tag := 0, ctx := 0, after := false, core := 2, ent := 2 :: List.replicate 63 0, stage := 0, todo := [], acc := 0, t0 := 0 }

/-- A die in role mode with SCH in service and a locked sequence of SCH on RGS, where that submission is to start. -/
def lockedBySch : State :=
  { State.reset.puts [(R.MGT_MODE_MODE, 1), (inService 2, 1)] with
    masked := []
    mgt := { State.reset.mgt with jobs := [activateBySch] }
    cmx := { State.reset.cmx with locks := [(3, masterIdx .sch, 0)] } }

/-- The sequence lets SCH through; the command that SEC is to write waits for its end (`State.row`, R422), so the context stays FREE. -/
theorem sqActivate_lockedBySch : (ran lockedBySch (exec (.sqActivate 0) lockedBySch)).ctxState 0 = 0 := by
  decide

/-- Refutes O53: its clause for SQ_ACTIVATE asks that the registers be open to the executor that the submission names, where `execSqActivate` writes
CTX.CMD as SEC whatever core that is. The clause admits a submission that names SCH, though those that `State.entryAt` takes from the ring name SEC. -/
theorem not_contextSubmissionsComplete : ¬ Obligations.ContextSubmissionsComplete := by
  intro h
  obtain ⟨-, -, -, hactivate, -⟩ := h
  obtain ⟨t, ht, hactive, -⟩ := hactivate 0 activateBySch lockedBySch (by decide) (by decide) (by decide) (by decide) rfl (by decide) (by decide) (by decide)
    (by decide) (by decide)
  have hfree := sqActivate_lockedBySch
  rw [ht, ran] at hfree
  exact absurd (hactive.symm.trans hfree) (by decide)

end Sys2Proof.Machine
end

section
/-! PROOFS. A core that halts itself in a debug halt freeze, against the clause of SELF_HALT: its watchdog is paused already (R454, R487). -/
namespace Sys2Proof.Machine

theorem exec_selfHalt (m : Master) (v : W32) (s : State) : exec (.selfHalt m v) s = execSelfHalt m v s := rfl

/-- The key of a core with no access outstanding halts it at once; what comes before the halt, the end of its locks, touches neither the
management complex nor the registers. -/
theorem exec_selfHalt_of_idle {m : Master} {v : W32} {s : State} (hm : (m == .pwc || m == .dbg || m == .hrp) = false) (hkey : v.toNat % 65536 = 0x4A17)
    (hlive : s.masked.contains (masterIdx m) = false) (hidle : s.cmx.out.any (fun o => decide (o.req.m = masterIdx m)) = false)
    (hopen : s.rgsShut (masterIdx m) = false) :
    ∃ u : State, exec (.selfHalt m v) s = .next (u.haltCore (masterIdx m)) ∧ u.mgt = s.mgt ∧ u.regs = s.regs := by
  have hgo : ¬(v.toNat % 65536 ≠ 0x4A17 ∨ s.masked.contains (masterIdx m) = true) := by
    rw [hlive, hkey]
    simp
  rw [exec_selfHalt, execSelfHalt, State.row_of_open hopen, hm, Bool.not_false, State.gate_true, if_neg hgo]
  exact ⟨_, congrArg _ (if_neg (Bool.eq_false_iff.mp hidle)), rfl, rfl⟩

/-- Of a watchdog that was held before, no new moment is noted. -/
theorem State.haltAt_wdtChange_of_held {s : State} {m : Nat} (h : s.wdtHeld m = true) (t : State) :
    SMap.get 0 (s.wdtChange t).mgt.haltAt m = SMap.get 0 t.mgt.haltAt m := by
  refine State.foldl_keeps_part (fun u => SMap.get 0 u.mgt.haltAt m) _ t fun u c => ?_
  dsimp only
  split_ifs with hbegin
  · have hne : m ≠ c := by
      rintro rfl
      simp [h] at hbegin
    exact SMap.get_insert_other _ _ _ hne
  · rfl
  · rfl

theorem State.haltAt_haltCore_of_held {s : State} {m : Nat} (h : s.wdtHeld m = true) :
    SMap.get 0 (s.haltCore m).mgt.haltAt m = SMap.get 0 s.mgt.haltAt m :=
  State.haltAt_wdtChange_of_held h _

theorem State.wdtHeld_congr {s u : State} (hmgt : u.mgt = s.mgt) (hregs : u.regs = s.regs) (m : Nat) : u.wdtHeld m = s.wdtHeld m := by
  simp only [State.wdtHeld, State.bit, State.f, State.reg, hmgt, hregs]

/-- A die in role mode with CC7 (core 10) in service. A debug halt freeze began at 1 us of fabric time and paused its watchdog, whose DBG_PAUSE
resets to 1; now it is 2 us. -/
def pausedByFreeze : State :=
  { State.reset.puts [(R.MGT_MODE_MODE, 1), (inService 10, 1)] with
    masked := []
    time := { State.reset.time with now := us 2 }
    mgt := { State.reset.mgt with hold := some (us 1), haltAt := [(10, us 1)] } }

/-- The pause holds the watchdog, though the core is not halted (R454). -/
theorem pausedByFreeze_wdtHeld : pausedByFreeze.wdtHeld 10 = true := by
  decide

/-- Refutes O51: its clause for SELF_HALT has the moment of the halt noted whatever held the watchdog before. `State.wdtChange` notes it only for a
watchdog that comes to be held; that of a core that halts itself in a debug halt freeze is paused by DBG_PAUSE, and the begin of the pause stays. -/
theorem not_coresRestartAndHalt : ¬ Obligations.CoresRestartAndHalt := by
  intro h
  obtain ⟨-, -, -, -, -, -, -, -, -, -, -, -, -, -, hhalt, -⟩ := h
  obtain ⟨t, ht, -, hnoted, -⟩ := hhalt (.cc 7) 0x4A17 pausedByFreeze (by decide) (by decide) (by decide) (by decide) rfl rfl rfl
  obtain ⟨u, hu, hmgt, hregs⟩ := exec_selfHalt_of_idle (m := .cc 7) (v := 0x4A17) (s := pausedByFreeze) (by decide) (by decide) rfl rfl rfl
  obtain rfl : u.haltCore 10 = t := Host.Outcome.next.inj (hu.symm.trans ht)
  have hkept : SMap.get 0 (u.haltCore 10).mgt.haltAt 10 = us 1 := by
    rw [State.haltAt_haltCore_of_held ((State.wdtHeld_congr hmgt hregs 10).trans pausedByFreeze_wdtHeld), hmgt]
    rfl
  have hsame : us 1 = us 2 := hkept.symm.trans hnoted
  exact absurd hsame (by decide)

end Sys2Proof.Machine
end

section
/-! PROOFS. The step at a command that waits, and a command that waits for a locked sequence, against the list of parts it may change. -/
namespace Sys2Proof.Machine

/-- Settles O1: the step is defined by the front of the queue. -/
theorem stepRunsFrontCommand : Obligations.StepRunsFrontCommand :=
  fun _ _ _ hpending => step_of_pending_cons hpending

/-- While a locked sequence of another master holds the registers, the clear has not reached them: it is presented again at the end of its cycle. -/
theorem exec_hintStatClear_of_shut {m : Master} {s : State} (hshut : s.rgsShut (masterIdx m) = true) (v : W32) :
    exec (.hintStatClear m v) s = .next (s.at' .real (s.cycEnd 0) (.hintStatClear m v)) :=
  congrArg Host.Outcome.next (if_pos hshut)

/-- Refutes O6: `touches` lists registers and error records for HINT_STAT_CLEAR, but `State.row` puts the command back on the agenda while another
master's locked sequence holds RGS (R422). In `lockedBySch` that sequence is SCH's and the write HRP's. -/
theorem not_commandsKeepWhatTheyDoNotTouch : ¬ Obligations.CommandsKeepWhatTheyDoNotTouch := by
  intro h
  have hwaits := exec_hintStatClear_of_shut (m := .hrp) (s := lockedBySch) (by decide) 0
  have hsame := h _ _ _ hwaits .agenda (by decide)
  exact absurd (congrArg List.length hsame) (by simp [State.at'_agenda])

end Sys2Proof.Machine
end

section
/-! PROOFS. A cause and a status that do not fit the field they are to be read from, against the clauses of LANE_SILENT and of a command's end. -/
namespace Sys2Proof.Machine

/-- Lane 0 in service. -/
def laneInService : State := State.reset.put (R.BRG_STAT_STATE 0) 2

/-- Refutes O39: its clause for a lane that goes down admits every cause below 16, where BRG.STAT.CAUSE has three bits (R542): of cause 8 it reads 0. -/
theorem not_lanesComeUpAndGoDown : ¬ Obligations.LanesComeUpAndGoDown := by
  intro h
  obtain ⟨-, hdown, -⟩ := h
  obtain ⟨-, hcause, -⟩ := hdown 0 8 laneInService (by decide) (by decide) (by decide) (by decide +kernel) rfl rfl
  have hfits := State.f_lt (laneInService.laneDown 0 8) (R.BRG_STAT_CAUSE 0)
  rw [hcause] at hfits
  exact absurd hfits (by decide)

/-- A command that has everything sent and answered. -/
def answeredCmd : EdgeCmd :=
  { op := 1, len := 0, part := 0, ctx := 0, loc := 0, remote := 0, started := true, off := 0, ids := [], prep := none, out := [] }

/-- Gateway 0 with that command at its head and none behind it. -/
def oneCmdAtGateway : State := { State.reset with edg := { State.reset.edg with gws := [(0, { Gateway.idle with cmds := [answeredCmd] })] } }

/-- Refutes O41: its clause for the end of a command admits every status below 16, where EDG.CMD_STAT.LAST has three bits (R558): of status 8 it
reads 0. -/
theorem not_gatewayCommandsRun : ¬ Obligations.GatewayCommandsRun := by
  intro h
  obtain ⟨-, -, -, -, -, -, hend, -⟩ := h
  obtain ⟨-, hlast, -⟩ := hend 0 8 answeredCmd oneCmdAtGateway (by decide) (by decide) rfl
  have hfits := State.f_lt (oneCmdAtGateway.edgeEnd 0 8) (R.EDG_CMD_STAT_LAST 0)
  rw [hlast] at hfits
  exact absurd hfits (by decide)

end Sys2Proof.Machine
end

section
/-! PROOFS. A clamp line that is to fall on the fc it rose on, against the clause of CLAMP_FREEZE. -/
namespace Sys2Proof.Machine

/-- The clamp engaged at one fc of every two, its line raised on the present fc; the fc three later is open. So it stands when CLAMP_CFG changes on the
fc on which the line rose. -/
def clampJustRaised : State :=
  { State.reset.puts [(R.PWR_CLAMP_STAT_ENGAGED, 1), (R.PWR_CLAMP_CFG_N, 1), (R.PWR_CLAMP_CFG_M, 2)] with
    frz := { State.reset.frz with lines := [.clamp], starts := [(.clamp, 3)] } }

/-- A line that rose on this fc stays high for one fc: `State.frzFall` notes its fall for the next. -/
theorem clampFreeze_clampJustRaised : FrzSrc.clamp ∈ (ran clampJustRaised (exec .clampFreeze clampJustRaised)).frz.lines := by
  decide +kernel

/-- Refutes O46: its clause for CLAMP_FREEZE has the line low whenever the fc three later is not of a clamped phase. The freeze of a line that rose on
the same fc lasts at least one fc (R73), so the line falls an fc later. -/
theorem not_leaveClampsAndEmergencies : ¬ Obligations.LeaveClampsAndEmergencies := by
  intro h
  obtain ⟨-, -, -, -, -, hclamp, -⟩ := h
  obtain ⟨t, ht, hline, -⟩ := hclamp 1 2 clampJustRaised (by decide +kernel)
  have hhigh := clampFreeze_clampJustRaised
  rw [ht, ran] at hhigh
  exact absurd (hline.mp hhigh) (by decide)

end Sys2Proof.Machine
end

section
/-! PROOFS. A rise of PORST_N with a clock that ran before it, against the clause of POWER_ON_RESET. -/
namespace Sys2Proof.Machine

/-- In reset, with the always-on clock past its zero: so a fall of PORST_N leaves it. -/
def porstAfterRun : State := { State.reset with time := { State.reset.time with ao := 1 } }

/-- The rise of PORST_N restarts the always-on clock with the others. -/
theorem powerOnReset_ao : (ran porstAfterRun (exec (.powerOnReset true true) porstAfterRun)).time.ao = 0 := by
  decide +kernel

/-- Refutes O56: its clause for the rise of PORST_N sets fabric time and the slow run to 0 and keeps the always-on clock; `execPowerOnReset` sets that to
0 as well. -/
theorem not_startUpRunsItsSteps : ¬ Obligations.StartUpRunsItsSteps := by
  intro h
  obtain ⟨hrise, -⟩ := h
  have hran := powerOnReset_ao
  rw [hrise true true porstAfterRun rfl rfl, ran] at hran
  exact absurd hran (by decide +kernel)

end Sys2Proof.Machine
end

section
/-! PROOFS. A slot whose set-class flit is kept for its schedule time, against the clause of the delivery in sequence order. -/
namespace Sys2Proof.Machine

/-- A read flit of the set class. -/
def carriedFlit : SFlit :=
  { id := 0, kind := .rdReq, ctx := none, fmask := 0, fa := 0, dat := [], zero := [], resp := .ok, due := 0, src := 0, srcDie := 0, from' := 0, dst := 0, dstDie := 0, cur := 0, enter := 0, hops := 0,
    det := none, issue := 0, lret := 0, rpl := false }

/-- The slot due next, received and ready, that carries it. -/
def slotWithSetFlit : RxSlot :=
  { seq := 0, first := 0, ready := some 0, fails := 0, late := false, slot := { seq := 0, stime := 0, items := [.setFlit carriedFlit] } }

/-- Lane 0 has received that slot and 100 fc have passed. -/
def setFlitReceived : State :=
  { State.reset with
    time := { State.reset.time with fc := 100 }
    brg := { State.reset.brg with lanes := [(0, { Lane.idle with rx := [slotWithSetFlit] })] } }

theorem deliverSlots_setFlitReceived : ((setFlitReceived.deliverSlots 0 1).lane 0).rx.length = 1 := by
  decide +kernel

/-- Refutes O38: its clause for the delivery of the slot that is due hands over every item and drops the slot. `State.deliverSlots` keeps the set-class
flits of the slot in the receive buffer: `State.deliverSet` releases them in their schedule time (R530, R533). -/
theorem not_wireSlotsAreCheckedAndDelivered : ¬ Obligations.WireSlotsAreCheckedAndDelivered := by
  intro h
  obtain ⟨-, -, -, -, -, hdeliver, -⟩ := h
  have hkept := deliverSlots_setFlitReceived
  rw [hdeliver 0 slotWithSetFlit 0 setFlitReceived (by decide +kernel)] at hkept
  exact absurd hkept (by decide +kernel)

end Sys2Proof.Machine
end

section
/-! PROOFS. A link that comes back before the HELLO repeat of its last time up is due, against the clause of EDGE_LINK_UP. -/
namespace Sys2Proof.Machine

/-- Gateway 0 in service on cabinet 0, without partners; its link is down and the repeat set when it was last up is still on the agenda. -/
def linkComesBack : State :=
  { State.reset.puts [(R.IDV_CMAP_CTL_G0_LOG, 1), (mapValid 0 0, 1), (R.EDG_CTL_EN 0, 1)] with
    ties := { State.reset.ties with edges := 1 }
    agenda := [{ clk := .real, due := us 50, cmd := .helloRepeat 0 }] }

/-- One repeat is on the agenda afterwards. -/
theorem edgeLinkUp_linkComesBack : (ran linkComesBack (exec (.edgeLinkUp 0) linkComesBack)).agenda.length = 1 := by
  decide +kernel

/-- Refutes O42: its clause for EDGE_LINK_UP adds the repeat to the agenda as it stands. `execEdgeLinkUp` first takes from it a repeat left there when
the link last went down. -/
theorem not_partnersComeAndGo : ¬ Obligations.PartnersComeAndGo := by
  intro h
  obtain ⟨hup, -⟩ := h
  have hone := edgeLinkUp_linkComesBack
  rw [hup 0 _ linkComesBack (by decide +kernel) (by decide) rfl (by decide +kernel), ran] at hone
  exact absurd hone (by decide +kernel)

end Sys2Proof.Machine
end

section
/-! PROOFS. A gateway number past those of the die, against the clause of a HELLO. -/
namespace Sys2Proof.Machine

/-- The registers of this gateway would stand where HLM.HASH_1 stands. -/
theorem edgStat_eq_hlmHash : R.EDG_STAT 3076 = R.HLM_HASH 1 := rfl

/-- A die whose Hallmark is valid and has a bit set in HASH_1; partner 0 is DOWN and must prove its Hallmark. -/
def hallmarkRequired : State :=
  (State.reset.puts [(R.EDG_PT_STAT_STATE 0, 1), (R.EDG_PT_CFG_HLM_REQ 0, 1), (R.HLM_HLM_STAT_VALID, 1)]).setReg (R.HLM_HASH 1) 4

/-- A HELLO that carries the digest of that die. -/
def helloOfEqual : Packet :=
  { typ := 1, status := 0, len := 64, seq := 1, serial := 0, die := 0, gw := 0, epoch := 1, reqId := 1, addr := 0, arg := 0
    payload := (List.range 12).flatMap (fun j => leBytes 4 (hallmarkRequired.reg (R.HLM_HASH j)).toNat), beatBytes := 112, tagOk := true }

/-- The answer writes the count of what that gateway has received over the digest, which then differs: the partner is in quarantine. -/
theorem hello_hallmarkRequired : (hallmarkRequired.hello 3076 0 helloOfEqual).partState 0 = 3 := by
  decide +kernel

/-- Refutes O40: its clause for a HELLO is about every number k of a gateway, where a die has four. For k = 3076 the write of `State.setGw` to
EDG.STAT of k falls on HLM.HASH_1, so the partner's Hallmark is compared with another. -/
theorem not_gatewaysAdmitPartnerPackets : ¬ Obligations.GatewaysAdmitPartnerPackets := by
  intro h
  obtain ⟨-, -, -, -, -, -, -, hhello, -⟩ := h
  have hactive := hhello 3076 0 helloOfEqual hallmarkRequired (by decide) (by decide +kernel) (by decide +kernel) (by decide +kernel)
  exact absurd (hactive.symm.trans hello_hallmarkRequired) (by decide)

end Sys2Proof.Machine
end

section
/-! PROOFS. The activation of roles and the request of a recovery (R463 to R466, R471). -/
namespace Sys2Proof.Machine

/-! A role's state -/

theorem exec_mgtActWrite (m : Master) (v : W32) (s : State) : exec (.mgtActWrite m v) s = execMgtActWrite m v s := rfl
theorem exec_activationStart (s : State) : exec .activationStart s = execActivationStart s := rfl
theorem exec_probationEnd (role : Fin 4) (s : State) : exec (.probationEnd role) s = execProbationEnd role s := rfl
theorem exec_recovery (m : Master) (v : W32) (s : State) : exec (.recovery m v) s = execRecovery m v s := rfl

/-- The computation of the Hallmark shows in HLM_STAT alone. -/
theorem State.reg_hallStart {k : Nat} (h : k ≠ R.HLM_HLM_STAT) (s : State) : s.hallStart.reg k = s.reg k :=
  State.reg_put_other _ _ _ h

/-- The registers of a role that its state is kept in stand apart from those of the die's others. -/
theorem imgStat_key (r : Fin 4) : (R.MGT_IMG_STAT_STATE r).key ≠ R.HLM_HLM_STAT ∧ (R.MGT_IMG_STAT_STATE r).key ≠ (R.MGT_IMG_STBY_VERSION r).key ∧
    (R.MGT_IMG_STAT_STATE r).key ≠ R.MGT_ACT_STAT_DONE.key := by
  decide +revert

/-- A role that returns to RUNNING reads that state; its Hallmark is computed anew. -/
theorem State.roleState_setRole_running (s : State) (r : Fin 4) : (s.setRole r 0).roleState r = 0 := by
  obtain ⟨hhall, hstby, -⟩ := imgStat_key r
  have hset : (s.setRole r 0).roleState r = (s.put (R.MGT_IMG_STAT_STATE r) 0).f (R.MGT_IMG_STAT_STATE r) :=
    State.f_congr ((State.reg_hallStart hhall _).trans (State.reg_put_other _ _ _ hstby))
  exact hset.trans (State.f_put_fits _ (Nat.le_add_right _ 2) (by decide : 2 < 32) (by decide : 0 < 2 ^ 3))

theorem State.setRole_mgt (s : State) (r st : Nat) : (s.setRole r st).mgt = s.mgt :=
  (State.setRole_keeps r st (List.Subset.refl _) (.refl s)).frame .mgt (by decide)

/-! GO -/

section
variable {m : Master} {v : W32} {s : State} (hm : (m == .sec || m == .dbg) = true) (hgo : vbit v 31 = true) (hopen : s.rgsShut (masterIdx m) = false)
include hm hgo hopen

theorem exec_mgtActWrite_of_verified (hrole : s.roleState (v.toNat % 4) = 2) :
    exec (.mgtActWrite m v) s = .next (if s.emergAny then
        (({ s with mgt := { s.mgt with outcome := SMap.erase s.mgt.outcome (v.toNat % 4) } } : State).setRole (v.toNat % 4) 3).event 0 0x07 (v.toNat % 4)
      else ({ s with mgt := { s.mgt with outcome := SMap.erase s.mgt.outcome (v.toNat % 4) } } : State).actStart (v.toNat % 4)) := by
  rw [exec_mgtActWrite, execMgtActWrite, State.row_of_open hopen, hm, State.gate_true, hgo, Bool.not_true, if_neg Bool.false_ne_true, if_neg (not_not_intro hrole)]
  rfl

theorem exec_mgtActWrite_of_not_verified (hrole : s.roleState (v.toNat % 4) ≠ 2) : exec (.mgtActWrite m v) s = .next (s.put R.MGT_ACT_STAT_REJ 1) := by
  rw [exec_mgtActWrite, execMgtActWrite, State.row_of_open hopen, hm, State.gate_true, hgo, Bool.not_true, if_neg Bool.false_ne_true, if_pos hrole]

end

/-! The end of probation and a recovery -/

/-- A role whose probation is over is RUNNING, and FWACT is told so. -/
theorem probationEnd_fields {role : Fin 4} {s : State} (hrole : s.roleState role = 5) (hdue : SMap.get 0 s.mgt.prob role ≤ s.time.now) :
    ∃ t, exec (.probationEnd role) s = .next t ∧ t.roleState role = 0 ∧ SMap.get 0 t.mgt.outcome role = 1 ∧ t.f R.MGT_ACT_STAT_DONE = 1 ∧
      SMap.get 0 t.mgt.prob role = 0 := by
  obtain ⟨-, -, hdone⟩ := imgStat_key role
  let u : State := { s with mgt := { s.mgt with prob := SMap.erase s.mgt.prob role } }
  have hmgt : ((u.setRole role 0).setOutcome role 1).mgt = { u.mgt with outcome := SMap.insert u.mgt.outcome role 1 } := by
    rw [State.setOutcome, State.setRole_mgt]
  refine ⟨((u.setRole role 0).setOutcome role 1).put R.MGT_ACT_STAT_DONE 1, by rw [exec_probationEnd, execProbationEnd, if_pos ⟨hrole, hdue⟩], ?_, ?_, ?_, ?_⟩
  · exact (State.f_put_key _ _ _ _ hdone).trans (State.roleState_setRole_running u role)
  · rw [State.put_mgt, hmgt]
    exact SMap.get_insert_same _ _ _ _
  · exact State.f_put_fits _ (by decide) (by decide) (by decide)
  · rw [State.put_mgt, hmgt]
    exact SMap.get_erase_same _ _ _

theorem exec_recovery_of_key {m : Master} {v : W32} {s : State} (hm : (m == .hrp || m == .dbg) = true) (hkey : v.toNat % 65536 = 0x52EC)
    (hidle : s.mgt.recover = 0) (hopen : s.rgsShut (masterIdx m) = false) :
    exec (.recovery m v) s = .next (({ s with mgt := { s.mgt with recover := 1 } } : State).later .real 0 .recoveryStart) := by
  rw [exec_recovery, execRecovery, State.row_of_open hopen, hm, State.gate_true, if_pos ⟨hkey, hidle⟩]

/-- Settles O52: GO by the role's state and the emergency, the deferred activations by the calm, probation by its end. -/
theorem rolesAreActivated : Obligations.RolesAreActivated := by
  refine ⟨?_, ?_, ?_, ?_, fun _ _ hrole hdue => probationEnd_fields hrole hdue, fun _ _ _ hm hkey hidle hopen => exec_recovery_of_key hm hkey hidle hopen⟩
  · intro m v s hm hgo hrole hcalm hopen
    rw [exec_mgtActWrite_of_verified hm hgo hopen hrole, hcalm, if_neg Bool.false_ne_true]
  · intro m v s hm hgo hrole hemerg hopen
    rw [exec_mgtActWrite_of_verified hm hgo hopen hrole, hemerg, if_pos rfl]
  · intro m v s hm hgo hrole hopen
    exact exec_mgtActWrite_of_not_verified hm hgo hopen hrole
  · intro s hcalm
    rw [exec_activationStart, execActivationStart, hcalm, Bool.not_true, if_neg Bool.false_ne_true]

end Sys2Proof.Machine
end

section
/-! PROOFS. The change of the operating point (R495 to R497, R516). -/
namespace Sys2Proof.Machine

theorem exec_opChange (m : Master) (v : W32) (s : State) : exec (.opChange m v) s = execOpChange m v s := rfl
theorem exec_dieOpChange (target : Fin 6) (s : State) : exec (.dieOpChange target) s = execDieOpChange target s := rfl
theorem exec_opChangeDone (die : Fin 8) (result : Fin 3) (s : State) : exec (.opChangeDone die result) s = execOpChangeDone die result s := rfl
theorem exec_vidAckToggle (s : State) : exec .vidAckToggle s = execVidAckToggle s := rfl
theorem exec_vidTimeout (s : State) : exec .vidTimeout s = execVidTimeout s := rfl

/-! The registers of an operating point -/

/-- OP_STAT and VID_CFG stand apart from the rows of the points. -/
theorem opVid_key {t : Nat} (ht : t < 6) : (R.PWR_OP_VID t).key ≠ R.PWR_OP_STAT ∧ (R.PWR_OP_VID t).key ≠ R.PWR_VID_CFG := by
  interval_cases t <;> decide

/-- Die 0 of a package of one die has no other die to tell. -/
theorem State.foldl_side_alone {s : State} (hdies : s.dies = 1) (hdie : s.die = 0) (msg : Sideband) :
    (List.range s.dies).foldl (fun s d => if d = s.die then s else s.side d msg) s = s := by
  rw [hdies]
  exact if_pos hdie.symm

/-! GO -/

section
variable {m : Master} {v : W32} {s : State} (hm : pwrMaster m = true) (hgo : vbit v 31 = true) (hopen : s.rgsShut (masterIdx m) = false)
include hm hgo hopen

theorem exec_opChange_of_refused
    (hbad : s.die ≠ 0 ∨ s.frozen = false ∨ s.bit R.LCT_FRZ_STAT_FIRMWARE = false ∨ s.bit R.PWR_OP_STAT_BUSY = true ∨ 5 < v.toNat % 8) :
    exec (.opChange m v) s = .next (s.put R.PWR_OP_STAT_REJ 1) := by
  rw [exec_opChange, execOpChange, State.row_of_open hopen, hm, State.gate_true, hgo, Bool.not_true, if_neg Bool.false_ne_true, if_pos hbad]

theorem exec_opChange_of_alone (hdie : s.die = 0) (hfrozen : s.frozen = true) (hfirm : s.bit R.LCT_FRZ_STAT_FIRMWARE = true)
    (hidle : s.bit R.PWR_OP_STAT_BUSY = false) (hpoint : v.toNat % 8 ≤ 5) (hdies : s.dies = 1) :
    exec (.opChange m v) s = .next ((({ s with pwr := { s.pwr with pkg := some { target := v.toNat % 8, old := s.f R.PWR_OP_STAT_CUR, reports := [], back := false } } } : State).puts [(R.PWR_OP_STAT_TGT, v.toNat % 8), (R.PWR_OP_STAT_BUSY, 1)]).later .wall 0 (.dieOpChange (Fin.ofNat 6 (v.toNat % 8)))) := by
  have hgood : ¬(s.die ≠ 0 ∨ s.frozen = false ∨ s.bit R.LCT_FRZ_STAT_FIRMWARE = false ∨ s.bit R.PWR_OP_STAT_BUSY = true ∨ 5 < v.toNat % 8) := by
    simp [hdie, hfrozen, hfirm, hidle, hpoint]
  rw [exec_opChange, execOpChange, State.row_of_open hopen, hm, State.gate_true, hgo, Bool.not_true, if_neg Bool.false_ne_true, if_neg hgood]
  refine congrArg (fun u : State => Host.Outcome.next (u.later .wall 0 (.dieOpChange (Fin.ofNat 6 (v.toNat % 8))))) (State.foldl_side_alone ?_ (by exact hdie) _)
  exact (State.f_congr (State.reg_puts_other _ _ (by simp [R.PWR_OP_STAT_TGT, R.PWR_OP_STAT_BUSY]; decide))).trans hdies

end

/-! A die's part -/

theorem exec_dieOpChange_of_pkg {target : Fin 6} {k : OpPkg} {s : State} (hinbox : s.brg.inbox = []) (hop : s.pwr.op = none) (hdie : s.die = 0)
    (hpkg : s.pwr.pkg = some k) (htarget : k.target = target.val) (hback : k.back = false) (hreports : k.reports = []) (hfrozen : s.frozen = true)
    (hfirm : s.bit R.LCT_FRZ_STAT_FIRMWARE = true) : exec (.dieOpChange target) s = .next (s.opBegin target) := by
  simp [exec_dieOpChange, execDieOpChange, State.opAsked, hinbox, hop, hdie, hpkg, htarget, hback, hreports, hfrozen, hfirm]

theorem State.f_vidWait (s : State) (o : OpSt) (g : Fld) : (s.vidWait o).f g = (s.put R.PWR_VID_CFG_VID (s.f (R.PWR_OP_VID o.new))).f g := by
  rw [State.vidWait, State.f_later]
  rfl

theorem State.vidWait_op (s : State) (o : OpSt) : (s.vidWait o).pwr.op.isSome := rfl

/-- A raise begins with the VID code of its point; the regions do not switch yet (R495). -/
theorem State.opBegin_raise {t : Nat} {s : State} (ht : t < 6) (hraise : s.f R.PWR_OP_STAT_CUR < t) :
    (s.opBegin t).f R.PWR_VID_CFG_VID = s.f (R.PWR_OP_VID t) ∧ (s.opBegin t).f R.PWR_OP_STAT_CUR = s.f R.PWR_OP_STAT_CUR ∧
      (s.opBegin t).f R.PWR_OP_STAT_BUSY = 1 ∧ (s.opBegin t).pwr.op.isSome := by
  obtain ⟨hstat, -⟩ := opVid_key ht
  have hrow : (s.useFree.puts [(R.PWR_OP_STAT_TGT, t), (R.PWR_OP_STAT_BUSY, 1)]).f (R.PWR_OP_VID t) = s.f (R.PWR_OP_VID t) :=
    State.f_congr (State.reg_puts_other _ _ (by rintro p (_ | ⟨_, _ | ⟨_, ⟨⟩⟩⟩) <;> exact hstat))
  rw [State.opBegin, if_neg hraise.ne', if_pos hraise, State.f_vidWait, State.f_vidWait, State.f_vidWait, hrow]
  refine ⟨State.f_put_fits _ (by decide) (by decide) (State.f_lt s (R.PWR_OP_VID t)), ?_, ?_, State.vidWait_op _ _⟩
  · rw [State.f_put_key _ _ _ _ (by decide)]
    exact State.f_puts_apart s.useFree (by decide) (by simp [R.PWR_OP_STAT_TGT, R.PWR_OP_STAT_BUSY, R.PWR_OP_STAT_CUR, Fld.apart])
  · rw [State.f_put_key _ _ _ _ (by decide)]
    exact State.f_put_fits _ (by decide) (by decide) (by decide)

/-- The toggle that a raise waits for lets it switch, once its PLL is locked; `u` is the state with the toggle shown. -/
theorem exec_vidAckToggle_of_shown {x : OpSt} {s u : State} (hshown : s.put R.PWR_VID_CFG_ACK (1 - s.f R.PWR_VID_CFG_ACK) = u)
    (hhw : u.bit R.PWR_EMERG_STAT_HW_VID = false) (hop : u.pwr.op = some x) (hvid : x.vid = true) (hlock : x.lockAt ≤ u.time.real) (hraise : x.old < x.new) :
    exec .vidAckToggle s =
      .next (((({ u with pwr := { u.pwr with op := some { x with acked := true } } } : State).disarm .vidTimeout).opSwitch x.new).opReport 0) := by
  rw [exec_vidAckToggle, execVidAckToggle, hshown, hhw, if_neg Bool.false_ne_true, hop]
  dsimp only
  rw [hvid, Bool.not_true, if_neg Bool.false_ne_true, if_neg (by exact hlock.not_gt), State.opGo, if_neg (by exact hlock.not_gt),
    if_neg (by exact hraise.le.not_gt), if_pos rfl]

theorem exec_vidAckToggle_of_raise {x : OpSt} {s : State} (hhw : s.bit R.PWR_EMERG_STAT_HW_VID = false) (hop : s.pwr.op = some x) (hvid : x.vid = true)
    (hlock : x.lockAt ≤ s.time.real) (hraise : x.old < x.new) :
    exec .vidAckToggle s = .next (((({ s.put R.PWR_VID_CFG_ACK (1 - s.f R.PWR_VID_CFG_ACK) with pwr := { s.pwr with op := some { x with acked := true } } } : State).disarm .vidTimeout).opSwitch x.new).opReport 0) := by
  rw [exec_vidAckToggle_of_shown rfl ?_ (by rw [State.put_pwr, hop]) hvid (by rw [State.put_time]; exact hlock) hraise, State.put_pwr]
  rw [State.bit_eq_false, State.f_put_key _ _ _ _ (by decide), ← State.bit_eq_false, hhw]

theorem exec_vidTimeout_of_waiting {x : OpSt} {s : State} (hop : s.pwr.op = some x) (hvid : x.vid = true) (hacked : x.acked = false) :
    exec .vidTimeout s = .next (((s.pwrErr 0x68 (x.old * 256 + x.new)).emergSet R.PWR_EMERG_STAT_HW_VID true).opReport 2) := by
  simp [exec_vidTimeout, execVidTimeout, hop, hvid, hacked]

/-! The reports -/

/-- What the end of a change writes. -/
def changeDone (result : Fin 3) : List (Fld × Nat) := [(R.PWR_OP_STAT_BUSY, 0), (R.PWR_OP_STAT_DONE, 1), (R.PWR_OP_STAT_RESULT, result)]

theorem State.changeDone_written (s : State) {result : Fin 3} {p : Fld × Nat} (hp : p ∈ changeDone result) : (s.puts (changeDone result)).f p.1 = p.2 := by
  have hfits : result.val < 4 := by omega
  refine State.f_puts_of_mem s hp ?fit ?apart
  case fit => simp [changeDone, R.PWR_OP_STAT_BUSY, R.PWR_OP_STAT_DONE, R.PWR_OP_STAT_RESULT, Fld.width, hfits]
  case apart => simp [changeDone, R.PWR_OP_STAT_BUSY, R.PWR_OP_STAT_DONE, R.PWR_OP_STAT_RESULT, Fld.apart]

/-- The last report of a change ends it; its result is what the one report says (R496). -/
theorem exec_opChangeDone_of_all {die : Fin 8} {result : Fin 3} {k : OpPkg} {s : State} (hpkg : s.pwr.pkg = some k) (hback : k.back = false) (hresult : result ≠ 1)
    (hlower : result.val = 2 → k.target ≤ k.old) (hreports : k.reports = [])
    (hall : (List.range s.dies).all (fun d => (k.reports.filter (fun r => decide (r.1 ≠ die.val)) ++ [(die.val, result.val)]).any (fun r => decide (r.1 = d))) = true) :
    exec (.opChangeDone die result) s = .next ((({ s with pwr := { s.pwr with pkg := none } } : State).puts (changeDone result)).event 1 0x23 (s.f R.PWR_OP_STAT_CUR + result * 256)) := by
  have hkeep : ¬(result.val = 2 ∧ k.back = false ∧ k.old < k.target) := fun h => h.2.2.not_ge (hlower h.1)
  have hone : decide (result.val = 1) = false := decide_eq_false fun h => hresult (Fin.ext h)
  have hvalue : (if result.val = 2 then 2 else 0) = result.val := by
    have hneq : result.val ≠ 1 := fun h => hresult (Fin.ext h)
    split_ifs <;> omega
  rw [exec_opChangeDone, execOpChangeDone, hpkg]
  dsimp only
  rw [if_neg hkeep, hback, hone, bne_self_eq_false, if_neg Bool.false_ne_true, if_pos hall, hreports]
  simp [hvalue, changeDone]

theorem opChangeDone_fields {die : Fin 8} {result : Fin 3} {k : OpPkg} {s : State} (hpkg : s.pwr.pkg = some k) (hback : k.back = false) (hresult : result ≠ 1)
    (hlower : result.val = 2 → k.target ≤ k.old) (hreports : k.reports = [])
    (hall : (List.range s.dies).all (fun d => (k.reports.filter (fun r => decide (r.1 ≠ die.val)) ++ [(die.val, result.val)]).any (fun r => decide (r.1 = d))) = true) :
    ∃ t, exec (.opChangeDone die result) s = .next t ∧ t.f R.PWR_OP_STAT_BUSY = 0 ∧ t.f R.PWR_OP_STAT_DONE = 1 ∧ t.f R.PWR_OP_STAT_RESULT = result ∧
      t.pwr.pkg = none ∧ s.sameRegs [R.PWR_OP_STAT] t := by
  have hread {p : Fld × Nat} (hp : p ∈ changeDone result) (u : State) (core typ detail : Nat) : ((u.puts (changeDone result)).event core typ detail).f p.1 = p.2 :=
    (State.f_congr (State.reg_event _ _ _ _ _)).trans (u.changeDone_written hp)
  refine ⟨_, exec_opChangeDone_of_all hpkg hback hresult hlower hreports hall, hread (p := (R.PWR_OP_STAT_BUSY, 0)) (by simp [changeDone]) _ _ _ _,
    hread (p := (R.PWR_OP_STAT_DONE, 1)) (by simp [changeDone]) _ _ _ _, hread (p := (R.PWR_OP_STAT_RESULT, result.val)) (by simp [changeDone]) _ _ _ _, ?_, ?_⟩
  · exact congrArg PwrSt.pkg ((State.event_keeps _ _ _ (List.Subset.refl _) (.refl _)).frame .pwr (by decide))
  · intro j hj
    exact (State.reg_event _ _ _ _ _).trans (State.sameRegs_puts_keys _ (ks := [R.PWR_OP_STAT]) (by simp [changeDone, R.PWR_OP_STAT_BUSY, R.PWR_OP_STAT_DONE, R.PWR_OP_STAT_RESULT]) j hj)

/-- Of a raise that a die saw no toggle for, a package of one die returns to the old point (R497). -/
theorem exec_opChangeDone_of_back {die : Fin 8} {k : OpPkg} {s : State} (hpkg : s.pwr.pkg = some k) (hback : k.back = false) (hraise : k.old < k.target)
    (hdie : s.die = 0) (hdies : s.dies = 1) :
    exec (.opChangeDone die 2) s = .next (({ s with pwr := { s.pwr with pkg := some { k with back := true, reports := [] } } } : State).opReturn k.old) := by
  rw [exec_opChangeDone, execOpChangeDone, hpkg]
  dsimp only
  rw [if_pos ⟨rfl, hback, hraise⟩]
  exact congrArg (fun u : State => Host.Outcome.next (u.opReturn k.old)) (State.foldl_side_alone (by exact hdies) (by exact hdie) _)

/-- Settles O48: GO, a die's part of a raise and the reports, each by its own rule. -/
theorem operatingPointsChange : Obligations.OperatingPointsChange :=
  ⟨fun _ _ _ hm hgo hdie hfrozen hfirm hidle hpoint hdies hopen => exec_opChange_of_alone hm hgo hopen hdie hfrozen hfirm hidle hpoint hdies,
    fun _ _ _ hm hgo hbad hopen => exec_opChange_of_refused hm hgo hopen hbad,
    fun _ _ _ hinbox hop hdie hpkg htarget hback hreports hfrozen hfirm =>
      exec_dieOpChange_of_pkg hinbox hop hdie hpkg htarget hback hreports hfrozen hfirm,
    fun _ _ ht hraise => State.opBegin_raise ht hraise,
    fun _ _ _ _ hpkg hback hresult hlower hall hreports => opChangeDone_fields hpkg hback hresult hlower hreports hall,
    fun _ _ _ hpkg hback hraise hdie hdies => exec_opChangeDone_of_back hpkg hback hraise hdie hdies,
    fun _ _ hhw hop hvid hlock hraise => exec_vidAckToggle_of_raise hhw hop hvid hlock hraise,
    fun _ _ hop hvid hacked => exec_vidTimeout_of_waiting hop hvid hacked⟩

end Sys2Proof.Machine
end

section
/-! PROOFS. Stretches, the load of fabric time and beacons (R506 to R510, R524, R540). -/
namespace Sys2Proof.Machine

theorem exec_droopStretch (regions : BitVec 16) (skew : Option (Fin 16 × Fin 16)) (s : State) : exec (.droopStretch regions skew) s = execDroopStretch regions skew s := rfl
theorem exec_compensatingStretch (s : State) : exec .compensatingStretch s = execCompensatingStretch s := rfl
theorem exec_timSet (m : Master) (v : W32) (s : State) : exec (.timSet m v) s = execTimSet m v s := rfl
theorem exec_beaconSend (s : State) : exec .beaconSend s = execBeaconSend s := rfl
theorem exec_beaconReceive (lane : Fin 8) (value : W64) (h : Fin 8) (s : State) : exec (.beaconReceive lane value h) s = execBeaconReceive lane value h s := rfl
theorem exec_beaconLoss (s : State) : exec .beaconLoss s = execBeaconLoss s := rfl

/-! Stretches -/

theorem exec_droopStretch_of_region {regions : BitVec 16} {s : State} (hen : s.bit R.CLK_CFG_DROOP_EN = true)
    (hregion : s.clkRegions.any (fun k => regions.getLsbD k) = true) : exec (.droopStretch regions none) s = .next (s.stretchAt (s.time.fc + 2)) := by
  have hsome : ¬(s.bit R.CLK_CFG_DROOP_EN = false ∨ s.clkRegions.all (fun k => !regions.getLsbD k) = true) := by
    rw [List.all_eq_not_any_not]
    simp [hen, hregion]
  rw [exec_droopStretch, execDroopStretch, if_neg hsome]

/-- A request of no region that exists stretches nothing (R25). -/
theorem exec_droopStretch_of_none {regions : BitVec 16} {s : State} (hregion : s.clkRegions.any (fun k => regions.getLsbD k) = false) :
    exec (.droopStretch regions none) s = .next s := by
  have hnone : s.clkRegions.all (fun k => !regions.getLsbD k) = true := by
    rw [List.all_eq_not_any_not]
    simp [hregion]
  rw [exec_droopStretch, execDroopStretch, if_pos (.inr hnone)]

theorem exec_compensatingStretch_of_behind {s : State} (hbehind : 0 < (s.f R.BRG_STR_T + 65536 - s.f R.BRG_STR_S) % 65536)
    (hnear : (s.f R.BRG_STR_T + 65536 - s.f R.BRG_STR_S) % 65536 < 32768) :
    exec .compensatingStretch s = .next ((s.stretchAt (s.time.fc + 1)).arm .wall 2 .compensatingStretch) := by
  rw [exec_compensatingStretch, execCompensatingStretch]
  exact congrArg Host.Outcome.next (if_neg (by omega))

/-! A load of fabric time -/

theorem State.rearm_time (s : State) (w : Nat) (i : Instr) : (s.rearm w i).time = s.time :=
  (State.rearm_keeps w i (List.Subset.refl _) (.refl s)).time (by decide)

/-- What a load moves with it leaves the time it loads. -/
theorem State.setNow_loads (s : State) (n : Nat) : (s.setNow n).time.now = n % 2 ^ 64 * 300000 ∧ (s.setNow n).time.slow = 0 := by
  have hue (u : State) : (if u.armed .ueWindowReset then u.ueArm else u).time = u.time := by
    split
    · exact (State.ueArm_keeps (List.Subset.refl _) (.refl u)).time (by decide)
    · rfl
  rw [State.setNow, State.rearm_time, State.rearm_time, State.rearm_time]
  rw [State.foldl_keeps_part State.time _ _ fun u p => u.rearm_time _ _]
  rw [State.foldl_keeps_part State.time _ _ fun u p => (State.pollAgain_keeps _ (List.Subset.refl _) (.refl u)).time (by decide)]
  rw [State.foldl_keeps_part State.time _ _ fun u p => (State.dripArm_keeps p (List.Subset.refl _) (.refl u)).time (by decide)]
  rw [hue, State.foldl_keeps_part State.time _ _ fun u p => (State.setPart_keeps p _ (List.Subset.refl _) (.refl u)).time (by decide)]
  rw [(State.shiftFab_keeps _ (List.Subset.refl _) (.refl _)).time (by decide)]
  exact ⟨rfl, rfl⟩

/-- With no half held, a pair's lower half is what its register reads. -/
theorem State.takeLo_of_none {s : State} (hheld : s.loHeld = []) (m : Master) (k : Nat) : s.takeLo m k = (s, s.reg k) := by
  rw [State.takeLo, hheld]
  rfl

theorem exec_timSet_of_open {v : W32} {s : State} (hboot : s.bootLocked = false) (hheld : s.loHeld = []) (hopen : s.rgsShut (masterIdx .sec) = false) :
    exec (.timSet .sec v) s =
      .next (((s.setReg R.TIM_SET_LO (s.reg R.TIM_SET_LO)).setReg R.TIM_SET_HI v).setNow ((s.reg R.TIM_SET_LO).toNat + v.toNat * 2 ^ 32)) := by
  rw [exec_timSet, execTimSet, State.row_of_open hopen, hboot, beq_self_eq_true, Bool.not_false, Bool.true_and, State.gate_true,
    State.takeLo_of_none hheld]

theorem timSet_fields {v : W32} {s : State} (hboot : s.bootLocked = false) (hheld : s.loHeld = []) (hopen : s.rgsShut (masterIdx .sec) = false) :
    ∃ t, exec (.timSet .sec v) s = .next t ∧ t.time.now = ((s.reg R.TIM_SET_LO).toNat + v.toNat * 2 ^ 32) * 300000 ∧ t.time.slow = 0 ∧
      s.sameRegs [R.TIM_SET_LO, R.TIM_SET_HI] t := by
  have hfits : (s.reg R.TIM_SET_LO).toNat + v.toNat * 2 ^ 32 < 2 ^ 64 := by omega
  obtain ⟨hnow, hslow⟩ := State.setNow_loads ((s.setReg R.TIM_SET_LO (s.reg R.TIM_SET_LO)).setReg R.TIM_SET_HI v) ((s.reg R.TIM_SET_LO).toNat + v.toNat * 2 ^ 32)
  rw [Nat.mod_eq_of_lt hfits] at hnow
  refine ⟨_, exec_timSet_of_open hboot hheld hopen, hnow, hslow, fun k hk => ?_⟩
  obtain ⟨hlo, hhi⟩ : k ≠ R.TIM_SET_LO ∧ k ≠ R.TIM_SET_HI := by simpa using hk
  rw [State.setNow_reg, State.reg_setReg_other _ _ hhi, State.reg_setReg_other _ _ hlo]

/-! Beacons -/

theorem exec_beaconSend_of_new {n : Nat} {s : State} (hdie : s.die = 0) (hn : n = s.time.now / us 1 * 1000) (hnew : s.pwr.bcnVal ≠ some n) :
    exec .beaconSend s = .next ((({ s.arm .fab (us (n / 1000 + 1) - s.time.now) .beaconSend with pwr := { s.pwr with bcnVal := some n } } : State)).send (.beacon n 1)) := by
  have hpwr (k : Nat) : (s.arm .fab k .beaconSend).pwr = s.pwr := (State.arm_keeps .fab k _ (List.Subset.refl _) (.refl s)).frame .pwr (by decide)
  rw [exec_beaconSend, execBeaconSend, ← hn]
  dsimp only
  rw [if_neg (not_not_intro hdie), hpwr, if_neg hnew]

/-- A die that takes a new beacon watches for the next and sends it on with one more crossing. -/
def State.beaconTaken (s : State) (lane h : Fin 8) (v : Nat) : State :=
  (({ s with pwr := { s.pwr with bcnVal := some v } } : State).beaconWatch).send (.beacon v (h.val + 1)) none (some lane.val)

theorem State.beaconTaken_time (s : State) (lane h : Fin 8) (v : Nat) : (s.beaconTaken lane h v).time = s.time :=
  (State.send_keeps _ _ _ (List.Subset.refl _) (.refl _)).time (by decide)

theorem State.reg_beaconTaken (s : State) (lane h : Fin 8) (v k : Nat) : (s.beaconTaken lane h v).reg k = s.reg k :=
  (State.send_keeps _ _ _ (List.Subset.refl _) (.refl _)).reg (by decide) k

section
variable {lane h : Fin 8} {value : W64} {n : Nat} {s : State} (hdie : s.die ≠ 0) (hnew : s.pwr.bcnVal ≠ some value.toNat)
  (hn : n = value.toNat * 300000 + 44 * h.val * s.fcUnits)
include hdie hnew hn

theorem exec_beaconReceive_of_behind (hbehind : s.time.now < n) :
    exec (.beaconReceive lane value h) s = .next
      (((({ s.beaconTaken lane h value.toNat with time := { s.time with now := n, slow := 0, ao := s.time.ao + (n - s.time.now) } } : State)).put R.TIM_BCN_STAT_LAST_DIFF (sat16 true ((n - s.time.now) / 300000))).inc R.TIM_BCN_STAT_STEPS) := by
  have htime := s.beaconTaken_time lane h value.toNat
  rw [State.beaconTaken] at htime
  rw [exec_beaconReceive, execBeaconReceive, if_neg (by simp [hdie, hnew])]
  dsimp only
  rw [← hn, if_pos hbehind, htime]
  rfl

theorem exec_beaconReceive_of_ahead (hahead : n ≤ s.time.now) :
    exec (.beaconReceive lane value h) s = .next
      ((({ s.beaconTaken lane h value.toNat with time := { s.time with slow := s.time.now - n } } : State)).put R.TIM_BCN_STAT_LAST_DIFF (sat16 false ((s.time.now - n) / 300000))) := by
  have htime := s.beaconTaken_time lane h value.toNat
  rw [State.beaconTaken] at htime
  rw [exec_beaconReceive, execBeaconReceive, if_neg (by simp [hdie, hnew])]
  dsimp only
  rw [← hn, if_neg hahead.not_gt, htime]
  rfl

/-- A die that is behind steps forward; TIM.BCN_STAT shows the step and counts it. -/
theorem beaconReceive_of_behind (hbehind : s.time.now < n) :
    ∃ t, exec (.beaconReceive lane value h) s = .next t ∧ t.time.now = n ∧ t.time.slow = 0 ∧
      t.f R.TIM_BCN_STAT_LAST_DIFF = min ((n - s.time.now) / 300000) 32767 ∧ t.f R.TIM_BCN_STAT_STEPS = min (s.f R.TIM_BCN_STAT_STEPS + 1) 65535 ∧
      s.sameRegs [R.TIM_BCN_STAT] t := by
  refine ⟨_, exec_beaconReceive_of_behind hdie hnew hn hbehind, ?_⟩
  generalize hu : ({ s.beaconTaken lane h value.toNat with time := { s.time with now := n, slow := 0, ao := s.time.ao + (n - s.time.now) } } : State) = u
  have hreg (k : Nat) : u.reg k = s.reg k := by
    rw [← hu]
    exact s.reg_beaconTaken lane h value.toNat k
  have htime : u.time.now = n ∧ u.time.slow = 0 := by
    rw [← hu]
    exact ⟨rfl, rfl⟩
  have hsteps : (u.put R.TIM_BCN_STAT_LAST_DIFF (sat16 true ((n - s.time.now) / 300000))).f R.TIM_BCN_STAT_STEPS = s.f R.TIM_BCN_STAT_STEPS :=
    (State.f_put_apart _ _ _ _ (by decide) (by decide) (by decide) (by decide)).trans (State.f_congr (hreg _))
  rw [State.inc, State.incBy, hsteps]
  refine ⟨htime.1, htime.2, ?_, ?_, fun k hk => ?_⟩
  · rw [State.f_put_apart _ _ _ _ (by decide) (by decide) (by decide) (by decide)]
    exact State.f_put_fits _ (by decide) (by decide) (lt_of_le_of_lt (min_le_right _ 32767) (by decide))
  · exact State.f_put_fits _ (by decide) (by decide) (lt_of_le_of_lt (min_le_right _ 65535) (by decide))
  · have hne : k ≠ R.TIM_BCN_STAT := by simpa using hk
    rw [State.reg_put_other _ _ _ hne, State.reg_put_other _ _ _ hne, hreg]

/-- A die that is ahead keeps its time and runs slow for as long as it is ahead. -/
theorem beaconReceive_of_ahead (hahead : n ≤ s.time.now) :
    ∃ t, exec (.beaconReceive lane value h) s = .next t ∧ t.time.now = s.time.now ∧ t.time.slow = s.time.now - n ∧ s.sameRegs [R.TIM_BCN_STAT] t := by
  refine ⟨_, exec_beaconReceive_of_ahead hdie hnew hn hahead, rfl, rfl, fun k hk => ?_⟩
  rw [State.reg_put_other _ _ _ (by simpa using hk : k ≠ R.TIM_BCN_STAT)]
  exact s.reg_beaconTaken lane h value.toNat k

end

/-- Settles O49: stretches, the load of fabric time and beacons, each by its own rule. -/
theorem fabricTimeStretchesAndFollowsBeacons : Obligations.FabricTimeStretchesAndFollowsBeacons := by
  refine ⟨fun _ _ hen hregion => exec_droopStretch_of_region hen hregion, fun _ _ hregion => exec_droopStretch_of_none hregion,
    fun _ hbehind hnear => exec_compensatingStretch_of_behind hbehind hnear, fun _ _ hboot hheld hopen => timSet_fields hboot hheld hopen,
    fun _ _ hdie hn hnew => exec_beaconSend_of_new hdie hn hnew, fun _ _ _ _ _ hdie hnew hn hbehind => beaconReceive_of_behind hdie hnew hn hbehind,
    fun _ _ _ _ _ hdie hnew hn hahead => beaconReceive_of_ahead hdie hnew hn hahead, fun s hdie hlane hlate => ?_⟩
  rw [exec_beaconLoss, execBeaconLoss, if_pos ⟨hdie, hlane, hlate⟩]

end Sys2Proof.Machine
end

section
/-! SUPPORT. Bytes and words of the memories after a write of successive bytes (R8, R411). -/
namespace Sys2Proof.Machine

@[simp] theorem length_leBytes (n v : Nat) : (leBytes n v).length = n := by
  induction n generalizing v with
  | zero => rfl
  | succ n ih => rw [leBytes, List.length_cons, ih]

/-- The bytes of a number read as it, cut to so many bytes. -/
theorem leNat_leBytes (n v : Nat) : leNat (leBytes n v) = v % 256 ^ n := by
  induction n generalizing v with
  | zero => rw [Nat.pow_zero, Nat.mod_one]; rfl
  | succ n ih =>
    have hbyte : (BitVec.ofNat 8 v).toNat = v % 256 := BitVec.toNat_ofNat v 8
    rw [leBytes, leNat, ih, hbyte, Nat.pow_succ', Nat.mod_mul]

@[simp] theorem State.length_cells (s : State) (a n : Nat) : (s.cells a n).length = n := by
  rw [State.cells, List.length_map, List.length_range]

/-- Bytes that lie among others. -/
theorem State.cells_within (s : State) {a k j n : Nat} (h : k + j ≤ n) : s.cells (a + k) j = ((s.cells a n).drop k).take j := by
  refine List.ext_getElem (by simp; omega) fun i _ _ => ?_
  simp [State.cells, Nat.add_assoc]

theorem State.cells_congr {s t : State} {a n : Nat} (h : ∀ i < n, t.cell (a + i) = s.cell (a + i)) : t.cells a n = s.cells a n :=
  List.map_congr_left fun i hi => h i (List.mem_range.mp hi)

theorem State.cells_setCells_same (s : State) (a : Nat) (l : List Byte) : (s.setCells a l).cells a l.length = l := by
  refine List.ext_getElem (State.length_cells _ _ _) fun i _ hi => ?_
  simp [State.cells, State.cell_setCells s a l i hi, hi]

theorem State.cell_setMs32_other (s : State) {off a : Nat} (v : Nat) (h : a < msram off ∨ msram off + 4 ≤ a) : (s.setMs32 off v).cell a = s.cell a :=
  State.cell_setCells_other s _ _ (by rwa [length_leBytes])

theorem State.ms32_setMs32_same (s : State) (off v : Nat) : (s.setMs32 off v).ms32 off = v % 2 ^ 32 := by
  have hword := s.cells_setCells_same (msram off) (leBytes 4 v)
  rw [length_leBytes] at hword
  rw [State.ms32, State.setMs32, hword, leNat_leBytes]
  rfl

theorem State.ms32_congr {s t : State} {off : Nat} (h : ∀ i < 4, t.cell (msram off + i) = s.cell (msram off + i)) : t.ms32 off = s.ms32 off :=
  congrArg leNat (State.cells_congr h)

/-- An operation whose frame holds the memories leaves their words. -/
theorem Keeps.ms32 {K : List Part} {s t : State} (h : Keeps K s t) (hk : Part.mem ∉ K) (off : Nat) : t.ms32 off = s.ms32 off := by
  have hmem : t.mem = s.mem := h.frame .mem hk
  exact State.ms32_congr fun i _ => congrArg (fun m => SMap.get 0 m (msram off + i)) hmem

end Sys2Proof.Machine
end

section
/-! PROOFS. The rings, the doorbell and the HINT bits (R440 to R443, R450, R452, R470). -/
namespace Sys2Proof.Machine

theorem exec_doorbell (m : Master) (v : W32) (s : State) : exec (.doorbell m v) s = execDoorbell m v s := rfl
theorem exec_submissionTake (s : State) : exec .submissionTake s = execSubmissionTake s := rfl
theorem exec_completionPost (core : Core) (s : State) : exec (.completionPost core) s = execCompletionPost core s := rfl
theorem exec_eventPost (core : Core) (s : State) : exec (.eventPost core) s = execEventPost core s := rfl
theorem exec_hintSet (m : Master) (v : W32) (s : State) : exec (.hintSet m v) s = execHintSet m v s := rfl
theorem exec_hintStatClear (m : Master) (v : W32) (s : State) : exec (.hintStatClear m v) s = execHintStatClear m v s := rfl

/-! A core that takes and posts -/

theorem State.coreIn_of_live {s : State} {m : Nat} (h : s.coreLive m = true) : s.coreIn m = true := (Bool.and_eq_true_iff.mp h).1

theorem State.postReady_of_live {s : State} {m : Nat} (hlive : s.coreLive m = true) (hheld : s.msramHeld = false) (hopen : s.rgsShut m = false) :
    s.postReady m = true := by
  rw [State.postReady, hlive, hheld, hopen]
  rfl

theorem State.rgsShut_congr {s t : State} (hcmx : t.cmx = s.cmx) (htime : t.time = s.time) (m : Nat) : t.rgsShut m = s.rgsShut m := by
  have hcyc : t.cyc = s.cyc := by rw [State.cyc, htime, State.cyc]
  rw [State.rgsShut, hcmx, hcyc, State.rgsShut]

/-- Whether a core posts follows from the registers, the masks and the control matrix. -/
theorem State.postReady_congr {s t : State} (hregs : t.regs = s.regs) (hmasked : t.masked = s.masked) (hcmx : t.cmx = s.cmx) (htime : t.time = s.time)
    (m : Nat) : t.postReady m = s.postReady m := by
  simp only [State.postReady, State.rgsShut_congr hcmx htime, State.coreLive, State.coreIn, State.msramHeld, State.bit, State.f, State.reg, hregs, hmasked, hcmx]

/-! Taking a submission -/

section
variable {d : Nat} {j : Job} {s : State} (hbell : s.mgt.bell = true) (hlive : s.coreLive 2 = true) (hheld : s.msramHeld = false) (hopen : s.rgsShut 2 = false)
  (hboot : 13 ≤ s.f R.HLM_BOOT_STAT_STEP) (hd : d = (s.ms32 0x60000 + 2 ^ 32 - s.ms32 0x60040) % 2 ^ 32) (hpos : 0 < d) (hle : d ≤ 1024)
  (hj : j = s.entryAt (s.ms32 0x60040))
include hbell hlive hheld hopen hboot hd hpos hle hj

/-- SCH copies the entry at the head and moves the head on (R440, R445). -/
theorem exec_submissionTake_of_entry {u : State}
    (hu : u = { ((s.ringGood 0).setMs32 0x60040 ((s.ms32 0x60040 + 1) % 2 ^ 32)).arm .real (ns 1) .submissionTake with mgt := { (s.ringGood 0).mgt with jobs := s.mgt.jobs ++ [j] } }) :
    exec .submissionTake s = .next (if (sqRow j.op 0 false).isSome then u.jobGo j (ns 1) else u.jobEnd j 1 0) := by
  have hready := State.postReady_of_live hlive hheld hopen
  have hmgt : (((s.ringGood 0).setMs32 0x60040 ((s.ms32 0x60040 + 1) % 2 ^ 32)).arm .real (ns 1) .submissionTake).mgt = (s.ringGood 0).mgt :=
    (State.arm_keeps (K := [.agenda, .mem]) _ _ _ (by decide) (State.setMs32_keeps _ _ (by decide) (.refl _))).frame .mgt (by decide)
  rw [exec_submissionTake, execSubmissionTake]
  dsimp only
  rw [← hd, ← hj, hbell, State.coreIn_of_live hlive, hready, decide_eq_false hboot.not_gt, if_neg (by simp), if_neg (by simp), if_neg hle.not_gt,
    if_neg hpos.ne', hmgt, hu]
  rfl

end

/-! Posting an entry -/

theorem State.setMs32_mgt (s : State) (off v : Nat) : (s.setMs32 off v).mgt = s.mgt :=
  (State.setMs32_keeps off v (List.Subset.refl _) (.refl s)).frame .mgt (by decide)

theorem State.ringPost_mgt (s : State) (m : Nat) (r : Ring) (b : List Byte) :
    (s.ringPost m r b).mgt = { s.mgt with journal := SMap.insert s.mgt.journal m (r.base, s.ms32 r.rsv, s.entryBytes r (s.ms32 r.rsv) b) } := by
  rw [State.ringPost, State.setMs32_mgt, State.setMs32_mgt, (State.setCells_keeps _ _ (List.Subset.refl _) (.refl _)).frame .mgt (by decide), State.setMs32_mgt]

theorem State.hintSet_posts (s : State) (i : Nat) : (s.hintSet i).mgt.posts = s.mgt.posts := rfl

theorem exec_completionPost_of_space {core : Core} {b : List Byte} {s u w : State} (hlive : s.coreLive core = true) (hheld : s.msramHeld = false)
    (hopen : s.rgsShut core = false) (hreopen : s.mgt.reopen.contains core.val = false)
    (hpost : s.mgt.posts.find? (fun y => decide (y.1 = core.val)) = some (core.val, b)) (hspace : s.ringUsed cqRing < 1024)
    (hu : u = if core.val = 2 then s.jobsGo (fun j => decide (0 < j.stage) && (decide (j.op = 5) || decide (j.op = 7))) else s)
    (hw : w = ((u.ringGood 1).ringPost core cqRing b).hintSet 0) :
    exec (.completionPost core) s = .next (({ w with mgt := { w.mgt with posts := s.mgt.posts.erase (core.val, b) } } : State).arm .real (ns 1) (.completionPost core)) := by
  have hkeeps : Keeps [.agenda] s u := by
    rw [hu]
    split
    · exact State.jobsGo_keeps _ (List.Subset.refl _) (.refl s)
    · exact .refl s
  have hmgt : u.mgt = s.mgt := hkeeps.frame .mgt (by decide)
  have hused : u.ringUsed cqRing = s.ringUsed cqRing := by
    rw [State.ringUsed, hkeeps.ms32 (by decide), hkeeps.ms32 (by decide), State.ringUsed]
  have hready : u.postReady core = true :=
    (State.postReady_congr (hkeeps.frame .regs (by decide)) (hkeeps.frame .masked (by decide)) (hkeeps.frame .cmx (by decide)) (hkeeps.time (by decide)) core).trans (State.postReady_of_live hlive hheld hopen)
  have hposts : w.mgt.posts = s.mgt.posts := by
    rw [hw, State.hintSet_posts, State.ringPost_mgt, ← hmgt]
    rfl
  rw [exec_completionPost, execCompletionPost]
  dsimp only
  rw [State.coreIn_of_live hlive, Bool.not_true, if_neg Bool.false_ne_true, ← hu, hmgt, hreopen, if_neg Bool.false_ne_true, hpost]
  dsimp only
  rw [hready, Bool.not_true, if_neg Bool.false_ne_true, hused, if_neg (by omega), if_neg (by omega), ← hw, hposts]

/-- The write of an entry: the index reserved, the entry at its place, OPEN_m clear; `e` is the entry (R441). -/
theorem State.cell_ringPost {s : State} {m : Nat} (b : List Byte) (hm : m < 11) {e : List Byte} (he : e = s.entryBytes cqRing (s.ms32 0x60080) b)
    (hlen : e.length = 64) :
    (∀ i < 64, (s.ringPost m cqRing b).cell (msram (0x71000 + 64 * (s.ms32 0x60080 % 1024)) + i) = e.getD i 0) ∧
    (∀ i < 4, (s.ringPost m cqRing b).cell (msram 0x60080 + i) = (s.setMs32 0x60080 ((s.ms32 0x60080 + 1) % 2 ^ 32)).cell (msram 0x60080 + i)) ∧
    (∀ i < 8, (s.ringPost m cqRing b).cell (msram (0x60200 + 8 * m) + i) = 0) ∧
    (∀ a, ¬(msram 0x60080 ≤ a ∧ a < msram 0x60084) → ¬(msram (0x71000 + 64 * (s.ms32 0x60080 % 1024)) ≤ a ∧ a < msram (0x71000 + 64 * (s.ms32 0x60080 % 1024)) + 64) →
      ¬(msram (0x60200 + 8 * m) ≤ a ∧ a < msram (0x60208 + 8 * m)) → (s.ringPost m cqRing b).cell a = s.cell a) := by
  have hplace : s.ms32 0x60080 % 1024 < 1024 := Nat.mod_lt _ (by decide)
  have hpost : s.ringPost m cqRing b = (((({ s with mgt := { s.mgt with journal := SMap.insert s.mgt.journal m (cqRing.base, s.ms32 0x60080, e) } } : State).setMs32 0x60080 ((s.ms32 0x60080 + 1) % 2 ^ 32)).setCells (msram (0x71000 + 64 * (s.ms32 0x60080 % 1024))) e).setMs32 (0x60200 + 8 * m) 0).setMs32 (0x60200 + 8 * m + 4) 0 := by
    rw [he]
    rfl
  generalize s.ms32 0x60080 % 1024 = p at hplace hpost ⊢
  have hzero (i : Nat) (hi : i < 4) : (leBytes 4 0).getD i 0 = 0 := by interval_cases i <;> rfl
  unfold msram at hpost ⊢
  rw [hpost]
  refine ⟨fun i hi => ?_, fun i hi => ?_, fun i hi => ?_, fun a hindex hentry hclear => ?_⟩
  · rw [State.cell_setMs32_other _ _ (by unfold msram; omega), State.cell_setMs32_other _ _ (by unfold msram; omega), State.cell_setCells _ _ _ _ (by omega)]
  · rw [State.cell_setMs32_other _ _ (by unfold msram; omega), State.cell_setMs32_other _ _ (by unfold msram; omega), State.cell_setCells_other _ _ _ (by omega)]
    rfl
  · by_cases hlow : i < 4
    · rw [State.cell_setMs32_other _ _ (by unfold msram; omega), State.setMs32, msram, State.cell_setCells _ _ _ _ (by simpa using hlow), hzero i hlow]
    · obtain ⟨k, rfl⟩ := Nat.exists_eq_add_of_le (Nat.le_of_not_lt hlow)
      have hk : k < 4 := by omega
      have haddr : 0x80000000 + (0x60200 + 8 * m) + (4 + k) = msram (0x60200 + 8 * m + 4) + k := by
        unfold msram
        omega
      rw [haddr, State.setMs32, State.cell_setCells _ _ _ _ (by simpa using hk), hzero k hk]
  · rw [State.cell_setMs32_other _ _ (by unfold msram; omega), State.cell_setMs32_other _ _ (by unfold msram; omega), State.cell_setCells_other _ _ _ (by omega),
      State.cell_setMs32_other _ _ (by unfold msram; omega)]
    rfl

/-- Of 48 bytes the entry holds them, then the time, then PHASE in its last byte (R441, R447). -/
theorem State.entryBytes_parts (s : State) (i : Nat) {b : List Byte} (hb : b.length = 48) :
    (s.entryBytes cqRing i b).length = 64 ∧ (s.entryBytes cqRing i b).take 48 = b ∧ ((s.entryBytes cqRing i b).drop 48).take 8 = leBytes 8 s.now ∧
      (s.entryBytes cqRing i b).getD 63 0 = if i / 1024 % 2 = 0 then 1 else 0 := by
  have htake : b.take 48 = b := List.take_of_length_le hb.le
  have hphase : leBytes 1 (1 - i / cqRing.n % 2) = [if i / 1024 % 2 = 0 then 1 else 0] := by
    rcases Nat.mod_two_eq_zero_or_one (i / 1024) with h | h <;> simp [leBytes, cqRing, h]
  rw [State.entryBytes, htake, hphase]
  refine ⟨by simp [hb], ?_, ?_, ?_⟩
  · simp [hb]
  · simp [hb]
  · simp [hb]

theorem State.ringPost_cells {m : Nat} {b : List Byte} (s : State) (hm : m < 11) (hb : b.length = 48) :
    (s.ringPost m cqRing b).cells (msram (0x71000 + 64 * (s.ms32 0x60080 % 1024))) 48 = b ∧
    (s.ringPost m cqRing b).cells (msram (0x71000 + 64 * (s.ms32 0x60080 % 1024)) + 48) 8 = leBytes 8 s.now ∧
    (s.ringPost m cqRing b).ms32 0x60080 = (s.ms32 0x60080 + 1) % 2 ^ 32 ∧
    (s.ringPost m cqRing b).cell (msram (0x71000 + 64 * (s.ms32 0x60080 % 1024)) + 63) = (if s.ms32 0x60080 / 1024 % 2 = 0 then 1 else 0) ∧
    (s.ringPost m cqRing b).cells (msram (0x60200 + 8 * m)) 8 = List.replicate 8 0 := by
  obtain ⟨hlen, hhead, htime, hphase⟩ := s.entryBytes_parts (s.ms32 0x60080) hb
  obtain ⟨hentry, hindex, hclear, -⟩ := State.cell_ringPost b hm rfl hlen
  have hcells : (s.ringPost m cqRing b).cells (msram (0x71000 + 64 * (s.ms32 0x60080 % 1024))) 64 = s.entryBytes cqRing (s.ms32 0x60080) b := by
    refine List.ext_getElem (by simp [hlen]) fun i hi hi' => ?_
    have hi : i < 64 := by simpa using hi
    simp [State.cells, hentry i hi, hi']
  refine ⟨?_, ?_, ?_, ?_, ?_⟩
  · have hwithin := (s.ringPost m cqRing b).cells_within (a := msram (0x71000 + 64 * (s.ms32 0x60080 % 1024))) (by decide : 0 + 48 ≤ 64)
    rwa [hcells, List.drop_zero, hhead] at hwithin
  · rw [State.cells_within _ (by decide : 48 + 8 ≤ 64), hcells, htime]
  · rw [State.ms32_congr hindex, State.ms32_setMs32_same, Nat.mod_mod]
  · rw [hentry 63 (by decide), hphase]
  · refine List.ext_getElem (by simp) fun i hi _ => ?_
    have hi : i < 8 := by simpa using hi
    rw [List.getElem_replicate]
    simp [State.cells, hclear i hi]

theorem exec_eventPost_of_ready {core : Core} {es : List (Nat × Nat × Nat)} {s u : State} (hup : ¬(3 ≤ core.val ∧ s.coreDown core = true))
    (hlive : s.coreLive core = true) (hboot : 13 ≤ s.f R.HLM_BOOT_STAT_STEP) (hheld : s.msramHeld = false) (hopen : s.rgsShut core = false)
    (hreopen : s.mgt.reopen.contains core.val = false)
    (hes : es = s.events.filter (fun y => decide (y.1 = core.val) || (decide (core.val = 0) && decide (3 ≤ y.1) && s.coreDown y.1)))
    (hsome : es.isEmpty = false ∨ (core.val = 0 ∧ s.logsWait = true))
    (hu : u = es.foldl (fun z y => z.eventTo core y.2.1 y.2.2) { s with events := s.events.filter (fun y => !(decide (y.1 = core.val) || (decide (core.val = 0) && decide (3 ≤ y.1) && s.coreDown y.1))) }) :
    exec (.eventPost core) s = .next (if core.val = 0 then u.logReports else u) := by
  have hwork : (!s.events.any (fun y => decide (y.1 = core.val) || (decide (core.val = 0) && decide (3 ≤ y.1) && s.coreDown y.1)) &&
      !(decide (core.val = 0) && s.logsWait)) = false := by
    rcases hsome with hsome | ⟨hsec, hlogs⟩
    · obtain ⟨e, he⟩ := List.exists_mem_of_ne_nil es (by simpa using hsome)
      rw [hes] at he
      have hany := List.any_eq_true.mpr ⟨e, List.mem_filter.mp he⟩
      rw [hany]
      rfl
    · rw [hsec, hlogs]
      simp
  rw [exec_eventPost, execEventPost]
  dsimp only
  rw [if_neg hup, State.coreIn_of_live hlive, decide_eq_false hboot.not_gt, if_neg (by simp), hwork, if_neg Bool.false_ne_true,
    State.postReady_of_live hlive hheld hopen, hreopen, if_neg (by simp), ← hes, ← hu]

theorem State.eventTo_of_space {core typ detail : Nat} {s u : State} (hspace : s.ringUsed eqRing < 512) (hlost : s.ms32 0x60180 = 0)
    (hu : u = (s.ringGood 2).ringPost core eqRing (eqHead core typ s.mgt.evSeq detail)) :
    s.eventTo core typ detail = ({ u with mgt := { u.mgt with evSeq := (s.mgt.evSeq + 1) % 65536 } } : State).hintSet 1 := by
  have hgood : (s.ringGood 2).mgt.evSeq = s.mgt.evSeq := rfl
  have hseq : u.mgt.evSeq = s.mgt.evSeq := by rw [hu, State.ringPost_mgt, hgood]
  rw [State.eventTo]
  dsimp only
  rw [if_neg (by omega), if_neg (by omega), if_pos hlost, hgood, ← hu, hseq]

/-! HINT bits -/

theorem State.hintSet_reads (s : State) {i : Nat} (hi : i < 3) : (s.hintSet i).bit (bitFld R.MGT_HINT_STAT i) = true ∧
    (∀ j < 3, j ≠ i → (s.hintSet i).bit (bitFld R.MGT_HINT_STAT j) = s.bit (bitFld R.MGT_HINT_STAT j)) ∧ s.sameRegs [R.MGT_HINT_STAT] (s.hintSet i) := by
  refine ⟨?_, fun j hj hne => ?_, fun k hk => ?_⟩
  · rw [State.bit, State.hintSet, State.f_put_fits _ (Nat.le_refl i) (by exact hi.trans (by decide)) (by simp [bitFld, Fld.width])]
    rfl
  · rw [State.bit, State.hintSet, State.f_put_apart _ _ _ _ (Nat.le_refl i) (by exact hi.trans (by decide)) (Nat.le_refl j) (by simp only [bitFld]; omega)]
    rfl
  · exact State.reg_put_other _ _ _ (by simpa using hk : k ≠ R.MGT_HINT_STAT)

/-- A core sets the bits it names; the others stay. -/
theorem hintSet_fields {m : Master} {v : W32} {s : State} (hhrp : m ≠ .hrp) (hdbg : m ≠ .dbg) (hopen : s.rgsShut (masterIdx m) = false) :
    ∃ t, exec (.hintSet m v) s = .next t ∧ t.bit R.MGT_HINT_STAT_CMPL = (vbit v 0 || s.bit R.MGT_HINT_STAT_CMPL) ∧
      t.bit R.MGT_HINT_STAT_EVT = (vbit v 1 || s.bit R.MGT_HINT_STAT_EVT) ∧ s.sameRegs [R.MGT_HINT_STAT] t := by
  have hm : (!(m == .hrp || m == .dbg)) = true := by
    rw [beq_false_of_ne hhrp, beq_false_of_ne hdbg]
    rfl
  refine ⟨(if vbit v 1 then (if vbit v 0 then s.hintSet 0 else s).hintSet 1 else (if vbit v 0 then s.hintSet 0 else s)), ?_, ?_⟩
  · rw [exec_hintSet, execHintSet, State.row_of_open hopen, hm, State.gate_true]
  have hset (i : Nat) (hi : i < 2) (u : State) : ∃ w, (if vbit v i then u.hintSet i else u) = w ∧
      w.bit (bitFld R.MGT_HINT_STAT i) = (vbit v i || u.bit (bitFld R.MGT_HINT_STAT i)) ∧
      w.bit (bitFld R.MGT_HINT_STAT (1 - i)) = u.bit (bitFld R.MGT_HINT_STAT (1 - i)) ∧ u.sameRegs [R.MGT_HINT_STAT] w := by
    refine ⟨_, rfl, ?_⟩
    obtain ⟨hsame, hother, hregs⟩ := u.hintSet_reads (i := i) (by omega)
    cases vbit v i
    · exact ⟨(Bool.false_or _).symm, rfl, fun _ _ => rfl⟩
    · exact ⟨hsame.trans (Bool.true_or _).symm, hother _ (by omega) (by omega), hregs⟩
  obtain ⟨u, hu, hcmpl, hevt, hregs⟩ := hset 0 (by decide) s
  obtain ⟨w, hw, hevt', hcmpl', hregs'⟩ := hset 1 (by decide) u
  rw [hu, hw]
  exact ⟨hcmpl'.trans hcmpl, hevt'.trans (congrArg (vbit v 1 || ·) hevt), fun k hk => (hregs' k hk).trans (hregs k hk)⟩

/-- Settles O50: the doorbell and the HINT bits by their rows, a take by the entry at the head, a post by the place it reserves and the bytes it
writes. -/
theorem ringsTakeAndPostEntries : Obligations.RingsTakeAndPostEntries := by
  refine ⟨?doorbell, ?take, ?badOp, ?post, ?bytes, ?event, ?eventTo, ?hintSet, ?hintClear⟩
  case doorbell =>
    intro m v s hm hgo hopen
    rw [exec_doorbell, execDoorbell, State.row_of_open hopen, hm, State.gate_true, hgo]
    rfl
  case take =>
    intro d j s hbell hlive hheld hopen hboot hd hpos hle hj hop
    rw [exec_submissionTake_of_entry hbell hlive hheld hopen hboot hd hpos hle hj rfl, if_pos hop]
  case badOp =>
    intro d j s hbell hlive hheld hopen hboot hd hpos hle hj hop
    rw [exec_submissionTake_of_entry hbell hlive hheld hopen hboot hd hpos hle hj rfl, hop, if_neg Bool.false_ne_true]
  case post =>
    exact fun _ _ _ _ _ hlive hheld hopen hreopen hpost hspace hu hw => exec_completionPost_of_space hlive hheld hopen hreopen hpost hspace hu hw
  case bytes =>
    intro m b s hm hb
    obtain ⟨hhead, htime, hindex, hphase, hclear⟩ := s.ringPost_cells hm hb
    obtain ⟨-, -, -, hframe⟩ := State.cell_ringPost b hm rfl (s.entryBytes_parts (s.ms32 0x60080) hb).1
    exact ⟨hhead, htime, hindex, hphase, hclear, hframe⟩
  case event =>
    exact fun _ _ _ _ hup hlive hboot hheld hopen hreopen hes hsome hu => exec_eventPost_of_ready hup hlive hboot hheld hopen hreopen hes hsome hu
  case eventTo => exact fun _ _ _ _ _ hspace hlost hu => State.eventTo_of_space hspace hlost hu
  case hintSet => exact fun _ _ _ hhrp hdbg hopen => hintSet_fields hhrp hdbg hopen
  case hintClear =>
    intro m v s hm hopen
    rw [exec_hintStatClear, execHintStatClear, State.row_of_open hopen, hm, State.gate_true]
    rfl

end Sys2Proof.Machine
end

section
/-! PROOFS. The submissions of PWC and of firmware: operating point, power states, staged images, activations (R446, R462 to R465, R498). -/
namespace Sys2Proof.Machine

theorem exec_sqOppoint (i : W32) (s : State) : exec (.sqOppoint i) s = execSqOppoint i s := rfl
theorem exec_sqPstate (i : W32) (s : State) : exec (.sqPstate i) s = execSqPstate i s := rfl
theorem exec_sqStage (i : W32) (ok : Bool) (s : State) : exec (.sqStage i ok) s = execSqStage i ok s := rfl
theorem exec_sqFwact (i : W32) (s : State) : exec (.sqFwact i) s = execSqFwact i s := rfl

/-- The code of a failed check stands beside the role's state, in the same register. -/
theorem State.roleState_lastRej (s : State) (r k kind m detail addr : Nat) :
    ((s.mgtErr kind m detail addr).put (R.MGT_IMG_STAT_LAST_REJ r) k).roleState r = s.roleState r :=
  (State.f_put_apart _ (R.MGT_IMG_STAT_LAST_REJ r) (R.MGT_IMG_STAT_STATE r) k (by decide : 8 ≤ 11) (by decide : 11 < 32) (by decide : 0 ≤ 2)
    (.inr (by decide : 2 < 8))).trans (State.f_err _ _ _)

/-- The bytes of an image's body go to its slot; no other byte and no register changes (R437, R462). -/
theorem State.imgCopy_body (s : State) (r slot : Nat) {b : List Byte} (hlen : (b.drop 0x100).length = imgField b 0x00C 4) :
    (s.imgCopy r slot b).1.cells (msram (slotOff r slot)) (imgField b 0x00C 4) = b.drop 0x100 ∧
      s.sameCells (msram (slotOff r slot)) (imgField b 0x00C 4) (s.imgCopy r slot b).1 ∧ (s.imgCopy r slot b).1.regs = s.regs := by
  have hbody : (b.drop 0x100).take (imgField b 0x00C 4) = b.drop 0x100 := List.take_of_length_le hlen.le
  have hcell (a : Nat) : (s.imgCopy r slot b).1.cell a = (s.setCells (msram (slotOff r slot)) (b.drop 0x100)).cell a := by
    rw [State.imgCopy, hbody]
    rfl
  refine ⟨?_, fun a ha => ?_, (State.imgCopy_keeps r slot b (List.Subset.refl _) (.refl s)).frame .regs (by decide)⟩
  · rw [State.cells_congr fun i _ => hcell _, ← hlen, State.cells_setCells_same]
  · rw [hcell, State.cell_setCells_other s _ _ (by rwa [hlen])]

/-- Settles O55, clause by clause: the submission starts or goes on (`State.sq_of_turn`, `State.sq_of_started`), and its premises pick the branch of
what it then does. -/
theorem powerAndFirmwareSubmissionsComplete : Obligations.PowerAndFirmwareSubmissionsComplete := by
  refine ⟨?oppoint, ?thawed, ?pstate, ?reached, ?sleep, ?stage, ?failed, ?persisted, ?copied, ?fwact, ?activated⟩
  case oppoint =>
    intro i j s hfind hdown hlive hopen hstage hturn hformed hrange
    rw [exec_sqOppoint, execSqOppoint]
    dsimp only
    rw [State.sq_of_turn hfind hdown hlive hopen hstage hturn hformed hrange]
    simp only [hstage]
  case thawed =>
    intro i j s hfind hdown hlive hopen hstage hthawed hacc hresult
    rw [exec_sqOppoint, execSqOppoint]
    dsimp only
    rw [State.sq_of_started hfind hdown hlive hopen (by rw [hstage]; decide)]
    simp only [hstage, hthawed, hacc, hresult, Bool.false_eq_true, Nat.zero_ne_one, reduceIte]
  case pstate =>
    intro i j s hfind hdown hlive hopen hstage hturn hformed hrange htarget
    rw [exec_sqPstate, execSqPstate]
    dsimp only
    rw [State.sq_of_turn hfind hdown hlive hopen hstage hturn hformed hrange]
    simp only [htarget.ne, hstage, reduceIte]
  case reached =>
    intro i j cabs s hfind hdown hlive hopen hstage htarget hcabs hcmds hbusy hgood
    have hnone : cabs.filter (fun p => decide (SMap.get 0 s.pwr.res p ≠ 0)) = [] := by
      rw [List.filter_eq_nil_iff]
      intro p hp
      simpa using List.all_eq_true.mp hgood p hp
    have hne : j.stage ≠ 0 := by rw [hstage]; decide
    rw [exec_sqPstate, execSqPstate]
    dsimp only
    rw [State.sq_of_started hfind hdown hlive hopen hne]
    simp only [htarget.ne, hne, ← hcabs, hcmds, hbusy, hnone, Bool.or_self, Bool.false_eq_true, reduceIte]
  case sleep =>
    intro i j u s hfind hdown hlive hopen hstage hturn hformed hrange htarget hu
    rw [exec_sqPstate, execSqPstate]
    dsimp only
    rw [State.sq_of_turn hfind hdown hlive hopen hstage hturn hformed hrange]
    simp only [htarget, hstage, ← hu, reduceIte]
    rfl
  case stage =>
    intro i ok j s hfind hdown hlive hopen hstage hturn hformed hrange hrole
    have hleads : ¬(s.roleState (j.opnd 8 1) ≠ 0 ∧ s.roleState (j.opnd 8 1) ≠ 2) := by tauto
    rw [exec_sqStage, execSqStage]
    dsimp only
    rw [State.sq_of_turn hfind hdown hlive hopen hstage hturn hformed hrange]
    simp only [hstage, hleads, reduceIte]
  case failed =>
    intro i ok j k s hfind hdown hlive hopen hstage hdue hheld hk hbad
    have hne : j.stage ≠ 0 := by rw [hstage]; decide
    rw [exec_sqStage, execSqStage]
    dsimp only
    rw [State.sq_of_started hfind hdown hlive hopen hne]
    simp only [hstage, hdue.not_gt, hheld, ← hk, hbad, State.roleState_lastRej, Bool.false_eq_true, one_ne_zero, ne_eq, not_false_eq_true, reduceIte]
  case persisted =>
    intro i ok j s hfind hdown hlive hopen hstage hdue hheld
    have hne : j.stage ≠ 0 := by rw [hstage]; decide
    have hlast : j.stage ≠ 1 := by rw [hstage]; decide
    rw [exec_sqStage, execSqStage]
    dsimp only
    rw [State.sq_of_started hfind hdown hlive hopen hne]
    simp only [hne, hlast, hdue.not_gt, hheld, Bool.false_eq_true, reduceIte]
  case copied => exact fun r slot b s _ _ _ hlen => s.imgCopy_body r slot hlen
  case fwact =>
    intro i j s hfind hdown hlive hopen hstage hturn hformed hrange hrole
    rw [exec_sqFwact, execSqFwact]
    dsimp only
    rw [State.sq_of_turn hfind hdown hlive hopen hstage hturn hformed hrange]
    simp only [hstage, hrole, ne_eq, not_true_eq_false, reduceIte]
    rfl
  case activated =>
    intro i j s hfind hdown hlive hopen hstage houtcome
    have hne : j.stage ≠ 0 := by rw [hstage]; decide
    rw [exec_sqFwact, execSqFwact]
    dsimp only
    rw [State.sq_of_started hfind hdown hlive hopen hne]
    simp only [hne, houtcome, reduceIte]

end Sys2Proof.Machine
end

section
/-! SUPPORT. Folds over indices: registers of a row each written once, and a step that follows a part that the fold keeps. -/
namespace Sys2Proof.Machine

/-- Registers of a row with keys of their own each read what was written; the others are left. -/
theorem State.reg_setRow (s : State) {key : Nat → Nat} (g : Nat → W32) (hinj : ∀ i j, key i = key j → i = j) (n : Nat) :
    (∀ j < n, ((List.range n).foldl (fun s j => s.setReg (key j) (g j)) s).reg (key j) = g j) ∧
      ∀ k, (∀ j < n, k ≠ key j) → ((List.range n).foldl (fun s j => s.setReg (key j) (g j)) s).reg k = s.reg k := by
  induction n with
  | zero => exact ⟨fun _ hj => absurd hj (Nat.not_lt_zero _), fun _ _ => rfl⟩
  | succ n ih =>
    obtain ⟨hrow, hrest⟩ := ih
    rw [List.range_succ, List.foldl_append]
    refine ⟨fun j hj => ?_, fun k hk => ?_⟩
    · rcases Nat.lt_succ_iff_lt_or_eq.mp hj with hlt | rfl
      · exact (State.reg_setReg_other _ _ fun e => hlt.ne (hinj _ _ e)).trans (hrow j hlt)
      · exact State.reg_setReg_same _ _ _
    · exact (State.reg_setReg_other _ _ (hk n (Nat.lt_succ_self n))).trans (hrest k fun j hj => hk j (Nat.lt_succ_of_lt hj))

/-- Two steps that agree where a property holds, which the second keeps, fold alike. -/
theorem foldl_eq_of_kept {α β : Type} {P : β → Prop} {f g : β → α → β} (l : List α) {b : β} (hb : P b) (hkeep : ∀ u a, P u → P (g u a))
    (heq : ∀ u a, P u → f u a = g u a) : l.foldl f b = l.foldl g b := by
  induction l generalizing b with
  | nil => rfl
  | cons a l ih => rw [List.foldl_cons, List.foldl_cons, heq b a hb, ih (hkeep b a hb)]

theorem State.arm_boot (s : State) (c : Clock) (n : Nat) (i : Instr) : (s.arm c n i).boot = s.boot :=
  (State.arm_keeps c n i (List.Subset.refl _) (.refl s)).frame .boot (by decide)

theorem State.event_events (s : State) (core typ detail : Nat) : (s.event core typ detail).events = s.events ++ [(core, typ, detail)] :=
  (State.arm_keeps _ _ _ (List.Subset.refl _) (.refl _)).frame .events (by decide)

theorem State.event_detected (s : State) (core typ detail : Nat) : (s.event core typ detail).detected = s.detected :=
  (State.event_keeps core typ detail (List.Subset.refl _) (.refl s)).frame .detected (by decide)

theorem State.event_time (s : State) (core typ detail : Nat) : (s.event core typ detail).time = s.time :=
  (State.event_keeps core typ detail (List.Subset.refl _) (.refl s)).time (by decide)

end Sys2Proof.Machine
end

section
/-! PROOFS. Schedule time across dies, the Hallmark and its rounds (R582, R586 to R591). -/
namespace Sys2Proof.Machine

theorem exec_stimeSync (m : Master) (v : W32) (s : State) : exec (.stimeSync m v) s = execStimeSync m v s := rfl
theorem exec_bootLock (m : Master) (v : W32) (s : State) : exec (.bootLock m v) s = execBootLock m v s := rfl
theorem exec_startMarkReceive (lane : Fin 8) (v : W64) (h : Fin 8) (s : State) : exec (.startMarkReceive lane v h) s = execStartMarkReceive lane v h s := rfl
theorem exec_hallmarkComputationEnd (s : State) : exec .hallmarkComputationEnd s = execHallmarkComputationEnd s := rfl
theorem exec_hallmarkRound (s : State) : exec .hallmarkRound s = execHallmarkRound s := rfl
theorem exec_roundMessage (lane die : Fin 8) (mark : Option (List W32)) (s : State) : exec (.roundMessage lane die mark) s = execRoundMessage lane die mark s := rfl

/-! Start marks -/

theorem State.bootCtl_of_other {m : Master} (hm : m ≠ .sec) (s : State) (v : W32) : s.bootCtl m v = s.locked (masterReq m) (s.ca R.HLM_BOOT_CTL) := by
  rw [State.bootCtl, bne_iff_ne.mpr hm]
  rfl

/-- A write of SEC without BOOT_LOCK is a STIME_SYNC alone. -/
theorem State.bootCtl_sync {v : W32} (hlock : vbit v 0 = false) (hsync : vbit v 1 = true) (s : State) : s.bootCtl .sec v = s.startMark := by
  rw [State.bootCtl, hlock, hsync]
  rfl

theorem vbit_or_sync {v : W32} (h : vbit v 0 = false) : vbit (v ||| 2) 0 = false ∧ vbit (v ||| 2) 1 = true := by
  have hsync : vbit (2 : W32) 0 = false ∧ vbit (2 : W32) 1 = true := by decide
  rw [vbit_or, vbit_or, h, hsync.1, hsync.2]
  exact ⟨rfl, Bool.or_true _⟩

/-- A write that names BOOT_LOCK names it still. -/
theorem or_lock_of_set {v : W32} (h : vbit v 0 = true) : v ||| 2 ||| 1 = v ||| 2 := by
  rw [vbit_eq_getLsbD] at h
  ext i hi
  rw [BitVec.getElem_or]
  by_cases h0 : i = 0
  · subst h0
    simp [← BitVec.getLsbD_eq_getElem, h]
  · have hone : (1 : W32)[i] = false := by simp [h0]
    rw [hone, Bool.or_false]

/-! The digest -/

/-- The registers of the digest and of the peers' have keys of their own. -/
theorem hlmHash_inj (i j : Nat) (h : R.HLM_HASH i = R.HLM_HASH j) : i = j := by
  unfold R.HLM_HASH dieReg cabReg at h
  omega

theorem hlmPeer_inj (e i j : Nat) (h : R.HLM_PEER e i = R.HLM_PEER e j) : i = j := by
  unfold R.HLM_PEER dieReg cabReg at h
  omega

/-- What the end of a computation writes beside the digest. -/
def hallDone (n : Nat) : List (Fld × Nat) := [(R.HLM_REC_LEN_LEN, n), (R.HLM_HLM_STAT_CHANGING, 0), (R.HLM_HLM_STAT_VALID, 1)]

theorem State.hallDone_written (s : State) {n : Nat} (hn : n < 2 ^ 16) {p : Fld × Nat} (hp : p ∈ hallDone n) : (s.puts (hallDone n)).f p.1 = p.2 := by
  have hkey : R.HLM_HLM_STAT ≠ R.HLM_REC_LEN := by decide
  have hfits : n < 65536 := hn
  refine State.f_puts_of_mem s hp ?fit ?apart
  case fit => simp [hallDone, R.HLM_REC_LEN_LEN, R.HLM_HLM_STAT_CHANGING, R.HLM_HLM_STAT_VALID, Fld.width, hfits]
  case apart => simp [hallDone, R.HLM_REC_LEN_LEN, R.HLM_HLM_STAT_CHANGING, R.HLM_HLM_STAT_VALID, Fld.apart, hkey]

/-- What the end of a computation leaves (R587). -/
def State.hallOver (s : State) : State :=
  ((List.range 12).foldl (fun t j => t.setReg (R.HLM_HASH j) (BitVec.ofNat 32 (sha s.boot.hallRec / 2 ^ (32 * j))))
    ({ s with boot := { s.boot with hallAt := none, hallRec := [] } } : State)).puts (hallDone s.boot.hallRec.length)

theorem exec_hallmarkComputationEnd_of_due {x : Nat} {s : State} (hall : s.boot.hallAt = some x) (hdue : x ≤ s.time.real) :
    exec .hallmarkComputationEnd s = .next s.hallOver := by
  have hover : s.boot.hallAt.any (fun t => decide (t ≤ s.time.real)) = true := by simp [hall, hdue]
  rw [exec_hallmarkComputationEnd, execHallmarkComputationEnd, if_pos hover]
  rfl

theorem State.hallOver_keeps (s : State) : Keeps [.regs] ({ s with boot := { s.boot with hallAt := none, hallRec := [] } } : State) s.hallOver :=
  State.puts_keeps _ (List.Subset.refl _) (.foldl (.refl _) fun _ _ hu => State.setReg_keeps _ _ (List.Subset.refl _) hu)

theorem State.reg_hallOver (s : State) : (∀ j, j < 12 → s.hallOver.reg (R.HLM_HASH j) = BitVec.ofNat 32 (sha s.boot.hallRec / 2 ^ (32 * j))) ∧
    s.sameRegs (R.HLM_HLM_STAT :: R.HLM_REC_LEN :: (List.range 12).map R.HLM_HASH) s.hallOver := by
  have hdone {k : Nat} (hstat : k ≠ R.HLM_HLM_STAT) (hlen : k ≠ R.HLM_REC_LEN) : ∀ p ∈ hallDone s.boot.hallRec.length, k ≠ p.1.key := by
    simp [hallDone, R.HLM_REC_LEN_LEN, R.HLM_HLM_STAT_CHANGING, R.HLM_HLM_STAT_VALID, hstat, hlen]
  obtain ⟨hrow, hrest⟩ := State.reg_setRow ({ s with boot := { s.boot with hallAt := none, hallRec := [] } } : State)
    (fun j => BitVec.ofNat 32 (sha s.boot.hallRec / 2 ^ (32 * j))) hlmHash_inj 12
  refine ⟨fun j hj => ?_, fun k hk => ?_⟩
  · have hkeys : R.HLM_HASH j ≠ R.HLM_HLM_STAT ∧ R.HLM_HASH j ≠ R.HLM_REC_LEN := by
      unfold R.HLM_HASH R.HLM_HLM_STAT R.HLM_REC_LEN dieReg cabReg
      omega
    exact (State.reg_puts_other _ _ (hdone hkeys.1 hkeys.2)).trans (hrow j hj)
  · simp only [List.mem_cons, List.mem_map, List.mem_range, not_or, not_exists, not_and] at hk
    obtain ⟨hstat, hlen, hhash⟩ := hk
    exact (State.reg_puts_other _ _ (hdone hstat hlen)).trans (hrest k fun j hj => Ne.symm (hhash j hj))

theorem hallmarkComputationEnd_fields {x : Nat} {s : State} (hall : s.boot.hallAt = some x) (hdue : x ≤ s.time.real) (hlen : s.boot.hallRec.length < 2 ^ 16) :
    ∃ t, exec .hallmarkComputationEnd s = .next t ∧ (∀ j, j < 12 → t.reg (R.HLM_HASH j) = BitVec.ofNat 32 (sha s.boot.hallRec / 2 ^ (32 * j))) ∧
      t.f R.HLM_REC_LEN_LEN = s.boot.hallRec.length ∧ t.f R.HLM_HLM_STAT_CHANGING = 0 ∧ t.f R.HLM_HLM_STAT_VALID = 1 ∧ t.boot.hallAt = none ∧ t.mem = s.mem ∧
      s.sameRegs (R.HLM_HLM_STAT :: R.HLM_REC_LEN :: (List.range 12).map R.HLM_HASH) t := by
  have hread {p : Fld × Nat} (hp : p ∈ hallDone s.boot.hallRec.length) : s.hallOver.f p.1 = p.2 := State.hallDone_written _ hlen hp
  have hboot : s.hallOver.boot = { s.boot with hallAt := none, hallRec := [] } := s.hallOver_keeps.frame .boot (by decide)
  exact ⟨_, exec_hallmarkComputationEnd_of_due hall hdue, s.reg_hallOver.1, hread (p := (R.HLM_REC_LEN_LEN, s.boot.hallRec.length)) (by simp [hallDone]),
    hread (p := (R.HLM_HLM_STAT_CHANGING, 0)) (by simp [hallDone]), hread (p := (R.HLM_HLM_STAT_VALID, 1)) (by simp [hallDone]), by rw [hboot],
    s.hallOver_keeps.frame .mem (by decide), s.reg_hallOver.2⟩

/-! Rounds -/

theorem State.side_ties (s : State) (dst : Nat) (msg : Sideband) : (s.side dst msg).ties = s.ties := (State.side_keeps dst msg (List.Subset.refl _) (.refl s)).ties

/-- MISSING of each die is written by what has been heard since the last instant, and the die sends its Hallmark to each (R588). -/
theorem exec_hallmarkRound_of_due {n : Nat} {others : List Nat} {u s : State} (hn : n = s.time.now / us 1000) (hpos : n ≠ 0) (hround : s.boot.roundAt ≠ 0)
    (hnew : s.boot.roundAt ≠ n) (hdies : s.dies ≠ 0) (hothers : others = (List.range s.dies).filter (fun e => decide (e ≠ s.die)))
    (hu : u = { (others.foldl (fun z e => z.putb (hallBit 16 e) (!s.boot.heard.contains e)) (s.arm .fab (us (1000 * (n + 1)) - s.time.now) .hallmarkRound)) with boot := { s.boot with heard := [], roundAt := n } }) :
    exec .hallmarkRound s = .next (if u.bit R.HLM_CFG_ROUND_EN then (others.foldl (fun z e => z.side e (.round s.die (if u.hallReady then some ((List.range 12).map (fun j => u.reg (R.HLM_HASH j))) else none))) u).inc R.HLM_ROUNDS_COUNT else u) := by
  generalize ha : s.arm .fab (us (1000 * (n + 1)) - s.time.now) .hallmarkRound = a at hu
  have hkeeps : Keeps [.agenda] s a := ha ▸ State.arm_keeps _ _ _ (List.Subset.refl _) (.refl s)
  have hboot : a.boot = s.boot := hkeeps.frame .boot (by decide)
  have hdie : a.die = s.die := by rw [State.die, hkeeps.ties, State.die]
  have hadies : a.dies = s.dies := State.f_congr (hkeeps.reg (by decide) _)
  have hmissing : others.foldl (fun z e => z.putb (hallBit 16 e) (!z.boot.heard.contains e)) a =
      others.foldl (fun z e => z.putb (hallBit 16 e) (!s.boot.heard.contains e)) a :=
    foldl_eq_of_kept (P := fun z => z.boot = s.boot) others hboot (fun z e hz => (z.putb_boot _ _).trans hz) fun z e hz => by rw [hz]
  have hfold : (others.foldl (fun z e => z.putb (hallBit 16 e) (!s.boot.heard.contains e)) a).boot = s.boot :=
    (State.foldl_keeps_part State.boot others a fun z e => z.putb_boot _ _).trans hboot
  have hudie : u.die = s.die := by
    have hties : u.ties = a.ties := by
      rw [hu]
      exact State.foldl_keeps_part State.ties others a fun z e => z.putb_ties _ _
    rw [State.die, hties, ← State.die, hdie]
  have hsides (mark : Option (List W32)) : others.foldl (fun z e => z.side e (.round z.die mark)) u = others.foldl (fun z e => z.side e (.round s.die mark)) u :=
    foldl_eq_of_kept (P := fun z => z.die = s.die) others hudie (fun z e hz => by rw [State.die, State.side_ties, ← State.die, hz]) fun z e hz => by rw [hz]
  rw [exec_hallmarkRound, execHallmarkRound, ← hn]
  dsimp only
  rw [ha, hboot, hadies, hdie, if_neg (by simp [hpos, hnew, hdies]), if_neg hround, ← hothers, hmissing, hfold, ← hu, hsides]
  cases u.bit R.HLM_CFG_ROUND_EN <;> rfl

/-! Round messages -/

/-- What a Hallmark heard leaves before it is compared: the die is noted as heard, its MISSING bit is clear and the PEER row shows it. -/
def State.peerHeard (s : State) (e : Nat) (h : List W32) : State :=
  (List.range 12).foldl (fun t j => t.setReg (R.HLM_PEER e j) (h.getD j 0))
    (({ s with boot := { s.boot with heard := insertNum e s.boot.heard } } : State).put (hallBit 16 e) 0)

section
variable (s : State) (e : Nat) (h : List W32)

theorem State.peerHeard_keeps : Keeps [.regs] ({ s with boot := { s.boot with heard := insertNum e s.boot.heard } } : State) (s.peerHeard e h) :=
  .foldl (State.put_keeps _ _ (List.Subset.refl _) (.refl _)) fun _ _ hu => State.setReg_keeps _ _ (List.Subset.refl _) hu

theorem State.peerHeard_boot : (s.peerHeard e h).boot = { s.boot with heard := insertNum e s.boot.heard } := (s.peerHeard_keeps e h).frame .boot (by decide)
theorem State.peerHeard_detected : (s.peerHeard e h).detected = s.detected := (s.peerHeard_keeps e h).frame .detected (by decide)
theorem State.peerHeard_events : (s.peerHeard e h).events = s.events := (s.peerHeard_keeps e h).frame .events (by decide)
theorem State.peerHeard_time : (s.peerHeard e h).time = s.time := (s.peerHeard_keeps e h).time (by decide)

theorem State.reg_peerHeard : (∀ j < 12, (s.peerHeard e h).reg (R.HLM_PEER e j) = h.getD j 0) ∧
    ∀ k, (∀ j < 12, k ≠ R.HLM_PEER e j) → (s.peerHeard e h).reg k = (s.put (hallBit 16 e) 0).reg k :=
  State.reg_setRow (({ s with boot := { s.boot with heard := insertNum e s.boot.heard } } : State).put (hallBit 16 e) 0) (fun j => h.getD j 0) (hlmPeer_inj e) 12

/-- HLM_STAT changes in the MISSING bit of the die alone. -/
theorem State.f_peerHeard_stat {g : Fld} (hkey : g.key = R.HLM_HLM_STAT) : (s.peerHeard e h).f g = (s.put (hallBit 16 e) 0).f g := by
  refine State.f_congr ((s.reg_peerHeard e h).2 _ fun j _ => ?_)
  rw [hkey]
  unfold R.HLM_PEER R.HLM_HLM_STAT dieReg cabReg
  omega

variable {e} in
theorem State.f_peerHeard_below (he : e < 8) {g : Fld} (hkey : g.key = R.HLM_HLM_STAT) (hg : g.lo ≤ g.hi) (hlow : g.hi < 16) : (s.peerHeard e h).f g = s.f g :=
  (s.f_peerHeard_stat e h hkey).trans (State.f_put_apart _ _ _ _ (Nat.le_refl _) (by simp only [hallBit, bitFld]; omega) hg (.inr (by simp only [hallBit, bitFld]; omega)))

variable {e} in
theorem State.hallReady_peerHeard (he : e < 8) : (s.peerHeard e h).hallReady = s.hallReady := by
  simp only [State.hallReady, State.bit, s.f_peerHeard_below h he (g := R.HLM_HLM_STAT_VALID) rfl (by decide) (by decide),
    s.f_peerHeard_below h he (g := R.HLM_HLM_STAT_CHANGING) rfl (by decide) (by decide)]

variable {e} in
theorem State.mismatch_peerHeard (he : e < 8) : (s.peerHeard e h).bit (hallBit 8 e) = s.bit (hallBit 8 e) := by
  rw [State.bit, s.f_peerHeard_below h he rfl (Nat.le_refl _) (by simp only [hallBit, bitFld]; omega), State.bit]

variable {e} in
theorem State.missing_peerHeard (he : e < 8) : (s.peerHeard e h).bit (hallBit 16 e) = false := by
  rw [State.bit_eq_false, s.f_peerHeard_stat e h rfl]
  exact State.f_put_fits _ (Nat.le_refl _) (by simp only [hallBit, bitFld]; omega) (Nat.two_pow_pos _)

theorem State.hash_peerHeard {j : Nat} (hj : j < 12) : (s.peerHeard e h).reg (R.HLM_HASH j) = s.reg (R.HLM_HASH j) := by
  refine ((s.reg_peerHeard e h).2 _ fun i _ => ?_).trans (State.reg_put_other _ _ _ ?_)
  · unfold R.HLM_PEER R.HLM_HASH dieReg cabReg
    omega
  · unfold hallBit bitFld R.HLM_HLM_STAT R.HLM_HASH dieReg cabReg
    dsimp only
    omega

theorem State.sameRegs_peerHeard : s.sameRegs (R.HLM_HLM_STAT :: (List.range 12).map (R.HLM_PEER e)) (s.peerHeard e h) := by
  intro k hk
  simp only [List.mem_cons, List.mem_map, List.mem_range, not_or, not_exists, not_and] at hk
  obtain ⟨hstat, hpeer⟩ := hk
  exact ((s.reg_peerHeard e h).2 k fun j hj => Ne.symm (hpeer j hj)).trans (State.reg_put_other _ _ _ hstat)

end

/-- A Hallmark of twelve words is this die's when each word is. -/
theorem all_words_iff {h : List W32} (hlen : h.length = 12) (g : Nat → W32) :
    (List.range 12).all (fun j => decide (h.getD j 0 = g j)) = true ↔ h = (List.range 12).map g := by
  rw [List.all_eq_true]
  constructor
  · intro hall
    refine List.ext_getElem (by simp [hlen]) fun j hj _ => ?_
    have hword := hall j (List.mem_range.mpr (hlen ▸ hj))
    rw [decide_eq_true_iff, List.getD_eq_getElem _ _ hj] at hword
    rw [hword, List.getElem_map, List.getElem_range]
  · rintro rfl j hj
    have hj : j < 12 := List.mem_range.mp hj
    simp [hj]

/-- What a round message does with the number of the round in which the die last differed. -/
def State.differAt (s : State) (e n : Nat) : State := { s with boot := { s.boot with differ := SMap.set 0 s.boot.differ e n } }

section
variable {lane die : Fin 8} {h : List W32} {s : State} (hother : die.val ≠ s.die) (hready : s.hallReady = true)
include hother hready

/-- The message of a die that shows its Hallmark, to one that has its own: `u` has heard it. -/
theorem exec_roundMessage_of_mark {u : State} (hu : s.peerHeard die h = u) : exec (.roundMessage lane die (some h)) s = .next
    (if (List.range 12).all (fun j => decide (h.getD j 0 = u.reg (R.HLM_HASH j))) then
      (if u.bit (hallBit 8 die) then (u.differAt die 0).hallEvent die false else u.differAt die 0)
    else if (SMap.get 0 u.boot.differ die + 1 = u.boot.roundAt ∧ 1 < u.boot.roundAt) ∧ u.bit (hallBit 8 die) = false then
      ((u.differAt die u.boot.roundAt).hallEvent die true).err { kind := 0x78, req := 28, cab := none, data := 0x80000 + die.val }
    else u.differAt die u.boot.roundAt) := by
  have hshown : u.hallReady = true := hu ▸ (s.hallReady_peerHeard h die.isLt).trans hready
  rw [exec_roundMessage, execRoundMessage, if_neg hother]
  dsimp only
  rw [← State.peerHeard, hu, hshown, Bool.not_true, if_neg Bool.false_ne_true]
  rfl

/-- Of another Hallmark the round is noted; when the one before was noted too, MISMATCH rises with its record and its event. -/
theorem exec_roundMessage_of_other (hlen : h.length = 12) (hdiffers : h ≠ (List.range 12).map (fun j => s.reg (R.HLM_HASH j))) :
    exec (.roundMessage lane die (some h)) s = .next
      (if (SMap.get 0 s.boot.differ die + 1 = s.boot.roundAt ∧ 1 < s.boot.roundAt) ∧ s.bit (hallBit 8 die) = false then
        (((s.peerHeard die h).differAt die s.boot.roundAt).hallEvent die true).err { kind := 0x78, req := 28, cab := none, data := 0x80000 + die.val }
      else (s.peerHeard die h).differAt die s.boot.roundAt) := by
  have hround : (s.peerHeard die h).boot.roundAt = s.boot.roundAt := by rw [State.peerHeard_boot]
  have hdiffer : SMap.get 0 (s.peerHeard die h).boot.differ die = SMap.get 0 s.boot.differ die := by rw [State.peerHeard_boot]
  have hwords : ¬(List.range 12).all (fun j => decide (h.getD j 0 = (s.peerHeard die h).reg (R.HLM_HASH j))) = true := by
    rw [all_words_iff hlen, List.map_congr_left fun j hj => s.hash_peerHeard die h (List.mem_range.mp hj)]
    exact hdiffers
  rw [exec_roundMessage_of_mark hother hready rfl, if_neg hwords, hround, hdiffer, s.mismatch_peerHeard h die.isLt]

/-- Of an equal Hallmark MISMATCH falls, with its event, where it stood. -/
theorem exec_roundMessage_of_equal (hequal : h = (List.range 12).map (fun j => s.reg (R.HLM_HASH j))) (hstood : s.bit (hallBit 8 die) = true) :
    exec (.roundMessage lane die (some h)) s = .next (((s.peerHeard die h).differAt die 0).hallEvent die false) := by
  have hwords : (List.range 12).all (fun j => decide (h.getD j 0 = (s.peerHeard die h).reg (R.HLM_HASH j))) = true := by
    rw [all_words_iff (by simp [hequal]), List.map_congr_left fun j hj => s.hash_peerHeard die h (List.mem_range.mp hj)]
    exact hequal
  rw [exec_roundMessage_of_mark hother hready rfl, if_pos hwords, s.mismatch_peerHeard h die.isLt, if_pos hstood]

end

/-- A change of MISMATCH writes that bit of HLM_STAT and posts an event. -/
theorem State.hallEvent_frame (s : State) {e : Nat} (he : e < 8) (b : Bool) : (s.hallEvent e b).bit (hallBit 8 e) = b ∧
    (s.hallEvent e b).bit (hallBit 16 e) = s.bit (hallBit 16 e) ∧ (s.hallEvent e b).events = s.events ++ [(0, 0x31, e + (if b then 256 else 0))] ∧
    (s.hallEvent e b).detected = s.detected ∧ (s.hallEvent e b).time = s.time ∧ ∀ k, k ≠ R.HLM_HLM_STAT → (s.hallEvent e b).reg k = s.reg k := by
  have hf (g : Fld) : (s.hallEvent e b).f g = (s.putb (hallBit 8 e) b).f g := State.f_congr (State.reg_event _ _ _ _ _)
  refine ⟨?_, ?_, ?_, ?_, ?_, fun k hk => ?_⟩
  · rw [State.bit, hf]
    exact State.bit_putb_same s b rfl (by simp only [hallBit, bitFld]; omega)
  · rw [State.bit, hf, State.putb,
      State.f_put_apart _ _ _ _ (Nat.le_refl _) (by simp only [hallBit, bitFld]; omega) (Nat.le_refl _) (by simp only [hallBit, bitFld]; omega), State.bit]
  · rw [State.hallEvent, State.event_events, State.putb_events]
  · rw [State.hallEvent, State.event_detected, State.putb_detected]
  · rw [State.hallEvent, State.event_time, State.putb_time]
  · rw [State.hallEvent, State.reg_event, State.putb, State.reg_put_other _ _ _ hk]

/-- What a note of a round leaves. -/
theorem State.differAt_bit (s : State) (e n : Nat) (g : Fld) : (s.differAt e n).bit g = s.bit g := rfl
theorem State.differAt_reg (s : State) (e n k : Nat) : (s.differAt e n).reg k = s.reg k := rfl
theorem State.differAt_detected (s : State) (e n : Nat) : (s.differAt e n).detected = s.detected := rfl
theorem State.differAt_events (s : State) (e n : Nat) : (s.differAt e n).events = s.events := rfl
theorem State.differAt_time (s : State) (e n : Nat) : (s.differAt e n).time = s.time := rfl

/-- The registers that such a change leaves. -/
theorem State.sameRegs_hallEvent (s : State) {e : Nat} (he : e < 8) (h : List W32) (n : Nat) (b : Bool) :
    s.sameRegs (R.HLM_HLM_STAT :: (List.range 12).map (R.HLM_PEER e)) (((s.peerHeard e h).differAt e n).hallEvent e b) := by
  intro k hk
  obtain ⟨-, -, -, -, -, hregs⟩ := ((s.peerHeard e h).differAt e n).hallEvent_frame he b
  rw [hregs k (List.ne_of_not_mem_cons hk), State.differAt_reg, s.sameRegs_peerHeard e h k hk]

/-- Settles O57: start marks by their guard, the digest by its row, rounds and round messages by the Hallmark heard. -/
theorem timeAndHallmarksCrossTheDies : Obligations.TimeAndHallmarksCrossTheDies := by
  refine ⟨?sync, ?lock, ?locked, ?mark, ?ignored, ?computed, ?round, ?notice, ?second, ?first, ?equal⟩
  case sync =>
    rintro m v s rfl hlock hdie hfree hopen
    obtain ⟨hno, hsync⟩ := vbit_or_sync hlock
    rw [exec_stimeSync, execStimeSync, State.row_of_open hopen, State.bootCtl_sync hno hsync, State.startMark, if_neg (by simp [hdie, hfree])]
  case lock =>
    intro m v s hlock hopen
    rw [exec_stimeSync, execStimeSync, exec_bootLock, execBootLock, State.row_of_open hopen, State.row_of_open hopen, or_lock_of_set hlock]
  case locked =>
    intro m v s hm _ hopen
    rw [exec_stimeSync, execStimeSync, State.row_of_open hopen, State.bootCtl_of_other hm]
  case mark =>
    intro lane v h s hnew hfree
    rw [exec_startMarkReceive, execStartMarkReceive, if_neg (by simp [hnew, hfree])]
  case ignored =>
    intro lane v h s hold
    rw [exec_startMarkReceive, execStartMarkReceive, if_pos hold]
  case computed => exact fun x s hall hdue hlen => hallmarkComputationEnd_fields hall hdue hlen
  case round => exact fun n others u s hn hpos hround hnew hdies hothers hu => exec_hallmarkRound_of_due hn hpos hround hnew hdies hothers hu
  case notice =>
    intro lane die s hother
    rw [exec_roundMessage, execRoundMessage, if_neg hother]
  case second =>
    intro lane die h s hother hready hlen hdiffers htwice hpast hclear
    obtain ⟨hset, hmissing, hevents, hdetected, htime, hregs⟩ := ((s.peerHeard die h).differAt die s.boot.roundAt).hallEvent_frame die.isLt true
    have hframe := s.sameRegs_hallEvent die.isLt h s.boot.roundAt true
    have hexec := exec_roundMessage_of_other (lane := lane) hother hready hlen hdiffers
    rw [if_pos ⟨⟨htwice, hpast⟩, hclear⟩] at hexec
    generalize ((s.peerHeard die h).differAt die s.boot.roundAt).hallEvent die true = w at hset hmissing hevents hdetected htime hregs hframe hexec
    rw [State.differAt_bit, s.missing_peerHeard h die.isLt] at hmissing
    have hnow : w.now = s.now := by rw [State.now, htime, State.differAt_time, State.peerHeard_time, State.now]
    refine ⟨_, hexec, hset, hmissing, fun j hj => ?_, ?_, ?_, hframe⟩
    · have hkey : R.HLM_PEER die j ≠ R.HLM_HLM_STAT := by
        unfold R.HLM_PEER R.HLM_HLM_STAT dieReg cabReg
        omega
      have hrow := hregs _ hkey
      rwa [State.differAt_reg, (s.reg_peerHeard die h).1 j hj] at hrow
    · rw [State.err_detected, hdetected, hnow, State.differAt_detected, State.peerHeard_detected]
    · rw [State.err_events, hevents, State.differAt_events, State.peerHeard_events]
      rfl
  case first =>
    intro lane die h s hother hready hlen hdiffers honce
    have hexec := exec_roundMessage_of_other (lane := lane) hother hready hlen hdiffers
    rw [if_neg fun hsecond => honce hsecond.1.1] at hexec
    refine ⟨_, hexec, ?_, SMap.get_set_same _ _ _ _, ?_, ?_, fun k hk => ?_⟩
    · rw [State.differAt_bit, s.mismatch_peerHeard h die.isLt]
    · rw [State.differAt_detected, State.peerHeard_detected]
    · rw [State.differAt_events, State.peerHeard_events]
    · rw [State.differAt_reg, s.sameRegs_peerHeard die h k hk]
  case equal =>
    intro lane die h s hother hready hequal hstood
    obtain ⟨hset, -, hevents, hdetected, -, -⟩ := ((s.peerHeard die h).differAt die 0).hallEvent_frame die.isLt false
    refine ⟨_, exec_roundMessage_of_equal hother hready hequal hstood, hset, ?_, ?_, s.sameRegs_hallEvent die.isLt h 0 false⟩
    · rw [hdetected, State.differAt_detected, State.peerHeard_detected]
    · rw [hevents, State.differAt_events, State.peerHeard_events]
      rfl

end Sys2Proof.Machine
end

section
/-! PROOFS. Transitions of the cabinets' power states (R475 to R483). -/
namespace Sys2Proof.Machine

theorem exec_cabCmdRun (m : Master) (cab : Cab) (s : State) : exec (.cabCmdRun m cab) s = .next (s.cabCmd m cab 0) := rfl
theorem exec_cabCmdDoze (m : Master) (cab : Cab) (s : State) : exec (.cabCmdDoze m cab) s = .next (s.cabCmd m cab 1) := rfl
theorem exec_cabCmdHold (m : Master) (cab : Cab) (s : State) : exec (.cabCmdHold m cab) s = .next (s.cabCmd m cab 2) := rfl
theorem exec_cabCmdQuench (m : Master) (cab : Cab) (s : State) : exec (.cabCmdQuench m cab) s = .next (s.cabCmd m cab 3) := rfl
theorem exec_entryDrainEnd (cab : Cab) (s : State) : exec (.entryDrainEnd cab) s = execEntryDrainEnd cab s := rfl
theorem exec_drainTimeout (cab : Cab) (s : State) : exec (.drainTimeout cab) s = execDrainTimeout cab s := rfl
theorem exec_entryCommitEnd (cab : Cab) (s : State) : exec (.entryCommitEnd cab) s = execEntryCommitEnd cab s := rfl
theorem exec_dozeWakeDone (cab : Cab) (s : State) : exec (.dozeWakeDone cab) s = execDozeWakeDone cab s := rfl
theorem exec_wakePowerDone (cab : Cab) (s : State) : exec (.wakePowerDone cab) s = execWakePowerDone cab s := rfl

theorem asCab_val (cab : Cab) : Fin.ofNat 128 cab.val = cab := Fin.ofNat_val_eq_self cab

/-! The fields of a cabinet -/

/-- BUSY and LEAVE_WAIT of a cabinet low, and its state Run. -/
def runFields (p : Nat) : List (Fld × Nat) := [(cabBusy p, 0), (cabLeaveWait p, 0), (cabState p, 0)]

theorem runFields_fit (p : Nat) : ∀ q ∈ runFields p, q.1.lo ≤ q.1.hi ∧ q.1.hi < 32 ∧ q.2 < 2 ^ q.1.width := by
  have hlt : p % 8 < 8 := Nat.mod_lt _ (by decide)
  simp only [runFields, List.forall_mem_cons, cabBusy, cabLeaveWait, cabState, bitFld]
  refine ⟨⟨?_, ?_, Nat.two_pow_pos _⟩, ⟨?_, ?_, Nat.two_pow_pos _⟩, ⟨?_, ?_, Nat.two_pow_pos _⟩, List.forall_mem_nil _⟩ <;> omega

theorem runFields_apart (p : Nat) : (runFields p).Pairwise fun q r => r.1.apart q.1 := by
  simp [runFields, cabBusy, cabLeaveWait, cabState, bitFld, Fld.apart]

theorem runFields_key (p : Nat) : ∀ q ∈ runFields p, q.1.key = R.PWR_CAB_STAT (p / 8) := by
  simp [runFields, cabBusy, cabLeaveWait, cabState, bitFld]

/-- Any of these fields written together read as written. -/
theorem State.f_puts_run (s : State) {p : Nat} {l : List (Fld × Nat)} (hl : l ⊆ runFields p) (hapart : l.Pairwise fun q r => r.1.apart q.1) {q : Fld × Nat}
    (hq : q ∈ l) : (s.puts l).f q.1 = q.2 :=
  s.f_puts_of_mem hq (fun r hr => runFields_fit p r (hl hr)) hapart

theorem cabStat_ne_leave (p : Nat) : R.PWR_CAB_STAT (p / 8) ≠ R.PWR_LEAVE_STAT := by
  simp only [R.PWR_CAB_STAT, R.PWR_LEAVE_STAT, dieReg, cabReg]
  omega

theorem cabStat_ne_wakes (p : Nat) : R.PWR_CAB_STAT (p / 8) ≠ R.CAB_DOZE_WAKES p := by
  simp only [R.PWR_CAB_STAT, R.CAB_DOZE_WAKES, dieReg, cabReg]
  omega

/-! A command and its check -/

section
variable {m : Master} {s : State} {p n : Nat}

/-- Outside the check, a command is a write. -/
theorem State.cabCmd_of_write (hm : pwrMaster m = true) : s.cabCmd m p n =
    s.row m (rowCmd m p n) (fun s => s.gate (pwrMaster m) m R.PWR_CAB_CMD (fun s =>
      let busy := s.bit (cabBusy p)
      if !busy && decide (s.pow p = n) && !s.absent p then s
      else
        let s := s.setCmds (s.pwr.cmds ++ [{ cab := p, target := n, from' := s.pow p, phase := if busy then .refuse else .check, at' := s.time.fc }])
        (if busy then s else s.put (cabBusy p) 1).later .wall 1 (checkCmd p n))) := by
  cases m with
  | hrp => exact absurd hm (by decide)
  | _ => rfl

/-- A command that moves a cabinet that is not BUSY is checked on the next fc (R478, R479). -/
theorem State.cabCmd_of_move (hm : pwrMaster m = true) (hidle : s.bit (cabBusy p) = false) (hmove : s.pow p ≠ n) (hopen : s.rgsShut (masterIdx m) = false) :
    s.cabCmd m p n = (((s.setCmds (s.pwr.cmds ++ [{ cab := p, target := n, from' := s.pow p, phase := .check, at' := s.time.fc }])).put (cabBusy p) 1).later .wall 1
      (checkCmd p n)) := by
  rw [State.cabCmd_of_write hm, State.row_of_open hopen, hm, State.gate_true]
  dsimp only
  rw [hidle, decide_eq_false hmove]
  rfl

/-- The check of the only command (R479). -/
theorem State.cabCmd_of_due {c : PwrCmd} (hcmds : s.pwr.cmds = [c]) (hcab : c.cab = p) (htarget : c.target = n) (hphase : c.phase = .check) (hdue : c.at' < s.time.fc) :
    s.cabCmd .hrp p n = s.cabCheck c := by
  have hfound : s.pwr.cmds.filter (fun c => decide (c.cab = p) && decide (c.target = n) && (decide (c.phase = .check) || decide (c.phase = .refuse)) &&
      decide (c.at' < s.time.fc)) = [c] := by
    simp [hcmds, hcab, htarget, hphase, hdue]
  unfold State.cabCmd
  dsimp only
  rw [hfound]

end

section
variable {c : PwrCmd} {s : State} (hcmds : s.pwr.cmds = [c]) (hphase : c.phase = .check)
include hcmds hphase

/-- The check of the only command takes it off the list, and a reason in force refuses it (R481). -/
theorem State.cabCheck_of_refused {n : Nat} (hrefusal : s.refusal c.cab c.target = some n) :
    s.cabCheck c = (((s.setCmds []).puts [(cabBusy c.cab, 0)]).refused c.cab c.target n false c.job).wakePutOff c.cab := by
  have hrest : s.pwr.cmds.filter (fun x => !decide (x = c)) = [] := by simp [hcmds]
  have hsame : (s.setCmds []).refusal c.cab c.target = s.refusal c.cab c.target := rfl
  rw [State.cabCheck]
  dsimp only
  rw [hrest, hphase, if_neg (by decide), hsame, hrefusal]

/-- With no reason in force it starts what the command asks for (R479, R482, R483). -/
theorem State.cabCheck_of_allowed (hrefusal : s.refusal c.cab c.target = none) :
    s.cabCheck c =
      if c.target = 0 then
        if s.pow c.cab = 1 then ((s.setCmds []).put (R.CAB_PWR_STAT_WAKE_SRC c.cab) 4).later .wall 7 (.dozeWakeDone (Fin.ofNat 128 c.cab))
        else ((s.setCmds [{ c with phase := .leave, from' := s.pow c.cab, at' := s.time.fc }]).put (cabLeaveWait c.cab) 1).leaveAsk (.wake c.cab) (if s.pow c.cab = 2 then 30 else 80)
      else if s.pow c.cab = 2 then (s.setCmds []).commitStart c c.cab 2
      else ((s.setCmds [{ c with phase := .drain, from' := s.pow c.cab, at' := s.time.fc + 1 }]).later .wall 1 (.entryDrainEnd (Fin.ofNat 128 c.cab))).later .wall 257
        (.drainTimeout (Fin.ofNat 128 c.cab)) := by
  have hrest : s.pwr.cmds.filter (fun x => !decide (x = c)) = [] := by simp [hcmds]
  have hsame : (s.setCmds []).refusal c.cab c.target = s.refusal c.cab c.target := rfl
  rw [State.cabCheck]
  dsimp only
  rw [hrest, hphase, if_neg (by decide), hsame, hrefusal]
  rfl

end

/-! Entries -/

section
variable {cab : Cab} {c : PwrCmd} {s : State} (hcmds : s.pwr.cmds = [c]) (hcab : c.cab = cab.val)
include hcmds hcab

theorem exec_entryDrainEnd_of_quiet (hphase : c.phase = .drain) (hdue : c.at' ≤ s.time.fc) (hquiet : s.quietCab cab = true) :
    exec (.entryDrainEnd cab) s = .next (if c.target = 1 then (s.setCmds [{ c with phase := .commit, at' := s.time.fc + 1 }]).later .wall 1 (.entryDrainEnd cab)
      else (s.setCmds []).commitStart c cab c.from') := by
  have hfound : s.pwr.cmds.find? (fun c => decide (c.cab = cab.val) && (decide (c.phase = .drain) || (decide (c.phase = .commit) && decide (c.target = 1)))) = some c := by
    simp [hcmds, hcab, hphase]
  have hrest : s.pwr.cmds.filter (fun x => !decide (x = c)) = [] := by simp [hcmds]
  rw [exec_entryDrainEnd, execEntryDrainEnd]
  dsimp only
  rw [hfound]
  dsimp only
  rw [hphase, if_neg (by decide), if_neg (by omega), hquiet, hrest]
  rfl

theorem exec_entryDrainEnd_of_committed (hphase : c.phase = .commit) (htarget : c.target = 1) (hdue : c.at' ≤ s.time.fc) :
    exec (.entryDrainEnd cab) s = .next (((s.endCmd cab).put (cabState cab) 1).entryLeft cab 1) := by
  have hfound : s.pwr.cmds.find? (fun c => decide (c.cab = cab.val) && (decide (c.phase = .drain) || (decide (c.phase = .commit) && decide (c.target = 1)))) = some c := by
    simp [hcmds, hcab, hphase, htarget]
  rw [exec_entryDrainEnd, execEntryDrainEnd]
  dsimp only
  rw [hfound]
  dsimp only
  rw [if_pos hphase, if_pos hdue]

theorem exec_drainTimeout_of_late (hphase : c.phase = .drain) (hlate : c.at' + 256 ≤ s.time.fc) :
    exec (.drainTimeout cab) s = .next ((s.entryAbort cab 8).wakePutOff cab) := by
  rw [exec_drainTimeout, execDrainTimeout, if_pos (by simp [hcmds, hcab, hphase, hlate])]

theorem exec_entryCommitEnd_of_due (hphase : c.phase = .commit) (hdue : c.at' ≤ s.time.real) (htarget : c.target ≠ 1) :
    exec (.entryCommitEnd cab) s =
      .next (if c.target = 3 then (((s.endCmd cab).loseStore cab).entryLeft cab 3).hfpNext cab 0 else ((s.endCmd cab).entryLeft cab 2).hfpNext cab 0) := by
  have hfound : s.pwr.cmds.find? (fun c => decide (c.cab = cab.val) && decide (c.phase = .commit) && decide (c.target ≠ 1) && decide (c.at' ≤ s.time.real)) = some c := by
    simp [hcmds, hcab, hphase, hdue, htarget]
  rw [exec_entryCommitEnd, execEntryCommitEnd, hfound]

end

theorem State.entryAbort_of_drain {cab n : Nat} {c : PwrCmd} {s : State} (hcmds : s.pwr.cmds = [c]) (hcab : c.cab = cab) (hphase : c.phase = .drain) :
    s.entryAbort cab n = (((({ s with pwr := { s.pwr with abt := s.pwr.abt.filter (fun e => decide (e.2.2 = s.time.fc)) ++ [(c, n, s.time.fc)] } } : State).endCmd cab).refused cab
      c.target n true c.job).kickCab cab) := by
  have hfound : s.pwr.cmds.find? (fun c => decide (c.cab = cab) && decide (c.phase = .drain)) = some c := by simp [hcmds, hcab, hphase]
  rw [State.entryAbort, hfound]

/-! Wakes -/

/-- A cabinet goes on: its runners look at their queues, and a held pop is taken. Only what comes later changes. -/
theorem State.goesOn_frame (s : State) (p : Nat) : ((s.kickCab p).hfpNext p 0).mem = s.mem ∧ ((s.kickCab p).hfpNext p 0).leave = s.leave ∧
    ∀ k, ((s.kickCab p).hfpNext p 0).reg k = s.reg k := by
  have hkeeps := State.hfpNext_keeps p 0 (K := [.agenda]) (List.Subset.refl _) (State.kickCab_keeps p (List.Subset.refl _) (.refl s))
  exact ⟨hkeeps.frame .mem (by decide), hkeeps.frame .leave (by decide), hkeeps.reg (by decide)⟩

/-- The cabinet that a wake from Doze has reached Run in, before what waits in it goes on (R482, R514). -/
def State.dozeOver (s : State) (p : Nat) : State := (s.puts [(cabState p, 0), (cabBusy p, 0)]).inc (R.CAB_DOZE_WAKES_COUNT p)

theorem State.dozeOver_fields (s : State) (p : Nat) : (s.dozeOver p).pow p = 0 ∧ (s.dozeOver p).bit (cabBusy p) = false ∧
    (s.dozeOver p).f (R.CAB_DOZE_WAKES_COUNT p) = min (s.f (R.CAB_DOZE_WAKES_COUNT p) + 1) (2 ^ (R.CAB_DOZE_WAKES_COUNT p).width - 1) := by
  have hsub : [(cabState p, 0), (cabBusy p, 0)] ⊆ runFields p := by simp [runFields]
  have hapart : [(cabState p, 0), (cabBusy p, 0)].Pairwise fun q r => r.1.apart q.1 := by simp [cabBusy, cabState, bitFld, Fld.apart]
  have hkeep {g : Fld} (hg : g.key = R.PWR_CAB_STAT (p / 8)) : (s.dozeOver p).f g = (s.puts [(cabState p, 0), (cabBusy p, 0)]).f g :=
    State.f_congr (State.reg_inc_other (by rw [hg]; exact cabStat_ne_wakes p) _)
  refine ⟨(hkeep rfl).trans (s.f_puts_run hsub hapart (q := (cabState p, 0)) (by simp)),
    State.bit_eq_false.mpr ((hkeep rfl).trans (s.f_puts_run hsub hapart (q := (cabBusy p, 0)) (by simp))), ?_⟩
  have hcount : (s.puts [(cabState p, 0), (cabBusy p, 0)]).f (R.CAB_DOZE_WAKES_COUNT p) = s.f (R.CAB_DOZE_WAKES_COUNT p) :=
    State.f_congr (State.reg_puts_other _ _ fun q hq => by rw [runFields_key p q (hsub hq)]; exact (cabStat_ne_wakes p).symm)
  have hwidth : (R.CAB_DOZE_WAKES_COUNT p).width = 32 := rfl
  rw [State.dozeOver, State.inc, State.incBy, hcount]
  exact State.f_put_fits _ (Nat.zero_le _) (by decide : 31 < 32) (by rw [hwidth]; omega)

theorem State.dozeOver_mem (s : State) (p : Nat) : (s.dozeOver p).mem = s.mem := by rw [State.dozeOver, State.inc_mem, State.puts_mem]

/-- The waiters of a cabinet look again whether they fire. -/
def State.waitersLook (s : State) (cab : Cab) : State :=
  (List.range 16).foldl (fun s w => if s.wtrReady cab w then (s.disarm (.waiterFire cab (Fin.ofNat 16 w))).later .unfz 0 (.waiterFire cab (Fin.ofNat 16 w)) else s) s

theorem State.waitersLook_frame (s : State) (cab : Cab) : (s.waitersLook cab).regs = s.regs ∧ (s.waitersLook cab).mem = s.mem := by
  constructor <;> refine State.foldl_keeps_part _ (List.range 16) s fun u w => ?_
  · split <;> rfl
  · split <;> rfl

theorem exec_dozeWakeDone_of_waking {cab : Cab} {s : State} (hdoze : s.pow cab = 1) (hbusy : s.bit (cabBusy cab) = true) (hcmds : s.pwr.cmds = []) :
    exec (.dozeWakeDone cab) s = .next ((((s.dozeOver cab).kickCab cab).hfpNext cab 0).waitersLook cab) := by
  have hwaking : s.pow cab = 1 ∧ s.bit (cabBusy cab) = true ∧ s.pwr.cmds.any (fun c => decide (c.cab = cab.val) && !decide (c.phase = .refuse)) = false :=
    ⟨hdoze, hbusy, by rw [hcmds]; rfl⟩
  rw [exec_dozeWakeDone, execDozeWakeDone]
  dsimp only
  rw [if_pos hwaking]
  rfl

/-- The cabinet that reaches Run, before its leave is returned (R483). -/
def State.powered (s : State) (p : Nat) : State := (s.endCmd p).put (cabState p) 0

theorem State.powered_eq (s : State) (p : Nat) : s.powered p = ({ s with agenda := s.checksGone p, pwr := { s.pwr with cmds := s.pwr.cmds.filter (fun c => decide (c.cab ≠ p) || decide (c.phase = PwrPhase.refuse)), wakes := SMap.erase s.pwr.wakes p } } : State).puts (runFields p) := rfl

theorem State.powered_fields (s : State) (p : Nat) : (s.powered p).pow p = 0 ∧ (s.powered p).bit (cabBusy p) = false ∧ (s.powered p).bit (cabLeaveWait p) = false := by
  rw [State.powered_eq]
  refine ⟨State.f_puts_run _ (List.Subset.refl _) (runFields_apart p) (q := (cabState p, 0)) (by simp [runFields]), State.bit_eq_false.mpr ?_, State.bit_eq_false.mpr ?_⟩
  · exact State.f_puts_run _ (List.Subset.refl _) (runFields_apart p) (q := (cabBusy p, 0)) (by simp [runFields])
  · exact State.f_puts_run _ (List.Subset.refl _) (runFields_apart p) (q := (cabLeaveWait p, 0)) (by simp [runFields])

/-- A look at the head of the queue leaves what is held (R500). -/
theorem State.leavePoke_held (s : State) : s.leavePoke.leave.held = s.leave.held := by
  have hput : (s.put R.PWR_LEAVE_STAT_WAITING s.leave.queue.length).leave = s.leave := State.put_leave _ _ _
  unfold State.leavePoke
  dsimp only
  generalize s.put R.PWR_LEAVE_STAT_WAITING s.leave.queue.length = u at hput ⊢
  rw [← hput]
  split
  · split <;> rfl
  · rfl

/-- Leave that is returned is held no more (R500). -/
theorem State.leaveHas_leaveBack (s : State) (who : LeaveFor) : (s.leaveBack who).leaveHas who = false := by
  have hheld : (s.leaveBack who).leave.held = s.leave.held.filter (fun h => !decide (h.1 = who)) := State.leavePoke_held _
  rw [State.leaveHas, hheld]
  simp

/-- The cabinet in Run, its requesters to be served (R483). -/
theorem State.reachRun_eq (s : State) (p : Nat) : s.reachRun p =
    (List.range 16).foldl (fun s j => if (s.pairSt p j).queue.isEmpty then s else s.armPair p j) ((((s.powered p).leaveBack (.wake p)).kickCab p).hfpNext p 0) := rfl

theorem State.reachRun_frame (s : State) (p : Nat) : (s.reachRun p).mem = s.mem ∧ (s.reachRun p).leave = ((s.powered p).leaveBack (.wake p)).leave ∧
    (s.reachRun p).reg (R.PWR_CAB_STAT (p / 8)) = (s.powered p).reg (R.PWR_CAB_STAT (p / 8)) := by
  obtain ⟨hmem, hleave, hreg⟩ := State.goesOn_frame ((s.powered p).leaveBack (.wake p)) p
  generalize hu : (((s.powered p).leaveBack (.wake p)).kickCab p).hfpNext p 0 = u at hmem hleave hreg
  have hserve : Keeps [.agenda] u (s.reachRun p) := by
    rw [State.reachRun_eq, hu]
    refine .foldl (.refl u) fun t j ht => ?_
    split
    · exact ht
    · exact State.armPair_keeps p j (List.Subset.refl _) ht
  have hback : ((s.powered p).leaveBack (.wake p)).mem = (s.powered p).mem :=
    (State.leaveBack_keeps _ (List.Subset.refl _) (.refl (s.powered p))).frame .mem (by decide)
  refine ⟨(hserve.frame .mem (by decide)).trans (hmem.trans (hback.trans rfl)), (hserve.frame .leave (by decide)).trans hleave, ?_⟩
  rw [hserve.reg (by decide), hreg, State.reg_leaveBack (cabStat_ne_leave p)]

theorem State.reachRun_fields (s : State) (p : Nat) : (s.reachRun p).pow p = 0 ∧ (s.reachRun p).bit (cabBusy p) = false ∧
    (s.reachRun p).bit (cabLeaveWait p) = false ∧ (s.reachRun p).leaveHas (.wake p) = false ∧ (s.reachRun p).mem = s.mem := by
  obtain ⟨hmem, hleave, hreg⟩ := s.reachRun_frame p
  obtain ⟨hpow, hbusy, hwait⟩ := s.powered_fields p
  have hfield {g : Fld} (hg : g.key = R.PWR_CAB_STAT (p / 8)) : (s.reachRun p).f g = (s.powered p).f g := State.f_congr (by rw [hg]; exact hreg)
  refine ⟨(hfield rfl).trans hpow, State.bit_eq_false.mpr ((hfield rfl).trans (State.bit_eq_false.mp hbusy)),
    State.bit_eq_false.mpr ((hfield rfl).trans (State.bit_eq_false.mp hwait)), ?_, hmem⟩
  rw [State.leaveHas, hleave]
  exact State.leaveHas_leaveBack _ _

theorem exec_wakePowerDone_of_hold {cab : Cab} {n : Nat} {b : Bool} {s : State} (hwakes : s.pwr.wakes = [(cab.val, (n, b))]) (hdue : n ≤ s.time.real)
    (hhold : s.pow cab = 2) : exec (.wakePowerDone cab) s = .next (s.reachRun cab) := by
  have hfound : s.pwr.wakes.find? (fun e => decide (e.1 = cab.val)) = some (cab.val, (n, b)) := by simp [hwakes]
  rw [exec_wakePowerDone, execWakePowerDone]
  dsimp only
  rw [hfound]
  dsimp only
  rw [if_neg (by omega), if_pos hhold]

/-! Settling -/

/-- Settles O45, clause by clause. -/
theorem cabinetsChangePowerState : Obligations.CabinetsChangePowerState := by
  refine ⟨?run, ?runCheck, ?doze, ?dozeCheck, ?hold, ?holdCheck, ?quench, ?quenchCheck, ?refused, ?fromDoze, ?leave, ?entry, ?dozeQuiet, ?commitQuiet, ?inDoze,
    ?timeout, ?abort, ?inQuench, ?inHold, ?dozeWake, ?wake⟩
  case run | doze | hold | quench =>
    intro m cab s hm hidle hmove hopen
    simp only [exec_cabCmdRun, exec_cabCmdDoze, exec_cabCmdHold, exec_cabCmdQuench, State.cabCmd_of_move hm hidle hmove hopen, checkCmd, asCab_val]
  case runCheck | dozeCheck | holdCheck | quenchCheck =>
    intro cab c s hcmds hcab htarget hphase hdue
    simp only [exec_cabCmdRun, exec_cabCmdDoze, exec_cabCmdHold, exec_cabCmdQuench, State.cabCmd_of_due hcmds hcab htarget hphase hdue]
  case refused => exact fun c n s hcmds hphase hrefusal => State.cabCheck_of_refused hcmds hphase hrefusal
  case fromDoze =>
    intro c s hcmds hphase hrefusal htarget hdoze
    rw [State.cabCheck_of_allowed hcmds hphase hrefusal, if_pos htarget, if_pos hdoze]
  case leave =>
    intro c s hcmds hphase hrefusal htarget hpow
    rw [State.cabCheck_of_allowed hcmds hphase hrefusal, if_pos htarget, if_neg (by omega)]
  case entry =>
    intro c s hcmds hphase hrefusal htarget hpow
    rw [State.cabCheck_of_allowed hcmds hphase hrefusal, if_neg htarget, if_neg (by omega)]
  case dozeQuiet =>
    intro cab c s hcmds hcab hphase hdue hquiet htarget
    rw [exec_entryDrainEnd_of_quiet hcmds hcab hphase hdue hquiet, if_pos htarget]
  case commitQuiet =>
    intro cab c s hcmds hcab hphase hdue hquiet htarget
    rw [exec_entryDrainEnd_of_quiet hcmds hcab hphase hdue hquiet, if_neg htarget]
  case inDoze => exact fun cab c s hcmds hcab hphase htarget hdue => exec_entryDrainEnd_of_committed hcmds hcab hphase htarget hdue
  case timeout => exact fun cab c s hcmds hcab hphase hlate => exec_drainTimeout_of_late hcmds hcab hphase hlate
  case abort => exact fun cab n c s hcmds hcab hphase => State.entryAbort_of_drain hcmds hcab hphase
  case inQuench =>
    intro cab c s hcmds hcab hphase hdue htarget
    rw [exec_entryCommitEnd_of_due hcmds hcab hphase hdue (by omega), if_pos htarget]
  case inHold =>
    intro cab c s hcmds hcab hphase hdue htarget
    rw [exec_entryCommitEnd_of_due hcmds hcab hphase hdue (by omega), if_neg (by omega)]
  case dozeWake =>
    intro cab s hdoze hbusy hcmds
    obtain ⟨hmem, -, hreg⟩ := (s.dozeOver cab).goesOn_frame cab
    obtain ⟨hpow, hbusy', hcount⟩ := s.dozeOver_fields cab
    rw [exec_dozeWakeDone_of_waking hdoze hbusy hcmds]
    generalize (((s.dozeOver cab).kickCab cab).hfpNext cab 0) = u at hmem hreg
    obtain ⟨hregs, hmem'⟩ := u.waitersLook_frame cab
    generalize u.waitersLook cab = t at hregs hmem'
    have hfield (g : Fld) : t.f g = (s.dozeOver cab).f g := State.f_congr ((congrArg (fun l => SMap.get (resetVal g.key) l g.key) hregs).trans (hreg g.key))
    refine ⟨t, rfl, ?_, ?_, (hfield _).trans hcount, hmem'.trans (hmem.trans (s.dozeOver_mem cab))⟩
    · rw [State.pow, hfield]
      exact hpow
    · rw [State.bit, hfield]
      exact hbusy'
  case wake =>
    intro cab n b s hwakes hdue hhold
    have hrun := s.reachRun_fields cab
    rw [exec_wakePowerDone_of_hold hwakes hdue hhold]
    generalize s.reachRun cab = t at hrun
    exact ⟨t, rfl, hrun⟩

end Sys2Proof.Machine
end

section
/-! PROOFS. Die sleep and its wakes (R486 to R493). -/
namespace Sys2Proof.Machine

theorem exec_dieSleep (m : Master) (v : W32) (s : State) : exec (.dieSleep m v) s = execDieSleep m v s := rfl
theorem exec_dieSleepCommitEnd (s : State) : exec .dieSleepCommitEnd s = execDieSleepCommitEnd s := rfl
theorem exec_dieWakeDone (s : State) : exec .dieWakeDone s = execDieWakeDone s := rfl
theorem exec_rtcAlarmRise (s : State) : exec .rtcAlarmRise s = execRtcAlarmRise s := rfl
theorem exec_rtcAlarmFall (s : State) : exec .rtcAlarmFall s = execRtcAlarmFall s := rfl
theorem exec_edgeWake (k : Gw) (s : State) : exec (.edgeWake k) s = execEdgeWake k s := rfl

/-! The way into sleep -/

theorem exec_dieSleep_of_asked {m : Master} {v : W32} {s : State} (hm : pwrMaster m = true) (hgo : vbit v 0 = true) (hawake : s.pwr.sleep = .awake)
    (hopen : s.rgsShut (masterIdx m) = false) : exec (.dieSleep m v) s = .next (s.sleepPhase .asked 40 (.dieSleep .hrp 1)) := by
  rw [exec_dieSleep, execDieSleep]
  rw [hawake]
  dsimp only
  rw [State.row_of_open hopen, hm, State.gate_true, hgo]
  simp [hawake]

section
variable {v : W32} {s : State} (hdue : s.pwr.sleepDue ≤ s.time.real)
include hdue

/-- The phase of the entry is over. -/
theorem sleepDue_of_le : (Master.hrp == Master.hrp && decide (s.pwr.sleepDue ≤ s.time.real)) = true := by simp [hdue]

theorem exec_dieSleep_of_unready (hasked : s.pwr.sleep = .asked) (hlatched : s.pwr.latched = []) (hready : s.sleepReady = false) :
    exec (.dieSleep .hrp v) s = .next (s.sleepOff 12 false) := by
  rw [exec_dieSleep, execDieSleep]
  rw [hasked, sleepDue_of_le hdue, hlatched, hready]
  rfl

theorem exec_dieSleep_of_checked (hcheck : s.pwr.sleep = .check) :
    exec (.dieSleep .hrp v) s = .next ((s.haltCore 1).sleepPhase .drain 120 (.dieSleep .hrp 1)) := by
  rw [exec_dieSleep, execDieSleep]
  rw [hcheck, sleepDue_of_le hdue]
  dsimp only
  rw [if_pos rfl]

theorem exec_dieSleep_of_drained (hdrain : s.pwr.sleep = .drain) :
    exec (.dieSleep .hrp v) s = .next ((s.generators false).sleepPhase .commit 240 .dieSleepCommitEnd) := by
  rw [exec_dieSleep, execDieSleep]
  rw [hdrain, sleepDue_of_le hdue]
  dsimp only
  rw [if_pos rfl]

end

/-- The die that has gone to sleep and holds no source (R491). -/
def State.slept (s : State) : State :=
  (({ s with pwr := { s.pwr with sleep := .asleep, sleptAt := s.time.real, latched := [] } } : State).inc R.PWR_DIE_STAT_SLEEPS).put R.PWR_DIE_STAT_LAST_ABORT 0

theorem State.slept_pwr (s : State) : s.slept.pwr = { s.pwr with sleep := .asleep, sleptAt := s.time.real, latched := [] } := by
  rw [State.slept, State.put_pwr, State.inc_pwr]

theorem State.slept_fields (s : State) : s.slept.f R.PWR_DIE_STAT_LAST_ABORT = 0 ∧
    s.slept.f R.PWR_DIE_STAT_SLEEPS = min (s.f R.PWR_DIE_STAT_SLEEPS + 1) (2 ^ R.PWR_DIE_STAT_SLEEPS.width - 1) := by
  rw [State.slept]
  refine ⟨State.f_put_fits _ (by decide) (by decide) (by decide), ?_⟩
  rw [State.f_put_apart _ _ _ _ (by decide) (by decide) (by decide) (by decide), State.inc, State.incBy]
  exact State.f_put_fits _ (by decide) (by decide) (by have : R.PWR_DIE_STAT_SLEEPS.width = 16 := rfl; rw [this]; omega)

theorem exec_dieSleepCommitEnd_of_alone {s : State} (hcommit : s.pwr.sleep = .commit) (hdue : s.pwr.sleepDue ≤ s.time.real) (hlatched : s.pwr.latched = [])
    (hrtc : s.pwr.rtc.high = false) (htherm : s.pwr.therm.hidden = false) : exec .dieSleepCommitEnd s = .next s.slept := by
  have hgo : ¬(s.pwr.sleep ≠ .commit ∨ s.time.real < s.pwr.sleepDue) := by simp [hcommit, hdue]
  rw [exec_dieSleepCommitEnd, execDieSleepCommitEnd, if_neg hgo, hlatched]
  dsimp only
  rw [← State.slept]
  have hpwr := s.slept_pwr
  generalize s.slept = u at hpwr
  simp only [hpwr, hrtc, htherm, Bool.and_false, Bool.false_eq_true, reduceIte]

/-! A wake -/

theorem State.f_useFree (s : State) (g : Fld) : s.useFree.f g = s.f g := rfl

/-- A wake that is recognized ends within 50 us (R493). -/
theorem State.dieWake_recognized (s : State) {n : Nat} (hn : n < 16) : (s.dieWake n).pwr.sleep = .waking ∧ (s.dieWake n).f R.PWR_DIE_STAT_WAKE_SRC = n ∧
    Due.mk .real (s.time.real + s.free % (us 50 + 1)) .dieWakeDone ∈ (s.dieWake n).agenda := by
  rw [State.dieWake]
  refine ⟨?_, ?_, ?_⟩
  · rw [State.later_pwr, State.useFree_pwr, State.put_pwr]
  · rw [State.f_later, State.f_useFree]
    exact State.f_put_fits _ (by decide) (by decide) hn
  · rw [State.later_agenda, State.clock, State.useFree_time, State.put_time]
    exact List.mem_append_right _ List.mem_cons_self

/-- A source that arrives while the die sleeps wakes it (R490). -/
theorem State.latchWake_of_asleep {s : State} (hasleep : s.pwr.sleep = .asleep) (src : Nat) : s.latchWake src = s.dieWake src := by
  rw [State.latchWake]
  dsimp only
  rw [hasleep]

theorem exec_edgeWake_of_asleep {k : Gw} {s : State} (hen : s.bit (R.EDG_CTL_WAKE_EN k) = true) (hasleep : s.pwr.sleep = .asleep) :
    exec (.edgeWake k) s = .next (s.dieWake 4) := by
  rw [exec_edgeWake, execEdgeWake, if_pos hen, State.latchWake_of_asleep hasleep]

/-! The alarm of the calendar clock -/

section
variable {s : State} (hstage : s.boot.stage ≠ 0)
include hstage

theorem exec_rtcAlarmRise_of_asleep (hlow : s.pwr.rtc.high = false) (hasleep : s.pwr.sleep = .asleep) :
    exec .rtcAlarmRise s = .next (((({ s with pwr := { s.pwr with rtc := { high := true, ackAt := some (s.time.real + ns 40), hidden := false } } } : State).disarm
      .rtcAlarmFall).later .real (ns 40) .rtcAlarmRise).dieWake 1) := by
  have hcommit : s.pwr.sleep ≠ .commit := by rw [hasleep]; decide
  rw [exec_rtcAlarmRise, execRtcAlarmRise]
  dsimp only
  rw [if_neg hstage, hlow, if_neg Bool.false_ne_true, if_neg hcommit]
  exact congrArg Host.Outcome.next (if_pos hasleep)

theorem exec_rtcAlarmRise_of_answered {n : Nat} (hrtc : s.pwr.rtc = { high := true, ackAt := some n, hidden := false }) (hdue : n ≤ s.time.real) :
    exec .rtcAlarmRise s = .next (({ s with pwr := { s.pwr with rtc := { high := true, ackAt := none, hidden := false } } } : State).put R.PWR_WAKE_ACK_RTC 1) := by
  have hack : (some n).any (fun t => decide (t ≤ s.time.real)) = true := by simp [hdue]
  rw [exec_rtcAlarmRise, execRtcAlarmRise]
  dsimp only
  rw [if_neg hstage, hrtc]
  dsimp only
  rw [if_pos rfl, if_pos hack]

theorem exec_rtcAlarmFall_of_high (hhigh : s.pwr.rtc.high = true) :
    exec .rtcAlarmFall s = .next ((({ s with pwr := { s.pwr with rtc := { high := false, ackAt := some (s.time.real + ns 40), hidden := false } } } : State).disarm
      .rtcAlarmRise).later .real (ns 40) .rtcAlarmFall) := by
  rw [exec_rtcAlarmFall, execRtcAlarmFall]
  dsimp only
  rw [if_neg hstage, if_pos hhigh]

end

/-! The end of a wake -/

theorem clkStat_injective {k j : Nat} (h : R.CLK_REG_STAT k = R.CLK_REG_STAT j) : k = j := by
  simp only [R.CLK_REG_STAT, dieReg, cabReg] at h
  omega

/-- The status of a clock region stands apart from the halts, the leave and the lanes. -/
theorem clkStat_ne (k l : Nat) (hk : k < 16) (hl : l < 8) : R.CLK_REG_STAT k ≠ R.MGT_HALT_STAT ∧ R.CLK_REG_STAT k ≠ R.PWR_LEAVE_STAT ∧
    R.CLK_REG_STAT k ≠ R.BRG_CTL l ∧ R.CLK_REG_STAT k ≠ R.BRG_STAT l := by
  simp only [R.CLK_REG_STAT, R.MGT_HALT_STAT, R.PWR_LEAVE_STAT, R.BRG_CTL, R.BRG_STAT, dieReg, cabReg]
  omega

/-- The clock of a region runs and is locked (R505). -/
def State.clockRuns (s : State) (k : Nat) : Prop := s.f (R.CLK_REG_STAT_RUN k) = 1 ∧ s.f (R.CLK_REG_STAT_LOCKED k) = 1

theorem State.clockRuns_congr {s t : State} {k : Nat} (h : t.reg (R.CLK_REG_STAT k) = s.reg (R.CLK_REG_STAT k)) (hruns : s.clockRuns k) : t.clockRuns k :=
  ⟨(State.f_congr (g := R.CLK_REG_STAT_RUN k) h).trans hruns.1, (State.f_congr (g := R.CLK_REG_STAT_LOCKED k) h).trans hruns.2⟩

/-- What turning a region's generator on writes (R493). -/
def clockOn (k : Nat) : List (Fld × Nat) := [(R.CLK_REG_STAT_RUN k, 1), (R.CLK_REG_STAT_LOCKED k, 1)]

theorem clockOn_key (k : Nat) : ∀ q ∈ clockOn k, q.1.key = R.CLK_REG_STAT k := by
  simp [clockOn, R.CLK_REG_STAT_RUN, R.CLK_REG_STAT_LOCKED]

theorem State.clockRuns_clockOn (s : State) (k : Nat) : (s.puts (clockOn k)).clockRuns k := by
  have hfit : ∀ q ∈ clockOn k, q.1.lo ≤ q.1.hi ∧ q.1.hi < 32 ∧ q.2 < 2 ^ q.1.width := by
    simp [clockOn, R.CLK_REG_STAT_RUN, R.CLK_REG_STAT_LOCKED, Fld.width]
  have hapart : (clockOn k).Pairwise fun q r => r.1.apart q.1 := by
    simp [clockOn, R.CLK_REG_STAT_RUN, R.CLK_REG_STAT_LOCKED, Fld.apart]
  exact ⟨s.f_puts_of_mem (p := (R.CLK_REG_STAT_RUN k, 1)) List.mem_cons_self hfit hapart,
    s.f_puts_of_mem (p := (R.CLK_REG_STAT_LOCKED k, 1)) (List.mem_cons_of_mem _ List.mem_cons_self) hfit hapart⟩

theorem State.generators_on (s : State) : s.generators true = s.clkRegions.foldl (fun s k => s.puts (clockOn k)) s := rfl

/-- Every region's generator that is turned on runs and is locked. -/
theorem State.generators_run {s : State} {k : Nat} (hk : k ∈ s.clkRegions) : (s.generators true).clockRuns k := by
  rw [State.generators_on]
  refine foldl_holds_of_mem (P := fun u : State => u.clockRuns k) (f := fun s k => s.puts (clockOn k)) hk (fun u => u.clockRuns_clockOn k) (fun u j hu => ?_) s
  by_cases hj : j = k
  · rw [hj]
    exact u.clockRuns_clockOn k
  · exact State.clockRuns_congr (State.reg_puts_other _ _ fun q hq => by rw [clockOn_key j q hq]; exact fun h => hj (clkStat_injective h).symm) hu

/-- Cores that resume change HALT_STAT alone. -/
theorem State.reg_resumeCores {k : Nat} (h : k ≠ R.MGT_HALT_STAT) (s : State) (mask : Nat) : (s.resumeCores mask).reg k = s.reg k := by
  refine State.reg_foldl _ s fun u m => ?_
  split
  · unfold State.resumeCore
    split
    · exact ((State.wdtChange_keeps _ (List.Subset.refl _) (.refl _)).reg (by decide) k).trans (State.reg_put_other _ (bitFld R.MGT_HALT_STAT m) _ h)
    · rfl
  · rfl

/-- A command to train a lane writes its status, or rejects it, and asks for leave (R544). -/
theorem State.reg_laneTrain {k : Nat} (lane : Fin 8) (hctl : k ≠ R.BRG_CTL lane) (hstat : k ≠ R.BRG_STAT lane) (hleave : k ≠ R.PWR_LEAVE_STAT) (s : State) :
    (ran s (execLaneTrain .pwc lane s)).reg k = s.reg k := by
  rw [execLaneTrain, ran, State.row]
  split
  · rfl
  · rw [show brgMaster .pwc = true from rfl, State.gate_true]
    dsimp only
    split
    · exact State.reg_put_other _ _ _ hctl
    · rw [State.reg_leaveAsk hleave, State.reg_put_other _ _ _ hstat]

/-- The lanes that were turned off for the sleep train again (R527). -/
def State.lanesTrain (s : State) : State :=
  (List.range 8).foldl (fun s l => if s.laneBuilt l && decide (s.laneState l = 0) then ran s (execLaneTrain .pwc (Fin.ofNat 8 l) s) else s) s

theorem State.lanesTrain_frame (s : State) : s.lanesTrain.pwr = s.pwr ∧ s.lanesTrain.events = s.events ∧
    ∀ k < 16, s.lanesTrain.reg (R.CLK_REG_STAT k) = s.reg (R.CLK_REG_STAT k) := by
  have hkeeps : Keeps [.agenda, .regs, .detected, .leave] s s.lanesTrain := by
    refine .foldl (.refl s) fun u l hu => ?_
    split
    · exact ran_keeps _ hu (execLaneTrain_keeps _ _ (List.Subset.refl _) hu)
    · exact hu
  refine ⟨hkeeps.frame .pwr (by decide), hkeeps.frame .events (by decide), fun k hk => State.reg_foldl _ s fun u l => ?_⟩
  split
  · obtain ⟨-, hleave, hctl, hstat⟩ := clkStat_ne k (Fin.ofNat 8 l) hk (Fin.isLt _)
    exact State.reg_laneTrain _ hctl hstat hleave u
  · rfl

/-- The clocks run and the cores go on (R493). -/
def State.wakeClocks (s : State) : State := (({ s with pwr := { s.pwr with sleep := .awake, latched := [] } } : State).generators true).resumeCores 0x7FF

theorem State.wakeClocks_frame (s : State) : s.wakeClocks.pwr = { s.pwr with sleep := .awake, latched := [] } ∧ s.wakeClocks.events = s.events := by
  have hkeeps := State.resumeCores_keeps 0x7FF (K := [.agenda, .regs, .mgt]) (List.Subset.refl _)
    (State.generators_keeps true (by decide) (.refl ({ s with pwr := { s.pwr with sleep := .awake, latched := [] } } : State)))
  exact ⟨hkeeps.frame .pwr (by decide), hkeeps.frame .events (by decide)⟩

theorem State.wakeClocks_run {s : State} {k : Nat} (hk : k ∈ s.clkRegions) (h16 : k < 16) : s.wakeClocks.clockRuns k := by
  have hrun : (({ s with pwr := { s.pwr with sleep := .awake, latched := [] } } : State).generators true).clockRuns k := State.generators_run hk
  exact State.clockRuns_congr (State.reg_resumeCores (clkStat_ne k 0 h16 (by decide)).1 _ _) hrun

/-- DIE_WAKE is posted once the clocks run; then the lanes train again (R489, R493). -/
def State.wakePosted (s : State) : State :=
  (({ s with mgt := { s.mgt with kicks := (List.range 11).foldl (fun k m => SMap.insert k m s.time.now) s.mgt.kicks } } : State).event 1 0x20
    (s.pwr.src + s.pwr.slept % 2 ^ 64 * 2 ^ 32)).lanesTrain

theorem State.wakePosted_frame (s : State) : s.wakePosted.pwr = s.pwr ∧ s.wakePosted.events = s.events ++ [(1, 0x20, s.pwr.src + s.pwr.slept % 2 ^ 64 * 2 ^ 32)] ∧
    ∀ k < 16, s.wakePosted.reg (R.CLK_REG_STAT k) = s.reg (R.CLK_REG_STAT k) := by
  have hevent (x : State) (d : Nat) : Keeps [.agenda, .events] x (x.event 1 0x20 d) := State.event_keeps _ _ _ (List.Subset.refl _) (.refl x)
  rw [State.wakePosted]
  generalize hx : ({ s with mgt := { s.mgt with kicks := (List.range 11).foldl (fun k m => SMap.insert k m s.time.now) s.mgt.kicks } } : State) = x
  have hpwr : x.pwr = s.pwr := by rw [← hx]
  have hevents : x.events = s.events := by rw [← hx]
  have hregs (k : Nat) : x.reg k = s.reg k := by rw [← hx]; rfl
  obtain ⟨hpwr', hevents', hreg'⟩ := State.lanesTrain_frame (x.event 1 0x20 (s.pwr.src + s.pwr.slept % 2 ^ 64 * 2 ^ 32))
  refine ⟨(hpwr'.trans ((hevent x _).frame .pwr (by decide))).trans hpwr, ?_, fun k hk => ?_⟩
  · rw [hevents', State.event_events, hevents]
  · rw [hreg' k hk, (hevent x _).reg (by decide), hregs]

theorem exec_dieWakeDone_of_waking {s : State} (hwaking : s.pwr.sleep = .waking) : exec .dieWakeDone s = .next s.wakeClocks.wakePosted := by
  have hgo : ¬(s.pwr.sleep ≠ .waking) := by simp [hwaking]
  rw [exec_dieWakeDone, execDieWakeDone, if_neg hgo]
  rfl

theorem clkRegions_lt {s : State} {k : Nat} (hk : k ∈ s.clkRegions) : k < 16 := List.mem_range.mp (List.mem_filter.mp hk).1

/-! Settling -/

/-- Settles O47, clause by clause. -/
theorem theDieSleepsAndWakes : Obligations.TheDieSleepsAndWakes := by
  refine ⟨?ask, ?unready, ?check, ?drain, ?sleep, ?wakeDone, ?alarm, ?alarmAck, ?alarmFall, ?edge, ?wake⟩
  case ask => exact fun m v s hm hgo hawake hopen => exec_dieSleep_of_asked hm hgo hawake hopen
  case unready => exact fun v s hasked hdue hlatched hready => exec_dieSleep_of_unready hdue hasked hlatched hready
  case check => exact fun v s hcheck hdue => exec_dieSleep_of_checked hdue hcheck
  case drain => exact fun v s hdrain hdue => exec_dieSleep_of_drained hdue hdrain
  case sleep =>
    intro s hcommit hdue hlatched hrtc htherm
    refine ⟨s.slept, exec_dieSleepCommitEnd_of_alone hcommit hdue hlatched hrtc htherm, ?_, ?_, s.slept_fields⟩
    · rw [s.slept_pwr]
    · rw [s.slept_pwr]
  case wakeDone =>
    intro s hwaking
    obtain ⟨hpwr, hevents⟩ := s.wakeClocks_frame
    obtain ⟨hpwr', hevents', hreg⟩ := s.wakeClocks.wakePosted_frame
    refine ⟨_, exec_dieWakeDone_of_waking hwaking, ?_, ?_, fun k hk => ?_, ?_⟩
    · rw [hpwr', hpwr]
    · rw [hpwr', hpwr]
    · exact State.clockRuns_congr (hreg k (clkRegions_lt hk)) (State.wakeClocks_run hk (clkRegions_lt hk))
    · rw [hevents', hevents, hpwr]
  case alarm => exact fun s hstage hlow hasleep => exec_rtcAlarmRise_of_asleep hstage hlow hasleep
  case alarmAck =>
    intro n s hstage hrtc hdue
    refine ⟨_, exec_rtcAlarmRise_of_answered hstage hrtc hdue, State.f_put_fits _ (by decide) (by decide) (by decide), fun j hj => ?_⟩
    rw [State.sameRegs_put _ R.PWR_WAKE_ACK_RTC 1 j hj]
    rfl
  case alarmFall => exact fun s hstage hhigh => exec_rtcAlarmFall_of_high hstage hhigh
  case edge => exact fun k s hen hasleep => exec_edgeWake_of_asleep hen hasleep
  case wake => exact fun n s hn => s.dieWake_recognized hn

end Sys2Proof.Machine
end
